-- ==== Sys2Proof/Word.lean ====
section
/-! DEFINITION. The plain types every file uses: register words, bytes, device time, master identities, and the one shape
of a sparse table (a list of keyed entries, ascending, where an unlisted key holds the table's reset entry). -/

namespace Sys2Proof

/-- R10: every register is 32 bits wide. -/
abbrev Word := BitVec 32

/-- One byte of memory or of a frame. -/
abbrev Byte := BitVec 8

/-- Device time: a count of 125 ps units (R35). Held as an unbounded count; the registers show it modulo 2^64. -/
abbrev Time := Nat

/-- R525: the master identity that performs an access: 0x01 host, 0x10 to 0x13 cores, 0x20 service port, 0x40 channels. -/
abbrev Ident := BitVec 8

/-- A sparse table: ascending keys; an unlisted key holds the entry the table's user names as its reset entry. -/
abbrev Tab (α : Type) := List (Nat × α)

/-- One CLK_E cycle is 8 units of 125 ps (R35: device time divided by 8 is the cycle number). -/
abbrev ticksPerCycle : Nat := 8

end Sys2Proof
end

