-- ==== Sys2Proof/Syntax.lean ====
section
/-! DEFINITION. The commands of the part: one constructor per row of spec/opcode_table.json, with the operands its rule
names. The first operand of every command, `t`, is the device time at which the command arrives or the event happens. A
register command names the master identity `m` that makes the access. A list of (instant, level) gives the raw transitions of an input
pin since the block last heard of it, oldest first; its filter is part of the block (R33). -/

namespace Sys2Proof

/-- What host memory answers to an access the part makes; an access that lies in SRAM does not use it (R228). -/
inductive HostMem where
  | data (bytes : List Byte)
  | fail
  deriving DecidableEq, Repr

/-- R286: a queue field of BIND: left unchanged, unbound, or bound. -/
inductive BindField where
  | keep
  | unbind
  | set (q : Fin 1024)
  deriving DecidableEq, Repr

/-- R339: the three written registers of a core window. -/
inductive CwReg where
  | ctrl | baseLo | baseHi
  deriving DecidableEq, Repr

/-- A core's access: a fetch, a load, or a store, with its width in bytes (1, 2 or 4). -/
inductive CoreOp where
  | fetch
  | load (width : Nat)
  | store (width : Nat) (v : Word)
  deriving DecidableEq, Repr

/-- The A extension's read-modify-write operations (R450). -/
inductive AmoOp where
  | swap | add | xor | and | or | min | max | minu | maxu
  deriving DecidableEq, Repr

/-- R391: a received PTP message as the engine reads it. `sync` carries the measured offset from the master in units of
125 ps; `announce` carries the data set that the best master clock algorithm compares. -/
inductive PtpMsg where
  | sync (offset : Int)
  | announce (dataset : List Byte)
  | delay
  | pdelay
  | management
  | unsupported
  deriving DecidableEq, Repr

/-- R391: the messages the PTP engine sends at an interval. -/
inductive PtpKind where
  | sync | announce | delayReq
  deriving DecidableEq, Repr

/-- R510, R512: where a boot image came from. -/
inductive BootSource where
  | noFlash | flash0 | flash1 | host
  deriving DecidableEq, Repr

/-- R17, R221, R419: what the host has set in configuration space by the time of a link change. -/
structure PcieCfg where
  busMaster : Bool
  msixEnable : Bool
  funcMask : Bool
  mps : BitVec 3
  mrrs : BitVec 3
  cto : BitVec 4
  deriving DecidableEq, Repr

/-- The commands. -/
inductive Instr where
  /-- R34. An encoder pin transition that the filter accepts is decoded and applied as a step to every bound INCREMENTAL cell, time-stamped at the pin. -/
  | incrementalStep (t : Time) (g : Fin 16) (a b : List Time) (first : Bool × Bool)
  /-- R39. An accepted rising Z edge sets Z_SEEN and may load phase from ENC_ZPHASE into bound cells. -/
  | zLoad (t : Time) (g : Fin 16) (z : List (Time × Bool))
  /-- R41. At a SER_CYCLE instant the serial interface starts a frame, or sets SKIP if a frame is still in progress. -/
  | serialFrameStart (t : Time) (i : Fin 8)
  /-- R42. A completed serial frame is checked and applied as a multi-count step, an INIT_ABS load, or discarded with error counting and LOST after three failures. -/
  | serialFrameEnd (t : Time) (i : Fin 8) (bits : BitVec 64) (n : Nat) (noStart : Bool) (lineMeas : BitVec 16)
  /-- R46. A rising zero crossing qualified after QUAL microseconds steps a MAINS cell to phase 0 and updates MAINS_PERIOD and range flags. -/
  | mainsCrossing (t : Time) (i : Fin 2) (raw : List (Time × Bool))
  /-- R47. Between crossings a MAINS cell steps its phase as the estimator's predicted position crosses each count. -/
  | mainsPhaseStep (t : Time) (c : Fin 64)
  /-- R49. A TIME cell steps forward when DIV CLK_E cycles have elapsed since its last step. -/
  | timeStep (t : Time) (c : Fin 64)
  /-- R51. A SYNTHETIC cell steps when its rate accumulator's integer part changes. -/
  | syntheticStep (t : Time) (c : Fin 64)
  /-- R54. Between samples a MIRROR cell steps its phase as the extrapolated prediction passes each count, never moving backward. -/
  | mirrorPhaseStep (t : Time) (c : Fin 64)
  /-- R55. TIMEOUT Yazen cycles pass without a sample, so the estimator goes LOST, SRC_LOST is set and mirror loss is reported. -/
  | mirrorTimeout (t : Time) (c : Fin 64)
  /-- R69. The time since the newest sample exceeds the standstill limit, so velocity and acceleration are zeroed and the history is cleared. -/
  | standstill (t : Time) (c : Fin 64)
  /-- R31. A CELL_CTRL write enables, disables or reconfigures a cell, or is refused with CFG_REJ. -/
  | cellCtrlWrite (t : Time) (m : Ident) (c : Fin 64) (v : Word)
  /-- R59. A CELL_MOD write sets the modulus from the next step, may set PHASE_OOR and clears a MAINS estimator. -/
  | cellModWrite (t : Time) (m : Ident) (c : Fin 64) (v : Word)
  /-- R61. A write of LOAD_GO loads turn and phase from the LOAD registers, or is rejected with LOAD_REJ. -/
  | loadGo (t : Time) (m : Ident) (c : Fin 64) (v : Word)
  /-- R52. A write of CELL_SYN_RATE_HI commits the 64-bit synthetic rate from the next cycle. -/
  | synRateCommit (t : Time) (m : Ident) (c : Fin 64) (v : Word)
  /-- R76. A write of MIRROR_OFS_HI commits both offset words for the next mirror load. -/
  | mirrorOfsCommit (t : Time) (m : Ident) (c : Fin 64) (v : Word)
  /-- R74. A read of POS_FT latches position, edge time, velocity and acceleration companion words. -/
  | posFtRead (t : Time) (m : Ident) (c : Fin 64)
  /-- R94. A CMP_CTRL write arms, disarms or changes a compare unit, or is ignored with CFG_REJ. -/
  | cmpCtrlWrite (t : Time) (m : Ident) (k : Fin 256) (v : Word)
  /-- R94. A write of CMP_PHASE or CMP_TURN changes the value and re-arms an armed or hysteresis-waiting unit. -/
  | cmpValueWrite (t : Time) (m : Ident) (k : Fin 256) (turn : Bool) (v : Word)
  /-- R116. A read of CMP_FT_LO latches the firing time high word and firing count. -/
  | cmpFtRead (t : Time) (m : Ident) (k : Fin 256)
  /-- R101. An accepted input edge passes the prescaler and stores a record of the cell position, waking waiters, raising the interrupt and posting a record. -/
  | captureEdge (t : Time) (j : Fin 128) (rising : Bool) (stamps : List Time)
  /-- R98. A CAP_CTRL write enables, clears the FIFO or reconfigures a capture unit, or is ignored with CFG_REJ. -/
  | capCtrlWrite (t : Time) (m : Ident) (j : Fin 128) (v : Word)
  /-- R103. A read of CAP_POP removes the oldest unreserved record and latches it into the companion words. -/
  | capPop (t : Time) (m : Ident) (j : Fin 128)
  /-- R108. START_GO with OP 01 clears the hold bit of every selected cell and latches the cycle. -/
  | cellRelease (t : Time) (m : Ident)
  /-- R108. START_GO with OP 10 sets the hold bit of every selected cell and latches the cycle. -/
  | cellHold (t : Time) (m : Ident)
  /-- R118. A read of START_T_LO latches the high word of the latest START_GO cycle. -/
  | startTRead (t : Time) (m : Ident)
  /-- R111. A steward core enters debug halt, starting the freeze of selected cells if it is the first. -/
  | coreDebugHalt (t : Time) (k : Fin 4)
  /-- R111. A core leaves debug halt, ending the freeze if it was the last halted core. -/
  | coreDebugResume (t : Time) (k : Fin 4)
  /-- R118. A read of FRZ_T_LO latches the high word of the latest freeze start. -/
  | frzTRead (t : Time) (m : Ident)
  /-- R137. A command group fetch returns and the group is held, checked when current, or faults as a data fault. -/
  | groupFetch (t : Time) (c : Fin 4096) (h : HostMem)
  /-- R139. READ takes one record or data from a unit into memory, with residual count and length reporting. -/
  | read (t : Time) (c : Fin 4096)
  /-- R147. WRITE moves memory data into a transmit queue, mailbox or Yazen slot. -/
  | write (t : Time) (c : Fin 4096)
  /-- R150. CONTROL order FLUSH discards unreserved records or unstarted frames of a unit. -/
  | flush (t : Time) (c : Fin 4096)
  /-- R150. CONTROL order LOAD loads a counter cell position, or ends with UNIT_CHECK when rejected. -/
  | load (t : Time) (c : Fin 4096)
  /-- R150. CONTROL order SET_MOD writes a counter cell modulus as a CELL_MOD write does. -/
  | setMod (t : Time) (c : Fin 4096)
  /-- R150. CONTROL order SET_RATE commits a synthetic cell rate. -/
  | setRate (t : Time) (c : Fin 4096)
  /-- R149. SENSE samples a unit's sense word, sets COND and writes the sense block unless SKP. -/
  | sense (t : Time) (c : Fin 4096)
  /-- R152. MOVE copies COUNT bytes from ADDR to DST in ascending bursts. -/
  | move (t : Time) (c : Fin 4096)
  /-- R153. FILL writes the repeating VALUE pattern over COUNT bytes. -/
  | fill (t : Time) (c : Fin 4096)
  /-- R154. COMPARE compares memory against memory or a pattern, setting COND and the residual count. -/
  | compare (t : Time) (c : Fin 4096)
  /-- R155. GATHER copies indexed elements to memory or into one transmit frame. -/
  | gather (t : Time) (c : Fin 4096)
  /-- R159. TIC transfers control to ADDR. -/
  | tic (t : Time) (c : Fin 4096)
  /-- R159. TICC transfers control to ADDR when COND matches WHEN, or checks if COND is not valid. -/
  | ticc (t : Time) (c : Fin 4096)
  /-- R160. WAIT of kind TIME starts a duration wait. -/
  | waitTime (t : Time) (c : Fin 4096)
  /-- R160. The duration of a WAIT of kind TIME has elapsed and the wait completes. -/
  | waitTimeExpiry (t : Time) (c : Fin 4096)
  /-- R160. WAIT of kind POSITION enters the scheduler and completes at its due time. -/
  | waitPosition (t : Time) (c : Fin 4096)
  /-- R160. WAIT of kind UNIT waits until the unit advertises data. -/
  | waitUnit (t : Time) (c : Fin 4096)
  /-- R161. WAIT of kind COMPARE completes at once on a missed firing or waits for the next firing. -/
  | waitCompare (t : Time) (c : Fin 4096)
  /-- R160. The awaited unit advertises data or the compare unit fires, so the wait completes with COND TRUE. -/
  | waitComplete (t : Time) (c : Fin 4096)
  /-- R160. The TIMEOUT of a WAIT or GLADE expires, setting COND FALSE and ending the wait. -/
  | waitTimeout (t : Time) (c : Fin 4096)
  /-- R162. GLADE starts waiting until the axis phase lies in the window in a qualified direction. -/
  | glade (t : Time) (c : Fin 4096)
  /-- R200. The phase lies inside the glade, so GLADE completes with COND TRUE. -/
  | gladeComplete (t : Time) (c : Fin 4096)
  /-- R156. SIGNAL in LEVEL mode places one edge on its output unit. -/
  | signalLevel (t : Time) (c : Fin 4096)
  /-- R156. SIGNAL in PULSE mode places a leading edge and a trailing edge WIDTH later. -/
  | signalPulse (t : Time) (c : Fin 4096)
  /-- R345. SIGNAL in PATTERN mode reads, checks and places a pattern of timed and position edges. -/
  | signalPattern (t : Time) (c : Fin 4096)
  /-- R345. The delay of a TIME pattern entry elapses and its edge is placed. -/
  | patternEdge (t : Time) (u : Fin 128)
  /-- R157. A freed output drive slot is reserved by the lowest waiting channel from the next cycle. -/
  | slotReserve (t : Time) (u : Fin 128)
  /-- R158. ARM with KIND 0 writes a compare unit's register image and records the unit and firing count. -/
  | armCompare (t : Time) (c : Fin 4096)
  /-- R158. ARM with KIND 1 writes a capture unit's register image. -/
  | armCapture (t : Time) (c : Fin 4096)
  /-- R168. LOCK fetches and checks the whole bracket and starts the locked sequence. -/
  | lock (t : Time) (c : Fin 4096)
  /-- R169. UNLOCK makes every write of the bracket visible in one cycle. -/
  | unlock (t : Time) (c : Fin 4096)
  /-- R170. A locked sequence not committed within 256 ns of its first access is abandoned and its writes discarded. -/
  | lockAbandoned (t : Time) (c : Fin 4096)
  /-- R171. CAS compares an SRAM word with EXPECT and writes NEW on equality, setting COND. -/
  | cas (t : Time) (c : Fin 4096)
  /-- R163. MARK posts a record carrying TAG and VALUE. -/
  | mark (t : Time) (c : Fin 4096)
  /-- R163. NOP does nothing and completes. -/
  | nop (t : Time) (c : Fin 4096)
  /-- R182. A freed scheduler entry is given to the first waiting timed command, pattern entry or compare unit. -/
  | schedEntryGrant (t : Time)
  /-- R185. The predicted due time comes within the effective lead, so the channel enters STAGED and requests every staging item. -/
  | stagingBegin (t : Time) (c : Fin 4096)
  /-- R189. At the due time minus COMMIT the command commits if staging is complete, or otherwise ends MISSED. -/
  | commit (t : Time) (c : Fin 4096)
  /-- R195. A position-placed pattern edge reaches its own commit instant. -/
  | patternEdgeCommit (t : Time) (u : Fin 128)
  /-- R193. 16 ns before the due time the due time is locked. -/
  | placementLock (t : Time) (c : Fin 4096)
  /-- R178. At the locked due time the timed command's effect begins and the channel enters ACTIVE. -/
  | effect (t : Time) (c : Fin 4096)
  /-- R129. The stamp limit expires before commit and the command ends MISSED, LIMIT. -/
  | limitExpiry (t : Time) (c : Fin 4096)
  /-- R211. A free mover token is granted to the first waiting request and the burst length is fixed and reserved at the unit. -/
  | moverGrant (t : Time)
  /-- R145. A unit that advertised nothing advertises data or space, so a waiting READ or WRITE proceeds. -/
  | unitAdvertise (t : Time) (c : Fin 4096)
  /-- R218. A burst's last write is accepted, the token returns and the context takes its residual count and address. -/
  | burstEnd (t : Time) (mv : Fin 32)
  /-- R221. A PCIe completion for a host memory read arrives and its data enters the mover buffer. -/
  | hostReadCompletion (t : Time) (mv : Fin 32) (addr : Nat) (h : HostMem)
  /-- R228. A host read completion does not arrive within the completion timeout and counts as a bus error. -/
  | completionTimeout (t : Time) (mv : Fin 32) (addr : Nat)
  /-- R236. A write of MOVER_CTRL.PEAK_CLR sets PEAK to the granted token count. -/
  | moverPeakClr (t : Time) (m : Ident) (v : Word)
  /-- R236. A read of MOVER_BYTES_LO latches the high word. -/
  | moverBytesRead (t : Time) (m : Ident)
  /-- R237. A read of MV_STATE latches MV_DONE of the same cycle. -/
  | mvStateRead (t : Time) (m : Ident) (mv : Fin 32)
  /-- R247. START clears the context, sets the command address and enters START_PENDING. -/
  | start (t : Time) (q : Fin 1024) (c : Fin 4096) (phy : Bool) (addr : Nat)
  /-- R243. HALT begins the drain of a running channel into HALT_PENDING. -/
  | halt (t : Time) (q : Fin 1024) (c : Fin 4096)
  /-- R244. SUSPEND sets SUSP_REQ or suspends a waiting or staged channel at once. -/
  | suspend (t : Time) (q : Fin 1024) (c : Fin 4096)
  /-- R245. RESUME restarts a SUSPENDED or FAULTED channel from its context, writing parked bytes first. -/
  | resume (t : Time) (q : Fin 1024) (c : Fin 4096)
  /-- R246. CLEAR drains or clears a channel to IDLE and frees its resources. -/
  | clear (t : Time) (q : Fin 1024) (c : Fin 4096)
  /-- R250. MODIFY changes the command address, COND or noted status bits by mask. -/
  | modify (t : Time) (q : Fin 1024) (c : Fin 4096) (phy : Bool) (addr : Nat) (mask : BitVec 3) (cond : Bool)
  /-- R248. STORE-STATUS writes the 64-byte context snapshot and then completes. -/
  | storeStatus (t : Time) (q : Fin 1024) (c : Fin 4096) (phy : Bool) (addr : Nat)
  /-- R243. The drain of a HALT_PENDING channel ends, the final record is posted and the channel enters HALTED or IDLE. -/
  | drainComplete (t : Time) (c : Fin 4096)
  /-- R253. A read of CTX_STATE latches the whole channel context of that cycle. -/
  | ctxStateRead (t : Time) (m : Ident) (c : Fin 4096)
  /-- R264. A work queue doorbell write starts a read of PI, or coalesces into one further read. -/
  | wqDoorbell (t : Time) (m : Ident) (q : Fin 1024)
  /-- R276. A write covering byte 63 of a push slot buffers a pushed copy, or drops it when 4 are held. -/
  | pushSlotWrite (t : Time) (m : Ident) (q : Fin 1024) (ofs : Nat) (bytes : List Byte)
  /-- R265. The PI read returns, is checked for lap errors, and entries below it become servable. -/
  | wqPiReadComplete (t : Time) (q : Fin 1024) (h : HostMem)
  /-- R270. An entry is taken from a pushed copy or its fetched slot, performed, completed in place and covered by a CI write. -/
  | entryServe (t : Time) (q : Fin 1024) (h : HostMem)
  /-- R288. Admin command CREATE_WQ creates a work queue and writes CI 0. -/
  | createWq (t : Time) (q : Fin 1024) (phy : Bool) (base : Nat) (size : Nat) (dom : Fin 256) (owner : Ident)
  /-- R288. Admin command DESTROY_WQ unbinds and removes a disabled or failed work queue. -/
  | destroyWq (t : Time) (q : Fin 1024)
  /-- R288. Admin command ENABLE_WQ enables a disabled work queue and reads PI. -/
  | enableWq (t : Time) (q : Fin 1024)
  /-- R294. Admin command DISABLE_WQ fixes the final PI and starts the disable drain. -/
  | disableWq (t : Time) (q : Fin 1024)
  /-- R294. A DISABLING queue has served every entry below the final PI and enters DISABLED. -/
  | disableComplete (t : Time) (q : Fin 1024)
  /-- R288. Admin command CREATE_EQ creates an armed event queue and writes PI 0. -/
  | createEq (t : Time) (q : Fin 1024) (phy : Bool) (base : Nat) (size : Nat) (dom : Fin 256) (note : BitVec 2) (vec : Nat)
  /-- R288. Admin command DESTROY_EQ removes an event queue with no bound channel. -/
  | destroyEq (t : Time) (q : Fin 1024)
  /-- R288. Admin command BIND sets a channel's work queue, event queue and domain. -/
  | bind (t : Time) (c : Fin 4096) (wq : BindField) (eq : BindField) (dom : Option (Fin 256))
  /-- R288. Admin command SET_PRIO sets a channel's mover priority class. -/
  | setPrio (t : Time) (c : Fin 4096) (cls : BitVec 2)
  /-- R285. A write of ADMIN_CFG creates, disables or destroys the admin queue, or is refused with CFG_REJ. -/
  | adminCfgWrite (t : Time) (m : Ident) (v : Word)
  /-- R282. An event queue doorbell write starts a CI read, with ARM deciding arming or notification. -/
  | eqDoorbell (t : Time) (m : Ident) (q : Fin 1024) (arm : Bool)
  /-- R282. The CI read returns, returns credits and notifies or arms the queue. -/
  | eqCiReadComplete (t : Time) (q : Fin 1024) (h : HostMem)
  /-- R251. A record held for lack of credit is posted when a credit returns. -/
  | heldRecordPost (t : Time) (q : Fin 1024)
  /-- R300. A read of WQ_PI latches WQ_CI. -/
  | wqPiRead (t : Time) (m : Ident) (q : Fin 1024)
  /-- R301. A read of EQ_RES latches EQ_PI and EQ_CI. -/
  | eqResRead (t : Time) (m : Ident) (q : Fin 1024)
  /-- R307. A table entry read of a walk returns and the walk descends, caches the leaf or faults. -/
  | tableReadComplete (t : Time) (w : Nat) (h : HostMem)
  /-- R311. A write of XL_INV_GO starts an invalidation of the selected scope. -/
  | xlInvGo (t : Time) (m : Ident) (v : Word)
  /-- R312. The scope is empty and its accesses have ended, so BUSY clears and SEQ advances. -/
  | invalidationComplete (t : Time)
  /-- R304. A DOM_CTRL write enables or disables a domain, starting a domain invalidation, or is ignored with CFG_REJ. -/
  | domCtrlWrite (t : Time) (m : Ident) (d : Fin 256) (v : Word)
  /-- R324. A fault queue doorbell write reads CI and arms or notifies. -/
  | fqDb (t : Time) (m : Ident) (d : Fin 256) (v : Word)
  /-- R326. An FQ_CFG write enables or disables a fault queue, or is ignored with CFG_REJ. -/
  | fqCfgWrite (t : Time) (m : Ident) (d : Fin 256) (v : Word)
  /-- R336. A write of PARK_CTRL.PEAK_CLR sets PEAK to USED. -/
  | parkPeakClr (t : Time) (m : Ident) (v : Word)
  /-- R336. A read of XL_HIT_LO latches the high word. -/
  | xlHitRead (t : Time) (m : Ident)
  /-- R338. A read of FQ_PI latches FQ_CI. -/
  | fqPiRead (t : Time) (m : Ident) (d : Fin 256)
  /-- R333. A core access through a host window is translated and performed, or raises a precise access fault. -/
  | coreWindowAccess (t : Time) (k : Fin 4) (addr : Word) (op : CoreOp) (h : HostMem)
  /-- R334. A core window register write applies to later accesses, or is ignored with CFG_REJ. -/
  | cwCtrlWrite (t : Time) (m : Ident) (k : Fin 4) (w : Fin 8) (reg : CwReg) (v : Word)
  /-- R352. A pin has been on for MAX_ON and is forced to rest. -/
  | maxOn (t : Time) (u : Fin 128)
  /-- R352. A pin's on-time in the duty window reaches the limit and it is forced to rest. -/
  | duty (t : Time) (u : Fin 128)
  /-- R355. A permit input holds a new level for FILT microseconds and is accepted, forcing selected on pins to rest when deasserted. -/
  | permit (t : Time) (i : Fin 8) (raw : List (Time × Bool))
  /-- R357. At each whole millisecond every pin's edge budget is reset to MAX_EDGES. -/
  | budgetWindowStart (t : Time)
  /-- R374. A read of OU_EDGE_LO latches the edge and clamp times. -/
  | ouEdgeRead (t : Time) (m : Ident) (u : Fin 128)
  /-- R367. LWS_CMD with TARGET 1 checks and starts a fence image commit. -/
  | commitFence (t : Time) (m : Ident) (v : Word)
  /-- R367. LWS_CMD with TARGET 2 checks and starts a conduct-level commit. -/
  | commitConduct (t : Time) (m : Ident) (v : Word)
  /-- R367. LWS_CMD with TARGET 3 checks and starts a line and node identity commit. -/
  | commitIdentity (t : Time) (m : Ident) (v : Word)
  /-- R368. The commit's programming and read-back end with a VALID or SPOILED slot and BUSY clears. -/
  | commitComplete (t : Time) (readBack : Bool)
  /-- R370. A write to LWS_STAGE stores image bytes, or is ignored with STAGE_REJ while busy. -/
  | lwsStageWrite (t : Time) (m : Ident) (ofs : Fin 608) (v : Word)
  /-- R367. SERVICE_EN has stayed at a new level long enough and its qualified level changes. -/
  | serviceEnQualify (t : Time) (raw : List (Time × Bool))
  /-- R378. A PORT_CTRL write enables a port, starts DISABLING, or is refused. -/
  | portCtrlWrite (t : Time) (m : Ident) (p : Fin 16) (v : Word)
  /-- R378. The wire is idle after a disable and the port enters DISABLED. -/
  | portDisableComplete (t : Time) (p : Fin 16)
  /-- R379. The PCS gains or loses link, setting LINK_LOST and reporting link loss when it falls. -/
  | linkChange (t : Time) (p : Fin 16) (up : Bool)
  /-- R380. A received frame is checked and classified to the Yazen engine, PTP engine, a stream, or dropped. -/
  | frameReceive (t : Time) (p : Fin 16) (bytes : List Byte) (good : Bool)
  /-- R385. An RS_CTRL write enables a stream or starts its DISABLING, or is refused. -/
  | rsCtrlWrite (t : Time) (m : Ident) (r : Fin 256) (v : Word)
  /-- R385. The reserved records of a DISABLING stream are taken or freed and the stream enters DISABLED. -/
  | streamDisableComplete (t : Time) (r : Fin 256)
  /-- R387. GAP microseconds pass without a placement and the placement READ completes. -/
  | placementGap (t : Time) (c : Fin 4096)
  /-- R389. A TXQ_CTRL write enables or disables a transmit queue, or is refused. -/
  | txqCtrlWrite (t : Time) (m : Ident) (x : Fin 64) (v : Word)
  /-- R390. At a frame boundary the port chooses and starts the next PTP, Yazen or queue frame. -/
  | frameTransmit (t : Time) (p : Fin 16)
  /-- R393. A PTP message is time-stamped and processed, and a Sync updates the line time map. -/
  | ptpMessageRx (t : Time) (p : Fin 16) (msg : PtpMsg)
  /-- R394. The PTP master is lost, the map runs on at its last rate and holdover is reported. -/
  | holdover (t : Time)
  /-- R416. A read of PTP_NOW_LO latches line time and device time of the same cycle. -/
  | ptpNowRead (t : Time) (m : Ident)
  /-- R398. A Yazen cycle begins at its line time and a CREDIT frame is sent on each ring port. -/
  | cycleStart (t : Time)
  /-- R407. At C + TX_OFS − 1 µs the exported cells and owned slots are copied into the samples. -/
  | snapshot (t : Time)
  /-- R398. At C + TX_OFS the CYCLIC frame starts on every Yazen port. -/
  | cyclic (t : Time)
  /-- R397. A received Yazen frame is checked, forwarded and applied as samples, slots, a line stop or credits. -/
  | yazenFrameRx (t : Time)
  /-- R401. A forwarded frame that has waited 2 × T_CYC is dropped and counted. -/
  | forwardDrop (t : Time) (ringB : Bool)
  /-- R402. An own CYCLIC frame not started by the end of its cycle is dropped and counted. -/
  | ownFrameDrop (t : Time) (p : Fin 16)
  /-- R405. A write of YZ_STOP.GO sends the first LINE_STOP frame on every Yazen port. -/
  | lineStop (t : Time) (m : Ident) (v : Word)
  /-- R405. 10 µs after the previous copy the next LINE_STOP frame of the same sequence is sent. -/
  | lineStopRepeat (t : Time)
  /-- R419. A pending unmasked vector's message enters the outbound path and its pending bit clears. -/
  | msixIssue (t : Time)
  /-- R425. A pending source is bound to an eligible core and raises its MEIP. -/
  | cicDeliver (t : Time) (i : Fin 1024)
  /-- R423. A write of 1 to a CIC_PEND bit sets the source's PEND. -/
  | cicPendWrite (t : Time) (m : Ident) (w : Fin 32) (v : Word)
  /-- R423. A write of 1 to a CIC_PCLR bit clears the source's PEND unless bound. -/
  | cicPclrWrite (t : Time) (m : Ident) (w : Fin 32) (v : Word)
  /-- R426. A read of CIC_CLAIM by its core claims the highest-priority bound source. -/
  | cicClaim (t : Time) (m : Ident) (k : Fin 4)
  /-- R428. A write of CIC_COMPLETE ends ACTIVE on the source or sets BAD_COMPLETE. -/
  | cicComplete (t : Time) (m : Ident) (k : Fin 4) (v : Word)
  /-- R433. A write of UND_REST with GO asks for Rest, which is checked and entered as ENTERING. -/
  | undRest (t : Time) (m : Ident) (v : Word)
  /-- R434. All cores are stopped, so the other clocks stop and the part enters REST. -/
  | restEntry (t : Time)
  /-- R434. A core has not reached WFI within 1 ms, so entry is abandoned. -/
  | restEntryTimeout (t : Time)
  /-- R436. WAKE_N or an enabled watch event in Rest records its cause and starts WAKING. -/
  | wakeEvent (t : Time) (code : Option Byte)
  /-- R435. UND_TIMER milliseconds of Rest pass and the timer watch event fires. -/
  | undTimerExpiry (t : Time)
  /-- R436. The clocks restart, the part enters RUN, cores resume and source 677 is raised. -/
  | wakeComplete (t : Time)
  /-- R437. A read of UND_WT_LO latches the high word of the first wake time. -/
  | undWtRead (t : Time) (m : Ident)
  /-- R441. MB_SEND.GO places the composed message in the slot toward the other side and starts its timer. -/
  | mbSend (t : Time) (m : Ident) (b : Fin 64) (v : Word)
  /-- R442. MB_ACK empties the incoming slot and gives the sender ACKED and the return code. -/
  | mbAck (t : Time) (m : Ident) (b : Fin 64) (v : Word)
  /-- R443. An unacknowledged message reaches TIMEOUT ms and the sender's TIMEOUT is set. -/
  | mbTimeout (t : Time) (b : Fin 64) (sideA : Bool)
  /-- R438. A write of MB_BIND rebinds a mailbox and discards its slots, or is ignored with CFG_REJ. -/
  | mbBindWrite (t : Time) (m : Ident) (b : Fin 64) (v : Word)
  /-- R439. A write of MB_LOCK locks the binding table until power-on reset or RESET_N. -/
  | mbLock (t : Time) (m : Ident) (v : Word)
  /-- R446. A USB bus reset or detach resets service side 0x20 and its mailboxes. -/
  | usbBusReset (t : Time)
  /-- R457. CMO_OP 1 writes dirty lines in range to memory and keeps them. -/
  | cleanDataLines (t : Time) (m : Ident) (k : Fin 4) (v : Word)
  /-- R457. CMO_OP 2 discards the data lines in range. -/
  | invalidateDataLines (t : Time) (m : Ident) (k : Fin 4) (v : Word)
  /-- R457. CMO_OP 3 writes back and discards the data lines in range. -/
  | cleanInvalidateDataLines (t : Time) (m : Ident) (k : Fin 4) (v : Word)
  /-- R457. CMO_OP 4 discards the instruction lines in range. -/
  | invalidateInstructionLines (t : Time) (m : Ident) (k : Fin 4) (v : Word)
  /-- R457. CMO_OP 5 writes back every dirty line of the data cache. -/
  | cleanWholeDataCache (t : Time) (m : Ident) (k : Fin 4) (v : Word)
  /-- R457. CMO_OP 6 writes back and discards the whole data cache. -/
  | cleanInvalidateWholeDataCache (t : Time) (m : Ident) (k : Fin 4) (v : Word)
  /-- R468. A core AMO on the uncached alias runs as a locked sequence. -/
  | coreAmo (t : Time) (k : Fin 4) (addr : Word) (op : AmoOp) (v : Word)
  /-- R470. LR.W reads a word and sets a reservation on its beat. -/
  | coreLr (t : Time) (k : Fin 4) (addr : Word)
  /-- R470. SC.W writes its word if the reservation holds and clears the reservation. -/
  | coreSc (t : Time) (k : Fin 4) (addr : Word) (v : Word)
  /-- R473. A write of CORE_CTRL.RESET 1 stops the core issuing and enters RESETTING. -/
  | coreReset (t : Time) (m : Ident) (k : Fin 4) (v : Word)
  /-- R474. Every access the core issued has ended, so it enters IN_RESET with its caches and locks reset. -/
  | coreInReset (t : Time) (k : Fin 4)
  /-- R473. A write of RESET 0 in IN_RESET releases the core to fetch from CORE_RESETVEC, or is refused in RESETTING. -/
  | coreRelease (t : Time) (m : Ident) (k : Fin 4) (v : Word)
  /-- R472. A write of WD_CTRL.EN 1 starts the core's watchdog. -/
  | wdCtrlWrite (t : Time) (m : Ident) (k : Fin 4) (v : Word)
  /-- R472. A write of WD_KICK with the key by its core reloads the watchdog. -/
  | wdKick (t : Time) (m : Ident) (k : Fin 4) (v : Word)
  /-- R472. The watchdog expires, sets WD_EXPIRED, reports its source and may reset the core. -/
  | watchdogExpiry (t : Time) (k : Fin 4)
  /-- R452. mtime reaches MTIMECMP and the core's timer interrupt becomes pending. -/
  | mtip (t : Time) (k : Fin 4)
  /-- R477. A read of MTIME_LO latches the high word. -/
  | mtimeRead (t : Time) (m : Ident)
  /-- R464. Every INTERVAL ns the scrubber reads and corrects the next SRAM beat. -/
  | scrubBeat (t : Time)
  /-- R477. A write of ARB_CTRL.TWAIT_CLR clears the longest timed wait. -/
  | arbTwaitClr (t : Time) (m : Ident) (v : Word)
  /-- R206. A write of SCHED_CTRL.PEAK_CLR sets PEAK to USED. -/
  | schedPeakClr (t : Time) (m : Ident) (v : Word)
  /-- R485. A source pair is judged asserted or enters a wire fault, so it is counted, recorded in the trail and its reaction applied. -/
  | faultEvent (t : Time) (wires : List (Fin 254))
  /-- R491. An upset of stored collector configuration bits is recorded as source 255 and enters the safe state with SELF. -/
  | parityError (t : Time)
  /-- R493. An FC_SAFE write with ENTER is accepted and recorded as source 254. -/
  | safeEnter (t : Time) (m : Ident) (v : Word)
  /-- R493. An FC_SAFE write with EXIT is checked and clears SAFE when accepted. -/
  | safeExit (t : Time) (m : Ident) (v : Word)
  /-- R489. A write of FC_TKEY advances or locks the test key unlock sequence. -/
  | fcTkeyWrite (t : Time) (m : Ident) (v : Word)
  /-- R482. A write of FC_LOCK locks the collector configuration until power-on reset or RESET_N. -/
  | fcLock (t : Time) (m : Ident) (v : Word)
  /-- R488. A write of FC_FIRST_CTL.CLR empties FC_FIRST. -/
  | fcFirstClr (t : Time) (m : Ident) (v : Word)
  /-- R488. A read of FC_FIRST0 latches words 1 to 3 of the first entry. -/
  | fcFirstRead (t : Time) (m : Ident)
  /-- R486. A read of trail word 0 latches words 1 to 3 of that slot. -/
  | fcTrailRead (t : Time) (m : Ident) (r : Fin 32)
  /-- R496. A read of FC_SAFE_T_LO latches the high word of the latest safe-state entry. -/
  | fcSafeTRead (t : Time) (m : Ident)
  /-- R536. A rail stays outside its operating range for 200 ns and reports source 162 or 163. -/
  | supplyExcursion (t : Time) (rail : Option (BitVec 8))
  /-- R537. The Tj reading crosses a grade threshold and asserts or deasserts source 160 or 161. -/
  | temperatureThreshold (t : Time) (upper : Bool) (above : Bool)
  /-- R497. A rail below threshold or absent REFCLK holds the part in power-on reset with outputs idle. -/
  | powerOnReset (t : Time)
  /-- R498. The last power-on condition ends and the part locks PLLs, zeroes memory, reads the store, applies fences and starts boot. -/
  | powerOnRelease (t : Time) (bank33 : BitVec 8)
  /-- R500. RESET_N low resets the part and on release reruns stages 2 to 5 of power-up. -/
  | resetN (t : Time) (width : Nat)
  /-- R500. PERST_N low acts as a function-wide reset and resets the PCIe link. -/
  | perstN (t : Time) (level : Bool)
  /-- R500. A PCIe function level reset performs a function-wide reset. -/
  | flr (t : Time)
  /-- R520. A keyed write of FUNC_RESET performs a function-wide reset. -/
  | funcReset (t : Time) (m : Ident) (v : Word)
  /-- R503. A function-wide reset becomes ready and core 0 is released if boot is DONE. -/
  | functionResetReady (t : Time)
  /-- R520. A read of DEVTIME_LO latches the high word of device time. -/
  | devtimeRead (t : Time) (m : Ident)
  /-- R508. A loaded image is checked and either starts core 0 or leads to the next slot or WAIT_HOST. -/
  | bootImageCheck (t : Time) (source : BootSource) (image : List Byte) (slow : Bool)
  /-- R512. A keyed BOOT_HOST_GO write by the host resets the cores and boots from the SRAM image. -/
  | bootHostGo (t : Time) (m : Ident) (v : Word)
  /-- R513. A keyed BOOT_FUSE_CMD write starts programming the boot key fuses, or is refused. -/
  | bootFuseCmd (t : Time) (m : Ident) (v : Word)
  /-- R513. Fuse programming and read-back end with RESULT OK or FAULTED. -/
  | fuseProgramComplete (t : Time) (readBack : Bool)
  /-- R518. A service READ frame returns BAR0 words without side effects. -/
  | svcRead (t : Time) (ofs : Nat) (n : Nat)
  /-- R517. A service MB_SEND frame sends a mailbox message as identity 0x20. -/
  | svcMbSend (t : Time) (b : Fin 64) (words : List Word)
  /-- R517. A service MB_ACK frame acknowledges a mailbox message as identity 0x20. -/
  | svcMbAck (t : Time) (b : Fin 64) (rc : BitVec 16)
  /-- R517. A service STAGE frame writes bytes into LWS_STAGE. -/
  | svcStage (t : Time) (ofs : Nat) (bytes : List Byte)
  /-- R517. A service COMMIT frame writes LWS_STAMP, LWS_TAG and LWS_CMD and answers when BUSY clears. -/
  | svcCommit (t : Time) (stamp : Word) (tag : Word) (v : Word)
  /-- R517. A service FUSE frame stages the digest and issues BOOT_FUSE_CMD. -/
  | svcFuse (t : Time) (digest : BitVec 256)
  /-- R517. A service CORE_RESET frame writes CORE_CTRL.RESET of a core. -/
  | svcCoreReset (t : Time) (k : Fin 4) (v : Bool)
  /-- R528. An access of TCMA_DATA reads or writes the selected core's TCM word and advances OFS. -/
  | tcmaData (t : Time) (m : Ident) (w : Option Word)
  /-- R11. A write to a register without a row of its own sets, clears or ignores its fields by their access types. -/
  | registerWrite (t : Time) (m : Ident) (ofs : Nat) (be : BitVec 4) (v : Word)
  /-- R156. WIDTH after its leading edge, a PULSE SIGNAL places its trailing edge and completes. -/
  | pulseTrailingEdge (t : Time) (u : Fin 128)
  /-- R345. At the locked instant of a POSITION pattern entry the output unit places that edge, judged by the fence. -/
  | positionEdge (t : Time) (u : Fin 128)
  /-- R324. The CI read started by a fault queue doorbell returns, is checked for lap errors, returns slots and arms or notifies. -/
  | fqCiReadComplete (t : Time) (d : Fin 256) (h : HostMem)
  /-- R17. The PCIe link finishes training or goes down, deciding whether host accesses and MSI-X messages can issue. -/
  | pcieLinkChange (t : Time) (up : Bool) (cfg : PcieCfg)
  /-- R391. At its log interval the PTP engine sends a Sync, Announce or delay request message with its one-step stamp. -/
  | ptpMessageTx (t : Time) (p : Fin 16) (kind : PtpKind)
  /-- R435. 25 ms pass without a qualified crossing on a mains input and the Understory watch event 0x10 or 0x11 fires. -/
  | mainsCrossingTimeout (t : Time) (i : Fin 2)
  /-- R434. A steward core executes WFI and enters CORE_STATUS state WFI, and during Rest entry its clock stops. -/
  | coreWfi (t : Time) (k : Fin 4)
  /-- R456. A core load, store or fetch to TCM or to the cached or uncached SRAM alias refills, writes back, corrects or faults on ECC errors. -/
  | coreSramAccess (t : Time) (k : Fin 4) (addr : Word) (op : CoreOp)
  /-- R531. A host read or write of BAR4 accesses SRAM byte for byte, merging narrow writes and poisoning reads of uncorrectable words. -/
  | bar4Access (t : Time) (ofs : Nat) (len : Nat) (w : Option (List Byte))
  /-- R529. A USB host configures the service port and SVC_STATUS.ATTACHED becomes 1. -/
  | servicePortAttach (t : Time)
  deriving DecidableEq, Repr

end Sys2Proof
end

