-- ==== Sys2Proof/Config.lean ====
section
/-! DEFINITION. What an implementation fixes and what the spec leaves open. The free values are opaque: nothing in Lean can
evaluate one, so a statement about one holds for every value. -/

namespace Sys2Proof.Config

/-- R2: ID_STEP.GRADE, 0 on ZN4096-E and 1 on ZN4096-X: fixed by manufacture. FREE. -/
opaque gradeX : Bool

/-- R211: which free mover takes a grant; the answer is taken modulo the number of free movers. FREE (log 2). -/
opaque moverPick : Nat → Nat

/-- R393, R394: the servo's new rate in PTP_RATE, from the old rate, the offset and the draw count. FREE (log 2). -/
opaque servoRate : Nat → Word → Int → Word

/-- R391: what the best master clock algorithm decides on an announced data set, by the draw count, the port and the data set:
0 the announcing clock is master, 1 the part is, any other the part is passive. FREE (log 2). -/
opaque bestMaster : Nat → Nat → List Byte → Nat

/-- R391, R392: the bytes of a PTP message, by port, kind and one-step time stamp; IEEE 1588 gives its layout, not the spec.
FREE (log 2). -/
opaque ptpFrame : Nat → Nat → BitVec 64 → List Byte

/-- R74, R76: how a velocity or an acceleration between two words is rounded: 0 toward zero, 1 down, any other to the nearest word.
FREE (log 12). -/
opaque velRound : Nat

/-- R76: what VEL or ACC reads as where the value does not fit its 64 bits. FREE (log 12). -/
opaque velWide : Int → BitVec 64

/-- R455: which of the four lines of a set a refill replaces, by the draw count; taken modulo 4. FREE (log 2). -/
opaque cacheVictim : Nat → Nat

/-- R508: SHA-256 of a byte list, as a 256-bit number. A standard function the spec names and does not define. FREE (log 2). -/
opaque sha256 : List Byte → BitVec 256

/-- R508: the ECDSA P-256 verification of a digest under a public key and a signature. FREE (log 2). -/
opaque ecdsaOk : List Byte → BitVec 256 → List Byte → Bool

/-- R500: whether a RESET_N pulse between the width the part ignores and the width it always accepts takes effect. FREE (log 2). -/
opaque resetPulse : Nat → Nat → Bool

/-- R45: bit CRC_OK of the raw record of an SSI frame, which carries no CRC. FREE (log 2). -/
opaque ssiCrcOk : Bool

/-- What a value the spec leaves open reads as, by the draw count. FREE (log 2). -/
opaque openWord : Nat → Word

end Sys2Proof.Config
end

