-- ==== Sys2Proof/Machine/State.lean ====
section
/-! DEFINITION. The state of the part: every register, FIFO, buffer, counter, mode and pin the spec gives it, as plain
data, and the queue of commands that wait. Instanced blocks are sparse tables whose unlisted entries stand at reset. -/

namespace Sys2Proof.Machine

/-! ## Counter cells and inputs (02_counter_cells.md) -/

/-- R66: the estimator states, with the encodings of CELL_STATUS.EST_STATE in `EstState.code`. -/
inductive EstState where
  | idle | seeded | linear | full | standstill | lost | exact
  deriving DecidableEq, Repr

/-- R64: one sample of the estimator: its time stamp and the boundary it crosses, in half counts of the cell's own count
of steps since enable (a serial or load-free coordinate: R60, R63). -/
structure Sample where
  time : Time := 0
  pos2 : Int := 0
  deriving DecidableEq, Repr

/-- R33, R35, R99: the filter of one input pin. The raw level stands since `rawT`; `run` samples in a row, up to cycle `at_`, differ
from the accepted level, and `stamp` is the raw transition before the first of them. -/
structure Filt where
  raw : Bool := false
  rawT : Time := 0
  run : Nat := 0
  stamp : Time := 0
  at_ : Nat := 0
  deriving DecidableEq, Repr

/-- R101: where the cell stood from `since` on, kept for captures whose time stamp lies before their acceptance; whether it was held,
or frozen, from then on. -/
structure PastPos where
  since : Time := 0
  held : Bool := false
  frozen : Bool := false
  ctrl : Word := 0x200
  mod : Word := 0
  rate : BitVec 64 := 0
  pausedAt : Option Time := none
  loadAt : Option Nat := none
  turn : BitVec 48 := 0
  phase : Word := 0
  frac : BitVec 16 := 0
  est : EstState := .idle
  odo : Int := 0
  hist : List Sample := []
  origin : Time := 0
  acc : Word := 0
  divAct : Word := 1
  deriving DecidableEq, Repr

/-- R26, R76: one counter cell. Registers keep their words; the rest is what the rules give the cell to remember. -/
structure Cell where
  /-- CELL_CTRL (R76). -/
  ctrl : Word := 0x200
  /-- CELL_MOD as last written, and the modulus in force until the next step (R59). -/
  mod : Word := 0
  modAct : Word := 0
  /-- The cycle of the latest CELL_MOD write: a step of that cycle uses `modAct` (R59). -/
  modAt : Option Nat := none
  /-- CELL_DIV as last written, and the divider of the period in progress (R49). -/
  div : Word := 1
  divAct : Word := 1
  still : Word := 0x0186A004
  win : Word := 0x00271008
  /-- The W1C bits [15:8] of CELL_STATUS, in place. -/
  flags : Word := 0
  /-- CELL_STATUS.DIR (R58). -/
  dir : BitVec 2 := 2
  est : EstState := .idle
  quad : BitVec 16 := 0
  ser : BitVec 16 := 0
  turn : BitVec 48 := 0
  phase : Word := 0
  /-- The fraction last held (R70); LINEAR, FULL and EXACT compute it. -/
  frac : BitVec 16 := 0
  /-- R61, R70: the cycle of the latest load that no step has followed: the fraction is 0 in it. -/
  loadAt : Option Nat := none
  /-- Net count of steps since enable: the coordinate of the samples. -/
  odo : Int := 0
  /-- R198: the previous step reached the count above the one held (it was a reverse step, and no load followed). -/
  reachUp : Bool := false
  /-- R31: CELL_CTRL.PRED_LINEAR as of the latest step. -/
  predLin : Bool := false
  /-- R64: newest first, at most WIN_N. -/
  hist : List Sample := []
  /-- R69, R74: time stamps of the newest sample and of the one received before it; on a cell that keeps no samples, of its latest steps. -/
  lastT : Option Time := none
  prevT : Option Time := none
  /-- R49, R61: the instant the count of cycles of a TIME cell runs from; for a SYNTHETIC cell the last cycle added. -/
  origin : Time := 0
  /-- R51: the 32 bits of a SYNTHETIC accumulator below the count. -/
  acc : Word := 0
  /-- R49: where a TIME cell's cycles are paused by a hold or a freeze, the cycles counted so far. -/
  pausedAt : Option Time := none
  synLo : Word := 0
  synHi : Word := 0
  /-- R52: the committed signed rate. -/
  rate : BitVec 64 := 0
  loadT : Word := 0
  loadPhase : Word := 0
  loadTurnHi : Word := 0
  mirrorSrc : Word := 0x00040000
  ofsLo : Word := 0
  ofsHi : Word := 0
  /-- The committed mirror offset. -/
  ofs : BitVec 64 := 0
  /-- R53: the count of the previous mirror sample; none before the first sample. -/
  mirPrev : Option (BitVec 64) := none
  /-- R55: device time of the latest mirror sample (or of the enable). -/
  mirLast : Time := 0
  /-- R54: the mirror count the samples have given, in the coordinate of `odo`. -/
  mirOdo : Int := 0
  /-- R55: the loss of the mirror has been noticed since its latest sample. -/
  mirOut : Bool := false
  /-- R43: the first good serial word after EN rose is still to come. -/
  absFirst : Bool := false
  /-- R66: velocity and acceleration held in LOST. -/
  velHeld : BitVec 64 := 0
  accHeld : BitVec 64 := 0
  /-- R112: net signed count of source steps while frozen. -/
  frzAcc : Int := 0
  /-- R407: the cell was loaded, or its modulus written, since the previous snapshot. -/
  reload : Bool := false
  /-- R101: recent positions, newest first. -/
  past : List PastPos := []
  deriving DecidableEq, Repr

/-- R77: an encoder group. -/
structure EncGroup where
  ctrl : Word := 0xC0
  zphase : Word := 0
  a : Bool := false
  b : Bool := false
  z : Bool := false
  zSeen : Bool := false
  quadErr : Bool := false
  /-- R33: the filters of A, B and Z; `a`, `b` and `z` are the levels they have accepted. -/
  fa : Filt := {}
  fb : Filt := {}
  fz : Filt := {}
  deriving DecidableEq, Repr

/-- R78: a serial encoder interface. -/
structure SerIf where
  ctrl : Word := 0xC360
  clk : Word := 0x1400FA
  cycle : Word := 0xF424
  delay : Word := 0
  /-- SER_STATUS [5:0]. -/
  flags : Word := 0
  consec : BitVec 8 := 0
  lineMeas : BitVec 16 := 0
  /-- R41: first falling MA edge of the frame in progress. -/
  frame : Option Time := none
  /-- R41: the next cycle instant. -/
  due : Time := 0
  /-- R41: MA stays high until this instant after a frame. -/
  recover : Time := 0
  /-- R42: the previous good word. -/
  prev : Option (BitVec 64) := none
  /-- R45: raw frames, oldest first, 16 bytes each, with those that started bursts have reserved (`Burst.raws`). -/
  raw : List (List Byte) := []
  deriving DecidableEq, Repr

/-- R79: a mains input. -/
structure MainsIn where
  ctrl : Word := 0x1401
  period : Word := 0
  /-- R46, R79: the comparator level, the instant of its latest transition, and the qualified level. -/
  raw : Bool := false
  rawT : Time := 0
  level : Bool := false
  range : Bool := false
  lastX : Option Time := none
  deriving DecidableEq, Repr

/-- R107 to R118: global start and debug freeze. -/
structure Start where
  sel : BitVec 64 := 0
  hold : BitVec 64 := 0
  startT : Time := 0
  frzSel : BitVec 64 := 0
  seen : Bool := false
  halted : BitVec 4 := 0
  frzOvf : BitVec 64 := 0
  frzT : Time := 0
  deriving DecidableEq, Repr

structure Axes where
  cells : Tab Cell := []
  encs : Tab EncGroup := []
  sers : Tab SerIf := []
  mains : Tab MainsIn := []
  start : Start := {}
  deriving DecidableEq, Repr

/-! ## Compare and capture units (03_compare_capture_start.md) -/

/-- R92, R257: an unposted compare record; the fields are those of its first firing. -/
structure CmpRec where
  cell : Nat := 0
  phase : Word := 0
  turn : BitVec 16 := 0
  time : Time := 0
  count : Word := 0
  chan : Nat := 0
  deriving DecidableEq, Repr

/-- R116: a compare unit. -/
structure Cmp where
  ctrl : Word := 0
  phase : Word := 0
  turn : Word := 0
  incr : Word := 0
  armed : Bool := false
  /-- R80, R84: steps of this CLK_E cycle and before it do not count; none when armed from a cycle's start (R97). -/
  armedAt : Option Nat := none
  fired : Bool := false
  overrun : Bool := false
  cfgRej : Bool := false
  hystWait : Bool := false
  ft : Time := 0
  fcnt : Word := 0
  /-- R161: the cycle of the latest firing. -/
  fireAt : Option Nat := none
  /-- R93: the unit holds a scheduler entry. -/
  entry : Bool := false
  /-- R93: predicted firing time carried by the entry. -/
  due : Option Time := none
  pend : Option CmpRec := none
  oorPend : Option CmpRec := none
  /-- R89: a record of the present stay out of range has been formed. -/
  oorDone : Bool := false
  deriving DecidableEq, Repr

/-- R104: a capture record. -/
structure CapRec where
  phase : Word := 0
  frac : BitVec 16 := 0
  turn : BitVec 16 := 0
  time : Time := 0
  edge : Bool := false
  ovf : Bool := false
  est : Bool := false
  deriving DecidableEq, Repr

/-- R105, R92: an unposted capture event record. -/
structure CapPend where
  data : CapRec := {}
  cell : Nat := 0
  count : Word := 0
  chan : Nat := 0
  deriving DecidableEq, Repr

/-- R117: a capture unit. -/
structure Cap where
  ctrl : Word := 0
  filt : Word := 3
  presc : Word := 0
  chan : Word := 0
  level : Bool := false
  /-- R99: the unit's own filter; `level` is what it has accepted. -/
  pf : Filt := {}
  ovf : Bool := false
  cfgRej : Bool := false
  ovfCnt : BitVec 16 := 0
  pcnt : Nat := 0
  /-- Oldest first, with the records that started bursts have reserved (R104: those stand in the bursts, `Burst.recs`). -/
  fifo : List CapRec := []
  /-- R102, R104: how often EN has risen: a burst's reservation is of the FIFO of its own time. -/
  epoch : Nat := 0
  ovfBefore : Bool := false
  pend : Option CapPend := none
  deriving DecidableEq, Repr

/-! ## Channels (04, 05, 06, 07) -/

/-- R239. -/
inductive ChanState where
  | idle | startPending | active | waiting | staged | suspended | postPending | faulted | haltPending | halted
  deriving DecidableEq, Repr

/-- R119, R120, R127: a command word, its operand word and its stamp; an absent word reads 0. -/
structure Group where
  w0 : Word := 0
  w1 : Word := 0
  w2 : Word := 0
  w3 : Word := 0
  o0 : Word := 0
  o1 : Word := 0
  o2 : Word := 0
  o3 : Word := 0
  s4 : Word := 0
  s5 : Word := 0
  s6 : Word := 0
  s7 : Word := 0
  deriving DecidableEq, Repr

/-- R141: the place a transfer has reached in a fragment table. -/
structure Frag where
  /-- Address of the next table entry, and whether it is an SRAM offset. -/
  tab : Nat := 0
  tabPhy : Bool := false
  /-- The fragment in use: next byte, bytes left, space, and whether it is the last. -/
  addr : Nat := 0
  left : Nat := 0
  phy : Bool := false
  last : Bool := false
  deriving DecidableEq, Repr

/-- What the channel's current command is doing. -/
inductive Act where
  /-- No group is current: the next one is being fetched. -/
  | fetch
  /-- The group is current and checked; its command may run. -/
  | ready
  /-- A transfer is under way; the next burst is requested, or runs. -/
  | move
  /-- A burst is requested of the movers. -/
  | req
  /-- A unit has nothing to give or no room (R145). -/
  | unit (u : Nat)
  /-- R157: an output slot is waited for. -/
  | slot (u : Nat)
  /-- R160: WAIT of kind TIME until the instant. -/
  | time (due : Time)
  /-- R160: WAIT of kind UNIT, with its timeout. -/
  | waitUnit (u : Nat) (limit : Option Time)
  /-- R160, R161: WAIT of kind COMPARE, with its timeout. -/
  | waitCmp (k : Nat) (limit : Option Time)
  /-- R162: GLADE, with its timeout. -/
  | glade (limit : Option Time)
  /-- R176: a timed command in the scheduler, before its effect. -/
  | sched
  /-- A SIGNAL whose edges are being placed. -/
  | signal (u : Nat)
  /-- R168: a LOCK, whose bracket is fetched for its checks. -/
  | bracket
  /-- R335: a resumed transfer whose faulting page is being invalidated. -/
  | inval
  /-- R160, R204: what was waited for (unit `k`, or 4096 + compare unit) has come, and the wake falls in cycle `at_`. -/
  | woken (k at_ : Nat)
  deriving DecidableEq, Repr

/-- R327: a staged translation held with a command. -/
structure Leaf where
  dom : Nat := 0
  /-- Virtual page number: va / 4096, or va / 2 MiB when `big`. -/
  page : Nat := 0
  big : Bool := false
  entry : BitVec 64 := 0
  deriving DecidableEq, Repr

/-- R176 to R195: what a timed command latches and holds. -/
structure Timed where
  lead : Nat := 0
  commit : Nat := 0
  enteredAt : Time := 0
  limit : Option Time := none
  /-- R179: the command's own scheduler entry. -/
  entry : Bool := false
  due : Option Time := none
  staging : Bool := false
  slot : Bool := false
  data : Bool := false
  unitOk : Bool := false
  /-- Mover held (R185), or running the staging burst. -/
  mover : Option Nat := none
  granted : Bool := false
  pages : List Leaf := []
  /-- R192: the due time predicted in the commit cycle; none before commit. -/
  committed : Option Time := none
  locked : Bool := false
  /-- R192, R197: after commit, the due time holds at its last accepted value. -/
  held : Bool := false
  /-- R130: this stamp has set OUT_OF_RANGE, and its PHASE is still not below the modulus. -/
  oor : Bool := false
  /-- R179: pattern entries needed and held. -/
  patNeed : Nat := 0
  patHeld : Nat := 0
  /-- R184: what a staging read brought (pattern, frame, or source bytes). -/
  buf : List Byte := []
  /-- R313: committed when an invalidation began that covers a held translation. -/
  old : Bool := false
  deriving DecidableEq, Repr

/-- R255, R256: a record formed and waiting for its credit. -/
structure HeldRec where
  bytes : List Byte := []
  /-- R242: the final record of a program. -/
  final : Bool := false
  deriving DecidableEq, Repr

/-- Where a channel goes once its held records are posted (R241). -/
inductive After where
  | go            -- the command's completion: chain by R133
  | idle
  | halted
  | faulted
  deriving DecidableEq, Repr

/-- R254: one channel context, with what the rules give the channel beside it. -/
structure Chan where
  st : ChanState := .idle
  committed : Bool := false
  placeHeld : Bool := false
  cond : Bool := false
  condValid : Bool := false
  suspReq : Bool := false
  phy : Bool := false
  inBracket : Bool := false
  prio : BitVec 2 := 3
  domain : Nat := 0
  domSet : Bool := false
  status : BitVec 14 := 0
  opcode : Byte := 0
  missCause : BitVec 4 := 0
  cca : Nat := 0
  resid : Nat := 0
  eq : Option Nat := none
  wq : Option Nat := none
  daddr : Nat := 0
  ebyte : Nat := 0
  armIdx : Nat := 0
  armValid : Bool := false
  armFcnt : Word := 0
  result : BitVec 64 := 0
  due : Time := 0
  recs : BitVec 16 := 0
  starts : BitVec 16 := 0
  /-- R207 and R238. -/
  timing : Word := 0x01F40014
  xfer : Word := 0x63
  /-- The current group, and the groups fetched ahead, each with twice its address plus its PHY bit (R137). -/
  cur : Group := {}
  ahead : List (Nat × Group) := []
  /-- R137, R191: a fetch ahead has failed: its group is fetched again when it becomes current. -/
  aheadStop : Bool := false
  /-- R22, R229: reissues made of the fetch in progress. -/
  tries : Nat := 0
  /-- R315: the first pages translated for the burst that is asked for. -/
  leafs : List Leaf := []
  act : Act := .fetch
  /-- R133: where a completed TIC or TICC goes (address, PHY). -/
  next : Option (Nat × Bool) := none
  /-- R245: the current command has begun, and continues from the context when its group is current again. -/
  cont : Bool := false
  timed : Option Timed := none
  /-- R138: a group continues a transfer; opcode and unit of the chain's first group. -/
  inChain : Bool := false
  chainOp : Byte := 0
  chainUnit : Nat := 0
  /-- R139: bytes asked by the groups before this one, and the record's end has been met. -/
  chainCount : Nat := 0
  recEnded : Bool := false
  /-- R139: bytes of the record taken by the chain. -/
  recTaken : Nat := 0
  /-- R159: the current group was reached by a TIC. -/
  fromTic : Bool := false
  /-- R164: the group runs once as though SUS were 0. -/
  skipSus : Bool := false
  fragA : Option Frag := none
  fragB : Option Frag := none
  /-- R147: the frame being built in a transmit queue. -/
  frame : List Byte := []
  /-- R319: bytes parked for this channel, and the offset in its command they begin at. -/
  park : Option (List Byte) := none
  /-- R387: placement: indexes placed, and the instant of the latest placement. -/
  placed : List Nat := []
  placedAt : Option Time := none
  placedBytes : Nat := 0
  /-- R169: buffered writes of a bracket, newest first, and the instant of its first access. -/
  lockWrites : List (Nat × List Byte) := []
  /-- R469: SRAM beats of the locked sequence. -/
  lockBeats : List Nat := []
  lockFirst : Option Time := none
  /-- R148: the snapshot a READ of a cell takes in one cycle. -/
  snap : List Byte := []
  held : List HeldRec := []
  after : After := .go
  /-- R246: the drain ends in IDLE. -/
  clearing : Bool := false
  /-- R163: the program ended at a MARK: its final record carries TAG and VALUE. -/
  tagDue : Bool := false
  /-- R235: the cycle in which HALT_PENDING was entered, and that in which a burst's last reissue failed; a bus error of the HALT's own
  cycle leaves ABORTED clear. -/
  haltAt : Option Nat := none
  busAt : Option Nat := none
  noAbort : Bool := false
  faultVa : Nat := 0
  /-- R160: when the current command became current. -/
  currentAt : Time := 0
  deriving DecidableEq, Repr

/-- R306, R323: a translation fault found by an access. -/
structure XFault where
  va : Nat := 0
  cause : Nat := 0
  level : Nat := 0
  entry : BitVec 64 := 0
  write : Bool := false
  deriving DecidableEq, Repr

/-- A translated piece of one side of a burst: its offset in the side, and where its bytes lie. -/
structure Seg where
  ofs : Nat := 0
  len : Nat := 0
  phy : Bool := false
  addr : Nat := 0
  /-- R305: its translation is a 2 MiB leaf. -/
  big : Bool := false
  deriving DecidableEq, Repr

/-- R314: one side of a burst: its bytes, translated in ascending order as far as `x`. `base` is the burst offset of its first
byte. -/
structure Side where
  phy : Bool := false
  addr : Nat := 0
  len : Nat := 0
  base : Nat := 0
  x : Nat := 0
  segs : List Seg := []
  deriving DecidableEq, Repr

/-- R221, R229: a request to host memory not yet answered: its side, its offset there, bus address, length, reissues made. -/
structure Req where
  side : Nat := 0
  ofs : Nat := 0
  addr : Nat := 0
  len : Nat := 0
  tries : Nat := 0
  deriving DecidableEq, Repr

/-- R218, R237: the burst a mover runs, or the mover that staging holds (`held`, with `len` 0 until its due burst). -/
structure Burst where
  chan : Nat := 0
  timed : Bool := false
  held : Bool := false
  /-- The staging burst of a timed command. -/
  staging : Bool := false
  len : Nat := 0
  /-- Read sides, in the order they are read; for GATHER the index side first, then one side for each element. -/
  rd : List Side := []
  wr : Option Side := none
  reqs : List Req := []
  /-- What host memory has answered: side × 8192 + offset. -/
  got : Tab Byte := []
  /-- R225: bytes taken from the unit, or held since staging. -/
  unit : List Byte := []
  /-- R215, R104: the records that a capture FIFO has reserved for the burst, since which rise of the unit's EN (R102); and those that a
  serial FIFO has. -/
  recs : List CapRec := []
  raws : List (List Byte) := []
  epoch : Nat := 0
  /-- R226: the index entries have been read. -/
  indexed : Bool := false
  /-- R216, R316: the burst offset at which the burst ends short: a translation fault, else a bus error or an element check. -/
  cut : Option (Nat × Option XFault) := none
  /-- R155: the cut is an element that fails its check. -/
  elemBad : Bool := false
  /-- R235: the RETRY in force when the burst was formed. -/
  retry : Nat := 3
  /-- R321: it writes the bytes parked for its channel. -/
  parked : Bool := false
  /-- R312: it took translations that an invalidation in progress covers. -/
  old : Bool := false
  deriving DecidableEq, Repr

structure Movers where
  run : Tab (Option Burst) := []
  /-- R210, R211: the cycle from which each mover's token is back, and the cycle of the latest grant. -/
  freeAt : Tab Nat := []
  grantAt : Option Nat := none
  /-- R216: mailboxes reserved by bursts: the mailbox, its sending slot (true) or its message (false), and the channel. -/
  boxes : List (Nat × Bool × Nat) := []
  /-- R211: requests that wait, as (channel, timed), and the channel last granted in each class (timed first). -/
  last : List Nat := [4095, 4095, 4095, 4095, 4095]
  peak : Nat := 0
  bytes : BitVec 64 := 0
  retry : Word := 0
  busErr : Word := 0
  /-- R236: MOVER_PCIE as the host has set it. -/
  pcie : Word := 0x20
  deriving DecidableEq, Repr

/-- R182: who waits for a scheduler entry. -/
inductive Taker where
  | cmd (c : Nat)
  | pat (c : Nat)
  | cmp (k : Nat)
  deriving DecidableEq, Repr

structure Sched where
  /-- Commands and patterns first come first, then compare units (R182). -/
  waitCmd : List Taker := []
  waitCmp : List Taker := []
  used : Nat := 0
  peak : Nat := 0
  /-- R205: the cycle in which entries last returned, and how many: they are free from the next one. R182: the cycle in which a waiter
  last received one. -/
  freshAt : Nat := 0
  fresh : Nat := 0
  grantAt : Option Nat := none
  missCnt : Tab Word := []
  deriving DecidableEq, Repr

/-! ## Queues (08_queues.md) -/

/-- R290. -/
inductive QState where
  | absent | enabled | disabling | disabled | error
  deriving DecidableEq, Repr

/-- R300, R286: a work queue. -/
structure WQ where
  st : QState := .absent
  cause : BitVec 2 := 0
  foreign : Bool := false
  cfgRej : Bool := false
  owner : Ident := 0
  size : Nat := 0
  pi : Word := 0
  ci : Word := 0
  used : BitVec 16 := 0
  missed : BitVec 16 := 0
  base : Nat := 0
  dom : Nat := 0
  phy : Bool := false
  /-- R276: bytes written to the push slot since the previous copy. -/
  push : Tab Byte := []
  /-- R277: pushed copies, oldest first, each with the cycle of its last write. -/
  copies : List (Nat × List Byte) := []
  /-- R264: a read of PI is outstanding; one more is due after it. -/
  piRead : Bool := false
  piAgain : Bool := false
  /-- R294: the final PI of a disable, once read. -/
  finalPi : Option Word := none
  /-- R285: queue 0 ends ABSENT instead of DISABLED. -/
  toAbsent : Bool := false
  /-- R266: reissues made of the access in progress. -/
  tries : Nat := 0
  /-- R285: the write of CI := 0 of the queue's creation waits for its translation. -/
  ciOwed : Bool := false
  /-- R278: the entry at CI has been compared with a copy, and is fetched from its slot. -/
  compared : Bool := false
  /-- R270: the entry at CI, taken and not yet performed; its completion, not yet written; the completion is written, and CI is not. -/
  entry : Option (List Byte) := none
  owed : Option (List Byte) := none
  ciNext : Bool := false
  deriving DecidableEq, Repr

/-- R281: who waits for an event-queue credit. -/
inductive Poster where
  | chan (c : Nat)
  | cmp (k : Nat)
  | cmpOor (k : Nat)
  | cap (j : Nat)
  deriving DecidableEq, Repr

/-- R301, R286: an event queue. -/
structure EQ where
  st : QState := .absent
  armed : Bool := false
  cause : BitVec 2 := 0
  size : Nat := 0
  notify : BitVec 2 := 0
  vec : Nat := 0
  base : Nat := 0
  dom : Nat := 0
  phy : Bool := false
  res : Word := 0
  pi : Word := 0
  ci : Word := 0
  /-- R281: posters that hold for a credit, in the order they are admitted; how many of the last began to wait in cycle `waitAt`. -/
  waiters : List Poster := []
  waitAt : Nat := 0
  waitNew : Nat := 0
  /-- R280, R281: posters that have a credit and whose record is being written, in order; the cycle of the latest admission. -/
  writing : List Poster := []
  admitAt : Option Nat := none
  /-- R264: a read of CI is outstanding, with its ARM; one more is due, with its ARM. -/
  ciRead : Option Bool := none
  ciAgain : Option Bool := none
  tries : Nat := 0
  deriving DecidableEq, Repr

structure Queues where
  baseLo : Word := 0
  baseHi : Word := 0
  cfg : Word := 0x00010010
  wqs : Tab WQ := []
  eqs : Tab EQ := []
  /-- The completion status of the latest request performed (R273). -/
  last : BitVec 16 := 0
  deriving DecidableEq, Repr

/-! ## Translation (09_translation.md) -/

/-- R308, R323: what an access is, and who makes it. -/
inductive Access where
  | read | write | fetch
  deriving DecidableEq, Repr

inductive Who where
  | chan (c : Nat)        -- a burst of a channel
  | fetch (c : Nat)       -- a group or fragment fetch of a channel
  | stage (c : Nat)       -- staging of a timed command
  | wq (q : Nat)
  | eq (q : Nat)
  | core (k : Nat) (w : Nat)
  | snap (c : Nat)        -- STORE-STATUS
  deriving DecidableEq, Repr

/-- R307: a walk in progress: the next entry it reads. -/
structure Walk where
  who : Who := .chan 0
  dom : Nat := 0
  va : Nat := 0
  acc : Access := .read
  level : Nat := 3
  table : Nat := 0
  tabPhy : Bool := false
  tries : Nat := 0
  /-- R312, R335: in progress when an invalidation of its scope began; its result is not cached. -/
  old : Bool := false
  /-- R331: uses one of the 16 shared walkers. -/
  shared_ : Bool := true
  /-- R331: it has a walker. -/
  begun : Bool := false
  /-- The access that asked for it is gone: its answer is for nobody. -/
  gone : Bool := false
  deriving DecidableEq, Repr

/-- R307, R309: what a walk found, kept for the access that asked for it: the leaf, or the cause, level and entry of its fault. -/
structure Answer where
  who : Who := .chan 0
  dom : Nat := 0
  page : Nat := 0
  res : Leaf ⊕ (Nat × Nat × BitVec 64) := .inl {}
  /-- R312: of a walk in progress when an invalidation began; not usable once that has completed. -/
  old : Bool := false
  /-- The access that asked for it. -/
  acc : Access := .read
  deriving DecidableEq, Repr

structure Dom where
  ctrl : Word := 0
  rootLo : Word := 0
  rootHi : Word := 0
  cfgRej : Bool := false
  invBusy : Bool := false
  faults : BitVec 16 := 0
  deriving DecidableEq, Repr

/-- R338: a fault queue. -/
structure FQ where
  baseLo : Word := 0
  baseHi : Word := 0
  cfg : Word := 0x10
  st : BitVec 2 := 0
  /-- R326: the base in force since the queue was enabled. -/
  ring : Nat := 0
  armed : Bool := false
  cfgRej : Bool := false
  drop : BitVec 16 := 0
  pi : Word := 0
  ci : Word := 0
  ciRead : Option Bool := none
  ciAgain : Option Bool := none
  tries : Nat := 0
  deriving DecidableEq, Repr

/-- R339: a core's host window. -/
structure CoreWin where
  ctrl : Word := 0
  baseLo : Word := 0
  baseHi : Word := 0
  fault : Bool := false
  cfgRej : Bool := false
  deriving DecidableEq, Repr

/-- R311: what an invalidation removes. -/
inductive Scope where
  | all
  | dom (d : Nat)
  | range (d : Nat) (va : Nat) (pages : Nat)
  deriving DecidableEq, Repr

structure Xlate where
  doms : Tab Dom := []
  fqs : Tab FQ := []
  wins : Tab CoreWin := []
  /-- R309: most recently used first, at most 8192. -/
  cache : List Leaf := []
  walks : List Walk := []
  answers : List Answer := []
  hits : BitVec 64 := 0
  misses : Word := 0
  invCtrl : Word := 0
  invVaLo : Word := 0
  invVaHi : Word := 0
  invPages : Word := 1
  invRej : Bool := false
  invSeq : BitVec 16 := 0
  /-- R312: the invalidation in progress; a domain's own (R304) stands in `Dom.invBusy`. -/
  inv : Option Scope := none
  parkPeak : Nat := 0
  parkLost : BitVec 16 := 0
  deriving DecidableEq, Repr

/-! ## Outputs, fences and the limited-write store (10_outputs_fences.md) -/

/-- R344: one entry of a pattern. -/
structure PatEntry where
  value : Word := 0
  frac : BitVec 16 := 0
  level : Bool := false
  pos : Bool := false
  deriving DecidableEq, Repr

/-- R340, R374: an output unit. -/
structure OutUnit where
  drive : Bool := false
  holder : Option Nat := none
  sampler : Option Nat := none
  /-- R157: the cycle from which the freed drive slot, or sample slot, can be reserved. -/
  freeAt : Nat := 0
  sampAt : Nat := 0
  /-- R156: the trailing edge of a PULSE. -/
  trail : Option (Time × Bool) := none
  /-- R345: entries not yet placed; the placed instant of the latest edge; the prediction of a POSITION entry. -/
  pat : List PatEntry := []
  lastEdge : Time := 0
  posDue : Option Time := none
  posCommitted : Option Time := none
  posLocked : Bool := false
  /-- R192, R195: after its commit instant, the edge holds at its last accepted prediction. -/
  posHeld : Bool := false
  posSeen : Bool := false
  /-- R195: a passing step has placed the edge. -/
  posPassed : Option Time := none
  lastCause : BitVec 4 := 0
  clamps : Word := 0
  edgeT : Time := 0
  clampT : Time := 0
  deriving DecidableEq, Repr

/-- R553: the running state of a pin's fence, and the levels at the pin. -/
structure Pin where
  /-- Level driven from outside, seen while the part does not drive the pin. -/
  ext : Bool := false
  /-- The pin is on since this instant. -/
  onSince : Option Time := none
  lastRest : Option Time := none
  hold : Bool := false
  /-- R357: on edges passed in the present window. -/
  spent : Nat := 0
  /-- R358: finished on-intervals, newest first. -/
  onLog : List (Time × Time) := []
  deriving DecidableEq, Repr

/-- R355: a permit input. -/
structure Permit where
  /-- R355: the level at the pin, and since when it has stood there. -/
  raw : Bool := false
  rawT : Time := 0
  /-- The level accepted; whether it is the asserted one; whether the pin has held a level for FILT since its reset. -/
  level : Bool := false
  accepted : Bool := false
  seen : Bool := false
  deriving DecidableEq, Repr

structure Outs where
  units : Tab OutUnit := []
  pins : Tab Pin := []
  permits : Tab Permit := []
  /-- R357: the window the budgets count in (device time in whole milliseconds). -/
  window : Nat := 0
  /-- R375: banks judged at 3.3 V. -/
  bank33 : BitVec 8 := 0
  deriving DecidableEq, Repr

/-- R361: a used write slot. -/
structure LwsSlot where
  valid : Bool := false
  image : List Byte := []
  deriving DecidableEq, Repr

/-- R368: the commit in progress. -/
structure LwsCommit where
  target : Nat := 0
  image : List Byte := []
  master : Ident := 0
  stamp : Word := 0
  tag : Word := 0
  deriving DecidableEq, Repr

structure Lws where
  fence : List LwsSlot := []
  conduct : List LwsSlot := []
  ident : List LwsSlot := []
  ledger : List (List Byte) := []
  /-- R362, R369: the images in force; none is the default image of R366. -/
  fenceImg : Option (List Byte) := none
  conductImg : Option (List Byte) := none
  identImg : Option (List Byte) := none
  stage : Tab Byte := []
  commit : Option LwsCommit := none
  stageRej : Bool := false
  result : BitVec 16 := 0
  stamp : Word := 0
  tag : Word := 0
  /-- R367: the level of SERVICE_EN, since when it has stood there, and whether it is qualified high. -/
  svcRaw : Bool := false
  svcT : Time := 0
  svc : Bool := false
  deriving DecidableEq, Repr

/-! ## Ports, PTP and Yazen (11_ports_line_domain.md) -/

/-- R414: a classifier rule. -/
structure Rule where
  ctrl : Word := 0
  etype : Word := 0
  vlan : Word := 0
  ip : Word := 0
  ipMask : Word := 0
  udp : Word := 0
  field : Word := 0
  fmatch : Word := 0
  fmask : Word := 0
  deriving DecidableEq, Repr

/-- R378: the states of a port and of a stream. -/
inductive PortState where
  | disabled | enabled | disabling
  deriving DecidableEq, Repr

structure Port where
  ctrl : Word := 0
  st : PortState := .disabled
  link : Bool := false
  linkLost : Bool := false
  busyRej : Bool := false
  cfgRej : Bool := false
  maxlen : Word := 1518
  macLo : Word := 0
  macHi : Word := 0
  rxOk : Word := 0
  rxDrop : Word := 0
  rxBad : Word := 0
  rxNoMatch : Word := 0
  rxPause : Word := 0
  txOk : Word := 0
  fwd : Word := 0
  fwdStomp : Word := 0
  rules : Tab Rule := []
  /-- What waits to start (R390): PTP messages by kind; an own CYCLIC frame, with its cycle; the frames that take no credit
  (R402): the arrival of a forwarded one, none for the part's own. -/
  ptpOut : List Nat := []
  cycOut : Option (Nat × List Byte) := none
  yzOut : List (Option Time × List Byte) := []
  /-- The frame on the wire: of transmit queue 0 to 3, or 4 for any other. -/
  onWire : Option Nat := none
  /-- R378: when DISABLING began. -/
  disAt : Time := 0
  deriving DecidableEq, Repr

/-- R389: a transmit queue. -/
structure TxQ where
  en : Bool := false
  busyRej : Bool := false
  /-- Frames queued, next to leave first. -/
  frames : List (List Byte) := []
  deriving DecidableEq, Repr

/-- R413: a receive stream. -/
structure Stream where
  ctrl : Word := 0x400
  st : PortState := .disabled
  busyRej : Bool := false
  cfgRej : Bool := false
  drop : BitVec 16 := 0
  pf : Word := 0
  pbase : Word := 0
  pstride : Word := 0x800
  outside : BitVec 16 := 0
  long_ : BitVec 16 := 0
  /-- Whole records, oldest first. -/
  recs : List (List Byte) := []
  /-- R146: the channel that has begun the oldest record, and the bytes it has taken. -/
  owner : Option Nat := none
  taken : Nat := 0
  deriving DecidableEq, Repr

/-- R391, R416. -/
structure Ptp where
  ctrl : Word := 0x80800000
  ports : Word := 0
  log : Word := 0xFD
  role : BitVec 3 := 0
  locked : Bool := false
  stepped : Bool := false
  slavePort : BitVec 4 := 0
  offset : Word := 0
  /-- R393: the linear map from device time to line time. -/
  lt0 : Int := 0
  d0 : Int := 0
  rate : Word := 0
  good : Nat := 0
  bad : Nat := 0
  discard : Word := 0
  deriving DecidableEq, Repr

/-- R404: a received slot copy: its bytes, its supplier and the cycle of its frame; `seen` once one has come. -/
structure SlotCopy where
  data : List Byte := []
  node : Nat := 0
  /-- Cycles begun (`Yazen.begun`) when it came. -/
  cycle : Nat := 0
  seen : Bool := false
  deriving DecidableEq, Repr

structure Yazen where
  ctrl : Word := 4
  etype : Word := 0x88B5
  ports : Word := 0x00100000
  dmacLo : Word := 1
  dmacHi : Word := 0x300
  vlan : Word := 0x6000
  txOfs : Word := 1000
  dupNode : Bool := false
  slotConflict : Bool := false
  cfgRej : Bool := false
  cycle : Word := 0
  /-- R149, R404: cycles begun so far, which the ages of slots are counted in: YZ_CYCLE without its wrap. -/
  begun : Nat := 0
  exp : Tab Word := []
  sub : Tab Word := []
  own : Tab Word := []
  stop : Word := 0x80
  stopRx : Word := 0
  creditA : Nat := 16
  creditB : Nat := 16
  bad : Word := 0
  foreign : Word := 0
  lateRx : Word := 0
  dup : Word := 0
  fwdDrop : Word := 0
  txDrop : Word := 0
  rxOk : Word := 0
  txOk : Word := 0
  /-- R397: (SRC, CYCLE) and (SRC, STOP_SEQ) already taken. -/
  seenCyc : List (Nat × Nat) := []
  seenStop : List (Nat × Nat) := []
  /-- Own slots, and slot copies received. -/
  ownSlots : Tab (List Byte) := []
  slots : Tab SlotCopy := []
  /-- R398: the CYCLIC body of the latest snapshot, with its two counts; the cycles of the latest snapshot and CYCLIC frame. -/
  body : List Byte := []
  nAx : Nat := 0
  nSlot : Nat := 0
  snapIn : Option Nat := none
  sentIn : Option Nat := none
  /-- R405: STOP_SEQ of the latest line stop, and those still to be repeated: copies left, STOP_SEQ, REASON, start. -/
  stopSeq : Byte := 0
  stops : List (Nat × Byte × Byte × Time) := []
  /-- R401: forwarded frames toward RING_A and RING_B, with their arrival, oldest first. -/
  fwdA : List (Time × List Byte) := []
  fwdB : List (Time × List Byte) := []
  /-- R402: slots freed so far (cumulative, sent in CREDIT frames), those already reported, and those last heard. -/
  freedA : Nat := 0
  freedB : Nat := 0
  sentA : Nat := 0
  sentB : Nat := 0
  heardA : BitVec 16 := 0
  heardB : BitVec 16 := 0
  /-- R380 step 3: frames handed to the Yazen engine: port, arrival and bytes. -/
  inbox : List (Nat × Time × List Byte) := []
  deriving DecidableEq, Repr

structure Net where
  ports : Tab Port := []
  txqs : Tab TxQ := []
  streams : Tab Stream := []
  ptp : Ptp := {}
  yz : Yazen := {}
  deriving DecidableEq, Repr

/-! ## Interrupts, Understory, mailboxes (12_interrupts_mailboxes.md) -/

structure Msix where
  addrLo : Word := 0
  addrHi : Word := 0
  data : Word := 0
  ctrl : Word := 1
  pend : Bool := false
  deriving DecidableEq, Repr

/-- R430: a source of the core interrupt controller. -/
structure CicSrc where
  cfg : Word := 0
  /-- R423: PEND of an edge source; of a level source, a PEND that software set and that stays. -/
  pend : Bool := false
  bound : Bool := false
  active : Bool := false
  core : Nat := 0
  rr : Nat := 3
  deriving DecidableEq, Repr

structure Irq where
  vecs : Tab Msix := []
  /-- R419: MSI-X Enable, Function Mask and Bus Master Enable of configuration space, and the link (R17). -/
  msixEn : Bool := false
  funcMask : Bool := false
  bme : Bool := false
  link : Bool := false
  srcs : Tab CicSrc := []
  thresh : Tab Word := []
  badComplete : BitVec 4 := 0
  /-- R419: the cycle in which a message was last issued. -/
  msiAt : Option Nat := none
  deriving DecidableEq, Repr

inductive UndState where
  | run | entering | rest | waking
  deriving DecidableEq, Repr

structure Und where
  ctrl : Word := 0
  st : UndState := .run
  abandoned : Bool := false
  access : Bool := false
  result : BitVec 16 := 0
  wake : Word := 0
  wakePin : Bool := false
  timer : Word := 0
  wcmp : Word := 0
  wcmpCtrl : Word := 0
  linkMon : Word := 0
  wt : Time := 0
  watch : Tab Word := []
  /-- R434: acceptance of the request; cores stopped so far; the REST cycle; the wake compare is armed. -/
  askedAt : Time := 0
  stopped : BitVec 4 := 0
  restAt : Time := 0
  wcmpArmed : Bool := false
  /-- R436: a line stop received in Rest, applied at wake. -/
  stopSeen : Option (Nat × Byte × Byte) := none
  deriving DecidableEq, Repr

/-- R441: one direction of a mailbox, as its sender and its receiver see it. -/
structure MbDir where
  tx : Tab Word := []
  slot : List Word := []
  busy : Bool := false
  acked : Bool := false
  timeout : Bool := false
  txRej : Bool := false
  rc : BitVec 16 := 0
  sentAt : Time := 0
  msg : Bool := false
  gone : Bool := false
  rxRej : Bool := false
  deriving DecidableEq, Repr

/-- R448: a mailbox: `ab` is the direction from side A to side B. -/
structure Mbox where
  bind : Word := 0
  note : Word := 0
  ab : MbDir := {}
  ba : MbDir := {}
  deriving DecidableEq, Repr

structure Mboxes where
  boxes : Tab Mbox := []
  locked : Bool := false
  cfgRej : Bool := false
  foreign : BitVec 16 := 0
  deriving DecidableEq, Repr

/-! ## Cores, memory and arbiter (13_cores_memory_arbiter.md) -/

/-- R476: CORE_STATUS.STATE. -/
inductive CoreState where
  | run | resetting | inReset | wfi
  deriving DecidableEq, Repr

/-- R455: a line of a cache: its 64 bytes (none: the line is absent), whether a store has changed them, and where they came from:
SRAM, or host memory at an address. -/
structure CacheLine where
  data : List Byte := []
  dirty : Bool := false
  phy : Bool := true
  addr : Nat := 0
  /-- R456: a double-bit (instruction cache: parity) error stands in the line, or a single-bit one. -/
  bad : Bool := false
  weak : Bool := false
  deriving DecidableEq, Repr

/-- R450, R453: the traps an access raises. -/
inductive TrapKind where
  /-- Access faults of a fetch, a load (LR too), a store (SC and AMO too); and the address-misaligned exception. -/
  | fetch | load | store | misaligned
  deriving DecidableEq, Repr

structure Core where
  resetBit : Bool := true
  st : CoreState := .inReset
  halted : Bool := false
  busyRej : Bool := false
  lockAbandoned : Bool := false
  wdExpired : Bool := false
  dirtyLost : Bool := false
  wdResets : BitVec 16 := 0
  resetVec : Word := 0
  cmoAddr : Word := 0
  cmoRej : Bool := false
  cmpLo : Word := 0xFFFFFFFF
  cmpHi : Word := 0xFFFFFFFF
  msip : Bool := false
  wdCtrl : Word := 0x0003E800
  /-- R472: the expiry instant of the running watchdog, and what it stood at while paused; the ACTION and PERIOD in force. -/
  wdAt : Option Time := none
  wdLeft : Option Nat := none
  wdActive : Word := 0
  eccI : Nat := 0
  eccD : Nat := 0
  eccT : Nat := 0
  mtip : Bool := false
  /-- Where the core fetches from after its latest release. -/
  pc : Word := 0
  /-- R455: lines by line number of the core address. -/
  dcache : Tab CacheLine := []
  icache : Tab CacheLine := []
  /-- R470: the beat (an SRAM line; a TCM line lies above 2^24) and the instant of the LR. -/
  resv : Option (Nat × Time) := none
  /-- The trap of the latest access, with its trap value; none where it was performed. -/
  trap : Option (TrapKind × Nat) := none
  /-- The value the latest load, fetch, LR, SC or AMO returned to the core. -/
  rd : Word := 0
  /-- R454: PMP entries: configuration byte and address. -/
  pmpCfg : Tab Byte := []
  pmpAddr : Tab Word := []
  /-- The core runs in machine mode (R454). -/
  machine : Bool := true
  /-- R334: accesses through windows that wait for a walk: what they are, their core address, and the domain and address they translate. -/
  waits : List (Access × Nat × Nat × Nat) := []
  deriving DecidableEq, Repr

structure Mem where
  /-- SRAM and TCM contents (TCM of core k from k × 2^17); an unlisted byte is 0 (R498). -/
  sram : Tab Byte := []
  tcm : Tab Byte := []
  /-- R462, R463: 64-bit words (offset / 8) that stand uncorrectable, and those with a single-bit error. -/
  bad : List Nat := []
  weak : List Nat := []
  tcmBad : List Nat := []
  tcmWeak : List Nat := []
  corr : Word := 0
  uncorr : Word := 0
  uerr : Word := 0
  scrub : Word := 0x00040001
  scrubPass : Word := 0
  scrubAt : Nat := 0
  /-- R464: the instant of the latest scrub beat. -/
  scrubT : Time := 0
  locks : Word := 0
  abandons : Word := 0
  twait : BitVec 16 := 0
  deriving DecidableEq, Repr

/-! ## Fault collector (14_faults.md) -/

/-- R486: a trail entry: words 0 and 1 and the time. -/
structure TrailEnt where
  w0 : Word := 0
  w1 : Word := 0
  time : Time := 0
  deriving DecidableEq, Repr

structure FcSrc where
  sev : BitVec 2 := 0
  react : BitVec 3 := 0
  dom : BitVec 8 := 0
  cnt : BitVec 8 := 0
  deriving DecidableEq, Repr

structure Fc where
  pinSev : BitVec 2 := 3
  locked : Bool := false
  safe : Bool := false
  self : Bool := false
  faultN : Bool := true
  cfgRej : Bool := false
  test : Bool := false
  result : BitVec 16 := 0
  seq : Word := 0
  overCnt : Word := 0
  safeT : Time := 0
  wireTest : Bool := false
  vecs : Tab Word := []
  latch : BitVec 256 := 0
  live : BitVec 256 := 0
  force : BitVec 256 := 0
  wire : BitVec 256 := 0
  /-- R483: pairs whose latest sample was non-complementary, with the cycle since which they have been; and those in a wire fault. -/
  odd : Tab (Option Nat) := []
  wireNow : BitVec 256 := 0
  /-- Sources the blocks have reported since the latest sample, and those they hold asserted. -/
  raised : BitVec 256 := 0
  level : BitVec 256 := 0
  first : Option TrailEnt := none
  /-- FC_SRC entries written since reset; the others stand as R478 gives them (`FcSrc` of R527). -/
  srcs : Tab (Option FcSrc) := []
  /-- R480: recorded severity of a latched source. -/
  recSev : Tab Nat := []
  trail : Tab TrailEnt := []
  /-- R489: the identity and the instant of the first key. -/
  half : Option (Ident × Time) := none
  /-- R495: the cycles of the latest event with reaction 3 and of the latest accepted EXIT. -/
  causeAt : Option Nat := none
  exitAt : Option Nat := none
  deriving DecidableEq, Repr

/-! ## Start-up, boot and service port (15_startup_life.md, 16_register_map.md) -/

structure Rst where
  cause : BitVec 6 := 1
  /-- R501: a function-wide reset is not yet ready. -/
  busy : Bool := false
  fenceRead : Bool := true
  spoiledRead : Bool := false
  /-- R497: power-on reset holds; RESET_N and PERST_N are low. -/
  por : Bool := false
  resetN : Bool := false
  perst : Bool := false
  /-- R505: a RESET_N waits for a commit to end. -/
  resetHeld : Bool := false
  readyAt : Time := 0
  deriving DecidableEq, Repr

structure Boot where
  st : BitVec 3 := 0
  source : BitVec 2 := 0
  slow : Bool := false
  rej : Bool := false
  cause : BitVec 4 := 0
  version : Word := 0
  hostOfs : Word := 0
  /-- R513: the fuses, 32 bytes; all zero when blank. -/
  keyhash : BitVec 256 := 0
  blank : Bool := true
  fuseBusy : Bool := false
  fuseResult : BitVec 16 := 0
  keystage : BitVec 256 := 0
  /-- R513: the hash that the present boot checks, and the digest being programmed. -/
  hash : BitVec 256 := 0
  fusing : BitVec 256 := 0
  deriving DecidableEq, Repr

structure Svc where
  attached : Bool := false
  busReset : Bool := false
  frames : BitVec 16 := 0
  /-- R517: a COMMIT frame, and a FUSE frame, still to be answered. -/
  owesCommit : Bool := false
  owesFuse : Bool := false
  tcma : Word := 0
  denied : Bool := false
  uerr : Bool := false
  deriving DecidableEq, Repr

/-- What leaves the part: PCIe writes, reads and messages, Ethernet frames, service frames. -/
inductive Out where
  | hostWrite (addr : Nat) (bytes : List Byte)
  | hostRead (addr : Nat) (len : Nat)
  | msi (addr : BitVec 64) (data : Word)
  | frame (port : Nat) (bytes : List Byte)
  | svc (status : BitVec 16) (words : List Word)
  | mbEvent (box : Nat) (kind : Nat) (rc : BitVec 16) (words : List Word)
  | reply (words : List Word)
  | poison
  deriving DecidableEq, Repr

/-- The whole part. -/
structure State where
  /-- Device time (R35). -/
  now : Time := 0
  axes : Axes := {}
  cmps : Tab Cmp := []
  caps : Tab Cap := []
  chans : Tab Chan := []
  sched : Sched := {}
  movers : Movers := {}
  queues : Queues := {}
  xl : Xlate := {}
  outs : Outs := {}
  lws : Lws := {}
  net : Net := {}
  irq : Irq := {}
  und : Und := {}
  mbox : Mboxes := {}
  cores : Tab Core := []
  mem : Mem := {}
  fc : Fc := {}
  rst : Rst := {}
  boot : Boot := {}
  svc : Svc := {}
  /-- R13, R525: latched companion words, by identity set × 2^22 + BAR0 offset; 0 until first latched. -/
  latches : Tab Word := []
  /-- What has left the part, oldest first. -/
  out : List Out := []
  /-- MODEL's own: how many free values have been drawn. -/
  free : Nat := 0
  /-- Commands that wait, first in, first out. -/
  pending : List Instr := []
  deriving DecidableEq, Repr

/-- Why a step could fault. No rule of the spec stops the part, so no meaning raises one: safe. -/
inductive Fault where
  /-- Raised by nobody: every command of the table ends in a next state. Safe. -/
  | outsideModel
  deriving DecidableEq, Repr

/-- Why a command has no meaning. -/
inductive Refusal where
  /-- Raised by an arm of exec whose command has no meaning yet. Safe: the model stops where the part goes on. -/
  | notModelled (mnemonic : String)
  deriving DecidableEq, Repr

/-- The part right after power-on reset: every field at the value of the spec's Reset columns, and at the value the
assumption log names where the spec states none (entry 3). -/
def State.reset : State := {}

end Sys2Proof.Machine
end

