-- ==== Sys2Proof/Machine/Ops.lean ====
section
/-! DEFINITION. The named operations every meaning uses: sparse tables, bit fields, byte lists, device time, reports to the
fault collector, latched companion words, on-chip memory, and access to each instanced block of the state. -/

namespace Sys2Proof.Machine

/-- What every meaning answers. -/
abbrev Res := Host.Outcome State Fault Refusal

/-! ## Sparse tables -/

/-- The entry of key `k`; `d` where the table lists none. -/
def tget (d : α) : Tab α → Nat → α
  | [], _ => d
  | (j, v) :: r, k => if j = k then v else tget d r k

/-- Insert before the first greater key. -/
def tins (k : Nat) (v : α) : Tab α → Tab α
  | [] => [(k, v)]
  | (j, w) :: r => if k < j then (k, v) :: (j, w) :: r else (j, w) :: tins k v r

/-- Remove key `k`. -/
def tdel (k : Nat) (t : Tab α) : Tab α := t.filter (fun p => p.1 ≠ k)

/-- Write key `k`; writing what an unlisted key reads as removes the entry (the canonical form). -/
def tput [DecidableEq α] (d : α) (t : Tab α) (k : Nat) (v : α) : Tab α :=
  if v = d then tdel k t else tins k v (tdel k t)

/-- The canonical form: keys strictly rising, no entry equal to what an unlisted key reads as. -/
def twf [DecidableEq α] (d : α) : Tab α → Bool
  | [] => true
  | [(_, v)] => decide (v ≠ d)
  | (j, v) :: (k, w) :: r => decide (v ≠ d) && decide (j < k) && twf d ((k, w) :: r)

/-- The memories stand in canonical form: equal memories are equal data. -/
def Mem.wf (m : Mem) : Bool := twf 0 m.sram && twf 0 m.tcm

/-! ## Bit fields and bytes -/

/-- Field [lo+n-1:lo] of a word, as a number. -/
def fld (w : Word) (lo n : Nat) : Nat := (w.toNat >>> lo) % 2 ^ n

/-- Bit `i` of a word. -/
def bit (w : Word) (i : Nat) : Bool := w.getLsbD i

/-- A word whose field at `lo` holds `v`, other bits 0. -/
def wAt (lo : Nat) (v : Nat) : Word := BitVec.ofNat 32 (v <<< lo)

/-- A one-bit field. -/
def flag (lo : Nat) (b : Bool) : Word := if b then wAt lo 1 else 0

/-- Write field [lo+n-1:lo]. -/
def setFld (w : Word) (lo n v : Nat) : Word :=
  (w &&& ~~~ (wAt lo (2 ^ n - 1))) ||| wAt lo (v % 2 ^ n)

/-- Hold a number between two limits. -/
def clampN (lo hi v : Nat) : Nat := if v < lo then lo else if hi < v then hi else v

/-- A counter of width `w` that saturates. -/
def satInc {w : Nat} (v : BitVec w) : BitVec w := if v = BitVec.allOnes w then v else v + 1

/-- R10: the `n` bytes of a number, little-endian. -/
def leBytes : Nat → Nat → List Byte
  | 0, _ => []
  | n + 1, v => BitVec.ofNat 8 v :: leBytes n (v / 256)

/-- R10: the number of a little-endian byte list. -/
def leNat : List Byte → Nat
  | [] => 0
  | b :: r => b.toNat + 256 * leNat r

/-- `n` bytes of a list from offset `o`; bytes beyond its end read 0. -/
def slice (b : List Byte) (o n : Nat) : List Byte := (List.range n).map fun i => b.getD (o + i) 0

/-- The little-endian number of `n` bytes at offset `o`. -/
def num (b : List Byte) (o n : Nat) : Nat := leNat (slice b o n)

/-- Network byte order, for frames. -/
def beNat (b : List Byte) : Nat := b.foldl (fun a x => 256 * a + x.toNat) 0

def beBytes (n v : Nat) : List Byte := (leBytes n v).reverse

/-- Overwrite bytes of a list at offset `o`. -/
def splice (b : List Byte) (o : Nat) (x : List Byte) : List Byte := b.take o ++ x ++ b.drop (o + x.length)

/-- Sign of a two's complement word of 32 bits. -/
def sgn32 (w : Word) : Int := w.toInt

/-- Integer square root, from the top bit down (`k` bits to settle). -/
def isqrtFrom (n : Nat) : Nat → Nat → Nat
  | 0, r => r
  | k + 1, r => let c := r + 2 ^ k; isqrtFrom n k (if c * c ≤ n then c else r)

def isqrt (n : Nat) : Nat := isqrtFrom n (n.log2 / 2 + 1) 0

/-! ## Device time -/

/-- R35: the CLK_E cycle an instant lies in. -/
def cyc (t : Time) : Nat := t / ticksPerCycle

/-- R35: the low and high words of an instant, as registers show it. -/
def loW (t : Nat) : Word := BitVec.ofNat 32 t
def hiW (t : Nat) : Word := BitVec.ofNat 32 (t >>> 32)

/-- Ticks of 125 ps in a nanosecond, a microsecond and a millisecond. -/
def ns (n : Nat) : Nat := n * 8
def us (n : Nat) : Nat := n * 8000
def ms (n : Nat) : Nat := n * 8000000

/-- The command arrives at device time `t`; time never runs back. -/
def State.arrive (s : State) (t : Time) : State := { s with now := max s.now t }

/-! ## Instanced blocks -/

def State.cell (s : State) (n : Nat) : Cell := tget {} s.axes.cells n
def State.setCell (s : State) (n : Nat) (c : Cell) : State :=
  { s with axes := { s.axes with cells := tput {} s.axes.cells n c } }
def State.modCell (s : State) (n : Nat) (f : Cell → Cell) : State := s.setCell n (f (s.cell n))

def State.enc (s : State) (g : Nat) : EncGroup := tget {} s.axes.encs g
def State.setEnc (s : State) (g : Nat) (e : EncGroup) : State :=
  { s with axes := { s.axes with encs := tput {} s.axes.encs g e } }

def State.ser (s : State) (i : Nat) : SerIf := tget {} s.axes.sers i
def State.setSer (s : State) (i : Nat) (e : SerIf) : State :=
  { s with axes := { s.axes with sers := tput {} s.axes.sers i e } }

def State.mainsIn (s : State) (i : Nat) : MainsIn := tget {} s.axes.mains i
def State.setMainsIn (s : State) (i : Nat) (e : MainsIn) : State :=
  { s with axes := { s.axes with mains := tput {} s.axes.mains i e } }

def State.modStart (s : State) (f : Start → Start) : State := { s with axes := { s.axes with start := f s.axes.start } }

def State.cmp (s : State) (k : Nat) : Cmp := tget {} s.cmps k
def State.setCmp (s : State) (k : Nat) (c : Cmp) : State := { s with cmps := tput {} s.cmps k c }
def State.modCmp (s : State) (k : Nat) (f : Cmp → Cmp) : State := s.setCmp k (f (s.cmp k))

def State.cap (s : State) (j : Nat) : Cap := tget {} s.caps j
def State.setCap (s : State) (j : Nat) (c : Cap) : State := { s with caps := tput {} s.caps j c }
def State.modCap (s : State) (j : Nat) (f : Cap → Cap) : State := s.setCap j (f (s.cap j))

def State.chan (s : State) (c : Nat) : Chan := tget {} s.chans c
def State.setChan (s : State) (c : Nat) (h : Chan) : State := { s with chans := tput {} s.chans c h }
def State.modChan (s : State) (c : Nat) (f : Chan → Chan) : State := s.setChan c (f (s.chan c))

def State.wq (s : State) (q : Nat) : WQ := tget {} s.queues.wqs q
def State.setWq (s : State) (q : Nat) (x : WQ) : State :=
  { s with queues := { s.queues with wqs := tput {} s.queues.wqs q x } }
def State.modWq (s : State) (q : Nat) (f : WQ → WQ) : State := s.setWq q (f (s.wq q))

def State.eq (s : State) (q : Nat) : EQ := tget {} s.queues.eqs q
def State.setEq (s : State) (q : Nat) (x : EQ) : State :=
  { s with queues := { s.queues with eqs := tput {} s.queues.eqs q x } }
def State.modEq (s : State) (q : Nat) (f : EQ → EQ) : State := s.setEq q (f (s.eq q))

def State.dom (s : State) (d : Nat) : Dom := tget {} s.xl.doms d
def State.setDom (s : State) (d : Nat) (x : Dom) : State := { s with xl := { s.xl with doms := tput {} s.xl.doms d x } }

def State.fq (s : State) (d : Nat) : FQ := tget {} s.xl.fqs d
def State.setFq (s : State) (d : Nat) (x : FQ) : State := { s with xl := { s.xl with fqs := tput {} s.xl.fqs d x } }
def State.modFq (s : State) (d : Nat) (f : FQ → FQ) : State := s.setFq d (f (s.fq d))

/-- Windows are keyed core × 8 + window. -/
def State.win (s : State) (i : Nat) : CoreWin := tget {} s.xl.wins i
def State.setWin (s : State) (i : Nat) (x : CoreWin) : State := { s with xl := { s.xl with wins := tput {} s.xl.wins i x } }

def State.ou (s : State) (u : Nat) : OutUnit := tget {} s.outs.units u
def State.setOu (s : State) (u : Nat) (x : OutUnit) : State :=
  { s with outs := { s.outs with units := tput {} s.outs.units u x } }
def State.modOu (s : State) (u : Nat) (f : OutUnit → OutUnit) : State := s.setOu u (f (s.ou u))

def State.pin (s : State) (u : Nat) : Pin := tget {} s.outs.pins u
def State.setPin (s : State) (u : Nat) (x : Pin) : State := { s with outs := { s.outs with pins := tput {} s.outs.pins u x } }

def State.permitIn (s : State) (i : Nat) : Permit := tget {} s.outs.permits i
def State.setPermitIn (s : State) (i : Nat) (x : Permit) : State :=
  { s with outs := { s.outs with permits := tput {} s.outs.permits i x } }

def State.port (s : State) (p : Nat) : Port := tget {} s.net.ports p
def State.setPort (s : State) (p : Nat) (x : Port) : State := { s with net := { s.net with ports := tput {} s.net.ports p x } }
def State.modPort (s : State) (p : Nat) (f : Port → Port) : State := s.setPort p (f (s.port p))

def State.txq (s : State) (x : Nat) : TxQ := tget {} s.net.txqs x
def State.setTxq (s : State) (x : Nat) (q : TxQ) : State := { s with net := { s.net with txqs := tput {} s.net.txqs x q } }

def State.stream (s : State) (r : Nat) : Stream := tget {} s.net.streams r
def State.setStream (s : State) (r : Nat) (x : Stream) : State :=
  { s with net := { s.net with streams := tput {} s.net.streams r x } }

def State.yz (s : State) : Yazen := s.net.yz
def State.setYz (s : State) (y : Yazen) : State := { s with net := { s.net with yz := y } }
def State.modYz (s : State) (f : Yazen → Yazen) : State := s.setYz (f s.net.yz)

def State.vec (s : State) (v : Nat) : Msix := tget {} s.irq.vecs v
def State.setVec (s : State) (v : Nat) (x : Msix) : State := { s with irq := { s.irq with vecs := tput {} s.irq.vecs v x } }

def State.cic (s : State) (i : Nat) : CicSrc := tget {} s.irq.srcs i
def State.setCic (s : State) (i : Nat) (x : CicSrc) : State := { s with irq := { s.irq with srcs := tput {} s.irq.srcs i x } }

def State.mb (s : State) (b : Nat) : Mbox := tget {} s.mbox.boxes b
def State.setMb (s : State) (b : Nat) (x : Mbox) : State := { s with mbox := { s.mbox with boxes := tput {} s.mbox.boxes b x } }

def State.core (s : State) (k : Nat) : Machine.Core := tget {} s.cores k
def State.setCore (s : State) (k : Nat) (x : Machine.Core) : State := { s with cores := tput {} s.cores k x }
def State.modCore (s : State) (k : Nat) (f : Machine.Core → Machine.Core) : State := s.setCore k (f (s.core k))

/-! ## Reports, latches, what leaves the part -/

/-- A block reports source `i` to the fault collector (R478); FAULT_EVENT samples it. -/
def State.report (s : State) (i : Nat) : State :=
  { s with fc := { s.fc with raised := s.fc.raised ||| BitVec.ofNat 256 (1 <<< i) } }

/-- A block holds source `i` asserted, or releases it. -/
def State.holdSrc (s : State) (i : Nat) (b : Bool) : State :=
  { s with fc := { s.fc with level :=
      if b then s.fc.level ||| BitVec.ofNat 256 (1 <<< i) else s.fc.level &&& ~~~ BitVec.ofNat 256 (1 <<< i) } }

/-- R525: the latch set of a master identity: the host, the service port and the channels, and each core have one each. -/
def latchSet (m : Ident) : Nat :=
  if m = 0x20 then 1 else if m = 0x40 then 2 else if m.toNat / 16 = 1 then 3 + m.toNat % 16 else 0

/-- R13: latch `w` as the companion word at BAR0 offset `ofs`, as identity `m` will read it. -/
def State.latch (s : State) (m : Ident) (ofs : Nat) (w : Word) : State :=
  { s with latches := tput 0 s.latches (latchSet m * 2 ^ 22 + ofs) w }

/-- R13: a companion word. -/
def State.latched (s : State) (m : Ident) (ofs : Nat) : Word := tget 0 s.latches (latchSet m * 2 ^ 22 + ofs)

/-- Latch several companions. -/
def State.latchAll (s : State) (m : Ident) (l : List (Nat × Word)) : State :=
  l.foldl (fun s p => s.latch m p.1 p.2) s

/-- Something leaves the part. -/
def State.emit (s : State) (o : Out) : State := { s with out := s.out ++ [o] }

/-- One free value is drawn. -/
def State.draw (s : State) : State := { s with free := s.free + 1 }

/-- R3 of the reads: the word a register read returns to its master. -/
def State.reply (s : State) (w : Word) : State := s.emit (.reply [w])

/-! ## On-chip memory (R461 to R465) -/

/-- R461: the size of the SRAM. -/
def sramSize : Nat := 0x2000000

/-- The bytes of SRAM from offset `a`, as they stand (no check). -/
def State.sramBytes (s : State) (a n : Nat) : List Byte := (List.range n).map fun i => tget 0 s.mem.sram (a + i)

/-- The 64-bit words a byte range touches. -/
def words64 (a n : Nat) : List Nat := if n = 0 then [] else (List.range ((a + n - 1) / 8 - a / 8 + 1)).map (· + a / 8)

/-- The offset (of a 64-bit word) of the first uncorrectable word of a range. -/
def State.badWord (s : State) (a n : Nat) : Option Nat := (words64 a n).find? (fun w => s.mem.bad.contains w)

/-- R462: a read of SRAM: corrected words are written back and counted; an uncorrectable one makes the access fail, latches its
offset, counts and reports source 135. -/
def State.sramRead (s : State) (a n : Nat) : Option (List Byte) × State :=
  match s.badWord a n with
  | some w =>
    (none, { s with mem := { s.mem with uncorr := s.mem.uncorr + 1, uerr := wAt 0 (8 * w) } }.report 135)
  | none =>
    let hit := (words64 a n).filter (fun w => s.mem.weak.contains w)
    (some (s.sramBytes a n),
      if hit.isEmpty then s else
      { s with mem := { s.mem with weak := s.mem.weak.filter (fun w => !hit.contains w),
                                   corr := s.mem.corr + BitVec.ofNat 32 hit.length } })

/-- Put bytes, ascending. -/
def putBytes (m : Tab Byte) (a : Nat) : List Byte → Tab Byte
  | [] => m
  | b :: r => putBytes (tput 0 m a b) (a + 1) r

/-- R470: a write by another master clears reservations on its beats. A reservation on SRAM is keyed by its beat; one on the TCM
lies above `2^24`. -/
def clearResv (cs : Tab Machine.Core) (by_ : Option Nat) (a n : Nat) : Tab Machine.Core :=
  (cs.map (·.1)).foldl (fun t k =>
    let c := tget {} t k
    if by_ = some k || n = 0 then t else
    match c.resv with
    | some (b, _) => if a / 64 ≤ b && b ≤ (a + n - 1) / 64 then tput {} t k { c with resv := none } else t
    | none => t) cs

/-- A write of `n` bytes at `a` replaces the whole word `w`. -/
def wholeWord (a n w : Nat) : Bool := decide (a ≤ 8 * w) && decide (8 * w + 8 ≤ a + n)

/-- R462, R463: the weak words that a write of `n` bytes at `a` merges into: its reads correct them. -/
def mergedWeak (weak : List Nat) (a n : Nat) : List Nat := (words64 a n).filter fun w => weak.contains w && !wholeWord a n w

/-- R463: a write of SRAM: the bytes are written; a word stays uncorrectable until an aligned write covers all of it, and the reads that
merge the rest correct by R462. -/
def State.sramWriteBy (s : State) (by_ : Option Nat) (a : Nat) (b : List Byte) : State :=
  { s with
    mem := { s.mem with sram := putBytes s.mem.sram a b,
                        bad := s.mem.bad.filter (fun w => !wholeWord a b.length w),
                        weak := s.mem.weak.filter (fun w => !(words64 a b.length).contains w),
                        corr := s.mem.corr + BitVec.ofNat 32 (mergedWeak s.mem.weak a b.length).length },
    cores := clearResv s.cores by_ a b.length }

/-- A write of SRAM by a master that is no core. -/
def State.sramWrite (s : State) (a : Nat) (b : List Byte) : State := s.sramWriteBy none a b

/-- Write bytes at an output address: SRAM, or host memory through the outbound path. -/
def State.putOut (s : State) (phy : Bool) (a : Nat) (b : List Byte) : State :=
  if phy then s.sramWrite a b else s.emit (.hostWrite a b)

/-! ## Interrupt lines (R419, R422, R423) -/

/-- R419: a notification sets the pending bit of its vector. -/
def State.msixNotify (s : State) (v : Nat) : State := s.setVec v { s.vec v with pend := true }

/-- R422: sources 680 to 767 are reserved, and so are those beyond 1023. -/
def cicReserved (i : Nat) : Bool := (decide (680 ≤ i) && decide (i < 768)) || decide (1024 ≤ i)

/-- R423: an edge sets PEND; edges coalesce. -/
def State.cicEdge (s : State) (i : Nat) : State :=
  if cicReserved i then s else s.setCic i { s.cic i with pend := true }

/-- R282, R324: the notification of an event queue (base 384, 128 sources) or a fault queue (base 512, 32 sources). -/
def State.notifyQ (s : State) (note : Nat) (vec base span n : Nat) : State :=
  if note = 1 then s.msixNotify vec else if note = 2 then s.cicEdge (base + n % span) else s

/-- R431: the clocks of the engine, movers, ports, cores and SRAM arbiter stand. -/
def State.resting (s : State) : Bool := s.und.st = .rest || s.und.st = .waking

end Sys2Proof.Machine
end

