-- ==== Sys2Proof/Machine/Estimator.lean ====
section
/-! DEFINITION. The position estimator of a counter cell (02_counter_cells.md): field views of a cell's registers, its samples
and model, velocity, acceleration, fraction and predictions. Positions of a model are counted in units of 2^-32 count in the
cell's own count of steps (`Cell.odo`). -/

namespace Sys2Proof.Machine

/-! ## Fields (R76) -/

def Cell.en (c : Cell) : Bool := bit c.ctrl 0
/-- R29: 0 OFF, 1 INCREMENTAL, 2 SERIAL, 3 MAINS, 4 TIME, 5 CASCADE, 6 SYNTHETIC, 7 MIRROR. -/
def Cell.mode (c : Cell) : Nat := fld c.ctrl 1 3
def Cell.src (c : Cell) : Nat := fld c.ctrl 4 4
def Cell.dirInv (c : Cell) : Bool := bit c.ctrl 8
def Cell.estOrder (c : Cell) : Bool := bit c.ctrl 9
def Cell.predLinear (c : Cell) : Bool := bit c.ctrl 10
def Cell.initAbs (c : Cell) : Bool := bit c.ctrl 11

/-- R27, R49: a register value of 0 encodes 2^32. -/
def zero32 (w : Word) : Nat := if w = 0 then 2 ^ 32 else w.toNat

/-- R27: the modulus last written. -/
def Cell.modN (c : Cell) : Nat := zero32 c.mod

/-- R59: the modulus a step at instant `t` uses: the old one in the cycle of the write. -/
def Cell.modFor (c : Cell) (t : Time) : Nat := if c.modAt = some (cyc t) then zero32 c.modAct else c.modN

def Cell.winN (c : Cell) : Nat := fld c.win 0 5
def Cell.winSpace (c : Cell) : Nat := ns (fld c.win 8 24)
def Cell.stillK (c : Cell) : Nat := fld c.still 0 4
def Cell.stillMax (c : Cell) : Nat := us (fld c.still 8 24)

/-- TIME and SYNTHETIC cells have no source and no estimator error (R49, R51). -/
def Cell.exactMode (c : Cell) : Bool := c.mode = 4 || c.mode = 6

/-- INCREMENTAL, SERIAL, MAINS, CASCADE and MIRROR cells. -/
def Cell.sourceMode (c : Cell) : Bool := c.mode = 1 || c.mode = 2 || c.mode = 3 || c.mode = 5 || c.mode = 7

/-- R66: the encodings of CELL_STATUS.EST_STATE. -/
def EstState.code : EstState → Nat
  | .idle => 0 | .seeded => 1 | .linear => 2 | .full => 3 | .standstill => 4 | .lost => 5 | .exact => 6

/-- R51: the rate, held at 0.25 counts per cycle. -/
def Cell.rateHeld (c : Cell) : Int := max (-0x40000000) (min 0x40000000 c.rate.toInt)

/-! ## Anchors and state (R64 to R66) -/

/-- The anchors: slot 0, slot floor((n - 1) / 2), slot n - 1. -/
def anchors (h : List Sample) : Sample × Sample × Sample :=
  (h.getD 0 {}, h.getD ((h.length - 1) / 2) {}, h.getD (h.length - 1) {})

/-- R65, R66: the state that a history of samples gives. -/
def histState (order : Bool) (h : List Sample) : EstState :=
  let (a, b, c) := anchors h
  if h.length = 0 then .idle
  else if h.length = 1 || a.time = c.time then .seeded
  else if h.length ≥ 3 && order && a.time ≠ b.time && b.time ≠ c.time then .full
  else .linear

/-! ## The model (R65): position (p0 + (b τ + a τ²) / d), τ in ticks from t0, in units of 2^-32 count -/

structure Model where
  t0 : Time := 0
  p0 : Int := 0
  a : Int := 0
  b : Int := 0
  d : Int := 1
  deriving DecidableEq, Repr

def oneCount : Int := 2 ^ 32

/-- The line through two samples; the caller's state says their stamps differ. -/
def lineModel (x z : Sample) : Model :=
  let tz : Int := (z.time : Int) - x.time
  let dz : Int := (z.pos2 - x.pos2) * 2 ^ 31
  let m : Model := { t0 := x.time, p0 := x.pos2 * 2 ^ 31, a := 0, b := dz, d := tz }
  if tz < 0 then { m with b := -dz, d := -tz } else m

/-- The quadratic through three samples with distinct stamps. -/
def quadModel (x y z : Sample) : Model :=
  let ty : Int := (y.time : Int) - x.time
  let tz : Int := (z.time : Int) - x.time
  let dy : Int := (y.pos2 - x.pos2) * 2 ^ 31
  let dz : Int := (z.pos2 - x.pos2) * 2 ^ 31
  let den := ty * tz * (ty - tz)
  let a := dy * tz - dz * ty
  let b := dz * ty * ty - dy * tz * tz
  let sg : Int := if den < 0 then -1 else 1
  { t0 := x.time, p0 := x.pos2 * 2 ^ 31, a := sg * a, b := sg * b, d := sg * den }

/-- The model of a cell that has one; CASCADE cells have none of their own (R50). -/
def Cell.model (c : Cell) : Option Model :=
  let (x, y, z) := anchors c.hist
  match c.est with
  | .linear => some (lineModel x z)
  | .full => some (quadModel x y z)
  | .exact =>
    if c.pausedAt.isSome then none
    else if c.mode = 4 then
      some { t0 := c.origin, p0 := c.odo * oneCount, a := 0, b := oneCount, d := 8 * (zero32 c.divAct : Int) }
    else some { t0 := c.origin, p0 := c.odo * oneCount + c.acc.toNat, a := 0, b := c.rateHeld, d := 8 }
  | _ => none

/-- R66: the model that gives predictions: FULL and EXACT, and LINEAR with PRED_LINEAR. -/
def Cell.predictor (c : Cell) : Option Model :=
  if c.est = .linear && !c.predLin then none else c.model

/-- The model's position at an instant, rounded down. -/
def Model.pos (m : Model) (t : Time) : Int :=
  let τ : Int := (t : Int) - m.t0
  m.p0 + (m.b * τ + m.a * τ * τ) / m.d

/-- R67: the first instant (in 125 ps points, the later of two equally near) at or after `from_` at which the model reaches
position `x` moving forward (or in reverse). -/
def Model.solve (m : Model) (x : Int) (fwd : Bool) (from_ : Time) : Option Time :=
  let s : Int := if fwd then 1 else -1
  let c := (x - m.p0) * m.d
  let start : Int := 2 * ((from_ : Int) - m.t0)
  if m.a = 0 then
    if m.b * s ≤ 0 then none
    else
      -- τ = c / b; both scaled by the sign of b
      let num := c * s
      let den := m.b * s
      if 2 * num < start * den then none
      else some ((m.t0 : Int) + (2 * num + den) / (2 * den)).toNat
  else
    let disc := m.b * m.b + 4 * m.a * c
    if disc ≤ 0 then none
    else
      let sa : Int := if m.a < 0 then -1 else 1
      let aa := m.a * sa
      let bb := m.b * sa
      let r : Int := isqrt disc.toNat
      -- floor and ceiling of the signed root
      let fl : Int := if s * sa = 1 then r else if r * r = disc then -r else -r - 1
      -- 2 τ = (± √disc - b) / |a|
      let two := (fl - bb) / aa
      let ok := decide (start ≤ two)
      if ok then some ((m.t0 : Int) + (two + 1) / 2).toNat else none

/-! ## Velocity and acceleration (R74, R76) -/

/-- R76: the word of the fixed-point value `num / den` (`den` above 0): how a value between two words is rounded, and what one beyond
64 bits reads as, the spec leaves open (free values, log 12). -/
def fixWord (num den : Int) : BitVec 64 :=
  let q := if Config.velRound = 0 then Int.tdiv num den else if Config.velRound = 1 then num / den else (2 * num + den) / (2 * den)
  if -2 ^ 63 ≤ q ∧ q < 2 ^ 63 then BitVec.ofInt 64 q else Config.velWide q

/-- Velocity at slot 0 in 2^-32 counts/ns. -/
def Cell.velWord (c : Cell) : BitVec 64 :=
  match c.est with
  | .linear | .full =>
    match c.model with
    | some m => fixWord (8 * m.b) m.d
    | none => 0
  | .exact =>
    if c.mode = 4 then fixWord oneCount (zero32 c.divAct) else BitVec.ofInt 64 c.rateHeld
  | .lost => c.velHeld
  | _ => 0

/-- Acceleration at slot 0 in 2^-64 counts/ns²: twice the model's square term. -/
def Cell.accWord (c : Cell) : BitVec 64 :=
  match c.est with
  | .full =>
    match c.model with
    | some m => fixWord (2 * m.a * 64 * oneCount) m.d
    | none => 0
  | .lost => c.accHeld
  | _ => 0

/-! ## The fraction (R49, R51, R70) -/

/-- Held within the count. -/
def clampFrac (x : Int) : BitVec 16 := if x < 0 then 0 else if 0xFFFF < x then 0xFFFF else BitVec.ofInt 16 x

/-- The fraction of a cell with a mode of its own at instant `t`: the model's in LINEAR and FULL (0 in the cycle of a load, R61), exact
in EXACT, else held. -/
def Cell.fracAt (c : Cell) (t : Time) : BitVec 16 :=
  match c.est with
  | .linear | .full =>
    if c.loadAt = some (cyc t) then 0
    else match c.model with
    | some m => clampFrac ((m.pos t - c.odo * oneCount) / 2 ^ 16)
    | none => c.frac
  | .exact =>
    if c.mode = 4 then
      let k := (c.pausedAt.getD t - c.origin) / 8
      clampFrac (65536 * k / zero32 c.divAct : Nat)
    else
      let k : Int := (((c.pausedAt.getD t - c.origin) / 8 : Nat) : Int)
      clampFrac (((c.acc.toNat : Int) + c.rateHeld * k) / 65536)
  | _ => c.frac

/-- R32, R66, R69: leave the model: the fraction keeps its last value. -/
def Cell.drop (c : Cell) (e : EstState) (t : Time) : Cell :=
  { c with frac := c.fracAt t, est := e, hist := [] }

/-- R66: LOST keeps velocity and acceleration. -/
def Cell.lose (c : Cell) (t : Time) : Cell :=
  { c.drop .lost t with velHeld := c.velWord, accHeld := c.accWord }

/-! ## Samples (R64, R68) -/

/-- R64: the new sample is pushed, or replaces slot 0 when slot 0 lies too near slot 1. Where WIN_N has been lowered below the number
held, the samples beyond it stay, and count as anchors, until the next sample is pushed (DESIGN CHOICE, log 50: the spec says when the
oldest sample is dropped, and not what a write of WIN_N drops). -/
def pushSample (n space : Nat) (h : List Sample) (x : Sample) : List Sample :=
  match h with
  | a :: b :: r => if b.time + space ≤ a.time then (x :: a :: b :: r).take n else x :: b :: r
  | [a] => [x, a]
  | [] => [x]

/-- A step of sign `fwd` gives the sample `x`: reversal clears the history (R68); the state follows (R66). -/
def Cell.sample (c : Cell) (fwd : Bool) (x : Sample) : Cell :=
  let rev := c.dir = (if fwd then 1 else 0)
  let h := if rev then [x] else pushSample c.winN c.winSpace c.hist x
  { c with hist := h, est := histState c.estOrder h,
           flags := if rev then c.flags ||| 0x2000 else c.flags,
           prevT := c.lastT, lastT := some x.time }

/-- R69: the instant beyond which the cell is at standstill; none where no history is held. -/
def Cell.stillLimit (c : Cell) : Option Time :=
  match c.hist with
  | [] => none
  | a :: r =>
    let k := match r, c.lastT, c.prevT with
      | _ :: _, some l, some p => min (c.stillK * (l - p)) c.stillMax
      | _, _, _ => c.stillMax
    some (a.time + k)

/-! ## CASCADE (R50): what cell n - 1 gives -/

/-- The cell whose model a cell's own predictions come from, and how many cells below it lies. -/
def State.frozen (s : State) (n : Nat) : Bool :=
  s.axes.start.halted ≠ 0 && s.axes.start.frzSel.getLsbD n

def State.held (s : State) (n : Nat) : Bool := s.axes.start.hold.getLsbD n

/-- R32, R107, R112: the cell is counting. -/
def State.running (s : State) (n : Nat) : Bool := (s.cell n).en && !s.held n && !s.frozen n

/-- R26, R50, R70, R112: the fraction of cell `n` at instant `t`. -/
def State.fracOf (s : State) : Nat → Time → BitVec 16
  | 0, t => let c := s.cell 0
    if s.frozen 0 && !c.exactMode then c.frac else c.fracAt t
  | n + 1, t =>
    let c := s.cell (n + 1)
    if s.frozen (n + 1) && !c.exactMode then c.frac
    else if c.en && c.mode = 5 && !s.held (n + 1) then
      let p := s.cell n
      clampFrac ((65536 * p.phase.toNat + (s.fracOf n t).toNat) / p.modN : Nat)
    else c.fracAt t

/-- R50, R66: the estimator state of cell `n`: that of cell n - 1 for a CASCADE cell. -/
def State.estOf (s : State) : Nat → EstState
  | 0 => (s.cell 0).est
  | n + 1 =>
    let c := s.cell (n + 1)
    if c.en && c.mode = 5 && !s.held (n + 1) then s.estOf n else c.est

/-- R50: velocity of a cell, in 2^-32 counts/ns. -/
def State.velOf (s : State) : Nat → BitVec 64
  | 0 => (s.cell 0).velWord
  | n + 1 =>
    let c := s.cell (n + 1)
    if c.en && c.mode = 5 && !s.held (n + 1) then
      fixWord (s.velOf n).toInt (s.cell n).modN else c.velWord

/-- R50: acceleration of a cell, in 2^-64 counts/ns². -/
def State.accOf (s : State) : Nat → BitVec 64
  | 0 => (s.cell 0).accWord
  | n + 1 =>
    let c := s.cell (n + 1)
    if c.en && c.mode = 5 && !s.held (n + 1) then
      fixWord (s.accOf n).toInt (s.cell n).modN else c.accWord

/-! ## Predictions (R67, R128) -/

/-- R198: the coordinate reached so far, relative to the count held. -/
def Cell.reached (c : Cell) : Int := if c.reachUp then 1 else 0

/-- The nearest target congruent to `tgt` modulo `period` strictly above `x` (all in 2^-32 counts). -/
def nextAbove (tgt period x : Int) : Int := x + 1 + (tgt - (x + 1)) % period

/-- The nearest one strictly below `x`. -/
def nextBelow (tgt period x : Int) : Int := x - 1 - ((x - 1) - tgt) % period

/-- The model's position at an instant, rounded up. -/
def Model.posUp (m : Model) (t : Time) : Int :=
  let τ : Int := (t : Int) - m.t0
  m.p0 - (-(m.b * τ + m.a * τ * τ)) / m.d

/-- Where forward arrivals after instant `t` begin: the present position, or the lowest one a model reaches that still moves in
reverse and turns. Rounded down: a target at or below it is not ahead. -/
def Model.floorFrom (m : Model) (t : Time) : Int :=
  let v := m.b + 2 * m.a * ((t : Int) - m.t0)
  if v < 0 && 0 < m.a then m.p0 + (-(m.b * m.b)) / (4 * m.a * m.d) else m.pos t

/-- Where reverse arrivals after instant `t` begin, rounded up. -/
def Model.ceilFrom (m : Model) (t : Time) : Int :=
  let v := m.b + 2 * m.a * ((t : Int) - m.t0)
  if 0 < v && m.a < 0 then m.p0 - (-(m.b * m.b)) / (-(4 * m.a * m.d)) else m.posUp t

/-- What gives a cell its predictions: a model, the model position at which the cell's present count begins, and the size of
one count of the cell in the model's units. `flip` says that the cell moves against the model (DIR_INV of a CASCADE). -/
structure Predictor where
  model : Model := {}
  base : Int := 0
  phase : Int := 0
  turn : Int := 0
  mod : Int := 1
  unit : Int := oneCount
  flip : Bool := false
  deriving DecidableEq, Repr

/-- The earliest qualified arrival after instant `t` (R67, R128) at PHASE + FRAC / 65536 on any lap (`lap` none), or on laps
whose turn is `lap` modulo 2^16. DIR 0 forward, 1 reverse, 2 either. -/
def Predictor.arrive (p : Predictor) (phase frac dir : Nat) (lap : Option Nat) (t : Time) : Option Time :=
  let su : Int := if p.flip then -p.unit else p.unit
  let x0 := p.base + ((phase : Int) - p.phase) * su + frac * p.unit / 65536
  let per := p.mod * p.unit
  let (x, per) := match lap with
    | none => (x0, per)
    | some n => (x0 + ((n : Int) - p.turn) * p.mod * su, per * 65536)
  let f := p.model.solve (nextAbove x per (p.model.floorFrom t)) true t
  let r := p.model.solve (nextBelow x per (p.model.ceilFrom t)) false t
  let (f, r) := if p.flip then (r, f) else (f, r)
  if dir = 0 then f else if dir = 1 then r
  else match f, r with
    | some a, some b => some (min a b)
    | some a, none => some a
    | none, b => b

/-- The predictor of cell `n`; a frozen, held or disabled cell gives none (R112, R107, R66), and a CASCADE cell takes the
model of the cell below (R50). Whether that model predicts in LINEAR is decided by the PRED_LINEAR of cell n - 1, and the CASCADE cell's
own PRED_LINEAR has no effect (DESIGN CHOICE, log 50: R50 and R66 do not say whose bit counts). -/
def State.predictorOf (s : State) : Nat → Option Predictor
  | 0 =>
    let c := s.cell 0
    if !c.en || s.held 0 || s.frozen 0 then none else
    c.predictor.map fun m =>
      { model := m, base := c.odo * oneCount, phase := c.phase.toNat, turn := c.turn.toInt, mod := c.modN }
  | n + 1 =>
    let c := s.cell (n + 1)
    if !c.en || s.held (n + 1) || s.frozen (n + 1) then none
    else if c.mode = 5 then
      (s.predictorOf n).map fun q =>
        { model := q.model, base := q.base - q.phase * (if q.flip then -q.unit else q.unit),
          phase := c.phase.toNat, turn := c.turn.toInt, mod := c.modN, unit := q.mod * q.unit,
          flip := q.flip ^^ c.dirInv }
    else c.predictor.map fun m =>
      { model := m, base := c.odo * oneCount, phase := c.phase.toNat, turn := c.turn.toInt, mod := c.modN }

/-- R130: a target whose phase is not below the modulus does not come due. -/
def State.predictAt (s : State) (n phase frac dir : Nat) (lap : Option Nat) (t : Time) : Option Time :=
  if (s.cell n).modN ≤ phase then none
  else match s.predictorOf n with
    | none => none
    | some p => p.arrive phase frac dir lap t

end Sys2Proof.Machine
end

