-- ==== Sys2Proof/Machine/Post.lean ====
section
/-! DEFINITION. Address translation as every requester uses it (R302 to R316), fault records and fault queues (R323 to R326), and
posting a record to an event queue (R280 to R282). -/

namespace Sys2Proof.Machine

/-! ## Domains and the cache -/

def Dom.en (d : Dom) : Bool := bit d.ctrl 0
def Dom.phyOk (d : Dom) : Bool := bit d.ctrl 1
def Dom.rootPhy (d : Dom) : Bool := bit d.ctrl 2
def Dom.root (d : Dom) : Nat := d.rootHi.toNat * 2 ^ 32 + d.rootLo.toNat

/-- R306: fields of a table entry. -/
def entV (e : BitVec 64) : Bool := e.getLsbD 0
def entLeaf (e : BitVec 64) : Bool := e.getLsbD 1
def entPhy (e : BitVec 64) : Bool := e.getLsbD 5
def entOA (e : BitVec 64) : Nat := (e.toNat >>> 12) % 2 ^ 40 * 4096

/-- R308: the permission an access needs, and the cause of its lack. -/
def entPerm (e : BitVec 64) : Access → Bool
  | .read => e.getLsbD 2
  | .write => e.getLsbD 3
  | .fetch => e.getLsbD 4

def permCause : Access → Nat
  | .read => 2 | .write => 3 | .fetch => 4

/-- R305: page size of a leaf. -/
def Leaf.size (l : Leaf) : Nat := if l.big then 0x200000 else 0x1000

def Leaf.covers (l : Leaf) (d va : Nat) : Bool := l.dom == d && l.page == va / l.size

/-- R311: a scope covers a page of domain `d`: `n` bytes from `va`. -/
def Scope.covers (z : Scope) (d va n : Nat) : Bool :=
  match z with
  | .all => true
  | .dom x => x == d
  | .range x a pages => x == d && decide (va < a + pages * 4096) && decide (a < va + n)

/-- R335: an invalidation in progress covers the page of `va`. -/
def State.invCovers (s : State) (d va : Nat) : Bool :=
  (s.dom d).invBusy || (match s.xl.inv with | some z => z.covers d (va / 4096 * 4096) 4096 | none => false)

/-- The output address of a virtual address in a leaf. -/
def Leaf.addr (l : Leaf) (va : Nat) : Nat := entOA l.entry + va % l.size

/-- What a translation gives. -/
inductive Xl where
  | hit (phy : Bool) (addr : Nat) (leaf : Leaf)
  | miss
  | fault (cause level : Nat) (entry : BitVec 64)
  deriving DecidableEq, Repr

/-- R309: an access that hits a cached leaf; permission is checked for each access (R308). -/
def leafXl (l : Leaf) (va : Nat) (acc : Access) : Xl :=
  if entPerm l.entry acc then .hit (entPhy l.entry) (l.addr va) l
  else .fault (permCause acc) (if l.big then 1 else 0) l.entry

/-- R302, R309: look a translation up; a hit counts, and its leaf becomes the most recently used. -/
def State.lookup (s : State) (d va : Nat) (acc : Access) : Xl × State :=
  if !(s.dom d).en then (.fault 7 0 0, s)
  else match s.xl.cache.find? (·.covers d va) with
    | some l =>
      (leafXl l va acc,
        { s with xl := { s.xl with cache := l :: s.xl.cache.erase l, hits := s.xl.hits + 1 } })
    | none => (.miss, s)

/-- R331: walks get their walkers in request order; answers the walks and how many have started. -/
def beginWalks (ws : List Walk) : List Walk × Nat :=
  let r := ws.foldl (fun (p : List Walk × Nat × Nat) w =>
    let busy := p.2.1 + (if w.shared_ then 1 else 0)
    if w.begun then (w :: p.1, busy, p.2.2)
    else if !w.shared_ || p.2.1 < 16 then ({ w with begun := true } :: p.1, busy, p.2.2 + 1)
    else (w :: p.1, p.2.1, p.2.2)) ([], 0, 0)
  (r.1.reverse, r.2.2)

/-- Set the walks, and let those that may begin. -/
def State.setWalks (s : State) (ws : List Walk) : State :=
  let (ws, n) := beginWalks ws
  { s with xl := { s.xl with walks := ws, misses := s.xl.misses + BitVec.ofNat 32 n } }

/-- R307: ask for a walk, unless the same requester already walks that page. R552: a walk in progress when an invalidation of its page
began serves no later access. A root table outside SRAM faults at once. -/
def State.walk (s : State) (who : Who) (d va : Nat) (acc : Access) (shr : Bool) : Xl × State :=
  let m := s.dom d
  if m.rootPhy && decide (sramSize < m.root + 4096) then (.fault 8 3 0, s)
  else if s.xl.walks.any (fun w => !w.gone && (!w.old || w.acc == acc) && w.who == who && w.dom == d && w.va / 4096 == va / 4096) then
    (.miss, s)
  else
    let w : Walk := { who := who, dom := d, va := va, acc := acc, level := 3, table := m.root, tabPhy := m.rootPhy, shared_ := shr }
    (.miss, s.setWalks (s.xl.walks ++ [w]))

/-- What the walks of a page have brought for a requester is spent. -/
def State.spend (s : State) (who : Who) (d va : Nat) : State :=
  { s with xl := { s.xl with answers := s.xl.answers.filter fun a => !(a.who == who && a.dom == d && a.page == va / 4096) } }

/-- Translate for a requester: what its walk has brought (it stands till the access ends), the cache, or a walk. R302, R335: in a domain
that is off every access takes DOMAIN_OFF, and what a walk of its page has brought is spent with it. -/
def State.xlate (s : State) (who : Who) (d va : Nat) (acc : Access) (shr : Bool := true) : Xl × State :=
  if !(s.dom d).en then (.fault 7 0 0, s.spend who d va)
  else match s.xl.answers.find? (fun a => a.who == who && a.dom == d && a.page == va / 4096 && (!a.old || a.acc == acc)) with
    | some a =>
      (match a.res with
       | .inl l => (leafXl l va acc, s)
       | .inr (cause, level, entry) => (.fault cause level entry, s))
    | none =>
      match s.lookup d va acc with
      | (.miss, s) => s.walk who d va acc shr
      | r => r

/-- An access has ended: what its walks have brought, or still bring, is for nobody. -/
def State.forget (s : State) (who : Who) : State :=
  { s with xl := { s.xl with answers := s.xl.answers.filter (·.who ≠ who),
                             walks := s.xl.walks.map fun w => if w.who = who then { w with gone := true } else w } }

/-! ## Fault records (R323 to R326) -/

structure FaultRec where
  va : Nat := 0
  cause : Nat := 0
  acc : Access := .read
  timed : Bool := false
  parked : Bool := false
  lost : Bool := false
  level : Nat := 0
  master : Nat := 0x40
  source : Nat := 0
  kind : Nat := 1
  dom : Nat := 0
  entry : BitVec 64 := 0
  deriving DecidableEq, Repr

def b2n (b : Bool) : Nat := if b then 1 else 0

/-- R323: the 32 bytes. -/
def FaultRec.bytes (r : FaultRec) (t : Time) : List Byte :=
  let acc := match r.acc with | .read => 1 | .write => 2 | .fetch => 4
  leBytes 6 r.va ++ [0, 0, BitVec.ofNat 8 r.cause,
    BitVec.ofNat 8 (acc + 8 * b2n r.timed + 16 * b2n r.parked + 32 * b2n r.lost),
    BitVec.ofNat 8 r.level, BitVec.ofNat 8 r.master] ++ leBytes 2 (r.source % 4096 + 4096 * r.kind)
    ++ [BitVec.ofNat 8 r.dom, 0] ++ leBytes 8 r.entry.toNat ++ leBytes 8 t

def FQ.en (q : FQ) : Bool := bit q.cfg 0
def FQ.phy (q : FQ) : Bool := bit q.cfg 1
def FQ.size (q : FQ) : Nat := 2 ^ fld q.cfg 2 4
def FQ.note (q : FQ) : Nat := fld q.cfg 6 2
def FQ.vec (q : FQ) : Nat := fld q.cfg 16 11
def FQ.base (q : FQ) : Nat := q.baseHi.toNat * 2 ^ 32 + q.baseLo.toNat

/-- R262: the occupied slots of a ring. -/
def occupied (pi ci : Word) : Nat := (pi - ci).toNat

/-- R326: a queue's write fails where it would leave toward host memory while the link is not up (R228). -/
def State.canWrite (s : State) (phy : Bool) : Bool := phy || s.irq.link

/-- R323 to R325: count the fault in its domain and write its record, or drop it. -/
def State.faultRecord (s : State) (r : FaultRec) : State :=
  let d := s.dom r.dom
  let s := s.setDom r.dom { d with faults := satInc d.faults }
  let q := s.fq r.dom
  if q.st ≠ 1 || q.size ≤ occupied q.pi q.ci then s.setFq r.dom { q with drop := satInc q.drop }
  else if !s.canWrite q.phy then s.setFq r.dom { q with st := 2, drop := satInc q.drop }
  else
    let s := s.putOut q.phy (q.ring + 0x80 + q.pi.toNat % q.size * 32) (r.bytes s.now)
    let s := s.putOut q.phy q.ring (leBytes 4 (q.pi + 1).toNat)
    let s := s.setFq r.dom { q with pi := q.pi + 1, armed := false }
    if q.armed then s.notifyQ q.note q.vec 512 32 r.dom else s

/-! ## Rings of the queue engine (R261 to R267) -/

def WQ.slots (q : WQ) : Nat := 2 ^ q.size
def EQ.slots (q : EQ) : Nat := 2 ^ q.size

/-- R266, R267: an event queue enters ERROR; source 133 is reported. 1 LAP, 2 XLATE, 3 BUS. Records being written hold with the rest. -/
def State.eqError (s : State) (q : Nat) (cause : BitVec 2) : State :=
  ((s.modEq q fun e => { e with st := .error, cause := cause, waiters := e.writing ++ e.waiters, writing := [] }).forget (.eq q)).report 133

def State.wqError (s : State) (q : Nat) (cause : BitVec 2) : State :=
  ((s.modWq q fun e => { e with st := .error, cause := cause }).forget (.wq q)).report 133

/-- Where an access of a ring goes. -/
inductive RingXl where
  | ok (phy : Bool) (addr : Nat)
  | walking
  | fault
  deriving DecidableEq, Repr

/-- R266: an access of event queue `q`'s ring at a ring address. A translation fault puts the queue into ERROR and sends a fault
record (KIND 4). -/
def State.eqAddr (s : State) (q a : Nat) (acc : Access) : RingXl × State :=
  let e := s.eq q
  if e.phy then (.ok true a, s)
  else match s.xlate (.eq q) e.dom a acc with
    | (.hit p x _, s) => (.ok p x, s)
    | (.miss, s) => (.walking, s)
    | (.fault cause level entry, s) =>
      (.fault, (s.eqError q 2).faultRecord
        { va := a, cause := cause, acc := acc, level := level, source := q, kind := 4, dom := e.dom, entry := entry })

/-- R266: the same for a work queue (KIND 3). -/
def State.wqAddr (s : State) (q a : Nat) (acc : Access) : RingXl × State :=
  let e := s.wq q
  if e.phy then (.ok true a, s)
  else match s.xlate (.wq q) e.dom a acc with
    | (.hit p x _, s) => (.ok p x, s)
    | (.miss, s) => (.walking, s)
    | (.fault cause level entry, s) =>
      (.fault, (s.wqError q 2).faultRecord
        { va := a, cause := cause, acc := acc, level := level, source := q, kind := 3, dom := e.dom, entry := entry })

/-! ## Posting a record (R280 to R282) -/

/-- R280: a credit is free. -/
def EQ.credit (e : EQ) : Bool := decide (occupied e.res e.ci < e.slots)

/-- R280 step 4, R282: raise the queue's notification when it is armed, and disarm it. -/
def State.eqNotify (s : State) (q : Nat) : State :=
  let e := s.eq q
  if e.armed then (s.setEq q { e with armed := false }).notifyQ e.notify.toNat e.vec 384 128 q else s

/-- What a step of posting a record comes to. -/
inductive PostStep where
  | done
  /-- Its page is still being walked. -/
  | walking
  /-- The access failed, and the queue is in ERROR (R266). -/
  | failed
  deriving DecidableEq, Repr

/-- R280 step 1, R281: the queue admits one more poster now: a credit is free, and it has admitted none in this cycle. -/
def State.eqAdmits (s : State) (q : Nat) : Bool :=
  let e := s.eq q
  e.st = .enabled && e.credit && e.admitAt ≠ some (cyc s.now)

/-- R280 step 1: a credit is taken. -/
def State.eqReserve (s : State) (q : Nat) : State :=
  s.modEq q fun e => { e with res := e.res + 1, admitAt := some (cyc s.now) }

/-- R280 steps 2 to 4: the record is written to the next slot, PI follows, and the queue notifies. -/
def State.eqCommit (s : State) (q : Nat) (rec : List Byte) : PostStep × State :=
  let e := s.eq q
  match s.eqAddr q (e.base + 0x80 + e.pi.toNat % e.slots * 32) .write with
  | (.ok p a, s) =>
    match s.eqAddr q e.base .write with
    | (.ok p' a', s) =>
      if !s.canWrite p || !s.canWrite p' then (.failed, s.eqError q 3)
      else
        let s := (s.putOut p a rec).putOut p' a' (leBytes 4 (e.pi + 1).toNat)
        let s := s.modEq q fun e => { e with pi := e.pi + 1 }
        let s := (s.spend (.eq q) e.dom (e.base + 0x80 + e.pi.toNat % e.slots * 32)).spend (.eq q) e.dom e.base
        (.done, s.eqNotify q)
    | (.walking, s) => (.walking, s)
    | (.fault, s) => (.failed, s)
  | (.walking, s) => (.walking, s)
  | (.fault, s) => (.failed, s)

/-- R281: the order of posters that begin in one cycle. -/
def Poster.rank : Poster → Nat
  | .chan c => c
  | .cmp k | .cmpOor k => 4096 + k
  | .cap j => 8192 + j

/-- R281: a poster begins to wait: behind those of earlier cycles, and among those of its own cycle at its place. -/
def EQ.hold (e : EQ) (who : Poster) (now : Nat) : EQ :=
  if e.waiters.contains who then e
  else
    let n := if e.waitAt = now then min e.waitNew e.waiters.length else 0
    let old := e.waiters.take (e.waiters.length - n)
    let new := e.waiters.drop (e.waiters.length - n)
    { e with waiters := old ++ new.filter (fun p => p.rank ≤ who.rank) ++ who :: new.filter (fun p => who.rank < p.rank),
             waitAt := now, waitNew := n + 1 }

/-- R280, R281: a poster arrives with a record: it is posted (`true`), or it holds. One that the queue has no room for waits behind those
that wait; one that has a credit, behind those that are being written. -/
def State.eqPost (s : State) (q : Nat) (who : Poster) (rec : List Byte) : Bool × State :=
  let e := s.eq q
  let hold (s : State) : State := s.modEq q fun e => e.hold who (cyc s.now)
  if !e.waiters.isEmpty || !s.eqAdmits q then (false, hold s)
  else
    let s := s.eqReserve q
    let write (s : State) : State := s.modEq q fun e => { e with writing := e.writing ++ [who] }
    if !e.writing.isEmpty then (false, write s)
    else match s.eqCommit q rec with
      | (.done, s) => (true, s)
      | (.walking, s) => (false, write s)
      | (.failed, s) => (false, hold s)

/-! ## Record forms (R255 to R257) -/

/-- R257: the compare form. -/
def CmpRec.bytes (r : CmpRec) (unit : Nat) (oor : Bool) : List Byte :=
  [5, 0] ++ leBytes 2 r.chan ++ leBytes 2 (if oor then 0x2000 else 0) ++ [BitVec.ofNat 8 unit, BitVec.ofNat 8 (r.cell % 64)]
    ++ leBytes 4 r.phase.toNat ++ leBytes 2 r.turn.toNat ++ [0, 0] ++ leBytes 8 r.time
    ++ leBytes 4 (if oor then 0 else r.count.toNat) ++ [0, 0, 0, 0]

/-- R104: the 16-byte record of a capture FIFO. -/
def CapRec.bytes (r : CapRec) : List Byte :=
  leBytes 4 r.phase.toNat ++ leBytes 2 r.frac.toNat ++ leBytes 2 r.turn.toNat ++ leBytes 7 r.time
    ++ [BitVec.ofNat 8 (b2n r.edge + 2 * b2n r.ovf + 4 * b2n r.est)]

/-- R257: the capture form. -/
def CapPend.bytes (r : CapPend) (unit : Nat) : List Byte :=
  [6, 0] ++ leBytes 2 r.chan ++ [0, 0, BitVec.ofNat 8 unit, BitVec.ofNat 8 (r.cell % 64)]
    ++ r.data.bytes ++ leBytes 4 r.count.toNat ++ [0, 0, 0, 0]

end Sys2Proof.Machine
end

