-- ==== Sys2Proof/Machine/Operands.lean ====
section
/-! DEFINITION. Operand forms of the channel commands (04_command_set.md): the fields of a word group and of its timing stamp,
unit classes, and the checks a group passes when it becomes current (R126, R172). -/

namespace Sys2Proof.Machine

/-! ## The command word (R119 to R122) -/

def Group.op (g : Group) : Nat := fld g.w0 0 8
def Group.unit (g : Group) : Nat := fld g.w0 20 12
def Group.cd (g : Group) : Bool := bit g.w0 8
def Group.cc (g : Group) : Bool := bit g.w0 9
def Group.skp (g : Group) : Bool := bit g.w0 10
def Group.sli (g : Group) : Bool := bit g.w0 11
def Group.pci (g : Group) : Bool := bit g.w0 12
def Group.idx (g : Group) : Bool := bit g.w0 13
def Group.sus (g : Group) : Bool := bit g.w0 14
def Group.tm (g : Group) : Bool := bit g.w0 15
def Group.lk (g : Group) : Bool := bit g.w0 16
def Group.phy (g : Group) : Bool := bit g.w0 17
def Group.count (g : Group) : Nat := g.w1.toNat
/-- Words 2 and 3 as one 64-bit number. -/
def Group.addr (g : Group) : Nat := g.w2.toNat + g.w3.toNat * 2 ^ 32

/-- R119: opcodes whose group has an operand word. -/
def hasOperand (op : Nat) : Bool := [0x05, 0x06, 0x07, 0x08, 0x31, 0x3A].contains op

/-- R119: bytes of the group. -/
def Group.size (g : Group) : Nat := 16 * (1 + b2n (hasOperand g.op) + b2n g.tm)

/-- The operand word as bytes 0 to 15. -/
def Group.opBytes (g : Group) : List Byte :=
  leBytes 4 g.o0.toNat ++ leBytes 4 g.o1.toNat ++ leBytes 4 g.o2.toNat ++ leBytes 4 g.o3.toNat

/-- The first 64-bit field of the operand word: DST, VALUE, B or EXPECT. -/
def Group.opLo (g : Group) : Nat := g.o0.toNat + g.o1.toNat * 2 ^ 32
/-- The second one: NEW of a CAS. -/
def Group.opHi (g : Group) : Nat := g.o2.toNat + g.o3.toNat * 2 ^ 32

/-! ## Operand words (R151, R155, R171) -/

/-- R151: bit `i` of operand byte 8. -/
def Group.ob8 (g : Group) (i : Nat) : Bool := bit g.o2 i
def Group.didx (g : Group) : Bool := g.op = 0x05 && g.ob8 0
def Group.dphy (g : Group) : Bool := g.op = 0x05 && g.ob8 1
def Group.const (g : Group) : Bool := g.op = 0x07 && g.ob8 0
def Group.bidx (g : Group) : Bool := g.op = 0x07 && g.ob8 3 && !g.ob8 0
def Group.bphy (g : Group) : Bool := g.op = 0x07 && g.ob8 4 && !g.ob8 0

/-- R151, R153: the width in bytes of FILL's VALUE, or of COMPARE's. -/
def Group.width (g : Group) : Nat := 2 ^ (if g.op = 0x06 then fld g.o2 0 2 else fld g.o2 1 2)

/-- R153: byte `k` of the repeating pattern. -/
def Group.patByte (g : Group) (k : Nat) : Byte := BitVec.ofNat 8 (g.opLo / 256 ^ (k % g.width))

def Group.gBase (g : Group) : Nat := g.opLo % 2 ^ 48
def Group.gSize (g : Group) : Nat := g.opLo / 2 ^ 48
def Group.gDst (g : Group) : Nat := g.opHi % 2 ^ 48
def Group.gIw64 (g : Group) : Bool := bit g.o3 16
def Group.gBphy (g : Group) : Bool := bit g.o3 17
def Group.gDphy (g : Group) : Bool := bit g.o3 18

/-! ## The stamp (R127) -/

def Group.sCell (g : Group) : Nat := fld g.s4 0 6
def Group.sDir (g : Group) : Nat := fld g.s4 6 2
def Group.sLap (g : Group) : Bool := bit g.s4 8
def Group.sLimEn (g : Group) : Bool := bit g.s4 9
def Group.sPhase (g : Group) : Nat := g.s5.toNat
def Group.sFrac (g : Group) : Nat := fld g.s6 0 16
def Group.sTurn (g : Group) : Nat := fld g.s6 16 16
/-- The exact turn of LAP = 1. -/
def Group.lapTurn (g : Group) : Option Nat := if g.sLap then some g.sTurn else none
/-- R129: the limit in ticks (64 ns units). -/
def Group.limit (g : Group) : Option Nat := if g.sLimEn && g.s7 ≠ 0 then some (ns (64 * g.s7.toNat)) else none

/-! ## SIGNAL, WAIT, GLADE, ARM (R156 to R162) -/

def Group.sigMode (g : Group) : Nat := fld g.w1 24 3
def Group.sigCount (g : Group) : Nat := fld g.w1 0 16
/-- The output unit of a SIGNAL: 0x200 + u. -/
def Group.ou (g : Group) : Nat := g.unit % 128
def Group.waitKind (g : Group) : Nat := fld g.w1 0 3
def Group.gladeCell (g : Group) : Nat := fld g.w1 0 6
def Group.gladeDir (g : Group) : Nat := fld g.w1 6 2
def Group.gladeTimeout (g : Group) : Nat := fld g.w1 8 24

/-! ## Unit classes (R143) -/

inductive UnitClass where
  | stream | txq | out | cap | cell | mbox | serial | yazen | memory | none
  deriving DecidableEq, Repr

def unitClass (u : Nat) : UnitClass :=
  if u ≤ 0xFF then .stream
  else if 0x100 ≤ u && u ≤ 0x13F then .txq
  else if 0x200 ≤ u && u ≤ 0x27F then .out
  else if 0x300 ≤ u && u ≤ 0x37F then .cap
  else if 0x380 ≤ u && u ≤ 0x3BF then .cell
  else if 0x400 ≤ u && u ≤ 0x43F then .mbox
  else if 0x600 ≤ u && u ≤ 0x607 then .serial
  else if 0x700 ≤ u && u ≤ 0x7FF then .yazen
  else if u = 0xFFF then .memory
  else .none

/-- R122, R143: the unit classes an opcode accepts. -/
def unitOk (op kind : Nat) (u : UnitClass) : Bool :=
  match op with
  | 0x01 => [UnitClass.stream, .cap, .cell, .mbox, .serial, .yazen].contains u
  | 0x02 => [UnitClass.txq, .mbox, .yazen].contains u
  | 0x03 => [UnitClass.stream, .txq, .cap, .cell, .serial].contains u
  | 0x04 => u ≠ .memory && u ≠ .none
  | 0x08 => u = .memory || u = .txq
  | 0x20 => if kind = 2 then [UnitClass.stream, .cap, .mbox, .serial].contains u else u = .memory
  | 0x30 => u = .out
  | _ => u = .memory

/-! ## The checks of R172 -/

/-- Permission of the flags CD, SKP, SLI, IDX, PHY, TM, LK (R122), as a bit list in that order. -/
def flagRow (op : Nat) : List Bool :=
  match op with
  | 0x01 => [true, true, true, true, true, true, false]
  | 0x02 => [true, false, false, true, true, true, false]
  | 0x03 => [false, false, false, false, false, true, false]
  | 0x04 => [false, true, false, false, true, true, false]
  | 0x05 | 0x06 | 0x07 => [false, false, false, true, true, true, true]
  | 0x08 => [false, false, false, false, true, false, false]
  | 0x10 | 0x11 => [false, false, false, false, true, false, false]
  | 0x20 => [false, false, false, false, false, true, false]
  | 0x21 => [false, false, false, false, false, false, false]
  | 0x30 => [false, false, false, false, true, true, false]
  | 0x31 => [false, false, false, false, false, true, false]
  | 0x38 | 0x39 => [false, false, false, false, false, false, true]
  | 0x3A => [false, false, false, false, true, false, true]
  | 0x40 => [false, false, false, false, false, true, false]
  | 0x7F => [false, false, false, false, false, true, true]
  | _ => []

/-- R122: the opcode exists. -/
def opKnown (op : Nat) : Bool := flagRow op ≠ []

/-- R122: no flag is set that the opcode does not accept; PHY must be 1 on CAS, LK must be 1 on LOCK and UNLOCK; PCI and SUS are
0 on a group with LK = 1, but for SUS on LOCK and PCI on UNLOCK. -/
def flagsOk (g : Group) : Bool :=
  let row := flagRow g.op
  (List.zip row [g.cd, g.skp, g.sli, g.idx, g.phy, g.tm, g.lk]).all (fun p => p.1 || !p.2)
    && (g.op != 0x3A || g.phy) && (!(g.op == 0x38 || g.op == 0x39) || g.lk)
    && (!g.lk || ((!g.pci || g.op == 0x39) && (!g.sus || g.op == 0x38)))
    && (g.op != 0x38 || g.cc) && !(g.idx && g.skp)

/-- R142, R151, R155: fields that must be 0, and reserved encodings, of each opcode. -/
def fieldsOk (g : Group) : Bool :=
  fld g.w0 18 2 = 0 &&
  (!g.tm || (fld g.s4 10 22 = 0 && g.sDir ≠ 3)) &&
  match g.op with
  | 0x03 =>
    fld g.w1 8 24 = 0 &&
      (match unitClass g.unit, fld g.w1 0 8 with
       | .cell, 2 => g.w3 = 0
       | .cell, _ => true
       | _, _ => g.w2 = 0 && g.w3 = 0)
  | 0x05 => fld g.o2 2 30 = 0 && g.o3 = 0
  | 0x06 => fld g.o2 2 30 = 0 && g.o3 = 0 && g.opLo < 256 ^ g.width
  | 0x07 => fld g.o2 5 27 = 0 && g.o3 = 0 && (if g.const then g.opLo < 256 ^ g.width else fld g.o2 1 2 = 0)
  | 0x08 => fld g.o3 19 13 = 0 && (unitClass g.unit ≠ .txq || g.gDst = 0)
  | 0x10 => g.w1 = 0
  | 0x11 => fld g.w1 1 31 = 0
  | 0x20 =>
    fld g.w1 3 29 = 0 &&
      (match g.waitKind with
       | 0 => true
       | 1 => g.w2 = 0 && g.w3 = 0
       | 2 => g.w2 = 0
       | 3 => fld g.w2 8 24 = 0
       | _ => false)
  | 0x21 => g.gladeDir ≠ 3
  | 0x30 =>
    fld g.w1 16 8 = 0 && fld g.w1 27 5 = 0 &&
      (match g.sigMode with
       | 0 => fld g.w2 1 31 = 0 && g.w3 = 0
       | 1 => fld g.w3 1 31 = 0 && g.w2 ≠ 0
       | 2 => true
       | _ => false)
  | 0x31 => fld g.w1 9 23 = 0 && g.w2 = 0 && g.w3 = 0 && (!bit g.w1 8 || fld g.w1 0 8 ≤ 127)
  | 0x38 | 0x39 | 0x7F => g.w1 = 0 && g.w2 = 0 && g.w3 = 0
  | 0x3A => g.w1 ≠ 4 || (g.o1 = 0 && g.o3 = 0)
  | _ => true

/-- R144, R156, R171: limits on COUNT, and unit classes that take no CD. -/
def countOk (g : Group) : Bool :=
  match g.op with
  | 0x01 | 0x02 =>
    g.count ≠ 0 &&
      (match unitClass g.unit with
       | .cap | .serial => g.count % 16 = 0 && !g.cd
       | .mbox => g.count = 32 && !g.cd
       | .yazen => g.count ≤ 64 && !g.cd
       | _ => true)
  | 0x05 | 0x06 | 0x07 => g.count ≠ 0
  | 0x08 => g.count ≠ 0 && g.gSize ≠ 0 && g.gSize ≤ 4096
  | 0x30 => if g.sigMode = 2 then 8 ≤ g.sigCount && g.sigCount ≤ 4096 && g.sigCount % 8 = 0 else g.sigCount = 0
  | 0x3A => g.count = 4 || g.count = 8
  | _ => true

/-- R123: which 64-bit fields of the group are addresses. -/
def addrsOk (g : Group) : Bool :=
  let lo48 (a : Nat) : Bool := a < 2 ^ 48
  match g.op with
  | 0x01 | 0x04 => g.skp || lo48 g.addr
  | 0x02 | 0x06 | 0x08 | 0x10 | 0x11 | 0x3A => lo48 g.addr
  | 0x05 => lo48 g.addr && lo48 g.opLo
  | 0x07 => lo48 g.addr && (g.const || lo48 g.opLo)
  | 0x30 => g.sigMode ≠ 2 || lo48 g.addr
  | _ => true

/-- R142, R159, R171: alignment. -/
def alignOk (g : Group) : Bool :=
  (!g.idx || g.addr % 16 = 0) && (!g.didx || g.opLo % 16 = 0) && (!g.bidx || g.opLo % 16 = 0) &&
  (!(g.op = 0x10 || g.op = 0x11) || g.addr % 16 = 0) && (g.op ≠ 0x3A || g.count = 0 || g.addr % g.count = 0)

/-- R122: TM is accepted only under the one-burst conditions, on READ, WRITE, MOVE, FILL and COMPARE; on WAIT only for kind
POSITION, which must carry it. -/
def tmOk (g : Group) : Bool :=
  (!(g.tm && [0x01, 0x02, 0x05, 0x06, 0x07].contains g.op) ||
    (g.count ≤ 4096 && !g.cd && !g.idx && !g.didx && !g.bidx)) &&
  (g.op ≠ 0x20 || (g.waitKind = 1) = g.tm)

/-- R150: the orders of CONTROL. -/
def orderOk (g : Group) : Bool :=
  g.op ≠ 0x03 || (match unitClass g.unit with
    | .cell => 1 ≤ fld g.w1 0 8 && fld g.w1 0 8 ≤ 3
    | _ => fld g.w1 0 8 = 1)

/-- R172: rows that give PROGRAM_CHECK and need nothing but the group. -/
def groupOk (g : Group) : Bool :=
  opKnown g.op && fieldsOk g && flagsOk g && unitOk g.op g.waitKind (unitClass g.unit) && countOk g && addrsOk g
    && alignOk g && tmOk g && orderOk g

/-- R124: bytes a command addresses in SRAM by PHY, DPHY, BPHY (start, length). A fragment table counts its first entry. -/
def physRanges (g : Group) : List (Nat × Nat) :=
  let a (n : Nat) : List (Nat × Nat) := if g.phy then [(g.addr, if g.idx then 16 else n)] else []
  match g.op with
  | 0x01 => if g.skp then [] else a g.count
  | 0x02 | 0x06 => a g.count
  | 0x04 => if g.skp then [] else a 16
  | 0x05 => a g.count ++ (if g.dphy then [(g.opLo, if g.didx then 16 else g.count)] else [])
  | 0x07 => a g.count ++ (if g.bphy then [(g.opLo, if g.bidx then 16 else g.count)] else [])
  | 0x08 => a (g.count * (if g.gIw64 then 8 else 4)) ++ (if g.gDphy && unitClass g.unit ≠ .txq then [(g.gDst, g.count * g.gSize)] else [])
      ++ (if g.gBphy then [(0, 0)] else [])
  | 0x10 | 0x11 => a 16
  | 0x30 => if g.sigMode = 2 then a g.sigCount else []
  | 0x3A => a g.count
  | _ => []

/-- Status bits of R252. -/
def stProgramCheck : Nat := 0
def stProtection : Nat := 1
def stChaining : Nat := 2
def stTranslation : Nat := 3
def stBusError : Nat := 4
def stMissed : Nat := 5
def stIncorrectLength : Nat := 6
def stFenceClamp : Nat := 7
def stLockAbandoned : Nat := 8
def stMismatch : Nat := 9
def stAborted : Nat := 10
def stUnitCheck : Nat := 11
def stParkLost : Nat := 12
def stOutOfRange : Nat := 13

/-- R138: what a continuation must keep. -/
def contOk (h : Chan) (g : Group) : Bool := g.op = h.chainOp && g.unit = h.chainUnit && !g.tm && !g.sus

/-- R172: the status bit of the first row that group `g` fails as the current group of channel context `h`, down to the bracket row,
whose other half is the bracket itself. -/
def groupCheckA (h : Chan) (g : Group) : Option Nat :=
  if !groupOk g then some stProgramCheck
  else if g.op = 0x11 && !h.condValid then some stProgramCheck
  else if g.lk && !h.inBracket && g.op ≠ 0x38 then some stProgramCheck
  else none

/-- R124: a physical range that the domain does not permit, or that reaches beyond the SRAM. -/
def physBad (phyOk : Bool) (l : List (Nat × Nat)) : Bool := l.any fun r => !phyOk || decide (sramSize < r.1 + r.2)

/-- R172: the rows below: continuation, TIC after TIC, physical addresses in a domain that permits them when `phyOk`. -/
def groupCheckB (h : Chan) (phyOk : Bool) (g : Group) : Option Nat :=
  if h.inChain && !contOk h g then some stChaining
  else if g.op = 0x10 && h.fromTic then some stChaining
  else if physBad phyOk (physRanges g) then some stProtection
  else none

/-- R172: the first row of all that group `g` fails, but for the bracket of a LOCK. -/
def groupCheck (h : Chan) (phyOk : Bool) (g : Group) : Option Nat := (groupCheckA h g).orElse fun _ => groupCheckB h phyOk g

/-! ## Brackets (R166 to R168) -/

/-- R137: twice the address plus PHY, as prefetched groups are keyed. -/
def grpKey (a : Nat) (phy : Bool) : Nat := 2 * a + b2n phy

/-- R469: the beats that a byte range touches. -/
def beats (a n : Nat) : List Nat := if n = 0 then [] else (List.range ((a + n - 1) / 64 - a / 64 + 1)).map (· + a / 64)

/-- R166: a group may stand between LOCK and UNLOCK. -/
def memberOk (g : Group) : Bool :=
  groupOk g && g.lk && g.cc && !g.tm && !g.pci && !g.sus && !g.idx && !g.didx && !g.bidx &&
  match g.op with
  | 0x05 => g.phy && g.dphy
  | 0x06 | 0x3A => g.phy
  | 0x07 => g.phy && (g.const || g.bphy)
  | 0x7F => true
  | _ => false

/-- R167: the SRAM beats a member reads and writes, one entry for each access. -/
def memberBeats (g : Group) : List Nat :=
  match g.op with
  | 0x05 => beats g.addr g.count ++ beats g.opLo g.count
  | 0x06 => beats g.addr g.count
  | 0x07 => beats g.addr g.count ++ (if g.const then [] else beats g.opLo g.count)
  | 0x3A => [g.addr / 64, g.addr / 64]
  | _ => []

/-- What the groups after a LOCK make. -/
inductive Bracket where
  | more
  | bad
  | ok (members : List Group)
  deriving DecidableEq, Repr

/-- R166, R168: read the bracket off the groups held ahead, from address `a`. -/
def bracketOf (phy : Bool) : Nat → List Group → List (Nat × Group) → Bracket
  | _, _, [] => .more
  | a, l, (k, g) :: r =>
    if k ≠ grpKey a phy then .bad
    else if g.op = 0x39 then
      if groupOk g && !l.isEmpty && decide ((l.flatMap memberBeats).length ≤ 16) then .ok l else .bad
    else if !memberOk g || 8 ≤ l.length then .bad
    else bracketOf phy (a + g.size) (l ++ [g]) r

end Sys2Proof.Machine
end

