-- ==== Sys2Proof/Machine/Flags.lean ====
section
/-! DEFINITION. Flag and status computations: the channel status word (R252, R134), COND (R136), CELL_STATUS, CMP_STATUS,
CAP_STATUS and the other computed status words. -/

namespace Sys2Proof.Machine

/-! ## Channel status (R252) -/

/-- Set a status bit. -/
def Chan.setSt (h : Chan) (b : Nat) : Chan := { h with status := h.status ||| BitVec.ofNat 14 (1 <<< b) }

def Chan.clrSt (h : Chan) (b : Nat) : Chan := { h with status := h.status &&& ~~~ BitVec.ofNat 14 (1 <<< b) }

/-- Set several status bits. -/
def Chan.setSts (h : Chan) (l : List Nat) : Chan := l.foldl Chan.setSt h

/-- R134: the noted bits, which do not end a program. -/
def notedBits : BitVec 14 := BitVec.ofNat 14 (1 <<< 7 ||| 1 <<< 9 ||| 1 <<< 13)

/-- R136: COND is set and valid. -/
def Chan.setCond (h : Chan) (b : Bool) : Chan := { h with cond := b, condValid := true }

/-- R239: the encodings of CTX_STATE.STATE. -/
def ChanState.code : ChanState → Nat
  | .idle => 0 | .startPending => 1 | .active => 2 | .waiting => 3 | .staged => 4 | .suspended => 5
  | .postPending => 6 | .faulted => 7 | .haltPending => 8 | .halted => 9

/-- R239: the two end states. -/
def ChanState.ended : ChanState → Bool
  | .idle | .halted => true
  | _ => false

/-! ## Counter cell (R76) -/

/-- CELL_STATUS of cell `n` (R32, R58, R59, R66, R76). -/
def State.cellStatus (s : State) (n : Nat) : Word :=
  let c := s.cell n
  wAt 0 (s.estOf n).code ||| wAt 3 c.dir.toNat ||| flag 5 (decide (c.modN ≤ c.phase.toNat)) ||| flag 6 (s.running n)
    ||| (c.flags &&& 0xFF00)

/-! ## Compare and capture units (R116, R117) -/

def Cmp.en (u : Cmp) : Bool := bit u.ctrl 0
def Cmp.dirQ (u : Cmp) : Nat := fld u.ctrl 1 2
def Cmp.turnEn (u : Cmp) : Bool := bit u.ctrl 3
def Cmp.repeat_ (u : Cmp) : Nat := fld u.ctrl 4 2
def Cmp.chain (u : Cmp) : Bool := bit u.ctrl 6
def Cmp.evt (u : Cmp) : Bool := bit u.ctrl 7
def Cmp.irq (u : Cmp) : Bool := bit u.ctrl 8
def Cmp.cell (u : Cmp) : Nat := fld u.ctrl 10 6
def Cmp.chan (u : Cmp) : Nat := fld u.ctrl 16 12
def Cmp.turnN (u : Cmp) : Nat := fld u.turn 0 16
def Cmp.hyst (u : Cmp) : Nat := fld u.turn 16 16

/-- R88: CMP_PHASE is not below the modulus last written. -/
def State.cmpOor (s : State) (u : Cmp) : Bool := decide ((s.cell u.cell).modN ≤ u.phase.toNat)

/-- CMP_STATUS: ARMED reads 0 in HYST_WAIT (R86); NO_PRED while armed without a scheduler entry (R93). -/
def State.cmpStatus (s : State) (k : Nat) : Word :=
  let u := s.cmp k
  flag 0 u.armed ||| flag 1 u.fired ||| flag 2 (s.cmpOor u) ||| flag 3 u.overrun
    ||| flag 4 ((u.armed || u.hystWait) && !u.entry) ||| flag 5 u.pend.isSome ||| flag 6 u.cfgRej ||| flag 7 u.hystWait

def Cap.en (u : Cap) : Bool := bit u.ctrl 0
def Cap.kind (u : Cap) : Nat := fld u.ctrl 1 3
def Cap.index (u : Cap) : Nat := fld u.ctrl 4 8
def Cap.edge (u : Cap) : Nat := fld u.ctrl 12 2
def Cap.cell (u : Cap) : Nat := fld u.ctrl 14 6
def Cap.evt (u : Cap) : Bool := bit u.ctrl 20
def Cap.irq (u : Cap) : Bool := bit u.ctrl 21

/-- CAP_STATUS (R117). -/
def Cap.status (u : Cap) : Word :=
  flag 0 u.level ||| flag 1 u.ovf ||| flag 2 u.cfgRej ||| flag 3 u.pend.isSome ||| wAt 8 u.fifo.length
    ||| wAt 16 u.ovfCnt.toNat

/-! ## Serial interface (R78) -/

def SerIf.biss (x : SerIf) : Bool := bit x.ctrl 0
def SerIf.gray (x : SerIf) : Bool := bit x.ctrl 1
def SerIf.bits (x : SerIf) : Nat := fld x.ctrl 2 6
def SerIf.poly (x : SerIf) : Nat := fld x.ctrl 8 7
def SerIf.crcInv (x : SerIf) : Bool := bit x.ctrl 15
def SerIf.run (x : SerIf) : Bool := bit x.ctrl 16
def SerIf.status (x : SerIf) : Word := (x.flags &&& 0x3F) ||| wAt 8 x.consec.toNat ||| wAt 16 x.lineMeas.toNat

/-! ## Sense of the compare units' records -/

/-- R254: CTX_STATE. -/
def Chan.ctxState (h : Chan) : Word :=
  wAt 0 h.st.code ||| flag 4 h.committed ||| flag 5 h.placeHeld ||| flag 6 h.cond ||| flag 7 h.condValid
    ||| flag 8 h.suspReq ||| flag 9 h.phy ||| flag 10 h.inBracket ||| wAt 16 h.prio.toNat ||| wAt 20 h.domain

/-- R254: words 0x00 to 0x3C of the context snapshot. In FAULTED the due time gives way to the faulting address (R325). -/
def Chan.context (h : Chan) : List Word :=
  let due := if h.st = .faulted then h.faultVa else h.due
  [h.ctxState,
   wAt 0 h.status.toNat ||| wAt 16 h.opcode.toNat ||| wAt 24 h.missCause.toNat,
   loW h.cca, hiW h.cca, BitVec.ofNat 32 h.resid,
   wAt 0 (h.eq.getD 0) ||| wAt 16 (h.wq.getD 0),
   loW h.daddr, hiW h.daddr, wAt 0 h.ebyte, wAt 0 h.armIdx ||| flag 8 h.armValid, h.armFcnt,
   loW h.result.toNat, hiW h.result.toNat, loW due, hiW due,
   wAt 0 h.recs.toNat ||| wAt 16 h.starts.toNat]

/-- The 64 bytes of the snapshot. -/
def Chan.contextBytes (h : Chan) : List Byte := h.context.flatMap fun w => leBytes 4 w.toNat

end Sys2Proof.Machine
end

