-- ==== Sys2Proof/Machine/ChanOps.lean ====
section
/-! DEFINITION. What every channel command shares (04, 05, 07): scheduler entries, output slots, records and holding to post, how a
command becomes current, completes, chains, ends MISSED, and how a program ends. -/

namespace Sys2Proof.Machine

/-! ## Scheduler entries (R179, R182) -/

def schedSize : Nat := 8192

/-- An entry is taken: USED and PEAK. -/
def Sched.take (d : Sched) : Sched := { d with used := d.used + 1, peak := max d.peak (d.used + 1) }

/-- R205: the entries that can be given out in the present cycle. -/
def State.schedFree (s : State) : Nat :=
  schedSize - s.sched.used - (if s.sched.freshAt = cyc s.now then s.sched.fresh else 0)

/-- R182: a taker gets a free entry that no earlier taker of its order waits for, or begins to wait. -/
def State.schedTake (s : State) (w : Taker) : Bool × State :=
  let d := s.sched
  let cmp := match w with | .cmp _ => true | _ => false
  if 0 < s.schedFree && d.waitCmd.isEmpty && (!cmp || d.waitCmp.isEmpty) then (true, { s with sched := d.take })
  else if cmp then (false, { s with sched := { d with waitCmp := d.waitCmp ++ [w] } })
  else (false, { s with sched := { d with waitCmd := d.waitCmd ++ [w] } })

/-- R179, R205: entries return, free from the next cycle, and the taker waits no more. -/
def State.schedGive (s : State) (w : Taker) (n : Nat) : State :=
  let d := s.sched
  { s with sched := { d with used := d.used - n, freshAt := cyc s.now, fresh := (if d.freshAt = cyc s.now then d.fresh else 0) + n,
                             waitCmd := d.waitCmd.filter (· ≠ w), waitCmp := d.waitCmp.filter (· ≠ w) } }

/-! ## Resources of a channel -/

/-- R157: the slots of an output unit that channel `c` holds are free, to be reserved from cycle `at_`. -/
def OutUnit.free (o : OutUnit) (c at_ : Nat) : OutUnit :=
  { o with holder := if o.holder = some c then none else o.holder, freeAt := if o.holder = some c then at_ else o.freeAt,
           sampler := if o.sampler = some c then none else o.sampler, sampAt := if o.sampler = some c then at_ else o.sampAt }

/-- R157: free the drive slots and sample slots that channel `c` holds. -/
def State.freeSlots (s : State) (c : Nat) : State :=
  (s.outs.units.map (·.1)).foldl (fun s u => s.modOu u fun o => o.free c (cyc s.now + 1)) s

def State.setMover (s : State) (mv : Nat) (b : Option Burst) : State :=
  { s with movers := { s.movers with run := tput none s.movers.run mv b } }

/-- R210: the token of mover `mv` returns in the next cycle. -/
def State.retMover (s : State) (mv : Nat) : State :=
  let s := s.setMover mv none
  { s with movers := { s.movers with freeAt := tput 0 s.movers.freeAt mv (cyc s.now + 1) } }

/-- R104: the records of capture unit `j` that started bursts have reserved. -/
def State.capHeld (s : State) (j : Nat) : List CapRec :=
  s.movers.run.flatMap fun p => match p.2 with
    | some b => if (s.chan b.chan).cur.unit - 0x300 = j && b.epoch = (s.cap j).epoch then b.recs else []
    | none => []

/-- R103, R104: its unreserved records, oldest first. -/
def State.capFree (s : State) (j : Nat) : List CapRec := (s.capHeld j).foldl List.erase (s.cap j).fifo

/-- R216: the raw frames of serial interface `i` that no started burst has reserved, oldest first. -/
def State.serFree (s : State) (i : Nat) : List (List Byte) :=
  (s.movers.run.flatMap fun p => match p.2 with
    | some b => if (s.chan b.chan).cur.unit % 8 = i then b.raws else []
    | none => []).foldl List.erase (s.ser i).raw

/-- R216: the mailboxes that channel `c` has reserved are free. -/
def State.freeBox (s : State) (c : Nat) : State :=
  { s with movers := { s.movers with boxes := s.movers.boxes.filter fun x => x.2.2 ≠ c } }

/-- R187, R216: what a held mover has reserved of its unit for burst `b` goes back; records of a FIFO do by the burst's end alone. -/
def State.unclaim (s : State) (b : Burst) : State :=
  let u := (s.chan b.chan).cur.unit
  match unitClass u with
  | .stream => let x := s.stream u
               if x.owner = some b.chan && x.taken = 0 then s.setStream u { x with owner := none } else s
  | .mbox => s.freeBox b.chan
  | _ => s

/-- R185: a mover held for channel `c` with no burst running goes back, with what it has reserved. R189, R239: `all` takes the mover of a
staging burst too, which ends. -/
def State.freeMover (s : State) (c : Nat) (all : Bool := false) : State :=
  let drop := s.movers.run.filter fun p => match p.2 with
    | some b => b.chan = c && ((b.held && b.len = 0) || (all && b.staging))
    | none => false
  drop.foldl (fun s p => ((match p.2 with
    | some b => if b.held && b.len = 0 && (s.chan c).cur.op = 0x01 then s.unclaim b else s
    | none => s).retMover p.1)) s

/-- R146, R246: a receive record that the channel has begun is discarded. -/
def State.freeRecord (s : State) (c : Nat) : State :=
  (s.net.streams.map (·.1)).foldl (fun s r =>
    let x := s.stream r
    if x.owner = some c then s.setStream r { x with owner := none, taken := 0, recs := x.recs.drop 1 } else s) s

/-- R223: the data that staging had read is discarded, and the transfer stands at its start again. -/
def Chan.unread (h : Chan) : Chan :=
  match h.timed with
  | some d => if d.data && (h.cur.op = 0x02 || h.cur.op = 0x30) then
      { h with resid := if h.cur.op = 0x30 then h.cur.sigCount else h.cur.count, daddr := h.cur.addr } else h
  | none => h

/-- R184, R187: what staging took is released; the entry stays. -/
def State.unhold (s : State) (c : Nat) : State :=
  match (s.chan c).timed with
  | none => s
  | some d =>
    let s := (s.freeSlots c).freeMover c
    let s := s.schedGive (.pat c) d.patHeld
    let s := (s.setWalks (s.xl.walks.filter (·.who ≠ Who.stage c))).forget (.stage c)
    let d' : Timed := { d with staging := false, slot := false, data := false, unitOk := false, mover := none,
                               granted := false, pages := [], patNeed := 0, patHeld := 0, buf := [] }
    s.modChan c fun h => { (if h.committed then h else h.unread) with timed := some d' }

/-- R189: a timed command leaves the scheduler with everything it held. -/
def State.freeTimed (s : State) (c : Nat) : State :=
  match (s.chan c).timed with
  | none => s
  | some d =>
    let s := (s.unhold c).schedGive (.cmd c) (b2n d.entry)
    s.modChan c fun h => { h with timed := none }

/-! ## Records (R255, R256) -/

/-- Bytes 0 to 5 of a channel record. -/
def Chan.recHead (h : Chan) (c form : Nat) : List Byte :=
  [BitVec.ofNat 8 form,
   BitVec.ofNat 8 (b2n h.placeHeld + 2 * b2n h.cond + 4 * b2n h.condValid + 8 * b2n h.committed + 16 * h.missCause.toNat)]
  ++ leBytes 2 c ++ leBytes 2 h.status.toNat

/-- R256: the effect time: the locked due time of a timed command, else the instant the record is formed. -/
def Chan.effectTime (h : Chan) (t : Time) : Nat := if h.cur.tm then h.due else t

/-- R256: byte 7. -/
def recByte7 (st : Nat) (tm tag : Bool) : Byte := BitVec.ofNat 8 (st + 16 * b2n tm + 32 * b2n tag)

/-- R256: the intermediate form. -/
def Chan.recPci (h : Chan) (c : Nat) (t : Time) : List Byte :=
  h.recHead c 1 ++ [BitVec.ofNat 8 h.cur.op, recByte7 2 h.cur.tm false] ++ leBytes 6 h.cca ++ [0, 0]
    ++ leBytes 4 h.resid ++ [0, 0, 0, 0] ++ leBytes 8 (h.effectTime t)

/-- R163, R256: the MARK form. -/
def Chan.recMark (h : Chan) (c : Nat) : List Byte :=
  h.recHead c 2 ++ [0x40, recByte7 2 h.cur.tm true] ++ leBytes 6 h.cca ++ [0, 0, 0, 0, 0, 0]
    ++ leBytes 4 h.cur.w1.toNat ++ leBytes 8 h.cur.addr

/-- R256: the final form; a MARK that ends its program gives its TAG and VALUE. -/
def Chan.recFinal (h : Chan) (c : Nat) (st : Nat) (tag : Bool) (t : Time) : List Byte :=
  h.recHead c 3 ++ [h.opcode, recByte7 st h.cur.tm tag] ++ leBytes 6 h.cca ++ [0, 0]
    ++ leBytes 4 h.resid ++ leBytes 4 (if tag then h.cur.w1.toNat else 0)
    ++ leBytes 8 (if tag then h.cur.addr else h.effectTime t)

/-- R256: the FAULTED form. -/
def Chan.recFaulted (h : Chan) (c : Nat) : List Byte :=
  h.recHead c 4 ++ [h.opcode, recByte7 7 false false] ++ leBytes 6 h.cca ++ [0, 0] ++ leBytes 4 h.resid
    ++ leBytes 4 (h.domain + 256 * b2n h.park.isSome + 512 * b2n (h.status.getLsbD stParkLost))
    ++ leBytes 6 h.faultVa ++ [0, 0]

/-! ## Becoming current (R126, R172, R176) -/

/-- R239: what a channel in an end state no longer holds. -/
def Chan.ended (h : Chan) (st : ChanState) : Chan :=
  { h with st := st, committed := false, suspReq := false, inBracket := false, ahead := [], act := .fetch, next := none,
           cont := false, inChain := false, fromTic := false, skipSus := false, fragA := none, fragB := none, frame := [],
           park := none, placed := [], placedAt := none, placedBytes := 0, lockWrites := [], lockBeats := [],
           lockFirst := none, snap := [], clearing := false, recEnded := false, recTaken := 0, chainCount := 0,
           aheadStop := false, tries := 0, leafs := [], tagDue := false, haltAt := none, busAt := none, noAbort := false }

/-- R246, R247: the fields START clears. -/
def Chan.startClear (h : Chan) : Chan :=
  { h with status := 0, missCause := 0, committed := false, placeHeld := false, suspReq := false, cond := false,
           condValid := false, resid := 0, daddr := 0, ebyte := 0, armIdx := 0, armValid := false, armFcnt := 0,
           result := 0, due := 0, opcode := 0 }

/-- R246: CLEAR also clears the current command address. -/
def Chan.clearAll (h : Chan) : Chan := { h.startClear with cca := 0, phy := false, cur := {} }

/-- R241, R242: enter an end state; a CLEAR leaves the fields of R246 clear. -/
def State.enterEnd (s : State) (c : Nat) (st : ChanState) : State :=
  s.modChan c fun h => let z := h.clearing; let h := h.ended st
    if z then { h.clearAll with st := .idle } else h

/-- R244: what a channel keeps when it enters SUSPENDED. -/
def Chan.suspend (h : Chan) : Chan :=
  { h with st := .suspended, suspReq := false, ahead := [], aheadStop := false, tries := 0, leafs := [], act := .fetch,
           committed := false }

/-- R244: the channel enters SUSPENDED. -/
def State.suspend (s : State) (c : Nat) (f : Chan → Chan) : State :=
  ((s.modChan c fun h => f h.suspend).forget (.chan c)).forget (.fetch c)

/-- Everything the channel holds outside its context (R239). -/
def State.freeAll (s : State) (c : Nat) : State :=
  (((((s.freeTimed c).freeSlots c).freeRecord c).freeBox c).forget (.chan c)).forget (.fetch c)

/-- Post a record of channel `c`: `true` where it is committed (R280), and then RECS counts it (R254). -/
def State.chanPost (s : State) (c : Nat) (rec : List Byte) : Bool × State :=
  match (s.chan c).eq with
  | none => (true, s)
  | some q =>
    if !(s.chan c).held.isEmpty then (false, s)
    else match s.eqPost q (.chan c) rec with
      | (true, s) => (true, s.modChan c fun h => { h with recs := h.recs + 1 })
      | r => r

/-- R241, R251: a record finds no credit: it is held, and the channel goes on as `a` says once it is posted. A draining channel
stays in HALT_PENDING. -/
def State.holdRec (s : State) (c : Nat) (rec : List Byte) (final : Bool) (a : After) : State :=
  s.modChan c fun h => { h with held := h.held ++ [{ bytes := rec, final := final }], after := a,
                                st := if h.st = .haltPending then .haltPending else .postPending }

/-- R240, R242: the program ends: every resource returns, the final record is posted in the cycle the channel enters its end
state, or holds the channel. A drain forms it when it finds a credit (R243 step 7): its held bytes are none till then. -/
def State.endProgram (s : State) (c : Nat) (st : ChanState) (tag : Bool) : State :=
  let s := s.freeAll c
  let h := s.chan c
  let fin : ChanState := if h.clearing then .idle else st
  let rec_ := h.recFinal c fin.code tag s.now
  match s.chanPost c rec_ with
  | (true, s) => s.enterEnd c fin
  | (false, s) =>
    (s.modChan c fun h => { h with tagDue := tag }).holdRec c (if h.st = .haltPending then [] else rec_) true
      (if fin = .idle then .idle else .halted)

/-- R134: a status bit ends the program in HALTED. -/
def State.endWith (s : State) (c : Nat) (bits : List Nat) : State :=
  (s.modChan c fun h => h.setSts bits).endProgram c .halted false

/-- R126: the current group fails a check: the residual count holds its word 1. -/
def State.failCheck (s : State) (c b : Nat) : State := (s.modChan c fun h => { h with resid := h.cur.count }).endWith c [b]

/-- R191: the causes of MISSED. -/
def mLimit : Nat := 1
def mTooSoon : Nat := 2
def mPassed : Nat := 3
def mNoEntry : Nat := 4
def mXlate : Nat := 5
def mBus : Nat := 6
def mNoMover : Nat := 7
def mNoSlot : Nat := 8
def mNoUnit : Nat := 9
def mIncomplete : Nat := 10

/-- R189, R191, R239: a timed command ends MISSED, with no effect; its mover returns in that cycle, a staging burst with it. -/
def State.miss (s : State) (c cause : Nat) (bits : List Nat) : State :=
  let s := { s with sched := { s.sched with missCnt := tput 0 s.sched.missCnt cause (tget 0 s.sched.missCnt cause + 1) } }
  let s := s.freeMover c true
  (s.modChan c fun h => { h with missCause := BitVec.ofNat 4 cause, committed := false }).endWith c (stMissed :: bits)

/-- R177: the effective lead, in ticks. -/
def Timed.effLead (d : Timed) : Nat := max (us d.lead) (ns d.commit + us 1)

/-- R128, R130: predict the due time of the command that waits in channel `c`. -/
def State.predictDue (s : State) (c : Nat) : Option Time :=
  let g := (s.chan c).cur
  s.predictAt g.sCell g.sPhase g.sFrac g.sDir g.lapTurn s.now

/-- R199: with LAP = 1 and DIR forward or reverse, the target lies behind: the signed distance from the integer and interpolated
position to the target, in that direction, is 0 or less. -/
def State.lapBehind (s : State) (g : Group) : Bool :=
  let c := s.cell g.sCell
  if !g.sLap || g.sDir = 2 then false
  else
    let laps : Int := (BitVec.ofInt 16 ((g.sTurn : Int) - c.turn.toInt)).toInt
    let d : Int := laps * c.modN * 65536 + ((g.sPhase : Int) - c.phase.toNat) * 65536 + g.sFrac
      - (s.fracOf g.sCell s.now).toNat
    if g.sDir = 0 then decide (d ≤ 0) else decide (0 ≤ d)

/-- R251: the due time a channel's context shows. -/
def State.setDue (s : State) (c : Nat) (due : Option Time) : State :=
  s.modChan c fun h => { h with due := due.getD 0, timed := h.timed.map fun d => { d with due := due } }

/-- R190: a prediction becomes available after a time without one: too soon ends the command, else it is noted. -/
def State.newPrediction (s : State) (c : Nat) (due : Option Time) : State :=
  match due, (s.chan c).timed with
  | some x, some d =>
    if x < s.now + ns d.commit then (s.miss c (if d.entry then mTooSoon else mNoEntry) [])
    else s.setDue c due
  | _, _ => s.setDue c due

/-- R130: while the stamp's phase is not below the modulus the status shows OUT_OF_RANGE; a bit that an earlier command noted stays. -/
def Chan.oorNow (h : Chan) (oor : Bool) : Chan :=
  match h.timed with
  | some d =>
    if oor then
      { h.setSt stOutOfRange with timed := some { d with oor := d.oor || !h.status.getLsbD stOutOfRange } }
    else if d.oor then { h.clrSt stOutOfRange with timed := some { d with oor := false } }
    else h
  | none => h

def State.noteOor (s : State) (c : Nat) : State :=
  let g := (s.chan c).cur
  s.modChan c fun h => h.oorNow (decide ((s.cell g.sCell).modN ≤ g.sPhase))

/-- R162: LO or HI is not below the modulus. -/
def State.gladeOor (s : State) (g : Group) : Bool :=
  let m := (s.cell g.gladeCell).modN
  decide (m ≤ g.w2.toNat) || decide (m ≤ g.w3.toNat)

/-- R162: a GLADE that waits notes OUT_OF_RANGE. -/
def State.gladeNote (s : State) (c : Nat) : State :=
  match (s.chan c).act with
  | .glade _ => if s.gladeOor (s.chan c).cur then s.modChan c fun h => h.setSt stOutOfRange else s
  | _ => s

/-- R244: the channel is suspended where it stands; a transfer goes on from its context on RESUME, anything else starts over. -/
def State.suspendNow (s : State) (c : Nat) : State :=
  let h := s.chan c
  let go := match h.act with | .unit _ => true | _ => false
  (s.freeTimed c).suspend c fun h => { h with cont := go, skipSus := h.cur.sus, due := 0 }

/-- R244: a SUSPEND accepted before takes effect at once where the channel is WAITING, or STAGED before commit. -/
def State.suspWait (s : State) (c : Nat) : State :=
  let h := s.chan c
  if h.suspReq && !h.committed && (h.st = .waiting || h.st = .staged) then s.suspendNow c else s

/-- R241: the channel begins to wait; one that drains, and whose committed command runs on (R194), stays in HALT_PENDING. -/
def State.enterWait (s : State) (c : Nat) (a : Act) : State :=
  (s.modChan c fun h => { h with act := a, st := if h.st = .haltPending then .haltPending else .waiting }).suspWait c

/-- R176: Entry of a timed command. R129: its limit runs from the cycle it became current in. -/
def State.timedEntry (s : State) (c : Nat) : State :=
  let h := s.chan c
  let g := h.cur
  let d : Timed := { lead := fld h.timing 0 10, commit := fld h.timing 16 13, enteredAt := s.now,
                     limit := g.limit.map (cyc s.now * ticksPerCycle + ·) }
  let s := s.setChan c { h with timed := some d, st := .waiting, act := .sched, placeHeld := false, due := 0 }
  let s := s.noteOor c
  if s.lapBehind g then s.miss c mPassed []
  else match s.schedTake (.cmd c) with
    | (false, s) => s.suspWait c
    | (true, s) =>
      let s := s.modChan c fun h => { h with timed := h.timed.map fun d => { d with entry := true } }
      (s.newPrediction c (s.predictDue c)).suspWait c

/-- R141, R142: the first fragment of a table is still to be read. -/
def fragAt (a : Nat) (phy : Bool) : Frag := { tab := a, tabPhy := phy }

/-- Opcodes that move data, and so set the residual count and the data address. -/
def moves (op : Nat) : Bool := [0x01, 0x02, 0x05, 0x06, 0x07, 0x08].contains op

/-- The transfer's start: residual count and data address (R254), and the tables of IDX, DIDX and BIDX. A command that moves no data
leaves both as they stood (log 17). -/
def Chan.begin (h : Chan) : Chan :=
  let g := h.cur
  let pat := g.op = 0x30 && g.sigMode = 2
  { h with resid := if moves g.op then g.count else if pat then g.sigCount else h.resid,
           daddr := if moves g.op || pat || g.op = 0x04 then g.addr else h.daddr,
           ebyte := if g.op = 0x08 then 0 else h.ebyte, frame := if pat then [] else h.frame, snap := if h.inChain then h.snap else [],
           fragA := if g.idx then some (fragAt g.addr g.phy) else none,
           fragB := if g.didx then some (fragAt g.opLo g.dphy) else if g.bidx then some (fragAt g.opLo g.bphy) else none }

/-- R243: a channel that drains stays in HALT_PENDING while its bracket runs on. -/
def ChanState.going : ChanState → ChanState
  | .haltPending => .haltPending
  | _ => .active

/-- R172, R164, R176, R241: the current group of channel `c` has passed the rows down to the bracket; the rest is judged, and it begins. -/
def State.passChecks (s : State) (c : Nat) : State :=
  let h := s.chan c
  let g := h.cur
  match groupCheckB h (s.dom h.domain).phyOk g with
  | some b => s.failCheck c b
  | none =>
    if (h.st = .startPending && h.suspReq) || (g.sus && !h.skipSus) then s.suspend c fun h => { h with skipSus := g.sus }
    else
      let s := s.modChan c fun h =>
        let h := if h.cont then h else h.begin
        { h with st := h.st.going, act := .ready, skipSus := false, cont := false,
                 chainOp := if h.inChain then h.chainOp else g.op, chainUnit := if h.inChain then h.chainUnit else g.unit }
      if g.tm then s.timedEntry c else s

/-- R168, R172: a LOCK is current: its whole bracket is fetched and checked before anything else is. -/
def State.bracketCheck (s : State) (c : Nat) : State :=
  let h := s.chan c
  match bracketOf h.phy (h.cca + h.cur.size) [] h.ahead with
  | .more => s.setChan c { h with act := .bracket }
  | .bad => s.failCheck c stProgramCheck
  | .ok l =>
    match groupCheckB h (s.dom h.domain).phyOk h.cur with
    | some b => s.failCheck c b
    | none => if physBad (s.dom h.domain).phyOk (l.flatMap physRanges) then s.failCheck c stProtection else s.passChecks c

/-- R126, R172: group `g` becomes the current command of channel `c`. -/
def State.makeCurrent (s : State) (c : Nat) (g : Group) : State :=
  let s := s.modChan c fun h => { h with cur := g, opcode := BitVec.ofNat 8 g.op, currentAt := s.now, act := .ready, tries := 0 }
  match groupCheckA (s.chan c) g with
  | some b => s.failCheck c b
  | none => if g.op = 0x38 then s.bracketCheck c else s.passChecks c

/-- Go to the group at the current command address: a prefetched one becomes current at once, another is fetched (R132, R137). -/
def State.goCurrent (s : State) (c : Nat) : State :=
  let h := s.chan c
  match h.ahead with
  | (k, g) :: r =>
    if k = grpKey h.cca h.phy then (s.setChan c { h with ahead := r, aheadStop := false }).makeCurrent c g
    else (s.setChan c { h with ahead := [], aheadStop := false, act := .fetch, st := h.st.going }).forget (.fetch c)
  | [] => s.setChan c { h with act := .fetch, aheadStop := false, st := h.st.going }

/-- R133: the command of channel `c` has completed and its records are posted: the chain goes on, or the program ends. An accepted
SUSPEND takes effect at this completion (R244); a draining channel stops here (R243). -/
def State.advance (s : State) (c : Nat) : State :=
  let h0 := s.chan c
  let h := { h0 with committed := false }
  let g := h.cur
  if h.st = .haltPending && !h.inBracket then s.setChan c { h with act := .fetch }
  else
    let seq := h.cca + g.size
    let go (h : Chan) : State :=
      if h.suspReq && !h.inBracket then (s.setChan c h).suspend c id
      else (s.setChan c h).goCurrent c
    if g.cd then
      go { h with cca := seq, inChain := true, fromTic := false, act := .fetch }
    else match h.next with
      | some (a, phy) =>
        go { h with cca := a, phy := phy, inChain := false, fromTic := g.op = 0x10, next := none, act := .fetch,
                    chainCount := 0, recEnded := false, recTaken := 0 }
      | none =>
        if g.cc && g.op ≠ 0x10 then
          go { h with cca := seq, inChain := false, fromTic := false, act := .fetch, chainCount := 0, recEnded := false,
                      recTaken := 0 }
        else s.endProgram c .idle (g.op = 0x40)

/-- R133: the command, once complete, ends the program. -/
def Chan.endsHere (h : Chan) : Bool := !h.cur.cd && h.next.isNone && !(h.cur.cc && h.cur.op ≠ 0x10)

/-- R165, R176: the command completes with no ending condition: its resources return; PCI posts an intermediate record unless the
program ends here, where the final record takes its place; then the channel goes on. R169, R194: the same for one that a drain lets run
to its end. -/
def State.complete (s : State) (c : Nat) : State :=
  let s := s.freeTimed c
  let h := s.chan c
  if h.cur.pci && !h.endsHere then
    let r := h.recPci c s.now
    match s.chanPost c r with
    | (true, s) => s.advance c
    | (false, s) => s.holdRec c r false .go
  else s.advance c

/-- Go on once every held record is posted (R241 POST_PENDING row, R251). -/
def State.settle (s : State) (c : Nat) : State :=
  let h := s.chan c
  if h.st = .haltPending && h.after ≠ .idle && h.after ≠ .halted then s.setChan c { h with committed := false }
  else match h.after with
    | .go => (s.setChan c { h with st := .active }).advance c
    | .idle => s.enterEnd c .idle
    | .halted => s.enterEnd c .halted
    | .faulted => s.setChan c { h with st := .faulted }

/-- R187: a STAGED command returns to WAITING. -/
def State.unstage (s : State) (c : Nat) : State :=
  (s.unhold c).modChan c fun h => if h.st = .staged then { h with st := .waiting } else h

/-- The keys of the channels that stand off reset. -/
def State.chanKeys (s : State) : List Nat := s.chans.map (·.1)

end Sys2Proof.Machine
end

