-- ==== Sys2Proof/Machine/TimedOps.lean ====
section
/-! DEFINITION. How steps of a counter cell act on timed commands and on pattern edges placed by position (R180, R187, R190 to R195,
R197 to R199, R551). -/

namespace Sys2Proof.Machine

/-- R56, R57: a step of a cell as those that watch it see it. `k` is the signed count in the cell's own direction. -/
structure StepEv where
  cell : Nat := 0
  k : Int := 0
  mod : Nat := 1
  oldPhase : Int := 0
  oldTurn : Int := 0
  /-- R198: the previous step reached the count above. -/
  oldUp : Bool := false
  short : Bool := false
  phase : Nat := 0
  turn : Int := 0
  stamp : Time := 0
  deriving DecidableEq, Repr

/-- R82: the step's direction qualifies. -/
def StepEv.qualifies (e : StepEv) (dir : Nat) : Bool :=
  if 0 < e.k then dir ≠ 1 else dir ≠ 0

/-- Whether some j from a to b has `t0 + j` equal to `n` modulo 2^16 (any j where no turn is asked). -/
def lapIn (t0 a b : Int) : Option Nat → Bool
  | none => decide (a ≤ b)
  | some n => decide (a + ((n : Int) - t0 - a) % 65536 ≤ b)

/-- R198: the step passes the target PHASE + FRAC / 65536 (on the turn asked): the target lies between the old position and the
position the step reaches, or equals it. -/
def StepEv.passes (e : StepEv) (phase frac dir : Nat) (lap : Option Nat) : Bool :=
  let m : Int := (e.mod : Int) * 65536
  let t : Int := (phase : Int) * 65536 + frac
  if e.k = 0 || !e.qualifies dir || decide (m ≤ t) then false
  else if e.short then decide (0 < e.k) && decide (t = 0) && lapIn e.turn 0 0 lap
  else
    let up : Int := if e.oldUp then 1 else 0
    if 0 < e.k then
      let hi := (e.oldPhase + e.k) * 65536
      let lo := min ((e.oldPhase + up) * 65536) (hi - 1)
      lapIn e.oldTurn ((lo - t) / m + 1) ((hi - t) / m) lap
    else
      let lo := (e.oldPhase + e.k + 1) * 65536
      let hi := max ((e.oldPhase + up) * 65536) (lo + 1)
      lapIn e.oldTurn (-((t - lo) / m)) (-((t - hi) / m) - 1) lap

/-- R50: the model of cell `n` is that of cell `m`, or of one it cascades from. -/
def State.modelOf (s : State) (m : Nat) : Nat → Bool
  | 0 => m == 0
  | n + 1 => m == n + 1 || ((s.cell (n + 1)).mode == 5 && s.modelOf m n)

/-- R192: a new prediction of a committed command is held within the present + 16 ns and P_c + COMMIT. -/
def holdWindow (now pc commit : Nat) (x : Time) : Time × Bool :=
  let lo := now + ns 16
  let hi := pc + ns commit
  if x < lo then (lo, true) else if hi < x then (hi, true) else (x, false)

/-- R192: PLACE_HELD. -/
def State.placeHeld (s : State) (c : Nat) : State := s.modChan c fun h => { h with placeHeld := true }

/-- R192, R197: the due time holds at its last accepted value from now on. -/
def State.holdDue (s : State) (c : Nat) : State :=
  s.modChan c fun h => { h with placeHeld := true, timed := h.timed.map fun (d : Timed) => { d with held := true } }

/-- R192: a committed, unlocked command whose due time does not hold receives a new prediction; where there is none, it holds. -/
def State.refine (s : State) (c : Nat) (d : Timed) (pc : Time) : State :=
  match s.predictDue c with
  | none => s.holdDue c
  | some x =>
    let (y, held) := holdWindow s.now pc d.commit x
    let s := s.setDue c (some y)
    if held then s.placeHeld c else s

/-- R187, R190: an uncommitted command's prediction changes. -/
def State.rePredict (s : State) (c : Nat) (d : Timed) : State :=
  if !d.entry then s
  else
    let x := s.predictDue c
    match d.due, x with
    | none, _ => s.newPrediction c x
    | some _, none => (s.setDue c none).unstage c
    | some _, some y =>
      let s := s.setDue c x
      if s.now + 2 * d.effLead < y then s.unstage c else s

/-- R180, R192, R198, R551: after a step of its cell (or of the cell its model comes from). -/
def State.timedStep (s : State) (e : StepEv) (c : Nat) : State :=
  let h := s.chan c
  match h.timed with
  | none => s
  | some d =>
    let g := h.cur
    if !s.modelOf e.cell g.sCell then s
    else match d.committed with
      | some pc => if d.locked || d.held then s else s.refine c d pc
      | none =>
        let s := s.noteOor c
        if g.sCell = e.cell && cyc d.enteredAt ≠ cyc s.now && e.passes g.sPhase g.sFrac g.sDir g.lapTurn then
          s.miss c (if d.entry then mPassed else mNoEntry) []
        else s.rePredict c d

/-- What else changes a cell's predictions. -/
inductive Change where
  /-- The cell is loaded (R197, R199). -/
  | load
  /-- Its modulus is written (R130, R192). -/
  | modulus
  /-- It stops predicting, or its rate changes. -/
  | other
  deriving DecidableEq, Repr

/-- R197: interference with the timed command of channel `c`. -/
def State.timedChange (s : State) (n : Nat) (k : Change) (c : Nat) : State :=
  let h := s.chan c
  match h.timed with
  | none => s
  | some d =>
    let g := h.cur
    if !s.modelOf n g.sCell then s
    else match d.committed with
      | some pc =>
        if d.locked || d.held then s
        else match k with
          | .other => s.refine c d pc
          | _ => if g.sCell = n then s.holdDue c else s.refine c d pc
      | none =>
        let s := s.noteOor c
        if k = .load && g.sCell = n && s.lapBehind g then s.miss c mPassed []
        else s.rePredict c d

/-! ## Pattern edges placed by position (R195, R345) -/

/-- The channel's stamp gives cell and direction; an arrival at or before the edge before does not count. -/
def State.predictEdge (s : State) (o : OutUnit) (p : PatEntry) : Option Time :=
  match o.holder with
  | none => none
  | some c =>
    let g := (s.chan c).cur
    s.predictAt g.sCell p.value.toNat p.frac.toNat g.sDir none (max s.now o.lastEdge)

/-- R192, R195: a committed edge holds at its last accepted prediction from now on. -/
def State.holdEdge (s : State) (u c : Nat) : State := (s.modOu u fun o => { o with posHeld := true }).placeHeld c

/-- R195: the edge at the head of unit `u`'s pattern, after a step `e` of cell `n` (none: the other change `k`). A command has one
commit point (R195: the commit of a SIGNAL commits every edge), so an edge that waits for its own commit instant still follows new
predictions, and a step that passes its target places it (DESIGN CHOICE, log 56). -/
def State.edgeChange (s : State) (e : Option StepEv) (k : Change) (n u : Nat) : State :=
  let o := s.ou u
  match o.pat, o.holder with
  | p :: _, some c =>
    let g := (s.chan c).cur
    if !p.pos || o.posLocked || o.posHeld || o.posPassed.isSome || !s.modelOf n g.sCell then s
    else
      let passed := match e with
        | some e => g.sCell = e.cell && decide (o.lastEdge < s.now) && e.passes p.value.toNat p.frac.toNat g.sDir none
        | none => false
      match o.posCommitted with
      | some pc =>
        if k ≠ .other && g.sCell = n then s.holdEdge u c
        else (match s.predictEdge o p with
         | none => s.holdEdge u c
         | some x =>
           let (y, held) := holdWindow s.now pc ((s.chan c).timed.map (·.commit) |>.getD 0) x
           let s := s.setOu u { o with posDue := some y }
           if held then s.placeHeld c else s)
      | none =>
        if passed then (s.setOu u { o with posPassed := some (s.now + 1) }).placeHeld c
        else match s.predictEdge o p with
          | some x => s.setOu u { o with posDue := some x, posSeen := true }
          | none => if o.posSeen then s.placeHeld c else s
  | _, _ => s

/-- The output units that stand off reset. -/
def State.unitKeys (s : State) : List Nat := s.outs.units.map (·.1)

/-- R180: a step reaches every timed command and pattern edge of its cell, in ascending channel order. -/
def State.watchStep (s : State) (e : StepEv) : State :=
  let s := s.chanKeys.foldl (fun s c => s.timedStep e c) s
  s.unitKeys.foldl (fun s u => s.edgeChange (some e) .other e.cell u) s

/-- R162, R197: another change of cell `n` reaches them, and a new modulus reaches the GLADEs. -/
def State.watchChange (s : State) (n : Nat) (k : Change) : State :=
  let s := s.chanKeys.foldl (fun s c => s.timedChange n k c) s
  let s := if k = .modulus then s.chanKeys.foldl (fun s c => s.gladeNote c) s else s
  s.unitKeys.foldl (fun s u => s.edgeChange none k n u) s

end Sys2Proof.Machine
end

