-- ==== Sys2Proof/Machine/Cells.lean ====
section
/-! DEFINITION. Steps and loads of counter cells, and what they set off in the same cycle: cascades (R96), compare firings (R81 to R97),
captures (R99 to R106), timed commands and pattern edges. -/

namespace Sys2Proof.Machine

/-! ## Capture units (R99 to R106) -/

/-- R101: where a cell stands, as a kept position. -/
def Cell.posNow (c : Cell) (held frozen : Bool) (since : Time) : PastPos :=
  { since := since, held := held, frozen := frozen, ctrl := c.ctrl, mod := c.mod, rate := c.rate, pausedAt := c.pausedAt,
    loadAt := c.loadAt, turn := c.turn, phase := c.phase, frac := c.frac, est := c.est, odo := c.odo, hist := c.hist,
    origin := c.origin, acc := c.acc, divAct := c.divAct }

/-- R101: positions are kept for 4.096 µs, and the one in force before that. -/
def keepPast (now : Time) : List PastPos → List PastPos
  | [] => []
  | p :: r => if p.since + us 4 + ns 96 ≤ now then [p] else p :: keepPast now r

/-- What the cell shows changes at instant `since` (the state before it is kept where nothing was). -/
def Cell.remember (old new : Cell) (held frozen : Bool) (since now : Time) : Cell :=
  let past := if old.past.isEmpty then [old.posNow false false 0] else old.past
  { new with past := keepPast now (new.posNow held frozen since :: past) }

/-- Cell `n` becomes `c` at the present instant, and where it stood before is kept for captures. -/
def State.putCell (s : State) (n : Nat) (c : Cell) : State :=
  s.setCell n ((s.cell n).remember c (s.held n) (s.frozen n) s.now s.now)

/-- R101: the kept position of a cell at instant `ts`, as the cell of that time, held or frozen as it then was; the present cell where
nothing is kept. -/
def State.cellAt (s : State) (n : Nat) (ts : Time) : Cell × Bool × Bool :=
  let c := s.cell n
  let at_ (p : PastPos) : Cell × Bool × Bool :=
    ({ c with ctrl := p.ctrl, mod := p.mod, rate := p.rate, pausedAt := p.pausedAt, loadAt := p.loadAt, turn := p.turn, phase := p.phase,
              frac := p.frac, est := p.est, odo := p.odo, hist := p.hist, origin := p.origin, acc := p.acc, divAct := p.divAct },
     p.held, p.frozen)
  match c.past.find? (fun p => p.since ≤ ts) with
  | some p => at_ p
  | none => match c.past.getLast? with
    | some p => at_ p
    | none => (c, s.held n, s.frozen n)

/-- R101: the fraction of cell `n` at instant `ts`, and whether its estimator was then in LINEAR, FULL or EXACT: of the cells as they
then were, those that a CASCADE cell follows too (R50). -/
def State.fracPast (s : State) : Nat → Time → BitVec 16 × Bool
  | 0, ts => let (c, _, frozen) := s.cellAt 0 ts
    if frozen then (if c.exactMode then c.fracAt ts else c.frac, false)
    else (c.fracAt ts, c.est == .linear || c.est == .full || c.est == .exact)
  | n + 1, ts =>
    let (c, held, frozen) := s.cellAt (n + 1) ts
    if frozen then (if c.exactMode then c.fracAt ts else c.frac, false)
    else if c.en && c.mode = 5 && !held then
      let (p, _, _) := s.cellAt n ts
      let (f, v) := s.fracPast n ts
      (clampFrac ((65536 * p.phase.toNat + f.toNat) / p.modN : Nat), v)
    else (c.fracAt ts, c.est == .linear || c.est == .full || c.est == .exact)

/-- R101: turn, phase and fraction a capture records for cell `n` at time stamp `ts`, with EST_VALID. -/
def State.captureAt (s : State) (n : Nat) (ts : Time) : BitVec 48 × Word × BitVec 16 × Bool :=
  let (c, _, _) := s.cellAt n ts
  (c.turn, c.phase, s.fracPast n ts)

/-- R105, R92: the record of a capture is posted, held, or coalesced with the one that waits. -/
def State.capRecord (s : State) (j : Nat) (r : CapRec) : State :=
  let u := s.cap j
  let chan := fld u.chan 0 12
  match u.pend with
  | some p => s.setCap j { u with pend := some { p with count := p.count + 1 } }
  | none =>
    match (s.chan chan).eq with
    | none => s
    | some q =>
      let p : CapPend := { data := r, cell := u.cell, count := 1, chan := chan }
      match s.eqPost q (.cap j) (p.bytes j) with
      | (true, s) => s
      | (false, s) => s.modCap j fun u => { u with pend := some p }

/-- The compare unit that a channel waits on, as what it is woken by: 4096 and its number; a unit of R143 stands for itself. -/
def Act.waitsOn : Act → Option Nat
  | .waitUnit u _ => some u
  | .waitCmp k _ => some (4096 + k)
  | _ => none

/-- R160, R204, R91 step 3: wake the channels that wait on `k`, in ascending order, 16 in each 2 CLK_E cycles. -/
def State.wakeWaiters (s : State) (k : Nat) : State :=
  let l := s.chanKeys.filter fun c => (s.chan c).act.waitsOn = some k
  (l.zip (List.range l.length)).foldl (fun s p =>
    s.modChan p.1 fun h => { h with act := .woken k (cyc s.now + 2 * (p.2 / 16)) }) s

/-- Wake the channels that wait on unit `u` (R160). -/
def State.wakeUnit (s : State) (u : Nat) : State := s.wakeWaiters u

/-- Wake the channels that wait on compare unit `k` (R91 step 3). -/
def State.wakeCmp (s : State) (k : Nat) : State := s.wakeWaiters (4096 + k)

/-- R100 to R105: capture unit `j` accepts an edge with time stamp `ts`. -/
def State.capAccept (s : State) (j : Nat) (ts : Time) (rising : Bool) : State :=
  let u := s.cap j
  if u.pcnt + 1 < fld u.presc 0 16 + 1 then s.setCap j { u with pcnt := u.pcnt + 1 }
  else
    let (turn, phase, frac, est) := s.captureAt u.cell ts
    let r : CapRec := { phase := phase, frac := frac, turn := turn.setWidth 16, time := ts, edge := rising, ovf := u.ovfBefore,
                        est := est }
    let full := decide (8 ≤ u.fifo.length)
    let r' := if full then { r with ovf := true } else r
    let u := if full then { u with pcnt := 0, ovf := true, ovfCnt := satInc u.ovfCnt, ovfBefore := true }
      else { u with pcnt := 0, fifo := u.fifo ++ [r], ovfBefore := false }
    let s := (s.setCap j u).wakeUnit (0x300 + j)
    let s := if u.irq then s.cicEdge (256 + j) else s
    if u.evt then s.capRecord j r' else s

/-! ## Compare units -/

/-- R57, R90: how many times the step moves the phase onto `v`. -/
def StepEv.count (e : StepEv) (v : Nat) : Nat :=
  if e.mod ≤ v then 0
  else if e.short then (if e.phase = v then 1 else 0)
  else
    let m : Int := e.mod
    if 0 < e.k then ((e.oldPhase + e.k - v) / m - (e.oldPhase - v) / m).toNat
    else ((v - e.oldPhase - e.k) / m - ((v : Int) - e.oldPhase) / m).toNat

/-- R86: the modular distance. -/
def modDist (a b m : Nat) : Nat :=
  let d := (((a : Int) - b) % m).toNat
  min d (m - d)

/-- R93: an armed unit takes a scheduler entry, or is armed without one. -/
def State.cmpTakeEntry (s : State) (k : Nat) : State :=
  if (s.cmp k).entry || s.sched.waitCmp.contains (.cmp k) then s
  else match s.schedTake (.cmp k) with
    | (true, s) => s.modCmp k fun u => { u with entry := true }
    | (false, s) => s

/-- R93: a unit that disarms returns its entry, or waits for none. -/
def State.cmpGiveEntry (s : State) (k : Nat) : State :=
  (s.schedGive (.cmp k) (b2n (s.cmp k).entry)).modCmp k fun u => { u with entry := false, due := none }

/-- R93, R181: the predicted firing time the entry carries; none in HYST_WAIT. -/
def State.cmpPredict (s : State) (k : Nat) : State :=
  let u := s.cmp k
  if !u.entry then s
  else s.setCmp k { u with due :=
    if u.armed then s.predictAt u.cell u.phase.toNat 0 u.dirQ (if u.turnEn then some u.turnN else none) s.now else none }

/-- R93, R162, R197: something other than a step changes the predictions of cell `n`: those that watch it follow, and so do the firing
times that the entries of compare units carry. -/
def State.cellChange (s : State) (n : Nat) (k : Change) : State :=
  let s := s.watchChange n k
  (s.cmps.map (·.1)).foldl (fun s j => if s.modelOf n (s.cmp j).cell then s.cmpPredict j else s) s

/-- R89: a unit armed out of range, or put out of range, posts one OUT_OF_RANGE record. A unit that is neither armed nor in HYST_WAIT
posts none (DESIGN CHOICE, log 16: R89 does not say whether a CELL_MOD write does so for a unit that is not armed). -/
def State.cmpOorRecord (s : State) (k : Nat) : State :=
  let u := s.cmp k
  if !u.evt || u.oorDone || !(u.armed || u.hystWait) || !s.cmpOor u then s
  else
    let r : CmpRec := { cell := u.cell, phase := u.phase, turn := (s.cell u.cell).turn.setWidth 16, time := s.now, chan := u.chan }
    let s := s.setCmp k { u with oorDone := true }
    match (s.chan u.chan).eq with
    | none => s
    | some q =>
      match s.eqPost q (.cmpOor k) (r.bytes k true) with
      | (true, s) => s
      | (false, s) => s.modCmp k fun u => { u with oorPend := some r }

/-- R89: a value back in range allows the next such record. -/
def State.cmpRangeCheck (s : State) (k : Nat) : State :=
  let u := s.cmp k
  if s.cmpOor u then s.cmpOorRecord k else s.setCmp k { u with oorDone := false }

/-- Arm unit `k` (R80, R97): steps up to cycle `at_` do not count; none counts steps of the present cycle too. -/
def State.cmpArm (s : State) (k : Nat) (at_ : Option Nat) : State :=
  let s := s.modCmp k fun u => { u with armed := true, hystWait := false, armedAt := at_ }
  ((s.cmpTakeEntry k).cmpOorRecord k).cmpPredict k

/-- Disarm unit `k`. -/
def State.cmpDisarm (s : State) (k : Nat) : State :=
  (s.modCmp k fun u => { u with armed := false, hystWait := false }).cmpGiveEntry k

/-- R91 step 6, R92: the firing record is posted, held, or coalesced. -/
def State.cmpRecord (s : State) (k : Nat) (phase : Word) (e : StepEv) : State :=
  let u := s.cmp k
  match u.pend with
  | some p => s.setCmp k { u with pend := some { p with count := p.count + 1 } }
  | none =>
    match (s.chan u.chan).eq with
    | none => s
    | some q =>
      let r : CmpRec := { cell := u.cell, phase := phase, turn := BitVec.ofInt 16 e.turn, time := e.stamp, count := 1,
                          chan := u.chan }
      match s.eqPost q (.cmp k) (r.bytes k false) with
      | (true, s) => s
      | (false, s) => s.modCmp k fun u => { u with pend := some r }

/-- R85 mode 10, R87: the advanced value, the turn it gains, and whether the rest of the step passes it too. -/
def Cmp.advanced (u : Cmp) (m : Nat) : Word × Int :=
  let v : Int := (u.phase.toNat : Int) + u.incr.toInt
  (BitVec.ofInt 32 (v % m), v / m)

/-- R85, R87, R91: unit `k` fires on step `e`, which passes its value `n` times. In mode 10 a step that passes the advanced value too,
before or after the value itself, sets OVERRUN: R87 says "passes both" and names no order (log 16). -/
def State.cmpFire (s : State) (k : Nat) (e : StepEv) (n : Nat) : State :=
  let u := s.cmp k
  let phase := u.phase
  let (v, laps) := u.advanced e.mod
  let again := u.repeat_ = 2 && decide (v ≠ phase) && decide (0 < e.count v.toNat)
  let u := if u.repeat_ = 2 then
      { u with phase := v,
               turn := if u.turnEn then setFld u.turn 0 16 (BitVec.ofInt 16 ((u.turnN : Int) + laps)).toNat else u.turn }
    else u
  let u := { u with fired := true, fcnt := u.fcnt + 1, ft := e.stamp, fireAt := some (cyc s.now), overrun := u.overrun || decide (1 < n) || again }
  let s := (s.setCmp k u).wakeCmp k
  let s := if u.irq then s.cicEdge k else s
  let s := if u.evt then s.cmpRecord k phase e else s
  let s :=
    if u.repeat_ = 0 then
      (s.modCmp k fun u => { u with ctrl := if u.chain then u.ctrl else setFld u.ctrl 0 1 0 }).cmpDisarm k
    else if u.repeat_ = 1 && u.hyst ≠ 0 then
      (s.modCmp k fun u => { u with armed := false, hystWait := true, due := none })
    else s.cmpRangeCheck k
  -- R97: a firing arms the chained unit above, as of the start of this cycle
  let n' := s.cmp (k + 1)
  if k < 255 && n'.en && n'.chain then s.cmpArm (k + 1) none else s

/-- R81 to R86: unit `k` sees the steps of one cycle; answers whether it fired, with its step. -/
def State.cmpStep (s : State) (evs : List StepEv) (k : Nat) : State × Option StepEv :=
  let u := s.cmp k
  match evs.find? (fun e => e.cell == u.cell) with
  | none => (s, none)
  | some e =>
    if !u.en then (s, none)
    else if u.hystWait then
      if u.hyst ≤ e.mod / 2 && u.hyst ≤ modDist e.phase u.phase.toNat e.mod then
        (s.cmpArm k (some (cyc s.now)), none)
      else (s, none)
    else if !u.armed || (match u.armedAt with | some a => decide (cyc s.now ≤ a) | none => false) then (s, none)
    else
      let n := e.count u.phase.toNat
      if n = 0 || !e.qualifies u.dirQ || s.cmpOor u
          || (u.turnEn && BitVec.ofInt 16 e.turn ≠ BitVec.ofNat 16 u.turnN) then (s, none)
      else (s.cmpFire k e n, some e)

/-- The units that stand off reset. -/
def State.cmpKeys (s : State) : List Nat := s.cmps.map (·.1)
def State.capKeys (s : State) : List Nat := s.caps.map (·.1)

/-- All units see the steps, in ascending order; the fired ones with their steps. -/
def State.fireUnits (s : State) (evs : List StepEv) : State × List (Nat × StepEv) :=
  s.cmpKeys.foldl (fun p k =>
    match p.1.cmpStep evs k with
    | (s, some e) => (s, p.2 ++ [(k, e)])
    | (s, none) => (s, p.2)) (s, [])

/-- R91 step 4: capture units that select a fired compare unit accept an edge. -/
def State.fireCaptures (s : State) (fired : List (Nat × StepEv)) : State :=
  s.capKeys.foldl (fun s j =>
    fired.foldl (fun s p =>
      let u := s.cap j
      if u.en && u.kind = 5 && u.index = p.1 then s.capAccept j p.2.stamp true else s) s) s

/-! ## Moving a cell -/

/-- R56, R59: the position after a step of `k` counts with modulus `m`: phase, turn, laps ended (signed), SHORT_LAP. A multi-count
step that ends a lap early lands where R59 and R90 say (log 14). -/
def Cell.move (c : Cell) (k : Int) (m : Nat) : Word × BitVec 48 × Int × Bool :=
  if m ≤ c.phase.toNat then
    if 0 < k then (0, c.turn + 1, 1, true) else (BitVec.ofNat 32 (m - 1), c.turn, 0, true)
  else
    let p := (c.phase.toNat : Int) + k
    (BitVec.ofInt 32 (p % m), c.turn + BitVec.ofInt 48 (p / m), p / m, false)

/-- R58, R64, R70, R198: the cell after a step of `k` counts, stamped; `smp` is the sample's position in half counts. A phase step that
a MAINS or MIRROR cell makes between its samples is no sample and leaves their time stamps alone (R47, R54, R69, R74). -/
def Cell.stepped (c : Cell) (k : Int) (stamp now : Time) (smp : Option Int) : Cell × Int × Bool :=
  let (phase, turn, laps, short) := c.move k (c.modFor now)
  let fwd := decide (0 < k)
  let c1 := { c with phase := phase, turn := turn, odo := c.odo + k, frac := if fwd then 0 else 0xFFFF, reachUp := !fwd, predLin := c.predLinear,
                     flags := if short then c.flags ||| 0x100 else c.flags }
  let c2 := match smp with
    | some p => c1.sample fwd { time := stamp, pos2 := p }
    | none => if c.mode = 3 || c.mode = 7 then c1 else { c1 with prevT := c1.lastT, lastT := some stamp }
  let c3 := { c2 with dir := if fwd then 0 else 1, loadAt := none }
  (c.remember c3 false false stamp now, laps, short)

/-- R63: the sample's position of a step onto count `odo`: the boundary crossed; a serial word stands half a count up (R41). -/
def Cell.samplePos (c : Cell) (k : Int) : Option Int :=
  let o := c.odo + k
  match c.mode with
  | 2 => some (2 * o + 1)
  | 1 | 3 | 7 => some (if 0 < k then 2 * o else 2 * o + 2)
  | _ => none

/-- R112: a frozen cell with a source accumulates, saturating. -/
def State.freezeAdd (s : State) (n : Nat) (k : Int) : State :=
  let c := s.cell n
  let x := c.frzAcc + k
  let y := max (-2 ^ 31) (min (2 ^ 31 - 1) x)
  let s := s.setCell n { c with frzAcc := y }
  if x = y then s else s.modStart fun t => { t with frzOvf := t.frzOvf ||| BitVec.ofNat 64 (1 <<< n) }

/-- R56, R96, R107, R112: a step of `k` counts reaches cell `n` (`k` already signed by DIR_INV); the cascade above steps in the same
cycle. Answers the steps made. `fuel` bounds the cascade by the number of cells. -/
def State.stepCell (s : State) : Nat → Nat → Int → Time → Option Int → State × List StepEv
  | 0, _, _, _, _ => (s, [])
  | fuel + 1, n, k, stamp, smp =>
    let c := s.cell n
    if !c.en || s.held n || k = 0 then (s, [])
    else if s.frozen n then (if c.sourceMode then s.freezeAdd n k else s, [])
    else
      let m := c.modFor s.now
      let (c', laps, short) := c.stepped k stamp s.now smp
      let e : StepEv := { cell := n, k := k, mod := m, oldPhase := c.phase.toNat, oldTurn := c.turn.toInt, oldUp := c.reachUp,
                          short := short, phase := c'.phase.toNat, turn := c'.turn.toInt, stamp := stamp }
      let s := s.setCell n c'
      let u := s.cell (n + 1)
      if laps ≠ 0 && n < 63 && u.mode = 5 then
        let (s, l) := s.stepCell fuel (n + 1) (if u.dirInv then -laps else laps) stamp none
        (s, e :: l)
      else (s, [e])

/-- What the steps of one cycle set off: timed commands and pattern edges, compares, captures, firing predictions. Channels come before
units, so that their records are admitted first (R281). -/
def State.react (s : State) (evs : List StepEv) : State :=
  if evs.isEmpty then s
  else
    let s := evs.foldl (fun s e => s.watchStep e) s
    let (s, fired) := s.fireUnits evs
    let s := s.fireCaptures fired
    s.cmpKeys.foldl (fun s k => s.cmpPredict k) s

/-- A source gives each of the cells `l` a step of `k` counts (before DIR_INV), stamped. -/
def State.sourceSteps (s : State) (l : List Nat) (k : Int) (stamp : Time) : State :=
  let (s, evs) := l.foldl (fun p n =>
    let c := p.1.cell n
    let k' := if c.dirInv then -k else k
    let (s, e) := p.1.stepCell 64 n k' stamp (c.samplePos k')
    (s, p.2 ++ e)) (s, [])
  s.react evs

/-- The cells bound to a source (R30). -/
def State.bound (s : State) (mode src : Nat) : List Nat :=
  (List.range 64).filter fun n => let c := s.cell n; c.mode = mode && c.src = src

/-- A cell steps by itself (TIME, SYNTHETIC, phase steps of MAINS and MIRROR): no sample. -/
def State.selfStep (s : State) (n : Nat) (k : Int) (stamp : Time) : State :=
  let (s, evs) := s.stepCell 64 n k stamp none
  s.react evs

/-! ## Loads (R61 to R63) -/

/-- R51: cycles until the integer part of the accumulator changes; none at rate 0. -/
def Cell.synCycles (c : Cell) : Option Nat :=
  let r := c.rateHeld
  if r = 0 then none
  else if 0 < r then some ((2 ^ 32 - c.acc.toNat + r.toNat - 1) / r.toNat)
  else some (c.acc.toNat / r.natAbs + 1)

/-- R49, R51: the instant of the next step of a TIME or SYNTHETIC cell. -/
def Cell.ownDue (c : Cell) : Option Time :=
  if c.mode = 4 then some (c.origin + 8 * zero32 c.divAct) else c.synCycles.map fun k => c.origin + 8 * k

/-- R61: a load restarts the cycle count of a TIME cell and clears a SYNTHETIC accumulator below the count. A step of the load's own
cycle is still to come (R73), and is left due in it. The restarted period of a TIME cell counts CELL_DIV as last written (DESIGN CHOICE,
log 50: R49 keeps the old DIV for the period in progress, and R61 ends that period). -/
def Cell.restart (c : Cell) (base : Time) (running : Bool) : Cell :=
  if !c.exactMode then c
  else if running && c.ownDue = some base then
    if c.mode = 4 then c
    else { c with origin := base - 8, acc := BitVec.ofInt 32 (if 0 < c.rateHeld then -c.rateHeld else -c.rateHeld - 1) }
  else { c with origin := base, divAct := c.div, acc := 0 }

/-- A load of turn and phase: rejected when the phase is not below the modulus. A TIME cell restarts its cycle count and a SYNTHETIC
cell's accumulator clears below the count. -/
def State.loadCell (s : State) (n : Nat) (turn : BitVec 48) (phase : Word) : Bool × State :=
  let c := s.cell n
  if c.modN ≤ phase.toNat then (false, s.setCell n { c with flags := c.flags ||| 0x8000 })
  else
    let base := cyc s.now * 8
    let c' := { c.restart base (s.running n) with turn := turn, phase := phase, frac := 0, reachUp := false, reload := true,
                                                  pausedAt := c.pausedAt.map (fun _ => base), loadAt := some (cyc s.now) }
    (true, (s.putCell n c').cellChange n .load)

/-- R59, R60: CELL_MOD is written. -/
def State.writeMod (s : State) (n : Nat) (v : Word) : State :=
  let c := s.cell n
  let c := { c with modAct := if c.modAt = some (cyc s.now) then c.modAct else c.mod, modAt := some (cyc s.now), mod := v,
                    reload := true }
  let c := if c.mode = 3 then { c.drop .idle s.now with frac := s.fracOf n s.now } else c
  let s := (s.putCell n c).cellChange n .modulus
  s.cmpKeys.foldl (fun s k => if (s.cmp k).cell = n then s.cmpRangeCheck k else s) s

/-- R51, R52: settle a SYNTHETIC accumulator up to instant `t`, without stepping. -/
def Cell.synSettle (c : Cell) (t : Time) : Cell :=
  let k := (c.pausedAt.getD t - c.origin) / 8
  { c with acc := BitVec.ofInt 32 ((c.acc.toNat : Int) + c.rateHeld * k), origin := c.origin + 8 * k }

/-- R52: the rate is committed, by a write of SYN_RATE_HI or by SET_RATE (R150): both words show it. -/
def State.commitRate (s : State) (n : Nat) (rate : BitVec 64) : State :=
  let c := s.cell n
  let c := if c.mode = 6 && c.est = .exact then c.synSettle s.now else c
  (s.putCell n { c with rate := rate, synLo := BitVec.ofNat 32 rate.toNat, synHi := BitVec.ofNat 32 (rate.toNat / 2 ^ 32) }).cellChange n .other

end Sys2Proof.Machine
end

