-- ==== Sys2Proof/Machine/Gate.lean ====
section
/-! DEFINITION. When an event or a register access reaches its block: power-on reset and RESET_N hold the part (R497, R500), a
function-wide reset closes the register space (R501), and Rest stops the engine (R431, R432). The filter of an input pin (R33). -/

namespace Sys2Proof.Machine

/-! ## Input filters (R33, R35, R99) -/

/-- R33: a filter takes the samples of the cycles after `at_` up to `last`, the pin standing at `raw`: the level `F` samples in a row show is
accepted, in the cycle of the last of them, with the time stamp of the raw transition before the first (R35). -/
def Filt.sample (f : Filt) (d n : Nat) (level : Bool) (last : Nat) : Filt × Option (Nat × Time) :=
  let k := last / d - f.at_ / d
  let g := { f with at_ := max f.at_ last }
  if k = 0 then (g, none)
  else if f.raw = level then ({ g with run := 0 }, none)
  else
    let g := if f.run = 0 then { g with stamp := f.rawT } else g
    let need := max 1 (n - f.run)
    if k < need then ({ g with run := f.run + k }, none)
    else ({ g with run := 0 }, some ((f.at_ / d + need) * d, g.stamp))

/-- Raw transitions of a pin: the first to level `v`, each later one to the level it had before. -/
def edges (v : Bool) : List Time → List (Time × Bool)
  | [] => []
  | τ :: l => (τ, v) :: edges (!v) l

/-- A level that a filter has accepted: the cycle, the level, the time stamp. -/
structure Accept where
  at_ : Nat := 0
  level : Bool := false
  stamp : Time := 0
  deriving DecidableEq, Repr

/-- R33: the pin makes the transitions `l` (instant and new level, oldest first) and samples are taken up to instant `now`. A sample at the
very instant of a transition is taken before it (DEDUCED, log 51). -/
def Filt.feed (d n : Nat) (now : Time) : List (Time × Bool) → Bool → Filt → Filt × List Accept
  | [], level, f =>
    let (f, a) := f.sample d n level (cyc now)
    (f, a.elim [] fun p => [{ at_ := p.1, level := !level, stamp := p.2 }])
  | (τ, v) :: r, level, f =>
    let (f, a) := f.sample d n level (cyc (min τ now))
    let f := if f.raw = v then f else { f with raw := v, rawT := min τ now }
    match a with
    | none => Filt.feed d n now r level f
    | some p =>
      let (f, l) := Filt.feed d n now r (!level) f
      (f, { at_ := p.1, level := !level, stamp := p.2 } :: l)

/-- R431: the pin makes the transitions `l` while the filter's clock stands: no sample is taken up to now. -/
def Filt.skip (now : Time) (l : List (Time × Bool)) (f : Filt) : Filt :=
  let f := l.foldl (fun f p => if f.raw = p.2 then f else { f with raw := p.2, rawT := min p.1 now }) f
  { f with at_ := max f.at_ (cyc now) }

/-! ## When an event or an access is served -/

/-- R497, R500: the part is held in reset. -/
def State.dead (s : State) : Bool := s.rst.por || s.rst.resetN

/-- The engine runs: events of its blocks are applied. -/
def State.up (s : State) : Bool := !s.dead && !s.resting

/-- R432: the Understory's registers. -/
def undOfs (ofs : Nat) : Bool := decide (0x1800 ≤ ofs) && decide (ofs < 0x1900)

/-- R501: RST_CAUSE and RST_STATUS are readable during a function-wide reset. -/
def rstOfs (ofs : Nat) : Bool := ofs = 0x1000 || ofs = 0x1008

def State.modUnd (s : State) (f : Und → Und) : State := { s with und := f s.und }

/-- R435: the enabled UND_WATCH entries of a code. -/
def Und.watching (u : Und) (code : Nat) : Word :=
  BitVec.ofNat 32 (((List.range 32).map fun i =>
    let w := tget 0 u.watch i
    if bit w 0 && fld w 8 8 = code then 2 ^ i else 0).sum)

/-- R434, R436: a wake by the entries `fired`, or by WAKE_N: in Rest it begins WAKING and its time is latched, later ones are
recorded; while Rest is being entered it abandons the entry. -/
def State.wake (s : State) (fired : Word) (pin : Bool) : State :=
  match s.und.st with
  | .run => s
  | .entering => s.modUnd fun u => { u with st := .run, abandoned := true, result := 0, stopped := 0 }
  | .rest => s.modUnd fun u => { u with st := .waking, wake := u.wake ||| fired, wakePin := u.wakePin || pin, wt := s.now / 320 * 320 }
  | .waking => s.modUnd fun u => { u with wake := u.wake ||| fired, wakePin := u.wakePin || pin }

/-- R435: the event of a code happens. -/
def State.watchEvent (s : State) (code : Nat) : State :=
  let f := s.und.watching code
  if f = 0 then s else s.wake f false

/-- R432, R435: an access in Rest is recorded, and may wake the part. -/
def State.restAccess (s : State) : State := (s.modUnd fun u => { u with access := true }).watchEvent 0x71

/-- An event of the engine at device time `t`: without effect while the part is held in reset or rests. -/
def engineEvent (t : Time) (s : State) (f : State → State) : Res :=
  let s := s.arrive t
  .next (if s.up then f s else s)

/-- An event of a block that also runs in Rest. -/
def liveEvent (t : Time) (s : State) (f : State → State) : Res :=
  let s := s.arrive t
  .next (if s.dead then s else f s)

/-- R432, R501: the register space serves offset `ofs`. -/
def State.serves (s : State) (ofs : Nat) : Bool :=
  !s.dead && !(s.rst.busy && !rstOfs ofs) && !(s.resting && !undOfs ofs)

/-- A write to BAR0 offset `ofs`. -/
def regWrite (t : Time) (ofs : Nat) (s : State) (f : State → State) : Res :=
  let s := s.arrive t
  .next (if s.serves ofs then f s
         else if !s.dead && !s.rst.busy && s.resting then s.restAccess else s)

/-- A read of BAR0 offset `ofs`: the word goes to its master. -/
def regRead (t : Time) (ofs : Nat) (s : State) (f : State → Word × State) : Res :=
  let s := s.arrive t
  .next (if s.serves ofs then let (w, s) := f s; s.reply w
         else if s.dead then s
         else if s.rst.busy then s.reply 0
         else s.restAccess.reply 0xFFFFFFFF)

end Sys2Proof.Machine
end

