-- ==== Sys2Proof/Machine/Axes.lean ====
section
/-! DEFINITION. Counter cells and their inputs (02_counter_cells.md): encoder groups, serial encoders, mains, TIME, SYNTHETIC and
MIRROR cells, and the registers of a cell that have a row of their own. -/

namespace Sys2Proof.Machine

/-! ## Register offsets (R76 to R79) -/

def cellOfs (n : Nat) : Nat := 0x10000 + n * 0x100
def encOfs (g : Nat) : Nat := 0x20000 + g * 0x40
def serOfs (i : Nat) : Nat := 0x20400 + i * 0x40

/-! ## Encoder groups (R33 to R39) -/

/-- R36, R550: the step that levels (pa, pb) → (a, b) make, after SWAP_AB. -/
def decodeAB (mode : Nat) (pa pb a b : Bool) : Int :=
  let riseA := !pa && a
  let edgeA := pa != a
  match mode with
  | 0 =>
    if pa = a && pb = b then 0
    else
      -- forward: 00, 10, 11, 01, 00
      let next : Bool × Bool := match pa, pb with
        | false, false => (true, false)
        | true, false => (true, true)
        | true, true => (false, true)
        | false, true => (false, false)
      if (a, b) = next then 1 else -1
  | 1 => if !edgeA then 0 else if riseA = !b then 1 else -1
  | 2 => if !riseA then 0 else if !b then 1 else -1
  | _ => if !riseA then 0 else if !b then 1 else -1

/-- R431: the kept cell, and whether a group or mains input feeds it. -/
def State.keptIn (s : State) (l : List Nat) : Bool :=
  bit s.und.ctrl 6 && l.contains (fld s.und.ctrl 0 6) && (s.cell (fld s.und.ctrl 0 6)).en && !s.held (fld s.und.ctrl 0 6)

/-- R33: `D` and `F` of ENC_CTRL. -/
def EncGroup.sdiv (e : EncGroup) : Nat := fld e.ctrl 10 8 + 1
def EncGroup.filtN (e : EncGroup) : Nat := fld e.ctrl 6 4 + 1

/-- R38: what A and B accept, in order of cycle: those of one sample together, each side's level and its time stamp. -/
def pairUp : Nat → List Accept → List Accept → List (Option Accept × Option Accept)
  | 0, _, _ => []
  | _, [], [] => []
  | k + 1, x :: l, [] => (some x, none) :: pairUp k l []
  | k + 1, [], y :: r => (none, some y) :: pairUp k [] r
  | k + 1, x :: l, y :: r =>
    if x.at_ < y.at_ then (some x, none) :: pairUp k l (y :: r)
    else if y.at_ < x.at_ then (none, some y) :: pairUp k (x :: l) r
    else (some x, some y) :: pairUp k l r

/-- R38: both filtered levels change at one sample; in Rest only the kept cell sees it (R435). -/
def State.quadError (s : State) (g : Nat) : State :=
  let l := s.bound 1 g
  let mark := fun (s : State) (n : Nat) => s.modCell n fun c => { c with quad := satInc c.quad, flags := c.flags ||| 0x200 }
  if s.resting then
    if s.keptIn l then (mark s (fld s.und.ctrl 0 6)).watchEvent 0x41 else s
  else ((l.foldl mark s).setEnc g { s.enc g with quadErr := true }).report g

/-- R431, R435: in Rest only the kept cell counts; its estimator is IDLE, its stamps stand on 40 ns, and only the wake compare
watches it. -/
def State.restSteps (s : State) (l : List Nat) (k : Int) (stamp : Time) : State :=
  let n := fld s.und.ctrl 0 6
  let c := s.cell n
  if s.keptIn l then
    let k := if c.dirInv then -k else k
    let at_ := stamp / 320 * 320
    let (c', _, short) := c.stepped k at_ s.now none
    let e : StepEv := { cell := n, k := k, mod := c.modFor s.now, oldPhase := c.phase.toNat, oldTurn := c.turn.toInt,
                        oldUp := c.reachUp, short := short, phase := c'.phase.toNat, turn := c'.turn.toInt, stamp := at_ }
    let s := s.setCell n { c' with est := .idle, hist := [] }
    if s.und.wcmpArmed && decide (0 < e.count s.und.wcmp.toNat) && e.qualifies (fld s.und.wcmpCtrl 0 2) then
      (s.modUnd fun u => { u with wcmpArmed := false }).watchEvent 0x40
    else s
  else s

/-- R36, R38, R550: filtered levels of A and B are accepted; a step reaches every bound cell, stamped at the pin. -/
def State.encLevels (s : State) (g : Nat) (a b : Bool) (stamp : Time) : State :=
  let e := s.enc g
  let s := s.setEnc g { e with a := a, b := b }
  if e.a ≠ a && e.b ≠ b then s.quadError g
  else
    let swap := bit e.ctrl 2
    let k := if swap then decodeAB (fld e.ctrl 0 2) e.b e.a b a else decodeAB (fld e.ctrl 0 2) e.a e.b a b
    if k = 0 then s
    else if s.resting then s.restSteps (s.bound 1 g) k stamp
    else s.sourceSteps (s.bound 1 g) k stamp

/-- R33, R431: the filters of group `g` sample: in Rest only for the kept cell, every D × 40 ns. -/
def State.sampling (s : State) (g : Nat) : Bool := !s.resting || s.keptIn (s.bound 1 g)
def State.sampDiv (s : State) (g : Nat) : Nat := (s.enc g).sdiv * (if s.resting then 20 else 1)

/-- R33 to R38: pins A and B make the transitions `a` and `b`, and what their filters accept up to now is decoded. -/
def State.encFeed (s : State) (g : Nat) (a b : List (Time × Bool)) : State :=
  let e := s.enc g
  if !s.sampling g then s.setEnc g { e with fa := e.fa.skip s.now a, fb := e.fb.skip s.now b }
  else
    let (fa, la) := Filt.feed (s.sampDiv g) e.filtN s.now a e.a e.fa
    let (fb, lb) := Filt.feed (s.sampDiv g) e.filtN s.now b e.b e.fb
    let s := s.setEnc g { e with fa := fa, fb := fb }
    (pairUp (la.length + lb.length) la lb).foldl (fun s p =>
      s.encLevels g (p.1.elim (s.enc g).a Accept.level) (p.2.elim (s.enc g).b Accept.level) ((p.1 <|> p.2).elim s.now Accept.stamp)) s

/-- R33 to R38: raw transitions of A and B since the group was last heard; a level that the filter accepts is a step of every bound cell,
stamped at the pin. `first` says to which level the first transition of each pin goes. -/
def execIncrementalStep (t : Time) (g : Fin 16) (a b : List Time) (first : Bool × Bool) (s : State) : Res :=
  liveEvent t s fun s => s.encFeed g (edges first.1 a) (edges first.2 b)

/-- R39: an accepted Z level; a rising one sets Z_SEEN and may load phase into the bound cells. -/
def State.zLevel (s : State) (g : Nat) (z : Bool) : State :=
  let e := s.enc g
  let rise := !e.z && z
  let s := s.setEnc g { e with z := z, zSeen := e.zSeen || rise }
  let mode := fld e.ctrl 4 2
  if rise && bit e.ctrl 3 && (mode = 2 || (mode = 1 && !e.zSeen)) then
    (s.bound 1 g).foldl (fun s n => (s.loadCell n (s.cell n).turn e.zphase).2) s
  else s

/-- R33, R39: pin Z makes the transitions `z`, and what its filter accepts up to now acts. -/
def State.zFeed (s : State) (g : Nat) (z : List (Time × Bool)) : State :=
  let e := s.enc g
  let (f, l) := Filt.feed e.sdiv e.filtN s.now z e.z e.fz
  l.foldl (fun s a => s.zLevel g a.level) (s.setEnc g { e with fz := f })

/-- R39: raw transitions of Z since the group was last heard. -/
def execZLoad (t : Time) (g : Fin 16) (z : List (Time × Bool)) (s : State) : Res :=
  engineEvent t s fun s => s.zFeed g z

/-- R431: the clock of the filters changes with Rest: what they have sampled up to now is judged. -/
def State.encsSettle (s : State) (z : Bool) : State :=
  (s.axes.encs.map (·.1)).foldl (fun s g =>
    let s := s.encFeed g [] []
    if z then s.zFeed g [] else s.setEnc g { s.enc g with fz := (s.enc g).fz.skip s.now [] }) s

/-- R33, R77: a write of ENC_CTRL: the samples up to its own cycle are judged by the old FILT and SDIV; a reserved Z_MODE ignores it. -/
def State.encCtrl (s : State) (g : Nat) (v : Word) : State :=
  if fld v 4 2 = 3 then s
  else
    let s := (s.encFeed g [] []).zFeed g []
    s.setEnc g { s.enc g with ctrl := v &&& 0x3FFFF }

/-! ## Serial absolute encoders (R41 to R45) -/

/-- R41: a cycle instant, every SER_CYCLE nanoseconds while RUN is 1. The first is that of the write that sets RUN, and a written
SER_CYCLE runs from the next instant on (DESIGN CHOICE, log 52). -/
def execSerialFrameStart (t : Time) (i : Fin 8) (s : State) : Res :=
  engineEvent t s fun s =>
    let x := s.ser i
    if !x.run || s.now < x.due then s
    else
      let x' := { x with due := x.due + ns (fld x.cycle 0 20) }
      if x.frame.isSome || x.due < x.recover then s.setSer i { x' with flags := x.flags ||| 0x20 }
      else s.setSer i { x' with frame := some x.due }

/-- R41, R78: a write of SER_CTRL; BITS is held from 8 to 48. -/
def State.serCtrl (s : State) (i : Nat) (v : Word) : State :=
  let x := s.ser i
  s.setSer i { x with ctrl := setFld (v &&& 0x1FFFF) 2 6 (clampN 8 48 (fld v 2 6)),
                      due := if !x.run && bit v 16 then s.now else x.due }

/-- SSI Gray code, most significant bit first. -/
def grayToBin : Nat → Nat → Nat
  | 0, _ => 0
  | k + 1, v => let r := grayToBin k (v / 2); 2 * r + (r + v) % 2

/-- R40: the BiSS-C CRC of `n` bits, most significant first, over the 7-bit polynomial `poly` (x^6 on top), from 0. -/
def crc6 (poly : Nat) : Nat → Nat → Nat
  | 0, _ => 0
  | n + 1, v =>
    let c := crc6 poly n (v / 2)
    let top := (c / 32 + v) % 2
    let sh := c * 2 % 64
    if top = 1 then sh ^^^ (poly % 64) else sh

/-- R41, R44: what a received frame says: word, error bit, warning bit, CRC right, bits complete. -/
structure SerFrame where
  word : Nat := 0
  alarm : Bool := false
  warn : Bool := false
  crcOk : Bool := false
  complete : Bool := true
  deriving DecidableEq, Repr

/-- R40: decode the bits received after the start bit: SSI position; BiSS-C position, error and warning (active low), CRC. -/
def SerIf.decode (x : SerIf) (bits n : Nat) : SerFrame :=
  if x.biss then
    let data := bits / 64
    let crc := crc6 (fld x.ctrl 8 7) (x.bits + 2) data
    let got := bits % 64
    { word := data / 4 % 2 ^ x.bits, alarm := data / 2 % 2 = 0, warn := data % 2 = 0,
      crcOk := (if x.crcInv then 63 - got else got) = crc && n = x.bits + 8, complete := true }
  else
    let w := bits % 2 ^ x.bits
    { word := if x.gray then grayToBin x.bits w else w, crcOk := Config.ssiCrcOk, complete := n = x.bits }

/-- R45: the raw record of a frame. ALARM and WARN say what the received bits say, active low; of a frame with NO_START no bit was
received, so its bits, and with them ALARM and WARN, are decoded from zeros and ALARM and WARN stand at 1 (DESIGN CHOICE, log 50: R45
does not say what they read as there). -/
def rawRecord (bits : BitVec 64) (n : Nat) (sample : Time) (f : SerFrame) (noStart : Bool) : List Byte :=
  leBytes 8 bits.toNat ++ leBytes 4 sample ++ leBytes 2 n
    ++ [BitVec.ofNat 8 (b2n f.crcOk + 2 * b2n f.alarm + 4 * b2n f.warn + 8 * b2n noStart), 0]

/-- R42: the signed difference in (-2^(B-1), 2^(B-1)]. -/
def serialDelta (bits v prev : Nat) : Int :=
  let m : Int := 2 ^ bits
  let d := ((v : Int) - prev) % m
  if m / 2 < d then d - m else d

/-- R44, R107, R112: cell `n` has lost its source: SRC_LOST is set, and an estimator that is neither held nor frozen goes to LOST. -/
def State.loseCell (s : State) (n : Nat) : State :=
  let c := s.cell n
  let c' := if s.held n || s.frozen n then c else { c.lose s.now with frac := s.fracOf n s.now }
  (s.putCell n { c' with flags := c.flags ||| 0x1000 }).cellChange n .other

/-- R44: a discarded frame: counted at the bound cells; the third in a row loses their estimators. -/
def State.serialBad (s : State) (i : Nat) (x : SerIf) (flags : Word) : State :=
  let x := { x with flags := x.flags ||| flags, consec := satInc x.consec }
  let s := s.setSer i x
  let cells := s.bound 2 i
  let s := cells.foldl (fun s n => s.modCell n fun c => { c with ser := satInc c.ser, flags := c.flags ||| 0x400 }) s
  if 3 ≤ x.consec.toNat then
    let s := cells.foldl (fun s n =>
      let c := s.cell n
      if c.en && c.est ≠ .lost && (x.consec.toNat = 3 || !(s.held n || s.frozen n)) then s.loseCell n else s) s
    if x.consec.toNat = 3 then s.report (16 + i) else s
  else s

/-- R44, R55, R73: a sample that makes no step brings a lost estimator back to SEEDED, as its only sample; one that is held or frozen
stays (R107, R112). -/
def State.reseedAt (s : State) (n : Nat) (x : Sample) : State :=
  let c := s.cell n
  if c.en && c.est = .lost && !s.held n && !s.frozen n then
    (s.putCell n { c with est := .seeded, hist := [x], lastT := some x.time, prevT := c.lastT }).cellChange n .other
  else s

/-- R44: a good frame that makes no step at cell `n`: its word lies half a count up (R41). -/
def State.reseed (s : State) (n : Nat) (ts : Time) : State := s.reseedAt n { time := ts, pos2 := 2 * (s.cell n).odo + 1 }

/-- R43, R44: INIT_ABS: the first good word after EN rises loads the cell, and is the sample that ends a LOST. -/
def State.initAbs (s : State) (n v : Nat) (ts : Time) : State :=
  let c := s.cell n
  let m := c.modN
  (((s.setCell n { c with absFirst := false }).loadCell n (BitVec.ofNat 48 (v / m)) (BitVec.ofNat 32 (v % m))).2).reseed n ts

/-- R41 to R45: a frame has ended. An SSI frame of an incomplete bit count is applied nowhere, counts as no discarded frame and does not
end a run of them (DESIGN CHOICE, log 50: R41 applies only a complete one, and R44 names three causes of a discard, none of them this). -/
def execSerialFrameEnd (t : Time) (i : Fin 8) (bits : BitVec 64) (n : Nat) (noStart : Bool) (lineMeas : BitVec 16)
    (s : State) : Res :=
  engineEvent t s fun s =>
    let x := s.ser i
    match x.frame with
    | none => s
    | some f0 =>
      let sample := f0 + ns (fld x.delay 0 16)
      let f := x.decode bits.toNat n
      let x := { x with frame := none, recover := s.now + us (fld x.clk 16 8),
                        lineMeas := if x.biss then lineMeas else x.lineMeas }
      let raw := rawRecord bits n sample f noStart
      let x := if 8 ≤ x.raw.length then { x with flags := x.flags ||| 0x10 } else { x with raw := x.raw ++ [raw] }
      let s := if x.raw.isEmpty then s else s.wakeUnit (0x600 + i)
      let crcBad := x.biss && !f.crcOk && !noStart
      let alarm := x.biss && f.alarm && !noStart
      let flags := flag 0 crcBad ||| flag 1 noStart ||| flag 2 alarm
      if flags ≠ 0 then s.serialBad i x flags
      else if !f.complete then s.setSer i x
      else
        let x' := { x with consec := 0, prev := some (BitVec.ofNat 64 f.word),
                           flags := if x.biss && f.warn then x.flags ||| 8 else x.flags }
        let s := s.setSer i x'
        let cells := s.bound 2 i
        let first := cells.filter fun n => let c := s.cell n; c.en && c.initAbs && c.absFirst
        let s := first.foldl (fun s n => s.initAbs n f.word sample) s
        let rest := cells.filter fun n => !first.contains n
        match x.prev with
        | none => rest.foldl (fun s n => s.reseed n sample) s
        | some p =>
          let d := serialDelta x.bits f.word p.toNat
          if d = 0 then rest.foldl (fun s n => s.reseed n sample) s
          else s.sourceSteps rest d sample

/-! ## Mains (R46 to R48) -/

/-- R46, R47, R59: the signed counts from the phase held to phase 0 at the end of the lap, in the cell's own direction; from a phase outside
the modulus, the one step that ends the lap early. -/
def Cell.lapRest (c : Cell) (m : Nat) : Int :=
  let p : Int := c.phase.toNat
  if (m : Int) ≤ p then (if c.dirInv then -1 else 1)
  else if c.dirInv then (if p = 0 then -(m : Int) else -p) else (m : Int) - p

/-- R46: one crossing is one step of `MOD` counts, which ends the lap at phase 0; the part of it that the phase has already
stepped is not stepped again (R47). A crossing out of range restarts the estimator (R48). -/
def State.mainsStep (s : State) (n : Nat) (range : Bool) (stamp : Time) : State × List StepEv :=
  let c := s.cell n
  let m : Int := c.modFor s.now
  let k := c.lapRest (c.modFor s.now)
  -- crossings lie one lap apart in the estimator's coordinate
  let line := if c.hist.isEmpty then c.odo + k else c.mirOdo + (if c.dirInv then -m else m)
  let live := c.en && !s.held n && !s.frozen n
  let c := if range then { c with flags := c.flags ||| 0x800, hist := if live then [] else c.hist } else c
  let c := if live then { c with mirOdo := line, odo := line - k } else c
  let s := s.setCell n c
  let full := if s.frozen n then (if c.dirInv then -m else m) else k
  s.stepCell 64 n full stamp (c.samplePos k)

/-- R46, R48, R79: a rising zero crossing is qualified, stamped where it began. MAINS_PERIOD shows the low 32 bits of the interval, so one of
2^32 units (0.537 s) or more shows modulo 2^32 (DESIGN CHOICE, log 50: the spec does not say what it reads as then). In Rest the kept cell
alone steps (R431). -/
def State.mainsCross (s : State) (i : Nat) (stamp : Time) : State :=
  let x := s.mainsIn i
  if !bit x.ctrl 0 then s
  else
    let per := stamp - x.lastX.getD stamp
    let out := x.lastX.isSome && (decide (per < 114288000) || decide (200000000 < per))
    let s := s.setMainsIn i { x with lastX := some stamp, range := x.range || out,
                                     period := if x.lastX.isSome then BitVec.ofNat 32 per else x.period }
    let s := if out then (if s.resting then s else s.report (24 + i)).watchEvent (0x12 + i) else s
    if s.resting then
      let n := fld s.und.ctrl 0 6
      let c := s.cell n
      let s := if out && s.keptIn (s.bound 3 i) then s.setCell n { c with flags := c.flags ||| 0x800 } else s
      let k := c.lapRest (c.modFor s.now)
      s.restSteps (s.bound 3 i) (if c.dirInv then -k else k) stamp
    else
      let (s, evs) := (s.bound 3 i).foldl (fun p n =>
        let (s, e) := p.1.mainsStep n out stamp
        (s, p.2 ++ e)) (s, [])
      s.react evs

/-- R46: up to instant `t` the comparator has stood as it stands: a level above zero for QUAL microseconds qualifies the crossing that began
it. LEVEL is that qualified level, and falls with the comparator (DESIGN CHOICE, log 52: R79 does not say when it falls). -/
def State.mainsQual (s : State) (i : Nat) (t : Time) : State :=
  let x := s.mainsIn i
  if x.raw && !x.level && decide (x.rawT + us (fld x.ctrl 8 8) ≤ t) then
    (s.setMainsIn i { x with level := true }).mainsCross i x.rawT
  else s

/-- R46: the comparator changes to `v` at instant `t`. -/
def State.mainsEdge (s : State) (i : Nat) (t : Time) (v : Bool) : State :=
  let s := s.mainsQual i t
  let x := s.mainsIn i
  if x.raw = v then s else s.setMainsIn i { x with raw := v, rawT := t, level := x.level && v }

/-- R46, R48: transitions of the zero-crossing comparator (instant and new level, oldest first), and what has qualified since. -/
def execMainsCrossing (t : Time) (i : Fin 2) (raw : List (Time × Bool)) (s : State) : Res :=
  liveEvent t s fun s => (raw.foldl (fun s p => s.mainsEdge i (min p.1 s.now) p.2) s).mainsQual i s.now

/-- The whole count a model stands at. -/
def Cell.modelCount (c : Cell) (t : Time) : Option Int := c.model.map fun m => m.pos t / oneCount

/-- R47: the counts a MAINS cell may still step before the next crossing: it stops one count short of the end of its lap. -/
def Cell.lapRoom (c : Cell) : Int :=
  if c.modN ≤ c.phase.toNat then 0 else c.lapRest c.modN + (if c.dirInv then 1 else -1)

/-- R47: between crossings the phase follows the estimator's model, and stops one count short of the next crossing. The model gives it in
LINEAR too, whatever PRED_LINEAR says (DESIGN CHOICE, log 50: R66 takes the predictions of LINEAR away where PRED_LINEAR is 0, and R47
does not say whether the phase then stands). -/
def execMainsPhaseStep (t : Time) (c : Fin 64) (s : State) : Res :=
  engineEvent t s fun s =>
    let x := s.cell c
    if x.mode ≠ 3 || !s.running c then s
    else match x.modelCount s.now with
      | none => s
      | some p =>
        let k := if x.dirInv then max (p - x.odo) x.lapRoom else min (p - x.odo) x.lapRoom
        if (if x.dirInv then decide (k < 0) else decide (0 < k)) then s.selfStep c k s.now else s

/-! ## TIME, SYNTHETIC and MIRROR cells (R49 to R55) -/

/-- R49: a TIME cell's next step is due `DIV` cycles after its last. -/
def execTimeStep (t : Time) (c : Fin 64) (s : State) : Res :=
  engineEvent t s fun s =>
    let x := s.cell c
    let due := x.origin + 8 * zero32 x.divAct
    if x.mode ≠ 4 || !s.running c || s.now < due then s
    else (s.setCell c { x with origin := due, divAct := x.div }).selfStep c 1 due

/-- R51: a SYNTHETIC cell steps when the integer part of its accumulator changes. -/
def execSyntheticStep (t : Time) (c : Fin 64) (s : State) : Res :=
  engineEvent t s fun s =>
    let x := s.cell c
    if x.mode ≠ 6 || !s.running c then s
    else match x.synCycles with
      | none => s
      | some k =>
        let due := x.origin + 8 * k
        if s.now < due then s
        else (s.setCell c (x.synSettle due)).selfStep c (if 0 < x.rateHeld then 1 else -1) due

/-- R54: a MIRROR cell's phase follows the prediction, never against the present direction of motion, which is that of its latest step (in
LINEAR too, as for a MAINS cell: log 50). -/
def execMirrorPhaseStep (t : Time) (c : Fin 64) (s : State) : Res :=
  engineEvent t s fun s =>
    let x := s.cell c
    if x.mode ≠ 7 || !s.running c then s
    else match x.model with
      | none => s
      | some m =>
        let k := m.pos s.now / oneCount - x.odo
        if (x.dir = 0 && decide (0 < k)) || (x.dir = 1 && decide (k < 0)) then s.selfStep c k s.now else s

/-- R398: `T_CYC` in ticks. -/
def State.tCyc (s : State) : Nat := 250000 * 2 ^ fld s.net.yz.ctrl 1 3

/-- R55: MIRROR_SRC.TIMEOUT Yazen cycles have passed without a sample. -/
def execMirrorTimeout (t : Time) (c : Fin 64) (s : State) : Res :=
  engineEvent t s fun s =>
    let x := s.cell c
    if x.mode ≠ 7 || !x.en || x.mirOut || s.now < x.mirLast + fld x.mirrorSrc 16 8 * s.tCyc then s
    else ((s.setCell c { x with mirOut := true }).loseCell c).report (32 + c)

/-- R69: the standstill limit has run out. -/
def execStandstill (t : Time) (c : Fin 64) (s : State) : Res :=
  engineEvent t s fun s =>
    let x := s.cell c
    match x.stillLimit with
    | none => s
    | some l => if s.now ≤ l || s.frozen c then s else (s.putCell c (x.drop .standstill s.now)).cellChange c .other

/-! ## Registers of a cell with rows of their own -/

/-- R29, R31: SRC lies in the range of its mode, and CASCADE is not cell 0's. -/
def ctrlRange (n : Nat) (v : Word) : Bool :=
  match fld v 1 3 with
  | 2 => decide (fld v 4 4 ≤ 7)
  | 3 => decide (fld v 4 4 ≤ 1)
  | 5 => n ≠ 0
  | _ => true

/-- R32, R107: EN rises: the cell starts from the position it holds, its estimator from IDLE (EXACT where it has no error). A TIME cell
counts its period from 0, so the fraction it held is gone, as R109 says of a release; a SYNTHETIC cell goes on from the fraction it holds
(DESIGN CHOICE, log 50: R32 does not say how far into its period a TIME cell starts). -/
def Cell.start (c : Cell) (held frozen : Bool) (now : Time) : Cell :=
  let base := cyc now * 8
  { c with dir := 2, quad := 0, ser := 0, hist := [], lastT := none, prevT := none, reachUp := false, predLin := c.predLinear,
           absFirst := true, mirPrev := none, mirLast := now, mirOdo := c.odo, mirOut := false, frzAcc := 0, loadAt := none,
           est := if c.exactMode && !held then .exact else .idle,
           origin := base, divAct := c.div, acc := BitVec.ofNat 32 (c.frac.toNat * 65536),
           pausedAt := if frozen then some base else none }

/-- R31, R32: CELL_CTRL. -/
def State.cellCtrl (s : State) (n : Nat) (v : Word) : State :=
  let c := s.cell n
  let v := v &&& 0xFFF
  if !ctrlRange n v || (c.en && (fld v 1 7 ≠ fld c.ctrl 1 7 || bit v 11 ≠ c.initAbs)) then
    s.setCell n { c with flags := c.flags ||| 0x4000 }
  else if c.en && !bit v 0 then
    (s.putCell n { c.drop .idle s.now with ctrl := v, pausedAt := none, frac := s.fracOf n s.now }).cellChange n .other
  else if !c.en && bit v 0 then
    (s.putCell n ({ c with ctrl := v }.start (s.held n) (s.frozen n) s.now)).cellChange n .other
  else s.putCell n { c with ctrl := v }

def execCellCtrlWrite (t : Time) (_m : Ident) (c : Fin 64) (v : Word) (s : State) : Res :=
  regWrite t (cellOfs c) s fun s => s.cellCtrl c v

/-- R59. -/
def execCellModWrite (t : Time) (_m : Ident) (c : Fin 64) (v : Word) (s : State) : Res :=
  regWrite t (cellOfs c + 0x04) s fun s => s.writeMod c v

/-- R61, R62: LOAD_GO. -/
def State.loadGo (s : State) (n : Nat) (v : Word) : State :=
  let c := s.cell n
  if bit v 0 then (s.loadCell n (BitVec.ofNat 48 (fld c.loadT 16 16 + c.loadTurnHi.toNat * 65536)) c.loadPhase).2 else s

def execLoadGo (t : Time) (_m : Ident) (c : Fin 64) (v : Word) (s : State) : Res :=
  regWrite t (cellOfs c + 0x5C) s fun s => s.loadGo c v

/-- R52: SYN_RATE_HI. -/
def State.synHi (s : State) (n : Nat) (v : Word) : State :=
  let s := s.modCell n fun c => { c with synHi := v }
  s.commitRate n (BitVec.ofNat 64 ((s.cell n).synLo.toNat + v.toNat * 2 ^ 32))

def execSynRateCommit (t : Time) (_m : Ident) (c : Fin 64) (v : Word) (s : State) : Res :=
  regWrite t (cellOfs c + 0x64) s fun s => s.synHi c v

/-- R76: MIRROR_OFS_HI commits both words for the next load. -/
def State.mirrorHi (s : State) (n : Nat) (v : Word) : State :=
  s.modCell n fun c => { c with ofsHi := v, ofs := BitVec.ofNat 64 (c.ofsLo.toNat + v.toNat * 2 ^ 32) }

def execMirrorOfsCommit (t : Time) (_m : Ident) (c : Fin 64) (v : Word) (s : State) : Res :=
  regWrite t (cellOfs c + 0x70) s fun s => s.mirrorHi c v

/-- R76: POS_FT. -/
def State.posFt (s : State) (n : Nat) : Word :=
  wAt 0 (s.fracOf n s.now).toNat ||| wAt 16 ((s.cell n).turn.toNat % 65536)

/-- R74: the companion words of POS_FT, by offset within the cell. EDGE_T is the time of slot 0; while the history holds no sample (IDLE,
STANDSTILL, LOST), and on a cell that keeps none (TIME, SYNTHETIC, CASCADE), it shows the stamp of the latest sample or step, and 0 before
the first since enable (DESIGN CHOICE, log 50: the spec does not say what it reads as without a slot 0). -/
def State.posWords (s : State) (n : Nat) : List (Nat × Word) :=
  let c := s.cell n
  let e := c.lastT.getD 0
  let v := (s.velOf n).toNat
  let a := (s.accOf n).toNat
  [(0x24, c.phase), (0x28, BitVec.ofNat 32 (c.turn.toNat / 65536)), (0x2C, loW e), (0x30, hiW e), (0x34, loW v), (0x38, hiW v),
   (0x3C, loW a), (0x40, hiW a)]

/-- R74: a read of POS_FT latches position, latest sample time, velocity and acceleration of one cycle. -/
def State.readPosFt (s : State) (m : Ident) (n : Nat) : Word × State :=
  (s.posFt n, s.latchAll m ((s.posWords n).map fun p => (cellOfs n + p.1, p.2)))

def execPosFtRead (t : Time) (m : Ident) (c : Fin 64) (s : State) : Res :=
  regRead t (cellOfs c + 0x20) s fun s => s.readPosFt m c

end Sys2Proof.Machine
end

