-- ==== Sys2Proof/Machine/Outputs.lean ====
section
/-! DEFINITION. Output units and fences (10_outputs_fences.md): the image in force, how an edge is judged and placed, forced rests and
the holds they leave. -/

namespace Sys2Proof.Machine

/-! ## The fence image in force (R362, R364, R366) -/

/-- R366: a word of the default fence image. -/
def fenceDefault (o : Nat) : Word :=
  if o = 4 then 0x21
  else if 0x40 ≤ o && o < 0x840 && o % 16 = 0 then 2
  else if 0x940 ≤ o && o < 0x980 && o % 8 = 0 then 0x0A00
  else 0

/-- The word at offset `o` of the fence image in force. -/
def State.fenceWord (s : State) (o : Nat) : Word :=
  match s.lws.fenceImg with
  | some b => BitVec.ofNat 32 (num b o 4)
  | none => fenceDefault o

def State.pinWord (s : State) (p j : Nat) : Word := s.fenceWord (0x40 + p * 16 + 4 * j)
def State.groupWord (s : State) (g j : Nat) : Word := s.fenceWord (0x840 + g * 8 + 4 * j)
def State.permitWord (s : State) (i : Nat) : Word := s.fenceWord (0x940 + i * 8)

/-- R349: REST is UNDRIVEN. -/
def State.isInput (s : State) (p : Nat) : Bool := fld (s.pinWord p 0) 0 2 = 2

/-- R348: the on level of a driven pin; its rest level is the other. -/
def State.onLevel (s : State) (p : Nat) : Bool := fld (s.pinWord p 0) 0 2 = 0

def State.permitReq (s : State) (p : Nat) : Nat := fld (s.pinWord p 0) 8 8
def State.maxEdges (s : State) (p : Nat) : Nat := fld (s.pinWord p 0) 16 16
def State.maxOn (s : State) (p : Nat) : Nat := us (fld (s.pinWord p 1) 0 24)
def State.minOff (s : State) (p : Nat) : Nat := us (fld (s.pinWord p 2) 0 24)
/-- R358: the duty window and the duty limit in ticks: DUTY_MAX × DUTY_WIN / 256 ms. -/
def State.dutyWin (s : State) (p : Nat) : Nat := ms (fld (s.pinWord p 2) 24 8)
def State.dutyLimit (s : State) (p : Nat) : Nat := fld (s.pinWord p 1) 24 8 * s.dutyWin p / 256
/-- R356. -/
def State.groupMax (s : State) (g : Nat) : Nat := fld (s.groupWord g 0) 0 4
def State.groupDead (s : State) (g : Nat) : Nat := ns (fld (s.groupWord g 1) 0 16)
def State.inGroup (s : State) (p g : Nat) : Bool := bit (s.pinWord p 3) g

def pinCount : Nat := 128

/-- R364: AUTH of the image in force. -/
def State.fenceAuth (s : State) : Nat := fld (s.fenceWord 4) 0 8

/-- R367: a master identity stands in AUTH. -/
def authHas (auth : Nat) (m : Ident) : Bool :=
  if m = 0x01 then auth.testBit 0
  else if m = 0x20 then auth.testBit 5
  else if m.toNat / 16 = 1 && m.toNat % 16 < 4 then auth.testBit (1 + m.toNat % 16)
  else false

/-! ## The pin -/

/-- The level at the pin, after the fence (R343, R348); undriven until the fence image has been read (R359). -/
def State.pinLevel (s : State) (p : Nat) : Bool :=
  let x := s.pin p
  if s.isInput p || !s.rst.fenceRead then x.ext
  else if x.onSince.isSome then s.onLevel p else !s.onLevel p

/-- On-time of an interval within the window [lo, hi]. -/
def overlap (lo hi : Nat) (x : Nat × Nat) : Nat := min hi x.2 - max lo x.1

/-- R358: on-time within the `win` ticks that end at `t`. -/
def Pin.onTime (x : Pin) (win t : Nat) : Nat :=
  (x.onLog.map (overlap (t - win) t)).sum + (match x.onSince with | some a => overlap (t - win) t (a, t) | none => 0)

/-- R358: intervals that no window reaches are dropped. -/
def pruneLog (t : Time) (l : List (Time × Time)) : List (Time × Time) := l.filter fun x => decide (t < x.2 + ms 256)

/-- The pin returns to rest at `t`. -/
def Pin.rest (x : Pin) (t : Time) : Pin :=
  match x.onSince with
  | some a => { x with onSince := none, lastRest := some t, onLog := pruneLog t ((a, t) :: x.onLog) }
  | none => x

/-- R357: the budgets of the window that holds instant `t`. -/
def State.openWindow (s : State) (t : Time) : State :=
  let w := t / ms 1
  if s.outs.window < w then
    let s := { s with outs := { s.outs with window := w } }
    (s.outs.pins.map (·.1)).foldl (fun s p => s.setPin p { s.pin p with spent := 0 }) s
  else s

/-- R360: budget left. -/
def State.budget (s : State) (p : Nat) : Nat := s.maxEdges p - (s.pin p).spent

/-- R375: member pins of a group that are on. -/
def State.groupOn (s : State) (g : Nat) : Nat :=
  ((List.range pinCount).filter fun p => s.inGroup p g && (s.pin p).onSince.isSome).length

/-- R356: an enabled group admits an on edge of a member at instant `t`. -/
def State.groupAdmits (s : State) (g : Nat) (t : Time) : Bool :=
  s.groupMax g = 0 ||
    (decide (s.groupOn g < s.groupMax g) &&
      (List.range pinCount).all fun p => !s.inGroup p g ||
        (match (s.pin p).lastRest with | some r => decide (r + s.groupDead g ≤ t) | none => true))

/-- R350: the cause that suppresses an on edge of pin `p` at its placed instant `t`; none lets it pass. -/
def State.judge (s : State) (p : Nat) (t : Time) : Option Nat :=
  let x := s.pin p
  if (List.range 8).any fun i => (s.permitReq p).testBit i && !(s.permitIn i).accepted then some 1
  else if x.hold then some 2
  else if s.fc.safe then some 3
  else if (match x.lastRest with | some r => decide (t < r + s.minOff p) | none => false) then some 4
  else if (List.range 32).any fun g => s.inGroup p g && !s.groupAdmits g t then some 5
  else if s.maxEdges p ≠ 0 && s.budget p = 0 then some 6
  else if fld (s.pinWord p 1) 24 8 ≠ 0 && decide (s.dutyLimit p ≤ x.onTime (s.dutyWin p) t) then some 7
  else none

/-- R354: what a suppression or a forced rest leaves in the unit, the channel and the collector. -/
def State.clamp (s : State) (u cause : Nat) (t : Time) : State :=
  let o := s.ou u
  let s := s.setOu u { o with clamps := o.clamps + 1, lastCause := BitVec.ofNat 4 cause, clampT := t }
  let s := match o.holder with
    | some c => s.modChan c fun h => h.setSt stFenceClamp
    | none => s
  s.report (96 + u / 16)

/-- R352, R353: a forced rest at instant `t`; the pin is held while its unit drives the on level. -/
def State.forceRest (s : State) (u cause : Nat) (t : Time) : State :=
  let x := s.pin u
  if x.onSince.isNone then s
  else
    let o := s.ou u
    let s := s.setPin u { x.rest t with hold := o.drive == s.onLevel u }
    let s := s.setOu u { o with edgeT := t }
    s.clamp u cause t

/-- R340, R342, R345, R348 to R353: unit `u` places an edge to `level` at instant `want`, or 125 ps after its latest edge where that is
later. An entry of the level already driven places no transition; an off edge always passes and ends a hold. -/
def State.placeEdge (s : State) (u : Nat) (level : Bool) (want : Time) : State :=
  let o := s.ou u
  let t := max want (o.lastEdge + 1)
  let s := s.setOu u { o with lastEdge := t }
  if o.drive = level || s.isInput u then s
  else
    let s := (s.openWindow t).setOu u { o with lastEdge := t, drive := level }
    let x := s.pin u
    if level = s.onLevel u then
      match s.judge u t with
      | some cause => (s.setPin u { x with hold := true }).clamp u cause t
      | none =>
        (s.setPin u { x with onSince := some t, spent := x.spent + 1 }).modOu u fun o => { o with edgeT := t }
    else
      let s := s.setPin u { x.rest t with hold := false }
      if x.onSince.isSome then s.modOu u fun o => { o with edgeT := t } else s

/-- R352, R359: every on pin goes to rest with cause SAFE; a pin whose unit drives the on level is held. -/
def State.safeRest (s : State) (t : Time) : State :=
  (List.range pinCount).foldl (fun s u =>
    let s := s.forceRest u 11 t
    if !s.isInput u && (s.ou u).drive == s.onLevel u && !(s.pin u).hold then s.setPin u { s.pin u with hold := true } else s) s

/-- R352, R355: permit input `i` is accepted as `asserted`. The collector is stopped in Rest (R431). -/
def State.permitAccept (s : State) (i : Nat) (level asserted : Bool) (t : Time) : State :=
  let x := s.permitIn i
  let was := x.accepted
  let s := s.setPermitIn i { x with level := level, accepted := asserted, seen := true }
  if was && !asserted then
    let s := (List.range pinCount).foldl (fun s u =>
      if (s.permitReq u).testBit i then s.forceRest u 10 t else s) s
    if s.resting then s else s.report (104 + i)
  else s

/-- R355: POL of permit `i` in the image in force: the asserted level is high where it is 0. FILT, in ticks. -/
def State.permitHigh (s : State) (i : Nat) : Bool := !bit (s.permitWord i) 0
def State.permitFilt (s : State) (i : Nat) : Nat := us (fld (s.permitWord i) 8 8)

/-- R374: where a change of the whole part from `old` has changed the level at a pin, the pin has made a transition at `t`; where it has
not, none. -/
def State.stampPins (s old : State) (t : Time) : State :=
  (List.range pinCount).foldl (fun x u =>
    x.modOu u fun o => { o with edgeT := if s.pinLevel u = old.pinLevel u then (old.ou u).edgeT else t }) s

/-- R359, R369: a committed fence image takes effect: on pins rest with cause SAFE, units that drive the new on level hold their
pins, and permits are judged by the new POL; one whose pin has held no level yet stays deasserted (R355). -/
def State.applyFence (old : State) (img : List Byte) (t : Time) : State :=
  let s := old
  let s := (List.range pinCount).foldl (fun s u => s.forceRest u 11 t) s
  let pol := (List.range 8).map s.permitHigh
  let s := { s with lws := { s.lws with fenceImg := some img } }
  let s := (List.range pinCount).foldl (fun s u =>
    let x := s.pin u
    let hold := !s.isInput u && (s.ou u).drive == s.onLevel u
    if x.hold = hold then s else s.setPin u { x with hold := hold }) s
  let s := (List.range 8).foldl (fun s i =>
    let x := s.permitIn i
    if pol.getD i true = s.permitHigh i then s
    else if x.seen then s.permitAccept i x.level (x.level == s.permitHigh i) t
    else s.setPermitIn i { x with level := !s.permitHigh i }) s
  s.stampPins old t

/-- The earliest instant in (lo, hi] at which the on-time reaches the duty limit, by bisection: it does not at `lo`, it does at `hi`. -/
def dutyInstant (reached : Time → Bool) : Nat → Time → Time → Time
  | 0, _, hi => hi
  | n + 1, lo, hi =>
    if hi ≤ lo + 1 then hi
    else let mid := (lo + hi) / 2; if reached mid then dutyInstant reached n lo mid else dutyInstant reached n mid hi

/-- R352: the instant of a DUTY forced rest of pin `p`, if it has come by `t`. -/
def State.dutyDue (s : State) (p : Nat) (t : Time) : Option Time :=
  let x := s.pin p
  match x.onSince with
  | some a =>
    let reached := fun u => decide (s.dutyLimit p ≤ x.onTime (s.dutyWin p) u)
    if fld (s.pinWord p 1) 24 8 ≠ 0 && reached t then some (dutyInstant reached 64 a t) else none
  | none => none

/-- R374: OU_STATUS. -/
def State.ouStatus (s : State) (u : Nat) : Word :=
  let o := s.ou u
  flag 0 (s.pinLevel u) ||| flag 1 (!s.isInput u && o.drive) ||| flag 2 (s.pin u).hold ||| flag 3 o.holder.isSome
    ||| flag 4 o.sampler.isSome ||| flag 5 (s.isInput u) ||| wAt 8 o.lastCause.toNat ||| wAt 16 (o.holder.getD 0)

end Sys2Proof.Machine
end

