-- ==== Sys2Proof/Machine/Units.lean ====
section
/-! DEFINITION. The units a channel reads, writes and senses (R143 to R150): what each advertises, its room, its sense word, and giving
or taking its data; and the mailbox operations every master shares (R440 to R447). -/

namespace Sys2Proof.Machine

/-! ## Mailboxes -/

def Mbox.idA (b : Mbox) : Ident := BitVec.ofNat 8 (fld b.bind 0 8)
def Mbox.idB (b : Mbox) : Ident := BitVec.ofNat 8 (fld b.bind 8 8)
def Mbox.limit (b : Mbox) : Nat := fld b.bind 16 16

/-- R440: the side an identity accesses a mailbox as: `true` for A; none where it is neither. -/
def Mbox.side (b : Mbox) (m : Ident) : Option Bool :=
  if m = 0 then none else if m = b.idA then some true else if m = b.idB then some false else none

/-- The outgoing direction of a side. -/
def Mbox.dir (b : Mbox) (a : Bool) : MbDir := if a then b.ab else b.ba
def Mbox.setDir (b : Mbox) (a : Bool) (d : MbDir) : Mbox := if a then { b with ab := d } else { b with ba := d }
def Mbox.idOf (b : Mbox) (a : Bool) : Ident := if a then b.idA else b.idB

/-- R441, R446: a side that is held in reset: a core in reset, and the service port while it is detached. -/
def State.sideHeld (s : State) (m : Ident) : Bool :=
  if m.toNat / 16 = 1 then (s.core (m.toNat % 16)).st = .inReset || (s.core (m.toNat % 16)).st = .resetting
  else if m = 0x20 then !s.svc.attached
  else false

/-- R444: an event of mailbox `b` reaches the side of identity `m`: `kind` 0 a message, 1 acknowledged, 2 timed out. -/
def State.mbEvent (s : State) (b : Nat) (m : Ident) (kind : Nat) (rc : BitVec 16) (words : List Word) : State :=
  let x := s.mb b
  if m = 0x01 then (if bit x.note 11 then s.msixNotify (fld x.note 0 11) else s)
  else if m = 0x20 then s.emit (.mbEvent b kind rc words)
  else if m = 0x40 && kind = 0 then s.wakeUnit (0x400 + b)
  else s

/-- R441: a send of the words composed by side `a` of mailbox `b`. -/
def State.mbSend (s : State) (b : Nat) (a : Bool) : State :=
  let x := s.mb b
  let d := x.dir a
  if d.busy then s.setMb b (x.setDir a { d with txRej := true })
  else
    let words := (List.range 8).map fun i => tget 0 d.tx i
    let other := x.idOf (!a)
    let done (rc : BitVec 16) : State :=
      (s.setMb b (x.setDir a { d with acked := true, timeout := false, rc := rc })).mbEvent b (x.idOf a) 1 rc []
    if other = 0 then done 0xFF01
    else if s.sideHeld other then done 0xFF00
    else
      let d := { d with busy := true, acked := false, timeout := false, rc := 0, sentAt := s.now, slot := words, msg := true,
                        gone := false }
      (s.setMb b (x.setDir a d)).mbEvent b other 0 0 words

/-- R442, R447: side `a` acknowledges the message it holds. -/
def State.mbAck (s : State) (b : Nat) (a : Bool) (rc : BitVec 16) : State :=
  let x := s.mb b
  let d := x.dir (!a)
  if !d.msg || 0x8000 ≤ rc.toNat then s.setMb b (x.setDir (!a) { d with rxRej := true })
  else if d.gone then
    s.setMb b (x.setDir (!a) { d with busy := false, msg := false, slot := [], rc := 0, gone := false })
  else
    let d := { d with busy := false, msg := false, slot := [], acked := true, rc := rc }
    (s.setMb b (x.setDir (!a) d)).mbEvent b (x.idOf (!a)) 1 rc []

/-- R446, R447: the sides of identity `m` are reset in every mailbox: messages to it are answered RECEIVER_RESET, messages from it
stay readable, marked SENDER_GONE. A side whose own and whose partner's identity are reset together is reset by both calls. -/
def State.mbReset (s : State) (ms : List Ident) : State :=
  (s.mbox.boxes.map (·.1)).foldl (fun s b =>
    [true, false].foldl (fun s a =>
      let x := s.mb b
      let d := x.dir a
      let snd := ms.contains (x.idOf a)
      let rcv := ms.contains (x.idOf (!a))
      if snd && rcv then s.setMb b (x.setDir a {})
      else if rcv then
        if d.busy && !d.gone then
          (s.setMb b (x.setDir a { d with busy := false, msg := false, slot := [], acked := true, rc := 0xFF00, rxRej := false })).mbEvent
            b (x.idOf a) 1 0xFF00 []
        else s.setMb b (x.setDir a { d with busy := false, msg := false, slot := [], gone := false, rxRej := false,
                                            rc := if d.gone then 0 else d.rc })
      else if snd then
        s.setMb b (x.setDir a { d with tx := [], acked := false, timeout := false, txRej := false, gone := d.msg,
                                       rc := if d.msg then 0xFF02 else 0 })
      else s) s) s

/-! ## Numbers of the units -/

def mboxOf (u : Nat) : Nat := u % 64
def cellOfUnit (u : Nat) : Nat := u - 0x380
def capOfUnit (u : Nat) : Nat := u - 0x300
def txqOf (u : Nat) : Nat := u - 0x100
def slotOf (u : Nat) : Nat := u - 0x700

/-! ## Transmit queues (R389) -/

/-- R412: MAXLEN of a port. -/
def Port.maxLen (p : Port) : Nat := fld p.maxlen 0 14

/-- R389: a WRITE may build a frame in queue `x`. -/
def State.txqOpen (s : State) (x : Nat) : Bool := (s.txq x).en && (s.port (x / 4)).st = .enabled

/-- R216: bytes of frames being built in the queue, reserved by running bursts (of WRITE, or of GATHER into the queue), or confirmed to
timed commands, other than those of channel `me`. -/
def State.txqBuilding (s : State) (me u : Nat) : Nat :=
  (s.chans.map fun p => if p.2.cur.unit = u then
      p.2.frame.length + (match p.2.timed with | some d => if d.unitOk && p.1 ≠ me then p.2.cur.count else 0 | none => 0)
    else 0).sum
  + (s.movers.run.map fun p => match p.2 with
      | some b => if (s.chan b.chan).cur.unit = u && !b.staging && ((s.chan b.chan).cur.op = 0x02 || (s.chan b.chan).cur.op = 0x08)
          then b.len else 0
      | none => 0).sum

/-- R389: the bytes the queue can take of channel `me` (4096: of any). -/
def State.txqRoom (s : State) (me x : Nat) : Nat :=
  32768 - (((s.txq x).frames.map List.length).sum + s.txqBuilding me (0x100 + x))

/-- R147, R389: queue a whole frame; a timed WRITE puts it at the head. -/
def State.txqPut (s : State) (x : Nat) (frame : List Byte) (head : Bool) : State :=
  let q := s.txq x
  s.setTxq x { q with frames := if head then frame :: q.frames else q.frames ++ [frame] }

/-! ## Yazen slots (R403, R404) -/

def Yazen.owns (y : Yazen) (r : Nat) : Bool := bit (tget 0 y.own (r / 32)) (r % 32)

/-- R403: the newest copy of a slot: the local one where this node owns it; absent bytes read 0. -/
def Yazen.slotData (y : Yazen) (r : Nat) : List Byte :=
  slice (if y.owns r then tget [] y.ownSlots r else (tget {} y.slots r).data) 0 64

/-- R144: a WRITE replaces bytes 0 to COUNT - 1 of an owned slot. -/
def State.yzPut (s : State) (r : Nat) (b : List Byte) : State :=
  s.modYz fun y => { y with ownSlots := tput [] y.ownSlots r (splice (y.slotData r) 0 b) }

/-! ## Streams (R384 to R388) -/

def Stream.place (x : Stream) : Bool := bit x.ctrl 2
def Stream.stride (x : Stream) : Nat := fld x.pstride 0 13
def Stream.gap (x : Stream) : Nat := fld x.pstride 16 16

/-- R384, R146: the record that channel `c` reads next, from the byte it has reached: its own begun record, or the oldest one that
nobody has begun. -/
def Stream.next (x : Stream) (c : Nat) : Option (List Byte) :=
  if x.st = .disabled then none
  else match x.owner, x.recs with
    | some o, r :: _ => if o = c then some (r.drop x.taken) else none
    | none, r :: _ => if x.st = .enabled then some r else none
    | _, [] => none

/-- R384: records that no channel has begun. -/
def Stream.free (x : Stream) : List (List Byte) :=
  if x.st = .enabled then x.recs.drop (b2n x.owner.isSome) else []

/-! ## What bursts have reserved of a mailbox (R216) -/

/-- R216: mailbox `b`'s sending slot (`out`), or its message, is reserved for another channel than `c`. -/
def State.boxTaken (s : State) (b : Nat) (out : Bool) (c : Nat) : Bool :=
  s.movers.boxes.any fun x => x.1 = b && x.2.1 == out && x.2.2 ≠ c

/-! ## What a unit advertises (R145) -/

/-- Bytes a READ by channel `c` finds at unit `u`. -/
def State.unitData (s : State) (c u : Nat) : Nat :=
  match unitClass u with
  | .stream => ((s.stream u).next c).elim 0 (fun r => max 1 r.length)
  | .cap => 16 * (s.capFree (capOfUnit u)).length
  | .serial => 16 * (s.serFree (u % 8)).length
  | .mbox => (match (s.mb (mboxOf u)).side 0x40 with
      | some a => let d := (s.mb (mboxOf u)).dir (!a)
                  if d.msg && !s.boxTaken (mboxOf u) false c then 32 else 0
      | none => 0)
  | .cell => 48
  | .yazen => 64
  | _ => 0

/-- Bytes a WRITE by channel `c` can put into unit `u`. R216: a mailbox's slot that another burst has reserved takes nothing. -/
def State.unitRoom (s : State) (c u : Nat) : Nat :=
  match unitClass u with
  | .txq => s.txqRoom c (txqOf u)
  | .mbox => (match (s.mb (mboxOf u)).side 0x40 with
      | some a => let d := (s.mb (mboxOf u)).dir a
                  if d.busy || s.boxTaken (mboxOf u) true c then 0 else 32
      | none => 0)
  | .yazen => 64
  | _ => 0

/-- R144, R147, R389, R440: the unit refuses the command outright. -/
def State.unitCheck (s : State) (op u : Nat) : Bool :=
  match unitClass u with
  | .mbox => ((s.mb (mboxOf u)).side 0x40).isNone
  | .yazen => op = 0x02 && !s.yz.owns (slotOf u)
  | .txq => !s.txqOpen (txqOf u)
  | _ => false

/-- R160: a unit that a WAIT of kind UNIT awaits advertises data. -/
def State.unitReady (s : State) (u : Nat) : Bool :=
  match unitClass u with
  | .stream => !(s.stream u).free.isEmpty
  | _ => decide (0 < s.unitData 4096 u)

/-! ## SENSE (R149) -/

def sat255 (n : Nat) : Nat := min 255 n

/-- The sense word of unit `u`. -/
def State.senseWord (s : State) (u : Nat) : BitVec 16 :=
  let w : Word := match unitClass u with
    | .stream => let x := s.stream u; flag 0 (!x.free.isEmpty) ||| wAt 8 (sat255 x.recs.length)
    | .txq =>
      let x := txqOf u
      flag 0 (decide ((s.port (x / 4)).maxLen ≤ s.txqRoom 4096 x + 4)) ||| flag 1 (s.port (x / 4)).link
        ||| wAt 8 (sat255 (s.txq x).frames.length)
    | .out => s.ouStatus (u % 128) &&& 0xF
    | .cap => (s.cap (capOfUnit u)).status
    | .cell => s.cellStatus (cellOfUnit u)
    | .mbox =>
      (match (s.mb (mboxOf u)).side 0x40 with
       | some a => let x := s.mb (mboxOf u)
                   flag 0 (x.dir (!a)).msg ||| flag 1 (x.dir a).busy ||| flag 2 (x.dir a).timeout
       | none => 0)
    | .serial => (s.ser (u % 8)).status
    | .yazen =>
      let y := s.yz
      let c := tget {} y.slots (slotOf u)
      let age := if c.seen then sat255 (y.begun - c.cycle) else 255
      flag 0 (c.seen && decide (age = 0)) ||| flag 1 (y.owns (slotOf u)) ||| wAt 8 age
    | _ => 0
  w.setWidth 16

/-- R149: the bytes advertised, in the sense block. -/
def State.senseBytes (s : State) (u : Nat) : Nat :=
  match unitClass u with
  | .stream => (s.stream u).free.head?.elim 0 List.length
  | .cap | .serial => s.unitData 4096 u
  | .txq => s.txqRoom 4096 (txqOf u)
  | _ => 0

/-- R149: the sense block, sampled at `t`. -/
def State.senseBlock (s : State) (u : Nat) (t : Time) : List Byte :=
  leBytes 2 (s.senseWord u).toNat ++ [0, 0] ++ leBytes 4 (s.senseBytes u) ++ leBytes 8 t

/-- R149: COND := ((SW and MASK) = MATCH). -/
def Group.senseCond (g : Group) (sw : BitVec 16) : Bool := (sw &&& BitVec.ofNat 16 (fld g.w1 0 16)) = BitVec.ofNat 16 (fld g.w1 16 16)

/-! ## The snapshot of a counter cell (R148) -/

def State.cellSnapshot (s : State) (n : Nat) (t : Time) : List Byte :=
  let c := s.cell n
  leBytes 4 c.phase.toNat ++ leBytes 2 (s.fracOf n t).toNat ++ leBytes 6 c.turn.toNat
    ++ leBytes 2 (s.cellStatus n).toNat ++ [0, 0] ++ leBytes 8 (c.lastT.getD 0)
    ++ leBytes 8 (s.velOf n).toNat ++ leBytes 8 (s.accOf n).toNat ++ leBytes 8 t

/-! ## Taking and flushing -/

/-- R146: the record that channel `c` has begun leaves the stream. -/
def State.dropRecord (s : State) (u c : Nat) : State :=
  let x := s.stream u
  if x.owner = some c then s.setStream u { x with owner := none, taken := 0, recs := x.recs.drop 1 } else s

/-- R150: FLUSH. Records reserved by started bursts, and a record that a channel has begun, stay. -/
def State.flushUnit (s : State) (u : Nat) : State :=
  match unitClass u with
  | .stream => let x := s.stream u; s.setStream u { x with recs := x.recs.take (b2n x.owner.isSome) }
  | .cap => let x := s.cap (capOfUnit u)
            s.setCap (capOfUnit u) { x with fifo := (s.capFree (capOfUnit u)).foldl List.erase x.fifo }
  | .serial => let x := s.ser (u % 8); s.setSer (u % 8) { x with raw := (s.serFree (u % 8)).foldl List.erase x.raw }
  | .txq => s.setTxq (txqOf u) { s.txq (txqOf u) with frames := [] }
  | _ => s

/-! ## Placement (R386 to R388) -/

/-- R377, R380: bytes of the tag of an Ethernet frame: one tag of IEEE 802.1Q or the outer one of 802.1ad. -/
def tagLen (f : List Byte) : Nat := let e := beNat (slice f 12 2); if e = 0x8100 || e = 0x88A8 then 4 else 0

/-- R380: the EtherType after at most one tag, and where what follows it begins. -/
def etherType (f : List Byte) : Nat := beNat (slice f (12 + tagLen f) 2)
def l3At (f : List Byte) : Nat := 14 + tagLen f

/-- R381: IPv4; and IPv4 UDP that is not a non-first fragment. -/
def isIpv4 (f : List Byte) : Bool := etherType f = 0x0800
def isUdp (f : List Byte) : Bool :=
  isIpv4 f && f.getD (l3At f + 9) 0 = 17 && beNat (slice f (l3At f + 6) 2) % 8192 = 0

/-- Where the UDP header begins, the destination port, and where the payload begins. -/
def udpAt (f : List Byte) : Nat := l3At f + 4 * ((f.getD (l3At f) 0).toNat % 16)
def udpDst (f : List Byte) : Nat := beNat (slice f (udpAt f + 2) 2)
def udpPayload (f : List Byte) : Nat := udpAt f + 8

/-- R386: a record's index, its payload, and how many of its bytes lie beyond STRIDE. -/
def Stream.placeOf (x : Stream) (rec_ : List Byte) : Nat × List Byte × Nat :=
  let p := udpPayload rec_
  let w := fld x.pf 10 2 + 1
  let v := beNat (slice rec_ (p + fld x.pf 0 10) w)
  let i := (((v : Int) - x.pbase.toNat) % (2 ^ (8 * w) : Nat)).toNat
  let pay := rec_.drop (p + fld x.pf 16 10)
  (i, pay.take x.stride, pay.length - x.stride)

end Sys2Proof.Machine
end

