-- ==== Sys2Proof/Machine/Transfer.lean ====
section
/-! DEFINITION. Bursts (06_data_movement.md) and what a burst needs before its grant: fragments, first translations, the unit's data or
room; how a burst is formed, translated in flight, read and written; translation faults in flight (R314 to R321). -/

namespace Sys2Proof.Machine

/-! ## What the channel's current command addresses next -/

def Chan.retryN (h : Chan) : Nat := fld h.xfer 0 3
/-- R215. -/
def Chan.bmax (h : Chan) : Nat := 64 * 2 ^ fld h.xfer 4 3
/-- Bytes (or elements) of the current group already done. -/
def Chan.doneN (h : Chan) : Nat := h.cur.count - h.resid

/-- A place in an address space: physical or virtual, and the address. -/
abbrev Span := Bool × Nat

/-- The ADDR side. -/
def Chan.spanA (h : Chan) : Span :=
  match h.fragA with
  | some f => (f.phy, f.addr)
  | none => (h.cur.phy, h.daddr)

/-- The second address of MOVE and COMPARE; the destination of GATHER. -/
def Chan.spanB (h : Chan) : Span :=
  let g := h.cur
  if g.op = 0x08 then (g.gDphy, g.gDst + h.doneN * g.gSize + h.ebyte)
  else match h.fragB with
    | some f => (f.phy, f.addr)
    | none => (if g.op = 0x05 then g.dphy else g.bphy, g.opLo + h.doneN)

/-- R142: a fragment is used up, or not yet read. -/
def fragNeeds : Option Frag → Bool
  | some f => f.left = 0
  | none => false

/-- R142: a LAST fragment is used up. -/
def fragOver : Option Frag → Bool
  | some f => f.left = 0 && f.last
  | none => false

def Frag.step (n : Nat) (f : Frag) : Frag := { f with addr := f.addr + n, left := f.left - n }

/-- R223: the context after `n` bytes of the command have moved. -/
def Chan.moved (h : Chan) (n : Nat) : Chan :=
  let g := h.cur
  let fa := h.fragA.map (Frag.step n)
  let fb := h.fragB.map (Frag.step n)
  if g.op = 0x04 then { h with daddr := h.daddr + n }
  else if g.op = 0x08 then
    let total := h.ebyte + n
    let k := total / max 1 g.gSize
    { h with resid := h.resid - k, ebyte := total % max 1 g.gSize, daddr := h.daddr + k * (if g.gIw64 then 8 else 4) }
  else
    { h with resid := h.resid - n, fragA := fa, fragB := fb,
             daddr := match fa with
               | some f => f.addr
               | none => if g.op = 0x01 && g.skp then h.daddr else h.daddr + n }

/-- R215: what a fragment in use leaves. -/
def fragRoom (f : Option Frag) (d : Nat) : Nat := f.elim d Frag.left

/-- The first page of each side, with the access it needs (R308, R315). -/
def Chan.firstSpans (h : Chan) : List (Span × Access) :=
  let g := h.cur
  match g.op with
  | 0x01 => if g.skp then [] else [(h.spanA, .write)]
  | 0x02 | 0x30 => [(h.spanA, .read)]
  | 0x04 | 0x06 => [(h.spanA, .write)]
  | 0x05 => [(h.spanA, .read), (h.spanB, .write)]
  | 0x07 => (h.spanA, .read) :: (if g.const then [] else [(h.spanB, .read)])
  | 0x08 => (h.spanA, .read) :: (if unitClass g.unit = .txq then [] else [(h.spanB, .write)])
  | _ => []

/-! ## Translation faults (R316 to R321) -/

def State.parkUsed (s : State) : Nat := (s.chans.filter fun p => p.2.park.isSome).length

def XFault.acc (f : XFault) : Access := if f.write then .write else .read

/-- R323: the fault record of channel `c`. -/
def State.chanFault (s : State) (c : Nat) (f : XFault) (acc : Access) (timed parked lost : Bool) : State :=
  s.faultRecord { va := f.va, cause := f.cause, acc := acc, timed := timed, parked := parked, lost := lost, level := f.level,
                  source := c, kind := if timed then 2 else 1, dom := (s.chan c).domain, entry := f.entry }

/-- R319, R320: keep the bytes taken from a stream unit; answers PARKED and PARK_LOST. -/
def State.parkBytes (s : State) (c : Nat) (left : List Byte) : Bool × Bool × State :=
  if left.isEmpty then (false, false, s)
  else if (s.chan c).park.isSome || s.parkUsed < 64 then
    let s := s.modChan c fun h => { h with park := some left }
    (true, false, { s with xl := { s.xl with parkPeak := max s.xl.parkPeak s.parkUsed } })
  else
    let s := s.modChan c fun h => h.setSt stParkLost
    (false, true, ({ s with xl := { s.xl with parkLost := satInc s.xl.parkLost } }).report 134)

/-- R318: a translation fault stops an untimed command: `left` is what a stream unit gave and nothing has written. A slot that still
holds bytes of an earlier fault is PARKED too (R321, R323). An accepted SUSPEND not yet in effect is void (log 18). -/
def State.faultStop (s : State) (c : Nat) (f : XFault) (acc : Access) (left : List Byte) : State :=
  let (_, lost, s) := s.parkBytes c left
  let s := s.modChan c fun h =>
    { h.setSt stTranslation with faultVa := f.va, ahead := [], aheadStop := false, tries := 0, leafs := [], suspReq := false }
  let s := s.chanFault c f acc false (s.chan c).park.isSome lost
  let s := (s.forget (.chan c)).forget (.fetch c)
  let h := s.chan c
  if h.st = .haltPending then s
  else match s.chanPost c (h.recFaulted c) with
    | (true, s) => s.modChan c fun h => { h with st := .faulted }
    | (false, s) => s.holdRec c (h.recFaulted c) false .faulted

/-- Translate for a burst of channel `c`: by the pages held with its timed command alone (R327 to R329), else by the first pages
translated for the burst (R315), the cache, or a walk. -/
def State.chanXl (s : State) (c va : Nat) (acc : Access) : Xl × State :=
  let h := s.chan c
  match h.timed with
  | some d => match d.pages.find? (·.covers h.domain va) with
    | some l => (leafXl l va acc, s)
    | none => (.miss, s)
  | none => match h.leafs.find? (·.covers h.domain va) with
    | some l => (leafXl l va acc, s)
    | none => s.xlate (.chan c) h.domain va acc

/-- R315: translate the first pages of all sides, each for itself (R314), and keep them for the burst; answers whether all of them are
there. -/
def State.firstPages (s : State) (c : Nat) : List (Span × Access) → Bool × State
  | [] => (true, s)
  | ((true, _), _) :: r => s.firstPages c r
  | ((false, va), acc) :: r =>
    match s.chanXl c va acc with
    | (.hit _ _ l, s) => (s.modChan c fun h => { h with leafs := if h.leafs.contains l then h.leafs else h.leafs ++ [l] }).firstPages c r
    | (.miss, s) => (false, (s.firstPages c r).2)
    | (.fault cause level entry, s) =>
      (false, s.faultStop c { va := va, cause := cause, level := level, entry := entry, write := acc = .write } acc [])

/-! ## Before a grant (R145, R215, R217) -/

/-- R145, R217: the unit side has data, or room, for the next burst of channel `c`. -/
def State.sideReady (s : State) (c : Nat) : Bool :=
  let h := s.chan c
  let g := h.cur
  match g.op with
  | 0x01 => h.park.isSome || !h.snap.isEmpty || decide (0 < s.unitData c g.unit)
  | 0x02 => decide (0 < s.unitRoom c g.unit)
  | 0x08 => unitClass g.unit ≠ .txq || decide (0 < s.txqRoom c (txqOf g.unit))
  | _ => true

/-- The READ is in placement mode (R386). -/
def State.placing (s : State) (c : Nat) : Bool :=
  let g := (s.chan c).cur
  g.op = 0x01 && unitClass g.unit = .stream && (s.stream g.unit).place

/-- A timed command of the channel is committed. -/
def Chan.committedNow (h : Chan) : Bool := match h.timed with | some d => d.committed.isSome | none => false

/-- The channel asks for its next burst, or waits for a fragment entry, its unit, or a translation. While it drains, only a committed
command goes on (R194, R243). -/
def State.pump (s : State) (c : Nat) : State :=
  let h := s.chan c
  if h.st = .haltPending && !h.committedNow then s
  else
    let s := s.setChan c { h with act := .move, st := h.st.going }
    if fragOver h.fragA || fragOver h.fragB then s.endWith c [stProgramCheck]
    else if fragNeeds h.fragA || fragNeeds h.fragB then s
    else if !s.sideReady c then s.enterWait c (.unit h.cur.unit)
    else match s.firstPages c h.firstSpans with
      | (true, s) => s.modChan c fun h => { h with act := .req }
      | (false, s) => s

/-! ## Fragment tables (R141, R142) -/

/-- The entry of a fragment table: an error's status bit, or the table's next state. R124: the bytes it addresses are those of the `left`
that the transfer still has. -/
def Frag.entry (f : Frag) (phyOk : Bool) (left : Nat) (b : List Byte) : Nat ⊕ Frag :=
  let a := num b 0 8
  let len := num b 8 4
  let fl := num b 12 4
  let phy := fl % 2 = 1
  let link := fl / 4 % 2 = 1
  if 8 ≤ fl || 2 ^ 48 ≤ a || (link && len ≠ 0) || (!link && len = 0) || (link && a % 16 ≠ 0) then .inl stProgramCheck
  else if phy && (!phyOk || decide (sramSize < a + (if link then 16 else min len left))) then .inl stProtection
  else if link then .inr { f with tab := a, tabPhy := phy }
  else .inr { tab := f.tab + 16, tabPhy := f.tabPhy, addr := a, left := len, phy := phy, last := fl / 2 % 2 = 1 }

/-- The next entry of the table of side A (or B) has been read. -/
def State.fragRead (s : State) (c : Nat) (b : List Byte) : State :=
  let h := s.chan c
  let ok := (s.dom h.domain).phyOk
  if fragNeeds h.fragA then
    match (h.fragA.getD {}).entry ok h.resid b with
    | .inl st => s.endWith c [st]
    | .inr f => (s.setChan c { h with fragA := some f, daddr := if f.left = 0 then h.daddr else f.addr }).pump c
  else
    match (h.fragB.getD {}).entry ok h.resid b with
    | .inl st => s.endWith c [st]
    | .inr f => (s.setChan c { h with fragB := some f }).pump c

/-- Where the fragment entry that the channel waits for lies. -/
def Chan.fragSpan (h : Chan) : Option Span :=
  if h.act ≠ .move then none
  else if fragNeeds h.fragA then h.fragA.map fun f => (f.tabPhy, f.tab)
  else if fragNeeds h.fragB then h.fragB.map fun f => (f.tabPhy, f.tab)
  else none

/-! ## Forming a burst (R215, R216, R226) -/

/-- R226: bytes left in the first element of a GATHER burst. -/
def Chan.firstElem (h : Chan) : Nat := h.cur.gSize - h.ebyte

/-- R215: bytes that at most 64 elements of GATHER give. -/
def Chan.gatherBytes (h : Chan) : Nat := h.firstElem + (min 64 h.resid - 1) * h.cur.gSize

/-- Elements that `len` bytes touch. -/
def Chan.elemsIn (h : Chan) (len : Nat) : Nat :=
  if len ≤ h.firstElem then 1 else 1 + (len - h.firstElem + h.cur.gSize - 1) / max 1 h.cur.gSize

/-- R215: the bytes of a FIFO's unreserved records. -/
def State.fifoBytes (s : State) (u : Nat) : List Byte :=
  match unitClass u with
  | .cap => (s.capFree (capOfUnit u)).flatMap CapRec.bytes
  | .serial => (s.serFree (u % 8)).flatMap id
  | _ => []

/-- What a READ of channel `c` can take of its unit now, in order (parked bytes and split records first). -/
def State.readSource (s : State) (c : Nat) : List Byte :=
  let h := s.chan c
  let u := h.cur.unit
  match h.park with
  | some b => b
  | none =>
    match unitClass u with
    | .stream =>
      let r := ((s.stream u).next c).getD []
      if (s.stream u).place then ((s.stream u).placeOf r).2.1 else r
    | .cap | .serial => h.snap ++ s.fifoBytes u
    | .cell => h.snap.drop h.recTaken
    | .yazen => h.snap.drop h.doneN
    | .mbox => (match (s.mb (mboxOf u)).side 0x40 with
        | some a => (((s.mb (mboxOf u)).dir (!a)).slot.flatMap fun w => leBytes 4 w.toNat).drop h.doneN
        | none => [])
    | _ => []

/-- R216: the sending slot of mailbox `b` (`out`), or its message, is reserved for channel `c`. -/
def State.claimBox (s : State) (c b : Nat) (out : Bool) : State :=
  { s with movers := { s.movers with boxes := (b, out, c) :: s.movers.boxes.filter fun x => x.1 ≠ b || x.2.1 != out } }

/-- R216: the unit reserves what a READ burst of `len` bytes takes; answers the records reserved of a capture FIFO, and of a serial one. -/
def State.reserve (s : State) (c len : Nat) : List CapRec × List (List Byte) × State :=
  let h := s.chan c
  let u := h.cur.unit
  if h.park.isSome then ([], [], s)
  else
    let n := (len - h.snap.length + 15) / 16
    let left := ((h.snap ++ s.fifoBytes u).drop len).take ((h.snap.length + 16 * n) - len)
    match unitClass u with
    | .stream => ([], [], s.setStream u { s.stream u with owner := some c })
    | .cap => ((s.capFree (capOfUnit u)).take n, [], s.modChan c fun h => { h with snap := left })
    | .serial => ([], (s.serFree (u % 8)).take n, s.modChan c fun h => { h with snap := left })
    | .mbox => ([], [], s.claimBox c (mboxOf u) false)
    | _ => ([], [], s)

/-- R153: `n` bytes of FILL's pattern from offset `o`. -/
def Group.pattern (g : Group) (o n : Nat) : List Byte := (List.range n).map fun i => g.patByte (o + i)

/-- A side of `len` bytes at a span. -/
def mkSide (p : Span) (len : Nat) (base : Nat := 0) : Side := { phy := p.1, addr := p.2, len := len, base := base }

/-- R215: form the next burst of channel `c`, `timed` or not: its length is fixed and the unit reserves. R321: bytes parked for the channel
make one burst, whatever BMAX has become. -/
def State.form (s : State) (c : Nat) (timed : Bool) : Burst × State :=
  let h := s.chan c
  let g := h.cur
  let lim := min (if timed || s.placing c || h.park.isSome then 4096 else min 4096 h.bmax)
    (min (if g.op = 0x08 || g.op = 0x04 then 4096 else h.resid) (min (fragRoom h.fragA 4096) (fragRoom h.fragB 4096)))
  let b : Burst := { chan := c, timed := timed, retry := h.retryN, parked := h.park.isSome }
  match g.op with
  | 0x01 =>
    let src := s.readSource c
    let len := min lim src.length
    let (l, r, s) := s.reserve c len
    ({ b with len := len, unit := src.take len, recs := l, raws := r, epoch := (s.cap (capOfUnit g.unit)).epoch,
              wr := if g.skp then none else some (mkSide h.spanA len) }, s)
  | 0x02 =>
    let len := min lim (s.unitRoom c g.unit)
    ({ b with len := len, rd := [mkSide h.spanA len] }, if unitClass g.unit = .mbox && 0 < len then s.claimBox c (mboxOf g.unit) true else s)
  | 0x30 => ({ b with len := lim, rd := [mkSide h.spanA lim] }, s)
  | 0x04 =>
    let k := h.daddr - g.addr
    ({ b with len := 16 - k, unit := h.snap.drop k, wr := some (mkSide h.spanA (16 - k)) }, s)
  | 0x05 => ({ b with len := lim, rd := [mkSide h.spanA lim], wr := some (mkSide h.spanB lim) }, s)
  | 0x06 => ({ b with len := lim, unit := g.pattern h.doneN lim, wr := some (mkSide h.spanA lim) }, s)
  | 0x07 =>
    ({ b with len := lim, rd := mkSide h.spanA lim :: (if g.const then [] else [mkSide h.spanB lim]) }, s)
  | 0x08 =>
    let room := if unitClass g.unit = .txq then s.txqRoom c (txqOf g.unit) else 4096
    let len := min (min lim room) h.gatherBytes
    let w := if g.gIw64 then 8 else 4
    ({ b with len := len, rd := [mkSide h.spanA (h.elemsIn len * w)],
              wr := if unitClass g.unit = .txq then none else some (mkSide h.spanB len) }, s)
  | _ => (b, s)

/-! ## Running a burst (R218, R221, R228 to R230, R314) -/

/-- R316, R317: the burst ends at offset `k` unless it already ends before. -/
def Burst.cutAt (b : Burst) (k : Nat) (f : Option XFault) (elem : Bool := false) : Burst :=
  match b.cut with
  | some (k', _) => if k < k' then { b with cut := some (k, f), elemBad := elem } else b
  | none => { b with cut := some (k, f), elemBad := elem }

/-- The offset at which the burst ends. -/
def Burst.lim (b : Burst) : Nat := match b.cut with | some (k, _) => min k b.len | none => b.len

def State.mrrs (s : State) : Nat := 128 * 2 ^ fld s.movers.pcie 4 3
def State.mps (s : State) : Nat := 128 * 2 ^ fld s.movers.pcie 0 3

/-- R221: pieces of [a, a + n) at multiples of `m` bytes from `a`, and at 4 KiB boundaries: offset and length. -/
def pieces (m : Nat) : Nat → Nat → Nat → Nat → List (Nat × Nat)
  | 0, _, _, _ => []
  | f + 1, o, a, n =>
    if n = 0 then []
    else let k := min (min (max 1 m) n) (4096 - a % 4096); (o, k) :: pieces m f (o + k) (a + k) (n - k)

/-- R226, R317: the burst offset of a side's byte; an index entry stands for the first byte of its element. -/
def Burst.ofsOf (b : Burst) (h : Chan) (side o : Nat) : Nat :=
  if h.cur.op = 0x08 && side = 0 then
    let i := o / (if h.cur.gIw64 then 8 else 4)
    if i = 0 then 0 else h.firstElem + (i - 1) * h.cur.gSize
  else (b.rd.getD side {}).base + o

/-- R317: where a translation fault at offset `o` of a side ends the burst: a fragment of an element counts from its element's first
byte. -/
def Burst.faultAt (b : Burst) (h : Chan) (side o : Nat) : Nat :=
  if h.cur.op = 0x08 && side ≠ 0 then (b.rd.getD side {}).base else b.ofsOf h side o

/-- R235: the last reissue of a request of channel `c` fails in this cycle: a HALT of the same cycle leaves ABORTED clear. -/
def State.lastFail (s : State) (c : Nat) : State :=
  s.modChan c fun h => { h with busAt := some (cyc s.now), noAbort := h.noAbort || h.haltAt = some (cyc s.now) }

/-- R228: requests of a piece of host memory are issued, or fail because the link is not up, with their reissues. -/
def State.request (s : State) (b : Burst) (h : Chan) (side : Nat) (g : Seg) : Burst × State :=
  if s.irq.link then
    let l := pieces s.mrrs 64 g.ofs g.addr g.len
    ({ b with reqs := b.reqs ++ l.map fun p => { side := side, ofs := p.1, addr := g.addr + (p.1 - g.ofs), len := p.2 } },
     l.foldl (fun s p => s.emit (.hostRead (g.addr + (p.1 - g.ofs)) p.2)) s)
  else
    (b.cutAt (b.ofsOf h side g.ofs) none,
     { s with movers := { s.movers with retry := s.movers.retry + BitVec.ofNat 32 b.retry } }.lastFail b.chan)

/-- R314: translate the rest of one side, page by page; answers the side, its new pieces and a fault at its offset. -/
def State.pumpSide (s : State) (c : Nat) (acc : Access) : Nat → Side → List Seg → Side × List Seg × Option (Nat × XFault) × State
  | 0, d, l => (d, l, none, s)
  | n + 1, d, l =>
    if d.len ≤ d.x then (d, l, none, s)
    else if d.phy then
      let g : Seg := { ofs := d.x, len := d.len - d.x, phy := true, addr := d.addr + d.x }
      ({ d with x := d.len, segs := d.segs ++ [g] }, l ++ [g], none, s)
    else
      let va := d.addr + d.x
      let k := min (d.len - d.x) (4096 - va % 4096)
      match s.chanXl c va acc with
      | (.hit phy a leaf, s) =>
        let g : Seg := { ofs := d.x, len := k, phy := phy, addr := a, big := leaf.big }
        s.pumpSide c acc n { d with x := d.x + k, segs := d.segs ++ [g] } (l ++ [g])
      | (.miss, s) => (d, l, none, s)
      | (.fault cause level entry, s) =>
        (d, l, some (d.x, { va := va, cause := cause, level := level, entry := entry, write := acc = .write }), s)

/-- Translate and request read side `i`. -/
def State.pumpRead (s : State) (b : Burst) (i : Nat) : Burst × State :=
  let h := s.chan b.chan
  let (d, l, f, s) := s.pumpSide b.chan .read 4 (b.rd.getD i {}) []
  let b := { b with rd := b.rd.set i d }
  let (b, s) := l.foldl (fun p g => if g.phy then p else p.2.request p.1 h i g) (b, s)
  match f with
  | some (o, x) => (b.cutAt (b.faultAt h i o) (some x), s)
  | none => (b, s)

/-- R218: the bytes of read side `i` of a burst, from SRAM and from what the host has answered; a failed SRAM read gives the
offset in the side of its beat, after its reissues (R228, R229). -/
def State.segBytes (s : State) (b : Burst) (i : Nat) (g : Seg) : List Byte × Option Nat × State :=
  if g.phy then
    match s.badWord g.addr g.len with
    | none => let (x, s) := s.sramRead g.addr g.len; (x.getD [], none, s)
    | some w =>
      let s := (List.range (b.retry + 1)).foldl (fun s _ => (s.sramRead g.addr g.len).2) s
      let s := { s with movers := { s.movers with retry := s.movers.retry + BitVec.ofNat 32 b.retry } }
      let k := max g.addr (8 * w / 64 * 64) - g.addr
      ((s.sramBytes g.addr k), some (g.ofs + k), s)
  else ((List.range g.len).map fun j => tget 0 b.got (i * 8192 + g.ofs + j), none, s)

/-- The first `n` bytes of read side `i`; fewer where an SRAM read fails, with the offset. -/
def State.sideBytes (s : State) (b : Burst) (i n : Nat) : List Byte × Option Nat × State :=
  (b.rd.getD i {}).segs.foldl (fun p g =>
    match p with
    | (l, some k, s) => (l, some k, s)
    | (l, none, s) =>
      if n ≤ g.ofs then (l, none, s)
      else
        let (x, f, s) := s.segBytes b i { g with len := min g.len (n - g.ofs) }
        (l ++ x, f, s)) ([], none, s)

/-- Bytes of side `i` are all there below its offset `n`: translated and answered. -/
def Burst.sideHas (b : Burst) (i n : Nat) : Bool :=
  decide (min n (b.rd.getD i {}).len ≤ (b.rd.getD i {}).x) && b.reqs.all fun r => r.side ≠ i || decide (n ≤ r.ofs)

/-- R226, R155: the element sides of a GATHER burst once its index entries are there. -/
def State.gatherSides (s : State) (b : Burst) : Burst × State :=
  let h := s.chan b.chan
  let g := h.cur
  if g.op ≠ 0x08 || b.indexed || b.staging then (b, s)
  else
    let w := if g.gIw64 then 8 else 4
    let n := h.elemsIn b.lim
    if !b.sideHas 0 (n * w) then (b, s)
    else
      let (ix, bad, s) := s.sideBytes b 0 (n * w)
      let b := match bad with | some o => b.cutAt (b.ofsOf h 0 o) none | none => b
      let b := { b with indexed := true }
      let b := (List.range n).foldl (fun b i =>
        let base := b.ofsOf h 0 (i * w)
        if b.lim ≤ base then b
        else
          let ofs := num ix (i * w) w
          let a := g.gBase + ofs
          if 2 ^ 48 < a + g.gSize || (g.gBphy && decide (sramSize < a + g.gSize)) then b.cutAt base none true
          else
            let skip := if i = 0 then h.ebyte else 0
            { b with rd := b.rd ++ [mkSide (g.gBphy, a + skip) (min (g.gSize - skip) (b.len - base)) base] }) b
      (b, s)

/-- R314: translate and request what the burst still lacks. -/
def State.pumpBurst (s : State) (mv : Nat) : State :=
  match tget none s.movers.run mv with
  | none => s
  | some b =>
    let put (b : Burst) (s : State) : State := { s with movers := { s.movers with run := tput none s.movers.run mv (some b) } }
    let (b, s) := (List.range b.rd.length).foldl (fun p i => p.2.pumpRead p.1 i) (b, s)
    let k := b.rd.length
    let (b, s) := s.gatherSides b
    let (b, s) := (List.range (b.rd.length - k)).foldl (fun p i => p.2.pumpRead p.1 (k + i)) (b, s)
    match b.wr with
    | none => put b s
    | some d =>
      let (d, _, f, s) := s.pumpSide b.chan .write 4 d []
      let b := { b with wr := some d }
      put (match f with | some (o, x) => b.cutAt o (some x) | none => b) s

/-- R227: the bytes of read side `i` that are there and read without failing, contiguous from its start: their number, and the bytes. -/
def State.sideClean (s : State) (b : Burst) (i : Nat) : Nat :=
  let n := (b.rd.getD i {}).segs.foldl (fun k g =>
    if k < g.ofs then k
    else if g.phy then match s.badWord g.addr g.len with
      | none => g.ofs + g.len
      | some w => g.ofs + (max g.addr (8 * w / 64 * 64) - g.addr)
    else g.ofs + g.len) 0
  b.reqs.foldl (fun k r => if r.side = i then min k r.ofs else k) n

def State.sidePeek (s : State) (b : Burst) (i n : Nat) : List Byte :=
  ((b.rd.getD i {}).segs.flatMap fun g =>
    if g.phy then s.sramBytes g.addr g.len else (List.range g.len).map fun j => tget 0 b.got (i * 8192 + g.ofs + j)).take n

/-- R154, R227: the first difference of two byte lists. -/
def firstDiff : List Byte → List Byte → Nat → Option Nat
  | a :: r, b :: q, i => if a = b then firstDiff r q (i + 1) else some i
  | _, _, _ => none

/-- R218, R227: the first difference that a COMPARE burst can see in what it has read. -/
def State.diffSeen (s : State) (b : Burst) : Option Nat :=
  let h := s.chan b.chan
  if h.cur.op ≠ 0x07 then none
  else
    let n := min b.lim (min (s.sideClean b 0) (if h.cur.const then b.len else s.sideClean b 1))
    firstDiff (s.sidePeek b 0 n) (if h.cur.const then h.cur.pattern h.doneN n else s.sidePeek b 1 n) 0

/-- The burst has read what it will read and translated what it will write. -/
def State.burstReady (s : State) (b : Burst) : Bool :=
  let h := s.chan b.chan
  let n := b.lim
  (if h.cur.op = 0x08 && !b.staging then
    (b.indexed || n = 0) && (List.range b.rd.length).all fun i => i = 0 || b.sideHas i (n - (b.rd.getD i {}).base)
  else (List.range b.rd.length).all fun i => b.sideHas i n)
  && (match b.wr with | some d => decide (n ≤ d.x) | none => true)

/-- R218, R226: what the burst has read, in burst order, and the offset of a failed SRAM read. -/
def State.burstData (s : State) (b : Burst) : List Byte × Option Nat × State :=
  if b.rd.isEmpty then (b.unit, none, s)
  else if (s.chan b.chan).cur.op = 0x08 && !b.staging then
    (List.range (b.rd.length - 1)).foldl (fun p i =>
      match p with
      | (l, some k, s) => (l, some k, s)
      | (l, none, s) =>
        let d := b.rd.getD (i + 1) {}
        let (x, f, s) := s.sideBytes b (i + 1) (min d.len (b.lim - d.base))
        (l ++ x, f.map (d.base + ·), s)) ([], none, s)
  else s.sideBytes b 0 b.lim

/-- R222, R228: write `data` at a side's pieces, ascending; host writes are split by R221. Answers the offset of the first write
that the link refuses. -/
def State.writeSide (s : State) (d : Side) (data : List Byte) : Option Nat × State :=
  d.segs.foldl (fun p g =>
    match p with
    | (some k, s) => (some k, s)
    | (none, s) =>
      let x := (data.drop g.ofs).take g.len
      if x.isEmpty then (none, s)
      else if g.phy then (none, s.sramWrite g.addr x)
      else if !s.irq.link then (some g.ofs, s)
      else (none, (pieces s.mps 64 0 g.addr x.length).foldl
        (fun s q => s.emit (.hostWrite (g.addr + q.1) ((x.drop q.1).take q.2))) s)) (none, s)

/-- R469: another channel's locked sequence has begun its accesses and locks a beat of the range. -/
def State.beatLocked (s : State) (by_ : Option Nat) (a n : Nat) : Bool :=
  s.chans.any fun p => p.2.inBracket && p.2.lockFirst.isSome && by_ ≠ some p.1
    && p.2.lockBeats.any fun x => decide (a / 64 ≤ x) && decide (x ≤ (a + n - 1) / 64) && decide (0 < n)

/-- R469: a burst waits while it would touch a locked beat. -/
def State.burstLocked (s : State) (b : Burst) : Bool :=
  (b.rd ++ b.wr.toList).any fun d => d.segs.any fun g => g.phy && s.beatLocked (some b.chan) g.addr g.len

/-- Bytes left over of a burst that ends at `n`, where a stream unit gave them (R319). -/
def State.streamLeft (s : State) (b : Burst) (n : Nat) : List Byte :=
  let k := unitClass (s.chan b.chan).cur.unit
  if (s.chan b.chan).cur.op = 0x01 && (k = .stream || k = .cap || k = .serial) then b.unit.drop n else []

/-- R215, R146: the unit gives up what the burst, which has written `n` bytes, reserved. R104: a FIFO that EN has emptied since gives
nothing. The rest of a snapshot stays for the next burst (R134, R316). -/
def State.unreserve (s : State) (b : Burst) (n : Nat) : State :=
  let c := b.chan
  let h := s.chan c
  let u := h.cur.unit
  if h.cur.op ≠ 0x01 || b.parked then s
  else match unitClass u with
    | .stream =>
      let x := s.stream u
      let t := x.taken + b.len
      let gone := x.place || decide ((x.recs.headD []).length ≤ t)
      let s := s.setStream u { x with taken := t }
      let s := s.modChan c fun h => { h with recTaken := h.recTaken + b.len, recEnded := h.recEnded || gone }
      if gone then s.dropRecord u c else s
    | .cap => s.modCap (capOfUnit u) fun x =>
        if x.epoch ≠ b.epoch then x else { x with fifo := b.recs.foldl List.erase x.fifo }
    | .serial => let x := s.ser (u % 8)
                 s.setSer (u % 8) { x with raw := b.raws.foldl List.erase x.raw }
    | .cell => s.modChan c fun h => { h with recTaken := h.recTaken + n, recEnded := decide (48 ≤ h.recTaken + n) }
    | _ => s

/-- R230, R445: what the command has taken of its unit and not written is discarded: the rest of a record or a snapshot, parked bytes, and
a message, whose READ's last burst this was. -/
def State.discardTaken (s : State) (c : Nat) : State :=
  let g := (s.chan c).cur
  let s := s.modChan c fun h => { h with snap := [], park := none, condValid := if h.cur.op = 0x07 then false else h.condValid }
  let s := s.freeRecord c
  match unitClass g.unit, (s.mb (mboxOf g.unit)).side 0x40 with
  | .mbox, some a => if g.op = 0x01 && (mboxOf g.unit, false, c) ∈ s.movers.boxes then s.mbAck (mboxOf g.unit) a 0 else s
  | _, _ => s

/-- R230: a transfer ends by a bus error. R235: one whose last reissue fails in the cycle of a HALT leaves ABORTED clear. -/
def State.busStop (s : State) (c : Nat) : State :=
  let s := (s.report 132).discardTaken c
  if (s.chan c).st = .haltPending then
    s.modChan c fun h => { h.setSt stBusError with noAbort := h.noAbort || h.haltAt = some (cyc s.now) }
  else s.endWith c [stBusError]

/-- R230: a burst ends by a bus error. -/
def State.busError (s : State) (c : Nat) : State :=
  ({ s with movers := { s.movers with busErr := s.movers.busErr + 1 } }).busStop c

/-- An ending check found while the channel may be draining. -/
def State.endOr (s : State) (c b : Nat) : State :=
  if (s.chan c).st = .haltPending then s.modChan c fun h => h.setSt b else s.endWith c [b]

end Sys2Proof.Machine
end

