-- ==== Sys2Proof/Machine/Staging.lean ====
section
/-! DEFINITION. SIGNAL and its edges (R156, R157, R195, R340 to R347), and the staging of timed commands (R184 to R188, R327, R328). -/

namespace Sys2Proof.Machine

/-! ## Patterns (R344 to R346) -/

/-- R344: one 8-byte entry, with whether its reserved bits are 0. -/
def patEntry (b : List Byte) : PatEntry × Bool :=
  let fl := num b 6 1
  let e : PatEntry := { value := BitVec.ofNat 32 (num b 0 4), frac := BitVec.ofNat 16 (num b 4 2), level := fl % 2 = 1,
                        pos := fl / 2 % 2 = 1 }
  (e, fl < 4 && num b 7 1 = 0 && (e.pos || e.frac = 0))

/-- The entries of a pattern. -/
def patEntries (b : List Byte) : List (PatEntry × Bool) := (List.range (b.length / 8)).map fun i => patEntry (slice b (8 * i) 8)

/-- R346: the check of a whole pattern, for a SIGNAL that is timed or not, on a cell of modulus `m`. -/
def patternOk (l : List (PatEntry × Bool)) (tm : Bool) (m : Nat) : Bool :=
  l.all (·.2) &&
  match l with
  | [] => false
  | (e, _) :: r => !e.pos && e.value = 0 &&
      r.all fun p => if p.1.pos then tm && decide (p.1.value.toNat < m) else p.1.value ≠ 0

/-- R179: position entries of a pattern. -/
def posEntries (l : List (PatEntry × Bool)) : Nat := (l.filter (·.1.pos)).length

/-! ## Placing a SIGNAL's edges -/

/-- R195, R345: the head of the pattern has become the next edge: a POSITION entry begins to be predicted. -/
def State.armEdge (s : State) (u : Nat) : State :=
  let o := { s.ou u with posDue := none, posCommitted := none, posLocked := false, posHeld := false, posSeen := false, posPassed := none }
  let s := s.setOu u o
  match o.pat with
  | p :: _ =>
    if p.pos then
      match s.predictEdge o p with
      | some x => s.setOu u { o with posDue := some x, posSeen := true }
      | none => s
    else s
  | [] => s

/-- The SIGNAL of channel `c` has placed its last edge: the slot is free and the command completes. -/
def State.signalDone (s : State) (c : Nat) : State := (s.freeSlots c).complete c

/-- R195: the edge at the head of unit `u`'s pattern has had no prediction and waits for a passing step. -/
def State.edgeWaits (s : State) (u : Nat) : Bool :=
  match (s.ou u).pat with
  | p :: _ => p.pos && !(s.ou u).posSeen && (s.ou u).posPassed.isNone
  | [] => false

/-- R195: in the safe state such an edge is dropped, and the SIGNAL completes with FENCE_CLAMP noted. -/
def State.dropEdges (s : State) (u : Nat) : State :=
  if s.fc.safe && s.edgeWaits u then
    match (s.ou u).holder with
    | some c => ((s.modOu u fun o => { o with pat := [] }).modChan c fun h => h.setSt stFenceClamp).signalDone c
    | none => s
  else s

/-- The edge at the head of unit `u`'s pattern is placed at `t`; the last one completes the SIGNAL. -/
def State.patternStep (s : State) (u : Nat) (t : Time) : State :=
  let o := s.ou u
  match o.pat with
  | [] => s
  | p :: r =>
    let s := (s.setOu u { o with pat := r }).placeEdge u p.level t
    let s : State := match p.pos, o.holder with
      | true, some c => (s.schedGive (.pat c) 1).modChan c fun h => { h with timed := h.timed.map (fun (d : Timed) => { d with patHeld := d.patHeld - 1 }) }
      | _, _ => s
    let s := s.armEdge u
    match r, o.holder with
    | [], some c => s.signalDone c
    | _, _ => s.dropEdges u

/-- R156, R345: channel `c`, which holds its unit's drive slot, places its first edge at `t`; `pat` is a PATTERN's entries. The trailing
edge of a PULSE falls WIDTH after its leading one. -/
def State.signalFire (s : State) (c : Nat) (t : Time) (pat : List PatEntry) : State :=
  let g := (s.chan c).cur
  let u := g.ou
  let s := s.modChan c fun h => { h with act := .signal u, st := h.st.going }
  match g.sigMode with
  | 0 => (s.placeEdge u (bit g.w2 0) t).signalDone c
  | 1 => (s.placeEdge u (bit g.w3 0) t).modOu u fun o => { o with trail := some (o.lastEdge + g.w2.toNat, !bit g.w3 0) }
  | _ => (s.modOu u fun o => { o with pat := pat }).patternStep u t

/-- R340: the drive slot, or the sample slot, of an output unit. -/
def Group.wantsDrive (g : Group) : Bool := g.op = 0x30
def Group.wantsSample (g : Group) : Bool := g.op = 0x04 && unitClass g.unit = .out

/-- R157: the channels that wait for a slot of unit `u`: an untimed SIGNAL, or a staging command. -/
def State.slotWaiters (s : State) (u : Nat) (drive : Bool) : List Nat :=
  s.chanKeys.filter fun c =>
    let h := s.chan c
    (drive && h.st = .waiting && h.act = .slot u) ||
      (match h.timed with
       | some d => d.staging && h.cur.ou = u && (if drive then h.cur.wantsDrive else h.cur.wantsSample)
       | none => false)

/-- R157, R340: the slot of unit `u` is free, was not freed in this cycle, and no lower channel number waits for it than `c`. -/
def State.slotFor (s : State) (c u : Nat) (drive : Bool) : Bool :=
  let o := s.ou u
  (if drive then o.holder.isNone && decide (o.freeAt ≤ cyc s.now) else o.sampler.isNone && decide (o.sampAt ≤ cyc s.now))
    && (s.slotWaiters u drive).all fun k => decide (c ≤ k)

/-- R157, R349: channel `c` has the slot of its unit, unless the pin has become an input: LEVEL and PULSE place their first edge at the
next 125 ps point; a PATTERN is read. -/
def State.signalGo (s : State) (c : Nat) : State :=
  let g := (s.chan c).cur
  if s.isInput g.ou then s.endWith c [stUnitCheck]
  else
    let s := s.modOu g.ou fun o => { o with holder := some c }
    if g.sigMode = 2 then s.pump c else s.signalFire c (s.now + 1) []

/-- R157, R340, R349: an untimed SIGNAL executes, or waits for the slot. -/
def State.signalStart (s : State) (c : Nat) : State :=
  let u := (s.chan c).cur.ou
  if s.isInput u || (s.ou u).holder = some c || s.slotFor c u true then s.signalGo c else s.enterWait c (.slot u)

/-! ## The groups ahead (R137) -/

/-- R137: where the group after `g`, which stands at a span, lies, as far as it is known to follow: a TIC's target, the next in sequence,
or the target of a TICC that does not chain. -/
def Group.after (g : Group) (phy : Bool) (a : Nat) : Option Span :=
  if g.op = 0x10 then some (g.phy, g.addr)
  else if g.cd || g.cc then some (phy, a + g.size)
  else if g.op = 0x11 then some (g.phy, g.addr) else none

/-- R137: the group that is fetched ahead next. -/
def Chan.nextFetch (h : Chan) : Option Span :=
  match h.ahead.getLast? with
  | some (k, g) => g.after (k % 2 = 1) (k / 2)
  | none => h.cur.after h.phy h.cca

/-- R137, R168: how many groups are held ahead: four, and a whole bracket while it is fetched for the checks of its LOCK. -/
def Chan.aheadMax (h : Chan) : Nat := if h.act = .bracket then 9 else 4

/-- R137, R184: a group is still to be fetched ahead. -/
def Chan.wantsAhead (h : Chan) : Bool := decide (h.ahead.length < h.aheadMax) && !h.aheadStop && h.nextFetch.isSome

/-! ## Staging (R184 to R188) -/

/-- R184: the pages, by their first address in each, that staging of a command translates, with the access. -/
def Group.stagePages (g : Group) : List (Nat × Access) :=
  let pages (phy : Bool) (a n : Nat) (acc : Access) : List (Nat × Access) :=
    if phy || n = 0 then [] else (a, acc) :: (if (a + n - 1) / 4096 = a / 4096 then [] else [((a / 4096 + 1) * 4096, acc)])
  match g.op with
  | 0x01 => if g.skp then [] else pages g.phy g.addr g.count .write
  | 0x02 => pages g.phy g.addr g.count .read
  | 0x04 => if g.skp then [] else pages g.phy g.addr 16 .write
  | 0x05 => pages g.phy g.addr g.count .read ++ pages g.dphy g.opLo g.count .write
  | 0x06 => pages g.phy g.addr g.count .write
  | 0x07 => pages g.phy g.addr g.count .read ++ (if g.const then [] else pages g.bphy g.opLo g.count .read)
  | 0x30 => if g.sigMode = 2 then pages g.phy g.addr g.sigCount .read else []
  | _ => []

/-- R184: what the staging of an opcode holds a mover for, or reads. -/
def Group.wantsHeld (g : Group) : Bool := g.op = 0x01 || g.op = 0x05 || g.op = 0x06 || g.op = 0x07
def Group.wantsFill (g : Group) : Bool := g.op = 0x02 || g.op = 0x05 || (g.op = 0x30 && g.sigMode = 2)

/-- R184, R185: the slot of a staging command is there, or needs none. -/
def State.slotOk (s : State) (c : Nat) : Bool :=
  let g := (s.chan c).cur
  if g.wantsDrive then (s.ou g.ou).holder = some c
  else if g.wantsSample then (s.ou g.ou).sampler = some c
  else true

/-- R131, R184, R216: the unit gives what the timed command of channel `c` takes, or has reserved it for the held mover. -/
def State.stageUnit (s : State) (c : Nat) : Bool :=
  let g := (s.chan c).cur
  match g.op, (s.chan c).timed with
  | 0x01, some d => (d.granted && !s.placing c) || (match unitClass g.unit with
      | .cap | .serial | .mbox => decide (g.count ≤ s.unitData c g.unit)
      | _ => decide (0 < s.unitData c g.unit))
  | 0x02, some d => d.unitOk || decide (g.count ≤ s.unitRoom c g.unit)
  | 0x01, none | 0x02, none => false
  | _, _ => true

/-- R327: every page of the command is held. -/
def State.pagesOk (s : State) (c : Nat) : Bool :=
  let h := s.chan c
  match h.timed with
  | some d => h.cur.stagePages.all fun p => d.pages.any (·.covers h.domain p.1)
  | none => false

/-- R184: the items of a staging command that need no mover are done; the next groups are among them. -/
def State.itemsOk (s : State) (c : Nat) : Bool :=
  let h := s.chan c
  match h.timed with
  | none => false
  | some d => s.pagesOk c && s.slotOk c && s.stageUnit c && d.patNeed = d.patHeld && !h.wantsAhead

/-- R184: all items are done. -/
def State.staged (s : State) (c : Nat) : Bool :=
  let h := s.chan c
  match h.timed with
  | none => false
  | some d => d.staging && s.itemsOk c && (!h.cur.wantsHeld || d.mover.isSome) && (!h.cur.wantsFill || d.data)

/-- R185, R212: the timed command asks for a mover: for a staging burst from the beginning of staging, for a held mover once the other
items are complete. -/
def State.stageWants (s : State) (c : Nat) : Bool :=
  let h := s.chan c
  match h.timed with
  | none => false
  | some d => d.staging && !d.granted && d.committed.isNone && (if h.cur.wantsHeld then s.itemsOk c else h.cur.wantsFill)

/-- R188, R328: a translation fault during staging. -/
def State.stageFault (s : State) (c : Nat) (f : XFault) (acc : Access) : State :=
  (s.chanFault c f acc true false false).miss c mXlate [stTranslation]

/-- R313, R327, R328: one page of a staging command: a translation it holds (each access is checked for itself), else what its own walk
has brought, the cache, or a walk. -/
def State.stagePage (s : State) (c va : Nat) (acc : Access) (d : Timed) : Xl × State :=
  let dom := (s.chan c).domain
  match d.pages.find? (·.covers dom va) with
  | some l => (leafXl l va acc, s)
  | none => match s.xlate (.stage c) dom va acc false with
    | (.hit p a l, s) =>
      (.hit p a l, (s.modChan c fun h => { h with timed := h.timed.map fun d => { d with pages := l :: d.pages } }).spend (.stage c) dom va)
    | r => r

/-- R184, R327, R328: translate what is still missing; a fault ends the command. -/
def State.stageXlate (s : State) (c : Nat) : List (Nat × Access) → State
  | [] => s
  | (va, acc) :: r =>
    match (s.chan c).timed with
    | none => s
    | some d =>
      match s.stagePage c va acc d with
      | (.fault cause level entry, s) =>
        s.stageFault c { va := va, cause := cause, level := level, entry := entry, write := acc = .write } acc
      | (_, s) => s.stageXlate c r

/-- R144, R349: the unit refuses the staged command (R188). -/
def State.stageCheck (s : State) (c : Nat) : Bool :=
  let g := (s.chan c).cur
  if g.wantsDrive then s.isInput g.ou
  else if g.op = 0x01 || g.op = 0x02 then
    s.unitCheck g.op g.unit || (g.op = 0x02 && unitClass g.unit = .txq
      && (g.count < 14 || (s.port (txqOf g.unit / 4)).maxLen < g.count + 4))
    || (g.op = 0x01 && unitClass g.unit = .stream && (s.stream g.unit).place && g.count % (s.stream g.unit).stride ≠ 0)
  else false

/-- R157, R184, R340: reserve the slot of the staging command where it may. -/
def State.stageSlot (s : State) (c : Nat) : State :=
  let g := (s.chan c).cur
  if g.wantsDrive && s.slotFor c g.ou true then s.modOu g.ou fun o => { o with holder := some c }
  else if g.wantsSample && s.slotFor c g.ou false then s.modOu g.ou fun o => { o with sampler := some c }
  else s

/-- R216: space that a mailbox has confirmed to a timed WRITE is reserved for it. -/
def State.stageRoom (s : State) (c : Nat) : State :=
  let h := s.chan c
  match h.timed with
  | some d =>
    if h.cur.op = 0x02 && !d.unitOk && s.stageUnit c then
      let s := s.setChan c { h with timed := some { d with unitOk := true } }
      if unitClass h.cur.unit = .mbox then s.claimBox c (mboxOf h.cur.unit) true else s
    else s
  | none => s

/-- R185: request every item that is still missing. -/
def State.stagePump (s : State) (c : Nat) : State :=
  let h := s.chan c
  match h.timed with
  | none => s
  | some d =>
    if !d.staging || d.committed.isSome then s
    else if s.stageCheck c then s.miss c mNoUnit [stUnitCheck]
    else
      ((s.stageSlot c).stageRoom c).stageXlate c h.cur.stagePages

/-- R176, R185: staging begins. -/
def State.stageBegin (s : State) (c : Nat) : State :=
  (s.modChan c fun h => { h with st := .staged, timed := h.timed.map fun d => { d with staging := true } }).stagePump c

/-- R179, R346: a staged pattern has been read: it is checked, and its position entries ask for scheduler entries. -/
def State.stagePattern (s : State) (c : Nat) (b : List Byte) : State :=
  let g := (s.chan c).cur
  let l := patEntries b
  if !patternOk l true (s.cell g.sCell).modN then s.miss c mNoUnit [stUnitCheck]
  else
    let n := posEntries l
    let s := s.modChan c fun h => { h with timed := h.timed.map fun d => { d with data := true, buf := b, patNeed := n } }
    (List.range n).foldl (fun s _ =>
      match s.schedTake (.pat c) with
      | (true, s) => s.modChan c fun h => { h with timed := h.timed.map fun d => { d with patHeld := d.patHeld + 1 } }
      | (false, s) => s) s

/-- R147, R445, R144: the bytes of a WRITE enter the unit whole, at its completion (or its due time, `head`). -/
def State.writeUnit (s : State) (c : Nat) (b : List Byte) (head : Bool) : State :=
  let u := (s.chan c).cur.unit
  match unitClass u with
  | .txq => s.txqPut (txqOf u) b head
  | .mbox =>
    (match (s.mb (mboxOf u)).side 0x40 with
     | some a =>
       let x := s.mb (mboxOf u)
       let tx : Tab Word := (List.range 8).foldl (fun t i => tput 0 t i (BitVec.ofNat 32 (num b (4 * i) 4))) []
       ((s.freeBox c).setMb (mboxOf u) (x.setDir a { x.dir a with tx := tx })).mbSend (mboxOf u) a
     | none => s)
  | .yazen => s.yzPut (slotOf u) b
  | _ => s

end Sys2Proof.Machine
end

