-- ==== Sys2Proof/Machine/Movers.lean ====
section
/-! DEFINITION. Mover grants, the end of a burst and what it completes (06_data_movement.md), and the mover registers of a row. -/

namespace Sys2Proof.Machine

/-! ## Requests and grants (R208 to R216) -/

def moverCount : Nat := 32

def State.mover (s : State) (mv : Nat) : Option Burst := tget none s.movers.run mv

/-- Granted tokens (R210). -/
def State.tokens (s : State) : Nat := s.movers.run.length

/-- R185: movers held by staging. -/
def State.heldMovers (s : State) : Nat := (s.movers.run.filter fun p => p.2.elim false (·.held)).length

/-- R209: the channel runs a burst. -/
def State.bursting (s : State) (c : Nat) : Bool :=
  s.movers.run.any fun p => match p.2 with | some b => b.chan = c && !(b.held && b.len = 0) | none => false

/-- R185, R212: the channels with a timed-class request; one for a held mover waits while 16 are held. -/
def State.timedRequests (s : State) : List Nat :=
  s.chanKeys.filter fun c => let h := s.chan c; !s.bursting c && ((h.act = .req && h.cur.tm) || s.stageWants c)

/-- R185: those of them that a mover can be granted to. -/
def State.timedGrantable (s : State) : List Nat :=
  s.timedRequests.filter fun c => let h := s.chan c; h.act = .req || !h.cur.wantsHeld || decide (s.heldMovers < 16)

/-- R213: the untimed requests of a class. -/
def State.classRequests (s : State) (p : Nat) : List Nat :=
  s.chanKeys.filter fun c => let h := s.chan c; h.act = .req && !h.cur.tm && h.prio.toNat = p && !s.bursting c

/-- R211: round robin by channel number, from the one after `last`; keys ascend. -/
def rrOrder (l : List Nat) (last : Nat) : List Nat := l.filter (fun c => decide (last < c)) ++ l.filter (fun c => decide (c ≤ last))

/-- R211: the requests in the order they are served, each with its class (0 timed, 1 to 4 the priority classes). -/
def State.grantOrder (s : State) : List (Nat × Nat) :=
  let of_ (k : Nat) (l : List Nat) : List (Nat × Nat) := (rrOrder l (s.movers.last.getD k 4095)).map fun c => (k, c)
  of_ 0 s.timedGrantable ++ of_ 1 (s.classRequests 0) ++ of_ 2 (s.classRequests 1) ++ of_ 3 (s.classRequests 2)
    ++ of_ 4 (s.classRequests 3)

/-- R210: the free movers, whose tokens are back. -/
def State.freeMovers (s : State) : List Nat :=
  (List.range moverCount).filter fun m => (s.mover m).isNone && decide (tget 0 s.movers.freeAt m ≤ cyc s.now)

/-- R211: a free mover; which one the spec leaves open. -/
def State.pickMover (s : State) : Option (Nat × State) :=
  match s.freeMovers with
  | [] => none
  | l => some (l.getD (Config.moverPick s.free % l.length) 0, s.draw)

/-- Install a burst in a mover: the token is taken and PEAK follows. -/
def State.install (s : State) (mv : Nat) (b : Burst) : State :=
  let s := s.setMover mv (some b)
  { s with movers := { s.movers with peak := max s.movers.peak s.tokens } }

/-- R148, R386: a timed READ whose unit gives its bytes at the due time: a snapshot, or a record to be placed. -/
def State.readsAtDue (s : State) (c : Nat) : Bool :=
  match unitClass (s.chan c).cur.unit with
  | .cell | .yazen => true
  | _ => s.placing c

/-- R185, R224: the burst of a staging grant: one that reads the source, or a mover held for the due burst, which for a READ holds what its
unit reserves in the grant cycle (R216). -/
def State.stageBurst (s : State) (c : Nat) : Burst × State :=
  let h := s.chan c
  if h.cur.wantsFill then
    let n := if h.cur.op = 0x30 then h.cur.sigCount else h.cur.count
    ({ chan := c, timed := true, held := h.cur.wantsHeld, staging := true, len := n, rd := [mkSide (h.cur.phy, h.cur.addr) n],
       retry := h.retryN }, s)
  else
    let held : Burst := { chan := c, timed := true, held := true, retry := h.retryN }
    if h.cur.op = 0x01 && !s.readsAtDue c then
      let (b, s) := s.form c true
      ({ held with unit := b.unit, recs := b.recs, raws := b.raws, epoch := b.epoch }, s)
    else (held, s)

/-- R185, R224: the grant of a staging request. -/
def State.grantStage (s : State) (c mv : Nat) : State :=
  let (b, s) := s.stageBurst c
  let s := s.modChan c fun h => { h with timed := h.timed.map fun (d : Timed) => { d with granted := true, mover := some mv } }
  (s.install mv b).pumpBurst mv

/-- R211: channel `c`, of class `k`, has received a grant. -/
def State.granted (s : State) (k c : Nat) : State :=
  { s with movers := { s.movers with last := s.movers.last.set k c, grantAt := some (cyc s.now) } }

/-- R211, R215, R216: mover `mv` goes to the first of the requests. One whose unit has nothing any more waits again (R217), and the next
is served. -/
def State.grantTo (s : State) (mv : Nat) : List (Nat × Nat) → State
  | [] => s
  | (k, c) :: r =>
    let h := s.chan c
    if h.act = .req then
      let (b, s') := s.form c h.cur.tm
      if b.len = 0 then (s.enterWait c (.unit h.cur.unit)).grantTo mv r
      else (((s'.granted k c).modChan c fun h => { h with act := .move }).install mv b).pumpBurst mv
    else (s.granted k c).grantStage c mv

/-- R211, R214: at most one grant in a CLK_E cycle, where a token is free. -/
def State.moverGrant (s : State) : State :=
  if s.movers.grantAt = some (cyc s.now) || s.grantOrder.isEmpty then s
  else match s.pickMover with
    | some (mv, s) => s.grantTo mv s.grantOrder
    | none => s

def execMoverGrant (t : Time) (s : State) : Res := engineEvent t s State.moverGrant

/-! ## Placement (R386 to R388) -/

/-- R388: a placement READ completes. -/
def State.placeDone (s : State) (c : Nat) : State :=
  let h := s.chan c
  let left := h.cur.count - h.placedBytes
  let s := s.setChan c { h with resid := left, placed := [], placedAt := none, placedBytes := 0 }
  if left ≠ 0 && !h.cur.sli then s.endOr c stIncorrectLength else s.complete c

/-- R387: the record of index `i` has been placed. -/
def State.placeLast (s : State) (c i : Nat) : Bool :=
  let g := (s.chan c).cur
  i + 1 = g.count / max 1 (s.stream g.unit).stride

/-- R185: the held mover of channel `c` runs burst `b`. -/
def State.runHeld (s : State) (c : Nat) (b : Burst) : State :=
  match (s.chan c).timed.bind (·.mover) with
  | some mv => ((s.modChan c fun h => { h with act := .move }).install mv { b with held := true, timed := true }).pumpBurst mv
  | none => s

/-- R224: the next burst of a placement READ: a timed one's first burst runs on its held mover. -/
def State.placePump (s : State) (c : Nat) : State :=
  if ((s.chan c).timed.bind (·.mover)).isSome && s.sideReady c then
    let (b, s) := s.form c true
    s.runHeld c b
  else s.pump c

/-- R386, R387: the next record of a placement READ: a record outside the area is discarded, one already placed ends the READ, an
empty payload needs no burst, and any other is placed in one burst. `n` bounds the records looked at. -/
def State.placeNext (s : State) (c : Nat) : Nat → State
  | 0 => s.placePump c
  | n + 1 =>
    let h := s.chan c
    let u := h.cur.unit
    let x := s.stream u
    match x.next c with
    | none => s.placePump c
    | some r =>
      let (i, pay, long) := x.placeOf r
      if h.placed.contains i then s.placeDone c
      else if h.cur.count < (i + 1) * x.stride then
        (s.setStream u { x with recs := x.recs.drop 1, outside := satInc x.outside }).placeNext c n
      else
        let s := if long = 0 then s else s.setStream u { x with long_ := satInc x.long_ }
        let s := s.setChan c { h with placed := i :: h.placed, daddr := h.cur.addr + i * x.stride,
                                      resid := h.cur.count - h.placedBytes }
        if pay.isEmpty then
          let s := s.setStream u { s.stream u with recs := x.recs.drop 1 }
          let s := s.modChan c fun h => { h with placedAt := some s.now }
          if s.placeLast c i then s.placeDone c else s.placeNext c n
        else s.placePump c

/-- Look for the next record, as long as records are there. -/
def State.placeGo (s : State) (c : Nat) : State :=
  s.placeNext c ((s.stream (s.chan c).cur.unit).recs.length + 1)

/-! ## What the end of a group's transfer completes -/

/-- R139: a READ of a record unit has finished its group. -/
def State.readDone (s : State) (c : Nat) : State :=
  let h := s.chan c
  let g := h.cur
  if g.cd then
    let short := h.recEnded && !g.sli
    let h := if short then h.setSt stIncorrectLength else h
    (s.setChan c { h with chainCount := h.chainCount + g.count }).complete c
  else
    let asked := h.chainCount + g.count
    let short := h.recEnded && decide (h.recTaken < asked)
    let h := if short then { h with resid := asked - h.recTaken } else { h with resid := 0 }
    let bad := h.status.getLsbD stIncorrectLength || ((short || !h.recEnded) && !g.sli)
    let s := (s.setChan c h).dropRecord g.unit c
    if bad then s.endOr c stIncorrectLength else s.complete c

/-- R139: a continuation after the record's end is skipped. -/
def State.readSkip (s : State) (c : Nat) : State :=
  let h := s.chan c
  let g := h.cur
  let asked := h.chainCount + g.count
  let s := s.setChan c { h with resid := asked - h.recTaken, chainCount := asked }
  if !g.cd && h.status.getLsbD stIncorrectLength then s.endOr c stIncorrectLength else s.complete c

/-- R147, R389: a chain of WRITE, or a GATHER into a transmit queue, ends. -/
def State.writeDone (s : State) (c : Nat) : State :=
  let h := s.chan c
  let g := h.cur
  if g.cd then s.complete c
  else
    let f := h.frame
    let s := s.setChan c { h with frame := [] }
    let bad := s.unitCheck 0x02 g.unit || (unitClass g.unit = .txq
      && (f.length < 14 || (s.port (txqOf g.unit / 4)).maxLen < f.length + 4))
    if bad then s.endOr c stUnitCheck else (s.writeUnit c f false).complete c

/-- R346, R345: the pattern of an untimed SIGNAL has been read. R349: the pin may have become an input meanwhile. -/
def State.patternRead (s : State) (c : Nat) : State :=
  let g := (s.chan c).cur
  let l := patEntries (s.chan c).frame
  let s := s.modChan c fun h => { h with frame := [] }
  if (s.chan c).st = .haltPending then s.freeSlots c
  else if s.isInput g.ou || !patternOk l false (s.cell g.sCell).modN then s.endWith c [stUnitCheck]
  else s.signalFire c (s.now + 1) (l.map (·.1))

/-- The current group's transfer is complete. -/
def State.groupDone (s : State) (c : Nat) : State :=
  let g := (s.chan c).cur
  match g.op with
  | 0x01 =>
    (match unitClass g.unit with
     | .stream | .cell => s.readDone c
     | .mbox => (match (s.mb (mboxOf g.unit)).side 0x40 with
         | some a => ((s.freeBox c).mbAck (mboxOf g.unit) a 0).complete c
         | none => s.complete c)
     | _ => s.complete c)
  | 0x02 => s.writeDone c
  | 0x08 => if unitClass g.unit = .txq then s.writeDone c else s.complete c
  | 0x30 => s.patternRead c
  | _ => s.complete c

/-- The command has bytes left: the next burst is asked for, or an accepted SUSPEND takes effect (R244), or the drain goes on. -/
def State.nextBurst (s : State) (c : Nat) : State :=
  let h := s.chan c
  if h.st = .haltPending && !h.committedNow then s
  else if h.suspReq && !h.committed then s.suspend c fun h => { h with cont := true, skipSus := h.cur.sus }
  else if s.placing c then s.placeGo c
  else s.pump c

/-- A burst of channel `c` has ended as planned. -/
def State.burstGoesOn (s : State) (c : Nat) : State :=
  let h := s.chan c
  if s.placing c then
    let s := s.modChan c fun h => { h with placedAt := some s.now, placedBytes := h.cur.count - h.resid }
    if s.placeLast c (h.placed.headD 0) then s.placeDone c else s.nextBurst c
  else if h.cur.op = 0x04 || h.resid = 0 || (h.cur.op = 0x01 && h.recEnded && h.park.isNone) then s.groupDone c
  else s.nextBurst c

/-! ## The end of a burst (R216, R218, R222 to R230, R316) -/

/-- Bytes written by bursts (R236). -/
def State.countBytes (s : State) (n : Nat) : State :=
  { s with movers := { s.movers with bytes := s.movers.bytes + BitVec.ofNat 64 n } }

/-- R210: the burst of mover `mv` has ended: its token returns, and what was translated for it is held no more. -/
def State.leaveMover (s : State) (mv c : Nat) : State :=
  ((s.retMover mv).forget (.chan c)).modChan c fun h =>
    { h with leafs := [], timed := h.timed.map fun (d : Timed) => if d.mover = some mv then { d with mover := none } else d }

/-- R186, R188, R223: a staging burst ends: its data is held, and the context moves past what a unit has taken, or the command ends MISSED.
A command that is gone meanwhile leaves nothing but the token (R231, R232). -/
def State.stagingEnd (s : State) (mv : Nat) (b : Burst) : State :=
  let c := b.chan
  let (data, bad, s) := s.burstData b
  let live := match (s.chan c).timed with | some d => d.granted && d.mover = some mv | none => false
  if !live then s.retMover mv
  else match bad, b.cut with
    | none, none =>
      let g := (s.chan c).cur
      let s := if g.wantsHeld then s.setMover mv (some { chan := c, timed := true, held := true, retry := b.retry })
        else ((s.leaveMover mv c).countBytes b.len).modChan c fun h => h.moved b.len
      if g.op = 0x30 then s.stagePattern c data
      else s.modChan c fun h => { h with timed := h.timed.map fun (d : Timed) => { d with data := true, buf := data } }
    | none, some (_, some f) => s.stageFault c f f.acc
    | _, _ =>
      let s := ({ s with movers := { s.movers with busErr := s.movers.busErr + 1 } }).report 132
      s.miss c mBus [stBusError]

/-- R227: the second operand of a COMPARE burst: memory, with the offset of a failed read, or the pattern. -/
def State.secondBytes (s : State) (b : Burst) : List Byte × Option Nat × State :=
  let h := s.chan b.chan
  if h.cur.const then (h.cur.pattern h.doneN b.lim, none, s) else s.sideBytes b 1 b.lim

/-- How a burst ended. -/
def State.burstOutcome (s : State) (b : Burst) (n : Nat) : State :=
  let c := b.chan
  match b.cut with
  | some (_, some f) => s.faultStop c f f.acc (s.streamLeft b n)
  | some (_, none) => if b.elemBad then s.endOr c stProtection else s.busError c
  | none => s.burstGoesOn c

/-- R154, R218, R227: a COMPARE burst ends at the first difference, `k`: reads beyond it have no effect. -/
def State.compareDiffers (s : State) (mv : Nat) (b : Burst) (k : Nat) : State :=
  let c := b.chan
  let s := (s.sideBytes b 0 (k + 1)).2.2
  let s := if (s.chan c).cur.const then s else (s.sideBytes b 1 (k + 1)).2.2
  ((s.leaveMover mv c).modChan c fun h => ((h.moved k).setSt stMismatch).setCond false).complete c

/-- R154, R227: the end of a COMPARE burst that finds no difference in what it reads. -/
def State.compareEnd (s : State) (mv : Nat) (b : Burst) : State :=
  let c := b.chan
  let (x, bx, s) := s.burstData b
  let (y, by_, s) := s.secondBytes b
  let b := match bx with | some k => b.cutAt k none | none => b
  let b := match by_ with | some k => b.cutAt k none | none => b
  let n := b.lim
  let s := s.leaveMover mv c
  match firstDiff (x.take n) (y.take n) 0 with
  | some k => (s.modChan c fun h => ((h.moved k).setSt stMismatch).setCond false).complete c
  | none =>
    let s := s.modChan c fun h => h.moved n
    let s := if b.cut.isNone && (s.chan c).resid = 0 then s.modChan c fun h => h.setCond true else s
    s.burstOutcome b n

/-- The end of any other burst. -/
def State.moveEnd (s : State) (mv : Nat) (b : Burst) : State :=
  let c := b.chan
  let g := (s.chan c).cur
  let (data, bad, s) := s.burstData b
  let b := match bad with | some k => b.cutAt k none | none => b
  let (bad, s) := match b.wr with
    | some d => s.writeSide d (data.take b.lim)
    | none => (none, s)
  let (b, s) := match bad with
    | some k => (b.cutAt k none, { s with movers := { s.movers with retry := s.movers.retry + BitVec.ofNat 32 b.retry } })
    | none => (b, s)
  let n := b.lim
  let s := s.leaveMover mv c
  let s := s.unreserve b n
  let s := if g.op = 0x01 && g.skp then s else s.countBytes n
  let s := s.modChan c fun h =>
    let h := h.moved n
    let h := if b.parked then { h with park := if n < b.len then some (b.unit.drop n) else none } else h
    if g.op = 0x02 || g.op = 0x30 || (g.op = 0x08 && b.wr.isNone) then { h with frame := h.frame ++ data.take n } else h
  s.burstOutcome b n

/-- R218: the burst of mover `mv` ends, once everything it needs is there and no locked sequence holds its beats. -/
def State.burstEnd (s : State) (mv : Nat) : State :=
  match s.mover mv with
  | none => s
  | some b =>
    if b.len = 0 || s.burstLocked b then s
    else if let some k := (if b.staging then none else s.diffSeen b) then s.compareDiffers mv b k
    else if !s.burstReady b then s
    else if b.staging then s.stagingEnd mv b
    else if (s.chan b.chan).cur.op = 0x07 then s.compareEnd mv b
    else s.moveEnd mv b

def execBurstEnd (t : Time) (mv : Fin 32) (s : State) : Res := engineEvent t s fun s => s.burstEnd mv

/-! ## Completions (R221, R228, R229) -/

/-- R228, R229: the request fails: it is reissued, or the burst ends before its first byte. While the link is not up every reissue fails at
once. -/
def State.requestFails (s : State) (mv : Nat) (b : Burst) (r : Req) : State :=
  let rest := b.reqs.erase r
  let again (n : Nat) : State := { s with movers := { s.movers with retry := s.movers.retry + BitVec.ofNat 32 n } }
  if r.tries < b.retry && s.irq.link then
    ((again 1).setMover mv (some { b with reqs := { r with tries := r.tries + 1 } :: rest })).emit (.hostRead r.addr r.len)
  else
    let b' := { b with reqs := rest }
    ((again (b.retry - r.tries)).setMover mv (some (b'.cutAt (b'.ofsOf (s.chan b.chan) r.side r.ofs) none))).lastFail b.chan

/-- Data of a request arrives; a shorter completion leaves the rest of the request outstanding. -/
def State.requestData (s : State) (mv : Nat) (b : Burst) (r : Req) (x : List Byte) : State :=
  let n := min r.len x.length
  let got := putBytes b.got (r.side * 8192 + r.ofs) (x.take n)
  let rest := b.reqs.erase r
  let reqs := if n < r.len then { r with ofs := r.ofs + n, addr := r.addr + n, len := r.len - n } :: rest else rest
  (s.setMover mv (some { b with got := got, reqs := reqs })).pumpBurst mv

def execHostReadCompletion (t : Time) (mv : Fin 32) (addr : Nat) (h : HostMem) (s : State) : Res :=
  engineEvent t s fun s =>
    match s.mover mv with
    | none => s
    | some b =>
      match b.reqs.find? (·.addr = addr) with
      | none => s
      | some r => (match h with
          | .data x => s.requestData mv b r x
          | .fail => s.requestFails mv b r)

def execCompletionTimeout (t : Time) (mv : Fin 32) (addr : Nat) (s : State) : Res :=
  engineEvent t s fun s =>
    match s.mover mv with
    | none => s
    | some b =>
      match b.reqs.find? (·.addr = addr) with
      | none => s
      | some r => s.requestFails mv b r

/-! ## The unit advertises (R145) -/

/-- R145, R184: the channel that waits for its unit goes on, or a staged command finds it ready. -/
def State.unitAdvertise (s : State) (c : Nat) : State :=
  let h := s.chan c
  match h.act with
  | .unit _ => if (h.st = .waiting || (h.st = .haltPending && h.committedNow)) && s.sideReady c then (if s.placing c then s.placeGo c else s.pump c) else s
  | .sched => s.stagePump c
  | _ => s

def execUnitAdvertise (t : Time) (c : Fin 4096) (s : State) : Res := engineEvent t s fun s => s.unitAdvertise c

/-! ## Registers (R236, R237) -/

def moverOfs : Nat := 0x151000

def State.moverCtrl (s : State) (v : Word) : State :=
  if bit v 0 then { s with movers := { s.movers with peak := s.tokens } } else s

def execMoverPeakClr (t : Time) (_m : Ident) (v : Word) (s : State) : Res :=
  regWrite t (moverOfs + 0x20) s fun s => s.moverCtrl v

def State.readMoverBytes (s : State) (m : Ident) : Word × State :=
  (loW s.movers.bytes.toNat, s.latch m (moverOfs + 0x14) (hiW s.movers.bytes.toNat))

def execMoverBytesRead (t : Time) (m : Ident) (s : State) : Res :=
  regRead t (moverOfs + 0x10) s fun s => s.readMoverBytes m

/-- R218, R237: a burst writes once it has read all it will read; COMPARE, and a READ with SKP, have no write phase. -/
def State.mvWrites (s : State) (b : Burst) : Bool :=
  let h := s.chan b.chan
  let n := b.lim
  !(h.cur.op = 0x07 || (h.cur.op = 0x01 && h.cur.skp)) &&
    (if h.cur.op = 0x08 && !b.staging then
      (b.indexed || n = 0) && (List.range b.rd.length).all fun i => i = 0 || b.sideHas i (n - (b.rd.getD i {}).base)
    else (List.range b.rd.length).all fun i => b.sideHas i n)

/-- R237: MV_STATE.PHASE: 0 idle, 1 reading, 2 writing, 3 held. -/
def State.mvPhase (s : State) (b : Burst) : Nat :=
  if b.held && b.len = 0 then 3 else if s.mvWrites b then 2 else 1

/-- R237: bytes of the present phase completed: those that memory, or the unit, has given while reading; writes are made at the burst's end
(log 45). -/
def State.mvDone (s : State) (b : Burst) : Nat :=
  if s.mvPhase b ≠ 1 then 0
  else if b.rd.isEmpty then b.len
  else ((b.rd.map fun d => (d.segs.map Seg.len).sum).sum) - (b.reqs.map Req.len).sum

/-- R237: MV_STATE. -/
def State.mvState (s : State) (mv : Nat) : Word :=
  match s.mover mv with
  | none => 0
  | some b => wAt 0 (s.mvPhase b) ||| flag 2 b.timed ||| wAt 4 b.chan ||| wAt 16 b.len

def State.readMvState (s : State) (m : Ident) (mv : Nat) : Word × State :=
  (s.mvState mv, s.latch m (0x151104 + mv * 8) (wAt 0 ((s.mover mv).elim 0 s.mvDone % 2 ^ 13)))

def execMvStateRead (t : Time) (m : Ident) (mv : Fin 32) (s : State) : Res :=
  regRead t (0x151100 + mv * 8) s fun s => s.readMvState m mv

end Sys2Proof.Machine
end

