-- ==== Sys2Proof/Machine/Channel.lean ====
section
/-! DEFINITION. The command fetcher (R119, R124 to R126, R137): groups of the program, those fetched ahead, and fragment entries. -/

namespace Sys2Proof.Machine

/-- R119, R120, R127: the group that `b` holds, whose operand word and stamp follow the command word. -/
def parseGroup (b : List Byte) : Group :=
  let w (k : Nat) : Word := BitVec.ofNat 32 (num b (4 * k) 4)
  let g : Group := { w0 := w 0, w1 := w 1, w2 := w 2, w3 := w 3 }
  let k := if hasOperand g.op then 4 else 0
  let g := if k = 4 then { g with o0 := w 4, o1 := w 5, o2 := w 6, o3 := w 7 } else g
  if g.tm then { g with s4 := w (k + 4), s5 := w (k + 5), s6 := w (k + 6), s7 := w (k + 7) } else g

/-- What an access of the command fetcher gives. -/
inductive Fetched where
  | bytes (b : List Byte)
  /-- A page is being walked, or a failed request is reissued (R22, R229). -/
  | pending
  | fault (f : XFault)
  | bus
  | protect
  deriving DecidableEq, Repr

/-- What the translation of a fetch gives: the pieces of its bytes. -/
inductive FetchXl where
  | ok (l : List Seg)
  | walking
  | fault (f : XFault)
  deriving DecidableEq, Repr

/-- Translate `n` bytes at `va`, from offset `o` of the fetch on, for the fetcher of channel `c`; the first number bounds the pages. -/
def State.fetchXl (s : State) (c : Nat) (acc : Access) : Nat → Nat → Nat → Nat → FetchXl × State
  | 0, _, _, _ => (.ok [], s)
  | k + 1, o, va, n =>
    if n = 0 then (.ok [], s)
    else
      let len := min n (4096 - va % 4096)
      match s.xlate (.fetch c) (s.chan c).domain va acc with
      | (.hit phy a _, s) =>
        (match s.fetchXl c acc k (o + len) (va + len) (n - len) with
         | (.ok l, s) => (.ok ({ ofs := o, len := len, phy := phy, addr := a } :: l), s)
         | r => r)
      | (.miss, s) => (.walking, s)
      | (.fault cause level entry, s) => (.fault { va := va, cause := cause, level := level, entry := entry }, s)

/-- R22, R229: `n` reissues of the fetch of channel `c` are made; the next access counts `tries` before it. -/
def State.refetch (s : State) (c n tries : Nat) : State :=
  ({ s with movers := { s.movers with retry := s.movers.retry + BitVec.ofNat 32 n } }).modChan c fun h => { h with tries := tries }

/-- R22, R228, R229: one piece of a fetch: SRAM as it stands, host memory as `m` answers. A read that fails is reissued up to RETRY times;
one of SRAM, or while the link is not up, fails every time. R469: one of a beat that another channel has locked waits. -/
def State.fetchPiece (s : State) (c : Nat) (g : Seg) (m : HostMem) : Fetched × State :=
  let h := s.chan c
  if g.phy then
    if s.beatLocked (some c) g.addr g.len then (.pending, s)
    else if (s.badWord g.addr g.len).isNone then
      let (b, s) := s.sramRead g.addr g.len
      (.bytes (b.getD []), s)
    else
      let s := (List.range (h.retryN - h.tries + 1)).foldl (fun s _ => (s.sramRead g.addr g.len).2) s
      (.bus, s.refetch c (h.retryN - h.tries) 0)
  else if !s.irq.link then (.bus, s.refetch c (h.retryN - h.tries) 0)
  else match m with
    | .data x => (.bytes (slice x g.ofs g.len), s)
    | .fail => if h.tries < h.retryN then (.pending, s.refetch c 1 (h.tries + 1)) else (.bus, s.refetch c 0 0)

/-- Read `n` bytes at a span for channel `c`, at most two pages. -/
def State.fetchAt (s : State) (c : Nat) (sp : Span) (n : Nat) (acc : Access) (m : HostMem) : Fetched × State :=
  if sp.1 then
    if !(s.dom (s.chan c).domain).phyOk || decide (sramSize < sp.2 + n) then (.protect, s)
    else s.fetchPiece c { ofs := 0, len := n, phy := true, addr := sp.2 } m
  else
    match s.fetchXl c acc 2 0 sp.2 n with
    | (.fault f, s) => (.fault f, s)
    | (.walking, s) => (.pending, s)
    | (.ok l, s) => l.foldl (fun p g =>
        match p with
        | (.bytes b, s) => (match s.fetchPiece c g m with
            | (.bytes x, s) => (.bytes (b ++ x), s)
            | r => r)
        | r => r) (.bytes [], s)

/-- R119: the bytes of the group at a span: its command word tells how long it is. -/
def State.fetchGroup (s : State) (c : Nat) (sp : Span) (m : HostMem) : Fetched × State :=
  match s.fetchAt c sp 16 .fetch m with
  | (.bytes b, s') =>
    let n := (parseGroup b).size
    if n = 16 then (.bytes b, s') else s.fetchAt c sp n .fetch m
  | r => r

/-- A fetch of channel `c` has ended. -/
def State.fetchOver (s : State) (c : Nat) : State := (s.forget (.fetch c)).modChan c fun h => { h with tries := 0 }

/-- R125, R126: the fetch of the current group returns. -/
def State.fetchCurrent (s : State) (c : Nat) (m : HostMem) : State :=
  let h := s.chan c
  match s.fetchGroup c (h.phy, h.cca) m with
  | (.bytes b, s) => (s.fetchOver c).makeCurrent c (parseGroup b)
  | (.pending, s) => s
  | (.fault f, s) => (s.fetchOver c).faultStop c f .fetch []
  | (.bus, s) => ((s.fetchOver c).report 132).endWith c [stBusError]
  | (.protect, s) => s.endWith c [stProtection]

/-- R125, R168: a group of a bracket cannot be fetched, so the bracket cannot be checked: the failure strikes its LOCK, which stays the
current command (DESIGN CHOICE, log 53: R125 speaks of the group that is fetched, and the LOCK is what executes). -/
def State.bracketFails (s : State) (c : Nat) : Fetched → State
  | .fault f => (s.modChan c fun h => { h with act := .fetch }).faultStop c f .fetch []
  | .bus => (s.report 132).endWith c [stBusError]
  | .protect => s.endWith c [stProtection]
  | _ => s

/-- R137, R168: a group fetched ahead is held. A fetch that fails is made again when its group becomes current; one of a bracket that is
being checked ends the LOCK. -/
def State.fetchAhead (s : State) (c : Nat) (m : HostMem) : State :=
  let h := s.chan c
  match h.nextFetch with
  | none => s
  | some sp =>
    let bracket := h.act = .bracket
    match s.fetchGroup c sp m with
    | (.bytes b, s) =>
      let s := (s.fetchOver c).modChan c fun h => { h with ahead := h.ahead ++ [(grpKey sp.2 sp.1, parseGroup b)] }
      if bracket then s.bracketCheck c else s
    | (.pending, s) => s
    | (r, s) =>
      let s := s.fetchOver c
      if bracket then s.bracketFails c r else s.modChan c fun h => { h with aheadStop := true }

/-- R141, R142: an entry of a fragment table has been read. -/
def State.fetchFrag (s : State) (c : Nat) (sp : Span) (m : HostMem) : State :=
  match s.fetchAt c sp 16 .read m with
  | (.bytes b, s) => (s.fetchOver c).fragRead c b
  | (.pending, s) => s
  | (.fault f, s) => (s.fetchOver c).faultStop c f .read []
  | (.bus, s) => (s.fetchOver c).busStop c
  | (.protect, s) => s.endWith c [stProtection]

/-- States in which a channel fetches (R239). -/
def ChanState.fetches : ChanState → Bool
  | .startPending | .active | .waiting | .staged => true
  | _ => false

/-- R93, R181: the groups after a WAIT on a compare unit are fetched ahead once the firing that its entry predicts lies within the effective
lead; without a prediction they are not (log 55). -/
def State.aheadOpen (s : State) (h : Chan) : Bool :=
  match h.act with
  | .waitCmp k _ =>
    (match (s.cmp k).due with
     | some x => decide (x ≤ s.now + max (us (fld h.timing 0 10)) (ns (fld h.timing 16 13) + us 1))
     | none => false)
  | _ => true

/-- R137: one fetch of channel `c` returns: a fragment entry its transfer waits for, its current group, or a group ahead. -/
def State.groupFetch (s : State) (c : Nat) (m : HostMem) : State :=
  let h := s.chan c
  if !h.st.fetches then s
  else match h.fragSpan with
    | some sp => s.fetchFrag c sp m
    | none =>
      if h.act = .fetch then s.fetchCurrent c m
      else if h.wantsAhead && s.aheadOpen h then s.fetchAhead c m
      else s

def execGroupFetch (t : Time) (c : Fin 4096) (h : HostMem) (s : State) : Res := engineEvent t s fun s => s.groupFetch c h

end Sys2Proof.Machine
end

