-- ==== Sys2Proof/Machine/Compare.lean ====
section
/-! DEFINITION. Compare and capture units, global start and debug freeze (03_compare_capture_start.md). -/

namespace Sys2Proof.Machine

def capOfs (j : Nat) : Nat := 0x14000 + j * 0x40
def cmpOfs (k : Nat) : Nat := 0x16000 + k * 0x20
def startOfs : Nat := 0x18000

/-! ## Compare units -/

/-- R82, R85, R94, R97: a CMP_CTRL value that the unit refuses. -/
def Cmp.refuses (u : Cmp) (k : Nat) (v : Word) : Bool :=
  fld v 1 2 = 3 || fld v 4 2 = 3 || (k = 0 && bit v 6)
    || (u.en && (fld v 10 6 ≠ u.cell || fld v 4 2 ≠ u.repeat_ || bit v 6 ≠ u.chain))

/-- R94, R97: CMP_CTRL: arms, disarms or changes the unit; answers nothing but CFG_REJ where it is refused. -/
def State.cmpCtrl (s : State) (k : Nat) (v : Word) : State :=
  let u := s.cmp k
  if u.refuses k v then s.setCmp k { u with cfgRej := true }
  else
    let v := v &&& 0x0FFFFDFF
    let s := s.modCmp k fun u => { u with ctrl := v, oorDone := u.oorDone && s.cmpOor { u with ctrl := v } }
    if !u.en && bit v 0 then
      let s := s.modCmp k fun u => { u with fcnt := 0 }
      if bit v 6 then s else s.cmpArm k (some (cyc s.now))
    else if u.en && !bit v 0 then s.cmpDisarm k
    else s.cmpPredict k

def execCmpCtrlWrite (t : Time) (_m : Ident) (k : Fin 256) (v : Word) (s : State) : Res :=
  regWrite t (cmpOfs k) s fun s => s.cmpCtrl k v

/-- R94: a new value re-arms an armed unit, or one in HYST_WAIT, at the end of this cycle. -/
def State.cmpValue (s : State) (k : Nat) (turn : Bool) (v : Word) : State :=
  let u := s.cmp k
  let s := s.setCmp k (if turn then { u with turn := v } else { u with phase := v })
  let s := if u.armed || u.hystWait then s.cmpArm k (some (cyc s.now)) else s
  s.cmpRangeCheck k

def execCmpValueWrite (t : Time) (_m : Ident) (k : Fin 256) (turn : Bool) (v : Word) (s : State) : Res :=
  regWrite t (cmpOfs k + (if turn then 0x08 else 0x04)) s fun s => s.cmpValue k turn v

/-- R116: CMP_FT_LO latches the high word and the firing count. -/
def State.readCmpFt (s : State) (m : Ident) (k : Nat) : Word × State :=
  let u := s.cmp k
  (loW u.ft, s.latchAll m [(cmpOfs k + 0x18, hiW u.ft), (cmpOfs k + 0x1C, u.fcnt)])

def execCmpFtRead (t : Time) (m : Ident) (k : Fin 256) (s : State) : Res :=
  regRead t (cmpOfs k + 0x14) s fun s => s.readCmpFt m k

/-- R95, R158: the four words of a compare image, as writes of one cycle. Answers whether the unit refused. -/
def State.cmpImage (s : State) (k : Nat) (ctrl phase turn incr : Word) : Bool × State :=
  let old := (s.cmp k).cfgRej
  let s := s.modCmp k fun u => { u with incr := incr, cfgRej := false }
  let s := (s.cmpValue k false phase).cmpValue k true turn
  let s := s.cmpCtrl k ctrl
  let rej := (s.cmp k).cfgRej
  (rej, s.modCmp k fun u => { u with cfgRej := rej || old })

/-! ## Capture units -/

/-- R98: the range of INDEX for each KIND. -/
def capRange (kind : Nat) : Nat :=
  match kind with
  | 0 => 128 | 1 | 2 | 3 => 16 | 4 => 8 | 5 => 256 | _ => 0

/-- R98, R99: a CAP_CTRL value that the unit refuses. -/
def Cap.refuses (u : Cap) (v : Word) : Bool :=
  capRange (fld v 1 3) ≤ fld v 4 8 || fld v 12 2 = 3
    || (u.en && (fld v 1 3 ≠ u.kind || fld v 4 8 ≠ u.index || fld v 14 6 ≠ u.cell))

/-- R98, R100, R102: CAP_CTRL: a rise of EN clears the FIFO, the prescaler and a pending OVF_BEFORE. -/
def State.capCtrl (s : State) (j : Nat) (v : Word) : State :=
  let u := s.cap j
  if u.refuses v then s.setCap j { u with cfgRej := true }
  else
    let v := v &&& 0x3FFFFF
    if !u.en && bit v 0 then s.setCap j { u with ctrl := v, fifo := [], pcnt := 0, ovfBefore := false, epoch := u.epoch + 1 }
    else s.setCap j { u with ctrl := v }

def execCapCtrlWrite (t : Time) (_m : Ident) (j : Fin 128) (v : Word) (s : State) : Res :=
  regWrite t (capOfs j) s fun s => s.capCtrl j v

/-- R99: the edges that CAP_CTRL.EDGE accepts. -/
def edgeOk (edge : Nat) (rising : Bool) : Bool := if edge = 0 then rising else if edge = 1 then !rising else edge = 2

/-- R99 to R106: the filter of a pin input has accepted a level: an edge that counts is captured. -/
def State.capLevel (s : State) (j : Nat) (rising : Bool) (stamp : Time) : State :=
  let u := s.cap j
  let s := s.setCap j { u with level := rising }
  if u.en && u.kind ≠ 5 && edgeOk u.edge rising then s.capAccept j stamp rising else s

/-- R99: the pin of unit `j` makes the transitions `l`, and what its own filter accepts up to now is captured. -/
def State.capFeed (s : State) (j : Nat) (l : List (Time × Bool)) : State :=
  let u := s.cap j
  let (f, a) := Filt.feed (fld u.filt 4 8 + 1) (fld u.filt 0 4 + 1) s.now l u.level u.pf
  a.foldl (fun s x => s.capLevel j x.level x.stamp) (s.setCap j { u with pf := f })

/-- R33, R99: CAP_FILT: the samples up to the cycle of the write are judged by the old FILT and SDIV. -/
def State.capFilt (s : State) (j : Nat) (v : Word) : State := (s.capFeed j []).modCap j fun u => { u with filt := v &&& 0xFFF }

/-- R95, R98, R158: the four words of a capture image. -/
def State.capImage (s : State) (j : Nat) (ctrl filt presc chan : Word) : Bool × State :=
  let old := (s.cap j).cfgRej
  let s := (s.capFilt j filt).modCap j fun u => { u with presc := presc &&& 0xFFFF, chan := chan &&& 0xFFF, cfgRej := false }
  let s := s.capCtrl j ctrl
  let rej := (s.cap j).cfgRej
  (rej, s.modCap j fun u => { u with cfgRej := rej || old })

/-- R374: a TIO pin that the part does not drive stands at the level that the board gives it (log 28). -/
def State.padLevel (s : State) (p : Nat) (l : List (Time × Bool)) : State :=
  match l.getLast? with
  | some (τ, v) =>
    if (s.isInput p || !s.rst.fenceRead) && (s.pin p).ext ≠ v then
      (s.setPin p { s.pin p with ext := v }).modOu p fun o => { o with edgeT := min τ s.now }
    else s
  | none => s

/-- R99 to R106: the instants of the raw transitions of the pin that the unit selects since it was last heard, oldest first; `rising`: the first
of them rises. -/
def execCaptureEdge (t : Time) (j : Fin 128) (rising : Bool) (stamps : List Time) (s : State) : Res :=
  engineEvent t s fun s =>
    let l := edges rising stamps
    let s := if (s.cap j).kind = 0 then s.padLevel (s.cap j).index l else s
    s.capFeed j l

/-- R103: CAP_POP: the oldest unreserved record is removed and latched; the service port pops nothing. -/
def State.readCapPop (s : State) (m : Ident) (j : Nat) : Word × State :=
  match (if m = 0x20 then none else (s.capFree j).head?) with
  | none => (wAt 8 (s.capFree j).length, s)
  | some r =>
    let n := (s.capFree j).length - 1
    let s := s.modCap j fun u => { u with fifo := u.fifo.erase r }
    let o := capOfs j
    (flag 0 true ||| flag 1 r.edge ||| flag 2 r.ovf ||| flag 3 r.est ||| wAt 8 n,
     s.latchAll m [(o + 0x24, r.phase), (o + 0x28, wAt 0 r.frac.toNat ||| wAt 16 r.turn.toNat), (o + 0x2C, loW r.time),
                   (o + 0x30, hiW r.time)])

def execCapPop (t : Time) (m : Ident) (j : Fin 128) (s : State) : Res :=
  regRead t (capOfs j + 0x20) s fun s => s.readCapPop m j

/-! ## Global start (R107 to R110) -/

/-- R109: a released cell counts from the next cycle. -/
def Cell.release (c : Cell) (frozen : Bool) (now : Time) : Cell :=
  let base := cyc now * 8
  if c.en && c.exactMode then
    { c with est := .exact, origin := base, divAct := c.div, acc := BitVec.ofNat 32 (c.frac.toNat * 65536),
             pausedAt := if frozen then some base else none }
  else c

/-- R107: a held cell's estimator is IDLE and its fraction stands. -/
def Cell.hold (c : Cell) (now : Time) : Cell := { c.drop .idle now with pausedAt := none }

/-- R107, R109: the hold bit of cell `n` has turned; `frac` is the fraction it showed before. -/
def State.turnCell (s : State) (n : Nat) (frac : BitVec 16) : State :=
  let c := s.cell n
  if s.held n then s.putCell n (if c.en then { c.hold s.now with frac := frac } else c)
  else s.putCell n (c.release (s.frozen n) s.now)

/-- R108: START_GO acts on every selected cell, and its cycle is latched. -/
def State.startGo (s : State) (op : Nat) : State :=
  if op ≠ 1 && op ≠ 2 then s
  else
    let sel := s.axes.start.sel
    let old := s.axes.start.hold
    let new := if op = 1 then old &&& ~~~sel else old ||| sel
    let turned := (List.range 64).filter fun n => old.getLsbD n != new.getLsbD n
    let before := s
    let s := s.modStart fun x => { x with hold := new, startT := cyc s.now * 8 }
    let s := turned.foldl (fun s n => s.turnCell n (before.fracOf n before.now)) s
    turned.foldl (fun s n => s.cellChange n .other) s

def execCellRelease (t : Time) (_m : Ident) (s : State) : Res :=
  regWrite t (startOfs + 0x08) s fun s => s.startGo 1

def execCellHold (t : Time) (_m : Ident) (s : State) : Res :=
  regWrite t (startOfs + 0x08) s fun s => s.startGo 2

/-- R118: START_T_LO latches the high word. -/
def State.readStartT (s : State) (m : Ident) : Word × State :=
  (loW s.axes.start.startT, s.latch m (startOfs + 0x18) (hiW s.axes.start.startT))

def execStartTRead (t : Time) (m : Ident) (s : State) : Res :=
  regRead t (startOfs + 0x14) s fun s => s.readStartT m

/-! ## Debug freeze (R111 to R114) -/

/-- R472: the watchdog pauses in debug halt, in reset and in Rest. -/
def State.wdPause (s : State) (k : Nat) : State :=
  s.modCore k fun c => match c.wdAt with
    | some x => { c with wdLeft := some (x - s.now), wdAt := none }
    | none => c

def State.wdResume (s : State) (k : Nat) : State :=
  s.modCore k fun c => match c.wdLeft with
    | some x => { c with wdAt := some (s.now + x), wdLeft := none }
    | none => c

/-- R112: cells selected to freeze hold what they show. -/
def Cell.freeze (c : Cell) (frac : BitVec 16) (now : Time) : Cell :=
  if c.exactMode then { c with pausedAt := if c.est = .exact then some (cyc now * 8) else none, frzAcc := 0 }
  else { c with frac := frac, frzAcc := 0 }

/-- R111: core `k` enters debug halt; the first one starts the freeze. -/
def execCoreDebugHalt (t : Time) (k : Fin 4) (s : State) : Res :=
  engineEvent t s fun s =>
    let st := s.axes.start
    let s := (s.wdPause k).modCore k fun c => { c with halted := true }
    let first := st.halted = 0
    let cells := (List.range 64).filter fun n => st.frzSel.getLsbD n
    let before := s
    let s := s.modStart fun x => { x with halted := x.halted ||| BitVec.ofNat 4 (1 <<< k.val),
                                          seen := true, frzT := if first then cyc s.now * 8 else x.frzT }
    if first then
      let s := cells.foldl (fun s n => s.putCell n ((s.cell n).freeze (before.fracOf n before.now) s.now)) s
      cells.foldl (fun s n => s.cellChange n .other) s
    else s

/-- R113: at the thaw a cell resumes; a cell with a source loses its history and takes its net count as one step. -/
def State.thawCell (s : State) (n : Nat) : State × List StepEv :=
  let c := s.cell n
  if c.exactMode then
    match c.pausedAt with
    | some p =>
      let c := { c with pausedAt := none, origin := c.origin + (cyc s.now * 8 - p) }
      (s.putCell n c, [])
    | none => (s, [])
  else
    let k := c.frzAcc
    -- the samples of a MAINS cell go on from that of the thaw step (R46, R47)
    let s := s.putCell n { c with frzAcc := 0, hist := [], est := if c.en && c.est ≠ .idle then .idle else c.est,
                                  mirOdo := if c.mode = 3 && !s.held n then c.odo + k else c.mirOdo }
    let pos := if c.mode = 7 then some (if 0 < k then 2 * c.mirOdo else 2 * c.mirOdo + 2) else (s.cell n).samplePos k
    s.stepCell 64 n k (cyc s.now * 8) pos

/-- R111, R113: core `k` leaves debug halt; the last one ends the freeze. -/
def execCoreDebugResume (t : Time) (k : Fin 4) (s : State) : Res :=
  engineEvent t s fun s =>
    let st := s.axes.start
    let s := (s.wdResume k).modCore k fun c => { c with halted := false }
    let left := st.halted &&& ~~~ BitVec.ofNat 4 (1 <<< k.val)
    let last := st.halted ≠ 0 && left = 0
    let s := s.modStart fun x => { x with halted := left }
    if last then
      let cells := (List.range 64).filter fun n => st.frzSel.getLsbD n
      let (s, evs) := cells.foldl (fun p n =>
        let (s, e) := p.1.thawCell n
        (s, p.2 ++ e)) (s, [])
      let s := s.react evs
      cells.foldl (fun s n => s.cellChange n .other) s
    else s

/-- R118: FRZ_T_LO latches the high word. -/
def State.readFrzT (s : State) (m : Ident) : Word × State :=
  (loW s.axes.start.frzT, s.latch m (startOfs + 0x38) (hiW s.axes.start.frzT))

def execFrzTRead (t : Time) (m : Ident) (s : State) : Res :=
  regRead t (startOfs + 0x34) s fun s => s.readFrzT m

end Sys2Proof.Machine
end

