-- ==== Sys2Proof/Machine/Command.lean ====
section
/-! DEFINITION. The channel commands (04_command_set.md): what each does when it is current and untimed. A timed command acts at its due
time (Timed.lean) through the same operations. -/

namespace Sys2Proof.Machine

/-- The current untimed command of channel `c` executes, where it is one that `p` accepts and the channel is ready for it. -/
def onCommand (t : Time) (c : Nat) (s : State) (p : Group → Bool) (f : State → State) : Res :=
  engineEvent t s fun s =>
    let h := s.chan c
    if (h.st = .active || (h.st = .haltPending && h.inBracket)) && h.act = .ready && !h.cur.tm && p h.cur then f s else s

/-! ## Data commands -/

/-- R139, R140, R144 to R148, R386: a READ begins, or goes on after RESUME. -/
def State.readStart (s : State) (c : Nat) : State :=
  let h := s.chan c
  let g := h.cur
  let u := g.unit
  if s.unitCheck g.op u then s.endWith c [stUnitCheck]
  else if h.recEnded && h.inChain then s.readSkip c
  else if s.placing c then
    if g.cd || g.count % (s.stream u).stride ≠ 0 then s.endWith c [stUnitCheck]
    else (s.setChan c { h with fragA := none }).placeGo c
  else
    let h := if !h.snap.isEmpty then h else match unitClass u with
      | .cell => { h with snap := s.cellSnapshot (cellOfUnit u) s.now }
      | .yazen => { h with snap := s.yz.slotData (slotOf u) }
      | _ => h
    (s.setChan c h).pump c

def execRead (t : Time) (c : Fin 4096) (s : State) : Res := onCommand t c s (·.op = 0x01) fun s => s.readStart c

/-- R147, R389: a frame longer than the port takes. -/
def State.tooLong (s : State) (c more : Nat) : Bool :=
  let h := s.chan c
  unitClass h.cur.unit = .txq && decide ((s.port (txqOf h.cur.unit / 4)).maxLen < h.frame.length + more + 4)

/-- R144, R147: a WRITE begins. -/
def State.writeStart (s : State) (c : Nat) : State :=
  let h := s.chan c
  if s.unitCheck h.cur.op h.cur.unit || s.tooLong c h.resid then s.endWith c [stUnitCheck] else s.pump c

def execWrite (t : Time) (c : Fin 4096) (s : State) : Res := onCommand t c s (·.op = 0x02) fun s => s.writeStart c

/-- R155: GATHER, into memory or into one frame. -/
def State.gatherStart (s : State) (c : Nat) : State :=
  let h := s.chan c
  let txq := unitClass h.cur.unit = .txq
  if txq && (s.unitCheck 0x02 h.cur.unit || s.tooLong c (h.resid * h.cur.gSize - h.ebyte)) then s.endWith c [stUnitCheck]
  else s.pump c

def execGather (t : Time) (c : Fin 4096) (s : State) : Res := onCommand t c s (·.op = 0x08) fun s => s.gatherStart c

/-! ## CONTROL and SENSE (R149, R150) -/

/-- R150: apply the order; `false` where the unit refuses a LOAD. -/
def State.control (s : State) (g : Group) : Bool × State :=
  let n := cellOfUnit g.unit
  match unitClass g.unit, fld g.w1 0 8 with
  | .cell, 1 => s.loadCell n (BitVec.ofInt 48 g.w3.toInt) g.w2
  | .cell, 2 => (true, s.writeMod n g.w2)
  | .cell, _ => (true, s.commitRate n (BitVec.ofNat 64 g.addr))
  | _, _ => (true, s.flushUnit g.unit)

/-- CONTROL completes, or ends with UNIT_CHECK. -/
def State.controlDo (s : State) (c : Nat) : State :=
  match s.control (s.chan c).cur with
  | (true, s) => s.complete c
  | (false, s) => s.endOr c stUnitCheck

def isControl (cell : Bool) (order : Nat) (g : Group) : Bool :=
  g.op = 0x03 && (unitClass g.unit = .cell) = cell && fld g.w1 0 8 = order

def execFlush (t : Time) (c : Fin 4096) (s : State) : Res := onCommand t c s (isControl false 1) fun s => s.controlDo c
def execLoad (t : Time) (c : Fin 4096) (s : State) : Res := onCommand t c s (isControl true 1) fun s => s.controlDo c
def execSetMod (t : Time) (c : Fin 4096) (s : State) : Res := onCommand t c s (isControl true 2) fun s => s.controlDo c
def execSetRate (t : Time) (c : Fin 4096) (s : State) : Res := onCommand t c s (isControl true 3) fun s => s.controlDo c

/-- R149: the unit is sampled at `t`: COND is set; without SKP the block is kept for its burst. -/
def State.senseSample (s : State) (c : Nat) (t : Time) : State :=
  s.modChan c fun h =>
    let sw := s.senseWord h.cur.unit
    { h.setCond (h.cur.senseCond sw) with snap := if h.cur.skp then [] else s.senseBlock h.cur.unit t }

/-- R149: an untimed SENSE samples, and writes its block unless SKP; after a RESUME it goes on with the block it has. -/
def State.senseStart (s : State) (c : Nat) : State :=
  let s := if (s.chan c).snap.isEmpty then s.senseSample c s.now else s
  if (s.chan c).cur.skp then s.complete c else s.pump c

def execSense (t : Time) (c : Fin 4096) (s : State) : Res := onCommand t c s (·.op = 0x04) fun s => s.senseStart c

/-! ## Flow of control (R159 to R162) -/

/-- R159: TIC goes to ADDR. -/
def execTic (t : Time) (c : Fin 4096) (s : State) : Res :=
  onCommand t c s (·.op = 0x10) fun s =>
    (s.modChan c fun h => { h with next := some (h.cur.addr, h.cur.phy) }).complete c

/-- R159: TICC goes to ADDR when COND is as WHEN asks. -/
def execTicc (t : Time) (c : Fin 4096) (s : State) : Res :=
  onCommand t c s (·.op = 0x11) fun s =>
    (s.modChan c fun h =>
      { h with next := if h.cond != bit h.cur.w1 0 then some (h.cur.addr, h.cur.phy) else none }).complete c

def isWait (kind : Nat) (g : Group) : Bool := g.op = 0x20 && g.waitKind = kind

/-- A wait ends: COND and completion. -/
def State.waitEnds (s : State) (c : Nat) (cond : Option Bool) : State :=
  (s.modChan c fun h => { (match cond with | some b => h.setCond b | none => h) with st := .active }).complete c

/-- R160: the instant a timeout of `n` µs expires; none for 0. -/
def Chan.waitLimit (h : Chan) (n : Nat) : Option Time := if n = 0 then none else some (h.currentAt + us n)

/-- R160: the duration runs from the cycle in which the WAIT became current. -/
def execWaitTime (t : Time) (c : Fin 4096) (s : State) : Res :=
  onCommand t c s (isWait 0) fun s => s.enterWait c (.time (cyc (s.chan c).currentAt * 8 + ns (s.chan c).cur.addr))

/-- R160: the duration has elapsed. -/
def execWaitTimeExpiry (t : Time) (c : Fin 4096) (s : State) : Res :=
  engineEvent t s fun s =>
    match (s.chan c).act with
    | .time due => if (s.chan c).st = .waiting && due ≤ s.now then s.waitEnds c none else s
    | _ => s

/-- R160: WAIT of kind UNIT: a unit that already advertises completes it. -/
def execWaitUnit (t : Time) (c : Fin 4096) (s : State) : Res :=
  onCommand t c s (isWait 2) fun s =>
    let h := s.chan c
    if s.unitReady h.cur.unit then s.waitEnds c (some true)
    else s.enterWait c (.waitUnit h.cur.unit (h.waitLimit h.cur.w3.toNat))

/-- R161, R173: WAIT of kind COMPARE: a firing since the channel's ARM of that unit, or one in or after the cycle in which the WAIT became
current, completes it at once. -/
def execWaitCompare (t : Time) (c : Fin 4096) (s : State) : Res :=
  onCommand t c s (isWait 3) fun s =>
    let h := s.chan c
    let k := fld h.cur.w2 0 8
    let seen := match (s.cmp k).fireAt with | some x => decide (cyc h.currentAt ≤ x) | none => false
    if (h.armValid && h.armIdx = k && (s.cmp k).fcnt ≠ h.armFcnt) || seen then s.waitEnds c (some true)
    else s.enterWait c (.waitCmp k (h.waitLimit h.cur.w3.toNat))

/-- R204: what channel `c` is being woken by: what it waited for has come, or its unit advertises. -/
def State.wakenBy (s : State) (c : Nat) : Option Nat :=
  match (s.chan c).act with
  | .woken k _ => some k
  | .waitUnit u _ => if s.unitReady u then some u else none
  | _ => none

/-- R160, R204: what was waited for has come. The channels that one unit wakes complete in ascending order, each not before its cycle. -/
def State.waitComplete (s : State) (c : Nat) : State :=
  let h := s.chan c
  let early := match h.act with | .woken _ x => decide (cyc s.now < x) | _ => false
  let lower := s.chanKeys.any fun k => decide (k < c) && (s.chan k).st = .waiting && s.wakenBy k = s.wakenBy c
  if h.st = .waiting && (s.wakenBy c).isSome && !early && !lower then s.waitEnds c (some true) else s

def execWaitComplete (t : Time) (c : Fin 4096) (s : State) : Res := engineEvent t s fun s => s.waitComplete c

/-- R162: the phase lies in the glade and the direction qualifies. A LO or HI beyond the modulus admits nothing. -/
def State.inGlade (s : State) (g : Group) : Bool :=
  let c := s.cell g.gladeCell
  let p := c.phase.toNat
  let lo := g.w2.toNat
  let hi := g.w3.toNat
  let inside := if lo ≤ hi then decide (lo ≤ p) && decide (p ≤ hi) else decide (lo ≤ p) || decide (p ≤ hi)
  let dir := c.dir.toNat
  decide (lo < c.modN) && decide (hi < c.modN) && inside
    && (if g.gladeDir = 0 then dir = 0 else if g.gladeDir = 1 then dir = 1 else dir ≤ 2)

/-- R162, R173: GLADE completes at once where the phase lies inside, else it waits. -/
def execGlade (t : Time) (c : Fin 4096) (s : State) : Res :=
  onCommand t c s (·.op = 0x21) fun s =>
    let h := s.chan c
    if s.inGlade h.cur then s.waitEnds c (some true)
    else
      let s := if s.gladeOor h.cur then s.modChan c fun h => h.setSt stOutOfRange else s
      s.enterWait c (.glade (h.waitLimit h.cur.gladeTimeout))

/-- R200: the phase has come into the glade. -/
def execGladeComplete (t : Time) (c : Fin 4096) (s : State) : Res :=
  engineEvent t s fun s =>
    let h := s.chan c
    match h.act with
    | .glade _ => if h.st = .waiting && s.inGlade h.cur then s.waitEnds c (some true) else s
    | _ => s

/-- R160, R162, R173: a timeout ends the wait, unless its event has come. -/
def execWaitTimeout (t : Time) (c : Fin 4096) (s : State) : Res :=
  engineEvent t s fun s =>
    let h := s.chan c
    let late (l : Option Time) : Bool := match l with | some x => decide (x ≤ s.now) | none => false
    if h.st ≠ .waiting then s
    else match h.act with
      | .waitUnit u l => if late l && !s.unitReady u then s.waitEnds c (some false) else s
      | .waitCmp _ l => if late l then s.waitEnds c (some false) else s
      | .glade l => if late l && !s.inGlade h.cur then s.waitEnds c (some false) else s
      | _ => s

/-! ## SIGNAL (R156, R157) -/

def isSignal (mode : Nat) (g : Group) : Bool := g.op = 0x30 && g.sigMode = mode

def execSignalLevel (t : Time) (c : Fin 4096) (s : State) : Res := onCommand t c s (isSignal 0) fun s => s.signalStart c
def execSignalPulse (t : Time) (c : Fin 4096) (s : State) : Res := onCommand t c s (isSignal 1) fun s => s.signalStart c
def execSignalPattern (t : Time) (c : Fin 4096) (s : State) : Res := onCommand t c s (isSignal 2) fun s => s.signalStart c

/-! ## ARM (R158) -/

/-- R95, R158: the image is written in one cycle; a compare unit's firing count is stored; CFG_REJ ends with UNIT_CHECK. -/
def State.armDo (s : State) (c : Nat) : State :=
  let g := (s.chan c).cur
  let k := fld g.w1 0 8
  let (rej, s) := if bit g.w1 8 then s.capImage k g.o0 g.o1 g.o2 g.o3 else
    let (rej, s) := s.cmpImage k g.o0 g.o1 g.o2 g.o3
    (rej, s.modChan c fun h => { h with armIdx := k, armValid := true, armFcnt := (s.cmp k).fcnt })
  if rej then s.endOr c stUnitCheck else s.complete c

def execArmCompare (t : Time) (c : Fin 4096) (s : State) : Res :=
  onCommand t c s (fun g => g.op = 0x31 && !bit g.w1 8) fun s => s.armDo c
def execArmCapture (t : Time) (c : Fin 4096) (s : State) : Res :=
  onCommand t c s (fun g => g.op = 0x31 && bit g.w1 8) fun s => s.armDo c

/-! ## Locked sequences (R166 to R171, R468, R469) -/

/-- R168: LOCK, whose bracket has been fetched and has passed its checks. -/
def State.lockDo (s : State) (c : Nat) : State :=
  let h := s.chan c
  match bracketOf h.phy (h.cca + h.cur.size) [] h.ahead with
  | .ok l =>
    let h := { h with inBracket := true, lockWrites := [], lockFirst := none, lockBeats := (l.flatMap memberBeats).eraseDups }
    (s.setChan c h).complete c
  | _ => s

def execLock (t : Time) (c : Fin 4096) (s : State) : Res := onCommand t c s (·.op = 0x38) fun s => s.lockDo c

/-- R170, R471: the locked sequence is abandoned. -/
def State.lockAbandon (s : State) (c : Nat) : State :=
  let s := { s with mem := { s.mem with abandons := s.mem.abandons + 1 } }
  (s.modChan c fun h => { h with inBracket := false, lockWrites := [], lockFirst := none, lockBeats := [] }).endOr c stLockAbandoned

/-- A byte range as the bracket sees it: memory under its own buffered writes. -/
def overlay (w : List (Nat × List Byte)) (a : Nat) (b : List Byte) : List Byte :=
  w.reverse.foldl (fun b p => (List.range b.length).map fun i =>
    if p.1 ≤ a + i && a + i < p.1 + p.2.length then p.2.getD (a + i - p.1) 0 else b.getD i 0) b

/-- R169: a member reads; none where the SRAM fails. -/
def State.memberRead (s : State) (c a n : Nat) : Option (List Byte) × State :=
  match s.sramRead a n with
  | (some b, s) => (some (overlay (s.chan c).lockWrites a b), s)
  | (none, s) => (none, s)

/-- R170: more than 256 ns have passed since the first access. -/
def Chan.lockLate (h : Chan) (t : Time) : Bool := match h.lockFirst with | some x => decide (x + ns 256 < t) | none => false

/-- R171: EXPECT against the word read: COND, the result, and NEW where they are equal. -/
def casOutcome (g : Group) (b : List Byte) : Bool := leNat b = g.opLo

/-- R469: the bracket of channel `c` waits to begin while another locked sequence holds a beat of its own. -/
def State.bracketBlocked (s : State) (c : Nat) : Bool :=
  let h := s.chan c
  h.lockFirst.isNone && h.lockBeats.any fun x => s.beatLocked (some c) (64 * x) 64

/-- R169: a member of the bracket runs on the buffered view. -/
def State.memberRun (s : State) (c : Nat) : State :=
  let s := s.modChan c fun h => { h with lockFirst := if h.cur.op = 0x7F then h.lockFirst else some (h.lockFirst.getD s.now) }
  let h := s.chan c
  let g := h.cur
  let write (a : Nat) (b : List Byte) (s : State) : State := s.modChan c fun h => { h with lockWrites := (a, b) :: h.lockWrites }
  if h.lockLate s.now then s.lockAbandon c
  else match g.op with
    | 0x05 => (match s.memberRead c g.addr g.count with
        | (some b, s) => ((write g.opLo b s).modChan c fun h => h.moved g.count).complete c
        | (none, s) => s.lockAbandon c)
    | 0x06 => ((write g.addr (g.pattern 0 g.count) s).modChan c fun h => h.moved g.count).complete c
    | 0x07 =>
      (match s.memberRead c g.addr g.count with
       | (none, s) => s.lockAbandon c
       | (some x, s) =>
         match (if g.const then (some (g.pattern 0 g.count), s) else s.memberRead c g.opLo g.count) with
         | (none, s) => s.lockAbandon c
         | (some y, s) =>
           match firstDiff x y 0 with
           | some k => (s.modChan c fun h => ((h.moved k).setSt stMismatch).setCond false).complete c
           | none => (s.modChan c fun h => (h.moved g.count).setCond true).complete c)
    | 0x3A => (match s.memberRead c g.addr g.count with
        | (none, s) => s.lockAbandon c
        | (some b, s) =>
          let eq := casOutcome g b
          let s := if eq then write g.addr (leBytes g.count g.opHi) s else s
          (s.modChan c fun h => { h.setCond eq with result := BitVec.ofNat 64 (leNat b) }).complete c)
    | _ => s.complete c

/-- R169, R469: a member runs, unless it makes the first access of its bracket while another locked sequence holds one of its beats. -/
def State.memberDo (s : State) (c : Nat) : State :=
  if (s.chan c).cur.op ≠ 0x7F && s.bracketBlocked c then s else s.memberRun c

/-- The members of a bracket arrive by the rows of their commands. -/
def State.orMember (s : State) (c : Nat) (f : State → State) : State := if (s.chan c).inBracket then s.memberDo c else f s

/-- R169: at UNLOCK every write becomes visible in one cycle. -/
def State.unlockDo (s : State) (c : Nat) : State :=
  let h := s.chan c
  if h.lockLate s.now then s.lockAbandon c
  else
    let s := h.lockWrites.reverse.foldl (fun s p => s.sramWrite p.1 p.2) s
    let s := { s with mem := { s.mem with locks := s.mem.locks + 1 } }
    (s.modChan c fun h => { h with inBracket := false, lockWrites := [], lockFirst := none, lockBeats := [] }).complete c

/-- R170: 256 ns have passed since the first access. -/
def execLockAbandoned (t : Time) (c : Fin 4096) (s : State) : Res :=
  engineEvent t s fun s =>
    let h := s.chan c
    if h.inBracket && (match h.lockFirst with | some x => decide (x + ns 256 ≤ s.now) | none => false) then s.lockAbandon c else s

/-- R171: CAS outside a bracket is a locked sequence of its own; it waits while another one locks its beat (R469). -/
def State.casDo (s : State) (c : Nat) : State :=
  let g := (s.chan c).cur
  if s.beatLocked (some c) g.addr g.count then s
  else match s.sramRead g.addr g.count with
    | (none, s) => s.lockAbandon c
    | (some b, s) =>
      let eq := casOutcome g b
      let s := if eq then s.sramWrite g.addr (leBytes g.count g.opHi) else s
      let s := { s with mem := { s.mem with locks := s.mem.locks + 1 } }
      (s.modChan c fun h => { h.setCond eq with result := BitVec.ofNat 64 (leNat b) }).complete c

def execCas (t : Time) (c : Fin 4096) (s : State) : Res :=
  onCommand t c s (·.op = 0x3A) fun s => s.orMember c fun s => s.casDo c

/-- R152 to R154: the memory commands, as bursts, or as members of a bracket. -/
def execMove (t : Time) (c : Fin 4096) (s : State) : Res :=
  onCommand t c s (·.op = 0x05) fun s => s.orMember c fun s => s.pump c

def execFill (t : Time) (c : Fin 4096) (s : State) : Res :=
  onCommand t c s (·.op = 0x06) fun s => s.orMember c fun s => s.pump c

def execCompare (t : Time) (c : Fin 4096) (s : State) : Res :=
  onCommand t c s (·.op = 0x07) fun s => s.orMember c fun s => s.pump c

/-- R169. -/
def execUnlock (t : Time) (c : Fin 4096) (s : State) : Res :=
  onCommand t c s (fun g => g.op = 0x39) fun s => s.unlockDo c

/-! ## MARK and NOP (R163) -/

/-- R163, R165: MARK posts its record and completes; one that ends its program posts the final record in its place, also where a HALT waits
for it (R194): the final record of the drain then carries TAG and VALUE. -/
def State.markDo (s : State) (c : Nat) : State :=
  let h := s.chan c
  if h.endsHere then (s.modChan c fun h => { h with tagDue := h.st = .haltPending }).complete c
  else
    let s := s.freeTimed c
    match s.chanPost c (h.recMark c) with
    | (true, s) => s.complete c
    | (false, s) =>
      let s := s.holdRec c (h.recMark c) false .go
      if h.cur.pci then s.holdRec c (h.recPci c s.now) false .go else s

def execMark (t : Time) (c : Fin 4096) (s : State) : Res := onCommand t c s (·.op = 0x40) fun s => s.markDo c

def execNop (t : Time) (c : Fin 4096) (s : State) : Res :=
  onCommand t c s (·.op = 0x7F) fun s => s.orMember c fun s => s.complete c

end Sys2Proof.Machine
end

