-- ==== Sys2Proof/Machine/FaultOps.lean ====
section
/-! DEFINITION. The sources of the fault collector as they stand at reset (R478), the registers that set them, and the level sources
that the collector and the mailboxes hold at the core interrupt controller (R422, R480). -/

namespace Sys2Proof.Machine

/-- R478: severity and reaction of a source at reset; none where the number is reserved. -/
def fcDefault (i : Nat) : Option (Nat × Nat) :=
  if i < 16 then some (1, 1)
  else if i < 24 then some (2, 1)
  else if i < 26 then some (1, 1)
  else if i < 32 then none
  else if i < 96 then some (2, 1)
  else if i < 104 then some (1, 0)
  else if i < 112 then some (0, 0)
  else if i < 129 then some (1, 1)
  else if i = 129 then some (2, 1)
  else if i = 130 then some (2, 3)
  else if i = 131 then none
  else if i = 132 then some (1, 1)
  else if i = 133 then some (2, 1)
  else if i = 134 then some (1, 1)
  else if i < 144 then some (2, 1)
  else if i < 149 then some (1, 1)
  else if i < 160 then none
  else if i = 160 then some (2, 1)
  else if i < 163 then some (3, 3)
  else if i = 163 then some (2, 1)
  else if i = 254 || i = 255 then some (3, 3)
  else none

/-- R527: an FC_SRC entry at reset. -/
def fcSrcReset (i : Nat) : FcSrc :=
  match fcDefault i with
  | some (v, r) => { sev := BitVec.ofNat 2 v, react := BitVec.ofNat 3 r }
  | none => {}

/-- R478: reserved sources never report. -/
def fcReserved (i : Nat) : Bool := (fcDefault i).isNone

def State.fcSrc (s : State) (i : Nat) : FcSrc := (tget none s.fc.srcs i).getD (fcSrcReset i)
def State.setFcSrc (s : State) (i : Nat) (x : FcSrc) : State :=
  { s with fc := { s.fc with srcs := tput none s.fc.srcs i (if x = fcSrcReset i then none else some x) } }

/-- R484: the recorded severity of a latched source. -/
def State.recordedSev (s : State) (i : Nat) : Nat := tget 0 s.fc.recSev i

/-- R480: reactions 1 to 4 raise the core source of their severity. -/
def FcSrc.signals (x : FcSrc) : Bool := 1 ≤ x.react.toNat && x.react.toNat ≤ 4

/-- R480: core source 672 + v is live. -/
def State.sevLive (s : State) (v : Nat) : Bool :=
  (List.range 256).any fun i => s.fc.latch.getLsbD i && s.recordedSev i = v && (s.fcSrc i).signals

/-- The sides of a mailbox that are cores. -/
def Mbox.coreSides (b : Mbox) : List Bool := [true, false].filter fun a => (b.idOf a).toNat / 16 = 1

/-- R422: the level sources, and their live inputs. -/
def cicLevel (i : Nat) : Bool := decide (544 ≤ i) && decide (i < 676)
def State.cicLive (s : State) (i : Nat) : Bool :=
  if 544 ≤ i && i < 608 then
    let b := s.mb (i - 544)
    b.coreSides.any fun a => (b.dir (!a)).msg
  else if 608 ≤ i && i < 672 then
    let b := s.mb (i - 608)
    b.coreSides.any fun a => (b.dir a).acked || (b.dir a).timeout
  else if 672 ≤ i && i < 676 then s.sevLive (i - 672)
  else false

/-- R423: PEND. -/
def State.cicPend (s : State) (i : Nat) : Bool :=
  let c := s.cic i
  !cicReserved i && (c.pend || (cicLevel i && !c.bound && !c.active && s.cicLive i))

end Sys2Proof.Machine
end

