-- ==== Sys2Proof/Machine/Interrupts.lean ====
section
/-! DEFINITION. Interrupts (R417 to R430): MSI-X messages, and the delivery, claim and completion of core interrupt sources. -/

namespace Sys2Proof.Machine

/-! ## MSI-X (R419) -/

/-- R419: messages may be issued at all. -/
def Irq.open_ (q : Irq) : Bool := q.msixEn && !q.funcMask && q.bme && q.link

/-- The lowest pending vector that is not masked. -/
def State.nextVec (s : State) : Option Nat := (s.irq.vecs.find? fun p => p.2.pend && !bit p.2.ctrl 0).map (·.1)

/-- R419: the message of the lowest pending unmasked vector enters the outbound path, and its pending bit clears; one message a cycle. -/
def State.msixIssue (s : State) : State :=
  if !s.irq.open_ || s.irq.msiAt = some (cyc s.now) then s
  else match s.nextVec with
    | none => s
    | some v =>
      let x := s.vec v
      ({ s.setVec v { x with pend := false } with irq.msiAt := some (cyc s.now) } : State).emit
        (.msi (BitVec.ofNat 64 (x.addrLo.toNat + x.addrHi.toNat * 2 ^ 32)) x.data)

def execMsixIssue (t : Time) (s : State) : Res := engineEvent t s State.msixIssue

/-! ## Delivery (R424, R425) -/

def CicSrc.prio (c : CicSrc) : Nat := fld c.cfg 0 3
def CicSrc.anyOf (c : CicSrc) : Bool := bit c.cfg 3
def CicSrc.target (c : CicSrc) (k : Nat) : Bool := bit c.cfg (4 + k)

/-- A core that is held in reset, or is entering it. -/
def State.coreHeld (s : State) (k : Nat) : Bool := (s.core k).st = .inReset || (s.core k).st = .resetting

def State.cicThresh (s : State) (k : Nat) : Nat := fld (tget 0 s.irq.thresh k) 0 3

/-- R424: core `k` is eligible for a source. -/
def State.cicEligible (s : State) (c : CicSrc) (k : Nat) : Bool :=
  c.target k && decide (s.cicThresh k < c.prio) && !s.coreHeld k

/-- R424: the core a source goes to: the lowest eligible one, or the first after RR. -/
def State.cicCore (s : State) (c : CicSrc) : Option Nat :=
  (if c.anyOf then [c.rr + 1, c.rr + 2, c.rr + 3, c.rr + 4].map (· % 4) else [0, 1, 2, 3]).find? (s.cicEligible c)

/-- A core that waits in WFI goes on when an interrupt is pending; not while Rest is being entered (R434). -/
def State.wakeCore (s : State) (k : Nat) : State :=
  if s.und.st = .run then s.modCore k fun c => if c.st = .wfi then { c with st := .run } else c else s

/-- R425: delivery: BOUND is set, PEND clears, CORE names the core, and RR follows an ANY_OF delivery. -/
def State.cicDeliver (s : State) (i : Nat) : State :=
  let c := s.cic i
  if !s.cicPend i || c.bound || c.active || c.prio = 0 then s
  else match s.cicCore c with
    | none => s
    | some k => (s.setCic i { c with pend := false, bound := true, core := k, rr := if c.anyOf then k else c.rr }).wakeCore k

def execCicDeliver (t : Time) (i : Fin 1024) (s : State) : Res := engineEvent t s fun s => s.cicDeliver i

/-! ## Software set and clear (R423) -/

def cicOfs : Nat := 0xC0000

/-- Bits of a word that are 1, as numbers. -/
def ones (v : Word) : List Nat := (List.range 32).filter fun j => bit v j

def State.cicSet (s : State) (w : Nat) (v : Word) : State := (ones v).foldl (fun s j => s.cicEdge (32 * w + j)) s

/-- R423: PEND clears unless the source is BOUND. -/
def State.cicClear (s : State) (w : Nat) (v : Word) : State :=
  (ones v).foldl (fun s j =>
    let i := 32 * w + j
    let c := s.cic i
    if c.bound then s else s.setCic i { c with pend := false }) s

def execCicPendWrite (t : Time) (_m : Ident) (w : Fin 32) (v : Word) (s : State) : Res :=
  regWrite t (cicOfs + 0x1000 + 4 * w) s fun s => s.cicSet w v

def execCicPclrWrite (t : Time) (_m : Ident) (w : Fin 32) (v : Word) (s : State) : Res :=
  regWrite t (cicOfs + 0x1080 + 4 * w) s fun s => s.cicClear w v

/-! ## Claim and complete (R426 to R429) -/

/-- The identity of core `k`. -/
def coreId (k : Nat) : Ident := BitVec.ofNat 8 (0x10 + k)

/-- R426: the source core `k` claims: the highest PRIO, and among equals the lowest number. -/
def State.cicBest (s : State) (k : Nat) : Option Nat :=
  (s.irq.srcs.foldl (fun (b : Option (Nat × Nat)) p =>
    if p.2.bound && p.2.core = k then
      (match b with
       | some (q, _) => if q < p.2.prio then some (p.2.prio, p.1) else b
       | none => some (p.2.prio, p.1))
    else b) none).map (·.2)

/-- R426: the claim record, and the claim. -/
def State.cicClaim (s : State) (m : Ident) (k : Nat) : Word × State :=
  if m ≠ coreId k then (0, s)
  else match s.cicBest k with
    | none => (0, s)
    | some i =>
      (wAt 0 i ||| flag 15 true ||| flag 16 (s.cicLive i) ||| flag 17 (cicLevel i),
        s.setCic i { s.cic i with bound := false, active := true })

def cicCoreOfs (k : Nat) : Nat := cicOfs + 0x2000 + k * 0x20

def execCicClaim (t : Time) (m : Ident) (k : Fin 4) (s : State) : Res :=
  regRead t (cicCoreOfs k + 4) s fun s => s.cicClaim m k

/-- R428: ACTIVE ends on the source that core `k` holds; any other number sets BAD_COMPLETE. -/
def State.cicComplete (s : State) (m : Ident) (k : Nat) (v : Word) : State :=
  if m ≠ coreId k then s
  else
    let i := fld v 0 10
    let c := s.cic i
    if c.active && c.core = k then s.setCic i { c with active := false }
    else { s with irq := { s.irq with badComplete := s.irq.badComplete ||| BitVec.ofNat 4 (1 <<< k) } }

def execCicComplete (t : Time) (m : Ident) (k : Fin 4) (v : Word) (s : State) : Res :=
  regWrite t (cicCoreOfs k + 8) s fun s => s.cicComplete m k v

/-- R429: core `k` enters reset: its BOUND sources return to PEND (a level source follows its input), its ACTIVE ones are completed. -/
def State.cicCoreReset (s : State) (k : Nat) : State :=
  (s.irq.srcs.map (·.1)).foldl (fun s i =>
    let c := s.cic i
    if c.core ≠ k then s
    else if c.bound then s.setCic i { c with bound := false, pend := c.pend || !cicLevel i }
    else if c.active then s.setCic i { c with active := false }
    else s) s

/-- CIC_SRC and CIC_CORE_STATUS (R430). -/
def State.cicSrcWord (s : State) (i : Nat) : Word :=
  if cicReserved i then 0
  else
    let c := s.cic i
    (c.cfg &&& 0xFF) ||| flag 8 (cicLevel i) ||| flag 9 (s.cicLive i) ||| flag 10 (s.cicPend i) ||| flag 11 c.bound
      ||| flag 12 c.active ||| wAt 13 c.core ||| wAt 16 c.rr

def State.cicCoreWord (s : State) (k : Nat) : Word :=
  flag 0 (s.irq.srcs.any fun p => p.2.bound && p.2.core = k) ||| flag 1 (s.irq.badComplete.getLsbD k)
    ||| wAt 8 ((s.irq.srcs.filter fun p => p.2.active && p.2.core = k).length)

end Sys2Proof.Machine
end

