-- ==== Sys2Proof/Machine/Signal.lean ====
section
/-! DEFINITION. The edges a SIGNAL places after its first (R156, R195, R345, R347), and the reservation of a freed slot (R157). -/

namespace Sys2Proof.Machine

/-- R345: a later TIME entry falls DELTA × 125 ps after the edge before it. -/
def OutUnit.timeDue (o : OutUnit) : Option Time :=
  match o.pat with
  | p :: _ => if p.pos then none else some (o.lastEdge + p.value.toNat)
  | [] => none

def State.patternEdge (s : State) (u : Nat) : State :=
  match (s.ou u).timeDue with
  | some x => if x ≤ s.now then s.patternStep u x else s
  | none => s

def execPatternEdge (t : Time) (u : Fin 128) (s : State) : Res := engineEvent t s fun s => s.patternEdge u

/-- R195, R347: the instant a POSITION edge falls, and whether it had to be held after the edge before it. -/
def OutUnit.posAt (o : OutUnit) : Option (Time × Bool) :=
  match o.pat with
  | p :: _ =>
    if !p.pos then none
    else (o.posPassed.orElse fun _ => o.posDue).map fun x =>
      if x ≤ o.lastEdge then (o.lastEdge + 1, true) else (x, false)
  | [] => none

def State.positionEdge (s : State) (u : Nat) : State :=
  let o := s.ou u
  match o.posAt with
  | some (x, held) =>
    if x ≤ s.now then
      let s := match held, o.holder with
        | true, some c => s.placeHeld c
        | _, _ => s
      s.patternStep u x
    else s
  | none => s

def execPositionEdge (t : Time) (u : Fin 128) (s : State) : Res := engineEvent t s fun s => s.positionEdge u

/-- R156: the trailing edge of a PULSE falls WIDTH after its leading one, and the SIGNAL completes. -/
def State.trailingEdge (s : State) (u : Nat) : State :=
  let o := s.ou u
  match o.trail with
  | some (x, l) =>
    if x ≤ s.now then
      let s := (s.setOu u { o with trail := none }).placeEdge u l x
      match o.holder with
      | some c => s.signalDone c
      | none => s
    else s
  | none => s

def execPulseTrailingEdge (t : Time) (u : Fin 128) (s : State) : Res := engineEvent t s fun s => s.trailingEdge u

/-- R157: the lowest channel number that waits reserves a freed slot, from the cycle after it was freed: an untimed SIGNAL then goes on. -/
def State.slotReserve (s : State) (u : Nat) : State :=
  let s : State :=
    match s.slotWaiters u true with
    | c :: _ => if !s.slotFor c u true then s else if (s.chan c).act = .slot u then s.signalGo c else s.stagePump c
    | [] => s
  match s.slotWaiters u false with
  | c :: _ => if s.slotFor c u false then s.stagePump c else s
  | [] => s

def execSlotReserve (t : Time) (u : Fin 128) (s : State) : Res := engineEvent t s fun s => s.slotReserve u

end Sys2Proof.Machine
end

