-- ==== Sys2Proof/Machine/Timed.lean ====
section
/-! DEFINITION. The stages of a timed command that have a row of their own (05_timed_execution.md): scheduler entries, staging, commit,
lock and effect. -/

namespace Sys2Proof.Machine

def schedOfs : Nat := 0x19000

/-! ## Scheduler entries (R182) -/

/-- R182: the first waiting command or pattern receives an entry, else the first waiting compare unit. A command whose prediction, with its
entry, lies less than COMMIT ahead ends MISSED with NO_ENTRY. -/
def State.giveEntry (s : State) : State :=
  let d := s.sched
  match d.waitCmd, d.waitCmp with
  | .cmd c :: r, _ =>
    let s := { s with sched := { d with waitCmd := r } }
    let due := s.predictDue c
    let commit := (s.chan c).timed.elim 0 (·.commit)
    let take (s : State) : State := ({ s with sched := s.sched.take }).modChan c fun h =>
      { h with timed := h.timed.map fun (d : Timed) => { d with entry := true } }
    (match due with
     | some x => if x < s.now + ns commit then s.miss c mNoEntry [] else (take s).setDue c due
     | none => take s)
  | .pat c :: r, _ =>
    ({ s with sched := ({ d with waitCmd := r } : Sched).take }).modChan c fun h =>
      { h with timed := h.timed.map fun (d : Timed) => { d with patHeld := d.patHeld + 1 } }
  | .cmp _ :: r, _ => { s with sched := { d with waitCmd := r } }
  | [], .cmp k :: r =>
    (({ s with sched := ({ d with waitCmp := r } : Sched).take }).modCmp k fun u => { u with entry := true }).cmpPredict k
  | [], _ :: r => { s with sched := { d with waitCmp := r } }
  | [], [] => s

/-- R182, R205: one freed entry is given out per cycle, from the cycle after it returned. -/
def State.entryGrant (s : State) : State :=
  if s.schedFree = 0 || s.sched.grantAt = some (cyc s.now) then s
  else ({ s with sched := { s.sched with grantAt := some (cyc s.now) } }).giveEntry

def execSchedEntryGrant (t : Time) (s : State) : Res := engineEvent t s State.entryGrant

/-- R206: SCHED_CTRL. -/
def State.schedCtrl (s : State) (v : Word) : State :=
  if bit v 0 then { s with sched := { s.sched with peak := s.sched.used } } else s

def execSchedPeakClr (t : Time) (_m : Ident) (v : Word) (s : State) : Res :=
  regWrite t (schedOfs + 0x0C) s fun s => s.schedCtrl v

/-! ## Staging, limit and commit -/

/-- R176, R190: the predicted due time has come within the effective lead. -/
def Chan.stageDue (h : Chan) (t : Time) : Bool :=
  match h.timed with
  | some d => h.st = .waiting && h.act = .sched && d.entry && !d.staging &&
      (match d.due with | some x => decide (x ≤ t + d.effLead) | none => false)
  | none => false

def State.stagingBegin (s : State) (c : Nat) : State := if (s.chan c).stageDue s.now then s.stageBegin c else s

def execStagingBegin (t : Time) (c : Fin 4096) (s : State) : Res := engineEvent t s fun s => s.stagingBegin c

/-- R129: the limit has expired. -/
def Timed.limitOver (d : Timed) (t : Time) : Bool := match d.limit with | some x => decide (x ≤ t) | none => false

/-- R129, R194: a limit that expires before commit ends the command. -/
def State.limitExpiry (s : State) (c : Nat) : State :=
  match (s.chan c).timed with
  | some d => if d.committed.isNone && d.limitOver s.now then s.miss c mLimit [] else s
  | none => s

def execLimitExpiry (t : Time) (c : Fin 4096) (s : State) : Res := engineEvent t s fun s => s.limitExpiry c

/-- R191: the causes that keep the command of channel `c` from committing, lowest first: a mover it has asked for has not been granted; a
staging item that had begun has not ended. -/
def State.missCauses (s : State) (c : Nat) (d : Timed) : List Nat :=
  (if d.limitOver s.now then [mLimit] else [])
  ++ (if d.patNeed ≠ d.patHeld then [mNoEntry] else [])
  ++ (if s.stageWants c then [mNoMover] else [])
  ++ (if !s.slotOk c then [mNoSlot] else [])
  ++ (if !s.stageUnit c || s.stageCheck c then [mNoUnit] else [])
  ++ (if s.staged c then [] else [mIncomplete])

/-- R191: the status bits that a cause found at the commit point sets with MISSED. -/
def State.missBits (s : State) (c cause : Nat) : List Nat := if cause = mNoUnit && s.stageCheck c then [stUnitCheck] else []

/-- R189, R191, R192, R551: the commit point. Staging that has not begun by then begins with it. -/
def State.commitPoint (s : State) (c : Nat) : State :=
  match (s.chan c).timed with
  | none => s
  | some d =>
    match d.due with
    | none => s
    | some x =>
      if d.committed.isSome || s.now + ns d.commit < x then s
      else
        let s := if d.staging then s else s.stageBegin c
        match (s.chan c).timed with
        | none => s
        | some d =>
          match s.missCauses c d with
          | k :: _ => s.miss c k (s.missBits c k)
          | [] =>
            s.modChan c fun h => { h with committed := true, timed := h.timed.map fun (d : Timed) => { d with committed := some x } }

def execCommit (t : Time) (c : Fin 4096) (s : State) : Res := engineEvent t s fun s => s.commitPoint c

/-- R195: a position edge reaches its own commit instant. -/
def State.edgeCommit (s : State) (u : Nat) : State :=
  let o := s.ou u
  match o.pat, o.posDue, o.holder with
  | p :: _, some x, some c =>
    let commit := (s.chan c).timed.elim 0 (·.commit)
    if p.pos && o.posCommitted.isNone && x ≤ s.now + ns commit then s.setOu u { o with posCommitted := some x } else s
  | _, _, _ => s

def execPatternEdgeCommit (t : Time) (u : Fin 128) (s : State) : Res := engineEvent t s fun s => s.edgeCommit u

/-- R193, R195: 16 ns before its due time a committed command is locked, and so is the committed position edge of its unit. -/
def State.placementLock (s : State) (c : Nat) : State :=
  let h := s.chan c
  let s := match h.timed with
    | some d =>
      if d.committed.isSome && !d.locked && h.due ≤ s.now + ns 16 then
        s.modChan c fun h => { h with timed := h.timed.map fun (d : Timed) => { d with locked := true } }
      else s
    | none => s
  match h.act with
  | .signal u =>
    let o := s.ou u
    (match o.posDue with
     | some x => if o.posCommitted.isSome && x ≤ s.now + ns 16 then s.setOu u { o with posLocked := true } else s
     | none => s)
  | _ => s

def execPlacementLock (t : Time) (c : Fin 4096) (s : State) : Res := engineEvent t s fun s => s.placementLock c

/-! ## Effect (R131, R178) -/

/-- R178: an effect placed on the 125 ps grid: the edges of a SIGNAL, the sample of an output unit. -/
def Group.onGrid (g : Group) : Bool := g.op = 0x30 || g.wantsSample

/-- R178: the instant of the effect: the locked due time on the grid, else the first CLK_E cycle at or after it. -/
def Chan.effectAt (h : Chan) : Time := if h.cur.onGrid then h.due else (h.due + 7) / 8 * 8

/-- R148, R224: the due burst of a timed READ: its unit's snapshot is taken now, or the held mover holds what the unit has reserved. -/
def State.dueRead (s : State) (c : Nat) : Burst × State :=
  let h := s.chan c
  let u := h.cur.unit
  match unitClass u, h.timed.bind fun d => d.mover.bind s.mover with
  | .cell, _ => (s.setChan c { h with snap := s.cellSnapshot (cellOfUnit u) h.effectAt }).form c true
  | .yazen, _ => (s.setChan c { h with snap := s.yz.slotData (slotOf u) }).form c true
  | _, some b =>
    ({ chan := c, timed := true, retry := b.retry, len := b.unit.length, unit := b.unit, recs := b.recs, raws := b.raws, epoch := b.epoch,
       wr := if h.cur.skp then none else some (mkSide h.spanA b.unit.length) }, s)
  | _, none => s.form c true

/-- R131, R224: what happens at the locked due time. -/
def State.effectDo (s : State) (c : Nat) (d : Timed) : State :=
  let h := s.chan c
  let g := h.cur
  match g.op with
  | 0x01 => if s.placing c then s.placeGo c else let (b, s) := s.dueRead c; s.runHeld c b
  | 0x02 => (s.writeUnit c d.buf true).complete c
  | 0x03 => s.controlDo c
  | 0x04 =>
    let s := s.senseSample c h.effectAt
    let s := s.modOu g.ou fun o => if o.sampler = some c then { o with sampler := none, sampAt := cyc s.now + 1 } else o
    if g.skp then s.complete c else s.modChan c fun h => { h with act := .req }
  | 0x05 => s.runHeld c { chan := c, len := g.count, unit := d.buf, wr := some (mkSide h.spanB g.count), retry := h.retryN }
  | 0x06 | 0x07 =>
    let (b, s) := s.form c true
    s.runHeld c b
  | 0x30 => s.signalFire c h.due ((patEntries d.buf).map (·.1))
  | 0x31 => s.armDo c
  | 0x40 => s.markDo c
  | _ => s.complete c

/-- R176, R178, R193, R194: the effect of a committed command, from its locked due time on. -/
def State.effect (s : State) (c : Nat) : State :=
  let h := s.chan c
  match h.timed with
  | some d =>
    if d.committed.isNone || h.act ≠ .sched || s.now < h.effectAt then s
    else
      let s := s.modChan c fun h =>
        { h with st := h.st.going, act := .ready, timed := h.timed.map fun (d : Timed) => { d with locked := true } }
      s.effectDo c d
  | none => s

def execEffect (t : Time) (c : Fin 4096) (s : State) : Res := engineEvent t s fun s => s.effect c

/-- R160: a WAIT of kind POSITION has entered the scheduler with its group, and completes at its due time. -/
def execWaitPosition (t : Time) (c : Fin 4096) (s : State) : Res :=
  engineEvent t s fun s => if isWait 1 (s.chan c).cur then s.effect c else s

end Sys2Proof.Machine
end

