-- ==== Sys2Proof/Machine/Requests.lean ====
section
/-! DEFINITION. Requests to channels (R243 to R250), the drain they begin (R243, R258), and a read of a channel's context (R253). -/

namespace Sys2Proof.Machine

/-! ## Completion status codes (R273) -/

def cOk : Nat := 0
def cBusy : Nat := 1
def cInvalid : Nat := 2
def cNoObject : Nat := 3
def cNotPermitted : Nat := 4
def cQueueError : Nat := 5
def cFaulted : Nat := 6
def cTimeout : Nat := 7
def cResetLost : Nat := 8
def cExhausted : Nat := 9
def cWrongState : Nat := 11

/-! ## The drain (R243, R258) -/

/-- The edges of a SIGNAL are being placed. -/
def Act.placing : Act → Bool
  | .signal _ => true
  | _ => false

/-- R243 steps 1 to 3: what runs on to its end. An untimed SIGNAL whose first edge has been placed runs on too (R341). -/
def Chan.runsOn (h : Chan) : Bool := h.inBracket || h.committedNow || h.act.placing

/-- R243 steps 4 and 5: the current command is removed without effect; parked bytes go back (R321). -/
def State.abandonCmd (s : State) (c : Nat) : State :=
  let s := (s.freeTimed c).forget (.fetch c)
  let run := s.bursting c
  let s := if run then s else s.forget (.chan c)
  s.modChan c fun h =>
    { h with act := .fetch, ahead := [], aheadStop := false, tries := 0, leafs := [], park := if run then h.park else none }

/-- R243 step 7: the final record carries ABORTED. R235: not where a bus error of the HALT's own cycle ended the program. -/
def Chan.abort (h : Chan) : Chan := if h.noAbort && h.status.getLsbD stBusError then h else h.setSt stAborted

/-- R243 steps 6 and 7, of a HALT in POST_PENDING: a final record that is held is formed afresh, with ABORTED, when it is posted
(log 54). -/
def Chan.reform (h : Chan) : Chan :=
  if h.held.any (·.final) then
    { h.abort with held := h.held.map fun r => if r.final then { r with bytes := [] } else r, after := .halted }
  else h

/-- R243, R258: a HALT is accepted, or a domain stop or the safe state acts on the channel; `clear` ends the drain in IDLE. -/
def State.halt (s : State) (c : Nat) (clear : Bool) : State :=
  let h := s.chan c
  if h.st.ended || h.st = .haltPending then s
  else
    let now := cyc s.now
    let h' : Chan := { h with st := .haltPending, clearing := h.clearing || clear, haltAt := some now, noAbort := h.busAt = some now }
    let s := s.setChan c h'.reform
    if h.runsOn then s else s.abandonCmd c

/-- R243: nothing keeps the drain of channel `c` from its final record. -/
def State.drained (s : State) (c : Nat) : Bool :=
  let h := s.chan c
  h.st = .haltPending && !s.bursting c && !h.runsOn && h.held.isEmpty

/-- R243 step 7. -/
def State.drainEnd (s : State) (c : Nat) : State :=
  if s.drained c then (s.modChan c Chan.abort).endProgram c .halted (s.chan c).tagDue else s

def execDrainComplete (t : Time) (c : Fin 4096) (s : State) : Res := engineEvent t s fun s => s.drainEnd c

/-- R258: entry to the safe state drains every channel. -/
def State.haltAll (s : State) : State := s.chanKeys.foldl (fun s c => s.halt c false) s

/-- R258: a domain stop drains the channels of domain `d`. -/
def State.haltDomain (s : State) (d : Nat) : State :=
  s.chanKeys.foldl (fun s c => if (s.chan c).domain = d then s.halt c false else s) s

/-! ## The requests (R243 to R250) -/

/-- R247: START. -/
def State.startDo (s : State) (c : Nat) (phy : Bool) (addr : Nat) : State :=
  s.modChan c fun h =>
    { h.startClear with st := .startPending, act := .fetch, cca := addr, phy := phy, cur := {}, starts := h.starts + 1,
                        skipSus := false, cont := false }

/-- R243, R244: SUSPEND is accepted. -/
def State.suspendDo (s : State) (c : Nat) : State :=
  let h := s.chan c
  match h.st with
  | .suspended => s
  | .waiting | .staged => if h.committedNow then s.setChan c { h with suspReq := true } else s.suspendNow c
  | _ => s.setChan c { h with suspReq := true }

/-- R245, R321: RESUME of a SUSPENDED channel fetches its group afresh; of a FAULTED one, it goes on at the faulting byte. R335: after
an invalidation of the faulting page that is in progress. -/
def State.resumeDo (s : State) (c : Nat) : State :=
  let h := s.chan c
  let s := s.setChan c { h with st := .active }
  if h.st = .faulted && h.act = .move then
    if s.invCovers h.domain h.faultVa then s.modChan c fun h => { h with act := .inval } else s.pump c
  else s

/-- R246: CLEAR is accepted. -/
def State.clearDo (s : State) (c : Nat) : State :=
  let h := s.chan c
  match h.st with
  | .idle | .halted => s.setChan c { h.clearAll with st := .idle }
  | .suspended | .faulted =>
    (s.setChan c { h.setSt stAborted with clearing := true, park := none }).endProgram c .idle false
  | _ => s.halt c true

/-- R250 bit 0 in SUSPENDED and FAULTED: the command that stood there is given up. -/
def Chan.retarget (h : Chan) : Chan :=
  let h := if h.st = .faulted then { (h.clrSt stTranslation).clrSt stParkLost with park := none } else h
  { h with resid := 0, daddr := 0, ebyte := 0, frame := [], act := .fetch, cont := false, inChain := false, fromTic := false,
           chainCount := 0, recEnded := false, recTaken := 0, skipSus := false, fragA := none, fragB := none, snap := [],
           next := none, placed := [], placedAt := none, placedBytes := 0, leafs := [], tries := 0 }

/-- R250: MODIFY. -/
def State.modifyDo (s : State) (c : Nat) (phy : Bool) (addr : Nat) (mask : BitVec 3) (cond : Bool) : State :=
  let stopped := (s.chan c).st = .suspended || (s.chan c).st = .faulted
  let s := if mask.getLsbD 0 && stopped then 
      (((((s.freeRecord c).freeSlots c).freeBox c).forget (.chan c)).forget (.fetch c)).modChan c Chan.retarget
    else s
  s.modChan c fun h =>
    let h := if mask.getLsbD 0 then { h with cca := addr, phy := phy } else h
    let h := if mask.getLsbD 1 then h.setCond cond else h
    if mask.getLsbD 2 then { h with status := h.status &&& ~~~ notedBits } else h

/-- R248: STORE-STATUS writes the snapshot, or completes FAULTED; none while the translation of its address is walked. -/
def State.storeDo (s : State) (c : Nat) (phy : Bool) (addr : Nat) : Option Nat × State :=
  let b := (s.chan c).contextBytes
  let write (p : Bool) (a : Nat) (s : State) : Option Nat × State :=
    if (p && decide (sramSize < a + 64)) || !s.canWrite p then (some cFaulted, s) else (some cOk, s.putOut p a b)
  if phy then write true addr s
  else
    let d := (s.chan c).domain
    match s.xlate (.snap c) d addr .write with
    | (.hit p a _, s) => write p a (s.forget (.snap c))
    | (.miss, s) => (none, s)
    | (.fault cause level entry, s) =>
      (some cFaulted, (s.forget (.snap c)).faultRecord
        { va := addr, cause := cause, acc := .write, level := level, source := c, kind := 6, dom := d, entry := entry })

/-- The requests, with the values their entries carry. -/
inductive Request where
  | start (phy : Bool) (addr : Nat)
  | halt | suspend | resume | clear
  | modify (phy : Bool) (addr : Nat) (mask : BitVec 3) (cond : Bool)
  | store (phy : Bool) (addr : Nat)
  deriving DecidableEq, Repr

/-- R243 matrix, R249: what a request finds in a state; `susp` is SUSP_REQ and `lost` is PARK_LOST. -/
def Request.verdict (r : Request) (st : ChanState) (susp lost : Bool) : Nat :=
  match r with
  | .store _ _ => cOk
  | .start _ _ => if st = .haltPending || susp then cBusy else if st.ended then cOk else cWrongState
  | .halt | .clear => if st = .haltPending then cBusy else cOk
  | .suspend => if st = .haltPending then cBusy else if st.ended || st = .faulted then cWrongState else cOk
  | .resume =>
    if st = .haltPending || susp then cBusy
    else if st = .suspended then cOk
    else if st = .faulted then (if lost then cNotPermitted else cOk) else cWrongState
  | .modify _ _ _ _ =>
    if st = .haltPending || susp then cBusy
    else if st.ended || st = .suspended || st = .faulted then cOk else cWrongState

/-- R248, R268: a value the request's entry may not carry. -/
def Request.invalid : Request → Bool
  | .start _ a | .modify _ a _ _ => decide (2 ^ 48 ≤ a)
  | .store _ a => decide (2 ^ 48 ≤ a) || a % 64 ≠ 0
  | _ => false

def Request.isStart : Request → Bool | .start _ _ => true | _ => false
def Request.isResume : Request → Bool | .resume => true | _ => false

/-- R243, the checks in their order: the completion status of request `r` from work queue `q` for channel `c`. -/
def State.judgeReq (s : State) (q c : Nat) (r : Request) : Nat :=
  let h := s.chan c
  if q = 0 || r.invalid then cInvalid
  else if h.wq ≠ some q then cNotPermitted
  else if r.isStart && (!h.domSet || h.eq.isNone) then cNoObject
  else if (r.isStart || r.isResume) && s.fc.safe then cNotPermitted
  else r.verdict h.st h.suspReq (h.status.getLsbD stParkLost)

/-- What an accepted request does; the status is there once the request completes. -/
def State.performReq (s : State) (c : Nat) : Request → Option Nat × State
  | .start phy a => (some cOk, s.startDo c phy a)
  | .halt => (some cOk, s.halt c false)
  | .suspend => (some cOk, s.suspendDo c)
  | .resume => (some cOk, s.resumeDo c)
  | .clear => (some cOk, s.clearDo c)
  | .modify phy a mask cond => (some cOk, s.modifyDo c phy a mask cond)
  | .store phy a => s.storeDo c phy a

/-- R243: judge and perform a request; a refused one changes nothing. None while it waits for a walk. -/
def State.request_ (s : State) (q c : Nat) (r : Request) : Option Nat × State :=
  let v := s.judgeReq q c r
  if v = cOk then s.performReq c r else (some v, s)

/-- R273: the status of the latest request performed. -/
def State.note (p : Option Nat × State) : State :=
  match p with
  | (some v, s) => { s with queues := { s.queues with last := BitVec.ofNat 16 v } }
  | (none, s) => s

/-- A request of work queue `q` is served for channel `c`. -/
def onRequest (t : Time) (q c : Nat) (r : Request) (s : State) : Res :=
  engineEvent t s fun s => State.note (s.request_ q c r)

def execStart (t : Time) (q : Fin 1024) (c : Fin 4096) (phy : Bool) (addr : Nat) (s : State) : Res :=
  onRequest t q c (.start phy addr) s
def execHalt (t : Time) (q : Fin 1024) (c : Fin 4096) (s : State) : Res := onRequest t q c .halt s
def execSuspend (t : Time) (q : Fin 1024) (c : Fin 4096) (s : State) : Res := onRequest t q c .suspend s
def execResume (t : Time) (q : Fin 1024) (c : Fin 4096) (s : State) : Res := onRequest t q c .resume s
def execClear (t : Time) (q : Fin 1024) (c : Fin 4096) (s : State) : Res := onRequest t q c .clear s
def execModify (t : Time) (q : Fin 1024) (c : Fin 4096) (phy : Bool) (addr : Nat) (mask : BitVec 3) (cond : Bool) (s : State) : Res :=
  onRequest t q c (.modify phy addr mask cond) s
def execStoreStatus (t : Time) (q : Fin 1024) (c : Fin 4096) (phy : Bool) (addr : Nat) (s : State) : Res :=
  onRequest t q c (.store phy addr) s

/-! ## The context window (R252 to R254) -/

def ctxOfs (c : Nat) : Nat := 0x40000 + c * 0x40

/-- R253: a read of CTX_STATE latches words 0x04 to 0x3C. -/
def State.readCtx (s : State) (m : Ident) (c : Nat) : Word × State :=
  let w := (s.chan c).context
  (w.headD 0, s.latchAll m ((List.range 15).map fun i => (ctxOfs c + 4 * (i + 1), w.getD (i + 1) 0)))

def execCtxStateRead (t : Time) (m : Ident) (c : Fin 4096) (s : State) : Res :=
  regRead t (ctxOfs c) s fun s => s.readCtx m c

end Sys2Proof.Machine
end

