-- ==== Sys2Proof/Machine/Queues.lean ====
section
/-! DEFINITION. Work queues, event queues and the admin queue (08_queues.md): doorbells, push slots, the reads of the other side's index,
serving entries, admin commands, and posting held records. A queue access and its completion are one event (log 20). -/

namespace Sys2Proof.Machine

/-! ## Ring accesses (R261 to R267) -/

/-- R276, R530: an access to BAR2 is served as one to BAR0 is (R432, R501). -/
def barWrite (t : Time) (s : State) (f : State → State) : Res := regWrite t 0 s f

/-- What a ring read gives. -/
inductive RingRead where
  | bytes (b : List Byte)
  | walking
  /-- The access failed and is reissued (R266), or it waits for a locked beat (R469). -/
  | again
  /-- The queue has entered ERROR. -/
  | failed
  deriving DecidableEq, Repr

/-- R266: an SRAM read by the queue engine: it fails where a word stands uncorrectable, on every reissue, or where it lies beyond
the SRAM. -/
def State.ringSram (s : State) (a n : Nat) : Option (List Byte) × State :=
  if sramSize < a + n then (none, s)
  else if (s.badWord a n).isNone then s.sramRead a n
  else (none, (List.range 4).foldl (fun s _ => (s.sramRead a n).2) s)

/-- R228, R266: what an attempt of a queue access, or its reissue, to read host memory gives: it fails at once, with every reissue, while
the link is not up. -/
def State.hostTry (s : State) (tries : Nat) (m : HostMem) : RingRead :=
  if !s.irq.link then .failed
  else match m with
    | .data b => .bytes b
    | .fail => if tries < 3 then .again else .failed

/-- R266: read `n` bytes of work queue `q`'s ring. -/
def State.wqRead (s : State) (q a n : Nat) (m : HostMem) : RingRead × State :=
  let tries (s : State) (n : Nat) : State := s.modWq q fun w => { w with tries := n }
  match s.wqAddr q a .read with
  | (.ok true x, s) => if s.beatLocked none x n then (.again, s) else (match s.ringSram x n with
      | (some b, s) => (.bytes b, s.spend (.wq q) (s.wq q).dom a)
      | (none, s) => (.failed, s.wqError q 3))
  | (.ok false _, s) => (match s.hostTry (s.wq q).tries m with
      | .bytes b => (.bytes (slice b 0 n), tries (s.spend (.wq q) (s.wq q).dom a) 0)
      | .again => (.again, tries s ((s.wq q).tries + 1))
      | _ => (.failed, (tries s 0).wqError q 3))
  | (.walking, s) => (.walking, s)
  | (.fault, s) => (.failed, s)

/-- R266: write to work queue `q`'s ring: true once it is made. -/
def State.wqWrite (s : State) (q a : Nat) (b : List Byte) : Bool × State :=
  match s.wqAddr q a .write with
  | (.ok p x, s) =>
    if !s.canWrite p || (p && decide (sramSize < x + b.length)) then (false, s.wqError q 3)
    else (true, (s.putOut p x b).spend (.wq q) (s.wq q).dom a)
  | (_, s) => (false, s)

/-- The page of a ring access is still being walked; where it is, the walk has been started. -/
def State.wqWalks (s : State) (q a : Nat) (acc : Access) : Option State :=
  match s.wqAddr q a acc with
  | (.walking, s) => some s
  | _ => none

def State.eqRead (s : State) (q a n : Nat) (m : HostMem) : RingRead × State :=
  let tries (s : State) (n : Nat) : State := s.modEq q fun w => { w with tries := n }
  match s.eqAddr q a .read with
  | (.ok true x, s) => if s.beatLocked none x n then (.again, s) else (match s.ringSram x n with
      | (some b, s) => (.bytes b, s.spend (.eq q) (s.eq q).dom a)
      | (none, s) => (.failed, s.eqError q 3))
  | (.ok false _, s) => (match s.hostTry (s.eq q).tries m with
      | .bytes b => (.bytes (slice b 0 n), tries (s.spend (.eq q) (s.eq q).dom a) 0)
      | .again => (.again, tries s ((s.eq q).tries + 1))
      | _ => (.failed, (tries s 0).eqError q 3))
  | (.walking, s) => (.walking, s)
  | (.fault, s) => (.failed, s)

/-- R285, R288: the write of CI := 0 that creates a queue, when its translation is there. -/
def State.wqInit (s : State) (q : Nat) : State :=
  let w := s.wq q
  if !w.ciOwed then s
  else match s.wqWalks q (w.base + 0x40) .write with
    | some s => s
    | none => (s.modWq q fun w => { w with ciOwed := false }).wqWrite q (w.base + 0x40) (leBytes 4 0) |>.2

/-! ## Doorbells and push slots (R264, R274 to R279, R291) -/

/-- R264: a read of PI is made, or one further read is due. -/
def WQ.ring (w : WQ) : WQ := if w.piRead then { w with piAgain := true } else { w with piRead := true }

/-- R275: a write to the window of work queue `q` by identity `m` reaches it; a foreign one is recorded. -/
def State.wqAccess (s : State) (m : Ident) (q : Nat) (f : WQ → WQ) : State :=
  let w := s.wq q
  if w.st = .absent then s
  else if w.owner ≠ m then s.setWq q { w with foreign := true }
  else s.setWq q (f w)

/-- R264, R291. -/
def WQ.doorbell (w : WQ) : WQ := if w.st = .enabled then w.ring else w

def execWqDoorbell (t : Time) (m : Ident) (q : Fin 1024) (s : State) : Res :=
  barWrite t s fun s => s.wqAccess m q WQ.doorbell

/-- R276, R277, R291: bytes written to the push slot in cycle `now`; byte 63 makes a copy of them. -/
def WQ.pushed (w : WQ) (now ofs : Nat) (b : List Byte) : WQ :=
  let last := decide (ofs ≤ 63) && decide (63 < ofs + b.length)
  if w.st = .enabled then
    let p := putBytes w.push ofs b
    if last then
      if w.copies.length < 4 then { w with push := [], copies := w.copies ++ [(now, (List.range 64).map fun i => tget 0 p i)] }
      else { w with push := [], missed := w.missed + 1 }
    else { w with push := p }
  else if w.st = .disabling && last then { w with missed := w.missed + 1 }
  else w

def execPushSlotWrite (t : Time) (m : Ident) (q : Fin 1024) (ofs : Nat) (bytes : List Byte) (s : State) : Res :=
  barWrite t s fun s => s.wqAccess m q fun w => w.pushed (cyc s.now) ofs bytes

/-! ## The read of PI (R264, R265, R294) -/

/-- R265: the new PI is a producer more than one ring ahead, or one that moved backward. -/
def WQ.lap (w : WQ) (p : Word) : Bool :=
  decide (w.slots < occupied p w.ci) || decide (occupied p w.ci < occupied w.pi w.ci)

/-- R264, R265, R294: the value read is accepted; while DISABLING, the read made after the disable fixes the final PI. -/
def State.takePi (s : State) (q : Nat) (p : Word) : State :=
  let w := s.wq q
  let s := s.setWq q { w with piRead := w.piAgain, piAgain := false }
  if w.lap p then s.wqError q 1
  else s.modWq q fun x => { x with pi := p, finalPi := if w.st = .disabling && !w.piAgain then some p else x.finalPi }

/-- The read of PI of work queue `q` returns. -/
def State.piRead (s : State) (q : Nat) (m : HostMem) : State :=
  let s := s.wqInit q
  let w := s.wq q
  if !w.piRead || !(w.st = .enabled || w.st = .disabling) then s
  else match s.wqRead q w.base 4 m with
    | (.bytes b, s) => s.takePi q (BitVec.ofNat 32 (num b 0 4))
    | (_, s) => s

def execWqPiReadComplete (t : Time) (q : Fin 1024) (h : HostMem) (s : State) : Res := engineEvent t s fun s => s.piRead q h

/-! ## Admin commands (R285 to R289, R294 to R296) -/

inductive Admin where
  | createWq (q : Nat) (phy : Bool) (base size dom : Nat) (owner : Ident)
  | destroyWq (q : Nat)
  | enableWq (q : Nat)
  | disableWq (q : Nat)
  | createEq (q : Nat) (phy : Bool) (base size dom : Nat) (note : Nat) (vec : Nat)
  | destroyEq (q : Nat)
  | bind (c : Nat) (wq eq : BindField) (dom : Option (Fin 256))
  | setPrio (c : Nat) (cls : BitVec 2)
  deriving DecidableEq, Repr

/-- R287: the ring with slots of `slot` bytes, at a base that is aligned, and inside the SRAM when it is physical. -/
def ringOk (phy : Bool) (base size slot : Nat) : Bool :=
  base % 64 = 0 && decide (base < 2 ^ 48) && decide (2 ≤ size) && decide (size ≤ 16)
    && (!phy || decide (base + 0x80 + slot * 2 ^ size ≤ sramSize))

/-- R287 check 1. -/
def Admin.invalid : Admin → Bool
  | .createWq q phy base size _ owner =>
    q = 0 || decide (1024 ≤ q) || !ringOk phy base size 64 || !([0x01, 0x10, 0x11, 0x12, 0x13] : List Ident).contains owner
  | .destroyWq q | .enableWq q | .disableWq q => q = 0 || decide (1024 ≤ q)
  | .createEq q phy base size _ note vec =>
    decide (1024 ≤ q) || !ringOk phy base size 32 || decide (2 < note) || decide (2047 < vec)
  | .destroyEq q => decide (1024 ≤ q)
  | .bind c _ _ _ => decide (4096 ≤ c)
  | .setPrio c _ => decide (4096 ≤ c)

/-- R300: the copies held are discarded, and MISSED counts them. -/
def WQ.dropCopies (w : WQ) : WQ := { w with copies := [], push := [], missed := w.missed + BitVec.ofNat 16 w.copies.length }

/-- A queue's registers after its destruction: its counters and its W1C flags stay. -/
def WQ.gone (w : WQ) : WQ := { foreign := w.foreign, cfgRej := w.cfgRej, used := w.used, missed := w.dropCopies.missed }

/-- R288: create work queue `q` and write CI := 0. None while the translation of that write is walked. -/
def State.createWq (s : State) (q : Nat) (phy : Bool) (base size dom : Nat) (owner : Ident) : State :=
  (s.modWq q fun w => { w.gone with st := .enabled, owner := owner, size := size, base := base, dom := dom, phy := phy,
                                    ciOwed := true }).wqInit q

/-- R288: DESTROY_WQ unbinds the queue's channels. -/
def State.dropWq (s : State) (q : Nat) : State :=
  let s := s.chanKeys.foldl (fun s c => if (s.chan c).wq = some q then s.modChan c fun h => { h with wq := none } else s) s
  s.modWq q WQ.gone

/-- R294: DISABLING: PI is read once more. -/
def WQ.disable (w : WQ) (absent : Bool) : WQ := { w.ring with st := .disabling, finalPi := none, toAbsent := absent }

/-- R288: CREATE_EQ writes PI := 0; none while the translation of that write is walked. -/
def State.createEq (s : State) (q : Nat) (phy : Bool) (base size dom note vec : Nat) : Option Nat × State :=
  let e : EQ := { st := .enabled, armed := true, size := size, notify := BitVec.ofNat 2 note, vec := vec, base := base, dom := dom,
                  phy := phy }
  match (s.setEq q e).eqAddr q base .write with
  | (.walking, s) => (none, s.setEq q {})
  | (.fault, s) => (some cOk, s)
  | (.ok p x, s) => (some cOk, if s.canWrite p then (s.putOut p x (leBytes 4 0)).spend (.eq q) dom base else s.eqError q 3)

/-- A poster gives up its record. -/
def State.dropHeld (s : State) : Poster → State
  | .chan c => s.modChan c fun h => { h with held := [] }
  | .cmp k => s.modCmp k fun u => { u with pend := none }
  | .cmpOor k => s.modCmp k fun u => { u with oorPend := none }
  | .cap j => s.modCap j fun u => { u with pend := none }

/-- The channel a waiting record goes through (R296). -/
def State.posterChan (s : State) : Poster → Nat
  | .chan c => c
  | .cmp k => (s.cmp k).pend.elim 0 CmpRec.chan
  | .cmpOor k => (s.cmp k).oorPend.elim 0 CmpRec.chan
  | .cap j => (s.cap j).pend.elim 0 CapPend.chan

/-- R296: the records held for channel `c` move to its new queue, in order. -/
def State.moveHeld (s : State) (old new c : Nat) : State :=
  let e := s.eq old
  let go := e.waiters.filter fun p => s.posterChan p = c
  let s := s.setEq old { e with waiters := e.waiters.filter fun p => s.posterChan p ≠ c }
  s.modEq new fun e => { e with waiters := e.waiters ++ go, waitNew := 0 }

/-- The queue a field of BIND leaves the channel with. -/
def bindAfter (f : BindField) (old : Option Nat) : Option Nat :=
  match f with
  | .keep => old
  | .unbind => none
  | .set q => some q

/-- R287, R288, R267, R296: BIND. A field set to what it is already changes nothing (log 21). -/
def State.bind (s : State) (c : Nat) (wq eq : BindField) (dom : Option (Fin 256)) : Nat × State :=
  let h := s.chan c
  let w' := bindAfter wq h.wq
  let e' := bindAfter eq h.eq
  let newW := match wq with | .set q => [s.wq q] | _ => []
  let newE := match eq with | .set q => [s.eq q] | _ => []
  let recover := e' ≠ h.eq && (match h.eq, e' with | some o, some _ => (s.eq o).st = .error | _, _ => false)
  let domNew := match dom with | some d => d.val ≠ h.domain || !h.domSet | none => false
  if newW.any (·.st = .absent) || newE.any (·.st = .absent) then (cNoObject, s)
  else if newW.any (·.st = .error) || newE.any (·.st = .error) then (cQueueError, s)
  else if !h.st.ended && ((e' ≠ h.eq && !recover) || domNew) then (cWrongState, s)
  else
    let s := s.setChan c { h with wq := w', eq := e', domain := dom.elim h.domain (·.val), domSet := h.domSet || dom.isSome }
    (cOk, match recover, h.eq, e' with
      | true, some o, some n => s.moveHeld o n c
      | _, _, _ => s)

/-- R287, R288: judge and perform an admin command. None while it waits for a walk. -/
def State.admin (s : State) (a : Admin) : Option Nat × State :=
  if a.invalid then (some cInvalid, s)
  else match a with
    | .createWq q phy base size dom owner =>
      if (s.wq q).st ≠ .absent then (some cNoObject, s)
      else
        let s' := s.createWq q phy base size dom owner
        if (s'.wq q).ciOwed then (none, s'.setWq q (s.wq q)) else (some cOk, s')
    | .destroyWq q =>
      (match (s.wq q).st with
       | .absent => (some cNoObject, s)
       | .disabling => (some cBusy, s)
       | .enabled => (some cWrongState, s)
       | .disabled | .error => (some cOk, s.dropWq q))
    | .enableWq q =>
      (match (s.wq q).st with
       | .absent => (some cNoObject, s)
       | .disabling => (some cBusy, s)
       | .error => (some cQueueError, s)
       | .enabled => (some cOk, s)
       | .disabled => (some cOk, s.modWq q fun w => { w.ring with st := .enabled, finalPi := none }))
    | .disableWq q =>
      (match (s.wq q).st with
       | .absent => (some cNoObject, s)
       | .disabling => (some cBusy, s)
       | .error => (some cQueueError, s)
       | .disabled => (some cOk, s)
       | .enabled => (some cOk, s.modWq q fun w => w.disable false))
    | .createEq q phy base size dom note vec =>
      if (s.eq q).st ≠ .absent then (some cNoObject, s) else s.createEq q phy base size dom note vec
    | .destroyEq q =>
      if (s.eq q).st = .absent then (some cNoObject, s)
      else if s.chans.any fun p => p.2.eq = some q then (some cWrongState, s)
      else (some cOk, (((((s.eq q).writing ++ (s.eq q).waiters).foldl State.dropHeld s).forget (.eq q)).setEq q {}))
    | .bind c wq eq dom => let (v, s) := s.bind c wq eq dom; (some v, s)
    | .setPrio c cls => (some cOk, s.modChan c fun h => { h with prio := cls })

def onAdmin (t : Time) (a : Admin) (s : State) : Res := engineEvent t s fun s => State.note (s.admin a)

def execCreateWq (t : Time) (q : Fin 1024) (phy : Bool) (base size : Nat) (dom : Fin 256) (owner : Ident) (s : State) : Res :=
  onAdmin t (.createWq q phy base size dom owner) s
def execDestroyWq (t : Time) (q : Fin 1024) (s : State) : Res := onAdmin t (.destroyWq q) s
def execEnableWq (t : Time) (q : Fin 1024) (s : State) : Res := onAdmin t (.enableWq q) s
def execDisableWq (t : Time) (q : Fin 1024) (s : State) : Res := onAdmin t (.disableWq q) s
def execCreateEq (t : Time) (q : Fin 1024) (phy : Bool) (base size : Nat) (dom : Fin 256) (note : BitVec 2) (vec : Nat) (s : State) : Res :=
  onAdmin t (.createEq q phy base size dom note.toNat vec) s
def execDestroyEq (t : Time) (q : Fin 1024) (s : State) : Res := onAdmin t (.destroyEq q) s
def execBind (t : Time) (c : Fin 4096) (wq eq : BindField) (dom : Option (Fin 256)) (s : State) : Res := onAdmin t (.bind c wq eq dom) s
def execSetPrio (t : Time) (c : Fin 4096) (cls : BitVec 2) (s : State) : Res := onAdmin t (.setPrio c cls) s

/-- R294: the queue has served every entry below the final PI. -/
def State.disableDone (s : State) (q : Nat) : State :=
  let w := s.wq q
  if w.st = .disabling && w.finalPi = some w.ci then
    s.setWq q (if w.toAbsent then w.gone else { w.dropCopies with st := .disabled, finalPi := none })
  else s

def execDisableComplete (t : Time) (q : Fin 1024) (s : State) : Res := engineEvent t s fun s => s.disableDone q

/-! ## ADMIN_CFG (R285, R299) -/

def queueOfs : Nat := 0x80000

/-- R299: the word as stored: reserved bits 0, SIZE_LOG2 within 2 to 16. -/
def adminClamp (v : Word) : Word := setFld (v &&& 0x00FFFF7F) 2 5 (clampN 2 16 (fld v 2 5))

def State.adminCfg (s : State) (v : Word) : State :=
  let v := adminClamp v
  let q := s.queues
  let w := s.wq 0
  let base := q.baseHi.toNat * 2 ^ 32 + q.baseLo.toNat
  let reject := s.setWq 0 { w with cfgRej := true }
  let store (s : State) : State := { s with queues := { s.queues with cfg := v } }
  if w.st ≠ .absent && ((v ^^^ q.cfg) >>> 1 ≠ 0 || (bit v 0 && w.st = .disabling)) then reject
  else if bit v 0 && bit v 1 && w.st = .absent && decide (sramSize < base + 0x80 + 64 * 2 ^ fld v 2 5) then reject
  else if bit v 0 then
    if w.st = .absent then (store s).createWq 0 (bit v 1) base (fld v 2 5) (fld v 8 8) (BitVec.ofNat 8 (fld v 16 8)) else store s
  else match w.st with
    | .error => (store s).dropWq 0
    | .enabled => (store s).modWq 0 fun w => w.disable true
    | _ => store s

def execAdminCfgWrite (t : Time) (_m : Ident) (v : Word) (s : State) : Res :=
  regWrite t (queueOfs + 8) s fun s => s.adminCfg v

/-! ## Serving an entry (R268 to R272, R278) -/

/-- The bytes of `b` from `o`, `n` of them, are all 0. -/
def zeros (b : List Byte) (o n : Nat) : Bool := num b o n = 0

/-- R268: a channel request's entry; none where a field it may not carry is set. -/
def entryRequest (e : List Byte) : Option Request :=
  let req := num e 0 1
  let phy := num e 1 1 = 1
  let a := num e 8 8
  let ok := num e 1 1 < 2 && num e 2 2 < 4096 && decide (a < 2 ^ 48) && zeros e 18 6 && zeros e 32 32
    && (if req = 6 then num e 16 1 < 8 && num e 17 1 < 2 else zeros e 16 2) && ((req = 1 || 6 ≤ req) || a = 0)
  if !ok then none
  else match req with
    | 1 => some (.start phy a)
    | 2 => some .halt
    | 3 => some .suspend
    | 4 => some .resume
    | 5 => some .clear
    | 6 => some (.modify phy a (BitVec.ofNat 3 (num e 16 1)) (num e 17 1 = 1))
    | 7 => some (.store phy a)
    | _ => none

/-- R286: a queue field of BIND: the queue in [9:0], NONE in [14], SET in [15]; none where bits [13:10] are not 0 (log 21). -/
def bindField (f : Nat) : Option BindField :=
  if f / 1024 % 16 ≠ 0 then none
  else if f / 2 ^ 15 % 2 = 0 then some .keep
  else if f / 2 ^ 14 % 2 = 1 then some .unbind
  else some (.set ⟨f % 1024, Nat.mod_lt _ (by decide)⟩)

/-- R286: the bytes that are 0 in every entry of the command: 8 to 15 without BASE, and the rest of 16 to 23. -/
def adminZeros (req : Nat) (e : List Byte) : Bool :=
  let base := req = 0x20 || req = 0x24
  zeros e 32 32 && (if base then num e 1 1 < 2 else num e 1 1 = 0 && zeros e 8 8) &&
  match req with
  | 0x20 => zeros e 19 5
  | 0x24 => zeros e 19 1 && zeros e 22 2
  | 0x26 => zeros e 22 2
  | 0x27 => zeros e 17 7
  | _ => zeros e 16 8

/-- R286: an admin entry; none where a reserved field is not 0. -/
def entryAdmin (e : List Byte) : Option Admin :=
  let req := num e 0 1
  let n := num e 2 2
  let phy := num e 1 1 = 1
  if !adminZeros req e then none
  else match req with
    | 0x20 => some (.createWq n phy (num e 8 8) (num e 16 1) (num e 17 1) (e.getD 18 0))
    | 0x21 => some (.destroyWq n)
    | 0x22 => some (.enableWq n)
    | 0x23 => some (.disableWq n)
    | 0x24 => some (.createEq n phy (num e 8 8) (num e 16 1) (num e 17 1) (num e 18 1) (num e 20 2))
    | 0x25 => some (.destroyEq n)
    | 0x26 =>
      (match bindField (num e 16 2), bindField (num e 18 2), num e 21 1 with
       | some w, some q, 0 => some (.bind n w q none)
       | some w, some q, 1 => some (.bind n w q (some ⟨num e 20 1 % 256, Nat.mod_lt _ (by decide)⟩))
       | _, _, _ => none)
    | 0x27 => if num e 16 1 < 4 then some (.setPrio n (BitVec.ofNat 2 (num e 16 1))) else none
    | _ => none

/-- R268, R286: perform the entry of work queue `q`: the status, and for a channel request the channel's state. -/
def State.perform (s : State) (q : Nat) (e : List Byte) : Option (Nat × Nat) × State :=
  let req := num e 0 1
  let c := num e 2 2 % 4096
  let chan := 1 ≤ req && req ≤ 7
  let done (p : Option Nat × State) : Option (Nat × Nat) × State :=
    (p.1.map fun v => (v, if chan then (p.2.chan c).st.code else 0), State.note p)
  if chan then
    match entryRequest e with
    | some r => done (s.request_ q c r)
    | none => done (some cInvalid, s)
  else if q = 0 then
    match entryAdmin e with
    | some a => done (s.admin a)
    | none => done (some cInvalid, s)
  else done (some cInvalid, s)

/-- R272: the completion. -/
def completion (e : List Byte) (index : Word) (status state : Nat) : List Byte :=
  [BitVec.ofNat 8 (num e 0 1 % 128 + 128), 0] ++ slice e 2 2 ++ leBytes 4 index.toNat ++ leBytes 2 status
    ++ [BitVec.ofNat 8 state] ++ List.replicate 13 0 ++ slice e 24 8 ++ List.replicate 32 0

/-- R278: the oldest copy that can be used in cycle `now` is compared with index `ci`: it is the entry, or it is discarded. -/
def WQ.takeCopy (w : WQ) (now : Nat) : Option (List Byte) × WQ :=
  match w.copies with
  | [] => (none, w)
  | (k, b) :: r =>
    if now ≤ k then (none, w)
    else if num b 4 4 = w.ci.toNat then (some b, { w with copies := r, used := w.used + 1 })
    else (none, { w with copies := r, missed := w.missed + 1 })

/-- The slot of the entry at CI. -/
def WQ.slot (w : WQ) : Nat := w.base + 0x80 + w.ci.toNat % w.slots * 64

/-- R270 step 1: the entry is taken: from a copy, or from its slot. -/
def State.entryTake (s : State) (q : Nat) (m : HostMem) : State :=
  let w := s.wq q
  let (copy, w') := if w.compared then (none, w) else w.takeCopy (cyc s.now)
  match copy with
  | some e => s.setWq q { w' with entry := some e }
  | none =>
    match (s.setWq q { w' with compared := true }).wqRead q w.slot 64 m with
    | (.bytes e, s) => s.modWq q fun x => { x with entry := some e }
    | (_, s) => s

/-- R270 step 2: the entry is performed, and its completion is owed; a request that waits for a walk leaves the entry as it is. -/
def State.entryPerform (s : State) (q : Nat) (e : List Byte) : State :=
  let i := (s.wq q).ci
  match s.perform q e with
  | (none, s) => s
  | (some (status, state), s) => s.modWq q fun w => { w with entry := none, owed := some (completion e i status state) }

/-- R270 step 3: the completion is written over the slot. -/
def State.entryComplete (s : State) (q : Nat) : State :=
  let w := s.wq q
  match w.owed with
  | none => s
  | some b => match s.wqWrite q w.slot b with
    | (true, s) => s.modWq q fun x => { x with owed := none, ciNext := true }
    | (false, s) => s

/-- R270 step 4: CI is written. -/
def State.entryEnd (s : State) (q : Nat) : State :=
  let w := s.wq q
  if !w.ciNext then s
  else match s.wqWrite q (w.base + 0x40) (leBytes 4 (w.ci + 1).toNat) with
    | (true, s) => s.modWq q fun x => { x with ci := w.ci + 1, ciNext := false, compared := false }
    | (false, s) => s

/-- R264, R270: work queue `q` may serve an entry. -/
def WQ.serves (w : WQ) : Bool := (w.st = .enabled || w.st = .disabling) && w.ci ≠ w.pi && !w.ciOwed

/-- R270: work queue `q` serves its next entry, or goes on with it as far as the pages it needs have been walked. -/
def State.entryServe (s : State) (q : Nat) (m : HostMem) : State :=
  let s := s.wqInit q
  let w := s.wq q
  if !w.serves then s
  else
    let s := if w.entry.isSome || w.owed.isSome || w.ciNext then s else s.entryTake q m
    let s := match (s.wq q).entry with | some e => s.entryPerform q e | none => s
    (s.entryComplete q).entryEnd q

def execEntryServe (t : Time) (q : Fin 1024) (h : HostMem) (s : State) : Res := engineEvent t s fun s => s.entryServe q h

/-! ## Event queue doorbells (R264, R265, R282) -/

/-- R264, R275: a doorbell of event queue `q`, from any identity; ARM of coalesced doorbells is their OR. -/
def EQ.doorbell (e : EQ) (arm : Bool) : EQ :=
  if e.st ≠ .enabled then e
  else match e.ciRead with
    | none => { e with ciRead := some arm }
    | some _ => { e with ciAgain := some ((e.ciAgain.getD false) || arm) }

def execEqDoorbell (t : Time) (_m : Ident) (q : Fin 1024) (arm : Bool) (s : State) : Res :=
  barWrite t s fun s => s.modEq q fun e => e.doorbell arm

/-- R265: the consumer passed the producer, or moved backward. -/
def ciLap (pi old c : Word) : Bool := decide (occupied pi old < occupied c old)

/-- R265, R282: the CI read is accepted: credits return, and ARM notifies at once or arms. -/
def State.takeCi (s : State) (q : Nat) (c : Word) (arm : Bool) : State :=
  let e := s.eq q
  let s := s.setEq q { e with ciRead := e.ciAgain, ciAgain := none }
  if ciLap e.pi e.ci c then s.eqError q 1
  else
    let s := s.modEq q fun x => { x with ci := c, armed := if arm then decide (e.pi = c) else x.armed }
    if arm && e.pi ≠ c then s.notifyQ e.notify.toNat e.vec 384 128 q else s

def State.ciRead (s : State) (q : Nat) (m : HostMem) : State :=
  let e := s.eq q
  match e.ciRead with
  | none => s
  | some arm =>
    if e.st ≠ .enabled then s
    else match s.eqRead q (e.base + 0x40) 4 m with
      | (.bytes b, s) => s.takeCi q (BitVec.ofNat 32 (num b 0 4)) arm
      | (_, s) => s

def execEqCiReadComplete (t : Time) (q : Fin 1024) (h : HostMem) (s : State) : Res := engineEvent t s fun s => s.ciRead q h

/-! ## Records that wait (R92, R251, R281) -/

/-- The bytes of the record a poster holds; the final record of a drain is formed now (R243 step 7). -/
def State.heldBytes (s : State) : Poster → Option (List Byte)
  | .chan c =>
    let h := s.chan c
    (match h.held with
     | [] => none
     | r :: _ => some (if r.bytes.isEmpty then
         h.recFinal c (if h.clearing then ChanState.idle else ChanState.halted).code h.tagDue s.now else r.bytes))
  | .cmp k => (s.cmp k).pend.map fun r => r.bytes k false
  | .cmpOor k => (s.cmp k).oorPend.map fun r => r.bytes k true
  | .cap j => (s.cap j).pend.map fun r => r.bytes j

/-- The poster's record has been posted. Answers whether the poster holds another. -/
def State.posted (s : State) : Poster → Bool × State
  | .chan c =>
    let s := s.modChan c fun h => { h with recs := h.recs + 1, held := h.held.drop 1 }
    (!(s.chan c).held.isEmpty, s)
  | p => (false, s.dropHeld p)

/-- R281: the first poster that waits is admitted, where the queue admits one. -/
def State.heldAdmit (s : State) (q : Nat) : State :=
  match (s.eq q).waiters with
  | [] => s
  | p :: r =>
    if s.eqAdmits q then (s.eqReserve q).modEq q fun e => { e with waiters := r, writing := e.writing ++ [p] } else s

/-- R280: the record of the first poster that has its credit is written; a channel whose last record it was goes on (R251). -/
def State.heldWrite (s : State) (q : Nat) : State :=
  match (s.eq q).writing with
  | [] => s
  | p :: _ =>
    let pop (s : State) : State := s.modEq q fun e => { e with writing := e.writing.drop 1 }
    match s.heldBytes p with
    | none => (pop s).modEq q fun e => { e with res := e.res - 1 }
    | some b =>
      match s.eqCommit q b with
      | (.done, s) =>
        (match (pop s).posted p with
         | (true, s) => s.modEq q fun e => { e with waiters := p :: e.waiters }
         | (false, s) => match p with
           | .chan c => s.settle c
           | _ => s)
      | (_, s) => s

/-- R251, R280, R281: event queue `q` admits a poster that waits, and writes a record. -/
def State.heldPost (s : State) (q : Nat) : State := (s.heldAdmit q).heldWrite q

def execHeldRecordPost (t : Time) (q : Fin 1024) (s : State) : Res := engineEvent t s fun s => s.heldPost q

/-! ## Registers (R300, R301) -/

def wqOfs (q : Nat) : Nat := 0x81000 + q * 0x10
def eqOfs (q : Nat) : Nat := 0x88000 + q * 0x10

def QState.code : QState → Nat
  | .absent => 0 | .enabled => 1 | .disabling => 2 | .disabled => 3 | .error => 4

/-- WQ_STATUS. -/
def WQ.status (w : WQ) : Word :=
  wAt 0 w.st.code ||| flag 3 (w.st = .disabled) ||| wAt 4 w.cause.toNat ||| flag 6 w.foreign ||| flag 7 w.cfgRej
    ||| wAt 8 w.copies.length ||| wAt 12 w.owner.toNat ||| wAt 20 w.size

/-- EQ_STATUS. -/
def EQ.status (e : EQ) : Word :=
  wAt 0 e.st.code ||| flag 3 e.armed ||| wAt 4 e.cause.toNat ||| flag 7 (e.st ≠ .absent && !e.credit)
    ||| wAt 8 e.waiters.length ||| wAt 21 e.size ||| wAt 26 e.notify.toNat

def State.readWqPi (s : State) (m : Ident) (q : Nat) : Word × State :=
  ((s.wq q).pi, s.latch m (wqOfs q + 8) (s.wq q).ci)

def execWqPiRead (t : Time) (m : Ident) (q : Fin 1024) (s : State) : Res :=
  regRead t (wqOfs q + 4) s fun s => s.readWqPi m q

def State.readEqRes (s : State) (m : Ident) (q : Nat) : Word × State :=
  ((s.eq q).res, s.latchAll m [(eqOfs q + 8, (s.eq q).pi), (eqOfs q + 0xC, (s.eq q).ci)])

def execEqResRead (t : Time) (m : Ident) (q : Fin 1024) (s : State) : Res :=
  regRead t (eqOfs q + 4) s fun s => s.readEqRes m q

end Sys2Proof.Machine
end

