-- ==== Sys2Proof/Machine/Translate.lean ====
section
/-! DEFINITION. Address translation (09_translation.md): the walk, invalidation, domains, fault queues, and a core's host windows. -/

namespace Sys2Proof.Machine

/-! ## The walk (R305 to R309) -/

/-- R305: the address of the entry that a walk reads next. -/
def Walk.entryAt (w : Walk) : Nat := w.table + w.va / 2 ^ (12 + 9 * w.level) % 512 * 8

/-- R306, R307: the cause for which an entry read at a level ends the walk. -/
def entryFault (e : BitVec 64) (level : Nat) : Option Nat :=
  let leaf := entLeaf e
  if !entV e then some 1
  else if (e >>> 6) % 64 ≠ 0 || (e >>> 62) ≠ 0 || (leaf && decide (2 ≤ level)) || (!leaf && level = 0)
      || (!leaf && (e >>> 2) % 8 ≠ 0) || (leaf && level = 1 && entOA e % 0x200000 ≠ 0) then some 5
  else if entPhy e && decide (sramSize < entOA e + (if leaf && level = 1 then 0x200000 else 4096)) then some 8
  else none

/-- R309: a leaf is cached as the most recently used. -/
def State.cacheLeaf (s : State) (l : Leaf) : State :=
  { s with xl := { s.xl with cache := (l :: s.xl.cache.erase l).take 8192 } }

/-- R209: the mover that runs a burst of channel `c`. -/
def State.moverOf (s : State) (c : Nat) : Option Nat :=
  (s.movers.run.find? fun p => match p.2 with | some b => b.chan = c && !(b.held && b.len = 0) | none => false).map (·.1)

/-- The access that asked for the walk goes on; a fetch, a queue access, a core access or a snapshot takes the answer at its own
event (log 20). -/
def State.answered (s : State) : Who → State
  | .chan c =>
    (match s.moverOf c with
     | some mv => s.pumpBurst mv
     | none => let h := s.chan c
               if h.st = .active && h.act = .move then s.pump c else s)
  | .stage c =>
    let s := s.stagePump c
    (match s.moverOf c with
     | some mv => s.pumpBurst mv
     | none => s)
  | .wq q => s.wqInit q
  | _ => s

def Scope.leaf (z : Scope) (l : Leaf) : Bool := z.covers l.dom (l.page * l.size) l.size

/-- R312: an invalidation in progress covers leaf `l`. -/
def State.invLeaf (s : State) (l : Leaf) : Bool :=
  (s.dom l.dom).invBusy || (match s.xl.inv with | some z => z.leaf l | none => false)

/-- R312: a burst of channel `c` goes on with a translation that an invalidation in progress covers, which waits for it. -/
def State.burstOld (s : State) : Who → State
  | .chan c => { s with movers := { s.movers with run := s.movers.run.map fun (p : Nat × Option Burst) =>
      (p.1, p.2.map fun (b : Burst) => if b.chan = c then { b with old := true } else b) } }
  | _ => s

/-- R309, R335: the walk ends. Its leaf is cached, unless an invalidation that covers it began while it walked; the access that asked for
it, where it still stands, has its answer. -/
def State.walkEnd (s : State) (w : Walk) (r : Leaf ⊕ (Nat × Nat × BitVec 64)) : State :=
  let s := s.setWalks (s.xl.walks.erase w)
  let stale := w.old && (match r with | .inl l => s.invLeaf l | .inr _ => true)
  let s := match r with
    | .inl l => if stale then s else s.cacheLeaf l
    | .inr _ => s
  if w.gone then s
  else
    let a : Answer := { who := w.who, dom := w.dom, page := w.va / 4096, res := r, old := stale, acc := w.acc }
    let s := ({ s with xl := { s.xl with answers := s.xl.answers ++ [a] } }).answered w.who
    if stale then s.burstOld w.who else s

/-- R306 to R309: the entry has been read. -/
def State.walkEntry (s : State) (w : Walk) (e : BitVec 64) : State :=
  match entryFault e w.level with
  | some cause => s.walkEnd w (.inr (cause, w.level, e))
  | none =>
    if entLeaf e then
      let big := w.level = 1
      s.walkEnd w (.inl { dom := w.dom, page := w.va / (if big then 0x200000 else 0x1000), big := big, entry := e })
    else
      let w' := { w with level := w.level - 1, table := entOA e, tabPhy := entPhy e, tries := 0 }
      { s with xl := { s.xl with walks := s.xl.walks.map fun x => if x = w then w' else x } }

/-- R304, R307, R335: the table read of walk number `n` returns. -/
def State.tableRead (s : State) (n : Nat) (m : HostMem) : State :=
  match s.xl.walks[n]? with
  | none => s
  | some w =>
    if !w.begun then s
    else if !(s.dom w.dom).en then s.walkEnd w (.inr (7, 0, 0))
    else if w.tabPhy then
      if s.beatLocked none w.entryAt 8 then s
      else match s.ringSram w.entryAt 8 with
      | (some b, s) => s.walkEntry w (BitVec.ofNat 64 (leNat b))
      | (none, s) => s.walkEnd w (.inr (6, w.level, 0))
    else match s.hostTry w.tries m with
      | .bytes b => s.walkEntry w (BitVec.ofNat 64 (num b 0 8))
      | .again => { s with xl := { s.xl with walks := s.xl.walks.map fun x => if x = w then { w with tries := w.tries + 1 } else x } }
      | _ => s.walkEnd w (.inr (6, w.level, 0))

def execTableReadComplete (t : Time) (w : Nat) (h : HostMem) (s : State) : Res := engineEvent t s fun s => s.tableRead w h

/-! ## Invalidation (R311 to R313, R335) -/

/-- The 2 MiB region of a walk, whose page size is not known yet. -/
def Scope.walk (z : Scope) (w : Walk) : Bool := z.covers w.dom (w.va / 0x200000 * 0x200000) 0x200000

/-- A burst has taken translations in the scope. -/
def Scope.burst (z : Scope) (d : Nat) (b : Burst) : Bool :=
  (b.rd ++ b.wr.toList).any fun x => !x.phy && x.segs.any fun g =>
    let n := if g.big then 0x200000 else 0x1000
    z.covers d ((x.addr + g.ofs) / n * n) n

/-- R312, R313: what an invalidation begins for channel `c`: a burst it only asks for is translated again, and so is an uncommitted
command; a committed one holds the invalidation up. -/
def State.invChan (s : State) (z : Scope) (c : Nat) : State :=
  let h := s.chan c
  let s := if h.leafs.any z.leaf then
      let s := s.setChan c { h with leafs := h.leafs.filter fun l => !z.leaf l }
      if h.act = .req && !s.bursting c then s.pump c else s
    else s
  let h := s.chan c
  match h.timed with
  | none => s
  | some d =>
    if d.committed.isSome then
      if d.pages.any z.leaf then s.setChan c { h with timed := some { d with old := true } } else s
    else (s.setChan c { h with timed := some { d with pages := d.pages.filter fun l => !z.leaf l } }).stagePump c

/-- R312, R313: what an invalidation does at its start: the cache holds nothing in the scope any more, and what must end first is
marked. A staging walk of its scope is for nobody: the command walks that page again. -/
def State.invalidate (s : State) (z : Scope) : State :=
  let s := { s with xl := { s.xl with
    cache := s.xl.cache.filter (fun l => !z.leaf l),
    answers := s.xl.answers.filter (fun a => match a.res with | .inl l => !z.leaf l | .inr _ => true),
    walks := s.xl.walks.map (fun w =>
      if z.walk w && w.begun then { w with old := true, gone := w.gone || (w.who matches .stage _) } else w) } }
  let s := { s with movers := { s.movers with run := s.movers.run.map fun (p : Nat × Option Burst) => (p.1, p.2.map fun (b : Burst) =>
    if z.burst (s.chan b.chan).domain b then { b with old := true } else b) } }
  s.chanKeys.foldl (fun s c => s.invChan z c) s

/-- R312: nothing in the scope keeps the invalidation from completing. -/
def State.invDone (s : State) (z : Scope) : Bool :=
  !s.xl.walks.any (fun w => w.old && z.walk w)
  && !s.movers.run.any (fun p => match p.2 with | some b => b.old && z.burst (s.chan b.chan).domain b | none => false)
  && !s.chans.any (fun p => match p.2.timed with | some d => d.old && d.pages.any z.leaf | none => false)

/-- R312, R422: an invalidation of a scope has completed: what its old walks brought is of no use any more, SEQ advances, and source 679
is raised; a resumed burst that waited for it walks (R335). -/
def State.invOver (s : State) (z : Scope) : State :=
  let s := { s with xl := { s.xl with
    invSeq := s.xl.invSeq + 1,
    answers := s.xl.answers.filter fun a => !(a.old && z.covers a.dom (a.page * 4096) 4096) } }
  s.chanKeys.foldl (fun s c =>
    let h := s.chan c
    if h.act = .inval && !s.invCovers h.domain h.faultVa then s.pump c else s) (s.cicEdge 679)

/-- XL_INV_CTRL, the scope selected; none for the reserved encoding. -/
def State.invScope (s : State) : Option Scope :=
  let d := fld s.xl.invCtrl 8 8
  match fld s.xl.invCtrl 0 2 with
  | 0 => some .all
  | 1 => some (.dom d)
  | 2 => some (.range d (s.xl.invVaHi.toNat * 2 ^ 32 + s.xl.invVaLo.toNat) s.xl.invPages.toNat)
  | _ => none

/-- R311. -/
def State.invGo (s : State) (v : Word) : State :=
  if !bit v 0 then s
  else match s.xl.inv, s.invScope with
    | none, some z => ({ s with xl := { s.xl with inv := some z } }).invalidate z
    | _, _ => { s with xl := { s.xl with invRej := true } }

def xlOfs : Nat := 0x90000

def execXlInvGo (t : Time) (_m : Ident) (v : Word) (s : State) : Res := regWrite t (xlOfs + 0x20) s fun s => s.invGo v

/-- R304, R312: the invalidations whose conditions hold complete: the one that GO started, and those of domains switched off. -/
def State.invComplete (s : State) : State :=
  let s := match s.xl.inv with
    | some z => if s.invDone z then ({ s with xl := { s.xl with inv := none } }).invOver z else s
    | none => s
  (s.xl.doms.map (·.1)).foldl (fun s d =>
    let x := s.dom d
    if x.invBusy && s.invDone (.dom d) then (s.setDom d { x with invBusy := false }).invOver (.dom d) else s) s

def execInvalidationComplete (t : Time) (s : State) : Res := engineEvent t s State.invComplete

/-! ## Domains (R302 to R304) -/

def domOfs (d : Nat) : Nat := 0x91000 + d * 0x20

/-- R304: a write of DOM_CTRL. -/
def State.domCtrl (s : State) (d : Nat) (v : Word) : State :=
  let x := s.dom d
  let v := v &&& 7
  if (x.en && bit v 2 != x.rootPhy) || (bit v 0 && x.invBusy) then s.setDom d { x with cfgRej := true }
  else if x.en && !bit v 0 then (s.setDom d { x with ctrl := v, invBusy := true }).invalidate (.dom d)
  else s.setDom d { x with ctrl := v }

def execDomCtrlWrite (t : Time) (_m : Ident) (d : Fin 256) (v : Word) (s : State) : Res :=
  regWrite t (domOfs d) s fun s => s.domCtrl d v

/-! ## Fault queues (R324, R326) -/

def fqOfs (d : Nat) : Nat := 0x94000 + d * 0x20

/-- R264, R324: a doorbell. -/
def State.fqDoorbell (s : State) (d : Nat) (v : Word) : State :=
  s.modFq d fun q =>
    if q.st ≠ 1 then q
    else match q.ciRead with
      | none => { q with ciRead := some (bit v 0) }
      | some _ => { q with ciAgain := some ((q.ciAgain.getD false) || bit v 0) }

def execFqDb (t : Time) (_m : Ident) (d : Fin 256) (v : Word) (s : State) : Res :=
  regWrite t (fqOfs d + 0xC) s fun s => s.fqDoorbell d v

/-- R265, R282, R324: CI has been read. -/
def State.fqTakeCi (s : State) (d : Nat) (c : Word) (arm : Bool) : State :=
  let q := s.fq d
  let q := { q with ciRead := q.ciAgain, ciAgain := none, tries := 0 }
  if ciLap q.pi q.ci c then s.setFq d { q with st := 2 }
  else
    let s := s.setFq d { q with ci := c, armed := if arm then decide (q.pi = c) else q.armed }
    if arm && q.pi ≠ c then s.notifyQ q.note q.vec 512 32 d else s

/-- R326: a failed access puts the fault queue into ERROR. -/
def State.fqRead (s : State) (d : Nat) (m : HostMem) : State :=
  let q := s.fq d
  match q.ciRead with
  | none => s
  | some arm =>
    if q.st ≠ 1 then s
    else if q.phy then
      if s.beatLocked none (q.ring + 0x40) 4 then s
      else match s.ringSram (q.ring + 0x40) 4 with
      | (some b, s) => s.fqTakeCi d (BitVec.ofNat 32 (leNat b)) arm
      | (none, s) => s.modFq d fun q => { q with st := 2, ciRead := none, ciAgain := none }
    else match s.hostTry q.tries m with
      | .bytes b => s.fqTakeCi d (BitVec.ofNat 32 (num b 0 4)) arm
      | .again => s.setFq d { q with tries := q.tries + 1 }
      | _ => s.setFq d { q with st := 2, ciRead := none, ciAgain := none, tries := 0 }

def execFqCiReadComplete (t : Time) (d : Fin 256) (h : HostMem) (s : State) : Res := engineEvent t s fun s => s.fqRead d h

/-- R338: the word as stored. -/
def fqClamp (v : Word) : Word := setFld (v &&& 0x07FF00FF) 2 4 (clampN 2 12 (fld v 2 4))

/-- R326, R338: a write of FQ_CFG. -/
def State.fqCfg (s : State) (d : Nat) (v : Word) : State :=
  let q := s.fq d
  let v := fqClamp v
  let n : FQ := { q with cfg := v }
  if fld v 6 2 = 3 || (q.en && (v ^^^ q.cfg) >>> 1 ≠ 0)
      || (!q.en && n.en && n.phy && decide (sramSize < n.base + 0x80 + 32 * n.size)) then
    s.setFq d { q with cfgRej := true }
  else if q.en && !n.en then s.setFq d { n with st := 0, armed := false, ciRead := none, ciAgain := none, tries := 0 }
  else if !q.en && n.en then
    let s := s.setFq d { n with st := if s.canWrite n.phy then 1 else 2, armed := true, pi := 0, ci := 0, ring := n.base }
    if s.canWrite n.phy then s.putOut n.phy n.base (leBytes 4 0) else s
  else s.setFq d n

def execFqCfgWrite (t : Time) (_m : Ident) (d : Fin 256) (v : Word) (s : State) : Res :=
  regWrite t (fqOfs d + 8) s fun s => s.fqCfg d v

/-! ## Registers (R336, R338, R339) -/

def State.parkCtrl (s : State) (v : Word) : State :=
  if bit v 0 then { s with xl := { s.xl with parkPeak := s.parkUsed } } else s

def execParkPeakClr (t : Time) (_m : Ident) (v : Word) (s : State) : Res := regWrite t (xlOfs + 0x34) s fun s => s.parkCtrl v

def State.readXlHit (s : State) (m : Ident) : Word × State :=
  (loW s.xl.hits.toNat, s.latch m (xlOfs + 4) (hiW s.xl.hits.toNat))

def execXlHitRead (t : Time) (m : Ident) (s : State) : Res := regRead t xlOfs s fun s => s.readXlHit m

def State.readFqPi (s : State) (m : Ident) (d : Nat) : Word × State :=
  ((s.fq d).pi, s.latch m (fqOfs d + 0x18) (s.fq d).ci)

def execFqPiRead (t : Time) (m : Ident) (d : Fin 256) (s : State) : Res :=
  regRead t (fqOfs d + 0x14) s fun s => s.readFqPi m d

/-- FQ_STATUS. -/
def FQ.status (q : FQ) : Word :=
  wAt 0 q.st.toNat ||| flag 2 q.armed ||| flag 3 (decide (q.size ≤ occupied q.pi q.ci)) ||| flag 4 q.cfgRej ||| wAt 16 q.drop.toNat

/-! ## Core windows (R334, R339) -/

def winOfs (k w : Nat) : Nat := 0x98000 + k * 0x80 + w * 0x10

/-- R334: a write to a window's register; one that would move an enabled window is ignored. -/
def CoreWin.write (x : CoreWin) (reg : CwReg) (v : Word) : CoreWin :=
  let n : CoreWin := match reg with
    | .ctrl => { x with ctrl := v &&& 0xFF01 }
    | .baseLo => { x with baseLo := v &&& 0xF0000000 }
    | .baseHi => { x with baseHi := v &&& 0xFFFF }
  if bit x.ctrl 0 && (fld n.ctrl 8 8 ≠ fld x.ctrl 8 8 || n.baseLo ≠ x.baseLo || n.baseHi ≠ x.baseHi) then { x with cfgRej := true } else n

def cwReg : CwReg → Nat | .ctrl => 0 | .baseLo => 4 | .baseHi => 8

def execCwCtrlWrite (t : Time) (_m : Ident) (k : Fin 4) (w : Fin 8) (reg : CwReg) (v : Word) (s : State) : Res :=
  regWrite t (winOfs k w + cwReg reg) s fun s => s.setWin (k * 8 + w) ((s.win (k * 8 + w)).write reg v)

end Sys2Proof.Machine
end

