-- ==== Sys2Proof/Machine/Cores.lean ====
section
/-! DEFINITION. The steward cores (R450 to R477): what their accesses reach, caches and their maintenance, atomics, watchdogs, core reset,
the timer, and the SRAM scrubber. The execution of RISC-V instructions is not part of the block: a core's accesses arrive as commands. -/

namespace Sys2Proof.Machine

/-! ## Where an access goes (R453) -/

inductive Region where
  | tcm (o : Nat)
  | cached (o : Nat)
  | uncached (o : Nat)
  | window (w o : Nat)
  | other
  deriving DecidableEq, Repr

/-- R453: the region of a core address, but for the register images, whose accesses are commands of their own. -/
def coreRegion (a : Nat) : Region :=
  if a < 0x20000 then .tcm a
  else if 0x40000000 ≤ a && a < 0x42000000 then .cached (a - 0x40000000)
  else if 0x50000000 ≤ a && a < 0x52000000 then .uncached (a - 0x50000000)
  else if 0x80000000 ≤ a then .window ((a - 0x80000000) / 2 ^ 28) (a % 2 ^ 28)
  else .other

/-- The core issues accesses. -/
def State.coreRuns (s : State) (k : Nat) : Bool := (s.core k).st = .run && !(s.core k).halted

/-- R470: an access raises a trap; a reservation does not outlive it. -/
def State.coreTrap (s : State) (k : Nat) (kind : TrapKind) (a : Nat) : State :=
  s.modCore k fun c => { c with trap := some (kind, a), resv := none }

/-- An access is performed; it returns `v` where it returns anything. -/
def State.coreDone (s : State) (k : Nat) (v : Option Nat) : State :=
  s.modCore k fun c => { c with trap := none, rd := match v with | some x => BitVec.ofNat 32 x | none => c.rd }

/-- The access fault of an access, its width, whether its address is misaligned, and what permission it needs. -/
def opFault : CoreOp → TrapKind
  | .fetch => .fetch | .load _ => .load | .store _ _ => .store
def opWidth : CoreOp → Nat
  | .fetch => 4 | .load w => w | .store w _ => w
def opMisaligned (a : Nat) : CoreOp → Bool
  | .fetch => a % 2 ≠ 0 | .load w => a % max 1 w ≠ 0 | .store w _ => a % max 1 w ≠ 0
def opAccess : CoreOp → Access
  | .fetch => .fetch | .load _ => .read | .store _ _ => .write

/-- The first byte an access reads or writes: a fetch takes the aligned word that holds its address (log 27). -/
def opAddr (a : Nat) : CoreOp → Nat
  | .fetch => a / 4 * 4 | _ => a

/-! ## PMP (R454) -/

/-- The range [lo, hi) that PMP entry `i` matches, in the modes TOR, NA4 and NAPOT of the privileged architecture. -/
def Core.pmpRange (c : Machine.Core) (i : Nat) : Nat × Nat :=
  let a := (tget 0 c.pmpAddr i).toNat
  match (tget 0 c.pmpCfg i).toNat / 8 % 4 with
  | 1 => ((if i = 0 then 0 else (tget 0 c.pmpAddr (i - 1)).toNat * 4), a * 4)
  | 2 => (a * 4, a * 4 + 4)
  | 3 =>
    let n := ((List.range 32).find? fun j => !a.testBit j).getD 32
    (a / 2 ^ n * 2 ^ n * 4, a / 2 ^ n * 2 ^ n * 4 + 2 ^ (n + 3))
  | _ => (0, 0)

/-- R454: the lowest matching entry decides; machine mode passes where it is not locked, and where none matches. -/
def Core.pmpOk (c : Machine.Core) (a n : Nat) (acc : Access) : Bool :=
  match (List.range 16).find? fun i => let (lo, hi) := c.pmpRange i; decide (a < hi) && decide (lo < a + n) with
  | none => c.machine
  | some i =>
    let (lo, hi) := c.pmpRange i
    let p := (tget 0 c.pmpCfg i)
    decide (lo ≤ a) && decide (a + n ≤ hi) &&
      ((c.machine && !p.getLsbD 7) || p.getLsbD (match acc with | .read => 0 | .write => 1 | .fetch => 2))

/-! ## TCM (R465) -/

def tcmKey (k o : Nat) : Nat := k * 2 ^ 17 + o

/-- R465: a read of TCM: an uncorrectable word fails, single-bit errors are corrected and counted. -/
def State.tcmRead (s : State) (k o n : Nat) : Option (List Byte) × State :=
  let ws := words64 (tcmKey k o) n
  if ws.any fun w => s.mem.tcmBad.contains w then (none, s)
  else
    let hit := ws.filter fun w => s.mem.tcmWeak.contains w
    let s := if hit.isEmpty then s
      else ({ s with mem := { s.mem with tcmWeak := s.mem.tcmWeak.filter fun w => !hit.contains w } }).modCore k fun c =>
        { c with eccT := min 1023 (c.eccT + hit.length) }
    (some ((List.range n).map fun i => tget 0 s.mem.tcm (tcmKey k o + i)), s)

/-- R463, R465: a write of TCM; a word stays uncorrectable until an aligned write replaces all of it, and the reads that merge the rest
correct as those of SRAM do. -/
def State.tcmWrite (s : State) (k o : Nat) (b : List Byte) : State :=
  let a := tcmKey k o
  { s with mem := { s.mem with
      tcm := putBytes s.mem.tcm a b, tcmBad := s.mem.tcmBad.filter (fun w => !wholeWord a b.length w),
      tcmWeak := s.mem.tcmWeak.filter (fun w => !(words64 a b.length).contains w) } }.modCore k fun c =>
    { c with eccT := min 1023 (c.eccT + (mergedWeak s.mem.tcmWeak a b.length).length) }

/-- R470, R528: a write of TCM by another master. -/
def State.tcmWriteOther (s : State) (k o : Nat) (b : List Byte) : State :=
  let s := s.tcmWrite k o b
  { s with cores := clearResv s.cores none (2 ^ 30 + tcmKey k o) b.length }

/-! ## Caches (R455, R456) -/

/-- R455: 32 KiB, 4 ways, 64-byte lines: 128 sets. -/
def cacheSets : Nat := 128
def lineOf (a : Nat) : Nat := a / 64

/-- The line is present. -/
def CacheLine.there (l : CacheLine) : Bool := !l.data.isEmpty

/-- A changed line goes to memory. One with a double-bit error is lost and reported (R456). -/
def State.writeBack (s : State) (k : Nat) (l : CacheLine) : State :=
  if !l.dirty then s
  else if l.bad then s.report (136 + k)
  else if l.phy then s.sramWriteBy (some k) l.addr l.data
  else if s.irq.link then s.emit (.hostWrite l.addr l.data)
  else s

def State.setLine (s : State) (k : Nat) (instr : Bool) (n : Nat) (l : CacheLine) : State :=
  s.modCore k fun c => if instr then { c with icache := tput {} c.icache n l } else { c with dcache := tput {} c.dcache n l }

def State.line (s : State) (k : Nat) (instr : Bool) (n : Nat) : CacheLine :=
  if instr then tget {} (s.core k).icache n else tget {} (s.core k).dcache n

/-- R455: line `n` is put into its set; where all four ways are taken, one goes (which one is FREE, log 2), written back if changed. -/
def State.fillLine (s : State) (k : Nat) (instr : Bool) (n : Nat) (l : CacheLine) : State :=
  let t := if instr then (s.core k).icache else (s.core k).dcache
  let set := (t.map (·.1)).filter fun j => j % cacheSets = n % cacheSets && j ≠ n
  if set.length < 4 then s.setLine k instr n l
  else
    let v := set.getD (Config.cacheVictim s.free % 4) 0
    (((s.draw).writeBack k (s.line k instr v)).setLine k instr v {}).setLine k instr n l

/-- A refill reads the 64 bytes of a line: from SRAM, or from host memory (R228). -/
def State.refill (s : State) (phy : Bool) (a : Nat) (h : HostMem) : Option (List Byte) × State :=
  if phy then s.sramRead a 64
  else match s.irq.link, h with
    | true, .data b => (some (slice b 0 64), s)
    | _, _ => (none, s)

/-- R456: line `n` of a cache, refilled where it is absent or where a clean line holds an uncorrectable error; none where the access
fails. -/
def State.cacheLine (s : State) (k : Nat) (instr : Bool) (n : Nat) (phy : Bool) (a : Nat) (h : HostMem) :
    Option CacheLine × State :=
  let l := s.line k instr n
  let fetch := fun (s : State) =>
    match s.refill phy a h with
    | (some b, s) => let l : CacheLine := { data := b, phy := phy, addr := a }; (some l, s.fillLine k instr n l)
    | (none, s) => (none, s.setLine k instr n {})
  if !l.there then fetch s
  else if l.bad && l.dirty then (none, (s.setLine k instr n {}).report (136 + k))
  else if l.bad then
    fetch (if instr then s.modCore k fun c => { c with eccI := min 1023 (c.eccI + 1) } else s)
  else if l.weak then
    let l := { l with weak := false }
    (some l, (s.setLine k instr n l).modCore k fun c => { c with eccD := min 1023 (c.eccD + 1) })
  else (some l, s)

/-- R469: a core's access waits while it would touch a locked beat. -/
def State.coreWaits (s : State) (a n : Nat) : Bool := s.beatLocked none a n

/-- R469: writing line `n` of the data cache back waits. -/
def State.backWaits (s : State) (k n : Nat) : Bool :=
  let l := s.line k false n
  l.dirty && l.phy && s.coreWaits l.addr 64

/-- R469: line `n` has to be refilled from `base`, and that, or making room for it in its set, waits. -/
def State.refillWaits (s : State) (k : Nat) (instr : Bool) (n : Nat) (phy : Bool) (base : Nat) : Bool :=
  let l := s.line k instr n
  let set := ((s.core k).dcache.map (·.1)).filter fun j => j % cacheSets = n % cacheSets && j ≠ n
  (!l.there || (l.bad && !l.dirty)) &&
    ((phy && s.coreWaits base 64) || (!instr && decide (4 ≤ set.length) && set.any (s.backWaits k)))

/-- R455: an access to a cached region, whose line lies at `base` (an SRAM offset, or a bus address). -/
def State.cachedAccess (s : State) (k a : Nat) (op : CoreOp) (phy : Bool) (base : Nat) (h : HostMem) : State :=
  let instr := op matches .fetch
  let x := opAddr a op
  match s.cacheLine k instr (lineOf a) phy base h with
  | (none, s) => s.coreTrap k (opFault op) a
  | (some l, s) =>
    match op with
    | .store w v =>
      (s.setLine k false (lineOf a) { l with data := splice l.data (x % 64) (leBytes w v.toNat), dirty := true }).coreDone k none
    | _ => s.coreDone k (some (num l.data (x % 64) (opWidth op)))

/-! ## Accesses to TCM and SRAM (R453, R462, R465) -/

def State.coreSram (s : State) (k a : Nat) (op : CoreOp) : State :=
  let n := opWidth op
  let x := opAddr a op
  if !s.coreRuns k then s
  else if opMisaligned a op then s.coreTrap k .misaligned a
  else if !(s.core k).pmpOk x n (opAccess op) then s.coreTrap k (opFault op) a
  else match coreRegion x with
    | .tcm o =>
      (match op with
       | .store w v => (s.tcmWrite k o (leBytes w v.toNat)).coreDone k none
       | _ => match s.tcmRead k o n with
         | (some b, s) => s.coreDone k (some (leNat b))
         | (none, s) => s.coreTrap k (opFault op) a)
    | .uncached o =>
      if s.coreWaits o n then s
      else (match op with
       | .store w v => (s.sramWriteBy (some k) o (leBytes w v.toNat)).coreDone k none
       | _ => match s.sramRead o n with
         | (some b, s) => s.coreDone k (some (leNat b))
         | (none, s) => s.coreTrap k (opFault op) a)
    | .cached o =>
      if s.refillWaits k (op matches .fetch) (lineOf x) true (o / 64 * 64) then s
      else s.cachedAccess k a op true (o / 64 * 64) .fail
    | _ => s.coreTrap k (opFault op) a

def execCoreSramAccess (t : Time) (k : Fin 4) (addr : Word) (op : CoreOp) (s : State) : Res :=
  engineEvent t s fun s => s.coreSram k addr.toNat op

/-! ## Host windows (R332, R333) -/

/-- R333: a translation fault of a core's access in domain `dom`: a precise access fault, CW_STATUS.FAULT, and a fault record. -/
def State.windowFault (s : State) (k w a dom va cause level : Nat) (entry : BitVec 64) (op : CoreOp) : State :=
  let s := s.setWin (k * 8 + w) { s.win (k * 8 + w) with fault := true }
  (s.faultRecord { va := va, cause := cause, acc := opAccess op, level := level, master := 0x10 + k, source := k * 8 + w,
                   kind := 5, dom := dom, entry := entry }).coreTrap k (opFault op) a

/-- R334: the access of core `k` at address `x` waits with the domain and the virtual address it was issued under, or no longer waits. -/
def State.coreWait (s : State) (k x : Nat) (acc : Access) (w : Option (Nat × Nat)) : State :=
  s.modCore k fun c =>
    let r := c.waits.filter fun p => !(p.1 == acc && p.2.1 == x)
    { c with waits := match w with | some (d, va) => (acc, x, d, va) :: r | none => r }

/-- R332, R334: the domain and the virtual address of an access through window `w` at offset `o`: as it was issued, where it waits. -/
def State.windowVa (s : State) (k x w o : Nat) (acc : Access) : Option (Nat × Nat) :=
  match (s.core k).waits.find? fun p => p.1 == acc && p.2.1 == x with
  | some p => some p.2.2
  | none =>
    let q := s.win (k * 8 + w)
    let va := q.baseHi.toNat * 2 ^ 32 + q.baseLo.toNat + o
    if bit q.ctrl 0 && va < 2 ^ 48 then some (fld q.ctrl 8 8, va) else none

/-- R332, R333: an access through a host window; it waits for a walk its translation needs. -/
def State.coreWindow (s : State) (k a : Nat) (op : CoreOp) (h : HostMem) : State :=
  let x := opAddr a op
  let acc := opAccess op
  if !s.coreRuns k then s
  else if opMisaligned a op then s.coreTrap k .misaligned a
  else if !(s.core k).pmpOk x (opWidth op) acc then s.coreTrap k (opFault op) a
  else match coreRegion x with
    | .window w o =>
      let q := s.win (k * 8 + w)
      (match s.windowVa k x w o acc with
       | none => s.windowFault k w a (fld q.ctrl 8 8) ((q.baseHi.toNat * 2 ^ 32 + q.baseLo.toNat + o) % 2 ^ 48) 9 0 0 op
       | some (d, va) =>
         match s.xlate (.core k w) d va acc with
         | (.miss, s) => s.coreWait k x acc (some (d, va))
         | (.fault cause level entry, s) =>
           ((s.coreWait k x acc none).spend (.core k w) d va).windowFault k w a d va cause level entry op
         | (.hit phy addr _, s) =>
           let base := addr / 64 * 64
           if s.refillWaits k (op matches .fetch) (lineOf x) phy base then s.coreWait k x acc (some (d, va))
           else ((s.coreWait k x acc none).spend (.core k w) d va).cachedAccess k a op phy base h)
    | _ => s.coreTrap k (opFault op) a

def execCoreWindowAccess (t : Time) (k : Fin 4) (addr : Word) (op : CoreOp) (h : HostMem) (s : State) : Res :=
  engineEvent t s fun s => s.coreWindow k addr.toNat op h

/-! ## Atomics (R450, R468 to R471) -/

/-- R450: the value an AMO writes. -/
def AmoOp.apply (op : AmoOp) (old v : Word) : Word :=
  match op with
  | .swap => v
  | .add => old + v
  | .xor => old ^^^ v
  | .and => old &&& v
  | .or => old ||| v
  | .min => if old.toInt ≤ v.toInt then old else v
  | .max => if old.toInt ≤ v.toInt then v else old
  | .minu => if old.toNat ≤ v.toNat then old else v
  | .maxu => if old.toNat ≤ v.toNat then v else old

/-- The beat of an atomic's address, with the SRAM offset (`some`) or TCM offset it has; none where atomics are refused. -/
def atomicAt (k a : Nat) : Option (Nat × Bool × Nat) :=
  match coreRegion a with
  | .tcm o => some (2 ^ 24 + tcmKey k o / 64, false, o)
  | .uncached o => some (o / 64, true, o)
  | _ => none

/-- R469: a locked sequence of a core commits. -/
def State.lockCommits (s : State) : State := { s with mem := { s.mem with locks := s.mem.locks + 1 } }

/-- R468, R471: an AMO; on the uncached alias it is a locked sequence, abandoned where its read fails. -/
def State.coreAmo (s : State) (k a : Nat) (op : AmoOp) (v : Word) : State :=
  if !s.coreRuns k then s
  else if a % 4 ≠ 0 then s.coreTrap k .misaligned a
  else if !(s.core k).pmpOk a 4 .read || !(s.core k).pmpOk a 4 .write then s.coreTrap k .store a
  else match atomicAt k a with
    | none => s.coreTrap k .store a
    | some (_, true, o) =>
      if s.coreWaits o 4 then s
      else (match s.sramRead o 4 with
        | (some b, s) =>
          ((s.sramWriteBy (some k) o (leBytes 4 (AmoOp.apply op (BitVec.ofNat 32 (leNat b)) v).toNat)).lockCommits).coreDone k (some (leNat b))
        | (none, s) =>
          ((({ s with mem := { s.mem with abandons := s.mem.abandons + 1 } }).modCore k fun c =>
            { c with lockAbandoned := true }).report (144 + k)).coreTrap k .store a)
    | some (_, false, o) =>
      (match s.tcmRead k o 4 with
        | (some b, s) => (s.tcmWrite k o (leBytes 4 (AmoOp.apply op (BitVec.ofNat 32 (leNat b)) v).toNat)).coreDone k (some (leNat b))
        | (none, s) => s.coreTrap k .store a)

def execCoreAmo (t : Time) (k : Fin 4) (addr : Word) (op : AmoOp) (v : Word) (s : State) : Res :=
  engineEvent t s fun s => s.coreAmo k addr.toNat op v

/-- R470: LR.W. -/
def State.coreLr (s : State) (k a : Nat) : State :=
  if !s.coreRuns k then s
  else if a % 4 ≠ 0 then s.coreTrap k .misaligned a
  else if !(s.core k).pmpOk a 4 .read then s.coreTrap k .load a
  else match atomicAt k a with
    | none => s.coreTrap k .load a
    | some (beat, sram, o) =>
      if sram && s.coreWaits o 4 then s
      else match (if sram then s.sramRead o 4 else s.tcmRead k o 4) with
        | (some b, s) => (s.coreDone k (some (leNat b))).modCore k fun c => { c with resv := some (beat, s.now) }
        | (none, s) => s.coreTrap k .load a

def execCoreLr (t : Time) (k : Fin 4) (addr : Word) (s : State) : Res := engineEvent t s fun s => s.coreLr k addr.toNat

/-- R470: the reservation of core `k` holds for a store to `beat`. -/
def State.resvHolds (s : State) (k beat : Nat) : Bool :=
  match (s.core k).resv with
  | some (b, t) => b = beat && decide (s.now ≤ t + ns 256)
  | none => false

/-- R470: SC.W: it returns 0 where it wrote, 1 where it did not, and clears the reservation. -/
def State.coreSc (s : State) (k a : Nat) (v : Word) : State :=
  if !s.coreRuns k then s
  else if a % 4 ≠ 0 then s.coreTrap k .misaligned a
  else if !(s.core k).pmpOk a 4 .write then s.coreTrap k .store a
  else match atomicAt k a with
    | none => s.coreTrap k .store a
    | some (beat, sram, o) =>
      if sram && s.coreWaits o 4 then s
      else
        let ok := s.resvHolds k beat
        let s := s.modCore k fun c => { c with resv := none }
        if !ok then s.coreDone k (some 1)
        else if sram then ((s.sramWriteBy (some k) o (leBytes 4 v.toNat)).lockCommits).coreDone k (some 0)
        else (s.tcmWrite k o (leBytes 4 v.toNat)).coreDone k (some 0)

def execCoreSc (t : Time) (k : Fin 4) (addr : Word) (v : Word) (s : State) : Res :=
  engineEvent t s fun s => s.coreSc k addr.toNat v

/-! ## Cache maintenance (R457) -/

def coreOfs (k : Nat) : Nat := 0x150000 + k * 0x100

/-- R457: the data lines `l` are cleaned, or discarded, or both. -/
def State.dataLines (s : State) (k : Nat) (l : List Nat) (clean discard : Bool) : State :=
  l.foldl (fun s n =>
    let x := s.line k false n
    if !x.there then s
    else
      let s := if clean then s.writeBack k x else s
      if discard || (clean && x.bad && x.dirty) then s.setLine k false n {}
      else s.setLine k false n { x with dirty := x.dirty && !clean }) s

def State.instrLines (s : State) (k : Nat) (l : List Nat) : State := l.foldl (fun s n => s.setLine k true n {}) s

/-- A line of a cached region. -/
def lineCached (n : Nat) : Bool :=
  (match coreRegion (n * 64) with | .cached _ => true | .window _ _ => true | _ => false) && decide (n < 2 ^ 26)

/-- R457: a CMO_OP write by core `k` itself. It retires only when it is complete (R458): while a line it cleans lies in a locked beat, it
waits (R469). -/
def State.cmo (s : State) (m : Ident) (k : Nat) (v : Word) : State :=
  let op := fld v 0 3
  let n0 := lineOf (s.core k).cmoAddr.toNat
  let cnt := fld v 16 9 + 1
  let rej := fun (s : State) => s.modCore k fun c => { c with cmoRej := true }
  let clean := fun (l : List Nat) (discard : Bool) => if l.any (s.backWaits k) then s else s.dataLines k l true discard
  if m ≠ coreId k then s
  else if op = 5 || op = 6 then clean ((s.core k).dcache.map (·.1)) (op = 6)
  else if op = 0 || op = 7 then rej s
  else if n0 + cnt ≤ 0x800 then s
  else
    let l := (List.range cnt).map (· + n0)
    if !l.all lineCached then rej s
    else if op = 4 then s.instrLines k l
    else if op = 2 then s.dataLines k l false true
    else clean l (op ≠ 1)

def cmoWrite (t : Time) (m : Ident) (k : Fin 4) (v : Word) (op : Nat) (s : State) : Res :=
  regWrite t (coreOfs k + 0x10) s fun s => s.cmo m k (setFld v 0 3 op)

def execCleanDataLines (t : Time) (m : Ident) (k : Fin 4) (v : Word) (s : State) : Res := cmoWrite t m k v 1 s
def execInvalidateDataLines (t : Time) (m : Ident) (k : Fin 4) (v : Word) (s : State) : Res := cmoWrite t m k v 2 s
def execCleanInvalidateDataLines (t : Time) (m : Ident) (k : Fin 4) (v : Word) (s : State) : Res := cmoWrite t m k v 3 s
def execInvalidateInstructionLines (t : Time) (m : Ident) (k : Fin 4) (v : Word) (s : State) : Res := cmoWrite t m k v 4 s
def execCleanWholeDataCache (t : Time) (m : Ident) (k : Fin 4) (v : Word) (s : State) : Res := cmoWrite t m k v 5 s
def execCleanInvalidateWholeDataCache (t : Time) (m : Ident) (k : Fin 4) (v : Word) (s : State) : Res := cmoWrite t m k v 6 s

/-! ## Core reset (R473, R474) -/

/-- What walks bring for core `k` is for nobody. -/
def State.forgetCore (s : State) (k : Nat) : State := (List.range 8).foldl (fun s w => s.forget (.core k w)) s

/-- R474: what a core reset does; the core stands IN_RESET. -/
def State.coreInReset (s : State) (k : Nat) : State :=
  let c := s.core k
  let s := (s.forgetCore k).cicCoreReset k
  let s := (s.mbReset [coreId k]).wdPause k
  s.modCore k fun c' =>
    { c' with st := .inReset, dirtyLost := c.dirtyLost || c.dcache.any (fun p => p.2.dirty), dcache := [], icache := [],
              resv := none, trap := none, rd := 0, waits := [], pmpCfg := [], pmpAddr := [], machine := true, msip := false,
              cmpLo := 0xFFFFFFFF, cmpHi := 0xFFFFFFFF, mtip := false }

/-- R473: the core is released: it fetches from CORE_RESETVEC. -/
def State.coreGo (s : State) (k : Nat) : State :=
  (s.modCore k fun c => { c with st := .run, resetBit := false, pc := c.resetVec }).wdResume k

/-- R473: a write of CORE_CTRL. Only 0x01, 0x20 and other cores put a core into reset. -/
def State.coreCtrl (s : State) (m : Ident) (k : Nat) (v : Word) : State :=
  let c := s.core k
  if bit v 0 then
    if m = coreId k || !(m = 0x01 || m = 0x20 || m.toNat / 16 = 1) then s
    else if c.st = .run || c.st = .wfi then s.setCore k { c with resetBit := true, st := .resetting }
    else s
  else match c.st with
    | .inReset => s.coreGo k
    | .resetting => s.setCore k { c with busyRej := true }
    | _ => s

def execCoreReset (t : Time) (m : Ident) (k : Fin 4) (v : Word) (s : State) : Res :=
  regWrite t (coreOfs k) s fun s => s.coreCtrl m k (v ||| 1)

def execCoreRelease (t : Time) (m : Ident) (k : Fin 4) (v : Word) (s : State) : Res :=
  regWrite t (coreOfs k) s fun s => s.coreCtrl m k (v &&& ~~~1)

/-- R473: every access the core had issued has ended. -/
def execCoreInReset (t : Time) (k : Fin 4) (s : State) : Res :=
  engineEvent t s fun s => if (s.core k).st = .resetting then s.coreInReset k else s

/-! ## Watchdogs (R472) -/

def wdPeriod (w : Word) : Nat := us (fld w 8 24)

/-- The watchdog of core `k` pauses. -/
def State.wdPaused (s : State) (k : Nat) : Bool := s.coreHeld k || (s.core k).halted || s.resting

/-- R472: the watchdog is loaded with its registers as they stand. -/
def State.wdLoad (s : State) (k : Nat) : State :=
  let p := s.wdPaused k
  s.modCore k fun c =>
    { c with wdActive := c.wdCtrl, wdAt := if p then none else some (s.now + wdPeriod c.wdCtrl),
             wdLeft := if p then some (wdPeriod c.wdCtrl) else none }

/-- R472: WD_CTRL; EN stays 1, and a change while it is 1 takes effect at the next reload. -/
def State.wdCtrl (s : State) (k : Nat) (v : Word) : State :=
  let c := s.core k
  let was := bit c.wdCtrl 0
  let v := v &&& 0xFFFFFF03
  let v := if fld v 8 24 = 0 then setFld v 8 24 1 else v
  let s := s.setCore k { c with wdCtrl := if was then v ||| 1 else v }
  if !was && bit v 0 then s.wdLoad k else s

def execWdCtrlWrite (t : Time) (_m : Ident) (k : Fin 4) (v : Word) (s : State) : Res :=
  regWrite t (coreOfs k + 0x24) s fun s => s.wdCtrl k v

def State.wdKick (s : State) (m : Ident) (k : Nat) (v : Word) : State :=
  if m = coreId k && fld v 0 16 = 0x5A5A && bit (s.core k).wdCtrl 0 then s.wdLoad k else s

def execWdKick (t : Time) (m : Ident) (k : Fin 4) (v : Word) (s : State) : Res :=
  regWrite t (coreOfs k + 0x28) s fun s => s.wdKick m k v

/-- R472: expiry. -/
def State.wdExpire (s : State) (k : Nat) : State :=
  match (s.core k).wdAt with
  | some x =>
    if s.now < x then s
    else
      let act := bit (s.core k).wdActive 1
      let s := (s.modCore k fun c => { c with wdExpired := true }).report (140 + k)
      let s := if act then ((s.coreInReset k).coreGo k).modCore k fun c => { c with wdResets := satInc c.wdResets } else s
      s.wdLoad k
  | none => s

def execWatchdogExpiry (t : Time) (k : Fin 4) (s : State) : Res := engineEvent t s fun s => s.wdExpire k

/-- R476: WD_LEFT, in whole microseconds. -/
def State.wdLeftUs (s : State) (k : Nat) : Word :=
  match (s.core k).wdAt, (s.core k).wdLeft with
  | some x, _ => wAt 0 ((x - s.now + us 1 - 1) / us 1)
  | none, some x => wAt 0 ((x + us 1 - 1) / us 1)
  | none, none => 0

/-! ## Timer (R452) -/

/-- R452: mtime counts nanoseconds. -/
def State.mtime (s : State) : Nat := s.now / 8
def Core.timeCmp (c : Machine.Core) : Nat := c.cmpHi.toNat * 2 ^ 32 + c.cmpLo.toNat

/-- R452: MTIP as it stands. -/
def State.setMtip (s : State) (k : Nat) : State :=
  let on := !s.coreHeld k && decide ((s.core k).timeCmp ≤ s.mtime % 2 ^ 64)
  let s := s.modCore k fun c => { c with mtip := on }
  if on then s.wakeCore k else s

def execMtip (t : Time) (k : Fin 4) (s : State) : Res := engineEvent t s fun s => s.setMtip k

/-- R450, R451: the control and status registers of a core whose values the spec fixes. -/
inductive Csr where
  | mhartid | misa | mvendorid | marchid | mimpid | time | timeh
  /-- mhpmcounter3 to 31. -/
  | mhpmcounter (n : Fin 29)
  deriving DecidableEq, Repr

/-- R450, R451: what core `k` reads of them; the time CSR is mtime. -/
def State.csr (s : State) (k : Nat) : Csr → Word
  | .mhartid => wAt 0 k
  | .misa => 0x40101105
  | .mimpid => 1
  | .time => loW s.mtime
  | .timeh => hiW s.mtime
  | .mvendorid | .marchid | .mhpmcounter _ => 0

def memOfs : Nat := 0x150800
def State.readMtime (s : State) (m : Ident) : Word × State := (loW s.mtime, s.latch m (memOfs + 4) (hiW s.mtime))

def execMtimeRead (t : Time) (m : Ident) (s : State) : Res := regRead t memOfs s fun s => s.readMtime m

/-! ## Scrubber and arbiter (R464, R477) -/

def beatCount : Nat := 524288

/-- R464: the next beat is read and corrected. -/
def State.scrub (s : State) : State :=
  let m := s.mem
  if !bit m.scrub 0 || s.now < m.scrubT + ns (fld m.scrub 8 24) || s.coreWaits (m.scrubAt * 64) 64 then s
  else
    let (_, s) := s.sramRead (m.scrubAt * 64) 64
    let last := m.scrubAt + 1 = beatCount
    { s with mem := { s.mem with scrubAt := if last then 0 else m.scrubAt + 1, scrubT := s.now,
                                 scrubPass := if last then s.mem.scrubPass + 1 else s.mem.scrubPass } }

def execScrubBeat (t : Time) (s : State) : Res := engineEvent t s State.scrub

/-- R477: TWAIT_CLR. -/
def State.arbCtrl (s : State) (v : Word) : State := if bit v 0 then { s with mem := { s.mem with twait := 0 } } else s

def execArbTwaitClr (t : Time) (_m : Ident) (v : Word) (s : State) : Res := regWrite t (memOfs + 0x3C) s fun s => s.arbCtrl v

/-- CORE_STATUS and CORE_ECC (R476). -/
def CoreState.code : CoreState → Nat
  | .run => 0 | .resetting => 1 | .inReset => 2 | .wfi => 3
def Core.status (c : Machine.Core) : Word :=
  wAt 0 c.st.code ||| flag 2 c.halted ||| flag 3 c.busyRej ||| flag 4 c.lockAbandoned ||| flag 5 c.wdExpired ||| flag 6 c.dirtyLost
    ||| wAt 16 c.wdResets.toNat
def Core.ecc (c : Machine.Core) : Word := wAt 0 c.eccI ||| wAt 10 c.eccD ||| wAt 20 c.eccT

end Sys2Proof.Machine
end

