-- ==== Sys2Proof/Machine/Mailboxes.lean ====
section
/-! DEFINITION. Mailbox commands (R438 to R448): the accesses of one side, the binding table and its lock, and the send timeout. -/

namespace Sys2Proof.Machine

def mbOfs (b : Nat) : Nat := 0xE0000 + b * 0x80
def mbTabOfs : Nat := 0xE2000

/-- R440: an access by an identity that is neither side of mailbox `b`. -/
def State.mbForeign (s : State) : State := { s with mbox := { s.mbox with foreign := satInc s.mbox.foreign } }

/-- R441: MB_SEND. -/
def State.mbSendWrite (s : State) (m : Ident) (b : Nat) (v : Word) : State :=
  match (s.mb b).side m with
  | none => s.mbForeign
  | some a =>
    if ((s.mb b).dir a).busy then s.setMb b ((s.mb b).setDir a { (s.mb b).dir a with txRej := true })
    else if bit v 0 then s.mbSend b a else s

def execMbSend (t : Time) (m : Ident) (b : Fin 64) (v : Word) (s : State) : Res :=
  regWrite t (mbOfs b + 0x20) s fun s => s.mbSendWrite m b v

/-- R442: MB_ACK. -/
def State.mbAckWrite (s : State) (m : Ident) (b : Nat) (v : Word) : State :=
  match (s.mb b).side m with
  | none => s.mbForeign
  | some a => s.mbAck b a (v.setWidth 16)

def execMbAck (t : Time) (m : Ident) (b : Fin 64) (v : Word) (s : State) : Res :=
  regWrite t (mbOfs b + 0x60) s fun s => s.mbAckWrite m b v

/-- R443: the message of side `a` has not been acknowledged within TIMEOUT ms. -/
def State.mbTimeout (s : State) (b : Nat) (a : Bool) : State :=
  let x := s.mb b
  let d := x.dir a
  if d.busy && !d.gone && !d.timeout && x.limit ≠ 0 && d.sentAt + ms x.limit ≤ s.now then
    (s.setMb b (x.setDir a { d with timeout := true })).mbEvent b (x.idOf a) 2 0 []
  else s

def execMbTimeout (t : Time) (b : Fin 64) (sideA : Bool) (s : State) : Res := engineEvent t s fun s => s.mbTimeout b sideA

/-- R438: identities a binding may name. -/
def mbIdent (i : Nat) : Bool := [0x00, 0x01, 0x10, 0x11, 0x12, 0x13, 0x20, 0x40].contains i

def State.mbReject (s : State) : State := { s with mbox := { s.mbox with cfgRej := true } }

/-- R438, R439: MB_BIND; a changed binding discards both slots. -/
def State.mbBind (s : State) (b : Nat) (v : Word) : State :=
  let x := s.mb b
  let ia := fld v 0 8
  let ib := fld v 8 8
  if s.mbox.locked || !mbIdent ia || !mbIdent ib || (ia = ib && ia ≠ 0) then s.mbReject
  else if fld x.bind 0 16 = fld v 0 16 then s.setMb b { x with bind := v }
  else ({ s with movers := { s.movers with boxes := s.movers.boxes.filter fun x => x.1 ≠ b } }).setMb b { x with bind := v, ab := {}, ba := {} }

def execMbBindWrite (t : Time) (_m : Ident) (b : Fin 64) (v : Word) (s : State) : Res :=
  regWrite t (mbTabOfs + 4 * b) s fun s => s.mbBind b v

/-- R439: MB_NOTE. -/
def State.mbNote (s : State) (b : Nat) (v : Word) : State :=
  if s.mbox.locked then s.mbReject else s.setMb b { s.mb b with note := v &&& 0xFFF }

/-- R439: MB_LOCK. -/
def State.mbLock (s : State) (v : Word) : State :=
  if bit v 0 then { s with mbox := { s.mbox with locked := true } } else s

def execMbLock (t : Time) (_m : Ident) (v : Word) (s : State) : Res := regWrite t (mbTabOfs + 0x200) s fun s => s.mbLock v

/-- R441: a write of MB_TX by side `a`. -/
def State.mbTx (s : State) (m : Ident) (b i : Nat) (v : Word) : State :=
  match (s.mb b).side m with
  | none => s.mbForeign
  | some a =>
    let d := (s.mb b).dir a
    s.setMb b ((s.mb b).setDir a (if d.busy then { d with txRej := true } else { d with tx := tput 0 d.tx i v }))

/-- R448: MB_TXSTAT and MB_RXSTAT of side `a`. -/
def MbDir.txStat (d : MbDir) : Word :=
  flag 0 d.busy ||| flag 1 d.acked ||| flag 2 d.timeout ||| flag 3 d.txRej ||| wAt 16 d.rc.toNat
def MbDir.rxStat (d : MbDir) : Word := flag 0 d.msg ||| flag 1 d.gone ||| flag 2 d.rxRej

end Sys2Proof.Machine
end

