-- ==== Sys2Proof/Machine/Store.lean ====
section
/-! DEFINITION. The limited-write store (R361 to R376): images and their checks, commits, the ledger, SERVICE_EN. The end of a commit
stands in Startup.lean, since a RESET_N may wait for it. -/

namespace Sys2Proof.Machine

/-! ## CRC-32 (R363) -/

/-- One bit of the IEEE 802.3 CRC, reflected. -/
def crcBit (c : Word) : Word := if c.getLsbD 0 then (c >>> 1) ^^^ 0xEDB88320 else c >>> 1

def crcByte (c : Word) (b : Byte) : Word := (List.range 8).foldl (fun c _ => crcBit c) (c ^^^ b.setWidth 32)

/-- The IEEE 802.3 CRC-32 of a byte list. -/
def crc32 (b : List Byte) : Word := ~~~ (b.foldl crcByte 0xFFFFFFFF)

/-- R363: the CRC of an image, bytes 12 to 15 taken as 0. -/
def imageCrc (b : List Byte) : Word := crc32 (splice b 12 [0, 0, 0, 0])

/-! ## Images (R361, R363 to R366) -/

def tgFence : Nat := 1
def tgConduct : Nat := 2
def tgIdent : Nat := 3

/-- R361: write slots and image length of a target. -/
def slotCount (tg : Nat) : Nat := if tg = tgFence then 32 else if tg = tgConduct then 4 else 8
def imageLen (tg : Nat) : Nat := if tg = tgFence then 2432 else if tg = tgConduct then 16 else 48

/-- R363: the header of an image. -/
def headerOk (tg : Nat) (b : List Byte) : Bool :=
  num b 0 2 = tg && num b 2 2 = imageLen tg && num b 12 4 = (imageCrc b).toNat

/-- R364: the four words of a pin. -/
def pinOk (b : List Byte) (p : Nat) : Bool :=
  let w0 := num b (0x40 + p * 16) 4
  w0 % 4 ≠ 3 && w0 / 4 % 64 = 0 && (num b (0x47 + p * 16) 1 = 0 || num b (0x4B + p * 16) 1 ≠ 0)

/-- R364: the two words of a group. -/
def groupImageOk (b : List Byte) (g : Nat) : Bool := num b (0x840 + g * 8) 4 < 16 && num b (0x844 + g * 8) 4 < 65536

/-- R364: the two words of a permit. -/
def permitOk (b : List Byte) (i : Nat) : Bool :=
  let w := num b (0x940 + i * 8) 4
  w / 2 % 128 = 0 && w / 65536 = 0 && w / 256 % 256 ≠ 0 && num b (0x944 + i * 8) 4 = 0

/-- R364, R367: a fence image; AUTH 0 needs FINAL. -/
def fenceOk (b : List Byte) (final : Bool) : Bool :=
  num b 4 1 < 64 && (num b 4 1 ≠ 0 || final) && num b 5 3 = 0 && num b 0x10 48 = 0
    && (List.range 128).all (pinOk b) && (List.range 32).all (groupImageOk b) && (List.range 8).all (permitOk b)

/-- R6, R365: the highest conduct level the part reports. -/
def maxLevel : Nat := 1

/-- R367: the fifth check. -/
def imageOk (tg : Nat) (b : List Byte) (final : Bool) : Bool :=
  headerOk tg b &&
    (if tg = tgFence then fenceOk b final
     else if tg = tgConduct then num b 5 7 = 0 && 1 ≤ num b 4 1 && num b 4 1 ≤ maxLevel
     else num b 4 8 = 0 && num b 22 2 = 0 && num b 20 2 < 1024)

/-! ## Slots (R362, R372) -/

def Lws.slots (l : Lws) (tg : Nat) : List LwsSlot := if tg = tgFence then l.fence else if tg = tgConduct then l.conduct else l.ident

def Lws.setSlots (l : Lws) (tg : Nat) (x : List LwsSlot) : Lws :=
  if tg = tgFence then { l with fence := x } else if tg = tgConduct then { l with conduct := x } else { l with ident := x }

/-- R362: the newest VALID slot. -/
def newest (x : List LwsSlot) : Option (List Byte) := (x.reverse.find? (·.valid)).map (·.image)

/-- R362, R366: the newest VALID conduct level and identity fields. -/
def Lws.level (l : Lws) : Nat := (newest l.conduct).elim 1 fun b => num b 4 1
def identField (img : Option (List Byte)) (o n : Nat) : Nat := img.elim 0 fun b => num b o n

/-! ## The ledger (R371) -/

/-- A blaze record with RESULT PENDING; its CRC leaves out byte 3. -/
def Lws.record (l : Lws) (tg slot : Nat) (m : Ident) (img : List Byte) : List Byte :=
  let head : List Byte := [BitVec.ofNat 8 tg, BitVec.ofNat 8 slot, m]
  let body := slice img 12 4 ++ leBytes 4 l.stamp.toNat ++ leBytes 4 l.tag.toNat ++ leBytes 4 (identField l.identImg 16 4)
    ++ leBytes 2 (identField l.identImg 20 2 % 1024) ++ [0, 0] ++ leBytes 4 (identField (newest (l.slots tg)) 12 4)
  head ++ [0] ++ body ++ leBytes 4 (crc32 (head ++ body)).toNat

/-! ## Commits (R367, R368, R370) -/

/-- The staged bytes. -/
def Lws.staged (l : Lws) (n : Nat) : List Byte := (List.range n).map fun i => tget 0 l.stage i

/-- R367: the checks of an LWS_CMD write by master `m`, in their order; 0 where it is accepted. -/
def State.lwsJudge (s : State) (m : Ident) (v : Word) : Nat :=
  let l := s.lws
  let tg := fld v 0 2
  if l.commit.isSome then 1
  else if fld v 16 16 ≠ 0x5EA1 || tg = 0 || fld v 3 13 ≠ 0 then 2
  else if !l.svc then 4
  else if !authHas s.fenceAuth m then 4
  else if !imageOk tg (l.staged (imageLen tg)) (bit v 2) then 2
  else if slotCount tg ≤ (l.slots tg).length then 9
  else 0

/-- R368 steps 1 and 2: the record with RESULT PENDING and the slot are programmed; the slot counts as used. -/
def State.lwsAccept (s : State) (m : Ident) (tg : Nat) : State :=
  let l := s.lws
  let img := l.staged (imageLen tg)
  let slots := l.slots tg
  let rec_ := l.record tg slots.length m img
  { s with lws := { l.setSlots tg (slots ++ [{ valid := false, image := img }]) with
      ledger := l.ledger ++ [rec_], result := 0,
      commit := some { target := tg, image := img, master := m, stamp := l.stamp, tag := l.tag } } }

/-- R367: a write of LWS_CMD. -/
def State.lwsCmd (s : State) (m : Ident) (v : Word) : State :=
  match s.lwsJudge m v with
  | 0 => s.lwsAccept m (fld v 0 2)
  | r => { s with lws := { s.lws with result := BitVec.ofNat 16 r } }

def lwsOfs : Nat := 0xB0000

/-- LWS_CMD with TARGET 1, 2 or 3. -/
def execCommitFence (t : Time) (m : Ident) (v : Word) (s : State) : Res :=
  regWrite t lwsOfs s fun s => s.lwsCmd m (setFld v 0 2 tgFence)
def execCommitConduct (t : Time) (m : Ident) (v : Word) (s : State) : Res :=
  regWrite t lwsOfs s fun s => s.lwsCmd m (setFld v 0 2 tgConduct)
def execCommitIdentity (t : Time) (m : Ident) (v : Word) (s : State) : Res :=
  regWrite t lwsOfs s fun s => s.lwsCmd m (setFld v 0 2 tgIdent)

/-- R368: the commit's slot and record end VALID or SPOILED, RESULT says so, and source 678 is raised (R422). -/
def State.lwsFinish (s : State) (ok : Bool) : State :=
  match s.lws.commit with
  | none => s
  | some k =>
    let l := s.lws
    let slots := (l.slots k.target).dropLast ++ [{ valid := ok, image := k.image }]
    let rec_ := splice (l.ledger.getLast?.getD []) 3 [if ok then 1 else 2]
    let s := { s with lws := { l.setSlots k.target slots with
        ledger := l.ledger.dropLast ++ [rec_], result := if ok then 0 else 6, commit := none } }
    let s := if ok then (if k.target = tgFence then s.applyFence k.image s.now else s) else s.report 148
    s.cicEdge 678

/-- R370: bytes written to the stage; while a commit is in progress they are ignored. -/
def State.lwsStage (s : State) (o : Nat) (b : List Byte) : State :=
  if s.lws.commit.isSome then { s with lws := { s.lws with stageRej := true } }
  else { s with lws := { s.lws with stage := putBytes s.lws.stage o b } }

def execLwsStageWrite (t : Time) (_m : Ident) (ofs : Fin 608) (v : Word) (s : State) : Res :=
  regWrite t (lwsOfs + 0x1000 + 4 * ofs) s fun s => s.lwsStage (4 * ofs) (leBytes 4 v.toNat)

/-- R489: the test key locks, and every FC_FORCE bit clears. -/
def State.lockKey (s : State) : State := { s with fc := { s.fc with half := none, test := false, force := 0 } }

/-- R367, R435: up to instant `t` SERVICE_EN has stood as it stands: held high for 20 ms, it is qualified. -/
def State.svcQual (s : State) (t : Time) : State :=
  let l := s.lws
  if l.svcRaw && !l.svc && decide (l.svcT + ms 20 ≤ t) then ({ s with lws := { l with svc := true } }).watchEvent 0x61 else s

/-- R367, R435, R489: SERVICE_EN changes to `v` at instant `t`. Low, it is qualified no longer (DEDUCED, log 57), which locks the test key. -/
def State.svcEdge (s : State) (t : Time) (v : Bool) : State :=
  let s := s.svcQual t
  let l := s.lws
  if l.svcRaw = v then s
  else
    let s := { s with lws := { l with svcRaw := v, svcT := t, svc := false } }
    if l.svc then s.lockKey.watchEvent 0x62 else s

/-- R367: transitions of SERVICE_EN (instant and new level, oldest first), and what has qualified since. -/
def execServiceEnQualify (t : Time) (raw : List (Time × Bool)) (s : State) : Res :=
  liveEvent t s fun s => (raw.foldl (fun s p => s.svcEdge (min p.1 s.now) p.2) s).svcQual s.now

/-- LWS_STATUS and LWS_SLOTS (R376). -/
def Lws.status (l : Lws) : Word := flag 0 l.commit.isSome ||| flag 1 l.stageRej ||| wAt 16 l.result.toNat
def Lws.used (l : Lws) : Word :=
  wAt 0 l.fence.length ||| wAt 8 l.conduct.length ||| wAt 12 l.ident.length ||| wAt 16 l.ledger.length

end Sys2Proof.Machine
end

