-- ==== Sys2Proof/Machine/Resets.lean ====
section
/-! DEFINITION. What the resets clear and keep (R502): the function-wide reset that PERST_N, FLR, FUNC_RESET and fault reaction 4 share,
and the start that power-on reset and RESET_N share (R498). -/

namespace Sys2Proof.Machine

/-! ## FAULT_N (R494) -/

/-- R494: the part drives FAULT_N low. -/
def State.faultPin (s : State) : Bool :=
  s.dead || !s.rst.fenceRead || s.fc.safe
    || (List.range 256).any fun i => s.fc.latch.getLsbD i && decide (s.fc.pinSev.toNat ≤ s.recordedSev i)

def State.setFaultN (s : State) : State := { s with fc := { s.fc with faultN := s.faultPin } }

/-! ## Function-wide reset (R196, R233, R259, R292, R335, R359, R502) -/

/-- R359: the pin rests and its unit drives the rest level. -/
def State.restUnit (s : State) (u : Nat) : State :=
  let o := s.ou u
  let on := (s.pin u).onSince.isSome
  let o' : OutUnit := { drive := !s.isInput u && !s.onLevel u, lastCause := o.lastCause, clamps := o.clamps,
                        edgeT := if on then s.now else o.edgeT, clampT := o.clampT }
  (s.setPin u { (s.pin u).rest s.now with hold := false }).setOu u o'

def State.restUnits (s : State) : State := (List.range pinCount).foldl State.restUnit s

/-- R502: all four cores; WD_CTRL.EN clears. -/
def State.resetCores (s : State) : State :=
  (List.range 4).foldl (fun s k =>
    (s.coreInReset k).modCore k fun c =>
      { c with resetBit := true, halted := false, wdCtrl := c.wdCtrl &&& ~~~1, wdAt := none, wdLeft := none, wdActive := 0 }) s

/-- R481, R519 to R521: the blocks whose latched companions a function-wide reset keeps: device time, output units, fault collector. -/
def keptLatch (ofs : Nat) : Bool :=
  (0x1000 ≤ ofs && ofs < 0x1800) || (0xA0000 ≤ ofs && ofs < 0xB0000) || (0xF0000 ≤ ofs && ofs < 0x100000)

/-- R477: the registers of the scrubber, the memory and the arbiter are reset; contents are kept. -/
def Mem.resetCounters (m : Mem) : Mem :=
  { sram := m.sram, tcm := m.tcm, bad := m.bad, weak := m.weak, tcmBad := m.tcmBad, tcmWeak := m.tcmWeak }

/-- R446, R447: the identities whose mailbox sides a function-wide reset resets. -/
def funcSides : List Ident := [0x01, 0x40, 0x10, 0x11, 0x12, 0x13]

/-- R502: the function-wide reset; bit `cause` of RST_CAUSE is set, and the part is ready `wait` ticks later. -/
def State.functionReset (s : State) (cause wait : Nat) : State :=
  let s := (((s.mbReset funcSides).resetCores).restUnits).lockKey
  { s with
    axes := {}, cmps := [], caps := [], chans := [], sched := {}, movers := { pcie := s.movers.pcie }, queues := {}, xl := {},
    net := {}, und := {}, mem := s.mem.resetCounters,
    irq := { msixEn := s.irq.msixEn, funcMask := s.irq.funcMask, bme := s.irq.bme, link := s.irq.link },
    latches := s.latches.filter (fun p => keptLatch (p.1 % 2 ^ 22)),
    rst := { s.rst with cause := s.rst.cause ||| BitVec.ofNat 6 (1 <<< cause), busy := true,
                        readyAt := max s.rst.readyAt (s.now + wait) } }

/-! ## Power-on reset and RESET_N (R497 to R500, R502) -/

/-- R498: a VALID slot whose CRC fails when it is read. -/
def LwsSlot.spoiled (x : LwsSlot) : Bool := x.valid && num x.image 12 4 ≠ (imageCrc x.image).toNat

/-- R498: the slots as they count once read. -/
def readSlots (l : List LwsSlot) : List LwsSlot := l.map fun x => if x.spoiled then { x with valid := false } else x

/-- R498 stage 3, R502: the store is read; its registers are reset. -/
def Lws.restart (l : Lws) : Lws :=
  let f := readSlots l.fence
  let c := readSlots l.conduct
  let i := readSlots l.ident
  { fence := f, conduct := c, ident := i, ledger := l.ledger, fenceImg := newest f, conductImg := newest c, identImg := newest i }

def Lws.anySpoiled (l : Lws) : Bool := (l.fence ++ l.conduct ++ l.ident).any LwsSlot.spoiled

/-- R355, R498 stage 4: pins rest, and permits are accepted as deasserted. -/
def State.startOuts (s : State) : State :=
  let s := s.restUnits
  (List.range 8).foldl (fun s i => s.setPermitIn i { rawT := s.now, level := !s.permitHigh i }) s

/-- R502: everything the reset of the whole part keeps, on a part otherwise at its reset values: the store, the fuses, the levels at
the pins, the condition of PERST_N, and what has left the part. -/
def State.bare (s : State) : State :=
  { now := s.now,
    lws := { fence := s.lws.fence, conduct := s.lws.conduct, ident := s.lws.ident, ledger := s.lws.ledger },
    outs := { pins := (s.outs.pins.map fun p => (p.1, ({ ext := p.2.ext } : Pin))).filter fun p => p.2.ext, bank33 := s.outs.bank33 },
    rst := { cause := s.rst.cause, perst := s.rst.perst, fenceRead := false },
    boot := { keyhash := s.boot.keyhash, blank := s.boot.blank },
    fc := { level := s.fc.level },
    out := s.out, free := s.free, pending := s.pending }

/-- R498 stages 2 to 5, R500: from the stages' start to boot; `s` stands at its reset values. PERST_N low holds the function-wide
reset. -/
def State.startUp (s : State) : State :=
  let bad := s.lws.anySpoiled
  let s := { s with lws := s.lws.restart, boot := { s.boot with st := 1, hash := s.boot.keyhash },
                    rst := { s.rst with por := false, resetN := false, resetHeld := false, fenceRead := true, spoiledRead := bad,
                                        busy := s.rst.perst } }
  let s := s.startOuts
  (if bad then s.report 148 else s).setFaultN

end Sys2Proof.Machine
end

