-- ==== Sys2Proof/Machine/Ports.lean ====
section
/-! DEFINITION. The Ethernet ports (R377 to R390): classification of received frames, streams, transmit queues, and the order in which a
port sends; and line time (R393), which decides when a port that carries Yazen may start a frame. -/

namespace Sys2Proof.Machine

/-! ## Line time (R393, R398, R399) -/

/-- Rounded to the nearest, halves up. -/
def roundDiv (a b : Int) : Int := (2 * a + b) / (2 * b)

/-- R393: line time at device time `d`: LT0 + (D - D0) (1 + RATE), RATE in units of 2^-40. -/
def Ptp.line (p : Ptp) (d : Time) : Int :=
  let x : Int := (d : Int) - p.d0
  p.lt0 + x + roundDiv (x * p.rate.toInt) (2 ^ 40)

/-- R393: the device time of line time `l` (modulo 2^64, the instant nearest to `now`). -/
def Ptp.device (p : Ptp) (l : BitVec 64) (now : Time) : Time :=
  let here := p.line now
  let x : Int := here + (l - BitVec.ofInt 64 here).toInt - p.lt0
  ((p.d0 : Int) + roundDiv (x * 2 ^ 40) (2 ^ 40 + p.rate.toInt)).toNat

/-- Line time now, modulo 2^64. -/
def State.lineNow (s : State) : BitVec 64 := BitVec.ofInt 64 (s.net.ptp.line s.now)

/-- R399: the part keeps line time: GRANDMASTER, SLAVE and locked, or HOLDOVER. -/
def State.synced (s : State) : Bool :=
  let p := s.net.ptp
  p.role = 1 || (p.role = 2 && p.locked) || p.role = 3

/-- R398: the present cycle and its beginning in line time, as whole numbers. -/
def State.cycleNow (s : State) : Nat := s.lineNow.toNat / s.tCyc
def State.cycleAt (s : State) : Nat := s.cycleNow * s.tCyc

def Yazen.en (y : Yazen) : Bool := bit y.ctrl 0
def Yazen.chain (y : Yazen) : Bool := bit y.ctrl 4
def Yazen.ringA (y : Yazen) : Nat := fld y.ports 16 4
def Yazen.ringB (y : Yazen) : Nat := fld y.ports 20 4
def Yazen.ofs (y : Yazen) : Nat := ns (fld y.txOfs 0 20)

/-- R400: the ports that carry Yazen, and the ring side of a port (`true` for RING_B). -/
def Yazen.carries (y : Yazen) (p : Nat) : Bool := if y.chain then p = y.ringA || p = y.ringB else bit y.ports p
def Yazen.ring (y : Yazen) (p : Nat) : Option Bool :=
  if !y.chain then none else if p = y.ringA then some false else if p = y.ringB then some true else none

/-- R398: the next cyclic transmit instant in line time. -/
def State.cyclicNext (s : State) : Nat :=
  s.cycleAt + s.yz.ofs + (if s.yz.sentIn = some s.cycleNow then s.tCyc else 0)

/-! ## The port (R377 to R379) -/

def Port.en (p : Port) : Bool := bit p.ctrl 0
def Port.slow (p : Port) : Bool := bit p.ctrl 1
def Port.mac (p : Port) : Nat := fld p.macHi 0 16 * 2 ^ 32 + p.macLo.toNat
def PortState.code : PortState → Nat
  | .disabled => 0 | .enabled => 1 | .disabling => 2

/-- R378: the frames queued in a port's transmit queues are discarded, and what else waits there. -/
def State.dropQueued (s : State) (p : Nat) : State :=
  let s := (List.range 4).foldl (fun s q => s.setTxq (4 * p + q) { s.txq (4 * p + q) with frames := [] }) s
  s.modPort p fun x => { x with ptpOut := [], yzOut := [], cycOut := none }

/-- R377, R378, R400, R412: PORT_CTRL; FEC 11 is reserved, and refused as a whole (R7). -/
def State.portCtrl (s : State) (p : Nat) (v : Word) : State :=
  let x := s.port p
  let v := v &&& 0xFF3F
  let fec := fld v 2 2
  if fec = 3 || fec = 2 && (bit v 1 || (s.yz.ring p).isSome) then s.setPort p { x with cfgRej := true }
  else if x.st ≠ .disabled && fld v 1 3 ≠ fld x.ctrl 1 3 then s.setPort p { x with cfgRej := true }
  else match x.st, bit v 0 with
    | .disabling, true => s.setPort p { x with busyRej := true }
    | .disabled, true => s.setPort p { x with ctrl := v, st := .enabled }
    | .enabled, false => (s.setPort p { x with ctrl := v, st := .disabling, disAt := s.now }).dropQueued p
    | _, _ => s.setPort p { x with ctrl := v }

/-- Port registers (R412). -/
def portOfs (p : Nat) : Nat := 0x100000 + p * 0x4000

def execPortCtrlWrite (t : Time) (_m : Ident) (p : Fin 16) (v : Word) (s : State) : Res :=
  regWrite t (portOfs p) s fun s => s.portCtrl p v

/-- R378: the wire is idle: DISABLED. -/
def execPortDisableComplete (t : Time) (p : Fin 16) (s : State) : Res :=
  engineEvent t s fun s =>
    let x := s.port p
    if x.st = .disabling then s.setPort p { x with st := .disabled, onWire := none } else s

/-- R379: the PCS gains or loses link; in Rest the Understory watches it (R431). -/
def execLinkChange (t : Time) (p : Fin 16) (up : Bool) (s : State) : Res :=
  liveEvent t s fun s =>
    let x := s.port p
    let lost := x.link && !up && x.st = .enabled && !s.resting
    let s := s.setPort p { x with link := up, linkLost := x.linkLost || lost }
    let s := if lost then s.report (112 + p) else s
    if x.link ≠ up && bit s.und.linkMon p then s.watchEvent (if up then 0x20 + p else 0x30 + p) else s

/-! ## Streams (R382 to R385) -/

def Stream.quota (x : Stream) : Nat := fld x.ctrl 8 8
def Stream.held (x : Stream) : Nat := (x.recs.map List.length).sum

/-- R382: a frame for stream `r` is stored whole, or dropped and counted. -/
def State.storeRecord (s : State) (p r : Nat) (rec_ : List Byte) : State :=
  let x := s.stream r
  if x.st = .enabled && decide (x.held + rec_.length ≤ x.quota * 16384) then
    ((s.setStream r { x with recs := x.recs ++ [rec_] }).modPort p fun y => { y with rxOk := y.rxOk + 1 }).wakeUnit r
  else (s.setStream r { x with drop := satInc x.drop }).modPort p fun y => { y with rxDrop := y.rxDrop + 1 }

/-- R383: the prefix of a record. -/
def prefix_ (f : List Byte) (stamp : Time) (p rule : Nat) : List Byte :=
  leBytes 8 stamp ++ leBytes 2 f.length ++ [BitVec.ofNat 8 p, BitVec.ofNat 8 rule]
    ++ leBytes 2 (if tagLen f = 0 then 0 else beNat (slice f 14 2)) ++ [if tagLen f = 0 then 0 else 1, 0]

/-- R383, R386: the record of a frame; PREFIX is ignored in placement mode. -/
def Stream.record (x : Stream) (f : List Byte) (stamp : Time) (p rule : Nat) : List Byte :=
  if bit x.ctrl 1 && !x.place then prefix_ f stamp p rule ++ f else f

/-- R382: quotas of the enabled streams. -/
def State.quotas (s : State) : Nat := ((s.net.streams.map (·.2)).map fun x => if x.st = .enabled then x.quota else 0).sum

/-- R382, R385: RS_CTRL. -/
def State.rsCtrl (s : State) (r : Nat) (v : Word) : State :=
  let x := s.stream r
  let v := v &&& 0xFF07
  let v := if fld v 8 8 = 0 then setFld v 8 8 1 else v
  match x.st, bit v 0 with
  | .disabling, true => s.setStream r { x with busyRej := true }
  | .disabled, true =>
    if 256 < s.quotas + fld v 8 8 then s.setStream r { x with cfgRej := true }
    else s.setStream r { x with ctrl := v, st := .enabled }
  | .enabled, false => s.setStream r { x with ctrl := v, st := .disabling }
  | _, _ => s.setStream r { x with ctrl := v }

/-- R413. -/
def streamOfs (r : Nat) : Nat := 0x102000 + (r / 16) * 0x4000 + (r % 16) * 0x40

def execRsCtrlWrite (t : Time) (_m : Ident) (r : Fin 256) (v : Word) (s : State) : Res :=
  regWrite t (streamOfs r) s fun s => s.rsCtrl r v

/-- A started burst takes bytes from stream `r`. -/
def State.streamBusy (s : State) (r : Nat) : Bool :=
  s.movers.run.any fun p => match p.2 with
    | some b => (s.chan b.chan).cur.unit = r && (s.chan b.chan).cur.op = 0x01
    | none => false

/-- R385: nothing of the stream is reserved any more: the other records are discarded. -/
def execStreamDisableComplete (t : Time) (r : Fin 256) (s : State) : Res :=
  engineEvent t s fun s =>
    let x := s.stream r
    if x.st = .disabling && x.owner.isNone && !s.streamBusy r then s.setStream r { x with st := .disabled, recs := [] } else s

/-- R387: GAP microseconds have passed since the latest placement. -/
def execPlacementGap (t : Time) (c : Fin 4096) (s : State) : Res :=
  engineEvent t s fun s =>
    let h := s.chan c
    let u := h.cur.unit
    match h.placedAt with
    | some x =>
      if s.placing c && h.act = .unit u && decide (0 < (s.stream u).gap) && decide (x + us (s.stream u).gap ≤ s.now) then s.placeDone c
      else s
    | none => s

/-! ## Classification (R380, R381) -/

/-- R381: a rule matches when every condition it selects holds. -/
def Rule.hits (r : Rule) (f : List Byte) : Bool :=
  let sel := fun i => bit r.ctrl i
  let w := fld r.field 10 2 + 1
  let o := udpPayload f + fld r.field 0 10
  (!sel 1 || etherType f = fld r.etype 0 16)
    && (!sel 2 || (tagLen f ≠ 0 && beNat (slice f 14 2) % 4096 = fld r.vlan 0 12))
    && (!sel 3 || (isIpv4 f && BitVec.ofNat 32 (beNat (slice f (l3At f + 16) 4)) &&& r.ipMask = r.ip &&& r.ipMask))
    && (!sel 4 || (isUdp f && decide (fld r.udp 0 16 ≤ udpDst f) && decide (udpDst f ≤ fld r.udp 16 16)))
    && (!sel 5 || (isUdp f && decide (o + w ≤ f.length) && BitVec.ofNat 32 (beNat (slice f o w)) &&& r.fmask = r.fmatch))

/-- R380: the first enabled rule that matches. -/
def Port.ruleFor (x : Port) (f : List Byte) : Option (Nat × Rule) :=
  x.rules.find? fun p => decide (p.1 < 32) && bit p.2.ctrl 0 && p.2.hits f

/-- R380 step 2: the frame is for this port. -/
def Port.accepts (x : Port) (f : List Byte) : Bool :=
  bit x.ctrl 4 || beNat (slice f 0 6) = x.mac || (f.getD 0 0).getLsbD 0

/-- R380 step 4. -/
def isPtp (f : List Byte) : Bool := etherType f = 0x88F7 || (isUdp f && (udpDst f = 319 || udpDst f = 320))

/-- R380: a good frame from the address filter on. `stamp` is the device time of its first bit. -/
def State.classify (s : State) (p : Nat) (f : List Byte) (stamp : Time) : State :=
  let x := s.port p
  let ok := fun (s : State) => s.modPort p fun y => { y with rxOk := y.rxOk + 1 }
  if !x.accepts f then s
  else if etherType f = 0x8808 then s.setPort p { x with rxPause := x.rxPause + 1 }
  else if etherType f = fld s.yz.etype 0 16 && s.yz.carries p then
    if s.yz.en then ok (s.modYz fun y => { y with inbox := y.inbox ++ [(p, s.now, f)] }) else s
  else if isPtp f && bit s.net.ptp.ports p then ok s
  else match x.ruleFor f with
    | some (i, r) =>
      if bit r.ctrl 6 then s.setPort p { x with rxNoMatch := x.rxNoMatch + 1 }
      else s.storeRecord p (fld r.ctrl 8 8) ((s.stream (fld r.ctrl 8 8)).record f stamp p i)
    | none =>
      if bit x.ctrl 5 then s.storeRecord p (fld x.ctrl 8 8) ((s.stream (fld x.ctrl 8 8)).record f stamp p 31)
      else s.setPort p { x with rxNoMatch := x.rxNoMatch + 1 }

/-! ## Yazen headers and credits (R395, R400 to R402) -/

/-- Where the Yazen header of a frame begins; its TYPE, HOPS, SRC. -/
def yzHead (f : List Byte) : List Byte := f.drop (l3At f)
def yzType (h : List Byte) : Nat := (h.getD 0 0).toNat / 16
def yzHops (h : List Byte) : Nat := (h.getD 1 0).toNat
def yzSrc (h : List Byte) : Nat := num h 2 2 % 1024

/-- R362, R376: the part's own node and line identity. -/
def State.node (s : State) : Nat := identField s.lws.identImg 20 2 % 1024
def State.lineId (s : State) : Nat := identField s.lws.identImg 16 4

/-- R400: a frame received on one ring port is forwarded to the other. -/
def State.forwards (s : State) (f : List Byte) : Bool :=
  let h := yzHead f
  s.yz.chain && yzSrc h ≠ s.node && decide (2 ≤ yzHops h) && yzType h ≠ 3

/-- R400: it leaves with one hop less. -/
def hopped (f : List Byte) : List Byte := splice f (l3At f + 1) [BitVec.ofNat 8 (yzHops (yzHead f) - 1)]

def Yazen.credit (y : Yazen) (b : Bool) : Nat := if b then y.creditB else y.creditA
def Yazen.fwdOf (y : Yazen) (b : Bool) : List (Time × List Byte) := if b then y.fwdB else y.fwdA
def Yazen.setFwd (y : Yazen) (b : Bool) (l : List (Time × List Byte)) : Yazen :=
  if b then { y with fwdB := l } else { y with fwdA := l }

/-- R402: a CYCLIC frame starts toward the neighbour of ring side `b`. -/
def Yazen.takeCredit (y : Yazen) (b : Bool) : Yazen :=
  if b then { y with creditB := y.creditB - 1 } else { y with creditA := y.creditA - 1 }

/-- A frame from the part: its Ethernet header with the group address, the sending port's address, the tag (R395). -/
def State.yzEther (s : State) (p : Nat) (body : List Byte) : List Byte :=
  let y := s.yz
  let tag := if bit y.vlan 15 then beBytes 2 0x8100 ++ beBytes 2 (fld y.vlan 12 3 * 8192 + fld y.vlan 0 12) else []
  beBytes 6 (fld y.dmacHi 0 16 * 2 ^ 32 + y.dmacLo.toNat) ++ beBytes 6 (s.port p).mac ++ tag
    ++ beBytes 2 (fld y.etype 0 16) ++ body

/-- R395: a Yazen header. -/
def State.yzHeader (s : State) (type hops cycle credit b14 b15 : Nat) : List Byte :=
  [BitVec.ofNat 8 (1 + 16 * type), BitVec.ofNat 8 hops] ++ leBytes 2 s.node ++ leBytes 4 s.lineId ++ leBytes 4 cycle
    ++ leBytes 2 credit ++ [BitVec.ofNat 8 b14, BitVec.ofNat 8 b15]

/-- A frame that takes no credit waits at port `p` (R402): a forwarded one with its arrival (R401), `none` for one of the part's own. -/
def State.yzSend (s : State) (p : Nat) (came : Option Time) (f : List Byte) : State :=
  let x := s.port p
  if x.st = .enabled then s.setPort p { x with yzOut := x.yzOut ++ [(came, f)] } else s

def Yazen.portOf (y : Yazen) (b : Bool) : Nat := if b then y.ringB else y.ringA

/-- R402: a CREDIT frame on ring side `b`: the slots freed so far, modulo 2^16. -/
def State.sendCredit (s : State) (b : Bool) : State :=
  let y := s.yz
  let n := if b then y.freedB else y.freedA
  let s := s.modYz fun y => if b then { y with sentB := n } else { y with sentA := n }
  s.yzSend (y.portOf b) none (s.yzEther (y.portOf b) (s.yzHeader 3 0 0 n 0 0))

/-- R402: a slot that the neighbour of ring side `b` has filled is freed; every fourth one is reported at once. -/
def State.freeSlot (s : State) (b : Bool) : State :=
  let s := s.modYz fun y => if b then { y with freedB := y.freedB + 1 } else { y with freedA := y.freedA + 1 }
  let y := s.yz
  if 4 ≤ (if b then y.freedB - y.sentB else y.freedA - y.sentA) then s.sendCredit b else s

/-! ## Frames that leave (R389, R390, R398) -/

/-- R389: padded to 60 bytes, with its FCS. -/
def sealFrame (f : List Byte) : List Byte :=
  let f := f ++ List.replicate (60 - f.length) 0
  f ++ leBytes 4 (crc32 f).toNat

/-- The ticks of a frame of `n` bytes from its preamble to its last bit: 64/25 ticks a byte at 25 Gbit/s, 32/5 at 10 Gbit/s. -/
def Port.frameTicks (x : Port) (n : Nat) : Nat :=
  if x.slow then ((n + 8) * 32 + 4) / 5 else ((n + 8) * 64 + 24) / 25

/-- An own CYCLIC frame waits and may start. -/
def State.cyclicReady (s : State) (p : Nat) : Bool :=
  (s.port p).cycOut.isSome && (match s.yz.ring p with | some b => decide (0 < s.yz.credit b) | none => true)

/-- R390: a PTP message or queue frame of `n` bytes is held back at port `p`. -/
def State.holdsBack (s : State) (p n : Nat) : Bool :=
  s.yz.en && s.yz.carries p && s.synced &&
    (s.cyclicReady p || decide (s.cyclicNext < s.lineNow.toNat + (s.port p).frameTicks n))

/-- What a port can start. -/
inductive Next where
  | ptp (kind : Nat)
  | cyclic (f : List Byte)
  | yazen (own : Bool) (f : List Byte)
  | forward (ringB : Bool) (f : List Byte)
  | queue (q : Nat) (f : List Byte)
  deriving DecidableEq, Repr

def State.ptpBytes (s : State) (p kind : Nat) : List Byte := sealFrame (Config.ptpFrame p kind s.lineNow)

/-- R390: the next frame of port `p`. An own CYCLIC frame goes before other Yazen frames (R398). -/
def State.nextFrame (s : State) (p : Nat) : Option Next :=
  let x := s.port p
  match x.ptpOut.find? fun k => !s.holdsBack p (s.ptpBytes p k).length with
  | some k => some (.ptp k)
  | none =>
  match (if s.cyclicReady p then x.cycOut else none) with
  | some (_, f) => some (.cyclic f)
  | none =>
  match x.yzOut with
  | (came, f) :: _ => some (.yazen came.isNone f)
  | [] =>
  match (match s.yz.ring p with
    | some b => (match s.yz.fwdOf b with
      | (_, f) :: _ => if yzType (yzHead f) ≠ 1 || decide (0 < s.yz.credit b) then some (Next.forward b f) else none
      | [] => none)
    | none => none) with
  | some n => some n
  | none =>
    ([3, 2, 1, 0].findSome? fun q => (s.txq (4 * p + q)).frames.head?.bind fun f =>
      if s.holdsBack p (sealFrame f).length then none else some (Next.queue q f))

/-- R390: the chosen frame starts: it leaves where it waited, and is counted. -/
def State.startFrame (s : State) (p : Nat) : Next → State
  | .ptp k =>
    (s.modPort p fun x => { x with ptpOut := x.ptpOut.erase k, onWire := some 4, txOk := x.txOk + 1 }).emit
      (.frame p (s.ptpBytes p k))
  | .cyclic f =>
    let s := s.modPort p fun x => { x with cycOut := none, onWire := some 4, txOk := x.txOk + 1 }
    let s := match s.yz.ring p with
      | some b => s.modYz fun y => y.takeCredit b
      | none => s
    (s.modYz fun y => { y with txOk := y.txOk + 1 }).emit (.frame p (sealFrame f))
  | .yazen own f =>
    let s := s.modPort p fun x => { x with yzOut := x.yzOut.drop 1, onWire := some 4, txOk := if own then x.txOk + 1 else x.txOk,
                                           fwd := if own then x.fwd else x.fwd + 1 }
    (if own then s.modYz fun y => { y with txOk := y.txOk + 1 } else s).emit (.frame p (sealFrame f))
  | .forward b f =>
    let s := s.modPort p fun x => { x with onWire := some 4, fwd := x.fwd + 1 }
    let s := s.modYz fun y =>
      let y := y.setFwd b ((y.fwdOf b).drop 1)
      if yzType (yzHead f) = 1 then y.takeCredit b else y
    let s := s.emit (.frame p (sealFrame f))
    if yzType (yzHead f) = 1 then s.freeSlot (!b) else s
  | .queue q f =>
    let s := s.setTxq (4 * p + q) { s.txq (4 * p + q) with frames := (s.txq (4 * p + q)).frames.drop 1 }
    (s.modPort p fun x => { x with onWire := some q, txOk := x.txOk + 1 }).emit (.frame p (sealFrame f))

/-- R390: a frame boundary of port `p`. -/
def State.frameTransmit (s : State) (p : Nat) : State :=
  let s := s.modPort p fun x => { x with onWire := none }
  let x := s.port p
  if x.st ≠ .enabled || !x.link then s
  else match s.nextFrame p with
    | some n => s.startFrame p n
    | none => s

def execFrameTransmit (t : Time) (p : Fin 16) (s : State) : Res := engineEvent t s fun s => s.frameTransmit p

/-! ## Received frames -/

/-- R400, R402: a Yazen frame that proves wrong while it is cut through ends with an inverted FCS, and the slot it was to fill is freed. -/
def State.stomp (s : State) (p : Nat) (f : List Byte) : State :=
  match s.yz.ring p with
  | none => s
  | some b =>
    let q := s.yz.portOf (!b)
    let x := s.port q
    let cyc := yzType (yzHead f) = 1
    let yz := s.yz.en && etherType f = fld s.yz.etype 0 16
    let s := if yz && s.forwards f && x.st = .enabled && x.link && x.onWire.isNone
        && x.yzOut.isEmpty && (s.yz.fwdOf (!b)).isEmpty && (!cyc || decide (0 < s.yz.credit (!b))) then
      let f' := hopped f
      let s := s.setPort q { x with onWire := some 4, fwdStomp := x.fwdStomp + 1 }
      let s := if cyc then s.modYz fun y => y.takeCredit (!b) else s
      s.emit (.frame q (f' ++ leBytes 4 (~~~ crc32 f').toNat))
    else s
    if yz && cyc then s.freeSlot b else s

/-- R380: a frame has been received on port `p`; `stamp` is the device time of its first bit (log 4). -/
def State.frameReceive (s : State) (p : Nat) (f : List Byte) (good : Bool) (stamp : Time) : State :=
  let x := s.port p
  if x.st = .disabled || !x.link || (x.st = .disabling && decide (x.disAt < stamp)) then s
  else if !good || f.length + 4 < 64 || x.maxLen < f.length + 4 then
    (s.setPort p { x with rxBad := x.rxBad + 1 }).stomp p f
  else s.classify p f stamp

/-- R431, R436: in Rest a monitored port recognises a line stop of the part's own line; the first is kept for the wake. -/
def State.restFrame (s : State) (p : Nat) (f : List Byte) (good : Bool) : State :=
  let h := yzHead f
  if good && bit s.und.linkMon p && etherType f = fld s.yz.etype 0 16 && yzType h = 2 && num h 0 1 % 16 = 1 && num h 4 4 = s.lineId then
    (s.modUnd fun u => { u with stopSeen := u.stopSeen.orElse fun _ => some (yzSrc h, h.getD 14 0, h.getD 15 0) }).watchEvent 0x60
  else s

def execFrameReceive (t : Time) (p : Fin 16) (bytes : List Byte) (good : Bool) (s : State) : Res :=
  liveEvent t s fun s => if s.resting then s.restFrame p bytes good else s.frameReceive p bytes good t

/-! ## Transmit queues (R389) -/

/-- R389: TXQ_CTRL of queue `x` = 4 p + q. -/
def State.txqCtrl (s : State) (x : Nat) (v : Word) : State :=
  let q := s.txq x
  if bit v 0 then
    if !q.en && (s.port (x / 4)).onWire = some (x % 4) then s.setTxq x { q with busyRej := true }
    else s.setTxq x { q with en := true }
  else s.setTxq x { q with en := false, frames := [] }

def txqCtrlOfs (x : Nat) : Nat := portOfs (x / 4) + 0x100 + (x % 4) * 0x10

def execTxqCtrlWrite (t : Time) (_m : Ident) (x : Fin 64) (v : Word) (s : State) : Res :=
  regWrite t (txqCtrlOfs x) s fun s => s.txqCtrl x v

/-! ## Status words (R412, R413) -/

def Port.status (x : Port) : Word :=
  wAt 0 x.st.code ||| flag 2 x.link ||| flag 3 x.linkLost ||| flag 4 x.busyRej ||| flag 5 x.cfgRej

def Stream.status (x : Stream) : Word :=
  wAt 0 x.st.code ||| flag 2 x.busyRej ||| flag 3 x.cfgRej ||| wAt 8 (min 255 x.recs.length) ||| wAt 16 x.drop.toNat

def State.txqStatus (s : State) (x : Nat) : Word :=
  let q := s.txq x
  flag 0 q.busyRej ||| wAt 8 (min 255 q.frames.length) ||| wAt 16 (s.txqRoom 4096 x / 64)

end Sys2Proof.Machine
end

