-- ==== Sys2Proof/Machine/Yazen.lean ====
section
/-! DEFINITION. PTP (R391 to R394) and the Yazen line domain (R395 to R411): the cycle, samples and mirrors, shared slots, line stops,
credits and forwarding. -/

namespace Sys2Proof.Machine

/-! ## PTP -/

def State.modPtp (s : State) (f : Ptp → Ptp) : State := { s with net := { s.net with ptp := f s.net.ptp } }

/-- R391: the engine runs on port `p`; the delay mechanism is peer to peer; the part is master on port `p`. -/
def State.ptpOn (s : State) (p : Nat) : Bool :=
  bit s.net.ptp.ctrl 0 && bit s.net.ptp.ports p && (s.port p).st = .enabled
def Ptp.peer (q : Ptp) : Bool := bit q.ctrl 4 || bit q.ctrl 2
def Ptp.masterOn (q : Ptp) (p : Nat) : Bool :=
  q.role = 1 || (bit q.ctrl 1 && (q.role = 2 || q.role = 3) && q.slavePort.toNat ≠ p)

/-- R391: a message waits at port `p`, by kind: 0 Sync, 1 Announce, 2 a delay or peer delay request, 3 Delay_Resp, 4 Pdelay_Resp. -/
def State.ptpQueue (s : State) (p kind : Nat) : State := s.modPort p fun x => { x with ptpOut := x.ptpOut ++ [kind] }

/-- R394: a map step clears the estimator history of every MIRROR cell. -/
def State.clearMirrors (s : State) : State :=
  (s.axes.cells.map (·.1)).foldl (fun s n =>
    let c := s.cell n
    if c.mode = 7 && c.en && c.est ≠ .lost then (s.putCell n { c.drop .idle s.now with frac := s.fracOf n s.now }).cellChange n .other
    else s) s

/-- R416: an offset in PTP_OFFSET. -/
def satOffset (o : Int) : Word := BitVec.ofInt 32 (max (-2 ^ 31) (min (2 ^ 31 - 1) o))

/-- R394: the lock counts of a Sync. -/
def Ptp.judge (q : Ptp) (o : Int) : Ptp :=
  let good := decide (o.natAbs < ns 100)
  let g := if good then q.good + 1 else 0
  let b := if good then 0 else q.bad + 1
  { q with offset := satOffset o, good := g, bad := b,
           locked := if 16 ≤ g then true else if 4 ≤ b then false else q.locked }

/-- R393, R394: a Sync updates the map: by the whole offset from 1 µs on, else by a new rate from the servo (FREE, log 2). -/
def State.ptpSync (s : State) (p : Nat) (o : Int) : State :=
  let q := s.net.ptp
  if q.role ≠ 2 || q.slavePort.toNat ≠ p then s
  else
    let here := q.line s.now
    let q := q.judge o
    if us 1 ≤ o.natAbs then
      (s.modPtp fun _ => { q with lt0 := here - o, d0 := s.now, stepped := true }).clearMirrors
    else (s.modPtp fun _ => { q with lt0 := here, d0 := s.now, rate := Config.servoRate s.free q.rate o }).draw

/-- R391: an Announce: the best master clock algorithm decides (FREE, log 2); SLAVE_ONLY never masters. -/
def State.ptpAnnounce (s : State) (p : Nat) (data : List Byte) : State :=
  let q := s.net.ptp
  let slaveOnly := bit q.ctrl 3
  let fresh := decide (q.role ≠ 2) || decide (q.slavePort.toNat ≠ p)
  (match Config.bestMaster s.free p data with
   | 0 => s.modPtp fun q => { q with role := 2, slavePort := BitVec.ofNat 4 p, good := if fresh then 0 else q.good,
                                     bad := if fresh then 0 else q.bad, locked := if fresh then false else q.locked }
   | 1 => s.modPtp fun q => { q with role := if slaveOnly then 0 else 1 }
   | 2 => s.modPtp fun q => { q with role := if slaveOnly then 0 else 4 }
   | _ => s).draw

/-- R391 to R394: a received PTP message. -/
def State.ptpRx (s : State) (p : Nat) (msg : PtpMsg) : State :=
  if !s.ptpOn p then s
  else match msg with
    | .sync o => s.ptpSync p o
    | .announce d => s.ptpAnnounce p d
    | .delay => if !s.net.ptp.peer && s.net.ptp.masterOn p then s.ptpQueue p 3 else s
    | .pdelay => if s.net.ptp.peer then s.ptpQueue p 4 else s
    | .management | .unsupported => s.modPtp fun q => { q with discard := q.discard + 1 }

def execPtpMessageRx (t : Time) (p : Fin 16) (msg : PtpMsg) (s : State) : Res := engineEvent t s fun s => s.ptpRx p msg

/-- R391: at its interval the engine sends a message. A clock that hears no master becomes one with its first Announce (log 26). -/
def State.ptpTx (s : State) (p : Nat) (kind : PtpKind) : State :=
  let q := s.net.ptp
  if !s.ptpOn p then s
  else match kind with
    | .delayReq => if q.peer || (q.role = 2 && q.slavePort.toNat = p) then s.ptpQueue p 2 else s
    | .announce =>
      if q.masterOn p then s.ptpQueue p 1
      else if q.role = 0 && !bit q.ctrl 3 then (s.modPtp fun q => { q with role := 1 }).ptpQueue p 1
      else s
    | .sync => if q.masterOn p then s.ptpQueue p 0 else s

def execPtpMessageTx (t : Time) (p : Fin 16) (kind : PtpKind) (s : State) : Res := engineEvent t s fun s => s.ptpTx p kind

/-- R394: the master is lost. -/
def execHoldover (t : Time) (s : State) : Res :=
  engineEvent t s fun s =>
    if bit s.net.ptp.ctrl 0 && s.net.ptp.role = 2 then (s.modPtp fun q => { q with role := 3 }).report 128 else s

/-- R416: PTP_NOW_LO latches line time and device time of one cycle. -/
def ptpOfs : Nat := 0x140800
def State.readPtpNow (s : State) (m : Ident) : Word × State :=
  let l := s.lineNow.toNat
  (loW l, s.latchAll m [(ptpOfs + 0x18, hiW l), (ptpOfs + 0x1C, loW s.now), (ptpOfs + 0x20, hiW s.now)])

def execPtpNowRead (t : Time) (m : Ident) (s : State) : Res := regRead t (ptpOfs + 0x14) s fun s => s.readPtpNow m

/-! ## The Yazen cycle (R398, R407) -/

/-- R398: the cycle that CYCLE_START has begun is the present one. -/
def State.inCycle (s : State) : Bool := s.yz.en && s.yz.cycle = BitVec.ofNat 32 s.cycleNow

/-- R398: cycle `k` is the present one. The cycles between the last one and it have begun too; a number that falls back, by a step of
the map (R394), is one cycle begun (log 58). -/
def Yazen.enter (y : Yazen) (k : Word) : Yazen :=
  let d := (k - y.cycle).toNat
  { y with cycle := k, begun := y.begun + if d < 2 ^ 31 then d else 1 }

/-- R398, R402: a cycle begins; a CREDIT frame goes out on each ring port. -/
def State.cycleStart (s : State) : State :=
  if !s.yz.en || s.inCycle then s
  else
    let s := s.modYz fun y => y.enter (BitVec.ofNat 32 s.cycleNow)
    if s.yz.chain then (s.sendCredit false).sendCredit true else s

def execCycleStart (t : Time) (s : State) : Res := engineEvent t s State.cycleStart

/-- R407: the sample of cell `n`. -/
def State.axisSample (s : State) (n : Nat) : List Byte :=
  let c := s.cell n
  let valid := c.en && c.mode ≠ 0 && !s.held n && !s.frozen n && s.estOf n ≠ .lost
  let count : Int := c.turn.toInt * c.modN + c.phase.toNat
  [BitVec.ofNat 8 n, BitVec.ofNat 8 (b2n valid + 2 * c.dir.toNat + 8 * b2n c.reload)] ++ List.replicate 6 0
    ++ leBytes 8 (BitVec.ofInt 64 count).toNat ++ leBytes 8 (BitVec.ofInt 64 (s.net.ptp.line (c.lastT.getD 0))).toNat

/-- R403: the slots the part owns, ascending. -/
def Yazen.ownList (y : Yazen) : List Nat := (List.range 256).filter fun r => y.owns r

/-- R407: the cells exported, in entry order. -/
def Yazen.exports (y : Yazen) : List Nat :=
  ((List.range 8).filter fun e => bit (tget 0 y.exp e) 0).map fun e => fld (tget 0 y.exp e) 1 6

/-- R398 step 1, R407: exported cells and owned slots are copied. -/
def State.snapshot (s : State) : State :=
  if !s.inCycle || s.yz.snapIn = some s.cycleNow || s.lineNow.toNat + us 1 < s.cycleAt + s.yz.ofs then s
  else
    let y := s.yz
    let cells := y.exports
    let slots := y.ownList
    let body := cells.flatMap (fun n => s.axisSample n)
      ++ slots.flatMap (fun r => BitVec.ofNat 8 r :: List.replicate 7 0 ++ y.slotData r)
    let s := (s.axes.cells.map (·.1)).foldl (fun s n => s.modCell n fun c => { c with reload := false }) s
    s.setYz { y with body := body, nAx := cells.length, nSlot := slots.length, snapIn := some s.cycleNow }

def execSnapshot (t : Time) (s : State) : Res := engineEvent t s State.snapshot

/-- R398 step 2: the CYCLIC frame waits at port `p` for its start; one left from an earlier cycle is dropped (R402). -/
def State.cyclicPut (s : State) (p : Nat) : State :=
  let x := s.port p
  let y := s.yz
  if !y.carries p || (!y.chain && (x.st ≠ .enabled || !x.link)) then s
  else
    let f := s.yzEther p (s.yzHeader 1 255 y.cycle.toNat 0 y.nAx y.nSlot ++ y.body)
    let s := if x.cycOut.isSome then s.modYz fun y => { y with txDrop := y.txDrop + 1 } else s
    s.modPort p fun x => { x with cycOut := some (s.cycleNow, f) }

/-- R398, R399. -/
def State.cyclic (s : State) : State :=
  if !s.inCycle || !s.synced || s.yz.snapIn ≠ some s.cycleNow || s.yz.sentIn = some s.cycleNow
      || s.lineNow.toNat < s.cycleAt + s.yz.ofs then s
  else
    let s := s.modYz fun y => { y with sentIn := some s.cycleNow }
    (List.range 16).foldl State.cyclicPut s

def execCyclic (t : Time) (s : State) : Res := engineEvent t s State.cyclic

/-- R23, R402: the own CYCLIC frame at port `p` has not started by the end of its cycle, in either topology. -/
def State.ownFrameDrop (s : State) (p : Nat) : State :=
  match (s.port p).cycOut with
  | some (k, _) =>
    if k = s.cycleNow then s
    else (s.modPort p fun x => { x with cycOut := none }).modYz fun y => { y with txDrop := y.txDrop + 1 }
  | none => s

def execOwnFrameDrop (t : Time) (p : Fin 16) (s : State) : Res := engineEvent t s fun s => s.ownFrameDrop p

/-! ## Forwarding (R400, R401) -/

/-- R401: a frame that came at `a` has waited 2 × T_CYC. -/
def State.waitedOut (s : State) (a : Time) : Bool := decide (a + 2 * s.tCyc ≤ s.now)

/-- R23, R401: a forwarded frame that takes no credit has waited that long at port `x`. -/
def State.staleOut (s : State) (x : Option Time × List Byte) : Bool := x.1.any s.waitedOut

/-- R23, R401: a forwarded frame that has waited 2 × T_CYC on ring side `b` is dropped, one that takes no credit first. -/
def State.forwardDrop (s : State) (b : Bool) : State :=
  let p := s.yz.portOf b
  if (s.port p).yzOut.any s.staleOut then
    (s.modPort p fun x => { x with yzOut := x.yzOut.eraseP s.staleOut }).modYz fun y => { y with fwdDrop := y.fwdDrop + 1 }
  else match s.yz.fwdOf b with
  | (a, f) :: r =>
    if s.waitedOut a then
      let s := s.modYz fun y => { y.setFwd b r with fwdDrop := y.fwdDrop + 1 }
      if yzType (yzHead f) = 1 then s.freeSlot (!b) else s
    else s
  | [] => s

def execForwardDrop (t : Time) (ringB : Bool) (s : State) : Res := engineEvent t s fun s => s.forwardDrop ringB

/-- R400 to R402: a frame received on port `p` at `at_` goes on to the other ring port; the slot of one that does not is free. -/
def State.yzForward (s : State) (p : Nat) (at_ : Time) (f : List Byte) : State :=
  match s.yz.ring p with
  | none => s
  | some b =>
    let type := yzType (yzHead f)
    if s.forwards f then
      if type = 2 then s.yzSend (s.yz.portOf (!b)) (some at_) (hopped f)
      else if 16 ≤ (s.yz.fwdOf (!b)).length then
        let s := s.modYz fun y => { y with fwdDrop := y.fwdDrop + 1 }
        if type = 1 then s.freeSlot b else s
      else s.modYz fun y => y.setFwd (!b) (y.fwdOf (!b) ++ [(at_, hopped f)])
    else if type = 1 then s.freeSlot b else s

/-! ## Samples and mirrors (R53 to R55, R408) -/

/-- A received sample. -/
structure AxisSample where
  cell : Nat := 0
  valid : Bool := false
  reload : Bool := false
  dir : Nat := 0
  count : BitVec 64 := 0
  step : BitVec 64 := 0
  deriving DecidableEq, Repr

/-- R396: sample `i` of a CYCLIC frame, whose Yazen header begins `h`. -/
def sampleOf (h : List Byte) (i : Nat) : AxisSample :=
  let b := slice h (16 + 24 * i) 24
  let f := b.getD 1 0
  { cell := num b 0 1 % 64, valid := f.getLsbD 0, reload := f.getLsbD 3, dir := f.toNat / 2 % 4,
    count := BitVec.ofNat 64 (num b 8 8), step := BitVec.ofNat 64 (num b 16 8) }

/-- R53, R54, R408: mirror `n` applies a sample. Its place in the samples' own coordinate is `mirOdo`; the reported position steps
to it, or holds where it has run ahead of it. -/
def State.mirrorSample (s : State) (n : Nat) (x : AxisSample) : State × List StepEv :=
  let c := s.cell n
  if !x.valid then (s, [])
  else
    let prev := if x.reload then none else c.mirPrev
    let c := { c with mirLast := s.now, mirPrev := some x.count, mirOut := false }
    let stamp := s.net.ptp.device x.step s.now
    match prev with
    | none =>
      let v : Int := x.count.toInt + c.ofs.toInt
      let m : Int := c.modN
      ((((s.setCell n { c with mirOdo := c.odo }).loadCell n (BitVec.ofInt 48 (v / m)) (BitVec.ofInt 32 (v % m))).2.reseedAt n
        { time := stamp, pos2 := 2 * c.odo + (if x.dir = 1 then 2 else 0) }), [])
    | some p =>
      let d0 := (x.count - p).toInt
      let d := if c.dirInv then -d0 else d0
      if d = 0 then
        ((s.setCell n c).reseedAt n { time := stamp, pos2 := 2 * c.mirOdo + (if x.dir = 1 then 2 else 0) }, [])
      else if s.held n then (s.setCell n c, [])
      else
        let fwd := decide (0 < d)
        let line := c.mirOdo + d
        let c := { c with mirOdo := line }
        let smp : Int := if fwd then 2 * line else 2 * line + 2
        if s.frozen n then (s.setCell n c).stepCell 64 n d stamp (some smp)
        else
          let k := line - c.odo
          if (fwd && decide (0 < k)) || (!fwd && decide (k < 0)) then (s.setCell n c).stepCell 64 n k stamp (some smp)
          else ((s.putCell n { (c.sample fwd { time := stamp, pos2 := smp }) with dir := if fwd then 0 else 1 }).cellChange n .other, [])

/-- R408: the mirrors that take a sample of node `src`. -/
def State.mirrorsOf (s : State) (src cell : Nat) : List Nat :=
  (s.axes.cells.map (·.1)).filter fun n =>
    let c := s.cell n
    c.mode = 7 && c.en && fld c.mirrorSrc 0 10 = src && fld c.mirrorSrc 10 6 = cell

/-- R398 step 3: the samples of a frame are applied in one cycle. -/
def State.applySamples (s : State) (src : Nat) (l : List AxisSample) : State :=
  let (s, evs) := l.foldl (fun p x =>
    (p.1.mirrorsOf src x.cell).foldl (fun p n =>
      let (s, e) := p.1.mirrorSample n x
      (s, p.2 ++ e)) p) (s, [])
  s.react evs

/-- R404: a slot arrives from node `src`, in the present cycle whatever the frame's CYCLE (R149). -/
def Yazen.slotRx (y : Yazen) (src r : Nat) (data : List Byte) : Yazen :=
  let c := tget {} y.slots r
  if c.seen && decide (c.node < src) && decide (y.begun - c.cycle ≤ 2) then { y with slotConflict := true }
  else { y with slots := tput {} y.slots r { data := data, node := src, cycle := y.begun, seen := true } }

/-! ## Receiving (R397, R402, R406) -/

/-- R397, R398, R404: a CYCLIC frame of the part's own line. -/
def State.cyclicRx (s : State) (h : List Byte) : State :=
  let src := yzSrc h
  let k := num h 8 4
  let own := !s.yz.chain && src = s.node
  let s := if own then (s.modYz fun y => { y with dupNode := true }).report 129 else s
  let y := s.yz
  let now := y.cycle.toNat
  let before := (y.cycle - 1).toNat
  if !s.synced || !bit (tget 0 y.sub (src / 32)) (src % 32) then s
  else if k ≠ now && k ≠ before then s.setYz { y with lateRx := y.lateRx + 1 }
  else if y.seenCyc.contains (src, k) then s.setYz { y with dup := y.dup + 1 }
  else
    let seen := (src, k) :: y.seenCyc.filter fun p => p.2 = now || p.2 = before
    let s := s.setYz { y with seenCyc := seen, rxOk := y.rxOk + 1 }
    let nAx := min 8 (num h 14 1 % 16)
    let s := s.applySamples src ((List.range nAx).map (sampleOf h))
    let slots := (List.range (min 16 (num h 15 1))).map fun i => slice h (16 + 24 * nAx + 72 * i) 72
    let s := slots.foldl (fun s b => s.modYz fun y => y.slotRx src (num b 0 1) (b.drop 8)) s
    s.cicEdge 676

/-- R397, R406: a LINE_STOP frame of the part's own line. Of one source, the sequence numbers of the latest 128 are kept. -/
def State.lineStopRx (s : State) (h : List Byte) : State :=
  let src := yzSrc h
  let seq := num h 15 1
  let y := s.yz
  if y.seenStop.contains (src, seq) then s.setYz { y with dup := y.dup + 1 }
  else
    let seen := (src, seq) :: y.seenStop.filter fun p => p.1 ≠ src || decide ((seq + 256 - p.2) % 256 < 128)
    (s.setYz { y with seenStop := seen, rxOk := y.rxOk + 1,
                      stopRx := wAt 0 src ||| wAt 16 (num h 14 1) ||| wAt 24 seq }).report 130

/-- R402: a CREDIT frame received on port `p`. -/
def State.creditRx (s : State) (p : Nat) (h : List Byte) : State :=
  let v := BitVec.ofNat 16 (num h 12 2)
  s.modYz fun y =>
    let y := { y with rxOk := y.rxOk + 1 }
    match y.ring p with
    | some true => { y with creditB := min 16 (y.creditB + (v - y.heardB).toNat), heardB := v }
    | some false => { y with creditA := min 16 (y.creditA + (v - y.heardA).toNat), heardA := v }
    | none => y

/-- R397, R400: the oldest frame handed to the engine. -/
def State.yazenRx (s : State) : State :=
  match s.yz.inbox with
  | [] => s
  | (p, a, f) :: r =>
    let h := yzHead f
    let type := yzType h
    let s := (s.modYz fun y => { y with inbox := r }).yzForward p a f
    if num h 0 1 % 16 ≠ 1 || type = 0 || 3 < type then s.modYz fun y => { y with bad := y.bad + 1 }
    else if num h 4 4 ≠ s.lineId then s.modYz fun y => { y with foreign := y.foreign + 1 }
    else if type = 1 then s.cyclicRx h
    else if type = 2 then s.lineStopRx h
    else s.creditRx p h

def execYazenFrameRx (t : Time) (s : State) : Res := engineEvent t s State.yazenRx

/-! ## Line stop (R405) -/

/-- One LINE_STOP frame on every Yazen port. -/
def State.stopFrames (s : State) (seq reason : Byte) : State :=
  (List.range 16).foldl (fun s p =>
    if s.yz.carries p then s.yzSend p none (s.yzEther p (s.yzHeader 2 255 0 0 reason.toNat seq.toNat)) else s) s

/-- R405: a line stop: three frames of one sequence, the first now. In the cycle of a safe-state entry it sends no second one
(R411). -/
def State.lineStop (s : State) (reason : Byte) : State :=
  let y := s.yz
  if !y.en || (y.stops.any fun x => x.2.2.1 = 1 && cyc x.2.2.2 = cyc s.now) then s
  else
    let q := y.stopSeq + 1
    (s.setYz { y with stopSeq := q, stops := y.stops ++ [(2, q, reason, s.now)] }).stopFrames q reason

/-- R405: the REASON codes that are reserved. -/
def stopReserved (r : Nat) : Bool := decide (2 ≤ r) && decide (r < 0x80)

/-- R7, R405: a write of YZ_STOP. Without GO a reserved REASON has the write ignored. With GO, REASON 0x01 and the reserved ones go out
as 0x00; both set CFG_REJ. REASON keeps what a GO write holds (log 58). -/
def State.stopWrite (s : State) (v : Word) : State :=
  let r := fld v 0 8
  if !bit v 8 then
    if stopReserved r then s.modYz fun y => { y with cfgRej := true } else s.modYz fun y => { y with stop := wAt 0 r }
  else
    let s := s.modYz fun y => { y with stop := wAt 0 r }
    if r = 1 || stopReserved r then (s.modYz fun y => { y with cfgRej := true }).lineStop 0
    else s.lineStop (BitVec.ofNat 8 r)

def yzOfs : Nat := 0x140000

def execLineStop (t : Time) (_m : Ident) (v : Word) (s : State) : Res := regWrite t (yzOfs + 0x1A0) s fun s => s.stopWrite v

/-- R405: a line stop waits for its next copy, due 10 µs after the one before. -/
def stopWaits (now : Time) (x : Nat × Byte × Byte × Time) : Bool := decide (now < x.2.2.2 + us 10 * (3 - x.1))

/-- R405: the next copy of the oldest line stop that has one due. -/
def State.stopRepeat (s : State) : State :=
  let w := s.yz.stops.takeWhile (stopWaits s.now)
  match s.yz.stops.dropWhile (stopWaits s.now) with
  | (n, q, r, a) :: l =>
    let s := s.modYz fun y => { y with stops := w ++ if n ≤ 1 then l else (n - 1, q, r, a) :: l }
    if s.yz.en then s.stopFrames q r else s
  | [] => s

def execLineStopRepeat (t : Time) (s : State) : Res := engineEvent t s State.stopRepeat

/-- YZ_STATUS (R415). -/
def State.yzStatus (s : State) : Word :=
  flag 0 (!s.synced) ||| flag 1 s.yz.dupNode ||| flag 2 s.yz.slotConflict ||| flag 3 s.yz.cfgRej

end Sys2Proof.Machine
end

