-- ==== Sys2Proof/Machine/Faults.lean ====
section
/-! DEFINITION. The fault collector (R478 to R496): what it samples, what it records, its reactions, the safe state and the test key. -/

namespace Sys2Proof.Machine

def fcOfs : Nat := 0xF0000

def State.modFc (s : State) (f : Fc → Fc) : State := { s with fc := f s.fc }

/-! ## Recording (R484 to R488) -/

/-- R484: an event, with the severity recorded and the reaction applied. -/
structure FcEvent where
  src : Nat := 0
  sev : Nat := 0
  react : Nat := 0
  dom : Nat := 0
  wire : Bool := false
  forced : Bool := false
  deriving DecidableEq, Repr

/-- R484: the event of source `i`; a wire fault records SEVERE at least. -/
def State.fcEvent (s : State) (i : Nat) (wire forced : Bool) : FcEvent :=
  let x := s.fcSrc i
  { src := i, sev := if wire then max 2 x.sev.toNat else x.sev.toNat, react := x.react.toNat, dom := x.dom.toNat,
    wire := wire, forced := forced }

/-- R487: `a` is recorded before `b`. -/
def FcEvent.before (a b : FcEvent) : Bool := decide (b.sev < a.sev) || (a.sev = b.sev && decide (a.src ≤ b.src))

/-- Insert an event at its place. -/
def insertEvent (e : FcEvent) : List FcEvent → List FcEvent
  | [] => [e]
  | x :: r => if e.before x then e :: x :: r else x :: insertEvent e r

/-- R487: the events of one cycle in the order they are recorded. -/
def sortEvents : List FcEvent → List FcEvent
  | [] => []
  | e :: r => insertEvent e (sortEvents r)

/-- R486: the trail entry of an event: number `n`, position `k` in its cycle. -/
def FcEvent.entry (e : FcEvent) (n : Word) (k : Nat) (simul : Bool) (t : Time) : TrailEnt :=
  { w0 := wAt 0 e.src ||| wAt 8 e.sev ||| wAt 10 e.react ||| flag 13 simul ||| flag 14 e.wire ||| flag 15 e.forced
      ||| wAt 16 (n.toNat % 65536),
    w1 := wAt 0 (if e.react = 2 then e.dom else 0) ||| wAt 8 k,
    time := t }

/-- R480: severity `v` has an MSI-X vector for an entry whose reaction signals. -/
def State.fcNotify (s : State) (e : FcEvent) : State :=
  let w := tget 0 s.fc.vecs e.sev
  if 1 ≤ e.react && e.react ≤ 4 && bit w 11 then s.msixNotify (fld w 0 11) else s

/-- R486, R488: write entries in their order, from position `k`. -/
def State.fcWrite (s : State) (simul : Bool) : Nat → List FcEvent → State
  | _, [] => s
  | k, e :: r =>
    let ent := e.entry s.fc.seq k simul (cyc s.now * 8)
    let s := s.modFc fun f =>
      { f with trail := tput {} f.trail (f.seq.toNat % 32) ent, seq := f.seq + 1, first := f.first.orElse fun _ => some ent }
    (s.fcNotify e).fcWrite simul (k + 1) r

/-- R485: one event is counted. -/
def State.fcCount (s : State) (e : FcEvent) : State :=
  let x := s.fcSrc e.src
  s.setFcSrc e.src { x with cnt := satInc x.cnt }

/-- R485, R491: an event that is recorded: its latch bit is 0, or it is source 255. -/
def State.fcNew (s : State) (e : FcEvent) : Bool := !s.fc.latch.getLsbD e.src || e.src = 255

/-- R485 to R488: the events of one cycle, in the order of R487, are counted and recorded; at most 32 entries are written. -/
def State.fcRecord (s : State) (evs : List FcEvent) : State :=
  let new := evs.filter s.fcNew
  let s := evs.foldl State.fcCount s
  let s := s.fcWrite (decide (2 ≤ (new.take 32).length)) 0 (new.take 32)
  new.foldl (fun s e => s.modFc fun f =>
    { f with latch := f.latch ||| BitVec.ofNat 256 (1 <<< e.src), recSev := tput 0 f.recSev e.src e.sev })
    (s.modFc fun f => { f with overCnt := f.overCnt + BitVec.ofNat 32 (new.drop 32).length })

/-! ## The safe state (R491, R492) -/

/-- R491: the safe state is entered in the cycle after its cause; a second cause does nothing more (R492). R495: where an EXIT has been
accepted in the cycle of the cause, SAFE stays set. -/
def State.safeGo (s : State) : State :=
  if s.fc.safe then s
  else if s.fc.exitAt = some (cyc s.now) then s.modFc fun f => { f with safe := true }
  else
    let t := (cyc s.now + 1) * 8
    let s := (s.modFc fun f => { f with safe := true, safeT := t }).safeRest t
    let s := s.haltAll
    ((List.range pinCount).foldl State.dropEdges s).lineStop 1

/-- R479, R495: the reactions of events: domain stops, then the safe state, then one function-wide reset. -/
def State.fcReact (s : State) (evs : List FcEvent) : State :=
  let s := evs.foldl (fun s e => if e.react = 2 then s.haltDomain e.dom else s) s
  let s := if evs.any (·.react = 3) then (s.modFc fun f => { f with causeAt := some (cyc s.now) }).safeGo else s
  if evs.any (·.react = 4) then s.functionReset 5 (us 2) else s

/-- Events are recorded, then act; FAULT_N follows. -/
def State.fcEvents (s : State) (evs : List FcEvent) : State := ((s.fcRecord evs).fcReact evs).setFaultN

/-! ## Sampling (R483, R484, R490) -/

/-- R490: the pair of source `i` is forced. -/
def Fc.forced (f : Fc) (i : Nat) : Bool := f.test && f.force.getLsbD i

/-- R483, R490: the sample of source `i`'s pair is non-complementary; `wires` are the lines whose own sample is. -/
def Fc.nonComp (f : Fc) (wires : List Nat) (i : Nat) : Bool :=
  !fcReserved i && (if f.forced i then f.wireTest else wires.contains i)

/-- R483: the pair of source `i` is in a wire fault at the sample of cycle `now`: its sample has been non-complementary since an earlier
cycle. -/
def Fc.wired (f : Fc) (wires : List Nat) (now i : Nat) : Bool :=
  f.nonComp wires i && (f.wireNow.getLsbD i || (tget none f.odd i).any fun k => decide (k < now))

/-- R483: the pair reports source `i`. -/
def Fc.reports (f : Fc) (i : Nat) : Bool := !fcReserved i && (f.forced i || f.raised.getLsbD i || f.level.getLsbD i)

/-- R484: the event of source `i` at this sample, if there is one. R483: the first non-complementary sample leaves the pair as it was. -/
def State.fcJudge (s : State) (wires : List Nat) (i : Nat) : Option FcEvent :=
  let f := s.fc
  if f.wired wires (cyc s.now) i then (if f.wireNow.getLsbD i then none else some (s.fcEvent i true (f.forced i)))
  else if f.nonComp wires i then none
  else if f.reports i && !f.live.getLsbD i then some (s.fcEvent i false (f.forced i))
  else none

/-- The 256-bit word of the sources that satisfy a test. -/
def bits256 (p : Nat → Bool) : BitVec 256 := BitVec.ofNat 256 (((List.range 256).map fun i => if p i then 2 ^ i else 0).sum)

/-- R483: the pairs whose sample is non-complementary, with the cycle since which it is. -/
def Fc.oddNow (f : Fc) (wires : List Nat) (now : Nat) : Tab (Option Nat) :=
  (List.range 254).filterMap fun i => if f.nonComp wires i then some (i, some ((tget none f.odd i).getD now)) else none

/-- R483 to R491: one sample of every pair; a report of one cycle is over after it, or waits for a complementary sample (log 39). -/
def State.fcSample (s : State) (wires : List Nat) : State :=
  let f := s.fc
  let now := cyc s.now
  let evs := sortEvents ((List.range 254).filterMap (s.fcJudge wires))
  let w := bits256 (f.wired wires now)
  let live := bits256 fun i => f.wired wires now i || (if f.nonComp wires i then f.live.getLsbD i
    else !fcReserved i && (f.forced i || f.level.getLsbD i))
  (s.modFc fun f => { f with odd := f.oddNow wires now, wireNow := w, wire := f.wire ||| w, live := live,
                             raised := f.raised &&& bits256 (f.nonComp wires) }).fcEvents evs

def execFaultEvent (t : Time) (wires : List (Fin 254)) (s : State) : Res :=
  engineEvent t s fun s => s.fcSample (wires.map (·.val))

/-- R491: source 255 is recorded whatever its latch holds, and sets SELF. -/
def execParityError (t : Time) (s : State) : Res :=
  engineEvent t s fun s => (s.modFc fun f => { f with self := true }).fcEvents [s.fcEvent 255 false false]

/-! ## FC_SAFE (R493) -/

/-- R493: the checks of an EXIT, in order; SAFE is set in the cycle after its cause (R491). -/
def State.exitJudge (s : State) : Nat :=
  if !s.fc.safe || decide (s.now < s.fc.safeT) then cWrongState
  else if s.fc.self then cNotPermitted
  else if s.chans.any fun p => p.2.st = .haltPending then cBusy
  else if (List.range 254).any fun i => s.fc.live.getLsbD i && (s.fcSrc i).react = 3 then cWrongState
  else cOk

/-- R493: an FC_SAFE write. R495: an accepted EXIT leaves SAFE set where an event of its cycle has reaction 3. -/
def State.fcSafe (s : State) (v : Word) : State :=
  let res := fun (s : State) (r : Nat) => s.modFc fun f => { f with result := BitVec.ofNat 16 r }
  if fld v 16 16 ≠ 0x5AFE || fld v 2 14 ≠ 0 || bit v 0 == bit v 1 then res s cInvalid
  else if bit v 1 then (res s cOk).fcEvents [s.fcEvent 254 false false]
  else
    let r := s.exitJudge
    let s := res s r
    if r = cOk && s.fc.causeAt ≠ some (cyc s.now) then
      (s.modFc fun f => { f with safe := false, exitAt := some (cyc s.now) }).setFaultN
    else s

def execSafeEnter (t : Time) (_m : Ident) (v : Word) (s : State) : Res :=
  regWrite t (fcOfs + 0xC) s fun s => s.fcSafe (v ||| 2)
def execSafeExit (t : Time) (_m : Ident) (v : Word) (s : State) : Res :=
  regWrite t (fcOfs + 0xC) s fun s => s.fcSafe (v ||| 1)

/-! ## Test key and lock (R482, R489) -/

/-- R489: a write of FC_TKEY. -/
def State.fcTkey (s : State) (m : Ident) (v : Word) : State :=
  if v = 0xA5F0 then s.modFc fun f => { f with half := some (m, s.now) }
  else match s.fc.half with
    | some (m', t) =>
      if v = 0x0F5A && m = m' && decide (s.now ≤ t + us 1) then
        s.modFc fun f => { f with half := none, test := f.test || s.lws.svc }
      else s.lockKey
    | none => s.lockKey

def execFcTkeyWrite (t : Time) (m : Ident) (v : Word) (s : State) : Res :=
  regWrite t (fcOfs + 0x20) s fun s => s.fcTkey m v

/-- R482. -/
def State.fcLock (s : State) (v : Word) : State := if bit v 0 then s.modFc fun f => { f with locked := true } else s

def execFcLock (t : Time) (_m : Ident) (v : Word) (s : State) : Res := regWrite t (fcOfs + 4) s fun s => s.fcLock v

/-! ## FC_FIRST, the trail and the entry time (R486, R488, R491) -/

/-- R488: FC_FIRST_CTL.CLR. -/
def State.fcFirstClr (s : State) (v : Word) : State := if bit v 1 then s.modFc fun f => { f with first := none } else s

def execFcFirstClr (t : Time) (_m : Ident) (v : Word) (s : State) : Res :=
  regWrite t (fcOfs + 0x110) s fun s => s.fcFirstClr v

/-- Word 0 of an entry, which latches words 1 to 3 at `ofs` + 4 on (R13, R486). -/
def State.readEntry (s : State) (m : Ident) (ofs : Nat) (e : TrailEnt) : Word × State :=
  (e.w0, s.latchAll m [(ofs + 4, e.w1), (ofs + 8, loW e.time), (ofs + 12, hiW e.time)])

def State.readFirst (s : State) (m : Ident) : Word × State := s.readEntry m (fcOfs + 0x100) (s.fc.first.getD {})

def execFcFirstRead (t : Time) (m : Ident) (s : State) : Res := regRead t (fcOfs + 0x100) s fun s => s.readFirst m

def trailOfs (r : Nat) : Nat := fcOfs + 0x800 + r * 0x10
def State.readTrail (s : State) (m : Ident) (r : Nat) : Word × State := s.readEntry m (trailOfs r) (tget {} s.fc.trail r)

def execFcTrailRead (t : Time) (m : Ident) (r : Fin 32) (s : State) : Res := regRead t (trailOfs r) s fun s => s.readTrail m r

def State.readSafeT (s : State) (m : Ident) : Word × State := (loW s.fc.safeT, s.latch m (fcOfs + 0x1C) (hiW s.fc.safeT))

def execFcSafeTRead (t : Time) (m : Ident) (s : State) : Res := regRead t (fcOfs + 0x18) s fun s => s.readSafeT m

/-! ## Collector registers (R479, R481, R482, R490, R496) -/

def State.fcReject (s : State) : State := s.modFc fun f => { f with cfgRej := true }

/-- R482: a write of FC_CTRL. -/
def State.fcCtrl (s : State) (v : Word) : State :=
  if s.fc.locked then s.fcReject else (s.modFc fun f => { f with pinSev := BitVec.ofNat 2 (fld v 0 2) }).setFaultN

def State.fcVec (s : State) (i : Nat) (v : Word) : State :=
  if s.fc.locked then s.fcReject else s.modFc fun f => { f with vecs := tput 0 f.vecs i (v &&& 0xFFF) }

/-- R478, R479, R482: a write of FC_SRC clears CNT; SEV and REACT of 254 and 255 are fixed. -/
def State.fcSrcWrite (s : State) (i : Nat) (v : Word) : State :=
  if s.fc.locked || fcReserved i || (i < 254 && 5 ≤ fld v 2 3) then s.fcReject
  else
    let x := s.fcSrc i
    let dom := BitVec.ofNat 8 (fld v 8 8)
    s.setFcSrc i (if 254 ≤ i then { x with dom := dom, cnt := 0 }
                  else { sev := BitVec.ofNat 2 (fld v 0 2), react := BitVec.ofNat 3 (fld v 2 3), dom := dom, cnt := 0 })

/-- Put word `w` of a 256-bit group. -/
def setGroup (g : BitVec 256) (w : Nat) (v : Word) : BitVec 256 :=
  (g &&& ~~~ BitVec.ofNat 256 (0xFFFFFFFF <<< (32 * w))) ||| BitVec.ofNat 256 (v.toNat <<< (32 * w))
def getGroup (g : BitVec 256) (w : Nat) : Word := BitVec.ofNat 32 (g.toNat >>> (32 * w))

/-- R490: FC_FORCE; the bits of reserved sources, of 254 and of 255 force nothing. -/
def State.fcForce (s : State) (w : Nat) (v : Word) : State :=
  if s.fc.test then s.modFc fun f => { f with force := setGroup f.force w v } else s.fcReject

def State.fcTest (s : State) (v : Word) : State :=
  if s.fc.test then s.modFc fun f => { f with wireTest := bit v 0 } else s.fcReject

/-- R480, R485: FC_LATCH is W1C. -/
def State.fcLatch (s : State) (w : Nat) (v : Word) : State :=
  let cleared := (ones v).map (· + 32 * w)
  (s.modFc fun f => { f with latch := setGroup f.latch w (getGroup f.latch w &&& ~~~v),
                             recSev := f.recSev.filter fun p => !cleared.contains p.1 }).setFaultN

/-- FC_STATUS and FC_SRC (R496). -/
def Fc.status (f : Fc) : Word :=
  flag 0 f.safe ||| flag 1 f.self ||| flag 2 f.faultN ||| flag 3 f.cfgRej ||| flag 4 f.test ||| wAt 16 f.result.toNat
def State.fcSrcWord (s : State) (i : Nat) : Word :=
  if fcReserved i then 0
  else
    let x := s.fcSrc i
    wAt 0 x.sev.toNat ||| wAt 2 x.react.toNat ||| wAt 8 x.dom.toNat ||| wAt 16 x.cnt.toNat

end Sys2Proof.Machine
end

