-- ==== Sys2Proof/Machine/Fence.lean ====
section
/-! DEFINITION. The events of the fences (R352, R355, R357) and the edge times of an output unit (R374). -/

namespace Sys2Proof.Machine

/-- R352: the pin has been on for MAX_ON; the forced rest falls exactly at that instant. -/
def State.maxOnRest (s : State) (u : Nat) : State :=
  match (s.pin u).onSince with
  | some a => if s.maxOn u ≠ 0 && decide (a + s.maxOn u ≤ s.now) then s.forceRest u 8 (a + s.maxOn u) else s
  | none => s

def execMaxOn (t : Time) (u : Fin 128) (s : State) : Res := liveEvent t s fun s => s.maxOnRest u

/-- R352, R358: the on-time in the duty window reaches the limit. -/
def State.dutyRest (s : State) (u : Nat) : State :=
  match s.dutyDue u s.now with
  | some x => s.forceRest u 9 x
  | none => s

def execDuty (t : Time) (u : Fin 128) (s : State) : Res := liveEvent t s fun s => s.dutyRest u

/-- R355, R435: up to instant `t` the pin of permit input `i` has stood as it stands: held for FILT microseconds, its level is accepted. -/
def State.permitQual (s : State) (i : Nat) (t : Time) : State :=
  let x := s.permitIn i
  let on := x.raw == s.permitHigh i
  let at_ := x.rawT + s.permitFilt i
  if t < at_ || (x.seen && x.level = x.raw) then s
  else
    let s := s.permitAccept i x.raw on at_
    if on = x.accepted then s else s.watchEvent (if on then 0x58 + i else 0x50 + i)

/-- R355: the pin of permit input `i` changes to `v` at instant `t`. -/
def State.permitEdge (s : State) (i : Nat) (t : Time) (v : Bool) : State :=
  let s := s.permitQual i t
  let x := s.permitIn i
  if x.raw = v then s else s.setPermitIn i { x with raw := v, rawT := t }

/-- R355, R435: transitions of permit input `i` (instant and new level, oldest first), and what has been accepted since. -/
def execPermit (t : Time) (i : Fin 8) (raw : List (Time × Bool)) (s : State) : Res :=
  liveEvent t s fun s => (raw.foldl (fun s p => s.permitEdge i (min p.1 s.now) p.2) s).permitQual i s.now

/-- R357: a window of the edge budgets begins. -/
def execBudgetWindowStart (t : Time) (s : State) : Res := liveEvent t s fun s => s.openWindow s.now

def ouOfs (u : Nat) : Nat := 0xA0000 + u * 0x20

/-- R374: OU_EDGE_LO is the RL word of the edge and clamp times. -/
def State.readOuEdge (s : State) (m : Ident) (u : Nat) : Word × State :=
  let o := s.ou u
  (loW o.edgeT, s.latchAll m [(ouOfs u + 0xC, hiW o.edgeT), (ouOfs u + 0x10, loW o.clampT), (ouOfs u + 0x14, hiW o.clampT)])

def execOuEdgeRead (t : Time) (m : Ident) (u : Fin 128) (s : State) : Res :=
  regRead t (ouOfs u + 8) s fun s => s.readOuEdge m u

/-- R374: OU_LIVE: the budget left, and the on-time in the duty window in units of 4 µs. -/
def State.ouLive (s : State) (u : Nat) : Word :=
  wAt 0 (s.budget u) ||| wAt 16 (min 0xFFFF ((s.pin u).onTime (s.dutyWin u) s.now / us 4))

end Sys2Proof.Machine
end

