-- ==== Sys2Proof/Machine/Startup.lean ====
section
/-! DEFINITION. Supply and temperature monitors, resets, boot, the boot key fuses and the PCIe link (15_startup_life.md,
17_electrical_package.md). -/

namespace Sys2Proof.Machine

/-! ## Monitors (R536, R537) -/

/-- R533, R536: a rail has stayed outside its operating range for 200 ns: VDD or VDDM (`none`), or another one, with the banks whose rails
lie above 2.5 V then. The collector is stopped in Rest (R431). -/
def State.excursion (s : State) (rail : Option (BitVec 8)) : State :=
  let s := { s with outs := { s.outs with bank33 := rail.getD s.outs.bank33 } }
  if s.resting then s else s.report (if rail.isNone then 162 else 163)

def execSupplyExcursion (t : Time) (rail : Option (BitVec 8)) (s : State) : Res :=
  liveEvent t s fun s => s.excursion rail

/-- R537: source 160 for the limit of the grade, 161 for 10 °C above it. -/
def execTemperatureThreshold (t : Time) (upper above : Bool) (s : State) : Res :=
  .next ((s.arrive t).holdSrc (if upper then 161 else 160) above)

/-! ## What the service port still owes (R517) -/

/-- R517: a COMMIT frame that waited is answered with LWS_STATUS, a FUSE frame with BOOT_FUSE_STAT. -/
def State.payCommit (s : State) : State :=
  if s.svc.owesCommit then ({ s with svc := { s.svc with owesCommit := false } }).emit (.svc s.lws.result [s.lws.status]) else s

/-! ## Power-on reset and RESET_N (R497 to R500) -/

/-- R497, R499: the part stands in power-on reset; a commit cut short leaves its slot SPOILED and its record PENDING. -/
def State.powerDown (s : State) : State :=
  let b := s.bare
  { b with rst := { b.rst with por := true, cause := 1 } }

def execPowerOnReset (t : Time) (s : State) : Res := .next (s.arrive t).powerDown

/-- R498: device time starts from 0; the banks' supplies are judged (R375). -/
def execPowerOnRelease (t : Time) (bank33 : BitVec 8) (s : State) : Res :=
  let s := s.arrive t
  .next (if s.rst.por then ({ s with now := 0, outs := { s.outs with bank33 := bank33 } }).startUp else s)

/-- R500: RESET_N has reset the part, and its bit of RST_CAUSE is set. -/
def State.pinReset (s : State) : State :=
  let b := s.bare
  ({ b with rst := { b.rst with cause := b.rst.cause ||| 2 } }).startUp

/-- R500, R505: RESET_N has been low for `width`. A commit in progress runs to its end while the part is held. -/
def State.resetPin (s : State) (width : Nat) : State :=
  if s.dead || width < ns 100 then s
  else
    let s' := if us 1 ≤ width then s else s.draw
    if width < us 1 && !Config.resetPulse s.free width then s'
    else if s.lws.commit.isSome then
      let b := s'.bare
      { b with lws := { b.lws with commit := s.lws.commit }, rst := { b.rst with resetN := true, resetHeld := true } }
    else s'.pinReset

def execResetN (t : Time) (width : Nat) (s : State) : Res := .next ((s.arrive t).resetPin width)

/-- R368, R505: the end of a commit; a RESET_N that waited for it acts. -/
def State.commitEnd (s : State) (ok : Bool) : State :=
  if s.lws.commit.isNone then s
  else if s.rst.resetHeld then (s.lwsFinish ok).pinReset
  else if s.dead then s
  else (s.lwsFinish ok).payCommit

def execCommitComplete (t : Time) (readBack : Bool) (s : State) : Res := .next ((s.arrive t).commitEnd readBack)

/-! ## Function-wide resets (R500 to R503) -/

/-- R500: PERST_N low resets the part for as long as it is low, the link and configuration space too. -/
def State.perst (s : State) (high : Bool) : State :=
  if high then
    if !s.rst.perst then s
    else if s.dead then { s with rst := { s.rst with perst := false } }
    else { s with rst := { s.rst with perst := false, readyAt := max s.rst.readyAt (s.now + us 1) } }
  else if s.rst.perst then s
  else if s.dead then { s with rst := { s.rst with perst := true } }
  else
    let s := s.functionReset 2 0
    { s with rst := { s.rst with perst := true }, irq := {}, movers := {} }

def execPerstN (t : Time) (level : Bool) (s : State) : Res := .next ((s.arrive t).perst level)

/-- R500, R502, R506: FLR; Bus Master Enable, MSI-X Enable, Function Mask, MRRS and the timeout return to their reset values. -/
def State.flr (s : State) : State :=
  if s.rst.perst then s
  else
    let s := s.functionReset 3 (us 10)
    { s with irq := { link := s.irq.link }, movers := { pcie := (s.movers.pcie &&& 7) ||| 0x20 } }

def execFlr (t : Time) (s : State) : Res := liveEvent t s State.flr

/-- R520: FUNC_RESET. -/
def State.funcReset (s : State) (v : Word) : State :=
  if bit v 0 && fld v 16 16 = 0xC1EA then s.functionReset 4 (us 2) else s

def execFuncReset (t : Time) (_m : Ident) (v : Word) (s : State) : Res := regWrite t 0x1004 s fun s => s.funcReset v

/-- The part releases core 0 at its CORE_RESETVEC. -/
def State.releaseCore0 (s : State) : State := if (s.core 0).st = .inReset then s.coreGo 0 else s

/-- R503: the reset is ready. -/
def State.resetReady (s : State) : State :=
  if s.rst.busy && !s.rst.perst && decide (s.rst.readyAt ≤ s.now) then
    let s := { s with rst := { s.rst with busy := false } }
    if s.boot.st = 4 then s.releaseCore0 else s
  else s

def execFunctionResetReady (t : Time) (s : State) : Res := liveEvent t s State.resetReady

/-- R520: DEVTIME_LO latches the high word. -/
def State.readDevtime (s : State) (m : Ident) : Word × State := (loW s.now, s.latch m 0x1014 (hiW s.now))

def execDevtimeRead (t : Time) (m : Ident) (s : State) : Res := regRead t 0x1010 s fun s => s.readDevtime m

/-! ## Boot (R507 to R512) -/

/-- R507: fields of the header. -/
def imgBus (b : List Byte) : Nat := num b 6 1
def imgLength (b : List Byte) : Nat := num b 8 4
def imgLoad (b : List Byte) : Nat := num b 12 4

/-- R507: the payload's place: core 0's TCM (`true`) or SRAM, from its offset; none outside both. -/
def loadAt (b : List Byte) : Option (Bool × Nat) :=
  let a := imgLoad b
  let e := a + imgLength b
  if e ≤ 0x20000 then some (true, a)
  else if 0x40000000 ≤ a && e ≤ 0x42000000 then some (false, a - 0x40000000)
  else none

/-- R508, check 1. -/
def headOk (b : List Byte) : Bool :=
  num b 0 4 = 0x54424E5A && num b 4 2 = 1 && decide (imgBus b ≤ 2) && num b 24 8 = 0 && num b 160 96 = 0
    && decide (4 ≤ imgLength b) && decide (imgLength b ≤ 0xFFFF00) && imgLength b % 4 = 0 && (loadAt b).isSome

/-- R514: the conduct level in force. -/
def State.levelInForce (s : State) : Nat := s.lws.conductImg.elim 1 fun b => num b 4 1

/-- R508: the first check that an image fails, as BOOT_STATUS.CAUSE; 0 where it is accepted. -/
def State.imageJudge (s : State) (b : List Byte) : Nat :=
  let key := slice b 32 64
  if !headOk b then 2
  else if s.boot.hash ≠ 0 && Config.sha256 key ≠ s.boot.hash then 3
  else if !Config.ecdsaOk key (Config.sha256 (slice b 0 96 ++ slice b 256 (imgLength b))) (slice b 96 64) then 4
  else if s.levelInForce < num b 7 1 then 5
  else 0

/-- The payload is written to LOAD. -/
def State.loadPayload (s : State) (b : List Byte) : State :=
  let p := slice b 256 (imgLength b)
  match loadAt b with
  | some (true, o) => s.tcmWrite 0 o p
  | some (false, o) => s.sramWrite o p
  | none => s

/-- R511: an accepted image starts core 0, once a function-wide reset is over (R503). -/
def State.bootDone (s : State) (b : List Byte) (src : Nat) : State :=
  let s := s.modCore 0 fun c => { c with resetVec := BitVec.ofNat 32 (num b 16 4) &&& ~~~1 }
  let s := { s with boot := { s.boot with st := 4, source := BitVec.ofNat 2 src, version := BitVec.ofNat 32 (num b 20 4) } }
  if s.rst.busy then s else s.releaseCore0

/-- A rejected image. -/
def State.bootReject (s : State) (cause : Nat) (st : Nat) : State :=
  { s with boot := { s.boot with st := BitVec.ofNat 3 st, cause := BitVec.ofNat 4 cause } }

/-- R509, R510: the image of flash slot `n` has been read; its payload is written as it arrives. -/
def State.bootFlash (s : State) (n : Nat) (b : List Byte) (slow : Bool) : State :=
  let c := s.imageJudge b
  let s := if headOk b then
      { s.loadPayload b with boot := { s.boot with slow := slow && imgBus b ≠ 0 } }
    else s
  if c = 0 then s.bootDone b (n + 1) else s.bootReject c (if n = 0 then 1 else 5)

/-- R462, R512: `n` bytes of the host's image; none where a word is uncorrectable or the SRAM ends. -/
def State.hostBytes (s : State) (o n : Nat) : Option (List Byte) × State :=
  let a := s.boot.hostOfs.toNat + o
  if sramSize < a + n then (none, s) else s.sramRead a n

/-- R512: the host's image is read from SRAM and checked, once all four cores stand in reset. -/
def State.bootHost (s : State) : State :=
  match s.hostBytes 0 256 with
  | (none, s) => s.bootReject 2 5
  | (some h, s) =>
    if !headOk h then s.bootReject 2 5
    else match s.hostBytes 256 (imgLength h) with
      | (none, s) => s.bootReject 4 5
      | (some p, s) =>
        let c := s.imageJudge (h ++ p)
        if c = 0 then (s.loadPayload (h ++ p)).bootDone h 3 else s.bootReject c 5

/-- R508 to R512: an image is there and is checked; slot 1 follows the rejection of slot 0. -/
def State.bootImage (s : State) (src : BootSource) (b : List Byte) (slow : Bool) : State :=
  let flash := s.boot.st = 0 || s.boot.st = 1
  match src with
  | .noFlash => if flash && s.boot.cause = 0 then s.bootReject 1 5 else s
  | .flash0 => if flash && s.boot.cause = 0 then s.bootFlash 0 b slow else s
  | .flash1 => if flash && s.boot.cause ≠ 0 then s.bootFlash 1 b slow else s
  | .host => if s.boot.st = 2 && (List.range 4).all (fun k => (s.core k).st = .inReset) then s.bootHost else s

def execBootImageCheck (t : Time) (source : BootSource) (image : List Byte) (slow : Bool) (s : State) : Res :=
  liveEvent t s fun s => if s.resting then s else s.bootImage source image slow

def bootOfs : Nat := 0x160000

/-- R512: BOOT_HOST_GO. -/
def State.bootGo (s : State) (m : Ident) (v : Word) : State :=
  if m ≠ 0x01 || !bit v 0 || fld v 16 16 ≠ 0xB007 then s
  else if s.boot.st ≠ 4 && s.boot.st ≠ 5 then { s with boot := { s.boot with rej := true } }
  else
    let s := (List.range 4).foldl (fun s k => s.coreCtrl 0x01 k 1) s
    { s with boot := { s.boot with st := 2, hash := s.boot.keyhash } }

def execBootHostGo (t : Time) (m : Ident) (v : Word) (s : State) : Res := regWrite t (bootOfs + 0xC) s fun s => s.bootGo m v

/-! ## Boot key fuses (R513) -/

/-- R513: the conditions of a BOOT_FUSE_CMD write; 0 where it is accepted. -/
def State.fuseJudge (s : State) (m : Ident) (v : Word) : Nat :=
  if !bit v 0 || fld v 16 16 ≠ 0xF05E || (m ≠ 0x01 && m ≠ 0x20) || !s.lws.svc || !s.boot.blank || s.boot.fuseBusy then cNotPermitted
  else if s.boot.keystage = 0 then cInvalid
  else cOk

def State.fuseCmd (s : State) (m : Ident) (v : Word) : State :=
  let r := s.fuseJudge m v
  let b := { s.boot with fuseResult := BitVec.ofNat 16 r }
  { s with boot := if r = cOk then { b with fuseBusy := true, fusing := b.keystage } else b }

def execBootFuseCmd (t : Time) (m : Ident) (v : Word) (s : State) : Res := regWrite t (bootOfs + 0x40) s fun s => s.fuseCmd m v

/-- BOOT_FUSE_STAT and BOOT_STATUS (R521). -/
def Boot.fuseStat (b : Boot) : Word := flag 0 b.fuseBusy ||| flag 1 b.blank ||| wAt 16 b.fuseResult.toNat
def Boot.status (b : Boot) : Word :=
  wAt 0 b.st.toNat ||| wAt 3 b.source.toNat ||| flag 5 b.slow ||| flag 6 b.rej ||| wAt 8 b.cause.toNat

/-- What the fuses hold after a read-back mismatch: FREE. -/
def freeFuses (n : Nat) : BitVec 256 :=
  BitVec.ofNat 256 (((List.range 8).map fun i => (Config.openWord (n + i)).toNat * 2 ^ (32 * i)).sum)

def State.payFuse (s : State) : State :=
  if s.svc.owesFuse then ({ s with svc := { s.svc with owesFuse := false } }).emit (.svc s.boot.fuseResult [s.boot.fuseStat]) else s

/-- R513: programming and read-back have ended. -/
def State.fuseEnd (s : State) (ok : Bool) : State :=
  if !s.boot.fuseBusy then s
  else
    let b := { s.boot with fuseBusy := false, blank := false, fuseResult := BitVec.ofNat 16 (if ok then cOk else cFaulted),
                           keyhash := if ok then s.boot.fusing else freeFuses s.free }
    State.payFuse { s with boot := b, free := if ok then s.free else s.free + 8 }

def execFuseProgramComplete (t : Time) (readBack : Bool) (s : State) : Res := liveEvent t s fun s => s.fuseEnd readBack

/-! ## PCIe link (R17, R498) -/

/-- R498, R500: the link trains while PERST_N is high; configuration comes with it (log 5). -/
def State.linkChange (s : State) (up : Bool) (cfg : PcieCfg) : State :=
  if s.rst.perst then s
  else if up then
    { s with irq := { s.irq with link := true, bme := cfg.busMaster, msixEn := cfg.msixEnable, funcMask := cfg.funcMask },
             movers := { s.movers with pcie := wAt 0 cfg.mps.toNat ||| wAt 4 cfg.mrrs.toNat ||| wAt 8 cfg.cto.toNat } }
  else { s with irq := { s.irq with link := false } }

def execPcieLinkChange (t : Time) (up : Bool) (cfg : PcieCfg) (s : State) : Res := liveEvent t s fun s => s.linkChange up cfg

end Sys2Proof.Machine
end

