-- ==== Sys2Proof/Machine/Understory.lean ====
section
/-! DEFINITION. The Understory (R431 to R437): the request for Rest, its entry and abandonment, the events that wake the part, and the
wake. -/

namespace Sys2Proof.Machine

def undBase : Nat := 0x1800

/-- R433: the checks of a request for Rest, in order; 0 where it is accepted. -/
def State.restJudge (s : State) (v : Word) : Nat :=
  let n := fld s.und.ctrl 0 6
  let mode := (s.cell n).mode
  if fld v 16 16 ≠ 0x7E57 || fld v 1 15 ≠ 0 || (bit s.und.ctrl 6 && mode ≠ 1 && mode ≠ 3) then cInvalid
  else if s.und.st ≠ .run then cBusy
  else if (s.chans.any fun p => p.2.st ≠ .idle && p.2.st ≠ .halted) || (s.net.ports.any fun p => p.2.st ≠ .disabled)
      || s.yz.en || bit s.net.ptp.ctrl 0 || s.lws.commit.isSome then cWrongState
  else 0

/-- R434: a core that its clock can be stopped at: held in reset, or at a WFI. -/
def State.coreStopped (s : State) (k : Nat) : Bool := s.coreHeld k || (s.core k).st = .wfi

/-- R433, R434: UND_REST. -/
def State.undRest (s : State) (v : Word) : State :=
  if !bit v 0 then s
  else match s.restJudge v with
    | 0 =>
      let stopped := BitVec.ofNat 4 (((List.range 4).map fun k => if s.coreStopped k then 2 ^ k else 0).sum)
      s.modUnd fun u => { u with st := .entering, askedAt := s.now, stopped := stopped }
    | r => s.modUnd fun u => { u with result := BitVec.ofNat 16 r }

def execUndRest (t : Time) (_m : Ident) (v : Word) (s : State) : Res := regWrite t (undBase + 4) s fun s => s.undRest v

/-- A core executes WFI; while Rest is being entered its clock stops there (R434). -/
def execCoreWfi (t : Time) (k : Fin 4) (s : State) : Res :=
  engineEvent t s fun s =>
    let c := s.core k
    if c.st ≠ .run || c.halted then s
    else
      let s := s.setCore k { c with st := .wfi }
      if s.und.st = .entering then s.modUnd fun u => { u with stopped := u.stopped ||| BitVec.ofNat 4 (1 <<< k.val) } else s

/-- R431, R434: a cell enters Rest: the estimator of the kept one is cleared, and the cycles of a TIME or SYNTHETIC cell pause. -/
def State.restCell (s : State) (n : Nat) : State :=
  let c := s.cell n
  if !c.en then s
  else if c.exactMode then
    if c.pausedAt.isSome || c.est ≠ .exact then s
    else (s.putCell n { c with pausedAt := some (cyc s.now * 8) }).cellChange n .other
  else if bit s.und.ctrl 6 && n = fld s.und.ctrl 0 6 then
    (s.putCell n { c.drop .idle s.now with frac := s.fracOf n s.now }).cellChange n .other
  else s

/-- R431, R353: every pin stands at its fence rest, held while its unit drives the on level. -/
def State.pinsRest (s : State) (t : Time) : State :=
  (s.outs.pins.map (·.1)).foldl (fun s u =>
    let x := s.pin u
    if x.onSince.isSome then (s.setPin u { x.rest t with hold := (s.ou u).drive == s.onLevel u }).modOu u fun o => { o with edgeT := t }
    else s) s

/-- R434: all four cores are stopped: the other clocks stop. -/
def State.restEntry (s : State) : State :=
  if s.und.st ≠ .entering || s.und.stopped ≠ 15 then s
  else
    let s := s.encsSettle true
    let s := ((s.axes.cells.map (·.1)).foldl State.restCell s).pinsRest s.now
    let s := (List.range 4).foldl State.wdPause s
    s.modUnd fun u => { u with st := .rest, restAt := s.now, result := 0, wcmpArmed := bit u.ctrl 6 }

def execRestEntry (t : Time) (s : State) : Res := engineEvent t s State.restEntry

/-- R434: a core has not reached WFI within 1 ms of acceptance. -/
def State.restTimeout (s : State) : State :=
  if s.und.st = .entering && s.und.stopped ≠ 15 && decide (s.und.askedAt + ms 1 ≤ s.now) then
    s.modUnd fun u => { u with st := .run, abandoned := true, result := BitVec.ofNat 16 cTimeout, stopped := 0 }
  else s

def execRestEntryTimeout (t : Time) (s : State) : Res := engineEvent t s State.restTimeout

/-- R436: WAKE_N (no code), or the event of a code. -/
def execWakeEvent (t : Time) (code : Option Byte) (s : State) : Res :=
  liveEvent t s fun s =>
    match code with
    | none => s.wake 0 true
    | some c => s.watchEvent c.toNat

/-- R435: UND_TIMER milliseconds have passed since the REST cycle. -/
def execUndTimerExpiry (t : Time) (s : State) : Res :=
  liveEvent t s fun s =>
    let n := fld s.und.timer 0 24
    if s.resting && n ≠ 0 && decide (s.und.restAt + ms n ≤ s.now) then s.watchEvent 0x70 else s

/-- R435: 25 ms pass without a qualified crossing on mains input `i`. -/
def execMainsCrossingTimeout (t : Time) (i : Fin 2) (s : State) : Res :=
  liveEvent t s fun s =>
    let x := s.mainsIn i
    if bit x.ctrl 0 && (match x.lastX with | some l => decide (l + ms 25 ≤ s.now) | none => true) then s.watchEvent (0x10 + i) else s

/-- R431: a cell after wake: its estimator restarts from IDLE, at the fraction `frac` it showed at the REST cycle; a TIME or SYNTHETIC
cell goes on without the interval of Rest. -/
def State.wakeCell (s : State) (n : Nat) (frac : BitVec 16) : State :=
  let c := s.cell n
  if !c.en then s
  else if c.exactMode then
    if s.frozen n then s
    else (s.putCell n { c with origin := c.origin + (cyc s.now * 8 - c.pausedAt.getD (cyc s.now * 8)), pausedAt := none }).cellChange n .other
  else if s.held n then s
  else (s.putCell n { c.drop .idle s.now with frac := frac }).cellChange n .other

/-- R436: the part enters RUN: source 677 is raised, each core resumes after its WFI, and a line stop received in Rest is applied. -/
def State.wakeComplete (s : State) : State :=
  if s.und.st ≠ .waking then s
  else
    let stop := s.und.stopSeen
    let s := s.encsSettle false
    let before := s
    let s := s.modUnd fun u => { u with st := .run, stopped := 0, wcmpArmed := false, stopSeen := none }
    let s := (s.axes.cells.map (·.1)).foldl (fun s n => s.wakeCell n (before.fracOf n before.und.restAt)) s
    let s := (List.range 4).foldl (fun s k =>
      let s := s.modCore k fun c => if c.st = .wfi then { c with st := .run } else c
      if (s.core k).halted || s.coreHeld k then s else s.wdResume k) s
    let s := s.cicEdge 677
    match stop with
    | some (src, reason, seq) =>
      (s.modYz fun y => { y with seenStop := (src, seq.toNat) :: y.seenStop,
                                 stopRx := wAt 0 src ||| wAt 16 reason.toNat ||| wAt 24 seq.toNat }).report 130
    | none => s

def execWakeComplete (t : Time) (s : State) : Res := liveEvent t s State.wakeComplete

/-- R437: UND_WT_LO latches the high word of the first wake time. -/
def State.readWake (s : State) (m : Ident) : Word × State := (loW s.und.wt, s.latch m (undBase + 0x28) (hiW s.und.wt))

def execUndWtRead (t : Time) (m : Ident) (s : State) : Res := regRead t (undBase + 0x24) s fun s => s.readWake m

/-- UND_STATUS (R437). -/
def Und.status (u : Und) : Word :=
  wAt 0 (match u.st with | .run => 0 | .entering => 1 | .rest => 2 | .waking => 3) ||| flag 2 u.abandoned ||| flag 3 u.access
    ||| wAt 16 u.result.toNat

end Sys2Proof.Machine
end

