-- ==== Sys2Proof/Machine/Registers.lean ====
section
/-! DEFINITION. The register map (16_register_map.md): for each block of BAR0, what a write does to each register by its access type, and
what a read returns. A register with a row of its own does here what its row does. -/

namespace Sys2Proof.Machine

/-- W1C: the bits written as 1 clear. -/
def w1c (on : Bool) (v : Word) (i : Nat) : Bool := on && !bit v i

/-- A word whose field at `lo` is held between two limits as it is stored. -/
def clampFld (w : Word) (lo n a b : Nat) : Word := setFld w lo n (clampN a b (fld w lo n))

/-- Word `w` of a 64-bit register. -/
def setHalf (x : BitVec 64) (hi : Bool) (v : Word) : BitVec 64 :=
  if hi then BitVec.ofNat 64 (x.toNat % 2 ^ 32 + v.toNat * 2 ^ 32) else BitVec.ofNat 64 (x.toNat / 2 ^ 32 * 2 ^ 32 + v.toNat)

/-! ## Identity, reset, Understory (R519, R520, R437) -/

def idWord (s : State) (r : Nat) : Word :=
  match r with
  | 0x0 => 0x56A1 | 0x4 => 0x4096 | 0x8 => 1 ||| flag 8 Config.gradeX | 0xC => wAt 0 maxLevel | 0x10 => wAt 0 s.levelInForce | _ => 0

def State.rstWrite (s : State) (r : Nat) (v : Word) : State :=
  match r with
  | 0x0 => { s with rst := { s.rst with cause := s.rst.cause &&& ~~~ v.setWidth 6 } }
  | 0x4 => s.funcReset v
  | 0x8 => { s with rst := { s.rst with spoiledRead := w1c s.rst.spoiledRead v 2 } }
  | _ => s

def State.rstRead (s : State) (m : Ident) (r : Nat) : Word × State :=
  match r with
  | 0x0 => (s.rst.cause.setWidth 32, s)
  | 0x8 => (flag 0 s.rst.busy ||| flag 1 s.rst.fenceRead ||| flag 2 s.rst.spoiledRead, s)
  | 0x10 => s.readDevtime m
  | 0x14 => (s.latched m 0x1014, s)
  | _ => (0, s)

def State.undWrite (s : State) (r : Nat) (v : Word) : State :=
  match r with
  | 0x00 => s.modUnd fun u => { u with ctrl := v &&& 0x7F }
  | 0x04 => s.undRest v
  | 0x08 => s.modUnd fun u => { u with abandoned := w1c u.abandoned v 2, access := w1c u.access v 3 }
  | 0x0C => s.modUnd fun u => { u with wake := u.wake &&& ~~~v }
  | 0x10 => s.modUnd fun u => { u with wakePin := w1c u.wakePin v 0 }
  | 0x14 => s.modUnd fun u => { u with timer := v &&& 0xFFFFFF }
  | 0x18 => s.modUnd fun u => { u with wcmp := v }
  | 0x1C => s.modUnd fun u => { u with wcmpCtrl := if fld v 0 2 = 3 then 2 else v &&& 3 }
  | 0x20 => s.modUnd fun u => { u with linkMon := v &&& 0xFFFF }
  | _ => if 0x40 ≤ r && r < 0xC0 then s.modUnd fun u => { u with watch := tput 0 u.watch ((r - 0x40) / 4) (v &&& 0xFF01) } else s

def State.undRead (s : State) (m : Ident) (r : Nat) : Word × State :=
  let u := s.und
  match r with
  | 0x00 => (u.ctrl, s) | 0x08 => (u.status, s) | 0x0C => (u.wake, s) | 0x10 => (flag 0 u.wakePin, s) | 0x14 => (u.timer, s)
  | 0x18 => (u.wcmp, s) | 0x1C => (u.wcmpCtrl, s) | 0x20 => (u.linkMon, s)
  | 0x24 => s.readWake m
  | 0x28 => (s.latched m (undBase + 0x28), s)
  | _ => (if 0x40 ≤ r && r < 0xC0 then tget 0 u.watch ((r - 0x40) / 4) else 0, s)

/-! ## Counter cells (R76) -/

def State.cellWrite (s : State) (n r : Nat) (v : Word) : State :=
  let set := fun f => s.modCell n f
  match r with
  | 0x00 => s.cellCtrl n v
  | 0x04 => s.writeMod n v
  | 0x08 => set fun c => { c with div := v }
  | 0x0C => set fun c => { c with still := clampFld (v &&& 0xFFFFFF0F) 0 4 2 15 }
  | 0x10 => set fun c => { c with win := clampFld (v &&& 0xFFFFFF1F) 0 5 3 16 }
  | 0x14 => set fun c => { c with flags := c.flags &&& ~~~v }
  | 0x50 => set fun c => { c with loadT := v &&& 0xFFFF0000 }
  | 0x54 => set fun c => { c with loadPhase := v }
  | 0x58 => set fun c => { c with loadTurnHi := v }
  | 0x5C => s.loadGo n v
  | 0x60 => set fun c => { c with synLo := v }
  | 0x64 => s.synHi n v
  | 0x68 => set fun c => { c with mirrorSrc := clampFld (v &&& 0xFFFFFF) 16 8 1 255 }
  | 0x6C => set fun c => { c with ofsLo := v }
  | 0x70 => s.mirrorHi n v
  | _ => s

def State.cellRead (s : State) (m : Ident) (n r : Nat) : Word × State :=
  let c := s.cell n
  match r with
  | 0x00 => (c.ctrl, s) | 0x04 => (c.mod, s) | 0x08 => (c.div, s) | 0x0C => (c.still, s) | 0x10 => (c.win, s)
  | 0x14 => (s.cellStatus n, s) | 0x18 => (wAt 0 c.quad.toNat ||| wAt 16 c.ser.toNat, s)
  | 0x20 => s.readPosFt m n
  | 0x50 => (c.loadT, s) | 0x54 => (c.loadPhase, s) | 0x58 => (c.loadTurnHi, s) | 0x60 => (c.synLo, s) | 0x64 => (c.synHi, s)
  | 0x68 => (c.mirrorSrc, s) | 0x6C => (c.ofsLo, s) | 0x70 => (c.ofsHi, s)
  | _ => (if 0x24 ≤ r && r ≤ 0x40 then s.latched m (cellOfs n + r) else 0, s)

/-! ## Capture and compare units, global start, scheduler (R116 to R118, R206, R207) -/

def State.capWrite (s : State) (j r : Nat) (v : Word) : State :=
  match r with
  | 0x00 => s.capCtrl j v
  | 0x04 => s.capFilt j v
  | 0x08 => s.modCap j fun u => { u with presc := v &&& 0xFFFF }
  | 0x0C => s.modCap j fun u => { u with chan := v &&& 0xFFF }
  | 0x10 => s.modCap j fun u => { u with ovf := w1c u.ovf v 1, cfgRej := w1c u.cfgRej v 2 }
  | _ => s

def State.capRead (s : State) (m : Ident) (j r : Nat) : Word × State :=
  let u := s.cap j
  match r with
  | 0x00 => (u.ctrl, s) | 0x04 => (u.filt, s) | 0x08 => (u.presc, s) | 0x0C => (u.chan, s) | 0x10 => (u.status, s)
  | 0x14 => (wAt 0 u.pcnt, s)
  | 0x20 => s.readCapPop m j
  | _ => (if 0x24 ≤ r && r ≤ 0x30 then s.latched m (capOfs j + r) else 0, s)

def State.cmpWrite (s : State) (k r : Nat) (v : Word) : State :=
  match r with
  | 0x00 => s.cmpCtrl k v
  | 0x04 => s.cmpValue k false v
  | 0x08 => s.cmpValue k true v
  | 0x0C => s.modCmp k fun u => { u with incr := v }
  | 0x10 => s.modCmp k fun u => { u with fired := w1c u.fired v 1, overrun := w1c u.overrun v 3, cfgRej := w1c u.cfgRej v 6 }
  | _ => s

def State.cmpRead (s : State) (m : Ident) (k r : Nat) : Word × State :=
  let u := s.cmp k
  match r with
  | 0x00 => (u.ctrl, s) | 0x04 => (u.phase, s) | 0x08 => (u.turn, s) | 0x0C => (u.incr, s) | 0x10 => (s.cmpStatus k, s)
  | 0x14 => s.readCmpFt m k
  | 0x18 => (s.latched m (cmpOfs k + 0x18), s) | 0x1C => (s.latched m (cmpOfs k + 0x1C), s)
  | _ => (0, s)

/-- R111 to R113: FRZ_SEL; during a freeze a cell newly selected freezes, and one no longer selected thaws. -/
def State.freezeSel (s : State) (new : BitVec 64) : State :=
  let old := s.axes.start.frzSel
  let on := (List.range 64).filter fun n => new.getLsbD n && !old.getLsbD n
  let off := (List.range 64).filter fun n => !new.getLsbD n && old.getLsbD n
  if s.axes.start.halted = 0 then s.modStart fun x => { x with frzSel := new }
  else
    let before := s
    let s := s.modStart fun x => { x with frzSel := new }
    let s := on.foldl (fun s n => s.putCell n ((s.cell n).freeze (before.fracOf n before.now) s.now)) s
    let (s, evs) := off.foldl (fun p n => let (s, e) := p.1.thawCell n; (s, p.2 ++ e)) (s, [])
    let s := s.react evs
    (on ++ off).foldl (fun s n => s.cellChange n .other) s

def State.startWrite (s : State) (r : Nat) (v : Word) : State :=
  let x := s.axes.start
  match r with
  | 0x00 => s.modStart fun x => { x with sel := setHalf x.sel false v }
  | 0x04 => s.modStart fun x => { x with sel := setHalf x.sel true v }
  | 0x08 => if fld v 0 2 = 1 || fld v 0 2 = 2 then s.startGo (fld v 0 2) else s
  | 0x20 => s.freezeSel (setHalf x.frzSel false v)
  | 0x24 => s.freezeSel (setHalf x.frzSel true v)
  | 0x28 => s.modStart fun x => { x with seen := w1c x.seen v 1 }
  | 0x2C => s.modStart fun x => { x with frzOvf := x.frzOvf &&& ~~~ v.setWidth 64 }
  | 0x30 => s.modStart fun x => { x with frzOvf := x.frzOvf &&& ~~~ (v.setWidth 64 <<< 32) }
  | _ => s

def State.startRead (s : State) (m : Ident) (r : Nat) : Word × State :=
  let x := s.axes.start
  match r with
  | 0x00 => (loW x.sel.toNat, s) | 0x04 => (hiW x.sel.toNat, s) | 0x0C => (loW x.hold.toNat, s) | 0x10 => (hiW x.hold.toNat, s)
  | 0x14 => s.readStartT m
  | 0x18 => (s.latched m (startOfs + 0x18), s)
  | 0x20 => (loW x.frzSel.toNat, s) | 0x24 => (hiW x.frzSel.toNat, s)
  | 0x28 => (flag 0 (x.halted ≠ 0) ||| flag 1 x.seen ||| wAt 2 x.halted.toNat, s)
  | 0x2C => (loW x.frzOvf.toNat, s) | 0x30 => (hiW x.frzOvf.toNat, s)
  | 0x34 => s.readFrzT m
  | 0x38 => (s.latched m (startOfs + 0x38), s)
  | _ => (0, s)

def State.schedWord (s : State) (r : Nat) : Word :=
  let d := s.sched
  match r with
  | 0x00 => wAt 0 d.used ||| wAt 16 d.peak
  | 0x04 => wAt 0 d.waitCmd.eraseDups.length ||| wAt 16 (s.cmps.filter fun p => (p.2.armed || p.2.hystWait) && !p.2.entry).length
  | 0x08 => wAt 0 (s.chans.filter fun p => p.2.st = .staged).length ||| wAt 16 s.heldMovers
  | _ => if 0x44 ≤ r && r ≤ 0x68 then tget 0 d.missCnt ((r - 0x40) / 4) else 0

/-- R207. -/
def clampTiming (v : Word) : Word := clampFld (clampFld (v &&& 0x1FFF03FF) 0 10 1 1000) 16 13 64 8191

/-! ## Encoder groups, serial interfaces, mains inputs (R77 to R79) -/

def State.encWrite (s : State) (g r : Nat) (v : Word) : State :=
  let e := s.enc g
  match r with
  | 0x0 => s.encCtrl g v
  | 0x4 => s.setEnc g { e with zphase := v }
  | 0x8 => s.setEnc g { e with zSeen := w1c e.zSeen v 8, quadErr := w1c e.quadErr v 9 }
  | _ => s

def State.encWord (s : State) (g r : Nat) : Word :=
  let e := s.enc g
  match r with
  | 0x0 => e.ctrl | 0x4 => e.zphase
  | 0x8 => flag 0 e.a ||| flag 1 e.b ||| flag 2 e.z ||| flag 8 e.zSeen ||| flag 9 e.quadErr
  | _ => 0

def State.serWrite (s : State) (i r : Nat) (v : Word) : State :=
  let x := s.ser i
  match r with
  | 0x00 => s.serCtrl i v
  | 0x04 => s.setSer i { x with clk := clampFld (clampFld (v &&& 0xFFFFFF) 0 16 50 5000) 16 8 1 255 }
  | 0x08 => s.setSer i { x with cycle := clampFld (v &&& 0xFFFFF) 0 20 2000 1000000 }
  | 0x0C => s.setSer i { x with delay := clampFld v 16 16 0 2000 }
  | 0x10 => s.setSer i { x with flags := x.flags &&& ~~~v }
  | _ => s

def State.serWord (s : State) (i r : Nat) : Word :=
  let x := s.ser i
  match r with | 0x00 => x.ctrl | 0x04 => x.clk | 0x08 => x.cycle | 0x0C => x.delay | 0x10 => x.status | _ => 0

def State.mainsWrite (s : State) (i r : Nat) (v : Word) : State :=
  let x := s.mainsIn i
  match r with
  | 0x0 => s.setMainsIn i { x with ctrl := clampFld (v &&& 0xFF01) 8 8 1 255 }
  | 0x8 => s.setMainsIn i { x with range := w1c x.range v 8 }
  | _ => s

def State.mainsWord (s : State) (i r : Nat) : Word :=
  let x := s.mainsIn i
  match r with | 0x0 => x.ctrl | 0x4 => x.period | 0x8 => flag 0 x.level ||| flag 8 x.range | _ => 0

/-! ## Queues and translation (R299 to R301, R336 to R339) -/

def State.adminWrite (s : State) (r : Nat) (v : Word) : State :=
  match r with
  | 0x0 => { s with queues := { s.queues with baseLo := v &&& 0xFFFFFFC0 } }
  | 0x4 => { s with queues := { s.queues with baseHi := v &&& 0xFFFF } }
  | 0x8 => s.adminCfg v
  | _ => s

def State.adminWord (s : State) (r : Nat) : Word :=
  match r with | 0x0 => s.queues.baseLo | 0x4 => s.queues.baseHi | 0x8 => s.queues.cfg | _ => 0

def State.wqRegRead (s : State) (m : Ident) (q r : Nat) : Word × State :=
  let w := s.wq q
  match r with
  | 0x0 => (w.status, s)
  | 0x4 => s.readWqPi m q
  | 0x8 => (s.latched m (wqOfs q + 8), s)
  | 0xC => (wAt 0 w.used.toNat ||| wAt 16 w.missed.toNat, s)
  | _ => (0, s)

def State.eqRegRead (s : State) (m : Ident) (q r : Nat) : Word × State :=
  match r with
  | 0x0 => ((s.eq q).status, s)
  | 0x4 => s.readEqRes m q
  | 0x8 => (s.latched m (eqOfs q + 8), s)
  | 0xC => (s.latched m (eqOfs q + 0xC), s)
  | _ => (0, s)

def State.xlWrite (s : State) (r : Nat) (v : Word) : State :=
  let x := s.xl
  match r with
  | 0x10 => { s with xl := { x with invCtrl := v &&& 0xFF03 } }
  | 0x14 => { s with xl := { x with invVaLo := v &&& 0xFFFFF000 } }
  | 0x18 => { s with xl := { x with invVaHi := v &&& 0xFFFF } }
  | 0x1C => { s with xl := { x with invPages := clampFld (v &&& 0x1FFFFF) 0 21 1 (2 ^ 20) } }
  | 0x20 => s.invGo v
  | 0x24 => { s with xl := { x with invRej := w1c x.invRej v 1 } }
  | 0x34 => s.parkCtrl v
  | _ => s

def State.xlRead (s : State) (m : Ident) (r : Nat) : Word × State :=
  let x := s.xl
  match r with
  | 0x00 => s.readXlHit m
  | 0x04 => (s.latched m (xlOfs + 4), s)
  | 0x08 => (x.misses, s)
  | 0x0C => (wAt 0 (x.walks.filter fun w => w.begun && w.shared_).length ||| wAt 16 (x.walks.filter fun w => w.begun && !w.shared_).length, s)
  | 0x10 => (x.invCtrl, s) | 0x14 => (x.invVaLo, s) | 0x18 => (x.invVaHi, s) | 0x1C => (x.invPages, s)
  | 0x24 => (flag 0 x.inv.isSome ||| flag 1 x.invRej ||| wAt 16 x.invSeq.toNat, s)
  | 0x30 => (wAt 0 s.parkUsed ||| wAt 8 x.parkPeak ||| wAt 16 x.parkLost.toNat, s)
  | _ => (0, s)

/-- R304: DOM_ROOT of an enabled domain is not written. -/
def State.domWrite (s : State) (d r : Nat) (v : Word) : State :=
  let x := s.dom d
  match r with
  | 0x0 => s.domCtrl d v
  | 0x4 => s.setDom d (if x.en then { x with cfgRej := true } else { x with rootLo := v &&& 0xFFFFF000 })
  | 0x8 => s.setDom d (if x.en then { x with cfgRej := true } else { x with rootHi := v &&& 0xFFFFF })
  | 0xC => s.setDom d { x with cfgRej := w1c x.cfgRej v 0 }
  | _ => s

def State.domWord (s : State) (d r : Nat) : Word :=
  let x := s.dom d
  match r with
  | 0x0 => x.ctrl | 0x4 => x.rootLo | 0x8 => x.rootHi
  | 0xC => flag 0 x.cfgRej ||| flag 1 x.invBusy ||| wAt 16 x.faults.toNat
  | _ => 0

def State.fqWrite (s : State) (d r : Nat) (v : Word) : State :=
  match r with
  | 0x00 => s.modFq d fun q => { q with baseLo := v &&& 0xFFFFFFC0 }
  | 0x04 => s.modFq d fun q => { q with baseHi := v &&& 0xFFFFF }
  | 0x08 => s.fqCfg d v
  | 0x0C => s.fqDoorbell d v
  | 0x10 => s.modFq d fun q => { q with cfgRej := w1c q.cfgRej v 4 }
  | _ => s

def State.fqRegRead (s : State) (m : Ident) (d r : Nat) : Word × State :=
  let q := s.fq d
  match r with
  | 0x00 => (q.baseLo, s) | 0x04 => (q.baseHi, s) | 0x08 => (q.cfg, s) | 0x10 => (q.status, s)
  | 0x14 => s.readFqPi m d
  | 0x18 => (s.latched m (fqOfs d + 0x18), s)
  | _ => (0, s)

def State.winWrite (s : State) (i r : Nat) (v : Word) : State :=
  let x := s.win i
  match r with
  | 0x0 => s.setWin i (x.write .ctrl v) | 0x4 => s.setWin i (x.write .baseLo v) | 0x8 => s.setWin i (x.write .baseHi v)
  | 0xC => s.setWin i { x with fault := w1c x.fault v 0, cfgRej := w1c x.cfgRej v 1 }
  | _ => s

def State.winWord (s : State) (i r : Nat) : Word :=
  let x := s.win i
  match r with | 0x0 => x.ctrl | 0x4 => x.baseLo | 0x8 => x.baseHi | 0xC => flag 0 x.fault ||| flag 1 x.cfgRej | _ => 0

/-! ## Contexts, movers, transfers (R236 to R238, R254) -/

def State.ctxRead (s : State) (m : Ident) (c r : Nat) : Word × State :=
  if r = 0 then s.readCtx m c else (s.latched m (ctxOfs c + r), s)

def State.moverRead (s : State) (m : Ident) (r : Nat) : Word × State :=
  let v := s.movers
  match r with
  | 0x00 => (wAt 0 (32 - s.tokens) ||| wAt 8 s.heldMovers ||| wAt 16 v.peak, s)
  | 0x04 => (wAt 0 s.timedRequests.length ||| wAt 16 (s.classRequests 0).length, s)
  | 0x08 => (wAt 0 (s.classRequests 1).length ||| wAt 16 (s.classRequests 2).length, s)
  | 0x0C => (wAt 0 (s.classRequests 3).length, s)
  | 0x10 => s.readMoverBytes m
  | 0x14 => (s.latched m (moverOfs + 0x14), s)
  | 0x18 => (v.retry, s) | 0x1C => (v.busErr, s) | 0x24 => (v.pcie, s)
  | _ => (0, s)

/-- R238: BMAX 7 is stored as 6; PRIO is the admin queue's. -/
def clampXfer (v : Word) : Word := clampFld (v &&& 0x77) 4 3 0 6

/-! ## Output units, fence view, limited-write store (R374 to R376) -/

def State.ouRead (s : State) (m : Ident) (u r : Nat) : Word × State :=
  match r with
  | 0x00 => (s.ouStatus u, s) | 0x04 => ((s.ou u).clamps, s)
  | 0x08 => s.readOuEdge m u
  | 0x18 => (s.ouLive u, s)
  | _ => (if r = 0xC || r = 0x10 || r = 0x14 then s.latched m (ouOfs u + r) else 0, s)

def State.permitBits (s : State) : Nat := ((List.range 8).map fun i => if (s.permitIn i).accepted then 2 ^ i else 0).sum

/-- R375: the fence view, by its offset from 0xA1000. -/
def State.fenceViewWord (s : State) (r : Nat) : Word :=
  if r < 0x800 then s.fenceWord (0x40 + r)
  else if 0x1000 ≤ r && r < 0x1100 then s.fenceWord (0x840 + (r - 0x1000))
  else if 0x1100 ≤ r && r < 0x1140 && r % 8 = 0 then s.fenceWord (0x940 + (r - 0x1100))
  else if r = 0x1200 then wAt 0 s.permitBits ||| flag 8 s.fc.safe ||| wAt 16 s.outs.bank33.toNat
  else if r = 0x1204 then wAt 0 s.fenceAuth
  else if r = 0x1208 then s.fenceWord 8
  else if r = 0x120C then s.fenceWord 12
  else if 0x1300 ≤ r && r < 0x1380 then wAt 0 (s.groupOn ((r - 0x1300) / 4))
  else 0

def State.lwsWrite (s : State) (m : Ident) (r : Nat) (v : Word) : State :=
  let l := s.lws
  match r with
  | 0x00 => s.lwsCmd m v
  | 0x04 => { s with lws := { l with stageRej := w1c l.stageRej v 1 } }
  | 0x0C => { s with lws := { l with stamp := v } }
  | 0x10 => { s with lws := { l with tag := v } }
  | _ => if 0x1000 ≤ r && r < 0x1980 then s.lwsStage (r - 0x1000) (leBytes 4 v.toNat) else s

/-- R362, R376: the newest VALID conduct and identity fields, the ledger and the stage. -/
def State.lwsWord (s : State) (r : Nat) : Word :=
  let l := s.lws
  let id (o n : Nat) : Word := BitVec.ofNat 32 (identField (newest l.ident) o n)
  match r with
  | 0x04 => l.status | 0x08 => l.used | 0x0C => l.stamp | 0x10 => l.tag | 0x14 => flag 0 l.svc | 0x20 => wAt 0 l.level
  | 0x24 => id 16 4 | 0x28 => wAt 0 (identField (newest l.ident) 20 2 % 1024)
  | _ =>
    if 0x30 ≤ r && r ≤ 0x44 then id (24 + (r - 0x30)) 4
    else if 0x800 ≤ r && r < 0x800 + 44 * 32 then BitVec.ofNat 32 (num (l.ledger.getD ((r - 0x800) / 32) []) ((r - 0x800) % 32) 4)
    else if 0x1000 ≤ r && r < 0x1980 then BitVec.ofNat 32 (leNat ((List.range 4).map fun i => tget 0 l.stage (r - 0x1000 + i)))
    else 0

/-! ## Interrupts and mailboxes (R421, R430, R448) -/

/-- R423: a write of CIC_SRC; R428: CIC_CORE_STATUS. -/
def State.cicWrite (s : State) (m : Ident) (r : Nat) (v : Word) : State :=
  if r < 0x1000 then
    let i := r / 4
    if cicReserved i then s else s.setCic i { s.cic i with cfg := v &&& 0xFF }
  else if r < 0x1080 then s.cicSet ((r - 0x1000) / 4) v
  else if r < 0x1100 then s.cicClear ((r - 0x1080) / 4) v
  else if 0x2000 ≤ r && r < 0x2080 then
    let k := (r - 0x2000) / 0x20
    match r % 0x20 with
    | 0x0 => if m = coreId k then { s with irq := { s.irq with thresh := tput 0 s.irq.thresh k (v &&& 7) } } else s
    | 0x8 => s.cicComplete m k v
    | 0xC => if bit v 1 then { s with irq := { s.irq with badComplete := s.irq.badComplete &&& ~~~ BitVec.ofNat 4 (1 <<< k) } } else s
    | _ => s
  else s

/-- 32 sources as one word. -/
def sources32 (w : Nat) (p : Nat → Bool) : Word := BitVec.ofNat 32 (((List.range 32).map fun j => if p (32 * w + j) then 2 ^ j else 0).sum)

/-- CIC_CLAIM reads 0 here: only its core claims, by a row of its own (R518). -/
def State.cicWord (s : State) (r : Nat) : Word :=
  if r < 0x1000 then s.cicSrcWord (r / 4)
  else if r < 0x1080 then sources32 ((r - 0x1000) / 4) s.cicPend
  else if 0x1100 ≤ r && r < 0x1180 then sources32 ((r - 0x1100) / 4) s.cicLive
  else if 0x2000 ≤ r && r < 0x2080 then
    match r % 0x20 with
    | 0x0 => tget 0 s.irq.thresh ((r - 0x2000) / 0x20)
    | 0xC => s.cicCoreWord ((r - 0x2000) / 0x20)
    | _ => 0
  else 0

/-- R420: the table is written only by 0x01. -/
def State.msixWrite (s : State) (m : Ident) (v' r : Nat) (v : Word) : State :=
  let x := s.vec v'
  if m ≠ 0x01 then s
  else match r with
    | 0x0 => s.setVec v' { x with addrLo := v &&& ~~~3 }
    | 0x4 => s.setVec v' { x with addrHi := v }
    | 0x8 => s.setVec v' { x with data := v }
    | 0xC => s.setVec v' { x with ctrl := v &&& 1 }
    | _ => s

def State.msixWord (s : State) (v r : Nat) : Word :=
  let x := s.vec v
  match r with | 0x0 => x.addrLo | 0x4 => x.addrHi | 0x8 => x.data | 0xC => x.ctrl | _ => 0

/-- R440, R448: a write by a side; one by any other identity is foreign. -/
def State.mbWrite (s : State) (m : Ident) (b r : Nat) (v : Word) : State :=
  match (s.mb b).side m with
  | none => s.mbForeign
  | some a =>
    let x := s.mb b
    if r < 0x20 then s.mbTx m b (r / 4) v
    else if r = 0x20 then s.mbSendWrite m b v
    else if r = 0x24 then
      let d := x.dir a
      s.setMb b (x.setDir a { d with acked := w1c d.acked v 1, timeout := w1c d.timeout v 2, txRej := w1c d.txRej v 3 })
    else if r = 0x60 then s.mbAckWrite m b v
    else if r = 0x64 then s.setMb b (x.setDir (!a) { x.dir (!a) with rxRej := w1c (x.dir (!a)).rxRej v 2 })
    else s

def State.mbWord (s : State) (m : Ident) (b r : Nat) : Word :=
  match (s.mb b).side m with
  | none => 0
  | some a =>
    let out := (s.mb b).dir a
    let inc := (s.mb b).dir (!a)
    if r < 0x20 then tget 0 out.tx (r / 4)
    else if r = 0x24 then out.txStat
    else if 0x40 ≤ r && r < 0x60 then (if inc.msg then inc.slot.getD ((r - 0x40) / 4) 0 else 0)
    else if r = 0x64 then inc.rxStat
    else 0

def State.mbTabWrite (s : State) (r : Nat) (v : Word) : State :=
  if r < 0x100 then s.mbBind (r / 4) v
  else if r < 0x200 then s.mbNote ((r - 0x100) / 4) v
  else if r = 0x200 then s.mbLock v
  else if r = 0x204 then { s with mbox := { s.mbox with cfgRej := w1c s.mbox.cfgRej v 0 } }
  else s

def State.mbTabWord (s : State) (r : Nat) : Word :=
  if r < 0x100 then (s.mb (r / 4)).bind
  else if r < 0x200 then (s.mb ((r - 0x100) / 4)).note
  else if r = 0x200 then flag 0 s.mbox.locked
  else if r = 0x204 then flag 0 s.mbox.cfgRej ||| wAt 16 s.mbox.foreign.toNat
  else 0

/-! ## Fault collector (R496) -/

def State.fcRegWrite (s : State) (m : Ident) (r : Nat) (v : Word) : State :=
  match r with
  | 0x00 => s.fcCtrl v | 0x04 => s.fcLock v
  | 0x08 => s.modFc fun f => { f with cfgRej := w1c f.cfgRej v 3 }
  | 0x0C => s.fcSafe v | 0x20 => s.fcTkey m v | 0x24 => s.fcTest v | 0x110 => s.fcFirstClr v
  | _ =>
    if 0x30 ≤ r && r < 0x40 then s.fcVec ((r - 0x30) / 4) v
    else if 0x80 ≤ r && r < 0xA0 then s.fcLatch ((r - 0x80) / 4) v
    else if 0xC0 ≤ r && r < 0xE0 then s.fcForce ((r - 0xC0) / 4) v
    else if 0xE0 ≤ r && r < 0x100 then
      s.modFc fun f => { f with wire := setGroup f.wire ((r - 0xE0) / 4) (getGroup f.wire ((r - 0xE0) / 4) &&& ~~~v) }
    else if 0x400 ≤ r && r < 0x800 then s.fcSrcWrite ((r - 0x400) / 4) v
    else s

def State.fcRegRead (s : State) (m : Ident) (r : Nat) : Word × State :=
  let f := s.fc
  match r with
  | 0x00 => (wAt 0 f.pinSev.toNat, s) | 0x04 => (flag 0 f.locked, s) | 0x08 => (f.status, s) | 0x10 => (f.seq, s)
  | 0x14 => (f.overCnt, s)
  | 0x18 => s.readSafeT m
  | 0x1C => (s.latched m (fcOfs + 0x1C), s)
  | 0x24 => (flag 0 f.wireTest, s)
  | 0x100 => s.readFirst m
  | 0x110 => (flag 0 f.first.isSome, s)
  | _ =>
    if 0x30 ≤ r && r < 0x40 then (tget 0 f.vecs ((r - 0x30) / 4), s)
    else if 0x80 ≤ r && r < 0xA0 then (getGroup f.latch ((r - 0x80) / 4), s)
    else if 0xA0 ≤ r && r < 0xC0 then (getGroup f.live ((r - 0xA0) / 4), s)
    else if 0xC0 ≤ r && r < 0xE0 then (getGroup f.force ((r - 0xC0) / 4), s)
    else if 0xE0 ≤ r && r < 0x100 then (getGroup f.wire ((r - 0xE0) / 4), s)
    else if 0x104 ≤ r && r < 0x110 then (s.latched m (fcOfs + r), s)
    else if 0x400 ≤ r && r < 0x800 then (s.fcSrcWord ((r - 0x400) / 4), s)
    else if 0x800 ≤ r && r < 0xA00 then
      (if r % 16 = 0 then s.readTrail m ((r - 0x800) / 16) else (s.latched m (fcOfs + r), s))
    else (0, s)

/-! ## Ports, streams and rules (R412 to R414) -/

def Rule.put (x : Rule) (r : Nat) (v : Word) : Rule :=
  match r with
  | 0x00 => { x with ctrl := v &&& 0xFF7F } | 0x04 => { x with etype := v &&& 0xFFFF } | 0x08 => { x with vlan := v &&& 0xFFF }
  | 0x0C => { x with ip := v } | 0x10 => { x with ipMask := v } | 0x14 => { x with udp := v }
  | 0x18 => { x with field := v &&& 0xFFF } | 0x1C => { x with fmatch := v } | 0x20 => { x with fmask := v } | _ => x

def Rule.word (x : Rule) (r : Nat) : Word :=
  match r with
  | 0x00 => x.ctrl | 0x04 => x.etype | 0x08 => x.vlan | 0x0C => x.ip | 0x10 => x.ipMask | 0x14 => x.udp | 0x18 => x.field
  | 0x1C => x.fmatch | 0x20 => x.fmask | _ => 0

def State.streamWrite (s : State) (i r : Nat) (v : Word) : State :=
  let x := s.stream i
  match r with
  | 0x00 => s.rsCtrl i v
  | 0x04 => s.setStream i { x with busyRej := w1c x.busyRej v 2, cfgRej := w1c x.cfgRej v 3 }
  | 0x08 => s.setStream i { x with pf := v &&& 0x03FF0FFF }
  | 0x0C => s.setStream i { x with pbase := v }
  | 0x10 => s.setStream i { x with pstride := clampFld (v &&& 0xFFFF1FFF) 0 13 64 4096 }
  | _ => s

def State.streamWord (s : State) (i r : Nat) : Word :=
  let x := s.stream i
  match r with
  | 0x00 => x.ctrl | 0x04 => x.status | 0x08 => x.pf | 0x0C => x.pbase | 0x10 => x.pstride
  | 0x14 => wAt 0 x.outside.toNat ||| wAt 16 x.long_.toNat | _ => 0

def State.portWrite (s : State) (p r : Nat) (v : Word) : State :=
  let x := s.port p
  if r = 0 then s.portCtrl p v
  else if r = 4 then s.setPort p { x with linkLost := w1c x.linkLost v 3, busyRej := w1c x.busyRej v 4, cfgRej := w1c x.cfgRej v 5 }
  else if r = 8 then s.setPort p { x with maxlen := clampFld (v &&& 0x3FFF) 0 14 1518 9216 }
  else if r = 0xC then s.setPort p { x with macLo := v }
  else if r = 0x10 then s.setPort p { x with macHi := v &&& 0xFFFF }
  else if 0x100 ≤ r && r < 0x140 then
    let q := 4 * p + (r - 0x100) / 0x10
    match r % 0x10 with
    | 0x0 => s.txqCtrl q v
    | 0x4 => s.setTxq q { s.txq q with busyRej := w1c (s.txq q).busyRej v 0 }
    | _ => s
  else if 0x2000 ≤ r && r < 0x2400 then s.streamWrite (16 * p + (r - 0x2000) / 0x40) (r % 0x40) v
  else if 0x3000 ≤ r && r < 0x3800 then
    let i := (r - 0x3000) / 0x40
    s.setPort p { x with rules := tput {} x.rules i ((tget {} x.rules i).put (r % 0x40) v) }
  else s

def State.portWord (s : State) (p r : Nat) : Word :=
  let x := s.port p
  if r < 0x100 then
    match r with
    | 0x00 => x.ctrl | 0x04 => x.status | 0x08 => x.maxlen | 0x0C => x.macLo | 0x10 => x.macHi | 0x20 => x.rxOk | 0x24 => x.rxDrop
    | 0x28 => x.rxBad | 0x2C => x.rxNoMatch | 0x30 => x.rxPause | 0x34 => x.txOk | 0x38 => x.fwd | 0x3C => x.fwdStomp | _ => 0
  else if r < 0x140 then
    let q := 4 * p + (r - 0x100) / 0x10
    match r % 0x10 with | 0x0 => flag 0 (s.txq q).en | 0x4 => s.txqStatus q | _ => 0
  else if 0x2000 ≤ r && r < 0x2400 then s.streamWord (16 * p + (r - 0x2000) / 0x40) (r % 0x40)
  else if 0x3000 ≤ r && r < 0x3800 then (tget {} x.rules ((r - 0x3000) / 0x40)).word (r % 0x40)
  else 0

/-! ## Yazen and PTP (R415, R416) -/

/-- R398, R415: YZ_CTRL; while EN is 1 only EN changes. -/
def State.yzCtrl (s : State) (v : Word) : State :=
  let y := s.yz
  let v := clampFld (v &&& 0x1F) 1 3 0 5
  if y.en && (v ^^^ y.ctrl) >>> 1 ≠ 0 then s.setYz { y with cfgRej := true }
  else
    let s := s.setYz { y with ctrl := v }
    if !y.en && bit v 0 then s.modYz fun y => { y.enter (BitVec.ofNat 32 s.cycleNow) with snapIn := none, sentIn := none } else s

/-- Bits set in a word. -/
def popcount (v : Word) : Nat := (ones v).length

/-- R378: port `p` is one of the two ring ports that a word of YZ_PORTS names, whatever TOPO says. -/
def ringHas (w : Word) (p : Nat) : Bool := p = fld w 16 4 || p = fld w 20 4

/-- R378: the ports whose place in the ring a write of YZ_PORTS would change while they are not DISABLED. -/
def State.ringBusy (s : State) (v : Word) : List Nat :=
  (List.range 16).filter fun p => ringHas s.yz.ports p != ringHas v p && (s.port p).st ≠ .disabled

/-- R378, R415: YZ_PORTS. While EN is 1 a write is ignored, and so is one that moves the ring at a port that is not DISABLED, which sets
CFG_REJ of that port. -/
def State.yzPorts (s : State) (v : Word) : State :=
  if s.yz.en then s.modYz fun y => { y with cfgRej := true }
  else if (s.ringBusy v).isEmpty then s.modYz fun y => { y with ports := v &&& 0xFFFFFF }
  else (s.ringBusy v).foldl (fun s p => s.modPort p fun x => { x with cfgRej := true }) s

def State.yzWrite (s : State) (r : Nat) (v : Word) : State :=
  let y := s.yz
  let cfg (f : Yazen) : State := s.setYz (if y.en then { y with cfgRej := true } else f)
  match r with
  | 0x00 => s.yzCtrl v
  | 0x04 => cfg { y with etype := v &&& 0xFFFF }
  | 0x08 => s.yzPorts v
  | 0x0C => cfg { y with dmacLo := v }
  | 0x10 => cfg { y with dmacHi := v &&& 0xFFFF }
  | 0x14 => cfg { y with vlan := v &&& 0xFFFF }
  | 0x18 => s.setYz { y with txOfs := clampFld (v &&& 0xFFFFF) 0 20 1000 (31250 * 2 ^ fld y.ctrl 1 3 - 1000) }
  | 0x1C => s.setYz { y with dupNode := w1c y.dupNode v 1, slotConflict := w1c y.slotConflict v 2, cfgRej := w1c y.cfgRej v 3 }
  | 0x1A0 => s.stopWrite v
  | _ =>
    if 0x40 ≤ r && r < 0x60 then s.setYz { y with exp := tput 0 y.exp ((r - 0x40) / 4) (v &&& 0x7F) }
    else if 0x100 ≤ r && r < 0x180 then s.setYz { y with sub := tput 0 y.sub ((r - 0x100) / 4) v }
    else if 0x180 ≤ r && r < 0x1A0 then
      let own := tput 0 y.own ((r - 0x180) / 4) v
      if 16 < (own.map fun p => popcount p.2).sum then s.setYz { y with cfgRej := true } else s.setYz { y with own := own }
    else s

def State.yzWord (s : State) (r : Nat) : Word :=
  let y := s.yz
  match r with
  | 0x00 => y.ctrl | 0x04 => y.etype | 0x08 => y.ports | 0x0C => y.dmacLo | 0x10 => y.dmacHi | 0x14 => y.vlan | 0x18 => y.txOfs
  | 0x1C => s.yzStatus | 0x20 => y.cycle | 0x1A0 => y.stop | 0x1A4 => y.stopRx
  | 0x1A8 => wAt 0 y.creditA ||| wAt 8 y.creditB
  | 0x1B0 => y.bad | 0x1B4 => y.foreign | 0x1B8 => y.lateRx | 0x1BC => y.dup | 0x1C0 => y.fwdDrop | 0x1C4 => y.txDrop
  | 0x1C8 => y.rxOk | 0x1CC => y.txOk
  | _ =>
    if 0x40 ≤ r && r < 0x60 then tget 0 y.exp ((r - 0x40) / 4)
    else if 0x100 ≤ r && r < 0x180 then tget 0 y.sub ((r - 0x100) / 4)
    else if 0x180 ≤ r && r < 0x1A0 then tget 0 y.own ((r - 0x180) / 4)
    else 0

/-- R416: PTP_CTRL; while EN is 1 only EN changes. -/
def State.ptpCtrl (s : State) (v : Word) : State :=
  let q := s.net.ptp
  let v := v &&& 0xFFFFFF1F
  if bit q.ctrl 0 && (v ^^^ q.ctrl) >>> 1 ≠ 0 then s
  else s.modPtp fun q => if bit v 0 then { q with ctrl := v } else { q with ctrl := v, role := 0, locked := false }

/-- R391: a signed interval held between two limits. -/
def clampLog (w : Word) (lo : Nat) (a b : Int) : Word :=
  let x := (BitVec.ofNat 8 (fld w lo 8)).toInt
  let x := if x < a then a else if b < x then b else x
  setFld w lo 8 (BitVec.ofInt 8 x).toNat

def State.ptpWrite (s : State) (r : Nat) (v : Word) : State :=
  match r with
  | 0x00 => s.ptpCtrl v
  | 0x04 => s.modPtp fun q => { q with ports := v &&& 0xFFFF }
  | 0x08 => s.modPtp fun q => { q with log := clampLog (clampLog (clampLog (v &&& 0xFFFFFF) 0 (-7) 1) 8 (-3) 4) 16 (-7) 5 }
  | 0x0C => s.modPtp fun q => { q with stepped := w1c q.stepped v 4 }
  | _ => s

def State.ptpRead (s : State) (m : Ident) (r : Nat) : Word × State :=
  let q := s.net.ptp
  match r with
  | 0x00 => (q.ctrl, s) | 0x04 => (q.ports, s) | 0x08 => (q.log, s)
  | 0x0C => (wAt 0 q.role.toNat ||| flag 3 q.locked ||| flag 4 q.stepped ||| wAt 8 q.slavePort.toNat, s)
  | 0x10 => (q.offset, s)
  | 0x14 => s.readPtpNow m
  | 0x24 => (q.rate, s) | 0x28 => (q.discard, s)
  | _ => (if r = 0x18 || r = 0x1C || r = 0x20 then s.latched m (ptpOfs + r) else 0, s)

/-! ## Cores, memory, boot, TCM access port (R476, R477, R521, R528, R529) -/

def State.coreWrite (s : State) (m : Ident) (k r : Nat) (v : Word) : State :=
  let own := m = coreId k
  match r with
  | 0x00 => s.coreCtrl m k v
  | 0x04 => s.modCore k fun c => { c with busyRej := w1c c.busyRej v 3, lockAbandoned := w1c c.lockAbandoned v 4,
                                          wdExpired := w1c c.wdExpired v 5, dirtyLost := w1c c.dirtyLost v 6 }
  | 0x08 => s.modCore k fun c => { c with resetVec := v &&& ~~~1 }
  | 0x0C => if own then s.modCore k fun c => { c with cmoAddr := v &&& 0xFFFFFFC0 } else s
  | 0x10 => s.cmo m k v
  | 0x14 => s.modCore k fun c => { c with cmoRej := w1c c.cmoRej v 0 }
  | 0x18 => if own then (s.modCore k fun c => { c with cmpLo := v }).setMtip k else s
  | 0x1C => if own then (s.modCore k fun c => { c with cmpHi := v }).setMtip k else s
  | 0x20 =>
    let s := s.modCore k fun c => { c with msip := bit v 0 }
    if bit v 0 then s.wakeCore k else s
  | 0x24 => s.wdCtrl k v
  | 0x28 => s.wdKick m k v
  | _ => s

def State.coreWord (s : State) (k r : Nat) : Word :=
  let c := s.core k
  match r with
  | 0x00 => flag 0 c.resetBit | 0x04 => c.status | 0x08 => c.resetVec | 0x0C => c.cmoAddr | 0x14 => flag 0 c.cmoRej
  | 0x18 => c.cmpLo | 0x1C => c.cmpHi | 0x20 => flag 0 c.msip | 0x24 => c.wdCtrl | 0x2C => s.wdLeftUs k | 0x30 => c.ecc | _ => 0

def State.memWrite (s : State) (r : Nat) (v : Word) : State :=
  match r with
  | 0x20 => { s with mem := { s.mem with scrub := clampFld (v &&& 0xFFFFFF01) 8 24 64 0xFFFFFF } }
  | 0x3C => s.arbCtrl v
  | _ => s

def State.memRead (s : State) (m : Ident) (r : Nat) : Word × State :=
  let x := s.mem
  match r with
  | 0x00 => s.readMtime m
  | 0x04 => (s.latched m (memOfs + 4), s)
  | 0x10 => (x.corr, s) | 0x14 => (x.uncorr, s) | 0x18 => (x.uerr, s) | 0x20 => (x.scrub, s) | 0x24 => (x.scrubPass, s)
  | 0x30 => (x.locks, s) | 0x34 => (x.abandons, s) | 0x38 => (wAt 0 x.twait.toNat, s) | _ => (0, s)

def State.bootWrite (s : State) (m : Ident) (r : Nat) (v : Word) : State :=
  let b := s.boot
  match r with
  | 0x00 => { s with boot := { b with rej := w1c b.rej v 6 } }
  | 0x08 => { s with boot := { b with hostOfs := v &&& 0x1FFFF00 } }
  | 0x0C => s.bootGo m v
  | 0x40 => s.fuseCmd m v
  | _ => if 0x60 ≤ r && r < 0x80 then { s with boot := { b with keystage := setGroup b.keystage ((r - 0x60) / 4) v } } else s

def State.bootWord (s : State) (r : Nat) : Word :=
  let b := s.boot
  match r with
  | 0x00 => b.status | 0x04 => b.version | 0x08 => b.hostOfs | 0x44 => b.fuseStat
  | _ =>
    if 0x20 ≤ r && r < 0x40 then getGroup b.keyhash ((r - 0x20) / 4)
    else if 0x60 ≤ r && r < 0x80 then getGroup b.keystage ((r - 0x60) / 4)
    else 0

/-- R528: the core whose TCM is addressed, and the byte offset in it. -/
def Svc.tcmCore (x : Svc) : Nat := fld x.tcma 20 2
def Svc.tcmByte (x : Svc) : Nat := fld x.tcma 2 15 * 4

/-- R528: the TCM is open while its core is IN_RESET or halted. -/
def State.tcmOpen (s : State) : Bool := (s.core s.svc.tcmCore).st = .inReset || (s.core s.svc.tcmCore).halted

/-- R528: an access by 0x01 then adds 1 to OFS. -/
def State.tcmAdvance (s : State) : State :=
  { s with svc := { s.svc with tcma := setFld s.svc.tcma 2 15 (fld s.svc.tcma 2 15 + 1) } }

/-- R528: a write of TCMA_DATA. -/
def State.tcmaWrite (s : State) (m : Ident) (v : Word) : State :=
  if m ≠ 0x01 then s
  else if s.tcmOpen then (s.tcmWriteOther s.svc.tcmCore s.svc.tcmByte (leBytes 4 v.toNat)).tcmAdvance
  else ({ s with svc := { s.svc with denied := true } }).tcmAdvance

/-- R528: a read of TCMA_DATA by 0x01. -/
def State.tcmaTake (s : State) : Word × State :=
  if s.tcmOpen then
    match s.tcmRead s.svc.tcmCore s.svc.tcmByte 4 with
    | (some b, s) => (BitVec.ofNat 32 (leNat b), s.tcmAdvance)
    | (none, s) => (0, ({ s with svc := { s.svc with uerr := true } }).tcmAdvance)
  else (0, ({ s with svc := { s.svc with denied := true } }).tcmAdvance)

/-- R518, R528: what 0x20 reads there; nothing changes. -/
def State.tcmaPeek (s : State) : Word :=
  if s.tcmOpen then
    match s.tcmRead s.svc.tcmCore s.svc.tcmByte 4 with
    | (some b, _) => BitVec.ofNat 32 (leNat b)
    | (none, _) => 0
  else 0

/-- R528: a read of TCMA_DATA; only 0x01 and 0x20 reach the port. -/
def State.tcmaRead (s : State) (m : Ident) : Word × State :=
  if m = 0x01 then s.tcmaTake else if m = 0x20 then (s.tcmaPeek, s) else (0, s)

def tcmaOfs : Nat := 0x161000

def execTcmaData (t : Time) (m : Ident) (w : Option Word) (s : State) : Res :=
  match w with
  | some v => regWrite t (tcmaOfs + 4) s fun s => s.tcmaWrite m v
  | none => regRead t (tcmaOfs + 4) s fun s => s.tcmaRead m

def State.tcmaRegWrite (s : State) (m : Ident) (r : Nat) (v : Word) : State :=
  let x := s.svc
  match r with
  | 0x0 => if m = 0x01 then { s with svc := { x with tcma := v &&& 0x0031FFFC } } else s
  | 0x4 => s.tcmaWrite m v
  | 0x8 => if m = 0x01 then { s with svc := { x with denied := w1c x.denied v 0, uerr := w1c x.uerr v 1 } } else s
  | _ => s

def State.tcmaRegRead (s : State) (m : Ident) (r : Nat) : Word × State :=
  match r with
  | 0x0 => (s.svc.tcma, s) | 0x4 => s.tcmaRead m | 0x8 => (flag 0 s.svc.denied ||| flag 1 s.svc.uerr, s) | _ => (0, s)

/-! ## The block map (R522, R524) -/

/-- R522: a block of BAR0: its instances, and what a write and a read of instance `i` at offset `r` in it do. -/
structure Block where
  base : Nat
  stride : Nat
  count : Nat
  put : State → Ident → Nat → Nat → Word → State
  get : State → Ident → Nat → Nat → Word × State

/-- The offset lies in the block. -/
def Block.has (b : Block) (o : Nat) : Bool := decide (b.base ≤ o) && decide (o < b.base + b.stride * b.count)

/-- A read that changes nothing. -/
def still (f : State → Nat → Nat → Word) : State → Ident → Nat → Nat → Word × State := fun s _ i r => (f s i r, s)

def noPut : State → Ident → Nat → Nat → Word → State := fun s _ _ _ _ => s

def blocksA : List Block :=
  [ ⟨0x0, 0x14, 1, noPut, still fun s _ r => idWord s r⟩,
    ⟨0x1000, 0x18, 1, fun s _ _ r v => s.rstWrite r v, fun s m _ r => s.rstRead m r⟩,
    ⟨0x1800, 0xC0, 1, fun s _ _ r v => s.undWrite r v, fun s m _ r => s.undRead m r⟩,
    ⟨0x10000, 0x100, 64, fun s _ n r v => s.cellWrite n r v, fun s m n r => s.cellRead m n r⟩,
    ⟨0x14000, 0x40, 128, fun s _ j r v => s.capWrite j r v, fun s m j r => s.capRead m j r⟩,
    ⟨0x16000, 0x20, 256, fun s _ k r v => s.cmpWrite k r v, fun s m k r => s.cmpRead m k r⟩,
    ⟨0x18000, 0x3C, 1, fun s _ _ r v => s.startWrite r v, fun s m _ r => s.startRead m r⟩,
    ⟨0x19000, 0x6C, 1, fun s _ _ r v => if r = 0xC then s.schedCtrl v else s, still fun s _ r => s.schedWord r⟩,
    ⟨0x1A000, 4, 4096, fun s _ c _ v => s.modChan c fun h => { h with timing := clampTiming v }, still fun s c _ => (s.chan c).timing⟩,
    ⟨0x20000, 0x40, 16, fun s _ g r v => s.encWrite g r v, still State.encWord⟩,
    ⟨0x20400, 0x40, 8, fun s _ i r v => s.serWrite i r v, still State.serWord⟩,
    ⟨0x20800, 0x40, 2, fun s _ i r v => s.mainsWrite i r v, still State.mainsWord⟩,
    ⟨0x40000, 0x40, 4096, noPut, fun s m c r => s.ctxRead m c r⟩,
    ⟨0x80000, 0xC, 1, fun s _ _ r v => s.adminWrite r v, still fun s _ r => s.adminWord r⟩,
    ⟨0x81000, 0x10, 1024,
      fun s _ q r v => if r = 0 then s.modWq q fun w => { w with foreign := w1c w.foreign v 6, cfgRej := w1c w.cfgRej v 7 } else s,
      fun s m q r => s.wqRegRead m q r⟩,
    ⟨0x88000, 0x10, 1024, noPut, fun s m q r => s.eqRegRead m q r⟩,
    ⟨0x90000, 0x38, 1, fun s _ _ r v => s.xlWrite r v, fun s m _ r => s.xlRead m r⟩,
    ⟨0x91000, 0x20, 256, fun s _ d r v => s.domWrite d r v, still State.domWord⟩,
    ⟨0x94000, 0x20, 256, fun s _ d r v => s.fqWrite d r v, fun s m d r => s.fqRegRead m d r⟩,
    ⟨0x98000, 0x10, 32, fun s _ i r v => s.winWrite i r v, still State.winWord⟩ ]

def blocksB : List Block :=
  [ ⟨0xA0000, 0x20, 128, noPut, fun s m u r => s.ouRead m u r⟩,
    ⟨0xA1000, 0x1380, 1, noPut, still fun s _ r => s.fenceViewWord r⟩,
    ⟨0xB0000, 0x1980, 1, fun s m _ r v => s.lwsWrite m r v, still fun s _ r => s.lwsWord r⟩,
    ⟨0xC0000, 0x2080, 1, fun s m _ r v => s.cicWrite m r v, still fun s _ r => s.cicWord r⟩,
    ⟨0xD0000, 0x10, 2048, fun s m v' r v => s.msixWrite m v' r v, still State.msixWord⟩,
    ⟨0xD8000, 4, 64, noPut, still fun s w _ => sources32 w fun v => (s.vec v).pend⟩,
    ⟨0xE0000, 0x80, 64, fun s m b r v => s.mbWrite m b r v, fun s m b r => (s.mbWord m b r, s)⟩,
    ⟨0xE2000, 0x208, 1, fun s _ _ r v => s.mbTabWrite r v, still fun s _ r => s.mbTabWord r⟩,
    ⟨0xF0000, 0xA00, 1, fun s m _ r v => s.fcRegWrite m r v, fun s m _ r => s.fcRegRead m r⟩,
    ⟨0x100000, 0x4000, 16, fun s _ p r v => s.portWrite p r v, still State.portWord⟩,
    ⟨0x140000, 0x1D0, 1, fun s _ _ r v => s.yzWrite r v, still fun s _ r => s.yzWord r⟩,
    ⟨0x140800, 0x2C, 1, fun s _ _ r v => s.ptpWrite r v, fun s m _ r => s.ptpRead m r⟩,
    ⟨0x150000, 0x100, 4, fun s m k r v => s.coreWrite m k r v, still State.coreWord⟩,
    ⟨0x150800, 0x40, 1, fun s _ _ r v => s.memWrite r v, fun s m _ r => s.memRead m r⟩,
    ⟨0x151000, 0x28, 1, fun s _ _ r v => if r = 0x20 then s.moverCtrl v else s, fun s m _ r => s.moverRead m r⟩,
    ⟨0x151100, 8, 32, noPut, fun s m v r => if r = 0 then s.readMvState m v else (s.latched m (0x151104 + v * 8), s)⟩,
    ⟨0x154000, 4, 4096, fun s _ c _ v => s.modChan c fun h => { h with xfer := clampXfer v },
      still fun s c _ => (s.chan c).xfer ||| wAt 8 (s.chan c).prio.toNat⟩,
    ⟨0x160000, 0x80, 1, fun s m _ r v => s.bootWrite m r v, still fun s _ r => s.bootWord r⟩,
    ⟨0x161000, 0xC, 1, fun s m _ r v => s.tcmaRegWrite m r v, fun s m _ r => s.tcmaRegRead m r⟩,
    ⟨0x162000, 4, 1, fun s _ _ _ v => { s with svc := { s.svc with busReset := w1c s.svc.busReset v 1 } },
      still fun s _ _ => flag 0 s.svc.attached ||| flag 1 s.svc.busReset ||| wAt 16 s.svc.frames.toNat⟩ ]

def blockOf (o : Nat) : Option Block := (blocksA ++ blocksB).find? fun b => b.has o

/-- R11, R523, R524: a whole word written at BAR0 offset `o` by identity `m`. -/
def State.putReg (s : State) (m : Ident) (o : Nat) (v : Word) : State :=
  match blockOf o with
  | some b => b.put s m ((o - b.base) / b.stride) ((o - b.base) % b.stride) v
  | none => s

/-- R523, R524: the word at BAR0 offset `o` as identity `m` reads it, with what the read latches. -/
def State.getReg (s : State) (m : Ident) (o : Nat) : Word × State :=
  match blockOf o with
  | some b => b.get s m ((o - b.base) / b.stride) ((o - b.base) % b.stride)
  | none => (0, s)

/-- R518, R523: a write that does not enable all four bytes of an aligned word does nothing, nor does one by the service port. -/
def execRegisterWrite (t : Time) (m : Ident) (ofs : Nat) (be : BitVec 4) (v : Word) (s : State) : Res :=
  regWrite t ofs s fun s => if be = 15 && ofs % 4 = 0 && m ≠ 0x20 then s.putReg m ofs v else s

/-! ## BAR4 (R531) -/

/-- The pieces of a byte range that lie in one beat each, ascending. -/
def beatPieces (a n : Nat) : List (Nat × Nat) :=
  if n = 0 then []
  else (List.range ((a + n - 1) / 64 - a / 64 + 1)).map fun i =>
    let lo := max a ((a / 64 + i) * 64)
    (lo, min (a + n) ((a / 64 + i + 1) * 64) - lo)

/-- Bytes as the words of a completion. -/
def toWords (b : List Byte) : List Word := (List.range ((b.length + 3) / 4)).map fun i => BitVec.ofNat 32 (num b (4 * i) 4)

/-- R462, R531: the beats are read one by one; a completion with an uncorrectable word is poisoned. -/
def State.bar4Read (s : State) (a n : Nat) : State :=
  let (b, ok, s) := (beatPieces a n).foldl (fun (x : List Byte × Bool × State) p =>
    match x.2.2.sramRead p.1 p.2 with
    | (some d, s) => (x.1 ++ d, x.2.1, s)
    | (none, s) => (x.1, false, s)) ([], true, s)
  s.emit (if ok then .reply (toWords b) else .poison)

/-- R469, R531: the host reads or writes SRAM; an access to a locked beat waits. -/
def State.bar4 (s : State) (a n : Nat) (w : Option (List Byte)) : State :=
  if sramSize < a + n || s.beatLocked none a n then s
  else match w with
    | some b => s.sramWrite a (b.take n)
    | none => s.bar4Read a n

def execBar4Access (t : Time) (ofs len : Nat) (w : Option (List Byte)) (s : State) : Res :=
  match w with
  | some _ => regWrite t 0 s fun s => s.bar4 ofs len w
  | none =>
    let s := s.arrive t
    .next (if s.serves 0 then s.bar4 ofs len none
           else if s.dead then s
           else if s.rst.busy then s.emit (.reply (List.replicate ((len + 3) / 4) 0))
           else s.restAccess.emit (.reply (List.replicate ((len + 3) / 4) 0xFFFFFFFF)))

end Sys2Proof.Machine
end

