-- ==== Sys2Proof/Machine/Service.lean ====
section
/-! DEFINITION. The service port (R446, R517, R518, R529): its attachment, its bus reset and its frames, which act as identity 0x20. -/

namespace Sys2Proof.Machine

def svcId : Ident := 0x20

/-- R529: a USB host has configured the port. -/
def execServicePortAttach (t : Time) (s : State) : Res :=
  liveEvent t s fun s => { s with svc := { s.svc with attached := true } }

/-- R446, R447, R529: a bus reset or detach resets side 0x20 and what the port owes. -/
def State.usbReset (s : State) : State :=
  let s := s.mbReset [svcId]
  { s with svc := { s.svc with attached := false, busReset := true, owesCommit := false, owesFuse := false } }

def execUsbBusReset (t : Time) (s : State) : Res := liveEvent t s State.usbReset

/-- An answer: a status of R273, and words. -/
def State.answer (s : State) (status : Nat) (words : List Word) : State := s.emit (.svc (BitVec.ofNat 16 status) words)

/-- A frame reaches the port: it is counted (R529). -/
def svcFrame (t : Time) (s : State) (f : State → State) : Res :=
  liveEvent t s fun s =>
    if s.svc.attached then f { s with svc := { s.svc with frames := s.svc.frames + 1 } } else s

/-- R432, R518: a frame that writes: RESET_LOST before a reset is ready; in Rest the write is ignored, and the spec names no status:
FREE (log 2). -/
def svcWrite (t : Time) (s : State) (f : State → State) : Res :=
  svcFrame t s fun s =>
    if s.rst.busy then s.answer cResetLost []
    else if s.resting then (s.restAccess.draw).answer (Config.openWord s.free).toNat []
    else f s

/-- R518: one word of a READ: an RL word latches for 0x20, and nothing else changes. -/
def State.svcWord (s : State) (o : Nat) : Word × State :=
  if s.serves o then s.getReg svcId o
  else if s.rst.busy then (0, s)
  else (0xFFFFFFFF, s.restAccess)

def State.svcWords (s : State) (o : Nat) : Nat → List Word × State
  | 0 => ([], s)
  | n + 1 =>
    let (w, s) := s.svcWord o
    let (r, s) := s.svcWords (o + 4) n
    (w :: r, s)

/-- R517: READ: 1 to 64 words. -/
def execSvcRead (t : Time) (ofs n : Nat) (s : State) : Res :=
  svcFrame t s fun s =>
    if n = 0 || 64 < n then s.answer cInvalid []
    else
      let (l, s) := s.svcWords (ofs / 4 * 4) n
      s.answer cOk l

/-- R440, R441: MB_SEND composes the eight words and sends them. -/
def State.svcSend (s : State) (b : Nat) (words : List Word) : State :=
  let r := match (s.mb b).side svcId with
    | none => cNotPermitted
    | some a => if ((s.mb b).dir a).busy then cBusy else cOk
  let s := (List.range 8).foldl (fun s i => s.putReg svcId (mbOfs b + 4 * i) (words.getD i 0)) s
  (s.putReg svcId (mbOfs b + 0x20) 1).answer r []

def execSvcMbSend (t : Time) (b : Fin 64) (words : List Word) (s : State) : Res := svcWrite t s fun s => s.svcSend b words

/-- R442: MB_ACK. -/
def State.svcAck (s : State) (b : Nat) (rc : BitVec 16) : State :=
  let r := match (s.mb b).side svcId with
    | none => cNotPermitted
    | some a => if !((s.mb b).dir (!a)).msg then cWrongState else if 0x8000 ≤ rc.toNat then cInvalid else cOk
  (s.mbAckWrite svcId b (rc.setWidth 32)).answer r []

def execSvcMbAck (t : Time) (b : Fin 64) (rc : BitVec 16) (s : State) : Res := svcWrite t s fun s => s.svcAck b rc

/-- R370: STAGE: up to 512 bytes, within the stage. -/
def State.svcStage (s : State) (o : Nat) (b : List Byte) : State :=
  if 512 < b.length || 0x980 < o + b.length then s.answer cInvalid []
  else (s.lwsStage o b).answer (if s.lws.commit.isSome then cBusy else cOk) []

def execSvcStage (t : Time) (ofs : Nat) (bytes : List Byte) (s : State) : Res := svcWrite t s fun s => s.svcStage ofs bytes

/-- R367: COMMIT: the answer waits for BUSY to clear; a refused command is answered at once. -/
def State.svcCommit (s : State) (stamp tag v : Word) : State :=
  let busy := s.lws.commit.isSome
  let s := { s with lws := { s.lws with stamp := stamp, tag := tag } }
  let s := s.lwsCmd svcId v
  if !busy && s.lws.commit.isSome then { s with svc := { s.svc with owesCommit := true } }
  else s.emit (.svc s.lws.result [s.lws.status])

def execSvcCommit (t : Time) (stamp tag v : Word) (s : State) : Res := svcWrite t s fun s => s.svcCommit stamp tag v

/-- R513: FUSE: the digest is staged and BOOT_FUSE_CMD written. -/
def State.svcFuse (s : State) (d : BitVec 256) : State :=
  let s := { s with boot := { s.boot with keystage := d } }
  let was := s.boot.fuseBusy
  let s := s.fuseCmd svcId 0xF05E0001
  if !was && s.boot.fuseBusy then { s with svc := { s.svc with owesFuse := true } }
  else s.emit (.svc s.boot.fuseResult [s.boot.fuseStat])

def execSvcFuse (t : Time) (digest : BitVec 256) (s : State) : Res := svcWrite t s fun s => s.svcFuse digest

/-- R473: CORE_RESET. -/
def State.svcCore (s : State) (k : Nat) (v : Bool) : State :=
  let s := s.coreCtrl svcId k (flag 0 v)
  s.answer cOk [(s.core k).status]

def execSvcCoreReset (t : Time) (k : Fin 4) (v : Bool) (s : State) : Res := svcWrite t s fun s => s.svcCore k v

end Sys2Proof.Machine
end

