-- ==== Sys2Proof/Machine/Dispatch.lean ====
section
/-! DEFINITION. The dispatch of commands to their meanings: one arm per constructor of Instr. -/

namespace Sys2Proof.Machine

def exec (i : Instr) (s : State) : Host.Outcome State Fault Refusal :=
  match i with
  | .incrementalStep t g a b first => Sys2Proof.Machine.execIncrementalStep t g a b first s
  | .zLoad t g z => Sys2Proof.Machine.execZLoad t g z s
  | .serialFrameStart t ix => Sys2Proof.Machine.execSerialFrameStart t ix s
  | .serialFrameEnd t ix bits n noStart lineMeas => Sys2Proof.Machine.execSerialFrameEnd t ix bits n noStart lineMeas s
  | .mainsCrossing t ix raw => Sys2Proof.Machine.execMainsCrossing t ix raw s
  | .mainsPhaseStep t c => Sys2Proof.Machine.execMainsPhaseStep t c s
  | .timeStep t c => Sys2Proof.Machine.execTimeStep t c s
  | .syntheticStep t c => Sys2Proof.Machine.execSyntheticStep t c s
  | .mirrorPhaseStep t c => Sys2Proof.Machine.execMirrorPhaseStep t c s
  | .mirrorTimeout t c => Sys2Proof.Machine.execMirrorTimeout t c s
  | .standstill t c => Sys2Proof.Machine.execStandstill t c s
  | .cellCtrlWrite t m c v => Sys2Proof.Machine.execCellCtrlWrite t m c v s
  | .cellModWrite t m c v => Sys2Proof.Machine.execCellModWrite t m c v s
  | .loadGo t m c v => Sys2Proof.Machine.execLoadGo t m c v s
  | .synRateCommit t m c v => Sys2Proof.Machine.execSynRateCommit t m c v s
  | .mirrorOfsCommit t m c v => Sys2Proof.Machine.execMirrorOfsCommit t m c v s
  | .posFtRead t m c => Sys2Proof.Machine.execPosFtRead t m c s
  | .cmpCtrlWrite t m k v => Sys2Proof.Machine.execCmpCtrlWrite t m k v s
  | .cmpValueWrite t m k turn v => Sys2Proof.Machine.execCmpValueWrite t m k turn v s
  | .cmpFtRead t m k => Sys2Proof.Machine.execCmpFtRead t m k s
  | .captureEdge t j rising stamps => Sys2Proof.Machine.execCaptureEdge t j rising stamps s
  | .capCtrlWrite t m j v => Sys2Proof.Machine.execCapCtrlWrite t m j v s
  | .capPop t m j => Sys2Proof.Machine.execCapPop t m j s
  | .cellRelease t m => Sys2Proof.Machine.execCellRelease t m s
  | .cellHold t m => Sys2Proof.Machine.execCellHold t m s
  | .startTRead t m => Sys2Proof.Machine.execStartTRead t m s
  | .coreDebugHalt t k => Sys2Proof.Machine.execCoreDebugHalt t k s
  | .coreDebugResume t k => Sys2Proof.Machine.execCoreDebugResume t k s
  | .frzTRead t m => Sys2Proof.Machine.execFrzTRead t m s
  | .groupFetch t c h => Sys2Proof.Machine.execGroupFetch t c h s
  | .read t c => Sys2Proof.Machine.execRead t c s
  | .write t c => Sys2Proof.Machine.execWrite t c s
  | .flush t c => Sys2Proof.Machine.execFlush t c s
  | .load t c => Sys2Proof.Machine.execLoad t c s
  | .setMod t c => Sys2Proof.Machine.execSetMod t c s
  | .setRate t c => Sys2Proof.Machine.execSetRate t c s
  | .sense t c => Sys2Proof.Machine.execSense t c s
  | .move t c => Sys2Proof.Machine.execMove t c s
  | .fill t c => Sys2Proof.Machine.execFill t c s
  | .compare t c => Sys2Proof.Machine.execCompare t c s
  | .gather t c => Sys2Proof.Machine.execGather t c s
  | .tic t c => Sys2Proof.Machine.execTic t c s
  | .ticc t c => Sys2Proof.Machine.execTicc t c s
  | .waitTime t c => Sys2Proof.Machine.execWaitTime t c s
  | .waitTimeExpiry t c => Sys2Proof.Machine.execWaitTimeExpiry t c s
  | .waitPosition t c => Sys2Proof.Machine.execWaitPosition t c s
  | .waitUnit t c => Sys2Proof.Machine.execWaitUnit t c s
  | .waitCompare t c => Sys2Proof.Machine.execWaitCompare t c s
  | .waitComplete t c => Sys2Proof.Machine.execWaitComplete t c s
  | .waitTimeout t c => Sys2Proof.Machine.execWaitTimeout t c s
  | .glade t c => Sys2Proof.Machine.execGlade t c s
  | .gladeComplete t c => Sys2Proof.Machine.execGladeComplete t c s
  | .signalLevel t c => Sys2Proof.Machine.execSignalLevel t c s
  | .signalPulse t c => Sys2Proof.Machine.execSignalPulse t c s
  | .signalPattern t c => Sys2Proof.Machine.execSignalPattern t c s
  | .patternEdge t u => Sys2Proof.Machine.execPatternEdge t u s
  | .slotReserve t u => Sys2Proof.Machine.execSlotReserve t u s
  | .armCompare t c => Sys2Proof.Machine.execArmCompare t c s
  | .armCapture t c => Sys2Proof.Machine.execArmCapture t c s
  | .lock t c => Sys2Proof.Machine.execLock t c s
  | .unlock t c => Sys2Proof.Machine.execUnlock t c s
  | .lockAbandoned t c => Sys2Proof.Machine.execLockAbandoned t c s
  | .cas t c => Sys2Proof.Machine.execCas t c s
  | .mark t c => Sys2Proof.Machine.execMark t c s
  | .nop t c => Sys2Proof.Machine.execNop t c s
  | .schedEntryGrant t => Sys2Proof.Machine.execSchedEntryGrant t s
  | .stagingBegin t c => Sys2Proof.Machine.execStagingBegin t c s
  | .commit t c => Sys2Proof.Machine.execCommit t c s
  | .patternEdgeCommit t u => Sys2Proof.Machine.execPatternEdgeCommit t u s
  | .placementLock t c => Sys2Proof.Machine.execPlacementLock t c s
  | .effect t c => Sys2Proof.Machine.execEffect t c s
  | .limitExpiry t c => Sys2Proof.Machine.execLimitExpiry t c s
  | .moverGrant t => Sys2Proof.Machine.execMoverGrant t s
  | .unitAdvertise t c => Sys2Proof.Machine.execUnitAdvertise t c s
  | .burstEnd t mv => Sys2Proof.Machine.execBurstEnd t mv s
  | .hostReadCompletion t mv addr h => Sys2Proof.Machine.execHostReadCompletion t mv addr h s
  | .completionTimeout t mv addr => Sys2Proof.Machine.execCompletionTimeout t mv addr s
  | .moverPeakClr t m v => Sys2Proof.Machine.execMoverPeakClr t m v s
  | .moverBytesRead t m => Sys2Proof.Machine.execMoverBytesRead t m s
  | .mvStateRead t m mv => Sys2Proof.Machine.execMvStateRead t m mv s
  | .start t q c phy addr => Sys2Proof.Machine.execStart t q c phy addr s
  | .halt t q c => Sys2Proof.Machine.execHalt t q c s
  | .suspend t q c => Sys2Proof.Machine.execSuspend t q c s
  | .resume t q c => Sys2Proof.Machine.execResume t q c s
  | .clear t q c => Sys2Proof.Machine.execClear t q c s
  | .modify t q c phy addr mask cond => Sys2Proof.Machine.execModify t q c phy addr mask cond s
  | .storeStatus t q c phy addr => Sys2Proof.Machine.execStoreStatus t q c phy addr s
  | .drainComplete t c => Sys2Proof.Machine.execDrainComplete t c s
  | .ctxStateRead t m c => Sys2Proof.Machine.execCtxStateRead t m c s
  | .wqDoorbell t m q => Sys2Proof.Machine.execWqDoorbell t m q s
  | .pushSlotWrite t m q ofs bytes => Sys2Proof.Machine.execPushSlotWrite t m q ofs bytes s
  | .wqPiReadComplete t q h => Sys2Proof.Machine.execWqPiReadComplete t q h s
  | .entryServe t q h => Sys2Proof.Machine.execEntryServe t q h s
  | .createWq t q phy base size dom owner => Sys2Proof.Machine.execCreateWq t q phy base size dom owner s
  | .destroyWq t q => Sys2Proof.Machine.execDestroyWq t q s
  | .enableWq t q => Sys2Proof.Machine.execEnableWq t q s
  | .disableWq t q => Sys2Proof.Machine.execDisableWq t q s
  | .disableComplete t q => Sys2Proof.Machine.execDisableComplete t q s
  | .createEq t q phy base size dom note vec => Sys2Proof.Machine.execCreateEq t q phy base size dom note vec s
  | .destroyEq t q => Sys2Proof.Machine.execDestroyEq t q s
  | .bind t c wq eq dom => Sys2Proof.Machine.execBind t c wq eq dom s
  | .setPrio t c cls => Sys2Proof.Machine.execSetPrio t c cls s
  | .adminCfgWrite t m v => Sys2Proof.Machine.execAdminCfgWrite t m v s
  | .eqDoorbell t m q arm => Sys2Proof.Machine.execEqDoorbell t m q arm s
  | .eqCiReadComplete t q h => Sys2Proof.Machine.execEqCiReadComplete t q h s
  | .heldRecordPost t q => Sys2Proof.Machine.execHeldRecordPost t q s
  | .wqPiRead t m q => Sys2Proof.Machine.execWqPiRead t m q s
  | .eqResRead t m q => Sys2Proof.Machine.execEqResRead t m q s
  | .tableReadComplete t w h => Sys2Proof.Machine.execTableReadComplete t w h s
  | .xlInvGo t m v => Sys2Proof.Machine.execXlInvGo t m v s
  | .invalidationComplete t => Sys2Proof.Machine.execInvalidationComplete t s
  | .domCtrlWrite t m d v => Sys2Proof.Machine.execDomCtrlWrite t m d v s
  | .fqDb t m d v => Sys2Proof.Machine.execFqDb t m d v s
  | .fqCfgWrite t m d v => Sys2Proof.Machine.execFqCfgWrite t m d v s
  | .parkPeakClr t m v => Sys2Proof.Machine.execParkPeakClr t m v s
  | .xlHitRead t m => Sys2Proof.Machine.execXlHitRead t m s
  | .fqPiRead t m d => Sys2Proof.Machine.execFqPiRead t m d s
  | .coreWindowAccess t k addr op h => Sys2Proof.Machine.execCoreWindowAccess t k addr op h s
  | .cwCtrlWrite t m k w reg v => Sys2Proof.Machine.execCwCtrlWrite t m k w reg v s
  | .maxOn t u => Sys2Proof.Machine.execMaxOn t u s
  | .duty t u => Sys2Proof.Machine.execDuty t u s
  | .permit t ix raw => Sys2Proof.Machine.execPermit t ix raw s
  | .budgetWindowStart t => Sys2Proof.Machine.execBudgetWindowStart t s
  | .ouEdgeRead t m u => Sys2Proof.Machine.execOuEdgeRead t m u s
  | .commitFence t m v => Sys2Proof.Machine.execCommitFence t m v s
  | .commitConduct t m v => Sys2Proof.Machine.execCommitConduct t m v s
  | .commitIdentity t m v => Sys2Proof.Machine.execCommitIdentity t m v s
  | .commitComplete t readBack => Sys2Proof.Machine.execCommitComplete t readBack s
  | .lwsStageWrite t m ofs v => Sys2Proof.Machine.execLwsStageWrite t m ofs v s
  | .serviceEnQualify t raw => Sys2Proof.Machine.execServiceEnQualify t raw s
  | .portCtrlWrite t m p v => Sys2Proof.Machine.execPortCtrlWrite t m p v s
  | .portDisableComplete t p => Sys2Proof.Machine.execPortDisableComplete t p s
  | .linkChange t p up => Sys2Proof.Machine.execLinkChange t p up s
  | .frameReceive t p bytes good => Sys2Proof.Machine.execFrameReceive t p bytes good s
  | .rsCtrlWrite t m r v => Sys2Proof.Machine.execRsCtrlWrite t m r v s
  | .streamDisableComplete t r => Sys2Proof.Machine.execStreamDisableComplete t r s
  | .placementGap t c => Sys2Proof.Machine.execPlacementGap t c s
  | .txqCtrlWrite t m x v => Sys2Proof.Machine.execTxqCtrlWrite t m x v s
  | .frameTransmit t p => Sys2Proof.Machine.execFrameTransmit t p s
  | .ptpMessageRx t p msg => Sys2Proof.Machine.execPtpMessageRx t p msg s
  | .holdover t => Sys2Proof.Machine.execHoldover t s
  | .ptpNowRead t m => Sys2Proof.Machine.execPtpNowRead t m s
  | .cycleStart t => Sys2Proof.Machine.execCycleStart t s
  | .snapshot t => Sys2Proof.Machine.execSnapshot t s
  | .cyclic t => Sys2Proof.Machine.execCyclic t s
  | .yazenFrameRx t => Sys2Proof.Machine.execYazenFrameRx t s
  | .forwardDrop t ringB => Sys2Proof.Machine.execForwardDrop t ringB s
  | .ownFrameDrop t p => Sys2Proof.Machine.execOwnFrameDrop t p s
  | .lineStop t m v => Sys2Proof.Machine.execLineStop t m v s
  | .lineStopRepeat t => Sys2Proof.Machine.execLineStopRepeat t s
  | .msixIssue t => Sys2Proof.Machine.execMsixIssue t s
  | .cicDeliver t ix => Sys2Proof.Machine.execCicDeliver t ix s
  | .cicPendWrite t m w v => Sys2Proof.Machine.execCicPendWrite t m w v s
  | .cicPclrWrite t m w v => Sys2Proof.Machine.execCicPclrWrite t m w v s
  | .cicClaim t m k => Sys2Proof.Machine.execCicClaim t m k s
  | .cicComplete t m k v => Sys2Proof.Machine.execCicComplete t m k v s
  | .undRest t m v => Sys2Proof.Machine.execUndRest t m v s
  | .restEntry t => Sys2Proof.Machine.execRestEntry t s
  | .restEntryTimeout t => Sys2Proof.Machine.execRestEntryTimeout t s
  | .wakeEvent t code => Sys2Proof.Machine.execWakeEvent t code s
  | .undTimerExpiry t => Sys2Proof.Machine.execUndTimerExpiry t s
  | .wakeComplete t => Sys2Proof.Machine.execWakeComplete t s
  | .undWtRead t m => Sys2Proof.Machine.execUndWtRead t m s
  | .mbSend t m b v => Sys2Proof.Machine.execMbSend t m b v s
  | .mbAck t m b v => Sys2Proof.Machine.execMbAck t m b v s
  | .mbTimeout t b sideA => Sys2Proof.Machine.execMbTimeout t b sideA s
  | .mbBindWrite t m b v => Sys2Proof.Machine.execMbBindWrite t m b v s
  | .mbLock t m v => Sys2Proof.Machine.execMbLock t m v s
  | .usbBusReset t => Sys2Proof.Machine.execUsbBusReset t s
  | .cleanDataLines t m k v => Sys2Proof.Machine.execCleanDataLines t m k v s
  | .invalidateDataLines t m k v => Sys2Proof.Machine.execInvalidateDataLines t m k v s
  | .cleanInvalidateDataLines t m k v => Sys2Proof.Machine.execCleanInvalidateDataLines t m k v s
  | .invalidateInstructionLines t m k v => Sys2Proof.Machine.execInvalidateInstructionLines t m k v s
  | .cleanWholeDataCache t m k v => Sys2Proof.Machine.execCleanWholeDataCache t m k v s
  | .cleanInvalidateWholeDataCache t m k v => Sys2Proof.Machine.execCleanInvalidateWholeDataCache t m k v s
  | .coreAmo t k addr op v => Sys2Proof.Machine.execCoreAmo t k addr op v s
  | .coreLr t k addr => Sys2Proof.Machine.execCoreLr t k addr s
  | .coreSc t k addr v => Sys2Proof.Machine.execCoreSc t k addr v s
  | .coreReset t m k v => Sys2Proof.Machine.execCoreReset t m k v s
  | .coreInReset t k => Sys2Proof.Machine.execCoreInReset t k s
  | .coreRelease t m k v => Sys2Proof.Machine.execCoreRelease t m k v s
  | .wdCtrlWrite t m k v => Sys2Proof.Machine.execWdCtrlWrite t m k v s
  | .wdKick t m k v => Sys2Proof.Machine.execWdKick t m k v s
  | .watchdogExpiry t k => Sys2Proof.Machine.execWatchdogExpiry t k s
  | .mtip t k => Sys2Proof.Machine.execMtip t k s
  | .mtimeRead t m => Sys2Proof.Machine.execMtimeRead t m s
  | .scrubBeat t => Sys2Proof.Machine.execScrubBeat t s
  | .arbTwaitClr t m v => Sys2Proof.Machine.execArbTwaitClr t m v s
  | .schedPeakClr t m v => Sys2Proof.Machine.execSchedPeakClr t m v s
  | .faultEvent t wires => Sys2Proof.Machine.execFaultEvent t wires s
  | .parityError t => Sys2Proof.Machine.execParityError t s
  | .safeEnter t m v => Sys2Proof.Machine.execSafeEnter t m v s
  | .safeExit t m v => Sys2Proof.Machine.execSafeExit t m v s
  | .fcTkeyWrite t m v => Sys2Proof.Machine.execFcTkeyWrite t m v s
  | .fcLock t m v => Sys2Proof.Machine.execFcLock t m v s
  | .fcFirstClr t m v => Sys2Proof.Machine.execFcFirstClr t m v s
  | .fcFirstRead t m => Sys2Proof.Machine.execFcFirstRead t m s
  | .fcTrailRead t m r => Sys2Proof.Machine.execFcTrailRead t m r s
  | .fcSafeTRead t m => Sys2Proof.Machine.execFcSafeTRead t m s
  | .supplyExcursion t rail => Sys2Proof.Machine.execSupplyExcursion t rail s
  | .temperatureThreshold t upper above => Sys2Proof.Machine.execTemperatureThreshold t upper above s
  | .powerOnReset t => Sys2Proof.Machine.execPowerOnReset t s
  | .powerOnRelease t bank33 => Sys2Proof.Machine.execPowerOnRelease t bank33 s
  | .resetN t width => Sys2Proof.Machine.execResetN t width s
  | .perstN t level => Sys2Proof.Machine.execPerstN t level s
  | .flr t => Sys2Proof.Machine.execFlr t s
  | .funcReset t m v => Sys2Proof.Machine.execFuncReset t m v s
  | .functionResetReady t => Sys2Proof.Machine.execFunctionResetReady t s
  | .devtimeRead t m => Sys2Proof.Machine.execDevtimeRead t m s
  | .bootImageCheck t source image slow => Sys2Proof.Machine.execBootImageCheck t source image slow s
  | .bootHostGo t m v => Sys2Proof.Machine.execBootHostGo t m v s
  | .bootFuseCmd t m v => Sys2Proof.Machine.execBootFuseCmd t m v s
  | .fuseProgramComplete t readBack => Sys2Proof.Machine.execFuseProgramComplete t readBack s
  | .svcRead t ofs n => Sys2Proof.Machine.execSvcRead t ofs n s
  | .svcMbSend t b words => Sys2Proof.Machine.execSvcMbSend t b words s
  | .svcMbAck t b rc => Sys2Proof.Machine.execSvcMbAck t b rc s
  | .svcStage t ofs bytes => Sys2Proof.Machine.execSvcStage t ofs bytes s
  | .svcCommit t stamp tag v => Sys2Proof.Machine.execSvcCommit t stamp tag v s
  | .svcFuse t digest => Sys2Proof.Machine.execSvcFuse t digest s
  | .svcCoreReset t k v => Sys2Proof.Machine.execSvcCoreReset t k v s
  | .tcmaData t m w => Sys2Proof.Machine.execTcmaData t m w s
  | .registerWrite t m ofs be v => Sys2Proof.Machine.execRegisterWrite t m ofs be v s
  | .pulseTrailingEdge t u => Sys2Proof.Machine.execPulseTrailingEdge t u s
  | .positionEdge t u => Sys2Proof.Machine.execPositionEdge t u s
  | .fqCiReadComplete t d h => Sys2Proof.Machine.execFqCiReadComplete t d h s
  | .pcieLinkChange t up cfg => Sys2Proof.Machine.execPcieLinkChange t up cfg s
  | .ptpMessageTx t p kind => Sys2Proof.Machine.execPtpMessageTx t p kind s
  | .mainsCrossingTimeout t ix => Sys2Proof.Machine.execMainsCrossingTimeout t ix s
  | .coreWfi t k => Sys2Proof.Machine.execCoreWfi t k s
  | .coreSramAccess t k addr op => Sys2Proof.Machine.execCoreSramAccess t k addr op s
  | .bar4Access t ofs len w => Sys2Proof.Machine.execBar4Access t ofs len w s
  | .servicePortAttach t => Sys2Proof.Machine.execServicePortAttach t s

end Sys2Proof.Machine
end

