-- ==== Sys2Proof/Safety.lean ====
section
/-! DEFINITION. What the statements say of a step: that it runs, when its command arrives, four measures of what it leaves alone and the measure of
each command, a cell's step, the current command of a channel, and the invariant every step keeps. -/

namespace Sys2Proof

/-- The device time at which a command arrives or its event happens. -/
def Instr.time : Instr → Time
  | .incrementalStep t _ _ _ _ => t
  | .zLoad t _ _ => t
  | .serialFrameStart t _ => t
  | .serialFrameEnd t _ _ _ _ _ => t
  | .mainsCrossing t _ _ => t
  | .mainsPhaseStep t _ => t
  | .timeStep t _ => t
  | .syntheticStep t _ => t
  | .mirrorPhaseStep t _ => t
  | .mirrorTimeout t _ => t
  | .standstill t _ => t
  | .cellCtrlWrite t _ _ _ => t
  | .cellModWrite t _ _ _ => t
  | .loadGo t _ _ _ => t
  | .synRateCommit t _ _ _ => t
  | .mirrorOfsCommit t _ _ _ => t
  | .posFtRead t _ _ => t
  | .cmpCtrlWrite t _ _ _ => t
  | .cmpValueWrite t _ _ _ _ => t
  | .cmpFtRead t _ _ => t
  | .captureEdge t _ _ _ => t
  | .capCtrlWrite t _ _ _ => t
  | .capPop t _ _ => t
  | .cellRelease t _ => t
  | .cellHold t _ => t
  | .startTRead t _ => t
  | .coreDebugHalt t _ => t
  | .coreDebugResume t _ => t
  | .frzTRead t _ => t
  | .groupFetch t _ _ => t
  | .read t _ => t
  | .write t _ => t
  | .flush t _ => t
  | .load t _ => t
  | .setMod t _ => t
  | .setRate t _ => t
  | .sense t _ => t
  | .move t _ => t
  | .fill t _ => t
  | .compare t _ => t
  | .gather t _ => t
  | .tic t _ => t
  | .ticc t _ => t
  | .waitTime t _ => t
  | .waitTimeExpiry t _ => t
  | .waitPosition t _ => t
  | .waitUnit t _ => t
  | .waitCompare t _ => t
  | .waitComplete t _ => t
  | .waitTimeout t _ => t
  | .glade t _ => t
  | .gladeComplete t _ => t
  | .signalLevel t _ => t
  | .signalPulse t _ => t
  | .signalPattern t _ => t
  | .patternEdge t _ => t
  | .slotReserve t _ => t
  | .armCompare t _ => t
  | .armCapture t _ => t
  | .lock t _ => t
  | .unlock t _ => t
  | .lockAbandoned t _ => t
  | .cas t _ => t
  | .mark t _ => t
  | .nop t _ => t
  | .schedEntryGrant t => t
  | .stagingBegin t _ => t
  | .commit t _ => t
  | .patternEdgeCommit t _ => t
  | .placementLock t _ => t
  | .effect t _ => t
  | .limitExpiry t _ => t
  | .moverGrant t => t
  | .unitAdvertise t _ => t
  | .burstEnd t _ => t
  | .hostReadCompletion t _ _ _ => t
  | .completionTimeout t _ _ => t
  | .moverPeakClr t _ _ => t
  | .moverBytesRead t _ => t
  | .mvStateRead t _ _ => t
  | .start t _ _ _ _ => t
  | .halt t _ _ => t
  | .suspend t _ _ => t
  | .resume t _ _ => t
  | .clear t _ _ => t
  | .modify t _ _ _ _ _ _ => t
  | .storeStatus t _ _ _ _ => t
  | .drainComplete t _ => t
  | .ctxStateRead t _ _ => t
  | .wqDoorbell t _ _ => t
  | .pushSlotWrite t _ _ _ _ => t
  | .wqPiReadComplete t _ _ => t
  | .entryServe t _ _ => t
  | .createWq t _ _ _ _ _ _ => t
  | .destroyWq t _ => t
  | .enableWq t _ => t
  | .disableWq t _ => t
  | .disableComplete t _ => t
  | .createEq t _ _ _ _ _ _ _ => t
  | .destroyEq t _ => t
  | .bind t _ _ _ _ => t
  | .setPrio t _ _ => t
  | .adminCfgWrite t _ _ => t
  | .eqDoorbell t _ _ _ => t
  | .eqCiReadComplete t _ _ => t
  | .heldRecordPost t _ => t
  | .wqPiRead t _ _ => t
  | .eqResRead t _ _ => t
  | .tableReadComplete t _ _ => t
  | .xlInvGo t _ _ => t
  | .invalidationComplete t => t
  | .domCtrlWrite t _ _ _ => t
  | .fqDb t _ _ _ => t
  | .fqCfgWrite t _ _ _ => t
  | .parkPeakClr t _ _ => t
  | .xlHitRead t _ => t
  | .fqPiRead t _ _ => t
  | .coreWindowAccess t _ _ _ _ => t
  | .cwCtrlWrite t _ _ _ _ _ => t
  | .maxOn t _ => t
  | .duty t _ => t
  | .permit t _ _ => t
  | .budgetWindowStart t => t
  | .ouEdgeRead t _ _ => t
  | .commitFence t _ _ => t
  | .commitConduct t _ _ => t
  | .commitIdentity t _ _ => t
  | .commitComplete t _ => t
  | .lwsStageWrite t _ _ _ => t
  | .serviceEnQualify t _ => t
  | .portCtrlWrite t _ _ _ => t
  | .portDisableComplete t _ => t
  | .linkChange t _ _ => t
  | .frameReceive t _ _ _ => t
  | .rsCtrlWrite t _ _ _ => t
  | .streamDisableComplete t _ => t
  | .placementGap t _ => t
  | .txqCtrlWrite t _ _ _ => t
  | .frameTransmit t _ => t
  | .ptpMessageRx t _ _ => t
  | .holdover t => t
  | .ptpNowRead t _ => t
  | .cycleStart t => t
  | .snapshot t => t
  | .cyclic t => t
  | .yazenFrameRx t => t
  | .forwardDrop t _ => t
  | .ownFrameDrop t _ => t
  | .lineStop t _ _ => t
  | .lineStopRepeat t => t
  | .msixIssue t => t
  | .cicDeliver t _ => t
  | .cicPendWrite t _ _ _ => t
  | .cicPclrWrite t _ _ _ => t
  | .cicClaim t _ _ => t
  | .cicComplete t _ _ _ => t
  | .undRest t _ _ => t
  | .restEntry t => t
  | .restEntryTimeout t => t
  | .wakeEvent t _ => t
  | .undTimerExpiry t => t
  | .wakeComplete t => t
  | .undWtRead t _ => t
  | .mbSend t _ _ _ => t
  | .mbAck t _ _ _ => t
  | .mbTimeout t _ _ => t
  | .mbBindWrite t _ _ _ => t
  | .mbLock t _ _ => t
  | .usbBusReset t => t
  | .cleanDataLines t _ _ _ => t
  | .invalidateDataLines t _ _ _ => t
  | .cleanInvalidateDataLines t _ _ _ => t
  | .invalidateInstructionLines t _ _ _ => t
  | .cleanWholeDataCache t _ _ _ => t
  | .cleanInvalidateWholeDataCache t _ _ _ => t
  | .coreAmo t _ _ _ _ => t
  | .coreLr t _ _ => t
  | .coreSc t _ _ _ => t
  | .coreReset t _ _ _ => t
  | .coreInReset t _ => t
  | .coreRelease t _ _ _ => t
  | .wdCtrlWrite t _ _ _ => t
  | .wdKick t _ _ _ => t
  | .watchdogExpiry t _ => t
  | .mtip t _ => t
  | .mtimeRead t _ => t
  | .scrubBeat t => t
  | .arbTwaitClr t _ _ => t
  | .schedPeakClr t _ _ => t
  | .faultEvent t _ => t
  | .parityError t => t
  | .safeEnter t _ _ => t
  | .safeExit t _ _ => t
  | .fcTkeyWrite t _ _ => t
  | .fcLock t _ _ => t
  | .fcFirstClr t _ _ => t
  | .fcFirstRead t _ => t
  | .fcTrailRead t _ _ => t
  | .fcSafeTRead t _ => t
  | .supplyExcursion t _ => t
  | .temperatureThreshold t _ _ => t
  | .powerOnReset t => t
  | .powerOnRelease t _ => t
  | .resetN t _ => t
  | .perstN t _ => t
  | .flr t => t
  | .funcReset t _ _ => t
  | .functionResetReady t => t
  | .devtimeRead t _ => t
  | .bootImageCheck t _ _ _ => t
  | .bootHostGo t _ _ => t
  | .bootFuseCmd t _ _ => t
  | .fuseProgramComplete t _ => t
  | .svcRead t _ _ => t
  | .svcMbSend t _ _ => t
  | .svcMbAck t _ _ => t
  | .svcStage t _ _ => t
  | .svcCommit t _ _ _ => t
  | .svcFuse t _ => t
  | .svcCoreReset t _ _ => t
  | .tcmaData t _ _ => t
  | .registerWrite t _ _ _ _ => t
  | .pulseTrailingEdge t _ => t
  | .positionEdge t _ => t
  | .fqCiReadComplete t _ _ => t
  | .pcieLinkChange t _ _ => t
  | .ptpMessageTx t _ _ => t
  | .mainsCrossingTimeout t _ => t
  | .coreWfi t _ => t
  | .coreSramAccess t _ _ _ => t
  | .bar4Access t _ _ _ => t
  | .servicePortAttach t => t

/-- How much a command leaves alone: 3 as `Quiet` says, 2 as `Ran`, 1 as `Kept`, 0 as `Held`. -/
def Instr.frame : Instr → Nat
  | .incrementalStep _ _ _ _ _ => 1
  | .zLoad _ _ _ => 1
  | .serialFrameStart _ _ => 1
  | .serialFrameEnd _ _ _ _ _ _ => 1
  | .mainsCrossing _ _ _ => 1
  | .mainsPhaseStep _ _ => 1
  | .timeStep _ _ => 1
  | .syntheticStep _ _ => 1
  | .mirrorPhaseStep _ _ => 1
  | .mirrorTimeout _ _ => 1
  | .standstill _ _ => 1
  | .cellCtrlWrite _ _ _ _ => 1
  | .cellModWrite _ _ _ _ => 1
  | .loadGo _ _ _ _ => 1
  | .synRateCommit _ _ _ _ => 1
  | .mirrorOfsCommit _ _ _ _ => 1
  | .posFtRead _ _ _ => 1
  | .cmpCtrlWrite _ _ _ _ => 1
  | .cmpValueWrite _ _ _ _ _ => 1
  | .cmpFtRead _ _ _ => 1
  | .captureEdge _ _ _ _ => 2
  | .capCtrlWrite _ _ _ _ => 1
  | .capPop _ _ _ => 1
  | .cellRelease _ _ => 1
  | .cellHold _ _ => 1
  | .startTRead _ _ => 1
  | .coreDebugHalt _ _ => 1
  | .coreDebugResume _ _ => 1
  | .frzTRead _ _ => 1
  | .groupFetch _ _ _ => 1
  | .read _ _ => 3
  | .write _ _ => 3
  | .flush _ _ => 1
  | .load _ _ => 1
  | .setMod _ _ => 1
  | .setRate _ _ => 1
  | .sense _ _ => 3
  | .move _ _ => 3
  | .fill _ _ => 3
  | .compare _ _ => 3
  | .gather _ _ => 3
  | .tic _ _ => 3
  | .ticc _ _ => 3
  | .waitTime _ _ => 3
  | .waitTimeExpiry _ _ => 3
  | .waitPosition _ _ => 1
  | .waitUnit _ _ => 3
  | .waitCompare _ _ => 3
  | .waitComplete _ _ => 3
  | .waitTimeout _ _ => 3
  | .glade _ _ => 3
  | .gladeComplete _ _ => 3
  | .signalLevel _ _ => 3
  | .signalPulse _ _ => 3
  | .signalPattern _ _ => 3
  | .patternEdge _ _ => 3
  | .slotReserve _ _ => 3
  | .armCompare _ _ => 2
  | .armCapture _ _ => 2
  | .lock _ _ => 3
  | .unlock _ _ => 3
  | .lockAbandoned _ _ => 3
  | .cas _ _ => 3
  | .mark _ _ => 3
  | .nop _ _ => 3
  | .schedEntryGrant _ => 2
  | .stagingBegin _ _ => 3
  | .commit _ _ => 3
  | .patternEdgeCommit _ _ => 3
  | .placementLock _ _ => 3
  | .effect _ _ => 1
  | .limitExpiry _ _ => 3
  | .moverGrant _ => 3
  | .unitAdvertise _ _ => 3
  | .burstEnd _ _ => 1
  | .hostReadCompletion _ _ _ _ => 3
  | .completionTimeout _ _ _ => 3
  | .moverPeakClr _ _ _ => 1
  | .moverBytesRead _ _ => 1
  | .mvStateRead _ _ _ => 1
  | .start _ _ _ _ _ => 3
  | .halt _ _ _ => 3
  | .suspend _ _ _ => 3
  | .resume _ _ _ => 3
  | .clear _ _ _ => 3
  | .modify _ _ _ _ _ _ _ => 3
  | .storeStatus _ _ _ _ _ => 3
  | .drainComplete _ _ => 3
  | .ctxStateRead _ _ _ => 1
  | .wqDoorbell _ _ _ => 1
  | .pushSlotWrite _ _ _ _ _ => 1
  | .wqPiReadComplete _ _ _ => 3
  | .entryServe _ _ _ => 2
  | .createWq _ _ _ _ _ _ _ => 2
  | .destroyWq _ _ => 2
  | .enableWq _ _ => 2
  | .disableWq _ _ => 2
  | .disableComplete _ _ => 3
  | .createEq _ _ _ _ _ _ _ _ => 2
  | .destroyEq _ _ => 2
  | .bind _ _ _ _ _ => 2
  | .setPrio _ _ _ => 2
  | .adminCfgWrite _ _ _ => 1
  | .eqDoorbell _ _ _ _ => 1
  | .eqCiReadComplete _ _ _ => 3
  | .heldRecordPost _ _ => 2
  | .wqPiRead _ _ _ => 1
  | .eqResRead _ _ _ => 1
  | .tableReadComplete _ _ _ => 3
  | .xlInvGo _ _ _ => 1
  | .invalidationComplete _ => 3
  | .domCtrlWrite _ _ _ _ => 1
  | .fqDb _ _ _ _ => 1
  | .fqCfgWrite _ _ _ _ => 1
  | .parkPeakClr _ _ _ => 1
  | .xlHitRead _ _ => 1
  | .fqPiRead _ _ _ => 1
  | .coreWindowAccess _ _ _ _ _ => 3
  | .cwCtrlWrite _ _ _ _ _ _ => 1
  | .maxOn _ _ => 3
  | .duty _ _ => 3
  | .permit _ _ _ => 1
  | .budgetWindowStart _ => 3
  | .ouEdgeRead _ _ _ => 1
  | .commitFence _ _ _ => 0
  | .commitConduct _ _ _ => 0
  | .commitIdentity _ _ _ => 0
  | .commitComplete _ _ => 0
  | .lwsStageWrite _ _ _ _ => 0
  | .serviceEnQualify _ _ => 0
  | .portCtrlWrite _ _ _ _ => 1
  | .portDisableComplete _ _ => 3
  | .linkChange _ _ _ => 1
  | .frameReceive _ _ _ _ => 1
  | .rsCtrlWrite _ _ _ _ => 1
  | .streamDisableComplete _ _ => 3
  | .placementGap _ _ => 3
  | .txqCtrlWrite _ _ _ _ => 1
  | .frameTransmit _ _ => 3
  | .ptpMessageRx _ _ _ => 1
  | .holdover _ => 3
  | .ptpNowRead _ _ => 1
  | .cycleStart _ => 3
  | .snapshot _ => 1
  | .cyclic _ => 3
  | .yazenFrameRx _ => 0
  | .forwardDrop _ _ => 3
  | .ownFrameDrop _ _ => 3
  | .lineStop _ _ _ => 1
  | .lineStopRepeat _ => 3
  | .msixIssue _ => 3
  | .cicDeliver _ _ => 3
  | .cicPendWrite _ _ _ _ => 1
  | .cicPclrWrite _ _ _ _ => 1
  | .cicClaim _ _ _ => 1
  | .cicComplete _ _ _ _ => 1
  | .undRest _ _ _ => 1
  | .restEntry _ => 1
  | .restEntryTimeout _ => 1
  | .wakeEvent _ _ => 1
  | .undTimerExpiry _ => 1
  | .wakeComplete _ => 1
  | .undWtRead _ _ => 1
  | .mbSend _ _ _ _ => 1
  | .mbAck _ _ _ _ => 1
  | .mbTimeout _ _ _ => 1
  | .mbBindWrite _ _ _ _ => 1
  | .mbLock _ _ _ => 1
  | .usbBusReset _ => 0
  | .cleanDataLines _ _ _ _ => 1
  | .invalidateDataLines _ _ _ _ => 1
  | .cleanInvalidateDataLines _ _ _ _ => 1
  | .invalidateInstructionLines _ _ _ _ => 1
  | .cleanWholeDataCache _ _ _ _ => 1
  | .cleanInvalidateWholeDataCache _ _ _ _ => 1
  | .coreAmo _ _ _ _ _ => 3
  | .coreLr _ _ _ => 3
  | .coreSc _ _ _ _ => 3
  | .coreReset _ _ _ _ => 1
  | .coreInReset _ _ => 1
  | .coreRelease _ _ _ _ => 1
  | .wdCtrlWrite _ _ _ _ => 1
  | .wdKick _ _ _ _ => 1
  | .watchdogExpiry _ _ => 1
  | .mtip _ _ => 3
  | .mtimeRead _ _ => 1
  | .scrubBeat _ => 3
  | .arbTwaitClr _ _ _ => 1
  | .schedPeakClr _ _ _ => 1
  | .faultEvent _ _ => 0
  | .parityError _ => 0
  | .safeEnter _ _ _ => 0
  | .safeExit _ _ _ => 0
  | .fcTkeyWrite _ _ _ => 1
  | .fcLock _ _ _ => 1
  | .fcFirstClr _ _ _ => 1
  | .fcFirstRead _ _ => 1
  | .fcTrailRead _ _ _ => 1
  | .fcSafeTRead _ _ => 1
  | .supplyExcursion _ _ => 3
  | .temperatureThreshold _ _ _ => 3
  | .powerOnReset _ => 0
  | .powerOnRelease _ _ => 0
  | .resetN _ _ => 0
  | .perstN _ _ => 0
  | .flr _ => 0
  | .funcReset _ _ _ => 0
  | .functionResetReady _ => 0
  | .devtimeRead _ _ => 1
  | .bootImageCheck _ _ _ _ => 0
  | .bootHostGo _ _ _ => 0
  | .bootFuseCmd _ _ _ => 0
  | .fuseProgramComplete _ _ => 0
  | .svcRead _ _ _ => 0
  | .svcMbSend _ _ _ => 0
  | .svcMbAck _ _ _ => 0
  | .svcStage _ _ _ => 0
  | .svcCommit _ _ _ _ => 0
  | .svcFuse _ _ => 0
  | .svcCoreReset _ _ _ => 0
  | .tcmaData _ _ _ => 0
  | .registerWrite _ _ _ _ _ => 0
  | .pulseTrailingEdge _ _ => 3
  | .positionEdge _ _ => 3
  | .fqCiReadComplete _ _ _ => 3
  | .pcieLinkChange _ _ _ => 3
  | .ptpMessageTx _ _ _ => 3
  | .mainsCrossingTimeout _ _ => 1
  | .coreWfi _ _ => 1
  | .coreSramAccess _ _ _ _ => 3
  | .bar4Access _ _ _ _ => 1
  | .servicePortAttach _ => 0

end Sys2Proof

namespace Sys2Proof.Machine

/-- The command runs: its outcome is a next state. -/
def Runs (r : Res) : Prop := ∃ s, r = .next s

/-- Every operation leaves the queue alone and keeps the memories in canonical form. -/
structure Held (s u : State) : Prop where
  pending : u.pending = s.pending
  wf : s.mem.wf = true → u.mem.wf = true

/-- An operation of the engine also leaves time, the store, boot, reset and service registers alone. -/
structure Kept (s u : State) : Prop extends Held s u where
  now : u.now = s.now
  lws : u.lws = s.lws
  boot : u.boot = s.boot
  rst : u.rst = s.rst
  svc : u.svc = s.svc

/-- An operation that runs channels also leaves cells, the Understory, mailboxes and latched words alone. -/
structure Ran (s u : State) : Prop extends Kept s u where
  axes : u.axes = s.axes
  und : u.und = s.und
  mbox : u.mbox = s.mbox
  latches : u.latches = s.latches

/-- It leaves the compare and capture units alone too. -/
structure Quiet (s u : State) : Prop extends Ran s u where
  cmps : u.cmps = s.cmps
  caps : u.caps = s.caps

/-- A change of a cell that is no step: of the compare units nothing changes but the firing times that they predict (R93), and of the capture
units nothing does. -/
structure Aims (s u : State) : Prop extends Kept s u where
  cmps : ∀ k, u.cmp k = { s.cmp k with due := (u.cmp k).due }
  caps : u.caps = s.caps

/-- R56 to R59: cell `c` has become `d` by a step of `k` counts with modulus `m`, stamped `stamp`: within the lap the phase moves modulo `m` and
the turn by the laps ended; from a phase outside the modulus a step ends the lap early (SHORT_LAP, log 14). R47, R54, R74: the phase steps of a
MAINS or a MIRROR cell are no samples and stamp nothing. Besides phase, turn, direction, fraction, flags, the mark of a load (R61) and what the
estimator keeps of its samples, nothing of the cell changes. -/
structure Moves (c d : Cell) (k : Int) (m : Nat) (stamp : Time) : Prop where
  inLap : c.phase.toNat < m → (d.phase.toNat : Int) = ((c.phase.toNat : Int) + k) % m ∧
    d.turn = c.turn + BitVec.ofInt 48 (((c.phase.toNat : Int) + k) / m)
  outUp : m ≤ c.phase.toNat → 0 < k → d.phase = 0 ∧ d.turn = c.turn + 1 ∧ bit d.flags 8 = true
  outDown : m ≤ c.phase.toNat → k < 0 → d.phase.toNat = m - 1 ∧ d.turn = c.turn ∧ bit d.flags 8 = true
  dir : d.dir = if 0 < k then 0 else 1
  stamped : c.mode ≠ 3 → c.mode ≠ 7 → d.lastT = some stamp
  flags : d.flags &&& ~~~0x2100 = c.flags &&& ~~~0x2100
  rest : d = { c with phase := d.phase, turn := d.turn, dir := d.dir, flags := d.flags, frac := d.frac, est := d.est, hist := d.hist,
                      odo := d.odo, reachUp := d.reachUp, predLin := d.predLin, lastT := d.lastT, prevT := d.prevT, past := d.past,
                      loadAt := none }

/-- A step of cell `n` reaches no other cell but a run of CASCADE cells above it (R50). -/
def OnlyCell (n : Nat) (s u : State) : Prop := ∀ j, j ≠ n → (j < n ∨ (s.cell j).mode ≠ 5) → u.cell j = s.cell j

/-- R239, R243: the engine runs, and the current command of channel `c` is an untimed one of opcode `op`, checked and ready; the channel is
ACTIVE, or drains while its bracket runs on. -/
structure Current (s : State) (c op : Nat) : Prop where
  up : s.up = true
  st : (s.chan c).st = .active ∨ (s.chan c).st = .haltPending ∧ (s.chan c).inBracket = true
  act : (s.chan c).act = .ready
  tm : (s.chan c).cur.tm = false
  op : (s.chan c).cur.op = op

/-- Channel `c` alone of the channels has changed. -/
def OnlyChan (c : Nat) (s u : State) : Prop := ∀ j, j ≠ c → u.chan j = s.chan j

/-- R361, R362, R368, R371: the limited-write store is in order. A commit in progress has programmed the last slot of its target, not VALID yet;
no target has more slots than it may; each slot has its ledger record; and while the part is not held in reset, the fence image in force is the newest
VALID one. -/
structure StoreOk (s : State) : Prop where
  commit : ∀ k, s.lws.commit = some k → (k.target = 1 ∨ k.target = 2 ∨ k.target = 3) ∧
    (s.lws.slots k.target).getLast? = some { valid := false, image := k.image }
  room : s.lws.fence.length ≤ 32 ∧ s.lws.conduct.length ≤ 4 ∧ s.lws.ident.length ≤ 8
  ledger : s.lws.ledger.length = s.lws.fence.length + s.lws.conduct.length + s.lws.ident.length
  inForce : s.dead = false → s.lws.fenceImg = newest s.lws.fence

/-- What every step keeps: memory in its canonical form, and the store in order. -/
def State.Inv (s : State) : Prop := s.mem.wf = true ∧ StoreOk s

end Sys2Proof.Machine
end

