-- ==== Sys2Proof/Certificates/Slice0/Obligations.lean ====
section
/-! DEFINITION. The statements for the provers, by chapter of the spec. `Kept`, `Ran`, `Quiet`, `Moves`, `Current` and `StoreOk` stand in Safety.lean. -/

open Sys2Proof Sys2Proof.Machine

/-! ## Counter cells (02_counter_cells.md) -/

/-- R33, R35: a filter takes a sample of its pin every D cycles and accepts the other level where F samples in a row show it, with the time stamp
of the raw transition before the first of them.

R34 to R38, R56 to R58, R550: an accepted level change of one encoder input is one step of every running INCREMENTAL cell bound to the
group, stamped at the pin; no cell that is neither bound nor a CASCADE changes. A change of both levels at one sample makes no step: it counts an
error and sets QUAD_ERR at every bound cell, sets the group's QUAD_ERR and reports the group's source. In ×4 decoding the forward sequence of
(A, B) is 00, 10, 11, 01, 00. Where nothing is accepted, the filters alone move on.

R39, R61, R62: a rising Z edge sets Z_SEEN; with Z_EN it loads ENC_ZPHASE into the phase of every bound INCREMENTAL cell, on every Z
(Z_MODE 10) or on the first since Z_SEEN was 0 (Z_MODE 01), turn unchanged; a cell whose modulus is not above ENC_ZPHASE rejects the load. -/
def Obligations.EncoderEdgesStepAndLoadBoundCells : Prop :=
  (
  (∀ (f : Filt) (d n : Nat) (level : Bool) (last : Nat),
    ((f.sample d n level last).2.isSome = true ↔ f.raw ≠ level ∧ max 1 (n - f.run) ≤ last / d - f.at_ / d) ∧
    (∀ p, (f.sample d n level last).2 = some p → p.1 = (f.at_ / d + max 1 (n - f.run)) * d ∧ p.2 = if f.run = 0 then f.rawT else f.stamp) ∧
    (f.raw = level → f.at_ / d < last / d → (f.sample d n level last).1.run = 0)) ∧
  (∀ (t : Time) (g : Fin 16) (al bl : List Time) (x0 : Bool × Bool) (l r : List (Time × Bool)) (s : State) (e : EncGroup) (fa fb : Filt)
      (la lb : List Accept), l = edges x0.1 al → r = edges x0.2 bl → s.up = true → e = s.enc g → Filt.feed e.sdiv e.filtN (max s.now t) l e.a e.fa = (fa, la) →
    Filt.feed e.sdiv e.filtN (max s.now t) r e.b e.fb = (fb, lb) →
    (la = [] → lb = [] → exec (.incrementalStep t g al bl x0) s = .next ((s.arrive t).setEnc g { e with fa := fa, fb := fb })) ∧
    (∀ (x : Accept) (a b : Bool) (k : Int), la ++ lb = [x] → a = (if la = [] then e.a else x.level) → b = (if lb = [] then e.b else x.level) →
      k = (if bit e.ctrl 2 then decodeAB (fld e.ctrl 0 2) e.b e.a b a else decodeAB (fld e.ctrl 0 2) e.a e.b a b) →
      ∃ u, exec (.incrementalStep t g al bl x0) s = .next u ∧ u.enc g = { e with fa := fa, fb := fb, a := a, b := b } ∧
        (∀ n < 64, (s.cell n).mode = 1 → (s.cell n).src = g → k ≠ 0 → s.running n = true →
          Moves (s.cell n) (u.cell n) (if (s.cell n).dirInv then -k else k) ((s.cell n).modFor (max s.now t)) x.stamp) ∧
        (∀ n, (s.cell n).mode ≠ 5 → ¬(n < 64 ∧ (s.cell n).mode = 1 ∧ (s.cell n).src = g ∧ k ≠ 0) → u.cell n = s.cell n) ∧
        Kept (s.arrive t) u) ∧
    (∀ x y : Accept, la = [x] → lb = [y] → x.at_ = y.at_ → e.a ≠ x.level → e.b ≠ y.level →
      ∃ u, exec (.incrementalStep t g al bl x0) s = .next u ∧
        u.enc g = { e with fa := fa, fb := fb, a := x.level, b := y.level, quadErr := true } ∧
        (∀ n, u.cell n = if n < 64 ∧ (s.cell n).mode = 1 ∧ (s.cell n).src = g then
          { s.cell n with quad := satInc (s.cell n).quad, flags := (s.cell n).flags ||| 0x200 } else s.cell n) ∧
        u.fc = { s.fc with raised := s.fc.raised ||| BitVec.ofNat 256 (1 <<< g.val) } ∧
        u = { s with now := max s.now t, axes := u.axes, fc := u.fc })) ∧
  (∀ pa pb a b, (pa = a) ≠ (pb = b) → decodeAB 0 pa pb a b = if (pa = pb) ↔ pa ≠ a then 1 else -1)) ∧
  (
  ∀ (t : Time) (g : Fin 16) (l : List (Time × Bool)) (s : State) (e : EncGroup) (f : Filt) (acc : List Accept),
    s.up = true → e = s.enc g → Filt.feed e.sdiv e.filtN (max s.now t) l e.z e.fz = (f, acc) →
    (acc = [] → exec (.zLoad t g l) s = .next ((s.arrive t).setEnc g { e with fz := f })) ∧
    (∀ (x : Accept) (acts : Bool), acc = [x] →
      acts = (!e.z && x.level && bit e.ctrl 3 && (fld e.ctrl 4 2 == 2 || (fld e.ctrl 4 2 == 1 && !e.zSeen))) →
      ∃ u, exec (.zLoad t g l) s = .next u ∧
        u.enc g = { e with fz := f, z := x.level, zSeen := e.zSeen || (!e.z && x.level) } ∧
        (∀ n, acts = true → n < 64 → (s.cell n).mode = 1 → (s.cell n).src = g → e.zphase.toNat < (s.cell n).modN →
          (u.cell n).phase = e.zphase ∧ (u.cell n).frac = 0 ∧ (u.cell n).turn = (s.cell n).turn ∧
          (u.cell n).hist = (s.cell n).hist ∧ (u.cell n).est = (s.cell n).est) ∧
        (∀ n, acts = true → n < 64 → (s.cell n).mode = 1 → (s.cell n).src = g → (s.cell n).modN ≤ e.zphase.toNat →
          u.cell n = { s.cell n with flags := (s.cell n).flags ||| 0x8000 }) ∧
        (∀ n, ¬(acts = true ∧ n < 64 ∧ (s.cell n).mode = 1 ∧ (s.cell n).src = g) → u.cell n = s.cell n) ∧
        Kept (s.arrive t) u))

/-- R49, R51, R56: a TIME cell steps forward once its divider's cycles have passed, and the next period runs from that instant with the divider
last written; a SYNTHETIC cell steps when the integer part of its accumulator changes, in the sign of its rate. R47, R54: between crossings or
samples the phase of a MAINS cell follows the prediction, no further than one count short of the end of its lap, and that of a MIRROR cell
follows it, never against the direction of its latest step; such a step is no sample and leaves the time stamps of the samples alone.

R41 to R44: at a cycle instant a running interface starts a frame, or sets SKIP where one is still in progress or the line recovers; the next
instant lies SER_CYCLE further. A complete good frame becomes the previous good word, and its distance from the word before, taken in
(−2^(BITS−1), 2^(BITS−1)], is one step of every running bound cell, stamped at the sample instant; where it makes no step, it brings a lost estimator
that is neither held nor frozen back to SEEDED. A discarded frame counts at every bound cell, and the third in a row puts the estimator of every
enabled bound cell that is neither held nor frozen in LOST and sets SRC_LOST. -/
def Obligations.TimedPredictedAndSerialStepsOfCells : Prop :=
  (
  (∀ (t : Time) (c : Fin 64) (s : State), s.up = true → s.running c = true → (s.cell c).mode = 4 →
    (s.cell c).origin + 8 * zero32 (s.cell c).divAct ≤ max s.now t →
    ∃ u, exec (.timeStep t c) s = .next u ∧
      Moves { s.cell c with origin := (s.cell c).origin + 8 * zero32 (s.cell c).divAct, divAct := (s.cell c).div } (u.cell c) 1
        ((s.cell c).modFor (max s.now t)) ((s.cell c).origin + 8 * zero32 (s.cell c).divAct) ∧
      OnlyCell c s u ∧ Kept (s.arrive t) u) ∧
  (∀ (t : Time) (c : Fin 64) (s : State) (k : Nat), s.up = true → s.running c = true → (s.cell c).mode = 6 →
    (s.cell c).synCycles = some k → (s.cell c).origin + 8 * k ≤ max s.now t →
    ∃ u, exec (.syntheticStep t c) s = .next u ∧
      Moves ((s.cell c).synSettle ((s.cell c).origin + 8 * k)) (u.cell c) (if 0 < (s.cell c).rateHeld then 1 else -1)
        ((s.cell c).modFor (max s.now t)) ((s.cell c).origin + 8 * k) ∧
      OnlyCell c s u ∧ Kept (s.arrive t) u) ∧
  (∀ (t : Time) (c : Fin 64) (s : State) (p k : Int), s.up = true → s.running c = true → (s.cell c).mode = 3 →
    (s.cell c).modelCount (max s.now t) = some p →
    k = (if (s.cell c).dirInv then max (p - (s.cell c).odo) (s.cell c).lapRoom else min (p - (s.cell c).odo) (s.cell c).lapRoom) →
    (if (s.cell c).dirInv then k < 0 else 0 < k) →
    ∃ u, exec (.mainsPhaseStep t c) s = .next u ∧
      Moves (s.cell c) (u.cell c) k ((s.cell c).modFor (max s.now t)) (max s.now t) ∧ (u.cell c).odo = (s.cell c).odo + k ∧
      (u.cell c).lastT = (s.cell c).lastT ∧ (u.cell c).hist = (s.cell c).hist ∧
      OnlyCell c s u ∧ Kept (s.arrive t) u) ∧
  (∀ c : Cell, c.phase.toNat < c.modN → c.lapRoom = if c.dirInv then (if c.phase = 0 then 1 - (c.modN : Int) else 1 - c.phase.toNat)
    else (c.modN : Int) - 1 - c.phase.toNat) ∧
  (∀ (t : Time) (c : Fin 64) (s : State) (m : Model) (k : Int), s.up = true → s.running c = true → (s.cell c).mode = 7 →
    (s.cell c).model = some m → k = m.pos (max s.now t) / oneCount - (s.cell c).odo →
    ((s.cell c).dir = 0 ∧ 0 < k ∨ (s.cell c).dir = 1 ∧ k < 0) →
    ∃ u, exec (.mirrorPhaseStep t c) s = .next u ∧
      Moves (s.cell c) (u.cell c) k ((s.cell c).modFor (max s.now t)) (max s.now t) ∧ (u.cell c).odo = (s.cell c).odo + k ∧
      (u.cell c).lastT = (s.cell c).lastT ∧ (u.cell c).hist = (s.cell c).hist ∧
      OnlyCell c s u ∧ Kept (s.arrive t) u)) ∧
  (
  (∀ (t : Time) (i : Fin 8) (s : State) (x y : SerIf), s.up = true → x = s.ser i → x.run = true →
    y = { x with due := x.due + ns (fld x.cycle 0 20) } →
    (x.due ≤ max s.now t → exec (.serialFrameStart t i) s = .next ((s.arrive t).setSer i
      (if x.frame.isSome || decide (x.due < x.recover) then { y with flags := x.flags ||| 0x20 } else { y with frame := some x.due }))) ∧
    (max s.now t < x.due → exec (.serialFrameStart t i) s = .next (s.arrive t))) ∧
  (∀ (t : Time) (i : Fin 8) (bits : BitVec 64) (n : Nat) (lm : BitVec 16) (s : State) (f0 : Time) (p : BitVec 64) (d : Int),
    s.up = true → (s.ser i).frame = some f0 → (s.ser i).prev = some p → ((s.ser i).decode bits.toNat n).complete = true →
    ((s.ser i).biss = true → ((s.ser i).decode bits.toNat n).crcOk = true ∧ ((s.ser i).decode bits.toNat n).alarm = false) →
    d = serialDelta (s.ser i).bits ((s.ser i).decode bits.toNat n).word p.toNat →
    ∃ u, exec (.serialFrameEnd t i bits n false lm) s = .next u ∧
      (u.ser i).prev = some (BitVec.ofNat 64 ((s.ser i).decode bits.toNat n).word) ∧ (u.ser i).frame = none ∧ (u.ser i).consec = 0 ∧
      (∀ c < 64, (s.cell c).mode = 2 → (s.cell c).src = i → s.running c = true → ((s.cell c).initAbs = false ∨ (s.cell c).absFirst = false) →
        (d ≠ 0 → Moves (s.cell c) (u.cell c) (if (s.cell c).dirInv then -d else d) ((s.cell c).modFor (max s.now t))
          (f0 + ns (fld (s.ser i).delay 0 16))) ∧
        (d = 0 → (u.cell c).phase = (s.cell c).phase ∧ (u.cell c).turn = (s.cell c).turn ∧
          ((s.cell c).est = .lost → (u.cell c).est = .seeded))) ∧
      (∀ c, (s.cell c).mode ≠ 5 → ¬(c < 64 ∧ (s.cell c).mode = 2 ∧ (s.cell c).src = i) → u.cell c = s.cell c) ∧
      Kept (s.arrive t) u) ∧
  (∀ (t : Time) (i : Fin 8) (bits : BitVec 64) (n : Nat) (noStart : Bool) (lm : BitVec 16) (s : State) (f0 : Time),
    s.up = true → (s.ser i).frame = some f0 →
    (noStart = true ∨ (s.ser i).biss = true ∧
      (((s.ser i).decode bits.toNat n).crcOk = false ∨ ((s.ser i).decode bits.toNat n).alarm = true)) →
    ∃ u, exec (.serialFrameEnd t i bits n noStart lm) s = .next u ∧
      (u.ser i).consec = satInc (s.ser i).consec ∧ (u.ser i).frame = none ∧ (u.ser i).prev = (s.ser i).prev ∧
      (∀ c < 64, (s.cell c).mode = 2 → (s.cell c).src = i →
        (u.cell c).ser = satInc (s.cell c).ser ∧ bit (u.cell c).flags 10 = true ∧ (u.cell c).phase = (s.cell c).phase ∧
        (u.cell c).turn = (s.cell c).turn ∧ (u.cell c).ctrl = (s.cell c).ctrl ∧
        (3 ≤ (satInc (s.ser i).consec).toNat → (s.cell c).en = true → s.held c = false → s.frozen c = false → (u.cell c).est = .lost) ∧
        ((satInc (s.ser i).consec).toNat = 3 → (s.cell c).en = true → (s.cell c).est ≠ .lost → bit (u.cell c).flags 12 = true) ∧
        ((satInc (s.ser i).consec).toNat < 3 ∨ s.held c = true ∨ s.frozen c = true → (u.cell c).est = (s.cell c).est)) ∧
      (∀ c, ¬(c < 64 ∧ (s.cell c).mode = 2 ∧ (s.cell c).src = i) → u.cell c = s.cell c) ∧
      Kept (s.arrive t) u))

/-- R46, R48: a crossing is qualified once the comparator has stood above zero for QUAL microseconds, and takes effect as of the comparator's rise;
LEVEL falls with the comparator. A qualified rising crossing records its time and the period since the one before, sets RANGE where that period
lies outside 40 Hz to 70 Hz, and takes every running bound MAINS cell to phase 0, one lap on (one lap back under DIR_INV, where it stands at
phase 0), stamped at the crossing; a crossing out of range also sets MAINS_RANGE there and restarts the estimator at that crossing.

R55, R69: a MIRROR cell whose samples have stayed away for MIRROR_SRC.TIMEOUT cycles sets SRC_LOST, its source is reported, and its estimator goes
LOST unless it is held or frozen; a cell whose newest sample lies further back than its standstill limit goes to STANDSTILL with no history. The
position holds. -/
def Obligations.CrossingsEndTheLapAndSilenceIsNoticed : Prop :=
  (
  (∀ (t : Time) (i : Fin 2) (stamp : Nat) (s : State) (x : MainsIn) (out : Bool),
    s.up = true → x = s.mainsIn i → bit x.ctrl 0 = true → x.raw = true → x.level = false → stamp = x.rawT →
    stamp + us (fld x.ctrl 8 8) ≤ max s.now t →
    out = x.lastX.elim false (fun l => decide (stamp - l < 114288000) || decide (200000000 < stamp - l)) →
    ∃ u, exec (.mainsCrossing t i []) s = .next u ∧
      u.mainsIn i = { x with level := true, lastX := some stamp, range := x.range || out,
                             period := x.lastX.elim x.period fun l => BitVec.ofNat 32 (stamp - l) } ∧
      (∀ n < 64, (s.cell n).mode = 3 → (s.cell n).src = i → s.running n = true →
        (s.cell n).phase.toNat < (s.cell n).modFor (max s.now t) →
        (u.cell n).phase = 0 ∧
        (u.cell n).turn = (if (s.cell n).dirInv then (if (s.cell n).phase = 0 then (s.cell n).turn - 1 else (s.cell n).turn)
          else (s.cell n).turn + 1) ∧
        (u.cell n).lastT = some stamp ∧
        (out = true → bit (u.cell n).flags 11 = true ∧ (u.cell n).est = .seeded ∧ (u.cell n).hist.map (·.time) = [stamp])) ∧
      (∀ n, (s.cell n).mode ≠ 5 → ¬(n < 64 ∧ (s.cell n).mode = 3 ∧ (s.cell n).src = i) → u.cell n = s.cell n) ∧
      Kept (s.arrive t) u) ∧
  (∀ (t : Time) (i : Fin 2) (s : State) (x : MainsIn), s.up = true → x = s.mainsIn i →
    (x.raw = false ∨ x.level = true ∨ max s.now t < x.rawT + us (fld x.ctrl 8 8)) →
    exec (.mainsCrossing t i []) s = .next (s.arrive t) ∧
    ((x.raw = false ∨ x.level = true) → ∀ τ, exec (.mainsCrossing t i [(τ, false)]) s = .next (if x.raw then
      (s.arrive t).setMainsIn i { x with raw := false, rawT := min τ (max s.now t), level := false } else s.arrive t)))) ∧
  (
  (∀ (t : Time) (c : Fin 64) (s : State), s.up = true → (s.cell c).mode = 7 → (s.cell c).en = true → (s.cell c).mirOut = false →
    (s.cell c).mirLast + fld (s.cell c).mirrorSrc 16 8 * s.tCyc ≤ max s.now t →
    ∃ u, exec (.mirrorTimeout t c) s = .next u ∧ (u.cell c).mirOut = true ∧
      (u.cell c).flags = (s.cell c).flags ||| 0x1000 ∧ (s.held c = false → s.frozen c = false → (u.cell c).est = .lost) ∧
      (s.held c = true ∨ s.frozen c = true → (u.cell c).est = (s.cell c).est ∧ (u.cell c).hist = (s.cell c).hist) ∧
      (u.cell c).phase = (s.cell c).phase ∧ (u.cell c).turn = (s.cell c).turn ∧ u.fc.raised.getLsbD (32 + c) = true ∧
      (∀ n, n ≠ c.val → u.cell n = s.cell n) ∧ Aims (s.arrive t) u) ∧
  (∀ (t : Time) (c : Fin 64) (s : State) (l : Time), s.up = true → s.frozen c = false → (s.cell c).stillLimit = some l →
    (l < max s.now t → ∃ u, exec (.standstill t c) s = .next u ∧
      u.cell c = { s.cell c with frac := (s.cell c).fracAt (max s.now t), est := .standstill, hist := [], past := (u.cell c).past } ∧
      (u.cell c).velWord = 0 ∧ (u.cell c).accWord = 0 ∧
      (∀ n, n ≠ c.val → u.cell n = s.cell n) ∧ Aims (s.arrive t) u) ∧
    (max s.now t ≤ l → exec (.standstill t c) s = .next (s.arrive t))))

/-- R52: a write of CELL_SYN_RATE_HI commits the 64-bit rate with the last CELL_SYN_RATE_LO; the cycles up to this one were counted at the old
rate, so the new rate applies from the next cycle; a write of CELL_SYN_RATE_LO alone changes nothing but the word it holds. -/
def Obligations.SyntheticRateIsCommittedByItsHighWord : Prop :=
  (∀ (t : Time) (m : Ident) (c : Fin 64) (v : Word) (s : State), s.serves (cellOfs c + 0x64) = true →
    ∃ u, exec (.synRateCommit t m c v) s = .next u ∧
      (u.cell c).rate = BitVec.ofNat 64 ((s.cell c).synLo.toNat + v.toNat * 2 ^ 32) ∧
      ((s.cell c).mode = 6 → (s.cell c).est = .exact → (s.cell c).pausedAt = none → (s.cell c).origin ≤ max s.now t →
        (u.cell c).origin = (s.cell c).origin + (max s.now t - (s.cell c).origin) / 8 * 8 ∧
        (u.cell c).acc = BitVec.ofInt 32 ((s.cell c).acc.toNat + (s.cell c).rateHeld * ((max s.now t - (s.cell c).origin) / 8 : Nat))) ∧
      (u.cell c).phase = (s.cell c).phase ∧ (u.cell c).turn = (s.cell c).turn ∧ (u.cell c).synHi = v ∧ (u.cell c).synLo = (s.cell c).synLo ∧
      (∀ n, n ≠ c.val → u.cell n = s.cell n) ∧ Aims (s.arrive t) u) ∧
  (∀ (t : Time) (m : Ident) (c : Fin 64) (v : Word) (s : State), s.serves (cellOfs c + 0x60) = true → m ≠ 0x20 →
    exec (.registerWrite t m (cellOfs c + 0x60) 15 v) s = .next ((s.arrive t).setCell c { s.cell c with synLo := v }))

/-- R61, R62: a write of 1 to LOAD_GO sets turn and phase from the LOAD registers and frac to 0 in one cycle and leaves the estimator's history
in place; where the phase is not below `MOD` the load is rejected: LOAD_REJ is set and nothing else of the cell changes; a write without the bit
does nothing.

R31, R32, R59, R60, R76: CELL_CTRL refuses as a whole (CFG_REJ) a change of MODE, SRC or INIT_ABS while enabled and a SRC outside its mode's
range; a write of EN 0 stops the cell with its estimator IDLE and its position held, the fraction as last shown; a rise of EN starts it from the
position it holds, its counts of errors cleared; any other write puts the fields in. CELL_MOD is in force from the next cycle's step on and sends a
MAINS estimator, and no other, to IDLE. MIRROR_OFS_HI commits both words of the offset. -/
def Obligations.CellRegistersLoadAndConfigureTheCell : Prop :=
  (
  (∀ (t : Time) (m : Ident) (c : Fin 64) (v : Word) (s : State), s.serves (cellOfs c + 0x5C) = true → bit v 0 = true →
    (s.cell c).loadPhase.toNat < (s.cell c).modN →
    ∃ u, exec (.loadGo t m c v) s = .next u ∧
      (u.cell c).turn = BitVec.ofNat 48 (fld (s.cell c).loadT 16 16 + (s.cell c).loadTurnHi.toNat * 65536) ∧
      (u.cell c).phase = (s.cell c).loadPhase ∧ (u.cell c).frac = 0 ∧ (u.cell c).loadAt = some (cyc (max s.now t)) ∧
      (u.cell c).hist = (s.cell c).hist ∧ (u.cell c).est = (s.cell c).est ∧ (u.cell c).odo = (s.cell c).odo ∧
      (u.cell c).flags = (s.cell c).flags ∧ (∀ n, n ≠ c.val → u.cell n = s.cell n) ∧ Aims (s.arrive t) u) ∧
  (∀ (c : Cell) (t : Time), (c.est = .linear ∨ c.est = .full) → c.loadAt = some (cyc t) → c.fracAt t = 0) ∧
  (∀ (t : Time) (m : Ident) (c : Fin 64) (v : Word) (s : State), s.serves (cellOfs c + 0x5C) = true → bit v 0 = true →
    (s.cell c).modN ≤ (s.cell c).loadPhase.toNat →
    exec (.loadGo t m c v) s = .next ((s.arrive t).setCell c { s.cell c with flags := (s.cell c).flags ||| 0x8000 })) ∧
  (∀ (t : Time) (m : Ident) (c : Fin 64) (v : Word) (s : State), s.serves (cellOfs c + 0x5C) = true → bit v 0 = false →
    exec (.loadGo t m c v) s = .next (s.arrive t))) ∧
  (
  (∀ (t : Time) (m : Ident) (c : Fin 64) (v : Word) (s : State), s.serves (cellOfs c) = true →
    ∃ u, exec (.cellCtrlWrite t m c v) s = .next u ∧
      (let x := s.cell c
       let w := v &&& 0xFFF
       if ctrlRange c w = false ∨ x.en = true ∧ (fld w 1 7 ≠ fld x.ctrl 1 7 ∨ bit w 11 ≠ x.initAbs) then
         u.cell c = { x with flags := x.flags ||| 0x4000 }
       else if x.en = true ∧ bit w 0 = false then
         u.cell c = { x with ctrl := w, frac := (s.arrive t).fracOf c (max s.now t), est := .idle, hist := [], pausedAt := none,
                             past := (u.cell c).past }
       else if x.en = false ∧ bit w 0 = true then
         (u.cell c).ctrl = w ∧ (u.cell c).phase = x.phase ∧ (u.cell c).turn = x.turn ∧ (u.cell c).frac = x.frac ∧ (u.cell c).dir = 2 ∧
         (u.cell c).hist = [] ∧ (u.cell c).quad = 0 ∧ (u.cell c).ser = 0 ∧
         (u.cell c).est = (if (fld w 1 3 = 4 ∨ fld w 1 3 = 6) ∧ s.held c = false then .exact else .idle)
       else u.cell c = { x with ctrl := w, past := (u.cell c).past }) ∧
      (∀ n, n ≠ c.val → u.cell n = s.cell n) ∧ Aims (s.arrive t) u) ∧
  (∀ (t : Time) (m : Ident) (c : Fin 64) (v : Word) (s : State), s.serves (cellOfs c + 0x04) = true →
    ∃ u, exec (.cellModWrite t m c v) s = .next u ∧ (u.cell c).mod = v ∧
      (u.cell c).modFor (max s.now t) = (s.cell c).modFor (max s.now t) ∧
      (∀ t', cyc t' ≠ cyc (max s.now t) → (u.cell c).modFor t' = zero32 v) ∧
      (u.cell c).phase = (s.cell c).phase ∧ (u.cell c).turn = (s.cell c).turn ∧
      ((s.cell c).mode = 3 → (u.cell c).est = .idle ∧ (u.cell c).hist = []) ∧
      ((s.cell c).mode ≠ 3 → (u.cell c).est = (s.cell c).est ∧ (u.cell c).hist = (s.cell c).hist) ∧
      (∀ n, n ≠ c.val → u.cell n = s.cell n) ∧ Kept (s.arrive t) u) ∧
  (∀ (t : Time) (m : Ident) (c : Fin 64) (v : Word) (s : State), s.serves (cellOfs c + 0x70) = true →
    exec (.mirrorOfsCommit t m c v) s = .next ((s.arrive t).setCell c
      { s.cell c with ofsHi := v, ofs := BitVec.ofNat 64 ((s.cell c).ofsLo.toNat + v.toNat * 2 ^ 32) })))

/-! ## Compares, captures, global start and debug freeze (03_compare_capture_start.md) -/

/-- R80, R82, R85, R94, R97: CMP_CTRL refuses as a whole (CFG_REJ) a reserved DIR or REPEAT, CHAIN on unit 0, and while enabled a change of
CELL, REPEAT or CHAIN. Otherwise it is put in: a rise of EN clears the firing count and, without CHAIN, arms the unit as of the end of this cycle;
a fall disarms it and its scheduler entry returns. A write of CMP_PHASE or CMP_TURN changes the value and re-arms an armed or hysteresis-waiting
unit as of the end of this cycle. No other unit changes. -/
def Obligations.CompareRegistersArmAndDisarmTheUnit : Prop :=
  (∀ (t : Time) (m : Ident) (k : Fin 256) (v : Word) (s : State), s.serves (cmpOfs k) = true →
    (fld v 1 2 = 3 ∨ fld v 4 2 = 3 ∨ k.val = 0 ∧ bit v 6 = true ∨
      (s.cmp k).en = true ∧ (fld v 10 6 ≠ (s.cmp k).cell ∨ fld v 4 2 ≠ (s.cmp k).repeat_ ∨ bit v 6 ≠ (s.cmp k).chain)) →
    exec (.cmpCtrlWrite t m k v) s = .next ((s.arrive t).setCmp k { s.cmp k with cfgRej := true })) ∧
  (∀ (t : Time) (m : Ident) (k : Fin 256) (v : Word) (s : State), s.serves (cmpOfs k) = true →
    ¬(fld v 1 2 = 3 ∨ fld v 4 2 = 3 ∨ k.val = 0 ∧ bit v 6 = true ∨
      (s.cmp k).en = true ∧ (fld v 10 6 ≠ (s.cmp k).cell ∨ fld v 4 2 ≠ (s.cmp k).repeat_ ∨ bit v 6 ≠ (s.cmp k).chain)) →
    ∃ u, exec (.cmpCtrlWrite t m k v) s = .next u ∧ (u.cmp k).ctrl = v &&& 0x0FFFFDFF ∧
      (u.cmp k).phase = (s.cmp k).phase ∧ (u.cmp k).turn = (s.cmp k).turn ∧ (u.cmp k).incr = (s.cmp k).incr ∧
      (u.cmp k).ft = (s.cmp k).ft ∧ (u.cmp k).fired = (s.cmp k).fired ∧ (u.cmp k).overrun = (s.cmp k).overrun ∧
      (u.cmp k).pend = (s.cmp k).pend ∧
      ((s.cmp k).en = false → bit v 0 = true → (u.cmp k).fcnt = 0 ∧
        (bit v 6 = false → (u.cmp k).armed = true ∧ (u.cmp k).hystWait = false ∧ (u.cmp k).armedAt = some (cyc (max s.now t))) ∧
        (bit v 6 = true → (u.cmp k).armed = (s.cmp k).armed)) ∧
      ((s.cmp k).en = true → bit v 0 = false →
        (u.cmp k).fcnt = (s.cmp k).fcnt ∧ (u.cmp k).armed = false ∧ (u.cmp k).hystWait = false ∧ (u.cmp k).entry = false) ∧
      ((s.cmp k).en = bit v 0 → (u.cmp k).fcnt = (s.cmp k).fcnt ∧ (u.cmp k).armed = (s.cmp k).armed ∧
        (u.cmp k).hystWait = (s.cmp k).hystWait ∧ (u.cmp k).armedAt = (s.cmp k).armedAt) ∧
      (∀ j, j ≠ k.val → u.cmp j = s.cmp j) ∧ u.caps = s.caps ∧ Ran (s.arrive t) u) ∧
  (∀ (t : Time) (m : Ident) (k : Fin 256) (turn : Bool) (v : Word) (s : State),
    s.serves (cmpOfs k + (if turn then 0x08 else 0x04)) = true →
    ∃ u, exec (.cmpValueWrite t m k turn v) s = .next u ∧
      (u.cmp k).phase = (if turn then (s.cmp k).phase else v) ∧ (u.cmp k).turn = (if turn then v else (s.cmp k).turn) ∧
      (u.cmp k).armed = ((s.cmp k).armed || (s.cmp k).hystWait) ∧ (u.cmp k).hystWait = false ∧
      (u.cmp k).armedAt = (if (s.cmp k).armed || (s.cmp k).hystWait then some (cyc (max s.now t)) else (s.cmp k).armedAt) ∧
      (u.cmp k).ctrl = (s.cmp k).ctrl ∧ (u.cmp k).incr = (s.cmp k).incr ∧ (u.cmp k).ft = (s.cmp k).ft ∧
      (u.cmp k).fcnt = (s.cmp k).fcnt ∧ (u.cmp k).fired = (s.cmp k).fired ∧ (u.cmp k).overrun = (s.cmp k).overrun ∧
      (∀ j, j ≠ k.val → u.cmp j = s.cmp j) ∧ u.caps = s.caps ∧ Ran (s.arrive t) u)

/-- R81 to R83, R85, R87, R88, R91: an enabled, armed unit in range fires on a step of its cell, of a later cycle than its arming, that passes its
value in a qualifying direction onto the turn asked: FIRED is set, the count goes up by one, the firing time is the step's stamp, OVERRUN is set
where the step passes the value more than once; a one-shot unit disarms with EN 0 (with CHAIN, EN stays), a unit of every passage stays armed or
waits for its hysteresis, an advancing one takes the advanced value and turn; a unit that sees no such step does not fire. -/
def Obligations.APassingStepFiresAnArmedCompare : Prop :=
  (∀ (s : State) (k : Nat) (evs : List StepEv) (e : StepEv), evs.find? (fun e => e.cell == (s.cmp k).cell) = some e →
    (s.cmp k).en = true → (s.cmp k).armed = true → (s.cmp k).hystWait = false →
    (∀ a, (s.cmp k).armedAt = some a → a < cyc s.now) → e.count (s.cmp k).phase.toNat ≠ 0 → e.qualifies (s.cmp k).dirQ = true →
    (s.cmp k).phase.toNat < (s.cell (s.cmp k).cell).modN →
    ((s.cmp k).turnEn = true → BitVec.ofInt 16 e.turn = BitVec.ofNat 16 (s.cmp k).turnN) →
    ∃ u, s.cmpStep evs k = (u, some e) ∧ (u.cmp k).fired = true ∧ (u.cmp k).fcnt = (s.cmp k).fcnt + 1 ∧ (u.cmp k).ft = e.stamp ∧
      (1 < e.count (s.cmp k).phase.toNat → (u.cmp k).overrun = true) ∧
      ((s.cmp k).repeat_ = 0 → (u.cmp k).armed = false ∧ (u.cmp k).entry = false ∧ (u.cmp k).phase = (s.cmp k).phase ∧
        (u.cmp k).en = (s.cmp k).chain) ∧
      ((s.cmp k).repeat_ = 1 → (u.cmp k).phase = (s.cmp k).phase ∧ (u.cmp k).ctrl = (s.cmp k).ctrl ∧
        (u.cmp k).armed = decide ((s.cmp k).hyst = 0) ∧ (u.cmp k).hystWait = decide ((s.cmp k).hyst ≠ 0)) ∧
      ((s.cmp k).repeat_ = 2 → (u.cmp k).armed = true ∧ (u.cmp k).ctrl = (s.cmp k).ctrl ∧
        (u.cmp k).phase = BitVec.ofInt 32 (((s.cmp k).phase.toNat + (s.cmp k).incr.toInt) % e.mod)) ∧
      (∀ j, j ≠ k → j ≠ k + 1 → u.cmp j = s.cmp j) ∧ Ran s u) ∧
  (∀ (s : State) (k : Nat) (evs : List StepEv),
    ((s.cmp k).en = false ∨ (s.cmp k).hystWait = false ∧ (s.cmp k).armed = false ∨ (∀ e ∈ evs, e.cell ≠ (s.cmp k).cell)) →
    s.cmpStep evs k = (s, none))

/-- R98, R99: CAP_CTRL refuses as a whole a reserved KIND or EDGE, an INDEX outside its range, and while enabled a change of KIND, INDEX or CELL;
otherwise it is put in, and a rise of EN clears the FIFO, the prescaler and a pending OVF_BEFORE. R99: the unit's own filter accepts a level of its
pin. R100 to R102: an accepted edge that CAP_CTRL asks for counts toward the prescaler; the Nth stores a record of the position the cell held at
the edge's time stamp, with its time and OVF_BEFORE, or where the FIFO is full is dropped, counted and marked. R103, R104: a read of CAP_POP takes
the oldest record that no burst has reserved out and latches it; without one it answers VALID 0 and the companions stay. -/
def Obligations.CaptureUnitsStoreAndGiveRecords : Prop :=
  (∀ (t : Time) (m : Ident) (j : Fin 128) (v : Word) (s : State), s.serves (capOfs j) = true →
    exec (.capCtrlWrite t m j v) s = .next ((s.arrive t).setCap j
      (if capRange (fld v 1 3) ≤ fld v 4 8 ∨ fld v 12 2 = 3 ∨ (s.cap j).en = true ∧
          (fld v 1 3 ≠ (s.cap j).kind ∨ fld v 4 8 ≠ (s.cap j).index ∨ fld v 14 6 ≠ (s.cap j).cell) then
        { s.cap j with cfgRej := true }
      else if (s.cap j).en = false ∧ bit v 0 = true then
        { s.cap j with ctrl := v &&& 0x3FFFFF, fifo := [], pcnt := 0, ovfBefore := false, epoch := (s.cap j).epoch + 1 }
      else { s.cap j with ctrl := v &&& 0x3FFFFF }))) ∧
  (∀ (t : Time) (j : Fin 128) (v : Bool) (ts : List Time) (l : List (Time × Bool)) (s : State) (x : Accept) (f : Filt), l = edges v ts → s.up = true →
    Filt.feed (fld (s.cap j).filt 4 8 + 1) (fld (s.cap j).filt 0 4 + 1) (max s.now t) l (s.cap j).level (s.cap j).pf = (f, [x]) →
    (s.cap j).en = true → (s.cap j).kind ≠ 5 → edgeOk (s.cap j).edge x.level = true →
    ∃ u, exec (.captureEdge t j v ts) s = .next u ∧ (u.cap j).level = x.level ∧ (u.cap j).pf = f ∧ (u.cap j).ctrl = (s.cap j).ctrl ∧
      ((s.cap j).pcnt < fld (s.cap j).presc 0 16 → (u.cap j).pcnt = (s.cap j).pcnt + 1 ∧ (u.cap j).fifo = (s.cap j).fifo ∧
        (u.cap j).ovf = (s.cap j).ovf) ∧
      (fld (s.cap j).presc 0 16 ≤ (s.cap j).pcnt → (s.cap j).fifo.length < 8 → (u.cap j).pcnt = 0 ∧ (u.cap j).ovfBefore = false ∧
        (u.cap j).ovf = (s.cap j).ovf ∧
        ∃ turn phase frac est, (s.arrive t).captureAt (s.cap j).cell x.stamp = (turn, phase, frac, est) ∧
          (u.cap j).fifo = (s.cap j).fifo ++ [{ phase := phase, frac := frac, turn := turn.setWidth 16, time := x.stamp, edge := x.level,
                                                ovf := (s.cap j).ovfBefore, est := est }]) ∧
      (fld (s.cap j).presc 0 16 ≤ (s.cap j).pcnt → 8 ≤ (s.cap j).fifo.length → (u.cap j).pcnt = 0 ∧ (u.cap j).ovfBefore = true ∧
        (u.cap j).ovf = true ∧ (u.cap j).ovfCnt = satInc (s.cap j).ovfCnt ∧ (u.cap j).fifo = (s.cap j).fifo) ∧
      (∀ i, i ≠ j.val → u.cap i = s.cap i) ∧ u.cmps = s.cmps ∧ Ran (s.arrive t) u) ∧
  (∀ (t : Time) (j : Fin 128) (v : Bool) (ts : List Time) (l : List (Time × Bool)) (s : State) (f : Filt), l = edges v ts → s.up = true → (s.cap j).kind ≠ 0 →
    Filt.feed (fld (s.cap j).filt 4 8 + 1) (fld (s.cap j).filt 0 4 + 1) (max s.now t) l (s.cap j).level (s.cap j).pf = (f, []) →
    exec (.captureEdge t j v ts) s = .next ((s.arrive t).setCap j { s.cap j with pf := f })) ∧
  (∀ (t : Time) (m : Ident) (j : Fin 128) (s : State) (r : CapRec) (l : List CapRec), s.serves (capOfs j + 0x20) = true → m ≠ 0x20 →
    s.capFree j = r :: l →
    ∃ u, exec (.capPop t m j) s = .next u ∧ u.cap j = { s.cap j with fifo := (s.cap j).fifo.erase r } ∧
      u.out = s.out ++ [.reply [flag 0 true ||| flag 1 r.edge ||| flag 2 r.ovf ||| flag 3 r.est ||| wAt 8 l.length]] ∧
      u.latched m (capOfs j + 0x24) = r.phase ∧
      u.latched m (capOfs j + 0x28) = wAt 0 r.frac.toNat ||| wAt 16 r.turn.toNat ∧
      u.latched m (capOfs j + 0x2C) = loW r.time ∧ u.latched m (capOfs j + 0x30) = hiW r.time ∧
      u = { s with now := max s.now t, caps := u.caps, latches := u.latches, out := u.out } ∧ (∀ i, i ≠ j.val → u.cap i = s.cap i)) ∧
  (∀ (t : Time) (m : Ident) (j : Fin 128) (s : State), s.serves (capOfs j + 0x20) = true →
    (m = 0x20 ∨ s.capFree j = []) →
    exec (.capPop t m j) s = .next ((s.arrive t).emit (.reply [wAt 8 (s.capFree j).length]))) ∧
  (∀ (s : State) (j : Nat), (∀ n b, (n, some b) ∈ s.movers.run → b.recs = []) → s.capFree j = (s.cap j).fifo)

/-- R108: START_GO with OP 01 clears the hold bit of every selected cell, with OP 10 sets it, and either latches its cycle; OP 00 and 11 do
nothing. R107, R109: a cell whose hold begins has an IDLE estimator with no history and holds its position; a released TIME or SYNTHETIC cell
counts from that cycle.

R111 to R113, R472: the first core to enter debug halt freezes the selected cells: their accumulators start from 0, TIME and SYNTHETIC cells
pause, and the core's watchdog pauses; the last core to leave ends the freeze: a selected cell with a source takes its net count as one step of the
thaw cycle, with its history cleared first, a TIME or SYNTHETIC cell runs on from where it paused, and the watchdog runs on. A core that is not the
first or the last changes no cell. -/
def Obligations.GlobalStartAndDebugFreezeHoldSelectedCells : Prop :=
  (
  (∀ (t : Time) (m : Ident) (s : State), s.serves (startOfs + 0x08) = true →
    ∃ u, exec (.cellRelease t m) s = .next u ∧
      u.axes.start = { s.axes.start with hold := s.axes.start.hold &&& ~~~s.axes.start.sel, startT := cyc (max s.now t) * 8 } ∧
      (∀ n, (u.cell n).phase = (s.cell n).phase ∧ (u.cell n).turn = (s.cell n).turn ∧ (u.cell n).ctrl = (s.cell n).ctrl) ∧
      (∀ n < 64, s.axes.start.hold.getLsbD n = true → s.axes.start.sel.getLsbD n = true → (s.cell n).en = true →
        (s.cell n).exactMode = true → (u.cell n).est = .exact ∧ (u.cell n).origin = cyc (max s.now t) * 8) ∧
      (∀ n, (s.axes.start.hold.getLsbD n = false ∨ s.axes.start.sel.getLsbD n = false) → u.cell n = s.cell n) ∧
      Aims (s.arrive t) u) ∧
  (∀ (t : Time) (m : Ident) (s : State), s.serves (startOfs + 0x08) = true →
    ∃ u, exec (.cellHold t m) s = .next u ∧
      u.axes.start = { s.axes.start with hold := s.axes.start.hold ||| s.axes.start.sel, startT := cyc (max s.now t) * 8 } ∧
      (∀ n, (u.cell n).phase = (s.cell n).phase ∧ (u.cell n).turn = (s.cell n).turn ∧ (u.cell n).ctrl = (s.cell n).ctrl) ∧
      (∀ n < 64, s.axes.start.hold.getLsbD n = false → s.axes.start.sel.getLsbD n = true → (s.cell n).en = true →
        (u.cell n).est = .idle ∧ (u.cell n).hist = [] ∧ (u.cell n).pausedAt = none) ∧
      (∀ n, (s.axes.start.hold.getLsbD n = true ∨ s.axes.start.sel.getLsbD n = false) → u.cell n = s.cell n) ∧
      Aims (s.arrive t) u) ∧
  (∀ (t : Time) (m : Ident) (v : Word) (s : State), s.serves (startOfs + 0x08) = true → m ≠ 0x20 → (fld v 0 2 = 0 ∨ fld v 0 2 = 3) →
    exec (.registerWrite t m (startOfs + 0x08) 15 v) s = .next (s.arrive t))) ∧
  (
  (∀ (t : Time) (k : Fin 4) (s : State), s.up = true →
    ∃ u, exec (.coreDebugHalt t k) s = .next u ∧ (u.core k).halted = true ∧ (u.core k).wdAt = none ∧
      (∀ x, (s.core k).wdAt = some x → (u.core k).wdLeft = some (x - max s.now t)) ∧
      u.axes.start = { s.axes.start with halted := s.axes.start.halted ||| BitVec.ofNat 4 (1 <<< k.val), seen := true,
                                         frzT := if s.axes.start.halted = 0 then cyc (max s.now t) * 8 else s.axes.start.frzT } ∧
      (∀ n, (u.cell n).phase = (s.cell n).phase ∧ (u.cell n).turn = (s.cell n).turn ∧ (u.cell n).hist = (s.cell n).hist) ∧
      (∀ n < 64, s.axes.start.halted = 0 → s.axes.start.frzSel.getLsbD n = true → (u.cell n).frzAcc = 0 ∧
        ((s.cell n).exactMode = true → (s.cell n).est = .exact → (u.cell n).pausedAt = some (cyc (max s.now t) * 8))) ∧
      (∀ n, s.axes.start.halted ≠ 0 ∨ s.axes.start.frzSel.getLsbD n = false → u.cell n = s.cell n) ∧
      Kept (s.arrive t) u) ∧
  (∀ (t : Time) (k : Fin 4) (s : State), s.up = true →
    ∃ u, exec (.coreDebugResume t k) s = .next u ∧ (u.core k).halted = false ∧
      (∀ x, (s.core k).wdLeft = some x → (u.core k).wdAt = some (max s.now t + x)) ∧
      u.axes.start.halted = s.axes.start.halted &&& ~~~ BitVec.ofNat 4 (1 <<< k.val) ∧
      (∀ n < 64, s.axes.start.halted ≠ 0 → s.axes.start.halted &&& ~~~ BitVec.ofNat 4 (1 <<< k.val) = 0 →
        s.axes.start.frzSel.getLsbD n = true → s.held n = false → (s.cell n).en = true → (s.cell n).exactMode = false →
        (s.cell n).mode ≠ 5 → (s.cell n).frzAcc ≠ 0 →
        ∃ c, c = { s.cell n with frzAcc := 0, hist := [], est := .idle,
                                 mirOdo := if (s.cell n).mode = 3 then (s.cell n).odo + (s.cell n).frzAcc else (s.cell n).mirOdo } ∧
          Moves c (u.cell n) (s.cell n).frzAcc ((s.cell n).modFor (max s.now t)) (cyc (max s.now t) * 8)) ∧
      (∀ n < 64, ∀ p, s.axes.start.halted ≠ 0 → s.axes.start.halted &&& ~~~ BitVec.ofNat 4 (1 <<< k.val) = 0 →
        s.axes.start.frzSel.getLsbD n = true → (s.cell n).exactMode = true → (s.cell n).pausedAt = some p →
        u.cell n = { s.cell n with pausedAt := none, origin := (s.cell n).origin + (cyc (max s.now t) * 8 - p), past := (u.cell n).past }) ∧
      (∀ n, (s.axes.start.halted = 0 ∨ s.axes.start.halted &&& ~~~ BitVec.ofNat 4 (1 <<< k.val) ≠ 0) → u.cell n = s.cell n) ∧
      Kept (s.arrive t) u))

/-! ## Channel programs (04_command_set.md, 07_requests_status.md) -/

/-- R133, R137, R138, R244: a completed command that asks for no record goes to the next group in sequence with CD or CC, or to the target a TIC
or TICC has given; an accepted SUSPEND takes effect there; a group already fetched ahead from that address becomes current at once, where its
checks pass, and otherwise it is to be fetched. A command with neither, of a channel without an event queue, ends its program: the channel is IDLE, its context words stand,
and it holds no output slot. No other channel changes.

R159, R163: TIC completes toward ADDR, TICC does so where COND is as WHEN asks and goes on in sequence else, and NOP completes with no
effect. R163: MARK completes once its record is posted; where the record finds no credit it is held and the channel waits in POST_PENDING. -/
def Obligations.CompletedCommandsChainOrEndTheProgram : Prop :=
  (
  ∀ (s : State) (c : Nat) (h x : Chan), s.chan c = h → h.timed = none → h.st = .active → (h.cur.pci = false ∨ h.eq = none) →
    ((h.cur.cd = true ∧ x = { h with committed := false, cca := h.cca + h.cur.size, inChain := true, fromTic := false, act := .fetch } ∨
      h.cur.cd = false ∧ (∃ a p, h.next = some (a, p) ∧
        x = { h with committed := false, cca := a, phy := p, inChain := false, fromTic := decide (h.cur.op = 0x10), next := none,
                     act := .fetch, chainCount := 0, recEnded := false, recTaken := 0 }) ∨
      h.cur.cd = false ∧ h.next = none ∧ h.cur.cc = true ∧ h.cur.op ≠ 0x10 ∧
        x = { h with committed := false, cca := h.cca + h.cur.size, inChain := false, fromTic := false, act := .fetch,
                     chainCount := 0, recEnded := false, recTaken := 0 }) →
      (h.suspReq = true → h.inBracket = false → s.complete c = (s.setChan c x).suspend c id) ∧
      (h.suspReq = false → h.ahead = [] → s.complete c = s.setChan c { x with aheadStop := false }) ∧
      (∀ g r, h.suspReq = false → h.ahead = (grpKey x.cca x.phy, g) :: r → groupCheck x (s.dom h.domain).phyOk g = none →
        g.op ≠ 0x38 → g.tm = false → g.sus = false →
        ((s.complete c).chan c).cur = g ∧ ((s.complete c).chan c).act = .ready ∧ ((s.complete c).chan c).ahead = r ∧
        ((s.complete c).chan c).cca = x.cca ∧ ((s.complete c).chan c).phy = x.phy ∧ ((s.complete c).chan c).st = .active ∧
        ((s.complete c).chan c).currentAt = s.now ∧ OnlyChan c s (s.complete c))) ∧
    (h.cur.cd = false → h.next = none → (h.cur.cc = false ∨ h.cur.op = 0x10) → h.eq = none → h.clearing = false →
      ((s.complete c).chan c).st = .idle ∧ ((s.complete c).chan c).status = h.status ∧ ((s.complete c).chan c).cca = h.cca ∧
      ((s.complete c).chan c).resid = h.resid ∧ ((s.complete c).chan c).result = h.result ∧ ((s.complete c).chan c).cond = h.cond ∧
      (∀ u, ((s.complete c).ou u).holder ≠ some c ∧ ((s.complete c).ou u).sampler ≠ some c) ∧ OnlyChan c s (s.complete c)) ∧
    ((s.suspend c id).chan c) = (s.chan c).suspend ∧ OnlyChan c s (s.suspend c id)) ∧
  (
  ∀ (t : Time) (c : Fin 4096) (s : State),
    (Current s c 0x10 → exec (.tic t c) s = .next
      (((s.arrive t).setChan c { s.chan c with next := some ((s.chan c).cur.addr, (s.chan c).cur.phy) }).complete c)) ∧
    (Current s c 0x11 → exec (.ticc t c) s = .next
      (((s.arrive t).setChan c { s.chan c with
        next := if (s.chan c).cond = bit (s.chan c).cur.w1 0 then none else some ((s.chan c).cur.addr, (s.chan c).cur.phy) }).complete c)) ∧
    (Current s c 0x7F → (s.chan c).inBracket = false → exec (.nop t c) s = .next ((s.arrive t).complete c)) ∧
    (Current s c 0x40 → (s.chan c).endsHere = true → exec (.mark t c) s = .next
      (((s.arrive t).setChan c { s.chan c with tagDue := (s.chan c).st = .haltPending }).complete c)) ∧
    (∀ s', Current s c 0x40 → (s.chan c).endsHere = false → (s.chan c).st = .active → (s.chan c).timed = none →
      (s.arrive t).chanPost c ((s.chan c).recMark c) = (true, s') → exec (.mark t c) s = .next (s'.complete c)) ∧
    (∀ s', Current s c 0x40 → (s.chan c).endsHere = false → (s.chan c).st = .active → (s.chan c).timed = none → (s.chan c).cur.pci = false →
      (s.arrive t).chanPost c ((s.chan c).recMark c) = (false, s') → exec (.mark t c) s = .next
        (s'.setChan c { s'.chan c with held := (s'.chan c).held ++ [{ bytes := (s.chan c).recMark c }], after := .go,
                                       st := if (s'.chan c).st = .haltPending then .haltPending else .postPending })))

/-- R160, R161: WAIT of kind TIME runs DURATION ns from the cycle in which it became current; of kind UNIT it completes at once where the unit
advertises data, of kind COMPARE where the unit has fired since the channel's ARM, or since the cycle in which the WAIT became current, both with
COND 1; otherwise they wait, with their timeout measured from when the command became current. R244: a channel that would wait while a SUSPEND is
pending is suspended there. The wait ends, with COND 1, at what it waits for and, with COND 0, at its timeout. R204: the channels that one unit wakes
complete in ascending order.

R162, R173, R200: GLADE completes at once, with COND 1, where the phase of its cell lies from LO to HI (from LO up or down to HI where LO is
above HI) and the direction qualifies, and otherwise waits till it does; a LO or HI not below the modulus admits nothing and sets OUT_OF_RANGE. -/
def Obligations.WaitsAndGladesEndAtTheirEvent : Prop :=
  (
  ∀ (t : Time) (c : Fin 4096) (s : State),
    (Current s c 0x20 → (s.chan c).cur.waitKind = 0 → exec (.waitTime t c) s = .next
      ((s.arrive t).enterWait c (.time (cyc (s.chan c).currentAt * 8 + 8 * (s.chan c).cur.addr)))) ∧
    (∀ d, s.up = true → (s.chan c).act = .time d → (s.chan c).st = .waiting → exec (.waitTimeExpiry t c) s = .next
      (if d ≤ max s.now t then ((s.arrive t).setChan c { s.chan c with st := .active }).complete c else s.arrive t)) ∧
    (Current s c 0x20 → (s.chan c).cur.waitKind = 2 → exec (.waitUnit t c) s = .next
      (if (s.arrive t).unitReady (s.chan c).cur.unit then
        ((s.arrive t).setChan c { s.chan c with cond := true, condValid := true, st := .active }).complete c
       else (s.arrive t).enterWait c (.waitUnit (s.chan c).cur.unit
        (if (s.chan c).cur.w3 = 0 then none else some ((s.chan c).currentAt + 8000 * (s.chan c).cur.w3.toNat))))) ∧
    (∀ k, k = fld (s.chan c).cur.w2 0 8 → Current s c 0x20 → (s.chan c).cur.waitKind = 3 →
      ((s.chan c).armValid = true ∧ (s.chan c).armIdx = k ∧ (s.cmp k).fcnt ≠ (s.chan c).armFcnt ∨
        ∃ x, (s.cmp k).fireAt = some x ∧ cyc (s.chan c).currentAt ≤ x) →
      exec (.waitCompare t c) s = .next
        (((s.arrive t).setChan c { s.chan c with cond := true, condValid := true, st := .active }).complete c)) ∧
    (∀ k, k = fld (s.chan c).cur.w2 0 8 → Current s c 0x20 → (s.chan c).cur.waitKind = 3 →
      ((s.chan c).armValid = false ∨ (s.chan c).armIdx ≠ k ∨ (s.cmp k).fcnt = (s.chan c).armFcnt) →
      (∀ x, (s.cmp k).fireAt = some x → x < cyc (s.chan c).currentAt) →
      exec (.waitCompare t c) s = .next ((s.arrive t).enterWait c (.waitCmp k
        (if (s.chan c).cur.w3 = 0 then none else some ((s.chan c).currentAt + 8000 * (s.chan c).cur.w3.toNat))))) ∧
    (∀ k, s.up = true → (s.chan c).st = .waiting →
      ((∃ x, (s.chan c).act = .woken k x ∧ x ≤ cyc (max s.now t)) ∨
        ∃ l, (s.chan c).act = .waitUnit k l ∧ (s.arrive t).unitReady k = true) →
      ((∀ j, j < c.val → (s.chan j).st = .waiting → (s.arrive t).wakenBy j ≠ some k) → exec (.waitComplete t c) s = .next
        (((s.arrive t).setChan c { s.chan c with cond := true, condValid := true, st := .active }).complete c)) ∧
      (∀ j, j < c.val → (s.chan j).st = .waiting → (s.arrive t).wakenBy j = some k → exec (.waitComplete t c) s = .next (s.arrive t))) ∧
    (∀ l, s.up = true → (s.chan c).st = .waiting → l ≤ max s.now t →
      ((∃ u, (s.chan c).act = .waitUnit u (some l) ∧ (s.arrive t).unitReady u = false) ∨ (∃ k, (s.chan c).act = .waitCmp k (some l)) ∨
        (s.chan c).act = .glade (some l) ∧ (s.arrive t).inGlade (s.chan c).cur = false) →
      exec (.waitTimeout t c) s = .next
        (((s.arrive t).setChan c { s.chan c with cond := false, condValid := true, st := .active }).complete c))) ∧
  (
  (∀ (s : State) (g : Group) (p lo hi m d : Nat), p = (s.cell g.gladeCell).phase.toNat → m = (s.cell g.gladeCell).modN →
    d = (s.cell g.gladeCell).dir.toNat → lo = g.w2.toNat → hi = g.w3.toNat →
    (s.inGlade g = true ↔ lo < m ∧ hi < m ∧ (lo ≤ hi → lo ≤ p ∧ p ≤ hi) ∧ (hi < lo → lo ≤ p ∨ p ≤ hi) ∧
      (g.gladeDir = 0 → d = 0) ∧ (g.gladeDir = 1 → d = 1) ∧ (2 ≤ g.gladeDir → d ≤ 2))) ∧
  ∀ (t : Time) (c : Fin 4096) (s : State),
    (Current s c 0x21 → (s.arrive t).inGlade (s.chan c).cur = true → exec (.glade t c) s = .next
      (((s.arrive t).setChan c { s.chan c with cond := true, condValid := true, st := .active }).complete c)) ∧
    (Current s c 0x21 → (s.arrive t).inGlade (s.chan c).cur = false →
      ∃ u, exec (.glade t c) s = .next u ∧
        ((s.chan c).suspReq = true → (s.chan c).committed = false → (s.chan c).st = .active → (u.chan c).st = .suspended) ∧
        ((s.chan c).suspReq = false → (u.chan c).st = (if (s.chan c).st = .haltPending then .haltPending else .waiting) ∧
          (u.chan c).act = .glade (if (s.chan c).cur.gladeTimeout = 0 then none
          else some ((s.chan c).currentAt + 8000 * (s.chan c).cur.gladeTimeout))) ∧
        (u.chan c).status = (if (s.cell (s.chan c).cur.gladeCell).modN ≤ (s.chan c).cur.w2.toNat ∨
          (s.cell (s.chan c).cur.gladeCell).modN ≤ (s.chan c).cur.w3.toNat then (s.chan c).status ||| 0x2000 else (s.chan c).status) ∧
        (u.chan c).cond = (s.chan c).cond ∧ (u.chan c).cca = (s.chan c).cca ∧ OnlyChan c s u ∧ Quiet (s.arrive t) u) ∧
    (∀ l, s.up = true → (s.chan c).act = .glade l → (s.chan c).st = .waiting → exec (.gladeComplete t c) s = .next
      (if (s.arrive t).inGlade (s.chan c).cur then
        ((s.arrive t).setChan c { s.chan c with cond := true, condValid := true, st := .active }).complete c
       else s.arrive t))) ∧
  (∀ (s : State) (c : Nat) (a : Act) (h : Chan), h = s.chan c →
    (h.suspReq = false ∨ h.committed = true ∨ h.st = .haltPending → s.enterWait c a = s.setChan c { h with
      act := a, st := if h.st = .haltPending then .haltPending else .waiting }) ∧
    (h.suspReq = true → h.committed = false → h.st ≠ .haltPending → ((s.enterWait c a).chan c).st = .suspended ∧
      ((s.enterWait c a).chan c).cca = h.cca ∧ ((s.enterWait c a).chan c).suspReq = false ∧ OnlyChan c s (s.enterWait c a))) ∧
  (∀ (s : State) (k c : Nat),
    ((s.chan c).act.waitsOn = some k → ∃ x, cyc s.now ≤ x ∧ (s.wakeWaiters k).chan c = { s.chan c with act := .woken k x }) ∧
    ((s.chan c).act.waitsOn ≠ some k → (s.wakeWaiters k).chan c = s.chan c))

/-! ## SIGNAL, pattern edges, ARM (04, 05, 10) -/

/-- R342, R345, R348 to R353: an edge is placed at the instant asked for, but not before 125 ps after the unit's latest. One to the level already
driven, or on an undriven pin, makes no transition. An on edge that the fence lets pass turns the
pin on at its placed instant and spends one of its budget; one that it suppresses leaves the pin and sets its hold, counts at the unit with its
cause and reports the bank's source. An off edge always passes and ends a hold. R350: the fence lets an on edge pass where every permit asked is
accepted, no hold and no safe state stands, the off time and the budget, groups and duty allow it; a lower-numbered cause comes first. -/
def Obligations.EdgesPassTheFence : Prop :=
  (∀ (s : State) (u : Nat) (level : Bool) (t : Time), ((s.ou u).drive = level ∨ s.isInput u = true) →
    s.placeEdge u level t = s.setOu u { s.ou u with lastEdge := max t ((s.ou u).lastEdge + 1) }) ∧
  (∀ (s : State) (u : Nat) (level : Bool) (t x : Time), x = max t ((s.ou u).lastEdge + 1) →
    (s.ou u).drive ≠ level → s.isInput u = false → level = s.onLevel u → (s.openWindow x).judge u x = none →
    ((s.placeEdge u level t).pin u).onSince = some x ∧ ((s.placeEdge u level t).pin u).spent = ((s.openWindow x).pin u).spent + 1 ∧
    ((s.placeEdge u level t).ou u).drive = level ∧ ((s.placeEdge u level t).ou u).edgeT = x ∧ ((s.placeEdge u level t).ou u).lastEdge = x ∧
    ((s.placeEdge u level t).ou u).clamps = (s.ou u).clamps ∧ (∀ p, p ≠ u → (s.placeEdge u level t).ou p = s.ou p) ∧
    Quiet s (s.placeEdge u level t)) ∧
  (∀ (s : State) (u : Nat) (level : Bool) (t x : Time) (k : Nat), x = max t ((s.ou u).lastEdge + 1) →
    (s.ou u).drive ≠ level → s.isInput u = false → level = s.onLevel u → (s.openWindow x).judge u x = some k →
    ((s.placeEdge u level t).pin u).onSince = (s.pin u).onSince ∧ ((s.placeEdge u level t).pin u).hold = true ∧
    ((s.placeEdge u level t).ou u).drive = level ∧ ((s.placeEdge u level t).ou u).clamps = (s.ou u).clamps + 1 ∧
    ((s.placeEdge u level t).ou u).lastCause = BitVec.ofNat 4 k ∧ ((s.placeEdge u level t).ou u).clampT = x ∧
    ((s.placeEdge u level t).ou u).edgeT = (s.ou u).edgeT ∧
    (s.placeEdge u level t).fc.raised = s.fc.raised ||| BitVec.ofNat 256 (1 <<< (96 + u / 16)) ∧
    (∀ c, (s.ou u).holder = some c → ((s.placeEdge u level t).chan c).status = (s.chan c).status ||| 0x80)) ∧
  (∀ (s : State) (u : Nat) (level : Bool) (t x : Time), x = max t ((s.ou u).lastEdge + 1) →
    (s.ou u).drive ≠ level → s.isInput u = false → level ≠ s.onLevel u →
    ((s.placeEdge u level t).pin u).onSince = none ∧ ((s.placeEdge u level t).pin u).hold = false ∧
    ((s.pin u).onSince.isSome = true → ((s.placeEdge u level t).pin u).lastRest = some x ∧ ((s.placeEdge u level t).ou u).edgeT = x) ∧
    ((s.placeEdge u level t).ou u).drive = level ∧ (s.placeEdge u level t).pinLevel u = (if s.rst.fenceRead then level else (s.pin u).ext)) ∧
  (∀ (s : State) (u : Nat) (t : Time), s.judge u t = none ↔
    (∀ i < 8, (s.permitReq u).testBit i = true → (s.permitIn i).accepted = true) ∧ (s.pin u).hold = false ∧ s.fc.safe = false ∧
    (∀ r, (s.pin u).lastRest = some r → r + s.minOff u ≤ t) ∧ (∀ g < 32, s.inGroup u g = true → s.groupAdmits g t = true) ∧
    (s.maxEdges u = 0 ∨ s.budget u ≠ 0) ∧ (fld (s.pinWord u 1) 24 8 = 0 ∨ (s.pin u).onTime (s.dutyWin u) t < s.dutyLimit u)) ∧
  (∀ (s : State) (u i : Nat) (t : Time), i < 8 → (s.permitReq u).testBit i = true → (s.permitIn i).accepted = false → s.judge u t = some 1)

/-- R156, R157, R340, R349: a SIGNAL on an undriven pin ends with UNIT_CHECK; one whose unit another channel holds waits for the slot; otherwise it
holds the slot and LEVEL places its edge at the next 125 ps point and completes, PULSE places its leading edge there and its trailing edge WIDTH
later, where it completes, and PATTERN asks for its entries. A freed slot goes, from the next cycle on, to the lowest channel number that waits.

R156: the trailing edge of a PULSE is placed at its instant and ends the SIGNAL. R157: a waiting channel that gets its slot executes then, or ends
with UNIT_CHECK where its pin has become an input meanwhile. R195, R345, R347: a TIME entry falls DELTA × 125 ps after the edge before it, a POSITION entry at its due time, or 125 ps after the edge
before it, noted PLACE_HELD, where that has not been passed; the placed entry leaves the pattern and is the unit's latest edge. -/
def Obligations.SignalsPlaceTheirEdges : Prop :=
  (
  ∀ (t : Time) (c : Fin 4096) (s s1 s2 : State) (h : Chan) (u : Nat) (st' : ChanState), h = s.chan c → u = h.cur.ou → Current s c 0x30 →
    st' = h.st.going →
    s1 = (s.arrive t).setOu u { s.ou u with holder := some c.val } → s2 = s1.setChan c { h with act := .signal u, st := st' } →
    (h.cur.sigMode = 0 → s.isInput u = false → ((s.arrive t).slotFor c u true = true ∨ (s.ou u).holder = some c.val) →
      exec (.signalLevel t c) s = .next ((s2.placeEdge u (bit h.cur.w2 0) (max s.now t + 1)).signalDone c)) ∧
    (h.cur.sigMode = 1 → s.isInput u = false → ((s.arrive t).slotFor c u true = true ∨ (s.ou u).holder = some c.val) →
      exec (.signalPulse t c) s = .next ((s2.placeEdge u (bit h.cur.w3 0) (max s.now t + 1)).modOu u fun o =>
        { o with trail := some (max (max s.now t + 1) ((s.ou u).lastEdge + 1) + h.cur.w2.toNat, !bit h.cur.w3 0) })) ∧
    (h.cur.sigMode = 2 → s.isInput u = false → ((s.arrive t).slotFor c u true = true ∨ (s.ou u).holder = some c.val) →
      exec (.signalPattern t c) s = .next (s1.pump c)) ∧
    (∀ i, (i = Instr.signalLevel t c ∧ h.cur.sigMode = 0 ∨ i = Instr.signalPulse t c ∧ h.cur.sigMode = 1 ∨
        i = Instr.signalPattern t c ∧ h.cur.sigMode = 2) →
      (s.isInput u = true → exec i s = .next ((s.arrive t).endWith c [11])) ∧
      (s.isInput u = false → (s.arrive t).slotFor c u true = false → (s.ou u).holder ≠ some c.val →
        exec i s = .next ((s.arrive t).enterWait c (.slot u))))) ∧
  (∀ (s : State) (c u : Nat),
    (s.slotFor c u true = true ↔ (s.ou u).holder = none ∧ (s.ou u).freeAt ≤ cyc s.now ∧ ∀ k ∈ s.slotWaiters u true, c ≤ k) ∧
    (s.slotFor c u false = true ↔ (s.ou u).sampler = none ∧ (s.ou u).sampAt ≤ cyc s.now ∧ ∀ k ∈ s.slotWaiters u false, c ≤ k)) ∧
  (
  (∀ (t : Time) (u : Fin 128) (s : State) (x : Time) (l : Bool) (c : Nat), s.up = true → (s.ou u).trail = some (x, l) →
    (s.ou u).holder = some c → exec (.pulseTrailingEdge t u) s = .next
      (if x ≤ max s.now t then (((s.arrive t).setOu u { s.ou u with trail := none }).placeEdge u l x).signalDone c else s.arrive t)) ∧
  (∀ (t : Time) (u : Fin 128) (s s1 : State) (c : Nat) (r : List Nat), s.up = true → (s.arrive t).slotFor c u true = true →
    (s.arrive t).slotWaiters u true = c :: r → (s.chan c).act = .slot u → s1 = (s.arrive t).signalGo c →
    (∀ k q, s1.slotWaiters u false = k :: q → s1.slotFor k u false = false) → exec (.slotReserve t u) s = .next s1) ∧
  (∀ (s s1 : State) (c : Nat) (g : Group), g = (s.chan c).cur → s1 = s.setOu g.ou { s.ou g.ou with holder := some c } →
    s.signalGo c = if s.isInput g.ou then s.endWith c [11] else if g.sigMode = 2 then s1.pump c else s1.signalFire c (s.now + 1) []) ∧
  (∀ (t : Time) (u : Fin 128) (s : State) (p : PatEntry) (r : List PatEntry), s.up = true → (s.ou u).pat = p :: r → p.pos = false →
    exec (.patternEdge t u) s = .next (if (s.ou u).lastEdge + p.value.toNat ≤ max s.now t then
      (s.arrive t).patternStep u ((s.ou u).lastEdge + p.value.toNat) else s.arrive t)) ∧
  (∀ (t : Time) (u : Fin 128) (s : State) (p : PatEntry) (r : List PatEntry) (x : Time), s.up = true → (s.ou u).pat = p :: r → p.pos = true →
    ((s.ou u).posPassed = some x ∨ (s.ou u).posPassed = none ∧ (s.ou u).posDue = some x) →
    ((s.ou u).lastEdge < x → x ≤ max s.now t → exec (.positionEdge t u) s = .next ((s.arrive t).patternStep u x)) ∧
    (∀ c, x ≤ (s.ou u).lastEdge → (s.ou u).lastEdge + 1 ≤ max s.now t → (s.ou u).holder = some c →
      exec (.positionEdge t u) s = .next
        (((s.arrive t).setChan c { s.chan c with placeHeld := true }).patternStep u ((s.ou u).lastEdge + 1))) ∧
    ((s.ou u).lastEdge < x → max s.now t < x → exec (.positionEdge t u) s = .next (s.arrive t))) ∧
  (∀ (s : State) (u : Nat) (t : Time) (p q : PatEntry) (r : List PatEntry), (s.ou u).pat = p :: q :: r → p.pos = false → q.pos = false →
    ((s.patternStep u t).ou u).pat = q :: r ∧ ((s.patternStep u t).ou u).lastEdge = max t ((s.ou u).lastEdge + 1) ∧
    ((s.patternStep u t).ou u).holder = (s.ou u).holder ∧
    (s.isInput u = false → ((s.patternStep u t).ou u).drive = p.level)) ∧
  (∀ (s : State) (u : Nat) (t : Time) (p : PatEntry) (c : Nat), (s.ou u).pat = [p] → p.pos = false → (s.ou u).holder = some c →
    s.patternStep u t = (((s.setOu u { s.ou u with pat := [] }).placeEdge u p.level t).armEdge u).signalDone c))

/-- R95, R98, R158: ARM writes its whole image to the unit in one cycle: phase, turn and increment of a compare unit, filter, prescaler and channel
of a capture unit, and the control word unless the unit refuses it; a refusal sets CFG_REJ and ends the command with UNIT_CHECK. ARM of a compare
unit keeps the unit's number and firing count in the channel. -/
def Obligations.ArmWritesTheUnitsImage : Prop :=
  (∀ (s u : State) (k : Nat) (ctrl phase turn incr : Word) (rej : Bool), s.cmpImage k ctrl phase turn incr = (rej, u) →
    (rej = true ↔ fld ctrl 1 2 = 3 ∨ fld ctrl 4 2 = 3 ∨ k = 0 ∧ bit ctrl 6 = true ∨
      (s.cmp k).en = true ∧ (fld ctrl 10 6 ≠ (s.cmp k).cell ∨ fld ctrl 4 2 ≠ (s.cmp k).repeat_ ∨ bit ctrl 6 ≠ (s.cmp k).chain)) ∧
    (u.cmp k).phase = phase ∧ (u.cmp k).turn = turn ∧ (u.cmp k).incr = incr ∧
    (u.cmp k).ctrl = (if rej then (s.cmp k).ctrl else ctrl &&& 0x0FFFFDFF) ∧ (u.cmp k).cfgRej = (rej || (s.cmp k).cfgRej) ∧
    (∀ j, j ≠ k → u.cmp j = s.cmp j) ∧ u.caps = s.caps ∧ Ran s u) ∧
  (∀ (s u : State) (j : Nat) (ctrl filt presc chan : Word) (rej : Bool), s.capImage j ctrl filt presc chan = (rej, u) →
    (rej = true ↔ (s.cap j).refuses ctrl = true) ∧ (u.cap j).filt = filt &&& 0xFFF ∧ (u.cap j).presc = presc &&& 0xFFFF ∧
    (u.cap j).chan = chan &&& 0xFFF ∧ (u.cap j).ctrl = (if rej then (s.cap j).ctrl else ctrl &&& 0x3FFFFF) ∧
    (u.cap j).cfgRej = (rej || (s.cap j).cfgRej) ∧ (∀ i, i ≠ j → u.cap i = s.cap i) ∧ u.cmps = s.cmps ∧ Ran s u) ∧
  (∀ (t : Time) (c : Fin 4096) (s s1 : State) (rej : Bool) (g : Group) (k : Nat), g = (s.chan c).cur → Current s c 0x31 → bit g.w1 8 = false →
    k = fld g.w1 0 8 → (s.arrive t).cmpImage k g.o0 g.o1 g.o2 g.o3 = (rej, s1) →
    ∃ s2, s2 = s1.setChan c { s1.chan c with armIdx := k, armValid := true, armFcnt := (s1.cmp k).fcnt } ∧
      exec (.armCompare t c) s = .next (if rej then s2.endOr c 11 else s2.complete c)) ∧
  (∀ (t : Time) (c : Fin 4096) (s s1 : State) (rej : Bool) (g : Group), g = (s.chan c).cur → Current s c 0x31 → bit g.w1 8 = true →
    (s.arrive t).capImage (fld g.w1 0 8) g.o0 g.o1 g.o2 g.o3 = (rej, s1) →
    exec (.armCapture t c) s = .next (if rej then s1.endOr c 11 else s1.complete c))

/-! ## CONTROL, SENSE and data movement (04, 06) -/

/-- R150: FLUSH discards what a unit holds beyond what started bursts have reserved; LOAD sets turn (sign-extended) and phase of a cell and clears
its fraction, or ends with UNIT_CHECK and LOAD_REJ where the phase is not below the modulus; SET_MOD writes its modulus and SET_RATE commits its
rate. Each then completes. -/
def Obligations.ControlActsOnItsUnit : Prop :=
  (∀ (s : State) (u : Nat),
    (unitClass u = .stream → s.flushUnit u = s.setStream u { s.stream u with recs := (s.stream u).recs.take (b2n (s.stream u).owner.isSome) }) ∧
    (unitClass u = .cap → s.flushUnit u = s.setCap (u - 0x300) { s.cap (u - 0x300) with
      fifo := (s.capFree (u - 0x300)).foldl List.erase (s.cap (u - 0x300)).fifo }) ∧
    (unitClass u = .serial → s.flushUnit u = s.setSer (u % 8) { s.ser (u % 8) with
      raw := (s.serFree (u % 8)).foldl List.erase (s.ser (u % 8)).raw }) ∧
    (unitClass u = .txq → s.flushUnit u = s.setTxq (u - 0x100) { s.txq (u - 0x100) with frames := [] })) ∧
  (∀ (t : Time) (c : Fin 4096) (s : State) (g : Group), g = (s.chan c).cur → Current s c 0x03 →
    (unitClass g.unit ≠ .cell → fld g.w1 0 8 = 1 → exec (.flush t c) s = .next (((s.arrive t).flushUnit g.unit).complete c)) ∧
    (∀ n, unitClass g.unit = .cell → n = g.unit - 0x380 →
      (fld g.w1 0 8 = 1 → g.w2.toNat < (s.cell n).modN → ∃ s1 : State, exec (.load t c) s = .next (s1.complete c) ∧
        (s1.cell n).turn = BitVec.ofInt 48 g.w3.toInt ∧ (s1.cell n).phase = g.w2 ∧ (s1.cell n).frac = 0 ∧
        (s1.cell n).hist = (s.cell n).hist ∧ (∀ j, j ≠ n → s1.cell j = s.cell j) ∧ Aims (s.arrive t) s1) ∧
      (fld g.w1 0 8 = 1 → (s.cell n).modN ≤ g.w2.toNat → exec (.load t c) s = .next
        (((s.arrive t).setCell n { s.cell n with flags := (s.cell n).flags ||| 0x8000 }).endOr c 11)) ∧
      (fld g.w1 0 8 = 2 → ∃ s1 : State, exec (.setMod t c) s = .next (s1.complete c) ∧ (s1.cell n).mod = g.w2 ∧
        (s1.cell n).phase = (s.cell n).phase ∧ (s1.cell n).turn = (s.cell n).turn ∧ (∀ j, j ≠ n → s1.cell j = s.cell j) ∧
        Kept (s.arrive t) s1) ∧
      (fld g.w1 0 8 = 3 → ∃ s1 : State, exec (.setRate t c) s = .next (s1.complete c) ∧ (s1.cell n).rate = BitVec.ofNat 64 g.addr ∧
        (s1.cell n).phase = (s.cell n).phase ∧ (s1.cell n).turn = (s.cell n).turn ∧ (∀ j, j ≠ n → s1.cell j = s.cell j) ∧
        Kept (s.arrive t) s1)))

/-- R149: SENSE samples its unit and sets COND where the sense word under MASK equals MATCH; with SKP it completes, otherwise it asks a mover to
write its 16-byte block. R144, R145, R152 to R155, R208, R217: READ, WRITE, MOVE, FILL, COMPARE and GATHER, outside a bracket, ask
for a mover once the first page of each side is translated, or wait while their unit has nothing to give or no room; a unit that refuses the command
ends it with UNIT_CHECK. R138, R142: a READ that continues a chain whose record has ended is skipped; a transfer whose fragment is used up asks for
the table's next entry, or ends with PROGRAM_CHECK where that was the last. R386: a READ of a unit in placement mode places records. When the unit
advertises, the waiting channel asks again. -/
def Obligations.TransfersAskForAMover : Prop :=
  ∀ (t : Time) (c : Fin 4096) (s : State) (h : Chan), h = s.chan c →
    (Current s c 0x04 → h.snap = [] → h.cur.skp = true → exec (.sense t c) s = .next (((s.arrive t).setChan c
      { h with cond := decide ((s.arrive t).senseWord h.cur.unit &&& BitVec.ofNat 16 (fld h.cur.w1 0 16) = BitVec.ofNat 16 (fld h.cur.w1 16 16)),
               condValid := true }).complete c)) ∧
    (Current s c 0x04 → h.snap = [] → h.cur.skp = false → exec (.sense t c) s = .next (((s.arrive t).setChan c
      { h with cond := decide ((s.arrive t).senseWord h.cur.unit &&& BitVec.ofNat 16 (fld h.cur.w1 0 16) = BitVec.ofNat 16 (fld h.cur.w1 16 16)),
               condValid := true, snap := (s.arrive t).senseBlock h.cur.unit (max s.now t) }).pump c)) ∧
    (∀ i op, (i = Instr.move t c ∧ op = 0x05 ∨ i = Instr.fill t c ∧ op = 0x06 ∨ i = Instr.compare t c ∧ op = 0x07) → Current s c op →
      h.inBracket = false → exec i s = .next ((s.arrive t).pump c)) ∧
    (Current s c 0x08 → exec (.gather t c) s = .next
      (if unitClass h.cur.unit = .txq ∧ ((s.arrive t).unitCheck 0x02 h.cur.unit = true ∨
          (s.port ((h.cur.unit - 0x100) / 4)).maxLen < h.frame.length + (h.resid * h.cur.gSize - h.ebyte) + 4)
       then (s.arrive t).endWith c [11] else (s.arrive t).pump c)) ∧
    (Current s c 0x02 → exec (.write t c) s = .next
      (if (s.arrive t).unitCheck 0x02 h.cur.unit = true ∨ unitClass h.cur.unit = .txq ∧
          (s.port ((h.cur.unit - 0x100) / 4)).maxLen < h.frame.length + h.resid + 4
       then (s.arrive t).endWith c [11] else (s.arrive t).pump c)) ∧
    (Current s c 0x01 → (s.arrive t).unitCheck 0x01 h.cur.unit = true → exec (.read t c) s = .next ((s.arrive t).endWith c [11])) ∧
    (Current s c 0x01 → (s.arrive t).unitCheck 0x01 h.cur.unit = false → (h.recEnded = false ∨ h.inChain = false) → s.placing c = false →
      h.snap = [] → exec (.read t c) s = .next (((s.arrive t).setChan c { h with
        snap := if unitClass h.cur.unit = .cell then (s.arrive t).cellSnapshot (h.cur.unit - 0x380) (max s.now t)
                else if unitClass h.cur.unit = .yazen then s.yz.slotData (h.cur.unit - 0x700) else [] }).pump c)) ∧
    (Current s c 0x01 → (s.arrive t).unitCheck 0x01 h.cur.unit = false → (h.recEnded = false ∨ h.inChain = false) → s.placing c = false →
      h.snap ≠ [] → exec (.read t c) s = .next (((s.arrive t).setChan c h).pump c)) ∧
    (Current s c 0x01 → (s.arrive t).unitCheck 0x01 h.cur.unit = false → h.recEnded = true → h.inChain = true →
      exec (.read t c) s = .next ((s.arrive t).readSkip c)) ∧
    (Current s c 0x01 → (s.arrive t).unitCheck 0x01 h.cur.unit = false → (h.recEnded = false ∨ h.inChain = false) → s.placing c = true →
      exec (.read t c) s = .next (if h.cur.cd = true ∨ h.cur.count % (s.stream h.cur.unit).stride ≠ 0 then (s.arrive t).endWith c [11]
        else ((s.arrive t).setChan c { h with fragA := none }).placeGo c)) ∧
    (∀ u, s.up = true → h.act = .unit u → h.st = .waiting →
      exec (.unitAdvertise t c) s = .next (if (s.arrive t).sideReady c then
        (if s.placing c then (s.arrive t).placeGo c else (s.arrive t).pump c) else s.arrive t)) ∧
    (s.up = true → h.act = .sched → exec (.unitAdvertise t c) s = .next ((s.arrive t).stagePump c)) ∧
    (∀ s1 s2, (h.st ≠ .haltPending ∨ h.committedNow = true) → s1 = s.setChan c { h with act := .move, st := h.st.going } →
      (fragOver h.fragA = true ∨ fragOver h.fragB = true → s.pump c = s1.endWith c [0]) ∧
      (fragOver h.fragA = false → fragOver h.fragB = false → (fragNeeds h.fragA = true ∨ fragNeeds h.fragB = true) → s.pump c = s1) ∧
      (fragNeeds h.fragA = false → fragNeeds h.fragB = false →
        (s1.sideReady c = false → s.pump c = s1.enterWait c (.unit h.cur.unit)) ∧
        (s1.sideReady c = true → s1.firstPages c h.firstSpans = (true, s2) → s.pump c = s2.setChan c { s2.chan c with act := .req }) ∧
        (s1.sideReady c = true → s1.firstPages c h.firstSpans = (false, s2) → s.pump c = s2))) ∧
    (h.st = .haltPending → h.committedNow = false → s.pump c = s)

/-- R210, R211, R214: a free mover is granted to the next request, timed requests before untimed ones and higher classes before lower; the burst is
formed, the token taken and the channel's transfer goes on, while a request whose unit has nothing left waits again and the next one is served;
with no free mover, or no request, or a grant made in this cycle already, nothing happens. R221, R228, R229: the data of a
completion is kept and its request is answered; a request that fails or times out is issued again until RETRY is used up, and then ends the
burst before its first byte; while the link is not up every reissue fails. R236: MOVER_CTRL bit 0 sets the peak to the tokens taken. -/
def Obligations.MoversAreGrantedAndAnswered : Prop :=
  (∀ (s s' : State) (mv : Nat), s.pickMover = some (mv, s') → mv < 32 ∧ s.mover mv = none ∧ tget 0 s.movers.freeAt mv ≤ cyc s.now ∧
    s'.movers = s.movers) ∧
  (∀ s : State,
    (s.timedGrantable ≠ [] → ∃ c ∈ s.timedGrantable, s.grantOrder.head? = some (0, c)) ∧
    (∀ p < 4, s.timedGrantable = [] → (∀ q < p, s.classRequests q = []) → s.classRequests p ≠ [] →
      ∃ c ∈ s.classRequests p, s.grantOrder.head? = some (p + 1, c) ∧
        ((∃ j ∈ s.classRequests p, s.movers.last.getD (p + 1) 4095 < j) → s.movers.last.getD (p + 1) 4095 < c))) ∧
  (∀ (t : Time) (s s1 : State) (k c mv : Nat) (r : List (Nat × Nat)), s.up = true → s.movers.grantAt ≠ some (cyc (max s.now t)) →
    (s.arrive t).grantOrder = (k, c) :: r → (s.arrive t).pickMover = some (mv, s1) →
    (∀ b s2, (s.chan c).act = .req → s1.form c (s.chan c).cur.tm = (b, s2) →
      (b.len ≠ 0 → exec (.moverGrant t) s = .next
        ((((s2.granted k c).modChan c fun h => { h with act := .move }).install mv b).pumpBurst mv)) ∧
      (b.len = 0 → exec (.moverGrant t) s = .next ((s1.enterWait c (.unit (s.chan c).cur.unit)).grantTo mv r))) ∧
    ((s.chan c).act ≠ .req → exec (.moverGrant t) s = .next ((s1.granted k c).grantStage c mv))) ∧
  (∀ (t : Time) (s : State), s.up = true →
    (s.movers.grantAt = some (cyc (max s.now t)) ∨ (s.arrive t).grantOrder = [] ∨ (s.arrive t).freeMovers = []) →
    exec (.moverGrant t) s = .next (s.arrive t)) ∧
  (∀ (t : Time) (mv : Fin 32) (a : Nat) (s : State) (b : Burst) (r : Req), s.up = true → s.mover mv = some b →
    b.reqs.find? (fun r => r.addr = a) = some r →
    (∀ x : List Byte, x.length = r.len → exec (.hostReadCompletion t mv a (.data x)) s = .next (((s.arrive t).setMover mv
      (some { b with got := putBytes b.got (r.side * 8192 + r.ofs) x, reqs := b.reqs.erase r })).pumpBurst mv)) ∧
    (∀ i, (i = Instr.hostReadCompletion t mv a .fail ∨ i = Instr.completionTimeout t mv a) →
      (r.tries < b.retry → s.irq.link = true → ∃ u, exec i s = .next u ∧ u.out = s.out ++ [.hostRead r.addr r.len] ∧
        u.mover mv = some { b with reqs := { r with tries := r.tries + 1 } :: b.reqs.erase r } ∧ u.movers.retry = s.movers.retry + 1) ∧
      ((b.retry ≤ r.tries ∨ s.irq.link = false) → b.cut = none → ∃ u, exec i s = .next u ∧
        u.movers.retry = s.movers.retry + BitVec.ofNat 32 (b.retry - r.tries) ∧
        u.mover mv = some { b with reqs := b.reqs.erase r, cut := some (b.ofsOf (s.chan b.chan) r.side r.ofs, none), elemBad := false } ∧ u.out = s.out))) ∧
  (∀ (t : Time) (m : Ident) (v : Word) (s : State), s.serves (moverOfs + 0x20) = true → exec (.moverPeakClr t m v) s = .next
    (if bit v 0 then { s.arrive t with movers := { s.movers with peak := s.movers.run.length } } else s.arrive t))

/-- R152, R153, R218, R222, R223: the last burst of a MOVE or FILL writes its bytes to their destination in ascending order and no other byte of
SRAM, frees its mover and counts its bytes. R154, R227: a burst of COMPARE that finds a difference, be it while reads
beyond it are outstanding, sets MISMATCH and COND 0 and completes at the byte where it lies; the last one that finds none sets COND 1. Here the destination of MOVE and FILL lies in SRAM, in one piece, and the channel
posts no records. -/
def Obligations.BurstsMoveAndCompareTheirBytes : Prop :=
  (∀ (t : Time) (mv : Fin 32) (s : State) (b : Burst) (d : Side) (g : Seg) (data : List Byte), s.up = true → s.mover mv = some b → b.len ≠ 0 →
    (s.arrive t).burstReady b = true → (s.arrive t).burstLocked b = false → b.staging = false → b.cut = none → b.parked = false →
    ((s.chan b.chan).cur.op = 0x05 ∨ (s.chan b.chan).cur.op = 0x06) → (s.chan b.chan).resid = b.len → (s.chan b.chan).eq = none →
    b.wr = some d → d.segs = [g] → g.phy = true → g.ofs = 0 → g.len = b.len →
    (s.arrive t).burstData b = (data, none, s.arrive t) → data.length = b.len →
    ∃ u, exec (.burstEnd t mv) s = .next u ∧ u.mover mv = none ∧ u.movers.bytes = s.movers.bytes + BitVec.ofNat 64 b.len ∧
      (∀ a, tget 0 u.mem.sram a = if g.addr ≤ a ∧ a < g.addr + b.len then data.getD (a - g.addr) 0 else tget 0 s.mem.sram a)) ∧
  (∀ (t : Time) (mv : Fin 32) (s : State) (b : Burst) (x y : List Byte) (h : Chan), s.up = true → s.mover mv = some b → b.len ≠ 0 →
    (s.arrive t).burstReady b = true → (s.arrive t).burstLocked b = false → b.staging = false → b.cut = none →
    h = s.chan b.chan → h.cur.op = 0x07 → (s.arrive t).diffSeen b = none → (s.arrive t).burstData b = (x, none, s.arrive t) → (s.arrive t).secondBytes b = (y, none, s.arrive t) →
    (∀ k, firstDiff (x.take b.len) (y.take b.len) 0 = some k → ∃ s1 : State, exec (.burstEnd t mv) s = .next (s1.complete b.chan) ∧
      s1.mem = s.mem ∧ s1.mover mv = none ∧ (s1.chan b.chan).cond = false ∧ (s1.chan b.chan).condValid = true ∧
      (s1.chan b.chan).status = h.status ||| 0x200 ∧ (s1.chan b.chan).resid = h.resid - k) ∧
    (firstDiff (x.take b.len) (y.take b.len) 0 = none → h.resid = b.len → ∃ s1 : State, exec (.burstEnd t mv) s = .next (s1.complete b.chan) ∧
      s1.mem = s.mem ∧ s1.mover mv = none ∧ (s1.chan b.chan).cond = true ∧ (s1.chan b.chan).condValid = true ∧
      (s1.chan b.chan).status = h.status ∧ (s1.chan b.chan).resid = 0)) ∧
  (∀ (t : Time) (mv : Fin 32) (s : State) (b : Burst) (h : Chan) (k : Nat), s.up = true → s.mover mv = some b → b.len ≠ 0 →
    (s.arrive t).burstLocked b = false → b.staging = false → h = s.chan b.chan → (s.arrive t).diffSeen b = some k →
    ∃ s1 : State, exec (.burstEnd t mv) s = .next (s1.complete b.chan) ∧ s1.mem.sram = s.mem.sram ∧ s1.mover mv = none ∧
      (s1.chan b.chan).cond = false ∧ (s1.chan b.chan).condValid = true ∧ (s1.chan b.chan).status = h.status ||| 0x200 ∧
      (s1.chan b.chan).resid = h.resid - k) ∧
  (∀ (s : State) (b : Burst) (h : Chan) (k : Nat), h = s.chan b.chan → s.diffSeen b = some k → h.cur.op = 0x07 ∧
    ∃ n, n ≤ b.lim ∧ n ≤ s.sideClean b 0 ∧ (h.cur.const = false → n ≤ s.sideClean b 1) ∧
      firstDiff (s.sidePeek b 0 n) (if h.cur.const then h.cur.pattern h.doneN n else s.sidePeek b 1 n) 0 = some k)

/-! ## Locked sequences (04_command_set.md) -/

/-- R166 to R168: a LOCK that becomes current waits until the whole of its bracket has been fetched, ends with PROGRAM_CHECK where a member may not
stand in it and with PROTECTION_CHECK where one addresses what it may not, and then opens it. R169: inside it FILL, MOVE and CAS change nothing in
SRAM: what they write is buffered in order, and a read sees the buffered bytes over SRAM. R469: the first access of a bracket waits while another
locked sequence holds one of its beats. -/
def Obligations.MembersOfABracketWriteNothingYet : Prop :=
  ∀ (t : Time) (c : Fin 4096) (s : State) (h : Chan), h = s.chan c →
    (∀ l, Current s c 0x38 → bracketOf h.phy (h.cca + h.cur.size) [] h.ahead = .ok l →
      exec (.lock t c) s = .next (((s.arrive t).setChan c
        { h with inBracket := true, lockWrites := [], lockFirst := none, lockBeats := (l.flatMap memberBeats).eraseDups }).complete c)) ∧
    (bracketOf h.phy (h.cca + h.cur.size) [] h.ahead = .bad → s.bracketCheck c = s.failCheck c 0) ∧
    (bracketOf h.phy (h.cca + h.cur.size) [] h.ahead = .more → s.bracketCheck c = s.setChan c { h with act := .bracket }) ∧
    (∀ l, bracketOf h.phy (h.cca + h.cur.size) [] h.ahead = .ok l →
      (∀ b, groupCheckB h (s.dom h.domain).phyOk h.cur = some b → s.bracketCheck c = s.failCheck c b) ∧
      (groupCheckB h (s.dom h.domain).phyOk h.cur = none →
        (physBad (s.dom h.domain).phyOk (l.flatMap physRanges) = true → s.bracketCheck c = s.failCheck c 1) ∧
        ((∀ r ∈ l.flatMap physRanges, (s.dom h.domain).phyOk = true ∧ r.1 + r.2 ≤ sramSize) → s.bracketCheck c = s.passChecks c))) ∧
    (∀ b, s.failCheck c b = (s.setChan c { h with resid := h.cur.count }).endWith c [b]) ∧
    (∀ g x, x = { h with cur := g, opcode := BitVec.ofNat 8 g.op, currentAt := s.now, act := .ready, tries := 0 } → g.op = 0x38 →
      groupCheckA x g = none → s.makeCurrent c g = (s.setChan c x).bracketCheck c) ∧
    (s.bracketBlocked c = true ↔ h.lockFirst = none ∧ ∃ x ∈ h.lockBeats, s.beatLocked (some c) (64 * x) 64 = true) ∧
    (∀ i op, (i = Instr.move t c ∧ op = 0x05 ∨ i = Instr.fill t c ∧ op = 0x06 ∨ i = Instr.compare t c ∧ op = 0x07 ∨ i = Instr.cas t c ∧ op = 0x3A) →
      Current s c op → h.inBracket = true → s.bracketBlocked c = true → exec i s = .next (s.arrive t)) ∧
    (Current s c 0x06 → h.inBracket = true → s.bracketBlocked c = false → (∀ x, h.lockFirst = some x → max s.now t ≤ x + 2048) →
      ∃ s1 : State, exec (.fill t c) s = .next (s1.complete c) ∧ s1.mem = s.mem ∧
        (s1.chan c).lockWrites = (h.cur.addr, h.cur.pattern 0 h.cur.count) :: h.lockWrites ∧
        (s1.chan c).lockFirst = some (h.lockFirst.getD (max s.now t)) ∧ OnlyChan c s s1) ∧
    (Current s c 0x05 → h.inBracket = true → s.bracketBlocked c = false → (∀ x, h.lockFirst = some x → max s.now t ≤ x + 2048) →
      s.badWord h.cur.addr h.cur.count = none →
      ∃ s1 : State, exec (.move t c) s = .next (s1.complete c) ∧ s1.mem.sram = s.mem.sram ∧
        (s1.chan c).lockWrites = (h.cur.opLo, overlay h.lockWrites h.cur.addr (s.sramBytes h.cur.addr h.cur.count)) :: h.lockWrites ∧
        OnlyChan c s s1) ∧
    (∀ x y, Current s c 0x07 → h.inBracket = true → s.bracketBlocked c = false → (∀ x, h.lockFirst = some x → max s.now t ≤ x + 2048) → h.cur.const = true →
      s.badWord h.cur.addr h.cur.count = none → x = overlay h.lockWrites h.cur.addr (s.sramBytes h.cur.addr h.cur.count) →
      y = h.cur.pattern 0 h.cur.count →
      ∃ s1 : State, exec (.compare t c) s = .next (s1.complete c) ∧ s1.mem.sram = s.mem.sram ∧ (s1.chan c).lockWrites = h.lockWrites ∧
        (s1.chan c).cond = (firstDiff x y 0).isNone ∧ (s1.chan c).condValid = true) ∧
    (∀ w, Current s c 0x3A → h.inBracket = true → s.bracketBlocked c = false → (∀ x, h.lockFirst = some x → max s.now t ≤ x + 2048) →
      s.badWord h.cur.addr h.cur.count = none → w = leNat (overlay h.lockWrites h.cur.addr (s.sramBytes h.cur.addr h.cur.count)) →
      ∃ s1 : State, exec (.cas t c) s = .next (s1.complete c) ∧ s1.mem.sram = s.mem.sram ∧ (s1.chan c).result = BitVec.ofNat 64 w ∧
        (s1.chan c).cond = decide (w = h.cur.opLo) ∧ (s1.chan c).lockWrites =
          if w = h.cur.opLo then (h.cur.addr, leBytes h.cur.count h.cur.opHi) :: h.lockWrites else h.lockWrites) ∧
    (Current s c 0x7F → h.inBracket = true → (∀ x, h.lockFirst = some x → max s.now t ≤ x + 2048) →
      ∃ s1 : State, exec (.nop t c) s = .next (s1.complete c) ∧ s1.mem = s.mem ∧ (s1.chan c).lockFirst = h.lockFirst)

/-- R169: at UNLOCK every buffered write becomes visible, in order, in one cycle, and the sequence is counted. R170: a sequence that lasts more than
256 ns from its first access is abandoned: no write of it reaches SRAM, it is counted, and the command ends with LOCK_ABANDONED. R171: CAS outside
a bracket compares the word with EXPECT: equal, it writes NEW and sets COND 1; unequal, it writes nothing and sets COND 0; RESULT takes the word
read either way; while another sequence locks its beat it waits. -/
def Obligations.UnlockAndCasWriteAtOnce : Prop :=
  ∀ (t : Time) (c : Fin 4096) (s : State) (h : Chan) (gone : Chan), h = s.chan c →
    gone = { h with inBracket := false, lockWrites := [], lockFirst := none, lockBeats := [] } →
    (Current s c 0x39 → (∀ x, h.lockFirst = some x → max s.now t ≤ x + 2048) → ∃ s1 : State, exec (.unlock t c) s = .next (s1.complete c) ∧
      s1.mem.sram = h.lockWrites.reverse.foldl (fun m p => putBytes m p.1 p.2) s.mem.sram ∧ s1.mem.locks = s.mem.locks + 1 ∧
      s1.mem.abandons = s.mem.abandons ∧ s1.chan c = gone ∧ OnlyChan c s s1) ∧
    (∀ x, Current s c 0x39 → h.lockFirst = some x → x + 2048 < max s.now t → exec (.unlock t c) s = .next
      (({ s.arrive t with mem := { s.mem with abandons := s.mem.abandons + 1 } }.setChan c gone).endOr c 8)) ∧
    (∀ x, s.up = true → h.inBracket = true → h.lockFirst = some x → exec (.lockAbandoned t c) s = .next
      (if x + 2048 ≤ max s.now t then ({ s.arrive t with mem := { s.mem with abandons := s.mem.abandons + 1 } }.setChan c gone).endOr c 8
       else s.arrive t)) ∧
    (∀ w, Current s c 0x3A → h.inBracket = false → s.beatLocked (some c) h.cur.addr h.cur.count = false →
      s.badWord h.cur.addr h.cur.count = none → w = leNat (s.sramBytes h.cur.addr h.cur.count) →
      ∃ s1 : State, exec (.cas t c) s = .next (s1.complete c) ∧ s1.mem.locks = s.mem.locks + 1 ∧
        s1.chan c = { h with cond := decide (w = h.cur.opLo), condValid := true, result := BitVec.ofNat 64 w } ∧ OnlyChan c s s1 ∧
        s1.mem.sram = (if w = h.cur.opLo then putBytes s.mem.sram h.cur.addr (leBytes h.cur.count h.cur.opHi) else s.mem.sram)) ∧
    (Current s c 0x3A → h.inBracket = false → s.beatLocked (some c) h.cur.addr h.cur.count = true →
      exec (.cas t c) s = .next (s.arrive t))

/-! ## Timed execution (05_timed_execution.md) -/

/-- R182, R205: a free scheduler entry, one in each cycle and none in the cycle of its return, goes to the first waiting command or pattern, else to
the first waiting compare unit; a command whose due time
lies less than COMMIT ahead then ends MISSED with NO_ENTRY. R206: SCHED_CTRL bit 0 sets the peak to the entries in use. R176, R177: staging begins
once the predicted due time has come within the effective lead. R129, R194: a limit that expires before commit ends the command MISSED.

R189, R191: a command that ends MISSED has no effect: its channel ends HALTED with MISSED and the cause, the cause is counted, what it held
returns, and memory, units and cells stay. Here the channel posts no records. -/
def Obligations.TimedCommandsStageOrAreMissed : Prop :=
  (
  (∀ (t : Time) (s : State) (now : Nat) (z : Sched), s.up = true → now = cyc (max s.now t) → z = { s.sched with grantAt := some now } →
    (s.sched.grantAt = some now ∨ 8192 ≤ s.sched.used + (if s.sched.freshAt = now then s.sched.fresh else 0) →
      exec (.schedEntryGrant t) s = .next (s.arrive t)) ∧
    (s.sched.grantAt ≠ some now → s.sched.used + (if s.sched.freshAt = now then s.sched.fresh else 0) < 8192 →
      (∀ c r d x, s.sched.waitCmd = .cmd c :: r → (s.chan c).timed = some d → (s.arrive t).predictDue c = some x →
        (max s.now t + 8 * d.commit ≤ x → ∃ u, exec (.schedEntryGrant t) s = .next u ∧ u.sched = { z with
          used := s.sched.used + 1, peak := max s.sched.peak (s.sched.used + 1), waitCmd := r } ∧
          u.chan c = { s.chan c with due := x, timed := some { d with entry := true, due := some x } } ∧ OnlyChan c s u) ∧
        (x < max s.now t + 8 * d.commit → exec (.schedEntryGrant t) s = .next
          ({ s.arrive t with sched := { z with waitCmd := r } }.miss c 4 []))) ∧
      (∀ c r d, s.sched.waitCmd = .pat c :: r → (s.chan c).timed = some d → ∃ u, exec (.schedEntryGrant t) s = .next u ∧ u.sched = { z with
          used := s.sched.used + 1, peak := max s.sched.peak (s.sched.used + 1), waitCmd := r } ∧
        u.chan c = { s.chan c with timed := some { d with patHeld := d.patHeld + 1 } } ∧ OnlyChan c s u) ∧
      (∀ k r, s.sched.waitCmd = [] → s.sched.waitCmp = .cmp k :: r → ∃ u, exec (.schedEntryGrant t) s = .next u ∧ u.sched = { z with
          used := s.sched.used + 1, peak := max s.sched.peak (s.sched.used + 1), waitCmp := r } ∧
        (u.cmp k).entry = true ∧ (u.cmp k).armed = (s.cmp k).armed ∧ ∀ j, j ≠ k → u.cmp j = s.cmp j))) ∧
  (∀ (t : Time) (m : Ident) (v : Word) (s : State), s.serves (schedOfs + 0x0C) = true → exec (.schedPeakClr t m v) s = .next
    (if bit v 0 then { s.arrive t with sched := { s.sched with peak := s.sched.used } } else s.arrive t)) ∧
  (∀ (t : Time) (c : Fin 4096) (s : State) (h : Chan) (d : Timed) (x : Time), h = s.chan c → s.up = true → h.timed = some d →
    h.st = .waiting → h.act = .sched → d.entry = true → d.staging = false → d.due = some x →
    exec (.stagingBegin t c) s = .next (if x ≤ max s.now t + max (8000 * d.lead) (8 * d.commit + 8000) then
      ((s.arrive t).setChan c { h with st := .staged, timed := some { d with staging := true } }).stagePump c else s.arrive t)) ∧
  (∀ (t : Time) (c : Fin 4096) (s : State) (d : Timed) (x : Time), s.up = true → (s.chan c).timed = some d → d.limit = some x →
    exec (.limitExpiry t c) s = .next (if d.committed = none ∧ x ≤ max s.now t then (s.arrive t).miss c 1 [] else s.arrive t))) ∧
  (
  ∀ (s : State) (c k : Nat) (bits : List Nat), k < 16 → (s.chan c).eq = none → (s.chan c).clearing = false →
    ((s.miss c k bits).chan c).st = .halted ∧ ((s.miss c k bits).chan c).status.getLsbD 5 = true ∧
    ((s.miss c k bits).chan c).missCause.toNat = k ∧ ((s.miss c k bits).chan c).timed = none ∧
    tget 0 (s.miss c k bits).sched.missCnt k = tget 0 s.sched.missCnt k + 1 ∧ (s.miss c k bits).mem = s.mem ∧
    (∀ u, ((s.miss c k bits).ou u).drive = (s.ou u).drive ∧ ((s.miss c k bits).ou u).holder ≠ some c) ∧
    (s.miss c k bits).outs.pins = s.outs.pins ∧ (s.miss c k bits).out = s.out ∧ OnlyChan c s (s.miss c k bits) ∧ Quiet s (s.miss c k bits))

/-- R189, R191, R192, R551: COMMIT before the due time a staged command commits, its due time predicted there is kept, and a command that is not
fully staged ends MISSED with the lowest cause. R195: a position edge commits likewise. R193: 16 ns before its due time a committed command is
locked. R176, R178: from the locked due time on, edges and samples of an output unit on the 125 ps grid and all else from the first CLK_E cycle at or
after it, the command takes effect: LEVEL, PULSE and PATTERN place their first edge at that instant, CONTROL, MARK and ARM act as untimed ones do, a
WRITE enters its unit, MOVE, FILL and COMPARE run on the held mover, WAIT of kind POSITION and NOP complete. -/
def Obligations.TimedCommandsCommitLockAndTakeEffect : Prop :=
  (∀ (t : Time) (c : Fin 4096) (s : State) (h : Chan) (d : Timed) (x : Time), h = s.chan c → s.up = true → h.timed = some d → d.due = some x →
    d.staging = true → d.committed = none →
    (x ≤ max s.now t + 8 * d.commit → (s.arrive t).missCauses c d = [] → exec (.commit t c) s = .next
      ((s.arrive t).setChan c { h with committed := true, timed := some { d with committed := some x } })) ∧
    (∀ k r, x ≤ max s.now t + 8 * d.commit → (s.arrive t).missCauses c d = k :: r → exec (.commit t c) s = .next
      ((s.arrive t).miss c k (if k = 9 ∧ (s.arrive t).stageCheck c = true then [11] else []))) ∧
    (max s.now t + 8 * d.commit < x → exec (.commit t c) s = .next (s.arrive t))) ∧
  (∀ (t : Time) (c : Fin 4096) (s s1 : State) (d d' : Timed) (x : Time), s.up = true → (s.chan c).timed = some d → d.due = some x →
    d.staging = false → d.committed = none → x ≤ max s.now t + 8 * d.commit → s1 = (s.arrive t).stageBegin c → (s1.chan c).timed = some d' →
    (s1.missCauses c d' = [] → exec (.commit t c) s = .next
      (s1.setChan c { s1.chan c with committed := true, timed := some { d' with committed := some x } })) ∧
    (∀ k r, s1.missCauses c d' = k :: r → exec (.commit t c) s = .next (s1.miss c k (s1.missBits c k)))) ∧
  (∀ (s : State) (c : Nat) (d : Timed), s.missCauses c d = [] ↔ d.limitOver s.now = false ∧ d.patNeed = d.patHeld ∧ s.stageWants c = false ∧
    s.slotOk c = true ∧ s.stageUnit c = true ∧ s.stageCheck c = false ∧ s.staged c = true) ∧
  (∀ h : Chan, (h.cur.op = 0x30 ∨ h.cur.op = 0x04 ∧ unitClass h.cur.unit = .out → h.effectAt = h.due) ∧
    (h.cur.op ≠ 0x30 → (h.cur.op ≠ 0x04 ∨ unitClass h.cur.unit ≠ .out) → h.effectAt % 8 = 0 ∧ h.due ≤ h.effectAt ∧ h.effectAt < h.due + 8)) ∧
  (∀ (t : Time) (u : Fin 128) (s : State) (p : PatEntry) (r : List PatEntry) (x : Time) (c : Nat) (d : Timed), s.up = true →
    (s.ou u).pat = p :: r → p.pos = true → (s.ou u).posDue = some x → (s.ou u).holder = some c → (s.chan c).timed = some d →
    exec (.patternEdgeCommit t u) s = .next (if (s.ou u).posCommitted = none ∧ x ≤ max s.now t + 8 * d.commit then
      (s.arrive t).setOu u { s.ou u with posCommitted := some x } else s.arrive t)) ∧
  (∀ (t : Time) (c : Fin 4096) (s : State) (h : Chan) (d : Timed) (x : Time), h = s.chan c → s.up = true → h.timed = some d →
    d.committed = some x → h.act = .sched → d.locked = false → exec (.placementLock t c) s = .next
      (if h.due ≤ max s.now t + 128 then (s.arrive t).setChan c { h with timed := some { d with locked := true } } else s.arrive t)) ∧
  (∀ (t : Time) (c : Fin 4096) (s s1 : State) (h : Chan) (d : Timed) (x : Time), h = s.chan c → s.up = true → h.timed = some d →
    d.committed = some x → h.act = .sched → h.effectAt ≤ max s.now t →
    s1 = (s.arrive t).setChan c { h with st := h.st.going, act := .ready, timed := some { d with locked := true } } →
    exec (.effect t c) s = .next (s1.effectDo c d) ∧
    (isWait 1 h.cur = true → exec (.waitPosition t c) s = .next (s1.complete c)) ∧
    (h.cur.op = 0x30 → s1.effectDo c d = s1.signalFire c h.due ((patEntries d.buf).map (·.1))) ∧
    (h.cur.op = 0x03 → s1.effectDo c d = s1.controlDo c) ∧ (h.cur.op = 0x31 → s1.effectDo c d = s1.armDo c) ∧
    (h.cur.op = 0x40 → s1.effectDo c d = s1.markDo c) ∧ (h.cur.op = 0x7F → s1.effectDo c d = s1.complete c) ∧
    (h.cur.op = 0x02 → s1.effectDo c d = (s1.writeUnit c d.buf true).complete c) ∧
    (h.cur.op = 0x05 → s1.effectDo c d = s1.runHeld c
      { chan := c, len := h.cur.count, unit := d.buf, wr := some (mkSide h.spanB h.cur.count), retry := h.retryN }) ∧
    (h.cur.op = 0x06 ∨ h.cur.op = 0x07 → s1.effectDo c d = (s1.form c true).2.runHeld c (s1.form c true).1)) ∧
  (∀ (t : Time) (c : Fin 4096) (s : State), s.up = true → (∀ d, (s.chan c).timed = some d → d.committed = none ∨ max s.now t < (s.chan c).effectAt) →
    exec (.effect t c) s = .next (s.arrive t))

/-! ## Requests to channels (07_requests_status.md) -/

/-- R243, R247 to R250: a request is judged in order: from queue 0, or with a value its entry may not carry, it is INVALID_FIELD; from a queue the
channel is not bound to, NOT_PERMITTED; a START without domain or event queue finds NO_OBJECT; START and RESUME in the safe state are NOT_PERMITTED;
then the channel's state decides. A request that is not accepted changes nothing but the status of the latest request. -/
def Obligations.RequestsAreJudgedInOrder : Prop :=
  (∀ (s : State) (q c : Nat) (r : Request) (h : Chan), h = s.chan c →
    (q = 0 ∨ r.invalid = true → s.judgeReq q c r = 2) ∧
    (q ≠ 0 → r.invalid = false → h.wq ≠ some q → s.judgeReq q c r = 4) ∧
    (q ≠ 0 → r.invalid = false → h.wq = some q →
      (∀ phy a, r = .start phy a → (h.domSet = false ∨ h.eq = none) → s.judgeReq q c r = 3) ∧
      ((r.isStart = false ∨ h.domSet = true ∧ h.eq ≠ none) →
        (r.isStart = true ∨ r.isResume = true → s.fc.safe = true → s.judgeReq q c r = 4) ∧
        (s.fc.safe = false ∨ r.isStart = false ∧ r.isResume = false →
          (∀ phy a, r = .start phy a → s.judgeReq q c r = if h.st = .haltPending ∨ h.suspReq = true then 1
            else if h.st = .idle ∨ h.st = .halted then 0 else 11) ∧
          (r = .halt ∨ r = .clear → s.judgeReq q c r = if h.st = .haltPending then 1 else 0) ∧
          (r = .suspend → s.judgeReq q c r = if h.st = .haltPending then 1
            else if h.st = .idle ∨ h.st = .halted ∨ h.st = .faulted then 11 else 0) ∧
          (r = .resume → s.judgeReq q c r = if h.st = .haltPending ∨ h.suspReq = true then 1
            else if h.st = .suspended then 0
            else if h.st = .faulted then (if h.status.getLsbD 12 then 4 else 0) else 11) ∧
          (∀ phy a mask cond, r = .modify phy a mask cond → s.judgeReq q c r = if h.st = .haltPending ∨ h.suspReq = true then 1
            else if h.st = .idle ∨ h.st = .halted ∨ h.st = .suspended ∨ h.st = .faulted then 0 else 11) ∧
          (∀ phy a, r = .store phy a → s.judgeReq q c r = 0))))) ∧
  (∀ (t : Time) (q : Fin 1024) (c : Fin 4096) (s : State) (i : Instr) (r : Request), s.up = true →
    (i = .halt t q c ∧ r = .halt ∨ i = .suspend t q c ∧ r = .suspend ∨ i = .resume t q c ∧ r = .resume ∨ i = .clear t q c ∧ r = .clear ∨
      (∃ phy a, i = .start t q c phy a ∧ r = .start phy a) ∨ (∃ phy a, i = .storeStatus t q c phy a ∧ r = .store phy a) ∨
      ∃ phy a mask cond, i = .modify t q c phy a mask cond ∧ r = .modify phy a mask cond) →
    s.judgeReq q c r ≠ 0 →
    exec i s = .next { s.arrive t with queues := { s.queues with last := BitVec.ofNat 16 (s.judgeReq q c r) } })

/-- R243 to R250, R253, R258, R318, R321: an accepted START leaves START_PENDING at its address with the fields START clears clear; HALT drains a
channel: HALT_PENDING, its uncommitted command given up; SUSPEND suspends a channel that waits at once and any other at its completion; RESUME makes
a SUSPENDED channel ACTIVE; CLEAR of an ended channel clears its context; MODIFY writes what its mask names; STORE-STATUS writes the 64 bytes of the
context; a drain ends in HALTED with ABORTED, unless a bus error of the HALT's own
cycle has ended the program (R235). No other channel changes. -/
def Obligations.AcceptedRequestsActOnTheirChannel : Prop :=
  ∀ (t : Time) (q : Fin 1024) (c : Fin 4096) (s : State) (h : Chan), h = s.chan c → s.up = true →
    (∀ phy a, s.judgeReq q c (.start phy a) = 0 → ∃ u, exec (.start t q c phy a) s = .next u ∧ u.queues.last = 0 ∧
      (u.chan c).st = .startPending ∧ (u.chan c).cca = a ∧ (u.chan c).phy = phy ∧ (u.chan c).status = 0 ∧ (u.chan c).cond = false ∧
      (u.chan c).condValid = false ∧ (u.chan c).resid = 0 ∧ (u.chan c).result = 0 ∧ (u.chan c).missCause = 0 ∧ (u.chan c).act = .fetch ∧
      (u.chan c).starts = h.starts + 1 ∧ (u.chan c).domain = h.domain ∧ (u.chan c).eq = h.eq ∧ (u.chan c).wq = h.wq ∧
      (u.chan c).recs = h.recs ∧ OnlyChan c s u) ∧
    (s.judgeReq q c .halt = 0 → (h.st = .idle ∨ h.st = .halted) → exec (.halt t q c) s = .next
      { s.arrive t with queues := { s.queues with last := 0 } }) ∧
    (s.judgeReq q c .halt = 0 → h.st ≠ .idle → h.st ≠ .halted → ∃ u, exec (.halt t q c) s = .next u ∧ u.queues.last = 0 ∧
      (u.chan c).st = .haltPending ∧ (h.runsOn = true → (u.chan c).act = h.act ∧ (u.chan c).timed = h.timed) ∧
      (h.runsOn = false → (u.chan c).act = .fetch ∧ (u.chan c).timed = none ∧ (u.chan c).ahead = []) ∧ OnlyChan c s u) ∧
    (s.judgeReq q c .suspend = 0 → (h.st = .active ∨ h.st = .startPending ∨ h.st = .postPending) → exec (.suspend t q c) s = .next
      { (s.arrive t).setChan c { h with suspReq := true } with queues := { s.queues with last := 0 } }) ∧
    (s.judgeReq q c .suspend = 0 → (h.st = .waiting ∨ h.st = .staged) → h.committedNow = false →
      ∃ u, exec (.suspend t q c) s = .next u ∧ u.queues.last = 0 ∧ (u.chan c).st = .suspended ∧ (u.chan c).suspReq = false ∧
        (u.chan c).timed = none ∧ (u.chan c).cca = h.cca ∧ ((∀ d, h.timed = some d → d.data = false) → (u.chan c).resid = h.resid) ∧
        OnlyChan c s u) ∧
    (s.judgeReq q c .resume = 0 → h.st = .suspended → exec (.resume t q c) s = .next
      { (s.arrive t).setChan c { h with st := .active } with queues := { s.queues with last := 0 } }) ∧
    (s.judgeReq q c .resume = 0 → h.st = .faulted → exec (.resume t q c) s = .next (State.note (some 0,
      if h.act = .move then (if s.invCovers h.domain h.faultVa then (s.arrive t).setChan c { h with st := .active, act := .inval }
        else ((s.arrive t).setChan c { h with st := .active }).pump c)
      else (s.arrive t).setChan c { h with st := .active }))) ∧
    (s.judgeReq q c .clear = 0 → (h.st = .suspended ∨ h.st = .faulted) → exec (.clear t q c) s = .next (State.note (some 0,
      ((s.arrive t).setChan c { h with status := h.status ||| 0x400, clearing := true, park := none }).endProgram c .idle false))) ∧
    (s.judgeReq q c .clear = 0 → (h.st = .idle ∨ h.st = .halted) → ∃ u, exec (.clear t q c) s = .next u ∧ u.queues.last = 0 ∧
      (u.chan c).st = .idle ∧ (u.chan c).cca = 0 ∧ (u.chan c).status = 0 ∧ (u.chan c).result = 0 ∧ (u.chan c).cond = false ∧
      (u.chan c).eq = h.eq ∧ (u.chan c).wq = h.wq ∧ (u.chan c).domain = h.domain ∧ OnlyChan c s u) ∧
    (∀ phy a (mask : BitVec 3) cond, s.judgeReq q c (.modify phy a mask cond) = 0 → ∃ u, exec (.modify t q c phy a mask cond) s = .next u ∧
      u.queues.last = 0 ∧ (u.chan c).st = h.st ∧
      (mask.getLsbD 0 = true → (u.chan c).cca = a ∧ (u.chan c).phy = phy) ∧ (mask.getLsbD 0 = false → (u.chan c).cca = h.cca) ∧
      (mask.getLsbD 1 = true → (u.chan c).cond = cond ∧ (u.chan c).condValid = true) ∧ (mask.getLsbD 1 = false → (u.chan c).cond = h.cond) ∧
      (mask.getLsbD 2 = true → (u.chan c).status &&& 0x2280 = 0) ∧
      (mask.getLsbD 2 = false → mask.getLsbD 0 = false → (u.chan c).status = h.status) ∧ OnlyChan c s u) ∧
    (∀ a, s.judgeReq q c (.store true a) = 0 → ∃ u, exec (.storeStatus t q c true a) s = .next u ∧ u.chans = s.chans ∧
      (a + 64 ≤ 0x2000000 → u.queues.last = 0 ∧ ∀ x, tget 0 u.mem.sram x =
        if a ≤ x ∧ x < a + 64 then h.contextBytes.getD (x - a) 0 else tget 0 s.mem.sram x) ∧
      (0x2000000 < a + 64 → u.queues.last = 6 ∧ u.mem = s.mem)) ∧
    (s.drained c = true → h.eq = none → h.clearing = false → ∃ u, exec (.drainComplete t c) s = .next u ∧ (u.chan c).st = .halted ∧
      (h.noAbort = false ∨ h.status.getLsbD 4 = false → (u.chan c).status = h.status ||| 0x400) ∧
      (h.noAbort = true → h.status.getLsbD 4 = true → (u.chan c).status = h.status) ∧ (u.chan c).cca = h.cca ∧ OnlyChan c s u) ∧
    (s.drained c = false → exec (.drainComplete t c) s = .next (s.arrive t))

/-! ## Queues (08_queues.md) -/

/-- R264, R275, R291: a doorbell of an ENABLED work queue by its owner asks for a read of PI, or for one more where a read is outstanding; a doorbell
or push by another identity sets FOREIGN. R276, R277: a push writes its bytes to the slot; byte 63 makes a copy of it, or counts as missed where four
copies wait. R264: a doorbell of an ENABLED event queue asks for a read of CI, its ARM kept; ARM of coalesced doorbells is their OR.

R264, R265: the value of PI read from a work queue's ring is taken, unless it lies more than the ring ahead of CI or behind the PI held, which
puts the queue into ERROR by LAP and reports source 133. R282: the value of CI read from an event queue's ring returns its credits, likewise; with
ARM the queue notifies at once where records wait and is armed where none does. -/
def Obligations.DoorbellsLeadToIndexReads : Prop :=
  (
  ∀ (t : Time) (m : Ident) (q : Fin 1024) (s : State) (w : WQ), w = s.wq q → s.serves 0 = true →
    (w.st = .enabled → w.owner = m → exec (.wqDoorbell t m q) s = .next ((s.arrive t).setWq q
      (if w.piRead then { w with piAgain := true } else { w with piRead := true }))) ∧
    (∀ i, (i = Instr.wqDoorbell t m q ∨ ∃ ofs b, i = Instr.pushSlotWrite t m q ofs b) →
      (w.st ≠ .absent → w.owner ≠ m → exec i s = .next ((s.arrive t).setWq q { w with foreign := true })) ∧
      (w.st = .absent → exec i s = .next (s.arrive t))) ∧
    (∀ ofs (b : List Byte), w.st = .enabled → w.owner = m →
      (ofs + b.length ≤ 63 → exec (.pushSlotWrite t m q ofs b) s = .next ((s.arrive t).setWq q { w with push := putBytes w.push ofs b })) ∧
      (ofs ≤ 63 → 63 < ofs + b.length → exec (.pushSlotWrite t m q ofs b) s = .next ((s.arrive t).setWq q
        (if w.copies.length < 4 then
          { w with push := [], copies := w.copies ++ [(cyc (max s.now t), (List.range 64).map fun i => tget 0 (putBytes w.push ofs b) i)] }
         else { w with push := [], missed := w.missed + 1 })))) ∧
    (∀ arm, (s.eq q).st = .enabled → exec (.eqDoorbell t m q arm) s = .next ((s.arrive t).setEq q
      (match (s.eq q).ciRead with
       | none => { s.eq q with ciRead := some arm }
       | some _ => { s.eq q with ciAgain := some ((s.eq q).ciAgain.getD false || arm) })))) ∧
  (
  (∀ (t : Time) (q : Fin 1024) (hm : HostMem) (s s1 : State) (b : List Byte), s.up = true → (s.wq q).ciOwed = false → (s.wq q).piRead = true →
    ((s.wq q).st = .enabled ∨ (s.wq q).st = .disabling) → (s.arrive t).wqRead q (s.wq q).base 4 hm = (.bytes b, s1) →
    exec (.wqPiReadComplete t q hm) s = .next (s1.takePi q (BitVec.ofNat 32 (num b 0 4)))) ∧
  (∀ (s : State) (q : Nat) (p : Word) (w : WQ), w = s.wq q →
    ((p - w.ci).toNat ≤ 2 ^ w.size → (w.pi - w.ci).toNat ≤ (p - w.ci).toNat → ∃ x, s.takePi q p = x ∧ (x.wq q).pi = p ∧
      (x.wq q).st = w.st ∧ (x.wq q).piRead = w.piAgain ∧ (x.wq q).ci = w.ci ∧ x.fc = s.fc ∧ ∀ j, j ≠ q → x.wq j = s.wq j) ∧
    ((2 ^ w.size < (p - w.ci).toNat ∨ (p - w.ci).toNat < (w.pi - w.ci).toNat) → ∃ x, s.takePi q p = x ∧ (x.wq q).st = .error ∧
      (x.wq q).cause = 1 ∧ (x.wq q).pi = w.pi ∧ x.fc.raised.getLsbD 133 = true)) ∧
  (∀ (t : Time) (q : Fin 1024) (hm : HostMem) (s s1 : State) (b : List Byte) (arm : Bool), s.up = true → (s.eq q).ciRead = some arm →
    (s.eq q).st = .enabled → (s.arrive t).eqRead q ((s.eq q).base + 0x40) 4 hm = (.bytes b, s1) →
    exec (.eqCiReadComplete t q hm) s = .next (s1.takeCi q (BitVec.ofNat 32 (num b 0 4)) arm)) ∧
  (∀ (s : State) (q : Nat) (c : Word) (arm : Bool) (e : EQ), e = s.eq q →
    ((c - e.ci).toNat ≤ (e.pi - e.ci).toNat → ∃ x, s.takeCi q c arm = x ∧ (x.eq q).ci = c ∧ (x.eq q).st = e.st ∧
      (arm = true → (x.eq q).armed = decide (e.pi = c) ∧ (e.notify = 1 → e.pi ≠ c → (x.vec e.vec).pend = true)) ∧
      (arm = false → (x.eq q).armed = e.armed ∧ x.irq = s.irq) ∧ ∀ j, j ≠ q → x.eq j = s.eq j) ∧
    ((e.pi - e.ci).toNat < (c - e.ci).toNat → ∃ x, s.takeCi q c arm = x ∧ (x.eq q).st = .error ∧ (x.eq q).cause = 1 ∧ (x.eq q).ci = e.ci ∧
      x.fc.raised.getLsbD 133 = true)) ∧
  (∀ (t : Time) (q : Fin 1024) (hm : HostMem) (s : State), s.up = true → (s.eq q).ciRead = none →
    exec (.eqCiReadComplete t q hm) s = .next (s.arrive t)))

/-- R285 to R289, R294: an admin command with a field it may not carry is INVALID_FIELD, and on a queue in the wrong state NO_OBJECT, BUSY,
WRONG_STATE or QUEUE_ERROR. CREATE makes the queue ENABLED with its ring, and writes its index 0; DISABLE_WQ reads PI once more and then, once every
entry below it has been served, leaves the queue DISABLED, the copies it still holds counted as missed; ENABLE_WQ enables it again; DESTROY unbinds a work queue's channels and makes the queue
ABSENT; BIND and SET_PRIO write the channel. Rings here lie in SRAM. -/
def Obligations.AdminCommandsActOnTheirObject : Prop :=
  ∀ (t : Time) (s : State) (fin : Nat → State → State), s.up = true →
    (∀ n x, fin n x = { x with queues := { x.queues with last := BitVec.ofNat 16 n } }) →
    (∀ (q : Fin 1024) (base size : Nat) (d : Fin 256) (o : Ident), q.val ≠ 0 → ringOk true base size 64 = true →
      o ∈ ([0x01, 0x10, 0x11, 0x12, 0x13] : List Ident) → (s.wq q).st = .absent → ∃ u, exec (.createWq t q true base size d o) s = .next u ∧
        u.queues.last = 0 ∧ (u.wq q).st = .enabled ∧ (u.wq q).owner = o ∧ (u.wq q).base = base ∧ (u.wq q).size = size ∧ (u.wq q).dom = d ∧
        (u.wq q).pi = 0 ∧ (u.wq q).ci = 0 ∧ (∀ a, tget 0 u.mem.sram a = if base + 0x40 ≤ a ∧ a < base + 0x44 then 0 else tget 0 s.mem.sram a) ∧
        ∀ j, j ≠ q.val → u.wq j = s.wq j) ∧
    (∀ (q : Fin 1024) (base size : Nat) (d : Fin 256) (n : BitVec 2) (v : Nat), ringOk true base size 32 = true → n.toNat ≤ 2 → v ≤ 2047 →
      (s.eq q).st = .absent → ∃ u, exec (.createEq t q true base size d n v) s = .next u ∧ u.queues.last = 0 ∧
        u.eq q = { st := .enabled, armed := true, size := size, notify := n, vec := v, base := base, dom := d, phy := true } ∧
        (∀ a, tget 0 u.mem.sram a = if base ≤ a ∧ a < base + 4 then 0 else tget 0 s.mem.sram a) ∧ ∀ j, j ≠ q.val → u.eq j = s.eq j) ∧
    (∀ q : Fin 1024, q.val ≠ 0 →
      ((s.wq q).st = .enabled → exec (.disableWq t q) s = .next (fin 0 ((s.arrive t).setWq q
        { (s.wq q).ring with st := .disabling, finalPi := none, toAbsent := false }))) ∧
      ((s.wq q).st = .disabled → exec (.enableWq t q) s = .next (fin 0 ((s.arrive t).setWq q { (s.wq q).ring with st := .enabled, finalPi := none }))) ∧
      (((s.wq q).st = .disabled ∨ (s.wq q).st = .error) → ∃ u, exec (.destroyWq t q) s = .next u ∧ u.queues.last = 0 ∧
        (u.wq q).st = .absent ∧ (u.wq q).used = (s.wq q).used ∧ (∀ c, (s.chan c).wq = some q.val → (u.chan c).wq = none) ∧
        ∀ c, (s.chan c).wq ≠ some q.val → u.chan c = s.chan c) ∧
      (∀ i n, (i = Instr.destroyWq t q ∧ n = (if (s.wq q).st = .absent then 3 else if (s.wq q).st = .disabling then 1 else 11) ∧
            (s.wq q).st ≠ .disabled ∧ (s.wq q).st ≠ .error ∨
          i = Instr.enableWq t q ∧ n = (if (s.wq q).st = .absent then 3 else if (s.wq q).st = .disabling then 1 else 5) ∧
            (s.wq q).st ≠ .disabled ∧ (s.wq q).st ≠ .enabled ∨
          i = Instr.disableWq t q ∧ n = (if (s.wq q).st = .absent then 3 else if (s.wq q).st = .disabling then 1 else 5) ∧
            (s.wq q).st ≠ .disabled ∧ (s.wq q).st ≠ .enabled) → exec i s = .next (fin n (s.arrive t)))) ∧
    (∀ q : Fin 1024, (s.wq q).st = .disabling → (s.wq q).toAbsent = false → exec (.disableComplete t q) s = .next
      (if (s.wq q).finalPi = some (s.wq q).ci then
        (s.arrive t).setWq q { s.wq q with st := .disabled, copies := [], push := [], finalPi := none,
                                           missed := (s.wq q).missed + BitVec.ofNat 16 (s.wq q).copies.length } else s.arrive t)) ∧
    (∀ q : Fin 1024, ((s.eq q).st = .absent → exec (.destroyEq t q) s = .next (fin 3 (s.arrive t))) ∧
      ((s.eq q).st ≠ .absent → (s.chans.any fun p => p.2.eq = some q.val) = true → exec (.destroyEq t q) s = .next (fin 11 (s.arrive t))) ∧
      ((s.eq q).st ≠ .absent → (s.chans.any fun p => p.2.eq = some q.val) = false → exec (.destroyEq t q) s = .next
        (fin 0 (((((s.eq q).writing ++ (s.eq q).waiters).foldl State.dropHeld (s.arrive t)).forget (.eq q)).setEq q {})))) ∧
    (∀ (c : Fin 4096) (w e : Fin 1024) (d : Fin 256), (s.chan c).st = .idle ∨ (s.chan c).st = .halted →
      (s.wq w).st ≠ .absent → (s.wq w).st ≠ .error → (s.eq e).st ≠ .absent → (s.eq e).st ≠ .error →
      (∀ o, (s.chan c).eq = some o → (s.eq o).st ≠ .error) →
      exec (.bind t c (.set w) (.set e) (some d)) s = .next (fin 0 ((s.arrive t).setChan c
        { s.chan c with wq := some w.val, eq := some e.val, domain := d.val, domSet := true }))) ∧
    (∀ (c : Fin 4096) (w e : Fin 1024) (d : Fin 256), ((s.wq w).st = .absent ∨ (s.eq e).st = .absent) →
      exec (.bind t c (.set w) (.set e) (some d)) s = .next (fin 3 (s.arrive t))) ∧
    (∀ (c : Fin 4096) (k : BitVec 2), exec (.setPrio t c k) s = .next (fin 0 ((s.arrive t).setChan c { s.chan c with prio := k })))

/-- R270, R272, R278: a work queue serves the entry at CI: it takes it from a copy of an earlier cycle whose index matches, else from its slot,
performs it, writes the completion over its slot and then CI + 1. R280, R281: a record takes a credit where one is free and no other was admitted in
the cycle, is written at PI, which follows, and an armed queue notifies and is disarmed; a record that is not admitted waits behind those of earlier
cycles that wait already. R251: the first waiting record is admitted likewise and written, and a channel whose last record it was goes on.
R285, R299: a write of ADMIN_CFG EN 1 while queue 0 is ABSENT creates it; EN 0 disables it; a change of an existing queue's fields is refused. -/
def Obligations.EntriesAndRecordsPassThroughTheirRings : Prop :=
  (∀ (t : Time) (q : Fin 1024) (hm : HostMem) (s s1 s2 : State) (w : WQ), w = s.wq q → s.up = true → w.ciOwed = false →
    ((w.st = .enabled ∨ w.st = .disabling) → w.ci ≠ w.pi →
      s1 = (if w.entry.isSome || w.owed.isSome || w.ciNext then s.arrive t else (s.arrive t).entryTake q hm) →
      s2 = (match (s1.wq q).entry with | some e => s1.entryPerform q e | none => s1) →
      exec (.entryServe t q hm) s = .next ((s2.entryComplete q).entryEnd q)) ∧
    ((w.st ≠ .enabled ∧ w.st ≠ .disabling ∨ w.ci = w.pi) → exec (.entryServe t q hm) s = .next (s.arrive t))) ∧
  (∀ (s s1 : State) (q slot : Nat) (hm : HostMem) (w : WQ) (e : List Byte), w = s.wq q → slot = w.base + 0x80 + w.ci.toNat % 2 ^ w.size * 64 →
    ((w.copies = [] ∨ w.compared = true ∨ (∃ k b r, w.copies = (k, b) :: r ∧ cyc s.now ≤ k)) → (s.setWq q { w with compared := true }).wqRead q slot 64 hm = (.bytes e, s1) →
      s.entryTake q hm = s1.setWq q { s1.wq q with entry := some e }) ∧
    (∀ k b r, w.compared = false → w.copies = (k, b) :: r → k < cyc s.now →
      (num b 4 4 = w.ci.toNat → s.entryTake q hm = s.setWq q { w with copies := r, used := w.used + 1, entry := some b }) ∧
      (num b 4 4 ≠ w.ci.toNat →
        (s.setWq q { w with copies := r, missed := w.missed + 1, compared := true }).wqRead q slot 64 hm = (.bytes e, s1) →
        s.entryTake q hm = s1.setWq q { s1.wq q with entry := some e })) ∧
    (∀ v st, s.perform q e = (some (v, st), s1) → s.entryPerform q e = s1.setWq q { s1.wq q with
      entry := none, owed := some (completion e w.ci v st) }) ∧
    (∀ b, w.owed = some b → s.wqWrite q slot b = (true, s1) → s.entryComplete q = s1.setWq q { s1.wq q with owed := none, ciNext := true }) ∧
    (w.ciNext = true → s.wqWrite q (w.base + 0x40) (leBytes 4 (w.ci + 1).toNat) = (true, s1) →
      s.entryEnd q = s1.setWq q { s1.wq q with ci := w.ci + 1, ciNext := false, compared := false })) ∧
  (∀ (s : State) (q : Nat) (p : Poster) (rec : List Byte) (e : EQ), e = s.eq q →
    ((e.waiters ≠ [] ∨ e.st ≠ .enabled ∨ 2 ^ e.size ≤ (e.res - e.ci).toNat ∨ e.admitAt = some (cyc s.now)) →
      s.eqPost q p rec = (false, s.setEq q (e.hold p (cyc s.now)))) ∧
    (e.waiters = [] → e.st = .enabled → e.phy = true → (e.res - e.ci).toNat < 2 ^ e.size → e.admitAt ≠ some (cyc s.now) → e.writing = [] →
      ∃ u, s.eqPost q p rec = (true, u) ∧ (u.eq q).res = e.res + 1 ∧ (u.eq q).pi = e.pi + 1 ∧
      (u.eq q).armed = false ∧ (e.armed = true → e.notify = 1 → (u.vec e.vec).pend = true) ∧
      (rec.length = 32 → ∀ a, tget 0 u.mem.sram a =
        if e.base ≤ a ∧ a < e.base + 4 then (leBytes 4 (e.pi + 1).toNat).getD (a - e.base) 0
        else if e.base + 0x80 + e.pi.toNat % 2 ^ e.size * 32 ≤ a ∧ a < e.base + 0x80 + e.pi.toNat % 2 ^ e.size * 32 + 32 then
          rec.getD (a - (e.base + 0x80 + e.pi.toNat % 2 ^ e.size * 32)) 0
        else tget 0 s.mem.sram a)) ∧
    (e.waiters.contains p = true → e.hold p (cyc s.now) = e) ∧
    (e.waiters.contains p = false → e.waitAt ≠ cyc s.now → (e.hold p (cyc s.now)).waiters = e.waiters ++ [p])) ∧
  (∀ (t : Time) (q : Fin 1024) (s : State), s.up = true → exec (.heldRecordPost t q) s = .next (((s.arrive t).heldAdmit q).heldWrite q)) ∧
  (∀ (s s1 s2 : State) (q : Nat) (e : EQ) (p : Poster) (r : List Poster), e = s.eq q →
    (e.waiters = p :: r → e.st = .enabled → (e.res - e.ci).toNat < 2 ^ e.size → e.admitAt ≠ some (cyc s.now) →
      (s.heldAdmit q).eq q = { e with res := e.res + 1, admitAt := some (cyc s.now), waiters := r, writing := e.writing ++ [p] } ∧
      ∀ j, j ≠ q → (s.heldAdmit q).eq j = s.eq j) ∧
    (e.waiters = [] ∨ e.st ≠ .enabled ∨ 2 ^ e.size ≤ (e.res - e.ci).toNat ∨ e.admitAt = some (cyc s.now) → s.heldAdmit q = s) ∧
    (e.writing = [] → s.heldWrite q = s) ∧
    (∀ c x l, e.writing = .chan c :: r → (s.chan c).held = x :: l → x.bytes ≠ [] → s.eqCommit q x.bytes = (.done, s1) →
      (s1.chan c).held = x :: l → s2 = (s1.setEq q { s1.eq q with writing := (s1.eq q).writing.drop 1 }).setChan c
        { s1.chan c with recs := (s1.chan c).recs + 1, held := l } →
      (l ≠ [] → s.heldWrite q = s2.setEq q { s2.eq q with waiters := .chan c :: (s2.eq q).waiters }) ∧
      (l = [] → s.heldWrite q = s2.settle c)) ∧
    (∀ k x, e.writing = .cmp k :: r → (s.cmp k).pend = some x → s.eqCommit q (x.bytes k false) = (.done, s1) →
      s2 = s1.setEq q { s1.eq q with writing := (s1.eq q).writing.drop 1 } →
      s.heldWrite q = s2.setCmp k { s2.cmp k with pend := none })) ∧
  (∀ (t : Time) (m : Ident) (v w : Word) (s : State), s.serves (queueOfs + 8) = true → w = adminClamp v →
    (bit w 0 = true → bit w 1 = true → (s.wq 0).st = .absent →
      s.queues.baseHi.toNat * 2 ^ 32 + s.queues.baseLo.toNat + 0x80 + 64 * 2 ^ fld w 2 5 ≤ 0x2000000 →
      ∃ u, exec (.adminCfgWrite t m v) s = .next u ∧ u.queues.cfg = w ∧ (u.wq 0).st = .enabled ∧
        (u.wq 0).base = s.queues.baseHi.toNat * 2 ^ 32 + s.queues.baseLo.toNat ∧ (u.wq 0).size = fld w 2 5 ∧
        (u.wq 0).owner = BitVec.ofNat 8 (fld w 16 8)) ∧
    ((s.wq 0).st ≠ .absent → (w ^^^ s.queues.cfg) >>> 1 ≠ 0 →
      exec (.adminCfgWrite t m v) s = .next ((s.arrive t).setWq 0 { s.wq 0 with cfgRej := true })) ∧
    ((s.wq 0).st = .enabled → (w ^^^ s.queues.cfg) >>> 1 = 0 → bit w 0 = false →
      ∃ u, exec (.adminCfgWrite t m v) s = .next u ∧ (u.wq 0).st = .disabling ∧ (u.wq 0).toAbsent = true))

/-! ## Translation (09_translation.md) -/

/-- R304 to R309: a walk reads at each level the entry that nine bits of the address select; an entry with V 0 or bits it may not have ends it with
its cause, a table entry takes it one level down, and a leaf ends it: the access, where it still stands, gets its answer and the leaf is cached,
unless an invalidation of its scope has begun meanwhile and not ended. A failed table read is made again three times and then ends the walk with
TABLE_BUS_ERROR, at once while the link is not up; a read of a beat that a locked sequence holds waits; a walk of a domain that is off ends with
DOMAIN_OFF. -/
def Obligations.WalksReadOneEntryPerLevel : Prop :=
  (∀ w : Walk, w.entryAt = w.table + w.va / 2 ^ (12 + 9 * w.level) % 512 * 8) ∧
  (∀ (e : BitVec 64) (level : Nat), (e.getLsbD 0 = false → entryFault e level = some 1) ∧
    (entryFault e level = none → e.getLsbD 0 = true ∧ (e.getLsbD 1 = true → level ≤ 1) ∧ (e.getLsbD 1 = false → level ≠ 0) ∧
      (e.getLsbD 1 = true → level = 1 → entOA e % 0x200000 = 0))) ∧
  (∀ (t : Time) (n : Nat) (hm : HostMem) (s : State) (w : Walk), s.up = true → s.xl.walks[n]? = some w → w.begun = true →
    ((s.dom w.dom).en = false → exec (.tableReadComplete t n hm) s = .next ((s.arrive t).walkEnd w (.inr (7, 0, 0)))) ∧
    ((s.dom w.dom).en = true → w.tabPhy = true → (s.arrive t).beatLocked none w.entryAt 8 = true →
      exec (.tableReadComplete t n hm) s = .next (s.arrive t)) ∧
    (∀ b s1, (s.dom w.dom).en = true → w.tabPhy = true → (s.arrive t).beatLocked none w.entryAt 8 = false →
      ((s.arrive t).ringSram w.entryAt 8 = (some b, s1) →
        exec (.tableReadComplete t n hm) s = .next (s1.walkEntry w (BitVec.ofNat 64 (leNat b)))) ∧
      ((s.arrive t).ringSram w.entryAt 8 = (none, s1) → exec (.tableReadComplete t n hm) s = .next (s1.walkEnd w (.inr (6, w.level, 0))))) ∧
    (∀ b, (s.dom w.dom).en = true → w.tabPhy = false → s.irq.link = true → hm = .data b →
      exec (.tableReadComplete t n hm) s = .next ((s.arrive t).walkEntry w (BitVec.ofNat 64 (num b 0 8)))) ∧
    ((s.dom w.dom).en = true → w.tabPhy = false → s.irq.link = false →
      exec (.tableReadComplete t n hm) s = .next ((s.arrive t).walkEnd w (.inr (6, w.level, 0)))) ∧
    ((s.dom w.dom).en = true → w.tabPhy = false → s.irq.link = true → hm = .fail → exec (.tableReadComplete t n hm) s = .next
      (if w.tries < 3 then { s.arrive t with xl := { s.xl with
         walks := s.xl.walks.map fun x => if x = w then { w with tries := w.tries + 1 } else x } }
       else (s.arrive t).walkEnd w (.inr (6, w.level, 0))))) ∧
  (∀ (s : State) (w : Walk) (e : BitVec 64),
    (∀ k, entryFault e w.level = some k → s.walkEntry w e = s.walkEnd w (.inr (k, w.level, e))) ∧
    (entryFault e w.level = none → e.getLsbD 1 = false → s.walkEntry w e = { s with xl := { s.xl with walks := s.xl.walks.map fun x =>
      if x = w then { w with level := w.level - 1, table := entOA e, tabPhy := e.getLsbD 5, tries := 0 } else x } }) ∧
    (entryFault e w.level = none → e.getLsbD 1 = true → w.level = 0 → s.walkEntry w e =
      s.walkEnd w (.inl { dom := w.dom, page := w.va / 0x1000, big := false, entry := e })) ∧
    (entryFault e w.level = none → e.getLsbD 1 = true → w.level = 1 → s.walkEntry w e =
      s.walkEnd w (.inl { dom := w.dom, page := w.va / 0x200000, big := true, entry := e }))) ∧
  (∀ (s : State) (w : Walk) (l : Leaf) (k j : Nat), w.who = .core k j →
    (w.gone = false → (s.walkEnd w (.inl l)).xl.answers = s.xl.answers ++
      [{ who := w.who, dom := w.dom, page := w.va / 4096, res := .inl l, old := w.old && s.invLeaf l, acc := w.acc }]) ∧
    (w.gone = true → (s.walkEnd w (.inl l)).xl.answers = s.xl.answers) ∧
    (w.old = true → s.invLeaf l = true → (s.walkEnd w (.inl l)).xl.cache = s.xl.cache) ∧
    (w.old = false ∨ s.invLeaf l = false → (s.walkEnd w (.inl l)).xl.cache.head? = some l))

/-- R311 to R313: GO with no invalidation in progress begins the one XL_INV_CTRL selects, after which the cache holds no leaf in its scope; with one
in progress, or a reserved selection, it sets REJECT. It completes once no walk, burst or committed command that it covers remains: SEQ goes up and
core source 679 is raised. R302 to R304: DOM_CTRL that turns a domain off begins an invalidation of it; a change of ROOT_PHY while on, or turning it
on before that has ended, is refused. -/
def Obligations.InvalidationsRemoveTheirScope : Prop :=
  (∀ (t : Time) (m : Ident) (v : Word) (s : State), s.serves (xlOfs + 0x20) = true →
    (bit v 0 = false → exec (.xlInvGo t m v) s = .next (s.arrive t)) ∧
    (∀ z, bit v 0 = true → s.xl.inv = none → s.invScope = some z →
      exec (.xlInvGo t m v) s = .next (({ s.arrive t with xl := { s.xl with inv := some z } } : State).invalidate z)) ∧
    (bit v 0 = true → (s.xl.inv ≠ none ∨ s.invScope = none) → exec (.xlInvGo t m v) s = .next
      { s.arrive t with xl := { s.xl with invRej := true } })) ∧
  (∀ (s : State) (z : Scope), (∀ c, (s.chan c).timed = none ∧ ∀ l ∈ (s.chan c).leafs, z.leaf l = false) →
    (s.invalidate z).xl.cache = s.xl.cache.filter (fun l => !z.leaf l) ∧ (s.invalidate z).chans = s.chans ∧ (s.invalidate z).mem = s.mem ∧
    (∀ w ∈ (s.invalidate z).xl.walks, z.walk w = true → w.begun = true → w.old = true) ∧
    (∀ a ∈ (s.invalidate z).xl.answers, ∀ l, a.res = .inl l → z.leaf l = false)) ∧
  (∀ (t : Time) (s : State) (z : Scope), s.up = true → s.xl.inv = some z → (∀ d, (s.dom d).invBusy = false) → (∀ c, (s.chan c).act ≠ .inval) →
    (s.invDone z = true → ∃ u, exec (.invalidationComplete t) s = .next u ∧ u.xl.inv = none ∧ u.xl.invSeq = s.xl.invSeq + 1 ∧
      (u.cic 679).pend = true ∧ u.xl.cache = s.xl.cache) ∧
    (s.invDone z = false → exec (.invalidationComplete t) s = .next (s.arrive t))) ∧
  (∀ (t : Time) (s : State) (d : Nat), s.up = true → (∀ c, (s.chan c).act ≠ .inval) → (s.dom d).invBusy = true → s.invDone (.dom d) = true →
    ∃ u, exec (.invalidationComplete t) s = .next u ∧ u.dom d = { s.dom d with invBusy := false }) ∧
  (∀ (t : Time) (m : Ident) (d : Fin 256) (v : Word) (s : State) (x : Dom), x = s.dom d → s.serves (domOfs d) = true →
    ((bit x.ctrl 0 = true ∧ bit v 2 ≠ bit x.ctrl 2 ∨ bit v 0 = true ∧ x.invBusy = true) →
      exec (.domCtrlWrite t m d v) s = .next ((s.arrive t).setDom d { x with cfgRej := true })) ∧
    (bit x.ctrl 0 = true → bit v 2 = bit x.ctrl 2 → bit v 0 = false → exec (.domCtrlWrite t m d v) s = .next
      (((s.arrive t).setDom d { x with ctrl := v &&& 7, invBusy := true }).invalidate (.dom d))) ∧
    ((bit x.ctrl 0 = false ∨ bit v 0 = true ∧ bit v 2 = bit x.ctrl 2) → (bit v 0 = false ∨ x.invBusy = false) →
      exec (.domCtrlWrite t m d v) s = .next ((s.arrive t).setDom d { x with ctrl := v &&& 7 })))

/-- R323 to R326: a translation fault counts in its domain; its record is dropped and counted where the domain's fault queue is not enabled or full,
and otherwise written at PI, which advances; an armed queue notifies. R264, R265: a doorbell asks for a read of CI, which is taken unless it passes
PI. R326, R338: FQ_CFG with EN rising makes the ring empty and armed, EN falling turns the queue off, a change of other fields while on or a ring
beyond SRAM is refused. R336: XL_PARK_CTRL bit 0 sets the peak to the parked channels. -/
def Obligations.FaultQueuesTakeFaultRecords : Prop :=
  (∀ (s : State) (r : FaultRec) (q : FQ), q = s.fq r.dom →
    ((s.faultRecord r).dom r.dom).faults = satInc (s.dom r.dom).faults ∧
    ((q.st ≠ 1 ∨ q.size ≤ (q.pi - q.ci).toNat) → (s.faultRecord r).fq r.dom = { q with drop := satInc q.drop } ∧ (s.faultRecord r).mem = s.mem ∧
      (s.faultRecord r).out = s.out) ∧
    (q.st = 1 → (q.pi - q.ci).toNat < q.size → q.phy = true → (s.faultRecord r).fq r.dom = { q with pi := q.pi + 1, armed := false } ∧
      ((r.bytes s.now).length = 32 → ∀ a, tget 0 (s.faultRecord r).mem.sram a =
        if q.ring ≤ a ∧ a < q.ring + 4 then (leBytes 4 (q.pi + 1).toNat).getD (a - q.ring) 0
        else if q.ring + 0x80 + q.pi.toNat % q.size * 32 ≤ a ∧ a < q.ring + 0x80 + q.pi.toNat % q.size * 32 + 32 then
          (r.bytes s.now).getD (a - (q.ring + 0x80 + q.pi.toNat % q.size * 32)) 0
        else tget 0 s.mem.sram a))) ∧
  (∀ (t : Time) (m : Ident) (d : Fin 256) (v : Word) (s : State) (q : FQ), q = s.fq d → s.serves (fqOfs d + 0xC) = true → q.st = 1 →
    exec (.fqDb t m d v) s = .next ((s.arrive t).setFq d (match q.ciRead with
      | none => { q with ciRead := some (bit v 0) }
      | some _ => { q with ciAgain := some (q.ciAgain.getD false || bit v 0) }))) ∧
  (∀ (t : Time) (d : Fin 256) (hm : HostMem) (s s1 : State) (b : List Byte) (arm : Bool), s.up = true → (s.fq d).ciRead = some arm →
    (s.fq d).st = 1 → (s.fq d).phy = true → (s.arrive t).beatLocked none ((s.fq d).ring + 0x40) 4 = false → (s.arrive t).ringSram ((s.fq d).ring + 0x40) 4 = (some b, s1) →
    exec (.fqCiReadComplete t d hm) s = .next (s1.fqTakeCi d (BitVec.ofNat 32 (leNat b)) arm)) ∧
  (∀ (s : State) (d : Nat) (c : Word) (arm : Bool) (q : FQ), q = s.fq d →
    ((c - q.ci).toNat ≤ (q.pi - q.ci).toNat → ((s.fqTakeCi d c arm).fq d).ci = c ∧ ((s.fqTakeCi d c arm).fq d).st = q.st ∧
      ((s.fqTakeCi d c arm).fq d).armed = (if arm then decide (q.pi = c) else q.armed)) ∧
    ((q.pi - q.ci).toNat < (c - q.ci).toNat → ((s.fqTakeCi d c arm).fq d).ci = q.ci ∧ ((s.fqTakeCi d c arm).fq d).st = 2)) ∧
  (∀ (t : Time) (m : Ident) (d : Fin 256) (v w : Word) (s : State) (q n : FQ), q = s.fq d → w = fqClamp v → n = { q with cfg := w } →
    s.serves (fqOfs d + 8) = true →
    ((fld w 6 2 = 3 ∨ q.en = true ∧ (w ^^^ q.cfg) >>> 1 ≠ 0 ∨
        q.en = false ∧ n.en = true ∧ n.phy = true ∧ 0x2000000 < n.base + 0x80 + 32 * n.size) →
      exec (.fqCfgWrite t m d v) s = .next ((s.arrive t).setFq d { q with cfgRej := true })) ∧
    (fld w 6 2 ≠ 3 → q.en = true → n.en = false → (w ^^^ q.cfg) >>> 1 = 0 → exec (.fqCfgWrite t m d v) s = .next
      ((s.arrive t).setFq d { n with st := 0, armed := false, ciRead := none, ciAgain := none, tries := 0 })) ∧
    (fld w 6 2 ≠ 3 → q.en = false → n.en = true → n.phy = true → n.base + 0x80 + 32 * n.size ≤ 0x2000000 →
      ∃ u, exec (.fqCfgWrite t m d v) s = .next u ∧ u.fq d = { n with st := 1, armed := true, pi := 0, ci := 0, ring := n.base } ∧
        ∀ a, tget 0 u.mem.sram a = if n.base ≤ a ∧ a < n.base + 4 then 0 else tget 0 s.mem.sram a)) ∧
  (∀ (t : Time) (m : Ident) (v : Word) (s : State), s.serves (xlOfs + 0x34) = true → exec (.parkPeakClr t m v) s = .next
    (if bit v 0 then { s.arrive t with xl := { s.xl with parkPeak := (s.chans.filter fun p => p.2.park.isSome).length } } else s.arrive t))

/-- R334: a write to a window's registers puts them in; one that would move an enabled window is refused. R332, R333, R453, R454: an access through a
window that is off, or whose translation faults, raises the access fault of its kind and a fault record; a misaligned one raises its exception; one
that needs a walk waits, with the domain and the address it was issued under. A translated one works on the line of the core's cache: a load returns its bytes, a store changes the line. -/
def Obligations.CoreWindowsTranslateTheirAccesses : Prop :=
  (∀ (t : Time) (m : Ident) (k : Fin 4) (w : Fin 8) (reg : CwReg) (v : Word) (s : State) (x n : CoreWin), x = s.win (k * 8 + w) →
    s.serves (winOfs k w + cwReg reg) = true →
    n = (match reg with
      | .ctrl => { x with ctrl := v &&& 0xFF01 }
      | .baseLo => { x with baseLo := v &&& 0xF0000000 }
      | .baseHi => { x with baseHi := v &&& 0xFFFF }) →
    exec (.cwCtrlWrite t m k w reg v) s = .next ((s.arrive t).setWin (k * 8 + w)
      (if bit x.ctrl 0 = true ∧ (fld n.ctrl 8 8 ≠ fld x.ctrl 8 8 ∨ n.baseLo ≠ x.baseLo ∨ n.baseHi ≠ x.baseHi) then { x with cfgRej := true }
       else n))) ∧
  (∀ (t : Time) (k : Fin 4) (a : Word) (op : CoreOp) (hm : HostMem) (s : State), s.up = true → s.coreRuns k = true →
    (opMisaligned a.toNat op = true → exec (.coreWindowAccess t k a op hm) s = .next ((s.arrive t).setCore k
      { s.core k with trap := some (.misaligned, a.toNat), resv := none })) ∧
    (∀ w o, opMisaligned a.toNat op = false → (s.core k).pmpOk (opAddr a.toNat op) (opWidth op) (opAccess op) = true →
      coreRegion (opAddr a.toNat op) = .window w o → (s.core k).waits = [] → bit (s.win (k * 8 + w)).ctrl 0 = false →
      ∃ u, exec (.coreWindowAccess t k a op hm) s = .next u ∧ (u.core k).trap = some (opFault op, a.toNat) ∧ (u.core k).resv = none ∧
        u.win (k * 8 + w) = { s.win (k * 8 + w) with fault := true } ∧
        (u.dom (fld (s.win (k * 8 + w)).ctrl 8 8)).faults = satInc (s.dom (fld (s.win (k * 8 + w)).ctrl 8 8)).faults)) ∧
  (∀ (t : Time) (k : Fin 4) (a : Word) (op : CoreOp) (w o d va : Nat) (hm : HostMem) (s s1 : State), s.up = true → s.coreRuns k = true →
    opMisaligned a.toNat op = false → (s.core k).pmpOk (opAddr a.toNat op) (opWidth op) (opAccess op) = true →
    coreRegion (opAddr a.toNat op) = .window w o → s.windowVa k (opAddr a.toNat op) w o (opAccess op) = some (d, va) →
    (s.arrive t).xlate (.core k w) d va (opAccess op) = (.miss, s1) →
    exec (.coreWindowAccess t k a op hm) s = .next (s1.coreWait k (opAddr a.toNat op) (opAccess op) (some (d, va)))) ∧
  (∀ (s : State) (k x w o : Nat) (acc : Access) (q : CoreWin), q = s.win (k * 8 + w) →
    (∀ d va, ((s.core k).waits.find? fun p => p.1 == acc && p.2.1 == x) = some (acc, x, d, va) → s.windowVa k x w o acc = some (d, va)) ∧
    (((s.core k).waits.find? fun p => p.1 == acc && p.2.1 == x) = none → bit q.ctrl 0 = true →
      q.baseHi.toNat * 2 ^ 32 + q.baseLo.toNat + o < 2 ^ 48 →
      s.windowVa k x w o acc = some (fld q.ctrl 8 8, q.baseHi.toNat * 2 ^ 32 + q.baseLo.toNat + o))) ∧
  (∀ (t : Time) (k : Fin 4) (a : Word) (n w o d va : Nat) (hm : HostMem) (s s1 : State) (phy : Bool) (addr : Nat) (lf : Leaf) (l : CacheLine)
      (v : Word), s.up = true → s.coreRuns k = true → a.toNat % max 1 n = 0 → coreRegion a.toNat = .window w o →
    l = s1.line k false (a.toNat / 64) → l.data ≠ [] → l.bad = false → l.weak = false →
    ((s.core k).pmpOk a.toNat n .read = true → s.windowVa k a.toNat w o .read = some (d, va) →
      (s.arrive t).xlate (.core k w) d va .read = (.hit phy addr lf, s1) →
      ∃ s2 : State, s2 = (s1.coreWait k a.toNat .read none).spend (.core k w) d va ∧
        exec (.coreWindowAccess t k a (.load n) hm) s = .next (s2.setCore k
          { s2.core k with trap := none, rd := BitVec.ofNat 32 (num l.data (a.toNat % 64) n) })) ∧
    ((s.core k).pmpOk a.toNat n .write = true → s.windowVa k a.toNat w o .write = some (d, va) →
      (s.arrive t).xlate (.core k w) d va .write = (.hit phy addr lf, s1) →
      ∃ u, exec (.coreWindowAccess t k a (.store n v) hm) s = .next u ∧ (u.core k).trap = none ∧
        u.line k false (a.toNat / 64) = { l with data := splice l.data (a.toNat % 64) (leBytes n v.toNat), dirty := true } ∧
        u.mem = s1.mem ∧ u.out = s1.out))

/-! ## Forced rests, permits, budgets, the limited-write store (10_outputs_fences.md) -/

/-- R352 to R354: a forced rest of an on pin takes it to rest at its instant, holds it while its unit drives the on level, counts a clamp with its
cause and time, notes FENCE_CLAMP in the holder and reports the bank's source; other pins and units are left alone, and a pin that is off too.
R352: MAX_ON falls when the pin has been on that long, exactly at that instant; DUTY when the on-time in the window reaches the limit.

R355, R352, R354: a permit's level is accepted once its pin has held it for FILT. One that is accepted as before changes nothing but its level; one
accepted as deasserted forces every on pin that asks for it to rest with cause PERMIT and reports source 104 + i; one accepted as asserted turns no pin
on. R357: a window start sets every pin's budget to its whole. R367, R489: SERVICE_EN held high for 20 ms sets SVC, and its fall clears SVC and locks the
test key (that it loses its qualification at once is the model's choice, log 57). -/
def Obligations.LimitsAndPermitsForcePinsToRest : Prop :=
  (
  (∀ (s : State) (u k : Nat) (t : Time), (s.pin u).onSince = none → s.forceRest u k t = s) ∧
  (∀ (s : State) (u k : Nat) (t : Time), (s.pin u).onSince.isSome = true → ∃ x, s.forceRest u k t = x ∧
    (x.pin u).onSince = none ∧ (x.pin u).lastRest = some t ∧ (x.pin u).hold = ((s.ou u).drive == s.onLevel u) ∧
    x.ou u = { s.ou u with edgeT := t, clamps := (s.ou u).clamps + 1, lastCause := BitVec.ofNat 4 k, clampT := t } ∧
    x.fc.raised = s.fc.raised ||| BitVec.ofNat 256 (1 <<< (96 + u / 16)) ∧
    (∀ c, (s.ou u).holder = some c → (x.chan c).status = (s.chan c).status ||| 0x80) ∧
    (∀ p, p ≠ u → x.pin p = s.pin p ∧ x.ou p = s.ou p) ∧ Quiet s x) ∧
  (∀ (t : Time) (u : Fin 128) (s : State) (a : Time), s.dead = false → (s.pin u).onSince = some a → exec (.maxOn t u) s = .next
    (if s.maxOn u ≠ 0 ∧ a + s.maxOn u ≤ max s.now t then (s.arrive t).forceRest u 8 (a + s.maxOn u) else s.arrive t)) ∧
  (∀ (t : Time) (u : Fin 128) (s : State), s.dead = false →
    (∀ x, s.dutyDue u (max s.now t) = some x → exec (.duty t u) s = .next ((s.arrive t).forceRest u 9 x)) ∧
    (s.dutyDue u (max s.now t) = none → exec (.duty t u) s = .next (s.arrive t))) ∧
  (∀ (s : State) (u : Nat) (t x : Time), s.dutyDue u t = some x → x ≤ t ∧ fld (s.pinWord u 1) 24 8 ≠ 0 ∧
    s.dutyLimit u ≤ (s.pin u).onTime (s.dutyWin u) x) ∧
  (∀ (s : State) (u : Nat) (t : Time), s.dutyDue u t = none ↔ (s.pin u).onSince = none ∨ fld (s.pinWord u 1) 24 8 = 0 ∨
    (s.pin u).onTime (s.dutyWin u) t < s.dutyLimit u)) ∧
  (
  (∀ (t : Time) (i : Fin 8) (raw : List (Time × Bool)) (s x : State), s.dead = false →
    x = raw.foldl (fun x p => x.permitEdge i (min p.1 x.now) p.2) (s.arrive t) → exec (.permit t i raw) s = .next (x.permitQual i x.now)) ∧
  (∀ (s x : State) (i : Nat) (t : Time) (v : Bool), x = s.permitQual i t →
    s.permitEdge i t v = if (x.permitIn i).raw = v then x else x.setPermitIn i { x.permitIn i with raw := v, rawT := t }) ∧
  (∀ (s : State) (i : Fin 8) (t : Time) (x : Permit), x = s.permitIn i →
    (t < x.rawT + s.permitFilt i ∨ x.seen = true ∧ x.level = x.raw → s.permitQual i t = s) ∧
    (x.rawT + s.permitFilt i ≤ t → (x.seen = false ∨ x.level ≠ x.raw) →
    ((x.raw == s.permitHigh i) = x.accepted → s.permitQual i t =
      s.setPermitIn i { x with level := x.raw, accepted := x.raw == s.permitHigh i, seen := true }) ∧
    (x.raw ≠ s.permitHigh i → x.accepted = true → ∃ u, s.permitQual i t = u ∧
      u.permitIn i = { x with level := x.raw, accepted := false, seen := true } ∧
      (s.resting = false → u.fc.raised.getLsbD (104 + i) = true) ∧
      ∀ p < 128, ((s.permitReq p).testBit i = true → (u.pin p).onSince = none ∧
          ((s.pin p).onSince.isSome = true → (u.ou p).lastCause = 10 ∧ (u.ou p).clamps = (s.ou p).clamps + 1 ∧
            (u.ou p).clampT = x.rawT + s.permitFilt i)) ∧
        ((s.permitReq p).testBit i = false → u.pin p = s.pin p ∧ u.ou p = s.ou p)) ∧
    (x.raw = s.permitHigh i → x.accepted = false → ∃ u, s.permitQual i t = u ∧
      u.permitIn i = { x with level := x.raw, accepted := true, seen := true } ∧ u.outs.pins = s.outs.pins ∧ u.outs.units = s.outs.units ∧
      u.fc = s.fc ∧ ∀ j, j ≠ i.val → u.permitIn j = s.permitIn j))) ∧
  (∀ (t : Time) (s : State), s.dead = false →
    (s.outs.window < max s.now t / ms 1 → ∃ u, exec (.budgetWindowStart t) s = .next u ∧ u.outs.window = max s.now t / ms 1 ∧
      (∀ p, u.pin p = { s.pin p with spent := 0 } ∧ u.budget p = s.maxEdges p) ∧ u.outs.units = s.outs.units) ∧
    (max s.now t / ms 1 ≤ s.outs.window → exec (.budgetWindowStart t) s = .next (s.arrive t))) ∧
  (∀ (t : Time) (raw : List (Time × Bool)) (s x : State), s.dead = false →
    x = raw.foldl (fun x p => x.svcEdge (min p.1 x.now) p.2) (s.arrive t) → exec (.serviceEnQualify t raw) s = .next (x.svcQual x.now)) ∧
  (∀ (s : State) (t : Time), (s.svcQual t).fc = s.fc ∧ (s.svcQual t).outs = s.outs ∧ (s.svcQual t).mem = s.mem ∧
    (s.svcQual t).lws = { s.lws with svc := s.lws.svc || (s.lws.svcRaw && decide (s.lws.svcT + ms 20 ≤ t)) }) ∧
  (∀ (s x : State) (t : Time) (v : Bool), x = s.svcQual t → (x.lws.svcRaw = v → s.svcEdge t v = x) ∧
    (x.lws.svcRaw ≠ v → (s.svcEdge t v).lws = { x.lws with svcRaw := v, svcT := t, svc := false } ∧
      (s.svcEdge t v).fc = (if x.lws.svc then { x.fc with half := none, test := false, force := 0 } else x.fc) ∧
      (s.svcEdge t v).outs = s.outs ∧ (s.svcEdge t v).mem = s.mem)))

/-- R370: writes to LWS_STAGE while BUSY is 1 are ignored and set LWS_STATUS.STAGE_REJ; an LWS_CMD write while BUSY is 1 is refused with BUSY, and
nothing is queued behind the commit in progress. -/
def Obligations.TheStoreIsClosedWhileBusy : Prop :=
  ∀ (t : Time) (m : Ident) (v : Word) (s : State) (k : LwsCommit), s.lws.commit = some k →
    (∀ o : Fin 608, s.serves (lwsOfs + 0x1000 + 4 * o) = true → exec (.lwsStageWrite t m o v) s = .next
      { s.arrive t with lws := { s.lws with stageRej := true } }) ∧
    (∀ i, (i = Instr.commitFence t m v ∨ i = Instr.commitConduct t m v ∨ i = Instr.commitIdentity t m v ∨
        i = Instr.registerWrite t m lwsOfs 15 v ∧ m ≠ 0x20) → s.serves lwsOfs = true →
      exec i s = .next { s.arrive t with lws := { s.lws with result := 1 } }) ∧
    (∀ o : Fin 608, s.serves (lwsOfs + 0x1000 + 4 * o) = true → m ≠ 0x20 →
      exec (.registerWrite t m (lwsOfs + 0x1000 + 4 * o) 15 v) s = .next { s.arrive t with lws := { s.lws with stageRej := true } })

/-- R367, R368, R372: with no commit in progress, an LWS_CMD write is judged in the order of R367, and a refused one changes RESULT alone: a wrong key
or a reserved bit is INVALID_FIELD, SERVICE_EN low or a master outside AUTH is NOT_PERMITTED, a faulty image INVALID_FIELD, no blank slot
SLOTS_EXHAUSTED. An accepted one programs the next record and the next slot with the staged image, not VALID yet, and is in progress; no image in
force changes. A stage write puts its four bytes into the stage.

R359, R368, R369, R371: a commit whose read-back agrees leaves its slot and its record VALID, RESULT OK; one that differs leaves them SPOILED,
RESULT FAULTED and source 148 reported; core source 678 is raised either way, and a waiting COMMIT frame is answered. Only a VALID fence image is put
in force at once: on pins rest with cause SAFE, a pin whose unit drives the on level of the new image is held, permits are judged by the new POL, one
that has accepted no level yet staying as it is, and a pin whose level the image has changed has made a transition at that instant (R374). -/
def Obligations.CommitsAreJudgedAndEndValidOrSpoiled : Prop :=
  (
  (∀ (t : Time) (m : Ident) (v : Word) (s : State) (tg : Nat) (i : Instr) (img : List Byte), s.serves lwsOfs = true → s.lws.commit = none →
    (i = .commitFence t m v ∧ tg = 1 ∨ i = .commitConduct t m v ∧ tg = 2 ∨ i = .commitIdentity t m v ∧ tg = 3) →
    img = s.lws.staged (imageLen tg) →
    (fld v 16 16 ≠ 0x5EA1 ∨ fld v 3 13 ≠ 0 → exec i s = .next { s.arrive t with lws := { s.lws with result := 2 } }) ∧
    (fld v 16 16 = 0x5EA1 → fld v 3 13 = 0 →
      (s.lws.svc = false ∨ authHas s.fenceAuth m = false → exec i s = .next { s.arrive t with lws := { s.lws with result := 4 } }) ∧
      (s.lws.svc = true → authHas s.fenceAuth m = true →
        (imageOk tg img (bit v 2) = false → exec i s = .next { s.arrive t with lws := { s.lws with result := 2 } }) ∧
        (imageOk tg img (bit v 2) = true → slotCount tg ≤ (s.lws.slots tg).length →
          exec i s = .next { s.arrive t with lws := { s.lws with result := 9 } }) ∧
        (imageOk tg img (bit v 2) = true → (s.lws.slots tg).length < slotCount tg → ∃ u, exec i s = .next u ∧
          u.lws.commit = some { target := tg, image := img, master := m, stamp := s.lws.stamp, tag := s.lws.tag } ∧
          u.lws.slots tg = s.lws.slots tg ++ [{ valid := false, image := img }] ∧
          (∀ x, x = 1 ∨ x = 2 ∨ x = 3 → x ≠ tg → u.lws.slots x = s.lws.slots x) ∧
          u.lws.ledger = s.lws.ledger ++ [s.lws.record tg (s.lws.slots tg).length m img] ∧ u.lws.result = 0 ∧
          u.lws.fenceImg = s.lws.fenceImg ∧ u.lws.conductImg = s.lws.conductImg ∧ u.lws.identImg = s.lws.identImg ∧ u.outs = s.outs)))) ∧
  (∀ (t : Time) (m : Ident) (o : Fin 608) (v : Word) (s : State), s.lws.commit = none → s.serves (lwsOfs + 0x1000 + 4 * o) = true →
    ∃ u, exec (.lwsStageWrite t m o v) s = .next u ∧ u.lws = { s.lws with stage := u.lws.stage } ∧
      ∀ a, tget 0 u.lws.stage a = if 4 * o.val ≤ a ∧ a < 4 * o.val + 4 then (leBytes 4 v.toNat).getD (a - 4 * o.val) 0 else tget 0 s.lws.stage a)) ∧
  (
  (∀ (t : Time) (rb : Bool) (s : State), (s.lws.commit = none → exec (.commitComplete t rb) s = .next (s.arrive t)) ∧
    (s.dead = false → s.rst.resetHeld = false → exec (.commitComplete t rb) s = .next
      (if s.lws.commit = none then s.arrive t else ((s.arrive t).lwsFinish rb).payCommit))) ∧
  (∀ (s : State) (k : LwsCommit) (ok : Bool), s.lws.commit = some k → ∃ u, s.lwsFinish ok = u ∧ u.lws.commit = none ∧
    u.lws.result = (if ok then 0 else 6) ∧ u.lws.slots k.target = (s.lws.slots k.target).dropLast ++ [{ valid := ok, image := k.image }] ∧
    u.lws.ledger = s.lws.ledger.dropLast ++ [splice (s.lws.ledger.getLast?.getD []) 3 [if ok then 1 else 2]] ∧ (u.cic 678).pend = true ∧
    u.lws.conductImg = s.lws.conductImg ∧ u.lws.identImg = s.lws.identImg ∧
    (ok = true → k.target = 1 → u.lws.fenceImg = some k.image) ∧
    (ok = false ∨ k.target ≠ 1 → u.lws.fenceImg = s.lws.fenceImg ∧ u.outs = s.outs) ∧
    (ok = false → u.fc.raised.getLsbD 148 = true) ∧ (ok = true → k.target ≠ 1 → u.fc = s.fc)) ∧
  (∀ (s : State), (s.svc.owesCommit = false → s.payCommit = s) ∧
    (s.svc.owesCommit = true → s.payCommit.out = s.out ++ [.svc s.lws.result [s.lws.status]] ∧ s.payCommit.svc.owesCommit = false)) ∧
  (∀ (s u : State) (img : List Byte) (t : Time), u = s.applyFence img t → u.lws = { s.lws with fenceImg := some img } ∧
    (∀ p < 128, (u.pin p).onSince = none ∧ (u.pin p).hold = (!u.isInput p && (s.ou p).drive == u.onLevel p) ∧
      ((s.pin p).onSince.isSome = true → (u.pin p).lastRest = some t ∧ (u.ou p).lastCause = 11 ∧ (u.ou p).clamps = (s.ou p).clamps + 1) ∧
      ((s.pin p).onSince = none → u.ou p = { s.ou p with edgeT := (u.ou p).edgeT }) ∧
      (u.ou p).edgeT = if u.pinLevel p = s.pinLevel p then (s.ou p).edgeT else t) ∧
    ∀ i < 8, (u.permitIn i).accepted = if s.permitHigh i = u.permitHigh i ∨ (s.permitIn i).seen = false then (s.permitIn i).accepted
      else ((s.permitIn i).level == u.permitHigh i)))

/-! ## Ports, streams, transmit queues (11_ports_line_domain.md) -/

/-- R377, R378: PORT_CTRL is refused as a whole for the reserved FEC 11, for RS-FEC with 10 Gbit/s or on a ring port, and for a change of speed or FEC while on; EN = 1 of a
DISABLING port sets BUSY_REJ; otherwise EN turns the port on, or begins DISABLING and discards what its queues hold; DISABLED comes once the wire is
idle. YZ_RING of R378 is the pair RING_A and RING_B of YZ_PORTS (log 32): a write that changes whether a port that is not DISABLED is one of the two is
ignored and sets CFG_REJ of that port. R379: losing the link of an ENABLED port sets LINK_LOST and reports source 112 + p. R382, R385: RS_CTRL turns a stream on within 256 units of
quota, and off once nothing of it is reserved, when its records are discarded. R387: a placement READ ends GAP after its latest placement. R389: a
disabled transmit queue discards its frames. -/
def Obligations.PortsStreamsAndQueuesTurnOnAndOff : Prop :=
  (∀ (t : Time) (m : Ident) (p : Fin 16) (v w : Word) (s : State) (x : Port), x = s.port p → w = v &&& 0xFF3F → s.serves (portOfs p) = true →
    ((fld w 2 2 = 3 ∨ fld w 2 2 = 2 ∧ (bit w 1 = true ∨ (s.yz.ring p).isSome = true) ∨ x.st ≠ .disabled ∧ fld w 1 3 ≠ fld x.ctrl 1 3) →
      exec (.portCtrlWrite t m p v) s = .next ((s.arrive t).setPort p { x with cfgRej := true })) ∧
    (fld w 2 2 ≠ 3 → ¬(fld w 2 2 = 2 ∧ (bit w 1 = true ∨ (s.yz.ring p).isSome = true)) → (x.st = .disabled ∨ fld w 1 3 = fld x.ctrl 1 3) →
      (x.st = .disabling → bit v 0 = true → exec (.portCtrlWrite t m p v) s = .next ((s.arrive t).setPort p { x with busyRej := true })) ∧
      (x.st = .disabled → exec (.portCtrlWrite t m p v) s = .next ((s.arrive t).setPort p
        { x with ctrl := w, st := if bit v 0 then .enabled else .disabled })) ∧
      ((x.st = .enabled ∧ bit v 0 = true ∨ x.st = .disabling ∧ bit v 0 = false) →
        exec (.portCtrlWrite t m p v) s = .next ((s.arrive t).setPort p { x with ctrl := w })) ∧
      (x.st = .enabled → bit v 0 = false → ∃ u, exec (.portCtrlWrite t m p v) s = .next u ∧
        u.port p = { x with ctrl := w, st := .disabling, disAt := max s.now t, ptpOut := [], yzOut := [], cycOut := none } ∧
        (∀ q < 4, (u.txq (4 * p + q)).frames = [] ∧ (u.txq (4 * p + q)).en = (s.txq (4 * p + q)).en) ∧
        ∀ j, j ≠ p.val → u.port j = s.port j))) ∧
  (∀ (t : Time) (p : Fin 16) (s : State), s.up = true → exec (.portDisableComplete t p) s = .next
    (if (s.port p).st = .disabling then (s.arrive t).setPort p { s.port p with st := .disabled, onWire := none } else s.arrive t)) ∧
  (∀ (t : Time) (m : Ident) (v : Word) (s : State), s.serves (yzOfs + 8) = true → m ≠ 0x20 → s.yz.en = false →
    ∃ u, exec (.registerWrite t m (yzOfs + 8) 15 v) s = .next u ∧
      ((∀ p < 16, ringHas s.yz.ports p = ringHas v p ∨ (s.port p).st = .disabled) →
        u = (s.arrive t).setYz { s.yz with ports := v &&& 0xFFFFFF }) ∧
      ∀ p < 16, ringHas s.yz.ports p ≠ ringHas v p → (s.port p).st ≠ .disabled → u.yz = s.yz ∧ (u.port p).cfgRej = true) ∧
  (∀ (t : Time) (p : Fin 16) (up lost : Bool) (s : State), s.dead = false →
    lost = ((s.port p).link && !up && decide ((s.port p).st = .enabled) && !s.resting) → ∃ u, exec (.linkChange t p up) s = .next u ∧
      u.port p = { s.port p with link := up, linkLost := (s.port p).linkLost || lost } ∧ (∀ j, j ≠ p.val → u.port j = s.port j) ∧
      (lost = true → u.fc.raised = s.fc.raised ||| BitVec.ofNat 256 (1 <<< (112 + p))) ∧ (lost = false → u.fc = s.fc) ∧
      (s.und.st = .run → u.und = s.und)) ∧
  (∀ (t : Time) (m : Ident) (r : Fin 256) (v w : Word) (s : State) (x : Stream), x = s.stream r →
    w = (if fld v 8 8 = 0 then setFld (v &&& 0xFF07) 8 8 1 else v &&& 0xFF07) → s.serves (streamOfs r) = true →
    (x.st = .disabling → bit v 0 = true → exec (.rsCtrlWrite t m r v) s = .next ((s.arrive t).setStream r { x with busyRej := true })) ∧
    (x.st = .disabled → bit v 0 = true → 256 < s.quotas + fld w 8 8 → exec (.rsCtrlWrite t m r v) s = .next
      ((s.arrive t).setStream r { x with cfgRej := true })) ∧
    (x.st = .disabled → (bit v 0 = false ∨ s.quotas + fld w 8 8 ≤ 256) → exec (.rsCtrlWrite t m r v) s = .next
      ((s.arrive t).setStream r { x with ctrl := w, st := if bit v 0 then .enabled else .disabled })) ∧
    (x.st = .enabled ∨ x.st = .disabling ∧ bit v 0 = false → exec (.rsCtrlWrite t m r v) s = .next ((s.arrive t).setStream r
      { x with ctrl := w, st := if bit v 0 then .enabled else .disabling }))) ∧
  (∀ (t : Time) (r : Fin 256) (s : State), s.up = true →
    ((s.stream r).st = .disabling → (s.stream r).owner = none → s.streamBusy r = false → exec (.streamDisableComplete t r) s = .next
      ((s.arrive t).setStream r { s.stream r with st := .disabled, recs := [] })) ∧
    ((s.stream r).st ≠ .disabling ∨ (s.stream r).owner ≠ none ∨ s.streamBusy r = true →
      exec (.streamDisableComplete t r) s = .next (s.arrive t))) ∧
  (∀ (t : Time) (c : Fin 4096) (s : State) (x u : Nat), s.up = true → u = (s.chan c).cur.unit → (s.chan c).placedAt = some x →
    s.placing c = true → (s.chan c).act = .unit u → 0 < (s.stream u).gap → exec (.placementGap t c) s = .next
      (if x + us (s.stream u).gap ≤ max s.now t then (s.arrive t).placeDone c else s.arrive t)) ∧
  (∀ (t : Time) (m : Ident) (x : Fin 64) (v : Word) (s : State), s.serves (txqCtrlOfs x) = true → exec (.txqCtrlWrite t m x v) s = .next
    ((s.arrive t).setTxq x (if bit v 0 = false then { s.txq x with en := false, frames := [] }
      else if (s.txq x).en = false ∧ (s.port (x / 4)).onWire = some (x % 4) then { s.txq x with busyRej := true }
      else { s.txq x with en := true })))

/-- R380, R382: a frame on a port that is off or without link has no effect; a bad one, one shorter than 64 bytes or longer than MAXLEN is counted in
RX_BAD; one the address filter drops is not counted; a PAUSE frame is counted; a Yazen frame goes to the engine; then the first rule that matches
stores the frame whole in its stream, or drops it where it would pass the quota. R390: at a frame boundary a PTP message that need not be held back
goes first, then an own CYCLIC frame, then other Yazen frames, then queue 3 down to 0; a frame leaves padded to 60 bytes with its FCS. -/
def Obligations.FramesPassThePorts : Prop :=
  (∀ (t : Time) (p : Fin 16) (b : List Byte) (good : Bool) (s : State) (x : Port), s.up = true → x = s.port p →
    ((x.st = .disabled ∨ x.link = false) → exec (.frameReceive t p b good) s = .next (s.arrive t)) ∧
    (x.st = .enabled → x.link = true → (good = false ∨ b.length + 4 < 64 ∨ x.maxLen < b.length + 4) → s.yz.ring p = none →
      exec (.frameReceive t p b good) s = .next ((s.arrive t).setPort p { x with rxBad := x.rxBad + 1 })) ∧
    (x.st = .enabled → x.link = true → good = true → 64 ≤ b.length + 4 → b.length + 4 ≤ x.maxLen →
      (x.accepts b = false → exec (.frameReceive t p b good) s = .next (s.arrive t)) ∧
      (x.accepts b = true → etherType b = 0x8808 → exec (.frameReceive t p b good) s = .next
        ((s.arrive t).setPort p { x with rxPause := x.rxPause + 1 })) ∧
      (x.accepts b = true → etherType b ≠ 0x8808 → etherType b = fld s.yz.etype 0 16 → s.yz.carries p = true → s.yz.en = true →
        ∃ u, exec (.frameReceive t p b good) s = .next u ∧ u.yz = { s.yz with inbox := s.yz.inbox ++ [(p.val, max s.now t, b)] } ∧
          u.port p = { x with rxOk := x.rxOk + 1 }) ∧
      (x.accepts b = true → etherType b ≠ 0x8808 → ¬(etherType b = fld s.yz.etype 0 16 ∧ s.yz.carries p = true) →
        ¬(isPtp b = true ∧ bit s.net.ptp.ports p = true) →
        (x.ruleFor b = none → bit x.ctrl 5 = false → exec (.frameReceive t p b good) s = .next
          ((s.arrive t).setPort p { x with rxNoMatch := x.rxNoMatch + 1 })) ∧
        (x.ruleFor b = none → bit x.ctrl 5 = true → exec (.frameReceive t p b good) s = .next
          ((s.arrive t).storeRecord p (fld x.ctrl 8 8) ((s.stream (fld x.ctrl 8 8)).record b t p 31))) ∧
        (∀ i r, x.ruleFor b = some (i, r) → exec (.frameReceive t p b good) s = .next
          (if bit r.ctrl 6 then (s.arrive t).setPort p { x with rxNoMatch := x.rxNoMatch + 1 }
           else (s.arrive t).storeRecord p (fld r.ctrl 8 8) ((s.stream (fld r.ctrl 8 8)).record b t p i)))))) ∧
  (∀ (x : Port) (b : List Byte) (i : Nat) (r : Rule), x.ruleFor b = some (i, r) → i < 32 ∧ bit r.ctrl 0 = true ∧ r.hits b = true ∧
    ∀ q ∈ x.rules.takeWhile (fun q => q ≠ (i, r)), 32 ≤ q.1 ∨ bit q.2.ctrl 0 = false ∨ q.2.hits b = false) ∧
  (∀ (s : State) (p r : Nat) (l : List Byte) (x : Stream), x = s.stream r →
    (x.st = .enabled → x.held + l.length ≤ x.quota * 16384 → ∃ u, s.storeRecord p r l = u ∧ u.stream r = { x with recs := x.recs ++ [l] } ∧
      (u.port p).rxOk = (s.port p).rxOk + 1 ∧ (u.port p).rxDrop = (s.port p).rxDrop ∧ ∀ j, j ≠ r → u.stream j = s.stream j) ∧
    ((x.st ≠ .enabled ∨ x.quota * 16384 < x.held + l.length) → ∃ u, s.storeRecord p r l = u ∧ u.stream r = { x with drop := satInc x.drop } ∧
      (u.port p).rxOk = (s.port p).rxOk ∧ (u.port p).rxDrop = (s.port p).rxDrop + 1 ∧ u.chans = s.chans)) ∧
  (∀ (t : Time) (p : Fin 16) (s s1 : State), s.up = true → s1 = (s.arrive t).setPort p { s.port p with onWire := none } →
    ((s.port p).st ≠ .enabled ∨ (s.port p).link = false ∨ s1.nextFrame p = none → exec (.frameTransmit t p) s = .next s1) ∧
    (∀ n, (s.port p).st = .enabled → (s.port p).link = true → s1.nextFrame p = some n →
      exec (.frameTransmit t p) s = .next (s1.startFrame p n)) ∧
    (∀ k, s1.nextFrame p = some (.ptp k) ↔ (s.port p).ptpOut.find? (fun k => !s1.holdsBack p (s1.ptpBytes p k).length) = some k) ∧
    ((∀ k ∈ (s.port p).ptpOut, s1.holdsBack p (s1.ptpBytes p k).length = true) →
      (∀ n f, (s.port p).cycOut = some (n, f) → s1.cyclicReady p = true → s1.nextFrame p = some (.cyclic f)) ∧
      (∀ came f l, s1.cyclicReady p = false → (s.port p).yzOut = (came, f) :: l → s1.nextFrame p = some (.yazen came.isNone f)) ∧
      (∀ (q : Nat) f l, q < 4 → s1.cyclicReady p = false → (s.port p).yzOut = [] → s.yz.ring p = none →
        (s.txq (4 * p + q)).frames = f :: l → s1.holdsBack p (sealFrame f).length = false →
        (∀ r, q < r → r < 4 → (s.txq (4 * p + r)).frames = []) → s1.nextFrame p = some (.queue q f)))) ∧
  (∀ (s : State) (p q : Nat) (f : List Byte) (l : List (List Byte)), (s.txq (4 * p + q)).frames = f :: l →
    ∃ u, s.startFrame p (.queue q f) = u ∧ (u.txq (4 * p + q)).frames = l ∧ (u.port p).onWire = some q ∧
      (u.port p).txOk = (s.port p).txOk + 1 ∧ u.out = s.out ++ [.frame p (sealFrame f)]) ∧
  (∀ f : List Byte, sealFrame f = f ++ List.replicate (60 - f.length) 0 ++
    leBytes 4 (crc32 (f ++ List.replicate (60 - f.length) 0)).toNat ∧ (sealFrame f).length = max 60 f.length + 4)

/-! ## PTP and the Yazen line domain (11_ports_line_domain.md) -/

/-- R391, R393, R394: a Sync from the master judges the lock (16 good in a row lock, 4 others in a row unlock), and steps the map by the whole offset
from 1 µs on, clearing the history of every MIRROR cell, or gives it a new rate (free, log 2), the line time running on without a step; an Announce is
decided by the best master clock algorithm (free, log 2), and SLAVE_ONLY never becomes master; a request is answered where the part answers it, any
other message is counted. At its interval a master sends Sync and Announce, a slave its request; log 26: a clock that hears no master becomes one.
R394: HOLDOVER of a lost master reports source 128 and leaves the map. -/
def Obligations.PtpKeepsLineTime : Prop :=
  (∀ (t : Time) (p : Fin 16) (msg : PtpMsg) (s : State), s.up = true → s.ptpOn p = false → exec (.ptpMessageRx t p msg) s = .next (s.arrive t)) ∧
  (∀ (q : Ptp) (o : Int), (o.natAbs < 800 → q.judge o = { q with
      offset := satOffset o, good := q.good + 1, bad := 0, locked := q.locked || decide (16 ≤ q.good + 1) }) ∧
    (800 ≤ o.natAbs → q.judge o = { q with
      offset := satOffset o, good := 0, bad := q.bad + 1, locked := q.locked && decide (q.bad + 1 < 4) })) ∧
  (∀ (t : Time) (p : Fin 16) (o : Int) (s : State) (q : Ptp), s.up = true → s.ptpOn p = true → q = s.net.ptp →
    ((q.role ≠ 2 ∨ q.slavePort.toNat ≠ p) → exec (.ptpMessageRx t p (.sync o)) s = .next (s.arrive t)) ∧
    (q.role = 2 → q.slavePort.toNat = p → 8000 ≤ o.natAbs → ∃ u, exec (.ptpMessageRx t p (.sync o)) s = .next u ∧
      u.net.ptp = { q.judge o with lt0 := q.line (max s.now t) - o, d0 := max s.now t, stepped := true } ∧
      u.net.ptp.line u.now = q.line u.now - o ∧
      (∀ n, (s.cell n).mode = 7 → (s.cell n).en = true → (s.cell n).est ≠ .lost → (u.cell n).hist = [] ∧ (u.cell n).est = .idle) ∧
      (∀ n, (s.cell n).mode ≠ 7 → u.cell n = s.cell n)) ∧
    (q.role = 2 → q.slavePort.toNat = p → o.natAbs < 8000 → ∃ u, exec (.ptpMessageRx t p (.sync o)) s = .next u ∧
      u.net.ptp = { q.judge o with lt0 := q.line (max s.now t), d0 := max s.now t, rate := Config.servoRate s.free q.rate o } ∧
      u.net.ptp.line u.now = q.line u.now ∧ u.axes = s.axes)) ∧
  (∀ (t : Time) (p : Fin 16) (d : List Byte) (s : State) (q : Ptp) (n : Nat), s.up = true → s.ptpOn p = true → q = s.net.ptp →
    n = Config.bestMaster s.free p d → ∃ u, exec (.ptpMessageRx t p (.announce d)) s = .next u ∧
      (n = 0 → u.net.ptp.role = 2 ∧ u.net.ptp.slavePort = BitVec.ofNat 4 p ∧
        (q.role ≠ 2 ∨ q.slavePort.toNat ≠ p → u.net.ptp.good = 0 ∧ u.net.ptp.bad = 0 ∧ u.net.ptp.locked = false)) ∧
      (n = 1 → u.net.ptp = { q with role := if bit q.ctrl 3 then 0 else 1 }) ∧
      (n = 2 → u.net.ptp = { q with role := if bit q.ctrl 3 then 0 else 4 }) ∧ (2 < n → u.net.ptp = q)) ∧
  (∀ (t : Time) (p : Fin 16) (s : State) (q : Ptp) (send : Nat → State → State), s.up = true → s.ptpOn p = true → q = s.net.ptp →
    (∀ k x, send k x = x.setPort p { x.port p with ptpOut := (x.port p).ptpOut ++ [k] }) →
    exec (.ptpMessageRx t p .delay) s = .next (if q.peer = false ∧ q.masterOn p = true then send 3 (s.arrive t) else s.arrive t) ∧
    exec (.ptpMessageRx t p .pdelay) s = .next (if q.peer = true then send 4 (s.arrive t) else s.arrive t) ∧
    (∀ msg, (msg = PtpMsg.management ∨ msg = PtpMsg.unsupported) → ∃ u, exec (.ptpMessageRx t p msg) s = .next u ∧
      u.net.ptp = { q with discard := q.discard + 1 } ∧ u.net.ports = s.net.ports) ∧
    exec (.ptpMessageTx t p .delayReq) s = .next
      (if q.peer = true ∨ q.role = 2 ∧ q.slavePort.toNat = p then send 2 (s.arrive t) else s.arrive t) ∧
    exec (.ptpMessageTx t p .sync) s = .next (if q.masterOn p = true then send 0 (s.arrive t) else s.arrive t) ∧
    (q.masterOn p = true → exec (.ptpMessageTx t p .announce) s = .next (send 1 (s.arrive t))) ∧
    (q.masterOn p = false → q.role = 0 → bit q.ctrl 3 = false → ∃ u, exec (.ptpMessageTx t p .announce) s = .next u ∧
      u.net.ptp = { q with role := 1 } ∧ (u.port p).ptpOut = (s.port p).ptpOut ++ [1])) ∧
  (∀ (t : Time) (s : State), s.up = true →
    (bit s.net.ptp.ctrl 0 = true → s.net.ptp.role = 2 → ∃ u, exec (.holdover t) s = .next u ∧ u.net.ptp = { s.net.ptp with role := 3 } ∧
      u.fc.raised.getLsbD 128 = true) ∧
    (bit s.net.ptp.ctrl 0 = false ∨ s.net.ptp.role ≠ 2 → exec (.holdover t) s = .next (s.arrive t)))

/-- R398, R399, R402, R407: a cycle's start sets YZ_CYCLE and sends a CREDIT frame on each ring port; its snapshot copies the exported cells' samples
and the owned slots, and clears every RELOAD of a cell; at its transmit instant, while the part keeps line time, the CYCLIC frame waits at every Yazen
port. R23, R402: an own CYCLIC frame of an earlier cycle is dropped and counted, in either topology. R405: GO sends a line stop, of REASON 0x00 with
CFG_REJ where the reason is 0x01 or reserved: STOP_SEQ goes up, one frame waits at every enabled Yazen port, and two repeats 10 µs apart are owed. R7: a
write without GO and with a reserved REASON changes CFG_REJ alone. -/
def Obligations.TheYazenCycleAndItsLineStops : Prop :=
  (∀ (t : Time) (s a : State), s.up = true → a = s.arrive t →
    (s.yz.en = false ∨ a.inCycle = true → exec (.cycleStart t) s = .next a) ∧
    (s.yz.en = true → a.inCycle = false → ∃ u, exec (.cycleStart t) s = .next u ∧ u.yz.cycle = BitVec.ofNat 32 a.cycleNow ∧
      (∀ d, d = (BitVec.ofNat 32 a.cycleNow - s.yz.cycle).toNat → d < 2 ^ 31 → u.yz.begun = s.yz.begun + d) ∧
      u.inCycle = true ∧ (s.yz.chain = false → u.net.ports = s.net.ports) ∧
      (s.yz.chain = true → s.yz.ringA ≠ s.yz.ringB → (s.port s.yz.ringA).st = .enabled → (u.port s.yz.ringA).yzOut =
        (s.port s.yz.ringA).yzOut ++ [(none, s.yzEther s.yz.ringA (s.yzHeader 3 0 0 s.yz.freedA 0 0))]))) ∧
  (∀ (t : Time) (s a : State), s.up = true → a = s.arrive t →
    (a.inCycle = false ∨ s.yz.snapIn = some a.cycleNow ∨ a.lineNow.toNat + 8000 < a.cycleAt + s.yz.ofs → exec (.snapshot t) s = .next a) ∧
    (a.inCycle = true → s.yz.snapIn ≠ some a.cycleNow → a.cycleAt + s.yz.ofs ≤ a.lineNow.toNat + 8000 → ∃ u, exec (.snapshot t) s = .next u ∧
      u.yz = { s.yz with
        snapIn := some a.cycleNow, nAx := s.yz.exports.length, nSlot := s.yz.ownList.length,
        body := s.yz.exports.flatMap (fun n => a.axisSample n) ++
          s.yz.ownList.flatMap (fun r => BitVec.ofNat 8 r :: List.replicate 7 0 ++ s.yz.slotData r) } ∧
      (∀ n, u.cell n = { s.cell n with reload := false }) ∧ u.net.ports = s.net.ports)) ∧
  (∀ (t : Time) (s a : State), s.up = true → a = s.arrive t →
    (a.inCycle = false ∨ a.synced = false ∨ s.yz.snapIn ≠ some a.cycleNow ∨ s.yz.sentIn = some a.cycleNow ∨
      a.lineNow.toNat < a.cycleAt + s.yz.ofs → exec (.cyclic t) s = .next a) ∧
    (a.inCycle = true → a.synced = true → s.yz.snapIn = some a.cycleNow → s.yz.sentIn ≠ some a.cycleNow →
      a.cycleAt + s.yz.ofs ≤ a.lineNow.toNat → ∃ u, exec (.cyclic t) s = .next u ∧ u.yz.sentIn = some a.cycleNow ∧ ∀ p < 16,
        (s.yz.carries p = true → s.yz.chain = true ∨ (s.port p).st = .enabled ∧ (s.port p).link = true →
          (u.port p).cycOut = some (a.cycleNow, s.yzEther p (s.yzHeader 1 255 s.yz.cycle.toNat 0 s.yz.nAx s.yz.nSlot ++ s.yz.body))) ∧
        (s.yz.carries p = false → u.port p = s.port p))) ∧
  (∀ (t : Time) (p : Fin 16) (s : State), s.up = true →
    ((s.port p).cycOut = none → exec (.ownFrameDrop t p) s = .next (s.arrive t)) ∧
    (∀ k f, (s.port p).cycOut = some (k, f) → (k = (s.arrive t).cycleNow → exec (.ownFrameDrop t p) s = .next (s.arrive t)) ∧
      (k ≠ (s.arrive t).cycleNow → ∃ u, exec (.ownFrameDrop t p) s = .next u ∧ u.port p = { s.port p with cycOut := none } ∧
        u.yz = { s.yz with txDrop := s.yz.txDrop + 1 } ∧ ∀ j, j ≠ p.val → u.port j = s.port j))) ∧
  (∀ (s : State) (q r : Byte) (p : Nat), p < 16 → (s.stopFrames q r).port p = if s.yz.carries p = true ∧ (s.port p).st = .enabled then
    { s.port p with yzOut := (s.port p).yzOut ++ [(none, s.yzEther p (s.yzHeader 2 255 0 0 r.toNat q.toNat))] } else s.port p) ∧
  (∀ (t : Time) (m : Ident) (v : Word) (s : State) (y : Yazen) (r : Byte), s.serves (yzOfs + 0x1A0) = true →
    r = (if 0 < fld v 0 8 ∧ fld v 0 8 < 0x80 then 0 else BitVec.ofNat 8 (fld v 0 8)) →
    y = { s.yz with
      stop := wAt 0 (fld v 0 8), cfgRej := s.yz.cfgRej || (bit v 8 && decide (0 < fld v 0 8) && decide (fld v 0 8 < 0x80)) } →
    (bit v 8 = false → 1 < fld v 0 8 → fld v 0 8 < 0x80 → exec (.lineStop t m v) s = .next ((s.arrive t).setYz { s.yz with cfgRej := true })) ∧
    (bit v 8 = false ∧ (fld v 0 8 ≤ 1 ∨ 0x80 ≤ fld v 0 8) ∨ bit v 8 = true ∧ s.yz.en = false → exec (.lineStop t m v) s = .next ((s.arrive t).setYz y)) ∧
    (bit v 8 = true → s.yz.en = true → (s.yz.stops.any fun x => x.2.2.1 = 1 && cyc x.2.2.2 = cyc (max s.now t)) = false →
      exec (.lineStop t m v) s = .next (((s.arrive t).setYz { y with
        stopSeq := y.stopSeq + 1, stops := y.stops ++ [(2, y.stopSeq + 1, r, max s.now t)] }).stopFrames (y.stopSeq + 1) r))) ∧
  (∀ (t : Time) (s : State) (n : Nat) (q r : Byte) (a : Time) (w l : List (Nat × Byte × Byte × Time)), s.up = true →
    s.yz.stops = w ++ (n, q, r, a) :: l → (∀ x ∈ w, max s.now t < x.2.2.2 + 80000 * (3 - x.1)) → a + 80000 * (3 - n) ≤ max s.now t →
    s.yz.en = true → exec (.lineStopRepeat t) s = .next
      (((s.arrive t).setYz { s.yz with stops := w ++ if n ≤ 1 then l else (n - 1, q, r, a) :: l }).stopFrames q r)) ∧
  (∀ (t : Time) (s : State), s.up = true → (∀ x ∈ s.yz.stops, max s.now t < x.2.2.2 + 80000 * (3 - x.1)) →
    exec (.lineStopRepeat t) s = .next (s.arrive t))

/-- R397, R400 to R402, R404, R406, R408: the oldest frame handed to the engine is forwarded with one hop less where its ring needs it, and then taken
by its type: one of another version or a reserved type is counted in YZ_BAD, one of another line in YZ_FOREIGN; a CYCLIC frame outside YZ_SUB or
without line time is ignored, one of another cycle counted in YZ_LATE_RX, a copy in YZ_DUP, and any other applied, raising core source 676; the first
copy of a line stop latches its source and reason and reports source 130; a CREDIT frame returns the credits freed since the last. R23, R401: a forwarded frame
that has waited two cycles is dropped, a line stop as any other. -/
def Obligations.YazenFramesAreTakenByType : Prop :=
  (∀ (t : Time) (s : State), s.up = true → s.yz.inbox = [] → exec (.yazenFrameRx t) s = .next (s.arrive t)) ∧
  (∀ (t : Time) (s s1 : State) (p : Nat) (a : Time) (f h : List Byte) (l : List (Nat × Time × List Byte)), s.up = true →
    s.yz.inbox = (p, a, f) :: l → h = yzHead f → s1 = ((s.arrive t).setYz { s.yz with inbox := l }).yzForward p a f →
    ((num h 0 1 % 16 ≠ 1 ∨ yzType h = 0 ∨ 3 < yzType h) → exec (.yazenFrameRx t) s = .next (s1.setYz { s1.yz with bad := s1.yz.bad + 1 })) ∧
    (num h 0 1 % 16 = 1 →
      (yzType h ≠ 0 → yzType h ≤ 3 → num h 4 4 ≠ s.lineId → exec (.yazenFrameRx t) s = .next
        (s1.setYz { s1.yz with foreign := s1.yz.foreign + 1 })) ∧
      (num h 4 4 = s.lineId → (yzType h = 1 → exec (.yazenFrameRx t) s = .next (s1.cyclicRx h)) ∧
        (yzType h = 2 → exec (.yazenFrameRx t) s = .next (s1.lineStopRx h)) ∧
        (yzType h = 3 → exec (.yazenFrameRx t) s = .next (s1.creditRx p h))))) ∧
  (∀ (s : State) (p : Nat) (a : Time) (f : List Byte) (b : Bool), (s.yz.ring p = none → s.yzForward p a f = s) ∧
    (s.yz.ring p = some b → s.forwards f = true → yzType (yzHead f) ≠ 2 → (s.yz.fwdOf (!b)).length < 16 →
      (s.yzForward p a f).yz.fwdOf (!b) = s.yz.fwdOf (!b) ++ [(a, hopped f)] ∧ (s.yzForward p a f).yz.fwdOf b = s.yz.fwdOf b) ∧
    (s.yz.ring p = some b → s.forwards f = true → yzType (yzHead f) ≠ 2 → 16 ≤ (s.yz.fwdOf (!b)).length →
      (s.yzForward p a f).yz.fwdDrop = s.yz.fwdDrop + 1 ∧ (s.yzForward p a f).yz.fwdOf (!b) = s.yz.fwdOf (!b)) ∧
    (s.yz.ring p = some b → s.forwards f = true → yzType (yzHead f) = 2 → s.yzForward p a f = s.yzSend (s.yz.portOf (!b)) (some a) (hopped f)) ∧
    (s.yz.ring p = some b → s.forwards f = false → s.yzForward p a f = if yzType (yzHead f) = 1 then s.freeSlot b else s)) ∧
  (∀ (s : State) (h : List Byte) (k : Nat), (s.yz.chain = true ∨ yzSrc h ≠ s.node) → k = num h 8 4 →
    ((s.synced = false ∨ bit (tget 0 s.yz.sub (yzSrc h / 32)) (yzSrc h % 32) = false) → s.cyclicRx h = s) ∧
    (s.synced = true → bit (tget 0 s.yz.sub (yzSrc h / 32)) (yzSrc h % 32) = true →
      (k ≠ s.yz.cycle.toNat → k ≠ (s.yz.cycle - 1).toNat → s.cyclicRx h = s.setYz { s.yz with lateRx := s.yz.lateRx + 1 }) ∧
      (k = s.yz.cycle.toNat ∨ k = (s.yz.cycle - 1).toNat →
        (s.yz.seenCyc.contains (yzSrc h, k) = true → s.cyclicRx h = s.setYz { s.yz with dup := s.yz.dup + 1 }) ∧
        (∀ n x, s.yz.seenCyc.contains (yzSrc h, k) = false → n = min 8 (num h 14 1 % 16) → x = (s.setYz { s.yz with
            rxOk := s.yz.rxOk + 1,
            seenCyc := (yzSrc h, k) :: s.yz.seenCyc.filter fun p => p.2 = s.yz.cycle.toNat || p.2 = (s.yz.cycle - 1).toNat }).applySamples
              (yzSrc h) ((List.range n).map (sampleOf h)) →
          s.cyclicRx h = (((List.range (min 16 (num h 15 1))).map fun i => slice h (16 + 24 * n + 72 * i) 72).foldl
            (fun (x : State) b => x.setYz (x.yz.slotRx (yzSrc h) (num b 0 1) (b.drop 8))) x).cicEdge 676)))) ∧
  (∀ (y : Yazen) (src r : Nat) (d : List Byte) (c : SlotCopy), c = tget {} y.slots r →
    (c.seen = true → c.node < src → y.begun - c.cycle ≤ 2 → y.slotRx src r d = { y with slotConflict := true }) ∧
    ((c.seen = false ∨ src ≤ c.node ∨ 2 < y.begun - c.cycle) → tget {} (y.slotRx src r d).slots r =
      { data := d, node := src, cycle := y.begun, seen := true } ∧ ∀ j, j ≠ r → tget {} (y.slotRx src r d).slots j = tget {} y.slots j)) ∧
  (∀ (s : State) (n : Nat) (x : AxisSample), (x.valid = false → s.mirrorSample n x = (s, [])) ∧
    (x.valid = true → (x.reload = true ∨ (s.cell n).mirPrev = none) → (s.mirrorSample n x).2 = [] ∧
      (((s.mirrorSample n x).1.cell n).phase.toNat : Int) = (x.count.toInt + (s.cell n).ofs.toInt) % (s.cell n).modN ∧
      ((s.mirrorSample n x).1.cell n).turn = BitVec.ofInt 48 ((x.count.toInt + (s.cell n).ofs.toInt) / (s.cell n).modN) ∧
      ((s.mirrorSample n x).1.cell n).mirPrev = some x.count ∧ ((s.mirrorSample n x).1.cell n).reload = true)) ∧
  (∀ (s : State) (h : List Byte), (s.yz.seenStop.contains (yzSrc h, num h 15 1) = true → s.lineStopRx h = s.setYz { s.yz with dup := s.yz.dup + 1 }) ∧
    (s.yz.seenStop.contains (yzSrc h, num h 15 1) = false → (s.lineStopRx h).yz.rxOk = s.yz.rxOk + 1 ∧
      (s.lineStopRx h).yz.stopRx = wAt 0 (yzSrc h) ||| wAt 16 (num h 14 1) ||| wAt 24 (num h 15 1) ∧
      (s.lineStopRx h).fc.raised = s.fc.raised ||| BitVec.ofNat 256 (1 <<< 130))) ∧
  (∀ (s : State) (p : Nat) (h : List Byte), s.yz.ring p = some false → (s.creditRx p h).yz = { s.yz with
    rxOk := s.yz.rxOk + 1, creditA := min 16 (s.yz.creditA + (BitVec.ofNat 16 (num h 12 2) - s.yz.heardA).toNat),
    heardA := BitVec.ofNat 16 (num h 12 2) }) ∧
  (∀ (t : Time) (b : Bool) (s : State) (p : Nat) (a : Time) (f : List Byte) (w l : List (Option Time × List Byte)), s.up = true →
    p = s.yz.portOf b → (s.port p).yzOut = w ++ (some a, f) :: l → a + 2 * s.tCyc ≤ max s.now t →
    (∀ x ∈ w, ∀ c, x.1 = some c → max s.now t < c + 2 * s.tCyc) → ∃ u, exec (.forwardDrop t b) s = .next u ∧
      u.port p = { s.port p with yzOut := w ++ l } ∧ u.yz = { s.yz with fwdDrop := s.yz.fwdDrop + 1 }) ∧
  (∀ (t : Time) (b : Bool) (s : State) (a : Time) (f : List Byte) (l : List (Time × List Byte)), s.up = true →
    (∀ x ∈ (s.port (s.yz.portOf b)).yzOut, ∀ c, x.1 = some c → max s.now t < c + 2 * s.tCyc) → s.yz.fwdOf b = (a, f) :: l → ∃ u, exec (.forwardDrop t b) s = .next u ∧
      (a + 2 * s.tCyc ≤ max s.now t → u.yz.fwdOf b = l ∧ u.yz.fwdDrop = s.yz.fwdDrop + 1) ∧ (max s.now t < a + 2 * s.tCyc → u = s.arrive t))

/-! ## Interrupts, mailboxes, the Understory (12_interrupts_mailboxes.md) -/

/-- R419: the message of the lowest pending unmasked vector leaves, and its pending bit clears; one a cycle, and none while messages are shut off. R423 to R425: a
pending source, neither BOUND nor ACTIVE, of a PRIO above 0 is BOUND to its lowest eligible core, or with ANY_OF to the first after RR; software sets
and clears PEND. R426, R428: core k's claim takes its BOUND source of the highest PRIO, the lowest number among equals, and makes it ACTIVE; its
completion ends ACTIVE, and any other number sets BAD_COMPLETE; another identity claims and completes nothing. -/
def Obligations.InterruptsAreDeliveredOnce : Prop :=
  (∀ (t : Time) (s : State), s.up = true →
    ((s.irq.open_ = false ∨ s.irq.msiAt = some (cyc (max s.now t)) ∨ ∀ v, (s.vec v).pend = true → bit (s.vec v).ctrl 0 = true) → s.irq.vecs.Pairwise (fun a b => a.1 < b.1) →
      exec (.msixIssue t) s = .next (s.arrive t)) ∧
    (∀ v, s.irq.open_ = true → s.irq.msiAt ≠ some (cyc (max s.now t)) → s.irq.vecs.Pairwise (fun a b => a.1 < b.1) → (s.vec v).pend = true → bit (s.vec v).ctrl 0 = false →
      (∀ j < v, (s.vec j).pend = true → bit (s.vec j).ctrl 0 = true) → exec (.msixIssue t) s = .next
        (({ (s.arrive t).setVec v { s.vec v with pend := false } with irq.msiAt := some (cyc (max s.now t)) } : State).emit
          (.msi (BitVec.ofNat 64 ((s.vec v).addrLo.toNat + (s.vec v).addrHi.toNat * 2 ^ 32)) (s.vec v).data)))) ∧
  (∀ (t : Time) (i : Fin 1024) (s : State) (c : CicSrc), s.up = true → c = s.cic i →
    ((s.cicPend i = false ∨ c.bound = true ∨ c.active = true ∨ c.prio = 0 ∨ ∀ k < 4, s.cicEligible c k = false) →
      exec (.cicDeliver t i) s = .next (s.arrive t)) ∧
    (∀ k < 4, s.cicPend i = true → c.bound = false → c.active = false → c.prio ≠ 0 → s.cicEligible c k = true →
      (c.anyOf = false → (∀ j < k, s.cicEligible c j = false) → ∃ u, exec (.cicDeliver t i) s = .next u ∧
        u.cic i = { c with pend := false, bound := true, core := k } ∧ ∀ j, j ≠ i.val → u.cic j = s.cic j) ∧
      (∀ d, c.anyOf = true → 1 ≤ d → d ≤ 4 → k = (c.rr + d) % 4 → (∀ e, 1 ≤ e → e < d → s.cicEligible c ((c.rr + e) % 4) = false) →
        ∃ u, exec (.cicDeliver t i) s = .next u ∧ u.cic i = { c with pend := false, bound := true, core := k, rr := k } ∧
          ∀ j, j ≠ i.val → u.cic j = s.cic j))) ∧
  (∀ (t : Time) (m : Ident) (w : Fin 32) (v : Word) (s : State),
    (s.serves (cicOfs + 0x1000 + 4 * w) = true → ∃ u, exec (.cicPendWrite t m w v) s = .next u ∧ ∀ j, u.cic j =
      if j / 32 = w ∧ bit v (j % 32) = true ∧ cicReserved j = false then { s.cic j with pend := true } else s.cic j) ∧
    (s.serves (cicOfs + 0x1080 + 4 * w) = true → ∃ u, exec (.cicPclrWrite t m w v) s = .next u ∧ ∀ j, u.cic j =
      if j / 32 = w ∧ bit v (j % 32) = true ∧ (s.cic j).bound = false then { s.cic j with pend := false } else s.cic j)) ∧
  (∀ (t : Time) (m : Ident) (k : Fin 4) (s : State), s.serves (cicCoreOfs k + 4) = true → s.irq.srcs.Pairwise (fun a b => a.1 < b.1) →
    ((m ≠ coreId k ∨ ∀ i, (s.cic i).bound = true → (s.cic i).core ≠ k) → exec (.cicClaim t m k) s = .next ((s.arrive t).reply 0)) ∧
    (∀ i, m = coreId k → (s.cic i).bound = true → (s.cic i).core = k →
      (∀ j, (s.cic j).bound = true → (s.cic j).core = k → (s.cic j).prio < (s.cic i).prio ∨ (s.cic j).prio = (s.cic i).prio ∧ i ≤ j) →
      exec (.cicClaim t m k) s = .next (((s.arrive t).setCic i { s.cic i with bound := false, active := true }).reply
        (wAt 0 i ||| flag 15 true ||| flag 16 (s.cicLive i) ||| flag 17 (cicLevel i))))) ∧
  (∀ (t : Time) (m : Ident) (k : Fin 4) (v : Word) (s : State) (c : CicSrc), s.serves (cicCoreOfs k + 8) = true → c = s.cic (fld v 0 10) →
    (m ≠ coreId k → exec (.cicComplete t m k v) s = .next (s.arrive t)) ∧
    (m = coreId k → c.active = true → c.core = k → exec (.cicComplete t m k v) s = .next
      ((s.arrive t).setCic (fld v 0 10) { c with active := false })) ∧
    (m = coreId k → (c.active = false ∨ c.core ≠ k) → exec (.cicComplete t m k v) s = .next
      { s.arrive t with irq := { s.irq with badComplete := s.irq.badComplete ||| BitVec.ofNat 4 (1 <<< k.val) } }))

/-- R440 to R444: an access by neither side counts FOREIGN; a send while one is out sets TX_REJ; GO puts the eight composed words into the slot toward
the other side, which sees a message and its event, or ends at once UNBOUND or RECEIVER_RESET; an acknowledgement of a message empties its slot and
gives the sender ACKED with the code, and any other sets RX_REJ; TIMEOUT is set that many ms after the send. R438, R439: a changed binding discards
both slots, and what bursts have reserved of them (R216); a binding it may not hold, or a locked table, sets CFG_REJ. -/
def Obligations.MailboxesCarryOneMessageEachWay : Prop :=
  (∀ (t : Time) (m : Ident) (b : Fin 64) (v : Word) (s : State), s.serves (mbOfs b + 0x20) = true →
    ((s.mb b).side m = none → exec (.mbSend t m b v) s = .next
      { s.arrive t with mbox := { s.mbox with foreign := satInc s.mbox.foreign } }) ∧
    (∀ a, (s.mb b).side m = some a →
      (((s.mb b).dir a).busy = true → exec (.mbSend t m b v) s = .next
        ((s.arrive t).setMb b ((s.mb b).setDir a { (s.mb b).dir a with txRej := true }))) ∧
      (((s.mb b).dir a).busy = false → exec (.mbSend t m b v) s = .next (if bit v 0 then (s.arrive t).mbSend b a else s.arrive t)))) ∧
  (∀ (s : State) (b : Nat) (a : Bool) (d : MbDir) (o : Ident), d = (s.mb b).dir a → o = (s.mb b).idOf (!a) → d.busy = false →
    ∃ u, s.mbSend b a = u ∧ (u.mb b).dir (!a) = (s.mb b).dir (!a) ∧ (u.mb b).bind = (s.mb b).bind ∧ (∀ j, j ≠ b → u.mb j = s.mb j) ∧
      (o = 0 → (u.mb b).dir a = { d with acked := true, timeout := false, rc := 0xFF01 }) ∧
      (o ≠ 0 → s.sideHeld o = true → (u.mb b).dir a = { d with acked := true, timeout := false, rc := 0xFF00 }) ∧
      (o ≠ 0 → s.sideHeld o = false →
        (u.mb b).dir a = { d with
          busy := true, acked := false, timeout := false, rc := 0, sentAt := s.now, msg := true, gone := false,
          slot := (List.range 8).map fun i => tget 0 d.tx i } ∧
        (o = 0x01 → bit (s.mb b).note 11 = true → (u.vec (fld (s.mb b).note 0 11)).pend = true) ∧
        (o.toNat / 16 = 1 → b < 64 → u.cicLive (544 + b) = true))) ∧
  (∀ (t : Time) (m : Ident) (b : Fin 64) (v : Word) (s : State), s.serves (mbOfs b + 0x60) = true →
    ((s.mb b).side m = none → exec (.mbAck t m b v) s = .next
      { s.arrive t with mbox := { s.mbox with foreign := satInc s.mbox.foreign } }) ∧
    (∀ a d, (s.mb b).side m = some a → d = (s.mb b).dir (!a) → ∃ u, exec (.mbAck t m b v) s = .next u ∧
      (u.mb b).dir a = (s.mb b).dir a ∧ (∀ j, j ≠ b.val → u.mb j = s.mb j) ∧
      (d.msg = false ∨ 0x8000 ≤ fld v 0 16 → (u.mb b).dir (!a) = { d with rxRej := true }) ∧
      (d.msg = true → fld v 0 16 < 0x8000 → d.gone = true → (u.mb b).dir (!a) =
        { d with busy := false, msg := false, slot := [], rc := 0, gone := false }) ∧
      (d.msg = true → fld v 0 16 < 0x8000 → d.gone = false → (u.mb b).dir (!a) =
        { d with busy := false, msg := false, slot := [], acked := true, rc := BitVec.ofNat 16 (fld v 0 16) }))) ∧
  (∀ (t : Time) (b : Fin 64) (a : Bool) (s : State) (d : MbDir), s.up = true → d = (s.mb b).dir a →
    ((d.busy = false ∨ d.gone = true ∨ d.timeout = true ∨ (s.mb b).limit = 0 ∨ max s.now t < d.sentAt + ms (s.mb b).limit) →
      exec (.mbTimeout t b a) s = .next (s.arrive t)) ∧
    (d.busy = true → d.gone = false → d.timeout = false → (s.mb b).limit ≠ 0 → d.sentAt + ms (s.mb b).limit ≤ max s.now t →
      ∃ u, exec (.mbTimeout t b a) s = .next u ∧ (u.mb b).dir a = { d with timeout := true } ∧ (u.mb b).dir (!a) = (s.mb b).dir (!a) ∧
        ∀ j, j ≠ b.val → u.mb j = s.mb j)) ∧
  (∀ (t : Time) (m : Ident) (b : Fin 64) (v : Word) (s : State), s.serves (mbTabOfs + 4 * b) = true →
    ((s.mbox.locked = true ∨ mbIdent (fld v 0 8) = false ∨ mbIdent (fld v 8 8) = false ∨ fld v 0 8 = fld v 8 8 ∧ fld v 0 8 ≠ 0) →
      exec (.mbBindWrite t m b v) s = .next { s.arrive t with mbox := { s.mbox with cfgRej := true } }) ∧
    (s.mbox.locked = false → mbIdent (fld v 0 8) = true → mbIdent (fld v 8 8) = true → (fld v 0 8 ≠ fld v 8 8 ∨ fld v 0 8 = 0) →
      exec (.mbBindWrite t m b v) s = .next (if fld (s.mb b).bind 0 16 = fld v 0 16 then (s.arrive t).setMb b { s.mb b with bind := v }
        else ({ s.arrive t with movers := { s.movers with boxes := s.movers.boxes.filter fun x => x.1 ≠ b.val } } : State).setMb b
          { s.mb b with bind := v, ab := {}, ba := {} }))) ∧
  (∀ (t : Time) (m : Ident) (v : Word) (s : State), s.serves (mbTabOfs + 0x200) = true → exec (.mbLock t m v) s = .next
    { s.arrive t with mbox := { s.mbox with locked := s.mbox.locked || bit v 0 } })

/-- R433 to R436: a request for Rest is judged in order, and an accepted one enters ENTERING with the cores that are stopped; each core's WFI stops
it, and with all four stopped the part rests, its pins at rest, once the encoder filters have judged what they sampled up to then; after 1 ms, or by a
watched event, the entry is abandoned. In Rest a watched event or
WAKE_N begins WAKING, latches its time and its entries, later ones add theirs; the wake runs again, raises core source 677, lets the cores go on and
applies a line stop received in Rest. R435: the Rest timer and 25 ms without a crossing of a mains input are such events. -/
def Obligations.RestIsEnteredAndLeft : Prop :=
  (∀ (s : State) (v : Word) (n : Nat), n = fld s.und.ctrl 0 6 →
    ((fld v 16 16 ≠ 0x7E57 ∨ fld v 1 15 ≠ 0 ∨ bit s.und.ctrl 6 = true ∧ (s.cell n).mode ≠ 1 ∧ (s.cell n).mode ≠ 3) → s.restJudge v = 2) ∧
    (fld v 16 16 = 0x7E57 → fld v 1 15 = 0 → (bit s.und.ctrl 6 = false ∨ (s.cell n).mode = 1 ∨ (s.cell n).mode = 3) →
      (s.und.st ≠ .run → s.restJudge v = 1) ∧
      (s.und.st = .run → (s.restJudge v = 0 ↔ (∀ p ∈ s.chans, p.2.st = .idle ∨ p.2.st = .halted) ∧ (∀ p ∈ s.net.ports, p.2.st = .disabled) ∧
        s.yz.en = false ∧ bit s.net.ptp.ctrl 0 = false ∧ s.lws.commit = none) ∧ (s.restJudge v ≠ 0 → s.restJudge v = 11)))) ∧
  (∀ (t : Time) (m : Ident) (v : Word) (s : State), s.serves (undBase + 4) = true →
    (bit v 0 = false → exec (.undRest t m v) s = .next (s.arrive t)) ∧
    (bit v 0 = true → s.restJudge v ≠ 0 → exec (.undRest t m v) s = .next
      { s.arrive t with und := { s.und with result := BitVec.ofNat 16 (s.restJudge v) } }) ∧
    (bit v 0 = true → s.restJudge v = 0 → ∃ u, exec (.undRest t m v) s = .next u ∧
      u.und = { s.und with st := .entering, askedAt := max s.now t, stopped := u.und.stopped } ∧
      (∀ k < 4, u.und.stopped.getLsbD k = s.coreStopped k) ∧ u.cores = s.cores)) ∧
  (∀ (t : Time) (k : Fin 4) (s : State), s.up = true → (s.core k).st = .run → (s.core k).halted = false →
    ∃ u, exec (.coreWfi t k) s = .next u ∧ u.core k = { s.core k with st := .wfi } ∧
      (s.und.st = .entering → u.und = { s.und with stopped := s.und.stopped ||| BitVec.ofNat 4 (1 <<< k.val) }) ∧
      (s.und.st ≠ .entering → u.und = s.und)) ∧
  (∀ (t : Time) (s : State), s.up = true →
    (s.und.st ≠ .entering ∨ s.und.stopped ≠ 15 → exec (.restEntry t) s = .next (s.arrive t)) ∧
    (∀ e : State, s.und.st = .entering → s.und.stopped = 15 → e = (s.arrive t).encsSettle true →
      ∃ u, exec (.restEntry t) s = .next u ∧ u.resting = true ∧
      u.und = { e.und with st := .rest, restAt := max s.now t, result := 0, wcmpArmed := bit e.und.ctrl 6 } ∧
      (∀ p, (u.pin p).onSince = none) ∧ ((∀ c, (e.chan c).timed = none) → u.mem = e.mem) ∧
      (bit e.und.ctrl 6 = true → (e.cell (fld e.und.ctrl 0 6)).en = true → (e.cell (fld e.und.ctrl 0 6)).exactMode = false →
        (u.cell (fld e.und.ctrl 0 6)).est = .idle)) ∧
    (s.und.st = .entering → s.und.stopped ≠ 15 → s.und.askedAt + 8000000 ≤ max s.now t → exec (.restEntryTimeout t) s = .next
      { s.arrive t with und := { s.und with st := .run, abandoned := true, result := 7, stopped := 0 } }) ∧
    (s.und.st ≠ .entering ∨ s.und.stopped = 15 ∨ max s.now t < s.und.askedAt + 8000000 →
      exec (.restEntryTimeout t) s = .next (s.arrive t))) ∧
  (∀ (t : Time) (s : State), s.dead = false → exec (.wakeEvent t none) s = .next ((s.arrive t).wake 0 true) ∧
    ∀ c : Byte, exec (.wakeEvent t (some c)) s = .next (if s.und.watching c.toNat = 0 then s.arrive t
      else (s.arrive t).wake (s.und.watching c.toNat) false)) ∧
  (∀ (s : State) (f : Word) (pin : Bool), (s.und.st = .run → s.wake f pin = s) ∧
    (s.und.st = .entering → s.wake f pin = { s with und := { s.und with st := .run, abandoned := true, result := 0, stopped := 0 } }) ∧
    (s.und.st = .rest → s.wake f pin = { s with und := { s.und with
      st := .waking, wake := s.und.wake ||| f, wakePin := s.und.wakePin || pin, wt := s.now / 320 * 320 } }) ∧
    (s.und.st = .waking → s.wake f pin = { s with und := { s.und with wake := s.und.wake ||| f, wakePin := s.und.wakePin || pin } })) ∧
  (∀ (t : Time) (s : State) (n : Nat), s.dead = false → n = fld s.und.timer 0 24 →
    (s.resting = true → n ≠ 0 → s.und.restAt + ms n ≤ max s.now t → exec (.undTimerExpiry t) s = exec (.wakeEvent t (some 0x70)) s) ∧
    (s.resting = false ∨ n = 0 ∨ max s.now t < s.und.restAt + ms n → exec (.undTimerExpiry t) s = .next (s.arrive t))) ∧
  (∀ (t : Time) (i : Fin 2) (s : State), s.dead = false →
    (bit (s.mainsIn i).ctrl 0 = true → (∀ l, (s.mainsIn i).lastX = some l → l + ms 25 ≤ max s.now t) →
      exec (.mainsCrossingTimeout t i) s = exec (.wakeEvent t (some (BitVec.ofNat 8 (0x10 + i)))) s) ∧
    (∀ l, bit (s.mainsIn i).ctrl 0 = false ∨ (s.mainsIn i).lastX = some l ∧ max s.now t < l + ms 25 →
      exec (.mainsCrossingTimeout t i) s = .next (s.arrive t))) ∧
  (∀ (t : Time) (s : State), s.dead = false → (s.und.st ≠ .waking → exec (.wakeComplete t) s = .next (s.arrive t)) ∧
    (∀ e : State, s.und.st = .waking → e = (s.arrive t).encsSettle false → ∃ u, exec (.wakeComplete t) s = .next u ∧
      u.und = { e.und with st := .run, stopped := 0, wcmpArmed := false, stopSeen := none } ∧ (u.cic 677).pend = true ∧
      (∀ k < 4, (u.core k).st = if (e.core k).st = .wfi then .run else (e.core k).st) ∧ u.outs.pins = e.outs.pins ∧
      (∀ n, (e.cell n).en = true → (e.cell n).exactMode = false → e.held n = false → (u.cell n).est = .idle ∧ (u.cell n).hist = []) ∧
      ((∀ c, (e.chan c).timed = none) → u.mem = e.mem ∧ (s.und.stopSeen = none → u.fc = e.fc ∧ u.yz = e.yz) ∧
        ∀ src r q, s.und.stopSeen = some (src, r, q) → u.yz.stopRx = wAt 0 src ||| wAt 16 r.toNat ||| wAt 24 q.toNat ∧
          u.fc.raised = e.fc.raised ||| BitVec.ofNat 256 (1 <<< 130))))

/-! ## Steward cores, on-chip memory, the arbiter (13_cores_memory_arbiter.md) -/

/-- R453, R454, R462, R463, R465: an access of a running core is misaligned, refused by PMP or outside every region, and traps; or it reads or writes
its TCM, or the SRAM through the uncached alias, where it waits while it would touch a locked beat; a load of a cached line takes its bytes. R468,
R470, R471: an AMO on the uncached alias writes its result and returns the old value in one locked sequence, abandoned where its read fails; LR holds a
reservation of its beat, and SC writes and returns 0 while that holds, else writes nothing and returns 1; other regions refuse them. -/
def Obligations.CoreAccessesReachTheirMemory : Prop :=
  (∀ (t : Time) (k : Fin 4) (a : Word) (op : CoreOp) (s : State), s.up = true → s.coreRuns k = true →
    (opMisaligned a.toNat op = true → exec (.coreSramAccess t k a op) s = .next ((s.arrive t).coreTrap k .misaligned a.toNat)) ∧
    (opMisaligned a.toNat op = false →
      ((s.core k).pmpOk (opAddr a.toNat op) (opWidth op) (opAccess op) = false ∨ coreRegion (opAddr a.toNat op) = .other) →
      exec (.coreSramAccess t k a op) s = .next ((s.arrive t).coreTrap k (opFault op) a.toNat))) ∧
  (∀ (s : State) (k : Nat) (x : TrapKind) (a : Nat), s.coreTrap k x a = s.setCore k { s.core k with trap := some (x, a), resv := none }) ∧
  (∀ (t : Time) (k : Fin 4) (a : Word) (n o : Nat) (v : Word) (s : State), s.up = true → s.coreRuns k = true → a.toNat % max 1 n = 0 →
    ((s.core k).pmpOk a.toNat n .read = true →
      (∀ b s1, coreRegion a.toNat = .tcm o → (s.arrive t).tcmRead k o n = (some b, s1) → exec (.coreSramAccess t k a (.load n)) s = .next
        (s1.setCore k { s1.core k with trap := none, rd := BitVec.ofNat 32 (leNat b) })) ∧
      (∀ s1, coreRegion a.toNat = .tcm o → (s.arrive t).tcmRead k o n = (none, s1) → exec (.coreSramAccess t k a (.load n)) s = .next
        (s1.coreTrap k .load a.toNat)) ∧
      (coreRegion a.toNat = .uncached o → s.beatLocked none o n = true → exec (.coreSramAccess t k a (.load n)) s = .next (s.arrive t)) ∧
      (∀ b s1, coreRegion a.toNat = .uncached o → s.beatLocked none o n = false → (s.arrive t).sramRead o n = (some b, s1) →
        exec (.coreSramAccess t k a (.load n)) s = .next (s1.setCore k { s1.core k with trap := none, rd := BitVec.ofNat 32 (leNat b) })) ∧
      (∀ l, coreRegion a.toNat = .cached o → l = s.line k false (a.toNat / 64) → l.data ≠ [] → l.bad = false → l.weak = false →
        exec (.coreSramAccess t k a (.load n)) s = .next ((s.arrive t).setCore k
          { s.core k with trap := none, rd := BitVec.ofNat 32 (num l.data (a.toNat % 64) n) }))) ∧
    ((s.core k).pmpOk a.toNat n .write = true →
      (coreRegion a.toNat = .tcm o → ∃ u, exec (.coreSramAccess t k a (.store n v)) s = .next u ∧ (u.core k).trap = none ∧
        u.mem.tcm = putBytes s.mem.tcm (tcmKey k o) (leBytes n v.toNat) ∧ u.mem.sram = s.mem.sram) ∧
      (coreRegion a.toNat = .uncached o → s.beatLocked none o n = false → ∃ u, exec (.coreSramAccess t k a (.store n v)) s = .next u ∧
        (u.core k).trap = none ∧ u.mem.sram = putBytes s.mem.sram o (leBytes n v.toNat) ∧ u.mem.tcm = s.mem.tcm ∧
        (u.core k).resv = (s.core k).resv))) ∧
  (∀ (t : Time) (k : Fin 4) (a : Word) (op : AmoOp) (v : Word) (s s1 : State) (o : Nat), s.up = true → s.coreRuns k = true → a.toNat % 4 = 0 →
    (s.core k).pmpOk a.toNat 4 .read = true → (s.core k).pmpOk a.toNat 4 .write = true →
    ((∀ o, coreRegion a.toNat ≠ .tcm o ∧ coreRegion a.toNat ≠ .uncached o) → exec (.coreAmo t k a op v) s = .next
      ((s.arrive t).coreTrap k .store a.toNat)) ∧
    (coreRegion a.toNat = .uncached o → s.beatLocked none o 4 = false →
      (∀ b, (s.arrive t).sramRead o 4 = (some b, s1) → ∃ u, exec (.coreAmo t k a op v) s = .next u ∧
        u.mem.sram = putBytes s.mem.sram o (leBytes 4 (AmoOp.apply op (BitVec.ofNat 32 (leNat b)) v).toNat) ∧
        (u.core k).rd = BitVec.ofNat 32 (leNat b) ∧ (u.core k).trap = none ∧ u.mem.locks = s.mem.locks + 1) ∧
      ((s.arrive t).sramRead o 4 = (none, s1) → ∃ u, exec (.coreAmo t k a op v) s = .next u ∧ u.mem.sram = s.mem.sram ∧
        (u.core k).trap = some (.store, a.toNat) ∧ (u.core k).lockAbandoned = true ∧ u.mem.abandons = s.mem.abandons + 1 ∧
        u.fc.raised.getLsbD (144 + k) = true))) ∧
  (∀ old v : Word, AmoOp.apply .swap old v = v ∧ AmoOp.apply .add old v = old + v ∧ AmoOp.apply .xor old v = old ^^^ v ∧
    AmoOp.apply .and old v = old &&& v ∧ AmoOp.apply .or old v = old ||| v ∧ (AmoOp.apply .min old v).toInt = min old.toInt v.toInt ∧
    (AmoOp.apply .max old v).toInt = max old.toInt v.toInt ∧ (AmoOp.apply .minu old v).toNat = min old.toNat v.toNat ∧
    (AmoOp.apply .maxu old v).toNat = max old.toNat v.toNat) ∧
  (∀ (t : Time) (k : Fin 4) (a : Word) (s s1 : State) (b : List Byte) (o : Nat), s.up = true → s.coreRuns k = true → a.toNat % 4 = 0 →
    (s.core k).pmpOk a.toNat 4 .read = true → coreRegion a.toNat = .uncached o → s.beatLocked none o 4 = false →
    (s.arrive t).sramRead o 4 = (some b, s1) → ∃ u, exec (.coreLr t k a) s = .next u ∧ (u.core k).rd = BitVec.ofNat 32 (leNat b) ∧
      (u.core k).trap = none ∧ (u.core k).resv = some (o / 64, max s.now t) ∧ u.mem.sram = s.mem.sram) ∧
  (∀ (t : Time) (k : Fin 4) (a v : Word) (s : State) (o : Nat), s.up = true → s.coreRuns k = true → a.toNat % 4 = 0 →
    (s.core k).pmpOk a.toNat 4 .write = true → coreRegion a.toNat = .uncached o → s.beatLocked none o 4 = false →
    ∃ u, exec (.coreSc t k a v) s = .next u ∧ (u.core k).resv = none ∧ (u.core k).trap = none ∧
      (∀ r, (s.core k).resv = some (o / 64, r) → max s.now t ≤ r + 2048 → (u.core k).rd = 0 ∧
        u.mem.sram = putBytes s.mem.sram o (leBytes 4 v.toNat)) ∧
      ((∀ r, (s.core k).resv = some (o / 64, r) → r + 2048 < max s.now t) → (u.core k).rd = 1 ∧ u.mem = s.mem))

/-- R455 to R457: only a core maintains its own caches, by lines of a cached region, none of which in its TCM is touched; others set CMO_REJ. Cleaning
writes changed lines back and keeps them unchanged, invalidating discards them unwritten, and the two together write and discard; the whole-cache forms
reach every line of the data cache. R458, R469: one that cleans waits while a line it writes back lies in a locked beat. -/
def Obligations.CachesAreMaintainedByTheirCore : Prop :=
  (∀ (t : Time) (m : Ident) (k : Fin 4) (v : Word) (s : State) (i : Instr) (op n : Nat) (l : List Nat), s.serves (coreOfs k + 0x10) = true →
    (i = .cleanDataLines t m k v ∧ op = 1 ∨ i = .invalidateDataLines t m k v ∧ op = 2 ∨ i = .cleanInvalidateDataLines t m k v ∧ op = 3 ∨
      i = .invalidateInstructionLines t m k v ∧ op = 4) →
    n = (s.core k).cmoAddr.toNat / 64 → l = (List.range (fld v 16 9 + 1)).map (· + n) →
    (m ≠ coreId k ∨ n + (fld v 16 9 + 1) ≤ 0x800 → exec i s = .next (s.arrive t)) ∧
    (m = coreId k → 0x800 < n + (fld v 16 9 + 1) →
      (l.all lineCached = false → exec i s = .next ((s.arrive t).setCore k { s.core k with cmoRej := true })) ∧
      (l.all lineCached = true → exec i s = .next (if op = 4 then (s.arrive t).instrLines k l
        else if op = 2 then (s.arrive t).dataLines k l false true
        else if l.any (s.backWaits k) then s.arrive t else (s.arrive t).dataLines k l true (op = 3))))) ∧
  (∀ (t : Time) (m : Ident) (k : Fin 4) (v : Word) (s : State), s.serves (coreOfs k + 0x10) = true →
    exec (.cleanWholeDataCache t m k v) s = .next (if m = coreId k ∧ ¬((s.core k).dcache.map (·.1)).any (s.backWaits k) then
      (s.arrive t).dataLines k ((s.core k).dcache.map (·.1)) true false else s.arrive t) ∧
    exec (.cleanInvalidateWholeDataCache t m k v) s = .next (if m = coreId k ∧ ¬((s.core k).dcache.map (·.1)).any (s.backWaits k) then
      (s.arrive t).dataLines k ((s.core k).dcache.map (·.1)) true true else s.arrive t)) ∧
  (∀ (s : State) (k n : Nat), s.backWaits k n = true ↔ (s.line k false n).dirty = true ∧ (s.line k false n).phy = true ∧
    s.beatLocked none (s.line k false n).addr 64 = true) ∧
  (∀ (s u : State) (k : Nat) (l : List Nat) (clean discard : Bool), u = s.dataLines k l clean discard →
    (∀ n, n ∉ l → u.line k false n = s.line k false n) ∧ (∀ n, u.line k true n = s.line k true n) ∧
    (∀ n ∈ l, discard = true → (u.line k false n).there = false) ∧
    (∀ n ∈ l, clean = true → discard = false → (s.line k false n).there = true → (s.line k false n).bad = false →
      u.line k false n = { s.line k false n with dirty := false }) ∧
    (clean = false → u.mem = s.mem ∧ u.out = s.out)) ∧
  (∀ (s u : State) (k : Nat) (l : List Nat), u = s.instrLines k l → (∀ n ∈ l, u.line k true n = {}) ∧
    (∀ n, n ∉ l → u.line k true n = s.line k true n) ∧ (∀ n, u.line k false n = s.line k false n) ∧ u.mem = s.mem) ∧
  (∀ (s : State) (k : Nat) (l : CacheLine), (l.dirty = false → s.writeBack k l = s) ∧
    (l.dirty = true → l.bad = true → s.writeBack k l = s.report (136 + k)) ∧
    (l.dirty = true → l.bad = false → l.phy = true → s.writeBack k l = s.sramWriteBy (some k) l.addr l.data) ∧
    (l.dirty = true → l.bad = false → l.phy = false → s.irq.link = true → s.writeBack k l = s.emit (.hostWrite l.addr l.data)))

/-- R473, R474: only the host, the service port and other cores put a core into reset, which it enters once its accesses have ended: its caches,
reservation and PMP are gone, its BOUND sources pend again and its ACTIVE ones end; released, it runs from CORE_RESETVEC. R472: a watchdog runs from
its enabling, is loaded again by its key, and expires with source 140 + k, resetting its core where ACTION says so. R452: MTIP follows MTIMECMP. R464:
the scrubber goes on to the next beat; memory keeps its contents. R477: TWAIT_CLR clears ARB_TWAIT. R450, R451: what the fixed control and status
registers read. -/
def Obligations.CoresResetAndTheirTimersRun : Prop :=
  (∀ (t : Time) (m : Ident) (k : Fin 4) (v : Word) (s : State), s.serves (coreOfs k) = true →
    (m ≠ coreId k → (m = 0x01 ∨ m = 0x20 ∨ m.toNat / 16 = 1) → ((s.core k).st = .run ∨ (s.core k).st = .wfi) →
      exec (.coreReset t m k v) s = .next ((s.arrive t).setCore k { s.core k with resetBit := true, st := .resetting })) ∧
    ((m = coreId k ∨ m ≠ 0x01 ∧ m ≠ 0x20 ∧ m.toNat / 16 ≠ 1 ∨ (s.core k).st = .resetting ∨ (s.core k).st = .inReset) →
      exec (.coreReset t m k v) s = .next (s.arrive t)) ∧
    ((s.core k).st = .inReset → ∃ u, exec (.coreRelease t m k v) s = .next u ∧ (u.core k).st = .run ∧ (u.core k).resetBit = false ∧
      (u.core k).pc = (s.core k).resetVec ∧ (∀ j, j ≠ k.val → u.core j = s.core j) ∧ u.irq = s.irq ∧ u.mem = s.mem) ∧
    ((s.core k).st = .resetting → exec (.coreRelease t m k v) s = .next ((s.arrive t).setCore k { s.core k with busyRej := true })) ∧
    ((s.core k).st = .run ∨ (s.core k).st = .wfi → exec (.coreRelease t m k v) s = .next (s.arrive t))) ∧
  (∀ (t : Time) (k : Fin 4) (s : State), s.up = true →
    ((s.core k).st ≠ .resetting → exec (.coreInReset t k) s = .next (s.arrive t)) ∧
    ((s.core k).st = .resetting → ∃ u, exec (.coreInReset t k) s = .next u ∧ (u.core k).st = .inReset ∧ (u.core k).dcache = [] ∧
      (u.core k).icache = [] ∧ (u.core k).resv = none ∧ (u.core k).pmpCfg = [] ∧ (u.core k).machine = true ∧ (u.core k).waits = [] ∧
      (u.core k).halted = (s.core k).halted ∧
      (u.core k).dirtyLost = ((s.core k).dirtyLost || (s.core k).dcache.any fun p => p.2.dirty) ∧ u.mem = s.mem ∧
      (∀ i, (s.cic i).bound = true → (s.cic i).core = k → cicLevel i = false → (u.cic i).bound = false ∧ (u.cic i).pend = true) ∧
      (∀ i, (s.cic i).active = true → (s.cic i).bound = false → (s.cic i).core = k → (u.cic i).active = false) ∧
      ∀ j, j ≠ k.val → u.core j = s.core j)) ∧
  (∀ (t : Time) (m : Ident) (k : Fin 4) (v w : Word) (s : State), s.serves (coreOfs k + 0x24) = true →
    w = (if fld v 8 24 = 0 then setFld (v &&& 0xFFFFFF03) 8 24 1 else v &&& 0xFFFFFF03) → ∃ u, exec (.wdCtrlWrite t m k v) s = .next u ∧
      (bit (s.core k).wdCtrl 0 = true → u.core k = { s.core k with wdCtrl := w ||| 1 }) ∧
      (bit (s.core k).wdCtrl 0 = false → bit v 0 = false → u.core k = { s.core k with wdCtrl := w }) ∧
      (bit (s.core k).wdCtrl 0 = false → bit v 0 = true → s.wdPaused k = false →
        u.core k = { s.core k with wdCtrl := w, wdActive := w, wdAt := some (max s.now t + wdPeriod w), wdLeft := none })) ∧
  (∀ (t : Time) (m : Ident) (k : Fin 4) (v : Word) (s : State), s.serves (coreOfs k + 0x28) = true →
    (m = coreId k → fld v 0 16 = 0x5A5A → bit (s.core k).wdCtrl 0 = true → s.wdPaused k = false → exec (.wdKick t m k v) s = .next
      ((s.arrive t).setCore k { s.core k with
        wdActive := (s.core k).wdCtrl, wdAt := some (max s.now t + wdPeriod (s.core k).wdCtrl), wdLeft := none })) ∧
    (m ≠ coreId k ∨ fld v 0 16 ≠ 0x5A5A ∨ bit (s.core k).wdCtrl 0 = false → exec (.wdKick t m k v) s = .next (s.arrive t))) ∧
  (∀ (t : Time) (k : Fin 4) (s : State) (x : Time), s.up = true → (s.core k).wdAt = some x →
    (max s.now t < x → exec (.watchdogExpiry t k) s = .next (s.arrive t)) ∧
    (x ≤ max s.now t → ∃ u, exec (.watchdogExpiry t k) s = .next u ∧ (u.core k).wdExpired = true ∧ u.fc.raised.getLsbD (140 + k) = true ∧
      (u.core k).wdActive = (s.core k).wdCtrl ∧
      (bit (s.core k).wdActive 1 = false → (u.core k).st = (s.core k).st ∧ (u.core k).wdResets = (s.core k).wdResets) ∧
      (bit (s.core k).wdActive 1 = true → (u.core k).st = .run ∧ (u.core k).pc = (s.core k).resetVec ∧
        (u.core k).wdResets = satInc (s.core k).wdResets))) ∧
  (∀ (t : Time) (k : Fin 4) (s : State), s.up = true → ∃ u, exec (.mtip t k) s = .next u ∧
    (u.core k).mtip = (!s.coreHeld k && decide ((s.core k).timeCmp ≤ max s.now t / 8 % 2 ^ 64)) ∧
    ((s.core k).st ≠ .wfi → u.core k = { s.core k with mtip := (u.core k).mtip }) ∧ ∀ j, j ≠ k.val → u.core j = s.core j) ∧
  (∀ (t : Time) (s : State), s.up = true →
    ((bit s.mem.scrub 0 = false ∨ max s.now t < s.mem.scrubT + ns (fld s.mem.scrub 8 24) ∨ s.beatLocked none (s.mem.scrubAt * 64) 64 = true) →
      exec (.scrubBeat t) s = .next (s.arrive t)) ∧
    (bit s.mem.scrub 0 = true → s.mem.scrubT + ns (fld s.mem.scrub 8 24) ≤ max s.now t → s.beatLocked none (s.mem.scrubAt * 64) 64 = false →
      ∃ u, exec (.scrubBeat t) s = .next u ∧ u.mem.sram = s.mem.sram ∧ u.mem.scrubT = max s.now t ∧
        (s.mem.scrubAt + 1 ≠ beatCount → u.mem.scrubAt = s.mem.scrubAt + 1 ∧ u.mem.scrubPass = s.mem.scrubPass) ∧
        (s.mem.scrubAt + 1 = beatCount → u.mem.scrubAt = 0 ∧ u.mem.scrubPass = s.mem.scrubPass + 1) ∧
        (s.badWord (s.mem.scrubAt * 64) 64 = none → ∀ w ∈ u.mem.weak, w ∉ words64 (s.mem.scrubAt * 64) 64))) ∧
  (∀ (t : Time) (m : Ident) (v : Word) (s : State), s.serves (memOfs + 0x3C) = true → exec (.arbTwaitClr t m v) s = .next
    (if bit v 0 then { s.arrive t with mem := { s.mem with twait := 0 } } else s.arrive t)) ∧
  (∀ (s : State) (k : Fin 4) (n : Fin 29), (s.csr k .mhartid).toNat = k ∧ s.csr k .misa = 0x40101105 ∧ s.csr k .mvendorid = 0 ∧
    s.csr k .marchid = 0 ∧ s.csr k .mimpid = 1 ∧ s.csr k (.mhpmcounter n) = 0 ∧
    (s.csr k .timeh).toNat * 2 ^ 32 + (s.csr k .time).toNat = s.now / 8 % 2 ^ 64)

/-! ## Fault collection and the safe state (14_faults.md) -/

/-- R483 to R488: a pair is in a wire fault once its sample has been non-complementary in two cycles; each sample, a source in a new wire fault, or newly reported, gives an event of its severity, SEVERE at least on a wire fault; the
events are taken by falling severity, then by number, and latched; one whose latch bit is 0 is recorded in the trail under the next number, and in
FC_FIRST where that is empty; others only count. R479: reaction 3 enters the safe state, 2 drains its domain, 4 resets the function. R491, R352, R359:
the safe state is entered once, with every pin at rest from the next cycle on, held while its unit drives the on level. A parity error is source 255
and sets SELF; FC_SAFE.ENTER is source 254. R493, R495: EXIT is judged in order, and one accepted in the cycle of a cause leaves SAFE set. R494: FAULT_N is driven by the safe state and by latched severities. -/
def Obligations.FaultsAreRecordedAndReactedTo : Prop :=
  (∀ (s : State) (wires : List Nat) (i : Nat), (fcReserved i = true → s.fcJudge wires i = none) ∧
    (s.fc.wired wires (cyc s.now) i = true ↔ s.fc.nonComp wires i = true ∧
      (s.fc.wireNow.getLsbD i = true ∨ ∃ k, tget none s.fc.odd i = some k ∧ k < cyc s.now)) ∧
    (s.fc.wired wires (cyc s.now) i = true →
      s.fcJudge wires i = if s.fc.wireNow.getLsbD i then none else some (s.fcEvent i true (s.fc.forced i))) ∧
    (s.fc.wired wires (cyc s.now) i = false → s.fc.nonComp wires i = true → s.fcJudge wires i = none) ∧
    (s.fc.nonComp wires i = false → s.fcJudge wires i =
      if s.fc.reports i = true ∧ s.fc.live.getLsbD i = false then some (s.fcEvent i false (s.fc.forced i)) else none) ∧
    (∀ w f, (s.fcEvent i w f).sev = if w then max 2 (s.fcSrc i).sev.toNat else (s.fcSrc i).sev.toNat)) ∧
  (∀ l : List FcEvent, (sortEvents l).Perm l ∧ (sortEvents l).Pairwise (fun a b => b.sev < a.sev ∨ a.sev = b.sev ∧ a.src ≤ b.src)) ∧
  (∀ (t : Time) (w : List (Fin 254)) (s : State) (evs : List FcEvent), s.up = true →
    evs = sortEvents ((List.range 254).filterMap ((s.arrive t).fcJudge (w.map (·.val)))) →
    ∃ s1 : State, exec (.faultEvent t w) s = .next (s1.fcEvents evs) ∧ s1 = { s.arrive t with fc := { s.fc with
        odd := s1.fc.odd, raised := s1.fc.raised, wireNow := s1.fc.wireNow, wire := s.fc.wire ||| s1.fc.wireNow, live := s1.fc.live } } ∧
      (∀ i < 256, s1.fc.wireNow.getLsbD i = s.fc.wired (w.map (·.val)) (cyc (max s.now t)) i ∧
        s1.fc.raised.getLsbD i = (s.fc.raised.getLsbD i && s.fc.nonComp (w.map (·.val)) i)) ∧
      ∀ i < 254, tget none s1.fc.odd i = if s.fc.nonComp (w.map (·.val)) i then some ((tget none s.fc.odd i).getD (cyc (max s.now t))) else none) ∧
  (∀ (s : State) (evs : List FcEvent), s.fcEvents evs = ((s.fcRecord evs).fcReact evs).setFaultN) ∧
  (∀ (s u : State) (evs : List FcEvent), u = s.fcRecord evs → (∀ e ∈ evs, e.src < 256 → u.fc.latch.getLsbD e.src = true) ∧
    (∀ i < 256, (∀ e ∈ evs, e.src ≠ i) → u.fc.latch.getLsbD i = s.fc.latch.getLsbD i ∧ u.fcSrc i = s.fcSrc i) ∧
    u.chans = s.chans ∧ u.outs = s.outs ∧ u.mem = s.mem ∧ u.fc.safe = s.fc.safe) ∧
  (∀ (s u : State) (e : FcEvent), e.src < 256 → u = s.fcRecord [e] → (u.fcSrc e.src).cnt = satInc (s.fcSrc e.src).cnt ∧
    ((s.fc.latch.getLsbD e.src = false ∨ e.src = 255) → u.fc.seq = s.fc.seq + 1 ∧ u.recordedSev e.src = e.sev ∧
      tget {} u.fc.trail (s.fc.seq.toNat % 32) = e.entry s.fc.seq 0 false (cyc s.now * 8) ∧
      u.fc.first = some (s.fc.first.getD (e.entry s.fc.seq 0 false (cyc s.now * 8)))) ∧
    (s.fc.latch.getLsbD e.src = true → e.src ≠ 255 → u.fc.seq = s.fc.seq ∧ u.fc.trail = s.fc.trail ∧ u.fc.first = s.fc.first ∧ u.irq = s.irq)) ∧
  (∀ (s : State) (e : FcEvent), (e.react < 2 → s.fcReact [e] = s) ∧ (e.react = 2 → s.fcReact [e] = s.haltDomain e.dom) ∧
    (e.react = 3 → s.fcReact [e] = ({ s with fc := { s.fc with causeAt := some (cyc s.now) } } : State).safeGo) ∧ (e.react = 4 → s.fcReact [e] = s.functionReset 5 16000)) ∧
  (∀ s : State, (s.fc.safe = true → s.safeGo = s) ∧
    (s.fc.safe = false → s.fc.exitAt = some (cyc s.now) → s.safeGo = { s with fc := { s.fc with safe := true } }) ∧
    (s.fc.safe = false → s.fc.exitAt ≠ some (cyc s.now) → s.safeGo.fc.safe = true ∧
    s.safeGo.fc.safeT = (cyc s.now + 1) * 8 ∧ ∀ p < 128, (s.safeGo.pin p).onSince = none ∧
      (s.isInput p = false → (s.ou p).drive = s.onLevel p → (s.safeGo.pin p).hold = true) ∧
      ((s.pin p).onSince.isSome = true → (s.safeGo.pin p).lastRest = some ((cyc s.now + 1) * 8) ∧ (s.safeGo.ou p).lastCause = 11))) ∧
  (∀ (t : Time) (s : State), s.up = true → exec (.parityError t) s = .next
    (({ s.arrive t with fc := { s.fc with self := true } } : State).fcEvents [s.fcEvent 255 false false])) ∧
  (∀ (t : Time) (m : Ident) (v : Word) (s : State) (res : Nat → State), s.serves (fcOfs + 0xC) = true →
    (∀ r, res r = { s.arrive t with fc := { s.fc with result := BitVec.ofNat 16 r } }) →
    ((fld v 16 16 ≠ 0x5AFE ∨ fld v 2 14 ≠ 0 ∨ bit v 0 = true) → exec (.safeEnter t m v) s = .next (res 2)) ∧
    (fld v 16 16 = 0x5AFE → fld v 2 14 = 0 → bit v 0 = false → exec (.safeEnter t m v) s = .next ((res 0).fcEvents [s.fcEvent 254 false false])) ∧
    ((fld v 16 16 ≠ 0x5AFE ∨ fld v 2 14 ≠ 0 ∨ bit v 1 = true) → exec (.safeExit t m v) s = .next (res 2)) ∧
    (fld v 16 16 = 0x5AFE → fld v 2 14 = 0 → bit v 1 = false →
      (s.fc.safe = false ∨ max s.now t < s.fc.safeT → exec (.safeExit t m v) s = .next (res 11)) ∧
      (s.fc.safe = true → s.fc.safeT ≤ max s.now t → s.fc.self = true → exec (.safeExit t m v) s = .next (res 4)) ∧
      (s.fc.safe = true → s.fc.safeT ≤ max s.now t → s.fc.self = false → (s.chans.any fun p => p.2.st = .haltPending) = true →
        exec (.safeExit t m v) s = .next (res 1)) ∧
      (s.fc.safe = true → s.fc.safeT ≤ max s.now t → s.fc.self = false → (s.chans.any fun p => p.2.st = .haltPending) = false →
        (∀ i < 254, s.fc.live.getLsbD i = true → (s.fcSrc i).react = 3 → exec (.safeExit t m v) s = .next (res 11)) ∧
        ((∀ i < 254, s.fc.live.getLsbD i = true → (s.fcSrc i).react ≠ 3) → exec (.safeExit t m v) s = .next
          (if s.fc.causeAt = some (cyc (max s.now t)) then res 0 else ({ s.arrive t with
            fc := { s.fc with result := 0, safe := false, exitAt := some (cyc (max s.now t)) } } : State).setFaultN))))) ∧
  (∀ s : State, s.setFaultN.fc.faultN = true ↔ s.dead = true ∨ s.rst.fenceRead = false ∨ s.fc.safe = true ∨
    ∃ i < 256, s.fc.latch.getLsbD i = true ∧ s.fc.pinSev.toNat ≤ s.recordedSev i)

/-- R489: the test key opens by 0xA5F0 and then 0x0F5A of one identity within 1 µs, while SVC is 1; any other write locks it, and every forced source
with it (that 0xA5F0 alone begins the sequence and locks nothing is DEDUCED, log 37). R482: LOCKED stays until a reset. R488: CLR empties FC_FIRST.
R533, R536, R537: an excursion of a rail is reported, outside Rest, and BANK_33 follows the rails, and a temperature held above its threshold is held asserted. -/
def Obligations.TheCollectorsKeysAndMonitors : Prop :=
  (∀ (t : Time) (m : Ident) (v : Word) (s : State), s.serves (fcOfs + 0x20) = true →
    (v = 0xA5F0 → exec (.fcTkeyWrite t m v) s = .next { s.arrive t with fc := { s.fc with half := some (m, max s.now t) } }) ∧
    (∀ x, v = 0x0F5A → s.fc.half = some (m, x) → max s.now t ≤ x + 8000 → exec (.fcTkeyWrite t m v) s = .next
      { s.arrive t with fc := { s.fc with half := none, test := s.fc.test || s.lws.svc } }) ∧
    (v ≠ 0xA5F0 → (v ≠ 0x0F5A ∨ ∀ x, s.fc.half = some (m, x) → x + 8000 < max s.now t) → exec (.fcTkeyWrite t m v) s = .next
      { s.arrive t with fc := { s.fc with half := none, test := false, force := 0 } })) ∧
  (∀ (t : Time) (m : Ident) (v : Word) (s : State), s.serves (fcOfs + 4) = true → exec (.fcLock t m v) s = .next
    { s.arrive t with fc := { s.fc with locked := s.fc.locked || bit v 0 } }) ∧
  (∀ (s : State) (i : Nat) (v : Word), s.fc.locked = true → s.fcSrcWrite i v = s.fcReject ∧ s.fcCtrl v = s.fcReject ∧
    s.fcVec i v = s.fcReject ∧ s.fcReject = { s with fc := { s.fc with cfgRej := true } }) ∧
  (∀ (t : Time) (m : Ident) (v : Word) (s : State), s.serves (fcOfs + 0x110) = true → exec (.fcFirstClr t m v) s = .next
    (if bit v 1 then { s.arrive t with fc := { s.fc with first := none } } else s.arrive t)) ∧
  (∀ (t : Time) (rail : Option (BitVec 8)) (s : State), s.dead = false → exec (.supplyExcursion t rail) s = .next
    { s.arrive t with
      outs := { s.outs with bank33 := rail.getD s.outs.bank33 },
      fc := if s.resting then s.fc else { s.fc with raised := s.fc.raised ||| BitVec.ofNat 256 (1 <<< if rail = none then 162 else 163) } }) ∧
  (∀ (t : Time) (upper above : Bool) (s : State), ∃ u, exec (.temperatureThreshold t upper above) s = .next u ∧
    u = { s.arrive t with fc := { s.fc with level := u.fc.level } } ∧ ∀ i < 256, u.fc.level.getLsbD i =
      if i = (if upper then 161 else 160) then above else s.fc.level.getLsbD i)

/-! ## Resets, boot, fuses (15_startup_life.md) -/

/-- R500, R502, R359, R335, R489: a function-wide reset stops every channel, queue, walk, cell, port and unit, rests every pin and puts the cores in
reset; it keeps memory, the store, the boot registers and the fault record, and locks the test key. PERST_N low holds one, FLR and FUNC_RESET with its
key take one; it is over once ready, and then core 0 goes where the part has booted. R497 to R500, R505: power-on reset and RESET_N keep only the store
and the fuses; a start reads the store, rests the pins and goes to boot; a RESET_N of less than 100 ns does nothing, and one during a commit waits for
its end. R498: the link's training brings the configuration with it (log 5). -/
def Obligations.ResetsKeepWhatTheyMust : Prop :=
  (∀ (s : State) (c w : Nat), c < 6 → ∃ u, s.functionReset c w = u ∧ u.chans = [] ∧ u.axes = {} ∧ u.cmps = [] ∧ u.caps = [] ∧ u.queues = {} ∧
    u.xl = {} ∧ u.net = {} ∧ u.und = {} ∧ u.irq.vecs = [] ∧ u.irq.srcs = [] ∧ u.mem.sram = s.mem.sram ∧ u.mem.tcm = s.mem.tcm ∧
    u.lws = s.lws ∧ u.boot = s.boot ∧ u.fc.latch = s.fc.latch ∧ u.fc.trail = s.fc.trail ∧ u.fc.safe = s.fc.safe ∧ u.fc.test = false ∧
    u.fc.force = 0 ∧ u.rst.busy = true ∧ u.rst.cause.getLsbD c = true ∧ u.rst.readyAt = max s.rst.readyAt (s.now + w) ∧
    (∀ p < 128, (u.pin p).onSince = none ∧ (u.pin p).hold = false ∧ (s.isInput p = false → (u.ou p).drive = !s.onLevel p) ∧
      (u.ou p).holder = none ∧ (u.ou p).clamps = (s.ou p).clamps) ∧
    ∀ k < 4, (u.core k).st = .inReset ∧ (u.core k).dcache = [] ∧ (u.core k).resv = none ∧ (u.core k).resetVec = (s.core k).resetVec) ∧
  (∀ (t : Time) (s : State),
    (s.dead = false → s.rst.perst = false → ∃ u, exec (.perstN t false) s = .next u ∧ u.rst.perst = true ∧ u.rst.busy = true ∧
      u.rst.cause.getLsbD 2 = true ∧ u.chans = [] ∧ u.mem.sram = s.mem.sram ∧ u.lws = s.lws ∧ u.irq = {}) ∧
    (s.dead = false → s.rst.perst = true → exec (.perstN t true) s = .next { s.arrive t with rst := { s.rst with
      perst := false, readyAt := max s.rst.readyAt (max s.now t + 8000) } }) ∧
    (∀ b, s.rst.perst = !b → exec (.perstN t b) s = .next (s.arrive t)) ∧
    (s.dead = false → s.rst.perst = true → exec (.flr t) s = .next (s.arrive t)) ∧
    (s.dead = false → s.rst.perst = false → ∃ u, exec (.flr t) s = .next u ∧ u.rst.busy = true ∧ u.rst.cause.getLsbD 3 = true ∧ u.chans = [] ∧
      u.rst.readyAt = max s.rst.readyAt (max s.now t + 80000) ∧ u.mem.sram = s.mem.sram ∧ u.lws = s.lws ∧ u.irq = { link := s.irq.link })) ∧
  (∀ (t : Time) (m : Ident) (v : Word) (s : State), s.serves 0x1004 = true → exec (.funcReset t m v) s = .next
    (if bit v 0 = true ∧ fld v 16 16 = 0xC1EA then (s.arrive t).functionReset 4 16000 else s.arrive t)) ∧
  (∀ (t : Time) (s : State), s.dead = false →
    (s.rst.busy = true → s.rst.perst = false → s.rst.readyAt ≤ max s.now t → ∃ u, exec (.functionResetReady t) s = .next u ∧
      u.rst = { s.rst with busy := false } ∧ (s.boot.st ≠ 4 → u.cores = s.cores) ∧
      (s.boot.st = 4 → (s.core 0).st = .inReset → (u.core 0).st = .run ∧ (u.core 0).pc = (s.core 0).resetVec)) ∧
    ((s.rst.busy = false ∨ s.rst.perst = true ∨ max s.now t < s.rst.readyAt) → exec (.functionResetReady t) s = .next (s.arrive t))) ∧
  (∀ (t : Time) (s : State), ∃ u, exec (.powerOnReset t) s = .next u ∧ u.dead = true ∧ u.rst.por = true ∧ u.rst.cause = 1 ∧
    u.lws = { fence := s.lws.fence, conduct := s.lws.conduct, ident := s.lws.ident, ledger := s.lws.ledger } ∧
    u.boot.keyhash = s.boot.keyhash ∧ u.boot.blank = s.boot.blank ∧ u.chans = [] ∧ u.axes = {} ∧ u.mem = {} ∧ u.cores = [] ∧ u.queues = {} ∧
    u.fc.latch = 0 ∧ u.pending = s.pending) ∧
  (∀ (t : Time) (b : BitVec 8) (s : State), (s.rst.por = false → exec (.powerOnRelease t b) s = .next (s.arrive t)) ∧
    (s.rst.por = true → ∃ u, exec (.powerOnRelease t b) s = .next u ∧ u.now = 0 ∧ u.dead = false ∧ u.rst.fenceRead = true ∧ u.boot.st = 1 ∧
      u.lws.fence = readSlots s.lws.fence ∧ u.lws.fenceImg = newest (readSlots s.lws.fence) ∧
      u.lws.conductImg = newest (readSlots s.lws.conduct) ∧ u.lws.identImg = newest (readSlots s.lws.ident) ∧
      (∀ p < 128, (u.pin p).onSince = none ∧ (u.pin p).hold = false ∧ (u.isInput p = false → (u.ou p).drive = !u.onLevel p)) ∧
      ∀ i < 8, (u.permitIn i).accepted = false)) ∧
  (∀ (t : Time) (w : Nat) (s : State), (s.dead = true ∨ w < 800 → exec (.resetN t w) s = .next (s.arrive t)) ∧
    (s.dead = false → 8000 ≤ w → s.lws.commit = none → ∃ u, exec (.resetN t w) s = .next u ∧ u.rst.cause = s.rst.cause ||| 2 ∧ u.dead = false ∧
      u.boot.st = 1 ∧ u.boot.keyhash = s.boot.keyhash ∧ u.now = max s.now t ∧ u.chans = [] ∧ u.axes = {} ∧ u.mem = {} ∧ u.cores = [] ∧
      u.fc.latch = 0 ∧ u.lws.fence = readSlots s.lws.fence ∧ u.lws.ledger = s.lws.ledger ∧ u.lws.fenceImg = newest (readSlots s.lws.fence)) ∧
    (s.dead = false → 8000 ≤ w → s.lws.commit ≠ none → ∃ u, exec (.resetN t w) s = .next u ∧ u.dead = true ∧ u.rst.resetHeld = true ∧
      u.lws.commit = s.lws.commit ∧ u.lws.fence = s.lws.fence ∧ u.chans = []) ∧
    (∀ rb, s.rst.resetHeld = true → s.lws.commit ≠ none → exec (.commitComplete t rb) s = .next (((s.arrive t).lwsFinish rb).pinReset))) ∧
  (∀ (t : Time) (up : Bool) (cfg : PcieCfg) (s : State), s.dead = false → (s.rst.perst = true → exec (.pcieLinkChange t up cfg) s = .next (s.arrive t)) ∧
    (s.rst.perst = false → ∃ u, exec (.pcieLinkChange t up cfg) s = .next u ∧ u.irq.link = up ∧ u.irq.vecs = s.irq.vecs ∧ u.chans = s.chans ∧
      (up = true → u.irq.bme = cfg.busMaster ∧ u.irq.msixEn = cfg.msixEnable ∧ u.irq.funcMask = cfg.funcMask) ∧
      (up = false → u.irq.bme = s.irq.bme ∧ u.movers = s.movers)))

/-- R507 to R513: an image is judged by its header, the hash of its key, its signature and its level, in that order. Slot 1 follows the rejection of
slot 0; an accepted image is loaded and starts core 0 at its entry, and a rejected one leaves its cause. The host's image is asked for by BOOT_HOST_GO of
the host alone, once the part has booted or failed, and read once all cores stand in reset. A fuse command is judged; it ends with the fuses holding the
staged digest where the read-back agrees, and never blank. -/
def Obligations.BootTakesAJudgedImage : Prop :=
  (∀ (s : State) (b : List Byte), (headOk b = false → s.imageJudge b = 2) ∧ (headOk b = true →
    (s.boot.hash ≠ 0 → Config.sha256 (slice b 32 64) ≠ s.boot.hash → s.imageJudge b = 3) ∧
    ((s.boot.hash = 0 ∨ Config.sha256 (slice b 32 64) = s.boot.hash) → ∀ ok, ok = Config.ecdsaOk (slice b 32 64)
        (Config.sha256 (slice b 0 96 ++ slice b 256 (imgLength b))) (slice b 96 64) →
      (ok = false → s.imageJudge b = 4) ∧ (ok = true → s.imageJudge b = if s.levelInForce < num b 7 1 then 5 else 0)))) ∧
  (∀ (t : Time) (b : List Byte) (slow : Bool) (s : State) (n : Nat) (src : BootSource), s.dead = false → s.resting = false →
    (n = 0 ∧ src = .flash0 ∧ s.boot.cause = 0 ∨ n = 1 ∧ src = .flash1 ∧ s.boot.cause ≠ 0) → (s.boot.st = 0 ∨ s.boot.st = 1) →
    (s.imageJudge b ≠ 0 → ∃ u, exec (.bootImageCheck t src b slow) s = .next u ∧ u.boot.st = (if n = 0 then 1 else 5) ∧
      u.boot.cause = BitVec.ofNat 4 (s.imageJudge b) ∧ (∀ k, (u.core k).st = (s.core k).st) ∧ (headOk b = false → u.mem = s.mem)) ∧
    (s.imageJudge b = 0 → ∃ u, exec (.bootImageCheck t src b slow) s = .next u ∧ u.boot.st = 4 ∧ u.boot.source = BitVec.ofNat 2 (n + 1) ∧
      (u.core 0).resetVec = BitVec.ofNat 32 (num b 16 4) &&& ~~~1 ∧
      (s.rst.busy = false → (s.core 0).st = .inReset → (u.core 0).st = .run ∧ (u.core 0).pc = BitVec.ofNat 32 (num b 16 4) &&& ~~~1) ∧
      (∀ o, loadAt b = some (false, o) → u.mem.sram = putBytes s.mem.sram o (slice b 256 (imgLength b)) ∧ u.mem.tcm = s.mem.tcm) ∧
      (∀ o, loadAt b = some (true, o) → u.mem.tcm = putBytes s.mem.tcm o (slice b 256 (imgLength b)) ∧ u.mem.sram = s.mem.sram))) ∧
  (∀ (t : Time) (b : List Byte) (slow : Bool) (s : State), s.dead = false → s.resting = false →
    ((s.boot.st = 0 ∨ s.boot.st = 1) → s.boot.cause = 0 → exec (.bootImageCheck t .noFlash b slow) s = .next
      { s.arrive t with boot := { s.boot with st := 5, cause := 1 } }) ∧
    ((s.boot.st ≠ 2 ∨ ∃ k < 4, (s.core k).st ≠ .inReset) → exec (.bootImageCheck t .host b slow) s = .next (s.arrive t)) ∧
    (s.boot.st = 2 → (∀ k < 4, (s.core k).st = .inReset) → exec (.bootImageCheck t .host b slow) s = .next (s.arrive t).bootHost)) ∧
  (∀ (t : Time) (m : Ident) (v : Word) (s : State), s.serves (bootOfs + 0xC) = true →
    (m ≠ 0x01 ∨ bit v 0 = false ∨ fld v 16 16 ≠ 0xB007 → exec (.bootHostGo t m v) s = .next (s.arrive t)) ∧
    (m = 0x01 → bit v 0 = true → fld v 16 16 = 0xB007 →
      (s.boot.st ≠ 4 → s.boot.st ≠ 5 → exec (.bootHostGo t m v) s = .next { s.arrive t with boot := { s.boot with rej := true } }) ∧
      (s.boot.st = 4 ∨ s.boot.st = 5 → ∃ u, exec (.bootHostGo t m v) s = .next u ∧ u.boot = { s.boot with st := 2, hash := s.boot.keyhash } ∧
        ∀ k < 4, (u.core k).st = if (s.core k).st = .inReset then .inReset else .resetting))) ∧
  (∀ (t : Time) (m : Ident) (v : Word) (s : State), s.serves (bootOfs + 0x40) = true →
    ((bit v 0 = false ∨ fld v 16 16 ≠ 0xF05E ∨ m ≠ 0x01 ∧ m ≠ 0x20 ∨ s.lws.svc = false ∨ s.boot.blank = false ∨ s.boot.fuseBusy = true) →
      exec (.bootFuseCmd t m v) s = .next { s.arrive t with boot := { s.boot with fuseResult := 4 } }) ∧
    (bit v 0 = true → fld v 16 16 = 0xF05E → (m = 0x01 ∨ m = 0x20) → s.lws.svc = true → s.boot.blank = true → s.boot.fuseBusy = false →
      (s.boot.keystage = 0 → exec (.bootFuseCmd t m v) s = .next { s.arrive t with boot := { s.boot with fuseResult := 2 } }) ∧
      (s.boot.keystage ≠ 0 → exec (.bootFuseCmd t m v) s = .next { s.arrive t with boot := { s.boot with
        fuseResult := 0, fuseBusy := true, fusing := s.boot.keystage } }))) ∧
  (∀ (t : Time) (ok : Bool) (s : State), s.dead = false →
    (s.boot.fuseBusy = false → exec (.fuseProgramComplete t ok) s = .next (s.arrive t)) ∧
    (s.boot.fuseBusy = true → ∃ u, exec (.fuseProgramComplete t ok) s = .next u ∧ u.boot.fuseBusy = false ∧ u.boot.blank = false ∧
      (ok = true → u.boot.fuseResult = 0 ∧ u.boot.keyhash = s.boot.fusing) ∧
      (ok = false → u.boot.fuseResult = 6 ∧ u.boot.keyhash = freeFuses s.free) ∧
      (s.svc.owesFuse = true → u.out = s.out ++ [.svc u.boot.fuseResult [u.boot.fuseStat]] ∧ u.svc.owesFuse = false) ∧
      (s.svc.owesFuse = false → u.out = s.out)))

/-! ## The service port, the register map, the fetcher (15, 16, 04) -/

/-- R517, R518, R529: while a USB host has the port, each frame is counted and acts as identity 0x20. A READ answers with its words and claims or pops
nothing; any other frame is answered RESET_LOST before a reset is ready. MB_SEND and MB_ACK answer with the status of the mailbox, STAGE puts its bytes
into the stage, a COMMIT or FUSE that is accepted is answered when it ends and a refused one at once, CORE_RESET answers with CORE_STATUS. R446, R447:
a bus reset ends the attachment and answers what waits for side 0x20 with RECEIVER_RESET. -/
def Obligations.ServiceFramesActForTheService : Prop :=
  (∀ (t : Time) (s s1 : State) (i : Instr) (f : State → State), s.dead = false →
    s1 = { s.arrive t with svc := { s.svc with frames := s.svc.frames + 1 } } →
    ((∃ b w, i = .svcMbSend t b w ∧ ∀ x, f x = x.svcSend b w) ∨ (∃ b rc, i = .svcMbAck t b rc ∧ ∀ x, f x = x.svcAck b rc) ∨
      (∃ o b, i = .svcStage t o b ∧ ∀ x, f x = x.svcStage o b) ∨ (∃ a b v, i = .svcCommit t a b v ∧ ∀ x, f x = x.svcCommit a b v) ∨
      (∃ d, i = .svcFuse t d ∧ ∀ x, f x = x.svcFuse d) ∨ ∃ k v, i = .svcCoreReset t k v ∧ ∀ x, f x = x.svcCore k.val v) →
    (s.svc.attached = false → exec i s = .next (s.arrive t)) ∧
    (s.svc.attached = true → s.rst.busy = true → exec i s = .next (s1.answer 8 [])) ∧
    (s.svc.attached = true → s.rst.busy = false → s.resting = false → exec i s = .next (f s1))) ∧
  (∀ (t : Time) (o n : Nat) (s s1 : State), s.dead = false → s1 = { s.arrive t with svc := { s.svc with frames := s.svc.frames + 1 } } →
    (s.svc.attached = false → exec (.svcRead t o n) s = .next (s.arrive t)) ∧
    (s.svc.attached = true → (n = 0 ∨ 64 < n) → exec (.svcRead t o n) s = .next (s1.answer 2 [])) ∧
    (s.svc.attached = true → 1 ≤ n → n ≤ 64 → ∃ l s2, s1.svcWords (o / 4 * 4) n = (l, s2) ∧ l.length = n ∧
      exec (.svcRead t o n) s = .next (s2.answer 0 l))) ∧
  (∀ (s : State) (k j : Nat), k < 4 → s.cicClaim svcId k = (0, s) ∧ (s.readCapPop svcId j).2 = s) ∧
  (∀ (s : State) (b : Fin 64) (w : List Word) (rc : BitVec 16) (st : BitVec 16),
    (st = (match (s.mb b).side svcId with | none => 4 | some a => if ((s.mb b).dir a).busy then 1 else 0) →
      ∃ x : State, s.svcSend b w = { x with out := x.out ++ [.svc st []] }) ∧
    (∀ a, (s.mb b).side svcId = some a → ((s.mb b).dir a).busy = false → (s.mb b).idOf (!a) ≠ 0 → s.sideHeld ((s.mb b).idOf (!a)) = false →
      (((s.svcSend b w).mb b).dir a).busy = true ∧ (((s.svcSend b w).mb b).dir a).msg = true ∧
      (((s.svcSend b w).mb b).dir a).slot = (List.range 8).map fun i => w.getD i 0) ∧
    (st = (match (s.mb b).side svcId with
        | none => 4
        | some a => if ((s.mb b).dir (!a)).msg = false then 11 else if 0x8000 ≤ rc.toNat then 2 else 0) →
      s.svcAck b rc = { s.mbAckWrite svcId b (rc.setWidth 32) with out := (s.mbAckWrite svcId b (rc.setWidth 32)).out ++ [.svc st []] })) ∧
  (∀ (s : State) (o : Nat) (b : List Byte), (512 < b.length ∨ 0x980 < o + b.length → s.svcStage o b = s.answer 2 []) ∧
    (b.length ≤ 512 → o + b.length ≤ 0x980 → s.lws.commit.isSome = true → s.svcStage o b =
      ({ s with lws := { s.lws with stageRej := true } } : State).answer 1 []) ∧
    (b.length ≤ 512 → o + b.length ≤ 0x980 → s.lws.commit = none → s.svcStage o b =
      ({ s with lws := { s.lws with stage := putBytes s.lws.stage o b } } : State).answer 0 [])) ∧
  (∀ (s s1 : State) (a b v : Word), s1 = { s with lws := { s.lws with stamp := a, tag := b } } →
    (s1.lwsJudge svcId v = 0 → s.svcCommit a b v = { s1.lwsAccept svcId (fld v 0 2) with svc := { s.svc with owesCommit := true } }) ∧
    (∀ r, s1.lwsJudge svcId v = r → r ≠ 0 → ∃ s2, s2 = ({ s1 with lws := { s1.lws with result := BitVec.ofNat 16 r } } : State) ∧
      s.svcCommit a b v = s2.emit (.svc s2.lws.result [s2.lws.status]))) ∧
  (∀ (s : State) (d : BitVec 256), (s.lws.svc = true → s.boot.blank = true → s.boot.fuseBusy = false → d ≠ 0 →
      (s.svcFuse d).boot = { s.boot with keystage := d, fuseBusy := true, fuseResult := 0, fusing := d } ∧ (s.svcFuse d).svc.owesFuse = true ∧
      (s.svcFuse d).out = s.out) ∧
    (s.lws.svc = false ∨ s.boot.blank = false ∨ s.boot.fuseBusy = true → (s.svcFuse d).boot = { s.boot with keystage := d, fuseResult := 4 } ∧
      (s.svcFuse d).out = s.out ++ [.svc 4 [(s.svcFuse d).boot.fuseStat]])) ∧
  (∀ (s : State) (k : Nat) (v : Bool), s.svcCore k v =
    { s.coreCtrl svcId k (flag 0 v) with out := s.out ++ [.svc 0 [((s.coreCtrl svcId k (flag 0 v)).core k).status]] }) ∧
  (∀ (t : Time) (s : State), s.dead = false → exec (.servicePortAttach t) s = .next { s.arrive t with svc := { s.svc with attached := true } } ∧
    ∃ u, exec (.usbBusReset t) s = .next u ∧ u.svc = { s.svc with attached := false, busReset := true, owesCommit := false, owesFuse := false } ∧
      u.cores = s.cores ∧ ∀ b, (s.mb b).idB = 0x20 → (s.mb b).idA ≠ 0x20 → (s.mb b).ab.busy = true → (s.mb b).ab.gone = false →
        (u.mb b).ab.busy = false ∧ (u.mb b).ab.acked = true ∧ (u.mb b).ab.rc = 0xFF00 ∧ (u.mb b).ab.slot = [])

/-- R11, R523, R524: a write of a whole aligned word by an identity other than 0x20 reaches its block, and at an offset with a command of its own it does
what that command does; a partial or misaligned one does nothing, nor one at an offset that no block lists. R531: BAR4 reads and writes SRAM, waits
while it would touch a locked beat, and has no effect past the SRAM. R528: TCMA_DATA reads or writes the addressed TCM word for 0x01 and goes on to the
next, or notes that it was denied. -/
def Obligations.RegisterAccessesReachTheirBlock : Prop :=
  (∀ (t : Time) (m : Ident) (o : Nat) (be : BitVec 4) (v : Word) (s : State), s.serves o = true →
    (be ≠ 15 ∨ o % 4 ≠ 0 ∨ m = 0x20 → exec (.registerWrite t m o be v) s = .next (s.arrive t)) ∧
    (be = 15 → o % 4 = 0 → m ≠ 0x20 → exec (.registerWrite t m o be v) s = .next ((s.arrive t).putReg m o v))) ∧
  (∀ (s : State) (m : Ident) (o : Nat) (v : Word), ((∀ b ∈ blocksA ++ blocksB, ¬(b.base ≤ o ∧ o < b.base + b.stride * b.count)) →
    s.putReg m o v = s ∧ s.getReg m o = (0, s))) ∧
  (∀ (t : Time) (m : Ident) (v : Word) (s : State) (o : Nat) (i : Instr), m ≠ 0x20 →
    ((∃ k : Fin 256, o = cmpOfs k ∧ i = .cmpCtrlWrite t m k v) ∨ (∃ c : Fin 64, o = cellOfs c + 4 ∧ i = .cellModWrite t m c v) ∨
      (∃ p : Fin 16, o = portOfs p ∧ i = .portCtrlWrite t m p v) ∨ (∃ d : Fin 256, o = domOfs d ∧ i = .domCtrlWrite t m d v) ∨
      (∃ d : Fin 256, o = fqOfs d + 0xC ∧ i = .fqDb t m d v) ∨ (∃ b : Fin 64, o = mbOfs b + 0x20 ∧ i = .mbSend t m b v) ∨
      (∃ k : Fin 4, o = coreOfs k + 0x24 ∧ i = .wdCtrlWrite t m k v) ∨ (∃ w : Fin 32, o = cicOfs + 0x1000 + 4 * w ∧ i = .cicPendWrite t m w v) ∨
      o = 0x1004 ∧ i = .funcReset t m v ∨ o = undBase + 4 ∧ i = .undRest t m v ∨ o = xlOfs + 0x20 ∧ i = .xlInvGo t m v ∨
      o = fcOfs + 0x20 ∧ i = .fcTkeyWrite t m v ∨ o = yzOfs + 0x1A0 ∧ i = .lineStop t m v ∨ o = bootOfs + 0x40 ∧ i = .bootFuseCmd t m v) →
    exec (.registerWrite t m o 15 v) s = exec i s) ∧
  (∀ (t : Time) (o n : Nat) (w : List Byte) (s : State), s.serves 0 = true →
    (sramSize < o + n ∨ s.beatLocked none o n = true → exec (.bar4Access t o n (some w)) s = .next (s.arrive t) ∧
      exec (.bar4Access t o n none) s = .next (s.arrive t)) ∧
    (o + n ≤ sramSize → s.beatLocked none o n = false → exec (.bar4Access t o n (some w)) s = .next ((s.arrive t).sramWrite o (w.take n))) ∧
    (∀ b s1, o + n ≤ sramSize → s.beatLocked none o n = false → o / 64 = (o + n - 1) / 64 → 0 < n → (s.arrive t).sramRead o n = (some b, s1) →
      exec (.bar4Access t o n none) s = .next (s1.emit (.reply (toWords b))))) ∧
  (∀ (t : Time) (m : Ident) (v : Word) (s : State) (a : Nat), s.serves (tcmaOfs + 4) = true → a = tcmKey s.svc.tcmCore s.svc.tcmByte →
    (m ≠ 0x01 → exec (.tcmaData t m (some v)) s = .next (s.arrive t)) ∧
    (m = 0x01 → s.tcmOpen = true → ∃ u, exec (.tcmaData t m (some v)) s = .next u ∧ u.mem.tcm = putBytes s.mem.tcm a (leBytes 4 v.toNat) ∧
      u.svc = { s.svc with tcma := setFld s.svc.tcma 2 15 (fld s.svc.tcma 2 15 + 1) } ∧ u.mem.sram = s.mem.sram) ∧
    (m = 0x01 → s.tcmOpen = false → ∃ u, exec (.tcmaData t m (some v)) s = .next u ∧ u.mem = s.mem ∧
      u.svc = { s.svc with denied := true, tcma := setFld s.svc.tcma 2 15 (fld s.svc.tcma 2 15 + 1) }) ∧
    (∀ b s1, m = 0x01 → s.tcmOpen = true → (s.arrive t).tcmRead s.svc.tcmCore s.svc.tcmByte 4 = (some b, s1) →
      exec (.tcmaData t m none) s = .next (s1.tcmAdvance.reply (BitVec.ofNat 32 (leNat b)))))

/-- R119, R125, R126, R137, R168: a channel fetches while it runs: an entry of a fragment table its transfer waits for, its current group, which then
becomes its current command, or while a command runs the next ones in sequence, up to four ahead, and the whole bracket of a LOCK that is being checked.
A fetch that needs a walk waits for it; one the translation or protection refuses, or that fails, ends the command, and one made ahead is made again
when its group becomes current; where the group is one of a bracket it strikes the LOCK (log 53). R17, R22, R229, R469: a read that fails is reissued up
to RETRY times and counted, one of a locked beat waits, and with the link down host memory gives nothing. A group is the 16 bytes of the command word,
and 16 more for an operand word and for a stamp where it has them. -/
def Obligations.GroupsAreFetchedInSequence : Prop :=
  (∀ (t : Time) (c : Fin 4096) (m : HostMem) (s a : State) (h : Chan), s.up = true → h = s.chan c → a = s.arrive t →
    (h.st.fetches = false → exec (.groupFetch t c m) s = .next a) ∧
    (h.st.fetches = true → ∀ sp, h.fragSpan = some sp → exec (.groupFetch t c m) s = .next (a.fetchFrag c sp m)) ∧
    (h.st.fetches = true → h.fragSpan = none → h.act = .fetch →
      (∀ b s1, a.fetchGroup c (h.phy, h.cca) m = (.bytes b, s1) →
        exec (.groupFetch t c m) s = .next ((s1.fetchOver c).makeCurrent c (parseGroup b))) ∧
      (∀ s1, a.fetchGroup c (h.phy, h.cca) m = (.pending, s1) → exec (.groupFetch t c m) s = .next s1) ∧
      (∀ f s1, a.fetchGroup c (h.phy, h.cca) m = (.fault f, s1) →
        exec (.groupFetch t c m) s = .next ((s1.fetchOver c).faultStop c f .fetch [])) ∧
      (∀ s1, a.fetchGroup c (h.phy, h.cca) m = (.bus, s1) →
        exec (.groupFetch t c m) s = .next (((s1.fetchOver c).report 132).endWith c [4])) ∧
      (∀ s1, a.fetchGroup c (h.phy, h.cca) m = (.protect, s1) → exec (.groupFetch t c m) s = .next (s1.endWith c [1]))) ∧
    (h.st.fetches = true → h.fragSpan = none → h.act ≠ .fetch →
      (h.wantsAhead = false ∨ a.aheadOpen h = false → exec (.groupFetch t c m) s = .next a) ∧
      (∀ sp, h.wantsAhead = true → a.aheadOpen h = true → h.nextFetch = some sp →
        (∀ b s1 x, a.fetchGroup c sp m = (.bytes b, s1) → x = (s1.fetchOver c).modChan c (fun h => { h with
            ahead := h.ahead ++ [(grpKey sp.2 sp.1, parseGroup b)] }) →
          exec (.groupFetch t c m) s = .next (if h.act = .bracket then x.bracketCheck c else x)) ∧
        (∀ s1, a.fetchGroup c sp m = (.pending, s1) → exec (.groupFetch t c m) s = .next s1) ∧
        (∀ r s1, a.fetchGroup c sp m = (r, s1) → (∀ b, r ≠ .bytes b) → r ≠ .pending → h.act ≠ .bracket →
          exec (.groupFetch t c m) s = .next ((s1.fetchOver c).modChan c fun h => { h with aheadStop := true })) ∧
        (∀ s1, h.act = .bracket →
          (∀ f, a.fetchGroup c sp m = (.fault f, s1) → exec (.groupFetch t c m) s = .next
            (((s1.fetchOver c).modChan c fun h => { h with act := .fetch }).faultStop c f .fetch [])) ∧
          (a.fetchGroup c sp m = (.bus, s1) → exec (.groupFetch t c m) s = .next (((s1.fetchOver c).report 132).endWith c [4])) ∧
          (a.fetchGroup c sp m = (.protect, s1) → exec (.groupFetch t c m) s = .next ((s1.fetchOver c).endWith c [1])))))) ∧
  (∀ h : Chan, h.wantsAhead = true ↔ h.ahead.length < (if h.act = .bracket then 9 else 4) ∧ h.aheadStop = false ∧ h.nextFetch ≠ none) ∧
  (∀ (s : State) (c : Nat) (sp : Span) (m : HostMem), s.fetchFrag c sp m = match s.fetchAt c sp 16 .read m with
    | (.bytes b, s) => (s.fetchOver c).fragRead c b
    | (.pending, s) => s
    | (.fault f, s) => (s.fetchOver c).faultStop c f .read []
    | (.bus, s) => (s.fetchOver c).busStop c
    | (.protect, s) => s.endWith c [1]) ∧
  (∀ (s : State) (c a n : Nat) (acc : Access) (m : HostMem),
    ((s.dom (s.chan c).domain).phyOk = false ∨ sramSize < a + n → s.fetchAt c (true, a) n acc m = (.protect, s)) ∧
    ((s.dom (s.chan c).domain).phyOk = true → a + n ≤ sramSize →
      (s.beatLocked (some c) a n = true → s.fetchAt c (true, a) n acc m = (.pending, s)) ∧
      (s.beatLocked (some c) a n = false → s.badWord a n = none → (s.fetchAt c (true, a) n acc m).1 = .bytes (s.sramBytes a n) ∧
        (s.fetchAt c (true, a) n acc m).2.chans = s.chans) ∧
      (s.beatLocked (some c) a n = false → s.badWord a n ≠ none → ∃ u, s.fetchAt c (true, a) n acc m = (.bus, u) ∧
        u.movers.retry = s.movers.retry + BitVec.ofNat 32 ((s.chan c).retryN - (s.chan c).tries) ∧
        u.chan c = { s.chan c with tries := 0 } ∧ u.mem.sram = s.mem.sram))) ∧
  (∀ (s : State) (c o n a : Nat) (m : HostMem) (x : List Byte) (g : Seg) (h : Chan) (again : Nat → Nat → State), h = s.chan c →
    g = { ofs := o, len := n, phy := false, addr := a } → (∀ k r, again k r =
      ({ s with movers := { s.movers with retry := s.movers.retry + BitVec.ofNat 32 k } } : State).setChan c { h with tries := r }) →
    (s.irq.link = false → s.fetchPiece c g m = (.bus, again (h.retryN - h.tries) 0)) ∧
    (s.irq.link = true → s.fetchPiece c g (.data x) = (.bytes (slice x o n), s) ∧
      s.fetchPiece c g .fail = if h.tries < h.retryN then (.pending, again 1 (h.tries + 1)) else (.bus, again 0 0))) ∧
  (∀ (b : List Byte) (g : Group), g = parseGroup b → g.w0 = BitVec.ofNat 32 (num b 0 4) ∧ g.w1 = BitVec.ofNat 32 (num b 4 4) ∧
    g.w2 = BitVec.ofNat 32 (num b 8 4) ∧ g.w3 = BitVec.ofNat 32 (num b 12 4) ∧
    (hasOperand g.op = true → g.o0 = BitVec.ofNat 32 (num b 16 4) ∧ g.o3 = BitVec.ofNat 32 (num b 28 4)) ∧
    (g.tm = true → g.s4 = BitVec.ofNat 32 (num b (if hasOperand g.op then 32 else 16) 4)) ∧
    g.size = 16 + (if hasOperand g.op then 16 else 0) + (if g.tm then 16 else 0)) ∧
  (∀ (s : State) (c : Nat) (g : Group) (h : Chan), h = s.chan c → groupCheck { h with
      cur := g, opcode := BitVec.ofNat 8 g.op, currentAt := s.now, act := .ready, tries := 0 } (s.dom h.domain).phyOk g = none →
    g.op ≠ 0x38 → g.tm = false → g.sus = false → h.suspReq = false → ((s.makeCurrent c g).chan c).cur = g ∧ ((s.makeCurrent c g).chan c).act = .ready ∧
      ((s.makeCurrent c g).chan c).st = h.st.going ∧ ∀ j, j ≠ c → (s.makeCurrent c g).chan j = s.chan j)

/-! ## Latched reads, and what holds of every command (01_architecture.md, 16_register_map.md) -/

/-- R13, R525: a read of a latching word returns it and latches its companions, of one cycle, for the reading identity; a companion reads as latched for
the identity that reads it, until that identity's next read of the latching word, whatever others latch; reading it changes nothing. -/
def Obligations.LatchingReadsTakeOneCycle : Prop :=
  (∀ (t : Time) (m : Ident) (s a : State), a = s.arrive t →
    (∀ (c : Fin 64), s.serves (cellOfs c + 0x20) = true →
      exec (.posFtRead t m c) s = .next ((a.latchAll m ((a.posWords c).map fun p => (cellOfs c + p.1, p.2))).reply (a.posFt c))) ∧
    (∀ (k : Fin 256), s.serves (cmpOfs k + 0x14) = true →
      exec (.cmpFtRead t m k) s = .next ((a.latchAll m ([(cmpOfs k + 0x18, hiW (s.cmp k).ft), (cmpOfs k + 0x1C, (s.cmp k).fcnt)])).reply (loW (s.cmp k).ft))) ∧
    (s.serves (startOfs + 0x14) = true →
      exec (.startTRead t m) s = .next ((a.latchAll m ([(startOfs + 0x18, hiW s.axes.start.startT)])).reply (loW s.axes.start.startT))) ∧
    (s.serves (startOfs + 0x34) = true →
      exec (.frzTRead t m) s = .next ((a.latchAll m ([(startOfs + 0x38, hiW s.axes.start.frzT)])).reply (loW s.axes.start.frzT))) ∧
    (s.serves (moverOfs + 0x10) = true →
      exec (.moverBytesRead t m) s = .next ((a.latchAll m ([(moverOfs + 0x14, hiW s.movers.bytes.toNat)])).reply (loW s.movers.bytes.toNat))) ∧
    (∀ (n : Fin 32), s.serves (0x151100 + n.val * 8) = true →
      exec (.mvStateRead t m n) s = .next ((a.latchAll m ([(0x151104 + n.val * 8, wAt 0 ((s.mover n).elim 0 a.mvDone % 2 ^ 13))])).reply (a.mvState n))) ∧
    (∀ (c : Fin 4096), s.serves (ctxOfs c) = true →
      exec (.ctxStateRead t m c) s = .next ((a.latchAll m ((List.range 15).map fun i => (ctxOfs c + 4 * (i + 1), (s.chan c).context.getD (i + 1) 0))).reply ((s.chan c).context.headD 0))) ∧
    (∀ (q : Fin 1024), s.serves (wqOfs q + 4) = true →
      exec (.wqPiRead t m q) s = .next ((a.latchAll m ([(wqOfs q + 8, (s.wq q).ci)])).reply ((s.wq q).pi))) ∧
    (∀ (q : Fin 1024), s.serves (eqOfs q + 4) = true →
      exec (.eqResRead t m q) s = .next ((a.latchAll m ([(eqOfs q + 8, (s.eq q).pi), (eqOfs q + 0xC, (s.eq q).ci)])).reply ((s.eq q).res))) ∧
    (s.serves (xlOfs) = true →
      exec (.xlHitRead t m) s = .next ((a.latchAll m ([(xlOfs + 4, hiW s.xl.hits.toNat)])).reply (loW s.xl.hits.toNat))) ∧
    (∀ (d : Fin 256), s.serves (fqOfs d + 0x14) = true →
      exec (.fqPiRead t m d) s = .next ((a.latchAll m ([(fqOfs d + 0x18, (s.fq d).ci)])).reply ((s.fq d).pi))) ∧
    (∀ (u : Fin 128), s.serves (ouOfs u + 8) = true →
      exec (.ouEdgeRead t m u) s = .next ((a.latchAll m ([(ouOfs u + 0xC, hiW (s.ou u).edgeT), (ouOfs u + 0x10, loW (s.ou u).clampT), (ouOfs u + 0x14, hiW (s.ou u).clampT)])).reply (loW (s.ou u).edgeT))) ∧
    (s.serves (ptpOfs + 0x14) = true →
      exec (.ptpNowRead t m) s = .next ((a.latchAll m ([(ptpOfs + 0x18, hiW a.lineNow.toNat), (ptpOfs + 0x1C, loW a.now), (ptpOfs + 0x20, hiW a.now)])).reply (loW a.lineNow.toNat))) ∧
    (s.serves (undBase + 0x24) = true →
      exec (.undWtRead t m) s = .next ((a.latchAll m ([(undBase + 0x28, hiW s.und.wt)])).reply (loW s.und.wt))) ∧
    (s.serves (memOfs) = true →
      exec (.mtimeRead t m) s = .next ((a.latchAll m ([(memOfs + 4, hiW (a.now / 8))])).reply (loW (a.now / 8)))) ∧
    (∀ (e : TrailEnt), e = s.fc.first.getD {} → s.serves (fcOfs + 0x100) = true →
      exec (.fcFirstRead t m) s = .next ((a.latchAll m ([(fcOfs + 0x104, e.w1), (fcOfs + 0x108, loW e.time), (fcOfs + 0x10C, hiW e.time)])).reply (e.w0))) ∧
    (∀ (r : Fin 32) (e : TrailEnt), e = tget {} s.fc.trail r → s.serves (trailOfs r) = true →
      exec (.fcTrailRead t m r) s = .next ((a.latchAll m ([(trailOfs r + 4, e.w1), (trailOfs r + 8, loW e.time), (trailOfs r + 12, hiW e.time)])).reply (e.w0))) ∧
    (s.serves (fcOfs + 0x18) = true →
      exec (.fcSafeTRead t m) s = .next ((a.latchAll m ([(fcOfs + 0x1C, hiW s.fc.safeT)])).reply (loW s.fc.safeT))) ∧
    (s.serves (0x1010) = true →
      exec (.devtimeRead t m) s = .next ((a.latchAll m ([(0x1014, hiW a.now)])).reply (loW a.now)))) ∧
  (∀ (s : State) (m k : Ident) (o p : Nat) (w : Word), o < 2 ^ 22 → p < 2 ^ 22 → (s.latch m o w).latched k p =
    if latchSet m = latchSet k ∧ o = p then w else s.latched k p) ∧
  (∀ (s : State) (m : Ident), s.getReg m 0x1014 = (s.latched m 0x1014, s) ∧ s.getReg m (memOfs + 4) = (s.latched m (memOfs + 4), s) ∧
    s.getReg m (fcOfs + 0x1C) = (s.latched m (fcOfs + 0x1C), s) ∧ s.getReg m (ptpOfs + 0x18) = (s.latched m (ptpOfs + 0x18), s))

/-- The step of a block: the command at the front of the queue runs on the queue's rest; an empty queue idles (log 1). -/
def Obligations.AStepRunsTheFrontCommand : Prop :=
  (∀ (s : State) (c : Instr) (r : List Instr), s.pending = c :: r → step s = exec c { s with pending := r }) ∧
  (∀ s : State, s.pending = [] → step s = .next s)

/-- After reset memory lists nothing, and so has its canonical form, and the store holds what it accounts for. -/
def Obligations.ResetMeetsTheInvariant : Prop := State.reset.Inv

/-- Every step keeps the invariant: memory in its canonical form, and the limited-write store in order (R361, R362, R368, R371, R372): no target beyond
its slots, one ledger record for each slot used, the slot of a commit in progress last and not yet VALID, and the fence image in force that of the
newest VALID slot. -/
def Obligations.EveryStepKeepsTheInvariant : Prop := ∀ s u : State, s.Inv → step s = .next u → u.Inv

/-- R361, R368, R371, R372, R499, R502, R513: whatever happens, resets and losses of power included, a write slot once used keeps its image and its
place, the ledger never gets shorter, and fuses once programmed keep their digest. -/
def Obligations.NothingIsErasedFromTheStore : Prop :=
  ∀ (i : Instr) (s u : State), s.Inv → exec i s = .next u →
    (∀ tg, (s.lws.slots tg).map (·.image) <+: (u.lws.slots tg).map (·.image)) ∧ s.lws.ledger.length ≤ u.lws.ledger.length ∧
    ((s.boot.fuseBusy = true → s.boot.blank = true) → (u.boot.fuseBusy = true → u.boot.blank = true) ∧
      (s.boot.blank = false → u.boot.blank = false ∧ u.boot.keyhash = s.boot.keyhash))

/-- R497, R500: while power-on reset or RESET_N holds the part, every command but those that act on the reset itself, end a commit under it, or report
the temperature's level, changes nothing but device time. -/
def Obligations.AHeldPartTakesNoCommand : Prop :=
  ∀ (i : Instr) (s : State), s.dead = true →
    (∀ t b r u l w, i ≠ .powerOnReset t ∧ i ≠ .powerOnRelease t b ∧ i ≠ .perstN t r ∧ i ≠ .commitComplete t r ∧
      i ≠ .temperatureThreshold t u l ∧ i ≠ .resetN t w) → exec i s = .next (s.arrive i.time)

/-- Every command of the table completes, in every state: it ends in a next state. It leaves the queue alone and keeps memory canonical; and by its
measure it leaves more alone: time, the store, boot, reset and the service port; cells, the Understory, mailboxes and latched words; compare and capture
units. -/
def Obligations.EveryCommandCompletesWithinItsFrame : Prop :=
  ∀ (i : Instr) (s : State), ∃ u, exec i s = .next u ∧ Held s u ∧ (1 ≤ i.frame → Kept (s.arrive i.time) u) ∧
    (2 ≤ i.frame → Ran (s.arrive i.time) u) ∧ (3 ≤ i.frame → Quiet (s.arrive i.time) u)

/-- What each command completes to, where the block takes it: with the engine running (R431, R497, R501), with the register space serving its offset
(R432, R501), with its group the channel's current one, checked and ready (R126, R239), with a USB host attached (R517); and where the spec says when an
event happens, at that instant and under that condition alone. The next state is the named operation's on the state at the command's own time; what the
operation does there, the statements above say. -/
def Obligations.EveryCommandCompletesWithItsEffect : Prop :=
  ∀ (t : Time) (m : Ident) (v : Word) (s a : State), a = s.arrive t →
    (s.up = true →
      (∀ (g : Fin 16) (z : List (Time × Bool)), exec (.zLoad t g z) s = .next (a.zFeed g z)) ∧
      (∀ (j : Fin 128) (e : Bool) (ts : List Time), exec (.captureEdge t j e ts) s = .next
        ((if (s.cap j).kind = 0 then a.padLevel (s.cap j).index (edges e ts) else a).capFeed j (edges e ts))) ∧
      (∀ (c : Fin 4096) (h : HostMem), exec (.groupFetch t c h) s = .next (a.groupFetch c h)) ∧
      (∀ (c : Fin 4096), exec (.waitComplete t c) s = .next (a.waitComplete c)) ∧
      (∀ (u : Fin 128), exec (.patternEdge t u) s = .next (a.patternEdge u)) ∧ (∀ (u : Fin 128), exec (.slotReserve t u) s = .next (a.slotReserve u)) ∧
      (exec (.schedEntryGrant t) s = .next (a.entryGrant)) ∧ (∀ (c : Fin 4096), exec (.stagingBegin t c) s = .next (a.stagingBegin c)) ∧
      (∀ (c : Fin 4096), exec (.commit t c) s = .next (a.commitPoint c)) ∧ (∀ (u : Fin 128), exec (.patternEdgeCommit t u) s = .next (a.edgeCommit u)) ∧
      (∀ (c : Fin 4096), exec (.placementLock t c) s = .next (a.placementLock c)) ∧ (∀ (c : Fin 4096), exec (.effect t c) s = .next (a.effect c)) ∧
      (∀ (c : Fin 4096), exec (.limitExpiry t c) s = .next (a.limitExpiry c)) ∧ (exec (.moverGrant t) s = .next (a.moverGrant)) ∧
      (∀ (c : Fin 4096), exec (.unitAdvertise t c) s = .next (a.unitAdvertise c)) ∧ (∀ (x : Fin 32), exec (.burstEnd t x) s = .next (a.burstEnd x)) ∧
      (∀ (q : Fin 1024) (c : Fin 4096) (p : Bool) (n : Nat), exec (.start t q c p n) s = .next (State.note (a.request_ q c (.start p n)))) ∧
      (∀ (q : Fin 1024) (c : Fin 4096), exec (.halt t q c) s = .next (State.note (a.request_ q c .halt))) ∧
      (∀ (q : Fin 1024) (c : Fin 4096), exec (.suspend t q c) s = .next (State.note (a.request_ q c .suspend))) ∧
      (∀ (q : Fin 1024) (c : Fin 4096), exec (.resume t q c) s = .next (State.note (a.request_ q c .resume))) ∧
      (∀ (q : Fin 1024) (c : Fin 4096), exec (.clear t q c) s = .next (State.note (a.request_ q c .clear))) ∧
      (∀ (q : Fin 1024) (c : Fin 4096) (p : Bool) (n : Nat) (k : BitVec 3) (b : Bool), exec (.modify t q c p n k b) s = .next (State.note (a.request_ q c (.modify p n k b)))) ∧
      (∀ (q : Fin 1024) (c : Fin 4096) (p : Bool) (n : Nat), exec (.storeStatus t q c p n) s = .next (State.note (a.request_ q c (.store p n)))) ∧
      (∀ (c : Fin 4096), exec (.drainComplete t c) s = .next (a.drainEnd c)) ∧
      (∀ (q : Fin 1024) (h : HostMem), exec (.wqPiReadComplete t q h) s = .next (a.piRead q h)) ∧
      (∀ (q : Fin 1024) (h : HostMem), exec (.entryServe t q h) s = .next (a.entryServe q h)) ∧
      (∀ (q : Fin 1024) (p : Bool) (n k : Nat) (d : Fin 256) (o : Ident), exec (.createWq t q p n k d o) s = .next (State.note (a.admin (.createWq q p n k d o)))) ∧
      (∀ (q : Fin 1024), exec (.destroyWq t q) s = .next (State.note (a.admin (.destroyWq q)))) ∧
      (∀ (q : Fin 1024), exec (.enableWq t q) s = .next (State.note (a.admin (.enableWq q)))) ∧
      (∀ (q : Fin 1024), exec (.disableWq t q) s = .next (State.note (a.admin (.disableWq q)))) ∧
      (∀ (q : Fin 1024), exec (.disableComplete t q) s = .next (a.disableDone q)) ∧
      (∀ (q : Fin 1024) (p : Bool) (n k : Nat) (d : Fin 256) (x : BitVec 2) (w : Nat), exec (.createEq t q p n k d x w) s = .next (State.note (a.admin (.createEq q p n k d x.toNat w)))) ∧
      (∀ (q : Fin 1024), exec (.destroyEq t q) s = .next (State.note (a.admin (.destroyEq q)))) ∧
      (∀ (c : Fin 4096) (x y : BindField) (d : Option (Fin 256)), exec (.bind t c x y d) s = .next (State.note (a.admin (.bind c x y d)))) ∧
      (∀ (c : Fin 4096) (x : BitVec 2), exec (.setPrio t c x) s = .next (State.note (a.admin (.setPrio c x)))) ∧
      (∀ (q : Fin 1024) (h : HostMem), exec (.eqCiReadComplete t q h) s = .next (a.ciRead q h)) ∧
      (∀ (q : Fin 1024), exec (.heldRecordPost t q) s = .next (a.heldPost q)) ∧
      (∀ (w : Nat) (h : HostMem), exec (.tableReadComplete t w h) s = .next (a.tableRead w h)) ∧
      (exec (.invalidationComplete t) s = .next (a.invComplete)) ∧
      (∀ (k : Fin 4) (w : Word) (o : CoreOp) (h : HostMem), exec (.coreWindowAccess t k w o h) s = .next (a.coreWindow k w.toNat o h)) ∧
      (∀ (p : Fin 16), exec (.frameTransmit t p) s = .next (a.frameTransmit p)) ∧
      (∀ (p : Fin 16) (x : PtpMsg), exec (.ptpMessageRx t p x) s = .next (a.ptpRx p x)) ∧
      (∀ (p : Fin 16) (x : PtpKind), exec (.ptpMessageTx t p x) s = .next (a.ptpTx p x)) ∧ (exec (.cycleStart t) s = .next (a.cycleStart)) ∧
      (exec (.snapshot t) s = .next (a.snapshot)) ∧ (exec (.cyclic t) s = .next (a.cyclic)) ∧ (exec (.yazenFrameRx t) s = .next (a.yazenRx)) ∧
      (∀ (b : Bool), exec (.forwardDrop t b) s = .next (a.forwardDrop b)) ∧ (∀ (p : Fin 16), exec (.ownFrameDrop t p) s = .next (a.ownFrameDrop p)) ∧
      (exec (.lineStopRepeat t) s = .next (a.stopRepeat)) ∧ (exec (.msixIssue t) s = .next (a.msixIssue)) ∧
      (∀ (i : Fin 1024), exec (.cicDeliver t i) s = .next (a.cicDeliver i)) ∧ (exec (.restEntry t) s = .next (a.restEntry)) ∧
      (exec (.restEntryTimeout t) s = .next (a.restTimeout)) ∧ (∀ (b : Fin 64) (x : Bool), exec (.mbTimeout t b x) s = .next (a.mbTimeout b x)) ∧
      (∀ (k : Fin 4) (w : Word) (o : AmoOp), exec (.coreAmo t k w o v) s = .next (a.coreAmo k w.toNat o v)) ∧
      (∀ (k : Fin 4) (w : Word), exec (.coreLr t k w) s = .next (a.coreLr k w.toNat)) ∧
      (∀ (k : Fin 4) (w : Word), exec (.coreSc t k w v) s = .next (a.coreSc k w.toNat v)) ∧
      (∀ (k : Fin 4) (w : Word) (o : CoreOp), exec (.coreSramAccess t k w o) s = .next (a.coreSram k w.toNat o)) ∧
      (∀ (k : Fin 4), exec (.watchdogExpiry t k) s = .next (a.wdExpire k)) ∧ (∀ (k : Fin 4), exec (.mtip t k) s = .next (a.setMtip k)) ∧
      (exec (.scrubBeat t) s = .next (a.scrub)) ∧ (∀ (w : List (Fin 254)), exec (.faultEvent t w) s = .next (a.fcSample (w.map (·.val)))) ∧
      (exec (.parityError t) s = .next ((a.modFc fun f => { f with self := true }).fcEvents [a.fcEvent 255 false false])) ∧
      (∀ (u : Fin 128), exec (.pulseTrailingEdge t u) s = .next (a.trailingEdge u)) ∧
      (∀ (u : Fin 128), exec (.positionEdge t u) s = .next (a.positionEdge u)) ∧
      (∀ (d : Fin 256) (h : HostMem), exec (.fqCiReadComplete t d h) s = .next (a.fqRead d h)) ∧
      (∀ (i : Fin 8) (x : SerIf), x = s.ser i → x.run = true → x.due ≤ max s.now t → x.recover ≤ x.due → x.frame = none → exec (.serialFrameStart t i) s = .next (a.setSer i { x with due := x.due + ns (fld x.cycle 0 20), frame := some x.due })) ∧
      (∀ (c : Fin 64) (x : Cell) (p k : Int), x = s.cell c → x.mode = 3 → s.running c = true → x.modelCount (max s.now t) = some p → k = (if x.dirInv then max (p - x.odo) x.lapRoom else min (p - x.odo) x.lapRoom) → (if x.dirInv then k < 0 else 0 < k) → exec (.mainsPhaseStep t c) s = .next (a.selfStep c k (max s.now t))) ∧
      (∀ (c : Fin 64) (x : Cell) (d : Nat), x = s.cell c → x.mode = 4 → s.running c = true → d = x.origin + 8 * zero32 x.divAct → d ≤ max s.now t → exec (.timeStep t c) s = .next ((a.setCell c { x with origin := d, divAct := x.div }).selfStep c 1 d)) ∧
      (∀ (c : Fin 64) (x : Cell) (k d : Nat), x = s.cell c → x.mode = 6 → s.running c = true → x.synCycles = some k → d = x.origin + 8 * k → d ≤ max s.now t → exec (.syntheticStep t c) s = .next ((a.setCell c (x.synSettle d)).selfStep c (if 0 < x.rateHeld then 1 else -1) d)) ∧
      (∀ (c : Fin 64) (x : Cell) (y : Model) (k : Int), x = s.cell c → x.mode = 7 → s.running c = true → x.model = some y → k = y.pos (max s.now t) / oneCount - x.odo → (x.dir = 0 ∧ 0 < k ∨ x.dir = 1 ∧ k < 0) → exec (.mirrorPhaseStep t c) s = .next (a.selfStep c k (max s.now t))) ∧
      (∀ (c : Fin 64) (x : Cell), x = s.cell c → x.mode = 7 → x.en = true → x.mirOut = false → x.mirLast + fld x.mirrorSrc 16 8 * s.tCyc ≤ max s.now t → exec (.mirrorTimeout t c) s = .next (((a.setCell c { x with mirOut := true }).loseCell c).report (32 + c))) ∧
      (∀ (c : Fin 64) (x : Time), (s.cell c).stillLimit = some x → x < max s.now t → s.frozen c = false → exec (.standstill t c) s = .next ((a.putCell c ((s.cell c).drop .standstill (max s.now t))).cellChange c .other)) ∧
      (∀ (c : Fin 4096) (x : Time), (s.chan c).act = .time x → (s.chan c).st = .waiting → x ≤ max s.now t → exec (.waitTimeExpiry t c) s = .next (a.waitEnds c none)) ∧
      (∀ (c : Fin 4096), isWait 1 (s.chan c).cur = true → exec (.waitPosition t c) s = .next (a.effect c)) ∧
      (∀ (c : Fin 4096) (k : Nat) (x : Time), (s.chan c).st = .waiting → (s.chan c).act = .waitCmp k (some x) → x ≤ max s.now t → exec (.waitTimeout t c) s = .next (a.waitEnds c (some false))) ∧
      (∀ (c : Fin 4096) (x : Option Time), (s.chan c).st = .waiting → (s.chan c).act = .glade x → s.inGlade (s.chan c).cur = true → exec (.gladeComplete t c) s = .next (a.waitEnds c (some true))) ∧
      (∀ (c : Fin 4096) (x : Time), (s.chan c).inBracket = true → (s.chan c).lockFirst = some x → x + ns 256 ≤ max s.now t → exec (.lockAbandoned t c) s = .next (a.lockAbandon c)) ∧
      (∀ (x : Fin 32) (n : Nat) (b : Burst) (r : Req) (y : List Byte), s.mover x = some b → b.reqs.find? (fun r => r.addr = n) = some r → exec (.hostReadCompletion t x n (.data y)) s = .next (a.requestData x b r y)) ∧
      (∀ (x : Fin 32) (n : Nat) (b : Burst) (r : Req), s.mover x = some b → b.reqs.find? (fun r => r.addr = n) = some r → exec (.hostReadCompletion t x n .fail) s = .next (a.requestFails x b r)) ∧
      (∀ (x : Fin 32) (n : Nat) (b : Burst) (r : Req), s.mover x = some b → b.reqs.find? (fun r => r.addr = n) = some r → exec (.completionTimeout t x n) s = .next (a.requestFails x b r)) ∧
      (∀ (p : Fin 16), (s.port p).st = .disabling → exec (.portDisableComplete t p) s = .next (a.setPort p { s.port p with st := .disabled, onWire := none })) ∧
      (∀ (r : Fin 256), (s.stream r).st = .disabling → (s.stream r).owner = none → s.streamBusy r = false → exec (.streamDisableComplete t r) s = .next (a.setStream r { s.stream r with st := .disabled, recs := [] })) ∧
      (∀ (c : Fin 4096) (x : Time) (u : Nat), u = (s.chan c).cur.unit → (s.chan c).placedAt = some x → s.placing c = true → (s.chan c).act = .unit u → 0 < (s.stream u).gap → x + us (s.stream u).gap ≤ max s.now t → exec (.placementGap t c) s = .next (a.placeDone c)) ∧
      (bit s.net.ptp.ctrl 0 = true → s.net.ptp.role = 2 → exec (.holdover t) s = .next ((a.modPtp fun q => { q with role := 3 }).report 128)) ∧
      (∀ (k : Fin 4), (s.core k).st = .resetting → exec (.coreInReset t k) s = .next (a.coreInReset k)) ∧
      (∀ (k : Fin 4), (s.core k).st = .run → (s.core k).halted = false → s.und.st = .run → exec (.coreWfi t k) s = .next (a.setCore k { s.core k with st := .wfi })) ∧
      (∀ (i : Fin 8) (w : BitVec 64) (n : Nat) (b : Bool) (l : BitVec 16) (x : Time), (s.ser i).frame = some x → ∃ u, exec (.serialFrameEnd t i w n b l) s = .next u ∧ (u.ser i).frame = none ∧ (u.ser i).recover = max s.now t + us (fld (s.ser i).clk 16 8)) ∧
      (∀ (k : Fin 4), ∃ u, exec (.coreDebugHalt t k) s = .next u ∧ (u.core k).halted = true ∧ u.axes.start.halted = s.axes.start.halted ||| BitVec.ofNat 4 (1 <<< k.val)) ∧
      (∀ (k : Fin 4), ∃ u, exec (.coreDebugResume t k) s = .next u ∧ (u.core k).halted = false ∧ u.axes.start.halted = s.axes.start.halted &&& ~~~ BitVec.ofNat 4 (1 <<< k.val))) ∧
    (∀ c : Fin 4096,
      (Current s c 0x01 → exec (.read t c) s = .next (a.readStart c)) ∧ (Current s c 0x02 → exec (.write t c) s = .next (a.writeStart c)) ∧
      (Current s c 0x03 → isControl false 1 (s.chan c).cur = true → exec (.flush t c) s = .next (a.controlDo c)) ∧
      (Current s c 0x03 → isControl true 1 (s.chan c).cur = true → exec (.load t c) s = .next (a.controlDo c)) ∧
      (Current s c 0x03 → isControl true 2 (s.chan c).cur = true → exec (.setMod t c) s = .next (a.controlDo c)) ∧
      (Current s c 0x03 → isControl true 3 (s.chan c).cur = true → exec (.setRate t c) s = .next (a.controlDo c)) ∧
      (Current s c 0x04 → exec (.sense t c) s = .next (a.senseStart c)) ∧
      (Current s c 0x05 → exec (.move t c) s = .next (a.orMember c fun s => s.pump c)) ∧
      (Current s c 0x06 → exec (.fill t c) s = .next (a.orMember c fun s => s.pump c)) ∧
      (Current s c 0x07 → exec (.compare t c) s = .next (a.orMember c fun s => s.pump c)) ∧
      (Current s c 0x08 → exec (.gather t c) s = .next (a.gatherStart c)) ∧
      (Current s c 0x10 → exec (.tic t c) s = .next ((a.modChan c fun h => { h with next := some (h.cur.addr, h.cur.phy) }).complete c)) ∧
      (Current s c 0x11 → (s.chan c).cond = bit (s.chan c).cur.w1 0 → exec (.ticc t c) s = .next ((a.modChan c fun h => { h with next := none }).complete c)) ∧
      (Current s c 0x11 → (s.chan c).cond ≠ bit (s.chan c).cur.w1 0 → exec (.ticc t c) s = .next ((a.modChan c fun h => { h with next := some (h.cur.addr, h.cur.phy) }).complete c)) ∧
      (Current s c 0x20 → (s.chan c).cur.waitKind = 0 → exec (.waitTime t c) s = .next (a.enterWait c (.time (cyc (s.chan c).currentAt * 8 + ns (s.chan c).cur.addr)))) ∧
      (Current s c 0x20 → (s.chan c).cur.waitKind = 2 → s.unitReady (s.chan c).cur.unit = true → exec (.waitUnit t c) s = .next (a.waitEnds c (some true))) ∧
      (Current s c 0x20 → (s.chan c).cur.waitKind = 2 → s.unitReady (s.chan c).cur.unit = false → exec (.waitUnit t c) s = .next (a.enterWait c (.waitUnit (s.chan c).cur.unit ((s.chan c).waitLimit (s.chan c).cur.w3.toNat)))) ∧
      (Current s c 0x20 → (s.chan c).cur.waitKind = 3 → (s.chan c).armValid = false → (s.cmp (fld (s.chan c).cur.w2 0 8)).fireAt = none → exec (.waitCompare t c) s = .next (a.enterWait c (.waitCmp (fld (s.chan c).cur.w2 0 8) ((s.chan c).waitLimit (s.chan c).cur.w3.toNat)))) ∧
      (Current s c 0x21 → s.inGlade (s.chan c).cur = true → exec (.glade t c) s = .next (a.waitEnds c (some true))) ∧
      (Current s c 0x21 → s.inGlade (s.chan c).cur = false → s.gladeOor (s.chan c).cur = false → exec (.glade t c) s = .next (a.enterWait c (.glade ((s.chan c).waitLimit (s.chan c).cur.gladeTimeout)))) ∧
      (Current s c 0x30 → (s.chan c).cur.sigMode = 0 → exec (.signalLevel t c) s = .next (a.signalStart c)) ∧
      (Current s c 0x30 → (s.chan c).cur.sigMode = 1 → exec (.signalPulse t c) s = .next (a.signalStart c)) ∧
      (Current s c 0x30 → (s.chan c).cur.sigMode = 2 → exec (.signalPattern t c) s = .next (a.signalStart c)) ∧
      (Current s c 0x31 → bit (s.chan c).cur.w1 8 = false → exec (.armCompare t c) s = .next (a.armDo c)) ∧
      (Current s c 0x31 → bit (s.chan c).cur.w1 8 = true → exec (.armCapture t c) s = .next (a.armDo c)) ∧
      (Current s c 0x38 → exec (.lock t c) s = .next (a.lockDo c)) ∧ (Current s c 0x39 → exec (.unlock t c) s = .next (a.unlockDo c)) ∧
      (Current s c 0x3A → exec (.cas t c) s = .next (a.orMember c fun s => s.casDo c)) ∧ (Current s c 0x40 → exec (.mark t c) s = .next (a.markDo c)) ∧
      (Current s c 0x7F → exec (.nop t c) s = .next (a.orMember c fun s => s.complete c))) ∧
    (s.dead = false →
      (∀ (g : Fin 16) (x y : List Time) (f : Bool × Bool), exec (.incrementalStep t g x y f) s = .next (a.encFeed g (edges f.1 x) (edges f.2 y))) ∧
      (∀ (i : Fin 2) (x : List (Time × Bool)), exec (.mainsCrossing t i x) s = .next ((x.foldl (fun s p => s.mainsEdge i (min p.1 s.now) p.2) a).mainsQual i (max s.now t))) ∧
      (∀ (u : Fin 128), exec (.maxOn t u) s = .next (a.maxOnRest u)) ∧ (∀ (u : Fin 128), exec (.duty t u) s = .next (a.dutyRest u)) ∧
      (∀ (i : Fin 8) (x : List (Time × Bool)), exec (.permit t i x) s = .next ((x.foldl (fun s p => s.permitEdge i (min p.1 s.now) p.2) a).permitQual i (max s.now t))) ∧
      (exec (.budgetWindowStart t) s = .next (a.openWindow (max s.now t))) ∧
      (∀ (x : List (Time × Bool)), exec (.serviceEnQualify t x) s = .next ((x.foldl (fun s p => s.svcEdge (min p.1 s.now) p.2) a).svcQual (max s.now t))) ∧
      (∀ (p : Fin 16) (x : List Byte) (b : Bool), exec (.frameReceive t p x b) s = .next (if s.resting then a.restFrame p x b else a.frameReceive p x b t)) ∧
      (exec (.wakeEvent t none) s = .next (a.wake 0 true)) ∧ (∀ (x : Byte), exec (.wakeEvent t (some x)) s = .next (a.watchEvent x.toNat)) ∧
      (exec (.wakeComplete t) s = .next (a.wakeComplete)) ∧ (exec (.usbBusReset t) s = .next (a.usbReset)) ∧
      (∀ (x : Option (BitVec 8)), exec (.supplyExcursion t x) s = .next (a.excursion x)) ∧ (exec (.flr t) s = .next (a.flr)) ∧
      (exec (.functionResetReady t) s = .next (a.resetReady)) ∧
      (∀ (x : BootSource) (y : List Byte) (b : Bool), exec (.bootImageCheck t x y b) s = .next (if s.resting then a else a.bootImage x y b)) ∧
      (∀ (b : Bool), exec (.fuseProgramComplete t b) s = .next (a.fuseEnd b)) ∧
      (∀ (b : Bool) (x : PcieCfg), exec (.pcieLinkChange t b x) s = .next (a.linkChange b x)) ∧
      (exec (.servicePortAttach t) s = .next ({ a with svc := { s.svc with attached := true } })) ∧
      (∀ (p : Fin 16) (b : Bool), (s.port p).link = b → exec (.linkChange t p b) s = .next (a.setPort p { s.port p with link := b })) ∧
      (∀ (p : Fin 16), (s.port p).link = false → bit s.und.linkMon p = false → exec (.linkChange t p true) s = .next (a.setPort p { s.port p with link := true })) ∧
      (∀ (p : Fin 16), (s.port p).link = true → (s.port p).st = .enabled → s.resting = false → bit s.und.linkMon p = false → exec (.linkChange t p false) s = .next ((a.setPort p { s.port p with link := false, linkLost := true }).report (112 + p))) ∧
      (s.resting = true → fld s.und.timer 0 24 ≠ 0 → s.und.restAt + ms (fld s.und.timer 0 24) ≤ max s.now t → exec (.undTimerExpiry t) s = .next (a.watchEvent 0x70)) ∧
      (∀ (i : Fin 2), bit (s.mainsIn i).ctrl 0 = true → (∀ l, (s.mainsIn i).lastX = some l → l + ms 25 ≤ max s.now t) → exec (.mainsCrossingTimeout t i) s = .next (a.watchEvent (0x10 + i)))) ∧
    (
      (∀ (c : Fin 64), s.serves (cellOfs c) = true → exec (.cellCtrlWrite t m c v) s = .next (a.cellCtrl c v)) ∧
      (∀ (c : Fin 64), s.serves (cellOfs c + 0x04) = true → exec (.cellModWrite t m c v) s = .next (a.writeMod c v)) ∧
      (∀ (c : Fin 64), s.serves (cellOfs c + 0x5C) = true → exec (.loadGo t m c v) s = .next (a.loadGo c v)) ∧
      (∀ (c : Fin 64), s.serves (cellOfs c + 0x64) = true → exec (.synRateCommit t m c v) s = .next (a.synHi c v)) ∧
      (∀ (c : Fin 64), s.serves (cellOfs c + 0x70) = true → exec (.mirrorOfsCommit t m c v) s = .next (a.mirrorHi c v)) ∧
      (∀ (k : Fin 256), s.serves (cmpOfs k) = true → exec (.cmpCtrlWrite t m k v) s = .next (a.cmpCtrl k v)) ∧
      (∀ (k : Fin 256) (b : Bool), s.serves (cmpOfs k + (if b then 0x08 else 0x04)) = true → exec (.cmpValueWrite t m k b v) s = .next (a.cmpValue k b v)) ∧
      (∀ (j : Fin 128), s.serves (capOfs j) = true → exec (.capCtrlWrite t m j v) s = .next (a.capCtrl j v)) ∧
      (s.serves (startOfs + 0x08) = true → exec (.cellRelease t m) s = .next (a.startGo 1)) ∧
      (s.serves (startOfs + 0x08) = true → exec (.cellHold t m) s = .next (a.startGo 2)) ∧
      (s.serves (moverOfs + 0x20) = true → exec (.moverPeakClr t m v) s = .next (a.moverCtrl v)) ∧
      (s.serves (queueOfs + 8) = true → exec (.adminCfgWrite t m v) s = .next (a.adminCfg v)) ∧
      (∀ (q : Fin 1024), s.serves (0) = true → exec (.wqDoorbell t m q) s = .next (a.wqAccess m q WQ.doorbell)) ∧
      (∀ (q : Fin 1024) (n : Nat) (x : List Byte), s.serves (0) = true → exec (.pushSlotWrite t m q n x) s = .next (a.wqAccess m q fun w => w.pushed (cyc (max s.now t)) n x)) ∧
      (∀ (q : Fin 1024) (b : Bool), s.serves (0) = true → exec (.eqDoorbell t m q b) s = .next (a.modEq q fun e => e.doorbell b)) ∧
      (s.serves (xlOfs + 0x20) = true → exec (.xlInvGo t m v) s = .next (a.invGo v)) ∧
      (∀ (d : Fin 256), s.serves (domOfs d) = true → exec (.domCtrlWrite t m d v) s = .next (a.domCtrl d v)) ∧
      (∀ (d : Fin 256), s.serves (fqOfs d + 0xC) = true → exec (.fqDb t m d v) s = .next (a.fqDoorbell d v)) ∧
      (∀ (d : Fin 256), s.serves (fqOfs d + 8) = true → exec (.fqCfgWrite t m d v) s = .next (a.fqCfg d v)) ∧
      (s.serves (xlOfs + 0x34) = true → exec (.parkPeakClr t m v) s = .next (a.parkCtrl v)) ∧
      (∀ (k : Fin 4) (w : Fin 8) (x : CwReg), s.serves (winOfs k w + cwReg x) = true → exec (.cwCtrlWrite t m k w x v) s = .next (a.setWin (k * 8 + w) ((s.win (k * 8 + w)).write x v))) ∧
      (s.serves (lwsOfs) = true → exec (.commitFence t m v) s = .next (a.lwsCmd m (setFld v 0 2 tgFence))) ∧
      (s.serves (lwsOfs) = true → exec (.commitConduct t m v) s = .next (a.lwsCmd m (setFld v 0 2 tgConduct))) ∧
      (s.serves (lwsOfs) = true → exec (.commitIdentity t m v) s = .next (a.lwsCmd m (setFld v 0 2 tgIdent))) ∧
      (∀ (o : Fin 608), s.serves (lwsOfs + 0x1000 + 4 * o) = true → exec (.lwsStageWrite t m o v) s = .next (a.lwsStage (4 * o) (leBytes 4 v.toNat))) ∧
      (∀ (p : Fin 16), s.serves (portOfs p) = true → exec (.portCtrlWrite t m p v) s = .next (a.portCtrl p v)) ∧
      (∀ (r : Fin 256), s.serves (streamOfs r) = true → exec (.rsCtrlWrite t m r v) s = .next (a.rsCtrl r v)) ∧
      (∀ (x : Fin 64), s.serves (txqCtrlOfs x) = true → exec (.txqCtrlWrite t m x v) s = .next (a.txqCtrl x v)) ∧
      (s.serves (yzOfs + 0x1A0) = true → exec (.lineStop t m v) s = .next (a.stopWrite v)) ∧
      (∀ (w : Fin 32), s.serves (cicOfs + 0x1000 + 4 * w) = true → exec (.cicPendWrite t m w v) s = .next (a.cicSet w v)) ∧
      (∀ (w : Fin 32), s.serves (cicOfs + 0x1080 + 4 * w) = true → exec (.cicPclrWrite t m w v) s = .next (a.cicClear w v)) ∧
      (∀ (k : Fin 4), s.serves (cicCoreOfs k + 8) = true → exec (.cicComplete t m k v) s = .next (a.cicComplete m k v)) ∧
      (s.serves (undBase + 4) = true → exec (.undRest t m v) s = .next (a.undRest v)) ∧
      (∀ (b : Fin 64), s.serves (mbOfs b + 0x20) = true → exec (.mbSend t m b v) s = .next (a.mbSendWrite m b v)) ∧
      (∀ (b : Fin 64), s.serves (mbOfs b + 0x60) = true → exec (.mbAck t m b v) s = .next (a.mbAckWrite m b v)) ∧
      (∀ (b : Fin 64), s.serves (mbTabOfs + 4 * b) = true → exec (.mbBindWrite t m b v) s = .next (a.mbBind b v)) ∧
      (s.serves (mbTabOfs + 0x200) = true → exec (.mbLock t m v) s = .next (a.mbLock v)) ∧
      (∀ (k : Fin 4), s.serves (coreOfs k + 0x10) = true → exec (.cleanDataLines t m k v) s = .next (a.cmo m k (setFld v 0 3 1))) ∧
      (∀ (k : Fin 4), s.serves (coreOfs k + 0x10) = true → exec (.invalidateDataLines t m k v) s = .next (a.cmo m k (setFld v 0 3 2))) ∧
      (∀ (k : Fin 4), s.serves (coreOfs k + 0x10) = true → exec (.cleanInvalidateDataLines t m k v) s = .next (a.cmo m k (setFld v 0 3 3))) ∧
      (∀ (k : Fin 4), s.serves (coreOfs k + 0x10) = true → exec (.invalidateInstructionLines t m k v) s = .next (a.cmo m k (setFld v 0 3 4))) ∧
      (∀ (k : Fin 4), s.serves (coreOfs k + 0x10) = true → exec (.cleanWholeDataCache t m k v) s = .next (a.cmo m k (setFld v 0 3 5))) ∧
      (∀ (k : Fin 4), s.serves (coreOfs k + 0x10) = true → exec (.cleanInvalidateWholeDataCache t m k v) s = .next (a.cmo m k (setFld v 0 3 6))) ∧
      (∀ (k : Fin 4), s.serves (coreOfs k) = true → exec (.coreReset t m k v) s = .next (a.coreCtrl m k (v ||| 1))) ∧
      (∀ (k : Fin 4), s.serves (coreOfs k) = true → exec (.coreRelease t m k v) s = .next (a.coreCtrl m k (v &&& ~~~1))) ∧
      (∀ (k : Fin 4), s.serves (coreOfs k + 0x24) = true → exec (.wdCtrlWrite t m k v) s = .next (a.wdCtrl k v)) ∧
      (∀ (k : Fin 4), s.serves (coreOfs k + 0x28) = true → exec (.wdKick t m k v) s = .next (a.wdKick m k v)) ∧
      (s.serves (memOfs + 0x3C) = true → exec (.arbTwaitClr t m v) s = .next (a.arbCtrl v)) ∧
      (s.serves (schedOfs + 0x0C) = true → exec (.schedPeakClr t m v) s = .next (a.schedCtrl v)) ∧
      (s.serves (fcOfs + 0xC) = true → exec (.safeEnter t m v) s = .next (a.fcSafe (v ||| 2))) ∧
      (s.serves (fcOfs + 0xC) = true → exec (.safeExit t m v) s = .next (a.fcSafe (v ||| 1))) ∧
      (s.serves (fcOfs + 0x20) = true → exec (.fcTkeyWrite t m v) s = .next (a.fcTkey m v)) ∧
      (s.serves (fcOfs + 4) = true → exec (.fcLock t m v) s = .next (a.fcLock v)) ∧
      (s.serves (fcOfs + 0x110) = true → exec (.fcFirstClr t m v) s = .next (a.fcFirstClr v)) ∧
      (s.serves (0x1004) = true → exec (.funcReset t m v) s = .next (a.funcReset v)) ∧
      (s.serves (bootOfs + 0xC) = true → exec (.bootHostGo t m v) s = .next (a.bootGo m v)) ∧
      (s.serves (bootOfs + 0x40) = true → exec (.bootFuseCmd t m v) s = .next (a.fuseCmd m v)) ∧
      (s.serves (tcmaOfs + 4) = true → exec (.tcmaData t m (some v)) s = .next (a.tcmaWrite m v)) ∧
      (∀ (o n : Nat) (x : Option (List Byte)), s.serves (0) = true → exec (.bar4Access t o n x) s = .next (a.bar4 o n x)) ∧
      (∀ (o : Nat), s.serves (o) = true → exec (.registerWrite t m o 15 v) s = .next (if o % 4 = 0 ∧ m ≠ 0x20 then a.putReg m o v else a))) ∧
    (∀ given : Word × State → State, (∀ p, given p = p.2.reply p.1) →
      (∀ (c : Fin 64), s.serves (cellOfs c + 0x20) = true → exec (.posFtRead t m c) s = .next (given (a.readPosFt m c))) ∧
      (∀ (k : Fin 256), s.serves (cmpOfs k + 0x14) = true → exec (.cmpFtRead t m k) s = .next (given (a.readCmpFt m k))) ∧
      (∀ (j : Fin 128), s.serves (capOfs j + 0x20) = true → exec (.capPop t m j) s = .next (given (a.readCapPop m j))) ∧
      (s.serves (startOfs + 0x14) = true → exec (.startTRead t m) s = .next (given (a.readStartT m))) ∧
      (s.serves (startOfs + 0x34) = true → exec (.frzTRead t m) s = .next (given (a.readFrzT m))) ∧
      (s.serves (moverOfs + 0x10) = true → exec (.moverBytesRead t m) s = .next (given (a.readMoverBytes m))) ∧
      (∀ (x : Fin 32), s.serves (0x151100 + x * 8) = true → exec (.mvStateRead t m x) s = .next (given (a.readMvState m x))) ∧
      (∀ (c : Fin 4096), s.serves (ctxOfs c) = true → exec (.ctxStateRead t m c) s = .next (given (a.readCtx m c))) ∧
      (∀ (q : Fin 1024), s.serves (wqOfs q + 4) = true → exec (.wqPiRead t m q) s = .next (given (a.readWqPi m q))) ∧
      (∀ (q : Fin 1024), s.serves (eqOfs q + 4) = true → exec (.eqResRead t m q) s = .next (given (a.readEqRes m q))) ∧
      (s.serves (xlOfs) = true → exec (.xlHitRead t m) s = .next (given (a.readXlHit m))) ∧
      (∀ (d : Fin 256), s.serves (fqOfs d + 0x14) = true → exec (.fqPiRead t m d) s = .next (given (a.readFqPi m d))) ∧
      (∀ (u : Fin 128), s.serves (ouOfs u + 8) = true → exec (.ouEdgeRead t m u) s = .next (given (a.readOuEdge m u))) ∧
      (s.serves (ptpOfs + 0x14) = true → exec (.ptpNowRead t m) s = .next (given (a.readPtpNow m))) ∧
      (∀ (k : Fin 4), s.serves (cicCoreOfs k + 4) = true → exec (.cicClaim t m k) s = .next (given (a.cicClaim m k))) ∧
      (s.serves (undBase + 0x24) = true → exec (.undWtRead t m) s = .next (given (a.readWake m))) ∧
      (s.serves (memOfs) = true → exec (.mtimeRead t m) s = .next (given (a.readMtime m))) ∧
      (s.serves (fcOfs + 0x100) = true → exec (.fcFirstRead t m) s = .next (given (a.readFirst m))) ∧
      (∀ (x : Fin 32), s.serves (trailOfs x) = true → exec (.fcTrailRead t m x) s = .next (given (a.readTrail m x))) ∧
      (s.serves (fcOfs + 0x18) = true → exec (.fcSafeTRead t m) s = .next (given (a.readSafeT m))) ∧
      (s.serves (0x1010) = true → exec (.devtimeRead t m) s = .next (given (a.readDevtime m))) ∧
      (s.serves (tcmaOfs + 4) = true → exec (.tcmaData t m none) s = .next (given (a.tcmaRead m)))) ∧
    (∀ y : State, s.dead = false → s.svc.attached = true → s.rst.busy = false → s.resting = false →
      y = { a with svc := { s.svc with frames := s.svc.frames + 1 } } →
      (∀ (o n : Nat) (l : List Word) (x : State), 1 ≤ n → n ≤ 64 → y.svcWords (o / 4 * 4) n = (l, x) → exec (.svcRead t o n) s = .next (x.answer 0 l)) ∧
      (∀ (b : Fin 64) (x : List Word), exec (.svcMbSend t b x) s = .next (y.svcSend b x)) ∧
      (∀ (b : Fin 64) (x : BitVec 16), exec (.svcMbAck t b x) s = .next (y.svcAck b x)) ∧
      (∀ (n : Nat) (x : List Byte), exec (.svcStage t n x) s = .next (y.svcStage n x)) ∧
      (∀ (w x : Word), exec (.svcCommit t w x v) s = .next (y.svcCommit w x v)) ∧ (∀ (x : BitVec 256), exec (.svcFuse t x) s = .next (y.svcFuse x)) ∧
      (∀ (k : Fin 4) (b : Bool), exec (.svcCoreReset t k b) s = .next (y.svcCore k b))) ∧
    (
      (∀ (b : Bool), exec (.commitComplete t b) s = .next (a.commitEnd b)) ∧
      (∀ (b x : Bool), exec (.temperatureThreshold t b x) s = .next (a.holdSrc (if b then 161 else 160) x)) ∧
      (exec (.powerOnReset t) s = .next (a.powerDown)) ∧ (∀ (n : Nat), exec (.resetN t n) s = .next (a.resetPin n)) ∧
      (∀ (b : Bool), exec (.perstN t b) s = .next (a.perst b)) ∧
      (∀ (x : BitVec 8), s.rst.por = true → exec (.powerOnRelease t x) s = .next ({ a with now := 0, outs := { s.outs with bank33 := x } }.startUp)))
end

