-- ==== Sys2Proof/Laws/Table.lean ====
section
/-! SUPPORT. Laws of the sparse tables: a read after a write to the same key gives the value written, a write leaves every other
key alone, and a write keeps the canonical form. -/

namespace Sys2Proof.Machine

variable {α : Type}

theorem tget_tdel (d : α) (t : Tab α) (k j : Nat) : tget d (tdel k t) j = if j = k then d else tget d t j := by
  induction t with
  | nil => simp [tdel, tget]
  | cons p r ih =>
    obtain ⟨i, v⟩ := p
    simp only [tdel] at ih
    by_cases hi : i = k
    · by_cases hj : j = k
      · simpa [tdel, hi, tget, hj] using ih
      · have : ¬ k = j := fun h => hj h.symm
        simpa [tdel, hi, tget, hj, this] using ih
    · by_cases hij : i = j
      · subst hij; simp [tdel, hi, tget]
      · simpa [tdel, hi, tget, hij] using ih

theorem tget_tins (d : α) (t : Tab α) (k j : Nat) (v : α) (hk : ∀ p ∈ t, p.1 ≠ k) :
    tget d (tins k v t) j = if j = k then v else tget d t j := by
  induction t with
  | nil => by_cases hj : k = j <;> simp [tins, tget, hj, eq_comm]
  | cons p r ih =>
    obtain ⟨i, w⟩ := p
    have hr : ∀ p ∈ r, p.1 ≠ k := fun p hp => hk p (List.mem_cons_of_mem _ hp)
    have hi : i ≠ k := hk (i, w) List.mem_cons_self
    have ih := ih hr
    simp only [tins]
    split
    · by_cases hj : k = j <;> simp [tget, hj, eq_comm]
    · by_cases hij : i = j
      · subst hij; simp [tget, hi]
      · simp only [tget, hij, if_false, ih]

theorem tdel_ne (t : Tab α) (k : Nat) : ∀ p ∈ tdel k t, p.1 ≠ k := by
  intro p hp; simpa using (List.mem_filter.1 hp).2

theorem mem_tins (t : Tab α) (k : Nat) (v : α) {p : Nat × α} (h : p ∈ tins k v t) : p = (k, v) ∨ p ∈ t := by
  induction t with
  | nil => simpa [tins] using h
  | cons q r ih =>
    simp only [tins] at h
    split at h
    · simpa using h
    · rcases List.mem_cons.1 h with rfl | h
      · exact .inr List.mem_cons_self
      · rcases ih h with h | h
        · exact .inl h
        · exact .inr (List.mem_cons_of_mem _ h)

@[simp] theorem tget_nil (d : α) (k : Nat) : tget d ([] : Tab α) k = d := rfl

variable [DecidableEq α]

/-- A read after a write. -/
theorem tget_tput (d : α) (t : Tab α) (k j : Nat) (v : α) : tget d (tput d t k v) j = if j = k then v else tget d t j := by
  unfold tput
  split
  · rename_i h; rw [tget_tdel, h]
  · rw [tget_tins d _ k j v (tdel_ne t k), tget_tdel]
    split <;> rfl

@[simp] theorem tget_tput_self (d : α) (t : Tab α) (k : Nat) (v : α) : tget d (tput d t k v) k = v := by
  simp [tget_tput]

theorem tget_tput_ne (d : α) (t : Tab α) {k j : Nat} (v : α) (h : j ≠ k) : tget d (tput d t k v) j = tget d t j := by
  simp [tget_tput, h]

theorem twf_cons (d : α) (k : Nat) (v : α) (t : Tab α) :
    twf d ((k, v) :: t) = true ↔ v ≠ d ∧ (∀ p ∈ t, k < p.1) ∧ twf d t = true := by
  induction t generalizing k v with
  | nil => simp [twf]
  | cons p r ih =>
    obtain ⟨j, w⟩ := p
    simp only [twf, Bool.and_eq_true, decide_eq_true_eq]
    constructor
    · rintro ⟨⟨h1, h2⟩, h3⟩
      refine ⟨h1, ?_, h3⟩
      intro p hp
      rcases List.mem_cons.1 hp with rfl | hp
      · exact h2
      · exact Nat.lt_trans h2 (((ih j w).1 h3).2.1 p hp)
    · rintro ⟨h1, h2, h3⟩
      exact ⟨⟨h1, h2 (j, w) List.mem_cons_self⟩, h3⟩

theorem twf_tdel (d : α) (t : Tab α) (k : Nat) (h : twf d t = true) : twf d (tdel k t) = true := by
  induction t with
  | nil => rfl
  | cons p r ih =>
    obtain ⟨j, w⟩ := p
    obtain ⟨h1, h2, h3⟩ := (twf_cons d j w r).1 h
    simp only [tdel, List.filter_cons]
    split
    · exact (twf_cons d j w _).2 ⟨h1, fun p hp => h2 p (List.mem_of_mem_filter hp), ih h3⟩
    · exact ih h3

theorem twf_tins (d : α) (t : Tab α) (k : Nat) (v : α) (hv : v ≠ d) (hk : ∀ p ∈ t, p.1 ≠ k) (h : twf d t = true) :
    twf d (tins k v t) = true := by
  induction t with
  | nil => simpa [tins, twf] using hv
  | cons p r ih =>
    obtain ⟨j, w⟩ := p
    obtain ⟨h1, h2, h3⟩ := (twf_cons d j w r).1 h
    simp only [tins]
    split
    · rename_i hlt
      refine (twf_cons d k v _).2 ⟨hv, ?_, h⟩
      intro p hp
      rcases List.mem_cons.1 hp with rfl | hp
      · exact hlt
      · exact Nat.lt_trans hlt (h2 p hp)
    · rename_i hlt
      refine (twf_cons d j w _).2 ⟨h1, ?_, ih (fun p hp => hk p (List.mem_cons_of_mem _ hp)) h3⟩
      intro p hp
      rcases mem_tins r k v hp with rfl | hp
      · have := hk (j, w) List.mem_cons_self
        simp only at this ⊢; omega
      · exact h2 p hp

/-- A write keeps the canonical form. -/
theorem twf_tput (d : α) (t : Tab α) (k : Nat) (v : α) (h : twf d t = true) : twf d (tput d t k v) = true := by
  unfold tput
  split
  · exact twf_tdel d t k h
  · rename_i hv
    exact twf_tins d _ k v hv (tdel_ne t k) (twf_tdel d t k h)

theorem twf_putBytes (t : Tab Byte) (a : Nat) (b : List Byte) (h : twf 0 t = true) : twf 0 (putBytes t a b) = true := by
  induction b generalizing t a with
  | nil => exact h
  | cons x r ih => exact ih _ _ (twf_tput 0 t a x h)

/-- A read of a byte after a write of a list of bytes. -/
theorem tget_putBytes (t : Tab Byte) (a x : Nat) (b : List Byte) :
    tget 0 (putBytes t a b) x = if a ≤ x ∧ x < a + b.length then b.getD (x - a) 0 else tget 0 t x := by
  induction b generalizing t a with
  | nil => simp [putBytes]
  | cons y r ih =>
    simp only [putBytes, ih, tget_tput, List.length_cons]
    by_cases h1 : a + 1 ≤ x ∧ x < a + 1 + r.length
    · obtain ⟨h2, h3⟩ := h1
      have h4 : a ≤ x ∧ x < a + (r.length + 1) := by omega
      have h5 : x - a = x - (a + 1) + 1 := by omega
      simp [h2, h3, h4, h5]
    · by_cases h2 : x = a
      · subst h2; simp
      · have h4 : ¬ (a ≤ x ∧ x < a + (r.length + 1)) := by omega
        rw [if_neg h1, if_neg h2, if_neg h4]

theorem reset_mem_wf : State.reset.mem.wf = true := by decide

end Sys2Proof.Machine
end

