-- ==== Sys2Proof/Laws/Kept.lean ====
section
/-! SUPPORT. What an operation leaves alone, in four steps: `Held` holds of every operation (the queue of commands, and the canonical form
of the memories), `Kept` of those of the engine (time, the limited-write store, boot, reset and service registers too), `Ran` of those that
run channels, queues and compare units (cells and their inputs, the Understory, mailboxes and latched words too), `Quiet` of those that
touch no compare or capture unit either. Each lemma of the Kept files is one operation at its strongest step. -/

namespace Sys2Proof.Machine

theorem Held.refl (s : State) : Held s s := ⟨rfl, id⟩
theorem Kept.refl (s : State) : Kept s s := ⟨.refl s, rfl, rfl, rfl, rfl, rfl⟩
theorem Ran.refl (s : State) : Ran s s := ⟨.refl s, rfl, rfl, rfl, rfl⟩
theorem Quiet.refl (s : State) : Quiet s s := ⟨.refl s, rfl, rfl⟩

theorem Held.trans {a b c : State} (h : Held a b) (k : Held b c) : Held a c :=
  ⟨k.pending.trans h.pending, fun x => k.wf (h.wf x)⟩

theorem Kept.trans {a b c : State} (h : Kept a b) (k : Kept b c) : Kept a c :=
  ⟨h.toHeld.trans k.toHeld, k.now.trans h.now, k.lws.trans h.lws, k.boot.trans h.boot, k.rst.trans h.rst, k.svc.trans h.svc⟩

theorem Ran.trans {a b c : State} (h : Ran a b) (k : Ran b c) : Ran a c :=
  ⟨h.toKept.trans k.toKept, k.axes.trans h.axes, k.und.trans h.und, k.mbox.trans h.mbox, k.latches.trans h.latches⟩

theorem Quiet.trans {a b c : State} (h : Quiet a b) (k : Quiet b c) : Quiet a c :=
  ⟨h.toRan.trans k.toRan, k.cmps.trans h.cmps, k.caps.trans h.caps⟩

theorem Held.ofKept {a b c : State} (k : Kept b c) (h : Held a b) : Held a c := h.trans k.toHeld
theorem Held.ofRan {a b c : State} (k : Ran b c) (h : Held a b) : Held a c := h.trans k.toKept.toHeld
theorem Held.ofQuiet {a b c : State} (k : Quiet b c) (h : Held a b) : Held a c := h.trans k.toKept.toHeld
theorem Kept.ofRan {a b c : State} (k : Ran b c) (h : Kept a b) : Kept a c := h.trans k.toKept
theorem Kept.ofQuiet {a b c : State} (k : Quiet b c) (h : Kept a b) : Kept a c := h.trans k.toKept
theorem Ran.ofQuiet {a b c : State} (k : Quiet b c) (h : Ran a b) : Ran a c := h.trans k.toRan

/-- An update of fields that `Held` does not speak of. -/
theorem Held.put {a s : State} {v0 v1 v2 v3 v4 v5 v6 v7 v8 v9 v10 v11 v12 v13 v14 v15 v16 v17 v18 v19 v20 v21 v22 v23} (h : Held a s)
    (hm : v16.wf = s.mem.wf) :
    Held a ⟨v0, v1, v2, v3, v4, v5, v6, v7, v8, v9, v10, v11, v12, v13, v14, v15, v16, v17, v18, v19, v20, v21, v22, v23,
      s.pending⟩ := h.trans ⟨rfl, fun x => hm.trans x⟩

theorem Kept.put {a s : State} {v1 v2 v3 v4 v5 v6 v7 v8 v9 v10 v11 v12 v13 v14 v15 v16 v17 v18 v19} (h : Kept a s)
    (hm : v16.wf = s.mem.wf) :
    Kept a ⟨s.now, v1, v2, v3, v4, v5, v6, v7, v8, v9, s.lws, v11, v12, v13, v14, v15, v16, v17, s.rst, s.boot, s.svc, v10, v18,
      v19, s.pending⟩ := h.trans ⟨⟨rfl, fun x => hm.trans x⟩, rfl, rfl, rfl, rfl, rfl⟩

theorem Ran.put {a s : State} {v2 v3 v4 v5 v6 v7 v8 v9 v11 v12 v15 v16 v17 v18 v19} (h : Ran a s) (hm : v16.wf = s.mem.wf) :
    Ran a ⟨s.now, s.axes, v2, v3, v4, v5, v6, v7, v8, v9, s.lws, v11, v12, s.und, s.mbox, v15, v16, v17, s.rst, s.boot, s.svc,
      s.latches, v18, v19, s.pending⟩ :=
  h.trans ⟨⟨⟨rfl, fun x => hm.trans x⟩, rfl, rfl, rfl, rfl, rfl⟩, rfl, rfl, rfl, rfl⟩

theorem Quiet.put {a s : State} {v4 v5 v6 v7 v8 v9 v11 v12 v15 v16 v17 v18 v19} (h : Quiet a s) (hm : v16.wf = s.mem.wf) :
    Quiet a ⟨s.now, s.axes, s.cmps, s.caps, v4, v5, v6, v7, v8, v9, s.lws, v11, v12, s.und, s.mbox, v15, v16, v17, s.rst, s.boot,
      s.svc, s.latches, v18, v19, s.pending⟩ :=
  h.trans ⟨⟨⟨⟨rfl, fun x => hm.trans x⟩, rfl, rfl, rfl, rfl, rfl⟩, rfl, rfl, rfl, rfl⟩, rfl, rfl⟩

/-! ## Held through branches and folds -/

theorem Held.ite {a x y : State} {c : Prop} [Decidable c] (h : Held a x) (k : Held a y) : Held a (if c then x else y) := by
  split <;> assumption

theorem Held.ite_snd {β : Type} {a : State} {c : Prop} [Decidable c] {p q : β × State} (hp : Held a p.2) (hq : Held a q.2) :
    Held a (if c then p else q).2 := by
  split <;> assumption

theorem Held.ite_snd_of {β : Type} {a u : State} {w : β} {c : Prop} [Decidable c] {p q : β × State}
    (e : (if c then p else q) = (w, u)) (hp : Held a p.2) (hq : Held a q.2) : Held a u := by
  split at e
  · rw [e] at hp
    exact hp
  · rw [e] at hq
    exact hq

theorem Held.foldl {α : Type} {a : State} (f : State → α → State) (hf : ∀ s x, Held a s → Held a (f s x)) (l : List α) {s : State}
    (h : Held a s) : Held a (l.foldl f s) := by
  induction l generalizing s with
  | nil => exact h
  | cons x r ih => exact ih (hf _ _ h)

theorem Held.foldl_snd {α β : Type} {a : State} (f : β × State → α → β × State)
    (hf : ∀ p x, Held a p.2 → Held a (f p x).2) (l : List α) {p : β × State} (h : Held a p.2) : Held a (l.foldl f p).2 := by
  induction l generalizing p with
  | nil => exact h
  | cons x r ih => exact ih (hf _ _ h)

/-! ## Kept through branches and folds -/

theorem Kept.ite {a x y : State} {c : Prop} [Decidable c] (h : Kept a x) (k : Kept a y) : Kept a (if c then x else y) := by
  split <;> assumption

theorem Kept.ite_snd {β : Type} {a : State} {c : Prop} [Decidable c] {p q : β × State} (hp : Kept a p.2) (hq : Kept a q.2) :
    Kept a (if c then p else q).2 := by
  split <;> assumption

theorem Kept.ite_snd_of {β : Type} {a u : State} {w : β} {c : Prop} [Decidable c] {p q : β × State}
    (e : (if c then p else q) = (w, u)) (hp : Kept a p.2) (hq : Kept a q.2) : Kept a u := by
  split at e
  · rw [e] at hp
    exact hp
  · rw [e] at hq
    exact hq

theorem Kept.foldl {α : Type} {a : State} (f : State → α → State) (hf : ∀ s x, Kept a s → Kept a (f s x)) (l : List α) {s : State}
    (h : Kept a s) : Kept a (l.foldl f s) := by
  induction l generalizing s with
  | nil => exact h
  | cons x r ih => exact ih (hf _ _ h)

theorem Kept.foldl_snd {α β : Type} {a : State} (f : β × State → α → β × State)
    (hf : ∀ p x, Kept a p.2 → Kept a (f p x).2) (l : List α) {p : β × State} (h : Kept a p.2) : Kept a (l.foldl f p).2 := by
  induction l generalizing p with
  | nil => exact h
  | cons x r ih => exact ih (hf _ _ h)

theorem Kept.foldl_fst {α β : Type} {a : State} (f : State × β → α → State × β)
    (hf : ∀ p x, Kept a p.1 → Kept a (f p x).1) (l : List α) {p : State × β} (h : Kept a p.1) : Kept a (l.foldl f p).1 := by
  induction l generalizing p with
  | nil => exact h
  | cons x r ih => exact ih (hf _ _ h)

theorem Kept.foldl_thd {α β γ : Type} {a : State} (f : β × γ × State → α → β × γ × State)
    (hf : ∀ p x, Kept a p.2.2 → Kept a (f p x).2.2) (l : List α) {p : β × γ × State} (h : Kept a p.2.2) :
    Kept a (l.foldl f p).2.2 := by
  induction l generalizing p with
  | nil => exact h
  | cons x r ih => exact ih (hf _ _ h)

theorem Kept.foldl_fst_of {α β : Type} {a u : State} {w : β} {f : State × β → α → State × β} {l : List α} {p : State × β}
    (e : l.foldl f p = (u, w)) (hf : ∀ p x, Kept a p.1 → Kept a (f p x).1) (h : Kept a p.1) : Kept a u := by
  have := Kept.foldl_fst f hf l h
  rwa [e] at this

theorem Kept.foldl_snd_of {α β : Type} {a u : State} {w : β} {f : β × State → α → β × State} {l : List α} {p : β × State}
    (e : l.foldl f p = (w, u)) (hf : ∀ p x, Kept a p.2 → Kept a (f p x).2) (h : Kept a p.2) : Kept a u := by
  have := Kept.foldl_snd f hf l h
  rwa [e] at this

theorem Kept.foldl_thd_of {α β γ : Type} {a u : State} {w : β} {v : γ} {f : β × γ × State → α → β × γ × State} {l : List α}
    {p : β × γ × State} (e : l.foldl f p = (w, v, u)) (hf : ∀ p x, Kept a p.2.2 → Kept a (f p x).2.2) (h : Kept a p.2.2) :
    Kept a u := by
  have := Kept.foldl_thd f hf l h
  rwa [e] at this

/-! ## Ran through branches and folds -/

theorem Ran.ite {a x y : State} {c : Prop} [Decidable c] (h : Ran a x) (k : Ran a y) : Ran a (if c then x else y) := by
  split <;> assumption

theorem Ran.ite_snd {β : Type} {a : State} {c : Prop} [Decidable c] {p q : β × State} (hp : Ran a p.2) (hq : Ran a q.2) :
    Ran a (if c then p else q).2 := by
  split <;> assumption

theorem Ran.ite_snd_of {β : Type} {a u : State} {w : β} {c : Prop} [Decidable c] {p q : β × State}
    (e : (if c then p else q) = (w, u)) (hp : Ran a p.2) (hq : Ran a q.2) : Ran a u := by
  split at e
  · rw [e] at hp
    exact hp
  · rw [e] at hq
    exact hq

theorem Ran.foldl {α : Type} {a : State} (f : State → α → State) (hf : ∀ s x, Ran a s → Ran a (f s x)) (l : List α) {s : State}
    (h : Ran a s) : Ran a (l.foldl f s) := by
  induction l generalizing s with
  | nil => exact h
  | cons x r ih => exact ih (hf _ _ h)

theorem Ran.foldl_snd {α β : Type} {a : State} (f : β × State → α → β × State)
    (hf : ∀ p x, Ran a p.2 → Ran a (f p x).2) (l : List α) {p : β × State} (h : Ran a p.2) : Ran a (l.foldl f p).2 := by
  induction l generalizing p with
  | nil => exact h
  | cons x r ih => exact ih (hf _ _ h)

theorem Ran.foldl_fst {α β : Type} {a : State} (f : State × β → α → State × β)
    (hf : ∀ p x, Ran a p.1 → Ran a (f p x).1) (l : List α) {p : State × β} (h : Ran a p.1) : Ran a (l.foldl f p).1 := by
  induction l generalizing p with
  | nil => exact h
  | cons x r ih => exact ih (hf _ _ h)

theorem Ran.foldl_thd {α β γ : Type} {a : State} (f : β × γ × State → α → β × γ × State)
    (hf : ∀ p x, Ran a p.2.2 → Ran a (f p x).2.2) (l : List α) {p : β × γ × State} (h : Ran a p.2.2) :
    Ran a (l.foldl f p).2.2 := by
  induction l generalizing p with
  | nil => exact h
  | cons x r ih => exact ih (hf _ _ h)

theorem Ran.foldl_fst_of {α β : Type} {a u : State} {w : β} {f : State × β → α → State × β} {l : List α} {p : State × β}
    (e : l.foldl f p = (u, w)) (hf : ∀ p x, Ran a p.1 → Ran a (f p x).1) (h : Ran a p.1) : Ran a u := by
  have := Ran.foldl_fst f hf l h
  rwa [e] at this

theorem Ran.foldl_snd_of {α β : Type} {a u : State} {w : β} {f : β × State → α → β × State} {l : List α} {p : β × State}
    (e : l.foldl f p = (w, u)) (hf : ∀ p x, Ran a p.2 → Ran a (f p x).2) (h : Ran a p.2) : Ran a u := by
  have := Ran.foldl_snd f hf l h
  rwa [e] at this

theorem Ran.foldl_thd_of {α β γ : Type} {a u : State} {w : β} {v : γ} {f : β × γ × State → α → β × γ × State} {l : List α}
    {p : β × γ × State} (e : l.foldl f p = (w, v, u)) (hf : ∀ p x, Ran a p.2.2 → Ran a (f p x).2.2) (h : Ran a p.2.2) :
    Ran a u := by
  have := Ran.foldl_thd f hf l h
  rwa [e] at this

/-! ## Quiet through branches and folds -/

theorem Quiet.ite {a x y : State} {c : Prop} [Decidable c] (h : Quiet a x) (k : Quiet a y) : Quiet a (if c then x else y) := by
  split <;> assumption

theorem Quiet.ite_snd {β : Type} {a : State} {c : Prop} [Decidable c] {p q : β × State} (hp : Quiet a p.2) (hq : Quiet a q.2) :
    Quiet a (if c then p else q).2 := by
  split <;> assumption

theorem Quiet.ite_snd_of {β : Type} {a u : State} {w : β} {c : Prop} [Decidable c] {p q : β × State}
    (e : (if c then p else q) = (w, u)) (hp : Quiet a p.2) (hq : Quiet a q.2) : Quiet a u := by
  split at e
  · rw [e] at hp
    exact hp
  · rw [e] at hq
    exact hq

theorem Quiet.foldl {α : Type} {a : State} (f : State → α → State) (hf : ∀ s x, Quiet a s → Quiet a (f s x)) (l : List α) {s : State}
    (h : Quiet a s) : Quiet a (l.foldl f s) := by
  induction l generalizing s with
  | nil => exact h
  | cons x r ih => exact ih (hf _ _ h)

theorem Quiet.foldl_snd {α β : Type} {a : State} (f : β × State → α → β × State)
    (hf : ∀ p x, Quiet a p.2 → Quiet a (f p x).2) (l : List α) {p : β × State} (h : Quiet a p.2) : Quiet a (l.foldl f p).2 := by
  induction l generalizing p with
  | nil => exact h
  | cons x r ih => exact ih (hf _ _ h)

theorem Quiet.foldl_fst {α β : Type} {a : State} (f : State × β → α → State × β)
    (hf : ∀ p x, Quiet a p.1 → Quiet a (f p x).1) (l : List α) {p : State × β} (h : Quiet a p.1) : Quiet a (l.foldl f p).1 := by
  induction l generalizing p with
  | nil => exact h
  | cons x r ih => exact ih (hf _ _ h)

theorem Quiet.foldl_thd {α β γ : Type} {a : State} (f : β × γ × State → α → β × γ × State)
    (hf : ∀ p x, Quiet a p.2.2 → Quiet a (f p x).2.2) (l : List α) {p : β × γ × State} (h : Quiet a p.2.2) :
    Quiet a (l.foldl f p).2.2 := by
  induction l generalizing p with
  | nil => exact h
  | cons x r ih => exact ih (hf _ _ h)

theorem Quiet.foldl_fst_of {α β : Type} {a u : State} {w : β} {f : State × β → α → State × β} {l : List α} {p : State × β}
    (e : l.foldl f p = (u, w)) (hf : ∀ p x, Quiet a p.1 → Quiet a (f p x).1) (h : Quiet a p.1) : Quiet a u := by
  have := Quiet.foldl_fst f hf l h
  rwa [e] at this

theorem Quiet.foldl_snd_of {α β : Type} {a u : State} {w : β} {f : β × State → α → β × State} {l : List α} {p : β × State}
    (e : l.foldl f p = (w, u)) (hf : ∀ p x, Quiet a p.2 → Quiet a (f p x).2) (h : Quiet a p.2) : Quiet a u := by
  have := Quiet.foldl_snd f hf l h
  rwa [e] at this

theorem Quiet.foldl_thd_of {α β γ : Type} {a u : State} {w : β} {v : γ} {f : β × γ × State → α → β × γ × State} {l : List α}
    {p : β × γ × State} (e : l.foldl f p = (w, v, u)) (hf : ∀ p x, Quiet a p.2.2 → Quiet a (f p x).2.2) (h : Quiet a p.2.2) :
    Quiet a u := by
  have := Quiet.foldl_thd f hf l h
  rwa [e] at this

end Sys2Proof.Machine
end

