-- ==== Sys2Proof/Laws/KeptOps.lean ====
section
/-! SUPPORT. What the operations of Machine/Ops.lean leave alone (`Kept`, `Held`). -/

namespace Sys2Proof.Machine

theorem held_arrive {a s : State} {x1} (h : Held a s) : Held a (State.arrive s x1) := by
  unfold State.arrive
  repeat' first
    | with_reducible refine Held.ite ?_ ?_
    | with_reducible refine Held.ite_snd ?_ ?_
    | with_reducible assumption
    | with_reducible refine Held.foldl _ (fun _ _ _ => ?_) _ ?_
    | with_reducible refine Held.ite_snd_of (by with_reducible assumption) ?_ ?_
    | with_reducible refine Held.foldl_snd _ (fun _ _ _ => ?_) _ ?_
    | dsimp only
    | simp only [reduceIte, Bool.false_eq_true]
    | split
    | fail_if_no_progress ((with_reducible refine Held.put ?_ ?_) <;> first | exact rfl | skip)

theorem kept_setCell {a s : State} {x1} {x2} (h : Kept a s) : Kept a (State.setCell s x1 x2) := by
  unfold State.setCell
  repeat' first
    | with_reducible refine Kept.ite ?_ ?_
    | with_reducible refine Kept.ite_snd ?_ ?_
    | with_reducible assumption
    | with_reducible refine Kept.foldl _ (fun _ _ _ => ?_) _ ?_
    | with_reducible refine Kept.ite_snd_of (by with_reducible assumption) ?_ ?_
    | with_reducible refine Kept.foldl_fst _ (fun _ _ _ => ?_) _ ?_
    | with_reducible refine Kept.foldl_fst_of (by with_reducible assumption) (fun _ _ _ => ?_) ?_
    | with_reducible refine Kept.foldl_snd _ (fun _ _ _ => ?_) _ ?_
    | with_reducible refine Kept.foldl_snd_of (by with_reducible assumption) (fun _ _ _ => ?_) ?_
    | with_reducible refine Kept.foldl_thd _ (fun _ _ _ => ?_) _ ?_
    | with_reducible refine Kept.foldl_thd_of (by with_reducible assumption) (fun _ _ _ => ?_) ?_
    | dsimp only
    | simp only [reduceIte, Bool.false_eq_true]
    | split
    | fail_if_no_progress ((with_reducible refine Kept.put ?_ ?_) <;> first | exact rfl | skip)

theorem kept_modCell {a s : State} {x1} {x2} (h : Kept a s) : Kept a (State.modCell s x1 x2) := by
  unfold State.modCell
  repeat' first
    | with_reducible refine Kept.ite ?_ ?_
    | with_reducible refine Kept.ite_snd ?_ ?_
    | with_reducible assumption
    | with_reducible apply kept_setCell

theorem kept_setEnc {a s : State} {x1} {x2} (h : Kept a s) : Kept a (State.setEnc s x1 x2) := by
  unfold State.setEnc
  repeat' first
    | with_reducible refine Kept.ite ?_ ?_
    | with_reducible refine Kept.ite_snd ?_ ?_
    | with_reducible assumption
    | with_reducible refine Kept.foldl _ (fun _ _ _ => ?_) _ ?_
    | with_reducible refine Kept.ite_snd_of (by with_reducible assumption) ?_ ?_
    | with_reducible refine Kept.foldl_fst _ (fun _ _ _ => ?_) _ ?_
    | with_reducible refine Kept.foldl_fst_of (by with_reducible assumption) (fun _ _ _ => ?_) ?_
    | with_reducible refine Kept.foldl_snd _ (fun _ _ _ => ?_) _ ?_
    | with_reducible refine Kept.foldl_snd_of (by with_reducible assumption) (fun _ _ _ => ?_) ?_
    | with_reducible refine Kept.foldl_thd _ (fun _ _ _ => ?_) _ ?_
    | with_reducible refine Kept.foldl_thd_of (by with_reducible assumption) (fun _ _ _ => ?_) ?_
    | dsimp only
    | simp only [reduceIte, Bool.false_eq_true]
    | split
    | fail_if_no_progress ((with_reducible refine Kept.put ?_ ?_) <;> first | exact rfl | skip)

theorem kept_setSer {a s : State} {x1} {x2} (h : Kept a s) : Kept a (State.setSer s x1 x2) := by
  unfold State.setSer
  repeat' first
    | with_reducible refine Kept.ite ?_ ?_
    | with_reducible refine Kept.ite_snd ?_ ?_
    | with_reducible assumption
    | with_reducible refine Kept.foldl _ (fun _ _ _ => ?_) _ ?_
    | with_reducible refine Kept.ite_snd_of (by with_reducible assumption) ?_ ?_
    | with_reducible refine Kept.foldl_fst _ (fun _ _ _ => ?_) _ ?_
    | with_reducible refine Kept.foldl_fst_of (by with_reducible assumption) (fun _ _ _ => ?_) ?_
    | with_reducible refine Kept.foldl_snd _ (fun _ _ _ => ?_) _ ?_
    | with_reducible refine Kept.foldl_snd_of (by with_reducible assumption) (fun _ _ _ => ?_) ?_
    | with_reducible refine Kept.foldl_thd _ (fun _ _ _ => ?_) _ ?_
    | with_reducible refine Kept.foldl_thd_of (by with_reducible assumption) (fun _ _ _ => ?_) ?_
    | dsimp only
    | simp only [reduceIte, Bool.false_eq_true]
    | split
    | fail_if_no_progress ((with_reducible refine Kept.put ?_ ?_) <;> first | exact rfl | skip)

theorem kept_setMainsIn {a s : State} {x1} {x2} (h : Kept a s) : Kept a (State.setMainsIn s x1 x2) := by
  unfold State.setMainsIn
  repeat' first
    | with_reducible refine Kept.ite ?_ ?_
    | with_reducible refine Kept.ite_snd ?_ ?_
    | with_reducible assumption
    | with_reducible refine Kept.foldl _ (fun _ _ _ => ?_) _ ?_
    | with_reducible refine Kept.ite_snd_of (by with_reducible assumption) ?_ ?_
    | with_reducible refine Kept.foldl_fst _ (fun _ _ _ => ?_) _ ?_
    | with_reducible refine Kept.foldl_fst_of (by with_reducible assumption) (fun _ _ _ => ?_) ?_
    | with_reducible refine Kept.foldl_snd _ (fun _ _ _ => ?_) _ ?_
    | with_reducible refine Kept.foldl_snd_of (by with_reducible assumption) (fun _ _ _ => ?_) ?_
    | with_reducible refine Kept.foldl_thd _ (fun _ _ _ => ?_) _ ?_
    | with_reducible refine Kept.foldl_thd_of (by with_reducible assumption) (fun _ _ _ => ?_) ?_
    | dsimp only
    | simp only [reduceIte, Bool.false_eq_true]
    | split
    | fail_if_no_progress ((with_reducible refine Kept.put ?_ ?_) <;> first | exact rfl | skip)

theorem kept_modStart {a s : State} {x1} (h : Kept a s) : Kept a (State.modStart s x1) := by
  unfold State.modStart
  repeat' first
    | with_reducible refine Kept.ite ?_ ?_
    | with_reducible refine Kept.ite_snd ?_ ?_
    | with_reducible assumption
    | with_reducible refine Kept.foldl _ (fun _ _ _ => ?_) _ ?_
    | with_reducible refine Kept.ite_snd_of (by with_reducible assumption) ?_ ?_
    | with_reducible refine Kept.foldl_fst _ (fun _ _ _ => ?_) _ ?_
    | with_reducible refine Kept.foldl_fst_of (by with_reducible assumption) (fun _ _ _ => ?_) ?_
    | with_reducible refine Kept.foldl_snd _ (fun _ _ _ => ?_) _ ?_
    | with_reducible refine Kept.foldl_snd_of (by with_reducible assumption) (fun _ _ _ => ?_) ?_
    | with_reducible refine Kept.foldl_thd _ (fun _ _ _ => ?_) _ ?_
    | with_reducible refine Kept.foldl_thd_of (by with_reducible assumption) (fun _ _ _ => ?_) ?_
    | dsimp only
    | simp only [reduceIte, Bool.false_eq_true]
    | split
    | fail_if_no_progress ((with_reducible refine Kept.put ?_ ?_) <;> first | exact rfl | skip)

theorem kept_setCmp {a s : State} {x1} {x2} (h : Ran a s) : Ran a (State.setCmp s x1 x2) := by
  unfold State.setCmp
  repeat' first
    | with_reducible refine Ran.ite ?_ ?_
    | with_reducible refine Ran.ite_snd ?_ ?_
    | with_reducible assumption
    | with_reducible refine Ran.foldl _ (fun _ _ _ => ?_) _ ?_
    | with_reducible refine Ran.ite_snd_of (by with_reducible assumption) ?_ ?_
    | with_reducible refine Ran.foldl_fst _ (fun _ _ _ => ?_) _ ?_
    | with_reducible refine Ran.foldl_fst_of (by with_reducible assumption) (fun _ _ _ => ?_) ?_
    | with_reducible refine Ran.foldl_snd _ (fun _ _ _ => ?_) _ ?_
    | with_reducible refine Ran.foldl_snd_of (by with_reducible assumption) (fun _ _ _ => ?_) ?_
    | with_reducible refine Ran.foldl_thd _ (fun _ _ _ => ?_) _ ?_
    | with_reducible refine Ran.foldl_thd_of (by with_reducible assumption) (fun _ _ _ => ?_) ?_
    | dsimp only
    | simp only [reduceIte, Bool.false_eq_true]
    | split
    | fail_if_no_progress ((with_reducible refine Ran.put ?_ ?_) <;> first | exact rfl | skip)

theorem kept_modCmp {a s : State} {x1} {x2} (h : Ran a s) : Ran a (State.modCmp s x1 x2) := by
  unfold State.modCmp
  repeat' first
    | with_reducible refine Ran.ite ?_ ?_
    | with_reducible refine Ran.ite_snd ?_ ?_
    | with_reducible assumption
    | with_reducible apply kept_setCmp

theorem kept_setCap {a s : State} {x1} {x2} (h : Ran a s) : Ran a (State.setCap s x1 x2) := by
  unfold State.setCap
  repeat' first
    | with_reducible refine Ran.ite ?_ ?_
    | with_reducible refine Ran.ite_snd ?_ ?_
    | with_reducible assumption
    | with_reducible refine Ran.foldl _ (fun _ _ _ => ?_) _ ?_
    | with_reducible refine Ran.ite_snd_of (by with_reducible assumption) ?_ ?_
    | with_reducible refine Ran.foldl_fst _ (fun _ _ _ => ?_) _ ?_
    | with_reducible refine Ran.foldl_fst_of (by with_reducible assumption) (fun _ _ _ => ?_) ?_
    | with_reducible refine Ran.foldl_snd _ (fun _ _ _ => ?_) _ ?_
    | with_reducible refine Ran.foldl_snd_of (by with_reducible assumption) (fun _ _ _ => ?_) ?_
    | with_reducible refine Ran.foldl_thd _ (fun _ _ _ => ?_) _ ?_
    | with_reducible refine Ran.foldl_thd_of (by with_reducible assumption) (fun _ _ _ => ?_) ?_
    | dsimp only
    | simp only [reduceIte, Bool.false_eq_true]
    | split
    | fail_if_no_progress ((with_reducible refine Ran.put ?_ ?_) <;> first | exact rfl | skip)

theorem kept_modCap {a s : State} {x1} {x2} (h : Ran a s) : Ran a (State.modCap s x1 x2) := by
  unfold State.modCap
  repeat' first
    | with_reducible refine Ran.ite ?_ ?_
    | with_reducible refine Ran.ite_snd ?_ ?_
    | with_reducible assumption
    | with_reducible apply kept_setCap

theorem kept_setChan {a s : State} {x1} {x2} (h : Quiet a s) : Quiet a (State.setChan s x1 x2) := by
  unfold State.setChan
  repeat' first
    | with_reducible refine Quiet.ite ?_ ?_
    | with_reducible refine Quiet.ite_snd ?_ ?_
    | with_reducible assumption
    | with_reducible refine Quiet.foldl _ (fun _ _ _ => ?_) _ ?_
    | with_reducible refine Quiet.ite_snd_of (by with_reducible assumption) ?_ ?_
    | with_reducible refine Quiet.foldl_fst _ (fun _ _ _ => ?_) _ ?_
    | with_reducible refine Quiet.foldl_fst_of (by with_reducible assumption) (fun _ _ _ => ?_) ?_
    | with_reducible refine Quiet.foldl_snd _ (fun _ _ _ => ?_) _ ?_
    | with_reducible refine Quiet.foldl_snd_of (by with_reducible assumption) (fun _ _ _ => ?_) ?_
    | with_reducible refine Quiet.foldl_thd _ (fun _ _ _ => ?_) _ ?_
    | with_reducible refine Quiet.foldl_thd_of (by with_reducible assumption) (fun _ _ _ => ?_) ?_
    | dsimp only
    | simp only [reduceIte, Bool.false_eq_true]
    | split
    | fail_if_no_progress ((with_reducible refine Quiet.put ?_ ?_) <;> first | exact rfl | skip)

theorem kept_modChan {a s : State} {x1} {x2} (h : Quiet a s) : Quiet a (State.modChan s x1 x2) := by
  unfold State.modChan
  repeat' first
    | with_reducible refine Quiet.ite ?_ ?_
    | with_reducible refine Quiet.ite_snd ?_ ?_
    | with_reducible assumption
    | with_reducible apply kept_setChan

theorem kept_setWq {a s : State} {x1} {x2} (h : Quiet a s) : Quiet a (State.setWq s x1 x2) := by
  unfold State.setWq
  repeat' first
    | with_reducible refine Quiet.ite ?_ ?_
    | with_reducible refine Quiet.ite_snd ?_ ?_
    | with_reducible assumption
    | with_reducible refine Quiet.foldl _ (fun _ _ _ => ?_) _ ?_
    | with_reducible refine Quiet.ite_snd_of (by with_reducible assumption) ?_ ?_
    | with_reducible refine Quiet.foldl_fst _ (fun _ _ _ => ?_) _ ?_
    | with_reducible refine Quiet.foldl_fst_of (by with_reducible assumption) (fun _ _ _ => ?_) ?_
    | with_reducible refine Quiet.foldl_snd _ (fun _ _ _ => ?_) _ ?_
    | with_reducible refine Quiet.foldl_snd_of (by with_reducible assumption) (fun _ _ _ => ?_) ?_
    | with_reducible refine Quiet.foldl_thd _ (fun _ _ _ => ?_) _ ?_
    | with_reducible refine Quiet.foldl_thd_of (by with_reducible assumption) (fun _ _ _ => ?_) ?_
    | dsimp only
    | simp only [reduceIte, Bool.false_eq_true]
    | split
    | fail_if_no_progress ((with_reducible refine Quiet.put ?_ ?_) <;> first | exact rfl | skip)

theorem kept_modWq {a s : State} {x1} {x2} (h : Quiet a s) : Quiet a (State.modWq s x1 x2) := by
  unfold State.modWq
  repeat' first
    | with_reducible refine Quiet.ite ?_ ?_
    | with_reducible refine Quiet.ite_snd ?_ ?_
    | with_reducible assumption
    | with_reducible apply kept_setWq

theorem kept_setEq {a s : State} {x1} {x2} (h : Quiet a s) : Quiet a (State.setEq s x1 x2) := by
  unfold State.setEq
  repeat' first
    | with_reducible refine Quiet.ite ?_ ?_
    | with_reducible refine Quiet.ite_snd ?_ ?_
    | with_reducible assumption
    | with_reducible refine Quiet.foldl _ (fun _ _ _ => ?_) _ ?_
    | with_reducible refine Quiet.ite_snd_of (by with_reducible assumption) ?_ ?_
    | with_reducible refine Quiet.foldl_fst _ (fun _ _ _ => ?_) _ ?_
    | with_reducible refine Quiet.foldl_fst_of (by with_reducible assumption) (fun _ _ _ => ?_) ?_
    | with_reducible refine Quiet.foldl_snd _ (fun _ _ _ => ?_) _ ?_
    | with_reducible refine Quiet.foldl_snd_of (by with_reducible assumption) (fun _ _ _ => ?_) ?_
    | with_reducible refine Quiet.foldl_thd _ (fun _ _ _ => ?_) _ ?_
    | with_reducible refine Quiet.foldl_thd_of (by with_reducible assumption) (fun _ _ _ => ?_) ?_
    | dsimp only
    | simp only [reduceIte, Bool.false_eq_true]
    | split
    | fail_if_no_progress ((with_reducible refine Quiet.put ?_ ?_) <;> first | exact rfl | skip)

theorem kept_modEq {a s : State} {x1} {x2} (h : Quiet a s) : Quiet a (State.modEq s x1 x2) := by
  unfold State.modEq
  repeat' first
    | with_reducible refine Quiet.ite ?_ ?_
    | with_reducible refine Quiet.ite_snd ?_ ?_
    | with_reducible assumption
    | with_reducible apply kept_setEq

theorem kept_setDom {a s : State} {x1} {x2} (h : Quiet a s) : Quiet a (State.setDom s x1 x2) := by
  unfold State.setDom
  repeat' first
    | with_reducible refine Quiet.ite ?_ ?_
    | with_reducible refine Quiet.ite_snd ?_ ?_
    | with_reducible assumption
    | with_reducible refine Quiet.foldl _ (fun _ _ _ => ?_) _ ?_
    | with_reducible refine Quiet.ite_snd_of (by with_reducible assumption) ?_ ?_
    | with_reducible refine Quiet.foldl_fst _ (fun _ _ _ => ?_) _ ?_
    | with_reducible refine Quiet.foldl_fst_of (by with_reducible assumption) (fun _ _ _ => ?_) ?_
    | with_reducible refine Quiet.foldl_snd _ (fun _ _ _ => ?_) _ ?_
    | with_reducible refine Quiet.foldl_snd_of (by with_reducible assumption) (fun _ _ _ => ?_) ?_
    | with_reducible refine Quiet.foldl_thd _ (fun _ _ _ => ?_) _ ?_
    | with_reducible refine Quiet.foldl_thd_of (by with_reducible assumption) (fun _ _ _ => ?_) ?_
    | dsimp only
    | simp only [reduceIte, Bool.false_eq_true]
    | split
    | fail_if_no_progress ((with_reducible refine Quiet.put ?_ ?_) <;> first | exact rfl | skip)

theorem kept_setFq {a s : State} {x1} {x2} (h : Quiet a s) : Quiet a (State.setFq s x1 x2) := by
  unfold State.setFq
  repeat' first
    | with_reducible refine Quiet.ite ?_ ?_
    | with_reducible refine Quiet.ite_snd ?_ ?_
    | with_reducible assumption
    | with_reducible refine Quiet.foldl _ (fun _ _ _ => ?_) _ ?_
    | with_reducible refine Quiet.ite_snd_of (by with_reducible assumption) ?_ ?_
    | with_reducible refine Quiet.foldl_fst _ (fun _ _ _ => ?_) _ ?_
    | with_reducible refine Quiet.foldl_fst_of (by with_reducible assumption) (fun _ _ _ => ?_) ?_
    | with_reducible refine Quiet.foldl_snd _ (fun _ _ _ => ?_) _ ?_
    | with_reducible refine Quiet.foldl_snd_of (by with_reducible assumption) (fun _ _ _ => ?_) ?_
    | with_reducible refine Quiet.foldl_thd _ (fun _ _ _ => ?_) _ ?_
    | with_reducible refine Quiet.foldl_thd_of (by with_reducible assumption) (fun _ _ _ => ?_) ?_
    | dsimp only
    | simp only [reduceIte, Bool.false_eq_true]
    | split
    | fail_if_no_progress ((with_reducible refine Quiet.put ?_ ?_) <;> first | exact rfl | skip)

theorem kept_modFq {a s : State} {x1} {x2} (h : Quiet a s) : Quiet a (State.modFq s x1 x2) := by
  unfold State.modFq
  repeat' first
    | with_reducible refine Quiet.ite ?_ ?_
    | with_reducible refine Quiet.ite_snd ?_ ?_
    | with_reducible assumption
    | with_reducible apply kept_setFq

theorem kept_setWin {a s : State} {x1} {x2} (h : Quiet a s) : Quiet a (State.setWin s x1 x2) := by
  unfold State.setWin
  repeat' first
    | with_reducible refine Quiet.ite ?_ ?_
    | with_reducible refine Quiet.ite_snd ?_ ?_
    | with_reducible assumption
    | with_reducible refine Quiet.foldl _ (fun _ _ _ => ?_) _ ?_
    | with_reducible refine Quiet.ite_snd_of (by with_reducible assumption) ?_ ?_
    | with_reducible refine Quiet.foldl_fst _ (fun _ _ _ => ?_) _ ?_
    | with_reducible refine Quiet.foldl_fst_of (by with_reducible assumption) (fun _ _ _ => ?_) ?_
    | with_reducible refine Quiet.foldl_snd _ (fun _ _ _ => ?_) _ ?_
    | with_reducible refine Quiet.foldl_snd_of (by with_reducible assumption) (fun _ _ _ => ?_) ?_
    | with_reducible refine Quiet.foldl_thd _ (fun _ _ _ => ?_) _ ?_
    | with_reducible refine Quiet.foldl_thd_of (by with_reducible assumption) (fun _ _ _ => ?_) ?_
    | dsimp only
    | simp only [reduceIte, Bool.false_eq_true]
    | split
    | fail_if_no_progress ((with_reducible refine Quiet.put ?_ ?_) <;> first | exact rfl | skip)

theorem kept_setOu {a s : State} {x1} {x2} (h : Quiet a s) : Quiet a (State.setOu s x1 x2) := by
  unfold State.setOu
  repeat' first
    | with_reducible refine Quiet.ite ?_ ?_
    | with_reducible refine Quiet.ite_snd ?_ ?_
    | with_reducible assumption
    | with_reducible refine Quiet.foldl _ (fun _ _ _ => ?_) _ ?_
    | with_reducible refine Quiet.ite_snd_of (by with_reducible assumption) ?_ ?_
    | with_reducible refine Quiet.foldl_fst _ (fun _ _ _ => ?_) _ ?_
    | with_reducible refine Quiet.foldl_fst_of (by with_reducible assumption) (fun _ _ _ => ?_) ?_
    | with_reducible refine Quiet.foldl_snd _ (fun _ _ _ => ?_) _ ?_
    | with_reducible refine Quiet.foldl_snd_of (by with_reducible assumption) (fun _ _ _ => ?_) ?_
    | with_reducible refine Quiet.foldl_thd _ (fun _ _ _ => ?_) _ ?_
    | with_reducible refine Quiet.foldl_thd_of (by with_reducible assumption) (fun _ _ _ => ?_) ?_
    | dsimp only
    | simp only [reduceIte, Bool.false_eq_true]
    | split
    | fail_if_no_progress ((with_reducible refine Quiet.put ?_ ?_) <;> first | exact rfl | skip)

theorem kept_modOu {a s : State} {x1} {x2} (h : Quiet a s) : Quiet a (State.modOu s x1 x2) := by
  unfold State.modOu
  repeat' first
    | with_reducible refine Quiet.ite ?_ ?_
    | with_reducible refine Quiet.ite_snd ?_ ?_
    | with_reducible assumption
    | with_reducible apply kept_setOu

theorem kept_setPin {a s : State} {x1} {x2} (h : Quiet a s) : Quiet a (State.setPin s x1 x2) := by
  unfold State.setPin
  repeat' first
    | with_reducible refine Quiet.ite ?_ ?_
    | with_reducible refine Quiet.ite_snd ?_ ?_
    | with_reducible assumption
    | with_reducible refine Quiet.foldl _ (fun _ _ _ => ?_) _ ?_
    | with_reducible refine Quiet.ite_snd_of (by with_reducible assumption) ?_ ?_
    | with_reducible refine Quiet.foldl_fst _ (fun _ _ _ => ?_) _ ?_
    | with_reducible refine Quiet.foldl_fst_of (by with_reducible assumption) (fun _ _ _ => ?_) ?_
    | with_reducible refine Quiet.foldl_snd _ (fun _ _ _ => ?_) _ ?_
    | with_reducible refine Quiet.foldl_snd_of (by with_reducible assumption) (fun _ _ _ => ?_) ?_
    | with_reducible refine Quiet.foldl_thd _ (fun _ _ _ => ?_) _ ?_
    | with_reducible refine Quiet.foldl_thd_of (by with_reducible assumption) (fun _ _ _ => ?_) ?_
    | dsimp only
    | simp only [reduceIte, Bool.false_eq_true]
    | split
    | fail_if_no_progress ((with_reducible refine Quiet.put ?_ ?_) <;> first | exact rfl | skip)

theorem kept_setPermitIn {a s : State} {x1} {x2} (h : Quiet a s) : Quiet a (State.setPermitIn s x1 x2) := by
  unfold State.setPermitIn
  repeat' first
    | with_reducible refine Quiet.ite ?_ ?_
    | with_reducible refine Quiet.ite_snd ?_ ?_
    | with_reducible assumption
    | with_reducible refine Quiet.foldl _ (fun _ _ _ => ?_) _ ?_
    | with_reducible refine Quiet.ite_snd_of (by with_reducible assumption) ?_ ?_
    | with_reducible refine Quiet.foldl_fst _ (fun _ _ _ => ?_) _ ?_
    | with_reducible refine Quiet.foldl_fst_of (by with_reducible assumption) (fun _ _ _ => ?_) ?_
    | with_reducible refine Quiet.foldl_snd _ (fun _ _ _ => ?_) _ ?_
    | with_reducible refine Quiet.foldl_snd_of (by with_reducible assumption) (fun _ _ _ => ?_) ?_
    | with_reducible refine Quiet.foldl_thd _ (fun _ _ _ => ?_) _ ?_
    | with_reducible refine Quiet.foldl_thd_of (by with_reducible assumption) (fun _ _ _ => ?_) ?_
    | dsimp only
    | simp only [reduceIte, Bool.false_eq_true]
    | split
    | fail_if_no_progress ((with_reducible refine Quiet.put ?_ ?_) <;> first | exact rfl | skip)

theorem kept_setPort {a s : State} {x1} {x2} (h : Quiet a s) : Quiet a (State.setPort s x1 x2) := by
  unfold State.setPort
  repeat' first
    | with_reducible refine Quiet.ite ?_ ?_
    | with_reducible refine Quiet.ite_snd ?_ ?_
    | with_reducible assumption
    | with_reducible refine Quiet.foldl _ (fun _ _ _ => ?_) _ ?_
    | with_reducible refine Quiet.ite_snd_of (by with_reducible assumption) ?_ ?_
    | with_reducible refine Quiet.foldl_fst _ (fun _ _ _ => ?_) _ ?_
    | with_reducible refine Quiet.foldl_fst_of (by with_reducible assumption) (fun _ _ _ => ?_) ?_
    | with_reducible refine Quiet.foldl_snd _ (fun _ _ _ => ?_) _ ?_
    | with_reducible refine Quiet.foldl_snd_of (by with_reducible assumption) (fun _ _ _ => ?_) ?_
    | with_reducible refine Quiet.foldl_thd _ (fun _ _ _ => ?_) _ ?_
    | with_reducible refine Quiet.foldl_thd_of (by with_reducible assumption) (fun _ _ _ => ?_) ?_
    | dsimp only
    | simp only [reduceIte, Bool.false_eq_true]
    | split
    | fail_if_no_progress ((with_reducible refine Quiet.put ?_ ?_) <;> first | exact rfl | skip)

theorem kept_modPort {a s : State} {x1} {x2} (h : Quiet a s) : Quiet a (State.modPort s x1 x2) := by
  unfold State.modPort
  repeat' first
    | with_reducible refine Quiet.ite ?_ ?_
    | with_reducible refine Quiet.ite_snd ?_ ?_
    | with_reducible assumption
    | with_reducible apply kept_setPort

theorem kept_setTxq {a s : State} {x1} {x2} (h : Quiet a s) : Quiet a (State.setTxq s x1 x2) := by
  unfold State.setTxq
  repeat' first
    | with_reducible refine Quiet.ite ?_ ?_
    | with_reducible refine Quiet.ite_snd ?_ ?_
    | with_reducible assumption
    | with_reducible refine Quiet.foldl _ (fun _ _ _ => ?_) _ ?_
    | with_reducible refine Quiet.ite_snd_of (by with_reducible assumption) ?_ ?_
    | with_reducible refine Quiet.foldl_fst _ (fun _ _ _ => ?_) _ ?_
    | with_reducible refine Quiet.foldl_fst_of (by with_reducible assumption) (fun _ _ _ => ?_) ?_
    | with_reducible refine Quiet.foldl_snd _ (fun _ _ _ => ?_) _ ?_
    | with_reducible refine Quiet.foldl_snd_of (by with_reducible assumption) (fun _ _ _ => ?_) ?_
    | with_reducible refine Quiet.foldl_thd _ (fun _ _ _ => ?_) _ ?_
    | with_reducible refine Quiet.foldl_thd_of (by with_reducible assumption) (fun _ _ _ => ?_) ?_
    | dsimp only
    | simp only [reduceIte, Bool.false_eq_true]
    | split
    | fail_if_no_progress ((with_reducible refine Quiet.put ?_ ?_) <;> first | exact rfl | skip)

theorem kept_setStream {a s : State} {x1} {x2} (h : Quiet a s) : Quiet a (State.setStream s x1 x2) := by
  unfold State.setStream
  repeat' first
    | with_reducible refine Quiet.ite ?_ ?_
    | with_reducible refine Quiet.ite_snd ?_ ?_
    | with_reducible assumption
    | with_reducible refine Quiet.foldl _ (fun _ _ _ => ?_) _ ?_
    | with_reducible refine Quiet.ite_snd_of (by with_reducible assumption) ?_ ?_
    | with_reducible refine Quiet.foldl_fst _ (fun _ _ _ => ?_) _ ?_
    | with_reducible refine Quiet.foldl_fst_of (by with_reducible assumption) (fun _ _ _ => ?_) ?_
    | with_reducible refine Quiet.foldl_snd _ (fun _ _ _ => ?_) _ ?_
    | with_reducible refine Quiet.foldl_snd_of (by with_reducible assumption) (fun _ _ _ => ?_) ?_
    | with_reducible refine Quiet.foldl_thd _ (fun _ _ _ => ?_) _ ?_
    | with_reducible refine Quiet.foldl_thd_of (by with_reducible assumption) (fun _ _ _ => ?_) ?_
    | dsimp only
    | simp only [reduceIte, Bool.false_eq_true]
    | split
    | fail_if_no_progress ((with_reducible refine Quiet.put ?_ ?_) <;> first | exact rfl | skip)

theorem kept_setYz {a s : State} {x1} (h : Quiet a s) : Quiet a (State.setYz s x1) := by
  unfold State.setYz
  repeat' first
    | with_reducible refine Quiet.ite ?_ ?_
    | with_reducible refine Quiet.ite_snd ?_ ?_
    | with_reducible assumption
    | with_reducible refine Quiet.foldl _ (fun _ _ _ => ?_) _ ?_
    | with_reducible refine Quiet.ite_snd_of (by with_reducible assumption) ?_ ?_
    | with_reducible refine Quiet.foldl_fst _ (fun _ _ _ => ?_) _ ?_
    | with_reducible refine Quiet.foldl_fst_of (by with_reducible assumption) (fun _ _ _ => ?_) ?_
    | with_reducible refine Quiet.foldl_snd _ (fun _ _ _ => ?_) _ ?_
    | with_reducible refine Quiet.foldl_snd_of (by with_reducible assumption) (fun _ _ _ => ?_) ?_
    | with_reducible refine Quiet.foldl_thd _ (fun _ _ _ => ?_) _ ?_
    | with_reducible refine Quiet.foldl_thd_of (by with_reducible assumption) (fun _ _ _ => ?_) ?_
    | dsimp only
    | simp only [reduceIte, Bool.false_eq_true]
    | split
    | fail_if_no_progress ((with_reducible refine Quiet.put ?_ ?_) <;> first | exact rfl | skip)

theorem kept_modYz {a s : State} {x1} (h : Quiet a s) : Quiet a (State.modYz s x1) := by
  unfold State.modYz
  repeat' first
    | with_reducible refine Quiet.ite ?_ ?_
    | with_reducible refine Quiet.ite_snd ?_ ?_
    | with_reducible assumption
    | with_reducible apply kept_setYz

theorem kept_setVec {a s : State} {x1} {x2} (h : Quiet a s) : Quiet a (State.setVec s x1 x2) := by
  unfold State.setVec
  repeat' first
    | with_reducible refine Quiet.ite ?_ ?_
    | with_reducible refine Quiet.ite_snd ?_ ?_
    | with_reducible assumption
    | with_reducible refine Quiet.foldl _ (fun _ _ _ => ?_) _ ?_
    | with_reducible refine Quiet.ite_snd_of (by with_reducible assumption) ?_ ?_
    | with_reducible refine Quiet.foldl_fst _ (fun _ _ _ => ?_) _ ?_
    | with_reducible refine Quiet.foldl_fst_of (by with_reducible assumption) (fun _ _ _ => ?_) ?_
    | with_reducible refine Quiet.foldl_snd _ (fun _ _ _ => ?_) _ ?_
    | with_reducible refine Quiet.foldl_snd_of (by with_reducible assumption) (fun _ _ _ => ?_) ?_
    | with_reducible refine Quiet.foldl_thd _ (fun _ _ _ => ?_) _ ?_
    | with_reducible refine Quiet.foldl_thd_of (by with_reducible assumption) (fun _ _ _ => ?_) ?_
    | dsimp only
    | simp only [reduceIte, Bool.false_eq_true]
    | split
    | fail_if_no_progress ((with_reducible refine Quiet.put ?_ ?_) <;> first | exact rfl | skip)

theorem kept_setCic {a s : State} {x1} {x2} (h : Quiet a s) : Quiet a (State.setCic s x1 x2) := by
  unfold State.setCic
  repeat' first
    | with_reducible refine Quiet.ite ?_ ?_
    | with_reducible refine Quiet.ite_snd ?_ ?_
    | with_reducible assumption
    | with_reducible refine Quiet.foldl _ (fun _ _ _ => ?_) _ ?_
    | with_reducible refine Quiet.ite_snd_of (by with_reducible assumption) ?_ ?_
    | with_reducible refine Quiet.foldl_fst _ (fun _ _ _ => ?_) _ ?_
    | with_reducible refine Quiet.foldl_fst_of (by with_reducible assumption) (fun _ _ _ => ?_) ?_
    | with_reducible refine Quiet.foldl_snd _ (fun _ _ _ => ?_) _ ?_
    | with_reducible refine Quiet.foldl_snd_of (by with_reducible assumption) (fun _ _ _ => ?_) ?_
    | with_reducible refine Quiet.foldl_thd _ (fun _ _ _ => ?_) _ ?_
    | with_reducible refine Quiet.foldl_thd_of (by with_reducible assumption) (fun _ _ _ => ?_) ?_
    | dsimp only
    | simp only [reduceIte, Bool.false_eq_true]
    | split
    | fail_if_no_progress ((with_reducible refine Quiet.put ?_ ?_) <;> first | exact rfl | skip)

theorem kept_setMb {a s : State} {x1} {x2} (h : Kept a s) : Kept a (State.setMb s x1 x2) := by
  unfold State.setMb
  repeat' first
    | with_reducible refine Kept.ite ?_ ?_
    | with_reducible refine Kept.ite_snd ?_ ?_
    | with_reducible assumption
    | with_reducible refine Kept.foldl _ (fun _ _ _ => ?_) _ ?_
    | with_reducible refine Kept.ite_snd_of (by with_reducible assumption) ?_ ?_
    | with_reducible refine Kept.foldl_fst _ (fun _ _ _ => ?_) _ ?_
    | with_reducible refine Kept.foldl_fst_of (by with_reducible assumption) (fun _ _ _ => ?_) ?_
    | with_reducible refine Kept.foldl_snd _ (fun _ _ _ => ?_) _ ?_
    | with_reducible refine Kept.foldl_snd_of (by with_reducible assumption) (fun _ _ _ => ?_) ?_
    | with_reducible refine Kept.foldl_thd _ (fun _ _ _ => ?_) _ ?_
    | with_reducible refine Kept.foldl_thd_of (by with_reducible assumption) (fun _ _ _ => ?_) ?_
    | dsimp only
    | simp only [reduceIte, Bool.false_eq_true]
    | split
    | fail_if_no_progress ((with_reducible refine Kept.put ?_ ?_) <;> first | exact rfl | skip)

theorem kept_setCore {a s : State} {x1} {x2} (h : Quiet a s) : Quiet a (State.setCore s x1 x2) := by
  unfold State.setCore
  repeat' first
    | with_reducible refine Quiet.ite ?_ ?_
    | with_reducible refine Quiet.ite_snd ?_ ?_
    | with_reducible assumption
    | with_reducible refine Quiet.foldl _ (fun _ _ _ => ?_) _ ?_
    | with_reducible refine Quiet.ite_snd_of (by with_reducible assumption) ?_ ?_
    | with_reducible refine Quiet.foldl_fst _ (fun _ _ _ => ?_) _ ?_
    | with_reducible refine Quiet.foldl_fst_of (by with_reducible assumption) (fun _ _ _ => ?_) ?_
    | with_reducible refine Quiet.foldl_snd _ (fun _ _ _ => ?_) _ ?_
    | with_reducible refine Quiet.foldl_snd_of (by with_reducible assumption) (fun _ _ _ => ?_) ?_
    | with_reducible refine Quiet.foldl_thd _ (fun _ _ _ => ?_) _ ?_
    | with_reducible refine Quiet.foldl_thd_of (by with_reducible assumption) (fun _ _ _ => ?_) ?_
    | dsimp only
    | simp only [reduceIte, Bool.false_eq_true]
    | split
    | fail_if_no_progress ((with_reducible refine Quiet.put ?_ ?_) <;> first | exact rfl | skip)

theorem kept_modCore {a s : State} {x1} {x2} (h : Quiet a s) : Quiet a (State.modCore s x1 x2) := by
  unfold State.modCore
  repeat' first
    | with_reducible refine Quiet.ite ?_ ?_
    | with_reducible refine Quiet.ite_snd ?_ ?_
    | with_reducible assumption
    | with_reducible apply kept_setCore

theorem kept_report {a s : State} {x1} (h : Quiet a s) : Quiet a (State.report s x1) := by
  unfold State.report
  repeat' first
    | with_reducible refine Quiet.ite ?_ ?_
    | with_reducible refine Quiet.ite_snd ?_ ?_
    | with_reducible assumption
    | with_reducible refine Quiet.foldl _ (fun _ _ _ => ?_) _ ?_
    | with_reducible refine Quiet.ite_snd_of (by with_reducible assumption) ?_ ?_
    | with_reducible refine Quiet.foldl_fst _ (fun _ _ _ => ?_) _ ?_
    | with_reducible refine Quiet.foldl_fst_of (by with_reducible assumption) (fun _ _ _ => ?_) ?_
    | with_reducible refine Quiet.foldl_snd _ (fun _ _ _ => ?_) _ ?_
    | with_reducible refine Quiet.foldl_snd_of (by with_reducible assumption) (fun _ _ _ => ?_) ?_
    | with_reducible refine Quiet.foldl_thd _ (fun _ _ _ => ?_) _ ?_
    | with_reducible refine Quiet.foldl_thd_of (by with_reducible assumption) (fun _ _ _ => ?_) ?_
    | dsimp only
    | simp only [reduceIte, Bool.false_eq_true]
    | split
    | fail_if_no_progress ((with_reducible refine Quiet.put ?_ ?_) <;> first | exact rfl | skip)

theorem kept_holdSrc {a s : State} {x1} {x2} (h : Quiet a s) : Quiet a (State.holdSrc s x1 x2) := by
  unfold State.holdSrc
  repeat' first
    | with_reducible refine Quiet.ite ?_ ?_
    | with_reducible refine Quiet.ite_snd ?_ ?_
    | with_reducible assumption
    | with_reducible refine Quiet.foldl _ (fun _ _ _ => ?_) _ ?_
    | with_reducible refine Quiet.ite_snd_of (by with_reducible assumption) ?_ ?_
    | with_reducible refine Quiet.foldl_fst _ (fun _ _ _ => ?_) _ ?_
    | with_reducible refine Quiet.foldl_fst_of (by with_reducible assumption) (fun _ _ _ => ?_) ?_
    | with_reducible refine Quiet.foldl_snd _ (fun _ _ _ => ?_) _ ?_
    | with_reducible refine Quiet.foldl_snd_of (by with_reducible assumption) (fun _ _ _ => ?_) ?_
    | with_reducible refine Quiet.foldl_thd _ (fun _ _ _ => ?_) _ ?_
    | with_reducible refine Quiet.foldl_thd_of (by with_reducible assumption) (fun _ _ _ => ?_) ?_
    | dsimp only
    | simp only [reduceIte, Bool.false_eq_true]
    | split
    | fail_if_no_progress ((with_reducible refine Quiet.put ?_ ?_) <;> first | exact rfl | skip)

theorem kept_latch {a s : State} {x1} {x2} {x3} (h : Kept a s) : Kept a (State.latch s x1 x2 x3) := by
  unfold State.latch
  repeat' first
    | with_reducible refine Kept.ite ?_ ?_
    | with_reducible refine Kept.ite_snd ?_ ?_
    | with_reducible assumption
    | with_reducible refine Kept.foldl _ (fun _ _ _ => ?_) _ ?_
    | with_reducible refine Kept.ite_snd_of (by with_reducible assumption) ?_ ?_
    | with_reducible refine Kept.foldl_fst _ (fun _ _ _ => ?_) _ ?_
    | with_reducible refine Kept.foldl_fst_of (by with_reducible assumption) (fun _ _ _ => ?_) ?_
    | with_reducible refine Kept.foldl_snd _ (fun _ _ _ => ?_) _ ?_
    | with_reducible refine Kept.foldl_snd_of (by with_reducible assumption) (fun _ _ _ => ?_) ?_
    | with_reducible refine Kept.foldl_thd _ (fun _ _ _ => ?_) _ ?_
    | with_reducible refine Kept.foldl_thd_of (by with_reducible assumption) (fun _ _ _ => ?_) ?_
    | dsimp only
    | simp only [reduceIte, Bool.false_eq_true]
    | split
    | fail_if_no_progress ((with_reducible refine Kept.put ?_ ?_) <;> first | exact rfl | skip)

theorem kept_latchAll {a s : State} {x1} {x2} (h : Kept a s) : Kept a (State.latchAll s x1 x2) := by
  unfold State.latchAll
  repeat' first
    | with_reducible refine Kept.ite ?_ ?_
    | with_reducible refine Kept.ite_snd ?_ ?_
    | with_reducible assumption
    | with_reducible apply kept_latch
    | with_reducible refine Kept.foldl _ (fun _ _ _ => ?_) _ ?_

theorem kept_emit {a s : State} {x1} (h : Quiet a s) : Quiet a (State.emit s x1) := by
  unfold State.emit
  repeat' first
    | with_reducible refine Quiet.ite ?_ ?_
    | with_reducible refine Quiet.ite_snd ?_ ?_
    | with_reducible assumption
    | with_reducible refine Quiet.foldl _ (fun _ _ _ => ?_) _ ?_
    | with_reducible refine Quiet.ite_snd_of (by with_reducible assumption) ?_ ?_
    | with_reducible refine Quiet.foldl_fst _ (fun _ _ _ => ?_) _ ?_
    | with_reducible refine Quiet.foldl_fst_of (by with_reducible assumption) (fun _ _ _ => ?_) ?_
    | with_reducible refine Quiet.foldl_snd _ (fun _ _ _ => ?_) _ ?_
    | with_reducible refine Quiet.foldl_snd_of (by with_reducible assumption) (fun _ _ _ => ?_) ?_
    | with_reducible refine Quiet.foldl_thd _ (fun _ _ _ => ?_) _ ?_
    | with_reducible refine Quiet.foldl_thd_of (by with_reducible assumption) (fun _ _ _ => ?_) ?_
    | dsimp only
    | simp only [reduceIte, Bool.false_eq_true]
    | split
    | fail_if_no_progress ((with_reducible refine Quiet.put ?_ ?_) <;> first | exact rfl | skip)

theorem kept_draw {a s : State} (h : Quiet a s) : Quiet a (State.draw s) := by
  unfold State.draw
  repeat' first
    | with_reducible refine Quiet.ite ?_ ?_
    | with_reducible refine Quiet.ite_snd ?_ ?_
    | with_reducible assumption
    | with_reducible refine Quiet.foldl _ (fun _ _ _ => ?_) _ ?_
    | with_reducible refine Quiet.ite_snd_of (by with_reducible assumption) ?_ ?_
    | with_reducible refine Quiet.foldl_fst _ (fun _ _ _ => ?_) _ ?_
    | with_reducible refine Quiet.foldl_fst_of (by with_reducible assumption) (fun _ _ _ => ?_) ?_
    | with_reducible refine Quiet.foldl_snd _ (fun _ _ _ => ?_) _ ?_
    | with_reducible refine Quiet.foldl_snd_of (by with_reducible assumption) (fun _ _ _ => ?_) ?_
    | with_reducible refine Quiet.foldl_thd _ (fun _ _ _ => ?_) _ ?_
    | with_reducible refine Quiet.foldl_thd_of (by with_reducible assumption) (fun _ _ _ => ?_) ?_
    | dsimp only
    | simp only [reduceIte, Bool.false_eq_true]
    | split
    | fail_if_no_progress ((with_reducible refine Quiet.put ?_ ?_) <;> first | exact rfl | skip)

theorem kept_reply {a s : State} {x1} (h : Quiet a s) : Quiet a (State.reply s x1) := by
  unfold State.reply
  repeat' first
    | with_reducible refine Quiet.ite ?_ ?_
    | with_reducible refine Quiet.ite_snd ?_ ?_
    | with_reducible assumption
    | with_reducible apply kept_emit

theorem kept_sramRead {a s : State} {x1} {x2} (h : Quiet a s) : Quiet a (State.sramRead s x1 x2).2 := by
  unfold State.sramRead
  repeat' first
    | with_reducible refine Quiet.ite ?_ ?_
    | with_reducible refine Quiet.ite_snd ?_ ?_
    | with_reducible assumption
    | with_reducible apply kept_report
    | with_reducible refine Quiet.foldl _ (fun _ _ _ => ?_) _ ?_
    | with_reducible refine Quiet.ite_snd_of (by with_reducible assumption) ?_ ?_
    | with_reducible refine Quiet.foldl_fst _ (fun _ _ _ => ?_) _ ?_
    | with_reducible refine Quiet.foldl_fst_of (by with_reducible assumption) (fun _ _ _ => ?_) ?_
    | with_reducible refine Quiet.foldl_snd _ (fun _ _ _ => ?_) _ ?_
    | with_reducible refine Quiet.foldl_snd_of (by with_reducible assumption) (fun _ _ _ => ?_) ?_
    | with_reducible refine Quiet.foldl_thd _ (fun _ _ _ => ?_) _ ?_
    | with_reducible refine Quiet.foldl_thd_of (by with_reducible assumption) (fun _ _ _ => ?_) ?_
    | dsimp only
    | simp only [reduceIte, Bool.false_eq_true]
    | split
    | fail_if_no_progress ((with_reducible refine Quiet.put ?_ ?_) <;> first | exact rfl | skip)

theorem kept_sramRead_of {a s u : State} {x1} {x2} {w0} (e : State.sramRead s x1 x2 = (w0, u)) (h : Quiet a s) : Quiet a u := by
  have := kept_sramRead (x1 := x1) (x2 := x2) h
  rw [e] at this
  exact this

theorem kept_sramWriteBy {a s : State} {x1} {x2} {x3} (h : Quiet a s) : Quiet a (State.sramWriteBy s x1 x2 x3) := by
  have hw : Held s (s.sramWriteBy x1 x2 x3) := ⟨rfl, fun x => by
    simp only [Mem.wf, Bool.and_eq_true] at x ⊢
    exact ⟨twf_putBytes _ _ _ x.1, x.2⟩⟩
  exact h.trans ⟨⟨⟨hw, rfl, rfl, rfl, rfl, rfl⟩, rfl, rfl, rfl, rfl⟩, rfl, rfl⟩

theorem kept_sramWrite {a s : State} {x1} {x2} (h : Quiet a s) : Quiet a (State.sramWrite s x1 x2) := by
  unfold State.sramWrite
  repeat' first
    | with_reducible refine Quiet.ite ?_ ?_
    | with_reducible refine Quiet.ite_snd ?_ ?_
    | with_reducible assumption
    | with_reducible apply kept_sramWriteBy

theorem kept_putOut {a s : State} {x1} {x2} {x3} (h : Quiet a s) : Quiet a (State.putOut s x1 x2 x3) := by
  unfold State.putOut
  repeat' first
    | with_reducible refine Quiet.ite ?_ ?_
    | with_reducible refine Quiet.ite_snd ?_ ?_
    | with_reducible assumption
    | with_reducible apply kept_sramWrite
    | with_reducible apply kept_emit

theorem kept_msixNotify {a s : State} {x1} (h : Quiet a s) : Quiet a (State.msixNotify s x1) := by
  unfold State.msixNotify
  repeat' first
    | with_reducible refine Quiet.ite ?_ ?_
    | with_reducible refine Quiet.ite_snd ?_ ?_
    | with_reducible assumption
    | with_reducible apply kept_setVec

theorem kept_cicEdge {a s : State} {x1} (h : Quiet a s) : Quiet a (State.cicEdge s x1) := by
  unfold State.cicEdge
  repeat' first
    | with_reducible refine Quiet.ite ?_ ?_
    | with_reducible refine Quiet.ite_snd ?_ ?_
    | with_reducible assumption
    | with_reducible apply kept_setCic

theorem kept_notifyQ {a s : State} {x1} {x2} {x3} {x4} {x5} (h : Quiet a s) : Quiet a (State.notifyQ s x1 x2 x3 x4 x5) := by
  unfold State.notifyQ
  repeat' first
    | with_reducible refine Quiet.ite ?_ ?_
    | with_reducible refine Quiet.ite_snd ?_ ?_
    | with_reducible assumption
    | with_reducible apply kept_msixNotify
    | with_reducible apply kept_cicEdge

end Sys2Proof.Machine
end

