-- ==== Sys2Proof/Laws/KeptPost.lean ====
section
/-! SUPPORT. What the operations of Machine/Post.lean leave alone (`Kept`, `Held`). -/

namespace Sys2Proof.Machine

theorem kept_lookup {a s : State} {x1} {x2} {x3} (h : Quiet a s) : Quiet a (State.lookup s x1 x2 x3).2 := by
  unfold State.lookup
  repeat' first
    | with_reducible refine Quiet.ite ?_ ?_
    | with_reducible refine Quiet.ite_snd ?_ ?_
    | with_reducible assumption
    | with_reducible refine Quiet.foldl _ (fun _ _ _ => ?_) _ ?_
    | with_reducible refine Quiet.ite_snd_of (by with_reducible assumption) ?_ ?_
    | with_reducible refine Quiet.foldl_fst _ (fun _ _ _ => ?_) _ ?_
    | with_reducible refine Quiet.foldl_fst_of (by with_reducible assumption) (fun _ _ _ => ?_) ?_
    | with_reducible refine Quiet.foldl_snd _ (fun _ _ _ => ?_) _ ?_
    | with_reducible refine Quiet.foldl_snd_of (by with_reducible assumption) (fun _ _ _ => ?_) ?_
    | with_reducible refine Quiet.foldl_thd _ (fun _ _ _ => ?_) _ ?_
    | with_reducible refine Quiet.foldl_thd_of (by with_reducible assumption) (fun _ _ _ => ?_) ?_
    | dsimp only
    | simp only [reduceIte, Bool.false_eq_true]
    | split
    | fail_if_no_progress ((with_reducible refine Quiet.put ?_ ?_) <;> first | exact rfl | skip)

theorem kept_lookup_of {a s u : State} {x1} {x2} {x3} {w0} (e : State.lookup s x1 x2 x3 = (w0, u)) (h : Quiet a s) : Quiet a u := by
  have := kept_lookup (x1 := x1) (x2 := x2) (x3 := x3) h
  rw [e] at this
  exact this

theorem kept_setWalks {a s : State} {x1} (h : Quiet a s) : Quiet a (State.setWalks s x1) := by
  unfold State.setWalks
  repeat' first
    | with_reducible refine Quiet.ite ?_ ?_
    | with_reducible refine Quiet.ite_snd ?_ ?_
    | with_reducible assumption
    | with_reducible refine Quiet.foldl _ (fun _ _ _ => ?_) _ ?_
    | with_reducible refine Quiet.ite_snd_of (by with_reducible assumption) ?_ ?_
    | with_reducible refine Quiet.foldl_fst _ (fun _ _ _ => ?_) _ ?_
    | with_reducible refine Quiet.foldl_fst_of (by with_reducible assumption) (fun _ _ _ => ?_) ?_
    | with_reducible refine Quiet.foldl_snd _ (fun _ _ _ => ?_) _ ?_
    | with_reducible refine Quiet.foldl_snd_of (by with_reducible assumption) (fun _ _ _ => ?_) ?_
    | with_reducible refine Quiet.foldl_thd _ (fun _ _ _ => ?_) _ ?_
    | with_reducible refine Quiet.foldl_thd_of (by with_reducible assumption) (fun _ _ _ => ?_) ?_
    | dsimp only
    | simp only [reduceIte, Bool.false_eq_true]
    | split
    | fail_if_no_progress ((with_reducible refine Quiet.put ?_ ?_) <;> first | exact rfl | skip)

theorem kept_walk {a s : State} {x1} {x2} {x3} {x4} {x5} (h : Quiet a s) : Quiet a (State.walk s x1 x2 x3 x4 x5).2 := by
  unfold State.walk
  repeat' first
    | with_reducible refine Quiet.ite ?_ ?_
    | with_reducible refine Quiet.ite_snd ?_ ?_
    | with_reducible assumption
    | with_reducible apply kept_setWalks

theorem kept_walk_of {a s u : State} {x1} {x2} {x3} {x4} {x5} {w0} (e : State.walk s x1 x2 x3 x4 x5 = (w0, u)) (h : Quiet a s) : Quiet a u := by
  have := kept_walk (x1 := x1) (x2 := x2) (x3 := x3) (x4 := x4) (x5 := x5) h
  rw [e] at this
  exact this

theorem kept_spend {a s : State} {x1} {x2} {x3} (h : Quiet a s) : Quiet a (State.spend s x1 x2 x3) := by
  unfold State.spend
  repeat' first
    | with_reducible refine Quiet.ite ?_ ?_
    | with_reducible refine Quiet.ite_snd ?_ ?_
    | with_reducible assumption
    | with_reducible refine Quiet.foldl _ (fun _ _ _ => ?_) _ ?_
    | with_reducible refine Quiet.ite_snd_of (by with_reducible assumption) ?_ ?_
    | with_reducible refine Quiet.foldl_fst _ (fun _ _ _ => ?_) _ ?_
    | with_reducible refine Quiet.foldl_fst_of (by with_reducible assumption) (fun _ _ _ => ?_) ?_
    | with_reducible refine Quiet.foldl_snd _ (fun _ _ _ => ?_) _ ?_
    | with_reducible refine Quiet.foldl_snd_of (by with_reducible assumption) (fun _ _ _ => ?_) ?_
    | with_reducible refine Quiet.foldl_thd _ (fun _ _ _ => ?_) _ ?_
    | with_reducible refine Quiet.foldl_thd_of (by with_reducible assumption) (fun _ _ _ => ?_) ?_
    | dsimp only
    | simp only [reduceIte, Bool.false_eq_true]
    | split
    | fail_if_no_progress ((with_reducible refine Quiet.put ?_ ?_) <;> first | exact rfl | skip)

theorem kept_xlate {a s : State} {x1} {x2} {x3} {x4} {x5} (h : Quiet a s) : Quiet a (State.xlate s x1 x2 x3 x4 x5).2 := by
  unfold State.xlate
  repeat' first
    | with_reducible refine Quiet.ite ?_ ?_
    | with_reducible refine Quiet.ite_snd ?_ ?_
    | with_reducible assumption
    | with_reducible apply kept_spend
    | with_reducible apply kept_lookup
    | with_reducible refine kept_lookup_of (by with_reducible assumption) ?_
    | with_reducible apply kept_miss
    | with_reducible apply kept_walk
    | with_reducible refine kept_walk_of (by with_reducible assumption) ?_
    | with_reducible refine Quiet.foldl _ (fun _ _ _ => ?_) _ ?_
    | with_reducible refine Quiet.ite_snd_of (by with_reducible assumption) ?_ ?_
    | with_reducible refine Quiet.foldl_fst _ (fun _ _ _ => ?_) _ ?_
    | with_reducible refine Quiet.foldl_fst_of (by with_reducible assumption) (fun _ _ _ => ?_) ?_
    | with_reducible refine Quiet.foldl_snd _ (fun _ _ _ => ?_) _ ?_
    | with_reducible refine Quiet.foldl_snd_of (by with_reducible assumption) (fun _ _ _ => ?_) ?_
    | with_reducible refine Quiet.foldl_thd _ (fun _ _ _ => ?_) _ ?_
    | with_reducible refine Quiet.foldl_thd_of (by with_reducible assumption) (fun _ _ _ => ?_) ?_
    | dsimp only
    | simp only [reduceIte, Bool.false_eq_true]
    | split
    | fail_if_no_progress ((with_reducible refine Quiet.put ?_ ?_) <;> first | exact rfl | skip)

theorem kept_xlate_of {a s u : State} {x1} {x2} {x3} {x4} {x5} {w0} (e : State.xlate s x1 x2 x3 x4 x5 = (w0, u)) (h : Quiet a s) : Quiet a u := by
  have := kept_xlate (x1 := x1) (x2 := x2) (x3 := x3) (x4 := x4) (x5 := x5) h
  rw [e] at this
  exact this

theorem kept_forget {a s : State} {x1} (h : Quiet a s) : Quiet a (State.forget s x1) := by
  unfold State.forget
  repeat' first
    | with_reducible refine Quiet.ite ?_ ?_
    | with_reducible refine Quiet.ite_snd ?_ ?_
    | with_reducible assumption
    | with_reducible refine Quiet.foldl _ (fun _ _ _ => ?_) _ ?_
    | with_reducible refine Quiet.ite_snd_of (by with_reducible assumption) ?_ ?_
    | with_reducible refine Quiet.foldl_fst _ (fun _ _ _ => ?_) _ ?_
    | with_reducible refine Quiet.foldl_fst_of (by with_reducible assumption) (fun _ _ _ => ?_) ?_
    | with_reducible refine Quiet.foldl_snd _ (fun _ _ _ => ?_) _ ?_
    | with_reducible refine Quiet.foldl_snd_of (by with_reducible assumption) (fun _ _ _ => ?_) ?_
    | with_reducible refine Quiet.foldl_thd _ (fun _ _ _ => ?_) _ ?_
    | with_reducible refine Quiet.foldl_thd_of (by with_reducible assumption) (fun _ _ _ => ?_) ?_
    | dsimp only
    | simp only [reduceIte, Bool.false_eq_true]
    | split
    | fail_if_no_progress ((with_reducible refine Quiet.put ?_ ?_) <;> first | exact rfl | skip)

theorem kept_faultRecord {a s : State} {x1} (h : Quiet a s) : Quiet a (State.faultRecord s x1) := by
  unfold State.faultRecord
  repeat' first
    | with_reducible refine Quiet.ite ?_ ?_
    | with_reducible refine Quiet.ite_snd ?_ ?_
    | with_reducible assumption
    | with_reducible apply kept_setDom
    | with_reducible apply kept_setFq
    | with_reducible apply kept_putOut
    | with_reducible apply kept_notifyQ

theorem kept_eqError {a s : State} {x1} {x2} (h : Quiet a s) : Quiet a (State.eqError s x1 x2) := by
  unfold State.eqError
  repeat' first
    | with_reducible refine Quiet.ite ?_ ?_
    | with_reducible refine Quiet.ite_snd ?_ ?_
    | with_reducible assumption
    | with_reducible apply kept_modEq
    | with_reducible apply kept_forget
    | with_reducible apply kept_report
    | with_reducible refine Quiet.foldl _ (fun _ _ _ => ?_) _ ?_
    | with_reducible refine Quiet.ite_snd_of (by with_reducible assumption) ?_ ?_
    | with_reducible refine Quiet.foldl_fst _ (fun _ _ _ => ?_) _ ?_
    | with_reducible refine Quiet.foldl_fst_of (by with_reducible assumption) (fun _ _ _ => ?_) ?_
    | with_reducible refine Quiet.foldl_snd _ (fun _ _ _ => ?_) _ ?_
    | with_reducible refine Quiet.foldl_snd_of (by with_reducible assumption) (fun _ _ _ => ?_) ?_
    | with_reducible refine Quiet.foldl_thd _ (fun _ _ _ => ?_) _ ?_
    | with_reducible refine Quiet.foldl_thd_of (by with_reducible assumption) (fun _ _ _ => ?_) ?_
    | dsimp only
    | simp only [reduceIte, Bool.false_eq_true]
    | split
    | fail_if_no_progress ((with_reducible refine Quiet.put ?_ ?_) <;> first | exact rfl | skip)

theorem kept_wqError {a s : State} {x1} {x2} (h : Quiet a s) : Quiet a (State.wqError s x1 x2) := by
  unfold State.wqError
  repeat' first
    | with_reducible refine Quiet.ite ?_ ?_
    | with_reducible refine Quiet.ite_snd ?_ ?_
    | with_reducible assumption
    | with_reducible apply kept_modWq
    | with_reducible apply kept_forget
    | with_reducible apply kept_report
    | with_reducible refine Quiet.foldl _ (fun _ _ _ => ?_) _ ?_
    | with_reducible refine Quiet.ite_snd_of (by with_reducible assumption) ?_ ?_
    | with_reducible refine Quiet.foldl_fst _ (fun _ _ _ => ?_) _ ?_
    | with_reducible refine Quiet.foldl_fst_of (by with_reducible assumption) (fun _ _ _ => ?_) ?_
    | with_reducible refine Quiet.foldl_snd _ (fun _ _ _ => ?_) _ ?_
    | with_reducible refine Quiet.foldl_snd_of (by with_reducible assumption) (fun _ _ _ => ?_) ?_
    | with_reducible refine Quiet.foldl_thd _ (fun _ _ _ => ?_) _ ?_
    | with_reducible refine Quiet.foldl_thd_of (by with_reducible assumption) (fun _ _ _ => ?_) ?_
    | dsimp only
    | simp only [reduceIte, Bool.false_eq_true]
    | split
    | fail_if_no_progress ((with_reducible refine Quiet.put ?_ ?_) <;> first | exact rfl | skip)

theorem kept_eqAddr {a s : State} {x1} {x2} {x3} (h : Quiet a s) : Quiet a (State.eqAddr s x1 x2 x3).2 := by
  unfold State.eqAddr
  repeat' first
    | with_reducible refine Quiet.ite ?_ ?_
    | with_reducible refine Quiet.ite_snd ?_ ?_
    | with_reducible assumption
    | with_reducible apply kept_xlate
    | with_reducible refine kept_xlate_of (by with_reducible assumption) ?_
    | with_reducible apply kept_faultRecord
    | with_reducible apply kept_eqError
    | with_reducible refine Quiet.foldl _ (fun _ _ _ => ?_) _ ?_
    | with_reducible refine Quiet.ite_snd_of (by with_reducible assumption) ?_ ?_
    | with_reducible refine Quiet.foldl_fst _ (fun _ _ _ => ?_) _ ?_
    | with_reducible refine Quiet.foldl_fst_of (by with_reducible assumption) (fun _ _ _ => ?_) ?_
    | with_reducible refine Quiet.foldl_snd _ (fun _ _ _ => ?_) _ ?_
    | with_reducible refine Quiet.foldl_snd_of (by with_reducible assumption) (fun _ _ _ => ?_) ?_
    | with_reducible refine Quiet.foldl_thd _ (fun _ _ _ => ?_) _ ?_
    | with_reducible refine Quiet.foldl_thd_of (by with_reducible assumption) (fun _ _ _ => ?_) ?_
    | dsimp only
    | simp only [reduceIte, Bool.false_eq_true]
    | split

theorem kept_eqAddr_of {a s u : State} {x1} {x2} {x3} {w0} (e : State.eqAddr s x1 x2 x3 = (w0, u)) (h : Quiet a s) : Quiet a u := by
  have := kept_eqAddr (x1 := x1) (x2 := x2) (x3 := x3) h
  rw [e] at this
  exact this

theorem kept_wqAddr {a s : State} {x1} {x2} {x3} (h : Quiet a s) : Quiet a (State.wqAddr s x1 x2 x3).2 := by
  unfold State.wqAddr
  repeat' first
    | with_reducible refine Quiet.ite ?_ ?_
    | with_reducible refine Quiet.ite_snd ?_ ?_
    | with_reducible assumption
    | with_reducible apply kept_xlate
    | with_reducible refine kept_xlate_of (by with_reducible assumption) ?_
    | with_reducible apply kept_faultRecord
    | with_reducible apply kept_wqError
    | with_reducible refine Quiet.foldl _ (fun _ _ _ => ?_) _ ?_
    | with_reducible refine Quiet.ite_snd_of (by with_reducible assumption) ?_ ?_
    | with_reducible refine Quiet.foldl_fst _ (fun _ _ _ => ?_) _ ?_
    | with_reducible refine Quiet.foldl_fst_of (by with_reducible assumption) (fun _ _ _ => ?_) ?_
    | with_reducible refine Quiet.foldl_snd _ (fun _ _ _ => ?_) _ ?_
    | with_reducible refine Quiet.foldl_snd_of (by with_reducible assumption) (fun _ _ _ => ?_) ?_
    | with_reducible refine Quiet.foldl_thd _ (fun _ _ _ => ?_) _ ?_
    | with_reducible refine Quiet.foldl_thd_of (by with_reducible assumption) (fun _ _ _ => ?_) ?_
    | dsimp only
    | simp only [reduceIte, Bool.false_eq_true]
    | split

theorem kept_wqAddr_of {a s u : State} {x1} {x2} {x3} {w0} (e : State.wqAddr s x1 x2 x3 = (w0, u)) (h : Quiet a s) : Quiet a u := by
  have := kept_wqAddr (x1 := x1) (x2 := x2) (x3 := x3) h
  rw [e] at this
  exact this

theorem kept_eqNotify {a s : State} {x1} (h : Quiet a s) : Quiet a (State.eqNotify s x1) := by
  unfold State.eqNotify
  repeat' first
    | with_reducible refine Quiet.ite ?_ ?_
    | with_reducible refine Quiet.ite_snd ?_ ?_
    | with_reducible assumption
    | with_reducible apply kept_notifyQ
    | with_reducible apply kept_setEq

theorem kept_eqReserve {a s : State} {x1} (h : Quiet a s) : Quiet a (State.eqReserve s x1) := by
  unfold State.eqReserve
  repeat' first
    | with_reducible refine Quiet.ite ?_ ?_
    | with_reducible refine Quiet.ite_snd ?_ ?_
    | with_reducible assumption
    | with_reducible apply kept_modEq
    | with_reducible refine Quiet.foldl _ (fun _ _ _ => ?_) _ ?_
    | with_reducible refine Quiet.ite_snd_of (by with_reducible assumption) ?_ ?_
    | with_reducible refine Quiet.foldl_fst _ (fun _ _ _ => ?_) _ ?_
    | with_reducible refine Quiet.foldl_fst_of (by with_reducible assumption) (fun _ _ _ => ?_) ?_
    | with_reducible refine Quiet.foldl_snd _ (fun _ _ _ => ?_) _ ?_
    | with_reducible refine Quiet.foldl_snd_of (by with_reducible assumption) (fun _ _ _ => ?_) ?_
    | with_reducible refine Quiet.foldl_thd _ (fun _ _ _ => ?_) _ ?_
    | with_reducible refine Quiet.foldl_thd_of (by with_reducible assumption) (fun _ _ _ => ?_) ?_
    | dsimp only
    | simp only [reduceIte, Bool.false_eq_true]
    | split
    | fail_if_no_progress ((with_reducible refine Quiet.put ?_ ?_) <;> first | exact rfl | skip)

theorem kept_eqCommit {a s : State} {x1} {x2} (h : Quiet a s) : Quiet a (State.eqCommit s x1 x2).2 := by
  unfold State.eqCommit
  repeat' first
    | with_reducible refine Quiet.ite ?_ ?_
    | with_reducible refine Quiet.ite_snd ?_ ?_
    | with_reducible assumption
    | with_reducible apply kept_eqAddr
    | with_reducible refine kept_eqAddr_of (by with_reducible assumption) ?_
    | with_reducible apply kept_eqError
    | with_reducible apply kept_putOut
    | with_reducible apply kept_modEq
    | with_reducible apply kept_spend
    | with_reducible apply kept_eqNotify
    | with_reducible refine Quiet.foldl _ (fun _ _ _ => ?_) _ ?_
    | with_reducible refine Quiet.ite_snd_of (by with_reducible assumption) ?_ ?_
    | with_reducible refine Quiet.foldl_fst _ (fun _ _ _ => ?_) _ ?_
    | with_reducible refine Quiet.foldl_fst_of (by with_reducible assumption) (fun _ _ _ => ?_) ?_
    | with_reducible refine Quiet.foldl_snd _ (fun _ _ _ => ?_) _ ?_
    | with_reducible refine Quiet.foldl_snd_of (by with_reducible assumption) (fun _ _ _ => ?_) ?_
    | with_reducible refine Quiet.foldl_thd _ (fun _ _ _ => ?_) _ ?_
    | with_reducible refine Quiet.foldl_thd_of (by with_reducible assumption) (fun _ _ _ => ?_) ?_
    | dsimp only
    | simp only [reduceIte, Bool.false_eq_true]
    | split
    | fail_if_no_progress ((with_reducible refine Quiet.put ?_ ?_) <;> first | exact rfl | skip)

theorem kept_eqCommit_of {a s u : State} {x1} {x2} {w0} (e : State.eqCommit s x1 x2 = (w0, u)) (h : Quiet a s) : Quiet a u := by
  have := kept_eqCommit (x1 := x1) (x2 := x2) h
  rw [e] at this
  exact this

theorem kept_eqPost {a s : State} {x1} {x2} {x3} (h : Quiet a s) : Quiet a (State.eqPost s x1 x2 x3).2 := by
  unfold State.eqPost
  repeat' first
    | with_reducible refine Quiet.ite ?_ ?_
    | with_reducible refine Quiet.ite_snd ?_ ?_
    | with_reducible assumption
    | with_reducible apply kept_modEq
    | with_reducible apply kept_eqReserve
    | with_reducible apply kept_eqCommit
    | with_reducible refine kept_eqCommit_of (by with_reducible assumption) ?_
    | with_reducible refine Quiet.foldl _ (fun _ _ _ => ?_) _ ?_
    | with_reducible refine Quiet.ite_snd_of (by with_reducible assumption) ?_ ?_
    | with_reducible refine Quiet.foldl_fst _ (fun _ _ _ => ?_) _ ?_
    | with_reducible refine Quiet.foldl_fst_of (by with_reducible assumption) (fun _ _ _ => ?_) ?_
    | with_reducible refine Quiet.foldl_snd _ (fun _ _ _ => ?_) _ ?_
    | with_reducible refine Quiet.foldl_snd_of (by with_reducible assumption) (fun _ _ _ => ?_) ?_
    | with_reducible refine Quiet.foldl_thd _ (fun _ _ _ => ?_) _ ?_
    | with_reducible refine Quiet.foldl_thd_of (by with_reducible assumption) (fun _ _ _ => ?_) ?_
    | dsimp only
    | simp only [reduceIte, Bool.false_eq_true]
    | split
    | fail_if_no_progress ((with_reducible refine Quiet.put ?_ ?_) <;> first | exact rfl | skip)

theorem kept_eqPost_of {a s u : State} {x1} {x2} {x3} {w0} (e : State.eqPost s x1 x2 x3 = (w0, u)) (h : Quiet a s) : Quiet a u := by
  have := kept_eqPost (x1 := x1) (x2 := x2) (x3 := x3) h
  rw [e] at this
  exact this

end Sys2Proof.Machine
end

