-- ==== Sys2Proof/Laws/KeptChanOps.lean ====
section
/-! SUPPORT. What the operations of Machine/ChanOps.lean leave alone (`Kept`, `Held`). -/

namespace Sys2Proof.Machine

theorem kept_schedTake {a s : State} {x1} (h : Quiet a s) : Quiet a (State.schedTake s x1).2 := by
  unfold State.schedTake
  repeat' first
    | with_reducible refine Quiet.ite ?_ ?_
    | with_reducible refine Quiet.ite_snd ?_ ?_
    | with_reducible assumption
    | with_reducible refine Quiet.foldl _ (fun _ _ _ => ?_) _ ?_
    | with_reducible refine Quiet.ite_snd_of (by with_reducible assumption) ?_ ?_
    | with_reducible refine Quiet.foldl_fst _ (fun _ _ _ => ?_) _ ?_
    | with_reducible refine Quiet.foldl_fst_of (by with_reducible assumption) (fun _ _ _ => ?_) ?_
    | with_reducible refine Quiet.foldl_snd _ (fun _ _ _ => ?_) _ ?_
    | with_reducible refine Quiet.foldl_snd_of (by with_reducible assumption) (fun _ _ _ => ?_) ?_
    | with_reducible refine Quiet.foldl_thd _ (fun _ _ _ => ?_) _ ?_
    | with_reducible refine Quiet.foldl_thd_of (by with_reducible assumption) (fun _ _ _ => ?_) ?_
    | dsimp only
    | simp only [reduceIte, Bool.false_eq_true]
    | split
    | fail_if_no_progress ((with_reducible refine Quiet.put ?_ ?_) <;> first | exact rfl | skip)

theorem kept_schedTake_of {a s u : State} {x1} {w0} (e : State.schedTake s x1 = (w0, u)) (h : Quiet a s) : Quiet a u := by
  have := kept_schedTake (x1 := x1) h
  rw [e] at this
  exact this

theorem kept_schedGive {a s : State} {x1} {x2} (h : Quiet a s) : Quiet a (State.schedGive s x1 x2) := by
  unfold State.schedGive
  repeat' first
    | with_reducible refine Quiet.ite ?_ ?_
    | with_reducible refine Quiet.ite_snd ?_ ?_
    | with_reducible assumption
    | with_reducible refine Quiet.foldl _ (fun _ _ _ => ?_) _ ?_
    | with_reducible refine Quiet.ite_snd_of (by with_reducible assumption) ?_ ?_
    | with_reducible refine Quiet.foldl_fst _ (fun _ _ _ => ?_) _ ?_
    | with_reducible refine Quiet.foldl_fst_of (by with_reducible assumption) (fun _ _ _ => ?_) ?_
    | with_reducible refine Quiet.foldl_snd _ (fun _ _ _ => ?_) _ ?_
    | with_reducible refine Quiet.foldl_snd_of (by with_reducible assumption) (fun _ _ _ => ?_) ?_
    | with_reducible refine Quiet.foldl_thd _ (fun _ _ _ => ?_) _ ?_
    | with_reducible refine Quiet.foldl_thd_of (by with_reducible assumption) (fun _ _ _ => ?_) ?_
    | dsimp only
    | simp only [reduceIte, Bool.false_eq_true]
    | split
    | fail_if_no_progress ((with_reducible refine Quiet.put ?_ ?_) <;> first | exact rfl | skip)

theorem kept_freeSlots {a s : State} {x1} (h : Quiet a s) : Quiet a (State.freeSlots s x1) := by
  unfold State.freeSlots
  repeat' first
    | with_reducible refine Quiet.ite ?_ ?_
    | with_reducible refine Quiet.ite_snd ?_ ?_
    | with_reducible assumption
    | with_reducible apply kept_modOu
    | with_reducible refine Quiet.foldl _ (fun _ _ _ => ?_) _ ?_

theorem kept_setMover {a s : State} {x1} {x2} (h : Quiet a s) : Quiet a (State.setMover s x1 x2) := by
  unfold State.setMover
  repeat' first
    | with_reducible refine Quiet.ite ?_ ?_
    | with_reducible refine Quiet.ite_snd ?_ ?_
    | with_reducible assumption
    | with_reducible refine Quiet.foldl _ (fun _ _ _ => ?_) _ ?_
    | with_reducible refine Quiet.ite_snd_of (by with_reducible assumption) ?_ ?_
    | with_reducible refine Quiet.foldl_fst _ (fun _ _ _ => ?_) _ ?_
    | with_reducible refine Quiet.foldl_fst_of (by with_reducible assumption) (fun _ _ _ => ?_) ?_
    | with_reducible refine Quiet.foldl_snd _ (fun _ _ _ => ?_) _ ?_
    | with_reducible refine Quiet.foldl_snd_of (by with_reducible assumption) (fun _ _ _ => ?_) ?_
    | with_reducible refine Quiet.foldl_thd _ (fun _ _ _ => ?_) _ ?_
    | with_reducible refine Quiet.foldl_thd_of (by with_reducible assumption) (fun _ _ _ => ?_) ?_
    | dsimp only
    | simp only [reduceIte, Bool.false_eq_true]
    | split
    | fail_if_no_progress ((with_reducible refine Quiet.put ?_ ?_) <;> first | exact rfl | skip)

theorem kept_retMover {a s : State} {x1} (h : Quiet a s) : Quiet a (State.retMover s x1) := by
  unfold State.retMover
  repeat' first
    | with_reducible refine Quiet.ite ?_ ?_
    | with_reducible refine Quiet.ite_snd ?_ ?_
    | with_reducible assumption
    | with_reducible apply kept_setMover
    | with_reducible refine Quiet.foldl _ (fun _ _ _ => ?_) _ ?_
    | with_reducible refine Quiet.ite_snd_of (by with_reducible assumption) ?_ ?_
    | with_reducible refine Quiet.foldl_fst _ (fun _ _ _ => ?_) _ ?_
    | with_reducible refine Quiet.foldl_fst_of (by with_reducible assumption) (fun _ _ _ => ?_) ?_
    | with_reducible refine Quiet.foldl_snd _ (fun _ _ _ => ?_) _ ?_
    | with_reducible refine Quiet.foldl_snd_of (by with_reducible assumption) (fun _ _ _ => ?_) ?_
    | with_reducible refine Quiet.foldl_thd _ (fun _ _ _ => ?_) _ ?_
    | with_reducible refine Quiet.foldl_thd_of (by with_reducible assumption) (fun _ _ _ => ?_) ?_
    | dsimp only
    | simp only [reduceIte, Bool.false_eq_true]
    | split
    | fail_if_no_progress ((with_reducible refine Quiet.put ?_ ?_) <;> first | exact rfl | skip)

theorem kept_freeBox {a s : State} {x1} (h : Quiet a s) : Quiet a (State.freeBox s x1) := by
  unfold State.freeBox
  repeat' first
    | with_reducible refine Quiet.ite ?_ ?_
    | with_reducible refine Quiet.ite_snd ?_ ?_
    | with_reducible assumption
    | with_reducible refine Quiet.foldl _ (fun _ _ _ => ?_) _ ?_
    | with_reducible refine Quiet.ite_snd_of (by with_reducible assumption) ?_ ?_
    | with_reducible refine Quiet.foldl_fst _ (fun _ _ _ => ?_) _ ?_
    | with_reducible refine Quiet.foldl_fst_of (by with_reducible assumption) (fun _ _ _ => ?_) ?_
    | with_reducible refine Quiet.foldl_snd _ (fun _ _ _ => ?_) _ ?_
    | with_reducible refine Quiet.foldl_snd_of (by with_reducible assumption) (fun _ _ _ => ?_) ?_
    | with_reducible refine Quiet.foldl_thd _ (fun _ _ _ => ?_) _ ?_
    | with_reducible refine Quiet.foldl_thd_of (by with_reducible assumption) (fun _ _ _ => ?_) ?_
    | dsimp only
    | simp only [reduceIte, Bool.false_eq_true]
    | split
    | fail_if_no_progress ((with_reducible refine Quiet.put ?_ ?_) <;> first | exact rfl | skip)

theorem kept_unclaim {a s : State} {x1} (h : Quiet a s) : Quiet a (State.unclaim s x1) := by
  unfold State.unclaim
  repeat' first
    | with_reducible refine Quiet.ite ?_ ?_
    | with_reducible refine Quiet.ite_snd ?_ ?_
    | with_reducible assumption
    | with_reducible apply kept_setStream
    | with_reducible apply kept_freeBox
    | with_reducible refine Quiet.foldl _ (fun _ _ _ => ?_) _ ?_
    | with_reducible refine Quiet.ite_snd_of (by with_reducible assumption) ?_ ?_
    | with_reducible refine Quiet.foldl_fst _ (fun _ _ _ => ?_) _ ?_
    | with_reducible refine Quiet.foldl_fst_of (by with_reducible assumption) (fun _ _ _ => ?_) ?_
    | with_reducible refine Quiet.foldl_snd _ (fun _ _ _ => ?_) _ ?_
    | with_reducible refine Quiet.foldl_snd_of (by with_reducible assumption) (fun _ _ _ => ?_) ?_
    | with_reducible refine Quiet.foldl_thd _ (fun _ _ _ => ?_) _ ?_
    | with_reducible refine Quiet.foldl_thd_of (by with_reducible assumption) (fun _ _ _ => ?_) ?_
    | dsimp only
    | simp only [reduceIte, Bool.false_eq_true]
    | split
    | fail_if_no_progress ((with_reducible refine Quiet.put ?_ ?_) <;> first | exact rfl | skip)

theorem kept_freeMover {a s : State} {x1} {x2} (h : Quiet a s) : Quiet a (State.freeMover s x1 x2) := by
  unfold State.freeMover
  repeat' first
    | with_reducible refine Quiet.ite ?_ ?_
    | with_reducible refine Quiet.ite_snd ?_ ?_
    | with_reducible assumption
    | with_reducible apply kept_unclaim
    | with_reducible apply kept_retMover
    | with_reducible refine Quiet.foldl _ (fun _ _ _ => ?_) _ ?_
    | with_reducible refine Quiet.ite_snd_of (by with_reducible assumption) ?_ ?_
    | with_reducible refine Quiet.foldl_fst _ (fun _ _ _ => ?_) _ ?_
    | with_reducible refine Quiet.foldl_fst_of (by with_reducible assumption) (fun _ _ _ => ?_) ?_
    | with_reducible refine Quiet.foldl_snd _ (fun _ _ _ => ?_) _ ?_
    | with_reducible refine Quiet.foldl_snd_of (by with_reducible assumption) (fun _ _ _ => ?_) ?_
    | with_reducible refine Quiet.foldl_thd _ (fun _ _ _ => ?_) _ ?_
    | with_reducible refine Quiet.foldl_thd_of (by with_reducible assumption) (fun _ _ _ => ?_) ?_
    | dsimp only
    | simp only [reduceIte, Bool.false_eq_true]
    | split
    | fail_if_no_progress ((with_reducible refine Quiet.put ?_ ?_) <;> first | exact rfl | skip)

theorem kept_freeRecord {a s : State} {x1} (h : Quiet a s) : Quiet a (State.freeRecord s x1) := by
  unfold State.freeRecord
  repeat' first
    | with_reducible refine Quiet.ite ?_ ?_
    | with_reducible refine Quiet.ite_snd ?_ ?_
    | with_reducible assumption
    | with_reducible apply kept_setStream
    | with_reducible refine Quiet.foldl _ (fun _ _ _ => ?_) _ ?_

theorem kept_unhold {a s : State} {x1} (h : Quiet a s) : Quiet a (State.unhold s x1) := by
  unfold State.unhold
  repeat' first
    | with_reducible refine Quiet.ite ?_ ?_
    | with_reducible refine Quiet.ite_snd ?_ ?_
    | with_reducible assumption
    | with_reducible apply kept_freeMover
    | with_reducible apply kept_freeSlots
    | with_reducible apply kept_schedGive
    | with_reducible apply kept_forget
    | with_reducible apply kept_setWalks
    | with_reducible apply kept_modChan
    | with_reducible refine Quiet.foldl _ (fun _ _ _ => ?_) _ ?_
    | with_reducible refine Quiet.ite_snd_of (by with_reducible assumption) ?_ ?_
    | with_reducible refine Quiet.foldl_fst _ (fun _ _ _ => ?_) _ ?_
    | with_reducible refine Quiet.foldl_fst_of (by with_reducible assumption) (fun _ _ _ => ?_) ?_
    | with_reducible refine Quiet.foldl_snd _ (fun _ _ _ => ?_) _ ?_
    | with_reducible refine Quiet.foldl_snd_of (by with_reducible assumption) (fun _ _ _ => ?_) ?_
    | with_reducible refine Quiet.foldl_thd _ (fun _ _ _ => ?_) _ ?_
    | with_reducible refine Quiet.foldl_thd_of (by with_reducible assumption) (fun _ _ _ => ?_) ?_
    | dsimp only
    | simp only [reduceIte, Bool.false_eq_true]
    | split

theorem kept_freeTimed {a s : State} {x1} (h : Quiet a s) : Quiet a (State.freeTimed s x1) := by
  unfold State.freeTimed
  repeat' first
    | with_reducible refine Quiet.ite ?_ ?_
    | with_reducible refine Quiet.ite_snd ?_ ?_
    | with_reducible assumption
    | with_reducible apply kept_schedGive
    | with_reducible apply kept_unhold
    | with_reducible apply kept_modChan
    | with_reducible refine Quiet.foldl _ (fun _ _ _ => ?_) _ ?_
    | with_reducible refine Quiet.ite_snd_of (by with_reducible assumption) ?_ ?_
    | with_reducible refine Quiet.foldl_fst _ (fun _ _ _ => ?_) _ ?_
    | with_reducible refine Quiet.foldl_fst_of (by with_reducible assumption) (fun _ _ _ => ?_) ?_
    | with_reducible refine Quiet.foldl_snd _ (fun _ _ _ => ?_) _ ?_
    | with_reducible refine Quiet.foldl_snd_of (by with_reducible assumption) (fun _ _ _ => ?_) ?_
    | with_reducible refine Quiet.foldl_thd _ (fun _ _ _ => ?_) _ ?_
    | with_reducible refine Quiet.foldl_thd_of (by with_reducible assumption) (fun _ _ _ => ?_) ?_
    | dsimp only
    | simp only [reduceIte, Bool.false_eq_true]
    | split

theorem kept_enterEnd {a s : State} {x1} {x2} (h : Quiet a s) : Quiet a (State.enterEnd s x1 x2) := by
  unfold State.enterEnd
  repeat' first
    | with_reducible refine Quiet.ite ?_ ?_
    | with_reducible refine Quiet.ite_snd ?_ ?_
    | with_reducible assumption
    | with_reducible apply kept_modChan

theorem kept_suspend {a s : State} {x1} {x2} (h : Quiet a s) : Quiet a (State.suspend s x1 x2) := by
  unfold State.suspend
  repeat' first
    | with_reducible refine Quiet.ite ?_ ?_
    | with_reducible refine Quiet.ite_snd ?_ ?_
    | with_reducible assumption
    | with_reducible apply kept_modChan
    | with_reducible apply kept_forget
    | with_reducible refine Quiet.foldl _ (fun _ _ _ => ?_) _ ?_
    | with_reducible refine Quiet.ite_snd_of (by with_reducible assumption) ?_ ?_
    | with_reducible refine Quiet.foldl_fst _ (fun _ _ _ => ?_) _ ?_
    | with_reducible refine Quiet.foldl_fst_of (by with_reducible assumption) (fun _ _ _ => ?_) ?_
    | with_reducible refine Quiet.foldl_snd _ (fun _ _ _ => ?_) _ ?_
    | with_reducible refine Quiet.foldl_snd_of (by with_reducible assumption) (fun _ _ _ => ?_) ?_
    | with_reducible refine Quiet.foldl_thd _ (fun _ _ _ => ?_) _ ?_
    | with_reducible refine Quiet.foldl_thd_of (by with_reducible assumption) (fun _ _ _ => ?_) ?_
    | dsimp only
    | simp only [reduceIte, Bool.false_eq_true]
    | split
    | fail_if_no_progress ((with_reducible refine Quiet.put ?_ ?_) <;> first | exact rfl | skip)

theorem kept_freeAll {a s : State} {x1} (h : Quiet a s) : Quiet a (State.freeAll s x1) := by
  unfold State.freeAll
  repeat' first
    | with_reducible refine Quiet.ite ?_ ?_
    | with_reducible refine Quiet.ite_snd ?_ ?_
    | with_reducible assumption
    | with_reducible apply kept_freeTimed
    | with_reducible apply kept_freeSlots
    | with_reducible apply kept_freeRecord
    | with_reducible apply kept_freeBox
    | with_reducible apply kept_forget
    | with_reducible refine Quiet.foldl _ (fun _ _ _ => ?_) _ ?_
    | with_reducible refine Quiet.ite_snd_of (by with_reducible assumption) ?_ ?_
    | with_reducible refine Quiet.foldl_fst _ (fun _ _ _ => ?_) _ ?_
    | with_reducible refine Quiet.foldl_fst_of (by with_reducible assumption) (fun _ _ _ => ?_) ?_
    | with_reducible refine Quiet.foldl_snd _ (fun _ _ _ => ?_) _ ?_
    | with_reducible refine Quiet.foldl_snd_of (by with_reducible assumption) (fun _ _ _ => ?_) ?_
    | with_reducible refine Quiet.foldl_thd _ (fun _ _ _ => ?_) _ ?_
    | with_reducible refine Quiet.foldl_thd_of (by with_reducible assumption) (fun _ _ _ => ?_) ?_
    | dsimp only
    | simp only [reduceIte, Bool.false_eq_true]
    | split
    | fail_if_no_progress ((with_reducible refine Quiet.put ?_ ?_) <;> first | exact rfl | skip)

theorem kept_chanPost {a s : State} {x1} {x2} (h : Quiet a s) : Quiet a (State.chanPost s x1 x2).2 := by
  unfold State.chanPost
  repeat' first
    | with_reducible refine Quiet.ite ?_ ?_
    | with_reducible refine Quiet.ite_snd ?_ ?_
    | with_reducible assumption
    | with_reducible apply kept_eqPost
    | with_reducible refine kept_eqPost_of (by with_reducible assumption) ?_
    | with_reducible apply kept_modChan
    | with_reducible refine Quiet.foldl _ (fun _ _ _ => ?_) _ ?_
    | with_reducible refine Quiet.ite_snd_of (by with_reducible assumption) ?_ ?_
    | with_reducible refine Quiet.foldl_fst _ (fun _ _ _ => ?_) _ ?_
    | with_reducible refine Quiet.foldl_fst_of (by with_reducible assumption) (fun _ _ _ => ?_) ?_
    | with_reducible refine Quiet.foldl_snd _ (fun _ _ _ => ?_) _ ?_
    | with_reducible refine Quiet.foldl_snd_of (by with_reducible assumption) (fun _ _ _ => ?_) ?_
    | with_reducible refine Quiet.foldl_thd _ (fun _ _ _ => ?_) _ ?_
    | with_reducible refine Quiet.foldl_thd_of (by with_reducible assumption) (fun _ _ _ => ?_) ?_
    | dsimp only
    | simp only [reduceIte, Bool.false_eq_true]
    | split

theorem kept_chanPost_of {a s u : State} {x1} {x2} {w0} (e : State.chanPost s x1 x2 = (w0, u)) (h : Quiet a s) : Quiet a u := by
  have := kept_chanPost (x1 := x1) (x2 := x2) h
  rw [e] at this
  exact this

theorem kept_holdRec {a s : State} {x1} {x2} {x3} {x4} (h : Quiet a s) : Quiet a (State.holdRec s x1 x2 x3 x4) := by
  unfold State.holdRec
  repeat' first
    | with_reducible refine Quiet.ite ?_ ?_
    | with_reducible refine Quiet.ite_snd ?_ ?_
    | with_reducible assumption
    | with_reducible apply kept_modChan

theorem kept_endProgram {a s : State} {x1} {x2} {x3} (h : Quiet a s) : Quiet a (State.endProgram s x1 x2 x3) := by
  unfold State.endProgram
  repeat' first
    | with_reducible refine Quiet.ite ?_ ?_
    | with_reducible refine Quiet.ite_snd ?_ ?_
    | with_reducible assumption
    | with_reducible apply kept_freeAll
    | with_reducible apply kept_chanPost
    | with_reducible refine kept_chanPost_of (by with_reducible assumption) ?_
    | with_reducible apply kept_enterEnd
    | with_reducible apply kept_modChan
    | with_reducible apply kept_holdRec
    | with_reducible refine Quiet.foldl _ (fun _ _ _ => ?_) _ ?_
    | with_reducible refine Quiet.ite_snd_of (by with_reducible assumption) ?_ ?_
    | with_reducible refine Quiet.foldl_fst _ (fun _ _ _ => ?_) _ ?_
    | with_reducible refine Quiet.foldl_fst_of (by with_reducible assumption) (fun _ _ _ => ?_) ?_
    | with_reducible refine Quiet.foldl_snd _ (fun _ _ _ => ?_) _ ?_
    | with_reducible refine Quiet.foldl_snd_of (by with_reducible assumption) (fun _ _ _ => ?_) ?_
    | with_reducible refine Quiet.foldl_thd _ (fun _ _ _ => ?_) _ ?_
    | with_reducible refine Quiet.foldl_thd_of (by with_reducible assumption) (fun _ _ _ => ?_) ?_
    | dsimp only
    | simp only [reduceIte, Bool.false_eq_true]
    | split
    | fail_if_no_progress ((with_reducible refine Quiet.put ?_ ?_) <;> first | exact rfl | skip)

theorem kept_endWith {a s : State} {x1} {x2} (h : Quiet a s) : Quiet a (State.endWith s x1 x2) := by
  unfold State.endWith
  repeat' first
    | with_reducible refine Quiet.ite ?_ ?_
    | with_reducible refine Quiet.ite_snd ?_ ?_
    | with_reducible assumption
    | with_reducible apply kept_endProgram
    | with_reducible apply kept_modChan

theorem kept_failCheck {a s : State} {x1} {x2} (h : Quiet a s) : Quiet a (State.failCheck s x1 x2) := by
  unfold State.failCheck
  repeat' first
    | with_reducible refine Quiet.ite ?_ ?_
    | with_reducible refine Quiet.ite_snd ?_ ?_
    | with_reducible assumption
    | with_reducible apply kept_modChan
    | with_reducible apply kept_endWith
    | with_reducible refine Quiet.foldl _ (fun _ _ _ => ?_) _ ?_
    | with_reducible refine Quiet.ite_snd_of (by with_reducible assumption) ?_ ?_
    | with_reducible refine Quiet.foldl_fst _ (fun _ _ _ => ?_) _ ?_
    | with_reducible refine Quiet.foldl_fst_of (by with_reducible assumption) (fun _ _ _ => ?_) ?_
    | with_reducible refine Quiet.foldl_snd _ (fun _ _ _ => ?_) _ ?_
    | with_reducible refine Quiet.foldl_snd_of (by with_reducible assumption) (fun _ _ _ => ?_) ?_
    | with_reducible refine Quiet.foldl_thd _ (fun _ _ _ => ?_) _ ?_
    | with_reducible refine Quiet.foldl_thd_of (by with_reducible assumption) (fun _ _ _ => ?_) ?_
    | dsimp only
    | simp only [reduceIte, Bool.false_eq_true]
    | split
    | fail_if_no_progress ((with_reducible refine Quiet.put ?_ ?_) <;> first | exact rfl | skip)

theorem kept_miss {a s : State} {x1} {x2} {x3} (h : Quiet a s) : Quiet a (State.miss s x1 x2 x3) := by
  unfold State.miss
  repeat' first
    | with_reducible refine Quiet.ite ?_ ?_
    | with_reducible refine Quiet.ite_snd ?_ ?_
    | with_reducible assumption
    | with_reducible apply kept_freeMover
    | with_reducible apply kept_modChan
    | with_reducible apply kept_endWith
    | with_reducible refine Quiet.foldl _ (fun _ _ _ => ?_) _ ?_
    | with_reducible refine Quiet.ite_snd_of (by with_reducible assumption) ?_ ?_
    | with_reducible refine Quiet.foldl_fst _ (fun _ _ _ => ?_) _ ?_
    | with_reducible refine Quiet.foldl_fst_of (by with_reducible assumption) (fun _ _ _ => ?_) ?_
    | with_reducible refine Quiet.foldl_snd _ (fun _ _ _ => ?_) _ ?_
    | with_reducible refine Quiet.foldl_snd_of (by with_reducible assumption) (fun _ _ _ => ?_) ?_
    | with_reducible refine Quiet.foldl_thd _ (fun _ _ _ => ?_) _ ?_
    | with_reducible refine Quiet.foldl_thd_of (by with_reducible assumption) (fun _ _ _ => ?_) ?_
    | dsimp only
    | simp only [reduceIte, Bool.false_eq_true]
    | split
    | fail_if_no_progress ((with_reducible refine Quiet.put ?_ ?_) <;> first | exact rfl | skip)

theorem kept_setDue {a s : State} {x1} {x2} (h : Quiet a s) : Quiet a (State.setDue s x1 x2) := by
  unfold State.setDue
  repeat' first
    | with_reducible refine Quiet.ite ?_ ?_
    | with_reducible refine Quiet.ite_snd ?_ ?_
    | with_reducible assumption
    | with_reducible apply kept_modChan

theorem kept_newPrediction {a s : State} {x1} {x2} (h : Quiet a s) : Quiet a (State.newPrediction s x1 x2) := by
  unfold State.newPrediction
  repeat' first
    | with_reducible refine Quiet.ite ?_ ?_
    | with_reducible refine Quiet.ite_snd ?_ ?_
    | with_reducible assumption
    | with_reducible apply kept_miss
    | with_reducible apply kept_setDue
    | with_reducible refine Quiet.foldl _ (fun _ _ _ => ?_) _ ?_
    | with_reducible refine Quiet.ite_snd_of (by with_reducible assumption) ?_ ?_
    | with_reducible refine Quiet.foldl_fst _ (fun _ _ _ => ?_) _ ?_
    | with_reducible refine Quiet.foldl_fst_of (by with_reducible assumption) (fun _ _ _ => ?_) ?_
    | with_reducible refine Quiet.foldl_snd _ (fun _ _ _ => ?_) _ ?_
    | with_reducible refine Quiet.foldl_snd_of (by with_reducible assumption) (fun _ _ _ => ?_) ?_
    | with_reducible refine Quiet.foldl_thd _ (fun _ _ _ => ?_) _ ?_
    | with_reducible refine Quiet.foldl_thd_of (by with_reducible assumption) (fun _ _ _ => ?_) ?_
    | dsimp only
    | simp only [reduceIte, Bool.false_eq_true]
    | split

theorem kept_noteOor {a s : State} {x1} (h : Quiet a s) : Quiet a (State.noteOor s x1) := by
  unfold State.noteOor
  repeat' first
    | with_reducible refine Quiet.ite ?_ ?_
    | with_reducible refine Quiet.ite_snd ?_ ?_
    | with_reducible assumption
    | with_reducible apply kept_modChan

theorem kept_gladeNote {a s : State} {x1} (h : Quiet a s) : Quiet a (State.gladeNote s x1) := by
  unfold State.gladeNote
  repeat' first
    | with_reducible refine Quiet.ite ?_ ?_
    | with_reducible refine Quiet.ite_snd ?_ ?_
    | with_reducible assumption
    | with_reducible apply kept_modChan
    | with_reducible refine Quiet.foldl _ (fun _ _ _ => ?_) _ ?_
    | with_reducible refine Quiet.ite_snd_of (by with_reducible assumption) ?_ ?_
    | with_reducible refine Quiet.foldl_fst _ (fun _ _ _ => ?_) _ ?_
    | with_reducible refine Quiet.foldl_fst_of (by with_reducible assumption) (fun _ _ _ => ?_) ?_
    | with_reducible refine Quiet.foldl_snd _ (fun _ _ _ => ?_) _ ?_
    | with_reducible refine Quiet.foldl_snd_of (by with_reducible assumption) (fun _ _ _ => ?_) ?_
    | with_reducible refine Quiet.foldl_thd _ (fun _ _ _ => ?_) _ ?_
    | with_reducible refine Quiet.foldl_thd_of (by with_reducible assumption) (fun _ _ _ => ?_) ?_
    | dsimp only
    | simp only [reduceIte, Bool.false_eq_true]
    | split
    | fail_if_no_progress ((with_reducible refine Quiet.put ?_ ?_) <;> first | exact rfl | skip)

theorem kept_suspendNow {a s : State} {x1} (h : Quiet a s) : Quiet a (State.suspendNow s x1) := by
  unfold State.suspendNow
  repeat' first
    | with_reducible refine Quiet.ite ?_ ?_
    | with_reducible refine Quiet.ite_snd ?_ ?_
    | with_reducible assumption
    | with_reducible apply kept_freeTimed
    | with_reducible apply kept_suspend
    | with_reducible refine Quiet.foldl _ (fun _ _ _ => ?_) _ ?_
    | with_reducible refine Quiet.ite_snd_of (by with_reducible assumption) ?_ ?_
    | with_reducible refine Quiet.foldl_fst _ (fun _ _ _ => ?_) _ ?_
    | with_reducible refine Quiet.foldl_fst_of (by with_reducible assumption) (fun _ _ _ => ?_) ?_
    | with_reducible refine Quiet.foldl_snd _ (fun _ _ _ => ?_) _ ?_
    | with_reducible refine Quiet.foldl_snd_of (by with_reducible assumption) (fun _ _ _ => ?_) ?_
    | with_reducible refine Quiet.foldl_thd _ (fun _ _ _ => ?_) _ ?_
    | with_reducible refine Quiet.foldl_thd_of (by with_reducible assumption) (fun _ _ _ => ?_) ?_
    | dsimp only
    | simp only [reduceIte, Bool.false_eq_true]
    | split
    | fail_if_no_progress ((with_reducible refine Quiet.put ?_ ?_) <;> first | exact rfl | skip)

theorem kept_suspWait {a s : State} {x1} (h : Quiet a s) : Quiet a (State.suspWait s x1) := by
  unfold State.suspWait
  repeat' first
    | with_reducible refine Quiet.ite ?_ ?_
    | with_reducible refine Quiet.ite_snd ?_ ?_
    | with_reducible assumption
    | with_reducible apply kept_suspendNow
    | with_reducible refine Quiet.foldl _ (fun _ _ _ => ?_) _ ?_
    | with_reducible refine Quiet.ite_snd_of (by with_reducible assumption) ?_ ?_
    | with_reducible refine Quiet.foldl_fst _ (fun _ _ _ => ?_) _ ?_
    | with_reducible refine Quiet.foldl_fst_of (by with_reducible assumption) (fun _ _ _ => ?_) ?_
    | with_reducible refine Quiet.foldl_snd _ (fun _ _ _ => ?_) _ ?_
    | with_reducible refine Quiet.foldl_snd_of (by with_reducible assumption) (fun _ _ _ => ?_) ?_
    | with_reducible refine Quiet.foldl_thd _ (fun _ _ _ => ?_) _ ?_
    | with_reducible refine Quiet.foldl_thd_of (by with_reducible assumption) (fun _ _ _ => ?_) ?_
    | dsimp only
    | simp only [reduceIte, Bool.false_eq_true]
    | split
    | fail_if_no_progress ((with_reducible refine Quiet.put ?_ ?_) <;> first | exact rfl | skip)

theorem kept_enterWait {a s : State} {x1} {x2} (h : Quiet a s) : Quiet a (State.enterWait s x1 x2) := by
  unfold State.enterWait
  repeat' first
    | with_reducible refine Quiet.ite ?_ ?_
    | with_reducible refine Quiet.ite_snd ?_ ?_
    | with_reducible assumption
    | with_reducible apply kept_modChan
    | with_reducible apply kept_suspWait
    | with_reducible refine Quiet.foldl _ (fun _ _ _ => ?_) _ ?_
    | with_reducible refine Quiet.ite_snd_of (by with_reducible assumption) ?_ ?_
    | with_reducible refine Quiet.foldl_fst _ (fun _ _ _ => ?_) _ ?_
    | with_reducible refine Quiet.foldl_fst_of (by with_reducible assumption) (fun _ _ _ => ?_) ?_
    | with_reducible refine Quiet.foldl_snd _ (fun _ _ _ => ?_) _ ?_
    | with_reducible refine Quiet.foldl_snd_of (by with_reducible assumption) (fun _ _ _ => ?_) ?_
    | with_reducible refine Quiet.foldl_thd _ (fun _ _ _ => ?_) _ ?_
    | with_reducible refine Quiet.foldl_thd_of (by with_reducible assumption) (fun _ _ _ => ?_) ?_
    | dsimp only
    | simp only [reduceIte, Bool.false_eq_true]
    | split
    | fail_if_no_progress ((with_reducible refine Quiet.put ?_ ?_) <;> first | exact rfl | skip)

theorem kept_timedEntry {a s : State} {x1} (h : Quiet a s) : Quiet a (State.timedEntry s x1) := by
  unfold State.timedEntry
  repeat' first
    | with_reducible refine Quiet.ite ?_ ?_
    | with_reducible refine Quiet.ite_snd ?_ ?_
    | with_reducible assumption
    | with_reducible apply kept_setChan
    | with_reducible apply kept_noteOor
    | with_reducible apply kept_miss
    | with_reducible apply kept_schedTake
    | with_reducible refine kept_schedTake_of (by with_reducible assumption) ?_
    | with_reducible apply kept_suspWait
    | with_reducible apply kept_modChan
    | with_reducible apply kept_newPrediction
    | with_reducible refine Quiet.foldl _ (fun _ _ _ => ?_) _ ?_
    | with_reducible refine Quiet.ite_snd_of (by with_reducible assumption) ?_ ?_
    | with_reducible refine Quiet.foldl_fst _ (fun _ _ _ => ?_) _ ?_
    | with_reducible refine Quiet.foldl_fst_of (by with_reducible assumption) (fun _ _ _ => ?_) ?_
    | with_reducible refine Quiet.foldl_snd _ (fun _ _ _ => ?_) _ ?_
    | with_reducible refine Quiet.foldl_snd_of (by with_reducible assumption) (fun _ _ _ => ?_) ?_
    | with_reducible refine Quiet.foldl_thd _ (fun _ _ _ => ?_) _ ?_
    | with_reducible refine Quiet.foldl_thd_of (by with_reducible assumption) (fun _ _ _ => ?_) ?_
    | dsimp only
    | simp only [reduceIte, Bool.false_eq_true]
    | split
    | fail_if_no_progress ((with_reducible refine Quiet.put ?_ ?_) <;> first | exact rfl | skip)

theorem kept_passChecks {a s : State} {x1} (h : Quiet a s) : Quiet a (State.passChecks s x1) := by
  unfold State.passChecks
  repeat' first
    | with_reducible refine Quiet.ite ?_ ?_
    | with_reducible refine Quiet.ite_snd ?_ ?_
    | with_reducible assumption
    | with_reducible apply kept_failCheck
    | with_reducible apply kept_suspend
    | with_reducible apply kept_modChan
    | with_reducible apply kept_timedEntry
    | with_reducible refine Quiet.foldl _ (fun _ _ _ => ?_) _ ?_
    | with_reducible refine Quiet.ite_snd_of (by with_reducible assumption) ?_ ?_
    | with_reducible refine Quiet.foldl_fst _ (fun _ _ _ => ?_) _ ?_
    | with_reducible refine Quiet.foldl_fst_of (by with_reducible assumption) (fun _ _ _ => ?_) ?_
    | with_reducible refine Quiet.foldl_snd _ (fun _ _ _ => ?_) _ ?_
    | with_reducible refine Quiet.foldl_snd_of (by with_reducible assumption) (fun _ _ _ => ?_) ?_
    | with_reducible refine Quiet.foldl_thd _ (fun _ _ _ => ?_) _ ?_
    | with_reducible refine Quiet.foldl_thd_of (by with_reducible assumption) (fun _ _ _ => ?_) ?_
    | dsimp only
    | simp only [reduceIte, Bool.false_eq_true]
    | split
    | fail_if_no_progress ((with_reducible refine Quiet.put ?_ ?_) <;> first | exact rfl | skip)

theorem kept_bracketCheck {a s : State} {x1} (h : Quiet a s) : Quiet a (State.bracketCheck s x1) := by
  unfold State.bracketCheck
  repeat' first
    | with_reducible refine Quiet.ite ?_ ?_
    | with_reducible refine Quiet.ite_snd ?_ ?_
    | with_reducible assumption
    | with_reducible apply kept_setChan
    | with_reducible apply kept_failCheck
    | with_reducible apply kept_passChecks
    | with_reducible refine Quiet.foldl _ (fun _ _ _ => ?_) _ ?_
    | with_reducible refine Quiet.ite_snd_of (by with_reducible assumption) ?_ ?_
    | with_reducible refine Quiet.foldl_fst _ (fun _ _ _ => ?_) _ ?_
    | with_reducible refine Quiet.foldl_fst_of (by with_reducible assumption) (fun _ _ _ => ?_) ?_
    | with_reducible refine Quiet.foldl_snd _ (fun _ _ _ => ?_) _ ?_
    | with_reducible refine Quiet.foldl_snd_of (by with_reducible assumption) (fun _ _ _ => ?_) ?_
    | with_reducible refine Quiet.foldl_thd _ (fun _ _ _ => ?_) _ ?_
    | with_reducible refine Quiet.foldl_thd_of (by with_reducible assumption) (fun _ _ _ => ?_) ?_
    | dsimp only
    | simp only [reduceIte, Bool.false_eq_true]
    | split
    | fail_if_no_progress ((with_reducible refine Quiet.put ?_ ?_) <;> first | exact rfl | skip)

theorem kept_makeCurrent {a s : State} {x1} {x2} (h : Quiet a s) : Quiet a (State.makeCurrent s x1 x2) := by
  unfold State.makeCurrent
  repeat' first
    | with_reducible refine Quiet.ite ?_ ?_
    | with_reducible refine Quiet.ite_snd ?_ ?_
    | with_reducible assumption
    | with_reducible apply kept_modChan
    | with_reducible apply kept_failCheck
    | with_reducible apply kept_bracketCheck
    | with_reducible apply kept_passChecks
    | with_reducible refine Quiet.foldl _ (fun _ _ _ => ?_) _ ?_
    | with_reducible refine Quiet.ite_snd_of (by with_reducible assumption) ?_ ?_
    | with_reducible refine Quiet.foldl_fst _ (fun _ _ _ => ?_) _ ?_
    | with_reducible refine Quiet.foldl_fst_of (by with_reducible assumption) (fun _ _ _ => ?_) ?_
    | with_reducible refine Quiet.foldl_snd _ (fun _ _ _ => ?_) _ ?_
    | with_reducible refine Quiet.foldl_snd_of (by with_reducible assumption) (fun _ _ _ => ?_) ?_
    | with_reducible refine Quiet.foldl_thd _ (fun _ _ _ => ?_) _ ?_
    | with_reducible refine Quiet.foldl_thd_of (by with_reducible assumption) (fun _ _ _ => ?_) ?_
    | dsimp only
    | simp only [reduceIte, Bool.false_eq_true]
    | split
    | fail_if_no_progress ((with_reducible refine Quiet.put ?_ ?_) <;> first | exact rfl | skip)

theorem kept_goCurrent {a s : State} {x1} (h : Quiet a s) : Quiet a (State.goCurrent s x1) := by
  unfold State.goCurrent
  repeat' first
    | with_reducible refine Quiet.ite ?_ ?_
    | with_reducible refine Quiet.ite_snd ?_ ?_
    | with_reducible assumption
    | with_reducible apply kept_setChan
    | with_reducible apply kept_makeCurrent
    | with_reducible apply kept_forget
    | with_reducible refine Quiet.foldl _ (fun _ _ _ => ?_) _ ?_
    | with_reducible refine Quiet.ite_snd_of (by with_reducible assumption) ?_ ?_
    | with_reducible refine Quiet.foldl_fst _ (fun _ _ _ => ?_) _ ?_
    | with_reducible refine Quiet.foldl_fst_of (by with_reducible assumption) (fun _ _ _ => ?_) ?_
    | with_reducible refine Quiet.foldl_snd _ (fun _ _ _ => ?_) _ ?_
    | with_reducible refine Quiet.foldl_snd_of (by with_reducible assumption) (fun _ _ _ => ?_) ?_
    | with_reducible refine Quiet.foldl_thd _ (fun _ _ _ => ?_) _ ?_
    | with_reducible refine Quiet.foldl_thd_of (by with_reducible assumption) (fun _ _ _ => ?_) ?_
    | dsimp only
    | simp only [reduceIte, Bool.false_eq_true]
    | split
    | fail_if_no_progress ((with_reducible refine Quiet.put ?_ ?_) <;> first | exact rfl | skip)

theorem kept_advance {a s : State} {x1} (h : Quiet a s) : Quiet a (State.advance s x1) := by
  unfold State.advance
  repeat' first
    | with_reducible refine Quiet.ite ?_ ?_
    | with_reducible refine Quiet.ite_snd ?_ ?_
    | with_reducible assumption
    | with_reducible apply kept_setChan
    | with_reducible apply kept_suspend
    | with_reducible apply kept_goCurrent
    | with_reducible apply kept_endProgram
    | with_reducible refine Quiet.foldl _ (fun _ _ _ => ?_) _ ?_
    | with_reducible refine Quiet.ite_snd_of (by with_reducible assumption) ?_ ?_
    | with_reducible refine Quiet.foldl_fst _ (fun _ _ _ => ?_) _ ?_
    | with_reducible refine Quiet.foldl_fst_of (by with_reducible assumption) (fun _ _ _ => ?_) ?_
    | with_reducible refine Quiet.foldl_snd _ (fun _ _ _ => ?_) _ ?_
    | with_reducible refine Quiet.foldl_snd_of (by with_reducible assumption) (fun _ _ _ => ?_) ?_
    | with_reducible refine Quiet.foldl_thd _ (fun _ _ _ => ?_) _ ?_
    | with_reducible refine Quiet.foldl_thd_of (by with_reducible assumption) (fun _ _ _ => ?_) ?_
    | dsimp only
    | simp only [reduceIte, Bool.false_eq_true]
    | split
    | fail_if_no_progress ((with_reducible refine Quiet.put ?_ ?_) <;> first | exact rfl | skip)

theorem kept_complete {a s : State} {x1} (h : Quiet a s) : Quiet a (State.complete s x1) := by
  unfold State.complete
  repeat' first
    | with_reducible refine Quiet.ite ?_ ?_
    | with_reducible refine Quiet.ite_snd ?_ ?_
    | with_reducible assumption
    | with_reducible apply kept_freeTimed
    | with_reducible apply kept_chanPost
    | with_reducible refine kept_chanPost_of (by with_reducible assumption) ?_
    | with_reducible apply kept_advance
    | with_reducible apply kept_holdRec
    | with_reducible refine Quiet.foldl _ (fun _ _ _ => ?_) _ ?_
    | with_reducible refine Quiet.ite_snd_of (by with_reducible assumption) ?_ ?_
    | with_reducible refine Quiet.foldl_fst _ (fun _ _ _ => ?_) _ ?_
    | with_reducible refine Quiet.foldl_fst_of (by with_reducible assumption) (fun _ _ _ => ?_) ?_
    | with_reducible refine Quiet.foldl_snd _ (fun _ _ _ => ?_) _ ?_
    | with_reducible refine Quiet.foldl_snd_of (by with_reducible assumption) (fun _ _ _ => ?_) ?_
    | with_reducible refine Quiet.foldl_thd _ (fun _ _ _ => ?_) _ ?_
    | with_reducible refine Quiet.foldl_thd_of (by with_reducible assumption) (fun _ _ _ => ?_) ?_
    | dsimp only
    | simp only [reduceIte, Bool.false_eq_true]
    | split

theorem kept_settle {a s : State} {x1} (h : Quiet a s) : Quiet a (State.settle s x1) := by
  unfold State.settle
  repeat' first
    | with_reducible refine Quiet.ite ?_ ?_
    | with_reducible refine Quiet.ite_snd ?_ ?_
    | with_reducible assumption
    | with_reducible apply kept_setChan
    | with_reducible apply kept_advance
    | with_reducible apply kept_enterEnd
    | with_reducible refine Quiet.foldl _ (fun _ _ _ => ?_) _ ?_
    | with_reducible refine Quiet.ite_snd_of (by with_reducible assumption) ?_ ?_
    | with_reducible refine Quiet.foldl_fst _ (fun _ _ _ => ?_) _ ?_
    | with_reducible refine Quiet.foldl_fst_of (by with_reducible assumption) (fun _ _ _ => ?_) ?_
    | with_reducible refine Quiet.foldl_snd _ (fun _ _ _ => ?_) _ ?_
    | with_reducible refine Quiet.foldl_snd_of (by with_reducible assumption) (fun _ _ _ => ?_) ?_
    | with_reducible refine Quiet.foldl_thd _ (fun _ _ _ => ?_) _ ?_
    | with_reducible refine Quiet.foldl_thd_of (by with_reducible assumption) (fun _ _ _ => ?_) ?_
    | dsimp only
    | simp only [reduceIte, Bool.false_eq_true]
    | split

theorem kept_unstage {a s : State} {x1} (h : Quiet a s) : Quiet a (State.unstage s x1) := by
  unfold State.unstage
  repeat' first
    | with_reducible refine Quiet.ite ?_ ?_
    | with_reducible refine Quiet.ite_snd ?_ ?_
    | with_reducible assumption
    | with_reducible apply kept_modChan
    | with_reducible apply kept_unhold

end Sys2Proof.Machine
end

