-- ==== Sys2Proof/Laws/KeptTimedOps.lean ====
section
/-! SUPPORT. What the operations of Machine/TimedOps.lean leave alone (`Kept`, `Held`). -/

namespace Sys2Proof.Machine

theorem kept_placeHeld {a s : State} {x1} (h : Quiet a s) : Quiet a (State.placeHeld s x1) := by
  unfold State.placeHeld
  repeat' first
    | with_reducible refine Quiet.ite ?_ ?_
    | with_reducible refine Quiet.ite_snd ?_ ?_
    | with_reducible assumption
    | with_reducible apply kept_modChan

theorem kept_holdDue {a s : State} {x1} (h : Quiet a s) : Quiet a (State.holdDue s x1) := by
  unfold State.holdDue
  repeat' first
    | with_reducible refine Quiet.ite ?_ ?_
    | with_reducible refine Quiet.ite_snd ?_ ?_
    | with_reducible assumption
    | with_reducible apply kept_modChan
    | with_reducible refine Quiet.foldl _ (fun _ _ _ => ?_) _ ?_
    | with_reducible refine Quiet.ite_snd_of (by with_reducible assumption) ?_ ?_
    | with_reducible refine Quiet.foldl_fst _ (fun _ _ _ => ?_) _ ?_
    | with_reducible refine Quiet.foldl_fst_of (by with_reducible assumption) (fun _ _ _ => ?_) ?_
    | with_reducible refine Quiet.foldl_snd _ (fun _ _ _ => ?_) _ ?_
    | with_reducible refine Quiet.foldl_snd_of (by with_reducible assumption) (fun _ _ _ => ?_) ?_
    | with_reducible refine Quiet.foldl_thd _ (fun _ _ _ => ?_) _ ?_
    | with_reducible refine Quiet.foldl_thd_of (by with_reducible assumption) (fun _ _ _ => ?_) ?_
    | dsimp only
    | simp only [reduceIte, Bool.false_eq_true]
    | split
    | fail_if_no_progress ((with_reducible refine Quiet.put ?_ ?_) <;> first | exact rfl | skip)

theorem kept_refine {a s : State} {x1} {x2} {x3} (h : Quiet a s) : Quiet a (State.refine s x1 x2 x3) := by
  unfold State.refine
  repeat' first
    | with_reducible refine Quiet.ite ?_ ?_
    | with_reducible refine Quiet.ite_snd ?_ ?_
    | with_reducible assumption
    | with_reducible apply kept_holdDue
    | with_reducible apply kept_setDue
    | with_reducible apply kept_placeHeld
    | with_reducible refine Quiet.foldl _ (fun _ _ _ => ?_) _ ?_
    | with_reducible refine Quiet.ite_snd_of (by with_reducible assumption) ?_ ?_
    | with_reducible refine Quiet.foldl_fst _ (fun _ _ _ => ?_) _ ?_
    | with_reducible refine Quiet.foldl_fst_of (by with_reducible assumption) (fun _ _ _ => ?_) ?_
    | with_reducible refine Quiet.foldl_snd _ (fun _ _ _ => ?_) _ ?_
    | with_reducible refine Quiet.foldl_snd_of (by with_reducible assumption) (fun _ _ _ => ?_) ?_
    | with_reducible refine Quiet.foldl_thd _ (fun _ _ _ => ?_) _ ?_
    | with_reducible refine Quiet.foldl_thd_of (by with_reducible assumption) (fun _ _ _ => ?_) ?_
    | dsimp only
    | simp only [reduceIte, Bool.false_eq_true]
    | split
    | fail_if_no_progress ((with_reducible refine Quiet.put ?_ ?_) <;> first | exact rfl | skip)

theorem kept_rePredict {a s : State} {x1} {x2} (h : Quiet a s) : Quiet a (State.rePredict s x1 x2) := by
  unfold State.rePredict
  repeat' first
    | with_reducible refine Quiet.ite ?_ ?_
    | with_reducible refine Quiet.ite_snd ?_ ?_
    | with_reducible assumption
    | with_reducible apply kept_newPrediction
    | with_reducible apply kept_unstage
    | with_reducible apply kept_setDue
    | with_reducible refine Quiet.foldl _ (fun _ _ _ => ?_) _ ?_
    | with_reducible refine Quiet.ite_snd_of (by with_reducible assumption) ?_ ?_
    | with_reducible refine Quiet.foldl_fst _ (fun _ _ _ => ?_) _ ?_
    | with_reducible refine Quiet.foldl_fst_of (by with_reducible assumption) (fun _ _ _ => ?_) ?_
    | with_reducible refine Quiet.foldl_snd _ (fun _ _ _ => ?_) _ ?_
    | with_reducible refine Quiet.foldl_snd_of (by with_reducible assumption) (fun _ _ _ => ?_) ?_
    | with_reducible refine Quiet.foldl_thd _ (fun _ _ _ => ?_) _ ?_
    | with_reducible refine Quiet.foldl_thd_of (by with_reducible assumption) (fun _ _ _ => ?_) ?_
    | dsimp only
    | simp only [reduceIte, Bool.false_eq_true]
    | split

theorem kept_timedStep {a s : State} {x1} {x2} (h : Quiet a s) : Quiet a (State.timedStep s x1 x2) := by
  unfold State.timedStep
  repeat' first
    | with_reducible refine Quiet.ite ?_ ?_
    | with_reducible refine Quiet.ite_snd ?_ ?_
    | with_reducible assumption
    | with_reducible apply kept_refine
    | with_reducible apply kept_noteOor
    | with_reducible apply kept_miss
    | with_reducible apply kept_rePredict
    | with_reducible refine Quiet.foldl _ (fun _ _ _ => ?_) _ ?_
    | with_reducible refine Quiet.ite_snd_of (by with_reducible assumption) ?_ ?_
    | with_reducible refine Quiet.foldl_fst _ (fun _ _ _ => ?_) _ ?_
    | with_reducible refine Quiet.foldl_fst_of (by with_reducible assumption) (fun _ _ _ => ?_) ?_
    | with_reducible refine Quiet.foldl_snd _ (fun _ _ _ => ?_) _ ?_
    | with_reducible refine Quiet.foldl_snd_of (by with_reducible assumption) (fun _ _ _ => ?_) ?_
    | with_reducible refine Quiet.foldl_thd _ (fun _ _ _ => ?_) _ ?_
    | with_reducible refine Quiet.foldl_thd_of (by with_reducible assumption) (fun _ _ _ => ?_) ?_
    | dsimp only
    | simp only [reduceIte, Bool.false_eq_true]
    | split

theorem kept_timedChange {a s : State} {x1} {x2} {x3} (h : Quiet a s) : Quiet a (State.timedChange s x1 x2 x3) := by
  unfold State.timedChange
  repeat' first
    | with_reducible refine Quiet.ite ?_ ?_
    | with_reducible refine Quiet.ite_snd ?_ ?_
    | with_reducible assumption
    | with_reducible apply kept_refine
    | with_reducible apply kept_holdDue
    | with_reducible apply kept_noteOor
    | with_reducible apply kept_miss
    | with_reducible apply kept_rePredict
    | with_reducible refine Quiet.foldl _ (fun _ _ _ => ?_) _ ?_
    | with_reducible refine Quiet.ite_snd_of (by with_reducible assumption) ?_ ?_
    | with_reducible refine Quiet.foldl_fst _ (fun _ _ _ => ?_) _ ?_
    | with_reducible refine Quiet.foldl_fst_of (by with_reducible assumption) (fun _ _ _ => ?_) ?_
    | with_reducible refine Quiet.foldl_snd _ (fun _ _ _ => ?_) _ ?_
    | with_reducible refine Quiet.foldl_snd_of (by with_reducible assumption) (fun _ _ _ => ?_) ?_
    | with_reducible refine Quiet.foldl_thd _ (fun _ _ _ => ?_) _ ?_
    | with_reducible refine Quiet.foldl_thd_of (by with_reducible assumption) (fun _ _ _ => ?_) ?_
    | dsimp only
    | simp only [reduceIte, Bool.false_eq_true]
    | split
    | fail_if_no_progress ((with_reducible refine Quiet.put ?_ ?_) <;> first | exact rfl | skip)

theorem kept_holdEdge {a s : State} {x1} {x2} (h : Quiet a s) : Quiet a (State.holdEdge s x1 x2) := by
  unfold State.holdEdge
  repeat' first
    | with_reducible refine Quiet.ite ?_ ?_
    | with_reducible refine Quiet.ite_snd ?_ ?_
    | with_reducible assumption
    | with_reducible apply kept_modOu
    | with_reducible apply kept_placeHeld
    | with_reducible refine Quiet.foldl _ (fun _ _ _ => ?_) _ ?_
    | with_reducible refine Quiet.ite_snd_of (by with_reducible assumption) ?_ ?_
    | with_reducible refine Quiet.foldl_fst _ (fun _ _ _ => ?_) _ ?_
    | with_reducible refine Quiet.foldl_fst_of (by with_reducible assumption) (fun _ _ _ => ?_) ?_
    | with_reducible refine Quiet.foldl_snd _ (fun _ _ _ => ?_) _ ?_
    | with_reducible refine Quiet.foldl_snd_of (by with_reducible assumption) (fun _ _ _ => ?_) ?_
    | with_reducible refine Quiet.foldl_thd _ (fun _ _ _ => ?_) _ ?_
    | with_reducible refine Quiet.foldl_thd_of (by with_reducible assumption) (fun _ _ _ => ?_) ?_
    | dsimp only
    | simp only [reduceIte, Bool.false_eq_true]
    | split
    | fail_if_no_progress ((with_reducible refine Quiet.put ?_ ?_) <;> first | exact rfl | skip)

theorem kept_edgeChange {a s : State} {x1} {x2} {x3} {x4} (h : Quiet a s) : Quiet a (State.edgeChange s x1 x2 x3 x4) := by
  unfold State.edgeChange
  repeat' first
    | with_reducible refine Quiet.ite ?_ ?_
    | with_reducible refine Quiet.ite_snd ?_ ?_
    | with_reducible assumption
    | with_reducible apply kept_holdEdge
    | with_reducible apply kept_setOu
    | with_reducible apply kept_placeHeld
    | with_reducible refine Quiet.foldl _ (fun _ _ _ => ?_) _ ?_
    | with_reducible refine Quiet.ite_snd_of (by with_reducible assumption) ?_ ?_
    | with_reducible refine Quiet.foldl_fst _ (fun _ _ _ => ?_) _ ?_
    | with_reducible refine Quiet.foldl_fst_of (by with_reducible assumption) (fun _ _ _ => ?_) ?_
    | with_reducible refine Quiet.foldl_snd _ (fun _ _ _ => ?_) _ ?_
    | with_reducible refine Quiet.foldl_snd_of (by with_reducible assumption) (fun _ _ _ => ?_) ?_
    | with_reducible refine Quiet.foldl_thd _ (fun _ _ _ => ?_) _ ?_
    | with_reducible refine Quiet.foldl_thd_of (by with_reducible assumption) (fun _ _ _ => ?_) ?_
    | dsimp only
    | simp only [reduceIte, Bool.false_eq_true]
    | split
    | fail_if_no_progress ((with_reducible refine Quiet.put ?_ ?_) <;> first | exact rfl | skip)

theorem kept_watchStep {a s : State} {x1} (h : Quiet a s) : Quiet a (State.watchStep s x1) := by
  unfold State.watchStep
  repeat' first
    | with_reducible refine Quiet.ite ?_ ?_
    | with_reducible refine Quiet.ite_snd ?_ ?_
    | with_reducible assumption
    | with_reducible apply kept_timedStep
    | with_reducible apply kept_edgeChange
    | with_reducible refine Quiet.foldl _ (fun _ _ _ => ?_) _ ?_
    | with_reducible refine Quiet.ite_snd_of (by with_reducible assumption) ?_ ?_
    | with_reducible refine Quiet.foldl_fst _ (fun _ _ _ => ?_) _ ?_
    | with_reducible refine Quiet.foldl_fst_of (by with_reducible assumption) (fun _ _ _ => ?_) ?_
    | with_reducible refine Quiet.foldl_snd _ (fun _ _ _ => ?_) _ ?_
    | with_reducible refine Quiet.foldl_snd_of (by with_reducible assumption) (fun _ _ _ => ?_) ?_
    | with_reducible refine Quiet.foldl_thd _ (fun _ _ _ => ?_) _ ?_
    | with_reducible refine Quiet.foldl_thd_of (by with_reducible assumption) (fun _ _ _ => ?_) ?_
    | dsimp only
    | simp only [reduceIte, Bool.false_eq_true]
    | split
    | fail_if_no_progress ((with_reducible refine Quiet.put ?_ ?_) <;> first | exact rfl | skip)

theorem kept_watchChange {a s : State} {x1} {x2} (h : Quiet a s) : Quiet a (State.watchChange s x1 x2) := by
  unfold State.watchChange
  repeat' first
    | with_reducible refine Quiet.ite ?_ ?_
    | with_reducible refine Quiet.ite_snd ?_ ?_
    | with_reducible assumption
    | with_reducible apply kept_timedChange
    | with_reducible apply kept_gladeNote
    | with_reducible apply kept_edgeChange
    | with_reducible refine Quiet.foldl _ (fun _ _ _ => ?_) _ ?_
    | with_reducible refine Quiet.ite_snd_of (by with_reducible assumption) ?_ ?_
    | with_reducible refine Quiet.foldl_fst _ (fun _ _ _ => ?_) _ ?_
    | with_reducible refine Quiet.foldl_fst_of (by with_reducible assumption) (fun _ _ _ => ?_) ?_
    | with_reducible refine Quiet.foldl_snd _ (fun _ _ _ => ?_) _ ?_
    | with_reducible refine Quiet.foldl_snd_of (by with_reducible assumption) (fun _ _ _ => ?_) ?_
    | with_reducible refine Quiet.foldl_thd _ (fun _ _ _ => ?_) _ ?_
    | with_reducible refine Quiet.foldl_thd_of (by with_reducible assumption) (fun _ _ _ => ?_) ?_
    | dsimp only
    | simp only [reduceIte, Bool.false_eq_true]
    | split
    | fail_if_no_progress ((with_reducible refine Quiet.put ?_ ?_) <;> first | exact rfl | skip)

end Sys2Proof.Machine
end

