-- ==== Sys2Proof/Laws/KeptCells.lean ====
section
/-! SUPPORT. What the operations of Machine/Cells.lean leave alone (`Kept`, `Held`). -/

namespace Sys2Proof.Machine

theorem kept_putCell {a s : State} {x1} {x2} (h : Kept a s) : Kept a (State.putCell s x1 x2) := by
  unfold State.putCell
  repeat' first
    | with_reducible refine Kept.ite ?_ ?_
    | with_reducible refine Kept.ite_snd ?_ ?_
    | with_reducible assumption
    | with_reducible apply kept_setCell
    | with_reducible refine Kept.foldl _ (fun _ _ _ => ?_) _ ?_
    | with_reducible refine Kept.ite_snd_of (by with_reducible assumption) ?_ ?_
    | with_reducible refine Kept.foldl_fst _ (fun _ _ _ => ?_) _ ?_
    | with_reducible refine Kept.foldl_fst_of (by with_reducible assumption) (fun _ _ _ => ?_) ?_
    | with_reducible refine Kept.foldl_snd _ (fun _ _ _ => ?_) _ ?_
    | with_reducible refine Kept.foldl_snd_of (by with_reducible assumption) (fun _ _ _ => ?_) ?_
    | with_reducible refine Kept.foldl_thd _ (fun _ _ _ => ?_) _ ?_
    | with_reducible refine Kept.foldl_thd_of (by with_reducible assumption) (fun _ _ _ => ?_) ?_
    | dsimp only
    | simp only [reduceIte, Bool.false_eq_true]
    | split
    | fail_if_no_progress ((with_reducible refine Kept.put ?_ ?_) <;> first | exact rfl | skip)

theorem kept_capRecord {a s : State} {x1} {x2} (h : Ran a s) : Ran a (State.capRecord s x1 x2) := by
  unfold State.capRecord
  repeat' first
    | with_reducible refine Ran.ite ?_ ?_
    | with_reducible refine Ran.ite_snd ?_ ?_
    | with_reducible assumption
    | with_reducible apply kept_setCap
    | with_reducible refine Ran.ofQuiet (kept_eqPost (.refl _)) ?_
    | with_reducible refine Ran.ofQuiet (kept_eqPost_of (by with_reducible assumption) (.refl _)) ?_
    | with_reducible apply kept_modCap
    | with_reducible refine Ran.foldl _ (fun _ _ _ => ?_) _ ?_
    | with_reducible refine Ran.ite_snd_of (by with_reducible assumption) ?_ ?_
    | with_reducible refine Ran.foldl_fst _ (fun _ _ _ => ?_) _ ?_
    | with_reducible refine Ran.foldl_fst_of (by with_reducible assumption) (fun _ _ _ => ?_) ?_
    | with_reducible refine Ran.foldl_snd _ (fun _ _ _ => ?_) _ ?_
    | with_reducible refine Ran.foldl_snd_of (by with_reducible assumption) (fun _ _ _ => ?_) ?_
    | with_reducible refine Ran.foldl_thd _ (fun _ _ _ => ?_) _ ?_
    | with_reducible refine Ran.foldl_thd_of (by with_reducible assumption) (fun _ _ _ => ?_) ?_
    | dsimp only
    | simp only [reduceIte, Bool.false_eq_true]
    | split

theorem kept_wakeWaiters {a s : State} {x1} (h : Quiet a s) : Quiet a (State.wakeWaiters s x1) := by
  unfold State.wakeWaiters
  repeat' first
    | with_reducible refine Quiet.ite ?_ ?_
    | with_reducible refine Quiet.ite_snd ?_ ?_
    | with_reducible assumption
    | with_reducible apply kept_modChan
    | with_reducible refine Quiet.foldl _ (fun _ _ _ => ?_) _ ?_
    | with_reducible refine Quiet.ite_snd_of (by with_reducible assumption) ?_ ?_
    | with_reducible refine Quiet.foldl_fst _ (fun _ _ _ => ?_) _ ?_
    | with_reducible refine Quiet.foldl_fst_of (by with_reducible assumption) (fun _ _ _ => ?_) ?_
    | with_reducible refine Quiet.foldl_snd _ (fun _ _ _ => ?_) _ ?_
    | with_reducible refine Quiet.foldl_snd_of (by with_reducible assumption) (fun _ _ _ => ?_) ?_
    | with_reducible refine Quiet.foldl_thd _ (fun _ _ _ => ?_) _ ?_
    | with_reducible refine Quiet.foldl_thd_of (by with_reducible assumption) (fun _ _ _ => ?_) ?_
    | dsimp only
    | simp only [reduceIte, Bool.false_eq_true]
    | split
    | fail_if_no_progress ((with_reducible refine Quiet.put ?_ ?_) <;> first | exact rfl | skip)

theorem kept_wakeUnit {a s : State} {x1} (h : Quiet a s) : Quiet a (State.wakeUnit s x1) := by
  unfold State.wakeUnit
  repeat' first
    | with_reducible refine Quiet.ite ?_ ?_
    | with_reducible refine Quiet.ite_snd ?_ ?_
    | with_reducible assumption
    | with_reducible apply kept_wakeWaiters
    | with_reducible refine Quiet.foldl _ (fun _ _ _ => ?_) _ ?_
    | with_reducible refine Quiet.ite_snd_of (by with_reducible assumption) ?_ ?_
    | with_reducible refine Quiet.foldl_fst _ (fun _ _ _ => ?_) _ ?_
    | with_reducible refine Quiet.foldl_fst_of (by with_reducible assumption) (fun _ _ _ => ?_) ?_
    | with_reducible refine Quiet.foldl_snd _ (fun _ _ _ => ?_) _ ?_
    | with_reducible refine Quiet.foldl_snd_of (by with_reducible assumption) (fun _ _ _ => ?_) ?_
    | with_reducible refine Quiet.foldl_thd _ (fun _ _ _ => ?_) _ ?_
    | with_reducible refine Quiet.foldl_thd_of (by with_reducible assumption) (fun _ _ _ => ?_) ?_
    | dsimp only
    | simp only [reduceIte, Bool.false_eq_true]
    | split
    | fail_if_no_progress ((with_reducible refine Quiet.put ?_ ?_) <;> first | exact rfl | skip)

theorem kept_wakeCmp {a s : State} {x1} (h : Quiet a s) : Quiet a (State.wakeCmp s x1) := by
  unfold State.wakeCmp
  repeat' first
    | with_reducible refine Quiet.ite ?_ ?_
    | with_reducible refine Quiet.ite_snd ?_ ?_
    | with_reducible assumption
    | with_reducible apply kept_wakeWaiters
    | with_reducible refine Quiet.foldl _ (fun _ _ _ => ?_) _ ?_
    | with_reducible refine Quiet.ite_snd_of (by with_reducible assumption) ?_ ?_
    | with_reducible refine Quiet.foldl_fst _ (fun _ _ _ => ?_) _ ?_
    | with_reducible refine Quiet.foldl_fst_of (by with_reducible assumption) (fun _ _ _ => ?_) ?_
    | with_reducible refine Quiet.foldl_snd _ (fun _ _ _ => ?_) _ ?_
    | with_reducible refine Quiet.foldl_snd_of (by with_reducible assumption) (fun _ _ _ => ?_) ?_
    | with_reducible refine Quiet.foldl_thd _ (fun _ _ _ => ?_) _ ?_
    | with_reducible refine Quiet.foldl_thd_of (by with_reducible assumption) (fun _ _ _ => ?_) ?_
    | dsimp only
    | simp only [reduceIte, Bool.false_eq_true]
    | split
    | fail_if_no_progress ((with_reducible refine Quiet.put ?_ ?_) <;> first | exact rfl | skip)

theorem kept_capAccept {a s : State} {x1} {x2} {x3} (h : Ran a s) : Ran a (State.capAccept s x1 x2 x3) := by
  unfold State.capAccept
  repeat' first
    | with_reducible refine Ran.ite ?_ ?_
    | with_reducible refine Ran.ite_snd ?_ ?_
    | with_reducible assumption
    | with_reducible apply kept_setCap
    | with_reducible refine Ran.ofQuiet (kept_wakeUnit (.refl _)) ?_
    | with_reducible refine Ran.ofQuiet (kept_cicEdge (.refl _)) ?_
    | with_reducible apply kept_capRecord

theorem kept_cmpTakeEntry {a s : State} {x1} (h : Ran a s) : Ran a (State.cmpTakeEntry s x1) := by
  unfold State.cmpTakeEntry
  repeat' first
    | with_reducible refine Ran.ite ?_ ?_
    | with_reducible refine Ran.ite_snd ?_ ?_
    | with_reducible assumption
    | with_reducible refine Ran.ofQuiet (kept_schedTake (.refl _)) ?_
    | with_reducible refine Ran.ofQuiet (kept_schedTake_of (by with_reducible assumption) (.refl _)) ?_
    | with_reducible apply kept_modCmp
    | with_reducible refine Ran.foldl _ (fun _ _ _ => ?_) _ ?_
    | with_reducible refine Ran.ite_snd_of (by with_reducible assumption) ?_ ?_
    | with_reducible refine Ran.foldl_fst _ (fun _ _ _ => ?_) _ ?_
    | with_reducible refine Ran.foldl_fst_of (by with_reducible assumption) (fun _ _ _ => ?_) ?_
    | with_reducible refine Ran.foldl_snd _ (fun _ _ _ => ?_) _ ?_
    | with_reducible refine Ran.foldl_snd_of (by with_reducible assumption) (fun _ _ _ => ?_) ?_
    | with_reducible refine Ran.foldl_thd _ (fun _ _ _ => ?_) _ ?_
    | with_reducible refine Ran.foldl_thd_of (by with_reducible assumption) (fun _ _ _ => ?_) ?_
    | dsimp only
    | simp only [reduceIte, Bool.false_eq_true]
    | split

theorem kept_cmpGiveEntry {a s : State} {x1} (h : Ran a s) : Ran a (State.cmpGiveEntry s x1) := by
  unfold State.cmpGiveEntry
  repeat' first
    | with_reducible refine Ran.ite ?_ ?_
    | with_reducible refine Ran.ite_snd ?_ ?_
    | with_reducible assumption
    | with_reducible apply kept_modCmp
    | with_reducible refine Ran.ofQuiet (kept_schedGive (.refl _)) ?_

theorem kept_cmpPredict {a s : State} {x1} (h : Ran a s) : Ran a (State.cmpPredict s x1) := by
  unfold State.cmpPredict
  repeat' first
    | with_reducible refine Ran.ite ?_ ?_
    | with_reducible refine Ran.ite_snd ?_ ?_
    | with_reducible assumption
    | with_reducible apply kept_setCmp

theorem kept_cellChange {a s : State} {x1} {x2} (h : Ran a s) : Ran a (State.cellChange s x1 x2) := by
  unfold State.cellChange
  repeat' first
    | with_reducible refine Ran.ite ?_ ?_
    | with_reducible refine Ran.ite_snd ?_ ?_
    | with_reducible assumption
    | with_reducible apply Ran.ofQuiet (kept_watchChange (Quiet.refl _))
    | with_reducible apply kept_cmpPredict
    | with_reducible refine Ran.foldl _ (fun _ _ _ => ?_) _ ?_
    | with_reducible refine Ran.ite_snd_of (by with_reducible assumption) ?_ ?_
    | with_reducible refine Ran.foldl_fst _ (fun _ _ _ => ?_) _ ?_
    | with_reducible refine Ran.foldl_fst_of (by with_reducible assumption) (fun _ _ _ => ?_) ?_
    | with_reducible refine Ran.foldl_snd _ (fun _ _ _ => ?_) _ ?_
    | with_reducible refine Ran.foldl_snd_of (by with_reducible assumption) (fun _ _ _ => ?_) ?_
    | with_reducible refine Ran.foldl_thd _ (fun _ _ _ => ?_) _ ?_
    | with_reducible refine Ran.foldl_thd_of (by with_reducible assumption) (fun _ _ _ => ?_) ?_
    | dsimp only
    | simp only [reduceIte, Bool.false_eq_true]
    | split
    | fail_if_no_progress ((with_reducible refine Ran.put ?_ ?_) <;> first | exact rfl | skip)

theorem kept_cmpOorRecord {a s : State} {x1} (h : Ran a s) : Ran a (State.cmpOorRecord s x1) := by
  unfold State.cmpOorRecord
  repeat' first
    | with_reducible refine Ran.ite ?_ ?_
    | with_reducible refine Ran.ite_snd ?_ ?_
    | with_reducible assumption
    | with_reducible apply kept_setCmp
    | with_reducible refine Ran.ofQuiet (kept_eqPost (.refl _)) ?_
    | with_reducible refine Ran.ofQuiet (kept_eqPost_of (by with_reducible assumption) (.refl _)) ?_
    | with_reducible apply kept_modCmp
    | with_reducible refine Ran.foldl _ (fun _ _ _ => ?_) _ ?_
    | with_reducible refine Ran.ite_snd_of (by with_reducible assumption) ?_ ?_
    | with_reducible refine Ran.foldl_fst _ (fun _ _ _ => ?_) _ ?_
    | with_reducible refine Ran.foldl_fst_of (by with_reducible assumption) (fun _ _ _ => ?_) ?_
    | with_reducible refine Ran.foldl_snd _ (fun _ _ _ => ?_) _ ?_
    | with_reducible refine Ran.foldl_snd_of (by with_reducible assumption) (fun _ _ _ => ?_) ?_
    | with_reducible refine Ran.foldl_thd _ (fun _ _ _ => ?_) _ ?_
    | with_reducible refine Ran.foldl_thd_of (by with_reducible assumption) (fun _ _ _ => ?_) ?_
    | dsimp only
    | simp only [reduceIte, Bool.false_eq_true]
    | split

theorem kept_cmpRangeCheck {a s : State} {x1} (h : Ran a s) : Ran a (State.cmpRangeCheck s x1) := by
  unfold State.cmpRangeCheck
  repeat' first
    | with_reducible refine Ran.ite ?_ ?_
    | with_reducible refine Ran.ite_snd ?_ ?_
    | with_reducible assumption
    | with_reducible apply kept_cmpOorRecord
    | with_reducible apply kept_setCmp

theorem kept_cmpArm {a s : State} {x1} {x2} (h : Ran a s) : Ran a (State.cmpArm s x1 x2) := by
  unfold State.cmpArm
  repeat' first
    | with_reducible refine Ran.ite ?_ ?_
    | with_reducible refine Ran.ite_snd ?_ ?_
    | with_reducible assumption
    | with_reducible apply kept_modCmp
    | with_reducible apply kept_cmpPredict
    | with_reducible apply kept_cmpOorRecord
    | with_reducible apply kept_cmpTakeEntry

theorem kept_cmpDisarm {a s : State} {x1} (h : Ran a s) : Ran a (State.cmpDisarm s x1) := by
  unfold State.cmpDisarm
  repeat' first
    | with_reducible refine Ran.ite ?_ ?_
    | with_reducible refine Ran.ite_snd ?_ ?_
    | with_reducible assumption
    | with_reducible apply kept_cmpGiveEntry
    | with_reducible apply kept_modCmp

theorem kept_cmpRecord {a s : State} {x1} {x2} {x3} (h : Ran a s) : Ran a (State.cmpRecord s x1 x2 x3) := by
  unfold State.cmpRecord
  repeat' first
    | with_reducible refine Ran.ite ?_ ?_
    | with_reducible refine Ran.ite_snd ?_ ?_
    | with_reducible assumption
    | with_reducible apply kept_setCmp
    | with_reducible refine Ran.ofQuiet (kept_eqPost (.refl _)) ?_
    | with_reducible refine Ran.ofQuiet (kept_eqPost_of (by with_reducible assumption) (.refl _)) ?_
    | with_reducible apply kept_modCmp
    | with_reducible refine Ran.foldl _ (fun _ _ _ => ?_) _ ?_
    | with_reducible refine Ran.ite_snd_of (by with_reducible assumption) ?_ ?_
    | with_reducible refine Ran.foldl_fst _ (fun _ _ _ => ?_) _ ?_
    | with_reducible refine Ran.foldl_fst_of (by with_reducible assumption) (fun _ _ _ => ?_) ?_
    | with_reducible refine Ran.foldl_snd _ (fun _ _ _ => ?_) _ ?_
    | with_reducible refine Ran.foldl_snd_of (by with_reducible assumption) (fun _ _ _ => ?_) ?_
    | with_reducible refine Ran.foldl_thd _ (fun _ _ _ => ?_) _ ?_
    | with_reducible refine Ran.foldl_thd_of (by with_reducible assumption) (fun _ _ _ => ?_) ?_
    | dsimp only
    | simp only [reduceIte, Bool.false_eq_true]
    | split

theorem kept_cmpFire {a s : State} {x1} {x2} {x3} (h : Ran a s) : Ran a (State.cmpFire s x1 x2 x3) := by
  unfold State.cmpFire
  repeat' first
    | with_reducible refine Ran.ite ?_ ?_
    | with_reducible refine Ran.ite_snd ?_ ?_
    | with_reducible assumption
    | with_reducible apply kept_setCmp
    | with_reducible apply Ran.ofQuiet (kept_wakeCmp (Quiet.refl _))
    | with_reducible apply Ran.ofQuiet (kept_cicEdge (Quiet.refl _))
    | with_reducible apply kept_cmpRecord
    | with_reducible apply kept_modCmp
    | with_reducible apply kept_cmpDisarm
    | with_reducible apply kept_cmpRangeCheck
    | with_reducible apply kept_cmpArm
    | with_reducible refine Ran.foldl _ (fun _ _ _ => ?_) _ ?_
    | with_reducible refine Ran.ite_snd_of (by with_reducible assumption) ?_ ?_
    | with_reducible refine Ran.foldl_fst _ (fun _ _ _ => ?_) _ ?_
    | with_reducible refine Ran.foldl_fst_of (by with_reducible assumption) (fun _ _ _ => ?_) ?_
    | with_reducible refine Ran.foldl_snd _ (fun _ _ _ => ?_) _ ?_
    | with_reducible refine Ran.foldl_snd_of (by with_reducible assumption) (fun _ _ _ => ?_) ?_
    | with_reducible refine Ran.foldl_thd _ (fun _ _ _ => ?_) _ ?_
    | with_reducible refine Ran.foldl_thd_of (by with_reducible assumption) (fun _ _ _ => ?_) ?_
    | dsimp only
    | simp only [reduceIte, Bool.false_eq_true]
    | split
    | fail_if_no_progress ((with_reducible refine Ran.put ?_ ?_) <;> first | exact rfl | skip)

theorem kept_cmpStep {a s : State} {x1} {x2} (h : Ran a s) : Ran a (State.cmpStep s x1 x2).1 := by
  unfold State.cmpStep
  repeat' first
    | with_reducible refine Ran.ite ?_ ?_
    | with_reducible refine Ran.ite_snd ?_ ?_
    | with_reducible assumption
    | with_reducible apply kept_cmpArm
    | with_reducible apply kept_cmpFire
    | with_reducible refine Ran.foldl _ (fun _ _ _ => ?_) _ ?_
    | with_reducible refine Ran.ite_snd_of (by with_reducible assumption) ?_ ?_
    | with_reducible refine Ran.foldl_fst _ (fun _ _ _ => ?_) _ ?_
    | with_reducible refine Ran.foldl_fst_of (by with_reducible assumption) (fun _ _ _ => ?_) ?_
    | with_reducible refine Ran.foldl_snd _ (fun _ _ _ => ?_) _ ?_
    | with_reducible refine Ran.foldl_snd_of (by with_reducible assumption) (fun _ _ _ => ?_) ?_
    | with_reducible refine Ran.foldl_thd _ (fun _ _ _ => ?_) _ ?_
    | with_reducible refine Ran.foldl_thd_of (by with_reducible assumption) (fun _ _ _ => ?_) ?_
    | dsimp only
    | simp only [reduceIte, Bool.false_eq_true]
    | split

theorem kept_cmpStep_of {a s u : State} {x1} {x2} {w0} (e : State.cmpStep s x1 x2 = (u, w0)) (h : Ran a s) : Ran a u := by
  have := kept_cmpStep (x1 := x1) (x2 := x2) h
  rw [e] at this
  exact this

theorem kept_fireUnits {a s : State} {x1} (h : Ran a s) : Ran a (State.fireUnits s x1).1 := by
  unfold State.fireUnits
  repeat' first
    | with_reducible refine Ran.ite ?_ ?_
    | with_reducible refine Ran.ite_snd ?_ ?_
    | with_reducible assumption
    | with_reducible apply kept_cmpStep
    | with_reducible refine kept_cmpStep_of (by with_reducible assumption) ?_
    | with_reducible refine Ran.foldl _ (fun _ _ _ => ?_) _ ?_
    | with_reducible refine Ran.ite_snd_of (by with_reducible assumption) ?_ ?_
    | with_reducible refine Ran.foldl_fst _ (fun _ _ _ => ?_) _ ?_
    | with_reducible refine Ran.foldl_fst_of (by with_reducible assumption) (fun _ _ _ => ?_) ?_
    | with_reducible refine Ran.foldl_snd _ (fun _ _ _ => ?_) _ ?_
    | with_reducible refine Ran.foldl_snd_of (by with_reducible assumption) (fun _ _ _ => ?_) ?_
    | with_reducible refine Ran.foldl_thd _ (fun _ _ _ => ?_) _ ?_
    | with_reducible refine Ran.foldl_thd_of (by with_reducible assumption) (fun _ _ _ => ?_) ?_
    | dsimp only
    | simp only [reduceIte, Bool.false_eq_true]
    | split

theorem kept_fireUnits_of {a s u : State} {x1} {w0} (e : State.fireUnits s x1 = (u, w0)) (h : Ran a s) : Ran a u := by
  have := kept_fireUnits (x1 := x1) h
  rw [e] at this
  exact this

theorem kept_fireCaptures {a s : State} {x1} (h : Ran a s) : Ran a (State.fireCaptures s x1) := by
  unfold State.fireCaptures
  repeat' first
    | with_reducible refine Ran.ite ?_ ?_
    | with_reducible refine Ran.ite_snd ?_ ?_
    | with_reducible assumption
    | with_reducible apply kept_capAccept
    | with_reducible refine Ran.foldl _ (fun _ _ _ => ?_) _ ?_

theorem kept_freezeAdd {a s : State} {x1} {x2} (h : Kept a s) : Kept a (State.freezeAdd s x1 x2) := by
  unfold State.freezeAdd
  repeat' first
    | with_reducible refine Kept.ite ?_ ?_
    | with_reducible refine Kept.ite_snd ?_ ?_
    | with_reducible assumption
    | with_reducible apply kept_setCell
    | with_reducible apply kept_modStart

theorem kept_stepCell {a s : State} {x1} {x2} {x3} {x4} {x5} (h : Kept a s) : Kept a (State.stepCell s x1 x2 x3 x4 x5).1 := by
  induction x1 generalizing s x2 x3 x4 x5 with
  | zero =>
   unfold State.stepCell
   repeat' first
    | with_reducible refine Kept.ite ?_ ?_
    | with_reducible refine Kept.ite_snd ?_ ?_
    | with_reducible assumption
  | succ n ih =>
   unfold State.stepCell
   repeat' first
    | with_reducible apply ih
    | with_reducible refine Kept.ite ?_ ?_
    | with_reducible refine Kept.ite_snd ?_ ?_
    | with_reducible assumption
    | with_reducible apply kept_freezeAdd
    | with_reducible apply kept_setCell
    | with_reducible refine Kept.foldl _ (fun _ _ _ => ?_) _ ?_
    | with_reducible refine Kept.ite_snd_of (by with_reducible assumption) ?_ ?_
    | with_reducible refine Kept.foldl_fst _ (fun _ _ _ => ?_) _ ?_
    | with_reducible refine Kept.foldl_fst_of (by with_reducible assumption) (fun _ _ _ => ?_) ?_
    | with_reducible refine Kept.foldl_snd _ (fun _ _ _ => ?_) _ ?_
    | with_reducible refine Kept.foldl_snd_of (by with_reducible assumption) (fun _ _ _ => ?_) ?_
    | with_reducible refine Kept.foldl_thd _ (fun _ _ _ => ?_) _ ?_
    | with_reducible refine Kept.foldl_thd_of (by with_reducible assumption) (fun _ _ _ => ?_) ?_
    | dsimp only
    | simp only [reduceIte, Bool.false_eq_true]
    | split

theorem kept_stepCell_of {a s u : State} {x1} {x2} {x3} {x4} {x5} {w0} (e : State.stepCell s x1 x2 x3 x4 x5 = (u, w0)) (h : Kept a s) : Kept a u := by
  have := kept_stepCell (x1 := x1) (x2 := x2) (x3 := x3) (x4 := x4) (x5 := x5) h
  rw [e] at this
  exact this

theorem kept_react {a s : State} {x1} (h : Ran a s) : Ran a (State.react s x1) := by
  unfold State.react
  repeat' first
    | with_reducible refine Ran.ite ?_ ?_
    | with_reducible refine Ran.ite_snd ?_ ?_
    | with_reducible assumption
    | with_reducible apply kept_fireUnits
    | with_reducible refine kept_fireUnits_of (by with_reducible assumption) ?_
    | with_reducible apply kept_fireCaptures
    | with_reducible refine Ran.ofQuiet (kept_watchStep (.refl _)) ?_
    | with_reducible apply kept_cmpPredict
    | with_reducible refine Ran.foldl _ (fun _ _ _ => ?_) _ ?_

theorem kept_sourceSteps {a s : State} {x1} {x2} {x3} (h : Kept a s) : Kept a (State.sourceSteps s x1 x2 x3) := by
  unfold State.sourceSteps
  repeat' first
    | with_reducible refine Kept.ite ?_ ?_
    | with_reducible refine Kept.ite_snd ?_ ?_
    | with_reducible assumption
    | with_reducible apply kept_stepCell
    | with_reducible refine kept_stepCell_of (by with_reducible assumption) ?_
    | with_reducible refine Kept.ofRan (kept_react (.refl _)) ?_
    | with_reducible refine Kept.foldl _ (fun _ _ _ => ?_) _ ?_
    | with_reducible refine Kept.ite_snd_of (by with_reducible assumption) ?_ ?_
    | with_reducible refine Kept.foldl_fst _ (fun _ _ _ => ?_) _ ?_

theorem kept_selfStep {a s : State} {x1} {x2} {x3} (h : Kept a s) : Kept a (State.selfStep s x1 x2 x3) := by
  unfold State.selfStep
  repeat' first
    | with_reducible refine Kept.ite ?_ ?_
    | with_reducible refine Kept.ite_snd ?_ ?_
    | with_reducible assumption
    | with_reducible apply kept_stepCell
    | with_reducible refine kept_stepCell_of (by with_reducible assumption) ?_
    | with_reducible refine Kept.ofRan (kept_react (.refl _)) ?_

theorem kept_loadCell {a s : State} {x1} {x2} {x3} (h : Kept a s) : Kept a (State.loadCell s x1 x2 x3).2 := by
  unfold State.loadCell
  repeat' first
    | with_reducible refine Kept.ite ?_ ?_
    | with_reducible refine Kept.ite_snd ?_ ?_
    | with_reducible assumption
    | with_reducible apply kept_setCell
    | with_reducible apply kept_putCell
    | with_reducible apply Kept.ofRan (kept_cellChange (Ran.refl _))
    | with_reducible refine Kept.foldl _ (fun _ _ _ => ?_) _ ?_
    | with_reducible refine Kept.ite_snd_of (by with_reducible assumption) ?_ ?_
    | with_reducible refine Kept.foldl_fst _ (fun _ _ _ => ?_) _ ?_
    | with_reducible refine Kept.foldl_fst_of (by with_reducible assumption) (fun _ _ _ => ?_) ?_
    | with_reducible refine Kept.foldl_snd _ (fun _ _ _ => ?_) _ ?_
    | with_reducible refine Kept.foldl_snd_of (by with_reducible assumption) (fun _ _ _ => ?_) ?_
    | with_reducible refine Kept.foldl_thd _ (fun _ _ _ => ?_) _ ?_
    | with_reducible refine Kept.foldl_thd_of (by with_reducible assumption) (fun _ _ _ => ?_) ?_
    | dsimp only
    | simp only [reduceIte, Bool.false_eq_true]
    | split
    | fail_if_no_progress ((with_reducible refine Kept.put ?_ ?_) <;> first | exact rfl | skip)

theorem kept_loadCell_of {a s u : State} {x1} {x2} {x3} {w0} (e : State.loadCell s x1 x2 x3 = (w0, u)) (h : Kept a s) : Kept a u := by
  have := kept_loadCell (x1 := x1) (x2 := x2) (x3 := x3) h
  rw [e] at this
  exact this

theorem kept_writeMod {a s : State} {x1} {x2} (h : Kept a s) : Kept a (State.writeMod s x1 x2) := by
  unfold State.writeMod
  repeat' first
    | with_reducible refine Kept.ite ?_ ?_
    | with_reducible refine Kept.ite_snd ?_ ?_
    | with_reducible assumption
    | with_reducible apply kept_putCell
    | with_reducible apply Kept.ofRan (kept_cellChange (Ran.refl _))
    | with_reducible apply Kept.ofRan (kept_cmpRangeCheck (Ran.refl _))
    | with_reducible refine Kept.foldl _ (fun _ _ _ => ?_) _ ?_
    | with_reducible refine Kept.ite_snd_of (by with_reducible assumption) ?_ ?_
    | with_reducible refine Kept.foldl_fst _ (fun _ _ _ => ?_) _ ?_
    | with_reducible refine Kept.foldl_fst_of (by with_reducible assumption) (fun _ _ _ => ?_) ?_
    | with_reducible refine Kept.foldl_snd _ (fun _ _ _ => ?_) _ ?_
    | with_reducible refine Kept.foldl_snd_of (by with_reducible assumption) (fun _ _ _ => ?_) ?_
    | with_reducible refine Kept.foldl_thd _ (fun _ _ _ => ?_) _ ?_
    | with_reducible refine Kept.foldl_thd_of (by with_reducible assumption) (fun _ _ _ => ?_) ?_
    | dsimp only
    | simp only [reduceIte, Bool.false_eq_true]
    | split
    | fail_if_no_progress ((with_reducible refine Kept.put ?_ ?_) <;> first | exact rfl | skip)

theorem kept_commitRate {a s : State} {x1} {x2} (h : Kept a s) : Kept a (State.commitRate s x1 x2) := by
  unfold State.commitRate
  repeat' first
    | with_reducible refine Kept.ite ?_ ?_
    | with_reducible refine Kept.ite_snd ?_ ?_
    | with_reducible assumption
    | with_reducible apply kept_putCell
    | with_reducible apply Kept.ofRan (kept_cellChange (Ran.refl _))
    | with_reducible refine Kept.foldl _ (fun _ _ _ => ?_) _ ?_
    | with_reducible refine Kept.ite_snd_of (by with_reducible assumption) ?_ ?_
    | with_reducible refine Kept.foldl_fst _ (fun _ _ _ => ?_) _ ?_
    | with_reducible refine Kept.foldl_fst_of (by with_reducible assumption) (fun _ _ _ => ?_) ?_
    | with_reducible refine Kept.foldl_snd _ (fun _ _ _ => ?_) _ ?_
    | with_reducible refine Kept.foldl_snd_of (by with_reducible assumption) (fun _ _ _ => ?_) ?_
    | with_reducible refine Kept.foldl_thd _ (fun _ _ _ => ?_) _ ?_
    | with_reducible refine Kept.foldl_thd_of (by with_reducible assumption) (fun _ _ _ => ?_) ?_
    | dsimp only
    | simp only [reduceIte, Bool.false_eq_true]
    | split
    | fail_if_no_progress ((with_reducible refine Kept.put ?_ ?_) <;> first | exact rfl | skip)

end Sys2Proof.Machine
end

