-- ==== Sys2Proof/Laws/KeptGate.lean ====
section
/-! SUPPORT. What the operations of Machine/Gate.lean leave alone (`Kept`, `Held`). -/

namespace Sys2Proof.Machine

theorem kept_modUnd {a s : State} {x1} (h : Kept a s) : Kept a (State.modUnd s x1) := by
  unfold State.modUnd
  repeat' first
    | with_reducible refine Kept.ite ?_ ?_
    | with_reducible refine Kept.ite_snd ?_ ?_
    | with_reducible assumption
    | with_reducible refine Kept.foldl _ (fun _ _ _ => ?_) _ ?_
    | with_reducible refine Kept.ite_snd_of (by with_reducible assumption) ?_ ?_
    | with_reducible refine Kept.foldl_fst _ (fun _ _ _ => ?_) _ ?_
    | with_reducible refine Kept.foldl_fst_of (by with_reducible assumption) (fun _ _ _ => ?_) ?_
    | with_reducible refine Kept.foldl_snd _ (fun _ _ _ => ?_) _ ?_
    | with_reducible refine Kept.foldl_snd_of (by with_reducible assumption) (fun _ _ _ => ?_) ?_
    | with_reducible refine Kept.foldl_thd _ (fun _ _ _ => ?_) _ ?_
    | with_reducible refine Kept.foldl_thd_of (by with_reducible assumption) (fun _ _ _ => ?_) ?_
    | dsimp only
    | simp only [reduceIte, Bool.false_eq_true]
    | split
    | fail_if_no_progress ((with_reducible refine Kept.put ?_ ?_) <;> first | exact rfl | skip)

theorem kept_wake {a s : State} {x1} {x2} (h : Kept a s) : Kept a (State.wake s x1 x2) := by
  unfold State.wake
  repeat' first
    | with_reducible refine Kept.ite ?_ ?_
    | with_reducible refine Kept.ite_snd ?_ ?_
    | with_reducible assumption
    | with_reducible apply kept_modUnd
    | with_reducible refine Kept.foldl _ (fun _ _ _ => ?_) _ ?_
    | with_reducible refine Kept.ite_snd_of (by with_reducible assumption) ?_ ?_
    | with_reducible refine Kept.foldl_fst _ (fun _ _ _ => ?_) _ ?_
    | with_reducible refine Kept.foldl_fst_of (by with_reducible assumption) (fun _ _ _ => ?_) ?_
    | with_reducible refine Kept.foldl_snd _ (fun _ _ _ => ?_) _ ?_
    | with_reducible refine Kept.foldl_snd_of (by with_reducible assumption) (fun _ _ _ => ?_) ?_
    | with_reducible refine Kept.foldl_thd _ (fun _ _ _ => ?_) _ ?_
    | with_reducible refine Kept.foldl_thd_of (by with_reducible assumption) (fun _ _ _ => ?_) ?_
    | dsimp only
    | simp only [reduceIte, Bool.false_eq_true]
    | split

theorem kept_watchEvent {a s : State} {x1} (h : Kept a s) : Kept a (State.watchEvent s x1) := by
  unfold State.watchEvent
  repeat' first
    | with_reducible refine Kept.ite ?_ ?_
    | with_reducible refine Kept.ite_snd ?_ ?_
    | with_reducible assumption
    | with_reducible apply kept_wake

theorem kept_restAccess {a s : State} (h : Kept a s) : Kept a (State.restAccess s) := by
  unfold State.restAccess
  repeat' first
    | with_reducible refine Kept.ite ?_ ?_
    | with_reducible refine Kept.ite_snd ?_ ?_
    | with_reducible assumption
    | with_reducible apply kept_watchEvent
    | with_reducible apply kept_modUnd

end Sys2Proof.Machine
end

