-- ==== Sys2Proof/Laws/KeptAxes.lean ====
section
/-! SUPPORT. What the operations of Machine/Axes.lean leave alone (`Kept`, `Held`). -/

namespace Sys2Proof.Machine

theorem kept_quadError {a s : State} {x1} (h : Kept a s) : Kept a (State.quadError s x1) := by
  unfold State.quadError
  repeat' first
    | with_reducible refine Kept.ite ?_ ?_
    | with_reducible refine Kept.ite_snd ?_ ?_
    | with_reducible assumption
    | with_reducible apply kept_modCell
    | with_reducible apply kept_watchEvent
    | with_reducible refine Kept.ofQuiet (kept_report (.refl _)) ?_
    | with_reducible apply kept_setEnc
    | with_reducible refine Kept.foldl _ (fun _ _ _ => ?_) _ ?_

theorem kept_restSteps {a s : State} {x1} {x2} {x3} (h : Kept a s) : Kept a (State.restSteps s x1 x2 x3) := by
  unfold State.restSteps
  repeat' first
    | with_reducible refine Kept.ite ?_ ?_
    | with_reducible refine Kept.ite_snd ?_ ?_
    | with_reducible assumption
    | with_reducible apply kept_setCell
    | with_reducible apply kept_watchEvent
    | with_reducible apply kept_modUnd

theorem kept_encLevels {a s : State} {x1} {x2} {x3} {x4} (h : Kept a s) : Kept a (State.encLevels s x1 x2 x3 x4) := by
  unfold State.encLevels
  repeat' first
    | with_reducible refine Kept.ite ?_ ?_
    | with_reducible refine Kept.ite_snd ?_ ?_
    | with_reducible assumption
    | with_reducible apply kept_setEnc
    | with_reducible apply kept_quadError
    | with_reducible apply kept_restSteps
    | with_reducible apply kept_sourceSteps
    | with_reducible refine Kept.foldl _ (fun _ _ _ => ?_) _ ?_
    | with_reducible refine Kept.ite_snd_of (by with_reducible assumption) ?_ ?_
    | with_reducible refine Kept.foldl_fst _ (fun _ _ _ => ?_) _ ?_
    | with_reducible refine Kept.foldl_fst_of (by with_reducible assumption) (fun _ _ _ => ?_) ?_
    | with_reducible refine Kept.foldl_snd _ (fun _ _ _ => ?_) _ ?_
    | with_reducible refine Kept.foldl_snd_of (by with_reducible assumption) (fun _ _ _ => ?_) ?_
    | with_reducible refine Kept.foldl_thd _ (fun _ _ _ => ?_) _ ?_
    | with_reducible refine Kept.foldl_thd_of (by with_reducible assumption) (fun _ _ _ => ?_) ?_
    | dsimp only
    | simp only [reduceIte, Bool.false_eq_true]
    | split
    | fail_if_no_progress ((with_reducible refine Kept.put ?_ ?_) <;> first | exact rfl | skip)

theorem kept_encFeed {a s : State} {x1} {x2} {x3} (h : Kept a s) : Kept a (State.encFeed s x1 x2 x3) := by
  unfold State.encFeed
  repeat' first
    | with_reducible refine Kept.ite ?_ ?_
    | with_reducible refine Kept.ite_snd ?_ ?_
    | with_reducible assumption
    | with_reducible apply kept_setEnc
    | with_reducible apply kept_encLevels
    | with_reducible refine Kept.foldl _ (fun _ _ _ => ?_) _ ?_
    | with_reducible refine Kept.ite_snd_of (by with_reducible assumption) ?_ ?_
    | with_reducible refine Kept.foldl_fst _ (fun _ _ _ => ?_) _ ?_
    | with_reducible refine Kept.foldl_fst_of (by with_reducible assumption) (fun _ _ _ => ?_) ?_
    | with_reducible refine Kept.foldl_snd _ (fun _ _ _ => ?_) _ ?_
    | with_reducible refine Kept.foldl_snd_of (by with_reducible assumption) (fun _ _ _ => ?_) ?_
    | with_reducible refine Kept.foldl_thd _ (fun _ _ _ => ?_) _ ?_
    | with_reducible refine Kept.foldl_thd_of (by with_reducible assumption) (fun _ _ _ => ?_) ?_
    | dsimp only
    | simp only [reduceIte, Bool.false_eq_true]
    | split
    | fail_if_no_progress ((with_reducible refine Kept.put ?_ ?_) <;> first | exact rfl | skip)

theorem kept_zLevel {a s : State} {x1} {x2} (h : Kept a s) : Kept a (State.zLevel s x1 x2) := by
  unfold State.zLevel
  repeat' first
    | with_reducible refine Kept.ite ?_ ?_
    | with_reducible refine Kept.ite_snd ?_ ?_
    | with_reducible assumption
    | with_reducible apply kept_setEnc
    | with_reducible apply kept_loadCell
    | with_reducible refine kept_loadCell_of (by with_reducible assumption) ?_
    | with_reducible refine Kept.foldl _ (fun _ _ _ => ?_) _ ?_
    | with_reducible refine Kept.ite_snd_of (by with_reducible assumption) ?_ ?_
    | with_reducible refine Kept.foldl_fst _ (fun _ _ _ => ?_) _ ?_
    | with_reducible refine Kept.foldl_fst_of (by with_reducible assumption) (fun _ _ _ => ?_) ?_
    | with_reducible refine Kept.foldl_snd _ (fun _ _ _ => ?_) _ ?_
    | with_reducible refine Kept.foldl_snd_of (by with_reducible assumption) (fun _ _ _ => ?_) ?_
    | with_reducible refine Kept.foldl_thd _ (fun _ _ _ => ?_) _ ?_
    | with_reducible refine Kept.foldl_thd_of (by with_reducible assumption) (fun _ _ _ => ?_) ?_
    | dsimp only
    | simp only [reduceIte, Bool.false_eq_true]
    | split
    | fail_if_no_progress ((with_reducible refine Kept.put ?_ ?_) <;> first | exact rfl | skip)

theorem kept_zFeed {a s : State} {x1} {x2} (h : Kept a s) : Kept a (State.zFeed s x1 x2) := by
  unfold State.zFeed
  repeat' first
    | with_reducible refine Kept.ite ?_ ?_
    | with_reducible refine Kept.ite_snd ?_ ?_
    | with_reducible assumption
    | with_reducible apply kept_zLevel
    | with_reducible apply kept_setEnc
    | with_reducible refine Kept.foldl _ (fun _ _ _ => ?_) _ ?_
    | with_reducible refine Kept.ite_snd_of (by with_reducible assumption) ?_ ?_
    | with_reducible refine Kept.foldl_fst _ (fun _ _ _ => ?_) _ ?_
    | with_reducible refine Kept.foldl_fst_of (by with_reducible assumption) (fun _ _ _ => ?_) ?_
    | with_reducible refine Kept.foldl_snd _ (fun _ _ _ => ?_) _ ?_
    | with_reducible refine Kept.foldl_snd_of (by with_reducible assumption) (fun _ _ _ => ?_) ?_
    | with_reducible refine Kept.foldl_thd _ (fun _ _ _ => ?_) _ ?_
    | with_reducible refine Kept.foldl_thd_of (by with_reducible assumption) (fun _ _ _ => ?_) ?_
    | dsimp only
    | simp only [reduceIte, Bool.false_eq_true]
    | split
    | fail_if_no_progress ((with_reducible refine Kept.put ?_ ?_) <;> first | exact rfl | skip)

theorem kept_encsSettle {a s : State} {x1} (h : Kept a s) : Kept a (State.encsSettle s x1) := by
  unfold State.encsSettle
  repeat' first
    | with_reducible refine Kept.ite ?_ ?_
    | with_reducible refine Kept.ite_snd ?_ ?_
    | with_reducible assumption
    | with_reducible apply kept_encFeed
    | with_reducible apply kept_zFeed
    | with_reducible apply kept_setEnc
    | with_reducible refine Kept.foldl _ (fun _ _ _ => ?_) _ ?_
    | with_reducible refine Kept.ite_snd_of (by with_reducible assumption) ?_ ?_
    | with_reducible refine Kept.foldl_fst _ (fun _ _ _ => ?_) _ ?_
    | with_reducible refine Kept.foldl_fst_of (by with_reducible assumption) (fun _ _ _ => ?_) ?_
    | with_reducible refine Kept.foldl_snd _ (fun _ _ _ => ?_) _ ?_
    | with_reducible refine Kept.foldl_snd_of (by with_reducible assumption) (fun _ _ _ => ?_) ?_
    | with_reducible refine Kept.foldl_thd _ (fun _ _ _ => ?_) _ ?_
    | with_reducible refine Kept.foldl_thd_of (by with_reducible assumption) (fun _ _ _ => ?_) ?_
    | dsimp only
    | simp only [reduceIte, Bool.false_eq_true]
    | split
    | fail_if_no_progress ((with_reducible refine Kept.put ?_ ?_) <;> first | exact rfl | skip)

theorem kept_encCtrl {a s : State} {x1} {x2} (h : Kept a s) : Kept a (State.encCtrl s x1 x2) := by
  unfold State.encCtrl
  repeat' first
    | with_reducible refine Kept.ite ?_ ?_
    | with_reducible refine Kept.ite_snd ?_ ?_
    | with_reducible assumption
    | with_reducible apply kept_encFeed
    | with_reducible apply kept_zFeed
    | with_reducible apply kept_setEnc
    | with_reducible refine Kept.foldl _ (fun _ _ _ => ?_) _ ?_
    | with_reducible refine Kept.ite_snd_of (by with_reducible assumption) ?_ ?_
    | with_reducible refine Kept.foldl_fst _ (fun _ _ _ => ?_) _ ?_
    | with_reducible refine Kept.foldl_fst_of (by with_reducible assumption) (fun _ _ _ => ?_) ?_
    | with_reducible refine Kept.foldl_snd _ (fun _ _ _ => ?_) _ ?_
    | with_reducible refine Kept.foldl_snd_of (by with_reducible assumption) (fun _ _ _ => ?_) ?_
    | with_reducible refine Kept.foldl_thd _ (fun _ _ _ => ?_) _ ?_
    | with_reducible refine Kept.foldl_thd_of (by with_reducible assumption) (fun _ _ _ => ?_) ?_
    | dsimp only
    | simp only [reduceIte, Bool.false_eq_true]
    | split
    | fail_if_no_progress ((with_reducible refine Kept.put ?_ ?_) <;> first | exact rfl | skip)

theorem kept_serCtrl {a s : State} {x1} {x2} (h : Kept a s) : Kept a (State.serCtrl s x1 x2) := by
  unfold State.serCtrl
  repeat' first
    | with_reducible refine Kept.ite ?_ ?_
    | with_reducible refine Kept.ite_snd ?_ ?_
    | with_reducible assumption
    | with_reducible apply kept_setSer
    | with_reducible refine Kept.foldl _ (fun _ _ _ => ?_) _ ?_
    | with_reducible refine Kept.ite_snd_of (by with_reducible assumption) ?_ ?_
    | with_reducible refine Kept.foldl_fst _ (fun _ _ _ => ?_) _ ?_
    | with_reducible refine Kept.foldl_fst_of (by with_reducible assumption) (fun _ _ _ => ?_) ?_
    | with_reducible refine Kept.foldl_snd _ (fun _ _ _ => ?_) _ ?_
    | with_reducible refine Kept.foldl_snd_of (by with_reducible assumption) (fun _ _ _ => ?_) ?_
    | with_reducible refine Kept.foldl_thd _ (fun _ _ _ => ?_) _ ?_
    | with_reducible refine Kept.foldl_thd_of (by with_reducible assumption) (fun _ _ _ => ?_) ?_
    | dsimp only
    | simp only [reduceIte, Bool.false_eq_true]
    | split
    | fail_if_no_progress ((with_reducible refine Kept.put ?_ ?_) <;> first | exact rfl | skip)

theorem kept_loseCell {a s : State} {x1} (h : Kept a s) : Kept a (State.loseCell s x1) := by
  unfold State.loseCell
  repeat' first
    | with_reducible refine Kept.ite ?_ ?_
    | with_reducible refine Kept.ite_snd ?_ ?_
    | with_reducible assumption
    | with_reducible apply kept_putCell
    | with_reducible apply Kept.ofRan (kept_cellChange (Ran.refl _))
    | with_reducible refine Kept.foldl _ (fun _ _ _ => ?_) _ ?_
    | with_reducible refine Kept.ite_snd_of (by with_reducible assumption) ?_ ?_
    | with_reducible refine Kept.foldl_fst _ (fun _ _ _ => ?_) _ ?_
    | with_reducible refine Kept.foldl_fst_of (by with_reducible assumption) (fun _ _ _ => ?_) ?_
    | with_reducible refine Kept.foldl_snd _ (fun _ _ _ => ?_) _ ?_
    | with_reducible refine Kept.foldl_snd_of (by with_reducible assumption) (fun _ _ _ => ?_) ?_
    | with_reducible refine Kept.foldl_thd _ (fun _ _ _ => ?_) _ ?_
    | with_reducible refine Kept.foldl_thd_of (by with_reducible assumption) (fun _ _ _ => ?_) ?_
    | dsimp only
    | simp only [reduceIte, Bool.false_eq_true]
    | split
    | fail_if_no_progress ((with_reducible refine Kept.put ?_ ?_) <;> first | exact rfl | skip)

theorem kept_serialBad {a s : State} {x1} {x2} {x3} (h : Kept a s) : Kept a (State.serialBad s x1 x2 x3) := by
  unfold State.serialBad
  repeat' first
    | with_reducible refine Kept.ite ?_ ?_
    | with_reducible refine Kept.ite_snd ?_ ?_
    | with_reducible assumption
    | with_reducible apply kept_setSer
    | with_reducible apply kept_modCell
    | with_reducible apply kept_loseCell
    | with_reducible apply Kept.ofQuiet (kept_report (Quiet.refl _))
    | with_reducible refine Kept.foldl _ (fun _ _ _ => ?_) _ ?_
    | with_reducible refine Kept.ite_snd_of (by with_reducible assumption) ?_ ?_
    | with_reducible refine Kept.foldl_fst _ (fun _ _ _ => ?_) _ ?_
    | with_reducible refine Kept.foldl_fst_of (by with_reducible assumption) (fun _ _ _ => ?_) ?_
    | with_reducible refine Kept.foldl_snd _ (fun _ _ _ => ?_) _ ?_
    | with_reducible refine Kept.foldl_snd_of (by with_reducible assumption) (fun _ _ _ => ?_) ?_
    | with_reducible refine Kept.foldl_thd _ (fun _ _ _ => ?_) _ ?_
    | with_reducible refine Kept.foldl_thd_of (by with_reducible assumption) (fun _ _ _ => ?_) ?_
    | dsimp only
    | simp only [reduceIte, Bool.false_eq_true]
    | split
    | fail_if_no_progress ((with_reducible refine Kept.put ?_ ?_) <;> first | exact rfl | skip)

theorem kept_reseedAt {a s : State} {x1} {x2} (h : Kept a s) : Kept a (State.reseedAt s x1 x2) := by
  unfold State.reseedAt
  repeat' first
    | with_reducible refine Kept.ite ?_ ?_
    | with_reducible refine Kept.ite_snd ?_ ?_
    | with_reducible assumption
    | with_reducible apply kept_putCell
    | with_reducible apply Kept.ofRan (kept_cellChange (Ran.refl _))
    | with_reducible refine Kept.foldl _ (fun _ _ _ => ?_) _ ?_
    | with_reducible refine Kept.ite_snd_of (by with_reducible assumption) ?_ ?_
    | with_reducible refine Kept.foldl_fst _ (fun _ _ _ => ?_) _ ?_
    | with_reducible refine Kept.foldl_fst_of (by with_reducible assumption) (fun _ _ _ => ?_) ?_
    | with_reducible refine Kept.foldl_snd _ (fun _ _ _ => ?_) _ ?_
    | with_reducible refine Kept.foldl_snd_of (by with_reducible assumption) (fun _ _ _ => ?_) ?_
    | with_reducible refine Kept.foldl_thd _ (fun _ _ _ => ?_) _ ?_
    | with_reducible refine Kept.foldl_thd_of (by with_reducible assumption) (fun _ _ _ => ?_) ?_
    | dsimp only
    | simp only [reduceIte, Bool.false_eq_true]
    | split
    | fail_if_no_progress ((with_reducible refine Kept.put ?_ ?_) <;> first | exact rfl | skip)

theorem kept_reseed {a s : State} {x1} {x2} (h : Kept a s) : Kept a (State.reseed s x1 x2) := by
  unfold State.reseed
  repeat' first
    | with_reducible refine Kept.ite ?_ ?_
    | with_reducible refine Kept.ite_snd ?_ ?_
    | with_reducible assumption
    | with_reducible apply kept_reseedAt
    | with_reducible refine Kept.foldl _ (fun _ _ _ => ?_) _ ?_
    | with_reducible refine Kept.ite_snd_of (by with_reducible assumption) ?_ ?_
    | with_reducible refine Kept.foldl_fst _ (fun _ _ _ => ?_) _ ?_
    | with_reducible refine Kept.foldl_fst_of (by with_reducible assumption) (fun _ _ _ => ?_) ?_
    | with_reducible refine Kept.foldl_snd _ (fun _ _ _ => ?_) _ ?_
    | with_reducible refine Kept.foldl_snd_of (by with_reducible assumption) (fun _ _ _ => ?_) ?_
    | with_reducible refine Kept.foldl_thd _ (fun _ _ _ => ?_) _ ?_
    | with_reducible refine Kept.foldl_thd_of (by with_reducible assumption) (fun _ _ _ => ?_) ?_
    | dsimp only
    | simp only [reduceIte, Bool.false_eq_true]
    | split
    | fail_if_no_progress ((with_reducible refine Kept.put ?_ ?_) <;> first | exact rfl | skip)

theorem kept_initAbs {a s : State} {x1} {x2} {x3} (h : Kept a s) : Kept a (State.initAbs s x1 x2 x3) := by
  unfold State.initAbs
  repeat' first
    | with_reducible refine Kept.ite ?_ ?_
    | with_reducible refine Kept.ite_snd ?_ ?_
    | with_reducible assumption
    | with_reducible apply kept_setCell
    | with_reducible apply kept_loadCell
    | with_reducible refine kept_loadCell_of (by with_reducible assumption) ?_
    | with_reducible apply kept_reseed
    | with_reducible refine Kept.foldl _ (fun _ _ _ => ?_) _ ?_
    | with_reducible refine Kept.ite_snd_of (by with_reducible assumption) ?_ ?_
    | with_reducible refine Kept.foldl_fst _ (fun _ _ _ => ?_) _ ?_
    | with_reducible refine Kept.foldl_fst_of (by with_reducible assumption) (fun _ _ _ => ?_) ?_
    | with_reducible refine Kept.foldl_snd _ (fun _ _ _ => ?_) _ ?_
    | with_reducible refine Kept.foldl_snd_of (by with_reducible assumption) (fun _ _ _ => ?_) ?_
    | with_reducible refine Kept.foldl_thd _ (fun _ _ _ => ?_) _ ?_
    | with_reducible refine Kept.foldl_thd_of (by with_reducible assumption) (fun _ _ _ => ?_) ?_
    | dsimp only
    | simp only [reduceIte, Bool.false_eq_true]
    | split
    | fail_if_no_progress ((with_reducible refine Kept.put ?_ ?_) <;> first | exact rfl | skip)

theorem kept_mainsStep {a s : State} {x1} {x2} {x3} (h : Kept a s) : Kept a (State.mainsStep s x1 x2 x3).1 := by
  unfold State.mainsStep
  repeat' first
    | with_reducible refine Kept.ite ?_ ?_
    | with_reducible refine Kept.ite_snd ?_ ?_
    | with_reducible assumption
    | with_reducible apply kept_setCell
    | with_reducible apply kept_stepCell

theorem kept_mainsStep_of {a s u : State} {x1} {x2} {x3} {w0} (e : State.mainsStep s x1 x2 x3 = (u, w0)) (h : Kept a s) : Kept a u := by
  have := kept_mainsStep (x1 := x1) (x2 := x2) (x3 := x3) h
  rw [e] at this
  exact this

theorem kept_mainsCross {a s : State} {x1} {x2} (h : Kept a s) : Kept a (State.mainsCross s x1 x2) := by
  unfold State.mainsCross
  repeat' first
    | with_reducible refine Kept.ite ?_ ?_
    | with_reducible refine Kept.ite_snd ?_ ?_
    | with_reducible assumption
    | with_reducible apply kept_setMainsIn
    | with_reducible apply Kept.ofQuiet (kept_report (Quiet.refl _))
    | with_reducible apply kept_watchEvent
    | with_reducible apply kept_setCell
    | with_reducible apply kept_restSteps
    | with_reducible apply kept_mainsStep
    | with_reducible refine kept_mainsStep_of (by with_reducible assumption) ?_
    | with_reducible apply Kept.ofRan (kept_react (Ran.refl _))
    | with_reducible refine Kept.foldl _ (fun _ _ _ => ?_) _ ?_
    | with_reducible refine Kept.ite_snd_of (by with_reducible assumption) ?_ ?_
    | with_reducible refine Kept.foldl_fst _ (fun _ _ _ => ?_) _ ?_
    | with_reducible refine Kept.foldl_fst_of (by with_reducible assumption) (fun _ _ _ => ?_) ?_
    | with_reducible refine Kept.foldl_snd _ (fun _ _ _ => ?_) _ ?_
    | with_reducible refine Kept.foldl_snd_of (by with_reducible assumption) (fun _ _ _ => ?_) ?_
    | with_reducible refine Kept.foldl_thd _ (fun _ _ _ => ?_) _ ?_
    | with_reducible refine Kept.foldl_thd_of (by with_reducible assumption) (fun _ _ _ => ?_) ?_
    | dsimp only
    | simp only [reduceIte, Bool.false_eq_true]
    | split
    | fail_if_no_progress ((with_reducible refine Kept.put ?_ ?_) <;> first | exact rfl | skip)

theorem kept_mainsQual {a s : State} {x1} {x2} (h : Kept a s) : Kept a (State.mainsQual s x1 x2) := by
  unfold State.mainsQual
  repeat' first
    | with_reducible refine Kept.ite ?_ ?_
    | with_reducible refine Kept.ite_snd ?_ ?_
    | with_reducible assumption
    | with_reducible apply kept_setMainsIn
    | with_reducible apply kept_mainsCross
    | with_reducible refine Kept.foldl _ (fun _ _ _ => ?_) _ ?_
    | with_reducible refine Kept.ite_snd_of (by with_reducible assumption) ?_ ?_
    | with_reducible refine Kept.foldl_fst _ (fun _ _ _ => ?_) _ ?_
    | with_reducible refine Kept.foldl_fst_of (by with_reducible assumption) (fun _ _ _ => ?_) ?_
    | with_reducible refine Kept.foldl_snd _ (fun _ _ _ => ?_) _ ?_
    | with_reducible refine Kept.foldl_snd_of (by with_reducible assumption) (fun _ _ _ => ?_) ?_
    | with_reducible refine Kept.foldl_thd _ (fun _ _ _ => ?_) _ ?_
    | with_reducible refine Kept.foldl_thd_of (by with_reducible assumption) (fun _ _ _ => ?_) ?_
    | dsimp only
    | simp only [reduceIte, Bool.false_eq_true]
    | split
    | fail_if_no_progress ((with_reducible refine Kept.put ?_ ?_) <;> first | exact rfl | skip)

theorem kept_mainsEdge {a s : State} {x1} {x2} {x3} (h : Kept a s) : Kept a (State.mainsEdge s x1 x2 x3) := by
  unfold State.mainsEdge
  repeat' first
    | with_reducible refine Kept.ite ?_ ?_
    | with_reducible refine Kept.ite_snd ?_ ?_
    | with_reducible assumption
    | with_reducible apply kept_mainsQual
    | with_reducible apply kept_setMainsIn
    | with_reducible refine Kept.foldl _ (fun _ _ _ => ?_) _ ?_
    | with_reducible refine Kept.ite_snd_of (by with_reducible assumption) ?_ ?_
    | with_reducible refine Kept.foldl_fst _ (fun _ _ _ => ?_) _ ?_
    | with_reducible refine Kept.foldl_fst_of (by with_reducible assumption) (fun _ _ _ => ?_) ?_
    | with_reducible refine Kept.foldl_snd _ (fun _ _ _ => ?_) _ ?_
    | with_reducible refine Kept.foldl_snd_of (by with_reducible assumption) (fun _ _ _ => ?_) ?_
    | with_reducible refine Kept.foldl_thd _ (fun _ _ _ => ?_) _ ?_
    | with_reducible refine Kept.foldl_thd_of (by with_reducible assumption) (fun _ _ _ => ?_) ?_
    | dsimp only
    | simp only [reduceIte, Bool.false_eq_true]
    | split
    | fail_if_no_progress ((with_reducible refine Kept.put ?_ ?_) <;> first | exact rfl | skip)

theorem kept_cellCtrl {a s : State} {x1} {x2} (h : Kept a s) : Kept a (State.cellCtrl s x1 x2) := by
  unfold State.cellCtrl
  repeat' first
    | with_reducible refine Kept.ite ?_ ?_
    | with_reducible refine Kept.ite_snd ?_ ?_
    | with_reducible assumption
    | with_reducible apply kept_initAbs
    | with_reducible apply kept_setCell
    | with_reducible apply kept_putCell
    | with_reducible apply Kept.ofRan (kept_cellChange (Ran.refl _))
    | with_reducible refine Kept.foldl _ (fun _ _ _ => ?_) _ ?_
    | with_reducible refine Kept.ite_snd_of (by with_reducible assumption) ?_ ?_
    | with_reducible refine Kept.foldl_fst _ (fun _ _ _ => ?_) _ ?_
    | with_reducible refine Kept.foldl_fst_of (by with_reducible assumption) (fun _ _ _ => ?_) ?_
    | with_reducible refine Kept.foldl_snd _ (fun _ _ _ => ?_) _ ?_
    | with_reducible refine Kept.foldl_snd_of (by with_reducible assumption) (fun _ _ _ => ?_) ?_
    | with_reducible refine Kept.foldl_thd _ (fun _ _ _ => ?_) _ ?_
    | with_reducible refine Kept.foldl_thd_of (by with_reducible assumption) (fun _ _ _ => ?_) ?_
    | dsimp only
    | simp only [reduceIte, Bool.false_eq_true]
    | split
    | fail_if_no_progress ((with_reducible refine Kept.put ?_ ?_) <;> first | exact rfl | skip)

theorem kept_loadGo {a s : State} {x1} {x2} (h : Kept a s) : Kept a (State.loadGo s x1 x2) := by
  unfold State.loadGo
  repeat' first
    | with_reducible refine Kept.ite ?_ ?_
    | with_reducible refine Kept.ite_snd ?_ ?_
    | with_reducible assumption
    | with_reducible apply kept_loadCell

theorem kept_synHi {a s : State} {x1} {x2} (h : Kept a s) : Kept a (State.synHi s x1 x2) := by
  unfold State.synHi
  repeat' first
    | with_reducible refine Kept.ite ?_ ?_
    | with_reducible refine Kept.ite_snd ?_ ?_
    | with_reducible assumption
    | with_reducible apply kept_modCell
    | with_reducible apply kept_commitRate

theorem kept_mirrorHi {a s : State} {x1} {x2} (h : Kept a s) : Kept a (State.mirrorHi s x1 x2) := by
  unfold State.mirrorHi
  repeat' first
    | with_reducible refine Kept.ite ?_ ?_
    | with_reducible refine Kept.ite_snd ?_ ?_
    | with_reducible assumption
    | with_reducible apply kept_modCell

theorem kept_readPosFt {a s : State} {x1} {x2} (h : Kept a s) : Kept a (State.readPosFt s x1 x2).2 := by
  unfold State.readPosFt
  repeat' first
    | with_reducible refine Kept.ite ?_ ?_
    | with_reducible refine Kept.ite_snd ?_ ?_
    | with_reducible assumption
    | with_reducible apply kept_latchAll

theorem kept_readPosFt_of {a s u : State} {x1} {x2} {w0} (e : State.readPosFt s x1 x2 = (w0, u)) (h : Kept a s) : Kept a u := by
  have := kept_readPosFt (x1 := x1) (x2 := x2) h
  rw [e] at this
  exact this

end Sys2Proof.Machine
end

