-- ==== Sys2Proof/Laws/KeptOutputs.lean ====
section
/-! SUPPORT. What the operations of Machine/Outputs.lean leave alone (`Kept`, `Held`). -/

namespace Sys2Proof.Machine

theorem kept_openWindow {a s : State} {x1} (h : Quiet a s) : Quiet a (State.openWindow s x1) := by
  unfold State.openWindow
  repeat' first
    | with_reducible refine Quiet.ite ?_ ?_
    | with_reducible refine Quiet.ite_snd ?_ ?_
    | with_reducible assumption
    | with_reducible apply kept_setPin
    | with_reducible refine Quiet.foldl _ (fun _ _ _ => ?_) _ ?_
    | with_reducible refine Quiet.ite_snd_of (by with_reducible assumption) ?_ ?_
    | with_reducible refine Quiet.foldl_fst _ (fun _ _ _ => ?_) _ ?_
    | with_reducible refine Quiet.foldl_fst_of (by with_reducible assumption) (fun _ _ _ => ?_) ?_
    | with_reducible refine Quiet.foldl_snd _ (fun _ _ _ => ?_) _ ?_
    | with_reducible refine Quiet.foldl_snd_of (by with_reducible assumption) (fun _ _ _ => ?_) ?_
    | with_reducible refine Quiet.foldl_thd _ (fun _ _ _ => ?_) _ ?_
    | with_reducible refine Quiet.foldl_thd_of (by with_reducible assumption) (fun _ _ _ => ?_) ?_
    | dsimp only
    | simp only [reduceIte, Bool.false_eq_true]
    | split
    | fail_if_no_progress ((with_reducible refine Quiet.put ?_ ?_) <;> first | exact rfl | skip)

theorem kept_clamp {a s : State} {x1} {x2} {x3} (h : Quiet a s) : Quiet a (State.clamp s x1 x2 x3) := by
  unfold State.clamp
  repeat' first
    | with_reducible refine Quiet.ite ?_ ?_
    | with_reducible refine Quiet.ite_snd ?_ ?_
    | with_reducible assumption
    | with_reducible apply kept_setOu
    | with_reducible apply kept_modChan
    | with_reducible apply kept_report
    | with_reducible refine Quiet.foldl _ (fun _ _ _ => ?_) _ ?_
    | with_reducible refine Quiet.ite_snd_of (by with_reducible assumption) ?_ ?_
    | with_reducible refine Quiet.foldl_fst _ (fun _ _ _ => ?_) _ ?_
    | with_reducible refine Quiet.foldl_fst_of (by with_reducible assumption) (fun _ _ _ => ?_) ?_
    | with_reducible refine Quiet.foldl_snd _ (fun _ _ _ => ?_) _ ?_
    | with_reducible refine Quiet.foldl_snd_of (by with_reducible assumption) (fun _ _ _ => ?_) ?_
    | with_reducible refine Quiet.foldl_thd _ (fun _ _ _ => ?_) _ ?_
    | with_reducible refine Quiet.foldl_thd_of (by with_reducible assumption) (fun _ _ _ => ?_) ?_
    | dsimp only
    | simp only [reduceIte, Bool.false_eq_true]
    | split

theorem kept_forceRest {a s : State} {x1} {x2} {x3} (h : Quiet a s) : Quiet a (State.forceRest s x1 x2 x3) := by
  unfold State.forceRest
  repeat' first
    | with_reducible refine Quiet.ite ?_ ?_
    | with_reducible refine Quiet.ite_snd ?_ ?_
    | with_reducible assumption
    | with_reducible apply kept_setPin
    | with_reducible apply kept_setOu
    | with_reducible apply kept_clamp

theorem kept_placeEdge {a s : State} {x1} {x2} {x3} (h : Quiet a s) : Quiet a (State.placeEdge s x1 x2 x3) := by
  unfold State.placeEdge
  repeat' first
    | with_reducible refine Quiet.ite ?_ ?_
    | with_reducible refine Quiet.ite_snd ?_ ?_
    | with_reducible assumption
    | with_reducible apply kept_setOu
    | with_reducible apply kept_openWindow
    | with_reducible apply kept_clamp
    | with_reducible apply kept_setPin
    | with_reducible apply kept_modOu
    | with_reducible refine Quiet.foldl _ (fun _ _ _ => ?_) _ ?_
    | with_reducible refine Quiet.ite_snd_of (by with_reducible assumption) ?_ ?_
    | with_reducible refine Quiet.foldl_fst _ (fun _ _ _ => ?_) _ ?_
    | with_reducible refine Quiet.foldl_fst_of (by with_reducible assumption) (fun _ _ _ => ?_) ?_
    | with_reducible refine Quiet.foldl_snd _ (fun _ _ _ => ?_) _ ?_
    | with_reducible refine Quiet.foldl_snd_of (by with_reducible assumption) (fun _ _ _ => ?_) ?_
    | with_reducible refine Quiet.foldl_thd _ (fun _ _ _ => ?_) _ ?_
    | with_reducible refine Quiet.foldl_thd_of (by with_reducible assumption) (fun _ _ _ => ?_) ?_
    | dsimp only
    | simp only [reduceIte, Bool.false_eq_true]
    | split

theorem kept_safeRest {a s : State} {x1} (h : Quiet a s) : Quiet a (State.safeRest s x1) := by
  unfold State.safeRest
  repeat' first
    | with_reducible refine Quiet.ite ?_ ?_
    | with_reducible refine Quiet.ite_snd ?_ ?_
    | with_reducible assumption
    | with_reducible apply kept_forceRest
    | with_reducible apply kept_setPin
    | with_reducible refine Quiet.foldl _ (fun _ _ _ => ?_) _ ?_

theorem kept_permitAccept {a s : State} {x1} {x2} {x3} {x4} (h : Quiet a s) : Quiet a (State.permitAccept s x1 x2 x3 x4) := by
  unfold State.permitAccept
  repeat' first
    | with_reducible refine Quiet.ite ?_ ?_
    | with_reducible refine Quiet.ite_snd ?_ ?_
    | with_reducible assumption
    | with_reducible apply kept_setPermitIn
    | with_reducible apply kept_forceRest
    | with_reducible apply kept_report
    | with_reducible refine Quiet.foldl _ (fun _ _ _ => ?_) _ ?_

theorem kept_stampPins {a s : State} {x1} {x2} (h : Quiet a s) : Quiet a (State.stampPins s x1 x2) := by
  unfold State.stampPins
  repeat' first
    | with_reducible refine Quiet.ite ?_ ?_
    | with_reducible refine Quiet.ite_snd ?_ ?_
    | with_reducible assumption
    | with_reducible apply kept_modOu
    | with_reducible refine Quiet.foldl _ (fun _ _ _ => ?_) _ ?_
    | with_reducible refine Quiet.ite_snd_of (by with_reducible assumption) ?_ ?_
    | with_reducible refine Quiet.foldl_fst _ (fun _ _ _ => ?_) _ ?_
    | with_reducible refine Quiet.foldl_fst_of (by with_reducible assumption) (fun _ _ _ => ?_) ?_
    | with_reducible refine Quiet.foldl_snd _ (fun _ _ _ => ?_) _ ?_
    | with_reducible refine Quiet.foldl_snd_of (by with_reducible assumption) (fun _ _ _ => ?_) ?_
    | with_reducible refine Quiet.foldl_thd _ (fun _ _ _ => ?_) _ ?_
    | with_reducible refine Quiet.foldl_thd_of (by with_reducible assumption) (fun _ _ _ => ?_) ?_
    | dsimp only
    | simp only [reduceIte, Bool.false_eq_true]
    | split
    | fail_if_no_progress ((with_reducible refine Quiet.put ?_ ?_) <;> first | exact rfl | skip)

theorem held_applyFence {a s : State} {x1} {x2} (h : Held a s) : Held a (State.applyFence s x1 x2) := by
  unfold State.applyFence
  repeat' first
    | with_reducible refine Held.ite ?_ ?_
    | with_reducible refine Held.ite_snd ?_ ?_
    | with_reducible assumption
    | with_reducible apply Held.ofQuiet (kept_forceRest (Quiet.refl _))
    | with_reducible apply Held.ofQuiet (kept_setPin (Quiet.refl _))
    | with_reducible apply Held.ofQuiet (kept_permitAccept (Quiet.refl _))
    | with_reducible apply Held.ofQuiet (kept_setPermitIn (Quiet.refl _))
    | with_reducible apply Held.ofQuiet (kept_stampPins (Quiet.refl _))
    | with_reducible refine Held.foldl _ (fun _ _ _ => ?_) _ ?_
    | with_reducible refine Held.ite_snd_of (by with_reducible assumption) ?_ ?_
    | with_reducible refine Held.foldl_fst _ (fun _ _ _ => ?_) _ ?_
    | with_reducible refine Held.foldl_fst_of (by with_reducible assumption) (fun _ _ _ => ?_) ?_
    | with_reducible refine Held.foldl_snd _ (fun _ _ _ => ?_) _ ?_
    | with_reducible refine Held.foldl_snd_of (by with_reducible assumption) (fun _ _ _ => ?_) ?_
    | with_reducible refine Held.foldl_thd _ (fun _ _ _ => ?_) _ ?_
    | with_reducible refine Held.foldl_thd_of (by with_reducible assumption) (fun _ _ _ => ?_) ?_
    | dsimp only
    | simp only [reduceIte, Bool.false_eq_true]
    | split
    | fail_if_no_progress ((with_reducible refine Held.put ?_ ?_) <;> first | exact rfl | skip)

end Sys2Proof.Machine
end

