-- ==== Sys2Proof/Laws/KeptCompare.lean ====
section
/-! SUPPORT. What the operations of Machine/Compare.lean leave alone (`Kept`, `Held`). -/

namespace Sys2Proof.Machine

theorem kept_cmpCtrl {a s : State} {x1} {x2} (h : Ran a s) : Ran a (State.cmpCtrl s x1 x2) := by
  unfold State.cmpCtrl
  repeat' first
    | with_reducible refine Ran.ite ?_ ?_
    | with_reducible refine Ran.ite_snd ?_ ?_
    | with_reducible assumption
    | with_reducible apply kept_setCmp
    | with_reducible apply kept_modCmp
    | with_reducible apply kept_cmpArm
    | with_reducible apply kept_cmpDisarm
    | with_reducible apply kept_cmpPredict
    | with_reducible apply kept_cmpOorRecord

theorem kept_cmpValue {a s : State} {x1} {x2} {x3} (h : Ran a s) : Ran a (State.cmpValue s x1 x2 x3) := by
  unfold State.cmpValue
  repeat' first
    | with_reducible refine Ran.ite ?_ ?_
    | with_reducible refine Ran.ite_snd ?_ ?_
    | with_reducible assumption
    | with_reducible apply kept_setCmp
    | with_reducible apply kept_cmpArm
    | with_reducible apply kept_cmpRangeCheck

theorem kept_readCmpFt {a s : State} {x1} {x2} (h : Kept a s) : Kept a (State.readCmpFt s x1 x2).2 := by
  unfold State.readCmpFt
  repeat' first
    | with_reducible refine Kept.ite ?_ ?_
    | with_reducible refine Kept.ite_snd ?_ ?_
    | with_reducible assumption
    | with_reducible apply kept_latchAll

theorem kept_readCmpFt_of {a s u : State} {x1} {x2} {w0} (e : State.readCmpFt s x1 x2 = (w0, u)) (h : Kept a s) : Kept a u := by
  have := kept_readCmpFt (x1 := x1) (x2 := x2) h
  rw [e] at this
  exact this

theorem kept_cmpImage {a s : State} {x1} {x2} {x3} {x4} {x5} (h : Ran a s) : Ran a (State.cmpImage s x1 x2 x3 x4 x5).2 := by
  unfold State.cmpImage
  repeat' first
    | with_reducible refine Ran.ite ?_ ?_
    | with_reducible refine Ran.ite_snd ?_ ?_
    | with_reducible assumption
    | with_reducible apply kept_modCmp
    | with_reducible apply kept_cmpValue
    | with_reducible apply kept_cmpCtrl

theorem kept_cmpImage_of {a s u : State} {x1} {x2} {x3} {x4} {x5} {w0} (e : State.cmpImage s x1 x2 x3 x4 x5 = (w0, u)) (h : Ran a s) : Ran a u := by
  have := kept_cmpImage (x1 := x1) (x2 := x2) (x3 := x3) (x4 := x4) (x5 := x5) h
  rw [e] at this
  exact this

theorem kept_capCtrl {a s : State} {x1} {x2} (h : Ran a s) : Ran a (State.capCtrl s x1 x2) := by
  unfold State.capCtrl
  repeat' first
    | with_reducible refine Ran.ite ?_ ?_
    | with_reducible refine Ran.ite_snd ?_ ?_
    | with_reducible assumption
    | with_reducible apply kept_setCap

theorem kept_capLevel {a s : State} {x1} {x2} {x3} (h : Ran a s) : Ran a (State.capLevel s x1 x2 x3) := by
  unfold State.capLevel
  repeat' first
    | with_reducible refine Ran.ite ?_ ?_
    | with_reducible refine Ran.ite_snd ?_ ?_
    | with_reducible assumption
    | with_reducible apply kept_setCap
    | with_reducible apply kept_capAccept
    | with_reducible refine Ran.foldl _ (fun _ _ _ => ?_) _ ?_
    | with_reducible refine Ran.ite_snd_of (by with_reducible assumption) ?_ ?_
    | with_reducible refine Ran.foldl_fst _ (fun _ _ _ => ?_) _ ?_
    | with_reducible refine Ran.foldl_fst_of (by with_reducible assumption) (fun _ _ _ => ?_) ?_
    | with_reducible refine Ran.foldl_snd _ (fun _ _ _ => ?_) _ ?_
    | with_reducible refine Ran.foldl_snd_of (by with_reducible assumption) (fun _ _ _ => ?_) ?_
    | with_reducible refine Ran.foldl_thd _ (fun _ _ _ => ?_) _ ?_
    | with_reducible refine Ran.foldl_thd_of (by with_reducible assumption) (fun _ _ _ => ?_) ?_
    | dsimp only
    | simp only [reduceIte, Bool.false_eq_true]
    | split
    | fail_if_no_progress ((with_reducible refine Ran.put ?_ ?_) <;> first | exact rfl | skip)

theorem kept_capFeed {a s : State} {x1} {x2} (h : Ran a s) : Ran a (State.capFeed s x1 x2) := by
  unfold State.capFeed
  repeat' first
    | with_reducible refine Ran.ite ?_ ?_
    | with_reducible refine Ran.ite_snd ?_ ?_
    | with_reducible assumption
    | with_reducible apply kept_capLevel
    | with_reducible apply kept_setCap
    | with_reducible refine Ran.foldl _ (fun _ _ _ => ?_) _ ?_
    | with_reducible refine Ran.ite_snd_of (by with_reducible assumption) ?_ ?_
    | with_reducible refine Ran.foldl_fst _ (fun _ _ _ => ?_) _ ?_
    | with_reducible refine Ran.foldl_fst_of (by with_reducible assumption) (fun _ _ _ => ?_) ?_
    | with_reducible refine Ran.foldl_snd _ (fun _ _ _ => ?_) _ ?_
    | with_reducible refine Ran.foldl_snd_of (by with_reducible assumption) (fun _ _ _ => ?_) ?_
    | with_reducible refine Ran.foldl_thd _ (fun _ _ _ => ?_) _ ?_
    | with_reducible refine Ran.foldl_thd_of (by with_reducible assumption) (fun _ _ _ => ?_) ?_
    | dsimp only
    | simp only [reduceIte, Bool.false_eq_true]
    | split
    | fail_if_no_progress ((with_reducible refine Ran.put ?_ ?_) <;> first | exact rfl | skip)

theorem kept_capFilt {a s : State} {x1} {x2} (h : Ran a s) : Ran a (State.capFilt s x1 x2) := by
  unfold State.capFilt
  repeat' first
    | with_reducible refine Ran.ite ?_ ?_
    | with_reducible refine Ran.ite_snd ?_ ?_
    | with_reducible assumption
    | with_reducible apply kept_capFeed
    | with_reducible apply kept_modCap
    | with_reducible refine Ran.foldl _ (fun _ _ _ => ?_) _ ?_
    | with_reducible refine Ran.ite_snd_of (by with_reducible assumption) ?_ ?_
    | with_reducible refine Ran.foldl_fst _ (fun _ _ _ => ?_) _ ?_
    | with_reducible refine Ran.foldl_fst_of (by with_reducible assumption) (fun _ _ _ => ?_) ?_
    | with_reducible refine Ran.foldl_snd _ (fun _ _ _ => ?_) _ ?_
    | with_reducible refine Ran.foldl_snd_of (by with_reducible assumption) (fun _ _ _ => ?_) ?_
    | with_reducible refine Ran.foldl_thd _ (fun _ _ _ => ?_) _ ?_
    | with_reducible refine Ran.foldl_thd_of (by with_reducible assumption) (fun _ _ _ => ?_) ?_
    | dsimp only
    | simp only [reduceIte, Bool.false_eq_true]
    | split
    | fail_if_no_progress ((with_reducible refine Ran.put ?_ ?_) <;> first | exact rfl | skip)

theorem kept_capImage {a s : State} {x1} {x2} {x3} {x4} {x5} (h : Ran a s) : Ran a (State.capImage s x1 x2 x3 x4 x5).2 := by
  unfold State.capImage
  repeat' first
    | with_reducible refine Ran.ite ?_ ?_
    | with_reducible refine Ran.ite_snd ?_ ?_
    | with_reducible assumption
    | with_reducible apply kept_capFilt
    | with_reducible apply kept_modCap
    | with_reducible apply kept_capCtrl
    | with_reducible refine Ran.foldl _ (fun _ _ _ => ?_) _ ?_
    | with_reducible refine Ran.ite_snd_of (by with_reducible assumption) ?_ ?_
    | with_reducible refine Ran.foldl_fst _ (fun _ _ _ => ?_) _ ?_
    | with_reducible refine Ran.foldl_fst_of (by with_reducible assumption) (fun _ _ _ => ?_) ?_
    | with_reducible refine Ran.foldl_snd _ (fun _ _ _ => ?_) _ ?_
    | with_reducible refine Ran.foldl_snd_of (by with_reducible assumption) (fun _ _ _ => ?_) ?_
    | with_reducible refine Ran.foldl_thd _ (fun _ _ _ => ?_) _ ?_
    | with_reducible refine Ran.foldl_thd_of (by with_reducible assumption) (fun _ _ _ => ?_) ?_
    | dsimp only
    | simp only [reduceIte, Bool.false_eq_true]
    | split
    | fail_if_no_progress ((with_reducible refine Ran.put ?_ ?_) <;> first | exact rfl | skip)

theorem kept_capImage_of {a s u : State} {x1} {x2} {x3} {x4} {x5} {w0} (e : State.capImage s x1 x2 x3 x4 x5 = (w0, u)) (h : Ran a s) : Ran a u := by
  have := kept_capImage (x1 := x1) (x2 := x2) (x3 := x3) (x4 := x4) (x5 := x5) h
  rw [e] at this
  exact this

theorem kept_padLevel {a s : State} {x1} {x2} (h : Quiet a s) : Quiet a (State.padLevel s x1 x2) := by
  unfold State.padLevel
  repeat' first
    | with_reducible refine Quiet.ite ?_ ?_
    | with_reducible refine Quiet.ite_snd ?_ ?_
    | with_reducible assumption
    | with_reducible apply kept_setPin
    | with_reducible apply kept_modOu
    | with_reducible refine Quiet.foldl _ (fun _ _ _ => ?_) _ ?_
    | with_reducible refine Quiet.ite_snd_of (by with_reducible assumption) ?_ ?_
    | with_reducible refine Quiet.foldl_fst _ (fun _ _ _ => ?_) _ ?_
    | with_reducible refine Quiet.foldl_fst_of (by with_reducible assumption) (fun _ _ _ => ?_) ?_
    | with_reducible refine Quiet.foldl_snd _ (fun _ _ _ => ?_) _ ?_
    | with_reducible refine Quiet.foldl_snd_of (by with_reducible assumption) (fun _ _ _ => ?_) ?_
    | with_reducible refine Quiet.foldl_thd _ (fun _ _ _ => ?_) _ ?_
    | with_reducible refine Quiet.foldl_thd_of (by with_reducible assumption) (fun _ _ _ => ?_) ?_
    | dsimp only
    | simp only [reduceIte, Bool.false_eq_true]
    | split
    | fail_if_no_progress ((with_reducible refine Quiet.put ?_ ?_) <;> first | exact rfl | skip)

theorem kept_readCapPop {a s : State} {x1} {x2} (h : Kept a s) : Kept a (State.readCapPop s x1 x2).2 := by
  unfold State.readCapPop
  repeat' first
    | with_reducible refine Kept.ite ?_ ?_
    | with_reducible refine Kept.ite_snd ?_ ?_
    | with_reducible assumption
    | with_reducible refine Kept.ofRan (kept_setCap (.refl _)) ?_
    | with_reducible apply kept_latchAll
    | with_reducible refine Kept.foldl _ (fun _ _ _ => ?_) _ ?_
    | with_reducible refine Kept.ite_snd_of (by with_reducible assumption) ?_ ?_
    | with_reducible refine Kept.foldl_fst _ (fun _ _ _ => ?_) _ ?_
    | with_reducible refine Kept.foldl_fst_of (by with_reducible assumption) (fun _ _ _ => ?_) ?_
    | with_reducible refine Kept.foldl_snd _ (fun _ _ _ => ?_) _ ?_
    | with_reducible refine Kept.foldl_snd_of (by with_reducible assumption) (fun _ _ _ => ?_) ?_
    | with_reducible refine Kept.foldl_thd _ (fun _ _ _ => ?_) _ ?_
    | with_reducible refine Kept.foldl_thd_of (by with_reducible assumption) (fun _ _ _ => ?_) ?_
    | dsimp only
    | simp only [reduceIte, Bool.false_eq_true]
    | split

theorem kept_readCapPop_of {a s u : State} {x1} {x2} {w0} (e : State.readCapPop s x1 x2 = (w0, u)) (h : Kept a s) : Kept a u := by
  have := kept_readCapPop (x1 := x1) (x2 := x2) h
  rw [e] at this
  exact this

theorem kept_turnCell {a s : State} {x1} {x2} (h : Kept a s) : Kept a (State.turnCell s x1 x2) := by
  unfold State.turnCell
  repeat' first
    | with_reducible refine Kept.ite ?_ ?_
    | with_reducible refine Kept.ite_snd ?_ ?_
    | with_reducible assumption
    | with_reducible apply kept_putCell
    | with_reducible refine Kept.foldl _ (fun _ _ _ => ?_) _ ?_
    | with_reducible refine Kept.ite_snd_of (by with_reducible assumption) ?_ ?_
    | with_reducible refine Kept.foldl_fst _ (fun _ _ _ => ?_) _ ?_
    | with_reducible refine Kept.foldl_fst_of (by with_reducible assumption) (fun _ _ _ => ?_) ?_
    | with_reducible refine Kept.foldl_snd _ (fun _ _ _ => ?_) _ ?_
    | with_reducible refine Kept.foldl_snd_of (by with_reducible assumption) (fun _ _ _ => ?_) ?_
    | with_reducible refine Kept.foldl_thd _ (fun _ _ _ => ?_) _ ?_
    | with_reducible refine Kept.foldl_thd_of (by with_reducible assumption) (fun _ _ _ => ?_) ?_
    | dsimp only
    | simp only [reduceIte, Bool.false_eq_true]
    | split
    | fail_if_no_progress ((with_reducible refine Kept.put ?_ ?_) <;> first | exact rfl | skip)

theorem kept_startGo {a s : State} {x1} (h : Kept a s) : Kept a (State.startGo s x1) := by
  unfold State.startGo
  repeat' first
    | with_reducible refine Kept.ite ?_ ?_
    | with_reducible refine Kept.ite_snd ?_ ?_
    | with_reducible assumption
    | with_reducible apply kept_modStart
    | with_reducible apply kept_turnCell
    | with_reducible apply Kept.ofRan (kept_cellChange (Ran.refl _))
    | with_reducible refine Kept.foldl _ (fun _ _ _ => ?_) _ ?_
    | with_reducible refine Kept.ite_snd_of (by with_reducible assumption) ?_ ?_
    | with_reducible refine Kept.foldl_fst _ (fun _ _ _ => ?_) _ ?_
    | with_reducible refine Kept.foldl_fst_of (by with_reducible assumption) (fun _ _ _ => ?_) ?_
    | with_reducible refine Kept.foldl_snd _ (fun _ _ _ => ?_) _ ?_
    | with_reducible refine Kept.foldl_snd_of (by with_reducible assumption) (fun _ _ _ => ?_) ?_
    | with_reducible refine Kept.foldl_thd _ (fun _ _ _ => ?_) _ ?_
    | with_reducible refine Kept.foldl_thd_of (by with_reducible assumption) (fun _ _ _ => ?_) ?_
    | dsimp only
    | simp only [reduceIte, Bool.false_eq_true]
    | split
    | fail_if_no_progress ((with_reducible refine Kept.put ?_ ?_) <;> first | exact rfl | skip)

theorem kept_readStartT {a s : State} {x1} (h : Kept a s) : Kept a (State.readStartT s x1).2 := by
  unfold State.readStartT
  repeat' first
    | with_reducible refine Kept.ite ?_ ?_
    | with_reducible refine Kept.ite_snd ?_ ?_
    | with_reducible assumption
    | with_reducible apply kept_latch

theorem kept_readStartT_of {a s u : State} {x1} {w0} (e : State.readStartT s x1 = (w0, u)) (h : Kept a s) : Kept a u := by
  have := kept_readStartT (x1 := x1) h
  rw [e] at this
  exact this

theorem kept_wdPause {a s : State} {x1} (h : Quiet a s) : Quiet a (State.wdPause s x1) := by
  unfold State.wdPause
  repeat' first
    | with_reducible refine Quiet.ite ?_ ?_
    | with_reducible refine Quiet.ite_snd ?_ ?_
    | with_reducible assumption
    | with_reducible apply kept_modCore

theorem kept_wdResume {a s : State} {x1} (h : Quiet a s) : Quiet a (State.wdResume s x1) := by
  unfold State.wdResume
  repeat' first
    | with_reducible refine Quiet.ite ?_ ?_
    | with_reducible refine Quiet.ite_snd ?_ ?_
    | with_reducible assumption
    | with_reducible apply kept_modCore

theorem kept_thawCell {a s : State} {x1} (h : Kept a s) : Kept a (State.thawCell s x1).1 := by
  unfold State.thawCell
  repeat' first
    | with_reducible refine Kept.ite ?_ ?_
    | with_reducible refine Kept.ite_snd ?_ ?_
    | with_reducible assumption
    | with_reducible apply kept_putCell
    | with_reducible apply kept_stepCell
    | with_reducible refine kept_stepCell_of (by with_reducible assumption) ?_
    | with_reducible refine Kept.foldl _ (fun _ _ _ => ?_) _ ?_
    | with_reducible refine Kept.ite_snd_of (by with_reducible assumption) ?_ ?_
    | with_reducible refine Kept.foldl_fst _ (fun _ _ _ => ?_) _ ?_
    | with_reducible refine Kept.foldl_fst_of (by with_reducible assumption) (fun _ _ _ => ?_) ?_
    | with_reducible refine Kept.foldl_snd _ (fun _ _ _ => ?_) _ ?_
    | with_reducible refine Kept.foldl_snd_of (by with_reducible assumption) (fun _ _ _ => ?_) ?_
    | with_reducible refine Kept.foldl_thd _ (fun _ _ _ => ?_) _ ?_
    | with_reducible refine Kept.foldl_thd_of (by with_reducible assumption) (fun _ _ _ => ?_) ?_
    | dsimp only
    | simp only [reduceIte, Bool.false_eq_true]
    | split
    | fail_if_no_progress ((with_reducible refine Kept.put ?_ ?_) <;> first | exact rfl | skip)

theorem kept_thawCell_of {a s u : State} {x1} {w0} (e : State.thawCell s x1 = (u, w0)) (h : Kept a s) : Kept a u := by
  have := kept_thawCell (x1 := x1) h
  rw [e] at this
  exact this

theorem kept_readFrzT {a s : State} {x1} (h : Kept a s) : Kept a (State.readFrzT s x1).2 := by
  unfold State.readFrzT
  repeat' first
    | with_reducible refine Kept.ite ?_ ?_
    | with_reducible refine Kept.ite_snd ?_ ?_
    | with_reducible assumption
    | with_reducible apply kept_latch

theorem kept_readFrzT_of {a s u : State} {x1} {w0} (e : State.readFrzT s x1 = (w0, u)) (h : Kept a s) : Kept a u := by
  have := kept_readFrzT (x1 := x1) h
  rw [e] at this
  exact this

end Sys2Proof.Machine
end

