-- ==== Sys2Proof/Laws/State.lean ====
section
/-! SUPPORT. Each setter of the state against each field and each block it leaves alone, and a block read after it is written, so that no
proof unfolds a record update. -/

namespace Sys2Proof.Machine

section
variable (s : State)

@[simp] theorem State.setCell_now (n : Nat) (x : Cell) : (s.setCell n x).now = s.now := rfl
@[simp] theorem State.setCell_axes_encs (n : Nat) (x : Cell) : (s.setCell n x).axes.encs = s.axes.encs := rfl
@[simp] theorem State.setCell_axes_sers (n : Nat) (x : Cell) : (s.setCell n x).axes.sers = s.axes.sers := rfl
@[simp] theorem State.setCell_axes_mains (n : Nat) (x : Cell) : (s.setCell n x).axes.mains = s.axes.mains := rfl
@[simp] theorem State.setCell_axes_start (n : Nat) (x : Cell) : (s.setCell n x).axes.start = s.axes.start := rfl
@[simp] theorem State.setCell_cmps (n : Nat) (x : Cell) : (s.setCell n x).cmps = s.cmps := rfl
@[simp] theorem State.setCell_caps (n : Nat) (x : Cell) : (s.setCell n x).caps = s.caps := rfl
@[simp] theorem State.setCell_chans (n : Nat) (x : Cell) : (s.setCell n x).chans = s.chans := rfl
@[simp] theorem State.setCell_sched (n : Nat) (x : Cell) : (s.setCell n x).sched = s.sched := rfl
@[simp] theorem State.setCell_movers (n : Nat) (x : Cell) : (s.setCell n x).movers = s.movers := rfl
@[simp] theorem State.setCell_queues (n : Nat) (x : Cell) : (s.setCell n x).queues = s.queues := rfl
@[simp] theorem State.setCell_xl (n : Nat) (x : Cell) : (s.setCell n x).xl = s.xl := rfl
@[simp] theorem State.setCell_outs (n : Nat) (x : Cell) : (s.setCell n x).outs = s.outs := rfl
@[simp] theorem State.setCell_lws (n : Nat) (x : Cell) : (s.setCell n x).lws = s.lws := rfl
@[simp] theorem State.setCell_net (n : Nat) (x : Cell) : (s.setCell n x).net = s.net := rfl
@[simp] theorem State.setCell_irq (n : Nat) (x : Cell) : (s.setCell n x).irq = s.irq := rfl
@[simp] theorem State.setCell_und (n : Nat) (x : Cell) : (s.setCell n x).und = s.und := rfl
@[simp] theorem State.setCell_mbox (n : Nat) (x : Cell) : (s.setCell n x).mbox = s.mbox := rfl
@[simp] theorem State.setCell_cores (n : Nat) (x : Cell) : (s.setCell n x).cores = s.cores := rfl
@[simp] theorem State.setCell_mem (n : Nat) (x : Cell) : (s.setCell n x).mem = s.mem := rfl
@[simp] theorem State.setCell_fc (n : Nat) (x : Cell) : (s.setCell n x).fc = s.fc := rfl
@[simp] theorem State.setCell_rst (n : Nat) (x : Cell) : (s.setCell n x).rst = s.rst := rfl
@[simp] theorem State.setCell_boot (n : Nat) (x : Cell) : (s.setCell n x).boot = s.boot := rfl
@[simp] theorem State.setCell_svc (n : Nat) (x : Cell) : (s.setCell n x).svc = s.svc := rfl
@[simp] theorem State.setCell_latches (n : Nat) (x : Cell) : (s.setCell n x).latches = s.latches := rfl
@[simp] theorem State.setCell_out (n : Nat) (x : Cell) : (s.setCell n x).out = s.out := rfl
@[simp] theorem State.setCell_free (n : Nat) (x : Cell) : (s.setCell n x).free = s.free := rfl
@[simp] theorem State.setCell_pending (n : Nat) (x : Cell) : (s.setCell n x).pending = s.pending := rfl
@[simp] theorem State.setCell_enc (n : Nat) (x : Cell) (k : Nat) : (s.setCell n x).enc k = s.enc k := rfl
@[simp] theorem State.setCell_ser (n : Nat) (x : Cell) (k : Nat) : (s.setCell n x).ser k = s.ser k := rfl
@[simp] theorem State.setCell_mainsIn (n : Nat) (x : Cell) (k : Nat) : (s.setCell n x).mainsIn k = s.mainsIn k := rfl
@[simp] theorem State.setCell_cmp (n : Nat) (x : Cell) (k : Nat) : (s.setCell n x).cmp k = s.cmp k := rfl
@[simp] theorem State.setCell_cap (n : Nat) (x : Cell) (k : Nat) : (s.setCell n x).cap k = s.cap k := rfl
@[simp] theorem State.setCell_chan (n : Nat) (x : Cell) (k : Nat) : (s.setCell n x).chan k = s.chan k := rfl
@[simp] theorem State.setCell_wq (n : Nat) (x : Cell) (k : Nat) : (s.setCell n x).wq k = s.wq k := rfl
@[simp] theorem State.setCell_eq (n : Nat) (x : Cell) (k : Nat) : (s.setCell n x).eq k = s.eq k := rfl
@[simp] theorem State.setCell_dom (n : Nat) (x : Cell) (k : Nat) : (s.setCell n x).dom k = s.dom k := rfl
@[simp] theorem State.setCell_fq (n : Nat) (x : Cell) (k : Nat) : (s.setCell n x).fq k = s.fq k := rfl
@[simp] theorem State.setCell_win (n : Nat) (x : Cell) (k : Nat) : (s.setCell n x).win k = s.win k := rfl
@[simp] theorem State.setCell_ou (n : Nat) (x : Cell) (k : Nat) : (s.setCell n x).ou k = s.ou k := rfl
@[simp] theorem State.setCell_pin (n : Nat) (x : Cell) (k : Nat) : (s.setCell n x).pin k = s.pin k := rfl
@[simp] theorem State.setCell_permitIn (n : Nat) (x : Cell) (k : Nat) : (s.setCell n x).permitIn k = s.permitIn k := rfl
@[simp] theorem State.setCell_port (n : Nat) (x : Cell) (k : Nat) : (s.setCell n x).port k = s.port k := rfl
@[simp] theorem State.setCell_txq (n : Nat) (x : Cell) (k : Nat) : (s.setCell n x).txq k = s.txq k := rfl
@[simp] theorem State.setCell_stream (n : Nat) (x : Cell) (k : Nat) : (s.setCell n x).stream k = s.stream k := rfl
@[simp] theorem State.setCell_yz (n : Nat) (x : Cell) : (s.setCell n x).yz = s.yz := rfl
@[simp] theorem State.setCell_vec (n : Nat) (x : Cell) (k : Nat) : (s.setCell n x).vec k = s.vec k := rfl
@[simp] theorem State.setCell_cic (n : Nat) (x : Cell) (k : Nat) : (s.setCell n x).cic k = s.cic k := rfl
@[simp] theorem State.setCell_mb (n : Nat) (x : Cell) (k : Nat) : (s.setCell n x).mb k = s.mb k := rfl
@[simp] theorem State.setCell_core (n : Nat) (x : Cell) (k : Nat) : (s.setCell n x).core k = s.core k := rfl

@[simp] theorem State.setEnc_now (n : Nat) (x : EncGroup) : (s.setEnc n x).now = s.now := rfl
@[simp] theorem State.setEnc_axes_cells (n : Nat) (x : EncGroup) : (s.setEnc n x).axes.cells = s.axes.cells := rfl
@[simp] theorem State.setEnc_axes_sers (n : Nat) (x : EncGroup) : (s.setEnc n x).axes.sers = s.axes.sers := rfl
@[simp] theorem State.setEnc_axes_mains (n : Nat) (x : EncGroup) : (s.setEnc n x).axes.mains = s.axes.mains := rfl
@[simp] theorem State.setEnc_axes_start (n : Nat) (x : EncGroup) : (s.setEnc n x).axes.start = s.axes.start := rfl
@[simp] theorem State.setEnc_cmps (n : Nat) (x : EncGroup) : (s.setEnc n x).cmps = s.cmps := rfl
@[simp] theorem State.setEnc_caps (n : Nat) (x : EncGroup) : (s.setEnc n x).caps = s.caps := rfl
@[simp] theorem State.setEnc_chans (n : Nat) (x : EncGroup) : (s.setEnc n x).chans = s.chans := rfl
@[simp] theorem State.setEnc_sched (n : Nat) (x : EncGroup) : (s.setEnc n x).sched = s.sched := rfl
@[simp] theorem State.setEnc_movers (n : Nat) (x : EncGroup) : (s.setEnc n x).movers = s.movers := rfl
@[simp] theorem State.setEnc_queues (n : Nat) (x : EncGroup) : (s.setEnc n x).queues = s.queues := rfl
@[simp] theorem State.setEnc_xl (n : Nat) (x : EncGroup) : (s.setEnc n x).xl = s.xl := rfl
@[simp] theorem State.setEnc_outs (n : Nat) (x : EncGroup) : (s.setEnc n x).outs = s.outs := rfl
@[simp] theorem State.setEnc_lws (n : Nat) (x : EncGroup) : (s.setEnc n x).lws = s.lws := rfl
@[simp] theorem State.setEnc_net (n : Nat) (x : EncGroup) : (s.setEnc n x).net = s.net := rfl
@[simp] theorem State.setEnc_irq (n : Nat) (x : EncGroup) : (s.setEnc n x).irq = s.irq := rfl
@[simp] theorem State.setEnc_und (n : Nat) (x : EncGroup) : (s.setEnc n x).und = s.und := rfl
@[simp] theorem State.setEnc_mbox (n : Nat) (x : EncGroup) : (s.setEnc n x).mbox = s.mbox := rfl
@[simp] theorem State.setEnc_cores (n : Nat) (x : EncGroup) : (s.setEnc n x).cores = s.cores := rfl
@[simp] theorem State.setEnc_mem (n : Nat) (x : EncGroup) : (s.setEnc n x).mem = s.mem := rfl
@[simp] theorem State.setEnc_fc (n : Nat) (x : EncGroup) : (s.setEnc n x).fc = s.fc := rfl
@[simp] theorem State.setEnc_rst (n : Nat) (x : EncGroup) : (s.setEnc n x).rst = s.rst := rfl
@[simp] theorem State.setEnc_boot (n : Nat) (x : EncGroup) : (s.setEnc n x).boot = s.boot := rfl
@[simp] theorem State.setEnc_svc (n : Nat) (x : EncGroup) : (s.setEnc n x).svc = s.svc := rfl
@[simp] theorem State.setEnc_latches (n : Nat) (x : EncGroup) : (s.setEnc n x).latches = s.latches := rfl
@[simp] theorem State.setEnc_out (n : Nat) (x : EncGroup) : (s.setEnc n x).out = s.out := rfl
@[simp] theorem State.setEnc_free (n : Nat) (x : EncGroup) : (s.setEnc n x).free = s.free := rfl
@[simp] theorem State.setEnc_pending (n : Nat) (x : EncGroup) : (s.setEnc n x).pending = s.pending := rfl
@[simp] theorem State.setEnc_cell (n : Nat) (x : EncGroup) (k : Nat) : (s.setEnc n x).cell k = s.cell k := rfl
@[simp] theorem State.setEnc_ser (n : Nat) (x : EncGroup) (k : Nat) : (s.setEnc n x).ser k = s.ser k := rfl
@[simp] theorem State.setEnc_mainsIn (n : Nat) (x : EncGroup) (k : Nat) : (s.setEnc n x).mainsIn k = s.mainsIn k := rfl
@[simp] theorem State.setEnc_cmp (n : Nat) (x : EncGroup) (k : Nat) : (s.setEnc n x).cmp k = s.cmp k := rfl
@[simp] theorem State.setEnc_cap (n : Nat) (x : EncGroup) (k : Nat) : (s.setEnc n x).cap k = s.cap k := rfl
@[simp] theorem State.setEnc_chan (n : Nat) (x : EncGroup) (k : Nat) : (s.setEnc n x).chan k = s.chan k := rfl
@[simp] theorem State.setEnc_wq (n : Nat) (x : EncGroup) (k : Nat) : (s.setEnc n x).wq k = s.wq k := rfl
@[simp] theorem State.setEnc_eq (n : Nat) (x : EncGroup) (k : Nat) : (s.setEnc n x).eq k = s.eq k := rfl
@[simp] theorem State.setEnc_dom (n : Nat) (x : EncGroup) (k : Nat) : (s.setEnc n x).dom k = s.dom k := rfl
@[simp] theorem State.setEnc_fq (n : Nat) (x : EncGroup) (k : Nat) : (s.setEnc n x).fq k = s.fq k := rfl
@[simp] theorem State.setEnc_win (n : Nat) (x : EncGroup) (k : Nat) : (s.setEnc n x).win k = s.win k := rfl
@[simp] theorem State.setEnc_ou (n : Nat) (x : EncGroup) (k : Nat) : (s.setEnc n x).ou k = s.ou k := rfl
@[simp] theorem State.setEnc_pin (n : Nat) (x : EncGroup) (k : Nat) : (s.setEnc n x).pin k = s.pin k := rfl
@[simp] theorem State.setEnc_permitIn (n : Nat) (x : EncGroup) (k : Nat) : (s.setEnc n x).permitIn k = s.permitIn k := rfl
@[simp] theorem State.setEnc_port (n : Nat) (x : EncGroup) (k : Nat) : (s.setEnc n x).port k = s.port k := rfl
@[simp] theorem State.setEnc_txq (n : Nat) (x : EncGroup) (k : Nat) : (s.setEnc n x).txq k = s.txq k := rfl
@[simp] theorem State.setEnc_stream (n : Nat) (x : EncGroup) (k : Nat) : (s.setEnc n x).stream k = s.stream k := rfl
@[simp] theorem State.setEnc_yz (n : Nat) (x : EncGroup) : (s.setEnc n x).yz = s.yz := rfl
@[simp] theorem State.setEnc_vec (n : Nat) (x : EncGroup) (k : Nat) : (s.setEnc n x).vec k = s.vec k := rfl
@[simp] theorem State.setEnc_cic (n : Nat) (x : EncGroup) (k : Nat) : (s.setEnc n x).cic k = s.cic k := rfl
@[simp] theorem State.setEnc_mb (n : Nat) (x : EncGroup) (k : Nat) : (s.setEnc n x).mb k = s.mb k := rfl
@[simp] theorem State.setEnc_core (n : Nat) (x : EncGroup) (k : Nat) : (s.setEnc n x).core k = s.core k := rfl

@[simp] theorem State.setSer_now (n : Nat) (x : SerIf) : (s.setSer n x).now = s.now := rfl
@[simp] theorem State.setSer_axes_cells (n : Nat) (x : SerIf) : (s.setSer n x).axes.cells = s.axes.cells := rfl
@[simp] theorem State.setSer_axes_encs (n : Nat) (x : SerIf) : (s.setSer n x).axes.encs = s.axes.encs := rfl
@[simp] theorem State.setSer_axes_mains (n : Nat) (x : SerIf) : (s.setSer n x).axes.mains = s.axes.mains := rfl
@[simp] theorem State.setSer_axes_start (n : Nat) (x : SerIf) : (s.setSer n x).axes.start = s.axes.start := rfl
@[simp] theorem State.setSer_cmps (n : Nat) (x : SerIf) : (s.setSer n x).cmps = s.cmps := rfl
@[simp] theorem State.setSer_caps (n : Nat) (x : SerIf) : (s.setSer n x).caps = s.caps := rfl
@[simp] theorem State.setSer_chans (n : Nat) (x : SerIf) : (s.setSer n x).chans = s.chans := rfl
@[simp] theorem State.setSer_sched (n : Nat) (x : SerIf) : (s.setSer n x).sched = s.sched := rfl
@[simp] theorem State.setSer_movers (n : Nat) (x : SerIf) : (s.setSer n x).movers = s.movers := rfl
@[simp] theorem State.setSer_queues (n : Nat) (x : SerIf) : (s.setSer n x).queues = s.queues := rfl
@[simp] theorem State.setSer_xl (n : Nat) (x : SerIf) : (s.setSer n x).xl = s.xl := rfl
@[simp] theorem State.setSer_outs (n : Nat) (x : SerIf) : (s.setSer n x).outs = s.outs := rfl
@[simp] theorem State.setSer_lws (n : Nat) (x : SerIf) : (s.setSer n x).lws = s.lws := rfl
@[simp] theorem State.setSer_net (n : Nat) (x : SerIf) : (s.setSer n x).net = s.net := rfl
@[simp] theorem State.setSer_irq (n : Nat) (x : SerIf) : (s.setSer n x).irq = s.irq := rfl
@[simp] theorem State.setSer_und (n : Nat) (x : SerIf) : (s.setSer n x).und = s.und := rfl
@[simp] theorem State.setSer_mbox (n : Nat) (x : SerIf) : (s.setSer n x).mbox = s.mbox := rfl
@[simp] theorem State.setSer_cores (n : Nat) (x : SerIf) : (s.setSer n x).cores = s.cores := rfl
@[simp] theorem State.setSer_mem (n : Nat) (x : SerIf) : (s.setSer n x).mem = s.mem := rfl
@[simp] theorem State.setSer_fc (n : Nat) (x : SerIf) : (s.setSer n x).fc = s.fc := rfl
@[simp] theorem State.setSer_rst (n : Nat) (x : SerIf) : (s.setSer n x).rst = s.rst := rfl
@[simp] theorem State.setSer_boot (n : Nat) (x : SerIf) : (s.setSer n x).boot = s.boot := rfl
@[simp] theorem State.setSer_svc (n : Nat) (x : SerIf) : (s.setSer n x).svc = s.svc := rfl
@[simp] theorem State.setSer_latches (n : Nat) (x : SerIf) : (s.setSer n x).latches = s.latches := rfl
@[simp] theorem State.setSer_out (n : Nat) (x : SerIf) : (s.setSer n x).out = s.out := rfl
@[simp] theorem State.setSer_free (n : Nat) (x : SerIf) : (s.setSer n x).free = s.free := rfl
@[simp] theorem State.setSer_pending (n : Nat) (x : SerIf) : (s.setSer n x).pending = s.pending := rfl
@[simp] theorem State.setSer_cell (n : Nat) (x : SerIf) (k : Nat) : (s.setSer n x).cell k = s.cell k := rfl
@[simp] theorem State.setSer_enc (n : Nat) (x : SerIf) (k : Nat) : (s.setSer n x).enc k = s.enc k := rfl
@[simp] theorem State.setSer_mainsIn (n : Nat) (x : SerIf) (k : Nat) : (s.setSer n x).mainsIn k = s.mainsIn k := rfl
@[simp] theorem State.setSer_cmp (n : Nat) (x : SerIf) (k : Nat) : (s.setSer n x).cmp k = s.cmp k := rfl
@[simp] theorem State.setSer_cap (n : Nat) (x : SerIf) (k : Nat) : (s.setSer n x).cap k = s.cap k := rfl
@[simp] theorem State.setSer_chan (n : Nat) (x : SerIf) (k : Nat) : (s.setSer n x).chan k = s.chan k := rfl
@[simp] theorem State.setSer_wq (n : Nat) (x : SerIf) (k : Nat) : (s.setSer n x).wq k = s.wq k := rfl
@[simp] theorem State.setSer_eq (n : Nat) (x : SerIf) (k : Nat) : (s.setSer n x).eq k = s.eq k := rfl
@[simp] theorem State.setSer_dom (n : Nat) (x : SerIf) (k : Nat) : (s.setSer n x).dom k = s.dom k := rfl
@[simp] theorem State.setSer_fq (n : Nat) (x : SerIf) (k : Nat) : (s.setSer n x).fq k = s.fq k := rfl
@[simp] theorem State.setSer_win (n : Nat) (x : SerIf) (k : Nat) : (s.setSer n x).win k = s.win k := rfl
@[simp] theorem State.setSer_ou (n : Nat) (x : SerIf) (k : Nat) : (s.setSer n x).ou k = s.ou k := rfl
@[simp] theorem State.setSer_pin (n : Nat) (x : SerIf) (k : Nat) : (s.setSer n x).pin k = s.pin k := rfl
@[simp] theorem State.setSer_permitIn (n : Nat) (x : SerIf) (k : Nat) : (s.setSer n x).permitIn k = s.permitIn k := rfl
@[simp] theorem State.setSer_port (n : Nat) (x : SerIf) (k : Nat) : (s.setSer n x).port k = s.port k := rfl
@[simp] theorem State.setSer_txq (n : Nat) (x : SerIf) (k : Nat) : (s.setSer n x).txq k = s.txq k := rfl
@[simp] theorem State.setSer_stream (n : Nat) (x : SerIf) (k : Nat) : (s.setSer n x).stream k = s.stream k := rfl
@[simp] theorem State.setSer_yz (n : Nat) (x : SerIf) : (s.setSer n x).yz = s.yz := rfl
@[simp] theorem State.setSer_vec (n : Nat) (x : SerIf) (k : Nat) : (s.setSer n x).vec k = s.vec k := rfl
@[simp] theorem State.setSer_cic (n : Nat) (x : SerIf) (k : Nat) : (s.setSer n x).cic k = s.cic k := rfl
@[simp] theorem State.setSer_mb (n : Nat) (x : SerIf) (k : Nat) : (s.setSer n x).mb k = s.mb k := rfl
@[simp] theorem State.setSer_core (n : Nat) (x : SerIf) (k : Nat) : (s.setSer n x).core k = s.core k := rfl

@[simp] theorem State.setMainsIn_now (n : Nat) (x : MainsIn) : (s.setMainsIn n x).now = s.now := rfl
@[simp] theorem State.setMainsIn_axes_cells (n : Nat) (x : MainsIn) : (s.setMainsIn n x).axes.cells = s.axes.cells := rfl
@[simp] theorem State.setMainsIn_axes_encs (n : Nat) (x : MainsIn) : (s.setMainsIn n x).axes.encs = s.axes.encs := rfl
@[simp] theorem State.setMainsIn_axes_sers (n : Nat) (x : MainsIn) : (s.setMainsIn n x).axes.sers = s.axes.sers := rfl
@[simp] theorem State.setMainsIn_axes_start (n : Nat) (x : MainsIn) : (s.setMainsIn n x).axes.start = s.axes.start := rfl
@[simp] theorem State.setMainsIn_cmps (n : Nat) (x : MainsIn) : (s.setMainsIn n x).cmps = s.cmps := rfl
@[simp] theorem State.setMainsIn_caps (n : Nat) (x : MainsIn) : (s.setMainsIn n x).caps = s.caps := rfl
@[simp] theorem State.setMainsIn_chans (n : Nat) (x : MainsIn) : (s.setMainsIn n x).chans = s.chans := rfl
@[simp] theorem State.setMainsIn_sched (n : Nat) (x : MainsIn) : (s.setMainsIn n x).sched = s.sched := rfl
@[simp] theorem State.setMainsIn_movers (n : Nat) (x : MainsIn) : (s.setMainsIn n x).movers = s.movers := rfl
@[simp] theorem State.setMainsIn_queues (n : Nat) (x : MainsIn) : (s.setMainsIn n x).queues = s.queues := rfl
@[simp] theorem State.setMainsIn_xl (n : Nat) (x : MainsIn) : (s.setMainsIn n x).xl = s.xl := rfl
@[simp] theorem State.setMainsIn_outs (n : Nat) (x : MainsIn) : (s.setMainsIn n x).outs = s.outs := rfl
@[simp] theorem State.setMainsIn_lws (n : Nat) (x : MainsIn) : (s.setMainsIn n x).lws = s.lws := rfl
@[simp] theorem State.setMainsIn_net (n : Nat) (x : MainsIn) : (s.setMainsIn n x).net = s.net := rfl
@[simp] theorem State.setMainsIn_irq (n : Nat) (x : MainsIn) : (s.setMainsIn n x).irq = s.irq := rfl
@[simp] theorem State.setMainsIn_und (n : Nat) (x : MainsIn) : (s.setMainsIn n x).und = s.und := rfl
@[simp] theorem State.setMainsIn_mbox (n : Nat) (x : MainsIn) : (s.setMainsIn n x).mbox = s.mbox := rfl
@[simp] theorem State.setMainsIn_cores (n : Nat) (x : MainsIn) : (s.setMainsIn n x).cores = s.cores := rfl
@[simp] theorem State.setMainsIn_mem (n : Nat) (x : MainsIn) : (s.setMainsIn n x).mem = s.mem := rfl
@[simp] theorem State.setMainsIn_fc (n : Nat) (x : MainsIn) : (s.setMainsIn n x).fc = s.fc := rfl
@[simp] theorem State.setMainsIn_rst (n : Nat) (x : MainsIn) : (s.setMainsIn n x).rst = s.rst := rfl
@[simp] theorem State.setMainsIn_boot (n : Nat) (x : MainsIn) : (s.setMainsIn n x).boot = s.boot := rfl
@[simp] theorem State.setMainsIn_svc (n : Nat) (x : MainsIn) : (s.setMainsIn n x).svc = s.svc := rfl
@[simp] theorem State.setMainsIn_latches (n : Nat) (x : MainsIn) : (s.setMainsIn n x).latches = s.latches := rfl
@[simp] theorem State.setMainsIn_out (n : Nat) (x : MainsIn) : (s.setMainsIn n x).out = s.out := rfl
@[simp] theorem State.setMainsIn_free (n : Nat) (x : MainsIn) : (s.setMainsIn n x).free = s.free := rfl
@[simp] theorem State.setMainsIn_pending (n : Nat) (x : MainsIn) : (s.setMainsIn n x).pending = s.pending := rfl
@[simp] theorem State.setMainsIn_cell (n : Nat) (x : MainsIn) (k : Nat) : (s.setMainsIn n x).cell k = s.cell k := rfl
@[simp] theorem State.setMainsIn_enc (n : Nat) (x : MainsIn) (k : Nat) : (s.setMainsIn n x).enc k = s.enc k := rfl
@[simp] theorem State.setMainsIn_ser (n : Nat) (x : MainsIn) (k : Nat) : (s.setMainsIn n x).ser k = s.ser k := rfl
@[simp] theorem State.setMainsIn_cmp (n : Nat) (x : MainsIn) (k : Nat) : (s.setMainsIn n x).cmp k = s.cmp k := rfl
@[simp] theorem State.setMainsIn_cap (n : Nat) (x : MainsIn) (k : Nat) : (s.setMainsIn n x).cap k = s.cap k := rfl
@[simp] theorem State.setMainsIn_chan (n : Nat) (x : MainsIn) (k : Nat) : (s.setMainsIn n x).chan k = s.chan k := rfl
@[simp] theorem State.setMainsIn_wq (n : Nat) (x : MainsIn) (k : Nat) : (s.setMainsIn n x).wq k = s.wq k := rfl
@[simp] theorem State.setMainsIn_eq (n : Nat) (x : MainsIn) (k : Nat) : (s.setMainsIn n x).eq k = s.eq k := rfl
@[simp] theorem State.setMainsIn_dom (n : Nat) (x : MainsIn) (k : Nat) : (s.setMainsIn n x).dom k = s.dom k := rfl
@[simp] theorem State.setMainsIn_fq (n : Nat) (x : MainsIn) (k : Nat) : (s.setMainsIn n x).fq k = s.fq k := rfl
@[simp] theorem State.setMainsIn_win (n : Nat) (x : MainsIn) (k : Nat) : (s.setMainsIn n x).win k = s.win k := rfl
@[simp] theorem State.setMainsIn_ou (n : Nat) (x : MainsIn) (k : Nat) : (s.setMainsIn n x).ou k = s.ou k := rfl
@[simp] theorem State.setMainsIn_pin (n : Nat) (x : MainsIn) (k : Nat) : (s.setMainsIn n x).pin k = s.pin k := rfl
@[simp] theorem State.setMainsIn_permitIn (n : Nat) (x : MainsIn) (k : Nat) : (s.setMainsIn n x).permitIn k = s.permitIn k := rfl
@[simp] theorem State.setMainsIn_port (n : Nat) (x : MainsIn) (k : Nat) : (s.setMainsIn n x).port k = s.port k := rfl
@[simp] theorem State.setMainsIn_txq (n : Nat) (x : MainsIn) (k : Nat) : (s.setMainsIn n x).txq k = s.txq k := rfl
@[simp] theorem State.setMainsIn_stream (n : Nat) (x : MainsIn) (k : Nat) : (s.setMainsIn n x).stream k = s.stream k := rfl
@[simp] theorem State.setMainsIn_yz (n : Nat) (x : MainsIn) : (s.setMainsIn n x).yz = s.yz := rfl
@[simp] theorem State.setMainsIn_vec (n : Nat) (x : MainsIn) (k : Nat) : (s.setMainsIn n x).vec k = s.vec k := rfl
@[simp] theorem State.setMainsIn_cic (n : Nat) (x : MainsIn) (k : Nat) : (s.setMainsIn n x).cic k = s.cic k := rfl
@[simp] theorem State.setMainsIn_mb (n : Nat) (x : MainsIn) (k : Nat) : (s.setMainsIn n x).mb k = s.mb k := rfl
@[simp] theorem State.setMainsIn_core (n : Nat) (x : MainsIn) (k : Nat) : (s.setMainsIn n x).core k = s.core k := rfl

@[simp] theorem State.modStart_now (f : Start → Start) : (s.modStart f).now = s.now := rfl
@[simp] theorem State.modStart_axes_cells (f : Start → Start) : (s.modStart f).axes.cells = s.axes.cells := rfl
@[simp] theorem State.modStart_axes_encs (f : Start → Start) : (s.modStart f).axes.encs = s.axes.encs := rfl
@[simp] theorem State.modStart_axes_sers (f : Start → Start) : (s.modStart f).axes.sers = s.axes.sers := rfl
@[simp] theorem State.modStart_axes_mains (f : Start → Start) : (s.modStart f).axes.mains = s.axes.mains := rfl
@[simp] theorem State.modStart_cmps (f : Start → Start) : (s.modStart f).cmps = s.cmps := rfl
@[simp] theorem State.modStart_caps (f : Start → Start) : (s.modStart f).caps = s.caps := rfl
@[simp] theorem State.modStart_chans (f : Start → Start) : (s.modStart f).chans = s.chans := rfl
@[simp] theorem State.modStart_sched (f : Start → Start) : (s.modStart f).sched = s.sched := rfl
@[simp] theorem State.modStart_movers (f : Start → Start) : (s.modStart f).movers = s.movers := rfl
@[simp] theorem State.modStart_queues (f : Start → Start) : (s.modStart f).queues = s.queues := rfl
@[simp] theorem State.modStart_xl (f : Start → Start) : (s.modStart f).xl = s.xl := rfl
@[simp] theorem State.modStart_outs (f : Start → Start) : (s.modStart f).outs = s.outs := rfl
@[simp] theorem State.modStart_lws (f : Start → Start) : (s.modStart f).lws = s.lws := rfl
@[simp] theorem State.modStart_net (f : Start → Start) : (s.modStart f).net = s.net := rfl
@[simp] theorem State.modStart_irq (f : Start → Start) : (s.modStart f).irq = s.irq := rfl
@[simp] theorem State.modStart_und (f : Start → Start) : (s.modStart f).und = s.und := rfl
@[simp] theorem State.modStart_mbox (f : Start → Start) : (s.modStart f).mbox = s.mbox := rfl
@[simp] theorem State.modStart_cores (f : Start → Start) : (s.modStart f).cores = s.cores := rfl
@[simp] theorem State.modStart_mem (f : Start → Start) : (s.modStart f).mem = s.mem := rfl
@[simp] theorem State.modStart_fc (f : Start → Start) : (s.modStart f).fc = s.fc := rfl
@[simp] theorem State.modStart_rst (f : Start → Start) : (s.modStart f).rst = s.rst := rfl
@[simp] theorem State.modStart_boot (f : Start → Start) : (s.modStart f).boot = s.boot := rfl
@[simp] theorem State.modStart_svc (f : Start → Start) : (s.modStart f).svc = s.svc := rfl
@[simp] theorem State.modStart_latches (f : Start → Start) : (s.modStart f).latches = s.latches := rfl
@[simp] theorem State.modStart_out (f : Start → Start) : (s.modStart f).out = s.out := rfl
@[simp] theorem State.modStart_free (f : Start → Start) : (s.modStart f).free = s.free := rfl
@[simp] theorem State.modStart_pending (f : Start → Start) : (s.modStart f).pending = s.pending := rfl
@[simp] theorem State.modStart_cell (f : Start → Start) (k : Nat) : (s.modStart f).cell k = s.cell k := rfl
@[simp] theorem State.modStart_enc (f : Start → Start) (k : Nat) : (s.modStart f).enc k = s.enc k := rfl
@[simp] theorem State.modStart_ser (f : Start → Start) (k : Nat) : (s.modStart f).ser k = s.ser k := rfl
@[simp] theorem State.modStart_mainsIn (f : Start → Start) (k : Nat) : (s.modStart f).mainsIn k = s.mainsIn k := rfl
@[simp] theorem State.modStart_cmp (f : Start → Start) (k : Nat) : (s.modStart f).cmp k = s.cmp k := rfl
@[simp] theorem State.modStart_cap (f : Start → Start) (k : Nat) : (s.modStart f).cap k = s.cap k := rfl
@[simp] theorem State.modStart_chan (f : Start → Start) (k : Nat) : (s.modStart f).chan k = s.chan k := rfl
@[simp] theorem State.modStart_wq (f : Start → Start) (k : Nat) : (s.modStart f).wq k = s.wq k := rfl
@[simp] theorem State.modStart_eq (f : Start → Start) (k : Nat) : (s.modStart f).eq k = s.eq k := rfl
@[simp] theorem State.modStart_dom (f : Start → Start) (k : Nat) : (s.modStart f).dom k = s.dom k := rfl
@[simp] theorem State.modStart_fq (f : Start → Start) (k : Nat) : (s.modStart f).fq k = s.fq k := rfl
@[simp] theorem State.modStart_win (f : Start → Start) (k : Nat) : (s.modStart f).win k = s.win k := rfl
@[simp] theorem State.modStart_ou (f : Start → Start) (k : Nat) : (s.modStart f).ou k = s.ou k := rfl
@[simp] theorem State.modStart_pin (f : Start → Start) (k : Nat) : (s.modStart f).pin k = s.pin k := rfl
@[simp] theorem State.modStart_permitIn (f : Start → Start) (k : Nat) : (s.modStart f).permitIn k = s.permitIn k := rfl
@[simp] theorem State.modStart_port (f : Start → Start) (k : Nat) : (s.modStart f).port k = s.port k := rfl
@[simp] theorem State.modStart_txq (f : Start → Start) (k : Nat) : (s.modStart f).txq k = s.txq k := rfl
@[simp] theorem State.modStart_stream (f : Start → Start) (k : Nat) : (s.modStart f).stream k = s.stream k := rfl
@[simp] theorem State.modStart_yz (f : Start → Start) : (s.modStart f).yz = s.yz := rfl
@[simp] theorem State.modStart_vec (f : Start → Start) (k : Nat) : (s.modStart f).vec k = s.vec k := rfl
@[simp] theorem State.modStart_cic (f : Start → Start) (k : Nat) : (s.modStart f).cic k = s.cic k := rfl
@[simp] theorem State.modStart_mb (f : Start → Start) (k : Nat) : (s.modStart f).mb k = s.mb k := rfl
@[simp] theorem State.modStart_core (f : Start → Start) (k : Nat) : (s.modStart f).core k = s.core k := rfl

@[simp] theorem State.setCmp_now (n : Nat) (x : Cmp) : (s.setCmp n x).now = s.now := rfl
@[simp] theorem State.setCmp_axes (n : Nat) (x : Cmp) : (s.setCmp n x).axes = s.axes := rfl
@[simp] theorem State.setCmp_caps (n : Nat) (x : Cmp) : (s.setCmp n x).caps = s.caps := rfl
@[simp] theorem State.setCmp_chans (n : Nat) (x : Cmp) : (s.setCmp n x).chans = s.chans := rfl
@[simp] theorem State.setCmp_sched (n : Nat) (x : Cmp) : (s.setCmp n x).sched = s.sched := rfl
@[simp] theorem State.setCmp_movers (n : Nat) (x : Cmp) : (s.setCmp n x).movers = s.movers := rfl
@[simp] theorem State.setCmp_queues (n : Nat) (x : Cmp) : (s.setCmp n x).queues = s.queues := rfl
@[simp] theorem State.setCmp_xl (n : Nat) (x : Cmp) : (s.setCmp n x).xl = s.xl := rfl
@[simp] theorem State.setCmp_outs (n : Nat) (x : Cmp) : (s.setCmp n x).outs = s.outs := rfl
@[simp] theorem State.setCmp_lws (n : Nat) (x : Cmp) : (s.setCmp n x).lws = s.lws := rfl
@[simp] theorem State.setCmp_net (n : Nat) (x : Cmp) : (s.setCmp n x).net = s.net := rfl
@[simp] theorem State.setCmp_irq (n : Nat) (x : Cmp) : (s.setCmp n x).irq = s.irq := rfl
@[simp] theorem State.setCmp_und (n : Nat) (x : Cmp) : (s.setCmp n x).und = s.und := rfl
@[simp] theorem State.setCmp_mbox (n : Nat) (x : Cmp) : (s.setCmp n x).mbox = s.mbox := rfl
@[simp] theorem State.setCmp_cores (n : Nat) (x : Cmp) : (s.setCmp n x).cores = s.cores := rfl
@[simp] theorem State.setCmp_mem (n : Nat) (x : Cmp) : (s.setCmp n x).mem = s.mem := rfl
@[simp] theorem State.setCmp_fc (n : Nat) (x : Cmp) : (s.setCmp n x).fc = s.fc := rfl
@[simp] theorem State.setCmp_rst (n : Nat) (x : Cmp) : (s.setCmp n x).rst = s.rst := rfl
@[simp] theorem State.setCmp_boot (n : Nat) (x : Cmp) : (s.setCmp n x).boot = s.boot := rfl
@[simp] theorem State.setCmp_svc (n : Nat) (x : Cmp) : (s.setCmp n x).svc = s.svc := rfl
@[simp] theorem State.setCmp_latches (n : Nat) (x : Cmp) : (s.setCmp n x).latches = s.latches := rfl
@[simp] theorem State.setCmp_out (n : Nat) (x : Cmp) : (s.setCmp n x).out = s.out := rfl
@[simp] theorem State.setCmp_free (n : Nat) (x : Cmp) : (s.setCmp n x).free = s.free := rfl
@[simp] theorem State.setCmp_pending (n : Nat) (x : Cmp) : (s.setCmp n x).pending = s.pending := rfl
@[simp] theorem State.setCmp_cell (n : Nat) (x : Cmp) (k : Nat) : (s.setCmp n x).cell k = s.cell k := rfl
@[simp] theorem State.setCmp_enc (n : Nat) (x : Cmp) (k : Nat) : (s.setCmp n x).enc k = s.enc k := rfl
@[simp] theorem State.setCmp_ser (n : Nat) (x : Cmp) (k : Nat) : (s.setCmp n x).ser k = s.ser k := rfl
@[simp] theorem State.setCmp_mainsIn (n : Nat) (x : Cmp) (k : Nat) : (s.setCmp n x).mainsIn k = s.mainsIn k := rfl
@[simp] theorem State.setCmp_cap (n : Nat) (x : Cmp) (k : Nat) : (s.setCmp n x).cap k = s.cap k := rfl
@[simp] theorem State.setCmp_chan (n : Nat) (x : Cmp) (k : Nat) : (s.setCmp n x).chan k = s.chan k := rfl
@[simp] theorem State.setCmp_wq (n : Nat) (x : Cmp) (k : Nat) : (s.setCmp n x).wq k = s.wq k := rfl
@[simp] theorem State.setCmp_eq (n : Nat) (x : Cmp) (k : Nat) : (s.setCmp n x).eq k = s.eq k := rfl
@[simp] theorem State.setCmp_dom (n : Nat) (x : Cmp) (k : Nat) : (s.setCmp n x).dom k = s.dom k := rfl
@[simp] theorem State.setCmp_fq (n : Nat) (x : Cmp) (k : Nat) : (s.setCmp n x).fq k = s.fq k := rfl
@[simp] theorem State.setCmp_win (n : Nat) (x : Cmp) (k : Nat) : (s.setCmp n x).win k = s.win k := rfl
@[simp] theorem State.setCmp_ou (n : Nat) (x : Cmp) (k : Nat) : (s.setCmp n x).ou k = s.ou k := rfl
@[simp] theorem State.setCmp_pin (n : Nat) (x : Cmp) (k : Nat) : (s.setCmp n x).pin k = s.pin k := rfl
@[simp] theorem State.setCmp_permitIn (n : Nat) (x : Cmp) (k : Nat) : (s.setCmp n x).permitIn k = s.permitIn k := rfl
@[simp] theorem State.setCmp_port (n : Nat) (x : Cmp) (k : Nat) : (s.setCmp n x).port k = s.port k := rfl
@[simp] theorem State.setCmp_txq (n : Nat) (x : Cmp) (k : Nat) : (s.setCmp n x).txq k = s.txq k := rfl
@[simp] theorem State.setCmp_stream (n : Nat) (x : Cmp) (k : Nat) : (s.setCmp n x).stream k = s.stream k := rfl
@[simp] theorem State.setCmp_yz (n : Nat) (x : Cmp) : (s.setCmp n x).yz = s.yz := rfl
@[simp] theorem State.setCmp_vec (n : Nat) (x : Cmp) (k : Nat) : (s.setCmp n x).vec k = s.vec k := rfl
@[simp] theorem State.setCmp_cic (n : Nat) (x : Cmp) (k : Nat) : (s.setCmp n x).cic k = s.cic k := rfl
@[simp] theorem State.setCmp_mb (n : Nat) (x : Cmp) (k : Nat) : (s.setCmp n x).mb k = s.mb k := rfl
@[simp] theorem State.setCmp_core (n : Nat) (x : Cmp) (k : Nat) : (s.setCmp n x).core k = s.core k := rfl

@[simp] theorem State.setCap_now (n : Nat) (x : Cap) : (s.setCap n x).now = s.now := rfl
@[simp] theorem State.setCap_axes (n : Nat) (x : Cap) : (s.setCap n x).axes = s.axes := rfl
@[simp] theorem State.setCap_cmps (n : Nat) (x : Cap) : (s.setCap n x).cmps = s.cmps := rfl
@[simp] theorem State.setCap_chans (n : Nat) (x : Cap) : (s.setCap n x).chans = s.chans := rfl
@[simp] theorem State.setCap_sched (n : Nat) (x : Cap) : (s.setCap n x).sched = s.sched := rfl
@[simp] theorem State.setCap_movers (n : Nat) (x : Cap) : (s.setCap n x).movers = s.movers := rfl
@[simp] theorem State.setCap_queues (n : Nat) (x : Cap) : (s.setCap n x).queues = s.queues := rfl
@[simp] theorem State.setCap_xl (n : Nat) (x : Cap) : (s.setCap n x).xl = s.xl := rfl
@[simp] theorem State.setCap_outs (n : Nat) (x : Cap) : (s.setCap n x).outs = s.outs := rfl
@[simp] theorem State.setCap_lws (n : Nat) (x : Cap) : (s.setCap n x).lws = s.lws := rfl
@[simp] theorem State.setCap_net (n : Nat) (x : Cap) : (s.setCap n x).net = s.net := rfl
@[simp] theorem State.setCap_irq (n : Nat) (x : Cap) : (s.setCap n x).irq = s.irq := rfl
@[simp] theorem State.setCap_und (n : Nat) (x : Cap) : (s.setCap n x).und = s.und := rfl
@[simp] theorem State.setCap_mbox (n : Nat) (x : Cap) : (s.setCap n x).mbox = s.mbox := rfl
@[simp] theorem State.setCap_cores (n : Nat) (x : Cap) : (s.setCap n x).cores = s.cores := rfl
@[simp] theorem State.setCap_mem (n : Nat) (x : Cap) : (s.setCap n x).mem = s.mem := rfl
@[simp] theorem State.setCap_fc (n : Nat) (x : Cap) : (s.setCap n x).fc = s.fc := rfl
@[simp] theorem State.setCap_rst (n : Nat) (x : Cap) : (s.setCap n x).rst = s.rst := rfl
@[simp] theorem State.setCap_boot (n : Nat) (x : Cap) : (s.setCap n x).boot = s.boot := rfl
@[simp] theorem State.setCap_svc (n : Nat) (x : Cap) : (s.setCap n x).svc = s.svc := rfl
@[simp] theorem State.setCap_latches (n : Nat) (x : Cap) : (s.setCap n x).latches = s.latches := rfl
@[simp] theorem State.setCap_out (n : Nat) (x : Cap) : (s.setCap n x).out = s.out := rfl
@[simp] theorem State.setCap_free (n : Nat) (x : Cap) : (s.setCap n x).free = s.free := rfl
@[simp] theorem State.setCap_pending (n : Nat) (x : Cap) : (s.setCap n x).pending = s.pending := rfl
@[simp] theorem State.setCap_cell (n : Nat) (x : Cap) (k : Nat) : (s.setCap n x).cell k = s.cell k := rfl
@[simp] theorem State.setCap_enc (n : Nat) (x : Cap) (k : Nat) : (s.setCap n x).enc k = s.enc k := rfl
@[simp] theorem State.setCap_ser (n : Nat) (x : Cap) (k : Nat) : (s.setCap n x).ser k = s.ser k := rfl
@[simp] theorem State.setCap_mainsIn (n : Nat) (x : Cap) (k : Nat) : (s.setCap n x).mainsIn k = s.mainsIn k := rfl
@[simp] theorem State.setCap_cmp (n : Nat) (x : Cap) (k : Nat) : (s.setCap n x).cmp k = s.cmp k := rfl
@[simp] theorem State.setCap_chan (n : Nat) (x : Cap) (k : Nat) : (s.setCap n x).chan k = s.chan k := rfl
@[simp] theorem State.setCap_wq (n : Nat) (x : Cap) (k : Nat) : (s.setCap n x).wq k = s.wq k := rfl
@[simp] theorem State.setCap_eq (n : Nat) (x : Cap) (k : Nat) : (s.setCap n x).eq k = s.eq k := rfl
@[simp] theorem State.setCap_dom (n : Nat) (x : Cap) (k : Nat) : (s.setCap n x).dom k = s.dom k := rfl
@[simp] theorem State.setCap_fq (n : Nat) (x : Cap) (k : Nat) : (s.setCap n x).fq k = s.fq k := rfl
@[simp] theorem State.setCap_win (n : Nat) (x : Cap) (k : Nat) : (s.setCap n x).win k = s.win k := rfl
@[simp] theorem State.setCap_ou (n : Nat) (x : Cap) (k : Nat) : (s.setCap n x).ou k = s.ou k := rfl
@[simp] theorem State.setCap_pin (n : Nat) (x : Cap) (k : Nat) : (s.setCap n x).pin k = s.pin k := rfl
@[simp] theorem State.setCap_permitIn (n : Nat) (x : Cap) (k : Nat) : (s.setCap n x).permitIn k = s.permitIn k := rfl
@[simp] theorem State.setCap_port (n : Nat) (x : Cap) (k : Nat) : (s.setCap n x).port k = s.port k := rfl
@[simp] theorem State.setCap_txq (n : Nat) (x : Cap) (k : Nat) : (s.setCap n x).txq k = s.txq k := rfl
@[simp] theorem State.setCap_stream (n : Nat) (x : Cap) (k : Nat) : (s.setCap n x).stream k = s.stream k := rfl
@[simp] theorem State.setCap_yz (n : Nat) (x : Cap) : (s.setCap n x).yz = s.yz := rfl
@[simp] theorem State.setCap_vec (n : Nat) (x : Cap) (k : Nat) : (s.setCap n x).vec k = s.vec k := rfl
@[simp] theorem State.setCap_cic (n : Nat) (x : Cap) (k : Nat) : (s.setCap n x).cic k = s.cic k := rfl
@[simp] theorem State.setCap_mb (n : Nat) (x : Cap) (k : Nat) : (s.setCap n x).mb k = s.mb k := rfl
@[simp] theorem State.setCap_core (n : Nat) (x : Cap) (k : Nat) : (s.setCap n x).core k = s.core k := rfl

@[simp] theorem State.setChan_now (n : Nat) (x : Chan) : (s.setChan n x).now = s.now := rfl
@[simp] theorem State.setChan_axes (n : Nat) (x : Chan) : (s.setChan n x).axes = s.axes := rfl
@[simp] theorem State.setChan_cmps (n : Nat) (x : Chan) : (s.setChan n x).cmps = s.cmps := rfl
@[simp] theorem State.setChan_caps (n : Nat) (x : Chan) : (s.setChan n x).caps = s.caps := rfl
@[simp] theorem State.setChan_sched (n : Nat) (x : Chan) : (s.setChan n x).sched = s.sched := rfl
@[simp] theorem State.setChan_movers (n : Nat) (x : Chan) : (s.setChan n x).movers = s.movers := rfl
@[simp] theorem State.setChan_queues (n : Nat) (x : Chan) : (s.setChan n x).queues = s.queues := rfl
@[simp] theorem State.setChan_xl (n : Nat) (x : Chan) : (s.setChan n x).xl = s.xl := rfl
@[simp] theorem State.setChan_outs (n : Nat) (x : Chan) : (s.setChan n x).outs = s.outs := rfl
@[simp] theorem State.setChan_lws (n : Nat) (x : Chan) : (s.setChan n x).lws = s.lws := rfl
@[simp] theorem State.setChan_net (n : Nat) (x : Chan) : (s.setChan n x).net = s.net := rfl
@[simp] theorem State.setChan_irq (n : Nat) (x : Chan) : (s.setChan n x).irq = s.irq := rfl
@[simp] theorem State.setChan_und (n : Nat) (x : Chan) : (s.setChan n x).und = s.und := rfl
@[simp] theorem State.setChan_mbox (n : Nat) (x : Chan) : (s.setChan n x).mbox = s.mbox := rfl
@[simp] theorem State.setChan_cores (n : Nat) (x : Chan) : (s.setChan n x).cores = s.cores := rfl
@[simp] theorem State.setChan_mem (n : Nat) (x : Chan) : (s.setChan n x).mem = s.mem := rfl
@[simp] theorem State.setChan_fc (n : Nat) (x : Chan) : (s.setChan n x).fc = s.fc := rfl
@[simp] theorem State.setChan_rst (n : Nat) (x : Chan) : (s.setChan n x).rst = s.rst := rfl
@[simp] theorem State.setChan_boot (n : Nat) (x : Chan) : (s.setChan n x).boot = s.boot := rfl
@[simp] theorem State.setChan_svc (n : Nat) (x : Chan) : (s.setChan n x).svc = s.svc := rfl
@[simp] theorem State.setChan_latches (n : Nat) (x : Chan) : (s.setChan n x).latches = s.latches := rfl
@[simp] theorem State.setChan_out (n : Nat) (x : Chan) : (s.setChan n x).out = s.out := rfl
@[simp] theorem State.setChan_free (n : Nat) (x : Chan) : (s.setChan n x).free = s.free := rfl
@[simp] theorem State.setChan_pending (n : Nat) (x : Chan) : (s.setChan n x).pending = s.pending := rfl
@[simp] theorem State.setChan_cell (n : Nat) (x : Chan) (k : Nat) : (s.setChan n x).cell k = s.cell k := rfl
@[simp] theorem State.setChan_enc (n : Nat) (x : Chan) (k : Nat) : (s.setChan n x).enc k = s.enc k := rfl
@[simp] theorem State.setChan_ser (n : Nat) (x : Chan) (k : Nat) : (s.setChan n x).ser k = s.ser k := rfl
@[simp] theorem State.setChan_mainsIn (n : Nat) (x : Chan) (k : Nat) : (s.setChan n x).mainsIn k = s.mainsIn k := rfl
@[simp] theorem State.setChan_cmp (n : Nat) (x : Chan) (k : Nat) : (s.setChan n x).cmp k = s.cmp k := rfl
@[simp] theorem State.setChan_cap (n : Nat) (x : Chan) (k : Nat) : (s.setChan n x).cap k = s.cap k := rfl
@[simp] theorem State.setChan_wq (n : Nat) (x : Chan) (k : Nat) : (s.setChan n x).wq k = s.wq k := rfl
@[simp] theorem State.setChan_eq (n : Nat) (x : Chan) (k : Nat) : (s.setChan n x).eq k = s.eq k := rfl
@[simp] theorem State.setChan_dom (n : Nat) (x : Chan) (k : Nat) : (s.setChan n x).dom k = s.dom k := rfl
@[simp] theorem State.setChan_fq (n : Nat) (x : Chan) (k : Nat) : (s.setChan n x).fq k = s.fq k := rfl
@[simp] theorem State.setChan_win (n : Nat) (x : Chan) (k : Nat) : (s.setChan n x).win k = s.win k := rfl
@[simp] theorem State.setChan_ou (n : Nat) (x : Chan) (k : Nat) : (s.setChan n x).ou k = s.ou k := rfl
@[simp] theorem State.setChan_pin (n : Nat) (x : Chan) (k : Nat) : (s.setChan n x).pin k = s.pin k := rfl
@[simp] theorem State.setChan_permitIn (n : Nat) (x : Chan) (k : Nat) : (s.setChan n x).permitIn k = s.permitIn k := rfl
@[simp] theorem State.setChan_port (n : Nat) (x : Chan) (k : Nat) : (s.setChan n x).port k = s.port k := rfl
@[simp] theorem State.setChan_txq (n : Nat) (x : Chan) (k : Nat) : (s.setChan n x).txq k = s.txq k := rfl
@[simp] theorem State.setChan_stream (n : Nat) (x : Chan) (k : Nat) : (s.setChan n x).stream k = s.stream k := rfl
@[simp] theorem State.setChan_yz (n : Nat) (x : Chan) : (s.setChan n x).yz = s.yz := rfl
@[simp] theorem State.setChan_vec (n : Nat) (x : Chan) (k : Nat) : (s.setChan n x).vec k = s.vec k := rfl
@[simp] theorem State.setChan_cic (n : Nat) (x : Chan) (k : Nat) : (s.setChan n x).cic k = s.cic k := rfl
@[simp] theorem State.setChan_mb (n : Nat) (x : Chan) (k : Nat) : (s.setChan n x).mb k = s.mb k := rfl
@[simp] theorem State.setChan_core (n : Nat) (x : Chan) (k : Nat) : (s.setChan n x).core k = s.core k := rfl

@[simp] theorem State.setWq_now (n : Nat) (x : WQ) : (s.setWq n x).now = s.now := rfl
@[simp] theorem State.setWq_axes (n : Nat) (x : WQ) : (s.setWq n x).axes = s.axes := rfl
@[simp] theorem State.setWq_cmps (n : Nat) (x : WQ) : (s.setWq n x).cmps = s.cmps := rfl
@[simp] theorem State.setWq_caps (n : Nat) (x : WQ) : (s.setWq n x).caps = s.caps := rfl
@[simp] theorem State.setWq_chans (n : Nat) (x : WQ) : (s.setWq n x).chans = s.chans := rfl
@[simp] theorem State.setWq_sched (n : Nat) (x : WQ) : (s.setWq n x).sched = s.sched := rfl
@[simp] theorem State.setWq_movers (n : Nat) (x : WQ) : (s.setWq n x).movers = s.movers := rfl
@[simp] theorem State.setWq_queues_baseLo (n : Nat) (x : WQ) : (s.setWq n x).queues.baseLo = s.queues.baseLo := rfl
@[simp] theorem State.setWq_queues_baseHi (n : Nat) (x : WQ) : (s.setWq n x).queues.baseHi = s.queues.baseHi := rfl
@[simp] theorem State.setWq_queues_cfg (n : Nat) (x : WQ) : (s.setWq n x).queues.cfg = s.queues.cfg := rfl
@[simp] theorem State.setWq_queues_eqs (n : Nat) (x : WQ) : (s.setWq n x).queues.eqs = s.queues.eqs := rfl
@[simp] theorem State.setWq_queues_last (n : Nat) (x : WQ) : (s.setWq n x).queues.last = s.queues.last := rfl
@[simp] theorem State.setWq_xl (n : Nat) (x : WQ) : (s.setWq n x).xl = s.xl := rfl
@[simp] theorem State.setWq_outs (n : Nat) (x : WQ) : (s.setWq n x).outs = s.outs := rfl
@[simp] theorem State.setWq_lws (n : Nat) (x : WQ) : (s.setWq n x).lws = s.lws := rfl
@[simp] theorem State.setWq_net (n : Nat) (x : WQ) : (s.setWq n x).net = s.net := rfl
@[simp] theorem State.setWq_irq (n : Nat) (x : WQ) : (s.setWq n x).irq = s.irq := rfl
@[simp] theorem State.setWq_und (n : Nat) (x : WQ) : (s.setWq n x).und = s.und := rfl
@[simp] theorem State.setWq_mbox (n : Nat) (x : WQ) : (s.setWq n x).mbox = s.mbox := rfl
@[simp] theorem State.setWq_cores (n : Nat) (x : WQ) : (s.setWq n x).cores = s.cores := rfl
@[simp] theorem State.setWq_mem (n : Nat) (x : WQ) : (s.setWq n x).mem = s.mem := rfl
@[simp] theorem State.setWq_fc (n : Nat) (x : WQ) : (s.setWq n x).fc = s.fc := rfl
@[simp] theorem State.setWq_rst (n : Nat) (x : WQ) : (s.setWq n x).rst = s.rst := rfl
@[simp] theorem State.setWq_boot (n : Nat) (x : WQ) : (s.setWq n x).boot = s.boot := rfl
@[simp] theorem State.setWq_svc (n : Nat) (x : WQ) : (s.setWq n x).svc = s.svc := rfl
@[simp] theorem State.setWq_latches (n : Nat) (x : WQ) : (s.setWq n x).latches = s.latches := rfl
@[simp] theorem State.setWq_out (n : Nat) (x : WQ) : (s.setWq n x).out = s.out := rfl
@[simp] theorem State.setWq_free (n : Nat) (x : WQ) : (s.setWq n x).free = s.free := rfl
@[simp] theorem State.setWq_pending (n : Nat) (x : WQ) : (s.setWq n x).pending = s.pending := rfl
@[simp] theorem State.setWq_cell (n : Nat) (x : WQ) (k : Nat) : (s.setWq n x).cell k = s.cell k := rfl
@[simp] theorem State.setWq_enc (n : Nat) (x : WQ) (k : Nat) : (s.setWq n x).enc k = s.enc k := rfl
@[simp] theorem State.setWq_ser (n : Nat) (x : WQ) (k : Nat) : (s.setWq n x).ser k = s.ser k := rfl
@[simp] theorem State.setWq_mainsIn (n : Nat) (x : WQ) (k : Nat) : (s.setWq n x).mainsIn k = s.mainsIn k := rfl
@[simp] theorem State.setWq_cmp (n : Nat) (x : WQ) (k : Nat) : (s.setWq n x).cmp k = s.cmp k := rfl
@[simp] theorem State.setWq_cap (n : Nat) (x : WQ) (k : Nat) : (s.setWq n x).cap k = s.cap k := rfl
@[simp] theorem State.setWq_chan (n : Nat) (x : WQ) (k : Nat) : (s.setWq n x).chan k = s.chan k := rfl
@[simp] theorem State.setWq_eq (n : Nat) (x : WQ) (k : Nat) : (s.setWq n x).eq k = s.eq k := rfl
@[simp] theorem State.setWq_dom (n : Nat) (x : WQ) (k : Nat) : (s.setWq n x).dom k = s.dom k := rfl
@[simp] theorem State.setWq_fq (n : Nat) (x : WQ) (k : Nat) : (s.setWq n x).fq k = s.fq k := rfl
@[simp] theorem State.setWq_win (n : Nat) (x : WQ) (k : Nat) : (s.setWq n x).win k = s.win k := rfl
@[simp] theorem State.setWq_ou (n : Nat) (x : WQ) (k : Nat) : (s.setWq n x).ou k = s.ou k := rfl
@[simp] theorem State.setWq_pin (n : Nat) (x : WQ) (k : Nat) : (s.setWq n x).pin k = s.pin k := rfl
@[simp] theorem State.setWq_permitIn (n : Nat) (x : WQ) (k : Nat) : (s.setWq n x).permitIn k = s.permitIn k := rfl
@[simp] theorem State.setWq_port (n : Nat) (x : WQ) (k : Nat) : (s.setWq n x).port k = s.port k := rfl
@[simp] theorem State.setWq_txq (n : Nat) (x : WQ) (k : Nat) : (s.setWq n x).txq k = s.txq k := rfl
@[simp] theorem State.setWq_stream (n : Nat) (x : WQ) (k : Nat) : (s.setWq n x).stream k = s.stream k := rfl
@[simp] theorem State.setWq_yz (n : Nat) (x : WQ) : (s.setWq n x).yz = s.yz := rfl
@[simp] theorem State.setWq_vec (n : Nat) (x : WQ) (k : Nat) : (s.setWq n x).vec k = s.vec k := rfl
@[simp] theorem State.setWq_cic (n : Nat) (x : WQ) (k : Nat) : (s.setWq n x).cic k = s.cic k := rfl
@[simp] theorem State.setWq_mb (n : Nat) (x : WQ) (k : Nat) : (s.setWq n x).mb k = s.mb k := rfl
@[simp] theorem State.setWq_core (n : Nat) (x : WQ) (k : Nat) : (s.setWq n x).core k = s.core k := rfl

@[simp] theorem State.setEq_now (n : Nat) (x : EQ) : (s.setEq n x).now = s.now := rfl
@[simp] theorem State.setEq_axes (n : Nat) (x : EQ) : (s.setEq n x).axes = s.axes := rfl
@[simp] theorem State.setEq_cmps (n : Nat) (x : EQ) : (s.setEq n x).cmps = s.cmps := rfl
@[simp] theorem State.setEq_caps (n : Nat) (x : EQ) : (s.setEq n x).caps = s.caps := rfl
@[simp] theorem State.setEq_chans (n : Nat) (x : EQ) : (s.setEq n x).chans = s.chans := rfl
@[simp] theorem State.setEq_sched (n : Nat) (x : EQ) : (s.setEq n x).sched = s.sched := rfl
@[simp] theorem State.setEq_movers (n : Nat) (x : EQ) : (s.setEq n x).movers = s.movers := rfl
@[simp] theorem State.setEq_queues_baseLo (n : Nat) (x : EQ) : (s.setEq n x).queues.baseLo = s.queues.baseLo := rfl
@[simp] theorem State.setEq_queues_baseHi (n : Nat) (x : EQ) : (s.setEq n x).queues.baseHi = s.queues.baseHi := rfl
@[simp] theorem State.setEq_queues_cfg (n : Nat) (x : EQ) : (s.setEq n x).queues.cfg = s.queues.cfg := rfl
@[simp] theorem State.setEq_queues_wqs (n : Nat) (x : EQ) : (s.setEq n x).queues.wqs = s.queues.wqs := rfl
@[simp] theorem State.setEq_queues_last (n : Nat) (x : EQ) : (s.setEq n x).queues.last = s.queues.last := rfl
@[simp] theorem State.setEq_xl (n : Nat) (x : EQ) : (s.setEq n x).xl = s.xl := rfl
@[simp] theorem State.setEq_outs (n : Nat) (x : EQ) : (s.setEq n x).outs = s.outs := rfl
@[simp] theorem State.setEq_lws (n : Nat) (x : EQ) : (s.setEq n x).lws = s.lws := rfl
@[simp] theorem State.setEq_net (n : Nat) (x : EQ) : (s.setEq n x).net = s.net := rfl
@[simp] theorem State.setEq_irq (n : Nat) (x : EQ) : (s.setEq n x).irq = s.irq := rfl
@[simp] theorem State.setEq_und (n : Nat) (x : EQ) : (s.setEq n x).und = s.und := rfl
@[simp] theorem State.setEq_mbox (n : Nat) (x : EQ) : (s.setEq n x).mbox = s.mbox := rfl
@[simp] theorem State.setEq_cores (n : Nat) (x : EQ) : (s.setEq n x).cores = s.cores := rfl
@[simp] theorem State.setEq_mem (n : Nat) (x : EQ) : (s.setEq n x).mem = s.mem := rfl
@[simp] theorem State.setEq_fc (n : Nat) (x : EQ) : (s.setEq n x).fc = s.fc := rfl
@[simp] theorem State.setEq_rst (n : Nat) (x : EQ) : (s.setEq n x).rst = s.rst := rfl
@[simp] theorem State.setEq_boot (n : Nat) (x : EQ) : (s.setEq n x).boot = s.boot := rfl
@[simp] theorem State.setEq_svc (n : Nat) (x : EQ) : (s.setEq n x).svc = s.svc := rfl
@[simp] theorem State.setEq_latches (n : Nat) (x : EQ) : (s.setEq n x).latches = s.latches := rfl
@[simp] theorem State.setEq_out (n : Nat) (x : EQ) : (s.setEq n x).out = s.out := rfl
@[simp] theorem State.setEq_free (n : Nat) (x : EQ) : (s.setEq n x).free = s.free := rfl
@[simp] theorem State.setEq_pending (n : Nat) (x : EQ) : (s.setEq n x).pending = s.pending := rfl
@[simp] theorem State.setEq_cell (n : Nat) (x : EQ) (k : Nat) : (s.setEq n x).cell k = s.cell k := rfl
@[simp] theorem State.setEq_enc (n : Nat) (x : EQ) (k : Nat) : (s.setEq n x).enc k = s.enc k := rfl
@[simp] theorem State.setEq_ser (n : Nat) (x : EQ) (k : Nat) : (s.setEq n x).ser k = s.ser k := rfl
@[simp] theorem State.setEq_mainsIn (n : Nat) (x : EQ) (k : Nat) : (s.setEq n x).mainsIn k = s.mainsIn k := rfl
@[simp] theorem State.setEq_cmp (n : Nat) (x : EQ) (k : Nat) : (s.setEq n x).cmp k = s.cmp k := rfl
@[simp] theorem State.setEq_cap (n : Nat) (x : EQ) (k : Nat) : (s.setEq n x).cap k = s.cap k := rfl
@[simp] theorem State.setEq_chan (n : Nat) (x : EQ) (k : Nat) : (s.setEq n x).chan k = s.chan k := rfl
@[simp] theorem State.setEq_wq (n : Nat) (x : EQ) (k : Nat) : (s.setEq n x).wq k = s.wq k := rfl
@[simp] theorem State.setEq_dom (n : Nat) (x : EQ) (k : Nat) : (s.setEq n x).dom k = s.dom k := rfl
@[simp] theorem State.setEq_fq (n : Nat) (x : EQ) (k : Nat) : (s.setEq n x).fq k = s.fq k := rfl
@[simp] theorem State.setEq_win (n : Nat) (x : EQ) (k : Nat) : (s.setEq n x).win k = s.win k := rfl
@[simp] theorem State.setEq_ou (n : Nat) (x : EQ) (k : Nat) : (s.setEq n x).ou k = s.ou k := rfl
@[simp] theorem State.setEq_pin (n : Nat) (x : EQ) (k : Nat) : (s.setEq n x).pin k = s.pin k := rfl
@[simp] theorem State.setEq_permitIn (n : Nat) (x : EQ) (k : Nat) : (s.setEq n x).permitIn k = s.permitIn k := rfl
@[simp] theorem State.setEq_port (n : Nat) (x : EQ) (k : Nat) : (s.setEq n x).port k = s.port k := rfl
@[simp] theorem State.setEq_txq (n : Nat) (x : EQ) (k : Nat) : (s.setEq n x).txq k = s.txq k := rfl
@[simp] theorem State.setEq_stream (n : Nat) (x : EQ) (k : Nat) : (s.setEq n x).stream k = s.stream k := rfl
@[simp] theorem State.setEq_yz (n : Nat) (x : EQ) : (s.setEq n x).yz = s.yz := rfl
@[simp] theorem State.setEq_vec (n : Nat) (x : EQ) (k : Nat) : (s.setEq n x).vec k = s.vec k := rfl
@[simp] theorem State.setEq_cic (n : Nat) (x : EQ) (k : Nat) : (s.setEq n x).cic k = s.cic k := rfl
@[simp] theorem State.setEq_mb (n : Nat) (x : EQ) (k : Nat) : (s.setEq n x).mb k = s.mb k := rfl
@[simp] theorem State.setEq_core (n : Nat) (x : EQ) (k : Nat) : (s.setEq n x).core k = s.core k := rfl

@[simp] theorem State.setDom_now (n : Nat) (x : Dom) : (s.setDom n x).now = s.now := rfl
@[simp] theorem State.setDom_axes (n : Nat) (x : Dom) : (s.setDom n x).axes = s.axes := rfl
@[simp] theorem State.setDom_cmps (n : Nat) (x : Dom) : (s.setDom n x).cmps = s.cmps := rfl
@[simp] theorem State.setDom_caps (n : Nat) (x : Dom) : (s.setDom n x).caps = s.caps := rfl
@[simp] theorem State.setDom_chans (n : Nat) (x : Dom) : (s.setDom n x).chans = s.chans := rfl
@[simp] theorem State.setDom_sched (n : Nat) (x : Dom) : (s.setDom n x).sched = s.sched := rfl
@[simp] theorem State.setDom_movers (n : Nat) (x : Dom) : (s.setDom n x).movers = s.movers := rfl
@[simp] theorem State.setDom_queues (n : Nat) (x : Dom) : (s.setDom n x).queues = s.queues := rfl
@[simp] theorem State.setDom_xl_fqs (n : Nat) (x : Dom) : (s.setDom n x).xl.fqs = s.xl.fqs := rfl
@[simp] theorem State.setDom_xl_wins (n : Nat) (x : Dom) : (s.setDom n x).xl.wins = s.xl.wins := rfl
@[simp] theorem State.setDom_xl_cache (n : Nat) (x : Dom) : (s.setDom n x).xl.cache = s.xl.cache := rfl
@[simp] theorem State.setDom_xl_walks (n : Nat) (x : Dom) : (s.setDom n x).xl.walks = s.xl.walks := rfl
@[simp] theorem State.setDom_xl_answers (n : Nat) (x : Dom) : (s.setDom n x).xl.answers = s.xl.answers := rfl
@[simp] theorem State.setDom_xl_inv (n : Nat) (x : Dom) : (s.setDom n x).xl.inv = s.xl.inv := rfl
@[simp] theorem State.setDom_outs (n : Nat) (x : Dom) : (s.setDom n x).outs = s.outs := rfl
@[simp] theorem State.setDom_lws (n : Nat) (x : Dom) : (s.setDom n x).lws = s.lws := rfl
@[simp] theorem State.setDom_net (n : Nat) (x : Dom) : (s.setDom n x).net = s.net := rfl
@[simp] theorem State.setDom_irq (n : Nat) (x : Dom) : (s.setDom n x).irq = s.irq := rfl
@[simp] theorem State.setDom_und (n : Nat) (x : Dom) : (s.setDom n x).und = s.und := rfl
@[simp] theorem State.setDom_mbox (n : Nat) (x : Dom) : (s.setDom n x).mbox = s.mbox := rfl
@[simp] theorem State.setDom_cores (n : Nat) (x : Dom) : (s.setDom n x).cores = s.cores := rfl
@[simp] theorem State.setDom_mem (n : Nat) (x : Dom) : (s.setDom n x).mem = s.mem := rfl
@[simp] theorem State.setDom_fc (n : Nat) (x : Dom) : (s.setDom n x).fc = s.fc := rfl
@[simp] theorem State.setDom_rst (n : Nat) (x : Dom) : (s.setDom n x).rst = s.rst := rfl
@[simp] theorem State.setDom_boot (n : Nat) (x : Dom) : (s.setDom n x).boot = s.boot := rfl
@[simp] theorem State.setDom_svc (n : Nat) (x : Dom) : (s.setDom n x).svc = s.svc := rfl
@[simp] theorem State.setDom_latches (n : Nat) (x : Dom) : (s.setDom n x).latches = s.latches := rfl
@[simp] theorem State.setDom_out (n : Nat) (x : Dom) : (s.setDom n x).out = s.out := rfl
@[simp] theorem State.setDom_free (n : Nat) (x : Dom) : (s.setDom n x).free = s.free := rfl
@[simp] theorem State.setDom_pending (n : Nat) (x : Dom) : (s.setDom n x).pending = s.pending := rfl
@[simp] theorem State.setDom_cell (n : Nat) (x : Dom) (k : Nat) : (s.setDom n x).cell k = s.cell k := rfl
@[simp] theorem State.setDom_enc (n : Nat) (x : Dom) (k : Nat) : (s.setDom n x).enc k = s.enc k := rfl
@[simp] theorem State.setDom_ser (n : Nat) (x : Dom) (k : Nat) : (s.setDom n x).ser k = s.ser k := rfl
@[simp] theorem State.setDom_mainsIn (n : Nat) (x : Dom) (k : Nat) : (s.setDom n x).mainsIn k = s.mainsIn k := rfl
@[simp] theorem State.setDom_cmp (n : Nat) (x : Dom) (k : Nat) : (s.setDom n x).cmp k = s.cmp k := rfl
@[simp] theorem State.setDom_cap (n : Nat) (x : Dom) (k : Nat) : (s.setDom n x).cap k = s.cap k := rfl
@[simp] theorem State.setDom_chan (n : Nat) (x : Dom) (k : Nat) : (s.setDom n x).chan k = s.chan k := rfl
@[simp] theorem State.setDom_wq (n : Nat) (x : Dom) (k : Nat) : (s.setDom n x).wq k = s.wq k := rfl
@[simp] theorem State.setDom_eq (n : Nat) (x : Dom) (k : Nat) : (s.setDom n x).eq k = s.eq k := rfl
@[simp] theorem State.setDom_fq (n : Nat) (x : Dom) (k : Nat) : (s.setDom n x).fq k = s.fq k := rfl
@[simp] theorem State.setDom_win (n : Nat) (x : Dom) (k : Nat) : (s.setDom n x).win k = s.win k := rfl
@[simp] theorem State.setDom_ou (n : Nat) (x : Dom) (k : Nat) : (s.setDom n x).ou k = s.ou k := rfl
@[simp] theorem State.setDom_pin (n : Nat) (x : Dom) (k : Nat) : (s.setDom n x).pin k = s.pin k := rfl
@[simp] theorem State.setDom_permitIn (n : Nat) (x : Dom) (k : Nat) : (s.setDom n x).permitIn k = s.permitIn k := rfl
@[simp] theorem State.setDom_port (n : Nat) (x : Dom) (k : Nat) : (s.setDom n x).port k = s.port k := rfl
@[simp] theorem State.setDom_txq (n : Nat) (x : Dom) (k : Nat) : (s.setDom n x).txq k = s.txq k := rfl
@[simp] theorem State.setDom_stream (n : Nat) (x : Dom) (k : Nat) : (s.setDom n x).stream k = s.stream k := rfl
@[simp] theorem State.setDom_yz (n : Nat) (x : Dom) : (s.setDom n x).yz = s.yz := rfl
@[simp] theorem State.setDom_vec (n : Nat) (x : Dom) (k : Nat) : (s.setDom n x).vec k = s.vec k := rfl
@[simp] theorem State.setDom_cic (n : Nat) (x : Dom) (k : Nat) : (s.setDom n x).cic k = s.cic k := rfl
@[simp] theorem State.setDom_mb (n : Nat) (x : Dom) (k : Nat) : (s.setDom n x).mb k = s.mb k := rfl
@[simp] theorem State.setDom_core (n : Nat) (x : Dom) (k : Nat) : (s.setDom n x).core k = s.core k := rfl

@[simp] theorem State.setFq_now (n : Nat) (x : FQ) : (s.setFq n x).now = s.now := rfl
@[simp] theorem State.setFq_axes (n : Nat) (x : FQ) : (s.setFq n x).axes = s.axes := rfl
@[simp] theorem State.setFq_cmps (n : Nat) (x : FQ) : (s.setFq n x).cmps = s.cmps := rfl
@[simp] theorem State.setFq_caps (n : Nat) (x : FQ) : (s.setFq n x).caps = s.caps := rfl
@[simp] theorem State.setFq_chans (n : Nat) (x : FQ) : (s.setFq n x).chans = s.chans := rfl
@[simp] theorem State.setFq_sched (n : Nat) (x : FQ) : (s.setFq n x).sched = s.sched := rfl
@[simp] theorem State.setFq_movers (n : Nat) (x : FQ) : (s.setFq n x).movers = s.movers := rfl
@[simp] theorem State.setFq_queues (n : Nat) (x : FQ) : (s.setFq n x).queues = s.queues := rfl
@[simp] theorem State.setFq_xl_doms (n : Nat) (x : FQ) : (s.setFq n x).xl.doms = s.xl.doms := rfl
@[simp] theorem State.setFq_xl_wins (n : Nat) (x : FQ) : (s.setFq n x).xl.wins = s.xl.wins := rfl
@[simp] theorem State.setFq_xl_cache (n : Nat) (x : FQ) : (s.setFq n x).xl.cache = s.xl.cache := rfl
@[simp] theorem State.setFq_xl_walks (n : Nat) (x : FQ) : (s.setFq n x).xl.walks = s.xl.walks := rfl
@[simp] theorem State.setFq_xl_answers (n : Nat) (x : FQ) : (s.setFq n x).xl.answers = s.xl.answers := rfl
@[simp] theorem State.setFq_xl_inv (n : Nat) (x : FQ) : (s.setFq n x).xl.inv = s.xl.inv := rfl
@[simp] theorem State.setFq_outs (n : Nat) (x : FQ) : (s.setFq n x).outs = s.outs := rfl
@[simp] theorem State.setFq_lws (n : Nat) (x : FQ) : (s.setFq n x).lws = s.lws := rfl
@[simp] theorem State.setFq_net (n : Nat) (x : FQ) : (s.setFq n x).net = s.net := rfl
@[simp] theorem State.setFq_irq (n : Nat) (x : FQ) : (s.setFq n x).irq = s.irq := rfl
@[simp] theorem State.setFq_und (n : Nat) (x : FQ) : (s.setFq n x).und = s.und := rfl
@[simp] theorem State.setFq_mbox (n : Nat) (x : FQ) : (s.setFq n x).mbox = s.mbox := rfl
@[simp] theorem State.setFq_cores (n : Nat) (x : FQ) : (s.setFq n x).cores = s.cores := rfl
@[simp] theorem State.setFq_mem (n : Nat) (x : FQ) : (s.setFq n x).mem = s.mem := rfl
@[simp] theorem State.setFq_fc (n : Nat) (x : FQ) : (s.setFq n x).fc = s.fc := rfl
@[simp] theorem State.setFq_rst (n : Nat) (x : FQ) : (s.setFq n x).rst = s.rst := rfl
@[simp] theorem State.setFq_boot (n : Nat) (x : FQ) : (s.setFq n x).boot = s.boot := rfl
@[simp] theorem State.setFq_svc (n : Nat) (x : FQ) : (s.setFq n x).svc = s.svc := rfl
@[simp] theorem State.setFq_latches (n : Nat) (x : FQ) : (s.setFq n x).latches = s.latches := rfl
@[simp] theorem State.setFq_out (n : Nat) (x : FQ) : (s.setFq n x).out = s.out := rfl
@[simp] theorem State.setFq_free (n : Nat) (x : FQ) : (s.setFq n x).free = s.free := rfl
@[simp] theorem State.setFq_pending (n : Nat) (x : FQ) : (s.setFq n x).pending = s.pending := rfl
@[simp] theorem State.setFq_cell (n : Nat) (x : FQ) (k : Nat) : (s.setFq n x).cell k = s.cell k := rfl
@[simp] theorem State.setFq_enc (n : Nat) (x : FQ) (k : Nat) : (s.setFq n x).enc k = s.enc k := rfl
@[simp] theorem State.setFq_ser (n : Nat) (x : FQ) (k : Nat) : (s.setFq n x).ser k = s.ser k := rfl
@[simp] theorem State.setFq_mainsIn (n : Nat) (x : FQ) (k : Nat) : (s.setFq n x).mainsIn k = s.mainsIn k := rfl
@[simp] theorem State.setFq_cmp (n : Nat) (x : FQ) (k : Nat) : (s.setFq n x).cmp k = s.cmp k := rfl
@[simp] theorem State.setFq_cap (n : Nat) (x : FQ) (k : Nat) : (s.setFq n x).cap k = s.cap k := rfl
@[simp] theorem State.setFq_chan (n : Nat) (x : FQ) (k : Nat) : (s.setFq n x).chan k = s.chan k := rfl
@[simp] theorem State.setFq_wq (n : Nat) (x : FQ) (k : Nat) : (s.setFq n x).wq k = s.wq k := rfl
@[simp] theorem State.setFq_eq (n : Nat) (x : FQ) (k : Nat) : (s.setFq n x).eq k = s.eq k := rfl
@[simp] theorem State.setFq_dom (n : Nat) (x : FQ) (k : Nat) : (s.setFq n x).dom k = s.dom k := rfl
@[simp] theorem State.setFq_win (n : Nat) (x : FQ) (k : Nat) : (s.setFq n x).win k = s.win k := rfl
@[simp] theorem State.setFq_ou (n : Nat) (x : FQ) (k : Nat) : (s.setFq n x).ou k = s.ou k := rfl
@[simp] theorem State.setFq_pin (n : Nat) (x : FQ) (k : Nat) : (s.setFq n x).pin k = s.pin k := rfl
@[simp] theorem State.setFq_permitIn (n : Nat) (x : FQ) (k : Nat) : (s.setFq n x).permitIn k = s.permitIn k := rfl
@[simp] theorem State.setFq_port (n : Nat) (x : FQ) (k : Nat) : (s.setFq n x).port k = s.port k := rfl
@[simp] theorem State.setFq_txq (n : Nat) (x : FQ) (k : Nat) : (s.setFq n x).txq k = s.txq k := rfl
@[simp] theorem State.setFq_stream (n : Nat) (x : FQ) (k : Nat) : (s.setFq n x).stream k = s.stream k := rfl
@[simp] theorem State.setFq_yz (n : Nat) (x : FQ) : (s.setFq n x).yz = s.yz := rfl
@[simp] theorem State.setFq_vec (n : Nat) (x : FQ) (k : Nat) : (s.setFq n x).vec k = s.vec k := rfl
@[simp] theorem State.setFq_cic (n : Nat) (x : FQ) (k : Nat) : (s.setFq n x).cic k = s.cic k := rfl
@[simp] theorem State.setFq_mb (n : Nat) (x : FQ) (k : Nat) : (s.setFq n x).mb k = s.mb k := rfl
@[simp] theorem State.setFq_core (n : Nat) (x : FQ) (k : Nat) : (s.setFq n x).core k = s.core k := rfl

@[simp] theorem State.setWin_now (n : Nat) (x : CoreWin) : (s.setWin n x).now = s.now := rfl
@[simp] theorem State.setWin_axes (n : Nat) (x : CoreWin) : (s.setWin n x).axes = s.axes := rfl
@[simp] theorem State.setWin_cmps (n : Nat) (x : CoreWin) : (s.setWin n x).cmps = s.cmps := rfl
@[simp] theorem State.setWin_caps (n : Nat) (x : CoreWin) : (s.setWin n x).caps = s.caps := rfl
@[simp] theorem State.setWin_chans (n : Nat) (x : CoreWin) : (s.setWin n x).chans = s.chans := rfl
@[simp] theorem State.setWin_sched (n : Nat) (x : CoreWin) : (s.setWin n x).sched = s.sched := rfl
@[simp] theorem State.setWin_movers (n : Nat) (x : CoreWin) : (s.setWin n x).movers = s.movers := rfl
@[simp] theorem State.setWin_queues (n : Nat) (x : CoreWin) : (s.setWin n x).queues = s.queues := rfl
@[simp] theorem State.setWin_xl_doms (n : Nat) (x : CoreWin) : (s.setWin n x).xl.doms = s.xl.doms := rfl
@[simp] theorem State.setWin_xl_fqs (n : Nat) (x : CoreWin) : (s.setWin n x).xl.fqs = s.xl.fqs := rfl
@[simp] theorem State.setWin_xl_cache (n : Nat) (x : CoreWin) : (s.setWin n x).xl.cache = s.xl.cache := rfl
@[simp] theorem State.setWin_xl_walks (n : Nat) (x : CoreWin) : (s.setWin n x).xl.walks = s.xl.walks := rfl
@[simp] theorem State.setWin_xl_answers (n : Nat) (x : CoreWin) : (s.setWin n x).xl.answers = s.xl.answers := rfl
@[simp] theorem State.setWin_xl_inv (n : Nat) (x : CoreWin) : (s.setWin n x).xl.inv = s.xl.inv := rfl
@[simp] theorem State.setWin_outs (n : Nat) (x : CoreWin) : (s.setWin n x).outs = s.outs := rfl
@[simp] theorem State.setWin_lws (n : Nat) (x : CoreWin) : (s.setWin n x).lws = s.lws := rfl
@[simp] theorem State.setWin_net (n : Nat) (x : CoreWin) : (s.setWin n x).net = s.net := rfl
@[simp] theorem State.setWin_irq (n : Nat) (x : CoreWin) : (s.setWin n x).irq = s.irq := rfl
@[simp] theorem State.setWin_und (n : Nat) (x : CoreWin) : (s.setWin n x).und = s.und := rfl
@[simp] theorem State.setWin_mbox (n : Nat) (x : CoreWin) : (s.setWin n x).mbox = s.mbox := rfl
@[simp] theorem State.setWin_cores (n : Nat) (x : CoreWin) : (s.setWin n x).cores = s.cores := rfl
@[simp] theorem State.setWin_mem (n : Nat) (x : CoreWin) : (s.setWin n x).mem = s.mem := rfl
@[simp] theorem State.setWin_fc (n : Nat) (x : CoreWin) : (s.setWin n x).fc = s.fc := rfl
@[simp] theorem State.setWin_rst (n : Nat) (x : CoreWin) : (s.setWin n x).rst = s.rst := rfl
@[simp] theorem State.setWin_boot (n : Nat) (x : CoreWin) : (s.setWin n x).boot = s.boot := rfl
@[simp] theorem State.setWin_svc (n : Nat) (x : CoreWin) : (s.setWin n x).svc = s.svc := rfl
@[simp] theorem State.setWin_latches (n : Nat) (x : CoreWin) : (s.setWin n x).latches = s.latches := rfl
@[simp] theorem State.setWin_out (n : Nat) (x : CoreWin) : (s.setWin n x).out = s.out := rfl
@[simp] theorem State.setWin_free (n : Nat) (x : CoreWin) : (s.setWin n x).free = s.free := rfl
@[simp] theorem State.setWin_pending (n : Nat) (x : CoreWin) : (s.setWin n x).pending = s.pending := rfl
@[simp] theorem State.setWin_cell (n : Nat) (x : CoreWin) (k : Nat) : (s.setWin n x).cell k = s.cell k := rfl
@[simp] theorem State.setWin_enc (n : Nat) (x : CoreWin) (k : Nat) : (s.setWin n x).enc k = s.enc k := rfl
@[simp] theorem State.setWin_ser (n : Nat) (x : CoreWin) (k : Nat) : (s.setWin n x).ser k = s.ser k := rfl
@[simp] theorem State.setWin_mainsIn (n : Nat) (x : CoreWin) (k : Nat) : (s.setWin n x).mainsIn k = s.mainsIn k := rfl
@[simp] theorem State.setWin_cmp (n : Nat) (x : CoreWin) (k : Nat) : (s.setWin n x).cmp k = s.cmp k := rfl
@[simp] theorem State.setWin_cap (n : Nat) (x : CoreWin) (k : Nat) : (s.setWin n x).cap k = s.cap k := rfl
@[simp] theorem State.setWin_chan (n : Nat) (x : CoreWin) (k : Nat) : (s.setWin n x).chan k = s.chan k := rfl
@[simp] theorem State.setWin_wq (n : Nat) (x : CoreWin) (k : Nat) : (s.setWin n x).wq k = s.wq k := rfl
@[simp] theorem State.setWin_eq (n : Nat) (x : CoreWin) (k : Nat) : (s.setWin n x).eq k = s.eq k := rfl
@[simp] theorem State.setWin_dom (n : Nat) (x : CoreWin) (k : Nat) : (s.setWin n x).dom k = s.dom k := rfl
@[simp] theorem State.setWin_fq (n : Nat) (x : CoreWin) (k : Nat) : (s.setWin n x).fq k = s.fq k := rfl
@[simp] theorem State.setWin_ou (n : Nat) (x : CoreWin) (k : Nat) : (s.setWin n x).ou k = s.ou k := rfl
@[simp] theorem State.setWin_pin (n : Nat) (x : CoreWin) (k : Nat) : (s.setWin n x).pin k = s.pin k := rfl
@[simp] theorem State.setWin_permitIn (n : Nat) (x : CoreWin) (k : Nat) : (s.setWin n x).permitIn k = s.permitIn k := rfl
@[simp] theorem State.setWin_port (n : Nat) (x : CoreWin) (k : Nat) : (s.setWin n x).port k = s.port k := rfl
@[simp] theorem State.setWin_txq (n : Nat) (x : CoreWin) (k : Nat) : (s.setWin n x).txq k = s.txq k := rfl
@[simp] theorem State.setWin_stream (n : Nat) (x : CoreWin) (k : Nat) : (s.setWin n x).stream k = s.stream k := rfl
@[simp] theorem State.setWin_yz (n : Nat) (x : CoreWin) : (s.setWin n x).yz = s.yz := rfl
@[simp] theorem State.setWin_vec (n : Nat) (x : CoreWin) (k : Nat) : (s.setWin n x).vec k = s.vec k := rfl
@[simp] theorem State.setWin_cic (n : Nat) (x : CoreWin) (k : Nat) : (s.setWin n x).cic k = s.cic k := rfl
@[simp] theorem State.setWin_mb (n : Nat) (x : CoreWin) (k : Nat) : (s.setWin n x).mb k = s.mb k := rfl
@[simp] theorem State.setWin_core (n : Nat) (x : CoreWin) (k : Nat) : (s.setWin n x).core k = s.core k := rfl

@[simp] theorem State.setOu_now (n : Nat) (x : OutUnit) : (s.setOu n x).now = s.now := rfl
@[simp] theorem State.setOu_axes (n : Nat) (x : OutUnit) : (s.setOu n x).axes = s.axes := rfl
@[simp] theorem State.setOu_cmps (n : Nat) (x : OutUnit) : (s.setOu n x).cmps = s.cmps := rfl
@[simp] theorem State.setOu_caps (n : Nat) (x : OutUnit) : (s.setOu n x).caps = s.caps := rfl
@[simp] theorem State.setOu_chans (n : Nat) (x : OutUnit) : (s.setOu n x).chans = s.chans := rfl
@[simp] theorem State.setOu_sched (n : Nat) (x : OutUnit) : (s.setOu n x).sched = s.sched := rfl
@[simp] theorem State.setOu_movers (n : Nat) (x : OutUnit) : (s.setOu n x).movers = s.movers := rfl
@[simp] theorem State.setOu_queues (n : Nat) (x : OutUnit) : (s.setOu n x).queues = s.queues := rfl
@[simp] theorem State.setOu_xl (n : Nat) (x : OutUnit) : (s.setOu n x).xl = s.xl := rfl
@[simp] theorem State.setOu_outs_pins (n : Nat) (x : OutUnit) : (s.setOu n x).outs.pins = s.outs.pins := rfl
@[simp] theorem State.setOu_outs_permits (n : Nat) (x : OutUnit) : (s.setOu n x).outs.permits = s.outs.permits := rfl
@[simp] theorem State.setOu_outs_window (n : Nat) (x : OutUnit) : (s.setOu n x).outs.window = s.outs.window := rfl
@[simp] theorem State.setOu_outs_bank33 (n : Nat) (x : OutUnit) : (s.setOu n x).outs.bank33 = s.outs.bank33 := rfl
@[simp] theorem State.setOu_lws (n : Nat) (x : OutUnit) : (s.setOu n x).lws = s.lws := rfl
@[simp] theorem State.setOu_net (n : Nat) (x : OutUnit) : (s.setOu n x).net = s.net := rfl
@[simp] theorem State.setOu_irq (n : Nat) (x : OutUnit) : (s.setOu n x).irq = s.irq := rfl
@[simp] theorem State.setOu_und (n : Nat) (x : OutUnit) : (s.setOu n x).und = s.und := rfl
@[simp] theorem State.setOu_mbox (n : Nat) (x : OutUnit) : (s.setOu n x).mbox = s.mbox := rfl
@[simp] theorem State.setOu_cores (n : Nat) (x : OutUnit) : (s.setOu n x).cores = s.cores := rfl
@[simp] theorem State.setOu_mem (n : Nat) (x : OutUnit) : (s.setOu n x).mem = s.mem := rfl
@[simp] theorem State.setOu_fc (n : Nat) (x : OutUnit) : (s.setOu n x).fc = s.fc := rfl
@[simp] theorem State.setOu_rst (n : Nat) (x : OutUnit) : (s.setOu n x).rst = s.rst := rfl
@[simp] theorem State.setOu_boot (n : Nat) (x : OutUnit) : (s.setOu n x).boot = s.boot := rfl
@[simp] theorem State.setOu_svc (n : Nat) (x : OutUnit) : (s.setOu n x).svc = s.svc := rfl
@[simp] theorem State.setOu_latches (n : Nat) (x : OutUnit) : (s.setOu n x).latches = s.latches := rfl
@[simp] theorem State.setOu_out (n : Nat) (x : OutUnit) : (s.setOu n x).out = s.out := rfl
@[simp] theorem State.setOu_free (n : Nat) (x : OutUnit) : (s.setOu n x).free = s.free := rfl
@[simp] theorem State.setOu_pending (n : Nat) (x : OutUnit) : (s.setOu n x).pending = s.pending := rfl
@[simp] theorem State.setOu_cell (n : Nat) (x : OutUnit) (k : Nat) : (s.setOu n x).cell k = s.cell k := rfl
@[simp] theorem State.setOu_enc (n : Nat) (x : OutUnit) (k : Nat) : (s.setOu n x).enc k = s.enc k := rfl
@[simp] theorem State.setOu_ser (n : Nat) (x : OutUnit) (k : Nat) : (s.setOu n x).ser k = s.ser k := rfl
@[simp] theorem State.setOu_mainsIn (n : Nat) (x : OutUnit) (k : Nat) : (s.setOu n x).mainsIn k = s.mainsIn k := rfl
@[simp] theorem State.setOu_cmp (n : Nat) (x : OutUnit) (k : Nat) : (s.setOu n x).cmp k = s.cmp k := rfl
@[simp] theorem State.setOu_cap (n : Nat) (x : OutUnit) (k : Nat) : (s.setOu n x).cap k = s.cap k := rfl
@[simp] theorem State.setOu_chan (n : Nat) (x : OutUnit) (k : Nat) : (s.setOu n x).chan k = s.chan k := rfl
@[simp] theorem State.setOu_wq (n : Nat) (x : OutUnit) (k : Nat) : (s.setOu n x).wq k = s.wq k := rfl
@[simp] theorem State.setOu_eq (n : Nat) (x : OutUnit) (k : Nat) : (s.setOu n x).eq k = s.eq k := rfl
@[simp] theorem State.setOu_dom (n : Nat) (x : OutUnit) (k : Nat) : (s.setOu n x).dom k = s.dom k := rfl
@[simp] theorem State.setOu_fq (n : Nat) (x : OutUnit) (k : Nat) : (s.setOu n x).fq k = s.fq k := rfl
@[simp] theorem State.setOu_win (n : Nat) (x : OutUnit) (k : Nat) : (s.setOu n x).win k = s.win k := rfl
@[simp] theorem State.setOu_pin (n : Nat) (x : OutUnit) (k : Nat) : (s.setOu n x).pin k = s.pin k := rfl
@[simp] theorem State.setOu_permitIn (n : Nat) (x : OutUnit) (k : Nat) : (s.setOu n x).permitIn k = s.permitIn k := rfl
@[simp] theorem State.setOu_port (n : Nat) (x : OutUnit) (k : Nat) : (s.setOu n x).port k = s.port k := rfl
@[simp] theorem State.setOu_txq (n : Nat) (x : OutUnit) (k : Nat) : (s.setOu n x).txq k = s.txq k := rfl
@[simp] theorem State.setOu_stream (n : Nat) (x : OutUnit) (k : Nat) : (s.setOu n x).stream k = s.stream k := rfl
@[simp] theorem State.setOu_yz (n : Nat) (x : OutUnit) : (s.setOu n x).yz = s.yz := rfl
@[simp] theorem State.setOu_vec (n : Nat) (x : OutUnit) (k : Nat) : (s.setOu n x).vec k = s.vec k := rfl
@[simp] theorem State.setOu_cic (n : Nat) (x : OutUnit) (k : Nat) : (s.setOu n x).cic k = s.cic k := rfl
@[simp] theorem State.setOu_mb (n : Nat) (x : OutUnit) (k : Nat) : (s.setOu n x).mb k = s.mb k := rfl
@[simp] theorem State.setOu_core (n : Nat) (x : OutUnit) (k : Nat) : (s.setOu n x).core k = s.core k := rfl

@[simp] theorem State.setPin_now (n : Nat) (x : Pin) : (s.setPin n x).now = s.now := rfl
@[simp] theorem State.setPin_axes (n : Nat) (x : Pin) : (s.setPin n x).axes = s.axes := rfl
@[simp] theorem State.setPin_cmps (n : Nat) (x : Pin) : (s.setPin n x).cmps = s.cmps := rfl
@[simp] theorem State.setPin_caps (n : Nat) (x : Pin) : (s.setPin n x).caps = s.caps := rfl
@[simp] theorem State.setPin_chans (n : Nat) (x : Pin) : (s.setPin n x).chans = s.chans := rfl
@[simp] theorem State.setPin_sched (n : Nat) (x : Pin) : (s.setPin n x).sched = s.sched := rfl
@[simp] theorem State.setPin_movers (n : Nat) (x : Pin) : (s.setPin n x).movers = s.movers := rfl
@[simp] theorem State.setPin_queues (n : Nat) (x : Pin) : (s.setPin n x).queues = s.queues := rfl
@[simp] theorem State.setPin_xl (n : Nat) (x : Pin) : (s.setPin n x).xl = s.xl := rfl
@[simp] theorem State.setPin_outs_units (n : Nat) (x : Pin) : (s.setPin n x).outs.units = s.outs.units := rfl
@[simp] theorem State.setPin_outs_permits (n : Nat) (x : Pin) : (s.setPin n x).outs.permits = s.outs.permits := rfl
@[simp] theorem State.setPin_outs_window (n : Nat) (x : Pin) : (s.setPin n x).outs.window = s.outs.window := rfl
@[simp] theorem State.setPin_outs_bank33 (n : Nat) (x : Pin) : (s.setPin n x).outs.bank33 = s.outs.bank33 := rfl
@[simp] theorem State.setPin_lws (n : Nat) (x : Pin) : (s.setPin n x).lws = s.lws := rfl
@[simp] theorem State.setPin_net (n : Nat) (x : Pin) : (s.setPin n x).net = s.net := rfl
@[simp] theorem State.setPin_irq (n : Nat) (x : Pin) : (s.setPin n x).irq = s.irq := rfl
@[simp] theorem State.setPin_und (n : Nat) (x : Pin) : (s.setPin n x).und = s.und := rfl
@[simp] theorem State.setPin_mbox (n : Nat) (x : Pin) : (s.setPin n x).mbox = s.mbox := rfl
@[simp] theorem State.setPin_cores (n : Nat) (x : Pin) : (s.setPin n x).cores = s.cores := rfl
@[simp] theorem State.setPin_mem (n : Nat) (x : Pin) : (s.setPin n x).mem = s.mem := rfl
@[simp] theorem State.setPin_fc (n : Nat) (x : Pin) : (s.setPin n x).fc = s.fc := rfl
@[simp] theorem State.setPin_rst (n : Nat) (x : Pin) : (s.setPin n x).rst = s.rst := rfl
@[simp] theorem State.setPin_boot (n : Nat) (x : Pin) : (s.setPin n x).boot = s.boot := rfl
@[simp] theorem State.setPin_svc (n : Nat) (x : Pin) : (s.setPin n x).svc = s.svc := rfl
@[simp] theorem State.setPin_latches (n : Nat) (x : Pin) : (s.setPin n x).latches = s.latches := rfl
@[simp] theorem State.setPin_out (n : Nat) (x : Pin) : (s.setPin n x).out = s.out := rfl
@[simp] theorem State.setPin_free (n : Nat) (x : Pin) : (s.setPin n x).free = s.free := rfl
@[simp] theorem State.setPin_pending (n : Nat) (x : Pin) : (s.setPin n x).pending = s.pending := rfl
@[simp] theorem State.setPin_cell (n : Nat) (x : Pin) (k : Nat) : (s.setPin n x).cell k = s.cell k := rfl
@[simp] theorem State.setPin_enc (n : Nat) (x : Pin) (k : Nat) : (s.setPin n x).enc k = s.enc k := rfl
@[simp] theorem State.setPin_ser (n : Nat) (x : Pin) (k : Nat) : (s.setPin n x).ser k = s.ser k := rfl
@[simp] theorem State.setPin_mainsIn (n : Nat) (x : Pin) (k : Nat) : (s.setPin n x).mainsIn k = s.mainsIn k := rfl
@[simp] theorem State.setPin_cmp (n : Nat) (x : Pin) (k : Nat) : (s.setPin n x).cmp k = s.cmp k := rfl
@[simp] theorem State.setPin_cap (n : Nat) (x : Pin) (k : Nat) : (s.setPin n x).cap k = s.cap k := rfl
@[simp] theorem State.setPin_chan (n : Nat) (x : Pin) (k : Nat) : (s.setPin n x).chan k = s.chan k := rfl
@[simp] theorem State.setPin_wq (n : Nat) (x : Pin) (k : Nat) : (s.setPin n x).wq k = s.wq k := rfl
@[simp] theorem State.setPin_eq (n : Nat) (x : Pin) (k : Nat) : (s.setPin n x).eq k = s.eq k := rfl
@[simp] theorem State.setPin_dom (n : Nat) (x : Pin) (k : Nat) : (s.setPin n x).dom k = s.dom k := rfl
@[simp] theorem State.setPin_fq (n : Nat) (x : Pin) (k : Nat) : (s.setPin n x).fq k = s.fq k := rfl
@[simp] theorem State.setPin_win (n : Nat) (x : Pin) (k : Nat) : (s.setPin n x).win k = s.win k := rfl
@[simp] theorem State.setPin_ou (n : Nat) (x : Pin) (k : Nat) : (s.setPin n x).ou k = s.ou k := rfl
@[simp] theorem State.setPin_permitIn (n : Nat) (x : Pin) (k : Nat) : (s.setPin n x).permitIn k = s.permitIn k := rfl
@[simp] theorem State.setPin_port (n : Nat) (x : Pin) (k : Nat) : (s.setPin n x).port k = s.port k := rfl
@[simp] theorem State.setPin_txq (n : Nat) (x : Pin) (k : Nat) : (s.setPin n x).txq k = s.txq k := rfl
@[simp] theorem State.setPin_stream (n : Nat) (x : Pin) (k : Nat) : (s.setPin n x).stream k = s.stream k := rfl
@[simp] theorem State.setPin_yz (n : Nat) (x : Pin) : (s.setPin n x).yz = s.yz := rfl
@[simp] theorem State.setPin_vec (n : Nat) (x : Pin) (k : Nat) : (s.setPin n x).vec k = s.vec k := rfl
@[simp] theorem State.setPin_cic (n : Nat) (x : Pin) (k : Nat) : (s.setPin n x).cic k = s.cic k := rfl
@[simp] theorem State.setPin_mb (n : Nat) (x : Pin) (k : Nat) : (s.setPin n x).mb k = s.mb k := rfl
@[simp] theorem State.setPin_core (n : Nat) (x : Pin) (k : Nat) : (s.setPin n x).core k = s.core k := rfl

@[simp] theorem State.setPermitIn_now (n : Nat) (x : Permit) : (s.setPermitIn n x).now = s.now := rfl
@[simp] theorem State.setPermitIn_axes (n : Nat) (x : Permit) : (s.setPermitIn n x).axes = s.axes := rfl
@[simp] theorem State.setPermitIn_cmps (n : Nat) (x : Permit) : (s.setPermitIn n x).cmps = s.cmps := rfl
@[simp] theorem State.setPermitIn_caps (n : Nat) (x : Permit) : (s.setPermitIn n x).caps = s.caps := rfl
@[simp] theorem State.setPermitIn_chans (n : Nat) (x : Permit) : (s.setPermitIn n x).chans = s.chans := rfl
@[simp] theorem State.setPermitIn_sched (n : Nat) (x : Permit) : (s.setPermitIn n x).sched = s.sched := rfl
@[simp] theorem State.setPermitIn_movers (n : Nat) (x : Permit) : (s.setPermitIn n x).movers = s.movers := rfl
@[simp] theorem State.setPermitIn_queues (n : Nat) (x : Permit) : (s.setPermitIn n x).queues = s.queues := rfl
@[simp] theorem State.setPermitIn_xl (n : Nat) (x : Permit) : (s.setPermitIn n x).xl = s.xl := rfl
@[simp] theorem State.setPermitIn_outs_units (n : Nat) (x : Permit) : (s.setPermitIn n x).outs.units = s.outs.units := rfl
@[simp] theorem State.setPermitIn_outs_pins (n : Nat) (x : Permit) : (s.setPermitIn n x).outs.pins = s.outs.pins := rfl
@[simp] theorem State.setPermitIn_outs_window (n : Nat) (x : Permit) : (s.setPermitIn n x).outs.window = s.outs.window := rfl
@[simp] theorem State.setPermitIn_outs_bank33 (n : Nat) (x : Permit) : (s.setPermitIn n x).outs.bank33 = s.outs.bank33 := rfl
@[simp] theorem State.setPermitIn_lws (n : Nat) (x : Permit) : (s.setPermitIn n x).lws = s.lws := rfl
@[simp] theorem State.setPermitIn_net (n : Nat) (x : Permit) : (s.setPermitIn n x).net = s.net := rfl
@[simp] theorem State.setPermitIn_irq (n : Nat) (x : Permit) : (s.setPermitIn n x).irq = s.irq := rfl
@[simp] theorem State.setPermitIn_und (n : Nat) (x : Permit) : (s.setPermitIn n x).und = s.und := rfl
@[simp] theorem State.setPermitIn_mbox (n : Nat) (x : Permit) : (s.setPermitIn n x).mbox = s.mbox := rfl
@[simp] theorem State.setPermitIn_cores (n : Nat) (x : Permit) : (s.setPermitIn n x).cores = s.cores := rfl
@[simp] theorem State.setPermitIn_mem (n : Nat) (x : Permit) : (s.setPermitIn n x).mem = s.mem := rfl
@[simp] theorem State.setPermitIn_fc (n : Nat) (x : Permit) : (s.setPermitIn n x).fc = s.fc := rfl
@[simp] theorem State.setPermitIn_rst (n : Nat) (x : Permit) : (s.setPermitIn n x).rst = s.rst := rfl
@[simp] theorem State.setPermitIn_boot (n : Nat) (x : Permit) : (s.setPermitIn n x).boot = s.boot := rfl
@[simp] theorem State.setPermitIn_svc (n : Nat) (x : Permit) : (s.setPermitIn n x).svc = s.svc := rfl
@[simp] theorem State.setPermitIn_latches (n : Nat) (x : Permit) : (s.setPermitIn n x).latches = s.latches := rfl
@[simp] theorem State.setPermitIn_out (n : Nat) (x : Permit) : (s.setPermitIn n x).out = s.out := rfl
@[simp] theorem State.setPermitIn_free (n : Nat) (x : Permit) : (s.setPermitIn n x).free = s.free := rfl
@[simp] theorem State.setPermitIn_pending (n : Nat) (x : Permit) : (s.setPermitIn n x).pending = s.pending := rfl
@[simp] theorem State.setPermitIn_cell (n : Nat) (x : Permit) (k : Nat) : (s.setPermitIn n x).cell k = s.cell k := rfl
@[simp] theorem State.setPermitIn_enc (n : Nat) (x : Permit) (k : Nat) : (s.setPermitIn n x).enc k = s.enc k := rfl
@[simp] theorem State.setPermitIn_ser (n : Nat) (x : Permit) (k : Nat) : (s.setPermitIn n x).ser k = s.ser k := rfl
@[simp] theorem State.setPermitIn_mainsIn (n : Nat) (x : Permit) (k : Nat) : (s.setPermitIn n x).mainsIn k = s.mainsIn k := rfl
@[simp] theorem State.setPermitIn_cmp (n : Nat) (x : Permit) (k : Nat) : (s.setPermitIn n x).cmp k = s.cmp k := rfl
@[simp] theorem State.setPermitIn_cap (n : Nat) (x : Permit) (k : Nat) : (s.setPermitIn n x).cap k = s.cap k := rfl
@[simp] theorem State.setPermitIn_chan (n : Nat) (x : Permit) (k : Nat) : (s.setPermitIn n x).chan k = s.chan k := rfl
@[simp] theorem State.setPermitIn_wq (n : Nat) (x : Permit) (k : Nat) : (s.setPermitIn n x).wq k = s.wq k := rfl
@[simp] theorem State.setPermitIn_eq (n : Nat) (x : Permit) (k : Nat) : (s.setPermitIn n x).eq k = s.eq k := rfl
@[simp] theorem State.setPermitIn_dom (n : Nat) (x : Permit) (k : Nat) : (s.setPermitIn n x).dom k = s.dom k := rfl
@[simp] theorem State.setPermitIn_fq (n : Nat) (x : Permit) (k : Nat) : (s.setPermitIn n x).fq k = s.fq k := rfl
@[simp] theorem State.setPermitIn_win (n : Nat) (x : Permit) (k : Nat) : (s.setPermitIn n x).win k = s.win k := rfl
@[simp] theorem State.setPermitIn_ou (n : Nat) (x : Permit) (k : Nat) : (s.setPermitIn n x).ou k = s.ou k := rfl
@[simp] theorem State.setPermitIn_pin (n : Nat) (x : Permit) (k : Nat) : (s.setPermitIn n x).pin k = s.pin k := rfl
@[simp] theorem State.setPermitIn_port (n : Nat) (x : Permit) (k : Nat) : (s.setPermitIn n x).port k = s.port k := rfl
@[simp] theorem State.setPermitIn_txq (n : Nat) (x : Permit) (k : Nat) : (s.setPermitIn n x).txq k = s.txq k := rfl
@[simp] theorem State.setPermitIn_stream (n : Nat) (x : Permit) (k : Nat) : (s.setPermitIn n x).stream k = s.stream k := rfl
@[simp] theorem State.setPermitIn_yz (n : Nat) (x : Permit) : (s.setPermitIn n x).yz = s.yz := rfl
@[simp] theorem State.setPermitIn_vec (n : Nat) (x : Permit) (k : Nat) : (s.setPermitIn n x).vec k = s.vec k := rfl
@[simp] theorem State.setPermitIn_cic (n : Nat) (x : Permit) (k : Nat) : (s.setPermitIn n x).cic k = s.cic k := rfl
@[simp] theorem State.setPermitIn_mb (n : Nat) (x : Permit) (k : Nat) : (s.setPermitIn n x).mb k = s.mb k := rfl
@[simp] theorem State.setPermitIn_core (n : Nat) (x : Permit) (k : Nat) : (s.setPermitIn n x).core k = s.core k := rfl

@[simp] theorem State.setPort_now (n : Nat) (x : Port) : (s.setPort n x).now = s.now := rfl
@[simp] theorem State.setPort_axes (n : Nat) (x : Port) : (s.setPort n x).axes = s.axes := rfl
@[simp] theorem State.setPort_cmps (n : Nat) (x : Port) : (s.setPort n x).cmps = s.cmps := rfl
@[simp] theorem State.setPort_caps (n : Nat) (x : Port) : (s.setPort n x).caps = s.caps := rfl
@[simp] theorem State.setPort_chans (n : Nat) (x : Port) : (s.setPort n x).chans = s.chans := rfl
@[simp] theorem State.setPort_sched (n : Nat) (x : Port) : (s.setPort n x).sched = s.sched := rfl
@[simp] theorem State.setPort_movers (n : Nat) (x : Port) : (s.setPort n x).movers = s.movers := rfl
@[simp] theorem State.setPort_queues (n : Nat) (x : Port) : (s.setPort n x).queues = s.queues := rfl
@[simp] theorem State.setPort_xl (n : Nat) (x : Port) : (s.setPort n x).xl = s.xl := rfl
@[simp] theorem State.setPort_outs (n : Nat) (x : Port) : (s.setPort n x).outs = s.outs := rfl
@[simp] theorem State.setPort_lws (n : Nat) (x : Port) : (s.setPort n x).lws = s.lws := rfl
@[simp] theorem State.setPort_net_txqs (n : Nat) (x : Port) : (s.setPort n x).net.txqs = s.net.txqs := rfl
@[simp] theorem State.setPort_net_streams (n : Nat) (x : Port) : (s.setPort n x).net.streams = s.net.streams := rfl
@[simp] theorem State.setPort_net_ptp (n : Nat) (x : Port) : (s.setPort n x).net.ptp = s.net.ptp := rfl
@[simp] theorem State.setPort_net_yz (n : Nat) (x : Port) : (s.setPort n x).net.yz = s.net.yz := rfl
@[simp] theorem State.setPort_irq (n : Nat) (x : Port) : (s.setPort n x).irq = s.irq := rfl
@[simp] theorem State.setPort_und (n : Nat) (x : Port) : (s.setPort n x).und = s.und := rfl
@[simp] theorem State.setPort_mbox (n : Nat) (x : Port) : (s.setPort n x).mbox = s.mbox := rfl
@[simp] theorem State.setPort_cores (n : Nat) (x : Port) : (s.setPort n x).cores = s.cores := rfl
@[simp] theorem State.setPort_mem (n : Nat) (x : Port) : (s.setPort n x).mem = s.mem := rfl
@[simp] theorem State.setPort_fc (n : Nat) (x : Port) : (s.setPort n x).fc = s.fc := rfl
@[simp] theorem State.setPort_rst (n : Nat) (x : Port) : (s.setPort n x).rst = s.rst := rfl
@[simp] theorem State.setPort_boot (n : Nat) (x : Port) : (s.setPort n x).boot = s.boot := rfl
@[simp] theorem State.setPort_svc (n : Nat) (x : Port) : (s.setPort n x).svc = s.svc := rfl
@[simp] theorem State.setPort_latches (n : Nat) (x : Port) : (s.setPort n x).latches = s.latches := rfl
@[simp] theorem State.setPort_out (n : Nat) (x : Port) : (s.setPort n x).out = s.out := rfl
@[simp] theorem State.setPort_free (n : Nat) (x : Port) : (s.setPort n x).free = s.free := rfl
@[simp] theorem State.setPort_pending (n : Nat) (x : Port) : (s.setPort n x).pending = s.pending := rfl
@[simp] theorem State.setPort_cell (n : Nat) (x : Port) (k : Nat) : (s.setPort n x).cell k = s.cell k := rfl
@[simp] theorem State.setPort_enc (n : Nat) (x : Port) (k : Nat) : (s.setPort n x).enc k = s.enc k := rfl
@[simp] theorem State.setPort_ser (n : Nat) (x : Port) (k : Nat) : (s.setPort n x).ser k = s.ser k := rfl
@[simp] theorem State.setPort_mainsIn (n : Nat) (x : Port) (k : Nat) : (s.setPort n x).mainsIn k = s.mainsIn k := rfl
@[simp] theorem State.setPort_cmp (n : Nat) (x : Port) (k : Nat) : (s.setPort n x).cmp k = s.cmp k := rfl
@[simp] theorem State.setPort_cap (n : Nat) (x : Port) (k : Nat) : (s.setPort n x).cap k = s.cap k := rfl
@[simp] theorem State.setPort_chan (n : Nat) (x : Port) (k : Nat) : (s.setPort n x).chan k = s.chan k := rfl
@[simp] theorem State.setPort_wq (n : Nat) (x : Port) (k : Nat) : (s.setPort n x).wq k = s.wq k := rfl
@[simp] theorem State.setPort_eq (n : Nat) (x : Port) (k : Nat) : (s.setPort n x).eq k = s.eq k := rfl
@[simp] theorem State.setPort_dom (n : Nat) (x : Port) (k : Nat) : (s.setPort n x).dom k = s.dom k := rfl
@[simp] theorem State.setPort_fq (n : Nat) (x : Port) (k : Nat) : (s.setPort n x).fq k = s.fq k := rfl
@[simp] theorem State.setPort_win (n : Nat) (x : Port) (k : Nat) : (s.setPort n x).win k = s.win k := rfl
@[simp] theorem State.setPort_ou (n : Nat) (x : Port) (k : Nat) : (s.setPort n x).ou k = s.ou k := rfl
@[simp] theorem State.setPort_pin (n : Nat) (x : Port) (k : Nat) : (s.setPort n x).pin k = s.pin k := rfl
@[simp] theorem State.setPort_permitIn (n : Nat) (x : Port) (k : Nat) : (s.setPort n x).permitIn k = s.permitIn k := rfl
@[simp] theorem State.setPort_txq (n : Nat) (x : Port) (k : Nat) : (s.setPort n x).txq k = s.txq k := rfl
@[simp] theorem State.setPort_stream (n : Nat) (x : Port) (k : Nat) : (s.setPort n x).stream k = s.stream k := rfl
@[simp] theorem State.setPort_yz (n : Nat) (x : Port) : (s.setPort n x).yz = s.yz := rfl
@[simp] theorem State.setPort_vec (n : Nat) (x : Port) (k : Nat) : (s.setPort n x).vec k = s.vec k := rfl
@[simp] theorem State.setPort_cic (n : Nat) (x : Port) (k : Nat) : (s.setPort n x).cic k = s.cic k := rfl
@[simp] theorem State.setPort_mb (n : Nat) (x : Port) (k : Nat) : (s.setPort n x).mb k = s.mb k := rfl
@[simp] theorem State.setPort_core (n : Nat) (x : Port) (k : Nat) : (s.setPort n x).core k = s.core k := rfl

@[simp] theorem State.setTxq_now (n : Nat) (x : TxQ) : (s.setTxq n x).now = s.now := rfl
@[simp] theorem State.setTxq_axes (n : Nat) (x : TxQ) : (s.setTxq n x).axes = s.axes := rfl
@[simp] theorem State.setTxq_cmps (n : Nat) (x : TxQ) : (s.setTxq n x).cmps = s.cmps := rfl
@[simp] theorem State.setTxq_caps (n : Nat) (x : TxQ) : (s.setTxq n x).caps = s.caps := rfl
@[simp] theorem State.setTxq_chans (n : Nat) (x : TxQ) : (s.setTxq n x).chans = s.chans := rfl
@[simp] theorem State.setTxq_sched (n : Nat) (x : TxQ) : (s.setTxq n x).sched = s.sched := rfl
@[simp] theorem State.setTxq_movers (n : Nat) (x : TxQ) : (s.setTxq n x).movers = s.movers := rfl
@[simp] theorem State.setTxq_queues (n : Nat) (x : TxQ) : (s.setTxq n x).queues = s.queues := rfl
@[simp] theorem State.setTxq_xl (n : Nat) (x : TxQ) : (s.setTxq n x).xl = s.xl := rfl
@[simp] theorem State.setTxq_outs (n : Nat) (x : TxQ) : (s.setTxq n x).outs = s.outs := rfl
@[simp] theorem State.setTxq_lws (n : Nat) (x : TxQ) : (s.setTxq n x).lws = s.lws := rfl
@[simp] theorem State.setTxq_net_ports (n : Nat) (x : TxQ) : (s.setTxq n x).net.ports = s.net.ports := rfl
@[simp] theorem State.setTxq_net_streams (n : Nat) (x : TxQ) : (s.setTxq n x).net.streams = s.net.streams := rfl
@[simp] theorem State.setTxq_net_ptp (n : Nat) (x : TxQ) : (s.setTxq n x).net.ptp = s.net.ptp := rfl
@[simp] theorem State.setTxq_net_yz (n : Nat) (x : TxQ) : (s.setTxq n x).net.yz = s.net.yz := rfl
@[simp] theorem State.setTxq_irq (n : Nat) (x : TxQ) : (s.setTxq n x).irq = s.irq := rfl
@[simp] theorem State.setTxq_und (n : Nat) (x : TxQ) : (s.setTxq n x).und = s.und := rfl
@[simp] theorem State.setTxq_mbox (n : Nat) (x : TxQ) : (s.setTxq n x).mbox = s.mbox := rfl
@[simp] theorem State.setTxq_cores (n : Nat) (x : TxQ) : (s.setTxq n x).cores = s.cores := rfl
@[simp] theorem State.setTxq_mem (n : Nat) (x : TxQ) : (s.setTxq n x).mem = s.mem := rfl
@[simp] theorem State.setTxq_fc (n : Nat) (x : TxQ) : (s.setTxq n x).fc = s.fc := rfl
@[simp] theorem State.setTxq_rst (n : Nat) (x : TxQ) : (s.setTxq n x).rst = s.rst := rfl
@[simp] theorem State.setTxq_boot (n : Nat) (x : TxQ) : (s.setTxq n x).boot = s.boot := rfl
@[simp] theorem State.setTxq_svc (n : Nat) (x : TxQ) : (s.setTxq n x).svc = s.svc := rfl
@[simp] theorem State.setTxq_latches (n : Nat) (x : TxQ) : (s.setTxq n x).latches = s.latches := rfl
@[simp] theorem State.setTxq_out (n : Nat) (x : TxQ) : (s.setTxq n x).out = s.out := rfl
@[simp] theorem State.setTxq_free (n : Nat) (x : TxQ) : (s.setTxq n x).free = s.free := rfl
@[simp] theorem State.setTxq_pending (n : Nat) (x : TxQ) : (s.setTxq n x).pending = s.pending := rfl
@[simp] theorem State.setTxq_cell (n : Nat) (x : TxQ) (k : Nat) : (s.setTxq n x).cell k = s.cell k := rfl
@[simp] theorem State.setTxq_enc (n : Nat) (x : TxQ) (k : Nat) : (s.setTxq n x).enc k = s.enc k := rfl
@[simp] theorem State.setTxq_ser (n : Nat) (x : TxQ) (k : Nat) : (s.setTxq n x).ser k = s.ser k := rfl
@[simp] theorem State.setTxq_mainsIn (n : Nat) (x : TxQ) (k : Nat) : (s.setTxq n x).mainsIn k = s.mainsIn k := rfl
@[simp] theorem State.setTxq_cmp (n : Nat) (x : TxQ) (k : Nat) : (s.setTxq n x).cmp k = s.cmp k := rfl
@[simp] theorem State.setTxq_cap (n : Nat) (x : TxQ) (k : Nat) : (s.setTxq n x).cap k = s.cap k := rfl
@[simp] theorem State.setTxq_chan (n : Nat) (x : TxQ) (k : Nat) : (s.setTxq n x).chan k = s.chan k := rfl
@[simp] theorem State.setTxq_wq (n : Nat) (x : TxQ) (k : Nat) : (s.setTxq n x).wq k = s.wq k := rfl
@[simp] theorem State.setTxq_eq (n : Nat) (x : TxQ) (k : Nat) : (s.setTxq n x).eq k = s.eq k := rfl
@[simp] theorem State.setTxq_dom (n : Nat) (x : TxQ) (k : Nat) : (s.setTxq n x).dom k = s.dom k := rfl
@[simp] theorem State.setTxq_fq (n : Nat) (x : TxQ) (k : Nat) : (s.setTxq n x).fq k = s.fq k := rfl
@[simp] theorem State.setTxq_win (n : Nat) (x : TxQ) (k : Nat) : (s.setTxq n x).win k = s.win k := rfl
@[simp] theorem State.setTxq_ou (n : Nat) (x : TxQ) (k : Nat) : (s.setTxq n x).ou k = s.ou k := rfl
@[simp] theorem State.setTxq_pin (n : Nat) (x : TxQ) (k : Nat) : (s.setTxq n x).pin k = s.pin k := rfl
@[simp] theorem State.setTxq_permitIn (n : Nat) (x : TxQ) (k : Nat) : (s.setTxq n x).permitIn k = s.permitIn k := rfl
@[simp] theorem State.setTxq_port (n : Nat) (x : TxQ) (k : Nat) : (s.setTxq n x).port k = s.port k := rfl
@[simp] theorem State.setTxq_stream (n : Nat) (x : TxQ) (k : Nat) : (s.setTxq n x).stream k = s.stream k := rfl
@[simp] theorem State.setTxq_yz (n : Nat) (x : TxQ) : (s.setTxq n x).yz = s.yz := rfl
@[simp] theorem State.setTxq_vec (n : Nat) (x : TxQ) (k : Nat) : (s.setTxq n x).vec k = s.vec k := rfl
@[simp] theorem State.setTxq_cic (n : Nat) (x : TxQ) (k : Nat) : (s.setTxq n x).cic k = s.cic k := rfl
@[simp] theorem State.setTxq_mb (n : Nat) (x : TxQ) (k : Nat) : (s.setTxq n x).mb k = s.mb k := rfl
@[simp] theorem State.setTxq_core (n : Nat) (x : TxQ) (k : Nat) : (s.setTxq n x).core k = s.core k := rfl

@[simp] theorem State.setStream_now (n : Nat) (x : Stream) : (s.setStream n x).now = s.now := rfl
@[simp] theorem State.setStream_axes (n : Nat) (x : Stream) : (s.setStream n x).axes = s.axes := rfl
@[simp] theorem State.setStream_cmps (n : Nat) (x : Stream) : (s.setStream n x).cmps = s.cmps := rfl
@[simp] theorem State.setStream_caps (n : Nat) (x : Stream) : (s.setStream n x).caps = s.caps := rfl
@[simp] theorem State.setStream_chans (n : Nat) (x : Stream) : (s.setStream n x).chans = s.chans := rfl
@[simp] theorem State.setStream_sched (n : Nat) (x : Stream) : (s.setStream n x).sched = s.sched := rfl
@[simp] theorem State.setStream_movers (n : Nat) (x : Stream) : (s.setStream n x).movers = s.movers := rfl
@[simp] theorem State.setStream_queues (n : Nat) (x : Stream) : (s.setStream n x).queues = s.queues := rfl
@[simp] theorem State.setStream_xl (n : Nat) (x : Stream) : (s.setStream n x).xl = s.xl := rfl
@[simp] theorem State.setStream_outs (n : Nat) (x : Stream) : (s.setStream n x).outs = s.outs := rfl
@[simp] theorem State.setStream_lws (n : Nat) (x : Stream) : (s.setStream n x).lws = s.lws := rfl
@[simp] theorem State.setStream_net_ports (n : Nat) (x : Stream) : (s.setStream n x).net.ports = s.net.ports := rfl
@[simp] theorem State.setStream_net_txqs (n : Nat) (x : Stream) : (s.setStream n x).net.txqs = s.net.txqs := rfl
@[simp] theorem State.setStream_net_ptp (n : Nat) (x : Stream) : (s.setStream n x).net.ptp = s.net.ptp := rfl
@[simp] theorem State.setStream_net_yz (n : Nat) (x : Stream) : (s.setStream n x).net.yz = s.net.yz := rfl
@[simp] theorem State.setStream_irq (n : Nat) (x : Stream) : (s.setStream n x).irq = s.irq := rfl
@[simp] theorem State.setStream_und (n : Nat) (x : Stream) : (s.setStream n x).und = s.und := rfl
@[simp] theorem State.setStream_mbox (n : Nat) (x : Stream) : (s.setStream n x).mbox = s.mbox := rfl
@[simp] theorem State.setStream_cores (n : Nat) (x : Stream) : (s.setStream n x).cores = s.cores := rfl
@[simp] theorem State.setStream_mem (n : Nat) (x : Stream) : (s.setStream n x).mem = s.mem := rfl
@[simp] theorem State.setStream_fc (n : Nat) (x : Stream) : (s.setStream n x).fc = s.fc := rfl
@[simp] theorem State.setStream_rst (n : Nat) (x : Stream) : (s.setStream n x).rst = s.rst := rfl
@[simp] theorem State.setStream_boot (n : Nat) (x : Stream) : (s.setStream n x).boot = s.boot := rfl
@[simp] theorem State.setStream_svc (n : Nat) (x : Stream) : (s.setStream n x).svc = s.svc := rfl
@[simp] theorem State.setStream_latches (n : Nat) (x : Stream) : (s.setStream n x).latches = s.latches := rfl
@[simp] theorem State.setStream_out (n : Nat) (x : Stream) : (s.setStream n x).out = s.out := rfl
@[simp] theorem State.setStream_free (n : Nat) (x : Stream) : (s.setStream n x).free = s.free := rfl
@[simp] theorem State.setStream_pending (n : Nat) (x : Stream) : (s.setStream n x).pending = s.pending := rfl
@[simp] theorem State.setStream_cell (n : Nat) (x : Stream) (k : Nat) : (s.setStream n x).cell k = s.cell k := rfl
@[simp] theorem State.setStream_enc (n : Nat) (x : Stream) (k : Nat) : (s.setStream n x).enc k = s.enc k := rfl
@[simp] theorem State.setStream_ser (n : Nat) (x : Stream) (k : Nat) : (s.setStream n x).ser k = s.ser k := rfl
@[simp] theorem State.setStream_mainsIn (n : Nat) (x : Stream) (k : Nat) : (s.setStream n x).mainsIn k = s.mainsIn k := rfl
@[simp] theorem State.setStream_cmp (n : Nat) (x : Stream) (k : Nat) : (s.setStream n x).cmp k = s.cmp k := rfl
@[simp] theorem State.setStream_cap (n : Nat) (x : Stream) (k : Nat) : (s.setStream n x).cap k = s.cap k := rfl
@[simp] theorem State.setStream_chan (n : Nat) (x : Stream) (k : Nat) : (s.setStream n x).chan k = s.chan k := rfl
@[simp] theorem State.setStream_wq (n : Nat) (x : Stream) (k : Nat) : (s.setStream n x).wq k = s.wq k := rfl
@[simp] theorem State.setStream_eq (n : Nat) (x : Stream) (k : Nat) : (s.setStream n x).eq k = s.eq k := rfl
@[simp] theorem State.setStream_dom (n : Nat) (x : Stream) (k : Nat) : (s.setStream n x).dom k = s.dom k := rfl
@[simp] theorem State.setStream_fq (n : Nat) (x : Stream) (k : Nat) : (s.setStream n x).fq k = s.fq k := rfl
@[simp] theorem State.setStream_win (n : Nat) (x : Stream) (k : Nat) : (s.setStream n x).win k = s.win k := rfl
@[simp] theorem State.setStream_ou (n : Nat) (x : Stream) (k : Nat) : (s.setStream n x).ou k = s.ou k := rfl
@[simp] theorem State.setStream_pin (n : Nat) (x : Stream) (k : Nat) : (s.setStream n x).pin k = s.pin k := rfl
@[simp] theorem State.setStream_permitIn (n : Nat) (x : Stream) (k : Nat) : (s.setStream n x).permitIn k = s.permitIn k := rfl
@[simp] theorem State.setStream_port (n : Nat) (x : Stream) (k : Nat) : (s.setStream n x).port k = s.port k := rfl
@[simp] theorem State.setStream_txq (n : Nat) (x : Stream) (k : Nat) : (s.setStream n x).txq k = s.txq k := rfl
@[simp] theorem State.setStream_yz (n : Nat) (x : Stream) : (s.setStream n x).yz = s.yz := rfl
@[simp] theorem State.setStream_vec (n : Nat) (x : Stream) (k : Nat) : (s.setStream n x).vec k = s.vec k := rfl
@[simp] theorem State.setStream_cic (n : Nat) (x : Stream) (k : Nat) : (s.setStream n x).cic k = s.cic k := rfl
@[simp] theorem State.setStream_mb (n : Nat) (x : Stream) (k : Nat) : (s.setStream n x).mb k = s.mb k := rfl
@[simp] theorem State.setStream_core (n : Nat) (x : Stream) (k : Nat) : (s.setStream n x).core k = s.core k := rfl

@[simp] theorem State.setYz_now (x : Yazen) : (s.setYz x).now = s.now := rfl
@[simp] theorem State.setYz_axes (x : Yazen) : (s.setYz x).axes = s.axes := rfl
@[simp] theorem State.setYz_cmps (x : Yazen) : (s.setYz x).cmps = s.cmps := rfl
@[simp] theorem State.setYz_caps (x : Yazen) : (s.setYz x).caps = s.caps := rfl
@[simp] theorem State.setYz_chans (x : Yazen) : (s.setYz x).chans = s.chans := rfl
@[simp] theorem State.setYz_sched (x : Yazen) : (s.setYz x).sched = s.sched := rfl
@[simp] theorem State.setYz_movers (x : Yazen) : (s.setYz x).movers = s.movers := rfl
@[simp] theorem State.setYz_queues (x : Yazen) : (s.setYz x).queues = s.queues := rfl
@[simp] theorem State.setYz_xl (x : Yazen) : (s.setYz x).xl = s.xl := rfl
@[simp] theorem State.setYz_outs (x : Yazen) : (s.setYz x).outs = s.outs := rfl
@[simp] theorem State.setYz_lws (x : Yazen) : (s.setYz x).lws = s.lws := rfl
@[simp] theorem State.setYz_net_ports (x : Yazen) : (s.setYz x).net.ports = s.net.ports := rfl
@[simp] theorem State.setYz_net_txqs (x : Yazen) : (s.setYz x).net.txqs = s.net.txqs := rfl
@[simp] theorem State.setYz_net_streams (x : Yazen) : (s.setYz x).net.streams = s.net.streams := rfl
@[simp] theorem State.setYz_net_ptp (x : Yazen) : (s.setYz x).net.ptp = s.net.ptp := rfl
@[simp] theorem State.setYz_irq (x : Yazen) : (s.setYz x).irq = s.irq := rfl
@[simp] theorem State.setYz_und (x : Yazen) : (s.setYz x).und = s.und := rfl
@[simp] theorem State.setYz_mbox (x : Yazen) : (s.setYz x).mbox = s.mbox := rfl
@[simp] theorem State.setYz_cores (x : Yazen) : (s.setYz x).cores = s.cores := rfl
@[simp] theorem State.setYz_mem (x : Yazen) : (s.setYz x).mem = s.mem := rfl
@[simp] theorem State.setYz_fc (x : Yazen) : (s.setYz x).fc = s.fc := rfl
@[simp] theorem State.setYz_rst (x : Yazen) : (s.setYz x).rst = s.rst := rfl
@[simp] theorem State.setYz_boot (x : Yazen) : (s.setYz x).boot = s.boot := rfl
@[simp] theorem State.setYz_svc (x : Yazen) : (s.setYz x).svc = s.svc := rfl
@[simp] theorem State.setYz_latches (x : Yazen) : (s.setYz x).latches = s.latches := rfl
@[simp] theorem State.setYz_out (x : Yazen) : (s.setYz x).out = s.out := rfl
@[simp] theorem State.setYz_free (x : Yazen) : (s.setYz x).free = s.free := rfl
@[simp] theorem State.setYz_pending (x : Yazen) : (s.setYz x).pending = s.pending := rfl
@[simp] theorem State.setYz_cell (x : Yazen) (k : Nat) : (s.setYz x).cell k = s.cell k := rfl
@[simp] theorem State.setYz_enc (x : Yazen) (k : Nat) : (s.setYz x).enc k = s.enc k := rfl
@[simp] theorem State.setYz_ser (x : Yazen) (k : Nat) : (s.setYz x).ser k = s.ser k := rfl
@[simp] theorem State.setYz_mainsIn (x : Yazen) (k : Nat) : (s.setYz x).mainsIn k = s.mainsIn k := rfl
@[simp] theorem State.setYz_cmp (x : Yazen) (k : Nat) : (s.setYz x).cmp k = s.cmp k := rfl
@[simp] theorem State.setYz_cap (x : Yazen) (k : Nat) : (s.setYz x).cap k = s.cap k := rfl
@[simp] theorem State.setYz_chan (x : Yazen) (k : Nat) : (s.setYz x).chan k = s.chan k := rfl
@[simp] theorem State.setYz_wq (x : Yazen) (k : Nat) : (s.setYz x).wq k = s.wq k := rfl
@[simp] theorem State.setYz_eq (x : Yazen) (k : Nat) : (s.setYz x).eq k = s.eq k := rfl
@[simp] theorem State.setYz_dom (x : Yazen) (k : Nat) : (s.setYz x).dom k = s.dom k := rfl
@[simp] theorem State.setYz_fq (x : Yazen) (k : Nat) : (s.setYz x).fq k = s.fq k := rfl
@[simp] theorem State.setYz_win (x : Yazen) (k : Nat) : (s.setYz x).win k = s.win k := rfl
@[simp] theorem State.setYz_ou (x : Yazen) (k : Nat) : (s.setYz x).ou k = s.ou k := rfl
@[simp] theorem State.setYz_pin (x : Yazen) (k : Nat) : (s.setYz x).pin k = s.pin k := rfl
@[simp] theorem State.setYz_permitIn (x : Yazen) (k : Nat) : (s.setYz x).permitIn k = s.permitIn k := rfl
@[simp] theorem State.setYz_port (x : Yazen) (k : Nat) : (s.setYz x).port k = s.port k := rfl
@[simp] theorem State.setYz_txq (x : Yazen) (k : Nat) : (s.setYz x).txq k = s.txq k := rfl
@[simp] theorem State.setYz_stream (x : Yazen) (k : Nat) : (s.setYz x).stream k = s.stream k := rfl
@[simp] theorem State.setYz_vec (x : Yazen) (k : Nat) : (s.setYz x).vec k = s.vec k := rfl
@[simp] theorem State.setYz_cic (x : Yazen) (k : Nat) : (s.setYz x).cic k = s.cic k := rfl
@[simp] theorem State.setYz_mb (x : Yazen) (k : Nat) : (s.setYz x).mb k = s.mb k := rfl
@[simp] theorem State.setYz_core (x : Yazen) (k : Nat) : (s.setYz x).core k = s.core k := rfl

@[simp] theorem State.setVec_now (n : Nat) (x : Msix) : (s.setVec n x).now = s.now := rfl
@[simp] theorem State.setVec_axes (n : Nat) (x : Msix) : (s.setVec n x).axes = s.axes := rfl
@[simp] theorem State.setVec_cmps (n : Nat) (x : Msix) : (s.setVec n x).cmps = s.cmps := rfl
@[simp] theorem State.setVec_caps (n : Nat) (x : Msix) : (s.setVec n x).caps = s.caps := rfl
@[simp] theorem State.setVec_chans (n : Nat) (x : Msix) : (s.setVec n x).chans = s.chans := rfl
@[simp] theorem State.setVec_sched (n : Nat) (x : Msix) : (s.setVec n x).sched = s.sched := rfl
@[simp] theorem State.setVec_movers (n : Nat) (x : Msix) : (s.setVec n x).movers = s.movers := rfl
@[simp] theorem State.setVec_queues (n : Nat) (x : Msix) : (s.setVec n x).queues = s.queues := rfl
@[simp] theorem State.setVec_xl (n : Nat) (x : Msix) : (s.setVec n x).xl = s.xl := rfl
@[simp] theorem State.setVec_outs (n : Nat) (x : Msix) : (s.setVec n x).outs = s.outs := rfl
@[simp] theorem State.setVec_lws (n : Nat) (x : Msix) : (s.setVec n x).lws = s.lws := rfl
@[simp] theorem State.setVec_net (n : Nat) (x : Msix) : (s.setVec n x).net = s.net := rfl
@[simp] theorem State.setVec_irq_msixEn (n : Nat) (x : Msix) : (s.setVec n x).irq.msixEn = s.irq.msixEn := rfl
@[simp] theorem State.setVec_irq_funcMask (n : Nat) (x : Msix) : (s.setVec n x).irq.funcMask = s.irq.funcMask := rfl
@[simp] theorem State.setVec_irq_bme (n : Nat) (x : Msix) : (s.setVec n x).irq.bme = s.irq.bme := rfl
@[simp] theorem State.setVec_irq_link (n : Nat) (x : Msix) : (s.setVec n x).irq.link = s.irq.link := rfl
@[simp] theorem State.setVec_irq_srcs (n : Nat) (x : Msix) : (s.setVec n x).irq.srcs = s.irq.srcs := rfl
@[simp] theorem State.setVec_irq_thresh (n : Nat) (x : Msix) : (s.setVec n x).irq.thresh = s.irq.thresh := rfl
@[simp] theorem State.setVec_irq_badComplete (n : Nat) (x : Msix) : (s.setVec n x).irq.badComplete = s.irq.badComplete := rfl
@[simp] theorem State.setVec_irq_msiAt (n : Nat) (x : Msix) : (s.setVec n x).irq.msiAt = s.irq.msiAt := rfl
@[simp] theorem State.setVec_und (n : Nat) (x : Msix) : (s.setVec n x).und = s.und := rfl
@[simp] theorem State.setVec_mbox (n : Nat) (x : Msix) : (s.setVec n x).mbox = s.mbox := rfl
@[simp] theorem State.setVec_cores (n : Nat) (x : Msix) : (s.setVec n x).cores = s.cores := rfl
@[simp] theorem State.setVec_mem (n : Nat) (x : Msix) : (s.setVec n x).mem = s.mem := rfl
@[simp] theorem State.setVec_fc (n : Nat) (x : Msix) : (s.setVec n x).fc = s.fc := rfl
@[simp] theorem State.setVec_rst (n : Nat) (x : Msix) : (s.setVec n x).rst = s.rst := rfl
@[simp] theorem State.setVec_boot (n : Nat) (x : Msix) : (s.setVec n x).boot = s.boot := rfl
@[simp] theorem State.setVec_svc (n : Nat) (x : Msix) : (s.setVec n x).svc = s.svc := rfl
@[simp] theorem State.setVec_latches (n : Nat) (x : Msix) : (s.setVec n x).latches = s.latches := rfl
@[simp] theorem State.setVec_out (n : Nat) (x : Msix) : (s.setVec n x).out = s.out := rfl
@[simp] theorem State.setVec_free (n : Nat) (x : Msix) : (s.setVec n x).free = s.free := rfl
@[simp] theorem State.setVec_pending (n : Nat) (x : Msix) : (s.setVec n x).pending = s.pending := rfl
@[simp] theorem State.setVec_cell (n : Nat) (x : Msix) (k : Nat) : (s.setVec n x).cell k = s.cell k := rfl
@[simp] theorem State.setVec_enc (n : Nat) (x : Msix) (k : Nat) : (s.setVec n x).enc k = s.enc k := rfl
@[simp] theorem State.setVec_ser (n : Nat) (x : Msix) (k : Nat) : (s.setVec n x).ser k = s.ser k := rfl
@[simp] theorem State.setVec_mainsIn (n : Nat) (x : Msix) (k : Nat) : (s.setVec n x).mainsIn k = s.mainsIn k := rfl
@[simp] theorem State.setVec_cmp (n : Nat) (x : Msix) (k : Nat) : (s.setVec n x).cmp k = s.cmp k := rfl
@[simp] theorem State.setVec_cap (n : Nat) (x : Msix) (k : Nat) : (s.setVec n x).cap k = s.cap k := rfl
@[simp] theorem State.setVec_chan (n : Nat) (x : Msix) (k : Nat) : (s.setVec n x).chan k = s.chan k := rfl
@[simp] theorem State.setVec_wq (n : Nat) (x : Msix) (k : Nat) : (s.setVec n x).wq k = s.wq k := rfl
@[simp] theorem State.setVec_eq (n : Nat) (x : Msix) (k : Nat) : (s.setVec n x).eq k = s.eq k := rfl
@[simp] theorem State.setVec_dom (n : Nat) (x : Msix) (k : Nat) : (s.setVec n x).dom k = s.dom k := rfl
@[simp] theorem State.setVec_fq (n : Nat) (x : Msix) (k : Nat) : (s.setVec n x).fq k = s.fq k := rfl
@[simp] theorem State.setVec_win (n : Nat) (x : Msix) (k : Nat) : (s.setVec n x).win k = s.win k := rfl
@[simp] theorem State.setVec_ou (n : Nat) (x : Msix) (k : Nat) : (s.setVec n x).ou k = s.ou k := rfl
@[simp] theorem State.setVec_pin (n : Nat) (x : Msix) (k : Nat) : (s.setVec n x).pin k = s.pin k := rfl
@[simp] theorem State.setVec_permitIn (n : Nat) (x : Msix) (k : Nat) : (s.setVec n x).permitIn k = s.permitIn k := rfl
@[simp] theorem State.setVec_port (n : Nat) (x : Msix) (k : Nat) : (s.setVec n x).port k = s.port k := rfl
@[simp] theorem State.setVec_txq (n : Nat) (x : Msix) (k : Nat) : (s.setVec n x).txq k = s.txq k := rfl
@[simp] theorem State.setVec_stream (n : Nat) (x : Msix) (k : Nat) : (s.setVec n x).stream k = s.stream k := rfl
@[simp] theorem State.setVec_yz (n : Nat) (x : Msix) : (s.setVec n x).yz = s.yz := rfl
@[simp] theorem State.setVec_cic (n : Nat) (x : Msix) (k : Nat) : (s.setVec n x).cic k = s.cic k := rfl
@[simp] theorem State.setVec_mb (n : Nat) (x : Msix) (k : Nat) : (s.setVec n x).mb k = s.mb k := rfl
@[simp] theorem State.setVec_core (n : Nat) (x : Msix) (k : Nat) : (s.setVec n x).core k = s.core k := rfl

@[simp] theorem State.setCic_now (n : Nat) (x : CicSrc) : (s.setCic n x).now = s.now := rfl
@[simp] theorem State.setCic_axes (n : Nat) (x : CicSrc) : (s.setCic n x).axes = s.axes := rfl
@[simp] theorem State.setCic_cmps (n : Nat) (x : CicSrc) : (s.setCic n x).cmps = s.cmps := rfl
@[simp] theorem State.setCic_caps (n : Nat) (x : CicSrc) : (s.setCic n x).caps = s.caps := rfl
@[simp] theorem State.setCic_chans (n : Nat) (x : CicSrc) : (s.setCic n x).chans = s.chans := rfl
@[simp] theorem State.setCic_sched (n : Nat) (x : CicSrc) : (s.setCic n x).sched = s.sched := rfl
@[simp] theorem State.setCic_movers (n : Nat) (x : CicSrc) : (s.setCic n x).movers = s.movers := rfl
@[simp] theorem State.setCic_queues (n : Nat) (x : CicSrc) : (s.setCic n x).queues = s.queues := rfl
@[simp] theorem State.setCic_xl (n : Nat) (x : CicSrc) : (s.setCic n x).xl = s.xl := rfl
@[simp] theorem State.setCic_outs (n : Nat) (x : CicSrc) : (s.setCic n x).outs = s.outs := rfl
@[simp] theorem State.setCic_lws (n : Nat) (x : CicSrc) : (s.setCic n x).lws = s.lws := rfl
@[simp] theorem State.setCic_net (n : Nat) (x : CicSrc) : (s.setCic n x).net = s.net := rfl
@[simp] theorem State.setCic_irq_vecs (n : Nat) (x : CicSrc) : (s.setCic n x).irq.vecs = s.irq.vecs := rfl
@[simp] theorem State.setCic_irq_msixEn (n : Nat) (x : CicSrc) : (s.setCic n x).irq.msixEn = s.irq.msixEn := rfl
@[simp] theorem State.setCic_irq_funcMask (n : Nat) (x : CicSrc) : (s.setCic n x).irq.funcMask = s.irq.funcMask := rfl
@[simp] theorem State.setCic_irq_bme (n : Nat) (x : CicSrc) : (s.setCic n x).irq.bme = s.irq.bme := rfl
@[simp] theorem State.setCic_irq_link (n : Nat) (x : CicSrc) : (s.setCic n x).irq.link = s.irq.link := rfl
@[simp] theorem State.setCic_irq_thresh (n : Nat) (x : CicSrc) : (s.setCic n x).irq.thresh = s.irq.thresh := rfl
@[simp] theorem State.setCic_irq_badComplete (n : Nat) (x : CicSrc) : (s.setCic n x).irq.badComplete = s.irq.badComplete := rfl
@[simp] theorem State.setCic_irq_msiAt (n : Nat) (x : CicSrc) : (s.setCic n x).irq.msiAt = s.irq.msiAt := rfl
@[simp] theorem State.setCic_und (n : Nat) (x : CicSrc) : (s.setCic n x).und = s.und := rfl
@[simp] theorem State.setCic_mbox (n : Nat) (x : CicSrc) : (s.setCic n x).mbox = s.mbox := rfl
@[simp] theorem State.setCic_cores (n : Nat) (x : CicSrc) : (s.setCic n x).cores = s.cores := rfl
@[simp] theorem State.setCic_mem (n : Nat) (x : CicSrc) : (s.setCic n x).mem = s.mem := rfl
@[simp] theorem State.setCic_fc (n : Nat) (x : CicSrc) : (s.setCic n x).fc = s.fc := rfl
@[simp] theorem State.setCic_rst (n : Nat) (x : CicSrc) : (s.setCic n x).rst = s.rst := rfl
@[simp] theorem State.setCic_boot (n : Nat) (x : CicSrc) : (s.setCic n x).boot = s.boot := rfl
@[simp] theorem State.setCic_svc (n : Nat) (x : CicSrc) : (s.setCic n x).svc = s.svc := rfl
@[simp] theorem State.setCic_latches (n : Nat) (x : CicSrc) : (s.setCic n x).latches = s.latches := rfl
@[simp] theorem State.setCic_out (n : Nat) (x : CicSrc) : (s.setCic n x).out = s.out := rfl
@[simp] theorem State.setCic_free (n : Nat) (x : CicSrc) : (s.setCic n x).free = s.free := rfl
@[simp] theorem State.setCic_pending (n : Nat) (x : CicSrc) : (s.setCic n x).pending = s.pending := rfl
@[simp] theorem State.setCic_cell (n : Nat) (x : CicSrc) (k : Nat) : (s.setCic n x).cell k = s.cell k := rfl
@[simp] theorem State.setCic_enc (n : Nat) (x : CicSrc) (k : Nat) : (s.setCic n x).enc k = s.enc k := rfl
@[simp] theorem State.setCic_ser (n : Nat) (x : CicSrc) (k : Nat) : (s.setCic n x).ser k = s.ser k := rfl
@[simp] theorem State.setCic_mainsIn (n : Nat) (x : CicSrc) (k : Nat) : (s.setCic n x).mainsIn k = s.mainsIn k := rfl
@[simp] theorem State.setCic_cmp (n : Nat) (x : CicSrc) (k : Nat) : (s.setCic n x).cmp k = s.cmp k := rfl
@[simp] theorem State.setCic_cap (n : Nat) (x : CicSrc) (k : Nat) : (s.setCic n x).cap k = s.cap k := rfl
@[simp] theorem State.setCic_chan (n : Nat) (x : CicSrc) (k : Nat) : (s.setCic n x).chan k = s.chan k := rfl
@[simp] theorem State.setCic_wq (n : Nat) (x : CicSrc) (k : Nat) : (s.setCic n x).wq k = s.wq k := rfl
@[simp] theorem State.setCic_eq (n : Nat) (x : CicSrc) (k : Nat) : (s.setCic n x).eq k = s.eq k := rfl
@[simp] theorem State.setCic_dom (n : Nat) (x : CicSrc) (k : Nat) : (s.setCic n x).dom k = s.dom k := rfl
@[simp] theorem State.setCic_fq (n : Nat) (x : CicSrc) (k : Nat) : (s.setCic n x).fq k = s.fq k := rfl
@[simp] theorem State.setCic_win (n : Nat) (x : CicSrc) (k : Nat) : (s.setCic n x).win k = s.win k := rfl
@[simp] theorem State.setCic_ou (n : Nat) (x : CicSrc) (k : Nat) : (s.setCic n x).ou k = s.ou k := rfl
@[simp] theorem State.setCic_pin (n : Nat) (x : CicSrc) (k : Nat) : (s.setCic n x).pin k = s.pin k := rfl
@[simp] theorem State.setCic_permitIn (n : Nat) (x : CicSrc) (k : Nat) : (s.setCic n x).permitIn k = s.permitIn k := rfl
@[simp] theorem State.setCic_port (n : Nat) (x : CicSrc) (k : Nat) : (s.setCic n x).port k = s.port k := rfl
@[simp] theorem State.setCic_txq (n : Nat) (x : CicSrc) (k : Nat) : (s.setCic n x).txq k = s.txq k := rfl
@[simp] theorem State.setCic_stream (n : Nat) (x : CicSrc) (k : Nat) : (s.setCic n x).stream k = s.stream k := rfl
@[simp] theorem State.setCic_yz (n : Nat) (x : CicSrc) : (s.setCic n x).yz = s.yz := rfl
@[simp] theorem State.setCic_vec (n : Nat) (x : CicSrc) (k : Nat) : (s.setCic n x).vec k = s.vec k := rfl
@[simp] theorem State.setCic_mb (n : Nat) (x : CicSrc) (k : Nat) : (s.setCic n x).mb k = s.mb k := rfl
@[simp] theorem State.setCic_core (n : Nat) (x : CicSrc) (k : Nat) : (s.setCic n x).core k = s.core k := rfl

@[simp] theorem State.setMb_now (n : Nat) (x : Mbox) : (s.setMb n x).now = s.now := rfl
@[simp] theorem State.setMb_axes (n : Nat) (x : Mbox) : (s.setMb n x).axes = s.axes := rfl
@[simp] theorem State.setMb_cmps (n : Nat) (x : Mbox) : (s.setMb n x).cmps = s.cmps := rfl
@[simp] theorem State.setMb_caps (n : Nat) (x : Mbox) : (s.setMb n x).caps = s.caps := rfl
@[simp] theorem State.setMb_chans (n : Nat) (x : Mbox) : (s.setMb n x).chans = s.chans := rfl
@[simp] theorem State.setMb_sched (n : Nat) (x : Mbox) : (s.setMb n x).sched = s.sched := rfl
@[simp] theorem State.setMb_movers (n : Nat) (x : Mbox) : (s.setMb n x).movers = s.movers := rfl
@[simp] theorem State.setMb_queues (n : Nat) (x : Mbox) : (s.setMb n x).queues = s.queues := rfl
@[simp] theorem State.setMb_xl (n : Nat) (x : Mbox) : (s.setMb n x).xl = s.xl := rfl
@[simp] theorem State.setMb_outs (n : Nat) (x : Mbox) : (s.setMb n x).outs = s.outs := rfl
@[simp] theorem State.setMb_lws (n : Nat) (x : Mbox) : (s.setMb n x).lws = s.lws := rfl
@[simp] theorem State.setMb_net (n : Nat) (x : Mbox) : (s.setMb n x).net = s.net := rfl
@[simp] theorem State.setMb_irq (n : Nat) (x : Mbox) : (s.setMb n x).irq = s.irq := rfl
@[simp] theorem State.setMb_und (n : Nat) (x : Mbox) : (s.setMb n x).und = s.und := rfl
@[simp] theorem State.setMb_mbox_locked (n : Nat) (x : Mbox) : (s.setMb n x).mbox.locked = s.mbox.locked := rfl
@[simp] theorem State.setMb_mbox_cfgRej (n : Nat) (x : Mbox) : (s.setMb n x).mbox.cfgRej = s.mbox.cfgRej := rfl
@[simp] theorem State.setMb_mbox_foreign (n : Nat) (x : Mbox) : (s.setMb n x).mbox.foreign = s.mbox.foreign := rfl
@[simp] theorem State.setMb_cores (n : Nat) (x : Mbox) : (s.setMb n x).cores = s.cores := rfl
@[simp] theorem State.setMb_mem (n : Nat) (x : Mbox) : (s.setMb n x).mem = s.mem := rfl
@[simp] theorem State.setMb_fc (n : Nat) (x : Mbox) : (s.setMb n x).fc = s.fc := rfl
@[simp] theorem State.setMb_rst (n : Nat) (x : Mbox) : (s.setMb n x).rst = s.rst := rfl
@[simp] theorem State.setMb_boot (n : Nat) (x : Mbox) : (s.setMb n x).boot = s.boot := rfl
@[simp] theorem State.setMb_svc (n : Nat) (x : Mbox) : (s.setMb n x).svc = s.svc := rfl
@[simp] theorem State.setMb_latches (n : Nat) (x : Mbox) : (s.setMb n x).latches = s.latches := rfl
@[simp] theorem State.setMb_out (n : Nat) (x : Mbox) : (s.setMb n x).out = s.out := rfl
@[simp] theorem State.setMb_free (n : Nat) (x : Mbox) : (s.setMb n x).free = s.free := rfl
@[simp] theorem State.setMb_pending (n : Nat) (x : Mbox) : (s.setMb n x).pending = s.pending := rfl
@[simp] theorem State.setMb_cell (n : Nat) (x : Mbox) (k : Nat) : (s.setMb n x).cell k = s.cell k := rfl
@[simp] theorem State.setMb_enc (n : Nat) (x : Mbox) (k : Nat) : (s.setMb n x).enc k = s.enc k := rfl
@[simp] theorem State.setMb_ser (n : Nat) (x : Mbox) (k : Nat) : (s.setMb n x).ser k = s.ser k := rfl
@[simp] theorem State.setMb_mainsIn (n : Nat) (x : Mbox) (k : Nat) : (s.setMb n x).mainsIn k = s.mainsIn k := rfl
@[simp] theorem State.setMb_cmp (n : Nat) (x : Mbox) (k : Nat) : (s.setMb n x).cmp k = s.cmp k := rfl
@[simp] theorem State.setMb_cap (n : Nat) (x : Mbox) (k : Nat) : (s.setMb n x).cap k = s.cap k := rfl
@[simp] theorem State.setMb_chan (n : Nat) (x : Mbox) (k : Nat) : (s.setMb n x).chan k = s.chan k := rfl
@[simp] theorem State.setMb_wq (n : Nat) (x : Mbox) (k : Nat) : (s.setMb n x).wq k = s.wq k := rfl
@[simp] theorem State.setMb_eq (n : Nat) (x : Mbox) (k : Nat) : (s.setMb n x).eq k = s.eq k := rfl
@[simp] theorem State.setMb_dom (n : Nat) (x : Mbox) (k : Nat) : (s.setMb n x).dom k = s.dom k := rfl
@[simp] theorem State.setMb_fq (n : Nat) (x : Mbox) (k : Nat) : (s.setMb n x).fq k = s.fq k := rfl
@[simp] theorem State.setMb_win (n : Nat) (x : Mbox) (k : Nat) : (s.setMb n x).win k = s.win k := rfl
@[simp] theorem State.setMb_ou (n : Nat) (x : Mbox) (k : Nat) : (s.setMb n x).ou k = s.ou k := rfl
@[simp] theorem State.setMb_pin (n : Nat) (x : Mbox) (k : Nat) : (s.setMb n x).pin k = s.pin k := rfl
@[simp] theorem State.setMb_permitIn (n : Nat) (x : Mbox) (k : Nat) : (s.setMb n x).permitIn k = s.permitIn k := rfl
@[simp] theorem State.setMb_port (n : Nat) (x : Mbox) (k : Nat) : (s.setMb n x).port k = s.port k := rfl
@[simp] theorem State.setMb_txq (n : Nat) (x : Mbox) (k : Nat) : (s.setMb n x).txq k = s.txq k := rfl
@[simp] theorem State.setMb_stream (n : Nat) (x : Mbox) (k : Nat) : (s.setMb n x).stream k = s.stream k := rfl
@[simp] theorem State.setMb_yz (n : Nat) (x : Mbox) : (s.setMb n x).yz = s.yz := rfl
@[simp] theorem State.setMb_vec (n : Nat) (x : Mbox) (k : Nat) : (s.setMb n x).vec k = s.vec k := rfl
@[simp] theorem State.setMb_cic (n : Nat) (x : Mbox) (k : Nat) : (s.setMb n x).cic k = s.cic k := rfl
@[simp] theorem State.setMb_core (n : Nat) (x : Mbox) (k : Nat) : (s.setMb n x).core k = s.core k := rfl

@[simp] theorem State.setCore_now (n : Nat) (x : Machine.Core) : (s.setCore n x).now = s.now := rfl
@[simp] theorem State.setCore_axes (n : Nat) (x : Machine.Core) : (s.setCore n x).axes = s.axes := rfl
@[simp] theorem State.setCore_cmps (n : Nat) (x : Machine.Core) : (s.setCore n x).cmps = s.cmps := rfl
@[simp] theorem State.setCore_caps (n : Nat) (x : Machine.Core) : (s.setCore n x).caps = s.caps := rfl
@[simp] theorem State.setCore_chans (n : Nat) (x : Machine.Core) : (s.setCore n x).chans = s.chans := rfl
@[simp] theorem State.setCore_sched (n : Nat) (x : Machine.Core) : (s.setCore n x).sched = s.sched := rfl
@[simp] theorem State.setCore_movers (n : Nat) (x : Machine.Core) : (s.setCore n x).movers = s.movers := rfl
@[simp] theorem State.setCore_queues (n : Nat) (x : Machine.Core) : (s.setCore n x).queues = s.queues := rfl
@[simp] theorem State.setCore_xl (n : Nat) (x : Machine.Core) : (s.setCore n x).xl = s.xl := rfl
@[simp] theorem State.setCore_outs (n : Nat) (x : Machine.Core) : (s.setCore n x).outs = s.outs := rfl
@[simp] theorem State.setCore_lws (n : Nat) (x : Machine.Core) : (s.setCore n x).lws = s.lws := rfl
@[simp] theorem State.setCore_net (n : Nat) (x : Machine.Core) : (s.setCore n x).net = s.net := rfl
@[simp] theorem State.setCore_irq (n : Nat) (x : Machine.Core) : (s.setCore n x).irq = s.irq := rfl
@[simp] theorem State.setCore_und (n : Nat) (x : Machine.Core) : (s.setCore n x).und = s.und := rfl
@[simp] theorem State.setCore_mbox (n : Nat) (x : Machine.Core) : (s.setCore n x).mbox = s.mbox := rfl
@[simp] theorem State.setCore_mem (n : Nat) (x : Machine.Core) : (s.setCore n x).mem = s.mem := rfl
@[simp] theorem State.setCore_fc (n : Nat) (x : Machine.Core) : (s.setCore n x).fc = s.fc := rfl
@[simp] theorem State.setCore_rst (n : Nat) (x : Machine.Core) : (s.setCore n x).rst = s.rst := rfl
@[simp] theorem State.setCore_boot (n : Nat) (x : Machine.Core) : (s.setCore n x).boot = s.boot := rfl
@[simp] theorem State.setCore_svc (n : Nat) (x : Machine.Core) : (s.setCore n x).svc = s.svc := rfl
@[simp] theorem State.setCore_latches (n : Nat) (x : Machine.Core) : (s.setCore n x).latches = s.latches := rfl
@[simp] theorem State.setCore_out (n : Nat) (x : Machine.Core) : (s.setCore n x).out = s.out := rfl
@[simp] theorem State.setCore_free (n : Nat) (x : Machine.Core) : (s.setCore n x).free = s.free := rfl
@[simp] theorem State.setCore_pending (n : Nat) (x : Machine.Core) : (s.setCore n x).pending = s.pending := rfl
@[simp] theorem State.setCore_cell (n : Nat) (x : Machine.Core) (k : Nat) : (s.setCore n x).cell k = s.cell k := rfl
@[simp] theorem State.setCore_enc (n : Nat) (x : Machine.Core) (k : Nat) : (s.setCore n x).enc k = s.enc k := rfl
@[simp] theorem State.setCore_ser (n : Nat) (x : Machine.Core) (k : Nat) : (s.setCore n x).ser k = s.ser k := rfl
@[simp] theorem State.setCore_mainsIn (n : Nat) (x : Machine.Core) (k : Nat) : (s.setCore n x).mainsIn k = s.mainsIn k := rfl
@[simp] theorem State.setCore_cmp (n : Nat) (x : Machine.Core) (k : Nat) : (s.setCore n x).cmp k = s.cmp k := rfl
@[simp] theorem State.setCore_cap (n : Nat) (x : Machine.Core) (k : Nat) : (s.setCore n x).cap k = s.cap k := rfl
@[simp] theorem State.setCore_chan (n : Nat) (x : Machine.Core) (k : Nat) : (s.setCore n x).chan k = s.chan k := rfl
@[simp] theorem State.setCore_wq (n : Nat) (x : Machine.Core) (k : Nat) : (s.setCore n x).wq k = s.wq k := rfl
@[simp] theorem State.setCore_eq (n : Nat) (x : Machine.Core) (k : Nat) : (s.setCore n x).eq k = s.eq k := rfl
@[simp] theorem State.setCore_dom (n : Nat) (x : Machine.Core) (k : Nat) : (s.setCore n x).dom k = s.dom k := rfl
@[simp] theorem State.setCore_fq (n : Nat) (x : Machine.Core) (k : Nat) : (s.setCore n x).fq k = s.fq k := rfl
@[simp] theorem State.setCore_win (n : Nat) (x : Machine.Core) (k : Nat) : (s.setCore n x).win k = s.win k := rfl
@[simp] theorem State.setCore_ou (n : Nat) (x : Machine.Core) (k : Nat) : (s.setCore n x).ou k = s.ou k := rfl
@[simp] theorem State.setCore_pin (n : Nat) (x : Machine.Core) (k : Nat) : (s.setCore n x).pin k = s.pin k := rfl
@[simp] theorem State.setCore_permitIn (n : Nat) (x : Machine.Core) (k : Nat) : (s.setCore n x).permitIn k = s.permitIn k := rfl
@[simp] theorem State.setCore_port (n : Nat) (x : Machine.Core) (k : Nat) : (s.setCore n x).port k = s.port k := rfl
@[simp] theorem State.setCore_txq (n : Nat) (x : Machine.Core) (k : Nat) : (s.setCore n x).txq k = s.txq k := rfl
@[simp] theorem State.setCore_stream (n : Nat) (x : Machine.Core) (k : Nat) : (s.setCore n x).stream k = s.stream k := rfl
@[simp] theorem State.setCore_yz (n : Nat) (x : Machine.Core) : (s.setCore n x).yz = s.yz := rfl
@[simp] theorem State.setCore_vec (n : Nat) (x : Machine.Core) (k : Nat) : (s.setCore n x).vec k = s.vec k := rfl
@[simp] theorem State.setCore_cic (n : Nat) (x : Machine.Core) (k : Nat) : (s.setCore n x).cic k = s.cic k := rfl
@[simp] theorem State.setCore_mb (n : Nat) (x : Machine.Core) (k : Nat) : (s.setCore n x).mb k = s.mb k := rfl

@[simp] theorem State.modUnd_now (f : Und → Und) : (s.modUnd f).now = s.now := rfl
@[simp] theorem State.modUnd_axes (f : Und → Und) : (s.modUnd f).axes = s.axes := rfl
@[simp] theorem State.modUnd_cmps (f : Und → Und) : (s.modUnd f).cmps = s.cmps := rfl
@[simp] theorem State.modUnd_caps (f : Und → Und) : (s.modUnd f).caps = s.caps := rfl
@[simp] theorem State.modUnd_chans (f : Und → Und) : (s.modUnd f).chans = s.chans := rfl
@[simp] theorem State.modUnd_sched (f : Und → Und) : (s.modUnd f).sched = s.sched := rfl
@[simp] theorem State.modUnd_movers (f : Und → Und) : (s.modUnd f).movers = s.movers := rfl
@[simp] theorem State.modUnd_queues (f : Und → Und) : (s.modUnd f).queues = s.queues := rfl
@[simp] theorem State.modUnd_xl (f : Und → Und) : (s.modUnd f).xl = s.xl := rfl
@[simp] theorem State.modUnd_outs (f : Und → Und) : (s.modUnd f).outs = s.outs := rfl
@[simp] theorem State.modUnd_lws (f : Und → Und) : (s.modUnd f).lws = s.lws := rfl
@[simp] theorem State.modUnd_net (f : Und → Und) : (s.modUnd f).net = s.net := rfl
@[simp] theorem State.modUnd_irq (f : Und → Und) : (s.modUnd f).irq = s.irq := rfl
@[simp] theorem State.modUnd_mbox (f : Und → Und) : (s.modUnd f).mbox = s.mbox := rfl
@[simp] theorem State.modUnd_cores (f : Und → Und) : (s.modUnd f).cores = s.cores := rfl
@[simp] theorem State.modUnd_mem (f : Und → Und) : (s.modUnd f).mem = s.mem := rfl
@[simp] theorem State.modUnd_fc (f : Und → Und) : (s.modUnd f).fc = s.fc := rfl
@[simp] theorem State.modUnd_rst (f : Und → Und) : (s.modUnd f).rst = s.rst := rfl
@[simp] theorem State.modUnd_boot (f : Und → Und) : (s.modUnd f).boot = s.boot := rfl
@[simp] theorem State.modUnd_svc (f : Und → Und) : (s.modUnd f).svc = s.svc := rfl
@[simp] theorem State.modUnd_latches (f : Und → Und) : (s.modUnd f).latches = s.latches := rfl
@[simp] theorem State.modUnd_out (f : Und → Und) : (s.modUnd f).out = s.out := rfl
@[simp] theorem State.modUnd_free (f : Und → Und) : (s.modUnd f).free = s.free := rfl
@[simp] theorem State.modUnd_pending (f : Und → Und) : (s.modUnd f).pending = s.pending := rfl
@[simp] theorem State.modUnd_cell (f : Und → Und) (k : Nat) : (s.modUnd f).cell k = s.cell k := rfl
@[simp] theorem State.modUnd_enc (f : Und → Und) (k : Nat) : (s.modUnd f).enc k = s.enc k := rfl
@[simp] theorem State.modUnd_ser (f : Und → Und) (k : Nat) : (s.modUnd f).ser k = s.ser k := rfl
@[simp] theorem State.modUnd_mainsIn (f : Und → Und) (k : Nat) : (s.modUnd f).mainsIn k = s.mainsIn k := rfl
@[simp] theorem State.modUnd_cmp (f : Und → Und) (k : Nat) : (s.modUnd f).cmp k = s.cmp k := rfl
@[simp] theorem State.modUnd_cap (f : Und → Und) (k : Nat) : (s.modUnd f).cap k = s.cap k := rfl
@[simp] theorem State.modUnd_chan (f : Und → Und) (k : Nat) : (s.modUnd f).chan k = s.chan k := rfl
@[simp] theorem State.modUnd_wq (f : Und → Und) (k : Nat) : (s.modUnd f).wq k = s.wq k := rfl
@[simp] theorem State.modUnd_eq (f : Und → Und) (k : Nat) : (s.modUnd f).eq k = s.eq k := rfl
@[simp] theorem State.modUnd_dom (f : Und → Und) (k : Nat) : (s.modUnd f).dom k = s.dom k := rfl
@[simp] theorem State.modUnd_fq (f : Und → Und) (k : Nat) : (s.modUnd f).fq k = s.fq k := rfl
@[simp] theorem State.modUnd_win (f : Und → Und) (k : Nat) : (s.modUnd f).win k = s.win k := rfl
@[simp] theorem State.modUnd_ou (f : Und → Und) (k : Nat) : (s.modUnd f).ou k = s.ou k := rfl
@[simp] theorem State.modUnd_pin (f : Und → Und) (k : Nat) : (s.modUnd f).pin k = s.pin k := rfl
@[simp] theorem State.modUnd_permitIn (f : Und → Und) (k : Nat) : (s.modUnd f).permitIn k = s.permitIn k := rfl
@[simp] theorem State.modUnd_port (f : Und → Und) (k : Nat) : (s.modUnd f).port k = s.port k := rfl
@[simp] theorem State.modUnd_txq (f : Und → Und) (k : Nat) : (s.modUnd f).txq k = s.txq k := rfl
@[simp] theorem State.modUnd_stream (f : Und → Und) (k : Nat) : (s.modUnd f).stream k = s.stream k := rfl
@[simp] theorem State.modUnd_yz (f : Und → Und) : (s.modUnd f).yz = s.yz := rfl
@[simp] theorem State.modUnd_vec (f : Und → Und) (k : Nat) : (s.modUnd f).vec k = s.vec k := rfl
@[simp] theorem State.modUnd_cic (f : Und → Und) (k : Nat) : (s.modUnd f).cic k = s.cic k := rfl
@[simp] theorem State.modUnd_mb (f : Und → Und) (k : Nat) : (s.modUnd f).mb k = s.mb k := rfl
@[simp] theorem State.modUnd_core (f : Und → Und) (k : Nat) : (s.modUnd f).core k = s.core k := rfl

@[simp] theorem State.arrive_axes (t : Time) : (s.arrive t).axes = s.axes := rfl
@[simp] theorem State.arrive_cmps (t : Time) : (s.arrive t).cmps = s.cmps := rfl
@[simp] theorem State.arrive_caps (t : Time) : (s.arrive t).caps = s.caps := rfl
@[simp] theorem State.arrive_chans (t : Time) : (s.arrive t).chans = s.chans := rfl
@[simp] theorem State.arrive_sched (t : Time) : (s.arrive t).sched = s.sched := rfl
@[simp] theorem State.arrive_movers (t : Time) : (s.arrive t).movers = s.movers := rfl
@[simp] theorem State.arrive_queues (t : Time) : (s.arrive t).queues = s.queues := rfl
@[simp] theorem State.arrive_xl (t : Time) : (s.arrive t).xl = s.xl := rfl
@[simp] theorem State.arrive_outs (t : Time) : (s.arrive t).outs = s.outs := rfl
@[simp] theorem State.arrive_lws (t : Time) : (s.arrive t).lws = s.lws := rfl
@[simp] theorem State.arrive_net (t : Time) : (s.arrive t).net = s.net := rfl
@[simp] theorem State.arrive_irq (t : Time) : (s.arrive t).irq = s.irq := rfl
@[simp] theorem State.arrive_und (t : Time) : (s.arrive t).und = s.und := rfl
@[simp] theorem State.arrive_mbox (t : Time) : (s.arrive t).mbox = s.mbox := rfl
@[simp] theorem State.arrive_cores (t : Time) : (s.arrive t).cores = s.cores := rfl
@[simp] theorem State.arrive_mem (t : Time) : (s.arrive t).mem = s.mem := rfl
@[simp] theorem State.arrive_fc (t : Time) : (s.arrive t).fc = s.fc := rfl
@[simp] theorem State.arrive_rst (t : Time) : (s.arrive t).rst = s.rst := rfl
@[simp] theorem State.arrive_boot (t : Time) : (s.arrive t).boot = s.boot := rfl
@[simp] theorem State.arrive_svc (t : Time) : (s.arrive t).svc = s.svc := rfl
@[simp] theorem State.arrive_latches (t : Time) : (s.arrive t).latches = s.latches := rfl
@[simp] theorem State.arrive_out (t : Time) : (s.arrive t).out = s.out := rfl
@[simp] theorem State.arrive_free (t : Time) : (s.arrive t).free = s.free := rfl
@[simp] theorem State.arrive_pending (t : Time) : (s.arrive t).pending = s.pending := rfl
@[simp] theorem State.arrive_cell (t : Time) (k : Nat) : (s.arrive t).cell k = s.cell k := rfl
@[simp] theorem State.arrive_enc (t : Time) (k : Nat) : (s.arrive t).enc k = s.enc k := rfl
@[simp] theorem State.arrive_ser (t : Time) (k : Nat) : (s.arrive t).ser k = s.ser k := rfl
@[simp] theorem State.arrive_mainsIn (t : Time) (k : Nat) : (s.arrive t).mainsIn k = s.mainsIn k := rfl
@[simp] theorem State.arrive_cmp (t : Time) (k : Nat) : (s.arrive t).cmp k = s.cmp k := rfl
@[simp] theorem State.arrive_cap (t : Time) (k : Nat) : (s.arrive t).cap k = s.cap k := rfl
@[simp] theorem State.arrive_chan (t : Time) (k : Nat) : (s.arrive t).chan k = s.chan k := rfl
@[simp] theorem State.arrive_wq (t : Time) (k : Nat) : (s.arrive t).wq k = s.wq k := rfl
@[simp] theorem State.arrive_eq (t : Time) (k : Nat) : (s.arrive t).eq k = s.eq k := rfl
@[simp] theorem State.arrive_dom (t : Time) (k : Nat) : (s.arrive t).dom k = s.dom k := rfl
@[simp] theorem State.arrive_fq (t : Time) (k : Nat) : (s.arrive t).fq k = s.fq k := rfl
@[simp] theorem State.arrive_win (t : Time) (k : Nat) : (s.arrive t).win k = s.win k := rfl
@[simp] theorem State.arrive_ou (t : Time) (k : Nat) : (s.arrive t).ou k = s.ou k := rfl
@[simp] theorem State.arrive_pin (t : Time) (k : Nat) : (s.arrive t).pin k = s.pin k := rfl
@[simp] theorem State.arrive_permitIn (t : Time) (k : Nat) : (s.arrive t).permitIn k = s.permitIn k := rfl
@[simp] theorem State.arrive_port (t : Time) (k : Nat) : (s.arrive t).port k = s.port k := rfl
@[simp] theorem State.arrive_txq (t : Time) (k : Nat) : (s.arrive t).txq k = s.txq k := rfl
@[simp] theorem State.arrive_stream (t : Time) (k : Nat) : (s.arrive t).stream k = s.stream k := rfl
@[simp] theorem State.arrive_yz (t : Time) : (s.arrive t).yz = s.yz := rfl
@[simp] theorem State.arrive_vec (t : Time) (k : Nat) : (s.arrive t).vec k = s.vec k := rfl
@[simp] theorem State.arrive_cic (t : Time) (k : Nat) : (s.arrive t).cic k = s.cic k := rfl
@[simp] theorem State.arrive_mb (t : Time) (k : Nat) : (s.arrive t).mb k = s.mb k := rfl
@[simp] theorem State.arrive_core (t : Time) (k : Nat) : (s.arrive t).core k = s.core k := rfl

@[simp] theorem State.emit_now (x : Out) : (s.emit x).now = s.now := rfl
@[simp] theorem State.emit_axes (x : Out) : (s.emit x).axes = s.axes := rfl
@[simp] theorem State.emit_cmps (x : Out) : (s.emit x).cmps = s.cmps := rfl
@[simp] theorem State.emit_caps (x : Out) : (s.emit x).caps = s.caps := rfl
@[simp] theorem State.emit_chans (x : Out) : (s.emit x).chans = s.chans := rfl
@[simp] theorem State.emit_sched (x : Out) : (s.emit x).sched = s.sched := rfl
@[simp] theorem State.emit_movers (x : Out) : (s.emit x).movers = s.movers := rfl
@[simp] theorem State.emit_queues (x : Out) : (s.emit x).queues = s.queues := rfl
@[simp] theorem State.emit_xl (x : Out) : (s.emit x).xl = s.xl := rfl
@[simp] theorem State.emit_outs (x : Out) : (s.emit x).outs = s.outs := rfl
@[simp] theorem State.emit_lws (x : Out) : (s.emit x).lws = s.lws := rfl
@[simp] theorem State.emit_net (x : Out) : (s.emit x).net = s.net := rfl
@[simp] theorem State.emit_irq (x : Out) : (s.emit x).irq = s.irq := rfl
@[simp] theorem State.emit_und (x : Out) : (s.emit x).und = s.und := rfl
@[simp] theorem State.emit_mbox (x : Out) : (s.emit x).mbox = s.mbox := rfl
@[simp] theorem State.emit_cores (x : Out) : (s.emit x).cores = s.cores := rfl
@[simp] theorem State.emit_mem (x : Out) : (s.emit x).mem = s.mem := rfl
@[simp] theorem State.emit_fc (x : Out) : (s.emit x).fc = s.fc := rfl
@[simp] theorem State.emit_rst (x : Out) : (s.emit x).rst = s.rst := rfl
@[simp] theorem State.emit_boot (x : Out) : (s.emit x).boot = s.boot := rfl
@[simp] theorem State.emit_svc (x : Out) : (s.emit x).svc = s.svc := rfl
@[simp] theorem State.emit_latches (x : Out) : (s.emit x).latches = s.latches := rfl
@[simp] theorem State.emit_free (x : Out) : (s.emit x).free = s.free := rfl
@[simp] theorem State.emit_pending (x : Out) : (s.emit x).pending = s.pending := rfl
@[simp] theorem State.emit_cell (x : Out) (k : Nat) : (s.emit x).cell k = s.cell k := rfl
@[simp] theorem State.emit_enc (x : Out) (k : Nat) : (s.emit x).enc k = s.enc k := rfl
@[simp] theorem State.emit_ser (x : Out) (k : Nat) : (s.emit x).ser k = s.ser k := rfl
@[simp] theorem State.emit_mainsIn (x : Out) (k : Nat) : (s.emit x).mainsIn k = s.mainsIn k := rfl
@[simp] theorem State.emit_cmp (x : Out) (k : Nat) : (s.emit x).cmp k = s.cmp k := rfl
@[simp] theorem State.emit_cap (x : Out) (k : Nat) : (s.emit x).cap k = s.cap k := rfl
@[simp] theorem State.emit_chan (x : Out) (k : Nat) : (s.emit x).chan k = s.chan k := rfl
@[simp] theorem State.emit_wq (x : Out) (k : Nat) : (s.emit x).wq k = s.wq k := rfl
@[simp] theorem State.emit_eq (x : Out) (k : Nat) : (s.emit x).eq k = s.eq k := rfl
@[simp] theorem State.emit_dom (x : Out) (k : Nat) : (s.emit x).dom k = s.dom k := rfl
@[simp] theorem State.emit_fq (x : Out) (k : Nat) : (s.emit x).fq k = s.fq k := rfl
@[simp] theorem State.emit_win (x : Out) (k : Nat) : (s.emit x).win k = s.win k := rfl
@[simp] theorem State.emit_ou (x : Out) (k : Nat) : (s.emit x).ou k = s.ou k := rfl
@[simp] theorem State.emit_pin (x : Out) (k : Nat) : (s.emit x).pin k = s.pin k := rfl
@[simp] theorem State.emit_permitIn (x : Out) (k : Nat) : (s.emit x).permitIn k = s.permitIn k := rfl
@[simp] theorem State.emit_port (x : Out) (k : Nat) : (s.emit x).port k = s.port k := rfl
@[simp] theorem State.emit_txq (x : Out) (k : Nat) : (s.emit x).txq k = s.txq k := rfl
@[simp] theorem State.emit_stream (x : Out) (k : Nat) : (s.emit x).stream k = s.stream k := rfl
@[simp] theorem State.emit_yz (x : Out) : (s.emit x).yz = s.yz := rfl
@[simp] theorem State.emit_vec (x : Out) (k : Nat) : (s.emit x).vec k = s.vec k := rfl
@[simp] theorem State.emit_cic (x : Out) (k : Nat) : (s.emit x).cic k = s.cic k := rfl
@[simp] theorem State.emit_mb (x : Out) (k : Nat) : (s.emit x).mb k = s.mb k := rfl
@[simp] theorem State.emit_core (x : Out) (k : Nat) : (s.emit x).core k = s.core k := rfl

@[simp] theorem State.reply_now (w : Word) : (s.reply w).now = s.now := rfl
@[simp] theorem State.reply_axes (w : Word) : (s.reply w).axes = s.axes := rfl
@[simp] theorem State.reply_cmps (w : Word) : (s.reply w).cmps = s.cmps := rfl
@[simp] theorem State.reply_caps (w : Word) : (s.reply w).caps = s.caps := rfl
@[simp] theorem State.reply_chans (w : Word) : (s.reply w).chans = s.chans := rfl
@[simp] theorem State.reply_sched (w : Word) : (s.reply w).sched = s.sched := rfl
@[simp] theorem State.reply_movers (w : Word) : (s.reply w).movers = s.movers := rfl
@[simp] theorem State.reply_queues (w : Word) : (s.reply w).queues = s.queues := rfl
@[simp] theorem State.reply_xl (w : Word) : (s.reply w).xl = s.xl := rfl
@[simp] theorem State.reply_outs (w : Word) : (s.reply w).outs = s.outs := rfl
@[simp] theorem State.reply_lws (w : Word) : (s.reply w).lws = s.lws := rfl
@[simp] theorem State.reply_net (w : Word) : (s.reply w).net = s.net := rfl
@[simp] theorem State.reply_irq (w : Word) : (s.reply w).irq = s.irq := rfl
@[simp] theorem State.reply_und (w : Word) : (s.reply w).und = s.und := rfl
@[simp] theorem State.reply_mbox (w : Word) : (s.reply w).mbox = s.mbox := rfl
@[simp] theorem State.reply_cores (w : Word) : (s.reply w).cores = s.cores := rfl
@[simp] theorem State.reply_mem (w : Word) : (s.reply w).mem = s.mem := rfl
@[simp] theorem State.reply_fc (w : Word) : (s.reply w).fc = s.fc := rfl
@[simp] theorem State.reply_rst (w : Word) : (s.reply w).rst = s.rst := rfl
@[simp] theorem State.reply_boot (w : Word) : (s.reply w).boot = s.boot := rfl
@[simp] theorem State.reply_svc (w : Word) : (s.reply w).svc = s.svc := rfl
@[simp] theorem State.reply_latches (w : Word) : (s.reply w).latches = s.latches := rfl
@[simp] theorem State.reply_free (w : Word) : (s.reply w).free = s.free := rfl
@[simp] theorem State.reply_pending (w : Word) : (s.reply w).pending = s.pending := rfl
@[simp] theorem State.reply_cell (w : Word) (k : Nat) : (s.reply w).cell k = s.cell k := rfl
@[simp] theorem State.reply_enc (w : Word) (k : Nat) : (s.reply w).enc k = s.enc k := rfl
@[simp] theorem State.reply_ser (w : Word) (k : Nat) : (s.reply w).ser k = s.ser k := rfl
@[simp] theorem State.reply_mainsIn (w : Word) (k : Nat) : (s.reply w).mainsIn k = s.mainsIn k := rfl
@[simp] theorem State.reply_cmp (w : Word) (k : Nat) : (s.reply w).cmp k = s.cmp k := rfl
@[simp] theorem State.reply_cap (w : Word) (k : Nat) : (s.reply w).cap k = s.cap k := rfl
@[simp] theorem State.reply_chan (w : Word) (k : Nat) : (s.reply w).chan k = s.chan k := rfl
@[simp] theorem State.reply_wq (w : Word) (k : Nat) : (s.reply w).wq k = s.wq k := rfl
@[simp] theorem State.reply_eq (w : Word) (k : Nat) : (s.reply w).eq k = s.eq k := rfl
@[simp] theorem State.reply_dom (w : Word) (k : Nat) : (s.reply w).dom k = s.dom k := rfl
@[simp] theorem State.reply_fq (w : Word) (k : Nat) : (s.reply w).fq k = s.fq k := rfl
@[simp] theorem State.reply_win (w : Word) (k : Nat) : (s.reply w).win k = s.win k := rfl
@[simp] theorem State.reply_ou (w : Word) (k : Nat) : (s.reply w).ou k = s.ou k := rfl
@[simp] theorem State.reply_pin (w : Word) (k : Nat) : (s.reply w).pin k = s.pin k := rfl
@[simp] theorem State.reply_permitIn (w : Word) (k : Nat) : (s.reply w).permitIn k = s.permitIn k := rfl
@[simp] theorem State.reply_port (w : Word) (k : Nat) : (s.reply w).port k = s.port k := rfl
@[simp] theorem State.reply_txq (w : Word) (k : Nat) : (s.reply w).txq k = s.txq k := rfl
@[simp] theorem State.reply_stream (w : Word) (k : Nat) : (s.reply w).stream k = s.stream k := rfl
@[simp] theorem State.reply_yz (w : Word) : (s.reply w).yz = s.yz := rfl
@[simp] theorem State.reply_vec (w : Word) (k : Nat) : (s.reply w).vec k = s.vec k := rfl
@[simp] theorem State.reply_cic (w : Word) (k : Nat) : (s.reply w).cic k = s.cic k := rfl
@[simp] theorem State.reply_mb (w : Word) (k : Nat) : (s.reply w).mb k = s.mb k := rfl
@[simp] theorem State.reply_core (w : Word) (k : Nat) : (s.reply w).core k = s.core k := rfl

@[simp] theorem State.latch_now (m : Ident) (o : Nat) (w : Word) : (s.latch m o w).now = s.now := rfl
@[simp] theorem State.latch_axes (m : Ident) (o : Nat) (w : Word) : (s.latch m o w).axes = s.axes := rfl
@[simp] theorem State.latch_cmps (m : Ident) (o : Nat) (w : Word) : (s.latch m o w).cmps = s.cmps := rfl
@[simp] theorem State.latch_caps (m : Ident) (o : Nat) (w : Word) : (s.latch m o w).caps = s.caps := rfl
@[simp] theorem State.latch_chans (m : Ident) (o : Nat) (w : Word) : (s.latch m o w).chans = s.chans := rfl
@[simp] theorem State.latch_sched (m : Ident) (o : Nat) (w : Word) : (s.latch m o w).sched = s.sched := rfl
@[simp] theorem State.latch_movers (m : Ident) (o : Nat) (w : Word) : (s.latch m o w).movers = s.movers := rfl
@[simp] theorem State.latch_queues (m : Ident) (o : Nat) (w : Word) : (s.latch m o w).queues = s.queues := rfl
@[simp] theorem State.latch_xl (m : Ident) (o : Nat) (w : Word) : (s.latch m o w).xl = s.xl := rfl
@[simp] theorem State.latch_outs (m : Ident) (o : Nat) (w : Word) : (s.latch m o w).outs = s.outs := rfl
@[simp] theorem State.latch_lws (m : Ident) (o : Nat) (w : Word) : (s.latch m o w).lws = s.lws := rfl
@[simp] theorem State.latch_net (m : Ident) (o : Nat) (w : Word) : (s.latch m o w).net = s.net := rfl
@[simp] theorem State.latch_irq (m : Ident) (o : Nat) (w : Word) : (s.latch m o w).irq = s.irq := rfl
@[simp] theorem State.latch_und (m : Ident) (o : Nat) (w : Word) : (s.latch m o w).und = s.und := rfl
@[simp] theorem State.latch_mbox (m : Ident) (o : Nat) (w : Word) : (s.latch m o w).mbox = s.mbox := rfl
@[simp] theorem State.latch_cores (m : Ident) (o : Nat) (w : Word) : (s.latch m o w).cores = s.cores := rfl
@[simp] theorem State.latch_mem (m : Ident) (o : Nat) (w : Word) : (s.latch m o w).mem = s.mem := rfl
@[simp] theorem State.latch_fc (m : Ident) (o : Nat) (w : Word) : (s.latch m o w).fc = s.fc := rfl
@[simp] theorem State.latch_rst (m : Ident) (o : Nat) (w : Word) : (s.latch m o w).rst = s.rst := rfl
@[simp] theorem State.latch_boot (m : Ident) (o : Nat) (w : Word) : (s.latch m o w).boot = s.boot := rfl
@[simp] theorem State.latch_svc (m : Ident) (o : Nat) (w : Word) : (s.latch m o w).svc = s.svc := rfl
@[simp] theorem State.latch_out (m : Ident) (o : Nat) (w : Word) : (s.latch m o w).out = s.out := rfl
@[simp] theorem State.latch_free (m : Ident) (o : Nat) (w : Word) : (s.latch m o w).free = s.free := rfl
@[simp] theorem State.latch_pending (m : Ident) (o : Nat) (w : Word) : (s.latch m o w).pending = s.pending := rfl
@[simp] theorem State.latch_cell (m : Ident) (o : Nat) (w : Word) (k : Nat) : (s.latch m o w).cell k = s.cell k := rfl
@[simp] theorem State.latch_enc (m : Ident) (o : Nat) (w : Word) (k : Nat) : (s.latch m o w).enc k = s.enc k := rfl
@[simp] theorem State.latch_ser (m : Ident) (o : Nat) (w : Word) (k : Nat) : (s.latch m o w).ser k = s.ser k := rfl
@[simp] theorem State.latch_mainsIn (m : Ident) (o : Nat) (w : Word) (k : Nat) : (s.latch m o w).mainsIn k = s.mainsIn k := rfl
@[simp] theorem State.latch_cmp (m : Ident) (o : Nat) (w : Word) (k : Nat) : (s.latch m o w).cmp k = s.cmp k := rfl
@[simp] theorem State.latch_cap (m : Ident) (o : Nat) (w : Word) (k : Nat) : (s.latch m o w).cap k = s.cap k := rfl
@[simp] theorem State.latch_chan (m : Ident) (o : Nat) (w : Word) (k : Nat) : (s.latch m o w).chan k = s.chan k := rfl
@[simp] theorem State.latch_wq (m : Ident) (o : Nat) (w : Word) (k : Nat) : (s.latch m o w).wq k = s.wq k := rfl
@[simp] theorem State.latch_eq (m : Ident) (o : Nat) (w : Word) (k : Nat) : (s.latch m o w).eq k = s.eq k := rfl
@[simp] theorem State.latch_dom (m : Ident) (o : Nat) (w : Word) (k : Nat) : (s.latch m o w).dom k = s.dom k := rfl
@[simp] theorem State.latch_fq (m : Ident) (o : Nat) (w : Word) (k : Nat) : (s.latch m o w).fq k = s.fq k := rfl
@[simp] theorem State.latch_win (m : Ident) (o : Nat) (w : Word) (k : Nat) : (s.latch m o w).win k = s.win k := rfl
@[simp] theorem State.latch_ou (m : Ident) (o : Nat) (w : Word) (k : Nat) : (s.latch m o w).ou k = s.ou k := rfl
@[simp] theorem State.latch_pin (m : Ident) (o : Nat) (w : Word) (k : Nat) : (s.latch m o w).pin k = s.pin k := rfl
@[simp] theorem State.latch_permitIn (m : Ident) (o : Nat) (w : Word) (k : Nat) : (s.latch m o w).permitIn k = s.permitIn k := rfl
@[simp] theorem State.latch_port (m : Ident) (o : Nat) (w : Word) (k : Nat) : (s.latch m o w).port k = s.port k := rfl
@[simp] theorem State.latch_txq (m : Ident) (o : Nat) (w : Word) (k : Nat) : (s.latch m o w).txq k = s.txq k := rfl
@[simp] theorem State.latch_stream (m : Ident) (o : Nat) (w : Word) (k : Nat) : (s.latch m o w).stream k = s.stream k := rfl
@[simp] theorem State.latch_yz (m : Ident) (o : Nat) (w : Word) : (s.latch m o w).yz = s.yz := rfl
@[simp] theorem State.latch_vec (m : Ident) (o : Nat) (w : Word) (k : Nat) : (s.latch m o w).vec k = s.vec k := rfl
@[simp] theorem State.latch_cic (m : Ident) (o : Nat) (w : Word) (k : Nat) : (s.latch m o w).cic k = s.cic k := rfl
@[simp] theorem State.latch_mb (m : Ident) (o : Nat) (w : Word) (k : Nat) : (s.latch m o w).mb k = s.mb k := rfl
@[simp] theorem State.latch_core (m : Ident) (o : Nat) (w : Word) (k : Nat) : (s.latch m o w).core k = s.core k := rfl

@[simp] theorem State.report_now (n : Nat) : (s.report n).now = s.now := rfl
@[simp] theorem State.report_axes (n : Nat) : (s.report n).axes = s.axes := rfl
@[simp] theorem State.report_cmps (n : Nat) : (s.report n).cmps = s.cmps := rfl
@[simp] theorem State.report_caps (n : Nat) : (s.report n).caps = s.caps := rfl
@[simp] theorem State.report_chans (n : Nat) : (s.report n).chans = s.chans := rfl
@[simp] theorem State.report_sched (n : Nat) : (s.report n).sched = s.sched := rfl
@[simp] theorem State.report_movers (n : Nat) : (s.report n).movers = s.movers := rfl
@[simp] theorem State.report_queues (n : Nat) : (s.report n).queues = s.queues := rfl
@[simp] theorem State.report_xl (n : Nat) : (s.report n).xl = s.xl := rfl
@[simp] theorem State.report_outs (n : Nat) : (s.report n).outs = s.outs := rfl
@[simp] theorem State.report_lws (n : Nat) : (s.report n).lws = s.lws := rfl
@[simp] theorem State.report_net (n : Nat) : (s.report n).net = s.net := rfl
@[simp] theorem State.report_irq (n : Nat) : (s.report n).irq = s.irq := rfl
@[simp] theorem State.report_und (n : Nat) : (s.report n).und = s.und := rfl
@[simp] theorem State.report_mbox (n : Nat) : (s.report n).mbox = s.mbox := rfl
@[simp] theorem State.report_cores (n : Nat) : (s.report n).cores = s.cores := rfl
@[simp] theorem State.report_mem (n : Nat) : (s.report n).mem = s.mem := rfl
@[simp] theorem State.report_rst (n : Nat) : (s.report n).rst = s.rst := rfl
@[simp] theorem State.report_boot (n : Nat) : (s.report n).boot = s.boot := rfl
@[simp] theorem State.report_svc (n : Nat) : (s.report n).svc = s.svc := rfl
@[simp] theorem State.report_latches (n : Nat) : (s.report n).latches = s.latches := rfl
@[simp] theorem State.report_out (n : Nat) : (s.report n).out = s.out := rfl
@[simp] theorem State.report_free (n : Nat) : (s.report n).free = s.free := rfl
@[simp] theorem State.report_pending (n : Nat) : (s.report n).pending = s.pending := rfl
@[simp] theorem State.report_cell (n : Nat) (k : Nat) : (s.report n).cell k = s.cell k := rfl
@[simp] theorem State.report_enc (n : Nat) (k : Nat) : (s.report n).enc k = s.enc k := rfl
@[simp] theorem State.report_ser (n : Nat) (k : Nat) : (s.report n).ser k = s.ser k := rfl
@[simp] theorem State.report_mainsIn (n : Nat) (k : Nat) : (s.report n).mainsIn k = s.mainsIn k := rfl
@[simp] theorem State.report_cmp (n : Nat) (k : Nat) : (s.report n).cmp k = s.cmp k := rfl
@[simp] theorem State.report_cap (n : Nat) (k : Nat) : (s.report n).cap k = s.cap k := rfl
@[simp] theorem State.report_chan (n : Nat) (k : Nat) : (s.report n).chan k = s.chan k := rfl
@[simp] theorem State.report_wq (n : Nat) (k : Nat) : (s.report n).wq k = s.wq k := rfl
@[simp] theorem State.report_eq (n : Nat) (k : Nat) : (s.report n).eq k = s.eq k := rfl
@[simp] theorem State.report_dom (n : Nat) (k : Nat) : (s.report n).dom k = s.dom k := rfl
@[simp] theorem State.report_fq (n : Nat) (k : Nat) : (s.report n).fq k = s.fq k := rfl
@[simp] theorem State.report_win (n : Nat) (k : Nat) : (s.report n).win k = s.win k := rfl
@[simp] theorem State.report_ou (n : Nat) (k : Nat) : (s.report n).ou k = s.ou k := rfl
@[simp] theorem State.report_pin (n : Nat) (k : Nat) : (s.report n).pin k = s.pin k := rfl
@[simp] theorem State.report_permitIn (n : Nat) (k : Nat) : (s.report n).permitIn k = s.permitIn k := rfl
@[simp] theorem State.report_port (n : Nat) (k : Nat) : (s.report n).port k = s.port k := rfl
@[simp] theorem State.report_txq (n : Nat) (k : Nat) : (s.report n).txq k = s.txq k := rfl
@[simp] theorem State.report_stream (n : Nat) (k : Nat) : (s.report n).stream k = s.stream k := rfl
@[simp] theorem State.report_yz (n : Nat) : (s.report n).yz = s.yz := rfl
@[simp] theorem State.report_vec (n : Nat) (k : Nat) : (s.report n).vec k = s.vec k := rfl
@[simp] theorem State.report_cic (n : Nat) (k : Nat) : (s.report n).cic k = s.cic k := rfl
@[simp] theorem State.report_mb (n : Nat) (k : Nat) : (s.report n).mb k = s.mb k := rfl
@[simp] theorem State.report_core (n : Nat) (k : Nat) : (s.report n).core k = s.core k := rfl

@[simp] theorem State.holdSrc_now (n : Nat) (b : Bool) : (s.holdSrc n b).now = s.now := rfl
@[simp] theorem State.holdSrc_axes (n : Nat) (b : Bool) : (s.holdSrc n b).axes = s.axes := rfl
@[simp] theorem State.holdSrc_cmps (n : Nat) (b : Bool) : (s.holdSrc n b).cmps = s.cmps := rfl
@[simp] theorem State.holdSrc_caps (n : Nat) (b : Bool) : (s.holdSrc n b).caps = s.caps := rfl
@[simp] theorem State.holdSrc_chans (n : Nat) (b : Bool) : (s.holdSrc n b).chans = s.chans := rfl
@[simp] theorem State.holdSrc_sched (n : Nat) (b : Bool) : (s.holdSrc n b).sched = s.sched := rfl
@[simp] theorem State.holdSrc_movers (n : Nat) (b : Bool) : (s.holdSrc n b).movers = s.movers := rfl
@[simp] theorem State.holdSrc_queues (n : Nat) (b : Bool) : (s.holdSrc n b).queues = s.queues := rfl
@[simp] theorem State.holdSrc_xl (n : Nat) (b : Bool) : (s.holdSrc n b).xl = s.xl := rfl
@[simp] theorem State.holdSrc_outs (n : Nat) (b : Bool) : (s.holdSrc n b).outs = s.outs := rfl
@[simp] theorem State.holdSrc_lws (n : Nat) (b : Bool) : (s.holdSrc n b).lws = s.lws := rfl
@[simp] theorem State.holdSrc_net (n : Nat) (b : Bool) : (s.holdSrc n b).net = s.net := rfl
@[simp] theorem State.holdSrc_irq (n : Nat) (b : Bool) : (s.holdSrc n b).irq = s.irq := rfl
@[simp] theorem State.holdSrc_und (n : Nat) (b : Bool) : (s.holdSrc n b).und = s.und := rfl
@[simp] theorem State.holdSrc_mbox (n : Nat) (b : Bool) : (s.holdSrc n b).mbox = s.mbox := rfl
@[simp] theorem State.holdSrc_cores (n : Nat) (b : Bool) : (s.holdSrc n b).cores = s.cores := rfl
@[simp] theorem State.holdSrc_mem (n : Nat) (b : Bool) : (s.holdSrc n b).mem = s.mem := rfl
@[simp] theorem State.holdSrc_rst (n : Nat) (b : Bool) : (s.holdSrc n b).rst = s.rst := rfl
@[simp] theorem State.holdSrc_boot (n : Nat) (b : Bool) : (s.holdSrc n b).boot = s.boot := rfl
@[simp] theorem State.holdSrc_svc (n : Nat) (b : Bool) : (s.holdSrc n b).svc = s.svc := rfl
@[simp] theorem State.holdSrc_latches (n : Nat) (b : Bool) : (s.holdSrc n b).latches = s.latches := rfl
@[simp] theorem State.holdSrc_out (n : Nat) (b : Bool) : (s.holdSrc n b).out = s.out := rfl
@[simp] theorem State.holdSrc_free (n : Nat) (b : Bool) : (s.holdSrc n b).free = s.free := rfl
@[simp] theorem State.holdSrc_pending (n : Nat) (b : Bool) : (s.holdSrc n b).pending = s.pending := rfl
@[simp] theorem State.holdSrc_cell (n : Nat) (b : Bool) (k : Nat) : (s.holdSrc n b).cell k = s.cell k := rfl
@[simp] theorem State.holdSrc_enc (n : Nat) (b : Bool) (k : Nat) : (s.holdSrc n b).enc k = s.enc k := rfl
@[simp] theorem State.holdSrc_ser (n : Nat) (b : Bool) (k : Nat) : (s.holdSrc n b).ser k = s.ser k := rfl
@[simp] theorem State.holdSrc_mainsIn (n : Nat) (b : Bool) (k : Nat) : (s.holdSrc n b).mainsIn k = s.mainsIn k := rfl
@[simp] theorem State.holdSrc_cmp (n : Nat) (b : Bool) (k : Nat) : (s.holdSrc n b).cmp k = s.cmp k := rfl
@[simp] theorem State.holdSrc_cap (n : Nat) (b : Bool) (k : Nat) : (s.holdSrc n b).cap k = s.cap k := rfl
@[simp] theorem State.holdSrc_chan (n : Nat) (b : Bool) (k : Nat) : (s.holdSrc n b).chan k = s.chan k := rfl
@[simp] theorem State.holdSrc_wq (n : Nat) (b : Bool) (k : Nat) : (s.holdSrc n b).wq k = s.wq k := rfl
@[simp] theorem State.holdSrc_eq (n : Nat) (b : Bool) (k : Nat) : (s.holdSrc n b).eq k = s.eq k := rfl
@[simp] theorem State.holdSrc_dom (n : Nat) (b : Bool) (k : Nat) : (s.holdSrc n b).dom k = s.dom k := rfl
@[simp] theorem State.holdSrc_fq (n : Nat) (b : Bool) (k : Nat) : (s.holdSrc n b).fq k = s.fq k := rfl
@[simp] theorem State.holdSrc_win (n : Nat) (b : Bool) (k : Nat) : (s.holdSrc n b).win k = s.win k := rfl
@[simp] theorem State.holdSrc_ou (n : Nat) (b : Bool) (k : Nat) : (s.holdSrc n b).ou k = s.ou k := rfl
@[simp] theorem State.holdSrc_pin (n : Nat) (b : Bool) (k : Nat) : (s.holdSrc n b).pin k = s.pin k := rfl
@[simp] theorem State.holdSrc_permitIn (n : Nat) (b : Bool) (k : Nat) : (s.holdSrc n b).permitIn k = s.permitIn k := rfl
@[simp] theorem State.holdSrc_port (n : Nat) (b : Bool) (k : Nat) : (s.holdSrc n b).port k = s.port k := rfl
@[simp] theorem State.holdSrc_txq (n : Nat) (b : Bool) (k : Nat) : (s.holdSrc n b).txq k = s.txq k := rfl
@[simp] theorem State.holdSrc_stream (n : Nat) (b : Bool) (k : Nat) : (s.holdSrc n b).stream k = s.stream k := rfl
@[simp] theorem State.holdSrc_yz (n : Nat) (b : Bool) : (s.holdSrc n b).yz = s.yz := rfl
@[simp] theorem State.holdSrc_vec (n : Nat) (b : Bool) (k : Nat) : (s.holdSrc n b).vec k = s.vec k := rfl
@[simp] theorem State.holdSrc_cic (n : Nat) (b : Bool) (k : Nat) : (s.holdSrc n b).cic k = s.cic k := rfl
@[simp] theorem State.holdSrc_mb (n : Nat) (b : Bool) (k : Nat) : (s.holdSrc n b).mb k = s.mb k := rfl
@[simp] theorem State.holdSrc_core (n : Nat) (b : Bool) (k : Nat) : (s.holdSrc n b).core k = s.core k := rfl

@[simp] theorem State.draw_now  : s.draw.now = s.now := rfl
@[simp] theorem State.draw_axes  : s.draw.axes = s.axes := rfl
@[simp] theorem State.draw_cmps  : s.draw.cmps = s.cmps := rfl
@[simp] theorem State.draw_caps  : s.draw.caps = s.caps := rfl
@[simp] theorem State.draw_chans  : s.draw.chans = s.chans := rfl
@[simp] theorem State.draw_sched  : s.draw.sched = s.sched := rfl
@[simp] theorem State.draw_movers  : s.draw.movers = s.movers := rfl
@[simp] theorem State.draw_queues  : s.draw.queues = s.queues := rfl
@[simp] theorem State.draw_xl  : s.draw.xl = s.xl := rfl
@[simp] theorem State.draw_outs  : s.draw.outs = s.outs := rfl
@[simp] theorem State.draw_lws  : s.draw.lws = s.lws := rfl
@[simp] theorem State.draw_net  : s.draw.net = s.net := rfl
@[simp] theorem State.draw_irq  : s.draw.irq = s.irq := rfl
@[simp] theorem State.draw_und  : s.draw.und = s.und := rfl
@[simp] theorem State.draw_mbox  : s.draw.mbox = s.mbox := rfl
@[simp] theorem State.draw_cores  : s.draw.cores = s.cores := rfl
@[simp] theorem State.draw_mem  : s.draw.mem = s.mem := rfl
@[simp] theorem State.draw_fc  : s.draw.fc = s.fc := rfl
@[simp] theorem State.draw_rst  : s.draw.rst = s.rst := rfl
@[simp] theorem State.draw_boot  : s.draw.boot = s.boot := rfl
@[simp] theorem State.draw_svc  : s.draw.svc = s.svc := rfl
@[simp] theorem State.draw_latches  : s.draw.latches = s.latches := rfl
@[simp] theorem State.draw_out  : s.draw.out = s.out := rfl
@[simp] theorem State.draw_pending  : s.draw.pending = s.pending := rfl
@[simp] theorem State.draw_cell  (k : Nat) : s.draw.cell k = s.cell k := rfl
@[simp] theorem State.draw_enc  (k : Nat) : s.draw.enc k = s.enc k := rfl
@[simp] theorem State.draw_ser  (k : Nat) : s.draw.ser k = s.ser k := rfl
@[simp] theorem State.draw_mainsIn  (k : Nat) : s.draw.mainsIn k = s.mainsIn k := rfl
@[simp] theorem State.draw_cmp  (k : Nat) : s.draw.cmp k = s.cmp k := rfl
@[simp] theorem State.draw_cap  (k : Nat) : s.draw.cap k = s.cap k := rfl
@[simp] theorem State.draw_chan  (k : Nat) : s.draw.chan k = s.chan k := rfl
@[simp] theorem State.draw_wq  (k : Nat) : s.draw.wq k = s.wq k := rfl
@[simp] theorem State.draw_eq  (k : Nat) : s.draw.eq k = s.eq k := rfl
@[simp] theorem State.draw_dom  (k : Nat) : s.draw.dom k = s.dom k := rfl
@[simp] theorem State.draw_fq  (k : Nat) : s.draw.fq k = s.fq k := rfl
@[simp] theorem State.draw_win  (k : Nat) : s.draw.win k = s.win k := rfl
@[simp] theorem State.draw_ou  (k : Nat) : s.draw.ou k = s.ou k := rfl
@[simp] theorem State.draw_pin  (k : Nat) : s.draw.pin k = s.pin k := rfl
@[simp] theorem State.draw_permitIn  (k : Nat) : s.draw.permitIn k = s.permitIn k := rfl
@[simp] theorem State.draw_port  (k : Nat) : s.draw.port k = s.port k := rfl
@[simp] theorem State.draw_txq  (k : Nat) : s.draw.txq k = s.txq k := rfl
@[simp] theorem State.draw_stream  (k : Nat) : s.draw.stream k = s.stream k := rfl
@[simp] theorem State.draw_yz  : s.draw.yz = s.yz := rfl
@[simp] theorem State.draw_vec  (k : Nat) : s.draw.vec k = s.vec k := rfl
@[simp] theorem State.draw_cic  (k : Nat) : s.draw.cic k = s.cic k := rfl
@[simp] theorem State.draw_mb  (k : Nat) : s.draw.mb k = s.mb k := rfl
@[simp] theorem State.draw_core  (k : Nat) : s.draw.core k = s.core k := rfl

/-! ## A block read after it is written -/

@[simp] theorem State.setCell_cell (n : Nat) (x : Cell) (k : Nat) : (s.setCell n x).cell k = if k = n then x else s.cell k := tget_tput _ _ _ _ _
@[simp] theorem State.setEnc_enc (n : Nat) (x : EncGroup) (k : Nat) : (s.setEnc n x).enc k = if k = n then x else s.enc k := tget_tput _ _ _ _ _
@[simp] theorem State.setSer_ser (n : Nat) (x : SerIf) (k : Nat) : (s.setSer n x).ser k = if k = n then x else s.ser k := tget_tput _ _ _ _ _
@[simp] theorem State.setMainsIn_mainsIn (n : Nat) (x : MainsIn) (k : Nat) : (s.setMainsIn n x).mainsIn k = if k = n then x else s.mainsIn k := tget_tput _ _ _ _ _
@[simp] theorem State.setCmp_cmp (n : Nat) (x : Cmp) (k : Nat) : (s.setCmp n x).cmp k = if k = n then x else s.cmp k := tget_tput _ _ _ _ _
@[simp] theorem State.setCap_cap (n : Nat) (x : Cap) (k : Nat) : (s.setCap n x).cap k = if k = n then x else s.cap k := tget_tput _ _ _ _ _
@[simp] theorem State.setChan_chan (n : Nat) (x : Chan) (k : Nat) : (s.setChan n x).chan k = if k = n then x else s.chan k := tget_tput _ _ _ _ _
@[simp] theorem State.setWq_wq (n : Nat) (x : WQ) (k : Nat) : (s.setWq n x).wq k = if k = n then x else s.wq k := tget_tput _ _ _ _ _
@[simp] theorem State.setEq_eq (n : Nat) (x : EQ) (k : Nat) : (s.setEq n x).eq k = if k = n then x else s.eq k := tget_tput _ _ _ _ _
@[simp] theorem State.setDom_dom (n : Nat) (x : Dom) (k : Nat) : (s.setDom n x).dom k = if k = n then x else s.dom k := tget_tput _ _ _ _ _
@[simp] theorem State.setFq_fq (n : Nat) (x : FQ) (k : Nat) : (s.setFq n x).fq k = if k = n then x else s.fq k := tget_tput _ _ _ _ _
@[simp] theorem State.setWin_win (n : Nat) (x : CoreWin) (k : Nat) : (s.setWin n x).win k = if k = n then x else s.win k := tget_tput _ _ _ _ _
@[simp] theorem State.setOu_ou (n : Nat) (x : OutUnit) (k : Nat) : (s.setOu n x).ou k = if k = n then x else s.ou k := tget_tput _ _ _ _ _
@[simp] theorem State.setPin_pin (n : Nat) (x : Pin) (k : Nat) : (s.setPin n x).pin k = if k = n then x else s.pin k := tget_tput _ _ _ _ _
@[simp] theorem State.setPermitIn_permitIn (n : Nat) (x : Permit) (k : Nat) : (s.setPermitIn n x).permitIn k = if k = n then x else s.permitIn k := tget_tput _ _ _ _ _
@[simp] theorem State.setPort_port (n : Nat) (x : Port) (k : Nat) : (s.setPort n x).port k = if k = n then x else s.port k := tget_tput _ _ _ _ _
@[simp] theorem State.setTxq_txq (n : Nat) (x : TxQ) (k : Nat) : (s.setTxq n x).txq k = if k = n then x else s.txq k := tget_tput _ _ _ _ _
@[simp] theorem State.setStream_stream (n : Nat) (x : Stream) (k : Nat) : (s.setStream n x).stream k = if k = n then x else s.stream k := tget_tput _ _ _ _ _
@[simp] theorem State.setYz_yz (x : Yazen) : (s.setYz x).yz = x := rfl
@[simp] theorem State.setVec_vec (n : Nat) (x : Msix) (k : Nat) : (s.setVec n x).vec k = if k = n then x else s.vec k := tget_tput _ _ _ _ _
@[simp] theorem State.setCic_cic (n : Nat) (x : CicSrc) (k : Nat) : (s.setCic n x).cic k = if k = n then x else s.cic k := tget_tput _ _ _ _ _
@[simp] theorem State.setMb_mb (n : Nat) (x : Mbox) (k : Nat) : (s.setMb n x).mb k = if k = n then x else s.mb k := tget_tput _ _ _ _ _
@[simp] theorem State.setCore_core (n : Nat) (x : Machine.Core) (k : Nat) : (s.setCore n x).core k = if k = n then x else s.core k := tget_tput _ _ _ _ _

/-! ## The modifiers, and the registers they stand for -/

@[simp] theorem State.modCell_eq (n : Nat) (f : Cell → Cell) : s.modCell n f = s.setCell n (f (s.cell n)) := rfl
@[simp] theorem State.modCmp_eq (n : Nat) (f : Cmp → Cmp) : s.modCmp n f = s.setCmp n (f (s.cmp n)) := rfl
@[simp] theorem State.modCap_eq (n : Nat) (f : Cap → Cap) : s.modCap n f = s.setCap n (f (s.cap n)) := rfl
@[simp] theorem State.modChan_eq (n : Nat) (f : Chan → Chan) : s.modChan n f = s.setChan n (f (s.chan n)) := rfl
@[simp] theorem State.modWq_eq (n : Nat) (f : WQ → WQ) : s.modWq n f = s.setWq n (f (s.wq n)) := rfl
@[simp] theorem State.modEq_eq (n : Nat) (f : EQ → EQ) : s.modEq n f = s.setEq n (f (s.eq n)) := rfl
@[simp] theorem State.modFq_eq (n : Nat) (f : FQ → FQ) : s.modFq n f = s.setFq n (f (s.fq n)) := rfl
@[simp] theorem State.modOu_eq (n : Nat) (f : OutUnit → OutUnit) : s.modOu n f = s.setOu n (f (s.ou n)) := rfl
@[simp] theorem State.modPort_eq (n : Nat) (f : Port → Port) : s.modPort n f = s.setPort n (f (s.port n)) := rfl
@[simp] theorem State.modCore_eq (n : Nat) (f : Machine.Core → Machine.Core) : s.modCore n f = s.setCore n (f (s.core n)) := rfl
@[simp] theorem State.modYz_eq (f : Yazen → Yazen) : s.modYz f = s.setYz (f s.yz) := rfl
@[simp] theorem State.modStart_start (f : Start → Start) : (s.modStart f).axes.start = f s.axes.start := rfl
@[simp] theorem State.modUnd_und (f : Und → Und) : (s.modUnd f).und = f s.und := rfl
@[simp] theorem State.arrive_now (t : Time) : (s.arrive t).now = max s.now t := rfl
@[simp] theorem State.emit_out (x : Out) : (s.emit x).out = s.out ++ [x] := rfl
@[simp] theorem State.reply_out (w : Word) : (s.reply w).out = s.out ++ [.reply [w]] := rfl
@[simp] theorem State.setCell_dead (n : Nat) (x : Cell) : (s.setCell n x).dead = s.dead := rfl
@[simp] theorem State.setEnc_dead (n : Nat) (x : EncGroup) : (s.setEnc n x).dead = s.dead := rfl
@[simp] theorem State.setSer_dead (n : Nat) (x : SerIf) : (s.setSer n x).dead = s.dead := rfl
@[simp] theorem State.setMainsIn_dead (n : Nat) (x : MainsIn) : (s.setMainsIn n x).dead = s.dead := rfl
@[simp] theorem State.modStart_dead (f : Start → Start) : (s.modStart f).dead = s.dead := rfl
@[simp] theorem State.setCmp_dead (n : Nat) (x : Cmp) : (s.setCmp n x).dead = s.dead := rfl
@[simp] theorem State.setCap_dead (n : Nat) (x : Cap) : (s.setCap n x).dead = s.dead := rfl
@[simp] theorem State.setChan_dead (n : Nat) (x : Chan) : (s.setChan n x).dead = s.dead := rfl
@[simp] theorem State.setWq_dead (n : Nat) (x : WQ) : (s.setWq n x).dead = s.dead := rfl
@[simp] theorem State.setEq_dead (n : Nat) (x : EQ) : (s.setEq n x).dead = s.dead := rfl
@[simp] theorem State.setDom_dead (n : Nat) (x : Dom) : (s.setDom n x).dead = s.dead := rfl
@[simp] theorem State.setFq_dead (n : Nat) (x : FQ) : (s.setFq n x).dead = s.dead := rfl
@[simp] theorem State.setWin_dead (n : Nat) (x : CoreWin) : (s.setWin n x).dead = s.dead := rfl
@[simp] theorem State.setOu_dead (n : Nat) (x : OutUnit) : (s.setOu n x).dead = s.dead := rfl
@[simp] theorem State.setPin_dead (n : Nat) (x : Pin) : (s.setPin n x).dead = s.dead := rfl
@[simp] theorem State.setPermitIn_dead (n : Nat) (x : Permit) : (s.setPermitIn n x).dead = s.dead := rfl
@[simp] theorem State.setPort_dead (n : Nat) (x : Port) : (s.setPort n x).dead = s.dead := rfl
@[simp] theorem State.setTxq_dead (n : Nat) (x : TxQ) : (s.setTxq n x).dead = s.dead := rfl
@[simp] theorem State.setStream_dead (n : Nat) (x : Stream) : (s.setStream n x).dead = s.dead := rfl
@[simp] theorem State.setYz_dead (x : Yazen) : (s.setYz x).dead = s.dead := rfl
@[simp] theorem State.setVec_dead (n : Nat) (x : Msix) : (s.setVec n x).dead = s.dead := rfl
@[simp] theorem State.setCic_dead (n : Nat) (x : CicSrc) : (s.setCic n x).dead = s.dead := rfl
@[simp] theorem State.setMb_dead (n : Nat) (x : Mbox) : (s.setMb n x).dead = s.dead := rfl
@[simp] theorem State.setCore_dead (n : Nat) (x : Machine.Core) : (s.setCore n x).dead = s.dead := rfl
@[simp] theorem State.arrive_dead (t : Time) : (s.arrive t).dead = s.dead := rfl
@[simp] theorem State.emit_dead (x : Out) : (s.emit x).dead = s.dead := rfl
@[simp] theorem State.reply_dead (w : Word) : (s.reply w).dead = s.dead := rfl
@[simp] theorem State.latch_dead (m : Ident) (o : Nat) (w : Word) : (s.latch m o w).dead = s.dead := rfl
@[simp] theorem State.report_dead (n : Nat) : (s.report n).dead = s.dead := rfl
@[simp] theorem State.holdSrc_dead (n : Nat) (b : Bool) : (s.holdSrc n b).dead = s.dead := rfl
@[simp] theorem State.draw_dead  : s.draw.dead = s.dead := rfl
@[simp] theorem State.setCell_resting (n : Nat) (x : Cell) : (s.setCell n x).resting = s.resting := rfl
@[simp] theorem State.setEnc_resting (n : Nat) (x : EncGroup) : (s.setEnc n x).resting = s.resting := rfl
@[simp] theorem State.setSer_resting (n : Nat) (x : SerIf) : (s.setSer n x).resting = s.resting := rfl
@[simp] theorem State.setMainsIn_resting (n : Nat) (x : MainsIn) : (s.setMainsIn n x).resting = s.resting := rfl
@[simp] theorem State.modStart_resting (f : Start → Start) : (s.modStart f).resting = s.resting := rfl
@[simp] theorem State.setCmp_resting (n : Nat) (x : Cmp) : (s.setCmp n x).resting = s.resting := rfl
@[simp] theorem State.setCap_resting (n : Nat) (x : Cap) : (s.setCap n x).resting = s.resting := rfl
@[simp] theorem State.setChan_resting (n : Nat) (x : Chan) : (s.setChan n x).resting = s.resting := rfl
@[simp] theorem State.setWq_resting (n : Nat) (x : WQ) : (s.setWq n x).resting = s.resting := rfl
@[simp] theorem State.setEq_resting (n : Nat) (x : EQ) : (s.setEq n x).resting = s.resting := rfl
@[simp] theorem State.setDom_resting (n : Nat) (x : Dom) : (s.setDom n x).resting = s.resting := rfl
@[simp] theorem State.setFq_resting (n : Nat) (x : FQ) : (s.setFq n x).resting = s.resting := rfl
@[simp] theorem State.setWin_resting (n : Nat) (x : CoreWin) : (s.setWin n x).resting = s.resting := rfl
@[simp] theorem State.setOu_resting (n : Nat) (x : OutUnit) : (s.setOu n x).resting = s.resting := rfl
@[simp] theorem State.setPin_resting (n : Nat) (x : Pin) : (s.setPin n x).resting = s.resting := rfl
@[simp] theorem State.setPermitIn_resting (n : Nat) (x : Permit) : (s.setPermitIn n x).resting = s.resting := rfl
@[simp] theorem State.setPort_resting (n : Nat) (x : Port) : (s.setPort n x).resting = s.resting := rfl
@[simp] theorem State.setTxq_resting (n : Nat) (x : TxQ) : (s.setTxq n x).resting = s.resting := rfl
@[simp] theorem State.setStream_resting (n : Nat) (x : Stream) : (s.setStream n x).resting = s.resting := rfl
@[simp] theorem State.setYz_resting (x : Yazen) : (s.setYz x).resting = s.resting := rfl
@[simp] theorem State.setVec_resting (n : Nat) (x : Msix) : (s.setVec n x).resting = s.resting := rfl
@[simp] theorem State.setCic_resting (n : Nat) (x : CicSrc) : (s.setCic n x).resting = s.resting := rfl
@[simp] theorem State.setMb_resting (n : Nat) (x : Mbox) : (s.setMb n x).resting = s.resting := rfl
@[simp] theorem State.setCore_resting (n : Nat) (x : Machine.Core) : (s.setCore n x).resting = s.resting := rfl
@[simp] theorem State.arrive_resting (t : Time) : (s.arrive t).resting = s.resting := rfl
@[simp] theorem State.emit_resting (x : Out) : (s.emit x).resting = s.resting := rfl
@[simp] theorem State.reply_resting (w : Word) : (s.reply w).resting = s.resting := rfl
@[simp] theorem State.latch_resting (m : Ident) (o : Nat) (w : Word) : (s.latch m o w).resting = s.resting := rfl
@[simp] theorem State.report_resting (n : Nat) : (s.report n).resting = s.resting := rfl
@[simp] theorem State.holdSrc_resting (n : Nat) (b : Bool) : (s.holdSrc n b).resting = s.resting := rfl
@[simp] theorem State.draw_resting  : s.draw.resting = s.resting := rfl
@[simp] theorem State.setCell_up (n : Nat) (x : Cell) : (s.setCell n x).up = s.up := rfl
@[simp] theorem State.setEnc_up (n : Nat) (x : EncGroup) : (s.setEnc n x).up = s.up := rfl
@[simp] theorem State.setSer_up (n : Nat) (x : SerIf) : (s.setSer n x).up = s.up := rfl
@[simp] theorem State.setMainsIn_up (n : Nat) (x : MainsIn) : (s.setMainsIn n x).up = s.up := rfl
@[simp] theorem State.modStart_up (f : Start → Start) : (s.modStart f).up = s.up := rfl
@[simp] theorem State.setCmp_up (n : Nat) (x : Cmp) : (s.setCmp n x).up = s.up := rfl
@[simp] theorem State.setCap_up (n : Nat) (x : Cap) : (s.setCap n x).up = s.up := rfl
@[simp] theorem State.setChan_up (n : Nat) (x : Chan) : (s.setChan n x).up = s.up := rfl
@[simp] theorem State.setWq_up (n : Nat) (x : WQ) : (s.setWq n x).up = s.up := rfl
@[simp] theorem State.setEq_up (n : Nat) (x : EQ) : (s.setEq n x).up = s.up := rfl
@[simp] theorem State.setDom_up (n : Nat) (x : Dom) : (s.setDom n x).up = s.up := rfl
@[simp] theorem State.setFq_up (n : Nat) (x : FQ) : (s.setFq n x).up = s.up := rfl
@[simp] theorem State.setWin_up (n : Nat) (x : CoreWin) : (s.setWin n x).up = s.up := rfl
@[simp] theorem State.setOu_up (n : Nat) (x : OutUnit) : (s.setOu n x).up = s.up := rfl
@[simp] theorem State.setPin_up (n : Nat) (x : Pin) : (s.setPin n x).up = s.up := rfl
@[simp] theorem State.setPermitIn_up (n : Nat) (x : Permit) : (s.setPermitIn n x).up = s.up := rfl
@[simp] theorem State.setPort_up (n : Nat) (x : Port) : (s.setPort n x).up = s.up := rfl
@[simp] theorem State.setTxq_up (n : Nat) (x : TxQ) : (s.setTxq n x).up = s.up := rfl
@[simp] theorem State.setStream_up (n : Nat) (x : Stream) : (s.setStream n x).up = s.up := rfl
@[simp] theorem State.setYz_up (x : Yazen) : (s.setYz x).up = s.up := rfl
@[simp] theorem State.setVec_up (n : Nat) (x : Msix) : (s.setVec n x).up = s.up := rfl
@[simp] theorem State.setCic_up (n : Nat) (x : CicSrc) : (s.setCic n x).up = s.up := rfl
@[simp] theorem State.setMb_up (n : Nat) (x : Mbox) : (s.setMb n x).up = s.up := rfl
@[simp] theorem State.setCore_up (n : Nat) (x : Machine.Core) : (s.setCore n x).up = s.up := rfl
@[simp] theorem State.arrive_up (t : Time) : (s.arrive t).up = s.up := rfl
@[simp] theorem State.emit_up (x : Out) : (s.emit x).up = s.up := rfl
@[simp] theorem State.reply_up (w : Word) : (s.reply w).up = s.up := rfl
@[simp] theorem State.latch_up (m : Ident) (o : Nat) (w : Word) : (s.latch m o w).up = s.up := rfl
@[simp] theorem State.report_up (n : Nat) : (s.report n).up = s.up := rfl
@[simp] theorem State.holdSrc_up (n : Nat) (b : Bool) : (s.holdSrc n b).up = s.up := rfl
@[simp] theorem State.draw_up  : s.draw.up = s.up := rfl
@[simp] theorem State.setCell_serves (n : Nat) (x : Cell) (a : Nat) : (s.setCell n x).serves a = s.serves a := rfl
@[simp] theorem State.setEnc_serves (n : Nat) (x : EncGroup) (a : Nat) : (s.setEnc n x).serves a = s.serves a := rfl
@[simp] theorem State.setSer_serves (n : Nat) (x : SerIf) (a : Nat) : (s.setSer n x).serves a = s.serves a := rfl
@[simp] theorem State.setMainsIn_serves (n : Nat) (x : MainsIn) (a : Nat) : (s.setMainsIn n x).serves a = s.serves a := rfl
@[simp] theorem State.modStart_serves (f : Start → Start) (a : Nat) : (s.modStart f).serves a = s.serves a := rfl
@[simp] theorem State.setCmp_serves (n : Nat) (x : Cmp) (a : Nat) : (s.setCmp n x).serves a = s.serves a := rfl
@[simp] theorem State.setCap_serves (n : Nat) (x : Cap) (a : Nat) : (s.setCap n x).serves a = s.serves a := rfl
@[simp] theorem State.setChan_serves (n : Nat) (x : Chan) (a : Nat) : (s.setChan n x).serves a = s.serves a := rfl
@[simp] theorem State.setWq_serves (n : Nat) (x : WQ) (a : Nat) : (s.setWq n x).serves a = s.serves a := rfl
@[simp] theorem State.setEq_serves (n : Nat) (x : EQ) (a : Nat) : (s.setEq n x).serves a = s.serves a := rfl
@[simp] theorem State.setDom_serves (n : Nat) (x : Dom) (a : Nat) : (s.setDom n x).serves a = s.serves a := rfl
@[simp] theorem State.setFq_serves (n : Nat) (x : FQ) (a : Nat) : (s.setFq n x).serves a = s.serves a := rfl
@[simp] theorem State.setWin_serves (n : Nat) (x : CoreWin) (a : Nat) : (s.setWin n x).serves a = s.serves a := rfl
@[simp] theorem State.setOu_serves (n : Nat) (x : OutUnit) (a : Nat) : (s.setOu n x).serves a = s.serves a := rfl
@[simp] theorem State.setPin_serves (n : Nat) (x : Pin) (a : Nat) : (s.setPin n x).serves a = s.serves a := rfl
@[simp] theorem State.setPermitIn_serves (n : Nat) (x : Permit) (a : Nat) : (s.setPermitIn n x).serves a = s.serves a := rfl
@[simp] theorem State.setPort_serves (n : Nat) (x : Port) (a : Nat) : (s.setPort n x).serves a = s.serves a := rfl
@[simp] theorem State.setTxq_serves (n : Nat) (x : TxQ) (a : Nat) : (s.setTxq n x).serves a = s.serves a := rfl
@[simp] theorem State.setStream_serves (n : Nat) (x : Stream) (a : Nat) : (s.setStream n x).serves a = s.serves a := rfl
@[simp] theorem State.setYz_serves (x : Yazen) (a : Nat) : (s.setYz x).serves a = s.serves a := rfl
@[simp] theorem State.setVec_serves (n : Nat) (x : Msix) (a : Nat) : (s.setVec n x).serves a = s.serves a := rfl
@[simp] theorem State.setCic_serves (n : Nat) (x : CicSrc) (a : Nat) : (s.setCic n x).serves a = s.serves a := rfl
@[simp] theorem State.setMb_serves (n : Nat) (x : Mbox) (a : Nat) : (s.setMb n x).serves a = s.serves a := rfl
@[simp] theorem State.setCore_serves (n : Nat) (x : Machine.Core) (a : Nat) : (s.setCore n x).serves a = s.serves a := rfl
@[simp] theorem State.arrive_serves (t : Time) (a : Nat) : (s.arrive t).serves a = s.serves a := rfl
@[simp] theorem State.emit_serves (x : Out) (a : Nat) : (s.emit x).serves a = s.serves a := rfl
@[simp] theorem State.reply_serves (w : Word) (a : Nat) : (s.reply w).serves a = s.serves a := rfl
@[simp] theorem State.latch_serves (m : Ident) (o : Nat) (w : Word) (a : Nat) : (s.latch m o w).serves a = s.serves a := rfl
@[simp] theorem State.report_serves (n : Nat) (a : Nat) : (s.report n).serves a = s.serves a := rfl
@[simp] theorem State.holdSrc_serves (n : Nat) (b : Bool) (a : Nat) : (s.holdSrc n b).serves a = s.serves a := rfl
@[simp] theorem State.draw_serves  (a : Nat) : s.draw.serves a = s.serves a := rfl

theorem State.latched_latch (m n : Ident) (o p : Nat) (w : Word) :
    (s.latch m o w).latched n p = if latchSet n * 2 ^ 22 + p = latchSet m * 2 ^ 22 + o then w else s.latched n p :=
  tget_tput _ _ _ _ _

/-- A companion read back by the identity it was latched for. -/
@[simp] theorem State.latched_latch_self (m : Ident) (o : Nat) (w : Word) : (s.latch m o w).latched m o = w := by
  simp [State.latched_latch]

@[simp] theorem State.latched_latch_ofs (m : Ident) {o p : Nat} (w : Word) (h : p ≠ o) : (s.latch m o w).latched m p = s.latched m p := by
  simp [State.latched_latch, h]

end

end Sys2Proof.Machine
end

