-- ==== Sys2Proof/Laws/Gate.lean ====
section
/-! SUPPORT. What the gates of Machine/Gate.lean do, once for each: an event or an access reaches its block where the gate is open, and only
moves time (or answers as R432 and R501 say) where it is closed. No gate looks at time. -/

namespace Sys2Proof.Machine

variable {s : State} {t : Time} {ofs : Nat} {f : State → State} {g : State → Word × State}

theorem engineEvent_up (h : s.up = true) : engineEvent t s f = .next (f (s.arrive t)) := by
  simp [engineEvent, h]

theorem engineEvent_down (h : s.up = false) : engineEvent t s f = .next (s.arrive t) := by
  simp [engineEvent, h]

theorem liveEvent_live (h : s.dead = false) : liveEvent t s f = .next (f (s.arrive t)) := by
  simp [liveEvent, h]

theorem liveEvent_dead (h : s.dead = true) : liveEvent t s f = .next (s.arrive t) := by
  simp [liveEvent, h]

theorem regWrite_serves (h : s.serves ofs = true) : regWrite t ofs s f = .next (f (s.arrive t)) := by
  simp [regWrite, h]

theorem regRead_serves (h : s.serves ofs = true) :
    regRead t ofs s g = .next ((g (s.arrive t)).2.reply (g (s.arrive t)).1) := by
  simp [regRead, h]

theorem regWrite_dead (h : s.dead = true) : regWrite t ofs s f = .next (s.arrive t) := by
  simp [regWrite, h, State.serves]

theorem regRead_dead (h : s.dead = true) : regRead t ofs s g = .next (s.arrive t) := by
  simp [regRead, h, State.serves]

/-- R501: while a function-wide reset is under way a write of any other register is lost and a read answers 0. -/
theorem regWrite_busy (h : s.dead = false) (b : s.rst.busy = true) (o : rstOfs ofs = false) :
    regWrite t ofs s f = .next (s.arrive t) := by
  simp [regWrite, h, State.serves, b, o]

theorem regRead_busy (h : s.dead = false) (b : s.rst.busy = true) (o : rstOfs ofs = false) :
    regRead t ofs s g = .next ((s.arrive t).reply 0) := by
  simp [regRead, h, State.serves, b, o]

/-- An open engine also serves every register while no function-wide reset is under way. -/
theorem serves_of_up (h : s.up = true) (b : s.rst.busy = false) (o : Nat) : s.serves o = true := by
  simp only [State.up, Bool.and_eq_true] at h
  simp_all [State.serves]

theorem live_of_up (h : s.up = true) : s.dead = false := by
  simp only [State.up, Bool.and_eq_true] at h
  simp_all

theorem awake_of_up (h : s.up = true) : s.resting = false := by
  simp only [State.up, Bool.and_eq_true] at h
  simp_all

end Sys2Proof.Machine
end

