-- ==== Sys2Proof/Laws/Steps.lean ====
section
/-! SUPPORT. What a step of a counter cell does to the cells: the stepped cell moves by `Cell.stepped`, cells that no cascade reaches stand
still, and what the step sets off leaves every cell alone. -/

namespace Sys2Proof.Machine

theorem cell_of_axes {s u : State} (h : u.axes = s.axes) (n : Nat) : u.cell n = s.cell n := by
  simp [State.cell, h]

theorem react_cell (s : State) (evs : List StepEv) (n : Nat) : (s.react evs).cell n = s.cell n :=
  cell_of_axes (kept_react (.refl s)).axes n

theorem watchChange_cell (s : State) (m : Nat) (k : Change) (n : Nat) : (s.watchChange m k).cell n = s.cell n :=
  cell_of_axes (kept_watchChange (.refl s)).axes n

theorem cellChange_cell (s : State) (m : Nat) (k : Change) (n : Nat) : (s.cellChange m k).cell n = s.cell n :=
  cell_of_axes (kept_cellChange (.refl s)).axes n

theorem freezeAdd_cell (s : State) (n : Nat) (k : Int) (j : Nat) (h : j ≠ n) : (s.freezeAdd n k).cell j = s.cell j := by
  unfold State.freezeAdd
  dsimp only
  split <;> simp [h]

/-- R50, R96: a step of cell `n` reaches no cell below it, and above it only a run of CASCADE cells. -/
theorem stepCell_frame (fuel : Nat) (s : State) (n : Nat) (k : Int) (st : Time) (p : Option Int) (j : Nat) (hj : j ≠ n)
    (hm : j < n ∨ (s.cell j).mode ≠ 5) : ((s.stepCell fuel n k st p).1).cell j = s.cell j := by
  induction fuel generalizing s n k p with
  | zero => rfl
  | succ f ih =>
    unfold State.stepCell
    dsimp only
    split
    · rfl
    · split
      · split
        · exact freezeAdd_cell s n k j hj
        · rfl
      · split
        · rename_i hc
          simp only [State.setCell_cell] at hc
          by_cases hjn : j = n + 1
          · subst hjn
            simp at hc hm
            omega
          · rw [ih _ _ _ _ hjn]
            · simp [hj]
            · rcases hm with h | h
              · exact .inl (by omega)
              · exact .inr (by simpa [hj] using h)
        · simp [hj]

/-- R56: the cell that a step reaches. -/
theorem stepCell_at (fuel : Nat) (s : State) (n : Nat) (k : Int) (st : Time) (p : Option Int) (he : (s.cell n).en = true)
    (hh : s.held n = false) (hf : s.frozen n = false) (hk : k ≠ 0) :
    ((s.stepCell (fuel + 1) n k st p).1).cell n = ((s.cell n).stepped k st s.now p).1 := by
  unfold State.stepCell
  simp only [he, hh, hk, hf]
  simp only [Bool.not_true, Bool.or_self, decide_false, Bool.false_eq_true, if_false]
  split
  · rw [stepCell_frame]
    · simp
    · omega
    · left; omega
  · simp

/-- A running cell takes its own step. -/
theorem selfStep_at (s : State) (n : Nat) (k : Int) (st : Time) (h : s.running n = true) (hk : k ≠ 0) :
    (s.selfStep n k st).cell n = ((s.cell n).stepped k st s.now none).1 := by
  simp only [State.running, Bool.and_eq_true, Bool.not_eq_true'] at h
  unfold State.selfStep
  dsimp only
  rw [react_cell, stepCell_at 63 s n k st none h.1.1 h.1.2 h.2 hk]

theorem selfStep_frame (s : State) (n : Nat) (k : Int) (st : Time) (j : Nat) (hj : j ≠ n) (hm : j < n ∨ (s.cell j).mode ≠ 5) :
    (s.selfStep n k st).cell j = s.cell j := by
  unfold State.selfStep
  dsimp only
  rw [react_cell, stepCell_frame _ _ _ _ _ _ _ hj hm]

/-- A step changes neither holds nor the freeze, nor any cell's CELL_CTRL. -/
theorem stepCell_start (fuel : Nat) (s : State) (n : Nat) (k : Int) (st : Time) (p : Option Int) (j : Nat) :
    ((s.stepCell fuel n k st p).1).held j = s.held j ∧ ((s.stepCell fuel n k st p).1).frozen j = s.frozen j := by
  induction fuel generalizing s n k p with
  | zero => exact ⟨rfl, rfl⟩
  | succ f ih =>
    unfold State.stepCell
    dsimp only
    split
    · exact ⟨rfl, rfl⟩
    · split
      · split
        · unfold State.freezeAdd
          dsimp only
          split <;> exact ⟨rfl, rfl⟩
        · exact ⟨rfl, rfl⟩
      · split
        · exact ⟨(ih _ _ _ _).1, (ih _ _ _ _).2⟩
        · exact ⟨rfl, rfl⟩

theorem stepCell_now (fuel : Nat) (s : State) (n : Nat) (k : Int) (st : Time) (p : Option Int) :
    ((s.stepCell fuel n k st p).1).now = s.now := (kept_stepCell (.refl s)).now

/-- The signed count that a source's step is to a cell (DIR_INV). -/
def Cell.turned (c : Cell) (k : Int) : Int := if c.dirInv then -k else k

/-- A source's step reaches each of its running cells once. -/
theorem sourceSteps_cells (s : State) (k : Int) (st : Time) (l : List Nat) (evs : List StepEv) (n : Nat) (hk : k ≠ 0) (hm : (s.cell n).mode ≠ 5)
    (hnd : l.Nodup) :
    (n ∈ l → s.running n = true →
      (((l.foldl (fun p n =>
        let c := p.1.cell n
        let k' := if c.dirInv then -k else k
        let (s, e) := p.1.stepCell 64 n k' st (c.samplePos k')
        (s, p.2 ++ e)) (s, evs)).1).cell n
        = ((s.cell n).stepped ((s.cell n).turned k) st s.now ((s.cell n).samplePos ((s.cell n).turned k))).1)) ∧
    (n ∉ l →
      (((l.foldl (fun p n =>
        let c := p.1.cell n
        let k' := if c.dirInv then -k else k
        let (s, e) := p.1.stepCell 64 n k' st (c.samplePos k')
        (s, p.2 ++ e)) (s, evs)).1).cell n = s.cell n)) := by
  induction l generalizing s evs with
  | nil => simp
  | cons m r ih =>
    simp only [List.foldl_cons]
    have hr := (List.nodup_cons.1 hnd).2
    have hmr := (List.nodup_cons.1 hnd).1
    generalize hq : s.stepCell 64 m (if (s.cell m).dirInv then -k else k) st ((s.cell m).samplePos (if (s.cell m).dirInv then -k else k)) = q
    have hnow : q.1.now = s.now := by rw [← hq]; exact stepCell_now ..
    by_cases hnm : n = m
    · subst hnm
      refine ⟨fun _ hrun => ?_, fun h => absurd (List.mem_cons_self ..) h⟩
      simp only [State.running, Bool.and_eq_true, Bool.not_eq_true'] at hrun
      have hk' : (if (s.cell n).dirInv then -k else k) ≠ 0 := by split <;> omega
      have hc : q.1.cell n = ((s.cell n).stepped ((s.cell n).turned k) st s.now ((s.cell n).samplePos ((s.cell n).turned k))).1 := by
        rw [← hq]
        exact stepCell_at 63 s n _ st _ hrun.1.1 hrun.1.2 hrun.2 hk'
      have hmode : (q.1.cell n).mode ≠ 5 := by
        rw [hc]
        have : (((s.cell n).stepped ((s.cell n).turned k) st s.now ((s.cell n).samplePos ((s.cell n).turned k))).1).ctrl = (s.cell n).ctrl := by
          unfold Cell.stepped Cell.remember Cell.sample
          dsimp only
          repeat' split
          all_goals rfl
        simpa [Cell.mode, this] using hm
      rw [← hc]
      exact (ih q.1 (evs ++ q.2) hmode hr).2 hmr
    · have hc : q.1.cell n = s.cell n := by
        rw [← hq]
        exact stepCell_frame _ _ _ _ _ _ _ hnm (.inr hm)
      have hst : q.1.running n = s.running n := by
        have := stepCell_start 64 s m (if (s.cell m).dirInv then -k else k) st ((s.cell m).samplePos (if (s.cell m).dirInv then -k else k)) n
        rw [hq] at this
        simp [State.running, hc, this.1, this.2]
      have := ih q.1 (evs ++ q.2) (by rw [hc]; exact hm) hr
      rw [hst, hc, hnow] at this
      refine ⟨fun h hrun => this.1 ?_ hrun, fun h => this.2 ?_⟩
      · exact (List.mem_cons.1 h).resolve_left hnm
      · exact fun hh => h (List.mem_cons_of_mem _ hh)

theorem sourceSteps_at (s : State) (l : List Nat) (k : Int) (st : Time) (n : Nat) (hk : k ≠ 0) (hm : (s.cell n).mode ≠ 5)
    (hnd : l.Nodup) (hn : n ∈ l) (h : s.running n = true) :
    (s.sourceSteps l k st).cell n =
      ((s.cell n).stepped ((s.cell n).turned k) st s.now ((s.cell n).samplePos ((s.cell n).turned k))).1 := by
  unfold State.sourceSteps
  dsimp only
  rw [react_cell]
  exact (sourceSteps_cells s k st l [] n hk hm hnd).1 hn h

theorem sourceSteps_frame (s : State) (l : List Nat) (k : Int) (st : Time) (n : Nat) (hk : k ≠ 0) (hm : (s.cell n).mode ≠ 5)
    (hnd : l.Nodup) (hn : n ∉ l) : (s.sourceSteps l k st).cell n = s.cell n := by
  unfold State.sourceSteps
  dsimp only
  rw [react_cell]
  exact (sourceSteps_cells s k st l [] n hk hm hnd).2 hn

theorem bound_nodup (s : State) (m i : Nat) : (s.bound m i).Nodup := (List.nodup_range).filter _

theorem mem_bound {s : State} {m i n : Nat} : n ∈ s.bound m i ↔ n < 64 ∧ (s.cell n).mode = m ∧ (s.cell n).src = i := by
  simp [State.bound]

theorem zero32_pos (w : Word) : 0 < zero32 w := by
  unfold zero32; split
  · decide
  · rename_i h
    rcases Nat.eq_zero_or_pos w.toNat with h0 | h0
    · exact absurd (BitVec.eq_of_toNat_eq (by simpa using h0)) h
    · exact h0
theorem zero32_le (w : Word) : zero32 w ≤ 2 ^ 32 := by
  unfold zero32; split
  · decide
  · exact Nat.le_of_lt w.isLt
theorem modFor_pos (c : Cell) (t : Time) : 0 < c.modFor t := by unfold Cell.modFor Cell.modN; split <;> exact zero32_pos _
theorem modFor_le (c : Cell) (t : Time) : c.modFor t ≤ 2 ^ 32 := by unfold Cell.modFor Cell.modN; split <;> exact zero32_le _

theorem ofInt_toNat_mod (x : Int) (m : Nat) (h : 0 < m) (hm : m ≤ 2 ^ 32) : ((BitVec.ofInt 32 (x % m)).toNat : Int) = x % m := by
  have h1 : 0 ≤ x % (m : Int) := Int.emod_nonneg _ (by omega)
  have h2 : x % (m : Int) < m := Int.emod_lt_of_pos _ (by omega)
  rw [BitVec.toNat_ofInt]
  have : (x % (m : Int)) % ((2 ^ 32 : Nat) : Int) = x % m := Int.emod_eq_of_lt h1 (by omega)
  rw [this]
  omega

theorem stepped_moves (c : Cell) (k : Int) (st now : Time) (p : Option Int) :
    Moves c ((c.stepped k st now p).1) k (c.modFor now) st := by
  have hpos := modFor_pos c now
  have hle := modFor_le c now
  have key : ∃ (short : Bool) (ph : Word) (tn : BitVec 48), (∃ laps, c.move k (c.modFor now) = (ph, tn, laps, short)) ∧
      ((c.stepped k st now p).1).phase = ph ∧ ((c.stepped k st now p).1).turn = tn ∧
      ((c.stepped k st now p).1).dir = (if 0 < k then 0 else 1) ∧
      (c.mode ≠ 3 → c.mode ≠ 7 → ((c.stepped k st now p).1).lastT = some st) ∧
      (∃ rev : Bool, ((c.stepped k st now p).1).flags =
        if rev then (if short then c.flags ||| 0x100 else c.flags) ||| 0x2000 else if short then c.flags ||| 0x100 else c.flags) := by
    refine ⟨(c.move k (c.modFor now)).2.2.2, (c.move k (c.modFor now)).1, (c.move k (c.modFor now)).2.1, ⟨_, rfl⟩, ?_⟩
    unfold Cell.stepped Cell.remember Cell.sample
    dsimp only
    cases p with
    | none =>
      dsimp only
      split
      · rename_i hm
        exact ⟨rfl, rfl, by simp, fun h3 h7 => absurd hm (by simp [h3, h7]), false, rfl⟩
      · exact ⟨rfl, rfl, by simp, fun _ _ => rfl, false, rfl⟩
    | some q => exact ⟨rfl, rfl, by simp, fun _ _ => rfl, decide (c.dir = if decide (0 < k) = true then 1 else 0), by simp⟩
  obtain ⟨short, ph, tn, ⟨laps, hmv⟩, h1, h2, h3, h4, rev, h5⟩ := key
  have hfl : bit (((c.stepped k st now p).1).flags) 8 = true ∨ short = false := by
    cases short
    · exact .inr rfl
    · left; rw [h5]; cases rev <;> simp [bit]
  refine ⟨fun hl => ?_, fun ho hk0 => ?_, fun ho hk0 => ?_, h3, h4, ?_, ?_⟩
  · rw [h1, h2]
    simp only [Cell.move, Nat.not_le.2 hl, if_false, Prod.mk.injEq] at hmv
    rw [← hmv.1, ← hmv.2.1]
    exact ⟨ofInt_toNat_mod _ _ hpos hle, rfl⟩
  · simp only [Cell.move, ho, hk0, if_true, Prod.mk.injEq] at hmv
    rw [h1, h2, ← hmv.1, ← hmv.2.1]
    refine ⟨rfl, rfl, hfl.resolve_right (by rw [← hmv.2.2.2]; simp)⟩
  · simp only [Cell.move, ho, Int.not_lt.2 (Int.le_of_lt hk0), if_true, if_false, Prod.mk.injEq] at hmv
    rw [h1, h2, ← hmv.1, ← hmv.2.1]
    refine ⟨?_, rfl, hfl.resolve_right (by rw [← hmv.2.2.2]; simp)⟩
    rw [BitVec.toNat_ofNat, Nat.mod_eq_of_lt]
    omega
  · rw [h5]
    cases rev <;> cases short <;> simp only [if_true, if_false, Bool.false_eq_true] <;> simp [BitVec.and_or_distrib_right]
  · unfold Cell.stepped Cell.remember Cell.sample
    dsimp only
    repeat' split
    all_goals rfl

theorem stepCell_inputs (fuel : Nat) (s : State) (n : Nat) (k : Int) (st : Time) (p : Option Int) :
    ((s.stepCell fuel n k st p).1).axes.encs = s.axes.encs ∧ ((s.stepCell fuel n k st p).1).axes.sers = s.axes.sers ∧
    ((s.stepCell fuel n k st p).1).axes.mains = s.axes.mains := by
  induction fuel generalizing s n k p with
  | zero => exact ⟨rfl, rfl, rfl⟩
  | succ f ih =>
    unfold State.stepCell
    dsimp only
    split
    · exact ⟨rfl, rfl, rfl⟩
    · split
      · split
        · unfold State.freezeAdd
          dsimp only
          split <;> exact ⟨rfl, rfl, rfl⟩
        · exact ⟨rfl, rfl, rfl⟩
      · split
        · exact ⟨(ih _ _ _ _).1, (ih _ _ _ _).2⟩
        · exact ⟨rfl, rfl, rfl⟩

theorem sourceSteps_inputs (s : State) (l : List Nat) (k : Int) (st : Time) :
    (s.sourceSteps l k st).axes.encs = s.axes.encs ∧ (s.sourceSteps l k st).axes.sers = s.axes.sers ∧
    (s.sourceSteps l k st).axes.mains = s.axes.mains := by
  unfold State.sourceSteps
  dsimp only
  rw [(kept_react (.refl _)).axes]
  suffices ∀ (l : List Nat) (q : State × List StepEv), (l.foldl (fun p n =>
        let c := p.1.cell n
        let k' := if c.dirInv then -k else k
        let (s, e) := p.1.stepCell 64 n k' st (c.samplePos k')
        (s, p.2 ++ e)) q).1.axes.encs = q.1.axes.encs ∧ (l.foldl (fun p n =>
        let c := p.1.cell n
        let k' := if c.dirInv then -k else k
        let (s, e) := p.1.stepCell 64 n k' st (c.samplePos k')
        (s, p.2 ++ e)) q).1.axes.sers = q.1.axes.sers ∧ (l.foldl (fun p n =>
        let c := p.1.cell n
        let k' := if c.dirInv then -k else k
        let (s, e) := p.1.stepCell 64 n k' st (c.samplePos k')
        (s, p.2 ++ e)) q).1.axes.mains = q.1.axes.mains from this l (s, [])
  intro l
  induction l with
  | nil => intro q; exact ⟨rfl, rfl, rfl⟩
  | cons n r ih =>
    intro q
    simp only [List.foldl_cons]
    have h := ih ((q.1.stepCell 64 n (if (q.1.cell n).dirInv then -k else k) st ((q.1.cell n).samplePos (if (q.1.cell n).dirInv then -k else k))).1,
      q.2 ++ (q.1.stepCell 64 n (if (q.1.cell n).dirInv then -k else k) st ((q.1.cell n).samplePos (if (q.1.cell n).dirInv then -k else k))).2)
    have g := stepCell_inputs 64 q.1 n (if (q.1.cell n).dirInv then -k else k) st ((q.1.cell n).samplePos (if (q.1.cell n).dirInv then -k else k))
    exact ⟨h.1.trans g.1, h.2.1.trans g.2.1, h.2.2.trans g.2.2⟩

/-- A change of every cell of a list, each by itself. -/
theorem modCells_cell (l : List Nat) (f : Cell → Cell) (s : State) (n : Nat) (hnd : l.Nodup) :
    (l.foldl (fun s n => s.modCell n f) s).cell n = if n ∈ l then f (s.cell n) else s.cell n := by
  induction l generalizing s with
  | nil => simp
  | cons m r ih =>
    have h := List.nodup_cons.1 hnd
    simp only [List.foldl_cons]
    rw [ih _ h.2]
    simp only [State.modCell_eq, State.setCell_cell, List.mem_cons]
    by_cases hn : n = m
    · subst hn
      simp [h.1]
    · simp [hn]

theorem modCells_rest (l : List Nat) (f : Cell → Cell) (s : State) :
    l.foldl (fun s n => s.modCell n f) s = { s with axes := { s.axes with cells := (l.foldl (fun s n => s.modCell n f) s).axes.cells } } := by
  induction l generalizing s with
  | nil => rfl
  | cons m r ih =>
    simp only [List.foldl_cons]
    rw [ih]
    rfl

/-- A load leaves the cell's registers, modes and estimator history alone and puts the position in (R61, R63); the cells beside it stand. -/
theorem loadCell_cell (s : State) (n : Nat) (turn : BitVec 48) (phase : Word) (j : Nat) :
    ((s.loadCell n turn phase).2).cell j =
      if j ≠ n then s.cell j
      else if (s.cell n).modN ≤ phase.toNat then { s.cell n with flags := (s.cell n).flags ||| 0x8000 }
      else (s.cell n).remember { (s.cell n).restart (cyc s.now * 8) (s.running n) with turn := turn, phase := phase, frac := 0, reachUp := false, reload := true, pausedAt := (s.cell n).pausedAt.map fun _ => cyc s.now * 8, loadAt := some (cyc s.now) } (s.held n) (s.frozen n) s.now s.now := by
  unfold State.loadCell
  dsimp only
  split
  · by_cases h : j = n <;> simp [h]
  · dsimp only
    rw [cellChange_cell]
    by_cases h : j = n <;> simp [h, State.putCell]

/-- A cell written and what watches it told: the other cells stand, and so does everything but channels, queues and outputs. -/
theorem setWatch (s : State) (c : Nat) (x : Cell) (k : Change) :
    (∀ n, ((s.setCell c x).watchChange c k).cell n = if n = c then x else s.cell n) ∧
    Kept s ((s.setCell c x).watchChange c k) ∧ ((s.setCell c x).watchChange c k).cmps = s.cmps ∧
    ((s.setCell c x).watchChange c k).caps = s.caps := by
  refine ⟨fun n => ?_, Kept.ofQuiet (kept_watchChange (.refl _)) (Kept.put (.refl _) rfl), (kept_watchChange (.refl _)).cmps,
    (kept_watchChange (.refl _)).caps⟩
  rw [watchChange_cell, State.setCell_cell]

end Sys2Proof.Machine
end

