-- ==== Sys2Proof/Laws/Compare.lean ====
section
/-! SUPPORT. What arming, disarming and judging a compare unit change: of that unit the scheduler's and the records' fields besides what the
operation says, of other units nothing, and nothing that `Ran` keeps. -/

namespace Sys2Proof.Machine

/-- `b` differs from `a` only in what the scheduler and the records keep. -/
structure CmpSame (a b : Cmp) : Prop where
  eq : b = { a with entry := b.entry, due := b.due, oorDone := b.oorDone, oorPend := b.oorPend }

theorem CmpSame.refl (a : Cmp) : CmpSame a a := ⟨rfl⟩
theorem CmpSame.trans {a b c : Cmp} (h : CmpSame a b) (k : CmpSame b c) : CmpSame a c := by
  refine ⟨?_⟩
  rw [k.eq, h.eq]

structure CmpOnly (k : Nat) (s u : State) : Prop where
  same : CmpSame (s.cmp k) (u.cmp k)
  other : ∀ j, j ≠ k → u.cmp j = s.cmp j
  caps : u.caps = s.caps
  ran : Ran s u

theorem CmpOnly.refl (k : Nat) (s : State) : CmpOnly k s s := ⟨.refl _, fun _ _ => rfl, rfl, .refl s⟩
theorem CmpOnly.trans {k : Nat} {a b c : State} (h : CmpOnly k a b) (g : CmpOnly k b c) : CmpOnly k a c :=
  ⟨h.same.trans g.same, fun j hj => (g.other j hj).trans (h.other j hj), g.caps.trans h.caps, h.ran.trans g.ran⟩
theorem CmpOnly.quiet {k : Nat} {s u : State} (h : Quiet s u) : CmpOnly k s u := by
  have hc : ∀ j, u.cmp j = s.cmp j := fun j => by simp [State.cmp, h.cmps]
  exact ⟨by rw [hc]; exact .refl _, fun j _ => hc j, h.caps, h.toRan⟩
theorem CmpOnly.set {k : Nat} (s : State) (x : Cmp) (h : CmpSame (s.cmp k) x) : CmpOnly k s (s.setCmp k x) :=
  ⟨by simpa using h, fun j hj => by simp [hj], rfl, Ran.put (.refl _) rfl⟩

theorem CmpOnly.set' {k : Nat} (s : State) (x : Cmp)
    (h : x = { s.cmp k with entry := x.entry, due := x.due, oorDone := x.oorDone, oorPend := x.oorPend }) : CmpOnly k s (s.setCmp k x) :=
  CmpOnly.set s x ⟨h⟩

theorem cmpTakeEntry_only (s : State) (k : Nat) : CmpOnly k s (s.cmpTakeEntry k) := by
  unfold State.cmpTakeEntry
  split
  · exact .refl _ _
  · split
    · rename_i s' h
      have hq : Quiet s s' := kept_schedTake_of h (.refl s)
      exact (CmpOnly.quiet hq).trans (CmpOnly.set' _ _ rfl)
    · rename_i s' h
      exact CmpOnly.quiet (kept_schedTake_of h (.refl s))

theorem cmpGiveEntry_only (s : State) (k : Nat) : CmpOnly k s (s.cmpGiveEntry k) ∧ ((s.cmpGiveEntry k).cmp k).entry = false := by
  unfold State.cmpGiveEntry
  refine ⟨(CmpOnly.quiet (k := k) (kept_schedGive (.refl s))).trans (CmpOnly.set' _ _ rfl), by simp⟩

theorem cmpPredict_only (s : State) (k : Nat) : CmpOnly k s (s.cmpPredict k) := by
  unfold State.cmpPredict
  dsimp only
  split
  · exact .refl _ _
  · apply CmpOnly.set; constructor; rfl

theorem cmpOorRecord_only (s : State) (k : Nat) : CmpOnly k s (s.cmpOorRecord k) := by
  unfold State.cmpOorRecord
  dsimp only
  split
  · exact .refl _ _
  · split
    · exact CmpOnly.set' _ _ rfl
    · refine CmpOnly.trans (b := s.setCmp k { s.cmp k with oorDone := true }) (CmpOnly.set' _ _ rfl) ?_
      split
      · rename_i h
        exact CmpOnly.quiet (kept_eqPost_of h (.refl _))
      · rename_i h
        exact (CmpOnly.quiet (kept_eqPost_of h (.refl _))).trans (CmpOnly.set' _ _ rfl)

theorem cmpRangeCheck_only (s : State) (k : Nat) : CmpOnly k s (s.cmpRangeCheck k) := by
  unfold State.cmpRangeCheck
  dsimp only
  split
  · exact cmpOorRecord_only s k
  · exact CmpOnly.set' _ _ rfl

theorem cmpArm_only (s : State) (k : Nat) (a : Option Nat) :
    CmpOnly k (s.setCmp k { s.cmp k with armed := true, hystWait := false, armedAt := a }) (s.cmpArm k a) := by
  unfold State.cmpArm
  exact ((cmpTakeEntry_only _ k).trans (cmpOorRecord_only _ k)).trans (cmpPredict_only _ k)

theorem cmpDisarm_only (s : State) (k : Nat) :
    CmpOnly k (s.setCmp k { s.cmp k with armed := false, hystWait := false }) (s.cmpDisarm k) ∧ ((s.cmpDisarm k).cmp k).entry = false := by
  unfold State.cmpDisarm
  exact cmpGiveEntry_only _ k

theorem CmpSame.fields {a b : Cmp} (h : CmpSame a b) : b.ctrl = a.ctrl ∧ b.phase = a.phase ∧ b.turn = a.turn ∧ b.incr = a.incr ∧ b.armed = a.armed ∧
    b.armedAt = a.armedAt ∧ b.fired = a.fired ∧ b.overrun = a.overrun ∧ b.cfgRej = a.cfgRej ∧ b.hystWait = a.hystWait ∧ b.ft = a.ft ∧ b.fcnt = a.fcnt ∧
    b.pend = a.pend := by
  rw [h.eq]; exact ⟨rfl, rfl, rfl, rfl, rfl, rfl, rfl, rfl, rfl, rfl, rfl, rfl, rfl⟩

end Sys2Proof.Machine
end

