-- ==== Sys2Proof/Laws/KeptUnits.lean ====
section
/-! SUPPORT. What the operations of Machine/Units.lean leave alone (`Kept`, `Held`). -/

namespace Sys2Proof.Machine

theorem kept_mbEvent {a s : State} {x1} {x2} {x3} {x4} {x5} (h : Quiet a s) : Quiet a (State.mbEvent s x1 x2 x3 x4 x5) := by
  unfold State.mbEvent
  repeat' first
    | with_reducible refine Quiet.ite ?_ ?_
    | with_reducible refine Quiet.ite_snd ?_ ?_
    | with_reducible assumption
    | with_reducible apply kept_msixNotify
    | with_reducible apply kept_emit
    | with_reducible apply kept_wakeUnit

theorem kept_mbSend {a s : State} {x1} {x2} (h : Kept a s) : Kept a (State.mbSend s x1 x2) := by
  unfold State.mbSend
  repeat' first
    | with_reducible refine Kept.ite ?_ ?_
    | with_reducible refine Kept.ite_snd ?_ ?_
    | with_reducible assumption
    | with_reducible apply kept_setMb
    | with_reducible refine Kept.ofQuiet (kept_mbEvent (.refl _)) ?_

theorem kept_mbAck {a s : State} {x1} {x2} {x3} (h : Kept a s) : Kept a (State.mbAck s x1 x2 x3) := by
  unfold State.mbAck
  repeat' first
    | with_reducible refine Kept.ite ?_ ?_
    | with_reducible refine Kept.ite_snd ?_ ?_
    | with_reducible assumption
    | with_reducible apply kept_setMb
    | with_reducible refine Kept.ofQuiet (kept_mbEvent (.refl _)) ?_

theorem kept_mbReset {a s : State} {x1} (h : Kept a s) : Kept a (State.mbReset s x1) := by
  unfold State.mbReset
  repeat' first
    | with_reducible refine Kept.ite ?_ ?_
    | with_reducible refine Kept.ite_snd ?_ ?_
    | with_reducible assumption
    | with_reducible apply kept_setMb
    | with_reducible refine Kept.ofQuiet (kept_mbEvent (.refl _)) ?_
    | with_reducible refine Kept.foldl _ (fun _ _ _ => ?_) _ ?_

theorem kept_txqPut {a s : State} {x1} {x2} {x3} (h : Quiet a s) : Quiet a (State.txqPut s x1 x2 x3) := by
  unfold State.txqPut
  repeat' first
    | with_reducible refine Quiet.ite ?_ ?_
    | with_reducible refine Quiet.ite_snd ?_ ?_
    | with_reducible assumption
    | with_reducible apply kept_setTxq

theorem kept_yzPut {a s : State} {x1} {x2} (h : Quiet a s) : Quiet a (State.yzPut s x1 x2) := by
  unfold State.yzPut
  repeat' first
    | with_reducible refine Quiet.ite ?_ ?_
    | with_reducible refine Quiet.ite_snd ?_ ?_
    | with_reducible assumption
    | with_reducible apply kept_modYz

theorem kept_dropRecord {a s : State} {x1} {x2} (h : Quiet a s) : Quiet a (State.dropRecord s x1 x2) := by
  unfold State.dropRecord
  repeat' first
    | with_reducible refine Quiet.ite ?_ ?_
    | with_reducible refine Quiet.ite_snd ?_ ?_
    | with_reducible assumption
    | with_reducible apply kept_setStream

theorem kept_flushUnit {a s : State} {x1} (h : Kept a s) : Kept a (State.flushUnit s x1) := by
  unfold State.flushUnit
  repeat' first
    | with_reducible refine Kept.ite ?_ ?_
    | with_reducible refine Kept.ite_snd ?_ ?_
    | with_reducible assumption
    | with_reducible refine Kept.ofQuiet (kept_setStream (.refl _)) ?_
    | with_reducible refine Kept.ofRan (kept_setCap (.refl _)) ?_
    | with_reducible apply kept_setSer
    | with_reducible refine Kept.ofQuiet (kept_setTxq (.refl _)) ?_
    | with_reducible refine Kept.foldl _ (fun _ _ _ => ?_) _ ?_
    | with_reducible refine Kept.ite_snd_of (by with_reducible assumption) ?_ ?_
    | with_reducible refine Kept.foldl_fst _ (fun _ _ _ => ?_) _ ?_
    | with_reducible refine Kept.foldl_fst_of (by with_reducible assumption) (fun _ _ _ => ?_) ?_
    | with_reducible refine Kept.foldl_snd _ (fun _ _ _ => ?_) _ ?_
    | with_reducible refine Kept.foldl_snd_of (by with_reducible assumption) (fun _ _ _ => ?_) ?_
    | with_reducible refine Kept.foldl_thd _ (fun _ _ _ => ?_) _ ?_
    | with_reducible refine Kept.foldl_thd_of (by with_reducible assumption) (fun _ _ _ => ?_) ?_
    | dsimp only
    | simp only [reduceIte, Bool.false_eq_true]
    | split

end Sys2Proof.Machine
end

