-- ==== Sys2Proof/Laws/KeptChannel.lean ====
section
/-! SUPPORT. What the operations of Machine/Channel.lean leave alone (`Kept`, `Held`). -/

namespace Sys2Proof.Machine

theorem kept_fetchXl {a s : State} {c acc k o va n} (h : Quiet a s) : Quiet a (State.fetchXl s c acc k o va n).2 := by
  induction k generalizing s o va n with
  | zero => exact h
  | succ k ih =>
    unfold State.fetchXl
    refine Quiet.ite_snd ?_ ?_
    · exact h
    split
    · have := ih (o := o + min n (4096 - va % 4096)) (va := va + min n (4096 - va % 4096)) (n := n - min n (4096 - va % 4096))
        (kept_xlate_of ‹_› h)
      dsimp only
      split
      · next e => rwa [e] at this
      · exact this
    · exact kept_xlate_of ‹_› h
    · exact kept_xlate_of ‹_› h

theorem kept_fetchXl_of {a s u : State} {c acc k o va n} {w0} (e : State.fetchXl s c acc k o va n = (w0, u)) (h : Quiet a s) : Quiet a u := by
  have := kept_fetchXl (c := c) (acc := acc) (k := k) (o := o) (va := va) (n := n) h
  rw [e] at this
  exact this

theorem kept_refetch {a s : State} {x1} {x2} {x3} (h : Quiet a s) : Quiet a (State.refetch s x1 x2 x3) := by
  unfold State.refetch
  repeat' first
    | with_reducible refine Quiet.ite ?_ ?_
    | with_reducible refine Quiet.ite_snd ?_ ?_
    | with_reducible assumption
    | with_reducible apply kept_modChan
    | with_reducible refine Quiet.foldl _ (fun _ _ _ => ?_) _ ?_
    | with_reducible refine Quiet.ite_snd_of (by with_reducible assumption) ?_ ?_
    | with_reducible refine Quiet.foldl_fst _ (fun _ _ _ => ?_) _ ?_
    | with_reducible refine Quiet.foldl_fst_of (by with_reducible assumption) (fun _ _ _ => ?_) ?_
    | with_reducible refine Quiet.foldl_snd _ (fun _ _ _ => ?_) _ ?_
    | with_reducible refine Quiet.foldl_snd_of (by with_reducible assumption) (fun _ _ _ => ?_) ?_
    | with_reducible refine Quiet.foldl_thd _ (fun _ _ _ => ?_) _ ?_
    | with_reducible refine Quiet.foldl_thd_of (by with_reducible assumption) (fun _ _ _ => ?_) ?_
    | dsimp only
    | simp only [reduceIte, Bool.false_eq_true]
    | split
    | fail_if_no_progress ((with_reducible refine Quiet.put ?_ ?_) <;> first | exact rfl | skip)

theorem kept_fetchPiece {a s : State} {x1} {x2} {x3} (h : Quiet a s) : Quiet a (State.fetchPiece s x1 x2 x3).2 := by
  unfold State.fetchPiece
  repeat' first
    | with_reducible refine Quiet.ite ?_ ?_
    | with_reducible refine Quiet.ite_snd ?_ ?_
    | with_reducible assumption
    | with_reducible apply kept_sramRead
    | with_reducible refine kept_sramRead_of (by with_reducible assumption) ?_
    | with_reducible apply kept_refetch
    | with_reducible refine Quiet.foldl _ (fun _ _ _ => ?_) _ ?_
    | with_reducible refine Quiet.ite_snd_of (by with_reducible assumption) ?_ ?_
    | with_reducible refine Quiet.foldl_fst _ (fun _ _ _ => ?_) _ ?_
    | with_reducible refine Quiet.foldl_fst_of (by with_reducible assumption) (fun _ _ _ => ?_) ?_
    | with_reducible refine Quiet.foldl_snd _ (fun _ _ _ => ?_) _ ?_
    | with_reducible refine Quiet.foldl_snd_of (by with_reducible assumption) (fun _ _ _ => ?_) ?_
    | with_reducible refine Quiet.foldl_thd _ (fun _ _ _ => ?_) _ ?_
    | with_reducible refine Quiet.foldl_thd_of (by with_reducible assumption) (fun _ _ _ => ?_) ?_
    | dsimp only
    | simp only [reduceIte, Bool.false_eq_true]
    | split
    | fail_if_no_progress ((with_reducible refine Quiet.put ?_ ?_) <;> first | exact rfl | skip)

theorem kept_fetchPiece_of {a s u : State} {x1} {x2} {x3} {w0} (e : State.fetchPiece s x1 x2 x3 = (w0, u)) (h : Quiet a s) : Quiet a u := by
  have := kept_fetchPiece (x1 := x1) (x2 := x2) (x3 := x3) h
  rw [e] at this
  exact this

theorem kept_fetchAt {a s : State} {x1} {x2} {x3} {x4} {x5} (h : Quiet a s) : Quiet a (State.fetchAt s x1 x2 x3 x4 x5).2 := by
  unfold State.fetchAt
  repeat' first
    | with_reducible refine Quiet.ite ?_ ?_
    | with_reducible refine Quiet.ite_snd ?_ ?_
    | with_reducible assumption
    | with_reducible apply kept_fetchPiece
    | with_reducible refine kept_fetchPiece_of (by with_reducible assumption) ?_
    | with_reducible apply kept_fetchXl
    | with_reducible refine kept_fetchXl_of (by with_reducible assumption) ?_
    | with_reducible refine Quiet.foldl _ (fun _ _ _ => ?_) _ ?_
    | with_reducible refine Quiet.ite_snd_of (by with_reducible assumption) ?_ ?_
    | with_reducible refine Quiet.foldl_fst _ (fun _ _ _ => ?_) _ ?_
    | with_reducible refine Quiet.foldl_fst_of (by with_reducible assumption) (fun _ _ _ => ?_) ?_
    | with_reducible refine Quiet.foldl_snd _ (fun _ _ _ => ?_) _ ?_
    | with_reducible refine Quiet.foldl_snd_of (by with_reducible assumption) (fun _ _ _ => ?_) ?_
    | with_reducible refine Quiet.foldl_thd _ (fun _ _ _ => ?_) _ ?_
    | with_reducible refine Quiet.foldl_thd_of (by with_reducible assumption) (fun _ _ _ => ?_) ?_
    | dsimp only
    | simp only [reduceIte, Bool.false_eq_true]
    | split
    | fail_if_no_progress ((with_reducible refine Quiet.put ?_ ?_) <;> first | exact rfl | skip)

theorem kept_fetchAt_of {a s u : State} {x1} {x2} {x3} {x4} {x5} {w0} (e : State.fetchAt s x1 x2 x3 x4 x5 = (w0, u)) (h : Quiet a s) : Quiet a u := by
  have := kept_fetchAt (x1 := x1) (x2 := x2) (x3 := x3) (x4 := x4) (x5 := x5) h
  rw [e] at this
  exact this

theorem kept_fetchGroup {a s : State} {x1} {x2} {x3} (h : Quiet a s) : Quiet a (State.fetchGroup s x1 x2 x3).2 := by
  unfold State.fetchGroup
  repeat' first
    | with_reducible refine Quiet.ite ?_ ?_
    | with_reducible refine Quiet.ite_snd ?_ ?_
    | with_reducible assumption
    | with_reducible apply kept_fetchAt
    | with_reducible refine kept_fetchAt_of (by with_reducible assumption) ?_
    | with_reducible refine Quiet.foldl _ (fun _ _ _ => ?_) _ ?_
    | with_reducible refine Quiet.ite_snd_of (by with_reducible assumption) ?_ ?_
    | with_reducible refine Quiet.foldl_fst _ (fun _ _ _ => ?_) _ ?_
    | with_reducible refine Quiet.foldl_fst_of (by with_reducible assumption) (fun _ _ _ => ?_) ?_
    | with_reducible refine Quiet.foldl_snd _ (fun _ _ _ => ?_) _ ?_
    | with_reducible refine Quiet.foldl_snd_of (by with_reducible assumption) (fun _ _ _ => ?_) ?_
    | with_reducible refine Quiet.foldl_thd _ (fun _ _ _ => ?_) _ ?_
    | with_reducible refine Quiet.foldl_thd_of (by with_reducible assumption) (fun _ _ _ => ?_) ?_
    | dsimp only
    | simp only [reduceIte, Bool.false_eq_true]
    | split

theorem kept_fetchGroup_of {a s u : State} {x1} {x2} {x3} {w0} (e : State.fetchGroup s x1 x2 x3 = (w0, u)) (h : Quiet a s) : Quiet a u := by
  have := kept_fetchGroup (x1 := x1) (x2 := x2) (x3 := x3) h
  rw [e] at this
  exact this

theorem kept_fetchOver {a s : State} {x1} (h : Quiet a s) : Quiet a (State.fetchOver s x1) := by
  unfold State.fetchOver
  repeat' first
    | with_reducible refine Quiet.ite ?_ ?_
    | with_reducible refine Quiet.ite_snd ?_ ?_
    | with_reducible assumption
    | with_reducible apply kept_forget
    | with_reducible apply kept_modChan
    | with_reducible refine Quiet.foldl _ (fun _ _ _ => ?_) _ ?_
    | with_reducible refine Quiet.ite_snd_of (by with_reducible assumption) ?_ ?_
    | with_reducible refine Quiet.foldl_fst _ (fun _ _ _ => ?_) _ ?_
    | with_reducible refine Quiet.foldl_fst_of (by with_reducible assumption) (fun _ _ _ => ?_) ?_
    | with_reducible refine Quiet.foldl_snd _ (fun _ _ _ => ?_) _ ?_
    | with_reducible refine Quiet.foldl_snd_of (by with_reducible assumption) (fun _ _ _ => ?_) ?_
    | with_reducible refine Quiet.foldl_thd _ (fun _ _ _ => ?_) _ ?_
    | with_reducible refine Quiet.foldl_thd_of (by with_reducible assumption) (fun _ _ _ => ?_) ?_
    | dsimp only
    | simp only [reduceIte, Bool.false_eq_true]
    | split
    | fail_if_no_progress ((with_reducible refine Quiet.put ?_ ?_) <;> first | exact rfl | skip)

theorem kept_fetchCurrent {a s : State} {x1} {x2} (h : Quiet a s) : Quiet a (State.fetchCurrent s x1 x2) := by
  unfold State.fetchCurrent
  repeat' first
    | with_reducible refine Quiet.ite ?_ ?_
    | with_reducible refine Quiet.ite_snd ?_ ?_
    | with_reducible assumption
    | with_reducible apply kept_fetchGroup
    | with_reducible refine kept_fetchGroup_of (by with_reducible assumption) ?_
    | with_reducible apply kept_fetchOver
    | with_reducible apply kept_makeCurrent
    | with_reducible apply kept_faultStop
    | with_reducible apply kept_report
    | with_reducible apply kept_endWith
    | with_reducible refine Quiet.foldl _ (fun _ _ _ => ?_) _ ?_
    | with_reducible refine Quiet.ite_snd_of (by with_reducible assumption) ?_ ?_
    | with_reducible refine Quiet.foldl_fst _ (fun _ _ _ => ?_) _ ?_
    | with_reducible refine Quiet.foldl_fst_of (by with_reducible assumption) (fun _ _ _ => ?_) ?_
    | with_reducible refine Quiet.foldl_snd _ (fun _ _ _ => ?_) _ ?_
    | with_reducible refine Quiet.foldl_snd_of (by with_reducible assumption) (fun _ _ _ => ?_) ?_
    | with_reducible refine Quiet.foldl_thd _ (fun _ _ _ => ?_) _ ?_
    | with_reducible refine Quiet.foldl_thd_of (by with_reducible assumption) (fun _ _ _ => ?_) ?_
    | dsimp only
    | simp only [reduceIte, Bool.false_eq_true]
    | split
    | fail_if_no_progress ((with_reducible refine Quiet.put ?_ ?_) <;> first | exact rfl | skip)

theorem kept_bracketFails {a s : State} {x1 x2} (h : Quiet a s) : Quiet a (State.bracketFails s x1 x2) := by
  unfold State.bracketFails
  repeat' first
    | with_reducible assumption
    | with_reducible apply kept_faultStop
    | with_reducible apply kept_modChan
    | with_reducible apply kept_endWith
    | with_reducible apply kept_report
    | split

theorem kept_fetchAhead {a s : State} {x1} {x2} (h : Quiet a s) : Quiet a (State.fetchAhead s x1 x2) := by
  unfold State.fetchAhead
  repeat' first
    | with_reducible refine Quiet.ite ?_ ?_
    | with_reducible refine Quiet.ite_snd ?_ ?_
    | with_reducible assumption
    | with_reducible apply kept_fetchGroup
    | with_reducible refine kept_fetchGroup_of (by with_reducible assumption) ?_
    | with_reducible apply kept_fetchOver
    | with_reducible apply kept_modChan
    | with_reducible apply kept_bracketCheck
    | with_reducible apply kept_bracketFails
    | with_reducible refine Quiet.foldl _ (fun _ _ _ => ?_) _ ?_
    | with_reducible refine Quiet.ite_snd_of (by with_reducible assumption) ?_ ?_
    | with_reducible refine Quiet.foldl_fst _ (fun _ _ _ => ?_) _ ?_
    | with_reducible refine Quiet.foldl_fst_of (by with_reducible assumption) (fun _ _ _ => ?_) ?_
    | with_reducible refine Quiet.foldl_snd _ (fun _ _ _ => ?_) _ ?_
    | with_reducible refine Quiet.foldl_snd_of (by with_reducible assumption) (fun _ _ _ => ?_) ?_
    | with_reducible refine Quiet.foldl_thd _ (fun _ _ _ => ?_) _ ?_
    | with_reducible refine Quiet.foldl_thd_of (by with_reducible assumption) (fun _ _ _ => ?_) ?_
    | dsimp only
    | simp only [reduceIte, Bool.false_eq_true]
    | split
    | fail_if_no_progress ((with_reducible refine Quiet.put ?_ ?_) <;> first | exact rfl | skip)

theorem kept_fetchFrag {a s : State} {x1} {x2} {x3} (h : Kept a s) : Kept a (State.fetchFrag s x1 x2 x3) := by
  unfold State.fetchFrag
  repeat' first
    | with_reducible refine Kept.ite ?_ ?_
    | with_reducible refine Kept.ite_snd ?_ ?_
    | with_reducible assumption
    | with_reducible apply Kept.ofQuiet (kept_fetchAt (Quiet.refl _))
    | with_reducible refine Kept.ofQuiet (kept_fetchAt_of (by with_reducible assumption) (Quiet.refl _)) ?_
    | with_reducible apply Kept.ofQuiet (kept_fetchOver (Quiet.refl _))
    | with_reducible apply Kept.ofQuiet (kept_fragRead (Quiet.refl _))
    | with_reducible apply Kept.ofQuiet (kept_faultStop (Quiet.refl _))
    | with_reducible apply kept_busStop
    | with_reducible apply Kept.ofQuiet (kept_endWith (Quiet.refl _))
    | with_reducible refine Kept.foldl _ (fun _ _ _ => ?_) _ ?_
    | with_reducible refine Kept.ite_snd_of (by with_reducible assumption) ?_ ?_
    | with_reducible refine Kept.foldl_fst _ (fun _ _ _ => ?_) _ ?_
    | with_reducible refine Kept.foldl_fst_of (by with_reducible assumption) (fun _ _ _ => ?_) ?_
    | with_reducible refine Kept.foldl_snd _ (fun _ _ _ => ?_) _ ?_
    | with_reducible refine Kept.foldl_snd_of (by with_reducible assumption) (fun _ _ _ => ?_) ?_
    | with_reducible refine Kept.foldl_thd _ (fun _ _ _ => ?_) _ ?_
    | with_reducible refine Kept.foldl_thd_of (by with_reducible assumption) (fun _ _ _ => ?_) ?_
    | dsimp only
    | simp only [reduceIte, Bool.false_eq_true]
    | split
    | fail_if_no_progress ((with_reducible refine Kept.put ?_ ?_) <;> first | exact rfl | skip)

theorem kept_groupFetch {a s : State} {x1} {x2} (h : Kept a s) : Kept a (State.groupFetch s x1 x2) := by
  unfold State.groupFetch
  repeat' first
    | with_reducible refine Kept.ite ?_ ?_
    | with_reducible refine Kept.ite_snd ?_ ?_
    | with_reducible assumption
    | with_reducible apply kept_fetchFrag
    | with_reducible apply Kept.ofQuiet (kept_fetchCurrent (Quiet.refl _))
    | with_reducible apply Kept.ofQuiet (kept_fetchAhead (Quiet.refl _))
    | with_reducible refine Kept.foldl _ (fun _ _ _ => ?_) _ ?_
    | with_reducible refine Kept.ite_snd_of (by with_reducible assumption) ?_ ?_
    | with_reducible refine Kept.foldl_fst _ (fun _ _ _ => ?_) _ ?_
    | with_reducible refine Kept.foldl_fst_of (by with_reducible assumption) (fun _ _ _ => ?_) ?_
    | with_reducible refine Kept.foldl_snd _ (fun _ _ _ => ?_) _ ?_
    | with_reducible refine Kept.foldl_snd_of (by with_reducible assumption) (fun _ _ _ => ?_) ?_
    | with_reducible refine Kept.foldl_thd _ (fun _ _ _ => ?_) _ ?_
    | with_reducible refine Kept.foldl_thd_of (by with_reducible assumption) (fun _ _ _ => ?_) ?_
    | dsimp only
    | simp only [reduceIte, Bool.false_eq_true]
    | split
    | fail_if_no_progress ((with_reducible refine Kept.put ?_ ?_) <;> first | exact rfl | skip)

end Sys2Proof.Machine
end

