-- ==== Sys2Proof/Laws/KeptTimed.lean ====
section
/-! SUPPORT. What the operations of Machine/Timed.lean leave alone (`Kept`, `Held`). -/

namespace Sys2Proof.Machine

theorem kept_giveEntry {a s : State} (h : Ran a s) : Ran a (State.giveEntry s) := by
  unfold State.giveEntry
  repeat' first
    | with_reducible refine Ran.ite ?_ ?_
    | with_reducible refine Ran.ite_snd ?_ ?_
    | with_reducible assumption
    | with_reducible apply Ran.ofQuiet (kept_modChan (Quiet.refl _))
    | with_reducible apply Ran.ofQuiet (kept_miss (Quiet.refl _))
    | with_reducible apply Ran.ofQuiet (kept_setDue (Quiet.refl _))
    | with_reducible apply kept_modCmp
    | with_reducible apply kept_cmpPredict
    | with_reducible refine Ran.foldl _ (fun _ _ _ => ?_) _ ?_
    | with_reducible refine Ran.ite_snd_of (by with_reducible assumption) ?_ ?_
    | with_reducible refine Ran.foldl_fst _ (fun _ _ _ => ?_) _ ?_
    | with_reducible refine Ran.foldl_fst_of (by with_reducible assumption) (fun _ _ _ => ?_) ?_
    | with_reducible refine Ran.foldl_snd _ (fun _ _ _ => ?_) _ ?_
    | with_reducible refine Ran.foldl_snd_of (by with_reducible assumption) (fun _ _ _ => ?_) ?_
    | with_reducible refine Ran.foldl_thd _ (fun _ _ _ => ?_) _ ?_
    | with_reducible refine Ran.foldl_thd_of (by with_reducible assumption) (fun _ _ _ => ?_) ?_
    | dsimp only
    | simp only [reduceIte, Bool.false_eq_true]
    | split
    | fail_if_no_progress ((with_reducible refine Ran.put ?_ ?_) <;> first | exact rfl | skip)

theorem kept_entryGrant {a s : State} (h : Ran a s) : Ran a (State.entryGrant s) := by
  unfold State.entryGrant
  repeat' first
    | with_reducible refine Ran.ite ?_ ?_
    | with_reducible refine Ran.ite_snd ?_ ?_
    | with_reducible assumption
    | with_reducible apply kept_giveEntry
    | with_reducible refine Ran.foldl _ (fun _ _ _ => ?_) _ ?_
    | with_reducible refine Ran.ite_snd_of (by with_reducible assumption) ?_ ?_
    | with_reducible refine Ran.foldl_fst _ (fun _ _ _ => ?_) _ ?_
    | with_reducible refine Ran.foldl_fst_of (by with_reducible assumption) (fun _ _ _ => ?_) ?_
    | with_reducible refine Ran.foldl_snd _ (fun _ _ _ => ?_) _ ?_
    | with_reducible refine Ran.foldl_snd_of (by with_reducible assumption) (fun _ _ _ => ?_) ?_
    | with_reducible refine Ran.foldl_thd _ (fun _ _ _ => ?_) _ ?_
    | with_reducible refine Ran.foldl_thd_of (by with_reducible assumption) (fun _ _ _ => ?_) ?_
    | dsimp only
    | simp only [reduceIte, Bool.false_eq_true]
    | split
    | fail_if_no_progress ((with_reducible refine Ran.put ?_ ?_) <;> first | exact rfl | skip)

theorem kept_schedCtrl {a s : State} {x1} (h : Quiet a s) : Quiet a (State.schedCtrl s x1) := by
  unfold State.schedCtrl
  repeat' first
    | with_reducible refine Quiet.ite ?_ ?_
    | with_reducible refine Quiet.ite_snd ?_ ?_
    | with_reducible assumption
    | with_reducible refine Quiet.foldl _ (fun _ _ _ => ?_) _ ?_
    | with_reducible refine Quiet.ite_snd_of (by with_reducible assumption) ?_ ?_
    | with_reducible refine Quiet.foldl_fst _ (fun _ _ _ => ?_) _ ?_
    | with_reducible refine Quiet.foldl_fst_of (by with_reducible assumption) (fun _ _ _ => ?_) ?_
    | with_reducible refine Quiet.foldl_snd _ (fun _ _ _ => ?_) _ ?_
    | with_reducible refine Quiet.foldl_snd_of (by with_reducible assumption) (fun _ _ _ => ?_) ?_
    | with_reducible refine Quiet.foldl_thd _ (fun _ _ _ => ?_) _ ?_
    | with_reducible refine Quiet.foldl_thd_of (by with_reducible assumption) (fun _ _ _ => ?_) ?_
    | dsimp only
    | simp only [reduceIte, Bool.false_eq_true]
    | split
    | fail_if_no_progress ((with_reducible refine Quiet.put ?_ ?_) <;> first | exact rfl | skip)

theorem kept_stagingBegin {a s : State} {x1} (h : Quiet a s) : Quiet a (State.stagingBegin s x1) := by
  unfold State.stagingBegin
  repeat' first
    | with_reducible refine Quiet.ite ?_ ?_
    | with_reducible refine Quiet.ite_snd ?_ ?_
    | with_reducible assumption
    | with_reducible apply kept_stageBegin

theorem kept_limitExpiry {a s : State} {x1} (h : Quiet a s) : Quiet a (State.limitExpiry s x1) := by
  unfold State.limitExpiry
  repeat' first
    | with_reducible refine Quiet.ite ?_ ?_
    | with_reducible refine Quiet.ite_snd ?_ ?_
    | with_reducible assumption
    | with_reducible apply kept_miss
    | with_reducible refine Quiet.foldl _ (fun _ _ _ => ?_) _ ?_
    | with_reducible refine Quiet.ite_snd_of (by with_reducible assumption) ?_ ?_
    | with_reducible refine Quiet.foldl_fst _ (fun _ _ _ => ?_) _ ?_
    | with_reducible refine Quiet.foldl_fst_of (by with_reducible assumption) (fun _ _ _ => ?_) ?_
    | with_reducible refine Quiet.foldl_snd _ (fun _ _ _ => ?_) _ ?_
    | with_reducible refine Quiet.foldl_snd_of (by with_reducible assumption) (fun _ _ _ => ?_) ?_
    | with_reducible refine Quiet.foldl_thd _ (fun _ _ _ => ?_) _ ?_
    | with_reducible refine Quiet.foldl_thd_of (by with_reducible assumption) (fun _ _ _ => ?_) ?_
    | dsimp only
    | simp only [reduceIte, Bool.false_eq_true]
    | split

theorem kept_commitPoint {a s : State} {x1} (h : Quiet a s) : Quiet a (State.commitPoint s x1) := by
  unfold State.commitPoint
  repeat' first
    | with_reducible refine Quiet.ite ?_ ?_
    | with_reducible refine Quiet.ite_snd ?_ ?_
    | with_reducible assumption
    | with_reducible apply kept_stageBegin
    | with_reducible apply kept_miss
    | with_reducible apply kept_modChan
    | with_reducible refine Quiet.foldl _ (fun _ _ _ => ?_) _ ?_
    | with_reducible refine Quiet.ite_snd_of (by with_reducible assumption) ?_ ?_
    | with_reducible refine Quiet.foldl_fst _ (fun _ _ _ => ?_) _ ?_
    | with_reducible refine Quiet.foldl_fst_of (by with_reducible assumption) (fun _ _ _ => ?_) ?_
    | with_reducible refine Quiet.foldl_snd _ (fun _ _ _ => ?_) _ ?_
    | with_reducible refine Quiet.foldl_snd_of (by with_reducible assumption) (fun _ _ _ => ?_) ?_
    | with_reducible refine Quiet.foldl_thd _ (fun _ _ _ => ?_) _ ?_
    | with_reducible refine Quiet.foldl_thd_of (by with_reducible assumption) (fun _ _ _ => ?_) ?_
    | dsimp only
    | simp only [reduceIte, Bool.false_eq_true]
    | split

theorem kept_edgeCommit {a s : State} {x1} (h : Quiet a s) : Quiet a (State.edgeCommit s x1) := by
  unfold State.edgeCommit
  repeat' first
    | with_reducible refine Quiet.ite ?_ ?_
    | with_reducible refine Quiet.ite_snd ?_ ?_
    | with_reducible assumption
    | with_reducible apply kept_setOu
    | with_reducible refine Quiet.foldl _ (fun _ _ _ => ?_) _ ?_
    | with_reducible refine Quiet.ite_snd_of (by with_reducible assumption) ?_ ?_
    | with_reducible refine Quiet.foldl_fst _ (fun _ _ _ => ?_) _ ?_
    | with_reducible refine Quiet.foldl_fst_of (by with_reducible assumption) (fun _ _ _ => ?_) ?_
    | with_reducible refine Quiet.foldl_snd _ (fun _ _ _ => ?_) _ ?_
    | with_reducible refine Quiet.foldl_snd_of (by with_reducible assumption) (fun _ _ _ => ?_) ?_
    | with_reducible refine Quiet.foldl_thd _ (fun _ _ _ => ?_) _ ?_
    | with_reducible refine Quiet.foldl_thd_of (by with_reducible assumption) (fun _ _ _ => ?_) ?_
    | dsimp only
    | simp only [reduceIte, Bool.false_eq_true]
    | split

theorem kept_placementLock {a s : State} {x1} (h : Quiet a s) : Quiet a (State.placementLock s x1) := by
  unfold State.placementLock
  repeat' first
    | with_reducible refine Quiet.ite ?_ ?_
    | with_reducible refine Quiet.ite_snd ?_ ?_
    | with_reducible assumption
    | with_reducible apply kept_modChan
    | with_reducible apply kept_setOu
    | with_reducible refine Quiet.foldl _ (fun _ _ _ => ?_) _ ?_
    | with_reducible refine Quiet.ite_snd_of (by with_reducible assumption) ?_ ?_
    | with_reducible refine Quiet.foldl_fst _ (fun _ _ _ => ?_) _ ?_
    | with_reducible refine Quiet.foldl_fst_of (by with_reducible assumption) (fun _ _ _ => ?_) ?_
    | with_reducible refine Quiet.foldl_snd _ (fun _ _ _ => ?_) _ ?_
    | with_reducible refine Quiet.foldl_snd_of (by with_reducible assumption) (fun _ _ _ => ?_) ?_
    | with_reducible refine Quiet.foldl_thd _ (fun _ _ _ => ?_) _ ?_
    | with_reducible refine Quiet.foldl_thd_of (by with_reducible assumption) (fun _ _ _ => ?_) ?_
    | dsimp only
    | simp only [reduceIte, Bool.false_eq_true]
    | split

theorem kept_dueRead {a s : State} {x1} (h : Quiet a s) : Quiet a (State.dueRead s x1).2 := by
  unfold State.dueRead
  repeat' first
    | with_reducible refine Quiet.ite ?_ ?_
    | with_reducible refine Quiet.ite_snd ?_ ?_
    | with_reducible assumption
    | with_reducible apply kept_bind
    | with_reducible refine kept_bind_of (by with_reducible assumption) ?_
    | with_reducible apply kept_setChan
    | with_reducible apply kept_form
    | with_reducible refine kept_form_of (by with_reducible assumption) ?_
    | with_reducible refine Quiet.foldl _ (fun _ _ _ => ?_) _ ?_
    | with_reducible refine Quiet.ite_snd_of (by with_reducible assumption) ?_ ?_
    | with_reducible refine Quiet.foldl_fst _ (fun _ _ _ => ?_) _ ?_
    | with_reducible refine Quiet.foldl_fst_of (by with_reducible assumption) (fun _ _ _ => ?_) ?_
    | with_reducible refine Quiet.foldl_snd _ (fun _ _ _ => ?_) _ ?_
    | with_reducible refine Quiet.foldl_snd_of (by with_reducible assumption) (fun _ _ _ => ?_) ?_
    | with_reducible refine Quiet.foldl_thd _ (fun _ _ _ => ?_) _ ?_
    | with_reducible refine Quiet.foldl_thd_of (by with_reducible assumption) (fun _ _ _ => ?_) ?_
    | dsimp only
    | simp only [reduceIte, Bool.false_eq_true]
    | split
    | fail_if_no_progress ((with_reducible refine Quiet.put ?_ ?_) <;> first | exact rfl | skip)

theorem kept_dueRead_of {a s u : State} {x1} {w0} (e : State.dueRead s x1 = (w0, u)) (h : Quiet a s) : Quiet a u := by
  have := kept_dueRead (x1 := x1) h
  rw [e] at this
  exact this

theorem kept_effectDo {a s : State} {x1} {x2} (h : Kept a s) : Kept a (State.effectDo s x1 x2) := by
  unfold State.effectDo
  repeat' first
    | with_reducible refine Kept.ite ?_ ?_
    | with_reducible refine Kept.ite_snd ?_ ?_
    | with_reducible assumption
    | with_reducible apply Kept.ofQuiet (kept_placeGo (Quiet.refl _))
    | with_reducible apply Kept.ofQuiet (kept_dueRead (Quiet.refl _))
    | with_reducible refine Kept.ofQuiet (kept_dueRead_of (by with_reducible assumption) (Quiet.refl _)) ?_
    | with_reducible apply Kept.ofQuiet (kept_runHeld (Quiet.refl _))
    | with_reducible apply kept_writeUnit
    | with_reducible apply Kept.ofQuiet (kept_complete (Quiet.refl _))
    | with_reducible apply kept_controlDo
    | with_reducible apply Kept.ofQuiet (kept_senseSample (Quiet.refl _))
    | with_reducible apply Kept.ofQuiet (kept_modOu (Quiet.refl _))
    | with_reducible apply Kept.ofQuiet (kept_modChan (Quiet.refl _))
    | with_reducible apply Kept.ofQuiet (kept_form (Quiet.refl _))
    | with_reducible refine Kept.ofQuiet (kept_form_of (by with_reducible assumption) (Quiet.refl _)) ?_
    | with_reducible apply Kept.ofQuiet (kept_signalFire (Quiet.refl _))
    | with_reducible apply Kept.ofRan (kept_armDo (Ran.refl _))
    | with_reducible apply Kept.ofQuiet (kept_markDo (Quiet.refl _))
    | with_reducible refine Kept.foldl _ (fun _ _ _ => ?_) _ ?_
    | with_reducible refine Kept.ite_snd_of (by with_reducible assumption) ?_ ?_
    | with_reducible refine Kept.foldl_fst _ (fun _ _ _ => ?_) _ ?_
    | with_reducible refine Kept.foldl_fst_of (by with_reducible assumption) (fun _ _ _ => ?_) ?_
    | with_reducible refine Kept.foldl_snd _ (fun _ _ _ => ?_) _ ?_
    | with_reducible refine Kept.foldl_snd_of (by with_reducible assumption) (fun _ _ _ => ?_) ?_
    | with_reducible refine Kept.foldl_thd _ (fun _ _ _ => ?_) _ ?_
    | with_reducible refine Kept.foldl_thd_of (by with_reducible assumption) (fun _ _ _ => ?_) ?_
    | dsimp only
    | simp only [reduceIte, Bool.false_eq_true]
    | split
    | fail_if_no_progress ((with_reducible refine Kept.put ?_ ?_) <;> first | exact rfl | skip)

theorem kept_effect {a s : State} {x1} (h : Kept a s) : Kept a (State.effect s x1) := by
  unfold State.effect
  repeat' first
    | with_reducible refine Kept.ite ?_ ?_
    | with_reducible refine Kept.ite_snd ?_ ?_
    | with_reducible assumption
    | with_reducible apply Kept.ofQuiet (kept_modChan (Quiet.refl _))
    | with_reducible apply kept_effectDo
    | with_reducible refine Kept.foldl _ (fun _ _ _ => ?_) _ ?_
    | with_reducible refine Kept.ite_snd_of (by with_reducible assumption) ?_ ?_
    | with_reducible refine Kept.foldl_fst _ (fun _ _ _ => ?_) _ ?_
    | with_reducible refine Kept.foldl_fst_of (by with_reducible assumption) (fun _ _ _ => ?_) ?_
    | with_reducible refine Kept.foldl_snd _ (fun _ _ _ => ?_) _ ?_
    | with_reducible refine Kept.foldl_snd_of (by with_reducible assumption) (fun _ _ _ => ?_) ?_
    | with_reducible refine Kept.foldl_thd _ (fun _ _ _ => ?_) _ ?_
    | with_reducible refine Kept.foldl_thd_of (by with_reducible assumption) (fun _ _ _ => ?_) ?_
    | dsimp only
    | simp only [reduceIte, Bool.false_eq_true]
    | split

end Sys2Proof.Machine
end

