-- ==== Sys2Proof/Laws/KeptRequests.lean ====
section
/-! SUPPORT. What the operations of Machine/Requests.lean leave alone (`Kept`, `Held`). -/

namespace Sys2Proof.Machine

theorem kept_abandonCmd {a s : State} {x1} (h : Quiet a s) : Quiet a (State.abandonCmd s x1) := by
  unfold State.abandonCmd
  repeat' first
    | with_reducible refine Quiet.ite ?_ ?_
    | with_reducible refine Quiet.ite_snd ?_ ?_
    | with_reducible assumption
    | with_reducible apply kept_freeTimed
    | with_reducible apply kept_forget
    | with_reducible apply kept_modChan
    | with_reducible refine Quiet.foldl _ (fun _ _ _ => ?_) _ ?_
    | with_reducible refine Quiet.ite_snd_of (by with_reducible assumption) ?_ ?_
    | with_reducible refine Quiet.foldl_fst _ (fun _ _ _ => ?_) _ ?_
    | with_reducible refine Quiet.foldl_fst_of (by with_reducible assumption) (fun _ _ _ => ?_) ?_
    | with_reducible refine Quiet.foldl_snd _ (fun _ _ _ => ?_) _ ?_
    | with_reducible refine Quiet.foldl_snd_of (by with_reducible assumption) (fun _ _ _ => ?_) ?_
    | with_reducible refine Quiet.foldl_thd _ (fun _ _ _ => ?_) _ ?_
    | with_reducible refine Quiet.foldl_thd_of (by with_reducible assumption) (fun _ _ _ => ?_) ?_
    | dsimp only
    | simp only [reduceIte, Bool.false_eq_true]
    | split
    | fail_if_no_progress ((with_reducible refine Quiet.put ?_ ?_) <;> first | exact rfl | skip)

theorem kept_halt {a s : State} {x1} {x2} (h : Quiet a s) : Quiet a (State.halt s x1 x2) := by
  unfold State.halt
  repeat' first
    | with_reducible refine Quiet.ite ?_ ?_
    | with_reducible refine Quiet.ite_snd ?_ ?_
    | with_reducible assumption
    | with_reducible apply kept_setChan
    | with_reducible apply kept_abandonCmd

theorem kept_drainEnd {a s : State} {x1} (h : Quiet a s) : Quiet a (State.drainEnd s x1) := by
  unfold State.drainEnd
  repeat' first
    | with_reducible refine Quiet.ite ?_ ?_
    | with_reducible refine Quiet.ite_snd ?_ ?_
    | with_reducible assumption
    | with_reducible apply kept_endProgram
    | with_reducible apply kept_modChan

theorem kept_haltAll {a s : State} (h : Quiet a s) : Quiet a (State.haltAll s) := by
  unfold State.haltAll
  repeat' first
    | with_reducible refine Quiet.ite ?_ ?_
    | with_reducible refine Quiet.ite_snd ?_ ?_
    | with_reducible assumption
    | with_reducible apply kept_halt
    | with_reducible refine Quiet.foldl _ (fun _ _ _ => ?_) _ ?_

theorem kept_haltDomain {a s : State} {x1} (h : Quiet a s) : Quiet a (State.haltDomain s x1) := by
  unfold State.haltDomain
  repeat' first
    | with_reducible refine Quiet.ite ?_ ?_
    | with_reducible refine Quiet.ite_snd ?_ ?_
    | with_reducible assumption
    | with_reducible apply kept_halt
    | with_reducible refine Quiet.foldl _ (fun _ _ _ => ?_) _ ?_

theorem kept_startDo {a s : State} {x1} {x2} {x3} (h : Quiet a s) : Quiet a (State.startDo s x1 x2 x3) := by
  unfold State.startDo
  repeat' first
    | with_reducible refine Quiet.ite ?_ ?_
    | with_reducible refine Quiet.ite_snd ?_ ?_
    | with_reducible assumption
    | with_reducible apply kept_modChan

theorem kept_suspendDo {a s : State} {x1} (h : Quiet a s) : Quiet a (State.suspendDo s x1) := by
  unfold State.suspendDo
  repeat' first
    | with_reducible refine Quiet.ite ?_ ?_
    | with_reducible refine Quiet.ite_snd ?_ ?_
    | with_reducible assumption
    | with_reducible apply kept_setChan
    | with_reducible apply kept_suspendNow
    | with_reducible refine Quiet.foldl _ (fun _ _ _ => ?_) _ ?_
    | with_reducible refine Quiet.ite_snd_of (by with_reducible assumption) ?_ ?_
    | with_reducible refine Quiet.foldl_fst _ (fun _ _ _ => ?_) _ ?_
    | with_reducible refine Quiet.foldl_fst_of (by with_reducible assumption) (fun _ _ _ => ?_) ?_
    | with_reducible refine Quiet.foldl_snd _ (fun _ _ _ => ?_) _ ?_
    | with_reducible refine Quiet.foldl_snd_of (by with_reducible assumption) (fun _ _ _ => ?_) ?_
    | with_reducible refine Quiet.foldl_thd _ (fun _ _ _ => ?_) _ ?_
    | with_reducible refine Quiet.foldl_thd_of (by with_reducible assumption) (fun _ _ _ => ?_) ?_
    | dsimp only
    | simp only [reduceIte, Bool.false_eq_true]
    | split

theorem kept_resumeDo {a s : State} {x1} (h : Quiet a s) : Quiet a (State.resumeDo s x1) := by
  unfold State.resumeDo
  repeat' first
    | with_reducible refine Quiet.ite ?_ ?_
    | with_reducible refine Quiet.ite_snd ?_ ?_
    | with_reducible assumption
    | with_reducible apply kept_setChan
    | with_reducible apply kept_modChan
    | with_reducible apply kept_pump
    | with_reducible refine Quiet.foldl _ (fun _ _ _ => ?_) _ ?_
    | with_reducible refine Quiet.ite_snd_of (by with_reducible assumption) ?_ ?_
    | with_reducible refine Quiet.foldl_fst _ (fun _ _ _ => ?_) _ ?_
    | with_reducible refine Quiet.foldl_fst_of (by with_reducible assumption) (fun _ _ _ => ?_) ?_
    | with_reducible refine Quiet.foldl_snd _ (fun _ _ _ => ?_) _ ?_
    | with_reducible refine Quiet.foldl_snd_of (by with_reducible assumption) (fun _ _ _ => ?_) ?_
    | with_reducible refine Quiet.foldl_thd _ (fun _ _ _ => ?_) _ ?_
    | with_reducible refine Quiet.foldl_thd_of (by with_reducible assumption) (fun _ _ _ => ?_) ?_
    | dsimp only
    | simp only [reduceIte, Bool.false_eq_true]
    | split
    | fail_if_no_progress ((with_reducible refine Quiet.put ?_ ?_) <;> first | exact rfl | skip)

theorem kept_clearDo {a s : State} {x1} (h : Quiet a s) : Quiet a (State.clearDo s x1) := by
  unfold State.clearDo
  repeat' first
    | with_reducible refine Quiet.ite ?_ ?_
    | with_reducible refine Quiet.ite_snd ?_ ?_
    | with_reducible assumption
    | with_reducible apply kept_setChan
    | with_reducible apply kept_endProgram
    | with_reducible apply kept_halt
    | with_reducible refine Quiet.foldl _ (fun _ _ _ => ?_) _ ?_
    | with_reducible refine Quiet.ite_snd_of (by with_reducible assumption) ?_ ?_
    | with_reducible refine Quiet.foldl_fst _ (fun _ _ _ => ?_) _ ?_
    | with_reducible refine Quiet.foldl_fst_of (by with_reducible assumption) (fun _ _ _ => ?_) ?_
    | with_reducible refine Quiet.foldl_snd _ (fun _ _ _ => ?_) _ ?_
    | with_reducible refine Quiet.foldl_snd_of (by with_reducible assumption) (fun _ _ _ => ?_) ?_
    | with_reducible refine Quiet.foldl_thd _ (fun _ _ _ => ?_) _ ?_
    | with_reducible refine Quiet.foldl_thd_of (by with_reducible assumption) (fun _ _ _ => ?_) ?_
    | dsimp only
    | simp only [reduceIte, Bool.false_eq_true]
    | split

theorem kept_modifyDo {a s : State} {x1} {x2} {x3} {x4} {x5} (h : Quiet a s) : Quiet a (State.modifyDo s x1 x2 x3 x4 x5) := by
  unfold State.modifyDo
  repeat' first
    | with_reducible refine Quiet.ite ?_ ?_
    | with_reducible refine Quiet.ite_snd ?_ ?_
    | with_reducible assumption
    | with_reducible apply kept_freeRecord
    | with_reducible apply kept_freeSlots
    | with_reducible apply kept_freeBox
    | with_reducible apply kept_forget
    | with_reducible apply kept_modChan
    | with_reducible refine Quiet.foldl _ (fun _ _ _ => ?_) _ ?_
    | with_reducible refine Quiet.ite_snd_of (by with_reducible assumption) ?_ ?_
    | with_reducible refine Quiet.foldl_fst _ (fun _ _ _ => ?_) _ ?_
    | with_reducible refine Quiet.foldl_fst_of (by with_reducible assumption) (fun _ _ _ => ?_) ?_
    | with_reducible refine Quiet.foldl_snd _ (fun _ _ _ => ?_) _ ?_
    | with_reducible refine Quiet.foldl_snd_of (by with_reducible assumption) (fun _ _ _ => ?_) ?_
    | with_reducible refine Quiet.foldl_thd _ (fun _ _ _ => ?_) _ ?_
    | with_reducible refine Quiet.foldl_thd_of (by with_reducible assumption) (fun _ _ _ => ?_) ?_
    | dsimp only
    | simp only [reduceIte, Bool.false_eq_true]
    | split
    | fail_if_no_progress ((with_reducible refine Quiet.put ?_ ?_) <;> first | exact rfl | skip)

theorem kept_storeDo {a s : State} {x1} {x2} {x3} (h : Quiet a s) : Quiet a (State.storeDo s x1 x2 x3).2 := by
  unfold State.storeDo
  repeat' first
    | with_reducible refine Quiet.ite ?_ ?_
    | with_reducible refine Quiet.ite_snd ?_ ?_
    | with_reducible assumption
    | with_reducible apply kept_putOut
    | with_reducible apply kept_xlate
    | with_reducible refine kept_xlate_of (by with_reducible assumption) ?_
    | with_reducible apply kept_forget
    | with_reducible apply kept_miss
    | with_reducible apply kept_faultRecord
    | with_reducible refine Quiet.foldl _ (fun _ _ _ => ?_) _ ?_
    | with_reducible refine Quiet.ite_snd_of (by with_reducible assumption) ?_ ?_
    | with_reducible refine Quiet.foldl_fst _ (fun _ _ _ => ?_) _ ?_
    | with_reducible refine Quiet.foldl_fst_of (by with_reducible assumption) (fun _ _ _ => ?_) ?_
    | with_reducible refine Quiet.foldl_snd _ (fun _ _ _ => ?_) _ ?_
    | with_reducible refine Quiet.foldl_snd_of (by with_reducible assumption) (fun _ _ _ => ?_) ?_
    | with_reducible refine Quiet.foldl_thd _ (fun _ _ _ => ?_) _ ?_
    | with_reducible refine Quiet.foldl_thd_of (by with_reducible assumption) (fun _ _ _ => ?_) ?_
    | dsimp only
    | simp only [reduceIte, Bool.false_eq_true]
    | split
    | fail_if_no_progress ((with_reducible refine Quiet.put ?_ ?_) <;> first | exact rfl | skip)

theorem kept_storeDo_of {a s u : State} {x1} {x2} {x3} {w0} (e : State.storeDo s x1 x2 x3 = (w0, u)) (h : Quiet a s) : Quiet a u := by
  have := kept_storeDo (x1 := x1) (x2 := x2) (x3 := x3) h
  rw [e] at this
  exact this

theorem kept_performReq {a s : State} {x1} {x2} (h : Quiet a s) : Quiet a (State.performReq s x1 x2).2 := by
  unfold State.performReq
  repeat' first
    | with_reducible refine Quiet.ite ?_ ?_
    | with_reducible refine Quiet.ite_snd ?_ ?_
    | with_reducible assumption
    | with_reducible apply kept_startDo
    | with_reducible apply kept_halt
    | with_reducible apply kept_suspendDo
    | with_reducible apply kept_resumeDo
    | with_reducible apply kept_clearDo
    | with_reducible apply kept_modifyDo
    | with_reducible apply kept_storeDo
    | with_reducible refine kept_storeDo_of (by with_reducible assumption) ?_
    | with_reducible refine Quiet.foldl _ (fun _ _ _ => ?_) _ ?_
    | with_reducible refine Quiet.ite_snd_of (by with_reducible assumption) ?_ ?_
    | with_reducible refine Quiet.foldl_fst _ (fun _ _ _ => ?_) _ ?_
    | with_reducible refine Quiet.foldl_fst_of (by with_reducible assumption) (fun _ _ _ => ?_) ?_
    | with_reducible refine Quiet.foldl_snd _ (fun _ _ _ => ?_) _ ?_
    | with_reducible refine Quiet.foldl_snd_of (by with_reducible assumption) (fun _ _ _ => ?_) ?_
    | with_reducible refine Quiet.foldl_thd _ (fun _ _ _ => ?_) _ ?_
    | with_reducible refine Quiet.foldl_thd_of (by with_reducible assumption) (fun _ _ _ => ?_) ?_
    | dsimp only
    | simp only [reduceIte, Bool.false_eq_true]
    | split

theorem kept_performReq_of {a s u : State} {x1} {x2} {w0} (e : State.performReq s x1 x2 = (w0, u)) (h : Quiet a s) : Quiet a u := by
  have := kept_performReq (x1 := x1) (x2 := x2) h
  rw [e] at this
  exact this

theorem kept_request_ {a s : State} {x1} {x2} {x3} (h : Quiet a s) : Quiet a (State.request_ s x1 x2 x3).2 := by
  unfold State.request_
  repeat' first
    | with_reducible refine Quiet.ite ?_ ?_
    | with_reducible refine Quiet.ite_snd ?_ ?_
    | with_reducible assumption
    | with_reducible apply kept_performReq

theorem kept_request__of {a s u : State} {x1} {x2} {x3} {w0} (e : State.request_ s x1 x2 x3 = (w0, u)) (h : Quiet a s) : Quiet a u := by
  have := kept_request_ (x1 := x1) (x2 := x2) (x3 := x3) h
  rw [e] at this
  exact this

theorem kept_readCtx {a s : State} {x1} {x2} (h : Kept a s) : Kept a (State.readCtx s x1 x2).2 := by
  unfold State.readCtx
  repeat' first
    | with_reducible refine Kept.ite ?_ ?_
    | with_reducible refine Kept.ite_snd ?_ ?_
    | with_reducible assumption
    | with_reducible apply kept_latchAll

theorem kept_readCtx_of {a s u : State} {x1} {x2} {w0} (e : State.readCtx s x1 x2 = (w0, u)) (h : Kept a s) : Kept a u := by
  have := kept_readCtx (x1 := x1) (x2 := x2) h
  rw [e] at this
  exact this

end Sys2Proof.Machine
end

