-- ==== Sys2Proof/Laws/KeptQueues.lean ====
section
/-! SUPPORT. What the operations of Machine/Queues.lean leave alone (`Kept`, `Held`). -/

namespace Sys2Proof.Machine

theorem kept_ringSram {a s : State} {x1} {x2} (h : Quiet a s) : Quiet a (State.ringSram s x1 x2).2 := by
  unfold State.ringSram
  repeat' first
    | with_reducible refine Quiet.ite ?_ ?_
    | with_reducible refine Quiet.ite_snd ?_ ?_
    | with_reducible assumption
    | with_reducible apply kept_sramRead
    | with_reducible refine kept_sramRead_of (by with_reducible assumption) ?_
    | with_reducible refine Quiet.foldl _ (fun _ _ _ => ?_) _ ?_

theorem kept_ringSram_of {a s u : State} {x1} {x2} {w0} (e : State.ringSram s x1 x2 = (w0, u)) (h : Quiet a s) : Quiet a u := by
  have := kept_ringSram (x1 := x1) (x2 := x2) h
  rw [e] at this
  exact this

theorem kept_wqRead {a s : State} {x1} {x2} {x3} {x4} (h : Quiet a s) : Quiet a (State.wqRead s x1 x2 x3 x4).2 := by
  unfold State.wqRead
  repeat' first
    | with_reducible refine Quiet.ite ?_ ?_
    | with_reducible refine Quiet.ite_snd ?_ ?_
    | with_reducible assumption
    | with_reducible apply kept_modWq
    | with_reducible apply kept_wqAddr
    | with_reducible refine kept_wqAddr_of (by with_reducible assumption) ?_
    | with_reducible apply kept_ringSram
    | with_reducible refine kept_ringSram_of (by with_reducible assumption) ?_
    | with_reducible apply kept_spend
    | with_reducible apply kept_wqError
    | with_reducible refine Quiet.foldl _ (fun _ _ _ => ?_) _ ?_
    | with_reducible refine Quiet.ite_snd_of (by with_reducible assumption) ?_ ?_
    | with_reducible refine Quiet.foldl_fst _ (fun _ _ _ => ?_) _ ?_
    | with_reducible refine Quiet.foldl_fst_of (by with_reducible assumption) (fun _ _ _ => ?_) ?_
    | with_reducible refine Quiet.foldl_snd _ (fun _ _ _ => ?_) _ ?_
    | with_reducible refine Quiet.foldl_snd_of (by with_reducible assumption) (fun _ _ _ => ?_) ?_
    | with_reducible refine Quiet.foldl_thd _ (fun _ _ _ => ?_) _ ?_
    | with_reducible refine Quiet.foldl_thd_of (by with_reducible assumption) (fun _ _ _ => ?_) ?_
    | dsimp only
    | simp only [reduceIte, Bool.false_eq_true]
    | split
    | fail_if_no_progress ((with_reducible refine Quiet.put ?_ ?_) <;> first | exact rfl | skip)

theorem kept_wqRead_of {a s u : State} {x1} {x2} {x3} {x4} {w0} (e : State.wqRead s x1 x2 x3 x4 = (w0, u)) (h : Quiet a s) : Quiet a u := by
  have := kept_wqRead (x1 := x1) (x2 := x2) (x3 := x3) (x4 := x4) h
  rw [e] at this
  exact this

theorem kept_wqWrite {a s : State} {x1} {x2} {x3} (h : Quiet a s) : Quiet a (State.wqWrite s x1 x2 x3).2 := by
  unfold State.wqWrite
  repeat' first
    | with_reducible refine Quiet.ite ?_ ?_
    | with_reducible refine Quiet.ite_snd ?_ ?_
    | with_reducible assumption
    | with_reducible apply kept_wqAddr
    | with_reducible refine kept_wqAddr_of (by with_reducible assumption) ?_
    | with_reducible apply kept_wqError
    | with_reducible apply kept_putOut
    | with_reducible apply kept_spend
    | with_reducible refine Quiet.foldl _ (fun _ _ _ => ?_) _ ?_
    | with_reducible refine Quiet.ite_snd_of (by with_reducible assumption) ?_ ?_
    | with_reducible refine Quiet.foldl_fst _ (fun _ _ _ => ?_) _ ?_
    | with_reducible refine Quiet.foldl_fst_of (by with_reducible assumption) (fun _ _ _ => ?_) ?_
    | with_reducible refine Quiet.foldl_snd _ (fun _ _ _ => ?_) _ ?_
    | with_reducible refine Quiet.foldl_snd_of (by with_reducible assumption) (fun _ _ _ => ?_) ?_
    | with_reducible refine Quiet.foldl_thd _ (fun _ _ _ => ?_) _ ?_
    | with_reducible refine Quiet.foldl_thd_of (by with_reducible assumption) (fun _ _ _ => ?_) ?_
    | dsimp only
    | simp only [reduceIte, Bool.false_eq_true]
    | split
    | fail_if_no_progress ((with_reducible refine Quiet.put ?_ ?_) <;> first | exact rfl | skip)

theorem kept_wqWrite_of {a s u : State} {x1} {x2} {x3} {w0} (e : State.wqWrite s x1 x2 x3 = (w0, u)) (h : Quiet a s) : Quiet a u := by
  have := kept_wqWrite (x1 := x1) (x2 := x2) (x3 := x3) h
  rw [e] at this
  exact this

theorem kept_wqWalks_of {a s u : State} {x1 x2 x3} (e : s.wqWalks x1 x2 x3 = some u) (h : Quiet a s) : Quiet a u := by
  unfold State.wqWalks at e
  split at e
  · simp only [Option.some.injEq] at e
    subst e
    exact kept_wqAddr_of (by assumption) h
  · simp at e

theorem kept_eqRead {a s : State} {x1} {x2} {x3} {x4} (h : Quiet a s) : Quiet a (State.eqRead s x1 x2 x3 x4).2 := by
  unfold State.eqRead
  repeat' first
    | with_reducible refine Quiet.ite ?_ ?_
    | with_reducible refine Quiet.ite_snd ?_ ?_
    | with_reducible assumption
    | with_reducible apply kept_modEq
    | with_reducible apply kept_eqAddr
    | with_reducible refine kept_eqAddr_of (by with_reducible assumption) ?_
    | with_reducible apply kept_ringSram
    | with_reducible refine kept_ringSram_of (by with_reducible assumption) ?_
    | with_reducible apply kept_spend
    | with_reducible apply kept_eqError
    | with_reducible refine Quiet.foldl _ (fun _ _ _ => ?_) _ ?_
    | with_reducible refine Quiet.ite_snd_of (by with_reducible assumption) ?_ ?_
    | with_reducible refine Quiet.foldl_fst _ (fun _ _ _ => ?_) _ ?_
    | with_reducible refine Quiet.foldl_fst_of (by with_reducible assumption) (fun _ _ _ => ?_) ?_
    | with_reducible refine Quiet.foldl_snd _ (fun _ _ _ => ?_) _ ?_
    | with_reducible refine Quiet.foldl_snd_of (by with_reducible assumption) (fun _ _ _ => ?_) ?_
    | with_reducible refine Quiet.foldl_thd _ (fun _ _ _ => ?_) _ ?_
    | with_reducible refine Quiet.foldl_thd_of (by with_reducible assumption) (fun _ _ _ => ?_) ?_
    | dsimp only
    | simp only [reduceIte, Bool.false_eq_true]
    | split
    | fail_if_no_progress ((with_reducible refine Quiet.put ?_ ?_) <;> first | exact rfl | skip)

theorem kept_eqRead_of {a s u : State} {x1} {x2} {x3} {x4} {w0} (e : State.eqRead s x1 x2 x3 x4 = (w0, u)) (h : Quiet a s) : Quiet a u := by
  have := kept_eqRead (x1 := x1) (x2 := x2) (x3 := x3) (x4 := x4) h
  rw [e] at this
  exact this

theorem kept_wqInit {a s : State} {x1} (h : Quiet a s) : Quiet a (State.wqInit s x1) := by
  unfold State.wqInit
  repeat' first
    | with_reducible refine Quiet.ite ?_ ?_
    | with_reducible refine Quiet.ite_snd ?_ ?_
    | with_reducible assumption
    | with_reducible refine kept_wqWalks_of (by with_reducible assumption) ?_
    | with_reducible apply kept_wqWrite
    | with_reducible refine kept_wqWrite_of (by with_reducible assumption) ?_
    | with_reducible apply kept_modWq
    | with_reducible refine Quiet.foldl _ (fun _ _ _ => ?_) _ ?_
    | with_reducible refine Quiet.ite_snd_of (by with_reducible assumption) ?_ ?_
    | with_reducible refine Quiet.foldl_fst _ (fun _ _ _ => ?_) _ ?_
    | with_reducible refine Quiet.foldl_fst_of (by with_reducible assumption) (fun _ _ _ => ?_) ?_
    | with_reducible refine Quiet.foldl_snd _ (fun _ _ _ => ?_) _ ?_
    | with_reducible refine Quiet.foldl_snd_of (by with_reducible assumption) (fun _ _ _ => ?_) ?_
    | with_reducible refine Quiet.foldl_thd _ (fun _ _ _ => ?_) _ ?_
    | with_reducible refine Quiet.foldl_thd_of (by with_reducible assumption) (fun _ _ _ => ?_) ?_
    | dsimp only
    | simp only [reduceIte, Bool.false_eq_true]
    | split

theorem kept_wqAccess {a s : State} {x1} {x2} {x3} (h : Quiet a s) : Quiet a (State.wqAccess s x1 x2 x3) := by
  unfold State.wqAccess
  repeat' first
    | with_reducible refine Quiet.ite ?_ ?_
    | with_reducible refine Quiet.ite_snd ?_ ?_
    | with_reducible assumption
    | with_reducible apply kept_setWq

theorem kept_takePi {a s : State} {x1} {x2} (h : Quiet a s) : Quiet a (State.takePi s x1 x2) := by
  unfold State.takePi
  repeat' first
    | with_reducible refine Quiet.ite ?_ ?_
    | with_reducible refine Quiet.ite_snd ?_ ?_
    | with_reducible assumption
    | with_reducible apply kept_setWq
    | with_reducible apply kept_wqError
    | with_reducible apply kept_modWq

theorem kept_piRead {a s : State} {x1} {x2} (h : Quiet a s) : Quiet a (State.piRead s x1 x2) := by
  unfold State.piRead
  repeat' first
    | with_reducible refine Quiet.ite ?_ ?_
    | with_reducible refine Quiet.ite_snd ?_ ?_
    | with_reducible assumption
    | with_reducible apply kept_wqInit
    | with_reducible apply kept_wqRead
    | with_reducible refine kept_wqRead_of (by with_reducible assumption) ?_
    | with_reducible apply kept_takePi
    | with_reducible refine Quiet.foldl _ (fun _ _ _ => ?_) _ ?_
    | with_reducible refine Quiet.ite_snd_of (by with_reducible assumption) ?_ ?_
    | with_reducible refine Quiet.foldl_fst _ (fun _ _ _ => ?_) _ ?_
    | with_reducible refine Quiet.foldl_fst_of (by with_reducible assumption) (fun _ _ _ => ?_) ?_
    | with_reducible refine Quiet.foldl_snd _ (fun _ _ _ => ?_) _ ?_
    | with_reducible refine Quiet.foldl_snd_of (by with_reducible assumption) (fun _ _ _ => ?_) ?_
    | with_reducible refine Quiet.foldl_thd _ (fun _ _ _ => ?_) _ ?_
    | with_reducible refine Quiet.foldl_thd_of (by with_reducible assumption) (fun _ _ _ => ?_) ?_
    | dsimp only
    | simp only [reduceIte, Bool.false_eq_true]
    | split

theorem kept_createWq {a s : State} {x1} {x2} {x3} {x4} {x5} {x6} (h : Quiet a s) : Quiet a (State.createWq s x1 x2 x3 x4 x5 x6) := by
  unfold State.createWq
  repeat' first
    | with_reducible refine Quiet.ite ?_ ?_
    | with_reducible refine Quiet.ite_snd ?_ ?_
    | with_reducible assumption
    | with_reducible apply kept_wqInit
    | with_reducible apply kept_modWq

theorem kept_dropWq {a s : State} {x1} (h : Quiet a s) : Quiet a (State.dropWq s x1) := by
  unfold State.dropWq
  repeat' first
    | with_reducible refine Quiet.ite ?_ ?_
    | with_reducible refine Quiet.ite_snd ?_ ?_
    | with_reducible assumption
    | with_reducible apply kept_modChan
    | with_reducible apply kept_modWq
    | with_reducible refine Quiet.foldl _ (fun _ _ _ => ?_) _ ?_

theorem kept_createEq {a s : State} {x1} {x2} {x3} {x4} {x5} {x6} {x7} (h : Quiet a s) : Quiet a (State.createEq s x1 x2 x3 x4 x5 x6 x7).2 := by
  unfold State.createEq
  repeat' first
    | with_reducible refine Quiet.ite ?_ ?_
    | with_reducible refine Quiet.ite_snd ?_ ?_
    | with_reducible assumption
    | with_reducible apply kept_setEq
    | with_reducible apply kept_eqAddr
    | with_reducible refine kept_eqAddr_of (by with_reducible assumption) ?_
    | with_reducible apply kept_putOut
    | with_reducible apply kept_spend
    | with_reducible apply kept_eqError
    | with_reducible refine Quiet.foldl _ (fun _ _ _ => ?_) _ ?_
    | with_reducible refine Quiet.ite_snd_of (by with_reducible assumption) ?_ ?_
    | with_reducible refine Quiet.foldl_fst _ (fun _ _ _ => ?_) _ ?_
    | with_reducible refine Quiet.foldl_fst_of (by with_reducible assumption) (fun _ _ _ => ?_) ?_
    | with_reducible refine Quiet.foldl_snd _ (fun _ _ _ => ?_) _ ?_
    | with_reducible refine Quiet.foldl_snd_of (by with_reducible assumption) (fun _ _ _ => ?_) ?_
    | with_reducible refine Quiet.foldl_thd _ (fun _ _ _ => ?_) _ ?_
    | with_reducible refine Quiet.foldl_thd_of (by with_reducible assumption) (fun _ _ _ => ?_) ?_
    | dsimp only
    | simp only [reduceIte, Bool.false_eq_true]
    | split
    | fail_if_no_progress ((with_reducible refine Quiet.put ?_ ?_) <;> first | exact rfl | skip)

theorem kept_createEq_of {a s u : State} {x1} {x2} {x3} {x4} {x5} {x6} {x7} {w0} (e : State.createEq s x1 x2 x3 x4 x5 x6 x7 = (w0, u)) (h : Quiet a s) : Quiet a u := by
  have := kept_createEq (x1 := x1) (x2 := x2) (x3 := x3) (x4 := x4) (x5 := x5) (x6 := x6) (x7 := x7) h
  rw [e] at this
  exact this

theorem kept_dropHeld {a s : State} {x1} (h : Ran a s) : Ran a (State.dropHeld s x1) := by
  unfold State.dropHeld
  repeat' first
    | with_reducible refine Ran.ite ?_ ?_
    | with_reducible refine Ran.ite_snd ?_ ?_
    | with_reducible assumption
    | with_reducible apply Ran.ofQuiet (kept_modChan (Quiet.refl _))
    | with_reducible apply kept_modCmp
    | with_reducible apply kept_modCap
    | with_reducible refine Ran.foldl _ (fun _ _ _ => ?_) _ ?_
    | with_reducible refine Ran.ite_snd_of (by with_reducible assumption) ?_ ?_
    | with_reducible refine Ran.foldl_fst _ (fun _ _ _ => ?_) _ ?_
    | with_reducible refine Ran.foldl_fst_of (by with_reducible assumption) (fun _ _ _ => ?_) ?_
    | with_reducible refine Ran.foldl_snd _ (fun _ _ _ => ?_) _ ?_
    | with_reducible refine Ran.foldl_snd_of (by with_reducible assumption) (fun _ _ _ => ?_) ?_
    | with_reducible refine Ran.foldl_thd _ (fun _ _ _ => ?_) _ ?_
    | with_reducible refine Ran.foldl_thd_of (by with_reducible assumption) (fun _ _ _ => ?_) ?_
    | dsimp only
    | simp only [reduceIte, Bool.false_eq_true]
    | split

theorem kept_moveHeld {a s : State} {x1} {x2} {x3} (h : Quiet a s) : Quiet a (State.moveHeld s x1 x2 x3) := by
  unfold State.moveHeld
  repeat' first
    | with_reducible refine Quiet.ite ?_ ?_
    | with_reducible refine Quiet.ite_snd ?_ ?_
    | with_reducible assumption
    | with_reducible apply kept_setEq
    | with_reducible apply kept_modEq

theorem kept_bind {a s : State} {x1} {x2} {x3} {x4} (h : Quiet a s) : Quiet a (State.bind s x1 x2 x3 x4).2 := by
  unfold State.bind
  repeat' first
    | with_reducible refine Quiet.ite ?_ ?_
    | with_reducible refine Quiet.ite_snd ?_ ?_
    | with_reducible assumption
    | with_reducible apply kept_setChan
    | with_reducible apply kept_moveHeld
    | with_reducible refine Quiet.foldl _ (fun _ _ _ => ?_) _ ?_
    | with_reducible refine Quiet.ite_snd_of (by with_reducible assumption) ?_ ?_
    | with_reducible refine Quiet.foldl_fst _ (fun _ _ _ => ?_) _ ?_
    | with_reducible refine Quiet.foldl_fst_of (by with_reducible assumption) (fun _ _ _ => ?_) ?_
    | with_reducible refine Quiet.foldl_snd _ (fun _ _ _ => ?_) _ ?_
    | with_reducible refine Quiet.foldl_snd_of (by with_reducible assumption) (fun _ _ _ => ?_) ?_
    | with_reducible refine Quiet.foldl_thd _ (fun _ _ _ => ?_) _ ?_
    | with_reducible refine Quiet.foldl_thd_of (by with_reducible assumption) (fun _ _ _ => ?_) ?_
    | dsimp only
    | simp only [reduceIte, Bool.false_eq_true]
    | split

theorem kept_bind_of {a s u : State} {x1} {x2} {x3} {x4} {w0} (e : State.bind s x1 x2 x3 x4 = (w0, u)) (h : Quiet a s) : Quiet a u := by
  have := kept_bind (x1 := x1) (x2 := x2) (x3 := x3) (x4 := x4) h
  rw [e] at this
  exact this

theorem kept_admin {a s : State} {x1} (h : Ran a s) : Ran a (State.admin s x1).2 := by
  unfold State.admin
  repeat' first
    | with_reducible refine Ran.ite ?_ ?_
    | with_reducible refine Ran.ite_snd ?_ ?_
    | with_reducible assumption
    | with_reducible apply Ran.ofQuiet (kept_createWq (Quiet.refl _))
    | with_reducible apply Ran.ofQuiet (kept_setWq (Quiet.refl _))
    | with_reducible apply Ran.ofQuiet (kept_dropWq (Quiet.refl _))
    | with_reducible apply Ran.ofQuiet (kept_modWq (Quiet.refl _))
    | with_reducible apply Ran.ofQuiet (kept_createEq (Quiet.refl _))
    | with_reducible refine Ran.ofQuiet (kept_createEq_of (by with_reducible assumption) (Quiet.refl _)) ?_
    | with_reducible apply kept_dropHeld
    | with_reducible apply Ran.ofQuiet (kept_forget (Quiet.refl _))
    | with_reducible apply Ran.ofQuiet (kept_setEq (Quiet.refl _))
    | with_reducible apply Ran.ofQuiet (kept_bind (Quiet.refl _))
    | with_reducible refine Ran.ofQuiet (kept_bind_of (by with_reducible assumption) (Quiet.refl _)) ?_
    | with_reducible apply Ran.ofQuiet (kept_modChan (Quiet.refl _))
    | with_reducible refine Ran.foldl _ (fun _ _ _ => ?_) _ ?_
    | with_reducible refine Ran.ite_snd_of (by with_reducible assumption) ?_ ?_
    | with_reducible refine Ran.foldl_fst _ (fun _ _ _ => ?_) _ ?_
    | with_reducible refine Ran.foldl_fst_of (by with_reducible assumption) (fun _ _ _ => ?_) ?_
    | with_reducible refine Ran.foldl_snd _ (fun _ _ _ => ?_) _ ?_
    | with_reducible refine Ran.foldl_snd_of (by with_reducible assumption) (fun _ _ _ => ?_) ?_
    | with_reducible refine Ran.foldl_thd _ (fun _ _ _ => ?_) _ ?_
    | with_reducible refine Ran.foldl_thd_of (by with_reducible assumption) (fun _ _ _ => ?_) ?_
    | dsimp only
    | simp only [reduceIte, Bool.false_eq_true]
    | split
    | fail_if_no_progress ((with_reducible refine Ran.put ?_ ?_) <;> first | exact rfl | skip)

theorem kept_admin_of {a s u : State} {x1} {w0} (e : State.admin s x1 = (w0, u)) (h : Ran a s) : Ran a u := by
  have := kept_admin (x1 := x1) h
  rw [e] at this
  exact this

theorem kept_disableDone {a s : State} {x1} (h : Quiet a s) : Quiet a (State.disableDone s x1) := by
  unfold State.disableDone
  repeat' first
    | with_reducible refine Quiet.ite ?_ ?_
    | with_reducible refine Quiet.ite_snd ?_ ?_
    | with_reducible assumption
    | with_reducible apply kept_setWq

theorem kept_adminCfg {a s : State} {x1} (h : Quiet a s) : Quiet a (State.adminCfg s x1) := by
  unfold State.adminCfg
  repeat' first
    | with_reducible refine Quiet.ite ?_ ?_
    | with_reducible refine Quiet.ite_snd ?_ ?_
    | with_reducible assumption
    | with_reducible apply kept_setWq
    | with_reducible apply kept_createWq
    | with_reducible apply kept_dropWq
    | with_reducible apply kept_modWq
    | with_reducible refine Quiet.foldl _ (fun _ _ _ => ?_) _ ?_
    | with_reducible refine Quiet.ite_snd_of (by with_reducible assumption) ?_ ?_
    | with_reducible refine Quiet.foldl_fst _ (fun _ _ _ => ?_) _ ?_
    | with_reducible refine Quiet.foldl_fst_of (by with_reducible assumption) (fun _ _ _ => ?_) ?_
    | with_reducible refine Quiet.foldl_snd _ (fun _ _ _ => ?_) _ ?_
    | with_reducible refine Quiet.foldl_snd_of (by with_reducible assumption) (fun _ _ _ => ?_) ?_
    | with_reducible refine Quiet.foldl_thd _ (fun _ _ _ => ?_) _ ?_
    | with_reducible refine Quiet.foldl_thd_of (by with_reducible assumption) (fun _ _ _ => ?_) ?_
    | dsimp only
    | simp only [reduceIte, Bool.false_eq_true]
    | split
    | fail_if_no_progress ((with_reducible refine Quiet.put ?_ ?_) <;> first | exact rfl | skip)

theorem kept_note {a : State} {p : Option Nat × State} (h : Ran a p.2) : Ran a (State.note p) := by
  unfold State.note
  split
  · exact Ran.put h rfl
  · exact h

theorem kept_perform {a s : State} {x1} {x2} (h : Ran a s) : Ran a (State.perform s x1 x2).2 := by
  unfold State.perform
  repeat' first
    | with_reducible assumption
    | with_reducible apply kept_note
    | with_reducible apply Ran.ofQuiet (kept_request_ (Quiet.refl _))
    | with_reducible apply kept_admin
    | dsimp only
    | split

theorem kept_perform_of {a s u : State} {x1} {x2} {w0} (e : State.perform s x1 x2 = (w0, u)) (h : Ran a s) : Ran a u := by
  have := kept_perform (x1 := x1) (x2 := x2) h
  rw [e] at this
  exact this

theorem kept_entryTake {a s : State} {x1} {x2} (h : Quiet a s) : Quiet a (State.entryTake s x1 x2) := by
  unfold State.entryTake
  repeat' first
    | with_reducible refine Quiet.ite ?_ ?_
    | with_reducible refine Quiet.ite_snd ?_ ?_
    | with_reducible assumption
    | with_reducible apply kept_setWq
    | with_reducible apply kept_wqRead
    | with_reducible refine kept_wqRead_of (by with_reducible assumption) ?_
    | with_reducible apply kept_modWq
    | with_reducible refine Quiet.foldl _ (fun _ _ _ => ?_) _ ?_
    | with_reducible refine Quiet.ite_snd_of (by with_reducible assumption) ?_ ?_
    | with_reducible refine Quiet.foldl_fst _ (fun _ _ _ => ?_) _ ?_
    | with_reducible refine Quiet.foldl_fst_of (by with_reducible assumption) (fun _ _ _ => ?_) ?_
    | with_reducible refine Quiet.foldl_snd _ (fun _ _ _ => ?_) _ ?_
    | with_reducible refine Quiet.foldl_snd_of (by with_reducible assumption) (fun _ _ _ => ?_) ?_
    | with_reducible refine Quiet.foldl_thd _ (fun _ _ _ => ?_) _ ?_
    | with_reducible refine Quiet.foldl_thd_of (by with_reducible assumption) (fun _ _ _ => ?_) ?_
    | dsimp only
    | simp only [reduceIte, Bool.false_eq_true]
    | split
    | fail_if_no_progress ((with_reducible refine Quiet.put ?_ ?_) <;> first | exact rfl | skip)

theorem kept_entryPerform {a s : State} {x1} {x2} (h : Ran a s) : Ran a (State.entryPerform s x1 x2) := by
  unfold State.entryPerform
  repeat' first
    | with_reducible refine Ran.ite ?_ ?_
    | with_reducible refine Ran.ite_snd ?_ ?_
    | with_reducible assumption
    | with_reducible apply kept_perform
    | with_reducible refine kept_perform_of (by with_reducible assumption) ?_
    | with_reducible apply Ran.ofQuiet (kept_modWq (Quiet.refl _))
    | with_reducible refine Ran.foldl _ (fun _ _ _ => ?_) _ ?_
    | with_reducible refine Ran.ite_snd_of (by with_reducible assumption) ?_ ?_
    | with_reducible refine Ran.foldl_fst _ (fun _ _ _ => ?_) _ ?_
    | with_reducible refine Ran.foldl_fst_of (by with_reducible assumption) (fun _ _ _ => ?_) ?_
    | with_reducible refine Ran.foldl_snd _ (fun _ _ _ => ?_) _ ?_
    | with_reducible refine Ran.foldl_snd_of (by with_reducible assumption) (fun _ _ _ => ?_) ?_
    | with_reducible refine Ran.foldl_thd _ (fun _ _ _ => ?_) _ ?_
    | with_reducible refine Ran.foldl_thd_of (by with_reducible assumption) (fun _ _ _ => ?_) ?_
    | dsimp only
    | simp only [reduceIte, Bool.false_eq_true]
    | split
    | fail_if_no_progress ((with_reducible refine Ran.put ?_ ?_) <;> first | exact rfl | skip)

theorem kept_entryComplete {a s : State} {x1} (h : Quiet a s) : Quiet a (State.entryComplete s x1) := by
  unfold State.entryComplete
  repeat' first
    | with_reducible refine Quiet.ite ?_ ?_
    | with_reducible refine Quiet.ite_snd ?_ ?_
    | with_reducible assumption
    | with_reducible apply kept_wqWrite
    | with_reducible refine kept_wqWrite_of (by with_reducible assumption) ?_
    | with_reducible apply kept_modWq
    | with_reducible refine Quiet.foldl _ (fun _ _ _ => ?_) _ ?_
    | with_reducible refine Quiet.ite_snd_of (by with_reducible assumption) ?_ ?_
    | with_reducible refine Quiet.foldl_fst _ (fun _ _ _ => ?_) _ ?_
    | with_reducible refine Quiet.foldl_fst_of (by with_reducible assumption) (fun _ _ _ => ?_) ?_
    | with_reducible refine Quiet.foldl_snd _ (fun _ _ _ => ?_) _ ?_
    | with_reducible refine Quiet.foldl_snd_of (by with_reducible assumption) (fun _ _ _ => ?_) ?_
    | with_reducible refine Quiet.foldl_thd _ (fun _ _ _ => ?_) _ ?_
    | with_reducible refine Quiet.foldl_thd_of (by with_reducible assumption) (fun _ _ _ => ?_) ?_
    | dsimp only
    | simp only [reduceIte, Bool.false_eq_true]
    | split
    | fail_if_no_progress ((with_reducible refine Quiet.put ?_ ?_) <;> first | exact rfl | skip)

theorem kept_entryEnd {a s : State} {x1} (h : Quiet a s) : Quiet a (State.entryEnd s x1) := by
  unfold State.entryEnd
  repeat' first
    | with_reducible refine Quiet.ite ?_ ?_
    | with_reducible refine Quiet.ite_snd ?_ ?_
    | with_reducible assumption
    | with_reducible apply kept_wqWrite
    | with_reducible refine kept_wqWrite_of (by with_reducible assumption) ?_
    | with_reducible apply kept_modWq
    | with_reducible refine Quiet.foldl _ (fun _ _ _ => ?_) _ ?_
    | with_reducible refine Quiet.ite_snd_of (by with_reducible assumption) ?_ ?_
    | with_reducible refine Quiet.foldl_fst _ (fun _ _ _ => ?_) _ ?_
    | with_reducible refine Quiet.foldl_fst_of (by with_reducible assumption) (fun _ _ _ => ?_) ?_
    | with_reducible refine Quiet.foldl_snd _ (fun _ _ _ => ?_) _ ?_
    | with_reducible refine Quiet.foldl_snd_of (by with_reducible assumption) (fun _ _ _ => ?_) ?_
    | with_reducible refine Quiet.foldl_thd _ (fun _ _ _ => ?_) _ ?_
    | with_reducible refine Quiet.foldl_thd_of (by with_reducible assumption) (fun _ _ _ => ?_) ?_
    | dsimp only
    | simp only [reduceIte, Bool.false_eq_true]
    | split
    | fail_if_no_progress ((with_reducible refine Quiet.put ?_ ?_) <;> first | exact rfl | skip)

theorem kept_entryServe {a s : State} {x1} {x2} (h : Ran a s) : Ran a (State.entryServe s x1 x2) := by
  unfold State.entryServe
  repeat' first
    | with_reducible refine Ran.ite ?_ ?_
    | with_reducible refine Ran.ite_snd ?_ ?_
    | with_reducible assumption
    | with_reducible apply Ran.ofQuiet (kept_wqInit (Quiet.refl _))
    | with_reducible apply Ran.ofQuiet (kept_entryTake (Quiet.refl _))
    | with_reducible apply kept_entryPerform
    | with_reducible apply Ran.ofQuiet (kept_entryComplete (Quiet.refl _))
    | with_reducible apply Ran.ofQuiet (kept_entryEnd (Quiet.refl _))
    | with_reducible refine Ran.foldl _ (fun _ _ _ => ?_) _ ?_
    | with_reducible refine Ran.ite_snd_of (by with_reducible assumption) ?_ ?_
    | with_reducible refine Ran.foldl_fst _ (fun _ _ _ => ?_) _ ?_
    | with_reducible refine Ran.foldl_fst_of (by with_reducible assumption) (fun _ _ _ => ?_) ?_
    | with_reducible refine Ran.foldl_snd _ (fun _ _ _ => ?_) _ ?_
    | with_reducible refine Ran.foldl_snd_of (by with_reducible assumption) (fun _ _ _ => ?_) ?_
    | with_reducible refine Ran.foldl_thd _ (fun _ _ _ => ?_) _ ?_
    | with_reducible refine Ran.foldl_thd_of (by with_reducible assumption) (fun _ _ _ => ?_) ?_
    | dsimp only
    | simp only [reduceIte, Bool.false_eq_true]
    | split
    | fail_if_no_progress ((with_reducible refine Ran.put ?_ ?_) <;> first | exact rfl | skip)

theorem kept_takeCi {a s : State} {x1} {x2} {x3} (h : Quiet a s) : Quiet a (State.takeCi s x1 x2 x3) := by
  unfold State.takeCi
  repeat' first
    | with_reducible refine Quiet.ite ?_ ?_
    | with_reducible refine Quiet.ite_snd ?_ ?_
    | with_reducible assumption
    | with_reducible apply kept_setEq
    | with_reducible apply kept_eqError
    | with_reducible apply kept_modEq
    | with_reducible apply kept_notifyQ

theorem kept_ciRead {a s : State} {x1} {x2} (h : Quiet a s) : Quiet a (State.ciRead s x1 x2) := by
  unfold State.ciRead
  repeat' first
    | with_reducible refine Quiet.ite ?_ ?_
    | with_reducible refine Quiet.ite_snd ?_ ?_
    | with_reducible assumption
    | with_reducible apply kept_eqRead
    | with_reducible refine kept_eqRead_of (by with_reducible assumption) ?_
    | with_reducible apply kept_takeCi
    | with_reducible refine Quiet.foldl _ (fun _ _ _ => ?_) _ ?_
    | with_reducible refine Quiet.ite_snd_of (by with_reducible assumption) ?_ ?_
    | with_reducible refine Quiet.foldl_fst _ (fun _ _ _ => ?_) _ ?_
    | with_reducible refine Quiet.foldl_fst_of (by with_reducible assumption) (fun _ _ _ => ?_) ?_
    | with_reducible refine Quiet.foldl_snd _ (fun _ _ _ => ?_) _ ?_
    | with_reducible refine Quiet.foldl_snd_of (by with_reducible assumption) (fun _ _ _ => ?_) ?_
    | with_reducible refine Quiet.foldl_thd _ (fun _ _ _ => ?_) _ ?_
    | with_reducible refine Quiet.foldl_thd_of (by with_reducible assumption) (fun _ _ _ => ?_) ?_
    | dsimp only
    | simp only [reduceIte, Bool.false_eq_true]
    | split

theorem kept_posted {a s : State} {x1} (h : Ran a s) : Ran a (State.posted s x1).2 := by
  unfold State.posted
  repeat' first
    | with_reducible refine Ran.ite ?_ ?_
    | with_reducible refine Ran.ite_snd ?_ ?_
    | with_reducible assumption
    | with_reducible apply Ran.ofQuiet (kept_modChan (Quiet.refl _))
    | with_reducible apply kept_dropHeld
    | with_reducible refine Ran.foldl _ (fun _ _ _ => ?_) _ ?_
    | with_reducible refine Ran.ite_snd_of (by with_reducible assumption) ?_ ?_
    | with_reducible refine Ran.foldl_fst _ (fun _ _ _ => ?_) _ ?_
    | with_reducible refine Ran.foldl_fst_of (by with_reducible assumption) (fun _ _ _ => ?_) ?_
    | with_reducible refine Ran.foldl_snd _ (fun _ _ _ => ?_) _ ?_
    | with_reducible refine Ran.foldl_snd_of (by with_reducible assumption) (fun _ _ _ => ?_) ?_
    | with_reducible refine Ran.foldl_thd _ (fun _ _ _ => ?_) _ ?_
    | with_reducible refine Ran.foldl_thd_of (by with_reducible assumption) (fun _ _ _ => ?_) ?_
    | dsimp only
    | simp only [reduceIte, Bool.false_eq_true]
    | split

theorem kept_posted_of {a s u : State} {x1} {w0} (e : State.posted s x1 = (w0, u)) (h : Ran a s) : Ran a u := by
  have := kept_posted (x1 := x1) h
  rw [e] at this
  exact this

theorem kept_heldAdmit {a s : State} {x1} (h : Quiet a s) : Quiet a (State.heldAdmit s x1) := by
  unfold State.heldAdmit
  repeat' first
    | with_reducible refine Quiet.ite ?_ ?_
    | with_reducible refine Quiet.ite_snd ?_ ?_
    | with_reducible assumption
    | with_reducible apply kept_eqReserve
    | with_reducible apply kept_modEq
    | with_reducible refine Quiet.foldl _ (fun _ _ _ => ?_) _ ?_
    | with_reducible refine Quiet.ite_snd_of (by with_reducible assumption) ?_ ?_
    | with_reducible refine Quiet.foldl_fst _ (fun _ _ _ => ?_) _ ?_
    | with_reducible refine Quiet.foldl_fst_of (by with_reducible assumption) (fun _ _ _ => ?_) ?_
    | with_reducible refine Quiet.foldl_snd _ (fun _ _ _ => ?_) _ ?_
    | with_reducible refine Quiet.foldl_snd_of (by with_reducible assumption) (fun _ _ _ => ?_) ?_
    | with_reducible refine Quiet.foldl_thd _ (fun _ _ _ => ?_) _ ?_
    | with_reducible refine Quiet.foldl_thd_of (by with_reducible assumption) (fun _ _ _ => ?_) ?_
    | dsimp only
    | simp only [reduceIte, Bool.false_eq_true]
    | split
    | fail_if_no_progress ((with_reducible refine Quiet.put ?_ ?_) <;> first | exact rfl | skip)

theorem kept_heldWrite {a s : State} {x1} (h : Ran a s) : Ran a (State.heldWrite s x1) := by
  unfold State.heldWrite
  repeat' first
    | with_reducible refine Ran.ite ?_ ?_
    | with_reducible refine Ran.ite_snd ?_ ?_
    | with_reducible assumption
    | with_reducible apply Ran.ofQuiet (kept_modEq (Quiet.refl _))
    | with_reducible apply Ran.ofQuiet (kept_eqCommit (Quiet.refl _))
    | with_reducible refine Ran.ofQuiet (kept_eqCommit_of (by with_reducible assumption) (Quiet.refl _)) ?_
    | with_reducible apply kept_posted
    | with_reducible refine kept_posted_of (by with_reducible assumption) ?_
    | with_reducible apply Ran.ofQuiet (kept_settle (Quiet.refl _))
    | with_reducible refine Ran.foldl _ (fun _ _ _ => ?_) _ ?_
    | with_reducible refine Ran.ite_snd_of (by with_reducible assumption) ?_ ?_
    | with_reducible refine Ran.foldl_fst _ (fun _ _ _ => ?_) _ ?_
    | with_reducible refine Ran.foldl_fst_of (by with_reducible assumption) (fun _ _ _ => ?_) ?_
    | with_reducible refine Ran.foldl_snd _ (fun _ _ _ => ?_) _ ?_
    | with_reducible refine Ran.foldl_snd_of (by with_reducible assumption) (fun _ _ _ => ?_) ?_
    | with_reducible refine Ran.foldl_thd _ (fun _ _ _ => ?_) _ ?_
    | with_reducible refine Ran.foldl_thd_of (by with_reducible assumption) (fun _ _ _ => ?_) ?_
    | dsimp only
    | simp only [reduceIte, Bool.false_eq_true]
    | split
    | fail_if_no_progress ((with_reducible refine Ran.put ?_ ?_) <;> first | exact rfl | skip)

theorem kept_heldPost {a s : State} {x1} (h : Ran a s) : Ran a (State.heldPost s x1) := by
  unfold State.heldPost
  repeat' first
    | with_reducible refine Ran.ite ?_ ?_
    | with_reducible refine Ran.ite_snd ?_ ?_
    | with_reducible assumption
    | with_reducible apply Ran.ofQuiet (kept_heldAdmit (Quiet.refl _))
    | with_reducible apply kept_heldWrite
    | with_reducible refine Ran.foldl _ (fun _ _ _ => ?_) _ ?_
    | with_reducible refine Ran.ite_snd_of (by with_reducible assumption) ?_ ?_
    | with_reducible refine Ran.foldl_fst _ (fun _ _ _ => ?_) _ ?_
    | with_reducible refine Ran.foldl_fst_of (by with_reducible assumption) (fun _ _ _ => ?_) ?_
    | with_reducible refine Ran.foldl_snd _ (fun _ _ _ => ?_) _ ?_
    | with_reducible refine Ran.foldl_snd_of (by with_reducible assumption) (fun _ _ _ => ?_) ?_
    | with_reducible refine Ran.foldl_thd _ (fun _ _ _ => ?_) _ ?_
    | with_reducible refine Ran.foldl_thd_of (by with_reducible assumption) (fun _ _ _ => ?_) ?_
    | dsimp only
    | simp only [reduceIte, Bool.false_eq_true]
    | split
    | fail_if_no_progress ((with_reducible refine Ran.put ?_ ?_) <;> first | exact rfl | skip)

theorem kept_readWqPi {a s : State} {x1} {x2} (h : Kept a s) : Kept a (State.readWqPi s x1 x2).2 := by
  unfold State.readWqPi
  repeat' first
    | with_reducible refine Kept.ite ?_ ?_
    | with_reducible refine Kept.ite_snd ?_ ?_
    | with_reducible assumption
    | with_reducible apply kept_latch

theorem kept_readWqPi_of {a s u : State} {x1} {x2} {w0} (e : State.readWqPi s x1 x2 = (w0, u)) (h : Kept a s) : Kept a u := by
  have := kept_readWqPi (x1 := x1) (x2 := x2) h
  rw [e] at this
  exact this

theorem kept_readEqRes {a s : State} {x1} {x2} (h : Kept a s) : Kept a (State.readEqRes s x1 x2).2 := by
  unfold State.readEqRes
  repeat' first
    | with_reducible refine Kept.ite ?_ ?_
    | with_reducible refine Kept.ite_snd ?_ ?_
    | with_reducible assumption
    | with_reducible apply kept_latchAll

theorem kept_readEqRes_of {a s u : State} {x1} {x2} {w0} (e : State.readEqRes s x1 x2 = (w0, u)) (h : Kept a s) : Kept a u := by
  have := kept_readEqRes (x1 := x1) (x2 := x2) h
  rw [e] at this
  exact this

end Sys2Proof.Machine
end

