-- ==== Sys2Proof/Laws/KeptCores.lean ====
section
/-! SUPPORT. What the operations of Machine/Cores.lean leave alone (`Kept`, `Held`). -/

namespace Sys2Proof.Machine

theorem kept_coreTrap {a s : State} {x1} {x2} {x3} (h : Quiet a s) : Quiet a (State.coreTrap s x1 x2 x3) := by
  unfold State.coreTrap
  repeat' first
    | with_reducible refine Quiet.ite ?_ ?_
    | with_reducible refine Quiet.ite_snd ?_ ?_
    | with_reducible assumption
    | with_reducible apply kept_modCore

theorem kept_coreDone {a s : State} {x1} {x2} (h : Quiet a s) : Quiet a (State.coreDone s x1 x2) := by
  unfold State.coreDone
  repeat' first
    | with_reducible refine Quiet.ite ?_ ?_
    | with_reducible refine Quiet.ite_snd ?_ ?_
    | with_reducible assumption
    | with_reducible apply kept_modCore

theorem kept_tcmRead {a s : State} {x1} {x2} {x3} (h : Quiet a s) : Quiet a (State.tcmRead s x1 x2 x3).2 := by
  unfold State.tcmRead
  repeat' first
    | with_reducible refine Quiet.ite ?_ ?_
    | with_reducible refine Quiet.ite_snd ?_ ?_
    | with_reducible assumption
    | with_reducible apply kept_modCore
    | with_reducible refine Quiet.foldl _ (fun _ _ _ => ?_) _ ?_
    | with_reducible refine Quiet.ite_snd_of (by with_reducible assumption) ?_ ?_
    | with_reducible refine Quiet.foldl_fst _ (fun _ _ _ => ?_) _ ?_
    | with_reducible refine Quiet.foldl_fst_of (by with_reducible assumption) (fun _ _ _ => ?_) ?_
    | with_reducible refine Quiet.foldl_snd _ (fun _ _ _ => ?_) _ ?_
    | with_reducible refine Quiet.foldl_snd_of (by with_reducible assumption) (fun _ _ _ => ?_) ?_
    | with_reducible refine Quiet.foldl_thd _ (fun _ _ _ => ?_) _ ?_
    | with_reducible refine Quiet.foldl_thd_of (by with_reducible assumption) (fun _ _ _ => ?_) ?_
    | dsimp only
    | simp only [reduceIte, Bool.false_eq_true]
    | split
    | fail_if_no_progress ((with_reducible refine Quiet.put ?_ ?_) <;> first | exact rfl | skip)

theorem kept_tcmRead_of {a s u : State} {x1} {x2} {x3} {w0} (e : State.tcmRead s x1 x2 x3 = (w0, u)) (h : Quiet a s) : Quiet a u := by
  have := kept_tcmRead (x1 := x1) (x2 := x2) (x3 := x3) h
  rw [e] at this
  exact this

theorem kept_tcmWrite {a s : State} {x1} {x2} {x3} (h : Quiet a s) : Quiet a (State.tcmWrite s x1 x2 x3) := by
  have hw : Held s (s.tcmWrite x1 x2 x3) := ⟨rfl, fun x => by
    simp only [Mem.wf, Bool.and_eq_true] at x ⊢
    exact ⟨x.1, twf_putBytes _ _ _ x.2⟩⟩
  exact h.trans ⟨⟨⟨hw, rfl, rfl, rfl, rfl, rfl⟩, rfl, rfl, rfl, rfl⟩, rfl, rfl⟩

theorem kept_tcmWriteOther {a s : State} {x1} {x2} {x3} (h : Quiet a s) : Quiet a (State.tcmWriteOther s x1 x2 x3) := by
  unfold State.tcmWriteOther
  repeat' first
    | with_reducible refine Quiet.ite ?_ ?_
    | with_reducible refine Quiet.ite_snd ?_ ?_
    | with_reducible assumption
    | with_reducible apply kept_tcmWrite
    | with_reducible refine Quiet.foldl _ (fun _ _ _ => ?_) _ ?_
    | with_reducible refine Quiet.ite_snd_of (by with_reducible assumption) ?_ ?_
    | with_reducible refine Quiet.foldl_fst _ (fun _ _ _ => ?_) _ ?_
    | with_reducible refine Quiet.foldl_fst_of (by with_reducible assumption) (fun _ _ _ => ?_) ?_
    | with_reducible refine Quiet.foldl_snd _ (fun _ _ _ => ?_) _ ?_
    | with_reducible refine Quiet.foldl_snd_of (by with_reducible assumption) (fun _ _ _ => ?_) ?_
    | with_reducible refine Quiet.foldl_thd _ (fun _ _ _ => ?_) _ ?_
    | with_reducible refine Quiet.foldl_thd_of (by with_reducible assumption) (fun _ _ _ => ?_) ?_
    | dsimp only
    | simp only [reduceIte, Bool.false_eq_true]
    | split
    | fail_if_no_progress ((with_reducible refine Quiet.put ?_ ?_) <;> first | exact rfl | skip)

theorem kept_writeBack {a s : State} {x1} {x2} (h : Quiet a s) : Quiet a (State.writeBack s x1 x2) := by
  unfold State.writeBack
  repeat' first
    | with_reducible refine Quiet.ite ?_ ?_
    | with_reducible refine Quiet.ite_snd ?_ ?_
    | with_reducible assumption
    | with_reducible apply kept_report
    | with_reducible apply kept_sramWriteBy
    | with_reducible apply kept_emit

theorem kept_setLine {a s : State} {x1} {x2} {x3} {x4} (h : Quiet a s) : Quiet a (State.setLine s x1 x2 x3 x4) := by
  unfold State.setLine
  repeat' first
    | with_reducible refine Quiet.ite ?_ ?_
    | with_reducible refine Quiet.ite_snd ?_ ?_
    | with_reducible assumption
    | with_reducible apply kept_modCore

theorem kept_fillLine {a s : State} {x1} {x2} {x3} {x4} (h : Quiet a s) : Quiet a (State.fillLine s x1 x2 x3 x4) := by
  unfold State.fillLine
  repeat' first
    | with_reducible refine Quiet.ite ?_ ?_
    | with_reducible refine Quiet.ite_snd ?_ ?_
    | with_reducible assumption
    | with_reducible apply kept_setLine
    | with_reducible apply kept_writeBack
    | with_reducible apply kept_draw

theorem kept_refill {a s : State} {x1} {x2} {x3} (h : Quiet a s) : Quiet a (State.refill s x1 x2 x3).2 := by
  unfold State.refill
  repeat' first
    | with_reducible refine Quiet.ite ?_ ?_
    | with_reducible refine Quiet.ite_snd ?_ ?_
    | with_reducible assumption
    | with_reducible apply kept_sramRead
    | with_reducible refine kept_sramRead_of (by with_reducible assumption) ?_
    | with_reducible refine Quiet.foldl _ (fun _ _ _ => ?_) _ ?_
    | with_reducible refine Quiet.ite_snd_of (by with_reducible assumption) ?_ ?_
    | with_reducible refine Quiet.foldl_fst _ (fun _ _ _ => ?_) _ ?_
    | with_reducible refine Quiet.foldl_fst_of (by with_reducible assumption) (fun _ _ _ => ?_) ?_
    | with_reducible refine Quiet.foldl_snd _ (fun _ _ _ => ?_) _ ?_
    | with_reducible refine Quiet.foldl_snd_of (by with_reducible assumption) (fun _ _ _ => ?_) ?_
    | with_reducible refine Quiet.foldl_thd _ (fun _ _ _ => ?_) _ ?_
    | with_reducible refine Quiet.foldl_thd_of (by with_reducible assumption) (fun _ _ _ => ?_) ?_
    | dsimp only
    | simp only [reduceIte, Bool.false_eq_true]
    | split

theorem kept_refill_of {a s u : State} {x1} {x2} {x3} {w0} (e : State.refill s x1 x2 x3 = (w0, u)) (h : Quiet a s) : Quiet a u := by
  have := kept_refill (x1 := x1) (x2 := x2) (x3 := x3) h
  rw [e] at this
  exact this

theorem kept_cacheLine {a s : State} {x1} {x2} {x3} {x4} {x5} {x6} (h : Quiet a s) : Quiet a (State.cacheLine s x1 x2 x3 x4 x5 x6).2 := by
  unfold State.cacheLine
  repeat' first
    | with_reducible refine Quiet.ite ?_ ?_
    | with_reducible refine Quiet.ite_snd ?_ ?_
    | with_reducible assumption
    | with_reducible apply kept_refill
    | with_reducible refine kept_refill_of (by with_reducible assumption) ?_
    | with_reducible apply kept_fillLine
    | with_reducible apply kept_setLine
    | with_reducible apply kept_report
    | with_reducible apply kept_modCore
    | with_reducible refine Quiet.foldl _ (fun _ _ _ => ?_) _ ?_
    | with_reducible refine Quiet.ite_snd_of (by with_reducible assumption) ?_ ?_
    | with_reducible refine Quiet.foldl_fst _ (fun _ _ _ => ?_) _ ?_
    | with_reducible refine Quiet.foldl_fst_of (by with_reducible assumption) (fun _ _ _ => ?_) ?_
    | with_reducible refine Quiet.foldl_snd _ (fun _ _ _ => ?_) _ ?_
    | with_reducible refine Quiet.foldl_snd_of (by with_reducible assumption) (fun _ _ _ => ?_) ?_
    | with_reducible refine Quiet.foldl_thd _ (fun _ _ _ => ?_) _ ?_
    | with_reducible refine Quiet.foldl_thd_of (by with_reducible assumption) (fun _ _ _ => ?_) ?_
    | dsimp only
    | simp only [reduceIte, Bool.false_eq_true]
    | split

theorem kept_cacheLine_of {a s u : State} {x1} {x2} {x3} {x4} {x5} {x6} {w0} (e : State.cacheLine s x1 x2 x3 x4 x5 x6 = (w0, u)) (h : Quiet a s) : Quiet a u := by
  have := kept_cacheLine (x1 := x1) (x2 := x2) (x3 := x3) (x4 := x4) (x5 := x5) (x6 := x6) h
  rw [e] at this
  exact this

theorem kept_cachedAccess {a s : State} {x1} {x2} {x3} {x4} {x5} {x6} (h : Quiet a s) : Quiet a (State.cachedAccess s x1 x2 x3 x4 x5 x6) := by
  unfold State.cachedAccess
  repeat' first
    | with_reducible refine Quiet.ite ?_ ?_
    | with_reducible refine Quiet.ite_snd ?_ ?_
    | with_reducible assumption
    | with_reducible apply kept_cacheLine
    | with_reducible refine kept_cacheLine_of (by with_reducible assumption) ?_
    | with_reducible apply kept_coreTrap
    | with_reducible apply kept_coreDone
    | with_reducible apply kept_setLine
    | with_reducible refine Quiet.foldl _ (fun _ _ _ => ?_) _ ?_
    | with_reducible refine Quiet.ite_snd_of (by with_reducible assumption) ?_ ?_
    | with_reducible refine Quiet.foldl_fst _ (fun _ _ _ => ?_) _ ?_
    | with_reducible refine Quiet.foldl_fst_of (by with_reducible assumption) (fun _ _ _ => ?_) ?_
    | with_reducible refine Quiet.foldl_snd _ (fun _ _ _ => ?_) _ ?_
    | with_reducible refine Quiet.foldl_snd_of (by with_reducible assumption) (fun _ _ _ => ?_) ?_
    | with_reducible refine Quiet.foldl_thd _ (fun _ _ _ => ?_) _ ?_
    | with_reducible refine Quiet.foldl_thd_of (by with_reducible assumption) (fun _ _ _ => ?_) ?_
    | dsimp only
    | simp only [reduceIte, Bool.false_eq_true]
    | split

theorem kept_coreSram {a s : State} {x1} {x2} {x3} (h : Quiet a s) : Quiet a (State.coreSram s x1 x2 x3) := by
  unfold State.coreSram
  repeat' first
    | with_reducible refine Quiet.ite ?_ ?_
    | with_reducible refine Quiet.ite_snd ?_ ?_
    | with_reducible assumption
    | with_reducible apply kept_coreTrap
    | with_reducible apply kept_coreDone
    | with_reducible apply kept_tcmWrite
    | with_reducible apply kept_tcmRead
    | with_reducible refine kept_tcmRead_of (by with_reducible assumption) ?_
    | with_reducible apply kept_sramWriteBy
    | with_reducible apply kept_sramRead
    | with_reducible refine kept_sramRead_of (by with_reducible assumption) ?_
    | with_reducible apply kept_cachedAccess
    | with_reducible refine Quiet.foldl _ (fun _ _ _ => ?_) _ ?_
    | with_reducible refine Quiet.ite_snd_of (by with_reducible assumption) ?_ ?_
    | with_reducible refine Quiet.foldl_fst _ (fun _ _ _ => ?_) _ ?_
    | with_reducible refine Quiet.foldl_fst_of (by with_reducible assumption) (fun _ _ _ => ?_) ?_
    | with_reducible refine Quiet.foldl_snd _ (fun _ _ _ => ?_) _ ?_
    | with_reducible refine Quiet.foldl_snd_of (by with_reducible assumption) (fun _ _ _ => ?_) ?_
    | with_reducible refine Quiet.foldl_thd _ (fun _ _ _ => ?_) _ ?_
    | with_reducible refine Quiet.foldl_thd_of (by with_reducible assumption) (fun _ _ _ => ?_) ?_
    | dsimp only
    | simp only [reduceIte, Bool.false_eq_true]
    | split

theorem kept_windowFault {a s : State} {x1} {x2} {x3} {x4} {x5} {x6} {x7} {x8} {x9} (h : Quiet a s) : Quiet a (State.windowFault s x1 x2 x3 x4 x5 x6 x7 x8 x9) := by
  unfold State.windowFault
  repeat' first
    | with_reducible refine Quiet.ite ?_ ?_
    | with_reducible refine Quiet.ite_snd ?_ ?_
    | with_reducible assumption
    | with_reducible apply kept_setWin
    | with_reducible apply kept_faultRecord
    | with_reducible apply kept_coreTrap
    | with_reducible refine Quiet.foldl _ (fun _ _ _ => ?_) _ ?_
    | with_reducible refine Quiet.ite_snd_of (by with_reducible assumption) ?_ ?_
    | with_reducible refine Quiet.foldl_fst _ (fun _ _ _ => ?_) _ ?_
    | with_reducible refine Quiet.foldl_fst_of (by with_reducible assumption) (fun _ _ _ => ?_) ?_
    | with_reducible refine Quiet.foldl_snd _ (fun _ _ _ => ?_) _ ?_
    | with_reducible refine Quiet.foldl_snd_of (by with_reducible assumption) (fun _ _ _ => ?_) ?_
    | with_reducible refine Quiet.foldl_thd _ (fun _ _ _ => ?_) _ ?_
    | with_reducible refine Quiet.foldl_thd_of (by with_reducible assumption) (fun _ _ _ => ?_) ?_
    | dsimp only
    | simp only [reduceIte, Bool.false_eq_true]
    | split
    | fail_if_no_progress ((with_reducible refine Quiet.put ?_ ?_) <;> first | exact rfl | skip)

theorem kept_coreWait {a s : State} {x1} {x2} {x3} {x4} (h : Quiet a s) : Quiet a (State.coreWait s x1 x2 x3 x4) := by
  unfold State.coreWait
  repeat' first
    | with_reducible refine Quiet.ite ?_ ?_
    | with_reducible refine Quiet.ite_snd ?_ ?_
    | with_reducible assumption
    | with_reducible apply kept_modCore
    | with_reducible refine Quiet.foldl _ (fun _ _ _ => ?_) _ ?_
    | with_reducible refine Quiet.ite_snd_of (by with_reducible assumption) ?_ ?_
    | with_reducible refine Quiet.foldl_fst _ (fun _ _ _ => ?_) _ ?_
    | with_reducible refine Quiet.foldl_fst_of (by with_reducible assumption) (fun _ _ _ => ?_) ?_
    | with_reducible refine Quiet.foldl_snd _ (fun _ _ _ => ?_) _ ?_
    | with_reducible refine Quiet.foldl_snd_of (by with_reducible assumption) (fun _ _ _ => ?_) ?_
    | with_reducible refine Quiet.foldl_thd _ (fun _ _ _ => ?_) _ ?_
    | with_reducible refine Quiet.foldl_thd_of (by with_reducible assumption) (fun _ _ _ => ?_) ?_
    | dsimp only
    | simp only [reduceIte, Bool.false_eq_true]
    | split
    | fail_if_no_progress ((with_reducible refine Quiet.put ?_ ?_) <;> first | exact rfl | skip)

theorem kept_coreWindow {a s : State} {x1} {x2} {x3} {x4} (h : Quiet a s) : Quiet a (State.coreWindow s x1 x2 x3 x4) := by
  unfold State.coreWindow
  repeat' first
    | with_reducible refine Quiet.ite ?_ ?_
    | with_reducible refine Quiet.ite_snd ?_ ?_
    | with_reducible assumption
    | with_reducible apply kept_coreTrap
    | with_reducible apply kept_windowFault
    | with_reducible apply kept_xlate
    | with_reducible refine kept_xlate_of (by with_reducible assumption) ?_
    | with_reducible apply kept_miss
    | with_reducible apply kept_coreWait
    | with_reducible apply kept_spend
    | with_reducible apply kept_cachedAccess
    | with_reducible refine Quiet.foldl _ (fun _ _ _ => ?_) _ ?_
    | with_reducible refine Quiet.ite_snd_of (by with_reducible assumption) ?_ ?_
    | with_reducible refine Quiet.foldl_fst _ (fun _ _ _ => ?_) _ ?_
    | with_reducible refine Quiet.foldl_fst_of (by with_reducible assumption) (fun _ _ _ => ?_) ?_
    | with_reducible refine Quiet.foldl_snd _ (fun _ _ _ => ?_) _ ?_
    | with_reducible refine Quiet.foldl_snd_of (by with_reducible assumption) (fun _ _ _ => ?_) ?_
    | with_reducible refine Quiet.foldl_thd _ (fun _ _ _ => ?_) _ ?_
    | with_reducible refine Quiet.foldl_thd_of (by with_reducible assumption) (fun _ _ _ => ?_) ?_
    | dsimp only
    | simp only [reduceIte, Bool.false_eq_true]
    | split
    | fail_if_no_progress ((with_reducible refine Quiet.put ?_ ?_) <;> first | exact rfl | skip)

theorem kept_lockCommits {a s : State} (h : Quiet a s) : Quiet a (State.lockCommits s) := by
  unfold State.lockCommits
  repeat' first
    | with_reducible refine Quiet.ite ?_ ?_
    | with_reducible refine Quiet.ite_snd ?_ ?_
    | with_reducible assumption
    | with_reducible refine Quiet.foldl _ (fun _ _ _ => ?_) _ ?_
    | with_reducible refine Quiet.ite_snd_of (by with_reducible assumption) ?_ ?_
    | with_reducible refine Quiet.foldl_fst _ (fun _ _ _ => ?_) _ ?_
    | with_reducible refine Quiet.foldl_fst_of (by with_reducible assumption) (fun _ _ _ => ?_) ?_
    | with_reducible refine Quiet.foldl_snd _ (fun _ _ _ => ?_) _ ?_
    | with_reducible refine Quiet.foldl_snd_of (by with_reducible assumption) (fun _ _ _ => ?_) ?_
    | with_reducible refine Quiet.foldl_thd _ (fun _ _ _ => ?_) _ ?_
    | with_reducible refine Quiet.foldl_thd_of (by with_reducible assumption) (fun _ _ _ => ?_) ?_
    | dsimp only
    | simp only [reduceIte, Bool.false_eq_true]
    | split
    | fail_if_no_progress ((with_reducible refine Quiet.put ?_ ?_) <;> first | exact rfl | skip)

theorem kept_coreAmo {a s : State} {x1} {x2} {x3} {x4} (h : Quiet a s) : Quiet a (State.coreAmo s x1 x2 x3 x4) := by
  unfold State.coreAmo
  repeat' first
    | with_reducible refine Quiet.ite ?_ ?_
    | with_reducible refine Quiet.ite_snd ?_ ?_
    | with_reducible assumption
    | with_reducible apply kept_coreTrap
    | with_reducible apply kept_sramRead
    | with_reducible refine kept_sramRead_of (by with_reducible assumption) ?_
    | with_reducible apply kept_coreDone
    | with_reducible apply kept_lockCommits
    | with_reducible apply kept_sramWriteBy
    | with_reducible apply kept_report
    | with_reducible apply kept_modCore
    | with_reducible apply kept_tcmRead
    | with_reducible refine kept_tcmRead_of (by with_reducible assumption) ?_
    | with_reducible apply kept_tcmWrite
    | with_reducible refine Quiet.foldl _ (fun _ _ _ => ?_) _ ?_
    | with_reducible refine Quiet.ite_snd_of (by with_reducible assumption) ?_ ?_
    | with_reducible refine Quiet.foldl_fst _ (fun _ _ _ => ?_) _ ?_
    | with_reducible refine Quiet.foldl_fst_of (by with_reducible assumption) (fun _ _ _ => ?_) ?_
    | with_reducible refine Quiet.foldl_snd _ (fun _ _ _ => ?_) _ ?_
    | with_reducible refine Quiet.foldl_snd_of (by with_reducible assumption) (fun _ _ _ => ?_) ?_
    | with_reducible refine Quiet.foldl_thd _ (fun _ _ _ => ?_) _ ?_
    | with_reducible refine Quiet.foldl_thd_of (by with_reducible assumption) (fun _ _ _ => ?_) ?_
    | dsimp only
    | simp only [reduceIte, Bool.false_eq_true]
    | split
    | fail_if_no_progress ((with_reducible refine Quiet.put ?_ ?_) <;> first | exact rfl | skip)

theorem kept_coreLr {a s : State} {x1} {x2} (h : Quiet a s) : Quiet a (State.coreLr s x1 x2) := by
  unfold State.coreLr
  repeat' first
    | with_reducible refine Quiet.ite ?_ ?_
    | with_reducible refine Quiet.ite_snd ?_ ?_
    | with_reducible assumption
    | with_reducible apply kept_coreTrap
    | with_reducible apply kept_sramRead
    | with_reducible refine kept_sramRead_of (by with_reducible assumption) ?_
    | with_reducible apply kept_tcmRead
    | with_reducible refine kept_tcmRead_of (by with_reducible assumption) ?_
    | with_reducible apply kept_modCore
    | with_reducible apply kept_coreDone
    | with_reducible refine Quiet.foldl _ (fun _ _ _ => ?_) _ ?_
    | with_reducible refine Quiet.ite_snd_of (by with_reducible assumption) ?_ ?_
    | with_reducible refine Quiet.foldl_fst _ (fun _ _ _ => ?_) _ ?_
    | with_reducible refine Quiet.foldl_fst_of (by with_reducible assumption) (fun _ _ _ => ?_) ?_
    | with_reducible refine Quiet.foldl_snd _ (fun _ _ _ => ?_) _ ?_
    | with_reducible refine Quiet.foldl_snd_of (by with_reducible assumption) (fun _ _ _ => ?_) ?_
    | with_reducible refine Quiet.foldl_thd _ (fun _ _ _ => ?_) _ ?_
    | with_reducible refine Quiet.foldl_thd_of (by with_reducible assumption) (fun _ _ _ => ?_) ?_
    | dsimp only
    | simp only [reduceIte, Bool.false_eq_true]
    | split

theorem kept_coreSc {a s : State} {x1} {x2} {x3} (h : Quiet a s) : Quiet a (State.coreSc s x1 x2 x3) := by
  unfold State.coreSc
  repeat' first
    | with_reducible refine Quiet.ite ?_ ?_
    | with_reducible refine Quiet.ite_snd ?_ ?_
    | with_reducible assumption
    | with_reducible apply kept_coreTrap
    | with_reducible apply kept_modCore
    | with_reducible apply kept_coreDone
    | with_reducible apply kept_lockCommits
    | with_reducible apply kept_sramWriteBy
    | with_reducible apply kept_tcmWrite
    | with_reducible refine Quiet.foldl _ (fun _ _ _ => ?_) _ ?_
    | with_reducible refine Quiet.ite_snd_of (by with_reducible assumption) ?_ ?_
    | with_reducible refine Quiet.foldl_fst _ (fun _ _ _ => ?_) _ ?_
    | with_reducible refine Quiet.foldl_fst_of (by with_reducible assumption) (fun _ _ _ => ?_) ?_
    | with_reducible refine Quiet.foldl_snd _ (fun _ _ _ => ?_) _ ?_
    | with_reducible refine Quiet.foldl_snd_of (by with_reducible assumption) (fun _ _ _ => ?_) ?_
    | with_reducible refine Quiet.foldl_thd _ (fun _ _ _ => ?_) _ ?_
    | with_reducible refine Quiet.foldl_thd_of (by with_reducible assumption) (fun _ _ _ => ?_) ?_
    | dsimp only
    | simp only [reduceIte, Bool.false_eq_true]
    | split

theorem kept_dataLines {a s : State} {x1} {x2} {x3} {x4} (h : Quiet a s) : Quiet a (State.dataLines s x1 x2 x3 x4) := by
  unfold State.dataLines
  repeat' first
    | with_reducible refine Quiet.ite ?_ ?_
    | with_reducible refine Quiet.ite_snd ?_ ?_
    | with_reducible assumption
    | with_reducible apply kept_writeBack
    | with_reducible apply kept_setLine
    | with_reducible refine Quiet.foldl _ (fun _ _ _ => ?_) _ ?_

theorem kept_instrLines {a s : State} {x1} {x2} (h : Quiet a s) : Quiet a (State.instrLines s x1 x2) := by
  unfold State.instrLines
  repeat' first
    | with_reducible refine Quiet.ite ?_ ?_
    | with_reducible refine Quiet.ite_snd ?_ ?_
    | with_reducible assumption
    | with_reducible apply kept_setLine
    | with_reducible refine Quiet.foldl _ (fun _ _ _ => ?_) _ ?_

theorem kept_cmo {a s : State} {x1} {x2} {x3} (h : Quiet a s) : Quiet a (State.cmo s x1 x2 x3) := by
  unfold State.cmo
  repeat' first
    | with_reducible refine Quiet.ite ?_ ?_
    | with_reducible refine Quiet.ite_snd ?_ ?_
    | with_reducible assumption
    | with_reducible apply kept_modCore
    | with_reducible apply kept_dataLines
    | with_reducible apply kept_instrLines

theorem kept_forgetCore {a s : State} {x1} (h : Quiet a s) : Quiet a (State.forgetCore s x1) := by
  unfold State.forgetCore
  repeat' first
    | with_reducible refine Quiet.ite ?_ ?_
    | with_reducible refine Quiet.ite_snd ?_ ?_
    | with_reducible assumption
    | with_reducible apply kept_forget
    | with_reducible refine Quiet.foldl _ (fun _ _ _ => ?_) _ ?_

theorem kept_coreInReset {a s : State} {x1} (h : Kept a s) : Kept a (State.coreInReset s x1) := by
  unfold State.coreInReset
  repeat' first
    | with_reducible refine Kept.ite ?_ ?_
    | with_reducible refine Kept.ite_snd ?_ ?_
    | with_reducible assumption
    | with_reducible apply Kept.ofQuiet (kept_cicCoreReset (Quiet.refl _))
    | with_reducible apply Kept.ofQuiet (kept_forgetCore (Quiet.refl _))
    | with_reducible apply Kept.ofQuiet (kept_wdPause (Quiet.refl _))
    | with_reducible apply kept_mbReset
    | with_reducible apply Kept.ofQuiet (kept_modCore (Quiet.refl _))

theorem kept_coreGo {a s : State} {x1} (h : Quiet a s) : Quiet a (State.coreGo s x1) := by
  unfold State.coreGo
  repeat' first
    | with_reducible refine Quiet.ite ?_ ?_
    | with_reducible refine Quiet.ite_snd ?_ ?_
    | with_reducible assumption
    | with_reducible apply kept_wdResume
    | with_reducible apply kept_modCore

theorem kept_coreCtrl {a s : State} {x1} {x2} {x3} (h : Quiet a s) : Quiet a (State.coreCtrl s x1 x2 x3) := by
  unfold State.coreCtrl
  repeat' first
    | with_reducible refine Quiet.ite ?_ ?_
    | with_reducible refine Quiet.ite_snd ?_ ?_
    | with_reducible assumption
    | with_reducible apply kept_setCore
    | with_reducible apply kept_coreGo
    | with_reducible refine Quiet.foldl _ (fun _ _ _ => ?_) _ ?_
    | with_reducible refine Quiet.ite_snd_of (by with_reducible assumption) ?_ ?_
    | with_reducible refine Quiet.foldl_fst _ (fun _ _ _ => ?_) _ ?_
    | with_reducible refine Quiet.foldl_fst_of (by with_reducible assumption) (fun _ _ _ => ?_) ?_
    | with_reducible refine Quiet.foldl_snd _ (fun _ _ _ => ?_) _ ?_
    | with_reducible refine Quiet.foldl_snd_of (by with_reducible assumption) (fun _ _ _ => ?_) ?_
    | with_reducible refine Quiet.foldl_thd _ (fun _ _ _ => ?_) _ ?_
    | with_reducible refine Quiet.foldl_thd_of (by with_reducible assumption) (fun _ _ _ => ?_) ?_
    | dsimp only
    | simp only [reduceIte, Bool.false_eq_true]
    | split

theorem kept_wdLoad {a s : State} {x1} (h : Quiet a s) : Quiet a (State.wdLoad s x1) := by
  unfold State.wdLoad
  repeat' first
    | with_reducible refine Quiet.ite ?_ ?_
    | with_reducible refine Quiet.ite_snd ?_ ?_
    | with_reducible assumption
    | with_reducible apply kept_modCore

theorem kept_wdCtrl {a s : State} {x1} {x2} (h : Quiet a s) : Quiet a (State.wdCtrl s x1 x2) := by
  unfold State.wdCtrl
  repeat' first
    | with_reducible refine Quiet.ite ?_ ?_
    | with_reducible refine Quiet.ite_snd ?_ ?_
    | with_reducible assumption
    | with_reducible apply kept_setCore
    | with_reducible apply kept_wdLoad

theorem kept_wdKick {a s : State} {x1} {x2} {x3} (h : Quiet a s) : Quiet a (State.wdKick s x1 x2 x3) := by
  unfold State.wdKick
  repeat' first
    | with_reducible refine Quiet.ite ?_ ?_
    | with_reducible refine Quiet.ite_snd ?_ ?_
    | with_reducible assumption
    | with_reducible apply kept_wdLoad

theorem kept_wdExpire {a s : State} {x1} (h : Kept a s) : Kept a (State.wdExpire s x1) := by
  unfold State.wdExpire
  repeat' first
    | with_reducible refine Kept.ite ?_ ?_
    | with_reducible refine Kept.ite_snd ?_ ?_
    | with_reducible assumption
    | with_reducible apply Kept.ofQuiet (kept_report (Quiet.refl _))
    | with_reducible apply Kept.ofQuiet (kept_modCore (Quiet.refl _))
    | with_reducible apply Kept.ofQuiet (kept_coreGo (Quiet.refl _))
    | with_reducible apply kept_coreInReset
    | with_reducible apply Kept.ofQuiet (kept_wdLoad (Quiet.refl _))
    | with_reducible refine Kept.foldl _ (fun _ _ _ => ?_) _ ?_
    | with_reducible refine Kept.ite_snd_of (by with_reducible assumption) ?_ ?_
    | with_reducible refine Kept.foldl_fst _ (fun _ _ _ => ?_) _ ?_
    | with_reducible refine Kept.foldl_fst_of (by with_reducible assumption) (fun _ _ _ => ?_) ?_
    | with_reducible refine Kept.foldl_snd _ (fun _ _ _ => ?_) _ ?_
    | with_reducible refine Kept.foldl_snd_of (by with_reducible assumption) (fun _ _ _ => ?_) ?_
    | with_reducible refine Kept.foldl_thd _ (fun _ _ _ => ?_) _ ?_
    | with_reducible refine Kept.foldl_thd_of (by with_reducible assumption) (fun _ _ _ => ?_) ?_
    | dsimp only
    | simp only [reduceIte, Bool.false_eq_true]
    | split

theorem kept_setMtip {a s : State} {x1} (h : Quiet a s) : Quiet a (State.setMtip s x1) := by
  unfold State.setMtip
  repeat' first
    | with_reducible refine Quiet.ite ?_ ?_
    | with_reducible refine Quiet.ite_snd ?_ ?_
    | with_reducible assumption
    | with_reducible apply kept_modCore
    | with_reducible apply kept_wakeCore

theorem kept_readMtime {a s : State} {x1} (h : Kept a s) : Kept a (State.readMtime s x1).2 := by
  unfold State.readMtime
  repeat' first
    | with_reducible refine Kept.ite ?_ ?_
    | with_reducible refine Kept.ite_snd ?_ ?_
    | with_reducible assumption
    | with_reducible apply kept_latch

theorem kept_readMtime_of {a s u : State} {x1} {w0} (e : State.readMtime s x1 = (w0, u)) (h : Kept a s) : Kept a u := by
  have := kept_readMtime (x1 := x1) h
  rw [e] at this
  exact this

theorem kept_scrub {a s : State} (h : Quiet a s) : Quiet a (State.scrub s) := by
  unfold State.scrub
  repeat' first
    | with_reducible refine Quiet.ite ?_ ?_
    | with_reducible refine Quiet.ite_snd ?_ ?_
    | with_reducible assumption
    | with_reducible apply kept_sramRead
    | with_reducible refine kept_sramRead_of (by with_reducible assumption) ?_
    | with_reducible refine Quiet.foldl _ (fun _ _ _ => ?_) _ ?_
    | with_reducible refine Quiet.ite_snd_of (by with_reducible assumption) ?_ ?_
    | with_reducible refine Quiet.foldl_fst _ (fun _ _ _ => ?_) _ ?_
    | with_reducible refine Quiet.foldl_fst_of (by with_reducible assumption) (fun _ _ _ => ?_) ?_
    | with_reducible refine Quiet.foldl_snd _ (fun _ _ _ => ?_) _ ?_
    | with_reducible refine Quiet.foldl_snd_of (by with_reducible assumption) (fun _ _ _ => ?_) ?_
    | with_reducible refine Quiet.foldl_thd _ (fun _ _ _ => ?_) _ ?_
    | with_reducible refine Quiet.foldl_thd_of (by with_reducible assumption) (fun _ _ _ => ?_) ?_
    | dsimp only
    | simp only [reduceIte, Bool.false_eq_true]
    | split
    | fail_if_no_progress ((with_reducible refine Quiet.put ?_ ?_) <;> first | exact rfl | skip)

theorem kept_arbCtrl {a s : State} {x1} (h : Quiet a s) : Quiet a (State.arbCtrl s x1) := by
  unfold State.arbCtrl
  repeat' first
    | with_reducible refine Quiet.ite ?_ ?_
    | with_reducible refine Quiet.ite_snd ?_ ?_
    | with_reducible assumption
    | with_reducible refine Quiet.foldl _ (fun _ _ _ => ?_) _ ?_
    | with_reducible refine Quiet.ite_snd_of (by with_reducible assumption) ?_ ?_
    | with_reducible refine Quiet.foldl_fst _ (fun _ _ _ => ?_) _ ?_
    | with_reducible refine Quiet.foldl_fst_of (by with_reducible assumption) (fun _ _ _ => ?_) ?_
    | with_reducible refine Quiet.foldl_snd _ (fun _ _ _ => ?_) _ ?_
    | with_reducible refine Quiet.foldl_snd_of (by with_reducible assumption) (fun _ _ _ => ?_) ?_
    | with_reducible refine Quiet.foldl_thd _ (fun _ _ _ => ?_) _ ?_
    | with_reducible refine Quiet.foldl_thd_of (by with_reducible assumption) (fun _ _ _ => ?_) ?_
    | dsimp only
    | simp only [reduceIte, Bool.false_eq_true]
    | split
    | fail_if_no_progress ((with_reducible refine Quiet.put ?_ ?_) <;> first | exact rfl | skip)

end Sys2Proof.Machine
end

