-- ==== Sys2Proof/Laws/KeptStore.lean ====
section
/-! SUPPORT. What the operations of Machine/Store.lean leave alone (`Kept`, `Held`). -/

namespace Sys2Proof.Machine

theorem held_lwsAccept {a s : State} {x1} {x2} (h : Held a s) : Held a (State.lwsAccept s x1 x2) := by
  unfold State.lwsAccept
  repeat' first
    | with_reducible refine Held.ite ?_ ?_
    | with_reducible refine Held.ite_snd ?_ ?_
    | with_reducible assumption
    | with_reducible refine Held.foldl _ (fun _ _ _ => ?_) _ ?_
    | with_reducible refine Held.ite_snd_of (by with_reducible assumption) ?_ ?_
    | with_reducible refine Held.foldl_snd _ (fun _ _ _ => ?_) _ ?_
    | dsimp only
    | simp only [reduceIte, Bool.false_eq_true]
    | split
    | fail_if_no_progress ((with_reducible refine Held.put ?_ ?_) <;> first | exact rfl | skip)

theorem held_lwsCmd {a s : State} {x1} {x2} (h : Held a s) : Held a (State.lwsCmd s x1 x2) := by
  unfold State.lwsCmd
  repeat' first
    | with_reducible refine Held.ite ?_ ?_
    | with_reducible refine Held.ite_snd ?_ ?_
    | with_reducible assumption
    | with_reducible apply held_lwsAccept
    | with_reducible refine Held.foldl _ (fun _ _ _ => ?_) _ ?_
    | with_reducible refine Held.ite_snd_of (by with_reducible assumption) ?_ ?_
    | with_reducible refine Held.foldl_snd _ (fun _ _ _ => ?_) _ ?_
    | dsimp only
    | simp only [reduceIte, Bool.false_eq_true]
    | split
    | fail_if_no_progress ((with_reducible refine Held.put ?_ ?_) <;> first | exact rfl | skip)

theorem held_lwsFinish {a s : State} {x1} (h : Held a s) : Held a (State.lwsFinish s x1) := by
  unfold State.lwsFinish
  repeat' first
    | with_reducible refine Held.ite ?_ ?_
    | with_reducible refine Held.ite_snd ?_ ?_
    | with_reducible assumption
    | with_reducible apply held_applyFence
    | with_reducible apply Held.ofQuiet (kept_report (Quiet.refl _))
    | with_reducible apply Held.ofQuiet (kept_cicEdge (Quiet.refl _))
    | with_reducible refine Held.foldl _ (fun _ _ _ => ?_) _ ?_
    | with_reducible refine Held.ite_snd_of (by with_reducible assumption) ?_ ?_
    | with_reducible refine Held.foldl_snd _ (fun _ _ _ => ?_) _ ?_
    | dsimp only
    | simp only [reduceIte, Bool.false_eq_true]
    | split
    | fail_if_no_progress ((with_reducible refine Held.put ?_ ?_) <;> first | exact rfl | skip)

theorem held_lwsStage {a s : State} {x1} {x2} (h : Held a s) : Held a (State.lwsStage s x1 x2) := by
  unfold State.lwsStage
  repeat' first
    | with_reducible refine Held.ite ?_ ?_
    | with_reducible refine Held.ite_snd ?_ ?_
    | with_reducible assumption
    | with_reducible refine Held.foldl _ (fun _ _ _ => ?_) _ ?_
    | with_reducible refine Held.ite_snd_of (by with_reducible assumption) ?_ ?_
    | with_reducible refine Held.foldl_snd _ (fun _ _ _ => ?_) _ ?_
    | dsimp only
    | simp only [reduceIte, Bool.false_eq_true]
    | split
    | fail_if_no_progress ((with_reducible refine Held.put ?_ ?_) <;> first | exact rfl | skip)

theorem kept_lockKey {a s : State} (h : Quiet a s) : Quiet a (State.lockKey s) := by
  unfold State.lockKey
  repeat' first
    | with_reducible refine Quiet.ite ?_ ?_
    | with_reducible refine Quiet.ite_snd ?_ ?_
    | with_reducible assumption
    | with_reducible refine Quiet.foldl _ (fun _ _ _ => ?_) _ ?_
    | with_reducible refine Quiet.ite_snd_of (by with_reducible assumption) ?_ ?_
    | with_reducible refine Quiet.foldl_fst _ (fun _ _ _ => ?_) _ ?_
    | with_reducible refine Quiet.foldl_fst_of (by with_reducible assumption) (fun _ _ _ => ?_) ?_
    | with_reducible refine Quiet.foldl_snd _ (fun _ _ _ => ?_) _ ?_
    | with_reducible refine Quiet.foldl_snd_of (by with_reducible assumption) (fun _ _ _ => ?_) ?_
    | with_reducible refine Quiet.foldl_thd _ (fun _ _ _ => ?_) _ ?_
    | with_reducible refine Quiet.foldl_thd_of (by with_reducible assumption) (fun _ _ _ => ?_) ?_
    | dsimp only
    | simp only [reduceIte, Bool.false_eq_true]
    | split
    | fail_if_no_progress ((with_reducible refine Quiet.put ?_ ?_) <;> first | exact rfl | skip)

theorem held_svcQual {a s : State} {x1} (h : Held a s) : Held a (State.svcQual s x1) := by
  unfold State.svcQual
  repeat' first
    | with_reducible refine Held.ite ?_ ?_
    | with_reducible refine Held.ite_snd ?_ ?_
    | with_reducible assumption
    | with_reducible apply Held.ofKept (kept_watchEvent (Kept.refl _))
    | with_reducible refine Held.foldl _ (fun _ _ _ => ?_) _ ?_
    | with_reducible refine Held.ite_snd_of (by with_reducible assumption) ?_ ?_
    | with_reducible refine Held.foldl_fst _ (fun _ _ _ => ?_) _ ?_
    | with_reducible refine Held.foldl_fst_of (by with_reducible assumption) (fun _ _ _ => ?_) ?_
    | with_reducible refine Held.foldl_snd _ (fun _ _ _ => ?_) _ ?_
    | with_reducible refine Held.foldl_snd_of (by with_reducible assumption) (fun _ _ _ => ?_) ?_
    | with_reducible refine Held.foldl_thd _ (fun _ _ _ => ?_) _ ?_
    | with_reducible refine Held.foldl_thd_of (by with_reducible assumption) (fun _ _ _ => ?_) ?_
    | dsimp only
    | simp only [reduceIte, Bool.false_eq_true]
    | split
    | fail_if_no_progress ((with_reducible refine Held.put ?_ ?_) <;> first | exact rfl | skip)

theorem held_svcEdge {a s : State} {x1} {x2} (h : Held a s) : Held a (State.svcEdge s x1 x2) := by
  unfold State.svcEdge
  repeat' first
    | with_reducible refine Held.ite ?_ ?_
    | with_reducible refine Held.ite_snd ?_ ?_
    | with_reducible assumption
    | with_reducible apply held_svcQual
    | with_reducible apply Held.ofQuiet (kept_lockKey (Quiet.refl _))
    | with_reducible apply Held.ofKept (kept_watchEvent (Kept.refl _))
    | with_reducible refine Held.foldl _ (fun _ _ _ => ?_) _ ?_
    | with_reducible refine Held.ite_snd_of (by with_reducible assumption) ?_ ?_
    | with_reducible refine Held.foldl_fst _ (fun _ _ _ => ?_) _ ?_
    | with_reducible refine Held.foldl_fst_of (by with_reducible assumption) (fun _ _ _ => ?_) ?_
    | with_reducible refine Held.foldl_snd _ (fun _ _ _ => ?_) _ ?_
    | with_reducible refine Held.foldl_snd_of (by with_reducible assumption) (fun _ _ _ => ?_) ?_
    | with_reducible refine Held.foldl_thd _ (fun _ _ _ => ?_) _ ?_
    | with_reducible refine Held.foldl_thd_of (by with_reducible assumption) (fun _ _ _ => ?_) ?_
    | dsimp only
    | simp only [reduceIte, Bool.false_eq_true]
    | split
    | fail_if_no_progress ((with_reducible refine Held.put ?_ ?_) <;> first | exact rfl | skip)

end Sys2Proof.Machine
end

