-- ==== Sys2Proof/Laws/KeptYazen.lean ====
section
/-! SUPPORT. What the operations of Machine/Yazen.lean leave alone (`Kept`, `Held`). -/

namespace Sys2Proof.Machine

theorem kept_modPtp {a s : State} {x1} (h : Quiet a s) : Quiet a (State.modPtp s x1) := by
  unfold State.modPtp
  repeat' first
    | with_reducible refine Quiet.ite ?_ ?_
    | with_reducible refine Quiet.ite_snd ?_ ?_
    | with_reducible assumption
    | with_reducible refine Quiet.foldl _ (fun _ _ _ => ?_) _ ?_
    | with_reducible refine Quiet.ite_snd_of (by with_reducible assumption) ?_ ?_
    | with_reducible refine Quiet.foldl_fst _ (fun _ _ _ => ?_) _ ?_
    | with_reducible refine Quiet.foldl_fst_of (by with_reducible assumption) (fun _ _ _ => ?_) ?_
    | with_reducible refine Quiet.foldl_snd _ (fun _ _ _ => ?_) _ ?_
    | with_reducible refine Quiet.foldl_snd_of (by with_reducible assumption) (fun _ _ _ => ?_) ?_
    | with_reducible refine Quiet.foldl_thd _ (fun _ _ _ => ?_) _ ?_
    | with_reducible refine Quiet.foldl_thd_of (by with_reducible assumption) (fun _ _ _ => ?_) ?_
    | dsimp only
    | simp only [reduceIte, Bool.false_eq_true]
    | split
    | fail_if_no_progress ((with_reducible refine Quiet.put ?_ ?_) <;> first | exact rfl | skip)

theorem kept_ptpQueue {a s : State} {x1} {x2} (h : Quiet a s) : Quiet a (State.ptpQueue s x1 x2) := by
  unfold State.ptpQueue
  repeat' first
    | with_reducible refine Quiet.ite ?_ ?_
    | with_reducible refine Quiet.ite_snd ?_ ?_
    | with_reducible assumption
    | with_reducible apply kept_modPort

theorem kept_clearMirrors {a s : State} (h : Kept a s) : Kept a (State.clearMirrors s) := by
  unfold State.clearMirrors
  repeat' first
    | with_reducible refine Kept.ite ?_ ?_
    | with_reducible refine Kept.ite_snd ?_ ?_
    | with_reducible assumption
    | with_reducible apply kept_putCell
    | with_reducible apply Kept.ofRan (kept_cellChange (Ran.refl _))
    | with_reducible refine Kept.foldl _ (fun _ _ _ => ?_) _ ?_
    | with_reducible refine Kept.ite_snd_of (by with_reducible assumption) ?_ ?_
    | with_reducible refine Kept.foldl_fst _ (fun _ _ _ => ?_) _ ?_
    | with_reducible refine Kept.foldl_fst_of (by with_reducible assumption) (fun _ _ _ => ?_) ?_
    | with_reducible refine Kept.foldl_snd _ (fun _ _ _ => ?_) _ ?_
    | with_reducible refine Kept.foldl_snd_of (by with_reducible assumption) (fun _ _ _ => ?_) ?_
    | with_reducible refine Kept.foldl_thd _ (fun _ _ _ => ?_) _ ?_
    | with_reducible refine Kept.foldl_thd_of (by with_reducible assumption) (fun _ _ _ => ?_) ?_
    | dsimp only
    | simp only [reduceIte, Bool.false_eq_true]
    | split
    | fail_if_no_progress ((with_reducible refine Kept.put ?_ ?_) <;> first | exact rfl | skip)

theorem kept_ptpSync {a s : State} {x1} {x2} (h : Kept a s) : Kept a (State.ptpSync s x1 x2) := by
  unfold State.ptpSync
  repeat' first
    | with_reducible refine Kept.ite ?_ ?_
    | with_reducible refine Kept.ite_snd ?_ ?_
    | with_reducible assumption
    | with_reducible apply kept_clearMirrors
    | with_reducible apply Kept.ofQuiet (kept_modPtp (Quiet.refl _))
    | with_reducible apply Kept.ofQuiet (kept_draw (Quiet.refl _))

theorem kept_ptpAnnounce {a s : State} {x1} {x2} (h : Quiet a s) : Quiet a (State.ptpAnnounce s x1 x2) := by
  unfold State.ptpAnnounce
  repeat' first
    | with_reducible refine Quiet.ite ?_ ?_
    | with_reducible refine Quiet.ite_snd ?_ ?_
    | with_reducible assumption
    | with_reducible apply kept_draw
    | with_reducible apply kept_modPtp
    | with_reducible refine Quiet.foldl _ (fun _ _ _ => ?_) _ ?_
    | with_reducible refine Quiet.ite_snd_of (by with_reducible assumption) ?_ ?_
    | with_reducible refine Quiet.foldl_fst _ (fun _ _ _ => ?_) _ ?_
    | with_reducible refine Quiet.foldl_fst_of (by with_reducible assumption) (fun _ _ _ => ?_) ?_
    | with_reducible refine Quiet.foldl_snd _ (fun _ _ _ => ?_) _ ?_
    | with_reducible refine Quiet.foldl_snd_of (by with_reducible assumption) (fun _ _ _ => ?_) ?_
    | with_reducible refine Quiet.foldl_thd _ (fun _ _ _ => ?_) _ ?_
    | with_reducible refine Quiet.foldl_thd_of (by with_reducible assumption) (fun _ _ _ => ?_) ?_
    | dsimp only
    | simp only [reduceIte, Bool.false_eq_true]
    | split

theorem kept_ptpRx {a s : State} {x1} {x2} (h : Kept a s) : Kept a (State.ptpRx s x1 x2) := by
  unfold State.ptpRx
  repeat' first
    | with_reducible refine Kept.ite ?_ ?_
    | with_reducible refine Kept.ite_snd ?_ ?_
    | with_reducible assumption
    | with_reducible apply kept_ptpSync
    | with_reducible apply Kept.ofQuiet (kept_ptpAnnounce (Quiet.refl _))
    | with_reducible apply Kept.ofQuiet (kept_ptpQueue (Quiet.refl _))
    | with_reducible apply Kept.ofQuiet (kept_modPtp (Quiet.refl _))
    | with_reducible refine Kept.foldl _ (fun _ _ _ => ?_) _ ?_
    | with_reducible refine Kept.ite_snd_of (by with_reducible assumption) ?_ ?_
    | with_reducible refine Kept.foldl_fst _ (fun _ _ _ => ?_) _ ?_
    | with_reducible refine Kept.foldl_fst_of (by with_reducible assumption) (fun _ _ _ => ?_) ?_
    | with_reducible refine Kept.foldl_snd _ (fun _ _ _ => ?_) _ ?_
    | with_reducible refine Kept.foldl_snd_of (by with_reducible assumption) (fun _ _ _ => ?_) ?_
    | with_reducible refine Kept.foldl_thd _ (fun _ _ _ => ?_) _ ?_
    | with_reducible refine Kept.foldl_thd_of (by with_reducible assumption) (fun _ _ _ => ?_) ?_
    | dsimp only
    | simp only [reduceIte, Bool.false_eq_true]
    | split

theorem kept_ptpTx {a s : State} {x1} {x2} (h : Quiet a s) : Quiet a (State.ptpTx s x1 x2) := by
  unfold State.ptpTx
  repeat' first
    | with_reducible refine Quiet.ite ?_ ?_
    | with_reducible refine Quiet.ite_snd ?_ ?_
    | with_reducible assumption
    | with_reducible apply kept_ptpQueue
    | with_reducible apply kept_modPtp
    | with_reducible refine Quiet.foldl _ (fun _ _ _ => ?_) _ ?_
    | with_reducible refine Quiet.ite_snd_of (by with_reducible assumption) ?_ ?_
    | with_reducible refine Quiet.foldl_fst _ (fun _ _ _ => ?_) _ ?_
    | with_reducible refine Quiet.foldl_fst_of (by with_reducible assumption) (fun _ _ _ => ?_) ?_
    | with_reducible refine Quiet.foldl_snd _ (fun _ _ _ => ?_) _ ?_
    | with_reducible refine Quiet.foldl_snd_of (by with_reducible assumption) (fun _ _ _ => ?_) ?_
    | with_reducible refine Quiet.foldl_thd _ (fun _ _ _ => ?_) _ ?_
    | with_reducible refine Quiet.foldl_thd_of (by with_reducible assumption) (fun _ _ _ => ?_) ?_
    | dsimp only
    | simp only [reduceIte, Bool.false_eq_true]
    | split

theorem kept_readPtpNow {a s : State} {x1} (h : Kept a s) : Kept a (State.readPtpNow s x1).2 := by
  unfold State.readPtpNow
  repeat' first
    | with_reducible refine Kept.ite ?_ ?_
    | with_reducible refine Kept.ite_snd ?_ ?_
    | with_reducible assumption
    | with_reducible apply kept_latchAll

theorem kept_readPtpNow_of {a s u : State} {x1} {w0} (e : State.readPtpNow s x1 = (w0, u)) (h : Kept a s) : Kept a u := by
  have := kept_readPtpNow (x1 := x1) h
  rw [e] at this
  exact this

theorem kept_cycleStart {a s : State} (h : Quiet a s) : Quiet a (State.cycleStart s) := by
  unfold State.cycleStart
  repeat' first
    | with_reducible refine Quiet.ite ?_ ?_
    | with_reducible refine Quiet.ite_snd ?_ ?_
    | with_reducible assumption
    | with_reducible apply kept_modYz
    | with_reducible apply kept_sendCredit

theorem kept_snapshot {a s : State} (h : Kept a s) : Kept a (State.snapshot s) := by
  unfold State.snapshot
  repeat' first
    | with_reducible refine Kept.ite ?_ ?_
    | with_reducible refine Kept.ite_snd ?_ ?_
    | with_reducible assumption
    | with_reducible apply kept_modCell
    | with_reducible apply Kept.ofQuiet (kept_setYz (Quiet.refl _))
    | with_reducible refine Kept.foldl _ (fun _ _ _ => ?_) _ ?_

theorem kept_cyclicPut {a s : State} {x1} (h : Quiet a s) : Quiet a (State.cyclicPut s x1) := by
  unfold State.cyclicPut
  repeat' first
    | with_reducible refine Quiet.ite ?_ ?_
    | with_reducible refine Quiet.ite_snd ?_ ?_
    | with_reducible assumption
    | with_reducible apply kept_modYz
    | with_reducible apply kept_modPort

theorem kept_cyclic {a s : State} (h : Quiet a s) : Quiet a (State.cyclic s) := by
  unfold State.cyclic
  repeat' first
    | with_reducible refine Quiet.ite ?_ ?_
    | with_reducible refine Quiet.ite_snd ?_ ?_
    | with_reducible assumption
    | with_reducible apply kept_modYz
    | with_reducible apply kept_cyclicPut
    | with_reducible refine Quiet.foldl _ (fun _ _ _ => ?_) _ ?_

theorem kept_ownFrameDrop {a s : State} {x1} (h : Quiet a s) : Quiet a (State.ownFrameDrop s x1) := by
  unfold State.ownFrameDrop
  repeat' first
    | with_reducible refine Quiet.ite ?_ ?_
    | with_reducible refine Quiet.ite_snd ?_ ?_
    | with_reducible assumption
    | with_reducible apply kept_modYz
    | with_reducible apply kept_modPort
    | with_reducible refine Quiet.foldl _ (fun _ _ _ => ?_) _ ?_
    | with_reducible refine Quiet.ite_snd_of (by with_reducible assumption) ?_ ?_
    | with_reducible refine Quiet.foldl_fst _ (fun _ _ _ => ?_) _ ?_
    | with_reducible refine Quiet.foldl_fst_of (by with_reducible assumption) (fun _ _ _ => ?_) ?_
    | with_reducible refine Quiet.foldl_snd _ (fun _ _ _ => ?_) _ ?_
    | with_reducible refine Quiet.foldl_snd_of (by with_reducible assumption) (fun _ _ _ => ?_) ?_
    | with_reducible refine Quiet.foldl_thd _ (fun _ _ _ => ?_) _ ?_
    | with_reducible refine Quiet.foldl_thd_of (by with_reducible assumption) (fun _ _ _ => ?_) ?_
    | dsimp only
    | simp only [reduceIte, Bool.false_eq_true]
    | split

theorem kept_forwardDrop {a s : State} {x1} (h : Quiet a s) : Quiet a (State.forwardDrop s x1) := by
  unfold State.forwardDrop
  repeat' first
    | with_reducible refine Quiet.ite ?_ ?_
    | with_reducible refine Quiet.ite_snd ?_ ?_
    | with_reducible assumption
    | with_reducible apply kept_modPort
    | with_reducible apply kept_modYz
    | with_reducible apply kept_freeSlot
    | with_reducible refine Quiet.foldl _ (fun _ _ _ => ?_) _ ?_
    | with_reducible refine Quiet.ite_snd_of (by with_reducible assumption) ?_ ?_
    | with_reducible refine Quiet.foldl_fst _ (fun _ _ _ => ?_) _ ?_
    | with_reducible refine Quiet.foldl_fst_of (by with_reducible assumption) (fun _ _ _ => ?_) ?_
    | with_reducible refine Quiet.foldl_snd _ (fun _ _ _ => ?_) _ ?_
    | with_reducible refine Quiet.foldl_snd_of (by with_reducible assumption) (fun _ _ _ => ?_) ?_
    | with_reducible refine Quiet.foldl_thd _ (fun _ _ _ => ?_) _ ?_
    | with_reducible refine Quiet.foldl_thd_of (by with_reducible assumption) (fun _ _ _ => ?_) ?_
    | dsimp only
    | simp only [reduceIte, Bool.false_eq_true]
    | split
    | fail_if_no_progress ((with_reducible refine Quiet.put ?_ ?_) <;> first | exact rfl | skip)

theorem kept_yzForward {a s : State} {x1} {x2} {x3} (h : Quiet a s) : Quiet a (State.yzForward s x1 x2 x3) := by
  unfold State.yzForward
  repeat' first
    | with_reducible refine Quiet.ite ?_ ?_
    | with_reducible refine Quiet.ite_snd ?_ ?_
    | with_reducible assumption
    | with_reducible apply kept_yzSend
    | with_reducible apply kept_modYz
    | with_reducible apply kept_freeSlot
    | with_reducible refine Quiet.foldl _ (fun _ _ _ => ?_) _ ?_
    | with_reducible refine Quiet.ite_snd_of (by with_reducible assumption) ?_ ?_
    | with_reducible refine Quiet.foldl_fst _ (fun _ _ _ => ?_) _ ?_
    | with_reducible refine Quiet.foldl_fst_of (by with_reducible assumption) (fun _ _ _ => ?_) ?_
    | with_reducible refine Quiet.foldl_snd _ (fun _ _ _ => ?_) _ ?_
    | with_reducible refine Quiet.foldl_snd_of (by with_reducible assumption) (fun _ _ _ => ?_) ?_
    | with_reducible refine Quiet.foldl_thd _ (fun _ _ _ => ?_) _ ?_
    | with_reducible refine Quiet.foldl_thd_of (by with_reducible assumption) (fun _ _ _ => ?_) ?_
    | dsimp only
    | simp only [reduceIte, Bool.false_eq_true]
    | split

theorem kept_mirrorSample {a s : State} {x1} {x2} (h : Kept a s) : Kept a (State.mirrorSample s x1 x2).1 := by
  unfold State.mirrorSample
  repeat' first
    | with_reducible refine Kept.ite ?_ ?_
    | with_reducible refine Kept.ite_snd ?_ ?_
    | with_reducible assumption
    | with_reducible apply kept_setCell
    | with_reducible apply kept_loadCell
    | with_reducible refine kept_loadCell_of (by with_reducible assumption) ?_
    | with_reducible apply kept_reseedAt
    | with_reducible apply kept_stepCell
    | with_reducible refine kept_stepCell_of (by with_reducible assumption) ?_
    | with_reducible apply kept_putCell
    | with_reducible apply Kept.ofRan (kept_cellChange (Ran.refl _))
    | with_reducible refine Kept.foldl _ (fun _ _ _ => ?_) _ ?_
    | with_reducible refine Kept.ite_snd_of (by with_reducible assumption) ?_ ?_
    | with_reducible refine Kept.foldl_fst _ (fun _ _ _ => ?_) _ ?_
    | with_reducible refine Kept.foldl_fst_of (by with_reducible assumption) (fun _ _ _ => ?_) ?_
    | with_reducible refine Kept.foldl_snd _ (fun _ _ _ => ?_) _ ?_
    | with_reducible refine Kept.foldl_snd_of (by with_reducible assumption) (fun _ _ _ => ?_) ?_
    | with_reducible refine Kept.foldl_thd _ (fun _ _ _ => ?_) _ ?_
    | with_reducible refine Kept.foldl_thd_of (by with_reducible assumption) (fun _ _ _ => ?_) ?_
    | dsimp only
    | simp only [reduceIte, Bool.false_eq_true]
    | split
    | fail_if_no_progress ((with_reducible refine Kept.put ?_ ?_) <;> first | exact rfl | skip)

theorem kept_mirrorSample_of {a s u : State} {x1} {x2} {w0} (e : State.mirrorSample s x1 x2 = (u, w0)) (h : Kept a s) : Kept a u := by
  have := kept_mirrorSample (x1 := x1) (x2 := x2) h
  rw [e] at this
  exact this

theorem kept_applySamples {a s : State} {x1} {x2} (h : Kept a s) : Kept a (State.applySamples s x1 x2) := by
  unfold State.applySamples
  repeat' first
    | with_reducible refine Kept.ite ?_ ?_
    | with_reducible refine Kept.ite_snd ?_ ?_
    | with_reducible assumption
    | with_reducible apply kept_mirrorSample
    | with_reducible refine kept_mirrorSample_of (by with_reducible assumption) ?_
    | with_reducible apply Kept.ofRan (kept_react (Ran.refl _))
    | with_reducible refine Kept.foldl _ (fun _ _ _ => ?_) _ ?_
    | with_reducible refine Kept.ite_snd_of (by with_reducible assumption) ?_ ?_
    | with_reducible refine Kept.foldl_fst _ (fun _ _ _ => ?_) _ ?_

theorem held_cyclicRx {a s : State} {x1} (h : Held a s) : Held a (State.cyclicRx s x1) := by
  unfold State.cyclicRx
  repeat' first
    | with_reducible refine Held.ite ?_ ?_
    | with_reducible refine Held.ite_snd ?_ ?_
    | with_reducible assumption
    | with_reducible apply Held.ofQuiet (kept_report (Quiet.refl _))
    | with_reducible apply Held.ofQuiet (kept_modYz (Quiet.refl _))
    | with_reducible apply Held.ofQuiet (kept_setYz (Quiet.refl _))
    | with_reducible apply Held.ofKept (kept_applySamples (Kept.refl _))
    | with_reducible apply Held.ofQuiet (kept_cicEdge (Quiet.refl _))
    | with_reducible refine Held.foldl _ (fun _ _ _ => ?_) _ ?_

theorem kept_lineStopRx {a s : State} {x1} (h : Quiet a s) : Quiet a (State.lineStopRx s x1) := by
  unfold State.lineStopRx
  repeat' first
    | with_reducible refine Quiet.ite ?_ ?_
    | with_reducible refine Quiet.ite_snd ?_ ?_
    | with_reducible assumption
    | with_reducible apply kept_setYz
    | with_reducible apply kept_report

theorem kept_creditRx {a s : State} {x1} {x2} (h : Quiet a s) : Quiet a (State.creditRx s x1 x2) := by
  unfold State.creditRx
  repeat' first
    | with_reducible refine Quiet.ite ?_ ?_
    | with_reducible refine Quiet.ite_snd ?_ ?_
    | with_reducible assumption
    | with_reducible apply kept_modYz

theorem held_yazenRx {a s : State} (h : Held a s) : Held a (State.yazenRx s) := by
  unfold State.yazenRx
  repeat' first
    | with_reducible refine Held.ite ?_ ?_
    | with_reducible refine Held.ite_snd ?_ ?_
    | with_reducible assumption
    | with_reducible apply Held.ofQuiet (kept_yzForward (Quiet.refl _))
    | with_reducible apply Held.ofQuiet (kept_modYz (Quiet.refl _))
    | with_reducible apply held_cyclicRx
    | with_reducible apply Held.ofQuiet (kept_lineStopRx (Quiet.refl _))
    | with_reducible apply Held.ofQuiet (kept_creditRx (Quiet.refl _))
    | with_reducible refine Held.foldl _ (fun _ _ _ => ?_) _ ?_
    | with_reducible refine Held.ite_snd_of (by with_reducible assumption) ?_ ?_
    | with_reducible refine Held.foldl_snd _ (fun _ _ _ => ?_) _ ?_
    | dsimp only
    | simp only [reduceIte, Bool.false_eq_true]
    | split

theorem kept_stopFrames {a s : State} {x1} {x2} (h : Quiet a s) : Quiet a (State.stopFrames s x1 x2) := by
  unfold State.stopFrames
  repeat' first
    | with_reducible refine Quiet.ite ?_ ?_
    | with_reducible refine Quiet.ite_snd ?_ ?_
    | with_reducible assumption
    | with_reducible apply kept_yzSend
    | with_reducible refine Quiet.foldl _ (fun _ _ _ => ?_) _ ?_

theorem kept_lineStop {a s : State} {x1} (h : Quiet a s) : Quiet a (State.lineStop s x1) := by
  unfold State.lineStop
  repeat' first
    | with_reducible refine Quiet.ite ?_ ?_
    | with_reducible refine Quiet.ite_snd ?_ ?_
    | with_reducible assumption
    | with_reducible apply kept_stopFrames
    | with_reducible apply kept_setYz

theorem kept_stopWrite {a s : State} {x1} (h : Quiet a s) : Quiet a (State.stopWrite s x1) := by
  unfold State.stopWrite
  repeat' first
    | with_reducible refine Quiet.ite ?_ ?_
    | with_reducible refine Quiet.ite_snd ?_ ?_
    | with_reducible assumption
    | with_reducible apply kept_modYz
    | with_reducible apply kept_lineStop

theorem kept_stopRepeat {a s : State} (h : Quiet a s) : Quiet a (State.stopRepeat s) := by
  unfold State.stopRepeat
  repeat' first
    | with_reducible refine Quiet.ite ?_ ?_
    | with_reducible refine Quiet.ite_snd ?_ ?_
    | with_reducible assumption
    | with_reducible apply kept_modYz
    | with_reducible apply kept_stopFrames
    | with_reducible refine Quiet.foldl _ (fun _ _ _ => ?_) _ ?_
    | with_reducible refine Quiet.ite_snd_of (by with_reducible assumption) ?_ ?_
    | with_reducible refine Quiet.foldl_fst _ (fun _ _ _ => ?_) _ ?_
    | with_reducible refine Quiet.foldl_fst_of (by with_reducible assumption) (fun _ _ _ => ?_) ?_
    | with_reducible refine Quiet.foldl_snd _ (fun _ _ _ => ?_) _ ?_
    | with_reducible refine Quiet.foldl_snd_of (by with_reducible assumption) (fun _ _ _ => ?_) ?_
    | with_reducible refine Quiet.foldl_thd _ (fun _ _ _ => ?_) _ ?_
    | with_reducible refine Quiet.foldl_thd_of (by with_reducible assumption) (fun _ _ _ => ?_) ?_
    | dsimp only
    | simp only [reduceIte, Bool.false_eq_true]
    | split

end Sys2Proof.Machine
end

