-- ==== Sys2Proof/Laws/KeptResets.lean ====
section
/-! SUPPORT. What the operations of Machine/Resets.lean leave alone (`Kept`, `Held`). -/

namespace Sys2Proof.Machine

theorem kept_setFaultN {a s : State} (h : Quiet a s) : Quiet a (State.setFaultN s) := by
  unfold State.setFaultN
  repeat' first
    | with_reducible refine Quiet.ite ?_ ?_
    | with_reducible refine Quiet.ite_snd ?_ ?_
    | with_reducible assumption
    | with_reducible refine Quiet.foldl _ (fun _ _ _ => ?_) _ ?_
    | with_reducible refine Quiet.ite_snd_of (by with_reducible assumption) ?_ ?_
    | with_reducible refine Quiet.foldl_fst _ (fun _ _ _ => ?_) _ ?_
    | with_reducible refine Quiet.foldl_fst_of (by with_reducible assumption) (fun _ _ _ => ?_) ?_
    | with_reducible refine Quiet.foldl_snd _ (fun _ _ _ => ?_) _ ?_
    | with_reducible refine Quiet.foldl_snd_of (by with_reducible assumption) (fun _ _ _ => ?_) ?_
    | with_reducible refine Quiet.foldl_thd _ (fun _ _ _ => ?_) _ ?_
    | with_reducible refine Quiet.foldl_thd_of (by with_reducible assumption) (fun _ _ _ => ?_) ?_
    | dsimp only
    | simp only [reduceIte, Bool.false_eq_true]
    | split
    | fail_if_no_progress ((with_reducible refine Quiet.put ?_ ?_) <;> first | exact rfl | skip)

theorem kept_restUnit {a s : State} {x1} (h : Quiet a s) : Quiet a (State.restUnit s x1) := by
  unfold State.restUnit
  repeat' first
    | with_reducible refine Quiet.ite ?_ ?_
    | with_reducible refine Quiet.ite_snd ?_ ?_
    | with_reducible assumption
    | with_reducible apply kept_setOu
    | with_reducible apply kept_setPin

theorem kept_restUnits {a s : State} (h : Quiet a s) : Quiet a (State.restUnits s) := by
  unfold State.restUnits
  repeat' first
    | with_reducible refine Quiet.ite ?_ ?_
    | with_reducible refine Quiet.ite_snd ?_ ?_
    | with_reducible assumption
    | with_reducible apply kept_restUnit
    | with_reducible refine Quiet.foldl _ (fun _ _ _ => ?_) _ ?_

theorem kept_resetCores {a s : State} (h : Kept a s) : Kept a (State.resetCores s) := by
  unfold State.resetCores
  repeat' first
    | with_reducible refine Kept.ite ?_ ?_
    | with_reducible refine Kept.ite_snd ?_ ?_
    | with_reducible assumption
    | with_reducible apply Kept.ofQuiet (kept_modCore (Quiet.refl _))
    | with_reducible apply kept_coreInReset
    | with_reducible refine Kept.foldl _ (fun _ _ _ => ?_) _ ?_

theorem Mem.resetCounters_wf (m : Mem) : m.resetCounters.wf = m.wf := rfl

theorem held_functionReset {a s : State} {x1} {x2} (h : Held a s) : Held a (State.functionReset s x1 x2) := by
  unfold State.functionReset
  extract_lets s1
  have h1 : Held a s1 := Held.ofQuiet (kept_lockKey (.refl _)) (Held.ofQuiet (kept_restUnits (.refl _)) (Held.ofKept (kept_resetCores (kept_mbReset (.refl _))) h))
  clear_value s1
  exact Held.put h1 (Mem.resetCounters_wf _)

theorem kept_startOuts {a s : State} (h : Quiet a s) : Quiet a (State.startOuts s) := by
  unfold State.startOuts
  repeat' first
    | with_reducible refine Quiet.ite ?_ ?_
    | with_reducible refine Quiet.ite_snd ?_ ?_
    | with_reducible assumption
    | with_reducible apply kept_restUnits
    | with_reducible apply kept_setPermitIn
    | with_reducible refine Quiet.foldl _ (fun _ _ _ => ?_) _ ?_

theorem held_bare {a s : State} (h : Held a s) : Held a (State.bare s) := by
  exact ⟨h.pending, fun _ => rfl⟩

theorem held_startUp {a s : State} (h : Held a s) : Held a (State.startUp s) := by
  unfold State.startUp
  extract_lets bad r b s1 s2
  have h1 : Held a s1 := Held.put h rfl
  have h2 : Held a s2 := Held.ofQuiet (kept_startOuts (.refl _)) h1
  clear_value s2
  split
  · exact Held.ofQuiet (kept_setFaultN (kept_report (.refl _))) h2
  · exact Held.ofQuiet (kept_setFaultN (.refl _)) h2

end Sys2Proof.Machine
end

