-- ==== Sys2Proof/Laws/KeptFaults.lean ====
section
/-! SUPPORT. What the operations of Machine/Faults.lean leave alone (`Kept`, `Held`). -/

namespace Sys2Proof.Machine

theorem kept_modFc {a s : State} {x1} (h : Quiet a s) : Quiet a (State.modFc s x1) := by
  unfold State.modFc
  repeat' first
    | with_reducible refine Quiet.ite ?_ ?_
    | with_reducible refine Quiet.ite_snd ?_ ?_
    | with_reducible assumption
    | with_reducible refine Quiet.foldl _ (fun _ _ _ => ?_) _ ?_
    | with_reducible refine Quiet.ite_snd_of (by with_reducible assumption) ?_ ?_
    | with_reducible refine Quiet.foldl_fst _ (fun _ _ _ => ?_) _ ?_
    | with_reducible refine Quiet.foldl_fst_of (by with_reducible assumption) (fun _ _ _ => ?_) ?_
    | with_reducible refine Quiet.foldl_snd _ (fun _ _ _ => ?_) _ ?_
    | with_reducible refine Quiet.foldl_snd_of (by with_reducible assumption) (fun _ _ _ => ?_) ?_
    | with_reducible refine Quiet.foldl_thd _ (fun _ _ _ => ?_) _ ?_
    | with_reducible refine Quiet.foldl_thd_of (by with_reducible assumption) (fun _ _ _ => ?_) ?_
    | dsimp only
    | simp only [reduceIte, Bool.false_eq_true]
    | split
    | fail_if_no_progress ((with_reducible refine Quiet.put ?_ ?_) <;> first | exact rfl | skip)

theorem kept_fcNotify {a s : State} {x1} (h : Quiet a s) : Quiet a (State.fcNotify s x1) := by
  unfold State.fcNotify
  repeat' first
    | with_reducible refine Quiet.ite ?_ ?_
    | with_reducible refine Quiet.ite_snd ?_ ?_
    | with_reducible assumption
    | with_reducible apply kept_msixNotify

theorem kept_fcWrite {a s : State} {x1} {x2} {x3} (h : Quiet a s) : Quiet a (State.fcWrite s x1 x2 x3) := by
  induction x3 generalizing s x1 x2 with
  | nil =>
   unfold State.fcWrite
   repeat' first
    | with_reducible refine Quiet.ite ?_ ?_
    | with_reducible refine Quiet.ite_snd ?_ ?_
    | with_reducible assumption
  | cons p r ih =>
   unfold State.fcWrite
   repeat' first
    | with_reducible apply ih
    | with_reducible refine Quiet.ite ?_ ?_
    | with_reducible refine Quiet.ite_snd ?_ ?_
    | with_reducible assumption
    | with_reducible apply kept_modFc
    | with_reducible apply kept_fcNotify

theorem kept_fcCount {a s : State} {x1} (h : Quiet a s) : Quiet a (State.fcCount s x1) := by
  unfold State.fcCount
  repeat' first
    | with_reducible refine Quiet.ite ?_ ?_
    | with_reducible refine Quiet.ite_snd ?_ ?_
    | with_reducible assumption
    | with_reducible apply kept_setFcSrc

theorem kept_fcRecord {a s : State} {x1} (h : Quiet a s) : Quiet a (State.fcRecord s x1) := by
  unfold State.fcRecord
  repeat' first
    | with_reducible refine Quiet.ite ?_ ?_
    | with_reducible refine Quiet.ite_snd ?_ ?_
    | with_reducible assumption
    | with_reducible apply kept_fcCount
    | with_reducible apply kept_fcWrite
    | with_reducible apply kept_modFc
    | with_reducible refine Quiet.foldl _ (fun _ _ _ => ?_) _ ?_

theorem kept_safeGo {a s : State} (h : Quiet a s) : Quiet a (State.safeGo s) := by
  unfold State.safeGo
  repeat' first
    | with_reducible refine Quiet.ite ?_ ?_
    | with_reducible refine Quiet.ite_snd ?_ ?_
    | with_reducible assumption
    | with_reducible apply kept_safeRest
    | with_reducible apply kept_modFc
    | with_reducible apply kept_haltAll
    | with_reducible apply kept_lineStop
    | with_reducible apply kept_dropEdges
    | with_reducible refine Quiet.foldl _ (fun _ _ _ => ?_) _ ?_

theorem held_fcReact {a s : State} {x1} (h : Held a s) : Held a (State.fcReact s x1) := by
  unfold State.fcReact
  repeat' first
    | with_reducible refine Held.ite ?_ ?_
    | with_reducible refine Held.ite_snd ?_ ?_
    | with_reducible assumption
    | with_reducible apply Held.ofRan (kept_react (Ran.refl _))
    | with_reducible apply Held.ofQuiet (kept_haltDomain (Quiet.refl _))
    | with_reducible apply Held.ofQuiet (kept_modFc (Quiet.refl _))
    | with_reducible apply Held.ofQuiet (kept_safeGo (Quiet.refl _))
    | with_reducible apply held_functionReset
    | with_reducible refine Held.foldl _ (fun _ _ _ => ?_) _ ?_
    | with_reducible refine Held.ite_snd_of (by with_reducible assumption) ?_ ?_
    | with_reducible refine Held.foldl_fst _ (fun _ _ _ => ?_) _ ?_
    | with_reducible refine Held.foldl_fst_of (by with_reducible assumption) (fun _ _ _ => ?_) ?_
    | with_reducible refine Held.foldl_snd _ (fun _ _ _ => ?_) _ ?_
    | with_reducible refine Held.foldl_snd_of (by with_reducible assumption) (fun _ _ _ => ?_) ?_
    | with_reducible refine Held.foldl_thd _ (fun _ _ _ => ?_) _ ?_
    | with_reducible refine Held.foldl_thd_of (by with_reducible assumption) (fun _ _ _ => ?_) ?_
    | dsimp only
    | simp only [reduceIte, Bool.false_eq_true]
    | split
    | fail_if_no_progress ((with_reducible refine Held.put ?_ ?_) <;> first | exact rfl | skip)

theorem held_fcEvents {a s : State} {x1} (h : Held a s) : Held a (State.fcEvents s x1) := by
  unfold State.fcEvents
  repeat' first
    | with_reducible refine Held.ite ?_ ?_
    | with_reducible refine Held.ite_snd ?_ ?_
    | with_reducible assumption
    | with_reducible apply Held.ofQuiet (kept_setFaultN (Quiet.refl _))
    | with_reducible apply held_fcReact
    | with_reducible apply Held.ofQuiet (kept_fcRecord (Quiet.refl _))

theorem held_fcSample {a s : State} {x1} (h : Held a s) : Held a (State.fcSample s x1) := by
  unfold State.fcSample
  repeat' first
    | with_reducible refine Held.ite ?_ ?_
    | with_reducible refine Held.ite_snd ?_ ?_
    | with_reducible assumption
    | with_reducible apply held_fcEvents
    | with_reducible apply Held.ofQuiet (kept_modFc (Quiet.refl _))

theorem held_fcSafe {a s : State} {x1} (h : Held a s) : Held a (State.fcSafe s x1) := by
  unfold State.fcSafe
  repeat' first
    | with_reducible refine Held.ite ?_ ?_
    | with_reducible refine Held.ite_snd ?_ ?_
    | with_reducible assumption
    | with_reducible apply Held.ofQuiet (kept_modFc (Quiet.refl _))
    | with_reducible apply held_fcEvents
    | with_reducible apply Held.ofQuiet (kept_setFaultN (Quiet.refl _))

theorem kept_fcTkey {a s : State} {x1} {x2} (h : Quiet a s) : Quiet a (State.fcTkey s x1 x2) := by
  unfold State.fcTkey
  repeat' first
    | with_reducible refine Quiet.ite ?_ ?_
    | with_reducible refine Quiet.ite_snd ?_ ?_
    | with_reducible assumption
    | with_reducible apply kept_modFc
    | with_reducible apply kept_lockKey
    | with_reducible refine Quiet.foldl _ (fun _ _ _ => ?_) _ ?_
    | with_reducible refine Quiet.ite_snd_of (by with_reducible assumption) ?_ ?_
    | with_reducible refine Quiet.foldl_fst _ (fun _ _ _ => ?_) _ ?_
    | with_reducible refine Quiet.foldl_fst_of (by with_reducible assumption) (fun _ _ _ => ?_) ?_
    | with_reducible refine Quiet.foldl_snd _ (fun _ _ _ => ?_) _ ?_
    | with_reducible refine Quiet.foldl_snd_of (by with_reducible assumption) (fun _ _ _ => ?_) ?_
    | with_reducible refine Quiet.foldl_thd _ (fun _ _ _ => ?_) _ ?_
    | with_reducible refine Quiet.foldl_thd_of (by with_reducible assumption) (fun _ _ _ => ?_) ?_
    | dsimp only
    | simp only [reduceIte, Bool.false_eq_true]
    | split

theorem kept_fcLock {a s : State} {x1} (h : Quiet a s) : Quiet a (State.fcLock s x1) := by
  unfold State.fcLock
  repeat' first
    | with_reducible refine Quiet.ite ?_ ?_
    | with_reducible refine Quiet.ite_snd ?_ ?_
    | with_reducible assumption
    | with_reducible apply kept_modFc

theorem kept_fcFirstClr {a s : State} {x1} (h : Quiet a s) : Quiet a (State.fcFirstClr s x1) := by
  unfold State.fcFirstClr
  repeat' first
    | with_reducible refine Quiet.ite ?_ ?_
    | with_reducible refine Quiet.ite_snd ?_ ?_
    | with_reducible assumption
    | with_reducible apply kept_modFc

theorem kept_readEntry {a s : State} {x1} {x2} {x3} (h : Kept a s) : Kept a (State.readEntry s x1 x2 x3).2 := by
  unfold State.readEntry
  repeat' first
    | with_reducible refine Kept.ite ?_ ?_
    | with_reducible refine Kept.ite_snd ?_ ?_
    | with_reducible assumption
    | with_reducible apply kept_latchAll

theorem kept_readEntry_of {a s u : State} {x1} {x2} {x3} {w0} (e : State.readEntry s x1 x2 x3 = (w0, u)) (h : Kept a s) : Kept a u := by
  have := kept_readEntry (x1 := x1) (x2 := x2) (x3 := x3) h
  rw [e] at this
  exact this

theorem kept_readFirst {a s : State} {x1} (h : Kept a s) : Kept a (State.readFirst s x1).2 := by
  unfold State.readFirst
  repeat' first
    | with_reducible refine Kept.ite ?_ ?_
    | with_reducible refine Kept.ite_snd ?_ ?_
    | with_reducible assumption
    | with_reducible apply kept_readEntry

theorem kept_readFirst_of {a s u : State} {x1} {w0} (e : State.readFirst s x1 = (w0, u)) (h : Kept a s) : Kept a u := by
  have := kept_readFirst (x1 := x1) h
  rw [e] at this
  exact this

theorem kept_readTrail {a s : State} {x1} {x2} (h : Kept a s) : Kept a (State.readTrail s x1 x2).2 := by
  unfold State.readTrail
  repeat' first
    | with_reducible refine Kept.ite ?_ ?_
    | with_reducible refine Kept.ite_snd ?_ ?_
    | with_reducible assumption
    | with_reducible apply kept_readEntry

theorem kept_readTrail_of {a s u : State} {x1} {x2} {w0} (e : State.readTrail s x1 x2 = (w0, u)) (h : Kept a s) : Kept a u := by
  have := kept_readTrail (x1 := x1) (x2 := x2) h
  rw [e] at this
  exact this

theorem kept_readSafeT {a s : State} {x1} (h : Kept a s) : Kept a (State.readSafeT s x1).2 := by
  unfold State.readSafeT
  repeat' first
    | with_reducible refine Kept.ite ?_ ?_
    | with_reducible refine Kept.ite_snd ?_ ?_
    | with_reducible assumption
    | with_reducible apply kept_latch

theorem kept_readSafeT_of {a s u : State} {x1} {w0} (e : State.readSafeT s x1 = (w0, u)) (h : Kept a s) : Kept a u := by
  have := kept_readSafeT (x1 := x1) h
  rw [e] at this
  exact this

theorem kept_fcReject {a s : State} (h : Quiet a s) : Quiet a (State.fcReject s) := by
  unfold State.fcReject
  repeat' first
    | with_reducible refine Quiet.ite ?_ ?_
    | with_reducible refine Quiet.ite_snd ?_ ?_
    | with_reducible assumption
    | with_reducible apply kept_modFc

theorem kept_fcCtrl {a s : State} {x1} (h : Quiet a s) : Quiet a (State.fcCtrl s x1) := by
  unfold State.fcCtrl
  repeat' first
    | with_reducible refine Quiet.ite ?_ ?_
    | with_reducible refine Quiet.ite_snd ?_ ?_
    | with_reducible assumption
    | with_reducible apply kept_fcReject
    | with_reducible apply kept_setFaultN
    | with_reducible apply kept_modFc

theorem kept_fcVec {a s : State} {x1} {x2} (h : Quiet a s) : Quiet a (State.fcVec s x1 x2) := by
  unfold State.fcVec
  repeat' first
    | with_reducible refine Quiet.ite ?_ ?_
    | with_reducible refine Quiet.ite_snd ?_ ?_
    | with_reducible assumption
    | with_reducible apply kept_fcReject
    | with_reducible apply kept_modFc

theorem kept_fcSrcWrite {a s : State} {x1} {x2} (h : Quiet a s) : Quiet a (State.fcSrcWrite s x1 x2) := by
  unfold State.fcSrcWrite
  repeat' first
    | with_reducible refine Quiet.ite ?_ ?_
    | with_reducible refine Quiet.ite_snd ?_ ?_
    | with_reducible assumption
    | with_reducible apply kept_fcReject
    | with_reducible apply kept_setFcSrc

theorem kept_fcForce {a s : State} {x1} {x2} (h : Quiet a s) : Quiet a (State.fcForce s x1 x2) := by
  unfold State.fcForce
  repeat' first
    | with_reducible refine Quiet.ite ?_ ?_
    | with_reducible refine Quiet.ite_snd ?_ ?_
    | with_reducible assumption
    | with_reducible apply kept_modFc
    | with_reducible apply kept_fcReject

theorem kept_fcTest {a s : State} {x1} (h : Quiet a s) : Quiet a (State.fcTest s x1) := by
  unfold State.fcTest
  repeat' first
    | with_reducible refine Quiet.ite ?_ ?_
    | with_reducible refine Quiet.ite_snd ?_ ?_
    | with_reducible assumption
    | with_reducible apply kept_modFc
    | with_reducible apply kept_fcReject

theorem kept_fcLatch {a s : State} {x1} {x2} (h : Quiet a s) : Quiet a (State.fcLatch s x1 x2) := by
  unfold State.fcLatch
  repeat' first
    | with_reducible refine Quiet.ite ?_ ?_
    | with_reducible refine Quiet.ite_snd ?_ ?_
    | with_reducible assumption
    | with_reducible apply kept_setFaultN
    | with_reducible apply kept_modFc

end Sys2Proof.Machine
end

