-- ==== Sys2Proof/Laws/KeptStartup.lean ====
section
/-! SUPPORT. What the operations of Machine/Startup.lean leave alone (`Kept`, `Held`). -/

namespace Sys2Proof.Machine

theorem kept_excursion {a s : State} {x1} (h : Quiet a s) : Quiet a (State.excursion s x1) := by
  unfold State.excursion
  repeat' first
    | with_reducible refine Quiet.ite ?_ ?_
    | with_reducible refine Quiet.ite_snd ?_ ?_
    | with_reducible assumption
    | with_reducible apply kept_report
    | with_reducible refine Quiet.foldl _ (fun _ _ _ => ?_) _ ?_
    | with_reducible refine Quiet.ite_snd_of (by with_reducible assumption) ?_ ?_
    | with_reducible refine Quiet.foldl_fst _ (fun _ _ _ => ?_) _ ?_
    | with_reducible refine Quiet.foldl_fst_of (by with_reducible assumption) (fun _ _ _ => ?_) ?_
    | with_reducible refine Quiet.foldl_snd _ (fun _ _ _ => ?_) _ ?_
    | with_reducible refine Quiet.foldl_snd_of (by with_reducible assumption) (fun _ _ _ => ?_) ?_
    | with_reducible refine Quiet.foldl_thd _ (fun _ _ _ => ?_) _ ?_
    | with_reducible refine Quiet.foldl_thd_of (by with_reducible assumption) (fun _ _ _ => ?_) ?_
    | dsimp only
    | simp only [reduceIte, Bool.false_eq_true]
    | split
    | fail_if_no_progress ((with_reducible refine Quiet.put ?_ ?_) <;> first | exact rfl | skip)

theorem held_payCommit {a s : State} (h : Held a s) : Held a (State.payCommit s) := by
  unfold State.payCommit
  repeat' first
    | with_reducible refine Held.ite ?_ ?_
    | with_reducible refine Held.ite_snd ?_ ?_
    | with_reducible assumption
    | with_reducible apply Held.ofQuiet (kept_emit (Quiet.refl _))
    | with_reducible refine Held.foldl _ (fun _ _ _ => ?_) _ ?_
    | with_reducible refine Held.ite_snd_of (by with_reducible assumption) ?_ ?_
    | with_reducible refine Held.foldl_snd _ (fun _ _ _ => ?_) _ ?_
    | dsimp only
    | simp only [reduceIte, Bool.false_eq_true]
    | split
    | fail_if_no_progress ((with_reducible refine Held.put ?_ ?_) <;> first | exact rfl | skip)

theorem held_powerDown {a s : State} (h : Held a s) : Held a (State.powerDown s) := by
  unfold State.powerDown
  repeat' first
    | with_reducible refine Held.ite ?_ ?_
    | with_reducible refine Held.ite_snd ?_ ?_
    | with_reducible assumption
    | with_reducible apply held_bare
    | with_reducible refine Held.foldl _ (fun _ _ _ => ?_) _ ?_
    | with_reducible refine Held.ite_snd_of (by with_reducible assumption) ?_ ?_
    | with_reducible refine Held.foldl_snd _ (fun _ _ _ => ?_) _ ?_
    | dsimp only
    | simp only [reduceIte, Bool.false_eq_true]
    | split
    | fail_if_no_progress ((with_reducible refine Held.put ?_ ?_) <;> first | exact rfl | skip)

theorem held_pinReset {a s : State} (h : Held a s) : Held a (State.pinReset s) := by
  unfold State.pinReset
  repeat' first
    | with_reducible refine Held.ite ?_ ?_
    | with_reducible refine Held.ite_snd ?_ ?_
    | with_reducible assumption
    | with_reducible apply held_bare
    | with_reducible apply held_startUp
    | with_reducible refine Held.foldl _ (fun _ _ _ => ?_) _ ?_
    | with_reducible refine Held.ite_snd_of (by with_reducible assumption) ?_ ?_
    | with_reducible refine Held.foldl_snd _ (fun _ _ _ => ?_) _ ?_
    | dsimp only
    | simp only [reduceIte, Bool.false_eq_true]
    | split
    | fail_if_no_progress ((with_reducible refine Held.put ?_ ?_) <;> first | exact rfl | skip)

theorem held_resetPin {a s : State} {x1} (h : Held a s) : Held a (State.resetPin s x1) := by
  unfold State.resetPin
  repeat' first
    | with_reducible refine Held.ite ?_ ?_
    | with_reducible refine Held.ite_snd ?_ ?_
    | with_reducible assumption
    | with_reducible apply Held.ofQuiet (kept_draw (Quiet.refl _))
    | with_reducible apply held_bare
    | with_reducible apply held_pinReset
    | with_reducible refine Held.foldl _ (fun _ _ _ => ?_) _ ?_
    | with_reducible refine Held.ite_snd_of (by with_reducible assumption) ?_ ?_
    | with_reducible refine Held.foldl_snd _ (fun _ _ _ => ?_) _ ?_
    | dsimp only
    | simp only [reduceIte, Bool.false_eq_true]
    | split
    | fail_if_no_progress ((with_reducible refine Held.put ?_ ?_) <;> first | exact rfl | skip)

theorem held_commitEnd {a s : State} {x1} (h : Held a s) : Held a (State.commitEnd s x1) := by
  unfold State.commitEnd
  repeat' first
    | with_reducible refine Held.ite ?_ ?_
    | with_reducible refine Held.ite_snd ?_ ?_
    | with_reducible assumption
    | with_reducible apply held_pinReset
    | with_reducible apply held_lwsFinish
    | with_reducible apply held_payCommit

theorem held_perst {a s : State} {x1} (h : Held a s) : Held a (State.perst s x1) := by
  unfold State.perst
  repeat' first
    | with_reducible refine Held.ite ?_ ?_
    | with_reducible refine Held.ite_snd ?_ ?_
    | with_reducible assumption
    | with_reducible apply held_functionReset
    | with_reducible refine Held.foldl _ (fun _ _ _ => ?_) _ ?_
    | with_reducible refine Held.ite_snd_of (by with_reducible assumption) ?_ ?_
    | with_reducible refine Held.foldl_snd _ (fun _ _ _ => ?_) _ ?_
    | dsimp only
    | simp only [reduceIte, Bool.false_eq_true]
    | split
    | fail_if_no_progress ((with_reducible refine Held.put ?_ ?_) <;> first | exact rfl | skip)

theorem held_flr {a s : State} (h : Held a s) : Held a (State.flr s) := by
  unfold State.flr
  repeat' first
    | with_reducible refine Held.ite ?_ ?_
    | with_reducible refine Held.ite_snd ?_ ?_
    | with_reducible assumption
    | with_reducible apply held_functionReset
    | with_reducible refine Held.foldl _ (fun _ _ _ => ?_) _ ?_
    | with_reducible refine Held.ite_snd_of (by with_reducible assumption) ?_ ?_
    | with_reducible refine Held.foldl_snd _ (fun _ _ _ => ?_) _ ?_
    | dsimp only
    | simp only [reduceIte, Bool.false_eq_true]
    | split
    | fail_if_no_progress ((with_reducible refine Held.put ?_ ?_) <;> first | exact rfl | skip)

theorem held_funcReset {a s : State} {x1} (h : Held a s) : Held a (State.funcReset s x1) := by
  unfold State.funcReset
  repeat' first
    | with_reducible refine Held.ite ?_ ?_
    | with_reducible refine Held.ite_snd ?_ ?_
    | with_reducible assumption
    | with_reducible apply held_functionReset

theorem kept_releaseCore0 {a s : State} (h : Quiet a s) : Quiet a (State.releaseCore0 s) := by
  unfold State.releaseCore0
  repeat' first
    | with_reducible refine Quiet.ite ?_ ?_
    | with_reducible refine Quiet.ite_snd ?_ ?_
    | with_reducible assumption
    | with_reducible apply kept_coreGo

theorem held_resetReady {a s : State} (h : Held a s) : Held a (State.resetReady s) := by
  unfold State.resetReady
  repeat' first
    | with_reducible refine Held.ite ?_ ?_
    | with_reducible refine Held.ite_snd ?_ ?_
    | with_reducible assumption
    | with_reducible apply Held.ofQuiet (kept_releaseCore0 (Quiet.refl _))
    | with_reducible refine Held.foldl _ (fun _ _ _ => ?_) _ ?_
    | with_reducible refine Held.ite_snd_of (by with_reducible assumption) ?_ ?_
    | with_reducible refine Held.foldl_snd _ (fun _ _ _ => ?_) _ ?_
    | dsimp only
    | simp only [reduceIte, Bool.false_eq_true]
    | split
    | fail_if_no_progress ((with_reducible refine Held.put ?_ ?_) <;> first | exact rfl | skip)

theorem kept_readDevtime {a s : State} {x1} (h : Kept a s) : Kept a (State.readDevtime s x1).2 := by
  unfold State.readDevtime
  repeat' first
    | with_reducible refine Kept.ite ?_ ?_
    | with_reducible refine Kept.ite_snd ?_ ?_
    | with_reducible assumption
    | with_reducible apply kept_latch

theorem kept_readDevtime_of {a s u : State} {x1} {w0} (e : State.readDevtime s x1 = (w0, u)) (h : Kept a s) : Kept a u := by
  have := kept_readDevtime (x1 := x1) h
  rw [e] at this
  exact this

theorem kept_loadPayload {a s : State} {x1} (h : Quiet a s) : Quiet a (State.loadPayload s x1) := by
  unfold State.loadPayload
  repeat' first
    | with_reducible refine Quiet.ite ?_ ?_
    | with_reducible refine Quiet.ite_snd ?_ ?_
    | with_reducible assumption
    | with_reducible apply kept_tcmWrite
    | with_reducible apply kept_sramWrite
    | with_reducible refine Quiet.foldl _ (fun _ _ _ => ?_) _ ?_
    | with_reducible refine Quiet.ite_snd_of (by with_reducible assumption) ?_ ?_
    | with_reducible refine Quiet.foldl_fst _ (fun _ _ _ => ?_) _ ?_
    | with_reducible refine Quiet.foldl_fst_of (by with_reducible assumption) (fun _ _ _ => ?_) ?_
    | with_reducible refine Quiet.foldl_snd _ (fun _ _ _ => ?_) _ ?_
    | with_reducible refine Quiet.foldl_snd_of (by with_reducible assumption) (fun _ _ _ => ?_) ?_
    | with_reducible refine Quiet.foldl_thd _ (fun _ _ _ => ?_) _ ?_
    | with_reducible refine Quiet.foldl_thd_of (by with_reducible assumption) (fun _ _ _ => ?_) ?_
    | dsimp only
    | simp only [reduceIte, Bool.false_eq_true]
    | split

theorem held_bootDone {a s : State} {x1} {x2} (h : Held a s) : Held a (State.bootDone s x1 x2) := by
  unfold State.bootDone
  repeat' first
    | with_reducible refine Held.ite ?_ ?_
    | with_reducible refine Held.ite_snd ?_ ?_
    | with_reducible assumption
    | with_reducible apply Held.ofQuiet (kept_modCore (Quiet.refl _))
    | with_reducible apply Held.ofQuiet (kept_releaseCore0 (Quiet.refl _))
    | with_reducible refine Held.foldl _ (fun _ _ _ => ?_) _ ?_
    | with_reducible refine Held.ite_snd_of (by with_reducible assumption) ?_ ?_
    | with_reducible refine Held.foldl_snd _ (fun _ _ _ => ?_) _ ?_
    | dsimp only
    | simp only [reduceIte, Bool.false_eq_true]
    | split
    | fail_if_no_progress ((with_reducible refine Held.put ?_ ?_) <;> first | exact rfl | skip)

theorem held_bootReject {a s : State} {x1} {x2} (h : Held a s) : Held a (State.bootReject s x1 x2) := by
  unfold State.bootReject
  repeat' first
    | with_reducible refine Held.ite ?_ ?_
    | with_reducible refine Held.ite_snd ?_ ?_
    | with_reducible assumption
    | with_reducible refine Held.foldl _ (fun _ _ _ => ?_) _ ?_
    | with_reducible refine Held.ite_snd_of (by with_reducible assumption) ?_ ?_
    | with_reducible refine Held.foldl_snd _ (fun _ _ _ => ?_) _ ?_
    | dsimp only
    | simp only [reduceIte, Bool.false_eq_true]
    | split
    | fail_if_no_progress ((with_reducible refine Held.put ?_ ?_) <;> first | exact rfl | skip)

theorem held_putBoot {a s : State} {b : Boot} (h : Held a s) : Held a { s with boot := b } := Held.put h rfl

theorem held_bootFlash {a s : State} {x1} {x2} {x3} (h : Held a s) : Held a (State.bootFlash s x1 x2 x3) := by
  unfold State.bootFlash
  extract_lets c q r s1
  have h1 : Held a s1 := Held.ite (held_putBoot (Held.ofQuiet (kept_loadPayload (.refl _)) h)) h
  clear_value s1
  exact Held.ite (held_bootDone h1) (held_bootReject h1)

theorem kept_hostBytes {a s : State} {x1} {x2} (h : Quiet a s) : Quiet a (State.hostBytes s x1 x2).2 := by
  unfold State.hostBytes
  repeat' first
    | with_reducible refine Quiet.ite ?_ ?_
    | with_reducible refine Quiet.ite_snd ?_ ?_
    | with_reducible assumption
    | with_reducible apply kept_sramRead

theorem kept_hostBytes_of {a s u : State} {x1} {x2} {w0} (e : State.hostBytes s x1 x2 = (w0, u)) (h : Quiet a s) : Quiet a u := by
  have := kept_hostBytes (x1 := x1) (x2 := x2) h
  rw [e] at this
  exact this

theorem held_bootHost {a s : State} (h : Held a s) : Held a (State.bootHost s) := by
  unfold State.bootHost
  split
  · exact held_bootReject (Held.ofQuiet (kept_hostBytes_of (by assumption) (.refl _)) h)
  rename_i hq
  have h1 := Held.ofQuiet (kept_hostBytes_of hq (.refl _)) h
  refine Held.ite (held_bootReject h1) ?_
  split
  · exact held_bootReject (Held.ofQuiet (kept_hostBytes_of (by assumption) (.refl _)) h1)
  rename_i hr
  have h2 := Held.ofQuiet (kept_hostBytes_of hr (.refl _)) h1
  exact Held.ite (held_bootDone (Held.ofQuiet (kept_loadPayload (.refl _)) h2)) (held_bootReject h2)

theorem held_bootImage {a s : State} {x1} {x2} {x3} (h : Held a s) : Held a (State.bootImage s x1 x2 x3) := by
  unfold State.bootImage
  repeat' first
    | with_reducible refine Held.ite ?_ ?_
    | with_reducible refine Held.ite_snd ?_ ?_
    | with_reducible assumption
    | with_reducible apply held_bootReject
    | with_reducible apply held_bootFlash
    | with_reducible apply held_bootHost
    | with_reducible refine Held.foldl _ (fun _ _ _ => ?_) _ ?_
    | with_reducible refine Held.ite_snd_of (by with_reducible assumption) ?_ ?_
    | with_reducible refine Held.foldl_snd _ (fun _ _ _ => ?_) _ ?_
    | dsimp only
    | simp only [reduceIte, Bool.false_eq_true]
    | split

theorem held_bootGo {a s : State} {x1} {x2} (h : Held a s) : Held a (State.bootGo s x1 x2) := by
  unfold State.bootGo
  refine Held.ite h (Held.ite (Held.put h rfl) ?_)
  extract_lets s1
  have h1 : Held a s1 := Held.ofQuiet (Quiet.foldl _ (fun _ _ k => kept_coreCtrl k) _ (.refl _)) h
  clear_value s1
  exact Held.put h1 rfl

theorem held_fuseCmd {a s : State} {x1} {x2} (h : Held a s) : Held a (State.fuseCmd s x1 x2) := by
  unfold State.fuseCmd
  repeat' first
    | with_reducible refine Held.ite ?_ ?_
    | with_reducible refine Held.ite_snd ?_ ?_
    | with_reducible assumption
    | with_reducible refine Held.foldl _ (fun _ _ _ => ?_) _ ?_
    | with_reducible refine Held.ite_snd_of (by with_reducible assumption) ?_ ?_
    | with_reducible refine Held.foldl_snd _ (fun _ _ _ => ?_) _ ?_
    | dsimp only
    | simp only [reduceIte, Bool.false_eq_true]
    | split
    | fail_if_no_progress ((with_reducible refine Held.put ?_ ?_) <;> first | exact rfl | skip)

theorem held_payFuse {a s : State} (h : Held a s) : Held a (State.payFuse s) := by
  unfold State.payFuse
  repeat' first
    | with_reducible refine Held.ite ?_ ?_
    | with_reducible refine Held.ite_snd ?_ ?_
    | with_reducible assumption
    | with_reducible apply Held.ofQuiet (kept_emit (Quiet.refl _))
    | with_reducible refine Held.foldl _ (fun _ _ _ => ?_) _ ?_
    | with_reducible refine Held.ite_snd_of (by with_reducible assumption) ?_ ?_
    | with_reducible refine Held.foldl_snd _ (fun _ _ _ => ?_) _ ?_
    | dsimp only
    | simp only [reduceIte, Bool.false_eq_true]
    | split
    | fail_if_no_progress ((with_reducible refine Held.put ?_ ?_) <;> first | exact rfl | skip)

theorem held_fuseEnd {a s : State} {x1} (h : Held a s) : Held a (State.fuseEnd s x1) := by
  unfold State.fuseEnd
  repeat' first
    | with_reducible refine Held.ite ?_ ?_
    | with_reducible refine Held.ite_snd ?_ ?_
    | with_reducible assumption
    | with_reducible apply held_payFuse
    | with_reducible refine Held.foldl _ (fun _ _ _ => ?_) _ ?_
    | with_reducible refine Held.ite_snd_of (by with_reducible assumption) ?_ ?_
    | with_reducible refine Held.foldl_snd _ (fun _ _ _ => ?_) _ ?_
    | dsimp only
    | simp only [reduceIte, Bool.false_eq_true]
    | split
    | fail_if_no_progress ((with_reducible refine Held.put ?_ ?_) <;> first | exact rfl | skip)

theorem kept_linkChange {a s : State} {x1} {x2} (h : Quiet a s) : Quiet a (State.linkChange s x1 x2) := by
  unfold State.linkChange
  repeat' first
    | with_reducible refine Quiet.ite ?_ ?_
    | with_reducible refine Quiet.ite_snd ?_ ?_
    | with_reducible assumption
    | with_reducible refine Quiet.foldl _ (fun _ _ _ => ?_) _ ?_
    | with_reducible refine Quiet.ite_snd_of (by with_reducible assumption) ?_ ?_
    | with_reducible refine Quiet.foldl_fst _ (fun _ _ _ => ?_) _ ?_
    | with_reducible refine Quiet.foldl_fst_of (by with_reducible assumption) (fun _ _ _ => ?_) ?_
    | with_reducible refine Quiet.foldl_snd _ (fun _ _ _ => ?_) _ ?_
    | with_reducible refine Quiet.foldl_snd_of (by with_reducible assumption) (fun _ _ _ => ?_) ?_
    | with_reducible refine Quiet.foldl_thd _ (fun _ _ _ => ?_) _ ?_
    | with_reducible refine Quiet.foldl_thd_of (by with_reducible assumption) (fun _ _ _ => ?_) ?_
    | dsimp only
    | simp only [reduceIte, Bool.false_eq_true]
    | split
    | fail_if_no_progress ((with_reducible refine Quiet.put ?_ ?_) <;> first | exact rfl | skip)

end Sys2Proof.Machine
end

