-- ==== Sys2Proof/Laws/KeptRegisters.lean ====
section
/-! SUPPORT. What the operations of Machine/Registers.lean leave alone (`Kept`, `Held`). -/

namespace Sys2Proof.Machine

theorem held_rstWrite {a s : State} {x1} {x2} (h : Held a s) : Held a (State.rstWrite s x1 x2) := by
  unfold State.rstWrite
  repeat' first
    | with_reducible refine Held.ite ?_ ?_
    | with_reducible refine Held.ite_snd ?_ ?_
    | with_reducible assumption
    | with_reducible apply held_funcReset
    | with_reducible refine Held.foldl _ (fun _ _ _ => ?_) _ ?_
    | with_reducible refine Held.ite_snd_of (by with_reducible assumption) ?_ ?_
    | with_reducible refine Held.foldl_snd _ (fun _ _ _ => ?_) _ ?_
    | dsimp only
    | simp only [reduceIte, Bool.false_eq_true]
    | split
    | fail_if_no_progress ((with_reducible refine Held.put ?_ ?_) <;> first | exact rfl | skip)

theorem kept_rstRead {a s : State} {x1} {x2} (h : Kept a s) : Kept a (State.rstRead s x1 x2).2 := by
  unfold State.rstRead
  repeat' first
    | with_reducible refine Kept.ite ?_ ?_
    | with_reducible refine Kept.ite_snd ?_ ?_
    | with_reducible assumption
    | with_reducible apply kept_readDevtime
    | with_reducible refine kept_readDevtime_of (by with_reducible assumption) ?_
    | with_reducible refine Kept.foldl _ (fun _ _ _ => ?_) _ ?_
    | with_reducible refine Kept.ite_snd_of (by with_reducible assumption) ?_ ?_
    | with_reducible refine Kept.foldl_fst _ (fun _ _ _ => ?_) _ ?_
    | with_reducible refine Kept.foldl_fst_of (by with_reducible assumption) (fun _ _ _ => ?_) ?_
    | with_reducible refine Kept.foldl_snd _ (fun _ _ _ => ?_) _ ?_
    | with_reducible refine Kept.foldl_snd_of (by with_reducible assumption) (fun _ _ _ => ?_) ?_
    | with_reducible refine Kept.foldl_thd _ (fun _ _ _ => ?_) _ ?_
    | with_reducible refine Kept.foldl_thd_of (by with_reducible assumption) (fun _ _ _ => ?_) ?_
    | dsimp only
    | simp only [reduceIte, Bool.false_eq_true]
    | split

theorem kept_rstRead_of {a s u : State} {x1} {x2} {w0} (e : State.rstRead s x1 x2 = (w0, u)) (h : Kept a s) : Kept a u := by
  have := kept_rstRead (x1 := x1) (x2 := x2) h
  rw [e] at this
  exact this

theorem kept_undWrite {a s : State} {x1} {x2} (h : Kept a s) : Kept a (State.undWrite s x1 x2) := by
  unfold State.undWrite
  repeat' first
    | with_reducible refine Kept.ite ?_ ?_
    | with_reducible refine Kept.ite_snd ?_ ?_
    | with_reducible assumption
    | with_reducible apply kept_modUnd
    | with_reducible apply kept_undRest
    | with_reducible refine Kept.foldl _ (fun _ _ _ => ?_) _ ?_
    | with_reducible refine Kept.ite_snd_of (by with_reducible assumption) ?_ ?_
    | with_reducible refine Kept.foldl_fst _ (fun _ _ _ => ?_) _ ?_
    | with_reducible refine Kept.foldl_fst_of (by with_reducible assumption) (fun _ _ _ => ?_) ?_
    | with_reducible refine Kept.foldl_snd _ (fun _ _ _ => ?_) _ ?_
    | with_reducible refine Kept.foldl_snd_of (by with_reducible assumption) (fun _ _ _ => ?_) ?_
    | with_reducible refine Kept.foldl_thd _ (fun _ _ _ => ?_) _ ?_
    | with_reducible refine Kept.foldl_thd_of (by with_reducible assumption) (fun _ _ _ => ?_) ?_
    | dsimp only
    | simp only [reduceIte, Bool.false_eq_true]
    | split

theorem kept_undRead {a s : State} {x1} {x2} (h : Kept a s) : Kept a (State.undRead s x1 x2).2 := by
  unfold State.undRead
  repeat' first
    | with_reducible refine Kept.ite ?_ ?_
    | with_reducible refine Kept.ite_snd ?_ ?_
    | with_reducible assumption
    | with_reducible apply kept_readWake
    | with_reducible refine kept_readWake_of (by with_reducible assumption) ?_
    | with_reducible refine Kept.foldl _ (fun _ _ _ => ?_) _ ?_
    | with_reducible refine Kept.ite_snd_of (by with_reducible assumption) ?_ ?_
    | with_reducible refine Kept.foldl_fst _ (fun _ _ _ => ?_) _ ?_
    | with_reducible refine Kept.foldl_fst_of (by with_reducible assumption) (fun _ _ _ => ?_) ?_
    | with_reducible refine Kept.foldl_snd _ (fun _ _ _ => ?_) _ ?_
    | with_reducible refine Kept.foldl_snd_of (by with_reducible assumption) (fun _ _ _ => ?_) ?_
    | with_reducible refine Kept.foldl_thd _ (fun _ _ _ => ?_) _ ?_
    | with_reducible refine Kept.foldl_thd_of (by with_reducible assumption) (fun _ _ _ => ?_) ?_
    | dsimp only
    | simp only [reduceIte, Bool.false_eq_true]
    | split

theorem kept_undRead_of {a s u : State} {x1} {x2} {w0} (e : State.undRead s x1 x2 = (w0, u)) (h : Kept a s) : Kept a u := by
  have := kept_undRead (x1 := x1) (x2 := x2) h
  rw [e] at this
  exact this

theorem kept_cellWrite {a s : State} {x1} {x2} {x3} (h : Kept a s) : Kept a (State.cellWrite s x1 x2 x3) := by
  unfold State.cellWrite
  repeat' first
    | with_reducible refine Kept.ite ?_ ?_
    | with_reducible refine Kept.ite_snd ?_ ?_
    | with_reducible assumption
    | with_reducible apply kept_modCell
    | with_reducible apply kept_cellCtrl
    | with_reducible apply kept_writeMod
    | with_reducible apply kept_loadGo
    | with_reducible apply kept_synHi
    | with_reducible apply kept_mirrorHi
    | with_reducible refine Kept.foldl _ (fun _ _ _ => ?_) _ ?_
    | with_reducible refine Kept.ite_snd_of (by with_reducible assumption) ?_ ?_
    | with_reducible refine Kept.foldl_fst _ (fun _ _ _ => ?_) _ ?_
    | with_reducible refine Kept.foldl_fst_of (by with_reducible assumption) (fun _ _ _ => ?_) ?_
    | with_reducible refine Kept.foldl_snd _ (fun _ _ _ => ?_) _ ?_
    | with_reducible refine Kept.foldl_snd_of (by with_reducible assumption) (fun _ _ _ => ?_) ?_
    | with_reducible refine Kept.foldl_thd _ (fun _ _ _ => ?_) _ ?_
    | with_reducible refine Kept.foldl_thd_of (by with_reducible assumption) (fun _ _ _ => ?_) ?_
    | dsimp only
    | simp only [reduceIte, Bool.false_eq_true]
    | split

theorem kept_cellRead {a s : State} {x1} {x2} {x3} (h : Kept a s) : Kept a (State.cellRead s x1 x2 x3).2 := by
  unfold State.cellRead
  repeat' first
    | with_reducible refine Kept.ite ?_ ?_
    | with_reducible refine Kept.ite_snd ?_ ?_
    | with_reducible assumption
    | with_reducible apply kept_readPosFt
    | with_reducible refine kept_readPosFt_of (by with_reducible assumption) ?_
    | with_reducible refine Kept.foldl _ (fun _ _ _ => ?_) _ ?_
    | with_reducible refine Kept.ite_snd_of (by with_reducible assumption) ?_ ?_
    | with_reducible refine Kept.foldl_fst _ (fun _ _ _ => ?_) _ ?_
    | with_reducible refine Kept.foldl_fst_of (by with_reducible assumption) (fun _ _ _ => ?_) ?_
    | with_reducible refine Kept.foldl_snd _ (fun _ _ _ => ?_) _ ?_
    | with_reducible refine Kept.foldl_snd_of (by with_reducible assumption) (fun _ _ _ => ?_) ?_
    | with_reducible refine Kept.foldl_thd _ (fun _ _ _ => ?_) _ ?_
    | with_reducible refine Kept.foldl_thd_of (by with_reducible assumption) (fun _ _ _ => ?_) ?_
    | dsimp only
    | simp only [reduceIte, Bool.false_eq_true]
    | split

theorem kept_cellRead_of {a s u : State} {x1} {x2} {x3} {w0} (e : State.cellRead s x1 x2 x3 = (w0, u)) (h : Kept a s) : Kept a u := by
  have := kept_cellRead (x1 := x1) (x2 := x2) (x3 := x3) h
  rw [e] at this
  exact this

theorem kept_capWrite {a s : State} {x1} {x2} {x3} (h : Ran a s) : Ran a (State.capWrite s x1 x2 x3) := by
  unfold State.capWrite
  repeat' first
    | with_reducible refine Ran.ite ?_ ?_
    | with_reducible refine Ran.ite_snd ?_ ?_
    | with_reducible assumption
    | with_reducible apply kept_capCtrl
    | with_reducible apply kept_capFilt
    | with_reducible apply kept_modCap
    | with_reducible refine Ran.foldl _ (fun _ _ _ => ?_) _ ?_
    | with_reducible refine Ran.ite_snd_of (by with_reducible assumption) ?_ ?_
    | with_reducible refine Ran.foldl_fst _ (fun _ _ _ => ?_) _ ?_
    | with_reducible refine Ran.foldl_fst_of (by with_reducible assumption) (fun _ _ _ => ?_) ?_
    | with_reducible refine Ran.foldl_snd _ (fun _ _ _ => ?_) _ ?_
    | with_reducible refine Ran.foldl_snd_of (by with_reducible assumption) (fun _ _ _ => ?_) ?_
    | with_reducible refine Ran.foldl_thd _ (fun _ _ _ => ?_) _ ?_
    | with_reducible refine Ran.foldl_thd_of (by with_reducible assumption) (fun _ _ _ => ?_) ?_
    | dsimp only
    | simp only [reduceIte, Bool.false_eq_true]
    | split
    | fail_if_no_progress ((with_reducible refine Ran.put ?_ ?_) <;> first | exact rfl | skip)

theorem kept_capRead {a s : State} {x1} {x2} {x3} (h : Kept a s) : Kept a (State.capRead s x1 x2 x3).2 := by
  unfold State.capRead
  repeat' first
    | with_reducible refine Kept.ite ?_ ?_
    | with_reducible refine Kept.ite_snd ?_ ?_
    | with_reducible assumption
    | with_reducible apply kept_readCapPop
    | with_reducible refine kept_readCapPop_of (by with_reducible assumption) ?_
    | with_reducible refine Kept.foldl _ (fun _ _ _ => ?_) _ ?_
    | with_reducible refine Kept.ite_snd_of (by with_reducible assumption) ?_ ?_
    | with_reducible refine Kept.foldl_fst _ (fun _ _ _ => ?_) _ ?_
    | with_reducible refine Kept.foldl_fst_of (by with_reducible assumption) (fun _ _ _ => ?_) ?_
    | with_reducible refine Kept.foldl_snd _ (fun _ _ _ => ?_) _ ?_
    | with_reducible refine Kept.foldl_snd_of (by with_reducible assumption) (fun _ _ _ => ?_) ?_
    | with_reducible refine Kept.foldl_thd _ (fun _ _ _ => ?_) _ ?_
    | with_reducible refine Kept.foldl_thd_of (by with_reducible assumption) (fun _ _ _ => ?_) ?_
    | dsimp only
    | simp only [reduceIte, Bool.false_eq_true]
    | split

theorem kept_capRead_of {a s u : State} {x1} {x2} {x3} {w0} (e : State.capRead s x1 x2 x3 = (w0, u)) (h : Kept a s) : Kept a u := by
  have := kept_capRead (x1 := x1) (x2 := x2) (x3 := x3) h
  rw [e] at this
  exact this

theorem kept_cmpWrite {a s : State} {x1} {x2} {x3} (h : Ran a s) : Ran a (State.cmpWrite s x1 x2 x3) := by
  unfold State.cmpWrite
  repeat' first
    | with_reducible refine Ran.ite ?_ ?_
    | with_reducible refine Ran.ite_snd ?_ ?_
    | with_reducible assumption
    | with_reducible apply kept_cmpCtrl
    | with_reducible apply kept_cmpValue
    | with_reducible apply kept_modCmp
    | with_reducible refine Ran.foldl _ (fun _ _ _ => ?_) _ ?_
    | with_reducible refine Ran.ite_snd_of (by with_reducible assumption) ?_ ?_
    | with_reducible refine Ran.foldl_fst _ (fun _ _ _ => ?_) _ ?_
    | with_reducible refine Ran.foldl_fst_of (by with_reducible assumption) (fun _ _ _ => ?_) ?_
    | with_reducible refine Ran.foldl_snd _ (fun _ _ _ => ?_) _ ?_
    | with_reducible refine Ran.foldl_snd_of (by with_reducible assumption) (fun _ _ _ => ?_) ?_
    | with_reducible refine Ran.foldl_thd _ (fun _ _ _ => ?_) _ ?_
    | with_reducible refine Ran.foldl_thd_of (by with_reducible assumption) (fun _ _ _ => ?_) ?_
    | dsimp only
    | simp only [reduceIte, Bool.false_eq_true]
    | split

theorem kept_cmpRead {a s : State} {x1} {x2} {x3} (h : Kept a s) : Kept a (State.cmpRead s x1 x2 x3).2 := by
  unfold State.cmpRead
  repeat' first
    | with_reducible refine Kept.ite ?_ ?_
    | with_reducible refine Kept.ite_snd ?_ ?_
    | with_reducible assumption
    | with_reducible apply kept_readCmpFt
    | with_reducible refine kept_readCmpFt_of (by with_reducible assumption) ?_
    | with_reducible refine Kept.foldl _ (fun _ _ _ => ?_) _ ?_
    | with_reducible refine Kept.ite_snd_of (by with_reducible assumption) ?_ ?_
    | with_reducible refine Kept.foldl_fst _ (fun _ _ _ => ?_) _ ?_
    | with_reducible refine Kept.foldl_fst_of (by with_reducible assumption) (fun _ _ _ => ?_) ?_
    | with_reducible refine Kept.foldl_snd _ (fun _ _ _ => ?_) _ ?_
    | with_reducible refine Kept.foldl_snd_of (by with_reducible assumption) (fun _ _ _ => ?_) ?_
    | with_reducible refine Kept.foldl_thd _ (fun _ _ _ => ?_) _ ?_
    | with_reducible refine Kept.foldl_thd_of (by with_reducible assumption) (fun _ _ _ => ?_) ?_
    | dsimp only
    | simp only [reduceIte, Bool.false_eq_true]
    | split

theorem kept_cmpRead_of {a s u : State} {x1} {x2} {x3} {w0} (e : State.cmpRead s x1 x2 x3 = (w0, u)) (h : Kept a s) : Kept a u := by
  have := kept_cmpRead (x1 := x1) (x2 := x2) (x3 := x3) h
  rw [e] at this
  exact this

theorem kept_freezeSel {a s : State} {x1} (h : Kept a s) : Kept a (State.freezeSel s x1) := by
  unfold State.freezeSel
  repeat' first
    | with_reducible refine Kept.ite ?_ ?_
    | with_reducible refine Kept.ite_snd ?_ ?_
    | with_reducible assumption
    | with_reducible apply kept_modStart
    | with_reducible apply kept_putCell
    | with_reducible apply kept_thawCell
    | with_reducible refine kept_thawCell_of (by with_reducible assumption) ?_
    | with_reducible apply Kept.ofRan (kept_react (Ran.refl _))
    | with_reducible apply Kept.ofRan (kept_cellChange (Ran.refl _))
    | with_reducible refine Kept.foldl _ (fun _ _ _ => ?_) _ ?_
    | with_reducible refine Kept.ite_snd_of (by with_reducible assumption) ?_ ?_
    | with_reducible refine Kept.foldl_fst _ (fun _ _ _ => ?_) _ ?_
    | with_reducible refine Kept.foldl_fst_of (by with_reducible assumption) (fun _ _ _ => ?_) ?_
    | with_reducible refine Kept.foldl_snd _ (fun _ _ _ => ?_) _ ?_
    | with_reducible refine Kept.foldl_snd_of (by with_reducible assumption) (fun _ _ _ => ?_) ?_
    | with_reducible refine Kept.foldl_thd _ (fun _ _ _ => ?_) _ ?_
    | with_reducible refine Kept.foldl_thd_of (by with_reducible assumption) (fun _ _ _ => ?_) ?_
    | dsimp only
    | simp only [reduceIte, Bool.false_eq_true]
    | split
    | fail_if_no_progress ((with_reducible refine Kept.put ?_ ?_) <;> first | exact rfl | skip)

theorem kept_startWrite {a s : State} {x1} {x2} (h : Kept a s) : Kept a (State.startWrite s x1 x2) := by
  unfold State.startWrite
  repeat' first
    | with_reducible refine Kept.ite ?_ ?_
    | with_reducible refine Kept.ite_snd ?_ ?_
    | with_reducible assumption
    | with_reducible apply kept_modStart
    | with_reducible apply kept_startGo
    | with_reducible apply kept_freezeSel
    | with_reducible refine Kept.foldl _ (fun _ _ _ => ?_) _ ?_
    | with_reducible refine Kept.ite_snd_of (by with_reducible assumption) ?_ ?_
    | with_reducible refine Kept.foldl_fst _ (fun _ _ _ => ?_) _ ?_
    | with_reducible refine Kept.foldl_fst_of (by with_reducible assumption) (fun _ _ _ => ?_) ?_
    | with_reducible refine Kept.foldl_snd _ (fun _ _ _ => ?_) _ ?_
    | with_reducible refine Kept.foldl_snd_of (by with_reducible assumption) (fun _ _ _ => ?_) ?_
    | with_reducible refine Kept.foldl_thd _ (fun _ _ _ => ?_) _ ?_
    | with_reducible refine Kept.foldl_thd_of (by with_reducible assumption) (fun _ _ _ => ?_) ?_
    | dsimp only
    | simp only [reduceIte, Bool.false_eq_true]
    | split

theorem kept_startRead {a s : State} {x1} {x2} (h : Kept a s) : Kept a (State.startRead s x1 x2).2 := by
  unfold State.startRead
  repeat' first
    | with_reducible refine Kept.ite ?_ ?_
    | with_reducible refine Kept.ite_snd ?_ ?_
    | with_reducible assumption
    | with_reducible apply kept_readStartT
    | with_reducible refine kept_readStartT_of (by with_reducible assumption) ?_
    | with_reducible apply kept_readFrzT
    | with_reducible refine kept_readFrzT_of (by with_reducible assumption) ?_
    | with_reducible refine Kept.foldl _ (fun _ _ _ => ?_) _ ?_
    | with_reducible refine Kept.ite_snd_of (by with_reducible assumption) ?_ ?_
    | with_reducible refine Kept.foldl_fst _ (fun _ _ _ => ?_) _ ?_
    | with_reducible refine Kept.foldl_fst_of (by with_reducible assumption) (fun _ _ _ => ?_) ?_
    | with_reducible refine Kept.foldl_snd _ (fun _ _ _ => ?_) _ ?_
    | with_reducible refine Kept.foldl_snd_of (by with_reducible assumption) (fun _ _ _ => ?_) ?_
    | with_reducible refine Kept.foldl_thd _ (fun _ _ _ => ?_) _ ?_
    | with_reducible refine Kept.foldl_thd_of (by with_reducible assumption) (fun _ _ _ => ?_) ?_
    | dsimp only
    | simp only [reduceIte, Bool.false_eq_true]
    | split

theorem kept_startRead_of {a s u : State} {x1} {x2} {w0} (e : State.startRead s x1 x2 = (w0, u)) (h : Kept a s) : Kept a u := by
  have := kept_startRead (x1 := x1) (x2 := x2) h
  rw [e] at this
  exact this

theorem kept_encWrite {a s : State} {x1} {x2} {x3} (h : Kept a s) : Kept a (State.encWrite s x1 x2 x3) := by
  unfold State.encWrite
  repeat' first
    | with_reducible refine Kept.ite ?_ ?_
    | with_reducible refine Kept.ite_snd ?_ ?_
    | with_reducible assumption
    | with_reducible apply kept_encCtrl
    | with_reducible apply kept_setEnc
    | with_reducible refine Kept.foldl _ (fun _ _ _ => ?_) _ ?_
    | with_reducible refine Kept.ite_snd_of (by with_reducible assumption) ?_ ?_
    | with_reducible refine Kept.foldl_fst _ (fun _ _ _ => ?_) _ ?_
    | with_reducible refine Kept.foldl_fst_of (by with_reducible assumption) (fun _ _ _ => ?_) ?_
    | with_reducible refine Kept.foldl_snd _ (fun _ _ _ => ?_) _ ?_
    | with_reducible refine Kept.foldl_snd_of (by with_reducible assumption) (fun _ _ _ => ?_) ?_
    | with_reducible refine Kept.foldl_thd _ (fun _ _ _ => ?_) _ ?_
    | with_reducible refine Kept.foldl_thd_of (by with_reducible assumption) (fun _ _ _ => ?_) ?_
    | dsimp only
    | simp only [reduceIte, Bool.false_eq_true]
    | split
    | fail_if_no_progress ((with_reducible refine Kept.put ?_ ?_) <;> first | exact rfl | skip)

theorem kept_serWrite {a s : State} {x1} {x2} {x3} (h : Kept a s) : Kept a (State.serWrite s x1 x2 x3) := by
  unfold State.serWrite
  repeat' first
    | with_reducible refine Kept.ite ?_ ?_
    | with_reducible refine Kept.ite_snd ?_ ?_
    | with_reducible assumption
    | with_reducible apply kept_serCtrl
    | with_reducible apply kept_setSer
    | with_reducible refine Kept.foldl _ (fun _ _ _ => ?_) _ ?_
    | with_reducible refine Kept.ite_snd_of (by with_reducible assumption) ?_ ?_
    | with_reducible refine Kept.foldl_fst _ (fun _ _ _ => ?_) _ ?_
    | with_reducible refine Kept.foldl_fst_of (by with_reducible assumption) (fun _ _ _ => ?_) ?_
    | with_reducible refine Kept.foldl_snd _ (fun _ _ _ => ?_) _ ?_
    | with_reducible refine Kept.foldl_snd_of (by with_reducible assumption) (fun _ _ _ => ?_) ?_
    | with_reducible refine Kept.foldl_thd _ (fun _ _ _ => ?_) _ ?_
    | with_reducible refine Kept.foldl_thd_of (by with_reducible assumption) (fun _ _ _ => ?_) ?_
    | dsimp only
    | simp only [reduceIte, Bool.false_eq_true]
    | split
    | fail_if_no_progress ((with_reducible refine Kept.put ?_ ?_) <;> first | exact rfl | skip)

theorem kept_mainsWrite {a s : State} {x1} {x2} {x3} (h : Kept a s) : Kept a (State.mainsWrite s x1 x2 x3) := by
  unfold State.mainsWrite
  repeat' first
    | with_reducible refine Kept.ite ?_ ?_
    | with_reducible refine Kept.ite_snd ?_ ?_
    | with_reducible assumption
    | with_reducible apply kept_setMainsIn
    | with_reducible refine Kept.foldl _ (fun _ _ _ => ?_) _ ?_
    | with_reducible refine Kept.ite_snd_of (by with_reducible assumption) ?_ ?_
    | with_reducible refine Kept.foldl_fst _ (fun _ _ _ => ?_) _ ?_
    | with_reducible refine Kept.foldl_fst_of (by with_reducible assumption) (fun _ _ _ => ?_) ?_
    | with_reducible refine Kept.foldl_snd _ (fun _ _ _ => ?_) _ ?_
    | with_reducible refine Kept.foldl_snd_of (by with_reducible assumption) (fun _ _ _ => ?_) ?_
    | with_reducible refine Kept.foldl_thd _ (fun _ _ _ => ?_) _ ?_
    | with_reducible refine Kept.foldl_thd_of (by with_reducible assumption) (fun _ _ _ => ?_) ?_
    | dsimp only
    | simp only [reduceIte, Bool.false_eq_true]
    | split

theorem kept_adminWrite {a s : State} {x1} {x2} (h : Quiet a s) : Quiet a (State.adminWrite s x1 x2) := by
  unfold State.adminWrite
  repeat' first
    | with_reducible refine Quiet.ite ?_ ?_
    | with_reducible refine Quiet.ite_snd ?_ ?_
    | with_reducible assumption
    | with_reducible apply kept_adminCfg
    | with_reducible refine Quiet.foldl _ (fun _ _ _ => ?_) _ ?_
    | with_reducible refine Quiet.ite_snd_of (by with_reducible assumption) ?_ ?_
    | with_reducible refine Quiet.foldl_fst _ (fun _ _ _ => ?_) _ ?_
    | with_reducible refine Quiet.foldl_fst_of (by with_reducible assumption) (fun _ _ _ => ?_) ?_
    | with_reducible refine Quiet.foldl_snd _ (fun _ _ _ => ?_) _ ?_
    | with_reducible refine Quiet.foldl_snd_of (by with_reducible assumption) (fun _ _ _ => ?_) ?_
    | with_reducible refine Quiet.foldl_thd _ (fun _ _ _ => ?_) _ ?_
    | with_reducible refine Quiet.foldl_thd_of (by with_reducible assumption) (fun _ _ _ => ?_) ?_
    | dsimp only
    | simp only [reduceIte, Bool.false_eq_true]
    | split
    | fail_if_no_progress ((with_reducible refine Quiet.put ?_ ?_) <;> first | exact rfl | skip)

theorem kept_wqRegRead {a s : State} {x1} {x2} {x3} (h : Kept a s) : Kept a (State.wqRegRead s x1 x2 x3).2 := by
  unfold State.wqRegRead
  repeat' first
    | with_reducible refine Kept.ite ?_ ?_
    | with_reducible refine Kept.ite_snd ?_ ?_
    | with_reducible assumption
    | with_reducible apply kept_readWqPi
    | with_reducible refine kept_readWqPi_of (by with_reducible assumption) ?_
    | with_reducible refine Kept.foldl _ (fun _ _ _ => ?_) _ ?_
    | with_reducible refine Kept.ite_snd_of (by with_reducible assumption) ?_ ?_
    | with_reducible refine Kept.foldl_fst _ (fun _ _ _ => ?_) _ ?_
    | with_reducible refine Kept.foldl_fst_of (by with_reducible assumption) (fun _ _ _ => ?_) ?_
    | with_reducible refine Kept.foldl_snd _ (fun _ _ _ => ?_) _ ?_
    | with_reducible refine Kept.foldl_snd_of (by with_reducible assumption) (fun _ _ _ => ?_) ?_
    | with_reducible refine Kept.foldl_thd _ (fun _ _ _ => ?_) _ ?_
    | with_reducible refine Kept.foldl_thd_of (by with_reducible assumption) (fun _ _ _ => ?_) ?_
    | dsimp only
    | simp only [reduceIte, Bool.false_eq_true]
    | split

theorem kept_wqRegRead_of {a s u : State} {x1} {x2} {x3} {w0} (e : State.wqRegRead s x1 x2 x3 = (w0, u)) (h : Kept a s) : Kept a u := by
  have := kept_wqRegRead (x1 := x1) (x2 := x2) (x3 := x3) h
  rw [e] at this
  exact this

theorem kept_eqRegRead {a s : State} {x1} {x2} {x3} (h : Kept a s) : Kept a (State.eqRegRead s x1 x2 x3).2 := by
  unfold State.eqRegRead
  repeat' first
    | with_reducible refine Kept.ite ?_ ?_
    | with_reducible refine Kept.ite_snd ?_ ?_
    | with_reducible assumption
    | with_reducible apply kept_readEqRes
    | with_reducible refine kept_readEqRes_of (by with_reducible assumption) ?_
    | with_reducible refine Kept.foldl _ (fun _ _ _ => ?_) _ ?_
    | with_reducible refine Kept.ite_snd_of (by with_reducible assumption) ?_ ?_
    | with_reducible refine Kept.foldl_fst _ (fun _ _ _ => ?_) _ ?_
    | with_reducible refine Kept.foldl_fst_of (by with_reducible assumption) (fun _ _ _ => ?_) ?_
    | with_reducible refine Kept.foldl_snd _ (fun _ _ _ => ?_) _ ?_
    | with_reducible refine Kept.foldl_snd_of (by with_reducible assumption) (fun _ _ _ => ?_) ?_
    | with_reducible refine Kept.foldl_thd _ (fun _ _ _ => ?_) _ ?_
    | with_reducible refine Kept.foldl_thd_of (by with_reducible assumption) (fun _ _ _ => ?_) ?_
    | dsimp only
    | simp only [reduceIte, Bool.false_eq_true]
    | split

theorem kept_eqRegRead_of {a s u : State} {x1} {x2} {x3} {w0} (e : State.eqRegRead s x1 x2 x3 = (w0, u)) (h : Kept a s) : Kept a u := by
  have := kept_eqRegRead (x1 := x1) (x2 := x2) (x3 := x3) h
  rw [e] at this
  exact this

theorem kept_xlWrite {a s : State} {x1} {x2} (h : Quiet a s) : Quiet a (State.xlWrite s x1 x2) := by
  unfold State.xlWrite
  repeat' first
    | with_reducible refine Quiet.ite ?_ ?_
    | with_reducible refine Quiet.ite_snd ?_ ?_
    | with_reducible assumption
    | with_reducible apply kept_invGo
    | with_reducible apply kept_parkCtrl
    | with_reducible refine Quiet.foldl _ (fun _ _ _ => ?_) _ ?_
    | with_reducible refine Quiet.ite_snd_of (by with_reducible assumption) ?_ ?_
    | with_reducible refine Quiet.foldl_fst _ (fun _ _ _ => ?_) _ ?_
    | with_reducible refine Quiet.foldl_fst_of (by with_reducible assumption) (fun _ _ _ => ?_) ?_
    | with_reducible refine Quiet.foldl_snd _ (fun _ _ _ => ?_) _ ?_
    | with_reducible refine Quiet.foldl_snd_of (by with_reducible assumption) (fun _ _ _ => ?_) ?_
    | with_reducible refine Quiet.foldl_thd _ (fun _ _ _ => ?_) _ ?_
    | with_reducible refine Quiet.foldl_thd_of (by with_reducible assumption) (fun _ _ _ => ?_) ?_
    | dsimp only
    | simp only [reduceIte, Bool.false_eq_true]
    | split
    | fail_if_no_progress ((with_reducible refine Quiet.put ?_ ?_) <;> first | exact rfl | skip)

theorem kept_xlRead {a s : State} {x1} {x2} (h : Kept a s) : Kept a (State.xlRead s x1 x2).2 := by
  unfold State.xlRead
  repeat' first
    | with_reducible refine Kept.ite ?_ ?_
    | with_reducible refine Kept.ite_snd ?_ ?_
    | with_reducible assumption
    | with_reducible apply kept_readXlHit
    | with_reducible refine kept_readXlHit_of (by with_reducible assumption) ?_
    | with_reducible refine Kept.foldl _ (fun _ _ _ => ?_) _ ?_
    | with_reducible refine Kept.ite_snd_of (by with_reducible assumption) ?_ ?_
    | with_reducible refine Kept.foldl_fst _ (fun _ _ _ => ?_) _ ?_
    | with_reducible refine Kept.foldl_fst_of (by with_reducible assumption) (fun _ _ _ => ?_) ?_
    | with_reducible refine Kept.foldl_snd _ (fun _ _ _ => ?_) _ ?_
    | with_reducible refine Kept.foldl_snd_of (by with_reducible assumption) (fun _ _ _ => ?_) ?_
    | with_reducible refine Kept.foldl_thd _ (fun _ _ _ => ?_) _ ?_
    | with_reducible refine Kept.foldl_thd_of (by with_reducible assumption) (fun _ _ _ => ?_) ?_
    | dsimp only
    | simp only [reduceIte, Bool.false_eq_true]
    | split

theorem kept_xlRead_of {a s u : State} {x1} {x2} {w0} (e : State.xlRead s x1 x2 = (w0, u)) (h : Kept a s) : Kept a u := by
  have := kept_xlRead (x1 := x1) (x2 := x2) h
  rw [e] at this
  exact this

theorem kept_domWrite {a s : State} {x1} {x2} {x3} (h : Quiet a s) : Quiet a (State.domWrite s x1 x2 x3) := by
  unfold State.domWrite
  repeat' first
    | with_reducible refine Quiet.ite ?_ ?_
    | with_reducible refine Quiet.ite_snd ?_ ?_
    | with_reducible assumption
    | with_reducible apply kept_domCtrl
    | with_reducible apply kept_setDom
    | with_reducible refine Quiet.foldl _ (fun _ _ _ => ?_) _ ?_
    | with_reducible refine Quiet.ite_snd_of (by with_reducible assumption) ?_ ?_
    | with_reducible refine Quiet.foldl_fst _ (fun _ _ _ => ?_) _ ?_
    | with_reducible refine Quiet.foldl_fst_of (by with_reducible assumption) (fun _ _ _ => ?_) ?_
    | with_reducible refine Quiet.foldl_snd _ (fun _ _ _ => ?_) _ ?_
    | with_reducible refine Quiet.foldl_snd_of (by with_reducible assumption) (fun _ _ _ => ?_) ?_
    | with_reducible refine Quiet.foldl_thd _ (fun _ _ _ => ?_) _ ?_
    | with_reducible refine Quiet.foldl_thd_of (by with_reducible assumption) (fun _ _ _ => ?_) ?_
    | dsimp only
    | simp only [reduceIte, Bool.false_eq_true]
    | split

theorem kept_fqWrite {a s : State} {x1} {x2} {x3} (h : Quiet a s) : Quiet a (State.fqWrite s x1 x2 x3) := by
  unfold State.fqWrite
  repeat' first
    | with_reducible refine Quiet.ite ?_ ?_
    | with_reducible refine Quiet.ite_snd ?_ ?_
    | with_reducible assumption
    | with_reducible apply kept_modFq
    | with_reducible apply kept_fqCfg
    | with_reducible apply kept_fqDoorbell
    | with_reducible refine Quiet.foldl _ (fun _ _ _ => ?_) _ ?_
    | with_reducible refine Quiet.ite_snd_of (by with_reducible assumption) ?_ ?_
    | with_reducible refine Quiet.foldl_fst _ (fun _ _ _ => ?_) _ ?_
    | with_reducible refine Quiet.foldl_fst_of (by with_reducible assumption) (fun _ _ _ => ?_) ?_
    | with_reducible refine Quiet.foldl_snd _ (fun _ _ _ => ?_) _ ?_
    | with_reducible refine Quiet.foldl_snd_of (by with_reducible assumption) (fun _ _ _ => ?_) ?_
    | with_reducible refine Quiet.foldl_thd _ (fun _ _ _ => ?_) _ ?_
    | with_reducible refine Quiet.foldl_thd_of (by with_reducible assumption) (fun _ _ _ => ?_) ?_
    | dsimp only
    | simp only [reduceIte, Bool.false_eq_true]
    | split

theorem kept_fqRegRead {a s : State} {x1} {x2} {x3} (h : Kept a s) : Kept a (State.fqRegRead s x1 x2 x3).2 := by
  unfold State.fqRegRead
  repeat' first
    | with_reducible refine Kept.ite ?_ ?_
    | with_reducible refine Kept.ite_snd ?_ ?_
    | with_reducible assumption
    | with_reducible apply kept_readFqPi
    | with_reducible refine kept_readFqPi_of (by with_reducible assumption) ?_
    | with_reducible refine Kept.foldl _ (fun _ _ _ => ?_) _ ?_
    | with_reducible refine Kept.ite_snd_of (by with_reducible assumption) ?_ ?_
    | with_reducible refine Kept.foldl_fst _ (fun _ _ _ => ?_) _ ?_
    | with_reducible refine Kept.foldl_fst_of (by with_reducible assumption) (fun _ _ _ => ?_) ?_
    | with_reducible refine Kept.foldl_snd _ (fun _ _ _ => ?_) _ ?_
    | with_reducible refine Kept.foldl_snd_of (by with_reducible assumption) (fun _ _ _ => ?_) ?_
    | with_reducible refine Kept.foldl_thd _ (fun _ _ _ => ?_) _ ?_
    | with_reducible refine Kept.foldl_thd_of (by with_reducible assumption) (fun _ _ _ => ?_) ?_
    | dsimp only
    | simp only [reduceIte, Bool.false_eq_true]
    | split

theorem kept_fqRegRead_of {a s u : State} {x1} {x2} {x3} {w0} (e : State.fqRegRead s x1 x2 x3 = (w0, u)) (h : Kept a s) : Kept a u := by
  have := kept_fqRegRead (x1 := x1) (x2 := x2) (x3 := x3) h
  rw [e] at this
  exact this

theorem kept_winWrite {a s : State} {x1} {x2} {x3} (h : Quiet a s) : Quiet a (State.winWrite s x1 x2 x3) := by
  unfold State.winWrite
  repeat' first
    | with_reducible refine Quiet.ite ?_ ?_
    | with_reducible refine Quiet.ite_snd ?_ ?_
    | with_reducible assumption
    | with_reducible apply kept_setWin
    | with_reducible refine Quiet.foldl _ (fun _ _ _ => ?_) _ ?_
    | with_reducible refine Quiet.ite_snd_of (by with_reducible assumption) ?_ ?_
    | with_reducible refine Quiet.foldl_fst _ (fun _ _ _ => ?_) _ ?_
    | with_reducible refine Quiet.foldl_fst_of (by with_reducible assumption) (fun _ _ _ => ?_) ?_
    | with_reducible refine Quiet.foldl_snd _ (fun _ _ _ => ?_) _ ?_
    | with_reducible refine Quiet.foldl_snd_of (by with_reducible assumption) (fun _ _ _ => ?_) ?_
    | with_reducible refine Quiet.foldl_thd _ (fun _ _ _ => ?_) _ ?_
    | with_reducible refine Quiet.foldl_thd_of (by with_reducible assumption) (fun _ _ _ => ?_) ?_
    | dsimp only
    | simp only [reduceIte, Bool.false_eq_true]
    | split

theorem kept_ctxRead {a s : State} {x1} {x2} {x3} (h : Kept a s) : Kept a (State.ctxRead s x1 x2 x3).2 := by
  unfold State.ctxRead
  repeat' first
    | with_reducible refine Kept.ite ?_ ?_
    | with_reducible refine Kept.ite_snd ?_ ?_
    | with_reducible assumption
    | with_reducible apply kept_readCtx

theorem kept_ctxRead_of {a s u : State} {x1} {x2} {x3} {w0} (e : State.ctxRead s x1 x2 x3 = (w0, u)) (h : Kept a s) : Kept a u := by
  have := kept_ctxRead (x1 := x1) (x2 := x2) (x3 := x3) h
  rw [e] at this
  exact this

theorem kept_moverRead {a s : State} {x1} {x2} (h : Kept a s) : Kept a (State.moverRead s x1 x2).2 := by
  unfold State.moverRead
  repeat' first
    | with_reducible refine Kept.ite ?_ ?_
    | with_reducible refine Kept.ite_snd ?_ ?_
    | with_reducible assumption
    | with_reducible apply kept_readMoverBytes
    | with_reducible refine kept_readMoverBytes_of (by with_reducible assumption) ?_
    | with_reducible refine Kept.foldl _ (fun _ _ _ => ?_) _ ?_
    | with_reducible refine Kept.ite_snd_of (by with_reducible assumption) ?_ ?_
    | with_reducible refine Kept.foldl_fst _ (fun _ _ _ => ?_) _ ?_
    | with_reducible refine Kept.foldl_fst_of (by with_reducible assumption) (fun _ _ _ => ?_) ?_
    | with_reducible refine Kept.foldl_snd _ (fun _ _ _ => ?_) _ ?_
    | with_reducible refine Kept.foldl_snd_of (by with_reducible assumption) (fun _ _ _ => ?_) ?_
    | with_reducible refine Kept.foldl_thd _ (fun _ _ _ => ?_) _ ?_
    | with_reducible refine Kept.foldl_thd_of (by with_reducible assumption) (fun _ _ _ => ?_) ?_
    | dsimp only
    | simp only [reduceIte, Bool.false_eq_true]
    | split

theorem kept_moverRead_of {a s u : State} {x1} {x2} {w0} (e : State.moverRead s x1 x2 = (w0, u)) (h : Kept a s) : Kept a u := by
  have := kept_moverRead (x1 := x1) (x2 := x2) h
  rw [e] at this
  exact this

theorem kept_ouRead {a s : State} {x1} {x2} {x3} (h : Kept a s) : Kept a (State.ouRead s x1 x2 x3).2 := by
  unfold State.ouRead
  repeat' first
    | with_reducible refine Kept.ite ?_ ?_
    | with_reducible refine Kept.ite_snd ?_ ?_
    | with_reducible assumption
    | with_reducible apply kept_readOuEdge
    | with_reducible refine kept_readOuEdge_of (by with_reducible assumption) ?_
    | with_reducible refine Kept.foldl _ (fun _ _ _ => ?_) _ ?_
    | with_reducible refine Kept.ite_snd_of (by with_reducible assumption) ?_ ?_
    | with_reducible refine Kept.foldl_fst _ (fun _ _ _ => ?_) _ ?_
    | with_reducible refine Kept.foldl_fst_of (by with_reducible assumption) (fun _ _ _ => ?_) ?_
    | with_reducible refine Kept.foldl_snd _ (fun _ _ _ => ?_) _ ?_
    | with_reducible refine Kept.foldl_snd_of (by with_reducible assumption) (fun _ _ _ => ?_) ?_
    | with_reducible refine Kept.foldl_thd _ (fun _ _ _ => ?_) _ ?_
    | with_reducible refine Kept.foldl_thd_of (by with_reducible assumption) (fun _ _ _ => ?_) ?_
    | dsimp only
    | simp only [reduceIte, Bool.false_eq_true]
    | split

theorem kept_ouRead_of {a s u : State} {x1} {x2} {x3} {w0} (e : State.ouRead s x1 x2 x3 = (w0, u)) (h : Kept a s) : Kept a u := by
  have := kept_ouRead (x1 := x1) (x2 := x2) (x3 := x3) h
  rw [e] at this
  exact this

theorem held_lwsWrite {a s : State} {x1} {x2} {x3} (h : Held a s) : Held a (State.lwsWrite s x1 x2 x3) := by
  unfold State.lwsWrite
  repeat' first
    | with_reducible refine Held.ite ?_ ?_
    | with_reducible refine Held.ite_snd ?_ ?_
    | with_reducible assumption
    | with_reducible apply held_lwsCmd
    | with_reducible apply held_lwsStage
    | with_reducible refine Held.foldl _ (fun _ _ _ => ?_) _ ?_
    | with_reducible refine Held.ite_snd_of (by with_reducible assumption) ?_ ?_
    | with_reducible refine Held.foldl_snd _ (fun _ _ _ => ?_) _ ?_
    | dsimp only
    | simp only [reduceIte, Bool.false_eq_true]
    | split
    | fail_if_no_progress ((with_reducible refine Held.put ?_ ?_) <;> first | exact rfl | skip)

theorem kept_cicWrite {a s : State} {x1} {x2} {x3} (h : Quiet a s) : Quiet a (State.cicWrite s x1 x2 x3) := by
  unfold State.cicWrite
  repeat' first
    | with_reducible refine Quiet.ite ?_ ?_
    | with_reducible refine Quiet.ite_snd ?_ ?_
    | with_reducible assumption
    | with_reducible apply kept_setCic
    | with_reducible apply kept_cicSet
    | with_reducible apply kept_cicClear
    | with_reducible apply kept_cicComplete
    | with_reducible refine Quiet.foldl _ (fun _ _ _ => ?_) _ ?_
    | with_reducible refine Quiet.ite_snd_of (by with_reducible assumption) ?_ ?_
    | with_reducible refine Quiet.foldl_fst _ (fun _ _ _ => ?_) _ ?_
    | with_reducible refine Quiet.foldl_fst_of (by with_reducible assumption) (fun _ _ _ => ?_) ?_
    | with_reducible refine Quiet.foldl_snd _ (fun _ _ _ => ?_) _ ?_
    | with_reducible refine Quiet.foldl_snd_of (by with_reducible assumption) (fun _ _ _ => ?_) ?_
    | with_reducible refine Quiet.foldl_thd _ (fun _ _ _ => ?_) _ ?_
    | with_reducible refine Quiet.foldl_thd_of (by with_reducible assumption) (fun _ _ _ => ?_) ?_
    | dsimp only
    | simp only [reduceIte, Bool.false_eq_true]
    | split
    | fail_if_no_progress ((with_reducible refine Quiet.put ?_ ?_) <;> first | exact rfl | skip)

theorem kept_msixWrite {a s : State} {x1} {x2} {x3} {x4} (h : Quiet a s) : Quiet a (State.msixWrite s x1 x2 x3 x4) := by
  unfold State.msixWrite
  repeat' first
    | with_reducible refine Quiet.ite ?_ ?_
    | with_reducible refine Quiet.ite_snd ?_ ?_
    | with_reducible assumption
    | with_reducible apply kept_setVec
    | with_reducible refine Quiet.foldl _ (fun _ _ _ => ?_) _ ?_
    | with_reducible refine Quiet.ite_snd_of (by with_reducible assumption) ?_ ?_
    | with_reducible refine Quiet.foldl_fst _ (fun _ _ _ => ?_) _ ?_
    | with_reducible refine Quiet.foldl_fst_of (by with_reducible assumption) (fun _ _ _ => ?_) ?_
    | with_reducible refine Quiet.foldl_snd _ (fun _ _ _ => ?_) _ ?_
    | with_reducible refine Quiet.foldl_snd_of (by with_reducible assumption) (fun _ _ _ => ?_) ?_
    | with_reducible refine Quiet.foldl_thd _ (fun _ _ _ => ?_) _ ?_
    | with_reducible refine Quiet.foldl_thd_of (by with_reducible assumption) (fun _ _ _ => ?_) ?_
    | dsimp only
    | simp only [reduceIte, Bool.false_eq_true]
    | split

theorem kept_mbWrite {a s : State} {x1} {x2} {x3} {x4} (h : Kept a s) : Kept a (State.mbWrite s x1 x2 x3 x4) := by
  unfold State.mbWrite
  repeat' first
    | with_reducible refine Kept.ite ?_ ?_
    | with_reducible refine Kept.ite_snd ?_ ?_
    | with_reducible assumption
    | with_reducible apply kept_mbForeign
    | with_reducible apply kept_mbTx
    | with_reducible apply kept_mbSendWrite
    | with_reducible apply kept_setMb
    | with_reducible apply kept_mbAckWrite
    | with_reducible refine Kept.foldl _ (fun _ _ _ => ?_) _ ?_
    | with_reducible refine Kept.ite_snd_of (by with_reducible assumption) ?_ ?_
    | with_reducible refine Kept.foldl_fst _ (fun _ _ _ => ?_) _ ?_
    | with_reducible refine Kept.foldl_fst_of (by with_reducible assumption) (fun _ _ _ => ?_) ?_
    | with_reducible refine Kept.foldl_snd _ (fun _ _ _ => ?_) _ ?_
    | with_reducible refine Kept.foldl_snd_of (by with_reducible assumption) (fun _ _ _ => ?_) ?_
    | with_reducible refine Kept.foldl_thd _ (fun _ _ _ => ?_) _ ?_
    | with_reducible refine Kept.foldl_thd_of (by with_reducible assumption) (fun _ _ _ => ?_) ?_
    | dsimp only
    | simp only [reduceIte, Bool.false_eq_true]
    | split

theorem kept_mbTabWrite {a s : State} {x1} {x2} (h : Kept a s) : Kept a (State.mbTabWrite s x1 x2) := by
  unfold State.mbTabWrite
  repeat' first
    | with_reducible refine Kept.ite ?_ ?_
    | with_reducible refine Kept.ite_snd ?_ ?_
    | with_reducible assumption
    | with_reducible apply kept_mbBind
    | with_reducible apply kept_mbNote
    | with_reducible apply kept_mbLock
    | with_reducible refine Kept.foldl _ (fun _ _ _ => ?_) _ ?_
    | with_reducible refine Kept.ite_snd_of (by with_reducible assumption) ?_ ?_
    | with_reducible refine Kept.foldl_fst _ (fun _ _ _ => ?_) _ ?_
    | with_reducible refine Kept.foldl_fst_of (by with_reducible assumption) (fun _ _ _ => ?_) ?_
    | with_reducible refine Kept.foldl_snd _ (fun _ _ _ => ?_) _ ?_
    | with_reducible refine Kept.foldl_snd_of (by with_reducible assumption) (fun _ _ _ => ?_) ?_
    | with_reducible refine Kept.foldl_thd _ (fun _ _ _ => ?_) _ ?_
    | with_reducible refine Kept.foldl_thd_of (by with_reducible assumption) (fun _ _ _ => ?_) ?_
    | dsimp only
    | simp only [reduceIte, Bool.false_eq_true]
    | split
    | fail_if_no_progress ((with_reducible refine Kept.put ?_ ?_) <;> first | exact rfl | skip)

theorem held_fcRegWrite {a s : State} {x1} {x2} {x3} (h : Held a s) : Held a (State.fcRegWrite s x1 x2 x3) := by
  unfold State.fcRegWrite
  repeat' first
    | with_reducible refine Held.ite ?_ ?_
    | with_reducible refine Held.ite_snd ?_ ?_
    | with_reducible assumption
    | with_reducible apply Held.ofQuiet (kept_fcCtrl (Quiet.refl _))
    | with_reducible apply Held.ofQuiet (kept_fcLock (Quiet.refl _))
    | with_reducible apply Held.ofQuiet (kept_modFc (Quiet.refl _))
    | with_reducible apply held_fcSafe
    | with_reducible apply Held.ofQuiet (kept_fcTkey (Quiet.refl _))
    | with_reducible apply Held.ofQuiet (kept_fcTest (Quiet.refl _))
    | with_reducible apply Held.ofQuiet (kept_fcFirstClr (Quiet.refl _))
    | with_reducible apply Held.ofQuiet (kept_fcVec (Quiet.refl _))
    | with_reducible apply Held.ofQuiet (kept_fcLatch (Quiet.refl _))
    | with_reducible apply Held.ofQuiet (kept_fcForce (Quiet.refl _))
    | with_reducible apply Held.ofQuiet (kept_fcSrcWrite (Quiet.refl _))
    | with_reducible refine Held.foldl _ (fun _ _ _ => ?_) _ ?_
    | with_reducible refine Held.ite_snd_of (by with_reducible assumption) ?_ ?_
    | with_reducible refine Held.foldl_snd _ (fun _ _ _ => ?_) _ ?_
    | dsimp only
    | simp only [reduceIte, Bool.false_eq_true]
    | split

theorem kept_fcRegRead {a s : State} {x1} {x2} (h : Kept a s) : Kept a (State.fcRegRead s x1 x2).2 := by
  unfold State.fcRegRead
  repeat' first
    | with_reducible refine Kept.ite ?_ ?_
    | with_reducible refine Kept.ite_snd ?_ ?_
    | with_reducible assumption
    | with_reducible apply kept_readSafeT
    | with_reducible refine kept_readSafeT_of (by with_reducible assumption) ?_
    | with_reducible apply kept_readFirst
    | with_reducible refine kept_readFirst_of (by with_reducible assumption) ?_
    | with_reducible apply kept_readTrail
    | with_reducible refine kept_readTrail_of (by with_reducible assumption) ?_
    | with_reducible refine Kept.foldl _ (fun _ _ _ => ?_) _ ?_
    | with_reducible refine Kept.ite_snd_of (by with_reducible assumption) ?_ ?_
    | with_reducible refine Kept.foldl_fst _ (fun _ _ _ => ?_) _ ?_
    | with_reducible refine Kept.foldl_fst_of (by with_reducible assumption) (fun _ _ _ => ?_) ?_
    | with_reducible refine Kept.foldl_snd _ (fun _ _ _ => ?_) _ ?_
    | with_reducible refine Kept.foldl_snd_of (by with_reducible assumption) (fun _ _ _ => ?_) ?_
    | with_reducible refine Kept.foldl_thd _ (fun _ _ _ => ?_) _ ?_
    | with_reducible refine Kept.foldl_thd_of (by with_reducible assumption) (fun _ _ _ => ?_) ?_
    | dsimp only
    | simp only [reduceIte, Bool.false_eq_true]
    | split

theorem kept_fcRegRead_of {a s u : State} {x1} {x2} {w0} (e : State.fcRegRead s x1 x2 = (w0, u)) (h : Kept a s) : Kept a u := by
  have := kept_fcRegRead (x1 := x1) (x2 := x2) h
  rw [e] at this
  exact this

theorem kept_streamWrite {a s : State} {x1} {x2} {x3} (h : Quiet a s) : Quiet a (State.streamWrite s x1 x2 x3) := by
  unfold State.streamWrite
  repeat' first
    | with_reducible refine Quiet.ite ?_ ?_
    | with_reducible refine Quiet.ite_snd ?_ ?_
    | with_reducible assumption
    | with_reducible apply kept_rsCtrl
    | with_reducible apply kept_setStream
    | with_reducible refine Quiet.foldl _ (fun _ _ _ => ?_) _ ?_
    | with_reducible refine Quiet.ite_snd_of (by with_reducible assumption) ?_ ?_
    | with_reducible refine Quiet.foldl_fst _ (fun _ _ _ => ?_) _ ?_
    | with_reducible refine Quiet.foldl_fst_of (by with_reducible assumption) (fun _ _ _ => ?_) ?_
    | with_reducible refine Quiet.foldl_snd _ (fun _ _ _ => ?_) _ ?_
    | with_reducible refine Quiet.foldl_snd_of (by with_reducible assumption) (fun _ _ _ => ?_) ?_
    | with_reducible refine Quiet.foldl_thd _ (fun _ _ _ => ?_) _ ?_
    | with_reducible refine Quiet.foldl_thd_of (by with_reducible assumption) (fun _ _ _ => ?_) ?_
    | dsimp only
    | simp only [reduceIte, Bool.false_eq_true]
    | split

theorem kept_portWrite {a s : State} {x1} {x2} {x3} (h : Quiet a s) : Quiet a (State.portWrite s x1 x2 x3) := by
  unfold State.portWrite
  repeat' first
    | with_reducible refine Quiet.ite ?_ ?_
    | with_reducible refine Quiet.ite_snd ?_ ?_
    | with_reducible assumption
    | with_reducible apply kept_portCtrl
    | with_reducible apply kept_setPort
    | with_reducible apply kept_txqCtrl
    | with_reducible apply kept_setTxq
    | with_reducible apply kept_streamWrite
    | with_reducible refine Quiet.foldl _ (fun _ _ _ => ?_) _ ?_
    | with_reducible refine Quiet.ite_snd_of (by with_reducible assumption) ?_ ?_
    | with_reducible refine Quiet.foldl_fst _ (fun _ _ _ => ?_) _ ?_
    | with_reducible refine Quiet.foldl_fst_of (by with_reducible assumption) (fun _ _ _ => ?_) ?_
    | with_reducible refine Quiet.foldl_snd _ (fun _ _ _ => ?_) _ ?_
    | with_reducible refine Quiet.foldl_snd_of (by with_reducible assumption) (fun _ _ _ => ?_) ?_
    | with_reducible refine Quiet.foldl_thd _ (fun _ _ _ => ?_) _ ?_
    | with_reducible refine Quiet.foldl_thd_of (by with_reducible assumption) (fun _ _ _ => ?_) ?_
    | dsimp only
    | simp only [reduceIte, Bool.false_eq_true]
    | split

theorem kept_yzCtrl {a s : State} {x1} (h : Quiet a s) : Quiet a (State.yzCtrl s x1) := by
  unfold State.yzCtrl
  repeat' first
    | with_reducible refine Quiet.ite ?_ ?_
    | with_reducible refine Quiet.ite_snd ?_ ?_
    | with_reducible assumption
    | with_reducible apply kept_setYz
    | with_reducible apply kept_modYz

theorem kept_yzPorts {a s : State} {x1} (h : Quiet a s) : Quiet a (State.yzPorts s x1) := by
  unfold State.yzPorts
  repeat' first
    | with_reducible refine Quiet.ite ?_ ?_
    | with_reducible assumption
    | with_reducible apply kept_modYz
    | with_reducible apply kept_modPort
    | with_reducible refine Quiet.foldl _ (fun _ _ _ => ?_) _ ?_

theorem kept_yzWrite {a s : State} {x1} {x2} (h : Quiet a s) : Quiet a (State.yzWrite s x1 x2) := by
  unfold State.yzWrite
  repeat' first
    | with_reducible refine Quiet.ite ?_ ?_
    | with_reducible refine Quiet.ite_snd ?_ ?_
    | with_reducible assumption
    | with_reducible apply kept_setYz
    | with_reducible apply kept_yzCtrl
    | with_reducible apply kept_yzPorts
    | with_reducible apply kept_stopWrite
    | with_reducible refine Quiet.foldl _ (fun _ _ _ => ?_) _ ?_
    | with_reducible refine Quiet.ite_snd_of (by with_reducible assumption) ?_ ?_
    | with_reducible refine Quiet.foldl_fst _ (fun _ _ _ => ?_) _ ?_
    | with_reducible refine Quiet.foldl_fst_of (by with_reducible assumption) (fun _ _ _ => ?_) ?_
    | with_reducible refine Quiet.foldl_snd _ (fun _ _ _ => ?_) _ ?_
    | with_reducible refine Quiet.foldl_snd_of (by with_reducible assumption) (fun _ _ _ => ?_) ?_
    | with_reducible refine Quiet.foldl_thd _ (fun _ _ _ => ?_) _ ?_
    | with_reducible refine Quiet.foldl_thd_of (by with_reducible assumption) (fun _ _ _ => ?_) ?_
    | dsimp only
    | simp only [reduceIte, Bool.false_eq_true]
    | split

theorem kept_ptpCtrl {a s : State} {x1} (h : Quiet a s) : Quiet a (State.ptpCtrl s x1) := by
  unfold State.ptpCtrl
  repeat' first
    | with_reducible refine Quiet.ite ?_ ?_
    | with_reducible refine Quiet.ite_snd ?_ ?_
    | with_reducible assumption
    | with_reducible apply kept_modPtp

theorem kept_ptpWrite {a s : State} {x1} {x2} (h : Quiet a s) : Quiet a (State.ptpWrite s x1 x2) := by
  unfold State.ptpWrite
  repeat' first
    | with_reducible refine Quiet.ite ?_ ?_
    | with_reducible refine Quiet.ite_snd ?_ ?_
    | with_reducible assumption
    | with_reducible apply kept_ptpCtrl
    | with_reducible apply kept_modPtp
    | with_reducible refine Quiet.foldl _ (fun _ _ _ => ?_) _ ?_
    | with_reducible refine Quiet.ite_snd_of (by with_reducible assumption) ?_ ?_
    | with_reducible refine Quiet.foldl_fst _ (fun _ _ _ => ?_) _ ?_
    | with_reducible refine Quiet.foldl_fst_of (by with_reducible assumption) (fun _ _ _ => ?_) ?_
    | with_reducible refine Quiet.foldl_snd _ (fun _ _ _ => ?_) _ ?_
    | with_reducible refine Quiet.foldl_snd_of (by with_reducible assumption) (fun _ _ _ => ?_) ?_
    | with_reducible refine Quiet.foldl_thd _ (fun _ _ _ => ?_) _ ?_
    | with_reducible refine Quiet.foldl_thd_of (by with_reducible assumption) (fun _ _ _ => ?_) ?_
    | dsimp only
    | simp only [reduceIte, Bool.false_eq_true]
    | split

theorem kept_ptpRead {a s : State} {x1} {x2} (h : Kept a s) : Kept a (State.ptpRead s x1 x2).2 := by
  unfold State.ptpRead
  repeat' first
    | with_reducible refine Kept.ite ?_ ?_
    | with_reducible refine Kept.ite_snd ?_ ?_
    | with_reducible assumption
    | with_reducible apply kept_readPtpNow
    | with_reducible refine kept_readPtpNow_of (by with_reducible assumption) ?_
    | with_reducible refine Kept.foldl _ (fun _ _ _ => ?_) _ ?_
    | with_reducible refine Kept.ite_snd_of (by with_reducible assumption) ?_ ?_
    | with_reducible refine Kept.foldl_fst _ (fun _ _ _ => ?_) _ ?_
    | with_reducible refine Kept.foldl_fst_of (by with_reducible assumption) (fun _ _ _ => ?_) ?_
    | with_reducible refine Kept.foldl_snd _ (fun _ _ _ => ?_) _ ?_
    | with_reducible refine Kept.foldl_snd_of (by with_reducible assumption) (fun _ _ _ => ?_) ?_
    | with_reducible refine Kept.foldl_thd _ (fun _ _ _ => ?_) _ ?_
    | with_reducible refine Kept.foldl_thd_of (by with_reducible assumption) (fun _ _ _ => ?_) ?_
    | dsimp only
    | simp only [reduceIte, Bool.false_eq_true]
    | split

theorem kept_ptpRead_of {a s u : State} {x1} {x2} {w0} (e : State.ptpRead s x1 x2 = (w0, u)) (h : Kept a s) : Kept a u := by
  have := kept_ptpRead (x1 := x1) (x2 := x2) h
  rw [e] at this
  exact this

theorem kept_coreWrite {a s : State} {x1} {x2} {x3} {x4} (h : Quiet a s) : Quiet a (State.coreWrite s x1 x2 x3 x4) := by
  unfold State.coreWrite
  repeat' first
    | with_reducible refine Quiet.ite ?_ ?_
    | with_reducible refine Quiet.ite_snd ?_ ?_
    | with_reducible assumption
    | with_reducible apply kept_coreCtrl
    | with_reducible apply kept_modCore
    | with_reducible apply kept_cmo
    | with_reducible apply kept_setMtip
    | with_reducible apply kept_wakeCore
    | with_reducible apply kept_wdCtrl
    | with_reducible apply kept_wdKick
    | with_reducible refine Quiet.foldl _ (fun _ _ _ => ?_) _ ?_
    | with_reducible refine Quiet.ite_snd_of (by with_reducible assumption) ?_ ?_
    | with_reducible refine Quiet.foldl_fst _ (fun _ _ _ => ?_) _ ?_
    | with_reducible refine Quiet.foldl_fst_of (by with_reducible assumption) (fun _ _ _ => ?_) ?_
    | with_reducible refine Quiet.foldl_snd _ (fun _ _ _ => ?_) _ ?_
    | with_reducible refine Quiet.foldl_snd_of (by with_reducible assumption) (fun _ _ _ => ?_) ?_
    | with_reducible refine Quiet.foldl_thd _ (fun _ _ _ => ?_) _ ?_
    | with_reducible refine Quiet.foldl_thd_of (by with_reducible assumption) (fun _ _ _ => ?_) ?_
    | dsimp only
    | simp only [reduceIte, Bool.false_eq_true]
    | split

theorem kept_memWrite {a s : State} {x1} {x2} (h : Quiet a s) : Quiet a (State.memWrite s x1 x2) := by
  unfold State.memWrite
  repeat' first
    | with_reducible refine Quiet.ite ?_ ?_
    | with_reducible refine Quiet.ite_snd ?_ ?_
    | with_reducible assumption
    | with_reducible apply kept_arbCtrl
    | with_reducible refine Quiet.foldl _ (fun _ _ _ => ?_) _ ?_
    | with_reducible refine Quiet.ite_snd_of (by with_reducible assumption) ?_ ?_
    | with_reducible refine Quiet.foldl_fst _ (fun _ _ _ => ?_) _ ?_
    | with_reducible refine Quiet.foldl_fst_of (by with_reducible assumption) (fun _ _ _ => ?_) ?_
    | with_reducible refine Quiet.foldl_snd _ (fun _ _ _ => ?_) _ ?_
    | with_reducible refine Quiet.foldl_snd_of (by with_reducible assumption) (fun _ _ _ => ?_) ?_
    | with_reducible refine Quiet.foldl_thd _ (fun _ _ _ => ?_) _ ?_
    | with_reducible refine Quiet.foldl_thd_of (by with_reducible assumption) (fun _ _ _ => ?_) ?_
    | dsimp only
    | simp only [reduceIte, Bool.false_eq_true]
    | split
    | fail_if_no_progress ((with_reducible refine Quiet.put ?_ ?_) <;> first | exact rfl | skip)

theorem kept_memRead {a s : State} {x1} {x2} (h : Kept a s) : Kept a (State.memRead s x1 x2).2 := by
  unfold State.memRead
  repeat' first
    | with_reducible refine Kept.ite ?_ ?_
    | with_reducible refine Kept.ite_snd ?_ ?_
    | with_reducible assumption
    | with_reducible apply kept_readMtime
    | with_reducible refine kept_readMtime_of (by with_reducible assumption) ?_
    | with_reducible refine Kept.foldl _ (fun _ _ _ => ?_) _ ?_
    | with_reducible refine Kept.ite_snd_of (by with_reducible assumption) ?_ ?_
    | with_reducible refine Kept.foldl_fst _ (fun _ _ _ => ?_) _ ?_
    | with_reducible refine Kept.foldl_fst_of (by with_reducible assumption) (fun _ _ _ => ?_) ?_
    | with_reducible refine Kept.foldl_snd _ (fun _ _ _ => ?_) _ ?_
    | with_reducible refine Kept.foldl_snd_of (by with_reducible assumption) (fun _ _ _ => ?_) ?_
    | with_reducible refine Kept.foldl_thd _ (fun _ _ _ => ?_) _ ?_
    | with_reducible refine Kept.foldl_thd_of (by with_reducible assumption) (fun _ _ _ => ?_) ?_
    | dsimp only
    | simp only [reduceIte, Bool.false_eq_true]
    | split

theorem kept_memRead_of {a s u : State} {x1} {x2} {w0} (e : State.memRead s x1 x2 = (w0, u)) (h : Kept a s) : Kept a u := by
  have := kept_memRead (x1 := x1) (x2 := x2) h
  rw [e] at this
  exact this

theorem held_bootWrite {a s : State} {x1} {x2} {x3} (h : Held a s) : Held a (State.bootWrite s x1 x2 x3) := by
  unfold State.bootWrite
  repeat' first
    | with_reducible refine Held.ite ?_ ?_
    | with_reducible refine Held.ite_snd ?_ ?_
    | with_reducible assumption
    | with_reducible apply held_bootGo
    | with_reducible apply held_fuseCmd
    | with_reducible refine Held.foldl _ (fun _ _ _ => ?_) _ ?_
    | with_reducible refine Held.ite_snd_of (by with_reducible assumption) ?_ ?_
    | with_reducible refine Held.foldl_snd _ (fun _ _ _ => ?_) _ ?_
    | dsimp only
    | simp only [reduceIte, Bool.false_eq_true]
    | split
    | fail_if_no_progress ((with_reducible refine Held.put ?_ ?_) <;> first | exact rfl | skip)

theorem held_tcmAdvance {a s : State} (h : Held a s) : Held a (State.tcmAdvance s) := by
  unfold State.tcmAdvance
  repeat' first
    | with_reducible refine Held.ite ?_ ?_
    | with_reducible refine Held.ite_snd ?_ ?_
    | with_reducible assumption
    | with_reducible refine Held.foldl _ (fun _ _ _ => ?_) _ ?_
    | with_reducible refine Held.ite_snd_of (by with_reducible assumption) ?_ ?_
    | with_reducible refine Held.foldl_snd _ (fun _ _ _ => ?_) _ ?_
    | dsimp only
    | simp only [reduceIte, Bool.false_eq_true]
    | split
    | fail_if_no_progress ((with_reducible refine Held.put ?_ ?_) <;> first | exact rfl | skip)

theorem held_tcmaWrite {a s : State} {x1} {x2} (h : Held a s) : Held a (State.tcmaWrite s x1 x2) := by
  unfold State.tcmaWrite
  repeat' first
    | with_reducible refine Held.ite ?_ ?_
    | with_reducible refine Held.ite_snd ?_ ?_
    | with_reducible assumption
    | with_reducible apply Held.ofQuiet (kept_tcmWriteOther (Quiet.refl _))
    | with_reducible apply held_tcmAdvance
    | with_reducible refine Held.foldl _ (fun _ _ _ => ?_) _ ?_
    | with_reducible refine Held.ite_snd_of (by with_reducible assumption) ?_ ?_
    | with_reducible refine Held.foldl_fst _ (fun _ _ _ => ?_) _ ?_
    | with_reducible refine Held.foldl_fst_of (by with_reducible assumption) (fun _ _ _ => ?_) ?_
    | with_reducible refine Held.foldl_snd _ (fun _ _ _ => ?_) _ ?_
    | with_reducible refine Held.foldl_snd_of (by with_reducible assumption) (fun _ _ _ => ?_) ?_
    | with_reducible refine Held.foldl_thd _ (fun _ _ _ => ?_) _ ?_
    | with_reducible refine Held.foldl_thd_of (by with_reducible assumption) (fun _ _ _ => ?_) ?_
    | dsimp only
    | simp only [reduceIte, Bool.false_eq_true]
    | split
    | fail_if_no_progress ((with_reducible refine Held.put ?_ ?_) <;> first | exact rfl | skip)

theorem held_tcmaTake {a s : State} (h : Held a s) : Held a (State.tcmaTake s).2 := by
  unfold State.tcmaTake
  repeat' first
    | with_reducible refine Held.ite ?_ ?_
    | with_reducible refine Held.ite_snd ?_ ?_
    | with_reducible assumption
    | with_reducible apply Held.ofQuiet (kept_tcmRead (Quiet.refl _))
    | with_reducible refine Held.ofQuiet (kept_tcmRead_of (by with_reducible assumption) (Quiet.refl _)) ?_
    | with_reducible apply held_tcmAdvance
    | with_reducible refine Held.foldl _ (fun _ _ _ => ?_) _ ?_
    | with_reducible refine Held.ite_snd_of (by with_reducible assumption) ?_ ?_
    | with_reducible refine Held.foldl_snd _ (fun _ _ _ => ?_) _ ?_
    | dsimp only
    | simp only [reduceIte, Bool.false_eq_true]
    | split
    | fail_if_no_progress ((with_reducible refine Held.put ?_ ?_) <;> first | exact rfl | skip)

theorem held_tcmaTake_of {a s u : State} {w0} (e : State.tcmaTake s = (w0, u)) (h : Held a s) : Held a u := by
  have := held_tcmaTake h
  rw [e] at this
  exact this

theorem held_tcmaRead {a s : State} {x1} (h : Held a s) : Held a (State.tcmaRead s x1).2 := by
  unfold State.tcmaRead
  repeat' first
    | with_reducible refine Held.ite ?_ ?_
    | with_reducible refine Held.ite_snd ?_ ?_
    | with_reducible assumption
    | with_reducible apply held_tcmaTake

theorem held_tcmaRead_of {a s u : State} {x1} {w0} (e : State.tcmaRead s x1 = (w0, u)) (h : Held a s) : Held a u := by
  have := held_tcmaRead (x1 := x1) h
  rw [e] at this
  exact this

theorem held_tcmaRegWrite {a s : State} {x1} {x2} {x3} (h : Held a s) : Held a (State.tcmaRegWrite s x1 x2 x3) := by
  unfold State.tcmaRegWrite
  repeat' first
    | with_reducible refine Held.ite ?_ ?_
    | with_reducible refine Held.ite_snd ?_ ?_
    | with_reducible assumption
    | with_reducible apply held_tcmaWrite
    | with_reducible refine Held.foldl _ (fun _ _ _ => ?_) _ ?_
    | with_reducible refine Held.ite_snd_of (by with_reducible assumption) ?_ ?_
    | with_reducible refine Held.foldl_snd _ (fun _ _ _ => ?_) _ ?_
    | dsimp only
    | simp only [reduceIte, Bool.false_eq_true]
    | split
    | fail_if_no_progress ((with_reducible refine Held.put ?_ ?_) <;> first | exact rfl | skip)

theorem held_tcmaRegRead {a s : State} {x1} {x2} (h : Held a s) : Held a (State.tcmaRegRead s x1 x2).2 := by
  unfold State.tcmaRegRead
  repeat' first
    | with_reducible refine Held.ite ?_ ?_
    | with_reducible refine Held.ite_snd ?_ ?_
    | with_reducible assumption
    | with_reducible apply held_tcmaRead
    | with_reducible refine held_tcmaRead_of (by with_reducible assumption) ?_
    | with_reducible refine Held.foldl _ (fun _ _ _ => ?_) _ ?_
    | with_reducible refine Held.ite_snd_of (by with_reducible assumption) ?_ ?_
    | with_reducible refine Held.foldl_snd _ (fun _ _ _ => ?_) _ ?_
    | dsimp only
    | simp only [reduceIte, Bool.false_eq_true]
    | split

theorem held_tcmaRegRead_of {a s u : State} {x1} {x2} {w0} (e : State.tcmaRegRead s x1 x2 = (w0, u)) (h : Held a s) : Held a u := by
  have := held_tcmaRegRead (x1 := x1) (x2 := x2) h
  rw [e] at this
  exact this

theorem kept_noPut {a s : State} {x1} {x2} {x3} {x4} (h : Quiet a s) : Quiet a (noPut s x1 x2 x3 x4) := by
  unfold noPut
  repeat' first
    | with_reducible refine Quiet.ite ?_ ?_
    | with_reducible refine Quiet.ite_snd ?_ ?_
    | with_reducible assumption

/-- A block's registers leave the queue alone and keep the memories canonical. -/
def BlockHeld (b : Block) : Prop := (∀ s m i r v, Held s (b.put s m i r v)) ∧ ∀ s m i r, Held s (b.get s m i r).2

theorem blocksA_held : ∀ b ∈ blocksA, BlockHeld b := by
  unfold blocksA
  repeat' first
    | exact fun _ h => absurd h List.not_mem_nil
    | refine List.forall_mem_cons.2 ⟨⟨fun s m i r v => ?_, fun s m i r => ?_⟩, ?_⟩
  all_goals
      try dsimp only [still, noPut]
      try split
      all_goals first
        | with_reducible exact Held.refl _
        | with_reducible exact (kept_adminWrite (.refl _)).toHeld
        | with_reducible exact held_bootWrite (.refl _)
        | with_reducible exact (kept_capRead (.refl _)).toHeld
        | with_reducible exact (kept_capWrite (.refl _)).toHeld
        | with_reducible exact (kept_cellRead (.refl _)).toHeld
        | with_reducible exact (kept_cellWrite (.refl _)).toHeld
        | with_reducible exact (kept_cicWrite (.refl _)).toHeld
        | with_reducible exact (kept_cmpRead (.refl _)).toHeld
        | with_reducible exact (kept_cmpWrite (.refl _)).toHeld
        | with_reducible exact (kept_coreWrite (.refl _)).toHeld
        | with_reducible exact (kept_ctxRead (.refl _)).toHeld
        | with_reducible exact (kept_domWrite (.refl _)).toHeld
        | with_reducible exact (kept_encWrite (.refl _)).toHeld
        | with_reducible exact (kept_eqRegRead (.refl _)).toHeld
        | with_reducible exact (kept_fcRegRead (.refl _)).toHeld
        | with_reducible exact held_fcRegWrite (.refl _)
        | with_reducible exact (kept_fqRegRead (.refl _)).toHeld
        | with_reducible exact (kept_fqWrite (.refl _)).toHeld
        | with_reducible exact held_lwsWrite (.refl _)
        | with_reducible exact (kept_mainsWrite (.refl _)).toHeld
        | with_reducible exact (kept_mbTabWrite (.refl _)).toHeld
        | with_reducible exact (kept_mbWrite (.refl _)).toHeld
        | with_reducible exact (kept_memRead (.refl _)).toHeld
        | with_reducible exact (kept_memWrite (.refl _)).toHeld
        | with_reducible exact (kept_modChan (.refl _)).toHeld
        | with_reducible exact (kept_modWq (.refl _)).toHeld
        | with_reducible exact (kept_moverCtrl (.refl _)).toHeld
        | with_reducible exact (kept_moverRead (.refl _)).toHeld
        | with_reducible exact (kept_msixWrite (.refl _)).toHeld
        | with_reducible exact (kept_ouRead (.refl _)).toHeld
        | with_reducible exact (kept_portWrite (.refl _)).toHeld
        | with_reducible exact (kept_ptpRead (.refl _)).toHeld
        | with_reducible exact (kept_ptpWrite (.refl _)).toHeld
        | with_reducible exact (kept_readMvState (.refl _)).toHeld
        | with_reducible exact (kept_rstRead (.refl _)).toHeld
        | with_reducible exact held_rstWrite (.refl _)
        | with_reducible exact (kept_schedCtrl (.refl _)).toHeld
        | with_reducible exact (kept_serWrite (.refl _)).toHeld
        | with_reducible exact (kept_startRead (.refl _)).toHeld
        | with_reducible exact (kept_startWrite (.refl _)).toHeld
        | with_reducible exact held_tcmaRegRead (.refl _)
        | with_reducible exact held_tcmaRegWrite (.refl _)
        | with_reducible exact (kept_undRead (.refl _)).toHeld
        | with_reducible exact (kept_undWrite (.refl _)).toHeld
        | with_reducible exact (kept_winWrite (.refl _)).toHeld
        | with_reducible exact (kept_wqRegRead (.refl _)).toHeld
        | with_reducible exact (kept_xlRead (.refl _)).toHeld
        | with_reducible exact (kept_xlWrite (.refl _)).toHeld
        | with_reducible exact (kept_yzWrite (.refl _)).toHeld
        | exact Held.put (.refl _) rfl

theorem blocksB_held : ∀ b ∈ blocksB, BlockHeld b := by
  unfold blocksB
  repeat' first
    | exact fun _ h => absurd h List.not_mem_nil
    | refine List.forall_mem_cons.2 ⟨⟨fun s m i r v => ?_, fun s m i r => ?_⟩, ?_⟩
  all_goals
      try dsimp only [still, noPut]
      try split
      all_goals first
        | with_reducible exact Held.refl _
        | with_reducible exact (kept_adminWrite (.refl _)).toHeld
        | with_reducible exact held_bootWrite (.refl _)
        | with_reducible exact (kept_capRead (.refl _)).toHeld
        | with_reducible exact (kept_capWrite (.refl _)).toHeld
        | with_reducible exact (kept_cellRead (.refl _)).toHeld
        | with_reducible exact (kept_cellWrite (.refl _)).toHeld
        | with_reducible exact (kept_cicWrite (.refl _)).toHeld
        | with_reducible exact (kept_cmpRead (.refl _)).toHeld
        | with_reducible exact (kept_cmpWrite (.refl _)).toHeld
        | with_reducible exact (kept_coreWrite (.refl _)).toHeld
        | with_reducible exact (kept_ctxRead (.refl _)).toHeld
        | with_reducible exact (kept_domWrite (.refl _)).toHeld
        | with_reducible exact (kept_encWrite (.refl _)).toHeld
        | with_reducible exact (kept_eqRegRead (.refl _)).toHeld
        | with_reducible exact (kept_fcRegRead (.refl _)).toHeld
        | with_reducible exact held_fcRegWrite (.refl _)
        | with_reducible exact (kept_fqRegRead (.refl _)).toHeld
        | with_reducible exact (kept_fqWrite (.refl _)).toHeld
        | with_reducible exact held_lwsWrite (.refl _)
        | with_reducible exact (kept_mainsWrite (.refl _)).toHeld
        | with_reducible exact (kept_mbTabWrite (.refl _)).toHeld
        | with_reducible exact (kept_mbWrite (.refl _)).toHeld
        | with_reducible exact (kept_memRead (.refl _)).toHeld
        | with_reducible exact (kept_memWrite (.refl _)).toHeld
        | with_reducible exact (kept_modChan (.refl _)).toHeld
        | with_reducible exact (kept_modWq (.refl _)).toHeld
        | with_reducible exact (kept_moverCtrl (.refl _)).toHeld
        | with_reducible exact (kept_moverRead (.refl _)).toHeld
        | with_reducible exact (kept_msixWrite (.refl _)).toHeld
        | with_reducible exact (kept_ouRead (.refl _)).toHeld
        | with_reducible exact (kept_portWrite (.refl _)).toHeld
        | with_reducible exact (kept_ptpRead (.refl _)).toHeld
        | with_reducible exact (kept_ptpWrite (.refl _)).toHeld
        | with_reducible exact (kept_readMvState (.refl _)).toHeld
        | with_reducible exact (kept_rstRead (.refl _)).toHeld
        | with_reducible exact held_rstWrite (.refl _)
        | with_reducible exact (kept_schedCtrl (.refl _)).toHeld
        | with_reducible exact (kept_serWrite (.refl _)).toHeld
        | with_reducible exact (kept_startRead (.refl _)).toHeld
        | with_reducible exact (kept_startWrite (.refl _)).toHeld
        | with_reducible exact held_tcmaRegRead (.refl _)
        | with_reducible exact held_tcmaRegWrite (.refl _)
        | with_reducible exact (kept_undRead (.refl _)).toHeld
        | with_reducible exact (kept_undWrite (.refl _)).toHeld
        | with_reducible exact (kept_winWrite (.refl _)).toHeld
        | with_reducible exact (kept_wqRegRead (.refl _)).toHeld
        | with_reducible exact (kept_xlRead (.refl _)).toHeld
        | with_reducible exact (kept_xlWrite (.refl _)).toHeld
        | with_reducible exact (kept_yzWrite (.refl _)).toHeld
        | exact Held.put (.refl _) rfl

theorem blocks_held : ∀ b ∈ blocksA ++ blocksB, BlockHeld b := by
  intro b hb
  rcases List.mem_append.1 hb with h | h
  · exact blocksA_held b h
  · exact blocksB_held b h

theorem held_putReg {a s : State} {x1} {x2} {x3} (h : Held a s) : Held a (State.putReg s x1 x2 x3) := by
  unfold State.putReg
  split
  · rename_i b hb
    exact h.trans ((blocks_held b (List.mem_of_find?_eq_some hb)).1 _ _ _ _ _)
  · exact h

theorem held_getReg {a s : State} {x1} {x2} (h : Held a s) : Held a (State.getReg s x1 x2).2 := by
  unfold State.getReg
  split
  · rename_i b hb
    exact h.trans ((blocks_held b (List.mem_of_find?_eq_some hb)).2 _ _ _ _)
  · exact h

theorem held_getReg_of {a s u : State} {x1} {x2} {w0} (e : State.getReg s x1 x2 = (w0, u)) (h : Held a s) : Held a u := by
  have := held_getReg (x1 := x1) (x2 := x2) h
  rw [e] at this
  exact this

theorem kept_bar4Read {a s : State} {x1} {x2} (h : Quiet a s) : Quiet a (State.bar4Read s x1 x2) := by
  unfold State.bar4Read
  repeat' first
    | with_reducible refine Quiet.ite ?_ ?_
    | with_reducible refine Quiet.ite_snd ?_ ?_
    | with_reducible assumption
    | with_reducible apply kept_sramRead
    | with_reducible refine kept_sramRead_of (by with_reducible assumption) ?_
    | with_reducible apply kept_emit
    | with_reducible refine Quiet.foldl _ (fun _ _ _ => ?_) _ ?_
    | with_reducible refine Quiet.ite_snd_of (by with_reducible assumption) ?_ ?_
    | with_reducible refine Quiet.foldl_fst _ (fun _ _ _ => ?_) _ ?_
    | with_reducible refine Quiet.foldl_fst_of (by with_reducible assumption) (fun _ _ _ => ?_) ?_
    | with_reducible refine Quiet.foldl_snd _ (fun _ _ _ => ?_) _ ?_
    | with_reducible refine Quiet.foldl_snd_of (by with_reducible assumption) (fun _ _ _ => ?_) ?_
    | with_reducible refine Quiet.foldl_thd _ (fun _ _ _ => ?_) _ ?_
    | with_reducible refine Quiet.foldl_thd_of (by with_reducible assumption) (fun _ _ _ => ?_) ?_
    | dsimp only
    | simp only [reduceIte, Bool.false_eq_true]
    | split

theorem kept_bar4 {a s : State} {x1} {x2} {x3} (h : Quiet a s) : Quiet a (State.bar4 s x1 x2 x3) := by
  unfold State.bar4
  repeat' first
    | with_reducible refine Quiet.ite ?_ ?_
    | with_reducible refine Quiet.ite_snd ?_ ?_
    | with_reducible assumption
    | with_reducible apply kept_sramWrite
    | with_reducible apply kept_bar4Read
    | with_reducible refine Quiet.foldl _ (fun _ _ _ => ?_) _ ?_
    | with_reducible refine Quiet.ite_snd_of (by with_reducible assumption) ?_ ?_
    | with_reducible refine Quiet.foldl_fst _ (fun _ _ _ => ?_) _ ?_
    | with_reducible refine Quiet.foldl_fst_of (by with_reducible assumption) (fun _ _ _ => ?_) ?_
    | with_reducible refine Quiet.foldl_snd _ (fun _ _ _ => ?_) _ ?_
    | with_reducible refine Quiet.foldl_snd_of (by with_reducible assumption) (fun _ _ _ => ?_) ?_
    | with_reducible refine Quiet.foldl_thd _ (fun _ _ _ => ?_) _ ?_
    | with_reducible refine Quiet.foldl_thd_of (by with_reducible assumption) (fun _ _ _ => ?_) ?_
    | dsimp only
    | simp only [reduceIte, Bool.false_eq_true]
    | split

end Sys2Proof.Machine
end

