-- ==== Sys2Proof/Laws/KeptService.lean ====
section
/-! SUPPORT. What the operations of Machine/Service.lean leave alone (`Kept`, `Held`). -/

namespace Sys2Proof.Machine

theorem held_usbReset {a s : State} (h : Held a s) : Held a (State.usbReset s) := by
  unfold State.usbReset
  repeat' first
    | with_reducible refine Held.ite ?_ ?_
    | with_reducible refine Held.ite_snd ?_ ?_
    | with_reducible assumption
    | with_reducible apply Held.ofKept (kept_mbReset (Kept.refl _))
    | with_reducible refine Held.foldl _ (fun _ _ _ => ?_) _ ?_
    | with_reducible refine Held.ite_snd_of (by with_reducible assumption) ?_ ?_
    | with_reducible refine Held.foldl_snd _ (fun _ _ _ => ?_) _ ?_
    | dsimp only
    | simp only [reduceIte, Bool.false_eq_true]
    | split
    | fail_if_no_progress ((with_reducible refine Held.put ?_ ?_) <;> first | exact rfl | skip)

theorem kept_answer {a s : State} {x1} {x2} (h : Quiet a s) : Quiet a (State.answer s x1 x2) := by
  unfold State.answer
  repeat' first
    | with_reducible refine Quiet.ite ?_ ?_
    | with_reducible refine Quiet.ite_snd ?_ ?_
    | with_reducible assumption
    | with_reducible apply kept_emit

theorem held_svcWord {a s : State} {x1} (h : Held a s) : Held a (State.svcWord s x1).2 := by
  unfold State.svcWord
  repeat' first
    | with_reducible refine Held.ite ?_ ?_
    | with_reducible refine Held.ite_snd ?_ ?_
    | with_reducible assumption
    | with_reducible apply held_getReg
    | with_reducible refine held_getReg_of (by with_reducible assumption) ?_
    | with_reducible apply Held.ofKept (kept_restAccess (Kept.refl _))

theorem held_svcWord_of {a s u : State} {x1} {w0} (e : State.svcWord s x1 = (w0, u)) (h : Held a s) : Held a u := by
  have := held_svcWord (x1 := x1) h
  rw [e] at this
  exact this

theorem held_svcWords {a s : State} {x1} {x2} (h : Held a s) : Held a (State.svcWords s x1 x2).2 := by
  induction x2 generalizing s x1 with
  | zero =>
   unfold State.svcWords
   repeat' first
    | with_reducible refine Held.ite ?_ ?_
    | with_reducible refine Held.ite_snd ?_ ?_
    | with_reducible assumption
  | succ n ih =>
   unfold State.svcWords
   repeat' first
    | with_reducible apply ih
    | with_reducible refine Held.ite ?_ ?_
    | with_reducible refine Held.ite_snd ?_ ?_
    | with_reducible assumption
    | with_reducible apply held_svcWord

theorem held_svcWords_of {a s u : State} {x1} {x2} {w0} (e : State.svcWords s x1 x2 = (w0, u)) (h : Held a s) : Held a u := by
  have := held_svcWords (x1 := x1) (x2 := x2) h
  rw [e] at this
  exact this

theorem held_svcSend {a s : State} {x1} {x2} (h : Held a s) : Held a (State.svcSend s x1 x2) := by
  unfold State.svcSend
  repeat' first
    | with_reducible refine Held.ite ?_ ?_
    | with_reducible refine Held.ite_snd ?_ ?_
    | with_reducible assumption
    | with_reducible apply held_putReg
    | with_reducible apply Held.ofQuiet (kept_answer (Quiet.refl _))
    | with_reducible refine Held.foldl _ (fun _ _ _ => ?_) _ ?_

theorem kept_svcAck {a s : State} {x1} {x2} (h : Kept a s) : Kept a (State.svcAck s x1 x2) := by
  unfold State.svcAck
  repeat' first
    | with_reducible refine Kept.ite ?_ ?_
    | with_reducible refine Kept.ite_snd ?_ ?_
    | with_reducible assumption
    | with_reducible apply Kept.ofQuiet (kept_answer (Quiet.refl _))
    | with_reducible apply kept_mbAckWrite

theorem held_svcStage {a s : State} {x1} {x2} (h : Held a s) : Held a (State.svcStage s x1 x2) := by
  unfold State.svcStage
  repeat' first
    | with_reducible refine Held.ite ?_ ?_
    | with_reducible refine Held.ite_snd ?_ ?_
    | with_reducible assumption
    | with_reducible apply Held.ofQuiet (kept_answer (Quiet.refl _))
    | with_reducible apply held_lwsStage

theorem held_svcCommit {a s : State} {x1} {x2} {x3} (h : Held a s) : Held a (State.svcCommit s x1 x2 x3) := by
  unfold State.svcCommit
  repeat' first
    | with_reducible refine Held.ite ?_ ?_
    | with_reducible refine Held.ite_snd ?_ ?_
    | with_reducible assumption
    | with_reducible apply held_lwsCmd
    | with_reducible apply Held.ofQuiet (kept_emit (Quiet.refl _))
    | with_reducible refine Held.foldl _ (fun _ _ _ => ?_) _ ?_
    | with_reducible refine Held.ite_snd_of (by with_reducible assumption) ?_ ?_
    | with_reducible refine Held.foldl_snd _ (fun _ _ _ => ?_) _ ?_
    | dsimp only
    | simp only [reduceIte, Bool.false_eq_true]
    | split
    | fail_if_no_progress ((with_reducible refine Held.put ?_ ?_) <;> first | exact rfl | skip)

theorem held_svcFuse {a s : State} {x1} (h : Held a s) : Held a (State.svcFuse s x1) := by
  unfold State.svcFuse
  repeat' first
    | with_reducible refine Held.ite ?_ ?_
    | with_reducible refine Held.ite_snd ?_ ?_
    | with_reducible assumption
    | with_reducible apply held_fuseCmd
    | with_reducible apply Held.ofQuiet (kept_emit (Quiet.refl _))
    | with_reducible refine Held.foldl _ (fun _ _ _ => ?_) _ ?_
    | with_reducible refine Held.ite_snd_of (by with_reducible assumption) ?_ ?_
    | with_reducible refine Held.foldl_snd _ (fun _ _ _ => ?_) _ ?_
    | dsimp only
    | simp only [reduceIte, Bool.false_eq_true]
    | split
    | fail_if_no_progress ((with_reducible refine Held.put ?_ ?_) <;> first | exact rfl | skip)

theorem kept_svcCore {a s : State} {x1} {x2} (h : Quiet a s) : Quiet a (State.svcCore s x1 x2) := by
  unfold State.svcCore
  repeat' first
    | with_reducible refine Quiet.ite ?_ ?_
    | with_reducible refine Quiet.ite_snd ?_ ?_
    | with_reducible assumption
    | with_reducible apply kept_coreCtrl
    | with_reducible apply kept_answer

end Sys2Proof.Machine
end

