-- ==== Sys2Proof/Laws/Exec.lean ====
section
/-! SUPPORT. Every command leaves the queue alone and keeps the memories canonical (`exec_held`), and each leaves alone what
its own lemma `exec_<command>_…` says, by the steps of Laws/Kept.lean. -/

namespace Sys2Proof.Machine

theorem held_arrive_self (t : Time) (s : State) : Held s (s.arrive t) := ⟨rfl, id⟩

theorem quiet_orMember {a s : State} {c : Nat} {f : State → State} (h : Quiet a s) (hf : ∀ x, Quiet x (f x)) : Quiet a (s.orMember c f) := by
  unfold State.orMember
  split
  · exact kept_memberDo h
  · exact h.trans (hf _)

theorem quiet_note {a : State} {p : Option Nat × State} (h : Quiet a p.2) : Quiet a (State.note p) := by
  unfold State.note
  split
  · exact Quiet.put h rfl
  · exact h

theorem next_inj {x u : State} (h : (Host.Outcome.next x : Res) = .next u) : x = u := by
  injection h

theorem quiet_engineEvent {t : Time} {s u : State} {f : State → State} (e : engineEvent t s f = .next u) (hf : ∀ x, Quiet x (f x)) : Quiet (s.arrive t) u := by
  have := next_inj e
  subst this
  split
  · exact hf _
  · exact .refl _

theorem quiet_liveEvent {t : Time} {s u : State} {f : State → State} (e : liveEvent t s f = .next u) (hf : ∀ x, Quiet x (f x)) : Quiet (s.arrive t) u := by
  have := next_inj e
  subst this
  split
  · exact .refl _
  · exact hf _

theorem ran_engineEvent {t : Time} {s u : State} {f : State → State} (e : engineEvent t s f = .next u) (hf : ∀ x, Ran x (f x)) : Ran (s.arrive t) u := by
  have := next_inj e
  subst this
  split
  · exact hf _
  · exact .refl _

theorem ran_liveEvent {t : Time} {s u : State} {f : State → State} (e : liveEvent t s f = .next u) (hf : ∀ x, Ran x (f x)) : Ran (s.arrive t) u := by
  have := next_inj e
  subst this
  split
  · exact .refl _
  · exact hf _

theorem kept_engineEvent {t : Time} {s u : State} {f : State → State} (e : engineEvent t s f = .next u) (hf : ∀ x, Kept x (f x)) : Kept (s.arrive t) u := by
  have := next_inj e
  subst this
  split
  · exact hf _
  · exact .refl _

theorem kept_liveEvent {t : Time} {s u : State} {f : State → State} (e : liveEvent t s f = .next u) (hf : ∀ x, Kept x (f x)) : Kept (s.arrive t) u := by
  have := next_inj e
  subst this
  split
  · exact .refl _
  · exact hf _

theorem kept_regWrite {t : Time} {s u : State} {o : Nat} {f : State → State} (e : regWrite t o s f = .next u)
    (hf : ∀ x, Kept x (f x)) : Kept (s.arrive t) u := by
  have := next_inj e
  subst this
  split
  · exact hf _
  · split
    · exact kept_restAccess (.refl _)
    · exact .refl _

theorem kept_regRead {t : Time} {s u : State} {o : Nat} {f : State → Word × State} (e : regRead t o s f = .next u)
    (hf : ∀ x, Kept x (f x).2) : Kept (s.arrive t) u := by
  have := next_inj e
  subst this
  split
  · exact Kept.ofQuiet (kept_reply (.refl _)) (hf _)
  · split
    · exact .refl _
    · split
      · exact Kept.ofQuiet (kept_reply (.refl _)) (.refl _)
      · exact Kept.ofQuiet (kept_reply (.refl _)) (kept_restAccess (.refl _))

theorem held_engineEvent {t : Time} {s u : State} {f : State → State} (e : engineEvent t s f = .next u) (hf : ∀ x, Held x (f x)) : Held (s.arrive t) u := by
  have := next_inj e
  subst this
  split
  · exact hf _
  · exact .refl _

theorem held_liveEvent {t : Time} {s u : State} {f : State → State} (e : liveEvent t s f = .next u) (hf : ∀ x, Held x (f x)) : Held (s.arrive t) u := by
  have := next_inj e
  subst this
  split
  · exact .refl _
  · exact hf _

theorem held_regWrite {t : Time} {s u : State} {o : Nat} {f : State → State} (e : regWrite t o s f = .next u)
    (hf : ∀ x, Held x (f x)) : Held (s.arrive t) u := by
  have := next_inj e
  subst this
  split
  · exact hf _
  · split
    · exact (kept_restAccess (.refl _)).toHeld
    · exact .refl _

theorem held_regRead {t : Time} {s u : State} {o : Nat} {f : State → Word × State} (e : regRead t o s f = .next u)
    (hf : ∀ x, Held x (f x).2) : Held (s.arrive t) u := by
  have := next_inj e
  subst this
  split
  · exact Held.ofQuiet (kept_reply (.refl _)) (hf _)
  · split
    · exact .refl _
    · split
      · exact (kept_reply (.refl _)).toHeld
      · exact Held.ofQuiet (kept_reply (.refl _)) (kept_restAccess (.refl _)).toHeld

theorem held_svcFrame {t : Time} {s u : State} {f : State → State} (e : svcFrame t s f = .next u) (hf : ∀ x, Held x (f x)) :
    Held (s.arrive t) u :=
  held_liveEvent e fun _ => Held.ite (.trans (Held.put (.refl _) rfl) (hf _)) (.refl _)

theorem held_svcWrite {t : Time} {s u : State} {f : State → State} (e : svcWrite t s f = .next u) (hf : ∀ x, Held x (f x)) :
    Held (s.arrive t) u :=
  held_svcFrame e fun _ => Held.ite (kept_answer (.refl _)).toHeld
    (Held.ite (Held.ofQuiet (kept_answer (kept_draw (.refl _))) (kept_restAccess (.refl _)).toHeld) (hf _))

theorem exec_incrementalStep_kept {s nx : State} {t} {g} {a} {b} {first} (e : exec (.incrementalStep t g a b first) s = .next nx) : Kept (s.arrive t) nx := by
  change execIncrementalStep t g a b first s = .next nx at e
  unfold execIncrementalStep at e
  refine kept_liveEvent e fun x => ?_
  have h : Kept x x := .refl x
  repeat' first
    | with_reducible refine Kept.ite ?_ ?_
    | with_reducible refine Kept.ite_snd ?_ ?_
    | with_reducible assumption
    | with_reducible apply kept_encFeed
    | with_reducible refine Kept.foldl _ (fun _ _ _ => ?_) _ ?_
    | with_reducible refine Kept.ite_snd_of (by with_reducible assumption) ?_ ?_
    | with_reducible refine Kept.foldl_fst _ (fun _ _ _ => ?_) _ ?_
    | with_reducible refine Kept.foldl_fst_of (by with_reducible assumption) (fun _ _ _ => ?_) ?_
    | with_reducible refine Kept.foldl_snd _ (fun _ _ _ => ?_) _ ?_
    | with_reducible refine Kept.foldl_snd_of (by with_reducible assumption) (fun _ _ _ => ?_) ?_
    | with_reducible refine Kept.foldl_thd _ (fun _ _ _ => ?_) _ ?_
    | with_reducible refine Kept.foldl_thd_of (by with_reducible assumption) (fun _ _ _ => ?_) ?_
    | dsimp only
    | simp only [reduceIte, Bool.false_eq_true]
    | split
    | fail_if_no_progress ((with_reducible refine Kept.put ?_ ?_) <;> first | exact rfl | skip)

theorem exec_zLoad_kept {s nx : State} {t} {g} {z} (e : exec (.zLoad t g z) s = .next nx) : Kept (s.arrive t) nx := by
  change execZLoad t g z s = .next nx at e
  unfold execZLoad at e
  refine kept_engineEvent e fun x => ?_
  have h : Kept x x := .refl x
  repeat' first
    | with_reducible refine Kept.ite ?_ ?_
    | with_reducible refine Kept.ite_snd ?_ ?_
    | with_reducible assumption
    | with_reducible apply kept_zFeed
    | with_reducible refine Kept.foldl _ (fun _ _ _ => ?_) _ ?_
    | with_reducible refine Kept.ite_snd_of (by with_reducible assumption) ?_ ?_
    | with_reducible refine Kept.foldl_fst _ (fun _ _ _ => ?_) _ ?_
    | with_reducible refine Kept.foldl_fst_of (by with_reducible assumption) (fun _ _ _ => ?_) ?_
    | with_reducible refine Kept.foldl_snd _ (fun _ _ _ => ?_) _ ?_
    | with_reducible refine Kept.foldl_snd_of (by with_reducible assumption) (fun _ _ _ => ?_) ?_
    | with_reducible refine Kept.foldl_thd _ (fun _ _ _ => ?_) _ ?_
    | with_reducible refine Kept.foldl_thd_of (by with_reducible assumption) (fun _ _ _ => ?_) ?_
    | dsimp only
    | simp only [reduceIte, Bool.false_eq_true]
    | split
    | fail_if_no_progress ((with_reducible refine Kept.put ?_ ?_) <;> first | exact rfl | skip)

theorem exec_serialFrameStart_kept {s nx : State} {t} {ix} (e : exec (.serialFrameStart t ix) s = .next nx) : Kept (s.arrive t) nx := by
  change execSerialFrameStart t ix s = .next nx at e
  unfold execSerialFrameStart at e
  refine kept_engineEvent e fun x => ?_
  have h : Kept x x := .refl x
  repeat' first
    | with_reducible refine Kept.ite ?_ ?_
    | with_reducible refine Kept.ite_snd ?_ ?_
    | with_reducible assumption
    | with_reducible apply kept_setSer

theorem exec_serialFrameEnd_kept {s nx : State} {t} {ix} {bits} {n} {noStart} {lineMeas} (e : exec (.serialFrameEnd t ix bits n noStart lineMeas) s = .next nx) : Kept (s.arrive t) nx := by
  change execSerialFrameEnd t ix bits n noStart lineMeas s = .next nx at e
  unfold execSerialFrameEnd at e
  refine kept_engineEvent e fun x => ?_
  have h : Kept x x := .refl x
  repeat' first
    | with_reducible refine Kept.ite ?_ ?_
    | with_reducible refine Kept.ite_snd ?_ ?_
    | with_reducible assumption
    | with_reducible apply Kept.ofQuiet (kept_wakeUnit (Quiet.refl _))
    | with_reducible apply kept_serialBad
    | with_reducible apply kept_setSer
    | with_reducible apply kept_initAbs
    | with_reducible apply kept_reseed
    | with_reducible apply kept_sourceSteps
    | with_reducible refine Kept.foldl _ (fun _ _ _ => ?_) _ ?_
    | with_reducible refine Kept.ite_snd_of (by with_reducible assumption) ?_ ?_
    | with_reducible refine Kept.foldl_fst _ (fun _ _ _ => ?_) _ ?_
    | with_reducible refine Kept.foldl_fst_of (by with_reducible assumption) (fun _ _ _ => ?_) ?_
    | with_reducible refine Kept.foldl_snd _ (fun _ _ _ => ?_) _ ?_
    | with_reducible refine Kept.foldl_snd_of (by with_reducible assumption) (fun _ _ _ => ?_) ?_
    | with_reducible refine Kept.foldl_thd _ (fun _ _ _ => ?_) _ ?_
    | with_reducible refine Kept.foldl_thd_of (by with_reducible assumption) (fun _ _ _ => ?_) ?_
    | dsimp only
    | simp only [reduceIte, Bool.false_eq_true]
    | split

theorem exec_mainsCrossing_kept {s nx : State} {t} {i} {raw} (e : exec (.mainsCrossing t i raw) s = .next nx) : Kept (s.arrive t) nx := by
  change execMainsCrossing t i raw s = .next nx at e
  unfold execMainsCrossing at e
  refine kept_liveEvent e fun x => ?_
  have h : Kept x x := .refl x
  repeat' first
    | with_reducible refine Kept.ite ?_ ?_
    | with_reducible refine Kept.ite_snd ?_ ?_
    | with_reducible assumption
    | with_reducible apply kept_mainsEdge
    | with_reducible apply kept_mainsQual
    | with_reducible refine Kept.foldl _ (fun _ _ _ => ?_) _ ?_
    | with_reducible refine Kept.ite_snd_of (by with_reducible assumption) ?_ ?_
    | with_reducible refine Kept.foldl_fst _ (fun _ _ _ => ?_) _ ?_
    | with_reducible refine Kept.foldl_fst_of (by with_reducible assumption) (fun _ _ _ => ?_) ?_
    | with_reducible refine Kept.foldl_snd _ (fun _ _ _ => ?_) _ ?_
    | with_reducible refine Kept.foldl_snd_of (by with_reducible assumption) (fun _ _ _ => ?_) ?_
    | with_reducible refine Kept.foldl_thd _ (fun _ _ _ => ?_) _ ?_
    | with_reducible refine Kept.foldl_thd_of (by with_reducible assumption) (fun _ _ _ => ?_) ?_
    | dsimp only
    | simp only [reduceIte, Bool.false_eq_true]
    | split
    | fail_if_no_progress ((with_reducible refine Kept.put ?_ ?_) <;> first | exact rfl | skip)

theorem exec_mainsPhaseStep_kept {s nx : State} {t} {c} (e : exec (.mainsPhaseStep t c) s = .next nx) : Kept (s.arrive t) nx := by
  change execMainsPhaseStep t c s = .next nx at e
  unfold execMainsPhaseStep at e
  refine kept_engineEvent e fun x => ?_
  have h : Kept x x := .refl x
  repeat' first
    | with_reducible refine Kept.ite ?_ ?_
    | with_reducible refine Kept.ite_snd ?_ ?_
    | with_reducible assumption
    | with_reducible apply kept_selfStep
    | with_reducible refine Kept.foldl _ (fun _ _ _ => ?_) _ ?_
    | with_reducible refine Kept.ite_snd_of (by with_reducible assumption) ?_ ?_
    | with_reducible refine Kept.foldl_fst _ (fun _ _ _ => ?_) _ ?_
    | with_reducible refine Kept.foldl_fst_of (by with_reducible assumption) (fun _ _ _ => ?_) ?_
    | with_reducible refine Kept.foldl_snd _ (fun _ _ _ => ?_) _ ?_
    | with_reducible refine Kept.foldl_snd_of (by with_reducible assumption) (fun _ _ _ => ?_) ?_
    | with_reducible refine Kept.foldl_thd _ (fun _ _ _ => ?_) _ ?_
    | with_reducible refine Kept.foldl_thd_of (by with_reducible assumption) (fun _ _ _ => ?_) ?_
    | dsimp only
    | simp only [reduceIte, Bool.false_eq_true]
    | split

theorem exec_timeStep_kept {s nx : State} {t} {c} (e : exec (.timeStep t c) s = .next nx) : Kept (s.arrive t) nx := by
  change execTimeStep t c s = .next nx at e
  unfold execTimeStep at e
  refine kept_engineEvent e fun x => ?_
  have h : Kept x x := .refl x
  repeat' first
    | with_reducible refine Kept.ite ?_ ?_
    | with_reducible refine Kept.ite_snd ?_ ?_
    | with_reducible assumption
    | with_reducible apply kept_selfStep
    | with_reducible apply kept_setCell

theorem exec_syntheticStep_kept {s nx : State} {t} {c} (e : exec (.syntheticStep t c) s = .next nx) : Kept (s.arrive t) nx := by
  change execSyntheticStep t c s = .next nx at e
  unfold execSyntheticStep at e
  refine kept_engineEvent e fun x => ?_
  have h : Kept x x := .refl x
  repeat' first
    | with_reducible refine Kept.ite ?_ ?_
    | with_reducible refine Kept.ite_snd ?_ ?_
    | with_reducible assumption
    | with_reducible apply kept_selfStep
    | with_reducible apply kept_setCell
    | with_reducible refine Kept.foldl _ (fun _ _ _ => ?_) _ ?_
    | with_reducible refine Kept.ite_snd_of (by with_reducible assumption) ?_ ?_
    | with_reducible refine Kept.foldl_fst _ (fun _ _ _ => ?_) _ ?_
    | with_reducible refine Kept.foldl_fst_of (by with_reducible assumption) (fun _ _ _ => ?_) ?_
    | with_reducible refine Kept.foldl_snd _ (fun _ _ _ => ?_) _ ?_
    | with_reducible refine Kept.foldl_snd_of (by with_reducible assumption) (fun _ _ _ => ?_) ?_
    | with_reducible refine Kept.foldl_thd _ (fun _ _ _ => ?_) _ ?_
    | with_reducible refine Kept.foldl_thd_of (by with_reducible assumption) (fun _ _ _ => ?_) ?_
    | dsimp only
    | simp only [reduceIte, Bool.false_eq_true]
    | split

theorem exec_mirrorPhaseStep_kept {s nx : State} {t} {c} (e : exec (.mirrorPhaseStep t c) s = .next nx) : Kept (s.arrive t) nx := by
  change execMirrorPhaseStep t c s = .next nx at e
  unfold execMirrorPhaseStep at e
  refine kept_engineEvent e fun x => ?_
  have h : Kept x x := .refl x
  repeat' first
    | with_reducible refine Kept.ite ?_ ?_
    | with_reducible refine Kept.ite_snd ?_ ?_
    | with_reducible assumption
    | with_reducible apply kept_selfStep
    | with_reducible refine Kept.foldl _ (fun _ _ _ => ?_) _ ?_
    | with_reducible refine Kept.ite_snd_of (by with_reducible assumption) ?_ ?_
    | with_reducible refine Kept.foldl_fst _ (fun _ _ _ => ?_) _ ?_
    | with_reducible refine Kept.foldl_fst_of (by with_reducible assumption) (fun _ _ _ => ?_) ?_
    | with_reducible refine Kept.foldl_snd _ (fun _ _ _ => ?_) _ ?_
    | with_reducible refine Kept.foldl_snd_of (by with_reducible assumption) (fun _ _ _ => ?_) ?_
    | with_reducible refine Kept.foldl_thd _ (fun _ _ _ => ?_) _ ?_
    | with_reducible refine Kept.foldl_thd_of (by with_reducible assumption) (fun _ _ _ => ?_) ?_
    | dsimp only
    | simp only [reduceIte, Bool.false_eq_true]
    | split

theorem exec_mirrorTimeout_kept {s nx : State} {t} {c} (e : exec (.mirrorTimeout t c) s = .next nx) : Kept (s.arrive t) nx := by
  change execMirrorTimeout t c s = .next nx at e
  unfold execMirrorTimeout at e
  refine kept_engineEvent e fun x => ?_
  have h : Kept x x := .refl x
  repeat' first
    | with_reducible refine Kept.ite ?_ ?_
    | with_reducible refine Kept.ite_snd ?_ ?_
    | with_reducible assumption
    | with_reducible apply kept_setCell
    | with_reducible apply kept_loseCell
    | with_reducible apply Kept.ofQuiet (kept_report (Quiet.refl _))
    | with_reducible refine Kept.foldl _ (fun _ _ _ => ?_) _ ?_
    | with_reducible refine Kept.ite_snd_of (by with_reducible assumption) ?_ ?_
    | with_reducible refine Kept.foldl_fst _ (fun _ _ _ => ?_) _ ?_
    | with_reducible refine Kept.foldl_fst_of (by with_reducible assumption) (fun _ _ _ => ?_) ?_
    | with_reducible refine Kept.foldl_snd _ (fun _ _ _ => ?_) _ ?_
    | with_reducible refine Kept.foldl_snd_of (by with_reducible assumption) (fun _ _ _ => ?_) ?_
    | with_reducible refine Kept.foldl_thd _ (fun _ _ _ => ?_) _ ?_
    | with_reducible refine Kept.foldl_thd_of (by with_reducible assumption) (fun _ _ _ => ?_) ?_
    | dsimp only
    | simp only [reduceIte, Bool.false_eq_true]
    | split
    | fail_if_no_progress ((with_reducible refine Kept.put ?_ ?_) <;> first | exact rfl | skip)

theorem exec_standstill_kept {s nx : State} {t} {c} (e : exec (.standstill t c) s = .next nx) : Kept (s.arrive t) nx := by
  change execStandstill t c s = .next nx at e
  unfold execStandstill at e
  refine kept_engineEvent e fun x => ?_
  have h : Kept x x := .refl x
  repeat' first
    | with_reducible refine Kept.ite ?_ ?_
    | with_reducible refine Kept.ite_snd ?_ ?_
    | with_reducible assumption
    | with_reducible apply kept_putCell
    | with_reducible apply Kept.ofRan (kept_cellChange (Ran.refl _))
    | with_reducible refine Kept.foldl _ (fun _ _ _ => ?_) _ ?_
    | with_reducible refine Kept.ite_snd_of (by with_reducible assumption) ?_ ?_
    | with_reducible refine Kept.foldl_fst _ (fun _ _ _ => ?_) _ ?_
    | with_reducible refine Kept.foldl_fst_of (by with_reducible assumption) (fun _ _ _ => ?_) ?_
    | with_reducible refine Kept.foldl_snd _ (fun _ _ _ => ?_) _ ?_
    | with_reducible refine Kept.foldl_snd_of (by with_reducible assumption) (fun _ _ _ => ?_) ?_
    | with_reducible refine Kept.foldl_thd _ (fun _ _ _ => ?_) _ ?_
    | with_reducible refine Kept.foldl_thd_of (by with_reducible assumption) (fun _ _ _ => ?_) ?_
    | dsimp only
    | simp only [reduceIte, Bool.false_eq_true]
    | split
    | fail_if_no_progress ((with_reducible refine Kept.put ?_ ?_) <;> first | exact rfl | skip)

theorem exec_cellCtrlWrite_kept {s nx : State} {t} {m} {c} {v} (e : exec (.cellCtrlWrite t m c v) s = .next nx) : Kept (s.arrive t) nx := by
  change execCellCtrlWrite t m c v s = .next nx at e
  unfold execCellCtrlWrite at e
  refine kept_regWrite e fun x => ?_
  have h : Kept x x := .refl x
  repeat' first
    | with_reducible refine Kept.ite ?_ ?_
    | with_reducible refine Kept.ite_snd ?_ ?_
    | with_reducible assumption
    | with_reducible apply kept_cellCtrl

theorem exec_cellModWrite_kept {s nx : State} {t} {m} {c} {v} (e : exec (.cellModWrite t m c v) s = .next nx) : Kept (s.arrive t) nx := by
  change execCellModWrite t m c v s = .next nx at e
  unfold execCellModWrite at e
  refine kept_regWrite e fun x => ?_
  have h : Kept x x := .refl x
  repeat' first
    | with_reducible refine Kept.ite ?_ ?_
    | with_reducible refine Kept.ite_snd ?_ ?_
    | with_reducible assumption
    | with_reducible apply kept_writeMod

theorem exec_loadGo_kept {s nx : State} {t} {m} {c} {v} (e : exec (.loadGo t m c v) s = .next nx) : Kept (s.arrive t) nx := by
  change execLoadGo t m c v s = .next nx at e
  unfold execLoadGo at e
  refine kept_regWrite e fun x => ?_
  have h : Kept x x := .refl x
  repeat' first
    | with_reducible refine Kept.ite ?_ ?_
    | with_reducible refine Kept.ite_snd ?_ ?_
    | with_reducible assumption
    | with_reducible apply kept_loadGo

theorem exec_synRateCommit_kept {s nx : State} {t} {m} {c} {v} (e : exec (.synRateCommit t m c v) s = .next nx) : Kept (s.arrive t) nx := by
  change execSynRateCommit t m c v s = .next nx at e
  unfold execSynRateCommit at e
  refine kept_regWrite e fun x => ?_
  have h : Kept x x := .refl x
  repeat' first
    | with_reducible refine Kept.ite ?_ ?_
    | with_reducible refine Kept.ite_snd ?_ ?_
    | with_reducible assumption
    | with_reducible apply kept_synHi

theorem exec_mirrorOfsCommit_kept {s nx : State} {t} {m} {c} {v} (e : exec (.mirrorOfsCommit t m c v) s = .next nx) : Kept (s.arrive t) nx := by
  change execMirrorOfsCommit t m c v s = .next nx at e
  unfold execMirrorOfsCommit at e
  refine kept_regWrite e fun x => ?_
  have h : Kept x x := .refl x
  repeat' first
    | with_reducible refine Kept.ite ?_ ?_
    | with_reducible refine Kept.ite_snd ?_ ?_
    | with_reducible assumption
    | with_reducible apply kept_mirrorHi

theorem exec_posFtRead_kept {s nx : State} {t} {m} {c} (e : exec (.posFtRead t m c) s = .next nx) : Kept (s.arrive t) nx := by
  change execPosFtRead t m c s = .next nx at e
  unfold execPosFtRead at e
  refine kept_regRead e fun x => ?_
  have h : Kept x x := .refl x
  repeat' first
    | with_reducible refine Kept.ite ?_ ?_
    | with_reducible refine Kept.ite_snd ?_ ?_
    | with_reducible assumption
    | with_reducible apply kept_readPosFt

theorem exec_cmpCtrlWrite_kept {s nx : State} {t} {m} {k} {v} (e : exec (.cmpCtrlWrite t m k v) s = .next nx) : Kept (s.arrive t) nx := by
  change execCmpCtrlWrite t m k v s = .next nx at e
  unfold execCmpCtrlWrite at e
  refine kept_regWrite e fun x => ?_
  have h : Kept x x := .refl x
  repeat' first
    | with_reducible refine Kept.ite ?_ ?_
    | with_reducible refine Kept.ite_snd ?_ ?_
    | with_reducible assumption
    | with_reducible apply Kept.ofRan (kept_cmpCtrl (Ran.refl _))

theorem exec_cmpValueWrite_kept {s nx : State} {t} {m} {k} {turn} {v} (e : exec (.cmpValueWrite t m k turn v) s = .next nx) : Kept (s.arrive t) nx := by
  change execCmpValueWrite t m k turn v s = .next nx at e
  unfold execCmpValueWrite at e
  refine kept_regWrite e fun x => ?_
  have h : Kept x x := .refl x
  repeat' first
    | with_reducible refine Kept.ite ?_ ?_
    | with_reducible refine Kept.ite_snd ?_ ?_
    | with_reducible assumption
    | with_reducible apply Kept.ofRan (kept_cmpValue (Ran.refl _))

theorem exec_cmpFtRead_kept {s nx : State} {t} {m} {k} (e : exec (.cmpFtRead t m k) s = .next nx) : Kept (s.arrive t) nx := by
  change execCmpFtRead t m k s = .next nx at e
  unfold execCmpFtRead at e
  refine kept_regRead e fun x => ?_
  have h : Kept x x := .refl x
  repeat' first
    | with_reducible refine Kept.ite ?_ ?_
    | with_reducible refine Kept.ite_snd ?_ ?_
    | with_reducible assumption
    | with_reducible apply kept_readCmpFt

theorem exec_captureEdge_ran {s nx : State} {t} {j} {rising} {stamps} (e : exec (.captureEdge t j rising stamps) s = .next nx) : Ran (s.arrive t) nx := by
  change execCaptureEdge t j rising stamps s = .next nx at e
  unfold execCaptureEdge at e
  refine ran_engineEvent e fun x => ?_
  have h : Ran x x := .refl x
  repeat' first
    | with_reducible refine Ran.ite ?_ ?_
    | with_reducible refine Ran.ite_snd ?_ ?_
    | with_reducible assumption
    | with_reducible apply Ran.ofQuiet (kept_padLevel (Quiet.refl _))
    | with_reducible apply kept_capFeed
    | with_reducible refine Ran.foldl _ (fun _ _ _ => ?_) _ ?_
    | with_reducible refine Ran.ite_snd_of (by with_reducible assumption) ?_ ?_
    | with_reducible refine Ran.foldl_fst _ (fun _ _ _ => ?_) _ ?_
    | with_reducible refine Ran.foldl_fst_of (by with_reducible assumption) (fun _ _ _ => ?_) ?_
    | with_reducible refine Ran.foldl_snd _ (fun _ _ _ => ?_) _ ?_
    | with_reducible refine Ran.foldl_snd_of (by with_reducible assumption) (fun _ _ _ => ?_) ?_
    | with_reducible refine Ran.foldl_thd _ (fun _ _ _ => ?_) _ ?_
    | with_reducible refine Ran.foldl_thd_of (by with_reducible assumption) (fun _ _ _ => ?_) ?_
    | dsimp only
    | simp only [reduceIte, Bool.false_eq_true]
    | split
    | fail_if_no_progress ((with_reducible refine Ran.put ?_ ?_) <;> first | exact rfl | skip)

theorem exec_capCtrlWrite_kept {s nx : State} {t} {m} {j} {v} (e : exec (.capCtrlWrite t m j v) s = .next nx) : Kept (s.arrive t) nx := by
  change execCapCtrlWrite t m j v s = .next nx at e
  unfold execCapCtrlWrite at e
  refine kept_regWrite e fun x => ?_
  have h : Kept x x := .refl x
  repeat' first
    | with_reducible refine Kept.ite ?_ ?_
    | with_reducible refine Kept.ite_snd ?_ ?_
    | with_reducible assumption
    | with_reducible apply Kept.ofRan (kept_capCtrl (Ran.refl _))

theorem exec_capPop_kept {s nx : State} {t} {m} {j} (e : exec (.capPop t m j) s = .next nx) : Kept (s.arrive t) nx := by
  change execCapPop t m j s = .next nx at e
  unfold execCapPop at e
  refine kept_regRead e fun x => ?_
  have h : Kept x x := .refl x
  repeat' first
    | with_reducible refine Kept.ite ?_ ?_
    | with_reducible refine Kept.ite_snd ?_ ?_
    | with_reducible assumption
    | with_reducible apply kept_readCapPop

theorem exec_cellRelease_kept {s nx : State} {t} {m} (e : exec (.cellRelease t m) s = .next nx) : Kept (s.arrive t) nx := by
  change execCellRelease t m s = .next nx at e
  unfold execCellRelease at e
  refine kept_regWrite e fun x => ?_
  have h : Kept x x := .refl x
  repeat' first
    | with_reducible refine Kept.ite ?_ ?_
    | with_reducible refine Kept.ite_snd ?_ ?_
    | with_reducible assumption
    | with_reducible apply kept_startGo

theorem exec_cellHold_kept {s nx : State} {t} {m} (e : exec (.cellHold t m) s = .next nx) : Kept (s.arrive t) nx := by
  change execCellHold t m s = .next nx at e
  unfold execCellHold at e
  refine kept_regWrite e fun x => ?_
  have h : Kept x x := .refl x
  repeat' first
    | with_reducible refine Kept.ite ?_ ?_
    | with_reducible refine Kept.ite_snd ?_ ?_
    | with_reducible assumption
    | with_reducible apply kept_startGo

theorem exec_startTRead_kept {s nx : State} {t} {m} (e : exec (.startTRead t m) s = .next nx) : Kept (s.arrive t) nx := by
  change execStartTRead t m s = .next nx at e
  unfold execStartTRead at e
  refine kept_regRead e fun x => ?_
  have h : Kept x x := .refl x
  repeat' first
    | with_reducible refine Kept.ite ?_ ?_
    | with_reducible refine Kept.ite_snd ?_ ?_
    | with_reducible assumption
    | with_reducible apply kept_readStartT

theorem exec_coreDebugHalt_kept {s nx : State} {t} {k} (e : exec (.coreDebugHalt t k) s = .next nx) : Kept (s.arrive t) nx := by
  change execCoreDebugHalt t k s = .next nx at e
  unfold execCoreDebugHalt at e
  refine kept_engineEvent e fun x => ?_
  have h : Kept x x := .refl x
  repeat' first
    | with_reducible refine Kept.ite ?_ ?_
    | with_reducible refine Kept.ite_snd ?_ ?_
    | with_reducible assumption
    | with_reducible apply Kept.ofQuiet (kept_wdPause (Quiet.refl _))
    | with_reducible apply Kept.ofQuiet (kept_modCore (Quiet.refl _))
    | with_reducible apply kept_modStart
    | with_reducible apply kept_putCell
    | with_reducible apply Kept.ofRan (kept_cellChange (Ran.refl _))
    | with_reducible refine Kept.foldl _ (fun _ _ _ => ?_) _ ?_
    | with_reducible refine Kept.ite_snd_of (by with_reducible assumption) ?_ ?_
    | with_reducible refine Kept.foldl_fst _ (fun _ _ _ => ?_) _ ?_
    | with_reducible refine Kept.foldl_fst_of (by with_reducible assumption) (fun _ _ _ => ?_) ?_
    | with_reducible refine Kept.foldl_snd _ (fun _ _ _ => ?_) _ ?_
    | with_reducible refine Kept.foldl_snd_of (by with_reducible assumption) (fun _ _ _ => ?_) ?_
    | with_reducible refine Kept.foldl_thd _ (fun _ _ _ => ?_) _ ?_
    | with_reducible refine Kept.foldl_thd_of (by with_reducible assumption) (fun _ _ _ => ?_) ?_
    | dsimp only
    | simp only [reduceIte, Bool.false_eq_true]
    | split
    | fail_if_no_progress ((with_reducible refine Kept.put ?_ ?_) <;> first | exact rfl | skip)

theorem exec_coreDebugResume_kept {s nx : State} {t} {k} (e : exec (.coreDebugResume t k) s = .next nx) : Kept (s.arrive t) nx := by
  change execCoreDebugResume t k s = .next nx at e
  unfold execCoreDebugResume at e
  refine kept_engineEvent e fun x => ?_
  have h : Kept x x := .refl x
  repeat' first
    | with_reducible refine Kept.ite ?_ ?_
    | with_reducible refine Kept.ite_snd ?_ ?_
    | with_reducible assumption
    | with_reducible apply Kept.ofQuiet (kept_wdResume (Quiet.refl _))
    | with_reducible apply Kept.ofQuiet (kept_modCore (Quiet.refl _))
    | with_reducible apply kept_modStart
    | with_reducible apply kept_thawCell
    | with_reducible refine kept_thawCell_of (by with_reducible assumption) ?_
    | with_reducible apply Kept.ofRan (kept_react (Ran.refl _))
    | with_reducible apply Kept.ofRan (kept_cellChange (Ran.refl _))
    | with_reducible refine Kept.foldl _ (fun _ _ _ => ?_) _ ?_
    | with_reducible refine Kept.ite_snd_of (by with_reducible assumption) ?_ ?_
    | with_reducible refine Kept.foldl_fst _ (fun _ _ _ => ?_) _ ?_
    | with_reducible refine Kept.foldl_fst_of (by with_reducible assumption) (fun _ _ _ => ?_) ?_
    | with_reducible refine Kept.foldl_snd _ (fun _ _ _ => ?_) _ ?_
    | with_reducible refine Kept.foldl_snd_of (by with_reducible assumption) (fun _ _ _ => ?_) ?_
    | with_reducible refine Kept.foldl_thd _ (fun _ _ _ => ?_) _ ?_
    | with_reducible refine Kept.foldl_thd_of (by with_reducible assumption) (fun _ _ _ => ?_) ?_
    | dsimp only
    | simp only [reduceIte, Bool.false_eq_true]
    | split
    | fail_if_no_progress ((with_reducible refine Kept.put ?_ ?_) <;> first | exact rfl | skip)

theorem exec_frzTRead_kept {s nx : State} {t} {m} (e : exec (.frzTRead t m) s = .next nx) : Kept (s.arrive t) nx := by
  change execFrzTRead t m s = .next nx at e
  unfold execFrzTRead at e
  refine kept_regRead e fun x => ?_
  have h : Kept x x := .refl x
  repeat' first
    | with_reducible refine Kept.ite ?_ ?_
    | with_reducible refine Kept.ite_snd ?_ ?_
    | with_reducible assumption
    | with_reducible apply kept_readFrzT

theorem exec_groupFetch_kept {s nx : State} {t} {c} {h} (e : exec (.groupFetch t c h) s = .next nx) : Kept (s.arrive t) nx := by
  change execGroupFetch t c h s = .next nx at e
  unfold execGroupFetch at e
  refine kept_engineEvent e fun x => ?_
  have h : Kept x x := .refl x
  repeat' first
    | with_reducible refine Kept.ite ?_ ?_
    | with_reducible refine Kept.ite_snd ?_ ?_
    | with_reducible assumption
    | with_reducible apply kept_groupFetch
    | with_reducible refine Kept.foldl _ (fun _ _ _ => ?_) _ ?_
    | with_reducible refine Kept.ite_snd_of (by with_reducible assumption) ?_ ?_
    | with_reducible refine Kept.foldl_fst _ (fun _ _ _ => ?_) _ ?_
    | with_reducible refine Kept.foldl_fst_of (by with_reducible assumption) (fun _ _ _ => ?_) ?_
    | with_reducible refine Kept.foldl_snd _ (fun _ _ _ => ?_) _ ?_
    | with_reducible refine Kept.foldl_snd_of (by with_reducible assumption) (fun _ _ _ => ?_) ?_
    | with_reducible refine Kept.foldl_thd _ (fun _ _ _ => ?_) _ ?_
    | with_reducible refine Kept.foldl_thd_of (by with_reducible assumption) (fun _ _ _ => ?_) ?_
    | dsimp only
    | simp only [reduceIte, Bool.false_eq_true]
    | split
    | fail_if_no_progress ((with_reducible refine Kept.put ?_ ?_) <;> first | exact rfl | skip)

theorem exec_read_quiet {s nx : State} {t} {c} (e : exec (.read t c) s = .next nx) : Quiet (s.arrive t) nx := by
  change execRead t c s = .next nx at e
  unfold execRead at e
  refine quiet_engineEvent e fun x => ?_
  dsimp only
  refine Quiet.ite ?_ (.refl _)
  have h : Quiet x x := .refl x
  repeat' first
    | with_reducible refine Quiet.ite ?_ ?_
    | with_reducible refine Quiet.ite_snd ?_ ?_
    | with_reducible assumption
    | with_reducible apply kept_readStart

theorem exec_write_quiet {s nx : State} {t} {c} (e : exec (.write t c) s = .next nx) : Quiet (s.arrive t) nx := by
  change execWrite t c s = .next nx at e
  unfold execWrite at e
  refine quiet_engineEvent e fun x => ?_
  dsimp only
  refine Quiet.ite ?_ (.refl _)
  have h : Quiet x x := .refl x
  repeat' first
    | with_reducible refine Quiet.ite ?_ ?_
    | with_reducible refine Quiet.ite_snd ?_ ?_
    | with_reducible assumption
    | with_reducible apply kept_writeStart

theorem exec_flush_kept {s nx : State} {t} {c} (e : exec (.flush t c) s = .next nx) : Kept (s.arrive t) nx := by
  change execFlush t c s = .next nx at e
  unfold execFlush at e
  refine kept_engineEvent e fun x => ?_
  dsimp only
  refine Kept.ite ?_ (.refl _)
  have h : Kept x x := .refl x
  repeat' first
    | with_reducible refine Kept.ite ?_ ?_
    | with_reducible refine Kept.ite_snd ?_ ?_
    | with_reducible assumption
    | with_reducible apply kept_controlDo

theorem exec_load_kept {s nx : State} {t} {c} (e : exec (.load t c) s = .next nx) : Kept (s.arrive t) nx := by
  change execLoad t c s = .next nx at e
  unfold execLoad at e
  refine kept_engineEvent e fun x => ?_
  dsimp only
  refine Kept.ite ?_ (.refl _)
  have h : Kept x x := .refl x
  repeat' first
    | with_reducible refine Kept.ite ?_ ?_
    | with_reducible refine Kept.ite_snd ?_ ?_
    | with_reducible assumption
    | with_reducible apply kept_controlDo

theorem exec_setMod_kept {s nx : State} {t} {c} (e : exec (.setMod t c) s = .next nx) : Kept (s.arrive t) nx := by
  change execSetMod t c s = .next nx at e
  unfold execSetMod at e
  refine kept_engineEvent e fun x => ?_
  dsimp only
  refine Kept.ite ?_ (.refl _)
  have h : Kept x x := .refl x
  repeat' first
    | with_reducible refine Kept.ite ?_ ?_
    | with_reducible refine Kept.ite_snd ?_ ?_
    | with_reducible assumption
    | with_reducible apply kept_controlDo

theorem exec_setRate_kept {s nx : State} {t} {c} (e : exec (.setRate t c) s = .next nx) : Kept (s.arrive t) nx := by
  change execSetRate t c s = .next nx at e
  unfold execSetRate at e
  refine kept_engineEvent e fun x => ?_
  dsimp only
  refine Kept.ite ?_ (.refl _)
  have h : Kept x x := .refl x
  repeat' first
    | with_reducible refine Kept.ite ?_ ?_
    | with_reducible refine Kept.ite_snd ?_ ?_
    | with_reducible assumption
    | with_reducible apply kept_controlDo

theorem exec_sense_quiet {s nx : State} {t} {c} (e : exec (.sense t c) s = .next nx) : Quiet (s.arrive t) nx := by
  change execSense t c s = .next nx at e
  unfold execSense at e
  refine quiet_engineEvent e fun x => ?_
  dsimp only
  refine Quiet.ite ?_ (.refl _)
  have h : Quiet x x := .refl x
  repeat' first
    | with_reducible refine Quiet.ite ?_ ?_
    | with_reducible refine Quiet.ite_snd ?_ ?_
    | with_reducible assumption
    | with_reducible apply kept_senseStart

theorem exec_move_quiet {s nx : State} {t} {c} (e : exec (.move t c) s = .next nx) : Quiet (s.arrive t) nx := by
  change execMove t c s = .next nx at e
  unfold execMove at e
  refine quiet_engineEvent e fun x => ?_
  dsimp only
  refine Quiet.ite ?_ (.refl _)
  have h : Quiet x x := .refl x
  repeat' first
    | with_reducible refine quiet_orMember ?_ (fun x => ?_)
    | exact .refl _
    | with_reducible refine Quiet.ite ?_ ?_
    | with_reducible refine Quiet.ite_snd ?_ ?_
    | with_reducible assumption
    | with_reducible apply kept_pump

theorem exec_fill_quiet {s nx : State} {t} {c} (e : exec (.fill t c) s = .next nx) : Quiet (s.arrive t) nx := by
  change execFill t c s = .next nx at e
  unfold execFill at e
  refine quiet_engineEvent e fun x => ?_
  dsimp only
  refine Quiet.ite ?_ (.refl _)
  have h : Quiet x x := .refl x
  repeat' first
    | with_reducible refine quiet_orMember ?_ (fun x => ?_)
    | exact .refl _
    | with_reducible refine Quiet.ite ?_ ?_
    | with_reducible refine Quiet.ite_snd ?_ ?_
    | with_reducible assumption
    | with_reducible apply kept_pump

theorem exec_compare_quiet {s nx : State} {t} {c} (e : exec (.compare t c) s = .next nx) : Quiet (s.arrive t) nx := by
  change execCompare t c s = .next nx at e
  unfold execCompare at e
  refine quiet_engineEvent e fun x => ?_
  dsimp only
  refine Quiet.ite ?_ (.refl _)
  have h : Quiet x x := .refl x
  repeat' first
    | with_reducible refine quiet_orMember ?_ (fun x => ?_)
    | exact .refl _
    | with_reducible refine Quiet.ite ?_ ?_
    | with_reducible refine Quiet.ite_snd ?_ ?_
    | with_reducible assumption
    | with_reducible apply kept_pump

theorem exec_gather_quiet {s nx : State} {t} {c} (e : exec (.gather t c) s = .next nx) : Quiet (s.arrive t) nx := by
  change execGather t c s = .next nx at e
  unfold execGather at e
  refine quiet_engineEvent e fun x => ?_
  dsimp only
  refine Quiet.ite ?_ (.refl _)
  have h : Quiet x x := .refl x
  repeat' first
    | with_reducible refine Quiet.ite ?_ ?_
    | with_reducible refine Quiet.ite_snd ?_ ?_
    | with_reducible assumption
    | with_reducible apply kept_gatherStart

theorem exec_tic_quiet {s nx : State} {t} {c} (e : exec (.tic t c) s = .next nx) : Quiet (s.arrive t) nx := by
  change execTic t c s = .next nx at e
  unfold execTic at e
  refine quiet_engineEvent e fun x => ?_
  dsimp only
  refine Quiet.ite ?_ (.refl _)
  have h : Quiet x x := .refl x
  repeat' first
    | with_reducible refine Quiet.ite ?_ ?_
    | with_reducible refine Quiet.ite_snd ?_ ?_
    | with_reducible assumption
    | with_reducible apply kept_complete
    | with_reducible apply kept_modChan

theorem exec_ticc_quiet {s nx : State} {t} {c} (e : exec (.ticc t c) s = .next nx) : Quiet (s.arrive t) nx := by
  change execTicc t c s = .next nx at e
  unfold execTicc at e
  refine quiet_engineEvent e fun x => ?_
  dsimp only
  refine Quiet.ite ?_ (.refl _)
  have h : Quiet x x := .refl x
  repeat' first
    | with_reducible refine Quiet.ite ?_ ?_
    | with_reducible refine Quiet.ite_snd ?_ ?_
    | with_reducible assumption
    | with_reducible apply kept_complete
    | with_reducible apply kept_modChan

theorem exec_waitTime_quiet {s nx : State} {t} {c} (e : exec (.waitTime t c) s = .next nx) : Quiet (s.arrive t) nx := by
  change execWaitTime t c s = .next nx at e
  unfold execWaitTime at e
  refine quiet_engineEvent e fun x => ?_
  dsimp only
  refine Quiet.ite ?_ (.refl _)
  have h : Quiet x x := .refl x
  repeat' first
    | with_reducible refine Quiet.ite ?_ ?_
    | with_reducible refine Quiet.ite_snd ?_ ?_
    | with_reducible assumption
    | with_reducible apply kept_enterWait
    | with_reducible refine Quiet.foldl _ (fun _ _ _ => ?_) _ ?_
    | with_reducible refine Quiet.ite_snd_of (by with_reducible assumption) ?_ ?_
    | with_reducible refine Quiet.foldl_fst _ (fun _ _ _ => ?_) _ ?_
    | with_reducible refine Quiet.foldl_fst_of (by with_reducible assumption) (fun _ _ _ => ?_) ?_
    | with_reducible refine Quiet.foldl_snd _ (fun _ _ _ => ?_) _ ?_
    | with_reducible refine Quiet.foldl_snd_of (by with_reducible assumption) (fun _ _ _ => ?_) ?_
    | with_reducible refine Quiet.foldl_thd _ (fun _ _ _ => ?_) _ ?_
    | with_reducible refine Quiet.foldl_thd_of (by with_reducible assumption) (fun _ _ _ => ?_) ?_
    | dsimp only
    | simp only [reduceIte, Bool.false_eq_true]
    | split
    | fail_if_no_progress ((with_reducible refine Quiet.put ?_ ?_) <;> first | exact rfl | skip)

theorem exec_waitTimeExpiry_quiet {s nx : State} {t} {c} (e : exec (.waitTimeExpiry t c) s = .next nx) : Quiet (s.arrive t) nx := by
  change execWaitTimeExpiry t c s = .next nx at e
  unfold execWaitTimeExpiry at e
  refine quiet_engineEvent e fun x => ?_
  have h : Quiet x x := .refl x
  repeat' first
    | with_reducible refine Quiet.ite ?_ ?_
    | with_reducible refine Quiet.ite_snd ?_ ?_
    | with_reducible assumption
    | with_reducible apply kept_waitEnds
    | with_reducible refine Quiet.foldl _ (fun _ _ _ => ?_) _ ?_
    | with_reducible refine Quiet.ite_snd_of (by with_reducible assumption) ?_ ?_
    | with_reducible refine Quiet.foldl_fst _ (fun _ _ _ => ?_) _ ?_
    | with_reducible refine Quiet.foldl_fst_of (by with_reducible assumption) (fun _ _ _ => ?_) ?_
    | with_reducible refine Quiet.foldl_snd _ (fun _ _ _ => ?_) _ ?_
    | with_reducible refine Quiet.foldl_snd_of (by with_reducible assumption) (fun _ _ _ => ?_) ?_
    | with_reducible refine Quiet.foldl_thd _ (fun _ _ _ => ?_) _ ?_
    | with_reducible refine Quiet.foldl_thd_of (by with_reducible assumption) (fun _ _ _ => ?_) ?_
    | dsimp only
    | simp only [reduceIte, Bool.false_eq_true]
    | split

theorem exec_waitPosition_kept {s nx : State} {t} {c} (e : exec (.waitPosition t c) s = .next nx) : Kept (s.arrive t) nx := by
  change execWaitPosition t c s = .next nx at e
  unfold execWaitPosition at e
  refine kept_engineEvent e fun x => ?_
  have h : Kept x x := .refl x
  repeat' first
    | with_reducible refine Kept.ite ?_ ?_
    | with_reducible refine Kept.ite_snd ?_ ?_
    | with_reducible assumption
    | with_reducible apply kept_effect

theorem exec_waitUnit_quiet {s nx : State} {t} {c} (e : exec (.waitUnit t c) s = .next nx) : Quiet (s.arrive t) nx := by
  change execWaitUnit t c s = .next nx at e
  unfold execWaitUnit at e
  refine quiet_engineEvent e fun x => ?_
  dsimp only
  refine Quiet.ite ?_ (.refl _)
  have h : Quiet x x := .refl x
  repeat' first
    | with_reducible refine Quiet.ite ?_ ?_
    | with_reducible refine Quiet.ite_snd ?_ ?_
    | with_reducible assumption
    | with_reducible apply kept_waitEnds
    | with_reducible apply kept_enterWait
    | with_reducible refine Quiet.foldl _ (fun _ _ _ => ?_) _ ?_
    | with_reducible refine Quiet.ite_snd_of (by with_reducible assumption) ?_ ?_
    | with_reducible refine Quiet.foldl_fst _ (fun _ _ _ => ?_) _ ?_
    | with_reducible refine Quiet.foldl_fst_of (by with_reducible assumption) (fun _ _ _ => ?_) ?_
    | with_reducible refine Quiet.foldl_snd _ (fun _ _ _ => ?_) _ ?_
    | with_reducible refine Quiet.foldl_snd_of (by with_reducible assumption) (fun _ _ _ => ?_) ?_
    | with_reducible refine Quiet.foldl_thd _ (fun _ _ _ => ?_) _ ?_
    | with_reducible refine Quiet.foldl_thd_of (by with_reducible assumption) (fun _ _ _ => ?_) ?_
    | dsimp only
    | simp only [reduceIte, Bool.false_eq_true]
    | split
    | fail_if_no_progress ((with_reducible refine Quiet.put ?_ ?_) <;> first | exact rfl | skip)

theorem exec_waitCompare_quiet {s nx : State} {t} {c} (e : exec (.waitCompare t c) s = .next nx) : Quiet (s.arrive t) nx := by
  change execWaitCompare t c s = .next nx at e
  unfold execWaitCompare at e
  refine quiet_engineEvent e fun x => ?_
  dsimp only
  refine Quiet.ite ?_ (.refl _)
  have h : Quiet x x := .refl x
  repeat' first
    | with_reducible refine Quiet.ite ?_ ?_
    | with_reducible refine Quiet.ite_snd ?_ ?_
    | with_reducible assumption
    | with_reducible apply kept_waitEnds
    | with_reducible apply kept_enterWait
    | with_reducible refine Quiet.foldl _ (fun _ _ _ => ?_) _ ?_
    | with_reducible refine Quiet.ite_snd_of (by with_reducible assumption) ?_ ?_
    | with_reducible refine Quiet.foldl_fst _ (fun _ _ _ => ?_) _ ?_
    | with_reducible refine Quiet.foldl_fst_of (by with_reducible assumption) (fun _ _ _ => ?_) ?_
    | with_reducible refine Quiet.foldl_snd _ (fun _ _ _ => ?_) _ ?_
    | with_reducible refine Quiet.foldl_snd_of (by with_reducible assumption) (fun _ _ _ => ?_) ?_
    | with_reducible refine Quiet.foldl_thd _ (fun _ _ _ => ?_) _ ?_
    | with_reducible refine Quiet.foldl_thd_of (by with_reducible assumption) (fun _ _ _ => ?_) ?_
    | dsimp only
    | simp only [reduceIte, Bool.false_eq_true]
    | split
    | fail_if_no_progress ((with_reducible refine Quiet.put ?_ ?_) <;> first | exact rfl | skip)

theorem exec_waitComplete_quiet {s nx : State} {t} {c} (e : exec (.waitComplete t c) s = .next nx) : Quiet (s.arrive t) nx := by
  change execWaitComplete t c s = .next nx at e
  unfold execWaitComplete at e
  refine quiet_engineEvent e fun x => ?_
  have h : Quiet x x := .refl x
  repeat' first
    | with_reducible refine Quiet.ite ?_ ?_
    | with_reducible refine Quiet.ite_snd ?_ ?_
    | with_reducible assumption
    | with_reducible apply kept_waitComplete
    | with_reducible refine Quiet.foldl _ (fun _ _ _ => ?_) _ ?_
    | with_reducible refine Quiet.ite_snd_of (by with_reducible assumption) ?_ ?_
    | with_reducible refine Quiet.foldl_fst _ (fun _ _ _ => ?_) _ ?_
    | with_reducible refine Quiet.foldl_fst_of (by with_reducible assumption) (fun _ _ _ => ?_) ?_
    | with_reducible refine Quiet.foldl_snd _ (fun _ _ _ => ?_) _ ?_
    | with_reducible refine Quiet.foldl_snd_of (by with_reducible assumption) (fun _ _ _ => ?_) ?_
    | with_reducible refine Quiet.foldl_thd _ (fun _ _ _ => ?_) _ ?_
    | with_reducible refine Quiet.foldl_thd_of (by with_reducible assumption) (fun _ _ _ => ?_) ?_
    | dsimp only
    | simp only [reduceIte, Bool.false_eq_true]
    | split
    | fail_if_no_progress ((with_reducible refine Quiet.put ?_ ?_) <;> first | exact rfl | skip)

theorem exec_waitTimeout_quiet {s nx : State} {t} {c} (e : exec (.waitTimeout t c) s = .next nx) : Quiet (s.arrive t) nx := by
  change execWaitTimeout t c s = .next nx at e
  unfold execWaitTimeout at e
  refine quiet_engineEvent e fun x => ?_
  have h : Quiet x x := .refl x
  repeat' first
    | with_reducible refine Quiet.ite ?_ ?_
    | with_reducible refine Quiet.ite_snd ?_ ?_
    | with_reducible assumption
    | with_reducible apply kept_waitEnds
    | with_reducible refine Quiet.foldl _ (fun _ _ _ => ?_) _ ?_
    | with_reducible refine Quiet.ite_snd_of (by with_reducible assumption) ?_ ?_
    | with_reducible refine Quiet.foldl_fst _ (fun _ _ _ => ?_) _ ?_
    | with_reducible refine Quiet.foldl_fst_of (by with_reducible assumption) (fun _ _ _ => ?_) ?_
    | with_reducible refine Quiet.foldl_snd _ (fun _ _ _ => ?_) _ ?_
    | with_reducible refine Quiet.foldl_snd_of (by with_reducible assumption) (fun _ _ _ => ?_) ?_
    | with_reducible refine Quiet.foldl_thd _ (fun _ _ _ => ?_) _ ?_
    | with_reducible refine Quiet.foldl_thd_of (by with_reducible assumption) (fun _ _ _ => ?_) ?_
    | dsimp only
    | simp only [reduceIte, Bool.false_eq_true]
    | split

theorem exec_glade_quiet {s nx : State} {t} {c} (e : exec (.glade t c) s = .next nx) : Quiet (s.arrive t) nx := by
  change execGlade t c s = .next nx at e
  unfold execGlade at e
  refine quiet_engineEvent e fun x => ?_
  dsimp only
  refine Quiet.ite ?_ (.refl _)
  have h : Quiet x x := .refl x
  repeat' first
    | with_reducible refine Quiet.ite ?_ ?_
    | with_reducible refine Quiet.ite_snd ?_ ?_
    | with_reducible assumption
    | with_reducible apply kept_waitEnds
    | with_reducible apply kept_modChan
    | with_reducible apply kept_enterWait
    | with_reducible refine Quiet.foldl _ (fun _ _ _ => ?_) _ ?_
    | with_reducible refine Quiet.ite_snd_of (by with_reducible assumption) ?_ ?_
    | with_reducible refine Quiet.foldl_fst _ (fun _ _ _ => ?_) _ ?_
    | with_reducible refine Quiet.foldl_fst_of (by with_reducible assumption) (fun _ _ _ => ?_) ?_
    | with_reducible refine Quiet.foldl_snd _ (fun _ _ _ => ?_) _ ?_
    | with_reducible refine Quiet.foldl_snd_of (by with_reducible assumption) (fun _ _ _ => ?_) ?_
    | with_reducible refine Quiet.foldl_thd _ (fun _ _ _ => ?_) _ ?_
    | with_reducible refine Quiet.foldl_thd_of (by with_reducible assumption) (fun _ _ _ => ?_) ?_
    | dsimp only
    | simp only [reduceIte, Bool.false_eq_true]
    | split
    | fail_if_no_progress ((with_reducible refine Quiet.put ?_ ?_) <;> first | exact rfl | skip)

theorem exec_gladeComplete_quiet {s nx : State} {t} {c} (e : exec (.gladeComplete t c) s = .next nx) : Quiet (s.arrive t) nx := by
  change execGladeComplete t c s = .next nx at e
  unfold execGladeComplete at e
  refine quiet_engineEvent e fun x => ?_
  have h : Quiet x x := .refl x
  repeat' first
    | with_reducible refine Quiet.ite ?_ ?_
    | with_reducible refine Quiet.ite_snd ?_ ?_
    | with_reducible assumption
    | with_reducible apply kept_waitEnds
    | with_reducible refine Quiet.foldl _ (fun _ _ _ => ?_) _ ?_
    | with_reducible refine Quiet.ite_snd_of (by with_reducible assumption) ?_ ?_
    | with_reducible refine Quiet.foldl_fst _ (fun _ _ _ => ?_) _ ?_
    | with_reducible refine Quiet.foldl_fst_of (by with_reducible assumption) (fun _ _ _ => ?_) ?_
    | with_reducible refine Quiet.foldl_snd _ (fun _ _ _ => ?_) _ ?_
    | with_reducible refine Quiet.foldl_snd_of (by with_reducible assumption) (fun _ _ _ => ?_) ?_
    | with_reducible refine Quiet.foldl_thd _ (fun _ _ _ => ?_) _ ?_
    | with_reducible refine Quiet.foldl_thd_of (by with_reducible assumption) (fun _ _ _ => ?_) ?_
    | dsimp only
    | simp only [reduceIte, Bool.false_eq_true]
    | split

theorem exec_signalLevel_quiet {s nx : State} {t} {c} (e : exec (.signalLevel t c) s = .next nx) : Quiet (s.arrive t) nx := by
  change execSignalLevel t c s = .next nx at e
  unfold execSignalLevel at e
  refine quiet_engineEvent e fun x => ?_
  dsimp only
  refine Quiet.ite ?_ (.refl _)
  have h : Quiet x x := .refl x
  repeat' first
    | with_reducible refine Quiet.ite ?_ ?_
    | with_reducible refine Quiet.ite_snd ?_ ?_
    | with_reducible assumption
    | with_reducible apply kept_signalStart

theorem exec_signalPulse_quiet {s nx : State} {t} {c} (e : exec (.signalPulse t c) s = .next nx) : Quiet (s.arrive t) nx := by
  change execSignalPulse t c s = .next nx at e
  unfold execSignalPulse at e
  refine quiet_engineEvent e fun x => ?_
  dsimp only
  refine Quiet.ite ?_ (.refl _)
  have h : Quiet x x := .refl x
  repeat' first
    | with_reducible refine Quiet.ite ?_ ?_
    | with_reducible refine Quiet.ite_snd ?_ ?_
    | with_reducible assumption
    | with_reducible apply kept_signalStart

theorem exec_signalPattern_quiet {s nx : State} {t} {c} (e : exec (.signalPattern t c) s = .next nx) : Quiet (s.arrive t) nx := by
  change execSignalPattern t c s = .next nx at e
  unfold execSignalPattern at e
  refine quiet_engineEvent e fun x => ?_
  dsimp only
  refine Quiet.ite ?_ (.refl _)
  have h : Quiet x x := .refl x
  repeat' first
    | with_reducible refine Quiet.ite ?_ ?_
    | with_reducible refine Quiet.ite_snd ?_ ?_
    | with_reducible assumption
    | with_reducible apply kept_signalStart

theorem exec_patternEdge_quiet {s nx : State} {t} {u} (e : exec (.patternEdge t u) s = .next nx) : Quiet (s.arrive t) nx := by
  change execPatternEdge t u s = .next nx at e
  unfold execPatternEdge at e
  refine quiet_engineEvent e fun x => ?_
  have h : Quiet x x := .refl x
  repeat' first
    | with_reducible refine Quiet.ite ?_ ?_
    | with_reducible refine Quiet.ite_snd ?_ ?_
    | with_reducible assumption
    | with_reducible apply kept_patternEdge

theorem exec_slotReserve_quiet {s nx : State} {t} {u} (e : exec (.slotReserve t u) s = .next nx) : Quiet (s.arrive t) nx := by
  change execSlotReserve t u s = .next nx at e
  unfold execSlotReserve at e
  refine quiet_engineEvent e fun x => ?_
  have h : Quiet x x := .refl x
  repeat' first
    | with_reducible refine Quiet.ite ?_ ?_
    | with_reducible refine Quiet.ite_snd ?_ ?_
    | with_reducible assumption
    | with_reducible apply kept_slotReserve

theorem exec_armCompare_ran {s nx : State} {t} {c} (e : exec (.armCompare t c) s = .next nx) : Ran (s.arrive t) nx := by
  change execArmCompare t c s = .next nx at e
  unfold execArmCompare at e
  refine ran_engineEvent e fun x => ?_
  dsimp only
  refine Ran.ite ?_ (.refl _)
  have h : Ran x x := .refl x
  repeat' first
    | with_reducible refine Ran.ite ?_ ?_
    | with_reducible refine Ran.ite_snd ?_ ?_
    | with_reducible assumption
    | with_reducible apply kept_armDo

theorem exec_armCapture_ran {s nx : State} {t} {c} (e : exec (.armCapture t c) s = .next nx) : Ran (s.arrive t) nx := by
  change execArmCapture t c s = .next nx at e
  unfold execArmCapture at e
  refine ran_engineEvent e fun x => ?_
  dsimp only
  refine Ran.ite ?_ (.refl _)
  have h : Ran x x := .refl x
  repeat' first
    | with_reducible refine Ran.ite ?_ ?_
    | with_reducible refine Ran.ite_snd ?_ ?_
    | with_reducible assumption
    | with_reducible apply kept_armDo

theorem exec_lock_quiet {s nx : State} {t} {c} (e : exec (.lock t c) s = .next nx) : Quiet (s.arrive t) nx := by
  change execLock t c s = .next nx at e
  unfold execLock at e
  refine quiet_engineEvent e fun x => ?_
  dsimp only
  refine Quiet.ite ?_ (.refl _)
  have h : Quiet x x := .refl x
  repeat' first
    | with_reducible refine Quiet.ite ?_ ?_
    | with_reducible refine Quiet.ite_snd ?_ ?_
    | with_reducible assumption
    | with_reducible apply kept_lockDo

theorem exec_unlock_quiet {s nx : State} {t} {c} (e : exec (.unlock t c) s = .next nx) : Quiet (s.arrive t) nx := by
  change execUnlock t c s = .next nx at e
  unfold execUnlock at e
  refine quiet_engineEvent e fun x => ?_
  dsimp only
  refine Quiet.ite ?_ (.refl _)
  have h : Quiet x x := .refl x
  repeat' first
    | with_reducible refine Quiet.ite ?_ ?_
    | with_reducible refine Quiet.ite_snd ?_ ?_
    | with_reducible assumption
    | with_reducible apply kept_unlockDo

theorem exec_lockAbandoned_quiet {s nx : State} {t} {c} (e : exec (.lockAbandoned t c) s = .next nx) : Quiet (s.arrive t) nx := by
  change execLockAbandoned t c s = .next nx at e
  unfold execLockAbandoned at e
  refine quiet_engineEvent e fun x => ?_
  have h : Quiet x x := .refl x
  repeat' first
    | with_reducible refine Quiet.ite ?_ ?_
    | with_reducible refine Quiet.ite_snd ?_ ?_
    | with_reducible assumption
    | with_reducible apply kept_lockAbandon

theorem exec_cas_quiet {s nx : State} {t} {c} (e : exec (.cas t c) s = .next nx) : Quiet (s.arrive t) nx := by
  change execCas t c s = .next nx at e
  unfold execCas at e
  refine quiet_engineEvent e fun x => ?_
  dsimp only
  refine Quiet.ite ?_ (.refl _)
  have h : Quiet x x := .refl x
  repeat' first
    | with_reducible refine quiet_orMember ?_ (fun x => ?_)
    | exact .refl _
    | with_reducible refine Quiet.ite ?_ ?_
    | with_reducible refine Quiet.ite_snd ?_ ?_
    | with_reducible assumption
    | with_reducible apply kept_casDo

theorem exec_mark_quiet {s nx : State} {t} {c} (e : exec (.mark t c) s = .next nx) : Quiet (s.arrive t) nx := by
  change execMark t c s = .next nx at e
  unfold execMark at e
  refine quiet_engineEvent e fun x => ?_
  dsimp only
  refine Quiet.ite ?_ (.refl _)
  have h : Quiet x x := .refl x
  repeat' first
    | with_reducible refine Quiet.ite ?_ ?_
    | with_reducible refine Quiet.ite_snd ?_ ?_
    | with_reducible assumption
    | with_reducible apply kept_markDo

theorem exec_nop_quiet {s nx : State} {t} {c} (e : exec (.nop t c) s = .next nx) : Quiet (s.arrive t) nx := by
  change execNop t c s = .next nx at e
  unfold execNop at e
  refine quiet_engineEvent e fun x => ?_
  dsimp only
  refine Quiet.ite ?_ (.refl _)
  have h : Quiet x x := .refl x
  repeat' first
    | with_reducible refine quiet_orMember ?_ (fun x => ?_)
    | exact .refl _
    | with_reducible refine Quiet.ite ?_ ?_
    | with_reducible refine Quiet.ite_snd ?_ ?_
    | with_reducible assumption
    | with_reducible apply kept_complete

theorem exec_schedEntryGrant_ran {s nx : State} {t} (e : exec (.schedEntryGrant t) s = .next nx) : Ran (s.arrive t) nx := by
  change execSchedEntryGrant t s = .next nx at e
  unfold execSchedEntryGrant at e
  refine ran_engineEvent e fun x => ?_
  have h : Ran x x := .refl x
  repeat' first
    | with_reducible refine Ran.ite ?_ ?_
    | with_reducible refine Ran.ite_snd ?_ ?_
    | with_reducible assumption
    | with_reducible apply kept_entryGrant

theorem exec_stagingBegin_quiet {s nx : State} {t} {c} (e : exec (.stagingBegin t c) s = .next nx) : Quiet (s.arrive t) nx := by
  change execStagingBegin t c s = .next nx at e
  unfold execStagingBegin at e
  refine quiet_engineEvent e fun x => ?_
  have h : Quiet x x := .refl x
  repeat' first
    | with_reducible refine Quiet.ite ?_ ?_
    | with_reducible refine Quiet.ite_snd ?_ ?_
    | with_reducible assumption
    | with_reducible apply kept_stagingBegin

theorem exec_commit_quiet {s nx : State} {t} {c} (e : exec (.commit t c) s = .next nx) : Quiet (s.arrive t) nx := by
  change execCommit t c s = .next nx at e
  unfold execCommit at e
  refine quiet_engineEvent e fun x => ?_
  have h : Quiet x x := .refl x
  repeat' first
    | with_reducible refine Quiet.ite ?_ ?_
    | with_reducible refine Quiet.ite_snd ?_ ?_
    | with_reducible assumption
    | with_reducible apply kept_commitPoint

theorem exec_patternEdgeCommit_quiet {s nx : State} {t} {u} (e : exec (.patternEdgeCommit t u) s = .next nx) : Quiet (s.arrive t) nx := by
  change execPatternEdgeCommit t u s = .next nx at e
  unfold execPatternEdgeCommit at e
  refine quiet_engineEvent e fun x => ?_
  have h : Quiet x x := .refl x
  repeat' first
    | with_reducible refine Quiet.ite ?_ ?_
    | with_reducible refine Quiet.ite_snd ?_ ?_
    | with_reducible assumption
    | with_reducible apply kept_edgeCommit

theorem exec_placementLock_quiet {s nx : State} {t} {c} (e : exec (.placementLock t c) s = .next nx) : Quiet (s.arrive t) nx := by
  change execPlacementLock t c s = .next nx at e
  unfold execPlacementLock at e
  refine quiet_engineEvent e fun x => ?_
  have h : Quiet x x := .refl x
  repeat' first
    | with_reducible refine Quiet.ite ?_ ?_
    | with_reducible refine Quiet.ite_snd ?_ ?_
    | with_reducible assumption
    | with_reducible apply kept_placementLock

theorem exec_effect_kept {s nx : State} {t} {c} (e : exec (.effect t c) s = .next nx) : Kept (s.arrive t) nx := by
  change execEffect t c s = .next nx at e
  unfold execEffect at e
  refine kept_engineEvent e fun x => ?_
  have h : Kept x x := .refl x
  repeat' first
    | with_reducible refine Kept.ite ?_ ?_
    | with_reducible refine Kept.ite_snd ?_ ?_
    | with_reducible assumption
    | with_reducible apply kept_effect

theorem exec_limitExpiry_quiet {s nx : State} {t} {c} (e : exec (.limitExpiry t c) s = .next nx) : Quiet (s.arrive t) nx := by
  change execLimitExpiry t c s = .next nx at e
  unfold execLimitExpiry at e
  refine quiet_engineEvent e fun x => ?_
  have h : Quiet x x := .refl x
  repeat' first
    | with_reducible refine Quiet.ite ?_ ?_
    | with_reducible refine Quiet.ite_snd ?_ ?_
    | with_reducible assumption
    | with_reducible apply kept_limitExpiry

theorem exec_moverGrant_quiet {s nx : State} {t} (e : exec (.moverGrant t) s = .next nx) : Quiet (s.arrive t) nx := by
  change execMoverGrant t s = .next nx at e
  unfold execMoverGrant at e
  refine quiet_engineEvent e fun x => ?_
  have h : Quiet x x := .refl x
  repeat' first
    | with_reducible refine Quiet.ite ?_ ?_
    | with_reducible refine Quiet.ite_snd ?_ ?_
    | with_reducible assumption
    | with_reducible apply kept_moverGrant
    | with_reducible refine Quiet.foldl _ (fun _ _ _ => ?_) _ ?_
    | with_reducible refine Quiet.ite_snd_of (by with_reducible assumption) ?_ ?_
    | with_reducible refine Quiet.foldl_fst _ (fun _ _ _ => ?_) _ ?_
    | with_reducible refine Quiet.foldl_fst_of (by with_reducible assumption) (fun _ _ _ => ?_) ?_
    | with_reducible refine Quiet.foldl_snd _ (fun _ _ _ => ?_) _ ?_
    | with_reducible refine Quiet.foldl_snd_of (by with_reducible assumption) (fun _ _ _ => ?_) ?_
    | with_reducible refine Quiet.foldl_thd _ (fun _ _ _ => ?_) _ ?_
    | with_reducible refine Quiet.foldl_thd_of (by with_reducible assumption) (fun _ _ _ => ?_) ?_
    | dsimp only
    | simp only [reduceIte, Bool.false_eq_true]
    | split
    | fail_if_no_progress ((with_reducible refine Quiet.put ?_ ?_) <;> first | exact rfl | skip)

theorem exec_unitAdvertise_quiet {s nx : State} {t} {c} (e : exec (.unitAdvertise t c) s = .next nx) : Quiet (s.arrive t) nx := by
  change execUnitAdvertise t c s = .next nx at e
  unfold execUnitAdvertise at e
  refine quiet_engineEvent e fun x => ?_
  have h : Quiet x x := .refl x
  repeat' first
    | with_reducible refine Quiet.ite ?_ ?_
    | with_reducible refine Quiet.ite_snd ?_ ?_
    | with_reducible assumption
    | with_reducible apply kept_unitAdvertise

theorem exec_burstEnd_kept {s nx : State} {t} {mv} (e : exec (.burstEnd t mv) s = .next nx) : Kept (s.arrive t) nx := by
  change execBurstEnd t mv s = .next nx at e
  unfold execBurstEnd at e
  refine kept_engineEvent e fun x => ?_
  have h : Kept x x := .refl x
  repeat' first
    | with_reducible refine Kept.ite ?_ ?_
    | with_reducible refine Kept.ite_snd ?_ ?_
    | with_reducible assumption
    | with_reducible apply kept_burstEnd

theorem exec_hostReadCompletion_quiet {s nx : State} {t} {mv} {addr} {h} (e : exec (.hostReadCompletion t mv addr h) s = .next nx) : Quiet (s.arrive t) nx := by
  change execHostReadCompletion t mv addr h s = .next nx at e
  unfold execHostReadCompletion at e
  refine quiet_engineEvent e fun x => ?_
  have h : Quiet x x := .refl x
  repeat' first
    | with_reducible refine Quiet.ite ?_ ?_
    | with_reducible refine Quiet.ite_snd ?_ ?_
    | with_reducible assumption
    | with_reducible apply kept_requestData
    | with_reducible apply kept_requestFails
    | with_reducible refine Quiet.foldl _ (fun _ _ _ => ?_) _ ?_
    | with_reducible refine Quiet.ite_snd_of (by with_reducible assumption) ?_ ?_
    | with_reducible refine Quiet.foldl_fst _ (fun _ _ _ => ?_) _ ?_
    | with_reducible refine Quiet.foldl_fst_of (by with_reducible assumption) (fun _ _ _ => ?_) ?_
    | with_reducible refine Quiet.foldl_snd _ (fun _ _ _ => ?_) _ ?_
    | with_reducible refine Quiet.foldl_snd_of (by with_reducible assumption) (fun _ _ _ => ?_) ?_
    | with_reducible refine Quiet.foldl_thd _ (fun _ _ _ => ?_) _ ?_
    | with_reducible refine Quiet.foldl_thd_of (by with_reducible assumption) (fun _ _ _ => ?_) ?_
    | dsimp only
    | simp only [reduceIte, Bool.false_eq_true]
    | split

theorem exec_completionTimeout_quiet {s nx : State} {t} {mv} {addr} (e : exec (.completionTimeout t mv addr) s = .next nx) : Quiet (s.arrive t) nx := by
  change execCompletionTimeout t mv addr s = .next nx at e
  unfold execCompletionTimeout at e
  refine quiet_engineEvent e fun x => ?_
  have h : Quiet x x := .refl x
  repeat' first
    | with_reducible refine Quiet.ite ?_ ?_
    | with_reducible refine Quiet.ite_snd ?_ ?_
    | with_reducible assumption
    | with_reducible apply kept_requestFails
    | with_reducible refine Quiet.foldl _ (fun _ _ _ => ?_) _ ?_
    | with_reducible refine Quiet.ite_snd_of (by with_reducible assumption) ?_ ?_
    | with_reducible refine Quiet.foldl_fst _ (fun _ _ _ => ?_) _ ?_
    | with_reducible refine Quiet.foldl_fst_of (by with_reducible assumption) (fun _ _ _ => ?_) ?_
    | with_reducible refine Quiet.foldl_snd _ (fun _ _ _ => ?_) _ ?_
    | with_reducible refine Quiet.foldl_snd_of (by with_reducible assumption) (fun _ _ _ => ?_) ?_
    | with_reducible refine Quiet.foldl_thd _ (fun _ _ _ => ?_) _ ?_
    | with_reducible refine Quiet.foldl_thd_of (by with_reducible assumption) (fun _ _ _ => ?_) ?_
    | dsimp only
    | simp only [reduceIte, Bool.false_eq_true]
    | split

theorem exec_moverPeakClr_kept {s nx : State} {t} {m} {v} (e : exec (.moverPeakClr t m v) s = .next nx) : Kept (s.arrive t) nx := by
  change execMoverPeakClr t m v s = .next nx at e
  unfold execMoverPeakClr at e
  refine kept_regWrite e fun x => ?_
  have h : Kept x x := .refl x
  repeat' first
    | with_reducible refine Kept.ite ?_ ?_
    | with_reducible refine Kept.ite_snd ?_ ?_
    | with_reducible assumption
    | with_reducible apply Kept.ofQuiet (kept_moverCtrl (Quiet.refl _))

theorem exec_moverBytesRead_kept {s nx : State} {t} {m} (e : exec (.moverBytesRead t m) s = .next nx) : Kept (s.arrive t) nx := by
  change execMoverBytesRead t m s = .next nx at e
  unfold execMoverBytesRead at e
  refine kept_regRead e fun x => ?_
  have h : Kept x x := .refl x
  repeat' first
    | with_reducible refine Kept.ite ?_ ?_
    | with_reducible refine Kept.ite_snd ?_ ?_
    | with_reducible assumption
    | with_reducible apply kept_readMoverBytes

theorem exec_mvStateRead_kept {s nx : State} {t} {m} {mv} (e : exec (.mvStateRead t m mv) s = .next nx) : Kept (s.arrive t) nx := by
  change execMvStateRead t m mv s = .next nx at e
  unfold execMvStateRead at e
  refine kept_regRead e fun x => ?_
  have h : Kept x x := .refl x
  repeat' first
    | with_reducible refine Kept.ite ?_ ?_
    | with_reducible refine Kept.ite_snd ?_ ?_
    | with_reducible assumption
    | with_reducible apply kept_readMvState

theorem exec_start_quiet {s nx : State} {t} {q} {c} {phy} {addr} (e : exec (.start t q c phy addr) s = .next nx) : Quiet (s.arrive t) nx := by
  change execStart t q c phy addr s = .next nx at e
  unfold execStart at e
  exact quiet_engineEvent e fun _ => quiet_note (kept_request_ (.refl _))

theorem exec_halt_quiet {s nx : State} {t} {q} {c} (e : exec (.halt t q c) s = .next nx) : Quiet (s.arrive t) nx := by
  change execHalt t q c s = .next nx at e
  unfold execHalt at e
  exact quiet_engineEvent e fun _ => quiet_note (kept_request_ (.refl _))

theorem exec_suspend_quiet {s nx : State} {t} {q} {c} (e : exec (.suspend t q c) s = .next nx) : Quiet (s.arrive t) nx := by
  change execSuspend t q c s = .next nx at e
  unfold execSuspend at e
  exact quiet_engineEvent e fun _ => quiet_note (kept_request_ (.refl _))

theorem exec_resume_quiet {s nx : State} {t} {q} {c} (e : exec (.resume t q c) s = .next nx) : Quiet (s.arrive t) nx := by
  change execResume t q c s = .next nx at e
  unfold execResume at e
  exact quiet_engineEvent e fun _ => quiet_note (kept_request_ (.refl _))

theorem exec_clear_quiet {s nx : State} {t} {q} {c} (e : exec (.clear t q c) s = .next nx) : Quiet (s.arrive t) nx := by
  change execClear t q c s = .next nx at e
  unfold execClear at e
  exact quiet_engineEvent e fun _ => quiet_note (kept_request_ (.refl _))

theorem exec_modify_quiet {s nx : State} {t} {q} {c} {phy} {addr} {mask} {cond} (e : exec (.modify t q c phy addr mask cond) s = .next nx) : Quiet (s.arrive t) nx := by
  change execModify t q c phy addr mask cond s = .next nx at e
  unfold execModify at e
  exact quiet_engineEvent e fun _ => quiet_note (kept_request_ (.refl _))

theorem exec_storeStatus_quiet {s nx : State} {t} {q} {c} {phy} {addr} (e : exec (.storeStatus t q c phy addr) s = .next nx) : Quiet (s.arrive t) nx := by
  change execStoreStatus t q c phy addr s = .next nx at e
  unfold execStoreStatus at e
  exact quiet_engineEvent e fun _ => quiet_note (kept_request_ (.refl _))

theorem exec_drainComplete_quiet {s nx : State} {t} {c} (e : exec (.drainComplete t c) s = .next nx) : Quiet (s.arrive t) nx := by
  change execDrainComplete t c s = .next nx at e
  unfold execDrainComplete at e
  refine quiet_engineEvent e fun x => ?_
  have h : Quiet x x := .refl x
  repeat' first
    | with_reducible refine Quiet.ite ?_ ?_
    | with_reducible refine Quiet.ite_snd ?_ ?_
    | with_reducible assumption
    | with_reducible apply kept_drainEnd

theorem exec_ctxStateRead_kept {s nx : State} {t} {m} {c} (e : exec (.ctxStateRead t m c) s = .next nx) : Kept (s.arrive t) nx := by
  change execCtxStateRead t m c s = .next nx at e
  unfold execCtxStateRead at e
  refine kept_regRead e fun x => ?_
  have h : Kept x x := .refl x
  repeat' first
    | with_reducible refine Kept.ite ?_ ?_
    | with_reducible refine Kept.ite_snd ?_ ?_
    | with_reducible assumption
    | with_reducible apply kept_readCtx

theorem exec_wqDoorbell_kept {s nx : State} {t} {m} {q} (e : exec (.wqDoorbell t m q) s = .next nx) : Kept (s.arrive t) nx := by
  change execWqDoorbell t m q s = .next nx at e
  unfold execWqDoorbell at e
  refine kept_regWrite e fun x => ?_
  have h : Kept x x := .refl x
  repeat' first
    | with_reducible refine Kept.ite ?_ ?_
    | with_reducible refine Kept.ite_snd ?_ ?_
    | with_reducible assumption
    | with_reducible apply Kept.ofQuiet (kept_wqAccess (Quiet.refl _))

theorem exec_pushSlotWrite_kept {s nx : State} {t} {m} {q} {ofs} {bytes} (e : exec (.pushSlotWrite t m q ofs bytes) s = .next nx) : Kept (s.arrive t) nx := by
  change execPushSlotWrite t m q ofs bytes s = .next nx at e
  unfold execPushSlotWrite at e
  refine kept_regWrite e fun x => ?_
  have h : Kept x x := .refl x
  repeat' first
    | with_reducible refine Kept.ite ?_ ?_
    | with_reducible refine Kept.ite_snd ?_ ?_
    | with_reducible assumption
    | with_reducible apply Kept.ofQuiet (kept_wqAccess (Quiet.refl _))

theorem exec_wqPiReadComplete_quiet {s nx : State} {t} {q} {h} (e : exec (.wqPiReadComplete t q h) s = .next nx) : Quiet (s.arrive t) nx := by
  change execWqPiReadComplete t q h s = .next nx at e
  unfold execWqPiReadComplete at e
  refine quiet_engineEvent e fun x => ?_
  have h : Quiet x x := .refl x
  repeat' first
    | with_reducible refine Quiet.ite ?_ ?_
    | with_reducible refine Quiet.ite_snd ?_ ?_
    | with_reducible assumption
    | with_reducible apply kept_piRead

theorem exec_entryServe_ran {s nx : State} {t} {q} {h} (e : exec (.entryServe t q h) s = .next nx) : Ran (s.arrive t) nx := by
  change execEntryServe t q h s = .next nx at e
  unfold execEntryServe at e
  refine ran_engineEvent e fun x => ?_
  have h : Ran x x := .refl x
  repeat' first
    | with_reducible refine Ran.ite ?_ ?_
    | with_reducible refine Ran.ite_snd ?_ ?_
    | with_reducible assumption
    | with_reducible apply kept_entryServe

theorem exec_createWq_ran {s nx : State} {t} {q} {phy} {base} {size} {dom} {owner} (e : exec (.createWq t q phy base size dom owner) s = .next nx) : Ran (s.arrive t) nx := by
  change execCreateWq t q phy base size dom owner s = .next nx at e
  unfold execCreateWq at e
  exact ran_engineEvent e fun _ => kept_note (kept_admin (.refl _))

theorem exec_destroyWq_ran {s nx : State} {t} {q} (e : exec (.destroyWq t q) s = .next nx) : Ran (s.arrive t) nx := by
  change execDestroyWq t q s = .next nx at e
  unfold execDestroyWq at e
  exact ran_engineEvent e fun _ => kept_note (kept_admin (.refl _))

theorem exec_enableWq_ran {s nx : State} {t} {q} (e : exec (.enableWq t q) s = .next nx) : Ran (s.arrive t) nx := by
  change execEnableWq t q s = .next nx at e
  unfold execEnableWq at e
  exact ran_engineEvent e fun _ => kept_note (kept_admin (.refl _))

theorem exec_disableWq_ran {s nx : State} {t} {q} (e : exec (.disableWq t q) s = .next nx) : Ran (s.arrive t) nx := by
  change execDisableWq t q s = .next nx at e
  unfold execDisableWq at e
  exact ran_engineEvent e fun _ => kept_note (kept_admin (.refl _))

theorem exec_disableComplete_quiet {s nx : State} {t} {q} (e : exec (.disableComplete t q) s = .next nx) : Quiet (s.arrive t) nx := by
  change execDisableComplete t q s = .next nx at e
  unfold execDisableComplete at e
  refine quiet_engineEvent e fun x => ?_
  have h : Quiet x x := .refl x
  repeat' first
    | with_reducible refine Quiet.ite ?_ ?_
    | with_reducible refine Quiet.ite_snd ?_ ?_
    | with_reducible assumption
    | with_reducible apply kept_disableDone

theorem exec_createEq_ran {s nx : State} {t} {q} {phy} {base} {size} {dom} {note} {vec} (e : exec (.createEq t q phy base size dom note vec) s = .next nx) : Ran (s.arrive t) nx := by
  change execCreateEq t q phy base size dom note vec s = .next nx at e
  unfold execCreateEq at e
  exact ran_engineEvent e fun _ => kept_note (kept_admin (.refl _))

theorem exec_destroyEq_ran {s nx : State} {t} {q} (e : exec (.destroyEq t q) s = .next nx) : Ran (s.arrive t) nx := by
  change execDestroyEq t q s = .next nx at e
  unfold execDestroyEq at e
  exact ran_engineEvent e fun _ => kept_note (kept_admin (.refl _))

theorem exec_bind_ran {s nx : State} {t} {c} {wq} {eq} {dom} (e : exec (.bind t c wq eq dom) s = .next nx) : Ran (s.arrive t) nx := by
  change execBind t c wq eq dom s = .next nx at e
  unfold execBind at e
  exact ran_engineEvent e fun _ => kept_note (kept_admin (.refl _))

theorem exec_setPrio_ran {s nx : State} {t} {c} {cls} (e : exec (.setPrio t c cls) s = .next nx) : Ran (s.arrive t) nx := by
  change execSetPrio t c cls s = .next nx at e
  unfold execSetPrio at e
  exact ran_engineEvent e fun _ => kept_note (kept_admin (.refl _))

theorem exec_adminCfgWrite_kept {s nx : State} {t} {m} {v} (e : exec (.adminCfgWrite t m v) s = .next nx) : Kept (s.arrive t) nx := by
  change execAdminCfgWrite t m v s = .next nx at e
  unfold execAdminCfgWrite at e
  refine kept_regWrite e fun x => ?_
  have h : Kept x x := .refl x
  repeat' first
    | with_reducible refine Kept.ite ?_ ?_
    | with_reducible refine Kept.ite_snd ?_ ?_
    | with_reducible assumption
    | with_reducible apply Kept.ofQuiet (kept_adminCfg (Quiet.refl _))

theorem exec_eqDoorbell_kept {s nx : State} {t} {m} {q} {arm} (e : exec (.eqDoorbell t m q arm) s = .next nx) : Kept (s.arrive t) nx := by
  change execEqDoorbell t m q arm s = .next nx at e
  unfold execEqDoorbell at e
  refine kept_regWrite e fun x => ?_
  have h : Kept x x := .refl x
  repeat' first
    | with_reducible refine Kept.ite ?_ ?_
    | with_reducible refine Kept.ite_snd ?_ ?_
    | with_reducible assumption
    | with_reducible apply Kept.ofQuiet (kept_modEq (Quiet.refl _))

theorem exec_eqCiReadComplete_quiet {s nx : State} {t} {q} {h} (e : exec (.eqCiReadComplete t q h) s = .next nx) : Quiet (s.arrive t) nx := by
  change execEqCiReadComplete t q h s = .next nx at e
  unfold execEqCiReadComplete at e
  refine quiet_engineEvent e fun x => ?_
  have h : Quiet x x := .refl x
  repeat' first
    | with_reducible refine Quiet.ite ?_ ?_
    | with_reducible refine Quiet.ite_snd ?_ ?_
    | with_reducible assumption
    | with_reducible apply kept_ciRead

theorem exec_heldRecordPost_ran {s nx : State} {t} {q} (e : exec (.heldRecordPost t q) s = .next nx) : Ran (s.arrive t) nx := by
  change execHeldRecordPost t q s = .next nx at e
  unfold execHeldRecordPost at e
  refine ran_engineEvent e fun x => ?_
  have h : Ran x x := .refl x
  repeat' first
    | with_reducible refine Ran.ite ?_ ?_
    | with_reducible refine Ran.ite_snd ?_ ?_
    | with_reducible assumption
    | with_reducible apply kept_heldPost

theorem exec_wqPiRead_kept {s nx : State} {t} {m} {q} (e : exec (.wqPiRead t m q) s = .next nx) : Kept (s.arrive t) nx := by
  change execWqPiRead t m q s = .next nx at e
  unfold execWqPiRead at e
  refine kept_regRead e fun x => ?_
  have h : Kept x x := .refl x
  repeat' first
    | with_reducible refine Kept.ite ?_ ?_
    | with_reducible refine Kept.ite_snd ?_ ?_
    | with_reducible assumption
    | with_reducible apply kept_readWqPi

theorem exec_eqResRead_kept {s nx : State} {t} {m} {q} (e : exec (.eqResRead t m q) s = .next nx) : Kept (s.arrive t) nx := by
  change execEqResRead t m q s = .next nx at e
  unfold execEqResRead at e
  refine kept_regRead e fun x => ?_
  have h : Kept x x := .refl x
  repeat' first
    | with_reducible refine Kept.ite ?_ ?_
    | with_reducible refine Kept.ite_snd ?_ ?_
    | with_reducible assumption
    | with_reducible apply kept_readEqRes

theorem exec_tableReadComplete_quiet {s nx : State} {t} {w} {h} (e : exec (.tableReadComplete t w h) s = .next nx) : Quiet (s.arrive t) nx := by
  change execTableReadComplete t w h s = .next nx at e
  unfold execTableReadComplete at e
  refine quiet_engineEvent e fun x => ?_
  have h : Quiet x x := .refl x
  repeat' first
    | with_reducible refine Quiet.ite ?_ ?_
    | with_reducible refine Quiet.ite_snd ?_ ?_
    | with_reducible assumption
    | with_reducible apply kept_tableRead

theorem exec_xlInvGo_kept {s nx : State} {t} {m} {v} (e : exec (.xlInvGo t m v) s = .next nx) : Kept (s.arrive t) nx := by
  change execXlInvGo t m v s = .next nx at e
  unfold execXlInvGo at e
  refine kept_regWrite e fun x => ?_
  have h : Kept x x := .refl x
  repeat' first
    | with_reducible refine Kept.ite ?_ ?_
    | with_reducible refine Kept.ite_snd ?_ ?_
    | with_reducible assumption
    | with_reducible apply Kept.ofQuiet (kept_invGo (Quiet.refl _))

theorem exec_invalidationComplete_quiet {s nx : State} {t} (e : exec (.invalidationComplete t) s = .next nx) : Quiet (s.arrive t) nx := by
  change execInvalidationComplete t s = .next nx at e
  unfold execInvalidationComplete at e
  refine quiet_engineEvent e fun x => ?_
  have h : Quiet x x := .refl x
  repeat' first
    | with_reducible refine Quiet.ite ?_ ?_
    | with_reducible refine Quiet.ite_snd ?_ ?_
    | with_reducible assumption
    | with_reducible apply kept_invComplete

theorem exec_domCtrlWrite_kept {s nx : State} {t} {m} {d} {v} (e : exec (.domCtrlWrite t m d v) s = .next nx) : Kept (s.arrive t) nx := by
  change execDomCtrlWrite t m d v s = .next nx at e
  unfold execDomCtrlWrite at e
  refine kept_regWrite e fun x => ?_
  have h : Kept x x := .refl x
  repeat' first
    | with_reducible refine Kept.ite ?_ ?_
    | with_reducible refine Kept.ite_snd ?_ ?_
    | with_reducible assumption
    | with_reducible apply Kept.ofQuiet (kept_domCtrl (Quiet.refl _))

theorem exec_fqDb_kept {s nx : State} {t} {m} {d} {v} (e : exec (.fqDb t m d v) s = .next nx) : Kept (s.arrive t) nx := by
  change execFqDb t m d v s = .next nx at e
  unfold execFqDb at e
  refine kept_regWrite e fun x => ?_
  have h : Kept x x := .refl x
  repeat' first
    | with_reducible refine Kept.ite ?_ ?_
    | with_reducible refine Kept.ite_snd ?_ ?_
    | with_reducible assumption
    | with_reducible apply Kept.ofQuiet (kept_fqDoorbell (Quiet.refl _))

theorem exec_fqCfgWrite_kept {s nx : State} {t} {m} {d} {v} (e : exec (.fqCfgWrite t m d v) s = .next nx) : Kept (s.arrive t) nx := by
  change execFqCfgWrite t m d v s = .next nx at e
  unfold execFqCfgWrite at e
  refine kept_regWrite e fun x => ?_
  have h : Kept x x := .refl x
  repeat' first
    | with_reducible refine Kept.ite ?_ ?_
    | with_reducible refine Kept.ite_snd ?_ ?_
    | with_reducible assumption
    | with_reducible apply Kept.ofQuiet (kept_fqCfg (Quiet.refl _))

theorem exec_parkPeakClr_kept {s nx : State} {t} {m} {v} (e : exec (.parkPeakClr t m v) s = .next nx) : Kept (s.arrive t) nx := by
  change execParkPeakClr t m v s = .next nx at e
  unfold execParkPeakClr at e
  refine kept_regWrite e fun x => ?_
  have h : Kept x x := .refl x
  repeat' first
    | with_reducible refine Kept.ite ?_ ?_
    | with_reducible refine Kept.ite_snd ?_ ?_
    | with_reducible assumption
    | with_reducible apply Kept.ofQuiet (kept_parkCtrl (Quiet.refl _))

theorem exec_xlHitRead_kept {s nx : State} {t} {m} (e : exec (.xlHitRead t m) s = .next nx) : Kept (s.arrive t) nx := by
  change execXlHitRead t m s = .next nx at e
  unfold execXlHitRead at e
  refine kept_regRead e fun x => ?_
  have h : Kept x x := .refl x
  repeat' first
    | with_reducible refine Kept.ite ?_ ?_
    | with_reducible refine Kept.ite_snd ?_ ?_
    | with_reducible assumption
    | with_reducible apply kept_readXlHit

theorem exec_fqPiRead_kept {s nx : State} {t} {m} {d} (e : exec (.fqPiRead t m d) s = .next nx) : Kept (s.arrive t) nx := by
  change execFqPiRead t m d s = .next nx at e
  unfold execFqPiRead at e
  refine kept_regRead e fun x => ?_
  have h : Kept x x := .refl x
  repeat' first
    | with_reducible refine Kept.ite ?_ ?_
    | with_reducible refine Kept.ite_snd ?_ ?_
    | with_reducible assumption
    | with_reducible apply kept_readFqPi

theorem exec_coreWindowAccess_quiet {s nx : State} {t} {k} {addr} {op} {h} (e : exec (.coreWindowAccess t k addr op h) s = .next nx) : Quiet (s.arrive t) nx := by
  change execCoreWindowAccess t k addr op h s = .next nx at e
  unfold execCoreWindowAccess at e
  refine quiet_engineEvent e fun x => ?_
  have h : Quiet x x := .refl x
  repeat' first
    | with_reducible refine Quiet.ite ?_ ?_
    | with_reducible refine Quiet.ite_snd ?_ ?_
    | with_reducible assumption
    | with_reducible apply kept_coreWindow

theorem exec_cwCtrlWrite_kept {s nx : State} {t} {m} {k} {w} {reg} {v} (e : exec (.cwCtrlWrite t m k w reg v) s = .next nx) : Kept (s.arrive t) nx := by
  change execCwCtrlWrite t m k w reg v s = .next nx at e
  unfold execCwCtrlWrite at e
  refine kept_regWrite e fun x => ?_
  have h : Kept x x := .refl x
  repeat' first
    | with_reducible refine Kept.ite ?_ ?_
    | with_reducible refine Kept.ite_snd ?_ ?_
    | with_reducible assumption
    | with_reducible apply Kept.ofQuiet (kept_setWin (Quiet.refl _))

theorem exec_maxOn_quiet {s nx : State} {t} {u} (e : exec (.maxOn t u) s = .next nx) : Quiet (s.arrive t) nx := by
  change execMaxOn t u s = .next nx at e
  unfold execMaxOn at e
  refine quiet_liveEvent e fun x => ?_
  have h : Quiet x x := .refl x
  repeat' first
    | with_reducible refine Quiet.ite ?_ ?_
    | with_reducible refine Quiet.ite_snd ?_ ?_
    | with_reducible assumption
    | with_reducible apply kept_maxOnRest

theorem exec_duty_quiet {s nx : State} {t} {u} (e : exec (.duty t u) s = .next nx) : Quiet (s.arrive t) nx := by
  change execDuty t u s = .next nx at e
  unfold execDuty at e
  refine quiet_liveEvent e fun x => ?_
  have h : Quiet x x := .refl x
  repeat' first
    | with_reducible refine Quiet.ite ?_ ?_
    | with_reducible refine Quiet.ite_snd ?_ ?_
    | with_reducible assumption
    | with_reducible apply kept_dutyRest

theorem exec_permit_kept {s nx : State} {t} {i} {raw} (e : exec (.permit t i raw) s = .next nx) : Kept (s.arrive t) nx := by
  change execPermit t i raw s = .next nx at e
  unfold execPermit at e
  refine kept_liveEvent e fun x => ?_
  have h : Kept x x := .refl x
  repeat' first
    | with_reducible refine Kept.ite ?_ ?_
    | with_reducible refine Kept.ite_snd ?_ ?_
    | with_reducible assumption
    | with_reducible apply kept_permitEdge
    | with_reducible apply kept_permitQual
    | with_reducible refine Kept.foldl _ (fun _ _ _ => ?_) _ ?_
    | with_reducible refine Kept.ite_snd_of (by with_reducible assumption) ?_ ?_
    | with_reducible refine Kept.foldl_fst _ (fun _ _ _ => ?_) _ ?_
    | with_reducible refine Kept.foldl_fst_of (by with_reducible assumption) (fun _ _ _ => ?_) ?_
    | with_reducible refine Kept.foldl_snd _ (fun _ _ _ => ?_) _ ?_
    | with_reducible refine Kept.foldl_snd_of (by with_reducible assumption) (fun _ _ _ => ?_) ?_
    | with_reducible refine Kept.foldl_thd _ (fun _ _ _ => ?_) _ ?_
    | with_reducible refine Kept.foldl_thd_of (by with_reducible assumption) (fun _ _ _ => ?_) ?_
    | dsimp only
    | simp only [reduceIte, Bool.false_eq_true]
    | split
    | fail_if_no_progress ((with_reducible refine Kept.put ?_ ?_) <;> first | exact rfl | skip)

theorem exec_budgetWindowStart_quiet {s nx : State} {t} (e : exec (.budgetWindowStart t) s = .next nx) : Quiet (s.arrive t) nx := by
  change execBudgetWindowStart t s = .next nx at e
  unfold execBudgetWindowStart at e
  refine quiet_liveEvent e fun x => ?_
  have h : Quiet x x := .refl x
  repeat' first
    | with_reducible refine Quiet.ite ?_ ?_
    | with_reducible refine Quiet.ite_snd ?_ ?_
    | with_reducible assumption
    | with_reducible apply kept_openWindow

theorem exec_ouEdgeRead_kept {s nx : State} {t} {m} {u} (e : exec (.ouEdgeRead t m u) s = .next nx) : Kept (s.arrive t) nx := by
  change execOuEdgeRead t m u s = .next nx at e
  unfold execOuEdgeRead at e
  refine kept_regRead e fun x => ?_
  have h : Kept x x := .refl x
  repeat' first
    | with_reducible refine Kept.ite ?_ ?_
    | with_reducible refine Kept.ite_snd ?_ ?_
    | with_reducible assumption
    | with_reducible apply kept_readOuEdge

theorem exec_commitFence_held {s nx : State} {t} {m} {v} (e : exec (.commitFence t m v) s = .next nx) : Held (s.arrive t) nx := by
  change execCommitFence t m v s = .next nx at e
  unfold execCommitFence at e
  refine held_regWrite e fun x => ?_
  have h : Held x x := .refl x
  repeat' first
    | with_reducible refine Held.ite ?_ ?_
    | with_reducible refine Held.ite_snd ?_ ?_
    | with_reducible assumption
    | with_reducible apply held_lwsCmd

theorem exec_commitConduct_held {s nx : State} {t} {m} {v} (e : exec (.commitConduct t m v) s = .next nx) : Held (s.arrive t) nx := by
  change execCommitConduct t m v s = .next nx at e
  unfold execCommitConduct at e
  refine held_regWrite e fun x => ?_
  have h : Held x x := .refl x
  repeat' first
    | with_reducible refine Held.ite ?_ ?_
    | with_reducible refine Held.ite_snd ?_ ?_
    | with_reducible assumption
    | with_reducible apply held_lwsCmd

theorem exec_commitIdentity_held {s nx : State} {t} {m} {v} (e : exec (.commitIdentity t m v) s = .next nx) : Held (s.arrive t) nx := by
  change execCommitIdentity t m v s = .next nx at e
  unfold execCommitIdentity at e
  refine held_regWrite e fun x => ?_
  have h : Held x x := .refl x
  repeat' first
    | with_reducible refine Held.ite ?_ ?_
    | with_reducible refine Held.ite_snd ?_ ?_
    | with_reducible assumption
    | with_reducible apply held_lwsCmd

theorem exec_commitComplete_held {s nx : State} {t} {readBack} (e : exec (.commitComplete t readBack) s = .next nx) : Held (s.arrive t) nx := by
  change execCommitComplete t readBack s = .next nx at e
  have := next_inj e
  subst this
  exact held_commitEnd (.refl _)

theorem exec_lwsStageWrite_held {s nx : State} {t} {m} {ofs} {v} (e : exec (.lwsStageWrite t m ofs v) s = .next nx) : Held (s.arrive t) nx := by
  change execLwsStageWrite t m ofs v s = .next nx at e
  unfold execLwsStageWrite at e
  refine held_regWrite e fun x => ?_
  have h : Held x x := .refl x
  repeat' first
    | with_reducible refine Held.ite ?_ ?_
    | with_reducible refine Held.ite_snd ?_ ?_
    | with_reducible assumption
    | with_reducible apply held_lwsStage

theorem exec_serviceEnQualify_held {s nx : State} {t} {raw} (e : exec (.serviceEnQualify t raw) s = .next nx) : Held (s.arrive t) nx := by
  change execServiceEnQualify t raw s = .next nx at e
  unfold execServiceEnQualify at e
  refine held_liveEvent e fun x => ?_
  have h : Held x x := .refl x
  repeat' first
    | with_reducible refine Held.ite ?_ ?_
    | with_reducible refine Held.ite_snd ?_ ?_
    | with_reducible assumption
    | with_reducible apply held_svcEdge
    | with_reducible apply held_svcQual
    | with_reducible refine Held.foldl _ (fun _ _ _ => ?_) _ ?_
    | with_reducible refine Held.ite_snd_of (by with_reducible assumption) ?_ ?_
    | with_reducible refine Held.foldl_fst _ (fun _ _ _ => ?_) _ ?_
    | with_reducible refine Held.foldl_fst_of (by with_reducible assumption) (fun _ _ _ => ?_) ?_
    | with_reducible refine Held.foldl_snd _ (fun _ _ _ => ?_) _ ?_
    | with_reducible refine Held.foldl_snd_of (by with_reducible assumption) (fun _ _ _ => ?_) ?_
    | with_reducible refine Held.foldl_thd _ (fun _ _ _ => ?_) _ ?_
    | with_reducible refine Held.foldl_thd_of (by with_reducible assumption) (fun _ _ _ => ?_) ?_
    | dsimp only
    | simp only [reduceIte, Bool.false_eq_true]
    | split
    | fail_if_no_progress ((with_reducible refine Held.put ?_ ?_) <;> first | exact rfl | skip)

theorem exec_portCtrlWrite_kept {s nx : State} {t} {m} {p} {v} (e : exec (.portCtrlWrite t m p v) s = .next nx) : Kept (s.arrive t) nx := by
  change execPortCtrlWrite t m p v s = .next nx at e
  unfold execPortCtrlWrite at e
  refine kept_regWrite e fun x => ?_
  have h : Kept x x := .refl x
  repeat' first
    | with_reducible refine Kept.ite ?_ ?_
    | with_reducible refine Kept.ite_snd ?_ ?_
    | with_reducible assumption
    | with_reducible apply Kept.ofQuiet (kept_portCtrl (Quiet.refl _))

theorem exec_portDisableComplete_quiet {s nx : State} {t} {p} (e : exec (.portDisableComplete t p) s = .next nx) : Quiet (s.arrive t) nx := by
  change execPortDisableComplete t p s = .next nx at e
  unfold execPortDisableComplete at e
  refine quiet_engineEvent e fun x => ?_
  have h : Quiet x x := .refl x
  repeat' first
    | with_reducible refine Quiet.ite ?_ ?_
    | with_reducible refine Quiet.ite_snd ?_ ?_
    | with_reducible assumption
    | with_reducible apply kept_setPort

theorem exec_linkChange_kept {s nx : State} {t} {p} {up} (e : exec (.linkChange t p up) s = .next nx) : Kept (s.arrive t) nx := by
  change execLinkChange t p up s = .next nx at e
  unfold execLinkChange at e
  refine kept_liveEvent e fun x => ?_
  have h : Kept x x := .refl x
  repeat' first
    | with_reducible refine Kept.ite ?_ ?_
    | with_reducible refine Kept.ite_snd ?_ ?_
    | with_reducible assumption
    | with_reducible apply Kept.ofQuiet (kept_setPort (Quiet.refl _))
    | with_reducible apply Kept.ofQuiet (kept_report (Quiet.refl _))
    | with_reducible apply kept_watchEvent

theorem exec_frameReceive_kept {s nx : State} {t} {p} {bytes} {good} (e : exec (.frameReceive t p bytes good) s = .next nx) : Kept (s.arrive t) nx := by
  change execFrameReceive t p bytes good s = .next nx at e
  unfold execFrameReceive at e
  refine kept_liveEvent e fun x => ?_
  have h : Kept x x := .refl x
  repeat' first
    | with_reducible refine Kept.ite ?_ ?_
    | with_reducible refine Kept.ite_snd ?_ ?_
    | with_reducible assumption
    | with_reducible apply kept_restFrame
    | with_reducible apply Kept.ofQuiet (kept_frameReceive (Quiet.refl _))

theorem exec_rsCtrlWrite_kept {s nx : State} {t} {m} {r} {v} (e : exec (.rsCtrlWrite t m r v) s = .next nx) : Kept (s.arrive t) nx := by
  change execRsCtrlWrite t m r v s = .next nx at e
  unfold execRsCtrlWrite at e
  refine kept_regWrite e fun x => ?_
  have h : Kept x x := .refl x
  repeat' first
    | with_reducible refine Kept.ite ?_ ?_
    | with_reducible refine Kept.ite_snd ?_ ?_
    | with_reducible assumption
    | with_reducible apply Kept.ofQuiet (kept_rsCtrl (Quiet.refl _))

theorem exec_streamDisableComplete_quiet {s nx : State} {t} {r} (e : exec (.streamDisableComplete t r) s = .next nx) : Quiet (s.arrive t) nx := by
  change execStreamDisableComplete t r s = .next nx at e
  unfold execStreamDisableComplete at e
  refine quiet_engineEvent e fun x => ?_
  have h : Quiet x x := .refl x
  repeat' first
    | with_reducible refine Quiet.ite ?_ ?_
    | with_reducible refine Quiet.ite_snd ?_ ?_
    | with_reducible assumption
    | with_reducible apply kept_setStream

theorem exec_placementGap_quiet {s nx : State} {t} {c} (e : exec (.placementGap t c) s = .next nx) : Quiet (s.arrive t) nx := by
  change execPlacementGap t c s = .next nx at e
  unfold execPlacementGap at e
  refine quiet_engineEvent e fun x => ?_
  have h : Quiet x x := .refl x
  repeat' first
    | with_reducible refine Quiet.ite ?_ ?_
    | with_reducible refine Quiet.ite_snd ?_ ?_
    | with_reducible assumption
    | with_reducible apply kept_placeDone
    | with_reducible refine Quiet.foldl _ (fun _ _ _ => ?_) _ ?_
    | with_reducible refine Quiet.ite_snd_of (by with_reducible assumption) ?_ ?_
    | with_reducible refine Quiet.foldl_fst _ (fun _ _ _ => ?_) _ ?_
    | with_reducible refine Quiet.foldl_fst_of (by with_reducible assumption) (fun _ _ _ => ?_) ?_
    | with_reducible refine Quiet.foldl_snd _ (fun _ _ _ => ?_) _ ?_
    | with_reducible refine Quiet.foldl_snd_of (by with_reducible assumption) (fun _ _ _ => ?_) ?_
    | with_reducible refine Quiet.foldl_thd _ (fun _ _ _ => ?_) _ ?_
    | with_reducible refine Quiet.foldl_thd_of (by with_reducible assumption) (fun _ _ _ => ?_) ?_
    | dsimp only
    | simp only [reduceIte, Bool.false_eq_true]
    | split

theorem exec_txqCtrlWrite_kept {s nx : State} {t} {m} {x} {v} (e : exec (.txqCtrlWrite t m x v) s = .next nx) : Kept (s.arrive t) nx := by
  change execTxqCtrlWrite t m x v s = .next nx at e
  unfold execTxqCtrlWrite at e
  refine kept_regWrite e fun x => ?_
  have h : Kept x x := .refl x
  repeat' first
    | with_reducible refine Kept.ite ?_ ?_
    | with_reducible refine Kept.ite_snd ?_ ?_
    | with_reducible assumption
    | with_reducible apply Kept.ofQuiet (kept_txqCtrl (Quiet.refl _))

theorem exec_frameTransmit_quiet {s nx : State} {t} {p} (e : exec (.frameTransmit t p) s = .next nx) : Quiet (s.arrive t) nx := by
  change execFrameTransmit t p s = .next nx at e
  unfold execFrameTransmit at e
  refine quiet_engineEvent e fun x => ?_
  have h : Quiet x x := .refl x
  repeat' first
    | with_reducible refine Quiet.ite ?_ ?_
    | with_reducible refine Quiet.ite_snd ?_ ?_
    | with_reducible assumption
    | with_reducible apply kept_frameTransmit

theorem exec_ptpMessageRx_kept {s nx : State} {t} {p} {msg} (e : exec (.ptpMessageRx t p msg) s = .next nx) : Kept (s.arrive t) nx := by
  change execPtpMessageRx t p msg s = .next nx at e
  unfold execPtpMessageRx at e
  refine kept_engineEvent e fun x => ?_
  have h : Kept x x := .refl x
  repeat' first
    | with_reducible refine Kept.ite ?_ ?_
    | with_reducible refine Kept.ite_snd ?_ ?_
    | with_reducible assumption
    | with_reducible apply kept_ptpRx

theorem exec_holdover_quiet {s nx : State} {t} (e : exec (.holdover t) s = .next nx) : Quiet (s.arrive t) nx := by
  change execHoldover t s = .next nx at e
  unfold execHoldover at e
  refine quiet_engineEvent e fun x => ?_
  have h : Quiet x x := .refl x
  repeat' first
    | with_reducible refine Quiet.ite ?_ ?_
    | with_reducible refine Quiet.ite_snd ?_ ?_
    | with_reducible assumption
    | with_reducible apply kept_report
    | with_reducible apply kept_modPtp

theorem exec_ptpNowRead_kept {s nx : State} {t} {m} (e : exec (.ptpNowRead t m) s = .next nx) : Kept (s.arrive t) nx := by
  change execPtpNowRead t m s = .next nx at e
  unfold execPtpNowRead at e
  refine kept_regRead e fun x => ?_
  have h : Kept x x := .refl x
  repeat' first
    | with_reducible refine Kept.ite ?_ ?_
    | with_reducible refine Kept.ite_snd ?_ ?_
    | with_reducible assumption
    | with_reducible apply kept_readPtpNow

theorem exec_cycleStart_quiet {s nx : State} {t} (e : exec (.cycleStart t) s = .next nx) : Quiet (s.arrive t) nx := by
  change execCycleStart t s = .next nx at e
  unfold execCycleStart at e
  refine quiet_engineEvent e fun x => ?_
  have h : Quiet x x := .refl x
  repeat' first
    | with_reducible refine Quiet.ite ?_ ?_
    | with_reducible refine Quiet.ite_snd ?_ ?_
    | with_reducible assumption
    | with_reducible apply kept_cycleStart

theorem exec_snapshot_kept {s nx : State} {t} (e : exec (.snapshot t) s = .next nx) : Kept (s.arrive t) nx := by
  change execSnapshot t s = .next nx at e
  unfold execSnapshot at e
  refine kept_engineEvent e fun x => ?_
  have h : Kept x x := .refl x
  repeat' first
    | with_reducible refine Kept.ite ?_ ?_
    | with_reducible refine Kept.ite_snd ?_ ?_
    | with_reducible assumption
    | with_reducible apply kept_snapshot

theorem exec_cyclic_quiet {s nx : State} {t} (e : exec (.cyclic t) s = .next nx) : Quiet (s.arrive t) nx := by
  change execCyclic t s = .next nx at e
  unfold execCyclic at e
  refine quiet_engineEvent e fun x => ?_
  have h : Quiet x x := .refl x
  repeat' first
    | with_reducible refine Quiet.ite ?_ ?_
    | with_reducible refine Quiet.ite_snd ?_ ?_
    | with_reducible assumption
    | with_reducible apply kept_cyclic

theorem exec_yazenFrameRx_held {s nx : State} {t} (e : exec (.yazenFrameRx t) s = .next nx) : Held (s.arrive t) nx := by
  change execYazenFrameRx t s = .next nx at e
  unfold execYazenFrameRx at e
  refine held_engineEvent e fun x => ?_
  have h : Held x x := .refl x
  repeat' first
    | with_reducible refine Held.ite ?_ ?_
    | with_reducible refine Held.ite_snd ?_ ?_
    | with_reducible assumption
    | with_reducible apply held_yazenRx

theorem exec_forwardDrop_quiet {s nx : State} {t} {ringB} (e : exec (.forwardDrop t ringB) s = .next nx) : Quiet (s.arrive t) nx := by
  change execForwardDrop t ringB s = .next nx at e
  unfold execForwardDrop at e
  refine quiet_engineEvent e fun x => ?_
  have h : Quiet x x := .refl x
  repeat' first
    | with_reducible refine Quiet.ite ?_ ?_
    | with_reducible refine Quiet.ite_snd ?_ ?_
    | with_reducible assumption
    | with_reducible apply kept_forwardDrop

theorem exec_ownFrameDrop_quiet {s nx : State} {t} {p} (e : exec (.ownFrameDrop t p) s = .next nx) : Quiet (s.arrive t) nx := by
  change execOwnFrameDrop t p s = .next nx at e
  unfold execOwnFrameDrop at e
  refine quiet_engineEvent e fun x => ?_
  have h : Quiet x x := .refl x
  repeat' first
    | with_reducible refine Quiet.ite ?_ ?_
    | with_reducible refine Quiet.ite_snd ?_ ?_
    | with_reducible assumption
    | with_reducible apply kept_ownFrameDrop
    | with_reducible refine Quiet.foldl _ (fun _ _ _ => ?_) _ ?_
    | with_reducible refine Quiet.ite_snd_of (by with_reducible assumption) ?_ ?_
    | with_reducible refine Quiet.foldl_fst _ (fun _ _ _ => ?_) _ ?_
    | with_reducible refine Quiet.foldl_fst_of (by with_reducible assumption) (fun _ _ _ => ?_) ?_
    | with_reducible refine Quiet.foldl_snd _ (fun _ _ _ => ?_) _ ?_
    | with_reducible refine Quiet.foldl_snd_of (by with_reducible assumption) (fun _ _ _ => ?_) ?_
    | with_reducible refine Quiet.foldl_thd _ (fun _ _ _ => ?_) _ ?_
    | with_reducible refine Quiet.foldl_thd_of (by with_reducible assumption) (fun _ _ _ => ?_) ?_
    | dsimp only
    | simp only [reduceIte, Bool.false_eq_true]
    | split
    | fail_if_no_progress ((with_reducible refine Quiet.put ?_ ?_) <;> first | exact rfl | skip)

theorem exec_lineStop_kept {s nx : State} {t} {m} {v} (e : exec (.lineStop t m v) s = .next nx) : Kept (s.arrive t) nx := by
  change execLineStop t m v s = .next nx at e
  unfold execLineStop at e
  refine kept_regWrite e fun x => ?_
  have h : Kept x x := .refl x
  repeat' first
    | with_reducible refine Kept.ite ?_ ?_
    | with_reducible refine Kept.ite_snd ?_ ?_
    | with_reducible assumption
    | with_reducible apply Kept.ofQuiet (kept_stopWrite (Quiet.refl _))

theorem exec_lineStopRepeat_quiet {s nx : State} {t} (e : exec (.lineStopRepeat t) s = .next nx) : Quiet (s.arrive t) nx := by
  change execLineStopRepeat t s = .next nx at e
  unfold execLineStopRepeat at e
  refine quiet_engineEvent e fun x => ?_
  have h : Quiet x x := .refl x
  repeat' first
    | with_reducible refine Quiet.ite ?_ ?_
    | with_reducible refine Quiet.ite_snd ?_ ?_
    | with_reducible assumption
    | with_reducible apply kept_stopRepeat

theorem exec_msixIssue_quiet {s nx : State} {t} (e : exec (.msixIssue t) s = .next nx) : Quiet (s.arrive t) nx := by
  change execMsixIssue t s = .next nx at e
  unfold execMsixIssue at e
  refine quiet_engineEvent e fun x => ?_
  have h : Quiet x x := .refl x
  repeat' first
    | with_reducible refine Quiet.ite ?_ ?_
    | with_reducible refine Quiet.ite_snd ?_ ?_
    | with_reducible assumption
    | with_reducible apply kept_msixIssue

theorem exec_cicDeliver_quiet {s nx : State} {t} {ix} (e : exec (.cicDeliver t ix) s = .next nx) : Quiet (s.arrive t) nx := by
  change execCicDeliver t ix s = .next nx at e
  unfold execCicDeliver at e
  refine quiet_engineEvent e fun x => ?_
  have h : Quiet x x := .refl x
  repeat' first
    | with_reducible refine Quiet.ite ?_ ?_
    | with_reducible refine Quiet.ite_snd ?_ ?_
    | with_reducible assumption
    | with_reducible apply kept_cicDeliver

theorem exec_cicPendWrite_kept {s nx : State} {t} {m} {w} {v} (e : exec (.cicPendWrite t m w v) s = .next nx) : Kept (s.arrive t) nx := by
  change execCicPendWrite t m w v s = .next nx at e
  unfold execCicPendWrite at e
  refine kept_regWrite e fun x => ?_
  have h : Kept x x := .refl x
  repeat' first
    | with_reducible refine Kept.ite ?_ ?_
    | with_reducible refine Kept.ite_snd ?_ ?_
    | with_reducible assumption
    | with_reducible apply Kept.ofQuiet (kept_cicSet (Quiet.refl _))

theorem exec_cicPclrWrite_kept {s nx : State} {t} {m} {w} {v} (e : exec (.cicPclrWrite t m w v) s = .next nx) : Kept (s.arrive t) nx := by
  change execCicPclrWrite t m w v s = .next nx at e
  unfold execCicPclrWrite at e
  refine kept_regWrite e fun x => ?_
  have h : Kept x x := .refl x
  repeat' first
    | with_reducible refine Kept.ite ?_ ?_
    | with_reducible refine Kept.ite_snd ?_ ?_
    | with_reducible assumption
    | with_reducible apply Kept.ofQuiet (kept_cicClear (Quiet.refl _))

theorem exec_cicClaim_kept {s nx : State} {t} {m} {k} (e : exec (.cicClaim t m k) s = .next nx) : Kept (s.arrive t) nx := by
  change execCicClaim t m k s = .next nx at e
  unfold execCicClaim at e
  refine kept_regRead e fun x => ?_
  have h : Kept x x := .refl x
  repeat' first
    | with_reducible refine Kept.ite ?_ ?_
    | with_reducible refine Kept.ite_snd ?_ ?_
    | with_reducible assumption
    | with_reducible apply Kept.ofQuiet (kept_cicClaim (Quiet.refl _))

theorem exec_cicComplete_kept {s nx : State} {t} {m} {k} {v} (e : exec (.cicComplete t m k v) s = .next nx) : Kept (s.arrive t) nx := by
  change execCicComplete t m k v s = .next nx at e
  unfold execCicComplete at e
  refine kept_regWrite e fun x => ?_
  have h : Kept x x := .refl x
  repeat' first
    | with_reducible refine Kept.ite ?_ ?_
    | with_reducible refine Kept.ite_snd ?_ ?_
    | with_reducible assumption
    | with_reducible apply Kept.ofQuiet (kept_cicComplete (Quiet.refl _))

theorem exec_undRest_kept {s nx : State} {t} {m} {v} (e : exec (.undRest t m v) s = .next nx) : Kept (s.arrive t) nx := by
  change execUndRest t m v s = .next nx at e
  unfold execUndRest at e
  refine kept_regWrite e fun x => ?_
  have h : Kept x x := .refl x
  repeat' first
    | with_reducible refine Kept.ite ?_ ?_
    | with_reducible refine Kept.ite_snd ?_ ?_
    | with_reducible assumption
    | with_reducible apply kept_undRest

theorem exec_restEntry_kept {s nx : State} {t} (e : exec (.restEntry t) s = .next nx) : Kept (s.arrive t) nx := by
  change execRestEntry t s = .next nx at e
  unfold execRestEntry at e
  refine kept_engineEvent e fun x => ?_
  have h : Kept x x := .refl x
  repeat' first
    | with_reducible refine Kept.ite ?_ ?_
    | with_reducible refine Kept.ite_snd ?_ ?_
    | with_reducible assumption
    | with_reducible apply kept_restEntry

theorem exec_restEntryTimeout_kept {s nx : State} {t} (e : exec (.restEntryTimeout t) s = .next nx) : Kept (s.arrive t) nx := by
  change execRestEntryTimeout t s = .next nx at e
  unfold execRestEntryTimeout at e
  refine kept_engineEvent e fun x => ?_
  have h : Kept x x := .refl x
  repeat' first
    | with_reducible refine Kept.ite ?_ ?_
    | with_reducible refine Kept.ite_snd ?_ ?_
    | with_reducible assumption
    | with_reducible apply kept_restTimeout

theorem exec_wakeEvent_kept {s nx : State} {t} {code} (e : exec (.wakeEvent t code) s = .next nx) : Kept (s.arrive t) nx := by
  change execWakeEvent t code s = .next nx at e
  unfold execWakeEvent at e
  refine kept_liveEvent e fun x => ?_
  have h : Kept x x := .refl x
  repeat' first
    | with_reducible refine Kept.ite ?_ ?_
    | with_reducible refine Kept.ite_snd ?_ ?_
    | with_reducible assumption
    | with_reducible apply kept_wake
    | with_reducible apply kept_watchEvent
    | with_reducible refine Kept.foldl _ (fun _ _ _ => ?_) _ ?_
    | with_reducible refine Kept.ite_snd_of (by with_reducible assumption) ?_ ?_
    | with_reducible refine Kept.foldl_fst _ (fun _ _ _ => ?_) _ ?_
    | with_reducible refine Kept.foldl_fst_of (by with_reducible assumption) (fun _ _ _ => ?_) ?_
    | with_reducible refine Kept.foldl_snd _ (fun _ _ _ => ?_) _ ?_
    | with_reducible refine Kept.foldl_snd_of (by with_reducible assumption) (fun _ _ _ => ?_) ?_
    | with_reducible refine Kept.foldl_thd _ (fun _ _ _ => ?_) _ ?_
    | with_reducible refine Kept.foldl_thd_of (by with_reducible assumption) (fun _ _ _ => ?_) ?_
    | dsimp only
    | simp only [reduceIte, Bool.false_eq_true]
    | split

theorem exec_undTimerExpiry_kept {s nx : State} {t} (e : exec (.undTimerExpiry t) s = .next nx) : Kept (s.arrive t) nx := by
  change execUndTimerExpiry t s = .next nx at e
  unfold execUndTimerExpiry at e
  refine kept_liveEvent e fun x => ?_
  have h : Kept x x := .refl x
  repeat' first
    | with_reducible refine Kept.ite ?_ ?_
    | with_reducible refine Kept.ite_snd ?_ ?_
    | with_reducible assumption
    | with_reducible apply kept_watchEvent

theorem exec_wakeComplete_kept {s nx : State} {t} (e : exec (.wakeComplete t) s = .next nx) : Kept (s.arrive t) nx := by
  change execWakeComplete t s = .next nx at e
  unfold execWakeComplete at e
  refine kept_liveEvent e fun x => ?_
  have h : Kept x x := .refl x
  repeat' first
    | with_reducible refine Kept.ite ?_ ?_
    | with_reducible refine Kept.ite_snd ?_ ?_
    | with_reducible assumption
    | with_reducible apply kept_wakeComplete

theorem exec_undWtRead_kept {s nx : State} {t} {m} (e : exec (.undWtRead t m) s = .next nx) : Kept (s.arrive t) nx := by
  change execUndWtRead t m s = .next nx at e
  unfold execUndWtRead at e
  refine kept_regRead e fun x => ?_
  have h : Kept x x := .refl x
  repeat' first
    | with_reducible refine Kept.ite ?_ ?_
    | with_reducible refine Kept.ite_snd ?_ ?_
    | with_reducible assumption
    | with_reducible apply kept_readWake

theorem exec_mbSend_kept {s nx : State} {t} {m} {b} {v} (e : exec (.mbSend t m b v) s = .next nx) : Kept (s.arrive t) nx := by
  change execMbSend t m b v s = .next nx at e
  unfold execMbSend at e
  refine kept_regWrite e fun x => ?_
  have h : Kept x x := .refl x
  repeat' first
    | with_reducible refine Kept.ite ?_ ?_
    | with_reducible refine Kept.ite_snd ?_ ?_
    | with_reducible assumption
    | with_reducible apply kept_mbSendWrite

theorem exec_mbAck_kept {s nx : State} {t} {m} {b} {v} (e : exec (.mbAck t m b v) s = .next nx) : Kept (s.arrive t) nx := by
  change execMbAck t m b v s = .next nx at e
  unfold execMbAck at e
  refine kept_regWrite e fun x => ?_
  have h : Kept x x := .refl x
  repeat' first
    | with_reducible refine Kept.ite ?_ ?_
    | with_reducible refine Kept.ite_snd ?_ ?_
    | with_reducible assumption
    | with_reducible apply kept_mbAckWrite

theorem exec_mbTimeout_kept {s nx : State} {t} {b} {sideA} (e : exec (.mbTimeout t b sideA) s = .next nx) : Kept (s.arrive t) nx := by
  change execMbTimeout t b sideA s = .next nx at e
  unfold execMbTimeout at e
  refine kept_engineEvent e fun x => ?_
  have h : Kept x x := .refl x
  repeat' first
    | with_reducible refine Kept.ite ?_ ?_
    | with_reducible refine Kept.ite_snd ?_ ?_
    | with_reducible assumption
    | with_reducible apply kept_mbTimeout

theorem exec_mbBindWrite_kept {s nx : State} {t} {m} {b} {v} (e : exec (.mbBindWrite t m b v) s = .next nx) : Kept (s.arrive t) nx := by
  change execMbBindWrite t m b v s = .next nx at e
  unfold execMbBindWrite at e
  refine kept_regWrite e fun x => ?_
  have h : Kept x x := .refl x
  repeat' first
    | with_reducible refine Kept.ite ?_ ?_
    | with_reducible refine Kept.ite_snd ?_ ?_
    | with_reducible assumption
    | with_reducible apply kept_mbBind

theorem exec_mbLock_kept {s nx : State} {t} {m} {v} (e : exec (.mbLock t m v) s = .next nx) : Kept (s.arrive t) nx := by
  change execMbLock t m v s = .next nx at e
  unfold execMbLock at e
  refine kept_regWrite e fun x => ?_
  have h : Kept x x := .refl x
  repeat' first
    | with_reducible refine Kept.ite ?_ ?_
    | with_reducible refine Kept.ite_snd ?_ ?_
    | with_reducible assumption
    | with_reducible apply kept_mbLock

theorem exec_usbBusReset_held {s nx : State} {t} (e : exec (.usbBusReset t) s = .next nx) : Held (s.arrive t) nx := by
  change execUsbBusReset t s = .next nx at e
  unfold execUsbBusReset at e
  refine held_liveEvent e fun x => ?_
  have h : Held x x := .refl x
  repeat' first
    | with_reducible refine Held.ite ?_ ?_
    | with_reducible refine Held.ite_snd ?_ ?_
    | with_reducible assumption
    | with_reducible apply held_usbReset

theorem exec_cleanDataLines_kept {s nx : State} {t} {m} {k} {v} (e : exec (.cleanDataLines t m k v) s = .next nx) : Kept (s.arrive t) nx := by
  change execCleanDataLines t m k v s = .next nx at e
  unfold execCleanDataLines at e
  exact kept_regWrite e fun _ => Kept.ofQuiet (kept_cmo (.refl _)) (.refl _)

theorem exec_invalidateDataLines_kept {s nx : State} {t} {m} {k} {v} (e : exec (.invalidateDataLines t m k v) s = .next nx) : Kept (s.arrive t) nx := by
  change execInvalidateDataLines t m k v s = .next nx at e
  unfold execInvalidateDataLines at e
  exact kept_regWrite e fun _ => Kept.ofQuiet (kept_cmo (.refl _)) (.refl _)

theorem exec_cleanInvalidateDataLines_kept {s nx : State} {t} {m} {k} {v} (e : exec (.cleanInvalidateDataLines t m k v) s = .next nx) : Kept (s.arrive t) nx := by
  change execCleanInvalidateDataLines t m k v s = .next nx at e
  unfold execCleanInvalidateDataLines at e
  exact kept_regWrite e fun _ => Kept.ofQuiet (kept_cmo (.refl _)) (.refl _)

theorem exec_invalidateInstructionLines_kept {s nx : State} {t} {m} {k} {v} (e : exec (.invalidateInstructionLines t m k v) s = .next nx) : Kept (s.arrive t) nx := by
  change execInvalidateInstructionLines t m k v s = .next nx at e
  unfold execInvalidateInstructionLines at e
  exact kept_regWrite e fun _ => Kept.ofQuiet (kept_cmo (.refl _)) (.refl _)

theorem exec_cleanWholeDataCache_kept {s nx : State} {t} {m} {k} {v} (e : exec (.cleanWholeDataCache t m k v) s = .next nx) : Kept (s.arrive t) nx := by
  change execCleanWholeDataCache t m k v s = .next nx at e
  unfold execCleanWholeDataCache at e
  exact kept_regWrite e fun _ => Kept.ofQuiet (kept_cmo (.refl _)) (.refl _)

theorem exec_cleanInvalidateWholeDataCache_kept {s nx : State} {t} {m} {k} {v} (e : exec (.cleanInvalidateWholeDataCache t m k v) s = .next nx) : Kept (s.arrive t) nx := by
  change execCleanInvalidateWholeDataCache t m k v s = .next nx at e
  unfold execCleanInvalidateWholeDataCache at e
  exact kept_regWrite e fun _ => Kept.ofQuiet (kept_cmo (.refl _)) (.refl _)

theorem exec_coreAmo_quiet {s nx : State} {t} {k} {addr} {op} {v} (e : exec (.coreAmo t k addr op v) s = .next nx) : Quiet (s.arrive t) nx := by
  change execCoreAmo t k addr op v s = .next nx at e
  unfold execCoreAmo at e
  refine quiet_engineEvent e fun x => ?_
  have h : Quiet x x := .refl x
  repeat' first
    | with_reducible refine Quiet.ite ?_ ?_
    | with_reducible refine Quiet.ite_snd ?_ ?_
    | with_reducible assumption
    | with_reducible apply kept_coreAmo

theorem exec_coreLr_quiet {s nx : State} {t} {k} {addr} (e : exec (.coreLr t k addr) s = .next nx) : Quiet (s.arrive t) nx := by
  change execCoreLr t k addr s = .next nx at e
  unfold execCoreLr at e
  refine quiet_engineEvent e fun x => ?_
  have h : Quiet x x := .refl x
  repeat' first
    | with_reducible refine Quiet.ite ?_ ?_
    | with_reducible refine Quiet.ite_snd ?_ ?_
    | with_reducible assumption
    | with_reducible apply kept_coreLr

theorem exec_coreSc_quiet {s nx : State} {t} {k} {addr} {v} (e : exec (.coreSc t k addr v) s = .next nx) : Quiet (s.arrive t) nx := by
  change execCoreSc t k addr v s = .next nx at e
  unfold execCoreSc at e
  refine quiet_engineEvent e fun x => ?_
  have h : Quiet x x := .refl x
  repeat' first
    | with_reducible refine Quiet.ite ?_ ?_
    | with_reducible refine Quiet.ite_snd ?_ ?_
    | with_reducible assumption
    | with_reducible apply kept_coreSc

theorem exec_coreReset_kept {s nx : State} {t} {m} {k} {v} (e : exec (.coreReset t m k v) s = .next nx) : Kept (s.arrive t) nx := by
  change execCoreReset t m k v s = .next nx at e
  unfold execCoreReset at e
  refine kept_regWrite e fun x => ?_
  have h : Kept x x := .refl x
  repeat' first
    | with_reducible refine Kept.ite ?_ ?_
    | with_reducible refine Kept.ite_snd ?_ ?_
    | with_reducible assumption
    | with_reducible apply Kept.ofQuiet (kept_coreCtrl (Quiet.refl _))

theorem exec_coreInReset_kept {s nx : State} {t} {k} (e : exec (.coreInReset t k) s = .next nx) : Kept (s.arrive t) nx := by
  change execCoreInReset t k s = .next nx at e
  unfold execCoreInReset at e
  refine kept_engineEvent e fun x => ?_
  have h : Kept x x := .refl x
  repeat' first
    | with_reducible refine Kept.ite ?_ ?_
    | with_reducible refine Kept.ite_snd ?_ ?_
    | with_reducible assumption
    | with_reducible apply kept_coreInReset

theorem exec_coreRelease_kept {s nx : State} {t} {m} {k} {v} (e : exec (.coreRelease t m k v) s = .next nx) : Kept (s.arrive t) nx := by
  change execCoreRelease t m k v s = .next nx at e
  unfold execCoreRelease at e
  refine kept_regWrite e fun x => ?_
  have h : Kept x x := .refl x
  repeat' first
    | with_reducible refine Kept.ite ?_ ?_
    | with_reducible refine Kept.ite_snd ?_ ?_
    | with_reducible assumption
    | with_reducible apply Kept.ofQuiet (kept_coreCtrl (Quiet.refl _))

theorem exec_wdCtrlWrite_kept {s nx : State} {t} {m} {k} {v} (e : exec (.wdCtrlWrite t m k v) s = .next nx) : Kept (s.arrive t) nx := by
  change execWdCtrlWrite t m k v s = .next nx at e
  unfold execWdCtrlWrite at e
  refine kept_regWrite e fun x => ?_
  have h : Kept x x := .refl x
  repeat' first
    | with_reducible refine Kept.ite ?_ ?_
    | with_reducible refine Kept.ite_snd ?_ ?_
    | with_reducible assumption
    | with_reducible apply Kept.ofQuiet (kept_wdCtrl (Quiet.refl _))

theorem exec_wdKick_kept {s nx : State} {t} {m} {k} {v} (e : exec (.wdKick t m k v) s = .next nx) : Kept (s.arrive t) nx := by
  change execWdKick t m k v s = .next nx at e
  unfold execWdKick at e
  refine kept_regWrite e fun x => ?_
  have h : Kept x x := .refl x
  repeat' first
    | with_reducible refine Kept.ite ?_ ?_
    | with_reducible refine Kept.ite_snd ?_ ?_
    | with_reducible assumption
    | with_reducible apply Kept.ofQuiet (kept_wdKick (Quiet.refl _))

theorem exec_watchdogExpiry_kept {s nx : State} {t} {k} (e : exec (.watchdogExpiry t k) s = .next nx) : Kept (s.arrive t) nx := by
  change execWatchdogExpiry t k s = .next nx at e
  unfold execWatchdogExpiry at e
  refine kept_engineEvent e fun x => ?_
  have h : Kept x x := .refl x
  repeat' first
    | with_reducible refine Kept.ite ?_ ?_
    | with_reducible refine Kept.ite_snd ?_ ?_
    | with_reducible assumption
    | with_reducible apply kept_wdExpire

theorem exec_mtip_quiet {s nx : State} {t} {k} (e : exec (.mtip t k) s = .next nx) : Quiet (s.arrive t) nx := by
  change execMtip t k s = .next nx at e
  unfold execMtip at e
  refine quiet_engineEvent e fun x => ?_
  have h : Quiet x x := .refl x
  repeat' first
    | with_reducible refine Quiet.ite ?_ ?_
    | with_reducible refine Quiet.ite_snd ?_ ?_
    | with_reducible assumption
    | with_reducible apply kept_setMtip

theorem exec_mtimeRead_kept {s nx : State} {t} {m} (e : exec (.mtimeRead t m) s = .next nx) : Kept (s.arrive t) nx := by
  change execMtimeRead t m s = .next nx at e
  unfold execMtimeRead at e
  refine kept_regRead e fun x => ?_
  have h : Kept x x := .refl x
  repeat' first
    | with_reducible refine Kept.ite ?_ ?_
    | with_reducible refine Kept.ite_snd ?_ ?_
    | with_reducible assumption
    | with_reducible apply kept_readMtime

theorem exec_scrubBeat_quiet {s nx : State} {t} (e : exec (.scrubBeat t) s = .next nx) : Quiet (s.arrive t) nx := by
  change execScrubBeat t s = .next nx at e
  unfold execScrubBeat at e
  refine quiet_engineEvent e fun x => ?_
  have h : Quiet x x := .refl x
  repeat' first
    | with_reducible refine Quiet.ite ?_ ?_
    | with_reducible refine Quiet.ite_snd ?_ ?_
    | with_reducible assumption
    | with_reducible apply kept_scrub

theorem exec_arbTwaitClr_kept {s nx : State} {t} {m} {v} (e : exec (.arbTwaitClr t m v) s = .next nx) : Kept (s.arrive t) nx := by
  change execArbTwaitClr t m v s = .next nx at e
  unfold execArbTwaitClr at e
  refine kept_regWrite e fun x => ?_
  have h : Kept x x := .refl x
  repeat' first
    | with_reducible refine Kept.ite ?_ ?_
    | with_reducible refine Kept.ite_snd ?_ ?_
    | with_reducible assumption
    | with_reducible apply Kept.ofQuiet (kept_arbCtrl (Quiet.refl _))

theorem exec_schedPeakClr_kept {s nx : State} {t} {m} {v} (e : exec (.schedPeakClr t m v) s = .next nx) : Kept (s.arrive t) nx := by
  change execSchedPeakClr t m v s = .next nx at e
  unfold execSchedPeakClr at e
  refine kept_regWrite e fun x => ?_
  have h : Kept x x := .refl x
  repeat' first
    | with_reducible refine Kept.ite ?_ ?_
    | with_reducible refine Kept.ite_snd ?_ ?_
    | with_reducible assumption
    | with_reducible apply Kept.ofQuiet (kept_schedCtrl (Quiet.refl _))

theorem exec_faultEvent_held {s nx : State} {t} {wires} (e : exec (.faultEvent t wires) s = .next nx) : Held (s.arrive t) nx := by
  change execFaultEvent t wires s = .next nx at e
  unfold execFaultEvent at e
  refine held_engineEvent e fun x => ?_
  have h : Held x x := .refl x
  repeat' first
    | with_reducible refine Held.ite ?_ ?_
    | with_reducible refine Held.ite_snd ?_ ?_
    | with_reducible assumption
    | with_reducible apply held_fcSample

theorem exec_parityError_held {s nx : State} {t} (e : exec (.parityError t) s = .next nx) : Held (s.arrive t) nx := by
  change execParityError t s = .next nx at e
  unfold execParityError at e
  refine held_engineEvent e fun x => ?_
  have h : Held x x := .refl x
  repeat' first
    | with_reducible refine Held.ite ?_ ?_
    | with_reducible refine Held.ite_snd ?_ ?_
    | with_reducible assumption
    | with_reducible apply held_fcEvents
    | with_reducible apply Held.ofQuiet (kept_modFc (Quiet.refl _))

theorem exec_safeEnter_held {s nx : State} {t} {m} {v} (e : exec (.safeEnter t m v) s = .next nx) : Held (s.arrive t) nx := by
  change execSafeEnter t m v s = .next nx at e
  unfold execSafeEnter at e
  refine held_regWrite e fun x => ?_
  have h : Held x x := .refl x
  repeat' first
    | with_reducible refine Held.ite ?_ ?_
    | with_reducible refine Held.ite_snd ?_ ?_
    | with_reducible assumption
    | with_reducible apply held_fcSafe

theorem exec_safeExit_held {s nx : State} {t} {m} {v} (e : exec (.safeExit t m v) s = .next nx) : Held (s.arrive t) nx := by
  change execSafeExit t m v s = .next nx at e
  unfold execSafeExit at e
  refine held_regWrite e fun x => ?_
  have h : Held x x := .refl x
  repeat' first
    | with_reducible refine Held.ite ?_ ?_
    | with_reducible refine Held.ite_snd ?_ ?_
    | with_reducible assumption
    | with_reducible apply held_fcSafe

theorem exec_fcTkeyWrite_kept {s nx : State} {t} {m} {v} (e : exec (.fcTkeyWrite t m v) s = .next nx) : Kept (s.arrive t) nx := by
  change execFcTkeyWrite t m v s = .next nx at e
  unfold execFcTkeyWrite at e
  refine kept_regWrite e fun x => ?_
  have h : Kept x x := .refl x
  repeat' first
    | with_reducible refine Kept.ite ?_ ?_
    | with_reducible refine Kept.ite_snd ?_ ?_
    | with_reducible assumption
    | with_reducible apply Kept.ofQuiet (kept_fcTkey (Quiet.refl _))

theorem exec_fcLock_kept {s nx : State} {t} {m} {v} (e : exec (.fcLock t m v) s = .next nx) : Kept (s.arrive t) nx := by
  change execFcLock t m v s = .next nx at e
  unfold execFcLock at e
  refine kept_regWrite e fun x => ?_
  have h : Kept x x := .refl x
  repeat' first
    | with_reducible refine Kept.ite ?_ ?_
    | with_reducible refine Kept.ite_snd ?_ ?_
    | with_reducible assumption
    | with_reducible apply Kept.ofQuiet (kept_fcLock (Quiet.refl _))

theorem exec_fcFirstClr_kept {s nx : State} {t} {m} {v} (e : exec (.fcFirstClr t m v) s = .next nx) : Kept (s.arrive t) nx := by
  change execFcFirstClr t m v s = .next nx at e
  unfold execFcFirstClr at e
  refine kept_regWrite e fun x => ?_
  have h : Kept x x := .refl x
  repeat' first
    | with_reducible refine Kept.ite ?_ ?_
    | with_reducible refine Kept.ite_snd ?_ ?_
    | with_reducible assumption
    | with_reducible apply Kept.ofQuiet (kept_fcFirstClr (Quiet.refl _))

theorem exec_fcFirstRead_kept {s nx : State} {t} {m} (e : exec (.fcFirstRead t m) s = .next nx) : Kept (s.arrive t) nx := by
  change execFcFirstRead t m s = .next nx at e
  unfold execFcFirstRead at e
  refine kept_regRead e fun x => ?_
  have h : Kept x x := .refl x
  repeat' first
    | with_reducible refine Kept.ite ?_ ?_
    | with_reducible refine Kept.ite_snd ?_ ?_
    | with_reducible assumption
    | with_reducible apply kept_readFirst

theorem exec_fcTrailRead_kept {s nx : State} {t} {m} {r} (e : exec (.fcTrailRead t m r) s = .next nx) : Kept (s.arrive t) nx := by
  change execFcTrailRead t m r s = .next nx at e
  unfold execFcTrailRead at e
  refine kept_regRead e fun x => ?_
  have h : Kept x x := .refl x
  repeat' first
    | with_reducible refine Kept.ite ?_ ?_
    | with_reducible refine Kept.ite_snd ?_ ?_
    | with_reducible assumption
    | with_reducible apply kept_readTrail

theorem exec_fcSafeTRead_kept {s nx : State} {t} {m} (e : exec (.fcSafeTRead t m) s = .next nx) : Kept (s.arrive t) nx := by
  change execFcSafeTRead t m s = .next nx at e
  unfold execFcSafeTRead at e
  refine kept_regRead e fun x => ?_
  have h : Kept x x := .refl x
  repeat' first
    | with_reducible refine Kept.ite ?_ ?_
    | with_reducible refine Kept.ite_snd ?_ ?_
    | with_reducible assumption
    | with_reducible apply kept_readSafeT

theorem exec_supplyExcursion_quiet {s nx : State} {t} {rail} (e : exec (.supplyExcursion t rail) s = .next nx) : Quiet (s.arrive t) nx := by
  change execSupplyExcursion t rail s = .next nx at e
  unfold execSupplyExcursion at e
  refine quiet_liveEvent e fun x => ?_
  have h : Quiet x x := .refl x
  repeat' first
    | with_reducible refine Quiet.ite ?_ ?_
    | with_reducible refine Quiet.ite_snd ?_ ?_
    | with_reducible assumption
    | with_reducible apply kept_excursion
    | with_reducible refine Quiet.foldl _ (fun _ _ _ => ?_) _ ?_
    | with_reducible refine Quiet.ite_snd_of (by with_reducible assumption) ?_ ?_
    | with_reducible refine Quiet.foldl_fst _ (fun _ _ _ => ?_) _ ?_
    | with_reducible refine Quiet.foldl_fst_of (by with_reducible assumption) (fun _ _ _ => ?_) ?_
    | with_reducible refine Quiet.foldl_snd _ (fun _ _ _ => ?_) _ ?_
    | with_reducible refine Quiet.foldl_snd_of (by with_reducible assumption) (fun _ _ _ => ?_) ?_
    | with_reducible refine Quiet.foldl_thd _ (fun _ _ _ => ?_) _ ?_
    | with_reducible refine Quiet.foldl_thd_of (by with_reducible assumption) (fun _ _ _ => ?_) ?_
    | dsimp only
    | simp only [reduceIte, Bool.false_eq_true]
    | split
    | fail_if_no_progress ((with_reducible refine Quiet.put ?_ ?_) <;> first | exact rfl | skip)

theorem exec_temperatureThreshold_quiet {s nx : State} {t} {upper} {above} (e : exec (.temperatureThreshold t upper above) s = .next nx) : Quiet (s.arrive t) nx := by
  change execTemperatureThreshold t upper above s = .next nx at e
  have := next_inj e
  subst this
  exact kept_holdSrc (.refl _)

theorem exec_powerOnReset_held {s nx : State} {t} (e : exec (.powerOnReset t) s = .next nx) : Held (s.arrive t) nx := by
  change execPowerOnReset t s = .next nx at e
  have := next_inj e
  subst this
  exact held_powerDown (.refl _)

theorem exec_powerOnRelease_held {s nx : State} {t} {bank33} (e : exec (.powerOnRelease t bank33) s = .next nx) : Held (s.arrive t) nx := by
  change execPowerOnRelease t bank33 s = .next nx at e
  have := next_inj e
  subst this
  exact Held.ite (held_startUp (Held.put (.refl _) rfl)) (.refl _)

theorem exec_resetN_held {s nx : State} {t} {width} (e : exec (.resetN t width) s = .next nx) : Held (s.arrive t) nx := by
  change execResetN t width s = .next nx at e
  have := next_inj e
  subst this
  exact held_resetPin (.refl _)

theorem exec_perstN_held {s nx : State} {t} {level} (e : exec (.perstN t level) s = .next nx) : Held (s.arrive t) nx := by
  change execPerstN t level s = .next nx at e
  have := next_inj e
  subst this
  exact held_perst (.refl _)

theorem exec_flr_held {s nx : State} {t} (e : exec (.flr t) s = .next nx) : Held (s.arrive t) nx := by
  change execFlr t s = .next nx at e
  unfold execFlr at e
  refine held_liveEvent e fun x => ?_
  have h : Held x x := .refl x
  repeat' first
    | with_reducible refine Held.ite ?_ ?_
    | with_reducible refine Held.ite_snd ?_ ?_
    | with_reducible assumption
    | with_reducible apply held_flr

theorem exec_funcReset_held {s nx : State} {t} {m} {v} (e : exec (.funcReset t m v) s = .next nx) : Held (s.arrive t) nx := by
  change execFuncReset t m v s = .next nx at e
  unfold execFuncReset at e
  refine held_regWrite e fun x => ?_
  have h : Held x x := .refl x
  repeat' first
    | with_reducible refine Held.ite ?_ ?_
    | with_reducible refine Held.ite_snd ?_ ?_
    | with_reducible assumption
    | with_reducible apply held_funcReset

theorem exec_functionResetReady_held {s nx : State} {t} (e : exec (.functionResetReady t) s = .next nx) : Held (s.arrive t) nx := by
  change execFunctionResetReady t s = .next nx at e
  unfold execFunctionResetReady at e
  refine held_liveEvent e fun x => ?_
  have h : Held x x := .refl x
  repeat' first
    | with_reducible refine Held.ite ?_ ?_
    | with_reducible refine Held.ite_snd ?_ ?_
    | with_reducible assumption
    | with_reducible apply held_resetReady

theorem exec_devtimeRead_kept {s nx : State} {t} {m} (e : exec (.devtimeRead t m) s = .next nx) : Kept (s.arrive t) nx := by
  change execDevtimeRead t m s = .next nx at e
  unfold execDevtimeRead at e
  refine kept_regRead e fun x => ?_
  have h : Kept x x := .refl x
  repeat' first
    | with_reducible refine Kept.ite ?_ ?_
    | with_reducible refine Kept.ite_snd ?_ ?_
    | with_reducible assumption
    | with_reducible apply kept_readDevtime

theorem exec_bootImageCheck_held {s nx : State} {t} {source} {image} {slow} (e : exec (.bootImageCheck t source image slow) s = .next nx) : Held (s.arrive t) nx := by
  change execBootImageCheck t source image slow s = .next nx at e
  unfold execBootImageCheck at e
  refine held_liveEvent e fun x => ?_
  have h : Held x x := .refl x
  repeat' first
    | with_reducible refine Held.ite ?_ ?_
    | with_reducible refine Held.ite_snd ?_ ?_
    | with_reducible assumption
    | with_reducible apply held_bootImage

theorem exec_bootHostGo_held {s nx : State} {t} {m} {v} (e : exec (.bootHostGo t m v) s = .next nx) : Held (s.arrive t) nx := by
  change execBootHostGo t m v s = .next nx at e
  unfold execBootHostGo at e
  refine held_regWrite e fun x => ?_
  have h : Held x x := .refl x
  repeat' first
    | with_reducible refine Held.ite ?_ ?_
    | with_reducible refine Held.ite_snd ?_ ?_
    | with_reducible assumption
    | with_reducible apply held_bootGo

theorem exec_bootFuseCmd_held {s nx : State} {t} {m} {v} (e : exec (.bootFuseCmd t m v) s = .next nx) : Held (s.arrive t) nx := by
  change execBootFuseCmd t m v s = .next nx at e
  unfold execBootFuseCmd at e
  refine held_regWrite e fun x => ?_
  have h : Held x x := .refl x
  repeat' first
    | with_reducible refine Held.ite ?_ ?_
    | with_reducible refine Held.ite_snd ?_ ?_
    | with_reducible assumption
    | with_reducible apply held_fuseCmd

theorem exec_fuseProgramComplete_held {s nx : State} {t} {readBack} (e : exec (.fuseProgramComplete t readBack) s = .next nx) : Held (s.arrive t) nx := by
  change execFuseProgramComplete t readBack s = .next nx at e
  unfold execFuseProgramComplete at e
  refine held_liveEvent e fun x => ?_
  have h : Held x x := .refl x
  repeat' first
    | with_reducible refine Held.ite ?_ ?_
    | with_reducible refine Held.ite_snd ?_ ?_
    | with_reducible assumption
    | with_reducible apply held_fuseEnd

theorem exec_svcRead_held {s nx : State} {t} {ofs} {n} (e : exec (.svcRead t ofs n) s = .next nx) : Held (s.arrive t) nx := by
  change execSvcRead t ofs n s = .next nx at e
  unfold execSvcRead at e
  refine held_svcFrame e fun x => ?_
  have h : Held x x := .refl x
  repeat' first
    | with_reducible refine Held.ite ?_ ?_
    | with_reducible refine Held.ite_snd ?_ ?_
    | with_reducible assumption
    | with_reducible apply Held.ofQuiet (kept_answer (Quiet.refl _))
    | with_reducible apply held_svcWords

theorem exec_svcMbSend_held {s nx : State} {t} {b} {words} (e : exec (.svcMbSend t b words) s = .next nx) : Held (s.arrive t) nx := by
  change execSvcMbSend t b words s = .next nx at e
  unfold execSvcMbSend at e
  refine held_svcWrite e fun x => ?_
  have h : Held x x := .refl x
  repeat' first
    | with_reducible refine Held.ite ?_ ?_
    | with_reducible refine Held.ite_snd ?_ ?_
    | with_reducible assumption
    | with_reducible apply held_svcSend

theorem exec_svcMbAck_held {s nx : State} {t} {b} {rc} (e : exec (.svcMbAck t b rc) s = .next nx) : Held (s.arrive t) nx := by
  change execSvcMbAck t b rc s = .next nx at e
  unfold execSvcMbAck at e
  refine held_svcWrite e fun x => ?_
  have h : Held x x := .refl x
  repeat' first
    | with_reducible refine Held.ite ?_ ?_
    | with_reducible refine Held.ite_snd ?_ ?_
    | with_reducible assumption
    | with_reducible apply Held.ofKept (kept_svcAck (Kept.refl _))

theorem exec_svcStage_held {s nx : State} {t} {ofs} {bytes} (e : exec (.svcStage t ofs bytes) s = .next nx) : Held (s.arrive t) nx := by
  change execSvcStage t ofs bytes s = .next nx at e
  unfold execSvcStage at e
  refine held_svcWrite e fun x => ?_
  have h : Held x x := .refl x
  repeat' first
    | with_reducible refine Held.ite ?_ ?_
    | with_reducible refine Held.ite_snd ?_ ?_
    | with_reducible assumption
    | with_reducible apply held_svcStage

theorem exec_svcCommit_held {s nx : State} {t} {stamp} {tag} {v} (e : exec (.svcCommit t stamp tag v) s = .next nx) : Held (s.arrive t) nx := by
  change execSvcCommit t stamp tag v s = .next nx at e
  unfold execSvcCommit at e
  refine held_svcWrite e fun x => ?_
  have h : Held x x := .refl x
  repeat' first
    | with_reducible refine Held.ite ?_ ?_
    | with_reducible refine Held.ite_snd ?_ ?_
    | with_reducible assumption
    | with_reducible apply held_svcCommit

theorem exec_svcFuse_held {s nx : State} {t} {digest} (e : exec (.svcFuse t digest) s = .next nx) : Held (s.arrive t) nx := by
  change execSvcFuse t digest s = .next nx at e
  unfold execSvcFuse at e
  refine held_svcWrite e fun x => ?_
  have h : Held x x := .refl x
  repeat' first
    | with_reducible refine Held.ite ?_ ?_
    | with_reducible refine Held.ite_snd ?_ ?_
    | with_reducible assumption
    | with_reducible apply held_svcFuse

theorem exec_svcCoreReset_held {s nx : State} {t} {k} {v} (e : exec (.svcCoreReset t k v) s = .next nx) : Held (s.arrive t) nx := by
  change execSvcCoreReset t k v s = .next nx at e
  unfold execSvcCoreReset at e
  refine held_svcWrite e fun x => ?_
  have h : Held x x := .refl x
  repeat' first
    | with_reducible refine Held.ite ?_ ?_
    | with_reducible refine Held.ite_snd ?_ ?_
    | with_reducible assumption
    | with_reducible apply Held.ofQuiet (kept_svcCore (Quiet.refl _))

theorem exec_tcmaData_held {s nx : State} {t} {m} {w} (e : exec (.tcmaData t m w) s = .next nx) : Held (s.arrive t) nx := by
  change execTcmaData t m w s = .next nx at e
  unfold execTcmaData at e
  split at e
  · exact held_regWrite e fun _ => held_tcmaWrite (.refl _)
  · exact held_regRead e fun _ => held_tcmaRead (.refl _)

theorem exec_registerWrite_held {s nx : State} {t} {m} {ofs} {be} {v} (e : exec (.registerWrite t m ofs be v) s = .next nx) : Held (s.arrive t) nx := by
  change execRegisterWrite t m ofs be v s = .next nx at e
  unfold execRegisterWrite at e
  refine held_regWrite e fun x => ?_
  have h : Held x x := .refl x
  repeat' first
    | with_reducible refine Held.ite ?_ ?_
    | with_reducible refine Held.ite_snd ?_ ?_
    | with_reducible assumption
    | with_reducible apply held_putReg

theorem exec_pulseTrailingEdge_quiet {s nx : State} {t} {u} (e : exec (.pulseTrailingEdge t u) s = .next nx) : Quiet (s.arrive t) nx := by
  change execPulseTrailingEdge t u s = .next nx at e
  unfold execPulseTrailingEdge at e
  refine quiet_engineEvent e fun x => ?_
  have h : Quiet x x := .refl x
  repeat' first
    | with_reducible refine Quiet.ite ?_ ?_
    | with_reducible refine Quiet.ite_snd ?_ ?_
    | with_reducible assumption
    | with_reducible apply kept_trailingEdge

theorem exec_positionEdge_quiet {s nx : State} {t} {u} (e : exec (.positionEdge t u) s = .next nx) : Quiet (s.arrive t) nx := by
  change execPositionEdge t u s = .next nx at e
  unfold execPositionEdge at e
  refine quiet_engineEvent e fun x => ?_
  have h : Quiet x x := .refl x
  repeat' first
    | with_reducible refine Quiet.ite ?_ ?_
    | with_reducible refine Quiet.ite_snd ?_ ?_
    | with_reducible assumption
    | with_reducible apply kept_positionEdge

theorem exec_fqCiReadComplete_quiet {s nx : State} {t} {d} {h} (e : exec (.fqCiReadComplete t d h) s = .next nx) : Quiet (s.arrive t) nx := by
  change execFqCiReadComplete t d h s = .next nx at e
  unfold execFqCiReadComplete at e
  refine quiet_engineEvent e fun x => ?_
  have h : Quiet x x := .refl x
  repeat' first
    | with_reducible refine Quiet.ite ?_ ?_
    | with_reducible refine Quiet.ite_snd ?_ ?_
    | with_reducible assumption
    | with_reducible apply kept_fqRead

theorem exec_pcieLinkChange_quiet {s nx : State} {t} {up} {cfg} (e : exec (.pcieLinkChange t up cfg) s = .next nx) : Quiet (s.arrive t) nx := by
  change execPcieLinkChange t up cfg s = .next nx at e
  unfold execPcieLinkChange at e
  refine quiet_liveEvent e fun x => ?_
  have h : Quiet x x := .refl x
  repeat' first
    | with_reducible refine Quiet.ite ?_ ?_
    | with_reducible refine Quiet.ite_snd ?_ ?_
    | with_reducible assumption
    | with_reducible apply kept_linkChange

theorem exec_ptpMessageTx_quiet {s nx : State} {t} {p} {kind} (e : exec (.ptpMessageTx t p kind) s = .next nx) : Quiet (s.arrive t) nx := by
  change execPtpMessageTx t p kind s = .next nx at e
  unfold execPtpMessageTx at e
  refine quiet_engineEvent e fun x => ?_
  have h : Quiet x x := .refl x
  repeat' first
    | with_reducible refine Quiet.ite ?_ ?_
    | with_reducible refine Quiet.ite_snd ?_ ?_
    | with_reducible assumption
    | with_reducible apply kept_ptpTx

theorem exec_mainsCrossingTimeout_kept {s nx : State} {t} {ix} (e : exec (.mainsCrossingTimeout t ix) s = .next nx) : Kept (s.arrive t) nx := by
  change execMainsCrossingTimeout t ix s = .next nx at e
  unfold execMainsCrossingTimeout at e
  refine kept_liveEvent e fun x => ?_
  have h : Kept x x := .refl x
  repeat' first
    | with_reducible refine Kept.ite ?_ ?_
    | with_reducible refine Kept.ite_snd ?_ ?_
    | with_reducible assumption
    | with_reducible apply kept_watchEvent

theorem exec_coreWfi_kept {s nx : State} {t} {k} (e : exec (.coreWfi t k) s = .next nx) : Kept (s.arrive t) nx := by
  change execCoreWfi t k s = .next nx at e
  unfold execCoreWfi at e
  refine kept_engineEvent e fun x => ?_
  have h : Kept x x := .refl x
  repeat' first
    | with_reducible refine Kept.ite ?_ ?_
    | with_reducible refine Kept.ite_snd ?_ ?_
    | with_reducible assumption
    | with_reducible apply Kept.ofQuiet (kept_setCore (Quiet.refl _))
    | with_reducible apply kept_modUnd

theorem exec_coreSramAccess_quiet {s nx : State} {t} {k} {addr} {op} (e : exec (.coreSramAccess t k addr op) s = .next nx) : Quiet (s.arrive t) nx := by
  change execCoreSramAccess t k addr op s = .next nx at e
  unfold execCoreSramAccess at e
  refine quiet_engineEvent e fun x => ?_
  have h : Quiet x x := .refl x
  repeat' first
    | with_reducible refine Quiet.ite ?_ ?_
    | with_reducible refine Quiet.ite_snd ?_ ?_
    | with_reducible assumption
    | with_reducible apply kept_coreSram

theorem exec_bar4Access_kept {s nx : State} {t} {ofs} {len} {w} (e : exec (.bar4Access t ofs len w) s = .next nx) : Kept (s.arrive t) nx := by
  change execBar4Access t ofs len w s = .next nx at e
  unfold execBar4Access at e
  split at e
  · exact kept_regWrite e fun _ => Kept.ofQuiet (kept_bar4 (.refl _)) (.refl _)
  · have := next_inj e
    subst this
    split
    · exact Kept.ofQuiet (kept_bar4 (.refl _)) (.refl _)
    · split
      · exact .refl _
      · split
        · exact Kept.ofQuiet (kept_emit (.refl _)) (.refl _)
        · exact Kept.ofQuiet (kept_emit (.refl _)) (kept_restAccess (.refl _))

theorem exec_servicePortAttach_held {s nx : State} {t} (e : exec (.servicePortAttach t) s = .next nx) : Held (s.arrive t) nx := by
  change execServicePortAttach t s = .next nx at e
  unfold execServicePortAttach at e
  refine held_liveEvent e fun x => ?_
  have h : Held x x := .refl x
  repeat' first
    | with_reducible refine Held.ite ?_ ?_
    | with_reducible refine Held.ite_snd ?_ ?_
    | with_reducible assumption
    | with_reducible refine Held.foldl _ (fun _ _ _ => ?_) _ ?_
    | with_reducible refine Held.ite_snd_of (by with_reducible assumption) ?_ ?_
    | with_reducible refine Held.foldl_snd _ (fun _ _ _ => ?_) _ ?_
    | dsimp only
    | simp only [reduceIte, Bool.false_eq_true]
    | split
    | fail_if_no_progress ((with_reducible refine Held.put ?_ ?_) <;> first | exact rfl | skip)

/-- What every command keeps. -/
def ExecHeld (c : Instr) : Prop := ∀ s u, exec c s = .next u → Held s u

theorem exec_incrementalStep_holds (t : _) (g : _) (a : _) (b : _) (first : _) : ExecHeld (.incrementalStep t g a b first) := fun _ _ e =>
  (held_arrive_self _ _).trans (exec_incrementalStep_kept e).toHeld
theorem exec_zLoad_holds (t : _) (g : _) (z : _) : ExecHeld (.zLoad t g z) := fun _ _ e =>
  (held_arrive_self _ _).trans (exec_zLoad_kept e).toHeld
theorem exec_serialFrameStart_holds (t : _) (ix : _) : ExecHeld (.serialFrameStart t ix) := fun _ _ e =>
  (held_arrive_self _ _).trans (exec_serialFrameStart_kept e).toHeld
theorem exec_serialFrameEnd_holds (t : _) (ix : _) (bits : _) (n : _) (noStart : _) (lineMeas : _) : ExecHeld (.serialFrameEnd t ix bits n noStart lineMeas) := fun _ _ e =>
  (held_arrive_self _ _).trans (exec_serialFrameEnd_kept e).toHeld
theorem exec_mainsCrossing_holds (t : _) (i : _) (raw : _) : ExecHeld (.mainsCrossing t i raw) := fun _ _ e =>
  (held_arrive_self _ _).trans (exec_mainsCrossing_kept e).toHeld
theorem exec_mainsPhaseStep_holds (t : _) (c : _) : ExecHeld (.mainsPhaseStep t c) := fun _ _ e =>
  (held_arrive_self _ _).trans (exec_mainsPhaseStep_kept e).toHeld
theorem exec_timeStep_holds (t : _) (c : _) : ExecHeld (.timeStep t c) := fun _ _ e =>
  (held_arrive_self _ _).trans (exec_timeStep_kept e).toHeld
theorem exec_syntheticStep_holds (t : _) (c : _) : ExecHeld (.syntheticStep t c) := fun _ _ e =>
  (held_arrive_self _ _).trans (exec_syntheticStep_kept e).toHeld
theorem exec_mirrorPhaseStep_holds (t : _) (c : _) : ExecHeld (.mirrorPhaseStep t c) := fun _ _ e =>
  (held_arrive_self _ _).trans (exec_mirrorPhaseStep_kept e).toHeld
theorem exec_mirrorTimeout_holds (t : _) (c : _) : ExecHeld (.mirrorTimeout t c) := fun _ _ e =>
  (held_arrive_self _ _).trans (exec_mirrorTimeout_kept e).toHeld
theorem exec_standstill_holds (t : _) (c : _) : ExecHeld (.standstill t c) := fun _ _ e =>
  (held_arrive_self _ _).trans (exec_standstill_kept e).toHeld
theorem exec_cellCtrlWrite_holds (t : _) (m : _) (c : _) (v : _) : ExecHeld (.cellCtrlWrite t m c v) := fun _ _ e =>
  (held_arrive_self _ _).trans (exec_cellCtrlWrite_kept e).toHeld
theorem exec_cellModWrite_holds (t : _) (m : _) (c : _) (v : _) : ExecHeld (.cellModWrite t m c v) := fun _ _ e =>
  (held_arrive_self _ _).trans (exec_cellModWrite_kept e).toHeld
theorem exec_loadGo_holds (t : _) (m : _) (c : _) (v : _) : ExecHeld (.loadGo t m c v) := fun _ _ e =>
  (held_arrive_self _ _).trans (exec_loadGo_kept e).toHeld
theorem exec_synRateCommit_holds (t : _) (m : _) (c : _) (v : _) : ExecHeld (.synRateCommit t m c v) := fun _ _ e =>
  (held_arrive_self _ _).trans (exec_synRateCommit_kept e).toHeld
theorem exec_mirrorOfsCommit_holds (t : _) (m : _) (c : _) (v : _) : ExecHeld (.mirrorOfsCommit t m c v) := fun _ _ e =>
  (held_arrive_self _ _).trans (exec_mirrorOfsCommit_kept e).toHeld
theorem exec_posFtRead_holds (t : _) (m : _) (c : _) : ExecHeld (.posFtRead t m c) := fun _ _ e =>
  (held_arrive_self _ _).trans (exec_posFtRead_kept e).toHeld
theorem exec_cmpCtrlWrite_holds (t : _) (m : _) (k : _) (v : _) : ExecHeld (.cmpCtrlWrite t m k v) := fun _ _ e =>
  (held_arrive_self _ _).trans (exec_cmpCtrlWrite_kept e).toHeld
theorem exec_cmpValueWrite_holds (t : _) (m : _) (k : _) (turn : _) (v : _) : ExecHeld (.cmpValueWrite t m k turn v) := fun _ _ e =>
  (held_arrive_self _ _).trans (exec_cmpValueWrite_kept e).toHeld
theorem exec_cmpFtRead_holds (t : _) (m : _) (k : _) : ExecHeld (.cmpFtRead t m k) := fun _ _ e =>
  (held_arrive_self _ _).trans (exec_cmpFtRead_kept e).toHeld
theorem exec_captureEdge_holds (t : _) (j : _) (rising : _) (stamps : _) : ExecHeld (.captureEdge t j rising stamps) := fun _ _ e =>
  (held_arrive_self _ _).trans (exec_captureEdge_ran e).toHeld
theorem exec_capCtrlWrite_holds (t : _) (m : _) (j : _) (v : _) : ExecHeld (.capCtrlWrite t m j v) := fun _ _ e =>
  (held_arrive_self _ _).trans (exec_capCtrlWrite_kept e).toHeld
theorem exec_capPop_holds (t : _) (m : _) (j : _) : ExecHeld (.capPop t m j) := fun _ _ e =>
  (held_arrive_self _ _).trans (exec_capPop_kept e).toHeld
theorem exec_cellRelease_holds (t : _) (m : _) : ExecHeld (.cellRelease t m) := fun _ _ e =>
  (held_arrive_self _ _).trans (exec_cellRelease_kept e).toHeld
theorem exec_cellHold_holds (t : _) (m : _) : ExecHeld (.cellHold t m) := fun _ _ e =>
  (held_arrive_self _ _).trans (exec_cellHold_kept e).toHeld
theorem exec_startTRead_holds (t : _) (m : _) : ExecHeld (.startTRead t m) := fun _ _ e =>
  (held_arrive_self _ _).trans (exec_startTRead_kept e).toHeld
theorem exec_coreDebugHalt_holds (t : _) (k : _) : ExecHeld (.coreDebugHalt t k) := fun _ _ e =>
  (held_arrive_self _ _).trans (exec_coreDebugHalt_kept e).toHeld
theorem exec_coreDebugResume_holds (t : _) (k : _) : ExecHeld (.coreDebugResume t k) := fun _ _ e =>
  (held_arrive_self _ _).trans (exec_coreDebugResume_kept e).toHeld
theorem exec_frzTRead_holds (t : _) (m : _) : ExecHeld (.frzTRead t m) := fun _ _ e =>
  (held_arrive_self _ _).trans (exec_frzTRead_kept e).toHeld
theorem exec_groupFetch_holds (t : _) (c : _) (h : _) : ExecHeld (.groupFetch t c h) := fun _ _ e =>
  (held_arrive_self _ _).trans (exec_groupFetch_kept e).toHeld
theorem exec_read_holds (t : _) (c : _) : ExecHeld (.read t c) := fun _ _ e =>
  (held_arrive_self _ _).trans (exec_read_quiet e).toHeld
theorem exec_write_holds (t : _) (c : _) : ExecHeld (.write t c) := fun _ _ e =>
  (held_arrive_self _ _).trans (exec_write_quiet e).toHeld
theorem exec_flush_holds (t : _) (c : _) : ExecHeld (.flush t c) := fun _ _ e =>
  (held_arrive_self _ _).trans (exec_flush_kept e).toHeld
theorem exec_load_holds (t : _) (c : _) : ExecHeld (.load t c) := fun _ _ e =>
  (held_arrive_self _ _).trans (exec_load_kept e).toHeld
theorem exec_setMod_holds (t : _) (c : _) : ExecHeld (.setMod t c) := fun _ _ e =>
  (held_arrive_self _ _).trans (exec_setMod_kept e).toHeld
theorem exec_setRate_holds (t : _) (c : _) : ExecHeld (.setRate t c) := fun _ _ e =>
  (held_arrive_self _ _).trans (exec_setRate_kept e).toHeld
theorem exec_sense_holds (t : _) (c : _) : ExecHeld (.sense t c) := fun _ _ e =>
  (held_arrive_self _ _).trans (exec_sense_quiet e).toHeld
theorem exec_move_holds (t : _) (c : _) : ExecHeld (.move t c) := fun _ _ e =>
  (held_arrive_self _ _).trans (exec_move_quiet e).toHeld
theorem exec_fill_holds (t : _) (c : _) : ExecHeld (.fill t c) := fun _ _ e =>
  (held_arrive_self _ _).trans (exec_fill_quiet e).toHeld
theorem exec_compare_holds (t : _) (c : _) : ExecHeld (.compare t c) := fun _ _ e =>
  (held_arrive_self _ _).trans (exec_compare_quiet e).toHeld
theorem exec_gather_holds (t : _) (c : _) : ExecHeld (.gather t c) := fun _ _ e =>
  (held_arrive_self _ _).trans (exec_gather_quiet e).toHeld
theorem exec_tic_holds (t : _) (c : _) : ExecHeld (.tic t c) := fun _ _ e =>
  (held_arrive_self _ _).trans (exec_tic_quiet e).toHeld
theorem exec_ticc_holds (t : _) (c : _) : ExecHeld (.ticc t c) := fun _ _ e =>
  (held_arrive_self _ _).trans (exec_ticc_quiet e).toHeld
theorem exec_waitTime_holds (t : _) (c : _) : ExecHeld (.waitTime t c) := fun _ _ e =>
  (held_arrive_self _ _).trans (exec_waitTime_quiet e).toHeld
theorem exec_waitTimeExpiry_holds (t : _) (c : _) : ExecHeld (.waitTimeExpiry t c) := fun _ _ e =>
  (held_arrive_self _ _).trans (exec_waitTimeExpiry_quiet e).toHeld
theorem exec_waitPosition_holds (t : _) (c : _) : ExecHeld (.waitPosition t c) := fun _ _ e =>
  (held_arrive_self _ _).trans (exec_waitPosition_kept e).toHeld
theorem exec_waitUnit_holds (t : _) (c : _) : ExecHeld (.waitUnit t c) := fun _ _ e =>
  (held_arrive_self _ _).trans (exec_waitUnit_quiet e).toHeld
theorem exec_waitCompare_holds (t : _) (c : _) : ExecHeld (.waitCompare t c) := fun _ _ e =>
  (held_arrive_self _ _).trans (exec_waitCompare_quiet e).toHeld
theorem exec_waitComplete_holds (t : _) (c : _) : ExecHeld (.waitComplete t c) := fun _ _ e =>
  (held_arrive_self _ _).trans (exec_waitComplete_quiet e).toHeld
theorem exec_waitTimeout_holds (t : _) (c : _) : ExecHeld (.waitTimeout t c) := fun _ _ e =>
  (held_arrive_self _ _).trans (exec_waitTimeout_quiet e).toHeld
theorem exec_glade_holds (t : _) (c : _) : ExecHeld (.glade t c) := fun _ _ e =>
  (held_arrive_self _ _).trans (exec_glade_quiet e).toHeld
theorem exec_gladeComplete_holds (t : _) (c : _) : ExecHeld (.gladeComplete t c) := fun _ _ e =>
  (held_arrive_self _ _).trans (exec_gladeComplete_quiet e).toHeld
theorem exec_signalLevel_holds (t : _) (c : _) : ExecHeld (.signalLevel t c) := fun _ _ e =>
  (held_arrive_self _ _).trans (exec_signalLevel_quiet e).toHeld
theorem exec_signalPulse_holds (t : _) (c : _) : ExecHeld (.signalPulse t c) := fun _ _ e =>
  (held_arrive_self _ _).trans (exec_signalPulse_quiet e).toHeld
theorem exec_signalPattern_holds (t : _) (c : _) : ExecHeld (.signalPattern t c) := fun _ _ e =>
  (held_arrive_self _ _).trans (exec_signalPattern_quiet e).toHeld
theorem exec_patternEdge_holds (t : _) (u : _) : ExecHeld (.patternEdge t u) := fun _ _ e =>
  (held_arrive_self _ _).trans (exec_patternEdge_quiet e).toHeld
theorem exec_slotReserve_holds (t : _) (u : _) : ExecHeld (.slotReserve t u) := fun _ _ e =>
  (held_arrive_self _ _).trans (exec_slotReserve_quiet e).toHeld
theorem exec_armCompare_holds (t : _) (c : _) : ExecHeld (.armCompare t c) := fun _ _ e =>
  (held_arrive_self _ _).trans (exec_armCompare_ran e).toHeld
theorem exec_armCapture_holds (t : _) (c : _) : ExecHeld (.armCapture t c) := fun _ _ e =>
  (held_arrive_self _ _).trans (exec_armCapture_ran e).toHeld
theorem exec_lock_holds (t : _) (c : _) : ExecHeld (.lock t c) := fun _ _ e =>
  (held_arrive_self _ _).trans (exec_lock_quiet e).toHeld
theorem exec_unlock_holds (t : _) (c : _) : ExecHeld (.unlock t c) := fun _ _ e =>
  (held_arrive_self _ _).trans (exec_unlock_quiet e).toHeld
theorem exec_lockAbandoned_holds (t : _) (c : _) : ExecHeld (.lockAbandoned t c) := fun _ _ e =>
  (held_arrive_self _ _).trans (exec_lockAbandoned_quiet e).toHeld
theorem exec_cas_holds (t : _) (c : _) : ExecHeld (.cas t c) := fun _ _ e =>
  (held_arrive_self _ _).trans (exec_cas_quiet e).toHeld
theorem exec_mark_holds (t : _) (c : _) : ExecHeld (.mark t c) := fun _ _ e =>
  (held_arrive_self _ _).trans (exec_mark_quiet e).toHeld
theorem exec_nop_holds (t : _) (c : _) : ExecHeld (.nop t c) := fun _ _ e =>
  (held_arrive_self _ _).trans (exec_nop_quiet e).toHeld
theorem exec_schedEntryGrant_holds (t : _) : ExecHeld (.schedEntryGrant t) := fun _ _ e =>
  (held_arrive_self _ _).trans (exec_schedEntryGrant_ran e).toHeld
theorem exec_stagingBegin_holds (t : _) (c : _) : ExecHeld (.stagingBegin t c) := fun _ _ e =>
  (held_arrive_self _ _).trans (exec_stagingBegin_quiet e).toHeld
theorem exec_commit_holds (t : _) (c : _) : ExecHeld (.commit t c) := fun _ _ e =>
  (held_arrive_self _ _).trans (exec_commit_quiet e).toHeld
theorem exec_patternEdgeCommit_holds (t : _) (u : _) : ExecHeld (.patternEdgeCommit t u) := fun _ _ e =>
  (held_arrive_self _ _).trans (exec_patternEdgeCommit_quiet e).toHeld
theorem exec_placementLock_holds (t : _) (c : _) : ExecHeld (.placementLock t c) := fun _ _ e =>
  (held_arrive_self _ _).trans (exec_placementLock_quiet e).toHeld
theorem exec_effect_holds (t : _) (c : _) : ExecHeld (.effect t c) := fun _ _ e =>
  (held_arrive_self _ _).trans (exec_effect_kept e).toHeld
theorem exec_limitExpiry_holds (t : _) (c : _) : ExecHeld (.limitExpiry t c) := fun _ _ e =>
  (held_arrive_self _ _).trans (exec_limitExpiry_quiet e).toHeld
theorem exec_moverGrant_holds (t : _) : ExecHeld (.moverGrant t) := fun _ _ e =>
  (held_arrive_self _ _).trans (exec_moverGrant_quiet e).toHeld
theorem exec_unitAdvertise_holds (t : _) (c : _) : ExecHeld (.unitAdvertise t c) := fun _ _ e =>
  (held_arrive_self _ _).trans (exec_unitAdvertise_quiet e).toHeld
theorem exec_burstEnd_holds (t : _) (mv : _) : ExecHeld (.burstEnd t mv) := fun _ _ e =>
  (held_arrive_self _ _).trans (exec_burstEnd_kept e).toHeld
theorem exec_hostReadCompletion_holds (t : _) (mv : _) (addr : _) (h : _) : ExecHeld (.hostReadCompletion t mv addr h) := fun _ _ e =>
  (held_arrive_self _ _).trans (exec_hostReadCompletion_quiet e).toHeld
theorem exec_completionTimeout_holds (t : _) (mv : _) (addr : _) : ExecHeld (.completionTimeout t mv addr) := fun _ _ e =>
  (held_arrive_self _ _).trans (exec_completionTimeout_quiet e).toHeld
theorem exec_moverPeakClr_holds (t : _) (m : _) (v : _) : ExecHeld (.moverPeakClr t m v) := fun _ _ e =>
  (held_arrive_self _ _).trans (exec_moverPeakClr_kept e).toHeld
theorem exec_moverBytesRead_holds (t : _) (m : _) : ExecHeld (.moverBytesRead t m) := fun _ _ e =>
  (held_arrive_self _ _).trans (exec_moverBytesRead_kept e).toHeld
theorem exec_mvStateRead_holds (t : _) (m : _) (mv : _) : ExecHeld (.mvStateRead t m mv) := fun _ _ e =>
  (held_arrive_self _ _).trans (exec_mvStateRead_kept e).toHeld
theorem exec_start_holds (t : _) (q : _) (c : _) (phy : _) (addr : _) : ExecHeld (.start t q c phy addr) := fun _ _ e =>
  (held_arrive_self _ _).trans (exec_start_quiet e).toHeld
theorem exec_halt_holds (t : _) (q : _) (c : _) : ExecHeld (.halt t q c) := fun _ _ e =>
  (held_arrive_self _ _).trans (exec_halt_quiet e).toHeld
theorem exec_suspend_holds (t : _) (q : _) (c : _) : ExecHeld (.suspend t q c) := fun _ _ e =>
  (held_arrive_self _ _).trans (exec_suspend_quiet e).toHeld
theorem exec_resume_holds (t : _) (q : _) (c : _) : ExecHeld (.resume t q c) := fun _ _ e =>
  (held_arrive_self _ _).trans (exec_resume_quiet e).toHeld
theorem exec_clear_holds (t : _) (q : _) (c : _) : ExecHeld (.clear t q c) := fun _ _ e =>
  (held_arrive_self _ _).trans (exec_clear_quiet e).toHeld
theorem exec_modify_holds (t : _) (q : _) (c : _) (phy : _) (addr : _) (mask : _) (cond : _) : ExecHeld (.modify t q c phy addr mask cond) := fun _ _ e =>
  (held_arrive_self _ _).trans (exec_modify_quiet e).toHeld
theorem exec_storeStatus_holds (t : _) (q : _) (c : _) (phy : _) (addr : _) : ExecHeld (.storeStatus t q c phy addr) := fun _ _ e =>
  (held_arrive_self _ _).trans (exec_storeStatus_quiet e).toHeld
theorem exec_drainComplete_holds (t : _) (c : _) : ExecHeld (.drainComplete t c) := fun _ _ e =>
  (held_arrive_self _ _).trans (exec_drainComplete_quiet e).toHeld
theorem exec_ctxStateRead_holds (t : _) (m : _) (c : _) : ExecHeld (.ctxStateRead t m c) := fun _ _ e =>
  (held_arrive_self _ _).trans (exec_ctxStateRead_kept e).toHeld
theorem exec_wqDoorbell_holds (t : _) (m : _) (q : _) : ExecHeld (.wqDoorbell t m q) := fun _ _ e =>
  (held_arrive_self _ _).trans (exec_wqDoorbell_kept e).toHeld
theorem exec_pushSlotWrite_holds (t : _) (m : _) (q : _) (ofs : _) (bytes : _) : ExecHeld (.pushSlotWrite t m q ofs bytes) := fun _ _ e =>
  (held_arrive_self _ _).trans (exec_pushSlotWrite_kept e).toHeld
theorem exec_wqPiReadComplete_holds (t : _) (q : _) (h : _) : ExecHeld (.wqPiReadComplete t q h) := fun _ _ e =>
  (held_arrive_self _ _).trans (exec_wqPiReadComplete_quiet e).toHeld
theorem exec_entryServe_holds (t : _) (q : _) (h : _) : ExecHeld (.entryServe t q h) := fun _ _ e =>
  (held_arrive_self _ _).trans (exec_entryServe_ran e).toHeld
theorem exec_createWq_holds (t : _) (q : _) (phy : _) (base : _) (size : _) (dom : _) (owner : _) : ExecHeld (.createWq t q phy base size dom owner) := fun _ _ e =>
  (held_arrive_self _ _).trans (exec_createWq_ran e).toHeld
theorem exec_destroyWq_holds (t : _) (q : _) : ExecHeld (.destroyWq t q) := fun _ _ e =>
  (held_arrive_self _ _).trans (exec_destroyWq_ran e).toHeld
theorem exec_enableWq_holds (t : _) (q : _) : ExecHeld (.enableWq t q) := fun _ _ e =>
  (held_arrive_self _ _).trans (exec_enableWq_ran e).toHeld
theorem exec_disableWq_holds (t : _) (q : _) : ExecHeld (.disableWq t q) := fun _ _ e =>
  (held_arrive_self _ _).trans (exec_disableWq_ran e).toHeld
theorem exec_disableComplete_holds (t : _) (q : _) : ExecHeld (.disableComplete t q) := fun _ _ e =>
  (held_arrive_self _ _).trans (exec_disableComplete_quiet e).toHeld
theorem exec_createEq_holds (t : _) (q : _) (phy : _) (base : _) (size : _) (dom : _) (note : _) (vec : _) : ExecHeld (.createEq t q phy base size dom note vec) := fun _ _ e =>
  (held_arrive_self _ _).trans (exec_createEq_ran e).toHeld
theorem exec_destroyEq_holds (t : _) (q : _) : ExecHeld (.destroyEq t q) := fun _ _ e =>
  (held_arrive_self _ _).trans (exec_destroyEq_ran e).toHeld
theorem exec_bind_holds (t : _) (c : _) (wq : _) (eq : _) (dom : _) : ExecHeld (.bind t c wq eq dom) := fun _ _ e =>
  (held_arrive_self _ _).trans (exec_bind_ran e).toHeld
theorem exec_setPrio_holds (t : _) (c : _) (cls : _) : ExecHeld (.setPrio t c cls) := fun _ _ e =>
  (held_arrive_self _ _).trans (exec_setPrio_ran e).toHeld
theorem exec_adminCfgWrite_holds (t : _) (m : _) (v : _) : ExecHeld (.adminCfgWrite t m v) := fun _ _ e =>
  (held_arrive_self _ _).trans (exec_adminCfgWrite_kept e).toHeld
theorem exec_eqDoorbell_holds (t : _) (m : _) (q : _) (arm : _) : ExecHeld (.eqDoorbell t m q arm) := fun _ _ e =>
  (held_arrive_self _ _).trans (exec_eqDoorbell_kept e).toHeld
theorem exec_eqCiReadComplete_holds (t : _) (q : _) (h : _) : ExecHeld (.eqCiReadComplete t q h) := fun _ _ e =>
  (held_arrive_self _ _).trans (exec_eqCiReadComplete_quiet e).toHeld
theorem exec_heldRecordPost_holds (t : _) (q : _) : ExecHeld (.heldRecordPost t q) := fun _ _ e =>
  (held_arrive_self _ _).trans (exec_heldRecordPost_ran e).toHeld
theorem exec_wqPiRead_holds (t : _) (m : _) (q : _) : ExecHeld (.wqPiRead t m q) := fun _ _ e =>
  (held_arrive_self _ _).trans (exec_wqPiRead_kept e).toHeld
theorem exec_eqResRead_holds (t : _) (m : _) (q : _) : ExecHeld (.eqResRead t m q) := fun _ _ e =>
  (held_arrive_self _ _).trans (exec_eqResRead_kept e).toHeld
theorem exec_tableReadComplete_holds (t : _) (w : _) (h : _) : ExecHeld (.tableReadComplete t w h) := fun _ _ e =>
  (held_arrive_self _ _).trans (exec_tableReadComplete_quiet e).toHeld
theorem exec_xlInvGo_holds (t : _) (m : _) (v : _) : ExecHeld (.xlInvGo t m v) := fun _ _ e =>
  (held_arrive_self _ _).trans (exec_xlInvGo_kept e).toHeld
theorem exec_invalidationComplete_holds (t : _) : ExecHeld (.invalidationComplete t) := fun _ _ e =>
  (held_arrive_self _ _).trans (exec_invalidationComplete_quiet e).toHeld
theorem exec_domCtrlWrite_holds (t : _) (m : _) (d : _) (v : _) : ExecHeld (.domCtrlWrite t m d v) := fun _ _ e =>
  (held_arrive_self _ _).trans (exec_domCtrlWrite_kept e).toHeld
theorem exec_fqDb_holds (t : _) (m : _) (d : _) (v : _) : ExecHeld (.fqDb t m d v) := fun _ _ e =>
  (held_arrive_self _ _).trans (exec_fqDb_kept e).toHeld
theorem exec_fqCfgWrite_holds (t : _) (m : _) (d : _) (v : _) : ExecHeld (.fqCfgWrite t m d v) := fun _ _ e =>
  (held_arrive_self _ _).trans (exec_fqCfgWrite_kept e).toHeld
theorem exec_parkPeakClr_holds (t : _) (m : _) (v : _) : ExecHeld (.parkPeakClr t m v) := fun _ _ e =>
  (held_arrive_self _ _).trans (exec_parkPeakClr_kept e).toHeld
theorem exec_xlHitRead_holds (t : _) (m : _) : ExecHeld (.xlHitRead t m) := fun _ _ e =>
  (held_arrive_self _ _).trans (exec_xlHitRead_kept e).toHeld
theorem exec_fqPiRead_holds (t : _) (m : _) (d : _) : ExecHeld (.fqPiRead t m d) := fun _ _ e =>
  (held_arrive_self _ _).trans (exec_fqPiRead_kept e).toHeld
theorem exec_coreWindowAccess_holds (t : _) (k : _) (addr : _) (op : _) (h : _) : ExecHeld (.coreWindowAccess t k addr op h) := fun _ _ e =>
  (held_arrive_self _ _).trans (exec_coreWindowAccess_quiet e).toHeld
theorem exec_cwCtrlWrite_holds (t : _) (m : _) (k : _) (w : _) (reg : _) (v : _) : ExecHeld (.cwCtrlWrite t m k w reg v) := fun _ _ e =>
  (held_arrive_self _ _).trans (exec_cwCtrlWrite_kept e).toHeld
theorem exec_maxOn_holds (t : _) (u : _) : ExecHeld (.maxOn t u) := fun _ _ e =>
  (held_arrive_self _ _).trans (exec_maxOn_quiet e).toHeld
theorem exec_duty_holds (t : _) (u : _) : ExecHeld (.duty t u) := fun _ _ e =>
  (held_arrive_self _ _).trans (exec_duty_quiet e).toHeld
theorem exec_permit_holds (t : _) (i : _) (raw : _) : ExecHeld (.permit t i raw) := fun _ _ e =>
  (held_arrive_self _ _).trans (exec_permit_kept e).toHeld
theorem exec_budgetWindowStart_holds (t : _) : ExecHeld (.budgetWindowStart t) := fun _ _ e =>
  (held_arrive_self _ _).trans (exec_budgetWindowStart_quiet e).toHeld
theorem exec_ouEdgeRead_holds (t : _) (m : _) (u : _) : ExecHeld (.ouEdgeRead t m u) := fun _ _ e =>
  (held_arrive_self _ _).trans (exec_ouEdgeRead_kept e).toHeld
theorem exec_commitFence_holds (t : _) (m : _) (v : _) : ExecHeld (.commitFence t m v) := fun _ _ e =>
  (held_arrive_self _ _).trans (exec_commitFence_held e)
theorem exec_commitConduct_holds (t : _) (m : _) (v : _) : ExecHeld (.commitConduct t m v) := fun _ _ e =>
  (held_arrive_self _ _).trans (exec_commitConduct_held e)
theorem exec_commitIdentity_holds (t : _) (m : _) (v : _) : ExecHeld (.commitIdentity t m v) := fun _ _ e =>
  (held_arrive_self _ _).trans (exec_commitIdentity_held e)
theorem exec_commitComplete_holds (t : _) (readBack : _) : ExecHeld (.commitComplete t readBack) := fun _ _ e =>
  (held_arrive_self _ _).trans (exec_commitComplete_held e)
theorem exec_lwsStageWrite_holds (t : _) (m : _) (ofs : _) (v : _) : ExecHeld (.lwsStageWrite t m ofs v) := fun _ _ e =>
  (held_arrive_self _ _).trans (exec_lwsStageWrite_held e)
theorem exec_serviceEnQualify_holds (t : _) (raw : _) : ExecHeld (.serviceEnQualify t raw) := fun _ _ e =>
  (held_arrive_self _ _).trans (exec_serviceEnQualify_held e)
theorem exec_portCtrlWrite_holds (t : _) (m : _) (p : _) (v : _) : ExecHeld (.portCtrlWrite t m p v) := fun _ _ e =>
  (held_arrive_self _ _).trans (exec_portCtrlWrite_kept e).toHeld
theorem exec_portDisableComplete_holds (t : _) (p : _) : ExecHeld (.portDisableComplete t p) := fun _ _ e =>
  (held_arrive_self _ _).trans (exec_portDisableComplete_quiet e).toHeld
theorem exec_linkChange_holds (t : _) (p : _) (up : _) : ExecHeld (.linkChange t p up) := fun _ _ e =>
  (held_arrive_self _ _).trans (exec_linkChange_kept e).toHeld
theorem exec_frameReceive_holds (t : _) (p : _) (bytes : _) (good : _) : ExecHeld (.frameReceive t p bytes good) := fun _ _ e =>
  (held_arrive_self _ _).trans (exec_frameReceive_kept e).toHeld
theorem exec_rsCtrlWrite_holds (t : _) (m : _) (r : _) (v : _) : ExecHeld (.rsCtrlWrite t m r v) := fun _ _ e =>
  (held_arrive_self _ _).trans (exec_rsCtrlWrite_kept e).toHeld
theorem exec_streamDisableComplete_holds (t : _) (r : _) : ExecHeld (.streamDisableComplete t r) := fun _ _ e =>
  (held_arrive_self _ _).trans (exec_streamDisableComplete_quiet e).toHeld
theorem exec_placementGap_holds (t : _) (c : _) : ExecHeld (.placementGap t c) := fun _ _ e =>
  (held_arrive_self _ _).trans (exec_placementGap_quiet e).toHeld
theorem exec_txqCtrlWrite_holds (t : _) (m : _) (x : _) (v : _) : ExecHeld (.txqCtrlWrite t m x v) := fun _ _ e =>
  (held_arrive_self _ _).trans (exec_txqCtrlWrite_kept e).toHeld
theorem exec_frameTransmit_holds (t : _) (p : _) : ExecHeld (.frameTransmit t p) := fun _ _ e =>
  (held_arrive_self _ _).trans (exec_frameTransmit_quiet e).toHeld
theorem exec_ptpMessageRx_holds (t : _) (p : _) (msg : _) : ExecHeld (.ptpMessageRx t p msg) := fun _ _ e =>
  (held_arrive_self _ _).trans (exec_ptpMessageRx_kept e).toHeld
theorem exec_holdover_holds (t : _) : ExecHeld (.holdover t) := fun _ _ e =>
  (held_arrive_self _ _).trans (exec_holdover_quiet e).toHeld
theorem exec_ptpNowRead_holds (t : _) (m : _) : ExecHeld (.ptpNowRead t m) := fun _ _ e =>
  (held_arrive_self _ _).trans (exec_ptpNowRead_kept e).toHeld
theorem exec_cycleStart_holds (t : _) : ExecHeld (.cycleStart t) := fun _ _ e =>
  (held_arrive_self _ _).trans (exec_cycleStart_quiet e).toHeld
theorem exec_snapshot_holds (t : _) : ExecHeld (.snapshot t) := fun _ _ e =>
  (held_arrive_self _ _).trans (exec_snapshot_kept e).toHeld
theorem exec_cyclic_holds (t : _) : ExecHeld (.cyclic t) := fun _ _ e =>
  (held_arrive_self _ _).trans (exec_cyclic_quiet e).toHeld
theorem exec_yazenFrameRx_holds (t : _) : ExecHeld (.yazenFrameRx t) := fun _ _ e =>
  (held_arrive_self _ _).trans (exec_yazenFrameRx_held e)
theorem exec_forwardDrop_holds (t : _) (ringB : _) : ExecHeld (.forwardDrop t ringB) := fun _ _ e =>
  (held_arrive_self _ _).trans (exec_forwardDrop_quiet e).toHeld
theorem exec_ownFrameDrop_holds (t : _) (p : _) : ExecHeld (.ownFrameDrop t p) := fun _ _ e =>
  (held_arrive_self _ _).trans (exec_ownFrameDrop_quiet e).toHeld
theorem exec_lineStop_holds (t : _) (m : _) (v : _) : ExecHeld (.lineStop t m v) := fun _ _ e =>
  (held_arrive_self _ _).trans (exec_lineStop_kept e).toHeld
theorem exec_lineStopRepeat_holds (t : _) : ExecHeld (.lineStopRepeat t) := fun _ _ e =>
  (held_arrive_self _ _).trans (exec_lineStopRepeat_quiet e).toHeld
theorem exec_msixIssue_holds (t : _) : ExecHeld (.msixIssue t) := fun _ _ e =>
  (held_arrive_self _ _).trans (exec_msixIssue_quiet e).toHeld
theorem exec_cicDeliver_holds (t : _) (ix : _) : ExecHeld (.cicDeliver t ix) := fun _ _ e =>
  (held_arrive_self _ _).trans (exec_cicDeliver_quiet e).toHeld
theorem exec_cicPendWrite_holds (t : _) (m : _) (w : _) (v : _) : ExecHeld (.cicPendWrite t m w v) := fun _ _ e =>
  (held_arrive_self _ _).trans (exec_cicPendWrite_kept e).toHeld
theorem exec_cicPclrWrite_holds (t : _) (m : _) (w : _) (v : _) : ExecHeld (.cicPclrWrite t m w v) := fun _ _ e =>
  (held_arrive_self _ _).trans (exec_cicPclrWrite_kept e).toHeld
theorem exec_cicClaim_holds (t : _) (m : _) (k : _) : ExecHeld (.cicClaim t m k) := fun _ _ e =>
  (held_arrive_self _ _).trans (exec_cicClaim_kept e).toHeld
theorem exec_cicComplete_holds (t : _) (m : _) (k : _) (v : _) : ExecHeld (.cicComplete t m k v) := fun _ _ e =>
  (held_arrive_self _ _).trans (exec_cicComplete_kept e).toHeld
theorem exec_undRest_holds (t : _) (m : _) (v : _) : ExecHeld (.undRest t m v) := fun _ _ e =>
  (held_arrive_self _ _).trans (exec_undRest_kept e).toHeld
theorem exec_restEntry_holds (t : _) : ExecHeld (.restEntry t) := fun _ _ e =>
  (held_arrive_self _ _).trans (exec_restEntry_kept e).toHeld
theorem exec_restEntryTimeout_holds (t : _) : ExecHeld (.restEntryTimeout t) := fun _ _ e =>
  (held_arrive_self _ _).trans (exec_restEntryTimeout_kept e).toHeld
theorem exec_wakeEvent_holds (t : _) (code : _) : ExecHeld (.wakeEvent t code) := fun _ _ e =>
  (held_arrive_self _ _).trans (exec_wakeEvent_kept e).toHeld
theorem exec_undTimerExpiry_holds (t : _) : ExecHeld (.undTimerExpiry t) := fun _ _ e =>
  (held_arrive_self _ _).trans (exec_undTimerExpiry_kept e).toHeld
theorem exec_wakeComplete_holds (t : _) : ExecHeld (.wakeComplete t) := fun _ _ e =>
  (held_arrive_self _ _).trans (exec_wakeComplete_kept e).toHeld
theorem exec_undWtRead_holds (t : _) (m : _) : ExecHeld (.undWtRead t m) := fun _ _ e =>
  (held_arrive_self _ _).trans (exec_undWtRead_kept e).toHeld
theorem exec_mbSend_holds (t : _) (m : _) (b : _) (v : _) : ExecHeld (.mbSend t m b v) := fun _ _ e =>
  (held_arrive_self _ _).trans (exec_mbSend_kept e).toHeld
theorem exec_mbAck_holds (t : _) (m : _) (b : _) (v : _) : ExecHeld (.mbAck t m b v) := fun _ _ e =>
  (held_arrive_self _ _).trans (exec_mbAck_kept e).toHeld
theorem exec_mbTimeout_holds (t : _) (b : _) (sideA : _) : ExecHeld (.mbTimeout t b sideA) := fun _ _ e =>
  (held_arrive_self _ _).trans (exec_mbTimeout_kept e).toHeld
theorem exec_mbBindWrite_holds (t : _) (m : _) (b : _) (v : _) : ExecHeld (.mbBindWrite t m b v) := fun _ _ e =>
  (held_arrive_self _ _).trans (exec_mbBindWrite_kept e).toHeld
theorem exec_mbLock_holds (t : _) (m : _) (v : _) : ExecHeld (.mbLock t m v) := fun _ _ e =>
  (held_arrive_self _ _).trans (exec_mbLock_kept e).toHeld
theorem exec_usbBusReset_holds (t : _) : ExecHeld (.usbBusReset t) := fun _ _ e =>
  (held_arrive_self _ _).trans (exec_usbBusReset_held e)
theorem exec_cleanDataLines_holds (t : _) (m : _) (k : _) (v : _) : ExecHeld (.cleanDataLines t m k v) := fun _ _ e =>
  (held_arrive_self _ _).trans (exec_cleanDataLines_kept e).toHeld
theorem exec_invalidateDataLines_holds (t : _) (m : _) (k : _) (v : _) : ExecHeld (.invalidateDataLines t m k v) := fun _ _ e =>
  (held_arrive_self _ _).trans (exec_invalidateDataLines_kept e).toHeld
theorem exec_cleanInvalidateDataLines_holds (t : _) (m : _) (k : _) (v : _) : ExecHeld (.cleanInvalidateDataLines t m k v) := fun _ _ e =>
  (held_arrive_self _ _).trans (exec_cleanInvalidateDataLines_kept e).toHeld
theorem exec_invalidateInstructionLines_holds (t : _) (m : _) (k : _) (v : _) : ExecHeld (.invalidateInstructionLines t m k v) := fun _ _ e =>
  (held_arrive_self _ _).trans (exec_invalidateInstructionLines_kept e).toHeld
theorem exec_cleanWholeDataCache_holds (t : _) (m : _) (k : _) (v : _) : ExecHeld (.cleanWholeDataCache t m k v) := fun _ _ e =>
  (held_arrive_self _ _).trans (exec_cleanWholeDataCache_kept e).toHeld
theorem exec_cleanInvalidateWholeDataCache_holds (t : _) (m : _) (k : _) (v : _) : ExecHeld (.cleanInvalidateWholeDataCache t m k v) := fun _ _ e =>
  (held_arrive_self _ _).trans (exec_cleanInvalidateWholeDataCache_kept e).toHeld
theorem exec_coreAmo_holds (t : _) (k : _) (addr : _) (op : _) (v : _) : ExecHeld (.coreAmo t k addr op v) := fun _ _ e =>
  (held_arrive_self _ _).trans (exec_coreAmo_quiet e).toHeld
theorem exec_coreLr_holds (t : _) (k : _) (addr : _) : ExecHeld (.coreLr t k addr) := fun _ _ e =>
  (held_arrive_self _ _).trans (exec_coreLr_quiet e).toHeld
theorem exec_coreSc_holds (t : _) (k : _) (addr : _) (v : _) : ExecHeld (.coreSc t k addr v) := fun _ _ e =>
  (held_arrive_self _ _).trans (exec_coreSc_quiet e).toHeld
theorem exec_coreReset_holds (t : _) (m : _) (k : _) (v : _) : ExecHeld (.coreReset t m k v) := fun _ _ e =>
  (held_arrive_self _ _).trans (exec_coreReset_kept e).toHeld
theorem exec_coreInReset_holds (t : _) (k : _) : ExecHeld (.coreInReset t k) := fun _ _ e =>
  (held_arrive_self _ _).trans (exec_coreInReset_kept e).toHeld
theorem exec_coreRelease_holds (t : _) (m : _) (k : _) (v : _) : ExecHeld (.coreRelease t m k v) := fun _ _ e =>
  (held_arrive_self _ _).trans (exec_coreRelease_kept e).toHeld
theorem exec_wdCtrlWrite_holds (t : _) (m : _) (k : _) (v : _) : ExecHeld (.wdCtrlWrite t m k v) := fun _ _ e =>
  (held_arrive_self _ _).trans (exec_wdCtrlWrite_kept e).toHeld
theorem exec_wdKick_holds (t : _) (m : _) (k : _) (v : _) : ExecHeld (.wdKick t m k v) := fun _ _ e =>
  (held_arrive_self _ _).trans (exec_wdKick_kept e).toHeld
theorem exec_watchdogExpiry_holds (t : _) (k : _) : ExecHeld (.watchdogExpiry t k) := fun _ _ e =>
  (held_arrive_self _ _).trans (exec_watchdogExpiry_kept e).toHeld
theorem exec_mtip_holds (t : _) (k : _) : ExecHeld (.mtip t k) := fun _ _ e =>
  (held_arrive_self _ _).trans (exec_mtip_quiet e).toHeld
theorem exec_mtimeRead_holds (t : _) (m : _) : ExecHeld (.mtimeRead t m) := fun _ _ e =>
  (held_arrive_self _ _).trans (exec_mtimeRead_kept e).toHeld
theorem exec_scrubBeat_holds (t : _) : ExecHeld (.scrubBeat t) := fun _ _ e =>
  (held_arrive_self _ _).trans (exec_scrubBeat_quiet e).toHeld
theorem exec_arbTwaitClr_holds (t : _) (m : _) (v : _) : ExecHeld (.arbTwaitClr t m v) := fun _ _ e =>
  (held_arrive_self _ _).trans (exec_arbTwaitClr_kept e).toHeld
theorem exec_schedPeakClr_holds (t : _) (m : _) (v : _) : ExecHeld (.schedPeakClr t m v) := fun _ _ e =>
  (held_arrive_self _ _).trans (exec_schedPeakClr_kept e).toHeld
theorem exec_faultEvent_holds (t : _) (wires : _) : ExecHeld (.faultEvent t wires) := fun _ _ e =>
  (held_arrive_self _ _).trans (exec_faultEvent_held e)
theorem exec_parityError_holds (t : _) : ExecHeld (.parityError t) := fun _ _ e =>
  (held_arrive_self _ _).trans (exec_parityError_held e)
theorem exec_safeEnter_holds (t : _) (m : _) (v : _) : ExecHeld (.safeEnter t m v) := fun _ _ e =>
  (held_arrive_self _ _).trans (exec_safeEnter_held e)
theorem exec_safeExit_holds (t : _) (m : _) (v : _) : ExecHeld (.safeExit t m v) := fun _ _ e =>
  (held_arrive_self _ _).trans (exec_safeExit_held e)
theorem exec_fcTkeyWrite_holds (t : _) (m : _) (v : _) : ExecHeld (.fcTkeyWrite t m v) := fun _ _ e =>
  (held_arrive_self _ _).trans (exec_fcTkeyWrite_kept e).toHeld
theorem exec_fcLock_holds (t : _) (m : _) (v : _) : ExecHeld (.fcLock t m v) := fun _ _ e =>
  (held_arrive_self _ _).trans (exec_fcLock_kept e).toHeld
theorem exec_fcFirstClr_holds (t : _) (m : _) (v : _) : ExecHeld (.fcFirstClr t m v) := fun _ _ e =>
  (held_arrive_self _ _).trans (exec_fcFirstClr_kept e).toHeld
theorem exec_fcFirstRead_holds (t : _) (m : _) : ExecHeld (.fcFirstRead t m) := fun _ _ e =>
  (held_arrive_self _ _).trans (exec_fcFirstRead_kept e).toHeld
theorem exec_fcTrailRead_holds (t : _) (m : _) (r : _) : ExecHeld (.fcTrailRead t m r) := fun _ _ e =>
  (held_arrive_self _ _).trans (exec_fcTrailRead_kept e).toHeld
theorem exec_fcSafeTRead_holds (t : _) (m : _) : ExecHeld (.fcSafeTRead t m) := fun _ _ e =>
  (held_arrive_self _ _).trans (exec_fcSafeTRead_kept e).toHeld
theorem exec_supplyExcursion_holds (t : _) (rail : _) : ExecHeld (.supplyExcursion t rail) := fun _ _ e =>
  (held_arrive_self _ _).trans (exec_supplyExcursion_quiet e).toHeld
theorem exec_temperatureThreshold_holds (t : _) (upper : _) (above : _) : ExecHeld (.temperatureThreshold t upper above) := fun _ _ e =>
  (held_arrive_self _ _).trans (exec_temperatureThreshold_quiet e).toHeld
theorem exec_powerOnReset_holds (t : _) : ExecHeld (.powerOnReset t) := fun _ _ e =>
  (held_arrive_self _ _).trans (exec_powerOnReset_held e)
theorem exec_powerOnRelease_holds (t : _) (bank33 : _) : ExecHeld (.powerOnRelease t bank33) := fun _ _ e =>
  (held_arrive_self _ _).trans (exec_powerOnRelease_held e)
theorem exec_resetN_holds (t : _) (width : _) : ExecHeld (.resetN t width) := fun _ _ e =>
  (held_arrive_self _ _).trans (exec_resetN_held e)
theorem exec_perstN_holds (t : _) (level : _) : ExecHeld (.perstN t level) := fun _ _ e =>
  (held_arrive_self _ _).trans (exec_perstN_held e)
theorem exec_flr_holds (t : _) : ExecHeld (.flr t) := fun _ _ e =>
  (held_arrive_self _ _).trans (exec_flr_held e)
theorem exec_funcReset_holds (t : _) (m : _) (v : _) : ExecHeld (.funcReset t m v) := fun _ _ e =>
  (held_arrive_self _ _).trans (exec_funcReset_held e)
theorem exec_functionResetReady_holds (t : _) : ExecHeld (.functionResetReady t) := fun _ _ e =>
  (held_arrive_self _ _).trans (exec_functionResetReady_held e)
theorem exec_devtimeRead_holds (t : _) (m : _) : ExecHeld (.devtimeRead t m) := fun _ _ e =>
  (held_arrive_self _ _).trans (exec_devtimeRead_kept e).toHeld
theorem exec_bootImageCheck_holds (t : _) (source : _) (image : _) (slow : _) : ExecHeld (.bootImageCheck t source image slow) := fun _ _ e =>
  (held_arrive_self _ _).trans (exec_bootImageCheck_held e)
theorem exec_bootHostGo_holds (t : _) (m : _) (v : _) : ExecHeld (.bootHostGo t m v) := fun _ _ e =>
  (held_arrive_self _ _).trans (exec_bootHostGo_held e)
theorem exec_bootFuseCmd_holds (t : _) (m : _) (v : _) : ExecHeld (.bootFuseCmd t m v) := fun _ _ e =>
  (held_arrive_self _ _).trans (exec_bootFuseCmd_held e)
theorem exec_fuseProgramComplete_holds (t : _) (readBack : _) : ExecHeld (.fuseProgramComplete t readBack) := fun _ _ e =>
  (held_arrive_self _ _).trans (exec_fuseProgramComplete_held e)
theorem exec_svcRead_holds (t : _) (ofs : _) (n : _) : ExecHeld (.svcRead t ofs n) := fun _ _ e =>
  (held_arrive_self _ _).trans (exec_svcRead_held e)
theorem exec_svcMbSend_holds (t : _) (b : _) (words : _) : ExecHeld (.svcMbSend t b words) := fun _ _ e =>
  (held_arrive_self _ _).trans (exec_svcMbSend_held e)
theorem exec_svcMbAck_holds (t : _) (b : _) (rc : _) : ExecHeld (.svcMbAck t b rc) := fun _ _ e =>
  (held_arrive_self _ _).trans (exec_svcMbAck_held e)
theorem exec_svcStage_holds (t : _) (ofs : _) (bytes : _) : ExecHeld (.svcStage t ofs bytes) := fun _ _ e =>
  (held_arrive_self _ _).trans (exec_svcStage_held e)
theorem exec_svcCommit_holds (t : _) (stamp : _) (tag : _) (v : _) : ExecHeld (.svcCommit t stamp tag v) := fun _ _ e =>
  (held_arrive_self _ _).trans (exec_svcCommit_held e)
theorem exec_svcFuse_holds (t : _) (digest : _) : ExecHeld (.svcFuse t digest) := fun _ _ e =>
  (held_arrive_self _ _).trans (exec_svcFuse_held e)
theorem exec_svcCoreReset_holds (t : _) (k : _) (v : _) : ExecHeld (.svcCoreReset t k v) := fun _ _ e =>
  (held_arrive_self _ _).trans (exec_svcCoreReset_held e)
theorem exec_tcmaData_holds (t : _) (m : _) (w : _) : ExecHeld (.tcmaData t m w) := fun _ _ e =>
  (held_arrive_self _ _).trans (exec_tcmaData_held e)
theorem exec_registerWrite_holds (t : _) (m : _) (ofs : _) (be : _) (v : _) : ExecHeld (.registerWrite t m ofs be v) := fun _ _ e =>
  (held_arrive_self _ _).trans (exec_registerWrite_held e)
theorem exec_pulseTrailingEdge_holds (t : _) (u : _) : ExecHeld (.pulseTrailingEdge t u) := fun _ _ e =>
  (held_arrive_self _ _).trans (exec_pulseTrailingEdge_quiet e).toHeld
theorem exec_positionEdge_holds (t : _) (u : _) : ExecHeld (.positionEdge t u) := fun _ _ e =>
  (held_arrive_self _ _).trans (exec_positionEdge_quiet e).toHeld
theorem exec_fqCiReadComplete_holds (t : _) (d : _) (h : _) : ExecHeld (.fqCiReadComplete t d h) := fun _ _ e =>
  (held_arrive_self _ _).trans (exec_fqCiReadComplete_quiet e).toHeld
theorem exec_pcieLinkChange_holds (t : _) (up : _) (cfg : _) : ExecHeld (.pcieLinkChange t up cfg) := fun _ _ e =>
  (held_arrive_self _ _).trans (exec_pcieLinkChange_quiet e).toHeld
theorem exec_ptpMessageTx_holds (t : _) (p : _) (kind : _) : ExecHeld (.ptpMessageTx t p kind) := fun _ _ e =>
  (held_arrive_self _ _).trans (exec_ptpMessageTx_quiet e).toHeld
theorem exec_mainsCrossingTimeout_holds (t : _) (ix : _) : ExecHeld (.mainsCrossingTimeout t ix) := fun _ _ e =>
  (held_arrive_self _ _).trans (exec_mainsCrossingTimeout_kept e).toHeld
theorem exec_coreWfi_holds (t : _) (k : _) : ExecHeld (.coreWfi t k) := fun _ _ e =>
  (held_arrive_self _ _).trans (exec_coreWfi_kept e).toHeld
theorem exec_coreSramAccess_holds (t : _) (k : _) (addr : _) (op : _) : ExecHeld (.coreSramAccess t k addr op) := fun _ _ e =>
  (held_arrive_self _ _).trans (exec_coreSramAccess_quiet e).toHeld
theorem exec_bar4Access_holds (t : _) (ofs : _) (len : _) (w : _) : ExecHeld (.bar4Access t ofs len w) := fun _ _ e =>
  (held_arrive_self _ _).trans (exec_bar4Access_kept e).toHeld
theorem exec_servicePortAttach_holds (t : _) : ExecHeld (.servicePortAttach t) := fun _ _ e =>
  (held_arrive_self _ _).trans (exec_servicePortAttach_held e)

theorem execHeld_all (c : Instr) : ExecHeld c :=
  Instr.rec (motive := ExecHeld)
    exec_incrementalStep_holds
    exec_zLoad_holds
    exec_serialFrameStart_holds
    exec_serialFrameEnd_holds
    exec_mainsCrossing_holds
    exec_mainsPhaseStep_holds
    exec_timeStep_holds
    exec_syntheticStep_holds
    exec_mirrorPhaseStep_holds
    exec_mirrorTimeout_holds
    exec_standstill_holds
    exec_cellCtrlWrite_holds
    exec_cellModWrite_holds
    exec_loadGo_holds
    exec_synRateCommit_holds
    exec_mirrorOfsCommit_holds
    exec_posFtRead_holds
    exec_cmpCtrlWrite_holds
    exec_cmpValueWrite_holds
    exec_cmpFtRead_holds
    exec_captureEdge_holds
    exec_capCtrlWrite_holds
    exec_capPop_holds
    exec_cellRelease_holds
    exec_cellHold_holds
    exec_startTRead_holds
    exec_coreDebugHalt_holds
    exec_coreDebugResume_holds
    exec_frzTRead_holds
    exec_groupFetch_holds
    exec_read_holds
    exec_write_holds
    exec_flush_holds
    exec_load_holds
    exec_setMod_holds
    exec_setRate_holds
    exec_sense_holds
    exec_move_holds
    exec_fill_holds
    exec_compare_holds
    exec_gather_holds
    exec_tic_holds
    exec_ticc_holds
    exec_waitTime_holds
    exec_waitTimeExpiry_holds
    exec_waitPosition_holds
    exec_waitUnit_holds
    exec_waitCompare_holds
    exec_waitComplete_holds
    exec_waitTimeout_holds
    exec_glade_holds
    exec_gladeComplete_holds
    exec_signalLevel_holds
    exec_signalPulse_holds
    exec_signalPattern_holds
    exec_patternEdge_holds
    exec_slotReserve_holds
    exec_armCompare_holds
    exec_armCapture_holds
    exec_lock_holds
    exec_unlock_holds
    exec_lockAbandoned_holds
    exec_cas_holds
    exec_mark_holds
    exec_nop_holds
    exec_schedEntryGrant_holds
    exec_stagingBegin_holds
    exec_commit_holds
    exec_patternEdgeCommit_holds
    exec_placementLock_holds
    exec_effect_holds
    exec_limitExpiry_holds
    exec_moverGrant_holds
    exec_unitAdvertise_holds
    exec_burstEnd_holds
    exec_hostReadCompletion_holds
    exec_completionTimeout_holds
    exec_moverPeakClr_holds
    exec_moverBytesRead_holds
    exec_mvStateRead_holds
    exec_start_holds
    exec_halt_holds
    exec_suspend_holds
    exec_resume_holds
    exec_clear_holds
    exec_modify_holds
    exec_storeStatus_holds
    exec_drainComplete_holds
    exec_ctxStateRead_holds
    exec_wqDoorbell_holds
    exec_pushSlotWrite_holds
    exec_wqPiReadComplete_holds
    exec_entryServe_holds
    exec_createWq_holds
    exec_destroyWq_holds
    exec_enableWq_holds
    exec_disableWq_holds
    exec_disableComplete_holds
    exec_createEq_holds
    exec_destroyEq_holds
    exec_bind_holds
    exec_setPrio_holds
    exec_adminCfgWrite_holds
    exec_eqDoorbell_holds
    exec_eqCiReadComplete_holds
    exec_heldRecordPost_holds
    exec_wqPiRead_holds
    exec_eqResRead_holds
    exec_tableReadComplete_holds
    exec_xlInvGo_holds
    exec_invalidationComplete_holds
    exec_domCtrlWrite_holds
    exec_fqDb_holds
    exec_fqCfgWrite_holds
    exec_parkPeakClr_holds
    exec_xlHitRead_holds
    exec_fqPiRead_holds
    exec_coreWindowAccess_holds
    exec_cwCtrlWrite_holds
    exec_maxOn_holds
    exec_duty_holds
    exec_permit_holds
    exec_budgetWindowStart_holds
    exec_ouEdgeRead_holds
    exec_commitFence_holds
    exec_commitConduct_holds
    exec_commitIdentity_holds
    exec_commitComplete_holds
    exec_lwsStageWrite_holds
    exec_serviceEnQualify_holds
    exec_portCtrlWrite_holds
    exec_portDisableComplete_holds
    exec_linkChange_holds
    exec_frameReceive_holds
    exec_rsCtrlWrite_holds
    exec_streamDisableComplete_holds
    exec_placementGap_holds
    exec_txqCtrlWrite_holds
    exec_frameTransmit_holds
    exec_ptpMessageRx_holds
    exec_holdover_holds
    exec_ptpNowRead_holds
    exec_cycleStart_holds
    exec_snapshot_holds
    exec_cyclic_holds
    exec_yazenFrameRx_holds
    exec_forwardDrop_holds
    exec_ownFrameDrop_holds
    exec_lineStop_holds
    exec_lineStopRepeat_holds
    exec_msixIssue_holds
    exec_cicDeliver_holds
    exec_cicPendWrite_holds
    exec_cicPclrWrite_holds
    exec_cicClaim_holds
    exec_cicComplete_holds
    exec_undRest_holds
    exec_restEntry_holds
    exec_restEntryTimeout_holds
    exec_wakeEvent_holds
    exec_undTimerExpiry_holds
    exec_wakeComplete_holds
    exec_undWtRead_holds
    exec_mbSend_holds
    exec_mbAck_holds
    exec_mbTimeout_holds
    exec_mbBindWrite_holds
    exec_mbLock_holds
    exec_usbBusReset_holds
    exec_cleanDataLines_holds
    exec_invalidateDataLines_holds
    exec_cleanInvalidateDataLines_holds
    exec_invalidateInstructionLines_holds
    exec_cleanWholeDataCache_holds
    exec_cleanInvalidateWholeDataCache_holds
    exec_coreAmo_holds
    exec_coreLr_holds
    exec_coreSc_holds
    exec_coreReset_holds
    exec_coreInReset_holds
    exec_coreRelease_holds
    exec_wdCtrlWrite_holds
    exec_wdKick_holds
    exec_watchdogExpiry_holds
    exec_mtip_holds
    exec_mtimeRead_holds
    exec_scrubBeat_holds
    exec_arbTwaitClr_holds
    exec_schedPeakClr_holds
    exec_faultEvent_holds
    exec_parityError_holds
    exec_safeEnter_holds
    exec_safeExit_holds
    exec_fcTkeyWrite_holds
    exec_fcLock_holds
    exec_fcFirstClr_holds
    exec_fcFirstRead_holds
    exec_fcTrailRead_holds
    exec_fcSafeTRead_holds
    exec_supplyExcursion_holds
    exec_temperatureThreshold_holds
    exec_powerOnReset_holds
    exec_powerOnRelease_holds
    exec_resetN_holds
    exec_perstN_holds
    exec_flr_holds
    exec_funcReset_holds
    exec_functionResetReady_holds
    exec_devtimeRead_holds
    exec_bootImageCheck_holds
    exec_bootHostGo_holds
    exec_bootFuseCmd_holds
    exec_fuseProgramComplete_holds
    exec_svcRead_holds
    exec_svcMbSend_holds
    exec_svcMbAck_holds
    exec_svcStage_holds
    exec_svcCommit_holds
    exec_svcFuse_holds
    exec_svcCoreReset_holds
    exec_tcmaData_holds
    exec_registerWrite_holds
    exec_pulseTrailingEdge_holds
    exec_positionEdge_holds
    exec_fqCiReadComplete_holds
    exec_pcieLinkChange_holds
    exec_ptpMessageTx_holds
    exec_mainsCrossingTimeout_holds
    exec_coreWfi_holds
    exec_coreSramAccess_holds
    exec_bar4Access_holds
    exec_servicePortAttach_holds c

/-- Whatever the command, a step keeps the queue and the canonical form of the memories. -/
theorem exec_held {c : Instr} {s u : State} (e : exec c s = .next u) : Held s u := execHeld_all c s u e

end Sys2Proof.Machine
end

