-- ==== Sys2Proof/Laws/Registers.lean ====
section
/-! SUPPORT. Which register block an offset of BAR0 lies in. -/

namespace Sys2Proof.Machine

theorem Block.has_iff (b : Block) (o : Nat) : b.has o = true ↔ b.base ≤ o ∧ o < b.base + b.stride * b.count := by
  unfold Block.has; rw [Bool.and_eq_true]; exact and_congr decide_eq_true_iff decide_eq_true_iff

theorem has_no (b : Block) (o : Nat) (h : ¬(b.base ≤ o ∧ o < b.base + b.stride * b.count)) : b.has o = false := by
  rw [← Bool.not_eq_true, Block.has_iff]; exact h

end Sys2Proof.Machine
end

