-- ==== Sys2Proof/Laws/Twice.lean ====
section
/-! SUPPORT. The second of two writes to one key of a sparse table stands alone, and so does the second write of one block of the state. -/

namespace Sys2Proof.Machine

theorem tdel_tins {α : Type} (t : Tab α) (k : Nat) (v : α) : tdel k (tins k v t) = tdel k t := by
  induction t with
  | nil => simp [tins, tdel]
  | cons p r ih =>
    obtain ⟨j, w⟩ := p
    simp only [tins]
    split
    · simp [tdel]
    · simp only [tdel] at ih ⊢
      simp only [List.filter_cons, ih]

theorem tdel_tdel {α : Type} (t : Tab α) (k : Nat) : tdel k (tdel k t) = tdel k t := by simp [tdel]

@[simp] theorem tput_tput {α : Type} [DecidableEq α] (d : α) (t : Tab α) (k : Nat) (v w : α) :
    tput d (tput d t k v) k w = tput d t k w := by
  have : tdel k (tput d t k v) = tdel k t := by
    unfold tput
    split
    · exact tdel_tdel t k
    · rw [tdel_tins, tdel_tdel]
  unfold tput at this ⊢
  rw [this]

section
variable (s : State)

@[simp] theorem State.setCell_setCell (n : Nat) (x y : Cell) : (s.setCell n x).setCell n y = s.setCell n y := by simp [State.setCell]
@[simp] theorem State.setEnc_setEnc (n : Nat) (x y : EncGroup) : (s.setEnc n x).setEnc n y = s.setEnc n y := by simp [State.setEnc]
@[simp] theorem State.setSer_setSer (n : Nat) (x y : SerIf) : (s.setSer n x).setSer n y = s.setSer n y := by simp [State.setSer]
@[simp] theorem State.setMainsIn_setMainsIn (n : Nat) (x y : MainsIn) : (s.setMainsIn n x).setMainsIn n y = s.setMainsIn n y := by simp [State.setMainsIn]
@[simp] theorem State.setCmp_setCmp (n : Nat) (x y : Cmp) : (s.setCmp n x).setCmp n y = s.setCmp n y := by simp [State.setCmp]
@[simp] theorem State.setCap_setCap (n : Nat) (x y : Cap) : (s.setCap n x).setCap n y = s.setCap n y := by simp [State.setCap]
@[simp] theorem State.setChan_setChan (n : Nat) (x y : Chan) : (s.setChan n x).setChan n y = s.setChan n y := by simp [State.setChan]
@[simp] theorem State.setWq_setWq (n : Nat) (x y : WQ) : (s.setWq n x).setWq n y = s.setWq n y := by simp [State.setWq]
@[simp] theorem State.setEq_setEq (n : Nat) (x y : EQ) : (s.setEq n x).setEq n y = s.setEq n y := by simp [State.setEq]
@[simp] theorem State.setDom_setDom (n : Nat) (x y : Dom) : (s.setDom n x).setDom n y = s.setDom n y := by simp [State.setDom]
@[simp] theorem State.setFq_setFq (n : Nat) (x y : FQ) : (s.setFq n x).setFq n y = s.setFq n y := by simp [State.setFq]
@[simp] theorem State.setWin_setWin (n : Nat) (x y : CoreWin) : (s.setWin n x).setWin n y = s.setWin n y := by simp [State.setWin]
@[simp] theorem State.setOu_setOu (n : Nat) (x y : OutUnit) : (s.setOu n x).setOu n y = s.setOu n y := by simp [State.setOu]
@[simp] theorem State.setPin_setPin (n : Nat) (x y : Pin) : (s.setPin n x).setPin n y = s.setPin n y := by simp [State.setPin]
@[simp] theorem State.setPermitIn_setPermitIn (n : Nat) (x y : Permit) : (s.setPermitIn n x).setPermitIn n y = s.setPermitIn n y := by simp [State.setPermitIn]
@[simp] theorem State.setPort_setPort (n : Nat) (x y : Port) : (s.setPort n x).setPort n y = s.setPort n y := by simp [State.setPort]
@[simp] theorem State.setTxq_setTxq (n : Nat) (x y : TxQ) : (s.setTxq n x).setTxq n y = s.setTxq n y := by simp [State.setTxq]
@[simp] theorem State.setStream_setStream (n : Nat) (x y : Stream) : (s.setStream n x).setStream n y = s.setStream n y := by simp [State.setStream]
@[simp] theorem State.setVec_setVec (n : Nat) (x y : Msix) : (s.setVec n x).setVec n y = s.setVec n y := by simp [State.setVec]
@[simp] theorem State.setCic_setCic (n : Nat) (x y : CicSrc) : (s.setCic n x).setCic n y = s.setCic n y := by simp [State.setCic]
@[simp] theorem State.setMb_setMb (n : Nat) (x y : Mbox) : (s.setMb n x).setMb n y = s.setMb n y := by simp [State.setMb]
@[simp] theorem State.setCore_setCore (n : Nat) (x y : Machine.Core) : (s.setCore n x).setCore n y = s.setCore n y := by simp [State.setCore]

end

end Sys2Proof.Machine
end

