-- ==== Sys2Proof/WellFormed.lean ====
section
/-! DEFINITION. Well-formed commands: limits of operands that the operand types do not carry. -/

namespace Sys2Proof

/-- R268, R286: an address of a queue entry has 48 bits. -/
def addr48 (a : Nat) : Bool := decide (a < 2 ^ 48)

/-- R450: a core loads and stores 1, 2 or 4 bytes. -/
def widthOk : CoreOp → Bool
  | .fetch => true
  | .load w => w = 1 || w = 2 || w = 4
  | .store w _ => w = 1 || w = 2 || w = 4

/-- The raw transitions of a pin stand in order of time. -/
def inOrder (l : List Time) : Bool := decide (l.Pairwise (· ≤ ·))

/-- R40: a frame of the serial interface has at most 64 bits to keep. -/
def WellFormed : Instr → Bool
  | .incrementalStep _ _ a b _ => inOrder a && inOrder b
  | .zLoad _ _ z => inOrder (z.map (·.1))
  | .mainsCrossing _ _ l => inOrder (l.map (·.1))
  | .captureEdge _ _ _ l => inOrder l
  | .permit _ _ l => inOrder (l.map (·.1))
  | .serviceEnQualify _ l => inOrder (l.map (·.1))
  | .serialFrameEnd _ _ _ n _ _ => decide (n ≤ 64)
  | .start _ _ _ _ addr => addr48 addr
  | .modify _ _ _ _ addr _ _ => addr48 addr
  | .storeStatus _ _ _ _ addr => addr48 addr
  | .createWq _ _ _ base size _ _ => addr48 base && decide (size < 32)
  | .createEq _ _ _ base size _ _ vec => addr48 base && decide (size < 32) && decide (vec < 2048)
  | .pushSlotWrite _ _ _ ofs bytes => decide (ofs + bytes.length ≤ 64) && decide (0 < bytes.length)
  | .registerWrite _ _ ofs _ _ => decide (ofs % 4 = 0) && decide (ofs < 0x400000)
  | .svcStage _ ofs bytes => decide (ofs + bytes.length ≤ 2432)
  | .svcMbSend _ _ words => decide (words.length ≤ 8)
  | .bar4Access _ ofs len w => decide (ofs + len ≤ 0x2000000) && (match w with | some b => b.length == len | none => true)
  | .coreWindowAccess _ _ _ op _ => widthOk op
  | .coreSramAccess _ _ _ op => widthOk op
  | _ => true

end Sys2Proof
end

