-- ==== Sys2Proof/Tests/Slice0.lean ====
section
/-! SUPPORT. Tests: for each statement a state and operands that meet its hypotheses, clause by clause, with a field or two of what the step gives;
and an ill-formed command for each check of `WellFormed`. Expected values are the spec's own figures or worked by hand from its rules. -/

namespace Sys2Proof.Tests

open Sys2Proof Sys2Proof.Machine

-- one test at a time: each waits for the kernel, and a thread for each would be too many
set_option Elab.async false

/-- The state a command leads to. -/
def after (r : Res) : State := match r with | .next u => u | _ => State.reset

/-- Reset, with one counter cell as given. -/
def lab (n : Nat) (c : Cell) : State := State.reset.setCell n c

/-! ## Counter cells -/

/-- R33, R35: with F = 4 and D = 1, a level from 3 on is sampled in cycles 1 to 4: accepted in cycle 4, stamped 3; three samples of it are not
enough; the old level, sampled, ends a run. -/
def pinUp : Filt := { raw := true, rawT := 3 }
theorem test_filter : (pinUp.sample 1 4 false 4).2 = some (4, 3) ∧ (pinUp.sample 1 4 false 3).2 = none ∧ ((pinUp.sample 1 4 false 3).1).run = 3 ∧
    (({ run := 2 } : Filt).sample 1 4 false 1).1.run = 0 ∧ (pinUp.sample 2 2 false 5).2 = some (4, 3) := by decide +kernel

/-- R38: A rising with B low is +1; R57: from the last phase the lap ends; −1 with DIR_INV. The modulus is 4096 (18_worked_line.md). With FILT 0
and SDIV 0 a level that stands from 7 on is accepted in cycle 1. -/
def encLab : State := ((lab 5 { ctrl := 0x33, mod := 4096, phase := 4095, turn := 7 }).setCell 6 { ctrl := 0x133, mod := 4096 }).setEnc 3 { ctrl := 0 }
def upA : Instr := .incrementalStep 8 3 [7] [] (true, true)
theorem test_encoder_step : edges true [7, 9] = [(7, true), (9, false)] ∧ encLab.up = true ∧ (encLab.cell 5).mode = 1 ∧ (encLab.cell 5).src = 3 ∧ encLab.running 5 = true ∧
    (Filt.feed 1 1 8 [(7, true)] false {}).2 = [⟨1, true, 7⟩] ∧ (Filt.feed 1 1 8 [] false {}).2 = [] ∧ decodeAB 0 false false true false = 1 ∧
    (4095 : Nat) < (encLab.cell 5).modFor 8 ∧ ((after (exec upA encLab)).cell 5).phase = 0 ∧
    ((after (exec upA encLab)).cell 5).turn = 8 ∧ ((after (exec upA encLab)).cell 6).phase = 4095 ∧
    ((after (exec (.incrementalStep 8 3 [] [] (true, true)) encLab)).cell 5).phase = 4095 := by decide +kernel

/-- R550: both inputs at once make no step. R57 outside the modulus: a phase of 10 with MOD 4 ends the lap. -/
theorem test_encoder_both : (Filt.feed 1 1 8 [(6, true)] false {}).2 = [⟨1, true, 6⟩] ∧
    ((after (exec (.incrementalStep 8 3 [7] [6] (true, true)) encLab)).cell 5).quad = 1 ∧
    ((after (exec (.incrementalStep 8 3 [7] [6] (true, true)) encLab)).cell 5).phase = 4095 := by decide +kernel
def shortLab : State := (lab 5 { ctrl := 0x33, mod := 4, phase := 10 }).setEnc 3 { ctrl := 0 }
theorem test_encoder_short_lap : (shortLab.cell 5).modFor 8 ≤ (shortLab.cell 5).phase.toNat ∧
    ((after (exec upA shortLab)).cell 5).phase = 0 ∧
    ((after (exec (.incrementalStep 8 3 [] [7] (true, true)) shortLab)).cell 5).phase = 3 := by decide +kernel

/-- R39, R62: ENC_ZPHASE one below the modulus loads, at the modulus it is rejected. -/
def zLab (z : Word) (mode : Word) : State := (lab 5 { ctrl := 0x33, mod := 8, phase := 2 }).setEnc 3 { ctrl := 8 ||| mode, zphase := z }
def upZ : Instr := .zLoad 8 3 [(7, true)]
theorem test_z_load : (zLab 7 0x20).up = true ∧ ((zLab 7 0x20).enc 3).sdiv = 1 ∧ ((zLab 7 0x20).enc 3).filtN = 1 ∧
    ((!((zLab 7 0x20).enc 3).z && true && bit ((zLab 7 0x20).enc 3).ctrl 3 && fld ((zLab 7 0x20).enc 3).ctrl 4 2 == 2) = true) ∧
    ((zLab 7 0x20).enc 3).zphase.toNat < ((zLab 7 0x20).cell 5).modN ∧ ((zLab 8 0x10).cell 5).modN ≤ ((zLab 8 0x10).enc 3).zphase.toNat ∧
    ((after (exec upZ (zLab 7 0x20))).cell 5).phase = 7 ∧ ((after (exec upZ (zLab 8 0x10))).cell 5).phase = 2 ∧
    bit ((after (exec upZ (zLab 8 0x10))).cell 5).flags 15 = true ∧
    (after (exec (.zLoad 8 3 []) (zLab 7 0x20))).cell 5 = (zLab 7 0x20).cell 5 := by decide +kernel

/-- R49: divider 3 steps at cycle 3. R51: a rate of 2^30 counts (0.25 a cycle) steps every fourth cycle. -/
def selfLab : State := ((lab 1 { ctrl := 0x9, div := 3, divAct := 3, est := .exact }).setCell 2 { ctrl := 0xD, rate := 0x40000000, est := .exact })
theorem test_self_steps : selfLab.up = true ∧ selfLab.running 1 = true ∧ (selfLab.cell 1).mode = 4 ∧
    (selfLab.cell 1).origin + 8 * zero32 (selfLab.cell 1).divAct = 24 ∧ selfLab.running 2 = true ∧ (selfLab.cell 2).mode = 6 ∧
    (selfLab.cell 2).synCycles = some 4 ∧ ((after (exec (.timeStep 24 1) selfLab)).cell 1).phase = 1 ∧
    ((after (exec (.timeStep 23 1) selfLab)).cell 1).phase = 0 ∧ ((after (exec (.syntheticStep 32 2) selfLab)).cell 2).phase = 1 ∧
    ((after (exec (.syntheticStep 31 2) selfLab)).cell 2).phase = 0 := by decide +kernel

/-- R47, R54: a model of one count in 8000 ticks. At phase 99 of 100 no count is left before the crossing. -/
def predLab : State :=
  ((lab 3 { ctrl := 0x7, mod := 100, est := .linear, hist := [⟨8000, 2⟩, ⟨0, 0⟩], odo := 1, phase := 1, lastT := some 8000 })).setCell 7
    { ctrl := 0xF, mod := 100, est := .linear, hist := [⟨8000, 2⟩, ⟨0, 0⟩], odo := 1, phase := 1, mirOdo := 1, dir := 0 }
theorem test_predicted_steps : predLab.up = true ∧ predLab.running 3 = true ∧ (predLab.cell 3).mode = 3 ∧
    (predLab.cell 3).modelCount 16000 = some 2 ∧ (predLab.cell 3).lapRoom = 98 ∧ ({ mod := 100, phase := 99 } : Cell).lapRoom = 0 ∧
    ({ ctrl := 0x107, mod := 100, phase := 99 } : Cell).lapRoom = -98 ∧ ({ ctrl := 0x107, mod := 100, phase := 0 } : Cell).lapRoom = -99 ∧
    predLab.running 7 = true ∧ (predLab.cell 7).mode = 7 ∧ (predLab.cell 7).dir = 0 ∧
    (∃ m, (predLab.cell 7).model = some m ∧ m.pos 16000 / oneCount - (predLab.cell 7).odo = 1) ∧
    ((after (exec (.mainsPhaseStep 16000 3) predLab)).cell 3).phase = 2 ∧
    ((after (exec (.mainsPhaseStep 16000 3) predLab)).cell 3).lastT = some 8000 ∧
    ((after (exec (.mirrorPhaseStep 16000 7) predLab)).cell 7).phase = 2 := by
  refine ⟨by decide, by decide +kernel, by decide, by decide +kernel, by decide +kernel, by decide +kernel, by decide +kernel, by decide +kernel,
    by decide +kernel, by decide, by decide, ⟨_, rfl, ?_⟩, ?_⟩ <;> decide +kernel

/-- R41 to R44: SSI of 24 bits; the word 258 after 250 is 8 counts on; a third discarded frame in a row loses the cell. SER_CYCLE is 62.5 µs, or
500 000 units, at reset. -/
def serLab (consec : BitVec 8) : State :=
  (lab 9 { ctrl := 0x5, mod := 100, est := .seeded }).setSer 0 { ctrl := 0x10060, frame := some 0, prev := some 250, consec := consec }
theorem test_serial_frames : (serLab 2).up = true ∧ ((serLab 2).ser 0).run = true ∧ (((serLab 2).ser 0).decode 258 24).complete = true ∧
    ((serLab 2).ser 0).biss = false ∧ serialDelta ((serLab 2).ser 0).bits (((serLab 2).ser 0).decode 258 24).word 250 = 8 ∧
    serialDelta 24 0x800000 0 = 0x800000 ∧ serialDelta 24 0x800001 0 = -0x7FFFFF ∧
    ((serLab 2).cell 9).mode = 2 ∧ (serLab 2).running 9 = true ∧ ((serLab 2).cell 9).initAbs = false ∧
    ((after (exec (.serialFrameEnd 800 0 258 24 false 0) (serLab 2))).cell 9).phase = 8 ∧
    ((after (exec (.serialFrameEnd 800 0 258 24 true 0) (serLab 2))).cell 9).est = .lost ∧
    ((after (exec (.serialFrameEnd 800 0 258 24 true 0) (serLab 1))).cell 9).est = .seeded := by decide +kernel
def idleSer : State := State.reset.setSer 0 { ctrl := 0x10060, due := 800 }
theorem test_serial_cycle : ((serLab 1).ser 0).due ≤ 800 ∧ ((after (exec (.serialFrameStart 800 0) (serLab 1))).ser 0).flags = 0x20 ∧
    ((after (exec (.serialFrameStart 800 0) idleSer)).ser 0).frame = some 800 ∧ ((after (exec (.serialFrameStart 800 0) idleSer)).ser 0).due = 500800 ∧
    after (exec (.serialFrameStart 799 0) idleSer) = idleSer.arrive 799 ∧
    serialDelta ((serLab 2).ser 0).bits (((serLab 2).ser 0).decode 250 24).word 250 = 0 := by decide +kernel
def lostSer : State := (serLab 0).setCell 9 { ctrl := 0x5, mod := 100, est := .lost, phase := 7 }
theorem test_serial_reseed : ((after (exec (.serialFrameEnd 800 0 250 24 false 0) lostSer)).cell 9).est = .seeded ∧
    ((after (exec (.serialFrameEnd 800 0 250 24 false 0) lostSer)).cell 9).phase = 7 ∧
    ((after (exec (.serialFrameEnd 800 0 258 24 true 0) ((serLab 2).modStart fun x => { x with hold := 0x200 }))).cell 9).est = .seeded := by
  decide +kernel
/-- R46: 50 Hz is 160 000 000 units of 125 ps; 70 Hz and beyond is out of range: 114 288 000 is in, one less is out. R57: the lap ends. The
comparator rose at `r` and QUAL is 20 µs, 160 000 units. -/
def mainsLab (l r : Nat) (inv : Word) : State :=
  (lab 3 { ctrl := 0x7 ||| inv, mod := 100, phase := 99, turn := 4 }).setMainsIn 0 { ctrl := 0x1401, lastX := some l, raw := true, rawT := r }
def crossing : Instr := .mainsCrossing 114448000 0 []
theorem test_mains_crossing : (mainsLab 0 114288000 0).up = true ∧ bit ((mainsLab 0 114288000 0).mainsIn 0).ctrl 0 = true ∧
    us (fld ((mainsLab 0 114288000 0).mainsIn 0).ctrl 8 8) = 160000 ∧ ((mainsLab 0 114288000 0).cell 3).mode = 3 ∧
    (mainsLab 0 114288000 0).running 3 = true ∧ ((mainsLab 0 114288000 0).cell 3).phase.toNat < ((mainsLab 0 0 0).cell 3).modFor 114448000 ∧
    ((after (exec crossing (mainsLab 0 114288000 0))).mainsIn 0).range = false ∧
    ((after (exec crossing (mainsLab 0 114287999 0))).mainsIn 0).range = true ∧
    ((after (exec crossing (mainsLab 0 114287999 0))).cell 3).est = .seeded ∧
    ((after (exec crossing (mainsLab 0 114288000 0))).cell 3).turn = 5 ∧ ((after (exec crossing (mainsLab 0 114288000 0x100))).cell 3).turn = 4 ∧
    ((after (exec crossing (mainsLab 0 114288000 0))).cell 3).lastT = some 114288000 ∧
    ((after (exec crossing (mainsLab 0 114288000 0))).cell 3).phase = 0 ∧
    after (exec (.mainsCrossing 114447999 0 []) (mainsLab 0 114288000 0)) = (mainsLab 0 114288000 0).arrive 114447999 ∧
    ((after (exec (.mainsCrossing 114448009 0 [(114448005, false)]) (after (exec crossing (mainsLab 0 114288000 0))))).mainsIn 0).level = false :=
  by decide +kernel

/-- R55: TIMEOUT is 4 cycles at reset. R69: a standstill limit of 4 × the last interval and at most 0x186A0 µs. -/
def silentLab : State := (lab 7 { ctrl := 0xF, mod := 100, est := .seeded, phase := 3 }).setCell 8
  { ctrl := 0x3, mod := 100, est := .linear, hist := [⟨8000, 2⟩, ⟨0, 0⟩], lastT := some 8000, prevT := some 0, odo := 1, phase := 1 }
theorem test_silence : silentLab.up = true ∧ (silentLab.cell 7).mode = 7 ∧ (silentLab.cell 7).en = true ∧ (silentLab.cell 7).mirOut = false ∧
    silentLab.held 7 = false ∧ silentLab.frozen 7 = false ∧
    (silentLab.cell 7).mirLast + fld (silentLab.cell 7).mirrorSrc 16 8 * silentLab.tCyc = 4 * silentLab.tCyc ∧ silentLab.frozen 8 = false ∧
    (∃ l, (silentLab.cell 8).stillLimit = some l ∧ l < 8000000000 ∧
      ((after (exec (.standstill (l + 1) 8) silentLab)).cell 8).est = .standstill ∧
      ((after (exec (.standstill l 8) silentLab)).cell 8).est = .linear) ∧
    ((after (exec (.mirrorTimeout (4 * silentLab.tCyc) 7) silentLab)).cell 7).est = .lost ∧
    ((after (exec (.mirrorTimeout (4 * silentLab.tCyc) 7) (silentLab.modStart fun x => { x with hold := 0x80 }))).cell 7).est = .seeded ∧
    ((after (exec (.mirrorTimeout (4 * silentLab.tCyc - 1) 7) silentLab)).cell 7).est = .seeded := by
  refine ⟨by decide, by decide, by decide, by decide, by decide +kernel, by decide +kernel, by decide +kernel, by decide +kernel,
    ⟨_, rfl, ?_⟩, ?_⟩ <;> decide +kernel

/-- R52: 10 whole cycles at the old rate of 2^20 are added before the new rate stands. -/
def rateLab : State := lab 2 { ctrl := 0xD, rate := 0x100000, est := .exact, synLo := 5 }
theorem test_rate_commit : rateLab.serves (cellOfs 2 + 0x64) = true ∧ (rateLab.cell 2).mode = 6 ∧ (rateLab.cell 2).est = .exact ∧
    (rateLab.cell 2).pausedAt = none ∧ ((after (exec (.synRateCommit 85 1 2 3) rateLab)).cell 2).rate = 0x300000005 ∧
    ((after (exec (.synRateCommit 85 1 2 3) rateLab)).cell 2).acc = 0xA00000 ∧
    ((after (exec (.synRateCommit 85 1 2 3) rateLab)).cell 2).origin = 80 ∧ rateLab.serves (cellOfs 2 + 0x60) = true ∧
    ((after (exec (.registerWrite 85 1 (cellOfs 2 + 0x60) 15 9) rateLab)).cell 2).rate = 0x100000 := by decide +kernel

/-- R61, R62: a phase one below the modulus loads, the modulus is rejected; without the bit nothing happens. -/
def loadLab (p : Word) : State := lab 4 { ctrl := 0x3, mod := 10, phase := 1, loadPhase := p, loadT := 0xFFFF0000, loadTurnHi := 0xFFFFFFFF }
theorem test_load_go : ((after (exec (.loadGo 8 1 4 1) (loadLab 9))).cell 4).loadAt = some 1 ∧
    ({ est := .linear, loadAt := some 1, frac := 3 } : Cell).fracAt 8 = 0 ∧ (loadLab 9).serves (cellOfs 4 + 0x5C) = true ∧ bit 1 0 = true ∧ ((loadLab 9).cell 4).loadPhase.toNat < ((loadLab 9).cell 4).modN ∧
    ((loadLab 10).cell 4).modN ≤ ((loadLab 10).cell 4).loadPhase.toNat ∧ ((after (exec (.loadGo 8 1 4 1) (loadLab 9))).cell 4).phase = 9 ∧
    ((after (exec (.loadGo 8 1 4 1) (loadLab 9))).cell 4).turn = 0xFFFFFFFFFFFF ∧
    ((after (exec (.loadGo 8 1 4 1) (loadLab 10))).cell 4).phase = 1 ∧ ((after (exec (.loadGo 8 1 4 0) (loadLab 9))).cell 4).phase = 1 := by decide +kernel

/-- R31, R32: EN 0 to 1 starts, a change of MODE while enabled is refused, EN 0 stops. R59: the new modulus counts from the next cycle. -/
theorem test_cell_ctrl : (loadLab 9).serves (cellOfs 4) = true ∧ ((after (exec (.cellCtrlWrite 8 1 4 0x5) (loadLab 9))).cell 4).ctrl = 0x3 ∧
    ((after (exec (.cellCtrlWrite 8 1 4 0x5) (loadLab 9))).cell 4).flags = 0x4000 ∧
    ((after (exec (.cellCtrlWrite 8 1 4 0x2) (loadLab 9))).cell 4).est = .idle ∧
    ((after (exec (.cellCtrlWrite 8 1 9 0x9) State.reset)).cell 9).est = .exact ∧
    (loadLab 9).serves (cellOfs 4 + 4) = true ∧ ((after (exec (.cellModWrite 8 1 4 20) (loadLab 9))).cell 4).modFor 15 = 10 ∧
    ((after (exec (.cellModWrite 8 1 4 20) (loadLab 9))).cell 4).modFor 16 = 20 ∧ (loadLab 9).serves (cellOfs 4 + 0x70) = true ∧
    ((after (exec (.mirrorOfsCommit 8 1 4 2) (loadLab 9))).cell 4).ofs = 0x200000000 := by decide +kernel

/-! ## Compares, captures, global start, debug freeze -/

/-- R80, R94, R97: unit 1 on cell 5, one-shot, up: 0x1401. CHAIN on unit 0 and REPEAT 3 are refused; EN 1 arms; CELL may not change while enabled. -/
def cmpLab : State := ((lab 5 { ctrl := 0x33, mod := 100, phase := 9, est := .seeded }).setEnc 3 { ctrl := 0 }).setCmp 1
  { ctrl := 0x1401, phase := 10, armed := true, fcnt := 4, armedAt := some 0 }
theorem test_cmp_ctrl : cmpLab.serves (cmpOfs 0) = true ∧ cmpLab.serves (cmpOfs 1) = true ∧ (cmpLab.cmp 1).en = true ∧ fld 0x1800 10 6 ≠ (cmpLab.cmp 1).cell ∧
    ((after (exec (.cmpCtrlWrite 8 1 0 0x40) cmpLab)).cmp 0).cfgRej = true ∧ ((after (exec (.cmpCtrlWrite 8 1 2 0x30) cmpLab)).cmp 2).cfgRej = true ∧
    ((after (exec (.cmpCtrlWrite 8 1 1 0x1801) cmpLab)).cmp 1).cfgRej = true ∧ ((after (exec (.cmpCtrlWrite 8 1 2 0x1801) cmpLab)).cmp 2).armed = true ∧
    ((after (exec (.cmpCtrlWrite 8 1 2 0x1841) cmpLab)).cmp 2).armed = false ∧ ((after (exec (.cmpCtrlWrite 8 1 1 0x1400) cmpLab)).cmp 1).armed = false ∧
    ((after (exec (.cmpCtrlWrite 8 1 1 0x1407) cmpLab)).cmp 1).cfgRej = true ∧
    ((after (exec (.cmpCtrlWrite 8 1 1 0x1405) cmpLab)).cmp 1).fcnt = 4 := by decide +kernel
theorem test_cmp_value : cmpLab.serves (cmpOfs 1 + 8) = true ∧ cmpLab.serves (cmpOfs 1 + 4) = true ∧
    ((after (exec (.cmpValueWrite 17 1 1 false 50) cmpLab)).cmp 1).armedAt = some 2 ∧
    ((after (exec (.cmpValueWrite 17 1 1 true 50) cmpLab)).cmp 1).turn = 50 ∧
    ((after (exec (.cmpValueWrite 17 1 2 false 50) cmpLab)).cmp 2).armed = false := by decide +kernel

/-- R81, R85: the step from 9 to 10 passes 10 in cycle 1, after the arming cycle 0; a one-shot unit is then disarmed with EN 0. -/
def stepLab : State := cmpLab.arrive 8
def stepTo10 : StepEv := { cell := 5, k := 1, mod := 100, oldPhase := 9, phase := 10, stamp := 8 }
theorem test_cmp_fires : [stepTo10].find? (fun e => e.cell == (stepLab.cmp 1).cell) = some stepTo10 ∧ (stepLab.cmp 1).en = true ∧
    (stepLab.cmp 1).armed = true ∧ (stepLab.cmp 1).hystWait = false ∧ (stepLab.cmp 1).armedAt = some 0 ∧ 0 < cyc stepLab.now ∧
    stepTo10.count (stepLab.cmp 1).phase.toNat = 1 ∧ stepTo10.qualifies (stepLab.cmp 1).dirQ = true ∧
    (stepLab.cmp 1).phase.toNat < (stepLab.cell (stepLab.cmp 1).cell).modN ∧ (stepLab.cmp 1).turnEn = false ∧ (stepLab.cmp 1).repeat_ = 0 ∧
    ((stepLab.cmpStep [stepTo10] 1).1.cmp 1).fired = true ∧ ((stepLab.cmpStep [stepTo10] 1).1.cmp 1).en = false ∧
    ((after (exec upA cmpLab)).cmp 1).fcnt = 5 ∧
    ((after (exec (.incrementalStep 7 3 [6] [] (true, true)) cmpLab)).cmp 1).fcnt = 4 := by decide +kernel
/-- R85, R87: every passage, with and without hysteresis, and advancing by −20 modulo 100. -/
theorem test_cmp_repeats : ((stepLab.setCmp 1 { ctrl := 0x1411, phase := 10, armed := true }).cmp 1).repeat_ = 1 ∧
    (((stepLab.setCmp 1 { ctrl := 0x1411, phase := 10, armed := true, turn := 0x30000 }).cmpStep [stepTo10] 1).1.cmp 1).hystWait = true ∧
    (((stepLab.setCmp 1 { ctrl := 0x1411, phase := 10, armed := true }).cmpStep [stepTo10] 1).1.cmp 1).armed = true ∧
    (((stepLab.setCmp 1 { ctrl := 0x1421, phase := 10, armed := true, incr := -20 }).cmpStep [stepTo10] 1).1.cmp 1).phase = 90 ∧
    (((stepLab.setCmp 1 { ctrl := 0x1421, phase := 10, armed := true }).cmp 1)).repeat_ = 2 ∧ (stepLab.cmp 2).en = false ∧
    (stepLab.cmpStep [] 1) = (stepLab, none) := by decide +kernel

/-- R98 to R103: a prescaler of 1 takes every second edge; the FIFO holds 8. Unit 2 counts pin 3 on both edges, cell 5: 0x16031; its filter
takes a level of one sample. -/
def capLab (n pcnt : Nat) : State := (lab 5 { ctrl := 0x33, mod := 100, phase := 9 }).setCap 2
  { ctrl := 0x16031, filt := 0, presc := 1, pcnt := pcnt, fifo := (List.range n).map fun i => { phase := BitVec.ofNat 32 i, turn := 6, time := 40 } }
def upPin : Instr := .captureEdge 80 2 true [72]
theorem test_capture_edge : (capLab 7 0).up = true ∧ ((capLab 7 0).cap 2).en = true ∧ ((capLab 7 0).cap 2).kind = 0 ∧
    (Filt.feed 1 1 80 [(72, true)] false {}).2 = [⟨10, true, 72⟩] ∧
    edgeOk ((capLab 7 0).cap 2).edge true = true ∧ ((capLab 7 0).cap 2).pcnt < fld ((capLab 7 0).cap 2).presc 0 16 ∧
    fld ((capLab 7 1).cap 2).presc 0 16 ≤ ((capLab 7 1).cap 2).pcnt ∧ ((capLab 7 1).cap 2).fifo.length < 8 ∧ 8 ≤ ((capLab 8 1).cap 2).fifo.length ∧
    ((after (exec upPin (capLab 7 0))).cap 2).pcnt = 1 ∧
    (((after (exec upPin (capLab 7 1))).cap 2).fifo.map (·.phase)) = [0, 1, 2, 3, 4, 5, 6, 9] ∧
    ((after (exec upPin (capLab 8 1))).cap 2).ovfCnt = 1 := by decide +kernel
theorem test_capture_silent : (Filt.feed 1 1 80 [] false {}).2 = [] ∧
    (((capLab 7 0).setCap 2 { ctrl := 0x16033 }).cap 2).kind = 1 ∧
    ((after (exec (.captureEdge 80 2 true [72]) ((capLab 7 0).setCap 2 { ctrl := 0x16033 }))).cap 2).pf.run = 1 := by decide +kernel
theorem test_capture_registers : (capLab 3 0).serves (capOfs 2) = true ∧ (capLab 3 0).serves (capOfs 2 + 0x20) = true ∧
    (capLab 3 0).capFree 2 = ((capLab 3 0).cap 2).fifo ∧ (capLab 0 0).capFree 2 = [] ∧ (capLab 3 0).movers.run = [] ∧
    ((after (exec (.capPop 80 1 2) (capLab 3 0))).cap 2).fifo.length = 2 ∧ (after (exec (.capPop 80 1 2) (capLab 3 0))).out = [.reply [0x201]] ∧
    (after (exec (.capPop 80 1 2) (capLab 3 0))).latched 1 (capOfs 2 + 0x28) = 0x60000 ∧
    (after (exec (.capPop 80 0x20 2) (capLab 3 0))).out = [.reply [0x300]] ∧
    ((after (exec (.capCtrlWrite 80 1 2 0x16041) (capLab 3 0))).cap 2).cfgRej = true ∧
    ((after (exec (.capCtrlWrite 80 1 3 0x10807) (capLab 3 0))).cap 3).cfgRej = true ∧
    ((after (exec (.capCtrlWrite 80 1 3 0x16031) (capLab 3 0))).cap 3).ctrl = 0x16031 := by decide +kernel

/-- R107 to R109: cells 1 (TIME) and 5 are selected, cell 5 alone is held. -/
def startLab : State :=
  (((lab 5 { ctrl := 0x33, mod := 100, phase := 9, est := .seeded }).setEnc 3 { ctrl := 0 }).setCell 1 { ctrl := 0x9, est := .exact }).modStart fun x => { x with sel := 0x22, hold := 0x20 }
theorem test_global_start : startLab.serves (startOfs + 8) = true ∧ startLab.axes.start.hold.getLsbD 1 = false ∧
    startLab.axes.start.sel.getLsbD 1 = true ∧ startLab.axes.start.hold.getLsbD 5 = true ∧
    (after (exec (.cellRelease 17 1) startLab)).axes.start.hold = 0 ∧ (after (exec (.cellRelease 17 1) startLab)).axes.start.startT = 16 ∧
    (after (exec (.cellHold 17 1) startLab)).axes.start.hold = 0x22 ∧ ((after (exec (.cellHold 17 1) startLab)).cell 1).est = .idle ∧
    ((after (exec (.cellRelease 27 1) (after (exec (.cellHold 17 1) startLab)))).cell 1).origin = 24 ∧
    (after (exec (.registerWrite 17 1 (startOfs + 8) 15 3) startLab)).axes = startLab.axes := by decide +kernel

/-- R111 to R113: a freeze of cells 1 (TIME, paused) and 5 (two steps gathered, taken at the thaw). -/
def frzLab : State := startLab.modStart fun x => { x with hold := 0, frzSel := 0x22 }
def frozenLab : State := after (exec (.incrementalStep 40 3 [33] [] (true, true)) (after (exec (.coreDebugHalt 27 2) frzLab)))
theorem test_debug_freeze : frzLab.up = true ∧ frzLab.axes.start.halted = 0 ∧ frzLab.axes.start.frzSel.getLsbD 5 = true ∧
    (frozenLab.cell 1).pausedAt = some 24 ∧ (frozenLab.cell 5).phase = 9 ∧ (frozenLab.cell 5).frzAcc = 1 ∧ frozenLab.axes.start.halted = 4 ∧
    frozenLab.held 5 = false ∧ (frozenLab.cell 5).en = true ∧ (frozenLab.cell 5).exactMode = false ∧ (frozenLab.cell 5).mode = 1 ∧
    ((after (exec (.coreDebugResume 64 2) frozenLab)).cell 5).phase = 10 ∧ ((after (exec (.coreDebugResume 64 2) frozenLab)).cell 1).origin = 40 ∧
    ((after (exec (.coreDebugResume 64 1) frozenLab)).cell 5).phase = 9 := by decide +kernel

/-! ## Channel programs -/

/-- Channel 3 runs, its current command being `g`. -/
def prog (g : Group) (h : Chan) : State := State.reset.setChan 3 { h with st := .active, act := .ready, cur := g }
def isCur (s : State) (c op : Nat) : Bool :=
  s.up && decide ((s.chan c).st = .active) && decide ((s.chan c).act = .ready) && !(s.chan c).cur.tm && decide ((s.chan c).cur.op = op)
theorem current_of_isCur {s : State} {c op : Nat} (h : isCur s c op = true) : Current s c op := by
  simp only [isCur, Bool.and_eq_true, decide_eq_true_eq, Bool.not_eq_true'] at h
  exact ⟨h.1.1.1.1, .inl h.1.1.1.2, h.1.1.2, h.1.2, h.2⟩

/-- R133: NOP with CC goes on in sequence; a group fetched ahead from there becomes current at once; SUSPEND takes effect; without CC it ends. -/
def seqLab (h : Chan) : State := prog { w0 := 0x27F } { h with cca := 0x100 }
def nopG : Group := { w0 := 0xFFF0007F }
theorem test_chains : ((seqLab {}).chan 3).timed = none ∧ ((seqLab {}).chan 3).cur.cc = true ∧ ((seqLab {}).chan 3).cur.cd = false ∧ ((seqLab {}).chan 3).eq = none ∧
    (((seqLab {}).complete 3).chan 3).cca = 0x110 ∧ (((seqLab {}).complete 3).chan 3).act = .fetch ∧
    (((seqLab { suspReq := true }).complete 3).chan 3).st = .suspended ∧
    groupCheck { (seqLab {}).chan 3 with cca := 0x110, act := .fetch } ((seqLab {}).dom 0).phyOk nopG = none ∧ nopG.tm = false ∧ nopG.sus = false ∧
    (((seqLab { ahead := [(0x220, nopG)] }).complete 3).chan 3).act = .ready ∧ (((prog nopG {}).complete 3).chan 3).st = .idle ∧
    (((prog { w0 := 0x101 } { chainOp := 1 }).complete 3).chan 3).inChain = true ∧
    (((prog nopG { next := some (0x400, false) }).complete 3).chan 3).cca = 0x400 := by decide +kernel
theorem test_flow : isCur (prog { w0 := 0x10, w2 := 0x400 } {}) 3 0x10 = true ∧ isCur (prog { w0 := 0x11, w1 := 1, w2 := 0x400 } {}) 3 0x11 = true ∧
    isCur (seqLab {}) 3 0x7F = true ∧ isCur (prog { w0 := 0x40 } {}) 3 0x40 = true ∧ ((prog { w0 := 0x40 } {}).chan 3).endsHere = true ∧
    ((prog { w0 := 0x240 } {}).chan 3).endsHere = false ∧ ((prog { w0 := 0x240 } {}).chanPost 3 []).1 = true ∧
    ((prog { w0 := 0x240 } { eq := some 9 }).chanPost 3 []).1 = false ∧
    ((after (exec (.tic 8 3) (prog { w0 := 0x10, w2 := 0x400 } {}))).chan 3).cca = 0x400 ∧
    ((after (exec (.ticc 8 3) (prog { w0 := 0x11, w1 := 1, w2 := 0x400 } {}))).chan 3).cca = 0x400 ∧
    ((after (exec (.ticc 8 3) (prog { w0 := 0x211, w1 := 1, w2 := 0x400 } { cond := true }))).chan 3).cca = 0x10 ∧
    ((after (exec (.nop 8 3) (seqLab {}))).chan 3).cca = 0x110 ∧ ((after (exec (.mark 8 3) (prog { w0 := 0x240 } { eq := some 9 }))).chan 3).st = .postPending ∧
    ((after (exec (.mark 8 3) (prog { w0 := 0x240 } {}))).chan 3).cca = 0x10 := by decide +kernel

/-- R160: DURATION 5 ns from cycle 1; a compare unit that has fired since ARM; a timeout of 1 µs. -/
def waitLab (w1 w2 w3 : Word) (h : Chan) : State := (prog { w0 := 0xFFF00220, w1 := w1, w2 := w2, w3 := w3 } { h with currentAt := 12 }).setCmp 4 { fcnt := 2 }
def waiting (a : Act) : State := State.reset.setChan 3 { st := .waiting, act := a, cur := { w0 := 0x220 } }
theorem test_wait : isCur (waitLab 0 5 0 {}) 3 0x20 = true ∧ ((waitLab 0 5 0 {}).chan 3).cur.waitKind = 0 ∧
    ((after (exec (.waitTime 12 3) (waitLab 0 5 0 {}))).chan 3).act = .time 48 ∧
    ((after (exec (.waitTimeExpiry 48 3) (waiting (.time 48)))).chan 3).act = .fetch ∧ ((after (exec (.waitTimeExpiry 47 3) (waiting (.time 48)))).chan 3).act = .time 48 ∧
    ((waitLab 3 4 1 {}).chan 3).cur.waitKind = 3 ∧ ((after (exec (.waitCompare 12 3) (waitLab 3 4 1 {}))).chan 3).act = .waitCmp 4 (some 8012) ∧
    ((after (exec (.waitCompare 12 3) (waitLab 3 4 1 { armValid := true, armIdx := 4, armFcnt := 1 }))).chan 3).cond = true ∧
    ((waitLab 2 0 0 {}).chan 3).cur.waitKind = 2 ∧ ((after (exec (.waitUnit 12 3) (prog { w0 := 0x30000220, w1 := 2 } {}))).chan 3).act = .waitUnit 0x300 none ∧
    ((after (exec (.waitUnit 12 3) ((prog { w0 := 0x30000220, w1 := 2 } {}).setCap 0 { fifo := [{}] }))).chan 3).cond = true ∧
    ((after (exec (.waitComplete 12 3) (waiting (.woken 4 1)))).chan 3).cond = true ∧
    ((waiting (.waitUnit 0x300 none)).setCap 0 { fifo := [{}] }).unitReady 0x300 = true ∧ (waiting (.waitUnit 0x300 none)).unitReady 0x300 = false ∧
    ((after (exec (.waitComplete 12 3) ((waiting (.waitUnit 0x300 none)).setCap 0 { fifo := [{}] }))).chan 3).cond = true ∧
    ((after (exec (.waitTimeout 8000 3) (waiting (.waitCmp 4 (some 8000))))).chan 3).act = .fetch ∧
    ((after (exec (.waitTimeout 7999 3) (waiting (.waitCmp 4 (some 8000))))).chan 3).act = .waitCmp 4 (some 8000) ∧
    ((after (exec (.waitTimeout 8000 3) (waiting (.glade (some 8000))))).chan 3).condValid = true := by decide +kernel

/-- R161, R204: a firing of cycle 1, in which the WAIT became current, counts; a channel below that the unit wakes goes first; a firing wakes. -/
def wokenTwo : State := (waiting (.woken 4100 1)).setChan 2 { st := .waiting, act := .woken 4100 1, cur := { w0 := 0x220 } }
theorem test_wake_order : ((after (exec (.waitCompare 12 3) ((waitLab 3 4 1 {}).setCmp 4 { fireAt := some 1 }))).chan 3).cond = true ∧
    ((after (exec (.waitCompare 12 3) ((waitLab 3 4 1 {}).setCmp 4 { fireAt := some 0 }))).chan 3).cond = false ∧
    (wokenTwo.arrive 12).wakenBy 2 = some 4100 ∧ ((after (exec (.waitComplete 12 3) wokenTwo)).chan 3).cond = false ∧
    ((after (exec (.waitComplete 12 2) wokenTwo)).chan 2).cond = true ∧ ((waiting (.waitCmp 4 none)).chan 3).act.waitsOn = some 4100 ∧
    (((waiting (.waitCmp 4 none)).wakeWaiters 4100).chan 3).act.waitsOn = none ∧
    ((after (exec (.waitTime 12 3) (waitLab 0 5 0 { suspReq := true }))).chan 3).st = .suspended ∧
    ((after (exec (.glade 12 3) ((prog { w0 := 0xFFF00221, w1 := 5, w2 := 9, w3 := 9 } { suspReq := true })))).chan 3).st = .suspended := by
  decide +kernel

/-- R162: cell 5 stands at phase 9 of 100, direction up. LO to HI, wrapping, the wrong direction, and HI at the modulus. -/
def gladeLab (lo hi dir : Word) : State :=
  (prog { w0 := 0xFFF00221, w1 := 5 ||| (dir <<< 6), w2 := lo, w3 := hi } {}).setCell 5 { ctrl := 0x33, mod := 100, phase := 9, dir := 0 }
theorem test_glade : isCur (gladeLab 9 9 0) 3 0x21 = true ∧ ((gladeLab 9 9 0).arrive 8).inGlade ((gladeLab 9 9 0).chan 3).cur = true ∧
    ((gladeLab 9 9 1).arrive 8).inGlade ((gladeLab 9 9 1).chan 3).cur = false ∧ (gladeLab 90 9 2).inGlade ((gladeLab 90 9 2).chan 3).cur = true ∧
    (gladeLab 10 8 2).inGlade ((gladeLab 10 8 2).chan 3).cur = false ∧ (gladeLab 0 100 2).inGlade ((gladeLab 0 100 2).chan 3).cur = false ∧
    ((after (exec (.glade 8 3) (gladeLab 9 9 0))).chan 3).cond = true ∧ ((after (exec (.glade 8 3) (gladeLab 9 9 1))).chan 3).st = .waiting ∧
    ((after (exec (.glade 8 3) (gladeLab 0 100 2))).chan 3).status = 0x2000 ∧
    ((after (exec (.gladeComplete 8 3) ((gladeLab 9 9 0).modChan 3 fun h => { h with st := .waiting, act := .glade none }))).chan 3).cond = true := by
  decide +kernel

/-! ## SIGNAL, pattern edges, ARM -/

/-- A fence image whose pin 0 has the words `w`; every other pin rests low and has no limits. -/
def fenced (w : List Word) (s : State) : State :=
  { s with lws := { s.lws with fenceImg := some (List.replicate 64 0 ++ (w.map fun x => leBytes 4 x.toNat).flatten) } }
/-- R348 to R352: pin 0 rests low; an on edge passes, or is suppressed by a permit (1), by MIN_OFF (4); the boundary of MIN_OFF passes. -/
def pinLab (w : List Word) (p : Pin) (o : OutUnit) : State := (fenced w State.reset).setPin 0 p |>.setOu 0 o
theorem test_edges : (pinLab [] {} {}).isInput 0 = false ∧ (pinLab [] {} {}).onLevel 0 = true ∧ State.reset.isInput 0 = true ∧
    ((pinLab [] {} {}).openWindow 8).judge 0 8 = none ∧ (((pinLab [] {} {}).placeEdge 0 true 8).pin 0).onSince = some 8 ∧
    ((pinLab [0x100] {} {}).openWindow 8).judge 0 8 = some 1 ∧ (((pinLab [0x100] {} {}).placeEdge 0 true 8).pin 0).hold = true ∧
    (((pinLab [0x100] {} { holder := some 3 }).placeEdge 0 true 8).chan 3).status = 0x80 ∧
    ((pinLab [0, 0, 1] { lastRest := some 100 } {}).judge 0 8099) = some 4 ∧ ((pinLab [0, 0, 1] { lastRest := some 100 } {}).judge 0 8100) = none ∧
    ((pinLab [0x10000] { spent := 1 } {}).judge 0 8) = some 6 ∧ ((pinLab [] { hold := true } {}).judge 0 8) = some 2 ∧
    (((pinLab [] { onSince := some 2 } { drive := true }).placeEdge 0 false 8).pin 0).lastRest = some 8 ∧
    (((pinLab [] { hold := true } { drive := true }).placeEdge 0 false 8).pin 0).hold = false ∧
    ((pinLab [] {} { drive := true }).placeEdge 0 true 8).pin 0 = {} ∧
    (0x100 >>> 8).testBit 0 = true ∧ ((pinLab [0x100] {} {}).permitIn 0).accepted = false := by decide +kernel

/-- R156, R157: LEVEL, PULSE of width 40, a taken slot, an undriven pin. -/
def sigLab (mode : Word) (w2 w3 : Word) (o : OutUnit) : State :=
  ((fenced [] State.reset).setChan 3 { st := .active, act := .ready, cur := { w0 := 0x20000030, w1 := mode <<< 24, w2 := w2, w3 := w3 } }).setOu 0 o
theorem test_signal : isCur (sigLab 0 1 0 {}) 3 0x30 = true ∧ ((sigLab 0 1 0 {}).chan 3).cur.sigMode = 0 ∧ ((sigLab 0 1 0 {}).chan 3).cur.ou = 0 ∧
    (sigLab 0 1 0 {}).isInput 0 = false ∧ ((sigLab 0 1 0 {}).ou 0).holder = none ∧
    ((after (exec (.signalLevel 8 3) (sigLab 0 1 0 {}))).pin 0).onSince = some 9 ∧ ((after (exec (.signalLevel 8 3) (sigLab 0 1 0 {}))).ou 0).holder = none ∧
    ((sigLab 1 40 1 {}).chan 3).cur.sigMode = 1 ∧ ((after (exec (.signalPulse 8 3) (sigLab 1 40 1 {}))).ou 0).trail = some (49, false) ∧
    ((sigLab 2 0x1000 0 {}).chan 3).cur.sigMode = 2 ∧ ((after (exec (.signalPattern 8 3) (sigLab 2 0x1000 0 {}))).ou 0).holder = some 3 ∧
    ((sigLab 1 40 1 { holder := some 4 }).ou 0).holder = some 4 ∧
    ((after (exec (.signalPulse 8 3) (sigLab 1 40 1 { holder := some 4 }))).chan 3).act = .slot 0 ∧
    ((after (exec (.signalLevel 8 3) (prog { w0 := 0x20000030, w2 := 1 } {}))).chan 3).status = 0x800 ∧
    isCur (prog { w0 := 0x20000030, w2 := 1 } {}) 3 0x30 = true := by decide +kernel
/-- R156, R157, R345, R347: a trailing edge, a freed slot, TIME entries of 16 and a POSITION entry passed too early. -/
def patLab (o : OutUnit) (h : Chan) : State := ((fenced [] State.reset).setChan 3 { h with cur := { w0 := 0x20000030 } }).setOu 0 { o with lastEdge := 100 }
def timeE (l : Bool) : PatEntry := { value := 16, level := l }
theorem test_later_edges : ((patLab { trail := some (116, false), drive := true, holder := some 3 } {}).ou 0).trail = some (116, false) ∧
    ((after (exec (.pulseTrailingEdge 116 0) (patLab { trail := some (116, false), drive := true, holder := some 3 } {}))).ou 0).drive = false ∧
    ((after (exec (.pulseTrailingEdge 115 0) (patLab { trail := some (116, false), drive := true, holder := some 3 } {}))).ou 0).drive = true ∧
    ((patLab {} { st := .waiting, act := .slot 0 }).arrive 8).slotWaiters 0 true = [3] ∧
    (((patLab {} { st := .waiting, act := .slot 0 }).arrive 8).signalGo 3).slotWaiters 0 false = [] ∧
    ((patLab {} { st := .waiting, act := .slot 0 }).arrive 8).slotFor 3 0 true = true ∧
    ((patLab { freeAt := 2 } { st := .waiting, act := .slot 0 }).arrive 8).slotFor 3 0 true = false ∧
    ((after (exec (.slotReserve 8 0) (patLab {} { st := .waiting, act := .slot 0 }))).ou 0).lastEdge = 101 ∧
    ((after (exec (.patternEdge 116 0) (patLab { pat := [timeE true, timeE false], holder := some 3 } {}))).ou 0).pat = [timeE false] ∧
    ((after (exec (.patternEdge 116 0) (patLab { pat := [timeE true, timeE false], holder := some 3 } {}))).pin 0).onSince = some 116 ∧
    ((after (exec (.patternEdge 115 0) (patLab { pat := [timeE true, timeE false], holder := some 3 } {}))).ou 0).pat = [timeE true, timeE false] ∧
    ((after (exec (.patternEdge 116 0) (patLab { pat := [timeE true], holder := some 3 } {}))).ou 0).holder = none ∧
    ((after (exec (.positionEdge 200 0) (patLab { pat := [{ pos := true, level := true }, timeE false], holder := some 3, posPassed := some 100 } {}))).chan 3).placeHeld = true ∧
    ((after (exec (.positionEdge 200 0) (patLab { pat := [{ pos := true, level := true }, timeE false], holder := some 3, posPassed := some 100 } {}))).ou 0).lastEdge = 101 ∧
    ((after (exec (.positionEdge 200 0) (patLab { pat := [{ pos := true, level := true }, timeE false], holder := some 3, posDue := some 150 } {}))).ou 0).lastEdge = 150 ∧
    ((after (exec (.positionEdge 149 0) (patLab { pat := [{ pos := true, level := true }, timeE false], holder := some 3, posDue := some 150 } {}))).ou 0).lastEdge = 100 := by
  decide +kernel

/-- R158: ARM of compare unit 4 and of capture unit 2; REPEAT 3 and EDGE 3 are refused. -/
def armLab (w1 ctrl : Word) : State := prog { w0 := 0xFFF00231, w1 := w1, o0 := ctrl, o1 := 7, o2 := 8, o3 := 9 } {}
theorem test_arm : isCur (armLab 4 1) 3 0x31 = true ∧ (((armLab 4 1).arrive 8).cmpImage 4 1 7 8 9).1 = false ∧
    (((armLab 4 0x30).arrive 8).cmpImage 4 0x30 7 8 9).1 = true ∧ bit (0x102 : Word) 8 = true ∧
    (((armLab 0x102 1).arrive 8).capImage 2 1 7 8 9).1 = false ∧ (((armLab 0x102 0x3000).arrive 8).capImage 2 0x3000 7 8 9).1 = true ∧
    ((after (exec (.armCompare 8 3) (armLab 4 1))).cmp 4).incr = 9 ∧ ((after (exec (.armCompare 8 3) (armLab 4 1))).chan 3).armIdx = 4 ∧
    ((after (exec (.armCompare 8 3) (armLab 4 0x30))).chan 3).status = 0x800 ∧ ((after (exec (.armCompare 8 3) (armLab 4 0x30))).cmp 4).phase = 7 ∧
    ((after (exec (.armCapture 8 3) (armLab 0x102 1))).cap 2).presc = 8 ∧ ((after (exec (.armCapture 8 3) (armLab 0x102 0x3000))).cap 2).cfgRej = true := by
  decide +kernel

/-! ## CONTROL, SENSE and data movement -/

/-- R150: FLUSH of capture unit 2 empties it; LOAD one below and at the modulus of cell 5; SET_MOD; SET_RATE. -/
def ctlLab (unit order w2 w3 : Word) : State :=
  ((prog { w0 := (unit <<< 20) ||| 0x203, w1 := order, w2 := w2, w3 := w3 } {}).setCell 5 { ctrl := 0x33, mod := 100, phase := 9 }).setCap 2
    { fifo := [{}, {}, {}] }
theorem test_control : isCur (ctlLab 0x302 1 0 0) 3 0x03 = true ∧ unitClass 0x302 = .cap ∧ unitClass 0x385 = .cell ∧ unitClass 0 = .stream ∧
    unitClass 0x607 = .serial ∧ unitClass 0x13F = .txq ∧ fld ((ctlLab 0x302 1 0 0).chan 3).cur.w1 0 8 = 1 ∧
    ((after (exec (.flush 8 3) (ctlLab 0x302 1 0 0))).cap 2).fifo.length = 0 ∧ ((ctlLab 0x385 1 99 0).chan 3).cur.unit = 0x385 ∧
    ((after (exec (.load 8 3) (ctlLab 0x385 1 99 0xFFFFFFFF))).cell 5).turn = 0xFFFFFFFFFFFF ∧
    ((after (exec (.load 8 3) (ctlLab 0x385 1 99 0))).cell 5).phase = 99 ∧ ((after (exec (.load 8 3) (ctlLab 0x385 1 100 0))).chan 3).status = 0x800 ∧
    ((after (exec (.load 8 3) (ctlLab 0x385 1 100 0))).cell 5).phase = 9 ∧ ((after (exec (.setMod 8 3) (ctlLab 0x385 2 50 0))).cell 5).mod = 50 ∧
    ((after (exec (.setRate 8 3) (ctlLab 0x385 3 1 2))).cell 5).rate = 0x200000001 := by decide +kernel

/-- R149: SENSE of capture unit 2; a FILL, a READ, a WRITE and a unit that has nothing. -/
def senseLab (skp : Word) : State := (prog { w0 := 0x30200204 ||| (skp <<< 10), w1 := 0 } {}).setCap 2 { fifo := [{}] }
def fillG : Group := { w0 := 0xFFF20206, w1 := 10, w2 := 0x40, o0 := 0xAB }
theorem test_sense : isCur (senseLab 1) 3 0x04 = true ∧ ((senseLab 1).chan 3).snap = [] ∧ ((senseLab 1).chan 3).cur.skp = true ∧
    ((senseLab 0).chan 3).cur.skp = false ∧ ((after (exec (.sense 8 3) (senseLab 1))).chan 3).cond = true ∧
    ((after (exec (.sense 8 3) (senseLab 0))).chan 3).snap.length = 16 := by decide +kernel
theorem test_transfers : isCur (prog fillG { resid := 10, daddr := 0x40 }) 3 0x06 = true ∧ ((prog fillG {}).chan 3).inBracket = false ∧
    ((after (exec (.fill 8 3) (prog fillG { resid := 10, daddr := 0x40 }))).chan 3).act = .req ∧
    isCur (prog { w0 := 0xFFF20005, w1 := 4 } {}) 3 0x05 = true ∧ isCur (prog { w0 := 0xFFF20007, w1 := 4 } {}) 3 0x07 = true ∧
    isCur (prog { w0 := 0xFFF20008, w1 := 4 } {}) 3 0x08 = true ∧ unitClass 0xFFF = .memory ∧
    ((after (exec (.move 8 3) (prog { w0 := 0xFFF20005, w1 := 4, o2 := 2 } {}))).chan 3).act = .req ∧
    ((after (exec (.gather 8 3) (prog { w0 := 0xFFF20008, w1 := 4, o3 := 0x60000 } { resid := 4 }))).chan 3).act = .req ∧
    isCur (prog { w0 := 0x10020002, w1 := 4 } {}) 3 0x02 = true ∧ (State.reset.unitCheck 0x02 0x100) = true ∧
    ((after (exec (.write 8 3) (prog { w0 := 0x10020002, w1 := 4 } {}))).chan 3).status = 0x800 ∧
    isCur (prog { w0 := 0x30220001, w1 := 16 } {}) 3 0x01 = true ∧ State.reset.unitCheck 0x01 0x302 = false ∧ State.reset.unitCheck 0x01 0x400 = true ∧
    (prog { w0 := 0x30220001, w1 := 16 } {}).placing 3 = false ∧ ((prog { w0 := 0x30220001, w1 := 16 } {}).chan 3).recEnded = false ∧
    ((after (exec (.read 8 3) (prog { w0 := 0x30220001, w1 := 16 } {}))).chan 3).act = .unit 0x302 ∧
    ((after (exec (.read 8 3) (prog { w0 := 0x40020001, w1 := 32 } {}))).chan 3).status = 0x800 ∧
    ((after (exec (.unitAdvertise 8 3) ((after (exec (.read 8 3) (prog { w0 := 0x30220001, w1 := 16 } {}))).setCap 2 { fifo := [{}] }))).chan 3).act = .req ∧
    ((after (exec (.read 8 3) (prog { w0 := 0x38520001, w1 := 48 } {}))).chan 3).snap.length = 48 := by decide +kernel
def pumpLab : State := prog fillG { resid := 10, daddr := 0x40 }
theorem test_pump : (pumpLab.chan 3).st ≠ .haltPending ∧ (pumpLab.chan 3).fragA = none ∧ (pumpLab.chan 3).fragB = none ∧ pumpLab.sideReady 3 = true ∧ (pumpLab.firstPages 3 (pumpLab.chan 3).firstSpans).1 = true ∧
    (prog { w0 := 0x30220001, w1 := 16 } {}).sideReady 3 = false := by decide +kernel

/-- R211, R214: a timed request, a class, none. R221, R229: an answered read, a failed one with and without reissues left. -/
def reqLab : State := State.reset.setChan 3 { st := .active, act := .req, prio := 1, cur := fillG, resid := 10, daddr := 0x40 }
def readReq (tries : Nat) : Req := { addr := 0x5000, len := 2, tries := tries }
def linked (s : State) : State := { s with irq := { s.irq with link := true } }
def burstLab (tries : Nat) : State := (linked State.reset).setMover 7
  (some { chan := 3, len := 2, retry := 3, rd := [{ addr := 0x9000, len := 2, x := 2, segs := [{ len := 2, addr := 0x5000 }] }], reqs := [readReq tries] })
theorem test_grants : reqLab.timedRequests = [] ∧ reqLab.classRequests 0 = [] ∧ reqLab.classRequests 1 = [3] ∧ reqLab.grantOrder = [(2, 3)] ∧ reqLab.movers.grantAt = none ∧
    (State.reset.setChan 3 { act := .req, cur := { w0 := 0x8006 } }).timedRequests = [3] ∧
    (State.reset.setChan 3 { act := .req, cur := { w0 := 0x8006 } }).timedGrantable = [3] ∧ reqLab.freeMovers ≠ [] ∧
    (reqLab.chan 3).act = .req ∧ (reqLab.form 3 false).1.len = 10 ∧ State.reset.grantOrder = [] ∧ State.reset.pickMover.isSome = true ∧
    (after (exec (.moverGrant 8) State.reset)).movers = {} := by decide +kernel
theorem test_completions : (burstLab 0).up = true ∧ (burstLab 0).mover 7 ≠ none ∧ [readReq 0].find? (fun r => r.addr = 0x5000) = some (readReq 0) ∧
    (((after (exec (.hostReadCompletion 8 7 0x5000 (.data [1, 2])) (burstLab 0))).mover 7).map (·.got)) = some [(0, 1), (1, 2)] ∧
    (((after (exec (.hostReadCompletion 8 7 0x5000 .fail) (burstLab 2))).mover 7).map (·.reqs)) = some [readReq 3] ∧
    (((after (exec (.completionTimeout 8 7 0x5000) (burstLab 3))).mover 7).map (·.cut)) = some (some (0, none)) ∧
    (after (exec (.completionTimeout 8 7 0x5000) (burstLab 2))).out = [.hostRead 0x5000 2] ∧ (burstLab 2).irq.link = true ∧
    (after (exec (.completionTimeout 8 7 0x5000) { burstLab 1 with irq := {} })).movers.retry = 2 ∧ State.reset.serves (moverOfs + 0x20) = true ∧
    (after (exec (.moverPeakClr 8 1 1) (burstLab 0))).movers.peak = 1 := by decide +kernel

/-- R153, R222: the FILL of 10 bytes of 0xAB at 0x40 ends. R154: a COMPARE against 0xAB finds the third byte to differ, or none. -/
def fillB : Burst := { chan := 3, len := 10, unit := List.replicate 10 0xAB,
                       wr := some { phy := true, addr := 0x40, len := 10, x := 10, segs := [{ len := 10, phy := true, addr := 0x40 }] } }
def fillLab : State := (State.reset.setChan 3 { st := .active, act := .move, cur := fillG, resid := 10, daddr := 0x40 }).setMover 7 (some fillB)
theorem test_fill_ends : fillLab.mover 7 = some fillB ∧ fillLab.burstReady fillB = true ∧ fillLab.burstLocked fillB = false ∧
    (fillLab.chan 3).resid = fillB.len ∧ (fillLab.burstData fillB).1.length = 10 ∧ (fillLab.burstData fillB).2.1 = none ∧
    tget 0 (after (exec (.burstEnd 8 7) fillLab)).mem.sram 0x49 = 0xAB ∧ tget 0 (after (exec (.burstEnd 8 7) fillLab)).mem.sram 0x4A = 0 ∧
    (after (exec (.burstEnd 8 7) fillLab)).movers.bytes = 10 := by decide +kernel
def cmpB : Burst := { chan := 3, len := 4, rd := [{ phy := true, addr := 0x40, len := 4, x := 4, segs := [{ len := 4, phy := true, addr := 0x40 }] }] }
def compLab (b : List Byte) : State := ((State.reset.sramWrite 0x40 b).setChan 3
  { st := .active, act := .move, cur := { w0 := 0xFFF20207, w1 := 4, w2 := 0x40, o0 := 0xAB, o2 := 1 }, resid := 4, daddr := 0x40 }).setMover 7 (some cmpB)
theorem test_compare_ends : (compLab [0xAB, 0xAB, 1, 0xAB]).burstReady cmpB = true ∧ (compLab []).burstLocked cmpB = false ∧
    ((compLab [0xAB, 0xAB, 1, 0xAB]).burstData cmpB).1 = [0xAB, 0xAB, 1, 0xAB] ∧ ((compLab []).secondBytes cmpB).1 = List.replicate 4 0xAB ∧
    firstDiff [0xAB, 0xAB, 1, 0xAB] (List.replicate 4 (0xAB : Byte)) 0 = some 2 ∧
    ((after (exec (.burstEnd 8 7) (compLab [0xAB, 0xAB, 1, 0xAB]))).chan 3).status = 0x200 ∧
    ((after (exec (.burstEnd 8 7) (compLab [0xAB, 0xAB, 1, 0xAB]))).chan 3).resid = 2 ∧
    ((after (exec (.burstEnd 8 7) (compLab (List.replicate 4 0xAB)))).chan 3).cond = true ∧
    ((after (exec (.burstEnd 8 7) (compLab (List.replicate 4 0xAB)))).chan 3).status = 0 := by decide +kernel

/-- R218, R227: the third byte differs and the fourth is outstanding. -/
def earlyB : Burst := { chan := 3, len := 4, got := [(0, 0xAB), (1, 0xAB), (2, 1)], reqs := [{ addr := 0x5003, len := 1, ofs := 3 }],
                        rd := [{ addr := 0x9000, len := 4, x := 4, segs := [{ len := 4, addr := 0x5000 }] }] }
def earlyLab : State := ((compLab []).setMover 7 (some earlyB))
theorem test_compare_early : earlyLab.diffSeen earlyB = some 2 ∧ earlyLab.burstReady earlyB = false ∧ earlyLab.burstLocked earlyB = false ∧
    (after (exec (.burstEnd 8 7) earlyLab)).mover 7 = none ∧
    ((after (exec (.burstEnd 8 7) earlyLab)).chan 3).resid = 2 ∧
    (compLab (List.replicate 4 0xAB)).diffSeen cmpB = none ∧ (compLab [0xAB, 0xAB, 1, 0xAB]).diffSeen cmpB = some 2 := by decide +kernel

/-! ## Locked sequences -/

/-- R166 to R168: LOCK, one FILL, UNLOCK; a bracket not fetched yet; a member that may not stand there (a TIC). -/
def lkFill : Group := { w0 := 0xFFF30206, w1 := 2, w2 := 0x40, o0 := 0xAB }
def unlockG : Group := { w0 := 0xFFF10039 }
def lockLab (l : List (Nat × Group)) : State := (prog { w0 := 0xFFF10238 } { ahead := l }).setDom 0 { ctrl := 0xFFFFFFFF }
theorem test_lock : isCur (lockLab [(0x20, lkFill), (0x60, unlockG)]) 3 0x38 = true ∧
    bracketOf false 0x10 [] [(0x20, lkFill), (0x60, unlockG)] = .ok [lkFill] ∧ ((lockLab []).dom 0).phyOk = true ∧
    ([lkFill].flatMap physRanges).all (fun r => decide (r.1 + r.2 ≤ sramSize)) = true ∧ bracketOf false 0x10 [] [] = .more ∧
    bracketOf false 0x10 [] [(0x20, { w0 := 0xFFF00210 })] = .bad ∧
    ((after (exec (.lock 8 3) (lockLab [(0x20, lkFill), (0x60, unlockG)]))).chan 3).inBracket = true ∧
    ((after (exec (.lock 8 3) (lockLab [(0x20, lkFill), (0x60, unlockG)]))).chan 3).lockBeats = [1] ∧
    (((lockLab [(0x20, { w0 := 0xFFF00210 })]).bracketCheck 3).chan 3).status = 1 ∧ (((lockLab []).bracketCheck 3).chan 3).act = .bracket := by
  decide +kernel
def farFill : Group := { w0 := 0xFFF30206, w1 := 2, w2 := 0x1FFFFFF, o0 := 0xAB }
theorem test_bracket : groupCheckB ((lockLab []).chan 3) true ((lockLab []).chan 3).cur = none ∧
    groupCheckB { (lockLab []).chan 3 with inChain := true, chainOp := 6 } true { w0 := 0xFFF10238 } = some 2 ∧ physBad true ([farFill].flatMap physRanges) = true ∧
    physBad false ([lkFill].flatMap physRanges) = true ∧
    (((lockLab [(0x20, farFill), (0x60, unlockG)]).bracketCheck 3).chan 3).status = 2 ∧
    (((lockLab [(0x20, lkFill), (0x60, unlockG)]).makeCurrent 3 { w0 := 0xFFF10238 }).chan 3).st = .active := by decide +kernel

/-- R169: members read the buffered bytes; R170: 256 ns from the first access are 2048 units; R171: CAS of 4 bytes at 0x40. -/
def memLab (g : Group) (first : Option Time) : State := prog g { inBracket := true, lockFirst := first, lockWrites := [(0x40, [1, 2])], resid := 2 }
def lockedBy4 (s : State) : State := s.setChan 4 { inBracket := true, lockFirst := some 0, lockBeats := [1] }
def unlockLab (first : Option Time) : State := memLab unlockG first
theorem test_members : (memLab lkFill none).bracketBlocked 3 = false ∧ (lockedBy4 ((memLab lkFill none).setChan 3
      { (memLab lkFill none).chan 3 with lockBeats := [1] })).bracketBlocked 3 = true ∧
    (after (exec (.fill 8 3) (lockedBy4 ((memLab lkFill none).setChan 3 { (memLab lkFill none).chan 3 with lockBeats := [1] })))).now = 8 ∧ isCur (memLab lkFill (some 0)) 3 0x06 = true ∧ ((memLab lkFill (some 0)).chan 3).inBracket = true ∧
    ((after (exec (.fill 2048 3) (memLab lkFill (some 0)))).chan 3).lockWrites = [(0x40, [0xAB, 0xAB]), (0x40, [1, 2])] ∧
    ((after (exec (.fill 2049 3) (memLab lkFill (some 0)))).chan 3).inBracket = false ∧
    isCur (memLab { w0 := 0xFFF30205, w1 := 2, w2 := 0x40, o0 := 0x80, o2 := 2 } none) 3 0x05 = true ∧
    ((after (exec (.move 8 3) (memLab { w0 := 0xFFF30205, w1 := 2, w2 := 0x40, o0 := 0x80, o2 := 2 } none))).chan 3).lockWrites = [(0x80, [1, 2]), (0x40, [1, 2])] ∧
    isCur (memLab { w0 := 0xFFF30207, w1 := 2, w2 := 0x40, o0 := 0x0201, o2 := 3 } none) 3 0x07 = true ∧
    (memLab lkFill none).badWord 0x40 2 = none ∧
    ((after (exec (.compare 8 3) (memLab { w0 := 0xFFF30207, w1 := 2, w2 := 0x40, o0 := 0x0201, o2 := 3 } none))).chan 3).cond = true := by decide +kernel
theorem test_unlock : isCur (unlockLab (some 0)) 3 0x39 = true ∧ tget 0 (after (exec (.unlock 2048 3) (unlockLab (some 0)))).mem.sram 0x41 = 2 ∧
    (after (exec (.unlock 2048 3) (unlockLab (some 0)))).mem.locks = 1 ∧ (after (exec (.unlock 2049 3) (unlockLab (some 0)))).mem.sram = [] ∧
    (after (exec (.lockAbandoned 2048 3) (unlockLab (some 0)))).mem.abandons = 1 ∧ (after (exec (.lockAbandoned 2047 3) (unlockLab (some 0)))).mem.abandons = 0 ∧
    ((after (exec (.lockAbandoned 2048 3) (unlockLab (some 0)))).chan 3).status = 0x100 := by decide +kernel
def casLab (expect : Word) : State := prog { w0 := 0xFFF2023A, w1 := 4, w2 := 0x40, o0 := expect, o2 := 7 } {}
theorem test_cas : isCur (casLab 0) 3 0x3A = true ∧ (casLab 0).beatLocked (some 3) 0x40 4 = false ∧ (casLab 0).badWord 0x40 4 = none ∧
    leNat ((casLab 0).sramBytes 0x40 4) = 0 ∧ tget 0 (after (exec (.cas 8 3) (casLab 0))).mem.sram 0x40 = 7 ∧
    ((after (exec (.cas 8 3) (casLab 0))).chan 3).cond = true ∧ (after (exec (.cas 8 3) (casLab 1))).mem.sram = [] ∧
    ((after (exec (.cas 8 3) (casLab 1))).chan 3).condValid = true ∧ (lockedBy4 (casLab 0)).beatLocked (some 3) 0x40 4 = true ∧
    (after (exec (.cas 8 3) (lockedBy4 (casLab 0)))).mem.sram = [] := by decide +kernel

/-! ## Timed execution -/

/-- A NOP at count 1000 of a TIME cell of one count a cycle: due at 8000. LEAD 0 and COMMIT 500 ns: the effective lead is 1500 ns. -/
def timedLab (w0 : Word) (st : ChanState) (d : Timed) (h : Chan) : State := (State.reset.setCell 1 { ctrl := 0x9, est := .exact }).setChan 3
  { h with st := st, act := .sched, cur := { w0 := w0, w1 := h.cur.w1, w2 := h.cur.w2, s4 := 0x81, s5 := 1000 }, timed := some d }
def waitsLab : State := let s := timedLab 0xFFF0827F .waiting { commit := 500 } {}
  { s with sched := { s.sched with waitCmd := [.cmd 3] } }
theorem test_entries : waitsLab.sched.used < 8192 ∧ waitsLab.sched.waitCmd = [.cmd 3] ∧ (waitsLab.arrive 4000).predictDue 3 = some 8000 ∧
    (waitsLab.arrive 4001).predictDue 3 = some 8000 ∧ (after (exec (.schedEntryGrant 4000) waitsLab)).sched.used = 1 ∧
    ((after (exec (.schedEntryGrant 4000) waitsLab)).chan 3).due = 8000 ∧ ((after (exec (.schedEntryGrant 4001) waitsLab)).chan 3).missCause = 4 ∧
    ((after (exec (.schedEntryGrant 8) { State.reset with sched := { waitCmp := [.cmp 9] } })).cmp 9).entry = true ∧
    State.reset.serves (schedOfs + 0x0C) = true ∧
    (after (exec (.schedPeakClr 8 1 1) { State.reset with sched := { used := 2, peak := 5 } })).sched.peak = 2 := by decide +kernel
theorem test_staging : ((timedLab 0xFFF0827F .waiting { commit := 500, entry := true, due := some 20000 } {}).chan 3).act = .sched ∧
    ((after (exec (.stagingBegin 8000 3) (timedLab 0xFFF0827F .waiting { commit := 500, entry := true, due := some 20000 } {}))).chan 3).st = .staged ∧
    ((after (exec (.stagingBegin 7999 3) (timedLab 0xFFF0827F .waiting { commit := 500, entry := true, due := some 20000 } {}))).chan 3).st = .waiting ∧
    ((after (exec (.limitExpiry 64 3) (timedLab 0xFFF0827F .waiting { limit := some 64 } {}))).chan 3).missCause = 1 ∧
    ((after (exec (.limitExpiry 63 3) (timedLab 0xFFF0827F .waiting { limit := some 64 } {}))).chan 3).missCause = 0 ∧
    ((after (exec (.limitExpiry 64 3) (timedLab 0xFFF0827F .staged { limit := some 64, committed := some 9 } {}))).chan 3).missCause = 0 := by decide +kernel
theorem test_missed : (waitsLab.chan 3).eq = none ∧ (waitsLab.chan 3).clearing = false ∧ ((waitsLab.miss 3 15 []).chan 3).st = .halted ∧
    ((waitsLab.miss 3 15 []).chan 3).status = 0x20 ∧ tget 0 (waitsLab.miss 3 15 []).sched.missCnt 15 = 1 := by decide +kernel

/-- R189 to R193: COMMIT is 500 ns, the lock 16 ns; a compare command with no slot to wait for is fully staged. -/
def stagedT : Timed := { commit := 500, entry := true, due := some 20000, staging := true }
def commitLab : State := timedLab 0xFFF0827F .staged stagedT { due := 20000, aheadStop := true }
def lateT : Timed := { stagedT with committed := some 20000 }
def committedLab (w0 : Word) (h : Chan) : State := timedLab w0 .staged lateT { h with due := 20000 }
theorem test_commit : (commitLab.arrive 16000).missCauses 3 stagedT = [] ∧ ((after (exec (.commit 16000 3) commitLab)).chan 3).committed = true ∧
    ((after (exec (.commit 15999 3) commitLab)).chan 3).committed = false ∧
    ((timedLab 0x2000A0FF .staged stagedT { due := 20000 }).missCauses 3 { stagedT with patNeed := 1 }).headD 0 = 4 ∧
    (timedLab 0xFFF0827F .staged stagedT { due := 20000 }).missCauses 3 stagedT = [10] ∧
    (timedLab 0x20008030 .staged stagedT {}).missCauses 3 stagedT = [8, 9, 10] ∧
    ((after (exec (.commit 16000 3) (timedLab 0x20008030 .staged stagedT {}))).chan 3).missCause = 8 ∧
    ((after (exec (.placementLock 19872 3) (committedLab 0xFFF0827F {}))).chan 3).timed = some { lateT with locked := true } ∧
    ((after (exec (.placementLock 19871 3) (committedLab 0xFFF0827F {}))).chan 3).timed = some lateT := by decide +kernel
def edgeLab : State := (timedLab 0x20008030 .active { commit := 500 } {}).setOu 0 { holder := some 3, pat := [{ pos := true }], posDue := some 20000 }
theorem test_edge_commit : ((after (exec (.patternEdgeCommit 16000 0) edgeLab)).ou 0).posCommitted = some 20000 ∧
    ((after (exec (.patternEdgeCommit 15999 0) edgeLab)).ou 0).posCommitted = none := by decide +kernel
theorem test_effect : ((committedLab 0xFFF0827F {}).chan 3).act = .sched ∧ ((after (exec (.effect 20000 3) (committedLab 0xFFF0827F {}))).chan 3).act = .fetch ∧
    ((after (exec (.effect 19999 3) (committedLab 0xFFF0827F {}))).chan 3).act = .sched ∧
    isWait 1 ((committedLab 0xFFF08220 { cur := { w1 := 1 } }).chan 3).cur = true ∧
    ((after (exec (.waitPosition 20000 3) (committedLab 0xFFF08220 { cur := { w1 := 1 } }))).chan 3).act = .fetch ∧
    ((after (exec (.effect 20000 3) (fenced [] (committedLab 0x20008230 { cur := { w2 := 1 } })))).ou 0).edgeT = 20000 ∧
    ((after (exec (.effect 20000 3) ((committedLab 0x30208203 { cur := { w1 := 1 } }).setCap 2 { fifo := [{}] }))).cap 2).fifo = [] ∧
    ((committedLab 0x10028202 {}).chan 3).cur.op = 0x02 ∧ ((after (exec (.effect 20000 3) (committedLab 0x10028202 {}))).chan 3).act = .fetch ∧
    ((after (exec (.effect 20000 3) (committedLab 0xFFF08231 { cur := { w1 := 4 } }))).chan 3).armIdx = 4 ∧
    ((after (exec (.effect 20000 3) (committedLab 0xFFF08240 {}))).chan 3).act = .fetch := by decide +kernel

/-! ## Requests to channels -/

/-- Channel 3, bound to queue 5, domain 0 and event queue 9. -/
def reqOf (h : Chan) : State := State.reset.setChan 3 { h with wq := some 5, domSet := true, eq := some 9 }
def safeOf (s : State) : State := { s with fc := { s.fc with safe := true } }
theorem test_judged : (reqOf {}).judgeReq 0 3 .halt = 2 ∧ Request.invalid (.store true 32) = true ∧ (reqOf {}).judgeReq 5 3 (.store true 32) = 2 ∧
    (reqOf {}).judgeReq 6 3 .halt = 4 ∧ (State.reset.setChan 3 { wq := some 5 }).judgeReq 5 3 (.start false 0) = 3 ∧
    (safeOf (reqOf {})).judgeReq 5 3 (.start false 0) = 4 ∧ (safeOf (reqOf {})).judgeReq 5 3 .halt = 0 ∧ (reqOf {}).judgeReq 5 3 (.start false 0) = 0 ∧
    (reqOf { st := .haltPending }).judgeReq 5 3 (.start false 0) = 1 ∧ (reqOf { st := .active }).judgeReq 5 3 (.start false 0) = 11 ∧
    (reqOf { st := .haltPending }).judgeReq 5 3 .clear = 1 ∧ (reqOf { st := .faulted }).judgeReq 5 3 .suspend = 11 ∧
    (reqOf { st := .faulted, status := 0x1000 }).judgeReq 5 3 .resume = 4 ∧ (reqOf { st := .suspended }).judgeReq 5 3 .resume = 0 ∧
    (reqOf { st := .active }).judgeReq 5 3 (.modify false 0 1 false) = 11 ∧ (reqOf { suspReq := true, st := .active }).judgeReq 5 3 (.modify false 0 1 false) = 1 ∧
    (reqOf { st := .active }).judgeReq 5 3 (.store true 64) = 0 ∧ (after (exec (.halt 8 6 3) (reqOf {}))).queues.last = 4 ∧
    ((after (exec (.start 8 5 3 false 0x100) (reqOf { st := .active }))).chan 3).st = .active := by decide +kernel
theorem test_accepted : ((after (exec (.start 8 5 3 false 0x100) (reqOf { status := 4 }))).chan 3).cca = 0x100 ∧
    ((after (exec (.start 8 5 3 false 0x100) (reqOf { status := 4 }))).chan 3).status = 0 ∧ (reqOf {}).judgeReq 5 3 .halt = 0 ∧
    (reqOf { st := .active }).judgeReq 5 3 .halt = 0 ∧ ((after (exec (.halt 8 5 3) (reqOf { st := .active, act := .ready }))).chan 3).st = .haltPending ∧
    Chan.runsOn { inBracket := true } = true ∧ Chan.runsOn {} = false ∧ (reqOf { st := .active }).judgeReq 5 3 .suspend = 0 ∧
    ((after (exec (.suspend 8 5 3) (reqOf { st := .active }))).chan 3).suspReq = true ∧ (reqOf { st := .waiting }).judgeReq 5 3 .suspend = 0 ∧
    ((after (exec (.suspend 8 5 3) (reqOf { st := .waiting, act := .time 9 }))).chan 3).st = .suspended ∧
    ((after (exec (.resume 8 5 3) (reqOf { st := .suspended }))).chan 3).st = .active ∧ (reqOf { st := .halted }).judgeReq 5 3 .clear = 0 ∧
    ((after (exec (.clear 8 5 3) (reqOf { st := .halted, cca := 64, status := 0x20 }))).chan 3).cca = 0 := by decide +kernel
theorem test_accepted_writes : (reqOf { st := .halted }).judgeReq 5 3 (.modify true 0x40 7 true) = 0 ∧
    ((after (exec (.modify 8 5 3 true 0x40 7 true) (reqOf { st := .halted, status := 0x22A0 }))).chan 3).status = 0x20 ∧
    ((after (exec (.modify 8 5 3 true 0x40 6 true) (reqOf { st := .halted, cca := 9 }))).chan 3).cca = 9 ∧
    (reqOf { cca := 0x77 }).judgeReq 5 3 (.store true 0x1FFFFC0) = 0 ∧ (reqOf {}).judgeReq 5 3 (.store true 0x2000000) = 0 ∧
    tget 0 (after (exec (.storeStatus 8 5 3 true 0x1FFFFC0) (reqOf { cca := 0x77 }))).mem.sram 0x1FFFFC8 = 0x77 ∧
    (after (exec (.storeStatus 8 5 3 true 0x2000000) (reqOf {}))).queues.last = 6 ∧
    (State.reset.setChan 3 { st := .haltPending }).drained 3 = true ∧ State.reset.drained 3 = false ∧
    ((after (exec (.drainComplete 8 3) (State.reset.setChan 3 { st := .haltPending }))).chan 3).status = 0x400 ∧
    ((after (exec (.drainComplete 8 3) (State.reset.setChan 3 { st := .haltPending, noAbort := true, status := 0x10 }))).chan 3).status = 0x10 := by
  decide +kernel
theorem test_resume_fault : (reqOf { st := .faulted, act := .move }).judgeReq 5 3 .resume = 0 ∧ (reqOf {}).invCovers 0 0 = false ∧
    ({ reqOf {} with xl := { inv := some .all } } : State).invCovers 0 0 = true ∧
    ((after (exec (.resume 8 5 3) { reqOf { st := .faulted, act := .move } with xl := { inv := some .all } })).chan 3).act = .inval := by decide +kernel

/-! ## Queues -/

/-- Work queue 5 of the host: 4 entries at SRAM 0x1000; event queue 9: 4 records at 0x2000. -/
def wqLab (w : WQ) (e : EQ) : State := (State.reset.setWq 5 { w with owner := 1, size := 2, base := 0x1000, phy := true }).setEq 9
  { e with size := 2, base := 0x2000, phy := true }
def onWq : WQ := { st := .enabled }
def onEq : EQ := { st := .enabled }
theorem test_doorbells : (wqLab onWq onEq).serves 0 = true ∧ ((wqLab onWq onEq).wq 5).owner = 1 ∧ ((after (exec (.wqDoorbell 8 1 5) (wqLab onWq onEq))).wq 5).piRead = true ∧
    ((after (exec (.wqDoorbell 8 1 5) (wqLab { st := .enabled, piRead := true } onEq))).wq 5).piAgain = true ∧
    ((after (exec (.wqDoorbell 8 0x10 5) (wqLab onWq onEq))).wq 5).foreign = true ∧ ((after (exec (.wqDoorbell 8 0x10 6) (wqLab onWq onEq))).wq 6) = {} ∧
    ((after (exec (.pushSlotWrite 8 1 5 62 [7]) (wqLab onWq onEq))).wq 5).push = [(62, 7)] ∧
    ((after (exec (.pushSlotWrite 8 1 5 63 [7]) (wqLab onWq onEq))).wq 5).copies.length = 1 ∧
    ((after (exec (.pushSlotWrite 8 1 5 63 [7]) (wqLab { st := .enabled, copies := List.replicate 4 (0, []) } onEq))).wq 5).missed = 1 ∧
    ((after (exec (.pushSlotWrite 8 2 5 63 [7]) (wqLab onWq onEq))).wq 5).foreign = true ∧
    ((after (exec (.eqDoorbell 8 1 9 true) (wqLab onWq onEq))).eq 9).ciRead = some true ∧
    ((after (exec (.eqDoorbell 8 1 9 true) (wqLab onWq { st := .enabled, ciRead := some false }))).eq 9).ciAgain = some true := by decide +kernel
/-- R265: PI at one ring ahead of CI is taken, one more is a lap; CI at PI is taken, one more is a lap. -/
def ringLab (pi ci : Word) : State := (wqLab { st := .enabled, piRead := true } { st := .enabled, pi := 3, res := 3, ci := 1, ciRead := some true, notify := 1, vec := 6 })
  |>.sramWrite 0x1000 (leBytes 4 pi.toNat) |>.sramWrite 0x2040 (leBytes 4 ci.toNat)
theorem test_index_reads : ((ringLab 4 3).arrive 8).wqRead 5 0x1000 4 .fail = (.bytes [4, 0, 0, 0], (ringLab 4 3).arrive 8) ∧ ((ringLab 4 3).wq 5).ciOwed = false ∧
    ((4 : Word) - 0).toNat ≤ 2 ^ 2 ∧ 2 ^ 2 < ((5 : Word) - 0).toNat ∧ ((after (exec (.wqPiReadComplete 8 5 .fail) (ringLab 4 3))).wq 5).pi = 4 ∧
    ((after (exec (.wqPiReadComplete 8 5 .fail) (ringLab 5 3))).wq 5).st = .error ∧
    ((ringLab 4 3).arrive 8).eqRead 9 0x2040 4 .fail = (.bytes [3, 0, 0, 0], (ringLab 4 3).arrive 8) ∧
    ((3 : Word) - 1).toNat ≤ ((3 : Word) - 1).toNat ∧ ((3 : Word) - 1).toNat < ((4 : Word) - 1).toNat ∧
    ((after (exec (.eqCiReadComplete 8 9 .fail) (ringLab 4 3))).eq 9).armed = true ∧ ((after (exec (.eqCiReadComplete 8 9 .fail) (ringLab 4 2))).vec 6).pend = true ∧
    ((after (exec (.eqCiReadComplete 8 9 .fail) (ringLab 4 4))).eq 9).st = .error ∧ (((ringLab 4 3).eq 8).ciRead) = none := by decide +kernel

theorem test_create : ringOk true 0x1000 2 64 = true ∧ (0x13 : Ident) ∈ ([0x01, 0x10, 0x11, 0x12, 0x13] : List Ident) ∧ (State.reset.wq 5).st = .absent ∧
    ringOk true 0x1FFFF00 2 32 = true ∧ ringOk true 0x1FFFF40 2 32 = false ∧ ((after (exec (.createWq 8 5 true 0x1000 2 7 0x13) State.reset)).wq 5).owner = 0x13 ∧
    tget 0 (after (exec (.createWq 8 5 true 0x1000 2 7 0x13) (State.reset.sramWrite 0x1040 [9, 9, 9, 9, 9]))).mem.sram 0x1043 = 0 ∧
    tget 0 (after (exec (.createWq 8 5 true 0x1000 2 7 0x13) (State.reset.sramWrite 0x1040 [9, 9, 9, 9, 9]))).mem.sram 0x1044 = 9 ∧
    ((after (exec (.createEq 8 9 true 0x2000 2 7 2 2047) State.reset)).eq 9).armed = true ∧
    (after (exec (.createEq 8 9 true 0x2000 2 7 3 2047) State.reset)).queues.last = 2 ∧ (after (exec (.createEq 8 9 true 0x2000 2 7 2 2048) State.reset)).queues.last = 2 := by
  decide +kernel
def inSt (q : QState) : State := (wqLab { st := q } onEq).setChan 3 { wq := some 5, eq := some 9 }
theorem test_queue_states : ((after (exec (.disableWq 8 5) (inSt .enabled))).wq 5).st = .disabling ∧ ((after (exec (.enableWq 8 5) (inSt .disabled))).wq 5).st = .enabled ∧
    ((after (exec (.destroyWq 8 5) (inSt .error))).wq 5).st = .absent ∧ ((after (exec (.destroyWq 8 5) (inSt .disabled))).chan 3).wq = none ∧
    (after (exec (.destroyWq 8 5) (inSt .enabled))).queues.last = 11 ∧ (after (exec (.destroyWq 8 5) (inSt .disabling))).queues.last = 1 ∧
    (after (exec (.enableWq 8 5) (inSt .error))).queues.last = 5 ∧ (after (exec (.disableWq 8 5) (inSt .absent))).queues.last = 3 ∧
    ((after (exec (.disableComplete 8 5) (wqLab { st := .disabling, ci := 2, finalPi := some 2 } onEq))).wq 5).st = .disabled ∧
    ((after (exec (.disableComplete 8 5) (wqLab { st := .disabling, ci := 2, finalPi := some 3 } onEq))).wq 5).st = .disabling ∧
    (after (exec (.destroyEq 8 8) (inSt .enabled))).queues.last = 3 ∧ (after (exec (.destroyEq 8 9) (inSt .enabled))).queues.last = 11 ∧
    ((after (exec (.destroyEq 8 9) (wqLab onWq onEq))).eq 9).st = .absent := by decide +kernel
theorem test_bind : (State.reset.chan 3).st = .idle ∧ (State.reset.chan 3).eq = none ∧ ((after (exec (.bind 8 3 (.set 5) (.set 9) (some 7)) (wqLab onWq onEq))).chan 3).domain = 7 ∧
    ((after (exec (.bind 8 3 (.set 5) (.set 9) (some 7)) (wqLab onWq onEq))).chan 3).eq = some 9 ∧
    (after (exec (.bind 8 3 (.set 6) (.set 9) (some 7)) (wqLab onWq onEq))).queues.last = 3 ∧
    ((after (exec (.setPrio 8 3 0) State.reset)).chan 3).prio = 0 := by decide +kernel

/-- R270: the entry at CI is a HALT of the unbound channel 3: NOT_PERMITTED; CI goes to 1. R278: a copy of an earlier cycle whose index matches
stands for the slot, one whose index does not match is discarded, and one of this cycle waits. -/
def haltE : List Byte := [2, 0, 3, 0] ++ List.replicate 60 0
def wrongE : List Byte := [2, 0, 3, 0, 9] ++ List.replicate 59 0
def serveLab (c : List (Nat × List Byte)) : State := (wqLab { st := .enabled, pi := 1, copies := c } onEq).sramWrite 0x1080 haltE
theorem test_entry_serve : ((((serveLab []).arrive 8).setWq 5 { ((serveLab []).wq 5) with compared := true }).wqRead 5 0x1080 64 .fail).1 = .bytes haltE ∧
    ((serveLab []).perform 5 haltE).1 = some (4, 0) ∧ ((serveLab []).wqWrite 5 0x1080 (completion haltE 0 4 0)).1 = true ∧
    ((serveLab []).wqWrite 5 0x1040 (leBytes 4 1)).1 = true ∧ ((after (exec (.entryServe 8 5 .fail) (serveLab []))).wq 5).ci = 1 ∧
    tget 0 (after (exec (.entryServe 8 5 .fail) (serveLab []))).mem.sram 0x1040 = 1 ∧
    tget 0 (after (exec (.entryServe 8 5 .fail) (serveLab []))).mem.sram 0x1088 = 4 ∧
    after (exec (.entryServe 8 6 .fail) (serveLab [])) = (serveLab []).arrive 8 := by
  decide +kernel
theorem test_entry_copies : ((after (exec (.entryServe 8 5 .fail) (serveLab [(0, haltE)]))).wq 5).used = 1 ∧
    ((after (exec (.entryServe 8 5 .fail) (serveLab [(0, wrongE)]))).wq 5).missed = 1 ∧
    ((after (exec (.entryServe 8 5 .fail) (serveLab [(1, haltE)]))).wq 5).copies.length = 1 ∧
    ((after (exec (.entryServe 8 5 .fail) (serveLab [(1, haltE)]))).wq 5).ci = 1 ∧ num haltE 4 4 = 0 ∧ num wrongE 4 4 ≠ 0 := by decide +kernel
theorem test_event_posts : ((wqLab onWq { st := .enabled, res := 3, pi := 3 }).eqPost 9 (.chan 3) (List.replicate 32 5)).1 = true ∧
    tget 0 ((wqLab onWq { st := .enabled, res := 3, pi := 3 }).eqPost 9 (.chan 3) (List.replicate 32 5)).2.mem.sram 0x20FF = 5 ∧
    tget 0 ((wqLab onWq { st := .enabled, res := 3, pi := 3 }).eqPost 9 (.chan 3) (List.replicate 32 5)).2.mem.sram 0x2000 = 4 ∧
    ((wqLab onWq { st := .enabled, res := 4 }).eqPost 9 (.chan 3) []).1 = false ∧
    (((wqLab onWq { st := .enabled, waiters := [.chan 1] }).eqPost 9 (.chan 3) []).2.eq 9).waiters = [.chan 1, .chan 3] ∧
    (EQ.hold { waiters := [.chan 3] } (.chan 3) 0) = { waiters := [.chan 3] } ∧ ((wqLab onWq { st := .enabled, admitAt := some 0 }).eqPost 9 (.chan 3) []).1 = false ∧
    (EQ.hold { waiters := [.cap 3], waitNew := 1 } (.chan 3) 0).waiters = [.chan 3, .cap 3] := by decide +kernel
def heldTwo : State := (wqLab onWq { st := .enabled, waiters := [.chan 3] }).setChan 3 { st := .postPending, held := [{ bytes := [1] }, { bytes := [2] }] }
theorem test_held_posts : ((heldTwo.arrive 8).heldAdmit 9).eq 9 = { heldTwo.eq 9 with res := 1, admitAt := some 1, waiters := [], writing := [.chan 3] } ∧ (((heldTwo.arrive 8).heldAdmit 9).eqCommit 9 [1]).1 = .done ∧
    ((after (exec (.heldRecordPost 8 9) heldTwo)).chan 3).held = [{ bytes := [2] }] ∧ ((after (exec (.heldRecordPost 8 9) heldTwo)).eq 9).waiters = [.chan 3] ∧
    ((after (exec (.heldRecordPost 8 9) ((wqLab onWq { st := .enabled, waiters := [.chan 3] }).setChan 3
      { st := .postPending, held := [{ bytes := [1] }] }))).eq 9).waiters = [] ∧
    ((after (exec (.heldRecordPost 8 9) ((wqLab onWq { st := .enabled, waiters := [.cmp 3] }).setCmp 3 { pend := some {} }))).cmp 3).pend = none ∧
    (after (exec (.heldRecordPost 8 9) (wqLab onWq onEq))).mem.sram = [] ∧
    (heldTwo.setEq 9 { heldTwo.eq 9 with admitAt := some 0 }).heldAdmit 9 = heldTwo.setEq 9 { heldTwo.eq 9 with admitAt := some 0 } := by decide +kernel
theorem test_admin_cfg : State.reset.serves (queueOfs + 8) = true ∧ adminClamp 0x0001000B = 0x0001000B ∧ (State.reset.wq 0).st = .absent ∧
    ((after (exec (.adminCfgWrite 8 1 0x0001000B) State.reset)).wq 0).st = .enabled ∧ ((after (exec (.adminCfgWrite 8 1 0x0001000B) State.reset)).wq 0).size = 2 ∧
    ((after (exec (.adminCfgWrite 8 1 0x0001000F) (after (exec (.adminCfgWrite 8 1 0x0001000B) State.reset)))).wq 0).cfgRej = true ∧
    ((after (exec (.adminCfgWrite 8 1 0x0001000A) (after (exec (.adminCfgWrite 8 1 0x0001000B) State.reset)))).wq 0).st = .disabling := by decide +kernel


/-! ## Translation -/

def theWalk (l : Nat) (p : Bool) : Walk := { who := .core 0 1, dom := 1, va := 0x12345678, level := l, table := 0x3000, tabPhy := p, begun := true }
/-- Domain 1 is on; one walk, whose entry at level 0 lies at 0x3A28 and holds a leaf to 0x7000. -/
def walkLab (l : Nat) (p : Bool) : State := (((linked State.reset).setDom 1 { ctrl := 1 }).setWalks [theWalk l p]).sramWrite 0x3A28 (leBytes 8 0x701F)
/-- A leaf at level 0, a table entry, one too deep, one with V 0, a leaf too high, a large leaf off its boundary. -/
theorem test_walk_entries : (theWalk 0 true).entryAt = 0x3A28 ∧ (theWalk 1 true).entryAt = 0x3000 + 0x91 * 8 ∧ entryFault 0x701F 0 = none ∧
    entryFault 0x7001 1 = none ∧ entryFault 0x7001 0 = some 5 ∧ entryFault 0x7000 0 = some 1 ∧ entryFault 0x20001F 1 = none ∧ entryFault 0x20001F 2 = some 5 ∧
    entryFault 0x701F 1 = some 5 ∧ entryFault 0x7005 1 = some 5 ∧ entryFault 0x1FFF03F 0 = none ∧ entryFault 0x200003F 0 = some 8 := by decide +kernel
theorem test_walks : (walkLab 0 true).up = true ∧ (walkLab 0 true).xl.walks[0]? = some (theWalk 0 true) ∧ (theWalk 0 true).begun = true ∧
    ((walkLab 0 true).dom 1).en = true ∧ (((walkLab 0 true).arrive 8).ringSram 0x3A28 8).1 = some (leBytes 8 0x701F) ∧
    ((after (exec (.tableReadComplete 8 0 .fail) (walkLab 0 true))).xl.cache.map Leaf.page) = [0x12345] ∧
    (after (exec (.tableReadComplete 8 0 (.data (leBytes 8 0x4001))) (walkLab 1 false))).xl.walks.map Walk.table = [0x4000] ∧
    (after (exec (.tableReadComplete 8 0 .fail) (walkLab 1 false))).xl.walks.map Walk.tries = [1] ∧ (walkLab 1 false).irq.link = true ∧
    (after (exec (.tableReadComplete 8 0 .fail) { walkLab 1 false with irq := {} })).xl.walks = [] ∧
    (walkLab 0 true).beatLocked none 0x3A28 8 = false ∧ ((walkLab 0 true).setChan 4 { inBracket := true, lockFirst := some 0, lockBeats := [0x3A28 / 64] }).beatLocked
      none 0x3A28 8 = true ∧
    ((after (exec (.tableReadComplete 8 0 .fail) ((walkLab 1 false).setWalks [{ theWalk 1 false with tries := 3 }]))).xl.answers.map Answer.res) = [.inr (6, 1, 0)] ∧
    ((after (exec (.tableReadComplete 8 0 .fail) ((walkLab 1 false).setDom 1 {}))).xl.answers.map Answer.res) = [.inr (7, 0, 0)] ∧
    (after (exec (.tableReadComplete 8 0 (.data (leBytes 8 0x20001F))) (walkLab 1 false))).xl.cache.map Leaf.big = [true] ∧
    ({ walkLab 1 false with xl := { inv := some .all } } : State).invLeaf {} = true ∧
    (({ walkLab 1 false with xl := { inv := some .all } } : State).walkEnd { theWalk 1 false with old := true } (.inl {})).xl.cache = [] ∧
    ((walkLab 1 false).walkEnd { theWalk 1 false with gone := true } (.inl {})).xl.answers = [] ∧
    (((walkLab 1 false).walkEnd { theWalk 1 false with old := true } (.inl {})).xl.cache).length = 1 := by decide +kernel

/-- Domain 1 has two leaves cached, domain 2 one; GO takes domain 1 or a range of one page. -/
def invLab (ctrl : Word) : State :=
  let x : Xlate := { invCtrl := ctrl, invVaLo := 0x2000, cache := [{ dom := 1, page := 1 }, { dom := 1, page := 2 }, { dom := 2, page := 2 }] }
  { State.reset with xl := { x with walks := [theWalk 0 true] } }
theorem test_invalidations : (invLab 0x101).serves (xlOfs + 0x20) = true ∧ (invLab 0x101).xl.inv = none ∧ (invLab 0x101).invScope = some (.dom 1) ∧
    (invLab 0x102).invScope = some (.range 1 0x2000 1) ∧ (invLab 3).invScope = none ∧ ((invLab 0).chan 5).timed = none ∧
    (after (exec (.xlInvGo 8 1 1) (invLab 0x101))).xl.cache = [{ dom := 2, page := 2 }] ∧
    (after (exec (.xlInvGo 8 1 1) (invLab 0x101))).xl.walks.map Walk.old = [true] ∧
    (after (exec (.xlInvGo 8 1 1) (invLab 0x102))).xl.cache = [{ dom := 1, page := 1 }, { dom := 2, page := 2 }] ∧
    (after (exec (.xlInvGo 8 1 0) (invLab 0x101))).xl.inv = none ∧ (after (exec (.xlInvGo 8 1 1) (invLab 3))).xl.invRej = true ∧
    (after (exec (.xlInvGo 8 1 1) (after (exec (.xlInvGo 8 1 1) (invLab 0))))).xl.invRej = true := by decide +kernel
theorem test_invalidation_complete : (invLab 0).up = true ∧ (after (exec (.xlInvGo 8 1 1) (invLab 0x201))).invDone (.dom 2) = true ∧
    (after (exec (.xlInvGo 8 1 1) (invLab 0x101))).invDone (.dom 1) = false ∧
    (after (exec (.invalidationComplete 16) (after (exec (.xlInvGo 8 1 1) (invLab 0x201))))).xl.invSeq = 1 ∧
    (after (exec (.invalidationComplete 16) (after (exec (.xlInvGo 8 1 1) (invLab 0x101))))).xl.inv = some (.dom 1) ∧
    ((State.reset.setDom 3 { invBusy := true }).dom 3).invBusy = true ∧ (State.reset.setDom 3 { invBusy := true }).invDone (.dom 3) = true ∧
    ((after (exec (.invalidationComplete 16) (State.reset.setDom 3 { invBusy := true }))).dom 3).invBusy = false := by decide +kernel
theorem test_dom_ctrl : State.reset.serves (domOfs 255) = true ∧ ((after (exec (.domCtrlWrite 8 1 255 7) State.reset)).dom 255).ctrl = 7 ∧
    ((after (exec (.domCtrlWrite 8 1 3 3) (State.reset.setDom 3 { ctrl := 7 }))).dom 3) = { ctrl := 7, cfgRej := true } ∧
    ((after (exec (.domCtrlWrite 8 1 3 6) (State.reset.setDom 3 { ctrl := 7 }))).dom 3) = { ctrl := 6, invBusy := true } ∧
    ((after (exec (.domCtrlWrite 8 1 3 1) (State.reset.setDom 3 { invBusy := true }))).dom 3) = { invBusy := true, cfgRej := true } ∧
    ((after (exec (.domCtrlWrite 8 1 3 0) (State.reset.setDom 3 { invBusy := true }))).dom 3) = { invBusy := true } := by decide +kernel

/-- Domain 1's fault queue: 4 records at SRAM 0x1000. -/
def fqLab (q : FQ) : State := State.reset.setFq 1 { q with baseLo := 0x1000, ring := 0x1000, cfg := 0xB }
theorem test_fault_records : ((fqLab { st := 1, pi := 3 }).fq 1).size = 4 ∧ ((fqLab { st := 1 }).fq 1).phy = true ∧
    (({ dom := 1, va := 0x1234 } : FaultRec).bytes (fqLab {}).now).length = 32 ∧
    (((fqLab { st := 1, pi := 3 }).faultRecord { dom := 1 }).fq 1).pi = 4 ∧ (((fqLab { st := 1, pi := 4 }).faultRecord { dom := 1 }).fq 1).drop = 1 ∧
    (((fqLab {}).faultRecord { dom := 1 }).fq 1).drop = 1 ∧ tget 0 ((fqLab { st := 1, pi := 3 }).faultRecord { dom := 1, va := 0x34 }).mem.sram 0x10E0 = 0x34 ∧
    (((fqLab {}).faultRecord { dom := 1 }).dom 1).faults = 1 := by decide +kernel
theorem test_fault_queues : (fqLab { st := 1 }).serves (fqOfs 1 + 0xC) = true ∧ ((after (exec (.fqDb 8 1 1 1) (fqLab { st := 1 }))).fq 1).ciRead = some true ∧
    ((after (exec (.fqDb 8 1 1 0) (fqLab { st := 1, ciRead := some true }))).fq 1).ciAgain = some false ∧
    (((fqLab { st := 1, ciRead := some true }).arrive 8).ringSram 0x1040 4).1 = some [0, 0, 0, 0] ∧
    ((after (exec (.fqCiReadComplete 8 1 .fail) (fqLab { st := 1, ciRead := some true }))).fq 1).armed = true ∧
    (((fqLab { st := 1, pi := 3, ci := 1 }).fqTakeCi 1 3 true).fq 1).armed = true ∧ (((fqLab { st := 1, pi := 3, ci := 1 }).fqTakeCi 1 4 true).fq 1).st = 2 ∧
    ((3 : Word) - 1).toNat ≤ ((3 : Word) - 1).toNat ∧ ((3 : Word) - 1).toNat < ((4 : Word) - 1).toNat := by decide +kernel
theorem test_fq_cfg : State.reset.serves (fqOfs 1 + 8) = true ∧ fqClamp 0xC3 = 0xCB ∧ fld (fqClamp 0xC3) 6 2 = 3 ∧ fld (fqClamp 0xB) 6 2 ≠ 3 ∧
    ((after (exec (.fqCfgWrite 8 1 1 0xC3) State.reset)).fq 1).cfgRej = true ∧ ((after (exec (.fqCfgWrite 8 1 1 0xF) (fqLab { st := 1 }))).fq 1).cfgRej = true ∧
    ((after (exec (.fqCfgWrite 8 1 1 0xA) (fqLab { st := 1 }))).fq 1).st = 0 ∧ ((after (exec (.fqCfgWrite 8 1 1 0xB) State.reset)).fq 1).st = 1 ∧
    ((after (exec (.fqCfgWrite 8 1 1 0xB) (State.reset.setFq 1 { baseLo := 0x1FFFF00 }))).fq 1).st = 1 ∧
    ((after (exec (.fqCfgWrite 8 1 1 0xB) (State.reset.setFq 1 { baseLo := 0x1FFFF40 }))).fq 1).cfgRej = true ∧
    (after (exec (.parkPeakClr 8 1 1) (State.reset.setChan 3 { park := some {} }))).xl.parkPeak = 1 := by decide +kernel

/-- Window 2 of core 1 goes through domain 1; the line is present. -/
def winLab (c : Machine.Core) : State := ((State.reset.setWin 10 { ctrl := 0x101, baseHi := 1 }).setDom 1 { ctrl := 1 }).setCore 1
  { c with st := .run, machine := true, dcache := [(0xA0000040 / 64, { data := List.replicate 64 9, phy := false })] }
def winHit : State := { winLab {} with xl := { (winLab {}).xl with cache := [{ dom := 1, page := 0x100000, entry := 0x701F }] } }
theorem test_core_windows : State.reset.serves (winOfs 1 2 + 0) = true ∧ ((after (exec (.cwCtrlWrite 8 1 1 2 .baseLo 0x30000001) State.reset)).win 10).baseLo = 0x30000000 ∧
    ((after (exec (.cwCtrlWrite 8 1 1 2 .ctrl 0x201) (winLab {}))).win 10).cfgRej = true ∧ ((after (exec (.cwCtrlWrite 8 1 1 2 .ctrl 0x100) (winLab {}))).win 10).ctrl = 0x100 ∧
    (winLab {}).up = true ∧ (winLab {}).coreRuns 1 = true ∧ opMisaligned 0xA0000042 (.load 4) = true ∧ opMisaligned 0xA0000044 (.load 4) = false ∧
    ((winLab {}).core 1).pmpOk 0xA0000044 4 .read = true ∧ ((winLab {}).core 1).pmpOk 0xA0000044 4 .write = true ∧ coreRegion 0xA0000044 = .window 2 0x44 ∧
    coreRegion 0x90000044 = .window 1 0x44 ∧ bit ((winLab {}).win 9).ctrl 0 = false ∧ bit ((winLab {}).win 10).ctrl 0 = true ∧
    ((after (exec (.coreWindowAccess 8 1 0xA0000042 (.load 4) .fail) (winLab {}))).core 1).trap = some (.misaligned, 0xA0000042) ∧
    ((after (exec (.coreWindowAccess 8 1 0x90000044 (.load 4) .fail) (winLab {}))).core 1).trap = some (.load, 0x90000044) ∧
    ((after (exec (.coreWindowAccess 8 1 0x90000044 (.load 4) .fail) (winLab {}))).dom 0).faults = 1 ∧
    ((winHit.arrive 8).xlate (.core 1 2) 1 0x100000044 .read).1 = .hit false 0x7044 { dom := 1, page := 0x100000, entry := 0x701F } ∧
    ((after (exec (.coreWindowAccess 8 1 0xA0000044 (.load 4) .fail) winHit)).core 1).rd = 0x09090909 ∧
    ((after (exec (.coreWindowAccess 8 1 0xA0000044 (.store 2 0x102) .fail) winHit)).line 1 false (0xA0000040 / 64)).data.take 7 = [9, 9, 9, 9, 2, 1, 9] := by
  decide +kernel
/-- R334: an access that waits for its walk goes on under the window as it stood. -/
theorem test_core_waits : (((winLab {}).arrive 8).xlate (.core 1 2) 1 0x100000044 .read).1 = .miss ∧
    ((after (exec (.coreWindowAccess 8 1 0xA0000044 (.load 4) .fail) (winLab {}))).core 1).waits = [(.read, 0xA0000044, 1, 0x100000044)] ∧
    (winLab {}).windowVa 1 0xA0000044 2 0x44 .read = some (1, 0x100000044) ∧ ((winLab {}).core 1).waits = [] ∧
    (winLab { waits := [(.read, 0xA0000044, 7, 5)] }).windowVa 1 0xA0000044 2 0x44 .read = some (7, 5) ∧
    ((after (exec (.coreWindowAccess 8 1 0x90000044 (.load 4) .fail) (winLab {}))).win 9).fault = true := by decide +kernel

/-! ## Forced rests, permits, the store -/

def onPin : Pin := { onSince := some 100 }
theorem test_forced_rests : ((pinLab [] {} {}).pin 0).onSince = none ∧ ((pinLab [] onPin {}).pin 0).onSince.isSome = true ∧ (pinLab [] onPin {}).dead = false ∧
    (((pinLab [] onPin { drive := true, holder := some 3 }).forceRest 0 8 500).ou 0).lastCause = 8 ∧
    (((pinLab [] onPin { drive := true, holder := some 3 }).forceRest 0 8 500).chan 3).status = 0x80 ∧
    (((pinLab [] onPin { drive := true }).forceRest 0 8 500).pin 0).hold = true ∧ ((pinLab [] onPin {}).forceRest 0 8 500).fc.raised.getLsbD 96 = true ∧
    (pinLab [0, 2] onPin {}).maxOn 0 = 16000 ∧ ((after (exec (.maxOn 16099 0) (pinLab [0, 2] onPin {}))).pin 0).onSince = some 100 ∧
    ((after (exec (.maxOn 16100 0) (pinLab [0, 2] onPin {}))).pin 0).lastRest = some 16100 := by decide +kernel
/-- R352: 1/128 of a window of 1 ms: 62 500 ticks. -/
theorem test_duty : (pinLab [0, 0x02000000, 0x01000000] onPin {}).dutyLimit 0 ≤ (pinLab [0, 0x02000000, 0x01000000] onPin {}).dutyWin 0 ∧
    (pinLab [0, 0x02000000, 0x01000000] onPin {}).dutyDue 0 (100 + (pinLab [0, 0x02000000, 0x01000000] onPin {}).dutyLimit 0) =
      some (100 + (pinLab [0, 0x02000000, 0x01000000] onPin {}).dutyLimit 0) ∧
    (pinLab [0, 0x02000000, 0x01000000] onPin {}).dutyDue 0 (99 + (pinLab [0, 0x02000000, 0x01000000] onPin {}).dutyLimit 0) = none ∧
    ((after (exec (.duty 9000000 0) (pinLab [0, 0x02000000, 0x01000000] onPin {}))).ou 0).lastCause = 9 ∧
    ((after (exec (.duty 101 0) (pinLab [0, 0x02000000, 0x01000000] onPin {}))).ou 0).lastCause = 0 := by decide +kernel

/-- Pin 0 asks for permit 0; the default POL takes high as asserted. -/
def permitLab (acc raw : Bool) : State := { pinLab [0x100] onPin { drive := true } with
  outs := { (pinLab [0x100] onPin { drive := true }).outs with permits := [(0, { level := acc, accepted := acc, raw := raw, seen := true })] } }
theorem test_permits : (permitLab true true).permitHigh 0 = true ∧ ((permitLab true true).permitIn 0).accepted = true ∧ ((permitLab false true).permitIn 0).accepted = false ∧
    ((permitLab true true).permitReq 0).testBit 0 = true ∧ ((permitLab true true).permitReq 1).testBit 0 = false ∧ ((permitLab true true).pin 0).onSince.isSome = true ∧
    ((permitLab true true).permitQual 0 8000000) = permitLab true true ∧ (((permitLab true false).permitQual 0 8000000).pin 0).onSince = none ∧
    (((permitLab true false).permitQual 0 8000000).ou 0).lastCause = 10 ∧ ((permitLab true false).permitQual 0 8000000).fc.raised.getLsbD 104 = true ∧
    (((permitLab false true).permitQual 0 8000000).permitIn 0).accepted = true ∧ (({ level := false, seen := false } : Permit).level = ({} : Permit).raw) ∧
    ((State.reset.permitQual 0 8000000).permitIn 0).seen = true ∧ ((permitLab true true).permitEdge 0 9 false).permitIn 0 =
      { level := true, accepted := true, raw := false, rawT := 9, seen := true } ∧ (permitLab true true).permitEdge 0 9 true = permitLab true true ∧
    ((after (exec (.permit 8000000 0 [(9, false)]) (permitLab true true))).pin 0).onSince = none := by decide +kernel
theorem test_windows : ((pinLab [] { spent := 3 } {}).outs.window) < 8000000 / ms 1 ∧
    ((after (exec (.budgetWindowStart 8000000) (pinLab [] { spent := 3 } {}))).pin 0).spent = 0 ∧
    ((after (exec (.budgetWindowStart 7999999) (pinLab [] { spent := 3 } {}))).pin 0).spent = 3 := by decide +kernel
/-- R367: 20 ms are 160 000 000 units. -/
def svcHigh : State := State.reset.svcEdge 8 true
theorem test_service_en : State.reset.lws.svcRaw = false ∧ (after (exec (.serviceEnQualify 160000008 []) svcHigh)).lws.svc = true ∧
    (after (exec (.serviceEnQualify 160000007 []) svcHigh)).lws.svc = false ∧ (svcHigh.svcQual 160000008).lws.svc = true ∧
    (after (exec (.serviceEnQualify 160000010 [(160000009, false)]) { svcHigh with fc := { svcHigh.fc with test := true } })).fc.test = false ∧
    (after (exec (.serviceEnQualify 160000010 [(160000009, false)]) svcHigh)).lws.svc = false := by decide +kernel

def sealImg (b : List Byte) : List Byte := splice b 12 (leBytes 4 (imageCrc b).toNat)
def identImg : List Byte := sealImg ([3, 0, 48, 0] ++ List.replicate 44 0)
def conductImg : List Byte := sealImg ([2, 0, 16, 0, 1] ++ List.replicate 11 0)
/-- SERVICE_EN is high, and an image is staged. -/
def storeLab (img : List Byte) (l : Lws) : State := { State.reset with lws := { l with svc := true, stage := putBytes [] 0 img } }
def storing (k : LwsCommit) : State := storeLab [] { commit := some k, ident := [{}], ledger := [List.replicate 32 0], fence := [{}] }
theorem test_store_busy : (storing {}).lws.commit = some {} ∧ (storing {}).serves lwsOfs = true ∧ (storing {}).serves (lwsOfs + 0x1000 + 4 * 607) = true ∧
    (after (exec (.lwsStageWrite 8 1 607 5) (storing {}))).lws.stageRej = true ∧ (after (exec (.registerWrite 8 1 (lwsOfs + 0x1000) 15 5) (storing {}))).lws.stageRej = true ∧
    (after (exec (.commitIdentity 8 1 0x5EA10000) (storing {}))).lws.result = 1 ∧ (after (exec (.registerWrite 8 1 lwsOfs 15 0) (storing {}))).lws.result = 1 := by
  decide +kernel
/-- R367: the eight ways. IEEE 802.3's CRC of the nine digits is CBF43926. -/
theorem test_crc : crc32 [0x31, 0x32, 0x33, 0x34, 0x35, 0x36, 0x37, 0x38, 0x39] = 0xCBF43926 ∧ imageOk 3 identImg false = true ∧ imageOk 2 conductImg false = true ∧
    imageOk 3 conductImg false = false ∧ fld (0x5EA10004 : Word) 16 16 = 0x5EA1 ∧ fld (0x5EA10004 : Word) 3 13 = 0 := by decide +kernel
theorem test_commits : (storeLab identImg {}).serves lwsOfs = true ∧ authHas (storeLab identImg {}).fenceAuth 0x01 = true ∧ authHas (storeLab identImg {}).fenceAuth 0x40 = false ∧
    (storeLab identImg {}).lws.staged 48 = identImg ∧ (after (exec (.commitIdentity 8 0x01 0x5EA10000) (storeLab identImg {}))).lws.ident = [{ valid := false, image := identImg }] ∧
    (after (exec (.commitIdentity 8 0x01 0x5EA10000) (storeLab identImg {}))).lws.ledger.length = 1 ∧
    (after (exec (.commitIdentity 8 0x01 0x5EA00000) (storeLab identImg {}))).lws.result = 2 ∧ (after (exec (.commitIdentity 8 0x40 0x5EA10000) (storeLab identImg {}))).lws.result = 4 ∧
    (after (exec (.commitIdentity 8 0x01 0x5EA10008) (storeLab identImg {}))).lws.result = 2 ∧ (after (exec (.commitConduct 8 0x01 0x5EA10000) (storeLab identImg {}))).lws.result = 2 ∧
    (after (exec (.commitFence 8 0x01 0x5EA10000) (storeLab identImg {}))).lws.result = 2 ∧ (after (exec (.commitConduct 8 0x01 0x5EA10000) (storeLab conductImg {}))).lws.commit.isSome = true ∧
    (after (exec (.commitConduct 8 0x01 0x5EA10000) (storeLab conductImg { conduct := [{}, {}, {}] }))).lws.conduct.length = 4 ∧
    (after (exec (.commitConduct 8 0x01 0x5EA10000) (storeLab conductImg { conduct := [{}, {}, {}, {}] }))).lws.result = 9 ∧
    (after (exec (.commitIdentity 8 0x01 0x5EA10000) { storeLab identImg {} with lws := { (storeLab identImg {}).lws with svc := false } })).lws.result = 4 ∧
    (storeLab identImg {}).serves (lwsOfs + 0x1000 + 4 * 607) = true ∧ tget 0 (after (exec (.lwsStageWrite 8 1 607 0x01020304) (storeLab [] {}))).lws.stage 2431 = 1 := by
  decide +kernel
theorem test_commit_ends : (storing { target := 3 }).lws.commit = some { target := 3 } ∧ (storing {}).dead = false ∧ (storing {}).rst.resetHeld = false ∧
    (after (exec (.commitComplete 8 true) (storing { target := 3 }))).lws.ident = [{ valid := true }] ∧ (after (exec (.commitComplete 8 false) (storing { target := 3 }))).lws.result = 6 ∧
    ((after (exec (.commitComplete 8 true) (storing { target := 3 }))).lws.ledger.map fun r => r.getD 3 9) = [1] ∧
    ((after (exec (.commitComplete 8 false) (storing { target := 3 }))).lws.ledger.map fun r => r.getD 3 9) = [2] ∧
    (after (exec (.commitComplete 8 false) (storing { target := 3 }))).fc.raised.getLsbD 148 = true ∧ ((after (exec (.commitComplete 8 true) (storing { target := 3 }))).cic 678).pend = true ∧
    (after (exec (.commitComplete 8 true) State.reset)).out = [] ∧
    (after (exec (.commitComplete 8 true) { storing { target := 3 } with svc := { State.reset.svc with owesCommit := true } })).out.length = 1 ∧
    (after (exec (.commitComplete 8 true) (storing { target := 1, image := [7] }))).lws.fenceImg = some [7] := by decide +kernel
/-- R369: the new image takes pin 0's on level to low. -/
def lowFence : List Byte := List.replicate 64 0 ++ [1]
theorem test_apply_fence : (((pinLab [] {} {}).applyFence lowFence 500).ou 0).edgeT = 500 ∧ (((pinLab [] {} {}).applyFence (List.replicate 64 0) 500).ou 0).edgeT = 0 ∧
    ((permitLab true true).applyFence lowFence 500).permitIn 1 = {} ∧ (((pinLab [] onPin { drive := true }).applyFence lowFence 500).pin 0).lastRest = some 500 ∧ (((pinLab [] onPin {}).applyFence lowFence 500).ou 0).lastCause = 11 ∧
    (((pinLab [] onPin {}).applyFence lowFence 500).pin 0).hold = true ∧ (((pinLab [] {} { drive := true }).applyFence lowFence 500).pin 0).hold = false := by decide +kernel

/-! ## Ports -/

def portLab (x : Port) : State := State.reset.setPort 3 x
theorem test_ring_move : (portLab { st := .enabled }).serves (yzOfs + 8) = true ∧
    ((after (exec (.registerWrite 8 1 (yzOfs + 8) 15 0x300000) (portLab { st := .enabled }))).port 3).cfgRej = true ∧
    (after (exec (.registerWrite 8 1 (yzOfs + 8) 15 0x300000) (portLab { st := .enabled }))).yz.ports = 0x100000 ∧
    (after (exec (.registerWrite 8 1 (yzOfs + 8) 15 0x200008) (portLab { st := .enabled }))).yz.ports = 0x200008 := by decide +kernel
theorem test_port_ctrl : State.reset.serves (portOfs 15) = true ∧ ((after (exec (.portCtrlWrite 8 1 3 0xFF01) State.reset)).port 3).st = .enabled ∧
    ((after (exec (.portCtrlWrite 8 1 3 0xB) State.reset)).port 3).cfgRej = true ∧ ((after (exec (.portCtrlWrite 8 1 3 0xD) State.reset)).port 3) = { cfgRej := true } ∧ ((after (exec (.portCtrlWrite 8 1 3 3) (portLab { st := .enabled, ctrl := 1 }))).port 3).cfgRej = true ∧
    ((after (exec (.portCtrlWrite 8 1 3 9) (State.reset.setYz { ctrl := 0x10, ports := 0x430000 }))).port 3).cfgRej = true ∧
    ((State.reset.setYz { ctrl := 0x10, ports := 0x430000 }).yz.ring 3).isSome = true ∧
    ((after (exec (.portCtrlWrite 8 1 3 1) (portLab { st := .disabling, ctrl := 1 }))).port 3).busyRej = true ∧
    ((after (exec (.portCtrlWrite 8 1 3 0x10) (portLab { st := .disabling, ctrl := 1 }))).port 3).ctrl = 0x10 ∧
    ((after (exec (.portCtrlWrite 8 1 3 0) ((portLab { st := .enabled, ctrl := 1, ptpOut := [2] }).setTxq 15 { en := true, frames := [[1]] }))).port 3).ptpOut = [] ∧
    ((after (exec (.portCtrlWrite 8 1 3 0) ((portLab { st := .enabled, ctrl := 1 }).setTxq 15 { en := true, frames := [[1]] }))).txq 15) = { en := true } ∧
    ((after (exec (.portDisableComplete 8 3) (portLab { st := .disabling, onWire := some 2 }))).port 3) = {} ∧
    ((after (exec (.linkChange 8 3 false) (portLab { st := .enabled, link := true }))).port 3).linkLost = true ∧
    (after (exec (.linkChange 8 3 false) (portLab { st := .enabled, link := true }))).fc.raised.getLsbD 115 = true ∧
    ((after (exec (.linkChange 8 3 false) (portLab { link := true }))).port 3).linkLost = false := by decide +kernel
def streamLab (x : Stream) : State := State.reset.setStream 5 x
theorem test_streams : State.reset.serves (streamOfs 255) = true ∧ ((after (exec (.rsCtrlWrite 8 1 5 0xFF01) State.reset)).stream 5).ctrl = 0xFF01 ∧
    ((after (exec (.rsCtrlWrite 8 1 5 1) State.reset)).stream 5).ctrl = 0x101 ∧
    ((after (exec (.rsCtrlWrite 8 1 6 0x101) (streamLab { st := .enabled, ctrl := 0xFF01 }))).stream 6).st = .enabled ∧
    ((after (exec (.rsCtrlWrite 8 1 6 0x201) (streamLab { st := .enabled, ctrl := 0xFF01 }))).stream 6).cfgRej = true ∧
    ((after (exec (.rsCtrlWrite 8 1 5 1) (streamLab { st := .disabling }))).stream 5).busyRej = true ∧
    ((after (exec (.rsCtrlWrite 8 1 5 0) (streamLab { st := .enabled }))).stream 5).st = .disabling ∧
    ((after (exec (.streamDisableComplete 8 5) (streamLab { st := .disabling, recs := [[1]] }))).stream 5).recs = [] ∧ (streamLab {}).streamBusy 5 = false ∧
    ((after (exec (.streamDisableComplete 8 5) (streamLab { st := .disabling, owner := some 3 }))).stream 5).st = .disabling ∧
    ((after (exec (.txqCtrlWrite 8 1 15 0) (State.reset.setTxq 15 { en := true, frames := [[1]] }))).txq 15) = {} ∧
    ((after (exec (.txqCtrlWrite 8 1 15 1) (portLab { onWire := some 3 }))).txq 15).busyRej = true ∧
    ((after (exec (.txqCtrlWrite 8 1 15 1) (portLab { onWire := some 2 }))).txq 15).en = true := by decide +kernel
/-- R387: stream 5 in placement mode with GAP 2 µs, of which channel 3 reads since tick 100. -/
def gapLab : State := ((prog { w0 := 0x00500001 } { placedAt := some 100 }).modChan 3 fun h => { h with act := .unit 5 }).setStream 5
  { ctrl := 0x405, pstride := 0x00020800 }
theorem test_gap : (gapLab.chan 3).cur.unit = 5 ∧ (gapLab.chan 3).placedAt = some 100 ∧ gapLab.placing 3 = true ∧ (gapLab.chan 3).act = .unit 5 ∧
    0 < (gapLab.stream 5).gap ∧ ((after (exec (.placementGap 16099 3) gapLab)).chan 3).placedAt = some 100 ∧
    ((after (exec (.placementGap 16100 3) gapLab)).chan 3).placedAt = none := by decide +kernel

def plainFrame (et : List Byte) (n : Nat) : List Byte := [2, 0, 0, 0, 0, 9] ++ List.replicate 6 1 ++ et ++ List.replicate n 7
/-- Port 3 is up and has the address of the frame; its rule 2 takes type 0x1234 to stream 5, its rule 4 drops type 0x1235. -/
def rxPort : Port := { st := .enabled, link := true, macHi := 0x0200, macLo := 9, rules := [(2, { ctrl := 0x503, etype := 0x1234 }), (4, { ctrl := 0x43, etype := 0x1235 })] }
def rxLab (x : Stream) : State := (portLab rxPort).setStream 5 x
def rx (f : List Byte) (good : Bool) (s : State) : State := after (exec (.frameReceive 8 3 f good) s)
theorem test_receive : (rxLab {}).up = true ∧ rxPort.accepts (plainFrame [0x12, 0x34] 46) = true ∧ (rxLab {}).yz.ring 3 = none ∧
    ((rxPort.ruleFor (plainFrame [0x12, 0x34] 46)).map (·.1)) = some 2 ∧ rxPort.ruleFor (plainFrame [0x12, 0x36] 46) = none ∧
    ({ rxPort with rules := [(40, { ctrl := 0x503, etype := 0x1234 })] } : Port).ruleFor (plainFrame [0x12, 0x34] 46) = none ∧ isPtp (plainFrame [0x12, 0x34] 46) = false ∧
    ((rx (plainFrame [0x12, 0x34] 46) true (rxLab { st := .enabled, ctrl := 0x101 })).stream 5).recs = [plainFrame [0x12, 0x34] 46] ∧
    ((rx (plainFrame [0x12, 0x34] 46) true (rxLab {})).stream 5).drop = 1 ∧ ((rx (plainFrame [0x12, 0x34] 46) true (rxLab {})).port 3).rxDrop = 1 ∧
    ((rx (plainFrame [0x12, 0x35] 46) true (rxLab {})).port 3).rxNoMatch = 1 ∧ ((rx (plainFrame [0x12, 0x36] 46) true (rxLab {})).port 3).rxNoMatch = 1 ∧
    ((rx (plainFrame [0x88, 0x08] 46) true (rxLab {})).port 3).rxPause = 1 ∧ ((rx (plainFrame [0x12, 0x34] 45) true (rxLab {})).port 3).rxBad = 1 ∧
    ((rx (plainFrame [0x12, 0x34] 1500) true (rxLab {})).port 3).rxBad = 0 ∧ ((rx (plainFrame [0x12, 0x34] 1501) true (rxLab {})).port 3).rxBad = 1 ∧
    ((rx (plainFrame [0x12, 0x34] 46) false (rxLab {})).port 3).rxBad = 1 ∧ rx (plainFrame [0x12, 0x34] 46) true (State.reset) = State.reset.arrive 8 ∧
    (rx (2 :: (plainFrame [0x12, 0x34] 46).drop 1) true ((rxLab {}).setPort 3 { rxPort with macLo := 8 })) = ((rxLab {}).setPort 3 { rxPort with macLo := 8 }).arrive 8 := by
  decide +kernel
/-- Port 3 carries Yazen (YZ_PORTS bit 3). The default rule of port 3 goes to stream 5. -/
def yzRx (en : Word) : State := (rxLab { st := .enabled }).setYz { ctrl := en, ports := 8 }
theorem test_receive_yazen : (yzRx 1).yz.carries 3 = true ∧ (yzRx 1).yz.en = true ∧ etherType (plainFrame [0x88, 0xB5] 46) = fld (yzRx 1).yz.etype 0 16 ∧
    (rx (plainFrame [0x88, 0xB5] 46) true (yzRx 1)).yz.inbox = [(3, 8, plainFrame [0x88, 0xB5] 46)] ∧ ((rx (plainFrame [0x88, 0xB5] 46) true (yzRx 1)).port 3).rxOk = 1 ∧
    (rx (plainFrame [0x88, 0xB5] 46) true (yzRx 0)).yz.inbox = [] ∧
    ((rx (plainFrame [0x12, 0x36] 46) true ((rxLab { st := .enabled }).setPort 3 { rxPort with ctrl := 0x520 })).stream 5).recs = [plainFrame [0x12, 0x36] 46] := by
  decide +kernel

def txPort : Port := { st := .enabled, link := true }
def txLab (x : Port) : State := (portLab x).setTxq 14 { en := true, frames := [[1, 2], [3]] } |>.setTxq 12 { en := true, frames := [[4]] }
theorem test_transmit : (txLab txPort).up = true ∧ (txLab txPort).nextFrame 3 = some (.queue 2 [1, 2]) ∧ (txLab { txPort with yzOut := [(none, [9])] }).nextFrame 3 = some (.yazen true [9]) ∧
    (txLab { txPort with cycOut := some (0, [8]), yzOut := [(none, [9])] }).nextFrame 3 = some (.cyclic [8]) ∧
    (txLab { txPort with cycOut := some (0, [8]) }).cyclicReady 3 = true ∧ (txLab txPort).cyclicReady 3 = false ∧ (txLab txPort).holdsBack 3 64 = false ∧
    (txLab { txPort with ptpOut := [1] }).nextFrame 3 = some (.ptp 1) ∧ (portLab txPort).nextFrame 3 = none ∧ (txLab txPort).yz.ring 3 = none ∧
    ((after (exec (.frameTransmit 8 3) (txLab txPort))).txq 14).frames = [[3]] ∧ ((after (exec (.frameTransmit 8 3) (txLab txPort))).port 3).onWire = some 2 ∧
    ((after (exec (.frameTransmit 8 3) (txLab txPort))).port 3).txOk = 1 ∧ ((after (exec (.frameTransmit 8 3) (txLab {}))).port 3).txOk = 0 ∧ (sealFrame [1, 2]).length = 64 := by
  decide +kernel

/-! ## PTP and Yazen -/

/-- The engine runs on port 3 in the role `r`, with the clock of port 3 as its master. -/
def ptpLab (r : BitVec 3) (ctrl : Word) : State :=
  { portLab { st := .enabled } with net := { (portLab { st := .enabled }).net with ptp := { ctrl := ctrl, ports := 8, role := r, slavePort := 3, good := 15 } } }
def rxPtp (m : PtpMsg) (s : State) : State := after (exec (.ptpMessageRx 100 3 m) s)
def txPtp (k : PtpKind) (s : State) : State := after (exec (.ptpMessageTx 100 3 k) s)
def mirrored : State := (ptpLab 2 1).setCell 7 { ctrl := 0xF, est := .seeded, hist := [{}] }
theorem test_ptp : (ptpLab 2 1).up = true ∧ (ptpLab 2 1).ptpOn 3 = true ∧ (ptpLab 2 0).ptpOn 3 = false ∧ (799 : Int).natAbs < 800 ∧ 800 ≤ (-800 : Int).natAbs ∧
    (rxPtp (.sync 799) (ptpLab 2 1)).net.ptp.locked = true ∧ (rxPtp (.sync (-800)) (ptpLab 2 1)).net.ptp.bad = 1 ∧ (rxPtp (.sync 799) (ptpLab 1 1)).net.ptp.good = 15 ∧
    (rxPtp (.sync 8000) (ptpLab 2 1)).net.ptp.line 100 = -7900 ∧ (rxPtp (.sync 7999) (ptpLab 2 1)).net.ptp.stepped = false ∧
    (mirrored.cell 7).mode = 7 ∧ (mirrored.cell 7).en = true ∧ (mirrored.cell 7).est ≠ .lost ∧ ((rxPtp (.sync 8000) mirrored).cell 7).hist = [] ∧
    ((rxPtp .delay (ptpLab 1 1)).port 3).ptpOut = [3] ∧ ((rxPtp .delay (ptpLab 2 1)).port 3).ptpOut = [] ∧ ((rxPtp .pdelay (ptpLab 1 0x11)).port 3).ptpOut = [4] ∧
    (rxPtp .management (ptpLab 1 1)).net.ptp.discard = 1 ∧ ((txPtp .sync (ptpLab 1 1)).port 3).ptpOut = [0] ∧ ((txPtp .delayReq (ptpLab 2 1)).port 3).ptpOut = [2] ∧
    ((txPtp .announce (ptpLab 1 1)).port 3).ptpOut = [1] ∧ (ptpLab 0 1).net.ptp.masterOn 3 = false ∧ (ptpLab 1 1).net.ptp.masterOn 3 = true ∧
    (txPtp .announce (ptpLab 0 1)).net.ptp.role = 1 ∧ (txPtp .announce (ptpLab 0 9)).net.ptp.role = 0 ∧
    (after (exec (.holdover 8) (ptpLab 2 1))).net.ptp.role = 3 ∧ (after (exec (.holdover 8) (ptpLab 1 1))).net.ptp.role = 1 := by decide +kernel

/-- T_CYC 125 µs (1 000 000 ticks), transmit 1 µs into the cycle; port 3 carries Yazen, or ports 3 and 4 are RING_A and RING_B. -/
def yzLab (y : Yazen) : State := ((portLab { st := .enabled, link := true, yzOut := [] }).setPort 4 { st := .enabled, link := true }).setYz
  { y with ports := 0x430008, txOfs := 1000 }
def yzMaster (y : Yazen) : State := { yzLab y with net := { (yzLab y).net with ptp := { role := 1 } } }
theorem test_cycles : (yzLab { ctrl := 5 }).up = true ∧ (yzLab { ctrl := 5 }).tCyc = 1000000 ∧ ((yzLab { ctrl := 5 }).arrive 1000000).inCycle = false ∧
    (yzLab { ctrl := 0x15 }).yz.chain = true ∧ (yzLab {}).yz.ringA = 3 ∧ (yzLab {}).yz.ringB = 4 ∧
    (after (exec (.cycleStart 1000000) (yzLab { ctrl := 5 }))).yz.cycle = 1 ∧ (after (exec (.cycleStart 999999) (yzLab { ctrl := 5 }))).yz.cycle = 0 ∧
    ((after (exec (.cycleStart 1000000) (yzLab { ctrl := 0x15 }))).port 3).yzOut.length = 1 ∧ (after (exec (.cycleStart 1000000) (yzLab { ctrl := 4 }))).yz.cycle = 0 ∧
    ((yzMaster { ctrl := 5 }).arrive 0).inCycle = true ∧ ((yzMaster { ctrl := 5 }).arrive 8).synced = true ∧ ((yzLab { ctrl := 5 }).arrive 8).synced = false ∧
    (after (exec (.snapshot 0) ((yzMaster { ctrl := 5, exp := [(0, 0xF)] }).setCell 7 { reload := true }))).yz.body.length = 24 ∧
    ((after (exec (.snapshot 0) ((yzMaster { ctrl := 5, exp := [(0, 0xF)] }).setCell 7 { reload := true }))).cell 7).reload = false ∧
    (after (exec (.snapshot 0) (yzMaster { ctrl := 5, snapIn := some 0, nAx := 5 }))).yz.nAx = 5 ∧
    ((after (exec (.cyclic 8000) (yzMaster { ctrl := 5, snapIn := some 0 }))).port 3).cycOut.isSome = true ∧
    ((after (exec (.cyclic 8000) (yzMaster { ctrl := 5, snapIn := some 0 }))).port 4).cycOut = none ∧ ((yzMaster { ctrl := 5 }).yz.carries 4) = false ∧
    ((after (exec (.cyclic 7999) (yzMaster { ctrl := 5, snapIn := some 0 }))).port 3).cycOut = none ∧
    (yzMaster {}).yz.portOf true = 4 ∧ (after (exec (.ownFrameDrop 1000000 4) ((yzLab { ctrl := 0x15 }).setPort 4 { cycOut := some (0, []) }))).yz.txDrop = 1 ∧
    (after (exec (.ownFrameDrop 999999 4) ((yzLab { ctrl := 0x15 }).setPort 4 { cycOut := some (0, []) }))).yz.txDrop = 0 ∧ ((yzLab {}).port 4).cycOut = none ∧
    (after (exec (.cycleStart 1000000) (yzLab { ctrl := 5 }))).yz.begun = 1 := by decide +kernel
theorem test_line_stops : (yzLab { ctrl := 5 }).serves (yzOfs + 0x1A0) = true ∧ (after (exec (.lineStop 8 1 0x17F) (yzLab { ctrl := 5 }))).yz.cfgRej = true ∧
    (after (exec (.lineStop 8 1 0x180) (yzLab { ctrl := 5 }))).yz.stops = [(2, 1, 0x80, 8)] ∧ ((after (exec (.lineStop 8 1 0x180) (yzLab { ctrl := 5 }))).port 3).yzOut.length = 1 ∧
    ((after (exec (.lineStop 8 1 0x180) (yzLab { ctrl := 5 }))).port 4).yzOut = [] ∧ (after (exec (.lineStop 8 1 0x80) (yzLab { ctrl := 5 }))).yz.stops = [] ∧
    (after (exec (.lineStop 8 1 0x180) (yzLab { ctrl := 4 }))).yz.stopSeq = 0 ∧
    ((yzLab { ctrl := 5, stops := [(2, 1, 1, 0)] }).yz.stops.any fun x => x.2.2.1 = 1 && cyc x.2.2.2 = cyc (max (yzLab {}).now 8)) = false ∧
    (after (exec (.lineStopRepeat 80000) (yzLab { ctrl := 5, stops := [(2, 1, 0x80, 0)] }))).yz.stops = [(1, 1, 0x80, 0)] ∧
    (after (exec (.lineStopRepeat 80000) (yzLab { ctrl := 5, stops := [(1, 1, 0x80, 0), (2, 2, 0x80, 0)] }))).yz.stops = [(1, 1, 0x80, 0), (1, 2, 0x80, 0)] ∧
    (after (exec (.lineStopRepeat 79999) (yzLab { ctrl := 5, stops := [(2, 1, 0x80, 0)] }))).yz.stops = [(2, 1, 0x80, 0)] ∧
    (after (exec (.lineStopRepeat 160000) (yzLab { ctrl := 5, stops := [(1, 1, 0x80, 0)] }))).yz.stops = [] := by decide +kernel

theorem test_stop_reason : (after (exec (.lineStop 8 1 0x7F) (yzLab { ctrl := 5 }))).yz.cfgRej = true ∧
    (after (exec (.lineStop 8 1 0x7F) (yzLab { ctrl := 5 }))).yz.stop = 0x80 ∧ (after (exec (.lineStop 8 1 0x01) (yzLab { ctrl := 5 }))).yz.cfgRej = false := by
  decide +kernel

/-- A frame of node 5, type `ty`: header version 1, two hops, cycle 0, one sample of cell 9 with count 1003. -/
def yzHdr (ty : Nat) : List Byte := [BitVec.ofNat 8 (16 * ty + 1), 2, 5, 0, 0, 0, 0, 0, 0, 0, 0, 0, 7, 0, 1, 0]
def yzSample : List Byte := [9, 1, 0, 0, 0, 0, 0, 0] ++ leBytes 8 1003 ++ leBytes 8 0
def yzFrame (ty : Nat) : List Byte := List.replicate 12 0 ++ [0x88, 0xB5] ++ yzHdr ty ++ yzSample ++ List.replicate 40 0
def yzGet (y : Yazen) (f : List Byte) : State := after (exec (.yazenFrameRx 8) (yzMaster { y with inbox := [(3, 4, f)] }))
theorem test_yazen_types : yzHead (yzFrame 1) = yzHdr 1 ++ yzSample ++ List.replicate 40 0 ∧ yzType (yzHdr 1) = 1 ∧ yzType (yzHdr 2) = 2 ∧ yzType (yzHdr 3) = 3 ∧
    num (yzHdr 1) 0 1 % 16 = 1 ∧ num (yzHdr 1) 4 4 = (yzMaster {}).lineId ∧ (yzGet { ctrl := 5 } (yzFrame 4)).yz.bad = 1 ∧ (yzGet { ctrl := 5 } (yzFrame 0)).yz.bad = 1 ∧
    (yzGet { ctrl := 5 } (splice (yzFrame 1) 14 [0x12])).yz.bad = 1 ∧ (yzGet { ctrl := 5 } (splice (yzFrame 1) 18 [1])).yz.foreign = 1 ∧
    (yzGet { ctrl := 5, sub := [(0, 0x20)] } (yzFrame 1)).yz.rxOk = 1 ∧ ((yzGet { ctrl := 5, sub := [(0, 0x20)] } (yzFrame 1)).cic 676).pend = true ∧
    (yzGet { ctrl := 5 } (yzFrame 1)).yz.rxOk = 0 ∧ (yzGet { ctrl := 5, sub := [(0, 0x20)], cycle := 1 } (yzFrame 1)).yz.rxOk = 1 ∧
    (yzGet { ctrl := 5, sub := [(0, 0x20)], cycle := 2 } (yzFrame 1)).yz.lateRx = 1 ∧
    (yzGet { ctrl := 5, sub := [(0, 0x20)], seenCyc := [(5, 0)] } (yzFrame 1)).yz.dup = 1 ∧
    (yzGet { ctrl := 5 } (yzFrame 2)).yz.stopRx = 0x00010005 ∧ (yzGet { ctrl := 5, seenStop := [(5, 0)] } (yzFrame 2)).yz.dup = 1 ∧
    (yzGet { ctrl := 0x15, creditA := 3 } (yzFrame 3)).yz.creditA = 10 ∧ (yzGet { ctrl := 0x15, creditA := 12 } (yzFrame 3)).yz.creditA = 16 ∧
    (yzSrc (yzHdr 1) ≠ (yzMaster {}).node) := by decide +kernel
theorem test_forwarding : (yzMaster { ctrl := 0x15 }).yz.ring 3 = some false ∧ (yzMaster { ctrl := 0x15 }).yz.ring 5 = none ∧ (yzMaster { ctrl := 0x15 }).forwards (yzFrame 1) = true ∧
    (yzMaster { ctrl := 0x15 }).forwards (yzFrame 3) = false ∧ yzType (yzHead (yzFrame 1)) ≠ 2 ∧ (yzGet { ctrl := 0x15 } (yzFrame 1)).yz.fwdB.map (·.1) = [4] ∧
    ((yzGet { ctrl := 0x15 } (yzFrame 1)).yz.fwdB.map fun x => x.2.getD 15 0) = [1] ∧
    (yzGet { ctrl := 0x15, fwdB := List.replicate 16 (0, []) } (yzFrame 1)).yz.fwdDrop = 1 ∧ (yzGet { ctrl := 0x15, fwdB := List.replicate 15 (0, []) } (yzFrame 1)).yz.fwdB.length = 16 ∧
    ((yzGet { ctrl := 0x15 } (yzFrame 2)).port 4).yzOut.length = 1 ∧ (yzGet { ctrl := 0x15 } (splice (yzFrame 1) 15 [1])).yz.freedA = 1 ∧
    (after (exec (.forwardDrop 2000000 true) (yzMaster { ctrl := 0x15, fwdB := [(0, yzFrame 2)] }))).yz.fwdB = [] ∧
    (after (exec (.forwardDrop 1999999 true) (yzMaster { ctrl := 0x15, fwdB := [(0, yzFrame 2)] }))).yz.fwdDrop = 0 := by decide +kernel
/-- R23: a forwarded line stop of cycle 0 is stale at the start of cycle 2; the stale list goes by arrival. -/
def staleLab : State := (yzMaster { ctrl := 0x15 }).setPort 4 { yzOut := [(none, [8]), (some 0, [9])] }
theorem test_forward_drop : (yzMaster { ctrl := 0x15 }).yz.portOf true = 4 ∧ ((after (exec (.forwardDrop 2000000 true) staleLab)).port 4).yzOut = [(none, [8])] ∧
    (after (exec (.forwardDrop 1999999 true) staleLab)).yz.fwdDrop = 0 := by decide +kernel
/-- R404: an older owner's copy stays for two cycles against a later node's. R53: a first sample, with REG_OFS 4 and modulus 100, stands at 1007. -/
theorem test_slots_and_samples : (({ slots := [(9, { node := 4, cycle := 3, seen := true })], begun := 5 } : Yazen).slotRx 5 9 [1]).slotConflict = true ∧
    tget {} (({ slots := [(9, { node := 4, cycle := 3, seen := true })], begun := 6 } : Yazen).slotRx 5 9 [1]).slots 9 =
      { data := [1], node := 5, cycle := 6, seen := true } ∧
    (tget {} (({ slots := [(9, { node := 5, cycle := 3, seen := true })], begun := 5 } : Yazen).slotRx 5 9 [1]).slots 9).cycle = 5 ∧
    (((lab 9 { ctrl := 0xF, mod := 100, ofs := 4 }).mirrorSample 9 { valid := true, count := 1003 }).1.cell 9).phase = 7 ∧
    (((lab 9 { ctrl := 0xF, mod := 100, ofs := 4 }).mirrorSample 9 { valid := true, count := 1003 }).1.cell 9).turn = 10 ∧
    (((lab 9 { ctrl := 0xF, mod := 100, ofs := 4, mirPrev := some 5 }).mirrorSample 9 { valid := true, reload := true, count := 1003 }).1.cell 9).mirPrev = some 1003 := by
  decide +kernel

/-! ## Interrupts, mailboxes, the Understory -/

/-- Vectors 3 and 7 pend; vector 3 is masked. -/
def vecLab (open_ : Bool) : State := { State.reset with irq := { msixEn := open_, bme := true, link := true,
                                                                 vecs := [(3, { pend := true }), (7, { pend := true, ctrl := 0, addrLo := 0x1000, data := 9 })] } }
theorem test_msix : (vecLab true).up = true ∧ (vecLab true).irq.open_ = true ∧ (vecLab false).irq.open_ = false ∧ (vecLab true).irq.vecs.Pairwise (fun a b => a.1 < b.1) ∧
    ((vecLab true).vec 7).pend = true ∧ bit ((vecLab true).vec 7).ctrl 0 = false ∧ (∀ j < 7, ((vecLab true).vec j).pend = true → bit ((vecLab true).vec j).ctrl 0 = true) ∧
    (after (exec (.msixIssue 8) (vecLab true))).out = [.msi 0x1000 9] ∧ ((after (exec (.msixIssue 8) (vecLab true))).vec 7).pend = false ∧
    (after (exec (.msixIssue 8) (vecLab false))).out = [] ∧ (vecLab true).irq.msiAt ≠ some (cyc 8) ∧
    (after (exec (.msixIssue 9) { vecLab true with irq.msiAt := some 1 })).out = [] := by decide +kernel
/-- Cores 1 and 3 run; source 9 pends, PRIO 3, targets 1 and 3. -/
def cicLab (c : CicSrc) : State := ((State.reset.setCore 1 { st := .run }).setCore 3 { st := .run }).setCic 9 c
theorem test_deliver : (cicLab { cfg := 0xA3, pend := true }).cicPend 9 = true ∧ (cicLab {}).cicEligible { cfg := 0xA3 } 1 = true ∧ (cicLab {}).cicEligible { cfg := 0xA3 } 0 = false ∧
    (cicLab {}).cicEligible { cfg := 0xA3 } 2 = false ∧ (cicLab {}).cicEligible { cfg := 0xAB } 3 = true ∧ ({ cfg := 0xAB, rr := 1 } : CicSrc).anyOf = true ∧ (1 + 2) % 4 = 3 ∧
    ((after (exec (.cicDeliver 8 9) (cicLab { cfg := 0xA3, pend := true }))).cic 9) = { cfg := 0xA3, bound := true, core := 1 } ∧
    ((after (exec (.cicDeliver 8 9) (cicLab { cfg := 0xAB, pend := true, rr := 1 }))).cic 9) = { cfg := 0xAB, bound := true, core := 3, rr := 3 } ∧
    ((after (exec (.cicDeliver 8 9) (cicLab { cfg := 0xA0, pend := true }))).cic 9).bound = false ∧ ((after (exec (.cicDeliver 8 9) (cicLab { cfg := 0x13, pend := true }))).cic 9).bound = false ∧
    State.reset.serves (cicOfs + 0x1000 + 4 * 31) = true ∧ ((after (exec (.cicPendWrite 8 1 0 0x200) (cicLab {}))).cic 9).pend = true ∧
    ((after (exec (.cicPendWrite 8 1 21 0x100) (cicLab {}))).cic 680) = {} ∧ ((after (exec (.cicPclrWrite 8 1 0 0x200) (cicLab { pend := true }))).cic 9).pend = false ∧
    ((after (exec (.cicPclrWrite 8 1 0 0x200) (cicLab { pend := true, bound := true }))).cic 9).pend = true := by decide +kernel
def claimLab : State := (cicLab { cfg := 3, bound := true, core := 1 }).setCic 12 { cfg := 3, bound := true, core := 1 }
theorem test_claim : claimLab.serves (cicCoreOfs 1 + 4) = true ∧ claimLab.irq.srcs.Pairwise (fun a b => a.1 < b.1) ∧ (claimLab.cic 9).bound = true ∧ (claimLab.cic 9).core = 1 ∧
    (∀ p ∈ claimLab.irq.srcs, p.2.bound = true → p.2.core = 1 → p.2.prio < (claimLab.cic 9).prio ∨ p.2.prio = (claimLab.cic 9).prio ∧ 9 ≤ p.1) ∧
    (after (exec (.cicClaim 8 0x11 1) claimLab)).out = [.reply [0x8009]] ∧ ((after (exec (.cicClaim 8 0x11 1) claimLab)).cic 9).active = true ∧
    (after (exec (.cicClaim 8 1 1) claimLab)).out = [.reply [0]] ∧ (after (exec (.cicClaim 8 0x10 0) claimLab)).out = [.reply [0]] ∧
    ((after (exec (.cicComplete 8 0x11 1 9) (cicLab { active := true, core := 1 }))).cic 9).active = false ∧
    ((after (exec (.cicComplete 8 0x10 1 9) (cicLab { active := true, core := 1 }))).cic 9).active = true ∧
    (after (exec (.cicComplete 8 0x11 1 8) (cicLab { active := true, core := 1 }))).irq.badComplete = 2 := by decide +kernel

/-- Mailbox 5 between the host (A) and `o` (B), TIMEOUT 2 ms. -/
def mbLab (o : Word) (x : MbDir) : State := State.reset.setMb 5 { bind := 0x00020001 ||| (o <<< 8), note := 0x807, ab := x }
theorem test_mailbox_send : (mbLab 0x40 {}).serves (mbOfs 5 + 0x20) = true ∧ ((mbLab 0x40 {}).mb 5).side 0x10 = none ∧ ((mbLab 0x40 {}).mb 5).side 1 = some true ∧
    ((mbLab 0x40 {}).mb 5).side 0x40 = some false ∧ ((mbLab 0x40 {}).mb 5).idOf false = 0x40 ∧ (mbLab 0x10 {}).sideHeld 0x10 = true ∧ (mbLab 0x40 {}).sideHeld 0x40 = false ∧
    (after (exec (.mbSend 8 0x10 5 1) (mbLab 0x40 {}))).mbox.foreign = 1 ∧ ((after (exec (.mbSend 8 1 5 1) (mbLab 0x40 { tx := [(0, 7)] }))).mb 5).ab.slot = [7, 0, 0, 0, 0, 0, 0, 0] ∧
    ((after (exec (.mbSend 8 1 5 0) (mbLab 0x40 {}))).mb 5).ab.busy = false ∧ ((after (exec (.mbSend 8 1 5 1) (mbLab 0x40 { busy := true }))).mb 5).ab.txRej = true ∧
    ((after (exec (.mbSend 8 1 5 1) (mbLab 0 {}))).mb 5).ab.rc = 0xFF01 ∧ ((after (exec (.mbSend 8 1 5 1) (mbLab 0x10 {}))).mb 5).ab.rc = 0xFF00 ∧
    ((after (exec (.mbSend 8 0x40 5 1) (mbLab 0x40 {}))).vec 7).pend = true ∧
    (after (exec (.mbSend 8 1 5 1) ((mbLab 0x11 {}).setCore 1 { st := .run }))).cicLive 549 = true := by decide +kernel
theorem test_mailbox_ack : ((after (exec (.mbAck 8 0x40 5 3) (mbLab 0x40 { busy := true, msg := true }))).mb 5).ab = { acked := true, rc := 3 } ∧
    ((after (exec (.mbAck 8 0x40 5 0x8000) (mbLab 0x40 { busy := true, msg := true }))).mb 5).ab.rxRej = true ∧
    ((after (exec (.mbAck 8 0x40 5 0x7FFF) (mbLab 0x40 { busy := true, msg := true }))).mb 5).ab.rc = 0x7FFF ∧
    ((after (exec (.mbAck 8 0x40 5 3) (mbLab 0x40 {}))).mb 5).ab.rxRej = true ∧ ((after (exec (.mbAck 8 0x40 5 3) (mbLab 0x40 { busy := true, msg := true, gone := true }))).mb 5).ab = {} ∧
    (after (exec (.mbAck 8 0x20 5 3) (mbLab 0x40 {}))).mbox.foreign = 1 ∧ ((mbLab 0x40 {}).mb 5).limit = 2 ∧ (mbLab 0x40 {}).up = true ∧
    ((after (exec (.mbTimeout 16000100 5 true) (mbLab 0x40 { busy := true, sentAt := 100 }))).mb 5).ab.timeout = true ∧
    ((after (exec (.mbTimeout 16000099 5 true) (mbLab 0x40 { busy := true, sentAt := 100 }))).mb 5).ab.timeout = false := by decide +kernel
theorem test_mailbox_boxes : (after (exec (.mbBindWrite 8 1 5 0) { mbLab 0x40 {} with movers := { boxes := [(5, true, 0), (6, true, 0)] } })).movers.boxes = [(6, true, 0)] := by
  decide +kernel
theorem test_mailbox_bind : State.reset.serves (mbTabOfs + 4 * 63) = true ∧ mbIdent 0x14 = false ∧ mbIdent 0x13 = true ∧ mbIdent 0 = true ∧
    (after (exec (.mbBindWrite 8 1 63 0x1401) State.reset)).mbox.cfgRej = true ∧ (after (exec (.mbBindWrite 8 1 63 0x1010) State.reset)).mbox.cfgRej = true ∧
    ((after (exec (.mbBindWrite 8 1 5 0x34001) (mbLab 0x40 { busy := true }))).mb 5).ab.busy = true ∧ ((after (exec (.mbBindWrite 8 1 5 0) (mbLab 0x40 { busy := true }))).mb 5).ab.busy = false ∧
    (after (exec (.mbBindWrite 8 1 5 0) (after (exec (.mbLock 8 1 1) (mbLab 0x40 {}))))).mbox.cfgRej = true ∧ (after (exec (.mbLock 8 1 0) State.reset)).mbox.locked = false := by
  decide +kernel

/-- The Understory in state `u`; cell 7 (QUAD) is the kept one. -/
def undLab (u : Und) : State := { lab 7 { ctrl := 3, est := .seeded, hist := [{}] } with und := { u with ctrl := 0x47 } }
theorem test_rest_request : (undLab {}).restJudge 0x7E570001 = 0 ∧ (undLab {}).restJudge 0x7E560001 = 2 ∧ (undLab {}).restJudge 0x7E570003 = 2 ∧
    ((undLab {}).setCell 7 { ctrl := 0xF }).restJudge 0x7E570001 = 2 ∧ (undLab { st := .entering }).restJudge 0x7E570001 = 1 ∧
    ((undLab {}).setChan 3 { st := .active }).restJudge 0x7E570001 = 11 ∧ fld (0x7E570001 : Word) 1 15 = 0 ∧ bit (undLab {}).und.ctrl 6 = true ∧ (undLab {}).serves (undBase + 4) = true ∧
    (after (exec (.undRest 8 1 0x7E570001) (undLab {}))).und.st = .entering ∧ (after (exec (.undRest 8 1 0x7E570001) (undLab {}))).und.stopped = 15 ∧
    (after (exec (.undRest 8 1 0x7E570001) ((undLab {}).setCore 1 { st := .run }))).und.stopped = 13 ∧ (after (exec (.undRest 8 1 0x7E570000) (undLab {}))).und.st = .run ∧
    (after (exec (.undRest 8 1 0x7E560001) (undLab {}))).und.result = 2 ∧
    (after (exec (.coreWfi 8 1) ((undLab { st := .entering }).setCore 1 { st := .run }))).und.stopped = 2 ∧
    ((after (exec (.coreWfi 8 1) ((undLab {}).setCore 1 { st := .run }))).core 1).st = .wfi := by decide +kernel
def entering (stopped : BitVec 4) : State := (undLab { st := .entering, stopped := stopped }).setPin 0 { onSince := some 2 }
theorem test_rest_settled : (((entering 15).arrive 8).encsSettle true).und = (entering 15).und ∧ (((entering 15).arrive 8).chan 3).timed = none ∧
    ((undLab { st := .waking }).arrive 8).encsSettle false = (undLab { st := .waking }).arrive 8 := by decide +kernel
theorem test_rest_entry : (entering 15).up = true ∧ ((entering 15).cell 7).en = true ∧ ((entering 15).cell 7).exactMode = false ∧
    (after (exec (.restEntry 8) (entering 15))).und.st = .rest ∧ ((after (exec (.restEntry 8) (entering 15))).pin 0).onSince = none ∧
    ((after (exec (.restEntry 8) (entering 15))).cell 7).est = .idle ∧ (after (exec (.restEntry 8) (entering 7))).und.st = .entering ∧
    (after (exec (.restEntryTimeout 8000000) (entering 7))).und.result = 7 ∧ (after (exec (.restEntryTimeout 7999999) (entering 7))).und.st = .entering ∧
    (after (exec (.restEntryTimeout 8000000) (entering 15))).und.st = .entering := by decide +kernel
/-- UND_WATCH entry 2 waits for code 0x70. -/
theorem test_wake : (undLab {}).dead = false ∧ (undLab { st := .rest }).resting = true ∧ (undLab { watch := [(2, 0x7001)] }).und.watching 0x70 = 4 ∧ (undLab {}).und.watching 0x70 = 0 ∧
    (after (exec (.wakeEvent 8 none) (undLab { st := .rest }))).und.wakePin = true ∧ (after (exec (.wakeEvent 8 (some 0x70)) (undLab { st := .rest, watch := [(2, 0x7001)] }))).und.wake = 4 ∧
    (after (exec (.wakeEvent 8 (some 0x70)) (undLab { st := .rest }))).und.st = .rest ∧ (after (exec (.wakeEvent 8 none) (undLab { st := .entering }))).und.abandoned = true ∧
    (after (exec (.wakeEvent 8 (some 0x70)) (undLab { st := .waking, wake := 1, watch := [(2, 0x7001)] }))).und.wake = 5 ∧ (after (exec (.wakeEvent 8 none) (undLab {}))).und.wakePin = false ∧
    (after (exec (.undTimerExpiry 8000000) (undLab { st := .rest, timer := 1, watch := [(2, 0x7001)] }))).und.st = .waking ∧
    (after (exec (.undTimerExpiry 7999999) (undLab { st := .rest, timer := 1, watch := [(2, 0x7001)] }))).und.st = .rest ∧
    (after (exec (.mainsCrossingTimeout 200000100 1) ((undLab { st := .rest, watch := [(2, 0x1101)] }).setMainsIn 1 { lastX := some 100 }))).und.st = .waking ∧
    (after (exec (.mainsCrossingTimeout 200000099 1) ((undLab { st := .rest, watch := [(2, 0x1101)] }).setMainsIn 1 { lastX := some 100 }))).und.st = .rest := by decide +kernel
theorem test_wake_complete : (after (exec (.wakeComplete 8) (undLab { st := .waking }))).und.st = .run ∧ ((after (exec (.wakeComplete 8) (undLab { st := .waking }))).cic 677).pend = true ∧
    (after (exec (.wakeComplete 8) (undLab { st := .rest }))).und.st = .rest ∧ ((after (exec (.wakeComplete 8) ((undLab { st := .waking }).setCore 1 { st := .wfi }))).core 1).st = .run ∧
    (after (exec (.wakeComplete 8) (undLab { st := .waking, stopSeen := some (5, 0x80, 2) }))).yz.stopRx = 0x02800005 ∧
    (after (exec (.wakeComplete 8) (undLab { st := .waking, stopSeen := some (5, 0x80, 2) }))).fc.raised.getLsbD 130 = true := by decide +kernel

/-! ## Steward cores -/

/-- Core 1 runs in machine mode. -/
def coreLab (c : Machine.Core) : State := State.reset.setCore 1 { c with st := .run }
def sramLab : State := (coreLab {}).sramWrite 0x40 [1, 2, 3, 4, 5]
def locked : State := sramLab.setChan 3 { inBracket := true, lockFirst := some 0, lockBeats := [1] }
def badLab : State := { sramLab with mem := { sramLab.mem with bad := [8] } }
theorem test_core_access : (coreLab {}).up = true ∧ (coreLab {}).coreRuns 1 = true ∧ opMisaligned 0x50000042 (.load 4) = true ∧ opMisaligned 0x60000000 (.load 4) = false ∧
    coreRegion 0x60000000 = .other ∧ coreRegion 0x50000040 = .uncached 0x40 ∧ coreRegion 0x1FFFC = .tcm 0x1FFFC ∧ coreRegion 0x20000 = .other ∧ coreRegion 0x40000040 = .cached 0x40 ∧
    coreRegion 0x41FFFFFC = .cached 0x1FFFFFC ∧ coreRegion 0x42000000 = .other ∧ ((coreLab {}).core 1).pmpOk 0x50000040 4 .read = true ∧ ((coreLab {}).core 1).pmpOk 0x50000040 4 .write = true ∧
    ((coreLab { machine := false }).core 1).pmpOk 0x50000040 4 .read = false ∧
    ((after (exec (.coreSramAccess 8 1 0x50000042 (.load 4)) sramLab)).core 1).trap = some (.misaligned, 0x50000042) ∧
    ((after (exec (.coreSramAccess 8 1 0x60000000 (.load 4)) sramLab)).core 1).trap = some (.load, 0x60000000) ∧
    ((after (exec (.coreSramAccess 8 1 0x50000040 (.load 4)) (coreLab { machine := false }))).core 1).trap = some (.load, 0x50000040) ∧
    ((after (exec (.coreSramAccess 8 1 0x50000040 (.load 4)) sramLab)).core 1).rd = 0x04030201 ∧
    ((after (exec (.coreSramAccess 8 1 0x50000040 (.load 4)) locked)).core 1).rd = 0 ∧ locked.beatLocked none 0x40 4 = true ∧ sramLab.beatLocked none 0x40 4 = false ∧
    tget 0 (after (exec (.coreSramAccess 8 1 0x50000042 (.store 2 0x0908)) sramLab)).mem.sram 0x43 = 9 := by decide +kernel
theorem test_core_tcm : (((coreLab {}).arrive 8).tcmRead 1 0x10 4).1 = some [0, 0, 0, 0] ∧
    tget 0 (after (exec (.coreSramAccess 8 1 0x10 (.store 4 0x01020304)) (coreLab {}))).mem.tcm (tcmKey 1 0x10) = 4 ∧
    ((after (exec (.coreSramAccess 8 1 0x10 (.load 2)) (after (exec (.coreSramAccess 8 1 0x10 (.store 4 0x01020304)) (coreLab {}))))).core 1).rd = 0x0304 ∧
    (({ coreLab {} with mem := { (coreLab {}).mem with tcmBad := [tcmKey 1 0x10 / 8] } } : State).tcmRead 1 0x10 4).1 = none ∧
    ((after (exec (.coreSramAccess 8 1 0x40000048 (.load 4)) (coreLab { dcache := [(0x40000040 / 64, { data := List.replicate 64 9 })] }))).core 1).rd = 0x09090909 := by
  decide +kernel
theorem test_core_atomics : (sramLab.arrive 8).sramRead 0x40 4 = (some [1, 2, 3, 4], sramLab.arrive 8) ∧ (badLab.sramRead 0x40 4).1 = none ∧
    tget 0 (after (exec (.coreAmo 8 1 0x50000040 .add 0x10) sramLab)).mem.sram 0x40 = 0x11 ∧ ((after (exec (.coreAmo 8 1 0x50000040 .add 0x10) sramLab)).core 1).rd = 0x04030201 ∧
    (after (exec (.coreAmo 8 1 0x50000040 .add 0x10) sramLab)).mem.locks = 1 ∧ ((after (exec (.coreAmo 8 1 0x40000040 .add 0x10) sramLab)).core 1).trap = some (.store, 0x40000040) ∧
    (after (exec (.coreAmo 8 1 0x50000040 .add 0x10) badLab)).fc.raised.getLsbD 145 = true ∧ AmoOp.apply .min 0xFFFFFFFF 1 = 0xFFFFFFFF ∧ AmoOp.apply .minu 0xFFFFFFFF 1 = 1 ∧
    ((after (exec (.coreLr 8 1 0x50000040) sramLab)).core 1).resv = some (1, 8) ∧
    ((after (exec (.coreSc 2056 1 0x50000040 7) (after (exec (.coreLr 8 1 0x50000040) sramLab)))).core 1).rd = 0 ∧
    ((after (exec (.coreSc 2057 1 0x50000040 7) (after (exec (.coreLr 8 1 0x50000040) sramLab)))).core 1).rd = 1 ∧
    tget 0 (after (exec (.coreSc 2056 1 0x50000040 7) (after (exec (.coreLr 8 1 0x50000040) sramLab)))).mem.sram 0x40 = 7 ∧
    ((after (exec (.coreSc 16 1 0x50000080 7) (after (exec (.coreLr 8 1 0x50000040) sramLab)))).core 1).rd = 1 := by decide +kernel

/-- A changed line of SRAM 0x40 and an unchanged one. -/
def dirtyLine : CacheLine := { data := List.replicate 64 9, dirty := true, addr := 0x40 }
def cacheLab : State := coreLab { dcache := [(0x40000040 / 64, dirtyLine)], icache := [(0x40000080 / 64, { data := [1] })], cmoAddr := 0x40000040 }
theorem test_caches : cacheLab.serves (coreOfs 1 + 0x10) = true ∧ (cacheLab.core 1).cmoAddr.toNat / 64 = 0x1000001 ∧ lineCached 0x1000001 = true ∧ lineCached 0x1400000 = false ∧
    tget 0 (after (exec (.cleanDataLines 8 0x11 1 0) cacheLab)).mem.sram 0x7F = 9 ∧ (after (exec (.cleanDataLines 8 0x11 1 0) cacheLab)).line 1 false 0x1000001 = { dirtyLine with dirty := false } ∧
    (after (exec (.invalidateDataLines 8 0x11 1 0) cacheLab)).mem.sram = [] ∧ (after (exec (.invalidateDataLines 8 0x11 1 0) cacheLab)).line 1 false 0x1000001 = {} ∧
    tget 0 (after (exec (.cleanInvalidateDataLines 8 0x11 1 0) cacheLab)).mem.sram 0x40 = 9 ∧
    (after (exec (.invalidateInstructionLines 8 0x11 1 0x10000) cacheLab)).line 1 true 0x1000002 = {} ∧
    (after (exec (.cleanDataLines 8 0x12 1 0) cacheLab)).mem.sram = [] ∧ ((after (exec (.cleanDataLines 8 0x11 1 0) (coreLab { cmoAddr := 0x60000000 }))).core 1).cmoRej = true ∧
    ((after (exec (.cleanDataLines 8 0x11 1 0) (coreLab { cmoAddr := 0x1FFC0 }))).core 1).cmoRej = false ∧
    tget 0 (after (exec (.cleanWholeDataCache 8 0x11 1 0) cacheLab)).mem.sram 0x40 = 9 ∧
    (after (exec (.cleanInvalidateWholeDataCache 8 0x11 1 0) cacheLab)).line 1 false 0x1000001 = {} ∧ (cacheLab.writeBack 1 { dirtyLine with bad := true }).fc.raised.getLsbD 137 = true ∧
    ({ cacheLab with irq := { cacheLab.irq with link := true } }.writeBack 1 { dirtyLine with phy := false }).out.length = 1 := by decide +kernel

def beatHeld : State := cacheLab.setChan 3 { inBracket := true, lockFirst := some 0, lockBeats := [1] }
theorem test_cmo_waits : beatHeld.backWaits 1 0x1000001 = true ∧ after (exec (.cleanDataLines 8 0x11 1 0) beatHeld) = beatHeld.arrive 8 ∧
    cacheLab.backWaits 1 0x1000001 = false ∧ (after (exec (.invalidateDataLines 8 0x11 1 0) beatHeld)).line 1 false 0x1000001 = {} := by decide +kernel
theorem test_in_reset : (after (exec (.coreInReset 8 1) (State.reset.setCore 1 { st := .resetting, halted := true, waits := [(.read, 1, 1, 1)] }))).core 1 = { halted := true } ∧
    ({ State.reset with now := 8 * (2 ^ 32 + 5) } : State).csr 2 .timeh = 1 ∧ ({ State.reset with now := 8 * (2 ^ 32 + 5) } : State).csr 2 .time = 5 ∧
    State.reset.csr 2 .mhartid = 2 ∧ State.reset.csr 0 .mimpid = 1 := by decide +kernel

theorem test_core_reset : State.reset.serves (coreOfs 1) = true ∧ ((after (exec (.coreReset 8 1 1 0) (coreLab {}))).core 1).st = .resetting ∧
    ((after (exec (.coreReset 8 0x11 1 0) (coreLab {}))).core 1).st = .run ∧ ((after (exec (.coreReset 8 0x40 1 0) (coreLab {}))).core 1).st = .run ∧
    ((after (exec (.coreRelease 8 1 1 0) (State.reset.setCore 1 { resetVec := 0x40 }))).core 1).pc = 0x40 ∧ (State.reset.core 1).st = .inReset ∧
    ((after (exec (.coreRelease 8 1 1 0) (State.reset.setCore 1 { st := .resetting }))).core 1).busyRej = true ∧
    ((after (exec (.coreInReset 8 1) ((cacheLab.setCore 1 { cacheLab.core 1 with st := .resetting }).setCic 9 { bound := true, core := 1 }))).core 1).dirtyLost = true ∧
    ((after (exec (.coreInReset 8 1) ((cacheLab.setCore 1 { cacheLab.core 1 with st := .resetting }).setCic 9 { bound := true, core := 1 }))).cic 9).pend = true ∧
    ((after (exec (.coreInReset 8 1) ((cacheLab.setCore 1 { cacheLab.core 1 with st := .resetting }).setCic 9 { active := true, core := 1 }))).cic 9).active = false ∧
    cicLevel 9 = false ∧ ((after (exec (.coreInReset 8 1) (coreLab {}))).core 1).st = .run := by decide +kernel
/-- R472: a period of 2 µs. -/
theorem test_watchdogs : State.reset.serves (coreOfs 1 + 0x28) = true ∧ (coreLab {}).wdPaused 1 = false ∧ fld (0x5A5A : Word) 0 16 = 0x5A5A ∧
    ((after (exec (.wdCtrlWrite 8 1 1 0x201) (coreLab {}))).core 1).wdAt = some 16008 ∧ ((after (exec (.wdCtrlWrite 8 1 1 0) (coreLab {}))).core 1).wdCtrl = 0x100 ∧
    ((after (exec (.wdCtrlWrite 8 1 1 0x300) (coreLab { wdCtrl := 0x201 }))).core 1).wdCtrl = 0x301 ∧
    ((after (exec (.wdKick 8 0x11 1 0x5A5A) (coreLab { wdCtrl := 0x201 }))).core 1).wdAt = some 16008 ∧
    ((after (exec (.wdKick 8 0x11 1 0x5A5B) (coreLab { wdCtrl := 0x201 }))).core 1).wdAt = none ∧ ((after (exec (.wdKick 8 0x12 1 0x5A5A) (coreLab { wdCtrl := 0x201 }))).core 1).wdAt = none ∧
    ((after (exec (.watchdogExpiry 16008 1) (coreLab { wdCtrl := 0x203, wdActive := 0x203, wdAt := some 16008, resetVec := 0x40 }))).core 1).pc = 0x40 ∧
    ((after (exec (.watchdogExpiry 16008 1) (coreLab { wdCtrl := 0x203, wdActive := 0x201, wdAt := some 16008 }))).core 1).wdResets = 0 ∧
    ((after (exec (.watchdogExpiry 16007 1) (coreLab { wdActive := 0x203, wdAt := some 16008 }))).core 1).wdExpired = false ∧
    (after (exec (.watchdogExpiry 16008 1) (coreLab { wdActive := 0x203, wdAt := some 16008 }))).fc.raised.getLsbD 141 = true := by decide +kernel
def scrubLab (at_ : Nat) : State := { coreLab {} with mem := { (coreLab {}).mem with scrub := 0x101, scrubAt := at_, weak := [9, 16] } }
theorem test_timer_and_scrub : ((after (exec (.mtip 800 1) (coreLab { cmpHi := 0, cmpLo := 100 }))).core 1).mtip = true ∧
    ((after (exec (.mtip 799 1) (coreLab { cmpHi := 0, cmpLo := 100 }))).core 1).mtip = false ∧ ((coreLab {}).core 1).st ≠ .wfi ∧
    (scrubLab 1).badWord 64 64 = none ∧ (scrubLab 1).beatLocked none 64 64 = false ∧ (after (exec (.scrubBeat 8) (scrubLab 1))).mem.weak = [16] ∧
    (after (exec (.scrubBeat 7) (scrubLab 1))).mem.scrubAt = 1 ∧ (after (exec (.scrubBeat 8) (scrubLab (beatCount - 1)))).mem.scrubPass = 1 ∧
    (after (exec (.scrubBeat 8) (scrubLab (beatCount - 2)))).mem.scrubAt = beatCount - 1 ∧ State.reset.serves (memOfs + 0x3C) = true ∧
    (after (exec (.arbTwaitClr 8 1 1) { scrubLab 0 with mem := { (scrubLab 0).mem with twait := 5 } })).mem.twait = 0 := by decide +kernel

/-! ## Fault collection -/

def fcLab (f : Fc) : State := { pinLab [] onPin { drive := true } with fc := f }
def ev (i sev react : Nat) : FcEvent := { src := i, sev := sev, react := react }
theorem test_fault_events : fcReserved 26 = true ∧ fcReserved 25 = false ∧ (fcLab {}).fc.nonComp [7] 7 = true ∧ (fcLab {}).fc.nonComp [26] 26 = false ∧
    (fcLab { odd := [(7, some 0)] }).fc.wired [7] 1 7 = true ∧ (fcLab { odd := [(7, some 1)] }).fc.wired [7] 1 7 = false ∧ (fcLab { odd := [(7, some 0)], wireNow := 0x80 }).fcJudge [7] 7 = none ∧
    (after (exec (.faultEvent 16 [7]) (after (exec (.faultEvent 8 [7]) (fcLab {}))))).fc.wireNow = 0x80 ∧ (after (exec (.faultEvent 16 [7]) (after (exec (.faultEvent 8 [7]) (fcLab {}))))).fc.latch = 0x80 ∧
    (((fcLab { odd := [(7, some 0)] }).arrive 8).fcJudge [7] 7) = some { src := 7, sev := 2, react := 1, wire := true } ∧ ((fcLab {}).arrive 8).fcJudge [7] 7 = none ∧
    (fcLab { raised := 0x80 }).fcJudge [] 7 = some (ev 7 1 1) ∧ (fcLab { raised := 0x80, live := 0x80 }).fcJudge [] 7 = none ∧ (fcLab { raised := 0x80 }).fc.reports 7 = true ∧
    sortEvents [ev 3 1 0, ev 9 2 0, ev 2 1 0] = [ev 9 2 0, ev 2 1 0, ev 3 1 0] ∧ (fcLab { raised := 0x80 }).up = true ∧
    (after (exec (.faultEvent 8 []) (fcLab { raised := 0x80 }))).fc.latch = 0x80 ∧ (after (exec (.faultEvent 8 []) (fcLab { raised := 0x80 }))).fc.raised = 0 ∧
    (after (exec (.faultEvent 8 [7]) (fcLab {}))).fc.wireNow = 0 ∧ tget none (after (exec (.faultEvent 8 [7]) (fcLab {}))).fc.odd 7 = some 1 := by decide +kernel
theorem test_fault_records_kept : (((fcLab {}).fcRecord [ev 7 1 1]).fcSrc 7).cnt = 1 ∧ (((fcLab { latch := 0x80 }).fcRecord [ev 7 1 1]).fcSrc 7).cnt = 1 ∧ (fcLab {}).fc.latch.getLsbD 7 = false ∧
    ((fcLab { seq := 33 }).fcRecord [ev 7 1 1]).fc.seq = 34 ∧ ((fcLab { seq := 33, latch := 0x80 }).fcRecord [ev 7 1 1]).fc.seq = 33 ∧
    tget {} ((fcLab { seq := 33 }).fcRecord [ev 7 1 1]).fc.trail 1 = { w0 := 0x00210507, w1 := 0 } ∧ ((fcLab {}).fcRecord [ev 7 1 1]).recordedSev 7 = 1 ∧
    ((fcLab { latch := BitVec.ofNat 256 (1 <<< 255) }).fcRecord [ev 255 3 3]).fc.seq = 1 ∧ ((fcLab {}).fcReact [ev 7 1 1]).fc.safe = false ∧ ((fcLab {}).fcReact [ev 7 1 3]).fc.safe = true ∧
    ((((fcLab {}).setChan 3 { st := .active }).fcReact [ev 7 1 2]).chan 3).st = .haltPending ∧ ((fcLab {}).fcReact [ev 7 1 4]).rst.busy = true := by decide +kernel
theorem test_safe_state : (fcLab {}).isInput 0 = false ∧ ((fcLab {}).ou 0).drive = (fcLab {}).onLevel 0 ∧ ((fcLab {}).pin 0).onSince.isSome = true ∧
    ((fcLab {}).safeGo.pin 0).hold = true ∧ ((fcLab {}).safeGo.pin 0).lastRest = some 8 ∧ ((fcLab {}).safeGo.ou 0).lastCause = 11 ∧ (fcLab { safe := true }).safeGo = fcLab { safe := true } ∧
    (after (exec (.parityError 8) (fcLab {}))).fc.self = true ∧ (after (exec (.parityError 8) (fcLab {}))).fc.safe = true ∧
    (fcLab {}).serves (fcOfs + 0xC) = true ∧ (after (exec (.safeEnter 8 1 0x5AFE0000) (fcLab {}))).fc.safe = true ∧ (after (exec (.safeEnter 8 1 0x5AFE0001) (fcLab {}))).fc.result = 2 ∧
    (after (exec (.safeEnter 8 1 0x5AFE0004) (fcLab {}))).fc.result = 2 ∧ (after (exec (.safeExit 8 1 0x5AFF0000) (fcLab { safe := true }))).fc.result = 2 ∧
    (after (exec (.safeExit 8 1 0x5AFE0000) (fcLab {}))).fc.result = 11 ∧ (after (exec (.safeExit 8 1 0x5AFE0000) (fcLab { safe := true, self := true }))).fc.result = 4 ∧
    (after (exec (.safeExit 8 1 0x5AFE0000) ((fcLab { safe := true }).setChan 3 { st := .haltPending }))).fc.result = 1 ∧
    (after (exec (.safeExit 8 1 0x5AFE0000) (fcLab { safe := true }))).fc.safe = false ∧
    (after (exec (.safeExit 8 1 0x5AFE0000) (fcLab { safe := true, live := BitVec.ofNat 256 (1 <<< 130) }))).fc.result = 11 ∧
    ((fcLab {}).fcSrc 130).react = 3 ∧ (fcLab { safe := true, live := 0x80 }).exitJudge = 0 ∧
    (fcLab { exitAt := some 0 }).safeGo = fcLab { exitAt := some 0, safe := true } ∧ (after (exec (.safeExit 8 1 0x5AFE0000) (fcLab { safe := true, causeAt := some 1 }))).fc.safe = true := by decide +kernel
theorem test_fault_n : (fcLab {}).setFaultN.fc.faultN = !(fcLab {}).rst.fenceRead ∧ (fcLab { safe := true }).setFaultN.fc.faultN = true ∧
    (fcLab { pinSev := 2, latch := 0x80, recSev := [(7, 2)] }).faultPin = true ∧ (fcLab { latch := 0x80, recSev := [(7, 2)] }).faultPin = !(fcLab {}).rst.fenceRead := by decide +kernel
def keyLab (svc : Bool) (f : Fc) : State := { fcLab f with lws := { (fcLab f).lws with svc := svc } }
theorem test_collector_keys : (fcLab {}).serves (fcOfs + 0x20) = true ∧ (after (exec (.fcTkeyWrite 100 1 0xA5F0) (fcLab {}))).fc.half = some (1, 100) ∧
    (after (exec (.fcTkeyWrite 8100 1 0x0F5A) (keyLab true { half := some (1, 100) }))).fc.test = true ∧
    (after (exec (.fcTkeyWrite 8101 1 0x0F5A) (keyLab true { half := some (1, 100) }))).fc.test = false ∧
    (after (exec (.fcTkeyWrite 8100 2 0x0F5A) (keyLab true { half := some (1, 100), force := 7 }))).fc.force = 0 ∧
    (after (exec (.fcTkeyWrite 8100 1 0x0F5A) (keyLab false { half := some (1, 100) }))).fc.test = false ∧
    (after (exec (.fcTkeyWrite 8100 1 1) (keyLab true { test := true }))).fc.test = false ∧
    (after (exec (.fcLock 8 1 1) (fcLab {}))).fc.locked = true ∧ ((fcLab { locked := true }).fcSrcWrite 7 0).fc.cfgRej = true ∧ (fcLab { locked := true }).fc.locked = true ∧
    (after (exec (.fcFirstClr 8 1 2) (fcLab { first := some {} }))).fc.first = none ∧ (after (exec (.fcFirstClr 8 1 1) (fcLab { first := some {} }))).fc.first = some {} ∧
    (after (exec (.supplyExcursion 8 none) (fcLab {}))).fc.raised.getLsbD 162 = true ∧ (after (exec (.supplyExcursion 8 (some 1)) (fcLab {}))).fc.raised.getLsbD 163 = true ∧
    (after (exec (.supplyExcursion 8 (some 6)) (fcLab {}))).outs.bank33 = 6 ∧ (after (exec (.supplyExcursion 8 (some 6)) { fcLab {} with und := { st := .rest } })).fc.raised = 0 ∧
    (after (exec (.temperatureThreshold 8 true true) (fcLab {}))).fc.level.getLsbD 161 = true ∧
    (after (exec (.temperatureThreshold 8 false false) (fcLab { level := BitVec.ofNat 256 (1 <<< 160) }))).fc.level = 0 := by decide +kernel

/-! ## Resets, boot, fuses -/

def liveLab : State := (((pinLab [] onPin { drive := true, clamps := 3 }).setChan 3 { st := .active }).setCore 1 { st := .run, resetVec := 0x40 }).sramWrite 0x40 [7]
theorem test_function_reset : (liveLab.functionReset 4 16000).chans = [] ∧ (liveLab.functionReset 4 16000).mem.sram = [(0x40, 7)] ∧
    (liveLab.functionReset 4 16000).rst.cause.getLsbD 4 = true ∧ ((liveLab.functionReset 4 16000).pin 0).onSince = none ∧ ((liveLab.functionReset 4 16000).ou 0).clamps = 3 ∧
    ((liveLab.functionReset 4 16000).ou 0).drive = false ∧ ((liveLab.functionReset 4 16000).core 1) = { resetVec := 0x40 } ∧ liveLab.dead = false ∧ liveLab.rst.perst = false ∧
    (after (exec (.perstN 8 false) liveLab)).rst.perst = true ∧ (after (exec (.perstN 8 false) liveLab)).chans = [] ∧
    (after (exec (.perstN 100 true) (after (exec (.perstN 8 false) liveLab)))).rst.readyAt = 8100 ∧ after (exec (.perstN 8 true) liveLab) = liveLab.arrive 8 ∧
    (after (exec (.flr 8) liveLab)).rst.readyAt = 80008 ∧ (after (exec (.flr 8) (after (exec (.perstN 8 false) liveLab)))).rst.cause.getLsbD 3 = false ∧
    liveLab.serves 0x1004 = true ∧ (after (exec (.funcReset 8 1 0xC1EA0001) liveLab)).rst.busy = true ∧ (after (exec (.funcReset 8 1 0xC1EA0000) liveLab)).rst.busy = false := by decide +kernel
/-- Core 0 stands in reset; the part has booted. -/
def busyLab (st : BitVec 3) : State := { State.reset.setCore 0 { resetVec := 0x80 } with rst := { busy := true, readyAt := 100 }, boot := { st := st } }
theorem test_reset_ready : ((after (exec (.functionResetReady 100) (busyLab 4))).core 0).pc = 0x80 ∧ ((after (exec (.functionResetReady 100) (busyLab 5))).core 0).st = .inReset ∧
    (after (exec (.functionResetReady 99) (busyLab 4))).rst.busy = true ∧ (after (exec (.functionResetReady 100) (busyLab 5))).rst.busy = false := by decide +kernel
def goodSlot : LwsSlot := { valid := true, image := conductImg }
def downLab : State := { liveLab with lws := { conduct := [{ valid := true, image := [1] }, goodSlot] } }
theorem test_whole_resets : (after (exec (.powerOnReset 8) downLab)).dead = true ∧ (after (exec (.powerOnReset 8) downLab)).lws.conduct.length = 2 ∧ (after (exec (.powerOnReset 8) downLab)).mem.sram = [] ∧
    (after (exec (.powerOnRelease 16 3) (after (exec (.powerOnReset 8) downLab)))).now = 0 ∧
    (after (exec (.powerOnRelease 16 3) (after (exec (.powerOnReset 8) downLab)))).lws.conduct = [{ image := [1] }, goodSlot] ∧
    (after (exec (.powerOnRelease 16 3) (after (exec (.powerOnReset 8) downLab)))).lws.conductImg = some conductImg ∧
    after (exec (.powerOnRelease 16 3) downLab) = downLab.arrive 16 ∧ after (exec (.resetN 16 799) downLab) = downLab.arrive 16 ∧
    (after (exec (.resetN 16 8000) downLab)).rst.cause = 3 ∧ (after (exec (.resetN 16 8000) downLab)).chans = [] ∧
    (after (exec (.resetN 16 8000) (storing { target := 3 }))).rst.resetHeld = true ∧ (storing { target := 3 }).lws.commit ≠ none ∧
    (after (exec (.commitComplete 24 true) (after (exec (.resetN 16 8000) (storing { target := 3 }))))).dead = false := by decide +kernel
def cfgOf (bme : Bool) : PcieCfg := { busMaster := bme, msixEnable := bme, funcMask := false, mps := 2, mrrs := 2, cto := 0 }
theorem test_link : (after (exec (.pcieLinkChange 8 true (cfgOf true)) liveLab)).irq.bme = true ∧ (after (exec (.pcieLinkChange 8 true (cfgOf false)) liveLab)).irq.link = true ∧
    (after (exec (.pcieLinkChange 8 false (cfgOf false)) (after (exec (.pcieLinkChange 8 true (cfgOf true)) liveLab)))).irq.bme = true ∧
    (after (exec (.pcieLinkChange 8 true (cfgOf false)) { liveLab with rst := { perst := true } })).irq.link = false := by decide +kernel

/-- R507: four bytes for SRAM 0x100 or for core 0's TCM 0x20, entry 0x21, level 1. -/
def bootImg (load : Nat) (bus : Byte) : List Byte := leBytes 4 0x54424E5A ++ [1, 0, bus, 1] ++ leBytes 4 4 ++ leBytes 4 load ++ leBytes 4 0x21 ++ List.replicate 236 0 ++ [1, 2, 3, 4]
def bootLab (b : Boot) : State := { State.reset with boot := b }
theorem test_boot_rejects : headOk (bootImg 0x40000100 0) = true ∧ headOk (bootImg 0x40000100 3) = false ∧ headOk (bootImg 0x1FFFC 2) = true ∧ headOk (bootImg 0x1FFFD 2) = false ∧
    (bootLab {}).imageJudge (bootImg 0 3) = 2 ∧ loadAt (bootImg 0x40000100 0) = some (false, 0x100) ∧ loadAt (bootImg 0x20 0) = some (true, 0x20) ∧ (bootLab {}).resting = false ∧
    (after (exec (.bootImageCheck 8 .flash0 (bootImg 0 3) false) (bootLab {}))).boot.cause = 2 ∧ (after (exec (.bootImageCheck 8 .flash0 (bootImg 0 3) false) (bootLab { st := 1 }))).boot.st = 1 ∧
    (after (exec (.bootImageCheck 8 .flash1 (bootImg 0 3) false) (bootLab { st := 1, cause := 4 }))).boot.st = 5 ∧
    (after (exec (.bootImageCheck 8 .noFlash [] false) (bootLab {}))).boot.cause = 1 ∧ (State.reset.core 3).st = .inReset ∧
    (after (exec (.bootImageCheck 8 .host [] false) (bootLab { st := 2 }))).boot.cause = 2 ∧ (after (exec (.bootImageCheck 8 .host [] false) ((bootLab { st := 2 }).setCore 1 { st := .run }))).boot.st = 2 := by
  decide +kernel
/-- R508: the signature check itself is not the model's (log 2): an image that it accepts is loaded and core 0 starts. -/
theorem test_boot_accepts (h : Config.ecdsaOk (slice (bootImg 0x40000100 0) 32 64) (Config.sha256 (slice (bootImg 0x40000100 0) 0 96 ++
      slice (bootImg 0x40000100 0) 256 (imgLength (bootImg 0x40000100 0)))) (slice (bootImg 0x40000100 0) 96 64) = true) :
    (bootLab {}).imageJudge (bootImg 0x40000100 0) = 0 := by
  have e : headOk (bootImg 0x40000100 0) = true := by decide +kernel
  have l : num (bootImg 0x40000100 0) 7 1 = 1 := by decide +kernel
  have b : (bootLab {}).boot.hash = 0 := rfl
  have v : (bootLab {}).levelInForce = 1 := rfl
  simp only [State.imageJudge, e, h, b, v, l]
  simp
/-- The same image refused by the signature check, and one whose key is not the fuses'. -/
theorem test_boot_signature (k : Config.sha256 (slice (bootImg 0x40000100 0) 32 64) ≠ 5) : (bootLab { hash := 5 }).imageJudge (bootImg 0x40000100 0) = 3 := by
  have e : headOk (bootImg 0x40000100 0) = true := by decide +kernel
  have b : (bootLab { hash := 5 }).boot.hash = 5 := rfl
  have d : decide (Config.sha256 (slice (bootImg 0x40000100 0) 32 64) ≠ 5) = true := decide_eq_true k
  simp only [State.imageJudge, e, b, d]
  rfl
theorem test_boot_host : State.reset.serves (bootOfs + 0xC) = true ∧ fld (0xB0070001 : Word) 16 16 = 0xB007 ∧
    (after (exec (.bootHostGo 8 1 0xB0070001) (bootLab { st := 5, keyhash := 9 }))).boot = { st := 2, keyhash := 9, hash := 9 } ∧
    ((after (exec (.bootHostGo 8 1 0xB0070001) ((bootLab { st := 4 }).setCore 0 { st := .run }))).core 0).st = .resetting ∧
    (after (exec (.bootHostGo 8 1 0xB0070001) (bootLab { st := 2 }))).boot.rej = true ∧ (after (exec (.bootHostGo 8 0x20 0xB0070001) (bootLab { st := 5 }))).boot.st = 5 := by decide +kernel
def fuseLab (svc : Bool) (b : Boot) : State := { bootLab b with lws := { svc := svc } }
theorem test_fuses : State.reset.serves (bootOfs + 0x40) = true ∧ (after (exec (.bootFuseCmd 8 1 0xF05E0001) (fuseLab true { keystage := 7 }))).boot.fusing = 7 ∧
    (after (exec (.bootFuseCmd 8 1 0xF05E0001) (fuseLab true {}))).boot.fuseResult = 2 ∧ (after (exec (.bootFuseCmd 8 1 0xF05E0001) (fuseLab false { keystage := 7 }))).boot.fuseResult = 4 ∧
    (after (exec (.bootFuseCmd 8 0x40 0xF05E0001) (fuseLab true { keystage := 7 }))).boot.fuseResult = 4 ∧
    (after (exec (.bootFuseCmd 8 0x20 0xF05E0001) (fuseLab true { keystage := 7 }))).boot.fuseBusy = true ∧
    (after (exec (.fuseProgramComplete 8 true) (fuseLab true { fuseBusy := true, fusing := 7 }))).boot.keyhash = 7 ∧
    (after (exec (.fuseProgramComplete 8 true) (fuseLab true { fuseBusy := true, fusing := 7 }))).boot.blank = false ∧
    (after (exec (.fuseProgramComplete 8 false) (fuseLab true { fuseBusy := true, fusing := 7 }))).boot.fuseResult = 6 ∧
    (after (exec (.fuseProgramComplete 8 true) { fuseLab true { fuseBusy := true } with svc := { owesFuse := true } })).out.length = 1 ∧
    (after (exec (.fuseProgramComplete 8 true) (fuseLab true { keystage := 7 }))).boot.blank = true := by decide +kernel

/-! ## The service port, registers, the fetcher -/

def svcLab (x : Svc) : State := { (State.reset.setMb 5 { bind := 0x20 ||| (0x40 <<< 8) }).sramWrite 0x40 [1, 2, 3, 4] with svc := { x with attached := true }, lws := { State.reset.lws with svc := true } }
theorem test_service_frames : (svcLab {}).dead = false ∧ (svcLab {}).svc.attached = true ∧ (svcLab {}).resting = false ∧ (after (exec (.svcMbAck 8 5 0) State.reset)).out = [] ∧
    (after (exec (.svcMbAck 8 5 0) { svcLab {} with rst := { busy := true } })).out = [.svc 8 []] ∧ (after (exec (.svcMbAck 8 5 0) (svcLab {}))).out = [.svc 11 []] ∧
    (after (exec (.svcMbAck 8 6 0) (svcLab {}))).out = [.svc 4 []] ∧ (after (exec (.svcMbSend 8 5 [7]) (svcLab {}))).out = [.svc 0 []] ∧
    ((after (exec (.svcMbSend 8 5 [7]) (svcLab {}))).mb 5).ab.slot = [7, 0, 0, 0, 0, 0, 0, 0] ∧ (after (exec (.svcMbSend 8 5 [7]) (after (exec (.svcMbSend 8 5 [7]) (svcLab {}))))).out = [.svc 0 [], .svc 1 []] ∧
    ((svcLab {}).mb 5).side svcId = some true ∧ ((svcLab {}).mb 5).idOf false = 0x40 ∧ (svcLab {}).sideHeld 0x40 = false ∧
    (after (exec (.svcStage 8 0x97F [7]) (svcLab {}))).lws.stage = [(0x97F, 7)] ∧ (after (exec (.svcStage 8 0x980 [7]) (svcLab {}))).out = [.svc 2 []] ∧
    (after (exec (.svcStage 8 0 (List.replicate 513 7)) (svcLab {}))).out = [.svc 2 []] ∧ (after (exec (.svcRead 8 0x1000 0) (svcLab {}))).out = [.svc 2 []] ∧
    (after (exec (.svcRead 8 0x1010 2) (svcLab {}))).out = [.svc 0 [8, 0]] ∧ (after (exec (.svcRead 8 0x1010 65) (svcLab {}))).out = [.svc 2 []] ∧
    ((svcLab {}).readCapPop svcId 0).2 = svcLab {} ∧ (svcLab {}).cicClaim svcId 3 = (0, svcLab {}) := by decide +kernel
theorem test_service_commands : (({ svcLab {} with lws := { (svcLab {}).lws with stage := putBytes [] 0 identImg } } : State).lwsJudge svcId 0x5EA10003) = 0 ∧
    (after (exec (.svcCommit 8 1 2 0x5EA10003) { svcLab {} with lws := { (svcLab {}).lws with stage := putBytes [] 0 identImg } })).svc.owesCommit = true ∧
    (after (exec (.svcCommit 8 1 2 0x5EA10003) (svcLab {}))).out = [.svc 2 [0x20000]] ∧ (svcLab {}).lwsJudge svcId 0x5EA10003 = 2 ∧
    (after (exec (.svcFuse 8 7) (svcLab {}))).boot.fuseBusy = true ∧ (after (exec (.svcFuse 8 7) (svcLab {}))).out = [] ∧ (svcLab {}).boot.blank = true ∧ (svcLab {}).lws.svc = true ∧
    (after (exec (.svcFuse 8 7) { svcLab {} with lws := {} })).out = [.svc 4 [0x40002]] ∧ (after (exec (.svcCoreReset 8 1 true) ((svcLab {}).setCore 1 { st := .run }))).out = [.svc 0 [1]] ∧
    (after (exec (.servicePortAttach 8) State.reset)).svc.attached = true ∧ (after (exec (.usbBusReset 8) (svcLab { owesCommit := true }))).svc = { busReset := true } ∧
    ((after (exec (.usbBusReset 8) (State.reset.setMb 5 { bind := 0x2040, ab := { busy := true, msg := true } }))).mb 5).ab = { acked := true, rc := 0xFF00 } ∧
    ((State.reset.setMb 5 { bind := 0x2040 }).mb 5).idB = 0x20 ∧ ((State.reset.setMb 5 { bind := 0x2040 }).mb 5).idA ≠ 0x20 := by decide +kernel

/-- A register write at `o` leads where the command `i` leads. -/
def sameAs (s : State) (o : Nat) (v : Word) (i : Instr) : Prop := after (exec (.registerWrite 8 1 o 15 v) s) = after (exec i s) ∧ after (exec i s) ≠ s.arrive 8
def regLab : State := ((cicLab {}).setFq 255 { st := 1 }).setYz { ctrl := 1 }
theorem test_register_rows : sameAs regLab (cmpOfs 255) 1 (.cmpCtrlWrite 8 1 255 1) ∧ sameAs regLab (cellOfs 63 + 4) 9 (.cellModWrite 8 1 63 9) ∧ sameAs regLab (portOfs 15) 1 (.portCtrlWrite 8 1 15 1) ∧
    sameAs regLab (domOfs 255) 1 (.domCtrlWrite 8 1 255 1) ∧ sameAs regLab (fqOfs 255 + 0xC) 1 (.fqDb 8 1 255 1) ∧ sameAs regLab (mbOfs 63 + 0x20) 1 (.mbSend 8 1 63 1) ∧
    sameAs regLab (coreOfs 3 + 0x24) 1 (.wdCtrlWrite 8 1 3 1) ∧ sameAs regLab (cicOfs + 0x1000 + 4 * 31) 1 (.cicPendWrite 8 1 31 1) ∧ sameAs regLab 0x1004 0xC1EA0001 (.funcReset 8 1 0xC1EA0001) ∧
    sameAs regLab (undBase + 4) 1 (.undRest 8 1 1) ∧ sameAs regLab (xlOfs + 0x20) 1 (.xlInvGo 8 1 1) ∧ sameAs regLab (fcOfs + 0x20) 0xA5F0 (.fcTkeyWrite 8 1 0xA5F0) ∧
    sameAs regLab (yzOfs + 0x1A0) 0x180 (.lineStop 8 1 0x180) ∧ sameAs regLab (bootOfs + 0x40) 1 (.bootFuseCmd 8 1 1) := by
  unfold sameAs; decide +kernel
theorem test_registers : State.reset.serves (cellOfs 0) = true ∧ after (exec (.registerWrite 8 1 (cellOfs 0) 7 1) State.reset) = State.reset.arrive 8 ∧
    after (exec (.registerWrite 8 1 (cellOfs 0 + 1) 15 1) State.reset) = State.reset.arrive 8 ∧ after (exec (.registerWrite 8 0x20 (cellOfs 0) 15 1) State.reset) = State.reset.arrive 8 ∧
    (∀ b ∈ blocksA ++ blocksB, ¬(b.base ≤ 0x200000 ∧ 0x200000 < b.base + b.stride * b.count)) ∧ State.reset.getReg 1 0x200000 = (0, State.reset) ∧ State.reset.serves 0 = true ∧
    tget 0 (after (exec (.bar4Access 8 0x1FFFFFE 2 (some [7, 9])) State.reset)).mem.sram 0x1FFFFFF = 9 ∧ after (exec (.bar4Access 8 0x1FFFFFF 2 (some [7, 9])) State.reset) = State.reset.arrive 8 ∧
    after (exec (.bar4Access 8 0x40 4 (some [7])) locked) = locked.arrive 8 ∧ (after (exec (.bar4Access 8 0x40 4 none) sramLab)).out = [.reply [0x04030201]] ∧
    ((sramLab.arrive 8).sramRead 0x40 4).1 = some [1, 2, 3, 4] ∧ sramLab.beatLocked none 0x40 4 = false := by decide +kernel
def tcmaLab (w : Word) : State := { State.reset.setCore 0 { st := .run } with svc := { tcma := w } }
theorem test_tcma : (tcmaLab 0x100004).serves (tcmaOfs + 4) = true ∧ (tcmaLab 0x100004).tcmOpen = true ∧ (tcmaLab 4).tcmOpen = false ∧ (tcmaLab 0x100004).svc.tcmByte = 4 ∧
    tget 0 (after (exec (.tcmaData 8 1 (some 7)) (tcmaLab 0x100004))).mem.tcm (tcmKey 1 4) = 7 ∧ (after (exec (.tcmaData 8 1 (some 7)) (tcmaLab 0x100004))).svc.tcma = 0x100008 ∧
    (after (exec (.tcmaData 8 1 (some 7)) (tcmaLab 4))).svc = { tcma := 8, denied := true } ∧ (after (exec (.tcmaData 8 0x20 (some 7)) (tcmaLab 4))).svc.tcma = 4 ∧
    (((tcmaLab 0x100004).arrive 8).tcmRead 1 4 4).1 = some [0, 0, 0, 0] ∧ (after (exec (.tcmaData 8 1 none) (tcmaLab 0x100004))).out = [.reply [0]] := by decide +kernel

/-- R137: channel 3 fetches at SRAM 0x400, where a NOP with CC stands, and at 0x1FFFFF8, past which there is none. -/
def fetchLab (h : Chan) : State := ((State.reset.setDom 0 { ctrl := 2 }).setChan 3 { h with st := .active, phy := true }).sramWrite 0x400 [0x7F, 2, 0xF0, 0xFF]
def nopB : List Byte := [0x7F, 2, 0xF0, 0xFF] ++ List.replicate 12 0
theorem test_fetch : (fetchLab {}).up = true ∧ ((fetchLab {}).chan 3).st.fetches = true ∧ ((fetchLab { cca := 0x400, act := .fetch }).chan 3).fragSpan = none ∧
    (((fetchLab { cca := 0x400, act := .fetch }).arrive 8).fetchGroup 3 (true, 0x400) .fail).1 = .bytes nopB ∧ (State.reset.chan 3).st.fetches = false ∧
    ((after (exec (.groupFetch 8 3 .fail) (fetchLab { cca := 0x400, act := .fetch }))).chan 3).cur.w0 = 0xFFF0027F ∧
    ((after (exec (.groupFetch 8 3 .fail) (fetchLab { cca := 0x400, act := .fetch }))).chan 3).act = .ready ∧
    ((after (exec (.groupFetch 8 3 .fail) (fetchLab { cca := 0x1FFFFF8, act := .fetch }))).chan 3).status = 2 ∧
    (((fetchLab {}).arrive 8).fetchGroup 3 (true, 0x1FFFFF8) .fail).1 = .protect ∧ ((fetchLab {}).badWord 0x400 16) = none ∧
    ((after (exec (.groupFetch 8 3 .fail) (fetchLab { cca := 0x3F0, act := .ready, cur := { w0 := 0x27F } }))).chan 3).ahead.length = 1 ∧
    ((after (exec (.groupFetch 8 3 .fail) (fetchLab { cca := 0x3F0, act := .ready, cur := { w0 := 0x27F }, ahead := [(0, {}), (0, {}), (0, {}), (0, {})] }))).chan 3).ahead.length = 4 ∧
    (parseGroup nopB).w0 = 0xFFF0027F ∧ (parseGroup nopB).size = 16 ∧ (parseGroup nopB).tm = false ∧ (parseGroup nopB).sus = false ∧
    groupCheck { (fetchLab {}).chan 3 with cur := parseGroup nopB, opcode := 0x7F, act := .ready } ((fetchLab {}).dom 0).phyOk (parseGroup nopB) = none := by decide +kernel
theorem test_fetch_walks : (((fetchLab { cca := 0x400, act := .fetch, phy := false }).setDom 0 { ctrl := 3 } |>.modChan 3 fun h => { h with phy := false }).fetchGroup 3 (false, 0x400) .fail).1 = .pending ∧
    (match (((fetchLab {}).setDom 0 { ctrl := 2 }).fetchGroup 3 (false, 0x400) .fail).1 with | .fault _ => true | _ => false) = true ∧
    (({ fetchLab {} with mem := { (fetchLab {}).mem with bad := [0x80] } } : State).fetchGroup 3 (true, 0x400) .fail).1 = .bus := by decide +kernel
/-- Groups ahead, a bracket being fetched, an entry of a fragment table at SRAM 0x800: 16 bytes at 0x600, the last. -/
def fragLab : State := (fetchLab { act := .move, fragA := some { tab := 0x800, tabPhy := true } }).sramWrite 0x800 (leBytes 8 0x600 ++ [16, 0, 0, 0, 1, 0, 0, 0])
theorem test_fetch_ahead : ((fetchLab { act := .ready, cur := { w0 := 0x27F } }).chan 3).wantsAhead = true ∧ (fetchLab {}).aheadOpen { act := .ready } = true ∧
    ((fetchLab { act := .ready, cur := { w0 := 0x27F }, aheadStop := true }).chan 3).wantsAhead = false ∧ (fetchLab {}).aheadOpen { act := .waitCmp 0 none } = false ∧
    ((fetchLab { act := .bracket, cur := { w0 := 0x238 }, ahead := List.replicate 8 (2 * 0x400 + 1, { w0 := 0x27F }) }).chan 3).wantsAhead = true ∧
    ((fetchLab { act := .bracket, cur := { w0 := 0x238 }, ahead := List.replicate 9 (2 * 0x400 + 1, { w0 := 0x27F }) }).chan 3).wantsAhead = false ∧
    ((after (exec (.groupFetch 8 3 .fail) (fetchLab { cca := 0x1FFFFF0, act := .ready, cur := { w0 := 0x27F } }))).chan 3).aheadStop = true ∧
    ((after (exec (.groupFetch 8 3 .fail) (fetchLab { cca := 0x1FFFFF0, act := .bracket, cur := { w0 := 0x238 } }))).chan 3).status = 2 ∧
    ((after (exec (.groupFetch 8 3 .fail) (fetchLab { cca := 0x3F0, act := .bracket, cur := { w0 := 0x238 } }))).chan 3).st = .halted ∧
    (fragLab.chan 3).fragSpan = some (true, 0x800) ∧ (((after (exec (.groupFetch 8 3 .fail) fragLab)).chan 3).fragA.map (·.tab)) = some 0x810 := by decide +kernel
/-- The piece of a fetch at host address 0x404, RETRY 2. -/
def piece : Seg := { ofs := 4, len := 2, phy := false, addr := 0x404 }
def spoilt (s : State) : State := { s with mem := { s.mem with bad := [0x80] } }
theorem test_fetch_retries : ((fetchLab { xfer := 2 }).chan 3).retryN = 2 ∧ ((fetchLab { xfer := 2 }).fetchPiece 3 piece .fail).1 = .bus ∧
    ((fetchLab { xfer := 2 }).fetchPiece 3 piece .fail).2.movers.retry = 2 ∧ ((linked (fetchLab { xfer := 2 })).fetchPiece 3 piece .fail).1 = .pending ∧
    ((linked (fetchLab { xfer := 2 })).fetchPiece 3 piece .fail).2.movers.retry = 1 ∧ ((linked (fetchLab { xfer := 2, tries := 2 })).fetchPiece 3 piece .fail).1 = .bus ∧
    ((linked (fetchLab { xfer := 2 })).fetchPiece 3 piece (.data [1, 2, 3, 4, 5, 6, 7])).1 = .bytes [5, 6] ∧ (spoilt (fetchLab { xfer := 2 })).badWord 0x400 16 ≠ none ∧
    ((spoilt (fetchLab { xfer := 2 })).fetchAt 3 (true, 0x400) 16 .fetch .fail).1 = .bus ∧ ((spoilt (fetchLab { xfer := 2 })).fetchAt 3 (true, 0x400) 16 .fetch .fail).2.movers.retry = 2 ∧
    (((fetchLab {}).setChan 4 { inBracket := true, lockFirst := some 0, lockBeats := [0x10] }).fetchAt 3 (true, 0x400) 16 .fetch .fail).1 = .pending := by decide +kernel

/-! ## Latched reads, the step, the invariant -/

def hiLab : State := { (lab 7 { phase := 5, turn := 0x30002 }) with now := 0x100000000 }
theorem test_latched_reads : hiLab.serves (cellOfs 7 + 0x20) = true ∧ (after (exec (.posFtRead 8 1 7) hiLab)).out = [.reply [0x00020000]] ∧
    (after (exec (.posFtRead 8 1 7) hiLab)).latched 1 (cellOfs 7 + 0x24) = 5 ∧ (after (exec (.posFtRead 8 1 7) hiLab)).latched 1 (cellOfs 7 + 0x28) = 3 ∧
    (after (exec (.posFtRead 8 1 7) hiLab)).latched 0x20 (cellOfs 7 + 0x24) = 0 ∧ (after (exec (.devtimeRead 8 1) hiLab)).latched 1 0x1014 = 1 ∧
    ((after (exec (.devtimeRead 8 1) hiLab)).getReg 1 0x1014).1 = 1 ∧ ((after (exec (.devtimeRead 8 1) hiLab)).getReg 0x10 0x1014).1 = 0 ∧
    (after (exec (.fcFirstRead 8 1) { hiLab with fc := { first := some { w0 := 7, w1 := 9 } } })).latched 1 (fcOfs + 0x104) = 9 ∧
    (after (exec (.wqPiRead 8 1 1023) (State.reset.setWq 1023 { ci := 4 }))).latched 1 (wqOfs 1023 + 8) = 4 ∧
    (after (exec (.ctxStateRead 8 1 4095) (State.reset.setChan 4095 { cca := 0x400 }))).latched 1 (ctxOfs 4095 + 4) = ((State.reset.setChan 4095 { cca := 0x400 }).chan 4095).context.getD 1 0 := by
  decide +kernel

/-- The conditions under which a command has its effect hold right after reset, or in the state of the test named. -/
def gatePort : State := State.reset.setPort 3 { ctrl := 1, link := true, st := .enabled }
theorem test_gates : State.reset.up = true ∧ State.reset.dead = false ∧ State.reset.resting = false ∧ (undLab { st := .rest }).resting = true ∧ State.reset.rst.por = false ∧
    (after (exec (.powerOnReset 8) State.reset)).rst.por = true ∧ (svcLab {}).svc.attached = true ∧ (gatePort.port 3).st = .enabled ∧ (gatePort.port 3).link = true ∧
    (State.reset.port 3).link = false ∧ bit (((undLab {}).setMainsIn 1 { ctrl := 1, lastX := some 100 }).mainsIn 1).ctrl 0 = true ∧
    ((undLab { st := .rest }).setMainsIn 1 { lastX := some 100 }).resting = true := by decide +kernel
theorem test_gates_served : (∀ o ∈ [0, cellOfs 63 + 0x70, capOfs 127 + 0x20, cmpOfs 255 + 0x14, cicCoreOfs 3 + 8, cicOfs + 0x109C, coreOfs 3 + 0x28, ctxOfs 4095, domOfs 255,
    eqOfs 1023 + 4, fqOfs 255 + 0x14, lwsOfs + 0x1000, mbOfs 63 + 0x60, mbTabOfs + 0x200, ouOfs 127 + 8, portOfs 15, streamOfs 15, trailOfs 31, txqCtrlOfs 15, wqOfs 1023 + 4,
    0x1004, 0x1010, bootOfs + 0x40, fcOfs + 0x18, fcOfs + 0x100, lwsOfs, memOfs, memOfs + 0x3C, moverOfs + 0x10, ptpOfs + 0x14, queueOfs + 8, schedOfs + 0x0C, startOfs + 0x34,
    undBase + 0x24, xlOfs + 0x34, xlOfs, yzOfs + 0x1A0], State.reset.serves o = true) ∧ (tcmaLab 4).serves (tcmaOfs + 4) = true := by decide +kernel

/-- The front command of a queue of two. -/
theorem test_step : (after (step { State.reset with pending := [.fcLock 8 1 1, .nop 16 3] })).fc.locked = true ∧
    (after (step { State.reset with pending := [.fcLock 8 1 1, .nop 16 3] })).pending = [.nop 16 3] ∧ after (step State.reset) = State.reset ∧ State.reset.pending = [] ∧
    (State.reset.withFetchWord 16 0).pending = [] := by decide +kernel
/-- The invariant holds of a state with a commit in progress, whose step keeps it, and which is not reset. -/
theorem reset_inv : State.reset.Inv := by
  refine ⟨by decide, ⟨fun k h => ?_, by decide, by decide, fun _ => by decide⟩⟩
  cases h
def busyStore : State := { State.reset with lws := { ident := [{ image := [9] }], ledger := [[0, 0, 0, 0]], commit := some { target := 3, image := [9] } },
                                            pending := [.commitComplete 8 true] }
theorem test_invariant : busyStore.Inv ∧ ∃ u, step busyStore = .next u ∧ u.lws.ident = [{ valid := true, image := [9] }] := by
  refine ⟨⟨by decide, ⟨fun k h => ?_, by decide, by decide, fun _ => by decide⟩⟩, ?_⟩
  · cases h; decide
  · exact ⟨_, rfl, by decide +kernel⟩
theorem test_kept_store : exec (.powerOnReset 8) busyStore = .next (after (exec (.powerOnReset 8) busyStore)) ∧
    (after (exec (.powerOnReset 8) busyStore)).lws.ident = [{ image := [9] }] ∧ (busyStore.boot.fuseBusy = true → busyStore.boot.blank = true) := by
  exact ⟨rfl, by decide +kernel, by decide⟩
theorem test_held : (after (exec (.powerOnReset 8) State.reset)).dead = true ∧ exec (.linkChange 16 3 true) (after (exec (.powerOnReset 8) State.reset)) =
    .next ((after (exec (.powerOnReset 8) State.reset)).arrive 16) := by
  exact ⟨by decide +kernel, rfl⟩

/-! ## Ill-formed commands -/

theorem test_wellformed : WellFormed (.serialFrameEnd 8 0 0 64 false 0) = true ∧ WellFormed (.serialFrameEnd 8 0 0 65 false 0) = false ∧
    WellFormed (.pushSlotWrite 8 1 5 63 [7]) = true ∧ WellFormed (.pushSlotWrite 8 1 5 64 [7]) = false ∧ WellFormed (.pushSlotWrite 8 1 5 0 []) = false ∧
    WellFormed (.createWq 8 5 true (2 ^ 48 - 1) 31 7 0x13) = true ∧ WellFormed (.createWq 8 5 true (2 ^ 48) 2 7 0x13) = false ∧ WellFormed (.createWq 8 5 true 0 32 7 0x13) = false ∧
    WellFormed (.createEq 8 9 true 0 31 7 2 2047) = true ∧ WellFormed (.createEq 8 9 true (2 ^ 48) 2 7 2 0) = false ∧ WellFormed (.createEq 8 9 true 0 32 7 2 0) = false ∧
    WellFormed (.createEq 8 9 true 0 2 7 2 2048) = false ∧ WellFormed (.registerWrite 8 1 0x3FFFFC 15 0) = true ∧ WellFormed (.registerWrite 8 1 0x400000 15 0) = false ∧
    WellFormed (.registerWrite 8 1 2 15 0) = false ∧ WellFormed (.svcStage 8 2431 [7]) = true ∧ WellFormed (.svcStage 8 2432 [7]) = false ∧
    WellFormed (.svcMbSend 8 5 (List.replicate 8 0)) = true ∧ WellFormed (.svcMbSend 8 5 (List.replicate 9 0)) = false ∧ WellFormed (.bar4Access 8 0x1FFFFFF 1 none) = true ∧
    WellFormed (.bar4Access 8 0x2000000 1 none) = false ∧ WellFormed (.bar4Access 8 0 2 (some [7])) = false ∧ WellFormed (.coreWindowAccess 8 1 0 (.load 4) .fail) = true ∧
    WellFormed (.coreWindowAccess 8 1 0 (.load 8) .fail) = false ∧ WellFormed (.coreSramAccess 8 1 0 (.store 3 0)) = false := by decide +kernel
theorem test_wellformed_requests : WellFormed (.start 8 5 3 true (2 ^ 48 - 1)) = true ∧ WellFormed (.start 8 5 3 true (2 ^ 48)) = false ∧
    WellFormed (.storeStatus 8 5 3 true (2 ^ 48)) = false ∧ WellFormed (.modify 8 5 3 true (2 ^ 48) 1 true) = false := by decide +kernel

end Sys2Proof.Tests
end

section
/-! PROOFS. R52: a write of CELL_SYN_RATE_HI commits the rate of a SYNTHETIC cell, a write of CELL_SYN_RATE_LO only its word. -/

namespace Sys2Proof.Machine

/-! ## A change of a cell that is no step -/

theorem Aims.refl (s : State) : Aims s s := ⟨.refl s, fun _ => rfl, rfl⟩

theorem Aims.trans {a b c : State} (h : Aims a b) (k : Aims b c) : Aims a c :=
  ⟨h.toKept.trans k.toKept, fun j => by rw [k.cmps j, h.cmps j], k.caps.trans h.caps⟩

theorem Aims.ofQuiet {s u : State} (h : Quiet s u) : Aims s u :=
  ⟨h.toKept, fun j => by simp [State.cmp, h.cmps], h.caps⟩

theorem setCell_aims (s : State) (n : Nat) (x : Cell) : Aims s (s.setCell n x) :=
  ⟨kept_setCell (.refl s), fun _ => rfl, rfl⟩

/-- R93: a new prediction changes of the units the firing time that this one carries. -/
theorem cmpPredict_aims (s : State) (k : Nat) : Aims s (s.cmpPredict k) := by
  refine ⟨(cmpPredict_only s k).ran.toKept, fun j => ?_, (cmpPredict_only s k).caps⟩
  unfold State.cmpPredict
  dsimp only
  split
  · rfl
  · by_cases h : j = k <;> simp [h]

theorem Aims.foldl (f : State → Nat → State) (hf : ∀ s k, Aims s (f s k)) (l : List Nat) (s : State) : Aims s (l.foldl f s) := by
  induction l generalizing s with
  | nil => exact .refl s
  | cons k r ih => exact (hf s k).trans (ih _)

theorem cellChange_aims (s : State) (n : Nat) (k : Change) : Aims s (s.cellChange n k) := by
  unfold State.cellChange
  refine (Aims.ofQuiet (kept_watchChange (.refl s))).trans (Aims.foldl _ (fun u j => ?_) _ _)
  split
  · exact cmpPredict_aims u j
  · exact .refl u

/-! ## The commit of a rate -/

/-- R51, R52: the cell with the cycles up to `t` counted at the rate in force, where it counts cycles at all. -/
def Cell.caughtUp (c : Cell) (t : Time) : Cell := if c.mode = 6 && c.est = .exact then c.synSettle t else c

theorem caughtUp_exact {c : Cell} (t : Time) (hm : c.mode = 6) (he : c.est = .exact) : c.caughtUp t = c.synSettle t := by
  simp [Cell.caughtUp, hm, he]

/-- Catching up moves the accumulator and the cycle it stands for, and nothing else. -/
theorem caughtUp_rest (c : Cell) (t : Time) :
    c.caughtUp t = { c with acc := (c.caughtUp t).acc, origin := (c.caughtUp t).origin } := by
  unfold Cell.caughtUp
  split <;> rfl

theorem caughtUp_synHi (c : Cell) (v : Word) (t : Time) :
    ({ c with synHi := v } : Cell).caughtUp t = { c.caughtUp t with synHi := v } := by
  simp only [Cell.caughtUp, apply_ite (fun d : Cell => { d with synHi := v })]
  rfl

/-- The cell after a commit: caught up at the old rate, then with the new one, which both words show. -/
theorem commitRate_cell (s : State) (n : Nat) (rate : BitVec 64) :
    (s.commitRate n rate).cell n =
      { (s.cell n).caughtUp s.now with
        rate := rate, synLo := BitVec.ofNat 32 rate.toNat, synHi := BitVec.ofNat 32 (rate.toNat / 2 ^ 32),
        past := ((s.commitRate n rate).cell n).past } := by
  unfold State.commitRate
  dsimp only
  rw [cellChange_cell, State.putCell, State.setCell_cell, if_pos rfl]
  rfl

theorem commitRate_cell_ne (s : State) {n j : Nat} (rate : BitVec 64) (h : j ≠ n) : (s.commitRate n rate).cell j = s.cell j := by
  unfold State.commitRate
  dsimp only
  rw [cellChange_cell, State.putCell, State.setCell_cell, if_neg h]

theorem commitRate_aims (s : State) (n : Nat) (rate : BitVec 64) : Aims s (s.commitRate n rate) := by
  unfold State.commitRate
  exact (setCell_aims s n _).trans (cellChange_aims _ n .other)

/-- The two words of the rate that a write of its high word commits. -/
theorem rate_words (lo hi : Word) :
    BitVec.ofNat 32 (BitVec.ofNat 64 (lo.toNat + hi.toNat * 2 ^ 32)).toNat = lo ∧
    BitVec.ofNat 32 ((BitVec.ofNat 64 (lo.toNat + hi.toNat * 2 ^ 32)).toNat / 2 ^ 32) = hi := by
  have hl := lo.isLt
  have hh := hi.isLt
  have h : (BitVec.ofNat 64 (lo.toNat + hi.toNat * 2 ^ 32)).toNat = lo.toNat + hi.toNat * 2 ^ 32 := by
    rw [BitVec.toNat_ofNat, Nat.mod_eq_of_lt (by omega)]
  rw [h]
  constructor <;> apply BitVec.eq_of_toNat_eq <;> rw [BitVec.toNat_ofNat] <;> omega

/-- The write of the high word is the commit of both words, on the cell that holds the new high word. -/
theorem synHi_eq (s : State) (n : Nat) (v : Word) :
    s.synHi n v = (s.setCell n { s.cell n with synHi := v }).commitRate n (BitVec.ofNat 64 ((s.cell n).synLo.toNat + v.toNat * 2 ^ 32)) := by
  simp [State.synHi]

/-- R52: the cell whose CELL_SYN_RATE_HI is written: caught up at the old rate, with the rate of both words, the high one as written. -/
theorem synHi_cell (s : State) (n : Nat) (v : Word) :
    (s.synHi n v).cell n =
      { (s.cell n).caughtUp s.now with
        rate := BitVec.ofNat 64 ((s.cell n).synLo.toNat + v.toNat * 2 ^ 32), synLo := (s.cell n).synLo, synHi := v,
        past := ((s.synHi n v).cell n).past } := by
  obtain ⟨hlo, hhi⟩ := rate_words (s.cell n).synLo v
  rw [synHi_eq, commitRate_cell, State.setCell_cell, if_pos rfl, caughtUp_synHi, hlo, hhi]
  rfl

theorem synHi_cell_ne (s : State) {n j : Nat} (v : Word) (h : j ≠ n) : (s.synHi n v).cell j = s.cell j := by
  rw [synHi_eq, commitRate_cell_ne _ _ h, State.setCell_cell, if_neg h]

theorem synHi_aims (s : State) (n : Nat) (v : Word) : Aims s (s.synHi n v) := by
  rw [synHi_eq]
  exact (setCell_aims s n _).trans (commitRate_aims _ n _)

/-! ## The registers of the cells -/

/-- R522: an offset within a cell's registers is written as that cell's. -/
theorem putReg_cell (s : State) (m : Ident) (n : Fin 64) {r : Nat} (hr : r < 0x100) (v : Word) :
    s.putReg m (cellOfs n + r) v = s.cellWrite n r v := by
  have hn := n.isLt
  obtain ⟨hq, hrem⟩ : (cellOfs n + r - 0x10000) / 0x100 = n ∧ (cellOfs n + r - 0x10000) % 0x100 = r := by
    unfold cellOfs; omega
  have hf : blockOf (cellOfs n + r) =
      some ⟨0x10000, 0x100, 64, fun s _ n r v => s.cellWrite n r v, fun s m n r => s.cellRead m n r⟩ := by
    unfold blockOf blocksA cellOfs
    rw [List.cons_append, List.find?_cons_of_neg, List.cons_append, List.find?_cons_of_neg, List.cons_append, List.find?_cons_of_neg,
      List.cons_append, List.find?_cons_of_pos]
    all_goals rw [Block.has_iff]; dsimp only; omega
  rw [State.putReg, hf]
  dsimp only
  rw [hq, hrem]

/-- R518, R523: a whole aligned word that anyone but the service port writes to a register served reaches the register. -/
theorem exec_registerWrite_word {s : State} {t : Time} {m : Ident} {o : Nat} {v : Word} (hs : s.serves o = true) (ho : o % 4 = 0)
    (hm : m ≠ 0x20) : exec (.registerWrite t m o 15 v) s = .next ((s.arrive t).putReg m o v) :=
  (regWrite_serves hs).trans (by rw [if_pos]; simpa [ho] using hm)

/-- Settles O4. The commit catches the cell up before it puts the rate in (`synHi_cell`), and tells whoever watches the cell. -/
theorem syntheticRateIsCommittedByItsHighWord : Obligations.SyntheticRateIsCommittedByItsHighWord := by
  unfold Obligations.SyntheticRateIsCommittedByItsHighWord
  refine ⟨fun t m c v s hs => ?_, fun t m c v s hs hm => ?_⟩
  · have hexec : exec (.synRateCommit t m c v) s = .next ((s.arrive t).synHi c v) :=
      regWrite_serves (f := fun s => s.synHi c v) hs
    have hcell := synHi_cell (s.arrive t) c v
    rw [State.arrive_cell, State.arrive_now, caughtUp_rest] at hcell
    refine ⟨_, hexec, by rw [hcell], fun hmode hest hpaused _ => ?_, by rw [hcell], by rw [hcell], by rw [hcell], by rw [hcell],
      fun n hn => synHi_cell_ne _ v hn, synHi_aims _ c v⟩
    rw [hcell, caughtUp_exact _ hmode hest]
    simp only [Cell.synSettle, hpaused, Option.getD_none, Nat.mul_comm, and_self]
  · rw [exec_registerWrite_word hs (by unfold cellOfs; omega) hm, putReg_cell _ _ _ (by decide)]
    rfl

end Sys2Proof.Machine
end

section
/-! PROOFS. R370: while a commit is in progress, the limited-write store ignores stage writes and refuses commands. -/

namespace Sys2Proof.Machine

/-! ## The registers of the limited-write store -/

/-- R522: the block that an offset lies in, where every block listed before it ends at or below its base. -/
theorem blockOf_eq {o : Nat} {b : Block} {as bs : List Block} (hsplit : blocksA ++ blocksB = as ++ b :: bs)
    (hbelow : ∀ a ∈ as, a.base + a.stride * a.count ≤ b.base) (ho : b.has o = true) : blockOf o = some b := by
  rw [Block.has_iff] at ho
  rw [blockOf, List.find?_eq_some_iff_append, Block.has_iff]
  refine ⟨ho, as, bs, hsplit, fun a ha => ?_⟩
  have hend := hbelow a ha
  rw [has_no a o (by omega), Bool.not_false]

/-- R522: an offset within the registers of the store is written as the store's. -/
theorem putReg_lws (s : State) (m : Ident) {r : Nat} (hr : r < 0x1980) (v : Word) : s.putReg m (lwsOfs + r) v = s.lwsWrite m r v := by
  have hb : blockOf (lwsOfs + r) =
      some ⟨0xB0000, 0x1980, 1, fun s m _ r v => s.lwsWrite m r v, still fun s _ r => s.lwsWord r⟩ := by
    refine blockOf_eq (as := blocksA ++ blocksB.take 2) (bs := blocksB.drop 3) rfl (by decide) ?_
    rw [Block.has_iff]; dsimp only [lwsOfs]; omega
  rw [State.putReg, hb]
  dsimp only
  rw [show lwsOfs + r - 0xB0000 = r from Nat.add_sub_cancel_left .., Nat.mod_eq_of_lt hr]

/-- R367: a whole word written at an offset of LWS_STAGE is four bytes for the stage. -/
theorem lwsWrite_stage (s : State) (m : Ident) {r : Nat} (hlo : 0x1000 ≤ r) (hhi : r < 0x1980) (v : Word) :
    s.lwsWrite m r v = s.lwsStage (r - 0x1000) (leBytes 4 v.toNat) := by
  unfold State.lwsWrite
  split
  case h_5 => rw [if_pos (by simp [hlo, hhi])]
  all_goals omega

/-! ## The store while it is busy -/

section
variable {s : State} {k : LwsCommit} (hbusy : s.lws.commit = some k)
include hbusy

/-- R367, R370: BUSY is the first thing that an LWS_CMD write is judged by. -/
theorem lwsJudge_busy (m : Ident) (v : Word) : s.lwsJudge m v = 1 := by simp [State.lwsJudge, hbusy]

/-- R370: refused with BUSY; the commit in progress, and all else, stays. -/
theorem lwsCmd_busy (m : Ident) (v : Word) : s.lwsCmd m v = { s with lws := { s.lws with result := 1 } } := by
  simp [State.lwsCmd, lwsJudge_busy hbusy]

/-- R370: ignored, which STAGE_REJ shows. -/
theorem lwsStage_busy (o : Nat) (b : List Byte) : s.lwsStage o b = { s with lws := { s.lws with stageRej := true } } := by
  simp [State.lwsStage, hbusy]

end

/-- Settles O33. BUSY is judged before anything of the command (`lwsJudge_busy`), so the three commits, and LWS_CMD written as a
register, end alike; the bytes of a stage write are not looked at. -/
theorem theStoreIsClosedWhileBusy : Obligations.TheStoreIsClosedWhileBusy := by
  unfold Obligations.TheStoreIsClosedWhileBusy
  intro t m v s k hbusy
  have hcmd (w : Word) : (s.arrive t).lwsCmd m w = { s.arrive t with lws := { s.lws with result := 1 } } :=
    lwsCmd_busy (s := s.arrive t) hbusy m w
  have hstage (o : Nat) (b : List Byte) : (s.arrive t).lwsStage o b = { s.arrive t with lws := { s.lws with stageRej := true } } :=
    lwsStage_busy (s := s.arrive t) hbusy o b
  refine ⟨fun o hs => ?_, fun i hi hs => ?_, fun o hs hm => ?_⟩
  · exact (regWrite_serves (f := fun s => s.lwsStage (4 * o) (leBytes 4 v.toNat)) hs).trans (congrArg _ (hstage ..))
  · have hcommit (w : Word) : regWrite t lwsOfs s (fun s => s.lwsCmd m w) = .next { s.arrive t with lws := { s.lws with result := 1 } } :=
      (regWrite_serves hs).trans (congrArg _ (hcmd w))
    obtain rfl | rfl | rfl | ⟨rfl, hm⟩ := hi
    · exact hcommit (setFld v 0 2 tgFence)
    · exact hcommit (setFld v 0 2 tgConduct)
    · exact hcommit (setFld v 0 2 tgIdent)
    · have hput : (s.arrive t).putReg m lwsOfs v = (s.arrive t).lwsCmd m v := putReg_lws (r := 0) _ m (by decide) v
      rw [exec_registerWrite_word hs (by decide) hm, hput, hcmd]
  · have ho := o.isLt
    rw [exec_registerWrite_word hs (by unfold lwsOfs; omega) hm, Nat.add_assoc, putReg_lws _ m (by omega),
      lwsWrite_stage _ m (by omega) (by omega), hstage]

end Sys2Proof.Machine
end

section
/-! PROOFS. What holds of every command: it completes within its frame, it does nothing on a part held in reset, and a step runs the front command. -/

namespace Sys2Proof.Machine

/-! ## The step -/

theorem step_cons {s : State} {c : Instr} {r : List Instr} (h : s.pending = c :: r) : step s = exec c { s with pending := r } := by
  rw [step, h]

theorem step_nil {s : State} (h : s.pending = []) : step s = .next s := by rw [step, h]

/-- Settles O54. -/
theorem aStepRunsTheFrontCommand : Obligations.AStepRunsTheFrontCommand := ⟨fun _ _ _ => step_cons, fun _ => step_nil⟩

/-! ## Completion -/

/-- No command faults or is refused: the gates all answer a next state, and TCMA_DATA and BAR4 do so for a read as for a write. -/
theorem exec_runs (i : Instr) (s : State) : Runs (exec i s) := by
  cases i with
  | tcmaData t m w => cases w <;> exact ⟨_, rfl⟩
  | bar4Access t o n w => cases w <;> exact ⟨_, rfl⟩
  | incrementalStep | zLoad | serialFrameStart | serialFrameEnd | mainsCrossing | mainsPhaseStep | timeStep | syntheticStep | mirrorPhaseStep
  | mirrorTimeout | standstill | cellCtrlWrite | cellModWrite | loadGo | synRateCommit | mirrorOfsCommit | posFtRead | cmpCtrlWrite | cmpValueWrite
  | cmpFtRead | captureEdge | capCtrlWrite | capPop | cellRelease | cellHold | startTRead | coreDebugHalt | coreDebugResume | frzTRead | groupFetch
  | read | write | flush | load | setMod | setRate | sense | move | fill | compare | gather | tic | ticc | waitTime | waitTimeExpiry | waitPosition
  | waitUnit | waitCompare | waitComplete | waitTimeout | glade | gladeComplete | signalLevel | signalPulse | signalPattern | patternEdge
  | slotReserve | armCompare | armCapture | lock | unlock | lockAbandoned | cas | mark | nop | schedEntryGrant | stagingBegin | commit
  | patternEdgeCommit | placementLock | effect | limitExpiry | moverGrant | unitAdvertise | burstEnd | hostReadCompletion | completionTimeout
  | moverPeakClr | moverBytesRead | mvStateRead | start | halt | suspend | resume | clear | modify | storeStatus | drainComplete | ctxStateRead
  | wqDoorbell | pushSlotWrite | wqPiReadComplete | entryServe | createWq | destroyWq | enableWq | disableWq | disableComplete | createEq | destroyEq
  | bind | setPrio | adminCfgWrite | eqDoorbell | eqCiReadComplete | heldRecordPost | wqPiRead | eqResRead | tableReadComplete | xlInvGo
  | invalidationComplete | domCtrlWrite | fqDb | fqCfgWrite | parkPeakClr | xlHitRead | fqPiRead | coreWindowAccess | cwCtrlWrite | maxOn | duty
  | permit | budgetWindowStart | ouEdgeRead | commitFence | commitConduct | commitIdentity | commitComplete | lwsStageWrite | serviceEnQualify
  | portCtrlWrite | portDisableComplete | linkChange | frameReceive | rsCtrlWrite | streamDisableComplete | placementGap | txqCtrlWrite
  | frameTransmit | ptpMessageRx | holdover | ptpNowRead | cycleStart | snapshot | cyclic | yazenFrameRx | forwardDrop | ownFrameDrop | lineStop
  | lineStopRepeat | msixIssue | cicDeliver | cicPendWrite | cicPclrWrite | cicClaim | cicComplete | undRest | restEntry | restEntryTimeout
  | wakeEvent | undTimerExpiry | wakeComplete | undWtRead | mbSend | mbAck | mbTimeout | mbBindWrite | mbLock | usbBusReset | cleanDataLines
  | invalidateDataLines | cleanInvalidateDataLines | invalidateInstructionLines | cleanWholeDataCache | cleanInvalidateWholeDataCache | coreAmo
  | coreLr | coreSc | coreReset | coreInReset | coreRelease | wdCtrlWrite | wdKick | watchdogExpiry | mtip | mtimeRead | scrubBeat | arbTwaitClr
  | schedPeakClr | faultEvent | parityError | safeEnter | safeExit | fcTkeyWrite | fcLock | fcFirstClr | fcFirstRead | fcTrailRead | fcSafeTRead
  | supplyExcursion | temperatureThreshold | powerOnReset | powerOnRelease | resetN | perstN | flr | funcReset | functionResetReady | devtimeRead
  | bootImageCheck | bootHostGo | bootFuseCmd | fuseProgramComplete | svcRead | svcMbSend | svcMbAck | svcStage | svcCommit | svcFuse | svcCoreReset
  | registerWrite | pulseTrailingEdge | positionEdge | fqCiReadComplete | pcieLinkChange | ptpMessageTx | mainsCrossingTimeout | coreWfi
  | coreSramAccess | servicePortAttach => exact ⟨_, rfl⟩

/-! ## Frames -/

/-- What a command leaves alone, by its measure. -/
def InFrame (i : Instr) : Prop := ∀ s u, exec i s = .next u →
  (1 ≤ i.frame → Kept (s.arrive i.time) u) ∧ (2 ≤ i.frame → Ran (s.arrive i.time) u) ∧ (3 ≤ i.frame → Quiet (s.arrive i.time) u)

section
variable {i : Instr}

theorem inFrame_of_quiet (h : ∀ {s u}, exec i s = .next u → Quiet (s.arrive i.time) u) : InFrame i := fun _ _ e =>
  ⟨fun _ => (h e).toKept, fun _ => (h e).toRan, fun _ => h e⟩

theorem inFrame_of_ran (hi : i.frame ≤ 2) (h : ∀ {s u}, exec i s = .next u → Ran (s.arrive i.time) u) : InFrame i := fun _ _ e =>
  ⟨fun _ => (h e).toKept, fun _ => h e, fun hq => absurd hq (by omega)⟩

theorem inFrame_of_kept (hi : i.frame ≤ 1) (h : ∀ {s u}, exec i s = .next u → Kept (s.arrive i.time) u) : InFrame i := fun _ _ e =>
  ⟨fun _ => h e, fun hr => absurd hr (by omega), fun hq => absurd hq (by omega)⟩

theorem inFrame_of_held (hi : i.frame = 0) : InFrame i := fun _ _ _ =>
  ⟨fun hk => absurd hk (by omega), fun hr => absurd hr (by omega), fun hq => absurd hq (by omega)⟩

end

theorem exec_inFrame (i : Instr) : InFrame i := by
  cases i with
  | commitFence | commitConduct | commitIdentity | commitComplete | lwsStageWrite | serviceEnQualify | yazenFrameRx | usbBusReset | faultEvent
  | parityError | safeEnter | safeExit | powerOnReset | powerOnRelease | resetN | perstN | flr | funcReset | functionResetReady | bootImageCheck
  | bootHostGo | bootFuseCmd | fuseProgramComplete | svcRead | svcMbSend | svcMbAck | svcStage | svcCommit | svcFuse | svcCoreReset | tcmaData
  | registerWrite | servicePortAttach => exact inFrame_of_held rfl
  | incrementalStep => exact inFrame_of_kept (le_refl 1) exec_incrementalStep_kept
  | zLoad => exact inFrame_of_kept (le_refl 1) exec_zLoad_kept
  | serialFrameStart => exact inFrame_of_kept (le_refl 1) exec_serialFrameStart_kept
  | serialFrameEnd => exact inFrame_of_kept (le_refl 1) exec_serialFrameEnd_kept
  | mainsCrossing => exact inFrame_of_kept (le_refl 1) exec_mainsCrossing_kept
  | mainsPhaseStep => exact inFrame_of_kept (le_refl 1) exec_mainsPhaseStep_kept
  | timeStep => exact inFrame_of_kept (le_refl 1) exec_timeStep_kept
  | syntheticStep => exact inFrame_of_kept (le_refl 1) exec_syntheticStep_kept
  | mirrorPhaseStep => exact inFrame_of_kept (le_refl 1) exec_mirrorPhaseStep_kept
  | mirrorTimeout => exact inFrame_of_kept (le_refl 1) exec_mirrorTimeout_kept
  | standstill => exact inFrame_of_kept (le_refl 1) exec_standstill_kept
  | cellCtrlWrite => exact inFrame_of_kept (le_refl 1) exec_cellCtrlWrite_kept
  | cellModWrite => exact inFrame_of_kept (le_refl 1) exec_cellModWrite_kept
  | loadGo => exact inFrame_of_kept (le_refl 1) exec_loadGo_kept
  | synRateCommit => exact inFrame_of_kept (le_refl 1) exec_synRateCommit_kept
  | mirrorOfsCommit => exact inFrame_of_kept (le_refl 1) exec_mirrorOfsCommit_kept
  | posFtRead => exact inFrame_of_kept (le_refl 1) exec_posFtRead_kept
  | cmpCtrlWrite => exact inFrame_of_kept (le_refl 1) exec_cmpCtrlWrite_kept
  | cmpValueWrite => exact inFrame_of_kept (le_refl 1) exec_cmpValueWrite_kept
  | cmpFtRead => exact inFrame_of_kept (le_refl 1) exec_cmpFtRead_kept
  | captureEdge => exact inFrame_of_ran (le_refl 2) exec_captureEdge_ran
  | capCtrlWrite => exact inFrame_of_kept (le_refl 1) exec_capCtrlWrite_kept
  | capPop => exact inFrame_of_kept (le_refl 1) exec_capPop_kept
  | cellRelease => exact inFrame_of_kept (le_refl 1) exec_cellRelease_kept
  | cellHold => exact inFrame_of_kept (le_refl 1) exec_cellHold_kept
  | startTRead => exact inFrame_of_kept (le_refl 1) exec_startTRead_kept
  | coreDebugHalt => exact inFrame_of_kept (le_refl 1) exec_coreDebugHalt_kept
  | coreDebugResume => exact inFrame_of_kept (le_refl 1) exec_coreDebugResume_kept
  | frzTRead => exact inFrame_of_kept (le_refl 1) exec_frzTRead_kept
  | groupFetch => exact inFrame_of_kept (le_refl 1) exec_groupFetch_kept
  | read => exact inFrame_of_quiet exec_read_quiet
  | write => exact inFrame_of_quiet exec_write_quiet
  | flush => exact inFrame_of_kept (le_refl 1) exec_flush_kept
  | load => exact inFrame_of_kept (le_refl 1) exec_load_kept
  | setMod => exact inFrame_of_kept (le_refl 1) exec_setMod_kept
  | setRate => exact inFrame_of_kept (le_refl 1) exec_setRate_kept
  | sense => exact inFrame_of_quiet exec_sense_quiet
  | move => exact inFrame_of_quiet exec_move_quiet
  | fill => exact inFrame_of_quiet exec_fill_quiet
  | compare => exact inFrame_of_quiet exec_compare_quiet
  | gather => exact inFrame_of_quiet exec_gather_quiet
  | tic => exact inFrame_of_quiet exec_tic_quiet
  | ticc => exact inFrame_of_quiet exec_ticc_quiet
  | waitTime => exact inFrame_of_quiet exec_waitTime_quiet
  | waitTimeExpiry => exact inFrame_of_quiet exec_waitTimeExpiry_quiet
  | waitPosition => exact inFrame_of_kept (le_refl 1) exec_waitPosition_kept
  | waitUnit => exact inFrame_of_quiet exec_waitUnit_quiet
  | waitCompare => exact inFrame_of_quiet exec_waitCompare_quiet
  | waitComplete => exact inFrame_of_quiet exec_waitComplete_quiet
  | waitTimeout => exact inFrame_of_quiet exec_waitTimeout_quiet
  | glade => exact inFrame_of_quiet exec_glade_quiet
  | gladeComplete => exact inFrame_of_quiet exec_gladeComplete_quiet
  | signalLevel => exact inFrame_of_quiet exec_signalLevel_quiet
  | signalPulse => exact inFrame_of_quiet exec_signalPulse_quiet
  | signalPattern => exact inFrame_of_quiet exec_signalPattern_quiet
  | patternEdge => exact inFrame_of_quiet exec_patternEdge_quiet
  | slotReserve => exact inFrame_of_quiet exec_slotReserve_quiet
  | armCompare => exact inFrame_of_ran (le_refl 2) exec_armCompare_ran
  | armCapture => exact inFrame_of_ran (le_refl 2) exec_armCapture_ran
  | lock => exact inFrame_of_quiet exec_lock_quiet
  | unlock => exact inFrame_of_quiet exec_unlock_quiet
  | lockAbandoned => exact inFrame_of_quiet exec_lockAbandoned_quiet
  | cas => exact inFrame_of_quiet exec_cas_quiet
  | mark => exact inFrame_of_quiet exec_mark_quiet
  | nop => exact inFrame_of_quiet exec_nop_quiet
  | schedEntryGrant => exact inFrame_of_ran (le_refl 2) exec_schedEntryGrant_ran
  | stagingBegin => exact inFrame_of_quiet exec_stagingBegin_quiet
  | commit => exact inFrame_of_quiet exec_commit_quiet
  | patternEdgeCommit => exact inFrame_of_quiet exec_patternEdgeCommit_quiet
  | placementLock => exact inFrame_of_quiet exec_placementLock_quiet
  | effect => exact inFrame_of_kept (le_refl 1) exec_effect_kept
  | limitExpiry => exact inFrame_of_quiet exec_limitExpiry_quiet
  | moverGrant => exact inFrame_of_quiet exec_moverGrant_quiet
  | unitAdvertise => exact inFrame_of_quiet exec_unitAdvertise_quiet
  | burstEnd => exact inFrame_of_kept (le_refl 1) exec_burstEnd_kept
  | hostReadCompletion => exact inFrame_of_quiet exec_hostReadCompletion_quiet
  | completionTimeout => exact inFrame_of_quiet exec_completionTimeout_quiet
  | moverPeakClr => exact inFrame_of_kept (le_refl 1) exec_moverPeakClr_kept
  | moverBytesRead => exact inFrame_of_kept (le_refl 1) exec_moverBytesRead_kept
  | mvStateRead => exact inFrame_of_kept (le_refl 1) exec_mvStateRead_kept
  | start => exact inFrame_of_quiet exec_start_quiet
  | halt => exact inFrame_of_quiet exec_halt_quiet
  | suspend => exact inFrame_of_quiet exec_suspend_quiet
  | resume => exact inFrame_of_quiet exec_resume_quiet
  | clear => exact inFrame_of_quiet exec_clear_quiet
  | modify => exact inFrame_of_quiet exec_modify_quiet
  | storeStatus => exact inFrame_of_quiet exec_storeStatus_quiet
  | drainComplete => exact inFrame_of_quiet exec_drainComplete_quiet
  | ctxStateRead => exact inFrame_of_kept (le_refl 1) exec_ctxStateRead_kept
  | wqDoorbell => exact inFrame_of_kept (le_refl 1) exec_wqDoorbell_kept
  | pushSlotWrite => exact inFrame_of_kept (le_refl 1) exec_pushSlotWrite_kept
  | wqPiReadComplete => exact inFrame_of_quiet exec_wqPiReadComplete_quiet
  | entryServe => exact inFrame_of_ran (le_refl 2) exec_entryServe_ran
  | createWq => exact inFrame_of_ran (le_refl 2) exec_createWq_ran
  | destroyWq => exact inFrame_of_ran (le_refl 2) exec_destroyWq_ran
  | enableWq => exact inFrame_of_ran (le_refl 2) exec_enableWq_ran
  | disableWq => exact inFrame_of_ran (le_refl 2) exec_disableWq_ran
  | disableComplete => exact inFrame_of_quiet exec_disableComplete_quiet
  | createEq => exact inFrame_of_ran (le_refl 2) exec_createEq_ran
  | destroyEq => exact inFrame_of_ran (le_refl 2) exec_destroyEq_ran
  | bind => exact inFrame_of_ran (le_refl 2) exec_bind_ran
  | setPrio => exact inFrame_of_ran (le_refl 2) exec_setPrio_ran
  | adminCfgWrite => exact inFrame_of_kept (le_refl 1) exec_adminCfgWrite_kept
  | eqDoorbell => exact inFrame_of_kept (le_refl 1) exec_eqDoorbell_kept
  | eqCiReadComplete => exact inFrame_of_quiet exec_eqCiReadComplete_quiet
  | heldRecordPost => exact inFrame_of_ran (le_refl 2) exec_heldRecordPost_ran
  | wqPiRead => exact inFrame_of_kept (le_refl 1) exec_wqPiRead_kept
  | eqResRead => exact inFrame_of_kept (le_refl 1) exec_eqResRead_kept
  | tableReadComplete => exact inFrame_of_quiet exec_tableReadComplete_quiet
  | xlInvGo => exact inFrame_of_kept (le_refl 1) exec_xlInvGo_kept
  | invalidationComplete => exact inFrame_of_quiet exec_invalidationComplete_quiet
  | domCtrlWrite => exact inFrame_of_kept (le_refl 1) exec_domCtrlWrite_kept
  | fqDb => exact inFrame_of_kept (le_refl 1) exec_fqDb_kept
  | fqCfgWrite => exact inFrame_of_kept (le_refl 1) exec_fqCfgWrite_kept
  | parkPeakClr => exact inFrame_of_kept (le_refl 1) exec_parkPeakClr_kept
  | xlHitRead => exact inFrame_of_kept (le_refl 1) exec_xlHitRead_kept
  | fqPiRead => exact inFrame_of_kept (le_refl 1) exec_fqPiRead_kept
  | coreWindowAccess => exact inFrame_of_quiet exec_coreWindowAccess_quiet
  | cwCtrlWrite => exact inFrame_of_kept (le_refl 1) exec_cwCtrlWrite_kept
  | maxOn => exact inFrame_of_quiet exec_maxOn_quiet
  | duty => exact inFrame_of_quiet exec_duty_quiet
  | permit => exact inFrame_of_kept (le_refl 1) exec_permit_kept
  | budgetWindowStart => exact inFrame_of_quiet exec_budgetWindowStart_quiet
  | ouEdgeRead => exact inFrame_of_kept (le_refl 1) exec_ouEdgeRead_kept
  | portCtrlWrite => exact inFrame_of_kept (le_refl 1) exec_portCtrlWrite_kept
  | portDisableComplete => exact inFrame_of_quiet exec_portDisableComplete_quiet
  | linkChange => exact inFrame_of_kept (le_refl 1) exec_linkChange_kept
  | frameReceive => exact inFrame_of_kept (le_refl 1) exec_frameReceive_kept
  | rsCtrlWrite => exact inFrame_of_kept (le_refl 1) exec_rsCtrlWrite_kept
  | streamDisableComplete => exact inFrame_of_quiet exec_streamDisableComplete_quiet
  | placementGap => exact inFrame_of_quiet exec_placementGap_quiet
  | txqCtrlWrite => exact inFrame_of_kept (le_refl 1) exec_txqCtrlWrite_kept
  | frameTransmit => exact inFrame_of_quiet exec_frameTransmit_quiet
  | ptpMessageRx => exact inFrame_of_kept (le_refl 1) exec_ptpMessageRx_kept
  | holdover => exact inFrame_of_quiet exec_holdover_quiet
  | ptpNowRead => exact inFrame_of_kept (le_refl 1) exec_ptpNowRead_kept
  | cycleStart => exact inFrame_of_quiet exec_cycleStart_quiet
  | snapshot => exact inFrame_of_kept (le_refl 1) exec_snapshot_kept
  | cyclic => exact inFrame_of_quiet exec_cyclic_quiet
  | forwardDrop => exact inFrame_of_quiet exec_forwardDrop_quiet
  | ownFrameDrop => exact inFrame_of_quiet exec_ownFrameDrop_quiet
  | lineStop => exact inFrame_of_kept (le_refl 1) exec_lineStop_kept
  | lineStopRepeat => exact inFrame_of_quiet exec_lineStopRepeat_quiet
  | msixIssue => exact inFrame_of_quiet exec_msixIssue_quiet
  | cicDeliver => exact inFrame_of_quiet exec_cicDeliver_quiet
  | cicPendWrite => exact inFrame_of_kept (le_refl 1) exec_cicPendWrite_kept
  | cicPclrWrite => exact inFrame_of_kept (le_refl 1) exec_cicPclrWrite_kept
  | cicClaim => exact inFrame_of_kept (le_refl 1) exec_cicClaim_kept
  | cicComplete => exact inFrame_of_kept (le_refl 1) exec_cicComplete_kept
  | undRest => exact inFrame_of_kept (le_refl 1) exec_undRest_kept
  | restEntry => exact inFrame_of_kept (le_refl 1) exec_restEntry_kept
  | restEntryTimeout => exact inFrame_of_kept (le_refl 1) exec_restEntryTimeout_kept
  | wakeEvent => exact inFrame_of_kept (le_refl 1) exec_wakeEvent_kept
  | undTimerExpiry => exact inFrame_of_kept (le_refl 1) exec_undTimerExpiry_kept
  | wakeComplete => exact inFrame_of_kept (le_refl 1) exec_wakeComplete_kept
  | undWtRead => exact inFrame_of_kept (le_refl 1) exec_undWtRead_kept
  | mbSend => exact inFrame_of_kept (le_refl 1) exec_mbSend_kept
  | mbAck => exact inFrame_of_kept (le_refl 1) exec_mbAck_kept
  | mbTimeout => exact inFrame_of_kept (le_refl 1) exec_mbTimeout_kept
  | mbBindWrite => exact inFrame_of_kept (le_refl 1) exec_mbBindWrite_kept
  | mbLock => exact inFrame_of_kept (le_refl 1) exec_mbLock_kept
  | cleanDataLines => exact inFrame_of_kept (le_refl 1) exec_cleanDataLines_kept
  | invalidateDataLines => exact inFrame_of_kept (le_refl 1) exec_invalidateDataLines_kept
  | cleanInvalidateDataLines => exact inFrame_of_kept (le_refl 1) exec_cleanInvalidateDataLines_kept
  | invalidateInstructionLines => exact inFrame_of_kept (le_refl 1) exec_invalidateInstructionLines_kept
  | cleanWholeDataCache => exact inFrame_of_kept (le_refl 1) exec_cleanWholeDataCache_kept
  | cleanInvalidateWholeDataCache => exact inFrame_of_kept (le_refl 1) exec_cleanInvalidateWholeDataCache_kept
  | coreAmo => exact inFrame_of_quiet exec_coreAmo_quiet
  | coreLr => exact inFrame_of_quiet exec_coreLr_quiet
  | coreSc => exact inFrame_of_quiet exec_coreSc_quiet
  | coreReset => exact inFrame_of_kept (le_refl 1) exec_coreReset_kept
  | coreInReset => exact inFrame_of_kept (le_refl 1) exec_coreInReset_kept
  | coreRelease => exact inFrame_of_kept (le_refl 1) exec_coreRelease_kept
  | wdCtrlWrite => exact inFrame_of_kept (le_refl 1) exec_wdCtrlWrite_kept
  | wdKick => exact inFrame_of_kept (le_refl 1) exec_wdKick_kept
  | watchdogExpiry => exact inFrame_of_kept (le_refl 1) exec_watchdogExpiry_kept
  | mtip => exact inFrame_of_quiet exec_mtip_quiet
  | mtimeRead => exact inFrame_of_kept (le_refl 1) exec_mtimeRead_kept
  | scrubBeat => exact inFrame_of_quiet exec_scrubBeat_quiet
  | arbTwaitClr => exact inFrame_of_kept (le_refl 1) exec_arbTwaitClr_kept
  | schedPeakClr => exact inFrame_of_kept (le_refl 1) exec_schedPeakClr_kept
  | fcTkeyWrite => exact inFrame_of_kept (le_refl 1) exec_fcTkeyWrite_kept
  | fcLock => exact inFrame_of_kept (le_refl 1) exec_fcLock_kept
  | fcFirstClr => exact inFrame_of_kept (le_refl 1) exec_fcFirstClr_kept
  | fcFirstRead => exact inFrame_of_kept (le_refl 1) exec_fcFirstRead_kept
  | fcTrailRead => exact inFrame_of_kept (le_refl 1) exec_fcTrailRead_kept
  | fcSafeTRead => exact inFrame_of_kept (le_refl 1) exec_fcSafeTRead_kept
  | supplyExcursion => exact inFrame_of_quiet exec_supplyExcursion_quiet
  | temperatureThreshold => exact inFrame_of_quiet exec_temperatureThreshold_quiet
  | devtimeRead => exact inFrame_of_kept (le_refl 1) exec_devtimeRead_kept
  | pulseTrailingEdge => exact inFrame_of_quiet exec_pulseTrailingEdge_quiet
  | positionEdge => exact inFrame_of_quiet exec_positionEdge_quiet
  | fqCiReadComplete => exact inFrame_of_quiet exec_fqCiReadComplete_quiet
  | pcieLinkChange => exact inFrame_of_quiet exec_pcieLinkChange_quiet
  | ptpMessageTx => exact inFrame_of_quiet exec_ptpMessageTx_quiet
  | mainsCrossingTimeout => exact inFrame_of_kept (le_refl 1) exec_mainsCrossingTimeout_kept
  | coreWfi => exact inFrame_of_kept (le_refl 1) exec_coreWfi_kept
  | coreSramAccess => exact inFrame_of_quiet exec_coreSramAccess_quiet
  | bar4Access => exact inFrame_of_kept (le_refl 1) exec_bar4Access_kept

/-- Settles O59: each command completes (`exec_runs`), keeps what every command keeps (`exec_held`) and stays in its frame. -/
theorem everyCommandCompletesWithinItsFrame : Obligations.EveryCommandCompletesWithinItsFrame := by
  intro i s
  obtain ⟨u, hu⟩ := exec_runs i s
  exact ⟨u, hu, exec_held hu, exec_inFrame i s u hu⟩

/-! ## A part held in reset -/

theorem down_of_dead {s : State} (h : s.dead = true) : s.up = false := by simp [State.up, h]

section
variable {s : State} {t : Time}

theorem onRequest_down {q c : Nat} {r : Request} (h : s.up = false) : onRequest t q c r s = .next (s.arrive t) := engineEvent_down h

theorem onAdmin_down {a : Admin} (h : s.up = false) : onAdmin t a s = .next (s.arrive t) := engineEvent_down h

theorem cmoWrite_dead {m : Ident} {k : Fin 4} {v : Word} {op : Nat} (h : s.dead = true) : cmoWrite t m k v op s = .next (s.arrive t) :=
  regWrite_dead h

theorem barWrite_dead {f : State → State} (h : s.dead = true) : barWrite t s f = .next (s.arrive t) := regWrite_dead h

theorem svcWrite_dead {f : State → State} (h : s.dead = true) : svcWrite t s f = .next (s.arrive t) := liveEvent_dead h

end

/-- Settles O58. The commands left are each behind one of the gates of events, registers and service frames, and power-on reset and RESET_N
close them all. -/
theorem aHeldPartTakesNoCommand : Obligations.AHeldPartTakesNoCommand := by
  intro i s hdead hi
  have hdown := down_of_dead hdead
  cases i with
  | zLoad | serialFrameStart | serialFrameEnd | mainsPhaseStep | timeStep | syntheticStep | mirrorPhaseStep | mirrorTimeout | standstill
  | captureEdge | coreDebugHalt | coreDebugResume | groupFetch | read | write | flush | load | setMod | setRate | sense | move | fill | compare
  | gather | tic | ticc | waitTime | waitTimeExpiry | waitPosition | waitUnit | waitCompare | waitComplete | waitTimeout | glade | gladeComplete
  | signalLevel | signalPulse | signalPattern | patternEdge | slotReserve | armCompare | armCapture | lock | unlock | lockAbandoned | cas | mark
  | nop | schedEntryGrant | stagingBegin | commit | patternEdgeCommit | placementLock | effect | limitExpiry | moverGrant | unitAdvertise | burstEnd
  | hostReadCompletion | completionTimeout | drainComplete | wqPiReadComplete | entryServe | disableComplete | eqCiReadComplete | heldRecordPost
  | tableReadComplete | invalidationComplete | coreWindowAccess | portDisableComplete | streamDisableComplete | placementGap | frameTransmit
  | ptpMessageRx | holdover | cycleStart | snapshot | cyclic | yazenFrameRx | forwardDrop | ownFrameDrop | lineStopRepeat | msixIssue | cicDeliver
  | restEntry | restEntryTimeout | mbTimeout | coreAmo | coreLr | coreSc | coreInReset | watchdogExpiry | mtip | scrubBeat | faultEvent | parityError
  | pulseTrailingEdge | positionEdge | fqCiReadComplete | ptpMessageTx | coreWfi | coreSramAccess =>
    dsimp only [exec]
    exact engineEvent_down hdown
  | start | halt | suspend | resume | clear | modify | storeStatus =>
    dsimp only [exec]
    exact onRequest_down hdown
  | createWq | destroyWq | enableWq | disableWq | createEq | destroyEq | bind | setPrio =>
    dsimp only [exec]
    exact onAdmin_down hdown
  | cleanDataLines | invalidateDataLines | cleanInvalidateDataLines | invalidateInstructionLines | cleanWholeDataCache
  | cleanInvalidateWholeDataCache =>
    dsimp only [exec]
    exact cmoWrite_dead hdead
  | wqDoorbell | pushSlotWrite | eqDoorbell =>
    dsimp only [exec]
    exact barWrite_dead hdead
  | svcMbSend | svcMbAck | svcStage | svcCommit | svcFuse | svcCoreReset =>
    dsimp only [exec]
    exact svcWrite_dead hdead
  | incrementalStep | mainsCrossing | maxOn | duty | permit | budgetWindowStart | serviceEnQualify | linkChange | frameReceive | wakeEvent
  | undTimerExpiry | wakeComplete | usbBusReset | supplyExcursion | flr | functionResetReady | bootImageCheck | fuseProgramComplete | svcRead
  | pcieLinkChange | mainsCrossingTimeout | servicePortAttach =>
    dsimp only [exec]
    exact liveEvent_dead hdead
  | cellCtrlWrite | cellModWrite | loadGo | synRateCommit | mirrorOfsCommit | cmpCtrlWrite | cmpValueWrite | capCtrlWrite | cellRelease | cellHold
  | moverPeakClr | adminCfgWrite | xlInvGo | domCtrlWrite | fqDb | fqCfgWrite | parkPeakClr | cwCtrlWrite
  | commitFence | commitConduct | commitIdentity | lwsStageWrite | portCtrlWrite | rsCtrlWrite | txqCtrlWrite | lineStop | cicPendWrite
  | cicPclrWrite | cicComplete | undRest | mbSend | mbAck | mbBindWrite | mbLock | coreReset | coreRelease | wdCtrlWrite | wdKick | arbTwaitClr
  | schedPeakClr | safeEnter | safeExit | fcTkeyWrite | fcLock | fcFirstClr | funcReset | bootHostGo | bootFuseCmd | registerWrite =>
    dsimp only [exec]
    exact regWrite_dead hdead
  | posFtRead | cmpFtRead | capPop | startTRead | frzTRead | moverBytesRead | mvStateRead | ctxStateRead | wqPiRead | eqResRead | xlHitRead
  | fqPiRead | ouEdgeRead | ptpNowRead | cicClaim | undWtRead | mtimeRead | fcFirstRead | fcTrailRead | fcSafeTRead | devtimeRead =>
    dsimp only [exec]
    exact regRead_dead hdead
  | tcmaData t m w =>
    cases w with
    | none =>
      dsimp only [exec, execTcmaData]
      exact regRead_dead hdead
    | some v =>
      dsimp only [exec, execTcmaData]
      exact regWrite_dead hdead
  | bar4Access t o n w =>
    cases w with
    | none => simp [exec, execBar4Access, State.serves, hdead, Instr.time]
    | some b =>
      dsimp only [exec, execBar4Access]
      exact regWrite_dead hdead
  | powerOnReset | powerOnRelease | perstN | commitComplete | temperatureThreshold | resetN => simp at hi

end Sys2Proof.Machine
end


section
/-! PROOFS. What every step does to the limited-write store and the fuses: its order is kept (O56), and nothing of it is erased (O57). -/

namespace Sys2Proof.Machine

/-! ## The vault: what the store, the hold of the part and the fuses stand at -/

/-- The fields that the order of the store and the history of slots, ledger and fuses speak of. -/
structure Vault where
  fence : List LwsSlot
  conduct : List LwsSlot
  ident : List LwsSlot
  ledger : List (List Byte)
  fenceImg : Option (List Byte)
  commit : Option LwsCommit
  dead : Bool
  keyhash : BitVec 256
  blank : Bool
  fuseBusy : Bool

def State.vault (s : State) : Vault :=
  { fence := s.lws.fence, conduct := s.lws.conduct, ident := s.lws.ident, ledger := s.lws.ledger, fenceImg := s.lws.fenceImg,
    commit := s.lws.commit, dead := s.dead, keyhash := s.boot.keyhash, blank := s.boot.blank, fuseBusy := s.boot.fuseBusy }

theorem vault_eq_iff {s u : State} : u.vault = s.vault ↔
    u.lws.fence = s.lws.fence ∧ u.lws.conduct = s.lws.conduct ∧ u.lws.ident = s.lws.ident ∧ u.lws.ledger = s.lws.ledger ∧
    u.lws.fenceImg = s.lws.fenceImg ∧ u.lws.commit = s.lws.commit ∧ u.dead = s.dead ∧ u.boot.keyhash = s.boot.keyhash ∧
    u.boot.blank = s.boot.blank ∧ u.boot.fuseBusy = s.boot.fuseBusy := by
  simp [State.vault]

/-- A change outside the store, the hold and the fuses. -/
theorem vault_congr {s u : State} (hl : u.lws = s.lws) (hpor : u.rst.por = s.rst.por) (hn : u.rst.resetN = s.rst.resetN)
    (hb : u.boot = s.boot) : u.vault = s.vault := by
  simp [State.vault, State.dead, hl, hpor, hn, hb]

theorem Kept.vault {s u : State} (h : Kept s u) : u.vault = s.vault := by
  simp [State.vault, State.dead, h.lws, h.rst, h.boot]

theorem Quiet.vault {s u : State} (h : Quiet s u) : u.vault = s.vault := h.toKept.vault

theorem vault_arrive (s : State) (t : Time) : (s.arrive t).vault = s.vault := rfl

theorem vault_foldl {α : Type} (f : State → α → State) (hf : ∀ s x, (f s x).vault = s.vault) (l : List α) (s : State) :
    (l.foldl f s).vault = s.vault := by
  induction l generalizing s with
  | nil => rfl
  | cons x r ih => exact (ih _).trans (hf s x)

/-! ## The store as slots by target -/

/-- The slots of a target depend on the vault alone. -/
theorem slots_of_vault {s u : State} (h : u.vault = s.vault) (tg : Nat) : u.lws.slots tg = s.lws.slots tg := by
  obtain ⟨hf, hc, hi, -⟩ := vault_eq_iff.1 h
  simp only [Lws.slots, hf, hc, hi]

theorem setSlots_slots_same (l : Lws) (tg : Nat) (x : List LwsSlot) : (l.setSlots tg x).slots tg = x := by
  unfold Lws.setSlots Lws.slots
  split
  · rfl
  · split <;> rfl

theorem setSlots_fenceImg (l : Lws) (tg : Nat) (x : List LwsSlot) : (l.setSlots tg x).fenceImg = l.fenceImg := by
  unfold Lws.setSlots
  split_ifs <;> rfl

/-- Slots of another target stand; the targets beyond 1 and 2 are all the third. -/
theorem setSlots_slots (l : Lws) (tg j : Nat) (x : List LwsSlot) :
    (l.setSlots tg x).slots j = x ∧ (l.slots j = l.slots tg) ∨ (l.setSlots tg x).slots j = l.slots j := by
  unfold Lws.setSlots Lws.slots
  split_ifs <;> simp_all [tgFence, tgConduct]

theorem StoreOk.of_vault {s u : State} (h : u.vault = s.vault) (ok : StoreOk s) : StoreOk u := by
  obtain ⟨hf, hc, hi, hl, him, hk, hd, -⟩ := vault_eq_iff.1 h
  refine ⟨fun k hu => ?_, ?_, ?_, fun hu => ?_⟩
  · rw [slots_of_vault h]
    exact ok.commit k (hk ▸ hu)
  · rw [hf, hc, hi]
    exact ok.room
  · rw [hl, hf, hc, hi]
    exact ok.ledger
  · rw [him, hf]
    exact ok.inForce (hd ▸ hu)

theorem StoreOk.room_slots {s : State} (ok : StoreOk s) {tg : Nat} (htg : tg = 1 ∨ tg = 2 ∨ tg = 3) :
    (s.lws.slots tg).length ≤ slotCount tg := by
  obtain ⟨hf, hc, hi⟩ := ok.room
  obtain rfl | rfl | rfl := htg
  exacts [hf, hc, hi]

theorem StoreOk.ledger_slots {s : State} (ok : StoreOk s) {tg : Nat} (htg : tg = 1 ∨ tg = 2 ∨ tg = 3) :
    (s.lws.slots tg).length ≤ s.lws.ledger.length := by
  have hsum := ok.ledger
  obtain rfl | rfl | rfl := htg
  · change s.lws.fence.length ≤ _; omega
  · change s.lws.conduct.length ≤ _; omega
  · change s.lws.ident.length ≤ _; omega

/-! ## What every step keeps of the store and the fuses -/

/-- From `s` to `u` the order of the store is kept and nothing of it, nor of the fuses, is erased. -/
structure Guards (s u : State) : Prop where
  order : StoreOk s → StoreOk u
  images : StoreOk s → ∀ tg, (s.lws.slots tg).map (·.image) <+: (u.lws.slots tg).map (·.image)
  ledger : StoreOk s → s.lws.ledger.length ≤ u.lws.ledger.length
  busy : (s.boot.fuseBusy = true → s.boot.blank = true) → u.boot.fuseBusy = true → u.boot.blank = true
  fuses : (s.boot.fuseBusy = true → s.boot.blank = true) → s.boot.blank = false →
    u.boot.blank = false ∧ u.boot.keyhash = s.boot.keyhash

theorem Guards.of_vault {s u : State} (h : u.vault = s.vault) : Guards s u := by
  obtain ⟨-, -, -, hl, -, -, -, hkey, hblank, hbusy⟩ := vault_eq_iff.1 h
  refine ⟨StoreOk.of_vault h, fun _ tg => ?_, fun _ => ?_, fun hb hu => ?_, fun _ hb => ⟨hblank.trans hb, hkey⟩⟩
  · rw [slots_of_vault h]
  · rw [hl]
  · rw [hblank]
    exact hb (hbusy ▸ hu)

theorem Guards.refl (s : State) : Guards s s := .of_vault rfl

theorem Guards.trans {a b c : State} (h : Guards a b) (k : Guards b c) : Guards a c where
  order ok := k.order (h.order ok)
  images ok tg := (h.images ok tg).trans (k.images (h.order ok) tg)
  ledger ok := (h.ledger ok).trans (k.ledger (h.order ok))
  busy hb := k.busy (h.busy hb)
  fuses hb hs := by
    obtain ⟨hblank, hkey⟩ := h.fuses hb hs
    obtain ⟨hblank', hkey'⟩ := k.fuses (h.busy hb) hblank
    exact ⟨hblank', hkey'.trans hkey⟩

theorem Guards.of_kept {s u : State} (h : Kept s u) : Guards s u := .of_vault h.vault
theorem Guards.of_quiet {s u : State} (h : Quiet s u) : Guards s u := .of_vault h.vault

theorem Guards.foldl {α : Type} (f : State → α → State) (hf : ∀ s x, Guards s (f s x)) (l : List α) (s : State) : Guards s (l.foldl f s) := by
  induction l generalizing s with
  | nil => exact .refl s
  | cons x r ih => exact (hf s x).trans (ih _)

/-- A change of the store alone: the fuses stand. -/
theorem Guards.of_store {s u : State} (hb : u.boot = s.boot) (order : StoreOk s → StoreOk u)
    (images : StoreOk s → ∀ tg, (s.lws.slots tg).map (·.image) <+: (u.lws.slots tg).map (·.image))
    (ledger : StoreOk s → s.lws.ledger.length ≤ u.lws.ledger.length) : Guards s u :=
  ⟨order, images, ledger, by rw [hb]; exact id, fun _ h => by rw [hb]; exact ⟨h, rfl⟩⟩

/-- A change of the fuses alone: the store and the hold of the part stand. -/
theorem Guards.of_fuses {s u : State} (hl : u.lws = s.lws) (hd : u.dead = s.dead)
    (busy : (s.boot.fuseBusy = true → s.boot.blank = true) → u.boot.fuseBusy = true → u.boot.blank = true)
    (fuses : (s.boot.fuseBusy = true → s.boot.blank = true) → s.boot.blank = false →
      u.boot.blank = false ∧ u.boot.keyhash = s.boot.keyhash) : Guards s u := by
  refine ⟨fun ok => ⟨?_, ?_, ?_, ?_⟩, fun _ _ => by rw [hl], fun _ => by rw [hl], busy, fuses⟩ <;> rw [hl]
  · exact ok.commit
  · exact ok.room
  · exact ok.ledger
  · exact hd ▸ ok.inForce

/-! ## A slot is programmed, and ends (R368) -/

/-- A slot that is not VALID is no newest one. -/
theorem newest_append_blank (l : List LwsSlot) (img : List Byte) : newest (l ++ [{ valid := false, image := img }]) = newest l := by
  simp [newest]

theorem newest_append_valid (l : List LwsSlot) (img : List Byte) : newest (l ++ [{ valid := true, image := img }]) = some img := by
  simp [newest]

/-- The slots of one target are replaced, images first as they were, with one record for each slot more. -/
theorem Guards.of_slots {s u : State} {tg : Nat} {x : List LwsSlot} (htg : StoreOk s → tg = 1 ∨ tg = 2 ∨ tg = 3) (hboot : u.boot = s.boot)
    (hslots : ∀ j, u.lws.slots j = (s.lws.setSlots tg x).slots j)
    (himages : StoreOk s → (s.lws.slots tg).map (·.image) <+: x.map (·.image)) (hroom : StoreOk s → x.length ≤ slotCount tg)
    (hledger : StoreOk s → u.lws.ledger.length + (s.lws.slots tg).length = s.lws.ledger.length + x.length)
    (hcommit : ∀ k, u.lws.commit = some k → k.target = tg ∧ x.getLast? = some { valid := false, image := k.image })
    (hforce : StoreOk s → u.dead = false → u.lws.fenceImg = newest (u.lws.slots 1)) : Guards s u := by
  refine .of_store hboot (fun ok => ⟨fun k hk => ?_, ?_, ?_, hforce ok⟩) (fun ok j => ?_) (fun ok => ?_)
  · obtain ⟨hkt, hlast⟩ := hcommit k hk
    rw [hkt, hslots, setSlots_slots_same]
    exact ⟨htg ok, hlast⟩
  · change (u.lws.slots 1).length ≤ 32 ∧ (u.lws.slots 2).length ≤ 4 ∧ (u.lws.slots 3).length ≤ 8
    obtain ⟨hf, hc, hi⟩ := ok.room
    have hx := hroom ok
    simp only [hslots]
    obtain rfl | rfl | rfl := htg ok <;>
      simp_all [Lws.slots, Lws.setSlots, slotCount, tgFence, tgConduct]
  · change _ = (u.lws.slots 1).length + (u.lws.slots 2).length + (u.lws.slots 3).length
    have hl := hledger ok
    have hs := ok.ledger
    simp only [hslots]
    obtain rfl | rfl | rfl := htg ok <;>
      simp_all [Lws.slots, Lws.setSlots, tgFence, tgConduct] <;> omega
  · rw [hslots]
    obtain ⟨hx, hj⟩ | hx := setSlots_slots s.lws tg j x <;> rw [hx]
    rw [hj]
    exact himages ok
  · have hl := hledger ok
    have hlen : (s.lws.slots tg).length ≤ x.length := by simpa using (himages ok).length_le
    omega

theorem lwsJudge_ok {s : State} {m : Ident} {v : Word} (h : s.lwsJudge m v = 0) :
    s.lws.commit = none ∧ fld v 0 2 ≠ 0 ∧ (s.lws.slots (fld v 0 2)).length < slotCount (fld v 0 2) := by
  dsimp only [State.lwsJudge] at h
  split_ifs at h with hbusy hfield _ _ _ hroom
  simp only [Bool.or_eq_true, decide_eq_true_eq, not_or] at hfield
  exact ⟨by simpa using hbusy, hfield.1.2, by simpa using hroom⟩

/-- The target of LWS_CMD is two bits wide. -/
theorem target_cases (v : Word) (h : fld v 0 2 ≠ 0) : fld v 0 2 = 1 ∨ fld v 0 2 = 2 ∨ fld v 0 2 = 3 := by
  have : fld v 0 2 < 4 := by unfold fld; exact Nat.mod_lt _ (by decide)
  omega

theorem lwsAccept_guards (s : State) (m : Ident) {tg : Nat} (htg : tg = 1 ∨ tg = 2 ∨ tg = 3)
    (hroom : (s.lws.slots tg).length < slotCount tg) : Guards s (s.lwsAccept m tg) := by
  refine .of_slots (fun _ => htg) rfl (fun _ => rfl) (fun _ => by simp) (fun _ => by simpa using hroom) (fun _ => ?_) (fun k hk => ?_) (fun ok hd => ?_)
  · simp [State.lwsAccept]; omega
  · obtain rfl := Option.some.inj hk
    simp
  · change (s.lws.setSlots tg _).fenceImg = newest ((s.lws.setSlots tg _).slots 1)
    have him := ok.inForce hd
    obtain rfl | rfl | rfl := htg <;>
      simp [Lws.slots, Lws.setSlots, tgFence, tgConduct, newest_append_blank, him]

theorem lwsCmd_guards (s : State) (m : Ident) (v : Word) : Guards s (s.lwsCmd m v) := by
  unfold State.lwsCmd
  split
  case h_1 hj =>
    obtain ⟨-, htg, hroom⟩ := lwsJudge_ok hj
    exact lwsAccept_guards s m (target_cases v htg) hroom
  case h_2 => exact .of_vault rfl

/-- A fence image put in force is all of the vault that `applyFence` changes. -/
theorem applyFence_vault (s : State) (img : List Byte) (t : Time) :
    (s.applyFence img t).vault = ({ s with lws := { s.lws with fenceImg := some img } } : State).vault := by
  unfold State.applyFence
  extract_lets s0 rested pol src inForce held judged
  have hrested : Kept s rested := Kept.foldl _ (fun _ _ h => .ofQuiet (kept_forceRest (.refl _)) h) _ (.refl s)
  have hheld : held.vault = inForce.vault := vault_foldl _ (fun u n => by
    dsimp only
    split
    · rfl
    · exact (kept_setPin (.refl u)).vault) _ _
  have hjudged : judged.vault = held.vault := vault_foldl _ (fun u n => by
    dsimp only
    split
    · rfl
    · split
      · exact (kept_permitAccept (.refl u)).vault
      · exact (kept_setPermitIn (.refl u)).vault) _ _
  have hin : inForce.vault = ({ s with lws := { s.lws with fenceImg := some img } } : State).vault := by
    simp [inForce, src, State.vault, State.dead, hrested.lws, hrested.rst, hrested.boot]
  exact (kept_stampPins (.refl judged)).vault.trans (hjudged.trans (hheld.trans hin))

/-- The store with the commit `k` ended: its slot and its record say so, and a VALID fence image is in force. -/
def Lws.finished (l : Lws) (k : LwsCommit) (ok : Bool) : Lws :=
  { l.setSlots k.target ((l.slots k.target).dropLast ++ [{ valid := ok, image := k.image }]) with
    ledger := l.ledger.dropLast ++ [splice (l.ledger.getLast?.getD []) 3 [if ok then 1 else 2]], commit := none,
    fenceImg := if ok = true ∧ k.target = tgFence then some k.image else l.fenceImg }

theorem lwsFinish_vault {s : State} {k : LwsCommit} (h : s.lws.commit = some k) (ok : Bool) :
    (s.lwsFinish ok).vault = ({ s with lws := s.lws.finished k ok } : State).vault := by
  unfold State.lwsFinish
  rw [h]
  dsimp only
  rw [(kept_cicEdge (.refl _)).vault]
  cases ok with
  | false =>
    rw [if_neg (by decide), (kept_report (.refl _)).vault]
    simp [State.vault, State.dead, setSlots_fenceImg, Lws.finished]
  | true =>
    rw [if_pos rfl]
    by_cases htg : k.target = tgFence
    · simp only [htg, applyFence_vault, Lws.finished, and_self, if_true]
      rfl
    · simp [htg, State.vault, State.dead, setSlots_fenceImg, Lws.finished]

theorem getLast_split {α : Type} {l : List α} {x : α} (h : l.getLast? = some x) : l = l.dropLast ++ [x] :=
  (List.dropLast_append_getLast? x h).symm

/-- The end of a commit leaves the slot where it was programmed, with its image, and the record with its number. -/
theorem finished_guards {s : State} {k : LwsCommit} (hk : s.lws.commit = some k) (ok : Bool) :
    Guards s { s with lws := s.lws.finished k ok } := by
  have hlast (hs : StoreOk s) : s.lws.slots k.target = (s.lws.slots k.target).dropLast ++ [{ valid := false, image := k.image }] :=
    getLast_split (hs.commit k hk).2
  have hlen (hs : StoreOk s) : (s.lws.slots k.target).length = (s.lws.slots k.target).dropLast.length + 1 := by
    simpa using congrArg List.length (hlast hs)
  refine .of_slots (tg := k.target) (fun hs => (hs.commit k hk).1) rfl (fun _ => rfl) (fun hs => ?_) (fun hs => ?_) (fun hs => ?_)
    (fun j hj => by cases hj) (fun hs hd => ?_)
  · rw [hlast hs]
    simp
  · rw [List.length_append, List.length_singleton, ← hlen hs]
    exact hs.room_slots (hs.commit k hk).1
  · have hledger := hs.ledger_slots (hs.commit k hk).1
    have := hlen hs
    simp only [Lws.finished, List.length_append, List.length_dropLast, List.length_singleton] at this ⊢
    omega
  · have him := hs.inForce hd
    change (if ok = true ∧ k.target = tgFence then some k.image else s.lws.fenceImg) = newest ((s.lws.setSlots k.target _).slots 1)
    by_cases htg : k.target = tgFence
    · rw [htg, show (1 : Nat) = tgFence from rfl, setSlots_slots_same]
      cases ok with
      | true => simp [newest_append_valid]
      | false =>
        have hold := hlast hs
        rw [htg] at hold
        have hsame : newest (s.lws.slots tgFence) = newest (s.lws.slots tgFence).dropLast := by
          rw [hold, newest_append_blank, List.dropLast_concat]
        rw [newest_append_blank, ← hsame, if_neg (by simp)]
        exact him
    · rw [if_neg fun h => htg h.2, him]
      obtain htg | htg := (hs.commit k hk).1.resolve_left htg <;> rw [htg] <;> rfl

theorem lwsFinish_guards (s : State) (ok : Bool) : Guards s (s.lwsFinish ok) := by
  cases hk : s.lws.commit with
  | none =>
    have : s.lwsFinish ok = s := by simp [State.lwsFinish, hk]
    rw [this]
    exact .refl s
  | some k => exact (finished_guards hk ok).trans (.of_vault (lwsFinish_vault hk ok))

/-! ## Resets of the whole part (R498 to R500) -/

/-- A part reset whole: the slots are read again, their images and places as they were, no commit is in progress and the fuses are not busy. -/
theorem Guards.of_restart {s u : State} (himages : ∀ tg, (u.lws.slots tg).map (·.image) = (s.lws.slots tg).map (·.image))
    (hledger : u.lws.ledger = s.lws.ledger) (hcommit : u.lws.commit = none) (hforce : u.dead = false → u.lws.fenceImg = newest u.lws.fence)
    (hbusy : u.boot.fuseBusy = true → s.boot.fuseBusy = true) (hblank : u.boot.blank = s.boot.blank) (hkey : u.boot.keyhash = s.boot.keyhash) : Guards s u := by
  have hlen (tg : Nat) : (u.lws.slots tg).length = (s.lws.slots tg).length := by
    simpa using congrArg List.length (himages tg)
  refine ⟨fun ok => ⟨fun k hk => ?_, ?_, ?_, hforce⟩, fun _ tg => ?_, fun _ => ?_, fun hb hu => ?_, fun _ hs => ⟨hblank.trans hs, hkey⟩⟩
  · simp [hcommit] at hk
  · change (u.lws.slots 1).length ≤ 32 ∧ (u.lws.slots 2).length ≤ 4 ∧ (u.lws.slots 3).length ≤ 8
    rw [hlen, hlen, hlen]
    exact ok.room
  · change _ = (u.lws.slots 1).length + (u.lws.slots 2).length + (u.lws.slots 3).length
    rw [hlen, hlen, hlen, hledger]
    exact ok.ledger
  · rw [himages]
  · rw [hledger]
  · exact hblank.trans (hb (hbusy hu))

theorem readSlots_images (l : List LwsSlot) : (readSlots l).map (·.image) = l.map (·.image) := by
  simp only [readSlots, List.map_map]
  refine List.map_congr_left fun x _ => ?_
  dsimp only [Function.comp]
  split <;> rfl

theorem restart_images (l : Lws) (tg : Nat) : (l.restart.slots tg).map (·.image) = (l.slots tg).map (·.image) := by
  simp only [Lws.slots, Lws.restart]
  split_ifs <;> exact readSlots_images _

/-- R498: what a start makes of the vault. -/
theorem startUp_vault (s : State) : s.startUp.vault = ({ s with lws := s.lws.restart, rst := { s.rst with por := false, resetN := false } } : State).vault := by
  unfold State.startUp
  extract_lets bad r b read booted
  rw [(kept_setFaultN (.refl _)).vault]
  have hbooted : booted.vault = read.vault := (kept_startOuts (.refl read)).vault
  split
  · exact (kept_report (.refl booted)).vault.trans hbooted
  · exact hbooted

theorem startUp_guards (s : State) : Guards s s.startUp := by
  refine Guards.trans (.of_restart (s := s) (u := { s with lws := s.lws.restart, rst := { s.rst with por := false, resetN := false } })
    (restart_images _) rfl rfl (fun _ => rfl) id rfl rfl) (.of_vault (startUp_vault s))

/-- R500: a part laid bare and started again. -/
theorem pinReset_guards (s : State) : Guards s s.pinReset :=
  .trans (b := { s.bare with rst := { s.bare.rst with cause := s.bare.rst.cause ||| 2, por := true } })
    (.of_restart (fun _ => rfl) rfl rfl (fun h => by simp [State.dead] at h) (fun h => by cases h) rfl rfl)
    (.trans (startUp_guards _) (.of_vault (by rw [State.pinReset, startUp_vault, startUp_vault])))

/-- R498: the start after power-on reset. -/
theorem powerOnRelease_guards (s : State) (b : BitVec 8) :
    Guards s ({ s with now := 0, outs := { s.outs with bank33 := b } } : State).startUp := by
  refine Guards.trans ?_ (startUp_guards _)
  exact .of_vault (vault_congr rfl rfl rfl rfl)

theorem powerDown_guards (s : State) : Guards s s.powerDown :=
  .of_restart (fun _ => rfl) rfl rfl (fun h => by simp [State.dead, State.powerDown] at h) (fun h => by cases h) rfl rfl

/-- R500, R505: a RESET_N during a commit holds the part and keeps the commit. -/
theorem heldReset_guards (s : State) : Guards s { s.bare with
    lws := { s.bare.lws with commit := s.lws.commit }, rst := { s.bare.rst with resetN := true, resetHeld := true } } where
  order ok := ⟨ok.commit, ok.room, ok.ledger, fun h => by simp [State.dead] at h⟩
  images _ _ := List.prefix_refl _
  ledger _ := le_refl _
  busy _ h := by cases h
  fuses _ h := ⟨h, rfl⟩

theorem resetPin_guards (s : State) (w : Nat) : Guards s (s.resetPin w) := by
  unfold State.resetPin
  split
  · exact .refl s
  · extract_lets drawn
    have hdrawn : Quiet s drawn := by
      dsimp only [drawn]
      split
      · exact .refl s
      · exact kept_draw (.refl s)
    split
    · exact .of_quiet hdrawn
    · split
      · rw [← hdrawn.lws]
        exact (Guards.of_quiet hdrawn).trans (heldReset_guards drawn)
      · exact (Guards.of_quiet hdrawn).trans (pinReset_guards _)

theorem payCommit_guards (s : State) : Guards s s.payCommit := by
  unfold State.payCommit
  split
  · exact .of_vault (kept_emit (.refl _)).vault
  · exact .refl s

theorem commitEnd_guards (s : State) (ok : Bool) : Guards s (s.commitEnd ok) := by
  unfold State.commitEnd
  split_ifs
  · exact .refl s
  · exact (lwsFinish_guards s ok).trans (pinReset_guards _)
  · exact .refl s
  · exact (lwsFinish_guards s ok).trans (payCommit_guards _)

/-! ## Function-wide resets, the fault collector and the boot (R479, R502, R507 to R513) -/

theorem functionReset_vault (s : State) (c w : Nat) : (s.functionReset c w).vault = s.vault := by
  unfold State.functionReset
  extract_lets u
  have hu : Kept s u := (kept_resetCores (kept_mbReset (.refl s))).trans (kept_lockKey (kept_restUnits (.refl _))).toKept
  clear_value u
  exact (vault_congr (s := u) rfl rfl rfl rfl).trans hu.vault

theorem perst_guards (s : State) (high : Bool) : Guards s (s.perst high) := by
  unfold State.perst
  split_ifs
  · exact .refl s
  · exact .of_vault rfl
  · exact .of_vault rfl
  · exact .refl s
  · exact .of_vault rfl
  · have hu := functionReset_vault s 2 0
    generalize s.functionReset 2 0 = u at hu ⊢
    exact .of_vault ((vault_congr rfl rfl rfl rfl).trans hu)

theorem flr_guards (s : State) : Guards s s.flr := by
  unfold State.flr
  split
  · exact .refl s
  · have hu := functionReset_vault s 3 (us 10)
    generalize s.functionReset 3 (us 10) = u at hu ⊢
    exact .of_vault ((vault_congr rfl rfl rfl rfl).trans hu)

theorem funcReset_guards (s : State) (v : Word) : Guards s (s.funcReset v) := by
  unfold State.funcReset
  split
  · exact .of_vault (functionReset_vault s 4 (us 2))
  · exact .refl s

theorem resetReady_guards (s : State) : Guards s s.resetReady := by
  unfold State.resetReady
  split
  · dsimp only
    split
    · exact .of_vault (kept_releaseCore0 (.refl _)).vault
    · exact .of_vault rfl
  · exact .refl s

theorem fcReact_guards (s : State) (l : List FcEvent) : Guards s (s.fcReact l) := by
  unfold State.fcReact
  extract_lets halted safe
  have hhalted : Guards s halted := .foldl _ (fun u e => by
    split
    · exact .of_quiet (kept_haltDomain (.refl u))
    · exact .refl u) _ _
  have hsafe : Guards s safe := by
    refine hhalted.trans ?_
    dsimp only [safe]
    split
    · exact .of_quiet (kept_safeGo (kept_modFc (.refl _)))
    · exact .refl _
  split
  · exact hsafe.trans (.of_vault (functionReset_vault ..))
  · exact hsafe

theorem fcEvents_guards (s : State) (l : List FcEvent) : Guards s (s.fcEvents l) :=
  (Guards.of_quiet (kept_fcRecord (.refl s))).trans ((fcReact_guards _ l).trans (.of_quiet (kept_setFaultN (.refl _))))

theorem fcSample_guards (s : State) (w : List Nat) : Guards s (s.fcSample w) :=
  (Guards.of_quiet (kept_modFc (.refl s))).trans (fcEvents_guards _ _)

theorem fcSafe_guards (s : State) (v : Word) : Guards s (s.fcSafe v) := by
  unfold State.fcSafe
  dsimp only
  split_ifs
  · exact .of_quiet (kept_modFc (.refl s))
  · exact (Guards.of_quiet (kept_modFc (.refl s))).trans (fcEvents_guards _ _)
  · exact .of_quiet (kept_setFaultN (kept_modFc (kept_modFc (.refl s))))
  · exact .of_quiet (kept_modFc (.refl s))

/-- The boot's own fields are no part of the vault. -/
theorem vault_boot {s : State} {b : Boot} (hk : b.keyhash = s.boot.keyhash) (hb : b.blank = s.boot.blank) (hf : b.fuseBusy = s.boot.fuseBusy) :
    ({ s with boot := b } : State).vault = s.vault := by
  simp [State.vault, State.dead, hk, hb, hf]

theorem bootDone_vault (s : State) (b : List Byte) (n : Nat) : (s.bootDone b n).vault = s.vault := by
  unfold State.bootDone
  extract_lets vec b0 done
  have hdone : done.vault = s.vault := (vault_boot rfl rfl rfl).trans (kept_modCore (.refl s)).vault
  split
  · exact hdone
  · exact (kept_releaseCore0 (.refl done)).vault.trans hdone

theorem bootFlash_vault (s : State) (n : Nat) (b : List Byte) (slow : Bool) : (s.bootFlash n b slow).vault = s.vault := by
  unfold State.bootFlash
  extract_lets c loaded b0 written
  have hloaded : Quiet s loaded := kept_loadPayload (.refl s)
  have hwritten : written.vault = s.vault := by
    dsimp only [written]
    split
    · refine (vault_boot ?_ ?_ ?_).trans hloaded.vault <;> rw [hloaded.boot]
    · rfl
  clear_value written
  split
  · exact (bootDone_vault ..).trans hwritten
  · exact (vault_boot rfl rfl rfl).trans hwritten

theorem bootHost_vault (s : State) : s.bootHost.vault = s.vault := by
  unfold State.bootHost
  split
  next u h =>
    exact (vault_boot rfl rfl rfl).trans (kept_hostBytes_of h (.refl s)).vault
  next x u h =>
    have hu := (kept_hostBytes_of h (.refl s)).vault
    split
    · exact (vault_boot rfl rfl rfl).trans hu
    · split
      next w hw =>
        exact (vault_boot rfl rfl rfl).trans ((kept_hostBytes_of hw (.refl u)).vault.trans hu)
      next p w hw =>
        have hw' := (kept_hostBytes_of hw (.refl u)).vault.trans hu
        dsimp only
        split
        · exact (bootDone_vault ..).trans ((kept_loadPayload (.refl w)).vault.trans hw')
        · exact (vault_boot rfl rfl rfl).trans hw'

theorem bootImage_vault (s : State) (src : BootSource) (b : List Byte) (slow : Bool) : (s.bootImage src b slow).vault = s.vault := by
  unfold State.bootImage
  extract_lets flash
  cases src with
  | noFlash =>
    dsimp only
    split
    · exact vault_boot rfl rfl rfl
    · rfl
  | flash0 | flash1 =>
    dsimp only
    split
    · exact bootFlash_vault ..
    · rfl
  | host =>
    dsimp only
    split
    · exact bootHost_vault s
    · rfl

theorem bootGo_vault (s : State) (m : Ident) (v : Word) : (s.bootGo m v).vault = s.vault := by
  unfold State.bootGo
  split_ifs
  · rfl
  · rfl
  · extract_lets u
    have hu : u.vault = s.vault := vault_foldl _ (fun u _ => (kept_coreCtrl (.refl u)).vault) _ s
    clear_value u
    exact (vault_boot rfl rfl rfl).trans hu

/-- R513: only blank fuses that are not being programmed are programmed. -/
theorem fuseJudge_ok {s : State} {m : Ident} {v : Word} (h : s.fuseJudge m v = cOk) : s.boot.blank = true ∧ s.boot.fuseBusy = false := by
  unfold State.fuseJudge at h
  split at h
  · cases h
  next hrefused => simp_all

theorem fuseCmd_guards (s : State) (m : Ident) (v : Word) : Guards s (s.fuseCmd m v) := by
  refine .of_fuses rfl rfl (fun hb hbusy => ?_) (fun _ hblank => ?_)
  · by_cases hr : s.fuseJudge m v = cOk
    · have := (fuseJudge_ok hr).1
      simp [State.fuseCmd, hr, this]
    · simp only [State.fuseCmd, if_neg hr] at hbusy ⊢
      exact hb hbusy
  · by_cases hr : s.fuseJudge m v = cOk
    · have := (fuseJudge_ok hr).1
      simp [this] at hblank
    · simpa only [State.fuseCmd, if_neg hr, and_true] using hblank

theorem payFuse_vault (s : State) : s.payFuse.vault = s.vault := by
  unfold State.payFuse
  split
  · exact (kept_emit (.refl _)).vault
  · rfl

theorem fuseEnd_guards (s : State) (ok : Bool) : Guards s (s.fuseEnd ok) := by
  unfold State.fuseEnd
  split
  · exact .refl s
  next hbusy =>
    extract_lets b0 b
    refine Guards.trans (.of_fuses (u := { s with boot := b, free := if ok then s.free else s.free + 8 }) rfl rfl
      (fun _ h => by simp [b] at h) (fun hb hblank => ?_)) (.of_vault (payFuse_vault _))
    have hset := hb (by simpa using hbusy)
    simp [hset] at hblank

/-! ## SERVICE_EN, the stage and the service port -/

theorem svcQual_vault (s : State) (t : Time) : (s.svcQual t).vault = s.vault := by
  unfold State.svcQual
  dsimp only
  split
  · exact (kept_watchEvent (.refl _)).vault
  · rfl

theorem svcEdge_vault (s : State) (t : Time) (v : Bool) : (s.svcEdge t v).vault = s.vault := by
  unfold State.svcEdge
  extract_lets u l w
  have hu : u.vault = s.vault := svcQual_vault s t
  have hw : w.vault = s.vault := hu
  split_ifs
  · exact hu
  · exact (kept_watchEvent (kept_lockKey (.refl w)).toKept).vault.trans hw
  · exact hw

theorem lwsStage_vault (s : State) (o : Nat) (b : List Byte) : (s.lwsStage o b).vault = s.vault := by
  unfold State.lwsStage
  split <;> rfl

theorem svcStage_guards (s : State) (o : Nat) (b : List Byte) : Guards s (s.svcStage o b) := by
  unfold State.svcStage
  split
  · exact .of_quiet (kept_answer (.refl s))
  · exact .of_vault ((kept_answer (.refl _)).vault.trans (lwsStage_vault s o b))

theorem svcCommit_guards (s : State) (stamp tag v : Word) : Guards s (s.svcCommit stamp tag v) := by
  unfold State.svcCommit
  extract_lets busy l u w
  have hw : Guards s w := (Guards.of_vault (s := s) (u := u) rfl).trans (lwsCmd_guards u svcId v)
  clear_value w
  split
  · exact hw.trans (.of_vault rfl)
  · exact hw.trans (.of_quiet (kept_emit (.refl w)))

theorem svcFuse_guards (s : State) (d : BitVec 256) : Guards s (s.svcFuse d) := by
  unfold State.svcFuse
  extract_lets b u was w
  have hw : Guards s w := (Guards.of_vault (s := s) (u := u) rfl).trans (fuseCmd_guards u svcId _)
  clear_value w
  split
  · exact hw.trans (.of_vault rfl)
  · exact hw.trans (.of_quiet (kept_emit (.refl w)))

theorem usbReset_vault (s : State) : s.usbReset.vault = s.vault := by
  unfold State.usbReset
  extract_lets u
  have hu : u.vault = s.vault := (kept_mbReset (.refl s)).vault
  clear_value u
  exact (vault_congr rfl rfl rfl rfl).trans hu

/-! ## The Yazen engine -/

theorem cyclicRx_kept (s : State) (h : List Byte) : Kept s (s.cyclicRx h) := by
  unfold State.cyclicRx
  extract_lets src k own noted y now before seen u nAx sampled slots taken
  have hnoted : Quiet s noted := by
    dsimp only [noted]
    split
    · exact kept_report (kept_modYz (.refl s))
    · exact .refl s
  have hyz (z : Yazen) : Quiet s (noted.setYz z) := kept_setYz hnoted
  have htaken : Kept s taken := .foldl _ (fun _ _ hx => .ofQuiet (kept_modYz (.refl _)) hx) _ (kept_applySamples (hyz _).toKept)
  split_ifs
  · exact hnoted.toKept
  · exact (hyz _).toKept
  · exact (hyz _).toKept
  · exact .ofQuiet (kept_cicEdge (.refl taken)) htaken

theorem yazenRx_kept (s : State) : Kept s s.yazenRx := by
  unfold State.yazenRx
  split
  · exact .refl s
  next p at_ f r h =>
    extract_lets head type u
    have hu : Quiet s u := kept_yzForward (kept_modYz (.refl s))
    clear_value u
    split_ifs
    · exact (kept_modYz hu).toKept
    · exact (kept_modYz hu).toKept
    · exact hu.toKept.trans (cyclicRx_kept u head)
    · exact (kept_lineStopRx hu).toKept
    · exact (kept_creditRx hu).toKept

/-! ## The TCM access port -/

theorem tcmAdvance_vault (s : State) : s.tcmAdvance.vault = s.vault := rfl

theorem tcmaWrite_vault (s : State) (m : Ident) (v : Word) : (s.tcmaWrite m v).vault = s.vault := by
  unfold State.tcmaWrite
  split_ifs
  · rfl
  · exact (tcmAdvance_vault _).trans (kept_tcmWriteOther (.refl s)).vault
  · exact tcmAdvance_vault _

theorem tcmaTake_vault (s : State) : s.tcmaTake.2.vault = s.vault := by
  unfold State.tcmaTake
  split
  · split
    next b u h => exact (tcmAdvance_vault u).trans (kept_tcmRead_of h (.refl s)).vault
    next u h => exact (tcmAdvance_vault _).trans (kept_tcmRead_of h (.refl s)).vault
  · exact tcmAdvance_vault _

theorem tcmaRead_vault (s : State) (m : Ident) : (s.tcmaRead m).2.vault = s.vault := by
  unfold State.tcmaRead
  split_ifs
  · exact tcmaTake_vault s
  · rfl
  · rfl

theorem tcmaRegWrite_vault (s : State) (m : Ident) (r : Nat) (v : Word) : (s.tcmaRegWrite m r v).vault = s.vault := by
  unfold State.tcmaRegWrite
  dsimp only
  split
  · split <;> rfl
  · exact tcmaWrite_vault s m v
  · split <;> rfl
  · rfl

theorem tcmaRegRead_vault (s : State) (m : Ident) (r : Nat) : (s.tcmaRegRead m r).2.vault = s.vault := by
  unfold State.tcmaRegRead
  split
  · rfl
  · exact tcmaRead_vault s m
  · rfl
  · rfl

/-! ## The registers (R522) -/

theorem rstWrite_guards (s : State) (r : Nat) (v : Word) : Guards s (s.rstWrite r v) := by
  unfold State.rstWrite
  split
  · exact .of_vault rfl
  · exact funcReset_guards s v
  · exact .of_vault rfl
  · exact .refl s

theorem lwsWrite_guards (s : State) (m : Ident) (r : Nat) (v : Word) : Guards s (s.lwsWrite m r v) := by
  unfold State.lwsWrite
  dsimp only
  split
  · exact lwsCmd_guards s m v
  · exact .of_vault rfl
  · exact .of_vault rfl
  · exact .of_vault rfl
  · split
    · exact .of_vault (lwsStage_vault ..)
    · exact .refl s

theorem fcRegWrite_guards (s : State) (m : Ident) (r : Nat) (v : Word) : Guards s (s.fcRegWrite m r v) := by
  have hs : Quiet s s := .refl s
  unfold State.fcRegWrite
  split
  · exact .of_quiet (kept_fcCtrl hs)
  · exact .of_quiet (kept_fcLock hs)
  · exact .of_quiet (kept_modFc hs)
  · exact fcSafe_guards s v
  · exact .of_quiet (kept_fcTkey hs)
  · exact .of_quiet (kept_fcTest hs)
  · exact .of_quiet (kept_fcFirstClr hs)
  · split_ifs
    · exact .of_quiet (kept_fcVec hs)
    · exact .of_quiet (kept_fcLatch hs)
    · exact .of_quiet (kept_fcForce hs)
    · exact .of_quiet (kept_modFc hs)
    · exact .of_quiet (kept_fcSrcWrite hs)
    · exact .refl s

theorem bootWrite_guards (s : State) (m : Ident) (r : Nat) (v : Word) : Guards s (s.bootWrite m r v) := by
  unfold State.bootWrite
  dsimp only
  split
  · exact .of_vault (vault_boot rfl rfl rfl)
  · exact .of_vault (vault_boot rfl rfl rfl)
  · exact .of_vault (bootGo_vault s m v)
  · exact fuseCmd_guards s m v
  · split
    · exact .of_vault (vault_boot rfl rfl rfl)
    · exact .refl s

/-- A write of a block's registers keeps the order of the store, and a read of them leaves the vault alone. -/
def BlockGuards (b : Block) : Prop := (∀ s m i r v, Guards s (b.put s m i r v)) ∧ ∀ s m i r, (b.get s m i r).2.vault = s.vault

/-- Every block but those named leaves the vault alone, be it written or read. -/
theorem blocksA_guards : ∀ b ∈ blocksA, BlockGuards b := by
  unfold blocksA
  simp only [List.forall_mem_cons, BlockGuards]
  refine ⟨⟨fun _ _ _ _ _ => .refl _, fun _ _ _ _ => rfl⟩,
    ⟨fun s _ _ r v => rstWrite_guards s r v, fun _ _ _ _ => (kept_rstRead (.refl _)).vault⟩,
    ⟨fun _ _ _ _ _ => .of_kept (kept_undWrite (.refl _)), fun _ _ _ _ => (kept_undRead (.refl _)).vault⟩,
    ⟨fun _ _ _ _ _ => .of_kept (kept_cellWrite (.refl _)), fun _ _ _ _ => (kept_cellRead (.refl _)).vault⟩,
    ⟨fun _ _ _ _ _ => .of_kept (kept_capWrite (.refl _)).toKept, fun _ _ _ _ => (kept_capRead (.refl _)).vault⟩,
    ⟨fun _ _ _ _ _ => .of_kept (kept_cmpWrite (.refl _)).toKept, fun _ _ _ _ => (kept_cmpRead (.refl _)).vault⟩,
    ⟨fun _ _ _ _ _ => .of_kept (kept_startWrite (.refl _)), fun _ _ _ _ => (kept_startRead (.refl _)).vault⟩,
    ⟨fun _ _ _ _ _ => ?_, fun _ _ _ _ => rfl⟩,
    ⟨fun _ _ _ _ _ => .of_quiet (kept_modChan (.refl _)), fun _ _ _ _ => rfl⟩,
    ⟨fun _ _ _ _ _ => .of_kept (kept_encWrite (.refl _)), fun _ _ _ _ => rfl⟩,
    ⟨fun _ _ _ _ _ => .of_kept (kept_serWrite (.refl _)), fun _ _ _ _ => rfl⟩,
    ⟨fun _ _ _ _ _ => .of_kept (kept_mainsWrite (.refl _)), fun _ _ _ _ => rfl⟩,
    ⟨fun _ _ _ _ _ => .refl _, fun _ _ _ _ => (kept_ctxRead (.refl _)).vault⟩,
    ⟨fun _ _ _ _ _ => .of_quiet (kept_adminWrite (.refl _)), fun _ _ _ _ => rfl⟩,
    ⟨fun _ _ _ _ _ => ?_, fun _ _ _ _ => (kept_wqRegRead (.refl _)).vault⟩,
    ⟨fun _ _ _ _ _ => .refl _, fun _ _ _ _ => (kept_eqRegRead (.refl _)).vault⟩,
    ⟨fun _ _ _ _ _ => .of_quiet (kept_xlWrite (.refl _)), fun _ _ _ _ => (kept_xlRead (.refl _)).vault⟩,
    ⟨fun _ _ _ _ _ => .of_quiet (kept_domWrite (.refl _)), fun _ _ _ _ => rfl⟩,
    ⟨fun _ _ _ _ _ => .of_quiet (kept_fqWrite (.refl _)), fun _ _ _ _ => (kept_fqRegRead (.refl _)).vault⟩,
    ⟨fun _ _ _ _ _ => .of_quiet (kept_winWrite (.refl _)), fun _ _ _ _ => rfl⟩, fun _ h => absurd h List.not_mem_nil⟩
  · split
    · exact .of_quiet (kept_schedCtrl (.refl _))
    · exact .refl _
  · split
    · exact .of_quiet (kept_modWq (.refl _))
    · exact .refl _

theorem blocksB_guards : ∀ b ∈ blocksB, BlockGuards b := by
  unfold blocksB
  simp only [List.forall_mem_cons, BlockGuards]
  refine ⟨⟨fun _ _ _ _ _ => .refl _, fun _ _ _ _ => (kept_ouRead (.refl _)).vault⟩,
    ⟨fun _ _ _ _ _ => .refl _, fun _ _ _ _ => rfl⟩,
    ⟨fun s m _ r v => lwsWrite_guards s m r v, fun _ _ _ _ => rfl⟩,
    ⟨fun _ _ _ _ _ => .of_quiet (kept_cicWrite (.refl _)), fun _ _ _ _ => rfl⟩,
    ⟨fun _ _ _ _ _ => .of_quiet (kept_msixWrite (.refl _)), fun _ _ _ _ => rfl⟩,
    ⟨fun _ _ _ _ _ => .refl _, fun _ _ _ _ => rfl⟩,
    ⟨fun _ _ _ _ _ => .of_kept (kept_mbWrite (.refl _)), fun _ _ _ _ => trivial⟩,
    ⟨fun _ _ _ _ _ => .of_kept (kept_mbTabWrite (.refl _)), fun _ _ _ _ => rfl⟩,
    ⟨fun s m _ r v => fcRegWrite_guards s m r v, fun _ _ _ _ => (kept_fcRegRead (.refl _)).vault⟩,
    ⟨fun _ _ _ _ _ => .of_quiet (kept_portWrite (.refl _)), fun _ _ _ _ => rfl⟩,
    ⟨fun _ _ _ _ _ => .of_quiet (kept_yzWrite (.refl _)), fun _ _ _ _ => rfl⟩,
    ⟨fun _ _ _ _ _ => .of_quiet (kept_ptpWrite (.refl _)), fun _ _ _ _ => (kept_ptpRead (.refl _)).vault⟩,
    ⟨fun _ _ _ _ _ => .of_quiet (kept_coreWrite (.refl _)), fun _ _ _ _ => rfl⟩,
    ⟨fun _ _ _ _ _ => .of_quiet (kept_memWrite (.refl _)), fun _ _ _ _ => (kept_memRead (.refl _)).vault⟩,
    ⟨fun _ _ _ _ _ => ?_, fun _ _ _ _ => (kept_moverRead (.refl _)).vault⟩,
    ⟨fun _ _ _ _ _ => .refl _, fun _ _ _ _ => ?_⟩,
    ⟨fun _ _ _ _ _ => .of_quiet (kept_modChan (.refl _)), fun _ _ _ _ => rfl⟩,
    ⟨fun s m _ r v => bootWrite_guards s m r v, fun _ _ _ _ => rfl⟩,
    ⟨fun s m _ r v => .of_vault (tcmaRegWrite_vault s m r v), fun s m _ r => tcmaRegRead_vault s m r⟩,
    ⟨fun _ _ _ _ _ => .of_vault rfl, fun _ _ _ _ => rfl⟩, fun _ h => absurd h List.not_mem_nil⟩
  · split
    · exact .of_quiet (kept_moverCtrl (.refl _))
    · exact .refl _
  · split
    · exact (kept_readMvState (.refl _)).vault
    · rfl

theorem blockOf_guards {o : Nat} {b : Block} (h : blockOf o = some b) : BlockGuards b :=
  (List.mem_append.1 (List.mem_of_find?_eq_some h)).elim (blocksA_guards b) (blocksB_guards b)

theorem putReg_guards (s : State) (m : Ident) (o : Nat) (v : Word) : Guards s (s.putReg m o v) := by
  unfold State.putReg
  split
  next b hb => exact (blockOf_guards hb).1 ..
  next => exact .refl s

theorem getReg_vault (s : State) (m : Ident) (o : Nat) : (s.getReg m o).2.vault = s.vault := by
  unfold State.getReg
  split
  next b hb => exact (blockOf_guards hb).2 ..
  next => rfl

theorem svcWord_vault (s : State) (o : Nat) : (s.svcWord o).2.vault = s.vault := by
  unfold State.svcWord
  split
  · exact getReg_vault s svcId o
  · split
    · rfl
    · have hrest : Kept s s.restAccess := kept_restAccess (.refl s)
      dsimp only
      exact hrest.vault

theorem svcWords_vault (s : State) (o n : Nat) : (s.svcWords o n).2.vault = s.vault := by
  induction n generalizing s o with
  | zero => rfl
  | succ n ih => exact (ih _ _).trans (svcWord_vault s o)

theorem svcSend_guards (s : State) (b : Nat) (w : List Word) : Guards s (s.svcSend b w) := by
  unfold State.svcSend
  extract_lets r u
  have hu : Guards s u := .foldl _ (fun x _ => putReg_guards x ..) _ s
  exact (hu.trans (putReg_guards u ..)).trans (.of_quiet (kept_answer (.refl _)))

/-! ## Every command -/

section
variable {t : Time} {s u : State} {f : State → State}

theorem guards_engineEvent (e : engineEvent t s f = .next u) (hf : ∀ x, Guards x (f x)) : Guards s u := by
  obtain rfl := next_inj e
  refine Guards.trans (.of_vault (vault_arrive s t)) ?_
  split
  · exact hf _
  · exact .refl _

theorem guards_liveEvent (e : liveEvent t s f = .next u) (hf : ∀ x, Guards x (f x)) : Guards s u := by
  obtain rfl := next_inj e
  refine Guards.trans (.of_vault (vault_arrive s t)) ?_
  split
  · exact .refl _
  · exact hf _

theorem guards_regWrite {o : Nat} (e : regWrite t o s f = .next u) (hf : ∀ x, Guards x (f x)) : Guards s u := by
  obtain rfl := next_inj e
  refine Guards.trans (.of_vault (vault_arrive s t)) ?_
  split
  · exact hf _
  · split
    · exact .of_kept (kept_restAccess (.refl _))
    · exact .refl _

theorem guards_regRead {o : Nat} {g : State → Word × State} (e : regRead t o s g = .next u) (hg : ∀ x, (g x).2.vault = x.vault) : Guards s u := by
  obtain rfl := next_inj e
  refine Guards.trans (.of_vault (vault_arrive s t)) (.of_vault ?_)
  split
  · exact (kept_reply (.refl _)).vault.trans (hg _)
  · split
    · rfl
    · split
      · exact (kept_reply (.refl _)).vault
      · exact (kept_reply (.refl _)).vault.trans (kept_restAccess (.refl _)).vault

theorem guards_svcFrame (e : svcFrame t s f = .next u) (hf : ∀ x, Guards x (f x)) : Guards s u :=
  guards_liveEvent e fun x => by
    split
    · refine Guards.trans (.of_vault ?_) (hf _)
      rfl
    · exact .refl x

theorem guards_svcWrite (e : svcWrite t s f = .next u) (hf : ∀ x, Guards x (f x)) : Guards s u :=
  guards_svcFrame e fun x => by
    split_ifs
    · exact .of_quiet (kept_answer (.refl x))
    · exact (Guards.of_kept (kept_restAccess (.refl x))).trans (.of_quiet (kept_answer (kept_draw (.refl _))))
    · exact hf x

end

/-- Every step keeps the order of the store and erases nothing of it, nor of the fuses. -/
theorem exec_guards {i : Instr} {s u : State} (e : exec i s = .next u) : Guards s u := by
  by_cases hi : 1 ≤ i.frame
  · exact (Guards.of_vault (vault_arrive s i.time)).trans (.of_kept ((exec_inFrame i s u e).1 hi))
  cases i with
  | commitFence | commitConduct | commitIdentity =>
    dsimp only [exec] at e
    exact guards_regWrite e fun x => lwsCmd_guards x ..
  | lwsStageWrite =>
    dsimp only [exec] at e
    exact guards_regWrite e fun x => .of_vault (lwsStage_vault x ..)
  | safeEnter | safeExit =>
    dsimp only [exec] at e
    exact guards_regWrite e fun x => fcSafe_guards x _
  | funcReset =>
    dsimp only [exec] at e
    exact guards_regWrite e fun x => funcReset_guards x _
  | bootHostGo =>
    dsimp only [exec] at e
    exact guards_regWrite e fun x => .of_vault (bootGo_vault x ..)
  | bootFuseCmd =>
    dsimp only [exec] at e
    exact guards_regWrite e fun x => fuseCmd_guards x ..
  | registerWrite =>
    dsimp only [exec] at e
    refine guards_regWrite e fun x => ?_
    split
    · exact putReg_guards ..
    · exact .refl x
  | tcmaData t m w =>
    cases w with
    | some v => exact guards_regWrite (f := fun x => x.tcmaWrite m v) e fun x => .of_vault (tcmaWrite_vault x ..)
    | none => exact guards_regRead (g := fun x => x.tcmaRead m) e fun x => tcmaRead_vault x ..
  | yazenFrameRx =>
    dsimp only [exec] at e
    exact guards_engineEvent e fun x => .of_kept (yazenRx_kept x)
  | faultEvent =>
    dsimp only [exec] at e
    exact guards_engineEvent e fun x => fcSample_guards x _
  | parityError =>
    dsimp only [exec] at e
    exact guards_engineEvent e fun x => (Guards.of_quiet (kept_modFc (.refl x))).trans (fcEvents_guards _ _)
  | serviceEnQualify =>
    dsimp only [exec] at e
    exact guards_liveEvent e fun x => .of_vault ((svcQual_vault _ _).trans (vault_foldl _ (fun y _ => svcEdge_vault y ..) _ x))
  | usbBusReset =>
    dsimp only [exec] at e
    exact guards_liveEvent e fun x => .of_vault (usbReset_vault x)
  | servicePortAttach =>
    dsimp only [exec] at e
    exact guards_liveEvent e fun x => .of_vault rfl
  | flr =>
    dsimp only [exec] at e
    exact guards_liveEvent e flr_guards
  | functionResetReady =>
    dsimp only [exec] at e
    exact guards_liveEvent e resetReady_guards
  | bootImageCheck =>
    dsimp only [exec] at e
    refine guards_liveEvent e fun x => ?_
    split
    · exact .refl x
    · exact .of_vault (bootImage_vault x ..)
  | fuseProgramComplete =>
    dsimp only [exec] at e
    exact guards_liveEvent e fun x => fuseEnd_guards x _
  | svcRead =>
    dsimp only [exec] at e
    refine guards_svcFrame e fun x => ?_
    split
    · exact .of_quiet (kept_answer (.refl x))
    · exact (Guards.of_vault (svcWords_vault x _ _)).trans (.of_quiet (kept_answer (.refl _)))
  | svcMbSend =>
    dsimp only [exec] at e
    exact guards_svcWrite e fun x => svcSend_guards x ..
  | svcMbAck =>
    dsimp only [exec] at e
    exact guards_svcWrite e fun x => .of_kept (kept_svcAck (.refl x))
  | svcStage =>
    dsimp only [exec] at e
    exact guards_svcWrite e fun x => svcStage_guards x ..
  | svcCommit =>
    dsimp only [exec] at e
    exact guards_svcWrite e fun x => svcCommit_guards x ..
  | svcFuse =>
    dsimp only [exec] at e
    exact guards_svcWrite e fun x => svcFuse_guards x _
  | svcCoreReset =>
    dsimp only [exec] at e
    exact guards_svcWrite e fun x => .of_quiet (kept_svcCore (.refl x))
  | commitComplete t ok =>
    obtain rfl := next_inj e
    exact (Guards.of_vault (vault_arrive s t)).trans (commitEnd_guards _ ok)
  | powerOnReset t =>
    obtain rfl := next_inj e
    exact (Guards.of_vault (vault_arrive s t)).trans (powerDown_guards _)
  | powerOnRelease t b =>
    obtain rfl := next_inj e
    refine Guards.trans (.of_vault (vault_arrive s t)) ?_
    split
    · exact powerOnRelease_guards _ b
    · exact .refl _
  | resetN t w =>
    obtain rfl := next_inj e
    exact (Guards.of_vault (vault_arrive s t)).trans (resetPin_guards _ w)
  | perstN t high =>
    obtain rfl := next_inj e
    exact (Guards.of_vault (vault_arrive s t)).trans (perst_guards _ high)
  | _ => exact absurd (Nat.le_add_left 1 _) hi

/-- Settles O56. -/
theorem everyStepKeepsTheInvariant : Obligations.EveryStepKeepsTheInvariant := by
  intro s u ⟨hwf, hstore⟩ e
  cases hp : s.pending with
  | nil =>
    rw [step_nil hp] at e
    obtain rfl := next_inj e
    exact ⟨hwf, hstore⟩
  | cons c r =>
    rw [step_cons hp] at e
    have hrest : ({ s with pending := r } : State).vault = s.vault := rfl
    exact ⟨(exec_held e).wf hwf, (exec_guards e).order (StoreOk.of_vault hrest hstore)⟩

/-- Settles O57. -/
theorem nothingIsErasedFromTheStore : Obligations.NothingIsErasedFromTheStore := by
  intro i s u ⟨_, hstore⟩ e
  have h := exec_guards e
  exact ⟨h.images hstore, h.ledger hstore, fun hb => ⟨h.busy hb, h.fuses hb⟩⟩

/-- Settles O55. -/
theorem resetMeetsTheInvariant : Obligations.ResetMeetsTheInvariant :=
  ⟨rfl, { commit := fun _ hk => (Option.some_ne_none _ hk.symm).elim, room := by decide, ledger := rfl, inForce := fun _ => rfl }⟩

end Sys2Proof.Machine
end


section
/-! PROOFS. A latching read returns its word and keeps its companions for the identity that reads (R13, R525). -/

namespace Sys2Proof.Machine

/-- Two companions share a place exactly where identity and offset agree: an offset lies below 2^22. -/
theorem latchPlace_eq_iff {m k : Ident} {o p : Nat} (ho : o < 2 ^ 22) (hp : p < 2 ^ 22) :
    latchSet k * 2 ^ 22 + p = latchSet m * 2 ^ 22 + o ↔ latchSet m = latchSet k ∧ o = p := by
  constructor
  · intro h
    constructor <;> omega
  · rintro ⟨h, rfl⟩
    rw [h]

theorem latched_latch_iff (s : State) {m k : Ident} {o p : Nat} (w : Word) (ho : o < 2 ^ 22) (hp : p < 2 ^ 22) :
    (s.latch m o w).latched k p = if latchSet m = latchSet k ∧ o = p then w else s.latched k p := by
  simp only [State.latched_latch, latchPlace_eq_iff ho hp]

/-- A companion's read gives what was latched and changes nothing, wherever its block says so. -/
theorem companion_reads_latched (s : State) (m : Ident) :
    s.getReg m 0x1014 = (s.latched m 0x1014, s) ∧ s.getReg m (memOfs + 4) = (s.latched m (memOfs + 4), s) ∧
      s.getReg m (fcOfs + 0x1C) = (s.latched m (fcOfs + 0x1C), s) ∧ s.getReg m (ptpOfs + 0x18) = (s.latched m (ptpOfs + 0x18), s) :=
  ⟨rfl, rfl, rfl, rfl⟩

/-- Settles O53: each latching read is its register's read where the space serves it, the companions' places are told apart by identity and
offset, and a companion's read is `latched`. -/
theorem latchingReadsTakeOneCycle : Obligations.LatchingReadsTakeOneCycle := by
  refine ⟨?_, fun s m k o p w ho hp => latched_latch_iff s w ho hp, companion_reads_latched⟩
  intro t m s a ha
  subst ha
  exact ⟨fun c => regRead_serves (g := fun s => s.readPosFt m c),
    fun k => regRead_serves (g := fun s => s.readCmpFt m k),
    regRead_serves (g := fun s => s.readStartT m),
    regRead_serves (g := fun s => s.readFrzT m),
    regRead_serves (g := fun s => s.readMoverBytes m),
    fun n => regRead_serves (g := fun s => s.readMvState m n),
    fun c => regRead_serves (g := fun s => s.readCtx m c),
    fun q => regRead_serves (g := fun s => s.readWqPi m q),
    fun q => regRead_serves (g := fun s => s.readEqRes m q),
    regRead_serves (g := fun s => s.readXlHit m),
    fun d => regRead_serves (g := fun s => s.readFqPi m d),
    fun u => regRead_serves (g := fun s => s.readOuEdge m u),
    regRead_serves (g := fun s => s.readPtpNow m),
    regRead_serves (g := fun s => s.readWake m),
    regRead_serves (g := fun s => s.readMtime m),
    fun e he => he ▸ regRead_serves (g := fun s => s.readFirst m),
    fun r e he => he ▸ regRead_serves (g := fun s => s.readTrail m r),
    regRead_serves (g := fun s => s.readSafeT m),
    regRead_serves (g := fun s => s.readDevtime m)⟩

end Sys2Proof.Machine
end


section
/-! PROOFS. Encoder groups: the filter of a pin, a step of the bound cells, an error of both levels, and a Z edge (02_counter_cells.md). -/

namespace Sys2Proof.Machine

/-! ## Operations on several cells -/

/-- Of the axes only cells have changed, and no time has passed. -/
structure AxesRest (s u : State) : Prop where
  start : u.axes.start = s.axes.start
  encs : u.axes.encs = s.axes.encs
  sers : u.axes.sers = s.axes.sers
  mains : u.axes.mains = s.axes.mains
  now : u.now = s.now

namespace AxesRest

variable {s u w : State}

theorem refl (s : State) : AxesRest s s := ⟨rfl, rfl, rfl, rfl, rfl⟩

theorem trans (h : AxesRest s u) (g : AxesRest u w) : AxesRest s w :=
  ⟨g.start.trans h.start, g.encs.trans h.encs, g.sers.trans h.sers, g.mains.trans h.mains, g.now.trans h.now⟩

theorem of_ran (h : Ran s u) : AxesRest s u :=
  ⟨by rw [h.axes], by rw [h.axes], by rw [h.axes], by rw [h.axes], h.now⟩

theorem setCell (h : AxesRest s u) (n : Nat) (c : Cell) : AxesRest s (u.setCell n c) := h.trans ⟨rfl, rfl, rfl, rfl, rfl⟩

theorem held (h : AxesRest s u) (n : Nat) : u.held n = s.held n := by simp [State.held, h.start]

theorem frozen (h : AxesRest s u) (n : Nat) : u.frozen n = s.frozen n := by simp [State.frozen, h.start]

theorem enc (h : AxesRest s u) (g : Nat) : u.enc g = s.enc g := by simp [State.enc, h.encs]

theorem ser (h : AxesRest s u) (i : Nat) : u.ser i = s.ser i := by simp [State.ser, h.sers]

theorem mainsIn (h : AxesRest s u) (i : Nat) : u.mainsIn i = s.mainsIn i := by simp [State.mainsIn, h.mains]

theorem cellChange (h : AxesRest s u) (n : Nat) (k : Change) : AxesRest s (u.cellChange n k) :=
  h.trans (.of_ran (kept_cellChange (.refl u)))

theorem putCell (h : AxesRest s u) (n : Nat) (c : Cell) : AxesRest s (u.putCell n c) := h.setCell n _

theorem loadCell (h : AxesRest s u) (n : Nat) (turn : BitVec 48) (phase : Word) : AxesRest s (u.loadCell n turn phase).2 := by
  unfold State.loadCell
  dsimp only
  split
  · exact h.setCell n _
  · exact (h.putCell n _).cellChange n _

theorem loseCell (h : AxesRest s u) (n : Nat) : AxesRest s (u.loseCell n) := by
  unfold State.loseCell
  exact (h.putCell n _).cellChange n _

end AxesRest

/-- An operation on each cell of a list that reaches that cell alone: what it does to a cell it does once, and the others stand. -/
theorem foldCells {op : State → Nat → State} {R : Nat → Cell → Cell → Prop} {s : State}
    (hop : ∀ u n, AxesRest s u → AxesRest s (op u n) ∧ (∀ j, j ≠ n → (op u n).cell j = u.cell j) ∧ R n (u.cell n) ((op u n).cell n))
    (l : List Nat) (hnd : l.Nodup) (u : State) (hu : AxesRest s u) :
    AxesRest s (l.foldl op u) ∧ (∀ j ∈ l, R j (u.cell j) ((l.foldl op u).cell j)) ∧ (∀ j, j ∉ l → (l.foldl op u).cell j = u.cell j) := by
  induction l generalizing u with
  | nil => exact ⟨hu, by simp, fun _ _ => rfl⟩
  | cons m r ih =>
    obtain ⟨hm, hr⟩ := List.nodup_cons.1 hnd
    obtain ⟨hax, hoth, heff⟩ := hop u m hu
    obtain ⟨iax, iin, iout⟩ := ih hr (op u m) hax
    refine ⟨iax, fun j hj => ?_, fun j hj => ?_⟩
    · rcases List.mem_cons.1 hj with rfl | hj
      · rw [List.foldl_cons, iout j hm]
        exact heff
      · have hjm : j ≠ m := fun e => hm (e ▸ hj)
        have := iin j hj
        rwa [hoth j hjm] at this
    · rw [List.mem_cons, not_or] at hj
      rw [List.foldl_cons, iout j hj.2, hoth j hj.1]

/-! ## The filter of a pin (R33) -/

/-- A filter that a raw level differs from accepts at the sample that makes F in a row, where one has been taken by then. -/
theorem Filt.sample_of_raw_ne {f : Filt} {d n : Nat} {level : Bool} {last : Nat} (hr : f.raw ≠ level) (hk : last / d - f.at_ / d ≠ 0) :
    (f.sample d n level last).2 = if last / d - f.at_ / d < max 1 (n - f.run) then none
      else some ((f.at_ / d + max 1 (n - f.run)) * d, if f.run = 0 then f.rawT else f.stamp) := by
  unfold Filt.sample
  dsimp only
  rw [if_neg hk, if_neg hr]
  split
  · rfl
  · by_cases h0 : f.run = 0 <;> simp [h0]

theorem Filt.sample_of_raw_eq {f : Filt} {d n : Nat} {level : Bool} {last : Nat} (h : f.raw = level ∨ last / d - f.at_ / d = 0) :
    (f.sample d n level last).2 = none := by
  unfold Filt.sample
  dsimp only
  split
  · rfl
  · next hk => rw [if_pos (h.resolve_right hk)]

theorem Filt.sample_isSome (f : Filt) (d n : Nat) (level : Bool) (last : Nat) :
    (f.sample d n level last).2.isSome = true ↔ f.raw ≠ level ∧ max 1 (n - f.run) ≤ last / d - f.at_ / d := by
  by_cases h : f.raw = level ∨ last / d - f.at_ / d = 0
  · rw [Filt.sample_of_raw_eq h]
    simp only [Option.isSome_none, Bool.false_eq_true, false_iff, not_and]
    intro hr
    have := h.resolve_left hr
    omega
  · rw [not_or] at h
    rw [Filt.sample_of_raw_ne h.1 h.2]
    split
    · simp; omega
    · simp [h.1]; omega

theorem Filt.sample_some {f : Filt} {d n : Nat} {level : Bool} {last : Nat} {p : Nat × Time} (h : (f.sample d n level last).2 = some p) :
    p.1 = (f.at_ / d + max 1 (n - f.run)) * d ∧ p.2 = if f.run = 0 then f.rawT else f.stamp := by
  obtain ⟨hr, hn⟩ := (Filt.sample_isSome f d n level last).1 (by simp [h])
  rw [Filt.sample_of_raw_ne hr (by omega), if_neg (by omega)] at h
  simp [← Option.some.inj h]

theorem Filt.sample_run_of_level {f : Filt} {d n : Nat} {level : Bool} {last : Nat} (hr : f.raw = level) (hk : f.at_ / d < last / d) :
    (f.sample d n level last).1.run = 0 := by
  have hk : last / d - f.at_ / d ≠ 0 := by omega
  simp [Filt.sample, hk, hr]

/-! ## A step and an error of the group (R34 to R38) -/

/-- A source's step reaches its running cells; no other cell changes but those of a cascade. -/
theorem sourceSteps_moves (s : State) (m i : Nat) (k : Int) (st : Time) (hm : m ≠ 5) (hk : k ≠ 0) {n : Nat} {c : Cell} (hc : s.cell n = c)
    (hn : n < 64) (hmode : c.mode = m) (hsrc : c.src = i) (hrun : s.running n = true) :
    Moves c ((s.sourceSteps (s.bound m i) k st).cell n) (c.turned k) (c.modFor s.now) st := by
  subst hc
  rw [sourceSteps_at s _ k st n hk (by rw [hmode]; exact hm) (bound_nodup s m i) (mem_bound.2 ⟨hn, hmode, hsrc⟩) hrun]
  exact stepped_moves _ _ _ _ _

theorem sourceSteps_unbound (s : State) (m i : Nat) (k : Int) (st : Time) (hk : k ≠ 0) {n : Nat} (hm : (s.cell n).mode ≠ 5)
    (hn : ¬(n < 64 ∧ (s.cell n).mode = m ∧ (s.cell n).src = i)) : (s.sourceSteps (s.bound m i) k st).cell n = s.cell n :=
  sourceSteps_frame s _ k st n hk hm (bound_nodup s m i) (fun h => hn (mem_bound.1 h))

/-- The count that a change of the two levels means to the group. -/
def EncGroup.count (e : EncGroup) (a b : Bool) : Int :=
  if bit e.ctrl 2 then decodeAB (fld e.ctrl 0 2) e.b e.a b a else decodeAB (fld e.ctrl 0 2) e.a e.b a b

theorem encLevels_single {s : State} (hr : s.resting = false) (g : Nat) (a b : Bool) (st : Time) (h : ¬((s.enc g).a ≠ a ∧ (s.enc g).b ≠ b)) :
    s.encLevels g a b st =
      if (s.enc g).count a b = 0 then s.setEnc g { s.enc g with a := a, b := b }
      else (s.setEnc g { s.enc g with a := a, b := b }).sourceSteps ((s.setEnc g { s.enc g with a := a, b := b }).bound 1 g)
        ((s.enc g).count a b) st := by
  unfold State.encLevels EncGroup.count
  dsimp only
  rw [if_neg (by simpa using h)]
  simp only [State.setEnc_resting, hr, Bool.false_eq_true, if_false]

theorem encLevels_both {s : State} (hr : s.resting = false) (g : Nat) (a b : Bool) (st : Time) (ha : (s.enc g).a ≠ a) (hb : (s.enc g).b ≠ b) :
    s.encLevels g a b st =
      (((((s.setEnc g { s.enc g with a := a, b := b }).bound 1 g).foldl
        (fun s n => s.modCell n fun c => { c with quad := satInc c.quad, flags := c.flags ||| 0x200 })
        (s.setEnc g { s.enc g with a := a, b := b })).setEnc g { s.enc g with a := a, b := b, quadErr := true }).report g) := by
  unfold State.encLevels State.quadError
  dsimp only
  rw [if_pos (by simp [ha, hb])]
  simp [hr]

/-- While the engine runs, both filters of a group sample at their own rate, and their acceptances are decoded in order. -/
theorem encFeed_awake {s : State} (hr : s.resting = false) {g : Nat} {l r : List (Time × Bool)} {fa fb : Filt} {la lb : List Accept}
    (ha : Filt.feed (s.enc g).sdiv (s.enc g).filtN s.now l (s.enc g).a (s.enc g).fa = (fa, la))
    (hb : Filt.feed (s.enc g).sdiv (s.enc g).filtN s.now r (s.enc g).b (s.enc g).fb = (fb, lb)) :
    s.encFeed g l r = (pairUp (la.length + lb.length) la lb).foldl (fun s p =>
      s.encLevels g (p.1.elim (s.enc g).a Accept.level) (p.2.elim (s.enc g).b Accept.level) ((p.1 <|> p.2).elim s.now Accept.stamp))
      (s.setEnc g { s.enc g with fa := fa, fb := fb }) := by
  unfold State.encFeed
  simp only [State.sampling, State.sampDiv, hr, Bool.not_false, Bool.true_or, Bool.not_true, Bool.false_eq_true, if_false, Nat.mul_one, ha, hb]

theorem encFeed_none {s : State} (hr : s.resting = false) {g : Nat} {l r : List (Time × Bool)} {fa fb : Filt}
    (ha : Filt.feed (s.enc g).sdiv (s.enc g).filtN s.now l (s.enc g).a (s.enc g).fa = (fa, []))
    (hb : Filt.feed (s.enc g).sdiv (s.enc g).filtN s.now r (s.enc g).b (s.enc g).fb = (fb, [])) :
    s.encFeed g l r = s.setEnc g { s.enc g with fa := fa, fb := fb } := by
  rw [encFeed_awake hr ha hb]
  rfl

/-- One acceptance alone: the other pin's level stands. -/
theorem encFeed_one {s : State} (hr : s.resting = false) {g : Nat} {l r : List (Time × Bool)} {fa fb : Filt} {la lb : List Accept} {x : Accept}
    (ha : Filt.feed (s.enc g).sdiv (s.enc g).filtN s.now l (s.enc g).a (s.enc g).fa = (fa, la))
    (hb : Filt.feed (s.enc g).sdiv (s.enc g).filtN s.now r (s.enc g).b (s.enc g).fb = (fb, lb)) (hx : la ++ lb = [x]) :
    s.encFeed g l r = (s.setEnc g { s.enc g with fa := fa, fb := fb }).encLevels g (if la = [] then (s.enc g).a else x.level)
      (if lb = [] then (s.enc g).b else x.level) x.stamp := by
  rw [encFeed_awake hr ha hb]
  rcases List.append_eq_singleton_iff.1 hx with ⟨rfl, rfl⟩ | ⟨rfl, rfl⟩ <;> simp [pairUp]

theorem encFeed_pair {s : State} (hr : s.resting = false) {g : Nat} {l r : List (Time × Bool)} {fa fb : Filt} {x y : Accept}
    (ha : Filt.feed (s.enc g).sdiv (s.enc g).filtN s.now l (s.enc g).a (s.enc g).fa = (fa, [x]))
    (hb : Filt.feed (s.enc g).sdiv (s.enc g).filtN s.now r (s.enc g).b (s.enc g).fb = (fb, [y])) (hxy : x.at_ = y.at_) :
    s.encFeed g l r = (s.setEnc g { s.enc g with fa := fa, fb := fb }).encLevels g x.level y.level x.stamp := by
  rw [encFeed_awake hr ha hb]
  simp [pairUp, hxy]

/-! ## A Z edge (R39, R61) -/

/-- What a load of phase `p` leaves of cell `c`: a rejection where the phase is not below the modulus, else the phase alone, the turn, history
and state of the estimator standing. -/
structure PhaseLoad (p : Word) (c d : Cell) : Prop where
  taken : p.toNat < c.modN → d.phase = p ∧ d.frac = 0 ∧ d.turn = c.turn ∧ d.hist = c.hist ∧ d.est = c.est
  rejected : c.modN ≤ p.toNat → d = { c with flags := c.flags ||| 0x8000 }

theorem Cell.restart_hist (c : Cell) (base : Time) (r : Bool) : (c.restart base r).hist = c.hist ∧ (c.restart base r).est = c.est := by
  unfold Cell.restart
  split
  · exact ⟨rfl, rfl⟩
  · split
    · split <;> exact ⟨rfl, rfl⟩
    · exact ⟨rfl, rfl⟩

theorem loadCell_phaseLoad (s : State) (n : Nat) (p : Word) : PhaseLoad p (s.cell n) ((s.loadCell n (s.cell n).turn p).2.cell n) := by
  constructor
  · intro h
    rw [loadCell_cell, if_neg (by simp), if_neg (by omega)]
    exact ⟨rfl, rfl, rfl, Cell.restart_hist _ _ _⟩
  · intro h
    rw [loadCell_cell, if_neg (by simp), if_pos h]

theorem loadCell_frame (s : State) (n : Nat) (turn : BitVec 48) (p : Word) (j : Nat) (h : j ≠ n) :
    (s.loadCell n turn p).2.cell j = s.cell j := by
  rw [loadCell_cell, if_pos h]

/-- A load of one phase into several cells. -/
theorem loadPhases (p : Word) (l : List Nat) (hnd : l.Nodup) (s : State) :
    AxesRest s (l.foldl (fun s n => (s.loadCell n (s.cell n).turn p).2) s) ∧
      (∀ j ∈ l, PhaseLoad p (s.cell j) ((l.foldl (fun s n => (s.loadCell n (s.cell n).turn p).2) s).cell j)) ∧
      (∀ j, j ∉ l → (l.foldl (fun s n => (s.loadCell n (s.cell n).turn p).2) s).cell j = s.cell j) :=
  foldCells (R := fun _ => PhaseLoad p)
    (fun u n h => ⟨h.loadCell n _ p, fun j hj => loadCell_frame u n _ p j hj, loadCell_phaseLoad u n p⟩) l hnd s (.refl s)

/-- R39: the accepted Z edge that loads. -/
def EncGroup.zActs (e : EncGroup) (z : Bool) : Bool :=
  !e.z && z && bit e.ctrl 3 && (fld e.ctrl 4 2 == 2 || (fld e.ctrl 4 2 == 1 && !e.zSeen))

/-- The group once it has seen the Z level `z`. -/
def EncGroup.zTaken (e : EncGroup) (z : Bool) : EncGroup := { e with z := z, zSeen := e.zSeen || (!e.z && z) }

theorem zLevel_eq (s : State) (g : Nat) (z : Bool) :
    s.zLevel g z = if (s.enc g).zActs z then
        (s.bound 1 g).foldl
          (fun u n => (u.loadCell n (u.cell n).turn (s.enc g).zphase).2)
          (s.setEnc g ((s.enc g).zTaken z))
      else s.setEnc g ((s.enc g).zTaken z) := by
  rfl

theorem zLevel_axes (s : State) (g : Nat) (z : Bool) :
    AxesRest (s.setEnc g ((s.enc g).zTaken z)) (s.zLevel g z) := by
  rw [zLevel_eq]
  split
  · exact (loadPhases _ _ (bound_nodup _ _ _) _).1
  · exact .refl _

theorem zLevel_loads {s : State} {g : Nat} {z : Bool} (h : (s.enc g).zActs z = true) {n : Nat} (hn : n < 64) (hm : (s.cell n).mode = 1)
    (hs : (s.cell n).src = g) : PhaseLoad (s.enc g).zphase (s.cell n) ((s.zLevel g z).cell n) := by
  rw [zLevel_eq, if_pos h]
  exact (loadPhases _ _ (bound_nodup _ _ _) (s.setEnc g ((s.enc g).zTaken z))).2.1 n (mem_bound.2 ⟨hn, hm, hs⟩)

theorem zLevel_frame {s : State} {g : Nat} {z : Bool} {n : Nat}
    (h : ¬((s.enc g).zActs z = true ∧ n < 64 ∧ (s.cell n).mode = 1 ∧ (s.cell n).src = g)) : (s.zLevel g z).cell n = s.cell n := by
  rw [zLevel_eq]
  split
  · next ha => exact (loadPhases _ _ (bound_nodup _ _ _) _).2.2 n (fun hb => h ⟨ha, mem_bound.1 hb⟩)
  · rfl

theorem zFeed_eq {s : State} {g : Nat} {l : List (Time × Bool)} {f : Filt} {acc : List Accept}
    (h : Filt.feed (s.enc g).sdiv (s.enc g).filtN s.now l (s.enc g).z (s.enc g).fz = (f, acc)) :
    s.zFeed g l = acc.foldl (fun s a => s.zLevel g a.level) (s.setEnc g { s.enc g with fz := f }) := by
  simp only [State.zFeed, h]

/-! ## The commands -/

theorem exec_incrementalStep_up {t : Time} {g : Fin 16} {al bl : List Time} {x0 : Bool × Bool} {s : State} (h : s.up = true) :
    exec (.incrementalStep t g al bl x0) s = .next ((s.arrive t).encFeed g (edges x0.1 al) (edges x0.2 bl)) :=
  liveEvent_live (f := fun s => s.encFeed g (edges x0.1 al) (edges x0.2 bl)) (live_of_up h)

theorem exec_zLoad_up {t : Time} {g : Fin 16} {l : List (Time × Bool)} {s : State} (h : s.up = true) :
    exec (.zLoad t g l) s = .next ((s.arrive t).zFeed g l) :=
  engineEvent_up (f := fun s => s.zFeed g l) h

/-- One level accepted: a step of the group's running cells. -/
theorem incrementalStep_one {t : Time} {g : Fin 16} {l r : List (Time × Bool)} {s : State} {fa fb : Filt} {la lb : List Accept} {x : Accept}
    {a b : Bool} {k : Int} (hup : s.up = true)
    (ha : Filt.feed (s.enc g).sdiv (s.enc g).filtN (max s.now t) l (s.enc g).a (s.enc g).fa = (fa, la))
    (hb : Filt.feed (s.enc g).sdiv (s.enc g).filtN (max s.now t) r (s.enc g).b (s.enc g).fb = (fb, lb)) (hx : la ++ lb = [x])
    (hla : a = if la = [] then (s.enc g).a else x.level) (hlb : b = if lb = [] then (s.enc g).b else x.level)
    (hk : k = (s.enc g).count a b) :
    ∃ u, (s.arrive t).encFeed g l r = u ∧ u.enc g = { s.enc g with fa := fa, fb := fb, a := a, b := b } ∧
      (∀ n < 64, (s.cell n).mode = 1 → (s.cell n).src = g → k ≠ 0 → s.running n = true →
        Moves (s.cell n) (u.cell n) (if (s.cell n).dirInv then -k else k) ((s.cell n).modFor (max s.now t)) x.stamp) ∧
      (∀ n, (s.cell n).mode ≠ 5 → ¬(n < 64 ∧ (s.cell n).mode = 1 ∧ (s.cell n).src = g ∧ k ≠ 0) → u.cell n = s.cell n) ∧
      Kept (s.arrive t) u := by
  refine ⟨_, rfl, ?_, ?_, ?_, kept_encFeed (.refl _)⟩
  all_goals
    rw [encFeed_one (s := s.arrive t) (awake_of_up hup) ha hb hx]
    simp only [State.arrive_enc, ← hla, ← hlb]
    have hne : ¬((s.enc g).a ≠ a ∧ (s.enc g).b ≠ b) := by
      rcases List.append_eq_singleton_iff.1 hx with ⟨rfl, -⟩ | ⟨-, rfl⟩
      · simp [hla]
      · simp [hlb]
    rw [encLevels_single (by simpa using awake_of_up hup) _ _ _ _ (by simpa using hne)]
    have hc : (((s.arrive t).setEnc g { s.enc g with fa := fa, fb := fb }).enc g).count a b = k := by rw [hk]; simp [EncGroup.count]
    rw [hc]
  · split
    · simp
    · rw [State.enc, (sourceSteps_inputs _ _ _ _).1, ← State.enc]
      simp
  · intro n hn hm hs hk0 hrun
    rw [if_neg hk0]
    exact sourceSteps_moves _ 1 g k x.stamp (by decide) hk0 rfl hn hm hs hrun
  · intro n hm hn
    split
    · rfl
    · next hk0 =>
      refine sourceSteps_unbound _ 1 g k x.stamp hk0 ?_ ?_
      exacts [hm, fun h => hn ⟨h.1, h.2.1, h.2.2, hk0⟩]

/-- Both levels accepted at one sample: an error of every bound cell, and no step. -/
theorem incrementalStep_pair {t : Time} {g : Fin 16} {l r : List (Time × Bool)} {s : State} {fa fb : Filt} {x y : Accept} (hup : s.up = true)
    (ha : Filt.feed (s.enc g).sdiv (s.enc g).filtN (max s.now t) l (s.enc g).a (s.enc g).fa = (fa, [x]))
    (hb : Filt.feed (s.enc g).sdiv (s.enc g).filtN (max s.now t) r (s.enc g).b (s.enc g).fb = (fb, [y])) (hxy : x.at_ = y.at_)
    (hnx : (s.enc g).a ≠ x.level) (hny : (s.enc g).b ≠ y.level) :
    ∃ u, (s.arrive t).encFeed g l r = u ∧
      u.enc g = { s.enc g with fa := fa, fb := fb, a := x.level, b := y.level, quadErr := true } ∧
      (∀ n, u.cell n = if n < 64 ∧ (s.cell n).mode = 1 ∧ (s.cell n).src = g then
        { s.cell n with quad := satInc (s.cell n).quad, flags := (s.cell n).flags ||| 0x200 } else s.cell n) ∧
      u.fc = { s.fc with raised := s.fc.raised ||| BitVec.ofNat 256 (1 <<< g.val) } ∧
      u = { s with now := max s.now t, axes := u.axes, fc := u.fc } := by
  refine ⟨_, rfl, ?_⟩
  rw [encFeed_pair (s := s.arrive t) (awake_of_up hup) ha hb hxy]
  rw [encLevels_both (by simpa using awake_of_up hup) _ _ _ _ (by simpa using hnx) (by simpa using hny), modCells_rest]
  refine ⟨by simp, fun n => ?_, rfl, rfl⟩
  simp only [State.report_cell, State.setEnc_cell]
  rw [← modCells_rest, modCells_cell _ _ _ _ (bound_nodup _ _ _)]
  simp only [mem_bound, State.setEnc_cell, State.arrive_cell]

/-- One Z level accepted: the group has seen it, and where the edge acts its cells are loaded. -/
theorem zFeed_one {s : State} {g : Nat} {l : List (Time × Bool)} {f : Filt} {x : Accept}
    (h : Filt.feed (s.enc g).sdiv (s.enc g).filtN s.now l (s.enc g).z (s.enc g).fz = (f, [x])) :
    (s.zFeed g l).enc g = { (s.enc g).zTaken x.level with fz := f } ∧
      (∀ n, (s.enc g).zActs x.level = true → n < 64 → (s.cell n).mode = 1 → (s.cell n).src = g →
        PhaseLoad (s.enc g).zphase (s.cell n) ((s.zFeed g l).cell n)) ∧
      (∀ n, ¬((s.enc g).zActs x.level = true ∧ n < 64 ∧ (s.cell n).mode = 1 ∧ (s.cell n).src = g) → (s.zFeed g l).cell n = s.cell n) := by
  rw [zFeed_eq h, List.foldl_cons, List.foldl_nil]
  generalize hw : s.setEnc g { s.enc g with fz := f } = w
  have he : w.enc g = { s.enc g with fz := f } := by simp [← hw]
  have hc : ∀ n, w.cell n = s.cell n := fun n => by simp [← hw]
  have ha : (w.enc g).zActs x.level = (s.enc g).zActs x.level := by rw [he]; rfl
  have hp : (w.enc g).zphase = (s.enc g).zphase := by rw [he]
  simp only [← hc, ← ha, ← hp]
  refine ⟨?_, fun n ha hn hm hs => zLevel_loads ha hn hm hs, fun n h => zLevel_frame h⟩
  rw [(zLevel_axes _ _ _).enc, State.setEnc_enc, he]
  simp [EncGroup.zTaken]

/-- In ×4 decoding a change of one level is a step: forward where it makes the levels differ from equal by A, or equal by B. -/
theorem decodeAB_four (pa pb a b : Bool) (h : (pa = a) ≠ (pb = b)) :
    decodeAB 0 pa pb a b = if (pa = pb) ↔ pa ≠ a then 1 else -1 := by
  cases pa <;> cases pb <;> cases a <;> cases b <;> simp at h <;> rfl

/-- Settles O1: the filter by its sample, a group by what its filters accept, and a Z edge by its loads. -/
theorem encoderEdgesStepAndLoadBoundCells : Obligations.EncoderEdgesStepAndLoadBoundCells := by
  refine ⟨⟨fun f d n level last => ⟨Filt.sample_isSome f d n level last, fun p h => Filt.sample_some h, Filt.sample_run_of_level⟩, ?_,
    decodeAB_four⟩, ?_⟩
  · rintro t g al bl x0 l r s e fa fb la lb rfl rfl hup rfl ha hb
    rw [exec_incrementalStep_up hup]
    refine ⟨?_, ?_, ?_⟩
    · rintro rfl rfl
      rw [encFeed_none (s := s.arrive t) (awake_of_up hup) ha hb]
      rfl
    · intro x a b k hx hla hlb hk
      obtain ⟨u, hu, hrest⟩ := incrementalStep_one hup ha hb hx hla hlb hk
      exact ⟨u, by rw [hu], hrest⟩
    · rintro x y rfl rfl hxy hnx hny
      obtain ⟨u, hu, hrest⟩ := incrementalStep_pair hup ha hb hxy hnx hny
      exact ⟨u, by rw [hu], hrest⟩
  · rintro t g l s e f acc hup rfl hf
    rw [exec_zLoad_up hup]
    refine ⟨?_, ?_⟩
    · rintro rfl
      rw [zFeed_eq (s := s.arrive t) hf]
      rfl
    · rintro x acts rfl hacts
      obtain ⟨henc, hload, hrest⟩ := zFeed_one (s := s.arrive t) hf
      rw [show acts = (s.enc g).zActs x.level from hacts]
      exact ⟨_, rfl, henc, fun n ha hn hm hs => (hload n ha hn hm hs).taken, fun n ha hn hm hs => (hload n ha hn hm hs).rejected, hrest,
        kept_zFeed (.refl _)⟩

end Sys2Proof.Machine
end


section
/-! PROOFS. Cells that step by themselves, and serial frames (02_counter_cells.md). -/

namespace Sys2Proof.Machine

/-! ## A cell's own step (R47, R49, R51, R54) -/

/-- A running cell's own step moves it, and reaches above it only a cascade. -/
theorem selfStep_moves (s : State) (n : Nat) (k : Int) (st : Time) {c : Cell} (hc : s.cell n = c) (hrun : s.running n = true) (hk : k ≠ 0) :
    Moves c ((s.selfStep n k st).cell n) k (c.modFor s.now) st := by
  subst hc
  rw [selfStep_at s n k st hrun hk]
  exact stepped_moves _ _ _ _ _

theorem selfStep_only {s w : State} {n : Nat} (k : Int) (st : Time) (hw : ∀ j, j ≠ n → w.cell j = s.cell j) : OnlyCell n s (w.selfStep n k st) := by
  intro j hj hm
  rw [selfStep_frame w n k st j hj (by rwa [hw j hj]), hw j hj]

/-- A phase step between samples counts, and is no sample. -/
theorem stepped_between_samples (c : Cell) (k : Int) (st now : Time) (hm : c.mode = 3 ∨ c.mode = 7) :
    (c.stepped k st now none).1.odo = c.odo + k ∧ (c.stepped k st now none).1.lastT = c.lastT ∧
      (c.stepped k st now none).1.hist = c.hist := by
  simp [Cell.stepped, Cell.remember, hm]

theorem selfStep_between_samples {s : State} {n : Nat} {k : Int} (st : Time) {c : Cell} (hc : s.cell n = c) (hm : c.mode = 3 ∨ c.mode = 7)
    (hrun : s.running n = true) (hk : k ≠ 0) :
    ((s.selfStep n k st).cell n).odo = c.odo + k ∧ ((s.selfStep n k st).cell n).lastT = c.lastT ∧
      ((s.selfStep n k st).cell n).hist = c.hist := by
  subst hc
  rw [selfStep_at s n k st hrun hk]
  exact stepped_between_samples _ _ _ _ hm

theorem timeStep_steps {t : Time} {c : Fin 64} {s : State} {x : Cell} {d : Nat} (hup : s.up = true) (hx : x = s.cell c) (hm : x.mode = 4)
    (hrun : s.running c = true) (hd : d = x.origin + 8 * zero32 x.divAct) (hle : d ≤ max s.now t) :
    exec (.timeStep t c) s = .next (((s.arrive t).setCell c { x with origin := d, divAct := x.div }).selfStep c 1 d) := by
  subst hx hd
  change execTimeStep t c s = _
  have hrun' : (s.arrive t).running c = true := hrun
  rw [execTimeStep, engineEvent_up hup]
  dsimp only [State.arrive_cell, State.arrive_now]
  simp [hm, hrun', Nat.not_lt.2 hle]

theorem syntheticStep_steps {t : Time} {c : Fin 64} {s : State} {x : Cell} {k d : Nat} (hup : s.up = true) (hx : x = s.cell c) (hm : x.mode = 6)
    (hrun : s.running c = true) (hk : x.synCycles = some k) (hd : d = x.origin + 8 * k) (hle : d ≤ max s.now t) :
    exec (.syntheticStep t c) s =
      .next (((s.arrive t).setCell c (x.synSettle d)).selfStep c (if 0 < x.rateHeld then 1 else -1) d) := by
  subst hx hd
  change execSyntheticStep t c s = _
  have hrun' : (s.arrive t).running c = true := hrun
  rw [execSyntheticStep, engineEvent_up hup]
  dsimp only [State.arrive_cell, State.arrive_now]
  simp only [hm, hrun', hk, Nat.not_lt.2 hle, ne_eq, not_true_eq_false, decide_false, Bool.not_true, Bool.or_self, Bool.false_eq_true, if_false]

theorem mainsPhaseStep_steps {t : Time} {c : Fin 64} {s : State} {x : Cell} {p k : Int} (hup : s.up = true) (hx : x = s.cell c) (hm : x.mode = 3)
    (hrun : s.running c = true) (hp : x.modelCount (max s.now t) = some p)
    (hk : k = (if x.dirInv then max (p - x.odo) x.lapRoom else min (p - x.odo) x.lapRoom)) (hdir : if x.dirInv then k < 0 else 0 < k) :
    exec (.mainsPhaseStep t c) s = .next ((s.arrive t).selfStep c k (max s.now t)) := by
  subst hx
  change execMainsPhaseStep t c s = _
  have hrun' : (s.arrive t).running c = true := hrun
  rw [execMainsPhaseStep, engineEvent_up hup]
  dsimp only [State.arrive_cell, State.arrive_now]
  simp only [hm, hrun', hp, ← hk, ne_eq, not_true_eq_false, decide_false, Bool.not_true, Bool.or_self,
    Bool.false_eq_true, if_false]
  rw [if_pos]
  by_cases hd : (s.cell c).dirInv = true <;> simpa [hd] using hdir

theorem mirrorPhaseStep_steps {t : Time} {c : Fin 64} {s : State} {x : Cell} {y : Model} {k : Int} (hup : s.up = true) (hx : x = s.cell c)
    (hm : x.mode = 7) (hrun : s.running c = true) (hy : x.model = some y) (hk : k = y.pos (max s.now t) / oneCount - x.odo)
    (hdir : x.dir = 0 ∧ 0 < k ∨ x.dir = 1 ∧ k < 0) :
    exec (.mirrorPhaseStep t c) s = .next ((s.arrive t).selfStep c k (max s.now t)) := by
  subst hx
  change execMirrorPhaseStep t c s = _
  have hrun' : (s.arrive t).running c = true := hrun
  rw [execMirrorPhaseStep, engineEvent_up hup]
  dsimp only [State.arrive_cell, State.arrive_now]
  simp only [hm, hrun', hy, ← hk, ne_eq, not_true_eq_false, decide_false, Bool.not_true, Bool.or_self,
    Bool.false_eq_true, if_false]
  rw [if_pos (by simpa using hdir)]

theorem lapRoom_inside (c : Cell) (h : c.phase.toNat < c.modN) :
    c.lapRoom = if c.dirInv then (if c.phase = 0 then 1 - (c.modN : Int) else 1 - c.phase.toNat) else (c.modN : Int) - 1 - c.phase.toNat := by
  have h0 : c.phase = 0 ↔ (c.phase.toNat : Int) = 0 := by
    rw [← BitVec.toNat_inj]
    simp
  unfold Cell.lapRoom Cell.lapRest
  rw [if_neg (by omega)]
  dsimp only
  rw [if_neg (by omega)]
  simp only [h0]
  split
  · split <;> omega
  · omega

theorem selfStep_kept (s : State) (n : Nat) (k : Int) (st : Time) (t : Time) (c : Cell) :
    Kept (s.arrive t) (((s.arrive t).setCell n c).selfStep n k st) :=
  kept_selfStep (kept_setCell (.refl _))

/-- A step at its due instant of a cell that counts for itself, TIME or SYNTHETIC. -/
theorem dueStep_moves {s : State} {t : Time} {n : Nat} {x : Cell} (k : Int) (d : Time) (hrun : s.running n = true) (hen : x.en = (s.cell n).en)
    (hk : k ≠ 0) :
    Moves x ((((s.arrive t).setCell n x).selfStep n k d).cell n) k (x.modFor (max s.now t)) d ∧
      OnlyCell n s (((s.arrive t).setCell n x).selfStep n k d) ∧ Kept (s.arrive t) (((s.arrive t).setCell n x).selfStep n k d) := by
  refine ⟨selfStep_moves _ n k d (by simp) ?_ hk, selfStep_only k d fun j hj => by simp [hj], selfStep_kept s n k d t x⟩
  have : ((s.arrive t).setCell n x).running n = s.running n := by simp [State.running, hen]; rfl
  rw [this, hrun]

/-- A phase step between samples, of a MAINS or MIRROR cell. -/
theorem phaseStep_moves {s : State} {t : Time} {n : Nat} {k : Int} (hm : (s.cell n).mode = 3 ∨ (s.cell n).mode = 7) (hrun : s.running n = true)
    (hk : k ≠ 0) :
    ∃ u, (s.arrive t).selfStep n k (max s.now t) = u ∧
      Moves (s.cell n) (u.cell n) k ((s.cell n).modFor (max s.now t)) (max s.now t) ∧ (u.cell n).odo = (s.cell n).odo + k ∧
      (u.cell n).lastT = (s.cell n).lastT ∧ (u.cell n).hist = (s.cell n).hist ∧ OnlyCell n s u ∧ Kept (s.arrive t) u := by
  obtain ⟨hodo, hlast, hhist⟩ := selfStep_between_samples (s := s.arrive t) (max s.now t) rfl hm hrun hk
  exact ⟨_, rfl, selfStep_moves (s.arrive t) n k _ rfl hrun hk, hodo, hlast, hhist, selfStep_only k _ fun _ _ => rfl, kept_selfStep (.refl _)⟩

/-! ## A frame starts (R41) -/

theorem exec_serialFrameStart_up {t : Time} {i : Fin 8} {s : State} {x y : SerIf} (hup : s.up = true) (hx : x = s.ser i) (hr : x.run = true)
    (hy : y = { x with due := x.due + ns (fld x.cycle 0 20) }) :
    exec (.serialFrameStart t i) s = .next (if max s.now t < x.due then s.arrive t else (s.arrive t).setSer i
      (if x.frame.isSome || decide (x.due < x.recover) then { y with flags := x.flags ||| 0x20 } else { y with frame := some x.due })) := by
  subst hx hy
  change execSerialFrameStart t i s = _
  rw [execSerialFrameStart, engineEvent_up hup]
  have hser : (s.arrive t).ser i = s.ser i := rfl
  have hnow : (s.arrive t).now = max s.now t := rfl
  generalize s.arrive t = a at *
  simp only [hser, hnow, hr, Bool.not_true, Bool.false_or, decide_eq_true_eq, apply_ite (a.setSer i)]

/-! ## A frame ends (R40 to R45) -/

/-- The interface once a frame has ended: idle until the line recovers, the raw record kept where there is room. -/
def SerIf.heard (x : SerIf) (now : Time) (lm : BitVec 16) (raw : List Byte) : SerIf :=
  let x := { x with frame := none, recover := now + us (fld x.clk 16 8), lineMeas := if x.biss then lm else x.lineMeas }
  if 8 ≤ x.raw.length then { x with flags := x.flags ||| 0x10 } else { x with raw := x.raw ++ [raw] }

/-- Why a frame is discarded, as flags of the interface; 0 where it is not. -/
def SerFrame.faults (f : SerFrame) (biss noStart : Bool) : Word :=
  flag 0 (biss && !f.crcOk && !noStart) ||| flag 1 noStart ||| flag 2 (biss && f.alarm && !noStart)

/-- The raw record wakes who waits for it. -/
def State.serialRaw (s : State) (i : Nat) (x : SerIf) : State := if x.raw.isEmpty then s else s.wakeUnit (0x600 + i)

/-- The interface once a good word has been taken. -/
def SerIf.took (x : SerIf) (f : SerFrame) : SerIf :=
  { x with consec := 0, prev := some (BitVec.ofNat 64 f.word), flags := if x.biss && f.warn then x.flags ||| 8 else x.flags }

/-- R43: the bound cells that the word loads, as their first since EN rose. -/
def State.absCells (s : State) (i : Nat) : List Nat :=
  (s.bound 2 i).filter fun n => (s.cell n).en && (s.cell n).initAbs && (s.cell n).absFirst

/-- The cells beside `first` take the step of a good word, or none. -/
def State.serialSteps (s : State) (cells : List Nat) (x : SerIf) (f : SerFrame) (sample : Time) : State :=
  match x.prev with
  | none => cells.foldl (fun s n => s.reseed n sample) s
  | some p =>
    if serialDelta x.bits f.word p.toNat = 0 then cells.foldl (fun s n => s.reseed n sample) s
    else s.sourceSteps cells (serialDelta x.bits f.word p.toNat) sample

/-- A good complete frame at interface `i`. -/
def State.serialGood (s : State) (i : Nat) (x : SerIf) (f : SerFrame) (sample : Time) : State :=
  let s := s.setSer i (x.took f)
  ((s.absCells i).foldl (fun s n => s.initAbs n f.word sample) s).serialSteps
    ((s.bound 2 i).filter fun n => !(s.absCells i).contains n) x f sample

theorem exec_serialFrameEnd_up {t : Time} {i : Fin 8} {bits : BitVec 64} {n : Nat} {noStart : Bool} {lm : BitVec 16} {s : State} {f0 : Time}
    {y : SerIf} {f : SerFrame} {smp : Time} (hup : s.up = true) (hf : (s.ser i).frame = some f0) (hd : f = (s.ser i).decode bits.toNat n)
    (hs : smp = f0 + ns (fld (s.ser i).delay 0 16)) (hy : y = (s.ser i).heard (max s.now t) lm (rawRecord bits n smp f noStart)) :
    exec (.serialFrameEnd t i bits n noStart lm) s = .next
      (if f.faults y.biss noStart ≠ 0 then ((s.arrive t).serialRaw i y).serialBad i y (f.faults y.biss noStart)
       else if !f.complete then ((s.arrive t).serialRaw i y).setSer i y
       else ((s.arrive t).serialRaw i y).serialGood i y f smp) := by
  subst hd hs hy
  change execSerialFrameEnd t i bits n noStart lm s = _
  rw [execSerialFrameEnd, engineEvent_up hup]
  dsimp only [State.arrive_ser, State.arrive_now]
  split
  · next h => simp [hf] at h
  · next f1 h =>
    obtain rfl : f0 = f1 := Option.some.inj (hf.symm.trans h)
    rfl

theorem SerIf.heard_spec (x : SerIf) (now : Time) (lm : BitVec 16) (raw : List Byte) :
    (x.heard now lm raw).frame = none ∧ (x.heard now lm raw).recover = now + us (fld x.clk 16 8) ∧ (x.heard now lm raw).prev = x.prev ∧
      (x.heard now lm raw).consec = x.consec ∧ (x.heard now lm raw).ctrl = x.ctrl := by
  unfold SerIf.heard
  dsimp only
  split <;> exact ⟨rfl, rfl, rfl, rfl, rfl⟩

theorem SerFrame.faults_eq_zero_iff (f : SerFrame) (biss noStart : Bool) :
    f.faults biss noStart = 0 ↔ noStart = false ∧ (biss = true → f.crcOk = true ∧ f.alarm = false) := by
  unfold SerFrame.faults
  cases biss <;> cases noStart <;> cases f.crcOk <;> cases f.alarm <;> decide

theorem serialRaw_axes (s : State) (i : Nat) (x : SerIf) : (s.serialRaw i x).axes = s.axes ∧ (s.serialRaw i x).now = s.now := by
  unfold State.serialRaw
  split
  · exact ⟨rfl, rfl⟩
  · exact ⟨(kept_wakeUnit (.refl s)).axes, (kept_wakeUnit (.refl s)).now⟩

/-- A sample without a step: the position stands, and a lost estimator that counts begins again. -/
structure Reseeded (s : State) (n : Nat) (c d : Cell) : Prop where
  phase : d.phase = c.phase
  turn : d.turn = c.turn
  est : c.en = true → c.est = .lost → s.held n = false → s.frozen n = false → d.est = .seeded

theorem reseedAt_cell (u : State) (n : Nat) (x : Sample) :
    (∀ j, j ≠ n → (u.reseedAt n x).cell j = u.cell j) ∧ Reseeded u n (u.cell n) ((u.reseedAt n x).cell n) := by
  unfold State.reseedAt
  dsimp only
  split
  · refine ⟨fun j hj => by rw [cellChange_cell]; simp [State.putCell, hj], ?_⟩
    rw [cellChange_cell]
    constructor <;> simp [State.putCell, Cell.remember]
  · next h =>
    refine ⟨fun _ _ => rfl, rfl, rfl, fun he hl hh hf => absurd ?_ h⟩
    simp [he, hl, hh, hf]

theorem AxesRest.reseedAt {s u : State} (h : AxesRest s u) (n : Nat) (x : Sample) : AxesRest s (u.reseedAt n x) := by
  unfold State.reseedAt
  dsimp only
  split
  · exact (h.putCell n _).cellChange n _
  · exact h

theorem AxesRest.initAbs {s u : State} (h : AxesRest s u) (n v : Nat) (ts : Time) : AxesRest s (u.initAbs n v ts) :=
  ((h.setCell n _).loadCell n _ _).reseedAt n _

theorem initAbs_frame (u : State) (n v : Nat) (ts : Time) (j : Nat) (h : j ≠ n) : (u.initAbs n v ts).cell j = u.cell j := by
  unfold State.initAbs State.reseed
  dsimp only
  rw [(reseedAt_cell _ n _).1 j h, loadCell_frame _ n _ _ j h]
  simp [h]

/-- Several cells brought back by a sample without a step. -/
theorem reseeds (ts : Time) (l : List Nat) (hnd : l.Nodup) (s : State) :
    AxesRest s (l.foldl (fun s n => s.reseed n ts) s) ∧
      (∀ j ∈ l, Reseeded s j (s.cell j) ((l.foldl (fun s n => s.reseed n ts) s).cell j)) ∧
      (∀ j, j ∉ l → (l.foldl (fun s n => s.reseed n ts) s).cell j = s.cell j) :=
  foldCells (R := Reseeded s)
    (fun u n h => ⟨h.reseedAt n _, (reseedAt_cell u n _).1,
      let r := (reseedAt_cell u n _).2
      ⟨r.phase, r.turn, fun he hl hh hf => r.est he hl ((h.held n).trans hh) ((h.frozen n).trans hf)⟩⟩) l hnd s (.refl s)

/-- Several cells loaded by their first word. -/
theorem initAbses (v : Nat) (ts : Time) (l : List Nat) (hnd : l.Nodup) (s : State) :
    AxesRest s (l.foldl (fun s n => s.initAbs n v ts) s) ∧ (∀ j, j ∉ l → (l.foldl (fun s n => s.initAbs n v ts) s).cell j = s.cell j) :=
  let h := foldCells (R := fun _ _ _ => True) (fun u n h => ⟨h.initAbs n v ts, initAbs_frame u n v ts, trivial⟩) l hnd s (.refl s)
  ⟨h.1, h.2.2⟩

theorem absCells_nodup (s : State) (i : Nat) : (s.absCells i).Nodup := (bound_nodup s 2 i).filter _

theorem serialSteps_ser (s : State) (l : List Nat) (hnd : l.Nodup) (x : SerIf) (f : SerFrame) (ts : Time) (i : Nat) :
    (s.serialSteps l x f ts).ser i = s.ser i := by
  unfold State.serialSteps
  split
  · exact (reseeds ts l hnd s).1.ser i
  · split
    · exact (reseeds ts l hnd s).1.ser i
    · simp [State.ser, (sourceSteps_inputs _ _ _ _).2.1]

theorem serialSteps_frame (s : State) (l : List Nat) (hnd : l.Nodup) (x : SerIf) (f : SerFrame) (ts : Time) (n : Nat) (hm : (s.cell n).mode ≠ 5)
    (hn : n ∉ l) : (s.serialSteps l x f ts).cell n = s.cell n := by
  unfold State.serialSteps
  split
  · exact (reseeds ts l hnd s).2.2 n hn
  · split
    · exact (reseeds ts l hnd s).2.2 n hn
    · next hd => exact sourceSteps_frame s l _ ts n hd hm hnd hn

/-- A word after another is a step of its distance at each running cell, or no step where that is 0. -/
theorem serialSteps_at (s : State) (l : List Nat) (hnd : l.Nodup) {x : SerIf} (f : SerFrame) (ts : Time) {p : BitVec 64} (hp : x.prev = some p)
    {n : Nat} {c : Cell} (hc : s.cell n = c) (hm : c.mode ≠ 5) (hn : n ∈ l) (hrun : s.running n = true) :
    (serialDelta x.bits f.word p.toNat ≠ 0 →
      Moves c ((s.serialSteps l x f ts).cell n) (c.turned (serialDelta x.bits f.word p.toNat)) (c.modFor s.now) ts) ∧
    (serialDelta x.bits f.word p.toNat = 0 → Reseeded s n c ((s.serialSteps l x f ts).cell n)) := by
  subst hc
  unfold State.serialSteps
  simp only [hp]
  constructor
  · intro hd
    rw [if_neg hd, sourceSteps_at s l _ ts n hd hm hnd hn hrun]
    exact stepped_moves _ _ _ _ _
  · intro hd
    rw [if_pos hd]
    exact (reseeds ts l hnd s).2.1 n hn

theorem restCells_nodup (s : State) (i : Nat) : ((s.bound 2 i).filter fun n => !(s.absCells i).contains n).Nodup := (bound_nodup s 2 i).filter _

theorem mem_absCells {s : State} {i n : Nat} : n ∈ s.absCells i ↔
    (n < 64 ∧ (s.cell n).mode = 2 ∧ (s.cell n).src = i) ∧ (s.cell n).en = true ∧ (s.cell n).initAbs = true ∧ (s.cell n).absFirst = true := by
  simp [State.absCells, mem_bound, and_assoc]

/-- A good word at a running bound cell that it does not load. -/
theorem serialGood_at (s : State) (i : Nat) {x : SerIf} (f : SerFrame) (ts : Time) {p : BitVec 64} (hp : x.prev = some p) {n : Nat} {c : Cell}
    (hc : s.cell n = c) (hn : n < 64) (hm : c.mode = 2) (hs : c.src = i) (hrun : s.running n = true)
    (hfirst : c.initAbs = false ∨ c.absFirst = false) :
    (serialDelta x.bits f.word p.toNat ≠ 0 →
      Moves c ((s.serialGood i x f ts).cell n) (c.turned (serialDelta x.bits f.word p.toNat)) (c.modFor s.now) ts) ∧
    (serialDelta x.bits f.word p.toNat = 0 → Reseeded s n c ((s.serialGood i x f ts).cell n)) := by
  subst hc
  unfold State.serialGood
  dsimp only
  have hnd := restCells_nodup (s.setSer i (x.took f)) i
  obtain ⟨hax, hout⟩ := initAbses f.word ts _ (absCells_nodup (s.setSer i (x.took f)) i) (s.setSer i (x.took f))
  have hnot : n ∉ (s.setSer i (x.took f)).absCells i := by
    rw [mem_absCells]
    rintro ⟨-, -, hi, ha⟩
    rcases hfirst with h | h
    · exact Bool.false_ne_true (h.symm.trans hi)
    · exact Bool.false_ne_true (h.symm.trans ha)
  have hcell := hout n hnot
  have hmem : n ∈ ((s.setSer i (x.took f)).bound 2 i).filter fun n => !((s.setSer i (x.took f)).absCells i).contains n := by
    rw [List.mem_filter]
    exact ⟨mem_bound.2 ⟨hn, hm, hs⟩, by simpa using hnot⟩
  generalize (List.foldl (fun s n => s.initAbs n f.word ts) (s.setSer i (x.took f)) ((s.setSer i (x.took f)).absCells i)) = w at *
  have hrun' : w.running n = true := by
    simp only [State.running, hax.held, hax.frozen, hcell]
    exact hrun
  have hr := serialSteps_at w _ hnd (x := x) f ts hp (hcell.trans (State.setSer_cell ..)) (by rw [hm]; decide) hmem hrun'
  rw [hax.now] at hr
  exact ⟨hr.1, fun h => ⟨(hr.2 h).phase, (hr.2 h).turn, fun he hl hh hf => (hr.2 h).est he hl ((hax.held n).trans hh) ((hax.frozen n).trans hf)⟩⟩

theorem serialGood_frame (s : State) (i : Nat) (x : SerIf) (f : SerFrame) (ts : Time) (n : Nat) (hm : (s.cell n).mode ≠ 5)
    (hn : ¬(n < 64 ∧ (s.cell n).mode = 2 ∧ (s.cell n).src = i)) : (s.serialGood i x f ts).cell n = s.cell n := by
  unfold State.serialGood
  dsimp only
  obtain ⟨hax, hout⟩ := initAbses f.word ts _ (absCells_nodup (s.setSer i (x.took f)) i) (s.setSer i (x.took f))
  have hcell := hout n fun h => hn (mem_absCells.1 h).1
  rw [serialSteps_frame _ _ (restCells_nodup _ i) x f ts n (by rw [hcell]; exact hm), hcell]
  · rfl
  · intro h
    exact hn (mem_bound.1 (List.mem_filter.1 h).1)

theorem serialGood_ser (s : State) (i : Nat) (x : SerIf) (f : SerFrame) (ts : Time) : (s.serialGood i x f ts).ser i = x.took f := by
  unfold State.serialGood
  dsimp only
  rw [serialSteps_ser _ _ (restCells_nodup _ i), (initAbses f.word ts _ (absCells_nodup _ i) _).1.ser]
  simp

/-! ## A discarded frame (R44) -/

/-- Cell `n` has lost its source: the position stands, the estimator is lost where it counts, and SRC_LOST is set. -/
theorem loseCell_cell (u : State) (n j : Nat) :
    (u.loseCell n).cell j = if j = n then ((u.cell n).remember
      { (if u.held n || u.frozen n then u.cell n else { (u.cell n).lose u.now with frac := u.fracOf n u.now }) with
        flags := (u.cell n).flags ||| 0x1000 } (u.held n) (u.frozen n) u.now u.now) else u.cell j := by
  unfold State.loseCell
  dsimp only
  rw [cellChange_cell]
  simp [State.putCell]

/-- What a run of discarded frames does to a bound cell that has been counted already: `third` at the third frame. -/
structure SourceLost (s : State) (third : Bool) (n : Nat) (c d : Cell) : Prop where
  phase : d.phase = c.phase
  turn : d.turn = c.turn
  ctrl : d.ctrl = c.ctrl
  ser : d.ser = c.ser
  flags : d.flags = c.flags ∨ d.flags = c.flags ||| 0x1000
  lost : c.en = true → s.held n = false → s.frozen n = false → d.est = .lost
  marked : third = true → c.en = true → c.est ≠ .lost → bit d.flags 12 = true
  stands : s.held n = true ∨ s.frozen n = true → d.est = c.est

/-- R44: a cell that has its estimator still loses it. -/
def State.loseOnce (s : State) (third : Bool) (n : Nat) : State :=
  if (s.cell n).en && (s.cell n).est ≠ .lost && (third || !(s.held n || s.frozen n)) then s.loseCell n else s

theorem loseOnce_lost {s u : State} (h : AxesRest s u) (third : Bool) (n : Nat) :
    AxesRest s (u.loseOnce third n) ∧ (∀ j, j ≠ n → (u.loseOnce third n).cell j = u.cell j) ∧
      SourceLost s third n (u.cell n) ((u.loseOnce third n).cell n) := by
  unfold State.loseOnce
  split
  · next hc =>
    refine ⟨h.loseCell n, fun j hj => by rw [loseCell_cell, if_neg hj], ?_⟩
    rw [loseCell_cell, if_pos rfl, h.held, h.frozen]
    by_cases hk : (s.held n || s.frozen n) = true
    · rw [if_pos hk]
      refine ⟨rfl, rfl, rfl, rfl, .inr rfl, fun _ hh hf => ?_, fun _ _ _ => ?_, fun _ => rfl⟩
      · simp [hh, hf] at hk
      · simp [Cell.remember, bit]
    · rw [if_neg hk]
      refine ⟨rfl, rfl, rfl, rfl, .inr rfl, fun _ _ _ => rfl, fun _ _ _ => ?_, fun hh => ?_⟩
      · simp [Cell.remember, bit]
      · exact absurd (by simpa using hh) hk
  · next hc =>
    rw [h.held, h.frozen] at hc
    refine ⟨h, fun _ _ => rfl, rfl, rfl, rfl, rfl, .inl rfl, fun he hh hf => ?_, fun ht he hl => absurd ?_ hc, fun _ => rfl⟩
    · simpa [he, hh, hf] using hc
    · simp [ht, he, hl]

theorem loseOnces (third : Bool) (l : List Nat) (hnd : l.Nodup) (s : State) :
    AxesRest s (l.foldl (fun s n => s.loseOnce third n) s) ∧
      (∀ j ∈ l, SourceLost s third j (s.cell j) ((l.foldl (fun s n => s.loseOnce third n) s).cell j)) ∧
      (∀ j, j ∉ l → (l.foldl (fun s n => s.loseOnce third n) s).cell j = s.cell j) :=
  foldCells (fun _ n h => loseOnce_lost h third n) l hnd s (.refl s)

/-- The interface after a discarded frame. -/
def SerIf.discards (x : SerIf) (flags : Word) : SerIf := { x with flags := x.flags ||| flags, consec := satInc x.consec }

/-- A discarded frame is counted at a bound cell. -/
def Cell.countBad (c : Cell) : Cell := { c with ser := satInc c.ser, flags := c.flags ||| 0x400 }

theorem serialBad_eq (s : State) (i : Nat) (x : SerIf) (flags : Word) :
    s.serialBad i x flags =
      let w := (s.bound 2 i).foldl (fun s n => s.modCell n Cell.countBad) (s.setSer i (x.discards flags))
      if 3 ≤ (satInc x.consec).toNat then
        let u := (s.bound 2 i).foldl (fun s n => s.loseOnce (decide ((satInc x.consec).toNat = 3)) n) w
        if (satInc x.consec).toNat = 3 then u.report (16 + i) else u
      else w := rfl

/-- What a discarded frame leaves of a bound cell. -/
structure Discards (s : State) (run : Nat) (n : Nat) (c d : Cell) : Prop where
  ser : d.ser = satInc c.ser
  counted : bit d.flags 10 = true
  phase : d.phase = c.phase
  turn : d.turn = c.turn
  ctrl : d.ctrl = c.ctrl
  lost : 3 ≤ run → c.en = true → s.held n = false → s.frozen n = false → d.est = .lost
  marked : run = 3 → c.en = true → c.est ≠ .lost → bit d.flags 12 = true
  stands : run < 3 ∨ s.held n = true ∨ s.frozen n = true → d.est = c.est

theorem countBad_discards {s : State} {run : Nat} {n : Nat} {c : Cell} (h : run < 3) : Discards s run n c c.countBad :=
  ⟨rfl, by simp [Cell.countBad, bit], rfl, rfl, rfl, fun h3 => by omega, fun h3 => by omega, fun _ => rfl⟩

theorem SourceLost.discards {s w : State} (hw : AxesRest s w) {run : Nat} (hrun : 3 ≤ run) {n : Nat} {c d : Cell}
    (h : SourceLost w (decide (run = 3)) n c.countBad d) : Discards s run n c d where
  ser := h.ser
  counted := by rcases h.flags with e | e <;> simp [e, Cell.countBad, bit]
  phase := h.phase
  turn := h.turn
  ctrl := h.ctrl
  lost := fun _ he hh hf => h.lost he ((hw.held n).trans hh) ((hw.frozen n).trans hf)
  marked := fun h3 he hl => h.marked (by simpa using h3) he hl
  stands := fun hst => h.stands (by rw [hw.held, hw.frozen]; exact hst.resolve_left (by omega))

theorem countBads_axes (l : List Nat) (s : State) : AxesRest s (l.foldl (fun s n => s.modCell n Cell.countBad) s) := by
  rw [modCells_rest]
  exact ⟨rfl, rfl, rfl, rfl, rfl⟩

theorem serialBad_spec (s : State) (i : Nat) (x : SerIf) (flags : Word) :
    (s.serialBad i x flags).ser i = x.discards flags ∧
      (∀ n < 64, (s.cell n).mode = 2 → (s.cell n).src = i →
        Discards s (satInc x.consec).toNat n (s.cell n) ((s.serialBad i x flags).cell n)) ∧
      (∀ n, ¬(n < 64 ∧ (s.cell n).mode = 2 ∧ (s.cell n).src = i) → (s.serialBad i x flags).cell n = s.cell n) := by
  rw [serialBad_eq]
  dsimp only
  have hnd := bound_nodup s 2 i
  have hw := countBads_axes (s.bound 2 i) (s.setSer i (x.discards flags))
  have hcell := fun n => modCells_cell (s.bound 2 i) Cell.countBad (s.setSer i (x.discards flags)) n hnd
  have hser : (s.setSer i (x.discards flags)).ser i = x.discards flags := by simp
  generalize List.foldl (fun s n => s.modCell n Cell.countBad) (s.setSer i (x.discards flags)) (s.bound 2 i) = w at *
  simp only [State.setSer_cell, mem_bound] at hcell
  obtain ⟨hax, hin, hout⟩ := loseOnces (decide ((satInc x.consec).toNat = 3)) (s.bound 2 i) hnd w
  split
  · next h3 =>
    generalize List.foldl (fun s n => s.loseOnce (decide ((satInc x.consec).toNat = 3)) n) w (s.bound 2 i) = u at *
    have haxes : (if (satInc x.consec).toNat = 3 then u.report (16 + i) else u).axes = u.axes := by split <;> rfl
    rw [State.ser, haxes]
    simp only [cell_of_axes haxes]
    refine ⟨(hax.ser i).trans ((hw.ser i).trans hser), fun n hn hm hs => ?_, fun n hn => ?_⟩
    · have h := hin n (mem_bound.2 ⟨hn, hm, hs⟩)
      rw [hcell n, if_pos ⟨hn, hm, hs⟩] at h
      have hd := h.discards hw h3
      exact ⟨hd.ser, hd.counted, hd.phase, hd.turn, hd.ctrl, hd.lost, hd.marked, hd.stands⟩
    · have h := hout n fun hb => hn (mem_bound.1 hb)
      rw [hcell n, if_neg hn] at h
      exact h
  · next h3 =>
    refine ⟨(hw.ser i).trans hser, fun n hn hm hs => ?_, fun n hn => ?_⟩
    · rw [hcell n, if_pos ⟨hn, hm, hs⟩]
      exact countBad_discards (by omega)
    · rw [hcell n, if_neg hn]

/-- What a frame's end leaves of the interface and the state before it is judged. -/
structure Heard (s : State) (t : Time) (i : Nat) (y : SerIf) (w : State) : Prop where
  axes : w.axes = s.axes
  now : w.now = max s.now t
  frame : y.frame = none
  recover : y.recover = max s.now t + us (fld (s.ser i).clk 16 8)
  prev : y.prev = (s.ser i).prev
  consec : y.consec = (s.ser i).consec
  ctrl : y.ctrl = (s.ser i).ctrl

/-- A frame that ends is discarded for a fault, put aside incomplete, or taken. -/
theorem serialFrameEnd_cases {t : Time} {i : Fin 8} {bits : BitVec 64} {n : Nat} {noStart : Bool} {lm : BitVec 16} {s : State} {f0 : Time}
    {f : SerFrame} (hup : s.up = true) (hf : (s.ser i).frame = some f0) (hd : f = (s.ser i).decode bits.toNat n) :
    ∃ y w, Heard s t i y w ∧ exec (.serialFrameEnd t i bits n noStart lm) s = .next
      (if f.faults y.biss noStart ≠ 0 then w.serialBad i y (f.faults y.biss noStart)
       else if !f.complete then w.setSer i y
       else w.serialGood i y f (f0 + ns (fld (s.ser i).delay 0 16))) := by
  obtain ⟨hframe, hrec, hprev, hcon, hctrl⟩ := (s.ser i).heard_spec (max s.now t) lm
    (rawRecord bits n (f0 + ns (fld (s.ser i).delay 0 16)) f noStart)
  exact ⟨_, _, ⟨(serialRaw_axes (s.arrive t) _ _).1, (serialRaw_axes (s.arrive t) _ _).2, hframe, hrec, hprev, hcon, hctrl⟩,
    exec_serialFrameEnd_up hup hf hd rfl rfl⟩

theorem Heard.biss {s : State} {t : Time} {i : Nat} {y : SerIf} {w : State} (h : Heard s t i y w) : y.biss = (s.ser i).biss := by
  simp [SerIf.biss, h.ctrl]

theorem Heard.bits {s : State} {t : Time} {i : Nat} {y : SerIf} {w : State} (h : Heard s t i y w) : y.bits = (s.ser i).bits := by
  simp [SerIf.bits, h.ctrl]

theorem Heard.cell {s : State} {t : Time} {i : Nat} {y : SerIf} {w : State} (h : Heard s t i y w) (n : Nat) : w.cell n = s.cell n :=
  cell_of_axes h.axes n

theorem Heard.counting {s : State} {t : Time} {i : Nat} {y : SerIf} {w : State} (h : Heard s t i y w) (n : Nat) :
    w.held n = s.held n ∧ w.frozen n = s.frozen n ∧ w.running n = s.running n := by
  simp [State.running, State.held, State.frozen, h.axes, h.cell]

/-- R42, R43: a complete good frame after another. -/
theorem serialFrameEnd_good {t : Time} {i : Fin 8} {bits : BitVec 64} {n : Nat} {lm : BitVec 16} {s : State} {f0 : Time} {p : BitVec 64}
    {f : SerFrame} {d : Int} (hup : s.up = true) (hf : (s.ser i).frame = some f0) (hp : (s.ser i).prev = some p)
    (hdec : f = (s.ser i).decode bits.toNat n) (hcomp : f.complete = true)
    (hgood : (s.ser i).biss = true → f.crcOk = true ∧ f.alarm = false) (hd : d = serialDelta (s.ser i).bits f.word p.toNat) :
    ∃ u, exec (.serialFrameEnd t i bits n false lm) s = .next u ∧
      (u.ser i).prev = some (BitVec.ofNat 64 f.word) ∧ (u.ser i).frame = none ∧ (u.ser i).consec = 0 ∧
      (∀ c < 64, (s.cell c).mode = 2 → (s.cell c).src = i → s.running c = true → ((s.cell c).initAbs = false ∨ (s.cell c).absFirst = false) →
        (d ≠ 0 → Moves (s.cell c) (u.cell c) (if (s.cell c).dirInv then -d else d) ((s.cell c).modFor (max s.now t))
          (f0 + ns (fld (s.ser i).delay 0 16))) ∧
        (d = 0 → (u.cell c).phase = (s.cell c).phase ∧ (u.cell c).turn = (s.cell c).turn ∧
          ((s.cell c).est = .lost → (u.cell c).est = .seeded))) ∧
      (∀ c, (s.cell c).mode ≠ 5 → ¬(c < 64 ∧ (s.cell c).mode = 2 ∧ (s.cell c).src = i) → u.cell c = s.cell c) ∧
      Kept (s.arrive t) u := by
  obtain ⟨y, w, hy, hexec⟩ := serialFrameEnd_cases (t := t) (lm := lm) (noStart := false) hup hf hdec
  have hz : f.faults y.biss false = 0 := (f.faults_eq_zero_iff _ _).2 ⟨rfl, by rw [hy.biss]; exact hgood⟩
  rw [if_neg (by simp [hz]), if_neg (by simp [hcomp])] at hexec
  refine ⟨_, hexec, ?_, ?_, ?_, ?_, ?_, exec_serialFrameEnd_kept hexec⟩
  · rw [serialGood_ser]; rfl
  · rw [serialGood_ser]; exact hy.frame
  · rw [serialGood_ser]; rfl
  · intro c hc hm hs hrun hfirst
    obtain ⟨hstep, hnone⟩ := serialGood_at w i f (f0 + ns (fld (s.ser i).delay 0 16)) (hy.prev.trans hp) (hy.cell c) hc hm hs
      ((hy.counting c).2.2.trans hrun) hfirst
    rw [hy.bits, ← hd, hy.now] at hstep
    rw [hy.bits, ← hd] at hnone
    refine ⟨hstep, fun h0 => ⟨(hnone h0).phase, (hnone h0).turn, fun hl => ?_⟩⟩
    obtain ⟨⟨he, hh⟩, hfz⟩ : ((s.cell c).en = true ∧ s.held c = false) ∧ s.frozen c = false := by simpa [State.running] using hrun
    exact (hnone h0).est he hl ((hy.counting c).1.trans hh) ((hy.counting c).2.1.trans hfz)
  · intro c hm hn
    rw [serialGood_frame w i y f _ c (by rwa [hy.cell]) (by rwa [hy.cell]), hy.cell]

/-- R44: a discarded frame. -/
theorem serialFrameEnd_bad {t : Time} {i : Fin 8} {bits : BitVec 64} {n : Nat} {noStart : Bool} {lm : BitVec 16} {s : State} {f0 : Time}
    {f : SerFrame} (hup : s.up = true) (hf : (s.ser i).frame = some f0) (hdec : f = (s.ser i).decode bits.toNat n)
    (hbad : noStart = true ∨ (s.ser i).biss = true ∧ (f.crcOk = false ∨ f.alarm = true)) :
    ∃ u, exec (.serialFrameEnd t i bits n noStart lm) s = .next u ∧
      (u.ser i).consec = satInc (s.ser i).consec ∧ (u.ser i).frame = none ∧ (u.ser i).prev = (s.ser i).prev ∧
      (∀ c < 64, (s.cell c).mode = 2 → (s.cell c).src = i →
        Discards s (satInc (s.ser i).consec).toNat c (s.cell c) (u.cell c)) ∧
      (∀ c, ¬(c < 64 ∧ (s.cell c).mode = 2 ∧ (s.cell c).src = i) → u.cell c = s.cell c) ∧
      Kept (s.arrive t) u := by
  obtain ⟨y, w, hy, hexec⟩ := serialFrameEnd_cases (t := t) (lm := lm) (noStart := noStart) hup hf hdec
  have hz : f.faults y.biss noStart ≠ 0 := by
    rw [Ne, f.faults_eq_zero_iff, hy.biss]
    rintro ⟨hns, hok⟩
    rcases hbad with h | ⟨hb, h⟩
    · exact Bool.false_ne_true (hns.symm.trans h)
    · simp [hok hb] at h
  rw [if_pos hz] at hexec
  obtain ⟨hser, hcells, hrest⟩ := serialBad_spec w i y (f.faults y.biss noStart)
  refine ⟨_, hexec, ?_, ?_, ?_, ?_, ?_, exec_serialFrameEnd_kept hexec⟩
  · rw [hser, ← hy.consec]; rfl
  · rw [hser]; exact hy.frame
  · rw [hser]; exact hy.prev
  · intro c hc hm hs
    have h := hcells c hc (by rwa [hy.cell]) (by rwa [hy.cell])
    rw [hy.consec, hy.cell] at h
    exact ⟨h.ser, h.counted, h.phase, h.turn, h.ctrl, fun h3 he hh hfz => h.lost h3 he ((hy.counting c).1.trans hh) ((hy.counting c).2.1.trans hfz),
      h.marked, fun hst => h.stands (by rwa [(hy.counting c).1, (hy.counting c).2.1])⟩
  · intro c hn
    rw [hrest c (by rwa [hy.cell]), hy.cell]

/-- Settles O2: each of a cell's own steps by its command's one step, a frame's start by its interface, and a frame's end by whether its word is
good. -/
theorem timedPredictedAndSerialStepsOfCells : Obligations.TimedPredictedAndSerialStepsOfCells := by
  refine ⟨⟨?_, ?_, ?_, lapRoom_inside, ?_⟩, ?_, ?_, ?_⟩
  · intro t c s hup hrun hm hle
    rw [timeStep_steps hup rfl hm hrun rfl hle]
    exact ⟨_, rfl, dueStep_moves 1 _ hrun rfl (by decide)⟩
  · intro t c s k hup hrun hm hk hle
    rw [syntheticStep_steps hup rfl hm hrun hk rfl hle]
    exact ⟨_, rfl, dueStep_moves _ _ hrun rfl (by split <;> decide)⟩
  · intro t c s p k hup hrun hm hp hk hdir
    rw [mainsPhaseStep_steps hup rfl hm hrun hp hk hdir]
    obtain ⟨u, hu, h⟩ := phaseStep_moves (t := t) (k := k) (.inl hm) hrun (fun h0 => by simp [h0] at hdir)
    exact ⟨u, by rw [hu], h⟩
  · intro t c s m k hup hrun hm hmod hk hdir
    rw [mirrorPhaseStep_steps hup rfl hm hrun hmod hk hdir]
    obtain ⟨u, hu, h⟩ := phaseStep_moves (t := t) (k := k) (.inr hm) hrun (fun h0 => by simp [h0] at hdir)
    exact ⟨u, by rw [hu], h⟩
  · intro t i s x y hup hx hr hy
    rw [exec_serialFrameStart_up hup hx hr hy]
    exact ⟨fun h => by rw [if_neg (Nat.not_lt.2 h)], fun h => by rw [if_pos h]⟩
  · intro t i bits n lm s f0 p d hup hf hp hcomp hgood hd
    exact serialFrameEnd_good hup hf hp rfl hcomp hgood hd
  · intro t i bits n noStart lm s f0 hup hf hbad
    obtain ⟨u, hexec, hcon, hframe, hprev, hcells, hrest, hkept⟩ := serialFrameEnd_bad (t := t) (lm := lm) hup hf rfl hbad
    refine ⟨u, hexec, hcon, hframe, hprev, fun c hc hm hs => ?_, hrest, hkept⟩
    have h := hcells c hc hm hs
    exact ⟨h.ser, h.counted, h.phase, h.turn, h.ctrl, h.lost, h.marked, h.stands⟩

end Sys2Proof.Machine
end


section
/-! PROOFS. Mains crossings, and cells whose samples stay away (02_counter_cells.md). -/

namespace Sys2Proof.Machine

/-! ## Steps of several cells -/

/-- What steps of cells leave alone of the axes: time, holds, the freeze and the inputs. -/
structure Stepping (s u : State) : Prop where
  now : u.now = s.now
  held : ∀ n, u.held n = s.held n
  frozen : ∀ n, u.frozen n = s.frozen n
  encs : u.axes.encs = s.axes.encs
  sers : u.axes.sers = s.axes.sers
  mains : u.axes.mains = s.axes.mains

namespace Stepping

variable {s u w : State}

theorem refl (s : State) : Stepping s s := ⟨rfl, fun _ => rfl, fun _ => rfl, rfl, rfl, rfl⟩

theorem trans (h : Stepping s u) (g : Stepping u w) : Stepping s w :=
  ⟨g.now.trans h.now, fun n => (g.held n).trans (h.held n), fun n => (g.frozen n).trans (h.frozen n), g.encs.trans h.encs,
    g.sers.trans h.sers, g.mains.trans h.mains⟩

theorem of_axesRest (h : AxesRest s u) : Stepping s u := ⟨h.now, h.held, h.frozen, h.encs, h.sers, h.mains⟩

theorem setCell (h : Stepping s u) (n : Nat) (c : Cell) : Stepping s (u.setCell n c) := h.trans (.of_axesRest ((AxesRest.refl u).setCell n c))

theorem stepCell (h : Stepping s u) (fuel n : Nat) (k : Int) (st : Time) (p : Option Int) : Stepping s (u.stepCell fuel n k st p).1 :=
  let ⟨he, hs, hm⟩ := stepCell_inputs fuel u n k st p
  h.trans ⟨stepCell_now fuel u n k st p, fun j => (stepCell_start fuel u n k st p j).1, fun j => (stepCell_start fuel u n k st p j).2, he, hs, hm⟩

theorem react (h : Stepping s u) (evs : List StepEv) : Stepping s (u.react evs) :=
  h.trans (.of_axesRest (.of_ran (kept_react (.refl u))))

theorem running (h : Stepping s u) {n : Nat} (hc : (u.cell n).en = (s.cell n).en) : u.running n = s.running n := by
  simp [State.running, hc, h.held, h.frozen]

theorem mainsIn (h : Stepping s u) (i : Nat) : u.mainsIn i = s.mainsIn i := by simp [State.mainsIn, h.mains]

end Stepping

/-- A step of each cell of a list, that reaches no other cell but a cascade: what it does to a cell it does once, and the others stand. -/
theorem foldSteps {op : State → Nat → State × List StepEv} {R : Nat → Cell → Cell → Prop} {s : State}
    (hop : ∀ u n, Stepping s u → Stepping s (op u n).1 ∧ (∀ j, j ≠ n → (u.cell j).mode ≠ 5 → (op u n).1.cell j = u.cell j) ∧
      ((u.cell n).mode ≠ 5 → R n (u.cell n) ((op u n).1.cell n) ∧ ((op u n).1.cell n).mode = (u.cell n).mode))
    (l : List Nat) (hnd : l.Nodup) (u : State) (evs : List StepEv) (hu : Stepping s u) :
    Stepping s (l.foldl (fun p n => ((op p.1 n).1, p.2 ++ (op p.1 n).2)) (u, evs)).1 ∧
      (∀ j ∈ l, (u.cell j).mode ≠ 5 → R j (u.cell j) ((l.foldl (fun p n => ((op p.1 n).1, p.2 ++ (op p.1 n).2)) (u, evs)).1.cell j)) ∧
      (∀ j, j ∉ l → (u.cell j).mode ≠ 5 → (l.foldl (fun p n => ((op p.1 n).1, p.2 ++ (op p.1 n).2)) (u, evs)).1.cell j = u.cell j) := by
  induction l generalizing u evs with
  | nil => exact ⟨hu, by simp, fun _ _ _ => rfl⟩
  | cons m r ih =>
    obtain ⟨hm, hr⟩ := List.nodup_cons.1 hnd
    obtain ⟨hst, hoth, heff⟩ := hop u m hu
    obtain ⟨ist, iin, iout⟩ := ih hr (op u m).1 (evs ++ (op u m).2) hst
    refine ⟨ist, fun j hj h5 => ?_, fun j hj h5 => ?_⟩
    · rcases List.mem_cons.1 hj with rfl | hj
      · rw [List.foldl_cons, iout j hm (by rw [(heff h5).2]; exact h5)]
        exact (heff h5).1
      · have hjm : j ≠ m := fun e => hm (e ▸ hj)
        have hc := hoth j hjm h5
        have := iin j hj (by rwa [hc])
        rwa [hc] at this
    · rw [List.mem_cons, not_or] at hj
      have hc := hoth j hj.1 h5
      rw [List.foldl_cons, iout j hj.2 (by rwa [hc]), hc]

/-- A step leaves the cell's CELL_CTRL alone, be it counted, accumulated in a freeze, or not taken. -/
theorem stepCell_ctrl (fuel : Nat) (s : State) (n : Nat) (k : Int) (st : Time) (p : Option Int) :
    ((s.stepCell (fuel + 1) n k st p).1.cell n).ctrl = (s.cell n).ctrl := by
  by_cases hrun : (s.cell n).en = true ∧ s.held n = false ∧ s.frozen n = false ∧ k ≠ 0
  · rw [stepCell_at fuel s n k st p hrun.1 hrun.2.1 hrun.2.2.1 hrun.2.2.2, (stepped_moves _ _ _ _ _).rest]
  · unfold State.stepCell
    dsimp only
    split
    · rfl
    · next hc =>
      rw [if_pos]
      · split
        · unfold State.freezeAdd
          dsimp only
          split <;> simp
        · rfl
      · simp only [Bool.or_eq_true, Bool.not_eq_true', decide_eq_true_eq, not_or, Bool.not_eq_false, Bool.not_eq_true] at hc
        by_contra hf
        exact hrun ⟨hc.1.1, hc.1.2, by simpa using hf, hc.2⟩

/-! ## A mains crossing (R46, R48) -/

/-- The cell as a crossing finds it: its history given up where the crossing is out of range, its count where the crossing lies. -/
def Cell.crossed (c : Cell) (now : Time) (out live : Bool) : Cell :=
  let m : Int := c.modFor now
  let k := c.lapRest (c.modFor now)
  let line := if c.hist.isEmpty then c.odo + k else c.mirOdo + (if c.dirInv then -m else m)
  let c := if out then { c with flags := c.flags ||| 0x800, hist := if live then [] else c.hist } else c
  if live then { c with mirOdo := line, odo := line - k } else c

theorem mainsStep_eq (s : State) (n : Nat) (out : Bool) (st : Time) :
    s.mainsStep n out st =
      (s.setCell n ((s.cell n).crossed s.now out (s.running n))).stepCell 64 n
        (if s.frozen n then
          (if ((s.cell n).crossed s.now out (s.running n)).dirInv then -((s.cell n).modFor s.now : Int) else (s.cell n).modFor s.now)
        else (s.cell n).lapRest ((s.cell n).modFor s.now)) st
        (((s.cell n).crossed s.now out (s.running n)).samplePos ((s.cell n).lapRest ((s.cell n).modFor s.now))) := rfl

theorem crossed_rest (c : Cell) (now : Time) (out live : Bool) :
    (c.crossed now out live).ctrl = c.ctrl ∧ (c.crossed now out live).phase = c.phase ∧ (c.crossed now out live).turn = c.turn ∧
      (c.crossed now out live).mod = c.mod ∧ (c.crossed now out live).modAct = c.modAct ∧ (c.crossed now out live).modAt = c.modAt := by
  unfold Cell.crossed
  cases out <;> cases live <;> exact ⟨rfl, rfl, rfl, rfl, rfl, rfl⟩

theorem crossed_modFor (c : Cell) (now : Time) (out live : Bool) (t : Time) : (c.crossed now out live).modFor t = c.modFor t := by
  obtain ⟨-, -, -, hm, ha, ht⟩ := crossed_rest c now out live
  simp [Cell.modFor, Cell.modN, hm, ha, ht]

theorem crossed_out (c : Cell) (now : Time) : (c.crossed now true true).hist = [] ∧ (c.crossed now true true).flags = c.flags ||| 0x800 :=
  ⟨rfl, rfl⟩

/-- The step that ends the lap: phase 0, the turn up by one, or down by one where the cell counts down from phase 0. -/
theorem move_lapRest (c : Cell) (m : Nat) (h : c.phase.toNat < m) :
    (c.move (c.lapRest m) m).1 = 0 ∧
      (c.move (c.lapRest m) m).2.1 = (if c.dirInv then (if c.phase = 0 then c.turn - 1 else c.turn) else c.turn + 1) := by
  have h0 : c.phase = 0 ↔ (c.phase.toNat : Int) = 0 := by
    rw [← BitVec.toNat_inj]
    simp
  have hpos : (m : Int) ≠ 0 := by omega
  unfold Cell.move Cell.lapRest
  dsimp only
  rw [if_neg (by omega), if_neg (by omega)]
  dsimp only
  simp only [h0]
  by_cases hd : c.dirInv = true <;> simp only [hd, if_true, if_false, Bool.false_eq_true]
  · by_cases hp : (c.phase.toNat : Int) = 0
    · simp only [hp, if_true, Int.zero_add]
      rw [Int.neg_emod_self, Int.neg_ediv_self _ hpos]
      exact ⟨rfl, by rw [BitVec.sub_eq_add_neg]; rfl⟩
    · simp only [hp, if_false, Int.add_right_neg, Int.zero_emod, Int.zero_ediv]
      exact ⟨rfl, BitVec.add_zero _⟩
  · rw [show (c.phase.toNat : Int) + (m - c.phase.toNat) = m by omega, Int.emod_self, Int.ediv_self hpos]
    exact ⟨rfl, rfl⟩

theorem lapRest_ne_zero (c : Cell) (m : Nat) (h : c.phase.toNat < m) : c.lapRest m ≠ 0 := by
  unfold Cell.lapRest
  dsimp only
  split
  · omega
  · split
    · split <;> omega
    · omega

theorem move_congr {c d : Cell} (hp : d.phase = c.phase) (ht : d.turn = c.turn) (k : Int) (m : Nat) : d.move k m = c.move k m := by
  simp only [Cell.move, hp, ht]

/-- A step that is a sample. -/
theorem stepped_sample (c : Cell) (k : Int) (st now : Time) (p : Int) :
    (c.stepped k st now (some p)).1.phase = (c.move k (c.modFor now)).1 ∧ (c.stepped k st now (some p)).1.turn = (c.move k (c.modFor now)).2.1 ∧
      (c.stepped k st now (some p)).1.lastT = some st ∧
      (c.stepped k st now (some p)).1.est = histState c.estOrder (c.stepped k st now (some p)).1.hist ∧
      (c.hist = [] → (c.stepped k st now (some p)).1.hist = [{ time := st, pos2 := p }]) ∧
      (bit c.flags 11 = true → bit (c.stepped k st now (some p)).1.flags 11 = true) := by
  refine ⟨rfl, rfl, rfl, rfl, fun hh => ?_, fun hf => ?_⟩
  · simp [Cell.stepped, Cell.remember, Cell.sample, hh, pushSample]
  · have h := congrArg (BitVec.getLsbD · 11) (stepped_moves c k st now (some p)).flags
    simp only [BitVec.getLsbD_and, show BitVec.getLsbD (~~~0x2100 : Word) 11 = true by decide, Bool.and_true] at h
    exact h.trans hf

/-- What a crossing makes of a running cell whose phase lies in its lap. -/
structure LapEnds (out : Bool) (st : Time) (c d : Cell) : Prop where
  phase : d.phase = 0
  turn : d.turn = (if c.dirInv then (if c.phase = 0 then c.turn - 1 else c.turn) else c.turn + 1)
  lastT : d.lastT = some st
  restarted : out = true → bit d.flags 11 = true ∧ d.est = .seeded ∧ d.hist.map (·.time) = [st]

theorem mainsStep_lapEnds (u : State) (n : Nat) (out : Bool) (st : Time) (hm : (u.cell n).mode = 3) (hrun : u.running n = true)
    (hp : (u.cell n).phase.toNat < (u.cell n).modFor u.now) : LapEnds out st (u.cell n) ((u.mainsStep n out st).1.cell n) := by
  obtain ⟨⟨he, hh⟩, hf⟩ : ((u.cell n).en = true ∧ u.held n = false) ∧ u.frozen n = false := by simpa [State.running] using hrun
  rw [mainsStep_eq, hrun, hf]
  generalize hc : u.cell n = c at *
  obtain ⟨hctrl, hph, htn, -, -, -⟩ := crossed_rest c u.now out true
  have hmod := crossed_modFor c u.now out true u.now
  have hmove := move_lapRest c (c.modFor u.now) hp
  have hout : out = true → (c.crossed u.now out true).hist = [] ∧ bit (c.crossed u.now out true).flags 11 = true := by
    rintro rfl
    exact ⟨rfl, by simp [(crossed_out c u.now).2, bit]⟩
  generalize c.crossed u.now out true = d at *
  simp only [Bool.false_eq_true, if_false]
  have hs : d.samplePos (c.lapRest (c.modFor u.now)) =
      some (if 0 < c.lapRest (c.modFor u.now) then 2 * (d.odo + c.lapRest (c.modFor u.now)) else 2 * (d.odo + c.lapRest (c.modFor u.now)) + 2) := by
    simp [Cell.samplePos, Cell.mode, hctrl, show fld c.ctrl 1 3 = 3 from hm]
  rw [stepCell_at 63 (u.setCell n d) n _ st _ (by simpa [Cell.en, hctrl] using he) hh hf (lapRest_ne_zero c _ hp), hs]
  simp only [State.setCell_cell, if_true, State.setCell_now]
  obtain ⟨sp, stn, sl, se, sh, sf⟩ := stepped_sample d (c.lapRest (c.modFor u.now)) st u.now
    (if 0 < c.lapRest (c.modFor u.now) then 2 * (d.odo + c.lapRest (c.modFor u.now)) else 2 * (d.odo + c.lapRest (c.modFor u.now)) + 2)
  rw [hmod, move_congr hph htn] at sp stn
  refine ⟨sp.trans hmove.1, stn.trans hmove.2, sl, fun ho => ⟨sf (hout ho).2, ?_, ?_⟩⟩
  · rw [se, sh (hout ho).1]; rfl
  · rw [sh (hout ho).1]; rfl

theorem mainsStep_stepping (u : State) (n : Nat) (out : Bool) (st : Time) :
    Stepping u (u.mainsStep n out st).1 ∧ (∀ j, j ≠ n → (u.cell j).mode ≠ 5 → (u.mainsStep n out st).1.cell j = u.cell j) ∧
      ((u.mainsStep n out st).1.cell n).mode = (u.cell n).mode := by
  rw [mainsStep_eq]
  refine ⟨((Stepping.refl u).setCell n _).stepCell 64 n _ st _, fun j hj h5 => ?_, ?_⟩
  · rw [stepCell_frame _ _ _ _ _ _ j hj (.inr (by simpa [hj] using h5))]
    simp [hj]
  · rw [Cell.mode, stepCell_ctrl 63]
    simp [Cell.mode, (crossed_rest _ _ _ _).1]

/-- A crossing at each of several cells. -/
theorem mainsSteps (out : Bool) (st : Time) (l : List Nat) (hnd : l.Nodup) (s : State) :
    Stepping s (l.foldl (fun p n => ((p.1.mainsStep n out st).1, p.2 ++ (p.1.mainsStep n out st).2)) (s, [])).1 ∧
      (∀ j ∈ l, (s.cell j).mode = 3 → s.running j = true → (s.cell j).phase.toNat < (s.cell j).modFor s.now → LapEnds out st (s.cell j)
        ((l.foldl (fun p n => ((p.1.mainsStep n out st).1, p.2 ++ (p.1.mainsStep n out st).2)) (s, [])).1.cell j)) ∧
      (∀ j, j ∉ l → (s.cell j).mode ≠ 5 →
        (l.foldl (fun p n => ((p.1.mainsStep n out st).1, p.2 ++ (p.1.mainsStep n out st).2)) (s, [])).1.cell j = s.cell j) := by
  obtain ⟨hst, hin, hout⟩ := foldSteps (s := s) (op := fun u n => u.mainsStep n out st)
    (R := fun n c d => c.mode = 3 → (c.en && !s.held n && !s.frozen n) = true → c.phase.toNat < c.modFor s.now → LapEnds out st c d)
    (fun u n h => by
      obtain ⟨h1, h2, h3⟩ := mainsStep_stepping u n out st
      refine ⟨h.trans h1, h2, fun _ => ⟨fun hm hrun hp => mainsStep_lapEnds u n out st hm ?_ (by rwa [h.now]), h3⟩⟩
      rw [State.running, h.held, h.frozen]
      exact hrun)
    l hnd s [] (.refl s)
  exact ⟨hst, fun j hj hm hrun hp => hin j hj (by rw [hm]; decide) hm hrun hp, hout⟩

/-- Awake, a watched event changes at most how the part goes to Rest. -/
theorem watchEvent_awake {s : State} (hr : s.resting = false) (code : Nat) :
    (s.watchEvent code).axes = s.axes ∧ (s.watchEvent code).now = s.now ∧ (s.watchEvent code).resting = false := by
  unfold State.watchEvent State.wake
  dsimp only
  split
  · exact ⟨rfl, rfl, hr⟩
  · cases hst : s.und.st <;> simp [State.resting, hst] at hr ⊢

/-- The crossing's period lies outside 40 Hz to 70 Hz. -/
def MainsIn.outOfRange (x : MainsIn) (stamp : Time) : Bool :=
  x.lastX.elim false fun l => decide (stamp - l < 114288000) || decide (200000000 < stamp - l)

/-- The input once it has crossed. -/
def MainsIn.crossed (x : MainsIn) (stamp : Time) : MainsIn :=
  { x with lastX := some stamp, range := x.range || x.outOfRange stamp, period := x.lastX.elim x.period fun l => BitVec.ofNat 32 (stamp - l) }

/-- R46: a crossing of an enabled input is noted there, and steps its cells. -/
theorem mainsCross_awake {s : State} (hr : s.resting = false) (i : Nat) (stamp : Time) (hc : bit (s.mainsIn i).ctrl 0 = true) :
    ∃ w : State, w.axes = (s.setMainsIn i ((s.mainsIn i).crossed stamp)).axes ∧ w.now = s.now ∧
      s.mainsCross i stamp =
        let p := (w.bound 3 i).foldl (fun (p : State × List StepEv) n =>
          ((p.1.mainsStep n ((s.mainsIn i).outOfRange stamp) stamp).1, p.2 ++ (p.1.mainsStep n ((s.mainsIn i).outOfRange stamp) stamp).2)) (w, [])
        p.1.react p.2 := by
  have hout : ((s.mainsIn i).lastX.isSome &&
      (decide (stamp - (s.mainsIn i).lastX.getD stamp < 114288000) || decide (200000000 < stamp - (s.mainsIn i).lastX.getD stamp))) =
        (s.mainsIn i).outOfRange stamp := by
    unfold MainsIn.outOfRange
    cases (s.mainsIn i).lastX <;> rfl
  have hper : (if (s.mainsIn i).lastX.isSome = true then BitVec.ofNat 32 (stamp - (s.mainsIn i).lastX.getD stamp) else (s.mainsIn i).period) =
      (s.mainsIn i).lastX.elim (s.mainsIn i).period fun l => BitVec.ofNat 32 (stamp - l) := by
    cases (s.mainsIn i).lastX <;> rfl
  unfold State.mainsCross
  dsimp only
  rw [if_neg (by simp [hc]), hout, hper]
  generalize hv : s.setMainsIn i ((s.mainsIn i).crossed stamp) = v
  rw [MainsIn.crossed] at hv
  generalize (s.mainsIn i).outOfRange stamp = out at *
  have hr1 : v.resting = false := by rw [← hv]; exact hr
  have hn1 : v.now = s.now := by rw [← hv]; rfl
  rw [hv]
  cases out
  · refine ⟨v, rfl, hn1, ?_⟩
    simp only [hr1, Bool.false_eq_true, if_false]
  · obtain ⟨ha, hn, hw⟩ := watchEvent_awake (s := v.report (24 + i)) (by simpa using hr1) (0x12 + i)
    refine ⟨(v.report (24 + i)).watchEvent (0x12 + i), ha, hn.trans hn1, ?_⟩
    simp only [hr1, hw, Bool.false_eq_true, if_false, if_true]

theorem mainsCross_spec {s : State} (hr : s.resting = false) (i : Nat) (stamp : Time) (hc : bit (s.mainsIn i).ctrl 0 = true) :
    (s.mainsCross i stamp).mainsIn i = (s.mainsIn i).crossed stamp ∧
      (∀ n < 64, (s.cell n).mode = 3 → (s.cell n).src = i → s.running n = true → (s.cell n).phase.toNat < (s.cell n).modFor s.now →
        LapEnds ((s.mainsIn i).outOfRange stamp) stamp (s.cell n) ((s.mainsCross i stamp).cell n)) ∧
      (∀ n, (s.cell n).mode ≠ 5 → ¬(n < 64 ∧ (s.cell n).mode = 3 ∧ (s.cell n).src = i) → (s.mainsCross i stamp).cell n = s.cell n) := by
  obtain ⟨w, hax, hnow, heq⟩ := mainsCross_awake hr i stamp hc
  obtain ⟨hst, hin, hout⟩ := mainsSteps ((s.mainsIn i).outOfRange stamp) stamp (w.bound 3 i) (bound_nodup w 3 i) w
  have hcell : ∀ n, w.cell n = s.cell n := fun n => cell_of_axes (u := w) (s := s.setMainsIn i ((s.mainsIn i).crossed stamp)) hax n
  have hrun : ∀ n, w.running n = s.running n := fun n => by
    simp only [State.running, State.held, State.frozen, hcell, hax]
    rfl
  rw [heq]
  dsimp only
  simp only [react_cell]
  refine ⟨?_, fun n hn hm hs hr hp => ?_, fun n h5 hn => ?_⟩
  · rw [State.mainsIn, ((Stepping.refl _).react _).mains, hst.mains, hax]
    exact (State.setMainsIn_mainsIn ..).trans (if_pos rfl)
  · have h := hin n (mem_bound.2 ⟨hn, by rwa [hcell], by rwa [hcell]⟩) (by rwa [hcell]) (by rwa [hrun]) (by rwa [hcell, hnow])
    rwa [hcell] at h
  · rw [hout n (fun h => hn (by simpa only [hcell] using mem_bound.1 h)) (by rwa [hcell]), hcell]

theorem exec_mainsCrossing_up {t : Time} {i : Fin 2} {l : List (Time × Bool)} {s : State} (hup : s.up = true) :
    exec (.mainsCrossing t i l) s =
      .next ((l.foldl (fun u p => u.mainsEdge i (min p.1 u.now) p.2) (s.arrive t)).mainsQual i (max s.now t)) := by
  change execMainsCrossing t i l s = _
  rw [execMainsCrossing, liveEvent_live (live_of_up hup)]
  rfl

theorem mainsQual_idle {s : State} {i : Nat} {t : Time}
    (h : (s.mainsIn i).raw = false ∨ (s.mainsIn i).level = true ∨ t < (s.mainsIn i).rawT + us (fld (s.mainsIn i).ctrl 8 8)) :
    s.mainsQual i t = s := by
  unfold State.mainsQual
  dsimp only
  rw [if_neg]
  simp only [Bool.and_eq_true, Bool.not_eq_true', decide_eq_true_eq, not_and, Nat.not_le]
  rintro ⟨hr, hl⟩
  rcases h with h | h | h
  · exact absurd (h.symm.trans hr) Bool.false_ne_true
  · exact absurd (hl.symm.trans h) Bool.false_ne_true
  · exact h

theorem mainsQual_due {s : State} {i : Nat} {t : Time} (hr : (s.mainsIn i).raw = true) (hl : (s.mainsIn i).level = false)
    (ht : (s.mainsIn i).rawT + us (fld (s.mainsIn i).ctrl 8 8) ≤ t) :
    s.mainsQual i t = (s.setMainsIn i { s.mainsIn i with level := true }).mainsCross i (s.mainsIn i).rawT := by
  unfold State.mainsQual
  dsimp only
  rw [if_pos (by simpa [hr, hl] using ht)]

/-- The comparator falls while its level is not qualified, or has been. -/
theorem mainsEdge_falls {s : State} {i : Nat} (τ : Time) (h : (s.mainsIn i).raw = false ∨ (s.mainsIn i).level = true) :
    s.mainsEdge i τ false =
      if (s.mainsIn i).raw then s.setMainsIn i { s.mainsIn i with raw := false, rawT := τ, level := false } else s := by
  unfold State.mainsEdge
  rw [mainsQual_idle (h.imp id .inl)]
  cases hr : (s.mainsIn i).raw <;> simp [hr]

/-! ## Cells whose samples stay away (R55, R69) -/

theorem mirrorTimeout_loses {t : Time} {c : Fin 64} {s : State} {x : Cell} (hup : s.up = true) (hx : x = s.cell c) (hm : x.mode = 7)
    (he : x.en = true) (ho : x.mirOut = false) (hd : x.mirLast + fld x.mirrorSrc 16 8 * s.tCyc ≤ max s.now t) :
    exec (.mirrorTimeout t c) s = .next ((((s.arrive t).setCell c { x with mirOut := true }).loseCell c).report (32 + c)) := by
  subst hx
  change execMirrorTimeout t c s = _
  rw [execMirrorTimeout, engineEvent_up hup]
  have hcell : (s.arrive t).cell c = s.cell c := rfl
  have hnow : (s.arrive t).now = max s.now t := rfl
  have hcyc : (s.arrive t).tCyc = s.tCyc := rfl
  generalize s.arrive t = a at *
  simp only [hcell, hnow, hcyc, hm, he, ho, Nat.not_lt.2 hd, ne_eq, not_true_eq_false, decide_false, Bool.not_true, Bool.or_self,
    Bool.false_eq_true, if_false]

theorem exec_standstill_up {t : Time} {c : Fin 64} {s : State} {l : Time} (hup : s.up = true) (hl : (s.cell c).stillLimit = some l)
    (hf : s.frozen c = false) :
    exec (.standstill t c) s = .next (if max s.now t ≤ l then s.arrive t
      else ((s.arrive t).putCell c ((s.cell c).drop .standstill (max s.now t))).cellChange c .other) := by
  change execStandstill t c s = _
  rw [execStandstill, engineEvent_up hup]
  have hcell : (s.arrive t).cell c = s.cell c := rfl
  have hnow : (s.arrive t).now = max s.now t := rfl
  have hfz : (s.arrive t).frozen c = s.frozen c := rfl
  generalize s.arrive t = a at *
  simp only [hcell, hnow, hl, hfz, hf, Bool.or_false, decide_eq_true_eq]

theorem putCell_aims (s : State) (n : Nat) (c : Cell) : Aims s ((s.putCell n c).cellChange n .other) :=
  (setCell_aims s n _).trans (cellChange_aims _ n .other)

theorem loseCell_aims (s : State) (n : Nat) : Aims s (s.loseCell n) := by
  unfold State.loseCell
  exact putCell_aims s n _

theorem report_raises (s : State) {n : Nat} (h : n < 256) : (s.report n).fc.raised.getLsbD n = true := by
  simp only [State.report, BitVec.getLsbD_or, BitVec.getLsbD_ofNat, h, decide_true, Bool.true_and, Nat.one_shiftLeft, Nat.testBit_two_pow_self,
    Bool.or_true]

/-- Cell `n` has lost its source. -/
theorem loseCell_at (u : State) (n : Nat) :
    ((u.loseCell n).cell n).mirOut = (u.cell n).mirOut ∧ ((u.loseCell n).cell n).flags = (u.cell n).flags ||| 0x1000 ∧
      (u.held n = false → u.frozen n = false → ((u.loseCell n).cell n).est = .lost) ∧
      (u.held n = true ∨ u.frozen n = true → ((u.loseCell n).cell n).est = (u.cell n).est ∧ ((u.loseCell n).cell n).hist = (u.cell n).hist) ∧
      ((u.loseCell n).cell n).phase = (u.cell n).phase ∧ ((u.loseCell n).cell n).turn = (u.cell n).turn := by
  rw [loseCell_cell, if_pos rfl]
  by_cases h : (u.held n || u.frozen n) = true
  · rw [if_pos h]
    exact ⟨rfl, rfl, fun hh hf => by simp [hh, hf] at h, fun _ => ⟨rfl, rfl⟩, rfl, rfl⟩
  · rw [if_neg h]
    exact ⟨rfl, rfl, fun _ _ => rfl, fun hst => absurd (by simpa using hst) h, rfl, rfl⟩

/-- The loss of a mirror leaves the position. -/
theorem mirrorLoss_spec (s : State) (c : Fin 64) :
    ∃ u, ((s.setCell c { s.cell c with mirOut := true }).loseCell c).report (32 + c) = u ∧
      (u.cell c).mirOut = true ∧ (u.cell c).flags = (s.cell c).flags ||| 0x1000 ∧
      (s.held c = false → s.frozen c = false → (u.cell c).est = .lost) ∧
      (s.held c = true ∨ s.frozen c = true → (u.cell c).est = (s.cell c).est ∧ (u.cell c).hist = (s.cell c).hist) ∧
      (u.cell c).phase = (s.cell c).phase ∧ (u.cell c).turn = (s.cell c).turn ∧ u.fc.raised.getLsbD (32 + c) = true ∧
      (∀ n, n ≠ c.val → u.cell n = s.cell n) ∧ Aims s u := by
  obtain ⟨ho, hf, hlost, hstand, hph, htn⟩ := loseCell_at (s.setCell c { s.cell c with mirOut := true }) c
  simp only [State.setCell_cell, if_true] at ho hf hlost hstand hph htn
  refine ⟨_, rfl, ?_⟩
  simp only [State.report_cell]
  refine ⟨ho, hf, hlost, hstand, hph, htn, report_raises _ (by omega), fun n hn => ?_, ?_⟩
  · rw [loseCell_cell, if_neg hn, State.setCell_cell, if_neg hn]
  · exact ((setCell_aims s c _).trans (loseCell_aims _ c)).trans (.ofQuiet (kept_report (.refl _)))

/-- Settles O3: a crossing by what it does at the input and at each bound cell, silence by the cell that is lost or stands still. -/
theorem crossingsEndTheLapAndSilenceIsNoticed : Obligations.CrossingsEndTheLapAndSilenceIsNoticed := by
  refine ⟨⟨?_, ?_⟩, ?_, ?_⟩
  · rintro t i stamp s x out hup rfl hc hr hl rfl ht hout
    have hexec := exec_mainsCrossing_up (t := t) (i := i) (l := []) hup
    rw [List.foldl_nil, mainsQual_due (s := s.arrive t) hr hl ht] at hexec
    obtain ⟨hin, hcells, hrest⟩ := mainsCross_spec (s := (s.arrive t).setMainsIn i { s.mainsIn i with level := true }) (awake_of_up hup) i
      (s.mainsIn i).rawT (by simpa using hc)
    simp only [State.setMainsIn_mainsIn, if_true] at hin hcells
    refine ⟨_, hexec, ?_, fun n hn hm hs hrun hp => ?_, hrest, exec_mainsCrossing_kept hexec⟩
    · rw [State.arrive_mainsIn, hin, hout]
      rfl
    · have h := hcells n hn hm hs hrun hp
      exact ⟨h.phase, h.turn, h.lastT, fun ho => h.restarted (hout.symm.trans ho)⟩
  · rintro t i s x hup rfl h
    refine ⟨?_, fun h2 τ => ?_⟩
    · rw [exec_mainsCrossing_up hup, List.foldl_nil, mainsQual_idle (s := s.arrive t) h]
    · rw [exec_mainsCrossing_up hup, List.foldl_cons, List.foldl_nil, mainsEdge_falls (s := s.arrive t) _ h2, State.arrive_mainsIn]
      split
      · rw [mainsQual_idle (.inl (by simp))]
        rfl
      · next hr => rw [mainsQual_idle (.inl (by simpa using hr))]
  · intro t c s hup hm he ho hd
    rw [mirrorTimeout_loses hup rfl hm he ho hd]
    obtain ⟨u, hu, h⟩ := mirrorLoss_spec (s.arrive t) c
    exact ⟨u, congrArg _ hu, h⟩
  · intro t c s l hup hf hl
    rw [exec_standstill_up hup hl hf]
    refine ⟨fun h => ?_, fun h => by rw [if_pos h]⟩
    rw [if_neg (Nat.not_le.2 h)]
    refine ⟨_, rfl, ?_⟩
    have hc : ∀ n, (((s.arrive t).putCell c ((s.cell c).drop .standstill (max s.now t))).cellChange c .other).cell n =
        if n = c.val then (s.cell c).remember ((s.cell c).drop .standstill (max s.now t)) (s.held c) (s.frozen c) (max s.now t) (max s.now t)
        else s.cell n := fun n => by
      rw [cellChange_cell]
      exact State.setCell_cell ..
    refine ⟨?_, ?_, ?_, fun n hn => by rw [hc, if_neg hn], putCell_aims _ _ _⟩
    all_goals
      rw [hc, if_pos rfl]
      rfl

end Sys2Proof.Machine
end


section
/-! PROOFS. The registers of a cell that load and configure it (02_counter_cells.md). -/

namespace Sys2Proof.Machine

/-! ## LOAD_GO (R61, R62) -/

theorem Cell.restart_rest (c : Cell) (base : Time) (r : Bool) :
    (c.restart base r).hist = c.hist ∧ (c.restart base r).est = c.est ∧ (c.restart base r).odo = c.odo ∧ (c.restart base r).flags = c.flags := by
  unfold Cell.restart
  split
  · exact ⟨rfl, rfl, rfl, rfl⟩
  · split
    · split <;> exact ⟨rfl, rfl, rfl, rfl⟩
    · exact ⟨rfl, rfl, rfl, rfl⟩

theorem loadCell_aims (s : State) (n : Nat) (turn : BitVec 48) (p : Word) : Aims s (s.loadCell n turn p).2 := by
  unfold State.loadCell
  dsimp only
  split
  · exact setCell_aims s n _
  · exact (setCell_aims s n _).trans (cellChange_aims _ n _)

theorem loadCell_taken (s : State) (n : Nat) (turn : BitVec 48) (p : Word) (h : p.toNat < (s.cell n).modN) :
    ∃ d, (s.loadCell n turn p).2.cell n = d ∧ d.turn = turn ∧ d.phase = p ∧ d.frac = 0 ∧ d.loadAt = some (cyc s.now) ∧
      d.hist = (s.cell n).hist ∧ d.est = (s.cell n).est ∧ d.odo = (s.cell n).odo ∧ d.flags = (s.cell n).flags := by
  rw [loadCell_cell, if_neg (by simp), if_neg (by omega)]
  exact ⟨_, rfl, rfl, rfl, rfl, rfl, Cell.restart_rest _ _ _⟩

theorem loadCell_rejected (s : State) (n : Nat) (turn : BitVec 48) (p : Word) (h : (s.cell n).modN ≤ p.toNat) :
    (s.loadCell n turn p).2 = s.setCell n { s.cell n with flags := (s.cell n).flags ||| 0x8000 } := by
  unfold State.loadCell
  dsimp only
  rw [if_pos h]

theorem fracAt_of_load (c : Cell) (t : Time) (he : c.est = .linear ∨ c.est = .full) (hl : c.loadAt = some (cyc t)) : c.fracAt t = 0 := by
  rcases he with he | he <;> simp [Cell.fracAt, he, hl]

/-! ## CELL_CTRL (R31, R32) -/

/-- CELL_CTRL is refused as a whole. -/
abbrev ctrlRefused (n : Nat) (x : Cell) (w : Word) : Prop :=
  ctrlRange n w = false ∨ x.en = true ∧ (fld w 1 7 ≠ fld x.ctrl 1 7 ∨ bit w 11 ≠ x.initAbs)

theorem cellCtrl_refused {s : State} {n : Nat} {v : Word} (h : ctrlRefused n (s.cell n) (v &&& 0xFFF)) :
    s.cellCtrl n v = s.setCell n { s.cell n with flags := (s.cell n).flags ||| 0x4000 } := by
  unfold State.cellCtrl
  dsimp only
  rw [if_pos]
  simpa [ctrlRefused] using h

theorem cellCtrl_accepted {s : State} {n : Nat} {v : Word} (h : ¬ctrlRefused n (s.cell n) (v &&& 0xFFF)) :
    s.cellCtrl n v =
      if (s.cell n).en && !bit (v &&& 0xFFF) 0 then
        (s.putCell n { (s.cell n).drop .idle s.now with ctrl := v &&& 0xFFF, pausedAt := none, frac := s.fracOf n s.now }).cellChange n .other
      else if !(s.cell n).en && bit (v &&& 0xFFF) 0 then
        (s.putCell n ({ s.cell n with ctrl := v &&& 0xFFF }.start (s.held n) (s.frozen n) s.now)).cellChange n .other
      else s.putCell n { s.cell n with ctrl := v &&& 0xFFF } := by
  unfold State.cellCtrl
  dsimp only
  rw [if_neg]
  simpa [ctrlRefused] using h

theorem putCell_cell (s : State) (n : Nat) (c : Cell) (j : Nat) :
    (s.putCell n c).cell j = if j = n then (s.cell n).remember c (s.held n) (s.frozen n) s.now s.now else s.cell j :=
  State.setCell_cell ..

theorem putCell_change_cell (s : State) (n : Nat) (c : Cell) (k : Change) (j : Nat) :
    ((s.putCell n c).cellChange n k).cell j = if j = n then (s.cell n).remember c (s.held n) (s.frozen n) s.now s.now else s.cell j := by
  rw [cellChange_cell, putCell_cell]

theorem cellCtrl_frame (s : State) (n : Nat) (v : Word) (j : Nat) (h : j ≠ n) : (s.cellCtrl n v).cell j = s.cell j := by
  by_cases hr : ctrlRefused n (s.cell n) (v &&& 0xFFF)
  · rw [cellCtrl_refused hr]
    simp [h]
  · rw [cellCtrl_accepted hr]
    split
    · rw [putCell_change_cell, if_neg h]
    · split
      · rw [putCell_change_cell, if_neg h]
      · rw [putCell_cell, if_neg h]

theorem cellCtrl_aims (s : State) (n : Nat) (v : Word) : Aims s (s.cellCtrl n v) := by
  by_cases hr : ctrlRefused n (s.cell n) (v &&& 0xFFF)
  · rw [cellCtrl_refused hr]
    exact setCell_aims s n _
  · rw [cellCtrl_accepted hr]
    split
    · exact putCell_aims s n _
    · split
      · exact putCell_aims s n _
      · exact setCell_aims s n _

/-- EN 0: the cell stops where it stands. -/
theorem cellCtrl_stops {s : State} {n : Nat} {v : Word} (hr : ¬ctrlRefused n (s.cell n) (v &&& 0xFFF)) (he : (s.cell n).en = true)
    (hv : bit (v &&& 0xFFF) 0 = false) :
    (s.cellCtrl n v).cell n = { s.cell n with ctrl := v &&& 0xFFF, frac := s.fracOf n s.now, est := .idle, hist := [], pausedAt := none,
                                              past := ((s.cellCtrl n v).cell n).past } := by
  rw [cellCtrl_accepted hr, if_pos (by simp only [he, hv]; decide), putCell_change_cell, if_pos rfl]
  rfl

/-- EN rises: the cell starts from where it stands. -/
theorem cellCtrl_starts {s : State} {n : Nat} {v : Word} (hr : ¬ctrlRefused n (s.cell n) (v &&& 0xFFF)) (he : (s.cell n).en = false)
    (hv : bit (v &&& 0xFFF) 0 = true) :
    (s.cellCtrl n v).cell n = (s.cell n).remember ({ s.cell n with ctrl := v &&& 0xFFF }.start (s.held n) (s.frozen n) s.now)
      (s.held n) (s.frozen n) s.now s.now := by
  rw [cellCtrl_accepted hr, if_neg (by simp only [he, hv]; decide), if_pos (by simp only [he, hv]; decide), putCell_change_cell, if_pos rfl]

theorem cellCtrl_puts {s : State} {n : Nat} {v : Word} (hr : ¬ctrlRefused n (s.cell n) (v &&& 0xFFF)) (he : (s.cell n).en = bit (v &&& 0xFFF) 0) :
    (s.cellCtrl n v).cell n = { s.cell n with ctrl := v &&& 0xFFF, past := ((s.cellCtrl n v).cell n).past } := by
  rw [cellCtrl_accepted hr, if_neg (by simp [he]), if_neg (by simp [he]), putCell_cell, if_pos rfl]
  rfl

/-! ## CELL_MOD (R59, R60) -/

/-- The cell with its new modulus, in force from the next cycle on. -/
def Cell.newMod (c : Cell) (now : Time) (v : Word) : Cell :=
  { c with modAct := if c.modAt = some (cyc now) then c.modAct else c.mod, modAt := some (cyc now), mod := v, reload := true }

/-- The compare units of the cell judge their range anew. -/
theorem rangeChecks_ran (s : State) (n : Nat) (l : List Nat) :
    Ran s (l.foldl (fun s k => if (s.cmp k).cell = n then s.cmpRangeCheck k else s) s) := by
  refine Ran.foldl _ (fun u k h => ?_) l (.refl s)
  split
  · exact kept_cmpRangeCheck h
  · exact h

theorem writeMod_axes (s : State) (n : Nat) (v : Word) :
    (s.writeMod n v).axes = ((s.putCell n (if (s.cell n).mode = 3 then
      { ((s.cell n).newMod s.now v).drop .idle s.now with frac := s.fracOf n s.now } else (s.cell n).newMod s.now v)).cellChange n .modulus).axes :=
  (rangeChecks_ran _ n _).axes

theorem writeMod_cell (s : State) (n : Nat) (v : Word) (j : Nat) :
    (s.writeMod n v).cell j = if j = n then (s.cell n).remember (if (s.cell n).mode = 3 then
      { ((s.cell n).newMod s.now v).drop .idle s.now with frac := s.fracOf n s.now } else (s.cell n).newMod s.now v)
      (s.held n) (s.frozen n) s.now s.now else s.cell j := by
  rw [cell_of_axes (writeMod_axes s n v), putCell_change_cell]

theorem newMod_modFor (c : Cell) (now : Time) (v : Word) : (c.newMod now v).modFor now = c.modFor now := by
  by_cases h : c.modAt = some (cyc now) <;> simp [Cell.newMod, Cell.modFor, Cell.modN, h]

theorem newMod_modFor_later (c : Cell) (now : Time) (v : Word) {t : Time} (h : cyc t ≠ cyc now) : (c.newMod now v).modFor t = zero32 v := by
  simp [Cell.newMod, Cell.modFor, Cell.modN, h.symm]

/-- What a write of CELL_MOD leaves of its cell. -/
theorem writeMod_at (s : State) (n : Nat) (v : Word) :
    ((s.writeMod n v).cell n).mod = v ∧ ((s.writeMod n v).cell n).modFor s.now = (s.cell n).modFor s.now ∧
      (∀ t, cyc t ≠ cyc s.now → ((s.writeMod n v).cell n).modFor t = zero32 v) ∧
      ((s.writeMod n v).cell n).phase = (s.cell n).phase ∧ ((s.writeMod n v).cell n).turn = (s.cell n).turn ∧
      ((s.cell n).mode = 3 → ((s.writeMod n v).cell n).est = .idle ∧ ((s.writeMod n v).cell n).hist = []) ∧
      ((s.cell n).mode ≠ 3 → ((s.writeMod n v).cell n).est = (s.cell n).est ∧ ((s.writeMod n v).cell n).hist = (s.cell n).hist) := by
  rw [writeMod_cell, if_pos rfl]
  by_cases h : (s.cell n).mode = 3
  · rw [if_pos h]
    exact ⟨rfl, newMod_modFor _ _ _, fun t ht => newMod_modFor_later _ _ _ ht, rfl, rfl, fun _ => ⟨rfl, rfl⟩, fun h3 => absurd h h3⟩
  · rw [if_neg h]
    exact ⟨rfl, newMod_modFor _ _ _, fun t ht => newMod_modFor_later _ _ _ ht, rfl, rfl, fun h3 => absurd h3 h, fun _ => ⟨rfl, rfl⟩⟩

theorem Cell.start_est (c : Cell) (w : Word) (held frozen : Bool) (now : Time) :
    ({ c with ctrl := w }.start held frozen now).est = if (fld w 1 3 = 4 ∨ fld w 1 3 = 6) ∧ held = false then .exact else .idle := by
  simp only [Cell.start, Cell.exactMode, Bool.and_eq_true, Bool.or_eq_true, decide_eq_true_eq, Bool.not_eq_true']
  rfl

/-- What a write of CELL_CTRL leaves of its cell. -/
theorem cellCtrl_at (s : State) (n : Nat) (v : Word) :
    let x := s.cell n
    let u := s.cellCtrl n v
    let w := v &&& 0xFFF
    if ctrlRefused n x w then u.cell n = { x with flags := x.flags ||| 0x4000 }
    else if x.en = true ∧ bit w 0 = false then
      u.cell n = { x with ctrl := w, frac := s.fracOf n s.now, est := .idle, hist := [], pausedAt := none, past := (u.cell n).past }
    else if x.en = false ∧ bit w 0 = true then
      (u.cell n).ctrl = w ∧ (u.cell n).phase = x.phase ∧ (u.cell n).turn = x.turn ∧ (u.cell n).frac = x.frac ∧ (u.cell n).dir = 2 ∧
      (u.cell n).hist = [] ∧ (u.cell n).quad = 0 ∧ (u.cell n).ser = 0 ∧
      (u.cell n).est = (if (fld w 1 3 = 4 ∨ fld w 1 3 = 6) ∧ s.held n = false then .exact else .idle)
    else u.cell n = { x with ctrl := w, past := (u.cell n).past } := by
  intro x u w
  split
  · next hr => rw [show u = _ from cellCtrl_refused hr, State.setCell_cell, if_pos rfl]
  · next hr =>
    split
    · next h => exact cellCtrl_stops hr h.1 h.2
    · next h1 =>
      split
      · next h =>
        rw [show u.cell n = _ from cellCtrl_starts hr h.1 h.2]
        exact ⟨rfl, rfl, rfl, rfl, rfl, rfl, rfl, rfl, Cell.start_est x w (s.held n) (s.frozen n) s.now⟩
      · next h2 =>
        refine cellCtrl_puts hr ?_
        rw [not_and, Bool.not_eq_false] at h1
        rw [not_and, Bool.not_eq_true] at h2
        cases he : (s.cell n).en
        · exact (h2 he).symm
        · exact (h1 he).symm

/-- Settles O5: a load taken, rejected or not asked for; CELL_CTRL by whether it is refused and how EN changes; CELL_MOD and the offset by the cell
they write. -/
theorem cellRegistersLoadAndConfigureTheCell : Obligations.CellRegistersLoadAndConfigureTheCell := by
  refine ⟨⟨?_, fracAt_of_load, ?_, ?_⟩, ?_, ?_, ?_⟩
  · intro t m c v s hs hv hp
    have hexec : exec (.loadGo t m c v) s = .next ((s.arrive t).loadGo c v) := regWrite_serves (f := fun s => s.loadGo c v) hs
    have hload : (s.arrive t).loadGo c v = ((s.arrive t).loadCell c
      (BitVec.ofNat 48 (fld (s.cell c).loadT 16 16 + (s.cell c).loadTurnHi.toNat * 65536)) (s.cell c).loadPhase).2 := if_pos hv
    obtain ⟨d, hd, htn, hph, hfr, hla, hhi, hes, hod, hfl⟩ := loadCell_taken (s.arrive t) c
      (BitVec.ofNat 48 (fld (s.cell c).loadT 16 16 + (s.cell c).loadTurnHi.toNat * 65536)) (s.cell c).loadPhase hp
    rw [hexec, hload]
    refine ⟨_, rfl, ?_⟩
    rw [hd]
    exact ⟨htn, hph, hfr, hla, hhi, hes, hod, hfl, fun n hn => loadCell_frame _ _ _ _ n hn, loadCell_aims _ _ _ _⟩
  · intro t m c v s hs hv hp
    have hexec : exec (.loadGo t m c v) s = .next ((s.arrive t).loadGo c v) := regWrite_serves (f := fun s => s.loadGo c v) hs
    rw [hexec, State.loadGo, if_pos hv]
    exact congrArg _ (loadCell_rejected (s.arrive t) c _ _ hp)
  · intro t m c v s hs hv
    have hexec : exec (.loadGo t m c v) s = .next ((s.arrive t).loadGo c v) := regWrite_serves (f := fun s => s.loadGo c v) hs
    rw [hexec, State.loadGo, if_neg (by simp [hv])]
  · intro t m c v s hs
    refine ⟨_, regWrite_serves (f := fun s => s.cellCtrl c v) hs, ?_, fun n hn => cellCtrl_frame _ _ _ n hn, cellCtrl_aims _ _ _⟩
    exact cellCtrl_at (s.arrive t) c v
  · intro t m c v s hs
    have hexec : exec (.cellModWrite t m c v) s = .next ((s.arrive t).writeMod c v) := regWrite_serves (f := fun s => s.writeMod c v) hs
    refine ⟨_, hexec, ?_⟩
    obtain ⟨hmod, hnow, hlater, hph, htn, hmains, hother⟩ := writeMod_at (s.arrive t) c v
    exact ⟨hmod, hnow, hlater, hph, htn, hmains, hother, fun n hn => by rw [writeMod_cell, if_neg hn, State.arrive_cell],
      exec_cellModWrite_kept hexec⟩
  · intro t m c v s hs
    exact regWrite_serves (f := fun s => s.mirrorHi c v) hs

end Sys2Proof.Machine
end


section
/-! PROOFS. The registers of a compare unit arm and disarm it (03_compare_capture_start.md). -/

namespace Sys2Proof.Machine

/-- Unit `k` has become `x`, but for what the scheduler and the records keep; no other unit has changed. -/
structure CmpPut (k : Nat) (x : Cmp) (s u : State) : Prop where
  same : CmpSame x (u.cmp k)
  other : ∀ j, j ≠ k → u.cmp j = s.cmp j
  caps : u.caps = s.caps
  ran : Ran s u

namespace CmpPut

variable {k : Nat} {x y : Cmp} {s u w : State}

theorem of_set (s : State) (k : Nat) {y : Cmp} (h : CmpSame x y) : CmpPut k x s (s.setCmp k y) :=
  ⟨by simpa using h, fun j hj => by simp [hj], rfl, Ran.put (.refl s) rfl⟩

theorem only (h : CmpPut k x s u) (g : CmpOnly k u w) : CmpPut k x s w :=
  ⟨h.same.trans g.same, fun j hj => (g.other j hj).trans (h.other j hj), g.caps.trans h.caps, h.ran.trans g.ran⟩

theorem set (h : CmpPut k x s u) {z : Cmp} (hz : CmpSame y z) : CmpPut k y s (u.setCmp k z) :=
  ⟨by simpa using hz, fun j hj => by simpa [hj] using h.other j hj, h.caps, Ran.put h.ran rfl⟩

theorem arm (h : CmpPut k x s u) (a : Option Nat) :
    CmpPut k { x with armed := true, hystWait := false, armedAt := a } s (u.cmpArm k a) :=
  (h.set ⟨by rw [h.same.eq]⟩).only (cmpArm_only u k a)

theorem disarm (h : CmpPut k x s u) : CmpPut k { x with armed := false, hystWait := false } s (u.cmpDisarm k) :=
  (h.set ⟨by rw [h.same.eq]⟩).only (cmpDisarm_only u k).1

end CmpPut

/-- R82, R85, R94, R97: CMP_CTRL values that the unit refuses. -/
theorem Cmp.refuses_iff (u : Cmp) (k : Nat) (v : Word) :
    u.refuses k v = true ↔ fld v 1 2 = 3 ∨ fld v 4 2 = 3 ∨ k = 0 ∧ bit v 6 = true ∨
      u.en = true ∧ (fld v 10 6 ≠ u.cell ∨ fld v 4 2 ≠ u.repeat_ ∨ bit v 6 ≠ u.chain) := by
  simp [Cmp.refuses, or_assoc]

/-- The bits of CMP_CTRL that arm a unit are bits of its register. -/
theorem cmpCtrl_mask (v : Word) : bit (v &&& 0x0FFFFDFF) 0 = bit v 0 ∧ bit (v &&& 0x0FFFFDFF) 6 = bit v 6 := by
  simp [bit]

/-- An accepted CMP_CTRL is put in, and then the unit rises, falls or stays as its EN does. -/
theorem cmpCtrl_eq {s : State} {k : Nat} {v : Word} (h : (s.cmp k).refuses k v = false) :
    ∃ w : State, CmpPut k { s.cmp k with ctrl := v &&& 0x0FFFFDFF } s w ∧
      s.cmpCtrl k v = if !(s.cmp k).en && bit v 0 then
          if bit v 6 then w.setCmp k { w.cmp k with fcnt := 0 } else (w.setCmp k { w.cmp k with fcnt := 0 }).cmpArm k (some (cyc s.now))
        else if (s.cmp k).en && !bit v 0 then w.cmpDisarm k
        else w.cmpPredict k := by
  obtain ⟨h0, h6⟩ := cmpCtrl_mask v
  unfold State.cmpCtrl
  dsimp only
  rw [if_neg (by simp [h]), h0, h6]
  exact ⟨_, .of_set s k ⟨rfl⟩, rfl⟩

theorem cmpCtrl_accepted {s : State} {k : Nat} {v : Word} (h : (s.cmp k).refuses k v = false) {x : Cmp} {u : State}
    (hx : x = { s.cmp k with ctrl := v &&& 0x0FFFFDFF }) (hu : u = s.cmpCtrl k v) :
    ((s.cmp k).en = false → bit v 0 = true → bit v 6 = true → CmpPut k { x with fcnt := 0 } s u) ∧
    ((s.cmp k).en = false → bit v 0 = true → bit v 6 = false →
      CmpPut k { x with fcnt := 0, armed := true, hystWait := false, armedAt := some (cyc s.now) } s u) ∧
    ((s.cmp k).en = true → bit v 0 = false → CmpPut k { x with armed := false, hystWait := false } s u ∧ (u.cmp k).entry = false) ∧
    ((s.cmp k).en = bit v 0 → CmpPut k x s u) := by
  obtain ⟨w, hput, heq⟩ := cmpCtrl_eq h
  rw [heq] at hu
  rw [← hx] at hput
  have hzero : CmpPut k { x with fcnt := 0 } s (w.setCmp k { w.cmp k with fcnt := 0 }) := hput.set ⟨by rw [hput.same.eq]⟩
  refine ⟨fun he hv hc => ?_, fun he hv hc => ?_, fun he hv => ?_, fun he => ?_⟩
  · rw [hu]
    simpa [he, hv, hc] using hzero
  · have := hzero.arm (some (cyc s.now))
    rw [hu]
    simpa [he, hv, hc] using this
  · rw [hu]
    simp only [he, hv, Bool.not_true, Bool.false_eq_true, if_false, Bool.not_false, Bool.and_self, if_true]
    exact ⟨hput.disarm, (cmpDisarm_only w k).2⟩
  · rw [hu]
    have := hput.only (cmpPredict_only w k)
    cases hv : bit v 0 <;> simpa [he, hv] using this

/-- However EN changes, only the word, the count and the arming do. -/
theorem cmpCtrl_put {s : State} {k : Nat} {v : Word} (h : (s.cmp k).refuses k v = false) :
    ∃ x, CmpPut k x s (s.cmpCtrl k v) ∧
      x = { s.cmp k with ctrl := v &&& 0x0FFFFDFF, fcnt := x.fcnt, armed := x.armed, hystWait := x.hystWait, armedAt := x.armedAt } := by
  obtain ⟨hchain, harm, hfall, hstay⟩ := cmpCtrl_accepted h rfl rfl
  cases he : (s.cmp k).en <;> cases hv : bit v 0
  · exact ⟨_, hstay (by rw [he, hv]), rfl⟩
  · cases hc : bit v 6
    · exact ⟨_, harm he hv hc, rfl⟩
    · exact ⟨_, hchain he hv hc, rfl⟩
  · exact ⟨_, (hfall he hv).1, rfl⟩
  · exact ⟨_, hstay (by rw [he, hv]), rfl⟩

/-- A new value re-arms an armed unit, or one that waits for its hysteresis. -/
theorem cmpValue_put (s : State) (k : Nat) (turn : Bool) (v : Word) :
    CmpPut k { s.cmp k with phase := if turn then (s.cmp k).phase else v, turn := if turn then v else (s.cmp k).turn,
                            armed := (s.cmp k).armed || (s.cmp k).hystWait, hystWait := false,
                            armedAt := if (s.cmp k).armed || (s.cmp k).hystWait then some (cyc s.now) else (s.cmp k).armedAt }
      s (s.cmpValue k turn v) := by
  unfold State.cmpValue
  dsimp only
  refine CmpPut.only ?_ (cmpRangeCheck_only _ k)
  have hset : CmpPut k { s.cmp k with phase := if turn then (s.cmp k).phase else v, turn := if turn then v else (s.cmp k).turn } s
      (s.setCmp k (if turn then { s.cmp k with turn := v } else { s.cmp k with phase := v })) :=
    .of_set s k ⟨by cases turn <;> rfl⟩
  by_cases h : ((s.cmp k).armed || (s.cmp k).hystWait) = true
  · simp only [h, if_true]
    exact hset.arm (some (cyc s.now))
  · obtain ⟨ha, hw⟩ : (s.cmp k).armed = false ∧ (s.cmp k).hystWait = false := by simpa using h
    simpa only [ha, hw, Bool.or_self, Bool.false_eq_true, if_false] using hset

theorem CmpPut.fields {k : Nat} {x : Cmp} {s u : State} (h : CmpPut k x s u) :
    (u.cmp k).ctrl = x.ctrl ∧ (u.cmp k).phase = x.phase ∧ (u.cmp k).turn = x.turn ∧ (u.cmp k).incr = x.incr ∧ (u.cmp k).armed = x.armed ∧
      (u.cmp k).armedAt = x.armedAt ∧ (u.cmp k).fired = x.fired ∧ (u.cmp k).overrun = x.overrun ∧ (u.cmp k).cfgRej = x.cfgRej ∧
      (u.cmp k).hystWait = x.hystWait ∧ (u.cmp k).ft = x.ft ∧ (u.cmp k).fcnt = x.fcnt ∧ (u.cmp k).pend = x.pend := h.same.fields

/-- Settles O6: CMP_CTRL by whether it is refused and how EN changes, the value by whether the unit is armed. -/
theorem compareRegistersArmAndDisarmTheUnit : Obligations.CompareRegistersArmAndDisarmTheUnit := by
  refine ⟨?_, ?_, ?_⟩
  · intro t m k v s hs hr
    have hexec : exec (.cmpCtrlWrite t m k v) s = .next ((s.arrive t).cmpCtrl k v) := regWrite_serves (f := fun s => s.cmpCtrl k v) hs
    rw [hexec]
    exact congrArg _ (if_pos (((s.cmp k).refuses_iff k v).2 hr))
  · intro t m k v s hs hr
    have hexec : exec (.cmpCtrlWrite t m k v) s = .next ((s.arrive t).cmpCtrl k v) := regWrite_serves (f := fun s => s.cmpCtrl k v) hs
    have hr' : ((s.arrive t).cmp k).refuses k v = false := by
      rw [← Bool.not_eq_true]
      exact fun h => hr (((s.cmp k).refuses_iff k v).1 h)
    obtain ⟨hchain, harm, hfall, hstay⟩ := cmpCtrl_accepted (s := s.arrive t) hr' rfl rfl
    obtain ⟨x, hput, hx⟩ := cmpCtrl_put (s := s.arrive t) hr'
    obtain ⟨fctrl, fphase, fturn, fincr, -, -, ffired, foverrun, -, -, fft, -, fpend⟩ := hput.fields
    rw [hx] at fctrl fphase fturn fincr ffired foverrun fft fpend
    refine ⟨_, hexec, fctrl, fphase, fturn, fincr, fft, ffired, foverrun, fpend, fun he hv => ?_, fun he hv => ?_, fun he => ?_,
      hput.other, hput.caps, hput.ran⟩
    · refine ⟨?_, fun hc => ?_, fun hc => ?_⟩
      · cases hc : bit v 6
        · obtain ⟨-, -, -, -, -, -, -, -, -, -, -, ffcnt, -⟩ := (harm he hv hc).fields
          exact ffcnt
        · obtain ⟨-, -, -, -, -, -, -, -, -, -, -, ffcnt, -⟩ := (hchain he hv hc).fields
          exact ffcnt
      · obtain ⟨-, -, -, -, farmed, farmedAt, -, -, -, fhyst, -⟩ := (harm he hv hc).fields
        exact ⟨farmed, fhyst, farmedAt⟩
      · obtain ⟨-, -, -, -, farmed, -⟩ := (hchain he hv hc).fields
        exact farmed
    · obtain ⟨-, -, -, -, farmed, -, -, -, -, fhyst, -, ffcnt, -⟩ := (hfall he hv).1.fields
      exact ⟨ffcnt, farmed, fhyst, (hfall he hv).2⟩
    · obtain ⟨-, -, -, -, farmed, farmedAt, -, -, -, fhyst, -, ffcnt, -⟩ := (hstay he).fields
      exact ⟨ffcnt, farmed, fhyst, farmedAt⟩
  · intro t m k turn v s hs
    have hexec : exec (.cmpValueWrite t m k turn v) s = .next ((s.arrive t).cmpValue k turn v) :=
      regWrite_serves (f := fun s => s.cmpValue k turn v) hs
    have hput := cmpValue_put (s.arrive t) k turn v
    obtain ⟨fctrl, fphase, fturn, fincr, farmed, farmedAt, ffired, foverrun, -, fhyst, fft, ffcnt, -⟩ := hput.fields
    exact ⟨_, hexec, fphase, fturn, farmed, fhyst, farmedAt, fctrl, fincr, fft, ffcnt, ffired, foverrun, hput.other, hput.caps, hput.ran⟩

end Sys2Proof.Machine
end


section
/-! PROOFS. Capture units (03_compare_capture_start.md). -/

namespace Sys2Proof.Machine

/-- Of the capture units only `j` has changed, to `x` but for its unposted record; of the compare units none. -/
structure CapPut (j : Nat) (x : Cap) (s u : State) : Prop where
  same : u.cap j = { x with pend := (u.cap j).pend }
  other : ∀ i, i ≠ j → u.cap i = s.cap i
  cmps : u.cmps = s.cmps
  ran : Ran s u

namespace CapPut

variable {j : Nat} {x : Cap} {s u w : State}

theorem start (s : State) (j : Nat) : CapPut j (s.cap j) s s := ⟨rfl, fun _ _ => rfl, rfl, .refl s⟩

theorem set (h : CapPut j x s u) (y : Cap) : CapPut j y s (u.setCap j y) :=
  ⟨by simp, fun i hi => by simpa [hi] using h.other i hi, h.cmps, Ran.put h.ran rfl⟩

theorem quiet (h : CapPut j x s u) (q : Quiet u w) : CapPut j x s w := by
  have hc : ∀ i, w.cap i = u.cap i := fun i => by simp [State.cap, q.caps]
  exact ⟨by rw [hc]; exact h.same, fun i hi => (hc i).trans (h.other i hi), q.cmps.trans h.cmps, h.ran.trans q.toRan⟩

theorem setPend (h : CapPut j x s u) (p : Option CapPend) : CapPut j x s (u.setCap j { u.cap j with pend := p }) := by
  refine ⟨?_, fun i hi => by simpa [hi] using h.other i hi, h.cmps, Ran.put h.ran rfl⟩
  rw [State.setCap_cap, if_pos rfl, h.same]

/-- R105: the event record of a capture changes nothing but what waits to be posted. -/
theorem record (h : CapPut j x s u) (r : CapRec) : CapPut j x s (u.capRecord j r) := by
  unfold State.capRecord
  dsimp only
  split
  · exact h.setPend _
  · split
    · exact h
    · split
      · next e => exact h.quiet (kept_eqPost_of e (.refl _))
      · next e => exact (h.quiet (kept_eqPost_of e (.refl _))).setPend _

end CapPut

/-! ## CAP_CTRL (R98, R99) -/

theorem Cap.refuses_iff (u : Cap) (v : Word) :
    u.refuses v = true ↔ capRange (fld v 1 3) ≤ fld v 4 8 ∨ fld v 12 2 = 3 ∨
      u.en = true ∧ (fld v 1 3 ≠ u.kind ∨ fld v 4 8 ≠ u.index ∨ fld v 14 6 ≠ u.cell) := by
  simp [Cap.refuses, or_assoc]

theorem capCtrl_eq (s : State) (j : Nat) (v : Word) :
    s.capCtrl j v = s.setCap j
      (if capRange (fld v 1 3) ≤ fld v 4 8 ∨ fld v 12 2 = 3 ∨ (s.cap j).en = true ∧
          (fld v 1 3 ≠ (s.cap j).kind ∨ fld v 4 8 ≠ (s.cap j).index ∨ fld v 14 6 ≠ (s.cap j).cell) then
        { s.cap j with cfgRej := true }
      else if (s.cap j).en = false ∧ bit v 0 = true then
        { s.cap j with ctrl := v &&& 0x3FFFFF, fifo := [], pcnt := 0, ovfBefore := false, epoch := (s.cap j).epoch + 1 }
      else { s.cap j with ctrl := v &&& 0x3FFFFF }) := by
  have h0 : bit (v &&& 0x3FFFFF) 0 = bit v 0 := by simp [bit]
  unfold State.capCtrl
  simp only [Cap.refuses_iff, h0, Bool.and_eq_true, Bool.not_eq_true', apply_ite (s.setCap j)]

/-! ## The position at the edge (R101) -/

theorem cellAt_of_axes {s u : State} (h : u.axes = s.axes) (n : Nat) (ts : Time) : u.cellAt n ts = s.cellAt n ts := by
  simp only [State.cellAt, State.cell, State.held, State.frozen, h]

theorem fracPast_of_axes {s u : State} (h : u.axes = s.axes) (n : Nat) (ts : Time) : u.fracPast n ts = s.fracPast n ts := by
  induction n with
  | zero => simp only [State.fracPast, cellAt_of_axes h]
  | succ n ih => simp only [State.fracPast, cellAt_of_axes h, ih]

theorem captureAt_of_axes {s u : State} (h : u.axes = s.axes) (n : Nat) (ts : Time) : u.captureAt n ts = s.captureAt n ts := by
  simp only [State.captureAt, cellAt_of_axes h, fracPast_of_axes h]

/-! ## An accepted edge (R100 to R102) -/

/-- The record of an edge at the position `p`. -/
def Cap.recordOf (u : Cap) (p : BitVec 48 × Word × BitVec 16 × Bool) (ts : Time) (rising : Bool) : CapRec :=
  { phase := p.2.1, frac := p.2.2.1, turn := p.1.setWidth 16, time := ts, edge := rising, ovf := u.ovfBefore, est := p.2.2.2 }

/-- The unit after an edge that counts: short of the prescaler, stored, or dropped for want of room. -/
def Cap.accepted (u : Cap) (p : BitVec 48 × Word × BitVec 16 × Bool) (ts : Time) (rising : Bool) : Cap :=
  if u.pcnt < fld u.presc 0 16 then { u with pcnt := u.pcnt + 1 }
  else if 8 ≤ u.fifo.length then { u with pcnt := 0, ovf := true, ovfCnt := satInc u.ovfCnt, ovfBefore := true }
  else { u with pcnt := 0, fifo := u.fifo ++ [u.recordOf p ts rising], ovfBefore := false }

section accepted

variable {u : Cap} {p : BitVec 48 × Word × BitVec 16 × Bool} {ts : Time} {rising : Bool}

theorem Cap.accepted_early (hp : u.pcnt < fld u.presc 0 16) : u.accepted p ts rising = { u with pcnt := u.pcnt + 1 } := if_pos hp

theorem Cap.accepted_stored (hp : fld u.presc 0 16 ≤ u.pcnt) (hf : u.fifo.length < 8) :
    u.accepted p ts rising = { u with pcnt := 0, fifo := u.fifo ++ [u.recordOf p ts rising], ovfBefore := false } :=
  (if_neg (Nat.not_lt.2 hp)).trans (if_neg (Nat.not_le.2 hf))

theorem Cap.accepted_dropped (hp : fld u.presc 0 16 ≤ u.pcnt) (hf : 8 ≤ u.fifo.length) :
    u.accepted p ts rising = { u with pcnt := 0, ovf := true, ovfCnt := satInc u.ovfCnt, ovfBefore := true } :=
  (if_neg (Nat.not_lt.2 hp)).trans (if_pos hf)

variable (u p ts rising)

theorem Cap.accepted_keeps : (u.accepted p ts rising).level = u.level ∧ (u.accepted p ts rising).pf = u.pf ∧
    (u.accepted p ts rising).ctrl = u.ctrl := by
  unfold Cap.accepted
  split
  · exact ⟨rfl, rfl, rfl⟩
  · split <;> exact ⟨rfl, rfl, rfl⟩

end accepted

theorem capAccept_put {s u : State} {j : Nat} {x : Cap} (h : CapPut j x s u) (ts : Time) (rising : Bool) :
    CapPut j ((u.cap j).accepted (u.captureAt (u.cap j).cell ts) ts rising) s (u.capAccept j ts rising) := by
  unfold State.capAccept Cap.accepted
  dsimp only
  by_cases hp : (u.cap j).pcnt < fld (u.cap j).presc 0 16
  · simp only [Nat.add_lt_add_iff_right, if_pos hp]
    exact h.set _
  · simp only [Nat.add_lt_add_iff_right, if_neg hp]
    have key : ∀ (y : Cap) (r : CapRec), CapPut j y s (let w := (u.setCap j y).wakeUnit (0x300 + j)
        let w := if y.irq then w.cicEdge (256 + j) else w
        if y.evt then w.capRecord j r else w) := fun y r => by
      have hw : CapPut j y s ((u.setCap j y).wakeUnit (0x300 + j)) := (h.set y).quiet (kept_wakeUnit (.refl _))
      have hc : CapPut j y s (if y.irq then ((u.setCap j y).wakeUnit (0x300 + j)).cicEdge (256 + j) else (u.setCap j y).wakeUnit (0x300 + j)) := by
        split
        · exact hw.quiet (kept_cicEdge (.refl _))
        · exact hw
      dsimp only
      split
      · exact hc.record r
      · exact hc
    by_cases hf : 8 ≤ (u.cap j).fifo.length
    · simp only [hf, decide_true, if_true]
      exact key _ _
    · simp only [hf, decide_false, Bool.false_eq_true, if_false]
      exact key _ _

/-- A level accepted at the unit's pin that CAP_CTRL asks for. -/
theorem capLevel_put {s u : State} {j : Nat} {x : Cap} (h : CapPut j x s u) (hx : u.cap j = x) (he : x.en = true) (hk : x.kind ≠ 5) {v : Bool}
    (hv : edgeOk x.edge v = true) (ts : Time) :
    CapPut j ({ x with level := v }.accepted (u.captureAt x.cell ts) ts v) s (u.capLevel j v ts) := by
  subst hx
  unfold State.capLevel
  dsimp only
  rw [if_pos (by simp [he, hk, hv])]
  have := capAccept_put (h.set { u.cap j with level := v }) ts v
  rw [State.setCap_cap, if_pos rfl, captureAt_of_axes (State.setCap_axes ..)] at this
  exact this

theorem capFeed_eq {s : State} {j : Nat} {l : List (Time × Bool)} {f : Filt} {a : List Accept}
    (h : Filt.feed (fld (s.cap j).filt 4 8 + 1) (fld (s.cap j).filt 0 4 + 1) s.now l (s.cap j).level (s.cap j).pf = (f, a)) :
    s.capFeed j l = a.foldl (fun s x => s.capLevel j x.level x.stamp) (s.setCap j { s.cap j with pf := f }) := by
  simp only [State.capFeed, h]

/-- The pad of a TIO pin that the unit watches. -/
def State.capPad (s : State) (j : Nat) (l : List (Time × Bool)) : State :=
  if (s.cap j).kind = 0 then s.padLevel (s.cap j).index l else s

theorem capPad_quiet (s : State) (j : Nat) (l : List (Time × Bool)) : Quiet s (s.capPad j l) := by
  unfold State.capPad
  split
  · exact kept_padLevel (.refl s)
  · exact .refl s

theorem exec_captureEdge_up {t : Time} {j : Fin 128} {v : Bool} {ts : List Time} {s : State} (h : s.up = true) :
    exec (.captureEdge t j v ts) s = .next (((s.arrive t).capPad j (edges v ts)).capFeed j (edges v ts)) :=
  engineEvent_up (f := fun s => (s.capPad j (edges v ts)).capFeed j (edges v ts)) h

/-- R100 to R102: one accepted edge, from the raw transitions of the pin. -/
theorem captureEdge_one {s : State} {j : Nat} {l : List (Time × Bool)} {x : Accept} {f : Filt}
    (hf : Filt.feed (fld (s.cap j).filt 4 8 + 1) (fld (s.cap j).filt 0 4 + 1) s.now l (s.cap j).level (s.cap j).pf = (f, [x]))
    (he : (s.cap j).en = true) (hk : (s.cap j).kind ≠ 5) (hx : edgeOk (s.cap j).edge x.level = true) :
    CapPut j ({ s.cap j with pf := f, level := x.level }.accepted (s.captureAt (s.cap j).cell x.stamp) x.stamp x.level) s
      ((s.capPad j l).capFeed j l) := by
  have hq := capPad_quiet s j l
  have hax : (s.capPad j l).axes = s.axes := hq.axes
  have hcap : (s.capPad j l).cap j = s.cap j := by simp [State.cap, hq.caps]
  have hnow : (s.capPad j l).now = s.now := hq.now
  have hput : CapPut j (s.cap j) s (s.capPad j l) := (CapPut.start s j).quiet hq
  generalize s.capPad j l = w at *
  rw [capFeed_eq (s := w) (f := f) (a := [x]) (by rw [hcap, hnow]; exact hf), hcap, List.foldl_cons, List.foldl_nil]
  have := capLevel_put (hput.set { s.cap j with pf := f }) (by simp) he hk hx x.stamp
  rwa [captureAt_of_axes (u := w.setCap j { s.cap j with pf := f }) (s := s) hax] at this

/-! ## CAP_POP (R103, R104) -/

theorem readCapPop_some {s : State} {m : Ident} {j : Nat} {r : CapRec} {l : List CapRec} (hm : m ≠ 0x20) (h : s.capFree j = r :: l) :
    s.readCapPop m j = (flag 0 true ||| flag 1 r.edge ||| flag 2 r.ovf ||| flag 3 r.est ||| wAt 8 l.length,
      (s.setCap j { s.cap j with fifo := (s.cap j).fifo.erase r }).latchAll m
        [(capOfs j + 0x24, r.phase), (capOfs j + 0x28, wAt 0 r.frac.toNat ||| wAt 16 r.turn.toNat), (capOfs j + 0x2C, loW r.time),
         (capOfs j + 0x30, hiW r.time)]) := by
  unfold State.readCapPop
  rw [if_neg hm, h]
  rfl

theorem readCapPop_none {s : State} {m : Ident} {j : Nat} (h : m = 0x20 ∨ s.capFree j = []) :
    s.readCapPop m j = (wAt 8 (s.capFree j).length, s) := by
  unfold State.readCapPop
  by_cases hm : m = 0x20
  · rw [if_pos hm]
  · rw [if_neg hm, h.resolve_left hm]
    rfl

/-- A reply leaves the companions alone. -/
@[simp] theorem State.latched_reply (s : State) (w : Word) (m : Ident) (o : Nat) : (s.reply w).latched m o = s.latched m o := rfl

theorem exec_capPop {t : Time} {m : Ident} {j : Fin 128} {s : State} (h : s.serves (capOfs j + 0x20) = true) :
    exec (.capPop t m j) s = .next (((s.arrive t).readCapPop m j).2.reply ((s.arrive t).readCapPop m j).1) :=
  regRead_serves (g := fun s => s.readCapPop m j) h

/-- A unit that no burst has reserved anything of gives all it holds. -/
theorem capFree_unreserved {s : State} (j : Nat) (h : ∀ n b, (n, some b) ∈ s.movers.run → b.recs = []) : s.capFree j = (s.cap j).fifo := by
  have hheld : s.capHeld j = [] := by
    rw [State.capHeld, List.flatMap_eq_nil_iff]
    rintro ⟨n, b⟩ hb
    cases b with
    | none => rfl
    | some b =>
      dsimp only
      split
      · exact h n b hb
      · rfl
  rw [State.capFree, hheld, List.foldl_nil]

/-- Settles O8: CAP_CTRL by the unit it leaves, an edge by whether it counts, fits or is dropped, CAP_POP by whether a record is free. -/
theorem captureUnitsStoreAndGiveRecords : Obligations.CaptureUnitsStoreAndGiveRecords := by
  refine ⟨?_, ?_, ?_, ?_, ?_, fun s j h => capFree_unreserved j h⟩
  · intro t m j v s hs
    have hexec : exec (.capCtrlWrite t m j v) s = .next ((s.arrive t).capCtrl j v) := regWrite_serves (f := fun s => s.capCtrl j v) hs
    rw [hexec]
    exact congrArg _ (capCtrl_eq (s.arrive t) j v)
  · rintro t j v ts l s x f rfl hup hf he hk hx
    rw [exec_captureEdge_up hup]
    have hput := captureEdge_one (s := s.arrive t) hf he hk hx
    have hcell : (s.arrive t).cap j = s.cap j := rfl
    rw [hcell] at hput
    refine ⟨_, rfl, ?_⟩
    generalize ((s.arrive t).capPad j (edges v ts)).capFeed j (edges v ts) = u at *
    obtain ⟨hcap, hother, hcmps, hran⟩ := hput
    refine ⟨by rw [hcap]; exact (Cap.accepted_keeps ..).1, by rw [hcap]; exact (Cap.accepted_keeps ..).2.1, by rw [hcap]; exact (Cap.accepted_keeps ..).2.2,
      fun hp => ?_, fun hp hf => ?_, fun hp hf => ?_, hother, hcmps, hran⟩
    · rw [hcap, Cap.accepted_early (u := { s.cap j with pf := f, level := x.level }) hp]
      exact ⟨rfl, rfl, rfl⟩
    · rw [hcap, Cap.accepted_stored (u := { s.cap j with pf := f, level := x.level }) hp hf]
      exact ⟨rfl, rfl, rfl, _, _, _, _, rfl, rfl⟩
    · rw [hcap, Cap.accepted_dropped (u := { s.cap j with pf := f, level := x.level }) hp hf]
      exact ⟨rfl, rfl, rfl, rfl, rfl⟩
  · rintro t j v ts l s f rfl hup hk hf
    have hpad : (s.arrive t).capPad j (edges v ts) = s.arrive t := if_neg hk
    rw [exec_captureEdge_up hup, hpad, capFeed_eq (s := s.arrive t) hf]
    rfl
  · intro t m j s r l hs hm hfree
    rw [exec_capPop hs, readCapPop_some (s := s.arrive t) hm hfree]
    refine ⟨_, rfl, ?_⟩
    simp only [State.latchAll, List.foldl_cons, List.foldl_nil]
    exact ⟨by simp, by simp, by simp, by simp, by simp, by simp, rfl, fun i hi => by simp [hi]⟩
  · intro t m j s hs h
    rw [exec_capPop hs, readCapPop_none (s := s.arrive t) h]
    rfl

end Sys2Proof.Machine
end


section
/-! PROOFS. What the operations of a channel program leave of the channels (04_command_set.md, 07_channel_states.md). -/

namespace Sys2Proof.Machine

/-! ## Channel `c` alone -/

theorem OnlyChan.refl (c : Nat) (s : State) : OnlyChan c s s := fun _ _ => rfl

theorem OnlyChan.trans {c : Nat} {s u w : State} (h : OnlyChan c s u) (k : OnlyChan c u w) : OnlyChan c s w :=
  fun j hj => (k j hj).trans (h j hj)

theorem OnlyChan.setChan {c : Nat} {s u : State} (h : OnlyChan c s u) (x : Chan) : OnlyChan c s (u.setChan c x) :=
  fun j hj => by simpa [hj] using h j hj

theorem OnlyChan.of_chans {c : Nat} {s u w : State} (h : OnlyChan c s u) (hw : w.chans = u.chans) : OnlyChan c s w :=
  fun j hj => by simpa [State.chan, hw] using h j hj

theorem OnlyChan.ite {c : Nat} {s u w : State} {p : Prop} [Decidable p] (h : OnlyChan c s u) (k : OnlyChan c s w) :
    OnlyChan c s (if p then u else w) := by
  split <;> assumption

theorem chan_of_chans {s u : State} (h : u.chans = s.chans) (j : Nat) : u.chan j = s.chan j := by simp [State.chan, h]

/-- A fold of operations that each leave the channels alone. -/
theorem foldl_chans {α : Type} {f : State → α → State} (hf : ∀ s x, (f s x).chans = s.chans) (l : List α) (s : State) :
    (l.foldl f s).chans = s.chans := by
  induction l generalizing s with
  | nil => rfl
  | cons x r ih => exact (ih _).trans (hf s x)

/-! ## What returns when a program stops -/

@[simp] theorem State.forget_chan (s : State) (w : Who) (j : Nat) : (s.forget w).chan j = s.chan j := rfl
@[simp] theorem State.forget_ou (s : State) (w : Who) (u : Nat) : (s.forget w).ou u = s.ou u := rfl
@[simp] theorem State.freeBox_chan (s : State) (c j : Nat) : (s.freeBox c).chan j = s.chan j := rfl
@[simp] theorem State.freeBox_ou (s : State) (c u : Nat) : (s.freeBox c).ou u = s.ou u := rfl
@[simp] theorem State.schedGive_chan (s : State) (w : Taker) (n j : Nat) : (s.schedGive w n).chan j = s.chan j := rfl
@[simp] theorem State.setWalks_chan (s : State) (l : List Walk) (j : Nat) : (s.setWalks l).chan j = s.chan j := rfl

theorem freeSlots_chans (s : State) (c : Nat) : (s.freeSlots c).chans = s.chans := by
  unfold State.freeSlots
  refine foldl_chans (fun s u => ?_) _ s
  rfl

theorem freeRecord_chans (s : State) (c : Nat) : (s.freeRecord c).chans = s.chans := by
  refine foldl_chans (fun s r => ?_) _ s
  dsimp only
  split <;> rfl

theorem unclaim_chans (s : State) (b : Burst) : (s.unclaim b).chans = s.chans := by
  unfold State.unclaim
  dsimp only
  split
  · split <;> rfl
  · rfl
  · rfl

theorem freeMover_chans (s : State) (c : Nat) (all : Bool) : (s.freeMover c all).chans = s.chans := by
  refine foldl_chans (fun s p => ?_) _ s
  split
  · split
    · exact unclaim_chans ..
    · rfl
  · rfl

theorem tget_of_not_mem {α : Type} (d : α) {t : Tab α} {k : Nat} (h : k ∉ t.map (·.1)) : tget d t k = d := by
  induction t with
  | nil => rfl
  | cons p r ih =>
    obtain ⟨j, x⟩ := p
    simp only [List.map_cons, List.mem_cons, not_or] at h
    simp [tget, Ne.symm h.1, ih h.2]

/-- R156, R239: no unit is held or sampled for the channel whose slots were freed. -/
theorem freeSlots_ou (s : State) (c u : Nat) : ((s.freeSlots c).ou u).holder ≠ some c ∧ ((s.freeSlots c).ou u).sampler ≠ some c := by
  have hfree : ∀ o : OutUnit, ∀ t : Nat, (o.free c t).holder ≠ some c ∧ (o.free c t).sampler ≠ some c := fun o t => by
    constructor <;> (unfold OutUnit.free; dsimp only; split <;> simp_all)
  have key : ∀ (l : List Nat) (s : State), u ∈ l ∨ ((s.ou u).holder ≠ some c ∧ (s.ou u).sampler ≠ some c) →
      ((l.foldl (fun s u => s.modOu u fun o => o.free c (cyc s.now + 1)) s).ou u).holder ≠ some c ∧
        ((l.foldl (fun s u => s.modOu u fun o => o.free c (cyc s.now + 1)) s).ou u).sampler ≠ some c := by
    intro l
    induction l with
    | nil => exact fun s h => h.resolve_left (by simp)
    | cons x r ih =>
      refine fun s h => ih _ ?_
      by_cases hx : u = x
      · subst hx
        exact .inr (by simpa using hfree (s.ou u) _)
      · exact h.imp (fun h => (List.mem_cons.1 h).resolve_left hx) fun h => by simpa [hx] using h
  unfold State.freeSlots
  refine key _ s ?_
  by_cases hu : u ∈ s.outs.units.map (·.1)
  · exact .inl hu
  · right
    have hnone : s.ou u = {} := tget_of_not_mem _ hu
    rw [hnone]
    exact ⟨nofun, nofun⟩

/-- What a channel is once its timed command has left the scheduler (R189, R223). -/
def Chan.untimed (h : Chan) : Chan :=
  match h.timed with
  | none => h
  | some _ => { (if h.committed then h else h.unread) with timed := none }

theorem Chan.untimed_none {h : Chan} (ht : h.timed = none) : h.untimed = h := by
  simp [Chan.untimed, ht]

theorem freeTimed_none {s : State} {c : Nat} (h : (s.chan c).timed = none) : s.freeTimed c = s := by
  simp [State.freeTimed, h]

theorem unhold_chan (s : State) (c j : Nat) {d : Timed} (h : (s.chan c).timed = some d) :
    (s.unhold c).chan j = if j = c then { (if (s.chan c).committed then s.chan c else (s.chan c).unread) with
      timed := some { d with staging := false, slot := false, data := false, unitOk := false, mover := none, granted := false, pages := [],
                             patNeed := 0, patHeld := 0, buf := [] } } else s.chan j := by
  have hchan : ∀ k, ((s.freeSlots c).freeMover c).chan k = s.chan k := fun k =>
    chan_of_chans ((freeMover_chans ..).trans (freeSlots_chans ..)) k
  simp only [State.unhold, h]
  simp [hchan]

theorem freeTimed_chan (s : State) (c j : Nat) : (s.freeTimed c).chan j = if j = c then (s.chan c).untimed else s.chan j := by
  unfold State.freeTimed Chan.untimed
  cases ht : (s.chan c).timed with
  | none =>
    by_cases hj : j = c
    · rw [if_pos hj, hj]
    · rw [if_neg hj]
  | some d =>
    by_cases hj : j = c
    · simp [hj, unhold_chan s c _ ht]
    · simp [hj, unhold_chan s c _ ht]

/-- Past its receive record a channel holds only its mailbox claim and what it has asked to be read. -/
theorem freeAll_record {s : State} {c j : Nat} : (s.freeAll c).chan j = (((s.freeTimed c).freeSlots c).freeRecord c).chan j ∧
    (s.freeAll c).ou j = (((s.freeTimed c).freeSlots c).freeRecord c).ou j := by
  unfold State.freeAll
  generalize State.freeRecord _ c = u
  exact ⟨rfl, rfl⟩

theorem freeAll_chan (s : State) (c j : Nat) : (s.freeAll c).chan j = if j = c then (s.chan c).untimed else s.chan j := by
  have h : (((s.freeTimed c).freeSlots c).freeRecord c).chan j = (s.freeTimed c).chan j :=
    chan_of_chans ((freeRecord_chans ..).trans (freeSlots_chans ..)) j
  rw [freeAll_record.1, h, freeTimed_chan]

theorem freeAll_only (s : State) (c : Nat) : OnlyChan c s (s.freeAll c) := fun j hj => by
  rw [freeAll_chan, if_neg hj]

theorem freeRecord_ou (s : State) (c u : Nat) : (s.freeRecord c).ou u = s.ou u := by
  have key : ∀ (l : List Nat) (s : State), (l.foldl (fun s r =>
      let x := s.stream r
      if x.owner = some c then s.setStream r { x with owner := none, taken := 0, recs := x.recs.drop 1 } else s) s).ou u = s.ou u := by
    intro l
    induction l with
    | nil => exact fun _ => rfl
    | cons x r ih => exact fun s => (ih _).trans (by dsimp only; split <;> rfl)
  exact key _ s

theorem freeAll_ou (s : State) (c u : Nat) : ((s.freeAll c).ou u).holder ≠ some c ∧ ((s.freeAll c).ou u).sampler ≠ some c := by
  rw [freeAll_record.2, freeRecord_ou]
  exact freeSlots_ou ..

/-! ## Suspension, the end of a program, a channel that waits -/

@[simp] theorem State.suspend_chan (s : State) (c j : Nat) (f : Chan → Chan) :
    (s.suspend c f).chan j = if j = c then f (s.chan c).suspend else s.chan j := by
  simp [State.suspend]

theorem suspend_only (s : State) (c : Nat) (f : Chan → Chan) : OnlyChan c s (s.suspend c f) := fun j hj => by simp [hj]

/-- What a channel is in its end state; a CLEAR leaves nothing of the context (R241, R242). -/
def Chan.atEnd (h : Chan) (st : ChanState) : Chan :=
  if h.clearing then { (h.ended st).clearAll with st := .idle } else h.ended st

@[simp] theorem State.enterEnd_eq (s : State) (c : Nat) (st : ChanState) : s.enterEnd c st = s.setChan c ((s.chan c).atEnd st) := rfl

theorem chanPost_none {s : State} {c : Nat} (h : (s.chan c).eq = none) (l : List Byte) : s.chanPost c l = (true, s) := by
  simp [State.chanPost, h]

theorem Chan.unread_eq (h : Chan) : h.unread.eq = h.eq ∧ h.unread.clearing = h.clearing := by
  unfold Chan.unread
  split
  · split <;> exact ⟨rfl, rfl⟩
  · exact ⟨rfl, rfl⟩

theorem Chan.untimed_eq (h : Chan) : h.untimed.eq = h.eq ∧ h.untimed.clearing = h.clearing := by
  unfold Chan.untimed
  split
  · exact ⟨rfl, rfl⟩
  · dsimp only
    split
    · exact ⟨rfl, rfl⟩
    · exact h.unread_eq

/-- R240, R242: a program of a channel that posts no record ends at once. -/
theorem endProgram_none {s : State} {c : Nat} (h : (s.chan c).eq = none) (st : ChanState) (tag : Bool) :
    s.endProgram c st tag = (s.freeAll c).enterEnd c (if (s.chan c).clearing then .idle else st) := by
  have hc : (s.freeAll c).chan c = (s.chan c).untimed := by simp [freeAll_chan]
  have hn : ((s.freeAll c).chan c).eq = none := by rw [hc, (Chan.untimed_eq _).1, h]
  simp only [State.endProgram, chanPost_none hn, hc, (Chan.untimed_eq _).2]

/-! ## A completed command (R133, R137, R244) -/

/-- Where a completed command leads: the next group in sequence, or the target of a TIC or TICC; none where the program ends. -/
def Chan.onward (h : Chan) : Option Chan :=
  if h.cur.cd then some { h with committed := false, cca := h.cca + h.cur.size, inChain := true, fromTic := false, act := .fetch }
  else match h.next with
    | some (a, p) => some { h with committed := false, cca := a, phy := p, inChain := false, fromTic := decide (h.cur.op = 0x10), next := none,
                                   act := .fetch, chainCount := 0, recEnded := false, recTaken := 0 }
    | none =>
      if h.cur.cc && h.cur.op ≠ 0x10 then
        some { h with committed := false, cca := h.cca + h.cur.size, inChain := false, fromTic := false, act := .fetch, chainCount := 0,
                      recEnded := false, recTaken := 0 }
      else none

/-- Channel `c` goes on as `x`, or is suspended there. -/
def State.goOn (s : State) (c : Nat) (x : Chan) : State :=
  if x.suspReq && !x.inBracket then (s.setChan c x).suspend c id else (s.setChan c x).goCurrent c

theorem advance_eq {s : State} {c : Nat} {h : Chan} (hc : s.chan c = h) (hst : h.st ≠ .haltPending ∨ h.inBracket = true) :
    s.advance c = match h.onward with
      | some x => s.goOn c x
      | none => s.endProgram c .idle (h.cur.op = 0x40) := by
  have hrun : (decide (h.st = .haltPending) && !h.inBracket) = false := by
    rcases hst with hst | hst <;> simp [hst]
  unfold State.advance Chan.onward State.goOn
  rw [hc]
  simp only [hrun, Bool.false_eq_true, if_false]
  cases hcd : h.cur.cd with
  | true => rfl
  | false =>
    simp only [Bool.false_eq_true, if_false]
    cases hn : h.next with
    | some ap => rfl
    | none => dsimp only; split <;> rfl

theorem complete_eq {s : State} {c : Nat} {h : Chan} (hc : s.chan c = h) (ht : h.timed = none) (hp : h.cur.pci = false ∨ h.eq = none) :
    s.complete c = s.advance c := by
  unfold State.complete
  simp only [freeTimed_none (s := s) (c := c) (hc ▸ ht), hc]
  split
  · next hpci =>
    have hn : h.eq = none := hp.resolve_left fun hp => by simp [hp] at hpci
    rw [chanPost_none (hc ▸ hn)]
  · rfl

theorem goCurrent_none {s : State} {c : Nat} (h : (s.chan c).ahead = []) :
    s.goCurrent c = s.setChan c { s.chan c with act := .fetch, aheadStop := false, st := (s.chan c).st.going } := by
  simp only [State.goCurrent, h]

theorem goCurrent_ahead {s : State} {c : Nat} {g : Group} {r : List (Nat × Group)}
    (h : (s.chan c).ahead = (grpKey (s.chan c).cca (s.chan c).phy, g) :: r) :
    s.goCurrent c = (s.setChan c { s.chan c with ahead := r, aheadStop := false }).makeCurrent c g := by
  simp only [State.goCurrent, h, if_true]

/-! ## A group becomes current (R126, R172) -/

/-- The channel with `g` as its current group, not yet judged. -/
def Chan.current (h : Chan) (g : Group) (t : Time) : Chan :=
  { h with cur := g, opcode := BitVec.ofNat 8 g.op, currentAt := t, act := .ready, tries := 0 }

/-- The channel once its current group has passed its checks. -/
def Chan.begun (h : Chan) : Chan :=
  let x := if h.cont then h else h.begin
  { x with st := x.st.going, act := .ready, skipSus := false, cont := false, chainOp := if x.inChain then x.chainOp else h.cur.op,
           chainUnit := if x.inChain then x.chainUnit else h.cur.unit }

theorem groupCheck_none {h : Chan} {p : Bool} {g : Group} (hg : groupCheck h p g = none) : groupCheckA h g = none ∧ groupCheckB h p g = none := by
  have hA : groupCheckA h g = none := by
    cases e : groupCheckA h g with
    | none => rfl
    | some b => simp [groupCheck, e] at hg
  exact ⟨hA, by simpa [groupCheck, hA] using hg⟩

theorem groupCheckA_current (h : Chan) (g : Group) (t : Time) : groupCheckA (h.current g t) g = groupCheckA h g := by
  unfold groupCheckA
  rfl

theorem groupCheckB_current (h : Chan) (g : Group) (t : Time) (p : Bool) : groupCheckB (h.current g t) p g = groupCheckB h p g := by
  unfold groupCheckB contOk
  rfl

theorem passChecks_begins {s : State} {c : Nat} {h : Chan} (hc : s.chan c = h) (hB : groupCheckB h (s.dom h.domain).phyOk h.cur = none)
    (htm : h.cur.tm = false) (hsus : h.cur.sus = false) (hreq : h.suspReq = false) : s.passChecks c = s.setChan c h.begun := by
  unfold State.passChecks
  rw [hc]
  dsimp only
  rw [hB]
  simp only [hreq, hsus, htm, Bool.and_false, Bool.false_and, Bool.or_false, Bool.false_eq_true, if_false, State.modChan_eq, hc]
  rfl

/-- An untimed group other than LOCK that passes its checks and asks for no suspension begins. -/
theorem makeCurrent_begins {s : State} {c : Nat} {g : Group} {h : Chan} (hc : s.chan c = h)
    (hg : groupCheck h (s.dom h.domain).phyOk g = none) (hl : g.op ≠ 0x38) (htm : g.tm = false) (hsus : g.sus = false)
    (hreq : h.suspReq = false) : s.makeCurrent c g = s.setChan c (h.current g s.now).begun := by
  obtain ⟨hA, hB⟩ := groupCheck_none hg
  rw [← groupCheckA_current h g s.now] at hA
  rw [← groupCheckB_current h g s.now] at hB
  have hx : s.makeCurrent c g = (match groupCheckA ((s.setChan c (h.current g s.now)).chan c) g with
    | some b => (s.setChan c (h.current g s.now)).failCheck c b
    | none => if g.op = 0x38 then (s.setChan c (h.current g s.now)).bracketCheck c else (s.setChan c (h.current g s.now)).passChecks c) := by
    rw [← hc]
    rfl
  have hxc : (s.setChan c (h.current g s.now)).chan c = h.current g s.now := by simp
  rw [hx, hxc, hA]
  dsimp only
  rw [if_neg hl, passChecks_begins hxc hB htm hsus hreq, State.setChan_setChan]

/-! ## The gate of the commands -/

/-- R126, R239: the current command of its channel, checked and ready, is taken. -/
theorem onCommand_current {t : Time} {c op : Nat} {s : State} {p : Group → Bool} {f : State → State} (h : Current s c op)
    (hp : p (s.chan c).cur = true) : onCommand t c s p f = .next (f (s.arrive t)) := by
  obtain ⟨hup, hst, hact, htm, -⟩ := h
  have hchan : (s.arrive t).chan c = s.chan c := rfl
  have hrun : ((decide ((s.chan c).st = .active) || (decide ((s.chan c).st = .haltPending) && (s.chan c).inBracket)) &&
      decide ((s.chan c).act = .ready) && !(s.chan c).cur.tm && p (s.chan c).cur) = true := by
    rcases hst with hst | ⟨hst, hb⟩
    · simp [hst, hact, htm, hp]
    · simp [hst, hb, hact, htm, hp]
  unfold onCommand
  rw [engineEvent_up hup]
  dsimp only
  rw [hchan, if_pos hrun]

section

variable {t : Time} {c : Fin 4096} {s : State}

theorem exec_read_current (h : Current s c 0x01) :
    exec (.read t c) s = .next ((s.arrive t).readStart c) :=
  onCommand_current (p := fun g => g.op = 0x01) (f := fun s => s.readStart c) h (decide_eq_true h.op)

theorem exec_write_current (h : Current s c 0x02) :
    exec (.write t c) s = .next ((s.arrive t).writeStart c) :=
  onCommand_current (p := fun g => g.op = 0x02) (f := fun s => s.writeStart c) h (decide_eq_true h.op)

theorem exec_flush_current (h : Current s c 0x03) (hp : isControl false 1 (s.chan c).cur = true) :
    exec (.flush t c) s = .next ((s.arrive t).controlDo c) :=
  onCommand_current (f := fun s => s.controlDo c) h hp

theorem exec_load_current (h : Current s c 0x03) (hp : isControl true 1 (s.chan c).cur = true) :
    exec (.load t c) s = .next ((s.arrive t).controlDo c) :=
  onCommand_current (f := fun s => s.controlDo c) h hp

theorem exec_setMod_current (h : Current s c 0x03) (hp : isControl true 2 (s.chan c).cur = true) :
    exec (.setMod t c) s = .next ((s.arrive t).controlDo c) :=
  onCommand_current (f := fun s => s.controlDo c) h hp

theorem exec_setRate_current (h : Current s c 0x03) (hp : isControl true 3 (s.chan c).cur = true) :
    exec (.setRate t c) s = .next ((s.arrive t).controlDo c) :=
  onCommand_current (f := fun s => s.controlDo c) h hp

theorem exec_sense_current (h : Current s c 0x04) :
    exec (.sense t c) s = .next ((s.arrive t).senseStart c) :=
  onCommand_current (p := fun g => g.op = 0x04) (f := fun s => s.senseStart c) h (decide_eq_true h.op)

theorem exec_move_current (h : Current s c 0x05) :
    exec (.move t c) s = .next ((s.arrive t).orMember c fun s => s.pump c) :=
  onCommand_current (p := fun g => g.op = 0x05) (f := fun s => s.orMember c fun s => s.pump c) h (decide_eq_true h.op)

theorem exec_fill_current (h : Current s c 0x06) :
    exec (.fill t c) s = .next ((s.arrive t).orMember c fun s => s.pump c) :=
  onCommand_current (p := fun g => g.op = 0x06) (f := fun s => s.orMember c fun s => s.pump c) h (decide_eq_true h.op)

theorem exec_compare_current (h : Current s c 0x07) :
    exec (.compare t c) s = .next ((s.arrive t).orMember c fun s => s.pump c) :=
  onCommand_current (p := fun g => g.op = 0x07) (f := fun s => s.orMember c fun s => s.pump c) h (decide_eq_true h.op)

theorem exec_gather_current (h : Current s c 0x08) :
    exec (.gather t c) s = .next ((s.arrive t).gatherStart c) :=
  onCommand_current (p := fun g => g.op = 0x08) (f := fun s => s.gatherStart c) h (decide_eq_true h.op)

theorem exec_tic_current (h : Current s c 0x10) :
    exec (.tic t c) s = .next (((s.arrive t).modChan c fun h => { h with next := some (h.cur.addr, h.cur.phy) }).complete c) :=
  onCommand_current (p := fun g => g.op = 0x10) (f := fun s => (s.modChan c fun h => { h with next := some (h.cur.addr, h.cur.phy) }).complete c) h (decide_eq_true h.op)

theorem exec_ticc_current (h : Current s c 0x11) :
    exec (.ticc t c) s = .next (((s.arrive t).modChan c fun h => { h with next := if h.cond != bit h.cur.w1 0 then some (h.cur.addr, h.cur.phy) else none }).complete c) :=
  onCommand_current (p := fun g => g.op = 0x11) (f := fun s => (s.modChan c fun h => { h with next := if h.cond != bit h.cur.w1 0 then some (h.cur.addr, h.cur.phy) else none }).complete c) h (decide_eq_true h.op)

theorem exec_lock_current (h : Current s c 0x38) :
    exec (.lock t c) s = .next ((s.arrive t).lockDo c) :=
  onCommand_current (p := fun g => g.op = 0x38) (f := fun s => s.lockDo c) h (decide_eq_true h.op)

theorem exec_unlock_current (h : Current s c 0x39) :
    exec (.unlock t c) s = .next ((s.arrive t).unlockDo c) :=
  onCommand_current (p := fun g => g.op = 0x39) (f := fun s => s.unlockDo c) h (decide_eq_true h.op)

theorem exec_cas_current (h : Current s c 0x3A) :
    exec (.cas t c) s = .next ((s.arrive t).orMember c fun s => s.casDo c) :=
  onCommand_current (p := fun g => g.op = 0x3A) (f := fun s => s.orMember c fun s => s.casDo c) h (decide_eq_true h.op)

theorem exec_mark_current (h : Current s c 0x40) :
    exec (.mark t c) s = .next ((s.arrive t).markDo c) :=
  onCommand_current (p := fun g => g.op = 0x40) (f := fun s => s.markDo c) h (decide_eq_true h.op)

theorem exec_nop_current (h : Current s c 0x7F) :
    exec (.nop t c) s = .next ((s.arrive t).orMember c fun s => s.complete c) :=
  onCommand_current (p := fun g => g.op = 0x7F) (f := fun s => s.orMember c fun s => s.complete c) h (decide_eq_true h.op)

theorem exec_signalLevel_current (h : Current s c 0x30) (hm : (s.chan c).cur.sigMode = 0) :
    exec (.signalLevel t c) s = .next ((s.arrive t).signalStart c) :=
  onCommand_current (p := isSignal 0) (f := fun s => s.signalStart c) h (by simp [isSignal, h.op, hm])

theorem exec_signalPulse_current (h : Current s c 0x30) (hm : (s.chan c).cur.sigMode = 1) :
    exec (.signalPulse t c) s = .next ((s.arrive t).signalStart c) :=
  onCommand_current (p := isSignal 1) (f := fun s => s.signalStart c) h (by simp [isSignal, h.op, hm])

theorem exec_signalPattern_current (h : Current s c 0x30) (hm : (s.chan c).cur.sigMode = 2) :
    exec (.signalPattern t c) s = .next ((s.arrive t).signalStart c) :=
  onCommand_current (p := isSignal 2) (f := fun s => s.signalStart c) h (by simp [isSignal, h.op, hm])

theorem exec_armCompare_current (h : Current s c 0x31) (hb : bit (s.chan c).cur.w1 8 = false) :
    exec (.armCompare t c) s = .next ((s.arrive t).armDo c) :=
  onCommand_current (p := fun g => g.op = 0x31 && !bit g.w1 8) (f := fun s => s.armDo c) h (by simp [h.op, hb])

theorem exec_armCapture_current (h : Current s c 0x31) (hb : bit (s.chan c).cur.w1 8 = true) :
    exec (.armCapture t c) s = .next ((s.arrive t).armDo c) :=
  onCommand_current (p := fun g => g.op = 0x31 && bit g.w1 8) (f := fun s => s.armDo c) h (by simp [h.op, hb])

end

end Sys2Proof.Machine
end


section
/-! PROOFS. A completed command chains, branches or ends its program (R133, R137, R159, R163, R244). -/

namespace Sys2Proof.Machine

/-- What a channel keeps when its current group begins. -/
theorem Chan.begun_keeps (h : Chan) :
    h.begun.cur = h.cur ∧ h.begun.act = .ready ∧ h.begun.ahead = h.ahead ∧ h.begun.cca = h.cca ∧ h.begun.phy = h.phy ∧
      h.begun.st = h.st.going ∧ h.begun.currentAt = h.currentAt := by
  unfold Chan.begun
  dsimp only
  split <;> exact ⟨rfl, rfl, rfl, rfl, rfl, rfl, rfl⟩

/-- The groups that a channel holds fetched ahead have no part in a group's checks. -/
theorem groupCheck_ahead (h : Chan) (r : List (Nat × Group)) (p : Bool) (g : Group) :
    groupCheck { h with ahead := r, aheadStop := false } p g = groupCheck h p g := by
  unfold groupCheck groupCheckA groupCheckB contOk
  rfl

/-- A command leads in sequence under CD; else to the target a branch has given, or in sequence under CC. -/
theorem Chan.onward_of {h x : Chan}
    (hx : h.cur.cd = true ∧ x = { h with committed := false, cca := h.cca + h.cur.size, inChain := true, fromTic := false, act := .fetch } ∨
      h.cur.cd = false ∧ (∃ a p, h.next = some (a, p) ∧
        x = { h with committed := false, cca := a, phy := p, inChain := false, fromTic := decide (h.cur.op = 0x10), next := none,
                     act := .fetch, chainCount := 0, recEnded := false, recTaken := 0 }) ∨
      h.cur.cd = false ∧ h.next = none ∧ h.cur.cc = true ∧ h.cur.op ≠ 0x10 ∧
        x = { h with committed := false, cca := h.cca + h.cur.size, inChain := false, fromTic := false, act := .fetch,
                     chainCount := 0, recEnded := false, recTaken := 0 }) : h.onward = some x := by
  unfold Chan.onward
  rcases hx with ⟨hcd, rfl⟩ | ⟨hcd, a, p, hn, rfl⟩ | ⟨hcd, hn, hcc, hop, rfl⟩
  · rw [if_pos hcd]
  · simp [hcd, hn]
  · simp [hcd, hn, hcc, hop]

/-- Going on changes neither the state, the request to suspend, the bracket nor what is fetched ahead. -/
theorem Chan.onward_keeps {h x : Chan} (hx : h.onward = some x) :
    x.st = h.st ∧ x.suspReq = h.suspReq ∧ x.inBracket = h.inBracket ∧ x.ahead = h.ahead ∧ x.domain = h.domain ∧ x.act = .fetch := by
  unfold Chan.onward at hx
  split at hx
  · obtain rfl := Option.some.inj hx
    exact ⟨rfl, rfl, rfl, rfl, rfl, rfl⟩
  · split at hx
    · obtain rfl := Option.some.inj hx
      exact ⟨rfl, rfl, rfl, rfl, rfl, rfl⟩
    · split at hx
      · obtain rfl := Option.some.inj hx
        exact ⟨rfl, rfl, rfl, rfl, rfl, rfl⟩
      · cases hx

theorem goOn_suspends {s : State} {c : Nat} {x : Chan} (hs : x.suspReq = true) (hb : x.inBracket = false) :
    s.goOn c x = (s.setChan c x).suspend c id := by
  simp [State.goOn, hs, hb]

theorem goOn_fetches {s : State} {c : Nat} {x : Chan} (hs : x.suspReq = false) (ha : x.ahead = []) (hact : x.act = .fetch)
    (hst : x.st = .active) : s.goOn c x = s.setChan c { x with aheadStop := false } := by
  have hahead : ((s.setChan c x).chan c).ahead = [] := by simpa using ha
  simp only [State.goOn, hs, Bool.false_and, Bool.false_eq_true, if_false, goCurrent_none hahead, State.setChan_setChan, State.setChan_chan,
    if_true, hst]
  obtain ⟨⟩ := x
  simp only at hact hst
  subst hact hst
  rfl

theorem goOn_current {s : State} {c : Nat} {x : Chan} {g : Group} {r : List (Nat × Group)} (hs : x.suspReq = false)
    (ha : x.ahead = (grpKey x.cca x.phy, g) :: r) (hg : groupCheck x (s.dom x.domain).phyOk g = none) (hl : g.op ≠ 0x38)
    (htm : g.tm = false) (hsus : g.sus = false) :
    s.goOn c x = s.setChan c ({ x with ahead := r, aheadStop := false }.current g s.now).begun := by
  have hahead : ((s.setChan c x).chan c).ahead = (grpKey ((s.setChan c x).chan c).cca ((s.setChan c x).chan c).phy, g) :: r := by simpa using ha
  have hx : (s.setChan c { x with ahead := r, aheadStop := false }).chan c = { x with ahead := r, aheadStop := false } := by simp
  rw [← groupCheck_ahead x r] at hg
  have hrun : (x.suspReq && !x.inBracket) = false := by simp [hs]
  unfold State.goOn
  rw [hrun, if_neg Bool.false_ne_true, goCurrent_ahead hahead, State.setChan_setChan, State.setChan_chan, if_pos rfl,
    makeCurrent_begins hx hg hl htm hsus hs, State.setChan_setChan]
  rfl

/-- R163: the record of a MARK that goes on is posted, and the MARK completes. -/
theorem markDo_posts {s s' : State} {c : Nat} (he : (s.chan c).endsHere = false) (ht : (s.chan c).timed = none)
    (hp : s.chanPost c ((s.chan c).recMark c) = (true, s')) : s.markDo c = s'.complete c := by
  unfold State.markDo
  simp only [he, Bool.false_eq_true, if_false, freeTimed_none ht, hp]

/-- R251: the record finds no credit, and is held. -/
theorem markDo_holds {s s' : State} {c : Nat} (he : (s.chan c).endsHere = false) (ht : (s.chan c).timed = none)
    (hpci : (s.chan c).cur.pci = false) (hp : s.chanPost c ((s.chan c).recMark c) = (false, s')) :
    s.markDo c = s'.holdRec c ((s.chan c).recMark c) false .go := by
  unfold State.markDo
  simp only [he, Bool.false_eq_true, if_false, freeTimed_none ht, hp, hpci]

/-- Settles O10: completion by where the command leads, then the commands by what they leave for it. -/
theorem completedCommandsChainOrEndTheProgram : Obligations.CompletedCommandsChainOrEndTheProgram := by
  refine ⟨?_, fun t c s => ⟨fun h => ?_, fun h => ?_, fun h hb => ?_, fun h he => ?_, ?_, ?_⟩⟩
  · intro s c h x hc ht hst hp
    have hcomp : s.complete c = match h.onward with
        | some x => s.goOn c x
        | none => s.endProgram c .idle (h.cur.op = 0x40) :=
      (complete_eq hc ht hp).trans (advance_eq hc (.inl (by rw [hst]; nofun)))
    refine ⟨fun hx => ?_, fun hcd hn hcc he hcl => ?_, by simp, suspend_only s c id⟩
    · have hon := Chan.onward_of hx
      obtain ⟨kst, ksus, kbr, kahead, kdom, kact⟩ := Chan.onward_keeps hon
      rw [hon] at hcomp
      refine ⟨fun hs hb => ?_, fun hs ha => ?_, fun g r hs ha hg hl htm hsus => ?_⟩
      · rw [hcomp]
        exact goOn_suspends (ksus.trans hs) (kbr.trans hb)
      · rw [hcomp]
        exact goOn_fetches (ksus.trans hs) (kahead.trans ha) kact (kst.trans hst)
      · have hgo : s.complete c = _ := hcomp.trans
          (goOn_current (ksus.trans hs) (kahead.trans ha) (kdom.symm ▸ hg) hl htm hsus)
        rw [hgo, State.setChan_chan, if_pos rfl]
        obtain ⟨bcur, bact, bahead, bcca, bphy, bst, bat⟩ := Chan.begun_keeps ({ x with ahead := r, aheadStop := false }.current g s.now)
        refine ⟨bcur, bact, bahead, bcca, bphy, bst.trans ?_, bat, (OnlyChan.refl c s).setChan _⟩
        change x.st.going = _
        rw [kst, hst]
        rfl
    · have hon : h.onward = none := by
        unfold Chan.onward
        rcases hcc with hcc | hop
        · simp [hcd, hn, hcc]
        · simp [hcd, hn, hop]
      rw [hon] at hcomp
      have hend : s.endProgram c .idle (h.cur.op = 0x40) = _ := endProgram_none (hc ▸ he) .idle (h.cur.op = 0x40)
      have hun : (s.freeAll c).chan c = h := by rw [freeAll_chan, if_pos rfl, hc, Chan.untimed_none ht]
      rw [hc, hcl, if_neg Bool.false_ne_true, State.enterEnd_eq, hun] at hend
      have hat : h.atEnd .idle = h.ended .idle := if_neg (by rw [hcl]; exact Bool.false_ne_true)
      rw [hcomp, hend, hat]
      simp only [State.setChan_chan, if_true]
      exact ⟨rfl, rfl, rfl, rfl, rfl, rfl, fun u => freeAll_ou s c u, (freeAll_only s c).setChan _⟩
  · exact exec_tic_current h
  · rw [exec_ticc_current h]
    simp only [State.modChan_eq, bne_iff_ne, ne_eq, ite_not]
    rfl
  · rw [exec_nop_current h]
    exact congrArg _ (if_neg (by simp [hb]))
  · rw [exec_mark_current h]
    exact congrArg _ (if_pos he)
  · intro s' h he hst ht hpost
    rw [exec_mark_current h, markDo_posts (s := s.arrive t) he ht hpost]
  · intro s' h he hst ht hpci hpost
    rw [exec_mark_current h, markDo_holds (s := s.arrive t) he ht hpci hpost]
    rfl

end Sys2Proof.Machine
end


section
/-! PROOFS. Waits and glades (R160 to R162, R173, R200, R204). -/

namespace Sys2Proof.Machine

/-! ## A channel begins to wait (R241, R244) -/

/-- The channel waits for `a`; one that drains stays in HALT_PENDING. -/
def Chan.waitFor (h : Chan) (a : Act) : Chan := { h with act := a, st := if h.st = .haltPending then .haltPending else .waiting }

/-- The channel as a SUSPEND takes it from where it stands (R244). -/
def Chan.suspended (h : Chan) : Chan :=
  { h.untimed.suspend with cont := (match h.act with | .unit _ => true | _ => false), skipSus := h.untimed.cur.sus, due := 0 }

theorem enterWait_waits {s : State} {c : Nat} {a : Act} {h : Chan} (hc : s.chan c = h)
    (hw : h.suspReq = false ∨ h.committed = true ∨ h.st = .haltPending) : s.enterWait c a = s.setChan c (h.waitFor a) := by
  have hrun : ((h.waitFor a).suspReq && !(h.waitFor a).committed &&
      (decide ((h.waitFor a).st = .waiting) || decide ((h.waitFor a).st = .staged))) = false := by
    rcases hw with hw | hw | hw <;> simp [Chan.waitFor, hw]
  have hx : (s.setChan c (h.waitFor a)).chan c = h.waitFor a := by simp
  subst hc
  change (s.setChan c ((s.chan c).waitFor a)).suspWait c = _
  unfold State.suspWait
  rw [hx]
  dsimp only
  rw [if_neg (by rw [hrun]; exact Bool.false_ne_true)]

theorem suspendNow_chan (s : State) (c j : Nat) : (s.suspendNow c).chan j = if j = c then (s.chan c).suspended else s.chan j := by
  unfold State.suspendNow
  rw [State.suspend_chan]
  by_cases hj : j = c
  · rw [if_pos hj, if_pos hj, freeTimed_chan, if_pos rfl]
    rfl
  · rw [if_neg hj, if_neg hj, freeTimed_chan, if_neg hj]

theorem enterWait_suspends {s : State} {c : Nat} {a : Act} {h : Chan} (hc : s.chan c = h) (hs : h.suspReq = true)
    (hcm : h.committed = false) (hst : h.st ≠ .haltPending) (j : Nat) :
    (s.enterWait c a).chan j = if j = c then (h.waitFor a).suspended else s.chan j := by
  have hrun : ((h.waitFor a).suspReq && !(h.waitFor a).committed &&
      (decide ((h.waitFor a).st = .waiting) || decide ((h.waitFor a).st = .staged))) = true := by
    simp [Chan.waitFor, hs, hcm, hst]
  have hx : (s.setChan c (h.waitFor a)).chan c = h.waitFor a := by simp
  have hgo : s.enterWait c a = (s.setChan c (h.waitFor a)).suspendNow c := by
    subst hc
    change (s.setChan c ((s.chan c).waitFor a)).suspWait c = _
    unfold State.suspWait
    rw [hx]
    dsimp only
    rw [if_pos hrun]
  rw [hgo, suspendNow_chan, hx]
  by_cases hj : j = c <;> simp [hj]

theorem enterWait_only (s : State) (c : Nat) (a : Act) : OnlyChan c s (s.enterWait c a) := by
  by_cases hw : (s.chan c).suspReq = false ∨ (s.chan c).committed = true ∨ (s.chan c).st = .haltPending
  · rw [enterWait_waits rfl hw]
    exact (OnlyChan.refl c s).setChan _
  · simp only [not_or, Bool.not_eq_false, Bool.not_eq_true] at hw
    obtain ⟨hs, hcm, hst⟩ := hw
    exact fun j hj => (enterWait_suspends rfl hs hcm hst j).trans (if_neg hj)

/-- What a channel keeps when its timed command leaves the scheduler. -/
theorem Chan.untimed_keeps (h : Chan) :
    h.untimed.status = h.status ∧ h.untimed.cond = h.cond ∧ h.untimed.cca = h.cca ∧ h.untimed.st = h.st := by
  have hun : h.unread.status = h.status ∧ h.unread.cond = h.cond ∧ h.unread.cca = h.cca ∧ h.unread.st = h.st := by
    unfold Chan.unread
    split
    · split <;> exact ⟨rfl, rfl, rfl, rfl⟩
    · exact ⟨rfl, rfl, rfl, rfl⟩
  unfold Chan.untimed
  split
  · exact ⟨rfl, rfl, rfl, rfl⟩
  · dsimp only
    split
    · exact ⟨rfl, rfl, rfl, rfl⟩
    · exact hun

theorem Chan.suspended_keeps (h : Chan) :
    h.suspended.st = .suspended ∧ h.suspended.suspReq = false ∧ h.suspended.status = h.status ∧ h.suspended.cond = h.cond ∧
      h.suspended.cca = h.cca := by
  obtain ⟨hs, hco, hcca, -⟩ := h.untimed_keeps
  exact ⟨rfl, rfl, hs, hco, hcca⟩

/-! ## What is waited for (R160, R161) -/

theorem Chan.waitLimit_word (h : Chan) (w : Word) :
    h.waitLimit w.toNat = if w = 0 then none else some (h.currentAt + 8000 * w.toNat) := by
  have hw : w.toNat = 0 ↔ w = 0 := by simp [BitVec.toNat_eq]
  simp only [Chan.waitLimit, hw, us, Nat.mul_comm]

section

variable {t : Time} {c : Fin 4096} {s : State}

theorem exec_waitTime_current (h : Current s c 0x20) (hk : (s.chan c).cur.waitKind = 0) : exec (.waitTime t c) s = .next
    ((s.arrive t).enterWait c (.time (cyc (s.chan c).currentAt * 8 + ns (s.chan c).cur.addr))) :=
  onCommand_current (p := isWait 0) (f := fun s => s.enterWait c (.time (cyc (s.chan c).currentAt * 8 + ns (s.chan c).cur.addr))) h
    (by simp [isWait, h.op, hk])

theorem exec_waitUnit_current (h : Current s c 0x20) (hk : (s.chan c).cur.waitKind = 2) : exec (.waitUnit t c) s = .next
    (if s.unitReady (s.chan c).cur.unit then (s.arrive t).waitEnds c (some true)
      else (s.arrive t).enterWait c (.waitUnit (s.chan c).cur.unit ((s.chan c).waitLimit (s.chan c).cur.w3.toNat))) :=
  onCommand_current (p := isWait 2) (f := fun s => if s.unitReady (s.chan c).cur.unit then s.waitEnds c (some true)
    else s.enterWait c (.waitUnit (s.chan c).cur.unit ((s.chan c).waitLimit (s.chan c).cur.w3.toNat))) h (by simp [isWait, h.op, hk])

/-- R161: the compare unit has fired since the channel's ARM of it, or since the WAIT became current. -/
def State.hasFired (s : State) (c k : Nat) : Bool :=
  ((s.chan c).armValid && (s.chan c).armIdx = k && (s.cmp k).fcnt ≠ (s.chan c).armFcnt) ||
    (match (s.cmp k).fireAt with | some x => decide (cyc (s.chan c).currentAt ≤ x) | none => false)

theorem hasFired_iff (s : State) (c k : Nat) : s.hasFired c k = true ↔
    (s.chan c).armValid = true ∧ (s.chan c).armIdx = k ∧ (s.cmp k).fcnt ≠ (s.chan c).armFcnt ∨
      ∃ x, (s.cmp k).fireAt = some x ∧ cyc (s.chan c).currentAt ≤ x := by
  unfold State.hasFired
  cases (s.cmp k).fireAt <;> simp [and_assoc]

theorem exec_waitCompare_current (h : Current s c 0x20) (hk : (s.chan c).cur.waitKind = 3) : exec (.waitCompare t c) s = .next
    (if s.hasFired c (fld (s.chan c).cur.w2 0 8) then (s.arrive t).waitEnds c (some true)
      else (s.arrive t).enterWait c
        (.waitCmp (fld (s.chan c).cur.w2 0 8) ((s.chan c).waitLimit (s.chan c).cur.w3.toNat))) :=
  onCommand_current (p := isWait 3) (f := fun s => if s.hasFired c (fld (s.chan c).cur.w2 0 8) then s.waitEnds c (some true)
      else s.enterWait c (.waitCmp (fld (s.chan c).cur.w2 0 8) ((s.chan c).waitLimit (s.chan c).cur.w3.toNat))) h
    (by simp [isWait, h.op, hk])

theorem exec_glade_current (h : Current s c 0x21) : exec (.glade t c) s = .next
    (if s.inGlade (s.chan c).cur then (s.arrive t).waitEnds c (some true)
      else (if s.gladeOor (s.chan c).cur then (s.arrive t).modChan c fun h => h.setSt stOutOfRange else s.arrive t).enterWait c
        (.glade ((s.chan c).waitLimit (s.chan c).cur.gladeTimeout))) :=
  onCommand_current (p := fun g => g.op = 0x21) (f := fun s => if s.inGlade (s.chan c).cur then s.waitEnds c (some true)
      else (if s.gladeOor (s.chan c).cur then s.modChan c fun h => h.setSt stOutOfRange else s).enterWait c
        (.glade ((s.chan c).waitLimit (s.chan c).cur.gladeTimeout))) h (decide_eq_true h.op)

/-! ## The end of a wait (R160, R204) -/

theorem exec_waitTimeExpiry_waiting (hup : s.up = true) {d : Time} (hact : (s.chan c).act = .time d) (hst : (s.chan c).st = .waiting) :
    exec (.waitTimeExpiry t c) s = .next (if d ≤ max s.now t then (s.arrive t).waitEnds c none else s.arrive t) := by
  have hexec : exec (.waitTimeExpiry t c) s = .next (match (s.chan c).act with
      | .time due => if (s.chan c).st = .waiting && due ≤ max s.now t then (s.arrive t).waitEnds c none else s.arrive t
      | _ => s.arrive t) :=
    engineEvent_up (f := fun s => match (s.chan c).act with
      | .time due => if (s.chan c).st = .waiting && due ≤ s.now then s.waitEnds c none else s
      | _ => s) hup
  rw [hexec, hact]
  simp only [hst, decide_true, Bool.true_and, decide_eq_true_eq]

theorem exec_gladeComplete_waiting (hup : s.up = true) {l : Option Time} (hact : (s.chan c).act = .glade l) (hst : (s.chan c).st = .waiting) :
    exec (.gladeComplete t c) s = .next (if s.inGlade (s.chan c).cur then (s.arrive t).waitEnds c (some true) else s.arrive t) := by
  have hexec : exec (.gladeComplete t c) s = .next (match (s.chan c).act with
      | .glade _ => if (s.chan c).st = .waiting && s.inGlade (s.chan c).cur then (s.arrive t).waitEnds c (some true) else s.arrive t
      | _ => s.arrive t) :=
    engineEvent_up (f := fun s => match (s.chan c).act with
      | .glade _ => if (s.chan c).st = .waiting && s.inGlade (s.chan c).cur then s.waitEnds c (some true) else s
      | _ => s) hup
  rw [hexec, hact]
  simp only [hst, decide_true, Bool.true_and]

/-- A channel that waits is listed. -/
theorem mem_chanKeys_of_waiting {s : State} {j : Nat} (h : (s.chan j).st = .waiting) : j ∈ s.chanKeys := by
  by_contra hj
  have hnone : s.chan j = {} := tget_of_not_mem _ hj
  rw [hnone] at h
  cases h

/-- R204: a lower channel that the same unit wakes has its turn first. -/
def State.wokenLower (s : State) (c : Nat) : Bool :=
  s.chanKeys.any fun k => decide (k < c) && (s.chan k).st = .waiting && s.wakenBy k = s.wakenBy c

theorem wokenLower_iff {s : State} {c k : Nat} (hk : s.wakenBy c = some k) :
    s.wokenLower c = true ↔ ∃ j, j < c ∧ (s.chan j).st = .waiting ∧ s.wakenBy j = some k := by
  simp only [State.wokenLower, List.any_eq_true, Bool.and_eq_true, decide_eq_true_eq, hk, and_assoc]
  constructor
  · rintro ⟨j, -, h⟩
    exact ⟨j, h⟩
  · rintro ⟨j, hj, hst, hw⟩
    exact ⟨j, mem_chanKeys_of_waiting hst, hj, hst, hw⟩

theorem wakenBy_woken {s : State} {c k : Nat} {x : Time} (h : (s.chan c).act = .woken k x) : s.wakenBy c = some k := by
  simp [State.wakenBy, h]

theorem wakenBy_unit {s : State} {c k : Nat} {l : Option Time} (h : (s.chan c).act = .waitUnit k l) (hu : s.unitReady k = true) :
    s.wakenBy c = some k := by
  simp [State.wakenBy, h, hu]

theorem waitComplete_eq {s : State} {c k : Nat} (hst : (s.chan c).st = .waiting)
    (hw : (∃ x, (s.chan c).act = .woken k x ∧ x ≤ cyc s.now) ∨ ∃ l, (s.chan c).act = .waitUnit k l ∧ s.unitReady k = true) :
    s.waitComplete c = if s.wokenLower c then s else s.waitEnds c (some true) := by
  have hk : s.wakenBy c = some k := by
    rcases hw with ⟨x, hact, -⟩ | ⟨l, hact, hu⟩
    · exact wakenBy_woken hact
    · exact wakenBy_unit hact hu
  have hend : (if (decide ((s.chan c).st = .waiting) && (s.wakenBy c).isSome && !s.wokenLower c) = true then s.waitEnds c (some true) else s) =
      if s.wokenLower c then s else s.waitEnds c (some true) := by
    cases s.wokenLower c <;> simp [hst, hk]
  rw [← hend]
  unfold State.waitComplete State.wokenLower
  rcases hw with ⟨x, hact, hx⟩ | ⟨l, hact, -⟩
  · have hx : (!decide (cyc s.now < x)) = true := by simpa using hx
    simp only [hact, hx, Bool.and_true]
  · simp only [hact, Bool.not_false, Bool.and_true]

end

/-! ## Waking (R204) -/

/-- The channels of `l` woken by `k`, each at the cycle of its place. -/
theorem foldl_woken (k : Nat) (l : List (Nat × Nat)) (s u : State) (c : Nat) (hn : u.now = s.now)
    (hu : u.chan c = s.chan c ∨ ∃ x, cyc s.now ≤ x ∧ u.chan c = { s.chan c with act := .woken k x }) :
    let w := l.foldl (fun s p => s.modChan p.1 fun h => { h with act := .woken k (cyc s.now + 2 * (p.2 / 16)) }) u
    (c ∈ l.map (·.1) → ∃ x, cyc s.now ≤ x ∧ w.chan c = { s.chan c with act := .woken k x }) ∧
      (c ∉ l.map (·.1) → w.chan c = u.chan c) := by
  induction l generalizing u with
  | nil => exact ⟨nofun, fun _ => rfl⟩
  | cons p r ih =>
    obtain ⟨a, i⟩ := p
    by_cases ha : c = a
    · subst ha
      have hw : (u.modChan c fun h => { h with act := .woken k (cyc u.now + 2 * (i / 16)) }).chan c =
          { s.chan c with act := .woken k (cyc s.now + 2 * (i / 16)) } := by
        rcases hu with hu | ⟨x, -, hu⟩ <;> simp [hu, hn]
      have hstep := ih (u := u.modChan c fun h => { h with act := .woken k (cyc u.now + 2 * (i / 16)) }) hn
        (.inr ⟨_, Nat.le_add_right _ _, hw⟩)
      refine ⟨fun _ => ?_, fun hc => absurd (by simp) hc⟩
      by_cases hr : c ∈ r.map (·.1)
      · exact hstep.1 hr
      · exact ⟨_, Nat.le_add_right _ _, (hstep.2 hr).trans hw⟩
    · have hw : (u.modChan a fun h => { h with act := .woken k (cyc u.now + 2 * (i / 16)) }).chan c = u.chan c := by simp [ha]
      have hstep := ih (u := u.modChan a fun h => { h with act := .woken k (cyc u.now + 2 * (i / 16)) }) hn (by rw [hw]; exact hu)
      refine ⟨fun hc => hstep.1 ?_, fun hc => (hstep.2 fun hr => hc ?_).trans hw⟩
      · exact (List.mem_cons.1 hc).resolve_left ha
      · exact List.mem_cons_of_mem _ hr

/-- R91, R204: what a firing or a unit's data leaves of a channel that waits for it. -/
theorem wakeWaiters_chan (s : State) (k c : Nat) :
    ((s.chan c).act.waitsOn = some k → ∃ x, cyc s.now ≤ x ∧ (s.wakeWaiters k).chan c = { s.chan c with act := .woken k x }) ∧
    ((s.chan c).act.waitsOn ≠ some k → (s.wakeWaiters k).chan c = s.chan c) := by
  unfold State.wakeWaiters
  generalize hl : (s.chanKeys.filter fun c => (s.chan c).act.waitsOn = some k) = l
  have hmem : c ∈ (l.zip (List.range l.length)).map (·.1) ↔ (s.chan c).act.waitsOn = some k := by
    rw [List.map_fst_zip (by simp), ← hl, List.mem_filter, decide_eq_true_eq]
    refine ⟨And.right, fun h => ⟨?_, h⟩⟩
    by_contra hc
    have hnone : s.chan c = {} := tget_of_not_mem _ hc
    rw [hnone] at h
    cases h
  obtain ⟨hin, hout⟩ := foldl_woken k (l.zip (List.range l.length)) s s c rfl (.inl rfl)
  exact ⟨fun h => hin (hmem.2 h), fun h => hout fun hc => h (hmem.1 hc)⟩

/-! ## Glades (R162) -/

theorem inGlade_iff (s : State) (g : Group) : s.inGlade g = true ↔
    g.w2.toNat < (s.cell g.gladeCell).modN ∧ g.w3.toNat < (s.cell g.gladeCell).modN ∧
    (g.w2.toNat ≤ g.w3.toNat → g.w2.toNat ≤ (s.cell g.gladeCell).phase.toNat ∧ (s.cell g.gladeCell).phase.toNat ≤ g.w3.toNat) ∧
    (g.w3.toNat < g.w2.toNat → g.w2.toNat ≤ (s.cell g.gladeCell).phase.toNat ∨ (s.cell g.gladeCell).phase.toNat ≤ g.w3.toNat) ∧
    (g.gladeDir = 0 → (s.cell g.gladeCell).dir.toNat = 0) ∧ (g.gladeDir = 1 → (s.cell g.gladeCell).dir.toNat = 1) ∧
    (2 ≤ g.gladeDir → (s.cell g.gladeCell).dir.toNat ≤ 2) := by
  unfold State.inGlade
  dsimp only
  generalize g.w2.toNat = lo
  generalize g.w3.toNat = hi
  generalize (s.cell g.gladeCell).phase.toNat = p
  generalize (s.cell g.gladeCell).dir.toNat = d
  generalize (s.cell g.gladeCell).modN = m
  generalize g.gladeDir = e
  have hin : (if lo ≤ hi then decide (lo ≤ p) && decide (p ≤ hi) else decide (lo ≤ p) || decide (p ≤ hi)) = true ↔
      (lo ≤ hi → lo ≤ p ∧ p ≤ hi) ∧ (hi < lo → lo ≤ p ∨ p ≤ hi) := by
    by_cases h : lo ≤ hi
    · simp [h, Nat.not_lt.2 h]
    · simp [h, Nat.lt_of_not_le h]
  have hdir : (if e = 0 then decide (d = 0) else if e = 1 then decide (d = 1) else decide (d ≤ 2)) = true ↔
      (e = 0 → d = 0) ∧ (e = 1 → d = 1) ∧ (2 ≤ e → d ≤ 2) := by
    match e with
    | 0 => simp
    | 1 => simp
    | e + 2 => simp
  simp only [Bool.and_eq_true, decide_eq_true_eq, and_assoc, hin, hdir]

/-- R160, R162: the timeout of what the channel waits for has passed, and what it waits for has not come. -/
theorem exec_waitTimeout_late {t : Time} {c : Fin 4096} {s : State} {l : Time} (hup : s.up = true) (hst : (s.chan c).st = .waiting)
    (hl : l ≤ max s.now t)
    (hw : (∃ u, (s.chan c).act = .waitUnit u (some l) ∧ s.unitReady u = false) ∨ (∃ k, (s.chan c).act = .waitCmp k (some l)) ∨
      (s.chan c).act = .glade (some l) ∧ s.inGlade (s.chan c).cur = false) :
    exec (.waitTimeout t c) s = .next ((s.arrive t).waitEnds c (some false)) := by
  change execWaitTimeout t c s = _
  have hchan : (s.arrive t).chan c = s.chan c := rfl
  have hlate : decide (l ≤ (s.arrive t).now) = true := decide_eq_true hl
  unfold execWaitTimeout
  rw [engineEvent_up hup]
  dsimp only
  rw [hchan, if_neg (by simp [hst])]
  rcases hw with ⟨u, hact, hu⟩ | ⟨k, hact⟩ | ⟨hact, hg⟩
  · have hu : (s.arrive t).unitReady u = false := hu
    simp only [hact, hlate, hu, Bool.not_false, Bool.and_self, if_true]
  · simp only [hact, hlate, if_true]
  · have hg : (s.arrive t).inGlade (s.chan c).cur = false := hg
    simp only [hact, hlate, hg, Bool.not_false, Bool.and_self, if_true]

/-- R162: a GLADE that its phase has not reached waits, OUT_OF_RANGE noted where a bound lies beyond the modulus. -/
theorem glade_waits {a : State} {c : Nat} {l : Option Time} {n : Nat} {g : Group} (hn : n = (a.cell g.gladeCell).modN) :
    let u := (if a.gladeOor g then a.modChan c fun h => h.setSt stOutOfRange else a).enterWait c (.glade l)
    ((a.chan c).suspReq = true → (a.chan c).committed = false → (a.chan c).st = .active → (u.chan c).st = .suspended) ∧
      ((a.chan c).suspReq = false → (u.chan c).st = (if (a.chan c).st = .haltPending then .haltPending else .waiting) ∧
        (u.chan c).act = .glade l) ∧
      (u.chan c).status = (if n ≤ g.w2.toNat ∨ n ≤ g.w3.toNat then (a.chan c).status ||| 0x2000 else (a.chan c).status) ∧
      (u.chan c).cond = (a.chan c).cond ∧ (u.chan c).cca = (a.chan c).cca ∧ OnlyChan c a u ∧ Quiet a u := by
  have hoor : a.gladeOor g = true ↔ n ≤ g.w2.toNat ∨ n ≤ g.w3.toNat := by simp [State.gladeOor, hn]
  obtain ⟨b, hb, hbc, hbo, hbq⟩ : ∃ b, b = (if a.gladeOor g then a.modChan c fun h => h.setSt stOutOfRange else a) ∧
      b.chan c = { a.chan c with status := if n ≤ g.w2.toNat ∨ n ≤ g.w3.toNat then (a.chan c).status ||| 0x2000 else (a.chan c).status } ∧
      OnlyChan c a b ∧ Quiet a b := by
    refine ⟨_, rfl, ?_⟩
    by_cases h : n ≤ g.w2.toNat ∨ n ≤ g.w3.toNat
    · rw [if_pos (hoor.2 h), if_pos h]
      exact ⟨by rw [State.modChan_eq, State.setChan_chan, if_pos rfl]; rfl, (OnlyChan.refl c a).setChan _, Quiet.put (.refl a) rfl⟩
    · rw [if_neg fun e => h (hoor.1 e), if_neg h]
      exact ⟨rfl, .refl c a, .refl a⟩
  dsimp only
  rw [← hb]
  have hq : Quiet a (b.enterWait c (.glade l)) := hbq.trans (kept_enterWait (.refl b))
  have ho : OnlyChan c a (b.enterWait c (.glade l)) := hbo.trans (enterWait_only b c _)
  by_cases hs : (b.chan c).suspReq = false ∨ (b.chan c).committed = true ∨ (b.chan c).st = .haltPending
  · have hu : (b.enterWait c (.glade l)).chan c = (b.chan c).waitFor (.glade l) := by rw [enterWait_waits rfl hs]; simp
    rw [hu, hbc]
    rw [hbc] at hs
    refine ⟨fun h1 h2 h3 => ?_, fun _ => ⟨rfl, rfl⟩, rfl, rfl, rfl, ho, hq⟩
    simp [h1, h2, h3] at hs
  · simp only [not_or, Bool.not_eq_false, Bool.not_eq_true] at hs
    obtain ⟨h1, h2, h3⟩ := hs
    have hu := enterWait_suspends (a := .glade l) rfl h1 h2 h3 c
    rw [if_pos rfl] at hu
    obtain ⟨kst, -, kstatus, kcond, kcca⟩ := ((b.chan c).waitFor (.glade l)).suspended_keeps
    rw [hu, kstatus, kcond, kcca]
    rw [hbc] at h1
    refine ⟨fun _ _ _ => kst, fun h => ?_, by rw [hbc]; rfl, by rw [hbc]; rfl, by rw [hbc]; rfl, ho, hq⟩
    simp [h] at h1

/-- Settles O11: each WAIT by its kind, each end of a wait by its event, GLADE by whether its phase lies inside. -/
theorem waitsAndGladesEndAtTheirEvent : Obligations.WaitsAndGladesEndAtTheirEvent := by
  refine ⟨fun t c s => ⟨fun h hk => ?_, ?_, fun h hk => ?_, ?_, ?_, ?_, ?_⟩, ⟨?_, fun t c s => ⟨fun h hg => ?_, fun h hg => ?_, ?_⟩⟩, ?_,
    fun s k c => wakeWaiters_chan s k c⟩
  · rw [exec_waitTime_current h hk, ns, Nat.mul_comm (s.chan c).cur.addr]
  · intro d hup hact hst
    exact exec_waitTimeExpiry_waiting hup hact hst
  · rw [exec_waitUnit_current h hk, Chan.waitLimit_word, apply_ite Host.Outcome.next, apply_ite Host.Outcome.next]
    rfl
  · rintro k rfl h hk hf
    rw [exec_waitCompare_current h hk, if_pos ((hasFired_iff ..).2 hf)]
    rfl
  · rintro k rfl h hk hno hlate
    have hf : ¬ s.hasFired c (fld (s.chan c).cur.w2 0 8) = true := fun hf => by
      rcases (hasFired_iff ..).1 hf with ⟨hv, hi, hn⟩ | ⟨x, hx, hle⟩
      · rcases hno with hno | hno | hno
        · simp [hno] at hv
        · exact hno hi
        · exact hn hno
      · exact absurd (hlate x hx) (Nat.not_lt.2 hle)
    rw [exec_waitCompare_current h hk, if_neg hf, Chan.waitLimit_word]
  · intro k hup hst hw
    have hexec : exec (.waitComplete t c) s = .next ((s.arrive t).waitComplete c) := engineEvent_up (f := fun s => s.waitComplete c) hup
    have hk : (s.arrive t).wakenBy c = some k := by
      rcases hw with ⟨x, hact, -⟩ | ⟨l, hact, hu⟩
      · exact wakenBy_woken hact
      · exact wakenBy_unit hact hu
    rw [hexec, waitComplete_eq (s := s.arrive t) hst hw]
    refine ⟨fun hno => ?_, fun j hj hjst hjw => ?_⟩
    · rw [if_neg fun hl => ?_]
      · rfl
      · obtain ⟨j, hj, hjst, hjw⟩ := (wokenLower_iff hk).1 hl
        exact hno j hj hjst hjw
    · rw [if_pos ((wokenLower_iff hk).2 ⟨j, hj, hjst, hjw⟩)]
  · intro l hup hst hl hw
    exact exec_waitTimeout_late hup hst hl hw
  · rintro s g p lo hi m d rfl rfl rfl rfl rfl
    exact inGlade_iff s g
  · have hg : s.inGlade (s.chan c).cur = true := hg
    rw [exec_glade_current h, if_pos hg]
    rfl
  · have hg : s.inGlade (s.chan c).cur = false := hg
    rw [exec_glade_current h, if_neg (by rw [hg]; exact Bool.false_ne_true)]
    refine ⟨_, rfl, ?_⟩
    have hw := glade_waits (a := s.arrive t) (c := c) (g := (s.chan c).cur) rfl
      (l := (s.chan c).waitLimit (s.chan c).cur.gladeTimeout)
    simp only [Chan.waitLimit, us, Nat.mul_comm _ 8000] at hw ⊢
    exact hw
  · intro l hup hact hst
    rw [exec_gladeComplete_waiting hup hact hst, apply_ite Host.Outcome.next, apply_ite Host.Outcome.next]
    rfl
  · rintro s c a h rfl
    refine ⟨fun hw => ?_, fun hs hc hst => ?_⟩
    · rw [enterWait_waits rfl (by tauto)]
      rfl
    · have hu := enterWait_suspends (a := a) rfl hs hc hst c
      rw [if_pos rfl] at hu
      obtain ⟨kst, kreq, -, -, kcca⟩ := ((s.chan c).waitFor a).suspended_keeps
      rw [hu]
      exact ⟨kst, kcca, kreq, enterWait_only s c a⟩

end Sys2Proof.Machine
end


section
/-! PROOFS. SIGNAL, its edges and the slots of the output units (R156, R157, R195, R340, R345 to R349). -/

namespace Sys2Proof.Machine

/-! ## An edge is placed (R345) -/

theorem openWindow_units (s : State) (t : Time) : (s.openWindow t).outs.units = s.outs.units := by
  have key : ∀ (l : List Nat) (s : State), (l.foldl (fun s p => s.setPin p { s.pin p with spent := 0 }) s).outs.units = s.outs.units := by
    intro l
    induction l with
    | nil => exact fun _ => rfl
    | cons x r ih => exact fun s => ih _
  unfold State.openWindow
  dsimp only
  split
  · exact key _ _
  · rfl

theorem clamp_ou (s : State) (u cause : Nat) (t : Time) : (s.clamp u cause t).ou u =
    { s.ou u with clamps := (s.ou u).clamps + 1, lastCause := BitVec.ofNat 4 cause, clampT := t } := by
  unfold State.clamp
  dsimp only
  split <;> simp

/-- What an edge leaves of its unit: the latest edge is the placed one, and a driven pin drives its level. -/
theorem placeEdge_ou (s : State) (u : Nat) (l : Bool) (t : Time) :
    let x := (s.placeEdge u l t).ou u
    x = { s.ou u with lastEdge := max t ((s.ou u).lastEdge + 1), drive := x.drive, edgeT := x.edgeT, clamps := x.clamps,
                      lastCause := x.lastCause, clampT := x.clampT } ∧ (s.isInput u = false → x.drive = l) := by
  dsimp only
  unfold State.placeEdge
  dsimp only
  split
  · next h =>
    rw [State.setOu_ou, if_pos rfl]
    refine ⟨rfl, fun hi => ?_⟩
    have hi : (s.setOu u { s.ou u with lastEdge := max t ((s.ou u).lastEdge + 1) }).isInput u = false := hi
    simpa [hi] using h
  · split
    · split
      · rw [clamp_ou, State.setPin_ou, State.setOu_ou, if_pos rfl]
        exact ⟨rfl, fun _ => rfl⟩
      · rw [State.modOu_eq, State.setOu_ou, if_pos rfl, State.setPin_ou, State.setOu_ou, if_pos rfl]
        exact ⟨rfl, fun _ => rfl⟩
    · split
      · rw [State.modOu_eq, State.setOu_ou, if_pos rfl, State.setPin_ou, State.setOu_ou, if_pos rfl]
        exact ⟨rfl, fun _ => rfl⟩
      · rw [State.setPin_ou, State.setOu_ou, if_pos rfl]
        exact ⟨rfl, fun _ => rfl⟩

theorem placeEdge_lastEdge (s : State) (u : Nat) (l : Bool) (t : Time) :
    ((s.placeEdge u l t).ou u).lastEdge = max t ((s.ou u).lastEdge + 1) := by
  rw [(placeEdge_ou s u l t).1]

/-! ## SIGNAL begins (R156, R157, R349) -/

theorem slotFor_drive (s : State) (c u : Nat) : s.slotFor c u true = true ↔
    (s.ou u).holder = none ∧ (s.ou u).freeAt ≤ cyc s.now ∧ ∀ k ∈ s.slotWaiters u true, c ≤ k := by
  simp [State.slotFor, and_assoc]

theorem slotFor_sample (s : State) (c u : Nat) : s.slotFor c u false = true ↔
    (s.ou u).sampler = none ∧ (s.ou u).sampAt ≤ cyc s.now ∧ ∀ k ∈ s.slotWaiters u false, c ≤ k := by
  simp [State.slotFor, and_assoc]

theorem signalStart_goes {s : State} {c u : Nat} (hu : u = (s.chan c).cur.ou)
    (h : s.isInput u = true ∨ s.slotFor c u true = true ∨ (s.ou u).holder = some c) : s.signalStart c = s.signalGo c := by
  subst hu
  unfold State.signalStart
  exact if_pos (by rcases h with h | h | h <;> simp [h])

theorem signalStart_waits {s : State} {c u : Nat} (hu : u = (s.chan c).cur.ou) (hi : s.isInput u = false) (hs : s.slotFor c u true = false)
    (hh : (s.ou u).holder ≠ some c) : s.signalStart c = s.enterWait c (.slot u) := by
  subst hu
  unfold State.signalStart
  exact if_neg (by simp [hi, hs, hh])

theorem signalGo_input {s : State} {c : Nat} (h : s.isInput (s.chan c).cur.ou = true) : s.signalGo c = s.endWith c [11] := if_pos h

theorem signalGo_driven {s s1 : State} {c : Nat} {g : Group} (hg : g = (s.chan c).cur) (h : s.isInput g.ou = false)
    (h1 : s1 = s.setOu g.ou { s.ou g.ou with holder := some c }) :
    s.signalGo c = if g.sigMode = 2 then s1.pump c else s1.signalFire c (s.now + 1) [] := by
  subst hg h1
  exact if_neg (by rw [h]; exact Bool.false_ne_true)

section

variable {s s2 : State} {c : Nat} {t : Time} {h : Chan} (hc : h = s.chan c)
  (h2 : s2 = s.setChan c { h with act := .signal h.cur.ou, st := h.st.going })
include hc h2

theorem signalFire_level (hm : h.cur.sigMode = 0) (l : List PatEntry) :
    s.signalFire c t l = (s2.placeEdge h.cur.ou (bit h.cur.w2 0) t).signalDone c := by
  subst hc h2
  simp only [State.signalFire, hm]
  rfl

/-- R156: the trailing edge of a PULSE falls WIDTH after its leading one. -/
theorem signalFire_pulse (hm : h.cur.sigMode = 1) (l : List PatEntry) :
    s.signalFire c t l = (s2.placeEdge h.cur.ou (bit h.cur.w3 0) t).modOu h.cur.ou fun o =>
      { o with trail := some (max t ((s.ou h.cur.ou).lastEdge + 1) + h.cur.w2.toNat, !bit h.cur.w3 0) } := by
  have hlast : ((s2.placeEdge h.cur.ou (bit h.cur.w3 0) t).ou h.cur.ou).lastEdge = max t ((s.ou h.cur.ou).lastEdge + 1) := by
    rw [placeEdge_lastEdge, h2]
    rfl
  have hfire : s.signalFire c t l = (s2.placeEdge h.cur.ou (bit h.cur.w3 0) t).modOu h.cur.ou fun o =>
      { o with trail := some (o.lastEdge + h.cur.w2.toNat, !bit h.cur.w3 0) } := by
    subst hc h2
    simp only [State.signalFire, hm]
    rfl
  rw [hfire, State.modOu_eq, State.modOu_eq, hlast]

end

/-! ## Later edges (R195, R345, R347) -/

theorem exec_pulseTrailingEdge_due {t : Time} {u : Fin 128} {s : State} {x : Time} {l : Bool} {c : Nat} (hup : s.up = true)
    (htr : (s.ou u).trail = some (x, l)) (hh : (s.ou u).holder = some c) :
    exec (.pulseTrailingEdge t u) s = .next
      (if x ≤ max s.now t then (((s.arrive t).setOu u { s.ou u with trail := none }).placeEdge u l x).signalDone c else s.arrive t) := by
  have hexec : exec (.pulseTrailingEdge t u) s = .next ((s.arrive t).trailingEdge u) := engineEvent_up (f := fun s => s.trailingEdge u) hup
  have hou : (s.arrive t).ou u = s.ou u := rfl
  rw [hexec]
  unfold State.trailingEdge
  simp only [hou, htr, hh]
  rfl

theorem patternEdge_time {s : State} {u : Nat} {p : PatEntry} {r : List PatEntry} (hp : (s.ou u).pat = p :: r) (hpos : p.pos = false) :
    s.patternEdge u = if (s.ou u).lastEdge + p.value.toNat ≤ s.now then s.patternStep u ((s.ou u).lastEdge + p.value.toNat) else s := by
  have hdue : (s.ou u).timeDue = some ((s.ou u).lastEdge + p.value.toNat) := by
    rw [OutUnit.timeDue, hp]
    simp [hpos]
  simp only [State.patternEdge, hdue]

theorem posAt_of {o : OutUnit} {p : PatEntry} {r : List PatEntry} {x : Time} (hp : o.pat = p :: r) (hpos : p.pos = true)
    (hx : o.posPassed = some x ∨ o.posPassed = none ∧ o.posDue = some x) :
    o.posAt = some (if x ≤ o.lastEdge then (o.lastEdge + 1, true) else (x, false)) := by
  rw [OutUnit.posAt, hp]
  rcases hx with hx | ⟨hn, hx⟩
  · simp [hpos, hx]
  · simp [hpos, hn, hx]

/-- A position edge falls at its due time where that lies past the edge before it. -/
theorem positionEdge_due {s : State} {u : Nat} {x : Time} (hat : (s.ou u).posAt = some (x, false)) :
    s.positionEdge u = if x ≤ s.now then s.patternStep u x else s := by
  unfold State.positionEdge
  simp only [hat]

/-- It falls 125 ps after the edge before it, and is noted as held, where its due time has not been passed by then. -/
theorem positionEdge_held {s : State} {u c : Nat} {x : Time} (hat : (s.ou u).posAt = some (x, true)) (hx : x ≤ s.now)
    (hh : (s.ou u).holder = some c) : s.positionEdge u = (s.placeHeld c).patternStep u x := by
  unfold State.positionEdge
  simp only [hat, hh, if_pos hx]

/-- What `armEdge` leaves of a unit whose next edge is no position edge. -/
theorem armEdge_ou {s : State} {u : Nat} {q : PatEntry} {r : List PatEntry} (hp : (s.ou u).pat = q :: r) (hpos : q.pos = false) :
    (s.armEdge u).ou u = { s.ou u with posDue := none, posCommitted := none, posLocked := false, posHeld := false, posSeen := false,
                                       posPassed := none } := by
  unfold State.armEdge
  simp [hp, hpos]

theorem dropEdges_time {s : State} {u : Nat} {q : PatEntry} {r : List PatEntry} (hp : (s.ou u).pat = q :: r) (hpos : q.pos = false) :
    s.dropEdges u = s := by
  have hw : s.edgeWaits u = false := by simp [State.edgeWaits, hp, hpos]
  simp [State.dropEdges, hw]

theorem patternStep_next {s : State} {u : Nat} {t : Time} {p q : PatEntry} {r : List PatEntry} (hp : (s.ou u).pat = p :: q :: r)
    (hpos : p.pos = false) (hq : q.pos = false) :
    ∃ o : OutUnit, o = ((s.setOu u { s.ou u with pat := q :: r }).placeEdge u p.level t).ou u ∧ (s.patternStep u t).ou u =
      { o with posDue := none, posCommitted := none, posLocked := false, posHeld := false, posSeen := false, posPassed := none } := by
  refine ⟨_, rfl, ?_⟩
  have hpat : (((s.setOu u { s.ou u with pat := q :: r }).placeEdge u p.level t).ou u).pat = q :: r := by
    rw [(placeEdge_ou ..).1]
    simp
  have harm := armEdge_ou hpat hq
  have hdrop : (((s.setOu u { s.ou u with pat := q :: r }).placeEdge u p.level t).armEdge u).dropEdges u = _ :=
    dropEdges_time (by rw [harm]; exact hpat) hq
  have hstep : s.patternStep u t = (((s.setOu u { s.ou u with pat := q :: r }).placeEdge u p.level t).armEdge u).dropEdges u := by
    unfold State.patternStep
    simp only [hp, hpos]
  rw [hstep, hdrop, harm]

theorem patternStep_last {s : State} {u : Nat} {t : Time} {p : PatEntry} {c : Nat} (hp : (s.ou u).pat = [p]) (hpos : p.pos = false)
    (hh : (s.ou u).holder = some c) :
    s.patternStep u t = (((s.setOu u { s.ou u with pat := [] }).placeEdge u p.level t).armEdge u).signalDone c := by
  unfold State.patternStep
  simp only [hp, hpos, hh]

/-- R157: the channel that gets a freed slot goes on with its SIGNAL. -/
theorem slotReserve_goes {s : State} {u c : Nat} {r : List Nat} (hs : s.slotFor c u true = true) (hw : s.slotWaiters u true = c :: r)
    (hact : (s.chan c).act = .slot u)
    (hno : ∀ k q, (s.signalGo c).slotWaiters u false = k :: q → (s.signalGo c).slotFor k u false = false) :
    s.slotReserve u = s.signalGo c := by
  unfold State.slotReserve
  simp only [hw, hs, hact, Bool.not_true, Bool.false_eq_true, if_false, if_true]
  split
  · next k q e => simp [hno k q e]
  · rfl

/-- Settles O13: SIGNAL by its pin and its slot, then by its MODE; later edges by the entry at the head of the pattern. -/
theorem signalsPlaceTheirEdges : Obligations.SignalsPlaceTheirEdges := by
  refine ⟨?_, fun s c u => ⟨slotFor_drive s c u, slotFor_sample s c u⟩, ?_, ?_, ?_, ?_, ?_, ?_, ?_⟩
  · rintro t c s s1 s2 h u st' rfl rfl hcur rfl rfl rfl
    have hgo : s.isInput (s.chan c).cur.ou = false → ((s.arrive t).slotFor c (s.chan c).cur.ou true = true ∨ (s.ou (s.chan c).cur.ou).holder = some c.val) →
        (s.arrive t).signalStart c = if (s.chan c).cur.sigMode = 2 then
          ((s.arrive t).setOu (s.chan c).cur.ou { s.ou (s.chan c).cur.ou with holder := some c.val }).pump c
        else ((s.arrive t).setOu (s.chan c).cur.ou { s.ou (s.chan c).cur.ou with holder := some c.val }).signalFire c (max s.now t + 1) [] :=
      fun hi hs => (signalStart_goes (s := s.arrive t) rfl (.inr hs)).trans (signalGo_driven (s := s.arrive t) rfl hi rfl)
    refine ⟨fun hm hi hs => ?_, fun hm hi hs => ?_, fun hm hi hs => ?_, fun i hi => ?_⟩
    · rw [exec_signalLevel_current hcur hm, hgo hi hs, if_neg (by omega)]
      exact congrArg _ (signalFire_level (s := (s.arrive t).setOu _ _) rfl rfl hm [])
    · rw [exec_signalPulse_current hcur hm, hgo hi hs, if_neg (by omega)]
      refine congrArg _ ((signalFire_pulse (s := (s.arrive t).setOu _ _) rfl rfl hm []).trans ?_)
      simp
    · rw [exec_signalPattern_current hcur hm, hgo hi hs, if_pos hm]
    · have hexec : exec i s = .next ((s.arrive t).signalStart c) := by
        rcases hi with ⟨rfl, hm⟩ | ⟨rfl, hm⟩ | ⟨rfl, hm⟩
        · exact exec_signalLevel_current hcur hm
        · exact exec_signalPulse_current hcur hm
        · exact exec_signalPattern_current hcur hm
      rw [hexec]
      refine ⟨fun hin => ?_, fun hin hs hh => ?_⟩
      · exact congrArg _ ((signalStart_goes (s := s.arrive t) rfl (.inl hin)).trans (signalGo_input (s := s.arrive t) hin))
      · exact congrArg _ (signalStart_waits (s := s.arrive t) rfl hin hs hh)
  · intro t u s x l c hup htr hh
    exact exec_pulseTrailingEdge_due hup htr hh
  · rintro t u s s1 c r hup hs hw hact rfl hno
    have hexec : exec (.slotReserve t u) s = .next ((s.arrive t).slotReserve u) := engineEvent_up (f := fun s => s.slotReserve u) hup
    rw [hexec, slotReserve_goes hs hw hact hno]
  · rintro s s1 c g rfl rfl
    by_cases hi : s.isInput (s.chan c).cur.ou = true
    · rw [if_pos hi, signalGo_input hi]
    · rw [if_neg hi, signalGo_driven rfl (Bool.not_eq_true _ ▸ hi) rfl]
  · intro t u s p r hup hp hpos
    have hexec : exec (.patternEdge t u) s = .next ((s.arrive t).patternEdge u) := engineEvent_up (f := fun s => s.patternEdge u) hup
    rw [hexec, patternEdge_time (s := s.arrive t) hp hpos]
    rfl
  · intro t u s p r x hup hp hpos hx
    have hexec : exec (.positionEdge t u) s = .next ((s.arrive t).positionEdge u) := engineEvent_up (f := fun s => s.positionEdge u) hup
    have hat := posAt_of hp hpos hx
    rw [hexec]
    refine ⟨fun hl hd => ?_, fun c hl hd hh => ?_, fun hl hd => ?_⟩
    · rw [if_neg (Nat.not_le.2 hl)] at hat
      rw [positionEdge_due (s := s.arrive t) hat]
      exact congrArg _ (if_pos hd)
    · rw [if_pos hl] at hat
      rw [positionEdge_held (s := s.arrive t) hat hd hh]
      rfl
    · rw [if_neg (Nat.not_le.2 hl)] at hat
      rw [positionEdge_due (s := s.arrive t) hat]
      exact congrArg _ (if_neg (Nat.not_le.2 hd))
  · intro s u t p q r hp hpos hq
    obtain ⟨o, ho, hou⟩ := patternStep_next (t := t) hp hpos hq
    obtain ⟨hplace, hdrive⟩ := placeEdge_ou (s.setOu u { s.ou u with pat := q :: r }) u p.level t
    rw [← ho] at hplace hdrive
    rw [hou]
    simp only [State.setOu_ou, if_true] at hplace
    refine ⟨by rw [hplace], by rw [hplace], by rw [hplace], hdrive⟩
  · intro s u t p c hp hpos hh
    exact patternStep_last hp hpos hh

end Sys2Proof.Machine
end


section
/-! PROOFS. ARM writes a unit's image in one cycle (R95, R98, R158). -/

namespace Sys2Proof.Machine

/-! ## Compare units -/

theorem CmpPut.trans {k : Nat} {x y : Cmp} {s u w : State} (h : CmpPut k x s u) (g : CmpPut k y u w) : CmpPut k y s w :=
  ⟨g.same, fun j hj => (g.other j hj).trans (h.other j hj), g.caps.trans h.caps, h.ran.trans g.ran⟩

theorem Cmp.refuses_of_ctrl {u w : Cmp} (h : u.ctrl = w.ctrl) (k : Nat) (v : Word) : u.refuses k v = w.refuses k v := by
  rw [Bool.eq_iff_iff, Cmp.refuses_iff, Cmp.refuses_iff]
  simp only [Cmp.en, Cmp.cell, Cmp.repeat_, Cmp.chain, h]

/-- R94, R158: phase, turn and increment of an image, before its control word is judged. -/
theorem cmpImage_values (s : State) (k : Nat) (phase turn incr : Word) :
    ∃ x, CmpPut k x s ((((s.setCmp k { s.cmp k with incr := incr, cfgRej := false }).cmpValue k false phase).cmpValue k true turn)) ∧
      x.phase = phase ∧ x.turn = turn ∧ x.incr = incr ∧ x.cfgRej = false ∧ x.ctrl = (s.cmp k).ctrl := by
  have h1 : CmpPut k { s.cmp k with incr := incr, cfgRej := false } s (s.setCmp k { s.cmp k with incr := incr, cfgRej := false }) :=
    .of_set s k (.refl _)
  generalize s.setCmp k { s.cmp k with incr := incr, cfgRej := false } = w1 at h1 ⊢
  have h2 := cmpValue_put w1 k false phase
  generalize w1.cmpValue k false phase = w2 at h2 ⊢
  have h3 := cmpValue_put w2 k true turn
  obtain ⟨c1, -, -, i1, -, -, -, -, r1, -⟩ := h1.fields
  obtain ⟨c2, p2, -, i2, -, -, -, -, r2, -⟩ := h2.fields
  exact ⟨_, (h1.trans h2).trans h3, p2, rfl, i2.trans i1, r2.trans r1, c2.trans c1⟩

theorem cmpImage_spec {s u : State} {k : Nat} {ctrl phase turn incr : Word} {rej : Bool} (h : s.cmpImage k ctrl phase turn incr = (rej, u)) :
    rej = (s.cmp k).refuses k ctrl ∧ (u.cmp k).phase = phase ∧ (u.cmp k).turn = turn ∧ (u.cmp k).incr = incr ∧
      (u.cmp k).ctrl = (if rej then (s.cmp k).ctrl else ctrl &&& 0x0FFFFDFF) ∧ (u.cmp k).cfgRej = (rej || (s.cmp k).cfgRej) ∧
      (∀ j, j ≠ k → u.cmp j = s.cmp j) ∧ u.caps = s.caps ∧ Ran s u := by
  obtain ⟨x, hput, xphase, xturn, xincr, xrej, xctrl⟩ := cmpImage_values s k phase turn incr
  unfold State.cmpImage at h
  simp only [State.modCmp_eq] at h
  generalize ((s.setCmp k { s.cmp k with incr := incr, cfgRej := false }).cmpValue k false phase).cmpValue k true turn = w at h hput
  obtain ⟨wctrl, wphase, wturn, wincr, -, -, -, -, wrej, -⟩ := hput.fields
  have href : (w.cmp k).refuses k ctrl = (s.cmp k).refuses k ctrl := Cmp.refuses_of_ctrl (wctrl.trans xctrl) k ctrl
  obtain ⟨y, hy, yphase, yturn, yincr, yctrl, yrej⟩ : ∃ y, CmpPut k y s (w.cmpCtrl k ctrl) ∧ y.phase = phase ∧ y.turn = turn ∧ y.incr = incr ∧
      y.ctrl = (if (s.cmp k).refuses k ctrl then (s.cmp k).ctrl else ctrl &&& 0x0FFFFDFF) ∧ y.cfgRej = (s.cmp k).refuses k ctrl := by
    cases hr : (s.cmp k).refuses k ctrl
    · obtain ⟨y, hy, hyx⟩ := cmpCtrl_put (href.trans hr)
      exact ⟨y, hput.trans hy, (congrArg Cmp.phase hyx).trans (wphase.trans xphase), (congrArg Cmp.turn hyx).trans (wturn.trans xturn),
        (congrArg Cmp.incr hyx).trans (wincr.trans xincr), congrArg Cmp.ctrl hyx, (congrArg Cmp.cfgRej hyx).trans (wrej.trans xrej)⟩
    · have hctrl : w.cmpCtrl k ctrl = w.setCmp k { w.cmp k with cfgRej := true } := if_pos (href.trans hr)
      rw [hctrl]
      exact ⟨_, hput.trans (.of_set w k (.refl _)), wphase.trans xphase, wturn.trans xturn, wincr.trans xincr, wctrl.trans xctrl, rfl⟩
  generalize w.cmpCtrl k ctrl = v at h hy
  obtain ⟨vctrl, vphase, vturn, vincr, -, -, -, -, vrej, -⟩ := hy.fields
  have hfinal := hy.trans (.of_set v k (y := { v.cmp k with cfgRej := (v.cmp k).cfgRej || (s.cmp k).cfgRej }) (.refl _))
  obtain ⟨rfl, rfl⟩ := Prod.mk.inj h
  obtain ⟨uctrl, uphase, uturn, uincr, -, -, -, -, urej, -⟩ := hfinal.fields
  have hrej := vrej.trans yrej
  refine ⟨hrej, uphase.trans (vphase.trans yphase), uturn.trans (vturn.trans yturn), uincr.trans (vincr.trans yincr), ?_, urej,
    hfinal.other, hfinal.caps, hfinal.ran⟩
  rw [uctrl, hrej]
  exact vctrl.trans yctrl

/-! ## Capture units -/

theorem CapPut.trans {j : Nat} {x y : Cap} {s u w : State} (h : CapPut j x s u) (g : CapPut j y u w) : CapPut j y s w :=
  ⟨g.same, fun i hi => (g.other i hi).trans (h.other i hi), g.cmps.trans h.cmps, h.ran.trans g.ran⟩

theorem CapPut.fields {j : Nat} {x : Cap} {s u : State} (h : CapPut j x s u) :
    (u.cap j).ctrl = x.ctrl ∧ (u.cap j).cfgRej = x.cfgRej ∧ (u.cap j).filt = x.filt ∧ (u.cap j).presc = x.presc ∧ (u.cap j).chan = x.chan := by
  rw [h.same]
  exact ⟨rfl, rfl, rfl, rfl, rfl⟩

theorem Cap.refuses_of_ctrl {u w : Cap} (h : u.ctrl = w.ctrl) (v : Word) : u.refuses v = w.refuses v := by
  rw [Bool.eq_iff_iff, Cap.refuses_iff, Cap.refuses_iff]
  simp only [Cap.en, Cap.kind, Cap.index, Cap.cell, h]

theorem Cap.accepted_cfgRej (u : Cap) (p : BitVec 48 × Word × BitVec 16 × Bool) (ts : Time) (rising : Bool) :
    (u.accepted p ts rising).cfgRej = u.cfgRej := by
  unfold Cap.accepted
  split
  · rfl
  · split <;> rfl

/-- An accepted level leaves the control word and CFG_REJ of its unit. -/
theorem capLevel_ctrl {s u : State} {j : Nat} {x : Cap} (h : CapPut j x s u) (v : Bool) (ts : Time) :
    ∃ y, CapPut j y s (u.capLevel j v ts) ∧ y.ctrl = x.ctrl ∧ y.cfgRej = x.cfgRej := by
  obtain ⟨xctrl, xrej, -⟩ := h.fields
  have hself : CapPut j (u.cap j) s u := ⟨rfl, h.other, h.cmps, h.ran⟩
  by_cases hc : ((u.cap j).en && (u.cap j).kind ≠ 5 && edgeOk (u.cap j).edge v) = true
  · have hc' := hc
    simp only [Bool.and_eq_true, decide_eq_true_eq] at hc'
    obtain ⟨⟨he, hk⟩, hv⟩ := hc'
    refine ⟨_, capLevel_put hself rfl he hk hv ts, ?_, ?_⟩
    · exact (Cap.accepted_keeps ..).2.2.trans xctrl
    · exact (Cap.accepted_cfgRej ..).trans xrej
  · have hlev : u.capLevel j v ts = u.setCap j { u.cap j with level := v } := if_neg hc
    rw [hlev]
    exact ⟨_, hself.set { u.cap j with level := v }, xctrl, xrej⟩

theorem foldl_capLevel {s : State} {j : Nat} (l : List Accept) {u : State} {x : Cap} (h : CapPut j x s u) :
    ∃ y, CapPut j y s (l.foldl (fun s a => s.capLevel j a.level a.stamp) u) ∧ y.ctrl = x.ctrl ∧ y.cfgRej = x.cfgRej := by
  induction l generalizing u x with
  | nil => exact ⟨x, h, rfl, rfl⟩
  | cons a r ih =>
    obtain ⟨y, hy, hctrl, hrej⟩ := capLevel_ctrl h a.level a.stamp
    obtain ⟨z, hz, zctrl, zrej⟩ := ih hy
    exact ⟨z, hz, zctrl.trans hctrl, zrej.trans hrej⟩

theorem capFeed_ctrl (s : State) (j : Nat) (l : List (Time × Bool)) :
    ∃ y, CapPut j y s (s.capFeed j l) ∧ y.ctrl = (s.cap j).ctrl ∧ y.cfgRej = (s.cap j).cfgRej := by
  obtain ⟨f, a, hf⟩ : ∃ f a, Filt.feed (fld (s.cap j).filt 4 8 + 1) (fld (s.cap j).filt 0 4 + 1) s.now l (s.cap j).level (s.cap j).pf = (f, a) :=
    ⟨_, _, rfl⟩
  rw [capFeed_eq hf]
  obtain ⟨y, hy, hctrl, hrej⟩ := foldl_capLevel a ((CapPut.start s j).set { s.cap j with pf := f })
  exact ⟨y, hy, hctrl, hrej⟩

theorem capImage_spec {s u : State} {j : Nat} {ctrl filt presc chan : Word} {rej : Bool} (h : s.capImage j ctrl filt presc chan = (rej, u)) :
    rej = (s.cap j).refuses ctrl ∧ (u.cap j).filt = filt &&& 0xFFF ∧ (u.cap j).presc = presc &&& 0xFFFF ∧ (u.cap j).chan = chan &&& 0xFFF ∧
      (u.cap j).ctrl = (if rej then (s.cap j).ctrl else ctrl &&& 0x3FFFFF) ∧ (u.cap j).cfgRej = (rej || (s.cap j).cfgRej) ∧
      (∀ i, i ≠ j → u.cap i = s.cap i) ∧ u.cmps = s.cmps ∧ Ran s u := by
  obtain ⟨x, hput, xctrl, -⟩ := capFeed_ctrl s j []
  unfold State.capImage State.capFilt at h
  simp only [State.modCap_eq, State.setCap_cap, if_true, State.setCap_setCap] at h
  generalize s.capFeed j [] = w at h hput
  obtain ⟨wctrl, -⟩ := hput.fields
  have himg := hput.set { w.cap j with filt := filt &&& 0xFFF, presc := presc &&& 0xFFFF, chan := chan &&& 0xFFF, cfgRej := false }
  generalize hv : w.setCap j { w.cap j with filt := filt &&& 0xFFF, presc := presc &&& 0xFFFF, chan := chan &&& 0xFFF, cfgRej := false } = v
    at h himg
  obtain ⟨vctrl, vrej, vfilt, vpresc, vchan⟩ := himg.fields
  have hctrl : (v.cap j).ctrl = (s.cap j).ctrl := vctrl.trans (wctrl.trans xctrl)
  have href : (v.cap j).refuses ctrl = (s.cap j).refuses ctrl := Cap.refuses_of_ctrl hctrl ctrl
  obtain ⟨y, hy, yfilt, ypresc, ychan, yctrl, yrej⟩ : ∃ y, CapPut j y s (v.capCtrl j ctrl) ∧ y.filt = filt &&& 0xFFF ∧
      y.presc = presc &&& 0xFFFF ∧ y.chan = chan &&& 0xFFF ∧
      y.ctrl = (if (s.cap j).refuses ctrl then (s.cap j).ctrl else ctrl &&& 0x3FFFFF) ∧ y.cfgRej = (s.cap j).refuses ctrl := by
    have hself : CapPut j (v.cap j) s v := ⟨rfl, himg.other, himg.cmps, himg.ran⟩
    unfold State.capCtrl
    dsimp only
    rw [href]
    cases hr : (s.cap j).refuses ctrl
    · rw [if_neg Bool.false_ne_true]
      split
      · exact ⟨_, hself.set _, vfilt, vpresc, vchan, rfl, vrej⟩
      · exact ⟨_, hself.set _, vfilt, vpresc, vchan, rfl, vrej⟩
    · rw [if_pos rfl]
      exact ⟨_, hself.set _, vfilt, vpresc, vchan, hctrl, rfl⟩
  generalize v.capCtrl j ctrl = z at h hy
  obtain ⟨zctrl, zrej, zfilt, zpresc, zchan⟩ := hy.fields
  have hfinal := hy.set { z.cap j with cfgRej := (z.cap j).cfgRej || (s.cap j).cfgRej }
  obtain ⟨rfl, rfl⟩ := Prod.mk.inj h
  obtain ⟨uctrl, urej, ufilt, upresc, uchan⟩ := hfinal.fields
  have hrej := zrej.trans yrej
  refine ⟨hrej, ufilt.trans (zfilt.trans yfilt), upresc.trans (zpresc.trans ypresc), uchan.trans (zchan.trans ychan), ?_, urej,
    hfinal.other, hfinal.cmps, hfinal.ran⟩
  rw [uctrl, hrej]
  exact zctrl.trans yctrl

/-! ## ARM -/

theorem armDo_compare {s s1 : State} {c k : Nat} {g : Group} {rej : Bool} (hg : g = (s.chan c).cur) (hb : bit g.w1 8 = false)
    (hk : k = fld g.w1 0 8) (h : s.cmpImage k g.o0 g.o1 g.o2 g.o3 = (rej, s1)) :
    ∃ s2, s2 = s1.setChan c { s1.chan c with armIdx := k, armValid := true, armFcnt := (s1.cmp k).fcnt } ∧
      s.armDo c = if rej then s2.endOr c 11 else s2.complete c := by
  subst hg hk
  refine ⟨_, rfl, ?_⟩
  unfold State.armDo
  simp only [hb, Bool.false_eq_true, if_false, h]
  rfl

theorem armDo_capture {s s1 : State} {c : Nat} {g : Group} {rej : Bool} (hg : g = (s.chan c).cur) (hb : bit g.w1 8 = true)
    (h : s.capImage (fld g.w1 0 8) g.o0 g.o1 g.o2 g.o3 = (rej, s1)) :
    s.armDo c = if rej then s1.endOr c 11 else s1.complete c := by
  subst hg
  unfold State.armDo
  simp only [hb, if_true, h]
  rfl

/-- Settles O14: each image by what its words leave and whether the control word is refused, then ARM by its kind of unit. -/
theorem armWritesTheUnitsImage : Obligations.ArmWritesTheUnitsImage := by
  refine ⟨fun s u k ctrl phase turn incr rej h => ?_, fun s u j ctrl filt presc chan rej h => ?_, ?_, ?_⟩
  · obtain ⟨hrej, hrest⟩ := cmpImage_spec h
    exact ⟨by rw [hrej]; exact Cmp.refuses_iff .., hrest⟩
  · obtain ⟨hrej, hrest⟩ := capImage_spec h
    exact ⟨by rw [hrej], hrest⟩
  · rintro t c s s1 rej g k hg hcur hb hk h
    obtain ⟨s2, h2, hdo⟩ := armDo_compare (s := s.arrive t) (c := c) hg hb hk h
    exact ⟨s2, h2, by rw [exec_armCompare_current hcur (hg ▸ hb), hdo]⟩
  · rintro t c s s1 rej g hg hcur hb h
    rw [exec_armCapture_current hcur (hg ▸ hb), armDo_capture (s := s.arrive t) hg hb h]

end Sys2Proof.Machine
end


section
/-! PROOFS. CONTROL acts on its unit and completes (R150). -/

namespace Sys2Proof.Machine

/-! ## What the orders do -/

theorem flushUnit_of_class (s : State) (u : Nat) :
    (unitClass u = .stream → s.flushUnit u = s.setStream u { s.stream u with recs := (s.stream u).recs.take (b2n (s.stream u).owner.isSome) }) ∧
    (unitClass u = .cap → s.flushUnit u = s.setCap (u - 0x300) { s.cap (u - 0x300) with
      fifo := (s.capFree (u - 0x300)).foldl List.erase (s.cap (u - 0x300)).fifo }) ∧
    (unitClass u = .serial → s.flushUnit u = s.setSer (u % 8) { s.ser (u % 8) with
      raw := (s.serFree (u % 8)).foldl List.erase (s.ser (u % 8)).raw }) ∧
    (unitClass u = .txq → s.flushUnit u = s.setTxq (u - 0x100) { s.txq (u - 0x100) with frames := [] }) := by
  refine ⟨fun h => ?_, fun h => ?_, fun h => ?_, fun h => ?_⟩
  · simp only [State.flushUnit, h]
  · change s.flushUnit u = s.setCap (capOfUnit u) { s.cap (capOfUnit u) with
      fifo := (s.capFree (capOfUnit u)).foldl List.erase (s.cap (capOfUnit u)).fifo }
    simp only [State.flushUnit, h]
  · simp only [State.flushUnit, h]
  · change s.flushUnit u = s.setTxq (txqOf u) { s.txq (txqOf u) with frames := [] }
    simp only [State.flushUnit, h]

section

variable {s : State} {g : Group} {n : Nat}

theorem control_flush (hc : unitClass g.unit ≠ .cell) : s.control g = (true, s.flushUnit g.unit) := by
  unfold State.control
  generalize unitClass g.unit = k at hc
  cases k with
  | cell => exact absurd rfl hc
  | _ => rfl

variable (hc : unitClass g.unit = .cell) (hn : cellOfUnit g.unit = n)
include hc hn

theorem control_load (ho : fld g.w1 0 8 = 1) : s.control g = s.loadCell n (BitVec.ofInt 48 g.w3.toInt) g.w2 := by
  unfold State.control
  rw [hn, hc, ho]
  rfl

theorem control_setMod (ho : fld g.w1 0 8 = 2) : s.control g = (true, s.writeMod n g.w2) := by
  unfold State.control
  rw [hn, hc, ho]
  rfl

theorem control_setRate (ho : fld g.w1 0 8 = 3) : s.control g = (true, s.commitRate n (BitVec.ofNat 64 g.addr)) := by
  unfold State.control
  rw [hn, hc, ho]
  rfl

end

theorem controlDo_takes {s u : State} {c : Nat} (h : s.control (s.chan c).cur = (true, u)) : s.controlDo c = u.complete c := by
  simp only [State.controlDo, h]

theorem controlDo_refuses {s u : State} {c : Nat} (h : s.control (s.chan c).cur = (false, u)) : s.controlDo c = u.endOr c 11 := by
  simp only [State.controlDo, h]
  rfl

theorem isControl_iff (cell : Bool) (order : Nat) (g : Group) :
    isControl cell order g = true ↔ g.op = 0x03 ∧ (unitClass g.unit = .cell ↔ cell = true) ∧ fld g.w1 0 8 = order := by
  cases cell <;> simp [isControl, and_assoc]

/-- A load within the modulus is answered as taken, one beyond it as refused. -/
theorem loadCell_answer (s : State) (n : Nat) (turn : BitVec 48) (p : Word) :
    (s.loadCell n turn p).1 = decide (p.toNat < (s.cell n).modN) := by
  unfold State.loadCell
  dsimp only
  split
  · next h => simp [Nat.not_lt.2 h]
  · next h => simp [Nat.lt_of_not_le h]

/-- Settles O15: FLUSH by the class of its unit, the orders of a cell by what they leave of it. -/
theorem controlActsOnItsUnit : Obligations.ControlActsOnItsUnit := by
  refine ⟨fun s u => flushUnit_of_class s u, ?_⟩
  rintro t c s g rfl hcur
  have hcell : ∀ n, n = (s.chan c).cur.unit - 0x380 → cellOfUnit (s.chan c).cur.unit = n := fun n hn => by
    unfold cellOfUnit
    exact hn.symm
  refine ⟨fun hc ho => ?_, fun n hc hn => ?_⟩
  · rw [exec_flush_current hcur ((isControl_iff ..).2 ⟨hcur.op, by simp [hc], ho⟩)]
    exact congrArg _ (controlDo_takes (s := s.arrive t) (control_flush hc))
  replace hn := hcell n hn
  refine ⟨fun ho hp => ?_, fun ho hp => ?_, fun ho => ?_, fun ho => ?_⟩
  · have hctl := control_load (s := s.arrive t) hc hn ho
    have hans : ((s.arrive t).loadCell n (BitVec.ofInt 48 (s.chan c).cur.w3.toInt) (s.chan c).cur.w2).1 = true := by
      rw [loadCell_answer]
      exact decide_eq_true hp
    obtain ⟨d, hd, dturn, dphase, dfrac, -, dhist, -⟩ := loadCell_taken (s.arrive t) n (BitVec.ofInt 48 (s.chan c).cur.w3.toInt) _ hp
    refine ⟨((s.arrive t).loadCell n (BitVec.ofInt 48 (s.chan c).cur.w3.toInt) (s.chan c).cur.w2).2, ?_, ?_⟩
    · rw [exec_load_current hcur ((isControl_iff ..).2 ⟨hcur.op, by simp [hc], ho⟩)]
      exact congrArg _ (controlDo_takes (s := s.arrive t) (hctl.trans (Prod.ext hans rfl)))
    · rw [hd]
      exact ⟨dturn, dphase, dfrac, dhist, fun j hj => loadCell_frame _ n _ _ j hj, loadCell_aims ..⟩
  · have hctl := control_load (s := s.arrive t) hc hn ho
    have hans : ((s.arrive t).loadCell n (BitVec.ofInt 48 (s.chan c).cur.w3.toInt) (s.chan c).cur.w2).1 = false := by
      rw [loadCell_answer]
      exact decide_eq_false (Nat.not_lt.2 hp)
    rw [exec_load_current hcur ((isControl_iff ..).2 ⟨hcur.op, by simp [hc], ho⟩)]
    exact congrArg _ (controlDo_refuses (s := s.arrive t) (hctl.trans (Prod.ext hans (loadCell_rejected (s.arrive t) n _ _ hp))))
  · refine ⟨(s.arrive t).writeMod n (s.chan c).cur.w2, ?_, ?_⟩
    · rw [exec_setMod_current hcur ((isControl_iff ..).2 ⟨hcur.op, by simp [hc], ho⟩)]
      exact congrArg _ (controlDo_takes (s := s.arrive t) (control_setMod hc hn ho))
    · obtain ⟨kmod, -, -, kphase, kturn, -⟩ := writeMod_at (s.arrive t) n (s.chan c).cur.w2
      exact ⟨kmod, kphase, kturn, fun j hj => (writeMod_cell ..).trans (if_neg hj), kept_writeMod (.refl _)⟩
  · refine ⟨(s.arrive t).commitRate n (BitVec.ofNat 64 (s.chan c).cur.addr), ?_, ?_⟩
    · rw [exec_setRate_current hcur ((isControl_iff ..).2 ⟨hcur.op, by simp [hc], ho⟩)]
      exact congrArg _ (controlDo_takes (s := s.arrive t) (control_setRate hc hn ho))
    · rw [commitRate_cell, caughtUp_rest]
      exact ⟨rfl, rfl, rfl, fun j hj => commitRate_cell_ne _ _ hj, (commitRate_aims ..).toKept⟩

end Sys2Proof.Machine
end


section
/-! PROOFS. SENSE answers or asks for a mover; transfers ask for one (R144 to R155, R208, R386). -/

namespace Sys2Proof.Machine

/-! ## SENSE (R149) -/

/-- The channel of a SENSE that has sampled its unit. -/
theorem senseStart_samples {s : State} {c : Nat} {h : Chan} (hc : h = s.chan c) (hs : h.snap = []) :
    s.senseStart c = if h.cur.skp then (s.setChan c { h with cond := h.cur.senseCond (s.senseWord h.cur.unit), condValid := true }).complete c
      else (s.setChan c { h with cond := h.cur.senseCond (s.senseWord h.cur.unit), condValid := true,
                                 snap := s.senseBlock h.cur.unit s.now }).pump c := by
  subst hc
  have hemp : (s.chan c).snap.isEmpty = true := by simp [hs]
  unfold State.senseStart
  simp only [hemp, if_true, State.senseSample, State.modChan_eq, State.setChan_chan]
  cases hk : (s.chan c).cur.skp
  · simp only [Chan.setCond, hk, Bool.false_eq_true, if_false]
  · simp only [Chan.setCond, hk, if_true]
    rw [← hs]

/-! ## READ, WRITE, GATHER (R144, R147, R155, R386) -/

section

variable {s : State} {c : Nat} {h : Chan} (hc : h = s.chan c)
include hc

theorem tooLong_iff (more : Nat) : s.tooLong c more = true ↔
    unitClass h.cur.unit = .txq ∧ (s.port (txqOf h.cur.unit / 4)).maxLen < h.frame.length + more + 4 := by
  simp [State.tooLong, hc]

theorem writeStart_eq (hop : h.cur.op = 0x02) : s.writeStart c =
    if s.unitCheck 0x02 h.cur.unit = true ∨ unitClass h.cur.unit = .txq ∧
      (s.port (txqOf h.cur.unit / 4)).maxLen < h.frame.length + h.resid + 4 then s.endWith c [11] else s.pump c := by
  have hlong := tooLong_iff hc h.resid
  subst hc
  unfold State.writeStart
  simp only [Bool.or_eq_true, hop, hlong]
  rfl

theorem gatherStart_eq : s.gatherStart c =
    if unitClass h.cur.unit = .txq ∧ (s.unitCheck 0x02 h.cur.unit = true ∨
      (s.port (txqOf h.cur.unit / 4)).maxLen < h.frame.length + (h.resid * h.cur.gSize - h.ebyte) + 4) then s.endWith c [11]
    else s.pump c := by
  have hlong := tooLong_iff hc (h.resid * h.cur.gSize - h.ebyte)
  subst hc
  unfold State.gatherStart
  simp only [Bool.and_eq_true, decide_eq_true_eq, Bool.or_eq_true, hlong]
  by_cases hu : unitClass (s.chan c).cur.unit = .txq
  · simp only [hu, true_and]
    rfl
  · simp only [hu, false_and]
    rfl

variable (hop : h.cur.op = 0x01)
include hop

theorem readStart_refused (hu : s.unitCheck 0x01 h.cur.unit = true) : s.readStart c = s.endWith c [11] := by
  subst hc
  rw [← hop] at hu
  exact if_pos hu

/-- What a READ of a cell or of a shared slot samples at its start. -/
def State.readSnap (s : State) (u : Nat) : List Byte :=
  match unitClass u with
  | .cell => s.cellSnapshot (cellOfUnit u) s.now
  | .yazen => s.yz.slotData (slotOf u)
  | _ => []

variable (hu : s.unitCheck 0x01 h.cur.unit = false)
include hu

theorem readStart_skips (hr : h.recEnded = true) (hi : h.inChain = true) : s.readStart c = s.readSkip c := by
  subst hc
  rw [← hop] at hu
  unfold State.readStart
  simp only [hu, hr, hi, Bool.and_self, Bool.false_eq_true, if_false, if_true]

theorem readStart_places (hr : h.recEnded = false ∨ h.inChain = false) (hp : s.placing c = true) : s.readStart c =
    if h.cur.cd = true ∨ h.cur.count % (s.stream h.cur.unit).stride ≠ 0 then s.endWith c [11]
    else (s.setChan c { h with fragA := none }).placeGo c := by
  have hno : (h.recEnded && h.inChain) = false := by rcases hr with hr | hr <;> simp [hr]
  subst hc
  rw [← hop] at hu
  unfold State.readStart
  simp only [hu, hno, hp, Bool.false_eq_true, if_false, if_true, Bool.or_eq_true, decide_eq_true_eq]
  rfl

theorem readStart_pumps (hr : h.recEnded = false ∨ h.inChain = false) (hp : s.placing c = false) : s.readStart c =
    (s.setChan c { h with snap := if h.snap = [] then s.readSnap h.cur.unit else h.snap }).pump c := by
  have hno : (h.recEnded && h.inChain) = false := by rcases hr with hr | hr <;> simp [hr]
  subst hc
  rw [← hop] at hu
  unfold State.readStart
  simp only [hu, hno, hp, Bool.false_eq_true, if_false]
  refine congrArg (fun x => (s.setChan c x).pump c) ?_
  cases hs : (s.chan c).snap with
  | nil =>
    unfold State.readSnap
    simp only [List.isEmpty_nil, Bool.not_true, Bool.false_eq_true, if_false, if_true]
    generalize unitClass (s.chan c).cur.unit = k
    cases k with
    | cell => rfl
    | yazen => rfl
    | _ => rw [← hs]
  | cons x l =>
    simp only [List.isEmpty_cons, Bool.not_false, if_true, reduceCtorEq, if_false]
    rw [← hs]

end

/-! ## The channel asks for its next burst (R142, R208, R217) -/

/-- R142: a used-up LAST fragment is one that needs its next entry. -/
theorem fragOver_false_of_needs {f : Option Frag} (h : fragNeeds f = false) : fragOver f = false := by
  cases f with
  | none => rfl
  | some f =>
    have h : decide (f.left = 0) = false := h
    simp only [fragOver, h, Bool.false_and]

section

variable {s s1 s2 : State} {c : Nat} {h : Chan} (hc : h = s.chan c)
include hc

/-- R194, R243: an uncommitted command of a draining channel asks for nothing. -/
theorem pump_drains (hst : h.st = .haltPending) (hcm : h.committedNow = false) : s.pump c = s := by
  subst hc
  exact if_pos (by simp [hst, hcm])

variable (hrun : h.st ≠ .haltPending ∨ h.committedNow = true) (h1 : s1 = s.setChan c { h with act := .move, st := h.st.going })
include hrun h1

theorem pump_runs : s.pump c =
    if fragOver h.fragA || fragOver h.fragB then s1.endWith c [0]
    else if fragNeeds h.fragA || fragNeeds h.fragB then s1
    else if !s1.sideReady c then s1.enterWait c (.unit h.cur.unit)
    else match s1.firstPages c h.firstSpans with
      | (true, s) => s.modChan c fun h => { h with act := .req }
      | (false, s) => s := by
  subst hc h1
  exact if_neg (by rcases hrun with h | h <;> simp [h])

theorem pump_over (h : fragOver h.fragA = true ∨ fragOver h.fragB = true) : s.pump c = s1.endWith c [0] := by
  rw [pump_runs hc hrun h1, if_pos (by simpa using h)]

theorem pump_needs (hA : fragOver h.fragA = false) (hB : fragOver h.fragB = false)
    (hn : fragNeeds h.fragA = true ∨ fragNeeds h.fragB = true) : s.pump c = s1 := by
  rw [pump_runs hc hrun h1, if_neg (by simp [hA, hB]), if_pos (by simpa using hn)]

variable (hA : fragNeeds h.fragA = false) (hB : fragNeeds h.fragB = false)
include hA hB

theorem pump_waits (hr : s1.sideReady c = false) : s.pump c = s1.enterWait c (.unit h.cur.unit) := by
  rw [pump_runs hc hrun h1, if_neg (by simp [fragOver_false_of_needs, hA, hB]), if_neg (by simp [hA, hB]), if_pos (by simp [hr])]

theorem pump_pages (hr : s1.sideReady c = true) : s.pump c = match s1.firstPages c h.firstSpans with
      | (true, s) => s.modChan c fun h => { h with act := .req }
      | (false, s) => s := by
  rw [pump_runs hc hrun h1, if_neg (by simp [fragOver_false_of_needs, hA, hB]), if_neg (by simp [hA, hB]), if_neg (by simp [hr])]

end

/-- A unit number of FILL, MOVE or COMPARE outside a bracket runs as bursts. -/
theorem orMember_outside {s : State} {c : Nat} (h : (s.chan c).inBracket = false) (f : State → State) : s.orMember c f = f s :=
  if_neg (by simp [h])

theorem unitAdvertise_waiting {s : State} {c u : Nat} (ha : (s.chan c).act = .unit u) (hst : (s.chan c).st = .waiting) :
    s.unitAdvertise c = if s.sideReady c then (if s.placing c then s.placeGo c else s.pump c) else s := by
  simp only [State.unitAdvertise, ha, hst, decide_true, Bool.true_or, Bool.true_and]

theorem unitAdvertise_staging {s : State} {c : Nat} (ha : (s.chan c).act = .sched) : s.unitAdvertise c = s.stagePump c := by
  simp only [State.unitAdvertise, ha]

/-- What a READ samples at its start, by the class of its unit. -/
theorem readSnap_eq (s : State) (u : Nat) : s.readSnap u =
    if unitClass u = .cell then s.cellSnapshot (cellOfUnit u) s.now else if unitClass u = .yazen then s.yz.slotData (slotOf u) else [] := by
  unfold State.readSnap
  generalize unitClass u = k
  cases k with
  | cell => rfl
  | yazen => rfl
  | _ => rfl

/-- Settles O16: each command by how its unit stands, then `pump` by its fragments, its unit and its pages. -/
theorem transfersAskForAMover : Obligations.TransfersAskForAMover := by
  intro t c s h hc
  have hca : h = (s.arrive t).chan c := hc
  refine ⟨fun hcur hs hk => ?_, fun hcur hs hk => ?_, ?_, fun hcur => ?_, fun hcur => ?_, fun hcur hu => ?_, fun hcur hu hr hp hs => ?_,
    fun hcur hu hr hp hs => ?_, fun hcur hu hr hi => ?_, fun hcur hu hr hp => ?_, ?_, ?_, ?_, fun hst hcm => pump_drains hc hst hcm⟩
  · rw [exec_sense_current hcur, senseStart_samples hca hs, if_pos hk]
    rfl
  · rw [exec_sense_current hcur, senseStart_samples hca hs, if_neg (by simp [hk])]
    rfl
  · intro i op hi hcur hb
    subst hc
    rcases hi with ⟨rfl, rfl⟩ | ⟨rfl, rfl⟩ | ⟨rfl, rfl⟩
    · rw [exec_move_current hcur, orMember_outside (s := s.arrive t) hb]
    · rw [exec_fill_current hcur, orMember_outside (s := s.arrive t) hb]
    · rw [exec_compare_current hcur, orMember_outside (s := s.arrive t) hb]
  · rw [exec_gather_current hcur, gatherStart_eq hca]
    rfl
  · rw [exec_write_current hcur, writeStart_eq hca (hc ▸ hcur.op)]
    rfl
  · rw [exec_read_current hcur, readStart_refused hca (hc ▸ hcur.op) hu]
  · rw [exec_read_current hcur, readStart_pumps hca (hc ▸ hcur.op) hu hr hp, if_pos hs, readSnap_eq]
    rfl
  · rw [exec_read_current hcur, readStart_pumps hca (hc ▸ hcur.op) hu hr hp, if_neg hs]
  · rw [exec_read_current hcur, readStart_skips hca (hc ▸ hcur.op) hu hr hi]
  · rw [exec_read_current hcur, readStart_places hca (hc ▸ hcur.op) hu hr hp]
    rfl
  · intro u hup ha hst
    have hexec : exec (.unitAdvertise t c) s = .next ((s.arrive t).unitAdvertise c) := engineEvent_up (f := fun s => s.unitAdvertise c) hup
    rw [hexec, unitAdvertise_waiting (s := s.arrive t) (hc ▸ ha) (hc ▸ hst)]
    rfl
  · intro hup ha
    have hexec : exec (.unitAdvertise t c) s = .next ((s.arrive t).unitAdvertise c) := engineEvent_up (f := fun s => s.unitAdvertise c) hup
    rw [hexec, unitAdvertise_staging (s := s.arrive t) (hc ▸ ha)]
  · intro s1 s2 hrun h1
    refine ⟨pump_over hc hrun h1, pump_needs hc hrun h1, fun hA hB => ⟨pump_waits hc hrun h1 hA hB, fun hr hp => ?_, fun hr hp => ?_⟩⟩
    · rw [pump_pages hc hrun h1 hA hB hr, hp]
      rfl
    · rw [pump_pages hc hrun h1 hA hB hr, hp]

end Sys2Proof.Machine
end


section
/-! PROOFS. Movers are granted in order and their requests answered (R210 to R214, R221, R228, R229, R236). -/

namespace Sys2Proof.Machine

/-! ## The free movers (R210) -/

theorem mem_freeMovers (s : State) (mv : Nat) :
    mv ∈ s.freeMovers ↔ mv < 32 ∧ s.mover mv = none ∧ tget 0 s.movers.freeAt mv ≤ cyc s.now := by
  simp [State.freeMovers, moverCount]

theorem pickMover_free {s s' : State} {mv : Nat} (h : s.pickMover = some (mv, s')) : mv ∈ s.freeMovers ∧ s' = s.draw := by
  unfold State.pickMover at h
  split at h
  · cases h
  · next hne =>
    obtain ⟨rfl, rfl⟩ := Prod.mk.inj (Option.some.inj h)
    have hpos : 0 < s.freeMovers.length := List.length_pos_iff.2 fun e => hne e
    refine ⟨?_, rfl⟩
    rw [List.getD_eq_getElem _ _ (Nat.mod_lt _ hpos)]
    exact List.getElem_mem _

theorem pickMover_none {s : State} (h : s.freeMovers = []) : s.pickMover = none := by
  unfold State.pickMover
  rw [h]

/-! ## The order of the requests (R211) -/

/-- The first of a class: the lowest number past the latest one served, where there is one. -/
theorem rrOrder_head {l : List Nat} (h : l ≠ []) (last : Nat) :
    ∃ c ∈ l, (rrOrder l last).head? = some c ∧ ((∃ j ∈ l, last < j) → last < c) := by
  unfold rrOrder
  cases hf : l.filter fun c => decide (last < c) with
  | cons c r =>
    have hc : c ∈ l.filter fun c => decide (last < c) := by simp [hf]
    obtain ⟨hm, hlt⟩ := List.mem_filter.1 hc
    exact ⟨c, hm, rfl, fun _ => of_decide_eq_true hlt⟩
  | nil =>
    have hno : ∀ c ∈ l, c ≤ last := fun c hc => Nat.not_lt.1 fun hlt => by
      have : c ∈ l.filter fun c => decide (last < c) := List.mem_filter.2 ⟨hc, decide_eq_true hlt⟩
      simp [hf] at this
    have hall : l.filter (fun c => decide (c ≤ last)) = l := List.filter_eq_self.2 fun c hc => decide_eq_true (hno c hc)
    obtain ⟨c, r, rfl⟩ := List.exists_cons_of_ne_nil h
    refine ⟨c, by simp, by simp [hall], fun ⟨j, hj, hlt⟩ => absurd (hno j hj) (Nat.not_le.2 hlt)⟩

theorem rrOrder_nil (last : Nat) : rrOrder [] last = [] := rfl

/-- R211: a class that has requests comes first where no class before it has any. -/
theorem rrOrder_class_head {l : List Nat} (h : l ≠ []) (k last : Nat) (rest : List (Nat × Nat)) :
    ∃ c ∈ l, ((rrOrder l last).map (fun c => (k, c)) ++ rest).head? = some (k, c) ∧ ((∃ j ∈ l, last < j) → last < c) := by
  obtain ⟨c, hc, hhead, hlast⟩ := rrOrder_head h last
  exact ⟨c, hc, by simp [List.head?_append, hhead], hlast⟩

theorem grantOrder_timed {s : State} (h : s.timedGrantable ≠ []) : ∃ c ∈ s.timedGrantable, s.grantOrder.head? = some (0, c) := by
  simp only [State.grantOrder, List.append_assoc]
  obtain ⟨c, hc, hhead, -⟩ := rrOrder_class_head h 0 (s.movers.last.getD 0 4095) _
  exact ⟨c, hc, hhead⟩

theorem grantOrder_class {s : State} {p : Nat} (hp : p < 4) (ht : s.timedGrantable = []) (hq : ∀ q < p, s.classRequests q = [])
    (h : s.classRequests p ≠ []) : ∃ c ∈ s.classRequests p, s.grantOrder.head? = some (p + 1, c) ∧
      ((∃ j ∈ s.classRequests p, s.movers.last.getD (p + 1) 4095 < j) → s.movers.last.getD (p + 1) 4095 < c) := by
  simp only [State.grantOrder, List.append_assoc, ht, rrOrder_nil, List.map_nil, List.nil_append]
  match p, hp with
  | 0, _ => exact rrOrder_class_head h 1 _ _
  | 1, _ =>
    simp only [hq 0 (by omega), rrOrder_nil, List.map_nil, List.nil_append]
    exact rrOrder_class_head h 2 _ _
  | 2, _ =>
    simp only [hq 0 (by omega), hq 1 (by omega), rrOrder_nil, List.map_nil, List.nil_append]
    exact rrOrder_class_head h 3 _ _
  | 3, _ =>
    simp only [hq 0 (by omega), hq 1 (by omega), hq 2 (by omega), rrOrder_nil, List.map_nil, List.nil_append]
    rw [← List.append_nil (List.map _ _)]
    exact rrOrder_class_head h 4 _ _

/-! ## A grant (R211, R214, R217) -/

theorem moverGrant_idle {s : State} (h : s.movers.grantAt = some (cyc s.now) ∨ s.grantOrder = [] ∨ s.freeMovers = []) : s.moverGrant = s := by
  unfold State.moverGrant
  rcases h with h | h | h
  · exact if_pos (by simp [h])
  · exact if_pos (by simp [h])
  · split
    · rfl
    · rw [pickMover_none h]

theorem draw_grantOrder (s : State) : s.draw.grantOrder = s.grantOrder := rfl

theorem moverGrant_grants {s s1 : State} {l : List (Nat × Nat)} {mv : Nat} (hat : s.movers.grantAt ≠ some (cyc s.now)) (hl : s.grantOrder = l)
    (hne : l ≠ []) (hp : s.pickMover = some (mv, s1)) : s.moverGrant = s1.grantTo mv l := by
  obtain ⟨-, h1⟩ := pickMover_free hp
  unfold State.moverGrant
  rw [if_neg (by simp [hat, hl, hne]), hp]
  dsimp only
  rw [h1, draw_grantOrder, hl]

section

variable {s s1 : State} {k c mv : Nat} {r : List (Nat × Nat)}

theorem grantTo_burst (ha : (s.chan c).act = .req) {b : Burst} (hf : s.form c (s.chan c).cur.tm = (b, s1)) (hb : b.len ≠ 0) :
    s.grantTo mv ((k, c) :: r) = (((s1.granted k c).modChan c fun h => { h with act := .move }).install mv b).pumpBurst mv := by
  unfold State.grantTo
  simp only [ha, if_true, hf, hb, if_false]

theorem grantTo_empty (ha : (s.chan c).act = .req) {b : Burst} (hf : s.form c (s.chan c).cur.tm = (b, s1)) (hb : b.len = 0) :
    s.grantTo mv ((k, c) :: r) = (s.enterWait c (.unit (s.chan c).cur.unit)).grantTo mv r := by
  conv_lhs => unfold State.grantTo
  simp only [ha, if_true, hf, hb]

theorem grantTo_stage (ha : (s.chan c).act ≠ .req) : s.grantTo mv ((k, c) :: r) = (s.granted k c).grantStage c mv := by
  unfold State.grantTo
  simp only [if_neg ha]

end

/-! ## Completions (R221, R228, R229) -/

@[simp] theorem setMover_mover (s : State) (mv : Nat) (x : Option Burst) (j : Nat) : (s.setMover mv x).mover j = if j = mv then x else s.mover j :=
  tget_tput ..

section

variable {t : Time} {mv : Fin 32} {a : Nat} {s : State} {b : Burst} {r : Req} (hup : s.up = true) (hm : s.mover mv = some b)
  (hr : b.reqs.find? (fun r => r.addr = a) = some r)
include hup hm hr

theorem exec_hostReadCompletion_data (x : List Byte) :
    exec (.hostReadCompletion t mv a (.data x)) s = .next ((s.arrive t).requestData mv b r x) := by
  have hm : (s.arrive t).mover mv = some b := hm
  change execHostReadCompletion t mv a (.data x) s = _
  rw [execHostReadCompletion, engineEvent_up hup]
  simp only [hm, hr]

theorem exec_hostReadCompletion_fail : exec (.hostReadCompletion t mv a .fail) s = .next ((s.arrive t).requestFails mv b r) := by
  have hm : (s.arrive t).mover mv = some b := hm
  change execHostReadCompletion t mv a .fail s = _
  rw [execHostReadCompletion, engineEvent_up hup]
  simp only [hm, hr]

theorem exec_completionTimeout_fail : exec (.completionTimeout t mv a) s = .next ((s.arrive t).requestFails mv b r) := by
  have hm : (s.arrive t).mover mv = some b := hm
  change execCompletionTimeout t mv a s = _
  rw [execCompletionTimeout, engineEvent_up hup]
  simp only [hm, hr]

end

theorem requestData_whole {s : State} {mv : Nat} {b : Burst} {r : Req} {x : List Byte} (hx : x.length = r.len) :
    s.requestData mv b r x =
      (s.setMover mv (some { b with got := putBytes b.got (r.side * 8192 + r.ofs) x, reqs := b.reqs.erase r })).pumpBurst mv := by
  unfold State.requestData
  simp only [hx, Nat.min_self, Nat.lt_irrefl, if_false]
  rw [← hx, List.take_length]

/-- R228: a request that has a reissue left is made again. -/
theorem requestFails_again {s : State} {mv : Nat} {b : Burst} {r : Req} (ht : r.tries < b.retry) (hl : s.irq.link = true) :
    s.requestFails mv b r = (({ s with movers := { s.movers with retry := s.movers.retry + BitVec.ofNat 32 1 } }.setMover mv
      (some { b with reqs := { r with tries := r.tries + 1 } :: b.reqs.erase r })).emit (.hostRead r.addr r.len)) :=
  if_pos (by simp [ht, hl])

/-- R229: the last one ends the burst before its first byte. -/
theorem requestFails_cuts {s : State} {mv : Nat} {b : Burst} {r : Req} (h : b.retry ≤ r.tries ∨ s.irq.link = false) (hc : b.cut = none) :
    s.requestFails mv b r = (({ s with movers := { s.movers with retry := s.movers.retry + BitVec.ofNat 32 (b.retry - r.tries) } }.setMover mv
      (some { b with reqs := b.reqs.erase r, cut := some (b.ofsOf (s.chan b.chan) r.side r.ofs, none), elemBad := false })).lastFail b.chan) := by
  have hno : (decide (r.tries < b.retry) && s.irq.link) = false := by
    rcases h with h | h
    · simp [Nat.not_lt.2 h]
    · simp [h]
  unfold State.requestFails
  rw [hno]
  simp only [Bool.false_eq_true, if_false, Burst.cutAt, hc]
  rfl

/-- Settles O17: the order of the requests by class, a grant by what the first request asks, a completion by its data or its reissues. -/
theorem moversAreGrantedAndAnswered : Obligations.MoversAreGrantedAndAnswered := by
  refine ⟨fun s s' mv h => ?_, fun s => ⟨grantOrder_timed, fun p hp ht hq h => grantOrder_class hp ht hq h⟩, ?_, fun t s hup h => ?_, ?_,
    fun t m v s hs => ?_⟩
  · obtain ⟨hmem, rfl⟩ := pickMover_free h
    obtain ⟨hlt, hnone, hfree⟩ := (mem_freeMovers ..).1 hmem
    exact ⟨hlt, hnone, hfree, rfl⟩
  · intro t s s1 k c mv r hup hat hord hp
    have hexec : exec (.moverGrant t) s = .next ((s.arrive t).moverGrant) := engineEvent_up (f := fun s => s.moverGrant) hup
    have hchan : s1.chan c = s.chan c := by rw [(pickMover_free hp).2]; rfl
    rw [hexec, moverGrant_grants (s := s.arrive t) hat hord (List.cons_ne_nil _ _) hp, ← hchan]
    exact ⟨fun b s2 ha hf => ⟨fun hb => by rw [grantTo_burst ha hf hb], fun hb => by rw [grantTo_empty ha hf hb]⟩,
      fun ha => by rw [grantTo_stage ha]⟩
  · have hexec : exec (.moverGrant t) s = .next ((s.arrive t).moverGrant) := engineEvent_up (f := fun s => s.moverGrant) hup
    rw [hexec, moverGrant_idle (s := s.arrive t) h]
  · intro t mv a s b r hup hm hr
    refine ⟨fun x hx => ?_, fun i hi => ?_⟩
    · rw [exec_hostReadCompletion_data hup hm hr, requestData_whole hx]
    · have hexec : exec i s = .next ((s.arrive t).requestFails mv b r) := by
        rcases hi with rfl | rfl
        · exact exec_hostReadCompletion_fail hup hm hr
        · exact exec_completionTimeout_fail hup hm hr
      rw [hexec]
      refine ⟨fun ht hl => ?_, fun h hc => ?_⟩
      · rw [requestFails_again (s := s.arrive t) ht hl]
        exact ⟨_, rfl, rfl, (setMover_mover ..).trans (if_pos rfl), rfl⟩
      · rw [requestFails_cuts (s := s.arrive t) h hc]
        exact ⟨_, rfl, rfl, (setMover_mover ..).trans (if_pos rfl), rfl⟩
  · have hexec : exec (.moverPeakClr t m v) s = .next ((s.arrive t).moverCtrl v) := regWrite_serves (f := fun s => s.moverCtrl v) hs
    rw [hexec]
    rfl

end Sys2Proof.Machine
end


section
/-! PROOFS. What the end of a command leaves alone where its channel posts no records: memory, pins, what leaves the part, other channels. -/

namespace Sys2Proof.Machine

/-- Nothing that another part of the machine, or the world, sees has changed; channel `c` keeps its event queue. -/
structure Silent (c : Nat) (s u : State) : Prop where
  mem : u.mem = s.mem
  out : u.out = s.out
  pins : u.outs.pins = s.outs.pins
  bytes : u.movers.bytes = s.movers.bytes
  freed : ∀ mv, s.mover mv = none → u.mover mv = none
  drive : ∀ p, (u.ou p).drive = (s.ou p).drive
  eq : (u.chan c).eq = (s.chan c).eq
  only : OnlyChan c s u

namespace Silent

variable {c : Nat} {s u w : State}

theorem refl (c : Nat) (s : State) : Silent c s s := ⟨rfl, rfl, rfl, rfl, fun _ h => h, fun _ => rfl, rfl, .refl c s⟩

theorem trans (h : Silent c s u) (k : Silent c u w) : Silent c s w :=
  ⟨k.mem.trans h.mem, k.out.trans h.out, k.pins.trans h.pins, k.bytes.trans h.bytes, fun mv hm => k.freed mv (h.freed mv hm),
    fun p => (k.drive p).trans (h.drive p), k.eq.trans h.eq, h.only.trans k.only⟩

theorem ite {p : Prop} [Decidable p] (h : Silent c s u) (k : Silent c s w) : Silent c s (if p then u else w) := by
  split <;> assumption

theorem foldl {α : Type} {f : State → α → State} (hf : ∀ s x, Silent c s (f s x)) (l : List α) (s : State) : Silent c s (l.foldl f s) := by
  induction l generalizing s with
  | nil => exact .refl c s
  | cons x r ih => exact (hf s x).trans (ih _)

theorem setChan (s : State) {x : Chan} (hx : x.eq = (s.chan c).eq) : Silent c s (s.setChan c x) :=
  ⟨rfl, rfl, rfl, rfl, fun _ h => h, fun _ => rfl, by simpa using hx, (OnlyChan.refl c s).setChan x⟩

theorem put (h : Silent c s u) {x : Chan} (hx : x.eq = (u.chan c).eq) : Silent c s (u.setChan c x) := h.trans (setChan u hx)

/-! ## What returns -/

theorem forget (s : State) (w : Who) : Silent c s (s.forget w) := ⟨rfl, rfl, rfl, rfl, fun _ h => h, fun _ => rfl, rfl, fun _ _ => rfl⟩
theorem schedGive (s : State) (w : Taker) (n : Nat) : Silent c s (s.schedGive w n) :=
  ⟨rfl, rfl, rfl, rfl, fun _ h => h, fun _ => rfl, rfl, fun _ _ => rfl⟩
theorem setWalks (s : State) (l : List Walk) : Silent c s (s.setWalks l) := ⟨rfl, rfl, rfl, rfl, fun _ h => h, fun _ => rfl, rfl, fun _ _ => rfl⟩
theorem freeBox (s : State) (k : Nat) : Silent c s (s.freeBox k) := ⟨rfl, rfl, rfl, rfl, fun _ h => h, fun _ => rfl, rfl, fun _ _ => rfl⟩
theorem setStream (s : State) (r : Nat) (x : Stream) : Silent c s (s.setStream r x) :=
  ⟨rfl, rfl, rfl, rfl, fun _ h => h, fun _ => rfl, rfl, fun _ _ => rfl⟩

theorem retMover (s : State) (mv : Nat) : Silent c s (s.retMover mv) := by
  refine ⟨rfl, rfl, rfl, rfl, fun j h => ?_, fun _ => rfl, rfl, fun _ _ => rfl⟩
  have hj : (s.retMover mv).mover j = if j = mv then none else s.mover j := setMover_mover s mv none j
  rw [hj, h, ite_self]

theorem freeSlots (s : State) (k : Nat) : Silent c s (s.freeSlots k) := by
  unfold State.freeSlots
  refine foldl (fun s u => ?_) _ s
  refine ⟨rfl, rfl, rfl, rfl, fun _ h => h, fun p => ?_, rfl, fun _ _ => rfl⟩
  rw [State.modOu_eq, State.setOu_ou]
  by_cases hp : p = u
  · rw [if_pos hp, hp]
    rfl
  · rw [if_neg hp]

theorem freeRecord (s : State) (k : Nat) : Silent c s (s.freeRecord k) := by
  unfold State.freeRecord
  exact foldl (fun s r => ite (setStream ..) (refl ..)) _ s

theorem unclaim (s : State) (b : Burst) : Silent c s (s.unclaim b) := by
  unfold State.unclaim
  dsimp only
  split
  · exact ite (setStream ..) (refl ..)
  · exact freeBox ..
  · exact refl ..

theorem freeMover (s : State) (k : Nat) (all : Bool) : Silent c s (s.freeMover k all) := by
  unfold State.freeMover
  refine foldl (fun s p => ?_) _ s
  split
  · exact (ite (unclaim ..) (refl ..)).trans (retMover ..)
  · exact retMover ..

theorem unhold (s : State) (c : Nat) : Silent c s (s.unhold c) := by
  unfold State.unhold
  split
  · exact refl ..
  · next d _ =>
    refine ((((((freeSlots s c).trans (freeMover ..)).trans (schedGive ..)).trans (setWalks ..)).trans (forget ..)).trans (setChan _ ?_))
    dsimp only
    split
    · rfl
    · exact (Chan.unread_eq _).1

theorem freeTimed (s : State) (c : Nat) : Silent c s (s.freeTimed c) := by
  unfold State.freeTimed
  split
  · exact refl ..
  · exact ((unhold s c).trans (schedGive ..)).trans (setChan _ rfl)

theorem freeAll (s : State) (c : Nat) : Silent c s (s.freeAll c) :=
  (((((freeTimed s c).trans (freeSlots ..)).trans (freeRecord ..)).trans (freeBox ..)).trans (forget ..)).trans (forget ..)

theorem suspend (s : State) (c : Nat) {f : Chan → Chan} (hf : (f (s.chan c).suspend).eq = (s.chan c).eq) : Silent c s (s.suspend c f) :=
  ((setChan s hf).trans (forget ..)).trans (forget ..)

theorem suspendNow (s : State) (c : Nat) : Silent c s (s.suspendNow c) := by
  unfold State.suspendNow
  exact (freeTimed s c).trans (suspend _ c rfl)

theorem suspWait (s : State) (c : Nat) : Silent c s (s.suspWait c) := by
  unfold State.suspWait
  exact ite (suspendNow s c) (refl c s)

theorem enterWait (s : State) (c : Nat) (a : Act) : Silent c s (s.enterWait c a) := by
  unfold State.enterWait
  refine trans (setChan s ?_) (suspWait ..)
  rfl

end Silent

/-! ## The end of a program that posts no records (R239 to R242) -/

theorem Chan.setSts_eq (h : Chan) (l : List Nat) : (h.setSts l).eq = h.eq := by
  unfold Chan.setSts
  induction l generalizing h with
  | nil => rfl
  | cons b r ih => exact ih _

theorem Chan.atEnd_eq (h : Chan) (st : ChanState) : (h.atEnd st).eq = h.eq := by
  unfold Chan.atEnd
  split <;> rfl

section

variable {c : Nat} {s : State} (he : (s.chan c).eq = none)
include he

theorem silent_endProgram (st : ChanState) (tag : Bool) : Silent c s (s.endProgram c st tag) := by
  rw [endProgram_none he, State.enterEnd_eq]
  exact (Silent.freeAll s c).trans (.setChan _ (Chan.atEnd_eq ..))

theorem silent_endWith (l : List Nat) : Silent c s (s.endWith c l) := by
  have hset : Silent c s (s.modChan c fun h => h.setSts l) := .setChan s (Chan.setSts_eq ..)
  exact hset.trans (silent_endProgram (hset.eq.trans he) .halted false)

theorem silent_failCheck (b : Nat) : Silent c s (s.failCheck c b) := by
  have hset : Silent c s (s.modChan c fun h => { h with resid := h.cur.count }) := .setChan s rfl
  exact hset.trans (silent_endWith (hset.eq.trans he) [b])

theorem silent_miss (k : Nat) (l : List Nat) : Silent c s (s.miss c k l) := by
  have hcnt : Silent c s { s with sched := { s.sched with missCnt := tput 0 s.sched.missCnt k (tget 0 s.sched.missCnt k + 1) } } :=
    ⟨rfl, rfl, rfl, rfl, fun _ h => h, fun _ => rfl, rfl, fun _ _ => rfl⟩
  have hmiss := (hcnt.trans (.freeMover _ c true)).trans
    (.setChan _ (x := { State.chan _ c with missCause := BitVec.ofNat 4 k, committed := false }) rfl)
  exact hmiss.trans (silent_endWith (hmiss.eq.trans he) (stMissed :: l))

/-! ## A timed command begins (R176, R190) -/

omit he in
theorem silent_setDue (due : Option Time) : Silent c s (s.setDue c due) := .setChan s rfl

omit he in
theorem Chan.oorNow_eq (h : Chan) (oor : Bool) : (h.oorNow oor).eq = h.eq := by
  unfold Chan.oorNow
  split
  · split
    · rfl
    · split <;> rfl
  · rfl

theorem silent_newPrediction (due : Option Time) : Silent c s (s.newPrediction c due) := by
  unfold State.newPrediction
  split
  · split
    · exact silent_miss he _ _
    · exact silent_setDue _
  · exact silent_setDue _

omit he in
theorem schedTake_sched (w : Taker) : (s.schedTake w).2 = { s with sched := (s.schedTake w).2.sched } := by
  unfold State.schedTake
  dsimp only
  repeat' split
  all_goals rfl

omit he in
theorem silent_schedTake (w : Taker) : Silent c s (s.schedTake w).2 := by
  rw [schedTake_sched]
  exact ⟨rfl, rfl, rfl, rfl, fun _ h => h, fun _ => rfl, rfl, fun _ _ => rfl⟩

theorem silent_timedEntry : Silent c s (s.timedEntry c) := by
  unfold State.timedEntry
  dsimp only
  generalize hu : State.noteOor _ c = u
  have h : Silent c s u := by
    rw [← hu]
    refine (Silent.setChan s ?_).put (Chan.oorNow_eq ..)
    rfl
  split
  · exact h.trans (silent_miss (h.eq.trans he) _ _)
  · split
    · next w e =>
      have hw : Silent c u w := by simpa [e] using silent_schedTake (c := c) (s := u) (.cmd c)
      exact (h.trans hw).trans (.suspWait ..)
    · next w e =>
      have hw : Silent c u w := by simpa [e] using silent_schedTake (c := c) (s := u) (.cmd c)
      have ht := (h.trans hw).trans (.setChan w (x := { w.chan c with timed := (w.chan c).timed.map fun d => { d with entry := true } }) rfl)
      exact (ht.trans (silent_newPrediction (ht.eq.trans he) _)).trans (.suspWait ..)

/-! ## The next group becomes current (R126, R133, R172) -/

theorem silent_passChecks : Silent c s (s.passChecks c) := by
  unfold State.passChecks
  dsimp only
  split
  · exact silent_failCheck he _
  · split
    · exact .suspend s c rfl
    · have hb : Silent c s (s.modChan c fun h =>
          let h := if h.cont then h else h.begin
          { h with st := h.st.going, act := .ready, skipSus := false, cont := false,
                   chainOp := if h.inChain then h.chainOp else (s.chan c).cur.op,
                   chainUnit := if h.inChain then h.chainUnit else (s.chan c).cur.unit }) := by
        refine .setChan s ?_
        dsimp only
        split <;> rfl
      split
      · exact hb.trans (silent_timedEntry (hb.eq.trans he))
      · exact hb

theorem silent_bracketCheck : Silent c s (s.bracketCheck c) := by
  unfold State.bracketCheck
  dsimp only
  split
  · exact .setChan s rfl
  · exact silent_failCheck he _
  · split
    · exact silent_failCheck he _
    · split
      · exact silent_failCheck he _
      · exact silent_passChecks he

theorem silent_makeCurrent (g : Group) : Silent c s (s.makeCurrent c g) := by
  unfold State.makeCurrent
  dsimp only
  generalize hu : State.modChan s c _ = u
  have h : Silent c s u := by
    rw [← hu]
    exact .setChan s rfl
  split
  · exact h.trans (silent_failCheck (h.eq.trans he) _)
  · split
    · exact h.trans (silent_bracketCheck (h.eq.trans he))
    · exact h.trans (silent_passChecks (h.eq.trans he))

theorem silent_goCurrent : Silent c s (s.goCurrent c) := by
  unfold State.goCurrent
  dsimp only
  split
  · split
    · generalize hu : State.setChan s c _ = u
      have h : Silent c s u := by
        rw [← hu]
        exact .setChan s rfl
      exact h.trans (silent_makeCurrent (h.eq.trans he) _)
    · refine (Silent.setChan s ?_).trans (.forget ..)
      rfl
  · exact .setChan s rfl

theorem silent_goOn {x : Chan} (hx : x.eq = (s.chan c).eq) : Silent c s (s.goOn c x) := by
  have h : Silent c s (s.setChan c x) := .setChan s hx
  unfold State.goOn
  split
  · exact h.trans (.suspend _ c rfl)
  · exact h.trans (silent_goCurrent (h.eq.trans he))

omit he in
theorem Chan.onward_eq {h x : Chan} (hx : h.onward = some x) : x.eq = h.eq := by
  unfold Chan.onward at hx
  split at hx
  · rw [← Option.some.inj hx]
  · split at hx
    · rw [← Option.some.inj hx]
    · split at hx
      · rw [← Option.some.inj hx]
      · cases hx

theorem silent_advance : Silent c s (s.advance c) := by
  by_cases hst : (s.chan c).st ≠ .haltPending ∨ (s.chan c).inBracket = true
  · rw [advance_eq rfl hst]
    split
    · next x hx => exact silent_goOn he (Chan.onward_eq hx)
    · exact silent_endProgram he _ _
  · have hstop : s.advance c = s.setChan c { { s.chan c with committed := false } with act := .fetch } := by
      unfold State.advance
      rw [not_or, not_not, Bool.not_eq_true] at hst
      exact if_pos (by simp [hst.1, hst.2])
    rw [hstop]
    exact .setChan s rfl

/-- A command that completes in a channel without an event queue is seen nowhere else. -/
theorem silent_complete : Silent c s (s.complete c) := by
  have h := Silent.freeTimed s c
  have hn : ((s.freeTimed c).chan c).eq = none := h.eq.trans he
  unfold State.complete
  dsimp only
  split
  · rw [chanPost_none hn]
    exact h.trans (silent_advance hn)
  · exact h.trans (silent_advance hn)

end

end Sys2Proof.Machine
end


section
/-! PROOFS. A burst of MOVE or FILL writes its bytes; a burst of COMPARE finds the first difference (R152 to R154, R218, R222, R227). -/

namespace Sys2Proof.Machine

/-! ## What a read of memory leaves alone (R462) -/

/-- A read may correct and count; bytes, channels and running bursts stay. -/
structure ReadOnly (s u : State) : Prop where
  sram : u.mem.sram = s.mem.sram
  chans : u.chans = s.chans
  run : u.movers.run = s.movers.run
  locks : u.mem.locks = s.mem.locks
  abandons : u.mem.abandons = s.mem.abandons

namespace ReadOnly

variable {s u w : State}

theorem refl (s : State) : ReadOnly s s := ⟨rfl, rfl, rfl, rfl, rfl⟩

theorem trans (h : ReadOnly s u) (k : ReadOnly u w) : ReadOnly s w :=
  ⟨k.sram.trans h.sram, k.chans.trans h.chans, k.run.trans h.run, k.locks.trans h.locks, k.abandons.trans h.abandons⟩

theorem chan (h : ReadOnly s u) (c : Nat) : u.chan c = s.chan c := chan_of_chans h.chans c
theorem mover (h : ReadOnly s u) (mv : Nat) : u.mover mv = s.mover mv := by simp only [State.mover, h.run]
theorem sramBytes (h : ReadOnly s u) (a n : Nat) : u.sramBytes a n = s.sramBytes a n := by simp only [State.sramBytes, h.sram]

end ReadOnly

theorem sramRead_readOnly (s : State) (a n : Nat) : ReadOnly s (s.sramRead a n).2 := by
  unfold State.sramRead
  split
  · exact ⟨rfl, rfl, rfl, rfl, rfl⟩
  · dsimp only
    split
    · exact .refl s
    · exact ⟨rfl, rfl, rfl, rfl, rfl⟩

theorem foldl_readOnly {α : Type} {f : State → α → State} (hf : ∀ s x, ReadOnly s (f s x)) (l : List α) (s : State) : ReadOnly s (l.foldl f s) := by
  induction l generalizing s with
  | nil => exact .refl s
  | cons x r ih => exact (hf s x).trans (ih _)

theorem segBytes_readOnly (s : State) (b : Burst) (i : Nat) (g : Seg) : ReadOnly s (s.segBytes b i g).2.2 := by
  unfold State.segBytes
  split
  · split
    · exact sramRead_readOnly ..
    · have h := foldl_readOnly (f := fun s _ => (s.sramRead g.addr g.len).2) (fun s _ => sramRead_readOnly s g.addr g.len)
        (List.range (b.retry + 1)) s
      exact ⟨h.sram, h.chans, h.run, h.locks, h.abandons⟩
  · exact .refl s

/-- Whether a side's bytes are read up to here, or a read has failed. -/
theorem sideBytes_readOnly (s : State) (b : Burst) (i n : Nat) : ReadOnly s (s.sideBytes b i n).2.2 := by
  have key : ∀ (l : List Seg) (p : List Byte × Option Nat × State), ReadOnly s p.2.2 → ReadOnly s (l.foldl (fun p g =>
      match p with
      | (l, some k, s) => (l, some k, s)
      | (l, none, s) =>
        if n ≤ g.ofs then (l, none, s)
        else
          let (x, f, s) := s.segBytes b i { g with len := min g.len (n - g.ofs) }
          (l ++ x, f, s)) p).2.2 := by
    intro l
    induction l with
    | nil => exact fun _ h => h
    | cons g r ih =>
      refine fun p h => ih _ ?_
      obtain ⟨x, f, u⟩ := p
      cases f with
      | some k => exact h
      | none =>
        dsimp only
        split
        · exact h
        · exact h.trans (segBytes_readOnly ..)
  exact key _ ([], none, s) (.refl s)

/-! ## The context after a burst (R223) -/

theorem Chan.moved_keeps (h : Chan) (n : Nat) :
    (h.moved n).cur = h.cur ∧ (h.moved n).eq = h.eq ∧ (h.moved n).status = h.status ∧ (h.moved n).lockWrites = h.lockWrites ∧
      (h.moved n).lockFirst = h.lockFirst := by
  unfold Chan.moved
  dsimp only
  split
  · exact ⟨rfl, rfl, rfl, rfl, rfl⟩
  · split <;> exact ⟨rfl, rfl, rfl, rfl, rfl⟩

theorem Chan.moved_resid {h : Chan} (h4 : h.cur.op ≠ 0x04) (h8 : h.cur.op ≠ 0x08) (n : Nat) : (h.moved n).resid = h.resid - n := by
  unfold Chan.moved
  dsimp only
  rw [if_neg h4, if_neg h8]

theorem Burst.lim_whole {b : Burst} (h : b.cut = none) : b.lim = b.len := by simp [Burst.lim, h]

/-! ## What the end of a burst returns (R210) -/

/-- The channel whose burst in mover `mv` has ended. -/
def Chan.leave (h : Chan) (mv : Nat) : Chan :=
  { h with leafs := [], timed := h.timed.map fun (d : Timed) => if d.mover = some mv then { d with mover := none } else d }

theorem leaveMover_chan (s : State) (mv c : Nat) : (s.leaveMover mv c).chan c = (s.chan c).leave mv := by
  unfold State.leaveMover
  rw [State.modChan_eq, State.setChan_chan, if_pos rfl]
  rfl

theorem leaveMover_mover (s : State) (mv c : Nat) : (s.leaveMover mv c).mover mv = none :=
  (setMover_mover s mv none mv).trans (if_pos rfl)

theorem unreserve_none {s : State} {b : Burst} (h : (s.chan b.chan).cur.op ≠ 0x01) (n : Nat) : s.unreserve b n = s := by
  unfold State.unreserve
  exact if_pos (by simp [h])

/-- A transfer between memories that has no byte left completes. -/
theorem burstGoesOn_completes {s : State} {c : Nat}
    (hop : (s.chan c).cur.op = 0x05 ∨ (s.chan c).cur.op = 0x06 ∨ (s.chan c).cur.op = 0x07) (hr : (s.chan c).resid = 0) :
    s.burstGoesOn c = s.complete c := by
  have hp : s.placing c = false := by
    rcases hop with h | h | h <;> simp [State.placing, h]
  have hd : s.groupDone c = s.complete c := by
    unfold State.groupDone
    rcases hop with h | h | h <;> simp only [h]
  unfold State.burstGoesOn
  rw [hp, if_neg Bool.false_ne_true, if_pos (by simp [hr]), hd]

section

variable {s : State} {mv : Nat} {b : Burst}

/-! ## MOVE and FILL (R152, R153, R222) -/

theorem writeSide_one {d : Side} {g : Seg} {data : List Byte} (hs : d.segs = [g]) (hp : g.phy = true) (ho : g.ofs = 0)
    (hl : g.len = data.length) (hne : data ≠ []) : s.writeSide d data = (none, s.sramWrite g.addr data) := by
  unfold State.writeSide
  rw [hs, List.foldl_cons, List.foldl_nil]
  simp [ho, hl, hp, hne]

/-- The channel of a MOVE or FILL at the end of its last burst. -/
theorem moveEnd_memory {d : Side} {g : Seg} {data : List Byte} (hop : (s.chan b.chan).cur.op = 0x05 ∨ (s.chan b.chan).cur.op = 0x06)
    (hr : (s.chan b.chan).resid = b.len) (hcut : b.cut = none) (hpark : b.parked = false) (hw : b.wr = some d) (hs : d.segs = [g])
    (hp : g.phy = true) (ho : g.ofs = 0) (hl : g.len = b.len) (hd : s.burstData b = (data, none, s)) (hlen : data.length = b.len)
    (hb : b.len ≠ 0) : s.moveEnd mv b = ((((s.sramWrite g.addr data).leaveMover mv b.chan).countBytes b.len).setChan b.chan
      (((s.chan b.chan).leave mv).moved b.len)).complete b.chan := by
  have hne : data ≠ [] := fun e => hb (by rw [← hlen, e]; rfl)
  have hop1 : (s.chan b.chan).cur.op ≠ 0x01 := by rcases hop with h | h <;> simp [h]
  have hframe : ((s.chan b.chan).cur.op = 0x02 || (s.chan b.chan).cur.op = 0x30 || ((s.chan b.chan).cur.op = 0x08 && b.wr.isNone)) = false := by
    rcases hop with h | h <;> simp [h]
  have hwrite : s.writeSide d (data.take b.lim) = (none, s.sramWrite g.addr data) := by
    rw [Burst.lim_whole hcut, ← hlen, List.take_length]
    exact writeSide_one hs hp ho (hl.trans hlen.symm) hne
  have hchan : ((s.sramWrite g.addr data).leaveMover mv b.chan).chan b.chan = (s.chan b.chan).leave mv := leaveMover_chan ..
  have hun : ((s.sramWrite g.addr data).leaveMover mv b.chan).unreserve b b.len = (s.sramWrite g.addr data).leaveMover mv b.chan :=
    unreserve_none (by rw [hchan]; exact hop1) _
  have hskip : (decide ((s.chan b.chan).cur.op = 0x01) && (s.chan b.chan).cur.skp) = false := by simp [hop1]
  have hcount : (((s.sramWrite g.addr data).leaveMover mv b.chan).countBytes b.len).chan b.chan = (s.chan b.chan).leave mv := hchan
  unfold State.moveEnd
  simp only [hd, hw, hwrite]
  rw [Burst.lim_whole hcut, hun]
  simp only [hskip, hpark, hw ▸ hframe, Bool.false_eq_true, if_false, State.modChan_eq, hcount]
  unfold State.burstOutcome
  simp only [hcut]
  have hx : ((((s.sramWrite g.addr data).leaveMover mv b.chan).countBytes b.len).setChan b.chan
      (((s.chan b.chan).leave mv).moved b.len)).chan b.chan = ((s.chan b.chan).leave mv).moved b.len := by simp
  refine burstGoesOn_completes ?_ ?_
  · rw [hx, (Chan.moved_keeps ..).1]
    exact hop.imp_right .inl
  · rw [hx, Chan.moved_resid]
    · change (s.chan b.chan).resid - b.len = 0
      omega
    · rcases hop with h | h <;> exact h ▸ by decide
    · rcases hop with h | h <;> exact h ▸ by decide

/-! ## COMPARE (R154, R218, R227) -/

/-- The channel of a COMPARE that has found a difference at byte `k`. -/
def Chan.differs (h : Chan) (k : Nat) : Chan := ((h.moved k).setSt stMismatch).setCond false

theorem Chan.differs_fields {h : Chan} (hop : h.cur.op = 0x07) (k : Nat) :
    (h.differs k).cond = false ∧ (h.differs k).condValid = true ∧ (h.differs k).status = h.status ||| 0x200 ∧
      (h.differs k).resid = h.resid - k := by
  refine ⟨rfl, rfl, ?_, ?_⟩
  · change (h.moved k).status ||| BitVec.ofNat 14 (1 <<< stMismatch) = _
    rw [(Chan.moved_keeps h k).2.2.1]
    rfl
  · exact Chan.moved_resid (by simp [hop]) (by simp [hop]) k

theorem compareEnd_differs {x y : List Byte} {k : Nat} (hcut : b.cut = none) (hx : s.burstData b = (x, none, s))
    (hy : s.secondBytes b = (y, none, s)) (hk : firstDiff (x.take b.len) (y.take b.len) 0 = some k) :
    s.compareEnd mv b = ((s.leaveMover mv b.chan).setChan b.chan (((s.chan b.chan).leave mv).differs k)).complete b.chan := by
  unfold State.compareEnd
  simp only [hx, hy, Burst.lim_whole hcut, hk, State.modChan_eq, leaveMover_chan]
  rfl

theorem compareEnd_agrees {x y : List Byte} (hop : (s.chan b.chan).cur.op = 0x07) (hr : (s.chan b.chan).resid = b.len) (hcut : b.cut = none)
    (hx : s.burstData b = (x, none, s)) (hy : s.secondBytes b = (y, none, s)) (hk : firstDiff (x.take b.len) (y.take b.len) 0 = none) :
    s.compareEnd mv b =
      ((s.leaveMover mv b.chan).setChan b.chan ((((s.chan b.chan).leave mv).moved b.len).setCond true)).complete b.chan := by
  have hresid : (((s.chan b.chan).leave mv).moved b.len).resid = 0 := by
    have h : (((s.chan b.chan).leave mv).moved b.len).resid = (s.chan b.chan).resid - b.len :=
      Chan.moved_resid (by change (s.chan b.chan).cur.op ≠ _; simp [hop]) (by change (s.chan b.chan).cur.op ≠ _; simp [hop]) _
    omega
  have hcur : (((s.chan b.chan).leave mv).moved b.len).cur = (s.chan b.chan).cur := (Chan.moved_keeps ..).1
  unfold State.compareEnd
  simp only [hx, hy, Burst.lim_whole hcut, hk, State.modChan_eq, leaveMover_chan, State.setChan_chan, if_true, hcut, Option.isNone_none,
    hresid, decide_true, Bool.and_self, State.setChan_setChan]
  unfold State.burstOutcome
  simp only [hcut]
  refine burstGoesOn_completes (.inr (.inr ?_)) ?_
  · rw [State.setChan_chan, if_pos rfl]
    exact (congrArg Group.op hcur).trans hop
  · rw [State.setChan_chan, if_pos rfl]
    exact hresid

/-- A difference that is seen while later reads are outstanding ends the burst. -/
theorem compareDiffers_eq (k : Nat) : ∃ u, ReadOnly s u ∧
    s.compareDiffers mv b k = ((u.leaveMover mv b.chan).setChan b.chan (((s.chan b.chan).leave mv).differs k)).complete b.chan := by
  have h0 := sideBytes_readOnly s b 0 (k + 1)
  have h1 : ReadOnly s (if ((s.sideBytes b 0 (k + 1)).2.2.chan b.chan).cur.const then (s.sideBytes b 0 (k + 1)).2.2
      else ((s.sideBytes b 0 (k + 1)).2.2.sideBytes b 1 (k + 1)).2.2) := by
    split
    · exact h0
    · exact h0.trans (sideBytes_readOnly ..)
  refine ⟨_, h1, ?_⟩
  rw [← h1.chan b.chan]
  simp only [State.compareDiffers, State.modChan_eq, leaveMover_chan]
  rfl

theorem diffSeen_some {k : Nat} (h : s.diffSeen b = some k) : (s.chan b.chan).cur.op = 0x07 ∧
    ∃ n, n ≤ b.lim ∧ n ≤ s.sideClean b 0 ∧ ((s.chan b.chan).cur.const = false → n ≤ s.sideClean b 1) ∧
      firstDiff (s.sidePeek b 0 n) (if (s.chan b.chan).cur.const then (s.chan b.chan).cur.pattern (s.chan b.chan).doneN n
        else s.sidePeek b 1 n) 0 = some k := by
  unfold State.diffSeen at h
  dsimp only at h
  split at h
  · cases h
  · next hop =>
    refine ⟨not_not.1 hop, _, Nat.min_le_left .., (Nat.min_le_right ..).trans (Nat.min_le_left ..), fun hc => ?_, h⟩
    rw [hc]
    exact (Nat.min_le_right ..).trans (Nat.min_le_right ..)

/-! ## The end of a burst (R218) -/

variable (hm : s.mover mv = some b) (hb : b.len ≠ 0) (hl : s.burstLocked b = false) (hs : b.staging = false)
include hm hb hl hs

theorem burstEnd_differs {k : Nat} (hk : s.diffSeen b = some k) : s.burstEnd mv = s.compareDiffers mv b k := by
  unfold State.burstEnd
  simp [hm, hb, hl, hs, hk]

theorem burstEnd_ready (hd : s.diffSeen b = none) (hr : s.burstReady b = true) :
    s.burstEnd mv = if (s.chan b.chan).cur.op = 0x07 then s.compareEnd mv b else s.moveEnd mv b := by
  unfold State.burstEnd
  simp [hm, hb, hl, hs, hd, hr]

end

/-- Settles O18: a burst's end by its command, then by whether COMPARE has found a difference. -/
theorem burstsMoveAndCompareTheirBytes : Obligations.BurstsMoveAndCompareTheirBytes := by
  have hexec : ∀ (t : Time) (mv : Fin 32) (s : State), s.up = true → exec (.burstEnd t mv) s = .next ((s.arrive t).burstEnd mv) :=
    fun t mv s hup => engineEvent_up (f := fun s => s.burstEnd mv) hup
  refine ⟨?_, ?_, ?_, ?_⟩
  · intro t mv s b d g data hup hm hb hr hl hs hcut hpark hop hres heq hw hsegs hp ho hg hd hlen
    have hseen : (s.arrive t).diffSeen b = none := by
      have h7 : (s.chan b.chan).cur.op ≠ 0x07 := by rcases hop with h | h <;> simp [h]
      exact if_pos h7
    have hend : (s.arrive t).burstEnd mv = (s.arrive t).moveEnd mv b := by
      rw [burstEnd_ready (s := s.arrive t) hm hb hl hs hseen hr, if_neg]
      change (s.chan b.chan).cur.op ≠ 0x07
      rcases hop with h | h <;> simp [h]
    have hmove := moveEnd_memory (s := s.arrive t) (mv := mv) hop hres hcut hpark hw hsegs hp ho hg hd hlen hb
    rw [hexec t mv s hup, hend, hmove]
    refine ⟨_, rfl, ?_⟩
    generalize hx : (State.setChan _ b.chan _ : State) = x
    have hxe : (x.chan b.chan).eq = none := by
      rw [← hx, State.setChan_chan, if_pos rfl, (Chan.moved_keeps ..).2.1]
      exact heq
    have hsil := silent_complete hxe
    refine ⟨hsil.freed _ ?_, ?_, fun a => ?_⟩
    · rw [← hx]
      exact leaveMover_mover ((s.arrive t).sramWrite g.addr data) mv b.chan
    · rw [hsil.bytes, ← hx]
      rfl
    · rw [hsil.mem, ← hx]
      change tget 0 (putBytes s.mem.sram g.addr data) a = _
      rw [tget_putBytes, hlen]
  · intro t mv s b x y h hup hm hb hr hl hs hcut hh hop hseen hx hy
    have hop' : ((s.arrive t).chan b.chan).cur.op = 0x07 := hh ▸ hop
    have hend : (s.arrive t).burstEnd mv = (s.arrive t).compareEnd mv b := by
      rw [burstEnd_ready (s := s.arrive t) hm hb hl hs hseen hr, if_pos hop']
    rw [hexec t mv s hup, hend]
    refine ⟨fun k hk => ?_, fun hk hres => ?_⟩
    · rw [compareEnd_differs (s := s.arrive t) hcut hx hy hk]
      obtain ⟨hcond, hvalid, hstatus, hresid⟩ := Chan.differs_fields (h := (s.chan b.chan).leave mv) hop' k
      refine ⟨_, rfl, rfl, leaveMover_mover (s.arrive t) mv b.chan, ?_⟩
      rw [State.setChan_chan, if_pos rfl, hh]
      exact ⟨hcond, hvalid, hstatus, hresid⟩
    · rw [compareEnd_agrees (s := s.arrive t) hop' (hh ▸ hres) hcut hx hy hk]
      refine ⟨_, rfl, rfl, leaveMover_mover (s.arrive t) mv b.chan, ?_⟩
      rw [State.setChan_chan, if_pos rfl, hh]
      refine ⟨rfl, rfl, (Chan.moved_keeps ..).2.2.1, ?_⟩
      have hresid : (((s.chan b.chan).leave mv).moved b.len).resid = (s.chan b.chan).resid - b.len :=
        Chan.moved_resid (by change (s.chan b.chan).cur.op ≠ _; rw [← hh, hop]; decide) (by change (s.chan b.chan).cur.op ≠ _; rw [← hh, hop]; decide) _
      have hres : (s.chan b.chan).resid = b.len := hh ▸ hres
      exact hresid.trans (by omega)
  · intro t mv s b h k hup hm hb hl hs hh hk
    obtain ⟨hop, -⟩ := diffSeen_some hk
    obtain ⟨u, hu, heq⟩ := compareDiffers_eq (s := s.arrive t) (mv := mv) (b := b) k
    rw [hexec t mv s hup, burstEnd_differs (s := s.arrive t) hm hb hl hs hk, heq]
    obtain ⟨hcond, hvalid, hstatus, hresid⟩ := Chan.differs_fields (h := (s.chan b.chan).leave mv) hop k
    refine ⟨_, rfl, hu.sram, leaveMover_mover u mv b.chan, ?_⟩
    rw [State.setChan_chan, if_pos rfl, hh]
    exact ⟨hcond, hvalid, hstatus, hresid⟩
  · rintro s b h k rfl hk
    exact diffSeen_some hk

end Sys2Proof.Machine
end

section
/-! PROOFS. Locked sequences: the bracket of a LOCK, its members, UNLOCK and CAS (O19, O20). -/

namespace Sys2Proof.Machine

section
variable {s : State} {c : Nat} {h : Chan}

theorem sramRead_whole {a n : Nat} (hb : s.badWord a n = none) : ∃ u, s.sramRead a n = (some (s.sramBytes a n), u) ∧ ReadOnly s u := by
  have hr := sramRead_readOnly s a n
  unfold State.sramRead at hr ⊢
  rw [hb] at hr ⊢
  exact ⟨_, rfl, hr⟩

/-! ## The members of a bracket (R168, R169) -/

/-- The channel once the member that is its current command has made its first access. -/
def Chan.accessed (h : Chan) (t : Time) : Chan := { h with lockFirst := some (h.lockFirst.getD t) }

/-- The channel with one more write buffered. -/
def Chan.buffer (h : Chan) (a : Nat) (b : List Byte) : Chan := { h with lockWrites := (a, b) :: h.lockWrites }

/-- The channel after a CAS that has read `b`. -/
def Chan.casRead (h : Chan) (b : List Byte) : Chan := { h.setCond (casOutcome h.cur b) with result := BitVec.ofNat 64 (leNat b) }

theorem Chan.lockLate_iff (h : Chan) (t : Nat) : h.lockLate t = true ↔ ∃ x : Nat, h.lockFirst = some x ∧ x + 2048 < t := by
  unfold Chan.lockLate
  cases h.lockFirst with
  | none => simp
  | some x => simp [show ns 256 = 2048 from rfl]

theorem Chan.lockLate_false {t : Nat} (hl : ∀ x : Nat, h.lockFirst = some x → t ≤ x + 2048) : h.lockLate t = false := by
  rw [Bool.eq_false_iff]
  intro hlate
  obtain ⟨x, hx, hlt⟩ := (Chan.lockLate_iff h t).1 hlate
  have := hl x hx
  omega

theorem Chan.accessed_early {t : Nat} (hl : ∀ x : Nat, h.lockFirst = some x → t ≤ x + 2048) : (h.accessed t).lockLate t = false := by
  refine Chan.lockLate_false fun x hx => ?_
  cases hf : h.lockFirst with
  | none =>
    have : t = x := by simpa [Chan.accessed, hf] using hx
    omega
  | some y =>
    have : y = x := by simpa [Chan.accessed, hf] using hx
    exact this ▸ hl y hf

theorem memberDo_blocked (hop : (s.chan c).cur.op ≠ 0x7F) (hb : s.bracketBlocked c = true) : s.memberDo c = s := by
  unfold State.memberDo
  rw [if_pos (by simp [hop, hb])]

theorem memberDo_runs (hb : s.bracketBlocked c = false) : s.memberDo c = s.memberRun c := by
  unfold State.memberDo
  rw [if_neg (by simp [hb])]

theorem orMember_inside (hb : (s.chan c).inBracket = true) (f : State → State) : s.orMember c f = s.memberDo c := if_pos hb

/-- The member's read of `n` bytes at `a`: SRAM under the bracket's own writes. -/
theorem memberRead_whole {u : State} {a n : Nat} (hu : u.chan c = h) (hb : u.badWord a n = none) :
    ∃ w, u.memberRead c a n = (some (overlay h.lockWrites a (u.sramBytes a n)), w) ∧ ReadOnly u w := by
  obtain ⟨w, hw, hr⟩ := sramRead_whole hb
  refine ⟨w, ?_, hr⟩
  unfold State.memberRead
  rw [hw]
  dsimp only
  rw [chan_of_chans hr.chans, hu]

theorem Chan.accessed_cur (h : Chan) (t : Nat) : (h.accessed t).cur = h.cur := rfl

/-- A member other than NOP begins by making the bracket's first access, where none has been made. -/
theorem firstAccess_eq (hc : s.chan c = h) (hn : h.cur.op ≠ 0x7F) :
    s.modChan c (fun h => { h with lockFirst := if h.cur.op = 0x7F then h.lockFirst else some (h.lockFirst.getD s.now) }) =
      s.setChan c (h.accessed s.now) := by
  subst hc
  rw [State.modChan_eq, if_neg hn]
  rfl

/-- The channel of a member COMPARE that has found `k` as its first difference. -/
def Chan.compared (h : Chan) : Option Nat → Chan
  | some k => h.differs k
  | none => (h.moved h.cur.count).setCond true

theorem Chan.compared_fields (h : Chan) (k : Option Nat) : (h.compared k).lockWrites = h.lockWrites ∧ (h.compared k).cond = k.isNone ∧
    (h.compared k).condValid = true := by
  cases k with
  | none | some k => exact ⟨(Chan.moved_keeps ..).2.2.2.1, rfl, rfl⟩

/-- What a CAS leaves in its channel, where it buffers its write `w` if the word is as expected. -/
theorem Chan.casRead_fields (h : Chan) (a : Nat) (w b : List Byte) :
    (Chan.casRead (if leNat b = h.cur.opLo then h.buffer a w else h) b).result = BitVec.ofNat 64 (leNat b) ∧
      (Chan.casRead (if leNat b = h.cur.opLo then h.buffer a w else h) b).cond = decide (leNat b = h.cur.opLo) ∧
      (Chan.casRead (if leNat b = h.cur.opLo then h.buffer a w else h) b).lockWrites =
        if leNat b = h.cur.opLo then (a, w) :: h.lockWrites else h.lockWrites := by
  split <;> exact ⟨rfl, rfl, rfl⟩

section
variable (hc : s.chan c = h) (hl : ∀ x, h.lockFirst = some x → s.now ≤ x + 2048)
include hc hl

theorem memberRun_fill (hop : h.cur.op = 0x06) : s.memberRun c =
    (s.setChan c (((h.accessed s.now).buffer h.cur.addr (h.cur.pattern 0 h.cur.count)).moved h.cur.count)).complete c := by
  have hfirst := firstAccess_eq hc (by rw [hop]; decide)
  have hx : (s.setChan c (h.accessed s.now)).chan c = h.accessed s.now := by simp
  have hlate : ¬ (h.accessed s.now).lockLate (s.setChan c (h.accessed s.now)).now = true := Bool.eq_false_iff.1 (Chan.accessed_early hl)
  unfold State.memberRun
  rw [hfirst]
  simp only [hx, Chan.accessed_cur, hop]
  refine (if_neg hlate).trans ?_
  generalize hy : State.modChan (State.setChan s c _) c _ = y
  have hy : y = s.setChan c ((h.accessed s.now).buffer h.cur.addr (h.cur.pattern 0 h.cur.count)) := by
    rw [← hy, State.modChan_eq, hx, State.setChan_setChan]
    rfl
  subst hy
  rw [State.modChan_eq, State.setChan_chan, if_pos rfl, State.setChan_setChan]

theorem memberRun_nop (hop : h.cur.op = 0x7F) : s.memberRun c = (s.setChan c h).complete c := by
  have hlate := Chan.lockLate_false hl
  subst hc
  unfold State.memberRun
  simp only [State.modChan_eq, State.setChan_chan, if_true, hop]
  exact if_neg (Bool.eq_false_iff.1 hlate)

theorem memberRun_move (hop : h.cur.op = 0x05) (hb : s.badWord h.cur.addr h.cur.count = none) :
    ∃ u, ReadOnly (s.setChan c (h.accessed s.now)) u ∧ s.memberRun c =
      (u.setChan c (((h.accessed s.now).buffer h.cur.opLo (overlay h.lockWrites h.cur.addr (s.sramBytes h.cur.addr h.cur.count))).moved
        h.cur.count)).complete c := by
  have hfirst := firstAccess_eq hc (by rw [hop]; decide)
  have hx : (s.setChan c (h.accessed s.now)).chan c = h.accessed s.now := by simp
  have hlate : ¬ (h.accessed s.now).lockLate (s.setChan c (h.accessed s.now)).now = true := Bool.eq_false_iff.1 (Chan.accessed_early hl)
  obtain ⟨u, hu, hr⟩ := memberRead_whole (a := h.cur.addr) (n := h.cur.count) hx hb
  have hchan : u.chan c = h.accessed s.now := (chan_of_chans hr.chans c).trans hx
  refine ⟨u, hr, ?_⟩
  unfold State.memberRun
  rw [hfirst]
  simp only [hx, Chan.accessed_cur, hop, hu]
  refine (if_neg hlate).trans ?_
  rw [State.modChan_eq, State.modChan_eq, State.setChan_chan, if_pos rfl, hchan, State.setChan_setChan]
  rfl

theorem memberRun_compare (hop : h.cur.op = 0x07) (hconst : h.cur.const = true) (hb : s.badWord h.cur.addr h.cur.count = none) :
    ∃ u, ReadOnly (s.setChan c (h.accessed s.now)) u ∧ s.memberRun c =
      (u.setChan c ((h.accessed s.now).compared (firstDiff (overlay h.lockWrites h.cur.addr (s.sramBytes h.cur.addr h.cur.count))
        (h.cur.pattern 0 h.cur.count) 0))).complete c := by
  have hfirst := firstAccess_eq hc (by rw [hop]; decide)
  have hx : (s.setChan c (h.accessed s.now)).chan c = h.accessed s.now := by simp
  have hlate : ¬ (h.accessed s.now).lockLate (s.setChan c (h.accessed s.now)).now = true := Bool.eq_false_iff.1 (Chan.accessed_early hl)
  obtain ⟨u, hu, hr⟩ := memberRead_whole (a := h.cur.addr) (n := h.cur.count) hx hb
  have hchan : u.chan c = h.accessed s.now := (chan_of_chans hr.chans c).trans hx
  refine ⟨u, hr, ?_⟩
  unfold State.memberRun
  rw [hfirst]
  simp only [hx, Chan.accessed_cur, hop, hu, hconst, if_true]
  refine (if_neg hlate).trans ?_
  change (match firstDiff (overlay h.lockWrites h.cur.addr (s.sramBytes h.cur.addr h.cur.count)) (h.cur.pattern 0 h.cur.count) 0 with
    | some k => (u.modChan c fun h => ((h.moved k).setSt stMismatch).setCond false).complete c
    | none => (u.modChan c fun x => (x.moved h.cur.count).setCond true).complete c) = _
  cases firstDiff (overlay h.lockWrites h.cur.addr (s.sramBytes h.cur.addr h.cur.count)) (h.cur.pattern 0 h.cur.count) 0 with
  | none | some k =>
    dsimp only
    rw [State.modChan_eq, hchan]
    rfl

theorem memberRun_cas (hop : h.cur.op = 0x3A) (hb : s.badWord h.cur.addr h.cur.count = none) {b : List Byte}
    (hbytes : b = overlay h.lockWrites h.cur.addr (s.sramBytes h.cur.addr h.cur.count)) :
    ∃ u, ReadOnly (s.setChan c (h.accessed s.now)) u ∧ s.memberRun c =
      (u.setChan c (Chan.casRead (if leNat b = h.cur.opLo then (h.accessed s.now).buffer h.cur.addr (leBytes h.cur.count h.cur.opHi)
        else h.accessed s.now) b)).complete c := by
  have hfirst := firstAccess_eq hc (by rw [hop]; decide)
  have hx : (s.setChan c (h.accessed s.now)).chan c = h.accessed s.now := by simp
  have hlate : ¬ (h.accessed s.now).lockLate (s.setChan c (h.accessed s.now)).now = true := Bool.eq_false_iff.1 (Chan.accessed_early hl)
  obtain ⟨u, hu, hr⟩ := memberRead_whole (a := h.cur.addr) (n := h.cur.count) hx hb
  have hchan : u.chan c = h.accessed s.now := (chan_of_chans hr.chans c).trans hx
  have hu : (s.setChan c (h.accessed s.now)).memberRead c h.cur.addr h.cur.count = (some b, u) := hbytes ▸ hu
  refine ⟨u, hr, ?_⟩
  unfold State.memberRun
  rw [hfirst]
  simp only [hx, Chan.accessed_cur, hop, hu]
  refine (if_neg hlate).trans ?_
  by_cases heq : leNat b = h.cur.opLo
  · have hq : casOutcome h.cur b = true := decide_eq_true heq
    rw [if_pos hq, if_pos heq, State.modChan_eq, State.modChan_eq, State.setChan_chan,
      if_pos rfl, hchan, State.setChan_setChan]
    rfl
  · have hq : ¬ casOutcome h.cur b = true := by simpa [casOutcome] using heq
    rw [if_neg hq, if_neg heq, State.modChan_eq, hchan]
    rfl

end

/-! ## The checks of a bracket (R168, R172) -/

theorem bracketCheck_of_bracket {b : Bracket} (hc : s.chan c = h) (hb : bracketOf h.phy (h.cca + h.cur.size) [] h.ahead = b) :
    s.bracketCheck c = match b with
      | .more => s.setChan c { h with act := .bracket }
      | .bad => s.failCheck c stProgramCheck
      | .ok l =>
        match groupCheckB h (s.dom h.domain).phyOk h.cur with
        | some b => s.failCheck c b
        | none => if physBad (s.dom h.domain).phyOk (l.flatMap physRanges) then s.failCheck c stProtection else s.passChecks c := by
  subst hc
  unfold State.bracketCheck
  simp only [hb]
  cases b <;> rfl

theorem physBad_false {p : Bool} {l : List (Nat × Nat)} (h : ∀ r ∈ l, p = true ∧ r.1 + r.2 ≤ sramSize) : physBad p l = false := by
  rw [Bool.eq_false_iff]
  intro hb
  obtain ⟨r, hr, hbad⟩ := List.any_eq_true.1 hb
  obtain ⟨hp, hle⟩ := h r hr
  have : sramSize < r.1 + r.2 := by simpa [hp] using hbad
  omega

theorem makeCurrent_lock {g : Group} {x : Chan} (hx : x = (s.chan c).current g s.now) (hop : g.op = 0x38) (hA : groupCheckA x g = none) :
    s.makeCurrent c g = (s.setChan c x).bracketCheck c := by
  have hm : s.makeCurrent c g = (match groupCheckA ((s.setChan c ((s.chan c).current g s.now)).chan c) g with
    | some b => (s.setChan c ((s.chan c).current g s.now)).failCheck c b
    | none => if g.op = 0x38 then (s.setChan c ((s.chan c).current g s.now)).bracketCheck c
      else (s.setChan c ((s.chan c).current g s.now)).passChecks c) := rfl
  rw [hm, ← hx, State.setChan_chan, if_pos rfl, hA]
  exact if_pos hop

theorem bracketBlocked_iff : s.bracketBlocked c = true ↔
    (s.chan c).lockFirst = none ∧ ∃ x ∈ (s.chan c).lockBeats, s.beatLocked (some c) (64 * x) 64 = true := by
  simp [State.bracketBlocked]

theorem lockDo_opens {l : List Group} (hc : s.chan c = h) (hb : bracketOf h.phy (h.cca + h.cur.size) [] h.ahead = .ok l) :
    s.lockDo c = (s.setChan c
      { h with inBracket := true, lockWrites := [], lockFirst := none, lockBeats := (l.flatMap memberBeats).eraseDups }).complete c := by
  subst hc
  unfold State.lockDo
  dsimp only
  rw [hb]

/-- The rows by which the members of a bracket arrive. -/
theorem exec_member_current {t : Time} {c : Fin 4096} {i : Instr} {op : Nat}
    (hi : i = .move t c ∧ op = 0x05 ∨ i = .fill t c ∧ op = 0x06 ∨ i = .compare t c ∧ op = 0x07 ∨ i = .cas t c ∧ op = 0x3A)
    (h : Current s c op) (hb : (s.chan c).inBracket = true) : exec i s = .next ((s.arrive t).memberDo c) := by
  have hin (f : State → State) : (s.arrive t).orMember c f = (s.arrive t).memberDo c := orMember_inside (s := s.arrive t) hb f
  obtain ⟨rfl, rfl⟩ | ⟨rfl, rfl⟩ | ⟨rfl, rfl⟩ | ⟨rfl, rfl⟩ := hi
  · rw [exec_move_current h, hin]
  · rw [exec_fill_current h, hin]
  · rw [exec_compare_current h, hin]
  · rw [exec_cas_current h, hin]

theorem exec_member_runs {t : Time} {c : Fin 4096} {i : Instr} {op : Nat}
    (hi : i = .move t c ∧ op = 0x05 ∨ i = .fill t c ∧ op = 0x06 ∨ i = .compare t c ∧ op = 0x07 ∨ i = .cas t c ∧ op = 0x3A)
    (h : Current s c op) (hb : (s.chan c).inBracket = true) (hk : s.bracketBlocked c = false) :
    exec i s = .next ((s.arrive t).memberRun c) := by
  rw [exec_member_current hi h hb, memberDo_runs (s := s.arrive t) hk]

theorem ReadOnly.onlyChan {u w : State} (hr : ReadOnly u w) (hu : OnlyChan c s u) : OnlyChan c s w := hu.of_chans hr.chans

end

/-- Settles O19: the bracket's checks by the cases of `bracketCheck`, and each member by what `memberRun` does on the buffered view. -/
theorem membersOfABracketWriteNothingYet : Obligations.MembersOfABracketWriteNothingYet := by
  unfold Obligations.MembersOfABracketWriteNothingYet
  rintro t c s _ rfl
  have hc : (s.arrive t).chan c = s.chan c := rfl
  have hmember {i op} := exec_member_current (s := s) (t := t) (c := c) (i := i) (op := op)
  have hrun {i op} := exec_member_runs (s := s) (t := t) (c := c) (i := i) (op := op)
  refine ⟨?_, ?_, ?_, ?_, fun b => rfl, ?_, bracketBlocked_iff, ?_, ?_, ?_, ?_, ?_, ?_⟩
  · intro l h hb
    rw [exec_lock_current h, lockDo_opens hc hb]
  · intro hb
    rw [bracketCheck_of_bracket rfl hb]
    rfl
  · intro hb
    rw [bracketCheck_of_bracket rfl hb]
  · intro l hb
    rw [bracketCheck_of_bracket rfl hb]
    dsimp only
    refine ⟨fun b hB => by rw [hB], fun hB => ⟨fun hp => ?_, fun hp => ?_⟩⟩
    · rw [hB]
      exact if_pos hp
    · rw [hB]
      exact if_neg (Bool.eq_false_iff.1 (physBad_false hp))
  · intro g x hx hop hA
    exact makeCurrent_lock hx hop hA
  · intro i op hi h hb hk
    have hn : (s.chan c).cur.op ≠ 0x7F := by
      rw [h.op]
      rcases hi with ⟨-, rfl⟩ | ⟨-, rfl⟩ | ⟨-, rfl⟩ | ⟨-, rfl⟩ <;> decide
    rw [hmember hi h hb, memberDo_blocked (s := s.arrive t) hn hk]
  · intro h hb hk hl
    rw [hrun (.inr (.inl ⟨rfl, rfl⟩)) h hb hk, memberRun_fill hc hl h.op]
    refine ⟨_, rfl, rfl, ?_, ?_, (OnlyChan.refl c s).setChan _⟩ <;> rw [State.setChan_chan, if_pos rfl]
    · exact (Chan.moved_keeps ..).2.2.2.1
    · exact (Chan.moved_keeps ..).2.2.2.2
  · intro h hb hk hl hbad
    obtain ⟨u, hr, hm⟩ := memberRun_move (s := s.arrive t) hc hl h.op hbad
    rw [hrun (.inl ⟨rfl, rfl⟩) h hb hk, hm]
    refine ⟨_, rfl, hr.sram, ?_, (hr.onlyChan ((OnlyChan.refl c s).setChan _)).setChan _⟩
    rw [State.setChan_chan, if_pos rfl]
    exact (Chan.moved_keeps ..).2.2.2.1
  · rintro x y h hb hk hl hconst hbad rfl rfl
    obtain ⟨u, hr, hm⟩ := memberRun_compare (s := s.arrive t) hc hl h.op hconst hbad
    rw [hrun (.inr (.inr (.inl ⟨rfl, rfl⟩))) h hb hk, hm]
    refine ⟨_, rfl, hr.sram, ?_⟩
    rw [State.setChan_chan, if_pos rfl]
    exact Chan.compared_fields ..
  · intro w h hb hk hl hbad hw
    obtain ⟨u, hr, hm⟩ := memberRun_cas (s := s.arrive t) hc hl h.op hbad rfl
    rw [hrun (.inr (.inr (.inr ⟨rfl, rfl⟩))) h hb hk, hm]
    refine ⟨_, rfl, hr.sram, ?_⟩
    rw [State.setChan_chan, if_pos rfl, hw]
    exact Chan.casRead_fields ((s.chan c).accessed (s.arrive t).now) _ _ _
  · intro h hb hl
    rw [exec_nop_current h, orMember_inside (s := s.arrive t) hb]
    have hdo : (s.arrive t).memberDo c = (s.arrive t).memberRun c := if_neg (by simp [hc, h.op])
    rw [hdo, memberRun_nop hc hl h.op]
    exact ⟨_, rfl, rfl, by simp⟩

/-! ## UNLOCK, abandonment and CAS (R169 to R171) -/

/-- The channel out of its bracket. -/
def Chan.unlocked (h : Chan) : Chan := { h with inBracket := false, lockWrites := [], lockFirst := none, lockBeats := [] }

section
variable {s : State} {c : Nat} {h : Chan}

/-- One more locked sequence has ended with its writes. -/
def State.countLock (s : State) : State := { s with mem := { s.mem with locks := s.mem.locks + 1 } }

theorem modChan_of {u : State} (hu : u.chan c = h) (f : Chan → Chan) : u.modChan c f = u.setChan c (f h) := by
  rw [State.modChan_eq, hu]

theorem lockAbandon_eq (hc : s.chan c = h) : s.lockAbandon c =
    ({ s with mem := { s.mem with abandons := s.mem.abandons + 1 } }.setChan c h.unlocked).endOr c 8 := by
  subst hc
  rfl

/-- The buffered writes become visible, in order; nothing else of the counts and the channels changes. -/
theorem foldl_sramWrite (l : List (Nat × List Byte)) (s : State) :
    (l.foldl (fun s p => s.sramWrite p.1 p.2) s).mem.sram = l.foldl (fun m p => putBytes m p.1 p.2) s.mem.sram ∧
      (l.foldl (fun s p => s.sramWrite p.1 p.2) s).mem.locks = s.mem.locks ∧
      (l.foldl (fun s p => s.sramWrite p.1 p.2) s).mem.abandons = s.mem.abandons ∧
      (l.foldl (fun s p => s.sramWrite p.1 p.2) s).chans = s.chans := by
  induction l generalizing s with
  | nil => exact ⟨rfl, rfl, rfl, rfl⟩
  | cons p r ih => exact ih (s.sramWrite p.1 p.2)

theorem unlockDo_writes (hc : s.chan c = h) (hl : ∀ x, h.lockFirst = some x → s.now ≤ x + 2048) :
    ∃ u : State, s.unlockDo c = (u.setChan c h.unlocked).complete c ∧
      u.mem.sram = h.lockWrites.reverse.foldl (fun m p => putBytes m p.1 p.2) s.mem.sram ∧ u.mem.locks = s.mem.locks + 1 ∧
      u.mem.abandons = s.mem.abandons ∧ u.chans = s.chans := by
  have hlate : ¬ h.lockLate s.now = true := Bool.eq_false_iff.1 (Chan.lockLate_false hl)
  obtain ⟨hsram, hlocks, habandons, hchans⟩ := foldl_sramWrite h.lockWrites.reverse s
  generalize hu : List.foldl (fun (s : State) p => s.sramWrite p.1 p.2) s h.lockWrites.reverse = u at hsram hlocks habandons hchans
  refine ⟨u.countLock, ?_, hsram, congrArg (· + 1) hlocks, habandons, hchans⟩
  unfold State.unlockDo
  dsimp only
  rw [hc, if_neg hlate, hu]
  exact congrArg (fun x : State => x.complete c) (modChan_of (u := u.countLock) ((chan_of_chans hchans c).trans hc) _)

theorem unlockDo_late {x : Nat} (hc : s.chan c = h) (hx : h.lockFirst = some x) (hlt : x + 2048 < s.now) : s.unlockDo c = s.lockAbandon c := by
  unfold State.unlockDo
  dsimp only
  rw [hc]
  exact if_pos ((Chan.lockLate_iff h s.now).2 ⟨x, hx, hlt⟩)

theorem casDo_waits (hc : s.chan c = h) (hb : s.beatLocked (some c) h.cur.addr h.cur.count = true) : s.casDo c = s := by
  unfold State.casDo
  dsimp only
  rw [hc]
  exact if_pos hb

theorem casDo_swaps (hc : s.chan c = h) (hk : s.beatLocked (some c) h.cur.addr h.cur.count = false)
    (hb : s.badWord h.cur.addr h.cur.count = none) :
    ∃ u : State, s.casDo c = (u.setChan c (h.casRead (s.sramBytes h.cur.addr h.cur.count))).complete c ∧ u.mem.locks = s.mem.locks + 1 ∧
      u.chans = s.chans ∧ u.mem.sram = if leNat (s.sramBytes h.cur.addr h.cur.count) = h.cur.opLo then
        putBytes s.mem.sram h.cur.addr (leBytes h.cur.count h.cur.opHi) else s.mem.sram := by
  obtain ⟨w, hw, hr⟩ := sramRead_whole hb
  have hkn : ¬ s.beatLocked (some c) h.cur.addr h.cur.count = true := Bool.eq_false_iff.1 hk
  generalize hbytes : s.sramBytes h.cur.addr h.cur.count = b at hw
  generalize hu : (if casOutcome h.cur b then w.sramWrite h.cur.addr (leBytes h.cur.count h.cur.opHi) else w) = u
  have hdone : u.mem.locks = s.mem.locks ∧ u.chans = s.chans ∧ u.mem.sram =
      if leNat b = h.cur.opLo then putBytes s.mem.sram h.cur.addr (leBytes h.cur.count h.cur.opHi) else s.mem.sram := by
    by_cases heq : leNat b = h.cur.opLo
    · rw [← hu, if_pos (show casOutcome h.cur b = true from decide_eq_true heq), if_pos heq, ← hr.sram]
      exact ⟨hr.locks, hr.chans, rfl⟩
    · rw [← hu, if_neg (show ¬ casOutcome h.cur b = true by simpa [casOutcome] using heq), if_neg heq]
      exact ⟨hr.locks, hr.chans, hr.sram⟩
  obtain ⟨hlocks, hchans, hsram⟩ := hdone
  refine ⟨u.countLock, ?_, congrArg (· + 1) hlocks, hchans, hsram⟩
  unfold State.casDo
  simp only [hc, hw, hu]
  refine (if_neg hkn).trans (congrArg (fun x : State => x.complete c) ?_)
  exact modChan_of (u := u.countLock) ((chan_of_chans hchans c).trans hc) _

theorem exec_lockAbandoned_bracket {t : Time} {c : Fin 4096} {x : Nat} (hup : s.up = true) (hb : (s.chan c).inBracket = true)
    (hx : (s.chan c).lockFirst = some x) :
    exec (.lockAbandoned t c) s = .next (if x + 2048 ≤ max s.now t then (s.arrive t).lockAbandon c else s.arrive t) := by
  have hexec : exec (.lockAbandoned t c) s = .next (if (s.chan c).inBracket && (match (s.chan c).lockFirst with
      | some x => decide (x + ns 256 ≤ max s.now t) | none => false) then (s.arrive t).lockAbandon c else s.arrive t) := by
    refine (engineEvent_up (f := fun s => if (s.chan c).inBracket && (match (s.chan c).lockFirst with
      | some x => decide (x + ns 256 ≤ s.now) | none => false) then s.lockAbandon c else s) hup).trans ?_
    rfl
  rw [hexec, hb, hx]
  simp [show ns 256 = 2048 from rfl]

end

/-- Settles O20: what `unlockDo`, `lockAbandon` and `casDo` do, each by its cases. -/
theorem unlockAndCasWriteAtOnce : Obligations.UnlockAndCasWriteAtOnce := by
  unfold Obligations.UnlockAndCasWriteAtOnce
  rintro t c s _ _ rfl rfl
  have hc : (s.arrive t).chan c = s.chan c := rfl
  refine ⟨fun h hl => ?_, fun x h hx hlt => ?_, fun x hup hb hx => ?_, fun w h hb hk hbad hw => ?_, fun h hb hk => ?_⟩
  · obtain ⟨u, hu, hsram, hlocks, habandons, hchans⟩ := unlockDo_writes (s := s.arrive t) hc hl
    rw [exec_unlock_current h, hu]
    exact ⟨_, rfl, hsram, hlocks, habandons, by rw [State.setChan_chan, if_pos rfl]; rfl,
      ((OnlyChan.refl c s).of_chans hchans).setChan _⟩
  · rw [exec_unlock_current h, unlockDo_late (s := s.arrive t) hc hx hlt, lockAbandon_eq hc]
    rfl
  · rw [exec_lockAbandoned_bracket hup hb hx, lockAbandon_eq hc]
    rfl
  · obtain ⟨u, hu, hlocks, hchans, hsram⟩ := casDo_swaps (s := s.arrive t) hc hk hbad
    rw [exec_cas_current h, orMember_outside (s := s.arrive t) hb, hu]
    subst hw
    refine ⟨_, rfl, hlocks, ?_, ((OnlyChan.refl c s).of_chans hchans).setChan _, hsram⟩
    rw [State.setChan_chan, if_pos rfl]
    rfl
  · rw [exec_cas_current h, orMember_outside (s := s.arrive t) hb, casDo_waits (s := s.arrive t) hc hk]

end Sys2Proof.Machine
end


section
/-! PROOFS. Scheduler entries, staging and limits of timed commands, and what MISSED leaves alone (O21). -/

namespace Sys2Proof.Machine

/-! ## What MISSED counts (R189, R191) -/

theorem foldl_keeps {α β : Type} (g : State → β) {f : State → α → State} (hf : ∀ s x, g (f s x) = g s) (l : List α) (s : State) :
    g (l.foldl f s) = g s := by
  induction l generalizing s with
  | nil => rfl
  | cons x r ih => exact (ih _).trans (hf s x)

section
variable (s : State) (c : Nat)

theorem setChan_ou (x : Chan) (u : Nat) : (s.setChan c x).ou u = s.ou u := rfl

theorem freeSlots_missCnt : (s.freeSlots c).sched.missCnt = s.sched.missCnt :=
  foldl_keeps (fun s => s.sched.missCnt) (f := fun s u => s.modOu u fun o => o.free c (cyc s.now + 1)) (fun _ _ => rfl) _ s

theorem freeRecord_missCnt : (s.freeRecord c).sched.missCnt = s.sched.missCnt :=
  foldl_keeps (fun s => s.sched.missCnt) (fun s r => by dsimp only; split <;> rfl) _ s

theorem unclaim_missCnt (b : Burst) : (s.unclaim b).sched.missCnt = s.sched.missCnt := by
  unfold State.unclaim
  dsimp only
  split
  · split <;> rfl
  · rfl
  · rfl

theorem freeMover_missCnt (all : Bool) : (s.freeMover c all).sched.missCnt = s.sched.missCnt := by
  refine foldl_keeps (fun s => s.sched.missCnt) (fun s p => ?_) _ s
  split
  · split
    · exact unclaim_missCnt ..
    · rfl
  · rfl

theorem unhold_missCnt : (s.unhold c).sched.missCnt = s.sched.missCnt := by
  have h := (freeMover_missCnt (s.freeSlots c) c false).trans (freeSlots_missCnt s c)
  unfold State.unhold
  cases (s.chan c).timed with
  | none => rfl
  | some d =>
    dsimp only
    generalize State.freeMover _ c _ = u at h ⊢
    exact h

theorem freeTimed_missCnt : (s.freeTimed c).sched.missCnt = s.sched.missCnt := by
  have h := unhold_missCnt s c
  unfold State.freeTimed
  cases (s.chan c).timed with
  | none => rfl
  | some d =>
    dsimp only
    generalize s.unhold c = u at h ⊢
    exact h

theorem freeAll_missCnt : (s.freeAll c).sched.missCnt = s.sched.missCnt := by
  have h := (freeRecord_missCnt ((s.freeTimed c).freeSlots c) c).trans ((freeSlots_missCnt _ c).trans (freeTimed_missCnt s c))
  unfold State.freeAll
  generalize State.freeRecord _ c = u at h ⊢
  exact h

end

theorem Chan.setSts_keeps (h : Chan) (l : List Nat) :
    (h.setSts l).missCause = h.missCause ∧ (h.setSts l).clearing = h.clearing ∧ (h.setSts l).timed = h.timed ∧
      (h.status.getLsbD 5 = true → (h.setSts l).status.getLsbD 5 = true) := by
  unfold Chan.setSts
  induction l generalizing h with
  | nil => exact ⟨rfl, rfl, rfl, id⟩
  | cons b r ih =>
    obtain ⟨hm, hc, ht, hs⟩ := ih (h.setSt b)
    exact ⟨hm, hc, ht, fun h5 => hs (by simp [Chan.setSt, h5])⟩

theorem Chan.setSts_missed (h : Chan) (l : List Nat) : (h.setSts (stMissed :: l)).status.getLsbD 5 = true := by
  refine (Chan.setSts_keeps (h.setSt stMissed) l).2.2.2 ?_
  simp [Chan.setSt, stMissed]

theorem Chan.untimed_cause (h : Chan) : h.untimed.missCause = h.missCause ∧ h.untimed.timed = none := by
  have hun : h.unread.missCause = h.missCause := by
    unfold Chan.unread
    split
    · split <;> rfl
    · rfl
  unfold Chan.untimed
  split
  · next ht => exact ⟨rfl, ht⟩
  · dsimp only
    split
    · exact ⟨rfl, rfl⟩
    · exact ⟨hun, rfl⟩

/-- The channel of a command that is about to end MISSED. -/
def Chan.missing (h : Chan) (cause : Nat) (bits : List Nat) : Chan :=
  { h with missCause := BitVec.ofNat 4 cause, committed := false }.setSts (stMissed :: bits)

/-- One more command has ended MISSED by `cause`. -/
def State.countMiss (s : State) (cause : Nat) : State :=
  { s with sched := { s.sched with missCnt := tput 0 s.sched.missCnt cause (tget 0 s.sched.missCnt cause + 1) } }

section
variable {s : State} {c : Nat}

theorem miss_eq (he : (s.chan c).eq = none) (hz : (s.chan c).clearing = false) (cause : Nat) (bits : List Nat) :
    s.miss c cause bits = ((((s.countMiss cause).freeMover c true).setChan c ((s.chan c).missing cause bits)).freeAll c).setChan c
      (((s.chan c).missing cause bits).untimed.ended .halted) := by
  have hchan : ((s.countMiss cause).freeMover c true).chan c = s.chan c := chan_of_chans (freeMover_chans ..) c
  obtain ⟨-, hclear, -, -⟩ := Chan.setSts_keeps { s.chan c with missCause := BitVec.ofNat 4 cause, committed := false } (stMissed :: bits)
  have hm : s.miss c cause bits =
      (((s.countMiss cause).freeMover c true).setChan c ((s.chan c).missing cause bits)).endProgram c .halted false := by
    change State.endProgram (State.modChan (State.modChan ((s.countMiss cause).freeMover c true) c _) c _) c .halted false = _
    rw [State.modChan_eq, State.modChan_eq, hchan, State.setChan_chan, if_pos rfl, State.setChan_setChan]
    rfl
  have hnone : ((s.chan c).missing cause bits).eq = none := (Chan.setSts_eq ..).trans he
  have hzero : ((s.chan c).missing cause bits).clearing = false := hclear.trans hz
  rw [hm, endProgram_none (by simpa using hnone), State.setChan_chan, if_pos rfl, hzero, State.enterEnd_eq, freeAll_chan, if_pos rfl,
    State.setChan_chan, if_pos rfl]
  have hun : ((s.chan c).missing cause bits).untimed.clearing = false := (Chan.untimed_eq _).2.trans hzero
  unfold Chan.atEnd
  rw [hun]
  rfl

theorem miss_halts (he : (s.chan c).eq = none) (hz : (s.chan c).clearing = false) {cause : Nat} (hk : cause < 16) (bits : List Nat) :
    ((s.miss c cause bits).chan c).st = .halted ∧ ((s.miss c cause bits).chan c).status.getLsbD 5 = true ∧
      ((s.miss c cause bits).chan c).missCause.toNat = cause ∧ ((s.miss c cause bits).chan c).timed = none := by
  rw [miss_eq he hz, State.setChan_chan, if_pos rfl]
  obtain ⟨hcause, htimed⟩ := Chan.untimed_cause ((s.chan c).missing cause bits)
  obtain ⟨hset, -, -, -⟩ := Chan.setSts_keeps { s.chan c with missCause := BitVec.ofNat 4 cause, committed := false } (stMissed :: bits)
  refine ⟨rfl, ?_, ?_, htimed⟩
  · have hst : (((s.chan c).missing cause bits).untimed.ended .halted).status = ((s.chan c).missing cause bits).status :=
      (Chan.untimed_keeps _).1
    rw [hst]
    exact Chan.setSts_missed ..
  · have hmc : (((s.chan c).missing cause bits).untimed.ended .halted).missCause = BitVec.ofNat 4 cause := hcause.trans hset
    rw [hmc, BitVec.toNat_ofNat]
    exact Nat.mod_eq_of_lt hk

theorem miss_counts (he : (s.chan c).eq = none) (hz : (s.chan c).clearing = false) (cause : Nat) (bits : List Nat) :
    tget 0 (s.miss c cause bits).sched.missCnt cause = tget 0 s.sched.missCnt cause + 1 := by
  have h : (s.miss c cause bits).sched.missCnt = (s.countMiss cause).sched.missCnt := by
    rw [miss_eq he hz, State.setChan_sched, freeAll_missCnt, State.setChan_sched, freeMover_missCnt]
  rw [h]
  exact (tget_tput ..).trans (if_pos rfl)

theorem miss_holder (he : (s.chan c).eq = none) (hz : (s.chan c).clearing = false) (cause : Nat) (bits : List Nat) (u : Nat) :
    ((s.miss c cause bits).ou u).holder ≠ some c := by
  rw [miss_eq he hz, setChan_ou]
  exact (freeAll_ou ..).1

/-! ## Entries (R182, R205, R206) -/

theorem entryGrant_none (h : s.sched.grantAt = some (cyc s.now) ∨ 8192 ≤ s.sched.used + (if s.sched.freshAt = cyc s.now then s.sched.fresh else 0)) :
    s.entryGrant = s := by
  refine if_pos ?_
  rcases h with h | h
  · simp [h]
  · have hfree : s.schedFree = 0 := by
      unfold State.schedFree
      rw [show schedSize = 8192 from rfl]
      omega
    simp [hfree]

/-- The scheduler has given out its entry of this cycle. -/
def State.granting (s : State) : State := { s with sched := { s.sched with grantAt := some (cyc s.now) } }

theorem entryGrant_gives (hg : s.sched.grantAt ≠ some (cyc s.now))
    (hf : s.sched.used + (if s.sched.freshAt = cyc s.now then s.sched.fresh else 0) < 8192) : s.entryGrant = s.granting.giveEntry := by
  have hfree : s.schedFree ≠ 0 := by
    unfold State.schedFree
    rw [show schedSize = 8192 from rfl]
    omega
  exact if_neg (by simp [hg, hfree])

/-- The scheduler has become `z`. -/
def State.setSched (s : State) (z : Sched) : State := { s with sched := z }

theorem setSched_predictorOf (z : Sched) (n : Nat) : (s.setSched z).predictorOf n = s.predictorOf n := by
  induction n with
  | zero => rfl
  | succ n ih =>
    unfold State.predictorOf
    rw [ih]
    rfl

/-- What a command is predicted to do rests on the cells, not on the scheduler. -/
theorem setSched_predictDue (z : Sched) : (s.setSched z).predictDue c = s.predictDue c := by
  unfold State.predictDue State.predictAt
  simp only [setSched_predictorOf]
  rfl

/-- The scheduler with its first waiting command gone. -/
def Sched.passCmd (d : Sched) (r : List Taker) : Sched := { d with waitCmd := r }

/-- The scheduler with its first waiting compare unit gone. -/
def Sched.passCmp (d : Sched) (r : List Taker) : Sched := { d with waitCmp := r }

theorem ns_eq (n : Nat) : ns n = 8 * n := Nat.mul_comm n 8

theorem giveEntry_cmd {r : List Taker} {d : Timed} {x : Nat} (hw : s.sched.waitCmd = .cmd c :: r) (ht : (s.chan c).timed = some d)
    (hx : s.predictDue c = some x) : s.giveEntry =
      if x < s.now + 8 * d.commit then (s.setSched (s.sched.passCmd r)).miss c 4 []
      else (s.setSched (s.sched.passCmd r).take).setChan c
        { s.chan c with due := x, timed := some { d with entry := true, due := some x } } := by
  have hpred : (s.setSched (s.sched.passCmd r)).predictDue c = some x := (setSched_predictDue _).trans hx
  by_cases hlt : x < s.now + 8 * d.commit
  · rw [if_pos hlt]
    unfold State.setSched Sched.passCmd at hpred ⊢
    unfold State.giveEntry
    simp only [hw, hpred]
    refine if_pos ?_
    change x < s.now + ns ((s.chan c).timed.elim 0 (·.commit))
    rw [ht, Option.elim_some, ns_eq]
    exact hlt
  · rw [if_neg hlt]
    unfold State.setSched Sched.passCmd at hpred ⊢
    unfold State.giveEntry
    simp only [hw, hpred]
    refine (if_neg ?_).trans ?_
    · change ¬ x < s.now + ns ((s.chan c).timed.elim 0 (·.commit))
      rw [ht, Option.elim_some, ns_eq]
      exact hlt
    · rw [State.setDue, State.modChan_eq, State.modChan_eq, State.setChan_setChan, State.setChan_chan, if_pos rfl]
      refine congrArg (State.setChan _ c) ?_
      change ({ s.chan c with
        due := x
        timed := Option.map (fun (d : Timed) => { d with due := some x })
          (Option.map (fun (d : Timed) => { d with entry := true }) (s.chan c).timed) } : Chan) = _
      rw [ht]
      rfl

theorem giveEntry_pat {r : List Taker} {d : Timed} (hw : s.sched.waitCmd = .pat c :: r) (ht : (s.chan c).timed = some d) :
    s.giveEntry = (s.setSched (s.sched.passCmd r).take).setChan c { s.chan c with timed := some { d with patHeld := d.patHeld + 1 } } := by
  unfold State.giveEntry
  simp only [hw]
  refine congrArg (State.setChan _ c) ?_
  change ({ s.chan c with timed := Option.map (fun (d : Timed) => { d with patHeld := d.patHeld + 1 }) (s.chan c).timed } : Chan) = _
  rw [ht]
  rfl

theorem giveEntry_cmp {k : Nat} {r : List Taker} (hw : s.sched.waitCmd = []) (hk : s.sched.waitCmp = .cmp k :: r) :
    s.giveEntry = ((s.setSched (s.sched.passCmp r).take).setCmp k { s.cmp k with entry := true }).cmpPredict k := by
  unfold State.giveEntry State.setSched Sched.passCmp
  simp only [hw, hk]
  rfl

theorem cmpPredict_of (k : Nat) : ∃ x : Cmp, x.entry = (s.cmp k).entry ∧ x.armed = (s.cmp k).armed ∧ (s.cmpPredict k).sched = s.sched ∧
    ∀ j, (s.cmpPredict k).cmp j = if j = k then x else s.cmp j := by
  unfold State.cmpPredict
  dsimp only
  split
  · refine ⟨s.cmp k, rfl, rfl, rfl, fun j => ?_⟩
    by_cases hj : j = k
    · rw [if_pos hj, hj]
    · rw [if_neg hj]
  · refine ⟨_, ?_, ?_, rfl, fun j => State.setCmp_cmp ..⟩ <;> rfl

/-! ## Staging and limits (R129, R176, R177, R194) -/

theorem stagingBegin_eq {h : Chan} {d : Timed} {x : Nat} (hc : s.chan c = h) (ht : h.timed = some d) (hst : h.st = .waiting)
    (hact : h.act = .sched) (he : d.entry = true) (hs : d.staging = false) (hd : d.due = some x) :
    s.stagingBegin c = if x ≤ s.now + max (8000 * d.lead) (8 * d.commit + 8000) then
      (s.setChan c { h with st := .staged, timed := some { d with staging := true } }).stagePump c else s := by
  have hdue : (h.stageDue s.now = true) = (x ≤ s.now + max (8000 * d.lead) (8 * d.commit + 8000)) := by
    have hlead : d.effLead = max (8000 * d.lead) (8 * d.commit + 8000) := by
      simp only [Timed.effLead, us, ns]
      omega
    simp [Chan.stageDue, ht, hst, hact, he, hs, hd, hlead]
  subst hc
  unfold State.stagingBegin
  simp only [hdue]
  refine ite_congr rfl (fun _ => ?_) (fun _ => rfl)
  unfold State.stageBegin
  rw [State.modChan_eq, ht]
  rfl

theorem limitExpiry_eq {d : Timed} {x : Nat} (ht : (s.chan c).timed = some d) (hl : d.limit = some x) :
    s.limitExpiry c = if d.committed = none ∧ x ≤ s.now then s.miss c 1 [] else s := by
  unfold State.limitExpiry
  rw [ht]
  simp [Timed.limitOver, hl, mLimit]

end

/-! ## The rows -/

section
variable {s : State} {t : Time}

theorem exec_schedEntryGrant_up (hup : s.up = true) : exec (.schedEntryGrant t) s = .next (s.arrive t).entryGrant :=
  engineEvent_up (f := State.entryGrant) hup

end

/-- Settles O21: entries by the cases of `giveEntry`, staging and limits by their conditions, and MISSED by what `miss` leaves alone. -/
theorem timedCommandsStageOrAreMissed : Obligations.TimedCommandsStageOrAreMissed := by
  unfold Obligations.TimedCommandsStageOrAreMissed
  refine ⟨⟨?_, ?_, ?_, ?_⟩, ?_⟩
  · rintro t s _ _ hup rfl rfl
    have hnow : (s.arrive t).now = max s.now t := rfl
    refine ⟨fun h => ?_, fun hg hf => ⟨?_, ?_, ?_⟩⟩
    · rw [exec_schedEntryGrant_up hup, entryGrant_none (s := s.arrive t) h]
    · intro c r d x hw ht hx
      rw [exec_schedEntryGrant_up hup, entryGrant_gives (s := s.arrive t) hg hf,
        giveEntry_cmd (s := (s.arrive t).granting) (x := x) hw ht ((setSched_predictDue (s := s.arrive t) _).trans hx)]
      refine ⟨fun hle => ?_, fun hlt => congrArg _ (if_pos hlt)⟩
      refine ⟨_, congrArg _ (if_neg (Nat.not_lt.2 hle)), rfl, ?_, (OnlyChan.refl c s).setChan _⟩
      rw [State.setChan_chan, if_pos rfl]
      rfl
    · intro c r d hw ht
      rw [exec_schedEntryGrant_up hup, entryGrant_gives (s := s.arrive t) hg hf, giveEntry_pat (s := (s.arrive t).granting) hw ht]
      refine ⟨_, rfl, rfl, ?_, (OnlyChan.refl c s).setChan _⟩
      rw [State.setChan_chan, if_pos rfl]
      rfl
    · intro k r hw hk
      rw [exec_schedEntryGrant_up hup, entryGrant_gives (s := s.arrive t) hg hf, giveEntry_cmp (s := (s.arrive t).granting) hw hk]
      generalize hu : State.setCmp _ k _ = u
      obtain ⟨x, hentry, harmed, hsched, hcmp⟩ := cmpPredict_of (s := u) k
      have hself : u.cmp k = { s.cmp k with entry := true } := by
        rw [← hu, State.setCmp_cmp, if_pos rfl]
        rfl
      refine ⟨_, rfl, ?_, ?_, ?_, fun j hj => ?_⟩
      · rw [hsched, ← hu]
        rfl
      · rw [hcmp, if_pos rfl, hentry, hself]
      · rw [hcmp, if_pos rfl, harmed, hself]
      · rw [hcmp, if_neg hj, ← hu, State.setCmp_cmp, if_neg hj]
        rfl
  · intro t m v s hs
    exact regWrite_serves (f := fun s => s.schedCtrl v) hs
  · rintro t c s _ d x rfl hup ht hst hact he hs hd
    refine (engineEvent_up (f := fun s => s.stagingBegin c) hup).trans ?_
    rw [stagingBegin_eq (s := s.arrive t) rfl ht hst hact he hs hd]
    rfl
  · intro t c s d x hup ht hl
    refine (engineEvent_up (f := fun s => s.limitExpiry c) hup).trans ?_
    rw [limitExpiry_eq (s := s.arrive t) ht hl]
    rfl
  · intro s c k bits hk he hz
    obtain ⟨hst, hstatus, hcause, htimed⟩ := miss_halts he hz hk bits
    have hsil := silent_miss he k bits
    exact ⟨hst, hstatus, hcause, htimed, miss_counts he hz k bits, hsil.mem, fun u => ⟨hsil.drive u, miss_holder he hz k bits u⟩,
      hsil.pins, hsil.out, hsil.only, kept_miss (.refl s)⟩

end Sys2Proof.Machine
end


section
/-! PROOFS. The commit point, the lock and the effect of timed commands (O22). -/

namespace Sys2Proof.Machine

section
variable {s : State} {c : Nat}

/-! ## The commit point (R189, R191, R192) -/

/-- The channel of a command that commits for the due time `x`. -/
def Chan.commits (h : Chan) (d : Timed) (x : Time) : Chan := { h with committed := true, timed := some { d with committed := some x } }

/-- The channel of a command whose due time is locked. -/
def Chan.locks (h : Chan) (d : Timed) : Chan := { h with timed := some { d with locked := true } }

/-- What becomes of a staged command at its commit point. -/
theorem commitPoint_staged {d : Timed} {x : Nat} (ht : (s.chan c).timed = some d) (hd : d.due = some x) (hs : d.staging = true)
    (hc : d.committed = none) : s.commitPoint c = if s.now + 8 * d.commit < x then s else match s.missCauses c d with
      | k :: _ => s.miss c k (s.missBits c k)
      | [] => s.setChan c ((s.chan c).commits d x) := by
  unfold State.commitPoint
  simp only [ht, hd, hs, hc, if_true, Option.isSome_none, Bool.false_or, decide_eq_true_eq, ns_eq]
  split
  · rfl
  · cases s.missCauses c d with
    | cons k r => rfl
    | nil =>
      dsimp only
      rw [State.modChan_eq, ht]
      rfl

/-- A command whose staging has not begun by its commit point begins it there. -/
theorem commitPoint_unstaged {d d' : Timed} {x : Nat} (ht : (s.chan c).timed = some d) (hd : d.due = some x) (hs : d.staging = false)
    (hc : d.committed = none) (hx : x ≤ s.now + 8 * d.commit) {u : State} (hu : s.stageBegin c = u) (ht' : (u.chan c).timed = some d') :
    s.commitPoint c = match u.missCauses c d' with
      | k :: _ => u.miss c k (u.missBits c k)
      | [] => u.setChan c ((u.chan c).commits d' x) := by
  have hlt : ¬ s.now + 8 * d.commit < x := Nat.not_lt.2 hx
  unfold State.commitPoint
  simp only [ht, hd, hs, hc, Bool.false_eq_true, if_false, Option.isSome_none, Bool.false_or, decide_eq_true_eq, ns_eq, if_neg hlt, hu, ht']
  cases u.missCauses c d' with
  | cons k r => rfl
  | nil =>
    dsimp only
    rw [State.modChan_eq, ht']
    rfl

theorem missBits_eq (k : Nat) : s.missBits c k = if k = 9 ∧ s.stageCheck c = true then [11] else [] := by
  simp only [State.missBits, Bool.and_eq_true, decide_eq_true_eq]
  rfl

theorem missCauses_nil (d : Timed) : s.missCauses c d = [] ↔ d.limitOver s.now = false ∧ d.patNeed = d.patHeld ∧ s.stageWants c = false ∧
    s.slotOk c = true ∧ s.stageUnit c = true ∧ s.stageCheck c = false ∧ s.staged c = true := by
  simp [State.missCauses, and_assoc]

theorem edgeCommit_eq {u : Nat} {p : PatEntry} {r : List PatEntry} {x : Nat} {d : Timed} (hp : (s.ou u).pat = p :: r) (hpos : p.pos = true)
    (hx : (s.ou u).posDue = some x) (hh : (s.ou u).holder = some c) (ht : (s.chan c).timed = some d) :
    s.edgeCommit u = if (s.ou u).posCommitted = none ∧ x ≤ s.now + 8 * d.commit then s.setOu u { s.ou u with posCommitted := some x } else s := by
  unfold State.edgeCommit
  simp only [hp, hx, hh, ht, hpos, Bool.true_and, Option.elim_some, ns_eq, Bool.and_eq_true, decide_eq_true_eq, Option.isNone_iff_eq_none]

/-! ## The lock (R193) -/

theorem placementLock_eq {h : Chan} {d : Timed} {x : Nat} (hc : s.chan c = h) (ht : h.timed = some d) (hx : d.committed = some x)
    (ha : h.act = .sched) (hl : d.locked = false) :
    s.placementLock c = if h.due ≤ s.now + 128 then s.setChan c (h.locks d) else s := by
  subst hc
  unfold State.placementLock
  simp only [ht, hx, hl, ha, Option.isSome_some, Bool.not_false, Bool.true_and, decide_eq_true_eq, show ns 16 = 128 from rfl]
  refine ite_congr rfl (fun _ => ?_) (fun _ => rfl)
  rw [State.modChan_eq, ht]
  rfl

/-! ## The effect (R131, R176, R178, R194) -/

theorem effectAt_grid {h : Chan} (hg : h.cur.op = 0x30 ∨ h.cur.op = 0x04 ∧ unitClass h.cur.unit = .out) : h.effectAt = h.due := by
  refine if_pos ?_
  rcases hg with hg | ⟨hg, hu⟩
  · simp [Group.onGrid, hg]
  · simp [Group.onGrid, Group.wantsSample, hg, hu]

theorem nextCycle (n : Nat) : (n + 7) / 8 * 8 % 8 = 0 ∧ n ≤ (n + 7) / 8 * 8 ∧ (n + 7) / 8 * 8 < n + 8 := by
  omega

theorem effectAt_cycle {h : Chan} (hg : h.cur.op ≠ 0x30) (hs : h.cur.op ≠ 0x04 ∨ unitClass h.cur.unit ≠ .out) :
    h.effectAt % 8 = 0 ∧ h.due ≤ h.effectAt ∧ h.effectAt < h.due + 8 := by
  have he : h.effectAt = (h.due + 7) / 8 * 8 := by
    refine if_neg ?_
    rcases hs with hs | hs <;> simp [Group.onGrid, Group.wantsSample, hg, hs]
  rw [he]
  exact nextCycle h.due

/-- The channel of a committed command once it takes effect. -/
def Chan.effecting (h : Chan) (d : Timed) : Chan := { h with st := h.st.going, act := .ready, timed := some { d with locked := true } }

theorem effect_runs {h : Chan} {d : Timed} {x : Nat} (hc : s.chan c = h) (ht : h.timed = some d) (hx : d.committed = some x)
    (ha : h.act = .sched) (hn : h.effectAt ≤ s.now) : s.effect c = (s.setChan c (h.effecting d)).effectDo c d := by
  subst hc
  have hgate : ¬ (d.committed.isNone || decide ((s.chan c).act ≠ .sched) || decide (s.now < (s.chan c).effectAt)) = true := by
    simpa [hx, ha] using hn
  unfold State.effect
  simp only [ht]
  refine (if_neg hgate).trans (congrArg (fun u : State => u.effectDo c d) ?_)
  rw [State.modChan_eq]
  refine congrArg (State.setChan s c) ?_
  change ({ s.chan c with
    st := (s.chan c).st.going
    act := .ready
    timed := Option.map (fun (d : Timed) => { d with locked := true }) (s.chan c).timed } : Chan) = _
  rw [ht]
  rfl

theorem isWait_iff {k : Nat} {g : Group} : isWait k g = true ↔ g.op = 0x20 ∧ g.waitKind = k := by
  simp [isWait]

section
variable {d : Timed}

theorem effectDo_signal (ho : (s.chan c).cur.op = 0x30) : s.effectDo c d = s.signalFire c (s.chan c).due ((patEntries d.buf).map (·.1)) := by
  simp only [State.effectDo, ho]

theorem effectDo_control (ho : (s.chan c).cur.op = 0x03) : s.effectDo c d = s.controlDo c := by simp only [State.effectDo, ho]
theorem effectDo_arm (ho : (s.chan c).cur.op = 0x31) : s.effectDo c d = s.armDo c := by simp only [State.effectDo, ho]
theorem effectDo_mark (ho : (s.chan c).cur.op = 0x40) : s.effectDo c d = s.markDo c := by simp only [State.effectDo, ho]

theorem effectDo_other (ho : (s.chan c).cur.op = 0x20 ∨ (s.chan c).cur.op = 0x7F) : s.effectDo c d = s.complete c := by
  rcases ho with ho | ho <;> simp only [State.effectDo, ho]

theorem effectDo_write (ho : (s.chan c).cur.op = 0x02) : s.effectDo c d = (s.writeUnit c d.buf true).complete c := by
  simp only [State.effectDo, ho]

theorem effectDo_move (ho : (s.chan c).cur.op = 0x05) : s.effectDo c d = s.runHeld c
    { chan := c, len := (s.chan c).cur.count, unit := d.buf, wr := some (mkSide (s.chan c).spanB (s.chan c).cur.count),
      retry := (s.chan c).retryN } := by
  simp only [State.effectDo, ho]

theorem effectDo_forms (ho : (s.chan c).cur.op = 0x06 ∨ (s.chan c).cur.op = 0x07) :
    s.effectDo c d = (s.form c true).2.runHeld c (s.form c true).1 := by
  rcases ho with ho | ho <;> simp only [State.effectDo, ho]

end

theorem effect_waits (h : ∀ d, (s.chan c).timed = some d → d.committed = none ∨ s.now < (s.chan c).effectAt) : s.effect c = s := by
  unfold State.effect
  dsimp only
  split
  · next d ht =>
    refine if_pos ?_
    rcases h d ht with h | h <;> simp [h]
  · rfl

end

/-- Settles O22: the commit point by its causes, the lock and the effect by their instants, and what takes effect by the command's code. -/
theorem timedCommandsCommitLockAndTakeEffect : Obligations.TimedCommandsCommitLockAndTakeEffect := by
  unfold Obligations.TimedCommandsCommitLockAndTakeEffect
  have hexec (t : Time) (c : Fin 4096) (s : State) (hup : s.up = true) : exec (.commit t c) s = .next ((s.arrive t).commitPoint c) :=
    engineEvent_up (f := fun s => s.commitPoint c) hup
  refine ⟨?_, ?_, fun s c d => missCauses_nil d, fun h => ⟨effectAt_grid, effectAt_cycle⟩, ?_, ?_, ?_, ?_⟩
  · rintro t c s _ d x rfl hup ht hd hs hc
    have hpoint := commitPoint_staged (s := s.arrive t) ht hd hs hc
    refine ⟨fun hx hm => ?_, fun k r hx hm => ?_, fun hx => ?_⟩ <;> rw [hexec t c s hup, hpoint]
    · rw [hm]
      exact congrArg _ (if_neg (Nat.not_lt.2 hx))
    · rw [hm]
      dsimp only
      rw [missBits_eq]
      exact congrArg _ (if_neg (Nat.not_lt.2 hx))
    · exact congrArg _ (if_pos hx)
  · rintro t c s s1 d d' x hup ht hd hs hc hx rfl ht'
    have hpoint := commitPoint_unstaged (s := s.arrive t) ht hd hs hc hx rfl ht'
    refine ⟨fun hm => ?_, fun k r hm => ?_⟩
    · rw [hexec t c s hup, hpoint, hm]
      rfl
    · rw [hexec t c s hup, hpoint, hm]
  · intro t u s p r x c d hup hp hpos hx hh ht
    refine (engineEvent_up (f := fun s => s.edgeCommit u) hup).trans ?_
    rw [edgeCommit_eq (s := s.arrive t) hp hpos hx hh ht]
    rfl
  · rintro t c s _ d x rfl hup ht hx ha hl
    refine (engineEvent_up (f := fun s => s.placementLock c) hup).trans ?_
    rw [placementLock_eq (s := s.arrive t) rfl ht hx ha hl]
    rfl
  · rintro t c s _ _ d x rfl hup ht hx ha hn rfl
    have hrun := effect_runs (s := s.arrive t) rfl ht hx ha hn
    generalize hs1 : State.setChan (s.arrive t) c _ = s1
    have hrun : (s.arrive t).effect c = s1.effectDo c d := by
      rw [hrun, ← hs1]
      rfl
    have hcur : (s1.chan c).cur = (s.chan c).cur := by
      rw [← hs1, State.setChan_chan, if_pos rfl]
    have hdue : (s1.chan c).due = (s.chan c).due := by
      rw [← hs1, State.setChan_chan, if_pos rfl]
    have hdo (op : Nat) (ho : (s.chan c).cur.op = op) : (s1.chan c).cur.op = op := by rw [hcur, ho]
    refine ⟨?_, ?_, ?_, ?_, ?_, ?_, ?_, ?_, ?_, ?_⟩
    · exact (engineEvent_up (f := fun s => s.effect c) hup).trans (congrArg _ hrun)
    · intro hw
      have hop : (s.chan c).cur.op = 0x20 := (isWait_iff.1 hw).1
      refine (engineEvent_up (f := fun s => if isWait 1 (s.chan c).cur then s.effect c else s) hup).trans (congrArg _ ?_)
      exact (if_pos hw).trans (hrun.trans (effectDo_other (.inl (hdo _ hop))))
    · intro ho
      rw [effectDo_signal (hdo _ ho), hdue]
    · exact fun ho => effectDo_control (hdo _ ho)
    · exact fun ho => effectDo_arm (hdo _ ho)
    · exact fun ho => effectDo_mark (hdo _ ho)
    · exact fun ho => effectDo_other (.inr (hdo _ ho))
    · exact fun ho => effectDo_write (hdo _ ho)
    · intro ho
      rw [effectDo_move (hdo _ ho), ← hs1, State.setChan_chan, if_pos rfl]
      rfl
    · exact fun ho => effectDo_forms (ho.imp (hdo _) (hdo _))
  · intro t c s hup hw
    refine (engineEvent_up (f := fun s => s.effect c) hup).trans (congrArg _ ?_)
    exact effect_waits (s := s.arrive t) hw

end Sys2Proof.Machine
end


section
/-! PROOFS. Requests to channels: how they are judged, and what an accepted one does (O23, O24). -/

namespace Sys2Proof.Machine

/-! ## The order of judgement (R243, R247 to R250) -/

section
variable {s : State} {q c : Nat} {r : Request}

theorem ended_iff {st : ChanState} : st.ended = true ↔ st = .idle ∨ st = .halted := by
  cases st <;> simp [ChanState.ended]

theorem judgeReq_invalid (h : q = 0 ∨ r.invalid = true) : s.judgeReq q c r = 2 := by
  refine if_pos ?_
  simpa using h

/-- A request with values it may carry, from a queue. -/
theorem judgeReq_valid (hq : q ≠ 0) (hv : r.invalid = false) : s.judgeReq q c r =
    if (s.chan c).wq ≠ some q then cNotPermitted
    else if r.isStart && (!(s.chan c).domSet || (s.chan c).eq.isNone) then cNoObject
    else if (r.isStart || r.isResume) && s.fc.safe then cNotPermitted
    else r.verdict (s.chan c).st (s.chan c).suspReq ((s.chan c).status.getLsbD stParkLost) :=
  if_neg (by simp [hq, hv])

section
variable (hq : q ≠ 0) (hv : r.invalid = false)
include hq hv

theorem judgeReq_unbound (h : (s.chan c).wq ≠ some q) : s.judgeReq q c r = 4 := by
  rw [judgeReq_valid hq hv]
  exact if_pos h

variable (hw : (s.chan c).wq = some q)
include hw

theorem judgeReq_noObject (hr : r.isStart = true) (h : (s.chan c).domSet = false ∨ (s.chan c).eq = none) : s.judgeReq q c r = 3 := by
  rw [judgeReq_valid hq hv, if_neg (not_not.2 hw)]
  refine if_pos ?_
  rcases h with h | h <;> simp [hr, h]

variable (hs : r.isStart = false ∨ (s.chan c).domSet = true ∧ (s.chan c).eq ≠ none)
include hs

theorem judgeReq_equipped : s.judgeReq q c r = if (r.isStart || r.isResume) && s.fc.safe then cNotPermitted
    else r.verdict (s.chan c).st (s.chan c).suspReq ((s.chan c).status.getLsbD stParkLost) := by
  rw [judgeReq_valid hq hv, if_neg (not_not.2 hw)]
  refine if_neg ?_
  rcases hs with hs | ⟨hd, he⟩
  · simp [hs]
  · simp [hd, he]

theorem judgeReq_safe (hr : r.isStart = true ∨ r.isResume = true) (hsafe : s.fc.safe = true) : s.judgeReq q c r = 4 := by
  rw [judgeReq_equipped hq hv hw hs]
  exact if_pos (by simpa [hsafe] using hr)

theorem judgeReq_verdict (hsafe : s.fc.safe = false ∨ r.isStart = false ∧ r.isResume = false) :
    s.judgeReq q c r = r.verdict (s.chan c).st (s.chan c).suspReq ((s.chan c).status.getLsbD 12) := by
  rw [judgeReq_equipped hq hv hw hs]
  refine if_neg ?_
  rcases hsafe with h | ⟨h, h'⟩
  · simp [h]
  · simp [h, h']

end

section
variable {st : ChanState} {susp lost : Bool}

theorem verdict_start (phy : Bool) (a : Nat) : (Request.start phy a).verdict st susp lost =
    if st = .haltPending ∨ susp = true then 1 else if st = .idle ∨ st = .halted then 0 else 11 := by
  simp only [Request.verdict, Bool.or_eq_true, decide_eq_true_eq, ended_iff]
  rfl

theorem verdict_stop (h : r = .halt ∨ r = .clear) : r.verdict st susp lost = if st = .haltPending then 1 else 0 := by
  rcases h with rfl | rfl <;> rfl

theorem verdict_suspend : Request.suspend.verdict st susp lost =
    if st = .haltPending then 1 else if st = .idle ∨ st = .halted ∨ st = .faulted then 11 else 0 := by
  simp only [Request.verdict, Bool.or_eq_true, decide_eq_true_eq, ended_iff, or_assoc]
  rfl

theorem verdict_resume : Request.resume.verdict st susp lost = if st = .haltPending ∨ susp = true then 1
    else if st = .suspended then 0 else if st = .faulted then (if lost then 4 else 0) else 11 := by
  simp only [Request.verdict, Bool.or_eq_true, decide_eq_true_eq]
  rfl

theorem verdict_modify (phy : Bool) (a : Nat) (mask : BitVec 3) (cond : Bool) : (Request.modify phy a mask cond).verdict st susp lost =
    if st = .haltPending ∨ susp = true then 1
    else if st = .idle ∨ st = .halted ∨ st = .suspended ∨ st = .faulted then 0 else 11 := by
  simp only [Request.verdict, Bool.or_eq_true, decide_eq_true_eq, ended_iff, or_assoc]
  rfl

end

end

/-- The rows of the requests. -/
theorem exec_request {t : Time} {q : Fin 1024} {c : Fin 4096} {i : Instr} {r : Request}
    (h : i = .halt t q c ∧ r = .halt ∨ i = .suspend t q c ∧ r = .suspend ∨ i = .resume t q c ∧ r = .resume ∨ i = .clear t q c ∧ r = .clear ∨
      (∃ phy a, i = .start t q c phy a ∧ r = .start phy a) ∨ (∃ phy a, i = .storeStatus t q c phy a ∧ r = .store phy a) ∨
      ∃ phy a mask cond, i = .modify t q c phy a mask cond ∧ r = .modify phy a mask cond) (s : State) :
    exec i s = onRequest t q c r s := by
  obtain ⟨rfl, rfl⟩ | ⟨rfl, rfl⟩ | ⟨rfl, rfl⟩ | ⟨rfl, rfl⟩ | ⟨phy, a, rfl, rfl⟩ | ⟨phy, a, rfl, rfl⟩ | ⟨phy, a, mask, cond, rfl, rfl⟩ := h <;> rfl

theorem onRequest_up {t : Time} {q c : Nat} {r : Request} {s : State} (hup : s.up = true) :
    onRequest t q c r s = .next (State.note ((s.arrive t).request_ q c r)) :=
  engineEvent_up (f := fun s => State.note (s.request_ q c r)) hup

theorem request_refused {s : State} {q c : Nat} {r : Request} (h : s.judgeReq q c r ≠ 0) : s.request_ q c r = (some (s.judgeReq q c r), s) :=
  if_neg h

theorem request_performs {s : State} {q c : Nat} {r : Request} (h : s.judgeReq q c r = 0) : s.request_ q c r = s.performReq c r := if_pos h

/-- Settles O23: the checks in their order, and the frame of a refused request. -/
theorem requestsAreJudgedInOrder : Obligations.RequestsAreJudgedInOrder := by
  unfold Obligations.RequestsAreJudgedInOrder
  refine ⟨?_, ?_⟩
  · rintro s q c r _ rfl
    refine ⟨judgeReq_invalid, judgeReq_unbound, fun hq hv hw => ⟨?_, fun hs => ⟨judgeReq_safe hq hv hw hs, fun hsafe => ?_⟩⟩⟩
    · rintro phy a rfl h
      exact judgeReq_noObject hq hv hw rfl h
    · have hverdict := judgeReq_verdict hq hv hw hs hsafe
      refine ⟨?_, fun hr => hverdict.trans (verdict_stop hr), ?_, ?_, ?_, ?_⟩
      · rintro phy a rfl
        exact hverdict.trans (verdict_start phy a)
      · rintro rfl
        exact hverdict.trans verdict_suspend
      · rintro rfl
        exact hverdict.trans verdict_resume
      · rintro phy a mask cond rfl
        exact hverdict.trans (verdict_modify phy a mask cond)
      · rintro phy a rfl
        exact hverdict
  · intro t q c s i r hup hi hj
    rw [exec_request hi, onRequest_up hup, request_refused (s := s.arrive t) hj]
    rfl

end Sys2Proof.Machine
end


section
/-! PROOFS. What an accepted request does to its channel (O24). -/

namespace Sys2Proof.Machine

section
variable {s : State} {c : Nat} {h : Chan}

theorem onRequest_accepts {t : Time} {q c : Nat} {r : Request} (hup : s.up = true) (hj : s.judgeReq q c r = 0) :
    onRequest t q c r s = .next (State.note ((s.arrive t).performReq c r)) := by
  rw [onRequest_up hup, request_performs (s := s.arrive t) hj]

/-- A request that is performed in its own cycle completes OK. -/
theorem onRequest_performs {t : Time} {q c : Nat} {r : Request} {u : State} (hup : s.up = true) (hj : s.judgeReq q c r = 0)
    (hp : (s.arrive t).performReq c r = (some 0, u)) :
    ∃ w, onRequest t q c r s = .next w ∧ w.queues.last = 0 ∧ w.chans = u.chans := by
  rw [onRequest_accepts hup hj, hp]
  exact ⟨_, rfl, rfl, rfl⟩

/-- A HALT is accepted only where none is under way. -/
theorem judgeReq_halt_st {q : Nat} (hj : s.judgeReq q c .halt = 0) : (s.chan c).st ≠ .haltPending := by
  intro hst
  unfold State.judgeReq at hj
  dsimp only at hj
  split at hj
  · cases hj
  · split at hj
    · cases hj
    · split at hj
      · cases hj
      · split at hj
        · cases hj
        · rw [hst] at hj
          cases hj

/-! ## HALT (R243) -/

theorem Chan.abort_keeps (h : Chan) : h.abort.st = h.st ∧ h.abort.act = h.act ∧ h.abort.timed = h.timed ∧ h.abort.cca = h.cca ∧
    h.abort.eq = h.eq ∧ h.abort.clearing = h.clearing := by
  unfold Chan.abort
  split <;> exact ⟨rfl, rfl, rfl, rfl, rfl, rfl⟩

theorem Chan.reform_keeps (h : Chan) : h.reform.st = h.st ∧ h.reform.act = h.act ∧ h.reform.timed = h.timed := by
  obtain ⟨hst, hact, htimed, -⟩ := h.abort_keeps
  unfold Chan.reform
  split
  · exact ⟨hst, hact, htimed⟩
  · exact ⟨rfl, rfl, rfl⟩

/-- The channel that a HALT is about to drain. -/
def Chan.halting (h : Chan) (clear : Bool) (now : Nat) : Chan :=
  { h with st := .haltPending, clearing := h.clearing || clear, haltAt := some now, noAbort := h.busAt = some now }.reform

theorem halt_eq (hc : s.chan c = h) (clear : Bool) : s.halt c clear =
    if h.st.ended || h.st = .haltPending then s
    else if h.runsOn then s.setChan c (h.halting clear (cyc s.now)) else (s.setChan c (h.halting clear (cyc s.now))).abandonCmd c := by
  subst hc
  rfl

/-- The channel whose current command is given up; `p` is what stays parked. -/
def Chan.givenUp (h : Chan) (p : Option (List Byte)) : Chan :=
  { h.untimed with act := .fetch, ahead := [], aheadStop := false, tries := 0, leafs := [], park := p }

theorem abandonCmd_chan (s : State) (c : Nat) : ∃ p, ∀ j, (s.abandonCmd c).chan j = if j = c then (s.chan c).givenUp p else s.chan j := by
  unfold State.abandonCmd
  dsimp only
  generalize hu : (if ((s.freeTimed c).forget (.fetch c)).bursting c then (s.freeTimed c).forget (.fetch c)
    else ((s.freeTimed c).forget (.fetch c)).forget (.chan c)) = u
  have hchans : u.chans = (s.freeTimed c).chans := by
    rw [← hu]
    split <;> rfl
  have hchan : ∀ k, u.chan k = if k = c then (s.chan c).untimed else s.chan k := fun k => (chan_of_chans hchans k).trans (freeTimed_chan s c k)
  refine ⟨if ((s.freeTimed c).forget (.fetch c)).bursting c then (s.chan c).untimed.park else none, fun j => ?_⟩
  rw [State.modChan_eq, State.setChan_chan, hchan, hchan, if_pos rfl]
  by_cases hj : j = c
  · rw [if_pos hj, if_pos hj]
    rfl
  · rw [if_neg hj, if_neg hj, if_neg hj]

theorem halt_ended (he : (s.chan c).st = .idle ∨ (s.chan c).st = .halted) (clear : Bool) : s.halt c clear = s := by
  rw [halt_eq rfl]
  exact if_pos (by rcases he with he | he <;> simp [he, ChanState.ended])

theorem halt_drains (hc : s.chan c = h) (hi : h.st ≠ .idle) (hh : h.st ≠ .halted) (hp : h.st ≠ .haltPending) (clear : Bool) :
    ((s.halt c clear).chan c).st = .haltPending ∧
      (h.runsOn = true → ((s.halt c clear).chan c).act = h.act ∧ ((s.halt c clear).chan c).timed = h.timed) ∧
      (h.runsOn = false → ((s.halt c clear).chan c).act = .fetch ∧ ((s.halt c clear).chan c).timed = none ∧
        ((s.halt c clear).chan c).ahead = []) ∧ OnlyChan c s (s.halt c clear) := by
  have he : h.st.ended = false := Bool.eq_false_iff.2 fun he => (ended_iff.1 he).elim hi hh
  have hgate : ¬ (h.st.ended || decide (h.st = .haltPending)) = true := by simp [he, hp]
  obtain ⟨hst, hact, htimed⟩ := Chan.reform_keeps
    { h with st := .haltPending, clearing := h.clearing || clear, haltAt := some (cyc s.now), noAbort := h.busAt = some (cyc s.now) }
  rw [halt_eq hc, if_neg hgate]
  cases hr : h.runsOn with
  | true =>
    rw [if_pos rfl, State.setChan_chan, if_pos rfl]
    exact ⟨hst, fun _ => ⟨hact, htimed⟩, fun hf => absurd hf (by decide), (OnlyChan.refl c s).setChan _⟩
  | false =>
    rw [if_neg (by decide)]
    obtain ⟨p, hx⟩ := abandonCmd_chan (s.setChan c (h.halting clear (cyc s.now))) c
    rw [hx, if_pos rfl, State.setChan_chan, if_pos rfl]
    refine ⟨(Chan.untimed_keeps _).2.2.2.trans hst, fun hf => absurd hf (by decide), fun _ => ⟨rfl, (Chan.untimed_cause _).2, rfl⟩,
      fun j hj => ?_⟩
    rw [hx, if_neg hj, State.setChan_chan, if_neg hj]

/-! ## SUSPEND, RESUME, CLEAR (R243 to R246) -/

theorem suspendDo_notes (hc : s.chan c = h) (hst : h.st = .active ∨ h.st = .startPending ∨ h.st = .postPending) :
    s.suspendDo c = s.setChan c { h with suspReq := true } := by
  unfold State.suspendDo
  rw [hc]
  rcases hst with hst | hst | hst <;> simp only [hst]

theorem suspendDo_waiting (hc : s.chan c = h) (hst : h.st = .waiting ∨ h.st = .staged) (hcm : h.committedNow = false) :
    s.suspendDo c = s.suspendNow c := by
  unfold State.suspendDo
  rw [hc]
  rcases hst with hst | hst <;> simp only [hst, hcm, Bool.false_eq_true, if_false]

/-- A SUSPEND discards the data that staging has read, and with it alone the count of what remains. -/
theorem Chan.suspended_resid (hd : ∀ d, h.timed = some d → d.data = false) : h.suspended.timed = none ∧ h.suspended.resid = h.resid := by
  have hun : h.unread.resid = h.resid := by
    unfold Chan.unread
    split
    · next d ht =>
      rw [if_neg (by simp [hd d ht])]
    · rfl
  have hres : h.untimed.resid = h.resid := by
    unfold Chan.untimed
    split
    · rfl
    · dsimp only
      split
      · rfl
      · exact hun
  exact ⟨h.untimed_cause.2, hres⟩

theorem resumeDo_suspended (hc : s.chan c = h) (hst : h.st = .suspended) : s.resumeDo c = s.setChan c { h with st := .active } := by
  unfold State.resumeDo
  rw [hc]
  exact if_neg (by simp [hst])

theorem resumeDo_faulted (hc : s.chan c = h) (hst : h.st = .faulted) : s.resumeDo c =
    if h.act = .move then (if s.invCovers h.domain h.faultVa then s.setChan c { h with st := .active, act := .inval }
      else (s.setChan c { h with st := .active }).pump c)
    else s.setChan c { h with st := .active } := by
  have hinv : (s.setChan c { h with st := .active }).invCovers h.domain h.faultVa = s.invCovers h.domain h.faultVa := rfl
  subst hc
  unfold State.resumeDo
  simp only [hst, decide_true, Bool.true_and, decide_eq_true_eq, State.modChan_eq, State.setChan_chan, if_true, State.setChan_setChan]
  rfl

theorem clearDo_ended (hc : s.chan c = h) (hst : h.st = .idle ∨ h.st = .halted) : s.clearDo c = s.setChan c { h.clearAll with st := .idle } := by
  unfold State.clearDo
  rw [hc]
  rcases hst with hst | hst <;> simp only [hst]

theorem clearDo_stands (hc : s.chan c = h) (hst : h.st = .suspended ∨ h.st = .faulted) : s.clearDo c =
    (s.setChan c { h with status := h.status ||| 0x400, clearing := true, park := none }).endProgram c .idle false := by
  unfold State.clearDo
  rw [hc]
  have hbit : BitVec.ofNat 14 (1 <<< stAborted) = 0x400 := by decide
  rcases hst with hst | hst <;> simp only [hst, Chan.setSt, hbit]

/-! ## MODIFY (R250) -/

/-- The channel after a MODIFY that leaves its command standing. -/
def Chan.modified (h : Chan) (phy : Bool) (a : Nat) (mask : BitVec 3) (cond : Bool) : Chan :=
  let x := if mask.getLsbD 0 then { h with cca := a, phy := phy } else h
  let x := if mask.getLsbD 1 then x.setCond cond else x
  if mask.getLsbD 2 then { x with status := x.status &&& ~~~ notedBits } else x

theorem Chan.modified_fields (h : Chan) (phy : Bool) (a : Nat) (mask : BitVec 3) (cond : Bool) :
    (h.modified phy a mask cond).st = h.st ∧
      (mask.getLsbD 0 = true → (h.modified phy a mask cond).cca = a ∧ (h.modified phy a mask cond).phy = phy) ∧
      (mask.getLsbD 0 = false → (h.modified phy a mask cond).cca = h.cca) ∧
      (mask.getLsbD 1 = true → (h.modified phy a mask cond).cond = cond ∧ (h.modified phy a mask cond).condValid = true) ∧
      (mask.getLsbD 1 = false → (h.modified phy a mask cond).cond = h.cond) ∧
      (mask.getLsbD 2 = true → (h.modified phy a mask cond).status &&& 0x2280 = 0) ∧
      (mask.getLsbD 2 = false → (h.modified phy a mask cond).status = h.status) := by
  have hnoted (x : BitVec 14) : (x &&& ~~~ notedBits) &&& 0x2280 = 0 := by
    have : ~~~ notedBits &&& 0x2280 = 0 := by decide
    rw [BitVec.and_assoc, this]
    exact BitVec.and_zero
  unfold Chan.modified
  refine ⟨?_, fun h0 => ?_, fun h0 => ?_, fun h1 => ?_, fun h1 => ?_, fun h2 => ?_, fun h2 => ?_⟩
  · cases mask.getLsbD 0 <;> cases mask.getLsbD 1 <;> cases mask.getLsbD 2 <;> rfl
  · rw [h0]
    cases mask.getLsbD 1 <;> cases mask.getLsbD 2 <;> exact ⟨rfl, rfl⟩
  · rw [h0]
    cases mask.getLsbD 1 <;> cases mask.getLsbD 2 <;> rfl
  · rw [h1]
    cases mask.getLsbD 2 <;> exact ⟨rfl, rfl⟩
  · rw [h1]
    cases mask.getLsbD 0 <;> cases mask.getLsbD 2 <;> rfl
  · rw [h2]
    exact hnoted _
  · rw [h2]
    cases mask.getLsbD 0 <;> cases mask.getLsbD 1 <;> rfl

theorem Chan.retarget_keeps (h : Chan) : h.retarget.st = h.st ∧ h.retarget.cca = h.cca ∧ h.retarget.cond = h.cond := by
  unfold Chan.retarget
  dsimp only
  split <;> exact ⟨rfl, rfl, rfl⟩

/-- A MODIFY of the address gives up the command that stands there. -/
def Chan.retargeted (h : Chan) (mask : BitVec 3) : Chan :=
  if mask.getLsbD 0 && (decide (h.st = .suspended) || decide (h.st = .faulted)) then h.retarget else h

theorem Chan.retargeted_keeps (h : Chan) (mask : BitVec 3) :
    (h.retargeted mask).st = h.st ∧ (h.retargeted mask).cca = h.cca ∧ (h.retargeted mask).cond = h.cond ∧
      (mask.getLsbD 0 = false → h.retargeted mask = h) := by
  unfold Chan.retargeted
  split
  · next hm =>
    obtain ⟨hst, hcca, hcond⟩ := h.retarget_keeps
    exact ⟨hst, hcca, hcond, fun h0 => by rw [h0] at hm; cases hm⟩
  · exact ⟨rfl, rfl, rfl, fun _ => rfl⟩

theorem modifyDo_chan (s : State) (c j : Nat) (phy : Bool) (a : Nat) (mask : BitVec 3) (cond : Bool) :
    (s.modifyDo c phy a mask cond).chan j = if j = c then
      ((s.chan c).retargeted mask).modified phy a mask cond else s.chan j := by
  have hfreed : ∀ k, (((((s.freeRecord c).freeSlots c).freeBox c).forget (.chan c)).forget (.fetch c)).chan k = s.chan k := fun k =>
    chan_of_chans ((freeSlots_chans (s.freeRecord c) c).trans (freeRecord_chans s c)) k
  unfold State.modifyDo Chan.retargeted
  dsimp only
  split
  · rw [State.modChan_eq, State.modChan_eq, State.setChan_chan, hfreed, State.setChan_chan, if_pos rfl, State.setChan_chan, hfreed]
    by_cases hj : j = c
    · rw [if_pos hj, if_pos hj]
      rfl
    · rw [if_neg hj, if_neg hj, if_neg hj]
  · rw [State.modChan_eq, State.setChan_chan]
    rfl

/-! ## STORE-STATUS (R248, R253) -/

theorem length_leBytes (n v : Nat) : (leBytes n v).length = n := by
  induction n generalizing v with
  | zero => rfl
  | succ n ih => exact congrArg (· + 1) (ih _)

theorem length_contextBytes (h : Chan) : h.contextBytes.length = 64 := by
  simp [Chan.contextBytes, Chan.context, length_leBytes]

theorem storeDo_beyond {a : Nat} (ha : 0x2000000 < a + 64) : s.storeDo c true a = (some 6, s) :=
  if_pos (by simp [show sramSize = 0x2000000 from rfl, ha])

theorem storeDo_stores {a : Nat} (ha : a + 64 ≤ 0x2000000) : s.storeDo c true a = (some 0, s.sramWrite a (s.chan c).contextBytes) :=
  if_neg (by simp [show sramSize = 0x2000000 from rfl, State.canWrite, ha])

/-! ## The end of a drain (R243 step 7) -/

theorem drainEnd_ends (hc : s.chan c = h) (hd : s.drained c = true) (he : h.eq = none) (hz : h.clearing = false) (j : Nat) :
    (s.drainEnd c).chan j = if j = c then h.abort.untimed.ended .halted else s.chan j := by
  obtain ⟨-, -, -, -, haeq, haclear⟩ := h.abort_keeps
  have hx : (s.setChan c h.abort).chan c = h.abort := by simp
  have hend : s.drainEnd c = (s.setChan c h.abort).endProgram c .halted (s.chan c).tagDue := by
    rw [← hc]
    exact if_pos hd
  have hun : h.abort.untimed.clearing = false := (Chan.untimed_eq _).2.trans (haclear.trans hz)
  rw [hend, endProgram_none (by rw [hx, haeq, he]), hx, haclear, hz, State.enterEnd_eq, State.setChan_chan, freeAll_chan, freeAll_chan, if_pos rfl, hx]
  by_cases hj : j = c
  · rw [if_pos hj, if_pos hj]
    unfold Chan.atEnd
    rw [hun]
    rfl
  · rw [if_neg hj, if_neg hj, if_neg hj, State.setChan_chan, if_neg hj]

theorem Chan.abort_status (h : Chan) : (h.noAbort = false ∨ h.status.getLsbD 4 = false → h.abort.status = h.status ||| 0x400) ∧
    (h.noAbort = true → h.status.getLsbD 4 = true → h.abort.status = h.status) := by
  have hbit : BitVec.ofNat 14 (1 <<< stAborted) = 0x400 := by decide
  have hbus : stBusError = 4 := rfl
  unfold Chan.abort
  refine ⟨fun hn => ?_, fun hn hs => ?_⟩
  · have hgate : (h.noAbort && h.status.getLsbD stBusError) = false := by
      rcases hn with hn | hn
      · rw [hn, Bool.false_and]
      · rw [hbus, hn, Bool.and_false]
    rw [hgate, if_neg (by decide), Chan.setSt, hbit]
  · rw [if_pos (by simp [hn, hs, hbus])]

end

/-- Settles O24: each accepted request by what it does to its channel. -/
theorem acceptedRequestsActOnTheirChannel : Obligations.AcceptedRequestsActOnTheirChannel := by
  unfold Obligations.AcceptedRequestsActOnTheirChannel
  rintro t q c s _ rfl hup
  have hself (u : State) (x : Chan) : ((u.setChan c x).chan c) = x := by simp
  refine ⟨?_, ?_, ?_, ?_, ?_, ?_, ?_, ?_, ?_, ?_, ?_, ?_, ?_⟩
  · intro phy a hj
    obtain ⟨w, hw, hlast, hch⟩ := onRequest_performs (t := t) hup hj (u := (s.arrive t).startDo c phy a) rfl
    refine ⟨w, hw, hlast, ?_⟩
    rw [chan_of_chans hch]
    unfold State.startDo at hch ⊢
    rw [State.modChan_eq, hself]
    exact ⟨rfl, rfl, rfl, rfl, rfl, rfl, rfl, rfl, rfl, rfl, rfl, rfl, rfl, rfl, rfl, ((OnlyChan.refl c s).setChan _).of_chans hch⟩
  · intro hj hst
    refine (onRequest_accepts hup hj).trans ?_
    rw [State.performReq, halt_ended (s := s.arrive t) hst]
    rfl
  · intro hj hi hh
    obtain ⟨w, hw, hlast, hch⟩ := onRequest_performs (t := t) hup hj (u := (s.arrive t).halt c false) rfl
    obtain ⟨hst, hruns, hgone, honly⟩ := halt_drains (s := s.arrive t) (h := s.chan c) rfl hi hh (judgeReq_halt_st hj) false
    refine ⟨w, hw, hlast, ?_⟩
    rw [chan_of_chans hch]
    exact ⟨hst, hruns, hgone, OnlyChan.of_chans honly hch⟩
  · intro hj hst
    refine (onRequest_accepts hup hj).trans ?_
    rw [State.performReq, suspendDo_notes (s := s.arrive t) rfl hst]
    rfl
  · intro hj hst hcm
    obtain ⟨hsusp, hreq, -, -, hcca⟩ := Chan.suspended_keeps (s.chan c)
    obtain ⟨w, hw, hlast, hch⟩ := onRequest_performs (t := t) hup hj (u := (s.arrive t).suspendNow c)
      (congrArg _ (suspendDo_waiting (s := s.arrive t) rfl hst hcm))
    refine ⟨w, hw, hlast, ?_⟩
    rw [chan_of_chans hch, suspendNow_chan, if_pos rfl]
    refine ⟨hsusp, hreq, (Chan.untimed_cause _).2, hcca, fun hd => (Chan.suspended_resid hd).2, fun j hj => ?_⟩
    rw [chan_of_chans hch, suspendNow_chan, if_neg hj]
    rfl
  · intro hj hst
    refine (onRequest_accepts hup hj).trans ?_
    rw [State.performReq, resumeDo_suspended (s := s.arrive t) rfl hst]
    rfl
  · intro hj hst
    refine (onRequest_accepts hup hj).trans ?_
    rw [State.performReq, resumeDo_faulted (s := s.arrive t) rfl hst]
    rfl
  · intro hj hst
    refine (onRequest_accepts hup hj).trans ?_
    rw [State.performReq, clearDo_stands (s := s.arrive t) rfl hst]
    rfl
  · intro hj hst
    obtain ⟨w, hw, hlast, hch⟩ := onRequest_performs (t := t) hup hj (congrArg _ (clearDo_ended (s := s.arrive t) rfl hst))
    refine ⟨w, hw, hlast, ?_⟩
    rw [chan_of_chans hch, hself]
    exact ⟨rfl, rfl, rfl, rfl, rfl, rfl, rfl, rfl, ((OnlyChan.refl c s).setChan _).of_chans hch⟩
  · intro phy a mask cond hj
    obtain ⟨w, hw, hlast, hch⟩ := onRequest_performs (t := t) hup hj (u := (s.arrive t).modifyDo c phy a mask cond) rfl
    refine ⟨w, hw, hlast, ?_⟩
    rw [chan_of_chans hch, modifyDo_chan, if_pos rfl]
    have honly : OnlyChan c s w := fun j hj => by
      rw [chan_of_chans hch, modifyDo_chan, if_neg hj]
      rfl
    obtain ⟨hst', hcca', hcond', hsame⟩ := (s.chan c).retargeted_keeps mask
    obtain ⟨hst, haddr, hcca, hcond, hkeeps, hnoted, hstatus⟩ := ((s.chan c).retargeted mask).modified_fields phy a mask cond
    refine ⟨hst.trans hst', haddr, fun h0 => (hcca h0).trans hcca', hcond, fun h1 => (hkeeps h1).trans hcond', hnoted,
      fun h2 h0 => (hstatus h2).trans ?_, honly⟩
    rw [hsame h0]
  · intro a hj
    rcases Nat.lt_or_ge 0x2000000 (a + 64) with ha | ha
    · refine ⟨_, onRequest_accepts hup hj, ?_⟩
      rw [State.performReq, storeDo_beyond ha]
      exact ⟨rfl, fun hle => absurd hle (Nat.not_le.2 ha), fun _ => ⟨rfl, rfl⟩⟩
    · refine ⟨_, onRequest_accepts hup hj, ?_⟩
      rw [State.performReq, storeDo_stores ha]
      refine ⟨rfl, fun _ => ⟨rfl, fun x => ?_⟩, fun hlt => absurd ha (Nat.not_le.2 hlt)⟩
      refine (tget_putBytes ..).trans ?_
      rw [length_contextBytes]
      rfl
  · intro hd he hz
    have hend := drainEnd_ends (s := s.arrive t) rfl hd he hz
    refine ⟨_, engineEvent_up (f := fun s => s.drainEnd c) hup, ?_⟩
    obtain ⟨hbus, hkeep⟩ := Chan.abort_status (s.chan c)
    obtain ⟨hstatus, -, hcca, -⟩ := Chan.untimed_keeps (s.chan c).abort
    rw [hend, if_pos rfl]
    exact ⟨rfl, fun h => hstatus.trans (hbus h), fun hn hs => hstatus.trans (hkeep hn hs), hcca.trans (Chan.abort_keeps _).2.2.2.1,
      fun j hj => (hend j).trans (if_neg hj)⟩
  · intro hd
    exact (engineEvent_up (f := fun s => s.drainEnd c) hup).trans (congrArg _ (if_neg (Bool.eq_false_iff.1 hd)))

end Sys2Proof.Machine
end


section
/-! PROOFS. Doorbells, push slots and the index reads they ask for (O25). -/

namespace Sys2Proof.Machine

section
variable {s : State} {q : Nat}

/-! ## Doorbells and pushes (R264, R275 to R277, R291) -/

theorem wqAccess_owner {m : Ident} {f : WQ → WQ} (hst : (s.wq q).st ≠ .absent) (ho : (s.wq q).owner = m) :
    s.wqAccess m q f = s.setWq q (f (s.wq q)) := by
  unfold State.wqAccess
  dsimp only
  rw [if_neg hst, if_neg (not_not.2 ho)]

theorem wqAccess_foreign {m : Ident} {f : WQ → WQ} (hst : (s.wq q).st ≠ .absent) (ho : (s.wq q).owner ≠ m) :
    s.wqAccess m q f = s.setWq q { s.wq q with foreign := true } := by
  unfold State.wqAccess
  dsimp only
  rw [if_neg hst, if_pos ho]

theorem wqAccess_absent {m : Ident} {f : WQ → WQ} (hst : (s.wq q).st = .absent) : s.wqAccess m q f = s := if_pos hst

theorem WQ.pushed_part {w : WQ} {now ofs : Nat} {b : List Byte} (hst : w.st = .enabled) (hl : ofs + b.length ≤ 63) :
    w.pushed now ofs b = { w with push := putBytes w.push ofs b } := by
  have hlast : ¬ (decide (ofs ≤ 63) && decide (63 < ofs + b.length)) = true := by simp; omega
  unfold WQ.pushed
  dsimp only
  rw [if_pos hst, if_neg hlast]

/-- The slot of a push once its byte 63 is written. -/
theorem WQ.pushed_last {w : WQ} {now ofs : Nat} {b : List Byte} (hst : w.st = .enabled) (ho : ofs ≤ 63) (hl : 63 < ofs + b.length) :
    w.pushed now ofs b = if w.copies.length < 4 then
      { w with push := [], copies := w.copies ++ [(now, (List.range 64).map fun i => tget 0 (putBytes w.push ofs b) i)] }
      else { w with push := [], missed := w.missed + 1 } := by
  unfold WQ.pushed
  dsimp only
  rw [if_pos hst, if_pos (by simp [ho, hl])]

theorem EQ.doorbell_enabled {e : EQ} (hst : e.st = .enabled) (arm : Bool) : e.doorbell arm = match e.ciRead with
    | none => { e with ciRead := some arm }
    | some _ => { e with ciAgain := some (e.ciAgain.getD false || arm) } := by
  unfold EQ.doorbell
  exact if_neg (by simp [hst])

/-! ## The rows of a work queue's window -/

theorem exec_wqDoorbell_serves {t : Time} {m : Ident} {q : Fin 1024} (hs : s.serves 0 = true) :
    exec (.wqDoorbell t m q) s = .next ((s.arrive t).wqAccess m q WQ.doorbell) :=
  regWrite_serves (f := fun s => s.wqAccess m q WQ.doorbell) hs

theorem exec_pushSlotWrite_serves {t : Time} {m : Ident} {q : Fin 1024} {ofs : Nat} {b : List Byte} (hs : s.serves 0 = true) :
    exec (.pushSlotWrite t m q ofs b) s = .next ((s.arrive t).wqAccess m q fun w => w.pushed (cyc (max s.now t)) ofs b) :=
  regWrite_serves (f := fun s => s.wqAccess m q fun w => w.pushed (cyc s.now) ofs b) hs

/-- A write to the window of a work queue reaches it through one check of the identity. -/
theorem exec_window_serves {t : Time} {m : Ident} {q : Fin 1024} {i : Instr}
    (hi : i = .wqDoorbell t m q ∨ ∃ ofs b, i = .pushSlotWrite t m q ofs b) (hs : s.serves 0 = true) :
    ∃ f, exec i s = .next ((s.arrive t).wqAccess m q f) := by
  obtain rfl | ⟨ofs, b, rfl⟩ := hi
  · exact ⟨_, exec_wqDoorbell_serves hs⟩
  · exact ⟨_, exec_pushSlotWrite_serves hs⟩

/-! ## The reads of PI and CI (R264, R265, R282) -/

theorem wqInit_done (h : (s.wq q).ciOwed = false) : s.wqInit q = s := by
  unfold State.wqInit
  dsimp only
  rw [h]
  rfl

theorem piRead_takes {m : HostMem} {u : State} {b : List Byte} (hci : (s.wq q).ciOwed = false) (hp : (s.wq q).piRead = true)
    (hst : (s.wq q).st = .enabled ∨ (s.wq q).st = .disabling) (hr : s.wqRead q (s.wq q).base 4 m = (.bytes b, u)) :
    s.piRead q m = u.takePi q (BitVec.ofNat 32 (num b 0 4)) := by
  have hgate : ¬ (!(s.wq q).piRead || !(decide ((s.wq q).st = .enabled) || decide ((s.wq q).st = .disabling))) = true := by
    rcases hst with h | h <;> simp [hp, h]
  unfold State.piRead
  simp only [wqInit_done hci, hr]
  exact if_neg hgate

theorem ciRead_takes {m : HostMem} {u : State} {b : List Byte} {arm : Bool} (hci : (s.eq q).ciRead = some arm) (hst : (s.eq q).st = .enabled)
    (hr : s.eqRead q ((s.eq q).base + 0x40) 4 m = (.bytes b, u)) : s.ciRead q m = u.takeCi q (BitVec.ofNat 32 (num b 0 4)) arm := by
  unfold State.ciRead
  simp only [hci, hr]
  exact if_neg (not_not.2 hst)

theorem ciRead_none {m : HostMem} (hci : (s.eq q).ciRead = none) : s.ciRead q m = s := by
  unfold State.ciRead
  dsimp only
  rw [hci]

theorem lap_iff (w : WQ) (p : Word) : w.lap p = true ↔ 2 ^ w.size < (p - w.ci).toNat ∨ (p - w.ci).toNat < (w.pi - w.ci).toNat := by
  simp only [WQ.lap, Bool.or_eq_true, decide_eq_true_eq]
  rfl

theorem takePi_taken {p : Word} {w : WQ} (hw : s.wq q = w) (hl : (p - w.ci).toNat ≤ 2 ^ w.size) (hb : (w.pi - w.ci).toNat ≤ (p - w.ci).toNat) :
    s.takePi q p = (s.setWq q { w with piRead := w.piAgain, piAgain := false }).setWq q
      { { w with piRead := w.piAgain, piAgain := false } with
        pi := p, finalPi := if w.st = .disabling && !w.piAgain then some p else w.finalPi } := by
  have hlap : ¬ w.lap p = true := fun h => by
    rcases (lap_iff w p).1 h with h | h <;> omega
  subst hw
  unfold State.takePi
  dsimp only
  rw [if_neg hlap, State.modWq_eq, State.setWq_wq, if_pos rfl]

theorem takePi_laps {p : Word} {w : WQ} (hw : s.wq q = w) (hl : 2 ^ w.size < (p - w.ci).toNat ∨ (p - w.ci).toNat < (w.pi - w.ci).toNat) :
    s.takePi q p = (s.setWq q { w with piRead := w.piAgain, piAgain := false }).wqError q 1 := by
  subst hw
  exact if_pos ((lap_iff _ p).2 hl)

theorem wqError_fields (s : State) (q : Nat) (k : BitVec 2) : ((s.wqError q k).wq q).st = .error ∧ ((s.wqError q k).wq q).cause = k ∧
    ((s.wqError q k).wq q).pi = (s.wq q).pi ∧ (s.wqError q k).fc.raised.getLsbD 133 = true := by
  have hself : (s.wqError q k).wq q = { s.wq q with st := .error, cause := k } := (State.setWq_wq ..).trans (if_pos rfl)
  rw [hself]
  exact ⟨rfl, rfl, rfl, report_raises _ (by decide)⟩

theorem eqError_fields (s : State) (q : Nat) (k : BitVec 2) : ((s.eqError q k).eq q).st = .error ∧ ((s.eqError q k).eq q).cause = k ∧
    ((s.eqError q k).eq q).ci = (s.eq q).ci ∧ (s.eqError q k).fc.raised.getLsbD 133 = true := by
  have hself : (s.eqError q k).eq q = { s.eq q with st := .error, cause := k, waiters := (s.eq q).writing ++ (s.eq q).waiters, writing := [] } :=
    (State.setEq_eq ..).trans (if_pos rfl)
  rw [hself]
  exact ⟨rfl, rfl, rfl, report_raises _ (by decide)⟩

/-- An event queue after a read of CI that has been taken. -/
def EQ.taken (e : EQ) (c : Word) (arm : Bool) : EQ :=
  { e with ciRead := e.ciAgain, ciAgain := none, ci := c, armed := if arm then decide (e.pi = c) else e.armed }

theorem takeCi_taken {c : Word} {arm : Bool} {e : EQ} (he : s.eq q = e) (hl : (c - e.ci).toNat ≤ (e.pi - e.ci).toNat) :
    s.takeCi q c arm = if arm = true ∧ e.pi ≠ c then (s.setEq q (e.taken c arm)).notifyQ e.notify.toNat e.vec 384 128 q
      else s.setEq q (e.taken c arm) := by
  have hlap : ¬ ciLap e.pi e.ci c = true := fun h => absurd hl (Nat.not_le.2 (of_decide_eq_true h))
  subst he
  unfold State.takeCi
  dsimp only
  rw [if_neg hlap, State.modEq_eq, State.setEq_eq, if_pos rfl, State.setEq_setEq]
  simp only [Bool.and_eq_true, decide_eq_true_eq]
  rfl

theorem takeCi_laps {c : Word} {arm : Bool} {e : EQ} (he : s.eq q = e) (hl : (e.pi - e.ci).toNat < (c - e.ci).toNat) :
    s.takeCi q c arm = (s.setEq q { e with ciRead := e.ciAgain, ciAgain := none }).eqError q 1 := by
  subst he
  exact if_pos (decide_eq_true hl)

theorem notifyQ_eqs (s : State) (note vec base span n : Nat) : (s.notifyQ note vec base span n).queues = s.queues := by
  unfold State.notifyQ State.cicEdge
  split
  · rfl
  · split
    · split <;> rfl
    · rfl

theorem notifyQ_pends (s : State) (vec base span n : Nat) : ((s.notifyQ 1 vec base span n).vec vec).pend = true := by
  have h : (s.notifyQ 1 vec base span n).vec vec = { s.vec vec with pend := true } := (tget_tput ..).trans (if_pos rfl)
  rw [h]

theorem eq_of_queues {u : State} (h : u.queues = s.queues) (j : Nat) : u.eq j = s.eq j := by simp [State.eq, h]

theorem takeCi_eq {c : Word} {arm : Bool} {e : EQ} (he : s.eq q = e) (hl : (c - e.ci).toNat ≤ (e.pi - e.ci).toNat) (j : Nat) :
    (s.takeCi q c arm).eq j = if j = q then e.taken c arm else s.eq j := by
  rw [takeCi_taken he hl, ← State.setEq_eq s q (e.taken c arm) j]
  split
  · exact eq_of_queues (notifyQ_eqs ..) j
  · rfl

end

/-- Settles O25: doorbells and pushes by the check of the window, and the index reads by the test for a lap. -/
theorem doorbellsLeadToIndexReads : Obligations.DoorbellsLeadToIndexReads := by
  unfold Obligations.DoorbellsLeadToIndexReads
  refine ⟨?_, ?_, ?_, ?_, ?_, ?_⟩
  · rintro t m q s _ rfl hs
    have henabled (hst : (s.wq q).st = .enabled) : (s.wq q).st ≠ .absent := by
      rw [hst]
      decide
    refine ⟨fun hst ho => ?_, fun i hi => ?_, fun ofs b hst ho => ⟨fun hl => ?_, fun hofs hl => ?_⟩, fun arm hst => ?_⟩
    · rw [exec_wqDoorbell_serves hs, wqAccess_owner (s := s.arrive t) (henabled hst) ho]
      exact congrArg (fun x => Host.Outcome.next ((s.arrive t).setWq q x)) (if_pos hst)
    · obtain ⟨f, hf⟩ := exec_window_serves (t := t) (m := m) hi hs
      rw [hf]
      exact ⟨fun hst ho => congrArg _ (wqAccess_foreign (s := s.arrive t) hst ho), fun hst => congrArg _ (wqAccess_absent (s := s.arrive t) hst)⟩
    · rw [exec_pushSlotWrite_serves hs, wqAccess_owner (s := s.arrive t) (henabled hst) ho]
      exact congrArg (fun x => Host.Outcome.next ((s.arrive t).setWq q x)) (WQ.pushed_part hst hl)
    · rw [exec_pushSlotWrite_serves hs, wqAccess_owner (s := s.arrive t) (henabled hst) ho]
      exact congrArg (fun x => Host.Outcome.next ((s.arrive t).setWq q x)) (WQ.pushed_last hst hofs hl)
    · refine (regWrite_serves (f := fun s => s.modEq q fun e => e.doorbell arm) hs).trans ?_
      rw [State.modEq_eq]
      exact congrArg (fun x => Host.Outcome.next ((s.arrive t).setEq q x)) (EQ.doorbell_enabled hst arm)
  · intro t q hm s s1 b hup hci hp hst hr
    exact (engineEvent_up (f := fun s => s.piRead q hm) hup).trans (congrArg _ (piRead_takes (s := s.arrive t) hci hp hst hr))
  · rintro s q p _ rfl
    refine ⟨fun hl hb => ⟨_, rfl, ?_⟩, fun hl => ⟨_, rfl, ?_⟩⟩
    · rw [takePi_taken rfl hl hb, State.setWq_setWq, State.setWq_wq, if_pos rfl]
      refine ⟨rfl, rfl, rfl, rfl, rfl, fun j hj => ?_⟩
      rw [State.setWq_wq, if_neg hj]
    · rw [takePi_laps rfl hl]
      obtain ⟨hst, hcause, hpi, hrep⟩ := wqError_fields (s.setWq q { s.wq q with piRead := (s.wq q).piAgain, piAgain := false }) q 1
      rw [State.setWq_wq, if_pos rfl] at hpi
      exact ⟨hst, hcause, hpi, hrep⟩
  · intro t q hm s s1 b arm hup hci hst hr
    exact (engineEvent_up (f := fun s => s.ciRead q hm) hup).trans (congrArg _ (ciRead_takes (s := s.arrive t) hci hst hr))
  · rintro s q c arm _ rfl
    refine ⟨fun hl => ⟨_, rfl, ?_⟩, fun hl => ⟨_, rfl, ?_⟩⟩
    · have hq := takeCi_eq (arm := arm) rfl hl
      rw [hq, if_pos rfl]
      refine ⟨rfl, rfl, ?_, ?_, fun j hj => (hq j).trans (if_neg hj)⟩
      · rintro rfl
        refine ⟨rfl, fun hn hne => ?_⟩
        rw [takeCi_taken rfl hl, if_pos ⟨rfl, hne⟩, hn]
        exact notifyQ_pends ..
      · rintro rfl
        rw [takeCi_taken rfl hl, if_neg (by simp)]
        exact ⟨rfl, rfl⟩
    · rw [takeCi_laps rfl hl]
      obtain ⟨hst, hcause, hci, hrep⟩ := eqError_fields (s.setEq q { s.eq q with ciRead := (s.eq q).ciAgain, ciAgain := none }) q 1
      rw [State.setEq_eq, if_pos rfl] at hci
      exact ⟨hst, hcause, hci, hrep⟩
  · intro t q hm s hup hci
    exact (engineEvent_up (f := fun s => s.ciRead q hm) hup).trans (congrArg _ (ciRead_none (s := s.arrive t) hci))

end Sys2Proof.Machine
end


section
/-! PROOFS. Work entries and event records: how they pass through their rings, and ADMIN_CFG (O27). -/

namespace Sys2Proof.Machine

section
variable {s u : State} {q : Nat} {m : HostMem}

/-! ## Serving an entry (R270, R272, R278) -/

theorem entryServe_serves {w : WQ} (hw : s.wq q = w) (hci : w.ciOwed = false) (hst : w.st = .enabled ∨ w.st = .disabling) (hne : w.ci ≠ w.pi)
    {s1 s2 : State} (h1 : s1 = if w.entry.isSome || w.owed.isSome || w.ciNext then s else s.entryTake q m)
    (h2 : s2 = match (s1.wq q).entry with | some e => s1.entryPerform q e | none => s1) :
    s.entryServe q m = (s2.entryComplete q).entryEnd q := by
  have hserves : w.serves = true := by
    rcases hst with h | h <;> simp [WQ.serves, h, hne, hci]
  subst hw h2 h1
  unfold State.entryServe
  simp only [wqInit_done hci, hserves, Bool.not_true, Bool.false_eq_true, if_false] <;> rfl

theorem entryServe_rests (hci : (s.wq q).ciOwed = false)
    (h : (s.wq q).st ≠ .enabled ∧ (s.wq q).st ≠ .disabling ∨ (s.wq q).ci = (s.wq q).pi) : s.entryServe q m = s := by
  have hserves : (s.wq q).serves = false := by
    rcases h with ⟨h, h'⟩ | h
    · simp [WQ.serves, h, h']
    · simp [WQ.serves, h]
  unfold State.entryServe
  simp only [wqInit_done hci, hserves, Bool.not_false, if_true]

/-- Where no copy gives the entry, it is read from its slot. -/
theorem entryTake_slot {w w' : WQ} {e : List Byte} (hw : s.wq q = w) (hc : (if w.compared then (none, w) else w.takeCopy (cyc s.now)) = (none, w'))
    (hr : (s.setWq q { w' with compared := true }).wqRead q w.slot 64 m = (.bytes e, u)) :
    s.entryTake q m = u.setWq q { u.wq q with entry := some e } := by
  subst hw
  unfold State.entryTake
  simp only [hc, hr]
  rfl

theorem entryTake_copy {w w' : WQ} {e : List Byte} (hw : s.wq q = w) (hc : (if w.compared then (none, w) else w.takeCopy (cyc s.now)) = (some e, w')) :
    s.entryTake q m = s.setWq q { w' with entry := some e } := by
  subst hw
  unfold State.entryTake
  simp only [hc]

theorem takeCopy_none {w : WQ} {now : Nat} (h : w.copies = [] ∨ w.compared = true ∨ ∃ k b r, w.copies = (k, b) :: r ∧ now ≤ k) :
    (if w.compared then (none, w) else w.takeCopy now) = (none, w) := by
  obtain h | h | ⟨k, b, r, h, hk⟩ := h
  · simp [WQ.takeCopy, h]
  · rw [if_pos h]
  · simp [WQ.takeCopy, h, hk]

theorem takeCopy_old {w : WQ} {now k : Nat} {b : List Byte} {r : List (Nat × List Byte)} (hn : w.compared = false) (hc : w.copies = (k, b) :: r)
    (hk : k < now) : (if w.compared then (none, w) else w.takeCopy now) =
      if num b 4 4 = w.ci.toNat then (some b, { w with copies := r, used := w.used + 1 })
      else (none, { w with copies := r, missed := w.missed + 1 }) := by
  rw [if_neg (by simp [hn])]
  unfold WQ.takeCopy
  simp only [hc, if_neg (Nat.not_le.2 hk)]

theorem entryPerform_done {e : List Byte} {v st : Nat} (h : s.perform q e = (some (v, st), u)) :
    s.entryPerform q e = u.setWq q { u.wq q with entry := none, owed := some (completion e (s.wq q).ci v st) } := by
  unfold State.entryPerform
  rw [h]
  rfl

theorem entryComplete_writes {b : List Byte} (ho : (s.wq q).owed = some b) (hw : s.wqWrite q (s.wq q).slot b = (true, u)) :
    s.entryComplete q = u.setWq q { u.wq q with owed := none, ciNext := true } := by
  unfold State.entryComplete
  simp only [ho, hw]
  rfl

theorem entryEnd_writes (hn : (s.wq q).ciNext = true)
    (hw : s.wqWrite q ((s.wq q).base + 0x40) (leBytes 4 ((s.wq q).ci + 1).toNat) = (true, u)) :
    s.entryEnd q = u.setWq q { u.wq q with ci := (s.wq q).ci + 1, ciNext := false, compared := false } := by
  unfold State.entryEnd
  simp only [hn, hw, Bool.not_true, Bool.false_eq_true, if_false]
  rfl

/-! ## Posting a record (R280, R281) -/

theorem eqAdmits_iff (s : State) (q : Nat) : s.eqAdmits q = true ↔
    (s.eq q).st = .enabled ∧ ((s.eq q).res - (s.eq q).ci).toNat < 2 ^ (s.eq q).size ∧ (s.eq q).admitAt ≠ some (cyc s.now) := by
  simp only [State.eqAdmits, EQ.credit, Bool.and_eq_true, decide_eq_true_eq, and_assoc]
  rfl

theorem eqAdmits_false {e : EQ} (he : s.eq q = e)
    (h : e.st ≠ .enabled ∨ 2 ^ e.size ≤ (e.res - e.ci).toNat ∨ e.admitAt = some (cyc s.now)) : s.eqAdmits q = false := by
  rw [Bool.eq_false_iff, Ne, eqAdmits_iff, he]
  rintro ⟨hst, hcr, had⟩
  rcases h with h | h | h
  · exact h hst
  · exact absurd hcr (Nat.not_lt.2 h)
  · exact had h

theorem eqPost_holds {e : EQ} {p : Poster} {rec : List Byte} (he : s.eq q = e)
    (h : e.waiters ≠ [] ∨ e.st ≠ .enabled ∨ 2 ^ e.size ≤ (e.res - e.ci).toNat ∨ e.admitAt = some (cyc s.now)) :
    s.eqPost q p rec = (false, s.setEq q (e.hold p (cyc s.now))) := by
  have hgate : (!e.waiters.isEmpty || !s.eqAdmits q) = true := by
    rcases h with h | h
    · simp [h]
    · simp [eqAdmits_false he h]
  subst he
  exact if_pos hgate

/-- A record in a ring of SRAM is written to its slot, then PI. -/
theorem eqCommit_phy {e : EQ} {rec : List Byte} (he : s.eq q = e) (hp : e.phy = true) :
    s.eqCommit q rec = (.done, (((((s.sramWrite (e.base + 0x80 + e.pi.toNat % e.slots * 32) rec).sramWrite e.base
      (leBytes 4 (e.pi + 1).toNat)).setEq q { e with pi := e.pi + 1 }).spend (.eq q) e.dom
        (e.base + 0x80 + e.pi.toNat % e.slots * 32)).spend (.eq q) e.dom e.base).eqNotify q) := by
  have haddr (a : Nat) : s.eqAddr q a .write = (.ok true a, s) := by
    unfold State.eqAddr
    dsimp only
    rw [he, hp]
    rfl
  subst he
  unfold State.eqCommit
  simp only [haddr]
  rfl

theorem eqNotify_eq {e : EQ} (he : s.eq q = e) : s.eqNotify q =
    if e.armed then (s.setEq q { e with armed := false }).notifyQ e.notify.toNat e.vec 384 128 q else s := by
  subst he
  rfl

theorem notifyQ_mem (s : State) (note vec base span n : Nat) : (s.notifyQ note vec base span n).mem = s.mem := by
  unfold State.notifyQ State.cicEdge
  split
  · rfl
  · split
    · split <;> rfl
    · rfl

theorem eqNotify_fields {e : EQ} (he : s.eq q = e) : (s.eqNotify q).eq q = { e with armed := false } ∧ (s.eqNotify q).mem = s.mem ∧
    (e.armed = true → e.notify = 1 → ((s.eqNotify q).vec e.vec).pend = true) := by
  rw [eqNotify_eq he]
  cases ha : e.armed with
  | true =>
    rw [if_pos rfl]
    refine ⟨?_, notifyQ_mem .., fun _ hn => ?_⟩
    · rw [eq_of_queues (notifyQ_eqs ..), State.setEq_eq, if_pos rfl]
    · rw [hn]
      exact notifyQ_pends ..
  | false =>
    refine ⟨?_, rfl, fun hf => absurd hf (by decide)⟩
    rw [if_neg (by decide), he, ← ha]

theorem eqPost_posts {e : EQ} {p : Poster} {rec : List Byte} (he : s.eq q = e) (hw : e.waiters = []) (hst : e.st = .enabled) (hp : e.phy = true)
    (hcr : (e.res - e.ci).toNat < 2 ^ e.size) (had : e.admitAt ≠ some (cyc s.now)) (hwr : e.writing = []) :
    ∃ v, s.eqPost q p rec = (true, v) ∧ v.eq q = { e with res := e.res + 1, admitAt := some (cyc s.now), pi := e.pi + 1, armed := false } ∧
      (e.armed = true → e.notify = 1 → (v.vec e.vec).pend = true) ∧
      v.mem.sram = putBytes (putBytes s.mem.sram (e.base + 0x80 + e.pi.toNat % 2 ^ e.size * 32) rec) e.base (leBytes 4 (e.pi + 1).toNat) := by
  have hadmits : s.eqAdmits q = true := by
    rw [eqAdmits_iff, he]
    exact ⟨hst, hcr, had⟩
  have hres : (s.eqReserve q).eq q = { e with res := e.res + 1, admitAt := some (cyc s.now) } := by
    rw [← he]
    exact (State.setEq_eq ..).trans (if_pos rfl)
  have hcommit := eqCommit_phy (rec := rec) hres hp
  have hpost : s.eqPost q p rec = (true, ((s.eqReserve q).eqCommit q rec).2) := by
    have hgate : ¬ (!(s.eq q).waiters.isEmpty || !s.eqAdmits q) = true := by simp [he, hw, hadmits]
    have hwriting : ¬ (!(s.eq q).writing.isEmpty) = true := by simp [he, hwr]
    unfold State.eqPost
    simp only [hcommit]
    exact (if_neg hgate).trans (if_neg hwriting)
  rw [hpost, hcommit]
  refine ⟨_, rfl, ?_⟩
  generalize hv : State.spend (State.spend _ _ _ _) _ _ _ = v
  have hve : v.eq q = { e with res := e.res + 1, admitAt := some (cyc s.now), pi := e.pi + 1 } := by
    rw [← hv]
    exact (State.setEq_eq ..).trans (if_pos rfl)
  obtain ⟨hself, hmem, hpend⟩ := eqNotify_fields hve
  refine ⟨hself, hpend, ?_⟩
  rw [hmem, ← hv]
  rfl

theorem hold_waits {e : EQ} {p : Poster} {now : Nat} (hc : e.waiters.contains p = false) (hw : e.waitAt ≠ now) :
    (e.hold p now).waiters = e.waiters ++ [p] := by
  unfold EQ.hold
  rw [if_neg (by simpa using hc)]
  simp [hw]

/-! ## Records that wait (R251, R280, R281) -/

theorem heldAdmit_admits {e : EQ} {p : Poster} {r : List Poster} (he : s.eq q = e) (hw : e.waiters = p :: r) (hst : e.st = .enabled)
    (hcr : (e.res - e.ci).toNat < 2 ^ e.size) (had : e.admitAt ≠ some (cyc s.now)) (j : Nat) :
    (s.heldAdmit q).eq j = if j = q then
      { e with res := e.res + 1, admitAt := some (cyc s.now), waiters := r, writing := e.writing ++ [p] } else s.eq j := by
  have hadmits : s.eqAdmits q = true := by
    rw [eqAdmits_iff, he]
    exact ⟨hst, hcr, had⟩
  subst he
  unfold State.heldAdmit
  simp only [hw, hadmits, if_true]
  rw [State.modEq_eq, State.setEq_eq]
  by_cases hj : j = q
  · rw [if_pos hj, if_pos hj, State.eqReserve, State.modEq_eq, State.setEq_eq, if_pos rfl]
  · rw [if_neg hj, if_neg hj, State.eqReserve, State.modEq_eq, State.setEq_eq, if_neg hj]

theorem heldAdmit_rests {e : EQ} (he : s.eq q = e)
    (h : e.waiters = [] ∨ e.st ≠ .enabled ∨ 2 ^ e.size ≤ (e.res - e.ci).toNat ∨ e.admitAt = some (cyc s.now)) : s.heldAdmit q = s := by
  unfold State.heldAdmit
  rcases h with h | h
  · rw [he, h]
  · rw [eqAdmits_false he h]
    split <;> rfl

theorem heldWrite_none (h : (s.eq q).writing = []) : s.heldWrite q = s := by
  unfold State.heldWrite
  rw [h]

/-- The first record that was being written is written. -/
def State.popWriting (s : State) (q : Nat) : State := s.setEq q { s.eq q with writing := (s.eq q).writing.drop 1 }

/-- How the queue, or the channel, goes on once a record of poster `p` is posted; `more` where the poster holds another. -/
def State.afterPost (s : State) (q : Nat) (p : Poster) (more : Bool) : State :=
  if more then s.setEq q { s.eq q with waiters := p :: (s.eq q).waiters }
  else match p with
    | .chan c => s.settle c
    | _ => s

theorem heldWrite_written {p : Poster} {r : List Poster} {b : List Byte} (hw : (s.eq q).writing = p :: r) (hb : s.heldBytes p = some b)
    (hc : s.eqCommit q b = (.done, u)) :
    s.heldWrite q = ((u.popWriting q).posted p).2.afterPost q p ((u.popWriting q).posted p).1 := by
  unfold State.heldWrite
  simp only [hw, hb, hc]
  clear hw hb
  change (match (u.popWriting q).posted p with
    | (true, s) => s.modEq q fun e => { e with waiters := p :: e.waiters }
    | (false, s) => match p with | .chan c => s.settle c | _ => s) = _
  generalize (u.popWriting q).posted p = pr
  obtain ⟨more, v⟩ := pr
  cases more with
  | true => rfl
  | false => cases p <;> rfl

theorem posted_chan {v : State} {c : Nat} {x : HeldRec} {l : List HeldRec} (hh : (v.chan c).held = x :: l) : v.posted (.chan c) =
    (!l.isEmpty, v.setChan c { v.chan c with recs := (v.chan c).recs + 1, held := l }) := by
  unfold State.posted
  simp only [State.modChan_eq, State.setChan_chan, if_true, hh, List.drop_one, List.tail_cons]

theorem heldWrite_chan {c : Nat} {x : HeldRec} {l : List HeldRec} {r : List Poster} {s2 : State} (hw : (s.eq q).writing = .chan c :: r)
    (hh : (s.chan c).held = x :: l) (hx : x.bytes ≠ []) (hc : s.eqCommit q x.bytes = (.done, u)) (hu : (u.chan c).held = x :: l)
    (h2 : s2 = (u.popWriting q).setChan c { u.chan c with recs := (u.chan c).recs + 1, held := l }) :
    s.heldWrite q = if l = [] then s2.settle c else s2.setEq q { s2.eq q with waiters := .chan c :: (s2.eq q).waiters } := by
  have hb : s.heldBytes (.chan c) = some x.bytes := by
    unfold State.heldBytes
    simp only [hh]
    rw [if_neg (by simpa using hx)]
  have hposted : (u.popWriting q).posted (.chan c) = (!l.isEmpty, s2) := by
    rw [posted_chan (v := u.popWriting q) hu, h2]
    rfl
  rw [heldWrite_written hw hb hc, hposted]
  cases l with
  | nil => rfl
  | cons y l => rfl

theorem heldWrite_cmp {k : Nat} {x : CmpRec} {r : List Poster} {s2 : State} (hw : (s.eq q).writing = .cmp k :: r) (hp : (s.cmp k).pend = some x)
    (hc : s.eqCommit q (x.bytes k false) = (.done, u)) (h2 : s2 = u.popWriting q) :
    s.heldWrite q = s2.setCmp k { s2.cmp k with pend := none } := by
  have hb : s.heldBytes (.cmp k) = some (x.bytes k false) := by
    unfold State.heldBytes
    simp only [hp, Option.map_some]
  rw [heldWrite_written hw hb hc, h2]
  rfl

/-! ## ADMIN_CFG (R285, R299) -/

theorem adminCfg_changes {v : Word} (hst : (s.wq 0).st ≠ .absent) (hx : (adminClamp v ^^^ s.queues.cfg) >>> 1 ≠ 0) :
    s.adminCfg v = s.setWq 0 { s.wq 0 with cfgRej := true } :=
  if_pos (by
    rw [Bool.and_eq_true, Bool.or_eq_true]
    exact ⟨decide_eq_true hst, .inl (decide_eq_true hx)⟩)

/-- ADMIN_CFG as stored. -/
def State.storeCfg (s : State) (w : Word) : State := { s with queues := { s.queues with cfg := w } }

theorem adminCfg_disables {v : Word} (hst : (s.wq 0).st = .enabled) (hx : (adminClamp v ^^^ s.queues.cfg) >>> 1 = 0)
    (hb : bit (adminClamp v) 0 = false) : s.adminCfg v = (s.storeCfg (adminClamp v)).setWq 0 ((s.wq 0).disable true) := by
  unfold State.adminCfg
  simp only [hst, hx, hb, ne_eq, not_true, decide_false, Bool.false_and, Bool.or_false, Bool.and_false, Bool.false_eq_true, if_false]
  rfl

/-- Where queue 0 is ABSENT, EN 1 with a ring in SRAM creates it. -/
theorem adminCfg_creates {v : Word} (hen : bit (adminClamp v) 0 = true) (hphy : bit (adminClamp v) 1 = true) (hst : (s.wq 0).st = .absent)
    (hring : s.queues.baseHi.toNat * 2 ^ 32 + s.queues.baseLo.toNat + 0x80 + 64 * 2 ^ fld (adminClamp v) 2 5 ≤ 0x2000000) :
    s.adminCfg v = (s.storeCfg (adminClamp v)).createWq 0 true (s.queues.baseHi.toNat * 2 ^ 32 + s.queues.baseLo.toNat)
      (fld (adminClamp v) 2 5) (fld (adminClamp v) 8 8) (BitVec.ofNat 8 (fld (adminClamp v) 16 8)) := by
  have hsize : ¬ sramSize < s.queues.baseHi.toNat * 2 ^ 32 + s.queues.baseLo.toNat + 0x80 + 64 * 2 ^ fld (adminClamp v) 2 5 :=
    Nat.not_lt.2 hring
  unfold State.adminCfg
  simp only [hst, hen, hphy, hsize, ne_eq, not_true, decide_false, decide_true, Bool.false_and, Bool.and_false, Bool.false_eq_true, if_false,
    if_true]
  rfl

theorem ring_room {base n : Nat} (h : base + 0x80 + 64 * n ≤ 0x2000000) : base + 0x40 + 4 ≤ 0x2000000 := by
  omega

theorem wqAddr_phy (hp : (s.wq q).phy = true) (a : Nat) (acc : Access) : s.wqAddr q a acc = (.ok true a, s) := if_pos hp

/-- A write to a ring in SRAM is made at once. -/
theorem wqWrite_phy {a : Nat} {b : List Byte} (hp : (s.wq q).phy = true) (hr : a + b.length ≤ 0x2000000) :
    s.wqWrite q a b = (true, (s.sramWrite a b).spend (.wq q) (s.wq q).dom a) := by
  unfold State.wqWrite
  rw [wqAddr_phy hp]
  exact if_neg (by simp [State.canWrite, show sramSize = 0x2000000 from rfl, hr])

/-- A queue with its ring in SRAM is created in one cycle: its CI is written. -/
theorem createWq_phy {base size dom : Nat} {o : Ident} (hb : base + 0x40 + 4 ≤ 0x2000000) :
    (s.createWq q true base size dom o).queues.cfg = s.queues.cfg ∧ ((s.createWq q true base size dom o).wq q).st = .enabled ∧
      ((s.createWq q true base size dom o).wq q).base = base ∧ ((s.createWq q true base size dom o).wq q).size = size ∧
      ((s.createWq q true base size dom o).wq q).owner = o := by
  generalize hw : ({ (s.wq q).gone with st := .enabled, owner := o, size := size, base := base, dom := dom, phy := true, ciOwed := true } : WQ) = w
  have hcreate : s.createWq q true base size dom o = (s.setWq q w).wqInit q := by
    rw [← hw]
    rfl
  have hself : (s.setWq q w).wq q = w := (State.setWq_wq ..).trans (if_pos rfl)
  have howed : w.ciOwed = true := by rw [← hw]
  have hphy : w.phy = true := by rw [← hw]
  have hbase : w.base = base := by rw [← hw]
  have hinit : (s.setWq q w).wqInit q = ((s.setWq q { w with ciOwed := false }).wqWrite q (base + 0x40) (leBytes 4 0)).2 := by
    have hwalk : (s.setWq q w).wqWalks q (base + 0x40) .write = none := by
      unfold State.wqWalks
      rw [wqAddr_phy (by rw [hself, hphy])]
    unfold State.wqInit
    simp only [hself, howed, hbase, hwalk, Bool.not_true, Bool.false_eq_true, if_false, State.modWq_eq, State.setWq_setWq]
  have hset : (s.setWq q { w with ciOwed := false }).wq q = { w with ciOwed := false } := (State.setWq_wq ..).trans (if_pos rfl)
  have hend : (s.createWq q true base size dom o).wq q = { w with ciOwed := false } ∧
      (s.createWq q true base size dom o).queues.cfg = s.queues.cfg := by
    rw [hcreate, hinit, wqWrite_phy (by rw [hset]; exact hphy) (by rw [length_leBytes]; exact hb)]
    exact ⟨hset, rfl⟩
  rw [hend.1, hend.2, ← hw]
  exact ⟨rfl, rfl, rfl, rfl, rfl⟩

end

/-- Settles O27: an entry by its four steps, a record by its credit, its write and its notification, and ADMIN_CFG by its judgement. -/
theorem entriesAndRecordsPassThroughTheirRings : Obligations.EntriesAndRecordsPassThroughTheirRings := by
  unfold Obligations.EntriesAndRecordsPassThroughTheirRings
  refine ⟨?_, ?_, ?_, ?_, ?_, ?_⟩
  · rintro t q hm s s1 s2 _ rfl hup hci
    refine ⟨fun hst hne h1 h2 => ?_, fun h => ?_⟩
    · refine (engineEvent_up (f := fun s => s.entryServe q hm) hup).trans (congrArg _ ?_)
      exact entryServe_serves (s := s.arrive t) rfl hci hst hne h1 h2
    · refine (engineEvent_up (f := fun s => s.entryServe q hm) hup).trans (congrArg _ ?_)
      exact entryServe_rests (s := s.arrive t) hci h
  · rintro s s1 q _ hm _ e rfl rfl
    refine ⟨fun hc hr => entryTake_slot rfl (takeCopy_none hc) hr, fun k b r hn hc hk => ⟨fun hi => ?_, fun hi hr => ?_⟩,
      fun v st => entryPerform_done, fun b => entryComplete_writes, entryEnd_writes⟩
    · exact entryTake_copy rfl ((takeCopy_old hn hc hk).trans (if_pos hi))
    · exact entryTake_slot (w' := { s.wq q with copies := r, missed := (s.wq q).missed + 1 }) rfl ((takeCopy_old hn hc hk).trans (if_neg hi)) hr
  · rintro s q p rec _ rfl
    refine ⟨eqPost_holds rfl, fun hw hst hp hcr had hwr => ?_, fun hc => if_pos hc, hold_waits⟩
    obtain ⟨v, hv, hself, hpend, hsram⟩ := eqPost_posts (p := p) (rec := rec) rfl hw hst hp hcr had hwr
    refine ⟨v, hv, ?_⟩
    rw [hself]
    refine ⟨rfl, rfl, rfl, hpend, fun hlen a => ?_⟩
    rw [hsram, tget_putBytes, tget_putBytes, length_leBytes, hlen]
  · intro t q s hup
    exact engineEvent_up (f := fun s => s.heldPost q) hup
  · rintro s s1 s2 q _ p r rfl
    refine ⟨fun hw hst hcr had => ?_, heldAdmit_rests rfl, heldWrite_none, fun c x l hw hh hx hc hu h2 => ⟨fun hl => ?_, fun hl => ?_⟩,
      fun k x hw hp hc h2 => heldWrite_cmp hw hp hc h2⟩
    · have hadm := heldAdmit_admits rfl hw hst hcr had
      exact ⟨(hadm q).trans (if_pos rfl), fun j hj => (hadm j).trans (if_neg hj)⟩
    · exact (heldWrite_chan hw hh hx hc hu h2).trans (if_neg hl)
    · exact (heldWrite_chan hw hh hx hc hu h2).trans (if_pos hl)
  · rintro t m v _ s hs rfl
    have hexec : exec (.adminCfgWrite t m v) s = .next ((s.arrive t).adminCfg v) := regWrite_serves (f := fun s => s.adminCfg v) hs
    refine ⟨fun hen hphy hst hring => ?_, fun hst hx => ?_, fun hst hx hb => ?_⟩
    · rw [hexec, adminCfg_creates (s := s.arrive t) hen hphy hst hring]
      obtain ⟨hcfg, hwst, hbase, hsize, howner⟩ := createWq_phy (s := (s.arrive t).storeCfg (adminClamp v)) (q := 0)
        (base := s.queues.baseHi.toNat * 2 ^ 32 + s.queues.baseLo.toNat) (size := fld (adminClamp v) 2 5) (dom := fld (adminClamp v) 8 8)
        (o := BitVec.ofNat 8 (fld (adminClamp v) 16 8)) (ring_room hring)
      exact ⟨_, rfl, hcfg, hwst, hbase, hsize, howner⟩
    · rw [hexec, adminCfg_changes (s := s.arrive t) hst hx]
      rfl
    · rw [hexec, adminCfg_disables (s := s.arrive t) hst hx hb]
      refine ⟨_, rfl, ?_⟩
      rw [State.setWq_wq, if_pos rfl]
      exact ⟨rfl, rfl⟩

end Sys2Proof.Machine
end


section
/-! PROOFS. The walk: one table entry at each level, and how it ends (O28). -/

namespace Sys2Proof.Machine

/-! ## The entry (R306, R307) -/

theorem entryFault_absent {e : BitVec 64} (h : e.getLsbD 0 = false) (level : Nat) : entryFault e level = some 1 := by
  unfold entryFault
  dsimp only
  have hv : entV e = false := h
  rw [hv]
  rfl

theorem entryFault_none {e : BitVec 64} {level : Nat} (h : entryFault e level = none) :
    e.getLsbD 0 = true ∧ (e.getLsbD 1 = true → level ≤ 1) ∧ (e.getLsbD 1 = false → level ≠ 0) ∧
      (e.getLsbD 1 = true → level = 1 → entOA e % 0x200000 = 0) := by
  have hv : e.getLsbD 0 = true := by
    by_contra hv
    rw [entryFault_absent (by simpa using hv)] at h
    cases h
  unfold entryFault at h
  dsimp only at h
  rw [if_neg (by simp [entV, hv])] at h
  split at h
  · cases h
  · next hb =>
    simp only [Bool.or_eq_true, Bool.and_eq_true, Bool.not_eq_true', decide_eq_true_eq, not_or, not_and, not_le] at hb
    obtain ⟨⟨⟨⟨⟨-, -⟩, hleaf⟩, htable⟩, -⟩, hbig⟩ := hb
    refine ⟨hv, fun hl => Nat.lt_succ_iff.1 (hleaf hl), fun hl => htable hl, fun hl h1 => ?_⟩
    by_contra hne
    exact hbig ⟨hl, h1⟩ hne

section
variable {s : State} {w : Walk}

/-! ## The table read (R304, R307, R335) -/

theorem tableRead_begun {n : Nat} {m : HostMem} (hw : s.xl.walks[n]? = some w) (hb : w.begun = true) : s.tableRead n m =
    if !(s.dom w.dom).en then s.walkEnd w (.inr (7, 0, 0))
    else if w.tabPhy then
      if s.beatLocked none w.entryAt 8 then s
      else match s.ringSram w.entryAt 8 with
      | (some b, s) => s.walkEntry w (BitVec.ofNat 64 (leNat b))
      | (none, s) => s.walkEnd w (.inr (6, w.level, 0))
    else match s.hostTry w.tries m with
      | .bytes b => s.walkEntry w (BitVec.ofNat 64 (num b 0 8))
      | .again => { s with xl := { s.xl with walks := s.xl.walks.map fun x => if x = w then { w with tries := w.tries + 1 } else x } }
      | _ => s.walkEnd w (.inr (6, w.level, 0)) := by
  unfold State.tableRead
  rw [hw]
  dsimp only
  rw [if_neg (by simp [hb])] <;> rfl

section
variable {n : Nat} {m : HostMem} (hw : s.xl.walks[n]? = some w) (hb : w.begun = true)
include hw hb

theorem tableRead_off (he : (s.dom w.dom).en = false) : s.tableRead n m = s.walkEnd w (.inr (7, 0, 0)) := by
  rw [tableRead_begun hw hb]
  exact if_pos (by simp [he])

variable (he : (s.dom w.dom).en = true)
include he

theorem tableRead_phy (hp : w.tabPhy = true) : s.tableRead n m = if s.beatLocked none w.entryAt 8 then s
    else match s.ringSram w.entryAt 8 with
      | (some b, s) => s.walkEntry w (BitVec.ofNat 64 (leNat b))
      | (none, s) => s.walkEnd w (.inr (6, w.level, 0)) := by
  rw [tableRead_begun hw hb, if_neg (by simp [he]), if_pos hp]

theorem tableRead_host (hp : w.tabPhy = false) : s.tableRead n m = match s.hostTry w.tries m with
      | .bytes b => s.walkEntry w (BitVec.ofNat 64 (num b 0 8))
      | .again => { s with xl := { s.xl with walks := s.xl.walks.map fun x => if x = w then { w with tries := w.tries + 1 } else x } }
      | _ => s.walkEnd w (.inr (6, w.level, 0)) := by
  rw [tableRead_begun hw hb, if_neg (by simp [he]), if_neg (by simp [hp])]

end

theorem hostTry_down (tries : Nat) (m : HostMem) (hl : s.irq.link = false) : s.hostTry tries m = .failed := if_pos (by simp [hl])

theorem hostTry_data (tries : Nat) (b : List Byte) (hl : s.irq.link = true) : s.hostTry tries (.data b) = .bytes b := if_neg (by simp [hl])

theorem hostTry_fail (tries : Nat) (hl : s.irq.link = true) : s.hostTry tries .fail = if tries < 3 then .again else .failed :=
  if_neg (by simp [hl])

/-! ## What an entry leads to (R306 to R309) -/

theorem walkEntry_fault {e : BitVec 64} {k : Nat} (h : entryFault e w.level = some k) : s.walkEntry w e = s.walkEnd w (.inr (k, w.level, e)) := by
  unfold State.walkEntry
  rw [h]

theorem walkEntry_table {e : BitVec 64} (h : entryFault e w.level = none) (hl : e.getLsbD 1 = false) :
    s.walkEntry w e = { s with xl := { s.xl with walks := s.xl.walks.map fun x =>
      if x = w then { w with level := w.level - 1, table := entOA e, tabPhy := e.getLsbD 5, tries := 0 } else x } } := by
  have hleaf : entLeaf e = false := hl
  unfold State.walkEntry
  rw [h]
  dsimp only
  rw [hleaf]
  rfl

theorem walkEntry_leaf {e : BitVec 64} (h : entryFault e w.level = none) (hl : e.getLsbD 1 = true) : s.walkEntry w e =
    s.walkEnd w (.inl { dom := w.dom, page := w.va / (if w.level = 1 then 0x200000 else 0x1000), big := w.level = 1, entry := e }) := by
  have hleaf : entLeaf e = true := hl
  unfold State.walkEntry
  rw [h]
  dsimp only
  rw [hleaf]
  rfl

/-! ## The end of a core's walk (R309, R335) -/

theorem walkEnd_core {l : Leaf} {k j : Nat} (hw : w.who = .core k j) : s.walkEnd w (.inl l) =
    (fun u : State => if w.gone then u else { u with xl := { u.xl with answers := u.xl.answers ++
      [{ who := w.who, dom := w.dom, page := w.va / 4096, res := .inl l, old := w.old && s.invLeaf l, acc := w.acc }] } })
    (if w.old && s.invLeaf l then s.setWalks (s.xl.walks.erase w) else (s.setWalks (s.xl.walks.erase w)).cacheLeaf l) := by
  have hinv : (s.setWalks (s.xl.walks.erase w)).invLeaf l = s.invLeaf l := rfl
  unfold State.walkEnd
  simp only [hinv, hw]
  generalize (if (w.old && s.invLeaf l) = true then s.setWalks (s.xl.walks.erase w) else (s.setWalks (s.xl.walks.erase w)).cacheLeaf l) = u
  split
  · rfl
  · split <;> rfl

theorem walkEnd_core_xl {l : Leaf} {k j : Nat} (hw : w.who = .core k j) :
    (s.walkEnd w (.inl l)).xl.answers = (if w.gone then s.xl.answers else s.xl.answers ++
      [{ who := w.who, dom := w.dom, page := w.va / 4096, res := .inl l, old := w.old && s.invLeaf l, acc := w.acc }]) ∧
    (s.walkEnd w (.inl l)).xl.cache = (if w.old && s.invLeaf l then s.xl.cache else (l :: s.xl.cache.erase l).take 8192) := by
  rw [walkEnd_core hw]
  dsimp only
  refine ⟨?_, ?_⟩
  · split <;> split <;> rfl
  · split <;> split <;> rfl

end

/-- Settles O28: the entry's checks, the table read by its cases, and the end of a walk. -/
theorem walksReadOneEntryPerLevel : Obligations.WalksReadOneEntryPerLevel := by
  unfold Obligations.WalksReadOneEntryPerLevel
  refine ⟨fun w => rfl, fun e level => ⟨fun h => entryFault_absent h level, entryFault_none⟩, ?_, fun s w e => ⟨fun k => walkEntry_fault, walkEntry_table, ?_, ?_⟩, ?_⟩
  · intro t n hm s w hup hw hb
    have hexec : exec (.tableReadComplete t n hm) s = .next ((s.arrive t).tableRead n hm) := engineEvent_up (f := fun s => s.tableRead n hm) hup
    rw [hexec]
    refine ⟨fun he => ?_, fun he hp hl => ?_, fun b s1 he hp hl => ⟨fun hr => ?_, fun hr => ?_⟩, fun b he hp hl hd => ?_, fun he hp hl => ?_,
      fun he hp hl hf => ?_⟩
    · rw [tableRead_off (s := s.arrive t) hw hb he]
    · rw [tableRead_phy (s := s.arrive t) hw hb he hp, hl]
      rfl
    · rw [tableRead_phy (s := s.arrive t) hw hb he hp, hl, hr]
      rfl
    · rw [tableRead_phy (s := s.arrive t) hw hb he hp, hl, hr]
      rfl
    · rw [tableRead_host (s := s.arrive t) hw hb he hp, hd, hostTry_data (s := s.arrive t) _ _ hl]
    · rw [tableRead_host (s := s.arrive t) hw hb he hp, hostTry_down (s := s.arrive t) _ _ hl]
    · rw [tableRead_host (s := s.arrive t) hw hb he hp, hf, hostTry_fail (s := s.arrive t) _ hl]
      by_cases hn : w.tries < 3
      · rw [if_pos hn, if_pos hn]
        rfl
      · rw [if_neg hn, if_neg hn]
  · intro h hl h0
    rw [walkEntry_leaf h hl, if_neg (by simp [h0]), decide_eq_false (by simp [h0])]
  · intro h hl h1
    rw [walkEntry_leaf h hl, if_pos h1, decide_eq_true h1]
  · intro s w l k j hw
    obtain ⟨hans, hcache⟩ := walkEnd_core_xl (s := s) (l := l) hw
    refine ⟨fun hg => ?_, fun hg => ?_, fun ho hi => ?_, fun h => ?_⟩
    · rw [hans, if_neg (by simp [hg])]
    · rw [hans, if_pos hg]
    · rw [hcache, if_pos (by simp [ho, hi])]
    · rw [hcache, if_neg (by rcases h with h | h <;> simp [h])]
      rfl

end Sys2Proof.Machine
end


section
/-! PROOFS. Invalidation of cached translations, and the switch of a domain (O29). -/

namespace Sys2Proof.Machine

section
variable {s : State} {z : Scope}

/-! ## The start of an invalidation (R311 to R313) -/

theorem invGo_without {v : Word} (hb : bit v 0 = false) : s.invGo v = s := if_pos (by simp [hb])

theorem invGo_begins {v : Word} (hb : bit v 0 = true) (hi : s.xl.inv = none) (hz : s.invScope = some z) :
    s.invGo v = ({ s with xl := { s.xl with inv := some z } } : State).invalidate z := by
  unfold State.invGo
  simp only [hb, hi, hz, Bool.not_true, Bool.false_eq_true, if_false]

theorem invGo_rejects {v : Word} (hb : bit v 0 = true) (h : s.xl.inv ≠ none ∨ s.invScope = none) :
    s.invGo v = { s with xl := { s.xl with invRej := true } } := by
  unfold State.invGo
  rw [if_neg (by simp [hb])]
  split
  · next hi hz => exact (h.elim (fun h => h hi) fun h => by rw [h] at hz; cases hz).elim
  · rfl

theorem foldl_fixed {α : Type} {f : State → α → State} (h : ∀ x, f s x = s) (l : List α) : l.foldl f s = s := by
  induction l with
  | nil => rfl
  | cons x r ih => rw [List.foldl_cons, h, ih]

theorem invChan_untouched {c : Nat} (ht : (s.chan c).timed = none) (hl : ∀ l ∈ (s.chan c).leafs, z.leaf l = false) : s.invChan z c = s := by
  have hany : (s.chan c).leafs.any z.leaf = false := by
    rw [List.any_eq_false]
    exact fun l h => by simp [hl l h]
  unfold State.invChan
  simp only [hany, Bool.false_eq_true, if_false, ht]

/-- The cache, the answers and the walks as the start of an invalidation leaves them. -/
def Xlate.dropped (x : Xlate) (z : Scope) : Xlate :=
  { x with
    cache := x.cache.filter (fun l => !z.leaf l)
    answers := x.answers.filter (fun a => match a.res with | .inl l => !z.leaf l | .inr _ => true)
    walks := x.walks.map (fun w => if z.walk w && w.begun then { w with old := true, gone := w.gone || (w.who matches .stage _) } else w) }

/-- An invalidation that no channel has anything to do with begins with the cache, the answers, the walks and the bursts. -/
theorem invalidate_untouched (h : ∀ c, (s.chan c).timed = none ∧ ∀ l ∈ (s.chan c).leafs, z.leaf l = false) :
    (s.invalidate z).xl = s.xl.dropped z ∧ (s.invalidate z).chans = s.chans ∧ (s.invalidate z).mem = s.mem := by
  have hfixed (u : State) (hu : u.chans = s.chans) (l : List Nat) : l.foldl (fun s c => s.invChan z c) u = u := by
    refine foldl_fixed (fun c => ?_) l
    obtain ⟨ht, hl⟩ := h c
    rw [← chan_of_chans hu] at ht hl
    exact invChan_untouched ht hl
  unfold State.invalidate
  dsimp only
  rw [hfixed]
  · exact ⟨rfl, rfl, rfl⟩
  · rfl

theorem dropped_walks {x : Xlate} {w : Walk} (hw : w ∈ (x.dropped z).walks) (hz : z.walk w = true) (hb : w.begun = true) : w.old = true := by
  obtain ⟨y, -, rfl⟩ := List.mem_map.1 hw
  split
  · rfl
  · next hn =>
    rw [if_neg hn] at hz hb
    exact absurd (by rw [hz, hb]; rfl) hn

theorem dropped_answers {x : Xlate} {a : Answer} {l : Leaf} (ha : a ∈ (x.dropped z).answers) (hl : a.res = .inl l) : z.leaf l = false := by
  have h := (List.mem_filter.1 ha).2
  rw [hl] at h
  simpa using h

/-! ## Completion (R304, R312) -/

/-- What completes with an invalidation where no channel waits for it. -/
theorem invOver_eq (ha : ∀ c, (s.chan c).act ≠ .inval) : s.invOver z = ({ s with xl := { s.xl with
    invSeq := s.xl.invSeq + 1
    answers := s.xl.answers.filter fun a => !(a.old && z.covers a.dom (a.page * 4096) 4096) } } : State).cicEdge 679 := by
  unfold State.invOver
  dsimp only
  refine foldl_fixed (fun c => if_neg ?_) _
  rw [Bool.and_eq_true, decide_eq_true_eq]
  exact fun h => ha c h.1

/-- What an invalidation's completion leaves alone. -/
structure Over (s u : State) : Prop where
  walks : u.xl.walks = s.xl.walks
  cache : u.xl.cache = s.xl.cache
  doms : u.xl.doms = s.xl.doms
  run : u.movers.run = s.movers.run
  chans : u.chans = s.chans

theorem invOver_over (ha : ∀ c, (s.chan c).act ≠ .inval) : Over s (s.invOver z) ∧ (s.invOver z).xl.invSeq = s.xl.invSeq + 1 ∧
    ((s.invOver z).cic 679).pend = true ∧ (s.invOver z).xl.inv = s.xl.inv := by
  rw [invOver_eq ha]
  have hcic (u : State) : (u.cicEdge 679).cic 679 = { u.cic 679 with pend := true } := (tget_tput ..).trans (if_pos rfl)
  rw [hcic]
  exact ⟨⟨rfl, rfl, rfl, rfl, rfl⟩, rfl, rfl, rfl⟩

theorem invDone_of {u : State} (hw : u.xl.walks = s.xl.walks) (hr : u.movers.run = s.movers.run) (hc : u.chans = s.chans) :
    u.invDone z = s.invDone z := by
  simp only [State.invDone, hw, hr, hc, chan_of_chans hc]

/-- The invalidations of domains switched off, those of the list. -/
def State.domsDone (s : State) (l : List Nat) : State := l.foldl (fun s d =>
  let x := s.dom d
  if x.invBusy && s.invDone (.dom d) then (s.setDom d { x with invBusy := false }).invOver (.dom d) else s) s

theorem domsDone_idle (h : ∀ d, (s.dom d).invBusy = false) (l : List Nat) : s.domsDone l = s :=
  foldl_fixed (fun d => if_neg (by simp [h d])) l

theorem invComplete_none (hi : s.xl.inv = none) : s.invComplete = s.domsDone (s.xl.doms.map (·.1)) := by
  unfold State.invComplete
  rw [hi]
  rfl

theorem invComplete_waits (hi : s.xl.inv = some z) (hd : s.invDone z = false) : s.invComplete = s.domsDone (s.xl.doms.map (·.1)) := by
  unfold State.invComplete
  simp only [hi, hd, Bool.false_eq_true, if_false]
  rfl

/-- The invalidation that GO started, completed. -/
def State.invEnded (s : State) (z : Scope) : State := ({ s with xl := { s.xl with inv := none } } : State).invOver z

theorem invEnded_over (ha : ∀ c, (s.chan c).act ≠ .inval) : Over s (s.invEnded z) ∧ (s.invEnded z).xl.invSeq = s.xl.invSeq + 1 ∧
    ((s.invEnded z).cic 679).pend = true ∧ (s.invEnded z).xl.inv = none := by
  have ha' : ∀ c, (({ s with xl := { s.xl with inv := none } } : State).chan c).act ≠ .inval := ha
  obtain ⟨ho, hseq, hpend, hinv⟩ := invOver_over (z := z) ha'
  exact ⟨⟨ho.walks, ho.cache, ho.doms, ho.run, ho.chans⟩, hseq, hpend, hinv⟩

theorem invComplete_ends (hi : s.xl.inv = some z) (hd : s.invDone z = true) :
    s.invComplete = (s.invEnded z).domsDone ((s.invEnded z).xl.doms.map (·.1)) := by
  unfold State.invComplete
  simp only [hi, hd, if_true]
  rfl

/-- One domain of the list is done with its invalidation; the others are done with theirs, or as they were. -/
theorem domsDone_dom {d : Nat} (ha : ∀ c, (s.chan c).act ≠ .inval) (hd : s.invDone (.dom d) = true) (l : List Nat) :
    (s.domsDone l).dom d = if d ∈ l ∧ (s.dom d).invBusy = true then { s.dom d with invBusy := false } else s.dom d := by
  induction l generalizing s with
  | nil => simp [State.domsDone]
  | cons k r ih =>
    have hcons : s.domsDone (k :: r) = (if (s.dom k).invBusy && s.invDone (.dom k) then
        (s.setDom k { s.dom k with invBusy := false }).invOver (.dom k) else s).domsDone r := rfl
    rw [hcons]
    by_cases hk : ((s.dom k).invBusy && s.invDone (.dom k)) = true
    · rw [if_pos hk]
      have ha' : ∀ c, ((s.setDom k { s.dom k with invBusy := false }).chan c).act ≠ .inval := ha
      obtain ⟨ho, -⟩ := invOver_over (z := .dom k) ha'
      have hdom (j : Nat) : ((s.setDom k { s.dom k with invBusy := false }).invOver (.dom k)).dom j =
          if j = k then { s.dom k with invBusy := false } else s.dom j := by
        rw [State.dom, ho.doms]
        exact State.setDom_dom ..
      rw [ih (fun c => by rw [chan_of_chans ho.chans]; exact ha c) (by rw [invDone_of ho.walks ho.run ho.chans]; exact hd), hdom]
      by_cases hj : d = k
      · subst hj
        have hb : (s.dom d).invBusy = true := (Bool.and_eq_true .. ▸ hk).1
        simp [hb]
      · simp [hj]
    · rw [if_neg hk, ih ha hd]
      by_cases hj : d = k
      · subst hj
        have hb : ¬ (s.dom d).invBusy = true := fun hb => hk (by rw [hb, hd]; rfl)
        simp [hb]
      · simp [hj]

theorem busy_listed {d : Nat} (h : (s.dom d).invBusy = true) : d ∈ s.xl.doms.map (·.1) := by
  by_contra hn
  have hd : s.dom d = {} := tget_of_not_mem _ hn
  rw [hd] at h
  cases h

/-! ## Domains (R302 to R304) -/

theorem bit_low3 {v : Word} {i : Nat} (hi : i < 3) : bit (v &&& 7) i = bit v i := by
  have h7 : (7 : Word).getLsbD i = true := by
    interval_cases i <;> decide
  unfold bit
  rw [BitVec.getLsbD_and, h7, Bool.and_true]

section
variable {d : Nat} {v : Word}

theorem domCtrl_rejects (h : bit (s.dom d).ctrl 0 = true ∧ bit v 2 ≠ bit (s.dom d).ctrl 2 ∨ bit v 0 = true ∧ (s.dom d).invBusy = true) :
    s.domCtrl d v = s.setDom d { s.dom d with cfgRej := true } := by
  refine if_pos ?_
  rw [bit_low3 (by decide), bit_low3 (by decide)]
  rcases h with ⟨h0, h2⟩ | ⟨h0, hb⟩
  · simp only [Dom.en, Dom.rootPhy, h0, Bool.true_and, Bool.or_eq_true]
    exact .inl (by simpa using h2)
  · simp [h0, hb]

theorem domCtrl_accepts (hr : bit (s.dom d).ctrl 0 = false ∨ bit v 2 = bit (s.dom d).ctrl 2) (hb : bit v 0 = false ∨ (s.dom d).invBusy = false) :
    s.domCtrl d v = if bit (s.dom d).ctrl 0 && !bit v 0 then
      (s.setDom d { s.dom d with ctrl := v &&& 7, invBusy := true }).invalidate (.dom d) else s.setDom d { s.dom d with ctrl := v &&& 7 } := by
  have hgate : ¬ ((s.dom d).en && bit (v &&& 7) 2 != (s.dom d).rootPhy || bit (v &&& 7) 0 && (s.dom d).invBusy) = true := by
    rw [bit_low3 (by decide), bit_low3 (by decide)]
    simp only [Dom.en, Dom.rootPhy]
    rcases hr with h | h <;> rcases hb with h' | h' <;> simp [h, h']
  refine (if_neg hgate).trans ?_
  rw [bit_low3 (by decide)]
  rfl

end

end

/-- Settles O29: the start of an invalidation, its completion, and the switch of a domain, each by its cases. -/
theorem invalidationsRemoveTheirScope : Obligations.InvalidationsRemoveTheirScope := by
  unfold Obligations.InvalidationsRemoveTheirScope
  have hcomplete (t : Time) (s : State) (hup : s.up = true) : exec (.invalidationComplete t) s = .next (s.arrive t).invComplete :=
    engineEvent_up (f := State.invComplete) hup
  refine ⟨?_, ?_, ?_, ?_, ?_⟩
  · intro t m v s hs
    have hexec : exec (.xlInvGo t m v) s = .next ((s.arrive t).invGo v) := regWrite_serves (f := fun s => s.invGo v) hs
    rw [hexec]
    exact ⟨fun hb => congrArg _ (invGo_without hb), fun z hb hi hz => congrArg _ (invGo_begins (s := s.arrive t) hb hi hz),
      fun hb h => congrArg _ (invGo_rejects (s := s.arrive t) hb h)⟩
  · intro s z h
    obtain ⟨hxl, hchans, hmem⟩ := invalidate_untouched h
    rw [hxl]
    exact ⟨rfl, hchans, hmem, fun w hw => dropped_walks hw, fun a ha l => dropped_answers ha⟩
  · intro t s z hup hi hd ha
    rw [hcomplete t s hup]
    refine ⟨fun hdone => ?_, fun hdone => ?_⟩
    · obtain ⟨ho, hseq, hpend, hinv⟩ := invEnded_over (s := s.arrive t) (z := z) ha
      have hidle : ∀ d, (((s.arrive t).invEnded z).dom d).invBusy = false := fun d => by
        rw [State.dom, ho.doms]
        exact hd d
      rw [invComplete_ends (s := s.arrive t) hi hdone, domsDone_idle hidle]
      exact ⟨_, rfl, hinv, hseq, hpend, ho.cache⟩
    · rw [invComplete_waits (s := s.arrive t) hi hdone, domsDone_idle (s := s.arrive t) hd]
  · intro t s d hup ha hb hdone
    rw [hcomplete t s hup]
    refine ⟨_, rfl, ?_⟩
    have key (u : State) (hu : Over s u) : (u.domsDone (u.xl.doms.map (·.1))).dom d = { s.dom d with invBusy := false } := by
      have hdom : u.dom d = s.dom d := by rw [State.dom, State.dom, hu.doms]
      rw [domsDone_dom (fun c => by rw [chan_of_chans hu.chans]; exact ha c) (by rw [invDone_of hu.walks hu.run hu.chans]; exact hdone), hdom,
        if_pos ⟨busy_listed (by rw [hdom]; exact hb), hb⟩]
    cases hi : s.xl.inv with
    | none =>
      rw [invComplete_none (s := s.arrive t) hi]
      exact key _ ⟨rfl, rfl, rfl, rfl, rfl⟩
    | some z =>
      cases hz : s.invDone z with
      | false =>
        rw [invComplete_waits (s := s.arrive t) hi hz]
        exact key _ ⟨rfl, rfl, rfl, rfl, rfl⟩
      | true =>
        obtain ⟨ho, -⟩ := invEnded_over (s := s.arrive t) (z := z) ha
        rw [invComplete_ends (s := s.arrive t) hi hz]
        exact key _ ⟨ho.walks, ho.cache, ho.doms, ho.run, ho.chans⟩
  · rintro t m d v s _ rfl hs
    have hexec : exec (.domCtrlWrite t m d v) s = .next ((s.arrive t).domCtrl d v) := regWrite_serves (f := fun s => s.domCtrl d v) hs
    rw [hexec]
    refine ⟨fun h => congrArg _ (domCtrl_rejects (s := s.arrive t) h), fun he hr h0 => ?_, fun hr hb => ?_⟩
    · rw [domCtrl_accepts (s := s.arrive t) (.inr hr) (.inl h0)]
      exact congrArg _ (if_pos (by rw [h0]; exact (Bool.and_true _).trans he))
    · have hr' : bit (s.dom d).ctrl 0 = false ∨ bit v 2 = bit (s.dom d).ctrl 2 := hr.imp_right And.right
      rw [domCtrl_accepts (s := s.arrive t) hr' hb]
      refine congrArg _ (if_neg ?_)
      rw [Bool.and_eq_true]
      rintro ⟨h0, hv⟩
      rcases hr with h | ⟨h, -⟩
      · exact absurd (h0.symm.trans h) (by decide)
      · rw [h] at hv
        cases hv

end Sys2Proof.Machine
end


section
/-! PROOFS. A core's accesses through its host windows (O31). -/

namespace Sys2Proof.Machine

section
variable {s : State}

/-! ## A fault record in its domain (R323, R333) -/

theorem putOut_xl (s : State) (phy : Bool) (a : Nat) (b : List Byte) : (s.putOut phy a b).xl = s.xl := by
  unfold State.putOut
  split <;> rfl

theorem notifyQ_xl (s : State) (note vec base span n : Nat) : (s.notifyQ note vec base span n).xl = s.xl := by
  unfold State.notifyQ State.cicEdge
  split
  · rfl
  · split
    · split <;> rfl
    · rfl

/-- A fault record counts in its domain; of translation nothing else changes but a fault queue. -/
theorem faultRecord_xl (s : State) (r : FaultRec) :
    ∃ f, (s.faultRecord r).xl = { (s.setDom r.dom { s.dom r.dom with faults := satInc (s.dom r.dom).faults }).xl with fqs := f } := by
  unfold State.faultRecord
  dsimp only
  generalize s.setDom r.dom { s.dom r.dom with faults := satInc (s.dom r.dom).faults } = u
  have hput (p p' : Bool) (x y : Nat) (b c : List Byte) (q : FQ) :
      ∃ f, (((u.putOut p x b).putOut p' y c).setFq r.dom q).xl = { u.xl with fqs := f } := by
    refine ⟨tput {} u.xl.fqs r.dom q, ?_⟩
    have hxl : ((u.putOut p x b).putOut p' y c).xl = u.xl := (putOut_xl ..).trans (putOut_xl ..)
    rw [← hxl]
    rfl
  split
  · exact ⟨_, rfl⟩
  · split
    · exact ⟨_, rfl⟩
    · split
      · rw [notifyQ_xl]
        exact hput ..
      · exact hput ..

theorem faultRecord_win (s : State) (r : FaultRec) (n : Nat) : (s.faultRecord r).win n = s.win n := by
  obtain ⟨f, hf⟩ := faultRecord_xl s r
  rw [State.win, hf] <;> rfl

theorem faultRecord_faults (s : State) (r : FaultRec) : ((s.faultRecord r).dom r.dom).faults = satInc (s.dom r.dom).faults := by
  obtain ⟨f, hf⟩ := faultRecord_xl s r
  have hdom : (s.faultRecord r).dom r.dom = (s.setDom r.dom { s.dom r.dom with faults := satInc (s.dom r.dom).faults }).dom r.dom := by
    rw [State.dom, hf]
    rfl
  rw [hdom, State.setDom_dom, if_pos rfl]

/-! ## The registers of a window (R334) -/

theorem CoreWin.write_eq (x : CoreWin) (reg : CwReg) (v : Word) {n : CoreWin} (hn : n = match reg with
      | .ctrl => { x with ctrl := v &&& 0xFF01 }
      | .baseLo => { x with baseLo := v &&& 0xF0000000 }
      | .baseHi => { x with baseHi := v &&& 0xFFFF }) :
    x.write reg v = if bit x.ctrl 0 = true ∧ (fld n.ctrl 8 8 ≠ fld x.ctrl 8 8 ∨ n.baseLo ≠ x.baseLo ∨ n.baseHi ≠ x.baseHi) then
      { x with cfgRej := true } else n := by
  subst hn
  unfold CoreWin.write
  cases reg <;> simp only [Bool.and_eq_true, Bool.or_eq_true, decide_eq_true_eq, or_assoc] <;> rfl

/-! ## Accesses (R332, R333, R453, R454) -/

section
variable {k w o a : Nat} {op : CoreOp} {m : HostMem}

theorem coreWindow_misaligned (hr : s.coreRuns k = true) (hm : opMisaligned a op = true) : s.coreWindow k a op m = s.coreTrap k .misaligned a := by
  unfold State.coreWindow
  simp only [hr, hm, Bool.not_true, Bool.false_eq_true, if_false, if_true]

section
variable (hr : s.coreRuns k = true) (hm : opMisaligned a op = false) (hp : (s.core k).pmpOk (opAddr a op) (opWidth op) (opAccess op) = true)
  (hg : coreRegion (opAddr a op) = .window w o)
include hr hm hp hg

theorem coreWindow_off (hv : s.windowVa k (opAddr a op) w o (opAccess op) = none) : s.coreWindow k a op m =
    s.windowFault k w a (fld (s.win (k * 8 + w)).ctrl 8 8)
      (((s.win (k * 8 + w)).baseHi.toNat * 2 ^ 32 + (s.win (k * 8 + w)).baseLo.toNat + o) % 2 ^ 48) 9 0 0 op := by
  unfold State.coreWindow
  simp only [hr, hm, hp, hg, hv, Bool.not_true, Bool.false_eq_true, if_false]

variable {d va : Nat} (hv : s.windowVa k (opAddr a op) w o (opAccess op) = some (d, va)) {u : State}
include hv

theorem coreWindow_walks (hx : s.xlate (.core k w) d va (opAccess op) = (.miss, u)) : s.coreWindow k a op m =
    u.coreWait k (opAddr a op) (opAccess op) (some (d, va)) := by
  unfold State.coreWindow
  simp only [hr, hm, hp, hg, hv, hx, Bool.not_true, Bool.false_eq_true, if_false]

theorem coreWindow_hits {n : Nat} {v : Word} (hop : op = .load n ∨ op = .store n v) {phy : Bool} {addr : Nat} {lf : Leaf}
    (hx : s.xlate (.core k w) d va (opAccess op) = (.hit phy addr lf, u))
    (hw : u.refillWaits k false (a / 64) phy (addr / 64 * 64) = false) : s.coreWindow k a op m =
      ((u.coreWait k a (opAccess op) none).spend (.core k w) d va).cachedAccess k a op phy (addr / 64 * 64) m := by
  obtain rfl | rfl := hop
  all_goals
    unfold State.coreWindow
    simp only [hr, hm, hp, hg, hv, hx, Bool.not_true, Bool.false_eq_true, if_false]
    exact if_neg (Bool.eq_false_iff.1 hw)

end

theorem windowVa_off (hw : (s.core k).waits = []) (hc : bit (s.win (k * 8 + w)).ctrl 0 = false) (x : Nat) (acc : Access) :
    s.windowVa k x w o acc = none := by
  unfold State.windowVa
  simp only [hw, List.find?_nil, hc, Bool.false_and, Bool.false_eq_true, if_false]

/-- A fault of a window's access: its trap, the window's fault flag and the count of its domain. -/
theorem windowFault_fields (dom va cause level : Nat) (e : BitVec 64) :
    ((s.windowFault k w a dom va cause level e op).core k).trap = some (opFault op, a) ∧
      ((s.windowFault k w a dom va cause level e op).core k).resv = none ∧
      (s.windowFault k w a dom va cause level e op).win (k * 8 + w) = { s.win (k * 8 + w) with fault := true } ∧
      ((s.windowFault k w a dom va cause level e op).dom dom).faults = satInc (s.dom dom).faults := by
  unfold State.windowFault
  dsimp only
  generalize hv : s.setWin (k * 8 + w) _ = v
  have hwin : v.win (k * 8 + w) = { s.win (k * 8 + w) with fault := true } := by
    rw [← hv]
    exact (tget_tput ..).trans (if_pos rfl)
  have hdom : v.dom dom = s.dom dom := by
    rw [← hv]
    rfl
  have htrap (u : State) : (u.coreTrap k (opFault op) a).core k = { u.core k with trap := some (opFault op, a), resv := none } :=
    (tget_tput ..).trans (if_pos rfl)
  rw [htrap]
  refine ⟨rfl, rfl, ?_, ?_⟩
  · exact (faultRecord_win v _ _).trans hwin
  · exact (faultRecord_faults v _).trans (by rw [hdom])

theorem windowVa_waiting {x d va : Nat} {acc : Access} (h : ((s.core k).waits.find? fun p => p.1 == acc && p.2.1 == x) = some (acc, x, d, va)) :
    s.windowVa k x w o acc = some (d, va) := by
  unfold State.windowVa
  rw [h]

theorem windowVa_open {x : Nat} {acc : Access} (h : ((s.core k).waits.find? fun p => p.1 == acc && p.2.1 == x) = none)
    (hc : bit (s.win (k * 8 + w)).ctrl 0 = true)
    (hv : (s.win (k * 8 + w)).baseHi.toNat * 2 ^ 32 + (s.win (k * 8 + w)).baseLo.toNat + o < 2 ^ 48) :
    s.windowVa k x w o acc = some (fld (s.win (k * 8 + w)).ctrl 8 8,
      (s.win (k * 8 + w)).baseHi.toNat * 2 ^ 32 + (s.win (k * 8 + w)).baseLo.toNat + o) := by
  unfold State.windowVa
  rw [h]
  exact if_pos (by rw [hc, Bool.true_and]; exact decide_eq_true hv)

end

/-! ## A line that stands in the data cache (R455, R456) -/

section
variable {k n : Nat} {l : CacheLine} (hl : s.line k false n = l) (hd : l.data ≠ []) (hbad : l.bad = false)
include hl hd hbad

theorem refillWaits_there (phy : Bool) (base : Nat) : s.refillWaits k false n phy base = false := by
  have hthere : l.there = true := by simp [CacheLine.there, hd]
  unfold State.refillWaits
  simp only [hl, hthere, hbad, Bool.not_true, Bool.false_and, Bool.or_false]

theorem cacheLine_there (hweak : l.weak = false) (phy : Bool) (base : Nat) (m : HostMem) : s.cacheLine k false n phy base m = (some l, s) := by
  have hthere : l.there = true := by simp [CacheLine.there, hd]
  unfold State.cacheLine
  simp only [hl, hthere, hbad, hweak, Bool.not_true, Bool.false_and, Bool.false_eq_true, if_false]

end

theorem cachedAccess_load {k a n : Nat} {l : CacheLine} (hl : s.line k false (a / 64) = l) (hd : l.data ≠ []) (hbad : l.bad = false)
    (hweak : l.weak = false) (phy : Bool) (base : Nat) (m : HostMem) :
    s.cachedAccess k a (.load n) phy base m = s.coreDone k (some (num l.data (a % 64) n)) := by
  have h := cacheLine_there hl hd hbad hweak phy base m
  unfold State.cachedAccess
  change (match s.cacheLine k false (a / 64) phy base m with
    | (none, s) => s.coreTrap k .load a
    | (some l, s) => s.coreDone k (some (num l.data (a % 64) n))) = _
  rw [h]

theorem cachedAccess_store {k a n : Nat} {v : Word} {l : CacheLine} (hl : s.line k false (a / 64) = l) (hd : l.data ≠ []) (hbad : l.bad = false)
    (hweak : l.weak = false) (phy : Bool) (base : Nat) (m : HostMem) :
    s.cachedAccess k a (.store n v) phy base m =
      (s.setLine k false (a / 64) { l with data := splice l.data (a % 64) (leBytes n v.toNat), dirty := true }).coreDone k none := by
  have h := cacheLine_there hl hd hbad hweak phy base m
  unfold State.cachedAccess
  change (match s.cacheLine k false (a / 64) phy base m with
    | (none, s) => s.coreTrap k .store a
    | (some l, s) => (s.setLine k false (a / 64) { l with data := splice l.data (a % 64) (leBytes n v.toNat), dirty := true }).coreDone k none) = _
  rw [h]

theorem modCore_core (s : State) (k : Nat) (f : Core → Core) : (s.modCore k f).core k = f (s.core k) := (tget_tput ..).trans (if_pos rfl)

theorem spend_core (s : State) (who : Who) (d va k : Nat) : (s.spend who d va).core k = s.core k := rfl

theorem coreWait_line (k x n d va : Nat) (w : Nat) (acc : Access) (q : Option (Nat × Nat)) :
    ((s.coreWait k x acc q).spend (.core k w) d va).line k false n = s.line k false n := by
  have h : (((s.coreWait k x acc q).spend (.core k w) d va).core k).dcache = (s.core k).dcache := by
    rw [spend_core]
    unfold State.coreWait
    rw [modCore_core]
  change tget {} (((s.coreWait k x acc q).spend (.core k w) d va).core k).dcache n = _
  rw [h]
  rfl

theorem coreDone_trap (k : Nat) (v : Option Nat) : ((s.coreDone k v).core k).trap = none := by
  unfold State.coreDone
  rw [modCore_core]

/-- A store has put its line into the data cache. -/
theorem coreDone_setLine (k n : Nat) (l : CacheLine) (v : Option Nat) : ((s.setLine k false n l).coreDone k v).line k false n = l := by
  have h1 : (((s.setLine k false n l).coreDone k v).core k).dcache = ((s.setLine k false n l).core k).dcache := by
    unfold State.coreDone
    rw [modCore_core]
  have h2 : ((s.setLine k false n l).core k).dcache = tput {} (s.core k).dcache n l :=
    congrArg Core.dcache (modCore_core s k _)
  change tget {} (((s.setLine k false n l).coreDone k v).core k).dcache n = l
  rw [h1, h2]
  exact (tget_tput ..).trans (if_pos rfl)

end

/-- Settles O31: the window's registers by their check, an access by its cases, and the line it works on. -/
theorem coreWindowsTranslateTheirAccesses : Obligations.CoreWindowsTranslateTheirAccesses := by
  unfold Obligations.CoreWindowsTranslateTheirAccesses
  have hexec (t : Time) (k : Fin 4) (a : Word) (op : CoreOp) (hm : HostMem) (s : State) (hup : s.up = true) :
      exec (.coreWindowAccess t k a op hm) s = .next ((s.arrive t).coreWindow k a.toNat op hm) :=
    engineEvent_up (f := fun s => s.coreWindow k a.toNat op hm) hup
  refine ⟨?_, ?_, ?_, ?_, ?_⟩
  · rintro t m k w reg v s _ n rfl hs hn
    refine (regWrite_serves (f := fun s => s.setWin (k * 8 + w) ((s.win (k * 8 + w)).write reg v)) hs).trans ?_
    exact congrArg (fun x => Host.Outcome.next ((s.arrive t).setWin (k * 8 + w) x)) (CoreWin.write_eq _ reg v hn)
  · intro t k a op hm s hup hr
    refine ⟨fun hmis => ?_, fun w o hmis hp hg hw hc => ?_⟩
    · rw [hexec t k a op hm s hup, coreWindow_misaligned (s := s.arrive t) hr hmis]
      rfl
    · rw [hexec t k a op hm s hup, coreWindow_off (s := s.arrive t) hr hmis hp hg (windowVa_off (s := s.arrive t) hw hc _ _)]
      exact ⟨_, rfl, windowFault_fields ..⟩
  · intro t k a op w o d va hm s s1 hup hr hmis hp hg hv hx
    rw [hexec t k a op hm s hup, coreWindow_walks (s := s.arrive t) hr hmis hp hg hv hx]
  · rintro s k x w o acc _ rfl
    exact ⟨fun d va => windowVa_waiting, windowVa_open⟩
  · rintro t k a n w o d va hm s s1 phy addr lf _ v hup hr hal hg rfl hd hbad hweak
    have hmis (op : CoreOp) (hop : op = .load n ∨ op = .store n v) : opMisaligned a.toNat op = false := by
      rcases hop with rfl | rfl <;> simp [opMisaligned, hal]
    have hthere := refillWaits_there (s := s1) (k := k) (n := a.toNat / 64) rfl hd hbad phy (addr / 64 * 64)
    refine ⟨fun hp hv hx => ⟨_, rfl, ?_⟩, fun hp hv hx => ?_⟩
    · rw [hexec t k a _ hm s hup, coreWindow_hits (v := v) (s := s.arrive t) hr (hmis _ (.inl rfl)) hp hg hv (.inl rfl) hx hthere,
        cachedAccess_load (coreWait_line ..) hd hbad hweak]
      rfl
    · rw [hexec t k a _ hm s hup, coreWindow_hits (s := s.arrive t) hr (hmis _ (.inr rfl)) hp hg hv (.inr rfl) hx hthere,
        cachedAccess_store (coreWait_line ..) hd hbad hweak]
      exact ⟨_, rfl, coreDone_trap .., coreDone_setLine .., rfl, rfl⟩

end Sys2Proof.Machine
end


section
/-! PROOFS. A core's accesses to its TCM, to SRAM and to its cached lines, and its atomics (O43). -/

namespace Sys2Proof.Machine

section
variable {s u : State} {k a n o : Nat} {op : CoreOp} {v : Word} {b : List Byte}

/-! ## What a write leaves of its own core (R470) -/

/-- A core's own write clears no reservation of it. -/
theorem clearResv_own (cs : Tab Core) (k a n : Nat) : tget {} (clearResv cs (some k) a n) k = tget {} cs k := by
  unfold clearResv
  refine List.foldlRecOn (motive := fun t => tget {} t k = tget {} cs k) _ _ rfl fun t h j _ => ?_
  dsimp only
  rw [← h]
  by_cases hj : some k = some j ∨ n = 0
  · rw [if_pos (by simpa using hj)]
  · have hne : k ≠ j := fun e => hj (.inl (congrArg some e))
    rw [if_neg (by simpa using hj)]
    split
    · split
      · exact (tget_tput ..).trans (if_neg hne)
      · rfl
    · rfl

theorem sramWriteBy_core (s : State) (k a : Nat) (b : List Byte) : (s.sramWriteBy (some k) a b).core k = s.core k := clearResv_own ..

theorem coreDone_core (s : State) (k : Nat) (x : Option Nat) : (s.coreDone k x).core k =
    { s.core k with trap := none, rd := match x with | some y => BitVec.ofNat 32 y | none => (s.core k).rd } := by
  unfold State.coreDone
  exact modCore_core ..

theorem coreTrap_core (s : State) (k : Nat) (x : TrapKind) (a : Nat) : (s.coreTrap k x a).core k = { s.core k with trap := some (x, a), resv := none } :=
  modCore_core ..

/-! ## An access (R453, R454, R462, R463, R465) -/

section
variable (hr : s.coreRuns k = true)
include hr

theorem coreSram_misaligned (hm : opMisaligned a op = true) : s.coreSram k a op = s.coreTrap k .misaligned a := by
  unfold State.coreSram
  simp only [hr, hm, Bool.not_true, Bool.false_eq_true, if_false, if_true]

variable (hm : opMisaligned a op = false)
include hm

theorem coreSram_refused (hp : (s.core k).pmpOk (opAddr a op) (opWidth op) (opAccess op) = false) :
    s.coreSram k a op = s.coreTrap k (opFault op) a := by
  unfold State.coreSram
  simp only [hr, hm, hp, Bool.not_true, Bool.not_false, Bool.false_eq_true, if_false, if_true]

variable (hp : (s.core k).pmpOk (opAddr a op) (opWidth op) (opAccess op) = true)
include hp

theorem coreSram_outside (hg : coreRegion (opAddr a op) = .other) : s.coreSram k a op = s.coreTrap k (opFault op) a := by
  unfold State.coreSram
  simp only [hr, hm, hp, hg, Bool.not_true, Bool.false_eq_true, if_false]

end

section
variable (hr : s.coreRuns k = true) (hm : a % max 1 n = 0)
include hr hm

section
variable (hp : (s.core k).pmpOk a n .read = true)
include hp

theorem coreSram_load_tcm (hg : coreRegion a = .tcm o) : s.coreSram k a (.load n) = match s.tcmRead k o n with
    | (some b, s) => s.coreDone k (some (leNat b))
    | (none, s) => s.coreTrap k .load a := by
  have hm : opMisaligned a (.load n) = false := by simp [opMisaligned, hm]
  unfold State.coreSram
  simp only [hr, hm, hp, hg, opAddr, opWidth, opAccess, opFault, Bool.not_true, Bool.false_eq_true, if_false] <;> rfl

theorem coreSram_load_sram (hg : coreRegion a = .uncached o) : s.coreSram k a (.load n) =
    if s.beatLocked none o n = true then s else match s.sramRead o n with
      | (some b, s) => s.coreDone k (some (leNat b))
      | (none, s) => s.coreTrap k .load a := by
  have hm : opMisaligned a (.load n) = false := by simp [opMisaligned, hm]
  unfold State.coreSram
  simp only [hr, hm, hp, hg, opAddr, opWidth, opAccess, opFault, Bool.not_true, Bool.false_eq_true, if_false] <;> rfl

theorem coreSram_load_line (hg : coreRegion a = .cached o) {l : CacheLine} (hl : s.line k false (a / 64) = l) (hd : l.data ≠ [])
    (hbad : l.bad = false) (hweak : l.weak = false) : s.coreSram k a (.load n) = s.coreDone k (some (num l.data (a % 64) n)) := by
  have hm : opMisaligned a (.load n) = false := by simp [opMisaligned, hm]
  have hthere := refillWaits_there hl hd hbad true (o / 64 * 64)
  rw [← cachedAccess_load hl hd hbad hweak true (o / 64 * 64) .fail]
  unfold State.coreSram
  simp only [hr, hm, hp, hg, opAddr, opWidth, opAccess, Bool.not_true, Bool.false_eq_true, if_false]
  exact if_neg (Bool.eq_false_iff.1 hthere)

end

section
variable (hp : (s.core k).pmpOk a n .write = true)
include hp

theorem coreSram_store_tcm (hg : coreRegion a = .tcm o) :
    s.coreSram k a (.store n v) = (s.tcmWrite k o (leBytes n v.toNat)).coreDone k none := by
  have hm : opMisaligned a (.store n v) = false := by simp [opMisaligned, hm]
  unfold State.coreSram
  simp only [hr, hm, hp, hg, opAddr, opWidth, opAccess, Bool.not_true, Bool.false_eq_true, if_false]

theorem coreSram_store_sram (hg : coreRegion a = .uncached o) (hb : s.beatLocked none o n = false) :
    s.coreSram k a (.store n v) = (s.sramWriteBy (some k) o (leBytes n v.toNat)).coreDone k none := by
  have hm : opMisaligned a (.store n v) = false := by simp [opMisaligned, hm]
  unfold State.coreSram
  simp only [hr, hm, hp, hg, State.coreWaits, hb, opAddr, opWidth, opAccess, Bool.not_true, Bool.false_eq_true, if_false]

end

end

/-! ## Atomics (R450, R468 to R471) -/

theorem atomicAt_uncached (hg : coreRegion a = .uncached o) : atomicAt k a = some (o / 64, true, o) := by
  unfold atomicAt
  rw [hg]

theorem atomicAt_elsewhere (hg : ∀ o, coreRegion a ≠ .tcm o ∧ coreRegion a ≠ .uncached o) : atomicAt k a = none := by
  unfold atomicAt
  split
  · exact absurd ‹_› (hg _).1
  · exact absurd ‹_› (hg _).2
  · rfl

/-- R471: the core's locked sequence is abandoned, and reported. -/
def State.coreAbandons (s : State) (k a : Nat) : State :=
  ((({ s with mem := { s.mem with abandons := s.mem.abandons + 1 } }).modCore k fun c => { c with lockAbandoned := true }).report (144 + k)).coreTrap k .store a

theorem coreAbandons_flag (s : State) (k a : Nat) : ((s.coreAbandons k a).core k).lockAbandoned = true := by
  unfold State.coreAbandons
  rw [coreTrap_core]
  exact congrArg Core.lockAbandoned (modCore_core _ k fun c => { c with lockAbandoned := true })

section
variable {w : AmoOp} (hr : s.coreRuns k = true) (ha : a % 4 = 0)
include hr ha

section
variable (hp : (s.core k).pmpOk a 4 .read = true) (hq : (s.core k).pmpOk a 4 .write = true)
include hp hq

theorem coreAmo_refused (hg : ∀ o, coreRegion a ≠ .tcm o ∧ coreRegion a ≠ .uncached o) : s.coreAmo k a w v = s.coreTrap k .store a := by
  unfold State.coreAmo
  simp only [hr, ha, hp, hq, atomicAt_elsewhere hg, Bool.not_true, Bool.or_false, ne_eq, not_true_eq_false, Bool.false_eq_true, if_false]

theorem coreAmo_sram (hg : coreRegion a = .uncached o) (hb : s.beatLocked none o 4 = false) : s.coreAmo k a w v = match s.sramRead o 4 with
    | (some b, s) => ((s.sramWriteBy (some k) o (leBytes 4 (AmoOp.apply w (BitVec.ofNat 32 (leNat b)) v).toNat)).lockCommits).coreDone k (some (leNat b))
    | (none, s) => s.coreAbandons k a := by
  unfold State.coreAmo
  simp only [hr, ha, hp, hq, atomicAt_uncached hg, State.coreWaits, hb, Bool.not_true, Bool.or_false, ne_eq, not_true_eq_false, Bool.false_eq_true,
    if_false] <;> rfl

end

theorem coreLr_sram (hp : (s.core k).pmpOk a 4 .read = true) (hg : coreRegion a = .uncached o) (hb : s.beatLocked none o 4 = false)
    (hx : s.sramRead o 4 = (some b, u)) :
    s.coreLr k a = (u.coreDone k (some (leNat b))).modCore k fun c => { c with resv := some (o / 64, u.now) } := by
  unfold State.coreLr
  simp only [hr, ha, hp, atomicAt_uncached hg, State.coreWaits, hb, hx, Bool.not_true, Bool.and_false, ne_eq, not_true_eq_false, Bool.false_eq_true,
    if_false, if_true]

/-- The core without its reservation. -/
def State.unreserved (s : State) (k : Nat) : State := s.modCore k fun c => { c with resv := none }

theorem coreSc_sram (hp : (s.core k).pmpOk a 4 .write = true) (hg : coreRegion a = .uncached o) (hb : s.beatLocked none o 4 = false) :
    s.coreSc k a v = if s.resvHolds k (o / 64) = true then
      (((s.unreserved k).sramWriteBy (some k) o (leBytes 4 v.toNat)).lockCommits).coreDone k (some 0)
      else (s.unreserved k).coreDone k (some 1) := by
  unfold State.coreSc
  simp only [hr, ha, hp, atomicAt_uncached hg, State.coreWaits, hb, Bool.not_true, Bool.and_false, ne_eq, not_true_eq_false, Bool.false_eq_true,
    if_false, if_true]
  cases s.resvHolds k (o / 64) <;> rfl

end

theorem resvHolds_iff {k beat : Nat} : s.resvHolds k beat = true ↔ ∃ r : Nat, (s.core k).resv = some (beat, r) ∧ (s.now : Nat) ≤ r + 2048 := by
  unfold State.resvHolds
  cases (s.core k).resv with
  | none => simp
  | some p =>
    obtain ⟨b, r⟩ := p
    rw [ns_eq]
    simp only [Bool.and_eq_true, decide_eq_true_eq, Option.some.injEq, Prod.mk.injEq, and_assoc, exists_eq_left', exists_and_left]

end

/-- Settles O43: an access by its region, an atomic by what its read gives and by the reservation that stands. -/
theorem coreAccessesReachTheirMemory : Obligations.CoreAccessesReachTheirMemory := by
  unfold Obligations.CoreAccessesReachTheirMemory
  have hexec (t : Time) (k : Fin 4) (a : Word) (op : CoreOp) (s : State) (hup : s.up = true) :
      exec (.coreSramAccess t k a op) s = .next ((s.arrive t).coreSram k a.toNat op) :=
    engineEvent_up (f := fun s => s.coreSram k a.toNat op) hup
  refine ⟨?_, fun s k x a => rfl, ?_, ?_, ?_, ?_, ?_⟩
  · intro t k a op s hup hr
    refine ⟨fun hm => ?_, fun hm hpg => ?_⟩
    · rw [hexec t k a op s hup, coreSram_misaligned (s := s.arrive t) hr hm]
    · rw [hexec t k a op s hup]
      by_cases hp : (s.core k).pmpOk (opAddr a.toNat op) (opWidth op) (opAccess op) = true
      · rw [coreSram_outside (s := s.arrive t) hr hm hp (hpg.resolve_left (by simp [hp]))]
      · rw [coreSram_refused (s := s.arrive t) hr hm (by simpa using hp)]
  · intro t k a n o v s hup hr hm
    refine ⟨fun hp => ⟨?_, ?_, ?_, ?_, ?_⟩, fun hp => ⟨?_, ?_⟩⟩
    · intro b s1 hg hx
      rw [hexec t k a _ s hup, coreSram_load_tcm (s := s.arrive t) hr hm hp hg, hx]
      rfl
    · intro s1 hg hx
      rw [hexec t k a _ s hup, coreSram_load_tcm (s := s.arrive t) hr hm hp hg, hx]
    · intro hg hb
      rw [hexec t k a _ s hup, coreSram_load_sram (s := s.arrive t) hr hm hp hg]
      exact congrArg _ (if_pos hb)
    · intro b s1 hg hb hx
      rw [hexec t k a _ s hup, coreSram_load_sram (s := s.arrive t) hr hm hp hg, hx]
      exact congrArg _ (if_neg (Bool.eq_false_iff.1 hb))
    · intro l hg hl hd hbad hweak
      rw [hexec t k a _ s hup, coreSram_load_line (s := s.arrive t) hr hm hp hg hl.symm hd hbad hweak]
      rfl
    · intro hg
      refine ⟨_, (hexec t k a _ s hup).trans (congrArg _ (coreSram_store_tcm (s := s.arrive t) hr hm hp hg)), coreDone_trap .., rfl, rfl⟩
    · intro hg hb
      refine ⟨_, (hexec t k a _ s hup).trans (congrArg _ (coreSram_store_sram (s := s.arrive t) hr hm hp hg hb)), coreDone_trap .., rfl, rfl, ?_⟩
      rw [coreDone_core, sramWriteBy_core]
      rfl
  · intro t k a op v s s1 o hup hr ha hp hq
    have hamo : exec (.coreAmo t k a op v) s = .next ((s.arrive t).coreAmo k a.toNat op v) :=
      engineEvent_up (f := fun s => s.coreAmo k a.toNat op v) hup
    refine ⟨fun hg => ?_, fun hg hb => ⟨fun b hx => ?_, fun hx => ?_⟩⟩
    · rw [hamo, coreAmo_refused (s := s.arrive t) hr ha hp hq hg]
    · have hread := sramRead_readOnly (s.arrive t) o 4
      rw [hx] at hread
      rw [hamo, coreAmo_sram (s := s.arrive t) hr ha hp hq hg hb, hx]
      exact ⟨_, rfl, congrArg (putBytes · _ _) hread.sram, congrArg Core.rd (coreDone_core ..), coreDone_trap .., congrArg (· + 1) hread.locks⟩
    · have hread := sramRead_readOnly (s.arrive t) o 4
      rw [hx] at hread
      rw [hamo, coreAmo_sram (s := s.arrive t) hr ha hp hq hg hb, hx]
      exact ⟨_, rfl, hread.sram, congrArg Core.trap (coreTrap_core ..), coreAbandons_flag .., congrArg (· + 1) hread.abandons,
        report_raises _ (by omega)⟩
  · intro old v
    refine ⟨rfl, rfl, rfl, rfl, rfl, ?_, ?_, ?_, ?_⟩
    · exact (apply_ite BitVec.toInt ..).trans (min_def ..).symm
    · exact (apply_ite BitVec.toInt ..).trans (max_def ..).symm
    · exact (apply_ite BitVec.toNat ..).trans (min_def ..).symm
    · exact (apply_ite BitVec.toNat ..).trans (max_def ..).symm
  · intro t k a s s1 b o hup hr ha hp hg hb hx
    have hread := sramRead_readOnly (s.arrive t) o 4
    have hnow := (kept_sramRead_of hx (.refl _)).now
    rw [hx] at hread
    refine ⟨_, (engineEvent_up (f := fun s => s.coreLr k a.toNat) hup).trans
      (congrArg _ (coreLr_sram (s := s.arrive t) hr ha hp hg hb hx)), ?_, ?_, ?_, hread.sram⟩
    · rw [modCore_core, coreDone_core]
    · rw [modCore_core, coreDone_core]
    · rw [modCore_core, hnow]
      rfl
  · intro t k a v s o hup hr ha hp hg hb
    refine ⟨_, (engineEvent_up (f := fun s => s.coreSc k a.toNat v) hup).trans
      (congrArg _ (coreSc_sram (s := s.arrive t) hr ha hp hg hb)), ?_⟩
    by_cases hh : (s.arrive t).resvHolds k (o / 64) = true
    · obtain ⟨r, hresv, hnow⟩ := resvHolds_iff.1 hh
      rw [if_pos hh]
      refine ⟨?_, coreDone_trap .., fun r _ _ => ⟨congrArg Core.rd (coreDone_core ..), rfl⟩, fun h => absurd (h r hresv) (Nat.not_lt.2 hnow)⟩
      rw [coreDone_core]
      exact congrArg Core.resv ((sramWriteBy_core ..).trans (modCore_core ..))
    · rw [if_neg hh]
      refine ⟨?_, coreDone_trap .., fun r hresv hnow => absurd (resvHolds_iff (s := s.arrive t).2 ⟨r, hresv, hnow⟩) hh, fun _ => ⟨congrArg Core.rd (coreDone_core ..), rfl⟩⟩
      rw [coreDone_core]
      exact congrArg Core.resv (modCore_core ..)

end Sys2Proof.Machine
end


section
/-! PROOFS. The maintenance of a core's caches (O44). -/

namespace Sys2Proof.Machine

/-! ## The field of a register a command is spoken for in -/

theorem fld_extract (w : Word) (lo n : Nat) : fld w lo n = (w.extractLsb' lo n).toNat := BitVec.extractLsb'_toNat .. |>.symm

/-- The lowest field of a word, once set. -/
theorem fld_setFld_low (w : Word) {n x : Nat} (hn : n ≤ 32) (hx : x < 2 ^ n) : fld (setFld w 0 n x) 0 n = x := by
  have h : (setFld w 0 n x).extractLsb' 0 n = BitVec.ofNat n x := by
    refine BitVec.eq_of_getLsbD_eq fun i hi => ?_
    have hi' : i < 32 := by omega
    simp only [setFld, wAt, Nat.mod_eq_of_lt hx, Nat.shiftLeft_zero, BitVec.getLsbD_extractLsb', BitVec.getLsbD_or, BitVec.getLsbD_and, BitVec.getLsbD_not,
      BitVec.getLsbD_ofNat, Nat.testBit_two_pow_sub_one, Nat.zero_add, hi, hi', decide_true, Bool.true_and, Bool.not_true, Bool.and_false, Bool.false_or]
  rw [fld_extract, h, BitVec.toNat_ofNat, Nat.mod_eq_of_lt hx]

/-- A field above the one that is set. -/
theorem fld_setFld_above (w : Word) {n x lo m : Nat} (hl : n ≤ lo) : fld (setFld w 0 n x) lo m = fld w lo m := by
  have h : (setFld w 0 n x).extractLsb' lo m = w.extractLsb' lo m := by
    refine BitVec.eq_of_getLsbD_eq fun i hi => ?_
    have hge : ¬ lo + i < n := by omega
    have hx : (x % 2 ^ n).testBit (lo + i) = false :=
      Nat.testBit_lt_two_pow (Nat.lt_of_lt_of_le (Nat.mod_lt _ (Nat.two_pow_pos n)) (Nat.pow_le_pow_right (by decide) (by omega)))
    simp only [setFld, wAt, Nat.shiftLeft_zero, BitVec.getLsbD_extractLsb', BitVec.getLsbD_or, BitVec.getLsbD_and, BitVec.getLsbD_not,
      BitVec.getLsbD_ofNat, Nat.testBit_two_pow_sub_one, hge, hx, decide_false, Bool.and_false, Bool.not_false, Bool.and_true, Bool.or_false]
    by_cases hw : lo + i < 32
    · rw [decide_eq_true hw, Bool.and_true]
    · rw [BitVec.getLsbD_of_ge _ _ (Nat.not_lt.1 hw), Bool.false_and]
  rw [fld_extract, h, ← fld_extract]

section
variable {s u : State} {k n : Nat} {l : List Nat} {x : CacheLine}

/-! ## A line that is written back, and what stands of it then (R455 to R457) -/

theorem writeBack_core (s : State) (k : Nat) (x : CacheLine) : (s.writeBack k x).core k = s.core k := by
  unfold State.writeBack
  split
  · rfl
  split
  · rfl
  split
  · exact sramWriteBy_core ..
  split <;> rfl

theorem line_of_core (h : u.core k = s.core k) (instr : Bool) (n : Nat) : u.line k instr n = s.line k instr n := by
  rw [State.line, h, State.line]

theorem setLine_line (s : State) (k : Nat) (i j : Bool) (n m : Nat) (x : CacheLine) :
    (s.setLine k i n x).line k j m = if j = i ∧ m = n then x else s.line k j m := by
  unfold State.line State.setLine
  rw [modCore_core]
  cases i <;> cases j <;> simp [tget_tput]

/-- A line of the data cache once it is cleaned, or discarded, or both. -/
def CacheLine.kept (x : CacheLine) (clean discard : Bool) : CacheLine :=
  if !x.there then x else if discard || (clean && x.bad && x.dirty) then {} else { x with dirty := x.dirty && !clean }

theorem CacheLine.kept_kept (x : CacheLine) (clean discard : Bool) : (x.kept clean discard).kept clean discard = x.kept clean discard := by
  unfold CacheLine.kept
  cases ht : x.there with
  | false => simp [ht]
  | true =>
    by_cases hd : (discard || (clean && x.bad && x.dirty)) = true
    · simp [hd, CacheLine.there]
    · have hthere : ({ x with dirty := x.dirty && !clean } : CacheLine).there = true := ht
      simp only [Bool.not_true, Bool.false_eq_true, if_false, hd, hthere]
      have hd' : (discard || (clean && x.bad && (x.dirty && !clean))) = false := by
        revert hd
        cases discard <;> cases clean <;> simp
      rw [hd']
      cases clean <;> simp

theorem CacheLine.kept_true (x : CacheLine) (clean : Bool) : (x.kept clean true).there = false := by
  unfold CacheLine.kept
  cases ht : x.there with
  | false => exact ht
  | true => rfl

theorem CacheLine.kept_clean (ht : x.there = true) (hb : x.bad = false) : x.kept true false = { x with dirty := false } := by
  simp [CacheLine.kept, ht, hb]

/-- One line of the data cache maintained. -/
def State.dataLine (s : State) (k : Nat) (clean discard : Bool) (n : Nat) : State :=
  let x := s.line k false n
  if !x.there then s
  else
    let s := if clean then s.writeBack k x else s
    if discard || (clean && x.bad && x.dirty) then s.setLine k false n {}
    else s.setLine k false n { x with dirty := x.dirty && !clean }

theorem dataLines_eq (s : State) (k : Nat) (l : List Nat) (clean discard : Bool) :
    s.dataLines k l clean discard = l.foldl (fun s n => s.dataLine k clean discard n) s := rfl

theorem dataLine_line (s : State) (k : Nat) (clean discard : Bool) (n : Nat) (i : Bool) (m : Nat) :
    (s.dataLine k clean discard n).line k i m = if i = false ∧ m = n then (s.line k false n).kept clean discard else s.line k i m := by
  unfold State.dataLine CacheLine.kept
  dsimp only
  by_cases ht : (!(s.line k false n).there) = true
  · rw [if_pos ht, if_pos ht]
    split
    · next h => rw [h.1, h.2]
    · rfl
  · rw [if_neg ht, if_neg ht]
    have hw (j m) : (if clean then s.writeBack k (s.line k false n) else s).line k j m = s.line k j m := by
      split
      · exact line_of_core (writeBack_core ..) ..
      · rfl
    split <;> rw [setLine_line, hw]

theorem dataLines_other (clean discard : Bool) (i : Bool) {m : Nat} (h : i = true ∨ m ∉ l) :
    (s.dataLines k l clean discard).line k i m = s.line k i m := by
  rw [dataLines_eq]
  refine List.foldlRecOn (motive := fun u : State => u.line k i m = s.line k i m) _ _ rfl fun u hu n hn => ?_
  rw [dataLine_line, if_neg ?_, hu]
  rintro ⟨rfl, rfl⟩
  exact h.elim (by decide) fun hm => hm hn

theorem dataLines_listed (clean discard : Bool) {m : Nat} (h : m ∈ l) :
    (s.dataLines k l clean discard).line k false m = (s.line k false m).kept clean discard := by
  induction l generalizing s with
  | nil => cases h
  | cons n r ih =>
    have hstep : s.dataLines k (n :: r) clean discard = (s.dataLine k clean discard n).dataLines k r clean discard := rfl
    rw [hstep]
    by_cases hr : m ∈ r
    · rw [ih hr, dataLine_line]
      split
      · next h => rw [h.2, CacheLine.kept_kept]
      · rfl
    · have hm : m = n := (List.mem_cons.1 h).resolve_right hr
      rw [dataLines_other _ _ _ (.inr hr), dataLine_line, if_pos ⟨rfl, hm⟩, hm]

theorem dataLines_unwritten (discard : Bool) :
    (s.dataLines k l false discard).mem = s.mem ∧ (s.dataLines k l false discard).out = s.out := by
  rw [dataLines_eq]
  refine List.foldlRecOn (motive := fun u : State => u.mem = s.mem ∧ u.out = s.out) _ _ ⟨rfl, rfl⟩ fun u hu n _ => ?_
  have h : (u.dataLine k false discard n).mem = u.mem ∧ (u.dataLine k false discard n).out = u.out := by
    unfold State.dataLine
    dsimp only
    split
    · exact ⟨rfl, rfl⟩
    · split <;> exact ⟨rfl, rfl⟩
  rwa [h.1, h.2]

theorem instrLines_line (s : State) (k : Nat) (l : List Nat) (i : Bool) (m : Nat) :
    (s.instrLines k l).line k i m = if i = true ∧ m ∈ l then {} else s.line k i m := by
  unfold State.instrLines
  induction l generalizing s with
  | nil => simp
  | cons n r ih =>
    rw [List.foldl_cons, ih, setLine_line]
    by_cases hi : i = true <;> by_cases hr : m ∈ r <;> by_cases hm : m = n <;> simp [hi, hr, hm]

theorem instrLines_mem (s : State) (k : Nat) (l : List Nat) : (s.instrLines k l).mem = s.mem :=
  foldl_keeps State.mem (f := fun s n => s.setLine k true n {}) (fun _ _ => rfl) l s

/-! ## CMO_OP (R457, R458, R469) -/

section
variable {m : Ident} {v : Word}

theorem cmo_foreign (h : m ≠ coreId k) : s.cmo m k v = s := if_pos h

theorem cmo_whole (hm : m = coreId k) {op : Nat} (ho : fld v 0 3 = op) (h : op = 5 ∨ op = 6) : s.cmo m k v =
    if ((s.core k).dcache.map (·.1)).any (s.backWaits k) = true then s else s.dataLines k ((s.core k).dcache.map (·.1)) true (op = 6) := by
  unfold State.cmo
  simp only [hm, ho, ne_eq, not_true_eq_false, if_false]
  exact if_pos (by simpa using h)

section
variable {op : Nat} (hm : m = coreId k) (ho : fld v 0 3 = op) (h : op = 1 ∨ op = 2 ∨ op = 3 ∨ op = 4)
include hm ho h

theorem cmo_tcm (hn : (s.core k).cmoAddr.toNat / 64 + (fld v 16 9 + 1) ≤ 0x800) : s.cmo m k v = s := by
  unfold State.cmo
  simp only [hm, ho, ne_eq, not_true_eq_false, if_false]
  rw [if_neg (by rcases h with rfl | rfl | rfl | rfl <;> decide), if_neg (by rcases h with rfl | rfl | rfl | rfl <;> decide)]
  exact if_pos hn

theorem cmo_lines (hn : 0x800 < (s.core k).cmoAddr.toNat / 64 + (fld v 16 9 + 1))
    (hl : l = (List.range (fld v 16 9 + 1)).map (· + (s.core k).cmoAddr.toNat / 64)) : s.cmo m k v =
      if l.all lineCached = false then s.setCore k { s.core k with cmoRej := true }
      else if op = 4 then s.instrLines k l else if op = 2 then s.dataLines k l false true
      else if l.any (s.backWaits k) then s else s.dataLines k l true (op = 3) := by
  unfold State.cmo
  simp only [hm, ho, ne_eq, not_true_eq_false, if_false]
  rw [if_neg (by rcases h with rfl | rfl | rfl | rfl <;> decide), if_neg (by rcases h with rfl | rfl | rfl | rfl <;> decide)]
  refine (if_neg (Nat.not_le.2 hn)).trans ?_
  subst hl
  cases hc : ((List.range (fld v 16 9 + 1)).map (· + (s.core k).cmoAddr.toNat / 64)).all lineCached with
  | false => exact if_pos (by rw [lineOf, hc]; rfl)
  | true =>
    refine (if_neg (by rw [lineOf, hc]; decide)).trans ?_
    rcases h with rfl | rfl | rfl | rfl <;> rfl

end
end

theorem backWaits_iff : s.backWaits k n = true ↔
    (s.line k false n).dirty = true ∧ (s.line k false n).phy = true ∧ s.beatLocked none (s.line k false n).addr 64 = true := by
  unfold State.backWaits
  simp only [State.coreWaits, Bool.and_eq_true, and_assoc]

end

/-- Settles O44: the operation by its field, and each line it names by what stands of it. -/
theorem cachesAreMaintainedByTheirCore : Obligations.CachesAreMaintainedByTheirCore := by
  unfold Obligations.CachesAreMaintainedByTheirCore
  have hexec (t : Time) (m : Ident) (k : Fin 4) (v : Word) (op : Nat) (s : State) (hs : s.serves (coreOfs k + 0x10) = true) :
      cmoWrite t m k v op s = .next ((s.arrive t).cmo m k (setFld v 0 3 op)) :=
    regWrite_serves (f := fun s => s.cmo m k (setFld v 0 3 op)) hs
  refine ⟨?_, ?_, fun s k n => backWaits_iff, ?_, ?_, ?_⟩
  · intro t m k v s i op n l hs hi hn hl
    have hop : op = 1 ∨ op = 2 ∨ op = 3 ∨ op = 4 := by
      rcases hi with ⟨_, h⟩ | ⟨_, h⟩ | ⟨_, h⟩ | ⟨_, h⟩ <;> simp [h]
    have hcmo : exec i s = .next ((s.arrive t).cmo m k (setFld v 0 3 op)) := by
      rcases hi with ⟨rfl, rfl⟩ | ⟨rfl, rfl⟩ | ⟨rfl, rfl⟩ | ⟨rfl, rfl⟩ <;> exact hexec t m k v _ s hs
    have hlow : fld (setFld v 0 3 op) 0 3 = op := fld_setFld_low v (by decide) (by omega)
    have hcount : fld (setFld v 0 3 op) 16 9 = fld v 16 9 := fld_setFld_above v (by decide)
    subst hn
    rw [hcmo]
    refine ⟨fun h => ?_, fun hm hlt => ?_⟩
    · by_cases hm : m = coreId k
      · rw [cmo_tcm (s := s.arrive t) hm hlow hop (by rw [hcount]; exact h.resolve_left (not_not_intro hm))]
      · rw [cmo_foreign hm]
    · rw [cmo_lines (s := s.arrive t) hm hlow hop (l := l) (by rw [hcount]; exact hlt) (by rw [hcount]; exact hl)]
      exact ⟨fun hc => congrArg _ (if_pos hc), fun hc => congrArg _ (if_neg (by rw [hc]; decide))⟩
  · intro t m k v s hs
    have hwhole (op : Nat) (h : op = 5 ∨ op = 6) : cmoWrite t m k v op s = .next (if m = coreId k ∧
        ¬((s.core k).dcache.map (·.1)).any (s.backWaits k) then (s.arrive t).dataLines k ((s.core k).dcache.map (·.1)) true (op = 6) else s.arrive t) := by
      rw [hexec t m k v op s hs]
      by_cases hm : m = coreId k
      · rw [cmo_whole (s := s.arrive t) hm (fld_setFld_low v (by decide) (by omega)) h]
        refine congrArg Host.Outcome.next ?_
        by_cases hw : ((s.core k).dcache.map (·.1)).any (s.backWaits k) = true
        · exact (if_pos hw).trans (if_neg fun h => h.2 hw).symm
        · exact (if_neg hw).trans (if_pos ⟨hm, hw⟩).symm
      · rw [cmo_foreign hm, if_neg fun h => hm h.1]
    exact ⟨hwhole 5 (.inl rfl), hwhole 6 (.inr rfl)⟩
  · rintro s _ k l clean discard rfl
    refine ⟨fun n hn => dataLines_other _ _ _ (.inr hn), fun n => dataLines_other _ _ _ (.inl rfl), fun n hn hd => ?_, fun n hn hc hd ht hb => ?_, ?_⟩
    · rw [dataLines_listed _ _ hn, hd, CacheLine.kept_true]
    · rw [dataLines_listed _ _ hn, hc, hd, CacheLine.kept_clean ht hb]
    · rintro rfl
      exact dataLines_unwritten discard
  · rintro s _ k l rfl
    refine ⟨fun n hn => ?_, fun n hn => ?_, fun n => ?_, instrLines_mem ..⟩
    · rw [instrLines_line, if_pos ⟨rfl, hn⟩]
    · rw [instrLines_line, if_neg fun h => hn h.2]
    · rw [instrLines_line, if_neg fun h => Bool.false_ne_true h.1]
  · intro s k l
    unfold State.writeBack
    refine ⟨fun hd => ?_, fun hd hb => ?_, fun hd hb hp => ?_, fun hd hb hp hl => ?_⟩
    · simp only [hd, Bool.not_false, if_true]
    · simp only [hd, hb, Bool.not_true, Bool.false_eq_true, if_false, if_true]
    · simp only [hd, hb, hp, Bool.not_true, Bool.false_eq_true, if_false, if_true]
    · simp only [hd, hb, hp, hl, Bool.not_true, Bool.false_eq_true, if_false, if_true]

end Sys2Proof.Machine
end


section
/-! PROOFS. The delivery of interrupts to the host and to the cores (O40). -/

namespace Sys2Proof.Machine

/-! ## A table whose keys rise -/

section
variable {α : Type} {d : α} {t : Tab α} (ht : t.Pairwise fun a b => a.1 < b.1)
include ht

theorem tget_of_mem_sorted {p : Nat × α} (hp : p ∈ t) : tget d t p.1 = p.2 := by
  induction t with
  | nil => cases hp
  | cons x r ih =>
    obtain ⟨hx, hr⟩ := List.pairwise_cons.1 ht
    rcases List.mem_cons.1 hp with rfl | hm
    · exact if_pos rfl
    · exact (if_neg (Nat.ne_of_lt (hx _ hm))).trans (ih hr hm)

/-- The first entry that meets `P` is the one of the lowest key. -/
theorem find_sorted {P : α → Bool} {v : Nat} (hv : P (tget d t v) = true) (hd : P d = false) (hlt : ∀ j < v, P (tget d t j) = false) :
    t.find? (fun p => P p.2) = some (v, tget d t v) := by
  induction t with
  | nil => exact absurd hv (by simp [hd])
  | cons x r ih =>
    obtain ⟨hx, hr⟩ := List.pairwise_cons.1 ht
    obtain ⟨j, c⟩ := x
    by_cases hj : j = v
    · subst hj
      have hc : tget d ((j, c) :: r) j = c := if_pos rfl
      rw [hc] at hv ⊢
      exact List.find?_cons_of_pos hv
    · have hget (i) (h : j ≠ i) : tget d ((j, c) :: r) i = tget d r i := if_neg h
      rw [hget v hj] at hv ⊢
      have hjv : j < v := by
        refine Nat.lt_of_le_of_ne (Nat.le_of_not_lt fun hlt => ?_) hj
        have : tget d r v = d := tget_of_not_mem d fun hm => by
          obtain ⟨p, hp, hpv⟩ := List.mem_map.1 hm
          have := hx p hp
          omega
        rw [this, hd] at hv
        cases hv
      have hc : tget d ((j, c) :: r) j = c := if_pos rfl
      have hcf := hlt j hjv
      rw [hc] at hcf
      rw [List.find?_cons_of_neg (by simp [hcf])]
      refine ih hr hv fun i hi => ?_
      by_cases hji : j = i
      · rw [← hji, tget_of_not_mem d fun hm => ?_, hd]
        obtain ⟨p, hp, hpv⟩ := List.mem_map.1 hm
        have := hx p hp
        omega
      · rw [← hget i hji]
        exact hlt i hi

end

section
variable {s : State} {i j k v : Nat} {c : CicSrc} {m : Ident} {w : Word}

/-! ## MSI-X (R419) -/

theorem nextVec_lowest (ht : s.irq.vecs.Pairwise fun a b => a.1 < b.1) (hp : (s.vec v).pend = true) (hm : bit (s.vec v).ctrl 0 = false)
    (hlt : ∀ j < v, (s.vec j).pend = true → bit (s.vec j).ctrl 0 = true) : s.nextVec = some v := by
  refine congrArg (Option.map Prod.fst) (find_sorted (d := ({} : Msix)) (P := fun x => x.pend && !bit x.ctrl 0) (v := v) ht ?_ rfl fun j hj => ?_)
  · exact (congrArg₂ (fun a b => a && !b) hp hm)
  · change ((s.vec j).pend && !bit (s.vec j).ctrl 0) = false
    have h := hlt j hj
    revert h
    cases (s.vec j).pend <;> simp

theorem nextVec_none (ht : s.irq.vecs.Pairwise fun a b => a.1 < b.1) (hv : ∀ v, (s.vec v).pend = true → bit (s.vec v).ctrl 0 = true) :
    s.nextVec = none := by
  unfold State.nextVec
  rw [List.find?_eq_none.2, Option.map_none]
  intro p hp
  rw [← tget_of_mem_sorted (d := ({} : Msix)) ht hp]
  have h := hv p.1
  change ¬((s.vec p.1).pend && !bit (s.vec p.1).ctrl 0) = true
  revert h
  cases (s.vec p.1).pend <;> simp

theorem msixIssue_shut (h : s.irq.open_ = false ∨ s.irq.msiAt = some (cyc s.now)) : s.msixIssue = s := by
  refine if_pos ?_
  rcases h with h | h <;> simp [h]

theorem msixIssue_none (h : s.nextVec = none) : s.msixIssue = s := by
  unfold State.msixIssue
  rw [h]
  exact ite_self ..

theorem msixIssue_leaves (ho : s.irq.open_ = true) (ha : s.irq.msiAt ≠ some (cyc s.now)) (h : s.nextVec = some v) : s.msixIssue =
    ({ s.setVec v { s.vec v with pend := false } with irq.msiAt := some (cyc s.now) } : State).emit
      (.msi (BitVec.ofNat 64 ((s.vec v).addrLo.toNat + (s.vec v).addrHi.toNat * 2 ^ 32)) (s.vec v).data) := by
  unfold State.msixIssue
  rw [h]
  exact if_neg (by simp [ho, ha])

/-! ## Delivery (R424, R425) -/

theorem wakeCore_cic (s : State) (k i : Nat) : (s.wakeCore k).cic i = s.cic i := by
  unfold State.wakeCore
  split <;> rfl

theorem cicCore_none (h : ∀ k < 4, s.cicEligible c k = false) : s.cicCore c = none := by
  have hmod (n : Nat) : s.cicEligible c (n % 4) = false := h _ (Nat.mod_lt _ (by decide))
  unfold State.cicCore
  cases c.anyOf with
  | false => simp [h]
  | true => simp [hmod]

theorem cicCore_first (ha : c.anyOf = false) (hk : k < 4) (h : s.cicEligible c k = true) (hlt : ∀ j < k, s.cicEligible c j = false) :
    s.cicCore c = some k := by
  have hlist : (if c.anyOf then [c.rr + 1, c.rr + 2, c.rr + 3, c.rr + 4].map (· % 4) else [0, 1, 2, 3]) = [0, 1, 2, 3] := by simp [ha]
  unfold State.cicCore
  rw [hlist]
  match k, hk with
  | 0, _ => simp [h]
  | 1, _ => simp [h, hlt]
  | 2, _ => simp [h, hlt]
  | 3, _ => simp [h, hlt]

theorem cicCore_next {d : Nat} (ha : c.anyOf = true) (h1 : 1 ≤ d) (h4 : d ≤ 4) (h : s.cicEligible c ((c.rr + d) % 4) = true)
    (hlt : ∀ e, 1 ≤ e → e < d → s.cicEligible c ((c.rr + e) % 4) = false) : s.cicCore c = some ((c.rr + d) % 4) := by
  have hlist : (if c.anyOf then [c.rr + 1, c.rr + 2, c.rr + 3, c.rr + 4].map (· % 4) else [0, 1, 2, 3]) =
      [(c.rr + 1) % 4, (c.rr + 2) % 4, (c.rr + 3) % 4, (c.rr + 4) % 4] := by simp [ha]
  unfold State.cicCore
  rw [hlist]
  match d, h1, h4 with
  | 1, _, _ => simp only [List.find?, h]
  | 2, _, _ => simp only [List.find?, h, hlt 1 (by decide) (by decide)]
  | 3, _, _ => simp only [List.find?, h, hlt 1 (by decide) (by decide), hlt 2 (by decide) (by decide)]
  | 4, _, _ => simp only [List.find?, h, hlt 1 (by decide) (by decide), hlt 2 (by decide) (by decide), hlt 3 (by decide) (by decide)]

theorem cicDeliver_rests (hc : s.cic i = c) (h : s.cicPend i = false ∨ c.bound = true ∨ c.active = true ∨ c.prio = 0 ∨ ∀ k < 4, s.cicEligible c k = false) :
    s.cicDeliver i = s := by
  subst hc
  unfold State.cicDeliver
  rcases h with h | h | h | h | h
  · exact if_pos (by simp [h])
  · exact if_pos (by simp [h])
  · exact if_pos (by simp [h])
  · exact if_pos (by simp [h])
  · dsimp only
    rw [cicCore_none h]
    exact ite_self ..

theorem cicDeliver_binds (hc : s.cic i = c) (hp : s.cicPend i = true) (hb : c.bound = false) (ha : c.active = false) (h0 : c.prio ≠ 0)
    (hk : s.cicCore c = some k) :
    s.cicDeliver i = (s.setCic i { c with pend := false, bound := true, core := k, rr := if c.anyOf then k else c.rr }).wakeCore k := by
  subst hc
  unfold State.cicDeliver
  dsimp only
  rw [hk]
  exact if_neg (by simp [hp, hb, ha, h0])

theorem cicDeliver_cic (hc : s.cic i = c) (hp : s.cicPend i = true) (hb : c.bound = false) (ha : c.active = false) (h0 : c.prio ≠ 0)
    (hk : s.cicCore c = some k) {r : Nat} (hr : (if c.anyOf then k else c.rr) = r) :
    (s.cicDeliver i).cic i = { c with pend := false, bound := true, core := k, rr := r } ∧
      ∀ j, j ≠ i → (s.cicDeliver i).cic j = s.cic j := by
  rw [cicDeliver_binds hc hp hb ha h0 hk, hr]
  refine ⟨?_, fun j hj => ?_⟩
  · rw [wakeCore_cic, State.setCic_cic, if_pos rfl]
  · rw [wakeCore_cic, State.setCic_cic, if_neg hj]

/-! ## Software set and clear (R423) -/

/-- A fold of one source each, over a list of sources. -/
theorem foldl_cic {f : State → Nat → State} {g : Nat → CicSrc → CicSrc} (hf : ∀ s i j, (f s i).cic j = if j = i then g j (s.cic j) else s.cic j)
    (hg : ∀ j c, g j (g j c) = g j c) (l : List Nat) (s : State) (j : Nat) :
    (l.foldl f s).cic j = if j ∈ l then g j (s.cic j) else s.cic j := by
  induction l generalizing s with
  | nil => rfl
  | cons i r ih =>
    rw [List.foldl_cons, ih, hf]
    by_cases hr : j ∈ r <;> by_cases hi : j = i <;> simp [hr, hi, hg]

theorem mem_word {w : Word} : j ∈ (ones w).map (32 * i + ·) ↔ j / 32 = i ∧ bit w (j % 32) = true := by
  simp only [ones, List.mem_map, List.mem_filter, List.mem_range]
  constructor
  · rintro ⟨x, ⟨hx, hb⟩, rfl⟩
    have hd : (32 * i + x) / 32 = i := by omega
    have hm : (32 * i + x) % 32 = x := by omega
    exact ⟨hd, by rw [hm]; exact hb⟩
  · rintro ⟨hd, hb⟩
    exact ⟨j % 32, ⟨Nat.mod_lt _ (by decide), hb⟩, by omega⟩

/-- R423: a source that is set pending. -/
def CicSrc.edged (c : CicSrc) (j : Nat) : CicSrc := if cicReserved j then c else { c with pend := true }

/-- R423: a source that is cleared. -/
def CicSrc.cleared (c : CicSrc) : CicSrc := if c.bound then c else { c with pend := false }

theorem cicEdge_cic (s : State) (i j : Nat) : (s.cicEdge i).cic j = if j = i then (s.cic j).edged j else s.cic j := by
  unfold State.cicEdge CicSrc.edged
  by_cases hj : j = i
  · subst hj
    cases cicReserved j with
    | true => simp
    | false => simp
  · cases cicReserved i with
    | true => simp [hj]
    | false => simp [hj]

theorem cicSet_cic (s : State) (i : Nat) (w : Word) (j : Nat) : (s.cicSet i w).cic j =
    if j / 32 = i ∧ bit w (j % 32) = true ∧ cicReserved j = false then { s.cic j with pend := true } else s.cic j := by
  have hfold : s.cicSet i w = ((ones w).map (32 * i + ·)).foldl (fun s j => s.cicEdge j) s := (List.foldl_map ..).symm
  rw [hfold, foldl_cic (g := fun j c => c.edged j) cicEdge_cic fun j c => ?_]
  · by_cases hm : j ∈ (ones w).map (32 * i + ·)
    · obtain ⟨hd, hb⟩ := mem_word.1 hm
      rw [if_pos hm]
      cases hr : cicReserved j <;> simp [CicSrc.edged, hd, hb, hr]
    · rw [if_neg hm, if_neg fun h => hm (mem_word.2 ⟨h.1, h.2.1⟩)]
  · unfold CicSrc.edged
    cases cicReserved j <;> rfl

/-- R423: one source cleared. -/
def State.cicClearOne (s : State) (i : Nat) : State := if (s.cic i).bound then s else s.setCic i { s.cic i with pend := false }

theorem cicClear_cic (s : State) (i : Nat) (w : Word) (j : Nat) : (s.cicClear i w).cic j =
    if j / 32 = i ∧ bit w (j % 32) = true ∧ (s.cic j).bound = false then { s.cic j with pend := false } else s.cic j := by
  have hfold : s.cicClear i w = ((ones w).map (32 * i + ·)).foldl State.cicClearOne s :=
    (List.foldl_map (f := (32 * i + ·)) (g := State.cicClearOne)).symm
  rw [hfold, foldl_cic (g := fun _ c => c.cleared) (fun s i j => ?_) fun j c => ?_]
  · by_cases hm : j ∈ (ones w).map (32 * i + ·)
    · obtain ⟨hd, hb⟩ := mem_word.1 hm
      rw [if_pos hm]
      cases hr : (s.cic j).bound <;> simp [CicSrc.cleared, hd, hb, hr]
    · rw [if_neg hm, if_neg fun h => hm (mem_word.2 ⟨h.1, h.2.1⟩)]
  · unfold CicSrc.cleared State.cicClearOne
    by_cases hj : j = i
    · subst hj
      cases hb : (s.cic j).bound <;> simp [hb]
    · cases (s.cic i).bound <;> simp [hj]
  · unfold CicSrc.cleared
    cases hb : c.bound <;> simp [hb]

/-! ## Claim and complete (R426, R428) -/

/-- The better of the best source so far and one more entry of the table. -/
def claimBest (k : Nat) (b : Option (Nat × Nat)) (p : Nat × CicSrc) : Option (Nat × Nat) :=
  if p.2.bound && p.2.core = k then
    (match b with
     | some (q, _) => if q < p.2.prio then some (p.2.prio, p.1) else b
     | none => some (p.2.prio, p.1))
  else b

theorem cicBest_eq (s : State) (k : Nat) : s.cicBest k = (s.irq.srcs.foldl (claimBest k) none).map (·.2) := rfl

theorem claimBest_other {p : Nat × CicSrc} (h : ¬(p.2.bound = true ∧ p.2.core = k)) (b : Option (Nat × Nat)) : claimBest k b p = b :=
  if_neg (by simpa using h)

theorem claimBest_bound {p : Nat × CicSrc} (hb : p.2.bound = true) (hc : p.2.core = k) {b : Option (Nat × Nat)} (h : ∀ x ∈ b, x.1 < p.2.prio) :
    claimBest k b p = some (p.2.prio, p.1) := by
  refine (if_pos (by simp [hb, hc])).trans ?_
  match b with
  | none => rfl
  | some (q, y) => exact if_pos (h _ rfl)

theorem claimBest_keeps {p : Nat × CicSrc} {q : Nat × Nat} (h : p.2.bound = true → p.2.core = k → p.2.prio ≤ q.1) : claimBest k (some q) p = some q := by
  by_cases hp : p.2.bound = true ∧ p.2.core = k
  · exact (if_pos (by simp [hp])).trans (if_neg (Nat.not_lt.2 (h hp.1 hp.2)))
  · exact claimBest_other hp _

/-- Sources below priority `n` put none of at least that priority first. -/
theorem foldl_claimBest_below {n : Nat} (l : List (Nat × CicSrc)) (h : ∀ p ∈ l, p.2.bound = true → p.2.core = k → p.2.prio < n) :
    ∀ x ∈ l.foldl (claimBest k) none, x.1 < n := by
  refine List.foldlRecOn (motive := fun b : Option (Nat × Nat) => ∀ x ∈ b, x.1 < n) _ _ (by simp) fun b hb p hp => ?_
  unfold claimBest
  split
  · next hbc =>
    have hlt := h p hp (by simp_all) (by simp_all)
    split
    · split
      · rintro _ ⟨⟩
        exact hlt
      · exact hb
    · rintro _ ⟨⟩
      exact hlt
  · exact hb

theorem cicBest_none (ht : s.irq.srcs.Pairwise fun a b => a.1 < b.1) (h : ∀ i, (s.cic i).bound = true → (s.cic i).core ≠ k) : s.cicBest k = none := by
  rw [cicBest_eq]
  refine (congrArg _ ?_).trans (Option.map_none _)
  refine List.foldlRecOn (motive := fun b : Option (Nat × Nat) => b = none) _ _ rfl fun b hb p hp => ?_
  rw [claimBest_other, hb]
  rw [← tget_of_mem_sorted (d := ({} : CicSrc)) ht hp]
  exact fun hx => h p.1 hx.1 hx.2

theorem cicBest_highest (ht : s.irq.srcs.Pairwise fun a b => a.1 < b.1) (hb : (s.cic i).bound = true) (hc : (s.cic i).core = k)
    (h : ∀ j, (s.cic j).bound = true → (s.cic j).core = k → (s.cic j).prio < (s.cic i).prio ∨ (s.cic j).prio = (s.cic i).prio ∧ i ≤ j) :
    s.cicBest k = some i := by
  have hget {p} (hp : p ∈ s.irq.srcs) : s.cic p.1 = p.2 := tget_of_mem_sorted ht hp
  have hmem : (i, s.cic i) ∈ s.irq.srcs := by
    by_contra hn
    have hkey : i ∉ s.irq.srcs.map (·.1) := fun hm => by
      obtain ⟨p, hp, rfl⟩ := List.mem_map.1 hm
      exact hn (by rw [hget hp]; exact hp)
    have hd : s.cic i = {} := tget_of_not_mem _ hkey
    rw [hd] at hb
    cases hb
  obtain ⟨l, r, hl⟩ := List.append_of_mem hmem
  have hbefore {p} (hp : p ∈ l) : p.1 < i := by
    rw [hl] at ht
    exact (List.pairwise_append.1 ht).2.2 p hp _ (List.mem_cons_self ..)
  rw [cicBest_eq, hl, List.foldl_append, List.foldl_cons]
  have hat : claimBest k (l.foldl (claimBest k) none) (i, s.cic i) = some ((s.cic i).prio, i) := by
    refine claimBest_bound hb hc (foldl_claimBest_below l fun p hp hpb hpc => ?_)
    have hp' : s.cic p.1 = p.2 := hget (by rw [hl]; exact List.mem_append_left _ hp)
    have hlt := hbefore hp
    rcases h p.1 (by rw [hp']; exact hpb) (by rw [hp']; exact hpc) with hx | hx
    · rwa [hp'] at hx
    · exact absurd hx.2 (Nat.not_le.2 hlt)
  rw [hat]
  refine congrArg (Option.map Prod.snd) (List.foldlRecOn (motive := fun b => b = some ((s.cic i).prio, i)) _ _ rfl fun b hbest p hp => ?_)
  have hp' : s.cic p.1 = p.2 := hget (by rw [hl]; exact List.mem_append_right _ (List.mem_cons_of_mem _ hp))
  rw [hbest]
  refine claimBest_keeps fun hpb hpc => ?_
  rcases h p.1 (by rw [hp']; exact hpb) (by rw [hp']; exact hpc) with hx | hx <;> rw [hp'] at hx
  · exact Nat.le_of_lt hx
  · exact Nat.le_of_eq hx.1

end

/-- Settles O40: the message by the lowest vector, a delivery by the core it finds, a claim by the source that leads. -/
theorem interruptsAreDeliveredOnce : Obligations.InterruptsAreDeliveredOnce := by
  unfold Obligations.InterruptsAreDeliveredOnce
  refine ⟨?_, ?_, ?_, ?_, ?_⟩
  · intro t s hup
    have hexec : exec (.msixIssue t) s = .next (s.arrive t).msixIssue := engineEvent_up hup
    refine ⟨fun h ht => ?_, fun v ho ha ht hp hm hlt => ?_⟩
    · rw [hexec]
      rcases h with h | h | h
      · rw [msixIssue_shut (s := s.arrive t) (.inl h)]
      · rw [msixIssue_shut (s := s.arrive t) (.inr h)]
      · rw [msixIssue_none (nextVec_none (s := s.arrive t) ht h)]
    · rw [hexec, msixIssue_leaves (s := s.arrive t) ho ha (nextVec_lowest (s := s.arrive t) ht hp hm hlt)]
      rfl
  · rintro t i s _ hup rfl
    have hexec : exec (.cicDeliver t i) s = .next ((s.arrive t).cicDeliver i) := engineEvent_up (f := fun s => s.cicDeliver i) hup
    refine ⟨fun h => ?_, fun k hk hp hb ha h0 he => ⟨fun hany hlt => ⟨_, hexec, ?_⟩, fun d hany h1 h4 hkd hlt => ⟨_, hexec, ?_⟩⟩⟩
    · rw [hexec, cicDeliver_rests (s := s.arrive t) rfl h]
    · have hcore : (s.arrive t).cicCore (s.cic i) = some k := cicCore_first hany hk he hlt
      exact cicDeliver_cic (s := s.arrive t) rfl hp hb ha h0 hcore (if_neg (by simp [hany]))
    · subst hkd
      have hcore : (s.arrive t).cicCore (s.cic i) = some (((s.cic i).rr + d) % 4) := cicCore_next hany h1 h4 he hlt
      exact cicDeliver_cic (s := s.arrive t) rfl hp hb ha h0 hcore (if_pos hany)
  · intro t m w v s
    exact ⟨fun hs => ⟨_, regWrite_serves (f := fun s => s.cicSet w v) hs, cicSet_cic (s.arrive t) w v⟩,
      fun hs => ⟨_, regWrite_serves (f := fun s => s.cicClear w v) hs, cicClear_cic (s.arrive t) w v⟩⟩
  · intro t m k s hs ht
    have hexec : exec (.cicClaim t m k) s = .next (((s.arrive t).cicClaim m k).2.reply ((s.arrive t).cicClaim m k).1) :=
      regRead_serves (g := fun s => s.cicClaim m k) hs
    refine ⟨fun h => ?_, fun i hm hb hc h => ?_⟩
    · have hnone : (s.arrive t).cicClaim m k = (0, s.arrive t) := by
        unfold State.cicClaim
        by_cases hm : m = coreId k
        · rw [cicBest_none (s := s.arrive t) ht (h.resolve_left (not_not_intro hm))]
          exact ite_self ..
        · exact if_pos hm
      rw [hexec, hnone]
    · have hclaim : (s.arrive t).cicClaim m k = (wAt 0 i ||| flag 15 true ||| flag 16 (s.cicLive i) ||| flag 17 (cicLevel i),
          (s.arrive t).setCic i { s.cic i with bound := false, active := true }) := by
        unfold State.cicClaim
        rw [cicBest_highest (s := s.arrive t) ht hb hc h]
        exact if_neg (not_not_intro hm)
      rw [hexec, hclaim]
  · rintro t m k v s _ hs rfl
    have hexec : exec (.cicComplete t m k v) s = .next ((s.arrive t).cicComplete m k v) := regWrite_serves (f := fun s => s.cicComplete m k v) hs
    rw [hexec]
    unfold State.cicComplete
    refine ⟨fun hm => congrArg _ (if_pos hm), fun hm ha hc => congrArg _ ((if_neg (not_not_intro hm)).trans (if_pos ?_)),
      fun hm h => congrArg _ ((if_neg (not_not_intro hm)).trans (if_neg ?_))⟩
    · exact Bool.and_eq_true_iff.2 ⟨ha, decide_eq_true hc⟩
    · rintro hx
      obtain ⟨ha, hc⟩ := Bool.and_eq_true_iff.1 hx
      exact h.elim (fun h => Bool.false_ne_true (h.symm.trans ha)) fun h => h (of_decide_eq_true hc)

end Sys2Proof.Machine
end


section
/-! PROOFS. Mailboxes: a send, an acknowledgement, a timeout and the binding table (O41). -/

namespace Sys2Proof.Machine

/-! ## The directions of a mailbox -/

@[simp] theorem Mbox.setDir_dir (x : Mbox) (a : Bool) (d : MbDir) : (x.setDir a d).dir a = d := by
  cases a <;> rfl

@[simp] theorem Mbox.setDir_dir_other (x : Mbox) (a : Bool) (d : MbDir) : (x.setDir a d).dir (!a) = x.dir (!a) := by
  cases a <;> rfl

@[simp] theorem Mbox.setDir_other_dir (x : Mbox) (a : Bool) (d : MbDir) : (x.setDir (!a) d).dir a = x.dir a := by
  cases a <;> rfl

@[simp] theorem Mbox.setDir_bind (x : Mbox) (a : Bool) (d : MbDir) : (x.setDir a d).bind = x.bind := by
  cases a <;> rfl

@[simp] theorem Mbox.setDir_note (x : Mbox) (a : Bool) (d : MbDir) : (x.setDir a d).note = x.note := by
  cases a <;> rfl

theorem Mbox.setDir_idOf (x : Mbox) (a b : Bool) (d : MbDir) : (x.setDir a d).idOf b = x.idOf b := by
  simp only [Mbox.idOf, Mbox.idA, Mbox.idB, Mbox.setDir_bind]

/-- A side that is a core is one of the mailbox's core sides. -/
theorem Mbox.mem_coreSides {x : Mbox} {a : Bool} (h : (x.idOf a).toNat / 16 = 1) : a ∈ x.coreSides := by
  refine List.mem_filter.2 ⟨?_, decide_eq_true h⟩
  cases a <;> decide

section
variable {s u : State} {b : Nat} {a : Bool} {d : MbDir} {m o : Ident}

/-! ## An event of a mailbox (R444) -/

theorem mbEvent_mb (s : State) (b : Nat) (m : Ident) (kind : Nat) (rc : BitVec 16) (l : List Word) (j : Nat) :
    (s.mbEvent b m kind rc l).mb j = s.mb j := by
  have h : (s.mbEvent b m kind rc l).mbox = s.mbox := (kept_mbEvent (.refl s)).mbox
  rw [State.mb, h, State.mb]

theorem mbEvent_host (hn : bit (s.mb b).note 11 = true) (kind : Nat) (rc : BitVec 16) (l : List Word) :
    ((s.mbEvent b 0x01 kind rc l).vec (fld (s.mb b).note 0 11)).pend = true := by
  have h : s.mbEvent b 0x01 kind rc l = s.msixNotify (fld (s.mb b).note 0 11) := by
    unfold State.mbEvent
    exact (if_pos rfl).trans (if_pos hn)
  rw [h, State.msixNotify, State.setVec_vec, if_pos rfl]

/-- One direction of a mailbox is replaced, and an event follows. -/
theorem setDir_event (s : State) (b : Nat) (a : Bool) (d : MbDir) (m : Ident) (kind : Nat) (rc : BitVec 16) (l : List Word) {u : State}
    (hu : (s.setMb b ((s.mb b).setDir a d)).mbEvent b m kind rc l = u) :
    u.mb b = (s.mb b).setDir a d ∧ ∀ j, j ≠ b → u.mb j = s.mb j := by
  subst hu
  exact ⟨by rw [mbEvent_mb, State.setMb_mb, if_pos rfl], fun j hj => by rw [mbEvent_mb, State.setMb_mb, if_neg hj]⟩

/-! ## A send (R441) -/

theorem mbSendWrite_foreign (h : (s.mb b).side m = none) (v : Word) :
    s.mbSendWrite m b v = { s with mbox := { s.mbox with foreign := satInc s.mbox.foreign } } := by
  unfold State.mbSendWrite
  rw [h]
  rfl

theorem mbSendWrite_side (h : (s.mb b).side m = some a) (v : Word) : s.mbSendWrite m b v =
    if ((s.mb b).dir a).busy then s.setMb b ((s.mb b).setDir a { (s.mb b).dir a with txRej := true }) else if bit v 0 then s.mbSend b a else s := by
  unfold State.mbSendWrite
  rw [h]

/-- R441: the direction of a send that ends at once. -/
def MbDir.ended (d : MbDir) (rc : BitVec 16) : MbDir := { d with acked := true, timeout := false, rc := rc }

/-- R441: the direction once its composed words are out. -/
def MbDir.sent (d : MbDir) (t : Time) : MbDir :=
  { d with busy := true, acked := false, timeout := false, rc := 0, sentAt := t, slot := (List.range 8).map fun i => tget 0 d.tx i,
           msg := true, gone := false }

section
variable (hd : (s.mb b).dir a = d) (ho : (s.mb b).idOf (!a) = o) (hb : d.busy = false)
include hd ho hb

theorem mbSend_unbound (h0 : o = 0) :
    s.mbSend b a = (s.setMb b ((s.mb b).setDir a (d.ended 0xFF01))).mbEvent b ((s.mb b).idOf a) 1 0xFF01 [] := by
  subst hd ho
  refine (if_neg (Bool.eq_false_iff.1 hb)).trans ?_
  exact if_pos h0

theorem mbSend_held (h0 : o ≠ 0) (hh : s.sideHeld o = true) :
    s.mbSend b a = (s.setMb b ((s.mb b).setDir a (d.ended 0xFF00))).mbEvent b ((s.mb b).idOf a) 1 0xFF00 [] := by
  subst hd ho
  refine (if_neg (Bool.eq_false_iff.1 hb)).trans ?_
  exact (if_neg h0).trans (if_pos hh)

theorem mbSend_goes (h0 : o ≠ 0) (hh : s.sideHeld o = false) : s.mbSend b a =
    (s.setMb b ((s.mb b).setDir a (d.sent s.now))).mbEvent b o 0 0 ((List.range 8).map fun i => tget 0 d.tx i) := by
  subst hd ho
  refine (if_neg (Bool.eq_false_iff.1 hb)).trans ?_
  exact (if_neg h0).trans (if_neg (Bool.eq_false_iff.1 hh))

end

/-- A message to a side that is a core is live at its core source (R422). -/
theorem cicLive_message (hb : b < 64) (hm : ((s.mb b).dir a).msg = true) (hc : ((s.mb b).idOf (!a)).toNat / 16 = 1) : s.cicLive (544 + b) = true := by
  unfold State.cicLive
  rw [if_pos (by simp; omega)]
  have he : 544 + b - 544 = b := by omega
  rw [he]
  exact List.any_eq_true.2 ⟨!a, Mbox.mem_coreSides hc, by rw [Bool.not_not]; exact hm⟩

/-! ## An acknowledgement (R442, R447) -/

theorem mbAckWrite_foreign (h : (s.mb b).side m = none) (v : Word) :
    s.mbAckWrite m b v = { s with mbox := { s.mbox with foreign := satInc s.mbox.foreign } } := by
  unfold State.mbAckWrite
  rw [h]
  rfl

theorem mbAckWrite_side (h : (s.mb b).side m = some a) (v : Word) : s.mbAckWrite m b v = s.mbAck b a (BitVec.ofNat 16 (fld v 0 16)) := by
  unfold State.mbAckWrite
  rw [h]
  have hv : v.setWidth 16 = BitVec.ofNat 16 (fld v 0 16) := by
    apply BitVec.eq_of_toNat_eq
    simp [fld]
  exact congrArg (s.mbAck b a) hv

section
variable (hd : (s.mb b).dir (!a) = d) {rc : BitVec 16}
include hd

theorem mbAck_rejected (h : d.msg = false ∨ 0x8000 ≤ rc.toNat) : s.mbAck b a rc = s.setMb b ((s.mb b).setDir (!a) { d with rxRej := true }) := by
  unfold State.mbAck
  simp only [hd]
  exact if_pos (by rcases h with h | h <;> simp [h])

variable (hm : d.msg = true) (hrc : rc.toNat < 0x8000)
include hm hrc

theorem mbAck_gone (hg : d.gone = true) :
    s.mbAck b a rc = s.setMb b ((s.mb b).setDir (!a) { d with busy := false, msg := false, slot := [], rc := 0, gone := false }) := by
  unfold State.mbAck
  simp only [hd]
  exact (if_neg (by simp [hm, Nat.not_le.2 hrc])).trans (if_pos hg)

theorem mbAck_taken (hg : d.gone = false) :
    s.mbAck b a rc = (s.setMb b ((s.mb b).setDir (!a) { d with busy := false, msg := false, slot := [], acked := true, rc := rc })).mbEvent b
      ((s.mb b).idOf (!a)) 1 rc [] := by
  unfold State.mbAck
  simp only [hd]
  exact (if_neg (by simp [hm, Nat.not_le.2 hrc])).trans (if_neg (Bool.eq_false_iff.1 hg))

end

/-! ## The timeout of a send (R443) -/

theorem mbTimeout_rests (hd : (s.mb b).dir a = d) {n : Nat} (hn : s.now = n)
    (h : d.busy = false ∨ d.gone = true ∨ d.timeout = true ∨ (s.mb b).limit = 0 ∨ n < d.sentAt + ms (s.mb b).limit) : s.mbTimeout b a = s := by
  subst hd hn
  refine if_neg fun hx => ?_
  simp only [Bool.and_eq_true, Bool.not_eq_true', decide_eq_true_eq, and_assoc] at hx
  obtain ⟨hb, hg, ht, hl, hle⟩ := hx
  rcases h with h | h | h | h | h
  · exact Bool.false_ne_true (h.symm.trans hb)
  · exact Bool.false_ne_true (hg.symm.trans h)
  · exact Bool.false_ne_true (ht.symm.trans h)
  · exact hl h
  · exact Nat.not_le.2 h hle

theorem mbTimeout_due (hd : (s.mb b).dir a = d) {n : Nat} (hn : s.now = n) (hb : d.busy = true) (hg : d.gone = false) (ht : d.timeout = false)
    (hl : (s.mb b).limit ≠ 0) (hle : d.sentAt + ms (s.mb b).limit ≤ n) :
    s.mbTimeout b a = (s.setMb b ((s.mb b).setDir a { d with timeout := true })).mbEvent b ((s.mb b).idOf a) 2 0 [] := by
  subst hd hn
  refine if_pos ?_
  simp only [Bool.and_eq_true, Bool.not_eq_true', decide_eq_true_eq, and_assoc]
  exact ⟨hb, hg, ht, hl, hle⟩

/-! ## The binding table (R438, R439) -/

theorem mbBind_refused {v : Word}
    (h : s.mbox.locked = true ∨ mbIdent (fld v 0 8) = false ∨ mbIdent (fld v 8 8) = false ∨ fld v 0 8 = fld v 8 8 ∧ fld v 0 8 ≠ 0) :
    s.mbBind b v = { s with mbox := { s.mbox with cfgRej := true } } := by
  refine if_pos ?_
  rcases h with h | h | h | ⟨h, h0⟩
  · simp [h]
  · simp [h]
  · simp [h]
  · simp only [Bool.or_eq_true, Bool.and_eq_true, decide_eq_true_eq]
    exact .inr ⟨h, h0⟩

theorem mbBind_taken {v : Word} (hl : s.mbox.locked = false) (ha : mbIdent (fld v 0 8) = true) (hb : mbIdent (fld v 8 8) = true)
    (h : fld v 0 8 ≠ fld v 8 8 ∨ fld v 0 8 = 0) :
    s.mbBind b v = if fld (s.mb b).bind 0 16 = fld v 0 16 then s.setMb b { s.mb b with bind := v }
      else ({ s with movers := { s.movers with boxes := s.movers.boxes.filter fun x => x.1 ≠ b } } : State).setMb b
        { s.mb b with bind := v, ab := {}, ba := {} } := by
  refine if_neg ?_
  simp only [hl, ha, hb, Bool.not_true, Bool.or_false, Bool.false_or, Bool.and_eq_true, decide_eq_true_eq]
  exact fun hx => h.elim (fun h => h hx.1) hx.2

end

/-- Settles O41: a send by who has the other side, an acknowledgement by the message it answers, a binding by what it may hold. -/
theorem mailboxesCarryOneMessageEachWay : Obligations.MailboxesCarryOneMessageEachWay := by
  unfold Obligations.MailboxesCarryOneMessageEachWay
  refine ⟨?_, ?_, ?_, ?_, ?_, ?_⟩
  · intro t m b v s hs
    have hexec : exec (.mbSend t m b v) s = .next ((s.arrive t).mbSendWrite m b v) := regWrite_serves (f := fun s => s.mbSendWrite m b v) hs
    refine ⟨fun h => ?_, fun a h => ⟨fun hb => ?_, fun hb => ?_⟩⟩
    · rw [hexec, mbSendWrite_foreign (s := s.arrive t) h]
      rfl
    · rw [hexec, mbSendWrite_side (s := s.arrive t) h]
      exact congrArg _ (if_pos hb)
    · rw [hexec, mbSendWrite_side (s := s.arrive t) h]
      exact congrArg _ (if_neg (Bool.eq_false_iff.1 hb))
  · rintro s b a _ _ rfl rfl hb
    refine ⟨_, rfl, ?_⟩
    by_cases h0 : (s.mb b).idOf (!a) = 0
    · obtain ⟨hat, hother⟩ := setDir_event _ _ _ _ _ _ _ _ (mbSend_unbound rfl rfl hb h0).symm
      rw [hat]
      exact ⟨Mbox.setDir_dir_other .., Mbox.setDir_bind .., hother, fun _ => Mbox.setDir_dir .., fun h => absurd h0 h, fun h => absurd h0 h⟩
    cases hh : s.sideHeld ((s.mb b).idOf (!a)) with
    | true =>
      obtain ⟨hat, hother⟩ := setDir_event _ _ _ _ _ _ _ _ (mbSend_held rfl rfl hb h0 hh).symm
      rw [hat]
      exact ⟨Mbox.setDir_dir_other .., Mbox.setDir_bind .., hother, fun h => absurd h h0, fun _ _ => Mbox.setDir_dir .., fun _ h => absurd h (by decide)⟩
    | false =>
      have hsend := mbSend_goes rfl rfl hb h0 hh
      obtain ⟨hat, hother⟩ := setDir_event _ _ _ _ _ _ _ _ hsend.symm
      have hdir : ((s.mbSend b a).mb b).dir a = ((s.mb b).dir a).sent s.now := by rw [hat, Mbox.setDir_dir]
      refine ⟨?_, ?_, hother, fun h => absurd h h0, fun _ h => absurd h (by decide), fun _ _ => ⟨hdir, fun ho hn => ?_, fun ho hlt => ?_⟩⟩
      · rw [hat, Mbox.setDir_dir_other]
      · rw [hat, Mbox.setDir_bind]
      · rw [hsend, ho]
        have hnote : ((s.setMb b ((s.mb b).setDir a (((s.mb b).dir a).sent s.now))).mb b).note = (s.mb b).note := by
          rw [State.setMb_mb, if_pos rfl, Mbox.setDir_note]
        rw [← hnote]
        exact mbEvent_host (by rw [hnote]; exact hn) ..
      · refine cicLive_message hlt (a := a) ?_ ?_
        · rw [hdir]
          rfl
        · rw [hat, Mbox.setDir_idOf]
          exact ho
  · intro t m b v s hs
    have hexec : exec (.mbAck t m b v) s = .next ((s.arrive t).mbAckWrite m b v) := regWrite_serves (f := fun s => s.mbAckWrite m b v) hs
    refine ⟨fun h => ?_, ?_⟩
    · rw [hexec, mbAckWrite_foreign (s := s.arrive t) h]
      rfl
    · rintro a _ h rfl
      rw [hexec, mbAckWrite_side (s := s.arrive t) h]
      refine ⟨_, rfl, ?_⟩
      have hrc : (BitVec.ofNat 16 (fld v 0 16)).toNat = fld v 0 16 := by
        rw [BitVec.toNat_ofNat]
        exact Nat.mod_mod ..
      by_cases hrej : ((s.mb b).dir (!a)).msg = false ∨ 0x8000 ≤ fld v 0 16
      · rw [mbAck_rejected (s := s.arrive t) rfl (by rw [hrc]; exact hrej), State.setMb_mb, if_pos rfl]
        refine ⟨Mbox.setDir_other_dir .., fun j hj => ?_, fun _ => Mbox.setDir_dir .., fun hm hlt => ?_, fun hm hlt => ?_⟩
        · rw [State.setMb_mb, if_neg hj]
          rfl
        all_goals exact absurd hrej (by simp [hm, hlt])
      · obtain ⟨hm, hlt⟩ : ((s.mb b).dir (!a)).msg = true ∧ fld v 0 16 < 0x8000 := by simpa using hrej
        have hlt' : (BitVec.ofNat 16 (fld v 0 16)).toNat < 0x8000 := by rw [hrc]; exact hlt
        rcases Bool.eq_false_or_eq_true ((s.mb b).dir (!a)).gone with hg | hg
        · rw [mbAck_gone (s := s.arrive t) rfl hm hlt' hg, State.setMb_mb, if_pos rfl]
          refine ⟨Mbox.setDir_other_dir .., fun j hj => ?_, fun h => absurd h hrej, fun _ _ _ => Mbox.setDir_dir ..,
            fun _ _ h => absurd (hg.symm.trans h) (by decide)⟩
          rw [State.setMb_mb, if_neg hj]
          rfl
        · obtain ⟨hat, hother⟩ := setDir_event _ _ _ _ _ _ _ _ (mbAck_taken (s := s.arrive t) rfl hm hlt' hg).symm
          rw [hat]
          exact ⟨Mbox.setDir_other_dir .., hother, fun h => absurd h hrej, fun _ _ h => absurd (hg.symm.trans h) (by decide), fun _ _ _ => Mbox.setDir_dir ..⟩
  · rintro t b a s _ hup rfl
    have hexec : exec (.mbTimeout t b a) s = .next ((s.arrive t).mbTimeout b a) := engineEvent_up (f := fun s => s.mbTimeout b a) hup
    refine ⟨fun h => ?_, fun hb hg ht hl hle => ⟨_, hexec, ?_⟩⟩
    · rw [hexec, mbTimeout_rests (s := s.arrive t) rfl rfl h]
    · obtain ⟨hat, hother⟩ := setDir_event _ _ _ _ _ _ _ _ (mbTimeout_due (s := s.arrive t) rfl rfl hb hg ht hl hle).symm
      rw [hat]
      exact ⟨Mbox.setDir_dir .., Mbox.setDir_dir_other .., hother⟩
  · intro t m b v s hs
    have hexec : exec (.mbBindWrite t m b v) s = .next ((s.arrive t).mbBind b v) := regWrite_serves (f := fun s => s.mbBind b v) hs
    refine ⟨fun h => ?_, fun hl ha hb h => ?_⟩
    · rw [hexec, mbBind_refused (s := s.arrive t) h]
      rfl
    · rw [hexec, mbBind_taken (s := s.arrive t) hl ha hb h]
      rfl
  · intro t m v s hs
    refine (regWrite_serves (f := fun s => s.mbLock v) hs).trans (congrArg _ ?_)
    unfold State.mbLock
    cases hb : bit v 0 with
    | true => exact (if_pos rfl).trans (by rw [Bool.or_true]; rfl)
    | false => exact (if_neg (by decide)).trans (by rw [Bool.or_false]; rfl)

end Sys2Proof.Machine
end


section
/-! PROOFS. Core reset and release, watchdogs, the timer, the scrubber and the fixed registers (O45). -/

namespace Sys2Proof.Machine

section
variable {s u w : State} {k j : Nat} {m : Ident} {v : Word}

/-! ## What an event of a mailbox leaves alone -/

/-- Time, cores, memory, faults and the core sources stand as they were. -/
structure CoresRest (s u : State) : Prop where
  now : u.now = s.now
  cores : u.cores = s.cores
  mem : u.mem = s.mem
  fc : u.fc = s.fc
  srcs : u.irq.srcs = s.irq.srcs

namespace CoresRest

theorem refl (s : State) : CoresRest s s := ⟨rfl, rfl, rfl, rfl, rfl⟩

theorem trans (h : CoresRest s u) (i : CoresRest u w) : CoresRest s w :=
  ⟨i.now.trans h.now, i.cores.trans h.cores, i.mem.trans h.mem, i.fc.trans h.fc, i.srcs.trans h.srcs⟩

theorem foldl {α : Type} {f : State → α → State} (hf : ∀ s x, CoresRest s (f s x)) (l : List α) (s : State) : CoresRest s (l.foldl f s) := by
  induction l generalizing s with
  | nil => exact refl s
  | cons x r ih => exact (hf s x).trans (ih _)

theorem core (h : CoresRest s u) (k : Nat) : u.core k = s.core k := by rw [State.core, h.cores, State.core]
theorem cic (h : CoresRest s u) (i : Nat) : u.cic i = s.cic i := by rw [State.cic, h.srcs, State.cic]

theorem setMb (s : State) (b : Nat) (x : Mbox) : CoresRest s (s.setMb b x) := ⟨rfl, rfl, rfl, rfl, rfl⟩
theorem modChan (s : State) (c : Nat) (f : Chan → Chan) : CoresRest s (s.modChan c f) := ⟨rfl, rfl, rfl, rfl, rfl⟩
theorem forget (s : State) (who : Who) : CoresRest s (s.forget who) := ⟨rfl, rfl, rfl, rfl, rfl⟩

theorem wakeUnit (s : State) (n : Nat) : CoresRest s (s.wakeUnit n) := foldl (fun _ _ => modChan ..) _ _

theorem mbEvent (s : State) (b : Nat) (m : Ident) (kind : Nat) (rc : BitVec 16) (l : List Word) : CoresRest s (s.mbEvent b m kind rc l) := by
  unfold State.mbEvent
  dsimp only
  split
  · split
    · exact ⟨rfl, rfl, rfl, rfl, rfl⟩
    · exact refl s
  split
  · exact ⟨rfl, rfl, rfl, rfl, rfl⟩
  split
  · exact wakeUnit ..
  · exact refl s

theorem mbReset (s : State) (l : List Ident) : CoresRest s (s.mbReset l) := by
  refine foldl (fun s b => foldl (fun s a => ?_) _ _) _ _
  dsimp only
  split
  · exact setMb ..
  split
  · split
    · exact (setMb ..).trans (mbEvent ..)
    · exact setMb ..
  split
  · exact setMb ..
  · exact refl s

end CoresRest

/-! ## The core sources of a core that is reset (R429) -/

/-- What stands of a source after a fold over sources that each touches one. -/
theorem foldl_cic_reaches {f : State → Nat → State} {P Q : CicSrc → Prop} {i : Nat} (hkeep : ∀ s x, P (s.cic i) → P ((f s x).cic i))
    (hhit : ∀ s, Q (s.cic i) → P ((f s i).cic i)) (hmiss : ∀ s x, x ≠ i → (f s x).cic i = s.cic i) {l : List Nat} (hi : i ∈ l)
    (hq : Q (s.cic i)) : P ((l.foldl f s).cic i) := by
  induction l generalizing s with
  | nil => cases hi
  | cons x r ih =>
    rw [List.foldl_cons]
    by_cases hx : x = i
    · subst hx
      exact List.foldlRecOn (motive := fun s : State => P (s.cic x)) _ _ (hhit s hq) fun s h y _ => hkeep s y h
    · exact ih ((List.mem_cons.1 hi).resolve_left fun h => hx h.symm) (by rw [hmiss s x hx]; exact hq)

/-- R429: a source of core `k` once that core is in reset. -/
def CicSrc.afterReset (c : CicSrc) (k i : Nat) : CicSrc :=
  if c.core ≠ k then c else if c.bound then { c with bound := false, pend := c.pend || !cicLevel i } else if c.active then { c with active := false } else c

/-- R429: one source follows the reset of core `k`. -/
def State.cicResetOne (s : State) (k i : Nat) : State :=
  let c := s.cic i
  if c.core ≠ k then s
  else if c.bound then s.setCic i { c with bound := false, pend := c.pend || !cicLevel i }
  else if c.active then s.setCic i { c with active := false }
  else s

theorem cicCoreReset_eq (s : State) (k : Nat) : s.cicCoreReset k = (s.irq.srcs.map (·.1)).foldl (fun s i => s.cicResetOne k i) s := rfl

theorem cicResetOne_cic (s : State) (k i j : Nat) : (s.cicResetOne k i).cic j = if j = i then (s.cic i).afterReset k i else s.cic j := by
  unfold State.cicResetOne CicSrc.afterReset
  by_cases hj : j = i
  · subst hj
    rw [if_pos rfl]
    dsimp only
    split
    · rfl
    split
    · rw [State.setCic_cic, if_pos rfl]
    split
    · rw [State.setCic_cic, if_pos rfl]
    · rfl
  · rw [if_neg hj]
    dsimp only
    split
    · rfl
    split
    · rw [State.setCic_cic, if_neg hj]
    split
    · rw [State.setCic_cic, if_neg hj]
    · rfl

theorem cicCoreReset_reaches {P Q : CicSrc → Prop} {i : Nat} (hd : ¬Q {}) (hhit : ∀ c, Q c → P (c.afterReset k i)) (hkeep : ∀ c, P c → P (c.afterReset k i))
    (hq : Q (s.cic i)) : P ((s.cicCoreReset k).cic i) := by
  rw [cicCoreReset_eq]
  refine foldl_cic_reaches (P := P) (Q := Q) (fun s x h => ?_) (fun s h => ?_) (fun s x hx => ?_) (i := i) ?_ hq
  · rw [cicResetOne_cic]
    split
    · next hx => rw [← hx]; exact hkeep _ h
    · exact h
  · rw [cicResetOne_cic, if_pos rfl]
    exact hhit _ h
  · rw [cicResetOne_cic, if_neg (Ne.symm hx)]
  · by_contra hm
    have h : s.cic i = {} := tget_of_not_mem _ hm
    rw [h] at hq
    exact hd hq

theorem cicCoreReset_bound {i : Nat} (hb : (s.cic i).bound = true) (hc : (s.cic i).core = k) (hl : cicLevel i = false) :
    ((s.cicCoreReset k).cic i).bound = false ∧ ((s.cicCoreReset k).cic i).pend = true := by
  refine cicCoreReset_reaches (P := fun c => c.bound = false ∧ c.pend = true) (Q := fun c => c.bound = true ∧ c.core = k) (by simp) ?_ ?_ ⟨hb, hc⟩
  · rintro c ⟨hb, hc⟩
    simp [CicSrc.afterReset, hb, hc, hl]
  · rintro c ⟨hb, hp⟩
    unfold CicSrc.afterReset
    split
    · exact ⟨hb, hp⟩
    split
    · exact ⟨rfl, by simp [hp]⟩
    split <;> exact ⟨hb, hp⟩

theorem cicCoreReset_active {i : Nat} (ha : (s.cic i).active = true) (hb : (s.cic i).bound = false) (hc : (s.cic i).core = k) :
    ((s.cicCoreReset k).cic i).active = false := by
  refine (cicCoreReset_reaches (P := fun c => c.bound = false ∧ c.active = false) (Q := fun c => c.active = true ∧ c.bound = false ∧ c.core = k) (by simp)
    ?_ ?_ ⟨ha, hb, hc⟩).2
  · rintro c ⟨ha, hb, hc⟩
    simp [CicSrc.afterReset, ha, hb, hc]
  · rintro c ⟨hb, ha⟩
    simp [CicSrc.afterReset, ha, hb]

theorem cicCoreReset_cores (s : State) (k : Nat) : (s.cicCoreReset k).cores = s.cores ∧ (s.cicCoreReset k).mem = s.mem ∧
    (s.cicCoreReset k).fc = s.fc ∧ (s.cicCoreReset k).now = s.now := by
  rw [cicCoreReset_eq]
  refine List.foldlRecOn (motive := fun u : State => u.cores = s.cores ∧ u.mem = s.mem ∧ u.fc = s.fc ∧ u.now = s.now) _ _ ⟨rfl, rfl, rfl, rfl⟩
    fun u h i _ => ?_
  unfold State.cicResetOne
  dsimp only
  split
  · exact h
  split
  · exact h
  split <;> exact h

/-! ## The core itself (R472 to R474) -/

theorem modCore_other (s : State) (f : Core → Core) (h : j ≠ k) : (s.modCore k f).core j = s.core j := tget_tput_ne _ _ _ h

theorem modCore_mem (s : State) (k : Nat) (f : Core → Core) : (s.modCore k f).mem = s.mem := rfl
theorem modCore_fc (s : State) (k : Nat) (f : Core → Core) : (s.modCore k f).fc = s.fc := rfl
theorem modCore_cic (s : State) (k : Nat) (f : Core → Core) (i : Nat) : (s.modCore k f).cic i = s.cic i := rfl

theorem wdPause_core (s : State) (k : Nat) : ∃ a l, (s.wdPause k).core k = { s.core k with wdAt := a, wdLeft := l } := by
  unfold State.wdPause
  rw [modCore_core]
  generalize s.core k = c
  dsimp only
  split
  · exact ⟨_, _, rfl⟩
  · exact ⟨c.wdAt, c.wdLeft, rfl⟩

theorem wdResume_core (s : State) (k : Nat) : ∃ a l, (s.wdResume k).core k = { s.core k with wdAt := a, wdLeft := l } := by
  unfold State.wdResume
  rw [modCore_core]
  generalize s.core k = c
  dsimp only
  split
  · exact ⟨_, _, rfl⟩
  · exact ⟨c.wdAt, c.wdLeft, rfl⟩

theorem wdLoad_core (s : State) (k : Nat) :
    ∃ a l, (s.wdLoad k).core k = { s.core k with wdActive := (s.core k).wdCtrl, wdAt := a, wdLeft := l } := by
  unfold State.wdLoad
  rw [modCore_core]
  exact ⟨_, _, rfl⟩

theorem wdLoad_running (h : s.wdPaused k = false) : s.wdLoad k = s.setCore k { s.core k with
    wdActive := (s.core k).wdCtrl, wdAt := some (s.now + wdPeriod (s.core k).wdCtrl), wdLeft := none } := by
  unfold State.wdLoad
  rw [h]
  rfl

/-- R474: the core in reset; its watchdog's instants aside. -/
def Core.inReset (c : Core) : Core :=
  { c with st := .inReset, dirtyLost := c.dirtyLost || c.dcache.any (fun p => p.2.dirty), dcache := [], icache := [],
           resv := none, trap := none, rd := 0, waits := [], pmpCfg := [], pmpAddr := [], machine := true, msip := false,
           cmpLo := 0xFFFFFFFF, cmpHi := 0xFFFFFFFF, mtip := false }

/-- What a core reset leaves behind before the core itself is put into reset. -/
def State.leaveCore (s : State) (k : Nat) : State := ((s.forgetCore k).cicCoreReset k).mbReset [coreId k]

theorem forgetCore_rest (s : State) (k : Nat) : CoresRest s (s.forgetCore k) := CoresRest.foldl (fun _ _ => .forget ..) _ _

theorem leaveCore_rest (s : State) (k : Nat) : (s.leaveCore k).cores = s.cores ∧ (s.leaveCore k).mem = s.mem ∧ (s.leaveCore k).fc = s.fc := by
  have hm := CoresRest.mbReset ((s.forgetCore k).cicCoreReset k) [coreId k]
  have hf := forgetCore_rest s k
  obtain ⟨hc, hmem, hfc, _⟩ := cicCoreReset_cores (s.forgetCore k) k
  exact ⟨hm.cores.trans (hc.trans hf.cores), hm.mem.trans (hmem.trans hf.mem), hm.fc.trans (hfc.trans hf.fc)⟩

theorem leaveCore_cic (s : State) (k i : Nat) : (s.leaveCore k).cic i = ((s.forgetCore k).cicCoreReset k).cic i := (CoresRest.mbReset _ _).cic i

theorem coreInReset_eq (s : State) (k : Nat) : s.coreInReset k = ((s.leaveCore k).wdPause k).modCore k fun c =>
    { c with st := .inReset, dirtyLost := (s.core k).dirtyLost || (s.core k).dcache.any (fun p => p.2.dirty), dcache := [], icache := [],
             resv := none, trap := none, rd := 0, waits := [], pmpCfg := [], pmpAddr := [], machine := true, msip := false,
             cmpLo := 0xFFFFFFFF, cmpHi := 0xFFFFFFFF, mtip := false } := rfl

theorem coreInReset_core (s : State) (k : Nat) : ∃ a l, (s.coreInReset k).core k = { (s.core k).inReset with wdAt := a, wdLeft := l } := by
  have hcore : (s.leaveCore k).core k = s.core k := by rw [State.core, (leaveCore_rest s k).1, State.core]
  obtain ⟨a, l, h⟩ := wdPause_core (s.leaveCore k) k
  rw [hcore] at h
  rw [coreInReset_eq, modCore_core, h]
  exact ⟨a, l, rfl⟩

theorem coreInReset_other (s : State) (h : j ≠ k) : (s.coreInReset k).core j = s.core j := by
  have hcore : (s.leaveCore k).core j = s.core j := by rw [State.core, (leaveCore_rest s k).1, State.core]
  rw [coreInReset_eq, modCore_other _ _ h]
  exact (modCore_other (s.leaveCore k) _ h).trans hcore

theorem coreInReset_mem (s : State) (k : Nat) : (s.coreInReset k).mem = s.mem := by
  rw [coreInReset_eq, modCore_mem, State.wdPause, modCore_mem, (leaveCore_rest s k).2.1]

theorem coreInReset_fc (s : State) (k : Nat) : (s.coreInReset k).fc = s.fc := by
  rw [coreInReset_eq, modCore_fc, State.wdPause, modCore_fc, (leaveCore_rest s k).2.2]

theorem coreInReset_cic (s : State) (k i : Nat) : (s.coreInReset k).cic i = ((s.forgetCore k).cicCoreReset k).cic i := by
  rw [coreInReset_eq, modCore_cic, State.wdPause, modCore_cic, leaveCore_cic]

theorem coreGo_core (s : State) (k : Nat) : ∃ a l, (s.coreGo k).core k =
    { s.core k with st := .run, resetBit := false, pc := (s.core k).resetVec, wdAt := a, wdLeft := l } := by
  obtain ⟨a, l, h⟩ := wdResume_core (s.modCore k fun c => { c with st := .run, resetBit := false, pc := c.resetVec }) k
  rw [modCore_core] at h
  exact ⟨a, l, h⟩

theorem coreGo_other (s : State) (h : j ≠ k) : (s.coreGo k).core j = s.core j := (modCore_other _ _ h).trans (modCore_other _ _ h)

/-! ## CORE_CTRL (R473) -/

theorem coreCtrl_resets (hv : bit v 0 = true) (hm : m ≠ coreId k) (ho : m = 0x01 ∨ m = 0x20 ∨ m.toNat / 16 = 1)
    (hst : (s.core k).st = .run ∨ (s.core k).st = .wfi) : s.coreCtrl m k v = s.setCore k { s.core k with resetBit := true, st := .resetting } := by
  unfold State.coreCtrl
  refine (if_pos hv).trans ((if_neg ?_).trans (if_pos ?_))
  · simp only [Bool.or_eq_true, Bool.not_eq_true', decide_eq_true_eq, decide_eq_false_iff_not, Bool.or_eq_false_iff]
    rintro (h | ⟨⟨h1, h2⟩, h3⟩)
    · exact hm h
    · exact ho.elim h1 fun ho => ho.elim h2 h3
  · simpa using hst

theorem coreCtrl_refuses (hv : bit v 0 = true) (h : m = coreId k ∨ m ≠ 0x01 ∧ m ≠ 0x20 ∧ m.toNat / 16 ≠ 1 ∨
    (s.core k).st = .resetting ∨ (s.core k).st = .inReset) : s.coreCtrl m k v = s := by
  unfold State.coreCtrl
  refine (if_pos hv).trans ?_
  rcases h with h | ⟨h1, h2, h3⟩ | h | h
  · exact if_pos (by simp [h])
  · refine if_pos ?_
    simp only [Bool.or_eq_true, Bool.not_eq_true', decide_eq_true_eq, decide_eq_false_iff_not, Bool.or_eq_false_iff]
    exact .inr ⟨⟨h1, h2⟩, h3⟩
  · rw [h]
    exact ite_self ..
  · rw [h]
    exact ite_self ..

theorem coreCtrl_releases (hv : bit v 0 = false) : s.coreCtrl m k v = match (s.core k).st with
    | .inReset => s.coreGo k
    | .resetting => s.setCore k { s.core k with busyRej := true }
    | _ => s := by
  unfold State.coreCtrl
  exact (if_neg (Bool.eq_false_iff.1 hv)).trans rfl

/-! ## Watchdogs (R472) -/

/-- The word that WD_CTRL takes from a write. -/
def wdWord (v : Word) : Word := if fld v 8 24 = 0 then setFld (v &&& 0xFFFFFF03) 8 24 1 else v &&& 0xFFFFFF03

theorem fld_wdMask (v : Word) : fld (v &&& 0xFFFFFF03) 8 24 = fld v 8 24 := by
  rw [fld_extract, fld_extract]
  refine congrArg BitVec.toNat (BitVec.eq_of_getLsbD_eq fun i hi => ?_)
  have h : (0xFFFFFF03 : Word).getLsbD (8 + i) = true := by
    have hall : ∀ i < 24, (0xFFFFFF03 : Word).getLsbD (8 + i) = true := by decide
    exact hall i hi
  simp only [BitVec.getLsbD_extractLsb', BitVec.getLsbD_and, h, Bool.and_true]

theorem wdWord_enabled (v : Word) : bit (wdWord v) 0 = bit v 0 := by
  have hset : (wAt 8 (2 ^ 24 - 1)).getLsbD 0 = false ∧ (wAt 8 (1 % 2 ^ 24)).getLsbD 0 = false ∧ (0xFFFFFF03 : Word).getLsbD 0 = true := by decide
  obtain ⟨h1, h2, h3⟩ := hset
  unfold wdWord bit setFld
  split
  · rw [BitVec.getLsbD_or, BitVec.getLsbD_and, BitVec.getLsbD_not, BitVec.getLsbD_and, h1, h2, h3]
    simp
  · rw [BitVec.getLsbD_and, h3, Bool.and_true]

theorem wdCtrl_eq (s : State) (k : Nat) (v : Word) : s.wdCtrl k v =
    if (!bit (s.core k).wdCtrl 0 && bit (wdWord v) 0) = true then
      (s.setCore k { s.core k with wdCtrl := if bit (s.core k).wdCtrl 0 then wdWord v ||| 1 else wdWord v }).wdLoad k
    else s.setCore k { s.core k with wdCtrl := if bit (s.core k).wdCtrl 0 then wdWord v ||| 1 else wdWord v } := by
  have h : (if fld (v &&& 0xFFFFFF03) 8 24 = 0 then setFld (v &&& 0xFFFFFF03) 8 24 1 else v &&& 0xFFFFFF03) = wdWord v := by
    rw [fld_wdMask]
    rfl
  unfold State.wdCtrl
  dsimp only
  rw [h]

theorem wdCtrl_on (h : bit (s.core k).wdCtrl 0 = true) : s.wdCtrl k v = s.setCore k { s.core k with wdCtrl := wdWord v ||| 1 } := by
  rw [wdCtrl_eq, if_neg (by simp [h]), if_pos h]

theorem wdCtrl_off (h : bit (s.core k).wdCtrl 0 = false) (hv : bit v 0 = false) : s.wdCtrl k v = s.setCore k { s.core k with wdCtrl := wdWord v } := by
  rw [wdCtrl_eq, if_neg (by simp [wdWord_enabled, hv]), if_neg (by simp [h])]

theorem wdCtrl_starts (h : bit (s.core k).wdCtrl 0 = false) (hv : bit v 0 = true) (hp : s.wdPaused k = false) : (s.wdCtrl k v).core k =
    { s.core k with wdCtrl := wdWord v, wdActive := wdWord v, wdAt := some (s.now + wdPeriod (wdWord v)), wdLeft := none } := by
  have hcore : (s.setCore k { s.core k with wdCtrl := wdWord v }).core k = { s.core k with wdCtrl := wdWord v } := by
    rw [State.setCore_core, if_pos rfl]
  have hp' : (s.setCore k { s.core k with wdCtrl := wdWord v }).wdPaused k = false := by
    rw [← hp]
    unfold State.wdPaused State.coreHeld
    rw [hcore]
    rfl
  rw [wdCtrl_eq, if_pos (by simp [wdWord_enabled, hv, h]), if_neg (by simp [h]), wdLoad_running hp', State.setCore_core, if_pos rfl, hcore]
  rfl

theorem wdKick_loads (hm : m = coreId k) (hv : fld v 0 16 = 0x5A5A) (he : bit (s.core k).wdCtrl 0 = true) : s.wdKick m k v = s.wdLoad k :=
  if_pos (by simp [hm, hv, he])

theorem wdKick_rests (h : m ≠ coreId k ∨ fld v 0 16 ≠ 0x5A5A ∨ bit (s.core k).wdCtrl 0 = false) : s.wdKick m k v = s := by
  refine if_neg fun hx => ?_
  simp only [Bool.and_eq_true, decide_eq_true_eq] at hx
  obtain ⟨⟨hm, hv⟩, he⟩ := hx
  exact h.elim (· hm) fun h => h.elim (· hv) fun h => Bool.false_ne_true (h.symm.trans he)

/-- R472: the watchdog has expired, and source 140 + k is reported. -/
def State.wdFires (s : State) (k : Nat) : State := (s.modCore k fun c => { c with wdExpired := true }).report (140 + k)

theorem wdFires_core (s : State) (k : Nat) : (s.wdFires k).core k = { s.core k with wdExpired := true } :=
  modCore_core s k fun c => { c with wdExpired := true }

/-- R472: the reset that an expiry with ACTION brings. -/
def State.wdResets (s : State) (k : Nat) : State := ((s.coreInReset k).coreGo k).modCore k fun c => { c with wdResets := satInc c.wdResets }

theorem wdResets_core (s : State) (k : Nat) : ∃ a l, (s.wdResets k).core k =
    { (s.core k).inReset with
      st := .run, resetBit := false, pc := (s.core k).resetVec, wdResets := satInc (s.core k).wdResets, wdAt := a, wdLeft := l } := by
  obtain ⟨a, l, h⟩ := coreGo_core (s.coreInReset k) k
  obtain ⟨a', l', h'⟩ := coreInReset_core s k
  rw [h'] at h
  unfold State.wdResets
  rw [modCore_core, h]
  exact ⟨a, l, rfl⟩

theorem wdLoad_fc (s : State) (k : Nat) : (s.wdLoad k).fc = s.fc := rfl

theorem wdResets_fc (s : State) (k : Nat) : (s.wdResets k).fc = s.fc := by
  rw [State.wdResets, modCore_fc, State.coreGo, State.wdResume, modCore_fc, modCore_fc, coreInReset_fc]

theorem wdExpire_due {x n : Nat} (hx : (s.core k).wdAt = some x) (hn : s.now = n) (hle : x ≤ n) : s.wdExpire k =
    (if bit (s.core k).wdActive 1 then (s.wdFires k).wdResets k else s.wdFires k).wdLoad k := by
  unfold State.wdExpire
  rw [hx]
  exact if_neg (by rw [hn]; exact Nat.not_lt.2 hle)

theorem wdExpire_early {x n : Nat} (hx : (s.core k).wdAt = some x) (hn : s.now = n) (hlt : n < x) : s.wdExpire k = s := by
  unfold State.wdExpire
  rw [hx]
  exact if_pos (by rw [hn]; exact hlt)

/-! ## The timer (R452) -/

theorem wakeCore_core (s : State) (k : Nat) : ((s.wakeCore k).core k).mtip = (s.core k).mtip ∧
    ((s.core k).st ≠ .wfi → (s.wakeCore k).core k = s.core k) ∧ ∀ j, j ≠ k → (s.wakeCore k).core j = s.core j := by
  unfold State.wakeCore
  split
  · rw [modCore_core]
    refine ⟨?_, fun h => if_neg h, fun j hj => modCore_other _ _ hj⟩
    split <;> rfl
  · exact ⟨rfl, fun _ => rfl, fun _ _ => rfl⟩

theorem setMtip_core (s : State) (k : Nat) {on : Bool} (hon : on = (!s.coreHeld k && decide ((s.core k).timeCmp ≤ s.mtime % 2 ^ 64))) :
    ((s.setMtip k).core k).mtip = on ∧ ((s.core k).st ≠ .wfi → (s.setMtip k).core k = { s.core k with mtip := on }) ∧
      ∀ j, j ≠ k → (s.setMtip k).core j = s.core j := by
  have hset : s.setMtip k = if on then (s.modCore k fun c => { c with mtip := on }).wakeCore k else s.modCore k fun c => { c with mtip := on } := by
    rw [hon]
    rfl
  have hcore : (s.modCore k fun c => { c with mtip := on }).core k = { s.core k with mtip := on } := modCore_core ..
  rw [hset]
  split
  · obtain ⟨hmtip, hst, hj⟩ := wakeCore_core (s.modCore k fun c => { c with mtip := on }) k
    rw [hcore] at hmtip hst
    exact ⟨hmtip, hst, fun j h => (hj j h).trans (modCore_other _ _ h)⟩
  · rw [hcore]
    exact ⟨rfl, fun _ => rfl, fun j h => modCore_other _ _ h⟩

/-! ## The scrubber (R464) -/

theorem scrub_rests {n : Nat} (hn : s.now = n) (h : bit s.mem.scrub 0 = false ∨ n < s.mem.scrubT + ns (fld s.mem.scrub 8 24) ∨
    s.beatLocked none (s.mem.scrubAt * 64) 64 = true) : s.scrub = s := by
  subst hn
  refine if_pos ?_
  rcases h with h | h | h
  · simp [h]
  · simp only [Bool.or_eq_true, decide_eq_true_eq]
    exact .inl (.inr h)
  · simp [State.coreWaits, h]

theorem sramRead_scrub (s : State) (a n : Nat) : (s.sramRead a n).2.mem.scrubPass = s.mem.scrubPass := by
  unfold State.sramRead
  split
  · rfl
  · dsimp only
    split <;> rfl

/-- R462: a read corrects the words it finds weak. -/
theorem sramRead_corrects {a n : Nat} (h : s.badWord a n = none) : ∀ x ∈ (s.sramRead a n).2.mem.weak, x ∉ words64 a n := by
  intro x hx hw
  unfold State.sramRead at hx
  rw [h] at hx
  dsimp only at hx
  split at hx
  · next he =>
    have hm : x ∈ (words64 a n).filter fun y => s.mem.weak.contains y := List.mem_filter.2 ⟨hw, by simpa using hx⟩
    rw [List.isEmpty_iff.1 he] at hm
    cases hm
  · obtain ⟨hm, hn⟩ := List.mem_filter.1 hx
    have : x ∈ (words64 a n).filter fun y => s.mem.weak.contains y := List.mem_filter.2 ⟨hw, by simpa using hm⟩
    simp [hw, hm] at hn

theorem scrub_reads {n : Nat} (hn : s.now = n) (hb : bit s.mem.scrub 0 = true) (hle : s.mem.scrubT + ns (fld s.mem.scrub 8 24) ≤ n)
    (hl : s.beatLocked none (s.mem.scrubAt * 64) 64 = false) {u : State} (hu : u = (s.sramRead (s.mem.scrubAt * 64) 64).2) :
    s.scrub = { u with mem := { u.mem with scrubAt := if s.mem.scrubAt + 1 = beatCount then 0 else s.mem.scrubAt + 1, scrubT := u.now,
                                           scrubPass := if s.mem.scrubAt + 1 = beatCount then u.mem.scrubPass + 1 else u.mem.scrubPass } } := by
  subst hn hu
  refine (if_neg ?_).trans ?_
  · simp only [hb, State.coreWaits, hl, Bool.not_true, Bool.false_or, Bool.or_false, decide_eq_true_eq]
    exact Nat.not_lt.2 hle
  · rfl

/-- The two words of a time. -/
theorem hiW_loW (n : Nat) : (hiW n).toNat * 2 ^ 32 + (loW n).toNat = n % 2 ^ 64 := by
  simp only [hiW, loW, BitVec.toNat_ofNat, Nat.shiftRight_eq_div_pow]
  omega

end

/-- Settles O45: a core by its state, its watchdog by what starts, loads and ends it, the timer and the scrubber by their conditions. -/
theorem coresResetAndTheirTimersRun : Obligations.CoresResetAndTheirTimersRun := by
  unfold Obligations.CoresResetAndTheirTimersRun
  refine ⟨?_, ?_, ?_, ?_, ?_, ?_, ?_, ?_, ?_⟩
  · intro t m k v s hs
    have hreset : exec (.coreReset t m k v) s = .next ((s.arrive t).coreCtrl m k (v ||| 1)) := regWrite_serves (f := fun s => s.coreCtrl m k (v ||| 1)) hs
    have hrel : exec (.coreRelease t m k v) s = .next ((s.arrive t).coreCtrl m k (v &&& ~~~1)) :=
      regWrite_serves (f := fun s => s.coreCtrl m k (v &&& ~~~1)) hs
    have hset : bit (v ||| 1) 0 = true := by simp [bit]
    have hclear : bit (v &&& ~~~1) 0 = false := by simp [bit]
    refine ⟨fun hm ho hst => ?_, fun h => ?_, fun hst => ?_, fun hst => ?_, fun hst => ?_⟩
    · rw [hreset, coreCtrl_resets (s := s.arrive t) hset hm ho hst]
      rfl
    · rw [hreset, coreCtrl_refuses (s := s.arrive t) hset h]
    · have hst' : ((s.arrive t).core k).st = .inReset := hst
      obtain ⟨a, l, h⟩ := coreGo_core (s.arrive t) k
      rw [hrel, coreCtrl_releases hclear, hst']
      refine ⟨_, rfl, ?_, ?_, ?_, fun j hj => coreGo_other _ hj, rfl, rfl⟩ <;> rw [h]
      rfl
    · have hst' : ((s.arrive t).core k).st = .resetting := hst
      rw [hrel, coreCtrl_releases hclear, hst']
      rfl
    · rw [hrel, coreCtrl_releases hclear]
      have hst' : ((s.arrive t).core k).st = .run ∨ ((s.arrive t).core k).st = .wfi := hst
      rcases hst' with h | h <;> rw [h]
  · intro t k s hup
    have hexec : exec (.coreInReset t k) s = .next (if ((s.arrive t).core k).st = .resetting then (s.arrive t).coreInReset k else s.arrive t) :=
      engineEvent_up (f := fun s => if (s.core k).st = .resetting then s.coreInReset k else s) hup
    refine ⟨fun h => ?_, fun h => ⟨(s.arrive t).coreInReset k, ?_, ?_⟩⟩
    · have h' : ((s.arrive t).core k).st ≠ .resetting := h
      rw [hexec, if_neg h']
    · have h' : ((s.arrive t).core k).st = .resetting := h
      rw [hexec, if_pos h']
    obtain ⟨a, l, hc⟩ := coreInReset_core (s.arrive t) k
    rw [hc]
    refine ⟨rfl, rfl, rfl, rfl, rfl, rfl, rfl, rfl, rfl, coreInReset_mem .., fun i hb hcore hl => ?_, fun i ha hb hcore => ?_,
      fun j hj => coreInReset_other _ hj⟩
    · have hcic := (forgetCore_rest (s.arrive t) k).cic i
      rw [coreInReset_cic]
      exact cicCoreReset_bound (by rw [hcic]; exact hb) (by rw [hcic]; exact hcore) hl
    · have hcic := (forgetCore_rest (s.arrive t) k).cic i
      rw [coreInReset_cic]
      exact cicCoreReset_active (by rw [hcic]; exact ha) (by rw [hcic]; exact hb) (by rw [hcic]; exact hcore)
  · rintro t m k v w s hs hw
    have hw' : w = wdWord v := hw
    subst hw'
    refine ⟨_, regWrite_serves (f := fun s => s.wdCtrl k v) hs, fun h => ?_, fun h hv => ?_, fun h hv hp => ?_⟩
    · rw [wdCtrl_on (s := s.arrive t) h, State.setCore_core, if_pos rfl]
      rfl
    · rw [wdCtrl_off (s := s.arrive t) h hv, State.setCore_core, if_pos rfl]
      rfl
    · exact wdCtrl_starts (s := s.arrive t) h hv hp
  · intro t m k v s hs
    have hexec : exec (.wdKick t m k v) s = .next ((s.arrive t).wdKick m k v) := regWrite_serves (f := fun s => s.wdKick m k v) hs
    refine ⟨fun hm hv he hp => ?_, fun h => ?_⟩
    · rw [hexec, wdKick_loads (s := s.arrive t) hm hv he, wdLoad_running (s := s.arrive t) hp]
      rfl
    · rw [hexec, wdKick_rests (s := s.arrive t) h]
  · intro t k s x hup hx
    have hexec : exec (.watchdogExpiry t k) s = .next ((s.arrive t).wdExpire k) := engineEvent_up (f := fun s => s.wdExpire k) hup
    refine ⟨fun hlt => ?_, fun hle => ⟨_, hexec, ?_⟩⟩
    · rw [hexec, wdExpire_early (s := s.arrive t) hx rfl hlt]
    · rw [wdExpire_due (s := s.arrive t) hx rfl hle]
      have hfires := wdFires_core (s.arrive t) k
      have hrep : ((s.arrive t).wdFires k).fc.raised.getLsbD (140 + k) = true := report_raises _ (by omega)
      by_cases ha : bit (s.core k).wdActive 1 = true
      · have hif : (if bit ((s.arrive t).core k).wdActive 1 = true then ((s.arrive t).wdFires k).wdResets k else (s.arrive t).wdFires k) =
          ((s.arrive t).wdFires k).wdResets k := if_pos ha
        obtain ⟨a, l, hl⟩ := wdLoad_core (((s.arrive t).wdFires k).wdResets k) k
        obtain ⟨a', l', hr⟩ := wdResets_core ((s.arrive t).wdFires k) k
        rw [hr, hfires] at hl
        rw [hif, hl]
        refine ⟨rfl, ?_, rfl, fun h => absurd (h.symm.trans ha) (by decide), fun _ => ⟨rfl, rfl, rfl⟩⟩
        rw [wdLoad_fc, wdResets_fc]
        exact hrep
      · have hif : (if bit ((s.arrive t).core k).wdActive 1 = true then ((s.arrive t).wdFires k).wdResets k else (s.arrive t).wdFires k) =
          (s.arrive t).wdFires k := if_neg ha
        obtain ⟨a, l, hl⟩ := wdLoad_core ((s.arrive t).wdFires k) k
        rw [hfires] at hl
        rw [hif, hl]
        exact ⟨rfl, hrep, rfl, fun _ => ⟨rfl, rfl⟩, fun h => absurd h ha⟩
  · intro t k s hup
    refine ⟨_, engineEvent_up (f := fun s => s.setMtip k) hup, ?_⟩
    obtain ⟨hmtip, hst, hj⟩ := setMtip_core (s.arrive t) k rfl
    refine ⟨hmtip, fun h => ?_, hj⟩
    rw [hmtip]
    exact hst h
  · intro t s hup
    have hexec : exec (.scrubBeat t) s = .next (s.arrive t).scrub := engineEvent_up hup
    refine ⟨fun h => ?_, fun hb hle hl => ⟨_, hexec, ?_⟩⟩
    · rw [hexec, scrub_rests (s := s.arrive t) rfl h]
    · have hread := sramRead_readOnly (s.arrive t) (s.mem.scrubAt * 64) 64
      have hnow : ((s.arrive t).sramRead (s.mem.scrubAt * 64) 64).2.now = max s.now t := (kept_sramRead (.refl (s.arrive t))).now
      have hpass := sramRead_scrub (s.arrive t) (s.mem.scrubAt * 64) 64
      rw [scrub_reads (s := s.arrive t) rfl hb hle hl rfl]
      refine ⟨hread.sram, hnow, fun h => ⟨if_neg h, (if_neg h).trans hpass⟩, fun h => ⟨if_pos h, (if_pos h).trans (congrArg (· + 1) hpass)⟩, fun hbad => ?_⟩
      exact sramRead_corrects (s := s.arrive t) hbad
  · intro t m v s hs
    exact regWrite_serves (f := fun s => s.arbCtrl v) hs
  · intro s k n
    have hk : ∀ k : Fin 4, (wAt 0 k).toNat = k := by decide
    refine ⟨hk k, rfl, rfl, rfl, rfl, rfl, hiW_loW _⟩

end Sys2Proof.Machine
end


section
/-! PROOFS. Register writes by their block, BAR4, and the TCM access port (O51). -/

namespace Sys2Proof.Machine

section
variable {s u : State} {m : Ident} {o : Nat} {v : Word} {t : Time}

/-! ## The block an offset lies in (R522 to R524) -/

theorem putReg_of_block {b : Block} (hb : blockOf o = some b) : s.putReg m o v = b.put s m ((o - b.base) / b.stride) ((o - b.base) % b.stride) v := by
  unfold State.putReg
  rw [hb]

/-- A write at offset `r` of the `i`th part of a block. -/
theorem putReg_in {b : Block} {as bs : List Block} (hsplit : blocksA ++ blocksB = as ++ b :: bs)
    (hbelow : ∀ a ∈ as, a.base + a.stride * a.count ≤ b.base) {i r : Nat} (hi : i < b.count) (hr : r < b.stride) (ho : o = b.base + i * b.stride + r) :
    s.putReg m o v = b.put s m i r v := by
  have hpos : 0 < b.stride := Nat.lt_of_le_of_lt (Nat.zero_le _) hr
  have hsub : o - b.base = b.stride * i + r := by rw [Nat.mul_comm]; omega
  have hlt : b.stride * i + r < b.stride * b.count := by
    calc b.stride * i + r < b.stride * i + b.stride := by omega
      _ = b.stride * (i + 1) := (Nat.mul_succ ..).symm
      _ ≤ b.stride * b.count := Nat.mul_le_mul_left _ hi
  have hb : blockOf o = some b := blockOf_eq hsplit hbelow (by rw [Block.has_iff]; omega)
  rw [putReg_of_block hb, hsub, Nat.mul_add_div hpos, Nat.div_eq_of_lt hr, Nat.mul_add_mod, Nat.mod_eq_of_lt hr, Nat.add_zero]

theorem putReg_outside (h : ∀ b ∈ blocksA ++ blocksB, ¬(b.base ≤ o ∧ o < b.base + b.stride * b.count)) :
    s.putReg m o v = s ∧ s.getReg m o = (0, s) := by
  have hnone : blockOf o = none := List.find?_eq_none.2 fun b hb hx => h b hb ((Block.has_iff b o).1 hx)
  unfold State.putReg State.getReg
  rw [hnone]
  exact ⟨rfl, rfl⟩

/-- A whole aligned word reaches its register. -/
theorem registerWrite_reaches {f : State → State} (hm : m ≠ 0x20) (ho : o % 4 = 0) (hf : ∀ s : State, s.putReg m o v = f s) :
    exec (.registerWrite t m o 15 v) s = regWrite t o s f := by
  have hfun : (fun s : State => if (15 : BitVec 4) = 15 && o % 4 = 0 && m ≠ 0x20 then s.putReg m o v else s) = f := by
    funext s
    rw [if_pos (by rw [ho]; simpa using hm), hf]
  change regWrite t o s (fun s => if (15 : BitVec 4) = 15 && o % 4 = 0 && m ≠ 0x20 then s.putReg m o v else s) = _
  rw [hfun]

/-! ## The registers with a command of their own -/

theorem putReg_cmpCtrl (k : Fin 256) : s.putReg m (cmpOfs k) v = s.cmpCtrl k v :=
  putReg_in (as := blocksA.take 5) (bs := blocksA.drop 6 ++ blocksB) rfl (by decide) (i := k) (r := 0) k.2 (by decide) rfl

theorem putReg_cellMod (c : Fin 64) : s.putReg m (cellOfs c + 4) v = s.writeMod c v :=
  (putReg_cell s m c (by decide) v).trans rfl

theorem putReg_domCtrl (d : Fin 256) : s.putReg m (domOfs d) v = s.domCtrl d v :=
  putReg_in (as := blocksA.take 17) (bs := blocksA.drop 18 ++ blocksB) rfl (by decide) (i := d) (r := 0) d.2 (by decide) rfl

theorem putReg_fqDb (d : Fin 256) : s.putReg m (fqOfs d + 0xC) v = s.fqDoorbell d v :=
  putReg_in (as := blocksA.take 18) (bs := blocksA.drop 19 ++ blocksB) rfl (by decide) (i := d) (r := 0xC) d.2 (by decide) rfl

theorem putReg_funcReset : s.putReg m 0x1004 v = s.funcReset v :=
  putReg_in (as := blocksA.take 1) (bs := blocksA.drop 2 ++ blocksB) rfl (by decide) (i := 0) (r := 4) (by decide) (by decide) rfl

theorem putReg_undRest : s.putReg m (undBase + 4) v = s.undRest v :=
  putReg_in (as := blocksA.take 2) (bs := blocksA.drop 3 ++ blocksB) rfl (by decide) (i := 0) (r := 4) (by decide) (by decide) rfl

theorem putReg_invGo : s.putReg m (xlOfs + 0x20) v = s.invGo v :=
  putReg_in (as := blocksA.take 16) (bs := blocksA.drop 17 ++ blocksB) rfl (by decide) (i := 0) (r := 0x20) (by decide) (by decide) rfl

theorem putReg_portCtrl (p : Fin 16) : s.putReg m (portOfs p) v = s.portCtrl p v :=
  putReg_in (as := blocksA ++ blocksB.take 9) (bs := blocksB.drop 10) rfl (by decide) (i := p) (r := 0) p.2 (by decide) rfl

theorem putReg_mbSend (b : Fin 64) : s.putReg m (mbOfs b + 0x20) v = s.mbSendWrite m b v := by
  refine (putReg_in (as := blocksA ++ blocksB.take 6) (bs := blocksB.drop 7) rfl (by decide) (i := b) (r := 0x20) b.2 (by decide) rfl).trans ?_
  change s.mbWrite m b 0x20 v = s.mbSendWrite m b v
  unfold State.mbWrite
  cases h : (s.mb b).side m with
  | none => exact (mbSendWrite_foreign h v).symm
  | some a => rfl

theorem putReg_wdCtrl (k : Fin 4) : s.putReg m (coreOfs k + 0x24) v = s.wdCtrl k v :=
  putReg_in (as := blocksA ++ blocksB.take 12) (bs := blocksB.drop 13) rfl (by decide) (i := k) (r := 0x24) k.2 (by decide) rfl

theorem putReg_cicPend (w : Fin 32) : s.putReg m (cicOfs + 0x1000 + 4 * w) v = s.cicSet w v := by
  refine (putReg_in (as := blocksA ++ blocksB.take 3) (bs := blocksB.drop 4) rfl (by decide) (i := 0) (r := 0x1000 + 4 * w) (by decide)
    (show 0x1000 + 4 * w.val < 0x2080 by omega) (Nat.add_assoc ..)).trans ?_
  change s.cicWrite m (0x1000 + 4 * w) v = _
  unfold State.cicWrite
  have hw : (0x1000 + 4 * w.val - 0x1000) / 4 = w := by omega
  rw [if_neg (by omega), if_pos (by omega), hw]

theorem putReg_fcTkey : s.putReg m (fcOfs + 0x20) v = s.fcTkey m v :=
  putReg_in (as := blocksA ++ blocksB.take 8) (bs := blocksB.drop 9) rfl (by decide) (i := 0) (r := 0x20) (by decide) (by decide) rfl

theorem putReg_lineStop : s.putReg m (yzOfs + 0x1A0) v = s.stopWrite v :=
  putReg_in (as := blocksA ++ blocksB.take 10) (bs := blocksB.drop 11) rfl (by decide) (i := 0) (r := 0x1A0) (by decide) (by decide) rfl

theorem putReg_fuseCmd : s.putReg m (bootOfs + 0x40) v = s.fuseCmd m v :=
  putReg_in (as := blocksA ++ blocksB.take 17) (bs := blocksB.drop 18) rfl (by decide) (i := 0) (r := 0x40) (by decide) (by decide) rfl

/-! ## BAR4 (R462, R469, R531) -/

theorem bar4_rests {n : Nat} (h : sramSize < o + n ∨ s.beatLocked none o n = true) (w : Option (List Byte)) : s.bar4 o n w = s :=
  if_pos (by simpa using h)

theorem bar4_writes {n : Nat} (hn : o + n ≤ sramSize) (hb : s.beatLocked none o n = false) (w : List Byte) :
    s.bar4 o n (some w) = s.sramWrite o (w.take n) :=
  if_neg (by simp [hb, Nat.not_lt.2 hn])

theorem beatPieces_one {n : Nat} (h : o / 64 = (o + n - 1) / 64) (hn : 0 < n) : beatPieces o n = [(o, n)] := by
  have hpieces : beatPieces o n = (List.range ((o + n - 1) / 64 - o / 64 + 1)).map fun i =>
      (max o ((o / 64 + i) * 64), min (o + n) ((o / 64 + i + 1) * 64) - max o ((o / 64 + i) * 64)) := if_neg (Nat.ne_of_gt hn)
  have hlo : max o ((o / 64 + 0) * 64) = o := by omega
  have hhi : min (o + n) ((o / 64 + 0 + 1) * 64) - o = n := by omega
  rw [hpieces, ← h, Nat.sub_self, Nat.zero_add, List.range_one, List.map_singleton, hlo, hhi]

theorem bar4_reads {n : Nat} {b : List Byte} (hn : o + n ≤ sramSize) (hb : s.beatLocked none o n = false) (h : o / 64 = (o + n - 1) / 64) (h0 : 0 < n)
    (hr : s.sramRead o n = (some b, u)) : s.bar4 o n none = u.emit (.reply (toWords b)) := by
  refine (if_neg (by simp [hb, Nat.not_lt.2 hn])).trans ?_
  change s.bar4Read o n = _
  unfold State.bar4Read
  rw [beatPieces_one h h0, List.foldl_cons, List.foldl_nil]
  dsimp only
  rw [hr] <;> rfl

theorem exec_bar4_read (hs : s.serves 0 = true) (n : Nat) : exec (.bar4Access t o n none) s = .next ((s.arrive t).bar4 o n none) := by
  have hs' : (s.arrive t).serves 0 = true := hs
  change execBar4Access t o n none s = _
  unfold execBar4Access
  dsimp only
  rw [if_pos hs']

theorem exec_bar4_write (hs : s.serves 0 = true) (n : Nat) (w : List Byte) :
    exec (.bar4Access t o n (some w)) s = .next ((s.arrive t).bar4 o n (some w)) := by
  change regWrite t 0 s (fun s => s.bar4 o n (some w)) = _
  exact regWrite_serves hs

/-! ## The TCM access port (R528) -/

theorem tcmaWrite_denied (hm : m ≠ 0x01) : s.tcmaWrite m v = s := if_pos hm

theorem tcmaWrite_open (hm : m = 0x01) (ho : s.tcmOpen = true) :
    s.tcmaWrite m v = (s.tcmWriteOther s.svc.tcmCore s.svc.tcmByte (leBytes 4 v.toNat)).tcmAdvance :=
  (if_neg (not_not_intro hm)).trans (if_pos ho)

theorem tcmaWrite_shut (hm : m = 0x01) (ho : s.tcmOpen = false) :
    s.tcmaWrite m v = ({ s with svc := { s.svc with denied := true } } : State).tcmAdvance :=
  (if_neg (not_not_intro hm)).trans (if_neg (Bool.eq_false_iff.1 ho))

theorem tcmaRead_open {b : List Byte} (hm : m = 0x01) (ho : s.tcmOpen = true) (hr : s.tcmRead s.svc.tcmCore s.svc.tcmByte 4 = (some b, u)) :
    s.tcmaRead m = (BitVec.ofNat 32 (leNat b), u.tcmAdvance) := by
  refine (if_pos hm).trans ?_
  unfold State.tcmaTake
  rw [if_pos ho, hr]

end

/-- Settles O51: a register write by the block its offset lies in, BAR4 by the range it names, the TCM port by whether its core is open. -/
theorem registerAccessesReachTheirBlock : Obligations.RegisterAccessesReachTheirBlock := by
  unfold Obligations.RegisterAccessesReachTheirBlock
  refine ⟨?_, ?_, ?_, ?_, ?_⟩
  · intro t m o be v s hs
    refine ⟨fun h => ?_, ?_⟩
    · refine (regWrite_serves (f := fun s => if be = 15 && o % 4 = 0 && m ≠ 0x20 then s.putReg m o v else s) hs).trans (congrArg _ (if_neg ?_))
      simp only [Bool.and_eq_true, decide_eq_true_eq]
      rintro ⟨⟨hbe, ho⟩, hm⟩
      exact h.elim (· hbe) fun h => h.elim (· ho) hm
    · rintro rfl ho hm
      exact exec_registerWrite_word hs ho hm
  · intro s m o v h
    exact putReg_outside h
  · intro t m v s o i hm h
    rcases h with ⟨k, rfl, rfl⟩ | ⟨c, rfl, rfl⟩ | ⟨p, rfl, rfl⟩ | ⟨d, rfl, rfl⟩ | ⟨d, rfl, rfl⟩ | ⟨b, rfl, rfl⟩ | ⟨k, rfl, rfl⟩ | ⟨w, rfl, rfl⟩ |
      ⟨rfl, rfl⟩ | ⟨rfl, rfl⟩ | ⟨rfl, rfl⟩ | ⟨rfl, rfl⟩ | ⟨rfl, rfl⟩ | ⟨rfl, rfl⟩
    · exact registerWrite_reaches hm (by unfold cmpOfs; omega) fun _ => putReg_cmpCtrl k
    · exact registerWrite_reaches hm (by unfold cellOfs; omega) fun _ => putReg_cellMod c
    · exact registerWrite_reaches hm (by unfold portOfs; omega) fun _ => putReg_portCtrl p
    · exact registerWrite_reaches hm (by unfold domOfs; omega) fun _ => putReg_domCtrl d
    · exact registerWrite_reaches hm (by unfold fqOfs; omega) fun _ => putReg_fqDb d
    · exact registerWrite_reaches hm (by unfold mbOfs; omega) fun _ => putReg_mbSend b
    · exact registerWrite_reaches hm (by unfold coreOfs; omega) fun _ => putReg_wdCtrl k
    · exact registerWrite_reaches hm (by unfold cicOfs; omega) fun _ => putReg_cicPend w
    · exact registerWrite_reaches (f := fun s => s.funcReset v) hm (by decide) fun _ => putReg_funcReset
    · exact registerWrite_reaches (f := fun s => s.undRest v) hm (by decide) fun _ => putReg_undRest
    · exact registerWrite_reaches (f := fun s => s.invGo v) hm (by decide) fun _ => putReg_invGo
    · exact registerWrite_reaches (f := fun s => s.fcTkey m v) hm (by decide) fun _ => putReg_fcTkey
    · exact registerWrite_reaches (f := fun s => s.stopWrite v) hm (by decide) fun _ => putReg_lineStop
    · exact registerWrite_reaches (f := fun s => s.fuseCmd m v) hm (by decide) fun _ => putReg_fuseCmd
  · intro t o n w s hs
    have hwrite : exec (.bar4Access t o n (some w)) s = .next ((s.arrive t).bar4 o n (some w)) := exec_bar4_write hs n w
    have hread : exec (.bar4Access t o n none) s = .next ((s.arrive t).bar4 o n none) := exec_bar4_read hs n
    refine ⟨fun h => ?_, fun hn hb => ?_, fun b s1 hn hb h h0 hr => ?_⟩
    · rw [hwrite, hread, bar4_rests (s := s.arrive t) h, bar4_rests (s := s.arrive t) h]
      exact ⟨rfl, rfl⟩
    · rw [hwrite, bar4_writes (s := s.arrive t) hn hb]
    · rw [hread, bar4_reads (s := s.arrive t) hn hb h h0 hr]
  · rintro t m v s _ hs rfl
    have hwrite : exec (.tcmaData t m (some v)) s = .next ((s.arrive t).tcmaWrite m v) := regWrite_serves (f := fun s => s.tcmaWrite m v) hs
    have hread : exec (.tcmaData t m none) s = .next (((s.arrive t).tcmaRead m).2.reply ((s.arrive t).tcmaRead m).1) :=
      regRead_serves (g := fun s => s.tcmaRead m) hs
    refine ⟨fun hm => ?_, fun hm ho => ⟨_, hwrite, ?_⟩, fun hm ho => ⟨_, hwrite, ?_⟩, fun b s1 hm ho hr => ?_⟩
    · rw [hwrite, tcmaWrite_denied hm]
    · rw [tcmaWrite_open (s := s.arrive t) hm ho]
      exact ⟨rfl, rfl, rfl⟩
    · rw [tcmaWrite_shut (s := s.arrive t) hm ho]
      exact ⟨rfl, rfl⟩
    · rw [hread, tcmaRead_open (s := s.arrive t) hm ho hr]

end Sys2Proof.Machine
end


section
/-! PROOFS. Forced rests, permits, the windows of the budgets and SERVICE_EN (O32). -/

namespace Sys2Proof.Machine

section
variable {s u : State} {p k n : Nat} {t : Time}

/-! ## An event of the Understory -/

/-- A watched event changes nothing but the Understory. -/
theorem watchEvent_und (s : State) (code : Nat) : ∃ x, s.watchEvent code = { s with und := x } := by
  unfold State.watchEvent State.wake
  dsimp only
  split
  · exact ⟨s.und, rfl⟩
  · split <;> exact ⟨_, rfl⟩

/-! ## A forced rest (R352 to R354) -/

/-- The pin after a forced rest at `t`. -/
def State.restedPin (s : State) (p : Nat) (t : Time) : Pin :=
  if (s.pin p).onSince.isNone then s.pin p else { (s.pin p).rest t with hold := (s.ou p).drive == s.onLevel p }

/-- The output unit after a forced rest at `t` with its cause. -/
def State.restedOu (s : State) (p k : Nat) (t : Time) : OutUnit :=
  if (s.pin p).onSince.isNone then s.ou p
  else { s.ou p with edgeT := t, clamps := (s.ou p).clamps + 1, lastCause := BitVec.ofNat 4 k, clampT := t }

theorem clamp_frame (s : State) (p k : Nat) (t : Time) : (s.clamp p k t).outs.pins = s.outs.pins ∧ (s.clamp p k t).outs.permits = s.outs.permits ∧
    (s.clamp p k t).outs.window = s.outs.window ∧ (s.clamp p k t).lws = s.lws ∧ (s.clamp p k t).rst = s.rst ∧
    (s.clamp p k t).fc = { s.fc with raised := s.fc.raised ||| BitVec.ofNat 256 (1 <<< (96 + p / 16)) } := by
  unfold State.clamp
  dsimp only
  split <;> exact ⟨rfl, rfl, rfl, rfl, rfl, rfl⟩

theorem clamp_pin (s : State) (p k : Nat) (t : Time) (j : Nat) : (s.clamp p k t).pin j = s.pin j := by
  rw [State.pin, (clamp_frame s p k t).1, State.pin]

theorem clamp_ou_other (s : State) (p k : Nat) (t : Time) {j : Nat} (h : j ≠ p) : (s.clamp p k t).ou j = s.ou j := by
  unfold State.clamp
  dsimp only
  split
  · exact (State.setOu_ou ..).trans (if_neg h)
  · exact (State.setOu_ou ..).trans (if_neg h)

theorem clamp_holder (s : State) (p k : Nat) (t : Time) {c : Nat} (h : (s.ou p).holder = some c) :
    (s.clamp p k t).chan c = (s.chan c).setSt stFenceClamp := by
  unfold State.clamp
  dsimp only
  rw [h]
  exact (State.setChan_chan ..).trans (if_pos rfl)

/-- A pin that is on is taken to rest, and the clamp is noted. -/
theorem forceRest_on (h : (s.pin p).onSince.isSome = true) : s.forceRest p k t =
    ((s.setPin p { (s.pin p).rest t with hold := (s.ou p).drive == s.onLevel p }).setOu p { s.ou p with edgeT := t }).clamp p k t := by
  refine if_neg ?_
  rw [Bool.not_eq_true, Option.isNone_eq_false_iff]
  exact h

theorem forceRest_off (h : (s.pin p).onSince = none) : s.forceRest p k t = s := if_pos (by rw [h]; rfl)

theorem forceRest_pin (s : State) (p k : Nat) (t : Time) (j : Nat) : (s.forceRest p k t).pin j = if j = p then s.restedPin p t else s.pin j := by
  unfold State.restedPin
  cases h : (s.pin p).onSince with
  | none =>
    rw [forceRest_off h, if_pos Option.isNone_none]
    split
    · next hj => rw [hj]
    · rfl
  | some a =>
    rw [forceRest_on (by rw [h]; rfl), clamp_pin, State.setOu_pin, State.setPin_pin]
    rfl

theorem forceRest_ou (s : State) (p k : Nat) (t : Time) (j : Nat) : (s.forceRest p k t).ou j = if j = p then s.restedOu p k t else s.ou j := by
  unfold State.restedOu
  cases h : (s.pin p).onSince with
  | none =>
    rw [forceRest_off h, if_pos Option.isNone_none]
    split
    · next hj => rw [hj]
    · rfl
  | some a =>
    rw [forceRest_on (by rw [h]; rfl)]
    by_cases hj : j = p
    · rw [hj, if_pos rfl, clamp_ou, State.setOu_ou, if_pos rfl]
      rfl
    · rw [if_neg hj, clamp_ou_other _ _ _ _ hj, State.setOu_ou, if_neg hj]
      rfl

theorem forceRest_frame (s : State) (p k : Nat) (t : Time) : (s.forceRest p k t).lws = s.lws ∧ (s.forceRest p k t).rst = s.rst ∧
    (s.forceRest p k t).outs.permits = s.outs.permits ∧ (s.forceRest p k t).und = s.und := by
  cases h : (s.pin p).onSince with
  | none =>
    rw [forceRest_off h]
    exact ⟨rfl, rfl, rfl, rfl⟩
  | some a =>
    have hund : (s.forceRest p k t).und = s.und := (kept_forceRest (.refl s)).und
    rw [forceRest_on (by rw [h]; rfl)] at hund ⊢
    obtain ⟨-, hp, -, hl, hr, -⟩ :=
      clamp_frame ((s.setPin p { (s.pin p).rest t with hold := (s.ou p).drive == s.onLevel p }).setOu p { s.ou p with edgeT := t }) p k t
    exact ⟨hl, hr, hp, hund⟩

/-- A pin that is at rest stays there; no pin is on after its forced rest. -/
theorem restedPin_off (s : State) (p : Nat) (t : Time) : (s.restedPin p t).onSince = none := by
  unfold State.restedPin Pin.rest
  cases h : (s.pin p).onSince with
  | none => simp [h]
  | some a => simp

theorem forceRest_spec (h : (s.pin p).onSince.isSome = true) {x : State} (hx : s.forceRest p k t = x) :
    (x.pin p).onSince = none ∧ (x.pin p).lastRest = some t ∧ (x.pin p).hold = ((s.ou p).drive == s.onLevel p) ∧
    x.ou p = { s.ou p with edgeT := t, clamps := (s.ou p).clamps + 1, lastCause := BitVec.ofNat 4 k, clampT := t } ∧
    x.fc.raised = s.fc.raised ||| BitVec.ofNat 256 (1 <<< (96 + p / 16)) ∧
    (∀ c, (s.ou p).holder = some c → (x.chan c).status = (s.chan c).status ||| 0x80) ∧
    (∀ j, j ≠ p → x.pin j = s.pin j ∧ x.ou j = s.ou j) ∧ Quiet s x := by
  obtain ⟨a, ha⟩ := Option.isSome_iff_exists.1 h
  have hnone : (s.pin p).onSince.isNone = false := by rw [ha]; rfl
  have hpin : x.pin p = { (s.pin p).rest t with hold := (s.ou p).drive == s.onLevel p } := by
    rw [← hx, forceRest_pin, if_pos rfl, State.restedPin, hnone]
    rfl
  have hou : x.ou p = { s.ou p with edgeT := t, clamps := (s.ou p).clamps + 1, lastCause := BitVec.ofNat 4 k, clampT := t } := by
    rw [← hx, forceRest_ou, if_pos rfl, State.restedOu, hnone]
    rfl
  have hrest : (s.pin p).rest t = { s.pin p with onSince := none, lastRest := some t, onLog := pruneLog t ((a, t) :: (s.pin p).onLog) } := by
    unfold Pin.rest
    rw [ha]
  rw [hpin, hrest, hou]
  refine ⟨rfl, rfl, rfl, rfl, ?_, fun c hc => ?_, fun j hj => ?_, ?_⟩
  · rw [← hx, forceRest_on h, (clamp_frame ..).2.2.2.2.2]
    rfl
  · rw [← hx, forceRest_on h, clamp_holder _ _ _ _ (by rw [State.setOu_ou, if_pos rfl]; exact hc)]
    rfl
  · rw [← hx, forceRest_pin, forceRest_ou, if_neg hj, if_neg hj]
    exact ⟨rfl, rfl⟩
  · rw [← hx]
    exact kept_forceRest (.refl s)

/-! ## The instants of MAX_ON and DUTY (R352, R358) -/

/-- The bisection ends at an instant at which the limit is reached, no later than the latest one. -/
theorem dutyInstant_reached {reached : Time → Bool} (n lo hi : Nat) (h : reached hi = true) :
    reached (dutyInstant reached n lo hi) = true ∧ (dutyInstant reached n lo hi : Nat) ≤ hi := by
  induction n generalizing lo hi with
  | zero => exact ⟨h, Nat.le_refl _⟩
  | succ n ih =>
    unfold dutyInstant
    by_cases hle : hi ≤ lo + 1
    · rw [if_pos hle]
      exact ⟨h, Nat.le_refl _⟩
    · rw [if_neg hle]
      dsimp only
      by_cases hm : reached ((lo + hi) / 2) = true
      · rw [if_pos hm]
        obtain ⟨hr, hb⟩ := ih lo ((lo + hi) / 2) hm
        exact ⟨hr, Nat.le_trans hb (by omega)⟩
      · rw [if_neg hm]
        exact ih _ _ h

theorem dutyDue_some {x : Nat} {t : Nat} (h : s.dutyDue p t = some x) : x ≤ t ∧ fld (s.pinWord p 1) 24 8 ≠ 0 ∧
    s.dutyLimit p ≤ (s.pin p).onTime (s.dutyWin p) x := by
  unfold State.dutyDue at h
  dsimp only at h
  split at h
  · split at h
    · next hc =>
      obtain ⟨h0, hr⟩ := Bool.and_eq_true_iff.1 hc
      obtain ⟨hx, hle⟩ := dutyInstant_reached (reached := fun u => decide (s.dutyLimit p ≤ (s.pin p).onTime (s.dutyWin p) u)) 64 ‹_› t hr
      rw [Option.some.inj h] at hx hle
      exact ⟨hle, of_decide_eq_true h0, of_decide_eq_true hx⟩
    · cases h
  · cases h

theorem dutyDue_on {a t : Nat} (h : (s.pin p).onSince = some a) : s.dutyDue p t =
    if fld (s.pinWord p 1) 24 8 ≠ 0 ∧ s.dutyLimit p ≤ (s.pin p).onTime (s.dutyWin p) t then
      some (dutyInstant (fun u => decide (s.dutyLimit p ≤ (s.pin p).onTime (s.dutyWin p) u)) 64 a t) else none := by
  unfold State.dutyDue
  dsimp only
  rw [h]
  simp only [Bool.and_eq_true, decide_eq_true_eq]

theorem dutyDue_none {t : Nat} : s.dutyDue p t = none ↔ (s.pin p).onSince = none ∨ fld (s.pinWord p 1) 24 8 = 0 ∨
    (s.pin p).onTime (s.dutyWin p) t < s.dutyLimit p := by
  cases h : (s.pin p).onSince with
  | none =>
    have hnone : s.dutyDue p t = none := by
      unfold State.dutyDue
      dsimp only
      rw [h]
    simp [hnone]
  | some a =>
    rw [dutyDue_on h]
    by_cases h0 : fld (s.pinWord p 1) 24 8 = 0
    · simp [h0]
    · by_cases hr : s.dutyLimit p ≤ (s.pin p).onTime (s.dutyWin p) t
      · simp [h0, hr, Nat.not_lt.2 hr]
      · simp [hr, Nat.lt_of_not_le hr]

theorem maxOnRest_on {a : Nat} (h : (s.pin p).onSince = some a) {m : Nat} (hm : s.now = m) : s.maxOnRest p =
    if s.maxOn p ≠ 0 ∧ a + s.maxOn p ≤ m then s.forceRest p 8 (a + s.maxOn p) else s := by
  subst hm
  unfold State.maxOnRest
  rw [h]
  dsimp only
  simp only [Bool.and_eq_true, decide_eq_true_eq]

theorem dutyRest_due {x : Time} (h : s.dutyDue p s.now = some x) : s.dutyRest p = s.forceRest p 9 x := by
  unfold State.dutyRest
  rw [h]

theorem dutyRest_none (h : s.dutyDue p s.now = none) : s.dutyRest p = s := by
  unfold State.dutyRest
  rw [h]

/-! ## Every pin at its turn -/

/-- A fold over the pins, each step of which touches one pin and its unit by what stands there and by the fence image. -/
theorem foldl_pins {f : State → Nat → State} {g : State → Nat → Pin} {e : State → Nat → OutUnit}
    (hpin : ∀ s j p, (f s j).pin p = if p = j then g s j else s.pin p) (hou : ∀ s j p, (f s j).ou p = if p = j then e s j else s.ou p)
    (hlws : ∀ s j, (f s j).lws = s.lws)
    (hg : ∀ s x j, x.pin j = s.pin j → x.ou j = s.ou j → x.lws = s.lws → g x j = g s j ∧ e x j = e s j) (n : Nat) (s : State) :
    ((List.range n).foldl f s).lws = s.lws ∧ ∀ p, ((List.range n).foldl f s).pin p = (if p < n then g s p else s.pin p) ∧
      ((List.range n).foldl f s).ou p = if p < n then e s p else s.ou p := by
  induction n with
  | zero => exact ⟨rfl, fun p => ⟨rfl, rfl⟩⟩
  | succ n ih =>
    obtain ⟨hl, ih⟩ := ih
    rw [List.range_succ, List.foldl_append, List.foldl_cons, List.foldl_nil]
    have hn := ih n
    rw [if_neg (Nat.lt_irrefl n), if_neg (Nat.lt_irrefl n)] at hn
    obtain ⟨hgn, hen⟩ := hg s ((List.range n).foldl f s) n hn.1 hn.2 hl
    refine ⟨(hlws ..).trans hl, fun p => ?_⟩
    rw [hpin, hou]
    by_cases hp : p = n
    · subst hp
      rw [if_pos rfl, if_pos rfl, if_pos (Nat.lt_succ_self p), if_pos (Nat.lt_succ_self p)]
      exact ⟨hgn, hen⟩
    · rw [if_neg hp, if_neg hp, (ih p).1, (ih p).2]
      by_cases hlt : p < n
      · rw [if_pos hlt, if_pos hlt, if_pos (Nat.lt_succ_of_lt hlt), if_pos (Nat.lt_succ_of_lt hlt)]
        exact ⟨rfl, rfl⟩
      · rw [if_neg hlt, if_neg hlt, if_neg (by omega), if_neg (by omega)]
        exact ⟨rfl, rfl⟩

theorem rested_eq {x : State} (hp : x.pin p = s.pin p) (ho : x.ou p = s.ou p) (hl : x.lws = s.lws) :
    x.restedPin p t = s.restedPin p t ∧ x.restedOu p k t = s.restedOu p k t := by
  have hon : x.onLevel p = s.onLevel p := by
    unfold State.onLevel State.pinWord State.fenceWord
    rw [hl]
  unfold State.restedPin State.restedOu
  rw [hp, ho, hon]
  exact ⟨rfl, rfl⟩

/-! ## Permits (R352, R355) -/

theorem foldl_rests (c : State → Nat → Bool) (hc : ∀ s x j, x.lws = s.lws → c x j = c s j) (k n : Nat) (t : Time) (s : State) {x : State}
    (hx : (List.range n).foldl (fun s j => if c s j then s.forceRest j k t else s) s = x) :
    ∀ p, p < n → (c s p = true → x.pin p = s.restedPin p t ∧ x.ou p = s.restedOu p k t) ∧ (c s p = false → x.pin p = s.pin p ∧ x.ou p = s.ou p) := by
  subst hx
  have h := (foldl_pins (f := fun s j => if c s j then s.forceRest j k t else s) (g := fun s j => if c s j then s.restedPin j t else s.pin j)
    (e := fun s j => if c s j then s.restedOu j k t else s.ou j) (fun s j p => ?_) (fun s j p => ?_) (fun s j => ?_) (fun s x j hp ho hl => ?_) n s).2
  · intro p hp
    obtain ⟨h1, h2⟩ := h p
    rw [h1, h2, if_pos hp, if_pos hp]
    exact ⟨fun hcp => ⟨if_pos hcp, if_pos hcp⟩, fun hcp => ⟨if_neg (by simp [hcp]), if_neg (by simp [hcp])⟩⟩
  · cases c s j with
    | true => exact forceRest_pin ..
    | false => exact (ite_eq_right_iff.2 fun h => by rw [h]; rfl).symm
  · cases c s j with
    | true => exact forceRest_ou ..
    | false => exact (ite_eq_right_iff.2 fun h => by rw [h]; rfl).symm
  · split
    · exact (forceRest_frame ..).1
    · rfl
  · obtain ⟨h1, h2⟩ := rested_eq (t := t) (k := k) hp ho hl
    rw [hc s x j hl, h1, h2, hp, ho]
    exact ⟨rfl, rfl⟩

/-- The pins that ask for permit `i` go to rest at `t`. -/
def State.permitRests (s : State) (i : Nat) (t : Time) : State :=
  (List.range pinCount).foldl (fun s j => if (s.permitReq j).testBit i then s.forceRest j 10 t else s) s

theorem permitRests_pins (s : State) (i : Nat) (t : Time) {x : State} (hx : s.permitRests i t = x) : ∀ p, p < 128 →
    ((s.permitReq p).testBit i = true → x.pin p = s.restedPin p t ∧ x.ou p = s.restedOu p 10 t) ∧
    ((s.permitReq p).testBit i = false → x.pin p = s.pin p ∧ x.ou p = s.ou p) :=
  foldl_rests (fun s j => (s.permitReq j).testBit i)
    (fun s x j h => by simp only [State.permitReq, State.pinWord, State.fenceWord, h]) 10 128 t s hx

theorem permitRests_frame (s : State) (i : Nat) (t : Time) :
    (s.permitRests i t).outs.permits = s.outs.permits ∧ (s.permitRests i t).und = s.und := by
  refine List.foldlRecOn (motive := fun x : State => x.outs.permits = s.outs.permits ∧ x.und = s.und) _ _ ⟨rfl, rfl⟩ fun x h j _ => ?_
  split
  · obtain ⟨-, -, hp, hu⟩ := forceRest_frame x j 10 t
    exact ⟨hp.trans h.1, hu.trans h.2⟩
  · exact h

theorem permitAccept_keeps {i : Nat} {level asserted : Bool} (h : (s.permitIn i).accepted = false ∨ asserted = true) :
    s.permitAccept i level asserted t = s.setPermitIn i { s.permitIn i with level := level, accepted := asserted, seen := true } := by
  refine if_neg ?_
  rcases h with h | h <;> simp [h]

theorem permitAccept_falls {i : Nat} {level : Bool} (h : (s.permitIn i).accepted = true) {v : State}
    (hv : (s.setPermitIn i { s.permitIn i with level := level, accepted := false, seen := true }).permitRests i t = v) :
    s.permitAccept i level false t = if v.resting then v else v.report (104 + i) := by
  subst hv
  exact if_pos (by simp [h])

/-- What the fall of an accepted permit leaves. -/
theorem permitAccept_fallen {i : Nat} (h : (s.permitIn i).accepted = true) (level : Bool) (t : Time) {v : State}
    (hv : s.permitAccept i level false t = v) (hi : i < 8) :
    v.permitIn i = { s.permitIn i with level := level, accepted := false, seen := true } ∧
    (s.resting = false → v.fc.raised.getLsbD (104 + i) = true) ∧
    ∀ p < 128, ((s.permitReq p).testBit i = true → (v.pin p).onSince = none ∧
        ((s.pin p).onSince.isSome = true → (v.ou p).lastCause = 10 ∧ (v.ou p).clamps = (s.ou p).clamps + 1 ∧ (v.ou p).clampT = t)) ∧
      ((s.permitReq p).testBit i = false → v.pin p = s.pin p ∧ v.ou p = s.ou p) := by
  have hs := permitRests_pins (s.setPermitIn i { s.permitIn i with level := level, accepted := false, seen := true }) i t rfl
  obtain ⟨hper, hund⟩ := permitRests_frame (s.setPermitIn i { s.permitIn i with level := level, accepted := false, seen := true }) i t
  rw [permitAccept_falls h rfl] at hv
  generalize hw : (s.setPermitIn i { s.permitIn i with level := level, accepted := false, seen := true }).permitRests i t = w at hv hs hper hund
  have hv' : v.outs = w.outs ∧ (w.resting = false → v.fc.raised.getLsbD (104 + i) = true) := by
    subst hv
    cases hr : w.resting with
    | true => exact ⟨rfl, fun h => by cases h⟩
    | false => exact ⟨rfl, fun _ => report_raises _ (by omega)⟩
  obtain ⟨houts, hraise⟩ := hv'
  refine ⟨?_, fun hr => hraise ?_, fun p hp => ⟨fun hb => ?_, fun hb => ?_⟩⟩
  · rw [State.permitIn, houts, hper]
    exact (State.setPermitIn_permitIn ..).trans (if_pos rfl)
  · rw [State.resting, hund]
    exact hr
  · obtain ⟨h1, h2⟩ := (hs p hp).1 hb
    have hpin : v.pin p = s.restedPin p t := by rw [State.pin, houts]; exact h1
    have hou : v.ou p = s.restedOu p 10 t := by rw [State.ou, houts]; exact h2
    rw [hpin, hou]
    refine ⟨restedPin_off .., fun hon => ?_⟩
    rw [State.restedOu, if_neg (by rw [Option.isNone_iff_eq_none]; exact Option.isSome_iff_ne_none.1 hon)]
    exact ⟨rfl, rfl, rfl⟩
  · obtain ⟨h1, h2⟩ := (hs p hp).2 hb
    exact ⟨by rw [State.pin, houts]; exact h1, by rw [State.ou, houts]; exact h2⟩

section
variable {i : Nat} {t x : Nat} (hx : (s.permitIn i).rawT + s.permitFilt i = x)
include hx

theorem permitQual_waits (h : t < x ∨ (s.permitIn i).seen = true ∧ (s.permitIn i).level = (s.permitIn i).raw) : s.permitQual i t = s := by
  subst hx
  refine if_pos ?_
  simp only [Bool.or_eq_true, Bool.and_eq_true, decide_eq_true_eq]
  exact h

theorem permitQual_accepts (ht : x ≤ t) (h : (s.permitIn i).seen = false ∨ (s.permitIn i).level ≠ (s.permitIn i).raw) {on : Bool}
    (hon : ((s.permitIn i).raw == s.permitHigh i) = on) : s.permitQual i t =
      if on = (s.permitIn i).accepted then s.permitAccept i (s.permitIn i).raw on x
      else (s.permitAccept i (s.permitIn i).raw on x).watchEvent (if on then 0x58 + i else 0x50 + i) := by
  subst hx hon
  refine if_neg ?_
  simp only [Bool.or_eq_true, Bool.and_eq_true, decide_eq_true_eq]
  rintro (hlt | ⟨hs, hl⟩)
  · exact Nat.not_lt.2 ht hlt
  · exact h.elim (fun h => Bool.false_ne_true (h.symm.trans hs)) (· hl)

end

/-! ## The windows of the budgets (R357) -/

/-- The budget of a pin begins afresh. -/
def State.refresh (s : State) (p : Nat) : State := s.setPin p { s.pin p with spent := 0 }

theorem foldl_refresh (l : List Nat) (s : State) (p : Nat) :
    (l.foldl State.refresh s).pin p = if p ∈ l then { s.pin p with spent := 0 } else s.pin p := by
  induction l generalizing s with
  | nil => rfl
  | cons j r ih =>
    rw [List.foldl_cons, ih, State.refresh, State.setPin_pin]
    by_cases hr : p ∈ r <;> by_cases hj : p = j <;> simp [hr, hj]

theorem openWindow_opens {t : Nat} (h : s.outs.window < t / ms 1) : s.openWindow t =
    (s.outs.pins.map (·.1)).foldl State.refresh { s with outs := { s.outs with window := t / ms 1 } } := if_pos h

theorem openWindow_pin {t : Nat} (h : s.outs.window < t / ms 1) (p : Nat) : (s.openWindow t).pin p = { s.pin p with spent := 0 } := by
  rw [openWindow_opens h, foldl_refresh]
  by_cases hm : p ∈ s.outs.pins.map (·.1)
  · exact if_pos hm
  · have hd : s.pin p = {} := tget_of_not_mem _ hm
    refine (if_neg hm).trans ?_
    change s.pin p = _
    rw [hd]

theorem openWindow_frame {t : Nat} (h : s.outs.window < t / ms 1) :
    (s.openWindow t).outs.window = t / ms 1 ∧ (s.openWindow t).lws = s.lws := by
  rw [openWindow_opens h]
  exact List.foldlRecOn (motive := fun x : State => x.outs.window = t / ms 1 ∧ x.lws = s.lws) _ _ ⟨rfl, rfl⟩ fun x h j _ => h

/-! ## SERVICE_EN (R367, R489) -/

theorem svcQual_frame (s : State) (t : Time) : (s.svcQual t).fc = s.fc ∧ (s.svcQual t).outs = s.outs ∧ (s.svcQual t).mem = s.mem ∧
    (s.svcQual t).lws = { s.lws with svc := s.lws.svc || (s.lws.svcRaw && decide (s.lws.svcT + ms 20 ≤ t)) } := by
  unfold State.svcQual
  dsimp only
  split
  · next h =>
    obtain ⟨x, hx⟩ := watchEvent_und { s with lws := { s.lws with svc := true } } 0x61
    obtain ⟨⟨hr, -⟩, hd⟩ : (s.lws.svcRaw = true ∧ s.lws.svc = false) ∧ s.lws.svcT + ms 20 ≤ t := by simpa using h
    have hsvc : (s.lws.svc || (s.lws.svcRaw && decide (s.lws.svcT + ms 20 ≤ t))) = true := by
      rw [hr, decide_eq_true hd, Bool.and_self, Bool.or_true]
    rw [hx, hsvc]
    exact ⟨rfl, rfl, rfl, rfl⟩
  · next h =>
    refine ⟨rfl, rfl, rfl, ?_⟩
    have hsvc : (s.lws.svc || (s.lws.svcRaw && decide (s.lws.svcT + ms 20 ≤ t))) = s.lws.svc := by
      revert h
      cases s.lws.svc <;> simp
    rw [hsvc]

theorem svcQual_now (s : State) (t : Time) : (s.svcQual t).now = s.now := by
  unfold State.svcQual
  dsimp only
  split
  · obtain ⟨x, hx⟩ := watchEvent_und { s with lws := { s.lws with svc := true } } 0x61
    rw [hx]
  · rfl

theorem svcEdge_now (s : State) (t : Time) (v : Bool) : (s.svcEdge t v).now = s.now := by
  rw [← svcQual_now s t]
  unfold State.svcEdge
  dsimp only
  split
  · rfl
  · split
    · obtain ⟨x, hx⟩ := watchEvent_und
        ({ s.svcQual t with lws := { (s.svcQual t).lws with svcRaw := v, svcT := t, svc := false } } : State).lockKey 0x62
      rw [hx]
      rfl
    · rfl

theorem svcEdge_same {v : Bool} (h : (s.svcQual t).lws.svcRaw = v) : s.svcEdge t v = s.svcQual t := if_pos h

theorem svcEdge_changes {v : Bool} {x : State} (hx : x = s.svcQual t) (h : x.lws.svcRaw ≠ v) :
    (s.svcEdge t v).lws = { x.lws with svcRaw := v, svcT := t, svc := false } ∧
    (s.svcEdge t v).fc = (if x.lws.svc then { x.fc with half := none, test := false, force := 0 } else x.fc) ∧
    (s.svcEdge t v).outs = x.outs ∧ (s.svcEdge t v).mem = x.mem := by
  subst hx
  have hedge : s.svcEdge t v = if (s.svcQual t).lws.svc then
      ({ s.svcQual t with lws := { (s.svcQual t).lws with svcRaw := v, svcT := t, svc := false } } : State).lockKey.watchEvent 0x62
    else { s.svcQual t with lws := { (s.svcQual t).lws with svcRaw := v, svcT := t, svc := false } } := if_neg h
  rw [hedge]
  cases hs : (s.svcQual t).lws.svc with
  | true =>
    obtain ⟨y, hy⟩ := watchEvent_und
      ({ s.svcQual t with lws := { (s.svcQual t).lws with svcRaw := v, svcT := t, svc := false } } : State).lockKey 0x62
    rw [if_pos rfl, hy]
    exact ⟨rfl, rfl, rfl, rfl⟩
  | false => exact ⟨rfl, rfl, rfl, rfl⟩

end

/-- Settles O32: a forced rest by what stands at the pin, its instants by the limits, a permit by the level it has held, and SERVICE_EN. -/
theorem limitsAndPermitsForcePinsToRest : Obligations.LimitsAndPermitsForcePinsToRest := by
  unfold Obligations.LimitsAndPermitsForcePinsToRest
  refine ⟨⟨?_, ?_, ?_, ?_, ?_, ?_⟩, ?_, ?_, ?_, ?_, ?_, ?_, ?_⟩
  · exact fun s u k t h => forceRest_off h
  · exact fun s u k t h => ⟨_, rfl, forceRest_spec h rfl⟩
  · intro t u s a hd ha
    refine (liveEvent_live (f := fun s => s.maxOnRest u) hd).trans (congrArg _ ?_)
    exact maxOnRest_on (s := s.arrive t) ha rfl
  · intro t u s hd
    have hexec : exec (.duty t u) s = .next ((s.arrive t).dutyRest u) := liveEvent_live (f := fun s => s.dutyRest u) hd
    rw [hexec]
    exact ⟨fun x h => congrArg _ (dutyRest_due (s := s.arrive t) h), fun h => congrArg _ (dutyRest_none (s := s.arrive t) h)⟩
  · exact fun s u t x h => dutyDue_some h
  · exact fun s u t => dutyDue_none
  · rintro t i raw s _ hd rfl
    have hnow : (raw.foldl (fun s p => s.permitEdge i (min p.1 s.now) p.2) (s.arrive t)).now = (s.arrive t).now :=
      foldl_keeps State.now (f := fun s (p : Time × Bool) => s.permitEdge i (min p.1 s.now) p.2)
        (fun s p => (kept_permitEdge (.refl s)).now) raw (s.arrive t)
    rw [hnow]
    exact liveEvent_live (f := fun s => (raw.foldl (fun s p => s.permitEdge i (min p.1 s.now) p.2) s).permitQual i s.now) hd
  · rintro s _ i t v rfl
    rfl
  · rintro s i t _ rfl
    refine ⟨fun h => permitQual_waits rfl h, fun hle hs => ⟨fun hon => ?_, fun hraw hacc => ?_, fun hraw hacc => ?_⟩⟩
    · rw [permitQual_accepts rfl hle hs hon, if_pos rfl, permitAccept_keeps ?_, hon]
      exact (Bool.eq_false_or_eq_true _).symm
    · have hon : ((s.permitIn i).raw == s.permitHigh i) = false := beq_eq_false_iff_ne.2 hraw
      refine ⟨_, rfl, ?_⟩
      rw [permitQual_accepts rfl hle hs hon, if_neg (by rw [hacc]; decide)]
      obtain ⟨y, hy⟩ := watchEvent_und (s.permitAccept i (s.permitIn i).raw false ((s.permitIn i).rawT + s.permitFilt i)) (0x50 + i)
      rw [if_neg (by decide), hy]
      have hfall := permitAccept_fallen hacc (s.permitIn i).raw ((s.permitIn i).rawT + s.permitFilt i) rfl i.2
      exact hfall
    · have hon : ((s.permitIn i).raw == s.permitHigh i) = true := beq_iff_eq.2 hraw
      refine ⟨_, rfl, ?_⟩
      rw [permitQual_accepts rfl hle hs hon, if_neg (by rw [hacc]; decide), permitAccept_keeps (.inr rfl)]
      obtain ⟨y, hy⟩ := watchEvent_und
        (s.setPermitIn i { s.permitIn i with level := (s.permitIn i).raw, accepted := true, seen := true }) (0x58 + i)
      rw [if_pos rfl, hy]
      exact ⟨(State.setPermitIn_permitIn ..).trans (if_pos rfl), rfl, rfl, rfl, fun j hj => (State.setPermitIn_permitIn ..).trans (if_neg hj)⟩
  · intro t s hd
    have hexec : exec (.budgetWindowStart t) s = .next ((s.arrive t).openWindow (max s.now t)) := liveEvent_live (f := fun s => s.openWindow s.now) hd
    rw [hexec]
    refine ⟨fun h => ⟨_, rfl, (openWindow_frame (s := s.arrive t) h).1, fun p => ⟨openWindow_pin (s := s.arrive t) h p, ?_⟩, openWindow_units ..⟩,
      fun h => congrArg _ (if_neg (Nat.not_lt.2 h))⟩
    have hlws := (openWindow_frame (s := s.arrive t) h).2
    rw [State.budget, openWindow_pin (s := s.arrive t) h p, Nat.sub_zero]
    simp only [State.maxEdges, State.pinWord, State.fenceWord, hlws]
    rfl
  · rintro t raw s _ hd rfl
    have hnow : (raw.foldl (fun s p => s.svcEdge (min p.1 s.now) p.2) (s.arrive t)).now = (s.arrive t).now :=
      foldl_keeps State.now (f := fun s (p : Time × Bool) => s.svcEdge (min p.1 s.now) p.2) (fun s p => svcEdge_now s _ _) raw (s.arrive t)
    rw [hnow]
    exact liveEvent_live (f := fun s => (raw.foldl (fun s p => s.svcEdge (min p.1 s.now) p.2) s).svcQual s.now) hd
  · exact svcQual_frame
  · rintro s _ t v rfl
    refine ⟨svcEdge_same, fun h => ?_⟩
    obtain ⟨-, ho, hm, -⟩ := svcQual_frame s t
    have hedge := svcEdge_changes rfl h
    rw [ho, hm] at hedge
    exact hedge

end Sys2Proof.Machine
end


section
/-! PROOFS. Commits of the limited-write store, and a fence image put in force (O34). -/

namespace Sys2Proof.Machine

/-- A bit above the field that is set. -/
theorem bit_setFld_above (w : Word) {n x i : Nat} (hl : n ≤ i) : bit (setFld w 0 n x) i = bit w i := by
  have hge : ¬ i < n := Nat.not_lt.2 hl
  have hx : (x % 2 ^ n).testBit i = false :=
    Nat.testBit_lt_two_pow (Nat.lt_of_lt_of_le (Nat.mod_lt _ (Nat.two_pow_pos n)) (Nat.pow_le_pow_right (by decide) hl))
  unfold bit
  simp only [setFld, wAt, Nat.shiftLeft_zero, BitVec.getLsbD_or, BitVec.getLsbD_and, BitVec.getLsbD_not, BitVec.getLsbD_ofNat,
    Nat.testBit_two_pow_sub_one, hge, hx, decide_false, Bool.and_false, Bool.not_false, Bool.and_true, Bool.or_false]
  by_cases hw : i < 32
  · rw [decide_eq_true hw, Bool.and_true]
  · rw [BitVec.getLsbD_of_ge _ _ (Nat.not_lt.1 hw), Bool.false_and]

section
variable {s u old : State} {p i n : Nat} {t : Time} {img : List Byte} {pol : List Bool}

/-! ## A fence image in force (R359, R369, R374) -/

/-- R359: unit `p` holds its pin where it drives the on level. -/
def State.holdsPin (s : State) (p : Nat) : Bool := !s.isInput p && (s.ou p).drive == s.onLevel p

/-- R359: pin `p` is held as its unit drives it. -/
def State.holdPin (s : State) (p : Nat) : State :=
  let x := s.pin p
  let hold := !s.isInput p && (s.ou p).drive == s.onLevel p
  if x.hold = hold then s else s.setPin p { x with hold := hold }

/-- R355: permit `i` is judged by a new POL, where `pol` were the levels before. -/
def State.permitTurn (pol : List Bool) (t : Time) (s : State) (i : Nat) : State :=
  let x := s.permitIn i
  if pol.getD i true = s.permitHigh i then s
  else if x.seen then s.permitAccept i x.level (x.level == s.permitHigh i) t
  else s.setPermitIn i { x with level := !s.permitHigh i }

/-- Every pin at rest with cause SAFE. -/
def State.allRest (s : State) (t : Time) : State := (List.range pinCount).foldl (fun s p => s.forceRest p 11 t) s

/-- The image in force and the pins held by it. -/
def State.imageIn (s : State) (img : List Byte) : State :=
  (List.range pinCount).foldl State.holdPin { s with lws := { s.lws with fenceImg := some img } }

theorem applyFence_eq (s : State) (img : List Byte) (t : Time) : s.applyFence img t =
    ((List.range 8).foldl (State.permitTurn ((List.range 8).map (s.allRest t).permitHigh) t) ((s.allRest t).imageIn img)).stampPins s t := by
  unfold State.applyFence State.imageIn State.allRest
  delta State.permitTurn State.holdPin
  dsimp only

theorem allRest_pins (s : State) (t : Time) (hp : p < pinCount) : (s.allRest t).pin p = s.restedPin p t ∧ (s.allRest t).ou p = s.restedOu p 11 t := by
  have h := foldl_rests (fun _ _ => true) (fun _ _ _ _ => rfl) 11 pinCount t s rfl p hp
  simp only [if_true] at h
  unfold State.allRest
  exact h.1 trivial

theorem allRest_frame (s : State) (t : Time) : (s.allRest t).lws = s.lws ∧ (s.allRest t).rst = s.rst ∧
    (s.allRest t).outs.permits = s.outs.permits ∧ (s.allRest t).und = s.und := by
  unfold State.allRest
  refine List.foldlRecOn (motive := fun x : State => x.lws = s.lws ∧ x.rst = s.rst ∧ x.outs.permits = s.outs.permits ∧ x.und = s.und) _ _
    ⟨rfl, rfl, rfl, rfl⟩ fun x h j _ => ?_
  obtain ⟨hl, hr, hp, hu⟩ := forceRest_frame x j 11 t
  exact ⟨hl.trans h.1, hr.trans h.2.1, hp.trans h.2.2.1, hu.trans h.2.2.2⟩

theorem holdPin_pin (s : State) (j p : Nat) : (s.holdPin j).pin p = if p = j then { s.pin j with hold := s.holdsPin j } else s.pin p := by
  unfold State.holdPin State.holdsPin
  dsimp only
  split
  · next h =>
    split
    · next hj => rw [← h, hj]
    · rfl
  · exact State.setPin_pin ..

theorem holdPin_frame (s : State) (j : Nat) : (s.holdPin j).lws = s.lws ∧ (s.holdPin j).rst = s.rst ∧ (s.holdPin j).outs.permits = s.outs.permits ∧
    (s.holdPin j).outs.units = s.outs.units := by
  unfold State.holdPin
  dsimp only
  split <;> exact ⟨rfl, rfl, rfl, rfl⟩

theorem imageIn_frame (s : State) (img : List Byte) : (s.imageIn img).lws = { s.lws with fenceImg := some img } ∧ (s.imageIn img).rst = s.rst ∧
    (s.imageIn img).outs.permits = s.outs.permits ∧ (s.imageIn img).outs.units = s.outs.units := by
  unfold State.imageIn
  refine List.foldlRecOn (motive := fun x : State => x.lws = { s.lws with fenceImg := some img } ∧ x.rst = s.rst ∧
    x.outs.permits = s.outs.permits ∧ x.outs.units = s.outs.units) _ _ ⟨rfl, rfl, rfl, rfl⟩ fun x h j _ => ?_
  obtain ⟨hl, hr, hp, hu⟩ := holdPin_frame x j
  exact ⟨hl.trans h.1, hr.trans h.2.1, hp.trans h.2.2.1, hu.trans h.2.2.2⟩

theorem holdsPin_eq {x : State} (ho : x.ou p = s.ou p) (hl : x.lws = s.lws) : x.holdsPin p = s.holdsPin p := by
  have hw : x.pinWord p 0 = s.pinWord p 0 := by
    unfold State.pinWord State.fenceWord
    rw [hl]
  unfold State.holdsPin State.isInput State.onLevel
  rw [hw, ho]

theorem imageIn_pin (s : State) (img : List Byte) (hp : p < 128) : (s.imageIn img).pin p =
    { s.pin p with hold := (s.imageIn img).holdsPin p } := by
  have h := foldl_pins (f := State.holdPin) (g := fun s j => { s.pin j with hold := s.holdsPin j }) (e := fun s j => s.ou j)
    holdPin_pin (fun s j p => ?_) (fun s j => (holdPin_frame s j).1) (fun s x j hp ho hl => ?_) 128
    { s with lws := { s.lws with fenceImg := some img } }
  · obtain ⟨hl, h⟩ := h
    obtain ⟨h1, h2⟩ := h p
    rw [if_pos hp] at h1 h2
    have hh : (s.imageIn img).holdsPin p = State.holdsPin { s with lws := { s.lws with fenceImg := some img } } p := holdsPin_eq h2 hl
    rw [hh]
    exact h1
  · have ho : (s.holdPin j).ou p = s.ou p := by rw [State.ou, (holdPin_frame s j).2.2.2, State.ou]
    rw [ho]
    split
    · next h => rw [h]
    · rfl
  · rw [hp, holdsPin_eq ho hl]
    exact ⟨rfl, ho⟩

/-- A permit that falls takes no pin to rest where all stand there. -/
theorem permitRests_off (h : ∀ p < 128, (s.pin p).onSince = none) (i : Nat) (t : Time) : s.permitRests i t = s := by
  unfold State.permitRests
  refine List.foldlRecOn (motive := fun x : State => x = s) _ _ rfl fun x hx j hj => ?_
  rw [hx]
  split
  · exact forceRest_off (h j (List.mem_range.1 hj))
  · rfl

theorem permitAccept_atRest (h : ∀ p < 128, (s.pin p).onSince = none) (ha : (s.permitIn i).accepted = true) (level : Bool) (t : Time) :
    ∃ f, s.permitAccept i level false t =
      { s.setPermitIn i { s.permitIn i with level := level, accepted := false, seen := true } with fc := f } := by
  have hoff := permitRests_off (s := s.setPermitIn i { s.permitIn i with level := level, accepted := false, seen := true }) h i t
  rw [permitAccept_falls ha hoff]
  split
  · exact ⟨_, rfl⟩
  · exact ⟨_, rfl⟩

/-- What a permit judged by a new POL leaves, with every pin at rest. -/
theorem permitTurn_spec (h : ∀ p < 128, (s.pin p).onSince = none) {x : State} (hx : State.permitTurn pol t s i = x) :
    (x.outs.pins = s.outs.pins ∧ x.outs.units = s.outs.units ∧ x.lws = s.lws ∧ x.rst = s.rst) ∧ (∀ j, j ≠ i → x.permitIn j = s.permitIn j) ∧
    (x.permitIn i).accepted = if pol.getD i true = s.permitHigh i ∨ (s.permitIn i).seen = false then (s.permitIn i).accepted
      else ((s.permitIn i).level == s.permitHigh i) := by
  subst hx
  unfold State.permitTurn
  dsimp only
  by_cases hp : pol.getD i true = s.permitHigh i
  · rw [if_pos hp, if_pos (.inl hp)]
    exact ⟨⟨rfl, rfl, rfl, rfl⟩, fun _ _ => rfl, rfl⟩
  rw [if_neg hp]
  cases hs : (s.permitIn i).seen with
  | false =>
    rw [if_neg (by decide), if_pos (.inr rfl), State.setPermitIn_permitIn, if_pos rfl]
    exact ⟨⟨rfl, rfl, rfl, rfl⟩, fun j hj => (State.setPermitIn_permitIn ..).trans (if_neg hj), rfl⟩
  | true =>
    rw [if_pos rfl, if_neg fun h => h.elim hp fun h => absurd h (by decide)]
    by_cases ha : (s.permitIn i).accepted = false ∨ ((s.permitIn i).level == s.permitHigh i) = true
    · rw [permitAccept_keeps ha, State.setPermitIn_permitIn, if_pos rfl]
      exact ⟨⟨rfl, rfl, rfl, rfl⟩, fun j hj => (State.setPermitIn_permitIn ..).trans (if_neg hj), rfl⟩
    · obtain ⟨hacc, hlev⟩ : (s.permitIn i).accepted = true ∧ ((s.permitIn i).level == s.permitHigh i) = false := by simpa using ha
      obtain ⟨f, hf⟩ := permitAccept_atRest h hacc (s.permitIn i).level t
      rw [hlev, hf]
      exact ⟨⟨rfl, rfl, rfl, rfl⟩, fun j hj => (State.setPermitIn_permitIn ..).trans (if_neg hj),
        congrArg Permit.accepted ((State.setPermitIn_permitIn ..).trans (if_pos rfl))⟩

theorem permitHigh_of_lws {x : State} (h : x.lws = s.lws) (i : Nat) : x.permitHigh i = s.permitHigh i := by
  simp only [State.permitHigh, State.permitWord, State.fenceWord, h]

theorem permitTurns_spec (h : ∀ p < 128, (s.pin p).onSince = none) (n : Nat) {x : State}
    (hx : (List.range n).foldl (State.permitTurn pol t) s = x) :
    (x.outs.pins = s.outs.pins ∧ x.outs.units = s.outs.units ∧ x.lws = s.lws ∧ x.rst = s.rst) ∧ (∀ i, n ≤ i → x.permitIn i = s.permitIn i) ∧
    ∀ i < n, (x.permitIn i).accepted =
      if pol.getD i true = s.permitHigh i ∨ (s.permitIn i).seen = false then (s.permitIn i).accepted else ((s.permitIn i).level == s.permitHigh i) := by
  subst hx
  induction n with
  | zero => exact ⟨⟨rfl, rfl, rfl, rfl⟩, fun _ _ => rfl, fun i hi => absurd hi (Nat.not_lt_zero i)⟩
  | succ n ih =>
    obtain ⟨⟨hpins, hunits, hlws, hrst⟩, habove, ih⟩ := ih
    rw [List.range_succ, List.foldl_append, List.foldl_cons, List.foldl_nil]
    generalize (List.range n).foldl (State.permitTurn pol t) s = v at hpins hunits hlws hrst habove ih ⊢
    have hv (p) (hp : p < 128) : (v.pin p).onSince = none := by
      rw [State.pin, hpins]
      exact h p hp
    obtain ⟨⟨h1, h2, h3, h4⟩, hother, hat⟩ := permitTurn_spec (pol := pol) (t := t) (i := n) hv rfl
    rw [habove n (Nat.le_refl n), permitHigh_of_lws hlws] at hat
    refine ⟨⟨h1.trans hpins, h2.trans hunits, h3.trans hlws, h4.trans hrst⟩, fun i hi => ?_, fun i hi => ?_⟩
    · rw [hother i (by omega), habove i (by omega)]
    · by_cases hin : i = n
      · rw [hin]
        exact hat
      · rw [hother i hin]
        exact ih i (by omega)

/-! ## The edge times (R374) -/

/-- The edge time of pin `p` once a change of the whole part from `old` is done. -/
def State.stampOf (s old : State) (p : Nat) (t : Time) : Time := if s.pinLevel p = old.pinLevel p then (old.ou p).edgeT else t

theorem stampPins_frame (s old : State) (t : Time) : (s.stampPins old t).outs.pins = s.outs.pins ∧ (s.stampPins old t).outs.permits = s.outs.permits ∧
    (s.stampPins old t).lws = s.lws ∧ (s.stampPins old t).rst = s.rst := by
  unfold State.stampPins
  exact List.foldlRecOn (motive := fun x : State => x.outs.pins = s.outs.pins ∧ x.outs.permits = s.outs.permits ∧ x.lws = s.lws ∧ x.rst = s.rst) _ _
    ⟨rfl, rfl, rfl, rfl⟩ fun x h j _ => h

theorem stampPins_ou (s old : State) (t : Time) (hp : p < pinCount) : (s.stampPins old t).ou p = { s.ou p with edgeT := s.stampOf old p t } := by
  have h := ((foldl_pins (f := fun x j => x.modOu j fun o => { o with edgeT := s.stampOf old j t }) (g := fun s j => s.pin j)
    (e := fun x j => { x.ou j with edgeT := s.stampOf old j t }) (fun x j p => ?_) (fun x j p => State.setOu_ou ..) (fun _ _ => rfl)
    (fun x y j h1 h2 _ => ⟨h1, by rw [h2]⟩) pinCount s).2 p).2
  · rw [if_pos hp] at h
    exact h
  · split
    · next h => rw [← h]; rfl
    · rfl

theorem pinLevel_eq {x : State} (hpin : x.pin p = s.pin p) (hl : x.lws = s.lws) (hr : x.rst = s.rst) : x.pinLevel p = s.pinLevel p := by
  have hw : x.pinWord p 0 = s.pinWord p 0 := by
    unfold State.pinWord State.fenceWord
    rw [hl]
  unfold State.pinLevel State.isInput State.onLevel
  rw [hpin, hr, hw]

/-- What a fence image put in force leaves at the pins, the units and the permits. -/
theorem applyFence_spec (s : State) (img : List Byte) (t : Time) {u : State} (hu : u = s.applyFence img t) :
    u.lws = { s.lws with fenceImg := some img } ∧
    (∀ p < 128, u.pin p = { s.restedPin p t with hold := !u.isInput p && (s.ou p).drive == u.onLevel p } ∧
      u.ou p = { s.restedOu p 11 t with edgeT := if u.pinLevel p = s.pinLevel p then (s.ou p).edgeT else t }) ∧
    ∀ i < 8, (u.permitIn i).accepted = if s.permitHigh i = u.permitHigh i ∨ (s.permitIn i).seen = false then (s.permitIn i).accepted
      else ((s.permitIn i).level == u.permitHigh i) := by
  obtain ⟨hlA, hrA, hpA, -⟩ := allRest_frame s t
  obtain ⟨hlB, hrB, hpB, huB⟩ := imageIn_frame (s.allRest t) img
  have hpinB (p) (hp : p < 128) : ((s.allRest t).imageIn img).pin p =
      { s.restedPin p t with hold := ((s.allRest t).imageIn img).holdsPin p } := by
    rw [imageIn_pin _ _ hp, (allRest_pins s t hp).1]
  have hoff (p) (hp : p < 128) : (((s.allRest t).imageIn img).pin p).onSince = none := by
    rw [hpinB p hp]
    exact restedPin_off s p t
  have houB (p) (hp : p < 128) : ((s.allRest t).imageIn img).ou p = s.restedOu p 11 t := by
    rw [State.ou, huB]
    exact (allRest_pins s t hp).2
  have hperB (i) : ((s.allRest t).imageIn img).permitIn i = s.permitIn i := by
    rw [State.permitIn, hpB, hpA]
    rfl
  obtain ⟨⟨hpC, huC, hlC, hrC⟩, -, hperC⟩ := permitTurns_spec (pol := (List.range 8).map (s.allRest t).permitHigh) (t := t) hoff 8 rfl
  rw [applyFence_eq] at hu
  generalize (s.allRest t).imageIn img = b at hlB hrB hpB huB hpinB hoff houB hperB hpC huC hlC hrC hperC hu
  generalize (List.range 8).foldl (State.permitTurn ((List.range 8).map (s.allRest t).permitHigh) t) b = c at hpC huC hlC hrC hperC hu
  obtain ⟨hpD, hperD, hlD, hrD⟩ := stampPins_frame c s t
  rw [← hu] at hpD hperD hlD hrD
  have hlws : u.lws = b.lws := hlD.trans hlC
  have hlu : u.lws = { s.lws with fenceImg := some img } := by rw [hlws, hlB, hlA]
  refine ⟨hlu, fun p hp => ?_, fun i hi => ?_⟩
  · have hpin : u.pin p = b.pin p := by rw [State.pin, hpD, hpC, State.pin]
    have hdrive : (b.ou p).drive = (s.ou p).drive := by
      rw [houB p hp, State.restedOu]
      split <;> rfl
    have hhold : b.holdsPin p = (!u.isInput p && (s.ou p).drive == u.onLevel p) := by
      have hw : u.pinWord p 0 = b.pinWord p 0 := by
        unfold State.pinWord State.fenceWord
        rw [hlws]
      unfold State.holdsPin State.isInput State.onLevel
      rw [hw, hdrive]
    refine ⟨?_, ?_⟩
    · rw [hpin, hpinB p hp, hhold]
    · have hlevel : u.pinLevel p = c.pinLevel p := pinLevel_eq (by rw [State.pin, hpD, State.pin]) hlD hrD
      have houC : c.ou p = b.ou p := by rw [State.ou, huC, State.ou]
      rw [hlevel, hu, stampPins_ou c s t hp, houC, houB p hp]
      rfl
  · have hhigh : u.permitHigh i = b.permitHigh i := permitHigh_of_lws hlws i
    have hpol : ((List.range 8).map (s.allRest t).permitHigh).getD i true = s.permitHigh i := by
      rw [← permitHigh_of_lws hlA i]
      simp [List.getD, hi]
    have hper : u.permitIn i = c.permitIn i := by rw [State.permitIn, hperD, State.permitIn]
    rw [hper, hhigh, hperC i hi, hpol, hperB i]

/-! ## The judgement of a commit (R367, R368, R372) -/

section
variable {m : Ident} {v : Word} (hk : s.lws.commit = none)
include hk

theorem lwsJudge_field (h : fld v 16 16 ≠ 0x5EA1 ∨ fld v 3 13 ≠ 0) : s.lwsJudge m v = 2 := by
  unfold State.lwsJudge
  simp only [hk, Option.isSome_none, Bool.false_eq_true, if_false]
  refine if_pos ?_
  simp only [Bool.or_eq_true, decide_eq_true_eq]
  exact h.elim (fun h => .inl (.inl h)) fun h => .inr h

theorem lwsJudge_passed {tg : Nat} (htg : fld v 0 2 = tg) (h3 : tg = 1 ∨ tg = 2 ∨ tg = 3) (hkey : fld v 16 16 = 0x5EA1) (hres : fld v 3 13 = 0) : s.lwsJudge m v =
    if !s.lws.svc then 4
    else if !authHas s.fenceAuth m then 4
    else if !imageOk tg (s.lws.staged (imageLen tg)) (bit v 2) then 2
    else if slotCount tg ≤ (s.lws.slots tg).length then 9
    else 0 := by
  subst htg
  unfold State.lwsJudge
  simp only [hk, Option.isSome_none, Bool.false_eq_true, if_false]
  refine if_neg ?_
  simp only [Bool.or_eq_true, decide_eq_true_eq]
  rintro ((h | h) | h)
  · exact h hkey
  · omega
  · exact h hres

end

theorem lwsCmd_refused {m : Ident} {v : Word} {r : Nat} (hr : s.lwsJudge m v = r) (h0 : r ≠ 0) :
    s.lwsCmd m v = { s with lws := { s.lws with result := BitVec.ofNat 16 r } } := by
  unfold State.lwsCmd
  rw [hr]
  match r, h0 with
  | n + 1, _ => rfl

theorem lwsCmd_accepted {m : Ident} {v : Word} (h : s.lwsJudge m v = 0) : s.lwsCmd m v = s.lwsAccept m (fld v 0 2) := by
  unfold State.lwsCmd
  rw [h] <;> rfl

theorem setSlots_slots_other (l : Lws) (x : List LwsSlot) {tg j : Nat} (htg : tg = 1 ∨ tg = 2 ∨ tg = 3) (hj : j = 1 ∨ j = 2 ∨ j = 3) (h : j ≠ tg) :
    (l.setSlots tg x).slots j = l.slots j := by
  rcases htg with rfl | rfl | rfl <;> rcases hj with rfl | rfl | rfl <;> first | exact absurd rfl h | rfl

theorem setSlots_keeps (l : Lws) (tg : Nat) (x : List LwsSlot) : (l.setSlots tg x).fenceImg = l.fenceImg ∧ (l.setSlots tg x).conductImg = l.conductImg ∧
    (l.setSlots tg x).identImg = l.identImg := by
  unfold Lws.setSlots
  split
  · exact ⟨rfl, rfl, rfl⟩
  split <;> exact ⟨rfl, rfl, rfl⟩

/-! ## The end of a commit (R368, R371) -/

/-- The store once the commit `k` has ended, the image in force aside. -/
def Lws.ended (l : Lws) (k : LwsCommit) (ok : Bool) : Lws :=
  { l.setSlots k.target ((l.slots k.target).dropLast ++ [{ valid := ok, image := k.image }]) with
    ledger := l.ledger.dropLast ++ [splice (l.ledger.getLast?.getD []) 3 [if ok then 1 else 2]], result := if ok then 0 else 6, commit := none }

theorem lwsFinish_eq {k : LwsCommit} (hk : s.lws.commit = some k) (ok : Bool) {x : State} (hx : x = { s with lws := s.lws.ended k ok }) :
    s.lwsFinish ok = (if ok then (if k.target = 1 then x.applyFence k.image s.now else x) else x.report 148).cicEdge 678 := by
  subst hx
  unfold State.lwsFinish
  rw [hk]
  rfl

theorem cicEdge_678 (s : State) : s.cicEdge 678 = s.setCic 678 { s.cic 678 with pend := true } := rfl

section
variable {x : State} {l : Lws} {k : LwsCommit} {ok : Bool}

/-- What the end of a commit does beside the store: an image in force at once, or the report of a failure. -/
def State.lwsLanded (x : State) (k : LwsCommit) (ok : Bool) : State :=
  if ok then (if k.target = 1 then x.applyFence k.image x.now else x) else x.report 148

theorem lwsLanded_fence (x : State) (h : k.target = 1) : x.lwsLanded k true = x.applyFence k.image x.now := (if_pos rfl).trans (if_pos h)

theorem lwsLanded_other (x : State) (h : k.target ≠ 1) : x.lwsLanded k true = x := (if_pos rfl).trans (if_neg h)

theorem lwsLanded_spoiled (x : State) : x.lwsLanded k false = x.report 148 := rfl

theorem cicEdge_keeps (x : State) : (x.cicEdge 678).lws = x.lws ∧ (x.cicEdge 678).fc = x.fc ∧ (x.cicEdge 678).outs = x.outs := ⟨rfl, rfl, rfl⟩

theorem report_lws (x : State) (n : Nat) : (x.report n).lws = x.lws ∧ (x.report n).outs = x.outs := ⟨rfl, rfl⟩

theorem lwsLanded_lws (hl : x.lws = l) :
    (x.lwsLanded k ok).lws = { l with fenceImg := if ok = true ∧ k.target = 1 then some k.image else l.fenceImg } := by
  subst hl
  cases ok with
  | false => rw [lwsLanded_spoiled, if_neg fun h => Bool.false_ne_true h.1, (report_lws x 148).1]
  | true =>
    by_cases ht : k.target = 1
    · rw [lwsLanded_fence x ht, if_pos ⟨rfl, ht⟩]
      exact (applyFence_spec x k.image x.now rfl).1
    · rw [lwsLanded_other x ht, if_neg fun h => ht h.2]

theorem lwsLanded_outs (h : ok = false ∨ k.target ≠ 1) : (x.lwsLanded k ok).outs = x.outs := by
  cases ok with
  | false => exact (report_lws x 148).2
  | true => rw [lwsLanded_other x (h.resolve_left (by decide))]

theorem lwsLanded_fc : (ok = false → (x.lwsLanded k ok).fc.raised.getLsbD 148 = true) ∧
    (ok = true → k.target ≠ 1 → (x.lwsLanded k ok).fc = x.fc) := by
  refine ⟨?_, ?_⟩
  · rintro rfl
    exact report_raises _ (by decide)
  · rintro rfl ht
    rw [lwsLanded_other x ht]

end

/-- What the end of a commit leaves of the store, of the collector and of the outputs. -/
theorem lwsFinish_spec {k : LwsCommit} (hk : s.lws.commit = some k) (ok : Bool) :
    (s.lwsFinish ok).lws = { s.lws.ended k ok with
      fenceImg := if ok = true ∧ k.target = 1 then some k.image else (s.lws.ended k ok).fenceImg } ∧
    ((ok = false → (s.lwsFinish ok).fc.raised.getLsbD 148 = true) ∧ (ok = true → k.target ≠ 1 → (s.lwsFinish ok).fc = s.fc)) ∧
    (ok = false ∨ k.target ≠ 1 → (s.lwsFinish ok).outs = s.outs) ∧ ((s.lwsFinish ok).cic 678).pend = true := by
  obtain ⟨x, hx⟩ : ∃ x : State, x = { s with lws := s.lws.ended k ok } := ⟨_, rfl⟩
  obtain ⟨hlws, hfc, houts, hnow⟩ : x.lws = s.lws.ended k ok ∧ x.fc = s.fc ∧ x.outs = s.outs ∧ x.now = s.now := by subst hx; exact ⟨rfl, rfl, rfl, rfl⟩
  have heq : s.lwsFinish ok = (x.lwsLanded k ok).cicEdge 678 := by rw [lwsFinish_eq hk ok hx, ← hnow, State.lwsLanded]
  rw [heq, ← hfc, ← houts]
  obtain ⟨h1, h2, h3⟩ := cicEdge_keeps (x.lwsLanded k ok)
  rw [h1, h2, h3]
  refine ⟨lwsLanded_lws hlws, lwsLanded_fc, lwsLanded_outs, ?_⟩
  rw [cicEdge_678, State.setCic_cic, if_pos rfl]

/-- The end of a commit while the part runs. -/
theorem commitEnd_live (hd : s.dead = false) (hr : s.rst.resetHeld = false) {ok : Bool} :
    s.commitEnd ok = if s.lws.commit = none then s else (s.lwsFinish ok).payCommit := by
  unfold State.commitEnd
  simp only [hd, hr, Bool.false_eq_true, if_false, Option.isNone_iff_eq_none]

theorem rested_on (h : (s.pin p).onSince.isSome = true) {k : Nat} : (s.restedPin p t).lastRest = some t ∧
    s.restedOu p k t = { s.ou p with edgeT := t, clamps := (s.ou p).clamps + 1, lastCause := BitVec.ofNat 4 k, clampT := t } := by
  obtain ⟨a, ha⟩ := Option.isSome_iff_exists.1 h
  have hn : ¬(s.pin p).onSince.isNone = true := by simp [ha]
  refine ⟨?_, if_neg hn⟩
  rw [State.restedPin, if_neg hn, Pin.rest, ha]

end

/-- Settles O34: a commit by the checks in their order, its end by the read-back, an image in force by what it does at each pin. -/
theorem commitsAreJudgedAndEndValidOrSpoiled : Obligations.CommitsAreJudgedAndEndValidOrSpoiled := by
  unfold Obligations.CommitsAreJudgedAndEndValidOrSpoiled
  refine ⟨⟨?_, ?_⟩, ?_, ?_, ?_, ?_⟩
  · rintro t m v s tg i _ hs hk hi rfl
    have h3 : tg = 1 ∨ tg = 2 ∨ tg = 3 := by rcases hi with ⟨_, h⟩ | ⟨_, h⟩ | ⟨_, h⟩ <;> simp [h]
    have hexec : exec i s = .next ((s.arrive t).lwsCmd m (setFld v 0 2 tg)) := by
      rcases hi with ⟨rfl, rfl⟩ | ⟨rfl, rfl⟩ | ⟨rfl, rfl⟩
      · exact regWrite_serves (f := fun s => s.lwsCmd m (setFld v 0 2 tgFence)) hs
      · exact regWrite_serves (f := fun s => s.lwsCmd m (setFld v 0 2 tgConduct)) hs
      · exact regWrite_serves (f := fun s => s.lwsCmd m (setFld v 0 2 tgIdent)) hs
    have htg : fld (setFld v 0 2 tg) 0 2 = tg := fld_setFld_low v (by decide) (by omega)
    have hkey : fld (setFld v 0 2 tg) 16 16 = fld v 16 16 := fld_setFld_above v (by decide)
    have hres : fld (setFld v 0 2 tg) 3 13 = fld v 3 13 := fld_setFld_above v (by decide)
    have hfinal : bit (setFld v 0 2 tg) 2 = bit v 2 := bit_setFld_above v (by decide)
    generalize setFld v 0 2 tg = w at hexec htg hkey hres hfinal
    have hrefuse (r : Nat) (h : (s.arrive t).lwsJudge m w = r) (h0 : r ≠ 0) :
        exec i s = .next { s.arrive t with lws := { s.lws with result := BitVec.ofNat 16 r } } := by rw [hexec, lwsCmd_refused h h0]; rfl
    refine ⟨fun h => hrefuse 2 (lwsJudge_field (s := s.arrive t) hk (by rw [hkey, hres]; exact h)) (by decide), fun h1 h2 => ?_⟩
    have hjudge := lwsJudge_passed (s := s.arrive t) (m := m) hk htg h3 (hkey.trans h1) (hres.trans h2)
    rw [hfinal] at hjudge
    refine ⟨fun h => hrefuse 4 (hjudge.trans ?_) (by decide), fun hsvc hauth => ?_⟩
    · cases hsvc : s.lws.svc with
      | false => exact if_pos (by simp [hsvc])
      | true =>
        have hno : authHas (s.arrive t).fenceAuth m = false := h.resolve_left (by simp [hsvc])
        exact (if_neg (by simp [hsvc])).trans (if_pos (by rw [hno]; rfl))
    have hpass : (s.arrive t).lwsJudge m w = if !imageOk tg (s.lws.staged (imageLen tg)) (bit v 2) then 2
        else if slotCount tg ≤ (s.lws.slots tg).length then 9 else 0 :=
      hjudge.trans ((if_neg (by simp [hsvc])).trans (if_neg (by rw [show (s.arrive t).fenceAuth = s.fenceAuth from rfl, hauth]; decide)))
    refine ⟨fun him => hrefuse 2 (hpass.trans (if_pos (by rw [him]; rfl))) (by decide),
      fun him hroom => hrefuse 9 (hpass.trans ((if_neg (by rw [him]; decide)).trans (if_pos hroom))) (by decide), fun him hroom => ?_⟩
    have hzero : (s.arrive t).lwsJudge m w = 0 := hpass.trans ((if_neg (by rw [him]; decide)).trans (if_neg (Nat.not_le.2 hroom)))
    obtain ⟨hf, hc, hid⟩ := setSlots_keeps s.lws tg (s.lws.slots tg ++ [{ valid := false, image := s.lws.staged (imageLen tg) }])
    have haccept : exec i s = .next ((s.arrive t).lwsAccept m tg) := by rw [hexec, lwsCmd_accepted hzero, htg]
    refine ⟨_, haccept, rfl, setSlots_slots_same .., fun x hx hne => ?_, rfl, rfl, hf, hc, hid, rfl⟩
    exact setSlots_slots_other s.lws _ h3 hx hne
  · intro t m o v s hk hs
    refine ⟨_, regWrite_serves (f := fun s => s.lwsStage (4 * o) (leBytes 4 v.toNat)) hs, ?_⟩
    have hstage : (s.arrive t).lwsStage (4 * o) (leBytes 4 v.toNat) =
        { s.arrive t with lws := { s.lws with stage := putBytes s.lws.stage (4 * o) (leBytes 4 v.toNat) } } :=
      if_neg (by rw [show (s.arrive t).lws.commit = none from hk]; decide)
    rw [hstage]
    refine ⟨rfl, fun a => ?_⟩
    rw [tget_putBytes, length_leBytes]
  · intro t rb s
    refine ⟨fun h => congrArg Host.Outcome.next (if_pos (by rw [show (s.arrive t).lws.commit = none from h]; rfl)), fun hd hr => ?_⟩
    exact congrArg Host.Outcome.next (commitEnd_live (s := s.arrive t) hd hr)
  · intro s k ok hk
    refine ⟨_, rfl, ?_⟩
    obtain ⟨hlws, hfc, houts, hpend⟩ := lwsFinish_spec hk ok
    obtain ⟨hf, hc, hid⟩ := setSlots_keeps s.lws k.target ((s.lws.slots k.target).dropLast ++ [{ valid := ok, image := k.image }])
    rw [hlws]
    refine ⟨rfl, rfl, setSlots_slots_same .., rfl, hpend, hc, hid, fun h1 h2 => if_pos ⟨h1, h2⟩, fun h => ⟨(if_neg ?_).trans hf, houts ?_⟩, hfc.1, hfc.2⟩
    · rintro ⟨h1, h2⟩
      exact h.elim (fun h => Bool.false_ne_true (h.symm.trans h1)) (· h2)
    · exact h
  · intro s
    exact ⟨fun h => if_neg (by simp [h]), fun h => by rw [State.payCommit, if_pos h]; exact ⟨rfl, rfl⟩⟩
  · intro s u img t hu
    obtain ⟨hl, hpins, hper⟩ := applyFence_spec s img t hu
    refine ⟨hl, fun p hp => ?_, hper⟩
    obtain ⟨hpin, hou⟩ := hpins p hp
    refine ⟨?_, ?_, fun hon => ?_, fun hoff => ?_, ?_⟩
    · rw [hpin]
      exact restedPin_off s p t
    · rw [hpin]
    · rw [hpin, hou, (rested_on hon).2]
      exact ⟨(rested_on (k := 11) hon).1, rfl, rfl⟩
    · have hrest : s.restedOu p 11 t = s.ou p := if_pos (by rw [hoff]; rfl)
      rw [hou, hrest]
    · rw [hou]

end Sys2Proof.Machine
end


section

/-! PROOFS. The source of a lost link (O35). -/

namespace Sys2Proof.Machine

/-- Reset, with port 3 enabled and its link up. -/
def linkedLab : State := State.reset.setPort 3 { st := .enabled, link := true }

/-- Losing the link of port 3 reports source 115. -/
theorem linkedLab_reports {u : State} (h : exec (.linkChange 8 3 false) linkedLab = .next u) : u.fc.raised = BitVec.ofNat 256 (2 ^ 115) := by
  have hrun : (match exec (.linkChange 8 3 false) linkedLab with | .next u => u.fc.raised | _ => 0) = BitVec.ofNat 256 (2 ^ 115) := by decide +kernel
  rwa [h] at hrun

/-- Refutes O35: the number `1 <<< (112 + p)` of its link clause is of type `Fin 16`, as `p` is, so that the clause asks for one of the sources 0 to 3,
and at port 3 for source 3, where the part reports source 115. -/
theorem not_portsStreamsAndQueuesTurnOnAndOff : ¬ Obligations.PortsStreamsAndQueuesTurnOnAndOff := by
  unfold Obligations.PortsStreamsAndQueuesTurnOnAndOff
  rintro ⟨-, -, -, hlink, -⟩
  obtain ⟨u, hexec, -, -, hraised, -⟩ := hlink 8 3 false true linkedLab (by decide +kernel) (by decide +kernel)
  exact absurd ((linkedLab_reports hexec).symm.trans (hraised rfl)) (by decide +kernel)

end Sys2Proof.Machine
end


section

/-! PROOFS. The collector's keys and the monitors (O47). -/

namespace Sys2Proof.Machine

section
variable {s : State} {v : Word} {t : Time} {m : Ident}

/-! ## The test key (R489) -/

theorem fcTkey_begins : s.fcTkey m 0xA5F0 = { s with fc := { s.fc with half := some (m, s.now) } } := if_pos rfl

/-- The second word of the same identity, in time. -/
theorem fcTkey_opens {x : Time} (hh : s.fc.half = some (m, x)) (ht : s.now ≤ x + 8000) :
    s.fcTkey m 0x0F5A = { s with fc := { s.fc with half := none, test := s.fc.test || s.lws.svc } } := by
  unfold State.fcTkey
  rw [if_neg (by decide), hh]
  refine if_pos ?_
  rw [decide_eq_true rfl, decide_eq_true rfl]
  exact decide_eq_true ht

theorem fcTkey_locks (h1 : v ≠ 0xA5F0) (h2 : v ≠ 0x0F5A ∨ ∀ x, s.fc.half = some (m, x) → x + 8000 < s.now) : s.fcTkey m v = s.lockKey := by
  unfold State.fcTkey
  rw [if_neg h1]
  rcases hh : s.fc.half with _ | ⟨m', x⟩
  · rfl
  · refine if_neg ?_
    simp only [Bool.and_eq_true, decide_eq_true_eq]
    rintro ⟨⟨hv, rfl⟩, ht⟩
    exact h2.elim (fun h => h hv) fun h => Nat.not_lt.2 ht (h x hh)

/-! ## LOCK (R482) -/

theorem fcLock_eq : s.fcLock v = { s with fc := { s.fc with locked := s.fc.locked || bit v 0 } } := by
  unfold State.fcLock
  cases bit v 0 with
  | false => rw [Bool.or_false]; rfl
  | true => rw [Bool.or_true]; rfl

/-- A locked collector refuses its settings. -/
theorem locked_rejects (h : s.fc.locked = true) (i : Nat) : s.fcSrcWrite i v = s.fcReject ∧ s.fcCtrl v = s.fcReject ∧ s.fcVec i v = s.fcReject :=
  ⟨if_pos (by rw [h]; rfl), if_pos h, if_pos h⟩

/-! ## A rail out of its range (R533, R536) -/

theorem excursion_eq (s : State) (rail : Option (BitVec 8)) : s.excursion rail = { s with
    outs := { s.outs with bank33 := rail.getD s.outs.bank33 },
    fc := if s.resting then s.fc else { s.fc with raised := s.fc.raised ||| BitVec.ofNat 256 (1 <<< if rail = none then 162 else 163) } } := by
  have hres : ({ s with outs := { s.outs with bank33 := rail.getD s.outs.bank33 } } : State).resting = s.resting := rfl
  unfold State.excursion
  dsimp only
  rw [hres]
  cases s.resting with
  | false => cases rail <;> rfl
  | true => rfl

/-! ## A level held (R537) -/

theorem holdSrc_level (s : State) {n i : Nat} (b : Bool) (hi : i < 256) :
    (s.holdSrc n b).fc.level.getLsbD i = if i = n then b else s.fc.level.getLsbD i := by
  have hbit : (BitVec.ofNat 256 (1 <<< n)).getLsbD i = decide (i = n) := by
    rw [BitVec.getLsbD_ofNat, decide_eq_true hi, Bool.true_and, Nat.one_shiftLeft, Nat.testBit_two_pow]
    exact decide_eq_decide.2 eq_comm
  cases b with
  | false =>
    change (s.fc.level &&& ~~~ BitVec.ofNat 256 (1 <<< n)).getLsbD i = _
    rw [BitVec.getLsbD_and, BitVec.getLsbD_not, hbit, decide_eq_true hi]
    by_cases h : i = n <;> simp [h]
  | true =>
    change (s.fc.level ||| BitVec.ofNat 256 (1 <<< n)).getLsbD i = _
    rw [BitVec.getLsbD_or, hbit]
    by_cases h : i = n <;> simp [h]

end

/-- Settles O47: the key by the two words and their identity and time, the monitors by what they report. -/
theorem theCollectorsKeysAndMonitors : Obligations.TheCollectorsKeysAndMonitors := by
  unfold Obligations.TheCollectorsKeysAndMonitors
  refine ⟨?_, ?_, ?_, ?_, ?_, ?_⟩
  · intro t m v s hs
    have hexec : exec (.fcTkeyWrite t m v) s = .next ((s.arrive t).fcTkey m v) := regWrite_serves (f := fun s => s.fcTkey m v) hs
    refine ⟨?_, ?_, fun h1 h2 => hexec.trans (congrArg _ (fcTkey_locks (s := s.arrive t) h1 h2))⟩
    · rintro rfl
      exact hexec.trans (congrArg _ (fcTkey_begins (s := s.arrive t)))
    · rintro x rfl hh ht
      exact hexec.trans (congrArg _ (fcTkey_opens (s := s.arrive t) hh ht))
  · intro t m v s hs
    exact (regWrite_serves (f := fun s => s.fcLock v) hs).trans (congrArg _ (fcLock_eq (s := s.arrive t)))
  · intro s i v h
    obtain ⟨h1, h2, h3⟩ := locked_rejects (v := v) h i
    exact ⟨h1, h2, h3, rfl⟩
  · intro t m v s hs
    exact regWrite_serves (f := fun s => s.fcFirstClr v) hs
  · intro t rail s hd
    refine (liveEvent_live (f := fun s => s.excursion rail) hd).trans (congrArg _ ?_)
    exact excursion_eq (s.arrive t) rail
  · intro t upper above s
    refine ⟨_, rfl, rfl, fun i hi => holdSrc_level (s.arrive t) above hi⟩

end Sys2Proof.Machine
end


section

/-! PROOFS. The frames of the service port and its bus reset (O50). -/

namespace Sys2Proof.Machine

section
variable {s u : State} {b : Nat} {a : Bool} {d : MbDir} {m : Ident} {v : Word} {t : Time}

/-! ## A frame (R517, R518) -/

theorem svcFrame_detached (hd : s.dead = false) (ha : s.svc.attached = false) (f : State → State) : svcFrame t s f = .next (s.arrive t) :=
  (liveEvent_live hd).trans (congrArg _ (if_neg (by rw [show (s.arrive t).svc.attached = false from ha]; decide)))

theorem svcFrame_attached (hd : s.dead = false) (ha : s.svc.attached = true) (f : State → State) :
    svcFrame t s f = .next (f { s.arrive t with svc := { s.svc with frames := s.svc.frames + 1 } }) :=
  (liveEvent_live hd).trans (congrArg _ (if_pos (show (s.arrive t).svc.attached = true from ha)))

theorem svcWrite_busy (hd : s.dead = false) (ha : s.svc.attached = true) (hb : s.rst.busy = true) (f : State → State) :
    svcWrite t s f = .next (({ s.arrive t with svc := { s.svc with frames := s.svc.frames + 1 } } : State).answer 8 []) :=
  (svcFrame_attached hd ha _).trans (congrArg _ (if_pos hb))

theorem svcWrite_acts (hd : s.dead = false) (ha : s.svc.attached = true) (hb : s.rst.busy = false) (hr : s.resting = false) (f : State → State) :
    svcWrite t s f = .next (f { s.arrive t with svc := { s.svc with frames := s.svc.frames + 1 } }) :=
  (svcFrame_attached hd ha _).trans (congrArg _ ((if_neg (Bool.eq_false_iff.1 hb)).trans (if_neg (Bool.eq_false_iff.1 hr))))

theorem svcWords_length (s : State) (o n : Nat) : (s.svcWords o n).1.length = n := by
  induction n generalizing s o with
  | zero => rfl
  | succ n ih => exact congrArg (· + 1) (ih ..)

/-! ## MB_SEND and MB_ACK (R441, R442) -/

theorem Mbox.setDir_setDir (x : Mbox) (a : Bool) (d e : MbDir) : (x.setDir a d).setDir a e = x.setDir a e := by
  cases a <;> rfl

theorem Mbox.setDir_side (x : Mbox) (a : Bool) (d : MbDir) (m : Ident) : (x.setDir a d).side m = x.side m := by
  cases a <;> rfl

theorem putReg_mbTx (n : Fin 64) {i : Nat} (hi : i < 8) : s.putReg m (mbOfs n + 4 * i) v = s.mbTx m n i v := by
  refine (putReg_in (as := blocksA ++ blocksB.take 6) (bs := blocksB.drop 7) rfl (by decide) (i := n) (r := 4 * i) n.2 (by simp; omega) rfl).trans ?_
  change s.mbWrite m n (4 * i) v = _
  have hdiv : 4 * i / 4 = i := by omega
  rcases hs : (s.mb n).side m with _ | a
  · unfold State.mbWrite State.mbTx
    rw [hs]
  · unfold State.mbWrite
    rw [hs]
    exact (if_pos (by omega)).trans (by rw [hdiv])

/-- The words `w` composed one by one by side `a` of mailbox `n`. -/
def State.composed (s : State) (n : Fin 64) (w : List Word) (k : Nat) : State :=
  (List.range k).foldl (fun s i => s.putReg svcId (mbOfs n + 4 * i) (w.getD i 0)) s

theorem composed_spec {n : Fin 64} (hs : (s.mb n).side svcId = some a) (hb : ((s.mb n).dir a).busy = false) (w : List Word) {k : Nat} (hk : k ≤ 8) :
    ∃ tx, (s.composed n w k).mb n = (s.mb n).setDir a { (s.mb n).dir a with tx := tx } ∧ (∀ i < k, tget 0 tx i = w.getD i 0) ∧
      (s.composed n w k).cores = s.cores ∧ (s.composed n w k).svc = s.svc := by
  induction k with
  | zero =>
    refine ⟨((s.mb n).dir a).tx, ?_, fun i hi => absurd hi (Nat.not_lt_zero i), rfl, rfl⟩
    change s.mb n = _
    cases a <;> rfl
  | succ k ih =>
    obtain ⟨tx, hmb, htx, hcores, hsvc⟩ := ih (by omega)
    have hstep : s.composed n w (k + 1) = (s.composed n w k).mbTx svcId n k (w.getD k 0) := by
      unfold State.composed
      rw [List.range_succ, List.foldl_append, List.foldl_cons, List.foldl_nil, putReg_mbTx n (by omega)]
    have hside : ((s.composed n w k).mb n).side svcId = some a := by
      rw [hmb, Mbox.setDir_side, hs]
    have hput : s.composed n w (k + 1) = (s.composed n w k).setMb n ((s.mb n).setDir a { (s.mb n).dir a with tx := tput 0 tx k (w.getD k 0) }) := by
      rw [hstep]
      unfold State.mbTx
      rw [hside, hmb]
      dsimp only
      rw [Mbox.setDir_dir, Mbox.setDir_setDir]
      exact congrArg (fun d => (s.composed n w k).setMb n ((s.mb n).setDir a d)) (if_neg (Bool.eq_false_iff.1 hb))
    refine ⟨tput 0 tx k (w.getD k 0), by rw [hput, State.setMb_mb, if_pos rfl], fun i hi => ?_, by rw [hput]; exact hcores, by rw [hput]; exact hsvc⟩
    rw [tget_tput]
    by_cases h : i = k
    · rw [if_pos h, h]
    · rw [if_neg h]
      exact htx i (by omega)

/-- A composed message is sent to a bound side that is not held. -/
theorem svcSend_goes {n : Fin 64} (hs : (s.mb n).side svcId = some a) (hb : ((s.mb n).dir a).busy = false) (h0 : (s.mb n).idOf (!a) ≠ 0)
    (hh : s.sideHeld ((s.mb n).idOf (!a)) = false) (w : List Word) :
    (((s.svcSend n w).mb n).dir a).busy = true ∧ (((s.svcSend n w).mb n).dir a).msg = true ∧
      (((s.svcSend n w).mb n).dir a).slot = (List.range 8).map fun i => w.getD i 0 := by
  obtain ⟨tx, hmb, htx, hcores, hsvc⟩ := composed_spec hs hb w (Nat.le_refl 8)
  have hout : (s.svcSend n w).mb n = ((s.composed n w 8).putReg svcId (mbOfs n + 0x20) 1).mb n := rfl
  have hdir : ((s.composed n w 8).mb n).dir a = { (s.mb n).dir a with tx := tx } := by rw [hmb, Mbox.setDir_dir]
  have hid : ((s.composed n w 8).mb n).idOf (!a) = (s.mb n).idOf (!a) := by rw [hmb, Mbox.setDir_idOf]
  have hside : ((s.composed n w 8).mb n).side svcId = some a := by rw [hmb, Mbox.setDir_side, hs]
  have hheld : (s.composed n w 8).sideHeld ((s.mb n).idOf (!a)) = false := by
    rw [← hh]
    unfold State.sideHeld State.core
    rw [hcores, hsvc]
  rw [hout, putReg_mbSend, mbSendWrite_side hside, hdir]
  generalize s.composed n w 8 = x at hdir hid hheld
  have hgo : (if ({ (s.mb n).dir a with tx := tx } : MbDir).busy then x.setMb n ((x.mb n).setDir a { (s.mb n).dir a with tx := tx, txRej := true })
      else if bit 1 0 then x.mbSend n a else x) = x.mbSend n a := (if_neg (Bool.eq_false_iff.1 hb)).trans (if_pos (by decide))
  rw [hgo, mbSend_goes hdir hid hb h0 hheld, mbEvent_mb, State.setMb_mb, if_pos rfl, Mbox.setDir_dir]
  exact ⟨rfl, rfl, List.map_congr_left fun i hi => htx i (List.mem_range.1 hi)⟩

theorem svcSend_answers (s : State) (b : Nat) (w : List Word) : ∃ x : State, s.svcSend b w = { x with out := x.out ++
    [.svc (match (s.mb b).side svcId with | none => 4 | some a => if ((s.mb b).dir a).busy then 1 else 0) []] } := by
  refine ⟨((List.range 8).foldl (fun s i => s.putReg svcId (mbOfs b + 4 * i) (w.getD i 0)) s).putReg svcId (mbOfs b + 0x20) 1, ?_⟩
  unfold State.svcSend
  dsimp only
  generalize ((List.range 8).foldl (fun s i => s.putReg svcId (mbOfs b + 4 * i) (w.getD i 0)) s).putReg svcId (mbOfs b + 0x20) 1 = x
  rcases (s.mb b).side svcId with _ | a
  · rfl
  · dsimp only
    split <;> rfl

theorem ackCode_word (q : Bool) (n : Nat) : BitVec.ofNat 16 (if !q then cWrongState else if 0x8000 ≤ n then cInvalid else cOk) =
    if q = false then 11 else if 0x8000 ≤ n then 2 else 0 := by
  cases q with
  | false => rfl
  | true => by_cases h : 0x8000 ≤ n <;> simp [h, cInvalid, cOk]

theorem svcAck_answers (s : State) (b : Nat) (rc : BitVec 16) : s.svcAck b rc = { s.mbAckWrite svcId b (rc.setWidth 32) with
    out := (s.mbAckWrite svcId b (rc.setWidth 32)).out ++ [.svc (match (s.mb b).side svcId with
      | none => 4
      | some a => if ((s.mb b).dir (!a)).msg = false then 11 else if 0x8000 ≤ rc.toNat then 2 else 0) []] } := by
  unfold State.svcAck
  generalize s.mbAckWrite svcId b (rc.setWidth 32) = x
  rcases (s.mb b).side svcId with _ | a
  · rfl
  · exact congrArg (fun r => ({ x with out := x.out ++ [.svc r []] } : State)) (ackCode_word _ _)

/-! ## STAGE and CORE_RESET -/

section
variable {o : Nat} {l : List Byte}

theorem svcStage_refused (h : 512 < l.length ∨ 0x980 < o + l.length) : s.svcStage o l = s.answer 2 [] :=
  if_pos (by simpa using h)

theorem svcStage_fits (h1 : l.length ≤ 512) (h2 : o + l.length ≤ 0x980) :
    s.svcStage o l = (s.lwsStage o l).answer (if s.lws.commit.isSome then 1 else 0) [] := by
  refine if_neg ?_
  simp only [Bool.or_eq_true, decide_eq_true_eq]
  omega

end

theorem coreCtrl_out (s : State) (m : Ident) (k : Nat) (v : Word) : (s.coreCtrl m k v).out = s.out := by
  unfold State.coreCtrl
  dsimp only
  split
  · split
    · rfl
    · split <;> rfl
  · split
    · rfl
    · rfl
    · rfl

/-! ## COMMIT and FUSE (R367, R513) -/

theorem svcCommit_accepted {x y z : Word} {r : State} (hr : r = { s with lws := { s.lws with stamp := x, tag := y } }) (h : r.lwsJudge svcId z = 0) :
    s.svcCommit x y z = { r.lwsAccept svcId (fld z 0 2) with svc := { s.svc with owesCommit := true } } := by
  have hnone : s.lws.commit.isSome = false := by
    rcases Bool.eq_false_or_eq_true s.lws.commit.isSome with hk | hk
    · have h1 : r.lwsJudge svcId z = 1 := if_pos (by rw [hr]; exact hk)
      exact absurd (h.symm.trans h1) (by decide)
    · exact hk
  have hcmd := lwsCmd_accepted h
  subst hr
  unfold State.svcCommit
  dsimp only
  rw [hcmd, hnone]
  exact if_pos rfl

theorem svcCommit_refused {x y z : Word} {r : State} {k : Nat} (hr : r = { s with lws := { s.lws with stamp := x, tag := y } })
    (h : r.lwsJudge svcId z = k) (h0 : k ≠ 0) {u : State} (hu : u = { r with lws := { r.lws with result := BitVec.ofNat 16 k } }) :
    s.svcCommit x y z = u.emit (.svc u.lws.result [u.lws.status]) := by
  have hcmd := lwsCmd_refused h h0
  rw [← hu] at hcmd
  have hsame : u.lws.commit = s.lws.commit := by rw [hu, hr]
  subst hr
  unfold State.svcCommit
  dsimp only
  rw [hcmd, hsame]
  exact if_neg (by cases s.lws.commit <;> exact Bool.false_ne_true)

theorem fuseJudge_permitted {y : State} (h1 : y.lws.svc = true) (h2 : y.boot.blank = true) (h3 : y.boot.fuseBusy = false) (h4 : y.boot.keystage ≠ 0) :
    y.fuseJudge svcId 0xF05E0001 = 0 := by
  unfold State.fuseJudge
  rw [h1, h2, h3]
  exact (if_neg (by decide)).trans (if_neg h4)

theorem fuseJudge_forbidden {y : State} (h : y.lws.svc = false ∨ y.boot.blank = false ∨ y.boot.fuseBusy = true) :
    y.fuseJudge svcId 0xF05E0001 = 4 := by
  refine if_pos ?_
  rcases h with h | h | h <;> simp [h]

section
variable {e : BitVec 256}

/-- The frame's digest is staged and the fuse command judged. -/
theorem svcFuse_eq (s : State) (e : BitVec 256) {y : State} (hy : y = { s with boot := { s.boot with keystage := e } }) : s.svcFuse e =
    if !s.boot.fuseBusy && (y.fuseCmd svcId 0xF05E0001).boot.fuseBusy then { y.fuseCmd svcId 0xF05E0001 with svc := { s.svc with owesFuse := true } }
    else (y.fuseCmd svcId 0xF05E0001).emit (.svc (y.fuseCmd svcId 0xF05E0001).boot.fuseResult [(y.fuseCmd svcId 0xF05E0001).boot.fuseStat]) := by
  subst hy
  rfl

theorem svcFuse_accepted (h1 : s.lws.svc = true) (h2 : s.boot.blank = true) (h3 : s.boot.fuseBusy = false) (h4 : e ≠ 0) :
    (s.svcFuse e).boot = { s.boot with keystage := e, fuseBusy := true, fuseResult := 0, fusing := e } ∧ (s.svcFuse e).svc.owesFuse = true ∧
      (s.svcFuse e).out = s.out := by
  obtain ⟨y, hy⟩ : ∃ y : State, y = { s with boot := { s.boot with keystage := e } } := ⟨_, rfl⟩
  have hjudge : y.fuseJudge svcId 0xF05E0001 = 0 := by
    subst hy
    exact fuseJudge_permitted h1 h2 h3 h4
  have hcmd : y.fuseCmd svcId 0xF05E0001 = { y with boot := { s.boot with keystage := e, fuseBusy := true, fuseResult := 0, fusing := e } } := by
    unfold State.fuseCmd
    rw [hjudge, hy]
    rfl
  rw [svcFuse_eq s e hy, hcmd, h3, hy]
  exact ⟨rfl, rfl, rfl⟩

theorem svcFuse_refused (h : s.lws.svc = false ∨ s.boot.blank = false ∨ s.boot.fuseBusy = true) :
    (s.svcFuse e).boot = { s.boot with keystage := e, fuseResult := 4 } ∧ (s.svcFuse e).out = s.out ++ [.svc 4 [(s.svcFuse e).boot.fuseStat]] := by
  obtain ⟨y, hy⟩ : ∃ y : State, y = { s with boot := { s.boot with keystage := e } } := ⟨_, rfl⟩
  have hjudge : y.fuseJudge svcId 0xF05E0001 = 4 := by
    subst hy
    exact fuseJudge_forbidden h
  have hcmd : y.fuseCmd svcId 0xF05E0001 = { y with boot := { s.boot with keystage := e, fuseResult := 4 } } := by
    unfold State.fuseCmd
    rw [hjudge, hy]
    rfl
  have hno : ¬(!s.boot.fuseBusy && s.boot.fuseBusy) = true := by cases s.boot.fuseBusy <;> exact Bool.false_ne_true
  have heq : s.svcFuse e = { y with boot := { s.boot with keystage := e, fuseResult := 4 } }.emit
      (.svc 4 [({ s.boot with keystage := e, fuseResult := 4 } : Boot).fuseStat]) := by
    rw [svcFuse_eq s e hy, hcmd]
    exact if_neg hno
  rw [heq, hy]
  exact ⟨rfl, rfl⟩

end

/-! ## The end of the attachment (R446, R447) -/

/-- A fold reaches `P` at the step for `i` and keeps it. -/
theorem foldl_reaches {α : Type} {f : State → α → State} {P Q : State → Prop} {i : α} (hkeep : ∀ s x, P s → P (f s x))
    (hhit : ∀ s, Q s → P (f s i)) (hmiss : ∀ s x, x ≠ i → Q s → Q (f s x)) {l : List α} (hi : i ∈ l) (hq : Q s) : P (l.foldl f s) := by
  induction l generalizing s with
  | nil => cases hi
  | cons x r ih =>
    rw [List.foldl_cons]
    by_cases hx : x = i
    · subst hx
      exact List.foldlRecOn (motive := P) _ _ (hhit s hq) fun s h y _ => hkeep s y h
    · exact ih ((List.mem_cons.1 hi).resolve_left fun h => hx h.symm) (hmiss s x hx hq)

/-- R446, R447: one direction of a mailbox once the identities `ms` are reset. -/
def Mbox.sideReset (x : Mbox) (ms : List Ident) (a : Bool) : Mbox :=
  let d := x.dir a
  if ms.contains (x.idOf a) && ms.contains (x.idOf (!a)) then x.setDir a {}
  else if ms.contains (x.idOf (!a)) then
    if d.busy && !d.gone then x.setDir a { d with busy := false, msg := false, slot := [], acked := true, rc := 0xFF00, rxRej := false }
    else x.setDir a { d with busy := false, msg := false, slot := [], gone := false, rxRej := false, rc := if d.gone then 0 else d.rc }
  else if ms.contains (x.idOf a) then
    x.setDir a { d with tx := [], acked := false, timeout := false, txRej := false, gone := d.msg, rc := if d.msg then 0xFF02 else 0 }
  else x

/-- The step of the reset at side `a` of mailbox `b`. -/
def State.mbSideReset (ms : List Ident) (b : Nat) (s : State) (a : Bool) : State :=
  let x := s.mb b
  let d := x.dir a
  let snd := ms.contains (x.idOf a)
  let rcv := ms.contains (x.idOf (!a))
  if snd && rcv then s.setMb b (x.setDir a {})
  else if rcv then
    if d.busy && !d.gone then
      (s.setMb b (x.setDir a { d with busy := false, msg := false, slot := [], acked := true, rc := 0xFF00, rxRej := false })).mbEvent
        b (x.idOf a) 1 0xFF00 []
    else s.setMb b (x.setDir a { d with busy := false, msg := false, slot := [], gone := false, rxRej := false,
                                        rc := if d.gone then 0 else d.rc })
  else if snd then
    s.setMb b (x.setDir a { d with tx := [], acked := false, timeout := false, txRej := false, gone := d.msg,
                                   rc := if d.msg then 0xFF02 else 0 })
  else s

theorem mbReset_eq (s : State) (ms : List Ident) :
    s.mbReset ms = (s.mbox.boxes.map (·.1)).foldl (fun s b => [true, false].foldl (State.mbSideReset ms b) s) s := rfl

theorem mbSideReset_mb (s : State) (ms : List Ident) (b : Nat) (a : Bool) (j : Nat) :
    (s.mbSideReset ms b a).mb j = if j = b then (s.mb b).sideReset ms a else s.mb j := by
  have hput (y : Mbox) : (s.setMb b y).mb j = if j = b then y else s.mb j := State.setMb_mb ..
  unfold State.mbSideReset Mbox.sideReset
  dsimp only
  split
  · exact hput _
  split
  · split
    · rw [mbEvent_mb]
      exact hput _
    · exact hput _
  split
  · exact hput _
  · by_cases h : j = b
    · rw [if_pos h, h]
    · rw [if_neg h]

/-- Side B is the service port and A is not. -/
def Mbox.ServesB (x : Mbox) : Prop := x.idB = 0x20 ∧ x.idA ≠ 0x20

/-- A message to the service port is out. -/
def Mbox.Owed (x : Mbox) : Prop := x.ServesB ∧ x.ab.busy = true ∧ x.ab.gone = false

/-- A message to the service port has been answered RECEIVER_RESET. -/
def Mbox.Answered (x : Mbox) : Prop := x.ServesB ∧ x.ab.gone = false ∧ x.ab.busy = false ∧ x.ab.acked = true ∧ x.ab.rc = 0xFF00 ∧ x.ab.slot = []

theorem Mbox.ServesB.reset_true {x : Mbox} (h : x.ServesB) : x.sideReset [svcId] true =
    if x.ab.busy && !x.ab.gone then { x with ab := { x.ab with busy := false, msg := false, slot := [], acked := true, rc := 0xFF00, rxRej := false } }
    else { x with ab := { x.ab with busy := false, msg := false, slot := [], gone := false, rxRej := false, rc := if x.ab.gone then 0 else x.ab.rc } } := by
  obtain ⟨hB, hA⟩ := h
  have hsnd : ([svcId].contains (x.idOf true)) = false := by simpa [Mbox.idOf, svcId] using hA
  have hrcv : ([svcId].contains (x.idOf (!true))) = true := by simp [Mbox.idOf, svcId, hB]
  unfold Mbox.sideReset
  dsimp only
  rw [hsnd, hrcv]
  rfl

/-- The reset of the other direction leaves side B's messages alone. -/
theorem Mbox.sideReset_false (x : Mbox) (ms : List Ident) : (x.sideReset ms false).ab = x.ab ∧ (x.sideReset ms false).bind = x.bind := by
  unfold Mbox.sideReset
  dsimp only
  split
  · exact ⟨rfl, rfl⟩
  split
  · split <;> exact ⟨rfl, rfl⟩
  split <;> exact ⟨rfl, rfl⟩

theorem Mbox.answered_false {x : Mbox} (h : x.Answered) : (x.sideReset [svcId] false).Answered := by
  obtain ⟨hab, hbind⟩ := x.sideReset_false [svcId]
  unfold Mbox.Answered Mbox.ServesB Mbox.idA Mbox.idB at h ⊢
  rwa [hab, hbind]

/-- Both directions in turn. -/
theorem Mbox.both_answered {x : Mbox} (h : x.Owed ∨ x.Answered) : ((x.sideReset [svcId] true).sideReset [svcId] false).Answered := by
  refine Mbox.answered_false ?_
  rcases h with ⟨hx, hb, hg⟩ | ⟨hx, hg, hb, ha, hr, hs⟩
  · rw [hx.reset_true, if_pos (by rw [hb, hg]; rfl)]
    exact ⟨hx, hg, rfl, rfl, rfl, rfl⟩
  · rw [hx.reset_true, if_neg (by rw [hb]; exact Bool.false_ne_true)]
    exact ⟨hx, rfl, rfl, ha, (if_neg (Bool.eq_false_iff.1 hg)).trans hr, rfl⟩

theorem mbReset_answers (h : (s.mb b).Owed) : ((s.mbReset [svcId]).mb b).Answered := by
  have hboth (s : State) (x : Nat) : ([true, false].foldl (State.mbSideReset [svcId] x) s).mb b =
      if b = x then ((s.mb b).sideReset [svcId] true).sideReset [svcId] false else s.mb b := by
    rw [List.foldl_cons, List.foldl_cons, List.foldl_nil, mbSideReset_mb, mbSideReset_mb, mbSideReset_mb, if_pos rfl]
    by_cases hx : b = x
    · rw [if_pos hx, if_pos hx, hx]
    · rw [if_neg hx, if_neg hx, if_neg hx]
  rw [mbReset_eq]
  refine foldl_reaches (P := fun s => (s.mb b).Answered) (Q := fun s => (s.mb b).Owed) (i := b) (fun s x hp => ?_) (fun s hq => ?_) (fun s x hx hq => ?_) ?_ h
  · rw [hboth]
    split
    · exact Mbox.both_answered (.inr hp)
    · exact hp
  · rw [hboth, if_pos rfl]
    exact Mbox.both_answered (.inl hq)
  · rw [hboth, if_neg (Ne.symm hx)]
    exact hq
  · by_contra hm
    have hmb : s.mb b = {} := tget_of_not_mem _ hm
    obtain ⟨-, hb, -⟩ := h
    rw [hmb] at hb
    exact Bool.false_ne_true hb

end

/-- Settles O50: the frame before its operation, each operation by its answer, and the bus reset by the messages it answers. -/
theorem serviceFramesActForTheService : Obligations.ServiceFramesActForTheService := by
  unfold Obligations.ServiceFramesActForTheService
  refine ⟨?_, ?_, ?_, ?_, ?_, ?_, ?_, ?_, ?_⟩
  · rintro t s _ i f hd rfl hi
    have hexec : exec i s = svcWrite t s f := by
      rcases hi with ⟨b, w, rfl, hf⟩ | ⟨b, w, rfl, hf⟩ | ⟨b, w, rfl, hf⟩ | ⟨a, b, w, rfl, hf⟩ | ⟨d, rfl, hf⟩ | ⟨k, v, rfl, hf⟩ <;>
        rw [funext hf] <;> rfl
    rw [hexec]
    exact ⟨fun ha => svcFrame_detached hd ha _, fun ha hb => svcWrite_busy hd ha hb f, fun ha hb hr => svcWrite_acts hd ha hb hr f⟩
  · rintro t o n s _ hd rfl
    have hexec : exec (.svcRead t o n) s = svcFrame t s (fun s => if n = 0 || 64 < n then s.answer 2 [] else
        (s.svcWords (o / 4 * 4) n).2.answer 0 (s.svcWords (o / 4 * 4) n).1) := rfl
    rw [hexec]
    refine ⟨fun ha => svcFrame_detached hd ha _, fun ha hn => (svcFrame_attached hd ha _).trans (congrArg _ (if_pos ?_)),
      fun ha h1 h2 => ⟨_, _, rfl, svcWords_length .., (svcFrame_attached hd ha _).trans (congrArg _ (if_neg ?_))⟩⟩
    · simpa only [Bool.or_eq_true, decide_eq_true_eq] using hn
    · simp only [Bool.or_eq_true, decide_eq_true_eq]
      omega
  · intro s k j hk
    refine ⟨if_pos ?_, rfl⟩
    interval_cases k <;> decide
  · intro s b w rc st
    refine ⟨?_, fun a hs hb h0 hh => svcSend_goes hs hb h0 hh w, ?_⟩
    · rintro rfl
      exact svcSend_answers s b w
    · rintro rfl
      exact svcAck_answers s b rc
  · intro s o b
    refine ⟨svcStage_refused, fun h1 h2 hk => ?_, fun h1 h2 hk => ?_⟩
    · rw [svcStage_fits h1 h2, if_pos hk, State.lwsStage, if_pos hk]
    · have hno : ¬s.lws.commit.isSome = true := by rw [hk]; exact Bool.false_ne_true
      rw [svcStage_fits h1 h2, if_neg hno, State.lwsStage, if_neg hno]
  · rintro s _ a b v rfl
    exact ⟨svcCommit_accepted rfl, fun r h h0 => ⟨_, rfl, svcCommit_refused rfl h h0 rfl⟩⟩
  · intro s d
    exact ⟨fun h1 h2 h3 h4 => svcFuse_accepted h1 h2 h3 h4, fun h => svcFuse_refused h⟩
  · intro s k v
    have hout := coreCtrl_out s svcId k (flag 0 v)
    rw [← hout]
    rfl
  · intro t s hd
    refine ⟨liveEvent_live (f := fun s => { s with svc := { s.svc with attached := true } }) hd, _, liveEvent_live (f := State.usbReset) hd, ?_, ?_, fun b hB hA hb hg => ?_⟩
    · have h := (kept_mbReset (x1 := [svcId]) (.refl (s.arrive t))).svc
      rw [State.usbReset, h]
      rfl
    · exact (CoresRest.mbReset (s.arrive t) [svcId]).cores
    · obtain ⟨-, -, hb, ha, hr, hs⟩ := mbReset_answers (s := s.arrive t) (b := b) ⟨⟨hB, hA⟩, hb, hg⟩
      exact ⟨hb, ha, hr, hs⟩

end Sys2Proof.Machine
end


section

/-! PROOFS. What the reaction to a step, or to another change of a cell, leaves of the cores and the pins. -/

namespace Sys2Proof.Machine

/-- What such a reaction leaves alone: the cores, their reservations aside, the pins, the causes of their clamps, the safe state, and
the line time. -/
structure Still where
  cores : Nat → Core
  pins : Tab Pin
  causes : Nat → BitVec 4
  safe : Bool
  safeT : Time
  ptp : Ptp

def State.still (s : State) : Still :=
  { cores := fun k => { s.core k with resv := none }, pins := s.outs.pins, causes := fun p => (s.ou p).lastCause, safe := s.fc.safe, safeT := s.fc.safeT,
    ptp := s.net.ptp }

section
variable {s u : State} {β : Type}

theorem still_of (h : u.cores = s.cores) (ho : u.outs = s.outs) (hf : u.fc = s.fc) (hn : u.net = s.net) : u.still = s.still := by
  unfold State.still State.core State.ou
  rw [h, ho, hf, hn]

theorem still_ite {c : Prop} [Decidable c] {x y : State} (hx : x.still = s.still) (hy : y.still = s.still) : (if c then x else y).still = s.still := by
  split
  · exact hx
  · exact hy

theorem still_ite_snd {c : Prop} [Decidable c] {x y : β × State} (hx : x.2.still = s.still) (hy : y.2.still = s.still) :
    (if c then x else y).2.still = s.still := by
  split
  · exact hx
  · exact hy

theorem still_ite_fst {c : Prop} [Decidable c] {x y : State × β} (hx : x.1.still = s.still) (hy : y.1.still = s.still) :
    (if c then x else y).1.still = s.still := by
  split
  · exact hx
  · exact hy

/-- A fold of steps that leave it. -/
theorem still_foldl {α : Type} {f : State → α → State} (hf : ∀ s x, (f s x).still = s.still) (l : List α) (s : State) : (l.foldl f s).still = s.still :=
  foldl_keeps State.still hf l s

/-- The state of a pair that is known. -/
theorem still_snd {p : β × State} {b : β} (h : p = (b, u)) (hp : p.2.still = s.still) : u.still = s.still := by
  subst h
  exact hp

/-! ## The tables -/

section
variable (s : State) (n : Nat)

theorem still_setOu {x : OutUnit} (h : x.lastCause = (s.ou n).lastCause) : (s.setOu n x).still = s.still := by
  have hcause : (fun p => ((s.setOu n x).ou p).lastCause) = fun p => (s.ou p).lastCause := by
    funext p
    rw [State.setOu_ou]
    split
    · next hp => rw [hp, h]
    · rfl
  unfold State.still
  rw [hcause]
  rfl

theorem still_modOu {f : OutUnit → OutUnit} (h : ∀ x, (f x).lastCause = x.lastCause) : (s.modOu n f).still = s.still := still_setOu s n (h _)

@[simp] theorem still_setChan (x : Chan) : (s.setChan n x).still = s.still := rfl
@[simp] theorem still_modChan (f : Chan → Chan) : (s.modChan n f).still = s.still := rfl
@[simp] theorem still_setCap (x : Cap) : (s.setCap n x).still = s.still := rfl
@[simp] theorem still_modCap (f : Cap → Cap) : (s.modCap n f).still = s.still := rfl
@[simp] theorem still_setCmp (x : Cmp) : (s.setCmp n x).still = s.still := rfl
@[simp] theorem still_modCmp (f : Cmp → Cmp) : (s.modCmp n f).still = s.still := rfl
@[simp] theorem still_setEq (x : EQ) : (s.setEq n x).still = s.still := rfl
@[simp] theorem still_modEq (f : EQ → EQ) : (s.modEq n f).still = s.still := rfl
@[simp] theorem still_setDom (x : Dom) : (s.setDom n x).still = s.still := rfl
@[simp] theorem still_setFq (x : FQ) : (s.setFq n x).still = s.still := rfl
@[simp] theorem still_setVec (x : Msix) : (s.setVec n x).still = s.still := rfl
@[simp] theorem still_setCic (x : CicSrc) : (s.setCic n x).still = s.still := rfl
@[simp] theorem still_setStream (x : Stream) : (s.setStream n x).still = s.still := rfl
@[simp] theorem still_report : (s.report n).still = s.still := rfl
@[simp] theorem still_emit (x : Out) : (s.emit x).still = s.still := rfl
@[simp] theorem still_spend (who : Who) (a : Nat) : (s.spend who n a).still = s.still := rfl
@[simp] theorem still_forget (who : Who) : (s.forget who).still = s.still := rfl
@[simp] theorem still_setWalks (l : List Walk) : (s.setWalks l).still = s.still := rfl
@[simp] theorem still_schedGive (w : Taker) : (s.schedGive w n).still = s.still := rfl
@[simp] theorem still_freeBox : (s.freeBox n).still = s.still := rfl
@[simp] theorem still_retMover : (s.retMover n).still = s.still := rfl
@[simp] theorem still_msixNotify : (s.msixNotify n).still = s.still := still_setVec ..
@[simp] theorem still_eqReserve : (s.eqReserve n).still = s.still := still_modEq ..

/-! ## Memory and notifications -/

theorem clearResv_find (t : Tab Core) (by_ : Option Nat) (a n k : Nat) :
    ({ tget {} (clearResv t by_ a n) k with resv := none } : Core) = { tget {} t k with resv := none } := by
  unfold clearResv
  refine List.foldlRecOn (motive := fun r : Tab Core => ({ tget {} r k with resv := none } : Core) = { tget {} t k with resv := none }) _ _ rfl
    fun r h j _ => ?_
  rw [← h]
  dsimp only
  split
  · rfl
  split
  · split
    · rw [tget_tput]
      by_cases hk : k = j
      · rw [if_pos hk, hk]
      · rw [if_neg hk]
    · rfl
  · rfl

@[simp] theorem still_sramWriteBy (by_ : Option Nat) (a : Nat) (b : List Byte) : (s.sramWriteBy by_ a b).still = s.still :=
  congrArg (fun c => ({ s.still with cores := c } : Still)) (funext fun k => clearResv_find s.cores by_ a b.length k)

@[simp] theorem still_putOut (phy : Bool) (a : Nat) (b : List Byte) : (s.putOut phy a b).still = s.still := by
  cases phy with
  | false => rfl
  | true => exact still_sramWriteBy ..

@[simp] theorem still_cicEdge : (s.cicEdge n).still = s.still := by
  unfold State.cicEdge
  split <;> simp

@[simp] theorem still_notifyQ (v b w k : Nat) : (s.notifyQ n v b w k).still = s.still := by
  unfold State.notifyQ
  split
  · rfl
  · split <;> simp

@[simp] theorem still_eqError (c : BitVec 2) : (s.eqError n c).still = s.still :=
  (still_report ..).trans ((still_forget ..).trans (still_modEq ..))

@[simp] theorem still_eqNotify : (s.eqNotify n).still = s.still := by
  unfold State.eqNotify
  dsimp only
  split <;> simp

@[simp] theorem still_faultRecord (r : FaultRec) : (s.faultRecord r).still = s.still := by
  unfold State.faultRecord
  dsimp only
  refine still_ite ((still_setFq ..).trans (still_setDom ..)) (still_ite ((still_setFq ..).trans (still_setDom ..)) ?_)
  split <;> simp

/-! ## Translation and the posting of records -/

@[simp] theorem still_lookup (a : Nat) (acc : Access) : (s.lookup n a acc).2.still = s.still := by
  unfold State.lookup
  split
  · rfl
  split
  · exact still_of rfl rfl rfl rfl
  · rfl

@[simp] theorem still_walk (who : Who) (a : Nat) (acc : Access) (b : Bool) : (s.walk who n a acc b).2.still = s.still := by
  unfold State.walk
  exact still_ite_snd rfl (still_ite_snd rfl (still_setWalks ..))

@[simp] theorem still_xlate (who : Who) (a : Nat) (acc : Access) (b : Bool) : (s.xlate who n a acc b).2.still = s.still := by
  unfold State.xlate
  split
  · rfl
  split
  · split <;> rfl
  · split
    · next h => exact (still_walk ..).trans (still_snd h (still_lookup ..))
    · exact still_lookup ..

@[simp] theorem still_eqAddr (a : Nat) (acc : Access) : (s.eqAddr n a acc).2.still = s.still := by
  unfold State.eqAddr
  dsimp only
  split
  · rfl
  · split
    · next h => exact still_snd h (still_xlate ..)
    · next h => exact still_snd h (still_xlate ..)
    · next h => exact (still_faultRecord ..).trans ((still_eqError ..).trans (still_snd h (still_xlate ..)))

@[simp] theorem still_eqCommit (l : List Byte) : (s.eqCommit n l).2.still = s.still := by
  unfold State.eqCommit
  dsimp only
  split
  · next h =>
    have h1 := still_snd h (still_eqAddr ..)
    split
    · next h' =>
      have h2 := (still_snd h' (still_eqAddr ..)).trans h1
      split
      · exact h2
      · simp [h2]
    · next h' => exact (still_snd h' (still_eqAddr ..)).trans h1
    · next h' => exact (still_snd h' (still_eqAddr ..)).trans h1
  · next h => exact still_snd h (still_eqAddr ..)
  · next h => exact still_snd h (still_eqAddr ..)

@[simp] theorem still_eqPost (p : Poster) (l : List Byte) : (s.eqPost n p l).2.still = s.still := by
  unfold State.eqPost
  dsimp only
  split
  · exact still_modEq ..
  split
  · exact (still_modEq ..).trans (still_modEq ..)
  have hc := still_eqCommit (s.eqReserve n) n l
  split
  · next h => exact still_snd h hc
  · next h => exact (still_modEq ..).trans (still_snd h hc)
  · next h => exact (still_modEq ..).trans (still_snd h hc)

@[simp] theorem still_chanPost (l : List Byte) : (s.chanPost n l).2.still = s.still := by
  unfold State.chanPost
  split
  · rfl
  split
  · rfl
  split
  · next h => exact (still_modChan ..).trans (still_snd h (still_eqPost ..))
  · exact still_eqPost ..

/-! ## What a channel holds is given back -/

@[simp] theorem still_freeSlots : (s.freeSlots n).still = s.still :=
  still_foldl (fun s u => still_modOu s u (f := fun o => o.free n (cyc s.now + 1)) fun _ => rfl) _ _

@[simp] theorem still_freeRecord : (s.freeRecord n).still = s.still :=
  still_foldl (fun _ _ => still_ite (still_setStream ..) rfl) _ _

@[simp] theorem still_unclaim (b : Burst) : (s.unclaim b).still = s.still := by
  unfold State.unclaim
  dsimp only
  split
  · exact still_ite (still_setStream ..) rfl
  · exact still_freeBox ..
  · rfl

@[simp] theorem still_freeMover (all : Bool) : (s.freeMover n all).still = s.still := by
  refine still_foldl (fun s p => (still_retMover ..).trans ?_) _ _
  split
  · split <;> simp
  · rfl

@[simp] theorem still_unhold : (s.unhold n).still = s.still := by
  unfold State.unhold
  split
  · rfl
  · simp

@[simp] theorem still_freeTimed : (s.freeTimed n).still = s.still := by
  unfold State.freeTimed
  split
  · rfl
  · simp

@[simp] theorem still_freeAll : (s.freeAll n).still = s.still := by simp [State.freeAll]

/-! ## The end of a program -/

@[simp] theorem still_endProgram (st : ChanState) (tag : Bool) : (s.endProgram n st tag).still = s.still := by
  unfold State.endProgram
  dsimp only
  split
  · next h => exact (still_modChan ..).trans ((still_snd h (still_chanPost ..)).trans (still_freeAll ..))
  · next h => exact (still_modChan ..).trans ((still_modChan ..).trans ((still_snd h (still_chanPost ..)).trans (still_freeAll ..)))

@[simp] theorem still_endWith (l : List Nat) : (s.endWith n l).still = s.still := (still_endProgram ..).trans (still_modChan ..)

@[simp] theorem still_miss (c : Nat) (l : List Nat) : (s.miss n c l).still = s.still :=
  (still_endWith ..).trans ((still_modChan ..).trans ((still_freeMover ..).trans rfl))

/-! ## Predictions -/

@[simp] theorem still_placeHeld : (s.placeHeld n).still = s.still := still_modChan ..
@[simp] theorem still_holdDue : (s.holdDue n).still = s.still := still_modChan ..
@[simp] theorem still_setDue (d : Option Time) : (s.setDue n d).still = s.still := still_modChan ..
@[simp] theorem still_noteOor : (s.noteOor n).still = s.still := still_modChan ..
@[simp] theorem still_holdEdge (c : Nat) : (s.holdEdge n c).still = s.still := (still_modChan ..).trans (still_modOu _ _ fun _ => rfl)
@[simp] theorem still_unstage : (s.unstage n).still = s.still := (still_modChan ..).trans (still_unhold ..)

@[simp] theorem still_refine (d : Timed) (pc : Time) : (s.refine n d pc).still = s.still := by
  unfold State.refine
  split
  · exact still_holdDue ..
  · exact still_ite ((still_placeHeld ..).trans (still_setDue ..)) (still_setDue ..)

@[simp] theorem still_newPrediction (d : Option Time) : (s.newPrediction n d).still = s.still := by
  unfold State.newPrediction
  split
  · exact still_ite (still_miss ..) (still_setDue ..)
  · exact still_setDue ..

@[simp] theorem still_rePredict (d : Timed) : (s.rePredict n d).still = s.still := by
  unfold State.rePredict
  dsimp only
  split
  · rfl
  split
  · exact still_newPrediction ..
  · exact (still_unstage ..).trans (still_setDue ..)
  · exact still_ite ((still_unstage ..).trans (still_setDue ..)) (still_setDue ..)

@[simp] theorem still_timedStep (e : StepEv) : (s.timedStep e n).still = s.still := by
  unfold State.timedStep
  dsimp only
  split
  · rfl
  split
  · rfl
  split
  · exact still_ite rfl (still_refine ..)
  · exact still_ite ((still_miss ..).trans (still_noteOor ..)) ((still_rePredict ..).trans (still_noteOor ..))

@[simp] theorem still_timedChange (m : Nat) (k : Change) : (s.timedChange m k n).still = s.still := by
  unfold State.timedChange
  dsimp only
  split
  · rfl
  split
  · rfl
  split
  · refine still_ite rfl ?_
    split
    · exact still_refine ..
    · exact still_ite (still_holdDue ..) (still_refine ..)
  · exact still_ite ((still_miss ..).trans (still_noteOor ..)) ((still_rePredict ..).trans (still_noteOor ..))

@[simp] theorem still_edgeChange (e : Option StepEv) (k : Change) (m : Nat) : (s.edgeChange e k m n).still = s.still := by
  unfold State.edgeChange
  dsimp only
  split
  · refine still_ite rfl ?_
    split
    · refine still_ite (still_holdEdge ..) ?_
      split
      · exact still_holdEdge ..
      · exact still_ite ((still_placeHeld ..).trans (still_setOu _ _ rfl)) (still_setOu _ _ rfl)
    · refine still_ite ((still_placeHeld ..).trans (still_setOu _ _ rfl)) ?_
      split
      · exact still_setOu _ _ rfl
      · exact still_ite (still_placeHeld ..) rfl
  · rfl

@[simp] theorem still_gladeNote : (s.gladeNote n).still = s.still := by
  unfold State.gladeNote
  split
  · exact still_ite (still_modChan ..) rfl
  · rfl

theorem still_watchStep (e : StepEv) : (s.watchStep e).still = s.still :=
  (still_foldl (fun _ _ => still_edgeChange ..) _ _).trans (still_foldl (fun _ _ => still_timedStep ..) _ _)

theorem still_watchChange (k : Change) : (s.watchChange n k).still = s.still := by
  unfold State.watchChange
  refine (still_foldl (fun _ _ => still_edgeChange ..) _ _).trans ?_
  split
  · exact (still_foldl (fun _ _ => still_gladeNote ..) _ _).trans (still_foldl (fun _ _ => still_timedChange ..) _ _)
  · exact still_foldl (fun _ _ => still_timedChange ..) _ _

/-! ## Compare and capture units -/

@[simp] theorem still_wakeWaiters : (s.wakeWaiters n).still = s.still := still_foldl (fun _ _ => still_modChan ..) _ _
@[simp] theorem still_wakeUnit : (s.wakeUnit n).still = s.still := still_wakeWaiters ..
@[simp] theorem still_wakeCmp : (s.wakeCmp n).still = s.still := still_wakeWaiters ..

@[simp] theorem still_cmpPredict : (s.cmpPredict n).still = s.still := by
  unfold State.cmpPredict
  exact still_ite rfl (still_setCmp ..)

@[simp] theorem still_cmpOorRecord : (s.cmpOorRecord n).still = s.still := by
  unfold State.cmpOorRecord
  dsimp only
  split
  · rfl
  split
  · rfl
  · split
    · next h => exact (still_snd h (still_eqPost ..)).trans (still_setCmp ..)
    · next h => exact (still_modCmp ..).trans ((still_snd h (still_eqPost ..)).trans (still_setCmp ..))

@[simp] theorem still_cmpRangeCheck : (s.cmpRangeCheck n).still = s.still := by
  unfold State.cmpRangeCheck
  exact still_ite (still_cmpOorRecord ..) (still_setCmp ..)

@[simp] theorem still_cmpGiveEntry : (s.cmpGiveEntry n).still = s.still := (still_modCmp ..).trans (still_schedGive ..)
@[simp] theorem still_cmpDisarm : (s.cmpDisarm n).still = s.still := (still_cmpGiveEntry ..).trans (still_modCmp ..)

@[simp] theorem still_schedTake (w : Taker) : (s.schedTake w).2.still = s.still := by
  unfold State.schedTake
  exact still_ite_snd rfl (still_ite_snd rfl rfl)

@[simp] theorem still_cmpTakeEntry : (s.cmpTakeEntry n).still = s.still := by
  unfold State.cmpTakeEntry
  split
  · rfl
  split
  · next h => exact (still_modCmp ..).trans (still_snd h (still_schedTake ..))
  · next h => exact still_snd h (still_schedTake ..)

@[simp] theorem still_cmpArm (a : Option Nat) : (s.cmpArm n a).still = s.still :=
  (still_cmpPredict ..).trans ((still_cmpOorRecord ..).trans ((still_cmpTakeEntry ..).trans (still_modCmp ..)))

@[simp] theorem still_cmpRecord (p : Word) (e : StepEv) : (s.cmpRecord n p e).still = s.still := by
  unfold State.cmpRecord
  dsimp only
  split
  · exact still_setCmp ..
  split
  · rfl
  · split
    · next h => exact still_snd h (still_eqPost ..)
    · next h => exact (still_modCmp ..).trans (still_snd h (still_eqPost ..))

@[simp] theorem still_cmpFire (e : StepEv) (k : Nat) : (s.cmpFire n e k).still = s.still := by
  simp [State.cmpFire, apply_ite State.still]

@[simp] theorem still_cmpStep (l : List StepEv) : (s.cmpStep l n).1.still = s.still := by
  unfold State.cmpStep
  dsimp only
  split
  · rfl
  split
  · rfl
  split
  · split <;> simp
  exact still_ite_fst rfl (still_ite_fst rfl (still_cmpFire ..))

theorem still_fireUnits (l : List StepEv) : (s.fireUnits l).1.still = s.still := by
  unfold State.fireUnits
  refine List.foldlRecOn (motive := fun p : State × List (Nat × StepEv) => p.1.still = s.still) _ _ rfl fun p h k _ => ?_
  have hk := still_cmpStep p.1 k l
  split
  · next hs => rw [hs] at hk; exact hk.trans h
  · next hs => rw [hs] at hk; exact hk.trans h

@[simp] theorem still_capRecord (r : CapRec) : (s.capRecord n r).still = s.still := by
  unfold State.capRecord
  dsimp only
  split
  · exact still_setCap ..
  split
  · rfl
  · split
    · next h => exact still_snd h (still_eqPost ..)
    · next h => exact (still_modCap ..).trans (still_snd h (still_eqPost ..))

@[simp] theorem still_capAccept (t : Time) (b : Bool) : (s.capAccept n t b).still = s.still := by
  simp [State.capAccept, apply_ite State.still]

theorem still_fireCaptures (l : List (Nat × StepEv)) : (s.fireCaptures l).still = s.still :=
  still_foldl (fun _ _ => still_foldl (fun _ _ => by dsimp only; split <;> simp) _ _) _ _

/-- The reaction to steps leaves the pins alone, and of the cores all but their reservations. -/
theorem still_react (l : List StepEv) : (s.react l).still = s.still := by
  unfold State.react
  split
  · rfl
  · refine (still_foldl (fun _ _ => still_cmpPredict ..) _ _).trans ((still_fireCaptures ..).trans ((still_fireUnits ..).trans ?_))
    exact still_foldl (fun _ _ => still_watchStep ..) _ _

/-- So does the reaction to another change of a cell. -/
theorem still_cellChange (k : Change) : (s.cellChange n k).still = s.still := by
  refine (still_foldl (fun s j => ?_) _ _).trans (still_watchChange ..)
  split <;> simp

end

end

end Sys2Proof.Machine
end


section

/-! PROOFS. Rest asked for, entered and left (O42). -/

namespace Sys2Proof.Machine

section
variable {s u w : State} {n : Nat} {v f : Word} {t : Time}

/-! ## A cell put in at the entry of Rest or at wake -/

/-- What a cell that is put in, and the predictions that follow it, leave of the part. -/
structure Settles (s u : State) : Prop where
  now : u.now = s.now
  und : u.und = s.und
  start : u.axes.start = s.axes.start
  still : u.still = s.still
  calm : (∀ c, (s.chan c).timed = none) → (∀ c, (u.chan c).timed = none) ∧ u.mem = s.mem ∧ u.fc = s.fc ∧ u.yz = s.yz

namespace Settles

theorem refl (s : State) : Settles s s := ⟨rfl, rfl, rfl, rfl, fun h => ⟨h, rfl, rfl, rfl⟩⟩

theorem trans (h : Settles s u) (g : Settles u w) : Settles s w := by
  refine ⟨g.now.trans h.now, g.und.trans h.und, g.start.trans h.start, g.still.trans h.still, fun ht => ?_⟩
  obtain ⟨h1, hm, hf, hy⟩ := h.calm ht
  obtain ⟨h2, hm', hf', hy'⟩ := g.calm h1
  exact ⟨h2, hm'.trans hm, hf'.trans hf, hy'.trans hy⟩

theorem foldl {α : Type} {f : State → α → State} (hf : ∀ s x, Settles s (f s x)) (l : List α) (s : State) : Settles s (l.foldl f s) :=
  List.foldlRecOn (motive := Settles s) _ _ (.refl s) fun u h x _ => h.trans (hf u x)

end Settles

/-- The operations that follow another change of a cell where no command is timed. -/
def Calm (s u : State) : Prop :=
  (∀ c, (u.chan c).timed = (s.chan c).timed) ∧ u.mem = s.mem ∧ u.fc = s.fc ∧ u.yz = s.yz

theorem Calm.refl (s : State) : Calm s s := ⟨fun _ => rfl, rfl, rfl, rfl⟩

theorem Calm.trans (h : Calm s u) (g : Calm u w) : Calm s w :=
  ⟨fun c => (g.1 c).trans (h.1 c), g.2.1.trans h.2.1, g.2.2.1.trans h.2.2.1, g.2.2.2.trans h.2.2.2⟩

theorem Calm.foldl {α : Type} {f : State → α → State} (hf : ∀ s x, Calm s (f s x)) (l : List α) (s : State) : Calm s (l.foldl f s) :=
  List.foldlRecOn (motive := Calm s) _ _ (.refl s) fun u h x _ => h.trans (hf u x)

theorem calm_ite {c : Prop} [Decidable c] {x y : State} (hx : Calm s x) (hy : Calm s y) : Calm s (if c then x else y) := by
  split
  · exact hx
  · exact hy

theorem calm_placeHeld (s : State) (c : Nat) : Calm s (s.placeHeld c) := by
  refine ⟨fun j => ?_, rfl, rfl, rfl⟩
  rw [State.placeHeld, State.modChan, State.setChan_chan]
  split
  · next h => rw [h]
  · rfl

theorem calm_setOu (s : State) (k : Nat) (x : OutUnit) : Calm s (s.setOu k x) := ⟨fun _ => rfl, rfl, rfl, rfl⟩

theorem calm_holdEdge (s : State) (k c : Nat) : Calm s (s.holdEdge k c) := (calm_setOu s k _).trans (calm_placeHeld _ c)

theorem calm_edgeChange (s : State) (m k : Nat) : Calm s (s.edgeChange none .other m k) := by
  unfold State.edgeChange
  dsimp only
  split
  · refine calm_ite (.refl s) ?_
    split
    · refine calm_ite (calm_holdEdge ..) ?_
      split
      · exact calm_holdEdge ..
      · exact calm_ite ((calm_setOu ..).trans (calm_placeHeld ..)) (calm_setOu ..)
    · refine calm_ite ((calm_setOu ..).trans (calm_placeHeld ..)) ?_
      split
      · exact calm_setOu ..
      · exact calm_ite (calm_placeHeld ..) (.refl s)
  · exact .refl s

theorem calm_cmpPredict (s : State) (k : Nat) : Calm s (s.cmpPredict k) := by
  unfold State.cmpPredict
  exact calm_ite (.refl s) ⟨fun _ => rfl, rfl, rfl, rfl⟩

theorem timedChange_untimed {c : Nat} (h : (s.chan c).timed = none) (m : Nat) (k : Change) : s.timedChange m k c = s := by
  unfold State.timedChange
  dsimp only
  rw [h]

theorem calm_cellChange (h : ∀ c, (s.chan c).timed = none) (m : Nat) : Calm s (s.cellChange m .other) := by
  unfold State.cellChange
  refine Calm.trans ?_ (Calm.foldl (fun s j => ?_) _ _)
  · unfold State.watchChange
    have hid : s.chanKeys.foldl (fun s c => s.timedChange m .other c) s = s :=
      foldl_fixed (f := fun s c => s.timedChange m .other c) (fun c => timedChange_untimed (h c) m .other) _
    dsimp only
    rw [hid, if_neg (by decide)]
    exact Calm.foldl (fun s k => calm_edgeChange s m k) _ _
  · exact calm_ite (calm_cmpPredict s j) (.refl s)

theorem Settles.put (s : State) (n : Nat) (c : Cell) : Settles s ((s.putCell n c).cellChange n .other) := by
  have hr := kept_cellChange (x1 := n) (x2 := .other) (.refl (s.putCell n c))
  refine ⟨hr.now, hr.und, by rw [hr.axes]; rfl, (still_cellChange ..).trans rfl, fun ht => ?_⟩
  obtain ⟨h1, h2, h3, h4⟩ := calm_cellChange (s := s.putCell n c) ht n
  exact ⟨fun c => (h1 c).trans (ht c), h2, h3, h4⟩

theorem restCell_settles (s : State) (n : Nat) : Settles s (s.restCell n) := by
  unfold State.restCell
  dsimp only
  split
  · exact .refl s
  split
  · split
    · exact .refl s
    · exact .put ..
  split
  · exact .put ..
  · exact .refl s

theorem wakeCell_settles (s : State) (n : Nat) (x : BitVec 16) : Settles s (s.wakeCell n x) := by
  unfold State.wakeCell
  dsimp only
  split
  · exact .refl s
  split
  · split
    · exact .refl s
    · exact .put ..
  split
  · exact .refl s
  · exact .put ..

/-! ## The request (R433) -/

theorem restJudge_field (h : fld v 16 16 ≠ 0x7E57 ∨ fld v 1 15 ≠ 0 ∨
    bit s.und.ctrl 6 = true ∧ (s.cell (fld s.und.ctrl 0 6)).mode ≠ 1 ∧ (s.cell (fld s.und.ctrl 0 6)).mode ≠ 3) : s.restJudge v = 2 := by
  refine if_pos ?_
  simp only [Bool.or_eq_true, Bool.and_eq_true, decide_eq_true_eq, or_assoc, and_assoc]
  exact h

section
variable (h1 : fld v 16 16 = 0x7E57) (h2 : fld v 1 15 = 0)
  (h3 : bit s.und.ctrl 6 = false ∨ (s.cell (fld s.und.ctrl 0 6)).mode = 1 ∨ (s.cell (fld s.und.ctrl 0 6)).mode = 3)
include h1 h2 h3

theorem restJudge_fits : s.restJudge v = if s.und.st ≠ .run then 1
    else if (s.chans.any fun p => p.2.st ≠ .idle && p.2.st ≠ .halted) || (s.net.ports.any fun p => p.2.st ≠ .disabled)
      || s.yz.en || bit s.net.ptp.ctrl 0 || s.lws.commit.isSome then 11 else 0 := by
  refine if_neg ?_
  simp only [Bool.or_eq_true, Bool.and_eq_true, decide_eq_true_eq]
  rintro ((h | h) | ⟨⟨h, h'⟩, h''⟩)
  · exact h h1
  · exact h h2
  · exact h3.elim (fun h3 => Bool.false_ne_true (h3.symm.trans h)) fun h3 => h3.elim h' h''

theorem restJudge_busy (hst : s.und.st ≠ .run) : s.restJudge v = 1 := by
  rw [restJudge_fits h1 h2 h3, if_pos hst]

theorem restJudge_run (hst : s.und.st = .run) : (s.restJudge v = 0 ↔ (∀ p ∈ s.chans, p.2.st = .idle ∨ p.2.st = .halted) ∧
    (∀ p ∈ s.net.ports, p.2.st = .disabled) ∧ s.yz.en = false ∧ bit s.net.ptp.ctrl 0 = false ∧ s.lws.commit = none) ∧
    (s.restJudge v ≠ 0 → s.restJudge v = 11) := by
  rw [restJudge_fits h1 h2 h3, if_neg (not_not.2 hst)]
  split
  · next h =>
    refine ⟨⟨fun h => absurd h (by decide), fun ⟨hc, hp, hy, hq, hk⟩ => ?_⟩, fun _ => rfl⟩
    simp only [Bool.or_eq_true, List.any_eq_true, Bool.and_eq_true, decide_eq_true_eq, hy, hq, hk, Option.isSome_none, Bool.false_eq_true, or_false] at h
    rcases h with ⟨p, hm, h, h'⟩ | ⟨p, hm, h⟩
    · exact absurd (hc p hm) (not_or.2 ⟨h, h'⟩)
    · exact absurd (hp p hm) h
  · next h =>
    refine ⟨⟨fun _ => ?_, fun _ => rfl⟩, fun h => absurd rfl h⟩
    simp only [Bool.or_eq_true, not_or, Bool.not_eq_true, List.any_eq_false, Bool.and_eq_true, decide_eq_true_eq, not_and, not_not] at h
    obtain ⟨⟨⟨⟨hc, hp⟩, hy⟩, hq⟩, hk⟩ := h
    refine ⟨fun p hm => ?_, hp, hy, hq, Option.not_isSome_iff_eq_none.1 (by rw [hk]; exact Bool.false_ne_true)⟩
    by_cases h : p.2.st = .idle
    · exact .inl h
    · exact .inr (hc p hm h)

end

theorem undRest_none (h : bit v 0 = false) : s.undRest v = s := if_pos (by rw [h]; rfl)

theorem undRest_refused (h : bit v 0 = true) {r : Nat} (hr : s.restJudge v = r) (h0 : r ≠ 0) :
    s.undRest v = { s with und := { s.und with result := BitVec.ofNat 16 r } } := by
  unfold State.undRest
  rw [if_neg (by rw [h]; exact Bool.false_ne_true), hr]
  match r, h0 with
  | n + 1, _ => rfl

/-- The cores that are stopped, one bit each. -/
def State.stoppedCores (s : State) : BitVec 4 := BitVec.ofNat 4 (((List.range 4).map fun k => if s.coreStopped k then 2 ^ k else 0).sum)

theorem stoppedCores_bit (s : State) {k : Nat} (hk : k < 4) : s.stoppedCores.getLsbD k = s.coreStopped k := by
  unfold State.stoppedCores
  simp only [List.range, List.range.loop, List.map_cons, List.map_nil, List.sum_cons, List.sum_nil]
  interval_cases k
  all_goals
    generalize s.coreStopped 0 = a
    generalize s.coreStopped 1 = b
    generalize s.coreStopped 2 = c
    generalize s.coreStopped 3 = d
    revert a b c d
    decide

theorem undRest_accepted (h : bit v 0 = true) (hr : s.restJudge v = 0) :
    s.undRest v = { s with und := { s.und with st := .entering, askedAt := s.now, stopped := s.stoppedCores } } := by
  unfold State.undRest
  rw [if_neg (by rw [h]; exact Bool.false_ne_true), hr]
  rfl

/-! ## WFI and the end of the entry (R434) -/

/-- The part once core `n` waits in WFI. -/
def State.wfi (s : State) (n : Nat) : State :=
  let x := s.setCore n { s.core n with st := .wfi }
  if s.und.st = .entering then x.modUnd fun u => { u with stopped := u.stopped ||| BitVec.ofNat 4 (1 <<< n) } else x

theorem exec_coreWfi_run {k : Fin 4} (hup : s.up = true) (hst : (s.core k).st = .run) (hh : (s.core k).halted = false) :
    exec (.coreWfi t k) s = .next ((s.arrive t).wfi k) := by
  refine (engineEvent_up (f := fun s : State => if (s.core k).st ≠ .run || (s.core k).halted then s else s.wfi k) hup).trans (congrArg _ (if_neg ?_))
  have hst' : ((s.arrive t).core k).st = .run := hst
  have hh' : ((s.arrive t).core k).halted = false := hh
  rw [hst', hh']
  decide

theorem wfi_core (s : State) (n : Nat) : (s.wfi n).core n = { s.core n with st := .wfi } := by
  have hput : (s.setCore n { s.core n with st := .wfi }).core n = { s.core n with st := .wfi } := by rw [State.setCore_core, if_pos rfl]
  unfold State.wfi
  dsimp only
  split
  · exact hput
  · exact hput

theorem wfi_und_entering (h : s.und.st = .entering) (n : Nat) :
    (s.wfi n).und = { s.und with stopped := s.und.stopped ||| BitVec.ofNat 4 (1 <<< n) } := by
  rw [State.wfi, if_pos h]
  rfl

theorem wfi_und_other (h : s.und.st ≠ .entering) (n : Nat) : (s.wfi n).und = s.und := by
  rw [State.wfi, if_neg h]
  rfl

theorem restTimeout_waits (h : s.und.st ≠ .entering ∨ s.und.stopped = 15 ∨ s.now < s.und.askedAt + 8000000) : s.restTimeout = s := by
  refine if_neg ?_
  simp only [Bool.and_eq_true, decide_eq_true_eq]
  rintro ⟨⟨h1, h2⟩, h3⟩
  rcases h with h | h | h
  · exact h h1
  · exact h2 h
  · exact Nat.not_le.2 h h3

theorem restTimeout_due (h1 : s.und.st = .entering) (h2 : s.und.stopped ≠ 15) (h3 : s.und.askedAt + 8000000 ≤ s.now) :
    s.restTimeout = { s with und := { s.und with st := .run, abandoned := true, result := 7, stopped := 0 } } := by
  refine if_pos ?_
  rw [decide_eq_true h1, decide_eq_true h2, Bool.true_and, Bool.true_and]
  exact decide_eq_true h3

/-! ## Rest is entered (R434) -/

theorem restEntry_waits (h : s.und.st ≠ .entering ∨ s.und.stopped ≠ 15) : s.restEntry = s := if_pos (by simpa using h)

/-- The cells as Rest is entered. -/
def State.cellsRest (s : State) : State := (s.axes.cells.map (·.1)).foldl State.restCell s

theorem cellsRest_settles (s : State) : Settles s s.cellsRest := .foldl restCell_settles _ _

theorem restEntry_enters (h1 : s.und.st = .entering) (h2 : s.und.stopped = 15) {x : State}
    (hx : x = (List.range 4).foldl State.wdPause ((s.encsSettle true).cellsRest.pinsRest (s.encsSettle true).now)) :
    s.restEntry = { x with und := { x.und with st := .rest, restAt := x.now, result := 0, wcmpArmed := bit x.und.ctrl 6 } } := by
  subst hx
  refine (if_neg ?_).trans rfl
  rw [h1, h2]
  decide

/-- The pins at rest as Rest is entered. -/
theorem pinsRest_off (s : State) (t : Time) (p : Nat) : ((s.pinsRest t).pin p).onSince = none := by
  have hstep (s : State) (k : Nat) : ((if (s.pin k).onSince.isSome then
      (s.setPin k { (s.pin k).rest t with hold := (s.ou k).drive == s.onLevel k }).modOu k fun o => { o with edgeT := t } else s).pin p) =
      if (s.pin k).onSince.isSome ∧ p = k then { (s.pin k).rest t with hold := (s.ou k).drive == s.onLevel k } else s.pin p := by
    by_cases hk : (s.pin k).onSince.isSome
    · rw [if_pos hk]
      refine (State.setPin_pin ..).trans ?_
      by_cases hp : p = k
      · rw [if_pos hp, if_pos ⟨hk, hp⟩]
      · rw [if_neg hp, if_neg fun h => hp h.2]
    · rw [if_neg hk, if_neg fun h => hk h.1]
  have hoff (x : Pin) : (x.rest t).onSince = none := by
    unfold Pin.rest
    split
    · rfl
    · next h => exact h
  by_cases hm : p ∈ s.outs.pins.map (·.1)
  · refine foldl_reaches (P := fun s => (s.pin p).onSince = none) (Q := fun _ => True) (i := p) (fun s k h => ?_) (fun s _ => ?_) (fun _ _ _ h => h) hm trivial
    · rw [hstep]
      split
      · exact hoff _
      · exact h
    · rw [hstep]
      split
      · exact hoff _
      · next h => exact Option.not_isSome_iff_eq_none.1 fun hs => h ⟨hs, rfl⟩
  · have hdef : s.pin p = {} := tget_of_not_mem _ hm
    refine List.foldlRecOn (motive := fun s : State => (s.pin p).onSince = none) _ _ (by rw [hdef]) fun s h k _ => ?_
    rw [hstep]
    split
    · exact hoff _
    · exact h

/-- Only the pins and their units change as the pins rest. -/
theorem pinsRest_frame (s : State) (t : Time) : (s.pinsRest t).now = s.now ∧ (s.pinsRest t).und = s.und ∧ (s.pinsRest t).axes = s.axes ∧
    (s.pinsRest t).mem = s.mem := by
  have h := kept_pinsRest (x1 := t) (.refl s)
  refine ⟨h.now, h.und, h.axes, foldl_keeps State.mem (fun s k => ?_) _ s⟩
  dsimp only
  split <;> rfl

theorem wdPauses_frame (l : List Nat) (s : State) : (l.foldl State.wdPause s).now = s.now ∧ (l.foldl State.wdPause s).und = s.und ∧
    (l.foldl State.wdPause s).axes = s.axes ∧ (l.foldl State.wdPause s).outs = s.outs ∧ (l.foldl State.wdPause s).mem = s.mem :=
  ⟨foldl_keeps State.now (f := State.wdPause) (fun _ _ => rfl) l s, foldl_keeps State.und (f := State.wdPause) (fun _ _ => rfl) l s, foldl_keeps State.axes (f := State.wdPause) (fun _ _ => rfl) l s,
    foldl_keeps State.outs (f := State.wdPause) (fun _ _ => rfl) l s, foldl_keeps State.mem (f := State.wdPause) (fun _ _ => rfl) l s⟩

/-- A running cell that is neither TIME nor SYNTHETIC. -/
def Cell.estimated (c : Cell) : Prop := c.en = true ∧ c.exactMode = false

theorem estimated_mem (h : (s.cell n).estimated) : n ∈ s.axes.cells.map (·.1) := by
  by_contra hm
  have hdef : s.cell n = {} := tget_of_not_mem _ hm
  have hen := h.1
  rw [hdef] at hen
  exact absurd hen (by decide)

theorem restCell_cell_other (s : State) {k : Nat} (h : n ≠ k) : (s.restCell k).cell n = s.cell n := by
  have hput (c : Cell) : ((s.putCell k c).cellChange k .other).cell n = s.cell n := (putCell_change_cell ..).trans (if_neg h)
  unfold State.restCell
  dsimp only
  split
  · rfl
  split
  · split
    · rfl
    · exact hput _
  split
  · exact hput _
  · rfl

theorem restCell_watched (hc : (s.cell n).estimated) (hw : bit s.und.ctrl 6 = true) (hn : fld s.und.ctrl 0 6 = n) :
    ((s.restCell n).cell n).estimated ∧ ((s.restCell n).cell n).est = .idle := by
  have heq : s.restCell n = (s.putCell n { (s.cell n).drop .idle s.now with frac := s.fracOf n s.now }).cellChange n .other := by
    unfold State.restCell
    dsimp only
    rw [if_neg (by rw [hc.1]; decide), if_neg (by rw [hc.2]; decide), if_pos (by rw [hw, hn]; simp)]
  rw [heq, putCell_change_cell, if_pos rfl]
  exact ⟨hc, rfl⟩

theorem cellsRest_watched (hc : (s.cell n).estimated) (hw : bit s.und.ctrl 6 = true) (hn : fld s.und.ctrl 0 6 = n) : (s.cellsRest.cell n).est = .idle := by
  have hP : (s.cellsRest.cell n).est = .idle ∧ (s.cellsRest.cell n).estimated ∧ s.cellsRest.und = s.und := by
    refine foldl_reaches (P := fun x => (x.cell n).est = .idle ∧ (x.cell n).estimated ∧ x.und = s.und)
      (Q := fun x => (x.cell n).estimated ∧ x.und = s.und) (i := n) (fun x k h => ?_) (fun x h => ?_) (fun x k hk h => ?_) (estimated_mem hc) ⟨hc, rfl⟩
    · obtain ⟨hi, he, hu⟩ := h
      have hu' := (restCell_settles x k).und.trans hu
      by_cases hk : n = k
      · subst hk
        obtain ⟨h1, h2⟩ := restCell_watched he (by rw [hu]; exact hw) (by rw [hu]; exact hn)
        exact ⟨h2, h1, hu'⟩
      · rw [restCell_cell_other x hk]
        exact ⟨hi, he, hu'⟩
    · obtain ⟨he, hu⟩ := h
      obtain ⟨h1, h2⟩ := restCell_watched he (by rw [hu]; exact hw) (by rw [hu]; exact hn)
      exact ⟨h2, h1, (restCell_settles x n).und.trans hu⟩
    · rw [restCell_cell_other x (Ne.symm hk)]
      exact ⟨h.1, (restCell_settles x k).und.trans h.2⟩
  exact hP.1

theorem restEntry_spec (h1 : s.und.st = .entering) (h2 : s.und.stopped = 15) {e : State} (he : e = s.encsSettle true) (hu : u = s.restEntry) :
    u.resting = true ∧ u.und = { e.und with st := .rest, restAt := s.now, result := 0, wcmpArmed := bit e.und.ctrl 6 } ∧
    (∀ p, (u.pin p).onSince = none) ∧ ((∀ c, (e.chan c).timed = none) → u.mem = e.mem) ∧
    (bit e.und.ctrl 6 = true → (e.cell (fld e.und.ctrl 0 6)).estimated → (u.cell (fld e.und.ctrl 0 6)).est = .idle) := by
  rw [restEntry_enters h1 h2 rfl, ← he] at hu
  have hnow : e.now = s.now := by rw [he]; exact (kept_encsSettle (.refl s)).now
  have hc := cellsRest_settles e
  have hwatch (hw : bit e.und.ctrl 6 = true) (hx : (e.cell (fld e.und.ctrl 0 6)).estimated) := cellsRest_watched hx hw rfl
  generalize e.cellsRest = a at hu hc hwatch
  obtain ⟨hpn, hpu, hpa, hpm⟩ := pinsRest_frame a e.now
  have hoff := pinsRest_off a e.now
  generalize a.pinsRest e.now = b at hu hpn hpu hpa hpm hoff
  obtain ⟨hwn, hwu, hwa, hwo, hwm⟩ := wdPauses_frame (List.range 4) b
  generalize (List.range 4).foldl State.wdPause b = x at hu hwn hwu hwa hwo hwm
  have hund : x.und = e.und := hwu.trans (hpu.trans hc.und)
  have hxn : x.now = s.now := hwn.trans (hpn.trans (hc.now.trans hnow))
  rw [hund, hxn] at hu
  subst hu
  refine ⟨rfl, rfl, fun p => ?_, fun ht => hwm.trans (hpm.trans (hc.calm ht).2.1), fun hw hx => ?_⟩
  · have hpin : x.pin p = b.pin p := by rw [State.pin, hwo, State.pin]
    exact (congrArg Pin.onSince hpin).trans (hoff p)
  · have hcell : x.cell (fld e.und.ctrl 0 6) = a.cell (fld e.und.ctrl 0 6) := by rw [State.cell, hwa, hpa, State.cell]
    exact (congrArg Cell.est hcell).trans (hwatch hw hx)

/-! ## Rest is left (R436) -/

theorem wake_run (h : s.und.st = .run) (p : Bool) : s.wake f p = s := by
  unfold State.wake
  rw [h]

theorem wake_entering (h : s.und.st = .entering) (p : Bool) :
    s.wake f p = { s with und := { s.und with st := .run, abandoned := true, result := 0, stopped := 0 } } := by
  unfold State.wake
  rw [h]
  rfl

theorem wake_rest (h : s.und.st = .rest) (p : Bool) : s.wake f p = { s with und := { s.und with
    st := .waking, wake := s.und.wake ||| f, wakePin := s.und.wakePin || p, wt := s.now / 320 * 320 } } := by
  unfold State.wake
  rw [h]
  rfl

theorem wake_waking (h : s.und.st = .waking) (p : Bool) :
    s.wake f p = { s with und := { s.und with wake := s.und.wake ||| f, wakePin := s.und.wakePin || p } } := by
  unfold State.wake
  rw [h]
  rfl

theorem wakeCell_cell_other (s : State) {k : Nat} (x : BitVec 16) (h : n ≠ k) : (s.wakeCell k x).cell n = s.cell n := by
  have hput (c : Cell) : ((s.putCell k c).cellChange k .other).cell n = s.cell n := (putCell_change_cell ..).trans (if_neg h)
  unfold State.wakeCell
  dsimp only
  split
  · rfl
  split
  · split
    · rfl
    · exact hput _
  split
  · rfl
  · exact hput _

theorem wakeCell_restarts (x : BitVec 16) (hc : (s.cell n).estimated) (hh : s.held n = false) :
    ((s.wakeCell n x).cell n).estimated ∧ ((s.wakeCell n x).cell n).est = .idle ∧ ((s.wakeCell n x).cell n).hist = [] := by
  have heq : s.wakeCell n x = (s.putCell n { (s.cell n).drop .idle s.now with frac := x }).cellChange n .other := by
    unfold State.wakeCell
    dsimp only
    rw [if_neg (by rw [hc.1]; decide), if_neg (by rw [hc.2]; decide), if_neg (by rw [hh]; decide)]
  rw [heq, putCell_change_cell, if_pos rfl]
  exact ⟨hc, rfl, rfl⟩

/-- The cells after wake, at the fractions they showed as Rest was entered. -/
def State.cellsWake (s : State) (x : Nat → BitVec 16) : State := (s.axes.cells.map (·.1)).foldl (fun s n => s.wakeCell n (x n)) s

theorem cellsWake_settles (s : State) (x : Nat → BitVec 16) : Settles s (s.cellsWake x) := .foldl (fun s n => wakeCell_settles s n (x n)) _ _

theorem Settles.held (h : Settles s u) (n : Nat) : u.held n = s.held n := by
  unfold State.held
  rw [h.start]

theorem cellsWake_restarts (x : Nat → BitVec 16) (hc : (s.cell n).estimated) (hh : s.held n = false) :
    ((s.cellsWake x).cell n).est = .idle ∧ ((s.cellsWake x).cell n).hist = [] := by
  have hP : (((s.cellsWake x).cell n).est = .idle ∧ ((s.cellsWake x).cell n).hist = []) ∧ ((s.cellsWake x).cell n).estimated ∧
      (s.cellsWake x).held n = false := by
    refine foldl_reaches (P := fun u => ((u.cell n).est = .idle ∧ (u.cell n).hist = []) ∧ (u.cell n).estimated ∧ u.held n = false)
      (Q := fun u => (u.cell n).estimated ∧ u.held n = false) (i := n) (fun u k h => ?_) (fun u h => ?_) (fun u k hk h => ?_) (estimated_mem hc) ⟨hc, hh⟩
    · obtain ⟨hi, he, hu⟩ := h
      have hu' := ((wakeCell_settles u k (x k)).held n).trans hu
      by_cases hk : n = k
      · subst hk
        obtain ⟨h1, h2⟩ := wakeCell_restarts (x n) he hu
        exact ⟨h2, h1, hu'⟩
      · rw [wakeCell_cell_other u (x k) hk]
        exact ⟨hi, he, hu'⟩
    · obtain ⟨he, hu⟩ := h
      obtain ⟨h1, h2⟩ := wakeCell_restarts (x n) he hu
      exact ⟨h2, h1, ((wakeCell_settles u n (x n)).held n).trans hu⟩
    · rw [wakeCell_cell_other u (x k) (Ne.symm hk)]
      exact ⟨h.1, ((wakeCell_settles u k (x k)).held n).trans h.2⟩
  exact hP.1

/-- A core goes on at wake, and its watchdog. -/
def State.coreWake (s : State) (k : Nat) : State :=
  let s := s.modCore k fun c => if c.st = .wfi then { c with st := .run } else c
  if (s.core k).halted || s.coreHeld k then s else s.wdResume k

theorem coreWake_only (s : State) (k : Nat) : ∃ x, s.coreWake k = { s with cores := x } := by
  unfold State.coreWake
  dsimp only
  split
  · exact ⟨_, rfl⟩
  · exact ⟨_, rfl⟩

theorem coreWake_st (s : State) (k j : Nat) :
    ((s.coreWake k).core j).st = if j = k ∧ (s.core k).st = .wfi then .run else (s.core j).st := by
  have hmod : ((s.modCore k fun c => if c.st = .wfi then { c with st := .run } else c).core j).st =
      if j = k ∧ (s.core k).st = .wfi then .run else (s.core j).st := by
    by_cases hj : j = k
    · subst hj
      rw [modCore_core]
      by_cases h : (s.core j).st = .wfi
      · rw [if_pos h, if_pos ⟨rfl, h⟩]
      · rw [if_neg h, if_neg fun h' => h h'.2]
    · rw [modCore_other s _ hj, if_neg fun h => hj h.1]
  unfold State.coreWake
  dsimp only
  generalize (s.modCore k fun c => if c.st = .wfi then { c with st := .run } else c) = x at hmod
  split
  · exact hmod
  · rw [← hmod]
    by_cases hj : j = k
    · obtain ⟨a, l, h⟩ := wdResume_core x k
      rw [hj, h]
    · exact congrArg Core.st (modCore_other x _ hj)

/-- The cores go on. -/
def State.coresWake (s : State) : State := (List.range 4).foldl State.coreWake s

theorem coresWake_only (s : State) : ∃ x, s.coresWake = { s with cores := x } :=
  List.foldlRecOn (motive := fun u : State => ∃ x, u = { s with cores := x }) _ _ ⟨s.cores, rfl⟩ fun u h k _ => by
    obtain ⟨x, rfl⟩ := h
    obtain ⟨y, hy⟩ := coreWake_only { s with cores := x } k
    exact ⟨y, hy⟩

theorem coresWake_st (s : State) {k : Nat} (hk : k < 4) : (s.coresWake.core k).st = if (s.core k).st = .wfi then .run else (s.core k).st := by
  have h : ∀ n, (((List.range n).foldl State.coreWake s).core k).st = if k < n ∧ (s.core k).st = .wfi then .run else (s.core k).st := by
    intro n
    induction n with
    | zero => exact (if_neg fun h => Nat.not_lt_zero k h.1).symm
    | succ n ih =>
      rw [List.range_succ, List.foldl_append, List.foldl_cons, List.foldl_nil, coreWake_st]
      by_cases hn : k = n
      · subst hn
        rw [ih, if_neg fun h : k < k ∧ _ => Nat.lt_irrefl k h.1]
        by_cases hw : (s.core k).st = .wfi
        · rw [if_pos ⟨rfl, hw⟩, if_pos ⟨Nat.lt_succ_self k, hw⟩]
        · rw [if_neg fun h => hw h.2, if_neg fun h => hw h.2]
      · rw [if_neg fun h => hn h.1, ih]
        exact if_congr (and_congr (by omega) Iff.rfl) rfl rfl
  exact (h 4).trans (by simp only [hk, true_and])

/-- A line stop received in Rest is applied. -/
def State.stopApply (s : State) (x : Option (Nat × Byte × Byte)) : State :=
  match x with
  | some (src, reason, seq) =>
    (s.modYz fun y => { y with seenStop := (src, seq.toNat) :: y.seenStop,
                               stopRx := wAt 0 src ||| wAt 16 reason.toNat ||| wAt 24 seq.toNat }).report 130
  | none => s

/-- R435: the Rest timer has run out. -/
def State.timerDue (s : State) : Bool :=
  s.resting && fld s.und.timer 0 24 ≠ 0 && decide (s.und.restAt + ms (fld s.und.timer 0 24) ≤ s.now)

theorem timerDue_iff : s.timerDue = true ↔ s.resting = true ∧ fld s.und.timer 0 24 ≠ 0 ∧ s.und.restAt + ms (fld s.und.timer 0 24) ≤ s.now := by
  simp only [State.timerDue, Bool.and_eq_true, decide_eq_true_eq, and_assoc]

/-- R435: 25 ms have passed without a crossing. -/
def MainsIn.silentAt (x : MainsIn) (t : Time) : Bool := match x.lastX with | some l => decide (l + ms 25 ≤ t) | none => true

theorem MainsIn.silentAt_iff {x : MainsIn} : x.silentAt t = true ↔ ∀ l, x.lastX = some l → l + ms 25 ≤ t := by
  unfold MainsIn.silentAt
  rcases x.lastX with _ | l
  · simp
  · simp

theorem wakeComplete_waits (h : s.und.st ≠ .waking) : s.wakeComplete = s := if_pos h

/-- The part as the other clocks run again. -/
def State.running_ (e : State) : State := { e with und := { e.und with st := .run, stopped := 0, wcmpArmed := false, stopSeen := none } }

theorem wakeComplete_wakes (h : s.und.st = .waking) {e : State} (he : e = s.encsSettle false) :
    s.wakeComplete = (((e.running_.cellsWake fun n => e.fracOf n e.und.restAt).coresWake).cicEdge 677).stopApply s.und.stopSeen := by
  subst he
  refine (if_neg (not_not.2 h)).trans ?_
  unfold State.stopApply
  cases s.und.stopSeen <;> rfl

theorem still_core_st (h : u.still = s.still) (k : Nat) : (u.core k).st = (s.core k).st := by
  have hk := congrFun (congrArg Still.cores h) k
  exact (congrArg Core.st hk : (_ : CoreState) = _)

theorem stopApply_frame (s : State) (x : Option (Nat × Byte × Byte)) : (s.stopApply x).und = s.und ∧ (s.stopApply x).irq = s.irq ∧
    (s.stopApply x).cores = s.cores ∧ (s.stopApply x).outs = s.outs ∧ (s.stopApply x).axes = s.axes ∧ (s.stopApply x).mem = s.mem := by
  unfold State.stopApply
  split <;> exact ⟨rfl, rfl, rfl, rfl, rfl, rfl⟩

theorem wakeComplete_spec (h : s.und.st = .waking) {e : State} (he : e = s.encsSettle false) (hu : u = s.wakeComplete) :
    u.und = { e.und with st := .run, stopped := 0, wcmpArmed := false, stopSeen := none } ∧ (u.cic 677).pend = true ∧
    (∀ k < 4, (u.core k).st = if (e.core k).st = .wfi then .run else (e.core k).st) ∧ u.outs.pins = e.outs.pins ∧
    (∀ n, (e.cell n).estimated → e.held n = false → (u.cell n).est = .idle ∧ (u.cell n).hist = []) ∧
    ((∀ c, (e.chan c).timed = none) → u.mem = e.mem ∧ (s.und.stopSeen = none → u.fc = e.fc ∧ u.yz = e.yz) ∧
      ∀ src r q, s.und.stopSeen = some (src, r, q) → u.yz.stopRx = wAt 0 src ||| wAt 16 r.toNat ||| wAt 24 q.toNat ∧
        u.fc.raised = e.fc.raised ||| BitVec.ofNat 256 (1 <<< 130)) := by
  rw [wakeComplete_wakes h he] at hu
  generalize s.und.stopSeen = stop at hu ⊢
  have hc := cellsWake_settles e.running_ fun n => e.fracOf n e.und.restAt
  have hcell (n) (hn : (e.cell n).estimated) (hh : e.held n = false) :=
    cellsWake_restarts (s := e.running_) (fun n => e.fracOf n e.und.restAt) (n := n) hn hh
  generalize (e.running_.cellsWake fun n => e.fracOf n e.und.restAt) = a at hu hc hcell
  obtain ⟨x, hx⟩ := coresWake_only a
  have hst (k) (hk : k < 4) := coresWake_st a hk
  generalize hb : a.coresWake = b at hu hx hst
  subst hx
  obtain ⟨hund, hirq, hcores, houts, haxes, hmem⟩ := stopApply_frame (State.cicEdge { a with cores := x } 677) stop
  rw [← hu] at hund hirq hcores houts haxes hmem
  refine ⟨hund.trans hc.und, ?_, fun k hk => ?_, ?_, fun n hn hh => ?_, fun ht => ?_⟩
  · rw [State.cic, hirq]
    exact congrArg CicSrc.pend ((State.setCic_cic ..).trans (if_pos rfl))
  · have hsame : u.core k = ({ a with cores := x } : State).core k := by rw [State.core, hcores]; rfl
    rw [hsame, hst k hk, still_core_st hc.still k]
    rfl
  · rw [houts]
    exact congrArg Still.pins hc.still
  · rw [State.cell, haxes]
    exact hcell n hn hh
  · obtain ⟨-, h1, h2, h3⟩ := hc.calm ht
    refine ⟨hmem.trans h1, ?_, ?_⟩
    · rintro rfl
      rw [hu]
      exact ⟨h2, h3⟩
    · rintro src r q rfl
      rw [hu]
      exact ⟨rfl, congrArg (fun f : Fc => f.raised ||| BitVec.ofNat 256 (1 <<< 130)) h2⟩

end

/-- Settles O42: the request by its judgement, the entry and the wake by what they do at each core, cell and pin. -/
theorem restIsEnteredAndLeft : Obligations.RestIsEnteredAndLeft := by
  unfold Obligations.RestIsEnteredAndLeft
  refine ⟨?_, ?_, ?_, ?_, ?_, ?_, ?_, ?_, ?_⟩
  · rintro s v n rfl
    exact ⟨restJudge_field, fun h1 h2 h3 => ⟨restJudge_busy h1 h2 h3, restJudge_run h1 h2 h3⟩⟩
  · intro t m v s hs
    have hexec : exec (.undRest t m v) s = .next ((s.arrive t).undRest v) := regWrite_serves (f := fun s => s.undRest v) hs
    rw [hexec]
    refine ⟨fun h => congrArg _ (undRest_none h), fun h hr => congrArg _ (undRest_refused (s := s.arrive t) h rfl hr), fun h hr => ?_⟩
    exact ⟨_, congrArg _ (undRest_accepted (s := s.arrive t) h hr), rfl, fun k hk => stoppedCores_bit (s.arrive t) hk, rfl⟩
  · intro t k s hup hst hh
    exact ⟨_, exec_coreWfi_run hup hst hh, wfi_core (s.arrive t) k, fun h => wfi_und_entering (s := s.arrive t) h k,
      fun h => wfi_und_other (s := s.arrive t) h k⟩
  · intro t s hup
    have hentry : exec (.restEntry t) s = .next (s.arrive t).restEntry := engineEvent_up (f := State.restEntry) hup
    have htime : exec (.restEntryTimeout t) s = .next (s.arrive t).restTimeout := engineEvent_up (f := State.restTimeout) hup
    rw [hentry, htime]
    refine ⟨fun h => congrArg _ (restEntry_waits (s := s.arrive t) h), fun e h1 h2 he => ?_,
      fun h1 h2 h3 => congrArg _ (restTimeout_due (s := s.arrive t) h1 h2 h3), fun h => congrArg _ (restTimeout_waits (s := s.arrive t) h)⟩
    obtain ⟨g1, g2, g3, g4, g5⟩ := restEntry_spec (s := s.arrive t) h1 h2 he rfl
    exact ⟨_, rfl, g1, g2, g3, g4, fun hw hen hex => g5 hw ⟨hen, hex⟩⟩
  · intro t s hd
    exact ⟨liveEvent_live (f := fun s => s.wake 0 true) hd, fun c => liveEvent_live (f := fun s => s.watchEvent c.toNat) hd⟩
  · exact fun s f p => ⟨fun h => wake_run h p, fun h => wake_entering h p, fun h => wake_rest h p, fun h => wake_waking h p⟩
  · rintro t s n hd rfl
    have hexec : exec (.undTimerExpiry t) s = .next (if (s.arrive t).timerDue then (s.arrive t).watchEvent 0x70 else s.arrive t) :=
      liveEvent_live (f := fun a : State => if a.timerDue then a.watchEvent 0x70 else a) hd
    have hwake : exec (.wakeEvent t (some 0x70)) s = .next ((s.arrive t).watchEvent 0x70) := liveEvent_live (f := fun s => s.watchEvent 0x70) hd
    rw [hexec, hwake]
    refine ⟨fun h1 h2 h3 => congrArg _ (if_pos ((timerDue_iff (s := s.arrive t)).2 ⟨h1, h2, h3⟩)), fun h => congrArg _ (if_neg fun hd => ?_)⟩
    obtain ⟨h1, h2, h3⟩ := (timerDue_iff (s := s.arrive t)).1 hd
    rcases h with h | h | h
    · exact Bool.false_ne_true (h.symm.trans h1)
    · exact h2 h
    · exact Nat.not_le.2 h h3
  · intro t i s hd
    have hexec : exec (.mainsCrossingTimeout t i) s = .next (if bit (s.mainsIn i).ctrl 0 && (s.mainsIn i).silentAt (max s.now t) then
        (s.arrive t).watchEvent (0x10 + i) else s.arrive t) := liveEvent_live (f := fun a : State =>
      if bit (a.mainsIn i).ctrl 0 && (a.mainsIn i).silentAt a.now then a.watchEvent (0x10 + i) else a) hd
    have hwake : exec (.wakeEvent t (some (BitVec.ofNat 8 (0x10 + i)))) s = .next ((s.arrive t).watchEvent (0x10 + i)) := by
      have hcode : (BitVec.ofNat 8 (0x10 + i)).toNat = 0x10 + i := by
        rw [BitVec.toNat_ofNat, Nat.mod_eq_of_lt (by omega)]
      exact (liveEvent_live (f := fun a : State => a.watchEvent (BitVec.ofNat 8 (0x10 + i)).toNat) hd).trans (by rw [hcode])
    rw [hexec, hwake]
    refine ⟨fun h1 h2 => congrArg _ (if_pos ?_), fun l h => congrArg _ (if_neg ?_)⟩
    · rw [h1, MainsIn.silentAt_iff.2 h2]
      rfl
    · rcases h with h | ⟨hl, ht⟩
      · rw [h]
        exact Bool.false_ne_true
      · rw [Bool.and_eq_true, MainsIn.silentAt_iff]
        exact fun h => Nat.not_le.2 ht (h.2 l hl)
  · intro t s hd
    have hexec : exec (.wakeComplete t) s = .next (s.arrive t).wakeComplete := liveEvent_live (f := State.wakeComplete) hd
    rw [hexec]
    refine ⟨fun h => congrArg _ (wakeComplete_waits (s := s.arrive t) h), fun e h he => ⟨_, rfl, ?_⟩⟩
    obtain ⟨h1, h2, h3, h4, h5, h6⟩ := wakeComplete_spec (s := s.arrive t) h he rfl
    exact ⟨h1, h2, h3, h4, fun n hen hex hh => h5 n ⟨hen, hex⟩ hh, h6⟩

end Sys2Proof.Machine
end


section

/-! PROOFS. Boot images, BOOT_HOST_GO and the boot key fuses (O49). -/

namespace Sys2Proof.Machine

section
variable {s u : State} {b : List Byte} {m : Ident} {v : Word} {t : Time}

/-! ## The judgement of an image (R508) -/

theorem imageJudge_head (h : headOk b = false) : s.imageJudge b = 2 := if_pos (by rw [h]; rfl)

section
variable (hh : headOk b = true)
include hh

theorem imageJudge_key (h1 : s.boot.hash ≠ 0) (h2 : Config.sha256 (slice b 32 64) ≠ s.boot.hash) : s.imageJudge b = 3 := by
  refine (if_neg (by rw [hh]; decide)).trans (if_pos ?_)
  rw [decide_eq_true h1, decide_eq_true h2]
  rfl

theorem imageJudge_keyed (h : s.boot.hash = 0 ∨ Config.sha256 (slice b 32 64) = s.boot.hash) : s.imageJudge b =
    if !Config.ecdsaOk (slice b 32 64) (Config.sha256 (slice b 0 96 ++ slice b 256 (imgLength b))) (slice b 96 64) then 4
    else if s.levelInForce < num b 7 1 then 5 else 0 := by
  refine (if_neg (by rw [hh]; decide)).trans (if_neg ?_)
  simp only [Bool.and_eq_true, decide_eq_true_eq]
  exact fun hn => h.elim hn.1 hn.2

end

theorem headOk_of_accepted (h : s.imageJudge b = 0) : headOk b = true := by
  rcases Bool.eq_false_or_eq_true (headOk b) with hh | hh
  · exact hh
  · exact absurd ((imageJudge_head (s := s) hh).symm.trans h) (by decide)

/-! ## The payload and the end of boot (R509 to R511) -/

theorem modCore_st (x : State) (k j : Nat) (f : Core → Core) (hf : ∀ c, (f c).st = c.st) : ((x.modCore k f).core j).st = (x.core j).st := by
  by_cases hj : j = k
  · rw [hj, modCore_core, hf]
  · rw [modCore_other x f hj]

theorem tcmWrite_st (s : State) (k o : Nat) (l : List Byte) (j : Nat) : ((s.tcmWrite k o l).core j).st = (s.core j).st := by
  unfold State.tcmWrite
  rw [modCore_st]
  · rfl
  · exact fun _ => rfl

theorem bootPut_core (x : State) (y : Boot) (k : Nat) : ({ x with boot := y } : State).core k = x.core k := rfl

theorem loadPayload_core (s : State) (b : List Byte) (k : Nat) : ((s.loadPayload b).core k).st = (s.core k).st := by
  unfold State.loadPayload
  dsimp only
  split
  · rw [tcmWrite_st]
  · exact still_core_st (still_sramWriteBy ..) k
  · rfl

theorem loadPayload_frame (s : State) (b : List Byte) : (s.loadPayload b).boot = s.boot ∧ (s.loadPayload b).rst = s.rst := by
  unfold State.loadPayload
  dsimp only
  split <;> exact ⟨rfl, rfl⟩

theorem loadPayload_sram {o : Nat} (h : loadAt b = some (false, o)) :
    (s.loadPayload b).mem.sram = putBytes s.mem.sram o (slice b 256 (imgLength b)) ∧ (s.loadPayload b).mem.tcm = s.mem.tcm := by
  unfold State.loadPayload
  rw [h]
  exact ⟨rfl, rfl⟩

theorem loadPayload_tcm {o : Nat} (h : loadAt b = some (true, o)) :
    (s.loadPayload b).mem.tcm = putBytes s.mem.tcm o (slice b 256 (imgLength b)) ∧ (s.loadPayload b).mem.sram = s.mem.sram := by
  unfold State.loadPayload
  rw [h]
  have hkey : tcmKey 0 o = o := by simp [tcmKey]
  exact ⟨congrArg (fun a => putBytes s.mem.tcm a (slice b 256 (imgLength b))) hkey, rfl⟩

/-- The part once an accepted image is in place, core 0 not yet released. -/
def State.booted (s : State) (b : List Byte) (n : Nat) : State :=
  { s.modCore 0 (fun c => { c with resetVec := BitVec.ofNat 32 (num b 16 4) &&& ~~~1 }) with
    boot := { s.boot with st := 4, source := BitVec.ofNat 2 n, version := BitVec.ofNat 32 (num b 20 4) } }

theorem booted_core (s : State) (b : List Byte) (n : Nat) :
    (s.booted b n).core 0 = { s.core 0 with resetVec := BitVec.ofNat 32 (num b 16 4) &&& ~~~1 } :=
  modCore_core s 0 fun c => { c with resetVec := BitVec.ofNat 32 (num b 16 4) &&& ~~~1 }

theorem booted_frame (s : State) (b : List Byte) (n : Nat) : (s.booted b n).mem = s.mem ∧ (s.booted b n).boot.st = 4 ∧
    (s.booted b n).boot.source = BitVec.ofNat 2 n := ⟨rfl, rfl, rfl⟩

theorem bootDone_eq (s : State) (b : List Byte) (n : Nat) : s.bootDone b n =
    if !s.rst.busy && decide ((s.core 0).st = .inReset) then (s.booted b n).coreGo 0 else s.booted b n := by
  have hst : ((s.booted b n).core 0).st = (s.core 0).st := by rw [booted_core]
  have heq : s.bootDone b n = if s.rst.busy then s.booted b n else (s.booted b n).releaseCore0 := rfl
  rw [heq]
  cases s.rst.busy with
  | true => rfl
  | false =>
    rw [if_neg Bool.false_ne_true, State.releaseCore0, hst]
    by_cases h : (s.core 0).st = .inReset
    · rw [if_pos h, if_pos (by simp [h])]
    · rw [if_neg h, if_neg (by simp [h])]

theorem coreGo_frame (s : State) (k : Nat) : (s.coreGo k).mem = s.mem ∧ (s.coreGo k).boot = s.boot := ⟨rfl, rfl⟩

theorem bootDone_spec (s : State) (b : List Byte) (n : Nat) : (s.bootDone b n).mem = s.mem ∧ (s.bootDone b n).boot.st = 4 ∧
    (s.bootDone b n).boot.source = BitVec.ofNat 2 n ∧ ((s.bootDone b n).core 0).resetVec = BitVec.ofNat 32 (num b 16 4) &&& ~~~1 ∧
    (s.rst.busy = false → (s.core 0).st = .inReset →
      ((s.bootDone b n).core 0).st = .run ∧ ((s.bootDone b n).core 0).pc = BitVec.ofNat 32 (num b 16 4) &&& ~~~1) := by
  have hcore := booted_core s b n
  obtain ⟨hm, hst, hsrc⟩ := booted_frame s b n
  rw [bootDone_eq]
  generalize s.booted b n = x at hcore hm hst hsrc
  split
  · obtain ⟨a, l, hgo⟩ := coreGo_core x 0
    obtain ⟨gm, gb⟩ := coreGo_frame x 0
    rw [hcore] at hgo
    rw [hgo, gm, gb]
    exact ⟨hm, hst, hsrc, rfl, fun _ _ => ⟨rfl, rfl⟩⟩
  · next h =>
    rw [hcore]
    refine ⟨hm, hst, hsrc, rfl, fun h1 h2 => absurd ?_ h⟩
    rw [h1, decide_eq_true h2]
    rfl

/-- The image of a flash slot, its head good: the payload is in place. -/
def State.flashRead (s : State) (b : List Byte) (slow : Bool) : State :=
  if headOk b then { s.loadPayload b with boot := { s.boot with slow := slow && imgBus b ≠ 0 } } else s

theorem bootFlash_eq (s : State) (n : Nat) (b : List Byte) (slow : Bool) : s.bootFlash n b slow =
    if s.imageJudge b = 0 then (s.flashRead b slow).bootDone b (n + 1) else (s.flashRead b slow).bootReject (s.imageJudge b) (if n = 0 then 1 else 5) := rfl

theorem flashRead_core (s : State) (b : List Byte) (slow : Bool) (k : Nat) : ((s.flashRead b slow).core k).st = (s.core k).st := by
  unfold State.flashRead
  split
  · exact (congrArg Core.st (bootPut_core ..)).trans (loadPayload_core s b k)
  · rfl

theorem flashRead_rst (s : State) (b : List Byte) (slow : Bool) : (s.flashRead b slow).rst = s.rst := by
  unfold State.flashRead
  split
  · exact (loadPayload_frame s b).2
  · rfl

theorem flashRead_mem {slow : Bool} (h : headOk b = true) : (s.flashRead b slow).mem = (s.loadPayload b).mem := by
  unfold State.flashRead
  rw [if_pos h]

theorem bootImage_flash {src : BootSource} {n : Nat} (slow : Bool)
    (h : n = 0 ∧ src = .flash0 ∧ s.boot.cause = 0 ∨ n = 1 ∧ src = .flash1 ∧ s.boot.cause ≠ 0) (hst : s.boot.st = 0 ∨ s.boot.st = 1) :
    s.bootImage src b slow = s.bootFlash n b slow := by
  have hflash : (decide (s.boot.st = 0) || decide (s.boot.st = 1)) = true := by simpa using hst
  rcases h with ⟨rfl, rfl, hc⟩ | ⟨rfl, rfl, hc⟩
  · refine if_pos ?_
    rw [hflash, decide_eq_true hc]
    rfl
  · refine if_pos ?_
    rw [hflash, decide_eq_true hc]
    rfl

theorem bootImage_none (slow : Bool) (hst : s.boot.st = 0 ∨ s.boot.st = 1) (hc : s.boot.cause = 0) :
    s.bootImage .noFlash b slow = { s with boot := { s.boot with st := 5, cause := 1 } } := by
  have hflash : (decide (s.boot.st = 0) || decide (s.boot.st = 1)) = true := by simpa using hst
  refine (if_pos ?_).trans rfl
  rw [hflash, decide_eq_true hc]
  rfl

theorem allInReset_iff (s : State) : ((List.range 4).all fun k => (s.core k).st = .inReset) = true ↔ ∀ k < 4, (s.core k).st = .inReset := by
  simp only [List.all_eq_true, List.mem_range, decide_eq_true_eq]

/-! ## BOOT_HOST_GO (R512) -/

theorem bootGo_other (h : m ≠ 0x01 ∨ bit v 0 = false ∨ fld v 16 16 ≠ 0xB007) : s.bootGo m v = s := by
  refine if_pos ?_
  simpa only [Bool.or_eq_true, decide_eq_true_eq, Bool.not_eq_true', or_assoc] using h

/-- The host puts the four cores into reset. -/
def State.hostStops (s : State) : State := (List.range 4).foldl (fun s k => s.coreCtrl 0x01 k 1) s

theorem bootGo_key (h1 : bit v 0 = true) (h2 : fld v 16 16 = 0xB007) : s.bootGo 0x01 v =
    if s.boot.st ≠ 4 && s.boot.st ≠ 5 then { s with boot := { s.boot with rej := true } }
    else { s.hostStops with boot := { s.hostStops.boot with st := 2, hash := s.hostStops.boot.keyhash } } := by
  have hkey : ¬((decide ((0x01 : Ident) ≠ 0x01) || !bit v 0 || decide (fld v 16 16 ≠ 0xB007)) = true) := by
    rw [h1, h2]
    decide
  unfold State.bootGo State.hostStops
  exact if_neg hkey

theorem coreCtrl_host_st (s : State) {k : Nat} (hk : k < 4) (j : Nat) : ((s.coreCtrl 0x01 k 1).core j).st =
    if j = k ∧ (s.core k).st ≠ .inReset then .resetting else (s.core j).st := by
  have hid : (0x01 : Ident) ≠ coreId k := by interval_cases k <;> decide
  have hcases : ((s.core k).st = .run ∨ (s.core k).st = .wfi) ∨ (s.core k).st = .resetting ∨ (s.core k).st = .inReset := by
    cases (s.core k).st <;> simp
  rcases hcases with h | h
  · rw [coreCtrl_resets (by decide) hid (.inl rfl) h, State.setCore_core]
    by_cases hj : j = k
    · rw [if_pos hj, if_pos ⟨hj, fun hr => by rcases h with h | h <;> exact absurd (h.symm.trans hr) (by decide)⟩]
    · rw [if_neg hj, if_neg fun h => hj h.1]
  · rw [coreCtrl_refuses (by decide) (.inr (.inr h))]
    by_cases hj : j = k ∧ (s.core k).st ≠ .inReset
    · rw [if_pos hj, hj.1]
      exact h.resolve_right hj.2
    · rw [if_neg hj]

theorem hostStops_spec (s : State) : s.hostStops.boot = s.boot ∧ ∀ k < 4, (s.hostStops.core k).st = if (s.core k).st = .inReset then .inReset else .resetting := by
  have h : ∀ n ≤ 4, ∀ k, (((List.range n).foldl (fun s k => s.coreCtrl 0x01 k 1) s).core k).st =
      if k < n ∧ (s.core k).st ≠ .inReset then .resetting else (s.core k).st := by
    intro n hn k
    induction n with
    | zero => exact (if_neg fun h => Nat.not_lt_zero k h.1).symm
    | succ n ih =>
      rw [List.range_succ, List.foldl_append, List.foldl_cons, List.foldl_nil, coreCtrl_host_st _ (by omega)]
      have ih := ih (by omega)
      by_cases hk : k = n
      · subst hk
        rw [ih, if_neg fun h : k < k ∧ _ => Nat.lt_irrefl k h.1]
        exact if_congr (by simp) rfl rfl
      · rw [if_neg fun h => hk h.1, ih]
        exact if_congr (and_congr (by omega) Iff.rfl) rfl rfl
  refine ⟨foldl_keeps State.boot (fun s k => (kept_coreCtrl (.refl s)).boot) _ s, fun k hk => (h 4 (Nat.le_refl 4) k).trans ?_⟩
  by_cases hst : (s.core k).st = .inReset
  · rw [if_neg fun h => h.2 hst, if_pos hst, hst]
  · rw [if_pos ⟨hk, hst⟩, if_neg hst]

/-! ## The fuses (R513) -/

theorem fuseCmd_eq (s : State) (m : Ident) (v : Word) {r : Nat} (hr : s.fuseJudge m v = r) : s.fuseCmd m v = { s with boot :=
    if r = 0 then { s.boot with fuseResult := BitVec.ofNat 16 r, fuseBusy := true, fusing := s.boot.keystage }
    else { s.boot with fuseResult := BitVec.ofNat 16 r } } := by
  subst hr
  rfl

theorem fuseJudge_refused (h : bit v 0 = false ∨ fld v 16 16 ≠ 0xF05E ∨ m ≠ 0x01 ∧ m ≠ 0x20 ∨ s.lws.svc = false ∨ s.boot.blank = false ∨
    s.boot.fuseBusy = true) : s.fuseJudge m v = 4 := by
  refine if_pos ?_
  simpa only [Bool.or_eq_true, Bool.and_eq_true, decide_eq_true_eq, Bool.not_eq_true', or_assoc] using h

theorem fuseJudge_judged (h1 : bit v 0 = true) (h2 : fld v 16 16 = 0xF05E) (h3 : m = 0x01 ∨ m = 0x20) (h4 : s.lws.svc = true)
    (h5 : s.boot.blank = true) (h6 : s.boot.fuseBusy = false) : s.fuseJudge m v = if s.boot.keystage = 0 then 2 else 0 := by
  refine if_neg ?_
  rw [h1, h2, h4, h5, h6]
  rcases h3 with rfl | rfl <;> decide

theorem payFuse_spec (s : State) : s.payFuse.boot = s.boot ∧
    (s.svc.owesFuse = true → s.payFuse.out = s.out ++ [.svc s.boot.fuseResult [s.boot.fuseStat]] ∧ s.payFuse.svc.owesFuse = false) ∧
    (s.svc.owesFuse = false → s.payFuse.out = s.out) := by
  unfold State.payFuse
  cases h : s.svc.owesFuse with
  | false => exact ⟨rfl, fun h => absurd h Bool.false_ne_true, fun _ => rfl⟩
  | true => exact ⟨rfl, fun _ => ⟨rfl, rfl⟩, fun h => absurd h.symm Bool.false_ne_true⟩

/-- The registers and the fuses once programming has ended. -/
def Boot.fused (b : Boot) (ok : Bool) (free : Nat) : Boot :=
  { b with fuseBusy := false, blank := false, fuseResult := BitVec.ofNat 16 (if ok then 0 else 6), keyhash := if ok then b.fusing else freeFuses free }

theorem fuseEnd_eq (h : s.boot.fuseBusy = true) (ok : Bool) :
    s.fuseEnd ok = State.payFuse { s with boot := s.boot.fused ok s.free, free := if ok then s.free else s.free + 8 } :=
  if_neg (by rw [h]; decide)

end

/-- Settles O49: an image by its judgement and what is loaded, the fuses by what they hold. -/
theorem bootTakesAJudgedImage : Obligations.BootTakesAJudgedImage := by
  unfold Obligations.BootTakesAJudgedImage
  refine ⟨?_, ?_, ?_, ?_, ?_, ?_⟩
  · intro s b
    refine ⟨imageJudge_head, fun hh => ⟨imageJudge_key hh, fun hk ok hok => ?_⟩⟩
    rw [imageJudge_keyed hh hk, ← hok]
    refine ⟨?_, ?_⟩
    · rintro rfl
      rfl
    · rintro rfl
      rfl
  · intro t b slow s n src hd hr hsrc hst
    have hexec : exec (.bootImageCheck t src b slow) s = .next ((s.arrive t).bootFlash n b slow) :=
      (liveEvent_live (f := fun s => if s.resting then s else s.bootImage src b slow) hd).trans (congrArg _ ((if_neg (Bool.eq_false_iff.1 hr)).trans
        (bootImage_flash (s := s.arrive t) slow hsrc hst)))
    have hjudge : (s.arrive t).imageJudge b = s.imageJudge b := rfl
    rw [bootFlash_eq, hjudge] at hexec
    refine ⟨fun h => ⟨_, hexec.trans (congrArg _ (if_neg h)), ?_, rfl, flashRead_core (s.arrive t) b slow, fun hh => ?_⟩,
      fun h => ⟨_, hexec.trans (congrArg _ (if_pos h)), ?_⟩⟩
    · rcases hsrc with ⟨rfl, -⟩ | ⟨rfl, -⟩ <;> rfl
    · have hread : (s.arrive t).flashRead b slow = s.arrive t := if_neg (by rw [hh]; exact Bool.false_ne_true)
      rw [hread]
      rfl
    · obtain ⟨hm, h1, h2, h3, h4⟩ := bootDone_spec ((s.arrive t).flashRead b slow) b (n + 1)
      have hmem := flashRead_mem (s := s.arrive t) (slow := slow) (headOk_of_accepted h)
      have hbusy := flashRead_rst (s.arrive t) b slow
      have hcore := flashRead_core (s.arrive t) b slow 0
      refine ⟨h1, h2, h3, fun hb hc => h4 (by rw [hbusy]; exact hb) (hcore.trans hc), fun o ho => ?_, fun o ho => ?_⟩
      · rw [hm, hmem]
        exact loadPayload_sram ho
      · rw [hm, hmem]
        exact loadPayload_tcm ho
  · intro t b slow s hd hr
    have hexec (src) : exec (.bootImageCheck t src b slow) s = .next ((s.arrive t).bootImage src b slow) :=
      (liveEvent_live (f := fun s => if s.resting then s else s.bootImage src b slow) hd).trans (congrArg _ (if_neg (Bool.eq_false_iff.1 hr)))
    rw [hexec, hexec]
    refine ⟨fun h1 h2 => congrArg _ (bootImage_none (s := s.arrive t) slow h1 h2), fun h => congrArg _ (if_neg ?_), fun h1 h2 => congrArg _ (if_pos ?_)⟩
    · rw [Bool.and_eq_true, decide_eq_true_eq, allInReset_iff]
      rintro ⟨h1, h2⟩
      rcases h with h | ⟨k, hk, h⟩
      · exact h h1
      · exact h (h2 k hk)
    · rw [Bool.and_eq_true, decide_eq_true_eq, allInReset_iff]
      exact ⟨h1, h2⟩
  · intro t m v s hs
    have hexec : exec (.bootHostGo t m v) s = .next ((s.arrive t).bootGo m v) := regWrite_serves (f := fun s => s.bootGo m v) hs
    rw [hexec]
    refine ⟨fun h => congrArg _ (bootGo_other h), ?_⟩
    rintro rfl h1 h2
    rw [bootGo_key h1 h2]
    have hst (st : BitVec 3) : (decide (st ≠ 4) && decide (st ≠ 5)) = true ↔ st ≠ 4 ∧ st ≠ 5 := by
      rw [Bool.and_eq_true, decide_eq_true_eq, decide_eq_true_eq]
    obtain ⟨hb, hc⟩ := hostStops_spec (s.arrive t)
    generalize (s.arrive t).hostStops = x at hb hc ⊢
    refine ⟨fun h4 h5 => congrArg _ (if_pos ((hst _).2 ⟨h4, h5⟩)), fun h => ⟨_, congrArg _ (if_neg fun hn => ?_), ?_, hc⟩⟩
    · exact h.elim ((hst _).1 hn).1 ((hst _).1 hn).2
    · rw [hb]
      rfl
  · intro t m v s hs
    have hexec : exec (.bootFuseCmd t m v) s = .next ((s.arrive t).fuseCmd m v) := regWrite_serves (f := fun s => s.fuseCmd m v) hs
    rw [hexec]
    refine ⟨fun h => congrArg _ (fuseCmd_eq (s.arrive t) m v (fuseJudge_refused (s := s.arrive t) h)), fun h1 h2 h3 h4 h5 h6 => ?_⟩
    have hj := fuseJudge_judged (s := s.arrive t) h1 h2 h3 h4 h5 h6
    exact ⟨fun h => congrArg _ (fuseCmd_eq (s.arrive t) m v (hj.trans (if_pos h))), fun h => congrArg _ (fuseCmd_eq (s.arrive t) m v (hj.trans (if_neg h)))⟩
  · intro t ok s hd
    have hexec : exec (.fuseProgramComplete t ok) s = .next ((s.arrive t).fuseEnd ok) := liveEvent_live (f := fun s => s.fuseEnd ok) hd
    rw [hexec]
    refine ⟨fun h => congrArg _ (if_pos (by rw [show (s.arrive t).boot.fuseBusy = false from h]; rfl)), fun h => ⟨_, rfl, ?_⟩⟩
    rw [fuseEnd_eq (s := s.arrive t) h]
    obtain ⟨hb, h1, h2⟩ := payFuse_spec { s.arrive t with boot := s.boot.fused ok s.free, free := if ok then s.free else s.free + 8 }
    refine ⟨congrArg Boot.fuseBusy hb, congrArg Boot.blank hb, ?_, ?_, fun ho => ?_, h2⟩
    · rintro rfl
      exact ⟨congrArg Boot.fuseResult hb, congrArg Boot.keyhash hb⟩
    · rintro rfl
      exact ⟨congrArg Boot.fuseResult hb, congrArg Boot.keyhash hb⟩
    · obtain ⟨g1, g2⟩ := h1 ho
      exact ⟨g1.trans (congrArg (fun b : Boot => s.out ++ [.svc b.fuseResult [b.fuseStat]]) hb.symm), g2⟩

end Sys2Proof.Machine
end


section

/-! PROOFS. What a drain, a completion and a line stop leave of the cores and the pins. -/

namespace Sys2Proof.Machine

section
variable (s : State) (n : Nat)

/-! ## The next group of a channel -/

@[simp] theorem still_suspend (f : Chan → Chan) : (s.suspend n f).still = s.still := by simp [State.suspend]
@[simp] theorem still_failCheck (b : Nat) : (s.failCheck n b).still = s.still := (still_endWith ..).trans (still_modChan ..)
@[simp] theorem still_suspendNow : (s.suspendNow n).still = s.still := (still_suspend ..).trans (still_freeTimed ..)
@[simp] theorem still_suspWait : (s.suspWait n).still = s.still := still_ite (still_suspendNow ..) rfl

@[simp] theorem still_timedEntry : (s.timedEntry n).still = s.still := by
  unfold State.timedEntry
  dsimp only
  split
  · exact (still_miss ..).trans ((still_noteOor ..).trans (still_setChan ..))
  split
  · next h => exact (still_suspWait ..).trans ((still_snd h (still_schedTake ..)).trans ((still_noteOor ..).trans (still_setChan ..)))
  · next h =>
    exact (still_suspWait ..).trans ((still_newPrediction ..).trans ((still_modChan ..).trans
      ((still_snd h (still_schedTake ..)).trans ((still_noteOor ..).trans (still_setChan ..)))))

@[simp] theorem still_passChecks : (s.passChecks n).still = s.still := by
  unfold State.passChecks
  dsimp only
  split
  · exact still_failCheck ..
  · exact still_ite (still_suspend ..) (still_ite ((still_timedEntry ..).trans (still_modChan ..)) (still_modChan ..))

@[simp] theorem still_bracketCheck : (s.bracketCheck n).still = s.still := by
  unfold State.bracketCheck
  dsimp only
  split
  · exact still_setChan ..
  · exact still_failCheck ..
  split
  · exact still_failCheck ..
  · exact still_ite (still_failCheck ..) (still_passChecks ..)

@[simp] theorem still_makeCurrent (g : Group) : (s.makeCurrent n g).still = s.still := by
  unfold State.makeCurrent
  dsimp only
  split
  · exact (still_failCheck ..).trans (still_modChan ..)
  · exact still_ite ((still_bracketCheck ..).trans (still_modChan ..)) ((still_passChecks ..).trans (still_modChan ..))

@[simp] theorem still_goCurrent : (s.goCurrent n).still = s.still := by
  unfold State.goCurrent
  dsimp only
  split
  · exact still_ite ((still_makeCurrent ..).trans (still_setChan ..)) ((still_forget ..).trans (still_setChan ..))
  · exact still_setChan ..

/-! ## Completion (R133, R165) -/

theorem still_goOn (h : Chan) : (s.goOn n h).still = s.still := by
  unfold State.goOn
  exact still_ite ((still_suspend ..).trans (still_setChan ..)) ((still_goCurrent ..).trans (still_setChan ..))

@[simp] theorem still_advance : (s.advance n).still = s.still := by
  by_cases h : (s.chan n).st ≠ .haltPending ∨ (s.chan n).inBracket = true
  · rw [advance_eq rfl h]
    split
    · exact still_goOn ..
    · exact still_endProgram ..
  · obtain ⟨hst, hb⟩ := not_or.1 h
    have hstop : s.advance n = s.setChan n { s.chan n with committed := false, act := .fetch } := by
      refine if_pos ?_
      rw [Bool.and_eq_true, decide_eq_true_eq, Bool.not_eq_true']
      exact ⟨not_not.1 hst, Bool.eq_false_iff.2 hb⟩
    rw [hstop]
    exact still_setChan ..

@[simp] theorem still_holdRec (l : List Byte) (b : Bool) (a : After) : (s.holdRec n l b a).still = s.still := still_modChan ..

@[simp] theorem still_complete : (s.complete n).still = s.still := by
  unfold State.complete
  dsimp only
  split
  · split
    · next h => exact (still_advance ..).trans ((still_snd h (still_chanPost ..)).trans (still_freeTimed ..))
    · next h => exact (still_holdRec ..).trans ((still_snd h (still_chanPost ..)).trans (still_freeTimed ..))
  · exact (still_advance ..).trans (still_freeTimed ..)

@[simp] theorem still_signalDone : (s.signalDone n).still = s.still := (still_complete ..).trans (still_freeSlots ..)

@[simp] theorem still_dropEdges : (s.dropEdges n).still = s.still := by
  unfold State.dropEdges
  split
  · split
    · exact (still_signalDone ..).trans ((still_modChan ..).trans (still_modOu _ _ fun _ => rfl))
    · rfl
  · rfl

/-! ## Drains (R243, R258) -/

@[simp] theorem still_abandonCmd : (s.abandonCmd n).still = s.still :=
  (still_modChan ..).trans ((still_ite rfl (still_forget ..)).trans ((still_forget ..).trans (still_freeTimed ..)))

@[simp] theorem still_halt (b : Bool) : (s.halt n b).still = s.still := by
  unfold State.halt
  dsimp only
  split
  · rfl
  · exact still_ite (still_setChan ..) ((still_abandonCmd ..).trans (still_setChan ..))

end

section
variable (s : State)

@[simp] theorem still_haltAll : s.haltAll.still = s.still := still_foldl (fun s c => still_halt s c false) _ s

/-! ## Line stops (R405) -/

@[simp] theorem still_setPort (p : Nat) (x : Port) : (s.setPort p x).still = s.still := rfl
@[simp] theorem still_setYz (y : Yazen) : (s.setYz y).still = s.still := rfl

@[simp] theorem still_yzSend (p : Nat) (t : Option Time) (l : List Byte) : (s.yzSend p t l).still = s.still := still_ite (still_setPort ..) rfl

@[simp] theorem still_stopFrames (q r : Byte) : (s.stopFrames q r).still = s.still := by
  unfold State.stopFrames
  exact still_foldl (fun _ _ => still_ite (still_yzSend ..) rfl) _ s

@[simp] theorem still_lineStop (r : Byte) : (s.lineStop r).still = s.still := by
  unfold State.lineStop
  dsimp only
  exact still_ite rfl ((still_stopFrames ..).trans (still_setYz ..))

end

end Sys2Proof.Machine
end


section

/-! PROOFS. The fault collector's sampling, recording and reactions (O46). -/

namespace Sys2Proof.Machine

section
variable {s u : State} {w : List Nat} {i n : Nat} {e : FcEvent}

/-! ## The judgement of a pair (R483, R484) -/

theorem wired_iff {f : Fc} : f.wired w n i = true ↔ f.nonComp w i = true ∧ (f.wireNow.getLsbD i = true ∨ ∃ k, tget none f.odd i = some k ∧ k < n) := by
  unfold Fc.wired
  rw [Bool.and_eq_true, Bool.or_eq_true, Option.any_eq_true]
  simp only [decide_eq_true_eq]

theorem fcJudge_wired (h : s.fc.wired w (cyc s.now) i = true) :
    s.fcJudge w i = if s.fc.wireNow.getLsbD i then none else some (s.fcEvent i true (s.fc.forced i)) := if_pos h

theorem fcJudge_odd (h : s.fc.wired w (cyc s.now) i = false) (hn : s.fc.nonComp w i = true) : s.fcJudge w i = none :=
  (if_neg (Bool.eq_false_iff.1 h)).trans (if_pos hn)

theorem fcJudge_sound (hn : s.fc.nonComp w i = false) : s.fcJudge w i =
    if s.fc.reports i = true ∧ s.fc.live.getLsbD i = false then some (s.fcEvent i false (s.fc.forced i)) else none := by
  have hw : ¬s.fc.wired w (cyc s.now) i = true := fun h => Bool.false_ne_true (hn.symm.trans (wired_iff.1 h).1)
  refine (if_neg hw).trans ((if_neg (Bool.eq_false_iff.1 hn)).trans ?_)
  exact if_congr (by rw [Bool.and_eq_true, Bool.not_eq_true']) rfl rfl

theorem fcJudge_reserved (h : fcReserved i = true) : s.fcJudge w i = none := by
  have hn : s.fc.nonComp w i = false := by rw [Fc.nonComp, h]; rfl
  have hr : s.fc.reports i = false := by rw [Fc.reports, h]; rfl
  rw [fcJudge_sound hn, if_neg fun h => Bool.false_ne_true (hr.symm.trans h.1)]

/-! ## The order of the events of one cycle (R487) -/

/-- R487: higher severity first, then the lower number. -/
def FcEvent.Ahead (a b : FcEvent) : Prop := b.sev < a.sev ∨ a.sev = b.sev ∧ a.src ≤ b.src

theorem before_iff {a b : FcEvent} : a.before b = true ↔ a.Ahead b := by
  unfold FcEvent.before FcEvent.Ahead
  rw [Bool.or_eq_true, Bool.and_eq_true, decide_eq_true_eq, decide_eq_true_eq, decide_eq_true_eq]

theorem insertEvent_perm (e : FcEvent) (l : List FcEvent) : (insertEvent e l).Perm (e :: l) := by
  induction l with
  | nil => exact .refl _
  | cons x r ih =>
    unfold insertEvent
    split
    · exact .refl _
    · exact (ih.cons x).trans (.swap e x r)

theorem insertEvent_pairwise {l : List FcEvent} (h : l.Pairwise FcEvent.Ahead) : (insertEvent e l).Pairwise FcEvent.Ahead := by
  induction l with
  | nil => exact List.pairwise_singleton ..
  | cons x r ih =>
    obtain ⟨hx, hr⟩ := List.pairwise_cons.1 h
    unfold insertEvent
    split
    · next hb =>
      have hex := before_iff.1 hb
      refine List.pairwise_cons.2 ⟨fun y hy => ?_, h⟩
      rcases List.mem_cons.1 hy with rfl | hy
      · exact hex
      · have hxy := hx y hy
        unfold FcEvent.Ahead at hex hxy ⊢
        omega
    · next hb =>
      have hex : x.Ahead e := by
        have hn : ¬e.Ahead x := fun h => hb (before_iff.2 h)
        unfold FcEvent.Ahead at hn ⊢
        omega
      refine List.pairwise_cons.2 ⟨fun y hy => ?_, ih hr⟩
      rcases List.mem_cons.1 ((insertEvent_perm e r).mem_iff.1 hy) with rfl | hy
      · exact hex
      · exact hx y hy

theorem sortEvents_spec (l : List FcEvent) : (sortEvents l).Perm l ∧ (sortEvents l).Pairwise FcEvent.Ahead := by
  induction l with
  | nil => exact ⟨.refl _, .nil⟩
  | cons x r ih => exact ⟨(insertEvent_perm x _).trans (ih.1.cons x), insertEvent_pairwise ih.2⟩

/-! ## The words of a sample -/

/-- The bits below `n` that satisfy a test, as a number. -/
def bitSum (p : Nat → Bool) (n : Nat) : Nat := ((List.range n).map fun i => if p i then 2 ^ i else 0).sum

theorem bitSum_succ (p : Nat → Bool) (n : Nat) : bitSum p (n + 1) = 2 ^ n * (if p n then 1 else 0) + bitSum p n := by
  unfold bitSum
  rw [List.range_succ, List.map_append, List.sum_append, List.map_singleton, List.sum_singleton]
  split <;> omega

theorem bitSum_lt (p : Nat → Bool) (n : Nat) : bitSum p n < 2 ^ n := by
  induction n with
  | zero => exact Nat.one_pos
  | succ n ih =>
    rw [bitSum_succ, Nat.pow_succ]
    split <;> omega

theorem bitSum_testBit (p : Nat → Bool) {n : Nat} (h : i < n) : (bitSum p n).testBit i = p i := by
  induction n with
  | zero => exact absurd h (Nat.not_lt_zero i)
  | succ n ih =>
    rw [bitSum_succ, Nat.testBit_two_pow_mul_add _ (bitSum_lt p n)]
    by_cases hi : i < n
    · rw [if_pos hi, ih hi]
    · have heq : i = n := by omega
      rw [if_neg hi, heq, Nat.sub_self]
      cases p n <;> rfl

theorem bits256_bit (p : Nat → Bool) (h : i < 256) : (bits256 p).getLsbD i = p i := by
  have heq : bits256 p = BitVec.ofNat 256 (bitSum p 256) := rfl
  rw [heq, BitVec.getLsbD_ofNat, decide_eq_true h, Bool.true_and, bitSum_testBit p h]

/-- What `oddNow` lists of one pair. -/
def Fc.oddOf (f : Fc) (w : List Nat) (n i : Nat) : Option (Nat × Option Nat) :=
  if f.nonComp w i then some (i, some ((tget none f.odd i).getD n)) else none

theorem oddList_cons (f : Fc) (x : Nat) (r : List Nat) : tget none ((x :: r).filterMap (f.oddOf w n)) i =
    if x = i ∧ f.nonComp w i = true then some ((tget none f.odd i).getD n) else tget none (r.filterMap (f.oddOf w n)) i := by
  rw [List.filterMap_cons]
  rcases Bool.eq_false_or_eq_true (f.nonComp w x) with hx | hx
  · rw [show f.oddOf w n x = some (x, some ((tget none f.odd x).getD n)) from if_pos hx]
    by_cases hxi : x = i
    · rw [if_pos ⟨hxi, hxi ▸ hx⟩, ← hxi]
      exact if_pos rfl
    · rw [if_neg fun h => hxi h.1]
      exact if_neg hxi
  · rw [show f.oddOf w n x = none from if_neg (Bool.eq_false_iff.1 hx), if_neg fun h => ?_]
    exact Bool.false_ne_true (hx.symm.trans (h.1 ▸ h.2))

theorem oddList_at (f : Fc) {l : List Nat} : tget none (l.filterMap (f.oddOf w n)) i =
    if i ∈ l ∧ f.nonComp w i = true then some ((tget none f.odd i).getD n) else none := by
  induction l with
  | nil => exact (if_neg fun h => List.not_mem_nil h.1).symm
  | cons x r ih =>
    rw [oddList_cons, ih]
    by_cases hxi : x = i
    · by_cases hn : f.nonComp w i = true
      · rw [if_pos ⟨hxi, hn⟩, if_pos ⟨hxi ▸ List.mem_cons_self, hn⟩]
      · rw [if_neg fun h => hn h.2, if_neg fun h => hn h.2, if_neg fun h => hn h.2]
    · rw [if_neg fun h => hxi h.1]
      exact if_congr (and_congr_left' ⟨List.mem_cons_of_mem x, fun h => (List.mem_cons.1 h).resolve_left (Ne.symm hxi)⟩) rfl rfl

theorem oddNow_at (f : Fc) (h : i < 254) :
    tget none (f.oddNow w n) i = if f.nonComp w i then some ((tget none f.odd i).getD n) else none :=
  (oddList_at f).trans (if_congr (and_iff_right (List.mem_range.2 h)) rfl rfl)

/-! ## Recording (R485 to R488) -/

theorem fcSrc_setFcSrc (s : State) (i j : Nat) (x : FcSrc) : (s.setFcSrc i x).fcSrc j = if j = i then x else s.fcSrc j := by
  unfold State.setFcSrc State.fcSrc
  rw [tget_tput]
  by_cases hj : j = i
  · rw [if_pos hj, if_pos hj]
    split
    · next hx => exact hj ▸ hx.symm
    · rfl
  · rw [if_neg hj, if_neg hj]

/-- The counting of a cycle's events changes the counts of their sources alone. -/
theorem fcCounts_spec (l : List FcEvent) (s u : State) (hu : u = l.foldl State.fcCount s) :
    u = { s with fc := { s.fc with srcs := u.fc.srcs } } ∧ ∀ i, (∀ e ∈ l, e.src ≠ i) → u.fcSrc i = s.fcSrc i := by
  induction l generalizing s with
  | nil =>
    subst hu
    exact ⟨rfl, fun i _ => rfl⟩
  | cons e r ih =>
    obtain ⟨heq, hsrc⟩ := ih (s.fcCount e) hu
    refine ⟨heq, fun i hi => (hsrc i fun x hx => hi x (List.mem_cons_of_mem e hx)).trans ?_⟩
    exact (fcSrc_setFcSrc s e.src i _).trans (if_neg fun h => hi e List.mem_cons_self h.symm)

theorem fcNotify_irq (s : State) (e : FcEvent) : s.fcNotify e = { s with irq := (s.fcNotify e).irq } := by
  unfold State.fcNotify
  dsimp only
  split <;> rfl

/-- The entries of the trail change the trail, the first record and the vectors alone. -/
theorem fcWrite_eq (l : List FcEvent) (s : State) (b : Bool) (k : Nat) : s.fcWrite b k l = { s with
    irq := (s.fcWrite b k l).irq,
    fc := { s.fc with trail := (s.fcWrite b k l).fc.trail, seq := (s.fcWrite b k l).fc.seq, first := (s.fcWrite b k l).fc.first } } := by
  induction l generalizing s k with
  | nil => rfl
  | cons e r ih =>
    unfold State.fcWrite
    dsimp only
    refine (ih _ _).trans ?_
    rw [fcNotify_irq]
    rfl

/-- R485: an event that is recorded sets its latch and keeps its severity. -/
def State.fcMark (s : State) (e : FcEvent) : State :=
  s.modFc fun f => { f with latch := f.latch ||| BitVec.ofNat 256 (1 <<< e.src), recSev := tput 0 f.recSev e.src e.sev }

theorem fcMark_latch (s : State) (e : FcEvent) (h : i < 256) :
    (s.fcMark e).fc.latch.getLsbD i = (s.fc.latch.getLsbD i || decide (e.src = i)) := by
  change (s.fc.latch ||| BitVec.ofNat 256 (1 <<< e.src)).getLsbD i = _
  rw [BitVec.getLsbD_or, BitVec.getLsbD_ofNat, decide_eq_true h, Bool.true_and, Nat.one_shiftLeft, Nat.testBit_two_pow]

/-- The marks of a cycle's recorded events set their latches and no others. -/
theorem fcMarks_spec (l : List FcEvent) (s u : State) (hu : u = l.foldl State.fcMark s) :
    u = { s with fc := { s.fc with latch := u.fc.latch, recSev := u.fc.recSev } } ∧
      ∀ i < 256, u.fc.latch.getLsbD i = true ↔ s.fc.latch.getLsbD i = true ∨ ∃ e ∈ l, e.src = i := by
  induction l generalizing s with
  | nil =>
    subst hu
    exact ⟨rfl, fun i _ => ⟨.inl, fun h => h.resolve_right fun ⟨e, he, _⟩ => List.not_mem_nil he⟩⟩
  | cons e r ih =>
    obtain ⟨heq, hl⟩ := ih (s.fcMark e) hu
    refine ⟨heq, fun i hi => ?_⟩
    rw [hl i hi, fcMark_latch s e hi, Bool.or_eq_true, decide_eq_true_eq, List.exists_mem_cons_iff, or_assoc]

/-- R485 to R488: what is counted, what is written, and what is marked. -/
theorem fcRecord_eq (s : State) (evs : List FcEvent) : s.fcRecord evs = (evs.filter s.fcNew).foldl State.fcMark
    ((((evs.foldl State.fcCount s).fcWrite (decide (2 ≤ ((evs.filter s.fcNew).take 32).length)) 0 ((evs.filter s.fcNew).take 32))).modFc
      fun f => { f with overCnt := f.overCnt + BitVec.ofNat 32 ((evs.filter s.fcNew).drop 32).length }) := rfl

/-- What recording leaves alone: all but the fault record and the vectors, and of the record the latches of other sources. -/
theorem fcRecord_spec (s u : State) (evs : List FcEvent) (hu : u = s.fcRecord evs) :
    u = { s with fc := u.fc, irq := u.irq } ∧ u.fc.safe = s.fc.safe ∧
    (∀ i < 256, u.fc.latch.getLsbD i = true ↔ s.fc.latch.getLsbD i = true ∨ ∃ e ∈ evs.filter s.fcNew, e.src = i) ∧
    ∀ i, (∀ e ∈ evs, e.src ≠ i) → u.fcSrc i = s.fcSrc i := by
  rw [fcRecord_eq] at hu
  obtain ⟨hm, hl⟩ := fcMarks_spec _ _ u hu
  obtain ⟨hc, hs⟩ := fcCounts_spec evs s _ rfl
  rw [fcWrite_eq, hc] at hm hl
  exact ⟨hm.trans (by rw [hm]; rfl), congrArg (·.fc.safe) hm, hl, fun i hi =>
    (congrArg (State.fcSrc · i) hm).trans (hs i hi)⟩

/-! ## The safe state (R491, R352, R359) -/

/-- The step of the safe state's rest at one pin. -/
def State.safeStep (t : Time) (s : State) (p : Nat) : State :=
  if !(s.forceRest p 11 t).isInput p && ((s.forceRest p 11 t).ou p).drive == (s.forceRest p 11 t).onLevel p && !((s.forceRest p 11 t).pin p).hold then
    (s.forceRest p 11 t).setPin p { (s.forceRest p 11 t).pin p with hold := true }
  else s.forceRest p 11 t

theorem safeRest_eq (s : State) (t : Time) : s.safeRest t = (List.range pinCount).foldl (State.safeStep t) s := rfl

/-- The pin after the safe state's rest: off, held while its unit drives the on level. -/
def State.safePin (s : State) (p : Nat) (t : Time) : Pin :=
  { s.restedPin p t with hold := (s.restedPin p t).hold || (!s.isInput p && (s.ou p).drive == s.onLevel p) }

theorem pinWords_of_lws {x : State} (h : x.lws = s.lws) (p : Nat) : x.isInput p = s.isInput p ∧ x.onLevel p = s.onLevel p := by
  unfold State.isInput State.onLevel State.pinWord State.fenceWord
  rw [h]
  exact ⟨rfl, rfl⟩

theorem restedOu_drive (p k : Nat) (t : Time) : (s.restedOu p k t).drive = (s.ou p).drive := by
  unfold State.restedOu
  split <;> rfl

theorem safeStep_lws (t : Time) (p : Nat) : (s.safeStep t p).lws = s.lws := by
  unfold State.safeStep
  split <;> exact (forceRest_frame ..).1

theorem safeStep_ou (t : Time) (p j : Nat) : (s.safeStep t p).ou j = if j = p then s.restedOu p 11 t else s.ou j := by
  rw [← forceRest_ou]
  unfold State.safeStep
  split <;> rfl

theorem safeStep_pin (t : Time) (p j : Nat) : (s.safeStep t p).pin j = if j = p then s.safePin p t else s.pin j := by
  obtain ⟨hin, hon⟩ := pinWords_of_lws (forceRest_frame s p 11 t).1 p
  have hr := forceRest_pin s p 11 t
  unfold State.safeStep State.safePin
  rw [hin, hon, forceRest_ou, if_pos rfl, restedOu_drive, hr p, if_pos rfl]
  cases hh : (s.restedPin p t).hold with
  | true =>
    have hp : ({ s.restedPin p t with hold := true } : Pin) = s.restedPin p t := by rw [← hh]
    rw [Bool.not_true, Bool.and_false, Bool.true_or, hp]
    exact hr j
  | false =>
    rw [Bool.not_false, Bool.and_true, Bool.false_or]
    split
    · next h =>
      rw [State.setPin_pin, hr j, h]
      split <;> rfl
    · next h =>
      rw [hr j, Bool.eq_false_iff.2 h, ← hh]

/-- R491: every pin rests, held where its unit drives the on level, and units whose pin was on count a clamp. -/
theorem safeRest_spec (t : Time) {p : Nat} (h : p < 128) :
    (s.safeRest t).pin p = s.safePin p t ∧ (s.safeRest t).ou p = s.restedOu p 11 t := by
  have hf := foldl_pins (f := State.safeStep t) (g := fun s p => s.safePin p t) (e := fun s p => s.restedOu p 11 t)
    (fun _ _ _ => safeStep_pin ..) (fun _ _ _ => safeStep_ou ..) (fun _ _ => safeStep_lws ..) (fun s x j hp ho hl => ?_) 128 s
  · obtain ⟨hpin, hou⟩ := hf.2 p
    rw [if_pos h] at hpin hou
    exact ⟨hpin, hou⟩
  · obtain ⟨hrp, hro⟩ := rested_eq (t := t) (k := 11) hp ho hl
    obtain ⟨hin, hon⟩ := pinWords_of_lws hl j
    unfold State.safePin
    rw [hrp, hin, hon, ho]
    exact ⟨rfl, hro⟩

theorem forceRest_safe (p k : Nat) (t : Time) : (s.forceRest p k t).fc.safe = s.fc.safe ∧ (s.forceRest p k t).fc.safeT = s.fc.safeT := by
  cases h : (s.pin p).onSince with
  | none => rw [forceRest_off h]; exact ⟨rfl, rfl⟩
  | some a => rw [forceRest_on (by rw [h]; rfl), (clamp_frame ..).2.2.2.2.2]; exact ⟨rfl, rfl⟩

theorem safeStep_safe (t : Time) (p : Nat) : (s.safeStep t p).fc.safe = s.fc.safe ∧ (s.safeStep t p).fc.safeT = s.fc.safeT := by
  unfold State.safeStep
  split <;> exact forceRest_safe ..

theorem safeRest_safe (t : Time) : (s.safeRest t).fc.safe = s.fc.safe ∧ (s.safeRest t).fc.safeT = s.fc.safeT := by
  rw [safeRest_eq]
  exact ⟨foldl_keeps (fun x : State => x.fc.safe) (f := State.safeStep t) (fun _ _ => (safeStep_safe ..).1) _ s,
    foldl_keeps (fun x : State => x.fc.safeT) (f := State.safeStep t) (fun _ _ => (safeStep_safe ..).2) _ s⟩

/-- The safe state is entered: SAFE with the cycle after the cause, then the pins rest from there on. -/
def State.safeSet (s : State) : State := s.modFc fun f => { f with safe := true, safeT := (cyc s.now + 1) * 8 }

theorem safeGo_enters (h : s.fc.safe = false) (he : s.fc.exitAt ≠ some (cyc s.now)) :
    s.safeGo.still = (s.safeSet.safeRest ((cyc s.now + 1) * 8)).still := by
  have heq : s.safeGo = ((List.range pinCount).foldl State.dropEdges (s.safeSet.safeRest ((cyc s.now + 1) * 8)).haltAll).lineStop 1 :=
    (if_neg (Bool.eq_false_iff.1 h)).trans (if_neg he)
  rw [heq, still_lineStop, still_foldl (fun s p => still_dropEdges s p), still_haltAll]

theorem still_pin {x y : State} (h : x.still = y.still) (p : Nat) : x.pin p = y.pin p := congrArg (fun r : Still => tget ({} : Pin) r.pins p) h

theorem still_safe {x y : State} (h : x.still = y.still) : x.fc.safe = y.fc.safe := congrArg Still.safe h

theorem still_safeT {x y : State} (h : x.still = y.still) : x.fc.safeT = y.fc.safeT := congrArg Still.safeT h

theorem still_cause {x y : State} (h : x.still = y.still) (p : Nat) : (x.ou p).lastCause = (y.ou p).lastCause :=
  congrFun (congrArg Still.causes h) p

/-! ## FC_SAFE (R493, R495) -/

theorem fcSafe_invalid {v : Word} (h : fld v 16 16 ≠ 0x5AFE ∨ fld v 2 14 ≠ 0 ∨ bit v 0 = bit v 1) :
    s.fcSafe v = s.modFc fun f => { f with result := 2 } := by
  refine if_pos ?_
  rw [Bool.or_eq_true, Bool.or_eq_true, decide_eq_true_eq, decide_eq_true_eq, beq_iff_eq, or_assoc]
  exact h

theorem fcSafe_enter {v : Word} (hk : fld v 16 16 = 0x5AFE) (hr : fld v 2 14 = 0) (h0 : bit v 0 = false) (h1 : bit v 1 = true) :
    s.fcSafe v = (s.modFc fun f => { f with result := 0 }).fcEvents [s.fcEvent 254 false false] := by
  refine (if_neg ?_).trans (if_pos h1)
  rw [hk, hr, h0, h1]
  decide

/-- R493: an EXIT by its judgement. -/
theorem fcSafe_exit {v : Word} (hk : fld v 16 16 = 0x5AFE) (hr : fld v 2 14 = 0) (h0 : bit v 0 = true) (h1 : bit v 1 = false) :
    s.fcSafe v = if s.exitJudge = 0 ∧ s.fc.causeAt ≠ some (cyc s.now) then
      ({ s with fc := { s.fc with result := 0, safe := false, exitAt := some (cyc s.now) } } : State).setFaultN
    else s.modFc fun f => { f with result := BitVec.ofNat 16 s.exitJudge } := by
  refine (if_neg ?_).trans ((if_neg (Bool.eq_false_iff.1 h1)).trans ?_)
  · rw [hk, hr, h0, h1]
    decide
  · dsimp only
    by_cases hj : s.exitJudge = 0
    · rw [hj]
      refine if_congr ?_ rfl rfl
      rw [Bool.and_eq_true, decide_eq_true_eq, decide_eq_true_eq]
      exact Iff.rfl
    · refine (if_neg fun h => hj ?_).trans (if_neg fun h => hj h.1).symm
      rw [Bool.and_eq_true] at h
      exact of_decide_eq_true h.1

theorem fcSafe_refused {v : Word} (hk : fld v 16 16 = 0x5AFE) (hr : fld v 2 14 = 0) (h0 : bit v 0 = true) (h1 : bit v 1 = false)
    {r : Nat} (hj : s.exitJudge = r) (hr0 : r ≠ 0) : s.fcSafe v = s.modFc fun f => { f with result := BitVec.ofNat 16 r } := by
  rw [fcSafe_exit hk hr h0 h1, hj]
  exact if_neg fun h => hr0 h.1

theorem fld_or (v c : Word) {lo n : Nat} (h : c.extractLsb' lo n = 0) : fld (v ||| c) lo n = fld v lo n := by
  rw [fld_extract, fld_extract, BitVec.extractLsb'_or, h]
  exact congrArg _ BitVec.or_zero

theorem bit_or (v c : Word) (n : Nat) : bit (v ||| c) n = (bit v n || bit c n) := BitVec.getLsbD_or

/-- R493: the checks of an EXIT, in their order. -/
theorem exitJudge_state (h : s.fc.safe = false ∨ s.now < s.fc.safeT) : s.exitJudge = 11 := by
  refine if_pos ?_
  rw [Bool.or_eq_true, Bool.not_eq_true', decide_eq_true_eq]
  exact h

theorem exitJudge_safe (h : s.fc.safe = true) (ht : s.fc.safeT ≤ s.now) : s.exitJudge =
    if s.fc.self then 4 else if s.chans.any fun p => p.2.st = .haltPending then 1
    else if (List.range 254).any fun i => s.fc.live.getLsbD i && (s.fcSrc i).react = 3 then 11 else 0 := by
  refine if_neg ?_
  rw [Bool.or_eq_true, Bool.not_eq_true', decide_eq_true_eq, h]
  exact fun hn => hn.elim Bool.noConfusion (Nat.not_lt.2 ht)

/-! ## FAULT_N (R494) -/

theorem setFaultN_iff (s : State) : s.setFaultN.fc.faultN = true ↔ s.dead = true ∨ s.rst.fenceRead = false ∨ s.fc.safe = true ∨
    ∃ i < 256, s.fc.latch.getLsbD i = true ∧ s.fc.pinSev.toNat ≤ s.recordedSev i := by
  change s.faultPin = true ↔ _
  unfold State.faultPin
  rw [Bool.or_eq_true, Bool.or_eq_true, Bool.or_eq_true, Bool.not_eq_true', List.any_eq_true, or_assoc, or_assoc]
  refine or_congr_right (or_congr_right (or_congr_right (exists_congr fun i => ?_)))
  rw [List.mem_range, Bool.and_eq_true, decide_eq_true_eq]

/-! ## One sample (R483 to R491) -/

/-- The pairs after one sample: what they hold from it, and the wire faults added to those since reset. -/
def State.putSample (s : State) (odd : Tab (Option Nat)) (w live raised : BitVec 256) : State :=
  s.modFc fun f => { f with odd := odd, wireNow := w, wire := f.wire ||| w, live := live, raised := f.raised &&& raised }

theorem putSample_eq {u : State} {odd : Tab (Option Nat)} {v live raised : BitVec 256} (hu : u = s.putSample odd v live raised) :
    u = { s with fc := { s.fc with
      odd := u.fc.odd, raised := u.fc.raised, wireNow := u.fc.wireNow, wire := s.fc.wire ||| u.fc.wireNow, live := u.fc.live } } := by
  subst hu
  rfl

/-- The state of the pairs after one sample. -/
def State.fcSampled (s : State) (w : List Nat) : State :=
  s.putSample (s.fc.oddNow w (cyc s.now)) (bits256 (s.fc.wired w (cyc s.now)))
    (bits256 fun i => s.fc.wired w (cyc s.now) i || (if s.fc.nonComp w i then s.fc.live.getLsbD i
      else !fcReserved i && (s.fc.forced i || s.fc.level.getLsbD i)))
    (bits256 (s.fc.nonComp w))

theorem fcSampled_eq (s : State) (w : List Nat) : s.fcSampled w = { s with fc := { s.fc with
    odd := (s.fcSampled w).fc.odd, raised := (s.fcSampled w).fc.raised, wireNow := (s.fcSampled w).fc.wireNow,
    wire := s.fc.wire ||| (s.fcSampled w).fc.wireNow, live := (s.fcSampled w).fc.live } } := putSample_eq rfl

theorem fcSample_eq : s.fcSample w = (s.fcSampled w).fcEvents (sortEvents ((List.range 254).filterMap (s.fcJudge w))) := by
  unfold State.fcSample State.fcSampled State.putSample
  dsimp only
  rfl

theorem exec_faultEvent_samples {t : Time} {v : List (Fin 254)} (h : s.up = true) :
    exec (.faultEvent t v) s = .next ((s.arrive t).fcSample (v.map (·.val))) := by
  change execFaultEvent t v s = _
  unfold execFaultEvent
  exact engineEvent_up h

theorem fcSampled_wireNow (h : i < 256) : (s.fcSampled w).fc.wireNow.getLsbD i = s.fc.wired w (cyc s.now) i := bits256_bit _ h

theorem fcSampled_raised (h : i < 256) : (s.fcSampled w).fc.raised.getLsbD i = (s.fc.raised.getLsbD i && s.fc.nonComp w i) :=
  BitVec.getLsbD_and.trans (congrArg _ (bits256_bit _ h))

theorem fcSampled_odd (h : i < 254) : tget none (s.fcSampled w).fc.odd i =
    if s.fc.nonComp w i then some ((tget none s.fc.odd i).getD (cyc s.now)) else none := oddNow_at _ h

/-! ## One event -/

/-- The recording of one event that is new. -/
theorem fcRecord_new (h : s.fcNew e = true) : s.fcRecord [e] =
    (((s.fcCount e).fcWrite false 0 [e]).modFc fun f => { f with overCnt := f.overCnt + BitVec.ofNat 32 0 }).fcMark e := by
  have hf : [e].filter s.fcNew = [e] := List.filter_cons_of_pos h
  rw [fcRecord_eq, hf]
  rfl

/-- The recording of one event whose latch bit is set counts it only. -/
theorem fcRecord_old (h : s.fcNew e = false) : s.fcRecord [e] =
    (s.fcCount e).modFc fun f => { f with overCnt := f.overCnt + BitVec.ofNat 32 0 } := by
  have hf : [e].filter s.fcNew = [] := List.filter_cons_of_neg (Bool.eq_false_iff.1 h)
  rw [fcRecord_eq, hf]
  rfl

theorem fcNew_iff : s.fcNew e = true ↔ s.fc.latch.getLsbD e.src = false ∨ e.src = 255 := by
  unfold State.fcNew
  rw [Bool.or_eq_true, Bool.not_eq_true', decide_eq_true_eq]

theorem fcCount_cnt : ((s.fcCount e).fcSrc e.src).cnt = satInc (s.fcSrc e.src).cnt := by
  unfold State.fcCount
  dsimp only
  rw [fcSrc_setFcSrc, if_pos rfl]

theorem fcNotify_fc (s : State) (e : FcEvent) : (s.fcNotify e).fc = s.fc := by
  rw [fcNotify_irq]

/-- R486, R488: the one entry of a new event. -/
theorem fcWrite_one : ((s.fcCount e).fcWrite false 0 [e]).fc = { (s.fcCount e).fc with
    trail := tput {} s.fc.trail (s.fc.seq.toNat % 32) (e.entry s.fc.seq 0 false (cyc s.now * 8)), seq := s.fc.seq + 1,
    first := s.fc.first.orElse fun _ => some (e.entry s.fc.seq 0 false (cyc s.now * 8)) } :=
  (fcNotify_fc ..).trans rfl

/-- R485 to R488: what the recording of one event that is new does. -/
theorem fcRecord_one_new {u : State} (h : s.fcNew e = true) (hu : u = s.fcRecord [e]) : (u.fcSrc e.src).cnt = satInc (s.fcSrc e.src).cnt ∧
    u.fc.seq = s.fc.seq + 1 ∧ u.recordedSev e.src = e.sev ∧
    tget {} u.fc.trail (s.fc.seq.toNat % 32) = e.entry s.fc.seq 0 false (cyc s.now * 8) ∧
    u.fc.first = some (s.fc.first.getD (e.entry s.fc.seq 0 false (cyc s.now * 8))) := by
  rw [fcRecord_new h] at hu
  have hfc : u.fc = { ((s.fcCount e).fcWrite false 0 [e]).fc with
      overCnt := ((s.fcCount e).fcWrite false 0 [e]).fc.overCnt + BitVec.ofNat 32 0,
      latch := ((s.fcCount e).fcWrite false 0 [e]).fc.latch ||| BitVec.ofNat 256 (1 <<< e.src),
      recSev := tput 0 ((s.fcCount e).fcWrite false 0 [e]).fc.recSev e.src e.sev } := by rw [hu]; rfl
  rw [fcWrite_one] at hfc
  refine ⟨?_, ?_, ?_, ?_, ?_⟩
  · rw [← fcCount_cnt, State.fcSrc, hfc]
    rfl
  · rw [hfc]
  · rw [State.recordedSev, hfc]
    exact tget_tput_self ..
  · rw [hfc]
    exact tget_tput_self ..
  · rw [hfc]
    dsimp only
    cases s.fc.first <;> rfl

/-! ## Reactions to one event (R479) -/

theorem fcReact_one (s : State) (e : FcEvent) : s.fcReact [e] =
    if e.react = 4 then (if e.react = 3 then ((if e.react = 2 then s.haltDomain e.dom else s).modFc fun f =>
        { f with causeAt := some (cyc (if e.react = 2 then s.haltDomain e.dom else s).now) }).safeGo
      else if e.react = 2 then s.haltDomain e.dom else s).functionReset 5 16000
    else if e.react = 3 then ((if e.react = 2 then s.haltDomain e.dom else s).modFc fun f =>
        { f with causeAt := some (cyc (if e.react = 2 then s.haltDomain e.dom else s).now) }).safeGo
      else if e.react = 2 then s.haltDomain e.dom else s := by
  have hany (k : Nat) : [e].any (fun x => x.react = k) = decide (e.react = k) := Bool.or_false _
  unfold State.fcReact
  dsimp only
  rw [hany, hany, List.foldl_cons, List.foldl_nil]
  simp only [decide_eq_true_eq]
  rfl

end

/-- Settles O46: the collector by its samples, its records, its reactions, the safe state and FC_SAFE. -/
theorem faultsAreRecordedAndReactedTo : Obligations.FaultsAreRecordedAndReactedTo := by
  unfold Obligations.FaultsAreRecordedAndReactedTo
  refine ⟨fun s wires i => ⟨fcJudge_reserved, wired_iff, fcJudge_wired, fcJudge_odd, fcJudge_sound, fun w f => rfl⟩, sortEvents_spec,
    ?_, fun s evs => rfl, ?_, ?_, ?_, ?_, ?_, ?_, setFaultN_iff⟩
  case refine_1 =>
    intro t w s evs hup hev
    have hrun : exec (.faultEvent t w) s = .next ((s.arrive t).fcSample (w.map (·.val))) :=
      exec_faultEvent_samples hup
    rw [fcSample_eq, ← hev] at hrun
    refine ⟨(s.arrive t).fcSampled (w.map (·.val)), ?_, ?_, ?_, ?_⟩
    · exact hrun
    · exact fcSampled_eq ..
    · exact fun i hi => ⟨fcSampled_wireNow (s := s.arrive t) hi, fcSampled_raised (s := s.arrive t) hi⟩
    · exact fun i hi => fcSampled_odd (s := s.arrive t) hi
  case refine_2 =>
    intro s u evs hu
    obtain ⟨heq, hsafe, hlatch, hsrc⟩ := fcRecord_spec s u evs hu
    refine ⟨fun e he hi => (hlatch e.src hi).2 ?_, fun i hi hno => ⟨?_, hsrc i hno⟩, ?_, ?_, ?_, hsafe⟩
    · by_cases hl : s.fc.latch.getLsbD e.src = true
      · exact .inl hl
      · exact .inr ⟨e, List.mem_filter.2 ⟨he, fcNew_iff.2 (.inl (Bool.eq_false_iff.2 hl))⟩, rfl⟩
    · exact Bool.eq_iff_iff.2 ((hlatch i hi).trans (or_iff_left fun ⟨e, he, h⟩ => hno e (List.mem_filter.1 he).1 h))
    all_goals rw [heq]
  case refine_3 =>
    intro s u e hi hu
    cases hn : s.fcNew e with
    | true =>
      obtain ⟨hc, h⟩ := fcRecord_one_new hn hu
      exact ⟨hc, fun _ => h, fun hl h255 => absurd hn (fun hn => (fcNew_iff.1 hn).elim (fun h => Bool.noConfusion (h.symm.trans hl)) h255)⟩
    | false =>
      rw [fcRecord_old hn] at hu
      subst hu
      exact ⟨fcCount_cnt, fun h => absurd (fcNew_iff.2 h) (Bool.eq_false_iff.1 hn), fun _ _ => ⟨rfl, rfl, rfl, rfl⟩⟩
  case refine_4 =>
    intro s e
    rw [fcReact_one]
    refine ⟨fun h => ?_, fun h => ?_, fun h => ?_, fun h => ?_⟩
    · rw [if_neg (by omega), if_neg (by omega), if_neg (by omega)]
    · rw [if_neg (by omega), if_neg (by omega), if_pos h]
    · rw [if_neg (by omega), if_pos h, if_neg (by omega)]
      rfl
    · rw [if_pos h, if_neg (by omega), if_neg (by omega)]
  case refine_5 =>
    intro s
    refine ⟨fun h => if_pos h, fun h he => (if_neg (Bool.eq_false_iff.1 h)).trans (if_pos he), fun h he => ?_⟩
    have hstill := safeGo_enters h he
    obtain ⟨hsafe, hsafeT⟩ := safeRest_safe (s := s.safeSet) ((cyc s.now + 1) * 8)
    refine ⟨(still_safe hstill).trans hsafe, (still_safeT hstill).trans hsafeT, fun p hp => ?_⟩
    obtain ⟨hpin, hou⟩ := safeRest_spec (s := s.safeSet) ((cyc s.now + 1) * 8) hp
    rw [still_pin hstill p, hpin]
    refine ⟨restedPin_off s.safeSet p _, fun hin hdr => ?_, fun hon => ?_⟩
    · change ((s.restedPin p _).hold || (!s.isInput p && (s.ou p).drive == s.onLevel p)) = true
      rw [hin, hdr, beq_self_eq_true, Bool.not_false, Bool.true_and, Bool.or_true]
    · obtain ⟨hlast, hro⟩ := rested_on (s := s.safeSet) (t := (cyc s.now + 1) * 8) (k := 11) hon
      refine ⟨hlast, (still_cause hstill p).trans ?_⟩
      rw [hou, hro]
      rfl
  case refine_6 =>
    exact fun t s hup => engineEvent_up (f := fun s => (s.modFc fun f => { f with self := true }).fcEvents [s.fcEvent 255 false false]) hup
  case refine_7 =>
    intro t m v s res hs hres
    obtain rfl : res = fun r => { s.arrive t with fc := { s.fc with result := BitVec.ofNat 16 r } } := funext hres
    obtain ⟨hk2, hr2, h02, h12⟩ : fld (v ||| 2) 16 16 = fld v 16 16 ∧ fld (v ||| 2) 2 14 = fld v 2 14 ∧ bit (v ||| 2) 0 = bit v 0 ∧ bit (v ||| 2) 1 = true :=
      ⟨fld_or _ _ (by decide), fld_or _ _ (by decide), (bit_or ..).trans (Bool.or_false _), (bit_or ..).trans (Bool.or_true _)⟩
    obtain ⟨hk1, hr1, h01, h11⟩ : fld (v ||| 1) 16 16 = fld v 16 16 ∧ fld (v ||| 1) 2 14 = fld v 2 14 ∧ bit (v ||| 1) 0 = true ∧ bit (v ||| 1) 1 = bit v 1 :=
      ⟨fld_or _ _ (by decide), fld_or _ _ (by decide), (bit_or ..).trans (Bool.or_true _), (bit_or ..).trans (Bool.or_false _)⟩
    have henter : exec (.safeEnter t m v) s = .next ((s.arrive t).fcSafe (v ||| 2)) := regWrite_serves (f := fun s => s.fcSafe (v ||| 2)) hs
    have hexit : exec (.safeExit t m v) s = .next ((s.arrive t).fcSafe (v ||| 1)) := regWrite_serves (f := fun s => s.fcSafe (v ||| 1)) hs
    refine ⟨fun h => ?_, fun hk hr h0 => ?_, fun h => ?_, fun hk hr h1 => ?_⟩
    · refine henter.trans (congrArg _ (fcSafe_invalid ?_))
      rw [hk2, hr2, h02, h12]
      exact h
    · exact henter.trans (congrArg _ (fcSafe_enter (hk2.trans hk) (hr2.trans hr) (h02.trans h0) h12))
    · refine hexit.trans (congrArg _ (fcSafe_invalid ?_))
      rw [hk1, hr1, h01, h11]
      exact h.imp_right (·.imp_right Eq.symm)
    · rw [hexit]
      have hno {r : Nat} (hj : (s.arrive t).exitJudge = r) (h0 : r ≠ 0) : (s.arrive t).fcSafe (v ||| 1) =
          { s.arrive t with fc := { s.fc with result := BitVec.ofNat 16 r } } :=
        fcSafe_refused (s := s.arrive t) (hk1.trans hk) (hr1.trans hr) h01 (h11.trans h1) hj h0
      refine ⟨fun h => congrArg _ (hno (exitJudge_state h) (by decide)), fun hs ht hself => congrArg _ (hno ?_ (by decide)),
        fun hs ht hself hd => congrArg _ (hno ?_ (by decide)), fun hs ht hself hd => ⟨fun i hi hl hr => congrArg _ (hno ?_ (by decide)), fun h => ?_⟩⟩
      · exact (exitJudge_safe (s := s.arrive t) hs ht).trans (if_pos hself)
      · exact (exitJudge_safe (s := s.arrive t) hs ht).trans ((if_neg (Bool.eq_false_iff.1 hself)).trans (if_pos hd))
      · refine (exitJudge_safe (s := s.arrive t) hs ht).trans ((if_neg (Bool.eq_false_iff.1 hself)).trans ((if_neg (Bool.eq_false_iff.1 hd)).trans (if_pos ?_)))
        exact List.any_eq_true.2 ⟨i, List.mem_range.2 hi, Bool.and_eq_true_iff.2 ⟨hl, decide_eq_true hr⟩⟩
      · have hj : (s.arrive t).exitJudge = 0 := by
          refine (exitJudge_safe (s := s.arrive t) hs ht).trans ((if_neg (Bool.eq_false_iff.1 hself)).trans ((if_neg (Bool.eq_false_iff.1 hd)).trans (if_neg ?_)))
          rw [List.any_eq_true]
          rintro ⟨i, hi, hc⟩
          rw [Bool.and_eq_true, decide_eq_true_eq] at hc
          exact h i (List.mem_range.1 hi) hc.1 hc.2
        rw [fcSafe_exit (hk1.trans hk) (hr1.trans hr) h01 (h11.trans h1), hj]
        by_cases hc : s.fc.causeAt = some (cyc (max s.now t))
        · rw [if_neg fun h => h.2 hc, if_pos hc]
          rfl
        · rw [if_pos ⟨rfl, hc⟩, if_neg hc]
          rfl

end Sys2Proof.Machine
end


section

/-! PROOFS. What each reset keeps and stops (O48). -/

namespace Sys2Proof.Machine

section
variable {s u : State} {p : Nat}

/-! ## What the reset of cores and mailboxes leaves alone -/

/-- The pins and output units, and whether the link is up. -/
def State.board (s : State) : Outs × Bool := (s.outs, s.irq.link)

theorem board_outs {x y : State} (h : x.board = y.board) : x.outs = y.outs := congrArg Prod.fst h

theorem board_link {x y : State} (h : x.board = y.board) : x.irq.link = y.irq.link := congrArg Prod.snd h

theorem board_modChan (s : State) (c : Nat) (f : Chan → Chan) : (s.modChan c f).board = s.board := rfl

theorem board_forget (s : State) (who : Who) : (s.forget who).board = s.board := rfl

theorem board_wakeUnit (s : State) (n : Nat) : (s.wakeUnit n).board = s.board := by
  unfold State.wakeUnit State.wakeWaiters
  refine foldl_keeps State.board (fun s p => ?_) _ s
  exact board_modChan ..

theorem board_mbEvent (s : State) (b : Nat) (m : Ident) (kind : Nat) (rc : BitVec 16) (l : List Word) : (s.mbEvent b m kind rc l).board = s.board := by
  unfold State.mbEvent
  dsimp only
  split
  · split <;> rfl
  split
  · rfl
  split
  · exact board_wakeUnit ..
  · rfl

theorem board_mbSideReset (s : State) (l : List Ident) (b : Nat) (a : Bool) : (State.mbSideReset l b s a).board = s.board := by
  unfold State.mbSideReset
  dsimp only
  split
  · rfl
  split
  · split
    · exact board_mbEvent ..
    · rfl
  split <;> rfl

theorem board_mbReset (s : State) (l : List Ident) : (s.mbReset l).board = s.board := by
  rw [mbReset_eq]
  exact foldl_keeps State.board (fun s b => foldl_keeps State.board (fun s a => board_mbSideReset s l b a) _ s) _ s

theorem board_cicCoreReset (s : State) (k : Nat) : (s.cicCoreReset k).board = s.board := by
  unfold State.cicCoreReset
  refine foldl_keeps State.board (fun s i => ?_) _ s
  dsimp only
  split
  · rfl
  split
  · rfl
  split <;> rfl

theorem board_forgetCore (s : State) (k : Nat) : (s.forgetCore k).board = s.board := by
  unfold State.forgetCore
  exact foldl_keeps State.board (fun s w => board_forget s (.core k w)) _ s

theorem board_leaveCore (s : State) (k : Nat) : (s.leaveCore k).board = s.board := by
  unfold State.leaveCore
  rw [board_mbReset, board_cicCoreReset, board_forgetCore]

theorem board_modCore (s : State) (k : Nat) (f : Core → Core) : (s.modCore k f).board = s.board := rfl

theorem board_coreInReset (s : State) (k : Nat) : (s.coreInReset k).board = s.board := by
  rw [coreInReset_eq, board_modCore, State.wdPause, board_modCore, board_leaveCore]

/-! ## All cores in reset (R502) -/

/-- R502: the reset of core `k` by a function-wide reset. -/
def State.resetCore (s : State) (k : Nat) : State :=
  (s.coreInReset k).modCore k fun c =>
    { c with resetBit := true, halted := false, wdCtrl := c.wdCtrl &&& ~~~1, wdAt := none, wdLeft := none, wdActive := 0 }

theorem resetCores_eq (s : State) : s.resetCores = (List.range 4).foldl State.resetCore s := rfl

theorem resetCore_frame (s : State) (k : Nat) : (s.resetCore k).board = s.board ∧ (s.resetCore k).mem = s.mem ∧ (s.resetCore k).fc = s.fc := by
  unfold State.resetCore
  rw [board_modCore, modCore_mem, modCore_fc]
  exact ⟨board_coreInReset .., coreInReset_mem .., coreInReset_fc ..⟩

theorem resetCores_frame (s : State) : s.resetCores.board = s.board ∧ s.resetCores.mem = s.mem ∧ s.resetCores.fc = s.fc := by
  rw [resetCores_eq]
  exact ⟨foldl_keeps State.board (f := State.resetCore) (fun s k => (resetCore_frame s k).1) _ s,
    foldl_keeps State.mem (f := State.resetCore) (fun s k => (resetCore_frame s k).2.1) _ s,
    foldl_keeps State.fc (f := State.resetCore) (fun s k => (resetCore_frame s k).2.2) _ s⟩

/-- A core as a function-wide reset leaves it; `v` is its CORE_RESETVEC. -/
def Core.Reset (c : Core) (v : Word) : Prop := c.st = .inReset ∧ c.dcache = [] ∧ c.resv = none ∧ c.resetVec = v

theorem resetCore_own (s : State) (k : Nat) : ((s.resetCore k).core k).Reset (s.core k).resetVec := by
  obtain ⟨a, l, h⟩ := coreInReset_core s k
  unfold State.resetCore
  rw [modCore_core, h]
  exact ⟨rfl, rfl, rfl, rfl⟩

theorem resetCore_other (s : State) {j k : Nat} (h : j ≠ k) : (s.resetCore k).core j = s.core j :=
  (modCore_other _ _ h).trans (coreInReset_other s h)

theorem resetCores_core (s : State) {k : Nat} (h : k < 4) : (s.resetCores.core k).Reset (s.core k).resetVec := by
  rw [resetCores_eq]
  refine foldl_reaches (f := State.resetCore) (P := fun x => (x.core k).Reset (s.core k).resetVec) (Q := fun x => (x.core k).resetVec = (s.core k).resetVec) (i := k)
    (fun x j hx => ?_) (fun x hx => hx ▸ resetCore_own x k) (fun x j hj hx => ?_) (List.mem_range.2 h) rfl
  · by_cases hj : k = j
    · subst hj
      have hv : (x.core k).resetVec = (s.core k).resetVec := hx.2.2.2
      exact hv ▸ resetCore_own x k
    · rw [resetCore_other x hj]
      exact hx
  · rw [resetCore_other x (Ne.symm hj)]
    exact hx

/-! ## All pins at rest (R359) -/

/-- Pin `p` and its unit once `s` has come to rest. -/
def State.AtRest (s : State) (p : Nat) (x : State) : Prop :=
  (x.pin p).onSince = none ∧ (x.pin p).hold = false ∧ (s.isInput p = false → (x.ou p).drive = !s.onLevel p) ∧ (x.ou p).holder = none ∧
    (x.ou p).clamps = (s.ou p).clamps

theorem restUnit_other (s : State) {j : Nat} (h : p ≠ j) : (s.restUnit j).pin p = s.pin p ∧ (s.restUnit j).ou p = s.ou p :=
  ⟨tget_tput_ne _ _ _ h, tget_tput_ne _ _ _ h⟩

/-- R359: the output unit of a pin that comes to rest. -/
def State.restOu (s : State) (p : Nat) : OutUnit :=
  { drive := !s.isInput p && !s.onLevel p, lastCause := (s.ou p).lastCause, clamps := (s.ou p).clamps,
    edgeT := if (s.pin p).onSince.isSome then s.now else (s.ou p).edgeT, clampT := (s.ou p).clampT }

theorem restUnit_own {x : State} (hl : x.lws = s.lws) (hc : (x.ou p).clamps = (s.ou p).clamps) : s.AtRest p (x.restUnit p) := by
  have hpin : (x.restUnit p).pin p = { (x.pin p).rest x.now with hold := false } := tget_tput_self ..
  have hou : (x.restUnit p).ou p = x.restOu p := tget_tput_self ..
  obtain ⟨hin, hon⟩ := pinWords_of_lws hl p
  unfold State.AtRest
  rw [hpin, hou, ← hc, ← hin, ← hon]
  refine ⟨?_, rfl, fun h => ?_, rfl, rfl⟩
  · unfold Pin.rest
    cases h : (x.pin p).onSince with
    | none => exact h
    | some a => rfl
  · unfold State.restOu
    rw [h]
    rfl

theorem restUnits_spec (s : State) (h : p < 128) : s.AtRest p s.restUnits := by
  unfold State.restUnits
  refine (foldl_reaches (f := State.restUnit) (P := fun x => x.lws = s.lws ∧ s.AtRest p x) (Q := fun x => x.lws = s.lws ∧ (x.ou p).clamps = (s.ou p).clamps) (i := p)
    (fun x j hx => ⟨hx.1, ?_⟩) (fun x hx => ⟨hx.1, restUnit_own hx.1 hx.2⟩) (fun x j hj hx => ⟨hx.1, ?_⟩) (List.mem_range.2 h) ⟨rfl, rfl⟩).2
  · by_cases hj : p = j
    · subst hj
      obtain ⟨-, -, -, -, hc⟩ := hx.2
      exact restUnit_own hx.1 hc
    · obtain ⟨hp, ho⟩ := restUnit_other x hj
      unfold State.AtRest
      rw [hp, ho]
      exact hx.2
  · rw [(restUnit_other x (Ne.symm hj)).2]
    exact hx.2

theorem restUnits_frame (s : State) : s.restUnits = { s with outs := s.restUnits.outs } := by
  unfold State.restUnits
  refine List.foldlRecOn (motive := fun x : State => x = { s with outs := x.outs }) _ _ rfl fun x h j _ => ?_
  rw [h]
  rfl

/-! ## A function-wide reset (R502) -/

/-- What comes to rest in a function-wide reset before the blocks are cleared. -/
def State.resetRests (s : State) : State := (((s.mbReset funcSides).resetCores).restUnits).lockKey

theorem functionReset_eq (s : State) (c w : Nat) : s.functionReset c w = { s.resetRests with
    axes := {}, cmps := [], caps := [], chans := [], sched := {}, movers := { pcie := s.resetRests.movers.pcie }, queues := {}, xl := {},
    net := {}, und := {}, mem := s.resetRests.mem.resetCounters,
    irq := { msixEn := s.resetRests.irq.msixEn, funcMask := s.resetRests.irq.funcMask, bme := s.resetRests.irq.bme, link := s.resetRests.irq.link },
    latches := s.resetRests.latches.filter (fun p => keptLatch (p.1 % 2 ^ 22)),
    rst := { s.resetRests.rst with cause := s.resetRests.rst.cause ||| BitVec.ofNat 6 (1 <<< c), busy := true,
                                   readyAt := max s.resetRests.rst.readyAt (s.resetRests.now + w) } } := rfl

/-- The state that `s` has come to once mailboxes and cores are reset: the pins still to be rested. -/
structure Reached (s y : State) : Prop where
  kept : Kept s y
  mem : y.mem = s.mem
  fc : y.fc = s.fc
  outs : y.outs = s.outs
  link : y.irq.link = s.irq.link
  cores : ∀ k < 4, (y.core k).Reset (s.core k).resetVec

theorem mbReset_resetCores_reached (s : State) : Reached s (s.mbReset funcSides).resetCores := by
  have hk := kept_mbReset (x1 := funcSides) (.refl s)
  have hm := CoresRest.mbReset s funcSides
  have hb := board_mbReset s funcSides
  generalize s.mbReset funcSides = y at *
  obtain ⟨hyb, hmem, hfc⟩ := resetCores_frame y
  have hboard : y.resetCores.board = s.board := hyb.trans hb
  refine ⟨kept_resetCores hk, hmem.trans hm.mem, hfc.trans hm.fc, board_outs hboard, board_link hboard, fun k h => ?_⟩
  rw [← hm.core k]
  exact resetCores_core y h

theorem AtRest_of {y x : State} (hl : y.lws = s.lws) (ho : y.outs = s.outs) (h : y.AtRest p x) : s.AtRest p x := by
  obtain ⟨hin, hon⟩ := pinWords_of_lws hl p
  have hou : y.ou p = s.ou p := by rw [State.ou, ho, State.ou]
  unfold State.AtRest at h ⊢
  rw [hin, hon, hou] at h
  exact h

theorem AtRest_lockKey {x : State} (h : s.AtRest p x) : s.AtRest p x.lockKey := h

theorem rested_spec {y x : State} (h : Reached s y) (hx : y.restUnits.lockKey = x) : x.now = s.now ∧ x.rst = s.rst ∧ x.mem = s.mem ∧ x.lws = s.lws ∧
    x.boot = s.boot ∧ x.irq.link = s.irq.link ∧ x.fc = { s.fc with half := none, test := false, force := 0 } ∧ (∀ p < 128, s.AtRest p x) ∧
    ∀ k < 4, (x.core k).Reset (s.core k).resetVec := by
  have hpins (p : Nat) (hp : p < 128) : s.AtRest p x := by
    rw [← hx]
    exact AtRest_lockKey (AtRest_of h.kept.lws h.outs (restUnits_spec y hp))
  rw [restUnits_frame y] at hx
  generalize y.restUnits.outs = o at hx
  subst hx
  refine ⟨h.kept.now, h.kept.rst, h.mem, h.kept.lws, h.kept.boot, h.link, ?_, hpins, h.cores⟩
  rw [← h.fc]
  rfl

theorem resetRests_spec (s : State) {x : State} (hx : s.resetRests = x) : x.now = s.now ∧ x.rst = s.rst ∧ x.mem = s.mem ∧ x.lws = s.lws ∧
    x.boot = s.boot ∧ x.irq.link = s.irq.link ∧ x.fc = { s.fc with half := none, test := false, force := 0 } ∧ (∀ p < 128, s.AtRest p x) ∧
    ∀ k < 4, (x.core k).Reset (s.core k).resetVec := rested_spec (mbReset_resetCores_reached s) hx

/-- R502: what a function-wide reset leaves of the part. -/
structure ResetDone (s u : State) (c w : Nat) : Prop where
  blocks : u.chans = [] ∧ u.axes = {} ∧ u.cmps = [] ∧ u.caps = [] ∧ u.queues = {} ∧ u.xl = {} ∧ u.net = {} ∧ u.und = {} ∧
    u.irq.vecs = [] ∧ u.irq.srcs = []
  mem : u.mem.sram = s.mem.sram ∧ u.mem.tcm = s.mem.tcm
  kept : u.lws = s.lws ∧ u.boot = s.boot ∧ u.irq.link = s.irq.link
  fc : u.fc.latch = s.fc.latch ∧ u.fc.trail = s.fc.trail ∧ u.fc.safe = s.fc.safe ∧ u.fc.test = false ∧ u.fc.force = 0
  rst : u.rst = { s.rst with cause := s.rst.cause ||| BitVec.ofNat 6 (1 <<< c), busy := true, readyAt := max s.rst.readyAt (s.now + w) }
  pins : ∀ p < 128, s.AtRest p u
  cores : ∀ k < 4, (u.core k).Reset (s.core k).resetVec

theorem functionReset_done (s : State) (c w : Nat) : ResetDone s (s.functionReset c w) c w := by
  obtain ⟨hnow, hrst, hmem, hlws, hboot, hlink, hfc, hpins, hcores⟩ := resetRests_spec s rfl
  rw [functionReset_eq]
  generalize s.resetRests = x at *
  refine ⟨⟨rfl, rfl, rfl, rfl, rfl, rfl, rfl, rfl, rfl, rfl⟩, ?_, ⟨hlws, hboot, hlink⟩, ?_, ?_, hpins, hcores⟩
  · rw [← hmem]
    exact ⟨rfl, rfl⟩
  · dsimp only
    rw [hfc]
    exact ⟨rfl, rfl, rfl, rfl, rfl⟩
  · dsimp only
    rw [hrst, hnow]

theorem cause_bit (r : BitVec 6) {c : Nat} (h : c < 6) : (r ||| BitVec.ofNat 6 (1 <<< c)).getLsbD c = true := by
  rw [BitVec.getLsbD_or, BitVec.getLsbD_ofNat, decide_eq_true h, Nat.one_shiftLeft, Nat.testBit_two_pow_self]
  exact Bool.or_true _

/-! ## The start (R498) -/

/-- R498 stages 2 and 3: the store is read, and the part goes to boot. -/
def State.storeRead (s : State) : State :=
  { s with lws := s.lws.restart, boot := { s.boot with st := 1, hash := s.boot.keyhash },
           rst := { s.rst with por := false, resetN := false, resetHeld := false, fenceRead := true, spoiledRead := s.lws.anySpoiled,
                               busy := s.rst.perst } }

theorem startUp_eq (s : State) : s.startUp = (if s.lws.anySpoiled then s.storeRead.startOuts.report 148 else s.storeRead.startOuts).setFaultN := rfl

/-- R355: a permit input is taken as deasserted. -/
def State.permitStart (s : State) (i : Nat) : State := s.setPermitIn i { rawT := s.now, level := !s.permitHigh i }

theorem startOuts_eq (s : State) : s.startOuts = (List.range 8).foldl State.permitStart s.restUnits := rfl

theorem permitStart_accepted (s : State) (i j : Nat) (h : j = i ∨ (s.permitIn j).accepted = false) : ((s.permitStart i).permitIn j).accepted = false := by
  unfold State.permitStart
  rw [State.setPermitIn_permitIn]
  split
  · rfl
  · next hj => exact h.resolve_left hj

theorem startOuts_permits (s : State) {i : Nat} (h : i < 8) : (s.startOuts.permitIn i).accepted = false := by
  rw [startOuts_eq]
  exact foldl_reaches (f := State.permitStart) (P := fun x => (x.permitIn i).accepted = false) (Q := fun _ => True) (i := i)
    (fun x j hx => permitStart_accepted x j i (.inr hx)) (fun x _ => permitStart_accepted x i i (.inl rfl)) (fun _ _ _ h => h)
    (List.mem_range.2 h) trivial

theorem startOuts_pins (s : State) (h : p < 128) : s.AtRest p s.startOuts := by
  have hr := restUnits_spec s h
  rw [startOuts_eq]
  exact List.foldlRecOn (motive := fun x : State => s.AtRest p x) _ _ hr fun x h _ _ => h

theorem startOuts_frame (s : State) : s.startOuts = { s with outs := s.startOuts.outs } := by
  rw [startOuts_eq]
  refine List.foldlRecOn (motive := fun x : State => x = { s with outs := x.outs }) _ _ (restUnits_frame s) fun x h j _ => ?_
  rw [h]
  rfl

/-- R498: what a start makes of the part. -/
theorem startUp_spec (s : State) {u : State} (hu : s.startUp = u) :
    u = { s.storeRead with outs := u.outs, fc := { s.fc with raised := u.fc.raised, faultN := u.fc.faultN } } ∧
    (∀ p < 128, s.storeRead.AtRest p u) ∧ ∀ i < 8, (u.permitIn i).accepted = false := by
  have hpins (p : Nat) (h : p < 128) := startOuts_pins s.storeRead h
  have hpermits (i : Nat) (h : i < 8) := startOuts_permits s.storeRead h
  have hframe := startOuts_frame s.storeRead
  rw [startUp_eq] at hu
  generalize s.storeRead.startOuts = x at *
  subst hu
  refine ⟨?_, fun p h => ?_, fun i h => ?_⟩
  · split <;> (rw [hframe]; rfl)
  · split <;> exact hpins p h
  · split <;> exact hpermits i h

/-- R498, R359, R355: after a start every pin rests and every permit input is taken as deasserted. -/
theorem startUp_rests (s : State) {u : State} (hu : s.startUp = u) :
    (∀ p < 128, (u.pin p).onSince = none ∧ (u.pin p).hold = false ∧ (u.isInput p = false → (u.ou p).drive = !u.onLevel p)) ∧
    ∀ i < 8, (u.permitIn i).accepted = false := by
  obtain ⟨heq, hpins, hpermits⟩ := startUp_spec s hu
  have hlws : u.lws = s.storeRead.lws := by rw [heq]
  refine ⟨fun p hp => ?_, hpermits⟩
  obtain ⟨hoff, hhold, hdrive, -⟩ := hpins p hp
  obtain ⟨hin, hon⟩ := pinWords_of_lws hlws p
  rw [hin, hon]
  exact ⟨hoff, hhold, hdrive⟩

/-! ## Function-wide resets by PERST_N, FLR and register (R500 to R503) -/

section
variable (hd : s.dead = false)
include hd

theorem perst_falls (hp : s.rst.perst = false) : s.perst false =
    { s.functionReset 2 0 with rst := { (s.functionReset 2 0).rst with perst := true }, irq := {}, movers := {} } :=
  (if_neg (Bool.eq_false_iff.1 hp)).trans (if_neg (Bool.eq_false_iff.1 hd))

theorem perst_rises (hp : s.rst.perst = true) : s.perst true =
    { s with rst := { s.rst with perst := false, readyAt := max s.rst.readyAt (s.now + 8000) } } := by
  have hn : ¬(!s.rst.perst) = true := by rw [hp]; exact Bool.false_ne_true
  exact (if_neg hn).trans (if_neg (Bool.eq_false_iff.1 hd))

end

theorem perst_same {b : Bool} (hp : s.rst.perst = !b) : s.perst b = s := by
  cases b with
  | true =>
    have hlow : (!s.rst.perst) = true := by rw [hp]; rfl
    exact if_pos hlow
  | false => exact if_pos hp

theorem flr_resets (hp : s.rst.perst = false) : s.flr =
    { s.functionReset 3 80000 with irq := { link := (s.functionReset 3 80000).irq.link }, movers := { pcie := ((s.functionReset 3 80000).movers.pcie &&& 7) ||| 0x20 } } :=
  if_neg (Bool.eq_false_iff.1 hp)

theorem funcReset_eq (v : Word) : s.funcReset v = if bit v 0 = true ∧ fld v 16 16 = 0xC1EA then s.functionReset 4 16000 else s := by
  unfold State.funcReset
  refine if_congr ?_ rfl rfl
  rw [Bool.and_eq_true, decide_eq_true_eq]

theorem resetReady_over (h : s.rst.busy = true ∧ s.rst.perst = false ∧ s.rst.readyAt ≤ s.now) : s.resetReady =
    if s.boot.st = 4 then ({ s with rst := { s.rst with busy := false } } : State).releaseCore0 else { s with rst := { s.rst with busy := false } } := by
  refine if_pos ?_
  rw [h.1, h.2.1]
  exact decide_eq_true h.2.2

theorem resetReady_waits (h : s.rst.busy = false ∨ s.rst.perst = true ∨ s.now < s.rst.readyAt) : s.resetReady = s := by
  refine if_neg fun hc => ?_
  rw [Bool.and_eq_true, Bool.and_eq_true, Bool.not_eq_true', decide_eq_true_eq] at hc
  obtain ⟨⟨hb, hp⟩, ht⟩ := hc
  rcases h with h | h | h
  · exact Bool.noConfusion (hb.symm.trans h)
  · exact Bool.noConfusion (hp.symm.trans h)
  · exact absurd ht (Nat.not_le.2 h)

theorem releaseCore0_rst (s : State) : s.releaseCore0.rst = s.rst := by
  unfold State.releaseCore0
  split
  · rfl
  · rfl

theorem releaseCore0_core (h : (s.core 0).st = .inReset) : (s.releaseCore0.core 0).st = .run ∧ (s.releaseCore0.core 0).pc = (s.core 0).resetVec := by
  obtain ⟨a, l, hg⟩ := coreGo_core s 0
  have heq : s.releaseCore0 = s.coreGo 0 := if_pos h
  rw [heq, hg]
  exact ⟨rfl, rfl⟩

/-! ## RESET_N (R500, R505) -/

theorem resetPin_short {w : Nat} (h : s.dead = true ∨ w < 800) : s.resetPin w = s := by
  refine if_pos ?_
  rw [Bool.or_eq_true, decide_eq_true_eq]
  exact h

theorem resetPin_long {w : Nat} (hd : s.dead = false) (hw : 8000 ≤ w) : s.resetPin w =
    if s.lws.commit.isSome then { s.bare with lws := { s.bare.lws with commit := s.lws.commit }, rst := { s.bare.rst with resetN := true, resetHeld := true } }
    else s.pinReset := by
  unfold State.resetPin
  have hshort : ¬(s.dead || decide (w < ns 100)) = true := by
    rw [hd, Bool.false_or, decide_eq_true_eq]
    exact Nat.not_lt.2 (Nat.le_trans (by decide) hw)
  have hlong : us 1 ≤ w := hw
  rw [if_neg hshort, if_pos hlong, decide_eq_false (Nat.not_lt.2 hlong), Bool.false_and, if_neg Bool.false_ne_true]

theorem commitEnd_held {rb : Bool} (hh : s.rst.resetHeld = true) (hc : s.lws.commit ≠ none) : s.commitEnd rb = (s.lwsFinish rb).pinReset := by
  refine (if_neg ?_).trans (if_pos hh)
  rw [Option.isNone_iff_eq_none]
  exact hc

/-! ## The link (R498) -/

theorem linkChange_held {cfg : PcieCfg} {b : Bool} (hp : s.rst.perst = true) : s.linkChange b cfg = s := if_pos hp

theorem linkChange_spec {cfg : PcieCfg} {b : Bool} (hp : s.rst.perst = false) {x : State} (hx : s.linkChange b cfg = x) :
    x.irq.link = b ∧ x.irq.vecs = s.irq.vecs ∧ x.chans = s.chans ∧
      (b = true → x.irq.bme = cfg.busMaster ∧ x.irq.msixEn = cfg.msixEnable ∧ x.irq.funcMask = cfg.funcMask) ∧
      (b = false → x.irq.bme = s.irq.bme ∧ x.movers = s.movers) := by
  subst hx
  rw [State.linkChange, if_neg (Bool.eq_false_iff.1 hp)]
  cases b with
  | true => exact ⟨rfl, rfl, rfl, fun _ => ⟨rfl, rfl, rfl⟩, fun h => absurd h.symm Bool.false_ne_true⟩
  | false => exact ⟨rfl, rfl, rfl, fun h => absurd h Bool.false_ne_true, fun _ => ⟨rfl, rfl⟩⟩

end

/-- Settles O48: what each reset clears and what it keeps, by the frames of the pins, the cores and the store. -/
theorem resetsKeepWhatTheyMust : Obligations.ResetsKeepWhatTheyMust := by
  unfold Obligations.ResetsKeepWhatTheyMust
  refine ⟨fun s c w hc => ?_, fun t s => ⟨fun hd hp => ?_, fun hd hp => ?_, fun b hp => ?_, fun hd hp => ?_, fun hd hp => ?_⟩, fun t m v s hs => ?_,
    fun t s hd => ⟨fun hb hp hr => ?_, fun h => ?_⟩, fun t s => ?_, fun t b s => ⟨fun hp => ?_, fun hp => ?_⟩,
    fun t w s => ⟨fun h => ?_, fun hd hw hc => ?_, fun hd hw hc => ?_, fun rb hh hc => ?_⟩, fun t up cfg s hd => ⟨fun hp => ?_, fun hp => ?_⟩⟩
  case refine_1 =>
    have h := functionReset_done s c w
    generalize s.functionReset c w = u at h
    obtain ⟨⟨hch, hax, hcm, hca, hq, hx, hn, hun, hv, hsr⟩, ⟨hsram, htcm⟩, ⟨hlws, hboot, -⟩, ⟨hl, htr, hsafe, htest, hforce⟩, hrst, hpins, hcores⟩ := h
    exact ⟨u, rfl, hch, hax, hcm, hca, hq, hx, hn, hun, hv, hsr, hsram, htcm, hlws, hboot, hl, htr, hsafe, htest, hforce, by rw [hrst],
      by rw [hrst]; exact cause_bit _ hc, by rw [hrst], hpins, hcores⟩
  case refine_2 =>
    have h := functionReset_done (s.arrive t) 2 0
    have hexec : exec (.perstN t false) s = .next _ := congrArg Host.Outcome.next (perst_falls (s := s.arrive t) hd hp)
    rw [hexec]
    generalize (s.arrive t).functionReset 2 0 = u at h
    refine ⟨_, rfl, rfl, congrArg Rst.busy h.rst, ?_, h.blocks.1, h.mem.1, h.kept.1, rfl⟩
    change u.rst.cause.getLsbD 2 = true
    rw [h.rst]
    exact cause_bit _ (by decide)
  case refine_3 => exact congrArg Host.Outcome.next (perst_rises (s := s.arrive t) hd hp)
  case refine_4 => exact congrArg Host.Outcome.next (perst_same (s := s.arrive t) hp)
  case refine_5 => exact (liveEvent_live (f := State.flr) hd).trans (congrArg _ (if_pos hp))
  case refine_6 =>
    have h := functionReset_done (s.arrive t) 3 80000
    have hexec : exec (.flr t) s = .next _ := (liveEvent_live (f := State.flr) hd).trans (congrArg Host.Outcome.next (flr_resets (s := s.arrive t) hp))
    rw [hexec]
    generalize (s.arrive t).functionReset 3 80000 = u at h
    refine ⟨_, rfl, congrArg Rst.busy h.rst, ?_, h.blocks.1, congrArg Rst.readyAt h.rst, h.mem.1, h.kept.1, ?_⟩
    · change u.rst.cause.getLsbD 3 = true
      rw [h.rst]
      exact cause_bit _ (by decide)
    · exact congrArg (fun b => ({ link := b } : Irq)) h.kept.2.2
  case refine_7 => exact (regWrite_serves (f := fun s => s.funcReset v) hs).trans (congrArg _ (funcReset_eq v))
  case refine_8 =>
    have hexec : exec (.functionResetReady t) s = .next _ := (liveEvent_live (f := State.resetReady) hd).trans
      (congrArg Host.Outcome.next (resetReady_over (s := s.arrive t) ⟨hb, hp, hr⟩))
    rw [hexec]
    by_cases h4 : (s.arrive t).boot.st = 4
    · rw [if_pos h4]
      exact ⟨_, rfl, releaseCore0_rst _, fun h => absurd h4 h, fun _ hr => releaseCore0_core hr⟩
    · rw [if_neg h4]
      exact ⟨_, rfl, rfl, fun _ => rfl, fun h => absurd h h4⟩
  case refine_9 => exact (liveEvent_live (f := State.resetReady) hd).trans (congrArg _ (resetReady_waits (s := s.arrive t) h))
  case refine_10 => exact ⟨_, rfl, rfl, rfl, rfl, rfl, rfl, rfl, rfl, rfl, rfl, rfl, rfl, rfl, rfl⟩
  case refine_11 => exact congrArg Host.Outcome.next (if_neg (Bool.eq_false_iff.1 hp))
  case refine_12 =>
    have hexec : exec (.powerOnRelease t b) s = .next _ := congrArg Host.Outcome.next (if_pos hp)
    rw [hexec]
    generalize hu : State.startUp _ = u
    obtain ⟨hpins, hpermits⟩ := startUp_rests _ hu
    obtain ⟨heq, -, -⟩ := startUp_spec _ hu
    exact ⟨u, rfl, by rw [heq]; rfl, by rw [heq]; rfl, by rw [heq]; rfl, by rw [heq]; rfl, by rw [heq]; rfl, by rw [heq]; rfl, by rw [heq]; rfl,
      by rw [heq]; rfl, hpins, hpermits⟩
  case refine_13 => exact congrArg Host.Outcome.next (resetPin_short (s := s.arrive t) h)
  case refine_14 =>
    have hnone : (s.arrive t).lws.commit.isSome = false := by
      change s.lws.commit.isSome = false
      rw [hc]
      rfl
    have hexec : exec (.resetN t w) s = .next _ := congrArg Host.Outcome.next ((resetPin_long (s := s.arrive t) hd hw).trans (if_neg (Bool.eq_false_iff.1 hnone)))
    rw [hexec, State.pinReset]
    generalize hu : State.startUp _ = u
    obtain ⟨heq, -, -⟩ := startUp_spec _ hu
    exact ⟨u, rfl, by rw [heq]; rfl, by rw [heq]; rfl, by rw [heq]; rfl, by rw [heq]; rfl, by rw [heq]; rfl, by rw [heq]; rfl, by rw [heq]; rfl,
      by rw [heq]; rfl, by rw [heq]; rfl, by rw [heq]; rfl, by rw [heq]; rfl, by rw [heq]; rfl, by rw [heq]; rfl⟩
  case refine_15 =>
    have hsome : (s.arrive t).lws.commit.isSome = true := Option.isSome_iff_ne_none.2 hc
    have hexec : exec (.resetN t w) s = .next _ := congrArg Host.Outcome.next ((resetPin_long (s := s.arrive t) hd hw).trans (if_pos hsome))
    exact ⟨_, hexec, rfl, rfl, rfl, rfl, rfl⟩
  case refine_16 => exact congrArg Host.Outcome.next (commitEnd_held (s := s.arrive t) hh hc)
  case refine_17 => exact (liveEvent_live (f := fun s => s.linkChange up cfg) hd).trans (congrArg _ (linkChange_held (s := s.arrive t) hp))
  case refine_18 => exact ⟨_, liveEvent_live (f := fun s => s.linkChange up cfg) hd, linkChange_spec (s := s.arrive t) hp rfl⟩

end Sys2Proof.Machine
end


section

/-! PROOFS. The command fetcher: the current group, the groups ahead and fragment entries (O52). -/

namespace Sys2Proof.Machine

section
variable {s s1 : State} {c a n : Nat} {m : HostMem} {h : Chan} {sp : Span} {b : List Byte}

/-! ## Which fetch returns (R137) -/

theorem groupFetch_idle (hf : (s.chan c).st.fetches = false) : s.groupFetch c m = s := by
  refine if_pos ?_
  rw [hf]
  rfl

section
variable (hc : s.chan c = h) (hf : h.st.fetches = true)
include hc hf

theorem groupFetch_frag (hsp : h.fragSpan = some sp) : s.groupFetch c m = s.fetchFrag c sp m := by
  unfold State.groupFetch
  rw [hc]
  dsimp only
  rw [hf, hsp]
  rfl

theorem groupFetch_current (hsp : h.fragSpan = none) (ha : h.act = .fetch) : s.groupFetch c m = s.fetchCurrent c m := by
  unfold State.groupFetch
  rw [hc]
  dsimp only
  rw [hf, hsp]
  exact if_pos ha

theorem groupFetch_ahead (hsp : h.fragSpan = none) (ha : h.act ≠ .fetch) :
    s.groupFetch c m = if h.wantsAhead = true ∧ s.aheadOpen h = true then s.fetchAhead c m else s := by
  unfold State.groupFetch
  rw [hc]
  dsimp only
  rw [hf, hsp]
  refine (if_neg ha).trans (if_congr ?_ rfl rfl)
  rw [Bool.and_eq_true]

end

theorem wantsAhead_iff : h.wantsAhead = true ↔ h.ahead.length < (if h.act = .bracket then 9 else 4) ∧ h.aheadStop = false ∧ h.nextFetch ≠ none := by
  unfold Chan.wantsAhead Chan.aheadMax
  rw [Bool.and_eq_true, Bool.and_eq_true, decide_eq_true_eq, Bool.not_eq_true', Option.isSome_iff_ne_none, and_assoc]

/-! ## A group fetched ahead (R137, R168) -/

section
variable (hc : s.chan c = h) (hsp : h.nextFetch = some sp)
include hc hsp

theorem fetchAhead_eq : s.fetchAhead c m = match s.fetchGroup c sp m with
    | (.bytes b, s) =>
      let s := (s.fetchOver c).modChan c fun h => { h with ahead := h.ahead ++ [(grpKey sp.2 sp.1, parseGroup b)] }
      if h.act = .bracket then s.bracketCheck c else s
    | (.pending, s) => s
    | (r, s) =>
      let s := s.fetchOver c
      if h.act = .bracket then s.bracketFails c r else s.modChan c fun h => { h with aheadStop := true } := by
  unfold State.fetchAhead
  rw [hc]
  dsimp only
  rw [hsp] <;> rfl

theorem fetchAhead_fails {r : Fetched} (he : s.fetchGroup c sp m = (r, s1)) (hb : ∀ b, r ≠ .bytes b) (hp : r ≠ .pending) :
    s.fetchAhead c m = if h.act = .bracket then (s1.fetchOver c).bracketFails c r
      else (s1.fetchOver c).modChan c fun h => { h with aheadStop := true } := by
  rw [fetchAhead_eq hc hsp, he]
  cases r with
  | bytes b => exact absurd rfl (hb b)
  | pending => exact absurd rfl hp
  | fault f => rfl
  | bus => rfl
  | protect => rfl

end

/-! ## One piece of a fetch (R22, R228, R229, R469) -/

theorem fetchAt_protect {acc : Access} (hp : (s.dom (s.chan c).domain).phyOk = false ∨ sramSize < a + n) :
    s.fetchAt c (true, a) n acc m = (.protect, s) := by
  refine (if_pos rfl).trans (if_pos ?_)
  rw [Bool.or_eq_true, Bool.not_eq_true', decide_eq_true_eq]
  exact hp

theorem fetchAt_sram {acc : Access} (hp : (s.dom (s.chan c).domain).phyOk = true) (ha : a + n ≤ sramSize) :
    s.fetchAt c (true, a) n acc m = s.fetchPiece c { ofs := 0, len := n, phy := true, addr := a } m := by
  refine (if_pos rfl).trans (if_neg ?_)
  rw [hp, Bool.not_true, Bool.false_or, decide_eq_true_eq]
  exact Nat.not_lt.2 ha

section
variable {g : Seg}

theorem fetchPiece_locked (hg : g.phy = true) (hl : s.beatLocked (some c) g.addr g.len = true) : s.fetchPiece c g m = (.pending, s) :=
  (if_pos hg).trans (if_pos hl)

/-- The reissued reads of a word that stays uncorrectable. -/
def State.rereads (s : State) (a n k : Nat) : State := (List.range k).foldl (fun s _ => (s.sramRead a n).2) s

theorem rereads_readOnly (s : State) (a n k : Nat) : ReadOnly s (s.rereads a n k) := foldl_readOnly (fun s _ => sramRead_readOnly s a n) _ s

theorem rereads_movers (s : State) (a n k : Nat) : (s.rereads a n k).movers = s.movers := by
  unfold State.rereads
  refine foldl_keeps State.movers (fun s _ => ?_) _ s
  unfold State.sramRead
  split
  · rfl
  · dsimp only
    split <;> rfl

section
variable (hg : g.phy = true) (hl : s.beatLocked (some c) g.addr g.len = false)
include hg hl

theorem fetchPiece_sound (hb : s.badWord g.addr g.len = none) :
    ∃ u, s.fetchPiece c g m = (.bytes (s.sramBytes g.addr g.len), u) ∧ ReadOnly s u := by
  obtain ⟨u, hr, hro⟩ := sramRead_whole hb
  have hnone : (s.badWord g.addr g.len).isNone = true := by rw [hb]; rfl
  refine ⟨u, (if_pos hg).trans ((if_neg (Bool.eq_false_iff.1 hl)).trans ((if_pos hnone).trans ?_)), hro⟩
  rw [hr]
  rfl

theorem fetchPiece_bad (hb : s.badWord g.addr g.len ≠ none) : s.fetchPiece c g m =
    (.bus, (s.rereads g.addr g.len ((s.chan c).retryN - (s.chan c).tries + 1)).refetch c ((s.chan c).retryN - (s.chan c).tries) 0) := by
  have hsome : ¬(s.badWord g.addr g.len).isNone = true := by rw [Option.isNone_iff_eq_none]; exact hb
  exact (if_pos hg).trans ((if_neg (Bool.eq_false_iff.1 hl)).trans (if_neg hsome))

end

theorem refetch_eq (s : State) (c k r : Nat) : s.refetch c k r =
    ({ s with movers := { s.movers with retry := s.movers.retry + BitVec.ofNat 32 k } } : State).setChan c { s.chan c with tries := r } := rfl

theorem fetchPiece_down (hg : g.phy = false) (hd : s.irq.link = false) :
    s.fetchPiece c g m = (.bus, s.refetch c ((s.chan c).retryN - (s.chan c).tries) 0) := by
  refine (if_neg (Bool.eq_false_iff.1 hg)).trans (if_pos ?_)
  rw [hd]
  rfl

theorem fetchPiece_up (hg : g.phy = false) (hu : s.irq.link = true) : s.fetchPiece c g m = match m with
    | .data x => (.bytes (slice x g.ofs g.len), s)
    | .fail => if (s.chan c).tries < (s.chan c).retryN then (.pending, s.refetch c 1 ((s.chan c).tries + 1)) else (.bus, s.refetch c 0 0) := by
  refine (if_neg (Bool.eq_false_iff.1 hg)).trans (if_neg ?_)
  rw [hu]
  exact Bool.false_ne_true

end

/-! ## The words of a group (R119, R120) -/

/-- The command word of a group. -/
def headGroup (b : List Byte) : Group :=
  { w0 := BitVec.ofNat 32 (num b 0 4), w1 := BitVec.ofNat 32 (num b 4 4), w2 := BitVec.ofNat 32 (num b 8 4), w3 := BitVec.ofNat 32 (num b 12 4) }

/-- A group with the operand word that follows its command word. -/
def Group.withOperand (g : Group) (b : List Byte) : Group :=
  { g with o0 := BitVec.ofNat 32 (num b 16 4), o1 := BitVec.ofNat 32 (num b 20 4), o2 := BitVec.ofNat 32 (num b 24 4), o3 := BitVec.ofNat 32 (num b 28 4) }

/-- A group with the stamp at byte `o`. -/
def Group.withStamp (g : Group) (b : List Byte) (o : Nat) : Group :=
  { g with s4 := BitVec.ofNat 32 (num b o 4), s5 := BitVec.ofNat 32 (num b (o + 4) 4), s6 := BitVec.ofNat 32 (num b (o + 8) 4),
           s7 := BitVec.ofNat 32 (num b (o + 12) 4) }

theorem parseGroup_eq (b : List Byte) : parseGroup b =
    match hasOperand (headGroup b).op, (headGroup b).tm with
    | true, true => ((headGroup b).withOperand b).withStamp b 32
    | true, false => (headGroup b).withOperand b
    | false, true => (headGroup b).withStamp b 16
    | false, false => headGroup b := by
  have hk : parseGroup b =
      if (if (if hasOperand (headGroup b).op then 4 else 0) = 4 then (headGroup b).withOperand b else headGroup b).tm then
        (if (if hasOperand (headGroup b).op then 4 else 0) = 4 then (headGroup b).withOperand b else headGroup b).withStamp b
          (4 * ((if hasOperand (headGroup b).op then 4 else 0) + 4))
      else if (if hasOperand (headGroup b).op then 4 else 0) = 4 then (headGroup b).withOperand b else headGroup b := rfl
  rw [hk]
  cases ho : hasOperand (headGroup b).op with
  | true =>
    cases ht : (headGroup b).tm with
    | true => exact if_pos ht
    | false => exact if_neg (Bool.eq_false_iff.1 ht)
  | false =>
    cases ht : (headGroup b).tm with
    | true => exact if_pos ht
    | false => exact if_neg (Bool.eq_false_iff.1 ht)

theorem parseGroup_words (b : List Byte) : (parseGroup b).w0 = (headGroup b).w0 ∧ (parseGroup b).w1 = (headGroup b).w1 ∧
    (parseGroup b).w2 = (headGroup b).w2 ∧ (parseGroup b).w3 = (headGroup b).w3 := by
  rw [parseGroup_eq]
  split <;> exact ⟨rfl, rfl, rfl, rfl⟩

theorem parseGroup_op (b : List Byte) : (parseGroup b).op = (headGroup b).op ∧ (parseGroup b).tm = (headGroup b).tm := by
  unfold Group.op Group.tm
  rw [(parseGroup_words b).1]
  exact ⟨rfl, rfl⟩

theorem parseGroup_operand (b : List Byte) (ho : hasOperand (headGroup b).op = true) :
    (parseGroup b).o0 = BitVec.ofNat 32 (num b 16 4) ∧ (parseGroup b).o3 = BitVec.ofNat 32 (num b 28 4) := by
  rw [parseGroup_eq, ho]
  cases (headGroup b).tm <;> exact ⟨rfl, rfl⟩

theorem parseGroup_stamp (b : List Byte) (ht : (headGroup b).tm = true) :
    (parseGroup b).s4 = BitVec.ofNat 32 (num b (if hasOperand (headGroup b).op then 32 else 16) 4) := by
  rw [parseGroup_eq, ht]
  cases hasOperand (headGroup b).op <;> rfl

theorem Group.size_eq (g : Group) : g.size = 16 + (if hasOperand g.op then 16 else 0) + (if g.tm then 16 else 0) := by
  unfold Group.size
  cases hasOperand g.op <;> cases g.tm <;> rfl

/-! ## The group that becomes current (R126, R172) -/

theorem groupCheck_current (h : Chan) (g : Group) (t : Time) (p : Bool) : groupCheck (h.current g t) p g = groupCheck h p g := by
  unfold groupCheck
  rw [groupCheckA_current, groupCheckB_current]

theorem begun_cur (h : Chan) : h.begun.cur = h.cur ∧ h.begun.act = .ready ∧ h.begun.st = h.st.going := by
  unfold Chan.begun
  dsimp only
  split <;> exact ⟨rfl, rfl, rfl⟩

end

/-- Settles O52: which fetch of a channel returns, and what its answer does. -/
theorem groupsAreFetchedInSequence : Obligations.GroupsAreFetchedInSequence := by
  unfold Obligations.GroupsAreFetchedInSequence
  refine ⟨fun t c m s a h hup hh ha => ?_, fun h => wantsAhead_iff, fun s c sp m => rfl, fun s c a n acc m => ?_, fun s c o n a m x g h again hh hg hagain => ?_,
    fun b g hg => ?_, fun s c g h hh hchk hl htm hsus hreq => ?_⟩
  case refine_1 =>
    have hexec : exec (.groupFetch t c m) s = .next (a.groupFetch c m) := ha ▸ engineEvent_up (f := fun s => s.groupFetch c m) hup
    have hc : a.chan c = h := by rw [ha, hh]; rfl
    rw [hexec]
    refine ⟨fun hf => congrArg _ (groupFetch_idle (hc ▸ hf)), fun hf sp hsp => congrArg _ (groupFetch_frag hc hf hsp), fun hf hsp hact => ?_, fun hf hsp hact => ?_⟩
    · rw [groupFetch_current hc hf hsp hact, State.fetchCurrent, hc]
      refine ⟨fun b s1 he => ?_, fun s1 he => ?_, fun f s1 he => ?_, fun s1 he => ?_, fun s1 he => ?_⟩ <;>
      · rw [he] <;> rfl
    · rw [groupFetch_ahead hc hf hsp hact]
      refine ⟨fun hno => congrArg _ (if_neg fun h => ?_), fun sp hw ho hnext => ?_⟩
      · rcases hno with hno | hno
        · exact Bool.noConfusion (h.1.symm.trans hno)
        · exact Bool.noConfusion (h.2.symm.trans hno)
      · rw [if_pos ⟨hw, ho⟩]
        refine ⟨fun b s1 x he hx => ?_, fun s1 he => ?_, fun r s1 he hb hp hbr => congrArg _ ?_, fun s1 hbr => ⟨fun f he => congrArg _ ?_, fun he => congrArg _ ?_, fun he => congrArg _ ?_⟩⟩
        · rw [fetchAhead_eq hc hnext, he, hx] <;> rfl
        · rw [fetchAhead_eq hc hnext, he] <;> rfl
        · exact (fetchAhead_fails hc hnext he hb hp).trans (if_neg hbr)
        · exact (fetchAhead_fails hc hnext he (fun b h => nomatch h) (fun h => nomatch h)).trans (if_pos hbr)
        · exact (fetchAhead_fails hc hnext he (fun b h => nomatch h) (fun h => nomatch h)).trans (if_pos hbr)
        · exact (fetchAhead_fails hc hnext he (fun b h => nomatch h) (fun h => nomatch h)).trans (if_pos hbr)
  case refine_2 =>
    refine ⟨fetchAt_protect, fun hp ha => ?_⟩
    rw [fetchAt_sram hp ha]
    refine ⟨fun hl => fetchPiece_locked rfl hl, fun hl hb => ?_, fun hl hb => ?_⟩
    · obtain ⟨u, hu, hro⟩ := fetchPiece_sound (m := m) (g := { ofs := 0, len := n, phy := true, addr := a }) rfl hl hb
      rw [hu]
      exact ⟨rfl, hro.chans⟩
    · have hro := rereads_readOnly s a n ((s.chan c).retryN - (s.chan c).tries + 1)
      have hmv := rereads_movers s a n ((s.chan c).retryN - (s.chan c).tries + 1)
      refine ⟨_, fetchPiece_bad rfl hl hb, ?_, ?_, hro.sram⟩
      · rw [refetch_eq, ← hmv]
        rfl
      · rw [refetch_eq, State.setChan_chan, if_pos rfl, chan_of_chans hro.chans]
  case refine_3 =>
    subst hh hg
    have hre (k r : Nat) : s.refetch c k r = again k r := hagain k r ▸ refetch_eq s c k r
    refine ⟨fun hd => (fetchPiece_down rfl hd).trans (congrArg _ (hre _ _)), fun hu => ⟨fetchPiece_up rfl hu, ?_⟩⟩
    rw [fetchPiece_up rfl hu, ← hre, ← hre]
  case refine_4 =>
    obtain ⟨h0, h1, h2, h3⟩ := parseGroup_words b
    obtain ⟨hop, htm⟩ := parseGroup_op b
    subst hg
    rw [Group.size_eq, hop, htm]
    exact ⟨h0, h1, h2, h3, parseGroup_operand b, parseGroup_stamp b, rfl⟩
  case refine_5 =>
    subst hh
    have hg := (groupCheck_current (s.chan c) g s.now _).symm.trans hchk
    rw [makeCurrent_begins rfl hg hl htm hsus hreq]
    obtain ⟨hcur, hact, hst⟩ := begun_cur ((s.chan c).current g s.now)
    refine ⟨?_, ?_, ?_, fun j hj => ?_⟩
    · rw [State.setChan_chan, if_pos rfl, hcur]
      rfl
    · rw [State.setChan_chan, if_pos rfl, hact]
    · rw [State.setChan_chan, if_pos rfl, hst]
      rfl
    · rw [State.setChan_chan, if_neg hj]

end Sys2Proof.Machine
end


section

/-! PROOFS. Frames that arrive at the ports and frames that leave them (O36). -/

namespace Sys2Proof.Machine

section
variable {s : State} {p r : Nat} {b l : List Byte} {good : Bool} {t : Time}

/-! ## Reception (R380) -/

theorem exec_frameReceive_up {q : Fin 16} (h : s.up = true) : exec (.frameReceive t q b good) s = .next ((s.arrive t).frameReceive q b good t) := by
  unfold State.up at h
  rw [Bool.and_eq_true, Bool.not_eq_true', Bool.not_eq_true'] at h
  refine (liveEvent_live (f := fun s => if s.resting then s.restFrame q b good else s.frameReceive q b good t) h.1).trans (congrArg _ (if_neg ?_))
  exact Bool.eq_false_iff.1 h.2

theorem frameReceive_off (h : (s.port p).st = .disabled ∨ (s.port p).link = false) : s.frameReceive p b good t = s := by
  refine if_pos ?_
  rw [Bool.or_eq_true, Bool.or_eq_true, decide_eq_true_eq, Bool.not_eq_true']
  exact .inl h

section
variable (hst : (s.port p).st = .enabled) (hl : (s.port p).link = true)
include hst hl

theorem frameReceive_on : s.frameReceive p b good t =
    if !good || b.length + 4 < 64 || (s.port p).maxLen < b.length + 4 then
      (s.setPort p { s.port p with rxBad := (s.port p).rxBad + 1 }).stomp p b
    else s.classify p b t := by
  refine if_neg ?_
  rw [hst, hl]
  exact Bool.false_ne_true

theorem frameReceive_bad (h : good = false ∨ b.length + 4 < 64 ∨ (s.port p).maxLen < b.length + 4) (hr : s.yz.ring p = none) :
    s.frameReceive p b good t = s.setPort p { s.port p with rxBad := (s.port p).rxBad + 1 } := by
  rw [frameReceive_on hst hl]
  refine (if_pos ?_).trans ?_
  · rw [Bool.or_eq_true, Bool.or_eq_true, Bool.not_eq_true', decide_eq_true_eq, decide_eq_true_eq, or_assoc]
    exact h
  · unfold State.stomp
    rw [State.setPort_yz, hr]

theorem frameReceive_good (hg : good = true) (h64 : 64 ≤ b.length + 4) (hmax : b.length + 4 ≤ (s.port p).maxLen) :
    s.frameReceive p b good t = s.classify p b t := by
  rw [frameReceive_on hst hl]
  refine if_neg ?_
  rw [hg, Bool.not_true, Bool.false_or, Bool.or_eq_true, decide_eq_true_eq, decide_eq_true_eq]
  exact fun h => h.elim (Nat.not_lt.2 h64) (Nat.not_lt.2 hmax)

end

/-! ## Classification (R380, R381) -/

theorem classify_drops (h : (s.port p).accepts b = false) : s.classify p b t = s := by
  refine if_pos ?_
  rw [h]
  rfl

section
variable (ha : (s.port p).accepts b = true)
include ha

theorem classify_pause (h : etherType b = 0x8808) : s.classify p b t = s.setPort p { s.port p with rxPause := (s.port p).rxPause + 1 } := by
  refine (if_neg ?_).trans (if_pos h)
  rw [ha]
  exact Bool.false_ne_true

variable (h88 : etherType b ≠ 0x8808)
include h88

theorem classify_yazen (hy : etherType b = fld s.yz.etype 0 16) (hc : s.yz.carries p = true) (he : s.yz.en = true) :
    s.classify p b t = (s.setYz { s.yz with inbox := s.yz.inbox ++ [(p, s.now, b)] }).modPort p fun y => { y with rxOk := y.rxOk + 1 } := by
  refine (if_neg ?_).trans ((if_neg h88).trans ((if_pos ?_).trans (if_pos he)))
  · rw [ha]
    exact Bool.false_ne_true
  · rw [Bool.and_eq_true, decide_eq_true_eq]
    exact ⟨hy, hc⟩

theorem classify_rules (hy : ¬(etherType b = fld s.yz.etype 0 16 ∧ s.yz.carries p = true)) (hp : ¬(isPtp b = true ∧ bit s.net.ptp.ports p = true)) :
    s.classify p b t = match (s.port p).ruleFor b with
      | some (i, r) =>
        if bit r.ctrl 6 then s.setPort p { s.port p with rxNoMatch := (s.port p).rxNoMatch + 1 }
        else s.storeRecord p (fld r.ctrl 8 8) ((s.stream (fld r.ctrl 8 8)).record b t p i)
      | none =>
        if bit (s.port p).ctrl 5 then s.storeRecord p (fld (s.port p).ctrl 8 8) ((s.stream (fld (s.port p).ctrl 8 8)).record b t p 31)
        else s.setPort p { s.port p with rxNoMatch := (s.port p).rxNoMatch + 1 } := by
  refine (if_neg ?_).trans ((if_neg h88).trans ((if_neg ?_).trans (if_neg ?_)))
  · rw [ha]
    exact Bool.false_ne_true
  · rw [Bool.and_eq_true, decide_eq_true_eq]
    exact hy
  · rw [Bool.and_eq_true]
    exact hp

end

theorem takeWhile_ne_of_find {α : Type} [DecidableEq α] {f : α → Bool} {l : List α} {a : α} (h : l.find? f = some a) :
    ∀ q ∈ l.takeWhile (fun q => q ≠ a), f q = false := by
  induction l with
  | nil => exact fun q hq => absurd hq List.not_mem_nil
  | cons x r ih =>
    intro q hq
    by_cases hx : x = a
    · rw [List.takeWhile_cons_of_neg (by simp [hx])] at hq
      exact absurd hq List.not_mem_nil
    · rw [List.takeWhile_cons_of_pos (by simp [hx])] at hq
      rw [List.find?_cons] at h
      split at h
      · exact absurd (Option.some.inj h) hx
      · next hf =>
        rcases List.mem_cons.1 hq with rfl | hq
        · exact hf
        · exact ih h q hq

theorem ruleFor_spec {x : Port} {i : Nat} {r : Rule} (h : x.ruleFor b = some (i, r)) : i < 32 ∧ bit r.ctrl 0 = true ∧ r.hits b = true ∧
    ∀ q ∈ x.rules.takeWhile (fun q => q ≠ (i, r)), 32 ≤ q.1 ∨ bit q.2.ctrl 0 = false ∨ q.2.hits b = false := by
  have hhit := List.find?_some h
  rw [Bool.and_eq_true, Bool.and_eq_true, decide_eq_true_eq] at hhit
  obtain ⟨⟨hi, hb⟩, hr⟩ := hhit
  refine ⟨hi, hb, hr, fun q hq => ?_⟩
  have hmiss := takeWhile_ne_of_find h q hq
  rw [Bool.and_eq_false_iff, Bool.and_eq_false_iff, decide_eq_false_iff_not, Nat.not_lt, or_assoc] at hmiss
  exact hmiss

/-! ## Streams (R382) -/

theorem wakeUnit_nets (s : State) (u : Nat) : (s.wakeUnit u).net = s.net := by
  unfold State.wakeUnit State.wakeWaiters
  refine foldl_keeps State.net (fun s p => ?_) _ s
  exact rfl

theorem wakeUnit_stream (s : State) (u j : Nat) : (s.wakeUnit u).stream j = s.stream j := by rw [State.stream, wakeUnit_nets, State.stream]

theorem wakeUnit_port (s : State) (u j : Nat) : (s.wakeUnit u).port j = s.port j := by rw [State.port, wakeUnit_nets, State.port]

theorem storeRecord_stores {x : Stream} (hx : s.stream r = x) (hst : x.st = .enabled) (hq : x.held + l.length ≤ x.quota * 16384) :
    s.storeRecord p r l = ((s.setStream r { x with recs := x.recs ++ [l] }).modPort p fun y => { y with rxOk := y.rxOk + 1 }).wakeUnit r := by
  subst hx
  refine if_pos ?_
  rw [Bool.and_eq_true, decide_eq_true_eq, decide_eq_true_eq]
  exact ⟨hst, hq⟩

theorem storeRecord_drops {x : Stream} (hx : s.stream r = x) (h : x.st ≠ .enabled ∨ x.quota * 16384 < x.held + l.length) :
    s.storeRecord p r l = (s.setStream r { x with drop := satInc x.drop }).modPort p fun y => { y with rxDrop := y.rxDrop + 1 } := by
  subst hx
  refine if_neg ?_
  rw [Bool.and_eq_true, decide_eq_true_eq, decide_eq_true_eq]
  exact fun hc => h.elim (fun h => h hc.1) (Nat.not_lt.2 hc.2)

/-! ## The next frame of a port (R390) -/

/-- The port at a frame boundary: nothing is on its wire. -/
def State.wireFree (s : State) (p : Nat) : State := s.setPort p { s.port p with onWire := none }

theorem frameTransmit_eq (s : State) (p : Nat) : s.frameTransmit p =
    if (s.port p).st ≠ .enabled ∨ (s.port p).link = false then s.wireFree p
    else match (s.wireFree p).nextFrame p with
      | some n => (s.wireFree p).startFrame p n
      | none => s.wireFree p := by
  have hport : (s.wireFree p).port p = { s.port p with onWire := none } := by
    unfold State.wireFree
    rw [State.setPort_port, if_pos rfl]
  have heq : s.frameTransmit p = if ((s.wireFree p).port p).st ≠ .enabled || !((s.wireFree p).port p).link then s.wireFree p
      else match (s.wireFree p).nextFrame p with
        | some n => (s.wireFree p).startFrame p n
        | none => s.wireFree p := rfl
  rw [heq, hport]
  refine if_congr ?_ rfl rfl
  rw [Bool.or_eq_true, decide_eq_true_eq, Bool.not_eq_true']

/-- The PTP message that goes first. -/
def State.nextPtp (s : State) (p : Nat) : Option Nat := (s.port p).ptpOut.find? fun k => !s.holdsBack p (s.ptpBytes p k).length

/-- A queue's first frame, where it need not be held back. -/
def State.queueNext (s : State) (p q : Nat) : Option Next :=
  (s.txq (4 * p + q)).frames.head?.bind fun f => if s.holdsBack p (sealFrame f).length then none else some (Next.queue q f)

/-- A frame that waits to be forwarded, where it may start. -/
def State.forwardNext (s : State) (p : Nat) : Option Next :=
  match s.yz.ring p with
  | some b => (match s.yz.fwdOf b with
    | (_, f) :: _ => if yzType (yzHead f) ≠ 1 || decide (0 < s.yz.credit b) then some (Next.forward b f) else none
    | [] => none)
  | none => none

/-- R390: the order of what a port sends. -/
theorem nextFrame_eq (s : State) (p : Nat) : s.nextFrame p =
    match s.nextPtp p with
    | some k => some (.ptp k)
    | none =>
    match (if s.cyclicReady p then (s.port p).cycOut else none) with
    | some (_, f) => some (.cyclic f)
    | none =>
    match (s.port p).yzOut with
    | (came, f) :: _ => some (.yazen came.isNone f)
    | [] =>
    match s.forwardNext p with
    | some n => some n
    | none => [3, 2, 1, 0].findSome? (s.queueNext p) := rfl

theorem forwardNext_ptp {k : Nat} : s.forwardNext p ≠ some (.ptp k) := by
  unfold State.forwardNext
  split
  · split
    · split
      · exact fun h => nomatch h
      · exact fun h => nomatch h
    · exact fun h => nomatch h
  · exact fun h => nomatch h

theorem queueNext_ptp {k q : Nat} : s.queueNext p q ≠ some (.ptp k) := by
  unfold State.queueNext
  intro h
  obtain ⟨f, -, hf⟩ := Option.bind_eq_some_iff.1 h
  split at hf
  · exact nomatch hf
  · exact nomatch hf

theorem nextFrame_ptp {k : Nat} : s.nextFrame p = some (.ptp k) ↔ s.nextPtp p = some k := by
  rw [nextFrame_eq]
  split
  · next k' hk =>
    rw [hk]
    exact ⟨fun h => congrArg some (Next.ptp.inj (Option.some.inj h)), fun h => congrArg (fun o => Option.map Next.ptp o) h⟩
  · next hnone =>
    rw [hnone]
    refine ⟨fun h => absurd h ?_, fun h => nomatch h⟩
    split
    · exact fun h => nomatch h
    split
    · exact fun h => nomatch h
    split
    · next n hn => exact hn ▸ forwardNext_ptp
    · intro hq
      obtain ⟨q, -, hq⟩ := List.exists_of_findSome?_eq_some hq
      exact queueNext_ptp hq

section
variable (hptp : s.nextPtp p = none)
include hptp

theorem nextFrame_cyclic {n : Nat} {f : List Byte} (hc : (s.port p).cycOut = some (n, f)) (hr : s.cyclicReady p = true) :
    s.nextFrame p = some (.cyclic f) := by
  rw [nextFrame_eq, hptp]
  dsimp only
  rw [if_pos hr, hc]

variable (hr : s.cyclicReady p = false)
include hr

theorem nextFrame_yazen {came : Option Time} {f : List Byte} {l : List (Option Time × List Byte)} (hy : (s.port p).yzOut = (came, f) :: l) :
    s.nextFrame p = some (.yazen came.isNone f) := by
  rw [nextFrame_eq, hptp]
  dsimp only
  rw [if_neg (Bool.eq_false_iff.1 hr), hy]

theorem nextFrame_queues (hy : (s.port p).yzOut = []) (hring : s.yz.ring p = none) :
    s.nextFrame p = [3, 2, 1, 0].findSome? (s.queueNext p) := by
  have hf : s.forwardNext p = none := by rw [State.forwardNext, hring]
  rw [nextFrame_eq, hptp]
  dsimp only
  rw [if_neg (Bool.eq_false_iff.1 hr), hy, hf]

end

theorem queueNext_empty {q : Nat} (h : (s.txq (4 * p + q)).frames = []) : s.queueNext p q = none := by
  rw [State.queueNext, h]
  rfl

theorem queueNext_first {q : Nat} {f : List Byte} {l : List (List Byte)} (h : (s.txq (4 * p + q)).frames = f :: l)
    (hb : s.holdsBack p (sealFrame f).length = false) : s.queueNext p q = some (.queue q f) := by
  rw [State.queueNext, h]
  exact if_neg (Bool.eq_false_iff.1 hb)

/-- The queues are looked at from 3 down to 0. -/
theorem findQueue {g : Nat → Option Next} {q : Nat} {n : Next} (hq : q < 4) (h : g q = some n) (hno : ∀ r, q < r → r < 4 → g r = none) :
    [3, 2, 1, 0].findSome? g = some n := by
  have hstep : ∀ r, q < r → r < 4 → ∀ l, (r :: l).findSome? g = l.findSome? g := fun r h1 h2 l => by rw [List.findSome?_cons, hno r h1 h2]
  have hhit : ∀ l, (q :: l).findSome? g = some n := fun l => by rw [List.findSome?_cons, h]
  match q, hq with
  | 3, _ => exact hhit _
  | 2, _ => rw [hstep 3 (by decide) (by decide)]; exact hhit _
  | 1, _ => rw [hstep 3 (by decide) (by decide), hstep 2 (by decide) (by decide)]; exact hhit _
  | 0, _ => rw [hstep 3 (by decide) (by decide), hstep 2 (by decide) (by decide), hstep 1 (by decide) (by decide)]; exact hhit _

theorem nextPtp_none (h : ∀ k ∈ (s.port p).ptpOut, s.holdsBack p (s.ptpBytes p k).length = true) : s.nextPtp p = none := by
  refine List.find?_eq_none.2 fun k hk => ?_
  rw [h k hk]
  exact Bool.false_ne_true

/-! ## The end of a frame (R389) -/

theorem sealFrame_length (f : List Byte) : (sealFrame f).length = max 60 f.length + 4 := by
  unfold sealFrame
  rw [List.length_append, length_leBytes, List.length_append, List.length_replicate]
  omega

end

/-- Settles O36: a received frame by its judgement, its classification and its stream; a frame that leaves by the order of the port. -/
theorem framesPassThePorts : Obligations.FramesPassThePorts := by
  unfold Obligations.FramesPassThePorts
  refine ⟨fun t p b good s x hup hx => ?_, fun x b i r h => ruleFor_spec h, fun s p r l x hx => ⟨fun hst hq => ?_, fun h => ?_⟩, fun t p s s1 hup hs1 => ?_,
    fun s p q f l hf => ?_, fun f => ⟨rfl, sealFrame_length f⟩⟩
  case refine_1 =>
    subst hx
    rw [exec_frameReceive_up hup]
    refine ⟨fun h => congrArg _ (frameReceive_off (s := s.arrive t) h), fun hst hl h hr => congrArg _ (frameReceive_bad (s := s.arrive t) hst hl h hr),
      fun hst hl hg h64 hmax => ?_⟩
    rw [frameReceive_good (s := s.arrive t) hst hl hg h64 hmax]
    refine ⟨fun h => congrArg _ (classify_drops (s := s.arrive t) h), fun ha h => congrArg _ (classify_pause (s := s.arrive t) ha h), fun ha h88 hy hc he => ?_,
      fun ha h88 hy hp => ?_⟩
    · refine ⟨_, congrArg _ (classify_yazen (s := s.arrive t) ha h88 hy hc he), rfl, ?_⟩
      rw [State.modPort_eq, State.setPort_port, if_pos rfl]
      rfl
    · rw [classify_rules (s := s.arrive t) ha h88 hy hp]
      refine ⟨fun hn hb => ?_, fun hn hb => ?_, fun i r hn => ?_⟩
      all_goals
        have hrule : ((s.arrive t).port p).ruleFor b = _ := hn
        rw [hrule]
      · exact congrArg _ (if_neg (Bool.eq_false_iff.1 hb))
      · exact congrArg _ (if_pos hb)
      · rfl
  case refine_2 =>
    refine ⟨_, storeRecord_stores hx.symm hst hq, ?_, ?_, ?_, fun j hj => ?_⟩
    · rw [wakeUnit_stream, State.modPort_eq, State.setPort_stream, State.setStream_stream, if_pos rfl]
    · rw [wakeUnit_port, State.modPort_eq, State.setPort_port, if_pos rfl]
      rfl
    · rw [wakeUnit_port, State.modPort_eq, State.setPort_port, if_pos rfl]
      rfl
    · rw [wakeUnit_stream, State.modPort_eq, State.setPort_stream, State.setStream_stream, if_neg hj]
  case refine_3 =>
    refine ⟨_, storeRecord_drops hx.symm h, ?_, ?_, ?_, rfl⟩
    · rw [State.modPort_eq, State.setPort_stream, State.setStream_stream, if_pos rfl]
    · rw [State.modPort_eq, State.setPort_port, if_pos rfl]
      rfl
    · rw [State.modPort_eq, State.setPort_port, if_pos rfl]
      rfl
  case refine_4 =>
    have hfree : s1 = (s.arrive t).wireFree p := hs1
    have hport : s1.port p = { s.port p with onWire := none } := by
      rw [hs1, State.setPort_port, if_pos rfl]
    have hexec : exec (.frameTransmit t p) s = .next ((s.arrive t).frameTransmit p) := engineEvent_up (f := fun s => s.frameTransmit p) hup
    rw [hexec, frameTransmit_eq, ← hfree]
    refine ⟨fun h => congrArg _ ?_, fun n hst hl hn => congrArg _ ?_, fun k => ?_, fun hheld => ?_⟩
    · by_cases hoff : (s.port p).st ≠ .enabled ∨ (s.port p).link = false
      · exact if_pos hoff
      · refine (if_neg hoff).trans ?_
        have hnone : s1.nextFrame p = none := by
          rcases h with h | h | h
          · exact absurd (.inl h) hoff
          · exact absurd (.inr h) hoff
          · exact h
        rw [hnone]
    · refine (if_neg fun h => h.elim (fun h => h hst) fun h => Bool.noConfusion (hl.symm.trans h)).trans ?_
      rw [hn]
    · rw [nextFrame_ptp, State.nextPtp, hport]
    · have hptp : s1.nextPtp p = none := nextPtp_none (by rw [hport]; exact hheld)
      refine ⟨fun n f hc hr => nextFrame_cyclic hptp (by rw [hport]; exact hc) hr, fun came f l hr hy => nextFrame_yazen hptp hr (by rw [hport]; exact hy),
        fun q f l hq hr hy hring hf hb hno => ?_⟩
      have htxq (r : Nat) : s1.txq (4 * p + r) = s.txq (4 * p + r) := by rw [hs1]; rfl
      have hyz : s1.yz = s.yz := by rw [hs1]; rfl
      rw [nextFrame_queues hptp hr (by rw [hport]; exact hy) (by rw [hyz]; exact hring)]
      exact findQueue hq (queueNext_first (by rw [htxq]; exact hf) hb) fun r h1 h2 => queueNext_empty (by rw [htxq]; exact hno r h1 h2)
  case refine_5 =>
    refine ⟨_, rfl, ?_, ?_, ?_, rfl⟩
    · change (((s.setTxq (4 * p + q) { s.txq (4 * p + q) with frames := (s.txq (4 * p + q)).frames.drop 1 })).txq (4 * p + q)).frames = l
      rw [State.setTxq_txq, if_pos rfl, hf]
      rfl
    · exact congrArg Port.onWire (tget_tput_self ..)
    · exact congrArg Port.txOk (tget_tput_self ..)

end Sys2Proof.Machine
end


section

/-! PROOFS. PTP: the lock, the map and the messages (O37). -/

namespace Sys2Proof.Machine

section
variable {s : State} {p n : Nat} {o : Int}

/-! ## The lock and the map (R393, R394) -/

theorem judge_good (q : Ptp) (h : o.natAbs < 800) : q.judge o =
    { q with offset := satOffset o, good := q.good + 1, bad := 0, locked := q.locked || decide (16 ≤ q.good + 1) } := by
  have hg : decide (o.natAbs < ns 100) = true := decide_eq_true h
  unfold Ptp.judge
  rw [hg]
  dsimp only
  by_cases h16 : 16 ≤ q.good + 1
  · rw [if_pos rfl, if_pos h16, decide_eq_true h16, Bool.or_true]
    rfl
  · rw [if_pos rfl, if_neg h16, decide_eq_false h16, Bool.or_false]
    rfl

theorem judge_bad (q : Ptp) (h : 800 ≤ o.natAbs) : q.judge o =
    { q with offset := satOffset o, good := 0, bad := q.bad + 1, locked := q.locked && decide (q.bad + 1 < 4) } := by
  have hg : decide (o.natAbs < ns 100) = false := decide_eq_false (Nat.not_lt.2 h)
  unfold Ptp.judge
  rw [hg]
  dsimp only
  by_cases h4 : q.bad + 1 < 4
  · rw [decide_eq_true h4, Bool.and_true]
    exact congrArg (fun b => { q with offset := satOffset o, good := 0, bad := q.bad + 1, locked := b }) (if_neg (Nat.not_le.2 h4))
  · rw [decide_eq_false h4, Bool.and_false]
    exact congrArg (fun b => { q with offset := satOffset o, good := 0, bad := q.bad + 1, locked := b }) (if_pos (Nat.not_lt.1 h4))

/-- The line time of a map at the instant it starts from. -/
theorem line_start (q : Ptp) (t : Time) (h : q.d0 = t) : q.line t = q.lt0 := by
  unfold Ptp.line
  dsimp only
  rw [h, Int.sub_self, Int.zero_mul]
  simp [roundDiv]

/-! ## The MIRROR cells at a step of the map (R394) -/

/-- R394: the history of one MIRROR cell is cleared. -/
def State.clearMirror (s : State) (n : Nat) : State :=
  if (s.cell n).mode = 7 && (s.cell n).en && (s.cell n).est ≠ .lost then
    (s.putCell n { (s.cell n).drop .idle s.now with frac := s.fracOf n s.now }).cellChange n .other
  else s

theorem clearMirrors_eq (s : State) : s.clearMirrors = (s.axes.cells.map (·.1)).foldl State.clearMirror s := rfl

theorem clearMirror_still (s : State) (n : Nat) : (s.clearMirror n).still = s.still := by
  unfold State.clearMirror
  split
  · exact still_cellChange ..
  · rfl

theorem clearMirror_other (s : State) {m : Nat} (h : n ≠ m) : (s.clearMirror m).cell n = s.cell n := by
  unfold State.clearMirror
  split
  · rw [putCell_change_cell, if_neg h]
  · rfl

theorem clearMirror_off (h : (s.cell n).mode ≠ 7) : s.clearMirror n = s := by
  refine if_neg ?_
  rw [decide_eq_false h, Bool.false_and, Bool.false_and]
  exact Bool.false_ne_true

/-- A cell whose estimator stands IDLE without a history. -/
def Cell.forgot (c : Cell) : Prop := c.hist = [] ∧ c.est = .idle

theorem clearMirror_own (hm : (s.cell n).mode = 7) (he : (s.cell n).en = true) (hl : (s.cell n).est ≠ .lost) :
    ((s.clearMirror n).cell n).forgot ∧ ((s.clearMirror n).cell n).mode = 7 ∧ ((s.clearMirror n).cell n).en = true := by
  have heq : s.clearMirror n = (s.putCell n { (s.cell n).drop .idle s.now with frac := s.fracOf n s.now }).cellChange n .other := by
    refine if_pos ?_
    rw [hm, he, Bool.and_eq_true, decide_eq_true_eq]
    exact ⟨rfl, hl⟩
  rw [heq, putCell_change_cell, if_pos rfl]
  exact ⟨⟨rfl, rfl⟩, hm, he⟩

theorem clearMirrors_forgets (hm : (s.cell n).mode = 7) (he : (s.cell n).en = true) (hl : (s.cell n).est ≠ .lost) : (s.clearMirrors.cell n).forgot := by
  have hmem : n ∈ s.axes.cells.map (·.1) := by
    by_contra h
    have hdef : s.cell n = {} := tget_of_not_mem _ h
    rw [hdef] at he
    exact absurd he (by decide)
  rw [clearMirrors_eq]
  refine (foldl_reaches (f := State.clearMirror) (P := fun x => (x.cell n).forgot ∧ (x.cell n).mode = 7 ∧ (x.cell n).en = true)
    (Q := fun x => x.cell n = s.cell n) (i := n) (fun x j hx => ?_) (fun x hx => ?_) (fun x j hj hx => (clearMirror_other x (Ne.symm hj)).trans hx) hmem rfl).1
  · by_cases hj : n = j
    · subst hj
      obtain ⟨⟨-, hidle⟩, hm, he⟩ := hx
      exact clearMirror_own hm he (by rw [hidle]; decide)
    · rw [clearMirror_other x hj]
      exact hx
  · exact clearMirror_own (hx ▸ hm) (hx ▸ he) (hx ▸ hl)

theorem clearMirrors_leaves (h : (s.cell n).mode ≠ 7) : s.clearMirrors.cell n = s.cell n := by
  rw [clearMirrors_eq]
  refine List.foldlRecOn (motive := fun x : State => x.cell n = s.cell n) _ _ rfl fun x hx j _ => ?_
  by_cases hj : n = j
  · subst hj
    rw [clearMirror_off (hx ▸ h)]
    exact hx
  · rw [clearMirror_other x hj]
    exact hx

theorem clearMirrors_frame (s : State) : s.clearMirrors.now = s.now ∧ s.clearMirrors.net.ptp = s.net.ptp := by
  have hstill : s.clearMirrors.still = s.still := by
    rw [clearMirrors_eq]
    exact still_foldl clearMirror_still _ s
  exact ⟨(kept_clearMirrors (.refl s)).now, congrArg Still.ptp hstill⟩

/-! ## Sync (R394) -/

theorem ptpSync_else (h : s.net.ptp.role ≠ 2 ∨ s.net.ptp.slavePort.toNat ≠ p) : s.ptpSync p o = s := by
  refine if_pos ?_
  rw [Bool.or_eq_true, decide_eq_true_eq, decide_eq_true_eq]
  exact h

section
variable (hr : s.net.ptp.role = 2) (hp : s.net.ptp.slavePort.toNat = p)
include hr hp

theorem ptpSync_eq : s.ptpSync p o =
    if 8000 ≤ o.natAbs then
      (s.modPtp fun _ => { s.net.ptp.judge o with lt0 := s.net.ptp.line s.now - o, d0 := s.now, stepped := true }).clearMirrors
    else (s.modPtp fun _ =>
      { s.net.ptp.judge o with lt0 := s.net.ptp.line s.now, d0 := s.now, rate := Config.servoRate s.free (s.net.ptp.judge o).rate o }).draw := by
  refine if_neg ?_
  rw [Bool.or_eq_true, decide_eq_true_eq, decide_eq_true_eq]
  exact fun h => h.elim (fun h => h hr) fun h => h hp

end

/-! ## Announce and the other messages (R391) -/

theorem ptpRx_on (h : s.ptpOn p = true) (msg : PtpMsg) : s.ptpRx p msg = match msg with
    | .sync o => s.ptpSync p o
    | .announce d => s.ptpAnnounce p d
    | .delay => if !s.net.ptp.peer && s.net.ptp.masterOn p then s.ptpQueue p 3 else s
    | .pdelay => if s.net.ptp.peer then s.ptpQueue p 4 else s
    | .management | .unsupported => s.modPtp fun q => { q with discard := q.discard + 1 } := by
  refine (if_neg ?_).trans ?_
  · rw [h]
    exact Bool.false_ne_true
  · cases msg <;> rfl

theorem ptpRx_off (h : s.ptpOn p = false) (msg : PtpMsg) : s.ptpRx p msg = s := by
  refine if_pos ?_
  rw [h]
  rfl

/-- R391: what an Announce makes of the clock, by the choice `n` of the best master clock algorithm. -/
theorem ptpAnnounce_spec {d : List Byte} {q : Ptp} (hq : q = s.net.ptp) {u : State} (hu : s.ptpAnnounce p d = u) {n : Nat}
    (hn : n = Config.bestMaster s.free p d) :
    (n = 0 → u.net.ptp.role = 2 ∧ u.net.ptp.slavePort = BitVec.ofNat 4 p ∧
      (q.role ≠ 2 ∨ q.slavePort.toNat ≠ p → u.net.ptp.good = 0 ∧ u.net.ptp.bad = 0 ∧ u.net.ptp.locked = false)) ∧
    (n = 1 → u.net.ptp = { q with role := if bit q.ctrl 3 then 0 else 1 }) ∧
    (n = 2 → u.net.ptp = { q with role := if bit q.ctrl 3 then 0 else 4 }) ∧ (2 < n → u.net.ptp = q) := by
  subst hq hu
  unfold State.ptpAnnounce
  rw [← hn]
  refine ⟨fun h => ?_, fun h => ?_, fun h => ?_, fun h => ?_⟩
  · rw [h]
    refine ⟨rfl, rfl, fun hf => ?_⟩
    have hfresh : (decide (s.net.ptp.role ≠ 2) || decide (s.net.ptp.slavePort.toNat ≠ p)) = true := by
      rw [Bool.or_eq_true, decide_eq_true_eq, decide_eq_true_eq]
      exact hf
    exact ⟨if_pos hfresh, if_pos hfresh, if_pos hfresh⟩
  · rw [h]
    rfl
  · rw [h]
    rfl
  · obtain ⟨k, hk⟩ : ∃ k, n = k + 3 := ⟨n - 3, by omega⟩
    rw [hk]
    rfl

theorem ptpTx_on (h : s.ptpOn p = true) (k : PtpKind) : s.ptpTx p k = match k with
    | .delayReq => if s.net.ptp.peer || (s.net.ptp.role = 2 && s.net.ptp.slavePort.toNat = p) then s.ptpQueue p 2 else s
    | .announce =>
      if s.net.ptp.masterOn p then s.ptpQueue p 1
      else if s.net.ptp.role = 0 && !bit s.net.ptp.ctrl 3 then (s.modPtp fun q => { q with role := 1 }).ptpQueue p 1
      else s
    | .sync => if s.net.ptp.masterOn p then s.ptpQueue p 0 else s := by
  refine (if_neg ?_).trans ?_
  · rw [h]
    exact Bool.false_ne_true
  · cases k <;> rfl

end

/-- Settles O37: the messages of PTP by kind; the map at a Sync; a lost master. -/
theorem ptpKeepsLineTime : Obligations.PtpKeepsLineTime := by
  unfold Obligations.PtpKeepsLineTime
  refine ⟨fun t p msg s hup hoff => (engineEvent_up (f := fun s => s.ptpRx p msg) hup).trans (congrArg _ (ptpRx_off (s := s.arrive t) hoff msg)),
    fun q o => ⟨judge_good q, judge_bad q⟩, fun t p o s q hup hon hq => ?_, fun t p d s q n hup hon hq hn => ?_, fun t p s q send hup hon hq hsend => ?_,
    fun t s hup => ⟨fun hb hr => ?_, fun h => ?_⟩⟩
  case refine_1 =>
    have hexec : exec (.ptpMessageRx t p (.sync o)) s = .next ((s.arrive t).ptpSync p o) :=
      (engineEvent_up (f := fun s => s.ptpRx p (.sync o)) hup).trans (congrArg _ (ptpRx_on (s := s.arrive t) hon _))
    subst hq
    have hd : max (s.now : Int) (t : Int) = ((s.arrive t).now : Int) := (Nat.cast_max ..).symm
    rw [hexec, hd]
    refine ⟨fun h => congrArg _ (ptpSync_else (s := s.arrive t) h), fun hr hp ho => ?_, fun hr hp ho => ?_⟩
    · rw [ptpSync_eq (s := s.arrive t) hr hp, if_pos ho]
      obtain ⟨hnow, hptp⟩ := clearMirrors_frame ((s.arrive t).modPtp fun _ =>
        { (s.arrive t).net.ptp.judge o with lt0 := (s.arrive t).net.ptp.line (s.arrive t).now - o, d0 := (s.arrive t).now, stepped := true })
      refine ⟨_, rfl, hptp, ?_, fun n hm he hl => clearMirrors_forgets hm he hl, fun n hm => clearMirrors_leaves hm⟩
      rw [hptp, hnow]
      exact line_start _ _ rfl
    · rw [ptpSync_eq (s := s.arrive t) hr hp, if_neg (Nat.not_le.2 ho)]
      exact ⟨_, rfl, rfl, line_start _ _ rfl, rfl⟩
  case refine_2 =>
    have hexec : exec (.ptpMessageRx t p (.announce d)) s = .next ((s.arrive t).ptpAnnounce p d) :=
      (engineEvent_up (f := fun s => s.ptpRx p (.announce d)) hup).trans (congrArg _ (ptpRx_on (s := s.arrive t) hon _))
    exact ⟨_, hexec, ptpAnnounce_spec (s := s.arrive t) hq rfl hn⟩
  case refine_3 =>
    subst hq
    have hqueue (k : Nat) : (s.arrive t).ptpQueue p k = send k (s.arrive t) := (hsend k _).symm
    have hrx (msg : PtpMsg) : exec (.ptpMessageRx t p msg) s = .next _ :=
      (engineEvent_up (f := fun s => s.ptpRx p msg) hup).trans (congrArg _ (ptpRx_on (s := s.arrive t) hon msg))
    have htx (k : PtpKind) : exec (.ptpMessageTx t p k) s = .next _ :=
      (engineEvent_up (f := fun s => s.ptpTx p k) hup).trans (congrArg _ (ptpTx_on (s := s.arrive t) hon k))
    refine ⟨?_, ?_, fun msg hm => ?_, ?_, ?_, fun hmaster => ?_, fun hmaster hr hb => ?_⟩
    · rw [hrx, ← hqueue]
      refine congrArg _ (if_congr ?_ rfl rfl)
      rw [Bool.and_eq_true, Bool.not_eq_true']
      exact Iff.rfl
    · rw [hrx, ← hqueue]
      rfl
    · rw [hrx]
      rcases hm with rfl | rfl <;> exact ⟨_, rfl, rfl, rfl⟩
    · rw [htx, ← hqueue]
      refine congrArg _ (if_congr ?_ rfl rfl)
      rw [Bool.or_eq_true, Bool.and_eq_true, decide_eq_true_eq, decide_eq_true_eq]
      exact Iff.rfl
    · rw [htx, ← hqueue]
      rfl
    · rw [htx, ← hqueue]
      exact congrArg _ (if_pos hmaster)
    · rw [htx]
      refine ⟨_, congrArg _ ((if_neg (Bool.eq_false_iff.1 hmaster)).trans (if_pos ?_)), rfl, ?_⟩
      · rw [Bool.and_eq_true, decide_eq_true_eq, Bool.not_eq_true']
        exact ⟨hr, hb⟩
      · exact congrArg Port.ptpOut (tget_tput_self ..)
  case refine_4 =>
    refine ⟨_, (engineEvent_up (f := fun s => if bit s.net.ptp.ctrl 0 && s.net.ptp.role = 2 then (s.modPtp fun q => { q with role := 3 }).report 128 else s) hup).trans
      (congrArg _ (if_pos ?_)), rfl, ?_⟩
    · rw [Bool.and_eq_true, decide_eq_true_eq]
      exact ⟨hb, hr⟩
    · change (s.fc.raised ||| BitVec.ofNat 256 (1 <<< 128)).getLsbD 128 = true
      rw [BitVec.getLsbD_or, Bool.or_eq_true]
      exact .inr (by decide)
  case refine_5 =>
    refine (engineEvent_up (f := fun s => if bit s.net.ptp.ctrl 0 && s.net.ptp.role = 2 then (s.modPtp fun q => { q with role := 3 }).report 128 else s) hup).trans
      (congrArg _ (if_neg ?_))
    rw [Bool.and_eq_true, decide_eq_true_eq]
    exact fun hc => h.elim (fun h => Bool.noConfusion (hc.1.symm.trans h)) fun h => h hc.2

end Sys2Proof.Machine
end


section

/-! PROOFS. The Yazen cycle, its frames and the line stops of the part (O38). -/

namespace Sys2Proof.Machine

section
variable {s x : State} {p n : Nat} {t : Time}

/-- A fold over the numbers below `n` that reaches what it does to `p` once: `Q` holds till then, `P` from then on. -/
theorem foldl_range_once {f : State → Nat → State} {P Q : State → Prop} (hp : p < n) (hbefore : ∀ x j, j ≠ p → Q x → Q (f x j))
    (hhit : ∀ x, Q x → P (f x p)) (hafter : ∀ x j, j ≠ p → P x → P (f x j)) (h : Q s) : P ((List.range n).foldl f s) := by
  induction n with
  | zero => exact absurd hp (Nat.not_lt_zero p)
  | succ n ih =>
    rw [List.range_succ, List.foldl_append, List.foldl_cons, List.foldl_nil]
    by_cases hn : n = p
    · subst hn
      refine hhit _ (List.foldlRecOn (motive := Q) _ _ h fun x hx j hj => hbefore x j ?_ hx)
      exact Nat.ne_of_lt (List.mem_range.1 hj)
    · exact hafter _ n hn (ih (by omega))

/-! ## What a frame of the part is made of (R395) -/

/-- The registers that the Ethernet header of a Yazen frame shows. -/
def Yazen.face (y : Yazen) : Word × Word × Word × Word := (y.vlan, y.dmacHi, y.dmacLo, y.etype)

theorem yzEther_of (hy : x.yz.face = s.yz.face) (hp : (x.port p).mac = (s.port p).mac) (b : List Byte) : x.yzEther p b = s.yzEther p b := by
  unfold Yazen.face at hy
  obtain ⟨hv, hy⟩ := Prod.mk.inj hy
  obtain ⟨hh, hy⟩ := Prod.mk.inj hy
  obtain ⟨hl, he⟩ := Prod.mk.inj hy
  unfold State.yzEther
  dsimp only
  rw [hv, hh, hl, he, hp]

theorem yzHeader_of (h : x.lws = s.lws) (a b c d e f : Nat) : x.yzHeader a b c d e f = s.yzHeader a b c d e f := by
  unfold State.yzHeader State.node State.lineId
  rw [h]

theorem yzSend_on {c : Option Time} {f : List Byte} (h : (s.port p).st = .enabled) :
    s.yzSend p c f = s.setPort p { s.port p with yzOut := (s.port p).yzOut ++ [(c, f)] } := if_pos h

theorem yzSend_off {c : Option Time} {f : List Byte} (h : (s.port p).st ≠ .enabled) : s.yzSend p c f = s := if_neg h

theorem yzSend_port (c : Option Time) (f : List Byte) (j : Nat) : (s.yzSend p c f).port j =
    if j = p ∧ (s.port p).st = .enabled then { s.port p with yzOut := (s.port p).yzOut ++ [(c, f)] } else s.port j := by
  by_cases h : (s.port p).st = .enabled
  · rw [yzSend_on h, State.setPort_port]
    exact if_congr (by rw [and_iff_left h]) rfl rfl
  · rw [yzSend_off h, if_neg fun hc => h hc.2]

theorem yzSend_frame (c : Option Time) (f : List Byte) : (s.yzSend p c f).yz = s.yz ∧ (s.yzSend p c f).lws = s.lws ∧ (s.yzSend p c f).now = s.now ∧
    (s.yzSend p c f).net.ptp = s.net.ptp := by
  unfold State.yzSend
  dsimp only
  split <;> exact ⟨rfl, rfl, rfl, rfl⟩

/-! ## Line stops (R405) -/

/-- One LINE_STOP frame at port `p`. -/
def State.stopFrame (q r : Byte) (s : State) (p : Nat) : State :=
  if s.yz.carries p then s.yzSend p none (s.yzEther p (s.yzHeader 2 255 0 0 r.toNat q.toNat)) else s

theorem stopFrames_eq (s : State) (q r : Byte) : s.stopFrames q r = (List.range 16).foldl (State.stopFrame q r) s := rfl

/-- The port after its LINE_STOP frame. -/
def State.stoppedPort (s : State) (q r : Byte) (p : Nat) : Port :=
  if s.yz.carries p = true ∧ (s.port p).st = .enabled then
    { s.port p with yzOut := (s.port p).yzOut ++ [(none, s.yzEther p (s.yzHeader 2 255 0 0 r.toNat q.toNat))] }
  else s.port p

theorem stopFrame_frame (q r : Byte) (j : Nat) : (s.stopFrame q r j).yz = s.yz ∧ (s.stopFrame q r j).lws = s.lws := by
  unfold State.stopFrame
  split
  · exact ⟨(yzSend_frame ..).1, (yzSend_frame ..).2.1⟩
  · exact ⟨rfl, rfl⟩

theorem stopFrame_other (q r : Byte) {j : Nat} (h : p ≠ j) : (s.stopFrame q r j).port p = s.port p := by
  unfold State.stopFrame
  split
  · rw [yzSend_port, if_neg fun hc => h hc.1]
  · rfl

theorem stopFrame_own (q r : Byte) : (s.stopFrame q r p).port p = s.stoppedPort q r p := by
  unfold State.stopFrame State.stoppedPort
  by_cases h : s.yz.carries p = true
  · rw [if_pos h, yzSend_port]
    exact if_congr ⟨fun hc => ⟨h, hc.2⟩, fun hc => ⟨rfl, hc.2⟩⟩ rfl rfl
  · rw [if_neg h, if_neg fun hc => h hc.1]

theorem stoppedPort_of (q r : Byte) (hy : x.yz = s.yz) (hl : x.lws = s.lws) (hp : x.port p = s.port p) : x.stoppedPort q r p = s.stoppedPort q r p := by
  unfold State.stoppedPort
  rw [hy, hp, yzHeader_of hl, yzEther_of (congrArg Yazen.face hy) (congrArg Port.mac hp)]

theorem stopFrames_port (q r : Byte) (h : p < 16) : (s.stopFrames q r).port p = s.stoppedPort q r p := by
  rw [stopFrames_eq]
  refine foldl_range_once (f := State.stopFrame q r) (P := fun x => x.port p = s.stoppedPort q r p)
    (Q := fun x => x.yz = s.yz ∧ x.lws = s.lws ∧ x.port p = s.port p) h (fun x j hj hx => ?_) (fun x hx => ?_) (fun x j hj hx => ?_) ⟨rfl, rfl, rfl⟩
  · obtain ⟨hy, hl⟩ := stopFrame_frame (s := x) q r j
    exact ⟨hy.trans hx.1, hl.trans hx.2.1, (stopFrame_other q r (Ne.symm hj)).trans hx.2.2⟩
  · rw [stopFrame_own]
    exact stoppedPort_of q r hx.1 hx.2.1 hx.2.2
  · exact (stopFrame_other q r (Ne.symm hj)).trans hx

/-! ## A write of YZ_STOP (R7, R405) -/

theorem lineStop_sends {r : Byte} (he : s.yz.en = true) (hno : (s.yz.stops.any fun x => x.2.2.1 = 1 && cyc x.2.2.2 = cyc s.now) = false) :
    s.lineStop r = (s.setYz { s.yz with stopSeq := s.yz.stopSeq + 1, stops := s.yz.stops ++ [(2, s.yz.stopSeq + 1, r, s.now)] }).stopFrames
      (s.yz.stopSeq + 1) r := by
  refine if_neg ?_
  rw [he, hno]
  exact Bool.false_ne_true

theorem lineStop_off {r : Byte} (he : s.yz.en = false) : s.lineStop r = s := by
  refine if_pos ?_
  rw [he]
  rfl

/-- R405: the REASON that a GO write sends. -/
def goReason (v : Word) : Byte := if 0 < fld v 0 8 ∧ fld v 0 8 < 0x80 then 0 else BitVec.ofNat 8 (fld v 0 8)

/-- YZ_STOP as it stands after a write that is not ignored. -/
def Yazen.stopPut (y : Yazen) (v : Word) : Yazen :=
  { y with stop := wAt 0 (fld v 0 8), cfgRej := y.cfgRej || (bit v 8 && decide (0 < fld v 0 8) && decide (fld v 0 8 < 0x80)) }

theorem stopReserved_iff (r : Nat) : stopReserved r = true ↔ 1 < r ∧ r < 0x80 := by
  unfold stopReserved
  rw [Bool.and_eq_true, decide_eq_true_eq, decide_eq_true_eq]
  exact Iff.rfl

theorem stopWrite_ignored {v : Word} (h8 : bit v 8 = false) (h1 : 1 < fld v 0 8) (h80 : fld v 0 8 < 0x80) :
    s.stopWrite v = s.setYz { s.yz with cfgRej := true } := by
  refine (if_pos ?_).trans (if_pos ((stopReserved_iff _).2 ⟨h1, h80⟩))
  rw [h8]
  rfl

theorem stopWrite_stays {v : Word} (h8 : bit v 8 = false) (h : fld v 0 8 ≤ 1 ∨ 0x80 ≤ fld v 0 8) : s.stopWrite v = s.setYz (s.yz.stopPut v) := by
  refine (if_pos ?_).trans ((if_neg ?_).trans ?_)
  · rw [h8]
    rfl
  · rw [stopReserved_iff]
    exact fun hc => h.elim (Nat.not_le.2 hc.1) (Nat.not_le.2 hc.2)
  · unfold Yazen.stopPut
    rw [h8, Bool.false_and, Bool.false_and, Bool.or_false]
    rfl

/-- R405: a GO write puts the register in and sends a line stop. -/
theorem stopWrite_go {v : Word} (h8 : bit v 8 = true) : s.stopWrite v = (s.setYz (s.yz.stopPut v)).lineStop (goReason v) := by
  have hn : ¬(!bit v 8) = true := by rw [h8]; exact Bool.false_ne_true
  refine (if_neg hn).trans ?_
  by_cases h : 0 < fld v 0 8 ∧ fld v 0 8 < 0x80
  · have hput : s.yz.stopPut v = { s.yz with stop := wAt 0 (fld v 0 8), cfgRej := true } := by
      unfold Yazen.stopPut
      rw [h8, decide_eq_true h.1, decide_eq_true h.2, Bool.and_self, Bool.and_self, Bool.or_true]
    refine (if_pos ?_).trans ?_
    · rw [Bool.or_eq_true, decide_eq_true_eq, stopReserved_iff]
      omega
    · rw [hput, goReason, if_pos h]
      rfl
  · have hput : s.yz.stopPut v = { s.yz with stop := wAt 0 (fld v 0 8) } := by
      have hz : (bit v 8 && decide (0 < fld v 0 8) && decide (fld v 0 8 < 0x80)) = false := by
        rw [h8, Bool.true_and, Bool.eq_false_iff, Ne, Bool.and_eq_true, decide_eq_true_eq, decide_eq_true_eq]
        exact h
      unfold Yazen.stopPut
      rw [hz, Bool.or_false]
    refine (if_neg ?_).trans ?_
    · rw [Bool.or_eq_true, decide_eq_true_eq, stopReserved_iff]
      omega
    · rw [hput, goReason, if_neg h]
      rfl

/-! ## Repeats (R405) -/

theorem stopWaits_iff (y : Nat × Byte × Byte × Time) : stopWaits t y = true ↔ t < y.2.2.2 + 80000 * (3 - y.1) := by
  unfold stopWaits
  rw [decide_eq_true_eq]
  exact Iff.rfl

theorem stopRepeat_due {q r : Byte} {a : Time} {w l : List (Nat × Byte × Byte × Time)} (hs : s.yz.stops = w ++ (n, q, r, a) :: l)
    (hw : ∀ y ∈ w, stopWaits s.now y = true) (hd : ¬stopWaits s.now (n, q, r, a) = true) (he : s.yz.en = true) : s.stopRepeat =
      (s.setYz { s.yz with stops := w ++ if n ≤ 1 then l else (n - 1, q, r, a) :: l }).stopFrames q r := by
  have htake : s.yz.stops.takeWhile (stopWaits s.now) = w := by
    rw [hs, List.takeWhile_append_of_pos hw, List.takeWhile_cons_of_neg hd, List.append_nil]
  have hdrop : s.yz.stops.dropWhile (stopWaits s.now) = (n, q, r, a) :: l := by
    rw [hs, List.dropWhile_append_of_pos hw, List.dropWhile_cons_of_neg hd]
  unfold State.stopRepeat
  rw [htake, hdrop]
  exact if_pos he

theorem stopRepeat_waits (h : ∀ y ∈ s.yz.stops, stopWaits s.now y = true) : s.stopRepeat = s := by
  unfold State.stopRepeat
  rw [List.dropWhile_eq_nil_iff.2 h]

/-! ## CREDIT frames (R402) -/

/-- The slots freed on ring side `b`. -/
def Yazen.freed (y : Yazen) (b : Bool) : Nat := if b then y.freedB else y.freedA

/-- What a CREDIT frame of ring side `b` leaves of the engine: the count it has reported. -/
def Yazen.reported (y : Yazen) (b : Bool) : Yazen := if b then { y with sentB := y.freedB } else { y with sentA := y.freedA }

theorem sendCredit_eq (s : State) (b : Bool) : s.sendCredit b =
    (s.setYz (s.yz.reported b)).yzSend (s.yz.portOf b) none
      ((s.setYz (s.yz.reported b)).yzEther (s.yz.portOf b) ((s.setYz (s.yz.reported b)).yzHeader 3 0 0 (s.yz.freed b) 0 0)) := by
  cases b <;> rfl

theorem reported_face (y : Yazen) (b : Bool) : (y.reported b).face = y.face ∧ (y.reported b).ctrl = y.ctrl ∧ (y.reported b).cycle = y.cycle ∧
    (y.reported b).begun = y.begun ∧ (y.reported b).ports = y.ports ∧ (y.reported b).fwdDrop = y.fwdDrop := by
  cases b <;> exact ⟨rfl, rfl, rfl, rfl, rfl, rfl⟩

theorem reported_fwdOf (y : Yazen) (b c : Bool) : (y.reported b).fwdOf c = y.fwdOf c := by
  cases b <;> cases c <;> rfl

theorem sendCredit_frame (s : State) (b : Bool) : (s.sendCredit b).yz = s.yz.reported b ∧ (s.sendCredit b).now = s.now ∧
    (s.sendCredit b).net.ptp = s.net.ptp ∧ (s.sendCredit b).lws = s.lws := by
  rw [sendCredit_eq]
  obtain ⟨hy, hl, hn, hp⟩ := yzSend_frame (s := s.setYz (s.yz.reported b)) (p := s.yz.portOf b) none
    ((s.setYz (s.yz.reported b)).yzEther (s.yz.portOf b) ((s.setYz (s.yz.reported b)).yzHeader 3 0 0 (s.yz.freed b) 0 0))
  exact ⟨hy, hn, hp, hl⟩

theorem sendCredit_port (s : State) (b : Bool) (j : Nat) : (s.sendCredit b).port j =
    if j = s.yz.portOf b ∧ (s.port (s.yz.portOf b)).st = .enabled then { s.port (s.yz.portOf b) with
      yzOut := (s.port (s.yz.portOf b)).yzOut ++ [(none, s.yzEther (s.yz.portOf b) (s.yzHeader 3 0 0 (s.yz.freed b) 0 0))] }
    else s.port j := by
  have hface : (s.setYz (s.yz.reported b)).yz.face = s.yz.face := (reported_face s.yz b).1
  rw [sendCredit_eq, yzSend_port, yzEther_of hface rfl]
  rfl

/-! ## The present cycle (R398) -/

theorem cycleNow_of (hp : x.net.ptp = s.net.ptp) (hn : x.now = s.now) (hc : x.yz.ctrl = s.yz.ctrl) : x.cycleNow = s.cycleNow := by
  have hctrl : x.net.yz.ctrl = s.net.yz.ctrl := hc
  unfold State.cycleNow State.lineNow State.tCyc
  rw [hp, hn, hctrl]

theorem inCycle_iff : s.inCycle = true ↔ s.yz.en = true ∧ s.yz.cycle = BitVec.ofNat 32 s.cycleNow := by
  unfold State.inCycle
  rw [Bool.and_eq_true, decide_eq_true_eq]

theorem cycleStart_idle (h : s.yz.en = false ∨ s.inCycle = true) : s.cycleStart = s := by
  refine if_pos ?_
  rw [Bool.or_eq_true, Bool.not_eq_true']
  exact h

/-- The engine once cycle CYCLE_START has begun. -/
def State.entered (s : State) : State := s.setYz (s.yz.enter (BitVec.ofNat 32 s.cycleNow))

theorem cycleStart_begins (he : s.yz.en = true) (hc : s.inCycle = false) :
    s.cycleStart = if s.yz.chain then (s.entered.sendCredit false).sendCredit true else s.entered := by
  refine if_neg ?_
  rw [he, hc]
  exact Bool.false_ne_true

theorem cycleStart_frame (he : s.yz.en = true) (hc : s.inCycle = false) {u : State} (hu : s.cycleStart = u) :
    u.yz.cycle = BitVec.ofNat 32 s.cycleNow ∧ u.yz.begun = (s.yz.enter (BitVec.ofNat 32 s.cycleNow)).begun ∧ u.yz.ctrl = s.yz.ctrl ∧
      u.now = s.now ∧ u.net.ptp = s.net.ptp := by
  rw [cycleStart_begins he hc] at hu
  subst hu
  split
  · obtain ⟨hy1, hn1, hp1, -⟩ := sendCredit_frame s.entered false
    obtain ⟨hy2, hn2, hp2, -⟩ := sendCredit_frame (s.entered.sendCredit false) true
    obtain ⟨-, hc1, hk1, hb1, -⟩ := reported_face s.entered.yz false
    obtain ⟨-, hc2, hk2, hb2, -⟩ := reported_face (s.entered.sendCredit false).yz true
    rw [hy2, hn2, hn1, hp2, hp1, hk2, hb2, hc2, hy1, hk1, hb1, hc1]
    exact ⟨rfl, rfl, rfl, rfl, rfl⟩
  · exact ⟨rfl, rfl, rfl, rfl, rfl⟩

theorem cycleStart_credit (he : s.yz.en = true) (hc : s.inCycle = false) (hch : s.yz.chain = true) (hne : s.yz.ringA ≠ s.yz.ringB)
    (hst : (s.port s.yz.ringA).st = .enabled) : (s.cycleStart.port s.yz.ringA).yzOut =
      (s.port s.yz.ringA).yzOut ++ [(none, s.yzEther s.yz.ringA (s.yzHeader 3 0 0 s.yz.freedA 0 0))] := by
  have hother : (s.entered.sendCredit false).yz.portOf true = s.yz.ringB := by rw [(sendCredit_frame ..).1]; rfl
  have hown : s.entered.yz.portOf false = s.yz.ringA := rfl
  rw [cycleStart_begins he hc, if_pos hch, sendCredit_port, hother, if_neg fun h => hne h.1, sendCredit_port, hown, if_pos ⟨rfl, hst⟩,
    yzEther_of (s := s) rfl rfl]
  rfl

/-! ## The snapshot (R398 step 1, R407) -/

theorem snapshot_waits (h : s.inCycle = false ∨ s.yz.snapIn = some s.cycleNow ∨ s.lineNow.toNat + 8000 < s.cycleAt + s.yz.ofs) : s.snapshot = s := by
  refine if_pos ?_
  rw [Bool.or_eq_true, Bool.or_eq_true, Bool.not_eq_true', decide_eq_true_eq, decide_eq_true_eq, or_assoc]
  exact h

/-- R407: every RELOAD is cleared. -/
def State.noReload (s : State) : State := (s.axes.cells.map (·.1)).foldl (fun s n => s.modCell n fun c => { c with reload := false }) s

theorem snapshot_takes (hc : s.inCycle = true) (hs : s.yz.snapIn ≠ some s.cycleNow) (ht : s.cycleAt + s.yz.ofs ≤ s.lineNow.toNat + 8000) :
    s.snapshot = s.noReload.setYz { s.yz with
      body := s.yz.exports.flatMap (fun n => s.axisSample n) ++ s.yz.ownList.flatMap (fun r => BitVec.ofNat 8 r :: List.replicate 7 0 ++ s.yz.slotData r),
      nAx := s.yz.exports.length, nSlot := s.yz.ownList.length, snapIn := some s.noReload.cycleNow } := by
  refine if_neg ?_
  rw [Bool.or_eq_true, Bool.or_eq_true, Bool.not_eq_true', decide_eq_true_eq, decide_eq_true_eq, hc]
  exact fun h => h.elim (fun h => h.elim Bool.noConfusion hs) (Nat.not_lt.2 ht)

theorem noReload_frame (s : State) : s.noReload.net = s.net ∧ s.noReload.now = s.now := by
  unfold State.noReload
  exact ⟨foldl_keeps State.net (f := fun s n => s.modCell n fun c => { c with reload := false }) (fun _ _ => rfl) _ s,
    foldl_keeps State.now (f := fun s n => s.modCell n fun c => { c with reload := false }) (fun _ _ => rfl) _ s⟩

theorem noReload_cell (s : State) (n : Nat) : s.noReload.cell n = { s.cell n with reload := false } := by
  have hstep (x : State) (j : Nat) : (x.modCell j fun c => { c with reload := false }).cell n =
      if n = j then { x.cell j with reload := false } else x.cell n := tget_tput ..
  by_cases hm : n ∈ s.axes.cells.map (·.1)
  · refine foldl_reaches (f := fun s n => s.modCell n fun c => { c with reload := false }) (P := fun x => x.cell n = { s.cell n with reload := false })
      (Q := fun x => x.cell n = s.cell n) (i := n) (fun x j hx => ?_) (fun x hx => ?_) (fun x j hj hx => ?_) hm rfl
    · rw [hstep]
      split
      · next hj => rw [← hj, hx]
      · exact hx
    · rw [hstep, if_pos rfl, hx]
    · rw [hstep, if_neg (Ne.symm hj)]
      exact hx
  · have hdef : s.cell n = {} := tget_of_not_mem _ hm
    rw [hdef]
    refine List.foldlRecOn (motive := fun x : State => x.cell n = {}) _ _ hdef fun x hx j hj => ?_
    rw [hstep, if_neg fun h : n = j => hm (h ▸ hj)]
    exact hx

/-! ## The CYCLIC frame (R398 step 2, R399, R402) -/

theorem cyclic_waits (h : s.inCycle = false ∨ s.synced = false ∨ s.yz.snapIn ≠ some s.cycleNow ∨ s.yz.sentIn = some s.cycleNow ∨
    s.lineNow.toNat < s.cycleAt + s.yz.ofs) : s.cyclic = s := by
  refine if_pos ?_
  rw [Bool.or_eq_true, Bool.or_eq_true, Bool.or_eq_true, Bool.or_eq_true, Bool.not_eq_true', Bool.not_eq_true', decide_eq_true_eq,
    decide_eq_true_eq, decide_eq_true_eq, or_assoc, or_assoc, or_assoc]
  exact h

theorem cyclic_sends (hc : s.inCycle = true) (hy : s.synced = true) (hs : s.yz.snapIn = some s.cycleNow) (hn : s.yz.sentIn ≠ some s.cycleNow)
    (ht : s.cycleAt + s.yz.ofs ≤ s.lineNow.toNat) :
    s.cyclic = (List.range 16).foldl State.cyclicPut (s.setYz { s.yz with sentIn := some s.cycleNow }) := by
  refine if_neg ?_
  rw [Bool.or_eq_true, Bool.or_eq_true, Bool.or_eq_true, Bool.or_eq_true, Bool.not_eq_true', Bool.not_eq_true', decide_eq_true_eq,
    decide_eq_true_eq, decide_eq_true_eq, hc, hy]
  rintro ((((h | h) | h) | h) | h)
  · exact Bool.noConfusion h
  · exact Bool.noConfusion h
  · exact h hs
  · exact hn h
  · exact absurd ht (Nat.not_le.2 h)

/-- R398: what the CYCLIC frames of the ports show of the engine. -/
structure SameCycle (s x : State) : Prop where
  yz : ∃ d, x.yz = { s.yz with txDrop := d }
  lws : x.lws = s.lws
  now : x.now = s.now
  ptp : x.net.ptp = s.net.ptp

namespace SameCycle

theorem refl (s : State) : SameCycle s s := ⟨⟨_, rfl⟩, rfl, rfl, rfl⟩

theorem trans {u : State} (h : SameCycle s u) (g : SameCycle u x) : SameCycle s x := by
  obtain ⟨d, hd⟩ := h.yz
  obtain ⟨e, he⟩ := g.yz
  exact ⟨⟨e, by rw [he, hd]⟩, g.lws.trans h.lws, g.now.trans h.now, g.ptp.trans h.ptp⟩

theorem cycleNow (h : SameCycle s x) : x.cycleNow = s.cycleNow := by
  obtain ⟨d, hd⟩ := h.yz
  exact cycleNow_of h.ptp h.now (by rw [hd])

end SameCycle

/-- The CYCLIC frame of port `p`. -/
def State.cyclicFrame (s : State) (p : Nat) : List Byte :=
  s.yzEther p (s.yzHeader 1 255 s.yz.cycle.toNat 0 s.yz.nAx s.yz.nSlot ++ s.yz.body)

theorem cyclicFrame_of (h : SameCycle s x) (hp : x.port p = s.port p) : x.cyclicFrame p = s.cyclicFrame p := by
  obtain ⟨d, hd⟩ := h.yz
  unfold State.cyclicFrame
  rw [yzHeader_of h.lws, yzEther_of (s := s) (by rw [hd]; rfl) (congrArg Port.mac hp), hd]

theorem cyclicPut_off (h : s.yz.carries p = false) : s.cyclicPut p = s := by
  refine if_pos ?_
  rw [h]
  rfl

/-- The part with one more own frame dropped. -/
def State.txDropped (s : State) : State := s.modYz fun y => { y with txDrop := y.txDrop + 1 }

theorem cyclicPut_on (hc : s.yz.carries p = true) (h : s.yz.chain = true ∨ (s.port p).st = .enabled ∧ (s.port p).link = true) :
    s.cyclicPut p = (if (s.port p).cycOut.isSome then s.txDropped else s).modPort p fun y =>
      { y with cycOut := some ((if (s.port p).cycOut.isSome then s.txDropped else s).cycleNow, s.cyclicFrame p) } := by
  refine if_neg ?_
  rw [hc, Bool.not_true, Bool.false_or, Bool.and_eq_true, Bool.not_eq_true', Bool.or_eq_true, decide_eq_true_eq, Bool.not_eq_true']
  rintro ⟨hn, hbad⟩
  rcases h with h | ⟨hst, hl⟩
  · exact Bool.noConfusion (h.symm.trans hn)
  · exact hbad.elim (fun h => h hst) fun h => Bool.noConfusion (hl.symm.trans h)

theorem cyclicPut_sameCycle (s : State) (p : Nat) : SameCycle s (s.cyclicPut p) := by
  unfold State.cyclicPut
  dsimp only
  split
  · exact .refl s
  · split <;> exact ⟨⟨_, rfl⟩, rfl, rfl, rfl⟩

theorem cyclicPut_other (s : State) {j : Nat} (h : p ≠ j) : (s.cyclicPut j).port p = s.port p := by
  unfold State.cyclicPut
  dsimp only
  split
  · rfl
  · split <;> exact tget_tput_ne _ _ _ h

theorem cyclicPut_own (hc : s.yz.carries p = true) (h : s.yz.chain = true ∨ (s.port p).st = .enabled ∧ (s.port p).link = true) :
    ((s.cyclicPut p).port p).cycOut = some (s.cycleNow, s.cyclicFrame p) := by
  rw [cyclicPut_on hc h, State.modPort_eq, State.setPort_port, if_pos rfl]
  split <;> rfl

theorem cyclicPuts_sameCycle (s : State) : SameCycle s ((List.range 16).foldl State.cyclicPut s) :=
  List.foldlRecOn (motive := SameCycle s) _ _ (.refl s) fun x hx j _ => hx.trans (cyclicPut_sameCycle x j)

/-- R398: the CYCLIC frame waits at every port that carries Yazen. -/
theorem cyclicPuts_spec (s : State) (h : p < 16) {u : State} (hu : (List.range 16).foldl State.cyclicPut s = u) :
    (s.yz.carries p = true → s.yz.chain = true ∨ (s.port p).st = .enabled ∧ (s.port p).link = true →
      (u.port p).cycOut = some (s.cycleNow, s.cyclicFrame p)) ∧
    (s.yz.carries p = false → u.port p = s.port p) := by
  subst hu
  refine ⟨fun hc hon => ?_, fun hc => ?_⟩
  · refine foldl_range_once (f := State.cyclicPut) (P := fun x => (x.port p).cycOut = some (s.cycleNow, s.cyclicFrame p))
      (Q := fun x => SameCycle s x ∧ x.port p = s.port p) h (fun x j hj hx => ?_) (fun x hx => ?_) (fun x j hj hx => ?_) ⟨.refl s, rfl⟩
    · exact ⟨hx.1.trans (cyclicPut_sameCycle x j), (cyclicPut_other x (Ne.symm hj)).trans hx.2⟩
    · obtain ⟨d, hd⟩ := hx.1.yz
      rw [← hx.1.cycleNow, ← cyclicFrame_of hx.1 hx.2]
      exact cyclicPut_own (by rw [hd]; exact hc) (by rw [hd, hx.2]; exact hon)
    · rw [cyclicPut_other x (Ne.symm hj)]
      exact hx
  · refine (List.foldlRecOn (motive := fun x : State => SameCycle s x ∧ x.port p = s.port p) _ _ ⟨.refl s, rfl⟩ fun x hx j _ => ?_).2
    refine ⟨hx.1.trans (cyclicPut_sameCycle x j), ?_⟩
    by_cases hj : p = j
    · subst hj
      obtain ⟨d, hd⟩ := hx.1.yz
      rw [cyclicPut_off (by rw [hd]; exact hc)]
      exact hx.2
    · exact (cyclicPut_other x hj).trans hx.2

/-! ## An own frame that has not started (R23, R402) -/

theorem ownFrameDrop_none (h : (s.port p).cycOut = none) : s.ownFrameDrop p = s := by
  unfold State.ownFrameDrop
  rw [h]

theorem ownFrameDrop_some {k : Nat} {f : List Byte} (h : (s.port p).cycOut = some (k, f)) : s.ownFrameDrop p =
    if k = s.cycleNow then s else (s.setPort p { s.port p with cycOut := none }).setYz { s.yz with txDrop := s.yz.txDrop + 1 } := by
  unfold State.ownFrameDrop
  rw [h] <;> rfl

end

/-- Settles O38: the instants of a cycle, each by its condition; the line stops by a write and by their repeats. -/
theorem theYazenCycleAndItsLineStops : Obligations.TheYazenCycleAndItsLineStops := by
  unfold Obligations.TheYazenCycleAndItsLineStops
  refine ⟨fun t s a hup ha => ?_, fun t s a hup ha => ?_, fun t s a hup ha => ?_, fun t p s hup => ?_, fun s q r p hp => stopFrames_port q r hp,
    fun t m v s y r hs hr hy => ?_, fun t s n q r a w l hup hst hw hd he => ?_, fun t s hup h => ?_⟩
  case refine_1 =>
    have hexec : exec (.cycleStart t) s = .next a.cycleStart := ha ▸ engineEvent_up (f := State.cycleStart) hup
    have hyz : a.yz = s.yz := by rw [ha]; rfl
    have hport : a.net.ports = s.net.ports := by rw [ha]; rfl
    rw [hexec, ← hyz, ← hport]
    refine ⟨fun h => congrArg _ (cycleStart_idle h), fun he hc => ⟨_, rfl, ?_⟩⟩
    obtain ⟨hcyc, hbegun, hctrl, hnow, hptp⟩ := cycleStart_frame he hc rfl
    refine ⟨hcyc, fun d hd h31 => ?_, ?_, fun hch => ?_, fun hch hne hen => ?_⟩
    · rw [hbegun, Yazen.enter, ← hd]
      exact congrArg (a.yz.begun + ·) (if_pos h31)
    · refine inCycle_iff.2 ⟨?_, ?_⟩
      · rw [Yazen.en, hctrl]
        exact he
      · rw [hcyc, cycleNow_of hptp hnow hctrl]
    · rw [cycleStart_begins he hc, if_neg (Bool.eq_false_iff.1 hch)]
      rfl
    · have hcredit := cycleStart_credit he hc hch hne (by rw [ha]; rw [ha] at hen; exact hen)
      rw [hcredit, ha]
      rfl
  case refine_2 =>
    have hexec : exec (.snapshot t) s = .next a.snapshot := ha ▸ engineEvent_up (f := State.snapshot) hup
    have hyz : a.yz = s.yz := by rw [ha]; rfl
    have hcell (n : Nat) : s.cell n = a.cell n := by rw [ha]; rfl
    have hport : a.net.ports = s.net.ports := by rw [ha]; rfl
    rw [hexec, ← hyz, ← hport]
    refine ⟨fun h => congrArg _ (snapshot_waits h), fun hc hs ht => ⟨_, rfl, ?_⟩⟩
    obtain ⟨hnet, hnow⟩ := noReload_frame a
    have hcyc : a.noReload.cycleNow = a.cycleNow := cycleNow_of (congrArg Net.ptp hnet) hnow (congrArg (fun n : Net => n.yz.ctrl) hnet)
    rw [snapshot_takes hc hs ht, hcyc]
    refine ⟨rfl, fun n => ?_, by rw [State.setYz_net_ports, hnet]⟩
    rw [hcell]
    exact noReload_cell a n
  case refine_3 =>
    have hexec : exec (.cyclic t) s = .next a.cyclic := ha ▸ engineEvent_up (f := State.cyclic) hup
    have hyz : a.yz = s.yz := by rw [ha]; rfl
    rw [hexec, ← hyz]
    refine ⟨fun h => congrArg _ (cyclic_waits h), fun hc hsy hs hn ht => ⟨_, rfl, ?_⟩⟩
    rw [cyclic_sends hc hsy hs hn ht]
    refine ⟨?_, fun p hp => ?_⟩
    · obtain ⟨d, hd⟩ := (cyclicPuts_sameCycle (a.setYz { a.yz with sentIn := some a.cycleNow })).yz
      rw [hd]
      rfl
    · obtain ⟨hon, hoff⟩ := cyclicPuts_spec (a.setYz { a.yz with sentIn := some a.cycleNow }) hp rfl
      have hcyc : (a.setYz { a.yz with sentIn := some a.cycleNow }).cycleNow = a.cycleNow := cycleNow_of rfl rfl rfl
      rw [hcyc] at hon
      subst ha
      exact ⟨hon, hoff⟩
  case refine_4 =>
    have hexec : exec (.ownFrameDrop t p) s = .next ((s.arrive t).ownFrameDrop p) := engineEvent_up (f := fun s => s.ownFrameDrop p) hup
    rw [hexec]
    refine ⟨fun h => congrArg _ (ownFrameDrop_none (s := s.arrive t) h), fun k f h => ?_⟩
    rw [ownFrameDrop_some (s := s.arrive t) h]
    refine ⟨fun hk => congrArg _ (if_pos hk), fun hk => ⟨_, congrArg _ (if_neg hk), tget_tput_self .., rfl, fun j hj => tget_tput_ne _ _ _ hj⟩⟩
  case refine_5 =>
    have hexec : exec (.lineStop t m v) s = .next ((s.arrive t).stopWrite v) := regWrite_serves (f := fun s => s.stopWrite v) hs
    have hput : y = s.yz.stopPut v := hy
    have hgo : r = goReason v := hr
    rw [hexec, hput, hgo]
    refine ⟨fun h8 h1 h80 => congrArg _ (stopWrite_ignored h8 h1 h80), fun h => congrArg _ ?_, fun h8 he hno => congrArg _ ?_⟩
    · rcases h with ⟨h8, h⟩ | ⟨h8, he⟩
      · exact stopWrite_stays h8 h
      · rw [stopWrite_go h8]
        exact lineStop_off he
    · rw [stopWrite_go h8]
      exact lineStop_sends he hno
  case refine_6 =>
    refine (engineEvent_up (f := State.stopRepeat) hup).trans (congrArg _ (stopRepeat_due (s := s.arrive t) hst (fun y hy => (stopWaits_iff y).2 (hw y hy)) ?_ he))
    rw [stopWaits_iff]
    exact Nat.not_lt.2 hd
  case refine_7 =>
    exact (engineEvent_up (f := State.stopRepeat) hup).trans (congrArg _ (stopRepeat_waits (s := s.arrive t) fun y hy => (stopWaits_iff y).2 (h y hy)))

end Sys2Proof.Machine
end


section

/-! PROOFS. Yazen frames received: forwarding, samples, slots, line stops and credits (O39). -/

namespace Sys2Proof.Machine

section
variable {s : State} {p n r src k : Nat} {a t : Time} {f h : List Byte} {b : Bool} {y : Yazen}

/-! ## Slots that are freed (R402) -/

/-- One more slot freed on ring side `b`. -/
def Yazen.freeOne (y : Yazen) (b : Bool) : Yazen := if b then { y with freedB := y.freedB + 1 } else { y with freedA := y.freedA + 1 }

theorem freeOne_fwd (y : Yazen) (b c : Bool) : (y.freeOne b).fwdOf c = y.fwdOf c ∧ (y.freeOne b).fwdDrop = y.fwdDrop := by
  cases b <;> cases c <;> exact ⟨rfl, rfl⟩

/-- The slots of ring side `b` that are freed and not reported yet. -/
def Yazen.unreported (y : Yazen) (b : Bool) : Nat := if b then y.freedB - y.sentB else y.freedA - y.sentA

theorem freeSlot_eq (s : State) (b : Bool) : s.freeSlot b =
    if 4 ≤ (s.yz.freeOne b).unreported b then (s.setYz (s.yz.freeOne b)).sendCredit b else s.setYz (s.yz.freeOne b) := by
  cases b <;> rfl

theorem freeSlot_yz (s : State) (b : Bool) : (s.freeSlot b).yz = s.yz.freeOne b ∨ (s.freeSlot b).yz = (s.yz.freeOne b).reported b := by
  rw [freeSlot_eq]
  split
  · exact .inr (sendCredit_frame _ b).1
  · exact .inl rfl

theorem freeSlot_fwd (s : State) (b c : Bool) : (s.freeSlot b).yz.fwdOf c = s.yz.fwdOf c ∧ (s.freeSlot b).yz.fwdDrop = s.yz.fwdDrop := by
  obtain ⟨hf, hd⟩ := freeOne_fwd s.yz b c
  rcases freeSlot_yz s b with h | h
  · rw [h]
    exact ⟨hf, hd⟩
  · obtain ⟨-, -, -, -, -, hd'⟩ := reported_face (s.yz.freeOne b) b
    rw [h, reported_fwdOf, hd']
    exact ⟨hf, hd⟩

/-! ## Forwarding (R400, R401) -/

theorem setFwd_fwdOf (y : Yazen) (b c : Bool) (l : List (Time × List Byte)) : (y.setFwd b l).fwdOf c = if c = b then l else y.fwdOf c := by
  cases b <;> cases c <;> rfl

theorem yzForward_alone (h : s.yz.ring p = none) : s.yzForward p a f = s := by
  unfold State.yzForward
  rw [h]

/-- The part with one more forwarded frame dropped. -/
def State.fwdDropped (s : State) : State := s.modYz fun y => { y with fwdDrop := y.fwdDrop + 1 }

theorem yzForward_ring (h : s.yz.ring p = some b) : s.yzForward p a f =
    if s.forwards f then
      if yzType (yzHead f) = 2 then s.yzSend (s.yz.portOf (!b)) (some a) (hopped f)
      else if 16 ≤ (s.yz.fwdOf (!b)).length then
        if yzType (yzHead f) = 1 then s.fwdDropped.freeSlot b else s.fwdDropped
      else s.modYz fun y => y.setFwd (!b) (y.fwdOf (!b) ++ [(a, hopped f)])
    else if yzType (yzHead f) = 1 then s.freeSlot b else s := by
  unfold State.yzForward
  rw [h] <;> rfl

section
variable (hr : s.yz.ring p = some b) (hf : s.forwards f = true)
include hr hf

theorem yzForward_stop (h2 : yzType (yzHead f) = 2) : s.yzForward p a f = s.yzSend (s.yz.portOf (!b)) (some a) (hopped f) :=
  (yzForward_ring hr).trans ((if_pos hf).trans (if_pos h2))

variable (h2 : yzType (yzHead f) ≠ 2)
include h2

theorem yzForward_waits (hl : (s.yz.fwdOf (!b)).length < 16) : (s.yzForward p a f).yz = s.yz.setFwd (!b) (s.yz.fwdOf (!b) ++ [(a, hopped f)]) := by
  have heq := (yzForward_ring (a := a) hr).trans ((if_pos hf).trans ((if_neg h2).trans (if_neg (Nat.not_le.2 hl))))
  rw [heq]
  rfl

theorem yzForward_full (hl : 16 ≤ (s.yz.fwdOf (!b)).length) : (s.yzForward p a f).yz.fwdDrop = s.yz.fwdDrop + 1 ∧
    (s.yzForward p a f).yz.fwdOf (!b) = s.yz.fwdOf (!b) := by
  have heq := (yzForward_ring (a := a) hr).trans ((if_pos hf).trans ((if_neg h2).trans (if_pos hl)))
  have hdrop : s.fwdDropped.yz.fwdOf (!b) = s.yz.fwdOf (!b) := by cases b <;> rfl
  rw [heq]
  split
  · obtain ⟨hfw, hd⟩ := freeSlot_fwd s.fwdDropped b (!b)
    exact ⟨hd, hfw.trans hdrop⟩
  · exact ⟨rfl, hdrop⟩

end

/-! ## The frame that is taken (R397) -/

theorem yazenRx_empty (h : s.yz.inbox = []) : s.yazenRx = s := by
  unfold State.yazenRx
  rw [h]

theorem yazenRx_takes {l : List (Nat × Time × List Byte)} (hi : s.yz.inbox = (p, a, f) :: l) {s1 : State}
    (h1 : s1 = (s.setYz { s.yz with inbox := l }).yzForward p a f) : s.yazenRx =
      if num (yzHead f) 0 1 % 16 ≠ 1 ∨ yzType (yzHead f) = 0 ∨ 3 < yzType (yzHead f) then s1.setYz { s1.yz with bad := s1.yz.bad + 1 }
      else if num (yzHead f) 4 4 ≠ s1.lineId then s1.setYz { s1.yz with foreign := s1.yz.foreign + 1 }
      else if yzType (yzHead f) = 1 then s1.cyclicRx (yzHead f)
      else if yzType (yzHead f) = 2 then s1.lineStopRx (yzHead f)
      else s1.creditRx p (yzHead f) := by
  subst h1
  unfold State.yazenRx
  rw [hi]
  refine if_congr ?_ rfl rfl
  rw [Bool.or_eq_true, Bool.or_eq_true, decide_eq_true_eq, decide_eq_true_eq, decide_eq_true_eq, or_assoc]

/-! ## CYCLIC frames (R397, R398, R404) -/

section
variable (hown : s.yz.chain = true ∨ yzSrc h ≠ s.node)
include hown

theorem cyclicRx_own : (!s.yz.chain && decide (yzSrc h = s.node)) = false := by
  rcases hown with hc | hc
  · rw [hc]
    rfl
  · rw [decide_eq_false hc, Bool.and_false]

theorem cyclicRx_eq : s.cyclicRx h =
    if s.synced = false ∨ bit (tget 0 s.yz.sub (yzSrc h / 32)) (yzSrc h % 32) = false then s
    else if num h 8 4 ≠ s.yz.cycle.toNat ∧ num h 8 4 ≠ (s.yz.cycle - 1).toNat then s.setYz { s.yz with lateRx := s.yz.lateRx + 1 }
    else if s.yz.seenCyc.contains (yzSrc h, num h 8 4) then s.setYz { s.yz with dup := s.yz.dup + 1 }
    else (((List.range (min 16 (num h 15 1))).map fun i => slice h (16 + 24 * (min 8 (num h 14 1 % 16)) + 72 * i) 72).foldl
      (fun (x : State) b => x.setYz (x.yz.slotRx (yzSrc h) (num b 0 1) (b.drop 8)))
      ((s.setYz { s.yz with
        rxOk := s.yz.rxOk + 1,
        seenCyc := (yzSrc h, num h 8 4) :: s.yz.seenCyc.filter fun p => p.2 = s.yz.cycle.toNat || p.2 = (s.yz.cycle - 1).toNat }).applySamples
          (yzSrc h) ((List.range (min 8 (num h 14 1 % 16))).map (sampleOf h)))).cicEdge 676 := by
  unfold State.cyclicRx
  dsimp only
  rw [cyclicRx_own hown]
  simp only [Bool.false_eq_true, if_false]
  refine if_congr ?_ rfl (if_congr ?_ rfl rfl)
  · rw [Bool.or_eq_true, Bool.not_eq_true', Bool.not_eq_true']
  · rw [Bool.and_eq_true, decide_eq_true_eq, decide_eq_true_eq]

end

/-! ## Slots (R404) -/

theorem slotRx_conflict {d : List Byte} {c : SlotCopy} (hc : c = tget {} y.slots r) (h : c.seen = true ∧ c.node < src ∧ y.begun - c.cycle ≤ 2) :
    y.slotRx src r d = { y with slotConflict := true } := by
  subst hc
  refine if_pos ?_
  rw [Bool.and_eq_true, Bool.and_eq_true, decide_eq_true_eq, decide_eq_true_eq, and_assoc]
  exact h

theorem slotRx_takes {d : List Byte} {c : SlotCopy} (hc : c = tget {} y.slots r) (h : c.seen = false ∨ src ≤ c.node ∨ 2 < y.begun - c.cycle) :
    y.slotRx src r d = { y with slots := tput {} y.slots r { data := d, node := src, cycle := y.begun, seen := true } } := by
  subst hc
  refine if_neg ?_
  rw [Bool.and_eq_true, Bool.and_eq_true, decide_eq_true_eq, decide_eq_true_eq]
  rintro ⟨⟨hs, hn⟩, hb⟩
  rcases h with h | h | h
  · exact Bool.noConfusion (hs.symm.trans h)
  · exact absurd hn (Nat.not_lt.2 h)
  · exact absurd hb (Nat.not_le.2 h)

/-! ## The first sample of a mirror (R53, R408) -/

theorem modN_range (c : Cell) : 0 < c.modN ∧ c.modN ≤ 2 ^ 32 := by
  unfold Cell.modN zero32
  split
  · decide
  · next h =>
    have hlt := c.mod.isLt
    have hpos : c.mod.toNat ≠ 0 := fun h0 => h (BitVec.eq_of_toNat_eq h0)
    exact ⟨by omega, by omega⟩

/-- A position below the modulus fits a phase word. -/
theorem phase_of_emod (c : Cell) (v : Int) : ((BitVec.ofInt 32 (v % c.modN)).toNat : Int) = v % c.modN ∧ (BitVec.ofInt 32 (v % c.modN)).toNat < c.modN := by
  obtain ⟨hpos, hle⟩ := modN_range c
  have h0 : 0 ≤ v % (c.modN : Int) := Int.emod_nonneg v (by omega)
  have h1 : v % (c.modN : Int) < c.modN := Int.emod_lt_of_pos v (by omega)
  have heq : ((BitVec.ofInt 32 (v % c.modN)).toNat : Int) = v % c.modN := by
    rw [BitVec.toNat_ofInt]
    have hmod : (v % (c.modN : Int)) % ((2 ^ 32 : Nat) : Int) = v % c.modN := Int.emod_eq_of_lt h0 (by omega)
    rw [hmod, Int.toNat_of_nonneg h0]
  exact ⟨heq, by omega⟩

theorem mirrorSample_invalid {x : AxisSample} (h : x.valid = false) : s.mirrorSample n x = (s, []) := by
  refine if_pos ?_
  rw [h]
  rfl

/-- A mirror that has heard its first sample. -/
def Cell.heardFirst (c : Cell) (t : Time) (k : BitVec 64) : Cell := { c with mirLast := t, mirPrev := some k, mirOut := false, mirOdo := c.odo }

theorem mirrorSample_first {x : AxisSample} (hv : x.valid = true) (hp : x.reload = true ∨ (s.cell n).mirPrev = none) : s.mirrorSample n x =
    (((s.setCell n ((s.cell n).heardFirst s.now x.count)).loadCell n
        (BitVec.ofInt 48 ((x.count.toInt + (s.cell n).ofs.toInt) / ((s.cell n).modN : Int)))
        (BitVec.ofInt 32 ((x.count.toInt + (s.cell n).ofs.toInt) % ((s.cell n).modN : Int)))).2.reseedAt n
      { time := s.net.ptp.device x.step s.now, pos2 := 2 * (s.cell n).odo + (if x.dir = 1 then 2 else 0) }, []) := by
  have hprev : (if x.reload then none else (s.cell n).mirPrev) = none := by
    rcases hp with hp | hp
    · exact if_pos hp
    · rw [hp, ite_self]
  have hn : ¬(!x.valid) = true := by rw [hv]; exact Bool.false_ne_true
  refine (if_neg hn).trans ?_
  dsimp only
  rw [hprev] <;> rfl

/-- What a cell shows of its place, and what a mirror has heard last. -/
def Cell.placed (c : Cell) : Word × BitVec 48 × Option (BitVec 64) × Bool := (c.phase, c.turn, c.mirPrev, c.reload)

theorem reseedAt_placed (s : State) (n : Nat) (x : Sample) : ((s.reseedAt n x).cell n).placed = (s.cell n).placed := by
  unfold State.reseedAt
  dsimp only
  split
  · rw [putCell_change_cell, if_pos rfl]
    rfl
  · rfl

theorem restart_mirPrev (c : Cell) (b : Time) (r : Bool) : (c.restart b r).mirPrev = c.mirPrev := by
  unfold Cell.restart
  split
  · rfl
  split
  · split <;> rfl
  · rfl

theorem loadCell_placed {turn : BitVec 48} {q : Word} (h : q.toNat < (s.cell n).modN) :
    ((s.loadCell n turn q).2.cell n).placed = (q, turn, (s.cell n).mirPrev, true) := by
  rw [loadCell_cell, if_neg (not_not.2 rfl), if_neg (Nat.not_le.2 h)]
  exact congrArg (fun m => (q, turn, m, true)) (restart_mirPrev ..)

theorem mirrorSample_loads {x : AxisSample} (hv : x.valid = true) (hp : x.reload = true ∨ (s.cell n).mirPrev = none) :
    (s.mirrorSample n x).2 = [] ∧ ((s.mirrorSample n x).1.cell n).placed =
      (BitVec.ofInt 32 ((x.count.toInt + (s.cell n).ofs.toInt) % ((s.cell n).modN : Int)),
        BitVec.ofInt 48 ((x.count.toInt + (s.cell n).ofs.toInt) / ((s.cell n).modN : Int)), some x.count, true) := by
  have hcell : (s.setCell n ((s.cell n).heardFirst s.now x.count)).cell n = (s.cell n).heardFirst s.now x.count := tget_tput_self ..
  rw [mirrorSample_first hv hp]
  refine ⟨rfl, ?_⟩
  rw [reseedAt_placed, loadCell_placed (by rw [hcell]; exact (phase_of_emod (s.cell n) _).2), hcell]
  rfl

/-! ## Line stops and credits received (R402, R406) -/

theorem lineStopRx_dup (hd : s.yz.seenStop.contains (yzSrc h, num h 15 1) = true) : s.lineStopRx h = s.setYz { s.yz with dup := s.yz.dup + 1 } :=
  if_pos hd

theorem lineStopRx_first (hd : s.yz.seenStop.contains (yzSrc h, num h 15 1) = false) {u : State} (hu : s.lineStopRx h = u) :
    u.yz.rxOk = s.yz.rxOk + 1 ∧ u.yz.stopRx = wAt 0 (yzSrc h) ||| wAt 16 (num h 14 1) ||| wAt 24 (num h 15 1) ∧
      u.fc.raised = s.fc.raised ||| BitVec.ofNat 256 (1 <<< 130) := by
  have heq := hu.symm.trans (if_neg (Bool.eq_false_iff.1 hd))
  rw [heq]
  exact ⟨rfl, rfl, rfl⟩

theorem creditRx_ringA (hr : s.yz.ring p = some false) : (s.creditRx p h).yz = { s.yz with
    rxOk := s.yz.rxOk + 1, creditA := min 16 (s.yz.creditA + (BitVec.ofNat 16 (num h 12 2) - s.yz.heardA).toNat),
    heardA := BitVec.ofNat 16 (num h 12 2) } := by
  have hring : ({ s.yz with rxOk := s.yz.rxOk + 1 } : Yazen).ring p = some false := hr
  unfold State.creditRx
  rw [State.modYz_eq]
  simp only [hring]
  rfl

/-! ## Forwarded frames that have waited too long (R23, R401) -/

theorem staleOut_iff (z : Option Time × List Byte) : s.staleOut z = true ↔ ∃ c, z.1 = some c ∧ c + 2 * s.tCyc ≤ s.now := by
  unfold State.staleOut State.waitedOut
  rw [Option.any_eq_true]
  simp only [decide_eq_true_eq]

theorem forwardDrop_out {w l : List (Option Time × List Byte)} (hp : p = s.yz.portOf b) (hy : (s.port p).yzOut = w ++ (some a, f) :: l)
    (ha : a + 2 * s.tCyc ≤ s.now) (hw : ∀ z ∈ w, ∀ c, z.1 = some c → s.now < c + 2 * s.tCyc) :
    s.forwardDrop b = (s.setPort p { s.port p with yzOut := w ++ l }).setYz { s.yz with fwdDrop := s.yz.fwdDrop + 1 } := by
  have hstale : s.staleOut (some a, f) = true := (staleOut_iff _).2 ⟨a, rfl, ha⟩
  have hfresh : ∀ z ∈ w, ¬s.staleOut z = true := fun z hz hs => by
    obtain ⟨c, hc, hle⟩ := (staleOut_iff z).1 hs
    exact Nat.not_lt.2 hle (hw z hz c hc)
  have herase : (s.port p).yzOut.eraseP s.staleOut = w ++ l := by
    rw [hy, List.eraseP_append_right _ hfresh, List.eraseP_cons_of_pos hstale]
  have hany : (s.port p).yzOut.any s.staleOut = true := by
    rw [hy, List.any_eq_true]
    exact ⟨(some a, f), List.mem_append_right _ List.mem_cons_self, hstale⟩
  subst hp
  refine (if_pos hany).trans ?_
  rw [State.modPort_eq, herase]
  rfl

theorem forwardDrop_ring {l : List (Time × List Byte)} (hout : ∀ z ∈ (s.port (s.yz.portOf b)).yzOut, ∀ c, z.1 = some c → s.now < c + 2 * s.tCyc)
    (hf : s.yz.fwdOf b = (a, f) :: l) : s.forwardDrop b =
      if a + 2 * s.tCyc ≤ s.now then
        if yzType (yzHead f) = 1 then (s.setYz { s.yz.setFwd b l with fwdDrop := s.yz.fwdDrop + 1 }).freeSlot (!b)
        else s.setYz { s.yz.setFwd b l with fwdDrop := s.yz.fwdDrop + 1 }
      else s := by
  have hany : ¬(s.port (s.yz.portOf b)).yzOut.any s.staleOut = true := by
    rw [List.any_eq_true]
    rintro ⟨z, hz, hs⟩
    obtain ⟨c, hc, hle⟩ := (staleOut_iff z).1 hs
    exact Nat.not_lt.2 hle (hout z hz c hc)
  refine (if_neg hany).trans ?_
  rw [hf]
  exact if_congr decide_eq_true_iff rfl rfl

theorem fwdDropped_ring (y : Yazen) (b : Bool) (l : List (Time × List Byte)) (d : Word) : ({ y.setFwd b l with fwdDrop := d } : Yazen).fwdOf b = l := by
  cases b <;> rfl

end

/-- Settles O39: what is forwarded, and what each type of frame does; forwarded frames that have waited too long. -/
theorem yazenFramesAreTakenByType : Obligations.YazenFramesAreTakenByType := by
  unfold Obligations.YazenFramesAreTakenByType
  refine ⟨fun t s hup hi => (engineEvent_up (f := State.yazenRx) hup).trans (congrArg _ (yazenRx_empty (s := s.arrive t) hi)), fun t s s1 p a f h l hup hi hh h1 => ?_,
    fun s p a f b => ⟨yzForward_alone, fun hr hf h2 hl => ?_, fun hr hf h2 hl => yzForward_full hr hf h2 hl, fun hr hf h2 => yzForward_stop hr hf h2,
      fun hr hf => (yzForward_ring hr).trans (if_neg (Bool.eq_false_iff.1 hf))⟩,
    fun s h k hown hk => ?_, fun y src r d c hc => ⟨fun h1 h2 h3 => slotRx_conflict hc ⟨h1, h2, h3⟩, fun h => ?_⟩,
    fun s n x => ⟨mirrorSample_invalid, fun hv hp => ?_⟩, fun s h => ⟨lineStopRx_dup, fun hd => lineStopRx_first hd rfl⟩, fun s p h hr => creditRx_ringA hr,
    fun t b s p a f w l hup hp hy ha hw => ?_, fun t b s a f l hup hout hf => ?_⟩
  case refine_1 =>
    have hlws : s1.lws = s.lws := by rw [h1]; exact (kept_yzForward (.refl _)).toRan.toKept.lws
    have hline : s1.lineId = s.lineId := by rw [State.lineId, hlws, State.lineId]
    have hexec : exec (.yazenFrameRx t) s = .next _ := (engineEvent_up (f := State.yazenRx) hup).trans (congrArg _ (yazenRx_takes (s := s.arrive t) hi h1))
    rw [hexec, ← hh, hline]
    refine ⟨fun hb => congrArg _ (if_pos hb), fun hv => ⟨fun h0 h3 hn => congrArg _ ((if_neg ?_).trans (if_pos hn)),
      fun hn => ⟨fun h1 => congrArg _ ((if_neg ?_).trans ((if_neg (not_not.2 hn)).trans (if_pos h1))),
        fun h2 => congrArg _ ((if_neg ?_).trans ((if_neg (not_not.2 hn)).trans ((if_neg ?_).trans (if_pos h2)))),
        fun h3 => congrArg _ ((if_neg ?_).trans ((if_neg (not_not.2 hn)).trans ((if_neg ?_).trans (if_neg ?_))))⟩⟩⟩
    all_goals omega
  case refine_2 =>
    rw [yzForward_waits hr hf h2 hl, setFwd_fwdOf, setFwd_fwdOf, if_pos rfl, if_neg (by cases b <;> decide)]
    exact ⟨rfl, rfl⟩
  case refine_3 =>
    subst hk
    rw [cyclicRx_eq hown]
    refine ⟨fun h => if_pos h, fun hsy hsub => ?_⟩
    rw [if_neg fun h => h.elim (fun h => Bool.noConfusion (hsy.symm.trans h)) fun h => Bool.noConfusion (hsub.symm.trans h)]
    refine ⟨fun h1 h2 => if_pos ⟨h1, h2⟩, fun hk => ?_⟩
    rw [if_neg fun h => hk.elim h.1 h.2]
    refine ⟨fun hd => if_pos hd, fun n x hd hn hx => ?_⟩
    subst hn hx
    exact if_neg (Bool.eq_false_iff.1 hd)
  case refine_4 =>
    rw [slotRx_takes hc h]
    exact ⟨tget_tput_self .., fun j hj => tget_tput_ne _ _ _ hj⟩
  case refine_5 =>
    obtain ⟨hev, hplaced⟩ := mirrorSample_loads hv hp
    obtain ⟨hphase, hrest⟩ := Prod.mk.inj hplaced
    obtain ⟨hturn, hrest⟩ := Prod.mk.inj hrest
    obtain ⟨hprev, hreload⟩ := Prod.mk.inj hrest
    exact ⟨hev, hphase ▸ (phase_of_emod (s.cell n) _).1, hturn, hprev, hreload⟩
  case refine_6 =>
    refine ⟨_, (engineEvent_up (f := fun s => s.forwardDrop b) hup).trans (congrArg _ (forwardDrop_out (s := s.arrive t) hp hy ha hw)), ?_, rfl⟩
    exact tget_tput_self ..
  case refine_7 =>
    refine ⟨_, (engineEvent_up (f := fun s => s.forwardDrop b) hup).trans (congrArg _ (forwardDrop_ring (s := s.arrive t) hout hf)), fun ha => ?_, fun ha => if_neg (Nat.not_le.2 ha)⟩
    have hle : a + 2 * (s.arrive t).tCyc ≤ (s.arrive t).now := ha
    rw [if_pos hle]
    split
    · obtain ⟨hfw, hd⟩ := freeSlot_fwd ((s.arrive t).setYz { (s.arrive t).yz.setFwd b l with fwdDrop := (s.arrive t).yz.fwdDrop + 1 }) (!b) b
      exact ⟨hfw.trans (fwdDropped_ring ..), hd⟩
    · exact ⟨fwdDropped_ring .., rfl⟩

end Sys2Proof.Machine
end


section

/-! PROOFS. Global start and debug freeze: cells held, released, frozen and thawed together (R107 to R113, R472). -/

namespace Sys2Proof.Machine

section
variable {s u : State} {t : Time} {n k : Nat} {l : List Nat}

/-! ## Cells changed together -/

/-- Each cell of the list changes, and then each tells whoever watches it. -/
def State.changeEach (op : State → Nat → State) (l : List Nat) (s : State) : State :=
  l.foldl (fun s n => s.cellChange n .other) (l.foldl op s)

theorem aims_putCell (s : State) (n : Nat) (c : Cell) : Aims s (s.putCell n c) := setCell_aims s n _

theorem cellChanges_ran (l : List Nat) (s : State) : Ran s (l.foldl (fun s n => s.cellChange n .other) s) :=
  Ran.foldl _ (fun _ _ h => h.trans (kept_cellChange (.refl _))) l (.refl s)

theorem cellChanges_aims (l : List Nat) (s : State) : Aims s (l.foldl (fun s n => s.cellChange n .other) s) :=
  Aims.foldl _ (fun u n => cellChange_aims u n .other) _ _

theorem cellChanges_still (l : List Nat) (s : State) : (l.foldl (fun s n => s.cellChange n .other) s).still = s.still :=
  still_foldl (fun u n => still_cellChange u n _) l s

/-- What becomes of state `s` where each cell `n` of `l` has become `G n` of itself. -/
structure Changed (G : Nat → Cell → Cell) (l : List Nat) (s u : State) : Prop where
  axes : AxesRest s u
  inside : ∀ n ∈ l, u.cell n = (s.cell n).remember (G n (s.cell n)) (s.held n) (s.frozen n) s.now s.now
  outside : ∀ n, n ∉ l → u.cell n = s.cell n
  aims : Aims s u
  still : u.still = s.still

theorem changeEach_changed {F : State → Nat → Cell} {G : Nat → Cell → Cell} (hF : ∀ u n, AxesRest s u → F u n = G n (u.cell n)) (hnd : l.Nodup) :
    Changed G l s (s.changeEach (fun u n => u.putCell n (F u n)) l) := by
  obtain ⟨hax, hin, hout⟩ := foldCells (s := s) (op := fun u n => u.putCell n (F u n))
    (R := fun n c d => d = c.remember (G n c) (s.held n) (s.frozen n) s.now s.now)
    (fun u n hu => by
      refine ⟨hu.putCell n _, fun j hj => (putCell_cell ..).trans (if_neg hj), ?_⟩
      rw [putCell_cell, if_pos rfl, hu.held, hu.frozen, hu.now, hF u n hu])
    l hnd s (.refl s)
  have haims : Aims s (l.foldl (fun u n => u.putCell n (F u n)) s) := Aims.foldl _ (fun u n => aims_putCell u n _) _ _
  have hstill : (l.foldl (fun u n => u.putCell n (F u n)) s).still = s.still :=
    still_foldl (f := fun u n => u.putCell n (F u n)) (fun _ _ => still_of rfl rfl rfl rfl) l s
  have hran := cellChanges_ran l (l.foldl (fun u n => u.putCell n (F u n)) s)
  exact ⟨hax.trans (.of_ran hran), fun n hn => (cell_of_axes hran.axes n).trans (hin n hn), fun n hn => (cell_of_axes hran.axes n).trans (hout n hn),
    haims.trans (cellChanges_aims ..), (cellChanges_still ..).trans hstill⟩

theorem Changed.cell_cases {G : Nat → Cell → Cell} (h : Changed G l s u) (n : Nat) :
    u.cell n = s.cell n ∨ u.cell n = (s.cell n).remember (G n (s.cell n)) (s.held n) (s.frozen n) s.now s.now := by
  by_cases hn : n ∈ l
  · exact .inr (h.inside n hn)
  · exact .inl (h.outside n hn)

/-! ## Global start (R107 to R109) -/

/-- The hold bits after START_GO. -/
def Start.go (x : Start) (op : Nat) : BitVec 64 := if op = 1 then x.hold &&& ~~~x.sel else x.hold ||| x.sel

/-- The cells whose hold bit START_GO turns. -/
def Start.turned (x : Start) (op : Nat) : List Nat := (List.range 64).filter fun n => x.hold.getLsbD n != (x.go op).getLsbD n

theorem mem_turned {x : Start} {op : Nat} : n ∈ x.turned op ↔ n < 64 ∧ x.hold.getLsbD n ≠ (x.go op).getLsbD n := by
  simp [Start.turned]

theorem turned_release {x : Start} : n ∈ x.turned 1 ↔ n < 64 ∧ x.hold.getLsbD n = true ∧ x.sel.getLsbD n = true := by
  rw [mem_turned]
  refine and_congr_right fun hn => ?_
  rw [Start.go, if_pos rfl, BitVec.getLsbD_and, BitVec.getLsbD_not, decide_eq_true hn]
  cases x.hold.getLsbD n <;> cases x.sel.getLsbD n <;> decide

theorem turned_hold {x : Start} : n ∈ x.turned 2 ↔ n < 64 ∧ x.hold.getLsbD n = false ∧ x.sel.getLsbD n = true := by
  rw [mem_turned]
  refine and_congr_right fun hn => ?_
  rw [Start.go, if_neg (by decide), BitVec.getLsbD_or]
  cases x.hold.getLsbD n <;> cases x.sel.getLsbD n <;> decide

/-- A cell whose hold bit has turned; `frac` is the fraction it showed before. -/
def Cell.turnHold (c : Cell) (held frozen : Bool) (frac : BitVec 16) (now : Time) : Cell :=
  if held then if c.en then { c.hold now with frac := frac } else c else c.release frozen now

theorem turnCell_eq (s : State) (n : Nat) (x : BitVec 16) :
    s.turnCell n x = s.putCell n ((s.cell n).turnHold (s.held n) (s.frozen n) x s.now) := by
  unfold State.turnCell Cell.turnHold
  dsimp only
  split <;> rfl

theorem turnHold_position (c : Cell) (held frozen : Bool) (x : BitVec 16) (now : Time) :
    (c.turnHold held frozen x now).phase = c.phase ∧ (c.turnHold held frozen x now).turn = c.turn ∧ (c.turnHold held frozen x now).ctrl = c.ctrl := by
  unfold Cell.turnHold Cell.release
  split
  · split <;> exact ⟨rfl, rfl, rfl⟩
  · dsimp only
    split <;> exact ⟨rfl, rfl, rfl⟩

/-- START_GO has put its hold bits in and latched its cycle. -/
def State.went (s : State) (op : Nat) : State := s.modStart fun x => { x with hold := x.go op, startT := cyc s.now * 8 }

theorem startGo_eq {op : Nat} (h : op = 1 ∨ op = 2) :
    s.startGo op = (s.went op).changeEach (fun u n => u.turnCell n (s.fracOf n s.now)) (s.axes.start.turned op) := by
  refine if_neg ?_
  rcases h with rfl | rfl <;> decide

theorem startGo_changed {op : Nat} (h : op = 1 ∨ op = 2) :
    Changed (fun n c => c.turnHold ((s.axes.start.go op).getLsbD n) (s.frozen n) (s.fracOf n s.now) s.now) (s.axes.start.turned op) (s.went op)
      (s.startGo op) := by
  have hturn : (fun (u : State) n => u.turnCell n (s.fracOf n s.now)) =
      fun u n => u.putCell n ((u.cell n).turnHold (u.held n) (u.frozen n) (s.fracOf n s.now) u.now) :=
    funext fun u => funext fun n => turnCell_eq u n _
  rw [startGo_eq h, hturn]
  refine changeEach_changed (fun u n hu => ?_) (List.nodup_range.filter _)
  rw [hu.held, hu.frozen, hu.now]
  rfl

theorem went_aims (s : State) (op : Nat) : Aims s (s.went op) := ⟨kept_modStart (.refl s), fun _ => rfl, rfl⟩

theorem startGo_position {op : Nat} (h : op = 1 ∨ op = 2) (n : Nat) :
    ((s.startGo op).cell n).phase = (s.cell n).phase ∧ ((s.startGo op).cell n).turn = (s.cell n).turn ∧
      ((s.startGo op).cell n).ctrl = (s.cell n).ctrl := by
  rcases (startGo_changed (s := s) h).cell_cases n with hc | hc <;> rw [hc]
  · exact ⟨rfl, rfl, rfl⟩
  · exact turnHold_position ..

theorem release_runs (hn : n < 64) (hh : s.axes.start.hold.getLsbD n = true) (hsel : s.axes.start.sel.getLsbD n = true) (he : (s.cell n).en = true)
    (hm : (s.cell n).exactMode = true) : ((s.startGo 1).cell n).est = .exact ∧ ((s.startGo 1).cell n).origin = cyc s.now * 8 := by
  have hmem := turned_release.2 ⟨hn, hh, hsel⟩
  have hoff : (s.axes.start.go 1).getLsbD n = false := by
    have hne := (mem_turned.1 hmem).2
    rw [hh] at hne
    exact Bool.eq_false_iff.2 hne.symm
  rw [(startGo_changed (.inl rfl)).inside n hmem, hoff]
  have hrel : (s.cell n).turnHold false (s.frozen n) (s.fracOf n s.now) s.now = _ := if_pos (Bool.and_eq_true_iff.2 ⟨he, hm⟩)
  exact ⟨congrArg Cell.est hrel, congrArg Cell.origin hrel⟩

theorem hold_stops (hn : n < 64) (hh : s.axes.start.hold.getLsbD n = false) (hsel : s.axes.start.sel.getLsbD n = true) (he : (s.cell n).en = true) :
    ((s.startGo 2).cell n).est = .idle ∧ ((s.startGo 2).cell n).hist = [] ∧ ((s.startGo 2).cell n).pausedAt = none := by
  have hmem := turned_hold.2 ⟨hn, hh, hsel⟩
  have hon : (s.axes.start.go 2).getLsbD n = true := by
    have hne := (mem_turned.1 hmem).2
    rw [hh] at hne
    exact Bool.ne_false_iff.1 hne.symm
  rw [(startGo_changed (.inr rfl)).inside n hmem, hon]
  have hhold : (s.cell n).turnHold true (s.frozen n) (s.fracOf n s.now) s.now = _ := if_pos he
  exact ⟨congrArg Cell.est hhold, congrArg Cell.hist hhold, congrArg Cell.pausedAt hhold⟩

theorem putReg_startGo {m : Ident} {v : Word} :
    s.putReg m (startOfs + 0x08) v = if fld v 0 2 = 1 || fld v 0 2 = 2 then s.startGo (fld v 0 2) else s :=
  putReg_in (as := blocksA.take 6) (bs := blocksA.drop 7 ++ blocksB) rfl (by decide) (i := 0) (r := 8) (by decide) (by decide) rfl

theorem startGo_idle {v : Word} {m : Ident} (h : fld v 0 2 = 0 ∨ fld v 0 2 = 3) : s.putReg m (startOfs + 0x08) v = s := by
  rw [putReg_startGo, if_neg]
  rcases h with h | h <;> rw [h] <;> decide

/-! ## A core enters debug halt (R111, R112, R472) -/

/-- Core `k` has entered debug halt, its watchdog paused. -/
def State.debugHalt (s : State) (k : Nat) : State := (s.wdPause k).modCore k fun c => { c with halted := true }

/-- The freeze notes the halt; the first one begins it. -/
def State.freezeHalt (s : State) (k : Nat) : State :=
  (s.debugHalt k).modStart fun x => { x with halted := x.halted ||| BitVec.ofNat 4 (1 <<< k), seen := true,
                                             frzT := if s.axes.start.halted = 0 then cyc s.now * 8 else x.frzT }

/-- The cells selected to freeze. -/
def Start.freezes (x : Start) : List Nat := (List.range 64).filter fun n => x.frzSel.getLsbD n

theorem mem_freezes {x : Start} : n ∈ x.freezes ↔ n < 64 ∧ x.frzSel.getLsbD n = true := by
  simp [Start.freezes]

/-- What a core's debug halt does. -/
def State.halts (s : State) (k : Nat) : State :=
  if s.axes.start.halted = 0 then
    (s.freezeHalt k).changeEach (fun u n => u.putCell n ((u.cell n).freeze ((s.debugHalt k).fracOf n (s.debugHalt k).now) u.now)) s.axes.start.freezes
  else s.freezeHalt k

theorem exec_coreDebugHalt_up {k : Fin 4} (h : s.up = true) : exec (.coreDebugHalt t k) s = .next ((s.arrive t).halts k) :=
  engineEvent_up (f := fun s => s.halts k) h

theorem halts_first (h : s.axes.start.halted = 0) :
    Changed (fun n c => c.freeze ((s.debugHalt k).fracOf n (s.debugHalt k).now) s.now) s.axes.start.freezes (s.freezeHalt k) (s.halts k) := by
  rw [State.halts, if_pos h]
  refine changeEach_changed (fun u n hu => ?_) (List.nodup_range.filter _)
  rw [hu.now]
  rfl

theorem halts_later (h : s.axes.start.halted ≠ 0) : s.halts k = s.freezeHalt k := if_neg h

theorem freeze_position (c : Cell) (x : BitVec 16) (now : Time) :
    (c.freeze x now).phase = c.phase ∧ (c.freeze x now).turn = c.turn ∧ (c.freeze x now).hist = c.hist ∧ (c.freeze x now).frzAcc = 0 := by
  unfold Cell.freeze
  split <;> exact ⟨rfl, rfl, rfl, rfl⟩

theorem freeze_exact {c : Cell} {x : BitVec 16} {now : Time} (hm : c.exactMode = true) (he : c.est = .exact) :
    (c.freeze x now).pausedAt = some (cyc now * 8) := by
  have h : c.freeze x now = _ := if_pos hm
  rw [h]
  exact if_pos he

theorem freeze_remembered (c : Cell) (x : BitVec 16) (now : Time) (held frozen : Bool) (since : Time) :
    (c.remember (c.freeze x now) held frozen since now).frzAcc = 0 ∧ (c.exactMode = true → c.est = .exact →
      (c.remember (c.freeze x now) held frozen since now).pausedAt = some (cyc now * 8)) :=
  ⟨(freeze_position c x now).2.2.2, fun hm he => freeze_exact hm he⟩

theorem debugHalt_core (s : State) (k : Nat) :
    ((s.debugHalt k).core k).halted = true ∧ ((s.debugHalt k).core k).wdAt = none ∧
      ∀ x, (s.core k).wdAt = some x → ((s.debugHalt k).core k).wdLeft = some (x - s.now) := by
  have hcore : (s.debugHalt k).core k = { (s.wdPause k).core k with halted := true } := tget_tput_self ..
  have hpause : (s.wdPause k).core k = match (s.core k).wdAt with
      | some x => { s.core k with wdLeft := some (x - s.now), wdAt := none }
      | none => s.core k := tget_tput_self ..
  rw [hcore, hpause]
  cases h : (s.core k).wdAt with
  | none => exact ⟨rfl, h, fun x hx => nomatch hx⟩
  | some a => exact ⟨rfl, rfl, fun x hx => by cases hx; rfl⟩

/-- The cores stand but for reservations. -/
theorem still_core {j : Nat} (h : u.still = s.still) :
    (u.core j).halted = (s.core j).halted ∧ (u.core j).wdAt = (s.core j).wdAt ∧ (u.core j).wdLeft = (s.core j).wdLeft := by
  have hc : ({ u.core j with resv := none } : Core) = { s.core j with resv := none } := congrFun (congrArg Still.cores h) j
  exact ⟨(congrArg Core.halted hc :), (congrArg Core.wdAt hc :), (congrArg Core.wdLeft hc :)⟩

theorem halts_still (s : State) (k : Nat) : (s.halts k).still = (s.debugHalt k).still := by
  by_cases h : s.axes.start.halted = 0
  · exact (halts_first h).still
  · rw [halts_later h]
    rfl

theorem halts_start (s : State) (k : Nat) : (s.halts k).axes.start = (s.freezeHalt k).axes.start := by
  by_cases h : s.axes.start.halted = 0
  · exact (halts_first h).axes.start
  · rw [halts_later h]

theorem halts_position (s : State) (k n : Nat) :
    ((s.halts k).cell n).phase = (s.cell n).phase ∧ ((s.halts k).cell n).turn = (s.cell n).turn ∧ ((s.halts k).cell n).hist = (s.cell n).hist := by
  by_cases h : s.axes.start.halted = 0
  · rcases (halts_first (k := k) h).cell_cases n with hc | hc <;> rw [hc]
    · exact ⟨rfl, rfl, rfl⟩
    · obtain ⟨hp, ht, hh, -⟩ := freeze_position ((s.freezeHalt k).cell n) ((s.debugHalt k).fracOf n (s.debugHalt k).now) s.now
      exact ⟨hp, ht, hh⟩
  · rw [halts_later h]
    exact ⟨rfl, rfl, rfl⟩

theorem halts_freezes (hn : n < 64) (h : s.axes.start.halted = 0) (hsel : s.axes.start.frzSel.getLsbD n = true) :
    ((s.halts k).cell n).frzAcc = 0 ∧
      ((s.cell n).exactMode = true → (s.cell n).est = .exact → ((s.halts k).cell n).pausedAt = some (cyc s.now * 8)) := by
  rw [(halts_first h).inside n (mem_freezes.2 ⟨hn, hsel⟩)]
  exact freeze_remembered (s.cell n) ..

theorem halts_others (hno : s.axes.start.halted ≠ 0 ∨ s.axes.start.frzSel.getLsbD n = false) : (s.halts k).cell n = s.cell n := by
  by_cases h : s.axes.start.halted = 0
  · have hsel := hno.resolve_left (not_not.2 h)
    exact (halts_first h).outside n fun hmem => Bool.noConfusion ((mem_freezes.1 hmem).2.symm.trans hsel)
  · rw [halts_later h]
    rfl

/-! ## A core leaves debug halt (R113) -/

/-- Core `k` has left debug halt, its watchdog running on. -/
def State.debugResume (s : State) (k : Nat) : State := (s.wdResume k).modCore k fun c => { c with halted := false }

/-- The cores in debug halt once core `k` has left it. -/
def Start.left (x : Start) (k : Nat) : BitVec 4 := x.halted &&& ~~~BitVec.ofNat 4 (1 <<< k)

def State.freezeResume (s : State) (k : Nat) : State := (s.debugResume k).modStart fun x => { x with halted := s.axes.start.left k }

/-- The thaw of each cell of the list, and its steps. -/
def State.thawAll (s : State) (l : List Nat) : State × List StepEv :=
  l.foldl (fun p n => ((p.1.thawCell n).1, p.2 ++ (p.1.thawCell n).2)) (s, [])

/-- What a core's leaving debug halt does. -/
def State.resumes (s : State) (k : Nat) : State :=
  if s.axes.start.halted ≠ 0 && s.axes.start.left k = 0 then
    s.axes.start.freezes.foldl (fun s n => s.cellChange n .other)
      (((s.freezeResume k).thawAll s.axes.start.freezes).1.react ((s.freezeResume k).thawAll s.axes.start.freezes).2)
  else s.freezeResume k

theorem exec_coreDebugResume_up {k : Fin 4} (h : s.up = true) : exec (.coreDebugResume t k) s = .next ((s.arrive t).resumes k) :=
  engineEvent_up (f := fun s => s.resumes k) h

theorem resumes_last (h : s.axes.start.halted ≠ 0) (hl : s.axes.start.left k = 0) :
    s.resumes k = s.axes.start.freezes.foldl (fun s n => s.cellChange n .other)
      (((s.freezeResume k).thawAll s.axes.start.freezes).1.react ((s.freezeResume k).thawAll s.axes.start.freezes).2) :=
  if_pos (Bool.and_eq_true_iff.2 ⟨decide_eq_true_iff.2 h, decide_eq_true_iff.2 hl⟩)

theorem resumes_early (h : s.axes.start.halted = 0 ∨ s.axes.start.left k ≠ 0) : s.resumes k = s.freezeResume k := by
  refine if_neg fun hb => ?_
  obtain ⟨h1, h2⟩ := Bool.and_eq_true_iff.1 hb
  rcases h with h | h
  · simp [h] at h1
  · exact h (of_decide_eq_true h2)

theorem resumes_no_cell (h : s.axes.start.halted = 0 ∨ s.axes.start.left k ≠ 0) : (s.resumes k).cell n = s.cell n := by
  rw [resumes_early h]
  rfl

theorem debugResume_core (s : State) (k : Nat) :
    ((s.debugResume k).core k).halted = false ∧ ∀ x, (s.core k).wdLeft = some x → ((s.debugResume k).core k).wdAt = some (s.now + x) := by
  have hcore : (s.debugResume k).core k = { (s.wdResume k).core k with halted := false } := tget_tput_self ..
  have hresume : (s.wdResume k).core k = match (s.core k).wdLeft with
      | some x => { s.core k with wdAt := some (s.now + x), wdLeft := none }
      | none => s.core k := tget_tput_self ..
  rw [hcore, hresume]
  refine ⟨rfl, fun x hx => ?_⟩
  rw [hx]

/-- A cell with a source at the thaw: its accumulator emptied, its history given up. -/
def Cell.thaw (c : Cell) (held : Bool) : Cell :=
  { c with frzAcc := 0, hist := [], est := if c.en && c.est ≠ .idle then .idle else c.est,
           mirOdo := if c.mode = 3 && !held then c.odo + c.frzAcc else c.mirOdo }

theorem thaw_eq {c : Cell} (h : c.en = true) : c.thaw false =
    { c with frzAcc := 0, hist := [], est := .idle, mirOdo := if c.mode = 3 then c.odo + c.frzAcc else c.mirOdo } := by
  have hest : (if c.en && c.est ≠ .idle then EstState.idle else c.est) = .idle := by
    rw [h]
    cases c.est <;> rfl
  unfold Cell.thaw
  rw [hest, Bool.not_false, Bool.and_true]
  simp only [decide_eq_true_eq]

theorem exact_not_cascade {c : Cell} (h : c.exactMode = true) : c.mode ≠ 5 := by
  intro h5
  rw [Cell.exactMode, h5] at h
  exact absurd h (by decide)

theorem thawCell_source (h : (s.cell n).exactMode = false) : ∃ p, s.thawCell n =
    (s.putCell n ((s.cell n).thaw (s.held n))).stepCell 64 n (s.cell n).frzAcc (cyc s.now * 8) p :=
  ⟨_, if_neg (Bool.eq_false_iff.1 h)⟩

theorem thawCell_paused {p : Time} (h : (s.cell n).exactMode = true) (hp : (s.cell n).pausedAt = some p) :
    s.thawCell n = (s.putCell n { s.cell n with pausedAt := none, origin := (s.cell n).origin + (cyc s.now * 8 - p) }, []) := by
  refine (if_pos h).trans ?_
  rw [hp]

/-- A step changes, beyond cells, at most FRZ_OVF. -/
theorem stepCell_reach (fuel : Nat) (s : State) (n : Nat) (k : Int) (st : Time) (p : Option Int) :
    (s.stepCell fuel n k st p).1.still = s.still ∧ (s.stepCell fuel n k st p).1.axes.start.halted = s.axes.start.halted := by
  induction fuel generalizing s n k p with
  | zero => exact ⟨rfl, rfl⟩
  | succ f ih =>
    unfold State.stepCell
    dsimp only
    split
    · exact ⟨rfl, rfl⟩
    split
    · split
      · unfold State.freezeAdd
        dsimp only
        split <;> exact ⟨rfl, rfl⟩
      · exact ⟨rfl, rfl⟩
    split
    · exact ih ..
    · exact ⟨rfl, rfl⟩

/-- The thaw of a cell steps it, and a cascade above; it reaches no other cell. -/
theorem thawCell_reach (s : State) (n : Nat) :
    Stepping s (s.thawCell n).1 ∧ (∀ j, j ≠ n → (s.cell j).mode ≠ 5 → (s.thawCell n).1.cell j = s.cell j) ∧
      ((s.thawCell n).1.cell n).mode = (s.cell n).mode ∧ (s.thawCell n).1.still = s.still ∧
      (s.thawCell n).1.axes.start.halted = s.axes.start.halted := by
  cases hx : (s.cell n).exactMode with
  | true =>
    cases hp : (s.cell n).pausedAt with
    | some p =>
      rw [thawCell_paused hx hp]
      refine ⟨.of_axesRest ((AxesRest.refl s).putCell n _), fun j hj _ => (putCell_cell ..).trans (if_neg hj), ?_, rfl, rfl⟩
      rw [putCell_cell, if_pos rfl]
      rfl
    | none =>
      have h : s.thawCell n = (s, []) := (if_pos hx).trans (by rw [hp])
      rw [h]
      exact ⟨.refl s, fun _ _ _ => rfl, rfl, rfl, rfl⟩
  | false =>
    obtain ⟨p, h⟩ := thawCell_source hx
    rw [h]
    generalize (s.cell n).frzAcc = a
    obtain ⟨hst, hh⟩ := stepCell_reach 64 (s.putCell n ((s.cell n).thaw (s.held n))) n a (cyc s.now * 8) p
    refine ⟨Stepping.stepCell (.of_axesRest ((AxesRest.refl s).putCell n _)) .., fun j hj h5 => ?_, ?_, hst, hh⟩
    · have hput := (putCell_cell s n ((s.cell n).thaw (s.held n)) j).trans (if_neg hj)
      rw [stepCell_frame _ _ _ _ _ _ j hj (.inr (by rwa [hput])), hput]
    · rw [Cell.mode, stepCell_ctrl 63, putCell_cell, if_pos rfl]
      rfl

theorem Moves.of_past {c d : Cell} {l : List PastPos} {a : Int} {m : Nat} {st : Time} (h : Moves { c with past := l } d a m st) : Moves c d a m st :=
  ⟨h.inLap, h.outUp, h.outDown, h.dir, h.stamped, h.flags, h.rest⟩

/-- A cell with a source takes its net count as one step of the thaw cycle. -/
theorem thawCell_moves (hx : (s.cell n).exactMode = false) (he : (s.cell n).en = true) (hh : s.held n = false) (hf : s.frozen n = false)
    (ha : (s.cell n).frzAcc ≠ 0) :
    Moves ((s.cell n).thaw false) ((s.thawCell n).1.cell n) (s.cell n).frzAcc ((s.cell n).modFor s.now) (cyc s.now * 8) := by
  obtain ⟨p, h⟩ := thawCell_source hx
  rw [h]
  rw [hh]
  have hcell : (s.putCell n ((s.cell n).thaw false)).cell n = (s.cell n).remember ((s.cell n).thaw false) (s.held n) (s.frozen n) s.now s.now :=
    (putCell_cell ..).trans (if_pos rfl)
  rw [stepCell_at 63 (s.putCell n ((s.cell n).thaw false)) n _ _ p (by rw [hcell]; exact he) hh hf ha, hcell]
  exact (stepped_moves ..).of_past (c := (s.cell n).thaw false)

/-- What the thaw of a cell makes of it, at instant `now`. -/
structure Thawed (held : Bool) (now : Time) (c d : Cell) : Prop where
  counts : held = false → c.en = true → c.exactMode = false → c.frzAcc ≠ 0 →
    Moves (c.thaw false) d c.frzAcc (c.modFor now) (cyc now * 8)
  runsOn : ∀ p, c.exactMode = true → c.pausedAt = some p →
    d = { c with pausedAt := none, origin := c.origin + (cyc now * 8 - p), past := d.past }

theorem thawCell_thawed (hf : s.frozen n = false) : Thawed (s.held n) s.now (s.cell n) ((s.thawCell n).1.cell n) := by
  refine ⟨fun hh he hx ha => thawCell_moves hx he hh hf ha, fun p hx hp => ?_⟩
  rw [thawCell_paused hx hp, putCell_cell, if_pos rfl]
  rfl

theorem thawAll_spec (hf : ∀ n, s.frozen n = false) (hnd : l.Nodup) :
    (∀ n ∈ l, (s.cell n).mode ≠ 5 → Thawed (s.held n) s.now (s.cell n) ((s.thawAll l).1.cell n)) :=
  (foldSteps (s := s) (op := State.thawCell) (R := fun n c d => Thawed (s.held n) s.now c d)
    (fun u n hu => by
      obtain ⟨hst, hother, hmode, -, -⟩ := thawCell_reach u n
      refine ⟨hu.trans hst, hother, fun _ => ⟨?_, hmode⟩⟩
      rw [← hu.held, ← hu.now]
      exact thawCell_thawed ((hu.frozen n).trans (hf n)))
    l hnd s [] (.refl s)).2.1

theorem thawAll_rest (l : List Nat) (s : State) : (s.thawAll l).1.still = s.still ∧ (s.thawAll l).1.axes.start.halted = s.axes.start.halted := by
  suffices h : ∀ (p : State × List StepEv), (l.foldl (fun p n => ((p.1.thawCell n).1, p.2 ++ (p.1.thawCell n).2)) p).1.still = p.1.still ∧
      (l.foldl (fun p n => ((p.1.thawCell n).1, p.2 ++ (p.1.thawCell n).2)) p).1.axes.start.halted = p.1.axes.start.halted from h (s, [])
  induction l with
  | nil => exact fun p => ⟨rfl, rfl⟩
  | cons n r ih =>
    intro p
    obtain ⟨-, -, -, hst, hh⟩ := thawCell_reach p.1 n
    obtain ⟨hst', hh'⟩ := ih ((p.1.thawCell n).1, p.2 ++ (p.1.thawCell n).2)
    exact ⟨hst'.trans hst, hh'.trans hh⟩

theorem resumes_rest (s : State) (k : Nat) :
    (s.resumes k).still = (s.debugResume k).still ∧ (s.resumes k).axes.start.halted = s.axes.start.left k := by
  by_cases h : s.axes.start.halted ≠ 0 ∧ s.axes.start.left k = 0
  · obtain ⟨hst, hh⟩ := thawAll_rest s.axes.start.freezes (s.freezeResume k)
    rw [resumes_last h.1 h.2]
    generalize (s.freezeResume k).thawAll s.axes.start.freezes = v at *
    refine ⟨(cellChanges_still ..).trans ((still_react ..).trans hst), ?_⟩
    rw [(cellChanges_ran ..).axes, (kept_react (.refl v.1)).axes, hh]
    rfl
  · rw [resumes_early (by tauto)]
    exact ⟨rfl, rfl⟩

theorem resumes_cell (h : s.axes.start.halted ≠ 0) (hl : s.axes.start.left k = 0) (hn : n < 64) (hs : s.axes.start.frzSel.getLsbD n = true)
    (h5 : (s.cell n).mode ≠ 5) : Thawed (s.held n) s.now (s.cell n) ((s.resumes k).cell n) := by
  have hthaw := thawAll_spec (s := s.freezeResume k) (fun n => ?_) (List.nodup_range.filter _) n (mem_freezes.2 ⟨hn, hs⟩) h5
  · rw [resumes_last h hl]
    have hcell := cell_of_axes ((cellChanges_ran s.axes.start.freezes (((s.freezeResume k).thawAll s.axes.start.freezes).1.react
      ((s.freezeResume k).thawAll s.axes.start.freezes).2)).axes.trans (kept_react (.refl _)).axes) n
    rw [hcell]
    exact hthaw
  · have hz : ((s.freezeResume k).axes.start.halted) = 0 := hl
    rw [State.frozen, hz]
    rfl

end

/-- Settles O9: START_GO's holds and releases, the freeze at the first core's debug halt, and the thaw at the last one's return. -/
theorem globalStartAndDebugFreezeHoldSelectedCells : Obligations.GlobalStartAndDebugFreezeHoldSelectedCells := by
  unfold Obligations.GlobalStartAndDebugFreezeHoldSelectedCells
  refine ⟨⟨fun t m s hs => ?_, fun t m s hs => ?_, fun t m v s hs hm hv => ?_⟩, fun t k s hup => ?_, fun t k s hup => ?_⟩
  case refine_1 =>
    have h := startGo_changed (s := s.arrive t) (op := 1) (.inl rfl)
    refine ⟨_, regWrite_serves (f := fun s => s.startGo 1) hs, h.axes.start, fun n => startGo_position (s := s.arrive t) (.inl rfl) n,
      fun n hn hh hsel he hm => release_runs (s := s.arrive t) hn hh hsel he hm, fun n hno => h.outside n fun hmem => ?_,
      (went_aims (s.arrive t) 1).trans h.aims⟩
    obtain ⟨-, hh, hsel⟩ := turned_release.1 hmem
    exact hno.elim (fun h => Bool.noConfusion (hh.symm.trans h)) fun h => Bool.noConfusion (hsel.symm.trans h)
  case refine_2 =>
    have h := startGo_changed (s := s.arrive t) (op := 2) (.inr rfl)
    refine ⟨_, regWrite_serves (f := fun s => s.startGo 2) hs, h.axes.start, fun n => startGo_position (s := s.arrive t) (.inr rfl) n,
      fun n hn hh hsel he => hold_stops (s := s.arrive t) hn hh hsel he, fun n hno => h.outside n fun hmem => ?_,
      (went_aims (s.arrive t) 2).trans h.aims⟩
    obtain ⟨-, hh, hsel⟩ := turned_hold.1 hmem
    exact hno.elim (fun h => Bool.noConfusion (hh.symm.trans h)) fun h => Bool.noConfusion (hsel.symm.trans h)
  case refine_3 =>
    rw [registerWrite_reaches (f := id) hm (by decide) fun s => startGo_idle hv]
    exact regWrite_serves hs
  case refine_4 =>
    have hexec := exec_coreDebugHalt_up (t := t) (k := k) hup
    obtain ⟨hhalt, hwd, hleft⟩ := debugHalt_core (s.arrive t) k
    obtain ⟨hc1, hc2, hc3⟩ := still_core (j := k) (halts_still (s.arrive t) k)
    refine ⟨_, hexec, hc1.trans hhalt, hc2.trans hwd, fun x hx => hc3.trans (hleft x hx), halts_start (s.arrive t) k, fun n => halts_position (s.arrive t) k n,
      fun n hn h0 hsel => ?_, fun n hno => ?_, exec_coreDebugHalt_kept hexec⟩
    · exact halts_freezes (s := s.arrive t) hn h0 hsel
    · exact halts_others (s := s.arrive t) hno
  case refine_5 =>
    have hexec := exec_coreDebugResume_up (t := t) (k := k) hup
    obtain ⟨hhalt, hwd⟩ := debugResume_core (s.arrive t) k
    obtain ⟨hstill, hleft⟩ := resumes_rest (s.arrive t) k
    obtain ⟨hc1, hc2, -⟩ := still_core (j := k) hstill
    refine ⟨_, hexec, hc1.trans hhalt, fun x hx => hc2.trans (hwd x hx), hleft, fun n hn h0 hl hsel hh he hm h5 ha => ⟨_, rfl, ?_⟩,
      fun n hn p h0 hl hsel hm hp => ?_, fun n hno => ?_, exec_coreDebugResume_kept hexec⟩
    · rw [← thaw_eq he]
      exact (resumes_cell (s := s.arrive t) h0 hl hn hsel h5).counts hh he hm ha
    · exact (resumes_cell (s := s.arrive t) h0 hl hn hsel (exact_not_cascade hm)).runsOn p hm hp
    · exact resumes_no_cell (s := s.arrive t) hno

end Sys2Proof.Machine
end


section

/-! PROOFS. What each command completes to, where its gate lets it pass (O60). -/

namespace Sys2Proof.Machine

/-! ## The gates -/

/-- A gate that is open. -/
theorem next_then {b : Bool} {x y : State} (h : b = true) : (.next (if b = true then x else y) : Res) = .next x := congrArg _ (if_pos h)

/-- A gate that bars where its flag is set. -/
theorem next_else {b : Bool} {x y : State} (h : b = false) : (.next (if b = true then x else y) : Res) = .next y :=
  congrArg _ (if_neg (Bool.eq_false_iff.1 h))

/-- A condition of the event's own, past its gate. -/
theorem next_inner {b : Bool} {p : Prop} [Decidable p] {x y z : State} (h : b = true) (hp : p) :
    (.next (if b = true then if p then x else y else z) : Res) = .next x := congrArg _ ((if_pos h).trans (if_pos hp))

section
variable {t : Time} {s : State} {c : Fin 4096}

/-! ## Events under a condition of their own -/

theorem exec_serialFrameStart_starts {i : Fin 8} {x : SerIf} (hup : s.up = true) (hx : x = s.ser i) (hr : x.run = true) (hd : x.due ≤ max s.now t)
    (hrec : x.recover ≤ x.due) (hf : x.frame = none) : exec (.serialFrameStart t i) s =
      .next ((s.arrive t).setSer i { x with due := x.due + ns (fld x.cycle 0 20), frame := some x.due }) := by
  rw [exec_serialFrameStart_up hup hx hr rfl, if_neg (Nat.not_lt.2 hd), if_neg]
  rw [hf]
  simpa using hrec

theorem exec_standstill_past {k : Fin 64} {x : Time} (hup : s.up = true) (hl : (s.cell k).stillLimit = some x) (hx : x < max s.now t)
    (hf : s.frozen k = false) : exec (.standstill t k) s =
      .next (((s.arrive t).putCell k ((s.cell k).drop .standstill (max s.now t))).cellChange k .other) := by
  rw [exec_standstill_up hup hl hf, if_neg (Nat.not_le.2 hx)]

theorem exec_waitTimeExpiry_due {x : Time} (hup : s.up = true) (ha : (s.chan c).act = .time x) (hst : (s.chan c).st = .waiting) (hx : x ≤ max s.now t) :
    exec (.waitTimeExpiry t c) s = .next ((s.arrive t).waitEnds c none) := by
  change execWaitTimeExpiry t c s = _
  rw [execWaitTimeExpiry, engineEvent_up hup]
  dsimp only [State.arrive_chan, State.arrive_now]
  rw [ha]
  exact congrArg _ (if_pos (by simp [hst, hx]))

theorem exec_waitTimeout_due {k : Nat} {x : Time} (hup : s.up = true) (hst : (s.chan c).st = .waiting) (ha : (s.chan c).act = .waitCmp k (some x))
    (hx : x ≤ max s.now t) : exec (.waitTimeout t c) s = .next ((s.arrive t).waitEnds c (some false)) := by
  change execWaitTimeout t c s = _
  rw [execWaitTimeout, engineEvent_up hup]
  dsimp only [State.arrive_chan, State.arrive_now]
  rw [ha]
  exact congrArg _ ((if_neg (not_not.2 hst)).trans (if_pos (decide_eq_true hx)))

theorem exec_gladeComplete_inside {x : Option Time} (hup : s.up = true) (hst : (s.chan c).st = .waiting) (ha : (s.chan c).act = .glade x)
    (hg : s.inGlade (s.chan c).cur = true) : exec (.gladeComplete t c) s = .next ((s.arrive t).waitEnds c (some true)) := by
  have hin : (s.arrive t).inGlade (s.chan c).cur = true := hg
  change execGladeComplete t c s = _
  rw [execGladeComplete, engineEvent_up hup]
  dsimp only [State.arrive_chan]
  rw [ha]
  exact congrArg _ (if_pos (by simp [hst, hin]))

theorem exec_lockAbandoned_late {x : Time} (hup : s.up = true) (hb : (s.chan c).inBracket = true) (hf : (s.chan c).lockFirst = some x)
    (hx : x + ns 256 ≤ max s.now t) : exec (.lockAbandoned t c) s = .next ((s.arrive t).lockAbandon c) := by
  change execLockAbandoned t c s = _
  rw [execLockAbandoned, engineEvent_up hup]
  dsimp only [State.arrive_chan, State.arrive_now]
  rw [hb, hf]
  exact congrArg _ (if_pos (decide_eq_true hx))

section
variable {v : Fin 32} {n : Nat} {b : Burst} {r : Req}

theorem exec_hostReadCompletion_answers {h : HostMem} (hup : s.up = true) (hm : s.mover v = some b) (hr : b.reqs.find? (fun r => r.addr = n) = some r) :
    exec (.hostReadCompletion t v n h) s =
      .next (match h with | .data y => (s.arrive t).requestData v b r y | .fail => (s.arrive t).requestFails v b r) := by
  have hm' : (s.arrive t).mover v = some b := hm
  change execHostReadCompletion t v n h s = _
  rw [execHostReadCompletion, engineEvent_up hup, hm']
  cases h
  all_goals
    dsimp only
    rw [hr]

theorem exec_completionTimeout_fails (hup : s.up = true) (hm : s.mover v = some b) (hr : b.reqs.find? (fun r => r.addr = n) = some r) :
    exec (.completionTimeout t v n) s = .next ((s.arrive t).requestFails v b r) := by
  have hm' : (s.arrive t).mover v = some b := hm
  change execCompletionTimeout t v n s = _
  rw [execCompletionTimeout, engineEvent_up hup, hm']
  dsimp only
  rw [hr]

end

theorem exec_streamDisableComplete_done {r : Fin 256} (hup : s.up = true) (hst : (s.stream r).st = .disabling) (ho : (s.stream r).owner = none)
    (hb : s.streamBusy r = false) :
    exec (.streamDisableComplete t r) s = .next ((s.arrive t).setStream r { s.stream r with st := .disabled, recs := [] }) := by
  refine next_inner hup ?_
  have hb' : (s.arrive t).streamBusy r = false := hb
  have hs : (s.arrive t).stream r = s.stream r := rfl
  rw [hb', hs, hst, ho]
  rfl

theorem exec_placementGap_ends {x : Time} {u : Nat} (hup : s.up = true) (hu : u = (s.chan c).cur.unit) (hp : (s.chan c).placedAt = some x)
    (hc : s.placing c = true) (ha : (s.chan c).act = .unit u) (hg : 0 < (s.stream u).gap) (hx : x + us (s.stream u).gap ≤ max s.now t) :
    exec (.placementGap t c) s = .next ((s.arrive t).placeDone c) := by
  subst hu
  have hc' : (s.arrive t).placing c = true := hc
  change execPlacementGap t c s = _
  rw [execPlacementGap, engineEvent_up hup]
  dsimp only [State.arrive_chan, State.arrive_now]
  rw [hp]
  refine congrArg _ (if_pos ?_)
  rw [hc', ha, Bool.true_and, decide_eq_true rfl, Bool.true_and, Bool.and_eq_true_iff]
  exact ⟨decide_eq_true hg, decide_eq_true hx⟩

theorem exec_coreWfi_waits {k : Fin 4} (hup : s.up = true) (hst : (s.core k).st = .run) (hh : (s.core k).halted = false) (hu : s.und.st = .run) :
    exec (.coreWfi t k) s = .next ((s.arrive t).setCore k { s.core k with st := .wfi }) := by
  refine (next_then hup).trans (congrArg _ ((if_neg ?_).trans (if_neg ?_)))
  · have hc : (s.arrive t).core k = s.core k := rfl
    simp [hc, hst, hh]
  · change s.und.st ≠ .entering
    rw [hu]
    decide

/-! ## The link of a port (R379) -/

/-- The port's link has come or gone, the source reported where it is lost. -/
def State.linkStep (s : State) (p : Nat) (up lost : Bool) : State :=
  let x := s.setPort p { s.port p with link := up, linkLost := (s.port p).linkLost || lost }
  if lost then x.report (112 + p) else x

/-- The link of the port is lost: an enabled one, outside Rest. -/
def State.linkLoss (s : State) (p : Nat) (up : Bool) : Bool := (s.port p).link && !up && decide ((s.port p).st = .enabled) && !s.resting

/-- Where the Understory does not watch a change, the port's step is all. -/
theorem exec_linkChange_unwatched {p : Fin 16} {up : Bool} (hd : s.dead = false) (h : (s.port p).link = up ∨ bit s.und.linkMon p = false) :
    exec (.linkChange t p up) s = .next ((s.arrive t).linkStep p up (s.linkLoss p up)) := by
  have hund : ((s.arrive t).linkStep p up (s.linkLoss p up)).und = s.und := by
    cases s.linkLoss p up <;> rfl
  refine (liveEvent_live (f := fun s => if (s.port p).link ≠ up && bit (s.linkStep p up (s.linkLoss p up)).und.linkMon p then
    (s.linkStep p up (s.linkLoss p up)).watchEvent (if up then 0x20 + p else 0x30 + p) else s.linkStep p up (s.linkLoss p up)) hd).trans (congrArg _ (if_neg ?_))
  have hwatch : ¬(decide ((s.port p).link ≠ up) && bit s.und.linkMon p) = true := by
    rcases h with h | h <;> simp [h]
  rw [← hund] at hwatch
  exact hwatch

theorem exec_linkChange_same {p : Fin 16} {b : Bool} (hd : s.dead = false) (hl : (s.port p).link = b) :
    exec (.linkChange t p b) s = .next ((s.arrive t).setPort p { s.port p with link := b }) := by
  have hloss : s.linkLoss p b = false := by rw [State.linkLoss, hl, Bool.and_not_self, Bool.false_and, Bool.false_and]
  rw [exec_linkChange_unwatched hd (.inl hl), hloss]
  exact congrArg (fun x => (.next ((s.arrive t).setPort p { s.port p with link := b, linkLost := x }) : Res)) (Bool.or_false _)

theorem exec_linkChange_rises {p : Fin 16} (hd : s.dead = false) (hm : bit s.und.linkMon p = false) :
    exec (.linkChange t p true) s = .next ((s.arrive t).setPort p { s.port p with link := true }) := by
  have hloss : s.linkLoss p true = false := by rw [State.linkLoss, Bool.not_true, Bool.and_false, Bool.false_and, Bool.false_and]
  rw [exec_linkChange_unwatched hd (.inr hm), hloss]
  exact congrArg (fun x => (.next ((s.arrive t).setPort p { s.port p with link := true, linkLost := x }) : Res)) (Bool.or_false _)

theorem exec_linkChange_falls {p : Fin 16} (hd : s.dead = false) (hl : (s.port p).link = true) (he : (s.port p).st = .enabled)
    (hr : s.resting = false) (hm : bit s.und.linkMon p = false) :
    exec (.linkChange t p false) s = .next (((s.arrive t).setPort p { s.port p with link := false, linkLost := true }).report (112 + p)) := by
  have hloss : s.linkLoss p false = true := by rw [State.linkLoss, hl, he, hr]; rfl
  rw [exec_linkChange_unwatched hd (.inr hm), hloss]
  exact congrArg (fun x => (.next (((s.arrive t).setPort p { s.port p with link := false, linkLost := x }).report (112 + p)) : Res)) (Bool.or_true _)

/-! ## A read by the service port -/

theorem exec_svcRead_answers {o n : Nat} {l : List Word} {x : State} (hd : s.dead = false) (ha : s.svc.attached = true) (h1 : 1 ≤ n) (hn : n ≤ 64)
    (hw : ({ s.arrive t with svc := { s.svc with frames := s.svc.frames + 1 } } : State).svcWords (o / 4 * 4) n = (l, x)) :
    exec (.svcRead t o n) s = .next (x.answer 0 l) := by
  refine (svcFrame_attached hd ha fun s => if n = 0 || 64 < n then s.answer cInvalid []
    else (s.svcWords (o / 4 * 4) n).2.answer cOk (s.svcWords (o / 4 * 4) n).1).trans (congrArg _ ((if_neg ?_).trans ?_))
  · simp [Nat.ne_of_gt h1, Nat.not_lt.2 hn]
  · rw [hw]
    rfl

/-! ## The end of a serial frame -/

theorem exec_serialFrameEnd_idles {i : Fin 8} {w : BitVec 64} {n : Nat} {b : Bool} {l : BitVec 16} {x : Time} (hup : s.up = true)
    (hf : (s.ser i).frame = some x) : ∃ u, exec (.serialFrameEnd t i w n b l) s = .next u ∧ (u.ser i).frame = none ∧
      (u.ser i).recover = max s.now t + us (fld (s.ser i).clk 16 8) := by
  obtain ⟨y, z, hy, hexec⟩ := serialFrameEnd_cases (t := t) (bits := w) (n := n) (noStart := b) (lm := l) hup hf rfl
  refine ⟨_, hexec, ?_⟩
  split
  · rw [(serialBad_spec z i y _).1]
    exact ⟨hy.frame, hy.recover⟩
  split
  · have hser : (z.setSer i y).ser i = y := tget_tput_self ..
    rw [hser]
    exact ⟨hy.frame, hy.recover⟩
  · rw [serialGood_ser]
    exact ⟨hy.frame, hy.recover⟩

/-! ## The rest of the conditions -/

theorem exec_coreDebugHalt_halts (k : Fin 4) (hup : s.up = true) : ∃ u, exec (.coreDebugHalt t k) s = .next u ∧ (u.core k).halted = true ∧
    u.axes.start.halted = s.axes.start.halted ||| BitVec.ofNat 4 (1 <<< k.val) :=
  ⟨_, exec_coreDebugHalt_up hup, (still_core (halts_still (s.arrive t) k)).1.trans (debugHalt_core (s.arrive t) k).1,
    congrArg Start.halted (halts_start (s.arrive t) k)⟩

theorem exec_coreDebugResume_runs (k : Fin 4) (hup : s.up = true) : ∃ u, exec (.coreDebugResume t k) s = .next u ∧ (u.core k).halted = false ∧
    u.axes.start.halted = s.axes.start.halted &&& ~~~BitVec.ofNat 4 (1 <<< k.val) :=
  ⟨_, exec_coreDebugResume_up hup, (still_core (resumes_rest (s.arrive t) k).1).1.trans (debugResume_core (s.arrive t) k).1,
    (resumes_rest (s.arrive t) k).2⟩

theorem exec_ticc_stays (h : Current s c 0x11) (hc : (s.chan c).cond = bit (s.chan c).cur.w1 0) :
    exec (.ticc t c) s = .next (((s.arrive t).modChan c fun h => { h with next := none }).complete c) := by
  have hnext : (if (s.chan c).cond != bit (s.chan c).cur.w1 0 then some ((s.chan c).cur.addr, (s.chan c).cur.phy) else none) = none :=
    if_neg (by rw [hc]; simp)
  exact (exec_ticc_current h).trans (congrArg (fun x => (.next (((s.arrive t).setChan c { s.chan c with next := x }).complete c) : Res)) hnext)

theorem exec_ticc_branches (h : Current s c 0x11) (hc : (s.chan c).cond ≠ bit (s.chan c).cur.w1 0) :
    exec (.ticc t c) s = .next (((s.arrive t).modChan c fun h => { h with next := some (h.cur.addr, h.cur.phy) }).complete c) := by
  have hnext : (if (s.chan c).cond != bit (s.chan c).cur.w1 0 then some ((s.chan c).cur.addr, (s.chan c).cur.phy) else none) =
      some ((s.chan c).cur.addr, (s.chan c).cur.phy) := if_pos (by simpa using hc)
  exact (exec_ticc_current h).trans (congrArg (fun x => (.next (((s.arrive t).setChan c { s.chan c with next := x }).complete c) : Res)) hnext)

theorem exec_waitCompare_unfired (h : Current s c 0x20) (hk : (s.chan c).cur.waitKind = 3) (hv : (s.chan c).armValid = false)
    (hf : (s.cmp (fld (s.chan c).cur.w2 0 8)).fireAt = none) : exec (.waitCompare t c) s = .next ((s.arrive t).enterWait c
      (.waitCmp (fld (s.chan c).cur.w2 0 8) ((s.chan c).waitLimit (s.chan c).cur.w3.toNat))) := by
  rw [exec_waitCompare_current h hk, if_neg]
  rw [State.hasFired]
  simp [hv, hf]

theorem exec_glade_waits (h : Current s c 0x21) (hg : s.inGlade (s.chan c).cur = false) (ho : s.gladeOor (s.chan c).cur = false) :
    exec (.glade t c) s = .next ((s.arrive t).enterWait c (.glade ((s.chan c).waitLimit (s.chan c).cur.gladeTimeout))) := by
  rw [exec_glade_current h, if_neg (Bool.eq_false_iff.1 hg), if_neg (Bool.eq_false_iff.1 ho)]

theorem exec_undTimerExpiry_due (hd : s.dead = false) (hr : s.resting = true) (hn : fld s.und.timer 0 24 ≠ 0)
    (hx : s.und.restAt + ms (fld s.und.timer 0 24) ≤ max s.now t) : exec (.undTimerExpiry t) s = .next ((s.arrive t).watchEvent 0x70) :=
  (next_else hd).trans (congrArg _ (if_pos (by
    change (s.resting && decide (fld s.und.timer 0 24 ≠ 0) && decide (s.und.restAt + ms (fld s.und.timer 0 24) ≤ max s.now t)) = true
    rw [hr, decide_eq_true hn, decide_eq_true hx]
    rfl)))

theorem exec_mainsCrossingTimeout_silent {i : Fin 2} (hd : s.dead = false) (hc : bit (s.mainsIn i).ctrl 0 = true)
    (hx : ∀ l, (s.mainsIn i).lastX = some l → l + ms 25 ≤ max s.now t) :
    exec (.mainsCrossingTimeout t i) s = .next ((s.arrive t).watchEvent (0x10 + i)) := by
  have hin : (s.arrive t).mainsIn i = s.mainsIn i := rfl
  change execMainsCrossingTimeout t i s = _
  rw [execMainsCrossingTimeout, liveEvent_live hd]
  refine congrArg _ (if_pos ?_)
  rw [hin, hc, Bool.true_and]
  cases hl : (s.mainsIn i).lastX with
  | none => rfl
  | some l => exact decide_eq_true (hx l hl)

theorem exec_bar4_serves {o : Nat} (hs : s.serves 0 = true) (n : Nat) (x : Option (List Byte)) :
    exec (.bar4Access t o n x) s = .next ((s.arrive t).bar4 o n x) := by
  cases x with
  | none => exact exec_bar4_read hs n
  | some w => exact exec_bar4_write hs n w

theorem exec_registerWrite_whole {o : Nat} {m : Ident} {v : Word} (hs : s.serves o = true) :
    exec (.registerWrite t m o 15 v) s = .next (if o % 4 = 0 ∧ m ≠ 0x20 then (s.arrive t).putReg m o v else s.arrive t) := by
  refine (regWrite_serves (f := fun s => if (15 : BitVec 4) = 15 && o % 4 = 0 && m ≠ 0x20 then s.putReg m o v else s) hs).trans (congrArg _ (if_congr ?_ rfl rfl))
  simp

end

/-- Settles O60: each command by its gate, and an event with a condition of its own by the lemma about that event. -/
theorem everyCommandCompletesWithItsEffect : Obligations.EveryCommandCompletesWithItsEffect := by
  unfold Obligations.EveryCommandCompletesWithItsEffect
  intro t m v s a ha
  subst ha
  refine ⟨fun hup => ?engine, fun c => ?command, fun hd => ?live, ?write, fun given hg => ?read, fun y hd hat hb hr hy => ?service, ?reset⟩
  case engine =>
    refine ⟨?_, ?_, ?_, ?_, ?_, ?_, ?_, ?_, ?_, ?_, ?_, ?_, ?_, ?_, ?_, ?_, ?_, ?_, ?_, ?_, ?_, ?_, ?_, ?_, ?_, ?_, ?_, ?_, ?_, ?_, ?_, ?_, ?_, ?_,
      ?_, ?_, ?_, ?_, ?_, ?_, ?_, ?_, ?_, ?_, ?_, ?_, ?_, ?_, ?_, ?_, ?_, ?_, ?_, ?_, ?_, ?_, ?_, ?_, ?_, ?_, ?_, ?_, ?_, ?_, ?_, ?_, ?_,
      fun _ _ hx hr hd hrec hf => exec_serialFrameStart_starts hup hx hr hd hrec hf,
      fun _ _ _ _ hx hm hr hp hk hd => mainsPhaseStep_steps hup hx hm hr hp hk hd, fun _ _ _ hx hm hr hd hle => timeStep_steps hup hx hm hr hd hle,
      fun _ _ _ _ hx hm hr hk hd hle => syntheticStep_steps hup hx hm hr hk hd hle,
      fun _ _ _ _ hx hm hr hy hk hd => mirrorPhaseStep_steps hup hx hm hr hy hk hd, fun _ _ hx hm he ho hd => mirrorTimeout_loses hup hx hm he ho hd,
      fun _ _ hl hx hf => exec_standstill_past hup hl hx hf, fun _ _ ha hst hx => exec_waitTimeExpiry_due hup ha hst hx,
      fun _ hw => next_inner hup hw, fun _ _ _ hst ha hx => exec_waitTimeout_due hup hst ha hx,
      fun _ _ hst ha hg => exec_gladeComplete_inside hup hst ha hg, fun _ _ hb hf hx => exec_lockAbandoned_late hup hb hf hx,
      fun _ _ _ _ _ hm hr => exec_hostReadCompletion_answers hup hm hr, fun _ _ _ _ hm hr => exec_hostReadCompletion_answers hup hm hr,
      fun _ _ _ _ hm hr => exec_completionTimeout_fails hup hm hr, fun _ hst => next_inner hup hst,
      fun _ hst ho hb => exec_streamDisableComplete_done hup hst ho hb, fun _ _ _ hu hp hc ha hg hx => exec_placementGap_ends hup hu hp hc ha hg hx,
      fun hc hr => next_inner hup (Bool.and_eq_true_iff.2 ⟨hc, decide_eq_true hr⟩), fun _ hst => next_inner hup hst,
      fun _ hst hh hu => exec_coreWfi_waits hup hst hh hu, fun _ _ _ _ _ _ hf => exec_serialFrameEnd_idles hup hf,
      fun k => exec_coreDebugHalt_halts k hup, fun k => exec_coreDebugResume_runs k hup⟩
    all_goals (intros; exact next_then hup)
  case command =>
    exact ⟨exec_read_current, exec_write_current, exec_flush_current, exec_load_current, exec_setMod_current, exec_setRate_current,
      exec_sense_current, exec_move_current, exec_fill_current, exec_compare_current, exec_gather_current, exec_tic_current,
      fun h hc => exec_ticc_stays h hc, fun h hc => exec_ticc_branches h hc, exec_waitTime_current,
      fun h hk hr => (exec_waitUnit_current h hk).trans (congrArg _ (if_pos hr)),
      fun h hk hr => (exec_waitUnit_current h hk).trans (congrArg _ (if_neg (Bool.eq_false_iff.1 hr))),
      fun h hk hv hf => exec_waitCompare_unfired h hk hv hf, fun h hg => (exec_glade_current h).trans (congrArg _ (if_pos hg)),
      fun h hg ho => exec_glade_waits h hg ho, exec_signalLevel_current, exec_signalPulse_current, exec_signalPattern_current,
      exec_armCompare_current, exec_armCapture_current, exec_lock_current, exec_unlock_current, exec_cas_current, exec_mark_current,
      exec_nop_current⟩
  case live =>
    refine ⟨?_, ?_, ?_, ?_, ?_, ?_, ?_, ?_, ?_, ?_, ?_, ?_, ?_, ?_, ?_, ?_, ?_, ?_, ?_, fun _ _ hl => exec_linkChange_same hd hl,
      fun _ _ hm => exec_linkChange_rises hd hm, fun _ hl he hr hm => exec_linkChange_falls hd hl he hr hm,
      fun hr hn hx => exec_undTimerExpiry_due hd hr hn hx, fun _ hc hx => exec_mainsCrossingTimeout_silent hd hc hx⟩
    all_goals (intros; exact next_else hd)
  case write =>
    refine ⟨?_, ?_, ?_, ?_, ?_, ?_, ?_, ?_, ?_, ?_, ?_, ?_, ?_, ?_, ?_, ?_, ?_, ?_, ?_, ?_, ?_, ?_, ?_, ?_, ?_, ?_, ?_, ?_, ?_, ?_, ?_, ?_, ?_, ?_,
      ?_, ?_, ?_, ?_, ?_, ?_, ?_, ?_, ?_, ?_, ?_, ?_, ?_, ?_, ?_, ?_, ?_, ?_, ?_, ?_, ?_, ?_, ?_, ?_, fun _ n x hs => exec_bar4_serves hs n x,
      fun _ hs => exec_registerWrite_whole hs⟩
    all_goals (intros; exact next_then ‹_›)
  case read =>
    obtain rfl : given = fun p => p.2.reply p.1 := funext hg
    and_intros
    all_goals (intros; exact next_then ‹_›)
  case service =>
    subst hy
    exact ⟨fun _ _ _ _ h1 hn hw => exec_svcRead_answers hd hat h1 hn hw, fun b x => svcWrite_acts hd hat hb hr fun s => s.svcSend b x,
      fun b x => svcWrite_acts hd hat hb hr fun s => s.svcAck b x, fun n x => svcWrite_acts hd hat hb hr fun s => s.svcStage n x,
      fun w x => svcWrite_acts hd hat hb hr fun s => s.svcCommit w x v, fun x => svcWrite_acts hd hat hb hr fun s => s.svcFuse x,
      fun k b => svcWrite_acts hd hat hb hr fun s => s.svcCore k b⟩
  case reset =>
    exact ⟨fun _ => rfl, fun _ _ => rfl, rfl, fun _ => rfl, fun _ => rfl, fun _ hp => congrArg _ (if_pos hp)⟩

end Sys2Proof.Machine
end
